-- ==== Sys2Proof/Word.lean ====
section
/-! DEFINITION. The word types of the model and the two shapes of sparse data. -/

namespace Sys2Proof

/-- A register of the device: 32 bits, naturally aligned (Registers and access codes, R5). -/
abbrev Word := BitVec 32

/-- A byte of a frame, a memory or an image. -/
abbrev Byte := BitVec 8

/-- Sparse data by key, in rising key order with no repeats. -/
abbrev Tab (α : Type) := List (Nat × α)

/-- A byte memory: only the bytes that differ from 0 are listed, addresses strictly rising. -/
abbrev Mem := List Host.Cell

end Sys2Proof
end

