-- ==== Sys2Proof/Syntax.lean ====
section
/-! DEFINITION. The commands of the KQ256: register accesses of firmware and hosts, protocol operations, pin and bus
events, and the device's own bounded steps. One constructor per row of the table of operations and events. -/

namespace Sys2Proof

/-- One of the two switching planes (The two planes, R19). -/
inductive Plane where
  | A
  | B
  deriving DecidableEq, Repr

/-- Who makes a register access: the management cluster, as the Triangle or TRI0 (Clapper's target 0) or as another of its processors,
TRI1, TRI2 or AP0 to AP3, named by its Clapper target (R467, R469); the physical function of HI0 or HI1; or the function of a tenant
through its own window (R35, R483). -/
inductive Requester where
  | mc
  | core (target : Nat)
  | hi0
  | hi1
  | tenant (tn : Nat)
  deriving DecidableEq, Repr

/-- A debug action but resume (R465). -/
inductive DebugAct where
  | halt
  | step
  | access
  | breakpoint
  deriving DecidableEq, Repr

/-- How a frame came in: whole and clean, with a bad FCS, with a PCS code error, cut off by the loss of the link,
or failing the reassembly of its fragments (R77, R79). -/
inductive RxCond where
  | clean
  | badFcs
  | codeError
  | cutOff
  | badReassembly
  deriving DecidableEq, Repr

/-- What the port hardware reports: PCS lock, the end of a remote fault, a ready T1S PHY (R84, R94). -/
inductive PcsEv where
  | lock
  | faultClear
  | phyReady
  deriving DecidableEq, Repr

/-- Where a beat comes (R323, R326): at the twin on the fabric path, at the twin and so at the arbiter on the side path, or at
the arbiter only, when the side path breaks behind it or the twin is off. -/
inductive BeatPath where
  | fabric
  | side
  | arbiter
  deriving DecidableEq, Repr

/-- Outcome of the boot step that ends (R517): the cores that passed their self-test by mask, the TRNG's health tests, whether a
privileged record area carries the fused epoch and a correct seal, what the boot source gave, and the size of the LPDDR in GiB, 0 when
none was found. A step reads the fields of its own outcome; a boot from the host reads the images in the host's memory. -/
structure BootOutcome where
  cores : Nat
  trngOk : Bool
  /-- The 64 bytes of the boot directory. -/
  dir : List Byte
  privOk : Bool
  /-- Bytes of the firmware image and of the signature behind it. -/
  fw : List Byte
  /-- Bytes of the chart that the boot source supplied. -/
  chart : List Byte
  lpddrGib : Nat
  deriving DecidableEq, Repr

/-- The frame kinds of a CAN channel (R340). -/
inductive CanKind where
  | classic
  | fd
  | xl
  deriving DecidableEq, Repr

/-- A CAN message on the bus. -/
structure CanMsg where
  kind : CanKind
  ext : Bool
  rtr : Bool
  brs : Bool
  esi : Bool
  id : Nat
  /-- SDT, VCID, AF and SEC of a CAN XL frame. -/
  sdt : Nat
  vcid : Nat
  af : Nat
  sec : Bool
  /-- The DLC field as coded on the bus; 0 for CAN XL. -/
  dlc : Nat
  data : List Byte
  deriving DecidableEq, Repr

/-- A CAN protocol error: its LEC code, whether the controller was transmitting, and whether ISO 11898-1 has its special
rule for it: a transmitter's exceptions that leave TEC, a receiver's rules that add 8 to REC (R342). -/
structure CanErr where
  lec : Nat
  transmitting : Bool
  alt : Bool
  deriving DecidableEq, Repr

/-- What a LIN response tells: its first data byte starts, sent by the device (R353), or it is complete, without an error or with
one (R352). -/
inductive LinErr where
  | start
  | none
  | checksum
  | framing
  | bit
  deriving DecidableEq, Repr

/-- What a selective wake decoder sees: a frame with its identifier, DLC and data, or a decoding error (R386, R387). -/
inductive SwFrame where
  | frame (fd ext : Bool) (id dlc : Nat) (data : List Byte)
  | error
  deriving DecidableEq, Repr

/-- PCIe link events (R488, R501). -/
inductive PcieEv where
  | hotReset
  | linkDown
  | l0
  | lowPower
  deriving DecidableEq, Repr

/-- A memory error: the memory's code, whether it was corrected, its address, plane and buffer (R157, R180, R525). -/
structure MemErr where
  mem : Nat
  corrected : Bool
  pl : Plane
  addr : Nat
  pool : Nat
  buf : Nat
  deriving DecidableEq, Repr


/-- The commands and events of the KQ256, one constructor per row of the table of operations and events. -/
inductive Instr where
  /-- REGISTER_WRITE (R7). A write to a register that has no row of its own acts on each field by its access code, after the checks of R5, R31, R33 and R35. -/
  | registerWrite (r : Requester) (addr size v : Nat)
  /-- LO_READ (R6). A read of an _LO register latches the current _HI value for the requester that reads it. -/
  | loRead (r : Requester) (addr size : Nat)
  /-- RC_COUNTER_READ (R7). A management-cluster read of an RC counter returns its value and clears it; a host read leaves it unchanged. -/
  | rcCounterRead (r : Requester) (addr size : Nat)
  /-- HOST_64BIT_ACCESS (R32). A naturally aligned 64-bit host access is split into two 32-bit accesses, lower address first. -/
  | host64bitAccess (r : Requester) (wr : Bool) (addr v : Nat)
  /-- REQ_RUN (R21). A GLB_STATE_CTL request for RUN is accepted or refused with BUSY, ILLEGAL or NOT_READY. -/
  | reqRun (r : Requester) (tie : Bool)
  /-- REQ_TEST (R21). A GLB_STATE_CTL request for TEST is accepted or refused. -/
  | reqTest (r : Requester) (tie : Bool)
  /-- REQ_RECOVERY (R21). A GLB_STATE_CTL request for RECOVERY is accepted or refused. -/
  | reqRecovery (r : Requester) (tie : Bool)
  /-- REQ_SLEEP_R (R507). A request for SLEEP-R is refused, or is accepted and starts the sleep entry sequence. -/
  | reqSleepR (r : Requester) (tie : Bool)
  /-- REQ_SLEEP_D (R507). A request for SLEEP-D is refused, or is accepted and starts the sleep entry sequence. -/
  | reqSleepD (r : Requester) (tie : Bool)
  /-- SLEEP_ENTRY_ADVANCE (R508). A phase of the sleep entry sequence completes: Knells done, then planes flushed and state retained, then domains powered down, then the device asleep. -/
  | sleepEntryAdvance
  /-- GLB_SWRESET (R515). A write of GO with KEY 0x5A17 resets everything but D0 and leads to BOOT. -/
  | glbSwreset (r : Requester) (key : Nat) (go : Bool)
  /-- POWER_ON_RESET (R38). VDD_AO rising through its threshold resets everything and sets only POR in GLB_RESET_CAUSE. -/
  | powerOnReset
  /-- RESET_N_LOW (R515). RESET_N held low resets all but D0, or a short pulse is ignored entirely. -/
  | resetNLow (held : Bool)
  /-- PWR_GOOD_LOW (R515). PWR_GOOD held low resets all but D0, or a short pulse is ignored entirely. -/
  | pwrGoodLow (held : Bool)
  /-- SUPPLY_MONITOR_RESET (R537). A core or AO supply that stays below its reset threshold for 2 µs resets all but D0. -/
  | supplyMonitorReset
  /-- THERMAL_RESET (R515). Tj at or above 135 °C for 1 ms resets all but D0. -/
  | thermalReset
  /-- DEBUG_RESET (R515). An authenticated debug reset request resets all but D0. -/
  | debugReset
  /-- RESET_RELEASE (R517). The end of the last reset source latches the straps, powers the boot domains and starts the boot sequence. -/
  | resetRelease (bootMode : Nat) (splitN : Bool)
  /-- BOOT_STEP_DONE (R517). A bounded step of the boot ROM sequence completes and the next one starts. -/
  | bootStepDone (outcome : BootOutcome)
  /-- PWR_HOSTBOOT_GO (R519). A write of GO by the HI0 physical function in BOOT with BOOT_MODE 0b01 starts the boot from host memory. -/
  | pwrHostbootGo (r : Requester) (go : Bool)
  /-- CHT_OPEN (R52). OPEN records its requester as owner and takes the shadow to LOADING. -/
  | chtOpen (r : Requester) (tie : Bool)
  /-- SHADOW_WINDOW_WRITE (R53). A write to the shadow window stores bytes when made by the owner in LOADING, and otherwise sets WIN_REJECT. -/
  | shadowWindowWrite (r : Requester) (addr v : Nat)
  /-- CHT_VERIFY (R47). VERIFY takes the shadow to VERIFYING and starts the ordered verification checks. -/
  | chtVerify (r : Requester) (tie : Bool)
  /-- VERIFY_DONE (R50). The end of verification sets VERIFIED with CHT_DIFF and KIND, or REJECTED with CHT_ERR, and raises CHT_VERIFY_EV. -/
  | verifyDone
  /-- CHT_ARM (R56). ARM takes the shadow to ARMED and starts preparation, or starts the rolling plane swap for a COLD chart. -/
  | chtArm (r : Requester) (tie : Bool)
  /-- CHT_DISARM (R51). DISARM releases pending rule entries and shadow gate lists and returns the shadow to VERIFIED. -/
  | chtDisarm (r : Requester) (tie : Bool) (late : Bool)
  /-- CHT_DISCARD (R51). DISCARD empties the shadow and releases its owner. -/
  | chtDiscard (r : Requester) (tie : Bool)
  /-- CHT_ABORT_SWAP (R69). ABORT_SWAP before the commit rebuilds Plane B under the active chart and returns the shadow to VERIFIED. -/
  | chtAbortSwap (r : Requester) (tie : Bool) (late : Bool)
  /-- CHT_FLOOR_WRITE (R49). A write to CHT_FLOOR takes effect only when it raises the floor. -/
  | chtFloorWrite (r : Requester) (v : Nat)
  /-- PREPARATION_COMPLETE (R57). The end of preparation sets READY, writes CHT_DOWNBEAT and may set LATE. -/
  | preparationComplete
  /-- CHART_DOWNBEAT (R58). At the first peal boundary after arm time and preparation, the changed hot sections switch in both planes and the epochs swap. -/
  | chartDownbeat
  /-- OLD_EPOCH_DELETE_DONE (R59). The background deletion of old-epoch rules ends and the shadow becomes EMPTY. -/
  | oldEpochDeleteDone
  /-- HANDOVER_DRAIN_END (R64). A handover drain ends when the handing plane is empty or CHT_SWAP_DRAIN elapses, flushing what remains and isolating the plane. -/
  | handoverDrainEnd
  /-- SWAP_REBUILD_DONE (R65). An isolated plane finishes its rebuild in a rolling swap and enters RESYNC. -/
  | swapRebuildDone
  /-- SWAP_RESYNC_DONE (R65). A plane finishes its resynchronisation in a rolling swap; after step 7 the swap completes and CHT_SWAP_EV is raised. -/
  | swapResyncDone
  /-- FRAME_RECEIVE (R10). A whole frame received at a port is timestamped, placed, parsed, checked, classified, policed and admitted. -/
  | frameReceive (port : Nat) (bytes : List Byte) (rx : RxCond) (age : Nat)
  /-- LINK_FAULT (R85). Loss of PCS lock or a remote fault declares the link down, aborts the frame in transmission and starts the hold. -/
  | linkFault (port : Nat) (remote : Bool)
  /-- LINK_UP_DEBOUNCE (R84). The link-up conditions held for UP_DEBOUNCE_MS declare the link up and end any hold. -/
  | linkUpDebounce (port : Nat)
  /-- ADMIN_DOWN_WRITE (R85). A write of ETH_CTL or T1S_CTL ADMIN_DOWN declares the link down and holds it, or releases it. -/
  | adminDownWrite (r : Requester) (port : Nat) (down : Bool)
  /-- AN_RESULT (R76). Auto-negotiation completes; an unsupported speed sets SPEED_UNSUP and negotiation retries. -/
  | anResult (port speed : Nat)
  /-- VERIFY_MPACKET_TIMER (R82). Every VERIFY_MS after link-up a verify mPacket is sent, up to three times; verification then fails. -/
  | verifyMpacketTimer (port : Nat)
  /-- RESPOND_MPACKET (R82). A received respond mPacket makes preemption active. -/
  | respondMpacket (port : Nat)
  /-- HOLD_EXPIRE (R89). PORT_DOWN_HOLD ends with the link still down, flushing the port's queues in both planes. -/
  | holdExpire (port : Nat) (tie : Bool := false)
  /-- HOLD_MS_WRITE (R91). A write of HOLD_MS during a hold takes effect at once and may flush the queues in the next clock. -/
  | holdMsWrite (r : Requester) (port ms : Nat) (elapsed : Bool)
  /-- PLCA_BEACON (R94). A received BEACON brings PLCA status up on a non-coordinator segment. -/
  | plcaBeacon (n : Nat)
  /-- BEACON_TIMEOUT (R94). No BEACON for 4 000 bit times takes PLCA status down. -/
  | beaconTimeout (n : Nat)
  /-- T1S_COLLISION (R95). A collision during own transmission aborts and retries the frame, discarding it after 16 attempts. -/
  | t1sCollision (n : Nat)
  /-- FRAG_AGE (R119). A fragment table entry is removed 250 to 251 ms after insertion and counted. -/
  | fragAge (pl : Plane) (idx : Nat)
  /-- EXC_LIMITER_WRITE (R130). A write of an exception limiter's rate or burst fills its bucket to the burst. -/
  | excLimiterWrite (r : Requester) (burst : Bool) (v : Nat)
  /-- TBL_INSERT (R137). INSERT places an exact-match key by the cuckoo algorithm, or returns EXISTS or NEED_REHASH. -/
  | tblInsert (r : Requester) (tie : Bool) (wide pin : Bool)
  /-- TBL_REPLACE (R560). REPLACE rewrites the result of the static, else learned, entry of a key. -/
  | tblReplace (r : Requester) (tie : Bool) (wide pin : Bool)
  /-- TBL_DELETE (R560). DELETE removes the static, else learned, entry of a key. -/
  | tblDelete (r : Requester) (tie : Bool) (wide : Bool)
  /-- TBL_LOOKUP (R560). LOOKUP reports the entry that a lookup would take in the selected plane. -/
  | tblLookup (r : Requester) (tie : Bool) (wide : Bool) (pl : Plane)
  /-- TBL_READ_AT (R172). READ_AT reads the key, result and status word at TBL_CMD_LOC in the selected plane. -/
  | tblReadAt (r : Requester) (tie : Bool) (region : Nat) (pl : Plane)
  /-- TBL_WRITE_AT (R159). WRITE_AT writes key, result and status word at TBL_CMD_LOC without a duplicate check. -/
  | tblWriteAt (r : Requester) (tie : Bool) (region : Nat)
  /-- TBL_REHASH (R141). REHASH puts a region into DUAL with a new seed and starts its walk. -/
  | tblRehash (r : Requester) (tie : Bool) (region : Nat)
  /-- TBL_RESUME (R143). RESUME restarts a stalled rehash walk at the stalled bucket. -/
  | tblResume (r : Requester) (tie : Bool) (region : Nat)
  /-- TBL_UNLOCK (R148). UNLOCK clears the flap lock of a learned entry. -/
  | tblUnlock (r : Requester) (tie : Bool) (wide : Bool)
  /-- TBL_FLUSH_LEARNED (R556). FLUSH_LEARNED deletes the learned entries of a region, all or those of one TARGET. -/
  | tblFlushLearned (r : Requester) (tie : Bool) (region : Nat)
  /-- TBL_LPM_INSERT (R156). LPM_INSERT adds a prefix in hash-per-length or trie mode, or returns LPM_FULL. -/
  | tblLpmInsert (r : Requester) (tie : Bool) (pin : Bool)
  /-- TBL_LPM_DELETE (R156). LPM_DELETE removes a prefix. -/
  | tblLpmDelete (r : Requester) (tie : Bool)
  /-- TBL_LPM_LOOKUP (R155). LPM_LOOKUP returns the result of the longest stored prefix covering an address. -/
  | tblLpmLookup (r : Requester) (tie : Bool)
  /-- TBL_BLOOM_REBUILD (R153). BLOOM_REBUILD recomputes every Bloom filter into a shadow copy and swaps the copies. -/
  | tblBloomRebuild (r : Requester) (tie : Bool)
  /-- REHASH_WALK_END (R142). The DUAL walk completes and raises REHASH_DONE, or stalls on an unplaceable entry and raises REHASH_STALL. -/
  | rehashWalkEnd (region : Nat)
  /-- LEARN_EVENT_APPLY (R146). The LEAD learn engine applies the next learn event in stamp order, inserting, moving or refreshing an entry. -/
  | learnEventApply
  /-- AGE_SWEEP (R150). Every AGE_S/4 the learn engine ages or deletes every unlocked learned entry. -/
  | ageSweep
  /-- PARITY_REPAIR (R158). A bad slot is repaired from a good copy, or left bad with PAR_BOTH when none exists. -/
  | parityRepair (pl : Plane) (table addr : Nat)
  /-- SCRUB_READ (R160). The scrubber reads the next on-chip item and reports any parity error it finds. -/
  | scrubRead (pl : Plane)
  /-- PAGE_READ_COMPLETE (R163). A page read from LPDDR completes, is verified, and resumes the parked frames in order. -/
  | pageReadComplete (pl : Plane) (region page : Nat)
  /-- ALLOC_SPILL (R183). A refused allocation with SPILL is retried in the next clock at the next larger pool, or lost. -/
  | allocSpill (pl : Plane)
  /-- BUFFER_RETURN_PUSH (R181). Up to two returned buffers per pool are pushed onto the free list from the return queue. -/
  | bufferReturnPush (pl : Plane) (pool : Nat)
  /-- COPY_WRITE (R189). The replication engine writes a multicast copy into a new buffer and releases its placeholder. -/
  | copyWrite (pl : Plane)
  /-- CAP_CTL_WRITE (R199). A write of CAP_CTL enables or stops capture and sets mode, target and time base while disabled. -/
  | capCtlWrite (r : Requester) (v : Nat)
  /-- CAP_TAIL_WRITE (R199). The consumer advances CAP_TAIL, ignored in RING mode while enabled. -/
  | capTailWrite (r : Requester) (v : Nat)
  /-- EPOCH_END (R207). At each 1 ms placement epoch, Drum Major updates LOAD and runs rebalancing and host queue placement. -/
  | epochEnd (write : Option (Nat × Nat) := none)
  /-- MARKER_ADMIT (R213). Once the bucket's earlier frames are admitted, the marker places marker entries on the old plane's non-empty queues. -/
  | markerAdmit (ctx : Nat)
  /-- BUCKET_PIN_WRITE (R212). A write of PLC_BUCKETb pins or unpins a bucket. -/
  | bucketPinWrite (r : Requester) (b : Nat) (pin : Bool) (pl : Plane)
  /-- PIN_MOVE_START (R212). A pinned bucket on the wrong plane is moved by the drain marker once a context is free. -/
  | pinMoveStart (b : Nat)
  /-- RSQ_EXPIRE (R219). A migration context expires RSQ_HOLD after its switch, releasing all held frames. -/
  | rsqExpire (ctx : Nat)
  /-- EGRESS_SELECT (R238). At a transmission opportunity, the port scheduler deals with heads and selects a frame by gates, strict priority and DRR under the shapers. -/
  | egressSelect (port : Nat) (elapsed : Nat := 0)
  /-- TRANSMIT_END (R177). The last byte of a frame is transmitted, its buffer is returned and the frame is counted. -/
  | transmitEnd (port : Nat)
  /-- GATE_CHANGE (R284). TB0 reaches the OFFSET of the next gate list change and the port's gates switch. -/
  | gateChange (port : Nat)
  /-- SHAPER_WRITE (R242). A write to a shaper's RATE or BURST resets its level to BURST or 0. -/
  | shaperWrite (r : Requester) (addr v : Nat)
  /-- SNARE_WRITE (R246). A write to SCH_SNAREs_CFG or BURST resets the snare's level in both planes. -/
  | snareWrite (r : Requester) (addr v : Nat)
  /-- INC_NS_WRITE (R258). A write of INC_NS commits the increment pair, or sets INC_ERR when it lies out of range. -/
  | incNsWrite (r : Requester) (tb v : Nat)
  /-- TB_STEP (R259). A step request loads a time base at the next tick, or is refused with STEP_REFUSED. -/
  | tbStep (r : Requester) (tb : Nat)
  /-- TIM_SNAP (R261). A write to TIM_SNAP captures the selected time bases at the next tick. -/
  | timSnap (r : Requester) (mask : Nat)
  /-- TXTS_POP (R273). A write of POP removes the head report of the transmit timestamp FIFO. -/
  | txtsPop (r : Requester) (pop : Bool)
  /-- PPS_PULSE (R275). A PPS output starts a pulse at each period instant of its time base. -/
  | ppsPulse (n : Nat)
  /-- PPS_EDGE (R276). An active edge on a PPS input captures its time base into the capture FIFO. -/
  | ppsEdge (n : Nat) (elapsed : Nat := 0)
  /-- PPS_CAP_POP (R276). A write of POP removes the head PPS capture. -/
  | ppsCapPop (r : Requester) (n : Nat)
  /-- CAR_DECLARE (R295). DECLARE appends the staged declaration record to firmware's batch. -/
  | carDeclare (r : Requester)
  /-- CAR_WITHDRAW (R295). WITHDRAW appends a stream withdrawal to firmware's batch. -/
  | carWithdraw (r : Requester) (stream : Nat)
  /-- CAR_SYNTH (R295). SYNTH submits firmware's batch as a job and opens a new batch. -/
  | carSynth (r : Requester) (repack : Bool)
  /-- CAR_CANCEL (R299). CANCEL ends firmware's latest job unless its downbeat falls in the same clock. -/
  | carCancel (r : Requester) (late : Bool)
  /-- JOB_START (R294). Carillon starts the next queued job. -/
  | jobStart
  /-- JOB_COMPLETE (R289). A synthesis job ends DONE, REPACK_FAIL or MUST_ADMIT_FAIL with a reason per stream. -/
  | jobComplete
  /-- JOB_DOWNBEAT (R297). At the first peal boundary after arm time and completion, the job's gate lists, snares and peal take effect. -/
  | jobDownbeat
  /-- BEAT_ARRIVAL (R324). The 8 bytes of a beat from plane `frm` arrive on a path, within their slot or not. -/
  | beatArrival (frm : Plane) (path : BeatPath) (bytes : List Byte) (inSlot : Bool)
  /-- BEAT_SLOT (R324). At the end of each 8 µs beat slot, a slot without a good beat counts as missed. -/
  | beatSlot (frm : Plane)
  /-- RED_ISOLATE (R329). ISOLATE hands an IN_SERVICE plane over by the handover drain, or isolates a FAILED plane at once. -/
  | redIsolate (r : Requester) (pl : Plane)
  /-- RED_TEST (R330). TEST starts the logic and memory self-test of an isolated plane. -/
  | redTest (r : Requester) (pl : Plane)
  /-- RED_TEST_DONE (R330). The plane self-test ends, writes RED_TEST and raises CMD_DONE. -/
  | redTestDone (logicOk : Bool) (faults : List (Nat × Nat))
  /-- RED_REJOIN (R331). REJOIN starts the rebuild of an isolated plane under the active chart. -/
  | redRejoin (r : Requester) (pl : Plane)
  /-- REJOIN_REBUILD_DONE (R331). The rejoining plane's rebuild ends and it enters RESYNC. -/
  | rejoinRebuildDone
  /-- REJOIN_RESYNC_DONE (R331). The copy from the twin ends and the plane enters IN_SERVICE as FOLLOW. -/
  | rejoinResyncDone
  /-- RED_PROMOTE (R328). PROMOTE makes an IN_SERVICE FOLLOW plane LEAD in one clock. -/
  | redPromote (r : Requester) (pl : Plane)
  /-- TAKEBACK_EXPIRE (R335). The take-back timer reaches PLN_TAKEBACK and the preferred plane becomes LEAD. `tie`: a PROMOTE or a
  change of device state falls in the same clock. -/
  | takebackExpire (tie : Bool := false)
  /-- FRER_RESET_TIMER (R318). A recovery entry's reset timer runs out, setting take_any and clearing its history. `pl` is the half that names
  the entry. -/
  | frerResetTimer (pl : Plane) (rec : Nat)
  /-- TAKE_ANY_WRITE (R317). A write of 1 to FRE_RECr_STATE.TAKE_ANY sets take_any and clears the history. -/
  | takeAnyWrite (r : Requester) (pl : Plane) (rec : Nat)
  /-- CAN_MESSAGE_RECEIVE (R344). A CAN message valid for a receiver becomes an internal frame and enters the core. -/
  | canMessageReceive (n : Nat) (msg : CanMsg) (age : Nat)
  /-- CAN_PROTOCOL_ERROR (R342). A bus error updates TEC and REC and may take the controller error-passive or bus-off. -/
  | canProtocolError (n : Nat) (err : CanErr)
  /-- CAN_RECOVER (R342). A write of RECOVER at bus-off starts the recovery sequence. -/
  | canRecover (r : Requester) (n : Nat)
  /-- BUS_OFF_RECOVERY_END (R342). The recovery sequence ends and the CN link comes up. -/
  | busOffRecoveryEnd (n : Nat)
  /-- CAN_ARBITRATION (R346). Before an arbitration attempt, expired entries are discarded and the winning entry is offered to the bus.
  The SOF falls `elapsed` ns after the last tick of PLL_TS; `won`: no other node's message wins the bus. -/
  | canArbitration (n : Nat) (elapsed : Nat := 0) (won : Bool := true)
  /-- CAN_TX_SUCCESS (R345). A message transmitted successfully leaves the transmit buffer. -/
  | canTxSuccess (n : Nat)
  /-- CAN_FLUSH_TXBUF (R347). A write of FLUSH_TXBUF discards every buffer entry not on the bus. -/
  | canFlushTxbuf (r : Requester) (n : Nat)
  /-- CAN_ADMIN_DOWN (R339). A write of CAN_CTL.ADMIN_DOWN takes the controller off the bus, or rejoins after 11 recessive bits. -/
  | canAdminDown (r : Requester) (n : Nat) (down : Bool)
  /-- LIN_ADMIN_DOWN (R339). A write of LIN_CTL.ADMIN_DOWN releases the bus and declares the link down, or releases it. -/
  | linAdminDown (r : Requester) (n : Nat) (down : Bool)
  /-- LIN_BUS_DOMINANT (R339). The LIN bus dominant for more than 100 bit times takes the LN link down. -/
  | linBusDominant (n : Nat)
  /-- LIN_SLOT (R349). A commander's slot begins and the header of its schedule entry is sent, its break `elapsed` ns after the last
  tick of PLL_TS. -/
  | linSlot (n : Nat) (elapsed : Nat := 0)
  /-- LIN_HEADER (R348). A LIN header received by the channel is answered, received or ignored by its frame table. -/
  | linHeader (n pid age : Nat)
  /-- LIN_RESPONSE (R352). A complete response for a subscribed ID becomes an internal LIN frame, or an error is counted. -/
  | linResponse (n : Nat) (data : List Byte) (err : LinErr)
  /-- LIN_RESPONSE_TIMEOUT (R352). A response not complete within its time counts NO_RESP. -/
  | linResponseTimeout (n : Nat)
  /-- LIN_SCHED_SEL (R350). A write of SCHED_SEL selects the schedule table from the end of the current slot. -/
  | linSchedSel (r : Requester) (n sel : Nat)
  /-- LIN_SCHED_RUN (R350). A write of SCHED_RUN starts or stops the commander's schedule at the end of the slot. -/
  | linSchedRun (r : Requester) (n : Nat) (run : Bool)
  /-- ACF_BATCH_CLOSE (R360). An ACF batch closes at its window end or ACF_MAXMSG and enters the core as a KIND 0x03 frame. -/
  | acfBatchClose (lin : Bool) (n : Nat)
  /-- UNPACK_MOVE (R362). The next ACF message of a frame being unpacked moves into a free CAN buffer entry or a LIN response buffer. -/
  | unpackMove (lin : Bool) (n : Nat)
  /-- NM_REPEAT_EXPIRE (R371). REPEAT_MS after entry to REPEAT the cluster goes to NORMAL. -/
  | nmRepeatExpire (c : Nat)
  /-- NM_TIMEOUT (R371). With no request held, the NM timer reaching NM_TIMEOUT takes the cluster to READY_SLEEP. -/
  | nmTimeout (c : Nat)
  /-- READY_SLEEP_DRAINED (R372). The cluster's queues and CAN buffers empty and it enters PREPARE_SLEEP, sending go-to-sleep. -/
  | readySleepDrained (c : Nat)
  /-- READY_MAX_EXPIRE (R372). READY_MAX_MS elapses in READY_SLEEP and the cluster enters PREPARE_SLEEP. -/
  | readyMaxExpire (c : Nat)
  /-- KNELL (R375). WAIT_SLEEP ends and the cluster enters SHUTDOWN and runs the Knell sequence. -/
  | knell (c : Nat)
  /-- KNELL_END (R375). The Knell sequence ends and the cluster enters BUS_SLEEP, or REPEAT when a wake is latched. -/
  | knellEnd (c : Nat)
  /-- WAKE_PIN_EDGE (R384). A filtered edge on a WAKE pin is a wake event of its cluster or of the device. -/
  | wakePinEdge (k : Nat)
  /-- CAN_WAKE_PATTERN (R384). CANn_RXD low for 5 µs on a sleeping channel with PATTERN_WAKE is a wake event. -/
  | canWakePattern (n : Nat)
  /-- SW_FRAME_DECODE (R386). A frame decoded by the selective wake decoder matches a pattern, is ignored or counts a decoding error. -/
  | swFrameDecode (n : Nat) (frame : SwFrame)
  /-- SW_BUS_IDLE (R386). After 100 nominal bit times of recessive bus the decoder stops its oscillator. -/
  | swBusIdle (n : Nat)
  /-- LIN_BUS_WAKE (R384). LINn_RXD low for 150 µs is a LIN bus wake. -/
  | linBusWake (n : Nat)
  /-- TC10_WAKE (R376). A TC10 wake on a member segment is a wake event. -/
  | tc10Wake (port : Nat)
  /-- NM_FW_REQUEST (R371). A write of NMW_NCc_REQ.FW holds or releases firmware's bus request on a cluster. -/
  | nmFwRequest (r : Requester) (c : Nat) (hold : Bool)
  /-- CHIME_TIMER (R381). Every CHIME_MS an awake cluster queues its Chime in each member's Chime entry. -/
  | chimeTimer (c : Nat)
  /-- SETTLE_EXPIRE (R374). SETTLE_US after entry to REPEAT the cluster's CN and LN links come up and Chimes start. -/
  | settleExpire (c : Nat)
  /-- LIN_SCHEDULE_RESTART (R374). 100 ms after the wake pulse a LIN commander restarts its schedule. -/
  | linScheduleRestart (n : Nat)
  /-- NMW_AO_SNAP (R392). A write captures the AO counter and TB0 CT48 in the same clock. -/
  | nmwAoSnap (r : Requester)
  /-- WREC_POP (R391). A write of POP removes the head wake record. -/
  | wrecPop (r : Requester)
  /-- FLOW_REQUEST_APPLY (R403). The learn engine applies a flow request by inserting or refreshing a flow entry. -/
  | flowRequestApply
  /-- FLUSH_FLOWS (R404). A write of FLUSH_FLOWS deletes every flow entry. -/
  | flushFlows (r : Requester)
  /-- FLOW_SWEEP (R404). Every TIMEOUT_S/4 the sweeper ages or deletes the flow entries of a timeout profile. -/
  | flowSweep (prof : Nat)
  /-- BLF_GENERATE (R425). GENERATE fills a slot, or its pending half, from the DRBG. -/
  | blfGenerate (r : Requester) (slot : Nat) (pending exprt : Bool)
  /-- BLF_DERIVE (R425). DERIVE creates a key by SP 800-108 derivation under a parent slot. -/
  | blfDerive (r : Requester) (slot : Nat) (pending exprt : Bool)
  /-- BLF_IMPORT (R425). IMPORT unwraps a key under a parent slot into a slot. -/
  | blfImport (r : Requester) (slot : Nat) (pending exprt : Bool)
  /-- BLF_IMPORT_PUBLIC (R425). IMPORT_PUBLIC writes a public key into a slot. -/
  | blfImportPublic (r : Requester) (slot : Nat)
  /-- BLF_EXPORT (R425). EXPORT writes a key wrapped under a wrapping slot, or gives EXPORT_DENIED. -/
  | blfExport (r : Requester) (slot : Nat)
  /-- BLF_CHECK (R418). CHECK verifies the pending half of a slot by its KCV or a test signature. -/
  | blfCheck (r : Requester) (slot : Nat)
  /-- BLF_COMMIT (R418). COMMIT makes a checked pending half active and erases the old key. -/
  | blfCommit (r : Requester) (slot : Nat)
  /-- BLF_DISCARD_PENDING (R418). DISCARD_PENDING drops a slot's pending half. -/
  | blfDiscardPending (r : Requester) (slot : Nat)
  /-- BLF_INVALIDATE (R413). INVALIDATE empties a slot and advances its generation, orphaning its descendants. -/
  | blfInvalidate (r : Requester) (slot : Nat)
  /-- BLF_READ_ATTR (R412). READ_ATTR writes a slot's attribute record into the data window. -/
  | blfReadAttr (r : Requester) (slot : Nat)
  /-- BLF_GET_PUBLIC (R425). GET_PUBLIC writes the public point of an ECC key. -/
  | blfGetPublic (r : Requester) (slot : Nat)
  /-- BLF_ATTEST (R424). ATTEST writes a statement about a slot signed with the Device Attestation Key. -/
  | blfAttest (r : Requester) (slot : Nat)
  /-- BLF_CERT (R424). CERT writes the certificate of the Device Attestation Key. -/
  | blfCert (r : Requester)
  /-- YELNY_STAGE (R421). YELNY_STAGE checks an envelope and stages it with its privileged record. -/
  | yelnyStage (r : Requester)
  /-- YELNY_COMMIT (R422). YELNY_COMMIT blows fuses to the staged epoch and applies the envelope's operation. -/
  | yelnyCommit (r : Requester)
  /-- RECLAIMER_STEP (R414). The reclaimer visits the next slot and empties it when orphaned. -/
  | reclaimerStep
  /-- METERING_RECORD (R427). The ledger checks the next metering record and updates its channel when it is accepted. -/
  | meteringRecord
  /-- LDG_RESTORE (R431). RESTORE loads a sealed checkpoint and makes the ledger READY. -/
  | ldgRestore (r : Requester)
  /-- LDG_FRESH (R431). FRESH zeroes every channel and makes the ledger READY with FRESH_START. -/
  | ldgFresh (r : Requester)
  /-- LDG_SEAL (R430). SEAL advances the AO checkpoint counter and writes a sealed checkpoint. -/
  | ldgSeal (r : Requester)
  /-- LDG_REPORT (R432). REPORT writes a signed report of the selected channels. -/
  | ldgReport (r : Requester)
  /-- CKPT_TIMER (R430). Every CKPT_S seconds the ledger seals a checkpoint automatically. -/
  | ckptTimer
  /-- LEDGER_HOLD_EXPIRE (R429). HOLD_S without an ACTIVE record releases the ledger's NM request. -/
  | ledgerHoldExpire (c : Nat)
  /-- CIPHER_SUBMIT (R445). A write to CPH_CMD submits the staged operation header in domain 112, or gives QUEUE_FULL. -/
  | cipherSubmit (r : Requester)
  /-- CIPHER_OP_START (R440). A queued operation starts on the engine Drum Major chooses, after its checks and key load. -/
  | cipherOpStart
  /-- CIPHER_OP_COMMIT (R447). An operation fixes its last output and status and its completion is written in domain order. -/
  | cipherOpCommit (op : Nat)
  /-- CIPHER_ABORT (R447). A write to CPH_ABORT ends an uncommitted operation with ABORTED, or gives ALREADY_DONE or NOT_FOUND. -/
  | cipherAbort (r : Requester) (op : Nat)
  /-- ALARM_CLR (R448). A write of ALARM_CLR ends the pool's refusal once no alarm is active. -/
  | alarmClr (r : Requester)
  /-- OUTPUT_MISMATCH (R454). The voter finds differing core outputs and the mismatch is classified. -/
  | outputMismatch (diff : Nat) (skew : Bool)
  /-- SIGNATURE_COMPARE (R455). Every 800 000 cycles the cores' state signatures are compared. -/
  | signatureCompare (diff : Nat)
  /-- CORE_SELFTEST_DONE (R457). A fenced core's self-test ends and the mismatch classification continues. -/
  | coreSelftestDone (core : Nat) (pass : Bool)
  /-- CORE_RESYNC_DONE (R457). A resynchronisation ends and the three cores restart at their stagger. -/
  | coreResyncDone
  /-- DBG_AUTH_GO (R464). A write of GO verifies the debug signature against the nonce and draws a new nonce. -/
  | dbgAuthGo (r : Requester)
  /-- DEBUG_ACTION (R465). A debug action on the inspected core is recorded and replayed on the other in-service cores. -/
  | debugAction (act : DebugAct := .halt)
  /-- DEBUG_RESUME (R465). Resume after debug resynchronises the other cores from the inspected core. -/
  | debugResume
  /-- TRI_AP_CTL_WRITE (R467). A write of TRI_AP_CTL starts application cores at their vectors or holds them in reset. -/
  | triApCtlWrite (r : Requester) (run : Nat)
  /-- SOURCE_SIGNAL_CHANGE (R472). A source's level or rising edge takes it from IDLE to PENDING or sets AGAIN. -/
  | sourceSignalChange (src : Nat)
  /-- ROUTE_PENDING (R475). In a clock, Clapper routes PENDING sources to acceptable targets by priority and least recent choice. -/
  | routePending
  /-- CLP_COMPLETE (R473). A write of a source number to CLP_TGTt_CPL completes the source. -/
  | clpComplete (r : Requester) (target src : Nat)
  /-- TARGET_POWER_DOWN (R478). A target ceasing to be powered has its delivered sources withdrawn to PENDING. -/
  | targetPowerDown (target : Nat)
  /-- CLP_HOLD_WRITE (R477). A write of CLP_CTL.HOLD stops or resumes delivery. -/
  | clpHoldWrite (r : Requester) (hold : Bool)
  /-- MODERATION_EXPIRE (R476). MOD_INT_US elapses and a moderated target opens. -/
  | moderationExpire (target : Nat)
  /-- TARGET_WFI (R476). A target entering WFI with nothing delivered opens for delivery. -/
  | targetWfi (target : Nat)
  /-- SOURCE_CFG_WRITE (R472). A write of CLP_SRCs_CFG configures a source; EN = 0 returns a PENDING source to IDLE. -/
  | sourceCfgWrite (r : Requester) (src v : Nat)
  /-- TNW_ATTACH (R486). ATTACH takes an ABSENT tenant to ATTACHING with its requested amounts. -/
  | tnwAttach (r : Requester) (tn : Nat) (woc : Bool)
  /-- GRANT_COMPLETE (R486). The resource manager grants everything, making the tenant ACTIVE, or refuses and returns it to ABSENT. -/
  | grantComplete (tn : Nat)
  /-- TNW_DETACH (R489). DETACH starts the detach sequence of an ACTIVE or DOZE tenant. -/
  | tnwDetach (r : Requester) (tn : Nat) (woc : Bool)
  /-- TNW_DOZE (R501). DOZE takes an ACTIVE tenant to DOZE and may signal a wake for pending events. -/
  | tnwDoze (r : Requester) (tn : Nat) (woc : Bool)
  /-- TNW_RESUME (R501). RESUME returns a dozing tenant to ACTIVE and sends every pending vector. -/
  | tnwResume (r : Requester) (tn : Nat) (woc : Bool)
  /-- TNW_LIVE_WRITE (R487). A write by the tenant's function to its window restarts the liveness deadline. -/
  | tnwLiveWrite (r : Requester) (tn : Nat)
  /-- LIVENESS_EXPIRE (R487). A tenant's liveness deadline expires and the tenant is reclaimed with LIVENESS. -/
  | livenessExpire (tn : Nat) (tie : Bool := false)
  /-- FUNCTION_LEVEL_RESET (R488). An FLR of a tenant's function reclaims the tenant. -/
  | functionLevelReset (tn : Nat)
  /-- PCIE_LINK_EVENT (R488). A PCIe link state change reclaims its tenants on hot reset or link down, or releases HI_WAKE at L0. -/
  | pcieLinkEvent (link : Nat) (ev : PcieEv)
  /-- DMA_ERROR (R484). A DMA read error of a tenant reclaims it with cause DMA_ERR. -/
  | dmaError (tn : Nat)
  /-- HST_RECLAIM (R488). A write of HST_CTL.RECLAIM reclaims a tenant with cause FIRMWARE. -/
  | hstReclaim (r : Requester) (tn sel : Nat)
  /-- COMMAND_FETCH (R494). The device fetches a tenant's next command entry when in-flight limits allow. `tn` names the tenant. -/
  | commandFetch (tn : Nat)
  /-- TEN_TABLE (R495). A TABLE command inserts, replaces, deletes or looks up an entry within the tenant's grant. -/
  | tenTable (tn : Nat)
  /-- TEN_STREAM_DECLARE (R278). A STREAM_DECLARE command submits a tenant stream declaration as a Carillon job. -/
  | tenStreamDeclare (tn : Nat)
  /-- TEN_STREAM_WITHDRAW (R291). A STREAM_WITHDRAW command submits the withdrawal of a tenant's stream. -/
  | tenStreamWithdraw (tn : Nat)
  /-- TEN_KEY (R495). A KEY command runs a Belfry operation on the tenant's slots. -/
  | tenKey (tn : Nat)
  /-- TEN_CIPHER (R494). A CIPHER command submits an operation header to the cipher pool in the tenant's domain. -/
  | tenCipher (tn : Nat)
  /-- TEN_CAPTURE (R495). A CAPTURE command configures one of the tenant's granted capture rules and its ring. -/
  | tenCapture (tn : Nat)
  /-- TEN_STATS (R496). A STATS command writes the counters of the tenant's HV ports and may clear them. -/
  | tenStats (tn : Nat)
  /-- TEN_NM_REQ (R495). An NM_REQ command holds or releases the tenant's request on a cluster. -/
  | tenNmReq (tn : Nat)
  /-- TEN_ABORT (R497). An ABORT command ends an uncommitted command of the tenant. -/
  | tenAbort (tn : Nat) (late : Bool := false)
  /-- TEN_KEEPALIVE (R487). A KEEPALIVE command completes and restarts liveness. -/
  | tenKeepalive (tn : Nat)
  /-- COMPLETION_WRITE (R494). A finished command's completion is written to the completion ring when it has room. -/
  | completionWrite (tn : Nat)
  /-- TX_DESCRIPTOR_FETCH (R491). The device reads the next TX descriptor and its frame into the HV port, or drops it. -/
  | txDescriptorFetch (tn ring : Nat)
  /-- INBAND_FRAME (R499). The in-band engine of plane `pl` takes the oldest management frame that waits there, which came in on `port` and has
  the bytes `bytes`, or drops it. -/
  | inbandFrame (pl : Plane) (port : Nat) (bytes : List Byte)
  /-- INBAND_COMPLETION_SEND (R499). Ready in-band completions are sent in one frame within 50 µs of the first. -/
  | inbandCompletionSend (tn : Nat)
  /-- VECTOR_SEND (R500). A vector with pending events sends its MSI-X message when moderation allows. -/
  | vectorSend (tn v : Nat)
  /-- MSIX_UNMASK (R500). Unmasking a vector with its PBA bit set sends its message. -/
  | msixUnmask (tn v : Nat)
  /-- PWR_DOM_WRITE (R506). A write of PWR_DOM_CTL powers firmware-controlled domains up or down, or is refused. -/
  | pwrDomWrite (r : Requester) (off : Nat)
  /-- SLEEP_R_WAKE (R510). A wake event in SLEEP-R starts the exit sequence. -/
  | sleepRWake
  /-- WAKE_EXIT_ADVANCE (R510). A bounded step of the exit from SLEEP-R completes and the next starts. -/
  | wakeExitAdvance (ok : Bool) (cores : Nat)
  /-- SLEEP_D_WAKE (R511). A wake event in SLEEP-D makes a cold boot with cause SLEEPD_WAKE. -/
  | sleepDWake
  /-- WAKE_TIMER (R512). The AO counter reaching PWR_WAKE_TIMER wakes the device. -/
  | wakeTimer
  /-- CLOCK_LOSS (R514). Loss of the 25 MHz reference or a core PLL lock sets CLK_EVT and raises the clock alarm. -/
  | clockLoss (clk : Nat)
  /-- SERDES_PLL_LOCK_LOSS (R514). A SerDes PLL losing lock takes the links of its quad down. -/
  | serdesPllLockLoss (quad : Nat)
  /-- ALARM_FIRE (R527). A voltage, clock, temperature or glitch alarm raises RAS_ALARM_EV, records ALARM and drives ERR_OUT to fault. -/
  | alarmFire (bit : Nat)
  /-- TEMP_SAMPLE (R527). Every 1 ms the die temperature is updated and compared with RAS_TEMP_ALARM. -/
  | tempSample (t : Nat)
  /-- MEMORY_ERROR (R525). A corrected or uncorrectable memory error makes an error record and its handling. -/
  | memoryError (err : MemErr)
  /-- RAS_ERR_POP (R526). A write of POP removes the head error record. -/
  | rasErrPop (r : Requester)
  /-- ERR_OUT_FORCE (R528). A write of RAS_ERR_OUT.FORCE drives the pair to fault or releases the forcing. -/
  | errOutForce (r : Requester) (force : Bool)
  /-- WDG_QUESTION (R529). A frame received on WDG_IN becomes the question and raises WDG_Q. -/
  | wdgQuestion (q : Nat)
  /-- WDG_ANSWER (R529). A write of RAS_WDG_ANS sends the answer on WDG_OUT, or is ignored while busy. -/
  | wdgAnswer (r : Requester) (ans : Nat) (tie : Bool := false)
  /-- TIME_BASE_TICK (R256). At each 4 ns tick of PLL_TS every running time base adds its increment, and committed increments, steps and snapshots take effect. -/
  | timeBaseTick
  /-- TOKEN_BUCKET_STEP (R241). At every 8 ns instant of the placement clock, shaper, snare, exception-limiter and CAN rate-entry levels rise by their rate up to BURST. -/
  | tokenBucketStep
  /-- PCS_LOCK_ACQUIRE (R84). The PCS gains lock, a remote fault clears, or a T1S PHY or PLCA status becomes ready, which starts the link-up debounce. -/
  | pcsLockAcquire (port : Nat) (ev : PcsEv)
  /-- CAN_BUS_INTEGRATION (R339). After ADMIN_DOWN is written 0, the controller sees 11 recessive bits, rejoins the bus and the CN link comes up. -/
  | canBusIntegration (n : Nat)
  /-- LIN_BUS_RELEASE (R339). A LIN bus that was dominant for more than 100 bit times returns recessive and the LN link comes up again. -/
  | linBusRelease (n : Nat)
  /-- ALARM_CEASE (R448). A voltage, clock, temperature or glitch alarm ceases, clearing its RAS_ALARM.ACTIVE bit and letting ALARM_CLR be accepted. -/
  | alarmCease (bit : Nat)
  /-- LPDDR_READY_LOST (R168). MEM_STATUS.READY falls, READY_LOST is set and later page reads miss their role and count PAGE_ERR. -/
  | lpddrReadyLost
  /-- BOOT_PLANE_B_JOIN (R517). Within 35 ms after boot handover Plane B finishes its rebuild and resynchronisation and enters IN_SERVICE as FOLLOW. -/
  | bootPlaneBJoin
  /-- WDG_ANSWER_SENT (R529). The answer frame on WDG_OUT finishes sending, so further answer writes are accepted again. -/
  | wdgAnswerSent
  /-- XO32K_START (R538). The 32.768 kHz oscillator starts running, setting XO32K_OK and beginning the trimming of the 1 MHz RC and AO counter. -/
  | xo32kStart
  deriving DecidableEq, Repr

end Sys2Proof
end

