-- ==== Sys2Proof/Machine/Ops.lean ====
section
/-! DEFINITION. The named operations on sparse data: reading and writing a table in its canonical form, and reading
and writing bytes of a memory. -/

namespace Sys2Proof.Machine

/-- The value stored under a key, if any. -/
def tabFind {α : Type} : Tab α → Nat → Option α
  | [], _ => none
  | (k, v) :: t, n => if k = n then some v else tabFind t n

/-- The value under a key, `d` where none is listed. -/
def tabGet {α : Type} (d : α) (t : Tab α) (n : Nat) : α := (tabFind t n).getD d

/-- Every entry but those of a key. -/
def tabDel {α : Type} (t : Tab α) (n : Nat) : Tab α := t.filter (fun e => decide (e.1 ≠ n))

/-- An entry put at its place in rising key order. -/
def tabIns {α : Type} (n : Nat) (v : α) : Tab α → Tab α
  | [] => [(n, v)]
  | (k, w) :: t => if n < k then (n, v) :: (k, w) :: t else (k, w) :: tabIns n v t

/-- The table with `v` under the key. -/
def tabPut {α : Type} (t : Tab α) (n : Nat) (v : α) : Tab α := tabIns n v (tabDel t n)

/-- The table with `v` under the key, where `d` is what an unlisted key reads as: writing `d` removes the entry. -/
def tabSet {α : Type} [DecidableEq α] (d : α) (t : Tab α) (n : Nat) (v : α) : Tab α :=
  if v = d then tabDel t n else tabPut t n v

/-- The canonical form: keys strictly rising. -/
def tabSorted {α : Type} : Tab α → Bool
  | [] => true
  | [_] => true
  | (k, _) :: (l, w) :: t => decide (k < l) && tabSorted ((l, w) :: t)

/-- A byte of a memory; an unlisted address reads 0. -/
def memGet (m : Mem) (a : Nat) : Byte := tabGet 0 m a

/-- A byte of a memory written. -/
def memSet (m : Mem) (a : Nat) (b : Byte) : Mem := tabSet 0 m a b

/-- The canonical form of a memory: addresses strictly rising, no listed byte 0. -/
def Memory.wf (m : Mem) : Bool := tabSorted m && m.all (fun c => decide (c.2 ≠ 0))

/-- Bytes written from an address upwards. -/
def memPut (m : Mem) (a : Nat) : List Byte → Mem
  | [] => m
  | b :: bs => memPut (memSet m a b) (a + 1) bs

/-- `n` bytes read from an address upwards. -/
def memTake (m : Mem) (a : Nat) : Nat → List Byte
  | 0 => []
  | n + 1 => memGet m a :: memTake m (a + 1) n

/-- A little-endian number of `n` bytes (R3). -/
def memLe (m : Mem) (a : Nat) : Nat → Nat
  | 0 => 0
  | n + 1 => (memGet m a).toNat + 256 * memLe m (a + 1) n

/-- Whether any byte of a range is not 0. -/
def memAnyNonzero (m : Mem) (a n : Nat) : Bool :=
  m.any (fun c => decide (a ≤ c.1 ∧ c.1 < a + n ∧ c.2 ≠ 0))

/-- The little-endian bytes of a number. -/
def leBytes : Nat → Nat → List Byte
  | 0, _ => []
  | n + 1, v => BitVec.ofNat 8 v :: leBytes n (v / 256)

/-- The big-endian bytes of a number. -/
def beBytes (n v : Nat) : List Byte := (leBytes n v).reverse

/-- The number whose big-endian bytes these are. -/
def beNat (bs : List Byte) : Nat := bs.foldl (fun a b => a * 256 + b.toNat) 0

/-- The number whose little-endian bytes these are. -/
def leNat (bs : List Byte) : Nat := beNat bs.reverse

/-- Byte `i` of a list, 0 past its end. -/
def byteAt (bs : List Byte) (i : Nat) : Nat := (bs.getD i 0).toNat

/-- The 16-bit network-order number at byte `i`. -/
def be16 (bs : List Byte) (i : Nat) : Nat := byteAt bs i * 256 + byteAt bs (i + 1)

/-- `n` bytes of a list from byte `i`. -/
def slice (bs : List Byte) (i n : Nat) : List Byte := (bs.drop i).take n

/-- The bytes with those from `i` on replaced by `w`, as far as the list goes. -/
def overwrite (bs : List Byte) (i : Nat) (w : List Byte) : List Byte :=
  (bs.take i ++ w ++ bs.drop (i + w.length)).take bs.length

/-- The list with element `i` changed. -/
def listSet {α : Type} (l : List α) (i : Nat) (v : α) : List α := l.set i v

/-- Bit `i` of a number. -/
def bitOf (v i : Nat) : Bool := v / 2 ^ i % 2 == 1

/-- `wid` bits of a number from bit `lsb` up. -/
def bits (v lsb wid : Nat) : Nat := v / 2 ^ lsb % 2 ^ wid

/-- A number with its bits from `lsb` up, `wid` of them, replaced by `x`. -/
def setBits (v lsb wid x : Nat) : Nat :=
  v / 2 ^ (lsb + wid) * 2 ^ (lsb + wid) + x % 2 ^ wid * 2 ^ lsb + v % 2 ^ lsb

/-- Time from `t` to `now` on the 64-bit placement clock, which wraps (R9). -/
def clkSince (now t : Nat) : Nat := (now + 2 ^ 64 - t) % 2 ^ 64

/-- 1 for true, 0 for false. -/
def bitN (b : Bool) : Nat := if b then 1 else 0

/-- The number of ones among the lowest `n` bits. -/
def popLow (v : Nat) : Nat → Nat
  | 0 => 0
  | n + 1 => popLow v n + bitN (bitOf v n)

/-- A reflected CRC of 32 bits fed one byte: eight shifts against the reflected polynomial. -/
def crcByte (poly : Nat) (c : Nat) (b : Byte) : Nat :=
  crcShift poly 8 (c ^^^ b.toNat)
where
  crcShift (poly : Nat) : Nat → Nat → Nat
    | 0, c => c
    | n + 1, c => crcShift poly n (if c % 2 = 1 then c / 2 ^^^ poly else c / 2)

/-- CRC-32C (polynomial 0x1EDC_6F41, reflected, final XOR 0xFFFF_FFFF) from a start value (R122, R134). -/
def crc32c (start : Nat) (bs : List Byte) : Nat :=
  bs.foldl (crcByte 0x82F63B78) start ^^^ 0xFFFFFFFF

/-- CRC-32 (polynomial 0x04C1_1DB7, reflected) from 0xFFFF_FFFF, final XOR 0xFFFF_FFFF (R134). -/
def crc32 (bs : List Byte) : Nat := bs.foldl (crcByte 0xEDB88320) 0xFFFFFFFF ^^^ 0xFFFFFFFF

end Sys2Proof.Machine
end

