-- ==== Sys2Proof/Machine/Chart.lean ====
section
/-! DEFINITION. Reading a chart image: header fields, section directory and the bytes of a section (R42, R43). -/

namespace Sys2Proof.Machine

/-- SECT_COUNT of the header. -/
def chSectCount (img : Mem) : Nat := memLe img 28 2

/-- TOTAL_LEN of the header. -/
def chTotalLen (img : Mem) : Nat := memLe img 8 4

/-- CHART_ID and COUNTER of the header. -/
def chId (img : Mem) : Nat := memLe img 12 8

def chCounter (img : Mem) : Nat := memLe img 20 4

/-- A directory entry: TYPE, FLAGS, OFFSET, LENGTH, CRC. -/
structure DirEntry where
  ty : Nat
  flags : Nat
  off : Nat
  len : Nat
  crc : Nat
  deriving DecidableEq, Repr

/-- Directory entry `i` (R43). -/
def chDir (img : Mem) (i : Nat) : DirEntry :=
  let a := 64 + 16 * i
  ⟨memLe img a 2, memLe img (a + 2) 2, memLe img (a + 4) 4, memLe img (a + 8) 4, memLe img (a + 12) 4⟩

/-- The directory, in order. -/
def chDirs (img : Mem) : List DirEntry := (List.range (chSectCount img)).map (chDir img)

/-- The directory entry of a section TYPE. -/
def chSect (img : Mem) (ty : Nat) : Option DirEntry := (chDirs img).find? (fun e => e.ty == ty)

/-- First byte of a section; past every image when it is missing, so that its bytes read 0. -/
def secOff (img : Mem) (ty : Nat) : Nat := ((chSect img ty).map (·.off)).getD 0x1000000

/-- LENGTH of a section, 0 when it is missing. -/
def secLen (img : Mem) (ty : Nat) : Nat := ((chSect img ty).map (·.len)).getD 0

/-- The little-endian number of `n` bytes at byte `i` of a section. -/
def secLe (img : Mem) (ty i n : Nat) : Nat := memLe img (secOff img ty + i) n

/-- Byte `i` of a section. -/
def sec8 (img : Mem) (ty i : Nat) : Nat := secLe img ty i 1

/-- All bytes of a section. -/
def secBytes (img : Mem) (ty : Nat) : List Byte := memTake img (secOff img ty) (secLen img ty)

/-- Two bytes at byte `i` of a section in network order. -/
def secBe16 (img : Mem) (ty i : Nat) : Nat := sec8 img ty i * 256 + sec8 img ty (i + 1)

/-! Section TYPEs (R44). -/
def tyPORTMAP : Nat := 0x01
def tyPOWERMAP : Nat := 0x02
def tyPOOLPLAN : Nat := 0x03
def tyTABLEPLAN : Nat := 0x04
def tyPARSEGRAPH : Nat := 0x05
def tyKEYTEMPL : Nat := 0x06
def tyRULES : Nat := 0x07
def tySPREAD : Nat := 0x08
def tyEGRESS : Nat := 0x09
def tySTREAMS : Nat := 0x0A
def tyFRER : Nat := 0x0B
def tyZONES : Nat := 0x0C
def tyLEGACY : Nat := 0x0D
def tyNMCLUSTER : Nat := 0x0E
def tyTENANTQ : Nat := 0x0F
def tyLEDGER : Nat := 0x10
def tyUSERCAL : Nat := 0x11
def tyPLANE : Nat := 0x12
def tySIGNATURE : Nat := 0x7F

/-- The cold section types of R44. -/
def coldTypes : List Nat := [tyPORTMAP, tyPOWERMAP, tyPOOLPLAN, tyTABLEPLAN, tyPLANE]

/-- Two images hold the same bytes in a section (R50). -/
def secSame (a b : Mem) (ty : Nat) : Bool := secBytes a ty == secBytes b ty

end Sys2Proof.Machine
end

