-- ==== Sys2Proof/Machine/Parse.lean ====
section
/-! DEFINITION. The ingress spreader and the parser: the spreading hash, the walk along the parse graph with its
length rules, and the keys of a lookup profile (R100–R113, R122–R124, R559). -/

namespace Sys2Proof.Machine

/-! ## The spreading hash -/

/-- What the fixed front end finds in an Ethernet frame: offsets of the fields it recognises (R122). -/
structure FrontEnd where
  vlans : List Nat
  etOff : Nat
  /-- Start of an IPv4 or IPv6 header, and whether it is IPv6. -/
  ip : Option (Nat × Bool)
  /-- Start of a TCP or UDP header that no fragment hides (R123). -/
  l4 : Option Nat
  deriving DecidableEq, Repr

/-- The front end on the bytes of an Ethernet frame. -/
def frontEnd (bs : List Byte) : FrontEnd :=
  let isTag (o : Nat) : Bool := be16 bs o == 0x8100 || be16 bs o == 0x88A8
  let vl := if isTag 12 then (if isTag 16 then [12, 16] else [12]) else []
  let et := 12 + 4 * vl.length
  let h := et + 2
  if be16 bs et == 0x0800 then
    let frag := be16 bs (h + 6) % 0x4000 != 0
    let proto := byteAt bs (h + 9)
    let l4 := if !frag && (proto == 6 || proto == 17) then some (h + byteAt bs h % 16 * 4) else none
    ⟨vl, et, some (h, false), l4⟩
  else if be16 bs et == 0x86DD then
    let nh := byteAt bs (h + 6)
    ⟨vl, et, some (h, true), if nh == 6 || nh == 17 then some (h + 40) else none⟩
  else ⟨vl, et, none, none⟩

/-- A field of the spreader: present when all its bytes lie in the first 128 and before the FCS. -/
def spreadField (bs : List Byte) (lim off n : Nat) : Option (List Byte) :=
  if off + n ≤ lim ∧ off + n ≤ 128 then some (slice bs off n) else none

/-- Fields 0 to 13 of the spread table, in its order, absent ones as none. -/
def spreadFields (port : Nat) (legacy : Bool) (bs : List Byte) : List (Option (List Byte)) :=
  let p : Option (List Byte) := some [BitVec.ofNat 8 port]
  if legacy then
    let can := if 32 ≤ port ∧ port ≤ 63 then
      (spreadField bs bs.length 4 4).map (fun w => beBytes 4 (beNat w % 2 ^ 29)) else none
    let lin := if 64 ≤ port ∧ port ≤ 79 then spreadField bs bs.length 7 1 else none
    [p, none, none, none, none, none, none, none, none, none, none, none, can, lin]
  else
    let lim := bs.length - 4
    let fe := frontEnd bs
    let vid (k : Nat) : Option (List Byte) := (fe.vlans[k]?).bind (fun o =>
      (spreadField bs lim (o + 2) 2).map (fun w => beBytes 2 (beNat w % 4096)))
    let ipf (o4 o6 n4 n6 : Nat) : Option (List Byte) := fe.ip.bind (fun x =>
      if x.2 then spreadField bs lim (x.1 + o6) n6 else spreadField bs lim (x.1 + o4) n4)
    let flow := fe.ip.bind (fun x => if x.2 then
      (spreadField bs lim (x.1 + 1) 3).map (fun w => beBytes 3 (beNat w % 2 ^ 20)) else none)
    [p, spreadField bs lim 0 6, spreadField bs lim 6 6, vid 0, vid 1, spreadField bs lim fe.etOff 2,
      ipf 12 8 4 16, ipf 16 24 4 16, ipf 9 6 1 1, flow,
      fe.l4.bind (fun o => spreadField bs lim o 2), fe.l4.bind (fun o => spreadField bs lim (o + 2) 2), none, none]

/-- The bytes of field `i` when the mask selects it and it is present. -/
def spreadSel (mask : Nat) (fs : List (Option (List Byte))) (i : Nat) : Option (List Byte) :=
  if bitOf mask i then (fs[i]?).getD none else none

/-- A pair of fields, the numerically smaller first when the profile is symmetric (R123). -/
def spreadPair (sym : Bool) (a b : Option (List Byte)) : List Byte :=
  match a, b with
  | some x, some y => if sym ∧ beNat y < beNat x then y ++ x else x ++ y
  | some x, none => x
  | none, some y => y
  | none, none => []

/-- The hash of R122 under the active chart's SPREAD section. -/
def spreadHash (img : Mem) (port : Nat) (legacy : Bool) (bs : List Byte) : Nat :=
  let prof := sec8 img tySPREAD (72 + port)
  let mask := secLe img tySPREAD (8 + 8 * prof) 2
  let sym := sec8 img tySPREAD 4 % 2 == 1
  let fs := spreadFields port legacy bs
  let one (i : Nat) : List Byte := (spreadSel mask fs i).getD []
  let pair (i j : Nat) : List Byte := spreadPair sym (spreadSel mask fs i) (spreadSel mask fs j)
  crc32c (secLe img tySPREAD 0 4) (one 0 ++ pair 1 2 ++ one 3 ++ one 4 ++ one 5 ++ pair 6 7 ++ one 8 ++ one 9
    ++ pair 10 11 ++ one 12 ++ one 13)

/-! ## The walk -/

/-- What the walk has found so far. -/
structure Walk where
  /-- Header starts by slot (R101 step 3). -/
  slots : Tab Nat
  present : Nat
  profile : Nat
  frag : Bool
  fragFirst : Bool
  /-- End of the IP datagram as T or L gives it (R104). -/
  dgEnd : Option Nat
  /-- Start of the last CHECK 2 header. -/
  ip6 : Option Nat
  /-- Start of the last IP header, and whether it is IPv6. -/
  ip : Option (Nat × Bool)
  /-- Key of the fragment table: source, destination, identification, protocol. -/
  fragKey : List Byte
  /-- PARSE_LEN (2) or PARSE_DEPTH (1), the node and the headers completed. -/
  err : Option (Nat × Nat × Nat)
  deriving DecidableEq, Repr

/-- The walk before its first header. -/
def Walk.init : Walk := ⟨[], 0, 0, false, false, none, none, none, [], none⟩

/-- Byte `i` of node record `n` of PARSEGRAPH (R107). -/
def ndB (img : Mem) (n i : Nat) : Nat := sec8 img tyPARSEGRAPH (16 + 48 * n + i)

/-- A 16-bit little-endian field of a node record. -/
def ndW (img : Mem) (n i : Nat) : Nat := secLe img tyPARSEGRAPH (16 + 48 * n + i) 2

/-- A computed header length (R101 step 1). -/
def ndLen (img : Mem) (n : Nat) (bs : List Byte) (h : Nat) : Nat :=
  ndW img n 4 + (be16 bs (h + ndB img n 6) >>> ndB img n 7 &&& ndW img n 8) * ndB img n 10

/-- Last byte + 1 of the fields read at a header: length field, CHECK fields (R105). -/
def ndReach (img : Mem) (n h : Nat) : List Nat :=
  (if ndB img n 10 ≠ 0 then [h + ndB img n 6 + 2] else []) ++
    (match ndB img n 3 with
     | 1 => [h + 8]
     | 2 => [h + 6]
     | 3 => [h + 6]
     | 4 => [h + 4]
     | _ => [])

/-- The next node by the transitions of a node (R101 step 5); 0xFF ends the walk. -/
def ndNext (img : Mem) (n : Nat) (bs : List Byte) (h : Nat) : Nat :=
  if ndW img n 14 = 0 then ndB img n 16
  else
    let sel := be16 bs (h + ndB img n 12) >>> ndB img n 13 &&& ndW img n 14
    match (List.range (ndB img n 17)).find? (fun k => ndW img n (24 + 3 * k) == sel) with
    | some k => ndB img n (26 + 3 * k)
    | none => ndB img n 16

/-- The length rules of R104 at a header of node `n` that starts at `h` with length `len`. `lim` is the number of
bytes before the FCS and `size` the frame size; P is 64 + (h − 14), also for h below 14. True when PARSE_LEN is set. -/
def lenBad (img : Mem) (n : Nat) (bs : List Byte) (size lim h len : Nat) (frag : Bool) (dg : Option Nat) : Bool :=
  let a := lim - h
  let p := 50 + h
  decide (len < ndB img n 18) || decide (lim < h + len) ||
    (match ndB img n 3 with
     | 1 =>
       let t := be16 bs (h + 2)
       decide (t < byteAt bs h % 16 * 4) || decide (a < t) || (decide (t < a) && decide (p < size))
     | 2 =>
       let l := be16 bs (h + 4)
       decide (a < 40 + l) || (decide (40 + l < a) && decide (p < size))
     | 3 =>
       let u := be16 bs (h + 4)
       decide (u < 8) ||
         (match dg with
          | some e => !frag && decide (h + u ≠ e)
          | none => false)
     | _ => false)

/-- The fragment state of a CHECK 1 or CHECK 4 header (R102, R559): offset not 0, more-fragments. -/
def fragBits (check : Nat) (bs : List Byte) (h : Nat) : Bool × Bool :=
  match check with
  | 1 => (be16 bs (h + 6) % 8192 != 0, bitOf (be16 bs (h + 6)) 13)
  | 4 => (be16 bs (h + 2) / 8 != 0, bitOf (be16 bs (h + 2)) 0)
  | _ => (false, false)

/-- One header of the walk recorded: slot, profile, fragment state, datagram end (R101 steps 3 and 4). Where two nodes of
one walk find a fragment, FRAG and FRAG_FIRST stay set from either of them (log 78). -/
def walkRecord (img : Mem) (n : Nat) (bs : List Byte) (h : Nat) (w : Walk) : Walk :=
  let chk := ndB img n 3
  let fb := fragBits chk bs h
  let isFrag := fb.1 || fb.2
  let slot := ndB img n 2
  let key := match chk with
    | 1 => slice bs (h + 12) 8 ++ slice bs (h + 4) 2 ++ slice bs (h + 9) 1
    | 4 => slice bs (w.ip6.getD 0 + 8) 32 ++ slice bs (h + 4) 4 ++ slice bs h 1
    | _ => []
  { w with
    slots := if slot = 0xFF then w.slots else tabPut w.slots slot h
    present := if slot = 0xFF then w.present else w.present ||| 2 ^ slot
    profile := if ndB img n 11 = 0xFF then w.profile else ndB img n 11
    frag := w.frag || isFrag
    fragFirst := w.fragFirst || (isFrag && !fb.1)
    dgEnd := (match chk with
      | 1 => some (h + be16 bs (h + 2))
      | 2 => some (h + 40 + be16 bs (h + 4))
      | _ => w.dgEnd)
    ip6 := if chk = 2 then some h else w.ip6
    ip := if chk = 1 then some (h, false) else if chk = 2 then some (h, true) else w.ip
    fragKey := if isFrag then key else w.fragKey }

/-- The walk from node `n` at byte `h` with `k` headers completed. A thirteenth node sets PARSE_DEPTH (R105).
The selector counts as read after the length rules: a header that breaks one gets PARSE_LEN, also when its selector lies past
byte 255 (log 79). -/
def walkFrom (img : Mem) (bs : List Byte) (size lim : Nat) : Nat → Nat → Nat → Nat → Walk → Walk
  | 0, n, _, k, w => { w with err := some (1, n, k) }
  | fuel + 1, n, h, k, w =>
    let reach := ndReach img n h
    let fb := fragBits (ndB img n 3) bs h
    let selEnd := h + ndB img n 12 + 2
    if reach.any (fun e => decide (lim < e)) then { w with err := some (2, n, k) }
    else if reach.any (fun e => decide (256 < e)) then { w with err := some (1, n, k) }
    else
      let len := ndLen img n bs h
      let useSel := ndW img n 14 != 0 && !fb.1
      if lenBad img n bs size lim h len (w.frag || fb.1 || fb.2) w.dgEnd then { w with err := some (2, n, k) }
      else if useSel && decide (lim < selEnd) then { w with err := some (2, n, k) }
      else if useSel && decide (256 < selEnd) then { w with err := some (1, n, k) }
      else if 256 < h + len ∧ 256 < size then { w with err := some (1, n, k) }
      else
        let w' := walkRecord img n bs h w
        if fb.1 then w'
        else
          let nx := ndNext img n bs h
          if nx = 0xFF then w' else walkFrom img bs size lim fuel nx (h + len) (k + 1) w'

/-- The start node of a port (R100). -/
def startNode (img : Mem) (port : Nat) : Nat :=
  if 32 ≤ port ∧ port ≤ 63 then sec8 img tyPARSEGRAPH 2
  else if 64 ≤ port ∧ port ≤ 79 then sec8 img tyPARSEGRAPH 3
  else sec8 img tyPARSEGRAPH 1

/-- The number of frame bytes before the FCS: a frame with a legacy header carries none (R354). -/
def bodyLen (legacy : Bool) (bs : List Byte) : Nat := if legacy then bs.length else bs.length - 4

/-- The whole walk of a frame: at most twelve nodes. -/
def parseFrame (img : Mem) (port : Nat) (legacy : Bool) (bs : List Byte) : Walk :=
  walkFrom img bs bs.length (bodyLen legacy bs) 12 (startNode img port) 0 0 Walk.init

/-- The outer VLAN ID of an Ethernet frame, 0 for an untagged frame (R144, R188). -/
def outerVid (legacy : Bool) (bs : List Byte) : Nat :=
  if legacy then 0
  else if be16 bs 12 == 0x8100 || be16 bs 12 == 0x88A8 then be16 bs 14 % 4096 else 0

/-! ## Keys -/

/-- Metadata of a frame for extractions from SRC 16 up (R110). -/
structure Meta where
  port : Nat
  tenant : Nat
  present : Nat
  flags : Nat
  /-- TAGs of stages 0 to 2. -/
  tags : List Nat
  deriving DecidableEq, Repr

/-- A metadata source as a 16-bit value. -/
def metaValue (m : Meta) : Nat → Nat
  | 16 => m.port
  | 17 => m.tenant
  | 18 => m.present
  | 19 => m.flags
  | 20 => m.tags.getD 0 0
  | 21 => m.tags.getD 1 0
  | 22 => m.tags.getD 2 0
  | _ => 0

/-- `wid` bits of a byte string from bit `off` (bit 0 the most significant of byte 0), bits at or after byte `lim`
reading 0. -/
def bitRun (bs : List Byte) (lim : Nat) : Nat → Nat → Nat
  | _, 0 => 0
  | off, wid + 1 =>
    let b := if off / 8 < lim then bitN (bitOf (byteAt bs (off / 8)) (7 - off % 8)) else 0
    b * 2 ^ wid + bitRun bs lim (off + 1) wid

/-- The value of one extraction word (R110). A bit past byte 255 but before the FCS reads as the frame holds it (log 27). -/
def extract (w : Walk) (m : Meta) (bs : List Byte) (lim : Nat) (e : Nat) : Nat :=
  let src := bits e 27 5
  let off := bits e 19 8
  let bo := bits e 16 3
  let wid := bits e 9 7 + 1
  if src < 16 then
    match tabFind w.slots src with
    | some h => bitRun bs lim ((h + off) * 8 + bo) wid
    | none => 0
  else bitRun (beBytes 2 (metaValue m src)) 2 (off * 8 + bo) wid

/-- Byte `i` of template record `t` of KEYTEMPL (R114). -/
def tmB (img : Mem) (t i : Nat) : Nat := sec8 img tyKEYTEMPL (8 + 72 * t + i)

/-- KIND of a template. -/
def tmKind (img : Mem) (t : Nat) : Nat := tmB img t 1

/-- Extraction word `j` of a template. -/
def tmExtr (img : Mem) (t j : Nat) : Nat := secLe img tyKEYTEMPL (8 + 72 * t + 8 + 4 * j) 4

/-- Key width in bits by KIND. -/
def kindBits : Nat → Nat
  | 0 => 128
  | 1 => 320
  | 2 => 32
  | _ => 128

/-- The key of a template: its tag on top for an exact-match KIND, then the extractions (R110, R111). -/
def buildKey (img : Mem) (t : Nat) (w : Walk) (m : Meta) (bs : List Byte) (lim : Nat) : Nat :=
  let kb := kindBits (tmKind img t)
  let tag := if tmKind img t < 2 then tmB img t 2 * 2 ^ (kb - 8) else 0
  (List.range (tmB img t 3)).foldl (fun k j =>
    let e := tmExtr img t j
    let wid := bits e 9 7 + 1
    k + extract w m bs lim e * 2 ^ (kb - bits e 0 9 - wid)) tag

/-- Stage `k` of a lookup profile: template and role (R109, R114). -/
def profStage (img : Mem) (prof k : Nat) : Nat × Nat :=
  let base := 8 + 72 * sec8 img tyKEYTEMPL 0 + 8 * prof
  (sec8 img tyKEYTEMPL (base + 2 * k), sec8 img tyKEYTEMPL (base + 2 * k + 1))

end Sys2Proof.Machine
end

