-- ==== Sys2Proof/Config.lean ====
section
/-! DEFINITION. What an implementation or a device fixes, the cryptography that the spec names by its standards, and the
values the spec leaves open: constants without a body, so that no proof can see a value. -/

namespace Sys2Proof

/-- A value the spec leaves open, fresh for every reading of the counter in State (log 6). -/
opaque Config.freeValue : Nat → Nat

/-- Where in its run of matching frames a sampling capture rule records (log 17). -/
opaque Config.samplePhase : Nat → Nat

/-- Which of the free places for them the nodes and result runs of a trie take, by the number of blocks in use (log 16). -/
opaque Config.trieUnit : Nat → Nat

/-- The frame that the cipher pool returns on IF1 for one sent to it, if it returns one (log 67). -/
opaque Config.cipherReturn : List Byte → Option (List Byte)

/-- The cryptographic primitives that the spec names by their standards (log 25). -/
inductive CryptoFn where
  /-- AES-ECB, AES-CBC from a chaining block, AES-CTR and the GCM key stream from a counter block; true to decrypt. -/
  | ecb (dec : Bool)
  | cbc (dec : Bool)
  | ctr
  | gcm
  /-- GHASH accumulator after more AAD and ciphertext, and the tag from it. -/
  | ghash
  | gcmTag
  /-- Accumulator of a GCM sequence resumed before its data started. -/
  | ghashResume
  /-- CMAC chaining over whole blocks, and the tag over the last one. -/
  | cmacChain
  | cmacTag
  /-- Whole AES-CMAC of a message. -/
  | cmac
  /-- RFC 3394 wrap and unwrap. -/
  | wrap
  | unwrap
  /-- SHA-2 state after whole blocks, and the digest; true for SHA-384. -/
  | shaBlocks (big : Bool)
  | shaFinal (big : Bool)
  /-- ECDSA signature and verification; true for P-384. -/
  | ecSign (big : Bool)
  | ecVerify (big : Bool)
  /-- Public point of a private key. -/
  | ecPublic (big : Bool)
  /-- SP 800-108 counter-mode CMAC derivation. -/
  | kdf
  /-- GCM hash subkey, or CMAC K1 and K2. -/
  | subkeys
  /-- The sealed form of the privileged record (R421), and the X.509 certificate of slot 1 (R424). -/
  | privSeal
  | certificate
  /-- The debug signature over its nonce (R464), and the signature of an image or chart (R45, R517). -/
  | debugAuth
  deriving DecidableEq, Repr

/-- Byte `i` of a primitive's output on its inputs. -/
opaque Config.crypto : CryptoFn → List (List Byte) → Nat → Byte

/-- Whether a verification succeeds, or an integrity check holds. -/
opaque Config.cryptoOk : CryptoFn → List (List Byte) → Bool

/-- The 128-bit identity of the device, byte by byte (GLB_DEVUIDn). -/
opaque Config.devUid : Nat → Byte

/-- The Device Unique Secret of slot 0 and the Device Attestation Key of slot 1, fused at manufacture (R417). -/
opaque Config.deviceSecret : Nat → Byte
opaque Config.attestKey : Nat → Byte

/-- Whether the factory's privileged record holds a key in a slot, and the X ‖ Y of that P-384 public key (R417, R516). -/
opaque Config.factorySlot : Nat → Bool
opaque Config.factoryKey : Nat → Nat → Byte

/-- Factory trim of the die temperature sensor in 0.1 °C (R532). -/
opaque Config.factoryTrim : Int

/-- The OTP permission for split mode (GLB_STRAP.SPLIT_PERMIT). -/
opaque Config.splitPermit : Bool

/-- Spare rows or columns of a plane's SRAM macro that factory repairs use (R530): plane, macro, true for columns. -/
opaque Config.fusedSpares : Nat → Nat → Bool → Nat

/-- Factory path delay in ps by direction (true to transmit), mode and speed code; 20 bits of it count (R266, R267). -/
opaque Config.factoryDelay : Bool → Nat → Nat → Nat

end Sys2Proof
end

