-- ==== Sys2Proof/Machine/State.lean ====
section
/-! DEFINITION. The state of the KQ256 as plain data: the register file, the two planes, Drum Major, the time bases,
the engines and the management blocks, the memories, and the queue of waiting commands. -/

namespace Sys2Proof.Machine

/-- A field of a register: byte offset of the register in the 32 MiB window, lowest bit, width (R4). -/
structure Fld where
  addr : Nat
  lsb : Nat
  wid : Nat
  deriving DecidableEq, Repr

/-- One reading of a time base: 48-bit seconds, nanoseconds below 1 000 000 000, 2⁻³² ns (R256). -/
structure TbTime where
  sec : Nat
  ns : Nat
  frac : Nat
  deriving DecidableEq, Repr

/-- From a tick on, what a time base counted at each tick: its value at that tick, and 2⁻³² ns added at each further one. -/
structure TbSeg where
  tick : Nat
  value : TbTime
  rate : Nat
  /-- The time base runs. -/
  run : Bool
  deriving DecidableEq, Repr

/-- One time base beside its registers (R256–R261): its count, the increment in use, and what the next tick takes. -/
structure TimeBase where
  now : TbTime
  incNs : Nat
  incFrac : Nat
  commitInc : Option (Nat × Nat)
  /-- An accepted step waits for the next tick (R259). -/
  step : Bool
  snap : Bool
  /-- The last tick loaded a step. -/
  stepped : Bool
  /-- What it counted before, newest first: a timestamp lies some ns back (R264). -/
  past : List TbSeg
  deriving DecidableEq, Repr

/-- A transmit timestamp request of a frame (R268–R271, R493). -/
structure TxTsReq where
  twoStep : Bool
  tb : Nat
  tag : Nat
  tsOff : Nat
  ckOff : Nat
  /-- The tenant whose completion ring takes the report, or none for the TXTS FIFO. -/
  tenant : Option Nat
  deriving DecidableEq, Repr

/-- What a receive descriptor of a frame carries beside its bytes (R127, R405, R492). -/
structure RxMeta where
  /-- REASON of an IF0 descriptor, 0 for none. -/
  reason : Nat
  /-- The 16 metadata bytes of an IF4 copy, empty for other frames. -/
  if4 : List Byte
  deriving DecidableEq, Repr

/-- A frame held in a buffer of one plane. -/
structure Frame where
  /-- Destination address to FCS, or legacy header and content (R354, R355). -/
  bytes : List Byte
  /-- True while the bytes begin with the 32-byte legacy header. -/
  legacy : Bool
  inPort : Nat
  /-- Ingress timestamp on TB0 to TB3, uncorrected (R264). -/
  ts : List TbTime
  /-- Mode and speed of the ingress port at the instant of the timestamp (R267). -/
  rxMode : Nat × Nat
  /-- Placement bucket and per-bucket sequence number (R12); together the twin tag (R308). -/
  bucket : Nat
  seq : Nat
  qidx : Nat
  home : Plane
  plane : Plane
  /-- A buffer of each plane took the frame (R14). -/
  both : Bool
  /-- Of a critical stream and in both planes (R13). -/
  twinned : Bool
  stream : Option Nat
  tc : Nat
  /-- The buffer's pool and index (R178). -/
  pool : Nat
  buf : Nat
  fragOuter : Bool
  /-- Ring pair read from the indirection table at admission (R125). -/
  ring : Nat
  /-- Number the stream's generator gave the frame (R313). -/
  genSeq : Option Nat
  txReq : Option TxTsReq
  rx : RxMeta
  /-- MACsec of its ingress port validated it (R450, R499). -/
  secure : Bool
  /-- The era of the instant of its ingress timestamp: the chart and the schedule that judge it (R58, R243). -/
  era : Nat
  /-- Its place in the order of reception (R185). -/
  no : Nat
  deriving DecidableEq, Repr

/-- An entry of an egress queue (R189, R213). -/
inductive QEntry where
  | frame (f : Frame)
  /-- A marker entry: context and generation. -/
  | marker (ctx gen : Nat)
  /-- A copy not yet written: its number, the TB0 ingress time of its frame in ns, and the size it counts at (R186). -/
  | placeholder (copy time size : Nat)
  deriving DecidableEq, Repr

/-- A free list of one pool: released buffers on top, then the never-used ones from `fresh` up (R179). -/
structure Pool where
  stack : List Nat
  fresh : Nat
  count : Nat
  error : Bool
  /-- Returned buffers waiting for their push (R181). -/
  retq : List Nat
  /-- Free buffers whose link word fails its check (R180). -/
  bad : List Nat
  deriving DecidableEq, Repr

/-- A copy that the replication engine has still to write (R189). -/
structure CopyJob where
  copy : Nat
  port : Nat
  rx : RxMeta
  ring : Nat
  deriving DecidableEq, Repr

/-- A multicast frame in the replication FIFO: the frame and its copies still to write, ascending (R191). -/
structure ReplJob where
  frame : Frame
  todo : List CopyJob
  /-- A refused request that spills: the pool at which it began and the pool to ask next (R183). -/
  retry : Option (Nat × Nat)
  deriving DecidableEq, Repr

/-- A stored entry: key and result word as numbers (most significant byte first), and the status word (R133, R136). -/
structure Slot where
  key : Nat
  result : Nat
  status : Nat
  deriving DecidableEq, Repr

/-- The state of a region's rehash (R141–R143). -/
inductive RegState where
  | normal
  | dual
  | stalled
  deriving DecidableEq, Repr

/-- An exact-match region of a plane as TABLEPLAN set it (R133, R169) with its rehash state. -/
structure Region where
  wide : Bool
  pageable : Bool
  pinReserve : Nat
  base : Nat
  onchip : Nat
  logical : Nat
  backing : Nat
  seed : Nat
  oldSeed : Nat
  state : RegState
  walk : Nat
  /-- Page held by each page frame; frames not listed hold no page. -/
  frames : Tab Nat
  /-- The clock hand of R166. -/
  hand : Nat
  deriving DecidableEq, Repr

/-- A prefix of the LPM store (R151): VRF, family, length, address bits, result, status. -/
structure Prefix where
  vrf : Nat
  v6 : Bool
  len : Nat
  addr : Nat
  result : Nat
  status : Nat
  deriving DecidableEq, Repr

/-- The LPM store in trie mode (R154): the bytes of its units, the root node of each VRF and family (at 2 · VRF + 1 for IPv6), the
result indexes past 0 that stand for no route (log 16), and the blocks of units that a rebuild left, each with its first unit, its
units and the placement clock at that moment (R156). -/
structure TrieSt where
  mem : Mem
  roots : Tab Nat
  void : List Nat
  old : List (Nat × Nat × Nat)
  deriving DecidableEq, Repr

/-- What classification decided for a frame (R113). -/
structure Decision where
  /-- ACTION of the forwarding result; 0x3 (flood) on a miss. -/
  action : Nat
  target : Nat
  stream : Option Nat
  tc : Option Nat
  fixq : Option Nat
  /-- The firewall word, or none for a miss or no FIREWALL stage. -/
  fw : Option Nat
  deriving DecidableEq, Repr

/-- An entry of the fragment table (R119). -/
structure FragEntry where
  key : List Byte
  dec : Decision
  /-- Destinations that the firewall left to the first fragment (R400). -/
  kept : List Nat
  /-- Reason, zone and port of its IF4 copy (R405). -/
  cause : Option (Nat × Nat × Nat)
  deriving DecidableEq, Repr

/-- A learn event (R145): key, ingress port, stamp. -/
structure LearnEvent where
  key : Nat
  port : Nat
  stamp : Nat
  deriving DecidableEq, Repr

/-- An entry of the flap tracker (R147). -/
structure FlapEntry where
  key : Nat
  start : Nat
  first : Nat
  count : Nat
  deriving DecidableEq, Repr

/-- A flow request of the firewall (R403). -/
structure FlowReq where
  key : Nat
  result : Nat
  stamp : Nat
  deriving DecidableEq, Repr

/-- A frame parked for page reads (R163, R164), with the stages done so far. -/
structure Parked where
  frame : Frame
  /-- The stage at which the frame resumes. -/
  stage : Nat
  /-- Stages that hit, with their result words. -/
  hits : Tab Nat
  /-- Pages (region, page) it waits for; empty when it only waits behind an earlier frame of its bucket. -/
  pages : List (Nat × Nat)
  /-- Counts that a copy outside its home plane makes once it proves critical (R14). -/
  tally : List Nat
  deriving DecidableEq, Repr

/-- One switching plane beside its register half. -/
structure PlaneSt where
  regions : List Region
  /-- Tag map of TABLEPLAN; unlisted tags map to no region (R169). -/
  tagMap : Tab Nat
  lpmTrie : Bool
  lpmSeed : Nat
  lpmOldSeed : Nat
  lpmState : RegState
  lpmWalk : Nat
  learnRegion : Option Nat
  learnTag : Nat
  /-- Exact-match store by on-chip slot number, a wide entry at its first slot. -/
  exact : Tab Slot
  /-- LPM store in hash-per-length mode, by unit number. -/
  lpm : Tab Prefix
  /-- Prefixes of the LPM store in trie mode, as the table engine knows them, and the store itself. -/
  trie : List Prefix
  trieSt : TrieSt
  /-- Bloom filters by family and length (R153), each as a 2 048-bit number, and the copy being rebuilt. -/
  bloom : Tab Nat
  bloomNew : Option (Tab Nat)
  /-- Items that fail parity: exact-match slots, status words, LPM units (R157). -/
  badSlots : List Nat
  badStatus : List Nat
  badUnits : List Nat
  /-- Bad logical buckets read from LPDDR, per region. -/
  scrub : Nat
  frags : List FragEntry
  learnQ : List LearnEvent
  flowQ : List FlowReq
  parked : List Parked
  /-- Management frames that classification has handed to the in-band engine (R499). -/
  mgmt : List Frame
  pageReads : List (Nat × Nat)
  pools : List Pool
  queues : Tab (List QEntry)
  repl : List ReplJob
  /-- Handing over: accepts no ingress, drains before the twin (R64). -/
  handing : Bool
  deriving DecidableEq, Repr

/-- A migration context of Drum Major (R213). -/
structure MigCtx where
  valid : Bool
  gen : Nat
  bucket : Nat
  frm : Plane
  nextSeq : Nat
  switchAt : Nat
  hold : Nat
  /-- The marker has not been admitted yet (R213 step 4). -/
  waiting : Bool
  /-- Marker entries left per port; a port not listed is released. -/
  ports : Tab Nat
  /-- Held frames per port, in the order taken. -/
  held : Tab (List Frame)
  deriving DecidableEq, Repr

/-- A placement bucket of Drum Major beside PLC_BUCKETb (R203, R204). -/
structure Bucket where
  plane : Plane
  seq : Nat
  /-- Bytes of the running epoch. -/
  acc : Nat
  movedAt : Option Nat
  critSeen : Bool
  deriving DecidableEq, Repr

/-- Drum Major (R203–R226). -/
structure DrumMajor where
  buckets : Tab Bucket
  /-- The plane of a bucket that `buckets` does not list, and the clock of its last move. -/
  home0 : Plane
  homeAt : Option Nat
  /-- The failed plane on which buckets stay recorded while none is in service (R221). -/
  stranded : Option Plane
  ctxs : List MigCtx
  moving : Bool
  heavy : Plane
  stuck : Nat
  pressA : Bool
  pressB : Bool
  /-- Epoch use of indirection entries: (host virtual port · 128 + queue index) to the clock of the last admission. -/
  indirUse : Tab Nat
  indirLast : Tab Nat
  movedNow : Bool
  deriving DecidableEq, Repr

/-- An error record (R526). -/
structure ErrRec where
  cls : Nat
  sev : Nat
  unit : Nat
  plane : Nat
  detail : Nat
  time : Nat
  deriving DecidableEq, Repr

/-! ## Ports and egress -/

/-- A transmit timestamp report (R272, R494). -/
structure TxReport where
  tag : Nat
  port : Nat
  aborted : Bool
  fallback : Bool
  noTs : Bool
  tb : Nat
  sec : Nat
  ns : Nat
  deriving DecidableEq, Repr

/-- What undoes the update of a recovery entry (R319): the entry, the number it passed, recov before, and the entry's
count of passes at that pass. -/
structure FrerUndo where
  entry : Nat
  seq : Nat
  prev : Nat
  passNo : Nat
  deriving DecidableEq, Repr

/-- A frame in transmission (R86, R177, R310). -/
structure TxFrame where
  frame : Frame
  /-- Bytes before a timestamp is written into them, and as they leave the MAC, without preamble. -/
  raw : List Byte
  out : List Byte
  /-- The frame passes the cipher pool. -/
  pool : Bool
  /-- Transmit timestamp on the four time bases, uncorrected (R80, R264). -/
  ts : List TbTime
  undo : Option FrerUndo
  /-- The report that the end of the transmission makes, and the tenant that takes it. -/
  report : Option (TxReport × Option Nat)
  deriving DecidableEq, Repr

/-- A fabric port beside its registers. -/
structure PortSt where
  /-- In transmission on the express MAC, or on the only MAC. -/
  tx : Option TxFrame
  /-- In transmission on the preemptable MAC. -/
  txp : Option TxFrame
  /-- Tags of the last 256 twinned copies selected, newest first (R309). -/
  twins : List Nat
  /-- Verify mPackets sent since link-up (R82). -/
  verifyN : Nat
  /-- Attempts of the frame in transmission on a T1S segment, and whether it waits to be sent again (R95). -/
  attempts : Nat
  retry : Bool
  /-- Placement clock at the start of the present fragment of the preemptable frame, and whether that fragment resumes the frame (R81). -/
  fragAt : Nat
  resumed : Bool
  /-- Classes whose head was held back only by R234 in the present opening (R236). -/
  shortMask : Nat
  /-- The link-up conditions hold and the debounce runs (R84). -/
  debounce : Bool
  /-- Speed that auto-negotiation reported last (R76). -/
  anSpeed : Nat
  /-- A CN or LN port that is down with its queues flushed (R89, R339). -/
  flushed : Bool
  /-- The T1S segment is in TC10 sleep (R375), and the TC10 sleep request is on it (R373). -/
  tc10 : Bool
  tc10Req : Bool
  deriving DecidableEq, Repr

/-! ## Carillon -/

/-- A stream declaration (R281). -/
structure StreamRec where
  id : Nat
  ingress : Nat
  tc : Nat
  flags : Nat
  demoteTc : Nat
  frames : Nat
  period : Nat
  phase : Nat
  jitter : Nat
  bound : Nat
  maxIn : Nat
  maxOut : Nat
  egress : List Nat
  /-- 0 to 63 for tenants, 0x40 for firmware, 0x41 for the chart (R278). -/
  owner : Nat
  raw : List Byte
  deriving DecidableEq, Repr

/-- A stroke: port, offset and width in ps, period in ps, class and stream (R289). -/
structure Stroke where
  port : Nat
  off : Nat
  wid : Nat
  period : Nat
  cls : Nat
  stream : Nat
  deriving DecidableEq, Repr

/-- What Carillon reports of one egress port of a stream (R290): offset and width in ps, G, Q, B and L in ns. -/
structure EgRes where
  off : Nat
  wid : Nat
  g : Nat
  q : Nat
  b : Nat
  l : Nat
  deriving DecidableEq, Repr

/-- A schedule: the admitted streams with their results, the strokes and the peal in ns, 0 for none (R283). -/
structure Sched where
  streams : Tab StreamRec
  results : Tab (List EgRes)
  strokes : List Stroke
  peal : Nat
  deriving DecidableEq, Repr

/-- A change of a gate list (R284, R285). -/
structure GlChange where
  off : Nat
  stroke : Bool
  openMask : Nat
  deriving DecidableEq, Repr

/-- Where a job comes from (R294). -/
inductive JobSrc where
  | firmware
  | tenant (tn cmd : Nat)
  | detach (tn : Nat)
  | chart
  deriving DecidableEq, Repr

/-- An item of a job, in order (R295): a declaration record with its owner, or a withdrawal. -/
inductive JobItem where
  | declare (owner : Nat) (raw : List Byte)
  | withdraw (id : Nat)
  deriving DecidableEq, Repr

/-- A job (R294): its items, whether it re-packs, its arm time as CT48, and whether it was returned to the queue and is to
start afresh (R300). -/
structure Job where
  src : JobSrc
  items : List JobItem
  repack : Bool
  arm : Option Nat
  again : Bool
  deriving DecidableEq, Repr

/-- A completed job that waits for its downbeat (R297): the schedule to come, the reason of every stream evaluated with
its owner, failing egress index and CRITICAL, and the streams withdrawn. -/
structure JobDone where
  job : Job
  sched : Sched
  verdicts : List (Nat × Nat × Nat × Nat × Bool)
  withdrawn : List Nat
  /-- Its downbeat as CT48. -/
  beat : Nat
  deriving DecidableEq, Repr

/-- The result memory of a stream (R291). -/
structure StreamRes where
  owner : Nat
  crit : Bool
  reason : Nat
  failEg : Nat
  eg : List EgRes
  pending : Bool
  deriving DecidableEq, Repr

/-- Carillon beside its registers (R278–R303). -/
structure Car where
  sched : Sched
  /-- Active gate lists by port; a port not listed has none. -/
  lists : Tab (List GlChange)
  queue : List Job
  running : Option Job
  waiting : Option JobDone
  batch : List JobItem
  results : Tab StreamRes
  /-- The chart's preparation job is at work and the queue is held (R300). -/
  held : Bool
  /-- Schedule that the chart's job gave, applied at the chart's downbeat. -/
  chartDone : Option JobDone
  /-- Downbeat of the last job applied, as CT48. -/
  lastBeat : Nat
  deriving DecidableEq, Repr

/-- What judged frames before a downbeat: the chart, its epoch, the critical streams and the schedule, and the placement clock at
the downbeat that ended it (R58, R243). -/
structure Era where
  img : Mem
  epoch : Nat
  crit : List Nat
  sched : Sched
  upto : Nat
  deriving DecidableEq, Repr

/-! ## Replication and supervision -/

/-- A FRER recovery entry beside its registers: history bits, bit 0 the newest (R317). -/
structure RecSt where
  history : Nat
  /-- Frames passed so far. -/
  passes : Nat
  /-- Placement clock at the last passed frame, while the reset timer runs (R318). -/
  timer : Option Nat
  deriving DecidableEq, Repr

/-- One direction of one heartbeat path (R324, R325). -/
structure BeatSt where
  lastNum : Nat
  /-- A good beat came in the running slot. -/
  good : Bool
  /-- The previous slot was missed, or no good beat was ever seen. -/
  missedPrev : Bool
  missRun : Nat
  goodRun : Nat
  degraded : Bool
  deriving DecidableEq, Repr

/-- A plane command of RED_CTL in progress (R328). -/
inductive RedBusy where
  | isolate (pl : Plane)
  | test (pl : Plane)
  | rebuild (pl : Plane)
  | resync (pl : Plane)
  deriving DecidableEq, Repr

/-! ## Legacy channels -/

/-- An entry of a CAN transmit buffer (R345): the message, its class, TB0 ingress time in ns, and whether it is on the
bus. -/
structure CanTx where
  msg : CanMsg
  tc : Nat
  time : Nat
  onBus : Bool
  /-- A Chime of this cluster, outside the 32 entries (R381). -/
  chime : Option Nat
  /-- The frame the message came from, which the egress capture point sees when its transmission ends; none for a Chime and for a
  message unpacked from an AVTPDU (R195). -/
  frame : Option Frame
  /-- TB times at the SOF that the device drove last (R343). -/
  sof : List TbTime
  deriving DecidableEq, Repr

/-- A frame being unpacked: its frame, what was moved so far, and the ACF bytes left (R362). -/
structure Unpack where
  frame : Frame
  rest : List Byte
  deriving DecidableEq, Repr

/-- A CAN channel beside its registers. -/
structure CanSt where
  txbuf : List CanTx
  /-- TEC, which passes 255 at bus-off, and REC (R342). -/
  tecN : Nat
  recN : Nat
  /-- The recovery sequence of bus-off runs. -/
  recovering : Bool
  /-- Waiting for 11 recessive bits after ADMIN_DOWN or at start (R339). -/
  joining : Bool
  /-- A Chime that fell due while the one before it is on the bus: it takes the Chime entry when that one is off (R381). -/
  chimeDue : Option CanTx
  unpack : Option Unpack
  /-- ACF messages of the open batch, their number, and the ingress times. -/
  batch : List Byte
  batchN : Nat
  acfSeq : Nat
  deriving DecidableEq, Repr

/-- A LIN channel beside its registers. -/
structure LinSt where
  /-- Table and run state that take effect at the end of the slot (R350). -/
  sel : Option Nat
  run : Option Bool
  /-- ID of the header whose response is awaited. -/
  await : Option Nat
  /-- ID of the published header whose response the device has still to start (R353). -/
  due : Option Nat
  /-- ID and bytes of the response the device is sending, its checksum last (R353). -/
  sending : Option (Nat × List Byte)
  /-- The response last overwritten: its ID, its bytes, and the placement clock of the write (R353). -/
  old : Option (Nat × List Byte × Nat)
  unpack : Option Unpack
  batch : List Byte
  batchN : Nat
  acfSeq : Nat
  /-- TB times of the last break field (R343). -/
  breakTs : List TbTime
  /-- Placement clock at that break field. -/
  breakAt : Nat
  /-- Restart of the schedule 100 ms after a wake pulse is due (R374). -/
  restart : Bool
  /-- The 1 ms wake pulse is driven on the bus (R374). -/
  pulse : Bool
  /-- A go-to-sleep frame is due at the end of the slot in progress (R374). -/
  sleepCmd : Bool
  deriving DecidableEq, Repr

/-! ## Tenants -/

/-- How far a tenant command has come (R494, R497). -/
inductive CmdSt where
  | fetched
  /-- In a unit: a Carillon job or a cipher operation by OP_ID. -/
  | inCarillon
  | inCipher (op : Nat)
  /-- Ended: status and completion bytes 4 to 15. -/
  | ended (status : Nat) (data : List Byte)
  deriving DecidableEq, Repr

/-- A tenant command in flight. -/
structure TenCmd where
  entry : List Byte
  id : Nat
  st : CmdSt
  deriving DecidableEq, Repr

/-- A tenant beside its registers (R482–R501). -/
structure Tenant where
  cmds : List TenCmd
  /-- Timestamp reports waiting for the completion ring. -/
  reports : List TxReport
  /-- PHASE of the pass in progress. -/
  phase : Bool
  /-- Device numbers of the granted capture rules, ascending. -/
  capRules : List Nat
  /-- The capture ring: address, bytes, RING mode (R495). -/
  capRing : Option (Nat × Nat × Bool)
  /-- Clusters whose request the tenant holds. -/
  nm : List Nat
  /-- The wake of this DOZE period was signalled (R501). -/
  woken : Bool
  /-- Events since the last message, by vector. -/
  events : Tab Nat
  /-- Vectors with a pending completion or report event. -/
  cplEv : List Nat
  /-- Vectors with their PBA bit set, and vectors that the host has unmasked. -/
  pba : List Nat
  unmasked : List Nat
  /-- Reclaimed: nothing more is written to the host (R489). -/
  quiet : Bool
  /-- The withdrawal job of the detach sequence is still to take effect. -/
  withdrawing : Bool
  /-- In-band completion entries ready to send. -/
  inband : List (List Byte)
  /-- Placement clock at the latest restart of the liveness deadline (R487). -/
  live : Nat
  /-- Placement clock at RESUME, when the moderation timers restarted, and at the last message of a vector (R500). -/
  modBase : Option Nat
  modAt : Tab Nat
  deriving DecidableEq, Repr

/-- A message the device sent to a tenant: an MSI-X message by vector, a PME, an in-band wake notice (R500, R501). -/
inductive HostMsg where
  | msix (tn v : Nat)
  | pme (tn : Nat)
  deriving DecidableEq, Repr

/-! ## Network sleep and power -/

/-- A wake event (R376, R391): SOURCE, INDEX, CLUSTER, matching pattern, AO counter at the event. -/
structure WakeEv where
  src : Nat
  idx : Nat
  cluster : Nat
  pat : Nat
  time : Nat
  deriving DecidableEq, Repr

/-- A wake record (R391). -/
structure WakeRec where
  src : Nat
  idx : Nat
  cluster : Nat
  flags : Nat
  detect : Nat
  knell : Nat
  deriving DecidableEq, Repr

/-- An NM cluster beside its registers (R371–R381). -/
structure NmSt where
  /-- AO counter at the latest Knell. -/
  knell : Nat
  /-- AO counter at the latest restart of the NM timer. -/
  timerAt : Nat
  /-- The wake event latched around a Knell (R378). -/
  latched : Option WakeEv
  /-- SETTLE_US runs (R374). -/
  settling : Bool
  /-- The device itself caused the present REPEAT phase (R381). -/
  own : Bool
  /-- The Knell has driven PHY_GPIO low (R375). -/
  gpioLow : Bool
  deriving DecidableEq, Repr

/-- Reset, boot and device sleep (R508–R520). -/
structure PwrSt where
  /-- A reset source is active or has just ended; the boot sequence waits for its release. -/
  inReset : Bool
  /-- The boot step in progress, 0 for none (R517). -/
  boot : Nat
  /-- The boot has failed, or holds in BOOT (R519, R520). -/
  halted : Bool
  /-- Sleep entry: 0 awake, 2 to 5 the step in progress, 6 asleep (R508). -/
  sleep : Nat
  /-- The sleep state is SLEEP-D. -/
  sleepD : Bool
  /-- The step of the exit from SLEEP-R in progress, 0 for none (R510). -/
  exit : Nat
  /-- Wake events latched in D0 during sleep entry or sleep, oldest first (R25). -/
  wakes : List WakeEv
  /-- PWR_HOSTBOOT_GO was written: the boot from host memory may go on (R519). -/
  hostGo : Bool
  /-- The boot directory that step 5 read (R516). -/
  dir : List Byte
  /-- Plane B is still to join after the boot (R517). -/
  joinB : Bool
  deriving DecidableEq, Repr

/-! ## Keys, the ledger and the cipher pool -/

/-- A key with what its attribute record says of it (R412). -/
structure KeyHalf where
  alg : Nat
  usage : Nat
  /-- Parent slot, 0xFFFF for a root, and the parent's generation when the key was made (R413). -/
  parent : Nat
  parentGen : Nat
  origin : Nat
  exprt : Bool
  depth : Nat
  /-- Secret key bytes, empty for a public key. -/
  key : List Byte
  /-- X ‖ Y of an ECC key. -/
  pub : List Byte
  deriving DecidableEq, Repr

/-- A slot of Belfry (R412, R413, R418). -/
structure SlotSt where
  cur : Option KeyHalf
  pend : Option KeyHalf
  checked : Bool
  gen : Nat
  version : Nat
  owner : Nat
  deriving DecidableEq, Repr

/-- A slot committed or invalidated in the present clock: how it stood before, and whether it was invalidated (R419). -/
structure SlotEdge where
  slot : Nat
  before : SlotSt
  killed : Bool
  deriving DecidableEq, Repr

/-- Belfry beside its registers. -/
structure Blf where
  slots : Tab SlotSt
  /-- Steps the reclaimer has made; it stands at that number modulo 1 024. -/
  steps : Nat
  /-- An INVALIDATE that waits for the reclaimer: slot, and the tenant that asked or none for firmware (R414). -/
  waiting : Option (Nat × Option Nat)
  /-- Of a slot invalidated before, its descendants of that time that the reclaimer has not passed since (R414). -/
  below : Tab (List Nat)
  /-- Commits and invalidations of the present clock, newest first (R419). -/
  edges : List SlotEdge
  /-- The staged envelope, and what it will make of its slot (R421). -/
  staged : Option (List Byte × SlotSt)
  /-- The fused epoch, 1 as delivered (R516); it survives every reset. -/
  epoch : Nat
  /-- The privileged slots as the record in the boot source holds them (R417, R422). -/
  flash : Tab SlotSt
  deriving DecidableEq, Repr

/-- A metering record in the ledger's FIFO: ingress port and bytes (R427). -/
structure LdgRec where
  port : Nat
  bytes : List Byte
  deriving DecidableEq, Repr

/-- What a sequence of cipher parts carries from part to part, without key material (R442). -/
structure CphCtx where
  chain : List Byte
  acc : List Byte
  hash : List Byte
  aad : Nat
  data : Nat
  /-- GCM data has started. -/
  started : Bool
  tag : Nat
  /-- Resumed before its data started: ACC holds J0 and not the accumulator. -/
  atJ0 : Bool
  deriving DecidableEq, Repr

/-- A running operation: its AES engine, or none for SHA, ECC and DRBG; its loaded key with generation and VERSION; and
the context its part starts from. -/
structure CphRun where
  engine : Option Nat
  /-- The GHASH unit of a GCM operation, and its 16-byte blocks. -/
  ghash : Option Nat
  blocks : Nat
  key : List Byte
  gen : Nat
  version : Nat
  ctx : CphCtx
  deriving DecidableEq, Repr

/-- How far a cipher operation has come (R440, R447). -/
inductive CphSt where
  | queued
  | running (x : CphRun)
  /-- Committed or ended: its status waits for its turn in the domain; `full` once it found firmware's FIFO full. -/
  | ended (status : Nat) (full : Bool)
  deriving DecidableEq, Repr

/-- A cipher operation that holds a place (R436, R445). -/
structure CphOp where
  id : Nat
  domain : Nat
  hdr : List Byte
  st : CphSt
  deriving DecidableEq, Repr

/-- The expanded key that an AES engine keeps, under its tag of slot, generation and VERSION (R440). -/
structure EngineKey where
  slot : Nat
  gen : Nat
  version : Nat
  key : List Byte
  deriving DecidableEq, Repr

/-- The cipher pool beside its registers. -/
structure Cph where
  ops : List CphOp
  /-- Completion FIFO of firmware: OP_ID and status, oldest first. -/
  cpl : List (Nat × Nat)
  nextId : Nat
  /-- Frames that came back on IF1 and found no buffer (R184). -/
  unstored : Nat
  /-- Frames that MACsec is to validate and that wait for an engine: port, bytes without FCS, copies (R224). -/
  rxWait : List (Nat × List Byte × List Frame)
  /-- The key that each AES engine keeps, and the hash subkey in each GHASH unit (R440, R448). -/
  kept : Tab (Option EngineKey)
  subkeys : Tab (List Byte)
  deriving DecidableEq, Repr

/-- A chart change beside its registers (R60, R65, R69). -/
structure ChtSt where
  /-- The swap is being undone: Plane B is rebuilt under the active chart. -/
  back : Bool
  /-- Domains that step 1 of the swap brought up. -/
  doms : List Nat
  deriving DecidableEq, Repr

/-- Clapper beside its registers (R472–R479). -/
structure Clp where
  /-- Sources whose signal was asserted when Clapper last saw it. -/
  high : List Nat
  /-- The placement clock at the start of a target's last delivery round, while its moderation interval runs (R476). -/
  rounds : Tab (Option Nat)
  /-- Targets chosen so far, the one chosen least recently first. -/
  order : List Nat
  /-- PENDING sources that have woken their target. -/
  woke : List Nat
  deriving DecidableEq, Repr

/-- A mismatch under classification (R456): 1 for SIGNATURE, the minority core, an asynchronous input change nearby; or a duplex
mismatch with the results of the two self-tests so far. -/
inductive TriPend where
  | minority (kind core : Nat) (skew : Bool)
  | duplex (results : List (Nat × Bool))
  deriving DecidableEq, Repr

/-- The Triangle beside its registers (R456–R465). -/
structure Tri where
  pend : Option TriPend
  /-- Cores that a resynchronisation in progress restores, and the class that its end records, 0 for debug. -/
  resync : Option (List Nat × Nat)
  /-- AO times of the last STATE_DIVERGENCE by core, and of the last three UNATTRIBUTED mismatches, newest first; held in D0. -/
  diverged : Tab Nat
  unattributed : List Nat
  /-- AO time of the mismatch under classification, and the debug actions in the replay buffer (R465). -/
  found : Nat
  replay : List DebugAct
  deriving DecidableEq, Repr

/-- The external watchdog beside its registers (R529). -/
structure Wdg where
  asked : Bool
  sending : Bool
  /-- The answer sent last, 0 before the first. -/
  answer : Nat
  deriving DecidableEq, Repr

/-- The machine state. -/
structure State where
  /-- The register file: only registers that differ from their reset value are listed. -/
  regs : Tab Word
  /-- The _HI latches (R6), by requester code and the address of the _LO register. -/
  latches : Tab Word
  /-- The value the last register read returned to its requester. -/
  rdata : Nat
  planeA : PlaneSt
  planeB : PlaneSt
  dm : DrumMajor
  /-- The placement clock in ns (R145, Drum Major). -/
  clk : Nat
  tbs : List TimeBase
  /-- Ticks of PLL_TS so far (R256). The model's own count. -/
  ticks : Nat
  /-- Clapper event sources raised and not yet seen (R472). -/
  pulses : List Nat
  /-- The plane in RESYNC has its copy and takes table writes (R331). -/
  resyncCopied : Bool
  /-- Table items, slots before LPM units, that the copy walk of REJOIN has passed (R332). -/
  resyncPos : Nat
  /-- STATUS that the TBL_CMD command in progress ends with (R556). -/
  tblResult : Option Nat
  /-- Placement clock at the learn event applied last (R146). -/
  learnAt : Nat
  /-- The active chart area and the shadow area (R41). -/
  active : Mem
  shadow : Mem
  /-- The chart epoch in force (R59). -/
  epoch : Nat
  /-- Number of the present era, one more with each downbeat, and the earlier eras that frames may still belong to. The model's own
  numbering. -/
  era : Nat
  eras : Tab Era
  /-- LPDDR content; the bytes of a bucket never written are 0 (R161). -/
  lpddr : Mem
  /-- The AO counter: 48 bits of microseconds, held in D0 (R391). -/
  ao : Nat
  /-- The error record FIFO, oldest first (R526). -/
  errFifo : List ErrRec
  /-- Streams marked critical now, by the chart or by a declaration in force (R13). -/
  crit : List Nat
  /-- The flap tracker (R147). -/
  flaps : List FlapEntry
  /-- Counts the readings of values the spec leaves open; the model's own field (log 6). -/
  free : Nat
  /-- Runtime state of the fabric ports; a port not listed is as after reset. -/
  ports : Tab PortSt
  /-- DRR pointer by port; a port not listed stands on its highest preemptable class (R238). -/
  drr : Tab Nat
  /-- Fractions earned below a level, by the level register's address or a bucket's own key (R241). -/
  frac : Tab Nat
  /-- Tokens of the IF4 limiter (R405). -/
  if4Tokens : Nat
  /-- Tokens of CAN rate entries: 32 · channel + entry; an entry not listed holds its BURST (R408). -/
  canTokens : Tab Nat
  /-- The 1 MiB capture SRAM (R194), and matches counted per rule for sampling. -/
  capSram : Mem
  capSample : Tab Nat
  /-- Placement clock of the last record of the capture engine, and the records written in that clock (R198). -/
  capRate : Nat × Nat
  /-- Verdicts of CAN egress lists that the second copy of a twinned frame takes over: tag, port (R398). -/
  canTwin : List (Nat × Nat × Nat)
  /-- Number of the next copy placeholder, and of the next frame received. -/
  copyNo : Nat
  rxNo : Nat
  /-- Twin records of the FRER generators: tag and number, newest first (R314). -/
  gens : Tab (List (Nat × Nat))
  recs : Tab RecSt
  /-- Beats from A as the twin sees them on the fabric and on the side path, then from B; after them the beats from A and from B
  as the arbiter sees them (R326). -/
  beats : List BeatSt
  /-- Consecutive slots, 4 at most, in which a plane in service or in RESYNC was heard nowhere: A, B (R326). -/
  slotsLost : List Nat
  /-- BEAT_NUM of the beats that each plane sends in the running slot: A, B (R323). -/
  beatNums : List Nat
  /-- Placement clock at which the take-back timer last started or restarted (R335). -/
  tbFrom : Nat
  redBusy : Option RedBusy
  car : Car
  /-- The transmit timestamp FIFO (R273). -/
  txts : List TxReport
  /-- Captures of PPS0 to PPS3, oldest first, and the instant of the last captured edge in ns of PLL_TS (R276). -/
  ppsCap : Tab (List TbTime)
  ppsLast : Tab Nat
  /-- PPS outputs: pulses started, and the ticks at which the last one started and ends (R275). -/
  ppsPulses : Tab Nat
  ppsStart : Tab Nat
  ppsEnd : Tab Nat
  cans : Tab CanSt
  lins : Tab LinSt
  tenants : Tab Tenant
  /-- Messages sent to hosts, newest first. -/
  hostMsgs : List HostMsg
  /-- The tenant whose command entry was fetched last (R494). -/
  cmdTurn : Nat
  /-- HI_WAKE0 and HI_WAKE1 are asserted (R501). -/
  hiWake : List Nat
  /-- Memory of the management cluster and of the hosts of HI0 and HI1, as the rings reach them (R484, R493). -/
  mcMem : Mem
  host0 : Mem
  host1 : Mem
  /-- NM clusters beside their registers. -/
  nm : Tab NmSt
  /-- The wake record FIFO in AO RAM, oldest first (R391). -/
  wrec : List WakeRec
  pwr : PwrSt
  blf : Blf
  /-- The metering FIFO of the ledger (R427). -/
  ldgQ : List LdgRec
  /-- REPORT_SEQ of the ledger (R432). -/
  ldgSeq : Nat
  /-- The AO counter when a ledger channel last accepted a record with ACTIVE = 1 (R429). -/
  ldgAt : Tab Nat
  cph : Cph
  cht : ChtSt
  /-- Planes that found an uncorrectable fault in their control state: bit 4 of their beats (R323, R525). -/
  fatal : List Plane
  clp : Clp
  tri : Tri
  /-- The external watchdog (R529): a question was asked since reset; the answer frame is still being sent. -/
  wdg : Wdg
  /-- Buffers (plane, pool, index) that hold a word with an uncorrectable error (R525). -/
  stomps : List (Nat × Nat × Nat)
  /-- The commands that wait, first in, first out: a step takes the one at the front. The model's own field. -/
  pending : List Instr
  deriving DecidableEq, Repr

/-- A plane that no chart has built. -/
def PlaneSt.empty : PlaneSt where
  regions := []
  tagMap := []
  lpmTrie := false
  lpmSeed := 0
  lpmOldSeed := 0
  lpmState := .normal
  lpmWalk := 0
  learnRegion := none
  learnTag := 0
  exact := []
  lpm := []
  trie := []
  trieSt := ⟨[], [], [], []⟩
  bloom := []
  bloomNew := none
  badSlots := []
  badStatus := []
  badUnits := []
  scrub := 0
  frags := []
  learnQ := []
  flowQ := []
  parked := []
  mgmt := []
  pageReads := []
  pools := List.replicate 4 ⟨[], 0, 0, false, [], []⟩
  queues := []
  repl := []
  handing := false

/-- A time base right after reset (R257). -/
def TimeBase.reset : TimeBase := ⟨⟨0, 0, 0⟩, 4, 0, none, false, false, false, []⟩

/-- Drum Major right after reset (R204, R206). -/
def DrumMajor.reset : DrumMajor where
  buckets := []
  home0 := .A
  homeAt := none
  stranded := none
  ctxs := List.replicate 256 ⟨false, 0, 0, .A, 0, 0, 0, false, [], []⟩
  moving := false
  heavy := .A
  stuck := 0
  pressA := false
  pressB := false
  indirUse := []
  indirLast := []
  movedNow := false

/-- A port right after reset. -/
def PortSt.reset : PortSt := ⟨none, none, [], 0, 0, false, 0, false, 0, false, 0, false, false, false⟩

/-- A schedule without streams. -/
def Sched.empty : Sched := ⟨[], [], [], 0⟩

/-- Carillon right after reset. -/
def Car.reset : Car := ⟨Sched.empty, [], [], none, none, [], [], false, none, 0⟩

/-- A heartbeat path right after reset. -/
def BeatSt.reset : BeatSt := ⟨0, false, true, 0, 0, false⟩

/-- A CAN channel right after reset. -/
def CanSt.reset : CanSt := ⟨[], 0, 0, false, false, none, none, [], 0, 0⟩

/-- A LIN channel right after reset. -/
def LinSt.reset : LinSt := ⟨none, none, none, none, none, none, none, [], 0, 0, [], 0, false, false, false⟩

/-- A recovery entry right after reset. -/
def RecSt.reset : RecSt := ⟨0, 0, none⟩

/-- An NM cluster right after reset. -/
def NmSt.reset : NmSt := ⟨0, 0, none, false, false, false⟩

/-- Power and sleep right after a reset: the release of the reset is awaited. -/
def PwrSt.reset : PwrSt := ⟨true, 0, false, 0, false, 0, [], false, [], false⟩

/-- A tenant that is ABSENT. -/
def Tenant.absent : Tenant := ⟨[], [], true, [], none, [], false, [], [], [], [], false, false, [], 0, none, []⟩

/-- A slot that was never filled. -/
def SlotSt.empty : SlotSt := ⟨none, none, false, 0, 0, 0⟩

/-- Belfry right after power-on: slots 0 and 1 come from their fuses (R417). -/
def Blf.reset : Blf := ⟨[], 0, none, [], [], none, 1, []⟩

/-- The cipher pool right after reset. -/
def Cph.reset : Cph := ⟨[], [], 0, 0, [], [], []⟩

/-- The machine right after a power-on reset, before the reset is released (R37, R38). -/
def State.reset : State where
  regs := []
  latches := []
  rdata := 0
  planeA := PlaneSt.empty
  planeB := PlaneSt.empty
  dm := DrumMajor.reset
  clk := 0
  pulses := []
  resyncCopied := false
  resyncPos := 0
  tblResult := none
  learnAt := 0
  active := []
  shadow := []
  epoch := 0
  era := 0
  eras := []
  lpddr := []
  ao := 0
  errFifo := []
  crit := []
  flaps := []
  free := 0
  tbs := List.replicate 4 TimeBase.reset
  ticks := 0
  ports := []
  drr := []
  frac := []
  if4Tokens := 128
  canTokens := []
  capSram := []
  capSample := []
  capRate := (0, 0)
  canTwin := []
  copyNo := 0
  rxNo := 0
  gens := []
  recs := []
  beats := List.replicate 6 BeatSt.reset
  slotsLost := [0, 0]
  beatNums := [0, 0]
  tbFrom := 0
  redBusy := none
  car := Car.reset
  txts := []
  ppsCap := []
  ppsLast := []
  ppsPulses := []
  ppsStart := []
  ppsEnd := []
  cans := []
  lins := []
  tenants := []
  hostMsgs := []
  cmdTurn := 63
  hiWake := []
  mcMem := []
  host0 := []
  host1 := []
  nm := []
  wrec := []
  pwr := PwrSt.reset
  blf := Blf.reset
  ldgQ := []
  ldgSeq := 0
  ldgAt := []
  cph := Cph.reset
  cht := ⟨false, []⟩
  fatal := []
  clp := ⟨[], [], [], []⟩
  tri := ⟨none, none, [], [], 0, []⟩
  wdg := ⟨false, false, 0⟩
  stomps := []
  pending := []

/-- Why a command stops the machine. No command of this machine stops in a fault: the type has one constructor so that
the outcome type is inhabited on every side. -/
inductive Fault where
  /-- Raised by no meaning. Safe: a stop could only make a claim unprovable. -/
  | unreachable
  deriving DecidableEq, Repr

/-- Why a command is refused. -/
inductive Refusal where
  /-- A command that has no meaning yet, by its mnemonic. Safe: nothing can be proved of its effect. -/
  | notModelled (mnemonic : String)
  deriving DecidableEq, Repr

end Sys2Proof.Machine
end

