-- ==== Sys2Proof/Machine/Regs.lean ====
section
/-! DEFINITION. The register map of the 32 MiB window (R29, R30, R34): one address function per register, one
field constant per field, and the table of all registers with their reset values and access codes (R5, R7), in
the order of the spec's chapters. Tenant windows are kept at 0x200_0000 + 0x1_0000·t (R483). -/

namespace Sys2Proof.Machine

/-- The byte offset a plane half adds (R30). -/
def half (pl : Plane) : Nat := match pl with
  | .A => 0
  | .B => 0x80000

/-! Registers of 01_architecture. -/
def rGLB_PARTCODE : Nat := 0x0
def GLB_PARTCODE_FAMILY : Fld := ⟨rGLB_PARTCODE, 16, 16⟩
def GLB_PARTCODE_PART : Fld := ⟨rGLB_PARTCODE, 0, 16⟩
def rGLB_REVISION : Nat := 0x4
def GLB_REVISION_MAJOR : Fld := ⟨rGLB_REVISION, 8, 8⟩
def GLB_REVISION_MINOR : Fld := ⟨rGLB_REVISION, 0, 8⟩
def rGLB_DEVUID (n : Nat) : Nat := 0x10 + 0x4 * n
def GLB_DEVUID_UID (n : Nat) : Fld := ⟨rGLB_DEVUID n, 0, 32⟩
def rGLB_STRAP : Nat := 0x20
def GLB_STRAP_SPLIT_ACTIVE : Fld := ⟨rGLB_STRAP, 4, 1⟩
def GLB_STRAP_SPLIT_PERMIT : Fld := ⟨rGLB_STRAP, 3, 1⟩
def GLB_STRAP_SPLIT_N : Fld := ⟨rGLB_STRAP, 2, 1⟩
def GLB_STRAP_BOOT_MODE : Fld := ⟨rGLB_STRAP, 0, 2⟩
def rGLB_RESET_CAUSE : Nat := 0x24
def GLB_RESET_CAUSE_SUPPLY : Fld := ⟨rGLB_RESET_CAUSE, 7, 1⟩
def GLB_RESET_CAUSE_DEBUG : Fld := ⟨rGLB_RESET_CAUSE, 6, 1⟩
def GLB_RESET_CAUSE_THERM : Fld := ⟨rGLB_RESET_CAUSE, 5, 1⟩
def GLB_RESET_CAUSE_SLEEPD_WAKE : Fld := ⟨rGLB_RESET_CAUSE, 4, 1⟩
def GLB_RESET_CAUSE_SOFT : Fld := ⟨rGLB_RESET_CAUSE, 3, 1⟩
def GLB_RESET_CAUSE_PWRGOOD : Fld := ⟨rGLB_RESET_CAUSE, 2, 1⟩
def GLB_RESET_CAUSE_PIN : Fld := ⟨rGLB_RESET_CAUSE, 1, 1⟩
def GLB_RESET_CAUSE_POR : Fld := ⟨rGLB_RESET_CAUSE, 0, 1⟩
def rGLB_SWRESET : Nat := 0x28
def GLB_SWRESET_KEY : Fld := ⟨rGLB_SWRESET, 16, 16⟩
def GLB_SWRESET_GO : Fld := ⟨rGLB_SWRESET, 0, 1⟩
def rGLB_DEVSTATE : Nat := 0x30
def GLB_DEVSTATE_TRANS_BUSY : Fld := ⟨rGLB_DEVSTATE, 19, 1⟩
def GLB_DEVSTATE_SWAP_BUSY : Fld := ⟨rGLB_DEVSTATE, 18, 1⟩
def GLB_DEVSTATE_SPLIT : Fld := ⟨rGLB_DEVSTATE, 17, 1⟩
def GLB_DEVSTATE_SAFE : Fld := ⟨rGLB_DEVSTATE, 16, 1⟩
def GLB_DEVSTATE_PB_COND : Fld := ⟨rGLB_DEVSTATE, 12, 3⟩
def GLB_DEVSTATE_PA_COND : Fld := ⟨rGLB_DEVSTATE, 9, 3⟩
def GLB_DEVSTATE_LEAD : Fld := ⟨rGLB_DEVSTATE, 8, 1⟩
def GLB_DEVSTATE_LAST_SLEEP : Fld := ⟨rGLB_DEVSTATE, 4, 2⟩
def GLB_DEVSTATE_STATE : Fld := ⟨rGLB_DEVSTATE, 0, 3⟩
def rGLB_STATE_CTL : Nat := 0x34
def GLB_STATE_CTL_RESULT : Fld := ⟨rGLB_STATE_CTL, 8, 3⟩
def GLB_STATE_CTL_REQ : Fld := ⟨rGLB_STATE_CTL, 0, 3⟩
def rGLB_ACCESS_ERR : Nat := 0x40
def GLB_ACCESS_ERR_VALID : Fld := ⟨rGLB_ACCESS_ERR, 31, 1⟩
def GLB_ACCESS_ERR_OVERFLOW : Fld := ⟨rGLB_ACCESS_ERR, 30, 1⟩
def GLB_ACCESS_ERR_CAUSE : Fld := ⟨rGLB_ACCESS_ERR, 25, 3⟩
def GLB_ACCESS_ERR_ADDR : Fld := ⟨rGLB_ACCESS_ERR, 0, 25⟩
def rGLB_SCRATCH (n : Nat) : Nat := 0x50 + 0x4 * n
def GLB_SCRATCH_DATA (n : Nat) : Fld := ⟨rGLB_SCRATCH n, 0, 32⟩
/-! Registers of 02_chart. -/
def rCHT_CTL : Nat := 0x100000
def CHT_CTL_OWNER : Fld := ⟨rCHT_CTL, 16, 2⟩
def CHT_CTL_RESULT : Fld := ⟨rCHT_CTL, 8, 4⟩
def CHT_CTL_CMD : Fld := ⟨rCHT_CTL, 0, 4⟩
def rCHT_STATUS : Nat := 0x100004
def CHT_STATUS_WIN_REJECT : Fld := ⟨rCHT_STATUS, 16, 1⟩
def CHT_STATUS_SWAP_STEP : Fld := ⟨rCHT_STATUS, 12, 4⟩
def CHT_STATUS_LATE : Fld := ⟨rCHT_STATUS, 9, 1⟩
def CHT_STATUS_READY : Fld := ⟨rCHT_STATUS, 8, 1⟩
def CHT_STATUS_KIND : Fld := ⟨rCHT_STATUS, 4, 2⟩
def CHT_STATUS_SHADOW : Fld := ⟨rCHT_STATUS, 0, 3⟩
def rCHT_ARM_TIME_LO : Nat := 0x100010
def CHT_ARM_TIME_LO_TIME : Fld := ⟨rCHT_ARM_TIME_LO, 0, 32⟩
def rCHT_ARM_TIME_HI : Nat := 0x100014
def CHT_ARM_TIME_HI_TIME : Fld := ⟨rCHT_ARM_TIME_HI, 0, 16⟩
def rCHT_DOWNBEAT_LO : Nat := 0x100018
def CHT_DOWNBEAT_LO_TIME : Fld := ⟨rCHT_DOWNBEAT_LO, 0, 32⟩
def rCHT_DOWNBEAT_HI : Nat := 0x10001C
def CHT_DOWNBEAT_HI_TIME : Fld := ⟨rCHT_DOWNBEAT_HI, 0, 16⟩
def rCHT_SWAP_DRAIN : Nat := 0x100020
def CHT_SWAP_DRAIN_DRAIN_US : Fld := ⟨rCHT_SWAP_DRAIN, 0, 10⟩
def rCHT_ERR : Nat := 0x100030
def CHT_ERR_VALID : Fld := ⟨rCHT_ERR, 31, 1⟩
def CHT_ERR_SECTION : Fld := ⟨rCHT_ERR, 16, 8⟩
def CHT_ERR_CODE : Fld := ⟨rCHT_ERR, 0, 8⟩
def rCHT_ERR_DETAIL : Nat := 0x100034
def CHT_ERR_DETAIL_RECORD : Fld := ⟨rCHT_ERR_DETAIL, 0, 32⟩
def rCHT_DIFF : Nat := 0x100038
def CHT_DIFF_DIFF : Fld := ⟨rCHT_DIFF, 1, 18⟩
def rCHT_ACT_ID_LO : Nat := 0x100040
def CHT_ACT_ID_LO_ID : Fld := ⟨rCHT_ACT_ID_LO, 0, 32⟩
def rCHT_ACT_ID_HI : Nat := 0x100044
def CHT_ACT_ID_HI_ID : Fld := ⟨rCHT_ACT_ID_HI, 0, 32⟩
def rCHT_ACT_COUNTER : Nat := 0x100048
def CHT_ACT_COUNTER_COUNTER : Fld := ⟨rCHT_ACT_COUNTER, 0, 32⟩
def rCHT_SHD_ID_LO : Nat := 0x100050
def CHT_SHD_ID_LO_ID : Fld := ⟨rCHT_SHD_ID_LO, 0, 32⟩
def rCHT_SHD_ID_HI : Nat := 0x100054
def CHT_SHD_ID_HI_ID : Fld := ⟨rCHT_SHD_ID_HI, 0, 32⟩
def rCHT_SHD_COUNTER : Nat := 0x100058
def CHT_SHD_COUNTER_COUNTER : Fld := ⟨rCHT_SHD_COUNTER, 0, 32⟩
def rCHT_FLOOR : Nat := 0x100060
def CHT_FLOOR_FLOOR : Fld := ⟨rCHT_FLOOR, 0, 32⟩
def rCHT_SWAP_FLUSH_CNT : Nat := 0x100070
def CHT_SWAP_FLUSH_CNT_COUNT : Fld := ⟨rCHT_SWAP_FLUSH_CNT, 0, 32⟩
def rCHT_SWAP_UNPLACED_CNT : Nat := 0x100074
def CHT_SWAP_UNPLACED_CNT_COUNT : Fld := ⟨rCHT_SWAP_UNPLACED_CNT, 0, 32⟩
/-! Registers of 03_ports. -/
def rETH_CFG (i : Nat) : Nat := 0x1300000 + 0x8000 * i
def ETH_CFG_MAXLEN (i : Nat) : Fld := ⟨rETH_CFG i, 18, 14⟩
def ETH_CFG_ADDFRAG (i : Nat) : Fld := ⟨rETH_CFG i, 16, 2⟩
def ETH_CFG_VERIFY (i : Nat) : Fld := ⟨rETH_CFG i, 11, 1⟩
def ETH_CFG_MACSEC (i : Nat) : Fld := ⟨rETH_CFG i, 10, 1⟩
def ETH_CFG_PREEMPT (i : Nat) : Fld := ⟨rETH_CFG i, 9, 1⟩
def ETH_CFG_ENABLE (i : Nat) : Fld := ⟨rETH_CFG i, 8, 1⟩
def ETH_CFG_MODE (i : Nat) : Fld := ⟨rETH_CFG i, 0, 8⟩
def rETH_CTL (i : Nat) : Nat := 0x1300004 + 0x8000 * i
def ETH_CTL_HOLD_MS (i : Nat) : Fld := ⟨rETH_CTL i, 22, 10⟩
def ETH_CTL_UP_DEBOUNCE_MS (i : Nat) : Fld := ⟨rETH_CTL i, 14, 8⟩
def ETH_CTL_VERIFY_MS (i : Nat) : Fld := ⟨rETH_CTL i, 6, 8⟩
def ETH_CTL_ADMIN_DOWN (i : Nat) : Fld := ⟨rETH_CTL i, 0, 1⟩
def rETH_STATUS (i : Nat) : Nat := 0x1300008 + 0x8000 * i
def ETH_STATUS_REMOTE_FAULT (i : Nat) : Fld := ⟨rETH_STATUS i, 15, 1⟩
def ETH_STATUS_PREEMPT_ACTIVE (i : Nat) : Fld := ⟨rETH_STATUS i, 14, 1⟩
def ETH_STATUS_VERIFY_ST (i : Nat) : Fld := ⟨rETH_STATUS i, 12, 2⟩
def ETH_STATUS_SPEED (i : Nat) : Fld := ⟨rETH_STATUS i, 8, 3⟩
def ETH_STATUS_FLUSHED (i : Nat) : Fld := ⟨rETH_STATUS i, 4, 1⟩
def ETH_STATUS_HOLDING (i : Nat) : Fld := ⟨rETH_STATUS i, 3, 1⟩
def ETH_STATUS_AN_DONE (i : Nat) : Fld := ⟨rETH_STATUS i, 2, 1⟩
def ETH_STATUS_PCS_LOCK (i : Nat) : Fld := ⟨rETH_STATUS i, 1, 1⟩
def ETH_STATUS_LINK (i : Nat) : Fld := ⟨rETH_STATUS i, 0, 1⟩
def rETH_EVT (i : Nat) : Nat := 0x130000C + 0x8000 * i
def ETH_EVT_REMOTE_FAULT (i : Nat) : Fld := ⟨rETH_EVT i, 6, 1⟩
def ETH_EVT_RX_ERR (i : Nat) : Fld := ⟨rETH_EVT i, 5, 1⟩
def ETH_EVT_SPEED_UNSUP (i : Nat) : Fld := ⟨rETH_EVT i, 4, 1⟩
def ETH_EVT_VERIFY_FAIL (i : Nat) : Fld := ⟨rETH_EVT i, 3, 1⟩
def ETH_EVT_HOLD_EXPIRED (i : Nat) : Fld := ⟨rETH_EVT i, 2, 1⟩
def ETH_EVT_LINK_DOWN (i : Nat) : Fld := ⟨rETH_EVT i, 1, 1⟩
def ETH_EVT_LINK_UP (i : Nat) : Fld := ⟨rETH_EVT i, 0, 1⟩
def rETH_EVT_EN (i : Nat) : Nat := 0x1300010 + 0x8000 * i
def ETH_EVT_EN_EN (i : Nat) : Fld := ⟨rETH_EVT_EN i, 0, 7⟩
def rETH_RX_FRAMES_CNT_LO (i : Nat) : Nat := 0x1300100 + 0x8000 * i
def ETH_RX_FRAMES_CNT_LO_VAL (i : Nat) : Fld := ⟨rETH_RX_FRAMES_CNT_LO i, 0, 32⟩
def rETH_RX_FRAMES_CNT_HI (i : Nat) : Nat := 0x1300104 + 0x8000 * i
def ETH_RX_FRAMES_CNT_HI_VAL (i : Nat) : Fld := ⟨rETH_RX_FRAMES_CNT_HI i, 0, 32⟩
def rETH_RX_BYTES_CNT_LO (i : Nat) : Nat := 0x1300108 + 0x8000 * i
def ETH_RX_BYTES_CNT_LO_VAL (i : Nat) : Fld := ⟨rETH_RX_BYTES_CNT_LO i, 0, 32⟩
def rETH_RX_BYTES_CNT_HI (i : Nat) : Nat := 0x130010C + 0x8000 * i
def ETH_RX_BYTES_CNT_HI_VAL (i : Nat) : Fld := ⟨rETH_RX_BYTES_CNT_HI i, 0, 32⟩
def rETH_TX_FRAMES_CNT_LO (i : Nat) : Nat := 0x1300110 + 0x8000 * i
def ETH_TX_FRAMES_CNT_LO_VAL (i : Nat) : Fld := ⟨rETH_TX_FRAMES_CNT_LO i, 0, 32⟩
def rETH_TX_FRAMES_CNT_HI (i : Nat) : Nat := 0x1300114 + 0x8000 * i
def ETH_TX_FRAMES_CNT_HI_VAL (i : Nat) : Fld := ⟨rETH_TX_FRAMES_CNT_HI i, 0, 32⟩
def rETH_TX_BYTES_CNT_LO (i : Nat) : Nat := 0x1300118 + 0x8000 * i
def ETH_TX_BYTES_CNT_LO_VAL (i : Nat) : Fld := ⟨rETH_TX_BYTES_CNT_LO i, 0, 32⟩
def rETH_TX_BYTES_CNT_HI (i : Nat) : Nat := 0x130011C + 0x8000 * i
def ETH_TX_BYTES_CNT_HI_VAL (i : Nat) : Fld := ⟨rETH_TX_BYTES_CNT_HI i, 0, 32⟩
def rETH_RX_FCS_ERR_CNT (i : Nat) : Nat := 0x1300120 + 0x8000 * i
def ETH_RX_FCS_ERR_CNT_VAL (i : Nat) : Fld := ⟨rETH_RX_FCS_ERR_CNT i, 0, 32⟩
def rETH_RX_RUNT_CNT (i : Nat) : Nat := 0x1300124 + 0x8000 * i
def ETH_RX_RUNT_CNT_VAL (i : Nat) : Fld := ⟨rETH_RX_RUNT_CNT i, 0, 32⟩
def rETH_RX_OVERSIZE_CNT (i : Nat) : Nat := 0x1300128 + 0x8000 * i
def ETH_RX_OVERSIZE_CNT_VAL (i : Nat) : Fld := ⟨rETH_RX_OVERSIZE_CNT i, 0, 32⟩
def rETH_RX_CTRL_CNT (i : Nat) : Nat := 0x130012C + 0x8000 * i
def ETH_RX_CTRL_CNT_VAL (i : Nat) : Fld := ⟨rETH_RX_CTRL_CNT i, 0, 32⟩
def rETH_RX_FRAG_ERR_CNT (i : Nat) : Nat := 0x1300130 + 0x8000 * i
def ETH_RX_FRAG_ERR_CNT_VAL (i : Nat) : Fld := ⟨rETH_RX_FRAG_ERR_CNT i, 0, 32⟩
def rETH_TX_ABORT_CNT (i : Nat) : Nat := 0x1300134 + 0x8000 * i
def ETH_TX_ABORT_CNT_VAL (i : Nat) : Fld := ⟨rETH_TX_ABORT_CNT i, 0, 32⟩
def rETH_TX_FRAG_CNT (i : Nat) : Nat := 0x1300138 + 0x8000 * i
def ETH_TX_FRAG_CNT_VAL (i : Nat) : Fld := ⟨rETH_TX_FRAG_CNT i, 0, 32⟩
def rETH_DOWN_DROP_CNT (i : Nat) : Nat := 0x130013C + 0x8000 * i
def ETH_DOWN_DROP_CNT_VAL (i : Nat) : Fld := ⟨rETH_DOWN_DROP_CNT i, 0, 32⟩
def rETH_HOLD_FLUSH_CNT (i : Nat) : Nat := 0x1300140 + 0x8000 * i
def ETH_HOLD_FLUSH_CNT_VAL (i : Nat) : Fld := ⟨rETH_HOLD_FLUSH_CNT i, 0, 32⟩
def rT1S_CFG (n : Nat) : Nat := 0x1400000 + 0x10000 * n
def T1S_CFG_TO_TMR (n : Nat) : Fld := ⟨rT1S_CFG n, 24, 8⟩
def T1S_CFG_BURST_CNT (n : Nat) : Fld := ⟨rT1S_CFG n, 16, 8⟩
def T1S_CFG_NODE_COUNT (n : Nat) : Fld := ⟨rT1S_CFG n, 11, 5⟩
def T1S_CFG_NODE_ID (n : Nat) : Fld := ⟨rT1S_CFG n, 4, 4⟩
def T1S_CFG_ENABLE (n : Nat) : Fld := ⟨rT1S_CFG n, 0, 1⟩
def rT1S_CFG2 (n : Nat) : Nat := 0x1400004 + 0x10000 * n
def T1S_CFG2_BURST_TMR (n : Nat) : Fld := ⟨rT1S_CFG2 n, 16, 8⟩
def T1S_CFG2_MAXLEN (n : Nat) : Fld := ⟨rT1S_CFG2 n, 0, 11⟩
def rT1S_CTL (n : Nat) : Nat := 0x1400008 + 0x10000 * n
def T1S_CTL_HOLD_MS (n : Nat) : Fld := ⟨rT1S_CTL n, 22, 10⟩
def T1S_CTL_UP_DEBOUNCE_MS (n : Nat) : Fld := ⟨rT1S_CTL n, 14, 8⟩
def T1S_CTL_ADMIN_DOWN (n : Nat) : Fld := ⟨rT1S_CTL n, 0, 1⟩
def rT1S_STATUS (n : Nat) : Nat := 0x140000C + 0x10000 * n
def T1S_STATUS_FLUSHED (n : Nat) : Fld := ⟨rT1S_STATUS n, 5, 1⟩
def T1S_STATUS_HOLDING (n : Nat) : Fld := ⟨rT1S_STATUS n, 4, 1⟩
def T1S_STATUS_COORD (n : Nat) : Fld := ⟨rT1S_STATUS n, 3, 1⟩
def T1S_STATUS_PLCA_STATUS (n : Nat) : Fld := ⟨rT1S_STATUS n, 2, 1⟩
def T1S_STATUS_PHY_READY (n : Nat) : Fld := ⟨rT1S_STATUS n, 1, 1⟩
def T1S_STATUS_LINK (n : Nat) : Fld := ⟨rT1S_STATUS n, 0, 1⟩
def rT1S_EVT (n : Nat) : Nat := 0x1400010 + 0x10000 * n
def T1S_EVT_HOLD_EXPIRED (n : Nat) : Fld := ⟨rT1S_EVT n, 4, 1⟩
def T1S_EVT_RX_ERR (n : Nat) : Fld := ⟨rT1S_EVT n, 3, 1⟩
def T1S_EVT_CONFLICT (n : Nat) : Fld := ⟨rT1S_EVT n, 2, 1⟩
def T1S_EVT_LINK_DOWN (n : Nat) : Fld := ⟨rT1S_EVT n, 1, 1⟩
def T1S_EVT_LINK_UP (n : Nat) : Fld := ⟨rT1S_EVT n, 0, 1⟩
def rT1S_EVT_EN (n : Nat) : Nat := 0x1400014 + 0x10000 * n
def T1S_EVT_EN_EN (n : Nat) : Fld := ⟨rT1S_EVT_EN n, 0, 5⟩
def rT1S_RX_FRAMES_CNT (n : Nat) : Nat := 0x1400100 + 0x10000 * n
def T1S_RX_FRAMES_CNT_VAL (n : Nat) : Fld := ⟨rT1S_RX_FRAMES_CNT n, 0, 32⟩
def rT1S_TX_FRAMES_CNT (n : Nat) : Nat := 0x1400104 + 0x10000 * n
def T1S_TX_FRAMES_CNT_VAL (n : Nat) : Fld := ⟨rT1S_TX_FRAMES_CNT n, 0, 32⟩
def rT1S_RX_ERR_CNT (n : Nat) : Nat := 0x1400108 + 0x10000 * n
def T1S_RX_ERR_CNT_VAL (n : Nat) : Fld := ⟨rT1S_RX_ERR_CNT n, 0, 32⟩
def rT1S_CONFLICT_CNT (n : Nat) : Nat := 0x140010C + 0x10000 * n
def T1S_CONFLICT_CNT_VAL (n : Nat) : Fld := ⟨rT1S_CONFLICT_CNT n, 0, 32⟩
def rT1S_TX_ABORT_CNT (n : Nat) : Nat := 0x1400110 + 0x10000 * n
def T1S_TX_ABORT_CNT_VAL (n : Nat) : Fld := ⟨rT1S_TX_ABORT_CNT n, 0, 32⟩
def rT1S_DOWN_DROP_CNT (n : Nat) : Nat := 0x1400114 + 0x10000 * n
def T1S_DOWN_DROP_CNT_VAL (n : Nat) : Fld := ⟨rT1S_DOWN_DROP_CNT n, 0, 32⟩
def rT1S_HOLD_FLUSH_CNT (n : Nat) : Nat := 0x1400118 + 0x10000 * n
def T1S_HOLD_FLUSH_CNT_VAL (n : Nat) : Fld := ⟨rT1S_HOLD_FLUSH_CNT n, 0, 32⟩
/-! Registers of 04_parsing. -/
def rPRS_CFG (pl : Plane) : Nat := 0x800000 + half pl
def PRS_CFG_ACT_LEN (pl : Plane) : Fld := ⟨rPRS_CFG pl, 17, 1⟩
def PRS_CFG_ACT_DEPTH (pl : Plane) : Fld := ⟨rPRS_CFG pl, 16, 1⟩
def PRS_CFG_PROFILE_COUNT (pl : Plane) : Fld := ⟨rPRS_CFG pl, 8, 8⟩
def PRS_CFG_NODE_COUNT (pl : Plane) : Fld := ⟨rPRS_CFG pl, 0, 8⟩
def rPRS_EXC_RATE (pl : Plane) : Nat := 0x800010 + half pl
def PRS_EXC_RATE_RATE (pl : Plane) : Fld := ⟨rPRS_EXC_RATE pl, 0, 20⟩
def rPRS_EXC_BURST (pl : Plane) : Nat := 0x800014 + half pl
def PRS_EXC_BURST_BURST (pl : Plane) : Fld := ⟨rPRS_EXC_BURST pl, 0, 13⟩
def rPRS_EXC_LEVEL (pl : Plane) : Nat := 0x800018 + half pl
def PRS_EXC_LEVEL_TOKENS (pl : Plane) : Fld := ⟨rPRS_EXC_LEVEL pl, 0, 13⟩
def rPRS_LAST_ERR (pl : Plane) : Nat := 0x800020 + half pl
def PRS_LAST_ERR_VALID (pl : Plane) : Fld := ⟨rPRS_LAST_ERR pl, 31, 1⟩
def PRS_LAST_ERR_CODE (pl : Plane) : Fld := ⟨rPRS_LAST_ERR pl, 24, 2⟩
def PRS_LAST_ERR_NODE (pl : Plane) : Fld := ⟨rPRS_LAST_ERR pl, 16, 7⟩
def PRS_LAST_ERR_HEADERS (pl : Plane) : Fld := ⟨rPRS_LAST_ERR pl, 12, 4⟩
def PRS_LAST_ERR_HDR_TYPE (pl : Plane) : Fld := ⟨rPRS_LAST_ERR pl, 8, 4⟩
def PRS_LAST_ERR_PORT (pl : Plane) : Fld := ⟨rPRS_LAST_ERR pl, 0, 8⟩
def rPRS_FRAG_STATUS (pl : Plane) : Nat := 0x800030 + half pl
def PRS_FRAG_STATUS_USED (pl : Plane) : Fld := ⟨rPRS_FRAG_STATUS pl, 0, 11⟩
def rPRS_EVT (pl : Plane) : Nat := 0x800040 + half pl
def PRS_EVT_FRAG_FULL (pl : Plane) : Fld := ⟨rPRS_EVT pl, 2, 1⟩
def PRS_EVT_EXC_LIMIT (pl : Plane) : Fld := ⟨rPRS_EVT pl, 1, 1⟩
def PRS_EVT_PARSE_ERR (pl : Plane) : Fld := ⟨rPRS_EVT pl, 0, 1⟩
def rPRS_EVT_EN (pl : Plane) : Nat := 0x800044 + half pl
def PRS_EVT_EN_EN (pl : Plane) : Fld := ⟨rPRS_EVT_EN pl, 0, 3⟩
def rPRS_PARSE_DEPTH_CNT (pl : Plane) : Nat := 0x800100 + half pl
def PRS_PARSE_DEPTH_CNT_VAL (pl : Plane) : Fld := ⟨rPRS_PARSE_DEPTH_CNT pl, 0, 32⟩
def rPRS_PARSE_LEN_CNT (pl : Plane) : Nat := 0x800104 + half pl
def PRS_PARSE_LEN_CNT_VAL (pl : Plane) : Fld := ⟨rPRS_PARSE_LEN_CNT pl, 0, 32⟩
def rPRS_PARSE_DROP_CNT (pl : Plane) : Nat := 0x800108 + half pl
def PRS_PARSE_DROP_CNT_VAL (pl : Plane) : Fld := ⟨rPRS_PARSE_DROP_CNT pl, 0, 32⟩
def rPRS_EXC_SENT_CNT (pl : Plane) : Nat := 0x80010C + half pl
def PRS_EXC_SENT_CNT_VAL (pl : Plane) : Fld := ⟨rPRS_EXC_SENT_CNT pl, 0, 32⟩
def rPRS_EXC_LIMIT_DROP_CNT (pl : Plane) : Nat := 0x800110 + half pl
def PRS_EXC_LIMIT_DROP_CNT_VAL (pl : Plane) : Fld := ⟨rPRS_EXC_LIMIT_DROP_CNT pl, 0, 32⟩
def rPRS_FRAG_INSERT_CNT (pl : Plane) : Nat := 0x800114 + half pl
def PRS_FRAG_INSERT_CNT_VAL (pl : Plane) : Fld := ⟨rPRS_FRAG_INSERT_CNT pl, 0, 32⟩
def rPRS_FRAG_HIT_CNT (pl : Plane) : Nat := 0x800118 + half pl
def PRS_FRAG_HIT_CNT_VAL (pl : Plane) : Fld := ⟨rPRS_FRAG_HIT_CNT pl, 0, 32⟩
def rPRS_FRAG_OUTER_CNT (pl : Plane) : Nat := 0x80011C + half pl
def PRS_FRAG_OUTER_CNT_VAL (pl : Plane) : Fld := ⟨rPRS_FRAG_OUTER_CNT pl, 0, 32⟩
def rPRS_FRAG_FULL_CNT (pl : Plane) : Nat := 0x800120 + half pl
def PRS_FRAG_FULL_CNT_VAL (pl : Plane) : Fld := ⟨rPRS_FRAG_FULL_CNT pl, 0, 32⟩
def rPRS_FRAG_AGED_CNT (pl : Plane) : Nat := 0x800124 + half pl
def PRS_FRAG_AGED_CNT_VAL (pl : Plane) : Fld := ⟨rPRS_FRAG_AGED_CNT pl, 0, 32⟩
/-! Registers of 05_tables. -/
def rTBL_CMD (pl : Plane) : Nat := 0x900000 + half pl
def TBL_CMD_BUSY (pl : Plane) : Fld := ⟨rTBL_CMD pl, 31, 1⟩
def TBL_CMD_STATUS (pl : Plane) : Fld := ⟨rTBL_CMD pl, 20, 4⟩
def TBL_CMD_PLANE (pl : Plane) : Fld := ⟨rTBL_CMD pl, 16, 1⟩
def TBL_CMD_WIDE (pl : Plane) : Fld := ⟨rTBL_CMD pl, 15, 1⟩
def TBL_CMD_REGION (pl : Plane) : Fld := ⟨rTBL_CMD pl, 10, 5⟩
def TBL_CMD_PIN (pl : Plane) : Fld := ⟨rTBL_CMD pl, 8, 1⟩
def TBL_CMD_OP (pl : Plane) : Fld := ⟨rTBL_CMD pl, 0, 4⟩
def rTBL_CMD_ARG (pl : Plane) : Nat := 0x900004 + half pl
def TBL_CMD_ARG_ARG (pl : Plane) : Fld := ⟨rTBL_CMD_ARG pl, 0, 32⟩
def rTBL_CMD_LOC (pl : Plane) : Nat := 0x900008 + half pl
def TBL_CMD_LOC_VALID (pl : Plane) : Fld := ⟨rTBL_CMD_LOC pl, 31, 1⟩
def TBL_CMD_LOC_BUCKET (pl : Plane) : Fld := ⟨rTBL_CMD_LOC pl, 2, 22⟩
def TBL_CMD_LOC_ENTRY (pl : Plane) : Fld := ⟨rTBL_CMD_LOC pl, 0, 2⟩
def rTBL_SLOT_STATUS (pl : Plane) : Nat := 0x90000C + half pl
def TBL_SLOT_STATUS_STATUS (pl : Plane) : Fld := ⟨rTBL_SLOT_STATUS pl, 0, 16⟩
def rTBL_KEY (pl : Plane) (n : Nat) : Nat := 0x900010 + half pl + 0x4 * n
def TBL_KEY_KEY (pl : Plane) (n : Nat) : Fld := ⟨rTBL_KEY pl n, 0, 32⟩
def rTBL_RES_LO (pl : Plane) : Nat := 0x900038 + half pl
def TBL_RES_LO_RESULT (pl : Plane) : Fld := ⟨rTBL_RES_LO pl, 0, 32⟩
def rTBL_RES_HI (pl : Plane) : Nat := 0x90003C + half pl
def TBL_RES_HI_RESULT (pl : Plane) : Fld := ⟨rTBL_RES_HI pl, 0, 32⟩
def rTBL_LEARN_CTL (pl : Plane) : Nat := 0x900040 + half pl
def TBL_LEARN_CTL_AGE_S (pl : Plane) : Fld := ⟨rTBL_LEARN_CTL pl, 20, 12⟩
def TBL_LEARN_CTL_FLAP_WIN_MS (pl : Plane) : Fld := ⟨rTBL_LEARN_CTL pl, 8, 12⟩
def TBL_LEARN_CTL_FLAP_MAX (pl : Plane) : Fld := ⟨rTBL_LEARN_CTL pl, 4, 4⟩
def TBL_LEARN_CTL_LEARN_EN (pl : Plane) : Fld := ⟨rTBL_LEARN_CTL pl, 0, 1⟩
def rTBL_LEARN_PORT (pl : Plane) (n : Nat) : Nat := 0x900050 + half pl + 0x4 * n
def TBL_LEARN_PORT_EN (pl : Plane) (n : Nat) : Fld := ⟨rTBL_LEARN_PORT pl n, 0, 32⟩
def rTBL_LPM_STAT (pl : Plane) : Nat := 0x900080 + half pl
def TBL_LPM_STAT_REBUILDING (pl : Plane) : Fld := ⟨rTBL_LPM_STAT pl, 31, 1⟩
def TBL_LPM_STAT_DUAL (pl : Plane) : Fld := ⟨rTBL_LPM_STAT pl, 30, 1⟩
def TBL_LPM_STAT_UNITS_USED (pl : Plane) : Fld := ⟨rTBL_LPM_STAT pl, 0, 17⟩
def rTBL_PAR_ERR (pl : Plane) : Nat := 0x900090 + half pl
def TBL_PAR_ERR_VALID (pl : Plane) : Fld := ⟨rTBL_PAR_ERR pl, 31, 1⟩
def TBL_PAR_ERR_OVERFLOW (pl : Plane) : Fld := ⟨rTBL_PAR_ERR pl, 30, 1⟩
def TBL_PAR_ERR_BOTH (pl : Plane) : Fld := ⟨rTBL_PAR_ERR pl, 29, 1⟩
def TBL_PAR_ERR_REPAIRED (pl : Plane) : Fld := ⟨rTBL_PAR_ERR pl, 28, 1⟩
def TBL_PAR_ERR_TABLE (pl : Plane) : Fld := ⟨rTBL_PAR_ERR pl, 26, 2⟩
def TBL_PAR_ERR_SOURCE (pl : Plane) : Fld := ⟨rTBL_PAR_ERR pl, 25, 1⟩
def TBL_PAR_ERR_ADDR (pl : Plane) : Fld := ⟨rTBL_PAR_ERR pl, 0, 25⟩
def rTBL_EVT (pl : Plane) : Nat := 0x9000A0 + half pl
def TBL_EVT_CMD_DONE (pl : Plane) : Fld := ⟨rTBL_EVT pl, 9, 1⟩
def TBL_EVT_PAGE_ERR (pl : Plane) : Fld := ⟨rTBL_EVT pl, 8, 1⟩
def TBL_EVT_PIN_LIMIT (pl : Plane) : Fld := ⟨rTBL_EVT pl, 7, 1⟩
def TBL_EVT_LEARN_Q_FULL (pl : Plane) : Fld := ⟨rTBL_EVT pl, 6, 1⟩
def TBL_EVT_REHASH_STALL (pl : Plane) : Fld := ⟨rTBL_EVT pl, 5, 1⟩
def TBL_EVT_REHASH_DONE (pl : Plane) : Fld := ⟨rTBL_EVT pl, 4, 1⟩
def TBL_EVT_NEED_REHASH (pl : Plane) : Fld := ⟨rTBL_EVT pl, 3, 1⟩
def TBL_EVT_PAR_BOTH (pl : Plane) : Fld := ⟨rTBL_EVT pl, 2, 1⟩
def TBL_EVT_PAR_ERR (pl : Plane) : Fld := ⟨rTBL_EVT pl, 1, 1⟩
def TBL_EVT_MAC_FLAP (pl : Plane) : Fld := ⟨rTBL_EVT pl, 0, 1⟩
def rTBL_EVT_EN (pl : Plane) : Nat := 0x9000A4 + half pl
def TBL_EVT_EN_EN (pl : Plane) : Fld := ⟨rTBL_EVT_EN pl, 0, 10⟩
def rTBL_PAR_ERR_CNT (pl : Plane) : Nat := 0x900100 + half pl
def TBL_PAR_ERR_CNT_VAL (pl : Plane) : Fld := ⟨rTBL_PAR_ERR_CNT pl, 0, 32⟩
def rTBL_PAR_REPAIR_CNT (pl : Plane) : Nat := 0x900104 + half pl
def TBL_PAR_REPAIR_CNT_VAL (pl : Plane) : Fld := ⟨rTBL_PAR_REPAIR_CNT pl, 0, 32⟩
def rTBL_PAR_BOTH_CNT (pl : Plane) : Nat := 0x900108 + half pl
def TBL_PAR_BOTH_CNT_VAL (pl : Plane) : Fld := ⟨rTBL_PAR_BOTH_CNT pl, 0, 32⟩
def rTBL_LEARN_CNT (pl : Plane) : Nat := 0x90010C + half pl
def TBL_LEARN_CNT_VAL (pl : Plane) : Fld := ⟨rTBL_LEARN_CNT pl, 0, 32⟩
def rTBL_LEARN_MOVE_CNT (pl : Plane) : Nat := 0x900110 + half pl
def TBL_LEARN_MOVE_CNT_VAL (pl : Plane) : Fld := ⟨rTBL_LEARN_MOVE_CNT pl, 0, 32⟩
def rTBL_LEARN_Q_DROP_CNT (pl : Plane) : Nat := 0x900114 + half pl
def TBL_LEARN_Q_DROP_CNT_VAL (pl : Plane) : Fld := ⟨rTBL_LEARN_Q_DROP_CNT pl, 0, 32⟩
def rTBL_LEARN_STATIC_CNT (pl : Plane) : Nat := 0x900118 + half pl
def TBL_LEARN_STATIC_CNT_VAL (pl : Plane) : Fld := ⟨rTBL_LEARN_STATIC_CNT pl, 0, 32⟩
def rTBL_LEARN_LOCKED_CNT (pl : Plane) : Nat := 0x90011C + half pl
def TBL_LEARN_LOCKED_CNT_VAL (pl : Plane) : Fld := ⟨rTBL_LEARN_LOCKED_CNT pl, 0, 32⟩
def rTBL_LEARN_QUOTA_CNT (pl : Plane) : Nat := 0x900120 + half pl
def TBL_LEARN_QUOTA_CNT_VAL (pl : Plane) : Fld := ⟨rTBL_LEARN_QUOTA_CNT pl, 0, 32⟩
def rTBL_LEARN_FAIL_CNT (pl : Plane) : Nat := 0x900124 + half pl
def TBL_LEARN_FAIL_CNT_VAL (pl : Plane) : Fld := ⟨rTBL_LEARN_FAIL_CNT pl, 0, 32⟩
def rTBL_AGED_CNT (pl : Plane) : Nat := 0x900128 + half pl
def TBL_AGED_CNT_VAL (pl : Plane) : Fld := ⟨rTBL_AGED_CNT pl, 0, 32⟩
def rTBL_FLAP_LOCK_CNT (pl : Plane) : Nat := 0x90012C + half pl
def TBL_FLAP_LOCK_CNT_VAL (pl : Plane) : Fld := ⟨rTBL_FLAP_LOCK_CNT pl, 0, 32⟩
def rTBL_PARK_CNT (pl : Plane) : Nat := 0x900130 + half pl
def TBL_PARK_CNT_VAL (pl : Plane) : Fld := ⟨rTBL_PARK_CNT pl, 0, 32⟩
def rTBL_PAGE_EVICT_CNT (pl : Plane) : Nat := 0x900134 + half pl
def TBL_PAGE_EVICT_CNT_VAL (pl : Plane) : Fld := ⟨rTBL_PAGE_EVICT_CNT pl, 0, 32⟩
def rTBL_PAGE_BUSY_CNT (pl : Plane) : Nat := 0x900138 + half pl
def TBL_PAGE_BUSY_CNT_VAL (pl : Plane) : Fld := ⟨rTBL_PAGE_BUSY_CNT pl, 0, 32⟩
def rTBL_PAGE_NOFRAME_CNT (pl : Plane) : Nat := 0x90013C + half pl
def TBL_PAGE_NOFRAME_CNT_VAL (pl : Plane) : Fld := ⟨rTBL_PAGE_NOFRAME_CNT pl, 0, 32⟩
def rTBL_PAGE_ERR_CNT (pl : Plane) : Nat := 0x900140 + half pl
def TBL_PAGE_ERR_CNT_VAL (pl : Plane) : Fld := ⟨rTBL_PAGE_ERR_CNT pl, 0, 32⟩
def rTBL_PIN_DENIED_CNT (pl : Plane) : Nat := 0x900144 + half pl
def TBL_PIN_DENIED_CNT_VAL (pl : Plane) : Fld := ⟨rTBL_PIN_DENIED_CNT pl, 0, 32⟩
def rTBL_REHASH_PROBE_CNT (pl : Plane) : Nat := 0x900148 + half pl
def TBL_REHASH_PROBE_CNT_VAL (pl : Plane) : Fld := ⟨rTBL_REHASH_PROBE_CNT pl, 0, 32⟩
def rTBL_LPM_BLOOM_FP_CNT (pl : Plane) : Nat := 0x90014C + half pl
def TBL_LPM_BLOOM_FP_CNT_VAL (pl : Plane) : Fld := ⟨rTBL_LPM_BLOOM_FP_CNT pl, 0, 32⟩
def rTBL_REG_STAT (pl : Plane) (r : Nat) : Nat := 0x900200 + half pl + 0x8 * r
def TBL_REG_STAT_STATE (pl : Plane) (r : Nat) : Fld := ⟨rTBL_REG_STAT pl r, 30, 2⟩
def TBL_REG_STAT_USED (pl : Plane) (r : Nat) : Fld := ⟨rTBL_REG_STAT pl r, 0, 25⟩
def rTBL_REG_SEED (pl : Plane) (r : Nat) : Nat := 0x900204 + half pl + 0x8 * r
def TBL_REG_SEED_SEED (pl : Plane) (r : Nat) : Fld := ⟨rTBL_REG_SEED pl r, 0, 32⟩
def rMEM_STATUS : Nat := 0x1A00000
def MEM_STATUS_SIZE_GIB : Fld := ⟨rMEM_STATUS, 8, 4⟩
def MEM_STATUS_READY : Fld := ⟨rMEM_STATUS, 1, 1⟩
def MEM_STATUS_PRESENT : Fld := ⟨rMEM_STATUS, 0, 1⟩
def rMEM_ERR : Nat := 0x1A00010
def MEM_ERR_VALID : Fld := ⟨rMEM_ERR, 31, 1⟩
def MEM_ERR_OVERFLOW : Fld := ⟨rMEM_ERR, 30, 1⟩
def MEM_ERR_CAUSE : Fld := ⟨rMEM_ERR, 28, 2⟩
def MEM_ERR_ADDR : Fld := ⟨rMEM_ERR, 0, 26⟩
def rMEM_EVT : Nat := 0x1A00020
def MEM_EVT_READY_LOST : Fld := ⟨rMEM_EVT, 1, 1⟩
def MEM_EVT_ERR : Fld := ⟨rMEM_EVT, 0, 1⟩
def rMEM_EVT_EN : Nat := 0x1A00024
def MEM_EVT_EN_EN : Fld := ⟨rMEM_EVT_EN, 0, 2⟩
def rMEM_PAGE_IN_CNT : Nat := 0x1A00100
def MEM_PAGE_IN_CNT_VAL : Fld := ⟨rMEM_PAGE_IN_CNT, 0, 32⟩
def rMEM_CRC_RETRY_CNT : Nat := 0x1A00104
def MEM_CRC_RETRY_CNT_VAL : Fld := ⟨rMEM_CRC_RETRY_CNT, 0, 32⟩
def rMEM_CRC_ERR_CNT : Nat := 0x1A00108
def MEM_CRC_ERR_CNT_VAL : Fld := ⟨rMEM_CRC_ERR_CNT, 0, 32⟩
/-! Registers of 06_buffers. -/
def rBPM_POOL_CFG (pl : Plane) (p : Nat) : Nat := 0xA00000 + half pl + 0x10 * p
def BPM_POOL_CFG_SPILL (pl : Plane) (p : Nat) : Fld := ⟨rBPM_POOL_CFG pl p, 24, 1⟩
def BPM_POOL_CFG_COUNT (pl : Plane) (p : Nat) : Fld := ⟨rBPM_POOL_CFG pl p, 0, 22⟩
def rBPM_POOL_RSV (pl : Plane) (p : Nat) : Nat := 0xA00004 + half pl + 0x10 * p
def BPM_POOL_RSV_CRIT_RESERVE (pl : Plane) (p : Nat) : Fld := ⟨rBPM_POOL_RSV pl p, 0, 22⟩
def rBPM_POOL_BASE (pl : Plane) (p : Nat) : Nat := 0xA00008 + half pl + 0x10 * p
def BPM_POOL_BASE_BASE (pl : Plane) (p : Nat) : Fld := ⟨rBPM_POOL_BASE pl p, 0, 16⟩
def rBPM_POOL_FREE (pl : Plane) (p : Nat) : Nat := 0xA00100 + half pl + 0x10 * p
def BPM_POOL_FREE_ERROR (pl : Plane) (p : Nat) : Fld := ⟨rBPM_POOL_FREE pl p, 31, 1⟩
def BPM_POOL_FREE_FREE (pl : Plane) (p : Nat) : Fld := ⟨rBPM_POOL_FREE pl p, 0, 22⟩
def rBPM_POOL_MINFREE (pl : Plane) (p : Nat) : Nat := 0xA00104 + half pl + 0x10 * p
def BPM_POOL_MINFREE_MINFREE (pl : Plane) (p : Nat) : Fld := ⟨rBPM_POOL_MINFREE pl p, 0, 22⟩
def rBPM_POOL_LOWMARK (pl : Plane) (p : Nat) : Nat := 0xA00108 + half pl + 0x10 * p
def BPM_POOL_LOWMARK_LOWMARK (pl : Plane) (p : Nat) : Fld := ⟨rBPM_POOL_LOWMARK pl p, 0, 22⟩
def rBPM_POOL_HEAD (pl : Plane) (p : Nat) : Nat := 0xA0010C + half pl + 0x10 * p
def BPM_POOL_HEAD_HEAD (pl : Plane) (p : Nat) : Fld := ⟨rBPM_POOL_HEAD pl p, 0, 32⟩
def rBPM_MIN_RESET (pl : Plane) : Nat := 0xA00140 + half pl
def BPM_MIN_RESET_RESET (pl : Plane) : Fld := ⟨rBPM_MIN_RESET pl, 0, 4⟩
def rBPM_RESLIM_TC (pl : Plane) (c : Nat) : Nat := 0xA00200 + half pl + 0x4 * c
def BPM_RESLIM_TC_LIMIT_US (pl : Plane) (c : Nat) : Fld := ⟨rBPM_RESLIM_TC pl c, 0, 20⟩
def rBPM_QLIMIT_TC (pl : Plane) (c : Nat) : Nat := 0xA00220 + half pl + 0x4 * c
def BPM_QLIMIT_TC_LIMIT_KIB (pl : Plane) (c : Nat) : Fld := ⟨rBPM_QLIMIT_TC pl c, 0, 14⟩
def rBPM_LIST_ERR (pl : Plane) : Nat := 0xA00300 + half pl
def BPM_LIST_ERR_VALID (pl : Plane) : Fld := ⟨rBPM_LIST_ERR pl, 31, 1⟩
def BPM_LIST_ERR_OVERFLOW (pl : Plane) : Fld := ⟨rBPM_LIST_ERR pl, 30, 1⟩
def BPM_LIST_ERR_POOL (pl : Plane) : Fld := ⟨rBPM_LIST_ERR pl, 22, 2⟩
def BPM_LIST_ERR_INDEX (pl : Plane) : Fld := ⟨rBPM_LIST_ERR pl, 0, 22⟩
def rBPM_REPL_STAT (pl : Plane) : Nat := 0xA00310 + half pl
def BPM_REPL_STAT_PENDING (pl : Plane) : Fld := ⟨rBPM_REPL_STAT pl, 0, 10⟩
def rBPM_EVT (pl : Plane) : Nat := 0xA00400 + half pl
def BPM_EVT_MC_COPY_DROP (pl : Plane) : Fld := ⟨rBPM_EVT pl, 4, 1⟩
def BPM_EVT_REPL_FULL (pl : Plane) : Fld := ⟨rBPM_EVT pl, 3, 1⟩
def BPM_EVT_LIST_ERR (pl : Plane) : Fld := ⟨rBPM_EVT pl, 2, 1⟩
def BPM_EVT_LOW (pl : Plane) : Fld := ⟨rBPM_EVT pl, 1, 1⟩
def BPM_EVT_EMPTY (pl : Plane) : Fld := ⟨rBPM_EVT pl, 0, 1⟩
def rBPM_EVT_EN (pl : Plane) : Nat := 0xA00404 + half pl
def BPM_EVT_EN_EN (pl : Plane) : Fld := ⟨rBPM_EVT_EN pl, 0, 5⟩
def rBPM_EMPTY_CNT (pl : Plane) (p : Nat) : Nat := 0xA00500 + half pl + 0x4 * p
def BPM_EMPTY_CNT_VAL (pl : Plane) (p : Nat) : Fld := ⟨rBPM_EMPTY_CNT pl p, 0, 32⟩
def rBPM_SPILL_CNT (pl : Plane) (p : Nat) : Nat := 0xA00510 + half pl + 0x4 * p
def BPM_SPILL_CNT_VAL (pl : Plane) (p : Nat) : Fld := ⟨rBPM_SPILL_CNT pl p, 0, 32⟩
def rBPM_PROMOTE_CNT (pl : Plane) : Nat := 0xA00520 + half pl
def BPM_PROMOTE_CNT_VAL (pl : Plane) : Fld := ⟨rBPM_PROMOTE_CNT pl, 0, 32⟩
def rBPM_ADMIT_DROP_CNT (pl : Plane) : Nat := 0xA00524 + half pl
def BPM_ADMIT_DROP_CNT_VAL (pl : Plane) : Fld := ⟨rBPM_ADMIT_DROP_CNT pl, 0, 32⟩
def rBPM_QLIMIT_DROP_CNT (pl : Plane) : Nat := 0xA00528 + half pl
def BPM_QLIMIT_DROP_CNT_VAL (pl : Plane) : Fld := ⟨rBPM_QLIMIT_DROP_CNT pl, 0, 32⟩
def rBPM_REPL_FIFO_DROP_CNT (pl : Plane) : Nat := 0xA0052C + half pl
def BPM_REPL_FIFO_DROP_CNT_VAL (pl : Plane) : Fld := ⟨rBPM_REPL_FIFO_DROP_CNT pl, 0, 32⟩
def rBPM_COPIES_CNT (pl : Plane) : Nat := 0xA00530 + half pl
def BPM_COPIES_CNT_VAL (pl : Plane) : Fld := ⟨rBPM_COPIES_CNT pl, 0, 32⟩
def rBPM_RES_DISCARD_CNT (pl : Plane) (c : Nat) : Nat := 0xA00540 + half pl + 0x4 * c
def BPM_RES_DISCARD_CNT_VAL (pl : Plane) (c : Nat) : Fld := ⟨rBPM_RES_DISCARD_CNT pl c, 0, 32⟩
def rBPM_MC_COPY_DROP_CNT (pl : Plane) (p : Nat) : Nat := 0xA01000 + half pl + 0x4 * p
def BPM_MC_COPY_DROP_CNT_MC_COPY_DROP_CNT (pl : Plane) (p : Nat) : Fld := ⟨rBPM_MC_COPY_DROP_CNT pl p, 0, 32⟩
def rBPM_GROUP (pl : Plane) (g : Nat) (w : Nat) : Nat := 0xA40000 + half pl + 0x20 * g + 0x4 * w
def BPM_GROUP_PORTS (pl : Plane) (g : Nat) (w : Nat) : Fld := ⟨rBPM_GROUP pl g w, 0, 32⟩
def rBPM_FLOOD (pl : Plane) (v : Nat) : Nat := 0xA60000 + half pl + 0x4 * v
def BPM_FLOOD_GROUP (pl : Plane) (v : Nat) : Fld := ⟨rBPM_FLOOD pl v, 0, 12⟩
def rCAP_CTL : Nat := 0x1900000
def CAP_CTL_TB : Fld := ⟨rCAP_CTL, 4, 2⟩
def CAP_CTL_TARGET : Fld := ⟨rCAP_CTL, 2, 1⟩
def CAP_CTL_MODE : Fld := ⟨rCAP_CTL, 1, 1⟩
def CAP_CTL_ENABLE : Fld := ⟨rCAP_CTL, 0, 1⟩
def rCAP_HEAD : Nat := 0x1900004
def CAP_HEAD_HEAD : Fld := ⟨rCAP_HEAD, 0, 30⟩
def rCAP_TAIL : Nat := 0x1900008
def CAP_TAIL_TAIL : Fld := ⟨rCAP_TAIL, 0, 30⟩
def rCAP_WMARK : Nat := 0x190000C
def CAP_WMARK_BYTES : Fld := ⟨rCAP_WMARK, 0, 30⟩
def rCAP_AREA_BASE : Nat := 0x1900010
def CAP_AREA_BASE_BASE : Fld := ⟨rCAP_AREA_BASE, 0, 17⟩
def rCAP_AREA_SIZE : Nat := 0x1900014
def CAP_AREA_SIZE_SIZE : Fld := ⟨rCAP_AREA_SIZE, 0, 15⟩
def rCAP_RULE_CFG (r : Nat) : Nat := 0x1900100 + 0x10 * r
def CAP_RULE_CFG_EN (r : Nat) : Fld := ⟨rCAP_RULE_CFG r, 31, 1⟩
def CAP_RULE_CFG_POINT (r : Nat) : Fld := ⟨rCAP_RULE_CFG r, 29, 2⟩
def CAP_RULE_CFG_ALLPORTS (r : Nat) : Fld := ⟨rCAP_RULE_CFG r, 28, 1⟩
def CAP_RULE_CFG_PORT (r : Nat) : Fld := ⟨rCAP_RULE_CFG r, 16, 8⟩
def CAP_RULE_CFG_TC_MASK (r : Nat) : Fld := ⟨rCAP_RULE_CFG r, 8, 8⟩
def CAP_RULE_CFG_SNAP_LEN (r : Nat) : Fld := ⟨rCAP_RULE_CFG r, 0, 8⟩
def rCAP_RULE_SEL (r : Nat) : Nat := 0x1900104 + 0x10 * r
def CAP_RULE_SEL_STREAM_EN (r : Nat) : Fld := ⟨rCAP_RULE_SEL r, 31, 1⟩
def CAP_RULE_SEL_STREAM_ID (r : Nat) : Fld := ⟨rCAP_RULE_SEL r, 16, 12⟩
def CAP_RULE_SEL_SAMPLE_LOG2 (r : Nat) : Fld := ⟨rCAP_RULE_SEL r, 0, 4⟩
def rCAP_RULE_CNT (r : Nat) : Nat := 0x1900108 + 0x10 * r
def CAP_RULE_CNT_COUNT (r : Nat) : Fld := ⟨rCAP_RULE_CNT r, 0, 32⟩
def rCAP_EVT : Nat := 0x1900200
def CAP_EVT_WATERMARK : Fld := ⟨rCAP_EVT, 2, 1⟩
def CAP_EVT_WRAP : Fld := ⟨rCAP_EVT, 1, 1⟩
def CAP_EVT_FULL : Fld := ⟨rCAP_EVT, 0, 1⟩
def rCAP_EVT_EN : Nat := 0x1900204
def CAP_EVT_EN_EN : Fld := ⟨rCAP_EVT_EN, 0, 3⟩
def rCAP_RECORD_CNT : Nat := 0x1900300
def CAP_RECORD_CNT_VAL : Fld := ⟨rCAP_RECORD_CNT, 0, 32⟩
def rCAP_DROP_CNT : Nat := 0x1900304
def CAP_DROP_CNT_VAL : Fld := ⟨rCAP_DROP_CNT, 0, 32⟩
def rCAP_BUSY_CNT : Nat := 0x1900308
def CAP_BUSY_CNT_VAL : Fld := ⟨rCAP_BUSY_CNT, 0, 32⟩
def rCAP_IF2_DROP_CNT : Nat := 0x190030C
def CAP_IF2_DROP_CNT_VAL : Fld := ⟨rCAP_IF2_DROP_CNT, 0, 32⟩
/-! Registers of 07_placement. -/
def rPLC_CTL : Nat := 0xE00000
def PLC_CTL_QPL_EN : Fld := ⟨rPLC_CTL, 1, 1⟩
def PLC_CTL_BAL_EN : Fld := ⟨rPLC_CTL, 0, 1⟩
def rPLC_BAL : Nat := 0xE00004
def PLC_BAL_MAX_MOVES : Fld := ⟨rPLC_BAL, 20, 8⟩
def PLC_BAL_BAL_LO : Fld := ⟨rPLC_BAL, 10, 10⟩
def PLC_BAL_BAL_HI : Fld := ⟨rPLC_BAL, 0, 10⟩
def rPLC_MIN_LOAD : Nat := 0xE00008
def PLC_MIN_LOAD_KBYTES : Fld := ⟨rPLC_MIN_LOAD, 0, 20⟩
def rPLC_DWELL : Nat := 0xE0000C
def PLC_DWELL_DWELL_MS : Fld := ⟨rPLC_DWELL, 0, 8⟩
def rPLC_QPL_CFG : Nat := 0xE00010
def PLC_QPL_CFG_QPL_QUIET_US : Fld := ⟨rPLC_QPL_CFG, 20, 10⟩
def PLC_QPL_CFG_QPL_MIN : Fld := ⟨rPLC_QPL_CFG, 10, 10⟩
def PLC_QPL_CFG_QPL_DELTA : Fld := ⟨rPLC_QPL_CFG, 0, 10⟩
def rPLC_PAGE_CFG : Nat := 0xE00014
def PLC_PAGE_CFG_SPARE : Fld := ⟨rPLC_PAGE_CFG, 0, 8⟩
def rPLC_STATUS : Nat := 0xE00020
def PLC_STATUS_MOVING : Fld := ⟨rPLC_STATUS, 31, 1⟩
def PLC_STATUS_HEAVY : Fld := ⟨rPLC_STATUS, 30, 1⟩
def PLC_STATUS_IMBAL : Fld := ⟨rPLC_STATUS, 16, 11⟩
def PLC_STATUS_ACTIVE_CTX : Fld := ⟨rPLC_STATUS, 0, 9⟩
def rPLC_BUCKETS_A : Nat := 0xE00024
def PLC_BUCKETS_A_COUNT : Fld := ⟨rPLC_BUCKETS_A, 0, 17⟩
def rPLC_LOAD_A : Nat := 0xE00028
def PLC_LOAD_A_BYTES : Fld := ⟨rPLC_LOAD_A, 0, 32⟩
def rPLC_LOAD_B : Nat := 0xE0002C
def PLC_LOAD_B_BYTES : Fld := ⟨rPLC_LOAD_B, 0, 32⟩
def rPLC_CURSOR : Nat := 0xE00030
def PLC_CURSOR_BUCKET : Fld := ⟨rPLC_CURSOR, 0, 16⟩
def rPLC_EVT : Nat := 0xE00040
def PLC_EVT_BAL_STUCK : Fld := ⟨rPLC_EVT, 2, 1⟩
def PLC_EVT_FAILOVER_MOVE : Fld := ⟨rPLC_EVT, 1, 1⟩
def PLC_EVT_CTX_EXHAUST : Fld := ⟨rPLC_EVT, 0, 1⟩
def rPLC_EVT_EN : Nat := 0xE00044
def PLC_EVT_EN_EN : Fld := ⟨rPLC_EVT_EN, 0, 3⟩
def rPLC_MOVE_CNT : Nat := 0xE00100
def PLC_MOVE_CNT_VAL : Fld := ⟨rPLC_MOVE_CNT, 0, 32⟩
def rPLC_NO_CTX_CNT : Nat := 0xE00104
def PLC_NO_CTX_CNT_VAL : Fld := ⟨rPLC_NO_CTX_CNT, 0, 32⟩
def rPLC_FAILOVER_MOVE_CNT : Nat := 0xE00108
def PLC_FAILOVER_MOVE_CNT_VAL : Fld := ⟨rPLC_FAILOVER_MOVE_CNT, 0, 32⟩
def rPLC_QPL_MOVE_CNT : Nat := 0xE0010C
def PLC_QPL_MOVE_CNT_VAL : Fld := ⟨rPLC_QPL_MOVE_CNT, 0, 32⟩
def rPLC_QPL_CONFLICT_CNT : Nat := 0xE00110
def PLC_QPL_CONFLICT_CNT_VAL : Fld := ⟨rPLC_QPL_CONFLICT_CNT, 0, 32⟩
def rPLC_QPL_EN (w : Nat) : Nat := 0xE00200 + 0x4 * w
def PLC_QPL_EN_EN (w : Nat) : Fld := ⟨rPLC_QPL_EN w, 0, 32⟩
def rPLC_CPH_MASK_LO : Nat := 0xE00220
def PLC_CPH_MASK_LO_AE : Fld := ⟨rPLC_CPH_MASK_LO, 0, 32⟩
def rPLC_CPH_MASK_HI : Nat := 0xE00224
def PLC_CPH_MASK_HI_AE : Fld := ⟨rPLC_CPH_MASK_HI, 0, 32⟩
def rPLC_GH_MASK : Nat := 0xE00228
def PLC_GH_MASK_GH : Fld := ⟨rPLC_GH_MASK, 0, 8⟩
def rPLC_QPL_MASK_LO (h : Nat) : Nat := 0xE01000 + 0x8 * h
def PLC_QPL_MASK_LO_RINGS (h : Nat) : Fld := ⟨rPLC_QPL_MASK_LO h, 0, 32⟩
def rPLC_QPL_MASK_HI (h : Nat) : Nat := 0xE01004 + 0x8 * h
def PLC_QPL_MASK_HI_RINGS (h : Nat) : Fld := ⟨rPLC_QPL_MASK_HI h, 0, 32⟩
def rPLC_BUCKET (b : Nat) : Nat := 0xE10000 + 0x4 * b
def PLC_BUCKET_PLANE (b : Nat) : Fld := ⟨rPLC_BUCKET b, 31, 1⟩
def PLC_BUCKET_MIGRATING (b : Nat) : Fld := ⟨rPLC_BUCKET b, 30, 1⟩
def PLC_BUCKET_PIN (b : Nat) : Fld := ⟨rPLC_BUCKET b, 29, 1⟩
def PLC_BUCKET_PIN_PLANE (b : Nat) : Fld := ⟨rPLC_BUCKET b, 28, 1⟩
def PLC_BUCKET_CRIT (b : Nat) : Fld := ⟨rPLC_BUCKET b, 27, 1⟩
def PLC_BUCKET_LOAD (b : Nat) : Fld := ⟨rPLC_BUCKET b, 0, 24⟩
def rFRE_RSQ_HOLD (pl : Plane) : Nat := 0xD07000 + half pl
def FRE_RSQ_HOLD_HOLD_US (pl : Plane) : Fld := ⟨rFRE_RSQ_HOLD pl, 0, 10⟩
def rFRE_RSQ_CFG (pl : Plane) : Nat := 0xD07004 + half pl
def FRE_RSQ_CFG_MAX_HELD (pl : Plane) : Fld := ⟨rFRE_RSQ_CFG pl, 0, 13⟩
def rFRE_RSQ_STATUS (pl : Plane) : Nat := 0xD07008 + half pl
def FRE_RSQ_STATUS_HELD (pl : Plane) : Fld := ⟨rFRE_RSQ_STATUS pl, 0, 20⟩
def rFRE_RSQ_EVT (pl : Plane) : Nat := 0xD07010 + half pl
def FRE_RSQ_EVT_OVERFLOW (pl : Plane) : Fld := ⟨rFRE_RSQ_EVT pl, 1, 1⟩
def FRE_RSQ_EVT_TIMEOUT (pl : Plane) : Fld := ⟨rFRE_RSQ_EVT pl, 0, 1⟩
def rFRE_RSQ_EVT_EN (pl : Plane) : Nat := 0xD07014 + half pl
def FRE_RSQ_EVT_EN_EN (pl : Plane) : Fld := ⟨rFRE_RSQ_EVT_EN pl, 0, 2⟩
def rFRE_RSQ_TIMEOUT_CNT (pl : Plane) : Nat := 0xD07100 + half pl
def FRE_RSQ_TIMEOUT_CNT_VAL (pl : Plane) : Fld := ⟨rFRE_RSQ_TIMEOUT_CNT pl, 0, 32⟩
def rFRE_RSQ_OVF_CNT (pl : Plane) : Nat := 0xD07104 + half pl
def FRE_RSQ_OVF_CNT_VAL (pl : Plane) : Fld := ⟨rFRE_RSQ_OVF_CNT pl, 0, 32⟩
def rFRE_RSQ_ABANDON_CNT (pl : Plane) : Nat := 0xD07108 + half pl
def FRE_RSQ_ABANDON_CNT_VAL (pl : Plane) : Fld := ⟨rFRE_RSQ_ABANDON_CNT pl, 0, 32⟩
def rFRE_RSQ_HELD_CNT (pl : Plane) : Nat := 0xD0710C + half pl
def FRE_RSQ_HELD_CNT_VAL (pl : Plane) : Fld := ⟨rFRE_RSQ_HELD_CNT pl, 0, 32⟩
def rFRE_RSQ_MARKER_CNT (pl : Plane) : Nat := 0xD07110 + half pl
def FRE_RSQ_MARKER_CNT_VAL (pl : Plane) : Fld := ⟨rFRE_RSQ_MARKER_CNT pl, 0, 32⟩
def rFRE_RSQ_CTX (pl : Plane) (c : Nat) : Nat := 0xD07400 + half pl + 0x8 * c
def FRE_RSQ_CTX_VALID (pl : Plane) (c : Nat) : Fld := ⟨rFRE_RSQ_CTX pl c, 31, 1⟩
def FRE_RSQ_CTX_FROM (pl : Plane) (c : Nat) : Fld := ⟨rFRE_RSQ_CTX pl c, 30, 1⟩
def FRE_RSQ_CTX_GEN (pl : Plane) (c : Nat) : Fld := ⟨rFRE_RSQ_CTX pl c, 24, 4⟩
def FRE_RSQ_CTX_BUCKET (pl : Plane) (c : Nat) : Fld := ⟨rFRE_RSQ_CTX pl c, 0, 16⟩
def rFRE_RSQ_CTX_SEQ (pl : Plane) (c : Nat) : Nat := 0xD07404 + half pl + 0x8 * c
def FRE_RSQ_CTX_SEQ_NEXT_SEQ (pl : Plane) (c : Nat) : Fld := ⟨rFRE_RSQ_CTX_SEQ pl c, 16, 16⟩
def FRE_RSQ_CTX_SEQ_HELD (pl : Plane) (c : Nat) : Fld := ⟨rFRE_RSQ_CTX_SEQ pl c, 0, 13⟩
/-! Registers of 08_egress. -/
def rSCH_PORT_CFG (pl : Plane) (p : Nat) : Nat := 0xB01000 + half pl + 0x10 * p
def SCH_PORT_CFG_PCP_EN (pl : Plane) (p : Nat) : Fld := ⟨rSCH_PORT_CFG pl p, 16, 1⟩
def SCH_PORT_CFG_EXPRESS (pl : Plane) (p : Nat) : Fld := ⟨rSCH_PORT_CFG pl p, 8, 8⟩
def SCH_PORT_CFG_DEFAULT_TC (pl : Plane) (p : Nat) : Fld := ⟨rSCH_PORT_CFG pl p, 0, 3⟩
def rSCH_PORT_PCPMAP (pl : Plane) (p : Nat) : Nat := 0xB01004 + half pl + 0x10 * p
def SCH_PORT_PCPMAP_MAP (pl : Plane) (p : Nat) : Fld := ⟨rSCH_PORT_PCPMAP pl p, 0, 24⟩
def rSCH_PSHP_RATE (pl : Plane) (p : Nat) : Nat := 0xB01008 + half pl + 0x10 * p
def SCH_PSHP_RATE_EN (pl : Plane) (p : Nat) : Fld := ⟨rSCH_PSHP_RATE pl p, 31, 1⟩
def SCH_PSHP_RATE_RESET_FULL (pl : Plane) (p : Nat) : Fld := ⟨rSCH_PSHP_RATE pl p, 30, 1⟩
def SCH_PSHP_RATE_RATE (pl : Plane) (p : Nat) : Fld := ⟨rSCH_PSHP_RATE pl p, 0, 25⟩
def rSCH_PSHP_BURST (pl : Plane) (p : Nat) : Nat := 0xB0100C + half pl + 0x10 * p
def SCH_PSHP_BURST_BURST (pl : Plane) (p : Nat) : Fld := ⟨rSCH_PSHP_BURST pl p, 0, 24⟩
def rSCH_PSHP_LEVEL (pl : Plane) (p : Nat) : Nat := 0xB02000 + half pl + 0x4 * p
def SCH_PSHP_LEVEL_LEVEL (pl : Plane) (p : Nat) : Fld := ⟨rSCH_PSHP_LEVEL pl p, 0, 32⟩
def rSCH_GATE (pl : Plane) (p : Nat) : Nat := 0xB03000 + half pl + 0x4 * p
def SCH_GATE_LIST (pl : Plane) (p : Nat) : Fld := ⟨rSCH_GATE pl p, 9, 1⟩
def SCH_GATE_GUARD (pl : Plane) (p : Nat) : Fld := ⟨rSCH_GATE pl p, 8, 1⟩
def SCH_GATE_OPEN (pl : Plane) (p : Nat) : Fld := ⟨rSCH_GATE pl p, 0, 8⟩
def rSCH_QSHP_RATE (pl : Plane) (q : Nat) : Nat := 0xB04100 + half pl + 0x10 * q
def SCH_QSHP_RATE_EN (pl : Plane) (q : Nat) : Fld := ⟨rSCH_QSHP_RATE pl q, 31, 1⟩
def SCH_QSHP_RATE_RESET_FULL (pl : Plane) (q : Nat) : Fld := ⟨rSCH_QSHP_RATE pl q, 30, 1⟩
def SCH_QSHP_RATE_RATE (pl : Plane) (q : Nat) : Fld := ⟨rSCH_QSHP_RATE pl q, 0, 25⟩
def rSCH_QSHP_BURST (pl : Plane) (q : Nat) : Nat := 0xB04104 + half pl + 0x10 * q
def SCH_QSHP_BURST_BURST (pl : Plane) (q : Nat) : Fld := ⟨rSCH_QSHP_BURST pl q, 0, 24⟩
def rSCH_QSHP_LEVEL (pl : Plane) (q : Nat) : Nat := 0xB04108 + half pl + 0x10 * q
def SCH_QSHP_LEVEL_LEVEL (pl : Plane) (q : Nat) : Fld := ⟨rSCH_QSHP_LEVEL pl q, 0, 32⟩
def rSCH_QDEFICIT (pl : Plane) (q : Nat) : Nat := 0xB0410C + half pl + 0x10 * q
def SCH_QDEFICIT_VISITED (pl : Plane) (q : Nat) : Fld := ⟨rSCH_QDEFICIT pl q, 31, 1⟩
def SCH_QDEFICIT_DEFICIT (pl : Plane) (q : Nat) : Fld := ⟨rSCH_QDEFICIT pl q, 0, 17⟩
def rSCH_QCFG (pl : Plane) (q : Nat) : Nat := 0xB0C100 + half pl + 0x4 * q
def SCH_QCFG_MAXLEN_TC (pl : Plane) (q : Nat) : Fld := ⟨rSCH_QCFG pl q, 16, 14⟩
def SCH_QCFG_QUANTUM (pl : Plane) (q : Nat) : Fld := ⟨rSCH_QCFG pl q, 0, 16⟩
def rSCH_QDEPTH (pl : Plane) (q : Nat) : Nat := 0xB20000 + half pl + 0x4 * q
def SCH_QDEPTH_FRAMES (pl : Plane) (q : Nat) : Fld := ⟨rSCH_QDEPTH pl q, 0, 22⟩
def rSCH_SNARE_CFG (pl : Plane) (s : Nat) : Nat := 0xB10000 + half pl + 0x10 * s
def SCH_SNARE_CFG_EN (pl : Plane) (s : Nat) : Fld := ⟨rSCH_SNARE_CFG pl s, 31, 1⟩
def SCH_SNARE_CFG_RESET_FULL (pl : Plane) (s : Nat) : Fld := ⟨rSCH_SNARE_CFG pl s, 30, 1⟩
def SCH_SNARE_CFG_GATE_CHECK (pl : Plane) (s : Nat) : Fld := ⟨rSCH_SNARE_CFG pl s, 29, 1⟩
def SCH_SNARE_CFG_ACTION (pl : Plane) (s : Nat) : Fld := ⟨rSCH_SNARE_CFG pl s, 28, 1⟩
def SCH_SNARE_CFG_DEMOTE_TC (pl : Plane) (s : Nat) : Fld := ⟨rSCH_SNARE_CFG pl s, 25, 3⟩
def SCH_SNARE_CFG_RATE (pl : Plane) (s : Nat) : Fld := ⟨rSCH_SNARE_CFG pl s, 0, 25⟩
def rSCH_SNARE_BURST (pl : Plane) (s : Nat) : Nat := 0xB10004 + half pl + 0x10 * s
def SCH_SNARE_BURST_BURST (pl : Plane) (s : Nat) : Fld := ⟨rSCH_SNARE_BURST pl s, 0, 24⟩
def rSCH_SNARE_MAXSDU (pl : Plane) (s : Nat) : Nat := 0xB10008 + half pl + 0x10 * s
def SCH_SNARE_MAXSDU_MAXSDU (pl : Plane) (s : Nat) : Fld := ⟨rSCH_SNARE_MAXSDU pl s, 0, 14⟩
def rSCH_SNARE_LEVEL (pl : Plane) (s : Nat) : Nat := 0xB1000C + half pl + 0x10 * s
def SCH_SNARE_LEVEL_LEVEL (pl : Plane) (s : Nat) : Fld := ⟨rSCH_SNARE_LEVEL pl s, 0, 24⟩
def rSCH_SNARE_NC_CNT (pl : Plane) (s : Nat) : Nat := 0xB30000 + half pl + 0x4 * s
def SCH_SNARE_NC_CNT_COUNT (pl : Plane) (s : Nat) : Fld := ⟨rSCH_SNARE_NC_CNT pl s, 0, 32⟩
def rSCH_EVT (pl : Plane) : Nat := 0xB00040 + half pl
def SCH_EVT_GATE_SHORT (pl : Plane) : Fld := ⟨rSCH_EVT pl, 1, 1⟩
def SCH_EVT_SNARE_NC (pl : Plane) : Fld := ⟨rSCH_EVT pl, 0, 1⟩
def rSCH_EVT_EN (pl : Plane) : Nat := 0xB00044 + half pl
def SCH_EVT_EN_EN (pl : Plane) : Fld := ⟨rSCH_EVT_EN pl, 0, 2⟩
def rSCH_SNARE_SIZE_CNT (pl : Plane) : Nat := 0xB00100 + half pl
def SCH_SNARE_SIZE_CNT_VAL (pl : Plane) : Fld := ⟨rSCH_SNARE_SIZE_CNT pl, 0, 32⟩
def rSCH_SNARE_GATE_CNT (pl : Plane) : Nat := 0xB00104 + half pl
def SCH_SNARE_GATE_CNT_VAL (pl : Plane) : Fld := ⟨rSCH_SNARE_GATE_CNT pl, 0, 32⟩
def rSCH_SNARE_RATE_CNT (pl : Plane) : Nat := 0xB00108 + half pl
def SCH_SNARE_RATE_CNT_VAL (pl : Plane) : Fld := ⟨rSCH_SNARE_RATE_CNT pl, 0, 32⟩
def rSCH_SNARE_DROP_CNT (pl : Plane) : Nat := 0xB0010C + half pl
def SCH_SNARE_DROP_CNT_VAL (pl : Plane) : Fld := ⟨rSCH_SNARE_DROP_CNT pl, 0, 32⟩
def rSCH_SNARE_DEMOTE_CNT (pl : Plane) : Nat := 0xB00110 + half pl
def SCH_SNARE_DEMOTE_CNT_VAL (pl : Plane) : Fld := ⟨rSCH_SNARE_DEMOTE_CNT pl, 0, 32⟩
def rSCH_GATE_SHORT_CNT (pl : Plane) : Nat := 0xB00114 + half pl
def SCH_GATE_SHORT_CNT_VAL (pl : Plane) : Fld := ⟨rSCH_GATE_SHORT_CNT pl, 0, 32⟩
/-! Registers of 09_time. -/
def rTIM_TB_CTL (n : Nat) : Nat := 0x400000 + 0x40 * n
def TIM_TB_CTL_INC_ERR (n : Nat) : Fld := ⟨rTIM_TB_CTL n, 4, 1⟩
def TIM_TB_CTL_STEP_REFUSED (n : Nat) : Fld := ⟨rTIM_TB_CTL n, 3, 1⟩
def TIM_TB_CTL_STEP_USED (n : Nat) : Fld := ⟨rTIM_TB_CTL n, 2, 1⟩
def TIM_TB_CTL_STEP (n : Nat) : Fld := ⟨rTIM_TB_CTL n, 1, 1⟩
def TIM_TB_CTL_EN (n : Nat) : Fld := ⟨rTIM_TB_CTL n, 0, 1⟩
def rTIM_TB_INC_FRAC (n : Nat) : Nat := 0x400004 + 0x40 * n
def TIM_TB_INC_FRAC_FRAC (n : Nat) : Fld := ⟨rTIM_TB_INC_FRAC n, 0, 32⟩
def rTIM_TB_INC_NS (n : Nat) : Nat := 0x400008 + 0x40 * n
def TIM_TB_INC_NS_NS (n : Nat) : Fld := ⟨rTIM_TB_INC_NS n, 0, 8⟩
def rTIM_TB_STEP_SEC_LO (n : Nat) : Nat := 0x400010 + 0x40 * n
def TIM_TB_STEP_SEC_LO_SEC (n : Nat) : Fld := ⟨rTIM_TB_STEP_SEC_LO n, 0, 32⟩
def rTIM_TB_STEP_SEC_HI (n : Nat) : Nat := 0x400014 + 0x40 * n
def TIM_TB_STEP_SEC_HI_SEC (n : Nat) : Fld := ⟨rTIM_TB_STEP_SEC_HI n, 0, 16⟩
def rTIM_TB_STEP_NS (n : Nat) : Nat := 0x400018 + 0x40 * n
def TIM_TB_STEP_NS_NS (n : Nat) : Fld := ⟨rTIM_TB_STEP_NS n, 0, 30⟩
def rTIM_TB_SNAP_SEC_LO (n : Nat) : Nat := 0x400020 + 0x40 * n
def TIM_TB_SNAP_SEC_LO_SEC (n : Nat) : Fld := ⟨rTIM_TB_SNAP_SEC_LO n, 0, 32⟩
def rTIM_TB_SNAP_SEC_HI (n : Nat) : Nat := 0x400024 + 0x40 * n
def TIM_TB_SNAP_SEC_HI_SEC (n : Nat) : Fld := ⟨rTIM_TB_SNAP_SEC_HI n, 0, 16⟩
def rTIM_TB_SNAP_NS (n : Nat) : Nat := 0x400028 + 0x40 * n
def TIM_TB_SNAP_NS_NS (n : Nat) : Fld := ⟨rTIM_TB_SNAP_NS n, 0, 30⟩
def rTIM_TB_CT48_LO (n : Nat) : Nat := 0x400030 + 0x40 * n
def TIM_TB_CT48_LO_CT48 (n : Nat) : Fld := ⟨rTIM_TB_CT48_LO n, 0, 32⟩
def rTIM_TB_CT48_HI (n : Nat) : Nat := 0x400034 + 0x40 * n
def TIM_TB_CT48_HI_CT48 (n : Nat) : Fld := ⟨rTIM_TB_CT48_HI n, 0, 16⟩
def rTIM_SNAP : Nat := 0x400200
def TIM_SNAP_MASK : Fld := ⟨rTIM_SNAP, 0, 4⟩
def rTIM_TXTS_STAT : Nat := 0x400300
def TIM_TXTS_STAT_COUNT : Fld := ⟨rTIM_TXTS_STAT, 0, 7⟩
def rTIM_TXTS_INFO : Nat := 0x400304
def TIM_TXTS_INFO_VALID : Fld := ⟨rTIM_TXTS_INFO, 31, 1⟩
def TIM_TXTS_INFO_ABORTED : Fld := ⟨rTIM_TXTS_INFO, 30, 1⟩
def TIM_TXTS_INFO_FALLBACK : Fld := ⟨rTIM_TXTS_INFO, 29, 1⟩
def TIM_TXTS_INFO_NO_TS : Fld := ⟨rTIM_TXTS_INFO, 28, 1⟩
def TIM_TXTS_INFO_TB : Fld := ⟨rTIM_TXTS_INFO, 26, 2⟩
def TIM_TXTS_INFO_PORT : Fld := ⟨rTIM_TXTS_INFO, 16, 8⟩
def TIM_TXTS_INFO_TAG : Fld := ⟨rTIM_TXTS_INFO, 0, 16⟩
def rTIM_TXTS_SEC_LO : Nat := 0x400308
def TIM_TXTS_SEC_LO_SEC : Fld := ⟨rTIM_TXTS_SEC_LO, 0, 32⟩
def rTIM_TXTS_SEC_HI : Nat := 0x40030C
def TIM_TXTS_SEC_HI_SEC : Fld := ⟨rTIM_TXTS_SEC_HI, 0, 16⟩
def rTIM_TXTS_NS : Nat := 0x400310
def TIM_TXTS_NS_NS : Fld := ⟨rTIM_TXTS_NS, 0, 30⟩
def rTIM_TXTS_POP : Nat := 0x400314
def TIM_TXTS_POP_POP : Fld := ⟨rTIM_TXTS_POP, 0, 1⟩
def rTIM_PPS_CFG (n : Nat) : Nat := 0x400400 + 0x20 * n
def TIM_PPS_CFG_EN (n : Nat) : Fld := ⟨rTIM_PPS_CFG n, 31, 1⟩
def TIM_PPS_CFG_DIR (n : Nat) : Fld := ⟨rTIM_PPS_CFG n, 30, 1⟩
def TIM_PPS_CFG_POL (n : Nat) : Fld := ⟨rTIM_PPS_CFG n, 29, 1⟩
def TIM_PPS_CFG_WIDTH_US (n : Nat) : Fld := ⟨rTIM_PPS_CFG n, 0, 16⟩
def rTIM_PPS_PERIOD (n : Nat) : Nat := 0x400404 + 0x20 * n
def TIM_PPS_PERIOD_PERIOD_US (n : Nat) : Fld := ⟨rTIM_PPS_PERIOD n, 0, 20⟩
def rTIM_PPS_OFFSET (n : Nat) : Nat := 0x400408 + 0x20 * n
def TIM_PPS_OFFSET_OFFSET_NS (n : Nat) : Fld := ⟨rTIM_PPS_OFFSET n, 0, 30⟩
def rTIM_PPS_CAP_STAT (n : Nat) : Nat := 0x40040C + 0x20 * n
def TIM_PPS_CAP_STAT_POP (n : Nat) : Fld := ⟨rTIM_PPS_CAP_STAT n, 31, 1⟩
def TIM_PPS_CAP_STAT_OVF (n : Nat) : Fld := ⟨rTIM_PPS_CAP_STAT n, 8, 8⟩
def TIM_PPS_CAP_STAT_COUNT (n : Nat) : Fld := ⟨rTIM_PPS_CAP_STAT n, 0, 3⟩
def rTIM_PPS_CAP_SEC_LO (n : Nat) : Nat := 0x400410 + 0x20 * n
def TIM_PPS_CAP_SEC_LO_SEC (n : Nat) : Fld := ⟨rTIM_PPS_CAP_SEC_LO n, 0, 32⟩
def rTIM_PPS_CAP_SEC_HI (n : Nat) : Nat := 0x400414 + 0x20 * n
def TIM_PPS_CAP_SEC_HI_SEC (n : Nat) : Fld := ⟨rTIM_PPS_CAP_SEC_HI n, 0, 16⟩
def rTIM_PPS_CAP_NS (n : Nat) : Nat := 0x400418 + 0x20 * n
def TIM_PPS_CAP_NS_NS (n : Nat) : Fld := ⟨rTIM_PPS_CAP_NS n, 0, 30⟩
def rTIM_PORT_CFG (p : Nat) : Nat := 0x400800 + 0x10 * p
def TIM_PORT_CFG_RX_TB (p : Nat) : Fld := ⟨rTIM_PORT_CFG p, 0, 2⟩
def rTIM_PORT_RXDLY (p : Nat) : Nat := 0x400804 + 0x10 * p
def TIM_PORT_RXDLY_DELAY_PS (p : Nat) : Fld := ⟨rTIM_PORT_RXDLY p, 0, 20⟩
def rTIM_PORT_TXDLY (p : Nat) : Nat := 0x400808 + 0x10 * p
def TIM_PORT_TXDLY_DELAY_PS (p : Nat) : Fld := ⟨rTIM_PORT_TXDLY p, 0, 20⟩
def rTIM_EVT : Nat := 0x400A00
def TIM_EVT_PPS_OVF : Fld := ⟨rTIM_EVT, 8, 4⟩
def TIM_EVT_PPS_IN : Fld := ⟨rTIM_EVT, 4, 4⟩
def TIM_EVT_INC_ERR : Fld := ⟨rTIM_EVT, 3, 1⟩
def TIM_EVT_ONESTEP_ERR : Fld := ⟨rTIM_EVT, 2, 1⟩
def TIM_EVT_TXTS_OVF : Fld := ⟨rTIM_EVT, 1, 1⟩
def TIM_EVT_TXTS_AVAIL : Fld := ⟨rTIM_EVT, 0, 1⟩
def rTIM_EVT_EN : Nat := 0x400A04
def TIM_EVT_EN_EN : Fld := ⟨rTIM_EVT_EN, 0, 12⟩
def rTIM_ONESTEP_CNT : Nat := 0x400B00
def TIM_ONESTEP_CNT_VAL : Fld := ⟨rTIM_ONESTEP_CNT, 0, 32⟩
def rTIM_ONESTEP_ERR_CNT : Nat := 0x400B04
def TIM_ONESTEP_ERR_CNT_VAL : Fld := ⟨rTIM_ONESTEP_ERR_CNT, 0, 32⟩
def rTIM_ONESTEP_SKIP_CNT : Nat := 0x400B08
def TIM_ONESTEP_SKIP_CNT_VAL : Fld := ⟨rTIM_ONESTEP_SKIP_CNT, 0, 32⟩
def rTIM_TXTS_OVF_CNT : Nat := 0x400B0C
def TIM_TXTS_OVF_CNT_VAL : Fld := ⟨rTIM_TXTS_OVF_CNT, 0, 32⟩
/-! Registers of 10_carillon. -/
def rCAR_CTL : Nat := 0xC00000
def CAR_CTL_ARG : Fld := ⟨rCAR_CTL, 16, 12⟩
def CAR_CTL_RESULT : Fld := ⟨rCAR_CTL, 8, 4⟩
def CAR_CTL_REPACK : Fld := ⟨rCAR_CTL, 4, 1⟩
def CAR_CTL_CMD : Fld := ⟨rCAR_CTL, 0, 4⟩
def rCAR_STATUS : Nat := 0xC00004
def CAR_STATUS_BATCH : Fld := ⟨rCAR_STATUS, 16, 10⟩
def CAR_STATUS_QUEUED : Fld := ⟨rCAR_STATUS, 8, 5⟩
def CAR_STATUS_HELD : Fld := ⟨rCAR_STATUS, 5, 1⟩
def CAR_STATUS_LATE : Fld := ⟨rCAR_STATUS, 4, 1⟩
def CAR_STATUS_JOB : Fld := ⟨rCAR_STATUS, 0, 3⟩
def rCAR_JOB_ERR : Nat := 0xC00008
def CAR_JOB_ERR_VALID : Fld := ⟨rCAR_JOB_ERR, 31, 1⟩
def CAR_JOB_ERR_STREAM : Fld := ⟨rCAR_JOB_ERR, 16, 12⟩
def CAR_JOB_ERR_CODE : Fld := ⟨rCAR_JOB_ERR, 0, 8⟩
def rCAR_DECL (n : Nat) : Nat := 0xC00010 + 0x4 * n
def CAR_DECL_BYTES (n : Nat) : Fld := ⟨rCAR_DECL n, 0, 32⟩
def rCAR_ARM_TIME_LO : Nat := 0xC00040
def CAR_ARM_TIME_LO_TIME : Fld := ⟨rCAR_ARM_TIME_LO, 0, 32⟩
def rCAR_ARM_TIME_HI : Nat := 0xC00044
def CAR_ARM_TIME_HI_TIME : Fld := ⟨rCAR_ARM_TIME_HI, 0, 16⟩
def rCAR_DOWNBEAT_LO : Nat := 0xC00048
def CAR_DOWNBEAT_LO_TIME : Fld := ⟨rCAR_DOWNBEAT_LO, 0, 32⟩
def rCAR_DOWNBEAT_HI : Nat := 0xC0004C
def CAR_DOWNBEAT_HI_TIME : Fld := ⟨rCAR_DOWNBEAT_HI, 0, 16⟩
def rCAR_RES_SEL : Nat := 0xC00060
def CAR_RES_SEL_EGRESS : Fld := ⟨rCAR_RES_SEL, 16, 3⟩
def CAR_RES_SEL_STREAM : Fld := ⟨rCAR_RES_SEL, 0, 12⟩
def rCAR_RES_STATUS : Nat := 0xC00064
def CAR_RES_STATUS_VALID : Fld := ⟨rCAR_RES_STATUS, 31, 1⟩
def CAR_RES_STATUS_ADMITTED : Fld := ⟨rCAR_RES_STATUS, 30, 1⟩
def CAR_RES_STATUS_PENDING : Fld := ⟨rCAR_RES_STATUS, 29, 1⟩
def CAR_RES_STATUS_CRITICAL : Fld := ⟨rCAR_RES_STATUS, 28, 1⟩
def CAR_RES_STATUS_OWNER : Fld := ⟨rCAR_RES_STATUS, 16, 8⟩
def CAR_RES_STATUS_FAIL_EGRESS : Fld := ⟨rCAR_RES_STATUS, 8, 3⟩
def CAR_RES_STATUS_REASON : Fld := ⟨rCAR_RES_STATUS, 0, 8⟩
def rCAR_PORT_STAT (p : Nat) : Nat := 0xC00100 + 0x4 * p
def CAR_PORT_STAT_MISMATCH (p : Nat) : Fld := ⟨rCAR_PORT_STAT p, 31, 1⟩
def CAR_PORT_STAT_LIST (p : Nat) : Fld := ⟨rCAR_PORT_STAT p, 30, 1⟩
def CAR_PORT_STAT_LOAD (p : Nat) : Fld := ⟨rCAR_PORT_STAT p, 16, 10⟩
def CAR_PORT_STAT_RATE (p : Nat) : Fld := ⟨rCAR_PORT_STAT p, 12, 3⟩
def CAR_PORT_STAT_CHANGES (p : Nat) : Fld := ⟨rCAR_PORT_STAT p, 0, 11⟩
def rCAR_EVT : Nat := 0xC00200
def CAR_EVT_REJECT : Fld := ⟨rCAR_EVT, 4, 1⟩
def CAR_EVT_JOB_LATE : Fld := ⟨rCAR_EVT, 3, 1⟩
def CAR_EVT_RATE_MISMATCH : Fld := ⟨rCAR_EVT, 2, 1⟩
def CAR_EVT_DOWNBEAT : Fld := ⟨rCAR_EVT, 1, 1⟩
def CAR_EVT_JOB_DONE : Fld := ⟨rCAR_EVT, 0, 1⟩
def rCAR_EVT_EN : Nat := 0xC00204
def CAR_EVT_EN_EN : Fld := ⟨rCAR_EVT_EN, 0, 5⟩
def rCAR_JOB_CNT : Nat := 0xC00300
def CAR_JOB_CNT_VAL : Fld := ⟨rCAR_JOB_CNT, 0, 32⟩
def rCAR_ADMIT_CNT : Nat := 0xC00304
def CAR_ADMIT_CNT_VAL : Fld := ⟨rCAR_ADMIT_CNT, 0, 32⟩
def rCAR_REJECT_CNT : Nat := 0xC00308
def CAR_REJECT_CNT_VAL : Fld := ⟨rCAR_REJECT_CNT, 0, 32⟩
def rCAR_WD_IGNORED_CNT : Nat := 0xC0030C
def CAR_WD_IGNORED_CNT_VAL : Fld := ⟨rCAR_WD_IGNORED_CNT, 0, 32⟩
def rCAR_RESTART_CNT : Nat := 0xC00310
def CAR_RESTART_CNT_VAL : Fld := ⟨rCAR_RESTART_CNT, 0, 32⟩
/-! Registers of 11_redundancy. -/
def rRED_CTL : Nat := 0x700000
def RED_CTL_RESULT : Fld := ⟨rRED_CTL, 12, 4⟩
def RED_CTL_PLANE : Fld := ⟨rRED_CTL, 8, 1⟩
def RED_CTL_CMD : Fld := ⟨rRED_CTL, 0, 4⟩
def rRED_STATUS : Nat := 0x700004
def RED_STATUS_PREF_LEAD : Fld := ⟨rRED_STATUS, 9, 2⟩
def RED_STATUS_TAKEBACK_RUN : Fld := ⟨rRED_STATUS, 8, 1⟩
def RED_STATUS_SIDE_DEG : Fld := ⟨rRED_STATUS, 1, 1⟩
def RED_STATUS_FABRIC_DEG : Fld := ⟨rRED_STATUS, 0, 1⟩
def rRED_TAKEBACK : Nat := 0x700008
def RED_TAKEBACK_MS : Fld := ⟨rRED_TAKEBACK, 0, 14⟩
def rRED_LAST_FAIL : Nat := 0x700010
def RED_LAST_FAIL_VALID : Fld := ⟨rRED_LAST_FAIL, 31, 1⟩
def RED_LAST_FAIL_CAUSE : Fld := ⟨rRED_LAST_FAIL, 8, 2⟩
def RED_LAST_FAIL_PLANE : Fld := ⟨rRED_LAST_FAIL, 0, 1⟩
def rRED_LAST_FAIL_TIME_LO : Nat := 0x700014
def RED_LAST_FAIL_TIME_LO_TIME : Fld := ⟨rRED_LAST_FAIL_TIME_LO, 0, 32⟩
def rRED_LAST_FAIL_TIME_HI : Nat := 0x700018
def RED_LAST_FAIL_TIME_HI_TIME : Fld := ⟨rRED_LAST_FAIL_TIME_HI, 0, 16⟩
def rRED_TEST : Nat := 0x700020
def RED_TEST_DONE : Fld := ⟨rRED_TEST, 31, 1⟩
def RED_TEST_PASS : Fld := ⟨rRED_TEST, 30, 1⟩
def RED_TEST_PLANE : Fld := ⟨rRED_TEST, 29, 1⟩
def RED_TEST_FAULTS : Fld := ⟨rRED_TEST, 0, 16⟩
def rRED_EVT : Nat := 0x700040
def RED_EVT_PATH_OK : Fld := ⟨rRED_EVT, 4, 1⟩
def RED_EVT_CMD_DONE : Fld := ⟨rRED_EVT, 3, 1⟩
def RED_EVT_TAKEBACK : Fld := ⟨rRED_EVT, 2, 1⟩
def RED_EVT_PATH_DEG : Fld := ⟨rRED_EVT, 1, 1⟩
def RED_EVT_PLANE_FAIL : Fld := ⟨rRED_EVT, 0, 1⟩
def rRED_EVT_EN : Nat := 0x700044
def RED_EVT_EN_EN : Fld := ⟨rRED_EVT_EN, 0, 5⟩
def rRED_FAILOVER_CNT : Nat := 0x700100
def RED_FAILOVER_CNT_VAL : Fld := ⟨rRED_FAILOVER_CNT, 0, 32⟩
def rRED_FAILOVER_LOST_CNT : Nat := 0x700104
def RED_FAILOVER_LOST_CNT_VAL : Fld := ⟨rRED_FAILOVER_LOST_CNT, 0, 32⟩
def rRED_BEAT_MISS_FAB_CNT : Nat := 0x700108
def RED_BEAT_MISS_FAB_CNT_VAL : Fld := ⟨rRED_BEAT_MISS_FAB_CNT, 0, 32⟩
def rRED_BEAT_MISS_SIDE_CNT : Nat := 0x70010C
def RED_BEAT_MISS_SIDE_CNT_VAL : Fld := ⟨rRED_BEAT_MISS_SIDE_CNT, 0, 32⟩
def rRED_TAKEBACK_CNT : Nat := 0x700110
def RED_TAKEBACK_CNT_VAL : Fld := ⟨rRED_TAKEBACK_CNT, 0, 32⟩
def rFRE_EVT (pl : Plane) : Nat := 0xD00040 + half pl
def FRE_EVT_RESET (pl : Plane) : Fld := ⟨rFRE_EVT pl, 1, 1⟩
def FRE_EVT_ROGUE (pl : Plane) : Fld := ⟨rFRE_EVT pl, 0, 1⟩
def rFRE_EVT_EN (pl : Plane) : Nat := 0xD00044 + half pl
def FRE_EVT_EN_EN (pl : Plane) : Fld := ⟨rFRE_EVT_EN pl, 0, 2⟩
def rFRE_TWIN_ELIM_CNT (pl : Plane) : Nat := 0xD00100 + half pl
def FRE_TWIN_ELIM_CNT_VAL (pl : Plane) : Fld := ⟨rFRE_TWIN_ELIM_CNT pl, 0, 32⟩
def rFRE_GEN_CNT (pl : Plane) : Nat := 0xD00104 + half pl
def FRE_GEN_CNT_VAL (pl : Plane) : Fld := ⟨rFRE_GEN_CNT pl, 0, 32⟩
def rFRE_RTAG_INSERT_CNT (pl : Plane) : Nat := 0xD00108 + half pl
def FRE_RTAG_INSERT_CNT_VAL (pl : Plane) : Fld := ⟨rFRE_RTAG_INSERT_CNT pl, 0, 32⟩
def rFRE_GEN (pl : Plane) (g : Nat) : Nat := 0xD08000 + half pl + 0x4 * g
def FRE_GEN_NEXT_SEQ (pl : Plane) (g : Nat) : Fld := ⟨rFRE_GEN pl g, 0, 16⟩
def rFRE_MAP (pl : Plane) (s : Nat) : Nat := 0xD10000 + half pl + 0x4 * s
def FRE_MAP_GEN_VALID (pl : Plane) (s : Nat) : Fld := ⟨rFRE_MAP pl s, 31, 1⟩
def FRE_MAP_GEN (pl : Plane) (s : Nat) : Fld := ⟨rFRE_MAP pl s, 16, 11⟩
def FRE_MAP_CS_VALID (pl : Plane) (s : Nat) : Fld := ⟨rFRE_MAP pl s, 15, 1⟩
def FRE_MAP_CS (pl : Plane) (s : Nat) : Fld := ⟨rFRE_MAP pl s, 0, 11⟩
def rFRE_REC_CFG (pl : Plane) (r : Nat) : Nat := 0xD20000 + half pl + 0x20 * r
def FRE_REC_CFG_VALID (pl : Plane) (r : Nat) : Fld := ⟨rFRE_REC_CFG pl r, 31, 1⟩
def FRE_REC_CFG_ALG (pl : Plane) (r : Nat) : Fld := ⟨rFRE_REC_CFG pl r, 30, 1⟩
def FRE_REC_CFG_KEEP_TAG (pl : Plane) (r : Nat) : Fld := ⟨rFRE_REC_CFG pl r, 29, 1⟩
def FRE_REC_CFG_CS (pl : Plane) (r : Nat) : Fld := ⟨rFRE_REC_CFG pl r, 16, 11⟩
def FRE_REC_CFG_PORT (pl : Plane) (r : Nat) : Fld := ⟨rFRE_REC_CFG pl r, 8, 8⟩
def FRE_REC_CFG_HIST_LEN (pl : Plane) (r : Nat) : Fld := ⟨rFRE_REC_CFG pl r, 0, 8⟩
def rFRE_REC_STATE (pl : Plane) (r : Nat) : Nat := 0xD20004 + half pl + 0x20 * r
def FRE_REC_STATE_TAKE_ANY (pl : Plane) (r : Nat) : Fld := ⟨rFRE_REC_STATE pl r, 31, 1⟩
def FRE_REC_STATE_RECOV_SEQ (pl : Plane) (r : Nat) : Fld := ⟨rFRE_REC_STATE pl r, 0, 16⟩
def rFRE_REC_TMR (pl : Plane) (r : Nat) : Nat := 0xD20008 + half pl + 0x20 * r
def FRE_REC_TMR_RESET_MS (pl : Plane) (r : Nat) : Fld := ⟨rFRE_REC_TMR pl r, 0, 16⟩
def rFRE_REC_PASSED (pl : Plane) (r : Nat) : Nat := 0xD30000 + half pl + 0x20 * r
def FRE_REC_PASSED_VAL (pl : Plane) (r : Nat) : Fld := ⟨rFRE_REC_PASSED pl r, 0, 32⟩
def rFRE_REC_DISCARDED (pl : Plane) (r : Nat) : Nat := 0xD30004 + half pl + 0x20 * r
def FRE_REC_DISCARDED_VAL (pl : Plane) (r : Nat) : Fld := ⟨rFRE_REC_DISCARDED pl r, 0, 32⟩
def rFRE_REC_ROGUE (pl : Plane) (r : Nat) : Nat := 0xD30008 + half pl + 0x20 * r
def FRE_REC_ROGUE_VAL (pl : Plane) (r : Nat) : Fld := ⟨rFRE_REC_ROGUE pl r, 0, 32⟩
def rFRE_REC_OUT_OF_ORDER (pl : Plane) (r : Nat) : Nat := 0xD3000C + half pl + 0x20 * r
def FRE_REC_OUT_OF_ORDER_VAL (pl : Plane) (r : Nat) : Fld := ⟨rFRE_REC_OUT_OF_ORDER pl r, 0, 32⟩
def rFRE_REC_TAGLESS (pl : Plane) (r : Nat) : Nat := 0xD30010 + half pl + 0x20 * r
def FRE_REC_TAGLESS_VAL (pl : Plane) (r : Nat) : Fld := ⟨rFRE_REC_TAGLESS pl r, 0, 32⟩
def rFRE_REC_RESETS (pl : Plane) (r : Nat) : Nat := 0xD30014 + half pl + 0x20 * r
def FRE_REC_RESETS_VAL (pl : Plane) (r : Nat) : Fld := ⟨rFRE_REC_RESETS pl r, 0, 32⟩
/-! Registers of 12_legacy_buses. -/
def rCAN_CFG (n : Nat) : Nat := 0x1500000 + 0x8000 * n
def CAN_CFG_ACF_HDR (n : Nat) : Fld := ⟨rCAN_CFG n, 24, 3⟩
def CAN_CFG_ACF_BUS_ID (n : Nat) : Fld := ⟨rCAN_CFG n, 16, 5⟩
def CAN_CFG_FLAGS (n : Nat) : Fld := ⟨rCAN_CFG n, 8, 8⟩
def CAN_CFG_MODE (n : Nat) : Fld := ⟨rCAN_CFG n, 0, 2⟩
def rCAN_ACF (n : Nat) : Nat := 0x1500004 + 0x8000 * n
def CAN_ACF_MAXMSG (n : Nat) : Fld := ⟨rCAN_ACF n, 16, 5⟩
def CAN_ACF_WIN_US (n : Nat) : Fld := ⟨rCAN_ACF n, 0, 10⟩
def rCAN_TUN (n : Nat) : Nat := 0x1500008 + 0x8000 * n
def CAN_TUN_VCID (n : Nat) : Fld := ⟨rCAN_TUN n, 24, 8⟩
def CAN_TUN_PRIO (n : Nat) : Fld := ⟨rCAN_TUN n, 0, 11⟩
def rCAN_TUN_AF (n : Nat) : Nat := 0x150000C + 0x8000 * n
def CAN_TUN_AF_AF (n : Nat) : Fld := ⟨rCAN_TUN_AF n, 0, 32⟩
def rCAN_TDC (n : Nat) : Nat := 0x150001C + 0x8000 * n
def CAN_TDC_TDC_EN (n : Nat) : Fld := ⟨rCAN_TDC n, 7, 1⟩
def CAN_TDC_TDC_OFFSET (n : Nat) : Fld := ⟨rCAN_TDC n, 0, 7⟩
def rCAN_CTL (n : Nat) : Nat := 0x1500020 + 0x8000 * n
def CAN_CTL_FLUSH_TXBUF (n : Nat) : Fld := ⟨rCAN_CTL n, 2, 1⟩
def CAN_CTL_RECOVER (n : Nat) : Fld := ⟨rCAN_CTL n, 1, 1⟩
def CAN_CTL_ADMIN_DOWN (n : Nat) : Fld := ⟨rCAN_CTL n, 0, 1⟩
def rCAN_STATUS (n : Nat) : Nat := 0x1500024 + 0x8000 * n
def CAN_STATUS_LINK (n : Nat) : Fld := ⟨rCAN_STATUS n, 31, 1⟩
def CAN_STATUS_STATE (n : Nat) : Fld := ⟨rCAN_STATUS n, 29, 2⟩
def CAN_STATUS_LEC (n : Nat) : Fld := ⟨rCAN_STATUS n, 26, 3⟩
def CAN_STATUS_FROZEN (n : Nat) : Fld := ⟨rCAN_STATUS n, 25, 1⟩
def CAN_STATUS_REC (n : Nat) : Fld := ⟨rCAN_STATUS n, 16, 8⟩
def CAN_STATUS_TEC (n : Nat) : Fld := ⟨rCAN_STATUS n, 8, 8⟩
def CAN_STATUS_TXBUF (n : Nat) : Fld := ⟨rCAN_STATUS n, 0, 6⟩
def rCAN_EVT (n : Nat) : Nat := 0x1500028 + 0x8000 * n
def CAN_EVT_UNPACK_BAD (n : Nat) : Fld := ⟨rCAN_EVT n, 7, 1⟩
def CAN_EVT_RX_ERR (n : Nat) : Fld := ⟨rCAN_EVT n, 6, 1⟩
def CAN_EVT_BUS_OFF (n : Nat) : Fld := ⟨rCAN_EVT n, 5, 1⟩
def CAN_EVT_ERR_PASSIVE (n : Nat) : Fld := ⟨rCAN_EVT n, 4, 1⟩
def CAN_EVT_ACF_DROP (n : Nat) : Fld := ⟨rCAN_EVT n, 3, 1⟩
def CAN_EVT_TX_EXPIRED (n : Nat) : Fld := ⟨rCAN_EVT n, 2, 1⟩
def CAN_EVT_LINK_DOWN (n : Nat) : Fld := ⟨rCAN_EVT n, 1, 1⟩
def CAN_EVT_LINK_UP (n : Nat) : Fld := ⟨rCAN_EVT n, 0, 1⟩
def rCAN_EVT_EN (n : Nat) : Nat := 0x150002C + 0x8000 * n
def CAN_EVT_EN_EN (n : Nat) : Fld := ⟨rCAN_EVT_EN n, 0, 8⟩
def rCAN_RX_MSG_CNT (n : Nat) : Nat := 0x1500100 + 0x8000 * n
def CAN_RX_MSG_CNT_VAL (n : Nat) : Fld := ⟨rCAN_RX_MSG_CNT n, 0, 32⟩
def rCAN_TX_MSG_CNT (n : Nat) : Nat := 0x1500104 + 0x8000 * n
def CAN_TX_MSG_CNT_VAL (n : Nat) : Fld := ⟨rCAN_TX_MSG_CNT n, 0, 32⟩
def rCAN_RX_ERR_CNT (n : Nat) : Nat := 0x1500108 + 0x8000 * n
def CAN_RX_ERR_CNT_VAL (n : Nat) : Fld := ⟨rCAN_RX_ERR_CNT n, 0, 32⟩
def rCAN_BUS_OFF_CNT (n : Nat) : Nat := 0x150010C + 0x8000 * n
def CAN_BUS_OFF_CNT_VAL (n : Nat) : Fld := ⟨rCAN_BUS_OFF_CNT n, 0, 32⟩
def rCAN_TX_EXPIRED_CNT (n : Nat) : Nat := 0x1500110 + 0x8000 * n
def CAN_TX_EXPIRED_CNT_VAL (n : Nat) : Fld := ⟨rCAN_TX_EXPIRED_CNT n, 0, 32⟩
def rCAN_TX_ABORT_CNT (n : Nat) : Nat := 0x1500114 + 0x8000 * n
def CAN_TX_ABORT_CNT_VAL (n : Nat) : Fld := ⟨rCAN_TX_ABORT_CNT n, 0, 32⟩
def rCAN_FORMAT_DROP_CNT (n : Nat) : Nat := 0x1500118 + 0x8000 * n
def CAN_FORMAT_DROP_CNT_VAL (n : Nat) : Fld := ⟨rCAN_FORMAT_DROP_CNT n, 0, 32⟩
def rCAN_XLATE_DROP_CNT (n : Nat) : Nat := 0x150011C + 0x8000 * n
def CAN_XLATE_DROP_CNT_VAL (n : Nat) : Fld := ⟨rCAN_XLATE_DROP_CNT n, 0, 32⟩
def rCAN_ACF_SENT_CNT (n : Nat) : Nat := 0x1500120 + 0x8000 * n
def CAN_ACF_SENT_CNT_VAL (n : Nat) : Fld := ⟨rCAN_ACF_SENT_CNT n, 0, 32⟩
def rCAN_ACF_SKIP_CNT (n : Nat) : Nat := 0x1500124 + 0x8000 * n
def CAN_ACF_SKIP_CNT_VAL (n : Nat) : Fld := ⟨rCAN_ACF_SKIP_CNT n, 0, 32⟩
def rCAN_ACF_DROP_CNT (n : Nat) : Nat := 0x1500128 + 0x8000 * n
def CAN_ACF_DROP_CNT_VAL (n : Nat) : Fld := ⟨rCAN_ACF_DROP_CNT n, 0, 32⟩
def rCAN_UNPACK_CNT (n : Nat) : Nat := 0x150012C + 0x8000 * n
def CAN_UNPACK_CNT_VAL (n : Nat) : Fld := ⟨rCAN_UNPACK_CNT n, 0, 32⟩
def rCAN_UNPACK_SKIP_CNT (n : Nat) : Nat := 0x1500130 + 0x8000 * n
def CAN_UNPACK_SKIP_CNT_VAL (n : Nat) : Fld := ⟨rCAN_UNPACK_SKIP_CNT n, 0, 32⟩
def rCAN_UNPACK_BAD_CNT (n : Nat) : Nat := 0x1500134 + 0x8000 * n
def CAN_UNPACK_BAD_CNT_VAL (n : Nat) : Fld := ⟨rCAN_UNPACK_BAD_CNT n, 0, 32⟩
def rCAN_TUNNEL_TX_CNT (n : Nat) : Nat := 0x1500138 + 0x8000 * n
def CAN_TUNNEL_TX_CNT_VAL (n : Nat) : Fld := ⟨rCAN_TUNNEL_TX_CNT n, 0, 32⟩
def rCAN_TUNNEL_RX_CNT (n : Nat) : Nat := 0x150013C + 0x8000 * n
def CAN_TUNNEL_RX_CNT_VAL (n : Nat) : Fld := ⟨rCAN_TUNNEL_RX_CNT n, 0, 32⟩
def rCAN_TUNNEL_DROP_CNT (n : Nat) : Nat := 0x1500140 + 0x8000 * n
def CAN_TUNNEL_DROP_CNT_VAL (n : Nat) : Fld := ⟨rCAN_TUNNEL_DROP_CNT n, 0, 32⟩
def rCAN_TUNNEL_BAD_CNT (n : Nat) : Nat := 0x1500144 + 0x8000 * n
def CAN_TUNNEL_BAD_CNT_VAL (n : Nat) : Fld := ⟨rCAN_TUNNEL_BAD_CNT n, 0, 32⟩
def rLIN_CFG (n : Nat) : Nat := 0x1600000 + 0x10000 * n
def LIN_CFG_BAUD (n : Nat) : Fld := ⟨rLIN_CFG n, 16, 16⟩
def LIN_CFG_ACF_BUS_ID (n : Nat) : Fld := ⟨rLIN_CFG n, 8, 5⟩
def LIN_CFG_ACF_HDR (n : Nat) : Fld := ⟨rLIN_CFG n, 5, 3⟩
def LIN_CFG_FLAGS (n : Nat) : Fld := ⟨rLIN_CFG n, 2, 3⟩
def LIN_CFG_ROLE (n : Nat) : Fld := ⟨rLIN_CFG n, 0, 1⟩
def rLIN_ACF (n : Nat) : Nat := 0x1600004 + 0x10000 * n
def LIN_ACF_MAXMSG (n : Nat) : Fld := ⟨rLIN_ACF n, 16, 5⟩
def LIN_ACF_WIN_US (n : Nat) : Fld := ⟨rLIN_ACF n, 0, 10⟩
def rLIN_CTL (n : Nat) : Nat := 0x1600008 + 0x10000 * n
def LIN_CTL_SCHED_SEL (n : Nat) : Fld := ⟨rLIN_CTL n, 4, 2⟩
def LIN_CTL_SCHED_RUN (n : Nat) : Fld := ⟨rLIN_CTL n, 3, 1⟩
def LIN_CTL_ADMIN_DOWN (n : Nat) : Fld := ⟨rLIN_CTL n, 0, 1⟩
def rLIN_STATUS (n : Nat) : Nat := 0x160000C + 0x10000 * n
def LIN_STATUS_LINK (n : Nat) : Fld := ⟨rLIN_STATUS n, 31, 1⟩
def LIN_STATUS_DOMINANT (n : Nat) : Fld := ⟨rLIN_STATUS n, 30, 1⟩
def LIN_STATUS_TABLE (n : Nat) : Fld := ⟨rLIN_STATUS n, 28, 2⟩
def LIN_STATUS_RUNNING (n : Nat) : Fld := ⟨rLIN_STATUS n, 27, 1⟩
def LIN_STATUS_ENTRY (n : Nat) : Fld := ⟨rLIN_STATUS n, 16, 6⟩
def rLIN_EVT (n : Nat) : Nat := 0x1600010 + 0x10000 * n
def LIN_EVT_UNPACK_BAD (n : Nat) : Fld := ⟨rLIN_EVT n, 5, 1⟩
def LIN_EVT_NO_DATA (n : Nat) : Fld := ⟨rLIN_EVT n, 4, 1⟩
def LIN_EVT_RX_ERR (n : Nat) : Fld := ⟨rLIN_EVT n, 3, 1⟩
def LIN_EVT_SCHED_SWITCH (n : Nat) : Fld := ⟨rLIN_EVT n, 2, 1⟩
def LIN_EVT_LINK_DOWN (n : Nat) : Fld := ⟨rLIN_EVT n, 1, 1⟩
def LIN_EVT_LINK_UP (n : Nat) : Fld := ⟨rLIN_EVT n, 0, 1⟩
def rLIN_EVT_EN (n : Nat) : Nat := 0x1600014 + 0x10000 * n
def LIN_EVT_EN_EN (n : Nat) : Fld := ⟨rLIN_EVT_EN n, 0, 6⟩
def rLIN_RX_FRAME_CNT (n : Nat) : Nat := 0x1600100 + 0x10000 * n
def LIN_RX_FRAME_CNT_VAL (n : Nat) : Fld := ⟨rLIN_RX_FRAME_CNT n, 0, 32⟩
def rLIN_HDR_CNT (n : Nat) : Nat := 0x1600104 + 0x10000 * n
def LIN_HDR_CNT_VAL (n : Nat) : Fld := ⟨rLIN_HDR_CNT n, 0, 32⟩
def rLIN_CKSUM_ERR_CNT (n : Nat) : Nat := 0x1600108 + 0x10000 * n
def LIN_CKSUM_ERR_CNT_VAL (n : Nat) : Fld := ⟨rLIN_CKSUM_ERR_CNT n, 0, 32⟩
def rLIN_NO_RESP_CNT (n : Nat) : Nat := 0x160010C + 0x10000 * n
def LIN_NO_RESP_CNT_VAL (n : Nat) : Fld := ⟨rLIN_NO_RESP_CNT n, 0, 32⟩
def rLIN_FRAMING_ERR_CNT (n : Nat) : Nat := 0x1600110 + 0x10000 * n
def LIN_FRAMING_ERR_CNT_VAL (n : Nat) : Fld := ⟨rLIN_FRAMING_ERR_CNT n, 0, 32⟩
def rLIN_BIT_ERR_CNT (n : Nat) : Nat := 0x1600114 + 0x10000 * n
def LIN_BIT_ERR_CNT_VAL (n : Nat) : Fld := ⟨rLIN_BIT_ERR_CNT n, 0, 32⟩
def rLIN_NO_DATA_CNT (n : Nat) : Nat := 0x1600118 + 0x10000 * n
def LIN_NO_DATA_CNT_VAL (n : Nat) : Fld := ⟨rLIN_NO_DATA_CNT n, 0, 32⟩
def rLIN_RESP_REJECT_CNT (n : Nat) : Nat := 0x160011C + 0x10000 * n
def LIN_RESP_REJECT_CNT_VAL (n : Nat) : Fld := ⟨rLIN_RESP_REJECT_CNT n, 0, 32⟩
def rLIN_ACF_SENT_CNT (n : Nat) : Nat := 0x1600120 + 0x10000 * n
def LIN_ACF_SENT_CNT_VAL (n : Nat) : Fld := ⟨rLIN_ACF_SENT_CNT n, 0, 32⟩
def rLIN_ACF_DROP_CNT (n : Nat) : Nat := 0x1600124 + 0x10000 * n
def LIN_ACF_DROP_CNT_VAL (n : Nat) : Fld := ⟨rLIN_ACF_DROP_CNT n, 0, 32⟩
def rLIN_UNPACK_CNT (n : Nat) : Nat := 0x1600128 + 0x10000 * n
def LIN_UNPACK_CNT_VAL (n : Nat) : Fld := ⟨rLIN_UNPACK_CNT n, 0, 32⟩
def rLIN_UNPACK_SKIP_CNT (n : Nat) : Nat := 0x160012C + 0x10000 * n
def LIN_UNPACK_SKIP_CNT_VAL (n : Nat) : Fld := ⟨rLIN_UNPACK_SKIP_CNT n, 0, 32⟩
def rLIN_UNPACK_BAD_CNT (n : Nat) : Nat := 0x1600130 + 0x10000 * n
def LIN_UNPACK_BAD_CNT_VAL (n : Nat) : Fld := ⟨rLIN_UNPACK_BAD_CNT n, 0, 32⟩
def rLIN_RESP_UPDATE_CNT (n : Nat) : Nat := 0x1600134 + 0x10000 * n
def LIN_RESP_UPDATE_CNT_VAL (n : Nat) : Fld := ⟨rLIN_RESP_UPDATE_CNT n, 0, 32⟩
/-! Registers of 13_sleep_wake. -/
def rNMW_NC_STATE (c : Nat) : Nat := 0x1700000 + 0x100 * c
def NMW_NC_STATE_NM_TIMER_MS (c : Nat) : Fld := ⟨rNMW_NC_STATE c, 16, 16⟩
def NMW_NC_STATE_WAKE_LATCHED (c : Nat) : Fld := ⟨rNMW_NC_STATE c, 5, 1⟩
def NMW_NC_STATE_REQ (c : Nat) : Fld := ⟨rNMW_NC_STATE c, 4, 1⟩
def NMW_NC_STATE_STATE (c : Nat) : Fld := ⟨rNMW_NC_STATE c, 0, 3⟩
def rNMW_NC_REQ (c : Nat) : Nat := 0x1700004 + 0x100 * c
def NMW_NC_REQ_LEDGER (c : Nat) : Fld := ⟨rNMW_NC_REQ c, 1, 1⟩
def NMW_NC_REQ_FW (c : Nat) : Fld := ⟨rNMW_NC_REQ c, 0, 1⟩
def rNMW_NC_LAST (c : Nat) : Nat := 0x1700010 + 0x100 * c
def NMW_NC_LAST_VALID (c : Nat) : Fld := ⟨rNMW_NC_LAST c, 31, 1⟩
def NMW_NC_LAST_CHANNEL (c : Nat) : Fld := ⟨rNMW_NC_LAST c, 8, 5⟩
def NMW_NC_LAST_NODE (c : Nat) : Fld := ⟨rNMW_NC_LAST c, 0, 8⟩
def rNMW_NC_CHIME_TX_CNT (c : Nat) : Nat := 0x1700040 + 0x100 * c
def NMW_NC_CHIME_TX_CNT_VAL (c : Nat) : Fld := ⟨rNMW_NC_CHIME_TX_CNT c, 0, 32⟩
def rNMW_NC_CHIME_RX_CNT (c : Nat) : Nat := 0x1700044 + 0x100 * c
def NMW_NC_CHIME_RX_CNT_VAL (c : Nat) : Fld := ⟨rNMW_NC_CHIME_RX_CNT c, 0, 32⟩
def rNMW_NC_KNELL_CNT (c : Nat) : Nat := 0x1700048 + 0x100 * c
def NMW_NC_KNELL_CNT_VAL (c : Nat) : Fld := ⟨rNMW_NC_KNELL_CNT c, 0, 32⟩
def rNMW_NC_CANCEL_CNT (c : Nat) : Nat := 0x170004C + 0x100 * c
def NMW_NC_CANCEL_CNT_VAL (c : Nat) : Fld := ⟨rNMW_NC_CANCEL_CNT c, 0, 32⟩
def rNMW_NC_FORCED_KNELL_CNT (c : Nat) : Nat := 0x1700050 + 0x100 * c
def NMW_NC_FORCED_KNELL_CNT_VAL (c : Nat) : Fld := ⟨rNMW_NC_FORCED_KNELL_CNT c, 0, 32⟩
def rNMW_WREC_STAT : Nat := 0x1710000
def NMW_WREC_STAT_OVF : Fld := ⟨rNMW_WREC_STAT, 8, 8⟩
def NMW_WREC_STAT_COUNT : Fld := ⟨rNMW_WREC_STAT, 0, 6⟩
def rNMW_WREC_POP : Nat := 0x1710014
def NMW_WREC_POP_POP : Fld := ⟨rNMW_WREC_POP, 0, 1⟩
def rNMW_INH : Nat := 0x1710040
def NMW_INH_FORCE : Fld := ⟨rNMW_INH, 8, 4⟩
def NMW_INH_LEVEL : Fld := ⟨rNMW_INH, 0, 4⟩
def rNMW_WAKEPIN (k : Nat) : Nat := 0x1710050 + 0x4 * k
def NMW_WAKEPIN_LEVEL (k : Nat) : Fld := ⟨rNMW_WAKEPIN k, 31, 1⟩
def NMW_WAKEPIN_CLUSTER (k : Nat) : Fld := ⟨rNMW_WAKEPIN k, 10, 4⟩
def NMW_WAKEPIN_NONE (k : Nat) : Fld := ⟨rNMW_WAKEPIN k, 8, 1⟩
def NMW_WAKEPIN_FILTER (k : Nat) : Fld := ⟨rNMW_WAKEPIN k, 2, 6⟩
def NMW_WAKEPIN_EDGE (k : Nat) : Fld := ⟨rNMW_WAKEPIN k, 0, 2⟩
def rNMW_CAN_TRX (n : Nat) : Nat := 0x1720000 + 0x40 * n
def NMW_CAN_TRX_FORERUNNER (n : Nat) : Fld := ⟨rNMW_CAN_TRX n, 18, 1⟩
def NMW_CAN_TRX_PATTERN_WAKE (n : Nat) : Fld := ⟨rNMW_CAN_TRX n, 17, 1⟩
def NMW_CAN_TRX_SW_EN (n : Nat) : Fld := ⟨rNMW_CAN_TRX n, 16, 1⟩
def NMW_CAN_TRX_TRX_MODE (n : Nat) : Fld := ⟨rNMW_CAN_TRX n, 0, 2⟩
def rNMW_CAN_LISTEN (n : Nat) : Nat := 0x1720004 + 0x40 * n
def NMW_CAN_LISTEN_LISTEN (n : Nat) : Fld := ⟨rNMW_CAN_LISTEN n, 0, 1⟩
def rNMW_CAN_SW (n : Nat) : Nat := 0x1720008 + 0x40 * n
def NMW_CAN_SW_DECODING (n : Nat) : Fld := ⟨rNMW_CAN_SW n, 17, 1⟩
def NMW_CAN_SW_OSC_ON (n : Nat) : Fld := ⟨rNMW_CAN_SW n, 16, 1⟩
def NMW_CAN_SW_FEC_MAX (n : Nat) : Fld := ⟨rNMW_CAN_SW n, 8, 8⟩
def NMW_CAN_SW_FEC (n : Nat) : Fld := ⟨rNMW_CAN_SW n, 0, 8⟩
def rNMW_CAN_SW_MATCH_CNT (n : Nat) : Nat := 0x1720010 + 0x40 * n
def NMW_CAN_SW_MATCH_CNT_VAL (n : Nat) : Fld := ⟨rNMW_CAN_SW_MATCH_CNT n, 0, 32⟩
def rNMW_CAN_SW_IGNORE_CNT (n : Nat) : Nat := 0x1720014 + 0x40 * n
def NMW_CAN_SW_IGNORE_CNT_VAL (n : Nat) : Fld := ⟨rNMW_CAN_SW_IGNORE_CNT n, 0, 32⟩
def rNMW_CAN_SW_ERR_CNT (n : Nat) : Nat := 0x1720018 + 0x40 * n
def NMW_CAN_SW_ERR_CNT_VAL (n : Nat) : Fld := ⟨rNMW_CAN_SW_ERR_CNT n, 0, 32⟩
/-! Registers of 14_firewall. -/
def rFWL_CFG : Nat := 0xF00000
def FWL_CFG_FLOW_TAG : Fld := ⟨rFWL_CFG, 24, 8⟩
def FWL_CFG_FRAG_OUTER_DENY : Fld := ⟨rFWL_CFG, 9, 1⟩
def FWL_CFG_FLOWS_EN : Fld := ⟨rFWL_CFG, 8, 1⟩
def FWL_CFG_ZONE_COUNT : Fld := ⟨rFWL_CFG, 0, 6⟩
def rFWL_CTL : Nat := 0xF00004
def FWL_CTL_FLUSH_FLOWS : Fld := ⟨rFWL_CTL, 0, 1⟩
def rFWL_TPROF (p : Nat) : Nat := 0xF00010 + 0x4 * p
def FWL_TPROF_TIMEOUT_S (p : Nat) : Fld := ⟨rFWL_TPROF p, 0, 16⟩
def rFWL_EXC_RATE : Nat := 0xF00020
def FWL_EXC_RATE_RATE : Fld := ⟨rFWL_EXC_RATE, 0, 17⟩
def rFWL_EXC_BURST : Nat := 0xF00024
def FWL_EXC_BURST_BURST : Fld := ⟨rFWL_EXC_BURST, 0, 11⟩
def rFWL_FLOW_STAT : Nat := 0xF00030
def FWL_FLOW_STAT_USED : Fld := ⟨rFWL_FLOW_STAT, 0, 25⟩
def rFWL_EVT : Nat := 0xF00040
def FWL_EVT_CAN_DENY : Fld := ⟨rFWL_EVT, 2, 1⟩
def FWL_EVT_EXC_DROP : Fld := ⟨rFWL_EVT, 1, 1⟩
def FWL_EVT_FLOW_FAIL : Fld := ⟨rFWL_EVT, 0, 1⟩
def rFWL_EVT_EN : Nat := 0xF00044
def FWL_EVT_EN_EN : Fld := ⟨rFWL_EVT_EN, 0, 3⟩
def rFWL_ZONEMAP (w : Nat) : Nat := 0xF00100 + 0x4 * w
def FWL_ZONEMAP_ZONES (w : Nat) : Fld := ⟨rFWL_ZONEMAP w, 0, 32⟩
def rFWL_DENY_CNT : Nat := 0xF00600
def FWL_DENY_CNT_VAL : Fld := ⟨rFWL_DENY_CNT, 0, 32⟩
def rFWL_FRAG_DENY_CNT : Nat := 0xF00604
def FWL_FRAG_DENY_CNT_VAL : Fld := ⟨rFWL_FRAG_DENY_CNT, 0, 32⟩
def rFWL_FLOW_Q_DROP_CNT : Nat := 0xF00608
def FWL_FLOW_Q_DROP_CNT_VAL : Fld := ⟨rFWL_FLOW_Q_DROP_CNT, 0, 32⟩
def rFWL_FLOW_FAIL_CNT : Nat := 0xF0060C
def FWL_FLOW_FAIL_CNT_VAL : Fld := ⟨rFWL_FLOW_FAIL_CNT, 0, 32⟩
def rFWL_FLOW_AGED_CNT : Nat := 0xF00610
def FWL_FLOW_AGED_CNT_VAL : Fld := ⟨rFWL_FLOW_AGED_CNT, 0, 32⟩
def rFWL_EXC_DROP_CNT : Nat := 0xF00614
def FWL_EXC_DROP_CNT_VAL : Fld := ⟨rFWL_EXC_DROP_CNT, 0, 32⟩
def rFWL_PAIR_DENY_CNT (z : Nat) : Nat := 0xF10000 + 0x4 * z
def FWL_PAIR_DENY_CNT_COUNT (z : Nat) : Fld := ⟨rFWL_PAIR_DENY_CNT z, 0, 32⟩
def rFWL_CAN_IN_DENY (n : Nat) : Nat := 0xF20000 + 0x10 * n
def FWL_CAN_IN_DENY_VAL (n : Nat) : Fld := ⟨rFWL_CAN_IN_DENY n, 0, 32⟩
def rFWL_CAN_OUT_DENY (n : Nat) : Nat := 0xF20004 + 0x10 * n
def FWL_CAN_OUT_DENY_VAL (n : Nat) : Fld := ⟨rFWL_CAN_OUT_DENY n, 0, 32⟩
def rFWL_CAN_RATE_DROP (n : Nat) : Nat := 0xF20008 + 0x10 * n
def FWL_CAN_RATE_DROP_VAL (n : Nat) : Fld := ⟨rFWL_CAN_RATE_DROP n, 0, 32⟩
/-! Registers of 15_belfry. -/
def rBLF_CMD : Nat := 0x1000000
def BLF_CMD_BUSY : Fld := ⟨rBLF_CMD, 31, 1⟩
def BLF_CMD_STATUS : Fld := ⟨rBLF_CMD, 26, 5⟩
def BLF_CMD_PENDING : Fld := ⟨rBLF_CMD, 25, 1⟩
def BLF_CMD_EXPORT : Fld := ⟨rBLF_CMD, 24, 1⟩
def BLF_CMD_SLOT : Fld := ⟨rBLF_CMD, 10, 10⟩
def BLF_CMD_OP : Fld := ⟨rBLF_CMD, 0, 4⟩
def rBLF_CMD_ARG : Nat := 0x1000004
def BLF_CMD_ARG_ALG : Fld := ⟨rBLF_CMD_ARG, 24, 8⟩
def BLF_CMD_ARG_USAGE : Fld := ⟨rBLF_CMD_ARG, 16, 8⟩
def BLF_CMD_ARG_ARG : Fld := ⟨rBLF_CMD_ARG, 0, 10⟩
def rBLF_STATUS : Nat := 0x1000008
def BLF_STATUS_STAGED : Fld := ⟨rBLF_STATUS, 31, 1⟩
def BLF_STATUS_RECLAIMING : Fld := ⟨rBLF_STATUS, 30, 1⟩
def BLF_STATUS_ORPHANS : Fld := ⟨rBLF_STATUS, 16, 11⟩
def BLF_STATUS_USED : Fld := ⟨rBLF_STATUS, 0, 11⟩
def rBLF_EPOCH : Nat := 0x100000C
def BLF_EPOCH_EPOCH : Fld := ⟨rBLF_EPOCH, 0, 8⟩
def rBLF_EVT : Nat := 0x1000040
def BLF_EVT_EPOCH : Fld := ⟨rBLF_EVT, 2, 1⟩
def BLF_EVT_ORPHAN : Fld := ⟨rBLF_EVT, 1, 1⟩
def BLF_EVT_CMD_DONE : Fld := ⟨rBLF_EVT, 0, 1⟩
def rBLF_EVT_EN : Nat := 0x1000044
def BLF_EVT_EN_EN : Fld := ⟨rBLF_EVT_EN, 0, 3⟩
def rBLF_RECLAIM_CNT : Nat := 0x1000100
def BLF_RECLAIM_CNT_VAL : Fld := ⟨rBLF_RECLAIM_CNT, 0, 32⟩
def rBLF_ORPHAN_USE_CNT : Nat := 0x1000104
def BLF_ORPHAN_USE_CNT_VAL : Fld := ⟨rBLF_ORPHAN_USE_CNT, 0, 32⟩
def rLDG_CTL : Nat := 0x1200000
def LDG_CTL_RESULT : Fld := ⟨rLDG_CTL, 8, 4⟩
def LDG_CTL_CMD : Fld := ⟨rLDG_CTL, 0, 3⟩
def rLDG_STATUS : Nat := 0x1200004
def LDG_STATUS_QUEUED : Fld := ⟨rLDG_STATUS, 0, 9⟩
def rLDG_FLAGS : Nat := 0x1200008
def LDG_FLAGS_AO_VALID : Fld := ⟨rLDG_FLAGS, 3, 1⟩
def LDG_FLAGS_FRESH_START : Fld := ⟨rLDG_FLAGS, 2, 1⟩
def LDG_FLAGS_AFTER_POR : Fld := ⟨rLDG_FLAGS, 1, 1⟩
def LDG_FLAGS_READY : Fld := ⟨rLDG_FLAGS, 0, 1⟩
def rLDG_CKPT_CTR : Nat := 0x120000C
def LDG_CKPT_CTR_COUNT : Fld := ⟨rLDG_CKPT_CTR, 0, 32⟩
def rLDG_EVT : Nat := 0x1200040
def LDG_EVT_CMD_DONE : Fld := ⟨rLDG_EVT, 3, 1⟩
def LDG_EVT_SEALED : Fld := ⟨rLDG_EVT, 2, 1⟩
def LDG_EVT_GAP : Fld := ⟨rLDG_EVT, 1, 1⟩
def LDG_EVT_AUTH_FAIL : Fld := ⟨rLDG_EVT, 0, 1⟩
def rLDG_EVT_EN : Nat := 0x1200044
def LDG_EVT_EN_EN : Fld := ⟨rLDG_EVT_EN, 0, 4⟩
def rLDG_NOT_READY_CNT : Nat := 0x1200100
def LDG_NOT_READY_CNT_VAL : Fld := ⟨rLDG_NOT_READY_CNT, 0, 32⟩
def rLDG_UNKNOWN_CNT : Nat := 0x1200104
def LDG_UNKNOWN_CNT_VAL : Fld := ⟨rLDG_UNKNOWN_CNT, 0, 32⟩
def rLDG_NO_KEY_CNT : Nat := 0x1200108
def LDG_NO_KEY_CNT_VAL : Fld := ⟨rLDG_NO_KEY_CNT, 0, 32⟩
def rLDG_QUEUE_DROP_CNT : Nat := 0x120010C
def LDG_QUEUE_DROP_CNT_VAL : Fld := ⟨rLDG_QUEUE_DROP_CNT, 0, 32⟩
def rLDG_MALFORMED_CNT : Nat := 0x1200110
def LDG_MALFORMED_CNT_VAL : Fld := ⟨rLDG_MALFORMED_CNT, 0, 32⟩
/-! Registers of 16_cipher. -/
def rCPH_CTL : Nat := 0x1100000
def CPH_CTL_ALARM_CLR : Fld := ⟨rCPH_CTL, 0, 1⟩
def rCPH_ALARM : Nat := 0x1100004
def CPH_ALARM_REFUSING : Fld := ⟨rCPH_ALARM, 31, 1⟩
def CPH_ALARM_CAUSE : Fld := ⟨rCPH_ALARM, 0, 4⟩
def rCPH_OP (n : Nat) : Nat := 0x1100010 + 0x4 * n
def CPH_OP_BYTES (n : Nat) : Fld := ⟨rCPH_OP n, 0, 32⟩
def rCPH_CMD : Nat := 0x1100030
def CPH_CMD_RESULT : Fld := ⟨rCPH_CMD, 24, 8⟩
def CPH_CMD_OP_ID : Fld := ⟨rCPH_CMD, 0, 16⟩
def rCPH_ABORT : Nat := 0x1100034
def CPH_ABORT_RESULT : Fld := ⟨rCPH_ABORT, 24, 8⟩
def CPH_ABORT_OP_ID : Fld := ⟨rCPH_ABORT, 0, 16⟩
def rCPH_CPL : Nat := 0x1100040
def CPH_CPL_VALID : Fld := ⟨rCPH_CPL, 31, 1⟩
def CPH_CPL_STATUS : Fld := ⟨rCPH_CPL, 24, 5⟩
def CPH_CPL_OP_ID : Fld := ⟨rCPH_CPL, 0, 16⟩
def rCPH_CPL_POP : Nat := 0x1100044
def CPH_CPL_POP_POP : Fld := ⟨rCPH_CPL_POP, 0, 1⟩
def rCPH_STATUS : Nat := 0x1100048
def CPH_STATUS_RUNNING : Fld := ⟨rCPH_STATUS, 16, 7⟩
def CPH_STATUS_HELD : Fld := ⟨rCPH_STATUS, 0, 9⟩
def rCPH_EVT : Nat := 0x1100050
def CPH_EVT_PN_EXHAUST : Fld := ⟨rCPH_EVT, 5, 1⟩
def CPH_EVT_PN_WARN : Fld := ⟨rCPH_EVT, 4, 1⟩
def CPH_EVT_ALARM : Fld := ⟨rCPH_EVT, 3, 1⟩
def CPH_EVT_CPL_OVF : Fld := ⟨rCPH_EVT, 2, 1⟩
def CPH_EVT_ERROR : Fld := ⟨rCPH_EVT, 1, 1⟩
def CPH_EVT_CPL : Fld := ⟨rCPH_EVT, 0, 1⟩
def rCPH_EVT_EN : Nat := 0x1100054
def CPH_EVT_EN_EN : Fld := ⟨rCPH_EVT_EN, 0, 6⟩
/-! Registers of 17_triangle. -/
def rTRI_STATUS : Nat := 0x600000
def TRI_STATUS_VOTER_SUSPECT : Fld := ⟨rTRI_STATUS, 17, 1⟩
def TRI_STATUS_DEBUGGED : Fld := ⟨rTRI_STATUS, 16, 1⟩
def TRI_STATUS_TESTING : Fld := ⟨rTRI_STATUS, 12, 3⟩
def TRI_STATUS_FENCED : Fld := ⟨rTRI_STATUS, 8, 3⟩
def TRI_STATUS_MODE : Fld := ⟨rTRI_STATUS, 0, 3⟩
def rTRI_LAST_MM : Nat := 0x600004
def TRI_LAST_MM_VALID : Fld := ⟨rTRI_LAST_MM, 31, 1⟩
def TRI_LAST_MM_KIND : Fld := ⟨rTRI_LAST_MM, 12, 1⟩
def TRI_LAST_MM_CORES : Fld := ⟨rTRI_LAST_MM, 8, 3⟩
def TRI_LAST_MM_CLASS : Fld := ⟨rTRI_LAST_MM, 0, 4⟩
def rTRI_LAST_MM_TIME_LO : Nat := 0x600008
def TRI_LAST_MM_TIME_LO_AO : Fld := ⟨rTRI_LAST_MM_TIME_LO, 0, 32⟩
def rTRI_LAST_MM_TIME_HI : Nat := 0x60000C
def TRI_LAST_MM_TIME_HI_AO : Fld := ⟨rTRI_LAST_MM_TIME_HI, 0, 16⟩
def rTRI_HISTORY : Nat := 0x600010
def TRI_HISTORY_SD_RECENT : Fld := ⟨rTRI_HISTORY, 4, 3⟩
def TRI_HISTORY_UNATTR : Fld := ⟨rTRI_HISTORY, 0, 2⟩
def rTRI_AP_CTL : Nat := 0x600020
def TRI_AP_CTL_RUN : Fld := ⟨rTRI_AP_CTL, 0, 4⟩
def rTRI_AP_VEC (n : Nat) : Nat := 0x600030 + 0x4 * n
def TRI_AP_VEC_VEC (n : Nat) : Fld := ⟨rTRI_AP_VEC n, 2, 30⟩
def rTRI_EVT : Nat := 0x600040
def TRI_EVT_VOTER_SUSPECT : Fld := ⟨rTRI_EVT, 3, 1⟩
def TRI_EVT_MODE_CHG : Fld := ⟨rTRI_EVT, 2, 1⟩
def TRI_EVT_TEST_DONE : Fld := ⟨rTRI_EVT, 1, 1⟩
def TRI_EVT_MISMATCH : Fld := ⟨rTRI_EVT, 0, 1⟩
def rTRI_EVT_EN : Nat := 0x600044
def TRI_EVT_EN_EN : Fld := ⟨rTRI_EVT_EN, 0, 4⟩
def rTRI_STATE_DIV_CNT : Nat := 0x600100
def TRI_STATE_DIV_CNT_VAL : Fld := ⟨rTRI_STATE_DIV_CNT, 0, 32⟩
def rTRI_CORE_FAULT_CNT : Nat := 0x600104
def TRI_CORE_FAULT_CNT_VAL : Fld := ⟨rTRI_CORE_FAULT_CNT, 0, 32⟩
def rTRI_INPUT_SKEW_CNT : Nat := 0x600108
def TRI_INPUT_SKEW_CNT_VAL : Fld := ⟨rTRI_INPUT_SKEW_CNT, 0, 32⟩
def rTRI_UNATTRIBUTED_CNT : Nat := 0x60010C
def TRI_UNATTRIBUTED_CNT_VAL : Fld := ⟨rTRI_UNATTRIBUTED_CNT, 0, 32⟩
def rTRI_RESYNC_CNT : Nat := 0x600110
def TRI_RESYNC_CNT_VAL : Fld := ⟨rTRI_RESYNC_CNT, 0, 32⟩
def rTRI_DEBUG_ACT_CNT : Nat := 0x600114
def TRI_DEBUG_ACT_CNT_VAL : Fld := ⟨rTRI_DEBUG_ACT_CNT, 0, 32⟩
def rDBG_STATUS : Nat := 0x1C00000
def DBG_STATUS_AUTH : Fld := ⟨rDBG_STATUS, 31, 1⟩
def DBG_STATUS_HALTED : Fld := ⟨rDBG_STATUS, 30, 1⟩
def DBG_STATUS_OVERFLOW : Fld := ⟨rDBG_STATUS, 29, 1⟩
def DBG_STATUS_REPLAY_USED : Fld := ⟨rDBG_STATUS, 0, 9⟩
def rDBG_AUTH : Nat := 0x1C00004
def DBG_AUTH_RESULT : Fld := ⟨rDBG_AUTH, 8, 2⟩
def DBG_AUTH_GO : Fld := ⟨rDBG_AUTH, 0, 1⟩
def rDBG_NONCE (n : Nat) : Nat := 0x1C00010 + 0x4 * n
def DBG_NONCE_NONCE (n : Nat) : Fld := ⟨rDBG_NONCE n, 0, 32⟩
def rDBG_SIG (n : Nat) : Nat := 0x1C00100 + 0x4 * n
def DBG_SIG_SIG (n : Nat) : Fld := ⟨rDBG_SIG n, 0, 32⟩
/-! Registers of 18_clapper. -/
def rCLP_CTL : Nat := 0x500000
def CLP_CTL_HOLD : Fld := ⟨rCLP_CTL, 0, 1⟩
def rCLP_STATUS : Nat := 0x500004
def CLP_STATUS_DELIVERED : Fld := ⟨rCLP_STATUS, 16, 10⟩
def CLP_STATUS_PENDING : Fld := ⟨rCLP_STATUS, 0, 10⟩
def rCLP_REROUTE_CNT : Nat := 0x500100
def CLP_REROUTE_CNT_VAL : Fld := ⟨rCLP_REROUTE_CNT, 0, 32⟩
def rCLP_WAKE_CNT : Nat := 0x500104
def CLP_WAKE_CNT_VAL : Fld := ⟨rCLP_WAKE_CNT, 0, 32⟩
def rCLP_CPL_ERR_CNT : Nat := 0x500108
def CLP_CPL_ERR_CNT_VAL : Fld := ⟨rCLP_CPL_ERR_CNT, 0, 32⟩
def rCLP_PEND (w : Nat) : Nat := 0x500200 + 0x4 * w
def CLP_PEND_PEND (w : Nat) : Fld := ⟨rCLP_PEND w, 0, 32⟩
def rCLP_SRC_CFG (s : Nat) : Nat := 0x501000 + 0x4 * s
def CLP_SRC_CFG_EN (s : Nat) : Fld := ⟨rCLP_SRC_CFG s, 31, 1⟩
def CLP_SRC_CFG_TRIG (s : Nat) : Fld := ⟨rCLP_SRC_CFG s, 30, 1⟩
def CLP_SRC_CFG_WAKE_EN (s : Nat) : Fld := ⟨rCLP_SRC_CFG s, 29, 1⟩
def CLP_SRC_CFG_AGAIN (s : Nat) : Fld := ⟨rCLP_SRC_CFG s, 28, 1⟩
def CLP_SRC_CFG_WAKE_TGT (s : Nat) : Fld := ⟨rCLP_SRC_CFG s, 24, 3⟩
def CLP_SRC_CFG_STATE (s : Nat) : Fld := ⟨rCLP_SRC_CFG s, 20, 2⟩
def CLP_SRC_CFG_PRIO (s : Nat) : Fld := ⟨rCLP_SRC_CFG s, 16, 4⟩
def CLP_SRC_CFG_DLV_TGT (s : Nat) : Fld := ⟨rCLP_SRC_CFG s, 8, 3⟩
def CLP_SRC_CFG_TGT_MASK (s : Nat) : Fld := ⟨rCLP_SRC_CFG s, 0, 7⟩
def rCLP_TGT_CFG (t : Nat) : Nat := 0x510000 + 0x100 * t
def CLP_TGT_CFG_BYPASS_PRIO (t : Nat) : Fld := ⟨rCLP_TGT_CFG t, 28, 4⟩
def CLP_TGT_CFG_MOD_BATCH (t : Nat) : Fld := ⟨rCLP_TGT_CFG t, 16, 6⟩
def CLP_TGT_CFG_MOD_INT_US (t : Nat) : Fld := ⟨rCLP_TGT_CFG t, 6, 10⟩
def CLP_TGT_CFG_THRESHOLD (t : Nat) : Fld := ⟨rCLP_TGT_CFG t, 0, 4⟩
def rCLP_TGT_STAT (t : Nat) : Nat := 0x510004 + 0x100 * t
def CLP_TGT_STAT_PRESENT (t : Nat) : Fld := ⟨rCLP_TGT_STAT t, 31, 1⟩
def CLP_TGT_STAT_POWERED (t : Nat) : Fld := ⟨rCLP_TGT_STAT t, 30, 1⟩
def CLP_TGT_STAT_WFI (t : Nat) : Fld := ⟨rCLP_TGT_STAT t, 29, 1⟩
def CLP_TGT_STAT_OPEN (t : Nat) : Fld := ⟨rCLP_TGT_STAT t, 28, 1⟩
def CLP_TGT_STAT_RUNPRIO (t : Nat) : Fld := ⟨rCLP_TGT_STAT t, 16, 4⟩
def CLP_TGT_STAT_DELIVERED (t : Nat) : Fld := ⟨rCLP_TGT_STAT t, 0, 10⟩
def rCLP_TGT_CPL (t : Nat) : Nat := 0x510008 + 0x100 * t
def CLP_TGT_CPL_SOURCE (t : Nat) : Fld := ⟨rCLP_TGT_CPL t, 0, 9⟩
def rCLP_TGT_DLV (t : Nat) (w : Nat) : Nat := 0x510040 + 0x100 * t + 0x4 * w
def CLP_TGT_DLV_DLV (t : Nat) (w : Nat) : Fld := ⟨rCLP_TGT_DLV t w, 0, 32⟩
/-! Registers of 19_tenants. -/
def rHST_CTL : Nat := 0x1800000
def HST_CTL_RESULT : Fld := ⟨rHST_CTL, 24, 4⟩
def HST_CTL_SEL : Fld := ⟨rHST_CTL, 16, 6⟩
def HST_CTL_TENANT : Fld := ⟨rHST_CTL, 8, 6⟩
def HST_CTL_RECLAIM : Fld := ⟨rHST_CTL, 0, 1⟩
def rHST_POOL : Nat := 0x1800004
def HST_POOL_CAP_FREE : Fld := ⟨rHST_POOL, 24, 4⟩
def HST_POOL_RP_FREE : Fld := ⟨rHST_POOL, 0, 11⟩
def rHST_TN_STATE (n : Nat) : Nat := 0x1800100 + 0x4 * n
def HST_TN_STATE_CAUSE (n : Nat) : Fld := ⟨rHST_TN_STATE n, 8, 4⟩
def HST_TN_STATE_WOC (n : Nat) : Fld := ⟨rHST_TN_STATE n, 3, 1⟩
def HST_TN_STATE_STATE (n : Nat) : Fld := ⟨rHST_TN_STATE n, 0, 3⟩
def rHST_EVT : Nat := 0x1800040
def HST_EVT_IF4_RX : Fld := ⟨rHST_EVT, 6, 1⟩
def HST_EVT_IF0_RX : Fld := ⟨rHST_EVT, 5, 1⟩
def HST_EVT_IF0_TX : Fld := ⟨rHST_EVT, 4, 1⟩
def HST_EVT_RECLAIM : Fld := ⟨rHST_EVT, 3, 1⟩
def HST_EVT_DETACHED : Fld := ⟨rHST_EVT, 2, 1⟩
def HST_EVT_ATTACH_FAIL : Fld := ⟨rHST_EVT, 1, 1⟩
def HST_EVT_ATTACHED : Fld := ⟨rHST_EVT, 0, 1⟩
def rHST_EVT_EN : Nat := 0x1800044
def HST_EVT_EN_EN : Fld := ⟨rHST_EVT_EN, 0, 7⟩
def rHST_ATTACH_CNT : Nat := 0x1800080
def HST_ATTACH_CNT_VAL : Fld := ⟨rHST_ATTACH_CNT, 0, 32⟩
def rHST_ATTACH_FAIL_CNT : Nat := 0x1800084
def HST_ATTACH_FAIL_CNT_VAL : Fld := ⟨rHST_ATTACH_FAIL_CNT, 0, 32⟩
def rHST_RECLAIM_CNT : Nat := 0x1800088
def HST_RECLAIM_CNT_VAL : Fld := ⟨rHST_RECLAIM_CNT, 0, 32⟩
def rHST_INBAND_DROP_CNT : Nat := 0x180008C
def HST_INBAND_DROP_CNT_VAL : Fld := ⟨rHST_INBAND_DROP_CNT, 0, 32⟩
def rHST_HV_RX_FRAMES_LO (h : Nat) : Nat := 0x1820000 + 0x20 * h
def HST_HV_RX_FRAMES_LO_VAL (h : Nat) : Fld := ⟨rHST_HV_RX_FRAMES_LO h, 0, 32⟩
def rHST_HV_RX_FRAMES_HI (h : Nat) : Nat := 0x1820004 + 0x20 * h
def HST_HV_RX_FRAMES_HI_VAL (h : Nat) : Fld := ⟨rHST_HV_RX_FRAMES_HI h, 0, 32⟩
def rHST_HV_RX_BYTES_LO (h : Nat) : Nat := 0x1820008 + 0x20 * h
def HST_HV_RX_BYTES_LO_VAL (h : Nat) : Fld := ⟨rHST_HV_RX_BYTES_LO h, 0, 32⟩
def rHST_HV_RX_BYTES_HI (h : Nat) : Nat := 0x182000C + 0x20 * h
def HST_HV_RX_BYTES_HI_VAL (h : Nat) : Fld := ⟨rHST_HV_RX_BYTES_HI h, 0, 32⟩
def rHST_HV_TX_FRAMES_LO (h : Nat) : Nat := 0x1820010 + 0x20 * h
def HST_HV_TX_FRAMES_LO_VAL (h : Nat) : Fld := ⟨rHST_HV_TX_FRAMES_LO h, 0, 32⟩
def rHST_HV_TX_FRAMES_HI (h : Nat) : Nat := 0x1820014 + 0x20 * h
def HST_HV_TX_FRAMES_HI_VAL (h : Nat) : Fld := ⟨rHST_HV_TX_FRAMES_HI h, 0, 32⟩
def rHST_HV_RX_DROP_CNT (h : Nat) : Nat := 0x1820018 + 0x20 * h
def HST_HV_RX_DROP_CNT_VAL (h : Nat) : Fld := ⟨rHST_HV_RX_DROP_CNT h, 0, 32⟩
def rHST_HV_TX_DROP_CNT (h : Nat) : Nat := 0x182001C + 0x20 * h
def HST_HV_TX_DROP_CNT_VAL (h : Nat) : Fld := ⟨rHST_HV_TX_DROP_CNT h, 0, 32⟩
/-! Registers of 20_power_clock_boot. -/
def rPWR_MAP : Nat := 0x200000
def PWR_MAP_LPDDR_SR : Fld := ⟨rPWR_MAP, 26, 1⟩
def PWR_MAP_KEEP_D3 : Fld := ⟨rPWR_MAP, 25, 1⟩
def PWR_MAP_KEEP_D2 : Fld := ⟨rPWR_MAP, 24, 1⟩
def PWR_MAP_RUN_MODE : Fld := ⟨rPWR_MAP, 0, 24⟩
def rPWR_DOM_STAT : Nat := 0x200004
def PWR_DOM_STAT_ON : Fld := ⟨rPWR_DOM_STAT, 0, 12⟩
def rPWR_DOM_CTL : Nat := 0x200008
def PWR_DOM_CTL_RESULT : Fld := ⟨rPWR_DOM_CTL, 28, 4⟩
def PWR_DOM_CTL_OFF : Fld := ⟨rPWR_DOM_CTL, 0, 12⟩
def rPWR_WAKE_CFG : Nat := 0x200010
def PWR_WAKE_CFG_TIMER_EN : Fld := ⟨rPWR_WAKE_CFG, 16, 1⟩
def PWR_WAKE_CFG_PIN_EN : Fld := ⟨rPWR_WAKE_CFG, 0, 8⟩
def rPWR_WAKE_TIMER_LO : Nat := 0x200014
def PWR_WAKE_TIMER_LO_AO : Fld := ⟨rPWR_WAKE_TIMER_LO, 0, 32⟩
def rPWR_WAKE_TIMER_HI : Nat := 0x200018
def PWR_WAKE_TIMER_HI_AO : Fld := ⟨rPWR_WAKE_TIMER_HI, 0, 16⟩
def rPWR_WAKE_STATUS : Nat := 0x200020
def PWR_WAKE_STATUS_RETAIN_ERR : Fld := ⟨rPWR_WAKE_STATUS, 31, 1⟩
def PWR_WAKE_STATUS_SOURCE : Fld := ⟨rPWR_WAKE_STATUS, 0, 8⟩
def rPWR_BOOT_STATUS : Nat := 0x200030
def PWR_BOOT_STATUS_CODE : Fld := ⟨rPWR_BOOT_STATUS, 8, 8⟩
def PWR_BOOT_STATUS_SOURCE : Fld := ⟨rPWR_BOOT_STATUS, 4, 2⟩
def PWR_BOOT_STATUS_FENCED : Fld := ⟨rPWR_BOOT_STATUS, 0, 3⟩
def rPWR_HOSTBOOT_LO : Nat := 0x200040
def PWR_HOSTBOOT_LO_ADDR : Fld := ⟨rPWR_HOSTBOOT_LO, 0, 32⟩
def rPWR_HOSTBOOT_HI : Nat := 0x200044
def PWR_HOSTBOOT_HI_ADDR : Fld := ⟨rPWR_HOSTBOOT_HI, 0, 32⟩
def rPWR_HOSTBOOT_GO : Nat := 0x200048
def PWR_HOSTBOOT_GO_GO : Fld := ⟨rPWR_HOSTBOOT_GO, 0, 1⟩
def rPWR_EVT : Nat := 0x200050
def PWR_EVT_DOM_DONE : Fld := ⟨rPWR_EVT, 2, 1⟩
def PWR_EVT_RETAIN_ERR : Fld := ⟨rPWR_EVT, 1, 1⟩
def PWR_EVT_WOKE : Fld := ⟨rPWR_EVT, 0, 1⟩
def rPWR_EVT_EN : Nat := 0x200054
def PWR_EVT_EN_EN : Fld := ⟨rPWR_EVT_EN, 0, 3⟩
def rPWR_SLEEP_FLUSH_CNT : Nat := 0x200100
def PWR_SLEEP_FLUSH_CNT_VAL : Fld := ⟨rPWR_SLEEP_FLUSH_CNT, 0, 32⟩
def rPWR_SLEEP_CNT : Nat := 0x200104
def PWR_SLEEP_CNT_VAL : Fld := ⟨rPWR_SLEEP_CNT, 0, 32⟩
def rCLK_STATUS : Nat := 0x300000
def CLK_STATUS_XO32K_OK : Fld := ⟨rCLK_STATUS, 12, 1⟩
def CLK_STATUS_PCIE : Fld := ⟨rCLK_STATUS, 10, 2⟩
def CLK_STATUS_SQ : Fld := ⟨rCLK_STATUS, 4, 6⟩
def CLK_STATUS_PLL_TS : Fld := ⟨rCLK_STATUS, 3, 1⟩
def CLK_STATUS_PLL_MC : Fld := ⟨rCLK_STATUS, 2, 1⟩
def CLK_STATUS_PLL_CORE : Fld := ⟨rCLK_STATUS, 1, 1⟩
def CLK_STATUS_REF_OK : Fld := ⟨rCLK_STATUS, 0, 1⟩
def rCLK_EVT : Nat := 0x300040
def CLK_EVT_REF_LOSS : Fld := ⟨rCLK_EVT, 1, 1⟩
def CLK_EVT_LOCK_LOSS : Fld := ⟨rCLK_EVT, 0, 1⟩
def rCLK_EVT_EN : Nat := 0x300044
def CLK_EVT_EN_EN : Fld := ⟨rCLK_EVT_EN, 0, 2⟩
/-! Registers of 21_errors_calibration. -/
def rRAS_ERR_STAT : Nat := 0x1B00000
def RAS_ERR_STAT_COUNT : Fld := ⟨rRAS_ERR_STAT, 0, 7⟩
def rRAS_ERR_REC (w : Nat) : Nat := 0x1B00004 + 0x4 * w
def RAS_ERR_REC_BYTES (w : Nat) : Fld := ⟨rRAS_ERR_REC w, 0, 32⟩
def rRAS_ERR_POP : Nat := 0x1B00014
def RAS_ERR_POP_POP : Fld := ⟨rRAS_ERR_POP, 0, 1⟩
def rRAS_ERR_OUT : Nat := 0x1B00020
def RAS_ERR_OUT_FAULT : Fld := ⟨rRAS_ERR_OUT, 31, 1⟩
def RAS_ERR_OUT_CAUSE : Fld := ⟨rRAS_ERR_OUT, 1, 6⟩
def RAS_ERR_OUT_FORCE : Fld := ⟨rRAS_ERR_OUT, 0, 1⟩
def rRAS_ALARM : Nat := 0x1B00030
def RAS_ALARM_ACTIVE : Fld := ⟨rRAS_ALARM, 4, 4⟩
def RAS_ALARM_SEEN : Fld := ⟨rRAS_ALARM, 0, 4⟩
def rRAS_TEMP : Nat := 0x1B00034
def RAS_TEMP_TJ : Fld := ⟨rRAS_TEMP, 0, 12⟩
def rRAS_TEMP_ALARM : Nat := 0x1B00038
def RAS_TEMP_ALARM_TJ : Fld := ⟨rRAS_TEMP_ALARM, 0, 12⟩
def rRAS_WDG : Nat := 0x1B00040
def RAS_WDG_ANS_BUSY : Fld := ⟨rRAS_WDG, 9, 1⟩
def RAS_WDG_ANSWERED : Fld := ⟨rRAS_WDG, 8, 1⟩
def RAS_WDG_Q : Fld := ⟨rRAS_WDG, 0, 8⟩
def rRAS_WDG_ANS : Nat := 0x1B00044
def RAS_WDG_ANS_ANS : Fld := ⟨rRAS_WDG_ANS, 0, 8⟩
def rRAS_REPAIR_STAT : Nat := 0x1B00050
def RAS_REPAIR_STAT_USED : Fld := ⟨rRAS_REPAIR_STAT, 0, 9⟩
def rRAS_REPAIR (i : Nat) : Nat := 0x1B01000 + 0x4 * i
def RAS_REPAIR_VALID (i : Nat) : Fld := ⟨rRAS_REPAIR i, 31, 1⟩
def RAS_REPAIR_UNSPARED (i : Nat) : Fld := ⟨rRAS_REPAIR i, 30, 1⟩
def RAS_REPAIR_PLANE (i : Nat) : Fld := ⟨rRAS_REPAIR i, 29, 1⟩
def RAS_REPAIR_COLUMN (i : Nat) : Fld := ⟨rRAS_REPAIR i, 28, 1⟩
def RAS_REPAIR_MACRO (i : Nat) : Fld := ⟨rRAS_REPAIR i, 18, 10⟩
def RAS_REPAIR_LINE (i : Nat) : Fld := ⟨rRAS_REPAIR i, 0, 18⟩
def rRAS_FCAL_SEL : Nat := 0x1B00060
def RAS_FCAL_SEL_DIR : Fld := ⟨rRAS_FCAL_SEL, 16, 1⟩
def RAS_FCAL_SEL_SPEED : Fld := ⟨rRAS_FCAL_SEL, 8, 3⟩
def RAS_FCAL_SEL_MODE : Fld := ⟨rRAS_FCAL_SEL, 0, 8⟩
def rRAS_FCAL_VAL : Nat := 0x1B00064
def RAS_FCAL_VAL_VALID : Fld := ⟨rRAS_FCAL_VAL, 31, 1⟩
def RAS_FCAL_VAL_F_PS : Fld := ⟨rRAS_FCAL_VAL, 0, 20⟩
def rRAS_UCAL (p : Nat) : Nat := 0x1B00100 + 0x4 * p
def RAS_UCAL_SAT_TX (p : Nat) : Fld := ⟨rRAS_UCAL p, 1, 1⟩
def RAS_UCAL_SAT_RX (p : Nat) : Fld := ⟨rRAS_UCAL p, 0, 1⟩
def rRAS_EVT : Nat := 0x1B00200
def RAS_EVT_ALARM : Fld := ⟨rRAS_EVT, 4, 1⟩
def RAS_EVT_WDG_Q : Fld := ⟨rRAS_EVT, 3, 1⟩
def RAS_EVT_REC_OVF : Fld := ⟨rRAS_EVT, 2, 1⟩
def RAS_EVT_FATAL : Fld := ⟨rRAS_EVT, 1, 1⟩
def RAS_EVT_REC : Fld := ⟨rRAS_EVT, 0, 1⟩
def rRAS_EVT_EN : Nat := 0x1B00204
def RAS_EVT_EN_EN : Fld := ⟨rRAS_EVT_EN, 0, 5⟩
def rRAS_REC_OVF_CNT : Nat := 0x1B00300
def RAS_REC_OVF_CNT_VAL : Fld := ⟨rRAS_REC_OVF_CNT, 0, 32⟩
def rRAS_PKT_STOMP_CNT : Nat := 0x1B00304
def RAS_PKT_STOMP_CNT_VAL : Fld := ⟨rRAS_PKT_STOMP_CNT, 0, 32⟩
def rRAS_WDG_OVERRUN_CNT : Nat := 0x1B00308
def RAS_WDG_OVERRUN_CNT_VAL : Fld := ⟨rRAS_WDG_OVERRUN_CNT, 0, 32⟩
/-! Registers of 10_carillon. -/
def rCAR_PEAL : Nat := 0xC00050
def CAR_PEAL_PEAL_NS : Fld := ⟨rCAR_PEAL, 0, 30⟩
def rCAR_SHD_PEAL : Nat := 0xC00054
def CAR_SHD_PEAL_PEAL_NS : Fld := ⟨rCAR_SHD_PEAL, 0, 30⟩
def rCAR_RES_OFFSET : Nat := 0xC00068
def CAR_RES_OFFSET_UNITS : Fld := ⟨rCAR_RES_OFFSET, 0, 27⟩
def rCAR_RES_WIDTH : Nat := 0xC0006C
def CAR_RES_WIDTH_UNITS : Fld := ⟨rCAR_RES_WIDTH, 0, 27⟩
def rCAR_RES_G : Nat := 0xC00070
def CAR_RES_G_NS : Fld := ⟨rCAR_RES_G, 0, 32⟩
def rCAR_RES_Q : Nat := 0xC00074
def CAR_RES_Q_NS : Fld := ⟨rCAR_RES_Q, 0, 32⟩
def rCAR_RES_B : Nat := 0xC00078
def CAR_RES_B_NS : Fld := ⟨rCAR_RES_B, 0, 32⟩
def rCAR_RES_L : Nat := 0xC0007C
def CAR_RES_L_NS : Fld := ⟨rCAR_RES_L, 0, 32⟩
def rCAR_GL_W0 (p : Nat) (k : Nat) : Nat := 0xC40000 + 0x2000 * p + 0x8 * k
def CAR_GL_W0_OFFSET (p : Nat) (k : Nat) : Fld := ⟨rCAR_GL_W0 p k, 0, 27⟩
def rCAR_GL_W1 (p : Nat) (k : Nat) : Nat := 0xC40004 + 0x2000 * p + 0x8 * k
def CAR_GL_W1_VALID (p : Nat) (k : Nat) : Fld := ⟨rCAR_GL_W1 p k, 31, 1⟩
def CAR_GL_W1_STROKE (p : Nat) (k : Nat) : Fld := ⟨rCAR_GL_W1 p k, 30, 1⟩
def CAR_GL_W1_OPEN (p : Nat) (k : Nat) : Fld := ⟨rCAR_GL_W1 p k, 0, 8⟩
/-! Registers of 04_parsing. -/
def rPRS_INDIR (pl : Plane) (h : Nat) (k : Nat) : Nat := 0x810000 + half pl + 0x80 * h + 0x4 * k
def PRS_INDIR_RING3 (pl : Plane) (h : Nat) (k : Nat) : Fld := ⟨rPRS_INDIR pl h k, 24, 6⟩
def PRS_INDIR_RING2 (pl : Plane) (h : Nat) (k : Nat) : Fld := ⟨rPRS_INDIR pl h k, 16, 6⟩
def PRS_INDIR_RING1 (pl : Plane) (h : Nat) (k : Nat) : Fld := ⟨rPRS_INDIR pl h k, 8, 6⟩
def PRS_INDIR_RING0 (pl : Plane) (h : Nat) (k : Nat) : Fld := ⟨rPRS_INDIR pl h k, 0, 6⟩
/-! Registers of 12_legacy_buses. -/
def rCAN_NBT (n : Nat) : Nat := 0x1500010 + 0x8000 * n
def CAN_NBT_SJW (n : Nat) : Fld := ⟨rCAN_NBT n, 20, 7⟩
def CAN_NBT_TSEG2 (n : Nat) : Fld := ⟨rCAN_NBT n, 13, 7⟩
def CAN_NBT_TSEG1 (n : Nat) : Fld := ⟨rCAN_NBT n, 5, 8⟩
def CAN_NBT_BRP (n : Nat) : Fld := ⟨rCAN_NBT n, 0, 5⟩
def rCAN_DBT (n : Nat) : Nat := 0x1500014 + 0x8000 * n
def CAN_DBT_SJW (n : Nat) : Fld := ⟨rCAN_DBT n, 20, 7⟩
def CAN_DBT_TSEG2 (n : Nat) : Fld := ⟨rCAN_DBT n, 13, 7⟩
def CAN_DBT_TSEG1 (n : Nat) : Fld := ⟨rCAN_DBT n, 5, 8⟩
def CAN_DBT_BRP (n : Nat) : Fld := ⟨rCAN_DBT n, 0, 5⟩
def rCAN_XBT (n : Nat) : Nat := 0x1500018 + 0x8000 * n
def CAN_XBT_SJW (n : Nat) : Fld := ⟨rCAN_XBT n, 20, 7⟩
def CAN_XBT_TSEG2 (n : Nat) : Fld := ⟨rCAN_XBT n, 13, 7⟩
def CAN_XBT_TSEG1 (n : Nat) : Fld := ⟨rCAN_XBT n, 5, 8⟩
def CAN_XBT_BRP (n : Nat) : Fld := ⟨rCAN_XBT n, 0, 5⟩
def rLIN_RESP_W0 (n : Nat) (i : Nat) : Nat := 0x1601000 + 0x10000 * n + 0x10 * i
def LIN_RESP_W0_DATA (n : Nat) (i : Nat) : Fld := ⟨rLIN_RESP_W0 n i, 0, 32⟩
def rLIN_RESP_W1 (n : Nat) (i : Nat) : Nat := 0x1601004 + 0x10000 * n + 0x10 * i
def LIN_RESP_W1_DATA (n : Nat) (i : Nat) : Fld := ⟨rLIN_RESP_W1 n i, 0, 32⟩
def rLIN_RESP_W2 (n : Nat) (i : Nat) : Nat := 0x1601008 + 0x10000 * n + 0x10 * i
def LIN_RESP_W2_VALID (n : Nat) (i : Nat) : Fld := ⟨rLIN_RESP_W2 n i, 31, 1⟩
def LIN_RESP_W2_LEN (n : Nat) (i : Nat) : Fld := ⟨rLIN_RESP_W2 n i, 0, 4⟩
/-! Registers of 13_sleep_wake. -/
def rNMW_NC_TREQ_LO (c : Nat) : Nat := 0x1700008 + 0x100 * c
def NMW_NC_TREQ_LO_TN (c : Nat) : Fld := ⟨rNMW_NC_TREQ_LO c, 0, 32⟩
def rNMW_NC_TREQ_HI (c : Nat) : Nat := 0x170000C + 0x100 * c
def NMW_NC_TREQ_HI_TN (c : Nat) : Fld := ⟨rNMW_NC_TREQ_HI c, 0, 32⟩
def rNMW_NC_LAST_TIME_LO (c : Nat) : Nat := 0x1700014 + 0x100 * c
def NMW_NC_LAST_TIME_LO_TIME (c : Nat) : Fld := ⟨rNMW_NC_LAST_TIME_LO c, 0, 32⟩
def rNMW_NC_LAST_TIME_HI (c : Nat) : Nat := 0x1700018 + 0x100 * c
def NMW_NC_LAST_TIME_HI_TIME (c : Nat) : Fld := ⟨rNMW_NC_LAST_TIME_HI c, 0, 16⟩
def rNMW_NC_TMR0 (c : Nat) : Nat := 0x170001C + 0x100 * c
def NMW_NC_TMR0_NM_TIMEOUT_MS (c : Nat) : Fld := ⟨rNMW_NC_TMR0 c, 16, 16⟩
def NMW_NC_TMR0_WAIT_SLEEP_MS (c : Nat) : Fld := ⟨rNMW_NC_TMR0 c, 0, 16⟩
def rNMW_NC_TMR1 (c : Nat) : Nat := 0x1700020 + 0x100 * c
def NMW_NC_TMR1_REPEAT_MS (c : Nat) : Fld := ⟨rNMW_NC_TMR1 c, 16, 16⟩
def NMW_NC_TMR1_CHIME_MS (c : Nat) : Fld := ⟨rNMW_NC_TMR1 c, 0, 16⟩
def rNMW_NC_TMR2 (c : Nat) : Nat := 0x1700024 + 0x100 * c
def NMW_NC_TMR2_SETTLE_US (c : Nat) : Fld := ⟨rNMW_NC_TMR2 c, 16, 16⟩
def NMW_NC_TMR2_READY_MAX_MS (c : Nat) : Fld := ⟨rNMW_NC_TMR2 c, 0, 8⟩
def rNMW_NC_EVT (c : Nat) : Nat := 0x1700028 + 0x100 * c
def NMW_NC_EVT_WAKE (c : Nat) : Fld := ⟨rNMW_NC_EVT c, 3, 1⟩
def NMW_NC_EVT_CANCEL (c : Nat) : Fld := ⟨rNMW_NC_EVT c, 2, 1⟩
def NMW_NC_EVT_KNELL (c : Nat) : Fld := ⟨rNMW_NC_EVT c, 1, 1⟩
def NMW_NC_EVT_STATE_CHG (c : Nat) : Fld := ⟨rNMW_NC_EVT c, 0, 1⟩
def rNMW_NC_EVT_EN (c : Nat) : Nat := 0x170002C + 0x100 * c
def NMW_NC_EVT_EN_EN (c : Nat) : Fld := ⟨rNMW_NC_EVT_EN c, 0, 4⟩
def rNMW_WREC (w : Nat) : Nat := 0x1710004 + 0x4 * w
def NMW_WREC_WORD (w : Nat) : Fld := ⟨rNMW_WREC w, 0, 32⟩
def rNMW_AO_SNAP : Nat := 0x1710020
def NMW_AO_SNAP_GO : Fld := ⟨rNMW_AO_SNAP, 0, 1⟩
def rNMW_AO_SNAP_AO_LO : Nat := 0x1710024
def NMW_AO_SNAP_AO_LO_AO : Fld := ⟨rNMW_AO_SNAP_AO_LO, 0, 32⟩
def rNMW_AO_SNAP_AO_HI : Nat := 0x1710028
def NMW_AO_SNAP_AO_HI_AO : Fld := ⟨rNMW_AO_SNAP_AO_HI, 0, 16⟩
def rNMW_AO_SNAP_CT_LO : Nat := 0x171002C
def NMW_AO_SNAP_CT_LO_CT48 : Fld := ⟨rNMW_AO_SNAP_CT_LO, 0, 32⟩
def rNMW_AO_SNAP_CT_HI : Nat := 0x1710030
def NMW_AO_SNAP_CT_HI_CT48 : Fld := ⟨rNMW_AO_SNAP_CT_HI, 0, 16⟩
def rNMW_EVT : Nat := 0x1710080
def NMW_EVT_WREC_OVF : Fld := ⟨rNMW_EVT, 1, 1⟩
def NMW_EVT_WREC : Fld := ⟨rNMW_EVT, 0, 1⟩
def rNMW_EVT_EN : Nat := 0x1710084
def NMW_EVT_EN_EN : Fld := ⟨rNMW_EVT_EN, 0, 2⟩
/-! Registers of 14_firewall. -/
def rFWL_MATRIX (i : Nat) (w : Nat) : Nat := 0xF00200 + 0x20 * i + 0x4 * w
def FWL_MATRIX_POLICY (i : Nat) (w : Nat) : Fld := ⟨rFWL_MATRIX i w, 0, 32⟩
/-! Registers of 15_belfry. -/
def rBLF_DATA (k : Nat) : Nat := 0x1010000 + 0x4 * k
def BLF_DATA_DATA (k : Nat) : Fld := ⟨rBLF_DATA k, 0, 32⟩
def rLDG_DATA (k : Nat) : Nat := 0x1210000 + 0x4 * k
def LDG_DATA_DATA (k : Nat) : Fld := ⟨rLDG_DATA k, 0, 32⟩
def rLDG_CH_CHG_MWH_LO (c : Nat) : Nat := 0x1201000 + 0x40 * c
def LDG_CH_CHG_MWH_LO_VAL (c : Nat) : Fld := ⟨rLDG_CH_CHG_MWH_LO c, 0, 32⟩
def rLDG_CH_CHG_MWH_HI (c : Nat) : Nat := 0x1201004 + 0x40 * c
def LDG_CH_CHG_MWH_HI_VAL (c : Nat) : Fld := ⟨rLDG_CH_CHG_MWH_HI c, 0, 32⟩
def rLDG_CH_DIS_MWH_LO (c : Nat) : Nat := 0x1201008 + 0x40 * c
def LDG_CH_DIS_MWH_LO_VAL (c : Nat) : Fld := ⟨rLDG_CH_DIS_MWH_LO c, 0, 32⟩
def rLDG_CH_DIS_MWH_HI (c : Nat) : Nat := 0x120100C + 0x40 * c
def LDG_CH_DIS_MWH_HI_VAL (c : Nat) : Fld := ⟨rLDG_CH_DIS_MWH_HI c, 0, 32⟩
def rLDG_CH_LAST_SEQ (c : Nat) : Nat := 0x1201010 + 0x40 * c
def LDG_CH_LAST_SEQ_VAL (c : Nat) : Fld := ⟨rLDG_CH_LAST_SEQ c, 0, 32⟩
def rLDG_CH_GAP_CNT (c : Nat) : Nat := 0x1201014 + 0x40 * c
def LDG_CH_GAP_CNT_VAL (c : Nat) : Fld := ⟨rLDG_CH_GAP_CNT c, 0, 32⟩
def rLDG_CH_AUTH_FAIL (c : Nat) : Nat := 0x1201018 + 0x40 * c
def LDG_CH_AUTH_FAIL_VAL (c : Nat) : Fld := ⟨rLDG_CH_AUTH_FAIL c, 0, 32⟩
def rLDG_CH_REPLAY (c : Nat) : Nat := 0x120101C + 0x40 * c
def LDG_CH_REPLAY_VAL (c : Nat) : Fld := ⟨rLDG_CH_REPLAY c, 0, 32⟩
def rLDG_CH_STATE (c : Nat) : Nat := 0x1201020 + 0x40 * c
def LDG_CH_STATE_FRESH (c : Nat) : Fld := ⟨rLDG_CH_STATE c, 0, 1⟩
def LDG_CH_STATE_GAP (c : Nat) : Fld := ⟨rLDG_CH_STATE c, 1, 1⟩
def LDG_CH_STATE_HOLDING (c : Nat) : Fld := ⟨rLDG_CH_STATE c, 2, 1⟩
/-! Registers of 16_cipher. -/
def rCPH_MSEC_CFG (i : Nat) : Nat := 0x1110000 + 0x200 * i
def CPH_MSEC_CFG_ACTIVE (i : Nat) : Fld := ⟨rCPH_MSEC_CFG i, 31, 1⟩
def CPH_MSEC_CFG_SUITE (i : Nat) : Fld := ⟨rCPH_MSEC_CFG i, 29, 2⟩
def CPH_MSEC_CFG_ENCRYPT (i : Nat) : Fld := ⟨rCPH_MSEC_CFG i, 28, 1⟩
def CPH_MSEC_CFG_PTP_CLEAR (i : Nat) : Fld := ⟨rCPH_MSEC_CFG i, 27, 1⟩
def CPH_MSEC_CFG_TX_AN (i : Nat) : Fld := ⟨rCPH_MSEC_CFG i, 24, 2⟩
def CPH_MSEC_CFG_WINDOW (i : Nat) : Fld := ⟨rCPH_MSEC_CFG i, 0, 24⟩
def rCPH_MSEC_SCI_LO (i : Nat) : Nat := 0x1110008 + 0x200 * i
def CPH_MSEC_SCI_LO_SCI (i : Nat) : Fld := ⟨rCPH_MSEC_SCI_LO i, 0, 32⟩
def rCPH_MSEC_SCI_HI (i : Nat) : Nat := 0x111000C + 0x200 * i
def CPH_MSEC_SCI_HI_SCI (i : Nat) : Fld := ⟨rCPH_MSEC_SCI_HI i, 0, 32⟩
def rCPH_MSEC_SA_CTL (i : Nat) (a : Nat) : Nat := 0x1110040 + 0x200 * i + 0x20 * a
def CPH_MSEC_SA_CTL_VALID (i : Nat) (a : Nat) : Fld := ⟨rCPH_MSEC_SA_CTL i a, 31, 1⟩
def CPH_MSEC_SA_CTL_SLOT (i : Nat) (a : Nat) : Fld := ⟨rCPH_MSEC_SA_CTL i a, 16, 10⟩
def rCPH_MSEC_SA_PN_LO (i : Nat) (a : Nat) : Nat := 0x1110044 + 0x200 * i + 0x20 * a
def CPH_MSEC_SA_PN_LO_PN (i : Nat) (a : Nat) : Fld := ⟨rCPH_MSEC_SA_PN_LO i a, 0, 32⟩
def rCPH_MSEC_SA_PN_HI (i : Nat) (a : Nat) : Nat := 0x1110048 + 0x200 * i + 0x20 * a
def CPH_MSEC_SA_PN_HI_PN (i : Nat) (a : Nat) : Fld := ⟨rCPH_MSEC_SA_PN_HI i a, 0, 32⟩
def rCPH_MSEC_SA_SSCI (i : Nat) (a : Nat) : Nat := 0x111004C + 0x200 * i + 0x20 * a
def CPH_MSEC_SA_SSCI_VAL (i : Nat) (a : Nat) : Fld := ⟨rCPH_MSEC_SA_SSCI i a, 0, 32⟩
def rCPH_MSEC_SA_PN_WARN (i : Nat) (a : Nat) : Nat := 0x111005C + 0x200 * i + 0x20 * a
def CPH_MSEC_SA_PN_WARN_VAL (i : Nat) (a : Nat) : Fld := ⟨rCPH_MSEC_SA_PN_WARN i a, 0, 32⟩
def rCPH_MSEC_SA_SALT (i : Nat) (a : Nat) (k : Nat) : Nat := 0x1110050 + 0x200 * i + 0x20 * a + 0x4 * k
def CPH_MSEC_SA_SALT_VAL (i : Nat) (a : Nat) (k : Nat) : Fld := ⟨rCPH_MSEC_SA_SALT i a k, 0, 32⟩
def rCPH_MSEC_RX_UNTAGGED_CNT (i : Nat) : Nat := 0x1110180 + 0x200 * i
def CPH_MSEC_RX_UNTAGGED_CNT_VAL (i : Nat) : Fld := ⟨rCPH_MSEC_RX_UNTAGGED_CNT i, 0, 32⟩
def rCPH_MSEC_RX_NOSA_CNT (i : Nat) : Nat := 0x1110184 + 0x200 * i
def CPH_MSEC_RX_NOSA_CNT_VAL (i : Nat) : Fld := ⟨rCPH_MSEC_RX_NOSA_CNT i, 0, 32⟩
def rCPH_MSEC_RX_ICV_CNT (i : Nat) : Nat := 0x1110188 + 0x200 * i
def CPH_MSEC_RX_ICV_CNT_VAL (i : Nat) : Fld := ⟨rCPH_MSEC_RX_ICV_CNT i, 0, 32⟩
def rCPH_MSEC_RX_LATE_CNT (i : Nat) : Nat := 0x111018C + 0x200 * i
def CPH_MSEC_RX_LATE_CNT_VAL (i : Nat) : Fld := ⟨rCPH_MSEC_RX_LATE_CNT i, 0, 32⟩
def rCPH_MSEC_TX_PN_EXHAUST_CNT (i : Nat) : Nat := 0x1110190 + 0x200 * i
def CPH_MSEC_TX_PN_EXHAUST_CNT_VAL (i : Nat) : Fld := ⟨rCPH_MSEC_TX_PN_EXHAUST_CNT i, 0, 32⟩
/-! Registers of 19_tenants. -/
def rHST_IFQ_BASE_LO (q : Nat) : Nat := 0x1800200 + 0x20 * q
def HST_IFQ_BASE_LO_BASE (q : Nat) : Fld := ⟨rHST_IFQ_BASE_LO q, 0, 32⟩
def rHST_IFQ_BASE_HI (q : Nat) : Nat := 0x1800204 + 0x20 * q
def HST_IFQ_BASE_HI_BASE (q : Nat) : Fld := ⟨rHST_IFQ_BASE_HI q, 0, 32⟩
def rHST_IFQ_CFG (q : Nat) : Nat := 0x1800208 + 0x20 * q
def HST_IFQ_CFG_EN (q : Nat) : Fld := ⟨rHST_IFQ_CFG q, 31, 1⟩
def HST_IFQ_CFG_LOG2 (q : Nat) : Fld := ⟨rHST_IFQ_CFG q, 0, 4⟩
def rHST_IFQ_TAIL (q : Nat) : Nat := 0x180020C + 0x20 * q
def HST_IFQ_TAIL_TAIL (q : Nat) : Fld := ⟨rHST_IFQ_TAIL q, 0, 12⟩
def rHST_IFQ_HEAD (q : Nat) : Nat := 0x1800210 + 0x20 * q
def HST_IFQ_HEAD_HEAD (q : Nat) : Fld := ⟨rHST_IFQ_HEAD q, 0, 12⟩
def rTNW_CTL (t : Nat) : Nat := 0x2000000 + 0x10000 * t
def TNW_CTL_RESULT (t : Nat) : Fld := ⟨rTNW_CTL t, 12, 4⟩
def TNW_CTL_WOC (t : Nat) : Fld := ⟨rTNW_CTL t, 8, 1⟩
def TNW_CTL_CMD (t : Nat) : Fld := ⟨rTNW_CTL t, 0, 4⟩
def rTNW_STATUS (t : Nat) : Nat := 0x2000004 + 0x10000 * t
def TNW_STATUS_CAUSE (t : Nat) : Fld := ⟨rTNW_STATUS t, 16, 4⟩
def TNW_STATUS_TENANT (t : Nat) : Fld := ⟨rTNW_STATUS t, 8, 6⟩
def TNW_STATUS_STATE (t : Nat) : Fld := ⟨rTNW_STATUS t, 0, 3⟩
def rTNW_REQ0 (t : Nat) : Nat := 0x2000010 + 0x10000 * t
def TNW_REQ0_VEC (t : Nat) : Fld := ⟨rTNW_REQ0 t, 16, 12⟩
def TNW_REQ0_RP (t : Nat) : Fld := ⟨rTNW_REQ0 t, 0, 7⟩
def rTNW_REQ1 (t : Nat) : Nat := 0x2000014 + 0x10000 * t
def TNW_REQ1_EM (t : Nat) : Fld := ⟨rTNW_REQ1 t, 0, 25⟩
def rTNW_REQ2 (t : Nat) : Nat := 0x2000018 + 0x10000 * t
def TNW_REQ2_STREAM (t : Nat) : Fld := ⟨rTNW_REQ2 t, 16, 13⟩
def TNW_REQ2_KEY (t : Nat) : Fld := ⟨rTNW_REQ2 t, 0, 10⟩
def rTNW_REQ3 (t : Nat) : Nat := 0x200001C + 0x10000 * t
def TNW_REQ3_CPH (t : Nat) : Fld := ⟨rTNW_REQ3 t, 8, 7⟩
def TNW_REQ3_CAP (t : Nat) : Fld := ⟨rTNW_REQ3 t, 0, 4⟩
def rTNW_LIVE (t : Nat) : Nat := 0x2000020 + 0x10000 * t
def TNW_LIVE_VAL (t : Nat) : Fld := ⟨rTNW_LIVE t, 0, 32⟩
def rTNW_CMDQ_BASE_LO (t : Nat) : Nat := 0x2000030 + 0x10000 * t
def TNW_CMDQ_BASE_LO_BASE (t : Nat) : Fld := ⟨rTNW_CMDQ_BASE_LO t, 0, 32⟩
def rTNW_CMDQ_BASE_HI (t : Nat) : Nat := 0x2000034 + 0x10000 * t
def TNW_CMDQ_BASE_HI_BASE (t : Nat) : Fld := ⟨rTNW_CMDQ_BASE_HI t, 0, 32⟩
def rTNW_CPLQ_BASE_LO (t : Nat) : Nat := 0x2000048 + 0x10000 * t
def TNW_CPLQ_BASE_LO_BASE (t : Nat) : Fld := ⟨rTNW_CPLQ_BASE_LO t, 0, 32⟩
def rTNW_CPLQ_BASE_HI (t : Nat) : Nat := 0x200004C + 0x10000 * t
def TNW_CPLQ_BASE_HI_BASE (t : Nat) : Fld := ⟨rTNW_CPLQ_BASE_HI t, 0, 32⟩
def rTNW_CMDQ_CFG (t : Nat) : Nat := 0x2000038 + 0x10000 * t
def TNW_CMDQ_CFG_EN (t : Nat) : Fld := ⟨rTNW_CMDQ_CFG t, 31, 1⟩
def TNW_CMDQ_CFG_VEC (t : Nat) : Fld := ⟨rTNW_CMDQ_CFG t, 16, 11⟩
def TNW_CMDQ_CFG_LOG2 (t : Nat) : Fld := ⟨rTNW_CMDQ_CFG t, 0, 4⟩
def rTNW_CPLQ_CFG (t : Nat) : Nat := 0x2000050 + 0x10000 * t
def TNW_CPLQ_CFG_EN (t : Nat) : Fld := ⟨rTNW_CPLQ_CFG t, 31, 1⟩
def TNW_CPLQ_CFG_VEC (t : Nat) : Fld := ⟨rTNW_CPLQ_CFG t, 16, 11⟩
def TNW_CPLQ_CFG_LOG2 (t : Nat) : Fld := ⟨rTNW_CPLQ_CFG t, 0, 4⟩
def rTNW_CMDQ_TAIL (t : Nat) : Nat := 0x200003C + 0x10000 * t
def TNW_CMDQ_TAIL_TAIL (t : Nat) : Fld := ⟨rTNW_CMDQ_TAIL t, 0, 10⟩
def rTNW_CMDQ_HEAD (t : Nat) : Nat := 0x2000040 + 0x10000 * t
def TNW_CMDQ_HEAD_HEAD (t : Nat) : Fld := ⟨rTNW_CMDQ_HEAD t, 0, 10⟩
def rTNW_CPLQ_HEAD (t : Nat) : Nat := 0x2000054 + 0x10000 * t
def TNW_CPLQ_HEAD_HEAD (t : Nat) : Fld := ⟨rTNW_CPLQ_HEAD t, 0, 12⟩
def rTNW_CPLQ_TAIL (t : Nat) : Nat := 0x2000058 + 0x10000 * t
def TNW_CPLQ_TAIL_TAIL (t : Nat) : Fld := ⟨rTNW_CPLQ_TAIL t, 0, 12⟩
def rTNW_CAP_HEAD (t : Nat) : Nat := 0x2000060 + 0x10000 * t
def TNW_CAP_HEAD_HEAD (t : Nat) : Fld := ⟨rTNW_CAP_HEAD t, 0, 24⟩
def rTNW_CAP_TAIL (t : Nat) : Nat := 0x2000064 + 0x10000 * t
def TNW_CAP_TAIL_TAIL (t : Nat) : Fld := ⟨rTNW_CAP_TAIL t, 0, 24⟩
def rTNW_RP_TX_BASE_LO (t : Nat) (r : Nat) : Nat := 0x2004000 + 0x10000 * t + 0x40 * r
def TNW_RP_TX_BASE_LO_BASE (t : Nat) (r : Nat) : Fld := ⟨rTNW_RP_TX_BASE_LO t r, 0, 32⟩
def rTNW_RP_TX_BASE_HI (t : Nat) (r : Nat) : Nat := 0x2004004 + 0x10000 * t + 0x40 * r
def TNW_RP_TX_BASE_HI_BASE (t : Nat) (r : Nat) : Fld := ⟨rTNW_RP_TX_BASE_HI t r, 0, 32⟩
def rTNW_RP_RX_BASE_LO (t : Nat) (r : Nat) : Nat := 0x2004008 + 0x10000 * t + 0x40 * r
def TNW_RP_RX_BASE_LO_BASE (t : Nat) (r : Nat) : Fld := ⟨rTNW_RP_RX_BASE_LO t r, 0, 32⟩
def rTNW_RP_RX_BASE_HI (t : Nat) (r : Nat) : Nat := 0x200400C + 0x10000 * t + 0x40 * r
def TNW_RP_RX_BASE_HI_BASE (t : Nat) (r : Nat) : Fld := ⟨rTNW_RP_RX_BASE_HI t r, 0, 32⟩
def rTNW_RP_CFG (t : Nat) (r : Nat) : Nat := 0x2004010 + 0x10000 * t + 0x40 * r
def TNW_RP_CFG_EN (t : Nat) (r : Nat) : Fld := ⟨rTNW_RP_CFG t r, 31, 1⟩
def TNW_RP_CFG_HV (t : Nat) (r : Nat) : Fld := ⟨rTNW_RP_CFG t r, 16, 8⟩
def TNW_RP_CFG_TX_LOG2 (t : Nat) (r : Nat) : Fld := ⟨rTNW_RP_CFG t r, 12, 4⟩
def TNW_RP_CFG_RX_LOG2 (t : Nat) (r : Nat) : Fld := ⟨rTNW_RP_CFG t r, 8, 4⟩
def rTNW_RP_VEC (t : Nat) (r : Nat) : Nat := 0x2004014 + 0x10000 * t + 0x40 * r
def TNW_RP_VEC_TX_VEC (t : Nat) (r : Nat) : Fld := ⟨rTNW_RP_VEC t r, 16, 11⟩
def TNW_RP_VEC_RX_VEC (t : Nat) (r : Nat) : Fld := ⟨rTNW_RP_VEC t r, 0, 11⟩
def rTNW_RP_TX_TAIL (t : Nat) (r : Nat) : Nat := 0x2004018 + 0x10000 * t + 0x40 * r
def TNW_RP_TX_TAIL_TAIL (t : Nat) (r : Nat) : Fld := ⟨rTNW_RP_TX_TAIL t r, 0, 12⟩
def rTNW_RP_TX_HEAD (t : Nat) (r : Nat) : Nat := 0x200401C + 0x10000 * t + 0x40 * r
def TNW_RP_TX_HEAD_HEAD (t : Nat) (r : Nat) : Fld := ⟨rTNW_RP_TX_HEAD t r, 0, 12⟩
def rTNW_RP_RX_TAIL (t : Nat) (r : Nat) : Nat := 0x2004020 + 0x10000 * t + 0x40 * r
def TNW_RP_RX_TAIL_TAIL (t : Nat) (r : Nat) : Fld := ⟨rTNW_RP_RX_TAIL t r, 0, 12⟩
def rTNW_RP_RX_HEAD (t : Nat) (r : Nat) : Nat := 0x2004024 + 0x10000 * t + 0x40 * r
def TNW_RP_RX_HEAD_HEAD (t : Nat) (r : Nat) : Fld := ⟨rTNW_RP_RX_HEAD t r, 0, 12⟩
def rTNW_VEC (t : Nat) (v : Nat) : Nat := 0x2008000 + 0x10000 * t + 0x4 * v
def TNW_VEC_PENDING (t : Nat) (v : Nat) : Fld := ⟨rTNW_VEC t v, 31, 1⟩
def TNW_VEC_MOD_US (t : Nat) (v : Nat) : Fld := ⟨rTNW_VEC t v, 16, 10⟩
def TNW_VEC_MOD_CNT (t : Nat) (v : Nat) : Fld := ⟨rTNW_VEC t v, 0, 8⟩

/-- How an out-of-range value of a written field is settled by its Effect column. -/
inductive Clamp where
  | keep
  /-- A value below `lo` sets `lo`, one above `hi` sets `hi`. -/
  | within (lo hi : Nat)
  /-- A value outside `lo`–`hi` sets `v`. -/
  | outside (lo hi v : Nat)
  deriving DecidableEq, Repr

/-- The access codes of R7. -/
inductive Access where
  | rw | ro | rc | w1c | w1s | wo | mw | sh | ch
  deriving DecidableEq, Repr

/-- A field of a register's table: its place, access code and clamp. -/
structure FieldSpec where
  lsb : Nat
  wid : Nat
  acc : Access
  clamp : Clamp
  deriving DecidableEq, Repr

/-- One dimension of an array of registers: the stride in bytes and the number of instances. -/
structure Dim where
  stride : Nat
  count : Nat
  deriving DecidableEq, Repr

/-- Whether a register is the _LO or the _HI of a pair (R6); an _HI lies 4 bytes above its _LO. -/
inductive Half where
  | single
  | lo
  | hi
  deriving DecidableEq, Repr

/-- A register heading of the spec. -/
structure RegSpec where
  name : String
  base : Nat
  pair : Half
  dims : List Dim
  reset : Nat
  fields : List FieldSpec
  deriving DecidableEq, Repr

def regsGLB : List RegSpec := [
  ⟨"GLB_PARTCODE", 0x0, .single, [], 0x4B510256,
    [⟨16, 16, .ro, .keep⟩, ⟨0, 16, .ro, .keep⟩]⟩,
  ⟨"GLB_REVISION", 0x4, .single, [], 0xB01,
    [⟨8, 8, .ro, .keep⟩, ⟨0, 8, .ro, .keep⟩]⟩,
  ⟨"GLB_DEVUID", 0x10, .single, [⟨0x4, 4⟩], 0x0,
    [⟨0, 32, .ro, .keep⟩]⟩,
  ⟨"GLB_STRAP", 0x20, .single, [], 0x0,
    [⟨4, 1, .ro, .keep⟩, ⟨3, 1, .ro, .keep⟩, ⟨2, 1, .ro, .keep⟩, ⟨0, 2, .ro, .keep⟩]⟩,
  ⟨"GLB_RESET_CAUSE", 0x24, .single, [], 0x1,
    [⟨7, 1, .w1c, .keep⟩, ⟨6, 1, .w1c, .keep⟩, ⟨5, 1, .w1c, .keep⟩, ⟨4, 1, .w1c, .keep⟩, ⟨3, 1, .w1c, .keep⟩, ⟨2, 1, .w1c, .keep⟩, ⟨1, 1, .w1c, .keep⟩, ⟨0, 1, .w1c, .keep⟩]⟩,
  ⟨"GLB_SWRESET", 0x28, .single, [], 0x0,
    [⟨16, 16, .wo, .keep⟩, ⟨0, 1, .wo, .keep⟩]⟩,
  ⟨"GLB_DEVSTATE", 0x30, .single, [], 0x0,
    [⟨19, 1, .ro, .keep⟩, ⟨18, 1, .ro, .keep⟩, ⟨17, 1, .ro, .keep⟩, ⟨16, 1, .ro, .keep⟩, ⟨12, 3, .ro, .keep⟩, ⟨9, 3, .ro, .keep⟩, ⟨8, 1, .ro, .keep⟩, ⟨4, 2, .ro, .keep⟩, ⟨0, 3, .ro, .keep⟩]⟩,
  ⟨"GLB_STATE_CTL", 0x34, .single, [], 0x0,
    [⟨8, 3, .ro, .keep⟩, ⟨0, 3, .wo, .keep⟩]⟩,
  ⟨"GLB_ACCESS_ERR", 0x40, .single, [], 0x0,
    [⟨31, 1, .w1c, .keep⟩, ⟨30, 1, .ro, .keep⟩, ⟨25, 3, .ro, .keep⟩, ⟨0, 25, .ro, .keep⟩]⟩,
  ⟨"GLB_SCRATCH", 0x50, .single, [⟨0x4, 4⟩], 0x0,
    [⟨0, 32, .rw, .keep⟩]⟩]

def regsCHT : List RegSpec := [
  ⟨"CHT_CTL", 0x100000, .single, [], 0x0,
    [⟨16, 2, .ro, .keep⟩, ⟨8, 4, .ro, .keep⟩, ⟨0, 4, .wo, .keep⟩]⟩,
  ⟨"CHT_STATUS", 0x100004, .single, [], 0x0,
    [⟨16, 1, .w1c, .keep⟩, ⟨12, 4, .ro, .keep⟩, ⟨9, 1, .ro, .keep⟩, ⟨8, 1, .ro, .keep⟩, ⟨4, 2, .ro, .keep⟩, ⟨0, 3, .ro, .keep⟩]⟩,
  ⟨"CHT_ARM_TIME_LO", 0x100010, .lo, [], 0x0,
    [⟨0, 32, .rw, .keep⟩]⟩,
  ⟨"CHT_ARM_TIME_HI", 0x100014, .hi, [], 0x0,
    [⟨0, 16, .rw, .keep⟩]⟩,
  ⟨"CHT_DOWNBEAT_LO", 0x100018, .lo, [], 0x0,
    [⟨0, 32, .ro, .keep⟩]⟩,
  ⟨"CHT_DOWNBEAT_HI", 0x10001C, .hi, [], 0x0,
    [⟨0, 16, .ro, .keep⟩]⟩,
  ⟨"CHT_SWAP_DRAIN", 0x100020, .single, [], 0x64,
    [⟨0, 10, .rw, (.within 0 1000)⟩]⟩,
  ⟨"CHT_ERR", 0x100030, .single, [], 0x0,
    [⟨31, 1, .w1c, .keep⟩, ⟨16, 8, .ro, .keep⟩, ⟨0, 8, .ro, .keep⟩]⟩,
  ⟨"CHT_ERR_DETAIL", 0x100034, .single, [], 0x0,
    [⟨0, 32, .ro, .keep⟩]⟩,
  ⟨"CHT_DIFF", 0x100038, .single, [], 0x0,
    [⟨1, 18, .ro, .keep⟩]⟩,
  ⟨"CHT_ACT_ID_LO", 0x100040, .lo, [], 0x0,
    [⟨0, 32, .ro, .keep⟩]⟩,
  ⟨"CHT_ACT_ID_HI", 0x100044, .hi, [], 0x0,
    [⟨0, 32, .ro, .keep⟩]⟩,
  ⟨"CHT_ACT_COUNTER", 0x100048, .single, [], 0x0,
    [⟨0, 32, .ro, .keep⟩]⟩,
  ⟨"CHT_SHD_ID_LO", 0x100050, .lo, [], 0x0,
    [⟨0, 32, .ro, .keep⟩]⟩,
  ⟨"CHT_SHD_ID_HI", 0x100054, .hi, [], 0x0,
    [⟨0, 32, .ro, .keep⟩]⟩,
  ⟨"CHT_SHD_COUNTER", 0x100058, .single, [], 0x0,
    [⟨0, 32, .ro, .keep⟩]⟩,
  ⟨"CHT_FLOOR", 0x100060, .single, [], 0x0,
    [⟨0, 32, .rw, .keep⟩]⟩,
  ⟨"CHT_SWAP_FLUSH_CNT", 0x100070, .single, [], 0x0,
    [⟨0, 32, .rc, .keep⟩]⟩,
  ⟨"CHT_SWAP_UNPLACED_CNT", 0x100074, .single, [], 0x0,
    [⟨0, 32, .rc, .keep⟩]⟩]

def regsETH : List RegSpec := [
  ⟨"ETH_CFG", 0x1300000, .single, [⟨0x8000, 24⟩], 0x0,
    [⟨18, 14, .ch, .keep⟩, ⟨16, 2, .ch, .keep⟩, ⟨11, 1, .ch, .keep⟩, ⟨10, 1, .ch, .keep⟩, ⟨9, 1, .ch, .keep⟩, ⟨8, 1, .ch, .keep⟩, ⟨0, 8, .ch, .keep⟩]⟩,
  ⟨"ETH_CTL", 0x1300004, .single, [⟨0x8000, 24⟩], 0xC828280,
    [⟨22, 10, .rw, (.within 0 1000)⟩, ⟨14, 8, .rw, .keep⟩, ⟨6, 8, .rw, (.within 1 128)⟩, ⟨0, 1, .rw, .keep⟩]⟩,
  ⟨"ETH_STATUS", 0x1300008, .single, [⟨0x8000, 24⟩], 0x0,
    [⟨15, 1, .ro, .keep⟩, ⟨14, 1, .ro, .keep⟩, ⟨12, 2, .ro, .keep⟩, ⟨8, 3, .ro, .keep⟩, ⟨4, 1, .ro, .keep⟩, ⟨3, 1, .ro, .keep⟩, ⟨2, 1, .ro, .keep⟩, ⟨1, 1, .ro, .keep⟩, ⟨0, 1, .ro, .keep⟩]⟩,
  ⟨"ETH_EVT", 0x130000C, .single, [⟨0x8000, 24⟩], 0x0,
    [⟨6, 1, .w1c, .keep⟩, ⟨5, 1, .w1c, .keep⟩, ⟨4, 1, .w1c, .keep⟩, ⟨3, 1, .w1c, .keep⟩, ⟨2, 1, .w1c, .keep⟩, ⟨1, 1, .w1c, .keep⟩, ⟨0, 1, .w1c, .keep⟩]⟩,
  ⟨"ETH_EVT_EN", 0x1300010, .single, [⟨0x8000, 24⟩], 0x0,
    [⟨0, 7, .rw, .keep⟩]⟩,
  ⟨"ETH_RX_FRAMES_CNT_LO", 0x1300100, .lo, [⟨0x8000, 24⟩], 0x0,
    [⟨0, 32, .ro, .keep⟩]⟩,
  ⟨"ETH_RX_FRAMES_CNT_HI", 0x1300104, .hi, [⟨0x8000, 24⟩], 0x0,
    [⟨0, 32, .ro, .keep⟩]⟩,
  ⟨"ETH_RX_BYTES_CNT_LO", 0x1300108, .lo, [⟨0x8000, 24⟩], 0x0,
    [⟨0, 32, .ro, .keep⟩]⟩,
  ⟨"ETH_RX_BYTES_CNT_HI", 0x130010C, .hi, [⟨0x8000, 24⟩], 0x0,
    [⟨0, 32, .ro, .keep⟩]⟩,
  ⟨"ETH_TX_FRAMES_CNT_LO", 0x1300110, .lo, [⟨0x8000, 24⟩], 0x0,
    [⟨0, 32, .ro, .keep⟩]⟩,
  ⟨"ETH_TX_FRAMES_CNT_HI", 0x1300114, .hi, [⟨0x8000, 24⟩], 0x0,
    [⟨0, 32, .ro, .keep⟩]⟩,
  ⟨"ETH_TX_BYTES_CNT_LO", 0x1300118, .lo, [⟨0x8000, 24⟩], 0x0,
    [⟨0, 32, .ro, .keep⟩]⟩,
  ⟨"ETH_TX_BYTES_CNT_HI", 0x130011C, .hi, [⟨0x8000, 24⟩], 0x0,
    [⟨0, 32, .ro, .keep⟩]⟩,
  ⟨"ETH_RX_FCS_ERR_CNT", 0x1300120, .single, [⟨0x8000, 24⟩], 0x0,
    [⟨0, 32, .rc, .keep⟩]⟩,
  ⟨"ETH_RX_RUNT_CNT", 0x1300124, .single, [⟨0x8000, 24⟩], 0x0,
    [⟨0, 32, .rc, .keep⟩]⟩,
  ⟨"ETH_RX_OVERSIZE_CNT", 0x1300128, .single, [⟨0x8000, 24⟩], 0x0,
    [⟨0, 32, .rc, .keep⟩]⟩,
  ⟨"ETH_RX_CTRL_CNT", 0x130012C, .single, [⟨0x8000, 24⟩], 0x0,
    [⟨0, 32, .rc, .keep⟩]⟩,
  ⟨"ETH_RX_FRAG_ERR_CNT", 0x1300130, .single, [⟨0x8000, 24⟩], 0x0,
    [⟨0, 32, .rc, .keep⟩]⟩,
  ⟨"ETH_TX_ABORT_CNT", 0x1300134, .single, [⟨0x8000, 24⟩], 0x0,
    [⟨0, 32, .rc, .keep⟩]⟩,
  ⟨"ETH_TX_FRAG_CNT", 0x1300138, .single, [⟨0x8000, 24⟩], 0x0,
    [⟨0, 32, .rc, .keep⟩]⟩,
  ⟨"ETH_DOWN_DROP_CNT", 0x130013C, .single, [⟨0x8000, 24⟩], 0x0,
    [⟨0, 32, .rc, .keep⟩]⟩,
  ⟨"ETH_HOLD_FLUSH_CNT", 0x1300140, .single, [⟨0x8000, 24⟩], 0x0,
    [⟨0, 32, .rc, .keep⟩]⟩]

def regsT1S : List RegSpec := [
  ⟨"T1S_CFG", 0x1400000, .single, [⟨0x10000, 8⟩], 0x0,
    [⟨24, 8, .ch, .keep⟩, ⟨16, 8, .ch, .keep⟩, ⟨11, 5, .ch, .keep⟩, ⟨4, 4, .ch, .keep⟩, ⟨0, 1, .ch, .keep⟩]⟩,
  ⟨"T1S_CFG2", 0x1400004, .single, [⟨0x10000, 8⟩], 0x0,
    [⟨16, 8, .ch, .keep⟩, ⟨0, 11, .ch, .keep⟩]⟩,
  ⟨"T1S_CTL", 0x1400008, .single, [⟨0x10000, 8⟩], 0xC828000,
    [⟨22, 10, .rw, (.within 0 1000)⟩, ⟨14, 8, .rw, .keep⟩, ⟨0, 1, .rw, .keep⟩]⟩,
  ⟨"T1S_STATUS", 0x140000C, .single, [⟨0x10000, 8⟩], 0x0,
    [⟨5, 1, .ro, .keep⟩, ⟨4, 1, .ro, .keep⟩, ⟨3, 1, .ro, .keep⟩, ⟨2, 1, .ro, .keep⟩, ⟨1, 1, .ro, .keep⟩, ⟨0, 1, .ro, .keep⟩]⟩,
  ⟨"T1S_EVT", 0x1400010, .single, [⟨0x10000, 8⟩], 0x0,
    [⟨4, 1, .w1c, .keep⟩, ⟨3, 1, .w1c, .keep⟩, ⟨2, 1, .w1c, .keep⟩, ⟨1, 1, .w1c, .keep⟩, ⟨0, 1, .w1c, .keep⟩]⟩,
  ⟨"T1S_EVT_EN", 0x1400014, .single, [⟨0x10000, 8⟩], 0x0,
    [⟨0, 5, .rw, .keep⟩]⟩,
  ⟨"T1S_RX_FRAMES_CNT", 0x1400100, .single, [⟨0x10000, 8⟩], 0x0,
    [⟨0, 32, .ro, .keep⟩]⟩,
  ⟨"T1S_TX_FRAMES_CNT", 0x1400104, .single, [⟨0x10000, 8⟩], 0x0,
    [⟨0, 32, .ro, .keep⟩]⟩,
  ⟨"T1S_RX_ERR_CNT", 0x1400108, .single, [⟨0x10000, 8⟩], 0x0,
    [⟨0, 32, .rc, .keep⟩]⟩,
  ⟨"T1S_CONFLICT_CNT", 0x140010C, .single, [⟨0x10000, 8⟩], 0x0,
    [⟨0, 32, .rc, .keep⟩]⟩,
  ⟨"T1S_TX_ABORT_CNT", 0x1400110, .single, [⟨0x10000, 8⟩], 0x0,
    [⟨0, 32, .rc, .keep⟩]⟩,
  ⟨"T1S_DOWN_DROP_CNT", 0x1400114, .single, [⟨0x10000, 8⟩], 0x0,
    [⟨0, 32, .rc, .keep⟩]⟩,
  ⟨"T1S_HOLD_FLUSH_CNT", 0x1400118, .single, [⟨0x10000, 8⟩], 0x0,
    [⟨0, 32, .rc, .keep⟩]⟩]

def regsPRS : List RegSpec := [
  ⟨"PRS_CFG", 0x800000, .single, [⟨0x80000, 2⟩], 0x0,
    [⟨17, 1, .ch, .keep⟩, ⟨16, 1, .ch, .keep⟩, ⟨8, 8, .ch, .keep⟩, ⟨0, 8, .ch, .keep⟩]⟩,
  ⟨"PRS_EXC_RATE", 0x800010, .single, [⟨0x80000, 2⟩], 0x4E20,
    [⟨0, 20, .mw, (.within 0 1000000)⟩]⟩,
  ⟨"PRS_EXC_BURST", 0x800014, .single, [⟨0x80000, 2⟩], 0x100,
    [⟨0, 13, .mw, (.within 1 4096)⟩]⟩,
  ⟨"PRS_EXC_LEVEL", 0x800018, .single, [⟨0x80000, 2⟩], 0x100,
    [⟨0, 13, .ro, .keep⟩]⟩,
  ⟨"PRS_LAST_ERR", 0x800020, .single, [⟨0x80000, 2⟩], 0x0,
    [⟨31, 1, .w1c, .keep⟩, ⟨24, 2, .ro, .keep⟩, ⟨16, 7, .ro, .keep⟩, ⟨12, 4, .ro, .keep⟩, ⟨8, 4, .ro, .keep⟩, ⟨0, 8, .ro, .keep⟩]⟩,
  ⟨"PRS_FRAG_STATUS", 0x800030, .single, [⟨0x80000, 2⟩], 0x0,
    [⟨0, 11, .ro, .keep⟩]⟩,
  ⟨"PRS_EVT", 0x800040, .single, [⟨0x80000, 2⟩], 0x0,
    [⟨2, 1, .w1c, .keep⟩, ⟨1, 1, .w1c, .keep⟩, ⟨0, 1, .w1c, .keep⟩]⟩,
  ⟨"PRS_EVT_EN", 0x800044, .single, [⟨0x80000, 2⟩], 0x0,
    [⟨0, 3, .mw, .keep⟩]⟩,
  ⟨"PRS_PARSE_DEPTH_CNT", 0x800100, .single, [⟨0x80000, 2⟩], 0x0,
    [⟨0, 32, .rc, .keep⟩]⟩,
  ⟨"PRS_PARSE_LEN_CNT", 0x800104, .single, [⟨0x80000, 2⟩], 0x0,
    [⟨0, 32, .rc, .keep⟩]⟩,
  ⟨"PRS_PARSE_DROP_CNT", 0x800108, .single, [⟨0x80000, 2⟩], 0x0,
    [⟨0, 32, .rc, .keep⟩]⟩,
  ⟨"PRS_EXC_SENT_CNT", 0x80010C, .single, [⟨0x80000, 2⟩], 0x0,
    [⟨0, 32, .rc, .keep⟩]⟩,
  ⟨"PRS_EXC_LIMIT_DROP_CNT", 0x800110, .single, [⟨0x80000, 2⟩], 0x0,
    [⟨0, 32, .rc, .keep⟩]⟩,
  ⟨"PRS_FRAG_INSERT_CNT", 0x800114, .single, [⟨0x80000, 2⟩], 0x0,
    [⟨0, 32, .rc, .keep⟩]⟩,
  ⟨"PRS_FRAG_HIT_CNT", 0x800118, .single, [⟨0x80000, 2⟩], 0x0,
    [⟨0, 32, .rc, .keep⟩]⟩,
  ⟨"PRS_FRAG_OUTER_CNT", 0x80011C, .single, [⟨0x80000, 2⟩], 0x0,
    [⟨0, 32, .rc, .keep⟩]⟩,
  ⟨"PRS_FRAG_FULL_CNT", 0x800120, .single, [⟨0x80000, 2⟩], 0x0,
    [⟨0, 32, .rc, .keep⟩]⟩,
  ⟨"PRS_FRAG_AGED_CNT", 0x800124, .single, [⟨0x80000, 2⟩], 0x0,
    [⟨0, 32, .rc, .keep⟩]⟩,
  ⟨"PRS_INDIR", 0x810000, .single, [⟨0x80000, 2⟩, ⟨0x80, 168⟩, ⟨0x4, 32⟩], 0x0,
    [⟨24, 6, .mw, .keep⟩, ⟨16, 6, .mw, .keep⟩, ⟨8, 6, .mw, .keep⟩, ⟨0, 6, .mw, .keep⟩]⟩]

def regsTBL : List RegSpec := [
  ⟨"TBL_CMD", 0x900000, .single, [⟨0x80000, 2⟩], 0x0,
    [⟨31, 1, .ro, .keep⟩, ⟨20, 4, .ro, .keep⟩, ⟨16, 1, .wo, .keep⟩, ⟨15, 1, .wo, .keep⟩, ⟨10, 5, .wo, .keep⟩, ⟨8, 1, .wo, .keep⟩, ⟨0, 4, .wo, .keep⟩]⟩,
  ⟨"TBL_CMD_ARG", 0x900004, .single, [⟨0x80000, 2⟩], 0x0,
    [⟨0, 32, .rw, .keep⟩]⟩,
  ⟨"TBL_CMD_LOC", 0x900008, .single, [⟨0x80000, 2⟩], 0x0,
    [⟨31, 1, .ro, .keep⟩, ⟨2, 22, .rw, .keep⟩, ⟨0, 2, .rw, .keep⟩]⟩,
  ⟨"TBL_SLOT_STATUS", 0x90000C, .single, [⟨0x80000, 2⟩], 0x0,
    [⟨0, 16, .rw, .keep⟩]⟩,
  ⟨"TBL_KEY", 0x900010, .single, [⟨0x80000, 2⟩, ⟨0x4, 10⟩], 0x0,
    [⟨0, 32, .rw, .keep⟩]⟩,
  ⟨"TBL_RES_LO", 0x900038, .lo, [⟨0x80000, 2⟩], 0x0,
    [⟨0, 32, .rw, .keep⟩]⟩,
  ⟨"TBL_RES_HI", 0x90003C, .hi, [⟨0x80000, 2⟩], 0x0,
    [⟨0, 32, .rw, .keep⟩]⟩,
  ⟨"TBL_LEARN_CTL", 0x900040, .single, [⟨0x80000, 2⟩], 0x12C3E840,
    [⟨20, 12, .mw, .keep⟩, ⟨8, 12, .mw, (.within 1 4095)⟩, ⟨4, 4, .mw, (.within 1 15)⟩, ⟨0, 1, .mw, .keep⟩]⟩,
  ⟨"TBL_LEARN_PORT", 0x900050, .single, [⟨0x80000, 2⟩, ⟨0x4, 8⟩], 0x0,
    [⟨0, 32, .mw, .keep⟩]⟩,
  ⟨"TBL_LPM_STAT", 0x900080, .single, [⟨0x80000, 2⟩], 0x0,
    [⟨31, 1, .ro, .keep⟩, ⟨30, 1, .ro, .keep⟩, ⟨0, 17, .ro, .keep⟩]⟩,
  ⟨"TBL_PAR_ERR", 0x900090, .single, [⟨0x80000, 2⟩], 0x0,
    [⟨31, 1, .w1c, .keep⟩, ⟨30, 1, .ro, .keep⟩, ⟨29, 1, .ro, .keep⟩, ⟨28, 1, .ro, .keep⟩, ⟨26, 2, .ro, .keep⟩, ⟨25, 1, .ro, .keep⟩, ⟨0, 25, .ro, .keep⟩]⟩,
  ⟨"TBL_EVT", 0x9000A0, .single, [⟨0x80000, 2⟩], 0x0,
    [⟨9, 1, .w1c, .keep⟩, ⟨8, 1, .w1c, .keep⟩, ⟨7, 1, .w1c, .keep⟩, ⟨6, 1, .w1c, .keep⟩, ⟨5, 1, .w1c, .keep⟩, ⟨4, 1, .w1c, .keep⟩, ⟨3, 1, .w1c, .keep⟩, ⟨2, 1, .w1c, .keep⟩, ⟨1, 1, .w1c, .keep⟩, ⟨0, 1, .w1c, .keep⟩]⟩,
  ⟨"TBL_EVT_EN", 0x9000A4, .single, [⟨0x80000, 2⟩], 0x0,
    [⟨0, 10, .mw, .keep⟩]⟩,
  ⟨"TBL_PAR_ERR_CNT", 0x900100, .single, [⟨0x80000, 2⟩], 0x0,
    [⟨0, 32, .rc, .keep⟩]⟩,
  ⟨"TBL_PAR_REPAIR_CNT", 0x900104, .single, [⟨0x80000, 2⟩], 0x0,
    [⟨0, 32, .rc, .keep⟩]⟩,
  ⟨"TBL_PAR_BOTH_CNT", 0x900108, .single, [⟨0x80000, 2⟩], 0x0,
    [⟨0, 32, .rc, .keep⟩]⟩,
  ⟨"TBL_LEARN_CNT", 0x90010C, .single, [⟨0x80000, 2⟩], 0x0,
    [⟨0, 32, .rc, .keep⟩]⟩,
  ⟨"TBL_LEARN_MOVE_CNT", 0x900110, .single, [⟨0x80000, 2⟩], 0x0,
    [⟨0, 32, .rc, .keep⟩]⟩,
  ⟨"TBL_LEARN_Q_DROP_CNT", 0x900114, .single, [⟨0x80000, 2⟩], 0x0,
    [⟨0, 32, .rc, .keep⟩]⟩,
  ⟨"TBL_LEARN_STATIC_CNT", 0x900118, .single, [⟨0x80000, 2⟩], 0x0,
    [⟨0, 32, .rc, .keep⟩]⟩,
  ⟨"TBL_LEARN_LOCKED_CNT", 0x90011C, .single, [⟨0x80000, 2⟩], 0x0,
    [⟨0, 32, .rc, .keep⟩]⟩,
  ⟨"TBL_LEARN_QUOTA_CNT", 0x900120, .single, [⟨0x80000, 2⟩], 0x0,
    [⟨0, 32, .rc, .keep⟩]⟩,
  ⟨"TBL_LEARN_FAIL_CNT", 0x900124, .single, [⟨0x80000, 2⟩], 0x0,
    [⟨0, 32, .rc, .keep⟩]⟩,
  ⟨"TBL_AGED_CNT", 0x900128, .single, [⟨0x80000, 2⟩], 0x0,
    [⟨0, 32, .rc, .keep⟩]⟩,
  ⟨"TBL_FLAP_LOCK_CNT", 0x90012C, .single, [⟨0x80000, 2⟩], 0x0,
    [⟨0, 32, .rc, .keep⟩]⟩]

def regsTBL1 : List RegSpec := [
  ⟨"TBL_PARK_CNT", 0x900130, .single, [⟨0x80000, 2⟩], 0x0,
    [⟨0, 32, .rc, .keep⟩]⟩,
  ⟨"TBL_PAGE_EVICT_CNT", 0x900134, .single, [⟨0x80000, 2⟩], 0x0,
    [⟨0, 32, .rc, .keep⟩]⟩,
  ⟨"TBL_PAGE_BUSY_CNT", 0x900138, .single, [⟨0x80000, 2⟩], 0x0,
    [⟨0, 32, .rc, .keep⟩]⟩,
  ⟨"TBL_PAGE_NOFRAME_CNT", 0x90013C, .single, [⟨0x80000, 2⟩], 0x0,
    [⟨0, 32, .rc, .keep⟩]⟩,
  ⟨"TBL_PAGE_ERR_CNT", 0x900140, .single, [⟨0x80000, 2⟩], 0x0,
    [⟨0, 32, .rc, .keep⟩]⟩,
  ⟨"TBL_PIN_DENIED_CNT", 0x900144, .single, [⟨0x80000, 2⟩], 0x0,
    [⟨0, 32, .rc, .keep⟩]⟩,
  ⟨"TBL_REHASH_PROBE_CNT", 0x900148, .single, [⟨0x80000, 2⟩], 0x0,
    [⟨0, 32, .rc, .keep⟩]⟩,
  ⟨"TBL_LPM_BLOOM_FP_CNT", 0x90014C, .single, [⟨0x80000, 2⟩], 0x0,
    [⟨0, 32, .rc, .keep⟩]⟩,
  ⟨"TBL_REG_STAT", 0x900200, .single, [⟨0x80000, 2⟩, ⟨0x8, 16⟩], 0x0,
    [⟨30, 2, .ro, .keep⟩, ⟨0, 25, .ro, .keep⟩]⟩,
  ⟨"TBL_REG_SEED", 0x900204, .single, [⟨0x80000, 2⟩, ⟨0x8, 16⟩], 0x0,
    [⟨0, 32, .ro, .keep⟩]⟩]


def regsMEM : List RegSpec := [
  ⟨"MEM_STATUS", 0x1A00000, .single, [], 0x0,
    [⟨8, 4, .ro, .keep⟩, ⟨1, 1, .ro, .keep⟩, ⟨0, 1, .ro, .keep⟩]⟩,
  ⟨"MEM_ERR", 0x1A00010, .single, [], 0x0,
    [⟨31, 1, .w1c, .keep⟩, ⟨30, 1, .ro, .keep⟩, ⟨28, 2, .ro, .keep⟩, ⟨0, 26, .ro, .keep⟩]⟩,
  ⟨"MEM_EVT", 0x1A00020, .single, [], 0x0,
    [⟨1, 1, .w1c, .keep⟩, ⟨0, 1, .w1c, .keep⟩]⟩,
  ⟨"MEM_EVT_EN", 0x1A00024, .single, [], 0x0,
    [⟨0, 2, .rw, .keep⟩]⟩,
  ⟨"MEM_PAGE_IN_CNT", 0x1A00100, .single, [], 0x0,
    [⟨0, 32, .rc, .keep⟩]⟩,
  ⟨"MEM_CRC_RETRY_CNT", 0x1A00104, .single, [], 0x0,
    [⟨0, 32, .rc, .keep⟩]⟩,
  ⟨"MEM_CRC_ERR_CNT", 0x1A00108, .single, [], 0x0,
    [⟨0, 32, .rc, .keep⟩]⟩]

def regsBPM : List RegSpec := [
  ⟨"BPM_POOL_CFG", 0xA00000, .single, [⟨0x80000, 2⟩, ⟨0x10, 4⟩], 0x0,
    [⟨24, 1, .ch, .keep⟩, ⟨0, 22, .ch, .keep⟩]⟩,
  ⟨"BPM_POOL_RSV", 0xA00004, .single, [⟨0x80000, 2⟩, ⟨0x10, 4⟩], 0x0,
    [⟨0, 22, .ch, .keep⟩]⟩,
  ⟨"BPM_POOL_BASE", 0xA00008, .single, [⟨0x80000, 2⟩, ⟨0x10, 4⟩], 0x0,
    [⟨0, 16, .ch, .keep⟩]⟩,
  ⟨"BPM_POOL_FREE", 0xA00100, .single, [⟨0x80000, 2⟩, ⟨0x10, 4⟩], 0x0,
    [⟨31, 1, .ro, .keep⟩, ⟨0, 22, .ro, .keep⟩]⟩,
  ⟨"BPM_POOL_MINFREE", 0xA00104, .single, [⟨0x80000, 2⟩, ⟨0x10, 4⟩], 0x0,
    [⟨0, 22, .ro, .keep⟩]⟩,
  ⟨"BPM_POOL_LOWMARK", 0xA00108, .single, [⟨0x80000, 2⟩, ⟨0x10, 4⟩], 0x0,
    [⟨0, 22, .mw, .keep⟩]⟩,
  ⟨"BPM_POOL_HEAD", 0xA0010C, .single, [⟨0x80000, 2⟩, ⟨0x10, 4⟩], 0x3FFFFF,
    [⟨0, 32, .ro, .keep⟩]⟩,
  ⟨"BPM_MIN_RESET", 0xA00140, .single, [⟨0x80000, 2⟩], 0x0,
    [⟨0, 4, .wo, .keep⟩]⟩,
  ⟨"BPM_RESLIM_TC", 0xA00200, .single, [⟨0x80000, 2⟩, ⟨0x4, 8⟩], 0xF4240,
    [⟨0, 20, .mw, (.within 100 1000000)⟩]⟩,
  ⟨"BPM_QLIMIT_TC", 0xA00220, .single, [⟨0x80000, 2⟩, ⟨0x4, 8⟩], 0x0,
    [⟨0, 14, .ch, .keep⟩]⟩,
  ⟨"BPM_LIST_ERR", 0xA00300, .single, [⟨0x80000, 2⟩], 0x0,
    [⟨31, 1, .w1c, .keep⟩, ⟨30, 1, .ro, .keep⟩, ⟨22, 2, .ro, .keep⟩, ⟨0, 22, .ro, .keep⟩]⟩,
  ⟨"BPM_REPL_STAT", 0xA00310, .single, [⟨0x80000, 2⟩], 0x0,
    [⟨0, 10, .ro, .keep⟩]⟩,
  ⟨"BPM_EVT", 0xA00400, .single, [⟨0x80000, 2⟩], 0x0,
    [⟨4, 1, .w1c, .keep⟩, ⟨3, 1, .w1c, .keep⟩, ⟨2, 1, .w1c, .keep⟩, ⟨1, 1, .w1c, .keep⟩, ⟨0, 1, .w1c, .keep⟩]⟩,
  ⟨"BPM_EVT_EN", 0xA00404, .single, [⟨0x80000, 2⟩], 0x0,
    [⟨0, 5, .mw, .keep⟩]⟩,
  ⟨"BPM_EMPTY_CNT", 0xA00500, .single, [⟨0x80000, 2⟩, ⟨0x4, 4⟩], 0x0,
    [⟨0, 32, .rc, .keep⟩]⟩,
  ⟨"BPM_SPILL_CNT", 0xA00510, .single, [⟨0x80000, 2⟩, ⟨0x4, 4⟩], 0x0,
    [⟨0, 32, .rc, .keep⟩]⟩,
  ⟨"BPM_PROMOTE_CNT", 0xA00520, .single, [⟨0x80000, 2⟩], 0x0,
    [⟨0, 32, .rc, .keep⟩]⟩,
  ⟨"BPM_ADMIT_DROP_CNT", 0xA00524, .single, [⟨0x80000, 2⟩], 0x0,
    [⟨0, 32, .rc, .keep⟩]⟩,
  ⟨"BPM_QLIMIT_DROP_CNT", 0xA00528, .single, [⟨0x80000, 2⟩], 0x0,
    [⟨0, 32, .rc, .keep⟩]⟩,
  ⟨"BPM_REPL_FIFO_DROP_CNT", 0xA0052C, .single, [⟨0x80000, 2⟩], 0x0,
    [⟨0, 32, .rc, .keep⟩]⟩,
  ⟨"BPM_COPIES_CNT", 0xA00530, .single, [⟨0x80000, 2⟩], 0x0,
    [⟨0, 32, .rc, .keep⟩]⟩,
  ⟨"BPM_RES_DISCARD_CNT", 0xA00540, .single, [⟨0x80000, 2⟩, ⟨0x4, 8⟩], 0x0,
    [⟨0, 32, .rc, .keep⟩]⟩,
  ⟨"BPM_MC_COPY_DROP_CNT", 0xA01000, .single, [⟨0x80000, 2⟩, ⟨0x4, 256⟩], 0x0,
    [⟨0, 32, .rc, .keep⟩]⟩,
  ⟨"BPM_GROUP", 0xA40000, .single, [⟨0x80000, 2⟩, ⟨0x20, 4096⟩, ⟨0x4, 8⟩], 0x0,
    [⟨0, 32, .mw, .keep⟩]⟩,
  ⟨"BPM_FLOOD", 0xA60000, .single, [⟨0x80000, 2⟩, ⟨0x4, 4096⟩], 0x0,
    [⟨0, 12, .mw, .keep⟩]⟩]

def regsCAP : List RegSpec := [
  ⟨"CAP_CTL", 0x1900000, .single, [], 0x0,
    [⟨4, 2, .rw, .keep⟩, ⟨2, 1, .rw, .keep⟩, ⟨1, 1, .rw, .keep⟩, ⟨0, 1, .rw, .keep⟩]⟩,
  ⟨"CAP_HEAD", 0x1900004, .single, [], 0x0,
    [⟨0, 30, .ro, .keep⟩]⟩,
  ⟨"CAP_TAIL", 0x1900008, .single, [], 0x0,
    [⟨0, 30, .rw, .keep⟩]⟩,
  ⟨"CAP_WMARK", 0x190000C, .single, [], 0x0,
    [⟨0, 30, .rw, .keep⟩]⟩,
  ⟨"CAP_AREA_BASE", 0x1900010, .single, [], 0x0,
    [⟨0, 17, .ch, .keep⟩]⟩,
  ⟨"CAP_AREA_SIZE", 0x1900014, .single, [], 0x0,
    [⟨0, 15, .ch, .keep⟩]⟩,
  ⟨"CAP_RULE_CFG", 0x1900100, .single, [⟨0x10, 16⟩], 0x0,
    [⟨31, 1, .rw, .keep⟩, ⟨29, 2, .rw, .keep⟩, ⟨28, 1, .rw, .keep⟩, ⟨16, 8, .rw, .keep⟩, ⟨8, 8, .rw, .keep⟩, ⟨0, 8, .rw, (.within 0 128)⟩]⟩,
  ⟨"CAP_RULE_SEL", 0x1900104, .single, [⟨0x10, 16⟩], 0x0,
    [⟨31, 1, .rw, .keep⟩, ⟨16, 12, .rw, .keep⟩, ⟨0, 4, .rw, .keep⟩]⟩,
  ⟨"CAP_RULE_CNT", 0x1900108, .single, [⟨0x10, 16⟩], 0x0,
    [⟨0, 32, .rc, .keep⟩]⟩,
  ⟨"CAP_EVT", 0x1900200, .single, [], 0x0,
    [⟨2, 1, .w1c, .keep⟩, ⟨1, 1, .w1c, .keep⟩, ⟨0, 1, .w1c, .keep⟩]⟩,
  ⟨"CAP_EVT_EN", 0x1900204, .single, [], 0x0,
    [⟨0, 3, .rw, .keep⟩]⟩,
  ⟨"CAP_RECORD_CNT", 0x1900300, .single, [], 0x0,
    [⟨0, 32, .ro, .keep⟩]⟩,
  ⟨"CAP_DROP_CNT", 0x1900304, .single, [], 0x0,
    [⟨0, 32, .rc, .keep⟩]⟩,
  ⟨"CAP_BUSY_CNT", 0x1900308, .single, [], 0x0,
    [⟨0, 32, .rc, .keep⟩]⟩,
  ⟨"CAP_IF2_DROP_CNT", 0x190030C, .single, [], 0x0,
    [⟨0, 32, .rc, .keep⟩]⟩]

def regsPLC : List RegSpec := [
  ⟨"PLC_CTL", 0xE00000, .single, [], 0x1,
    [⟨1, 1, .rw, .keep⟩, ⟨0, 1, .rw, .keep⟩]⟩,
  ⟨"PLC_BAL", 0xE00004, .single, [], 0x4004040,
    [⟨20, 8, .rw, (.within 1 255)⟩, ⟨10, 10, .rw, .keep⟩, ⟨0, 10, .rw, .keep⟩]⟩,
  ⟨"PLC_MIN_LOAD", 0xE00008, .single, [], 0x4E2,
    [⟨0, 20, .rw, .keep⟩]⟩,
  ⟨"PLC_DWELL", 0xE0000C, .single, [], 0xA,
    [⟨0, 8, .rw, (.within 2 255)⟩]⟩,
  ⟨"PLC_QPL_CFG", 0xE00010, .single, [], 0x3208040,
    [⟨20, 10, .rw, (.within 0 1000)⟩, ⟨10, 10, .rw, .keep⟩, ⟨0, 10, .rw, (.within 1 1023)⟩]⟩,
  ⟨"PLC_PAGE_CFG", 0xE00014, .single, [], 0x4,
    [⟨0, 8, .rw, .keep⟩]⟩,
  ⟨"PLC_STATUS", 0xE00020, .single, [], 0x0,
    [⟨31, 1, .ro, .keep⟩, ⟨30, 1, .ro, .keep⟩, ⟨16, 11, .ro, .keep⟩, ⟨0, 9, .ro, .keep⟩]⟩,
  ⟨"PLC_BUCKETS_A", 0xE00024, .single, [], 0x10000,
    [⟨0, 17, .ro, .keep⟩]⟩,
  ⟨"PLC_LOAD_A", 0xE00028, .single, [], 0x0,
    [⟨0, 32, .ro, .keep⟩]⟩,
  ⟨"PLC_LOAD_B", 0xE0002C, .single, [], 0x0,
    [⟨0, 32, .ro, .keep⟩]⟩,
  ⟨"PLC_CURSOR", 0xE00030, .single, [], 0x0,
    [⟨0, 16, .ro, .keep⟩]⟩,
  ⟨"PLC_EVT", 0xE00040, .single, [], 0x0,
    [⟨2, 1, .w1c, .keep⟩, ⟨1, 1, .w1c, .keep⟩, ⟨0, 1, .w1c, .keep⟩]⟩,
  ⟨"PLC_EVT_EN", 0xE00044, .single, [], 0x0,
    [⟨0, 3, .rw, .keep⟩]⟩,
  ⟨"PLC_MOVE_CNT", 0xE00100, .single, [], 0x0,
    [⟨0, 32, .rc, .keep⟩]⟩,
  ⟨"PLC_NO_CTX_CNT", 0xE00104, .single, [], 0x0,
    [⟨0, 32, .rc, .keep⟩]⟩,
  ⟨"PLC_FAILOVER_MOVE_CNT", 0xE00108, .single, [], 0x0,
    [⟨0, 32, .rc, .keep⟩]⟩,
  ⟨"PLC_QPL_MOVE_CNT", 0xE0010C, .single, [], 0x0,
    [⟨0, 32, .rc, .keep⟩]⟩,
  ⟨"PLC_QPL_CONFLICT_CNT", 0xE00110, .single, [], 0x0,
    [⟨0, 32, .rc, .keep⟩]⟩,
  ⟨"PLC_QPL_EN", 0xE00200, .single, [⟨0x4, 6⟩], 0x0,
    [⟨0, 32, .rw, .keep⟩]⟩,
  ⟨"PLC_CPH_MASK_LO", 0xE00220, .lo, [], 0xFFFFFFFF,
    [⟨0, 32, .rw, .keep⟩]⟩,
  ⟨"PLC_CPH_MASK_HI", 0xE00224, .hi, [], 0xFFFFFFFF,
    [⟨0, 32, .rw, .keep⟩]⟩,
  ⟨"PLC_GH_MASK", 0xE00228, .single, [], 0xFF,
    [⟨0, 8, .rw, .keep⟩]⟩,
  ⟨"PLC_QPL_MASK_LO", 0xE01000, .lo, [⟨0x8, 168⟩], 0x0,
    [⟨0, 32, .rw, .keep⟩]⟩,
  ⟨"PLC_QPL_MASK_HI", 0xE01004, .hi, [⟨0x8, 168⟩], 0x0,
    [⟨0, 32, .rw, .keep⟩]⟩,
  ⟨"PLC_BUCKET", 0xE10000, .single, [⟨0x4, 65536⟩], 0x0,
    [⟨31, 1, .ro, .keep⟩, ⟨30, 1, .ro, .keep⟩, ⟨29, 1, .rw, .keep⟩, ⟨28, 1, .rw, .keep⟩, ⟨27, 1, .ro, .keep⟩, ⟨0, 24, .ro, .keep⟩]⟩]

def regsFRE : List RegSpec := [
  ⟨"FRE_RSQ_HOLD", 0xD07000, .single, [⟨0x80000, 2⟩], 0x14,
    [⟨0, 10, .mw, (.within 1 1000)⟩]⟩,
  ⟨"FRE_RSQ_CFG", 0xD07004, .single, [⟨0x80000, 2⟩], 0x400,
    [⟨0, 13, .mw, (.within 1 4096)⟩]⟩,
  ⟨"FRE_RSQ_STATUS", 0xD07008, .single, [⟨0x80000, 2⟩], 0x0,
    [⟨0, 20, .ro, .keep⟩]⟩,
  ⟨"FRE_RSQ_EVT", 0xD07010, .single, [⟨0x80000, 2⟩], 0x0,
    [⟨1, 1, .w1c, .keep⟩, ⟨0, 1, .w1c, .keep⟩]⟩,
  ⟨"FRE_RSQ_EVT_EN", 0xD07014, .single, [⟨0x80000, 2⟩], 0x0,
    [⟨0, 2, .mw, .keep⟩]⟩,
  ⟨"FRE_RSQ_TIMEOUT_CNT", 0xD07100, .single, [⟨0x80000, 2⟩], 0x0,
    [⟨0, 32, .rc, .keep⟩]⟩,
  ⟨"FRE_RSQ_OVF_CNT", 0xD07104, .single, [⟨0x80000, 2⟩], 0x0,
    [⟨0, 32, .rc, .keep⟩]⟩,
  ⟨"FRE_RSQ_ABANDON_CNT", 0xD07108, .single, [⟨0x80000, 2⟩], 0x0,
    [⟨0, 32, .rc, .keep⟩]⟩,
  ⟨"FRE_RSQ_HELD_CNT", 0xD0710C, .single, [⟨0x80000, 2⟩], 0x0,
    [⟨0, 32, .rc, .keep⟩]⟩,
  ⟨"FRE_RSQ_MARKER_CNT", 0xD07110, .single, [⟨0x80000, 2⟩], 0x0,
    [⟨0, 32, .rc, .keep⟩]⟩,
  ⟨"FRE_RSQ_CTX", 0xD07400, .single, [⟨0x80000, 2⟩, ⟨0x8, 256⟩], 0x0,
    [⟨31, 1, .ro, .keep⟩, ⟨30, 1, .ro, .keep⟩, ⟨24, 4, .ro, .keep⟩, ⟨0, 16, .ro, .keep⟩]⟩,
  ⟨"FRE_RSQ_CTX_SEQ", 0xD07404, .single, [⟨0x80000, 2⟩, ⟨0x8, 256⟩], 0x0,
    [⟨16, 16, .ro, .keep⟩, ⟨0, 13, .ro, .keep⟩]⟩,
  ⟨"FRE_EVT", 0xD00040, .single, [⟨0x80000, 2⟩], 0x0,
    [⟨1, 1, .w1c, .keep⟩, ⟨0, 1, .w1c, .keep⟩]⟩,
  ⟨"FRE_EVT_EN", 0xD00044, .single, [⟨0x80000, 2⟩], 0x0,
    [⟨0, 2, .mw, .keep⟩]⟩,
  ⟨"FRE_TWIN_ELIM_CNT", 0xD00100, .single, [⟨0x80000, 2⟩], 0x0,
    [⟨0, 32, .rc, .keep⟩]⟩,
  ⟨"FRE_GEN_CNT", 0xD00104, .single, [⟨0x80000, 2⟩], 0x0,
    [⟨0, 32, .rc, .keep⟩]⟩,
  ⟨"FRE_RTAG_INSERT_CNT", 0xD00108, .single, [⟨0x80000, 2⟩], 0x0,
    [⟨0, 32, .rc, .keep⟩]⟩,
  ⟨"FRE_GEN", 0xD08000, .single, [⟨0x80000, 2⟩, ⟨0x4, 2048⟩], 0x0,
    [⟨0, 16, .mw, .keep⟩]⟩,
  ⟨"FRE_MAP", 0xD10000, .single, [⟨0x80000, 2⟩, ⟨0x4, 4096⟩], 0x0,
    [⟨31, 1, .ch, .keep⟩, ⟨16, 11, .ch, .keep⟩, ⟨15, 1, .ch, .keep⟩, ⟨0, 11, .ch, .keep⟩]⟩,
  ⟨"FRE_REC_CFG", 0xD20000, .single, [⟨0x80000, 2⟩, ⟨0x20, 2048⟩], 0x0,
    [⟨31, 1, .ch, .keep⟩, ⟨30, 1, .ch, .keep⟩, ⟨29, 1, .ch, .keep⟩, ⟨16, 11, .ch, .keep⟩, ⟨8, 8, .ch, .keep⟩, ⟨0, 8, .ch, .keep⟩]⟩,
  ⟨"FRE_REC_STATE", 0xD20004, .single, [⟨0x80000, 2⟩, ⟨0x20, 2048⟩], 0x80000000,
    [⟨31, 1, .w1s, .keep⟩, ⟨0, 16, .ro, .keep⟩]⟩,
  ⟨"FRE_REC_TMR", 0xD20008, .single, [⟨0x80000, 2⟩, ⟨0x20, 2048⟩], 0x0,
    [⟨0, 16, .ch, .keep⟩]⟩,
  ⟨"FRE_REC_PASSED", 0xD30000, .single, [⟨0x80000, 2⟩, ⟨0x20, 2048⟩], 0x0,
    [⟨0, 32, .rc, .keep⟩]⟩,
  ⟨"FRE_REC_DISCARDED", 0xD30004, .single, [⟨0x80000, 2⟩, ⟨0x20, 2048⟩], 0x0,
    [⟨0, 32, .rc, .keep⟩]⟩,
  ⟨"FRE_REC_ROGUE", 0xD30008, .single, [⟨0x80000, 2⟩, ⟨0x20, 2048⟩], 0x0,
    [⟨0, 32, .rc, .keep⟩]⟩]

def regsFRE1 : List RegSpec := [
  ⟨"FRE_REC_OUT_OF_ORDER", 0xD3000C, .single, [⟨0x80000, 2⟩, ⟨0x20, 2048⟩], 0x0,
    [⟨0, 32, .rc, .keep⟩]⟩,
  ⟨"FRE_REC_TAGLESS", 0xD30010, .single, [⟨0x80000, 2⟩, ⟨0x20, 2048⟩], 0x0,
    [⟨0, 32, .rc, .keep⟩]⟩,
  ⟨"FRE_REC_RESETS", 0xD30014, .single, [⟨0x80000, 2⟩, ⟨0x20, 2048⟩], 0x0,
    [⟨0, 32, .rc, .keep⟩]⟩]


def regsSCH : List RegSpec := [
  ⟨"SCH_PORT_CFG", 0xB01000, .single, [⟨0x80000, 2⟩, ⟨0x10, 256⟩], 0x0,
    [⟨16, 1, .ch, .keep⟩, ⟨8, 8, .ch, .keep⟩, ⟨0, 3, .ch, .keep⟩]⟩,
  ⟨"SCH_PORT_PCPMAP", 0xB01004, .single, [⟨0x80000, 2⟩, ⟨0x10, 256⟩], 0x0,
    [⟨0, 24, .ch, .keep⟩]⟩,
  ⟨"SCH_PSHP_RATE", 0xB01008, .single, [⟨0x80000, 2⟩, ⟨0x10, 256⟩], 0x0,
    [⟨31, 1, .mw, .keep⟩, ⟨30, 1, .mw, .keep⟩, ⟨0, 25, .mw, (.within 0 25000000)⟩]⟩,
  ⟨"SCH_PSHP_BURST", 0xB0100C, .single, [⟨0x80000, 2⟩, ⟨0x10, 256⟩], 0x0,
    [⟨0, 24, .mw, .keep⟩]⟩,
  ⟨"SCH_PSHP_LEVEL", 0xB02000, .single, [⟨0x80000, 2⟩, ⟨0x4, 256⟩], 0x0,
    [⟨0, 32, .ro, .keep⟩]⟩,
  ⟨"SCH_GATE", 0xB03000, .single, [⟨0x80000, 2⟩, ⟨0x4, 256⟩], 0xFF,
    [⟨9, 1, .ro, .keep⟩, ⟨8, 1, .ro, .keep⟩, ⟨0, 8, .ro, .keep⟩]⟩,
  ⟨"SCH_QSHP_RATE", 0xB04100, .single, [⟨0x80000, 2⟩, ⟨0x10, 2048⟩], 0x0,
    [⟨31, 1, .mw, .keep⟩, ⟨30, 1, .mw, .keep⟩, ⟨0, 25, .mw, (.within 0 25000000)⟩]⟩,
  ⟨"SCH_QSHP_BURST", 0xB04104, .single, [⟨0x80000, 2⟩, ⟨0x10, 2048⟩], 0x0,
    [⟨0, 24, .mw, .keep⟩]⟩,
  ⟨"SCH_QSHP_LEVEL", 0xB04108, .single, [⟨0x80000, 2⟩, ⟨0x10, 2048⟩], 0x0,
    [⟨0, 32, .ro, .keep⟩]⟩,
  ⟨"SCH_QDEFICIT", 0xB0410C, .single, [⟨0x80000, 2⟩, ⟨0x10, 2048⟩], 0x0,
    [⟨31, 1, .ro, .keep⟩, ⟨0, 17, .ro, .keep⟩]⟩,
  ⟨"SCH_QCFG", 0xB0C100, .single, [⟨0x80000, 2⟩, ⟨0x4, 2048⟩], 0x5F2,
    [⟨16, 14, .ch, .keep⟩, ⟨0, 16, .mw, (.within 64 65535)⟩]⟩,
  ⟨"SCH_QDEPTH", 0xB20000, .single, [⟨0x80000, 2⟩, ⟨0x4, 2048⟩], 0x0,
    [⟨0, 22, .ro, .keep⟩]⟩,
  ⟨"SCH_SNARE_CFG", 0xB10000, .single, [⟨0x80000, 2⟩, ⟨0x10, 4096⟩], 0x0,
    [⟨31, 1, .mw, .keep⟩, ⟨30, 1, .mw, .keep⟩, ⟨29, 1, .mw, .keep⟩, ⟨28, 1, .mw, .keep⟩, ⟨25, 3, .mw, .keep⟩, ⟨0, 25, .mw, (.within 0 25000000)⟩]⟩,
  ⟨"SCH_SNARE_BURST", 0xB10004, .single, [⟨0x80000, 2⟩, ⟨0x10, 4096⟩], 0x0,
    [⟨0, 24, .mw, .keep⟩]⟩,
  ⟨"SCH_SNARE_MAXSDU", 0xB10008, .single, [⟨0x80000, 2⟩, ⟨0x10, 4096⟩], 0x0,
    [⟨0, 14, .mw, .keep⟩]⟩,
  ⟨"SCH_SNARE_LEVEL", 0xB1000C, .single, [⟨0x80000, 2⟩, ⟨0x10, 4096⟩], 0x0,
    [⟨0, 24, .ro, .keep⟩]⟩,
  ⟨"SCH_SNARE_NC_CNT", 0xB30000, .single, [⟨0x80000, 2⟩, ⟨0x4, 4096⟩], 0x0,
    [⟨0, 32, .rc, .keep⟩]⟩,
  ⟨"SCH_EVT", 0xB00040, .single, [⟨0x80000, 2⟩], 0x0,
    [⟨1, 1, .w1c, .keep⟩, ⟨0, 1, .w1c, .keep⟩]⟩,
  ⟨"SCH_EVT_EN", 0xB00044, .single, [⟨0x80000, 2⟩], 0x0,
    [⟨0, 2, .mw, .keep⟩]⟩,
  ⟨"SCH_SNARE_SIZE_CNT", 0xB00100, .single, [⟨0x80000, 2⟩], 0x0,
    [⟨0, 32, .rc, .keep⟩]⟩,
  ⟨"SCH_SNARE_GATE_CNT", 0xB00104, .single, [⟨0x80000, 2⟩], 0x0,
    [⟨0, 32, .rc, .keep⟩]⟩,
  ⟨"SCH_SNARE_RATE_CNT", 0xB00108, .single, [⟨0x80000, 2⟩], 0x0,
    [⟨0, 32, .rc, .keep⟩]⟩,
  ⟨"SCH_SNARE_DROP_CNT", 0xB0010C, .single, [⟨0x80000, 2⟩], 0x0,
    [⟨0, 32, .rc, .keep⟩]⟩,
  ⟨"SCH_SNARE_DEMOTE_CNT", 0xB00110, .single, [⟨0x80000, 2⟩], 0x0,
    [⟨0, 32, .rc, .keep⟩]⟩,
  ⟨"SCH_GATE_SHORT_CNT", 0xB00114, .single, [⟨0x80000, 2⟩], 0x0,
    [⟨0, 32, .rc, .keep⟩]⟩]

def regsTIM : List RegSpec := [
  ⟨"TIM_TB_CTL", 0x400000, .single, [⟨0x40, 4⟩], 0x1,
    [⟨4, 1, .w1c, .keep⟩, ⟨3, 1, .w1c, .keep⟩, ⟨2, 1, .ro, .keep⟩, ⟨1, 1, .wo, .keep⟩, ⟨0, 1, .rw, .keep⟩]⟩,
  ⟨"TIM_TB_INC_FRAC", 0x400004, .single, [⟨0x40, 4⟩], 0x0,
    [⟨0, 32, .rw, .keep⟩]⟩,
  ⟨"TIM_TB_INC_NS", 0x400008, .single, [⟨0x40, 4⟩], 0x4,
    [⟨0, 8, .rw, .keep⟩]⟩,
  ⟨"TIM_TB_STEP_SEC_LO", 0x400010, .lo, [⟨0x40, 4⟩], 0x0,
    [⟨0, 32, .rw, .keep⟩]⟩,
  ⟨"TIM_TB_STEP_SEC_HI", 0x400014, .hi, [⟨0x40, 4⟩], 0x0,
    [⟨0, 16, .rw, .keep⟩]⟩,
  ⟨"TIM_TB_STEP_NS", 0x400018, .single, [⟨0x40, 4⟩], 0x0,
    [⟨0, 30, .rw, .keep⟩]⟩,
  ⟨"TIM_TB_SNAP_SEC_LO", 0x400020, .lo, [⟨0x40, 4⟩], 0x0,
    [⟨0, 32, .ro, .keep⟩]⟩,
  ⟨"TIM_TB_SNAP_SEC_HI", 0x400024, .hi, [⟨0x40, 4⟩], 0x0,
    [⟨0, 16, .ro, .keep⟩]⟩,
  ⟨"TIM_TB_SNAP_NS", 0x400028, .single, [⟨0x40, 4⟩], 0x0,
    [⟨0, 30, .ro, .keep⟩]⟩,
  ⟨"TIM_TB_CT48_LO", 0x400030, .lo, [⟨0x40, 4⟩], 0x0,
    [⟨0, 32, .ro, .keep⟩]⟩,
  ⟨"TIM_TB_CT48_HI", 0x400034, .hi, [⟨0x40, 4⟩], 0x0,
    [⟨0, 16, .ro, .keep⟩]⟩,
  ⟨"TIM_SNAP", 0x400200, .single, [], 0x0,
    [⟨0, 4, .wo, .keep⟩]⟩,
  ⟨"TIM_TXTS_STAT", 0x400300, .single, [], 0x0,
    [⟨0, 7, .ro, .keep⟩]⟩,
  ⟨"TIM_TXTS_INFO", 0x400304, .single, [], 0x0,
    [⟨31, 1, .ro, .keep⟩, ⟨30, 1, .ro, .keep⟩, ⟨29, 1, .ro, .keep⟩, ⟨28, 1, .ro, .keep⟩, ⟨26, 2, .ro, .keep⟩, ⟨16, 8, .ro, .keep⟩, ⟨0, 16, .ro, .keep⟩]⟩,
  ⟨"TIM_TXTS_SEC_LO", 0x400308, .lo, [], 0x0,
    [⟨0, 32, .ro, .keep⟩]⟩,
  ⟨"TIM_TXTS_SEC_HI", 0x40030C, .hi, [], 0x0,
    [⟨0, 16, .ro, .keep⟩]⟩,
  ⟨"TIM_TXTS_NS", 0x400310, .single, [], 0x0,
    [⟨0, 30, .ro, .keep⟩]⟩,
  ⟨"TIM_TXTS_POP", 0x400314, .single, [], 0x0,
    [⟨0, 1, .wo, .keep⟩]⟩,
  ⟨"TIM_PPS_CFG", 0x400400, .single, [⟨0x20, 4⟩], 0x64,
    [⟨31, 1, .rw, .keep⟩, ⟨30, 1, .rw, .keep⟩, ⟨29, 1, .rw, .keep⟩, ⟨0, 16, .rw, (.within 1 65535)⟩]⟩,
  ⟨"TIM_PPS_PERIOD", 0x400404, .single, [⟨0x20, 4⟩], 0xF4240,
    [⟨0, 20, .rw, .keep⟩]⟩,
  ⟨"TIM_PPS_OFFSET", 0x400408, .single, [⟨0x20, 4⟩], 0x0,
    [⟨0, 30, .rw, .keep⟩]⟩,
  ⟨"TIM_PPS_CAP_STAT", 0x40040C, .single, [⟨0x20, 4⟩], 0x0,
    [⟨31, 1, .wo, .keep⟩, ⟨8, 8, .rc, .keep⟩, ⟨0, 3, .ro, .keep⟩]⟩,
  ⟨"TIM_PPS_CAP_SEC_LO", 0x400410, .lo, [⟨0x20, 4⟩], 0x0,
    [⟨0, 32, .ro, .keep⟩]⟩,
  ⟨"TIM_PPS_CAP_SEC_HI", 0x400414, .hi, [⟨0x20, 4⟩], 0x0,
    [⟨0, 16, .ro, .keep⟩]⟩,
  ⟨"TIM_PPS_CAP_NS", 0x400418, .single, [⟨0x20, 4⟩], 0x0,
    [⟨0, 30, .ro, .keep⟩]⟩]

def regsTIM1 : List RegSpec := [
  ⟨"TIM_PORT_CFG", 0x400800, .single, [⟨0x10, 32⟩], 0x0,
    [⟨0, 2, .rw, .keep⟩]⟩,
  ⟨"TIM_PORT_RXDLY", 0x400804, .single, [⟨0x10, 32⟩], 0x0,
    [⟨0, 20, .ro, .keep⟩]⟩,
  ⟨"TIM_PORT_TXDLY", 0x400808, .single, [⟨0x10, 32⟩], 0x0,
    [⟨0, 20, .ro, .keep⟩]⟩,
  ⟨"TIM_EVT", 0x400A00, .single, [], 0x0,
    [⟨8, 4, .w1c, .keep⟩, ⟨4, 4, .w1c, .keep⟩, ⟨3, 1, .w1c, .keep⟩, ⟨2, 1, .w1c, .keep⟩, ⟨1, 1, .w1c, .keep⟩, ⟨0, 1, .w1c, .keep⟩]⟩,
  ⟨"TIM_EVT_EN", 0x400A04, .single, [], 0x0,
    [⟨0, 12, .rw, .keep⟩]⟩,
  ⟨"TIM_ONESTEP_CNT", 0x400B00, .single, [], 0x0,
    [⟨0, 32, .rc, .keep⟩]⟩,
  ⟨"TIM_ONESTEP_ERR_CNT", 0x400B04, .single, [], 0x0,
    [⟨0, 32, .rc, .keep⟩]⟩,
  ⟨"TIM_ONESTEP_SKIP_CNT", 0x400B08, .single, [], 0x0,
    [⟨0, 32, .rc, .keep⟩]⟩,
  ⟨"TIM_TXTS_OVF_CNT", 0x400B0C, .single, [], 0x0,
    [⟨0, 32, .rc, .keep⟩]⟩]


def regsCAR : List RegSpec := [
  ⟨"CAR_CTL", 0xC00000, .single, [], 0x0,
    [⟨16, 12, .wo, .keep⟩, ⟨8, 4, .ro, .keep⟩, ⟨4, 1, .wo, .keep⟩, ⟨0, 4, .wo, .keep⟩]⟩,
  ⟨"CAR_STATUS", 0xC00004, .single, [], 0x0,
    [⟨16, 10, .ro, .keep⟩, ⟨8, 5, .ro, .keep⟩, ⟨5, 1, .ro, .keep⟩, ⟨4, 1, .ro, .keep⟩, ⟨0, 3, .ro, .keep⟩]⟩,
  ⟨"CAR_JOB_ERR", 0xC00008, .single, [], 0x0,
    [⟨31, 1, .w1c, .keep⟩, ⟨16, 12, .ro, .keep⟩, ⟨0, 8, .ro, .keep⟩]⟩,
  ⟨"CAR_DECL", 0xC00010, .single, [⟨0x4, 12⟩], 0x0,
    [⟨0, 32, .rw, .keep⟩]⟩,
  ⟨"CAR_ARM_TIME_LO", 0xC00040, .lo, [], 0x0,
    [⟨0, 32, .rw, .keep⟩]⟩,
  ⟨"CAR_ARM_TIME_HI", 0xC00044, .hi, [], 0x0,
    [⟨0, 16, .rw, .keep⟩]⟩,
  ⟨"CAR_DOWNBEAT_LO", 0xC00048, .lo, [], 0x0,
    [⟨0, 32, .ro, .keep⟩]⟩,
  ⟨"CAR_DOWNBEAT_HI", 0xC0004C, .hi, [], 0x0,
    [⟨0, 16, .ro, .keep⟩]⟩,
  ⟨"CAR_RES_SEL", 0xC00060, .single, [], 0x0,
    [⟨16, 3, .rw, .keep⟩, ⟨0, 12, .rw, .keep⟩]⟩,
  ⟨"CAR_RES_STATUS", 0xC00064, .single, [], 0x0,
    [⟨31, 1, .ro, .keep⟩, ⟨30, 1, .ro, .keep⟩, ⟨29, 1, .ro, .keep⟩, ⟨28, 1, .ro, .keep⟩, ⟨16, 8, .ro, .keep⟩, ⟨8, 3, .ro, .keep⟩, ⟨0, 8, .ro, .keep⟩]⟩,
  ⟨"CAR_PORT_STAT", 0xC00100, .single, [⟨0x4, 32⟩], 0x0,
    [⟨31, 1, .ro, .keep⟩, ⟨30, 1, .ro, .keep⟩, ⟨16, 10, .ro, .keep⟩, ⟨12, 3, .ch, .keep⟩, ⟨0, 11, .ro, .keep⟩]⟩,
  ⟨"CAR_EVT", 0xC00200, .single, [], 0x0,
    [⟨4, 1, .w1c, .keep⟩, ⟨3, 1, .w1c, .keep⟩, ⟨2, 1, .w1c, .keep⟩, ⟨1, 1, .w1c, .keep⟩, ⟨0, 1, .w1c, .keep⟩]⟩,
  ⟨"CAR_EVT_EN", 0xC00204, .single, [], 0x0,
    [⟨0, 5, .rw, .keep⟩]⟩,
  ⟨"CAR_JOB_CNT", 0xC00300, .single, [], 0x0,
    [⟨0, 32, .rc, .keep⟩]⟩,
  ⟨"CAR_ADMIT_CNT", 0xC00304, .single, [], 0x0,
    [⟨0, 32, .rc, .keep⟩]⟩,
  ⟨"CAR_REJECT_CNT", 0xC00308, .single, [], 0x0,
    [⟨0, 32, .rc, .keep⟩]⟩,
  ⟨"CAR_WD_IGNORED_CNT", 0xC0030C, .single, [], 0x0,
    [⟨0, 32, .rc, .keep⟩]⟩,
  ⟨"CAR_RESTART_CNT", 0xC00310, .single, [], 0x0,
    [⟨0, 32, .rc, .keep⟩]⟩,
  ⟨"CAR_PEAL", 0xC00050, .single, [], 0x0,
    [⟨0, 30, .ro, .keep⟩]⟩,
  ⟨"CAR_SHD_PEAL", 0xC00054, .single, [], 0x0,
    [⟨0, 30, .ro, .keep⟩]⟩,
  ⟨"CAR_RES_OFFSET", 0xC00068, .single, [], 0x0,
    [⟨0, 27, .ro, .keep⟩]⟩,
  ⟨"CAR_RES_WIDTH", 0xC0006C, .single, [], 0x0,
    [⟨0, 27, .ro, .keep⟩]⟩,
  ⟨"CAR_RES_G", 0xC00070, .single, [], 0x0,
    [⟨0, 32, .ro, .keep⟩]⟩,
  ⟨"CAR_RES_Q", 0xC00074, .single, [], 0x0,
    [⟨0, 32, .ro, .keep⟩]⟩,
  ⟨"CAR_RES_B", 0xC00078, .single, [], 0x0,
    [⟨0, 32, .ro, .keep⟩]⟩]

def regsCAR1 : List RegSpec := [
  ⟨"CAR_RES_L", 0xC0007C, .single, [], 0x0,
    [⟨0, 32, .ro, .keep⟩]⟩,
  ⟨"CAR_GL_W0", 0xC40000, .single, [⟨0x2000, 32⟩, ⟨0x8, 1024⟩], 0x0,
    [⟨0, 27, .ro, .keep⟩]⟩,
  ⟨"CAR_GL_W1", 0xC40004, .single, [⟨0x2000, 32⟩, ⟨0x8, 1024⟩], 0x0,
    [⟨31, 1, .ro, .keep⟩, ⟨30, 1, .ro, .keep⟩, ⟨0, 8, .ro, .keep⟩]⟩]


def regsRED : List RegSpec := [
  ⟨"RED_CTL", 0x700000, .single, [], 0x0,
    [⟨12, 4, .ro, .keep⟩, ⟨8, 1, .wo, .keep⟩, ⟨0, 4, .wo, .keep⟩]⟩,
  ⟨"RED_STATUS", 0x700004, .single, [], 0x600,
    [⟨9, 2, .ch, .keep⟩, ⟨8, 1, .ro, .keep⟩, ⟨1, 1, .ro, .keep⟩, ⟨0, 1, .ro, .keep⟩]⟩,
  ⟨"RED_TAKEBACK", 0x700008, .single, [], 0x64,
    [⟨0, 14, .rw, (.within 10 10000)⟩]⟩,
  ⟨"RED_LAST_FAIL", 0x700010, .single, [], 0x0,
    [⟨31, 1, .w1c, .keep⟩, ⟨8, 2, .ro, .keep⟩, ⟨0, 1, .ro, .keep⟩]⟩,
  ⟨"RED_LAST_FAIL_TIME_LO", 0x700014, .lo, [], 0x0,
    [⟨0, 32, .ro, .keep⟩]⟩,
  ⟨"RED_LAST_FAIL_TIME_HI", 0x700018, .hi, [], 0x0,
    [⟨0, 16, .ro, .keep⟩]⟩,
  ⟨"RED_TEST", 0x700020, .single, [], 0x0,
    [⟨31, 1, .ro, .keep⟩, ⟨30, 1, .ro, .keep⟩, ⟨29, 1, .ro, .keep⟩, ⟨0, 16, .ro, .keep⟩]⟩,
  ⟨"RED_EVT", 0x700040, .single, [], 0x0,
    [⟨4, 1, .w1c, .keep⟩, ⟨3, 1, .w1c, .keep⟩, ⟨2, 1, .w1c, .keep⟩, ⟨1, 1, .w1c, .keep⟩, ⟨0, 1, .w1c, .keep⟩]⟩,
  ⟨"RED_EVT_EN", 0x700044, .single, [], 0x0,
    [⟨0, 5, .rw, .keep⟩]⟩,
  ⟨"RED_FAILOVER_CNT", 0x700100, .single, [], 0x0,
    [⟨0, 32, .rc, .keep⟩]⟩,
  ⟨"RED_FAILOVER_LOST_CNT", 0x700104, .single, [], 0x0,
    [⟨0, 32, .rc, .keep⟩]⟩,
  ⟨"RED_BEAT_MISS_FAB_CNT", 0x700108, .single, [], 0x0,
    [⟨0, 32, .rc, .keep⟩]⟩,
  ⟨"RED_BEAT_MISS_SIDE_CNT", 0x70010C, .single, [], 0x0,
    [⟨0, 32, .rc, .keep⟩]⟩,
  ⟨"RED_TAKEBACK_CNT", 0x700110, .single, [], 0x0,
    [⟨0, 32, .rc, .keep⟩]⟩]

def regsCAN : List RegSpec := [
  ⟨"CAN_CFG", 0x1500000, .single, [⟨0x8000, 32⟩], 0x0,
    [⟨24, 3, .ch, .keep⟩, ⟨16, 5, .ch, .keep⟩, ⟨8, 8, .ch, .keep⟩, ⟨0, 2, .ch, .keep⟩]⟩,
  ⟨"CAN_ACF", 0x1500004, .single, [⟨0x8000, 32⟩], 0x0,
    [⟨16, 5, .ch, .keep⟩, ⟨0, 10, .ch, .keep⟩]⟩,
  ⟨"CAN_TUN", 0x1500008, .single, [⟨0x8000, 32⟩], 0x0,
    [⟨24, 8, .ch, .keep⟩, ⟨0, 11, .ch, .keep⟩]⟩,
  ⟨"CAN_TUN_AF", 0x150000C, .single, [⟨0x8000, 32⟩], 0x0,
    [⟨0, 32, .ch, .keep⟩]⟩,
  ⟨"CAN_TDC", 0x150001C, .single, [⟨0x8000, 32⟩], 0x0,
    [⟨7, 1, .ch, .keep⟩, ⟨0, 7, .ch, .keep⟩]⟩,
  ⟨"CAN_CTL", 0x1500020, .single, [⟨0x8000, 32⟩], 0x0,
    [⟨2, 1, .wo, .keep⟩, ⟨1, 1, .wo, .keep⟩, ⟨0, 1, .rw, .keep⟩]⟩,
  ⟨"CAN_STATUS", 0x1500024, .single, [⟨0x8000, 32⟩], 0x0,
    [⟨31, 1, .ro, .keep⟩, ⟨29, 2, .ro, .keep⟩, ⟨26, 3, .ro, .keep⟩, ⟨25, 1, .ro, .keep⟩, ⟨16, 8, .ro, .keep⟩, ⟨8, 8, .ro, .keep⟩, ⟨0, 6, .ro, .keep⟩]⟩,
  ⟨"CAN_EVT", 0x1500028, .single, [⟨0x8000, 32⟩], 0x0,
    [⟨7, 1, .w1c, .keep⟩, ⟨6, 1, .w1c, .keep⟩, ⟨5, 1, .w1c, .keep⟩, ⟨4, 1, .w1c, .keep⟩, ⟨3, 1, .w1c, .keep⟩, ⟨2, 1, .w1c, .keep⟩, ⟨1, 1, .w1c, .keep⟩, ⟨0, 1, .w1c, .keep⟩]⟩,
  ⟨"CAN_EVT_EN", 0x150002C, .single, [⟨0x8000, 32⟩], 0x0,
    [⟨0, 8, .rw, .keep⟩]⟩,
  ⟨"CAN_RX_MSG_CNT", 0x1500100, .single, [⟨0x8000, 32⟩], 0x0,
    [⟨0, 32, .ro, .keep⟩]⟩,
  ⟨"CAN_TX_MSG_CNT", 0x1500104, .single, [⟨0x8000, 32⟩], 0x0,
    [⟨0, 32, .ro, .keep⟩]⟩,
  ⟨"CAN_RX_ERR_CNT", 0x1500108, .single, [⟨0x8000, 32⟩], 0x0,
    [⟨0, 32, .rc, .keep⟩]⟩,
  ⟨"CAN_BUS_OFF_CNT", 0x150010C, .single, [⟨0x8000, 32⟩], 0x0,
    [⟨0, 32, .rc, .keep⟩]⟩,
  ⟨"CAN_TX_EXPIRED_CNT", 0x1500110, .single, [⟨0x8000, 32⟩], 0x0,
    [⟨0, 32, .rc, .keep⟩]⟩,
  ⟨"CAN_TX_ABORT_CNT", 0x1500114, .single, [⟨0x8000, 32⟩], 0x0,
    [⟨0, 32, .rc, .keep⟩]⟩,
  ⟨"CAN_FORMAT_DROP_CNT", 0x1500118, .single, [⟨0x8000, 32⟩], 0x0,
    [⟨0, 32, .rc, .keep⟩]⟩,
  ⟨"CAN_XLATE_DROP_CNT", 0x150011C, .single, [⟨0x8000, 32⟩], 0x0,
    [⟨0, 32, .rc, .keep⟩]⟩,
  ⟨"CAN_ACF_SENT_CNT", 0x1500120, .single, [⟨0x8000, 32⟩], 0x0,
    [⟨0, 32, .rc, .keep⟩]⟩,
  ⟨"CAN_ACF_SKIP_CNT", 0x1500124, .single, [⟨0x8000, 32⟩], 0x0,
    [⟨0, 32, .rc, .keep⟩]⟩,
  ⟨"CAN_ACF_DROP_CNT", 0x1500128, .single, [⟨0x8000, 32⟩], 0x0,
    [⟨0, 32, .rc, .keep⟩]⟩,
  ⟨"CAN_UNPACK_CNT", 0x150012C, .single, [⟨0x8000, 32⟩], 0x0,
    [⟨0, 32, .rc, .keep⟩]⟩,
  ⟨"CAN_UNPACK_SKIP_CNT", 0x1500130, .single, [⟨0x8000, 32⟩], 0x0,
    [⟨0, 32, .rc, .keep⟩]⟩,
  ⟨"CAN_UNPACK_BAD_CNT", 0x1500134, .single, [⟨0x8000, 32⟩], 0x0,
    [⟨0, 32, .rc, .keep⟩]⟩,
  ⟨"CAN_TUNNEL_TX_CNT", 0x1500138, .single, [⟨0x8000, 32⟩], 0x0,
    [⟨0, 32, .rc, .keep⟩]⟩,
  ⟨"CAN_TUNNEL_RX_CNT", 0x150013C, .single, [⟨0x8000, 32⟩], 0x0,
    [⟨0, 32, .rc, .keep⟩]⟩]

def regsCAN1 : List RegSpec := [
  ⟨"CAN_TUNNEL_DROP_CNT", 0x1500140, .single, [⟨0x8000, 32⟩], 0x0,
    [⟨0, 32, .rc, .keep⟩]⟩,
  ⟨"CAN_TUNNEL_BAD_CNT", 0x1500144, .single, [⟨0x8000, 32⟩], 0x0,
    [⟨0, 32, .rc, .keep⟩]⟩,
  ⟨"CAN_NBT", 0x1500010, .single, [⟨0x8000, 32⟩], 0x0,
    [⟨20, 7, .ch, .keep⟩, ⟨13, 7, .ch, .keep⟩, ⟨5, 8, .ch, .keep⟩, ⟨0, 5, .ch, .keep⟩]⟩,
  ⟨"CAN_DBT", 0x1500014, .single, [⟨0x8000, 32⟩], 0x0,
    [⟨20, 7, .ch, .keep⟩, ⟨13, 7, .ch, .keep⟩, ⟨5, 8, .ch, .keep⟩, ⟨0, 5, .ch, .keep⟩]⟩,
  ⟨"CAN_XBT", 0x1500018, .single, [⟨0x8000, 32⟩], 0x0,
    [⟨20, 7, .ch, .keep⟩, ⟨13, 7, .ch, .keep⟩, ⟨5, 8, .ch, .keep⟩, ⟨0, 5, .ch, .keep⟩]⟩]


def regsLIN : List RegSpec := [
  ⟨"LIN_CFG", 0x1600000, .single, [⟨0x10000, 16⟩], 0x0,
    [⟨16, 16, .ch, .keep⟩, ⟨8, 5, .ch, .keep⟩, ⟨5, 3, .ch, .keep⟩, ⟨2, 3, .ch, .keep⟩, ⟨0, 1, .ch, .keep⟩]⟩,
  ⟨"LIN_ACF", 0x1600004, .single, [⟨0x10000, 16⟩], 0x0,
    [⟨16, 5, .ch, .keep⟩, ⟨0, 10, .ch, .keep⟩]⟩,
  ⟨"LIN_CTL", 0x1600008, .single, [⟨0x10000, 16⟩], 0x0,
    [⟨4, 2, .rw, .keep⟩, ⟨3, 1, .rw, .keep⟩, ⟨0, 1, .rw, .keep⟩]⟩,
  ⟨"LIN_STATUS", 0x160000C, .single, [⟨0x10000, 16⟩], 0x0,
    [⟨31, 1, .ro, .keep⟩, ⟨30, 1, .ro, .keep⟩, ⟨28, 2, .ro, .keep⟩, ⟨27, 1, .ro, .keep⟩, ⟨16, 6, .ro, .keep⟩]⟩,
  ⟨"LIN_EVT", 0x1600010, .single, [⟨0x10000, 16⟩], 0x0,
    [⟨5, 1, .w1c, .keep⟩, ⟨4, 1, .w1c, .keep⟩, ⟨3, 1, .w1c, .keep⟩, ⟨2, 1, .w1c, .keep⟩, ⟨1, 1, .w1c, .keep⟩, ⟨0, 1, .w1c, .keep⟩]⟩,
  ⟨"LIN_EVT_EN", 0x1600014, .single, [⟨0x10000, 16⟩], 0x0,
    [⟨0, 6, .rw, .keep⟩]⟩,
  ⟨"LIN_RX_FRAME_CNT", 0x1600100, .single, [⟨0x10000, 16⟩], 0x0,
    [⟨0, 32, .ro, .keep⟩]⟩,
  ⟨"LIN_HDR_CNT", 0x1600104, .single, [⟨0x10000, 16⟩], 0x0,
    [⟨0, 32, .ro, .keep⟩]⟩,
  ⟨"LIN_CKSUM_ERR_CNT", 0x1600108, .single, [⟨0x10000, 16⟩], 0x0,
    [⟨0, 32, .rc, .keep⟩]⟩,
  ⟨"LIN_NO_RESP_CNT", 0x160010C, .single, [⟨0x10000, 16⟩], 0x0,
    [⟨0, 32, .rc, .keep⟩]⟩,
  ⟨"LIN_FRAMING_ERR_CNT", 0x1600110, .single, [⟨0x10000, 16⟩], 0x0,
    [⟨0, 32, .rc, .keep⟩]⟩,
  ⟨"LIN_BIT_ERR_CNT", 0x1600114, .single, [⟨0x10000, 16⟩], 0x0,
    [⟨0, 32, .rc, .keep⟩]⟩,
  ⟨"LIN_NO_DATA_CNT", 0x1600118, .single, [⟨0x10000, 16⟩], 0x0,
    [⟨0, 32, .rc, .keep⟩]⟩,
  ⟨"LIN_RESP_REJECT_CNT", 0x160011C, .single, [⟨0x10000, 16⟩], 0x0,
    [⟨0, 32, .rc, .keep⟩]⟩,
  ⟨"LIN_ACF_SENT_CNT", 0x1600120, .single, [⟨0x10000, 16⟩], 0x0,
    [⟨0, 32, .rc, .keep⟩]⟩,
  ⟨"LIN_ACF_DROP_CNT", 0x1600124, .single, [⟨0x10000, 16⟩], 0x0,
    [⟨0, 32, .rc, .keep⟩]⟩,
  ⟨"LIN_UNPACK_CNT", 0x1600128, .single, [⟨0x10000, 16⟩], 0x0,
    [⟨0, 32, .rc, .keep⟩]⟩,
  ⟨"LIN_UNPACK_SKIP_CNT", 0x160012C, .single, [⟨0x10000, 16⟩], 0x0,
    [⟨0, 32, .rc, .keep⟩]⟩,
  ⟨"LIN_UNPACK_BAD_CNT", 0x1600130, .single, [⟨0x10000, 16⟩], 0x0,
    [⟨0, 32, .rc, .keep⟩]⟩,
  ⟨"LIN_RESP_UPDATE_CNT", 0x1600134, .single, [⟨0x10000, 16⟩], 0x0,
    [⟨0, 32, .rc, .keep⟩]⟩,
  ⟨"LIN_RESP_W0", 0x1601000, .single, [⟨0x10000, 16⟩, ⟨0x10, 64⟩], 0x0,
    [⟨0, 32, .ro, .keep⟩]⟩,
  ⟨"LIN_RESP_W1", 0x1601004, .single, [⟨0x10000, 16⟩, ⟨0x10, 64⟩], 0x0,
    [⟨0, 32, .ro, .keep⟩]⟩,
  ⟨"LIN_RESP_W2", 0x1601008, .single, [⟨0x10000, 16⟩, ⟨0x10, 64⟩], 0x0,
    [⟨31, 1, .ro, .keep⟩, ⟨0, 4, .ro, .keep⟩]⟩]

def regsNMW : List RegSpec := [
  ⟨"NMW_NC_STATE", 0x1700000, .single, [⟨0x100, 16⟩], 0x0,
    [⟨16, 16, .ro, .keep⟩, ⟨5, 1, .ro, .keep⟩, ⟨4, 1, .ro, .keep⟩, ⟨0, 3, .ro, .keep⟩]⟩,
  ⟨"NMW_NC_REQ", 0x1700004, .single, [⟨0x100, 16⟩], 0x0,
    [⟨1, 1, .ro, .keep⟩, ⟨0, 1, .rw, .keep⟩]⟩,
  ⟨"NMW_NC_LAST", 0x1700010, .single, [⟨0x100, 16⟩], 0x0,
    [⟨31, 1, .ro, .keep⟩, ⟨8, 5, .ro, .keep⟩, ⟨0, 8, .ro, .keep⟩]⟩,
  ⟨"NMW_NC_CHIME_TX_CNT", 0x1700040, .single, [⟨0x100, 16⟩], 0x0,
    [⟨0, 32, .rc, .keep⟩]⟩,
  ⟨"NMW_NC_CHIME_RX_CNT", 0x1700044, .single, [⟨0x100, 16⟩], 0x0,
    [⟨0, 32, .rc, .keep⟩]⟩,
  ⟨"NMW_NC_KNELL_CNT", 0x1700048, .single, [⟨0x100, 16⟩], 0x0,
    [⟨0, 32, .rc, .keep⟩]⟩,
  ⟨"NMW_NC_CANCEL_CNT", 0x170004C, .single, [⟨0x100, 16⟩], 0x0,
    [⟨0, 32, .rc, .keep⟩]⟩,
  ⟨"NMW_NC_FORCED_KNELL_CNT", 0x1700050, .single, [⟨0x100, 16⟩], 0x0,
    [⟨0, 32, .rc, .keep⟩]⟩,
  ⟨"NMW_WREC_STAT", 0x1710000, .single, [], 0x0,
    [⟨8, 8, .rc, .keep⟩, ⟨0, 6, .ro, .keep⟩]⟩,
  ⟨"NMW_WREC_POP", 0x1710014, .single, [], 0x0,
    [⟨0, 1, .wo, .keep⟩]⟩,
  ⟨"NMW_INH", 0x1710040, .single, [], 0x0,
    [⟨8, 4, .rw, .keep⟩, ⟨0, 4, .ro, .keep⟩]⟩,
  ⟨"NMW_WAKEPIN", 0x1710050, .single, [⟨0x4, 8⟩], 0x3D00,
    [⟨31, 1, .ro, .keep⟩, ⟨10, 4, .ch, .keep⟩, ⟨8, 1, .ch, .keep⟩, ⟨2, 6, .ch, .keep⟩, ⟨0, 2, .ch, .keep⟩]⟩,
  ⟨"NMW_CAN_TRX", 0x1720000, .single, [⟨0x40, 32⟩], 0x0,
    [⟨18, 1, .ch, .keep⟩, ⟨17, 1, .ch, .keep⟩, ⟨16, 1, .ch, .keep⟩, ⟨0, 2, .ro, .keep⟩]⟩,
  ⟨"NMW_CAN_LISTEN", 0x1720004, .single, [⟨0x40, 32⟩], 0x0,
    [⟨0, 1, .rw, .keep⟩]⟩,
  ⟨"NMW_CAN_SW", 0x1720008, .single, [⟨0x40, 32⟩], 0x0,
    [⟨17, 1, .ro, .keep⟩, ⟨16, 1, .ro, .keep⟩, ⟨8, 8, .ch, .keep⟩, ⟨0, 8, .ro, .keep⟩]⟩,
  ⟨"NMW_CAN_SW_MATCH_CNT", 0x1720010, .single, [⟨0x40, 32⟩], 0x0,
    [⟨0, 32, .rc, .keep⟩]⟩,
  ⟨"NMW_CAN_SW_IGNORE_CNT", 0x1720014, .single, [⟨0x40, 32⟩], 0x0,
    [⟨0, 32, .rc, .keep⟩]⟩,
  ⟨"NMW_CAN_SW_ERR_CNT", 0x1720018, .single, [⟨0x40, 32⟩], 0x0,
    [⟨0, 32, .rc, .keep⟩]⟩,
  ⟨"NMW_NC_TREQ_LO", 0x1700008, .lo, [⟨0x100, 16⟩], 0x0,
    [⟨0, 32, .ro, .keep⟩]⟩,
  ⟨"NMW_NC_TREQ_HI", 0x170000C, .hi, [⟨0x100, 16⟩], 0x0,
    [⟨0, 32, .ro, .keep⟩]⟩,
  ⟨"NMW_NC_LAST_TIME_LO", 0x1700014, .lo, [⟨0x100, 16⟩], 0x0,
    [⟨0, 32, .ro, .keep⟩]⟩,
  ⟨"NMW_NC_LAST_TIME_HI", 0x1700018, .hi, [⟨0x100, 16⟩], 0x0,
    [⟨0, 16, .ro, .keep⟩]⟩,
  ⟨"NMW_NC_TMR0", 0x170001C, .single, [⟨0x100, 16⟩], 0x0,
    [⟨16, 16, .ch, .keep⟩, ⟨0, 16, .ch, .keep⟩]⟩,
  ⟨"NMW_NC_TMR1", 0x1700020, .single, [⟨0x100, 16⟩], 0x0,
    [⟨16, 16, .ch, .keep⟩, ⟨0, 16, .ch, .keep⟩]⟩,
  ⟨"NMW_NC_TMR2", 0x1700024, .single, [⟨0x100, 16⟩], 0x0,
    [⟨16, 16, .ch, .keep⟩, ⟨0, 8, .ch, .keep⟩]⟩]

def regsNMW1 : List RegSpec := [
  ⟨"NMW_NC_EVT", 0x1700028, .single, [⟨0x100, 16⟩], 0x0,
    [⟨3, 1, .w1c, .keep⟩, ⟨2, 1, .w1c, .keep⟩, ⟨1, 1, .w1c, .keep⟩, ⟨0, 1, .w1c, .keep⟩]⟩,
  ⟨"NMW_NC_EVT_EN", 0x170002C, .single, [⟨0x100, 16⟩], 0x0,
    [⟨0, 4, .rw, .keep⟩]⟩,
  ⟨"NMW_WREC", 0x1710004, .single, [⟨0x4, 4⟩], 0x0,
    [⟨0, 32, .ro, .keep⟩]⟩,
  ⟨"NMW_AO_SNAP", 0x1710020, .single, [], 0x0,
    [⟨0, 1, .wo, .keep⟩]⟩,
  ⟨"NMW_AO_SNAP_AO_LO", 0x1710024, .lo, [], 0x0,
    [⟨0, 32, .ro, .keep⟩]⟩,
  ⟨"NMW_AO_SNAP_AO_HI", 0x1710028, .hi, [], 0x0,
    [⟨0, 16, .ro, .keep⟩]⟩,
  ⟨"NMW_AO_SNAP_CT_LO", 0x171002C, .lo, [], 0x0,
    [⟨0, 32, .ro, .keep⟩]⟩,
  ⟨"NMW_AO_SNAP_CT_HI", 0x1710030, .hi, [], 0x0,
    [⟨0, 16, .ro, .keep⟩]⟩,
  ⟨"NMW_EVT", 0x1710080, .single, [], 0x0,
    [⟨1, 1, .w1c, .keep⟩, ⟨0, 1, .w1c, .keep⟩]⟩,
  ⟨"NMW_EVT_EN", 0x1710084, .single, [], 0x0,
    [⟨0, 2, .rw, .keep⟩]⟩]


def regsFWL : List RegSpec := [
  ⟨"FWL_CFG", 0xF00000, .single, [], 0x0,
    [⟨24, 8, .ch, .keep⟩, ⟨9, 1, .ch, .keep⟩, ⟨8, 1, .ch, .keep⟩, ⟨0, 6, .ch, .keep⟩]⟩,
  ⟨"FWL_CTL", 0xF00004, .single, [], 0x0,
    [⟨0, 1, .wo, .keep⟩]⟩,
  ⟨"FWL_TPROF", 0xF00010, .single, [⟨0x4, 4⟩], 0x0,
    [⟨0, 16, .ch, .keep⟩]⟩,
  ⟨"FWL_EXC_RATE", 0xF00020, .single, [], 0x2710,
    [⟨0, 17, .rw, (.within 0 100000)⟩]⟩,
  ⟨"FWL_EXC_BURST", 0xF00024, .single, [], 0x80,
    [⟨0, 11, .rw, (.within 1 1024)⟩]⟩,
  ⟨"FWL_FLOW_STAT", 0xF00030, .single, [], 0x0,
    [⟨0, 25, .ro, .keep⟩]⟩,
  ⟨"FWL_EVT", 0xF00040, .single, [], 0x0,
    [⟨2, 1, .w1c, .keep⟩, ⟨1, 1, .w1c, .keep⟩, ⟨0, 1, .w1c, .keep⟩]⟩,
  ⟨"FWL_EVT_EN", 0xF00044, .single, [], 0x0,
    [⟨0, 3, .rw, .keep⟩]⟩,
  ⟨"FWL_ZONEMAP", 0xF00100, .single, [⟨0x4, 38⟩], 0x0,
    [⟨0, 32, .ch, .keep⟩]⟩,
  ⟨"FWL_DENY_CNT", 0xF00600, .single, [], 0x0,
    [⟨0, 32, .rc, .keep⟩]⟩,
  ⟨"FWL_FRAG_DENY_CNT", 0xF00604, .single, [], 0x0,
    [⟨0, 32, .rc, .keep⟩]⟩,
  ⟨"FWL_FLOW_Q_DROP_CNT", 0xF00608, .single, [], 0x0,
    [⟨0, 32, .rc, .keep⟩]⟩,
  ⟨"FWL_FLOW_FAIL_CNT", 0xF0060C, .single, [], 0x0,
    [⟨0, 32, .rc, .keep⟩]⟩,
  ⟨"FWL_FLOW_AGED_CNT", 0xF00610, .single, [], 0x0,
    [⟨0, 32, .rc, .keep⟩]⟩,
  ⟨"FWL_EXC_DROP_CNT", 0xF00614, .single, [], 0x0,
    [⟨0, 32, .rc, .keep⟩]⟩,
  ⟨"FWL_PAIR_DENY_CNT", 0xF10000, .single, [⟨0x4, 1024⟩], 0x0,
    [⟨0, 32, .rc, .keep⟩]⟩,
  ⟨"FWL_CAN_IN_DENY", 0xF20000, .single, [⟨0x10, 32⟩], 0x0,
    [⟨0, 32, .rc, .keep⟩]⟩,
  ⟨"FWL_CAN_OUT_DENY", 0xF20004, .single, [⟨0x10, 32⟩], 0x0,
    [⟨0, 32, .rc, .keep⟩]⟩,
  ⟨"FWL_CAN_RATE_DROP", 0xF20008, .single, [⟨0x10, 32⟩], 0x0,
    [⟨0, 32, .rc, .keep⟩]⟩,
  ⟨"FWL_MATRIX", 0xF00200, .single, [⟨0x20, 32⟩, ⟨0x4, 8⟩], 0x0,
    [⟨0, 32, .ch, .keep⟩]⟩]

def regsBLF : List RegSpec := [
  ⟨"BLF_CMD", 0x1000000, .single, [], 0x0,
    [⟨31, 1, .ro, .keep⟩, ⟨26, 5, .ro, .keep⟩, ⟨25, 1, .wo, .keep⟩, ⟨24, 1, .wo, .keep⟩, ⟨10, 10, .wo, .keep⟩, ⟨0, 4, .wo, .keep⟩]⟩,
  ⟨"BLF_CMD_ARG", 0x1000004, .single, [], 0x0,
    [⟨24, 8, .rw, .keep⟩, ⟨16, 8, .rw, .keep⟩, ⟨0, 10, .rw, .keep⟩]⟩,
  ⟨"BLF_STATUS", 0x1000008, .single, [], 0x0,
    [⟨31, 1, .ro, .keep⟩, ⟨30, 1, .ro, .keep⟩, ⟨16, 11, .ro, .keep⟩, ⟨0, 11, .ro, .keep⟩]⟩,
  ⟨"BLF_EPOCH", 0x100000C, .single, [], 0x0,
    [⟨0, 8, .ro, .keep⟩]⟩,
  ⟨"BLF_EVT", 0x1000040, .single, [], 0x0,
    [⟨2, 1, .w1c, .keep⟩, ⟨1, 1, .w1c, .keep⟩, ⟨0, 1, .w1c, .keep⟩]⟩,
  ⟨"BLF_EVT_EN", 0x1000044, .single, [], 0x0,
    [⟨0, 3, .rw, .keep⟩]⟩,
  ⟨"BLF_RECLAIM_CNT", 0x1000100, .single, [], 0x0,
    [⟨0, 32, .rc, .keep⟩]⟩,
  ⟨"BLF_ORPHAN_USE_CNT", 0x1000104, .single, [], 0x0,
    [⟨0, 32, .rc, .keep⟩]⟩,
  ⟨"BLF_DATA", 0x1010000, .single, [⟨0x4, 1024⟩], 0x0,
    [⟨0, 32, .rw, .keep⟩]⟩]

def regsLDG : List RegSpec := [
  ⟨"LDG_CTL", 0x1200000, .single, [], 0x0,
    [⟨8, 4, .ro, .keep⟩, ⟨0, 3, .wo, .keep⟩]⟩,
  ⟨"LDG_STATUS", 0x1200004, .single, [], 0x0,
    [⟨0, 9, .ro, .keep⟩]⟩,
  ⟨"LDG_FLAGS", 0x1200008, .single, [], 0x0,
    [⟨3, 1, .ro, .keep⟩, ⟨2, 1, .ro, .keep⟩, ⟨1, 1, .ro, .keep⟩, ⟨0, 1, .ro, .keep⟩]⟩,
  ⟨"LDG_CKPT_CTR", 0x120000C, .single, [], 0x0,
    [⟨0, 32, .ro, .keep⟩]⟩,
  ⟨"LDG_EVT", 0x1200040, .single, [], 0x0,
    [⟨3, 1, .w1c, .keep⟩, ⟨2, 1, .w1c, .keep⟩, ⟨1, 1, .w1c, .keep⟩, ⟨0, 1, .w1c, .keep⟩]⟩,
  ⟨"LDG_EVT_EN", 0x1200044, .single, [], 0x0,
    [⟨0, 4, .rw, .keep⟩]⟩,
  ⟨"LDG_NOT_READY_CNT", 0x1200100, .single, [], 0x0,
    [⟨0, 32, .rc, .keep⟩]⟩,
  ⟨"LDG_UNKNOWN_CNT", 0x1200104, .single, [], 0x0,
    [⟨0, 32, .rc, .keep⟩]⟩,
  ⟨"LDG_NO_KEY_CNT", 0x1200108, .single, [], 0x0,
    [⟨0, 32, .rc, .keep⟩]⟩,
  ⟨"LDG_QUEUE_DROP_CNT", 0x120010C, .single, [], 0x0,
    [⟨0, 32, .rc, .keep⟩]⟩,
  ⟨"LDG_MALFORMED_CNT", 0x1200110, .single, [], 0x0,
    [⟨0, 32, .rc, .keep⟩]⟩,
  ⟨"LDG_DATA", 0x1210000, .single, [⟨0x4, 1024⟩], 0x0,
    [⟨0, 32, .rw, .keep⟩]⟩,
  ⟨"LDG_CH_CHG_MWH_LO", 0x1201000, .lo, [⟨0x40, 64⟩], 0x0,
    [⟨0, 32, .ro, .keep⟩]⟩,
  ⟨"LDG_CH_CHG_MWH_HI", 0x1201004, .hi, [⟨0x40, 64⟩], 0x0,
    [⟨0, 32, .ro, .keep⟩]⟩,
  ⟨"LDG_CH_DIS_MWH_LO", 0x1201008, .lo, [⟨0x40, 64⟩], 0x0,
    [⟨0, 32, .ro, .keep⟩]⟩,
  ⟨"LDG_CH_DIS_MWH_HI", 0x120100C, .hi, [⟨0x40, 64⟩], 0x0,
    [⟨0, 32, .ro, .keep⟩]⟩,
  ⟨"LDG_CH_LAST_SEQ", 0x1201010, .single, [⟨0x40, 64⟩], 0x0,
    [⟨0, 32, .ro, .keep⟩]⟩,
  ⟨"LDG_CH_GAP_CNT", 0x1201014, .single, [⟨0x40, 64⟩], 0x0,
    [⟨0, 32, .ro, .keep⟩]⟩,
  ⟨"LDG_CH_AUTH_FAIL", 0x1201018, .single, [⟨0x40, 64⟩], 0x0,
    [⟨0, 32, .ro, .keep⟩]⟩,
  ⟨"LDG_CH_REPLAY", 0x120101C, .single, [⟨0x40, 64⟩], 0x0,
    [⟨0, 32, .ro, .keep⟩]⟩,
  ⟨"LDG_CH_STATE", 0x1201020, .single, [⟨0x40, 64⟩], 0x0,
    [⟨0, 1, .ro, .keep⟩, ⟨1, 1, .ro, .keep⟩, ⟨2, 1, .ro, .keep⟩]⟩]

def regsCPH : List RegSpec := [
  ⟨"CPH_CTL", 0x1100000, .single, [], 0x0,
    [⟨0, 1, .wo, .keep⟩]⟩,
  ⟨"CPH_ALARM", 0x1100004, .single, [], 0x0,
    [⟨31, 1, .ro, .keep⟩, ⟨0, 4, .w1c, .keep⟩]⟩,
  ⟨"CPH_OP", 0x1100010, .single, [⟨0x4, 8⟩], 0x0,
    [⟨0, 32, .rw, .keep⟩]⟩,
  ⟨"CPH_CMD", 0x1100030, .single, [], 0x0,
    [⟨24, 8, .ro, .keep⟩, ⟨0, 16, .ro, .keep⟩]⟩,
  ⟨"CPH_ABORT", 0x1100034, .single, [], 0x0,
    [⟨24, 8, .ro, .keep⟩, ⟨0, 16, .wo, .keep⟩]⟩,
  ⟨"CPH_CPL", 0x1100040, .single, [], 0x0,
    [⟨31, 1, .ro, .keep⟩, ⟨24, 5, .ro, .keep⟩, ⟨0, 16, .ro, .keep⟩]⟩,
  ⟨"CPH_CPL_POP", 0x1100044, .single, [], 0x0,
    [⟨0, 1, .wo, .keep⟩]⟩,
  ⟨"CPH_STATUS", 0x1100048, .single, [], 0x0,
    [⟨16, 7, .ro, .keep⟩, ⟨0, 9, .ro, .keep⟩]⟩,
  ⟨"CPH_EVT", 0x1100050, .single, [], 0x0,
    [⟨5, 1, .w1c, .keep⟩, ⟨4, 1, .w1c, .keep⟩, ⟨3, 1, .w1c, .keep⟩, ⟨2, 1, .w1c, .keep⟩, ⟨1, 1, .w1c, .keep⟩, ⟨0, 1, .w1c, .keep⟩]⟩,
  ⟨"CPH_EVT_EN", 0x1100054, .single, [], 0x0,
    [⟨0, 6, .rw, .keep⟩]⟩,
  ⟨"CPH_MSEC_CFG", 0x1110000, .single, [⟨0x200, 24⟩], 0x10000000,
    [⟨31, 1, .ro, .keep⟩, ⟨29, 2, .rw, .keep⟩, ⟨28, 1, .rw, .keep⟩, ⟨27, 1, .rw, .keep⟩, ⟨24, 2, .rw, .keep⟩, ⟨0, 24, .rw, .keep⟩]⟩,
  ⟨"CPH_MSEC_SCI_LO", 0x1110008, .lo, [⟨0x200, 24⟩], 0x0,
    [⟨0, 32, .rw, .keep⟩]⟩,
  ⟨"CPH_MSEC_SCI_HI", 0x111000C, .hi, [⟨0x200, 24⟩], 0x0,
    [⟨0, 32, .rw, .keep⟩]⟩,
  ⟨"CPH_MSEC_SA_CTL", 0x1110040, .single, [⟨0x200, 24⟩, ⟨0x20, 8⟩], 0x0,
    [⟨31, 1, .rw, .keep⟩, ⟨16, 10, .rw, .keep⟩]⟩,
  ⟨"CPH_MSEC_SA_PN_LO", 0x1110044, .lo, [⟨0x200, 24⟩, ⟨0x20, 8⟩], 0x0,
    [⟨0, 32, .rw, .keep⟩]⟩,
  ⟨"CPH_MSEC_SA_PN_HI", 0x1110048, .hi, [⟨0x200, 24⟩, ⟨0x20, 8⟩], 0x0,
    [⟨0, 32, .rw, .keep⟩]⟩,
  ⟨"CPH_MSEC_SA_SSCI", 0x111004C, .single, [⟨0x200, 24⟩, ⟨0x20, 8⟩], 0x0,
    [⟨0, 32, .rw, .keep⟩]⟩,
  ⟨"CPH_MSEC_SA_PN_WARN", 0x111005C, .single, [⟨0x200, 24⟩, ⟨0x20, 8⟩], 0xFFFF0000,
    [⟨0, 32, .rw, .keep⟩]⟩,
  ⟨"CPH_MSEC_SA_SALT", 0x1110050, .single, [⟨0x200, 24⟩, ⟨0x20, 8⟩, ⟨0x4, 3⟩], 0x0,
    [⟨0, 32, .rw, .keep⟩]⟩,
  ⟨"CPH_MSEC_RX_UNTAGGED_CNT", 0x1110180, .single, [⟨0x200, 24⟩], 0x0,
    [⟨0, 32, .rc, .keep⟩]⟩,
  ⟨"CPH_MSEC_RX_NOSA_CNT", 0x1110184, .single, [⟨0x200, 24⟩], 0x0,
    [⟨0, 32, .rc, .keep⟩]⟩,
  ⟨"CPH_MSEC_RX_ICV_CNT", 0x1110188, .single, [⟨0x200, 24⟩], 0x0,
    [⟨0, 32, .rc, .keep⟩]⟩,
  ⟨"CPH_MSEC_RX_LATE_CNT", 0x111018C, .single, [⟨0x200, 24⟩], 0x0,
    [⟨0, 32, .rc, .keep⟩]⟩,
  ⟨"CPH_MSEC_TX_PN_EXHAUST_CNT", 0x1110190, .single, [⟨0x200, 24⟩], 0x0,
    [⟨0, 32, .rc, .keep⟩]⟩]

def regsTRI : List RegSpec := [
  ⟨"TRI_STATUS", 0x600000, .single, [], 0x0,
    [⟨17, 1, .ro, .keep⟩, ⟨16, 1, .ro, .keep⟩, ⟨12, 3, .ro, .keep⟩, ⟨8, 3, .ro, .keep⟩, ⟨0, 3, .ro, .keep⟩]⟩,
  ⟨"TRI_LAST_MM", 0x600004, .single, [], 0x0,
    [⟨31, 1, .w1c, .keep⟩, ⟨12, 1, .ro, .keep⟩, ⟨8, 3, .ro, .keep⟩, ⟨0, 4, .ro, .keep⟩]⟩,
  ⟨"TRI_LAST_MM_TIME_LO", 0x600008, .lo, [], 0x0,
    [⟨0, 32, .ro, .keep⟩]⟩,
  ⟨"TRI_LAST_MM_TIME_HI", 0x60000C, .hi, [], 0x0,
    [⟨0, 16, .ro, .keep⟩]⟩,
  ⟨"TRI_HISTORY", 0x600010, .single, [], 0x0,
    [⟨4, 3, .ro, .keep⟩, ⟨0, 2, .ro, .keep⟩]⟩,
  ⟨"TRI_AP_CTL", 0x600020, .single, [], 0x0,
    [⟨0, 4, .rw, .keep⟩]⟩,
  ⟨"TRI_AP_VEC", 0x600030, .single, [⟨0x4, 4⟩], 0x0,
    [⟨2, 30, .rw, .keep⟩]⟩,
  ⟨"TRI_EVT", 0x600040, .single, [], 0x0,
    [⟨3, 1, .w1c, .keep⟩, ⟨2, 1, .w1c, .keep⟩, ⟨1, 1, .w1c, .keep⟩, ⟨0, 1, .w1c, .keep⟩]⟩,
  ⟨"TRI_EVT_EN", 0x600044, .single, [], 0x0,
    [⟨0, 4, .rw, .keep⟩]⟩,
  ⟨"TRI_STATE_DIV_CNT", 0x600100, .single, [], 0x0,
    [⟨0, 32, .rc, .keep⟩]⟩,
  ⟨"TRI_CORE_FAULT_CNT", 0x600104, .single, [], 0x0,
    [⟨0, 32, .rc, .keep⟩]⟩,
  ⟨"TRI_INPUT_SKEW_CNT", 0x600108, .single, [], 0x0,
    [⟨0, 32, .rc, .keep⟩]⟩,
  ⟨"TRI_UNATTRIBUTED_CNT", 0x60010C, .single, [], 0x0,
    [⟨0, 32, .rc, .keep⟩]⟩,
  ⟨"TRI_RESYNC_CNT", 0x600110, .single, [], 0x0,
    [⟨0, 32, .rc, .keep⟩]⟩,
  ⟨"TRI_DEBUG_ACT_CNT", 0x600114, .single, [], 0x0,
    [⟨0, 32, .rc, .keep⟩]⟩]

def regsDBG : List RegSpec := [
  ⟨"DBG_STATUS", 0x1C00000, .single, [], 0x0,
    [⟨31, 1, .ro, .keep⟩, ⟨30, 1, .ro, .keep⟩, ⟨29, 1, .ro, .keep⟩, ⟨0, 9, .ro, .keep⟩]⟩,
  ⟨"DBG_AUTH", 0x1C00004, .single, [], 0x0,
    [⟨8, 2, .ro, .keep⟩, ⟨0, 1, .wo, .keep⟩]⟩,
  ⟨"DBG_NONCE", 0x1C00010, .single, [⟨0x4, 4⟩], 0x0,
    [⟨0, 32, .ro, .keep⟩]⟩,
  ⟨"DBG_SIG", 0x1C00100, .single, [⟨0x4, 24⟩], 0x0,
    [⟨0, 32, .rw, .keep⟩]⟩]

def regsCLP : List RegSpec := [
  ⟨"CLP_CTL", 0x500000, .single, [], 0x0,
    [⟨0, 1, .rw, .keep⟩]⟩,
  ⟨"CLP_STATUS", 0x500004, .single, [], 0x0,
    [⟨16, 10, .ro, .keep⟩, ⟨0, 10, .ro, .keep⟩]⟩,
  ⟨"CLP_REROUTE_CNT", 0x500100, .single, [], 0x0,
    [⟨0, 32, .rc, .keep⟩]⟩,
  ⟨"CLP_WAKE_CNT", 0x500104, .single, [], 0x0,
    [⟨0, 32, .rc, .keep⟩]⟩,
  ⟨"CLP_CPL_ERR_CNT", 0x500108, .single, [], 0x0,
    [⟨0, 32, .rc, .keep⟩]⟩,
  ⟨"CLP_PEND", 0x500200, .single, [⟨0x4, 16⟩], 0x0,
    [⟨0, 32, .ro, .keep⟩]⟩,
  ⟨"CLP_SRC_CFG", 0x501000, .single, [⟨0x4, 512⟩], 0x0,
    [⟨31, 1, .rw, .keep⟩, ⟨30, 1, .rw, .keep⟩, ⟨29, 1, .rw, .keep⟩, ⟨28, 1, .ro, .keep⟩, ⟨24, 3, .rw, .keep⟩, ⟨20, 2, .ro, .keep⟩, ⟨16, 4, .rw, .keep⟩, ⟨8, 3, .ro, .keep⟩, ⟨0, 7, .rw, .keep⟩]⟩,
  ⟨"CLP_TGT_CFG", 0x510000, .single, [⟨0x100, 7⟩], 0x10000,
    [⟨28, 4, .rw, .keep⟩, ⟨16, 6, .rw, (.within 1 32)⟩, ⟨6, 10, .rw, (.within 0 1000)⟩, ⟨0, 4, .rw, .keep⟩]⟩,
  ⟨"CLP_TGT_STAT", 0x510004, .single, [⟨0x100, 7⟩], 0x0,
    [⟨31, 1, .ro, .keep⟩, ⟨30, 1, .ro, .keep⟩, ⟨29, 1, .ro, .keep⟩, ⟨28, 1, .ro, .keep⟩, ⟨16, 4, .ro, .keep⟩, ⟨0, 10, .ro, .keep⟩]⟩,
  ⟨"CLP_TGT_CPL", 0x510008, .single, [⟨0x100, 7⟩], 0x0,
    [⟨0, 9, .wo, .keep⟩]⟩,
  ⟨"CLP_TGT_DLV", 0x510040, .single, [⟨0x100, 7⟩, ⟨0x4, 16⟩], 0x0,
    [⟨0, 32, .ro, .keep⟩]⟩]

def regsHST : List RegSpec := [
  ⟨"HST_CTL", 0x1800000, .single, [], 0x0,
    [⟨24, 4, .ro, .keep⟩, ⟨16, 6, .rw, .keep⟩, ⟨8, 6, .wo, .keep⟩, ⟨0, 1, .wo, .keep⟩]⟩,
  ⟨"HST_POOL", 0x1800004, .single, [], 0x8000400,
    [⟨24, 4, .ro, .keep⟩, ⟨0, 11, .ro, .keep⟩]⟩,
  ⟨"HST_TN_STATE", 0x1800100, .single, [⟨0x4, 64⟩], 0x0,
    [⟨8, 4, .ro, .keep⟩, ⟨3, 1, .ro, .keep⟩, ⟨0, 3, .ro, .keep⟩]⟩,
  ⟨"HST_EVT", 0x1800040, .single, [], 0x0,
    [⟨6, 1, .w1c, .keep⟩, ⟨5, 1, .w1c, .keep⟩, ⟨4, 1, .w1c, .keep⟩, ⟨3, 1, .w1c, .keep⟩, ⟨2, 1, .w1c, .keep⟩, ⟨1, 1, .w1c, .keep⟩, ⟨0, 1, .w1c, .keep⟩]⟩,
  ⟨"HST_EVT_EN", 0x1800044, .single, [], 0x0,
    [⟨0, 7, .rw, .keep⟩]⟩,
  ⟨"HST_ATTACH_CNT", 0x1800080, .single, [], 0x0,
    [⟨0, 32, .rc, .keep⟩]⟩,
  ⟨"HST_ATTACH_FAIL_CNT", 0x1800084, .single, [], 0x0,
    [⟨0, 32, .rc, .keep⟩]⟩,
  ⟨"HST_RECLAIM_CNT", 0x1800088, .single, [], 0x0,
    [⟨0, 32, .rc, .keep⟩]⟩,
  ⟨"HST_INBAND_DROP_CNT", 0x180008C, .single, [], 0x0,
    [⟨0, 32, .rc, .keep⟩]⟩,
  ⟨"HST_HV_RX_FRAMES_LO", 0x1820000, .lo, [⟨0x20, 168⟩], 0x0,
    [⟨0, 32, .ro, .keep⟩]⟩,
  ⟨"HST_HV_RX_FRAMES_HI", 0x1820004, .hi, [⟨0x20, 168⟩], 0x0,
    [⟨0, 32, .ro, .keep⟩]⟩,
  ⟨"HST_HV_RX_BYTES_LO", 0x1820008, .lo, [⟨0x20, 168⟩], 0x0,
    [⟨0, 32, .ro, .keep⟩]⟩,
  ⟨"HST_HV_RX_BYTES_HI", 0x182000C, .hi, [⟨0x20, 168⟩], 0x0,
    [⟨0, 32, .ro, .keep⟩]⟩,
  ⟨"HST_HV_TX_FRAMES_LO", 0x1820010, .lo, [⟨0x20, 168⟩], 0x0,
    [⟨0, 32, .ro, .keep⟩]⟩,
  ⟨"HST_HV_TX_FRAMES_HI", 0x1820014, .hi, [⟨0x20, 168⟩], 0x0,
    [⟨0, 32, .ro, .keep⟩]⟩,
  ⟨"HST_HV_RX_DROP_CNT", 0x1820018, .single, [⟨0x20, 168⟩], 0x0,
    [⟨0, 32, .rc, .keep⟩]⟩,
  ⟨"HST_HV_TX_DROP_CNT", 0x182001C, .single, [⟨0x20, 168⟩], 0x0,
    [⟨0, 32, .rc, .keep⟩]⟩,
  ⟨"HST_IFQ_BASE_LO", 0x1800200, .lo, [⟨0x20, 3⟩], 0x0,
    [⟨0, 32, .rw, .keep⟩]⟩,
  ⟨"HST_IFQ_BASE_HI", 0x1800204, .hi, [⟨0x20, 3⟩], 0x0,
    [⟨0, 32, .rw, .keep⟩]⟩,
  ⟨"HST_IFQ_CFG", 0x1800208, .single, [⟨0x20, 3⟩], 0x0,
    [⟨31, 1, .rw, .keep⟩, ⟨0, 4, .rw, (.outside 6 12 6)⟩]⟩,
  ⟨"HST_IFQ_TAIL", 0x180020C, .single, [⟨0x20, 3⟩], 0x0,
    [⟨0, 12, .rw, .keep⟩]⟩,
  ⟨"HST_IFQ_HEAD", 0x1800210, .single, [⟨0x20, 3⟩], 0x0,
    [⟨0, 12, .ro, .keep⟩]⟩]

def regsPWR : List RegSpec := [
  ⟨"PWR_MAP", 0x200000, .single, [], 0x0,
    [⟨26, 1, .ch, .keep⟩, ⟨25, 1, .ch, .keep⟩, ⟨24, 1, .ch, .keep⟩, ⟨0, 24, .ch, .keep⟩]⟩,
  ⟨"PWR_DOM_STAT", 0x200004, .single, [], 0x1,
    [⟨0, 12, .ro, .keep⟩]⟩,
  ⟨"PWR_DOM_CTL", 0x200008, .single, [], 0x0,
    [⟨28, 4, .ro, .keep⟩, ⟨0, 12, .rw, .keep⟩]⟩,
  ⟨"PWR_WAKE_CFG", 0x200010, .single, [], 0x0,
    [⟨16, 1, .rw, .keep⟩, ⟨0, 8, .rw, .keep⟩]⟩,
  ⟨"PWR_WAKE_TIMER_LO", 0x200014, .lo, [], 0x0,
    [⟨0, 32, .rw, .keep⟩]⟩,
  ⟨"PWR_WAKE_TIMER_HI", 0x200018, .hi, [], 0x0,
    [⟨0, 16, .rw, .keep⟩]⟩,
  ⟨"PWR_WAKE_STATUS", 0x200020, .single, [], 0x0,
    [⟨31, 1, .w1c, .keep⟩, ⟨0, 8, .ro, .keep⟩]⟩,
  ⟨"PWR_BOOT_STATUS", 0x200030, .single, [], 0x0,
    [⟨8, 8, .ro, .keep⟩, ⟨4, 2, .ro, .keep⟩, ⟨0, 3, .ro, .keep⟩]⟩,
  ⟨"PWR_HOSTBOOT_LO", 0x200040, .lo, [], 0x0,
    [⟨0, 32, .rw, .keep⟩]⟩,
  ⟨"PWR_HOSTBOOT_HI", 0x200044, .hi, [], 0x0,
    [⟨0, 32, .rw, .keep⟩]⟩,
  ⟨"PWR_HOSTBOOT_GO", 0x200048, .single, [], 0x0,
    [⟨0, 1, .wo, .keep⟩]⟩,
  ⟨"PWR_EVT", 0x200050, .single, [], 0x0,
    [⟨2, 1, .w1c, .keep⟩, ⟨1, 1, .w1c, .keep⟩, ⟨0, 1, .w1c, .keep⟩]⟩,
  ⟨"PWR_EVT_EN", 0x200054, .single, [], 0x0,
    [⟨0, 3, .rw, .keep⟩]⟩,
  ⟨"PWR_SLEEP_FLUSH_CNT", 0x200100, .single, [], 0x0,
    [⟨0, 32, .rc, .keep⟩]⟩,
  ⟨"PWR_SLEEP_CNT", 0x200104, .single, [], 0x0,
    [⟨0, 32, .ro, .keep⟩]⟩]

def regsCLK : List RegSpec := [
  ⟨"CLK_STATUS", 0x300000, .single, [], 0x0,
    [⟨12, 1, .ro, .keep⟩, ⟨10, 2, .ro, .keep⟩, ⟨4, 6, .ro, .keep⟩, ⟨3, 1, .ro, .keep⟩, ⟨2, 1, .ro, .keep⟩, ⟨1, 1, .ro, .keep⟩, ⟨0, 1, .ro, .keep⟩]⟩,
  ⟨"CLK_EVT", 0x300040, .single, [], 0x0,
    [⟨1, 1, .w1c, .keep⟩, ⟨0, 1, .w1c, .keep⟩]⟩,
  ⟨"CLK_EVT_EN", 0x300044, .single, [], 0x0,
    [⟨0, 2, .rw, .keep⟩]⟩]

def regsRAS : List RegSpec := [
  ⟨"RAS_ERR_STAT", 0x1B00000, .single, [], 0x0,
    [⟨0, 7, .ro, .keep⟩]⟩,
  ⟨"RAS_ERR_REC", 0x1B00004, .single, [⟨0x4, 4⟩], 0x0,
    [⟨0, 32, .ro, .keep⟩]⟩,
  ⟨"RAS_ERR_POP", 0x1B00014, .single, [], 0x0,
    [⟨0, 1, .wo, .keep⟩]⟩,
  ⟨"RAS_ERR_OUT", 0x1B00020, .single, [], 0x0,
    [⟨31, 1, .ro, .keep⟩, ⟨1, 6, .ro, .keep⟩, ⟨0, 1, .rw, .keep⟩]⟩,
  ⟨"RAS_ALARM", 0x1B00030, .single, [], 0x0,
    [⟨4, 4, .ro, .keep⟩, ⟨0, 4, .w1c, .keep⟩]⟩,
  ⟨"RAS_TEMP", 0x1B00034, .single, [], 0x0,
    [⟨0, 12, .ro, .keep⟩]⟩,
  ⟨"RAS_TEMP_ALARM", 0x1B00038, .single, [], 0x4E2,
    [⟨0, 12, .rw, (.within 850 1300)⟩]⟩,
  ⟨"RAS_WDG", 0x1B00040, .single, [], 0x0,
    [⟨9, 1, .w1c, .keep⟩, ⟨8, 1, .ro, .keep⟩, ⟨0, 8, .ro, .keep⟩]⟩,
  ⟨"RAS_WDG_ANS", 0x1B00044, .single, [], 0x0,
    [⟨0, 8, .wo, .keep⟩]⟩,
  ⟨"RAS_REPAIR_STAT", 0x1B00050, .single, [], 0x0,
    [⟨0, 9, .ro, .keep⟩]⟩,
  ⟨"RAS_REPAIR", 0x1B01000, .single, [⟨0x4, 256⟩], 0x0,
    [⟨31, 1, .ro, .keep⟩, ⟨30, 1, .ro, .keep⟩, ⟨29, 1, .ro, .keep⟩, ⟨28, 1, .ro, .keep⟩, ⟨18, 10, .ro, .keep⟩, ⟨0, 18, .ro, .keep⟩]⟩,
  ⟨"RAS_FCAL_SEL", 0x1B00060, .single, [], 0x0,
    [⟨16, 1, .rw, .keep⟩, ⟨8, 3, .rw, .keep⟩, ⟨0, 8, .rw, .keep⟩]⟩,
  ⟨"RAS_FCAL_VAL", 0x1B00064, .single, [], 0x0,
    [⟨31, 1, .ro, .keep⟩, ⟨0, 20, .ro, .keep⟩]⟩,
  ⟨"RAS_UCAL", 0x1B00100, .single, [⟨0x4, 32⟩], 0x0,
    [⟨1, 1, .ro, .keep⟩, ⟨0, 1, .ro, .keep⟩]⟩,
  ⟨"RAS_EVT", 0x1B00200, .single, [], 0x0,
    [⟨4, 1, .w1c, .keep⟩, ⟨3, 1, .w1c, .keep⟩, ⟨2, 1, .w1c, .keep⟩, ⟨1, 1, .w1c, .keep⟩, ⟨0, 1, .w1c, .keep⟩]⟩,
  ⟨"RAS_EVT_EN", 0x1B00204, .single, [], 0x0,
    [⟨0, 5, .rw, .keep⟩]⟩,
  ⟨"RAS_REC_OVF_CNT", 0x1B00300, .single, [], 0x0,
    [⟨0, 32, .rc, .keep⟩]⟩,
  ⟨"RAS_PKT_STOMP_CNT", 0x1B00304, .single, [], 0x0,
    [⟨0, 32, .rc, .keep⟩]⟩,
  ⟨"RAS_WDG_OVERRUN_CNT", 0x1B00308, .single, [], 0x0,
    [⟨0, 32, .rc, .keep⟩]⟩]

def regsTNW : List RegSpec := [
  ⟨"TNW_CTL", 0x2000000, .single, [⟨0x10000, 64⟩], 0x0,
    [⟨12, 4, .ro, .keep⟩, ⟨8, 1, .rw, .keep⟩, ⟨0, 4, .wo, .keep⟩]⟩,
  ⟨"TNW_STATUS", 0x2000004, .single, [⟨0x10000, 64⟩], 0x0,
    [⟨16, 4, .ro, .keep⟩, ⟨8, 6, .ro, .keep⟩, ⟨0, 3, .ro, .keep⟩]⟩,
  ⟨"TNW_REQ0", 0x2000010, .single, [⟨0x10000, 64⟩], 0x0,
    [⟨16, 12, .rw, .keep⟩, ⟨0, 7, .rw, .keep⟩]⟩,
  ⟨"TNW_REQ1", 0x2000014, .single, [⟨0x10000, 64⟩], 0x0,
    [⟨0, 25, .rw, .keep⟩]⟩,
  ⟨"TNW_REQ2", 0x2000018, .single, [⟨0x10000, 64⟩], 0x0,
    [⟨16, 13, .rw, .keep⟩, ⟨0, 10, .rw, .keep⟩]⟩,
  ⟨"TNW_REQ3", 0x200001C, .single, [⟨0x10000, 64⟩], 0x0,
    [⟨8, 7, .rw, .keep⟩, ⟨0, 4, .rw, .keep⟩]⟩,
  ⟨"TNW_LIVE", 0x2000020, .single, [⟨0x10000, 64⟩], 0x0,
    [⟨0, 32, .wo, .keep⟩]⟩,
  ⟨"TNW_CMDQ_BASE_LO", 0x2000030, .lo, [⟨0x10000, 64⟩], 0x0,
    [⟨0, 32, .rw, .keep⟩]⟩,
  ⟨"TNW_CMDQ_BASE_HI", 0x2000034, .hi, [⟨0x10000, 64⟩], 0x0,
    [⟨0, 32, .rw, .keep⟩]⟩,
  ⟨"TNW_CPLQ_BASE_LO", 0x2000048, .lo, [⟨0x10000, 64⟩], 0x0,
    [⟨0, 32, .rw, .keep⟩]⟩,
  ⟨"TNW_CPLQ_BASE_HI", 0x200004C, .hi, [⟨0x10000, 64⟩], 0x0,
    [⟨0, 32, .rw, .keep⟩]⟩,
  ⟨"TNW_CMDQ_CFG", 0x2000038, .single, [⟨0x10000, 64⟩], 0x0,
    [⟨31, 1, .rw, .keep⟩, ⟨16, 11, .rw, .keep⟩, ⟨0, 4, .rw, (.outside 4 10 4)⟩]⟩,
  ⟨"TNW_CPLQ_CFG", 0x2000050, .single, [⟨0x10000, 64⟩], 0x0,
    [⟨31, 1, .rw, .keep⟩, ⟨16, 11, .rw, .keep⟩, ⟨0, 4, .rw, (.outside 4 12 4)⟩]⟩,
  ⟨"TNW_CMDQ_TAIL", 0x200003C, .single, [⟨0x10000, 64⟩], 0x0,
    [⟨0, 10, .rw, .keep⟩]⟩,
  ⟨"TNW_CMDQ_HEAD", 0x2000040, .single, [⟨0x10000, 64⟩], 0x0,
    [⟨0, 10, .ro, .keep⟩]⟩,
  ⟨"TNW_CPLQ_HEAD", 0x2000054, .single, [⟨0x10000, 64⟩], 0x0,
    [⟨0, 12, .rw, .keep⟩]⟩,
  ⟨"TNW_CPLQ_TAIL", 0x2000058, .single, [⟨0x10000, 64⟩], 0x0,
    [⟨0, 12, .ro, .keep⟩]⟩,
  ⟨"TNW_CAP_HEAD", 0x2000060, .single, [⟨0x10000, 64⟩], 0x0,
    [⟨0, 24, .ro, .keep⟩]⟩,
  ⟨"TNW_CAP_TAIL", 0x2000064, .single, [⟨0x10000, 64⟩], 0x0,
    [⟨0, 24, .rw, .keep⟩]⟩,
  ⟨"TNW_RP_TX_BASE_LO", 0x2004000, .lo, [⟨0x10000, 64⟩, ⟨0x40, 64⟩], 0x0,
    [⟨0, 32, .rw, .keep⟩]⟩,
  ⟨"TNW_RP_TX_BASE_HI", 0x2004004, .hi, [⟨0x10000, 64⟩, ⟨0x40, 64⟩], 0x0,
    [⟨0, 32, .rw, .keep⟩]⟩,
  ⟨"TNW_RP_RX_BASE_LO", 0x2004008, .lo, [⟨0x10000, 64⟩, ⟨0x40, 64⟩], 0x0,
    [⟨0, 32, .rw, .keep⟩]⟩,
  ⟨"TNW_RP_RX_BASE_HI", 0x200400C, .hi, [⟨0x10000, 64⟩, ⟨0x40, 64⟩], 0x0,
    [⟨0, 32, .rw, .keep⟩]⟩,
  ⟨"TNW_RP_CFG", 0x2004010, .single, [⟨0x10000, 64⟩, ⟨0x40, 64⟩], 0x0,
    [⟨31, 1, .rw, .keep⟩, ⟨16, 8, .rw, .keep⟩, ⟨12, 4, .rw, (.outside 6 12 6)⟩, ⟨8, 4, .rw, (.outside 6 12 6)⟩]⟩,
  ⟨"TNW_RP_VEC", 0x2004014, .single, [⟨0x10000, 64⟩, ⟨0x40, 64⟩], 0x0,
    [⟨16, 11, .rw, .keep⟩, ⟨0, 11, .rw, .keep⟩]⟩]

def regsTNW1 : List RegSpec := [
  ⟨"TNW_RP_TX_TAIL", 0x2004018, .single, [⟨0x10000, 64⟩, ⟨0x40, 64⟩], 0x0,
    [⟨0, 12, .rw, .keep⟩]⟩,
  ⟨"TNW_RP_TX_HEAD", 0x200401C, .single, [⟨0x10000, 64⟩, ⟨0x40, 64⟩], 0x0,
    [⟨0, 12, .ro, .keep⟩]⟩,
  ⟨"TNW_RP_RX_TAIL", 0x2004020, .single, [⟨0x10000, 64⟩, ⟨0x40, 64⟩], 0x0,
    [⟨0, 12, .rw, .keep⟩]⟩,
  ⟨"TNW_RP_RX_HEAD", 0x2004024, .single, [⟨0x10000, 64⟩, ⟨0x40, 64⟩], 0x0,
    [⟨0, 12, .ro, .keep⟩]⟩,
  ⟨"TNW_VEC", 0x2008000, .single, [⟨0x10000, 64⟩, ⟨0x4, 2048⟩], 0x10001,
    [⟨31, 1, .ro, .keep⟩, ⟨16, 10, .rw, (.within 0 1000)⟩, ⟨0, 8, .rw, (.within 1 255)⟩]⟩]


/-- The registers of the block that holds an address (R29); tenant windows answer for every address from
0x200_0000 on. -/
def blockRegs (addr : Nat) : List RegSpec :=
  match addr / 0x100000 with
  | 0x0 => regsGLB
  | 0x1 => regsCHT
  | 0x2 => regsPWR
  | 0x3 => regsCLK
  | 0x4 => regsTIM ++ regsTIM1
  | 0x5 => regsCLP
  | 0x6 => regsTRI
  | 0x7 => regsRED
  | 0x8 => regsPRS
  | 0x9 => regsTBL ++ regsTBL1
  | 0xA => regsBPM
  | 0xB => regsSCH
  | 0xC => regsCAR ++ regsCAR1
  | 0xD => regsFRE ++ regsFRE1
  | 0xE => regsPLC
  | 0xF => regsFWL
  | 0x10 => regsBLF
  | 0x11 => regsCPH
  | 0x12 => regsLDG
  | 0x13 => regsETH
  | 0x14 => regsT1S
  | 0x15 => regsCAN ++ regsCAN1
  | 0x16 => regsLIN
  | 0x17 => regsNMW ++ regsNMW1
  | 0x18 => regsHST
  | 0x19 => regsCAP
  | 0x1A => regsMEM
  | 0x1B => regsRAS
  | 0x1C => regsDBG
  | n => if 0x20 ≤ n then regsTNW ++ regsTNW1 else []

/-- Whether `x` lies on an instance of an array with these dimensions, outermost first. -/
def inDims : List Dim → Nat → Bool
  | [], x => x == 0
  | d :: ds, x => decide (x / d.stride < d.count) && inDims ds (x % d.stride)

/-- The register that holds an address, or none at a reserved offset (R5). -/
def specAt (addr : Nat) : Option RegSpec :=
  (blockRegs addr).find? (fun r => decide (r.base ≤ addr) && inDims r.dims (addr - r.base))

/-- The reset value of a register (each register heading). The heads of the free lists differ by pool, and only TB0
runs from reset. -/
def resetValue (addr : Nat) : Word :=
  match specAt addr with
  | none => 0
  | some r =>
    if r.base = rBPM_POOL_HEAD .A 0 then BitVec.ofNat 32 (r.reset + 0x40000000 * ((addr - r.base) % 0x40 / 0x10))
    else if r.base = rTIM_TB_CTL 0 ∧ addr ≠ r.base then 0
    else BitVec.ofNat 32 r.reset

end Sys2Proof.Machine
end

