-- ==== Sys2Proof/Machine/Operands.lean ====
section
/-! DEFINITION. The operand forms of the register file: reading and writing registers and fields, and 64-bit pairs. -/

namespace Sys2Proof.Machine

/-- The stored value of a register; an unlisted one holds its reset value. -/
def State.reg (s : State) (a : Nat) : Word :=
  match tabFind s.regs a with
  | some w => w
  | none => resetValue a

/-- A register written by the device. -/
def State.setReg (s : State) (a : Nat) (w : Word) : State :=
  { s with regs := tabSet (resetValue a) s.regs a w }

/-- The value of a field. -/
def State.fld (s : State) (f : Fld) : Nat := bits (s.reg f.addr).toNat f.lsb f.wid

/-- A field written by the device; a wider value keeps its low bits (R9). -/
def State.put (s : State) (f : Fld) (v : Nat) : State :=
  s.setReg f.addr (BitVec.ofNat 32 (setBits (s.reg f.addr).toNat f.lsb f.wid v))

/-- Whether a one-bit field reads 1. -/
def State.flag (s : State) (f : Fld) : Bool := s.fld f == 1

/-- A 64-bit value held as a pair of fields. -/
def State.fld64 (s : State) (lo hi : Fld) : Nat := s.fld lo + 2 ^ lo.wid * s.fld hi

/-- A pair of fields written. -/
def State.put64 (s : State) (lo hi : Fld) (v : Nat) : State := (s.put lo v).put hi (v / 2 ^ lo.wid)

/-- The state of a plane beside its registers. -/
def State.plane (s : State) : Plane → PlaneSt
  | .A => s.planeA
  | .B => s.planeB

/-- A plane changed. -/
def State.setPlane (s : State) (pl : Plane) (p : PlaneSt) : State :=
  match pl with
  | .A => { s with planeA := p }
  | .B => { s with planeB := p }

/-- The other plane. -/
def twinOf : Plane → Plane
  | .A => .B
  | .B => .A

/-- A plane's number: 0 for A, 1 for B. -/
def planeNum : Plane → Nat
  | .A => 0
  | .B => 1

/-- The plane of a one-bit field. -/
def planeOf (n : Nat) : Plane := if n = 0 then .A else .B

/-- A field written in both plane halves (R7, MW and CH fields of plane blocks). -/
def State.putBoth (s : State) (f : Plane → Fld) (v : Nat) : State := (s.put (f .A) v).put (f .B) v

end Sys2Proof.Machine
end

