-- ==== Sys2Proof/Machine/Flags.lean ====
section
/-! DEFINITION. Flags and counters: event bits, wrapping and saturating counters, and the device's condition fields. -/

namespace Sys2Proof.Machine

/-- An event bit set (W1C bits are set by the device, R7). -/
def State.setFlag (s : State) (f : Fld) : State := s.put f 1

/-- A bit cleared by the device. -/
def State.clearFlag (s : State) (f : Fld) : State := s.put f 0

/-- A counter advanced by `n`; it wraps at its width (R9). -/
def State.addCnt (s : State) (f : Fld) (n : Nat) : State := s.put f (s.fld f + n)

/-- A counter advanced by 1. -/
def State.inc (s : State) (f : Fld) : State := s.addCnt f 1

/-- A counter that saturates, advanced by 1 (R9). -/
def State.incSat (s : State) (f : Fld) : State := s.put f (min (s.fld f + 1) (2 ^ f.wid - 1))

/-- A 64-bit counter held as a pair, advanced by `n`. -/
def State.addCnt64 (s : State) (lo hi : Fld) (n : Nat) : State := s.put64 lo hi (s.fld64 lo hi + n)

/-- An event source of Clapper pulses (R472): the source is noted until the interrupt controller sees it. -/
def State.pulse (s : State) (src : Nat) : State :=
  { s with pulses := if src ∈ s.pulses then s.pulses else s.pulses ++ [src] }

/-! ## Device state and plane conditions -/

/-- The device states with a code (Device states). -/
inductive DevState where
  | boot
  | startUp
  | run
  | test
  | recovery
  deriving DecidableEq, Repr

/-- The code of a device state in GLB_DEVSTATE.STATE. -/
def DevState.code : DevState → Nat
  | .boot => 0
  | .startUp => 1
  | .run => 2
  | .test => 3
  | .recovery => 4

/-- The conditions of a plane. -/
inductive Cond where
  | off
  | inService
  | isolated
  | resync
  | failed
  deriving DecidableEq, Repr

/-- The code of a plane condition. -/
def Cond.code : Cond → Nat
  | .off => 0
  | .inService => 1
  | .isolated => 2
  | .resync => 3
  | .failed => 4

/-- The field that shows the condition of a plane. -/
def condFld : Plane → Fld
  | .A => GLB_DEVSTATE_PA_COND
  | .B => GLB_DEVSTATE_PB_COND

/-- Whether the device is in a state. -/
def State.inState (s : State) (d : DevState) : Bool := s.fld GLB_DEVSTATE_STATE == d.code

/-- Whether a plane is in a condition. -/
def State.isCond (s : State) (pl : Plane) (c : Cond) : Bool := s.fld (condFld pl) == c.code

/-- The LEAD plane (R18). -/
def State.lead (s : State) : Plane := planeOf (s.fld GLB_DEVSTATE_LEAD)

/-- The take-back timer restarts (R335). -/
def State.takebackFromNow (s : State) : State := { s with tbFrom := s.clk }

/-- A change of STATE, SAFE, LEAD or a plane condition raises STATE_CHANGE_EV (R36, source 0); but for SAFE, the take-back timer
starts anew with it (R335). -/
def State.putDev (s : State) (f : Fld) (v : Nat) : State :=
  if s.fld f = v then s
  else (if f = GLB_DEVSTATE_SAFE then s.put f v else (s.put f v).takebackFromNow).pulse 0

/-- The device enters a state. -/
def State.enter (s : State) (d : DevState) : State := s.putDev GLB_DEVSTATE_STATE d.code

/-- A plane takes a condition. -/
def State.setCond (s : State) (pl : Plane) (c : Cond) : State := s.putDev (condFld pl) c.code

/-- A plane is IN_SERVICE and accepts ingress (R14, R64). -/
def State.accepts (s : State) (pl : Plane) : Bool := s.isCond pl .inService && !(s.plane pl).handing

/-- The planes that receive table writes: IN_SERVICE or in RESYNC after its copy (R17, R332). -/
def State.takesWrites (s : State) (pl : Plane) : Bool :=
  s.isCond pl .inService || (s.isCond pl .resync && s.resyncCopied)

/-- The planes that the table engine writes: those that take writes, else a plane in RESYNC (R560). -/
def State.tblPlanes (s : State) : List Plane :=
  let l := [Plane.A, Plane.B].filter s.takesWrites
  if l = [] then [Plane.A, Plane.B].filter (fun pl => s.isCond pl .resync) else l

end Sys2Proof.Machine
end

