-- ==== Sys2Proof/Machine/Ras.lean ====
section
/-! DEFINITION. Error records (R524, R526). -/

namespace Sys2Proof.Machine

/-- An error record enters the FIFO of 64, or is discarded and counted (R526). -/
def State.rasRecord (s : State) (cls sev unit plane detail : Nat) : State :=
  if 64 ≤ s.errFifo.length then (s.inc RAS_REC_OVF_CNT_VAL).setFlag RAS_EVT_REC_OVF
  else
    let s0 : State := { s with errFifo := s.errFifo ++ [⟨cls, sev, unit, plane, detail, s.ao⟩] }
    let s1 := s0.setFlag RAS_EVT_REC
    if sev = 2 then s1.setFlag RAS_EVT_FATAL else s1

/-- A cause that drives the ERR_OUT pair to fault until the next reset (R528): 0 safe state, 1 simplex, 2 VOTER_SUSPECT,
3 MGMT_UNCORR, 4 ALARM, 5 boot failure. -/
def State.errCause (s : State) (b : Nat) : State := s.put RAS_ERR_OUT_CAUSE (setBits (s.fld RAS_ERR_OUT_CAUSE) b 1 1)

/-- The plane bit of a record. -/
def planeBit : Plane → Nat
  | .A => 1
  | .B => 2

end Sys2Proof.Machine
end

