-- ==== Sys2Proof/Machine/Tables.lean ====
section
/-! DEFINITION. The exact-match tables: candidate buckets, insertion by relocation, lookup by precedence, pages and
their backing copy, parity (R132–R168). -/

namespace Sys2Proof.Machine

/-! ## Status words (R136) -/

def stVALID : Nat := 0x001
def stCHART : Nat := 0x002
def stEPOCH : Nat := 0x004
def stLEARNED : Nat := 0x008
def stLOCK : Nat := 0x010
def stPIN : Nat := 0x020
def stAUTOPIN : Nat := 0x040
def stHIT : Nat := 0x200

/-- Whether every bit of a mask is set in a status word. -/
def stHas (st mask : Nat) : Bool := st &&& mask == mask

/-- A status word with a mask's bits set, or cleared. -/
def stSet (st mask : Nat) : Nat := st ||| mask
def stClr (st mask : Nat) : Nat := st - (st &&& mask)

/-- AGE of a status word (bits 8:7). -/
def stAge (st : Nat) : Nat := bits st 7 2

/-- AGE replaced. -/
def stSetAge (st a : Nat) : Nat := setBits st 7 2 a

/-- Precedence of an entry in a lookup: 3 for a chart entry of the current epoch, 2 for a static one, 1 for a learned
one, 0 for one that no lookup takes (R135, R59). -/
def rank (epoch st : Nat) : Nat :=
  if !stHas st stVALID then 0
  else if stHas st stCHART then (if bitN (stHas st stEPOCH) = epoch then 3 else 0)
  else if stHas st stLEARNED then 1 else 2

/-- The status word of a new entry. -/
def stChart (epoch : Nat) (pin : Bool) : Nat :=
  stVALID + stCHART + (if epoch = 1 then stEPOCH else 0) + (if pin then stPIN else 0)
def stStatic (pin : Bool) : Nat := stVALID + (if pin then stPIN else 0)

/-- An entry that holds nothing. -/
def Slot.none : Slot := ⟨0, 0, 0⟩

/-! ## Geometry -/

/-- Entries per bucket: 4 narrow, 2 wide (R133). -/
def Region.k (r : Region) : Nat := if r.wide then 2 else 4

/-- Key bytes of a region in network order. -/
def keyBytes (wide : Bool) (key : Nat) : List Byte := beBytes (if wide then 40 else 16) key

/-- SEED over a key: XORed into each 4-byte group, its most significant byte first (R134). -/
def seedXor (seed : Nat) (bs : List Byte) : List Byte :=
  bs.mapIdx (fun i b => b ^^^ (beBytes 4 seed).getD (i % 4) 0)

/-- The first candidate bucket. -/
def cand0 (r : Region) (key : Nat) : Nat := crc32c 0xFFFFFFFF (keyBytes r.wide key) % r.logical

/-- The second candidate bucket under a seed. -/
def cand1 (r : Region) (seed key : Nat) : Nat := crc32 (seedXor seed (keyBytes r.wide key)) % r.logical

/-- The tag of a key: its most significant byte. -/
def keyTag (wide : Bool) (key : Nat) : Nat := bits key (if wide then 312 else 120) 8

/-- The page frame that holds a logical bucket's page, if any. -/
def Region.frameOf (r : Region) (b : Nat) : Option Nat :=
  (r.frames.find? (fun f => f.2 == b / 16)).map (·.1)

/-- On-chip bucket of a logical bucket: none when its page is not resident (R161, R163). -/
def Region.bucketAt (r : Region) (b : Nat) : Option Nat :=
  if r.pageable then (r.frameOf b).map (fun f => r.base + 16 * f + b % 16) else some (r.base + b)

/-- On-chip slot of an entry. -/
def Region.slotAt (r : Region) (b e : Nat) : Option Nat :=
  (r.bucketAt b).map (fun x => 4 * x + (if r.wide then 2 * e else e))

/-- LPDDR byte of the backing copy of a logical bucket (R161). -/
def Region.backAddr (r : Region) (b : Nat) : Nat := r.backing * 65536 + 128 * b

/-- Bytes of an entry: its slots hold the key in network order, then the result word, little-endian. -/
def Region.entrySize (r : Region) : Nat := if r.wide then 48 else 24

/-- An entry read from the backing copy. -/
def backGet (r : Region) (m : Mem) (b e : Nat) : Slot :=
  let a := r.backAddr b + r.entrySize * e
  let kb := if r.wide then 40 else 16
  ⟨beNat (memTake m a kb), memLe m (a + kb) 8, memLe m (r.backAddr b + 96 + 2 * (if r.wide then 2 * e else e)) 2⟩

/-- An entry written to the backing copy, with the bucket's CRC made good. -/
def backPut (r : Region) (m : Mem) (b e : Nat) (x : Slot) : Mem :=
  let a := r.backAddr b
  let m1 := memPut m (a + r.entrySize * e) (keyBytes r.wide x.key ++ leBytes 8 x.result)
  let m2 := memPut m1 (a + 96 + 2 * (if r.wide then 2 * e else e)) (leBytes 2 x.status)
  memPut m2 (a + 124) (leBytes 4 (crc32c 0xFFFFFFFF (memTake m2 a 124)))

/-- The backing copy of a bucket is good: its CRC holds, or nothing was ever written there (log 14). -/
def backGood (r : Region) (m : Mem) (b : Nat) : Bool :=
  let a := r.backAddr b
  !memAnyNonzero m a 128 || memLe m (a + 124) 4 == crc32c 0xFFFFFFFF (memTake m a 124)

/-- An entry of a region as the table engine sees it: the backing copy of a pageable region, else the plane's slot. -/
def entryAt (p : PlaneSt) (lp : Mem) (r : Region) (b e : Nat) : Slot :=
  if r.pageable then backGet r lp b e
  else match r.slotAt b e with
    | some n => tabGet Slot.none p.exact n
    | none => Slot.none

/-- Region `i` of a plane. -/
def PlaneSt.region (p : PlaneSt) (i : Nat) : Option Region := p.regions[i]?

/-- Region `i` of a plane changed. -/
def PlaneSt.setRegion (p : PlaneSt) (i : Nat) (r : Region) : PlaneSt := { p with regions := p.regions.set i r }

/-! ## Writes -/

/-- One change the table engine makes. -/
inductive TblOp where
  | put (b e : Nat) (x : Slot)
  | move (b e b' e' : Nat)
  | clear (b e : Nat)
  | status (b e : Nat) (set clr : Nat)
  deriving DecidableEq, Repr

/-- The slots of an entry whose first slot is `n` (R133). -/
def Region.slotsOf (r : Region) (n : Nat) : List Nat := if r.wide then [n, n + 1] else [n]

/-- A plane's own slot of an entry written; a write makes its bad slots good again. -/
def PlaneSt.putSlot (p : PlaneSt) (r : Region) (b e : Nat) (x : Slot) : PlaneSt :=
  match r.slotAt b e with
  | none => p
  | some n => { p with
      exact := tabSet Slot.none p.exact n x
      badSlots := p.badSlots.filter (fun m => !(r.slotsOf n).contains m)
      badStatus := p.badStatus.filter (· ≠ n) }

/-- A plane's own slot of an entry. -/
def PlaneSt.getSlot (p : PlaneSt) (r : Region) (b e : Nat) : Slot :=
  match r.slotAt b e with
  | none => Slot.none
  | some n => tabGet Slot.none p.exact n

/-- One change applied to a plane's on-chip copy. HIT and AGE are the plane's own (R132). -/
def PlaneSt.tblOp (p : PlaneSt) (r : Region) : TblOp → PlaneSt
  | .put b e x => p.putSlot r b e x
  | .move b e b' e' => (p.putSlot r b' e' (p.getSlot r b e)).putSlot r b e Slot.none
  | .clear b e => p.putSlot r b e Slot.none
  | .status b e st cl =>
    let x := p.getSlot r b e
    if stHas x.status stVALID then p.putSlot r b e { x with status := stSet (stClr x.status cl) st } else p

/-- One change applied to the backing copy. -/
def backOp (r : Region) (m : Mem) : TblOp → Mem
  | .put b e x => backPut r m b e x
  | .move b e b' e' => backPut r (backPut r m b' e' (backGet r m b e)) b e Slot.none
  | .clear b e => backPut r m b e Slot.none
  | .status b e st cl =>
    let x := backGet r m b e
    backPut r m b e { x with status := stSet (stClr x.status cl) st }

/-- A page that moves with an entry: a resident target takes it from the backing copy. -/
def PlaneSt.reload (p : PlaneSt) (r : Region) (lp : Mem) (b e : Nat) : PlaneSt :=
  if r.pageable then
    let own := (p.getSlot r b e).status
    let x := backGet r lp b e
    let keep := own &&& (stHIT + 0x180)
    p.putSlot r b e { x with status := stSet (stClr x.status (stHIT + 0x180)) keep }
  else p

/-- A page that a change touched in a resident page is taken from the backing copy again. -/
def PlaneSt.touch (r : Region) (lp : Mem) (p : PlaneSt) : TblOp → PlaneSt
  | .put b e _ => p.reload r lp b e
  | .move b e b' e' => (p.reload r lp b' e').reload r lp b e
  | .clear b e => p.reload r lp b e
  | .status b e _ _ => p.reload r lp b e

/-- On-chip slot `n` belongs to a pageable region of a plane. -/
def PlaneSt.pagedSlot (p : PlaneSt) (n : Nat) : Bool :=
  p.regions.any (fun r => r.pageable && decide (4 * r.base ≤ n ∧ n < 4 * (r.base + r.onchip)))

/-- What the copy walk of REJOIN has passed lies in the rejoining plane as in its twin, slots before LPM units; what it has not
reached stays as it was (R331, R332). -/
def State.mirrorWalk (s : State) : State :=
  match s.redBusy with
  | some (.resync pl) =>
    if s.isCond pl .resync ∧ s.resyncCopied = false then
      let q := s.plane (twinOf pl)
      let u := s.resyncPos - 131072
      s.setPlane pl { s.plane pl with
        exact := q.exact.filter (fun c => decide (c.1 < s.resyncPos) && !q.badSlots.contains c.1 && !q.badStatus.contains c.1 &&
          !q.pagedSlot c.1)
        lpm := q.lpm.filter (fun c => decide (c.1 < u) && !q.badUnits.contains c.1)
        trieSt := { q.trieSt with mem := q.trieSt.mem.filter (fun c => decide (c.1 < 24 * u)) } }
    else s
  | _ => s

/-- The copy walk of REJOIN passes its next item (R332). -/
def State.walkOn (s : State) : State :=
  match s.redBusy with
  | some (.resync pl) =>
    if s.isCond pl .resync ∧ s.resyncCopied = false then
      ({ s with resyncPos := min (s.resyncPos + 1) 196608 } : State).mirrorWalk
    else s
  | _ => s

/-- A list of changes applied by place to region `ri` of some planes, and to the backing copy first (R139, R162). -/
def State.posApply (s : State) (pls : List Plane) (r : Region) (ri : Nat) (ops : List TblOp) : State :=
  let s1 : State := if r.pageable then { s with lpddr := ops.foldl (backOp r) s.lpddr } else s
  pls.foldl (fun s pl =>
    match (s.plane pl).region ri with
    | none => s
    | some q =>
      let p := ops.foldl (fun p o => p.tblOp q o) (s.plane pl)
      s.setPlane pl (if r.pageable then ops.foldl (PlaneSt.touch q s.lpddr) p else p)) s1

/-! ## Insertion (R137) -/

/-- A view of a region's entries. -/
abbrev View := Nat → Nat → Slot

/-- A view with one entry changed. -/
def View.set (v : View) (b e : Nat) (x : Slot) : View := fun b' e' => if b' = b ∧ e' = e then x else v b' e'

/-- The lowest free entry of a bucket. -/
def freeEntry (r : Region) (v : View) (b : Nat) : Option Nat :=
  (List.range r.k).find? (fun e => !stHas (v b e).status stVALID)

/-- The path of relocations, copied last first, copy before clear (R137, R138). -/
def runPath (r : Region) : List (Nat × Nat × Nat) → View → List TblOp
  | [], _ => []
  | (b, e, dst) :: rest, v =>
    match freeEntry r v dst with
    | some fe => .move b e dst fe :: runPath r rest ((v.set dst fe (v b e)).set b e Slot.none)
    | none => runPath r rest v

/-- The search for a path of at most 32 relocations. `path` is kept last first. -/
def findPath (r : Region) (v : View) (key0 : Nat) : Nat → Nat → Nat → List (Nat × Nat × Nat) → Option (List TblOp)
  | 0, _, _, _ => none
  | fuel + 1, step, cur, path =>
    let e := step % r.k
    if path.any (fun x => x.1 == cur && x.2.1 == e) then none
    else
      let vic := (v cur e).key
      let c0 := cand0 r vic
      let c1 := cand1 r r.seed vic
      let alt := if cur = c0 then c1 else if cur = c1 then c0 else c0
      let path' := (cur, e, alt) :: path
      match freeEntry r v alt with
      | some _ => some (runPath r path' v)
      | none => findPath r v key0 fuel (step + 1) alt path'

/-- Where a key goes, with the moves that make room: none is NEED_REHASH (R137). -/
def placePlan (r : Region) (v : View) (key : Nat) : Option (List TblOp × Nat × Nat) :=
  let b0 := cand0 r key
  let b1 := cand1 r r.seed key
  match freeEntry r v b0 with
  | some e => some ([], b0, e)
  | none =>
    match freeEntry r v b1 with
    | some e => some ([], b1, e)
    | none => (findPath r v key 32 0 b0 []).map (fun ops => (ops, b0, 0))

/-- The buckets a key may lie in: under the seed in use, and in DUAL under the old one too (R141). -/
def candidates (r : Region) (key : Nat) : List Nat :=
  let c := [cand0 r key, cand1 r r.seed key]
  (if r.state = .normal then c else c ++ [cand1 r r.oldSeed key]).eraseDups

/-- The entries of some buckets that hold a key, with their places. -/
def holdersIn (r : Region) (v : View) (key : Nat) (bs : List Nat) : List (Nat × Nat × Slot) :=
  bs.eraseDups.flatMap (fun b => (List.range r.k).filterMap (fun e =>
    let x := v b e
    if stHas x.status stVALID ∧ x.key = key then some (b, e, x) else none))

/-- The entries that hold a key, with their places. -/
def holders (r : Region) (v : View) (key : Nat) : List (Nat × Nat × Slot) := holdersIn r v key (candidates r key)

/-- The plane the table engine reads: the LEAD plane when it takes writes, else the other. -/
def State.engine (s : State) : Plane := if s.tblPlanes.contains s.lead then s.lead else (twinOf s.lead)

/-- The view of a region that the table engine reads. -/
def State.view (s : State) (r : Region) : View := entryAt (s.plane s.engine) s.lpddr r

/-- Some plane is IN_SERVICE or in RESYNC, so that a command may change a table (R560). -/
def State.anyWriter (s : State) : Bool := !s.tblPlanes.isEmpty

/-- An insertion of the device's own into one plane found no place: NEED_REHASH of that plane's half (TBL_EVT). -/
def State.noPlace (s : State) (pl : Plane) : State := s.setFlag (TBL_EVT_NEED_REHASH pl)

/-! ### Planes divided alike and otherwise (R17, R61, R66) -/

/-- Two regions lie alike: what one stores at a place the other stores there too. -/
def Region.alike (a b : Region) : Bool :=
  a.wide == b.wide && a.pageable == b.pageable && a.base == b.base && a.onchip == b.onchip && a.logical == b.logical &&
    a.backing == b.backing && a.seed == b.seed && a.state == b.state

/-- Region `ri` of a plane lies like a region. -/
def PlaneSt.alikeAt (p : PlaneSt) (ri : Nat) (r : Region) : Bool :=
  match p.region ri with
  | some q => r.alike q
  | none => false

/-- A change told by the entry it acts on. -/
inductive KeyOp where
  | put (x : Slot)
  | clear (x : Slot)
  | status (x : Slot) (set clr : Nat)
  deriving DecidableEq, Repr

/-- Changes by place, told by entries. -/
def keyOps (v : View) : List TblOp → List KeyOp
  | [] => []
  | .put b e x :: l =>
    let y := v b e
    (if stHas y.status stVALID ∧ y.key ≠ x.key then [.clear y] else []) ++ .put x :: keyOps (v.set b e x) l
  | .move b e b' e' :: l => keyOps ((v.set b' e' (v b e)).set b e Slot.none) l
  | .clear b e :: l => .clear (v b e) :: keyOps (v.set b e Slot.none) l
  | .status b e st cl :: l =>
    .status (v b e) st cl :: keyOps (v.set b e { v b e with status := stSet (stClr (v b e).status cl) st }) l

/-- What tells copies of one key apart: CHART, EPOCH and LEARNED. -/
def stKind (st : Nat) : Nat := st &&& (stCHART + stEPOCH + stLEARNED)

/-- The region that the tag map of a plane gives a key. -/
def PlaneSt.regionOfKey (p : PlaneSt) (wide : Bool) (key : Nat) : Option (Nat × Region) :=
  match tabFind p.tagMap (keyTag wide key) with
  | some i => match p.region i with
    | some r => if r.wide = wide then some (i, r) else none
    | none => none
  | none => none

/-- The place of an entry in a plane: region, bucket and entry. -/
def State.placeOf (s : State) (pl : Plane) (wide : Bool) (x : Slot) : Option (Nat × Region × Nat × Nat) :=
  match (s.plane pl).regionOfKey wide x.key with
  | none => none
  | some (i, r) =>
    ((holders r (entryAt (s.plane pl) s.lpddr r) x.key).find? (fun h => stKind h.2.2.status == stKind x.status)).map
      (fun h => (i, r, h.1, h.2.1))

/-- An entry put into one plane alone, where its layout places it; false when it finds no room (R66). -/
def State.putKey1 (s : State) (pl : Plane) (wide : Bool) (x : Slot) : State × Bool :=
  match s.placeOf pl wide x with
  | some (i, r, b, e) => (s.posApply [pl] r i [.put b e x], true)
  | none =>
    match (s.plane pl).regionOfKey wide x.key with
    | none => (s, false)
    | some (i, r) =>
      match placePlan r (entryAt (s.plane pl) s.lpddr r) x.key with
      | none => (s.noPlace pl, false)
      | some (ops, b, e) => (s.posApply [pl] r i (ops ++ [.put b e x]), true)

/-- A change told by its entry, made in a plane of another layout; an entry that finds no room is counted. -/
def State.keyApply (s : State) (pl : Plane) (wide : Bool) : KeyOp → State
  | .put x =>
    let q := s.putKey1 pl wide x
    if q.2 then q.1 else q.1.inc CHT_SWAP_UNPLACED_CNT_COUNT
  | .clear x => match s.placeOf pl wide x with
    | some (i, r, b, e) => s.posApply [pl] r i [.clear b e]
    | none => s
  | .status x st cl => match s.placeOf pl wide x with
    | some (i, r, b, e) => s.posApply [pl] r i [.status b e st cl]
    | none => s

/-- A list of changes applied to region `ri` in every plane that takes writes (R17, R332): by place in planes divided like the one the
engine reads, and by entry in a plane that a rolling swap has divided otherwise. -/
def State.tblApply (s : State) (ri : Nat) (ops : List TblOp) : State :=
  match (s.plane s.engine).region ri with
  | none => s
  | some r =>
    let takers := s.tblPlanes
    let ks := keyOps (s.view r) ops
    let s1 := s.posApply (takers.filter (fun pl => (s.plane pl).alikeAt ri r)) r ri ops
    ((takers.filter (fun pl => !(s.plane pl).alikeAt ri r)).foldl (fun s pl => ks.foldl (fun s k => s.keyApply pl r.wide k) s)
      s1).mirrorWalk

/-- A key placed with a result and a status word, with no look for copies; false is NEED_REHASH and no change. -/
def State.place (s : State) (ri : Nat) (key result status : Nat) : State × Option (Nat × Nat) :=
  match (s.plane s.engine).region ri with
  | none => (s, none)
  | some r =>
    match placePlan r (s.view r) key with
    | none => (s, none)
    | some (ops, b, e) => (s.tblApply ri (ops ++ [.put b e ⟨key, result, status⟩]), some (b, e))

/-! ## Pins (R167) -/

/-- A page is pinned while one of its entries has PIN or AUTO_PIN set. -/
def pagePinned (r : Region) (lp : Mem) (pg : Nat) : Bool :=
  (List.range 16).any (fun i => (List.range r.k).any (fun e =>
    let st := (backGet r lp (16 * pg + i) e).status
    stHas st stVALID && (stHas st stPIN || stHas st stAUTOPIN)))

/-- Page frames of a plane that hold a pinned page. -/
def pinnedFrames (r : Region) (lp : Mem) : Nat := (r.frames.filter (fun f => pagePinned r lp f.2)).length

/-- A pin on the page of bucket `b` would leave fewer than PIN_RESERVE unpinned frames in a plane. A page not resident
counts as one more frame pinned. -/
def State.pinRefused (s : State) (ri b : Nat) : Bool :=
  let inPlane (pl : Plane) : Bool :=
    match (s.plane pl).region ri with
    | some r => r.pageable && s.takesWrites pl && !pagePinned r s.lpddr (b / 16) &&
        decide (r.onchip / 16 < pinnedFrames r s.lpddr + 1 + r.pinReserve)
    | none => false
  inPlane .A || inPlane .B

/-! ## Counting -/

/-- Entries held in a region (TBL_REGr_STAT.USED). -/
def State.regionUsed (s : State) (pl : Plane) (ri : Nat) : Nat :=
  let p := s.plane pl
  match p.region ri with
  | none => 0
  | some r =>
    if r.pageable then
      let lo := r.backAddr 0
      ((List.range r.k).map (fun e =>
        (s.lpddr.filter (fun c => decide (lo ≤ c.1 ∧ c.1 < lo + 128 * r.logical) &&
          (c.1 - lo) % 128 == 96 + 2 * (if r.wide then 2 * e else e) && c.2.toNat % 2 == 1)).length)).sum
    else (p.exact.filter (fun c => decide (4 * r.base ≤ c.1 ∧ c.1 < 4 * (r.base + r.onchip)) &&
      stHas c.2.status stVALID)).length

/-- The entries of a region, with their places. -/
def State.entriesOf (s : State) (r : Region) : List (Nat × Nat × Slot) :=
  let v := s.view r
  let bs := if r.pageable then
      ((s.lpddr.filter (fun c => decide (r.backAddr 0 ≤ c.1 ∧ c.1 < r.backAddr r.logical))).map
        (fun c => (c.1 - r.backAddr 0) / 128)).eraseDups
    else
      (((s.plane s.engine).exact.filter (fun c => decide (4 * r.base ≤ c.1 ∧ c.1 < 4 * (r.base + r.onchip)))).map
        (fun c => c.1 / 4 - r.base)).eraseDups
  bs.flatMap (fun b => (List.range r.k).filterMap (fun e =>
    let x := v b e
    if stHas x.status stVALID then some (b, e, x) else none))

/-- TARGET of a result word. -/
def resTarget (result : Nat) : Nat := bits result 48 12

/-! ## Parity -/

/-- A bad item noted in TBL_PAR_ERR, counted and raised (R157, R159); the record's class is TABLE_PARITY (R524). -/
def State.parityFound (s : State) (pl : Plane) (table source addr : Nat) (both : Bool) : State :=
  let s := (s.inc (TBL_PAR_ERR_CNT_VAL pl)).setFlag (TBL_EVT_PAR_ERR pl)
  let s := if s.flag (TBL_PAR_ERR_VALID pl) then s.put (TBL_PAR_ERR_OVERFLOW pl) 1
    else (((s.put (TBL_PAR_ERR_VALID pl) 1).put (TBL_PAR_ERR_TABLE pl) table).put
      (TBL_PAR_ERR_SOURCE pl) source).put (TBL_PAR_ERR_ADDR pl) addr
  s.rasRecord 0x02 (if both then 1 else 0) 0x09 (planeBit pl) (bitN both * 2 ^ 29 + table * 2 ^ 26 + source * 2 ^ 25 + addr)

/-- The region an on-chip slot belongs to, with its number. -/
def PlaneSt.slotHome (p : PlaneSt) (n : Nat) : Option (Nat × Region) :=
  (p.regions.zipIdx.find? (fun x => decide (4 * x.1.base ≤ n ∧ n < 4 * (x.1.base + x.1.onchip)))).map (fun x => (x.2, x.1))

/-- The logical bucket that an on-chip slot of a region holds now. -/
def Region.logicalOf (r : Region) (n : Nat) : Option Nat :=
  let o := n / 4 - r.base
  if r.pageable then (tabFind r.frames (o / 16)).map (fun pg => 16 * pg + o % 16) else some o

/-- A slot (TABLE 0) or a status word (TABLE 1) of a plane fails its parity check. -/
def PlaneSt.badItem (p : PlaneSt) (table n : Nat) : Bool := if table = 1 then p.badStatus.contains n else p.badSlots.contains n

/-- The slot of the twin that holds the same item: the same address, or the place of the page if the page is resident there. -/
def State.twinSlot (s : State) (pl : Plane) (n : Nat) : Option Nat :=
  if s.isCond (twinOf pl) .inService = false then none
  else match (s.plane pl).slotHome n with
    | some (ri, r) =>
      if r.pageable then
        match r.logicalOf n, (s.plane (twinOf pl)).region ri with
        | some b, some q => (q.bucketAt b).map (fun x => 4 * x + n % 4)
        | _, _ => none
      else some n
    | none => some n

/-- Where a bad slot or status word of a plane is repaired from: the backing copy of a pageable region while it is good, else the
twin's good copy (R158, R168). The entry found there, or none. -/
def State.goodSource (s : State) (pl : Plane) (table n : Nat) : Option Slot :=
  let q := s.plane (twinOf pl)
  let home := (s.plane pl).slotHome n
  let wide := match home with
    | some (_, r) => r.wide
    | none => false
  let twin := match s.twinSlot pl n with
    | some m => if q.badItem table m then none else some (tabGet Slot.none q.exact (if wide then m / 2 * 2 else m))
    | none => none
  match home with
  | some (_, r) =>
    if r.pageable then
      match r.logicalOf n with
      | some b => if backGood r s.lpddr b then some (backGet r s.lpddr b (if r.wide then n % 4 / 2 else n % 4)) else twin
      | none => some Slot.none
    else twin
  | none => twin

/-- A bad slot or status word has a good copy. -/
def State.goodCopy (s : State) (pl : Plane) (table n : Nat) : Bool := (s.goodSource pl table n).isSome

/-! ## Lookup -/

/-- The outcome of an exact-match lookup. -/
inductive Look where
  | hit (b e : Nat) (x : Slot)
  | miss
  /-- Pages to read first (R163). -/
  | page (pgs : List Nat)
  deriving DecidableEq, Repr

/-- The best entry of a list by precedence; none when no entry may be taken. -/
def bestOf (epoch : Nat) (l : List (Nat × Nat × Slot)) : Option (Nat × Nat × Slot) :=
  l.foldl (fun acc x =>
    if rank epoch x.2.2.status = 0 then acc
    else match acc with
      | none => some x
      | some y => if rank epoch y.2.2.status < rank epoch x.2.2.status then some x else acc) none

/-- The bad items of an entry whose first slot is `n`, as TABLE and address: slots, and the status word of the first (R136, R157). -/
def badItems (p : PlaneSt) (r : Region) (n : Nat) : List (Nat × Nat) :=
  ((r.slotsOf n).filter p.badSlots.contains).map (fun m => (0, m)) ++ (if p.badStatus.contains n then [(1, n)] else [])

/-- The good entries of a bucket that match a key in a plane, and the bad items that were read. -/
def probe (p : PlaneSt) (r : Region) (key b : Nat) : List (Nat × Nat × Slot) × List (Nat × Nat) :=
  (List.range r.k).foldl (fun acc e =>
    match r.slotAt b e with
    | none => acc
    | some n =>
      match badItems p r n with
      | [] =>
        let x := tabGet Slot.none p.exact n
        if stHas x.status stVALID ∧ x.key = key then (acc.1 ++ [(b, e, x)], acc.2) else acc
      | l => (acc.1, acc.2 ++ l)) ([], [])

/-- HIT set on the entry a lookup took, and AGE as asked. -/
def State.markHit (s : State) (pl : Plane) (ri b e : Nat) (age0 : Bool) : State :=
  let p := s.plane pl
  match p.region ri with
  | none => s
  | some r =>
    match r.slotAt b e with
    | none => s
    | some n =>
      let x := tabGet Slot.none p.exact n
      let st := stSet (if age0 then stSetAge x.status 0 else x.status) stHIT
      s.setPlane pl { p with exact := tabSet Slot.none p.exact n { x with status := st } }

/-- Pages of candidate buckets that a plane does not hold. -/
def missingPages (r : Region) (bs : List Nat) : List Nat :=
  if r.pageable then ((bs.filter (fun b => (r.frameOf b).isNone)).map (· / 16)).eraseDups else []

/-- The bad items that a lookup without a good entry read, each found once (R157). -/
def State.reportBad (s : State) (pl : Plane) (l : List (Nat × Nat)) : State :=
  l.foldl (fun s x => s.parityFound pl x.1 0 x.2 (!s.goodCopy pl x.1 x.2)) s

/-- What a lookup of a key in region `r` of a plane finds, and what it read: the outcome, whether it made the extra read of DUAL, and the
bad items (R134, R135, R141, R157). -/
def State.seek (s : State) (pl : Plane) (r : Region) (key : Nat) : Look × Bool × List (Nat × Nat) :=
  let p := s.plane pl
  let b0 := cand0 r key
  let b1 := cand1 r (if r.state = .normal then r.seed else r.oldSeed) key
  let mp := missingPages r [b0, b1]
  if mp ≠ [] then (.page mp, false, [])
  else
    let f0 := probe p r key b0
    let f1 := if b1 = b0 then ([], []) else probe p r key b1
    match bestOf s.epoch (f0.1 ++ f1.1) with
    | some (b, e, x) => (.hit b e x, false, [])
    | none =>
      if r.state = .normal then (.miss, false, f0.2 ++ f1.2)
      else
        let b2 := cand1 r r.seed key
        let mp2 := missingPages r [b2]
        if mp2 ≠ [] then (.page mp2, false, [])
        else
          let f2 := probe p r key b2
          match bestOf s.epoch f2.1 with
          | some (b, e, x) => (.hit b e x, true, [])
          | none => (.miss, true, f0.2 ++ f1.2 ++ f2.2)

/-- A lookup of a key in region `ri` of a plane: HIT set on the entry it takes, the extra read of DUAL counted, and, on a miss, every bad
item it read counted and recorded. A bad item beside a good entry is neither (log 81). `quiet` lookups leave no trace. -/
def State.lookup (s : State) (pl : Plane) (ri key : Nat) (quiet : Bool) : State × Look :=
  match (s.plane pl).region ri with
  | none => (s, .miss)
  | some r =>
    match s.seek pl r key with
    | (k, extra, bad) =>
      if quiet then (s, k)
      else
        let s1 := if extra then s.inc (TBL_REHASH_PROBE_CNT_VAL pl) else s
        match k with
        | .hit b e _ => (s1.markHit pl ri b e false, k)
        | _ => (s1.reportBad pl bad, k)

/-- The region a tag selects in a plane (R133, R169); 0xFF is none. -/
def PlaneSt.regionOfTag (p : PlaneSt) (tag : Nat) : Option Nat :=
  let r := tabGet 0xFF p.tagMap tag
  if r = 0xFF then none else some r

/-! ## Pages -/

/-- Whether a page frame of a plane has HIT set in some entry, and the frame with every HIT cleared. -/
def frameHit (p : PlaneSt) (r : Region) (f : Nat) : Bool :=
  (List.range 64).any (fun i => stHas (tabGet Slot.none p.exact (4 * (r.base + 16 * f) + i)).status stHIT)

def clearFrameHit (p : PlaneSt) (r : Region) (f : Nat) : PlaneSt :=
  (List.range 64).foldl (fun p i =>
    let n := 4 * (r.base + 16 * f) + i
    let x := tabGet Slot.none p.exact n
    { p with exact := tabSet Slot.none p.exact n { x with status := stClr x.status stHIT } }) p

/-- The clock hand of R166: skips pinned frames, clears HIT, and stops at the first unpinned frame with HIT clear. At
most two turns. -/
def clockHand (lp : Mem) (ri : Nat) : Nat → PlaneSt → PlaneSt × Option Nat
  | 0, p => (p, none)
  | fuel + 1, p =>
    match p.region ri with
    | none => (p, none)
    | some r =>
      let n := r.onchip / 16
      let f := r.hand % (max n 1)
      let adv (p : PlaneSt) : PlaneSt := p.setRegion ri { r with hand := (f + 1) % (max n 1) }
      match tabFind r.frames f with
      | none => (adv p, some f)
      | some pg =>
        if pagePinned r lp pg then clockHand lp ri fuel (adv p)
        else if frameHit p r f then clockHand lp ri fuel (adv (clearFrameHit p r f))
        else (adv p, some f)

/-- A page leaves a page frame: HIT and AGE go back to the backing copy, the slots empty (R162). -/
def State.evict (s : State) (pl : Plane) (ri f : Nat) : State :=
  let p := s.plane pl
  match p.region ri with
  | none => s
  | some r =>
    match tabFind r.frames f with
    | none => s
    | some pg =>
      let lp := (List.range 16).foldl (fun m i => (List.range r.k).foldl (fun m e =>
        let own := (p.getSlot r (16 * pg + i) e).status
        let x := backGet r m (16 * pg + i) e
        if stHas x.status stVALID then
          backPut r m (16 * pg + i) e
            { x with status := stSet (stClr x.status (stHIT + 0x180)) (own &&& (stHIT + 0x180)) }
        else m) m) s.lpddr
      let lo := 4 * (r.base + 16 * f)
      let p1 := { p with
        exact := p.exact.filter (fun c => !(decide (lo ≤ c.1 ∧ c.1 < lo + 64)))
        badSlots := p.badSlots.filter (fun n => !(decide (lo ≤ n ∧ n < lo + 64)))
        badStatus := p.badStatus.filter (fun n => !(decide (lo ≤ n ∧ n < lo + 64))) }
      ({ s with lpddr := lp }.setPlane pl (p1.setRegion ri { r with frames := tabDel r.frames f })).inc
        (TBL_PAGE_EVICT_CNT_VAL pl)

/-- A page frame for a page read: one that holds no page, else the one the clock hand evicts (R166). -/
def State.takeFrame (s : State) (pl : Plane) (ri : Nat) : State × Option Nat :=
  let p := s.plane pl
  match p.region ri with
  | none => (s, none)
  | some r =>
    let n := r.onchip / 16
    match (List.range n).find? (fun f => (tabFind r.frames f).isNone) with
    | some f => (s, some f)
    | none =>
      match clockHand s.lpddr ri (2 * n + 1) p with
      | (p1, some f) => ((s.setPlane pl p1).evict pl ri f, some f)
      | (p1, none) => (s.setPlane pl p1, none)

/-- An error of the LPDDR recorded: CAUSE 1 a bucket whose CRC failed twice, 2 a read while not READY. -/
def State.memErr (s : State) (cause addr : Nat) : State :=
  if s.flag MEM_ERR_VALID then s.put MEM_ERR_OVERFLOW 1
  else (((s.put MEM_ERR_VALID 1).put MEM_ERR_CAUSE cause).put MEM_ERR_ADDR addr).setFlag MEM_EVT_ERR

/-- A page loaded into a frame of a plane. A bucket whose CRC fails is retried once, then all its slots are bad,
and the twin is their repair source if the page is resident there (R168). -/
def State.loadPage (s : State) (pl : Plane) (ri f pg : Nat) : State :=
  let p := s.plane pl
  match p.region ri with
  | none => s
  | some r0 =>
    let r := { r0 with frames := tabPut r0.frames f pg }
    let s1 := (s.setPlane pl (p.setRegion ri r)).inc MEM_PAGE_IN_CNT_VAL
    (List.range 16).foldl (fun s i =>
      let b := 16 * pg + i
      let p := s.plane pl
      let fill := (List.range r.k).foldl (fun p e => p.putSlot r b e (backGet r s.lpddr b e)) p
      if backGood r s.lpddr b then s.setPlane pl fill
      else
        let lo := 4 * (r.base + 16 * f + i)
        let s := s.setPlane pl { fill with badSlots := (fill.badSlots ++ [lo, lo + 1, lo + 2, lo + 3]).eraseDups }
        let s := ((s.inc MEM_CRC_RETRY_CNT_VAL).inc MEM_CRC_ERR_CNT_VAL).memErr 1 (r.backAddr b / 128)
        s.parityFound pl 3 0 b (!s.goodCopy pl 0 lo)) s1

/-- The plane's region state shown in TBL_REGr_STAT and TBL_REGr_SEED. -/
def RegState.code : RegState → Nat
  | .normal => 0
  | .dual => 1
  | .stalled => 2

/-- A region changed in every plane that holds it. -/
def State.mapRegion (s : State) (ri : Nat) (f : Region → Region) : State :=
  let one (p : PlaneSt) : PlaneSt := match p.region ri with
    | some r => p.setRegion ri (f r)
    | none => p
  { s with planeA := one s.planeA, planeB := one s.planeB }

end Sys2Proof.Machine
end

