-- ==== Sys2Proof/Machine/Lpm.lean ====
section
/-! DEFINITION. Longest-prefix match: the hash-per-length store with its Bloom filters, and the trie mode
(R151–R156). -/

namespace Sys2Proof.Machine

/-- Address bits of a family. -/
def famBits (v6 : Bool) : Nat := if v6 then 128 else 32

/-- An address with the bits below a prefix length cleared. -/
def maskAddr (v6 : Bool) (len a : Nat) : Nat :=
  let w := famBits v6
  if len ≤ w then a / 2 ^ (w - len) * 2 ^ (w - len) % 2 ^ w else a % 2 ^ w

/-- The key of a prefix in the store: VRF, length, address (R152). -/
def lpmKey (vrf : Nat) (v6 : Bool) (len a : Nat) : List Byte :=
  beBytes 2 vrf ++ beBytes 1 len ++ beBytes (famBits v6 / 8) (maskAddr v6 len a)

/-- The candidate buckets of the LPM store: 16 384 buckets of four units (R152). -/
def lpmCand0 (key : List Byte) : Nat := crc32c 0xFFFFFFFF key % 16384
def lpmCand1 (seed : Nat) (key : List Byte) : Nat := crc32 (seedXor seed key) % 16384

/-- The key of a stored prefix. -/
def Prefix.keyB (x : Prefix) : List Byte := lpmKey x.vrf x.v6 x.len x.addr

/-- Units of a prefix: one for IPv4, four for IPv6 (R151). -/
def Prefix.units (x : Prefix) : Nat := if x.v6 then 4 else 1

/-- A bucket holds an IPv6 entry. -/
def lpmWide (t : Tab Prefix) (b : Nat) : Bool :=
  match tabFind t (4 * b) with
  | some x => x.v6
  | none => false

/-- A free place for a family in a bucket: a lone unit for IPv4, the whole bucket for IPv6. -/
def lpmFree (t : Tab Prefix) (v6 : Bool) (b : Nat) : Option Nat :=
  if lpmWide t b then none
  else if v6 then
    (if (List.range 4).all (fun e => (tabFind t (4 * b + e)).isNone) then some (4 * b) else none)
  else ((List.range 4).find? (fun e => (tabFind t (4 * b + e)).isNone)).map (4 * b + ·)

/-- The path search of R137 over the LPM store. A path that ends with no room for the new entry is NEED_REHASH
(log 15). -/
def lpmPath (seed : Nat) (v6 : Bool) : Nat → Nat → Nat → List (Nat × Nat) → Tab Prefix → Option (Tab Prefix)
  | 0, _, _, _, _ => none
  | fuel + 1, step, cur, path, t =>
    let u := 4 * cur + (if lpmWide t cur then 0 else step % 4)
    if path.any (fun x => x.1 == u) then none
    else
      match tabFind t u with
      | none => none
      | some vic =>
        let c0 := lpmCand0 vic.keyB
        let c1 := lpmCand1 seed vic.keyB
        let alt := if cur = c0 then c1 else c0
        match lpmFree t vic.v6 alt with
        | some fu =>
          let t1 := tabDel (tabPut t fu vic) u
          some (path.foldl (fun t x => match tabFind t x.1 with
            | some y => (match lpmFree t y.v6 x.2 with
              | some f => tabDel (tabPut t f y) x.1
              | none => t)
            | none => t) t1)
        | none => lpmPath seed v6 fuel (step + 1) alt ((u, alt) :: path) t

/-- A prefix placed in the store: the new store and its unit, or none for NEED_REHASH. -/
def lpmPlace (seed : Nat) (t : Tab Prefix) (x : Prefix) : Option (Tab Prefix × Nat) :=
  let b0 := lpmCand0 x.keyB
  let b1 := lpmCand1 seed x.keyB
  match lpmFree t x.v6 b0 with
  | some u => some (tabPut t u x, u)
  | none =>
    match lpmFree t x.v6 b1 with
    | some u => some (tabPut t u x, u)
    | none =>
      match lpmPath seed x.v6 32 0 b0 [] t with
      | none => none
      | some t' => (lpmFree t' x.v6 b0).map (fun u => (tabPut t' u x, u))

/-- The filter of a family and length (R153). -/
def bloomIx (v6 : Bool) (len : Nat) : Nat := (if v6 then 64 else 0) + len

/-- The three bits that stand for a key. -/
def bloomBits (key : List Byte) : Nat :=
  let g := crc32c 0xFFFFFFFF key
  2 ^ bits g 0 11 ||| 2 ^ bits g 11 11 ||| 2 ^ bits g 21 11

/-- A key's bits set in a filter copy. -/
def bloomAdd (f : Tab Nat) (x : Prefix) : Tab Nat :=
  tabSet 0 f (bloomIx x.v6 x.len) (tabGet 0 f (bloomIx x.v6 x.len) ||| bloomBits x.keyB)

/-- All three bits of a key are set. -/
def bloomTest (f : Tab Nat) (v6 : Bool) (len : Nat) (key : List Byte) : Bool :=
  let b := bloomBits key
  tabGet 0 f (bloomIx v6 len) &&& b == b

/-- The units of an entry at unit `u`: the whole bucket for IPv6 (R151, R152). -/
def lpmSpan (v6 : Bool) (u : Nat) : List Nat := if v6 then (List.range 4).map (u / 4 * 4 + ·) else [u]

/-- The good entries of some buckets of the LPM store that hold one prefix (R152, R157). -/
def lpmIn (p : PlaneSt) (key : List Byte) (bs : List Nat) : List (Nat × Prefix) :=
  bs.eraseDups.flatMap (fun b => (List.range 4).filterMap (fun e =>
    match tabFind p.lpm (4 * b + e) with
    | some x => if x.keyB = key ∧ !((lpmSpan x.v6 (4 * b + e)).any p.badUnits.contains) then some (4 * b + e, x) else none
    | none => none))

/-- The good entries of the LPM store that hold one prefix, under the seed in use and in DUAL under the old one too. -/
def lpmHolders (p : PlaneSt) (vrf : Nat) (v6 : Bool) (len a : Nat) : List (Nat × Prefix) :=
  let key := lpmKey vrf v6 len a
  lpmIn p key ([lpmCand0 key, lpmCand1 p.lpmSeed key] ++ (if p.lpmState = .normal then [] else [lpmCand1 p.lpmOldSeed key]))

/-- Bad units of some buckets. -/
def lpmBadIn (p : PlaneSt) (bs : List Nat) : List Nat := p.badUnits.filter (fun u => bs.contains (u / 4))

/-- The best of several copies of one prefix by precedence. -/
def bestPrefix (epoch : Nat) (l : List (Nat × Prefix)) : Option (Nat × Prefix) :=
  l.foldl (fun acc x =>
    if rank epoch x.2.status = 0 then acc
    else match acc with
      | none => some x
      | some y => if rank epoch y.2.status < rank epoch x.2.status then some x else acc) none

/-- Lengths of a family, longest first. -/
def lpmLens (v6 : Bool) : List Nat := (List.range (famBits v6 + 1)).reverse

/-- A list cut in groups of eight. -/
def chunks8 {α : Type} : Nat → List α → List (List α)
  | 0, _ => []
  | _, [] => []
  | n + 1, l => l.take 8 :: chunks8 n (l.drop 8)

/-- What the store gives for one length: the entry taken, whether DUAL made its extra read, and the bad units read when there is none
(R141, R152). -/
def lpmOne (epoch : Nat) (p : PlaneSt) (vrf : Nat) (v6 : Bool) (len a : Nat) : Option (Nat × Prefix) × Bool × List Nat :=
  let key := lpmKey vrf v6 len a
  let bs := [lpmCand0 key, lpmCand1 (if p.lpmState = .normal then p.lpmSeed else p.lpmOldSeed) key]
  match bestPrefix epoch (lpmIn p key bs) with
  | some x => (some x, false, [])
  | none =>
    if p.lpmState = .normal then (none, false, lpmBadIn p bs)
    else
      let b2 := lpmCand1 p.lpmSeed key
      match bestPrefix epoch (lpmIn p key [b2]) with
      | some x => (some x, true, [])
      | none => (none, true, lpmBadIn p (b2 :: bs))

/-- The outcome of a lookup in hash-per-length mode: the longest hit, the Bloom false positives, the extra reads of DUAL, and the bad
units read. -/
structure LpmRes where
  hit : Option (Nat × Prefix)
  fp : Nat
  extra : Nat
  bad : List Nat
  deriving DecidableEq, Repr

/-- The lookup in hash-per-length mode: the lengths whose three bits are set are read longest first, eight at a time, and the longest
that hits decides (R153). -/
def lpmHash (epoch : Nat) (p : PlaneSt) (vrf : Nat) (v6 : Bool) (a : Nat) : LpmRes :=
  let pos := (lpmLens v6).filter (fun n => bloomTest p.bloom v6 n (lpmKey vrf v6 n a))
  (chunks8 17 pos).foldl (fun acc ch =>
    match acc.hit with
    | some _ => acc
    | none =>
      let rs := ch.map (fun n => lpmOne epoch p vrf v6 n a)
      ⟨(rs.filterMap (·.1)).head?, acc.fp + (rs.filter (fun r => r.1.isNone)).length,
        acc.extra + (rs.filter (fun r => r.2.1)).length, (acc.bad ++ rs.flatMap (·.2.2)).eraseDups⟩) ⟨none, 0, 0, []⟩

/-! ## Trie mode (R154–R156) -/

/-- A node of the trie. -/
structure TrieNode where
  childMap : Nat
  runMap : Nat
  childBase : Nat
  resultBase : Nat
  deriving DecidableEq, Repr

/-- Node `n` of a store: 72 bytes, three units. -/
def nodeAt (m : Mem) (n : Nat) : TrieNode :=
  ⟨memLe m (72 * n) 32, memLe m (72 * n + 32) 32, memLe m (72 * n + 64) 3 % 2 ^ 20, memLe m (72 * n + 67) 3 % 2 ^ 20⟩

/-- Node `n` written. -/
def nodePut (m : Mem) (n : Nat) (x : TrieNode) : Mem :=
  memPut m (72 * n) (leBytes 32 x.childMap ++ leBytes 32 x.runMap ++ leBytes 3 x.childBase ++ leBytes 3 x.resultBase ++ [0, 0])

/-- Result word `i`: three to a unit. -/
def resultAt (m : Mem) (i : Nat) : Nat := memLe m (8 * i) 8

/-- The result index of a slot of a node. -/
def TrieNode.result (x : TrieNode) (slot : Nat) : Nat := x.resultBase + popLow x.runMap (slot + 1) - 1

/-- The child node of a slot. -/
def TrieNode.child (x : TrieNode) (slot : Nat) : Nat := x.childBase + popLow x.childMap slot

/-- The walk of an address from node `n` at stage `k`: the result index of the last node visited, and the units read (R155). -/
def trieWalk (m : Mem) (w a : Nat) : Nat → Nat → Nat → Nat × List Nat
  | 0, _, _ => (0, [])
  | fuel + 1, k, n =>
    let x := nodeAt m n
    let slot := a / 2 ^ (w - 8 * (k + 1)) % 256
    let own := [3 * n, 3 * n + 1, 3 * n + 2]
    if bitOf x.childMap slot ∧ 8 * (k + 1) < w then
      match trieWalk m w a fuel (k + 1) (x.child slot) with
      | (r, us) => (r, own ++ us)
    else (x.result slot, own ++ [x.result slot / 3])

/-- The root of a VRF and family in the trie root table. -/
def rootIx (vrf : Nat) (v6 : Bool) : Nat := 2 * vrf + bitN v6

/-- The lookup in trie mode: the result index with its word, none for no route; and the first bad unit on the path, which makes it a miss
(R157). -/
def lpmTrieLook (p : PlaneSt) (vrf : Nat) (v6 : Bool) (a : Nat) : Option (Nat × Nat) × Option Nat :=
  match tabFind p.trieSt.roots (rootIx vrf v6) with
  | none => (none, none)
  | some n =>
    let r := trieWalk p.trieSt.mem (famBits v6) a 17 0 n
    match r.2.find? p.badUnits.contains with
    | some u => (none, some u)
    | none =>
      if r.1 = 0 ∨ p.trieSt.void.contains r.1 then (none, none) else (some (r.1, resultAt p.trieSt.mem r.1), none)

/-- A bad unit of a plane has a good copy at the same address of its twin (R158). -/
def State.goodUnit (s : State) (pl : Plane) (u : Nat) : Bool :=
  s.isCond (twinOf pl) .inService && !(s.plane (twinOf pl)).badUnits.contains u

/-- The longest prefix that covers an address among those that a lookup of an earlier epoch takes: what the trie of that epoch gave. -/
def lpmLong (epoch : Nat) (l : List Prefix) (vrf : Nat) (v6 : Bool) (a : Nat) : Option Nat :=
  ((lpmLens v6).filterMap (fun n => (bestPrefix epoch ((l.filter (fun x => x.vrf == vrf && x.v6 == v6 && x.len == n &&
    x.addr == maskAddr v6 n a)).map (fun x => (0, x)))).map (·.2.result))).head?

/-- The chart of an earlier era judges the frame in hand (R58). -/
def State.earlierEra (s : State) : Bool := (tabFind s.eras s.era).isSome

/-- An LPM lookup in a plane: the unit and the result word, or a miss. -/
def State.lpmLookup (s : State) (pl : Plane) (vrf : Nat) (v6 : Bool) (a : Nat) : State × Option (Nat × Nat) :=
  let p := s.plane pl
  let report (s : State) (l : List Nat) : State := l.foldl (fun s u => s.parityFound pl 2 0 u (!s.goodUnit pl u)) s
  if p.lpmTrie ∧ s.earlierEra then (s, (lpmLong s.epoch p.trie vrf v6 a).map (fun r => (0, r)))
  else if p.lpmTrie then
    match lpmTrieLook p vrf v6 a with
    | (some x, _) => (s, some (x.1 / 3, x.2))
    | (none, bad) => (report s bad.toList, none)
  else
    let r := lpmHash s.epoch p vrf v6 a
    let s1 := if r.fp = 0 then s else s.addCnt (TBL_LPM_BLOOM_FP_CNT_VAL pl) r.fp
    let s2 := if r.extra = 0 then s1 else s1.addCnt (TBL_REHASH_PROBE_CNT_VAL pl) r.extra
    match r.hit with
    | some (u, x) => (s2, some (u, x.result))
    | none => (report s2 r.bad, none)

/-! ## Building the trie -/

/-- The prefixes of a VRF and family that a lookup takes: of each prefix the copy of the highest precedence (R135, R59). -/
def trieRoutes (epoch : Nat) (l : List Prefix) (vrf : Nat) (v6 : Bool) : List Prefix :=
  let own := l.filter (fun x => x.vrf == vrf && x.v6 == v6 && rank epoch x.status != 0)
  own.filter (fun x => own.all (fun y => y.len != x.len || y.addr != x.addr || decide (rank epoch y.status ≤ rank epoch x.status)))

/-- The result of a slot of the node reached by `path`, `k` bytes long: that of the longest prefix that ends at or above the slot
(R155). -/
def slotResult (rs : List Prefix) (w k path slot : Nat) : Option Nat :=
  let a := (path * 256 + slot) * 2 ^ (w - 8 * (k + 1))
  ((rs.filter (fun x => decide (x.len ≤ 8 * (k + 1)) && decide (a / 2 ^ (w - x.len) = x.addr / 2 ^ (w - x.len)))).foldl
    (fun (b : Option Prefix) x => match b with
      | some y => if y.len ≤ x.len then some x else b
      | none => some x) none).map (·.result)

/-- A slot has a child node: a longer prefix lies below it. -/
def slotChild (rs : List Prefix) (w k path slot : Nat) : Bool :=
  rs.any (fun x => decide (8 * (k + 1) < x.len) && decide (x.addr / 2 ^ (w - 8 * (k + 1)) = path * 256 + slot))

/-- RUN_MAP of a node: slot 0, and every slot whose result differs from that of the slot before. -/
def runStarts (rs : List Prefix) (w k path : Nat) : List Nat :=
  (List.range 256).filter (fun i => i == 0 || slotResult rs w k path i != slotResult rs w k path (i - 1))

/-- A number with the bits of a list set. -/
def mapOf (l : List Nat) : Nat := l.foldl (fun n i => n + 2 ^ i) 0

/-- The store while a rebuild is at work: its bytes, the results that stand for no route, and the blocks of units not free. -/
structure TrieWork where
  mem : Mem
  void : List Nat
  taken : List (Nat × Nat)
  deriving DecidableEq, Repr

/-- A block of `n` free units that begins at a multiple of `step`; unit 0 holds result index 0 and is never free. Which of the free
places it is the spec leaves open (log 16). -/
def TrieWork.take (x : TrieWork) (step n : Nat) : Option (TrieWork × Nat) :=
  let fits (u : Nat) : Bool := decide (0 < u ∧ u + n ≤ 65536) && x.taken.all (fun b => decide (u + n ≤ b.1 ∨ b.1 + b.2 ≤ u))
  let l := ((List.range (65536 / step)).map (step * ·)).filter fits
  match l[Config.trieUnit x.taken.length % max l.length 1]? with
  | some u => some ({ x with taken := (u, n) :: x.taken }, u)
  | none => none

/-- The result runs of a node: where they stand already, or written into free units. A node without any route uses index 0. -/
def TrieWork.runs (x : TrieWork) (vals : List (Option Nat)) (runMap : Nat) (old : Option TrieNode) : Option (TrieWork × Nat) :=
  let same (n : TrieNode) : Bool := n.runMap == runMap && vals.zipIdx.all (fun v => match v.1 with
    | some r => !x.void.contains (n.resultBase + v.2) && n.resultBase + v.2 != 0 && resultAt x.mem (n.resultBase + v.2) == r
    | none => n.resultBase + v.2 == 0 || x.void.contains (n.resultBase + v.2))
  if vals = [none] then some (x, 0)
  else match old.filter same with
    | some n => some (x, n.resultBase)
    | none =>
      match x.take 1 ((vals.length + 2) / 3) with
      | none => none
      | some (y, u) =>
        let idx := vals.zipIdx.map (fun v => (v.1, 3 * u + v.2))
        some ({ y with
          mem := idx.foldl (fun m v => memPut m (8 * v.2) (leBytes 8 (v.1.getD 0))) y.mem
          void := y.void.filter (fun i => !(decide (3 * u ≤ i ∧ i < 3 * u + vals.length))) ++
            (idx.filter (fun v => v.1.isNone)).map (·.2) }, 3 * u)

/-- The node of a path rebuilt, with what lies below it: the store, the node, and whether more of it changed than CHILD_BASE. Result runs
and groups of children that stay as they are are not rebuilt; a group of which a member changes is written into free units, and
CHILD_BASE of a node that does not change otherwise is written in place (R156). -/
def trieBuild (rs : List Prefix) (w : Nat) : Nat → Nat → Nat → Option Nat → TrieWork → Option (TrieWork × TrieNode × Bool)
  | 0, _, _, _, _ => none
  | fuel + 1, k, path, old, x =>
    let was := old.map (nodeAt x.mem)
    let starts := runStarts rs w k path
    let kids := (List.range 256).filter (slotChild rs w k path)
    let runMap := mapOf starts
    let childMap := mapOf kids
    match x.runs (starts.map (slotResult rs w k path)) runMap was with
    | none => none
    | some (x1, rb) =>
      let oldKid (c : Nat) : Option Nat := match was with
        | some n => if bitOf n.childMap c then some (n.child c) else none
        | none => none
      let built := kids.foldl (fun acc c => match acc with
        | none => none
        | some (x, l) => (trieBuild rs w fuel (k + 1) (path * 256 + c) (oldKid c) x).map
            (fun r => (r.1, l ++ [(r.2.1, r.2.2)]))) (some (x1, ([] : List (TrieNode × Bool))))
      match built with
      | none => none
      | some (x2, l) =>
        let group : Option (TrieWork × Nat) :=
          if kids = [] then some (x2, 0)
          else match was with
            | some n =>
              if n.childMap = childMap ∧ l.all (fun e => !e.2) then
                some ({ x2 with mem := l.zipIdx.foldl (fun m e => nodePut m (n.childBase + e.2) e.1.1) x2.mem }, n.childBase)
              else fresh x2 l
            | none => fresh x2 l
        match group with
        | none => none
        | some (x3, cb) =>
          let node : TrieNode := ⟨childMap, runMap, cb, rb⟩
          some (x3, node, match was with
            | some n => decide (n.childMap ≠ childMap ∨ n.runMap ≠ runMap ∨ n.resultBase ≠ rb)
            | none => true)
where
  /-- A group of nodes in free units. -/
  fresh (x : TrieWork) (l : List (TrieNode × Bool)) : Option (TrieWork × Nat) :=
    match x.take 3 (3 * l.length) with
    | none => none
    | some (y, u) => some ({ y with mem := l.zipIdx.foldl (fun m e => nodePut m (u / 3 + e.2) e.1.1) y.mem }, u / 3)

/-- The blocks of units that the tree below a node uses, beside the node itself. -/
def trieReach (m : Mem) : Nat → Nat → List (Nat × Nat)
  | 0, _ => []
  | fuel + 1, n =>
    let x := nodeAt m n
    let kids := popLow x.childMap 256
    (if x.resultBase = 0 then [] else [(x.resultBase / 3, (popLow x.runMap 256 + 2) / 3)]) ++
      (if kids = 0 then [] else (3 * x.childBase, 3 * kids) ::
        (List.range kids).flatMap (fun i => trieReach m fuel (x.childBase + i)))

/-- The blocks of units in use under all roots. -/
def TrieSt.blocks (x : TrieSt) : List (Nat × Nat) := x.roots.flatMap (fun r => (3 * r.2, 3) :: trieReach x.mem 17 r.2)

/-- Blocks of an earlier state that are not free yet: they are freed 1 µs after the change (R156). -/
def TrieSt.waiting (x : TrieSt) (now : Nat) : List (Nat × Nat × Nat) := x.old.filter (fun b => decide (clkSince now b.2.2 < 1000))

/-- One root rebuilt for the prefixes stored; none when free units do not suffice, and nothing changes then. -/
def TrieSt.rebuild (x : TrieSt) (epoch now : Nat) (l : List Prefix) (vrf : Nat) (v6 : Bool) : Option TrieSt :=
  let ix := rootIx vrf v6
  let rs := trieRoutes epoch l vrf v6
  let used := x.blocks
  let wait := x.waiting now
  let done (y : TrieWork) (roots : Tab Nat) : TrieSt :=
    let z : TrieSt := ⟨y.mem, roots, y.void, wait⟩
    { z with old := wait ++ (used.filter (fun b => !z.blocks.contains b)).map (fun b => (b.1, b.2, now)) }
  let work : TrieWork := ⟨x.mem, x.void, used ++ wait.map (fun b => (b.1, b.2.1))⟩
  if rs = [] then some (done work (tabDel x.roots ix))
  else
    let old := tabFind x.roots ix
    match trieBuild rs (famBits v6) 17 0 0 old work with
    | none => none
    | some (y, node, changed) =>
      match old, changed with
      | some n, false => some (done { y with mem := nodePut y.mem n node } x.roots)
      | _, _ =>
        match y.take 3 3 with
        | none => none
        | some (z, u) => some (done { z with mem := nodePut z.mem (u / 3) node } (tabPut x.roots ix (u / 3)))

/-- Every root rebuilt where the prefixes that a lookup takes have changed, as when a chart's epoch changes (R59). -/
def TrieSt.sync (x : TrieSt) (epoch now : Nat) (l : List Prefix) : Option TrieSt :=
  let own : List (Nat × Bool) := l.map (fun (p : Prefix) => (p.vrf, p.v6))
  let has : List (Nat × Bool) := x.roots.map (fun r => (r.1 / 2, r.1 % 2 == 1))
  (own ++ has).eraseDups.foldl (fun acc e => acc.bind (fun y => y.rebuild epoch now l e.1 e.2)) (some x)

/-- A plane's trie brought in line with other prefixes; none when free units do not suffice. -/
def PlaneSt.withTrie (p : PlaneSt) (epoch now : Nat) (l : List Prefix) : Option PlaneSt :=
  (p.trieSt.sync epoch now l).map (fun x => { p with trie := l, trieSt := x })

/-- Units that prefixes count for (R151). -/
def prefixUnits (l : List Prefix) : Nat := (l.map Prefix.units).sum

/-- LPM units in use (TBL_LPM_STAT): in trie mode those of the blocks, freed ones for 1 µs more, and the unit of result index 0. -/
def lpmUnits (p : PlaneSt) (now : Nat) : Nat :=
  if p.lpmTrie then
    (if p.trieSt.roots = [] then 0 else 1) + ((p.trieSt.blocks ++ (p.trieSt.waiting now).map (fun b => (b.1, b.2.1))).map (·.2)).sum
  else prefixUnits (p.lpm.map (·.2))

/-- A prefix added to a plane: none when it does not fit (NEED_REHASH or LPM_FULL). A prefix of a pending epoch must fit the trie of that
epoch too. -/
def lpmInsertPlane (epoch now : Nat) (p : PlaneSt) (x : Prefix) : Option PlaneSt :=
  if p.lpmTrie then
    let l := p.trie ++ [x]
    if 65536 < prefixUnits l ∨ (rank epoch x.status = 0 ∧ (p.trieSt.sync (1 - epoch) now l).isNone) then none
    else p.withTrie epoch now l
  else
    match lpmPlace p.lpmSeed p.lpm x with
    | some (t, _) => some { p with
        lpm := t, bloom := bloomAdd p.bloom x, bloomNew := p.bloomNew.map (fun f => bloomAdd f x) }
    | none => none

/-- The copies of one prefix in a plane, whatever their kind. -/
def lpmCopies (p : PlaneSt) (vrf : Nat) (v6 : Bool) (len a : Nat) : List Prefix :=
  if p.lpmTrie then p.trie.filter (fun x => x.vrf == vrf && x.v6 == v6 && x.len == len && x.addr == maskAddr v6 len a)
  else (lpmHolders p vrf v6 len a).map (·.2)

/-- The prefixes of a plane that a test keeps; none when the trie finds no free units (R156). -/
def lpmKeep (epoch now : Nat) (p : PlaneSt) (f : Prefix → Bool) : Option PlaneSt :=
  if p.lpmTrie then p.withTrie epoch now (p.trie.filter f) else some { p with lpm := p.lpm.filter (fun e => f e.2) }

/-- A raw write of an LPM unit in hash-per-length mode: an IPv6 entry takes its whole bucket, and an IPv4 entry ends the IPv6 entry of its
bucket (log 15). A status word without VALID empties the unit. -/
def lpmWriteUnit (p : PlaneSt) (u : Nat) (x : Prefix) : PlaneSt :=
  let span := lpmSpan (x.v6 || lpmWide p.lpm (u / 4)) u
  let at0 := if x.v6 then u / 4 * 4 else u
  let gone := if x.v6 then span else if lpmWide p.lpm (u / 4) then [u / 4 * 4] else [u]
  let ok := stHas x.status stVALID
  let t := gone.foldl tabDel p.lpm
  { p with
    lpm := if ok then tabPut t at0 x else t
    bloom := if ok then bloomAdd p.bloom x else p.bloom
    bloomNew := if ok then p.bloomNew.map (fun f => bloomAdd f x) else p.bloomNew
    badUnits := p.badUnits.filter (fun m => !(lpmSpan x.v6 u).contains m) }

/-- The 24 bytes of a unit in trie mode. -/
def trieUnitAt (p : PlaneSt) (u : Nat) : List Byte := memTake p.trieSt.mem (24 * u) 24

/-- A unit's bytes written in trie mode; it is good again. -/
def trieUnitPut (p : PlaneSt) (u : Nat) (bs : List Byte) : PlaneSt :=
  { p with trieSt := { p.trieSt with mem := memPut p.trieSt.mem (24 * u) bs }, badUnits := p.badUnits.filter (· ≠ u) }

/-- The filters recomputed from the stored prefixes (R153). -/
def bloomOf (t : Tab Prefix) : Tab Nat := t.foldl (fun f e => bloomAdd f e.2) []

/-- The same change made in every plane that takes writes; none when the plane read by the engine refuses it. -/
def State.lpmEach (s : State) (f : PlaneSt → Option PlaneSt) : Option State :=
  match f (s.plane s.engine) with
  | none => none
  | some _ =>
    let one (s : State) (pl : Plane) : State :=
      if s.tblPlanes.contains pl then (match f (s.plane pl) with
        | some p => s.setPlane pl p
        | none => s) else s
    some ((one (one s .A) .B).mirrorWalk)

/-- The tries of both planes brought in line with the epoch in force (R59). -/
def State.trieEpoch (s : State) : State :=
  let one (p : PlaneSt) : PlaneSt := if p.lpmTrie then (p.withTrie s.epoch s.clk p.trie).getD p else p
  { s with planeA := one s.planeA, planeB := one s.planeB }

end Sys2Proof.Machine
end

