-- ==== Sys2Proof/Machine/Access.lean ====
section
/-! DEFINITION. Which register accesses reach a register: host writes, narrow writes, powered-down blocks, and the one
record an access makes (R31, R33–R35, R555). -/

namespace Sys2Proof.Machine

/-- A faulty access is recorded once, or overflows the record held; VALID rising raises ACCESS_ERR_EV (R36, R555). -/
def State.accessErr (s : State) (addr cause : Nat) : State :=
  if s.flag GLB_ACCESS_ERR_VALID then s.put GLB_ACCESS_ERR_OVERFLOW 1
  else (((s.put GLB_ACCESS_ERR_VALID 1).put GLB_ACCESS_ERR_CAUSE cause).put GLB_ACCESS_ERR_ADDR addr).pulse 1

/-- Domain Dd is powered (PWR_DOM_STAT). -/
def State.domOn (s : State) (d : Nat) : Bool := bitOf (s.fld PWR_DOM_STAT_ON) d

/-- The block of an address is powered (R33, R34). -/
def State.powered (s : State) (addr : Nat) : Bool :=
  let blk := addr / 0x100000
  let off := addr % 0x100000
  let halfD := s.domOn (if off < 0x80000 then 6 else 7)
  match blk with
  | 0x08 => halfD
  | 0x09 => halfD
  | 0x0A => halfD
  | 0x0B => halfD
  | 0x0D => halfD
  | 0x0E => s.domOn 6 || s.domOn 7
  | 0x0F => s.domOn 6 || s.domOn 7
  | 0x10 => s.domOn 8
  | 0x11 => s.domOn 8
  | 0x12 => s.domOn 8
  | 0x13 => s.domOn (if off / 0x8000 < 8 then 5 else 4)
  | 0x14 => s.domOn 3
  | 0x15 => s.domOn 2
  | 0x16 => s.domOn 2
  | 0x17 => if 0x20000 ≤ off then s.domOn 2 else true
  | 0x18 => s.domOn 10
  | 0x19 => s.domOn 11
  | 0x1A => s.domOn 11
  | 0x05 => s.domOn 9
  | 0x06 => s.domOn 9
  | 0x1C => s.domOn 9
  | _ => true

/-- The registers a host physical function may write (R35). Tenant windows are its own matter (R483). -/
def State.hostMayWrite (s : State) (addr : Nat) : Bool :=
  addr == rGLB_STATE_CTL || (decide (rGLB_SCRATCH 0 ≤ addr) && decide (addr ≤ rGLB_SCRATCH 3)) ||
    addr / 0x100000 == 0x01 ||
    (addr / 0x100000 == 0x09 && decide (addr ≤ rTBL_RES_HI .A)) ||
    (s.inState .boot && (addr == rPWR_HOSTBOOT_LO || addr == rPWR_HOSTBOOT_HI || addr == rPWR_HOSTBOOT_GO)) ||
    decide (0x2000000 ≤ addr)

/-- Whether the requester is a host physical function. -/
def isHost : Requester → Bool
  | .hi0 => true
  | .hi1 => true
  | _ => false

/-- Whether the requester is the management cluster. -/
def isMc : Requester → Bool
  | .mc => true
  | .core _ => true
  | _ => false

/-- An application core that its RUN bit holds in reset issues no access, nor does a processor that there is not (R466, R467). -/
def State.coreHeld (s : State) : Requester → Bool
  | .core t => if t < 3 then t == 0 || !s.flag GLB_STRAP_SPLIT_ACTIVE else decide (7 ≤ t) || !bitOf (s.fld TRI_AP_CTL_RUN) (t - 3)
  | _ => false

/-- The requester cannot reach the register window: the device is in reset, the domain through which it comes is off, or its core is
held. -/
def State.unreachable (s : State) (r : Requester) : Bool :=
  s.pwr.inReset || !s.domOn (if isMc r then 9 else 10) || s.coreHeld r

/-- Clapper's target that a processor of the management cluster is (R469). -/
def targetOf : Requester → Option Nat
  | .mc => some 0
  | .core t => some t
  | _ => none

/-- Writes of a processor that are ignored: TRI_AP_CTL and TRI_APn_VEC from an application core (R467); CLP_CTL, CLP_SRCs_CFG,
CLP_TGTt_CFG and RAS_WDG_ANS from any but target 0, and the completion register of another target (R481, R529). -/
def coreShut (r : Requester) (addr : Nat) : Bool :=
  match targetOf r with
  | none => false
  | some t =>
    if addr = rRAS_WDG_ANS then t != 0
    else if addr = rTRI_AP_CTL ∨ (rTRI_AP_VEC 0 ≤ addr ∧ addr ≤ rTRI_AP_VEC 3) then decide (3 ≤ t)
    else if rCLP_TGT_CFG 0 ≤ addr ∧ addr < rCLP_TGT_CFG 7 ∧ (addr - rCLP_TGT_CFG 0) % 0x100 = 8 then addr != rCLP_TGT_CPL t
    else addr / 0x100000 == 0x05 && t != 0

/-- A host's function in BOOT reaches only PWR_HOSTBOOT and PWR_BOOT_STATUS (R519). -/
def State.bootShut (s : State) (r : Requester) (addr : Nat) : Bool :=
  isHost r && s.inState .boot && !(addr == rPWR_HOSTBOOT_LO || addr == rPWR_HOSTBOOT_HI || addr == rPWR_HOSTBOOT_GO ||
    addr == rPWR_BOOT_STATUS)

/-- A write that does not act answers the state it leaves; none when the write reaches its register. A tenant's function
reaches only tenant windows. Which register an access reaches does not depend on its byte within the register. -/
def State.writeGate (s : State) (r : Requester) (addr size : Nat) : Option State :=
  if s.unreachable r then some s
  else match r with
  | .tenant _ => if 0x2000000 ≤ addr then none else some s
  | _ =>
    if isHost r ∧ s.hostMayWrite (addr / 4 * 4) = false then some (s.accessErr addr 4)
    else if s.bootShut r (addr / 4 * 4) ∨ coreShut r (addr / 4 * 4) then some s
    else if size < 4 then some (s.accessErr addr 1)
    else if s.powered addr = false then some (s.accessErr addr 2)
    else none

/-- A 32-bit write gate for the commands that are a write of one register. -/
def State.gated (s : State) (r : Requester) (addr : Nat) (act : State → State) : State :=
  match s.writeGate r addr 4 with
  | some s' => s'
  | none => act s

/-- A command register that only the management cluster may write: a host's write is refused in the register's own
result field too, and a tenant's function does not reach it. -/
def State.mcOnly (s : State) (r : Requester) (addr : Nat) (res : Fld) (notOwner : Nat) (act : State → State) : State :=
  if s.unreachable r then s
  else if isHost r then
    let s1 := s.accessErr addr 4
    if s.powered addr then s1.put res notOwner else s1
  else s.gated r addr act

end Sys2Proof.Machine
end

