-- ==== Sys2Proof/Machine/TenantOps.lean ====
section
/-! DEFINITION. What other blocks ask of tenants: their records and states, grants of host virtual ports, quotas, and
access to host memory (R28, R482–R495). -/

namespace Sys2Proof.Machine

/-- The tenant states of R485 with their codes. -/
inductive TenState where
  | absent
  | attaching
  | active
  | doze
  | detaching
  deriving DecidableEq, Repr

def TenState.code : TenState → Nat
  | .absent => 0
  | .attaching => 1
  | .active => 2
  | .doze => 3
  | .detaching => 4

/-- A tenant is in a state (HST_TNn_STATE). -/
def State.tenIs (s : State) (tn : Nat) (t : TenState) : Bool := s.fld (HST_TN_STATE_STATE tn) == t.code

/-- A tenant takes a state. -/
def State.tenPut (s : State) (tn : Nat) (t : TenState) : State := s.put (HST_TN_STATE_STATE tn) t.code

/-- A command of a tenant ends: its completion waits behind those that ended before it (R494). -/
def Tenant.endCmd (t : Tenant) (p : TenCmd → Bool) (status : Nat) (data : List Byte) : Tenant :=
  match t.cmds.find? p with
  | some c => { t with cmds := t.cmds.erase c ++ [{ c with st := .ended status data }] }
  | none => t

/-- The tenant is in service: ACTIVE or DOZE. -/
def State.tenLive (s : State) (tn : Nat) : Bool := s.tenIs tn .active || s.tenIs tn .doze

/-- Runtime state of a tenant. -/
def State.ten (s : State) (tn : Nat) : Tenant := tabGet Tenant.absent s.tenants tn
def State.setTen (s : State) (tn : Nat) (t : Tenant) : State := { s with tenants := tabSet Tenant.absent s.tenants tn t }

/-- `n` bytes, little-endian, at byte `i` of a tenant's record in the TENANTQ section in force (R502). -/
def State.tenRec (s : State) (tn i n : Nat) : Nat := secLe s.active tyTENANTQ (16 + 40 * tn + i) n

/-- Flags of the record: ENABLE, INBAND, WAKE_PIN. -/
def State.tenEnabled (s : State) (tn : Nat) : Bool := bitOf (s.tenRec tn 1 1) 0
def State.tenInband (s : State) (tn : Nat) : Bool := bitOf (s.tenRec tn 1 1) 1
def State.tenWakePin (s : State) (tn : Nat) : Bool := bitOf (s.tenRec tn 1 1) 2

/-- The HV ports of a tenant's record, as indexes: first and count. -/
def State.tenHv (s : State) (tn : Nat) : Nat × Nat := (s.tenRec tn 4 1, s.tenRec tn 3 1)

/-- The tenant whose record holds host virtual port `h`. -/
def State.hvRecord (s : State) (h : Nat) : Option Nat :=
  (List.range 64).find? (fun tn => s.tenEnabled tn && decide (s.tenRec tn 4 1 ≤ h ∧ h < s.tenRec tn 4 1 + s.tenRec tn 3 1))

/-- The tenant to which host virtual port `h` is granted (R28). -/
def State.hvTenant (s : State) (h : Nat) : Option Nat :=
  match s.hvRecord h with
  | some tn => if s.tenLive tn then some tn else none
  | none => none

/-- The TAGS of a tenant. -/
def State.tenTags (s : State) (tn : Nat) : List Nat := (List.range (s.tenRec tn 18 1)).map (fun i => s.tenRec tn (20 + i) 1)

/-- A fabric port is one of a tenant's HV ports. -/
def State.tenPort (s : State) (tn p : Nat) : Bool :=
  let hv := s.tenHv tn
  decide (88 + hv.1 ≤ p ∧ p < 88 + hv.1 + hv.2)

/-- Exact-match entries that count against a tenant: static ones in its TAGS and learned ones that target its HV ports
(R495). -/
def State.emOwned (s : State) (tn : Nat) : Nat :=
  ((s.plane s.engine).regions.map (fun r => ((s.entriesOf r).filter (fun x =>
    let st := x.2.2.status
    if stHas st stCHART then false
    else if stHas st stLEARNED then s.tenPort tn (resTarget x.2.2.result)
    else (s.tenTags tn).contains (keyTag r.wide x.2.2.key))).length)).sum

/-- A limit the tenant was granted. -/
def State.tenLimEM (s : State) (tn : Nat) : Nat := s.fld (TNW_REQ1_EM tn)

/-- The ingress port's tenant may still own one more exact-match entry; other ports have no quota (R146). -/
def State.emRoom (s : State) (port : Nat) : Bool :=
  if port < 88 then true
  else match s.hvRecord (port - 88) with
    | some tn => decide (s.emOwned tn < s.tenLimEM tn)
    | none => true

/-- Bytes of a host's memory on the link of a tenant, read and written by DMA (R484). -/
def State.dmaRead (s : State) (tn a n : Nat) : List Byte :=
  memTake (if bitOf (s.tenRec tn 2 1) 7 then s.host1 else s.host0) a n
def State.dmaWrite (s : State) (tn a : Nat) (bs : List Byte) : State :=
  if bitOf (s.tenRec tn 2 1) 7 then { s with host1 := memPut s.host1 a bs } else { s with host0 := memPut s.host0 a bs }

end Sys2Proof.Machine
end

