-- ==== Sys2Proof/Machine/TableCommands.lean ====
section
/-! DEFINITION. The meanings of the table commands, of learning and ageing, and of parity repair and scrubbing
(R137–R160, R172, R556, R560). -/

namespace Sys2Proof.Machine

/-! ## Shared operations of TBL_CMD -/

/-- STATUS codes of TBL_CMD. -/
def tsOK : Nat := 0x1
def tsEXISTS : Nat := 0x2
def tsNOTFOUND : Nat := 0x3
def tsNEEDREHASH : Nat := 0x4
def tsNOREGION : Nat := 0x5
def tsPINLIMIT : Nat := 0x6
def tsBUSY : Nat := 0x7
def tsBADSLOT : Nat := 0x8
def tsLPMFULL : Nat := 0x9
def tsREPLACED : Nat := 0xA
def tsNOTDUAL : Nat := 0xB
def tsILLEGAL : Nat := 0xC
def tsNOPLANE : Nat := 0xD

/-- A command has done its work and completes at the next instant of the placement clock: BUSY reads 1 until then (R556, log 10). -/
def State.tblDone (s : State) (st : Nat) : State := { s.put (TBL_CMD_BUSY .A) 1 with tblResult := some st }

/-- The filters that BLOOM_REBUILD recomputed replace the old ones in one clock (R153). -/
def PlaneSt.bloomSwap (p : PlaneSt) : PlaneSt := { p with bloom := p.bloomNew.getD p.bloom, bloomNew := none }

/-- The command in progress completes: STATUS, BUSY at 0, CMD_DONE in the Plane A half (R172, R556). -/
def State.tblComplete (s : State) : State :=
  match s.tblResult with
  | none => s
  | some st =>
    let s1 := ((s.put (TBL_CMD_STATUS .A) st).put (TBL_CMD_BUSY .A) 0).setFlag (TBL_EVT_CMD_DONE .A)
    { s1 with tblResult := none, planeA := s1.planeA.bloomSwap, planeB := s1.planeB.bloomSwap }

/-- NEED_REHASH of a command (R172). -/
def State.tblNeedRehash (s : State) : State := (s.setFlag (TBL_EVT_NEED_REHASH .A)).tblDone tsNEEDREHASH

/-- A write of TBL_CMD reaches the engine: not refused to its requester, no other command in the way (R35, R140).
`tie` says that the management cluster writes TBL_CMD in the same clock. -/
def State.tblCommand (s : State) (r : Requester) (tie : Bool) (act : State → State) : State :=
  s.gated r (rTBL_CMD .A) (fun s =>
    if (tie = true ∧ isMc r = false) ∨ s.flag (TBL_CMD_BUSY .A) then s.put (TBL_CMD_STATUS .A) tsBUSY else act s)

/-- The key in TBL_KEYn: four words narrow, ten wide. -/
def State.tblKey (s : State) (wide : Bool) : Nat :=
  (List.range (if wide then 10 else 4)).foldl (fun k n => k + s.fld (TBL_KEY_KEY .A n) * 2 ^ (32 * n)) 0

/-- A key written to TBL_KEYn. -/
def State.putKey (s : State) (wide : Bool) (key : Nat) : State :=
  (List.range (if wide then 10 else 4)).foldl (fun s n => s.put (TBL_KEY_KEY .A n) (key / 2 ^ (32 * n))) s

/-- The result word in TBL_RES. -/
def State.tblRes (s : State) : Nat := s.fld64 (TBL_RES_LO_RESULT .A) (TBL_RES_HI_RESULT .A)
def State.putRes (s : State) (v : Nat) : State := s.put64 (TBL_RES_LO_RESULT .A) (TBL_RES_HI_RESULT .A) v

/-- TBL_CMD_LOC set to a place, or marked as holding none. -/
def State.putLoc (s : State) (b e : Nat) : State :=
  ((s.put (TBL_CMD_LOC_BUCKET .A) b).put (TBL_CMD_LOC_ENTRY .A) e).put (TBL_CMD_LOC_VALID .A) 1
def State.noLoc (s : State) : State := s.put (TBL_CMD_LOC_VALID .A) 0

/-- The region of a key by its tag, of the asked width, in the plane the engine reads. -/
def State.keyRegion (s : State) (wide : Bool) (key : Nat) : Option (Nat × Region) :=
  let p := s.plane s.engine
  match p.regionOfTag (keyTag wide key) with
  | none => none
  | some ri => match p.region ri with
    | some r => if r.wide = wide then some (ri, r) else none
    | none => none

/-- The stream of a result word, when it names one (R113). -/
def resStream (result : Nat) : Option Nat := if bitOf result 47 then some (bits result 35 12) else none

/-- AUTO_PIN of an entry whose result names a critical stream; a pin over PIN_RESERVE is denied and
counted: PIN_DENIED_CNT in the half of the LEAD plane, PIN_LIMIT in the Plane A half, whatever wrote the entry (R167, log 82). -/
def State.autoPin (s : State) (ri b e result : Nat) : State :=
  match resStream result with
  | none => s
  | some id =>
    if s.crit.contains id then
      if s.pinRefused ri b then (s.inc (TBL_PIN_DENIED_CNT_VAL s.lead)).setFlag (TBL_EVT_PIN_LIMIT .A)
      else s.tblApply ri [.status b e stAUTOPIN 0]
    else s

/-- The entry that REPLACE and DELETE act on: the static one, else the learned one (R560). -/
def staticElseLearned (hs : List (Nat × Nat × Slot)) : Option (Nat × Nat × Slot) :=
  match hs.find? (fun x => !stHas x.2.2.status stCHART && !stHas x.2.2.status stLEARNED) with
  | some x => some x
  | none => hs.find? (fun x => !stHas x.2.2.status stCHART && stHas x.2.2.status stLEARNED)

/-- A pin is refused on the page of the bucket where a new key would go. -/
def State.pinRefusedFor (s : State) (ri : Nat) (r : Region) (key : Nat) : Bool :=
  match placePlan r (s.view r) key with
  | some (_, b, _) => s.pinRefused ri b
  | none => false

/-- The outcome of an insertion: status code, and the place when there is one. -/
def State.tblInsertKey (s : State) (ri : Nat) (r : Region) (key result : Nat) (pin : Bool) :
    State × Nat × Option (Nat × Nat) :=
  let hs := holders r (s.view r) key
  if hs.any (fun x => stHas x.2.2.status stCHART || !stHas x.2.2.status stLEARNED) then (s, tsEXISTS, none)
  else
    match hs with
    | (b, e, _) :: _ =>
      if pin ∧ s.pinRefused ri b then (s.setFlag (TBL_EVT_PIN_LIMIT .A), tsPINLIMIT, none)
      else
        let s1 := s.tblApply ri [.put b e ⟨key, result, stStatic pin⟩]
        (s1.autoPin ri b e result, tsREPLACED, some (b, e))
    | [] =>
      if pin ∧ s.pinRefusedFor ri r key then (s.setFlag (TBL_EVT_PIN_LIMIT .A), tsPINLIMIT, none)
      else
        match s.place ri key result (stStatic pin) with
        | (s1, some (b, e)) => (s1.autoPin ri b e result, tsOK, some (b, e))
        | (s1, none) => (s1.setFlag (TBL_EVT_NEED_REHASH .A), tsNEEDREHASH, none)

/-- REPLACE of a key's result (R560). -/
def State.tblReplaceKey (s : State) (ri : Nat) (r : Region) (key result : Nat) (pin : Bool) : State × Nat :=
  match staticElseLearned (holders r (s.view r) key) with
  | none => (s, tsNOTFOUND)
  | some (b, e, x) =>
    if pin ∧ s.pinRefused ri b then (s.setFlag (TBL_EVT_PIN_LIMIT .A), tsPINLIMIT)
    else
      let st := stClr (stClr x.status stLOCK) stAUTOPIN
      let s1 := s.tblApply ri [.put b e ⟨key, result, if pin then stSet st stPIN else st⟩]
      (s1.autoPin ri b e result, tsOK)

/-- DELETE of a key (R560). -/
def State.tblDeleteKey (s : State) (ri : Nat) (r : Region) (key : Nat) : State × Nat :=
  match staticElseLearned (holders r (s.view r) key) with
  | none => (s, tsNOTFOUND)
  | some (b, e, _) => (s.tblApply ri [.clear b e], tsOK)

/-- The entry a lookup would take in a plane, read through the backing copy where the page is away (R560). -/
def State.tblWouldTake (s : State) (pl : Plane) (r : Region) (key : Nat) : Option (Nat × Nat × Slot) :=
  match (s.seek pl r key).1 with
  | .hit b e x => some (b, e, x)
  | .miss => none
  | .page _ =>
    let v := entryAt (s.plane pl) s.lpddr r
    match bestOf s.epoch (holdersIn r v key [cand0 r key, cand1 r (if r.state = .normal then r.seed else r.oldSeed) key]) with
    | some x => some x
    | none => bestOf s.epoch (holdersIn r v key [cand1 r r.seed key])

/-- The address, length, VRF and family of an LPM key in TBL_KEYn. -/
def State.lpmOperands (s : State) : Nat × Nat × Nat × Bool :=
  let k4 := s.fld (TBL_KEY_KEY .A 4)
  let v6 := bitOf k4 24
  let a := (List.range (if v6 then 4 else 1)).foldl (fun k n => k + s.fld (TBL_KEY_KEY .A n) * 2 ^ (32 * n)) 0
  (a, bits k4 0 8, bits k4 8 12, v6)

/-! ## The commands -/

def State.doInsert (s : State) (wide pin : Bool) : State :=
  let key := s.tblKey wide
  match s.keyRegion wide key with
  | none => s.noLoc.tblDone tsNOREGION
  | some (ri, rg) =>
    if !s.anyWriter then s.noLoc.tblDone tsNOPLANE
    else
      match s.tblInsertKey ri rg key s.tblRes pin with
      | (s1, st, some (b, e)) => (s1.putLoc b e).tblDone st
      | (s1, st, none) => s1.noLoc.tblDone st

def execTblInsert (r : Requester) (tie wide pin : Bool) (s : State) : Host.Outcome State Fault Refusal :=
  .next (s.tblCommand r tie (fun s => s.doInsert wide pin))

def State.doReplace (s : State) (wide pin : Bool) : State :=
  let key := s.tblKey wide
  match s.keyRegion wide key with
  | none => s.tblDone tsNOREGION
  | some (ri, rg) =>
    if !s.anyWriter then s.tblDone tsNOPLANE
    else
      let x := s.tblReplaceKey ri rg key s.tblRes pin
      x.1.tblDone x.2

def execTblReplace (r : Requester) (tie wide pin : Bool) (s : State) : Host.Outcome State Fault Refusal :=
  .next (s.tblCommand r tie (fun s => s.doReplace wide pin))

def State.doDelete (s : State) (wide : Bool) : State :=
  let key := s.tblKey wide
  match s.keyRegion wide key with
  | none => s.tblDone tsNOREGION
  | some (ri, rg) =>
    if !s.anyWriter then s.tblDone tsNOPLANE
    else
      let x := s.tblDeleteKey ri rg key
      x.1.tblDone x.2

def execTblDelete (r : Requester) (tie wide : Bool) (s : State) : Host.Outcome State Fault Refusal :=
  .next (s.tblCommand r tie (fun s => s.doDelete wide))

def State.doLookup (s : State) (wide : Bool) (pl : Plane) : State :=
  let key := s.tblKey wide
  let p := s.plane pl
  match p.regionOfTag (keyTag wide key) with
  | none => s.noLoc.tblDone tsNOREGION
  | some ri =>
    match p.region ri with
    | none => s.noLoc.tblDone tsNOREGION
    | some rg =>
      if rg.wide ≠ wide then s.noLoc.tblDone tsNOREGION
      else
        match s.tblWouldTake pl rg key with
        | some (b, e, x) => ((s.putRes x.result).putLoc b e).tblDone tsOK
        | none => s.noLoc.tblDone tsNOTFOUND

def execTblLookup (r : Requester) (tie wide : Bool) (pl : Plane) (s : State) : Host.Outcome State Fault Refusal :=
  .next (s.tblCommand r tie (fun s => s.doLookup wide pl))

/-- The place in TBL_CMD_LOC. -/
def State.tblLoc (s : State) : Nat × Nat := (s.fld (TBL_CMD_LOC_BUCKET .A), s.fld (TBL_CMD_LOC_ENTRY .A))

/-- A stored LPM entry shown in TBL_KEYn, TBL_RES and TBL_SLOT_STATUS; a free unit shows zeros. -/
def State.showPrefix (s : State) (x : Option Prefix) : State :=
  match x with
  | none => (((s.putKey false 0).put (TBL_KEY_KEY .A 4) 0).putRes 0).put (TBL_SLOT_STATUS_STATUS .A) 0
  | some x => (((s.putKey false x.addr).put (TBL_KEY_KEY .A 4)
      (x.len + 2 ^ 8 * x.vrf + 2 ^ 24 * bitN x.v6)).putRes x.result).put (TBL_SLOT_STATUS_STATUS .A) x.status

def State.doReadAt (s : State) (region : Nat) (pl : Plane) : State :=
  let p := s.plane pl
  let (b, e) := s.tblLoc
  if region = 16 then
    let u := (4 * b + e) % 65536
    if p.badUnits.contains u then s.tblDone tsBADSLOT
    else if p.lpmTrie then
      -- A unit of a node or of results, as a slot: 16 bytes in the place of the key, then 8 (log 16).
      let bs := trieUnitAt p u
      (((s.putKey false (beNat (bs.take 16))).putRes (leNat (bs.drop 16))).put (TBL_SLOT_STATUS_STATUS .A) 0).tblDone tsOK
    else (s.showPrefix (tabFind p.lpm u)).tblDone tsOK
  else
    match p.region region with
    | none => s.tblDone tsNOREGION
    | some rg =>
      if rg.logical ≤ b ∨ rg.k ≤ e then s.tblDone tsBADSLOT
      else if (match rg.slotAt b e with
          | some n => !(badItems p rg n).isEmpty
          | none => false) then s.tblDone tsBADSLOT
      else
        let x := match rg.slotAt b e with
          | some n => tabGet Slot.none p.exact n
          | none => backGet rg s.lpddr b e
        (((s.putKey rg.wide x.key).putRes x.result).put (TBL_SLOT_STATUS_STATUS .A) x.status).tblDone tsOK

def execTblReadAt (r : Requester) (tie : Bool) (region : Nat) (pl : Plane) (s : State) : Host.Outcome State Fault Refusal :=
  .next (s.tblCommand r tie (fun s => s.doReadAt region pl))

def State.doWriteAt (s : State) (region : Nat) : State :=
  let (b, e) := s.tblLoc
  let st := s.fld (TBL_SLOT_STATUS_STATUS .A) % 1024
  if !s.anyWriter then s.tblDone tsNOPLANE
  else if region = 16 then
    let u := (4 * b + e) % 65536
    let (a, len, vrf, v6) := s.lpmOperands
    let one (s : State) (pl : Plane) : State :=
      let p := s.plane pl
      if s.tblPlanes.contains pl then
        s.setPlane pl (if p.lpmTrie then trieUnitPut p u (beBytes 16 (s.tblKey false) ++ leBytes 8 s.tblRes)
          else lpmWriteUnit p u ⟨vrf, v6, len, maskAddr v6 len a, s.tblRes, st⟩)
      else s
    ((one (one s .A) .B).mirrorWalk).tblDone tsOK
  else
    match (s.plane s.engine).region region with
    | none => s.tblDone tsNOREGION
    | some rg =>
      if rg.logical ≤ b ∨ rg.k ≤ e then s.tblDone tsBADSLOT
      else if stHas st stVALID ∧ (stHas st stPIN ∨ stHas st stAUTOPIN) ∧ s.pinRefused region b then
        (s.setFlag (TBL_EVT_PIN_LIMIT .A)).tblDone tsPINLIMIT
      else
        let s1 := s.tblApply region [.put b e ⟨s.tblKey rg.wide, s.tblRes, st⟩]
        (if stHas st stVALID ∧ stHas st stAUTOPIN = false then s1.autoPin region b e s.tblRes else s1).tblDone tsOK

def execTblWriteAt (r : Requester) (tie : Bool) (region : Nat) (s : State) : Host.Outcome State Fault Refusal :=
  .next (s.tblCommand r tie (fun s => s.doWriteAt region))

/-- A region put into DUAL with a new seed (R141). -/
def Region.toDual (r : Region) (seed : Nat) : Region :=
  { r with oldSeed := r.seed, seed := seed, state := .dual, walk := 0 }

/-- The LPM store changed in both planes. -/
def State.mapLpm (s : State) (f : PlaneSt → PlaneSt) : State := { s with planeA := f s.planeA, planeB := f s.planeB }

def State.doRehash (s : State) (region : Nat) : State :=
  let seed := s.fld (TBL_CMD_ARG_ARG .A)
  let p := s.plane s.engine
  if !s.anyWriter then s.tblDone tsNOPLANE
  else if region = 16 then
    if p.lpmTrie then s.tblDone tsILLEGAL
    else if p.lpmState ≠ .normal then s.tblDone tsBUSY
    else (s.mapLpm (fun p => { p with
      lpmOldSeed := p.lpmSeed, lpmSeed := seed, lpmState := .dual, lpmWalk := 0 })).tblDone tsOK
  else
    match p.region region with
    | none => s.tblDone tsNOREGION
    | some rg =>
      if rg.state ≠ .normal then s.tblDone tsBUSY
      else (s.mapRegion region (fun r => r.toDual seed)).tblDone tsOK

def execTblRehash (r : Requester) (tie : Bool) (region : Nat) (s : State) : Host.Outcome State Fault Refusal :=
  .next (s.tblCommand r tie (fun s => s.doRehash region))

def State.doResume (s : State) (region : Nat) : State :=
  let p := s.plane s.engine
  if !s.anyWriter then s.tblDone tsNOPLANE
  else if region = 16 then
    if p.lpmState = .normal then s.tblDone tsNOTDUAL
    else (s.mapLpm (fun p => { p with lpmState := .dual })).tblDone tsOK
  else
    match p.region region with
    | none => s.tblDone tsNOREGION
    | some rg =>
      if rg.state = .normal then s.tblDone tsNOTDUAL
      else (s.mapRegion region (fun r => { r with state := .dual })).tblDone tsOK

def execTblResume (r : Requester) (tie : Bool) (region : Nat) (s : State) : Host.Outcome State Fault Refusal :=
  .next (s.tblCommand r tie (fun s => s.doResume region))

def State.doUnlock (s : State) (wide : Bool) : State :=
  let key := s.tblKey wide
  match s.keyRegion wide key with
  | none => s.tblDone tsNOREGION
  | some (ri, rg) =>
    if !s.anyWriter then s.tblDone tsNOPLANE
    else
      match (holders rg (s.view rg) key).find? (fun x =>
          stHas x.2.2.status stLEARNED && !stHas x.2.2.status stCHART) with
      | some (b, e, _) => (s.tblApply ri [.status b e 0 stLOCK]).tblDone tsOK
      | none => s.tblDone tsNOTFOUND

def execTblUnlock (r : Requester) (tie wide : Bool) (s : State) : Host.Outcome State Fault Refusal :=
  .next (s.tblCommand r tie (fun s => s.doUnlock wide))

/-- The learned entries of a region, with their places. -/
def State.learnedOf (s : State) (r : Region) : List (Nat × Nat × Slot) :=
  (s.entriesOf r).filter (fun x => stHas x.2.2.status stLEARNED && !stHas x.2.2.status stCHART)

/-- FLUSH_LEARNED. The LPM store, region 16, holds no learned entry. -/
def State.doFlushLearned (s : State) (region : Nat) : State :=
  let arg := s.fld (TBL_CMD_ARG_ARG .A)
  if !s.anyWriter then s.tblDone tsNOPLANE
  else if region = 16 then s.tblDone tsOK
  else
    match (s.plane s.engine).region region with
    | none => s.tblDone tsNOREGION
    | some rg =>
      let del := (s.learnedOf rg).filter (fun x => bitOf arg 31 || resTarget x.2.2.result == arg % 256)
      (s.tblApply region (del.map (fun x => .clear x.1 x.2.1))).tblDone tsOK

def execTblFlushLearned (r : Requester) (tie : Bool) (region : Nat) (s : State) : Host.Outcome State Fault Refusal :=
  .next (s.tblCommand r tie (fun s => s.doFlushLearned region))

def State.doLpmInsert (s : State) (pin : Bool) : State :=
  let (a, len, vrf, v6) := s.lpmOperands
  let p := s.plane s.engine
  if famBits v6 < len then s.tblDone tsILLEGAL
  else if !s.anyWriter then s.tblDone tsNOPLANE
  else if lpmCopies p vrf v6 len a ≠ [] then s.tblDone tsEXISTS
  else
    let x : Prefix := ⟨vrf, v6, len, maskAddr v6 len a, s.tblRes, stStatic pin⟩
    match s.lpmEach (fun p => lpmInsertPlane s.epoch s.clk p x) with
    | some s1 => s1.tblDone tsOK
    | none => if p.lpmTrie then s.tblDone tsLPMFULL else s.tblNeedRehash

def execTblLpmInsert (r : Requester) (tie pin : Bool) (s : State) : Host.Outcome State Fault Refusal :=
  .next (s.tblCommand r tie (fun s => s.doLpmInsert pin))

def State.doLpmDelete (s : State) : State :=
  let (a, len, vrf, v6) := s.lpmOperands
  let p := s.plane s.engine
  let isIt (x : Prefix) : Bool := x.vrf == vrf && x.v6 == v6 && x.len == len && x.addr == maskAddr v6 len a &&
    !stHas x.status stCHART
  if !s.anyWriter then s.tblDone tsNOPLANE
  else if !((lpmCopies p vrf v6 len a).any isIt) then s.tblDone tsNOTFOUND
  else
    match s.lpmEach (fun p => lpmKeep s.epoch s.clk p (fun x => !isIt x)) with
    | some s1 => s1.tblDone tsOK
    | none => s.tblDone tsLPMFULL

def execTblLpmDelete (r : Requester) (tie : Bool) (s : State) : Host.Outcome State Fault Refusal :=
  .next (s.tblCommand r tie State.doLpmDelete)

def State.doLpmLookup (s : State) : State :=
  let (a, _, vrf, v6) := s.lpmOperands
  match s.lpmLookup s.engine vrf v6 a with
  | (s1, some (u, x)) => ((s1.putRes x).putLoc (u / 4) (u % 4)).tblDone tsOK
  | (s1, none) => s1.noLoc.tblDone tsNOTFOUND

def execTblLpmLookup (r : Requester) (tie : Bool) (s : State) : Host.Outcome State Fault Refusal :=
  .next (s.tblCommand r tie State.doLpmLookup)

/-- BLOOM_REBUILD: the filters are recomputed into the shadow copy, which the completion swaps in; insertions until then set their bits in
both copies (R153). -/
def State.doBloomRebuild (s : State) : State :=
  if !s.anyWriter then s.tblDone tsNOPLANE
  else (s.mapLpm (fun p => { p with bloomNew := some (bloomOf p.lpm) })).tblDone tsOK

def execTblBloomRebuild (r : Requester) (tie : Bool) (s : State) : Host.Outcome State Fault Refusal :=
  .next (s.tblCommand r tie State.doBloomRebuild)

/-! ## The rehash walk (R142, R143) -/

/-- One entry of the walk: an entry in its old-seed b1 and not in its b0 goes where the new seed puts it. False when it
cannot be placed. -/
def State.walkEntry (s : State) (ri b e : Nat) : State × Bool :=
  match (s.plane s.engine).region ri with
  | none => (s, true)
  | some r =>
    let x := s.view r b e
    if stHas x.status stVALID ∧ b = cand1 r r.oldSeed x.key ∧ b ≠ cand0 r x.key ∧ b ≠ cand1 r r.seed x.key then
      match placePlan r (s.view r) x.key with
      | none => (s, false)
      | some (ops, b', e') =>
        -- A move of the path may have carried the entry itself.
        let s1 := s.tblApply ri ops
        let y := s1.view r b e
        if y.key = x.key ∧ stHas y.status stVALID then (s1.tblApply ri [.move b e b' e'], true) else (s1, true)
    else (s, true)

/-- The walk from its bucket on: the state and the bucket it stalled at, if any. -/
def State.walkFromBucket (s : State) (ri : Nat) : Nat → Nat → State × Option Nat
  | 0, _ => (s, none)
  | fuel + 1, b =>
    match (s.plane s.engine).region ri with
    | none => (s, none)
    | some r =>
      let res := (List.range r.k).foldl (fun acc e =>
        if acc.2 then acc.1.walkEntry ri b e else acc) (s, true)
      if res.2 then State.walkFromBucket res.1 ri fuel (b + 1) else (res.1, some b)

/-- The walk over the LPM store: every prefix in its old b1 placed again, as it then lies; it stalls at the bucket of one that finds no
place. -/
def lpmWalk (p : PlaneSt) : PlaneSt × Bool :=
  let res := p.lpm.foldl (fun (acc : Tab Prefix × Option Nat) e =>
    match acc.2, tabFind acc.1 e.1 with
    | none, some x =>
      if p.lpmWalk ≤ e.1 / 4 ∧ e.1 / 4 = lpmCand1 p.lpmOldSeed x.keyB ∧ e.1 / 4 ≠ lpmCand0 x.keyB ∧
          e.1 / 4 ≠ lpmCand1 p.lpmSeed x.keyB then
        match lpmPlace p.lpmSeed acc.1 x with
        | some (t, _) => (if tabFind t e.1 = some x then tabDel t e.1 else t, none)
        | none => (acc.1, some (e.1 / 4))
      else acc
    | _, _ => acc) (p.lpm, none)
  match res.2 with
  | none => ({ p with lpm := res.1, lpmState := .normal, lpmOldSeed := p.lpmSeed, lpmWalk := 0 }, true)
  | some b => ({ p with lpm := res.1, lpmState := .stalled, lpmWalk := b }, false)

def execRehashWalkEnd (region : Nat) (s : State) : Host.Outcome State Fault Refusal :=
  .next (
    let p := s.plane s.engine
    if region = 16 then
      if p.lpmState = .dual then
        let s1 := s.mapLpm (fun p => (lpmWalk p).1)
        if (s1.plane s1.engine).lpmState = .normal then s1.setFlag (TBL_EVT_REHASH_DONE .A)
        else s1.setFlag (TBL_EVT_REHASH_STALL .A)
      else s
    else
      match p.region region with
      | none => s
      | some rg =>
        if rg.state = .dual then
          match s.walkFromBucket region (rg.logical - rg.walk) rg.walk with
          | (s1, none) => (s1.mapRegion region (fun r => { r with state := .normal, oldSeed := r.seed, walk := 0 }
              )).setFlag (TBL_EVT_REHASH_DONE .A)
          | (s1, some b) => (s1.mapRegion region (fun r => { r with state := .stalled, walk := b }
              )).setFlag (TBL_EVT_REHASH_STALL .A)
        else s)

/-! ## Learning (R145–R149) -/

/-- One of two waiting events goes first: the earlier stamp, then the lower ingress port (R146). -/
def learnFirst (now : Nat) (a b : LearnEvent) : Bool :=
  let x := clkSince now a.stamp
  let y := clkSince now b.stamp
  decide (y < x) || (decide (x = y) && decide (a.port ≤ b.port))

/-- The event to apply now and the machine without it: the first of both FIFOs by stamp and port, no earlier than 2 µs after its stamp and
8 ns after the event before it (R146). -/
def State.nextLearn (s : State) : Option (LearnEvent × State) :=
  let l := s.planeA.learnQ.map (fun e => (Plane.A, e)) ++ s.planeB.learnQ.map (fun e => (Plane.B, e))
  match l.foldl (fun (m : Option (Plane × LearnEvent)) e => match m with
      | none => some e
      | some x => if learnFirst s.clk x.2 e.2 then m else some e) none with
  | none => none
  | some (pl, e) =>
    if clkSince s.clk e.stamp < 2000 ∨ clkSince s.clk s.learnAt < 8 then none
    else
      let x := s.plane pl
      some (e, { s.setPlane pl { x with learnQ := x.learnQ.erase e } with learnAt := s.clk })

/-- The result word of a learned entry: ACTION 0x1, TARGET the port (R146). -/
def learnResult (port : Nat) : Nat := 2 ^ 60 + port * 2 ^ 48

/-- The flap tracker without its earliest window when it is full (R147). -/
def trackerRoom (l : List FlapEntry) (now : Nat) : List FlapEntry :=
  if l.length < 256 then l
  else
    match l.foldl (fun m e => match m with
        | none => some e
        | some x => if clkSince now x.start < clkSince now e.start then some e else m) (none : Option FlapEntry) with
    | some m => l.erase m
    | none => l

/-- A move of a tracked or untracked key: the tracker after it, its count and the first port (R147). -/
def trackMove (l : List FlapEntry) (key old stamp winNs : Nat) : List FlapEntry × Nat × Nat :=
  match l.find? (fun e => e.key == key) with
  | none => (trackerRoom l stamp ++ [⟨key, stamp, old, 1⟩], 1, old)
  | some x =>
    if clkSince stamp x.start ≤ winNs then
      (l.map (fun e => if e.key = key then { e with count := e.count + 1 } else e), x.count + 1, x.first)
    else (l.map (fun e => if e.key = key then ⟨key, stamp, old, 1⟩ else e), 1, old)

/-- A move of a learned entry, damped when it flaps (R146–R148). The rewritten entry starts at AGE 0 in both planes (log 83). -/
def State.learnMove (s : State) (ri b e : Nat) (x : Slot) (ev : LearnEvent) : State :=
  let h := s.lead
  let old := resTarget x.result
  let t := trackMove s.flaps ev.key old ev.stamp (s.fld (TBL_LEARN_CTL_FLAP_WIN_MS h) * 1000000)
  let s1 := { s with flaps := t.1 }
  let retarget (s : State) (port set : Nat) : State :=
    s.tblApply ri [.put b e ⟨x.key, setBits x.result 48 12 port, stSetAge (stSet x.status set) 0⟩]
  if s.fld (TBL_LEARN_CTL_FLAP_MAX h) < t.2.1 then
    let s2 := ((retarget s1 t.2.2 stLOCK).inc (TBL_FLAP_LOCK_CNT_VAL h)).setFlag (TBL_EVT_MAC_FLAP h)
    if s.flag (TBL_CMD_BUSY .A) then s2 else s2.putKey false ev.key
  else (retarget s1 ev.port 0).inc (TBL_LEARN_MOVE_CNT_VAL h)

def execLearnEventApply (s : State) : Host.Outcome State Fault Refusal :=
  .next (
    let h := s.lead
    match s.nextLearn with
    | none => s
    | some (ev, s) =>
      match (s.plane s.engine).learnRegion with
      | none => s
      | some ri =>
        match (s.plane s.engine).region ri with
        | none => s
        | some r =>
          if !s.anyWriter then s
          else
            match bestOf s.epoch (holders r (s.view r) ev.key) with
            | none =>
              if !s.emRoom ev.port then s.inc (TBL_LEARN_QUOTA_CNT_VAL h)
              else
                match s.place ri ev.key (learnResult ev.port) (stVALID + stLEARNED) with
                | (s1, some _) => s1.inc (TBL_LEARN_CNT_VAL h)
                | (s1, none) => (s1.inc (TBL_LEARN_FAIL_CNT_VAL h)).setFlag (TBL_EVT_NEED_REHASH h)
            | some (b, e, x) =>
              if stHas x.status stCHART ∨ !stHas x.status stLEARNED then s.inc (TBL_LEARN_STATIC_CNT_VAL h)
              else if stHas x.status stLOCK then s.inc (TBL_LEARN_LOCKED_CNT_VAL h)
              else if resTarget x.result = ev.port then s.tblApply ri [.status b e 0 0x180]
              else s.learnMove ri b e x ev)

/-- A change of LEAD: the waiting events go, counted in the new LEAD half, and the tracker clears (R149). -/
def State.leadFlush (s : State) : State :=
  let n := s.planeA.learnQ.length + s.planeB.learnQ.length
  let s1 : State := { s with
    flaps := []
    planeA := { s.planeA with learnQ := [] }
    planeB := { s.planeB with learnQ := [] } }
  if n = 0 then s1 else s1.addCnt (TBL_LEARN_Q_DROP_CNT_VAL s1.lead) n

/-- A plane becomes LEAD (R18, R149). It takes over the one bucket of the exception limiter (R128). -/
def State.makeLead (s : State) (pl : Plane) : State :=
  if s.lead = pl then s
  else ((s.put (PRS_EXC_LEVEL_TOKENS pl) (s.fld (PRS_EXC_LEVEL_TOKENS s.lead))).putDev GLB_DEVSTATE_LEAD
    (planeNum pl)).leadFlush

/-! ## Ageing (R150) -/

/-- AGE of an entry in the planes that take writes. -/
def State.agesOf (s : State) (ri b e : Nat) : List Nat :=
  [Plane.A, Plane.B].filterMap (fun pl =>
    if s.takesWrites pl then (match (s.plane pl).region ri with
      | some r => some (stAge (match r.slotAt b e with
          | some n => (tabGet Slot.none (s.plane pl).exact n).status
          | none => (backGet r s.lpddr b e).status))
      | none => none) else none)

/-- A status word one step older. -/
def stOlder (st : Nat) : Nat := stSetAge st (min 3 (stAge st + 1))

/-- AGE advanced in each plane where it is below 3, and once in the backing copy of a page that is away in a plane. -/
def State.ageUp (s : State) (ri b e : Nat) : State :=
  let own (s : State) (pl : Plane) : State :=
    let p := s.plane pl
    match p.region ri with
    | some r =>
      match r.slotAt b e with
      | some n =>
        let x := tabGet Slot.none p.exact n
        if s.takesWrites pl then s.setPlane pl { p with exact := tabSet Slot.none p.exact n { x with status := stOlder x.status } } else s
      | none => s
    | none => s
  let away (pl : Plane) : Bool := s.takesWrites pl && (match (s.plane pl).region ri with
    | some r => (r.slotAt b e).isNone
    | none => false)
  let s1 := own (own s .A) .B
  match (s1.plane s1.engine).region ri with
  | some r =>
    if away .A || away .B then
      let x := backGet r s1.lpddr b e
      { s1 with lpddr := backPut r s1.lpddr b e { x with status := stOlder x.status } }
    else s1
  | none => s1

def execAgeSweep (s : State) : Host.Outcome State Fault Refusal :=
  .next (
    if s.fld (TBL_LEARN_CTL_AGE_S s.lead) = 0 then s
    else
      match (s.plane s.engine).learnRegion with
      | none => s
      | some ri =>
        match (s.plane s.engine).region ri with
        | none => s
        | some r =>
          if !s.anyWriter then s
          else
            (s.learnedOf r).foldl (fun s x =>
              let (b, e, y) := x
              if stHas y.status stLOCK then s
              else if (s.agesOf ri b e).all (· == 3) then
                (s.tblApply ri [.clear b e]).inc (TBL_AGED_CNT_VAL s.lead)
              else s.ageUp ri b e) s)

/-! ## Fragments, parity and scrubbing -/

def execFragAge (pl : Plane) (i : Nat) (s : State) : Host.Outcome State Fault Refusal :=
  .next (
    let p := s.plane pl
    if i < p.frags.length then
      (s.setPlane pl { p with frags := p.frags.eraseIdx i }).inc (PRS_FRAG_AGED_CNT_VAL pl)
    else s)

/-- A bad slot or status word of a plane made good from what its copy holds (R158). -/
def State.repairItem (s : State) (pl : Plane) (table n : Nat) (x : Slot) : State :=
  let p := s.plane pl
  let wide := match p.slotHome n with
    | some (_, r) => r.wide
    | none => false
  let m := if wide then n / 2 * 2 else n
  let own := tabGet Slot.none p.exact m
  let y : Slot := if table = 1 then { own with status := x.status } else { own with key := x.key, result := x.result }
  s.setPlane pl { p with
    exact := tabSet Slot.none p.exact m y
    badSlots := if table = 1 then p.badSlots else p.badSlots.filter (· ≠ n)
    badStatus := if table = 1 then p.badStatus.filter (· ≠ n) else p.badStatus }

/-- The record of TBL_PAR_ERR is that of an item: the same TABLE and address, or the backing bucket that a slot belongs to. -/
def State.parErrIs (s : State) (pl : Plane) (table addr : Nat) : Bool :=
  let bucket := match (s.plane pl).slotHome addr with
    | some (_, r) => if r.pageable then r.logicalOf addr else none
    | none => none
  s.flag (TBL_PAR_ERR_VALID pl) &&
    ((s.fld (TBL_PAR_ERR_TABLE pl) == table && s.fld (TBL_PAR_ERR_ADDR pl) == addr) ||
      (s.fld (TBL_PAR_ERR_TABLE pl) == 3 && table == 0 && bucket == some (s.fld (TBL_PAR_ERR_ADDR pl))))

/-- The outcome of a repair noted: REPAIRED, or BOTH and PAR_BOTH (R158, R159). A record of a backing bucket is repaired with the last of
its slots. -/
def State.repairNoted (s : State) (pl : Plane) (table addr : Nat) (good : Bool) : State :=
  let mine := s.parErrIs pl table addr
  let rest := s.fld (TBL_PAR_ERR_TABLE pl) == 3 && (List.range 4).any (fun i => (s.plane pl).badSlots.contains (addr / 4 * 4 + i))
  if good then
    let s1 := s.inc (TBL_PAR_REPAIR_CNT_VAL pl)
    if mine ∧ rest = false then s1.put (TBL_PAR_ERR_REPAIRED pl) 1 else s1
  else
    let s1 := (s.inc (TBL_PAR_BOTH_CNT_VAL pl)).setFlag (TBL_EVT_PAR_BOTH pl)
    if mine then s1.put (TBL_PAR_ERR_BOTH pl) 1 else s1

/-- A bad LPM unit made good from the same address of the twin. -/
def State.repairUnit (s : State) (pl : Plane) (u : Nat) : State :=
  let p := s.plane pl
  let q := s.plane (twinOf pl)
  s.setPlane pl (if p.lpmTrie then trieUnitPut p u (trieUnitAt q u) else { p with
    lpm := (match tabFind q.lpm u with
      | some x => tabPut p.lpm u x
      | none => tabDel p.lpm u)
    badUnits := p.badUnits.filter (· ≠ u) })

/-- The repair of a bad item: TABLE 0 a slot, 1 a status word, 2 an LPM unit. -/
def execParityRepair (pl : Plane) (table addr : Nat) (s : State) : Host.Outcome State Fault Refusal :=
  .next (
    let p := s.plane pl
    if table = 2 then
      if p.badUnits.contains addr then
        if s.goodUnit pl addr then (s.repairUnit pl addr).repairNoted pl 2 addr true else s.repairNoted pl 2 addr false
      else s
    else if table < 2 ∧ p.badItem table addr then
      match s.goodSource pl table addr with
      | some x => (s.repairItem pl table addr x).repairNoted pl table addr true
      | none => s.repairNoted pl table addr false
    else s)

/-- Items the scrubber reads in turn: slots, status words, LPM units (R160). -/
def scrubItems : Nat := 131072 + 131072 + 65536

def execScrubRead (pl : Plane) (s : State) : Host.Outcome State Fault Refusal :=
  .next (
    let p := s.plane pl
    let i := p.scrub % scrubItems
    let s1 := s.setPlane pl { p with scrub := (i + 1) % scrubItems }
    if i < 131072 then
      if p.badItem 0 i then s1.parityFound pl 0 1 i (!s.goodCopy pl 0 i) else s1
    else if i < 262144 then
      if p.badItem 1 (i - 131072) then s1.parityFound pl 1 1 (i - 131072) (!s.goodCopy pl 1 (i - 131072)) else s1
    else if p.badUnits.contains (i - 262144) then s1.parityFound pl 2 1 (i - 262144) (!s.goodUnit pl (i - 262144))
    else s1)

end Sys2Proof.Machine
end

