-- ==== Sys2Proof/Machine/Pools.lean ====
section
/-! DEFINITION. Time readings, the buffer pools and their allocator, and the capture engine (R173–R184, R194–R199,
R262–R265). -/

namespace Sys2Proof.Machine

/-! ## Reading the time bases -/

/-- Seconds and nanoseconds as one count of ns. -/
def TbTime.nanos (t : TbTime) : Nat := t.sec * 1000000000 + t.ns

/-- CT48 of a time value (R262). -/
def TbTime.ct48 (t : TbTime) : Nat := t.nanos % 2 ^ 48

/-- A time base as it stands. -/
def State.tb (s : State) (n : Nat) : TimeBase := (s.tbs[n]?).getD TimeBase.reset

/-- The time bases at the last tick; FRAC is dropped. -/
def State.stamp (s : State) : List TbTime := s.tbs.map (fun t => ⟨t.now.sec, t.now.ns, 0⟩)

/-- A time base runs: TB0 always, the others with EN (R257). -/
def State.tbRuns (s : State) (n : Nat) : Bool := n == 0 || s.flag (TIM_TB_CTL_EN n)

/-- A time advanced by 2⁻³² ns. -/
def TbTime.plus (t : TbTime) (units : Nat) : TbTime :=
  let f := t.frac + units
  let n := t.ns + f / 2 ^ 32
  ⟨(t.sec + n / 1000000000) % 2 ^ 48, n % 1000000000, f % 2 ^ 32⟩

/-- A time moved forward or back by nanoseconds, seconds modulo 2^48. -/
def TbTime.later (t : TbTime) (ns : Nat) : TbTime :=
  let x := (t.nanos + ns) % (2 ^ 48 * 1000000000)
  ⟨x / 1000000000, x % 1000000000, 0⟩
def TbTime.earlier (t : TbTime) (ns : Nat) : TbTime :=
  let x := (t.nanos + 2 ^ 48 * 1000000000 - ns) % (2 ^ 48 * 1000000000)
  ⟨x / 1000000000, x % 1000000000, 0⟩

/-- What a time base counted at an earlier tick; before all it remembers it stood at its reset value. -/
def TimeBase.segAt (t : TimeBase) (k : Nat) : TbSeg := (t.past.find? (fun g => decide (g.tick ≤ k))).getD ⟨k, ⟨0, 0, 0⟩, 0, false⟩
def TimeBase.valueAt (t : TimeBase) (k : Nat) : TbTime := let g := t.segAt k; g.value.plus ((k - g.tick) * g.rate)

/-- All four time bases captured at an instant: SEC.NS of the preceding tick, `back` ticks before the last one, plus the whole ns
elapsed since it. A stopped time base adds nothing (R264). -/
def State.stampTick (s : State) (back elapsed : Nat) : List TbTime :=
  [0, 1, 2, 3].map (fun n =>
    let t := s.tb n
    let v := if back = 0 then t.now else t.valueAt (s.ticks - back)
    let run := if back = 0 then s.tbRuns n else (t.segAt (s.ticks - back + 1)).run
    if run then ({ v with frac := 0 } : TbTime).later elapsed else { v with frac := 0 })

/-- The time bases `age` ns before the last nanosecond of the present tick. -/
def State.stampAgo (s : State) (age : Nat) : List TbTime := s.stampTick (age / 4) (3 - age % 4)

/-- The time bases now, `elapsed` ns (0 to 3) after the last tick. -/
def State.stampNow (s : State) (elapsed : Nat) : List TbTime := s.stampTick 0 (elapsed % 4)

/-- TB0 in ns, and as CT48. -/
def State.nowNs (s : State) : Nat := (s.tb 0).now.nanos
def State.nowCt (s : State) : Nat := (s.tb 0).now.ct48

/-- CT48 `a` is later than `b` (R263). -/
def ctLater (a b : Nat) : Bool :=
  let d := (a + 2 ^ 48 - b % 2 ^ 48) % 2 ^ 48
  decide (0 < d ∧ d < 2 ^ 47)

/-- TB0 ingress time of a frame in ns (R265). -/
def Frame.time (f : Frame) : Nat := ((f.ts.head?).getD ⟨0, 0, 0⟩).nanos

/-- The twin tag of a frame (R308). -/
def Frame.tag (f : Frame) : Nat := f.bucket * 65536 + f.seq

/-! ## Pools (R173–R184) -/

/-- Buffer size and largest frame of a pool. -/
def poolSize : Nat → Nat
  | 0 => 256
  | 1 => 1024
  | 2 => 2304
  | _ => 9472
def fMax (p : Nat) : Nat := poolSize p - 128

/-- A pool of no buffers. -/
def Pool.none : Pool := ⟨[], 0, 0, false, [], []⟩

/-- Buffers available in the current clock; a pool in error is empty (R180, R181). -/
def Pool.free (q : Pool) : Nat := q.stack.length + (q.count - q.fresh)

/-- The buffer at the head of the list (R179). -/
def Pool.head (q : Pool) : Option Nat :=
  match q.stack with
  | b :: _ => some b
  | [] => if q.fresh < q.count then some q.fresh else Option.none

/-- The list without its head. -/
def Pool.tail (q : Pool) : Pool :=
  match q.stack with
  | _ :: t => { q with stack := t }
  | [] => { q with fresh := q.fresh + 1 }

/-- A list built afresh in ascending order. -/
def Pool.build (n : Nat) : Pool := ⟨[], 0, n, false, [], []⟩

/-- Pool `p` of a plane. -/
def PlaneSt.pool (x : PlaneSt) (p : Nat) : Pool := (x.pools[p]?).getD Pool.none
def PlaneSt.setPool (x : PlaneSt) (p : Nat) (q : Pool) : PlaneSt := { x with pools := x.pools.set p q }

/-- A pool exists in a plane when its COUNT is not 0 (R173). -/
def State.poolExists (s : State) (pl : Plane) (p : Nat) : Bool := decide (0 < s.fld (BPM_POOL_CFG_COUNT pl p))

/-- The smallest existing pool that holds a frame of a length (R175), and the next larger existing pool. -/
def State.fitPool (s : State) (pl : Plane) (len : Nat) : Option Nat :=
  [0, 1, 2, 3].find? (fun p => s.poolExists pl p && decide (len ≤ fMax p))
def State.nextPool (s : State) (pl : Plane) (p : Nat) : Option Nat :=
  [0, 1, 2, 3].find? (fun q => decide (p < q) && s.poolExists pl q)

/-- A free list found corrupt (R180). -/
def State.listError (s : State) (pl : Plane) (p b : Nat) : State :=
  let x := s.plane pl
  let q := x.pool p
  let s1 := s.setPlane pl (x.setPool p { q with error := true, stack := [], fresh := q.count, retq := [] })
  let s2 := (s1.put (BPM_POOL_FREE_ERROR pl p) 1).setFlag (BPM_EVT_LIST_ERR pl)
  if s.flag (BPM_LIST_ERR_VALID pl) then s2.put (BPM_LIST_ERR_OVERFLOW pl) 1
  else ((s2.put (BPM_LIST_ERR_VALID pl) 1).put (BPM_LIST_ERR_POOL pl) p).put (BPM_LIST_ERR_INDEX pl) b

/-- One request to one pool: a buffer, or refused. `crit` requests may draw on CRIT_RESERVE (R182). -/
def State.popBuf (s : State) (pl : Plane) (p : Nat) (crit : Bool) : State × Option Nat :=
  let x := s.plane pl
  let q := x.pool p
  if q.free ≤ (if crit then 0 else s.fld (BPM_POOL_RSV_CRIT_RESERVE pl p)) then (s, none)
  else
    match q.head with
    | none => (s, none)
    | some b =>
      if q.bad.contains b then (s.listError pl p b, none)
      else
        let low := s.fld (BPM_POOL_LOWMARK_LOWMARK pl p)
        let s1 := ({ s with stomps := s.stomps.filter (fun m => decide (m ≠ (planeNum pl, p, b))) } : State).setPlane pl
          (x.setPool p q.tail)
        let s2 := s1.put (BPM_POOL_MINFREE_MINFREE pl p) (min (s.fld (BPM_POOL_MINFREE_MINFREE pl p)) (q.free - 1))
        (if low < q.free ∧ q.free - 1 ≤ low then s2.setFlag (BPM_EVT_LOW pl) else s2, some b)

/-- A request lost: counted at the pool where it began (R184). -/
def State.allocLost (s : State) (pl : Plane) (start : Nat) : State :=
  (s.inc (BPM_EMPTY_CNT_VAL pl start)).setFlag (BPM_EVT_EMPTY pl)

/-- A request that begins at pool `start` and now asks pool `p`, with its spills one after the other (R183). -/
def State.allocFrom (s : State) (pl : Plane) (start : Nat) (crit : Bool) : Nat → Nat → State × Option (Nat × Nat)
  | 0, _ => (s.allocLost pl start, none)
  | fuel + 1, p =>
    match s.popBuf pl p crit with
    | (s1, some b) => (s1, some (p, b))
    | (s1, none) =>
      match s1.flag (BPM_POOL_CFG_SPILL pl p), s1.nextPool pl p with
      | true, some q => State.allocFrom (s1.inc (BPM_SPILL_CNT_VAL pl p)) pl start crit fuel q
      | _, _ => (s1.allocLost pl start, none)

/-- A buffer for a frame of known length (R175, R184). -/
def State.alloc (s : State) (pl : Plane) (len : Nat) (crit : Bool) : State × Option (Nat × Nat) :=
  match s.fitPool pl len with
  | some p => s.allocFrom pl p crit 4 p
  | none => (s.allocLost pl 3, none)

/-- A buffer's uncorrectable word goes with the frame that held it (R525). -/
def State.unmark (s : State) (pl : Plane) (p b : Nat) : State :=
  { s with stomps := s.stomps.filter (fun m => decide (m ≠ (planeNum pl, p, b))) }

/-- A buffer returned waits for its push; a pool in error discards it (R180, R181). -/
def State.freeBuf (s : State) (pl : Plane) (p b : Nat) : State :=
  let x := s.plane pl
  let q := x.pool p
  let s1 := s.unmark pl p b
  if q.error then s1 else s1.setPlane pl (x.setPool p { q with retq := q.retq ++ [b] })

/-- A frame's buffer returned. -/
def State.release (s : State) (f : Frame) : State := s.freeBuf f.plane f.pool f.buf

/-! ## Capture (R194–R199) -/

/-- The ring of CAP_CTL: its size, and its first byte when it lies in LPDDR. -/
def State.capSize (s : State) : Nat :=
  if s.flag CAP_CTL_TARGET then s.fld CAP_AREA_SIZE_SIZE * 65536 else 0x100000
def State.capBase (s : State) : Nat := s.fld CAP_AREA_BASE_BASE * 65536

/-- Bytes written to the ring from an offset; they wrap to offset 0 at its end. -/
def State.capPut (s : State) (off : Nat) (bs : List Byte) : State :=
  let size := max s.capSize 1
  let a := bs.take (size - off)
  let b := bs.drop (size - off)
  if s.flag CAP_CTL_TARGET then
    { s with lpddr := memPut (memPut s.lpddr (s.capBase + off) a) s.capBase b }
  else { s with capSram := memPut (memPut s.capSram off a) 0 b }

/-- A byte of the ring. -/
def State.capByte (s : State) (off : Nat) : Nat :=
  let o := off % max s.capSize 1
  (if s.flag CAP_CTL_TARGET then memGet s.lpddr (s.capBase + o) else memGet s.capSram o).toNat

/-- Length of a record with `n` snapped bytes. -/
def recLen (n : Nat) : Nat := 16 + (n + 15) / 16 * 16

/-- Used bytes of a ring. -/
def ringUsed (head tail size : Nat) : Nat := (head + size - tail) % max size 1

/-- The tail of a ring moved on by whole records until a record of `len` bytes fits (R199). -/
def roomTail (byte : Nat → Nat) (size head len : Nat) : Nat → Nat → Nat
  | 0, t => t
  | fuel + 1, t =>
    let used := ringUsed head t size
    if used + len + 16 ≤ size ∨ used = 0 then t
    else roomTail byte size head len fuel ((t + recLen (byte (t + 10))) % max size 1)

/-- Room made in the ring of CAP_CTL. -/
def State.capRoom (s : State) (len : Nat) : State :=
  let t := s.fld CAP_TAIL_TAIL
  let t1 := roomTail s.capByte s.capSize (s.fld CAP_HEAD_HEAD) len 65536 t
  if t1 = t then s else (s.put CAP_TAIL_TAIL t1).setFlag CAP_EVT_WRAP

/-- Metadata and bytes of a record (R196). -/
def capBytes (time : Nat) (point pcode : Nat) (outer : Bool) (port reason : Nat) (stream : Option Nat) (tc : Nat)
    (rule : Option Nat) (snap seq : Nat) (bs : List Byte) : List Byte :=
  let st := match stream with
    | some i => 0x8000 + i
    | none => 0
  let r := match rule with
    | some i => i + 16 * tc
    | none => 16 * tc + 128
  let n := min snap bs.length
  leBytes 6 time ++ [BitVec.ofNat 8 (point + 4 * pcode + 16 * bitN outer), BitVec.ofNat 8 port] ++
    leBytes 2 (bs.length % 2 ^ 14) ++ [BitVec.ofNat 8 n, BitVec.ofNat 8 reason] ++ leBytes 2 st ++
    [BitVec.ofNat 8 r, BitVec.ofNat 8 seq] ++ bs.take n ++ List.replicate (recLen n - 16 - n) 0

/-- The engine has written two records in this clock of 8 ns, which is 250 million a second: a further one is not written (R198). -/
def State.capBusy (s : State) : Bool := s.capRate.1 == s.clk && decide (2 ≤ s.capRate.2)

/-- A record written is counted. -/
def State.capCount (s : State) : State :=
  ({ s with capRate := (s.clk, if s.capRate.1 = s.clk then s.capRate.2 + 1 else 1) } : State).inc CAP_RECORD_CNT_VAL

/-- A tenant capture rule's record goes to the tenant's own ring at TNW_CAP_HEAD (R495). -/
def State.capTenant (s : State) (tn : Nat) (mk : Nat → List Byte) (len rule : Nat) : State :=
  match (s.ten tn).capRing with
  | none => s
  | some (base, size, ringMode) =>
    if s.capBusy then s.inc CAP_BUSY_CNT_VAL else
    let h := s.fld (TNW_CAP_HEAD_HEAD tn)
    let t := s.fld (TNW_CAP_TAIL_TAIL tn)
    let t1 := if ringMode then
        roomTail (fun o => byteAt (s.dmaRead tn (base + o % max size 1) 1) 0) size h len 65536 t else t
    if size < ringUsed h t1 size + len + 16 then (s.inc CAP_DROP_CNT_VAL).setFlag CAP_EVT_FULL
    else
      let s0 := if t1 = t then s else (s.put (TNW_CAP_TAIL_TAIL tn) t1).setFlag CAP_EVT_WRAP
      let s1 := s0.capCount
      let bs := mk (s1.fld CAP_RECORD_CNT_VAL % 256)
      let s2 := (s1.dmaWrite tn (base + h) (bs.take (size - h))).dmaWrite tn base (bs.drop (size - h))
      (s2.put (TNW_CAP_HEAD_HEAD tn) ((h + len) % max size 1)).inc (CAP_RULE_CNT_COUNT rule)

/-- A record written to the ring, or refused and counted (R198, R199). -/
def State.capRecord (s : State) (mk : Nat → List Byte) (len : Nat) (rule : Option Nat) : State :=
  if s.capBusy then s.inc CAP_BUSY_CNT_VAL else
  let size := s.capSize
  let ringMode := s.flag CAP_CTL_MODE
  let s0 := if ringMode then s.capRoom len else s
  let used := ringUsed (s0.fld CAP_HEAD_HEAD) (s0.fld CAP_TAIL_TAIL) size
  if size < used + len + 16 then (s0.inc CAP_DROP_CNT_VAL).setFlag CAP_EVT_FULL
  else
    let h := s0.fld CAP_HEAD_HEAD
    let s1 := s0.capCount
    let s2 := (s1.capPut h (mk (s1.fld CAP_RECORD_CNT_VAL % 256))).put CAP_HEAD_HEAD ((h + len) % size)
    let s3 := match rule with
      | some r => s2.inc (CAP_RULE_CNT_COUNT r)
      | none => s2
    let w := s.fld CAP_WMARK_BYTES
    if w ≠ 0 ∧ used < w ∧ w ≤ used + len then s3.setFlag CAP_EVT_WATERMARK else s3

/-- The lowest-numbered capture rule that matches at a point (R194). -/
def State.capRule (s : State) (point port tc : Nat) (stream : Option Nat) : Option Nat :=
  (List.range 16).find? (fun r =>
    s.flag (CAP_RULE_CFG_EN r) && s.fld (CAP_RULE_CFG_POINT r) == point &&
    (s.flag (CAP_RULE_CFG_ALLPORTS r) || s.fld (CAP_RULE_CFG_PORT r) == port) &&
    bitOf (s.fld (CAP_RULE_CFG_TC_MASK r)) tc &&
    (!s.flag (CAP_RULE_SEL_STREAM_EN r) || stream == some (s.fld (CAP_RULE_SEL_STREAM_ID r))))

/-- A frame passes a capture point: 0 ingress, 1 egress, 2 drop. `pcode` is 1 for A, 2 for B, 3 for both. -/
def State.capture (s : State) (point pcode port : Nat) (bs : List Byte) (outer : Bool) (reason : Nat)
    (stream : Option Nat) (tc : Nat) (time : List TbTime) : State :=
  if !s.flag CAP_CTL_ENABLE then s
  else
    match s.capRule point port tc stream with
    | none => s
    | some r =>
      let n := tabGet 0 s.capSample r
      let s1 : State := { s with capSample := tabSet 0 s.capSample r (n + 1) }
      -- Which of 2^SAMPLE_LOG2 matching frames is recorded, the spec leaves open: a free phase (log 17).
      if (n + Config.samplePhase r) % 2 ^ s.fld (CAP_RULE_SEL_SAMPLE_LOG2 r) ≠ 0 then s1
      else
        let snap := min (s.fld (CAP_RULE_CFG_SNAP_LEN r)) 128
        let t := ((time[s.fld CAP_CTL_TB]?).getD ⟨0, 0, 0⟩).ct48
        let mk (seq : Nat) : List Byte := capBytes t point pcode outer port reason stream tc (some r) snap seq bs
        let len := recLen (min snap bs.length)
        if r < 8 then s1.capRecord mk len (some r)
        else
          match (List.range 64).find? (fun tn => (s1.ten tn).capRules.contains r) with
          | some tn => s1.capTenant tn mk len r
          | none => s1.capRecord mk len (some r)

/-- Plane code of a record. -/
def pcodeOf (f : Frame) : Nat := if f.twinned then 3 else planeBit f.plane

/-- A frame that holds a buffer is discarded: the drop point sees it and its buffer is returned (R195, R197). -/
def State.drop (s : State) (f : Frame) (reason : Nat) : State :=
  (s.capture 2 (planeBit f.plane) f.inPort f.bytes f.fragOuter reason f.stream f.tc s.stamp).release f

/-- The egress capture point (R195). -/
def State.captureOut (s : State) (p : Nat) (f : Frame) (out : List Byte) (ts : List TbTime) : State :=
  s.capture 1 (pcodeOf f) p out f.fragOuter 0 f.stream f.tc ts

/-! ## Reception (R176, R184) -/

/-- Promotions of a frame under reception, from its present buffer up to its length (R176): the buffer it ends in, or the one that it holds
when an allocation is lost. -/
def State.promote (s : State) (pl : Plane) (len : Nat) (crit : Bool) : Nat → Nat × Nat → State × Except (Nat × Nat) (Nat × Nat)
  | 0, h => (s, .ok h)
  | fuel + 1, h =>
    if len ≤ fMax h.1 then (s, .ok h)
    else
      match s.nextPool pl h.1 with
      | none => (s, .ok h)
      | some q =>
        match s.allocFrom pl q crit 4 q with
        | (s1, some h1) =>
          State.promote ((s1.inc (BPM_PROMOTE_CNT_VAL pl)).freeBuf pl h.1 h.2) pl len crit fuel h1
        | (s1, none) => (s1, .error h)

/-- A frame discarded because its promotion is lost: the drop point sees the bytes that its buffer holds, in the default class of its port,
and the buffer returns (R184, R195, R197; log 86). -/
def State.promoteLost (s : State) (pl : Plane) (port tc : Nat) (bytes : List Byte) (h : Nat × Nat) : State :=
  (s.capture 2 (planeBit pl) port (bytes.take (fMax h.1)) false 0x01 none tc s.stamp).freeBuf pl h.1 h.2

/-- The buffer a received frame ends in: Ethernet ports with a MAC start in the smallest pool and promote (R175, R176).
A lost ingress allocation counts as pressure on its plane (R208). -/
def State.allocIngress (s : State) (pl : Plane) (port tc : Nat) (bytes : List Byte) (crit : Bool) : State × Option (Nat × Nat) :=
  let r := if port < 32 then
      match [0, 1, 2, 3].find? (fun p => s.poolExists pl p) with
      | none => (s.allocLost pl 3, none)
      | some p =>
        match s.allocFrom pl p crit 4 p with
        | (s1, some h) => (match s1.promote pl bytes.length crit 4 h with
          | (s2, .ok h1) => (s2, some h1)
          | (s2, .error h1) => (s2.promoteLost pl port tc bytes h1, none))
        | (s1, none) => (s1, none)
    else s.alloc pl bytes.length crit
  match r with
  | (s1, some h) => (s1, some h)
  | (s1, none) =>
    let dm := s1.dm
    match pl with
    | .A => ({ s1 with dm := { dm with pressA := true } }, none)
    | .B => ({ s1 with dm := { dm with pressB := true } }, none)

end Sys2Proof.Machine
end

