-- ==== Sys2Proof/Machine/Queues.lean ====
section
/-! DEFINITION. The egress queues and what empties them: markers and migration contexts, the resequencer, flushing, and
frames lost in transmission (R86–R91, R213–R221, R239, R309, R310, R319). -/

namespace Sys2Proof.Machine

/-! ## Queues -/

/-- Queue `i` of a plane: class `i mod 8` of port `i / 8` (R229). -/
def PlaneSt.queue (x : PlaneSt) (i : Nat) : List QEntry := tabGet [] x.queues i
def PlaneSt.setQueue (x : PlaneSt) (i : Nat) (l : List QEntry) : PlaneSt := { x with queues := tabSet [] x.queues i l }
def State.queue (s : State) (pl : Plane) (i : Nat) : List QEntry := (s.plane pl).queue i
def State.setQueue (s : State) (pl : Plane) (i : Nat) (l : List QEntry) : State :=
  s.setPlane pl ((s.plane pl).setQueue i l)

/-- The frame of an entry, if it is one. -/
def QEntry.frame? : QEntry → Option Frame
  | .frame f => some f
  | _ => none

/-- Frames of a list of entries. -/
def framesOf (l : List QEntry) : List Frame := l.filterMap QEntry.frame?

/-- An entry that is a frame or a placeholder makes a queue non-empty (R213). -/
def QEntry.solid : QEntry → Bool
  | .marker _ _ => false
  | _ => true

/-- The port serves queues of a plane that hold a frame or a placeholder. -/
def State.portHolds (s : State) (pl : Plane) (p : Nat) : Bool :=
  (List.range 8).any (fun c => (s.queue pl (8 * p + c)).any QEntry.solid)

/-- A queue's occupancy in bytes of buffer (R186). -/
def occupancy (l : List QEntry) : Nat :=
  (l.map (fun e => match e with
    | .frame f => poolSize f.pool
    | .placeholder _ _ n => n
    | .marker _ _ => 0)).sum

/-- A class whose queues in both planes are empty loses its credit (R239). -/
def State.classEmptied (s : State) (q : Nat) : State :=
  if (s.queue .A q).any QEntry.solid || (s.queue .B q).any QEntry.solid then s
  else (s.put (SCH_QDEFICIT_DEFICIT .A q) 0).put (SCH_QDEFICIT_VISITED .A q) 0

/-! ## Migration contexts -/

/-- A context that is not in use. -/
def MigCtx.idle : MigCtx := ⟨false, 0, 0, .A, 0, 0, 0, false, [], []⟩

/-- Context `c`. -/
def State.ctx (s : State) (c : Nat) : MigCtx := (s.dm.ctxs[c]?).getD MigCtx.idle
def State.setCtx (s : State) (c : Nat) (x : MigCtx) : State := { s with dm := { s.dm with ctxs := s.dm.ctxs.set c x } }

/-- Frames held by a context. -/
def MigCtx.heldCount (x : MigCtx) : Nat := (x.held.map (fun e => e.2.length)).sum

/-- Sequence number a precedes b (R205). -/
def seqBefore (a b : Nat) : Bool :=
  let d := (b + 65536 - a % 65536) % 65536
  decide (1 ≤ d ∧ d ≤ 32767)

/-- A frame put at its place in ascending sequence number. -/
def seqInsert (f : Frame) : List Frame → List Frame
  | [] => [f]
  | g :: t => if seqBefore f.seq g.seq then f :: g :: t else g :: seqInsert f t

/-- Frames in ascending sequence number. -/
def seqSort (l : List Frame) : List Frame := l.foldl (fun acc f => seqInsert f acc) []

/-- Held frames go back to the heads of their queues (R217). -/
def State.unhold (s : State) (pl : Plane) (p : Nat) (l : List Frame) : State :=
  (List.range 8).foldl (fun s c =>
    let mine := l.filter (fun f => f.tc == c)
    if mine = [] then s
    else s.setQueue pl (8 * p + c) ((seqSort mine).map .frame ++ s.queue pl (8 * p + c))) s

/-- A context ends when its marker is admitted, every port is released and it holds nothing (R215). -/
def State.ctxSettle (s : State) (c : Nat) : State :=
  let x := s.ctx c
  if x.valid ∧ x.waiting = false ∧ x.ports = [] ∧ x.heldCount = 0 then s.setCtx c { x with valid := false } else s

/-- A port is released in a context (R214, R217). -/
def State.releasePort (s : State) (c p : Nat) : State :=
  let x := s.ctx c
  let l := tabGet [] x.held p
  (((s.setCtx c { x with ports := tabDel x.ports p, held := tabDel x.held p }).unhold (twinOf x.frm) p l)).ctxSettle c

/-- A context released whole: every held frame returns and the context ends (R218, R219). -/
def State.ctxRelease (s : State) (c : Nat) : State :=
  let x := s.ctx c
  let s1 := x.held.foldl (fun s e => s.unhold (twinOf x.frm) e.1 e.2) s
  s1.setCtx c { x with valid := false, waiting := false, ports := [], held := [] }

/-- The active context of a bucket. -/
def State.bucketCtx (s : State) (b : Nat) : Option Nat :=
  (List.range 256).find? (fun c => (s.ctx c).valid && (s.ctx c).bucket == b)

/-- Every active context ends at a handover, its held frames back in their queues (R64). -/
def State.endContexts (s : State) : State :=
  (List.range 256).foldl (fun s c => if (s.ctx c).valid then s.ctxRelease c else s) s

/-- A marker entry consumed (R214). -/
def State.consumeMarker (s : State) (c gen p : Nat) : State :=
  let x := s.ctx c
  if x.valid ∧ x.gen = gen then
    match tabFind x.ports p with
    | some n => if n ≤ 1 then s.releasePort c p else s.setCtx c { x with ports := tabPut x.ports p (n - 1) }
    | none => s
  else s

/-- Markers at the head of a queue are consumed in the clock in which they reach it (R214). -/
def State.dropMarkers (s : State) (pl : Plane) (q : Nat) : Nat → State
  | 0 => s
  | fuel + 1 =>
    match s.queue pl q with
    | .marker c g :: t => ((s.setQueue pl q t).consumeMarker c g (q / 8)).dropMarkers pl q fuel
    | _ => s
def State.settleHead (s : State) (pl : Plane) (q : Nat) : State := s.dropMarkers pl q (s.queue pl q).length

/-- The head of a queue taken out of it. -/
def State.unqueue (s : State) (pl : Plane) (q : Nat) : State := (s.setQueue pl q ((s.queue pl q).drop 1)).settleHead pl q

/-! ## Flushing -/

/-- A copy that is not yet written is given up. -/
def PlaneSt.dropCopy (x : PlaneSt) (n : Nat) : PlaneSt :=
  let cut (j : ReplJob) : ReplJob := { j with todo := j.todo.filter (fun k => decide (k.copy ≠ n)) }
  { x with repl := (x.repl.map cut).filter (fun j => !j.todo.isEmpty) }

/-- One entry of a flushed queue: a frame is discarded, a placeholder's copy given up, a marker consumed. -/
def State.flushEntry (s : State) (pl : Plane) (p reason : Nat) : QEntry → State
  | .frame f => s.drop f reason
  | .placeholder n _ _ => s.setPlane pl ((s.plane pl).dropCopy n)
  | .marker c g => s.consumeMarker c g p

/-- One queue flushed: the frames and copies it lost are counted. -/
def State.flushQueue (s : State) (pl : Plane) (q reason : Nat) : State × Nat :=
  let l := s.queue pl q
  let s1 := l.foldl (fun s e => s.flushEntry pl (q / 8) reason e) (s.setQueue pl q [])
  (s1.classEmptied q, (l.filter QEntry.solid).length)

/-- All queues of a port flushed in both planes. -/
def State.flushPort (s : State) (p reason : Nat) : State × Nat :=
  (List.range 16).foldl (fun acc i =>
    let r := acc.1.flushQueue (planeOf (i / 8)) (8 * p + i % 8) reason
    (r.1, acc.2 + r.2)) (s, 0)

/-! ## Ports -/

/-- Runtime state of a fabric port. -/
def State.port (s : State) (p : Nat) : PortSt := tabGet PortSt.reset s.ports p
def State.setPort (s : State) (p : Nat) (x : PortSt) : State := { s with ports := tabSet PortSt.reset s.ports p x }

/-- The port exists: enabled in the active PORTMAP; IF0 to IF4 and the HV ports always, IF5 to IF7 never (R98). -/
def State.portEnabled (s : State) (p : Nat) : Bool :=
  if p < 80 then bitOf (sec8 s.active tyPORTMAP (16 * p + 2)) 0
  else decide (p < 85 ∨ (88 ≤ p ∧ p < 256))

/-- Domain of a port with a MAC or a channel (R34, R97). -/
def portDomain (p : Nat) : Nat := if p < 8 then 5 else if p < 24 then 4 else if p < 32 then 3 else 2

/-- The port's hardware works: it is enabled and its domain is powered. -/
def State.portOn (s : State) (p : Nat) : Bool := s.portEnabled p && s.domOn (portDomain p)

/-- The link of a port is declared up; ports without a link count as up (R84, R94, R339). -/
def State.linkUp (s : State) (p : Nat) : Bool :=
  if p < 24 then s.flag (ETH_STATUS_LINK p)
  else if p < 32 then s.flag (T1S_STATUS_LINK (p - 24))
  else if p < 64 then s.flag (CAN_STATUS_LINK (p - 32))
  else if p < 80 then s.flag (LIN_STATUS_LINK (p - 64))
  else true

/-- The port's queues were flushed after its hold, and its link is still down (R89). -/
def State.portFlushed (s : State) (p : Nat) : Bool :=
  if p < 24 then s.flag (ETH_STATUS_FLUSHED p)
  else if p < 32 then s.flag (T1S_STATUS_FLUSHED (p - 24))
  else if p < 80 then (s.port p).flushed
  else false

/-- A hold runs on the port (R87). -/
def State.holding (s : State) (p : Nat) : Bool :=
  if p < 24 then s.flag (ETH_STATUS_HOLDING p)
  else if p < 32 then s.flag (T1S_STATUS_HOLDING (p - 24))
  else false

/-- HOLD_MS of the port; 0 on CN and LN ports (R339). -/
def State.holdMs (s : State) (p : Nat) : Nat :=
  if p < 24 then s.fld (ETH_CTL_HOLD_MS p) else if p < 32 then s.fld (T1S_CTL_HOLD_MS (p - 24)) else 0

/-- Largest frame of a port (R77). -/
def State.maxLen (s : State) (p : Nat) : Nat :=
  if p < 24 then s.fld (ETH_CFG_MAXLEN p) else if p < 32 then s.fld (T1S_CFG2_MAXLEN (p - 24)) else 9216

/-- A frame dropped at admission because its port is flushed (R89). -/
def State.countDown (s : State) (p : Nat) : State :=
  if p < 24 then s.inc (ETH_DOWN_DROP_CNT_VAL p)
  else if p < 32 then s.inc (T1S_DOWN_DROP_CNT_VAL (p - 24)) else s

/-- A frame lost in transmission is counted (R86, R95). -/
def State.countAbort (s : State) (p : Nat) : State :=
  if p < 24 then s.inc (ETH_TX_ABORT_CNT_VAL p)
  else if p < 32 then s.inc (T1S_TX_ABORT_CNT_VAL (p - 24))
  else if p < 64 then s.inc (CAN_TX_ABORT_CNT_VAL (p - 32)) else s

/-! ## Reports and undoing -/

/-- A transmit timestamp report enters the FIFO of 64, or waits for its tenant's completion ring, 64 at most: a further one is
counted on the tenant's first HV port (R272, R273, R494). -/
def State.txReport (s : State) (x : TxReport) (tn : Option Nat) : State :=
  match tn with
  | some t =>
    if s.tenLive t = false then s
    else if 64 ≤ (s.ten t).reports.length then s.inc (HST_HV_TX_DROP_CNT_VAL (s.tenHv t).1)
    else s.setTen t { s.ten t with reports := (s.ten t).reports ++ [x] }
  | none =>
    if 64 ≤ s.txts.length then (s.inc TIM_TXTS_OVF_CNT_VAL).setFlag TIM_EVT_TXTS_OVF
    else ({ s with txts := s.txts ++ [x] } : State).setFlag TIM_EVT_TXTS_AVAIL

/-- A recovery entry beside its registers. -/
def State.recSt (s : State) (r : Nat) : RecSt := tabGet RecSt.reset s.recs r
def State.setRec (s : State) (r : Nat) (x : RecSt) : State := { s with recs := tabSet RecSt.reset s.recs r x }

/-- A recovery entry undoes the update of a frame that was cut (R319). -/
def State.frerUndo (s : State) (u : FrerUndo) : State :=
  let x := s.recSt u.entry
  let recov := s.fld (FRE_REC_STATE_RECOV_SEQ .A u.entry)
  if s.flag (FRE_REC_CFG_ALG .A u.entry) then
    if x.passes = u.passNo then s.put (FRE_REC_STATE_RECOV_SEQ .A u.entry) u.prev else s
  else
    let d := (recov + 65536 - u.seq) % 65536
    if d < s.fld (FRE_REC_CFG_HIST_LEN .A u.entry) ∧ bitOf x.history d then
      s.setRec u.entry { x with history := x.history - 2 ^ d }
    else s

/-- A frame whose transmission is lost: its tag leaves the twin memory, its recovery entry undoes its update, its report
says so, and its buffer returns (R86, R274, R310, R319). -/
def State.cutTx (s : State) (p : Nat) (t : TxFrame) (reason : Nat) : State :=
  let x := s.port p
  let s1 := if t.frame.twinned then s.setPort p { x with twins := x.twins.erase t.frame.tag } else s
  let s2 := match t.undo with
    | some u => s1.frerUndo u
    | none => s1
  let s3 := match t.report with
    | some (r, tn) => s2.txReport { r with aborted := true } tn
    | none => s2
  s3.drop t.frame reason

/-- Every frame that the port is transmitting is lost and counted (R86). -/
def State.abortPort (s : State) (p : Nat) : State :=
  let x := s.port p
  let s0 := s.setPort p { x with tx := none, txp := none, attempts := 0, retry := false }
  let one (s : State) (o : Option TxFrame) : State := match o with
    | some t => (s.cutTx p t 0x0B).countAbort p
    | none => s
  one (one s0 x.tx) x.txp

/-! ## Link declarations -/

/-- The hold ends, or is 0: all queues are flushed and counted, and the port counts as flushed (R89, R91). -/
def State.endHold (s : State) (p : Nat) : State :=
  let r := s.flushPort p 0x0A
  if p < 24 then
    (((r.1.addCnt (ETH_HOLD_FLUSH_CNT_VAL p) r.2).put (ETH_STATUS_HOLDING p) 0).put (ETH_STATUS_FLUSHED p) 1).setFlag
      (ETH_EVT_HOLD_EXPIRED p)
  else if p < 32 then
    (((r.1.addCnt (T1S_HOLD_FLUSH_CNT_VAL (p - 24)) r.2).put (T1S_STATUS_HOLDING (p - 24)) 0).put
      (T1S_STATUS_FLUSHED (p - 24)) 1).setFlag (T1S_EVT_HOLD_EXPIRED (p - 24))
  else r.1.setPort p { r.1.port p with flushed := true }

/-- The hold starts, or the queues are flushed at once when HOLD_MS is 0 (R87, R91). -/
def State.startHold (s : State) (p : Nat) : State :=
  if s.holdMs p = 0 then s.endHold p
  else if p < 24 then s.put (ETH_STATUS_HOLDING p) 1
  else s.put (T1S_STATUS_HOLDING (p - 24)) 1

/-- A CAN channel beside its registers. -/
def State.can (s : State) (n : Nat) : CanSt := tabGet CanSt.reset s.cans n
def State.setCan (s : State) (n : Nat) (x : CanSt) : State := { s with cans := tabSet CanSt.reset s.cans n x }

/-- A LIN channel beside its registers. -/
def State.lin (s : State) (n : Nat) : LinSt := tabGet LinSt.reset s.lins n
def State.setLin (s : State) (n : Nat) (x : LinSt) : State := { s with lins := tabSet LinSt.reset s.lins n x }

/-- A frame whose unpacking the loss of the link ends is lost. -/
def State.dropUnpack (s : State) (u : Option Unpack) : State :=
  match u with
  | some u => s.drop u.frame 0x0B
  | none => s

/-- Every entry of a CAN transmit buffer goes and is counted; a pending Chime goes uncounted (R347). -/
def State.canClearTx (s : State) (n : Nat) : State :=
  let x := s.can n
  let k := (x.txbuf.filter (fun e => e.chime.isNone)).length
  ((s.setCan n { x with txbuf := [], chimeDue := none, unpack := none }).addCnt (CAN_TX_ABORT_CNT_VAL n) k).dropUnpack x.unpack

/-- A LIN channel whose link goes down leaves what it had on the bus. -/
def State.linClear (s : State) (n : Nat) : State :=
  let x := s.lin n
  (s.setLin n { x with await := none, due := none, sending := none, unpack := none }).dropUnpack x.unpack

/-- The link of a port is declared down: the frame in transmission is lost and the hold starts (R85–R87). -/
def State.linkDown (s : State) (p : Nat) : State :=
  if s.linkUp p = false then s
  else if p < 24 then
    let s1 := ((((s.put (ETH_STATUS_LINK p) 0).put (ETH_STATUS_SPEED p) 0).put (ETH_STATUS_PREEMPT_ACTIVE p) 0).put
      (ETH_STATUS_VERIFY_ST p) 0).setFlag (ETH_EVT_LINK_DOWN p)
    (s1.abortPort p).startHold p
  else if p < 32 then
    let s1 := (s.put (T1S_STATUS_LINK (p - 24)) 0).setFlag (T1S_EVT_LINK_DOWN (p - 24))
    (s1.abortPort p).startHold p
  else if p < 64 then
    let s1 := (s.put (CAN_STATUS_LINK (p - 32)) 0).setFlag (CAN_EVT_LINK_DOWN (p - 32))
    (s1.canClearTx (p - 32)).startHold p
  else if p < 80 then
    let s1 := (s.put (LIN_STATUS_LINK (p - 64)) 0).setFlag (LIN_EVT_LINK_DOWN (p - 64))
    (s1.linClear (p - 64)).startHold p
  else s

/-- Speed code of a mode without auto-negotiation, else the one negotiated last (R74). -/
def State.speedOf (s : State) (p : Nat) : Nat :=
  match s.fld (ETH_CFG_MODE p) with
  | 1 => 6
  | 2 => 5
  | 4 => 3
  | _ => (s.port p).anSpeed

/-- A mode uses auto-negotiation: USXGMII and SGMII. -/
def modeHasAn (m : Nat) : Bool := m == 3 || m == 5

/-- Mode and speed of a BB, ED or TS port now. -/
def State.portMode (s : State) (p : Nat) : Nat × Nat :=
  if p < 24 then (s.fld (ETH_CFG_MODE p), s.fld (ETH_STATUS_SPEED p)) else (0x10, 0)

/-- Highest speed of a mode (R74). -/
def topSpeed : Nat → Nat
  | 1 => 6
  | 2 => 5
  | 3 => 5
  | 4 => 3
  | 5 => 2
  | _ => 0

/-- The planned speed of a port in the rate table of STREAMS (R304). -/
def State.plannedSpeed (s : State) (p : Nat) : Nat :=
  let r := s.fld (CAR_PORT_STAT_RATE p)
  if r = 0 then topSpeed (s.fld (ETH_CFG_MODE p)) else r

/-- The port holds strokes or is the ingress of an admitted stream (R302). -/
def State.carUses (s : State) (p : Nat) : Bool :=
  s.car.sched.strokes.any (fun k => k.port == p) || s.car.sched.streams.any (fun e => e.2.ingress == p)

/-- A port that comes up at a speed it was not planned for (R302). -/
def State.rateCheck (s : State) (p : Nat) : State :=
  if s.carUses p = true ∧ s.fld (ETH_STATUS_SPEED p) ≠ s.plannedSpeed p then
    (s.put (CAR_PORT_STAT_MISMATCH p) 1).setFlag CAR_EVT_RATE_MISMATCH
  else s.put (CAR_PORT_STAT_MISMATCH p) 0

/-- The link of a port is declared up: a hold ends, service resumes, and preemption starts or its verification begins
(R82, R84, R88). -/
def State.linkUpNow (s : State) (p : Nat) : State :=
  if s.linkUp p then s
  else if p < 24 then
    let s1 := ((((s.put (ETH_STATUS_LINK p) 1).put (ETH_STATUS_SPEED p) (s.speedOf p)).put (ETH_STATUS_HOLDING p) 0).put
      (ETH_STATUS_FLUSHED p) 0).setFlag (ETH_EVT_LINK_UP p)
    let s2 := (s1.setPort p { s1.port p with debounce := false, verifyN := 0 }).rateCheck p
    if s.flag (ETH_CFG_PREEMPT p) = false then s2
    else if s.flag (ETH_CFG_VERIFY p) then s2.put (ETH_STATUS_VERIFY_ST p) 1
    else s2.put (ETH_STATUS_PREEMPT_ACTIVE p) 1
  else if p < 32 then
    let s1 := (((s.put (T1S_STATUS_LINK (p - 24)) 1).put (T1S_STATUS_HOLDING (p - 24)) 0).put
      (T1S_STATUS_FLUSHED (p - 24)) 0).setFlag (T1S_EVT_LINK_UP (p - 24))
    s1.setPort p { s1.port p with debounce := false }
  else if p < 64 then
    let s1 := ((s.put (CAN_STATUS_LINK (p - 32)) 1).put (CAN_STATUS_FROZEN (p - 32)) 0).setFlag (CAN_EVT_LINK_UP (p - 32))
    s1.setPort p { s1.port p with flushed := false }
  else if p < 80 then
    let s1 := (s.put (LIN_STATUS_LINK (p - 64)) 1).setFlag (LIN_EVT_LINK_UP (p - 64))
    s1.setPort p { s1.port p with flushed := false }
  else s

end Sys2Proof.Machine
end

