-- ==== Sys2Proof/Machine/WakeOps.lean ====
section
/-! DEFINITION. The NM clusters as other blocks reach them: membership, wake events and wake records, requests, the
Knell, and entry to REPEAT (R369–R385, R388–R391). -/

namespace Sys2Proof.Machine

/-! ## Clusters -/

/-- `n` bytes, little-endian, at byte `i` of a cluster's record in NMCLUSTER (R393). -/
def State.ncRec (s : State) (c i n : Nat) : Nat := secLe s.active tyNMCLUSTER (16 + 48 * c + i) n

/-- `n` bytes at byte `i` of a channel's CAN wake record (R393). -/
def State.cwRec (s : State) (ch i n : Nat) : Nat := secLe s.active tyNMCLUSTER (784 + 104 * ch + i) n

/-- FLAGS of a cluster. -/
def State.ncEnabled (s : State) (c : Nat) : Bool := bitOf (s.ncRec c 1 1) 0
def State.ncPassive (s : State) (c : Nat) : Bool := bitOf (s.ncRec c 1 1) 1
def State.ncTxWake (s : State) (c : Nat) : Bool := bitOf (s.ncRec c 1 1) 2
def State.ncStartAwake (s : State) (c : Nat) : Bool := bitOf (s.ncRec c 1 1) 3

/-- A fabric port is a member of a cluster. -/
def State.ncMember (s : State) (c p : Nat) : Bool :=
  s.ncEnabled c &&
    (if 24 ≤ p ∧ p < 32 then bitOf (s.ncRec c 10 1) (p - 24)
     else if 32 ≤ p ∧ p < 64 then bitOf (s.ncRec c 4 4) (p - 32)
     else if 64 ≤ p ∧ p < 80 then bitOf (s.ncRec c 8 2) (p - 64)
     else false)

/-- The cluster of a port (R369). -/
def State.clusterOf (s : State) (p : Nat) : Option Nat := (List.range 16).find? (fun c => s.ncMember c p)

/-- The cluster that owns a WAKE pin (R370). -/
def State.pinCluster (s : State) (k : Nat) : Option Nat :=
  (List.range 16).find? (fun c => s.ncEnabled c && bitOf (s.ncRec c 3 1) k)

/-- Member channels and segments of a cluster, as fabric ports. -/
def State.ncPorts (s : State) (c : Nat) : List Nat :=
  ((List.range 56).map (· + 24)).filter (fun p => s.ncMember c p)

/-- The states of a cluster with their codes (R371). -/
def ncBUS_SLEEP : Nat := 0
def ncREPEAT : Nat := 1
def ncNORMAL : Nat := 2
def ncREADY : Nat := 3
def ncPREPARE : Nat := 4
def ncSHUTDOWN : Nat := 5

/-- The state of a cluster. -/
def State.nc (s : State) (c : Nat) : Nat := s.fld (NMW_NC_STATE_STATE c)

/-- A change of STATE raises STATE_CHG. -/
def State.ncPut (s : State) (c st : Nat) : State :=
  if s.nc c = st then s else (s.put (NMW_NC_STATE_STATE c) st).setFlag (NMW_NC_EVT_STATE_CHG c)

/-- A cluster beside its registers. -/
def State.nmSt (s : State) (c : Nat) : NmSt := tabGet NmSt.reset s.nm c
def State.setNm (s : State) (c : Nat) (x : NmSt) : State := { s with nm := tabSet NmSt.reset s.nm c x }

/-- Any request is held on the cluster (R371). -/
def State.ncRequested (s : State) (c : Nat) : Bool :=
  s.flag (NMW_NC_REQ_FW c) || s.flag (NMW_NC_REQ_LEDGER c) || s.fld64 (NMW_NC_TREQ_LO_TN c) (NMW_NC_TREQ_HI_TN c) != 0

/-- The NM timer restarts. -/
def State.nmRestart (s : State) (c : Nat) : State := s.setNm c { s.nmSt c with timerAt := s.ao }

/-- The port's cluster lets its link be up: it is in no cluster, or the cluster is not asleep or shutting down. -/
def State.ncAwake (s : State) (p : Nat) : Bool :=
  match s.clusterOf p with
  | some c => s.nc c != ncBUS_SLEEP && s.nc c != ncSHUTDOWN
  | none => true

/-- The scheduler of a CN, LN or TS port selects nothing from PREPARE_SLEEP on (R372). -/
def State.ncMute (s : State) (p : Nat) : Bool :=
  match s.clusterOf p with
  | some c => s.nc c == ncPREPARE || s.nc c == ncSHUTDOWN || s.nc c == ncBUS_SLEEP
  | none => false

/-! ## Wake records -/

/-- A wake record enters the FIFO of 32, or is discarded and counted (R391). -/
def State.wakeRecord (s : State) (x : WakeRec) : State :=
  if 32 ≤ s.wrec.length then (s.incSat NMW_WREC_STAT_OVF).setFlag NMW_EVT_WREC_OVF
  else ({ s with wrec := s.wrec ++ [x] } : State).setFlag NMW_EVT_WREC

/-- FLAGS of a record: after a Knell, in device sleep, cancelled, and the pattern. -/
def State.wakeFlags (s : State) (after cancelled : Bool) (pat : Nat) : Nat :=
  bitN after + 2 * bitN (s.pwr.sleep != 0) + 4 * bitN (s.pwr.sleep != 0 && s.pwr.sleepD) + 8 * bitN cancelled + 16 * (pat % 4)

/-! ## Link conditions of CN and LN ports (R339) -/

/-- The port's cluster has entered REPEAT and SETTLE_US still runs (R374). -/
def State.ncSettling (s : State) (p : Nat) : Bool :=
  match s.clusterOf p with
  | some c => (s.nmSt c).settling
  | none => false

/-- The channel may have its link up: enabled, not held down, its bus usable, its cluster awake and settled. -/
def State.channelMayUp (s : State) (p : Nat) : Bool :=
  s.portOn p && s.ncAwake p && !s.ncSettling p &&
    (if p < 64 then !s.flag (CAN_CTL_ADMIN_DOWN (p - 32)) && !(s.can (p - 32)).joining && s.fld (CAN_STATUS_STATE (p - 32)) != 2
     else !s.flag (LIN_CTL_ADMIN_DOWN (p - 64)) && !s.flag (LIN_STATUS_DOMINANT (p - 64)))

/-! ## Link conditions of BB, ED and TS ports (R84, R94) -/

/-- ADMIN_DOWN of a port. -/
def adminFld (p : Nat) : Fld := if p < 24 then ETH_CTL_ADMIN_DOWN p else T1S_CTL_ADMIN_DOWN (p - 24)

/-- The conditions of R84 and R94 hold, and a segment's cluster is awake (R371): only the debounce is still to pass. -/
def State.linkReady (s : State) (p : Nat) : Bool :=
  s.portOn p && !s.flag (adminFld p) &&
    (if p < 24 then s.flag (ETH_STATUS_PCS_LOCK p) && !s.flag (ETH_STATUS_REMOTE_FAULT p) &&
        (!modeHasAn (s.fld (ETH_CFG_MODE p)) || s.flag (ETH_STATUS_AN_DONE p))
     else s.ncAwake p && s.flag (T1S_STATUS_PHY_READY (p - 24)) && s.flag (T1S_STATUS_PLCA_STATUS (p - 24)))

/-- The debounce starts when the conditions hold and the link is down, and ends when they do not. -/
def State.debounceNow (s : State) (p : Nat) : State :=
  s.setPort p { s.port p with debounce := s.linkReady p && !s.linkUp p }

/-! ## REPEAT and the Knell -/

/-- The device itself woke the cluster: the cause was no event of its CAN buses (R381, log 19). -/
def ownWake (src : Nat) : Bool := !(src == 2 || src == 3 || src == 4 || src == 7)

/-- Members after the entry to REPEAT: LIN wake pulses but on the bus that woke, TC10 wake, error counters at 0, and no
go-to-sleep command any more (R374, R377, R387). -/
def State.repeatPort (s : State) (src idx : Nat) (p : Nat) : State :=
  if p < 32 then (s.setPort p { s.port p with tc10 := false, tc10Req := false }).debounceNow p
  else if p < 64 then s.put (NMW_CAN_SW_FEC (p - 32)) 0
  else
    let x := s.lin (p - 64)
    s.setLin (p - 64) { x with pulse := !(src == 5 && idx == p - 64), restart := true, sleepCmd := false }

/-- A cluster enters REPEAT (R374). -/
def State.enterRepeat (s : State) (c src idx : Nat) : State :=
  let s1 := (s.ncPut c ncREPEAT).setNm c
    { s.nmSt c with latched := none, settling := true, own := ownWake src, gpioLow := false }
  (s.ncPorts c).foldl (fun s p => s.repeatPort src idx p) s1

/-- A wake event of a cluster (R376–R379); one whose wake from SLEEP-R is still to be acted on records no further event. -/
def State.nmWake (s : State) (c src idx pat : Nat) : State :=
  let st := s.nc c
  let ev : WakeEv := ⟨src, idx, c, pat, s.ao⟩
  if s.ncEnabled c = false then s
  else
    let s0 : State := if s.pwr.sleep = 0 then s else { s with pwr := { s.pwr with wakes := s.pwr.wakes ++ [ev] } }
    if st = ncSHUTDOWN then
      if (s.nmSt c).latched.isSome then s0 else s0.setNm c { s.nmSt c with latched := some ev }
    else if s.pwr.sleep ≠ 0 then s0
    else if s.pwr.wakes.any (fun w => w.cluster == c) then s
    else if st = ncBUS_SLEEP then
      let s1 := s.wakeRecord ⟨src, idx, c, s.wakeFlags false false pat, s.ao, (s.nmSt c).knell⟩
      (s1.setFlag (NMW_NC_EVT_WAKE c)).enterRepeat c src idx
    else if st = ncREADY ∨ st = ncPREPARE then
      let s1 := s.wakeRecord ⟨src, idx, c, s.wakeFlags false true pat, s.ao, 0⟩
      let s2 := (s1.inc (NMW_NC_CANCEL_CNT_VAL c)).setFlag (NMW_NC_EVT_CANCEL c)
      (s2.setFlag (NMW_NC_EVT_WAKE c)).enterRepeat c src idx
    else s

/-- A request on a cluster becomes held: a wake event, or a restart of the timer in NORMAL (R371). INDEX 0x00 to 0x3F is
a tenant, 0x40 firmware, 0x41 the ledger. -/
def State.nmRequest (s : State) (c idx : Nat) : State :=
  if s.nc c = ncNORMAL then s.nmRestart c else s.nmWake c 8 idx 0

/-- A request ends: the timer measures from the release of the last one. -/
def State.nmRelease (s : State) (c : Nat) : State := if s.ncRequested c then s else s.nmRestart c

/-- A tenant's request bit. -/
def State.nmTenant (s : State) (c tn : Nat) (hold : Bool) : State :=
  let v := s.fld64 (NMW_NC_TREQ_LO_TN c) (NMW_NC_TREQ_HI_TN c)
  let s1 := s.put64 (NMW_NC_TREQ_LO_TN c) (NMW_NC_TREQ_HI_TN c) (setBits v tn 1 (bitN hold))
  if hold then (if bitOf v tn then s1 else s1.nmRequest c tn)
  else if bitOf v tn then s1.nmRelease c else s1

/-- The ledger's request (R429). -/
def State.nmLedger (s : State) (c : Nat) (hold : Bool) : State :=
  let was := s.flag (NMW_NC_REQ_LEDGER c)
  let s1 := s.put (NMW_NC_REQ_LEDGER c) (bitN hold)
  if hold then (if was then s1 else s1.nmRequest c 0x41) else if was then s1.nmRelease c else s1

/-- A Chime seen on a cluster: it restarts the timer and ends READY_SLEEP or PREPARE_SLEEP (R371, R381, log 19). -/
def State.chimeSeen (s : State) (c n node time : Nat) : State :=
  let s1 := ((s.put (NMW_NC_LAST_VALID c) 1).put (NMW_NC_LAST_CHANNEL c) n).put (NMW_NC_LAST_NODE c) node
  let s2 := (s1.put64 (NMW_NC_LAST_TIME_LO_TIME c) (NMW_NC_LAST_TIME_HI_TIME c) time).inc (NMW_NC_CHIME_RX_CNT_VAL c)
  if s.nc c = ncREADY ∨ s.nc c = ncPREPARE then (s2.nmRestart c).nmWake c 7 n 0
  else s2.nmRestart c

/-- A frame refused because its port's cluster is asleep is a transmit wake (R385). -/
def State.txWake (s : State) (p : Nat) : State :=
  match s.clusterOf p with
  | some c =>
    if s.ncTxWake c ∧ s.nc c = ncBUS_SLEEP then
      s.nmWake c 9 (if p < 32 then p - 24 else if p < 64 then p - 32 else p - 64) 0
    else s
  | none => s

/-- Steps 2 to 4 of the Knell sequence on one member (R375, R387, R388). -/
def State.knellPort (s : State) (p : Nat) : State :=
  let s1 := s.linkDown p
  if p < 32 then
    let s2 := (s1.put (T1S_STATUS_PLCA_STATUS (p - 24)) 0).put (T1S_STATUS_PHY_READY (p - 24)) 0
    s2.setPort p { s2.port p with tc10 := true, tc10Req := false, debounce := false }
  else if p < 64 then (s1.put (CAN_STATUS_FROZEN (p - 32)) 1).put (NMW_CAN_SW_FEC (p - 32)) 0
  else s1

/-- The Knell of a cluster (R375). -/
def State.knellNow (s : State) (c : Nat) (forced : Bool) : State :=
  let s1 := (s.ncPut c ncSHUTDOWN).inc (NMW_NC_KNELL_CNT_VAL c)
  let s2 := if forced then s1.inc (NMW_NC_FORCED_KNELL_CNT_VAL c) else s1
  let s3 := s2.setNm c { s2.nmSt c with knell := s.ao, latched := none, settling := false, gpioLow := true }
  (s.ncPorts c).foldl State.knellPort s3

/-- The end of the Knell sequence: REPEAT at once when a wake is latched, else BUS_SLEEP (R375, R378). During sleep entry the
wake stays latched and wakes the device (R25, R390). -/
def State.knellDone (s : State) (c : Nat) : State :=
  let x := s.nmSt c
  let s1 := s.setFlag (NMW_NC_EVT_KNELL c)
  match (if s.pwr.sleep = 0 then x.latched else none) with
  | some ev =>
    let s2 := s1.wakeRecord ⟨ev.src, ev.idx, c, s.wakeFlags true false ev.pat, ev.time, x.knell⟩
    (s2.setFlag (NMW_NC_EVT_WAKE c)).enterRepeat c ev.src ev.idx
  | none => s1.ncPut c ncBUS_SLEEP

/-- SETTLE_US ends on a member: a CN or LN link comes up under R339, which asks for no idle bus; TEC and REC continue from the
held values (R374, R388). -/
def State.settledPort (s : State) (p : Nat) : State :=
  let s1 := if 32 ≤ p ∧ p < 64 then s.setCan (p - 32) { s.can (p - 32) with joining := false } else s
  if 32 ≤ p ∧ s1.channelMayUp p then s1.linkUpNow p else s1

/-- SETTLE_US ends: the CN and LN links of the cluster come up (R374). -/
def State.settled (s : State) (c : Nat) : State :=
  (s.ncPorts c).foldl State.settledPort (s.setNm c { s.nmSt c with settling := false })

/-! ## Outputs -/

/-- The level the device drives on INHk (R370). -/
def State.inhLevel (s : State) (k : Nat) : Bool :=
  bitOf (s.fld NMW_INH_FORCE) k ||
    (List.range 16).any (fun c => s.ncEnabled c && bitOf (s.ncRec c 11 1) k && s.nc c != ncBUS_SLEEP)

/-- The transceivers of a port are in their low-power mode: from step 3 of the Knell sequence until REPEAT (R374, R375). The Knell
makes steps 1 to 4 at once. -/
def State.lowPower (s : State) (p : Nat) : Bool := !s.ncAwake p

/-- TRX_MODE of a CAN channel (R382, R383): 0 normal, 1 listen-only, 2 standby, 3 sleep. -/
def State.trxMode (s : State) (n : Nat) : Nat :=
  if s.lowPower (32 + n) then
    if bitOf (s.cwRec n 1 1) 2 && !bitOf (s.cwRec n 1 1) 0 then 3 else 2
  else if s.flag (NMW_CAN_LISTEN_LISTEN n) then 1 else 0

/-- The device sets its pins: no reset holds them, and the boot ROM has (R539). -/
def State.pinsDriven (s : State) : Bool := !s.pwr.inReset && decide (3 < s.pwr.boot ∨ s.pwr.boot = 0)

/-- The level of CANn_EN: held low in native mode, else by the mode (R382, R383, R539). -/
def State.canEnPin (s : State) (n : Nat) : Bool :=
  s.pinsDriven && bitOf (s.cwRec n 1 1) 2 && (s.trxMode n == 0 || s.trxMode n == 3)

/-- The level of CANn_STB_N: high in normal and in listen-only operation. -/
def State.canStbPin (s : State) (n : Nat) : Bool := s.pinsDriven && decide (s.trxMode n < 2)

/-- CANn_TXD is held recessive: but in normal operation of a channel on the bus, the controller sends nothing. -/
def State.canTxdHeld (s : State) (n : Nat) : Bool := !(s.pinsDriven && s.trxMode n == 0 && s.linkUp (32 + n))

/-- The level of LINn_SLP_N: high is normal, low is sleep (R383). -/
def State.linSlpPin (s : State) (n : Nat) : Bool := s.pinsDriven && !s.lowPower (64 + n)

/-- GPIO `g` is driven low as the PHY_GPIO of a cluster (R375). DESIGN CHOICE: from the Knell until REPEAT (log 89). -/
def State.gpioDrivenLow (s : State) (g : Nat) : Bool :=
  (List.range 16).any (fun c => s.ncEnabled c && s.ncRec c 15 1 == g && (s.nmSt c).gpioLow)

end Sys2Proof.Machine
end

