-- ==== Sys2Proof/Machine/Gateway.lean ====
section
/-! DEFINITION. Internal frames of the channels, what becomes of a frame at each kind of port, identifier translation and
the CAN allow lists (R354–R358, R364, R407, R408). -/

namespace Sys2Proof.Machine

/-! ## Legacy headers (R354) -/

/-- Byte `i` of a frame. -/
def Frame.byte (f : Frame) (i : Nat) : Nat := byteAt f.bytes i

/-- KIND of an internal frame, 0 for an Ethernet frame. -/
def Frame.kind (f : Frame) : Nat := if f.legacy then f.byte 0 else 0

/-- The ID field, FMT and DLEN of a legacy header. -/
def Frame.id (f : Frame) : Nat := beNat (slice f.bytes 4 4)
def Frame.fmt (f : Frame) : Nat := f.byte 3
def Frame.dlen (f : Frame) : Nat := be16 f.bytes 8

/-- IDE of a legacy header. -/
def Frame.ide (f : Frame) : Bool := bitOf f.fmt 2

/-- The data behind a legacy header. -/
def Frame.data (f : Frame) : List Byte := slice f.bytes 32 f.dlen

/-- A legacy header. -/
def legacyHeader (kind port fmt id dlen dlc sdt vcid af time : Nat) : List Byte :=
  [BitVec.ofNat 8 kind, 1, BitVec.ofNat 8 port, BitVec.ofNat 8 fmt] ++ beBytes 4 id ++ beBytes 2 dlen ++
    [BitVec.ofNat 8 dlc, BitVec.ofNat 8 sdt, BitVec.ofNat 8 vcid, 0] ++ beBytes 4 af ++ beBytes 6 time ++
    List.replicate 8 0

/-- The Ethernet frame a frame carries, without FCS: KIND 0x03 and 0x04 behind their header. -/
def Frame.ethPart (f : Frame) : List Byte :=
  if f.legacy then f.data else f.bytes.take (f.bytes.length - 4)

/-- Offset of the EtherType after up to two VLAN tags. -/
def etherOff (bs : List Byte) : Nat :=
  let tag (o : Nat) : Bool := be16 bs o == 0x8100 || be16 bs o == 0x88A8
  if tag 12 then (if tag 16 then 20 else 16) else 12

/-- An ACF frame: EtherType 0x22F0 with subtype NTSCF or TSCF (R356). -/
def isAcf (bs : List Byte) : Bool :=
  let o := etherOff bs
  be16 bs o == 0x22F0 && (byteAt bs (o + 2) == 0x82 || byteAt bs (o + 2) == 0x05)

/-- The frame as it leaves a BB, ED or TS port once its legacy header is removed: padded to 60 bytes, with a new FCS. -/
def ethFrame (body : List Byte) : List Byte :=
  let b := body ++ List.replicate (60 - body.length) 0
  b ++ leBytes 4 (crc32 b)

/-! ## Channels -/

/-- FLAGS of a CAN record: AUTO_RECOVER, FWD_MSG, ACF_EN, UNPACK_EN, TUNNEL_EN, XL_TMS, XLATE_REQ. -/
def State.canFlag (s : State) (n i : Nat) : Bool := bitOf (s.fld (CAN_CFG_FLAGS n)) i

/-- FLAGS of a LIN record: FWD_MSG, ACF_EN, UNPACK_EN. -/
def State.linFlag (s : State) (n i : Nat) : Bool := bitOf (s.fld (LIN_CFG_FLAGS n)) i

/-- A message format goes beyond a channel's MODE (R340). -/
def State.formatExceeds (s : State) (n fmt : Nat) : Bool := decide (s.fld (CAN_CFG_MODE n) < fmt % 4)

/-! ## Frame kinds at each destination (R356) -/

/-- Why admission refuses a frame at a destination. -/
inductive Refuse where
  /-- Port absent or not granted (R28, R98). -/
  | admission
  /-- The frame's kind has no place there (R356). -/
  | kind
  /-- Its format exceeds the channel's MODE: also FORMAT_DROP_CNT. -/
  | format
  /-- It cannot be tunnelled: also TUNNEL_DROP_CNT. -/
  | tunnel
  /-- The port is flushed (R89). -/
  | down
  /-- QLIMIT. -/
  | qlimit
  deriving DecidableEq, Repr

/-- A tunnel to a CN port: enabled, and the data fits (R364). -/
def State.tunnelCheck (s : State) (n : Nat) (f : Frame) : Option Refuse :=
  if s.canFlag n 4 ∧ f.ethPart.length ≤ 2048 then none else some .tunnel

/-- The table of R356; none when the frame is taken. -/
def State.kindCheck (s : State) (f : Frame) (p : Nat) : Option Refuse :=
  let k := f.kind
  if p < 32 then
    if k = 0 then none
    else if k = 3 ∨ k = 4 then
      if max 60 f.ethPart.length + 4 ≤ s.maxLen p then none else some .kind
    else some .kind
  else if p < 64 then
    let n := p - 32
    if k = 1 then (if s.formatExceeds n f.fmt then some .format else none)
    else if k = 2 then some .kind
    else if k = 3 ∨ (k = 0 ∧ isAcf f.ethPart) then
      if s.canFlag n 3 then none
      else if k = 0 ∧ s.canFlag n 4 then s.tunnelCheck n f
      else some .kind
    else s.tunnelCheck n f
  else if p < 80 then
    let n := p - 64
    if k = 2 then none
    else if k = 3 ∨ (k = 0 ∧ isAcf f.ethPart) then (if s.linFlag n 2 then none else some .kind)
    else some .kind
  else none

/-! ## Identifier translation (R357, R358) -/

/-- XLATE_TAG of LEGACY, 0xFF for none. -/
def State.xlateTag (s : State) : Nat := if secLen s.active tyLEGACY = 0 then 0xFF else sec8 s.active tyLEGACY 0

/-- The key of a translation lookup. -/
def xlateKey (tag inPort outPort : Nat) (ide : Bool) (id : Nat) : Nat :=
  tag * 2 ^ 120 + inPort * 2 ^ 112 + outPort * 2 ^ 104 + bitN ide * 2 ^ 103 + id % 2 ^ 29 * 2 ^ 67

/-- What translation makes of a copy. -/
inductive Xlate where
  | keep
  | new (ide : Bool) (id : Nat)
  | drop
  | format
  deriving DecidableEq, Repr

/-- The region and key of the translation lookup of a frame on its way to CNn, if it makes one. -/
def State.xlateLook (s : State) (f : Frame) (n : Nat) : Option (Nat × Nat) :=
  let tag := s.xlateTag
  if tag = 0xFF ∨ f.kind ≠ 1 then none
  else ((s.plane f.plane).regionOfTag tag).map (fun ri => (ri, xlateKey tag f.inPort (32 + n) f.ide f.id))

/-- What a translation lookup's result makes of a copy (R358). -/
def State.xlateOf (s : State) (f : Frame) (n : Nat) (res : Option Nat) : Xlate :=
  if s.xlateTag = 0xFF ∨ f.kind ≠ 1 then .keep
  else match res with
    | none => if s.canFlag n 6 then .drop else .keep
    | some w =>
      if bitOf w 31 then .drop
      else if f.fmt % 4 = 2 ∧ (bitOf w 29 ∨ 2 ^ 11 ≤ w % 2 ^ 29) then .format
      else .new (bitOf w 29) (w % 2 ^ 29)

/-- The translation of a KIND 0x01 copy as it is written: its own lookup. A page that could not be read makes it a miss. -/
def State.xlate (s : State) (f : Frame) (n : Nat) : State × Xlate :=
  match s.xlateLook f n with
  | none => (s, s.xlateOf f n none)
  | some (ri, key) =>
    match s.lookup f.plane ri key false with
    | (s1, .hit _ _ x) => (s1, s1.xlateOf f n (some x.result))
    | (s1, _) => (s1, s1.xlateOf f n none)

/-- The translation that a copy not yet written would meet now: its identifier for the egress list (R407), without a trace. -/
def State.xlatePeek (s : State) (f : Frame) (n : Nat) : Xlate :=
  match s.xlateLook f n with
  | none => s.xlateOf f n none
  | some (ri, key) =>
    match (s.plane f.plane).region ri with
    | some r => s.xlateOf f n ((s.tblWouldTake f.plane r key).map (fun x => x.2.2.result))
    | none => s.xlateOf f n none

/-- Pages that the translation lookup of a copy needs first (R163, R357). -/
def State.xlatePages (s : State) (f : Frame) (n : Nat) : Option (Nat × List Nat) :=
  match s.xlateLook f n with
  | none => none
  | some (ri, key) =>
    match (s.lookup f.plane ri key true).2 with
    | .page pgs => some (ri, pgs)
    | _ => none

/-- A new identifier written into a frame's header. -/
def Frame.reId (f : Frame) (ide : Bool) (id : Nat) : Frame :=
  { f with bytes := overwrite (overwrite f.bytes 3 [BitVec.ofNat 8 (setBits f.fmt 2 1 (bitN ide))]) 4 (beBytes 4 id) }

/-! ## CAN allow lists (R407, R408) -/

/-- `n` bytes at byte `i` of a channel's CAN record in ZONES (R409). -/
def State.zcRec (s : State) (ch i n : Nat) : Nat := secLe s.active tyZONES (1216 + 520 * ch + i) n

/-- An entry of a list: entries 0 to 15 ingress, 16 to 31 egress. -/
def State.zcEntry (s : State) (ch k i n : Nat) : Nat := s.zcRec ch (8 + 16 * k + i) n

/-- Outcome of a list. -/
inductive CanVerdict where
  | pass
  | deny
  | rate
  deriving DecidableEq, Repr

/-- Tokens of a rate entry; an entry never used holds its BURST. -/
def State.canTok (s : State) (ch k : Nat) : Nat :=
  match tabFind s.canTokens (32 * ch + k) with
  | some n => n
  | none => s.zcEntry ch k 12 2

/-- The first entry whose IDE matches and whose range holds the ID decides; an entry with a RATE takes a token. -/
def State.canList (s : State) (ch : Nat) (out ide : Bool) (id : Nat) : State × CanVerdict :=
  if !bitOf (s.zcRec ch 1 1) (if out then 1 else 0) then (s, .pass)
  else
    let base := if out then 16 else 0
    let cnt := s.zcRec ch (if out then 3 else 2) 1
    let hit (k : Nat) : Bool :=
      let lo := s.zcEntry ch (base + k) 0 4
      bitOf lo 29 == ide && decide (lo % 2 ^ 29 ≤ id ∧ id ≤ s.zcEntry ch (base + k) 4 4 % 2 ^ 29)
    match (List.range cnt).find? hit with
    | none => (s, .deny)
    | some k =>
      if s.zcEntry ch (base + k) 8 4 = 0 then (s, .pass)
      else
        let t := s.canTok ch (base + k)
        if t = 0 then (s, .rate)
        else ({ s with canTokens := tabPut s.canTokens (32 * ch + base + k) (t - 1) }, .pass)

/-- A denial by a list counted in the channel; a message without a token is handled as denied, so counted as one, and counted in
RATE_DROP too (R407, R408, log 90). -/
def State.canDenied (s : State) (ch : Nat) (out : Bool) (v : CanVerdict) : State :=
  if v = .pass then s
  else
    let s1 := s.inc (if out then FWL_CAN_OUT_DENY_VAL ch else FWL_CAN_IN_DENY_VAL ch)
    (if v = .rate then s1.inc (FWL_CAN_RATE_DROP_VAL ch) else s1).setFlag FWL_EVT_CAN_DENY

end Sys2Proof.Machine
end

