-- ==== Sys2Proof/Machine/Classify.lean ====
section
/-! DEFINITION. Classification of a frame in one plane: stages and decision, fragments, the firewall, policing, the
learn lookup and sequence generation (R100–R121, R144–R145, R228, R243–R245, R292, R313–R314, R396–R405). -/

namespace Sys2Proof.Machine

/-! ## Eras (R58, R243): what was in force at a frame's ingress timestamp -/

/-- The chart, epoch, critical streams and schedule in force now. -/
def State.context (s : State) : Era := ⟨s.active, s.epoch, s.crit, s.car.sched, s.clk⟩

/-- The machine with another era's chart and schedule in force. -/
def State.withEra (s : State) (e : Era) : State :=
  { s with active := e.img, epoch := e.epoch, crit := e.crit, car := { s.car with sched := e.sched } }

/-- A frame's era in force while it is judged; the present one is kept aside under its own number. -/
def State.enterEra (s : State) (n : Nat) : State :=
  match tabFind s.eras n with
  | none => s
  | some e => { s.withEra e with eras := tabPut s.eras s.era s.context }

/-- The present era in force again. -/
def State.leaveEra (s : State) : State :=
  match tabFind s.eras s.era with
  | none => s
  | some e => { s.withEra e with eras := tabDel s.eras s.era }

/-- The era of an instant `age` ns ago. -/
def State.eraAt (s : State) (age : Nat) : Nat :=
  match s.eras.find? (fun e => decide (clkSince s.clk e.2.upto < age)) with
  | some e => e.1
  | none => s.era

/-- A downbeat begins a new era. The era that it ends is kept, and every earlier one that a parked frame belongs to. -/
def State.newEra (s : State) : State :=
  let used := (s.planeA.parked ++ s.planeB.parked).map (fun p => p.frame.era)
  { s with era := s.era + 1, eras := tabPut (s.eras.filter (fun e => used.contains e.1)) s.era s.context }

/-! ## Buckets (R203, R204) -/

/-- A placement bucket. -/
def DrumMajor.unlisted (d : DrumMajor) : Bucket := ⟨d.home0, 0, 0, d.homeAt, false⟩
def State.bkt (s : State) (b : Nat) : Bucket := tabGet s.dm.unlisted s.dm.buckets b
def State.setBkt (s : State) (b : Nat) (x : Bucket) : State :=
  { s with dm := { s.dm with buckets := tabSet s.dm.unlisted s.dm.buckets b x } }

/-! ## Stages (R109–R112) -/

/-- PARSE_FLAGS of a frame (R110). -/
def parseFlags (f : Frame) (w : Walk) : Nat :=
  bitN w.frag + 2 * bitN w.fragFirst + 4 * bitN f.fragOuter + 8 * bitN (decide (32 ≤ f.inPort ∧ f.inPort < 80))

/-- The metadata of a frame with the results so far. -/
def State.metaOf (s : State) (f : Frame) (w : Walk) (hits : Tab Nat) : Meta where
  port := f.inPort
  tenant := if f.inPort < 88 then 0xFF else (s.hvTenant (f.inPort - 88)).getD 0xFF
  present := w.present
  flags := parseFlags f w
  tags := [0, 1, 2].map (fun k => (tabGet 0 hits k) % 256)

/-- The outcome of a stage: a result, a miss, or pages to read first. -/
inductive StageRes where
  | hit (w : Nat)
  | miss
  | page (ri : Nat) (pgs : List Nat)
  deriving DecidableEq, Repr

/-- One stage lookup with template `t`. -/
def State.stageLook (s : State) (pl : Plane) (f : Frame) (w : Walk) (hits : Tab Nat) (t : Nat) : State × StageRes :=
  let img := s.active
  let key := buildKey img t w (s.metaOf f w hits) f.bytes (bodyLen f.legacy f.bytes)
  let kind := tmKind img t
  if kind < 2 then
    match (s.plane pl).regionOfTag (tmB img t 2) with
    | none => (s, .miss)
    | some ri =>
      match s.lookup pl ri key false with
      | (s1, .hit _ _ x) => (s1, .hit x.result)
      | (s1, .miss) => (s1, .miss)
      | (s1, .page pgs) => (s1, .page ri pgs)
  else
    match s.lpmLookup pl (secLe img tyKEYTEMPL (8 + 72 * t + 4) 2 % 4096) (kind == 3) key with
    | (s1, some (_, x)) => (s1, .hit x)
    | (s1, none) => (s1, .miss)

/-- Page reads started, each once. -/
def State.startReads (s : State) (pl : Plane) (ri : Nat) (pgs : List Nat) : State :=
  let x := s.plane pl
  s.setPlane pl { x with pageReads := x.pageReads ++ (pgs.map (fun g => (ri, g))).filter (fun e => !x.pageReads.contains e) }

/-- Why a page read cannot be made: the state with its counter, or none when the frame may park (R165, R166, R168). -/
def State.parkRefused (s : State) (pl : Plane) (ri : Nat) (pgs : List Nat) : Option State :=
  let p := s.plane pl
  let new := pgs.filter (fun g => !p.pageReads.contains (ri, g))
  let at0 := match p.region ri with
    | some r => r.backAddr (16 * pgs.headD 0) / 128
    | none => 0
  if s.flag MEM_STATUS_READY = false then
    some (((s.inc (TBL_PAGE_ERR_CNT_VAL pl)).setFlag (TBL_EVT_PAGE_ERR pl)).memErr 2 at0)
  else if 4096 ≤ p.parked.length ∨ 64 < p.pageReads.length + new.length then some (s.inc (TBL_PAGE_BUSY_CNT_VAL pl))
  else
    match p.region ri with
    | none => some s
    | some r =>
      if r.onchip / 16 ≤ pinnedFrames r s.lpddr then some (s.inc (TBL_PAGE_NOFRAME_CNT_VAL pl)) else none

/-- Where a frame parks: stage, region, pages. -/
structure ParkAt where
  stage : Nat
  region : Nat
  pages : List Nat
  deriving DecidableEq, Repr

/-- The stages of a profile from stage `k` on: the results, or where the frame parks. -/
def State.stagesFrom (s : State) (pl : Plane) (f : Frame) (w : Walk) : Nat → Nat → Tab Nat → State × Tab Nat × Option ParkAt
  | 0, _, hits => (s, hits, none)
  | fuel + 1, k, hits =>
    let t := (profStage s.active w.profile k).1
    if t = 0xFF then State.stagesFrom s pl f w fuel (k + 1) hits
    else
      match s.stageLook pl f w hits t with
      | (s1, .hit x) => State.stagesFrom s1 pl f w fuel (k + 1) (tabPut hits k x)
      | (s1, .miss) => State.stagesFrom s1 pl f w fuel (k + 1) hits
      | (s1, .page ri pgs) =>
        match s1.parkRefused pl ri pgs with
        | some s2 => State.stagesFrom s2 pl f w fuel (k + 1) hits
        | none => (s1, hits, some ⟨k, ri, pgs⟩)

/-! ## The decision (R112, R113) -/

/-- The result of the highest-numbered stage that hit and satisfies a condition on role and result. -/
def topHit (img : Mem) (prof : Nat) (hits : Tab Nat) (p : Nat → Nat → Bool) : Option Nat :=
  hits.foldl (fun acc e => if p (profStage img prof e.1).2 e.2 then some e.2 else acc) none

/-- The combined decision of the stages that hit. Roles: 0 FORWARD, 1 FIREWALL, 2 STREAM, 3 AUX. -/
def decide113 (img : Mem) (prof : Nat) (hits : Tab Nat) : Decision :=
  let fwd := topHit img prof hits (fun role _ => role == 0)
  let tc := topHit img prof hits (fun role x => role != 1 && bitOf x 33)
  let fixq := topHit img prof hits (fun role x => role != 1 && bitOf x 29)
  let st := topHit img prof hits (fun role x => (role == 0 || role == 2) && bitOf x 47)
  { action := (match fwd with
      | some x => bits x 60 4
      | none => 3)
    target := (match fwd with
      | some x => resTarget x
      | none => 0)
    stream := st.map (fun x => bits x 35 12)
    tc := tc.map (fun x => bits x 30 3)
    fixq := fixq.map (fun x => bits x 22 7)
    fw := topHit img prof hits (fun role _ => role == 1) }

/-- `n` bytes, little-endian, at byte `i` of a port's record in EGRESS (R251). -/
def egLe (img : Mem) (p i n : Nat) : Nat := secLe img tyEGRESS (8 + 112 * p + i) n

/-- The class of a frame that no result gives one (R228), as the chart of its era says: SCH_PORT_CFG and SCH_PORT_PCPMAP show these bytes. -/
def State.portTc (s : State) (port : Nat) (legacy : Bool) (bytes : List Byte) : Nat :=
  let o := be16 bytes 12
  if bitOf (egLe s.active port 3 1) 2 = true ∧ legacy = false ∧ (o = 0x8100 ∨ o = 0x88A8) then
    bits (egLe s.active port 4 3) (3 * (byteAt bytes 14 / 32)) 3
  else egLe s.active port 2 1 % 8
def State.defaultTc (s : State) (f : Frame) : Nat := s.portTc f.inPort f.legacy f.bytes

/-- The frame with what its decision gives it. -/
def State.applyDecision (s : State) (f : Frame) (d : Decision) : Frame :=
  let crit := match d.stream with
    | some i => s.crit.contains i
    | none => false
  { f with
    stream := d.stream
    tc := d.tc.getD (s.defaultTc f)
    qidx := d.fixq.getD f.qidx
    twinned := f.both && crit }

/-- The stream of a decision is marked critical now (R13). -/
def State.isCrit (s : State) (d : Decision) : Bool :=
  match d.stream with
  | some i => s.crit.contains i
  | none => false

/-- Ports of a replication group but the ingress port, ascending (R188). -/
def State.groupPorts (s : State) (pl : Plane) (g inPort : Nat) : List Nat :=
  (List.range 256).filter (fun p => p != inPort && bitOf (s.fld (BPM_GROUP_PORTS pl g (p / 32))) (p % 32))

/-- Destinations of the forwarding decision: at most one for PORT and COPY, a list for GROUP and FLOOD. -/
def State.fwdPorts (s : State) (pl : Plane) (f : Frame) (d : Decision) : List Nat :=
  match d.action with
  | 1 => if d.target < 256 then [d.target] else []
  | 2 => s.groupPorts pl d.target f.inPort
  | 3 => s.groupPorts pl (s.fld (BPM_FLOOD_GROUP pl (outerVid f.legacy f.bytes))) f.inPort
  | 6 => if d.target < 256 then [d.target] else []
  | _ => []

/-- The decision sends copies of a group. -/
def Decision.multi (d : Decision) : Bool := d.action == 2 || d.action == 3

/-! ## Fragments (R119–R121) -/

/-- A first fragment's decision stored in the planes that take writes. -/
def State.fragInsert (s : State) (pl : Plane) (e : FragEntry) : State :=
  let full := (s.plane pl).frags.all (fun x => x.key != e.key) && decide (1024 ≤ (s.plane pl).frags.length)
  if full then (s.inc (PRS_FRAG_FULL_CNT_VAL pl)).setFlag (PRS_EVT_FRAG_FULL pl)
  else
    let one (s : State) (p : Plane) : State :=
      if s.takesWrites p then
        let x := s.plane p
        s.setPlane p { x with frags := x.frags.filter (fun y => y.key != e.key) ++ [e] }
      else s
    (one (one s .A) .B).inc (PRS_FRAG_INSERT_CNT_VAL pl)

/-! ## The firewall (R396–R405) -/

/-- The zone of item `i` of the zone map of ZONES, which FWL_ZONEMAP shows. -/
def State.zoneItem (s : State) (i : Nat) : Nat := sec8 s.active tyZONES (32 + i)

/-- The zone of a port; none for an ungranted host virtual port (R396). -/
def State.zoneOf (s : State) (p : Nat) : Option Nat :=
  if p < 88 then some (s.zoneItem p) else (s.hvTenant (p - 88)).map (fun t => s.zoneItem (88 + t))

/-- The policy byte of a zone pair in ZONES, which FWL_MATRIX shows. -/
def State.policy (s : State) (i e : Nat) : Nat := sec8 s.active tyZONES (192 + 32 * i + e)

/-- FLOW_TAG, FLOWS_EN and FRAG_OUTER_DENY of ZONES, which FWL_CFG shows. -/
def State.flowTag (s : State) : Nat := sec8 s.active tyZONES 2
def State.flowsEn (s : State) : Bool := bitOf (sec8 s.active tyZONES 1) 0
def State.fragOuterDeny (s : State) : Bool := bitOf (sec8 s.active tyZONES 1) 1

/-- The port admits nothing: ungranted, disabled or reserved (R28, R98). -/
def State.portAbsent (s : State) (p : Nat) : Bool := !s.portEnabled p || (decide (88 ≤ p) && (s.hvTenant (p - 88)).isNone)

/-- VERDICT of the firewall word; a miss is DENY (R399). -/
def Decision.verdict (d : Decision) : Nat :=
  match d.fw with
  | some x => bits x 60 4
  | none => 0

/-- Source, destination, ports and protocol of an IP frame (R401). -/
structure FlowTuple where
  src : Nat
  dst : Nat
  sport : Nat
  dport : Nat
  proto : Nat
  deriving DecidableEq, Repr

/-- The addresses, ports and protocol of the frame's last IP header; a later fragment gives ports 0 (log 91). -/
def flowTuple (w : Walk) (bs : List Byte) : Option FlowTuple :=
  match w.ip with
  | none => none
  | some (h, v6) =>
    let frag := v6 && byteAt bs (h + 6) == 44
    let proto := if v6 then (if frag then byteAt bs (h + 40) else byteAt bs (h + 6)) else byteAt bs (h + 9)
    let l4 := if v6 then (if frag then h + 48 else h + 40) else h + byteAt bs h % 16 * 4
    let later := w.frag && !w.fragFirst
    let ports := (proto == 6 || proto == 17) && !later
    some ⟨beNat (if v6 then slice bs (h + 8) 16 else slice bs (h + 12) 4),
      beNat (if v6 then slice bs (h + 24) 16 else slice bs (h + 16) 4),
      if ports then be16 bs l4 else 0, if ports then be16 bs (l4 + 2) else 0, proto⟩

/-- A flow key: tag, zones, addresses, ports, protocol. -/
def flowKey (tag zi ze : Nat) (t : FlowTuple) : Nat :=
  tag * 2 ^ 312 + zi * 2 ^ 304 + ze * 2 ^ 296 + t.src * 2 ^ 168 + t.dst * 2 ^ 40 + t.sport * 2 ^ 24 + t.dport * 2 ^ 8 +
    t.proto

/-- The tuple of the opposite direction (R402). -/
def FlowTuple.reverse (t : FlowTuple) : FlowTuple := ⟨t.dst, t.src, t.dport, t.sport, t.proto⟩

/-- The region of flow entries in a plane. -/
def State.flowRegion (s : State) (pl : Plane) : Option Nat := (s.plane pl).regionOfTag s.flowTag

/-- The region and key of the reply lookup of a unicast destination. -/
def State.replyKey (s : State) (pl : Plane) (f : Frame) (w : Walk) (p : Nat) : Option (Nat × Nat) :=
  match flowTuple w f.bytes, s.zoneOf f.inPort, s.zoneOf p, s.flowRegion pl with
  | some t, some zi, some ze, some ri => some (ri, flowKey s.flowTag ze zi t.reverse)
  | _, _, _, _ => none

/-- What the reply lookup of a unicast destination gives, without a trace: its region and outcome. -/
def State.replyLook (s : State) (pl : Plane) (f : Frame) (w : Walk) (p : Nat) : Option (Nat × Look) :=
  (s.replyKey pl f w p).map (fun x => (x.1, (s.lookup pl x.1 x.2 true).2))

/-- What the firewall makes of one destination. -/
structure FwRes where
  port : Nat
  allowed : Bool
  /-- Zone pair 32·i + e that was evaluated. -/
  pair : Option Nat
  /-- Denied for FRAG_OUTER_DENY (R400). -/
  frag : Bool
  /-- Reason of an IF4 copy, 0 for none. -/
  cause : Nat
  /-- Region and key of the reply lookup made. -/
  look : Option (Nat × Nat)
  /-- Region, bucket and entry of a reply flow that matched. -/
  flow : Option (Nat × Nat × Nat)
  /-- The frame requests a flow for this destination (R401). -/
  create : Bool
  deriving DecidableEq, Repr

/-- One destination judged (R397, R399, R400, R402). An EXCEPTION or DENY_LOG verdict is a cause where it denies the destination (log 92). -/
def State.fwJudge (s : State) (pl : Plane) (f : Frame) (w : Walk) (d : Decision) (multi : Bool) (p : Nat) : FwRes :=
  let pass : FwRes := ⟨p, true, none, false, 0, none, none, false⟩
  if p = 81 ∨ p = 82 ∨ p = 84 ∨ s.portAbsent p then pass
  else
    match s.zoneOf f.inPort, s.zoneOf p with
    | some zi, some ze =>
      let pb := s.policy zi ze
      let pol := pb % 8
      let v := d.verdict
      let outer := f.fragOuter && s.fragOuterDeny && decide (2 ≤ pol ∧ pol ≤ 4)
      let looks := (pol == 3 || pol == 4) && !multi && !outer
      let flow := if looks then
          match s.replyLook pl f w p with
          | some (ri, .hit b e _) => some (ri, b, e)
          | _ => none
        else none
      let byRule := (pol == 2 || pol == 3) && (v == 1 || v == 2)
      let ok := pol == 1 || (!outer && (flow.isSome || byRule))
      let ruled := pol == 2 || pol == 3
      let cause := if ok then 0
        else if ruled && v == 3 then 1
        else if ruled && v == 4 then 2
        else if bitOf pb 3 then 3 else 0
      ⟨p, ok, some (32 * zi + ze), !ok && outer, cause, if looks then s.replyKey pl f w p else none, flow,
        ok && pol == 3 && v == 2 && !multi && s.flowsEn && (flowTuple w f.bytes).isSome⟩
    | _, _ => pass

/-- Pages that reply lookups of a unicast frame need first (R163, R402). -/
def State.fwPages (s : State) (pl : Plane) (f : Frame) (w : Walk) (multi : Bool) (ports : List Nat) : Option (Nat × List Nat) :=
  match multi, ports with
  | false, [p] =>
    match s.zoneOf f.inPort, s.zoneOf p with
    | some zi, some ze =>
      let pol := s.policy zi ze % 8
      if (pol = 3 ∨ pol = 4) ∧ s.portAbsent p = false then
        match s.replyLook pl f w p with
        | some (ri, .page pgs) => some (ri, pgs)
        | _ => none
      else none
    | _, _ => none
  | _, _ => none

/-- The first IF4 cause in destination order: reason, egress zone, port (R405). -/
def fwCause (rs : List FwRes) : Option (Nat × Nat × Nat) :=
  (rs.find? (fun r => r.cause != 0)).map (fun r => (r.cause, match r.pair with
    | some z => z % 32
    | none => 0xFF, r.port))

/-- RULE_ID of the verdict. -/
def Decision.ruleId (d : Decision) : Nat :=
  match d.fw with
  | some x => bits x 32 16
  | none => 0

/-- The metadata of an IF4 copy (R406). -/
def State.if4Meta (s : State) (f : Frame) (d : Decision) (c : Nat × Nat × Nat) : List Byte :=
  [BitVec.ofNat 8 c.1, BitVec.ofNat 8 ((s.zoneOf f.inPort).getD 0xFF), BitVec.ofNat 8 c.2.1, BitVec.ofNat 8 f.inPort,
    BitVec.ofNat 8 c.2.2, 0] ++ leBytes 2 d.ruleId ++ leBytes 6 (f.time % 2 ^ 48) ++ [0, 0]

/-- One judged destination's traces: a denial counted once per frame, the reply lookup's own traces, a reply that resets AGE, a flow
request (R398, R401–R403). -/
def State.fwTrace (s : State) (pl : Plane) (f : Frame) (w : Walk) (d : Decision) (count : Bool) (r : FwRes) : State :=
  let s1 := if !r.allowed && count then
      match r.pair with
      | some z =>
        let s0 := (s.inc (FWL_PAIR_DENY_CNT_COUNT z)).inc FWL_DENY_CNT_VAL
        if r.frag then s0.inc FWL_FRAG_DENY_CNT_VAL else s0
      | none => s
    else s
  let s0 := match r.look with
    | some (ri, key) => (s1.lookup pl ri key false).1
    | none => s1
  let s2 := match r.flow with
    | some (ri, b, e) => s0.markHit pl ri b e true
    | none => s0
  match r.create, flowTuple w f.bytes, r.pair with
  | true, some t, some z =>
    if 256 ≤ s2.planeA.flowQ.length + s2.planeB.flowQ.length then s2.inc FWL_FLOW_Q_DROP_CNT_VAL
    else
      let x := s2.plane pl
      let tprof := match d.fw with
        | some v => bits v 48 2
        | none => 0
      s2.setPlane pl { x with flowQ := x.flowQ ++ [⟨flowKey s2.flowTag (z / 32) (z % 32) t,
        d.ruleId * 2 ^ 32 + tprof, s2.clk⟩] }
  | _, _, _ => s2

/-! ## Learning (R144, R145) -/

/-- The receiving plane makes a learn lookup for the frame; the bits of CN, LN and IF ports are ignored. -/
def State.learns (s : State) (pl : Plane) (f : Frame) (denied : Bool) : Bool :=
  let sa := slice f.bytes 6 6
  s.flag (TBL_LEARN_CTL_LEARN_EN pl) && bitOf (s.fld (TBL_LEARN_PORT_EN pl (f.inPort / 32))) (f.inPort % 32) &&
    !decide (32 ≤ f.inPort ∧ f.inPort < 88) && (s.plane pl).learnRegion.isSome && !denied && !f.legacy && !bitOf (byteAt f.bytes 6) 0 && beNat sa != 0

/-- The learn lookup, and the event it issues. An event dropped counts in the half of the LEAD plane (R172). A page away counts as a miss,
since the lookup never delays the frame (log 84). -/
def State.learnLook (s : State) (pl : Plane) (f : Frame) : State :=
  let p := s.plane pl
  match p.learnRegion with
  | none => s
  | some ri =>
    let key := p.learnTag * 2 ^ 120 + outerVid f.legacy f.bytes * 2 ^ 104 + beNat (slice f.bytes 6 6) * 2 ^ 56
    let event (s : State) : State :=
      let x := s.plane pl
      if 512 ≤ x.learnQ.length then (s.inc (TBL_LEARN_Q_DROP_CNT_VAL s.lead)).setFlag (TBL_EVT_LEARN_Q_FULL s.lead)
      else s.setPlane pl { x with learnQ := x.learnQ ++ [⟨key, f.inPort, s.clk⟩] }
    match s.lookup pl ri key false with
    | (s1, .hit b e x) =>
      if stHas x.status stLEARNED ∧ stHas x.status stCHART = false then
        if resTarget x.result = f.inPort then s1.markHit pl ri b e true else event s1
      else s1
    | (s1, _) => event s1

/-! ## Policing (R243–R245) -/

/-- Bits per second of a speed code (R74); TS ports run at 10 Mb/s. -/
def speedBps : Nat → Nat
  | 1 => 100000000
  | 2 => 1000000000
  | 3 => 2500000000
  | 4 => 5000000000
  | 5 => 10000000000
  | 6 => 25000000000
  | _ => 10000000

/-- The planned rate of a port in bit/s (R288, R304). -/
def State.plannedBps (s : State) (p : Nat) : Nat := if p < 24 then speedBps (s.plannedSpeed p) else 10000000

/-- A quotient rounded up. -/
def ceilDiv (a b : Nat) : Nat := (a + (b - 1)) / b

/-- Reception time of a stream's largest frame in ps: t_in of R288. -/
def State.tIn (s : State) (x : StreamRec) : Nat := ceilDiv ((x.maxIn + 20) * 8 * 1000000000000) (s.plannedBps x.ingress)

/-- The frame's ingress timestamp lies in the stream's arrival window, or the stream has none (R243, R292). -/
def State.inWindow (s : State) (st time : Nat) : Bool :=
  match tabFind s.car.sched.streams st with
  | none => true
  | some x =>
    let m := max x.period 1
    decide ((time % 1000000000 + m - x.phase % m) % m ≤ x.jitter + (x.frames - 1) * ceilDiv (s.tIn x) 1000)

/-- The outcome of a snare: conform, or the failed test. -/
inductive Snare where
  | conform
  | size
  | gate
  | rate
  deriving DecidableEq, Repr

/-- The tests of a snare in their order. -/
def State.snareTest (s : State) (pl : Plane) (st : Nat) (f : Frame) : Snare :=
  let len := f.bytes.length
  let sdu := s.fld (SCH_SNARE_MAXSDU_MAXSDU pl st)
  if sdu ≠ 0 ∧ sdu < len then .size
  else if s.flag (SCH_SNARE_CFG_GATE_CHECK pl st) ∧ s.inWindow st f.time = false then .gate
  else if s.fld (SCH_SNARE_LEVEL_LEVEL pl st) < len then .rate
  else .conform

/-- A frame policed by the snare of its stream: none when it is dropped. The debit of a frame in one plane only reaches
the twin's snare (R245). -/
def State.police (s : State) (f : Frame) : State × Option Frame :=
  let pl := f.plane
  match f.stream with
  | none => (s, some f)
  | some st =>
    if s.flag (SCH_SNARE_CFG_EN pl st) = false then (s, some f)
    else
      let nc (s : State) : State × Option Frame :=
        let s1 := (s.inc (SCH_SNARE_NC_CNT_COUNT pl st)).setFlag (SCH_EVT_SNARE_NC pl)
        if s.flag (SCH_SNARE_CFG_ACTION pl st) then
          (s1.inc (SCH_SNARE_DEMOTE_CNT_VAL pl), some { f with tc := s.fld (SCH_SNARE_CFG_DEMOTE_TC pl st) })
        else ((s1.inc (SCH_SNARE_DROP_CNT_VAL pl)).drop f 0x09, none)
      match s.snareTest pl st f with
      | .size => nc (s.inc (SCH_SNARE_SIZE_CNT_VAL pl))
      | .gate => nc (s.inc (SCH_SNARE_GATE_CNT_VAL pl))
      | .rate => nc (s.inc (SCH_SNARE_RATE_CNT_VAL pl))
      | .conform =>
        let len := f.bytes.length
        let s1 := s.put (SCH_SNARE_LEVEL_LEVEL pl st) (s.fld (SCH_SNARE_LEVEL_LEVEL pl st) - len)
        let tw := twinOf pl
        if f.twinned then (s1, some f)
        else (s1.put (SCH_SNARE_LEVEL_LEVEL tw st) (s1.fld (SCH_SNARE_LEVEL_LEVEL tw st) - len), some f)

/-! ## Sequence generation (R313, R314) -/

/-- The number the stream's generator gives the frame: the recorded one for a tag it has seen, else a new one. -/
def State.genNumber (s : State) (f : Frame) : State × Option Nat :=
  match f.stream with
  | none => (s, none)
  | some st =>
    if s.flag (FRE_MAP_GEN_VALID .A st) = false then (s, none)
    else
      let g := s.fld (FRE_MAP_GEN .A st)
      let rec0 := tabGet [] s.gens g
      match (if f.twinned then rec0.find? (fun e => e.1 == f.tag) else none) with
      | some e => (s, some e.2)
      | none =>
        let n := s.fld (FRE_GEN_NEXT_SEQ .A g)
        let s1 := (s.put (FRE_GEN_NEXT_SEQ .A g) (n + 1)).inc (FRE_GEN_CNT_VAL .A)
        if f.twinned then
          ({ s1 with gens := tabSet [] s1.gens g (((f.tag, n) :: rec0).take 32) }, some n)
        else (s1, some n)

end Sys2Proof.Machine
end

