-- ==== Sys2Proof/Machine/Admission.lean ====
section
/-! DEFINITION. Admission and replication: refusals, placeholders, and the copies that the replication engine writes
(R125, R183–R191, R357, R358, R385, R398, R407). -/

namespace Sys2Proof.Machine

/-- A destination of a frame at admission: what its receive descriptor carries, and whether it is a copy that R190
counts when it is refused. -/
structure Dest where
  port : Nat
  rx : RxMeta
  copy : Bool
  deriving DecidableEq, Repr

/-- What a plain forwarded frame carries. -/
def RxMeta.plain : RxMeta := ⟨0, []⟩

/-- An entry put at the tail of a queue. -/
def State.enqueue (s : State) (pl : Plane) (p tc : Nat) (e : QEntry) : State :=
  s.setQueue pl (8 * p + tc) (s.queue pl (8 * p + tc) ++ [e])

/-- Why admission refuses a destination at which the frame would hold a buffer of `size` bytes (R186, R187, R356). -/
def State.refusal (s : State) (f : Frame) (size p : Nat) : Option Refuse :=
  if s.portAbsent p then some .admission
  else
    match s.kindCheck f p with
    | some r => some r
    | none =>
      if s.portFlushed p then some .down
      else if f.twinned = false ∧
          s.fld (BPM_QLIMIT_TC_LIMIT_KIB f.plane f.tc) * 1024 < occupancy (s.queue f.plane (8 * p + f.tc)) + size then
        some .qlimit
      else none

/-- Drop reason of a refusal (R197, R356): a copy refused for its port or its class is 0x05. -/
def Refuse.reason (copy : Bool) : Refuse → Nat
  | .down => if copy then 0x05 else 0x0A
  | .qlimit => if copy then 0x05 else 0x02
  | .admission => if copy then 0x05 else 0x03
  | .kind => 0x03
  | .format => 0x03
  | .tunnel => 0x03

/-- A copy lost: counted at its destination port (R190). -/
def State.copyDrop (s : State) (pl : Plane) (p : Nat) : State :=
  (s.inc (BPM_MC_COPY_DROP_CNT_MC_COPY_DROP_CNT pl p)).setFlag (BPM_EVT_MC_COPY_DROP pl)

/-- A refusal counted (R186, R190, R356); one at a port of a sleeping cluster may wake it (R385). -/
def State.refused (s : State) (pl : Plane) (d : Dest) (x : Refuse) : State :=
  let adm := s.inc (BPM_ADMIT_DROP_CNT_VAL pl)
  let s1 := match x with
    | .admission => adm
    | .kind => adm
    | .format => adm.inc (CAN_FORMAT_DROP_CNT_VAL (d.port - 32))
    | .tunnel => adm.inc (CAN_TUNNEL_DROP_CNT_VAL (d.port - 32))
    | .down => (s.countDown d.port).txWake d.port
    | .qlimit => s.inc (BPM_QLIMIT_DROP_CNT_VAL pl)
  if d.copy then s1.copyDrop pl d.port else s1

/-- The ring pair that an indirection table gives a frame at admission, noted for Drum Major (R125, R222). -/
def State.ringFor (s : State) (f : Frame) (p : Nat) : State × Nat :=
  if p < 88 then (s, 0)
  else
    let h := p - 88
    let k := f.qidx / 4
    let ring := bits (s.reg (rPRS_INDIR f.plane h k)).toNat (8 * (f.qidx % 4)) 6
    let dm := { s.dm with
      indirUse := tabPut s.dm.indirUse (128 * h + f.qidx) 1
      indirLast := tabPut s.dm.indirLast (128 * h + f.qidx) s.clk }
    ({ s with dm := dm }, ring)

/-- A KIND 0x01 copy bound for a CAN bus. -/
def canBound (f : Frame) (p : Nat) : Bool := f.kind == 1 && decide (32 ≤ p ∧ p < 64)

/-- The egress list of a channel for a frame's copy: the second copy of a twinned frame takes the first one's verdict
(R398, R407). True when the copy is removed. -/
def State.egressList (s : State) (f : Frame) (p : Nat) (ide : Bool) (id : Nat) : State × Bool :=
  let judge (s : State) : State × Bool :=
    match s.canList (p - 32) true ide id with
    | (s1, .pass) => (s1, false)
    | (s1, v) =>
      let s2 := (s1.canDenied (p - 32) true v).inc FWL_DENY_CNT_VAL
      match s2.zoneOf f.inPort, s2.zoneOf p with
      | some zi, some ze => (s2.inc (FWL_PAIR_DENY_CNT_COUNT (32 * zi + ze)), true)
      | _, _ => (s2, true)
  if f.twinned = false then judge s
  else
    match s.canTwin.find? (fun e => e.1 == f.tag && e.2.1 == p) with
    | some e => ({ s with canTwin := s.canTwin.erase e }, e.2.2 == 1)
    | none =>
      match judge s with
      | (s1, r) => ({ s1 with canTwin := ((f.tag, p, bitN r) :: s1.canTwin).take 256 }, r)

/-- Admission on its way through the destinations. -/
structure Admit where
  st : State
  /-- Destinations accepted, ascending. -/
  acc : List Dest
  /-- The frame, with the identifier that translation gives the copy in the original buffer. -/
  frame : Frame
  /-- Drop reason of the last destination lost, 0 for none. -/
  why : Nat

/-- One destination admitted, refused or removed. The copy in the original buffer is written now, with its own translation lookup; of a
further copy only the identifier that it would get now is known (R357, R407). Every refused destination gives its own reason (R356). -/
def Admit.one (f : Frame) (a : Admit) (d : Dest) : Admit :=
  let first := a.acc.isEmpty
  let size := if first then poolSize f.pool else
    match a.st.fitPool f.plane f.bytes.length with
    | some p => poolSize p
    | none => poolSize f.pool
  match a.st.refusal f size d.port with
  | some x => { a with st := a.st.refused f.plane d x, why := x.reason d.copy }
  | none =>
    if canBound f d.port = false then { a with acc := a.acc ++ [d] }
    else
      let n := d.port - 32
      let listed (a : Admit) (g : Frame) : Admit :=
        match a.st.egressList f d.port g.ide (g.id % 2 ^ 29) with
        | (s1, true) => { a with st := s1, why := 0x08 }
        | (s1, false) => { a with st := s1, acc := a.acc ++ [d], frame := if first then g else a.frame }
      match (if first then a.st.xlate f n else (a.st, a.st.xlatePeek f n)) with
      | (s1, .keep) => listed { a with st := s1 } f
      | (s1, .new ide id) => listed { a with st := s1 } (f.reId ide id)
      | (s1, .drop) =>
        if first then { a with st := s1.inc (CAN_XLATE_DROP_CNT_VAL n) } else { a with st := s1, acc := a.acc ++ [d] }
      | (s1, .format) =>
        if first then { a with st := s1.inc (CAN_FORMAT_DROP_CNT_VAL n) } else { a with st := s1, acc := a.acc ++ [d] }

/-- The copy of a frame for one destination: exception copies are no twins. -/
def Frame.forDest (f : Frame) (rx : RxMeta) (ring : Nat) : Frame :=
  { f with rx := rx, ring := ring, twinned := f.twinned && rx == RxMeta.plain }

/-- A destination served counts a delivery to IF0 (EXC_SENT_CNT, LEAD half). -/
def State.sentExc (s : State) (d : Dest) : State :=
  if d.port = 80 ∧ d.rx.reason ≠ 0 then s.inc (PRS_EXC_SENT_CNT_VAL s.lead) else s

/-- A placeholder for one further copy, and its job. -/
def State.putPlaceholder (f : Frame) (acc : State × List CopyJob) (d : Dest) : State × List CopyJob :=
  let s := acc.1
  let size := match s.fitPool f.plane f.bytes.length with
    | some p => poolSize p
    | none => poolSize f.pool
  match s.ringFor f d.port with
  | (s1, ring) =>
    let n := s1.copyNo
    let s2 := ({ s1 with copyNo := n + 1 } : State).enqueue f.plane d.port f.tc (.placeholder n f.time size)
    (s2.sentExc d, acc.2 ++ [⟨n, d.port, d.rx, ring⟩])

/-- A frame admitted to its destinations, given in ascending port number (R185–R191). -/
def State.admission (s : State) (f : Frame) (ds : List Dest) : State :=
  let a := ds.foldl (Admit.one f) ⟨s, [], f, 0⟩
  match a.acc with
  | [] => if a.why = 0 then a.st.release f else a.st.drop f a.why
  | d :: rest =>
    let pl := f.plane
    if rest ≠ [] ∧ 512 ≤ (a.st.plane pl).repl.length then
      ((a.st.inc (BPM_REPL_FIFO_DROP_CNT_VAL pl)).setFlag (BPM_EVT_REPL_FULL pl)).drop f 0x06
    else
      match a.st.ringFor f d.port with
      | (s1, ring) =>
        let s2 := (s1.enqueue pl d.port f.tc (.frame (a.frame.forDest d.rx ring))).sentExc d
        if rest = [] then s2
        else
          let r := rest.foldl (State.putPlaceholder f) (s2, [])
          r.1.setPlane pl { r.1.plane pl with repl := (r.1.plane pl).repl ++ [⟨f, r.2, none⟩] }

/-! ## The replication engine -/

/-- A placeholder replaced, or removed. -/
def swapPlaceholder (n : Nat) (e : Option QEntry) (l : List QEntry) : List QEntry :=
  l.flatMap (fun x => match x with
    | .placeholder m _ _ => if m = n then e.toList else [x]
    | _ => [x])

/-- The head job of a plane without its first copy. -/
def State.copyDone (s : State) (pl : Plane) : State :=
  let x := s.plane pl
  match x.repl with
  | [] => s
  | j :: js =>
    let todo := j.todo.drop 1
    s.setPlane pl { x with repl := if todo.isEmpty then js else { j with todo := todo, retry := none } :: js }

/-- A copy that is not written: its placeholder goes. -/
def State.copyGone (s : State) (pl : Plane) (f : Frame) (k : CopyJob) : State :=
  let q := 8 * k.port + f.tc
  (((s.setQueue pl q (swapPlaceholder k.copy none (s.queue pl q))).classEmptied q).copyDone pl).settleHead pl q

/-- A copy written into its buffer in place of its placeholder; a CAN copy is translated now (R189, R357, R358). -/
def State.writeCopy (s : State) (pl : Plane) (f : Frame) (k : CopyJob) (h : Nat × Nat) : State :=
  let g : Frame := { f.forDest k.rx k.ring with pool := h.1, buf := h.2 }
  let q := 8 * k.port + f.tc
  let put (s : State) (g : Frame) : State :=
    ((s.inc (BPM_COPIES_CNT_VAL pl)).setQueue pl q (swapPlaceholder k.copy (some (.frame g)) (s.queue pl q))).copyDone pl
  if canBound f k.port = false then put s g
  else
    match s.xlate g (k.port - 32) with
    | (s1, .keep) => put s1 g
    | (s1, .new ide id) => put s1 (g.reId ide id)
    | (s1, .drop) => ((s1.inc (CAN_XLATE_DROP_CNT_VAL (k.port - 32))).release g).copyGone pl f k
    | (s1, .format) => ((s1.inc (CAN_FORMAT_DROP_CNT_VAL (k.port - 32))).release g).copyGone pl f k

/-- The translation lookup of the head copy needs pages: the copy waits for their reads, counted once as a parked lookup, unless they
cannot be made, in which case it is a miss (R163, R165, R357). True while it waits. -/
def State.copyWaits (s : State) (pl : Plane) (f : Frame) (k : CopyJob) : State × Bool :=
  if canBound f k.port = false then (s, false)
  else match s.xlatePages f (k.port - 32) with
    | none => (s, false)
    | some (ri, pgs) =>
      if pgs.all (fun g => (s.plane pl).pageReads.contains (ri, g)) then (s, true)
      else match s.parkRefused pl ri pgs with
        | some s1 => (s1, false)
        | none => ((s.inc (TBL_PARK_CNT_VAL pl)).startReads pl ri pgs, true)

/-- One request of the replication engine for the head copy: it writes, spills in the next clock, or is lost
(R182–R184, R190). -/
def State.copyRequest (s : State) (pl : Plane) (start p : Nat) (f : Frame) (k : CopyJob) : State :=
  let crit := match f.stream with
    | some i => s.crit.contains i
    | none => false
  match s.popBuf pl p crit with
  | (s1, some b) => s1.writeCopy pl f k (p, b)
  | (s1, none) =>
    match s1.flag (BPM_POOL_CFG_SPILL pl p), s1.nextPool pl p with
    | true, some q =>
      let s2 := s1.inc (BPM_SPILL_CNT_VAL pl p)
      let x := s2.plane pl
      s2.setPlane pl { x with repl := match x.repl with
        | j :: js => { j with retry := some (start, q) } :: js
        | [] => [] }
    | _, _ => ((s1.allocLost pl start).copyDrop pl k.port).copyGone pl f k

def execCopyWrite (pl : Plane) (s : State) : Host.Outcome State Fault Refusal :=
  .next (match (s.plane pl).repl with
    | j :: _ =>
      match j.todo, j.retry with
      | k :: _, none =>
        match s.copyWaits pl j.frame k with
        | (s1, true) => s1
        | (s1, false) =>
          match s1.fitPool pl j.frame.bytes.length with
          | some p => s1.copyRequest pl p p j.frame k
          | none => ((s1.allocLost pl 3).copyDrop pl k.port).copyGone pl j.frame k
      | _, _ => s
    | [] => s)

def execAllocSpill (pl : Plane) (s : State) : Host.Outcome State Fault Refusal :=
  .next (match (s.plane pl).repl with
    | j :: _ =>
      match j.todo, j.retry with
      | k :: _, some (start, p) => s.copyRequest pl start p j.frame k
      | _, _ => s
    | [] => s)

/-- Up to two returned buffers are pushed onto their list, their link words written anew (R179, R181). -/
def execBufferReturnPush (pl : Plane) (pool : Nat) (s : State) : Host.Outcome State Fault Refusal :=
  let x := s.plane pl
  let q := x.pool pool
  let two := q.retq.take 2
  .next (s.setPlane pl (x.setPool pool { q with
    retq := q.retq.drop 2, stack := two.reverse ++ q.stack, bad := q.bad.filter (fun b => !two.contains b) }))

end Sys2Proof.Machine
end

