-- ==== Sys2Proof/Machine/Crypto.lean ====
section
/-! DEFINITION. Cryptography by its standards: output bytes of uninterpreted primitives, and fresh random bytes (log 25). -/

namespace Sys2Proof.Machine

/-- `n` output bytes of a primitive. -/
def cryptoBytes (fn : CryptoFn) (args : List (List Byte)) (n : Nat) : List Byte :=
  (List.range n).map (Config.crypto fn args)

/-- The next free value (log 6). -/
def State.fresh (s : State) : State × Nat := ({ s with free := s.free + 1 }, Config.freeValue s.free)

/-- `n` fresh random bytes. -/
def State.random (s : State) : Nat → State × List Byte
  | 0 => (s, [])
  | n + 1 =>
    match s.fresh with
    | (s1, v) =>
      match s1.random n with
      | (s2, l) => (s2, BitVec.ofNat 8 v :: l)

/-- AES-CMAC of a message. -/
def cmac (key msg : List Byte) : List Byte := cryptoBytes .cmac [key, msg] 16

/-- RFC 3394: the wrapped key data, and what an unwrap gives when its integrity check holds. -/
def wrapKey (kek data : List Byte) : List Byte := cryptoBytes .wrap [kek, data] (data.length + 8)
def unwrapKey (kek data : List Byte) : Option (List Byte) :=
  if Config.cryptoOk .unwrap [kek, data] then some (cryptoBytes .unwrap [kek, data] (data.length - 8)) else none

/-- ECDSA: bytes of one of r and s, a signature with a random nonce, and verification. -/
def ecLen (big : Bool) : Nat := if big then 48 else 32
def ecSign (big : Bool) (key digest nonce : List Byte) : List Byte :=
  cryptoBytes (.ecSign big) [key, digest, nonce] (2 * ecLen big)
def ecVerify (big : Bool) (pub digest sig : List Byte) : Bool := Config.cryptoOk (.ecVerify big) [pub, digest, sig]

/-- SHA-384 of a message. -/
def sha384 (msg : List Byte) : List Byte := cryptoBytes (.shaFinal true) [msg] 48

/-- A key of `n` bytes derived from a parent by SP 800-108 with a label and context. -/
def derive108 (parent ctx : List Byte) (n : Nat) : List Byte := cryptoBytes .kdf [parent, ctx] n

/-- The 16 bytes of the device identity. -/
def devUid : List Byte := (List.range 16).map Config.devUid

/-- The ASCII bytes of a label. -/
def ascii (l : List Nat) : List Byte := l.map (fun n => BitVec.ofNat 8 n)

/-- `n` bytes of a data window of words from its first register. -/
def State.window (s : State) (a : Nat) (n : Nat) : List Byte :=
  (List.range n).map (fun i => BitVec.ofNat 8 (bits (s.reg (a + 4 * (i / 4))).toNat (8 * (i % 4)) 8))

/-- Bytes written into a data window from byte `i` on. -/
def State.windowPut (s : State) (a : Nat) : Nat → List Byte → State
  | _, [] => s
  | i, b :: bs => (s.put ⟨a + 4 * (i / 4), 8 * (i % 4), 8⟩ b.toNat).windowPut a (i + 1) bs

/-- A data window of 4 KiB cleared. -/
def State.windowClear (s : State) (a : Nat) : State := (List.range 1024).foldl (fun s k => s.setReg (a + 4 * k) 0) s

end Sys2Proof.Machine
end

