-- ==== Sys2Proof/Machine/Belfry.lean ====
section
/-! DEFINITION. Belfry: slots, the key tree, the firmware commands, the Yelny envelope and the reclaimer (R412–R425). -/

namespace Sys2Proof.Machine

/-! ## Codes -/

/-- ALG codes (R412). -/
def algAES128 : Nat := 0x01
def algAES256 : Nat := 0x02
def isAes (a : Nat) : Bool := a == 1 || a == 2
def isPriv (a : Nat) : Bool := a == 0x10 || a == 0x11
def isPub (a : Nat) : Bool := a == 0x18 || a == 0x19
/-- P-384 rather than P-256. -/
def algBig (a : Nat) : Bool := a == 0x11 || a == 0x19
/-- Secret key bytes, and bytes of X ‖ Y. -/
def keyLen (a : Nat) : Nat := if a = 2 then 32 else if a = 1 then 16 else ecLen (algBig a)
def pubLen (a : Nat) : Nat := 2 * ecLen (algBig a)

/-- USAGE bits. -/
def uDERIVE : Nat := 5
def uWRAP : Nat := 6

/-- STATUS codes of BLF_CMD. -/
def bsOK : Nat := 0x01
def bsBUSY : Nat := 0x02
def bsNOTOWNER : Nat := 0x03
def bsILLEGAL : Nat := 0x04
def bsORPHANED : Nat := 0x05
def bsUNAVAIL : Nat := 0x06
def bsUSAGE : Nat := 0x07
def bsDEPTH : Nat := 0x08
def bsCHECKFAIL : Nat := 0x09
def bsNOTCHECKED : Nat := 0x0A
def bsUNWRAP : Nat := 0x0B
def bsEXPORT : Nat := 0x0C
def bsFORMAT : Nat := 0x0D
def bsDEVICE : Nat := 0x0E
def bsEPOCH : Nat := 0x0F
def bsSLOT : Nat := 0x10
def bsSIG : Nat := 0x11
def bsNOTSTAGED : Nat := 0x12

/-! ## Slots -/

/-- The fused slots 0 and 1 (R417). -/
def fusedSlot (n : Nat) : SlotSt :=
  let k : KeyHalf := if n = 0 then
      ⟨algAES256, 0x20, 0xFFFF, 0, 3, false, 0, (List.range 32).map Config.deviceSecret, []⟩
    else
      let key := (List.range 48).map Config.attestKey
      ⟨0x11, 0x08, 0xFFFF, 0, 3, false, 0, key, cryptoBytes (.ecPublic true) [key] 96⟩
  ⟨some k, none, false, 0, 0, 0x41⟩

/-- A slot as it stands, and a slot changed. -/
def State.slot (s : State) (n : Nat) : SlotSt := if n < 2 then fusedSlot n else tabGet SlotSt.empty s.blf.slots n
def State.setSlot (s : State) (n : Nat) (x : SlotSt) : State :=
  { s with blf := { s.blf with slots := tabSet SlotSt.empty s.blf.slots n x } }

/-- A slot emptied: its generation goes on, so that no new occupant adopts old children (R413, R414). -/
def SlotSt.emptied (x : SlotSt) : SlotSt := ⟨none, none, false, (x.gen + 1) % 65536, x.version, 0⟩

/-- A key is orphaned: a recorded generation on its chain differs, or an ancestor is empty (R413). A commit may lengthen a chain
beyond 8 slots, or close it into a ring, in which no generation differs. -/
def State.orphanFrom (s : State) : Nat → KeyHalf → Bool
  | 0, _ => false
  | fuel + 1, k =>
    if k.parent = 0xFFFF then false
    else
      match (s.slot k.parent).cur with
      | none => true
      | some p => (s.slot k.parent).gen != k.parentGen || s.orphanFrom fuel p
def State.orphaned (s : State) (n : Nat) : Bool :=
  match (s.slot n).cur with
  | some k => s.orphanFrom 1024 k
  | none => false

/-- Slots in state valid, and orphaned ones that the reclaimer has still to empty. -/
def State.usedSlots (s : State) : Nat :=
  ((List.range 1024).filter (fun n => (s.slot n).cur.isSome && !s.orphaned n)).length
def State.orphanSlots (s : State) : Nat := ((List.range 1024).filter s.orphaned).length

/-- OWNER codes above the tenants. -/
def ownFIRMWARE : Nat := 0x40
def ownDEVICE : Nat := 0x41

/-- The requester may use a slot: firmware those from 16 up, a tenant its own (R415). -/
def State.mayUse (s : State) (who n : Nat) : Bool :=
  decide (16 ≤ n ∧ n < 1024) && (who == ownFIRMWARE || ((s.slot n).cur.isSome && (s.slot n).owner == who))

/-! ## Key loads (R413, R415, R419) -/

/-- A slot as a key load sees it: in the clock of a COMMIT or an INVALIDATE still as before it. -/
def State.loadSlot (s : State) (n : Nat) : SlotSt :=
  match s.blf.edges.find? (fun e => e.slot == n) with
  | some e => e.before
  | none => s.slot n

/-- A slot was invalidated in the present clock. -/
def State.killedNow (s : State) (n : Nat) : Bool := s.blf.edges.any (fun e => e.slot == n && e.killed)

/-- A key load over the private bus, for a requester given as an OWNER code: the key with its slot's generation and VERSION, or the
STATUS of its refusal. -/
def State.keyLoad (s : State) (who n : Nat) : Except Nat (KeyHalf × Nat × Nat) :=
  let x := s.loadSlot n
  match x.cur with
  | none => .error bsUNAVAIL
  | some k =>
    if n < 16 ∨ 1024 ≤ n ∨ (who ≠ ownFIRMWARE ∧ x.owner ≠ who) then .error bsUNAVAIL
    else if s.killedNow n = true ∨ s.orphanFrom 1024 k = true then .error bsORPHANED
    else .ok (k, x.gen, x.version)

/-- A load refused with KEY_ORPHANED is counted (BLF_CNT). -/
def State.noteOrphan (s : State) (who n : Nat) : State :=
  match s.keyLoad who n with
  | .error e => if e = bsORPHANED then s.inc BLF_ORPHAN_USE_CNT_VAL else s
  | .ok _ => s

/-- The requester may name a slot as parent or wrapping slot (R415). -/
def State.mayParent (s : State) (who n : Nat) : Bool :=
  s.mayUse who n || (decide (16 ≤ n ∧ n < 1024) && (s.slot n).owner == ownFIRMWARE)

/-- The attribute record of a slot; of an empty slot only SLOT and STATE are stated, the rest is free (R412, log 26). -/
def State.attrRecord (s : State) (n : Nat) : State × List Byte :=
  let x := s.slot n
  match x.cur with
  | none =>
    match s.random 12 with
    | (s1, r) => (s1, leBytes 2 n ++ r.take 8 ++ [0] ++ r.drop 8 ++ [0])
  | some k =>
    let kcv := if isAes k.alg then (cryptoBytes (.ecb false) [k.key, List.replicate 16 0] 16).take 3 ++ [0]
      else [0, 0, 0, 0]
    (s, leBytes 2 n ++ leBytes 2 k.parent ++ [BitVec.ofNat 8 k.alg, BitVec.ofNat 8 k.usage,
      BitVec.ofNat 8 (k.origin + 4 * bitN k.exprt + 8 * bitN x.pend.isSome), BitVec.ofNat 8 x.owner] ++
      leBytes 2 x.version ++ [BitVec.ofNat 8 (if s.orphaned n then 2 else 1), BitVec.ofNat 8 k.depth] ++ kcv)

/-! ## Commands, by whoever asks -/

/-- What a Belfry command takes: the requester as an OWNER code, the slot, the directions of BLF_CMD and BLF_CMD_ARG,
and the bytes of its data window. -/
structure BlfReq where
  who : Nat
  slot : Nat
  pending : Bool
  exprt : Bool
  alg : Nat
  usage : Nat
  arg : Nat
  kcv : Nat
  data : List Byte
  deriving DecidableEq, Repr

/-- A command's result: the state, STATUS, and its output. -/
abbrev BlfRes := State × Nat × List Byte

/-- A slot that the requester may alter. -/
def State.blfAlter (s : State) (q : BlfReq) : Option Nat :=
  if q.slot < 16 ∨ 1024 ≤ q.slot then some bsSLOT
  else if q.who = ownFIRMWARE ∨ (s.slot q.slot).cur.isNone ∨ (s.slot q.slot).owner = q.who then none
  else some bsUNAVAIL

/-- The parent slot of a new key: its key, or why it cannot serve. The parent of a pending key must suit the slot's owner (R415). -/
def State.blfParent (s : State) (q : BlfReq) (use : Nat) : Except Nat KeyHalf :=
  match (s.slot q.arg).cur with
  | none => .error bsUNAVAIL
  | some k =>
    if s.mayParent (if q.pending then (s.slot q.slot).owner else q.who) q.arg = false then .error bsUNAVAIL
    else if s.orphaned q.arg then .error bsORPHANED
    else if bitOf k.usage use = false ∨ isAes k.alg = false then .error bsUSAGE
    else if 7 < k.depth + 1 then .error bsDEPTH
    else .ok k

/-- A new key put into the slot, or its pending half. A pending key takes ALG and USAGE from the slot's record (R418). -/
def State.blfFill (s : State) (q : BlfReq) (algOk : Nat → Bool)
    (make : State → Nat → Nat → State × Except Nat KeyHalf) : BlfRes :=
  match s.blfAlter q with
  | some e => (s, e, [])
  | none =>
    let x := s.slot q.slot
    let put (alg usage : Nat) (store : State → KeyHalf → State) : BlfRes :=
      if algOk alg = false ∨ bitOf usage 7 then (s, bsILLEGAL, [])
      else
        match make s alg usage with
        | (s1, .error e) => (s1, e, [])
        | (s1, .ok k) => (store s1 k, bsOK, [])
    if q.pending then
      match x.cur with
      | none => (s, bsUNAVAIL, [])
      | some k =>
        if s.orphaned q.slot then (s, bsORPHANED, [])
        else put k.alg k.usage (fun s1 n => s1.setSlot q.slot { x with pend := some n, checked := false })
    else if x.cur.isSome then (s, bsSLOT, [])
    else put q.alg q.usage (fun s1 n => s1.setSlot q.slot { x with cur := some n, owner := q.who })

/-- The public point of a secret ECC key. -/
def pubOf (alg : Nat) (key : List Byte) : List Byte :=
  if isPriv alg then cryptoBytes (.ecPublic (algBig alg)) [key] (pubLen alg) else []

def State.blfGen (s : State) (q : BlfReq) : BlfRes :=
  s.blfFill q (fun a => isAes a || isPriv a) (fun s alg usage =>
    match s.random (keyLen alg) with
    | (s1, key) => (s1, .ok ⟨alg, usage, 0xFFFF, 0, 0, q.exprt, 0, key, pubOf alg key⟩))

def State.blfDer (s : State) (q : BlfReq) : BlfRes :=
  s.blfFill q isAes (fun s alg usage =>
    (s, (s.blfParent q uDERIVE).map (fun p =>
      ⟨alg, usage, q.arg, (s.slot q.arg).gen, 1, q.exprt, p.depth + 1, derive108 p.key q.data (keyLen alg), []⟩)))

def State.blfImp (s : State) (q : BlfReq) : BlfRes :=
  s.blfFill q (fun a => isAes a || isPriv a) (fun s alg usage =>
    (s, match s.blfParent q uWRAP with
      | .error e => .error e
      | .ok p =>
        match unwrapKey p.key (q.data.take (keyLen alg + 8)) with
        | none => .error bsUNWRAP
        | some key => .ok ⟨alg, usage, q.arg, (s.slot q.arg).gen, 2, q.exprt, p.depth + 1, key, pubOf alg key⟩))

def State.blfImpPub (s : State) (q : BlfReq) : BlfRes :=
  s.blfFill { q with pending := false } isPub (fun s alg usage =>
    (s, .ok ⟨alg, usage, 0xFFFF, 0, 2, q.exprt, 0, [], q.data.take (pubLen alg)⟩))

/-- The key of a slot that the requester may use, or why not. -/
def State.blfUse (s : State) (who n : Nat) : Except Nat KeyHalf :=
  match (s.slot n).cur with
  | none => .error bsUNAVAIL
  | some k => if s.mayUse who n = false then .error bsUNAVAIL else if s.orphaned n then .error bsORPHANED else .ok k

/-- EXPORT: wrapped under another slot. -/
def State.blfExp (s : State) (q : BlfReq) : BlfRes :=
  match s.blfUse q.who q.slot with
  | .error e => (s, e, [])
  | .ok k =>
    if k.exprt = false then (s, bsEXPORT, [])
    else
      match (s.slot q.arg).cur with
      | none => (s, bsUNAVAIL, [])
      | some w =>
        if s.mayParent q.who q.arg = false then (s, bsUNAVAIL, [])
        else if s.orphaned q.arg then (s, bsORPHANED, [])
        else if bitOf w.usage uWRAP = false ∨ isAes w.alg = false then (s, bsUSAGE, [])
        else (s, bsOK, wrapKey w.key (if isPub k.alg then k.pub else k.key))

/-- The test digest of CHECK. -/
def testDigest (big : Bool) : List Byte := List.replicate (ecLen big) 0

/-- CHECK: the pending key's KCV, or a test signature (R418 step 2). -/
def State.blfChk (s : State) (q : BlfReq) : BlfRes :=
  match s.blfAlter q, (s.slot q.slot).pend with
  | some e, _ => (s, e, [])
  | none, none => (s, bsUNAVAIL, [])
  | none, some k =>
    if s.orphaned q.slot then (s, bsORPHANED, []) else
    let big := algBig k.alg
    match s.random (ecLen big) with
    | (s1, nonce) =>
      let good := if isAes k.alg then
          (cryptoBytes (.ecb false) [k.key, List.replicate 16 0] 16).take 3 == leBytes 3 q.kcv
        else ecVerify big k.pub (testDigest big) (ecSign big k.key (testDigest big) nonce)
      let s2 := if isAes k.alg then s else s1
      if good then (s2.setSlot q.slot { s.slot q.slot with checked := true }, bsOK, []) else (s2, bsCHECKFAIL, [])

/-- A commit or an invalidation noted for the key loads of its clock. -/
def State.slotEdge (s : State) (n : Nat) (killed : Bool) : State :=
  { s with blf := { s.blf with edges := ⟨n, s.slot n, killed⟩ :: s.blf.edges } }

/-- The clock that those loads share ends. -/
def State.edgesEnd (s : State) : State := { s with blf := { s.blf with edges := [] } }

/-- COMMIT of a checked pending half (R418 steps 3 and 4). The old key serves the loads of this clock and is then erased. -/
def State.blfCom (s : State) (q : BlfReq) : BlfRes :=
  match s.blfAlter q with
  | some e => (s, e, [])
  | none =>
    let x := s.slot q.slot
    if x.cur.isNone then (s, bsUNAVAIL, [])
    else if s.orphaned q.slot then (s, bsORPHANED, [])
    else
      match x.pend, x.checked with
      | some k, true =>
        ((s.slotEdge q.slot false).setSlot q.slot
          { x with cur := some k, pend := none, checked := false, version := (x.version + 1) % 65536 }, bsOK, [])
      | _, _ => (s, bsNOTCHECKED, [])

/-- DISCARD_PENDING. -/
def State.blfDis (s : State) (q : BlfReq) : BlfRes :=
  match s.blfAlter q with
  | some e => (s, e, [])
  | none => (s.setSlot q.slot { s.slot q.slot with pend := none, checked := false }, bsOK, [])

/-- The reclaimer has not passed every descendant that the slot's previous invalidation orphaned (R414). -/
def State.staleChild (s : State) (n : Nat) : Bool := !(tabGet [] s.blf.below n).isEmpty

/-- The reclaimer passes a slot. -/
def State.passed (s : State) (m : Nat) : State :=
  let l := s.blf.below.map (fun e => (e.1, e.2.filter (fun c => decide (c ≠ m))))
  { s with blf := { s.blf with below := l.filter (fun e => !e.2.isEmpty) } }

/-- A slot invalidated: every descendant is orphaned from now on (R413). -/
def State.blfKill (s : State) (n : Nat) : State :=
  let s1 := (s.slotEdge n true).setSlot n (s.slot n).emptied
  let l := (List.range 1024).filter (fun c => s1.orphaned c && !s.orphaned c)
  let s2 : State := { s1 with blf := { s1.blf with below := tabSet [] s1.blf.below n l } }
  if l = [] then s2 else s2.setFlag BLF_EVT_ORPHAN

/-- READ_ATTR, GET_PUBLIC: what a slot shows. -/
def State.blfAttr (s : State) (q : BlfReq) : BlfRes :=
  if q.who ≠ ownFIRMWARE ∧ s.mayUse q.who q.slot = false then (s, bsUNAVAIL, [])
  else
    match s.attrRecord q.slot with
    | (s1, r) => (s1, bsOK, r)
def State.blfPub (s : State) (q : BlfReq) : BlfRes :=
  match (s.slot q.slot).cur with
  | none => (s, bsUNAVAIL, [])
  | some k =>
    if q.who ≠ ownFIRMWARE ∧ s.mayUse q.who q.slot = false then (s, bsUNAVAIL, [])
    else if s.orphaned q.slot then (s, bsORPHANED, [])
    else if isAes k.alg then (s, bsUSAGE, []) else (s, bsOK, k.pub)

/-- ATTEST: the statement about a slot, signed with slot 1 (R424). -/
def State.blfAtt (s : State) (q : BlfReq) : BlfRes :=
  if q.who ≠ ownFIRMWARE ∧ s.mayUse q.who q.slot = false then (s, bsUNAVAIL, [])
  else
    match s.attrRecord q.slot with
    | (s1, rec0) =>
      let pub := match (s.slot q.slot).cur with
        | some k => k.pub
        | none => []
      let body := ascii [0x4B, 0x51, 0x41, 0x54] ++ leBytes 2 1 ++ leBytes 2 256 ++ devUid ++ q.data.take 16 ++ rec0 ++
        [BitVec.ofNat 8 s.blf.epoch] ++ List.replicate 7 0 ++ pub ++ List.replicate (96 - pub.length) 0
      match s1.random 48, (s.slot 1).cur with
      | (s2, nonce), some k => (s2, bsOK, body ++ ecSign true k.key (sha384 body) nonce)
      | (s2, _), none => (s2, bsUNAVAIL, [])

/-! ## Firmware's commands (R425) -/

/-- The data window and the operands as firmware staged them. -/
def State.blfReq (s : State) (slot : Nat) (pending exprt : Bool) : BlfReq where
  who := ownFIRMWARE
  slot := slot % 1024
  pending := pending
  exprt := exprt
  alg := s.fld BLF_CMD_ARG_ALG
  usage := s.fld BLF_CMD_ARG_USAGE
  arg := s.fld BLF_CMD_ARG_ARG
  kcv := (s.reg rBLF_CMD_ARG).toNat % 2 ^ 24
  data := s.window (rBLF_DATA 0) 4096

/-- A command that ends: its output in the window of 4 KiB, or the window cleared. -/
def State.blfEnd (s : State) (st : Nat) (out : List Byte) : State :=
  let s1 := if out = [] then s.windowClear (rBLF_DATA 0) else s.windowPut (rBLF_DATA 0) 0 (out.take 4096)
  let s2 := if st = bsORPHANED then s1.inc BLF_ORPHAN_USE_CNT_VAL else s1
  ((s2.put BLF_CMD_STATUS st).put BLF_CMD_BUSY 0).setFlag BLF_EVT_CMD_DONE

/-- A write of BLF_CMD that starts a command; any command but YELNY_COMMIT discards a staged envelope (R422). -/
def State.blfCommand (s : State) (r : Requester) (keep : Bool) (act : State → BlfRes) : State :=
  s.mcOnly r rBLF_CMD BLF_CMD_STATUS bsNOTOWNER (fun s =>
    if s.flag BLF_CMD_BUSY then s.put BLF_CMD_STATUS bsBUSY
    else
      let s0 : State := if keep then s else { s with blf := { s.blf with staged := none } }
      match act s0 with
      | (s1, st, out) => s1.blfEnd st out)

def execBlfGenerate (r : Requester) (slot : Nat) (pending exprt : Bool) (s : State) : Host.Outcome State Fault Refusal :=
  .next (s.blfCommand r false (fun s => s.blfGen (s.blfReq slot pending exprt)))

def execBlfDerive (r : Requester) (slot : Nat) (pending exprt : Bool) (s : State) : Host.Outcome State Fault Refusal :=
  .next (s.blfCommand r false (fun s => s.blfDer (s.blfReq slot pending exprt)))

def execBlfImport (r : Requester) (slot : Nat) (pending exprt : Bool) (s : State) : Host.Outcome State Fault Refusal :=
  .next (s.blfCommand r false (fun s => s.blfImp (s.blfReq slot pending exprt)))

def execBlfImportPublic (r : Requester) (slot : Nat) (s : State) : Host.Outcome State Fault Refusal :=
  .next (s.blfCommand r false (fun s => s.blfImpPub (s.blfReq slot false false)))

def execBlfExport (r : Requester) (slot : Nat) (s : State) : Host.Outcome State Fault Refusal :=
  .next (s.blfCommand r false (fun s => s.blfExp (s.blfReq slot false false)))

def execBlfCheck (r : Requester) (slot : Nat) (s : State) : Host.Outcome State Fault Refusal :=
  .next (s.blfCommand r false (fun s => s.blfChk (s.blfReq slot false false)))

def execBlfCommit (r : Requester) (slot : Nat) (s : State) : Host.Outcome State Fault Refusal :=
  .next (s.blfCommand r false (fun s => s.blfCom (s.blfReq slot false false)))

def execBlfDiscardPending (r : Requester) (slot : Nat) (s : State) : Host.Outcome State Fault Refusal :=
  .next (s.blfCommand r false (fun s => s.blfDis (s.blfReq slot false false)))

/-- INVALIDATE; one whose slot still has stale children waits for the reclaimer with BUSY at 1 (R413, R414). -/
def State.blfInv (s : State) (r : Requester) (slot : Nat) : State :=
  s.mcOnly r rBLF_CMD BLF_CMD_STATUS bsNOTOWNER (fun s =>
    if s.flag BLF_CMD_BUSY then s.put BLF_CMD_STATUS bsBUSY
    else
      let n := slot % 1024
      let s0 : State := { s with blf := { s.blf with staged := none } }
      if n < 16 then s0.blfEnd bsSLOT []
      else if s0.staleChild n then
        ({ s0 with blf := { s0.blf with waiting := some (n, none) } } : State).put BLF_CMD_BUSY 1
      else (s0.blfKill n).blfEnd bsOK [])

def execBlfInvalidate (r : Requester) (slot : Nat) (s : State) : Host.Outcome State Fault Refusal := .next (s.blfInv r slot)

def execBlfReadAttr (r : Requester) (slot : Nat) (s : State) : Host.Outcome State Fault Refusal :=
  .next (s.blfCommand r false (fun s => s.blfAttr (s.blfReq slot false false)))

def execBlfGetPublic (r : Requester) (slot : Nat) (s : State) : Host.Outcome State Fault Refusal :=
  .next (s.blfCommand r false (fun s => s.blfPub (s.blfReq slot false false)))

def execBlfAttest (r : Requester) (slot : Nat) (s : State) : Host.Outcome State Fault Refusal :=
  .next (s.blfCommand r false (fun s => s.blfAtt (s.blfReq slot false false)))

/-- CERT: the certificate, an X.509 object whose length the spec does not give, fills the window (R424). -/
def State.blfCert (s : State) : BlfRes := (s, bsOK, cryptoBytes .certificate [] 4096)

def execBlfCert (r : Requester) (s : State) : Host.Outcome State Fault Refusal :=
  .next (s.blfCommand r false State.blfCert)

/-! ## The reclaimer (R414) -/

/-- The reclaimer visits the next slot; an INVALIDATE that waited for it goes on when it may. -/
def State.reclaim (s : State) : State :=
  let n := s.blf.steps % 1024
  let s0 := s.passed n
  let s1 := if 16 ≤ n ∧ s0.orphaned n then (s0.setSlot n (s0.slot n).emptied).inc BLF_RECLAIM_CNT_VAL else s0
  let s2 : State := { s1 with blf := { s1.blf with steps := (s1.blf.steps + 1) % 1024 } }
  match s2.blf.waiting with
  | some (k, none) =>
    if s2.staleChild k then s2
    else
      ({ s2 with blf := { s2.blf with waiting := none } } : State).blfKill k |>.blfEnd bsOK []
  | _ => s2

def execReclaimerStep (s : State) : Host.Outcome State Fault Refusal := .next s.reclaim

/-! ## The Yelny envelope (R420–R422) -/

/-- ALG of the privileged slots that the sources table fixes. -/
def privAlg : Nat → Option Nat
  | 2 => some 0x19
  | 3 => some 0x19
  | 4 => some 0x19
  | 5 => some 0x11
  | 6 => some 0x02
  | 7 => some 0x19
  | _ => none

/-- Bytes of KEY by ALG: a point, or a wrapped key. -/
def yelKeyLen (alg : Nat) : Nat := if isPub alg then pubLen alg else keyLen alg + 8

/-- The field rules of R420. -/
def yelFormat (e : List Byte) : Bool :=
  let op := byteAt e 25
  let slot := byteAt e 26
  let alg := byteAt e 27
  let klen := leNat (slice e 32 4)
  slice e 0 4 == ascii [0x59, 0x4C, 0x4E, 0x59] && leNat (slice e 4 2) == 1 &&
    leNat (slice e 6 2) == 40 + klen + 96 && decide (1 ≤ byteAt e 24 ∧ byteAt e 24 ≤ 128) &&
    decide (1 ≤ op ∧ op ≤ 3) && decide ((2 ≤ slot ∧ slot ≤ 5) ∨ (7 ≤ slot ∧ slot ≤ 15)) &&
    (isAes alg || isPriv alg || isPub alg) && (match privAlg slot with
      | some a => a == alg
      | none => true) &&
    !bitOf (byteAt e 28) 7 && decide (byteAt e 29 ≤ 1) && (slot != 5 || (byteAt e 29 == 0 && op == 3)) &&
    (op != 3 || slot == 5) && be16 e 30 == 0 && leNat (slice e 36 4) == 0 &&
    klen == (if op = 1 then yelKeyLen alg else 0)

/-- The transport key of an epoch. -/
def State.yelTransport (s : State) (epoch : Nat) : List Byte :=
  match (s.slot 0).cur with
  | some k => derive108 k.key (ascii [0x59, 0x45, 0x4C, 0x4E, 0x59] ++ devUid ++ [BitVec.ofNat 8 epoch]) 32
  | none => []

/-- The key bytes an envelope gives, or none when its wrap fails. -/
def State.yelKey (s : State) (e : List Byte) : Option (List Byte) :=
  let alg := byteAt e 27
  let key := slice e 40 (leNat (slice e 32 4))
  if byteAt e 25 ≠ 1 then some [] else if isPub alg then some key else unwrapKey (s.yelTransport (byteAt e 24)) key

/-- The checks of R421 in their order; 0x01 when all pass. -/
def State.yelCheck (s : State) (e : List Byte) : Nat :=
  let len := leNat (slice e 6 2)
  if yelFormat e = false then bsFORMAT
  else if slice e 8 16 ≠ devUid then bsDEVICE
  else if byteAt e 24 ≤ s.blf.epoch then bsEPOCH
  else
    match (s.slot 2).cur with
    | none => bsUNAVAIL
    | some root =>
      if ecVerify true root.pub (sha384 (e.take (len - 96))) (slice e (len - 96) 96) = false then bsSIG
      else if (s.yelKey e).isNone then bsUNWRAP else bsOK

/-- What an envelope makes of its slot; a pair that the device generates is made when the envelope is staged, as the record to be stored
holds it. -/
def State.yelSlot (s : State) (e : List Byte) : State × SlotSt :=
  let x := s.slot (byteAt e 26)
  let alg := byteAt e 27
  let make (origin : Nat) (key pub : List Byte) : SlotSt := { x with
    cur := some ⟨alg, byteAt e 28, 0xFFFF, 0, origin, byteAt e 29 == 1, 0, key, pub⟩
    version := (x.version + 1) % 65536
    owner := ownDEVICE }
  match byteAt e 25 with
  | 1 =>
    let key := (s.yelKey e).getD []
    (s, if isPub alg then make 2 [] key else make 2 key (pubOf alg key))
  | 2 => (s, { x.emptied with owner := ownDEVICE })
  | _ =>
    match s.random (keyLen alg) with
    | (s1, key) => (s1, make 0 key (pubOf alg key))

/-- The content of a privileged slot as the record holds it. -/
def State.recordSlot (s : State) (n : Nat) : List Byte :=
  let x := s.slot n
  [BitVec.ofNat 8 n] ++ leBytes 2 x.version ++ (match x.cur with
    | some k => [BitVec.ofNat 8 k.alg, BitVec.ofNat 8 k.usage, BitVec.ofNat 8 (k.origin + 4 * bitN k.exprt)] ++ k.key ++ k.pub
    | none => [])

/-- The privileged record of an epoch, sealed under a key that slot 0 gives (R421); its layout is not stated (log 25). -/
def State.privRecord (s : State) (epoch : Nat) : State × List Byte :=
  match s.random 16 with
  | (s1, nonce) =>
    let body := BitVec.ofNat 8 epoch :: (([2, 3, 4, 5] ++ (List.range 9).map (· + 7)).map s.recordSlot).flatten
    let key := match (s.slot 0).cur with
      | some k => derive108 k.key (ascii [0x4B, 0x51, 0x2D, 0x50, 0x52, 0x49, 0x56]) 32
      | none => []
    (s1, cryptoBytes .privSeal [key, nonce, body] 4096)

/-- YELNY_STAGE: a good envelope is held, and the sealed record that it will give is written (R421). -/
def State.yelStage (s : State) : BlfRes :=
  let e := s.window (rBLF_DATA 0) 4096
  let st := s.yelCheck e
  if st ≠ bsOK then (s, st, [])
  else
    let env := e.take (leNat (slice e 6 2))
    match s.yelSlot env with
    | (s1, x) =>
      match (s1.setSlot (byteAt env 26) x).privRecord (byteAt env 24) with
      | (s2, out) =>
        ({ s2 with blf := { s1.blf with staged := some (env, x) } }, bsOK, out)

def execYelnyStage (r : Requester) (s : State) : Host.Outcome State Fault Refusal :=
  .next (s.blfCommand r false State.yelStage)

/-- YELNY_COMMIT: fuses blown to the staged epoch, then the operation; the boot source holds the new record (R422). -/
def State.yelCommit (s : State) : BlfRes :=
  match s.blf.staged with
  | none => (s, bsNOTSTAGED, [])
  | some (e, x) =>
    let s1 := s.setSlot (byteAt e 26) x
    let keep := s1.blf.slots.filter (fun x => decide (2 ≤ x.1 ∧ x.1 ≤ 15 ∧ x.1 ≠ 6))
    (({ s1 with blf := { s1.blf with staged := none, epoch := byteAt e 24, flash := keep } } : State).setFlag
      BLF_EVT_EPOCH, bsOK, [])

def execYelnyCommit (r : Requester) (s : State) : Host.Outcome State Fault Refusal :=
  .next (s.blfCommand r true State.yelCommit)

/-- USAGE bit VERIFY. -/
def uVERIFY : Nat := 4

end Sys2Proof.Machine
end

