-- ==== Sys2Proof/Machine/Cipher.lean ====
section
/-! DEFINITION. The cipher pool: operations, contexts, keys, commits in domain order, aborts and alarms (R436–R448). -/

namespace Sys2Proof.Machine

/-! ## Headers (R436, R437) -/

/-- The operation header, field by field. -/
structure CphHdr where
  mode : Nat
  flags : Nat
  slot : Nat
  dlen : Nat
  alen : Nat
  tlen : Nat
  src : Nat
  dst : Nat
  ctx : Nat
  iv : Nat
  deriving DecidableEq, Repr

/-- A header read from its 32 bytes. -/
def cphHdr (b : List Byte) : CphHdr where
  mode := byteAt b 0
  flags := byteAt b 1
  slot := leNat (slice b 2 2)
  dlen := leNat (slice b 4 4)
  alen := leNat (slice b 8 2)
  tlen := byteAt b 10
  src := leNat (slice b 12 4)
  dst := leNat (slice b 16 4)
  ctx := leNat (slice b 20 4)
  iv := leNat (slice b 24 4)

def CphHdr.dir (h : CphHdr) : Bool := bitOf h.flags 0
def CphHdr.first (h : CphHdr) : Bool := bitOf h.flags 1
def CphHdr.final (h : CphHdr) : Bool := bitOf h.flags 2
def CphHdr.save (h : CphHdr) : Bool := bitOf h.flags 3
def CphHdr.wrapped (h : CphHdr) : Bool := bitOf h.flags 4

/-- GCM or GMAC; a mode that runs on an AES engine; a mode of a single part; a mode whose DIR is always 0. -/
def CphHdr.gcm (h : CphHdr) : Bool := h.mode == 4 || h.mode == 5
def CphHdr.aes (h : CphHdr) : Bool := decide (h.mode ≤ 7)
def CphHdr.sha (h : CphHdr) : Bool := h.mode == 8 || h.mode == 9
def CphHdr.single (h : CphHdr) : Bool := h.mode == 7 || decide (10 ≤ h.mode)
def CphHdr.keyed (h : CphHdr) : Bool := !h.sha && h.mode != 12
def CphHdr.oneWay (h : CphHdr) : Bool := h.mode == 6 || h.sha || h.mode == 12

/-- Status codes of a completion. -/
def cpOK : Nat := 0x00
def cpHEADER : Nat := 0x01
def cpLENGTH : Nat := 0x02
def cpPARTIAL : Nat := 0x03
def cpWRAP : Nat := 0x04
def cpTAG : Nat := 0x05
def cpSIG : Nat := 0x06
def cpUNWRAP : Nat := 0x07
def cpORPHANED : Nat := 0x08
def cpUNAVAIL : Nat := 0x09
def cpUSAGE : Nat := 0x0A
def cpCONTEXT : Nat := 0x0B
def cpCHANGED : Nat := 0x0C
def cpABORTED : Nat := 0x0D
def cpDONE : Nat := 0x0E
def cpALARM : Nat := 0x0F
def cpFULL : Nat := 0x10
def cpNOTFOUND : Nat := 0x11

/-- Check 1: an unknown MODE, a reserved bit set, or FLAGS that do not fit the mode. -/
def CphHdr.bad (h : CphHdr) (b : List Byte) : Bool :=
  h.mode == 0 || decide (12 < h.mode) || decide (32 ≤ h.flags) || byteAt b 11 != 0 || leNat (slice b 28 4) != 0 ||
    (!h.final && !h.save) || (h.single && !(h.first && h.final && !h.save && !h.wrapped)) || (h.oneWay && h.dir)

/-- Bytes of a whole block of a mode. -/
def CphHdr.block (h : CphHdr) : Nat := if h.mode = 8 then 64 else if h.mode = 9 then 128 else 16

/-- Check 2: the lengths of the modes table; 0 when they hold. -/
def CphHdr.lengths (h : CphHdr) : Nat :=
  let max := 16777216
  let range (lo hi : Nat) : Bool := decide (lo ≤ h.dlen ∧ h.dlen ≤ hi)
  let ok := match h.mode with
    | 1 => range 16 max && (!h.final || h.dlen % 16 == 0)
    | 2 => range 16 max && (!h.final || h.dlen % 16 == 0)
    | 3 => range 1 max
    | 4 => range 0 max && decide (0 < h.dlen + h.alen)
    | 5 => h.dlen == 0 && decide (0 < h.alen)
    | 6 => range (if h.final then 0 else 1) max
    | 7 => (if h.dir then range 24 4104 else range 16 4096) && h.dlen % 8 == 0
    | 10 => h.dlen == 32
    | 11 => h.dlen == 48
    | 12 => range 1 4096
    | _ => true
  let tag := if h.gcm then h.tlen == 8 || h.tlen == 12 || h.tlen == 16
    else if h.mode = 6 then decide (4 ≤ h.tlen ∧ h.tlen ≤ 16) else h.tlen == 0
  let aad := h.gcm || h.alen == 0
  if ok = false ∨ tag = false ∨ aad = false then cpLENGTH
  else if h.final = false ∧ (h.dlen % h.block ≠ 0 ∨ h.alen % 16 ≠ 0) then cpPARTIAL
  else 0

/-! ## Memory and domains -/

/-- Requester of an order domain, as an OWNER code: tenants from 48, firmware 112 (R225). -/
def cphWho (dom : Nat) : Nat := if dom = 112 then ownFIRMWARE else dom - 48

/-- Memory as an operation's requester addresses it (R436, R484). -/
def State.cphRead (s : State) (dom a n : Nat) : List Byte :=
  if dom = 112 then memTake s.mcMem a n else s.dmaRead (dom - 48) a n
def State.cphWrite (s : State) (dom a : Nat) (bs : List Byte) : State :=
  if dom = 112 then { s with mcMem := memPut s.mcMem a bs } else s.dmaWrite (dom - 48) a bs

/-! ## Contexts (R442–R444) -/

/-- The wrapping key of contexts: slot 6. -/
def State.cphWrapKey (s : State) : Option (List Byte) := (s.slot 6).cur.map (·.key)

/-- A counter block advanced by `n` in its low 32 bits. -/
def ctrAdd (b : List Byte) (n : Nat) : List Byte := b.take 12 ++ beBytes 4 (beNat (slice b 12 4) + n)

/-- What a sequence starts from. -/
def State.cphFirst (s : State) (dom : Nat) (h : CphHdr) : CphCtx :=
  let z := List.replicate 16 (0 : Byte)
  let chain := if h.mode = 2 ∨ h.mode = 3 then s.cphRead dom h.iv 16
    else if h.gcm then s.cphRead dom h.iv 12 ++ beBytes 4 2 else z
  ⟨chain, z, [], 0, 0, false, h.tlen, false⟩

/-- The clear bytes of a context. -/
def CphCtx.clear (x : CphCtx) (h : CphHdr) (dom gen version : Nat) : List Byte :=
  let acc := if h.gcm = true ∧ x.started = false then x.chain.take 12 ++ beBytes 4 1 else x.acc
  ascii [0x4B, 0x51, 0x43, 0x58] ++ [1, BitVec.ofNat 8 h.mode, BitVec.ofNat 8 (bitN h.dir + 2 * bitN x.started), 0] ++
    leBytes 2 h.slot ++ leBytes 2 version ++ leBytes 2 gen ++ [BitVec.ofNat 8 dom, BitVec.ofNat 8 x.tag] ++
    leBytes 8 x.aad ++ leBytes 8 x.data ++ x.chain ++ acc ++ x.hash ++ List.replicate (64 - x.hash.length) 0

/-- The bytes of a restored context, out of their wrapping; none when it fails its integrity check. -/
def State.cphLoad (s : State) (dom : Nat) (h : CphHdr) : Option (List Byte) :=
  if h.wrapped then
    let b := s.cphRead dom h.ctx 176
    if b.take 8 ≠ ascii [0x4B, 0x51, 0x43, 0x57] ++ [1, BitVec.ofNat 8 h.mode, 0, 0] then none
    else match s.cphWrapKey with
      | some k => (unwrapKey k (b.drop 8)).map (fun l => l.take 128)
      | none => none
  else some (s.cphRead dom h.ctx 128)

/-- Check 3: the context, fresh or restored. -/
def State.cphOpen (s : State) (dom : Nat) (h : CphHdr) : Except Nat CphCtx :=
  if h.first then .ok (s.cphFirst dom h)
  else
    match s.cphLoad dom h with
    | none => .error cpCONTEXT
    | some b =>
      let fl := byteAt b 6
      if b.take 6 ≠ ascii [0x4B, 0x51, 0x43, 0x58] ++ [1, BitVec.ofNat 8 h.mode] ∨ bitOf fl 0 ≠ h.dir ∨
          byteAt b 14 ≠ dom then .error cpCONTEXT
      else if h.keyed = true ∧ leNat (slice b 12 2) ≠ (s.slot h.slot).gen then .error cpORPHANED
      else if h.keyed = true ∧ leNat (slice b 10 2) ≠ (s.loadSlot h.slot).version then .error cpCHANGED
      else .ok ⟨slice b 32 16, slice b 48 16, slice b 64 64, leNat (slice b 16 8), leNat (slice b 24 8), bitOf fl 1,
        byteAt b 15, h.gcm && !bitOf fl 1⟩

/-- Lengths that hang on the sequence: the counter does not wrap, AAD precedes all data, SHA stays below 2^61 bytes. -/
def CphCtx.lengths (x : CphCtx) (h : CphHdr) : Nat :=
  let next := beNat (slice x.chain 12 4)
  let done := x.data / 16
  let start := (next + 2 ^ 32 - done % 2 ^ 32) % 2 ^ 32
  if h.mode = 3 ∧ 2 ^ 32 < start + done + (h.dlen + 15) / 16 then cpWRAP
  else if h.gcm = true ∧ x.started ∧ h.alen ≠ 0 then cpLENGTH
  else if h.sha = true ∧ 2 ^ 61 ≤ x.data + h.dlen then cpLENGTH
  else 0

/-! ## Keys (R440) -/

/-- Whether ALG and USAGE of a key fit a mode and DIR. -/
def CphHdr.keyFits (h : CphHdr) (k : KeyHalf) : Bool :=
  match h.mode with
  | 3 => isAes k.alg && bitOf k.usage 0
  | 5 => isAes k.alg && bitOf k.usage 2
  | 6 => isAes k.alg && bitOf k.usage 2
  | 7 => isAes k.alg && bitOf k.usage uWRAP
  | 10 => if h.dir then k.alg == 0x18 && bitOf k.usage 4 else k.alg == 0x10 && bitOf k.usage 3
  | 11 => if h.dir then k.alg == 0x19 && bitOf k.usage 4 else k.alg == 0x11 && bitOf k.usage 3
  | _ => isAes k.alg && bitOf k.usage (bitN h.dir)

/-- Check 4: the key delivered, with its generation and VERSION. -/
def State.cphKey (s : State) (dom : Nat) (h : CphHdr) : Except Nat (List Byte × Nat × Nat) :=
  if h.keyed = false then .ok ([], 0, 0)
  else
    match s.keyLoad (cphWho dom) h.slot with
    | .error e => .error (if e = bsORPHANED then cpORPHANED else cpUNAVAIL)
    | .ok (k, g, v) => if h.keyFits k = false then .error cpUSAGE else .ok (if isPub k.alg then k.pub else k.key, g, v)

/-- The subkeys that a key gives GCM and CMAC. -/
def subkeysOf (key : List Byte) (mode : Nat) : List Byte := cryptoBytes .subkeys [key, [BitVec.ofNat 8 mode]] 32

/-- An AES engine takes an operation: it reloads its key when the tag differs; a GHASH unit takes the hash subkey (R440). -/
def State.engineKeep (s : State) (engine ghash : Option Nat) (slot gen version : Nat) (key : List Byte) : State :=
  let s1 : State := match engine with
    | none => s
    | some n =>
      let same := match tabGet none s.cph.kept n with
        | some k => k.slot == slot && k.gen == gen && k.version == version
        | none => false
      if same then s else { s with cph := { s.cph with kept := tabSet none s.cph.kept n (some ⟨slot, gen, version, key⟩) } }
  match ghash with
  | none => s1
  | some n => { s1 with cph := { s1.cph with subkeys := tabSet [] s1.cph.subkeys n (subkeysOf key 4) } }

/-- Every kept key and subkey zeroed (R448). -/
def State.engineErase (s : State) : State := { s with cph := { s.cph with kept := [], subkeys := [] } }

/-- The checks of R438 on an operation about to run on an engine. -/
def State.cphStart (s : State) (op : CphOp) (engine ghash : Option Nat) : CphSt :=
  let h := cphHdr op.hdr
  if h.bad op.hdr then .ended cpHEADER false
  else if h.lengths ≠ 0 then .ended h.lengths false
  else
    match s.cphOpen op.domain h with
    | .error e => .ended e false
    | .ok x =>
      if x.lengths h ≠ 0 then .ended (x.lengths h) false
      else
        match s.cphKey op.domain h with
        | .error e => .ended e false
        | .ok (k, g, v) => .running ⟨engine, ghash, (h.alen + 15) / 16 + (h.dlen + 15) / 16, k, g, v, x⟩

/-! ## Results leave in domain order (R225) -/

/-- A tenant's CIPHER command ends with its operation's status. -/
def State.cphTenant (s : State) (tn op status : Nat) : State :=
  let code := if status = cpOK then 0x00 else if status = cpABORTED then 0x05 else 0x04
  s.setTen tn ((s.ten tn).endCmd (fun c => c.st == .inCipher op) code ([BitVec.ofNat 8 status] ++ List.replicate 11 0))

/-- Ended operations delivered: the first of each domain, in order; `blocked` holds the domains that wait. -/
def deliverOps : List CphOp → List Nat → State → State × List CphOp
  | [], _, s => (s, [])
  | op :: t, blocked, s =>
    let wait (s : State) (op : CphOp) : State × List CphOp :=
      match deliverOps t (op.domain :: blocked) s with
      | (s1, l) => (s1, op :: l)
    match op.st, blocked.contains op.domain with
    | .ended st full, false =>
      if op.domain = 112 then
        if s.cph.cpl.length < 64 then
          let s1 := ({ s with cph := { s.cph with cpl := s.cph.cpl ++ [(op.id, st)] } } : State).setFlag CPH_EVT_CPL
          deliverOps t blocked (if st = cpOK then s1 else s1.setFlag CPH_EVT_ERROR)
        else wait (if full then s else s.setFlag CPH_EVT_CPL_OVF) { op with st := .ended st true }
      else if 48 ≤ op.domain then deliverOps t blocked (s.cphTenant (op.domain - 48) op.id st)
      else deliverOps t blocked s
    | _, _ => wait s op

/-- Every result that may leave now. -/
def State.cphDeliver (s : State) : State :=
  match deliverOps s.cph.ops [] s with
  | (s1, l) => { s1 with cph := { s1.cph with ops := l } }

/-- An operation that is queued or running holds a place. -/
def CphOp.held (op : CphOp) : Bool := match op.st with
  | .ended _ _ => false
  | _ => true

/-- Operations running. -/
def CphOp.isRunning (op : CphOp) : Bool := match op.st with
  | .running _ => true
  | _ => false

/-- An operation changed, by its OP_ID. -/
def State.cphSet (s : State) (id : Nat) (f : CphOp → CphOp) : State :=
  { s with cph := { s.cph with ops := s.cph.ops.map (fun op => if op.id = id then f op else op) } }

/-- An operation ends with a status, and results leave. An orphaned key is counted (BLF_CNT). -/
def State.cphEnd (s : State) (id status : Nat) : State :=
  let s1 := if status = cpORPHANED then s.inc BLF_ORPHAN_USE_CNT_VAL else s
  (s1.cphSet id (fun op => { op with st := .ended status false })).cphDeliver

/-! ## Submission (R445) -/

/-- Firmware and tenants share 192 of the 256 places. -/
def State.cphFull (s : State) : Bool := decide (192 ≤ (s.cph.ops.filter CphOp.held).length)

/-- A submission that finds a place gets the next OP_ID; while the pool refuses, it ends with ALARM. -/
def State.cphSubmit (s : State) (dom : Nat) (hdr : List Byte) : State × Nat :=
  let id := s.cph.nextId
  let st : CphSt := if s.flag CPH_ALARM_REFUSING then .ended cpALARM false else .queued
  (({ s with cph := { s.cph with ops := s.cph.ops ++ [⟨id, dom, hdr, st⟩], nextId := (id + 1) % 65536 } } : State), id)

/-- The operation header as firmware staged it. -/
def State.cphStaged (s : State) : List Byte := s.window (rCPH_OP 0) 32

/-- A write of CPH_CMD. -/
def State.writeCphCmd (s : State) : State :=
  if s.cphFull then s.put CPH_CMD_RESULT cpFULL
  else
    match s.cphSubmit 112 s.cphStaged with
    | (s1, id) => ((s1.put CPH_CMD_OP_ID id).put CPH_CMD_RESULT 1).cphDeliver

def execCipherSubmit (r : Requester) (s : State) : Host.Outcome State Fault Refusal :=
  .next (s.gated r rCPH_CMD State.writeCphCmd)

/-! ## Start (R224, R438, R440) -/

/-- The engine that runs an operation now. -/
def State.cphEngine (s : State) (n : Nat) : Bool :=
  s.cph.ops.any (fun op => match op.st with
    | .running x => x.engine == some n
    | _ => false)

/-- The lowest idle eligible AES engine; with one operation on each engine, an idle one has no queued block. -/
def State.cphFree (s : State) : Option Nat :=
  (List.range 64).find? (fun n => bitOf (s.fld64 PLC_CPH_MASK_LO_AE PLC_CPH_MASK_HI_AE) n && !s.cphEngine n)

/-- The eligible GHASH unit with the fewest queued blocks, the lowest of them. -/
def State.ghashLoad (s : State) (n : Nat) : Nat :=
  (s.cph.ops.map (fun op => match op.st with
    | .running x => if x.ghash = some n then x.blocks else 0
    | _ => 0)).sum
def State.ghashFree (s : State) : Option Nat :=
  let l := (List.range 8).filter (fun n => bitOf (s.fld PLC_GH_MASK_GH) n)
  l.find? (fun n => l.all (fun m => decide (s.ghashLoad n ≤ s.ghashLoad m)))

/-- An engine and a GHASH unit are there for a MACsec operation. -/
def State.msecServes (s : State) : Bool := s.cphFree.isSome && s.ghashFree.isSome

/-- Operations of some modes that run now. -/
def State.cphBusy (s : State) (p : CphHdr → Bool) : Nat := (s.cph.ops.filter (fun op => op.isRunning && p (cphHdr op.hdr))).length

/-- Whether an operation can start now: an engine for an AES mode, with a GHASH unit for GCM and GMAC; one of the 4 SHA-2 units, of the 2
ECC units, or the DRBG. -/
def State.cphReady (s : State) (op : CphOp) : Bool :=
  op.st == .queued &&
    (let h := cphHdr op.hdr
     if h.bad op.hdr then true
     else if h.aes then s.cphFree.isSome && (!h.gcm || s.ghashFree.isSome)
     else if h.sha then decide (s.cphBusy CphHdr.sha < 4)
     else if h.mode = 12 then decide (s.cphBusy (fun x => x.mode == 12) < 1)
     else decide (s.cphBusy (fun x => x.mode == 10 || x.mode == 11) < 2))

/-- The first operation that can start does. -/
def State.cphBegin (s : State) : State :=
  match s.cph.ops.find? s.cphReady with
  | none => s
  | some op =>
    let eng := if (cphHdr op.hdr).aes then s.cphFree else none
    let gh := if (cphHdr op.hdr).gcm then s.ghashFree else none
    match s.cphStart op eng gh with
    | .ended e _ => s.cphEnd op.id e
    | .running r =>
      (s.cphSet op.id (fun o => { o with st := .running r })).engineKeep eng gh (cphHdr op.hdr).slot r.gen r.version r.key
    | .queued => s

/-! ## Results (R437, R439, R442) -/

/-- What an operation gives at its commit: status, the bytes for DST, and the context it leaves. -/
structure CphOut where
  status : Nat
  dst : List Byte
  ctx : CphCtx
  deriving DecidableEq, Repr

/-- Whole blocks of a message but its last, and the last one. -/
def splitLast (m : List Byte) : List Byte × List Byte :=
  let n := if m.length = 0 then 0 else (m.length - 1) / 16 * 16
  (m.take n, m.drop n)

/-- GCM and GMAC. -/
def cphGcm (h : CphHdr) (x : CphCtx) (key aad data tagIn : List Byte) : CphOut :=
  let iv := x.chain.take 12
  let acc0 := if x.atJ0 ∧ 0 < x.aad then cryptoBytes .ghashResume [key, iv, leBytes 8 x.aad] 16
    else if x.atJ0 then List.replicate 16 0 else x.acc
  let out := cryptoBytes .gcm [key, x.chain, data] data.length
  let acc := cryptoBytes .ghash [key, acc0, aad, if h.dir then data else out] 16
  let y : CphCtx := { x with
    chain := ctrAdd x.chain ((data.length + 15) / 16)
    acc := acc
    aad := x.aad + aad.length
    data := x.data + data.length
    started := x.started || !data.isEmpty
    atJ0 := false }
  let tag := cryptoBytes .gcmTag [key, iv, acc, leBytes 8 y.aad, leBytes 8 y.data] x.tag
  if h.final = false then ⟨cpOK, out, y⟩
  else if h.dir = false then ⟨cpOK, out ++ tag, y⟩
  else if tagIn.take x.tag = tag then ⟨cpOK, out, y⟩
  else ⟨cpTAG, List.replicate data.length 0, y⟩

/-- CMAC: the last block is held until the end is known. -/
def cphCmac (h : CphHdr) (x : CphCtx) (key data : List Byte) : CphOut :=
  let m := (if x.data = 0 then [] else x.acc) ++ data
  let p := splitLast m
  let chain := cryptoBytes .cmacChain [key, x.chain, p.1] 16
  let y : CphCtx := { x with chain := chain, acc := p.2, data := x.data + data.length }
  if h.final then ⟨cpOK, cryptoBytes .cmacTag [key, chain, p.2] x.tag, y⟩ else ⟨cpOK, [], y⟩

/-- SHA-256 and SHA-384. -/
def cphSha (h : CphHdr) (x : CphCtx) (data : List Byte) : CphOut :=
  let big := h.mode == 9
  if h.final then
    ⟨cpOK, cryptoBytes (.shaFinal big) [x.hash, data, leBytes 8 (x.data + data.length)] (if big then 48 else 32),
      { x with data := x.data + data.length }⟩
  else
    ⟨cpOK, [], { x with
      hash := cryptoBytes (.shaBlocks big) [x.hash, data] (if big then 64 else 32)
      data := x.data + data.length }⟩

/-- The result of an operation from its input. -/
def State.cphResult (s : State) (op : CphOp) (r : CphRun) : State × CphOut :=
  let h := cphHdr op.hdr
  let x := r.ctx
  let inp (off n : Nat) : List Byte := s.cphRead op.domain (h.src + off) n
  let data := inp h.alen h.dlen
  let more (chain : List Byte) : CphCtx := { x with chain := chain, data := x.data + data.length }
  match h.mode with
  | 1 => (s, ⟨cpOK, cryptoBytes (.ecb h.dir) [r.key, data] data.length, more x.chain⟩)
  | 2 =>
    let out := cryptoBytes (.cbc h.dir) [r.key, x.chain, data] data.length
    (s, ⟨cpOK, out, more ((if h.dir then data else out).drop (data.length - 16))⟩)
  | 3 =>
    (s, ⟨cpOK, cryptoBytes .ctr [r.key, x.chain, data] data.length, more (ctrAdd x.chain ((data.length + 15) / 16))⟩)
  | 4 => (s, cphGcm h x r.key (inp 0 h.alen) data (inp (h.alen + h.dlen) x.tag))
  | 5 => (s, cphGcm h x r.key (inp 0 h.alen) [] (inp h.alen x.tag))
  | 6 => (s, cphCmac h x r.key data)
  | 7 =>
    if h.dir then
      match unwrapKey r.key data with
      | some k => (s, ⟨cpOK, k, x⟩)
      | none => (s, ⟨cpUNWRAP, [], x⟩)
    else (s, ⟨cpOK, wrapKey r.key data, x⟩)
  | 8 => (s, cphSha h x data)
  | 9 => (s, cphSha h x data)
  | 12 =>
    match s.random h.dlen with
    | (s1, b) => (s1, ⟨cpOK, b, x⟩)
  | _ =>
    let big := h.mode == 11
    if h.dir then
      if ecVerify big r.key data (inp h.dlen (2 * ecLen big)) then (s, ⟨cpOK, [], x⟩) else (s, ⟨cpSIG, [], x⟩)
    else
      match s.random (ecLen big) with
      | (s1, nonce) => (s1, ⟨cpOK, ecSign big r.key data nonce, x⟩)

/-- A context written at CTX, clear or wrapped under slot 6 with its 32 bytes of subkeys (R442, R443). -/
def State.cphSave (s : State) (op : CphOp) (r : CphRun) (x : CphCtx) : State :=
  let h := cphHdr op.hdr
  let b := x.clear h op.domain r.gen r.version
  if h.wrapped then
    match s.cphWrapKey with
    | some k =>
      let sub := if h.gcm ∨ h.mode = 6 then subkeysOf r.key (if h.gcm then 4 else h.mode) else List.replicate 32 0
      s.cphWrite op.domain h.ctx (ascii [0x4B, 0x51, 0x43, 0x57] ++ [1, BitVec.ofNat 8 h.mode, 0, 0] ++ wrapKey k (b ++ sub))
    | none => s
  else s.cphWrite op.domain h.ctx b

/-- A running operation commits: output, context and status in one step (R447). -/
def State.cphCommit (s : State) (op : CphOp) (r : CphRun) : State :=
  match s.cphResult op r with
  | (s1, o) =>
    let h := cphHdr op.hdr
    let s2 := s1.cphWrite op.domain h.dst o.dst
    (if h.save = true ∧ o.status = cpOK then s2.cphSave op r o.ctx else s2).cphEnd op.id o.status

def execCipherOpCommit (op : Nat) (s : State) : Host.Outcome State Fault Refusal :=
  .next (match s.cph.ops.find? (fun x => x.id == op) with
    | some x => (match x.st with
      | .running r => s.cphCommit x r
      | _ => s)
    | none => s)

/-! ## Aborts and alarms (R447, R448) -/

/-- Bytes that an operation writes to DST at most. -/
def CphHdr.outLen (h : CphHdr) : Nat :=
  let once (n : Nat) : Nat := if h.final = true ∧ h.dir = false then n else 0
  match h.mode with
  | 4 => h.dlen + once h.tlen
  | 5 => once h.tlen
  | 6 => once h.tlen
  | 7 => if h.dir then h.dlen - 8 else h.dlen + 8
  | 8 => once 32
  | 9 => once 48
  | 10 => once 64
  | 11 => once 96
  | _ => h.dlen

/-- Bytes of DST that an uncommitted operation had written, and how many is open, are zeroed (log 6). -/
def State.cphZero (s : State) (op : CphOp) : State :=
  let h := cphHdr op.hdr
  if op.isRunning then
    match s.fresh with
    | (s1, v) => s1.cphWrite op.domain h.dst (List.replicate (v % (h.outLen + 1)) 0)
  else s

/-- An abort of an operation of a domain: done, ALREADY_DONE or NOT_FOUND. -/
def State.cphAbort (s : State) (dom id : Nat) : State × Nat :=
  match s.cph.ops.find? (fun x => x.id == id && x.domain == dom) with
  | none =>
    -- Firmware's completions still in the FIFO were committed.
    (s, if dom = 112 ∧ s.cph.cpl.any (fun e => e.1 == id) then cpDONE else cpNOTFOUND)
  | some op =>
    if op.held then ((s.cphZero op).cphEnd op.id cpABORTED, 0x02) else (s, cpDONE)

/-- A write of CPH_ABORT. -/
def State.writeCphAbort (s : State) (op : Nat) : State :=
  match s.cphAbort 112 (op % 65536) with
  | (s1, res) => s1.put CPH_ABORT_RESULT res

def execCipherAbort (r : Requester) (op : Nat) (s : State) : Host.Outcome State Fault Refusal :=
  .next (s.gated r rCPH_ABORT (fun s => s.writeCphAbort op))

/-- An alarm erases the pool: every queued and running operation ends with ALARM, and new ones are refused. -/
def State.cphAlarm (s : State) (cause : Nat) : State :=
  let s1 := (s.cph.ops.filter CphOp.held).foldl (fun s op => (s.cphZero op).cphSet op.id (fun o =>
    { o with st := .ended cpALARM false })) s.engineErase
  let s2 := s1.put CPH_ALARM_CAUSE (setBits (s1.fld CPH_ALARM_CAUSE) cause 1 1)
  ((s2.put CPH_ALARM_REFUSING 1).setFlag CPH_EVT_ALARM).cphDeliver

/-- ALARM_CLR written 1 ends the refusal once no alarm is active. -/
def State.writeAlarmClr (s : State) : State :=
  if s.fld RAS_ALARM_ACTIVE = 0 then s.put CPH_ALARM_REFUSING 0 else s

def execAlarmClr (r : Requester) (s : State) : Host.Outcome State Fault Refusal :=
  .next (s.gated r rCPH_CTL State.writeAlarmClr)

/-- A write of CPH_CPL_POP: the head entry leaves, and a completion that waited enters. -/
def State.popCpl (s : State) : State := ({ s with cph := { s.cph with cpl := s.cph.cpl.drop 1 } } : State).cphDeliver

end Sys2Proof.Machine
end

