-- ==== Sys2Proof/Machine/FramePath.lean ====
section
/-! DEFINITION. The path of a frame through a plane: placement and allocation, classification with parking, the parse
error action, fragments, policing, exceptions and admission (R10–R15, R105, R106, R119–R121, R127–R129, R163–R166,
R203–R204, R398–R406). -/

namespace Sys2Proof.Machine

/-! ## Limiters (R128, R130, R405) -/

/-- A token of the exception limiter, in the LEAD plane's half; false when the frame or copy is dropped. -/
def State.excToken (s : State) : State × Bool :=
  let l := s.lead
  let t := s.fld (PRS_EXC_LEVEL_TOKENS l)
  if s.fld (PRS_EXC_RATE_RATE l) = 0 ∨ t = 0 then
    ((s.inc (PRS_EXC_LIMIT_DROP_CNT_VAL l)).setFlag (PRS_EVT_EXC_LIMIT l), false)
  else (s.put (PRS_EXC_LEVEL_TOKENS l) (t - 1), true)

/-- A token of the IF4 limiter. -/
def State.if4Token (s : State) : State × Bool :=
  if s.fld FWL_EXC_RATE_RATE = 0 ∨ s.if4Tokens = 0 then ((s.inc FWL_EXC_DROP_CNT_VAL).setFlag FWL_EVT_EXC_DROP, false)
  else ({ s with if4Tokens := s.if4Tokens - 1 }, true)

/-- A FOLLOW plane's copy for IF0 or IF4 crosses into a new buffer of the LEAD plane, whose replication requester writes it
(R129): one of the copies that COPIES_CNT counts. -/
def State.crossCopy (s : State) (f : Frame) (d : Dest) : State :=
  let l := s.lead
  let crit := match f.stream with
    | some i => s.crit.contains i
    | none => false
  match s.alloc l f.bytes.length crit with
  | (s1, none) => s1.copyDrop l d.port
  | (s1, some h) => (s1.inc (BPM_COPIES_CNT_VAL l)).admission { f with plane := l, pool := h.1, buf := h.2, twinned := false } [d]

/-- One copy for IF0 or IF4: the token taken and the destination in this plane, or the copy crossed or dropped. The
FOLLOW copy of a twinned frame is passed over (R129). -/
def State.exceptionCopy (s : State) (f : Frame) (d : Dest) (token : State → State × Bool) : State × List Dest :=
  if f.twinned = true ∧ f.plane ≠ s.lead then (s, [])
  else
    match token s with
    | (s1, false) => (s1, [])
    | (s1, true) => if f.plane = s1.lead then (s1, [d]) else (s1.crossCopy f d, [])

/-- A destination put at its place in ascending port number. -/
def destInsert (d : Dest) : List Dest → List Dest
  | [] => [d]
  | e :: t => if d.port < e.port then d :: e :: t else e :: destInsert d t

/-! ## Management frames (R499) -/

/-- MGMT_ETYPE of TENANTQ. -/
def State.mgmtType (s : State) : Nat := secBe16 s.active tyTENANTQ 0

/-- An Ethernet frame whose EtherType, behind its VLAN tag if it has one, is MGMT_ETYPE. -/
def State.isMgmt (s : State) (f : Frame) : Bool :=
  !f.legacy && s.mgmtType != 0 &&
    (be16 f.bytes 12 == s.mgmtType || (be16 f.bytes 12 == 0x8100 && be16 f.bytes 16 == s.mgmtType))

/-! ## After classification -/

/-- The copy that counts what a frame counts once: the home copy, or the other one when the home copy was lost. -/
def Frame.primary (f : Frame) : Bool := decide (f.plane = f.home) || !f.both

/-- LOAD of the frame's bucket, and its CRIT bit (R182, R203). -/
def State.countLoad (s : State) (f : Frame) (crit : Bool) : State :=
  let b := s.bkt f.bucket
  if crit then (s.setBkt f.bucket { b with critSeen := true }).put (PLC_BUCKET_CRIT f.bucket) 1
  else if f.primary then s.setBkt f.bucket { b with acc := b.acc + f.bytes.length } else s

/-- The ingress capture point, once per received frame (R195, log 24). -/
def State.captureIn (s : State) (f : Frame) : State :=
  if f.primary then s.capture 0 (pcodeOf f) f.inPort f.bytes f.fragOuter 0 f.stream f.tc f.ts else s

/-- The frame sent where its decision and the firewall left it; `ports` are the destinations allowed, `lost` says that
the firewall removed them all, `cause` is that of an IF4 copy. -/
def State.dispatch (s : State) (f : Frame) (d : Decision) (ports : List Nat) (lost : Bool)
    (cause : Option (Nat × Nat × Nat)) : State :=
  let plain := ports.map (fun p => (⟨p, RxMeta.plain, d.multi⟩ : Dest))
  let none0 := d.action ≠ 5 ∧ ports = [] ∧ lost = false ∧ ¬ (d.action = 4 ∨ 7 ≤ d.action)
  let s0 := if none0 then s.inc (BPM_ADMIT_DROP_CNT_VAL f.plane) else s
  let e := if d.action = 5 then s0.exceptionCopy f ⟨80, ⟨3, []⟩, false⟩ State.excToken
    else if d.action = 6 then s0.exceptionCopy f ⟨80, ⟨4, []⟩, true⟩ State.excToken else (s0, [])
  let i := match cause with
    | some c => e.1.exceptionCopy f ⟨84, ⟨0, s.if4Meta f d c⟩, true⟩ State.if4Token
    | none => (e.1, [])
  let ds := (e.2 ++ i.2).foldl (fun l x => destInsert x l) plain
  let why := if lost then 0x08 else if d.action = 4 ∨ 7 ≤ d.action then 0x0D else if d.action = 5 then 0 else 0x0E
  if ports = [] then
    -- No destination of its own: the drop point sees the frame, and only exception copies go on.
    let s1 := if why = 0 then i.1
      else i.1.capture 2 (planeBit f.plane) f.inPort f.bytes f.fragOuter why f.stream f.tc i.1.stamp
    if ds = [] then s1.release f else s1.admission f ds
  else i.1.admission f ds

/-- A classified copy that goes on: fragments, learning, numbering, policing, the firewall's traces and admission. -/
def State.decided (s : State) (f0 : Frame) (w : Walk) (d : Decision) (stored : Option FragEntry) : State :=
  let pl := f0.plane
  let crit := s.isCrit d
  let f := s.applyDecision f0 d
  let s1 := (s.countLoad f crit).captureIn f
  let ports := match stored with
    | some e => e.kept
    | none => s1.fwdPorts pl f d
  let rs := match stored with
    | some _ => []
    | none => ports.map (s1.fwJudge pl f w d d.multi)
  let kept := match stored with
    | some e => e.kept
    | none => (rs.filter (fun r => r.allowed)).map (fun r => r.port)
  let cause := match stored with
    | some e => e.cause
    | none => fwCause rs
  let lost := kept = [] ∧ (rs ≠ [] ∨ (stored.isSome = true ∧ s1.fwdPorts pl f d ≠ []))
  let s2 := if w.frag ∧ w.fragFirst ∧ stored.isNone then
      s1.fragInsert pl ⟨w.fragKey, { d with fixq := some f.qidx, tc := some f.tc }, kept, cause⟩ else s1
  let s3 := if s2.learns pl f (decide lost) then s2.learnLook pl f else s2
  match s3.genNumber f with
  | (s4, g) =>
    match s4.police { f with genSeq := g } with
    | (s5, none) => s5
    | (s5, some f1) =>
      let s6 := rs.foldl (fun s r => s.fwTrace pl f1 w d f1.primary r) s5
      s6.leaveEra.dispatch f1 d kept (decide lost) cause

/-- A parse error: counted, recorded, and the action of PARSEGRAPH taken (R105, R106). -/
def State.parseError (s : State) (f0 : Frame) (e : Nat × Nat × Nat) : State :=
  let pl := f0.plane
  let f := { f0 with tc := s.defaultTc f0 }
  let len := decide (e.1 = 2)
  let s1 := (s.inc (if len then PRS_PARSE_LEN_CNT_VAL pl else PRS_PARSE_DEPTH_CNT_VAL pl)).setFlag (PRS_EVT_PARSE_ERR pl)
  let s2 := if s.flag (PRS_LAST_ERR_VALID pl) then s1
    else (((((s1.put (PRS_LAST_ERR_VALID pl) 1).put (PRS_LAST_ERR_CODE pl) e.1).put (PRS_LAST_ERR_NODE pl) e.2.1).put
      (PRS_LAST_ERR_HEADERS pl) e.2.2).put (PRS_LAST_ERR_HDR_TYPE pl) (ndB s.active e.2.1 1)).put (PRS_LAST_ERR_PORT pl)
      f.inPort
  let discard := sec8 s.active tyPARSEGRAPH (if len then 5 else 4)
  let s3 := ((s2.countLoad f false).captureIn f).leaveEra
  if discard % 2 = 1 then
    (s3.inc (PRS_PARSE_DROP_CNT_VAL pl)).drop f 0x07
  else
    match s3.exceptionCopy f ⟨80, ⟨e.1, []⟩, false⟩ State.excToken with
    | (s4, []) => s4.release f
    | (s4, ds) => s4.admission f ds

/-! ## Classification with parking -/

/-- Counters that a copy outside its home plane advances only once it proves critical (R14). -/
def quietFlds (pl : Plane) : List Fld :=
  [PRS_FRAG_HIT_CNT_VAL pl, PRS_FRAG_OUTER_CNT_VAL pl, TBL_PARK_CNT_VAL pl, TBL_PAGE_BUSY_CNT_VAL pl,
    TBL_PAGE_NOFRAME_CNT_VAL pl, TBL_PAGE_ERR_CNT_VAL pl, TBL_REHASH_PROBE_CNT_VAL pl, TBL_PAR_ERR_CNT_VAL pl]

/-- What those counters gained since `s0`, and the counters as they were. -/
def State.tallied (s0 s1 : State) (pl : Plane) : List Nat :=
  (quietFlds pl).map (fun f => (s1.fld f + 2 ^ 32 - s0.fld f) % 2 ^ 32)
def State.quiet (s0 s1 : State) (pl : Plane) : State := (quietFlds pl).foldl (fun s f => s.put f (s0.fld f)) s1

/-- A tally counted, and two tallies added. -/
def State.countTally (s : State) (pl : Plane) (t : List Nat) : State :=
  ((quietFlds pl).zip t).foldl (fun s e => s.addCnt e.1 e.2) s
def addTally (a b : List Nat) : List Nat := if a = [] then b else (a.zip b).map (fun e => e.1 + e.2)

/-- The translation lookup that the copy in the original buffer makes at admission: the channel, when its first destination is a CN
port. -/
def firstCan (f : Frame) (ports : List Nat) : Option Nat :=
  match ports with
  | p :: _ => if canBound f p then some (p - 32) else none
  | [] => none

/-- The stages from `k` on, the reply lookup of the firewall (stage 4) and the translation lookup of the copy in the original buffer (stage
5), or where the frame parks. -/
def State.classifyFrom (s : State) (f : Frame) (w : Walk) (k : Nat) (hits : Tab Nat) : State × Tab Nat × Option ParkAt :=
  let pl := f.plane
  match s.stagesFrom pl f w (4 - k) k hits with
  | (s1, h, some p) => (s1, h, some p)
  | (s1, h, none) =>
    let d := decide113 s1.active w.profile h
    let ports := s1.fwdPorts pl f d
    let read (s : State) (stage : Nat) (x : Option (Nat × List Nat)) : State × Option ParkAt :=
      match x with
      | none => (s, none)
      | some (ri, pgs) =>
        match s.parkRefused pl ri pgs with
        | some s2 => (s2, none)
        | none => (s, some ⟨stage, ri, pgs⟩)
    match read s1 4 (s1.fwPages pl f w d.multi ports) with
    | (s2, some p) => (s2, h, some p)
    | (s2, none) =>
      match read s2 5 ((firstCan f ports).bind (s2.xlatePages f)) with
      | (s3, p) => (s3, h, p)

/-- A management frame after classification is never forwarded: the LEAD plane's copy waits for the in-band engine, the other one goes,
and is counted as dropped when it was the only one (R18, R499). -/
def State.mgmtHeld (s : State) (f0 : Frame) (d : Decision) : State :=
  let f := s.applyDecision f0 d
  let s1 := (s.countLoad f false).captureIn f
  if f.plane = s.lead then s1.setPlane f.plane { s1.plane f.plane with mgmt := (s1.plane f.plane).mgmt ++ [f] }
  else (if f.both then s1 else s1.inc HST_INBAND_DROP_CNT_VAL).release f

/-- A copy whose classification is complete goes on, or is discarded when it is not critical and not at home (R14). -/
def State.conclude (s0 s1 : State) (f : Frame) (w : Walk) (d : Decision) (stored : Option FragEntry) (tally : List Nat) :
    State :=
  let pl := f.plane
  if s1.isMgmt f then (if pl = f.home then s1 else s0.quiet s1 pl).mgmtHeld f d
  else if pl = f.home then s1.decided f w d stored
  else if s1.isCrit d then (s1.countTally pl tally).decided f w d stored
  else (s0.quiet s1 pl).release f

/-- A copy classified from stage `k` on, under the chart that `active` holds: the state, and the parked frame when pages are missing. -/
def State.runCopyNow (s : State) (f : Frame) (k : Nat) (hits : Tab Nat) (tally : List Nat) : State × Option Parked :=
  let pl := f.plane
  let w := parseFrame s.active f.inPort f.legacy f.bytes
  match w.err with
  | some e => (if pl = f.home then s.parseError f e else s.release f, none)
  | none =>
    let later := w.frag && !w.fragFirst
    let found := if later && !f.fragOuter then (s.plane pl).frags.find? (fun e => e.key == w.fragKey) else none
    match found with
    | some e => (s.conclude (s.inc (PRS_FRAG_HIT_CNT_VAL pl)) f w e.dec (some e) tally, none)
    | none =>
      let outer := later && !f.fragOuter
      let g := { f with fragOuter := f.fragOuter || later }
      let s1 := if outer then s.inc (PRS_FRAG_OUTER_CNT_VAL pl) else s
      match s1.classifyFrom g w k hits with
      | (s2, h, none) => (s.conclude s2 g w (decide113 s2.active w.profile h) none tally, none)
      | (s2, h, some p) =>
        let s3 := (s2.inc (TBL_PARK_CNT_VAL pl)).startReads pl p.region p.pages
        let t := if pl = f.home then [] else addTally tally (s.tallied s3 pl)
        let s4 := if pl = f.home then s3 else s.quiet s3 pl
        (s4, some ⟨g, p.stage, h, p.pages.map (fun x => (p.region, x)), t⟩)

/-- A copy classified from stage `k` on, under the chart of its era (R58). -/
def State.runCopy (s : State) (f : Frame) (k : Nat) (hits : Tab Nat) (tally : List Nat) : State × Option Parked :=
  match (s.enterEra f.era).runCopyNow f k hits tally with
  | (s1, p) => (s1.leaveEra, p)

/-- A frame parked at the end of the line. -/
def State.park (s : State) (pl : Plane) (x : Parked) : State :=
  s.setPlane pl { s.plane pl with parked := (s.plane pl).parked ++ [x] }

/-- A parked frame comes before another in a plane: an earlier one of the same placement bucket in the same plane (R164), or an earlier
one of the same ingress port in either plane (R185). -/
def blocksFrame (f : Frame) (p : Parked) : Bool :=
  let g := p.frame
  decide ((f.no + 2 ^ 64 - g.no) % 2 ^ 64 < 2 ^ 63) && g.no != f.no &&
    ((g.plane == f.plane && g.bucket == f.bucket) || g.inPort == f.inPort)

/-- Every frame parked in a plane. -/
def State.allParked (s : State) : List Parked := s.planeA.parked ++ s.planeB.parked

/-- The lookups of a frame that waits behind another begin no stage before its turn, but the page reads that its first missing page needs
start at once, counted as a parked lookup (R164). -/
def State.readAhead (s : State) (f : Frame) : State :=
  let pl := f.plane
  let e := s.enterEra f.era
  let w := parseFrame e.active f.inPort f.legacy f.bytes
  let later := w.frag && !w.fragFirst
  let known := later && (e.plane pl).frags.any (fun x => x.key == w.fragKey)
  let g := { f with fragOuter := f.fragOuter || later }
  match w.err, known, (e.classifyFrom g w 0 []).2.2 with
  | none, false, some p =>
    let s1 := s.startReads pl p.region p.pages
    if pl = f.home then s1.inc (TBL_PARK_CNT_VAL pl) else s1
  | _, _, _ => s

/-- A copy that arrives in its plane: behind an earlier parked frame it parks too, and its page reads start (R164, R165, R185). With 4 096
frames parked already it is classified at once (log 85). -/
def State.arrive (s : State) (f : Frame) : State :=
  let pl := f.plane
  if s.allParked.any (blocksFrame f) && decide ((s.plane pl).parked.length < 4096) then
    (s.readAhead f).park pl ⟨f, 0, [], [], []⟩
  else
    match s.runCopy f 0 [] [] with
    | (s1, none) => s1
    | (s1, some p) => s1.park pl p

/-- The first frame parked in a plane that may resume: its pages are there and no earlier frame holds it back. -/
def readyParked (all : List Parked) : List Parked → Nat → Option (Nat × Parked)
  | [], _ => none
  | p :: t, i => if p.pages = [] ∧ all.any (blocksFrame p.frame) = false then some (i, p) else readyParked all t (i + 1)

/-- A parked frame of a plane resumes; false when none may. -/
def State.resumeOne (s : State) (pl : Plane) : State × Bool :=
  match readyParked s.allParked (s.plane pl).parked 0 with
  | none => (s, false)
  | some (i, p) =>
    let s1 := s.setPlane pl { s.plane pl with parked := (s.plane pl).parked.eraseIdx i }
    match s1.runCopy p.frame p.stage p.hits p.tally with
    | (s2, none) => (s2, true)
    | (s2, some q) =>
      let l := (s2.plane pl).parked
      (s2.setPlane pl { s2.plane pl with parked := l.take i ++ [q] ++ l.drop i }, true)

/-- Parked frames released in the order of their arrival (R163, R164). -/
def State.resumeParked (s : State) : Nat → State
  | 0 => s
  | fuel + 1 =>
    match s.resumeOne .A with
    | (s1, true) => s1.resumeParked fuel
    | (s1, false) =>
      match s1.resumeOne .B with
      | (s2, true) => s2.resumeParked fuel
      | (s2, false) => s2

/-- Every parked frame that may go on does. -/
def State.resumeAll (s : State) : State := s.resumeParked (6 * s.allParked.length)

/-- Spare page frames kept in a region: the clock hand evicts until SPARE frames hold no page or only pinned ones remain
(R226). -/
def State.keepSpare (s : State) (pl : Plane) (ri : Nat) : Nat → State
  | 0 => s
  | fuel + 1 =>
    match (s.plane pl).region ri with
    | none => s
    | some r =>
      let n := r.onchip / 16
      if s.fld PLC_PAGE_CFG_SPARE ≤ n - r.frames.length then s
      else
        match clockHand s.lpddr ri (2 * n + 1) (s.plane pl) with
        | (p, some f) => ((s.setPlane pl p).evict pl ri f).keepSpare pl ri fuel
        | (p, none) => s.setPlane pl p

/-- Spare page frames kept in every pageable region of both planes. -/
def State.keepSpares (s : State) : State :=
  [Plane.A, Plane.B].foldl (fun s pl => ((s.plane pl).regions.zipIdx.filter (fun x => x.1.pageable)).foldl (fun s x =>
    s.keepSpare pl x.2 256) s) s

/-- A page read ends: the page takes a frame of its region, every bucket verified, and the frames that waited for it
resume (R162–R168). -/
def execPageReadComplete (pl : Plane) (region page : Nat) (s : State) : Host.Outcome State Fault Refusal :=
  .next (
    let x := s.plane pl
    if x.pageReads.contains (region, page) = false then s
    else
      let s1 := s.setPlane pl { x with
        pageReads := x.pageReads.filter (fun e => decide (e ≠ (region, page)))
        parked := x.parked.map (fun p => { p with pages := p.pages.filter (fun e => decide (e ≠ (region, page))) }) }
      let s2 := match s1.takeFrame pl region with
        | (s2, some fr) => s2.loadPage pl region fr page
        | (s2, none) => s2
      s2.resumeAll.keepSpare pl region 256)

/-! ## Entry into the core (R12–R14) -/

/-- Planes that accept ingress, LEAD first (R14, R64). -/
def State.openPlanes (s : State) : List Plane := if s.pwr.sleep = 0 then [s.lead, twinOf s.lead].filter s.accepts else []

/-- A buffer of a plane for a frame that enters at a port. Frames of the management cluster and those that the cipher pool returns have
requesters of their own (R181). -/
def State.entryBuf (s : State) (pl : Plane) (port tc : Nat) (bytes : List Byte) (crit : Bool) : State × Option (Nat × Nat) :=
  if port = 80 ∨ port = 81 then s.alloc pl bytes.length false else s.allocIngress pl port tc bytes crit

/-- Buffers in each of the planes given. -/
def State.entryBufs (s : State) (port tc : Nat) (bytes : List Byte) (crit : Bool) : List Plane → State × List (Plane × Nat × Nat)
  | [] => (s, [])
  | pl :: t =>
    match s.entryBuf pl port tc bytes crit with
    | (s1, none) => s1.entryBufs port tc bytes crit t
    | (s1, some h) =>
      match s1.entryBufs port tc bytes crit t with
      | (s2, l) => (s2, (pl, h) :: l)

/-- A frame written to the planes: bucket and sequence number, and a buffer in each plane that accepts ingress. None when
every plane refused its buffer: the frame is lost and nothing else is counted for it (R12, R176, R184). -/
def State.hold (s : State) (port : Nat) (legacy : Bool) (bytes : List Byte) (ts : List TbTime) (age : Nat) (tx : Option TxTsReq) :
    State × Option (List Frame) :=
  let planes := s.openPlanes
  if planes = [] then (s, some [])
  else
    let h := spreadHash s.active port legacy bytes
    let b := h % 65536
    let k := s.bkt b
    let home := if s.accepts k.plane then k.plane else planes.headD k.plane
    let s1 : State := { s.setBkt b { k with seq := (k.seq + 1) % 65536 } with rxNo := (s.rxNo + 1) % 2 ^ 64 }
    match s1.entryBufs port (s.portTc port legacy bytes) bytes (s.flag (PLC_BUCKET_CRIT b)) planes with
    | (s2, []) => (s2, none)
    | (s2, got) =>
      let both := decide (2 ≤ got.length)
      let mk (e : Plane × Nat × Nat) : Frame :=
        { bytes := bytes, legacy := legacy, inPort := port, ts := ts, rxMode := s.portMode port, bucket := b, seq := k.seq,
          qidx := bits h 16 7, home := home, plane := e.1, both := both, twinned := false, stream := none, tc := 0, pool := e.2.1,
          buf := e.2.2, fragOuter := false, ring := 0, genSeq := none, txReq := tx, rx := RxMeta.plain,
          secure := false, era := s.eraAt age, no := s.rxNo }
      (s2, some (got.map mk))

/-- The copies of a frame go on to classification. -/
def State.arriveAll (s : State) (fs : List Frame) : State := fs.foldl (fun s f => s.arrive f) s

/-- The copies of a frame return their buffers. -/
def State.releaseAll (s : State) (fs : List Frame) : State := fs.foldl (fun s f => s.release f) s

/-- A whole frame that passed its check enters the core, its ingress timestamp taken `age` ns ago. False when no plane stored it. -/
def State.receive (s : State) (port : Nat) (legacy : Bool) (bytes : List Byte) (ts : List TbTime) (age : Nat)
    (tx : Option TxTsReq) : State × Bool :=
  match s.hold port legacy bytes ts age tx with
  | (s1, none) => (s1, false)
  | (s1, some fs) => (s1.arriveAll fs, !fs.isEmpty)

end Sys2Proof.Machine
end

