-- ==== Sys2Proof/Machine/Exceptions.lean ====
section
/-! DEFINITION. The register writes of the exception limiter and of the capture engine (R130, R199). -/

namespace Sys2Proof.Machine

/-- A value kept within bounds. -/
def clampN (lo hi v : Nat) : Nat := max lo (min v hi)

/-- The limiter's bucket filled to the burst in force, with no fraction (R130). -/
def State.excFill (s : State) : State :=
  let n := s.fld (PRS_EXC_BURST_BURST .A)
  let s1 := (s.put (PRS_EXC_LEVEL_TOKENS .A) n).put (PRS_EXC_LEVEL_TOKENS .B) n
  { s1 with frac := tabSet 0 s1.frac (rPRS_EXC_LEVEL .A) 0 }

/-- RATE or BURST of the exception limiter written in both halves. -/
def State.writeExc (s : State) (burst : Bool) (v : Nat) : State :=
  let s1 := if burst then s.putBoth PRS_EXC_BURST_BURST (clampN 1 4096 (v % 8192))
    else s.putBoth PRS_EXC_RATE_RATE (min (v % 2 ^ 20) 1000000)
  s1.excFill

def execExcLimiterWrite (r : Requester) (burst : Bool) (v : Nat) (s : State) : Host.Outcome State Fault Refusal :=
  .next (s.gated r (if burst then rPRS_EXC_BURST .A else rPRS_EXC_RATE .A) (fun s => s.writeExc burst v))

/-- CAP_CTL written: ENABLE always, the rest while capture is off; a changed TARGET puts HEAD at 0 (R199). -/
def State.writeCapCtl (s : State) (v : Nat) : State :=
  let s1 := if s.flag CAP_CTL_ENABLE then s
    else
      let tgt := if bitOf v 2 ∧ s.fld CAP_AREA_SIZE_SIZE = 0 then s.fld CAP_CTL_TARGET else bits v 2 1
      let s0 := ((s.put CAP_CTL_TB (bits v 4 2)).put CAP_CTL_MODE (bits v 1 1)).put CAP_CTL_TARGET tgt
      if tgt = s.fld CAP_CTL_TARGET then s0 else s0.put CAP_HEAD_HEAD 0
  s1.put CAP_CTL_ENABLE v

def execCapCtlWrite (r : Requester) (v : Nat) (s : State) : Host.Outcome State Fault Refusal :=
  .next (s.gated r rCAP_CTL (fun s => s.writeCapCtl v))

/-- CAP_TAIL written, but for RING mode while capture is on (R199). -/
def State.writeCapTail (s : State) (v : Nat) : State :=
  if s.flag CAP_CTL_MODE ∧ s.flag CAP_CTL_ENABLE then s else s.put CAP_TAIL_TAIL (v / 16 * 16)

def execCapTailWrite (r : Requester) (v : Nat) (s : State) : Host.Outcome State Fault Refusal :=
  .next (s.gated r rCAP_TAIL (fun s => s.writeCapTail v))

end Sys2Proof.Machine
end

