-- ==== Sys2Proof/Machine/Time.lean ====
section
/-! DEFINITION. The time bases, snapshots and steps, path-delay correction, one-step insertion, the timestamp FIFO and the
PPS pins (R256–R276, R532). -/

namespace Sys2Proof.Machine

/-! ## Ticks (R256–R261) -/

/-- A time base changed. -/
def State.setTb (s : State) (n : Nat) (t : TimeBase) : State := { s with tbs := s.tbs.set n t }

/-- What the tick `k` remembers of a time base at `now`, to which it added `rate` if it ran: nothing when the last segment goes on. -/
def TimeBase.note (t : TimeBase) (k : Nat) (now : TbTime) (rate : Nat) (run : Bool) : List TbSeg :=
  let g := t.segAt k
  if t.past ≠ [] ∧ g.run = run ∧ t.valueAt k = now then t.past else ⟨k, now, rate, run⟩ :: t.past

/-- Tick `k` of a running or held time base. A step sets the value and adds nothing; a committed increment is in use after the tick
(R258–R260). -/
def TimeBase.tick (t : TimeBase) (run : Bool) (step : Option (Nat × Nat)) (k : Nat) : TimeBase :=
  let inc := t.incNs * 2 ^ 32 + t.incFrac
  let now : TbTime := match step with
    | some (sec, ns) => ⟨sec, ns, 0⟩
    | none => if run then t.now.plus inc else t.now
  let next := t.commitInc.getD (t.incNs, t.incFrac)
  ⟨now, next.1, next.2, none, false, false, step.isSome, t.note k now (if run then inc else 0) run⟩

/-- The step that a time base takes at this tick: the step registers as they stand; a NS out of range refuses it (R259, log 38). -/
def State.stepAt (s : State) (n : Nat) : Option (Nat × Nat) :=
  let ns := s.fld (TIM_TB_STEP_NS_NS n)
  if (s.tb n).step ∧ ns < 1000000000 then some (s.fld64 (TIM_TB_STEP_SEC_LO_SEC n) (TIM_TB_STEP_SEC_HI_SEC n), ns) else none

/-- A tick of one time base with what it leaves in the registers. -/
def State.tickTb (s : State) (n : Nat) : State :=
  let t := s.tb n
  let u := t.tick (s.tbRuns n) (s.stepAt n) s.ticks
  let s1 := s.setTb n u
  let s2 := if t.commitInc.isSome then s1.put (TIM_TB_INC_NS_NS n) u.incNs else s1
  let s3 := if u.stepped then s2.put (TIM_TB_CTL_STEP_USED n) 1 else if t.step then s2.put (TIM_TB_CTL_STEP_REFUSED n) 1 else s2
  if t.snap then
    (s3.put64 (TIM_TB_SNAP_SEC_LO_SEC n) (TIM_TB_SNAP_SEC_HI_SEC n) u.now.sec).put (TIM_TB_SNAP_NS_NS n) u.now.ns
  else s3

/-- A tick of PLL_TS; without lock there is none (R257). -/
def execTimeBaseTick (s : State) : Host.Outcome State Fault Refusal :=
  .next (if s.flag CLK_STATUS_PLL_TS then [0, 1, 2, 3].foldl State.tickTb { s with ticks := s.ticks + 1 } else s)

/-- INC_NS written: the pair is committed, or is out of range (R258). -/
def State.writeIncNs (s : State) (n v : Nat) : State :=
  let ns := v % 256
  let frac := s.fld (TIM_TB_INC_FRAC_FRAC n)
  let x := ns * 2 ^ 32 + frac
  if 0x380000000 ≤ x ∧ x ≤ 0x480000000 then s.setTb n { s.tb n with commitInc := some (ns, frac) }
  else (s.put (TIM_TB_CTL_INC_ERR n) 1).setFlag TIM_EVT_INC_ERR

def execIncNsWrite (r : Requester) (tb v : Nat) (s : State) : Host.Outcome State Fault Refusal :=
  .next (if tb < 4 then s.gated r (rTIM_TB_INC_NS tb) (fun s => s.writeIncNs tb v) else s)

/-- STEP written 1 (R259). -/
def State.writeStep (s : State) (n : Nat) : State :=
  let ns := s.fld (TIM_TB_STEP_NS_NS n)
  if s.flag (TIM_TB_CTL_STEP_USED n) ∨ s.inState .startUp = false ∨ 1000000000 ≤ ns ∨
      (n = 0 ∧ s.fld CHT_STATUS_SHADOW = 5) then s.put (TIM_TB_CTL_STEP_REFUSED n) 1
  else s.setTb n { s.tb n with step := true }

def execTbStep (r : Requester) (tb : Nat) (s : State) : Host.Outcome State Fault Refusal :=
  .next (if tb < 4 then s.gated r (rTIM_TB_CTL tb) (fun s => s.writeStep tb) else s)

/-- TIM_SNAP written: the selected time bases are captured at the next tick (R261). -/
def State.writeSnap (s : State) (mask : Nat) : State :=
  [0, 1, 2, 3].foldl (fun s n => if bitOf mask n then s.setTb n { s.tb n with snap := true } else s) s

def execTimSnap (r : Requester) (mask : Nat) (s : State) : Host.Outcome State Fault Refusal :=
  .next (s.gated r rTIM_SNAP (fun s => s.writeSnap mask))

/-- The head report leaves the timestamp FIFO; nothing happens on an empty one (R273). -/
def State.popTxts (s : State) (pop : Bool) : State := if pop then { s with txts := s.txts.drop 1 } else s

def execTxtsPop (r : Requester) (pop : Bool) (s : State) : Host.Outcome State Fault Refusal :=
  .next (s.gated r rTIM_TXTS_POP (fun s => s.popTxts pop))

/-! ## PPS pins (R275, R276) -/

/-- 2⁻³² ns of a time. -/
def TbTime.fine (t : TbTime) : Nat := t.nanos * 2 ^ 32 + t.frac

/-- The pulse instants that the last tick reached or passed: those after the value before it, up to the present value; of a step the value
that it loads alone. A stopped time base reaches none (R275). -/
def State.ppsDue (s : State) (n : Nat) : Bool :=
  let t := s.tb n
  let period := s.fld (TIM_PPS_PERIOD_PERIOD_US n) * 1000 * 2 ^ 32
  let off := s.fld (TIM_PPS_OFFSET_OFFSET_NS n) * 2 ^ 32 % max period 1
  let x := (t.now.fine + (period - off)) % max period 1
  let all := 2 ^ 48 * 1000000000 * 2 ^ 32
  let added := if t.stepped then 1 else (t.now.fine + all - (t.valueAt (s.ticks - 1)).fine) % all
  decide (0 < s.ticks) && (t.segAt s.ticks).run && decide (x < added)

/-- Width of a pulse in µs: WIDTH_US, or half the period when it is not below PERIOD_US. -/
def State.ppsWidth (s : State) (n : Nat) : Nat :=
  let w := s.fld (TIM_PPS_CFG_WIDTH_US n)
  let p := s.fld (TIM_PPS_PERIOD_PERIOD_US n)
  if p ≤ w then p / 2 else w

/-- The pin drives a pulse output. -/
def State.ppsOut (s : State) (n : Nat) : Bool := s.flag (TIM_PPS_CFG_EN n) && s.flag (TIM_PPS_CFG_DIR n)

/-- Level of a PPS pin that is an output: the active level of POL during a pulse. -/
def State.ppsLevel (s : State) (n : Nat) : Bool := decide (s.ticks < tabGet 0 s.ppsEnd n) != s.flag (TIM_PPS_CFG_POL n)

/-- A pulse starts at the last tick, once. -/
def execPpsPulse (n : Nat) (s : State) : Host.Outcome State Fault Refusal :=
  .next (
    if n < 4 ∧ s.ppsOut n ∧ s.ppsDue n ∧ tabFind s.ppsStart n ≠ some s.ticks then
      { s with
        ppsPulses := tabSet 0 s.ppsPulses n (tabGet 0 s.ppsPulses n + 1)
        ppsStart := tabPut s.ppsStart n s.ticks
        ppsEnd := tabPut s.ppsEnd n (s.ticks + 250 * s.ppsWidth n) }
    else s)

/-- An active edge captured `elapsed` ns after the last tick: less than 1 µs after the last captured edge it is ignored, at a full FIFO
discarded. -/
def State.ppsCapture (s : State) (n elapsed : Nat) : State :=
  let at' := 4 * s.ticks + elapsed % 4
  let near := match tabFind s.ppsLast n with
    | some t => decide (at' < t + 1000)
    | none => false
  if near then s
  else
    let q := tabGet [] s.ppsCap n
    if 4 ≤ q.length then
      (s.incSat (TIM_PPS_CAP_STAT_OVF n)).put TIM_EVT_PPS_OVF (setBits (s.fld TIM_EVT_PPS_OVF) n 1 1)
    else
      let s1 : State := { s with
        ppsCap := tabSet [] s.ppsCap n (q ++ [((s.stampNow elapsed)[n]?).getD ⟨0, 0, 0⟩])
        ppsLast := tabPut s.ppsLast n at' }
      s1.put TIM_EVT_PPS_IN (setBits (s.fld TIM_EVT_PPS_IN) n 1 1)

def execPpsEdge (n : Nat) (s : State) (elapsed : Nat := 0) : Host.Outcome State Fault Refusal :=
  .next (if n < 4 ∧ s.flag (TIM_PPS_CFG_EN n) ∧ s.flag (TIM_PPS_CFG_DIR n) = false then s.ppsCapture n elapsed else s)

/-- The head capture leaves the FIFO of a PPS pin. -/
def State.popPps (s : State) (n : Nat) : State := { s with ppsCap := tabSet [] s.ppsCap n ((tabGet [] s.ppsCap n).drop 1) }

def execPpsCapPop (r : Requester) (n : Nat) (s : State) : Host.Outcome State Fault Refusal :=
  .next (if n < 4 then s.gated r (rTIM_PPS_CAP_STAT n) (fun s => s.popPps n) else s)

/-! ## Path delay (R266, R267, R532) -/

/-- A signed 32-bit number. -/
def toSigned32 (n : Nat) : Int := if n % 2 ^ 32 < 2 ^ 31 then (n % 2 ^ 32 : Nat) else (n % 2 ^ 32 : Nat) - 2 ^ 32

/-- The user value of a calibrated item in the USERCAL section in force; 0 when it names none (R533). -/
def userCal (img : Mem) (kind index : Nat) : Int :=
  match (List.range (secLe img tyUSERCAL 0 2)).find? (fun i =>
      sec8 img tyUSERCAL (16 + 8 * i) == kind && sec8 img tyUSERCAL (16 + 8 * i + 1) == index) with
  | some i => toSigned32 (secLe img tyUSERCAL (16 + 8 * i + 4) 4)
  | none => 0

/-- The factory delay F of a direction for a mode and speed. -/
def factoryPs (tx : Bool) (mode speed : Nat) : Nat := Config.factoryDelay tx mode speed % 2 ^ 20

/-- The sum F + U of a port's direction at a mode and speed, and the effective delay in ps. -/
def State.delaySum (s : State) (p : Nat) (tx : Bool) (m : Nat × Nat) : Int :=
  (factoryPs tx m.1 m.2 : Int) + userCal s.active (if tx then 2 else 1) p
def State.delayOf (s : State) (p : Nat) (tx : Bool) (m : Nat × Nat) : Nat := min (s.delaySum p tx m).toNat 1048575

/-- The effective delay in force. -/
def State.delayPs (s : State) (p : Nat) (tx : Bool) : Nat := s.delayOf p tx (s.portMode p)

/-- A delay rounded to whole nanoseconds, halves up. -/
def roundNs (ps : Nat) : Nat := (ps + 500) / 1000

/-- Corrected transmit timestamp on a time base. -/
def State.txStamp (s : State) (p tb : Nat) (ts : List TbTime) : TbTime :=
  ((ts[tb]?).getD ⟨0, 0, 0⟩).later (roundNs (s.delayPs p true))

/-- The receive timestamp delivered with a frame, with its time base (R265). -/
def State.rxStamp (s : State) (f : Frame) : TbTime × Nat :=
  if f.inPort < 32 then
    let tb := s.fld (TIM_PORT_CFG_RX_TB f.inPort)
    (((f.ts[tb]?).getD ⟨0, 0, 0⟩).earlier (roundNs (s.delayOf f.inPort false f.rxMode)), tb)
  else ((f.ts.head?).getD ⟨0, 0, 0⟩, 0)

/-! ## One-step insertion (R268–R270) -/

/-- The offsets of a one-step request fit a frame of `len` bytes. -/
def oneStepFits (q : TxTsReq) (len : Nat) : Bool :=
  decide (14 ≤ q.tsOff ∧ q.tsOff + 10 ≤ len - 4) &&
    (q.ckOff == 0 || decide (20 ≤ q.ckOff ∧ q.ckOff + 2 ≤ len - 4 ∧ (q.ckOff + 2 ≤ q.tsOff ∨ q.tsOff + 10 ≤ q.ckOff)))

/-- A one's-complement sum of 16 bits folded. -/
def fold16 (n : Nat) : Nat :=
  let a := n % 65536 + n / 65536
  a % 65536 + a / 65536

/-- The checksum of a datagram of which words change (RFC 1624): the old bytes, the new bytes, the first word and the
number of words. -/
def rfc1624 (ck : Nat) (old new : List Byte) (first n : Nat) : Nat :=
  let sum := (List.range n).foldl (fun a i =>
    a + (65535 - be16 old (first + 2 * i)) + be16 new (first + 2 * i)) (65535 - ck)
  65535 - fold16 (fold16 sum)

/-- The frame with its timestamp written, its UDP checksum updated and its FCS computed again. -/
def oneStep (q : TxTsReq) (t : TbTime) (bs : List Byte) : List Byte :=
  let b1 := overwrite bs q.tsOff (beBytes 6 t.sec ++ beBytes 4 t.ns)
  let ck := be16 bs q.ckOff
  let odd := (q.tsOff + q.ckOff) % 2
  let c := rfc1624 ck bs b1 (q.tsOff - odd) (5 + odd)
  let b2 := if q.ckOff = 0 ∨ ck = 0 then b1 else overwrite b1 q.ckOff (beBytes 2 (if c = 0 then 0xFFFF else c))
  let body := b2.take (b2.length - 4)
  body ++ leBytes 4 (crc32 body)

/-- A frame committed to a port with its timestamp request, its first bit crossing at `ts`: the bytes sent, and the report that the end of
the transmission makes (R269, R271, R272). `pool` says that the frame passes the cipher pool, `again` that a retry commits it once more. -/
def State.txRequest (s : State) (p : Nat) (pool : Bool) (bs : List Byte) (ts : List TbTime) (q : Option TxTsReq) (again : Bool) :
    State × List Byte × Option (TxReport × Option Nat) :=
  match q with
  | none => (s, bs, none)
  | some q =>
    let t := s.txStamp p q.tb ts
    let wired := decide (p < 32)
    let rep (fallback : Bool) : TxReport :=
      if wired then ⟨q.tag, p, false, fallback, false, q.tb, t.sec, t.ns⟩ else ⟨q.tag, p, false, fallback, true, q.tb, 0, 0⟩
    if q.twoStep then (s, bs, some (rep false, q.tenant))
    else if wired = true ∧ pool = false ∧ oneStepFits q bs.length = true then
      (s.inc TIM_ONESTEP_CNT_VAL, oneStep q t bs, none)
    else if again then (s, bs, some (rep true, q.tenant))
    else
      let s1 := s.inc (if pool then TIM_ONESTEP_SKIP_CNT_VAL else TIM_ONESTEP_ERR_CNT_VAL)
      (s1.setFlag TIM_EVT_ONESTEP_ERR, bs, some (rep true, q.tenant))

/-- The timestamp request of a frame that leaves through a port without a MAC is reported (R272). -/
def State.reportLeave (s : State) (p : Nat) (f : Frame) (ts : List TbTime) : State :=
  match s.txRequest p false f.bytes ts f.txReq false with
  | (s1, _, some (r, tn)) => s1.txReport r tn
  | (s1, _, none) => s1

/-- A frame leaves through a port without a MAC: its request is reported, and the egress capture point sees it (R195, R272). -/
def State.leaves (s : State) (p : Nat) (f : Frame) (ts : List TbTime) : State :=
  (s.reportLeave p f ts).captureOut p f f.bytes ts

end Sys2Proof.Machine
end

