-- ==== Sys2Proof/Machine/Rings.lean ====
section
/-! DEFINITION. The rings of hosts and of the management cluster: receive descriptors, events of vectors, the wake of a
tenant in DOZE, and frames that the device itself sends to in-band tenants (R484, R490–R493, R499–R501). -/

namespace Sys2Proof.Machine

/-! ## Memory behind the rings -/

/-- Memory as a ring reaches it: a tenant's host, or the management cluster (none). -/
def State.ringRead (s : State) (who : Option Nat) (a n : Nat) : List Byte :=
  match who with
  | some tn => s.dmaRead tn a n
  | none => memTake s.mcMem a n
def State.ringWrite (s : State) (who : Option Nat) (a : Nat) (bs : List Byte) : State :=
  match who with
  | some tn => s.dmaWrite tn a bs
  | none => { s with mcMem := memPut s.mcMem a bs }

/-- A ring as it stands (R490). -/
structure Ring where
  who : Option Nat
  base : Nat
  log2 : Nat
  head : Nat
  tail : Nat
  deriving DecidableEq, Repr

/-- A ring is empty. -/
def Ring.empty (q : Ring) : Bool := q.head % 2 ^ q.log2 == q.tail % 2 ^ q.log2

/-- Address of the descriptor at HEAD, and the next HEAD. -/
def Ring.at (q : Ring) : Nat := q.base + 32 * (q.head % 2 ^ q.log2)
def Ring.next (q : Ring) : Nat := (q.head + 1) % 2 ^ q.log2

/-- A ring's base: bits 5:0 are ignored. -/
def ringBase (n : Nat) : Nat := n / 64 * 64

/-- Rings of the management cluster: 0 IF0 transmit, 1 IF0 receive, 2 IF4 receive (R493). -/
def State.ifRing (s : State) (q : Nat) : Ring :=
  ⟨none, ringBase (s.fld64 (HST_IFQ_BASE_LO_BASE q) (HST_IFQ_BASE_HI_BASE q)), s.fld (HST_IFQ_CFG_LOG2 q), s.fld (HST_IFQ_HEAD_HEAD q),
    s.fld (HST_IFQ_TAIL_TAIL q)⟩

/-- Receive and transmit rings of a ring pair of a tenant. -/
def State.rxRing (s : State) (tn r : Nat) : Ring :=
  ⟨some tn, ringBase (s.fld64 (TNW_RP_RX_BASE_LO_BASE tn r) (TNW_RP_RX_BASE_HI_BASE tn r)), s.fld (TNW_RP_CFG_RX_LOG2 tn r),
    s.fld (TNW_RP_RX_HEAD_HEAD tn r), s.fld (TNW_RP_RX_TAIL_TAIL tn r)⟩
def State.txRing (s : State) (tn r : Nat) : Ring :=
  ⟨some tn, ringBase (s.fld64 (TNW_RP_TX_BASE_LO_BASE tn r) (TNW_RP_TX_BASE_HI_BASE tn r)), s.fld (TNW_RP_CFG_TX_LOG2 tn r),
    s.fld (TNW_RP_TX_HEAD_HEAD tn r), s.fld (TNW_RP_TX_TAIL_TAIL tn r)⟩

/-- A ring pair is granted to its tenant and enabled. -/
def State.rpLive (s : State) (tn r : Nat) : Bool :=
  s.tenLive tn && decide (r < s.fld (TNW_REQ0_RP tn)) && s.flag (TNW_RP_CFG_EN tn r)

/-! ## Frames that the device sends (R499, R501) -/

/-- MGMT_TC of TENANTQ. -/
def State.mgmtTc (s : State) : Nat := sec8 s.active tyTENANTQ 2 % 8

/-- `n` bytes of a tenant's record in the order they are sent. -/
def State.tenBytes (s : State) (tn i n : Nat) : List Byte :=
  (List.range n).map (fun k => BitVec.ofNat 8 (sec8 s.active tyTENANTQ (16 + 40 * tn + i + k)))

/-- A frame from IF0 to an in-band tenant enters its port's queue in class MGMT_TC. Its source address the spec leaves open:
fresh bytes (log 6). -/
def State.sendInband (s : State) (tn type : Nat) (entries : List (List Byte)) : State :=
  match s.random 6 with
  | (s1, sa) =>
    let body := s.tenBytes tn 30 6 ++ sa ++ [0x81, 0x00] ++ beBytes 2 (s.mgmtTc * 8192 + s.tenRec tn 28 2 % 4096) ++
      beBytes 2 s.mgmtType ++ [1, BitVec.ofNat 8 type, BitVec.ofNat 8 tn, BitVec.ofNat 8 entries.length, 0, 0, 0, 0] ++
      entries.flatten
    let bs := ethFrame body
    match s1.alloc s1.lead bs.length false with
    | (s2, none) => s2
    | (s2, some h) =>
      let f : Frame :=
        { bytes := bs, legacy := false, inPort := 80, ts := s2.stamp, rxMode := (0, 0), bucket := 0, seq := 0, qidx := 0, home := s2.lead,
          plane := s2.lead, both := false, twinned := false, stream := none, tc := s.mgmtTc, pool := h.1, buf := h.2,
          fragOuter := false, ring := 0, genSeq := none, txReq := none, rx := RxMeta.plain,
            secure := false, era := s2.era, no := s2.rxNo }
      s2.admission f [⟨s.tenRec tn 2 1, RxMeta.plain, false⟩]

/-- The wake of a tenant in DOZE with WOC, once per DOZE period. -/
def State.dozeWake (s : State) (tn : Nat) : State :=
  if s.tenIs tn .doze = false ∨ s.flag (HST_TN_STATE_WOC tn) = false ∨ (s.ten tn).woken then s
  else
    let s1 := s.setTen tn { s.ten tn with woken := true }
    let link := bits (s.tenRec tn 2 1) 7 1
    if s.tenInband tn then s1.sendInband tn 3 []
    else if s.tenWakePin tn then { s1 with hiWake := if link ∈ s1.hiWake then s1.hiWake else s1.hiWake ++ [link] }
    else { s1 with hostMsgs := .pme tn :: s1.hostMsgs }

/-! ## Vectors (R500) -/

/-- An event of a vector; `cpl` marks a completion or a report, which may wake a tenant in DOZE. -/
def State.vecEvent (s : State) (tn v : Nat) (cpl : Bool) : State :=
  let x := s.ten tn
  if x.quiet then s
  else
    let y := { x with
      events := tabPut x.events v (tabGet 0 x.events v + 1)
      cplEv := if cpl = true ∧ v ∉ x.cplEv then x.cplEv ++ [v] else x.cplEv }
    let s1 := s.setTen tn y
    if cpl then s1.dozeWake tn else s1

/-! ## Receive descriptors (R491–R493) -/

/-- Bytes 10 to 31 of a receive descriptor. -/
def State.rxDesc (s : State) (f : Frame) (len : Nat) : List Byte :=
  let t := s.rxStamp f
  let st := match f.stream with
    | some i => 0x8000 + i
    | none => 0
  [BitVec.ofNat 8 f.rx.reason, BitVec.ofNat 8 (1 + 2 * bitN f.legacy + 4 * t.2)] ++ leBytes 2 len ++
    [BitVec.ofNat 8 f.inPort, 0] ++ leBytes 6 t.1.sec ++ leBytes 4 t.1.ns ++ leBytes 2 st ++ [0, 0, 0, 0]

/-- A frame written to the ring at its HEAD: none when no descriptor is free or the frame is longer than its buffer. -/
def State.rxWrite (s : State) (q : Ring) (f : Frame) : Option State :=
  let data := f.rx.if4 ++ (if f.legacy then f.bytes else f.bytes.take (f.bytes.length - 4))
  let d := s.ringRead q.who q.at 10
  if q.empty ∨ leNat (slice d 8 2) < data.length then none
  else some ((s.ringWrite q.who (leNat (d.take 8)) data).ringWrite q.who (q.at + 10) (s.rxDesc f data.length))

/-- A frame dequeued to a host virtual port: written to its ring pair, or dropped (R492). -/
def State.hvDeliver (s : State) (f : Frame) (p : Nat) (ts : List TbTime) : State :=
  let h := p - 88
  let lost := (s.inc (HST_HV_RX_DROP_CNT_VAL h)).drop f 0x03
  match s.hvTenant h with
  | none => lost
  | some tn =>
    if s.rpLive tn f.ring = false then lost
    else
      let q := s.rxRing tn f.ring
      match s.rxWrite q f with
      | none => lost
      | some s1 =>
        let s2 := s1.put (TNW_RP_RX_HEAD_HEAD tn f.ring) q.next
        let s3 := (s2.addCnt64 (HST_HV_RX_FRAMES_LO_VAL h) (HST_HV_RX_FRAMES_HI_VAL h) 1).addCnt64
          (HST_HV_RX_BYTES_LO_VAL h) (HST_HV_RX_BYTES_HI_VAL h) f.bytes.length
        ((s3.vecEvent tn (s.fld (TNW_RP_VEC_RX_VEC tn f.ring)) false).leaves p f ts).release f

/-- A frame dequeued to IF0 (q = 1) or IF4 (q = 2). -/
def State.ifDeliver (s : State) (f : Frame) (q : Nat) (ts : List TbTime) : State :=
  let lost := s.drop f 0x03
  if s.flag (HST_IFQ_CFG_EN q) = false then lost
  else
    let r := s.ifRing q
    match s.rxWrite r f with
    | none => lost
    | some s1 =>
      ((s1.put (HST_IFQ_HEAD_HEAD q) r.next).setFlag (if q = 1 then HST_EVT_IF0_RX else HST_EVT_IF4_RX)).leaves
        (if q = 1 then 80 else 84) f ts |>.release f

end Sys2Proof.Machine
end

