-- ==== Sys2Proof/Machine/Detach.lean ====
section
/-! DEFINITION. Carillon's queue as other blocks reach it, the completions of a tenant, and the detach sequence
(R294, R299, R485, R488, R489, R494). -/

namespace Sys2Proof.Machine

/-! ## Carillon's queue -/

/-- The job that waits for its downbeat, the chart's own among them. -/
def Car.ahead (c : Car) : Option JobDone := c.chartDone.orElse (fun _ => c.waiting)

/-- Carillon changed, with the counts that CAR_STATUS shows, the peals and the downbeat of the job waiting or applied last. -/
def State.putCar (s : State) (c : Car) : State :=
  let s1 := (({ s with car := c } : State).put CAR_STATUS_QUEUED c.queue.length).put CAR_STATUS_BATCH c.batch.length
  let s2 := ((s1.put CAR_STATUS_HELD (bitN c.held)).put CAR_PEAL_PEAL_NS c.sched.peal).put CAR_SHD_PEAL_PEAL_NS
    ((c.ahead.map (fun d => d.sched.peal)).getD 0)
  s2.put64 CAR_DOWNBEAT_LO_TIME CAR_DOWNBEAT_HI_TIME ((c.ahead.map (·.beat)).getD c.lastBeat)

/-- The result memory of a stream. -/
def State.carRes (s : State) (id : Nat) : Option StreamRes := tabFind s.car.results id
def State.setRes (s : State) (id : Nat) (x : StreamRes) : State :=
  { s with car := { s.car with results := tabPut s.car.results id x } }

/-- An item of a job that failed or was cancelled: its stream reads NOT_EVALUATED (R291). What the schedule in force admits stays as it is
(`State.carView`). -/
def State.notEvaluated (s : State) : JobItem → State
  | .declare owner raw => s.setRes (leNat (slice raw 0 2) % 4096) ⟨owner, bitOf (byteAt raw 4) 0, 0x0F, 0, [], false⟩
  | .withdraw id =>
    match s.carRes id with
    | some x => s.setRes id { x with reason := 0x0F, pending := false }
    | none => s

/-- What the result memory shows of a stream: of one that the schedule in force admits, its owner, CRITICAL and placement there (R278,
R290). -/
def State.carView (s : State) (id : Nat) : Option StreamRes :=
  match s.carRes id, tabFind s.car.sched.streams id with
  | some x, some r => some { x with owner := r.owner, crit := bitOf r.flags 0, eg := tabGet [] s.car.sched.results id }
  | x, _ => x

/-- A job declares a stream. -/
def Job.declares (j : Job) : Bool := j.items.any (fun i => match i with
  | .declare _ _ => true
  | .withdraw _ => false)

/-- CAR_STATUS.JOB follows firmware's latest job only: one that was submitted and has no other behind it in the queue. -/
def State.carShow (s : State) (code : Nat) : State :=
  let now := s.fld CAR_STATUS_JOB
  if 2 ≤ now ∧ now ≤ 4 ∧ s.car.queue.all (fun j => j.src != .firmware) then s.put CAR_STATUS_JOB code else s

/-- A job ends as cancelled. -/
def State.carCancelled (s : State) (j : Job) : State :=
  let s1 := j.items.foldl State.notEvaluated s
  let s2 := if j.declares then s1.setFlag CAR_EVT_REJECT else s1
  match j.src with
  | .firmware => (s2.carShow 7).setFlag CAR_EVT_JOB_DONE
  | .tenant tn cmd => s2.setTen tn ((s2.ten tn).endCmd (fun c => c.st == .inCarillon && c.id == cmd) 0x05 [])
  | _ => s2

/-- Every job of some sources ends as cancelled: queued, running or waiting for its downbeat. -/
def State.carDrop (s : State) (p : JobSrc → Bool) : State :=
  let c := s.car
  let hit (j : Job) : Bool := p j.src
  let dead := c.queue.filter hit ++ (c.running.toList.filter hit) ++ ((c.waiting.map (·.job)).toList.filter hit)
  let s1 := s.putCar { c with
    queue := c.queue.filter (fun j => !hit j)
    running := c.running.filter (fun j => !hit j)
    waiting := c.waiting.filter (fun d => !hit d.job) }
  dead.foldl State.carCancelled s1

/-! ## Completions (R494) -/

/-- Bytes of a completion entry: ID, status, KIND with PHASE, and data. -/
def cplEntry (id status kind : Nat) (phase : Bool) (data : List Byte) : List Byte :=
  leBytes 2 id ++ [BitVec.ofNat 8 status, BitVec.ofNat 8 (kind + 128 * bitN phase)] ++ data.take 12 ++
    List.replicate (12 - data.length) 0

/-- Data of a timestamp report. -/
def reportData (x : TxReport) : List Byte :=
  [BitVec.ofNat 8 x.port, BitVec.ofNat 8 (bitN x.aborted + 2 * bitN x.fallback + 4 * bitN x.noTs + 8 * x.tb)] ++
    leBytes 4 x.ns ++ leBytes 6 x.sec

/-- NOTIFY of a command entry. -/
def TenCmd.notify (c : TenCmd) : Bool := bitOf (byteAt c.entry 1) 0

/-- A command has ended and waits to be written. -/
def TenCmd.done (c : TenCmd) : Bool := match c.st with
  | .ended _ _ => true
  | _ => false

/-- The next entry that may be written: the tenant without it, the entry's bytes, and whether it is an event. -/
def Tenant.nextCpl (x : Tenant) : Option (Tenant × List Byte × Bool) :=
  match x.reports with
  | r :: rest => some ({ x with reports := rest }, cplEntry r.tag 0 1 x.phase (reportData r), true)
  | [] =>
    match x.cmds.find? TenCmd.done with
    | some c =>
      match c.st with
      | .ended status data =>
        some ({ x with cmds := x.cmds.erase c }, cplEntry c.id status 0 x.phase data, c.notify)
      | _ => none
    | none => none

/-- The completion ring is enabled and has room. -/
def State.cplRoom (s : State) (tn : Nat) : Bool :=
  let size := 2 ^ s.fld (TNW_CPLQ_CFG_LOG2 tn)
  s.flag (TNW_CPLQ_CFG_EN tn) &&
    (s.fld (TNW_CPLQ_TAIL_TAIL tn) + 1) % size != s.fld (TNW_CPLQ_HEAD_HEAD tn) % size

/-- A finished command's completion, or a report, leaves: to the completion ring, or to the entries ready for an in-band
frame. -/
def State.cplWrite (s : State) (tn : Nat) : State :=
  match (s.ten tn).nextCpl with
  | none => s
  | some (x, bytes, event) =>
    if x.quiet then s
    else if s.tenInband tn then
      let s1 := s.setTen tn { x with inband := x.inband ++ [bytes], cplEv := if event then [0] else x.cplEv }
      if event then s1.dozeWake tn else s1
    else if s.cplRoom tn = false then s
    else
      let tail := s.fld (TNW_CPLQ_TAIL_TAIL tn)
      let next := (tail + 1) % 2 ^ s.fld (TNW_CPLQ_CFG_LOG2 tn)
      let base := ringBase (s.fld64 (TNW_CPLQ_BASE_LO_BASE tn) (TNW_CPLQ_BASE_HI_BASE tn))
      let s1 := s.setTen tn { x with phase := if next = 0 then !x.phase else x.phase }
      let s2 := (s1.dmaWrite tn (base + 16 * tail) bytes).put (TNW_CPLQ_TAIL_TAIL tn) next
      if event then s2.vecEvent tn (s.fld (TNW_CPLQ_CFG_VEC tn)) true else s2

/-- Completions written as far as they go. -/
def State.cplFlush (s : State) (tn : Nat) : Nat → State
  | 0 => s
  | n + 1 => (s.cplWrite tn).cplFlush tn n

/-- Completion frames of an in-band tenant, 16 entries at most in each (R499). -/
def State.inbandFlush (s : State) (tn : Nat) : Nat → State
  | 0 => s
  | n + 1 =>
    match (s.ten tn).inband with
    | [] => s
    | l => ((s.setTen tn { s.ten tn with inband := l.drop 16, cplEv := [] }).sendInband tn 2 (l.take 16)).inbandFlush tn n

/-! ## The detach sequence (R489) -/

/-- An uncommitted command ends ABORTED; a cipher operation ends under R447. -/
def State.abortCmd (s : State) (tn : Nat) (c : TenCmd) : State :=
  match c.st with
  | .inCipher op => (s.cphAbort (48 + tn) op).1
  | .ended _ _ => s
  | _ => s.setTen tn ((s.ten tn).endCmd (fun x => x == c) 0x05 [])

/-- Streams of a tenant admitted in the schedule in force. -/
def State.tenStreams (s : State) (tn : Nat) : List Nat :=
  (s.car.sched.streams.filter (fun e => e.2.owner == tn)).map (·.1)

/-- The entries of a tenant leave the exact-match store: static ones in its TAGS, and learned ones that target its HV ports. -/
def State.tenEntriesOut (s : State) (tn : Nat) : State :=
  let own (r : Region) (x : Slot) : Bool :=
    if stHas x.status stCHART then false
    else if stHas x.status stLEARNED then s.tenPort tn (resTarget x.result)
    else (s.tenTags tn).contains (keyTag r.wide x.key)
  let rs := (s.plane s.engine).regions
  (List.range rs.length).foldl (fun s ri => match rs[ri]? with
    | some r => s.tblApply ri (((s.entriesOf r).filter (fun x => own r x.2.2)).map (fun x => TblOp.clear x.1 x.2.1))
    | none => s) s

/-- Step 5: what the tenant held returns to its pools, and it is ABSENT; an accepted DETACH is done. -/
def State.detachDone (s : State) (tn : Nat) : State :=
  let x := s.ten tn
  let s1 := s.put HST_POOL_RP_FREE (s.fld HST_POOL_RP_FREE + s.fld (TNW_REQ0_RP tn))
  let s2 := s1.put HST_POOL_CAP_FREE (s1.fld HST_POOL_CAP_FREE + x.capRules.length)
  let s3 := if s2.fld (TNW_CTL_RESULT tn) = 1 then s2.put (TNW_CTL_RESULT tn) 2 else s2
  ((s3.setTen tn { Tenant.absent with unmasked := x.unmasked }).tenPut tn .absent).setFlag HST_EVT_DETACHED

/-- The detach sequence of an ACTIVE or DOZE tenant, for DETACH (cause 0) or a reclaim. -/
def State.detach (s : State) (tn cause : Nat) : State :=
  let reclaimed := cause != 0
  let x := s.ten tn
  let s1 := (s.tenPut tn .detaching).put (HST_TN_STATE_CAUSE tn) cause
  let s2 := ((List.range 16).filter (fun c => x.nm.contains c)).foldl (fun s c => s.nmTenant c tn false) s1
  let s3 := ((List.range 16).filter (fun r => x.capRules.contains r)).foldl (fun s r => s.put (CAP_RULE_CFG_EN r) 0) s2
  let s4 := s3.carDrop (fun src => match src with
    | .tenant t _ => t == tn
    | _ => false)
  let s5 := x.cmds.foldl (fun s c => s.abortCmd tn c) s4
  let s6 := if reclaimed then (s5.inc HST_RECLAIM_CNT_VAL).setFlag HST_EVT_RECLAIM
    else (s5.cplFlush tn (x.cmds.length + x.reports.length)).inbandFlush tn 64
  let s7 := (((List.range 1024).filter (fun n => ((s6.slot n).cur.isSome || (s6.slot n).pend.isSome) && (s6.slot n).owner == tn)).foldl
    (fun s n => s.blfKill n) s6).tenEntriesOut tn
  let y := s7.ten tn
  let ids := s7.tenStreams tn
  if ids = [] then s7.detachDone tn
  else
    let job : Job := ⟨.detach tn, ids.map (.withdraw ·), false, none, false⟩
    (s7.setTen tn { y with quiet := reclaimed, withdrawing := true, nm := [] }).putCar
      { s7.car with queue := job :: s7.car.queue }

/-- A reclaim of a tenant in service; of another it does nothing (R488). -/
def State.reclaimTenant (s : State) (tn cause : Nat) : State := if s.tenLive tn then s.detach tn cause else s

end Sys2Proof.Machine
end

