-- ==== Sys2Proof/Machine/Frer.lean ====
section
/-! DEFINITION. FRER: R-TAGs, the recovery algorithm and the recovery entries (R311–R319). -/

namespace Sys2Proof.Machine

/-! ## R-TAGs (R311, R315) -/

/-- Where the R-TAG stands: directly after the source address or after one or two VLAN tags. -/
def rtagOff (bs : List Byte) : Option Nat := if be16 bs (etherOff bs) = 0xF1C1 then some (etherOff bs) else none

/-- The sequence number of a frame's R-TAG. -/
def rtagSeq (bs : List Byte) : Option Nat := (rtagOff bs).map (fun o => be16 bs (o + 4))

/-- The frame without its R-TAG. -/
def rtagStrip (bs : List Byte) : List Byte :=
  match rtagOff bs with
  | some o => bs.take o ++ bs.drop (o + 6)
  | none => bs

/-- The frame with a number in its R-TAG, which is inserted where it has none. -/
def rtagPut (bs : List Byte) (n : Nat) : List Byte :=
  match rtagOff bs with
  | some o => overwrite bs (o + 4) (beBytes 2 n)
  | none => bs.take (etherOff bs) ++ [0xF1, 0xC1, 0, 0] ++ beBytes 2 n ++ bs.drop (etherOff bs)

/-! ## Recovery (R316, R317) -/

/-- What the recovery algorithm makes of a number: passed with the recov and history that follow, behind a higher number or
not, a duplicate, or rogue. -/
inductive RecVerdict where
  | pass (recov history : Nat) (behind : Bool)
  | discard
  | rogue
  deriving DecidableEq, Repr

/-- The recovery algorithm of R317: match entries when `alg` is true, vector entries else. -/
def recover (alg takeAny : Bool) (histLen recov history seq : Nat) : RecVerdict :=
  let d := (seq + 65536 - recov % 65536) % 65536
  let back := (65536 - d) % 65536
  if takeAny then .pass seq 1 false
  else if alg then (if d = 0 then .discard else .pass seq history false)
  else if d < 32768 then
    if histLen ≤ d then .rogue
    else if d = 0 then (if bitOf history 0 then .discard else .pass recov (setBits history 0 1 1) true)
    else .pass seq ((history * 2 ^ d + 1) % 2 ^ histLen) false
  else if histLen ≤ back then .rogue
  else if bitOf history back then .discard
  else .pass recov (setBits history back 1 1) true

/-- The recovery entry of a stream at an egress port. -/
def State.recEntry (s : State) (stream : Option Nat) (p : Nat) : Option Nat :=
  match stream with
  | none => none
  | some i =>
    if s.flag (FRE_MAP_CS_VALID .A i) = false then none
    else
      (List.range 2048).find? (fun r => s.flag (FRE_REC_CFG_VALID .A r) && s.fld (FRE_REC_CFG_PORT .A r) == p &&
        s.fld (FRE_REC_CFG_CS .A r) == s.fld (FRE_MAP_CS .A i))

/-- The verdict of entry `r` on a number. -/
def State.recVerdict (s : State) (r seq : Nat) : RecVerdict :=
  recover (s.flag (FRE_REC_CFG_ALG .A r)) (s.flag (FRE_REC_STATE_TAKE_ANY .A r)) (s.fld (FRE_REC_CFG_HIST_LEN .A r))
    (s.fld (FRE_REC_STATE_RECOV_SEQ .A r)) (s.recSt r).history seq

/-- The outcome of recovery for a frame at the head of a queue. -/
inductive RecHead where
  /-- No recovery entry, or a tagless frame, which its entry counts. -/
  | free
  | tagless (entry : Nat)
  | passed (entry seq recov history : Nat) (behind : Bool)
  | lost (entry : Nat) (rogue : Bool)
  deriving DecidableEq, Repr

/-- Recovery evaluated for a frame on port `p`. -/
def State.recHead (s : State) (f : Frame) (p : Nat) : RecHead :=
  match s.recEntry f.stream p with
  | none => .free
  | some r =>
    match rtagSeq f.ethPart with
    | none => .tagless r
    | some n =>
      match s.recVerdict r n with
      | .pass rc h b => .passed r n rc h b
      | .discard => .lost r false
      | .rogue => .lost r true

/-- A frame that the algorithm does not pass is counted and its buffer returned. -/
def State.recLost (s : State) (f : Frame) (r : Nat) (rogue : Bool) : State :=
  (if rogue then (s.inc (FRE_REC_ROGUE_VAL .A r)).setFlag (FRE_EVT_ROGUE .A)
   else s.inc (FRE_REC_DISCARDED_VAL .A r)).release f

/-- A passed frame updates its entry; what would undo the update is kept with its transmission (R319). -/
def State.recPass (s : State) (r seq recov history : Nat) (behind : Bool) : State × FrerUndo :=
  let x := s.recSt r
  let prev := s.fld (FRE_REC_STATE_RECOV_SEQ .A r)
  let s1 := ((s.put (FRE_REC_STATE_TAKE_ANY .A r) 0).put (FRE_REC_STATE_RECOV_SEQ .A r) recov).inc (FRE_REC_PASSED_VAL .A r)
  let s2 := if behind then s1.inc (FRE_REC_OUT_OF_ORDER_VAL .A r) else s1
  (s2.setRec r ⟨history, x.passes + 1, some s.clk⟩, ⟨r, seq, prev, x.passes + 1⟩)

/-- take_any set and the history cleared. -/
def State.takeAny (s : State) (r : Nat) : State :=
  (s.put (FRE_REC_STATE_TAKE_ANY .A r) 1).setRec r { s.recSt r with history := 0 }

/-- RESET_MS has passed on the placement clock since the entry's last passed frame (R318). -/
def State.recTimeout (s : State) (r : Nat) : Bool :=
  match (s.recSt r).timer with
  | some t => decide (s.fld (FRE_REC_TMR_RESET_MS .A r) * 1000000 ≤ clkSince s.clk t)
  | none => false

/-- The reset timer of an entry runs out (R318); the state of an entry is held once, so the half that the command names makes no difference.
DEDUCED: the timer stands still from then until the next passed frame (log 95). -/
def execFrerResetTimer (_pl : Plane) (rec : Nat) (s : State) : Host.Outcome State Fault Refusal :=
  .next (
    if rec < 2048 ∧ s.flag (FRE_REC_CFG_VALID .A rec) ∧ s.recTimeout rec then
      let s1 := s.takeAny rec
      ((s1.setRec rec { s1.recSt rec with timer := none }).inc (FRE_REC_RESETS_VAL .A rec)).setFlag (FRE_EVT_RESET .A)
    else s)

/-- TAKE_ANY written 1; recovery state is written through the Plane A half. -/
def execTakeAnyWrite (r : Requester) (pl : Plane) (rec : Nat) (s : State) : Host.Outcome State Fault Refusal :=
  .next (if rec < 2048 then
      s.gated r (rFRE_REC_STATE pl rec) (fun s => match pl with
        | .A => s.takeAny rec
        | .B => s)
    else s)

end Sys2Proof.Machine
end

