-- ==== Sys2Proof/Machine/Legacy.lean ====
section
/-! DEFINITION. The CAN and LIN channels: messages in and out, error confinement, the transmit buffer, LIN schedules and
responses, ACF batches and unpacking (R339–R353, R359–R365, R380, R381, R407). -/

namespace Sys2Proof.Machine

/-! ## CAN messages -/

/-- FMT bits 1:0 of a frame kind (R354). -/
def CanKind.fmt : CanKind → Nat
  | .classic => 0
  | .fd => 1
  | .xl => 2

/-- The kind of FMT bits 1:0. -/
def kindOfFmt (n : Nat) : CanKind := if n = 0 then .classic else if n = 1 then .fd else .xl

end Sys2Proof.Machine

namespace Sys2Proof

/-- FMT of a message. -/
def CanMsg.fmt (m : CanMsg) : Nat :=
  Machine.CanKind.fmt m.kind + 4 * Machine.bitN m.ext + 8 * Machine.bitN m.rtr + 16 * Machine.bitN m.brs +
    32 * Machine.bitN m.esi + 64 * Machine.bitN m.sec

/-- What the bus compares in arbitration, the lower value winning: base identifier, RTR or SRR, IDE, identifier extension and
RTR; an XL priority ID counts as a base identifier (R345). -/
def CanMsg.arbKey (m : CanMsg) : Nat :=
  if m.ext then
    m.id / 2 ^ 18 % 2 ^ 11 * 2 ^ 21 + 2 ^ 20 + 2 ^ 19 + m.id % 2 ^ 18 * 2 + Machine.bitN m.rtr
  else m.id % 2 ^ 11 * 2 ^ 21 + Machine.bitN m.rtr * 2 ^ 20

end Sys2Proof

namespace Sys2Proof.Machine

/-- A message as the internal frame of a channel (R354, R355): KIND 0x01, or 0x04 for a tunnelled frame. -/
def canFrame (p : Nat) (m : CanMsg) (ts : List TbTime) : List Byte :=
  let xl (v : Nat) : Nat := if m.kind = .xl then v else 0
  legacyHeader 1 p m.fmt m.id m.data.length (if m.kind = .xl then 0 else m.dlc) (xl m.sdt) (xl m.vcid) (xl m.af)
    (((ts.head?).getD ⟨0, 0, 0⟩).ct48) ++ m.data
def tunnelFrame (p : Nat) (m : CanMsg) (ts : List TbTime) : List Byte :=
  legacyHeader 4 p 0 0 m.data.length 0 0 0 0 (((ts.head?).getD ⟨0, 0, 0⟩).ct48) ++ m.data

/-- The message that a KIND 0x01 frame puts on the bus. -/
def Frame.canMsg (f : Frame) : CanMsg where
  kind := kindOfFmt (f.fmt % 4)
  ext := bitOf f.fmt 2
  rtr := bitOf f.fmt 3
  brs := bitOf f.fmt 4
  esi := bitOf f.fmt 5
  id := f.id % 2 ^ 29
  sdt := f.byte 11
  vcid := f.byte 12
  af := beNat (slice f.bytes 14 4)
  sec := bitOf f.fmt 6
  dlc := f.byte 10
  data := f.data

/-- The DLC that codes a data length (ISO 11898-1). -/
def dlcOf (n : Nat) : Nat :=
  if n ≤ 8 then n else if n ≤ 12 then 9 else if n ≤ 16 then 10 else if n ≤ 20 then 11 else if n ≤ 24 then 12
  else if n ≤ 32 then 13 else if n ≤ 48 then 14 else 15

/-! ## Error confinement (R342) -/

/-- STATE after the counters changed. -/
def State.canPassive (s : State) (n : Nat) : State :=
  let x := s.can n
  let was := s.fld (CAN_STATUS_STATE n)
  if was = 2 then s
  else if 128 ≤ x.tecN ∨ 128 ≤ x.recN then
    if was = 1 then s else (s.put (CAN_STATUS_STATE n) 1).setFlag (CAN_EVT_ERR_PASSIVE n)
  else s.put (CAN_STATUS_STATE n) 0

/-- Bus-off: the link goes down, and recovery starts at once with AUTO_RECOVER. -/
def State.busOff (s : State) (n : Nat) : State :=
  let s1 := ((s.put (CAN_STATUS_STATE n) 2).inc (CAN_BUS_OFF_CNT_VAL n)).setFlag (CAN_EVT_BUS_OFF n)
  let s2 := s1.linkDown (32 + n)
  s2.setCan n { s2.can n with recovering := s.canFlag n 0 }

/-- Nothing of a channel is on the bus any more: what was is offered again (R345), and a Chime that fell due meanwhile takes the Chime
entry (R381). -/
def chanOffBus (x : CanSt) : CanSt :=
  let l := x.txbuf.map (fun k => { k with onBus := false })
  match x.chimeDue with
  | none => { x with txbuf := l }
  | some e => { x with txbuf := l.filter (fun k => k.chime.isNone) ++ [e], chimeDue := none }

/-- A protocol error: counted, the message on the bus offered again, the counters moved. -/
def State.canError (s : State) (n : Nat) (e : CanErr) : State :=
  let x := s.can n
  let tec := if e.transmitting ∧ e.alt = false then x.tecN + 8 else x.tecN
  let rx := if e.transmitting then x.recN else min 255 (x.recN + (if e.alt then 8 else 1))
  let s1 := ((s.inc (CAN_RX_ERR_CNT_VAL n)).setFlag (CAN_EVT_RX_ERR n)).put (CAN_STATUS_LEC n) e.lec
  let s2 := s1.setCan n { chanOffBus x with tecN := tec, recN := rx }
  if 256 ≤ tec then s2.busOff n else s2.canPassive n

def execCanProtocolError (n : Nat) (err : CanErr) (s : State) : Host.Outcome State Fault Refusal :=
  .next (if n < 32 ∧ s.linkUp (32 + n) ∧ (err.transmitting = false ∨ (s.can n).txbuf.any (fun k => k.onBus)) then
    s.canError n err else s)

/-- RECOVER written 1: at bus-off the recovery sequence starts. -/
def State.canRecover (s : State) (n : Nat) : State :=
  if s.fld (CAN_STATUS_STATE n) = 2 then s.setCan n { s.can n with recovering := true } else s

def execCanRecover (r : Requester) (n : Nat) (s : State) : Host.Outcome State Fault Refusal :=
  .next (if n < 32 then s.gated r (rCAN_CTL n) (fun s => s.canRecover n) else s)

def execBusOffRecoveryEnd (n : Nat) (s : State) : Host.Outcome State Fault Refusal :=
  .next (
    let x := s.can n
    if n < 32 ∧ s.fld (CAN_STATUS_STATE n) = 2 ∧ x.recovering ∧ s.lowPower (32 + n) = false then
      let s1 := (s.setCan n { x with tecN := 0, recN := 0, recovering := false }).put (CAN_STATUS_STATE n) 0
      if s1.channelMayUp (32 + n) then s1.linkUpNow (32 + n) else s1
    else s)

/-- REC after a message received well: above 127 it takes a value between 119 and 127, which the standard leaves open
(log 6). -/
def State.canRxGood (s : State) (n : Nat) : State :=
  let x := s.can n
  if s.flag (CAN_STATUS_FROZEN n) then s
  else if 127 < x.recN then
    match s.fresh with
    | (s1, v) => (s1.setCan n { s1.can n with recN := 119 + v % 9 }).canPassive n
  else (s.setCan n { x with recN := x.recN - 1 }).canPassive n

/-! ## ADMIN_DOWN and rejoining (R339) -/

/-- CAN_CTL.ADMIN_DOWN written. -/
def State.writeCanAdmin (s : State) (n : Nat) (down : Bool) : State :=
  let was := s.flag (CAN_CTL_ADMIN_DOWN n)
  let s1 := s.put (CAN_CTL_ADMIN_DOWN n) (bitN down)
  if down then
    let s2 := s1.linkDown (32 + n)
    s2.setCan n { s2.can n with joining := false }
  else if was then s1.setCan n { s1.can n with joining := true } else s1

def execCanAdminDown (r : Requester) (n : Nat) (down : Bool) (s : State) : Host.Outcome State Fault Refusal :=
  .next (if n < 32 then s.gated r (rCAN_CTL n) (fun s => s.writeCanAdmin n down) else s)

def execCanBusIntegration (n : Nat) (s : State) : Host.Outcome State Fault Refusal :=
  .next (
    if n < 32 ∧ s.portOn (32 + n) ∧ (s.can n).joining ∧ s.lowPower (32 + n) = false then
      let s1 := s.setCan n { s.can n with joining := false }
      if s1.channelMayUp (32 + n) then s1.linkUpNow (32 + n) else s1
    else s)

/-! ## The transmit buffer (R345–R347, R381) -/

/-- The 32 entries of the transmit buffer in use; Chimes have an entry of their own. -/
def State.txbufUsed (s : State) (n : Nat) : Nat := ((s.can n).txbuf.filter (fun e => e.chime.isNone)).length

/-- An entry of the buffer has outlived its class's residence limit. -/
def State.canExpired (s : State) (e : CanTx) : Bool :=
  e.chime.isNone && decide (s.fld (BPM_RESLIM_TC_LIMIT_US .A e.tc) * 1000 < s.nowNs - e.time)

/-- The first entry that wins arbitration against all others. -/
def arbWinner (l : List CanTx) : Option CanTx :=
  l.find? (fun e => l.all (fun k => decide (e.msg.arbKey ≤ k.msg.arbKey)))

/-- An arbitration attempt: expired entries discarded, and the winner offered to the bus, the time bases captured at its SOF; it stays
on the bus when it wins, and is offered again when it loses. An attempt follows the end of the one before. -/
def State.canArbitrate (s : State) (n elapsed : Nat) (won : Bool) : State :=
  let x := chanOffBus (s.can n)
  let gone := x.txbuf.filter s.canExpired
  let l := x.txbuf.filter (fun e => !s.canExpired e)
  let s1 := if gone = [] then s else (s.addCnt (CAN_TX_EXPIRED_CNT_VAL n) gone.length).setFlag (CAN_EVT_TX_EXPIRED n)
  match arbWinner l with
  | none => s1.setCan n { x with txbuf := l }
  | some w =>
    s1.setCan n { x with txbuf := l.map (fun e => if e = w then { e with onBus := won, sof := s.stampNow elapsed } else e) }

def execCanArbitration (n : Nat) (s : State) (elapsed : Nat := 0) (won : Bool := true) : Host.Outcome State Fault Refusal :=
  .next (if n < 32 ∧ s.linkUp (32 + n) ∧ s.trxMode n = 0 then s.canArbitrate n elapsed won else s)

def execCanTxSuccess (n : Nat) (s : State) : Host.Outcome State Fault Refusal :=
  .next (
    let x := s.can n
    match decide (n < 32), x.txbuf.find? (fun e => e.onBus) with
    | true, some e =>
      let s1 := (s.setCan n { chanOffBus { x with txbuf := x.txbuf.erase e } with tecN := x.tecN - 1 }).inc (CAN_TX_MSG_CNT_VAL n)
      let s2 := match e.chime with
        | some c => (s1.inc (NMW_NC_CHIME_TX_CNT_VAL c)).nmRestart c
        | none => s1
      let s3 := match e.frame with
        | some f => s2.captureOut (32 + n) f f.bytes e.sof
        | none => s2
      s3.canPassive n
    | _, _ => s)

/-- FLUSH_TXBUF written 1. -/
def State.canFlush (s : State) (n : Nat) : State :=
  let x := s.can n
  let gone := x.txbuf.filter (fun e => !e.onBus && e.chime.isNone)
  (s.setCan n { x with txbuf := x.txbuf.filter (fun e => e.onBus || e.chime.isSome) }).addCnt (CAN_TX_ABORT_CNT_VAL n)
    gone.length

def execCanFlushTxbuf (r : Requester) (n : Nat) (s : State) : Host.Outcome State Fault Refusal :=
  .next (if n < 32 then s.gated r (rCAN_CTL n) (fun s => s.canFlush n) else s)

/-- A message put behind the others, with the frame it came from. -/
def State.canPush (s : State) (n : Nat) (m : CanMsg) (tc time : Nat) (f : Option Frame) : State :=
  let x := s.can n
  s.setCan n { x with txbuf := x.txbuf ++ [⟨m, tc, time, false, none, f, []⟩] }

/-! ## ACF (R359–R361) -/

/-- `n` bytes at byte `i` of ACF header template `k` (R366), in the order they are sent. -/
def State.acfTempl (s : State) (k i n : Nat) : List Byte :=
  (List.range n).map (fun j => BitVec.ofNat 8 (sec8 s.active tyLEGACY (16 + 32 * k + i + j)))

/-- Batch of a channel by fabric port: bytes, messages, sequence counter. -/
def State.acf (s : State) (p : Nat) : List Byte × Nat × Nat :=
  if p < 64 then ((s.can (p - 32)).batch, (s.can (p - 32)).batchN, (s.can (p - 32)).acfSeq)
  else ((s.lin (p - 64)).batch, (s.lin (p - 64)).batchN, (s.lin (p - 64)).acfSeq)
def State.setAcf (s : State) (p : Nat) (b : List Byte) (n seq : Nat) : State :=
  if p < 64 then s.setCan (p - 32) { s.can (p - 32) with batch := b, batchN := n, acfSeq := seq }
  else s.setLin (p - 64) { s.lin (p - 64) with batch := b, batchN := n, acfSeq := seq }

/-- ACF_HDR, ACF_BUS_ID, ACF_WIN_US and ACF_MAXMSG of a channel. -/
def State.acfHdr (s : State) (p : Nat) : Nat := if p < 64 then s.fld (CAN_CFG_ACF_HDR (p - 32)) else s.fld (LIN_CFG_ACF_HDR (p - 64))
def State.acfBus (s : State) (p : Nat) : Nat :=
  if p < 64 then s.fld (CAN_CFG_ACF_BUS_ID (p - 32)) else s.fld (LIN_CFG_ACF_BUS_ID (p - 64))
def State.acfWin (s : State) (p : Nat) : Nat := if p < 64 then s.fld (CAN_ACF_WIN_US (p - 32)) else s.fld (LIN_ACF_WIN_US (p - 64))
def State.acfMax (s : State) (p : Nat) : Nat := if p < 64 then s.fld (CAN_ACF_MAXMSG (p - 32)) else s.fld (LIN_ACF_MAXMSG (p - 64))

/-- The AVTPDU of a batch, without FCS. -/
def State.avtpdu (s : State) (p : Nat) (batch : List Byte) (seq : Nat) : List Byte :=
  let k := s.acfHdr p
  let vlan := if bitOf (byteAt (s.acfTempl k 14 1) 0) 0 then [0x81, 0x00] ++ s.acfTempl k 12 2 else []
  let b := s.acfTempl k 0 12 ++ vlan ++ [0x22, 0xF0, 0x82] ++
    [BitVec.ofNat 8 (0x80 + batch.length / 256 % 8), BitVec.ofNat 8 batch.length, BitVec.ofNat 8 seq] ++
    s.acfTempl k 16 8 ++ batch
  b ++ List.replicate (60 - b.length) 0

/-- A batch closes: its AVTPDU enters the core as a KIND 0x03 frame, or its messages are lost to ACF. -/
def State.acfClose (s : State) (p : Nat) : State :=
  match s.acf p with
  | (batch, n, seq) =>
    if n = 0 then s
    else
      let body := s.avtpdu p batch seq
      let hdr := legacyHeader 3 p n 0 body.length 0 0 0 0 s.nowCt
      let s1 := s.setAcf p [] 0 ((seq + 1) % 256)
      let s2 := s1.inc (if p < 64 then CAN_ACF_SENT_CNT_VAL (p - 32) else LIN_ACF_SENT_CNT_VAL (p - 64))
      match s2.receive p true (hdr ++ body) s2.stamp 0 none with
      | (s3, true) => s3
      | (s3, false) =>
        if p < 64 then (s3.inc (CAN_ACF_DROP_CNT_VAL (p - 32))).setFlag (CAN_EVT_ACF_DROP (p - 32))
        else s3.inc (LIN_ACF_DROP_CNT_VAL (p - 64))

/-- An ACF message: type, bits 7:6 pad and the rest of its third byte, its fourth byte, timestamp, own header, payload. -/
def acfMsg (type b2 b3 : Nat) (ts : List Byte) (hdr data : List Byte) : List Byte :=
  let pad := (4 - data.length % 4) % 4
  let q := (4 + ts.length + hdr.length + data.length + pad) / 4
  [BitVec.ofNat 8 (2 * type + q / 256 % 2), BitVec.ofNat 8 q, BitVec.ofNat 8 (64 * pad + b2), BitVec.ofNat 8 b3] ++ ts ++
    hdr ++ data ++ List.replicate pad 0

/-- message_timestamp of the channel's template, and its MTV bit. -/
def State.acfTime (s : State) (p : Nat) (ts : List TbTime) : List Byte × Nat :=
  let k := s.acfHdr p
  let tb := byteAt (s.acfTempl k 15 1) 0
  if bitOf (byteAt (s.acfTempl k 14 1) 0) 1 then (beBytes 8 (((ts[tb]?).getD ⟨0, 0, 0⟩).nanos % 2 ^ 64), 1)
  else (List.replicate 8 0, 0)

/-- A message joins the batch of its channel, which closes at a window of 0 or at ACF_MAXMSG. -/
def State.acfAdd (s : State) (p : Nat) (m : List Byte) : State :=
  match s.acf p with
  | (batch, n, seq) =>
    let s1 := s.setAcf p (batch ++ m) (n + 1) seq
    if s.acfWin p = 0 ∨ s.acfMax p ≤ n + 1 then s1.acfClose p else s1

/-- A CAN message as an ACF_CAN message. -/
def State.acfCan (s : State) (p : Nat) (m : CanMsg) (ts : List TbTime) : List Byte :=
  let t := s.acfTime p ts
  acfMsg 1 (32 * t.2 + 16 * bitN m.rtr + 8 * bitN m.ext + 4 * bitN m.brs + 2 * bitN (m.kind == .fd) + bitN m.esi)
    (s.acfBus p) t.1 (beBytes 4 (m.id % 2 ^ 29)) m.data

/-- A LIN message as an ACF_LIN message. -/
def State.acfLin (s : State) (p id : Nat) (data : List Byte) (ts : List TbTime) : List Byte :=
  let t := s.acfTime p ts
  acfMsg 3 (32 * t.2 + s.acfBus p) id t.1 [] data

def execAcfBatchClose (lin : Bool) (n : Nat) (s : State) : Host.Outcome State Fault Refusal :=
  .next (
    let p := if lin then 64 + n else 32 + n
    if (lin = true ∧ 16 ≤ n) ∨ 32 ≤ n then s else s.acfClose p)

/-! ## Reception (R344, R365, R381, R407) -/

/-- A message that its channel's ingress list denied: a copy for IF4 when the list logs. -/
def State.canLogged (s : State) (n : Nat) (m : CanMsg) (ts : List TbTime) (v : CanVerdict) : State :=
  if bitOf (s.zcRec n 1 1) 2 = false then s
  else
    match s.if4Token with
    | (s1, false) => s1
    | (s1, true) =>
      let bs := canFrame (32 + n) m ts
      match s1.entryBuf s1.lead (32 + n) 0 bs false with
      | (s2, none) => s2
      | (s2, some h) =>
        let cause := if v = .rate then 5 else 4
        let f : Frame :=
          { bytes := bs, legacy := true, inPort := 32 + n, ts := ts, rxMode := (0, 0), bucket := 0, seq := 0, qidx := 0, home := s2.lead,
            plane := s2.lead, both := false, twinned := false, stream := none, tc := 0, pool := h.1, buf := h.2,
            fragOuter := false, ring := 0, genSeq := none, txReq := none, rx := RxMeta.plain,
            secure := false, era := s2.era, no := s2.rxNo }
        let d : Decision := ⟨3, 0, none, none, none, none⟩
        s2.admission f [⟨84, ⟨0, s2.if4Meta f d (cause, 0xFF, 0xFF)⟩, false⟩]

/-- The cluster in whose Chime range a message lies (R380, R381). -/
def State.chimeCluster (s : State) (n : Nat) (m : CanMsg) : Option Nat :=
  match s.clusterOf (32 + n) with
  | some c =>
    let base := s.ncRec c 12 2
    if m.kind = .classic ∧ m.ext = false ∧ m.dlc = 8 ∧ base ≤ m.id ∧ m.id < base + s.ncRec c 14 1 then some c else none
  | none => none

/-- An accepted message becomes internal frames and joins the batch. -/
def State.canAccept (s : State) (n : Nat) (m : CanMsg) (ts : List TbTime) (age : Nat) : State :=
  let p := 32 + n
  let s0 := match s.chimeCluster n m with
    | some c => s.chimeSeen c n (byteAt m.data 0) (((ts.head?).getD ⟨0, 0, 0⟩).ct48)
    | none => s
  let s1 := if s0.canFlag n 2 ∧ m.kind = .xl then s0.inc (CAN_ACF_SKIP_CNT_VAL n) else s0
  if m.kind = .xl ∧ s.canFlag n 4 ∧ m.sdt = sec8 s.active tyLEGACY 1 then
    if m.data.length < 14 then s1.inc (CAN_TUNNEL_BAD_CNT_VAL n)
    else ((s1.inc (CAN_TUNNEL_RX_CNT_VAL n)).receive p true (tunnelFrame p m ts) ts age none).1
  else
    match s1.canList n false m.ext (m.id % 2 ^ 29) with
    | (s2, .pass) =>
      let s3 := if s2.canFlag n 1 then (s2.receive p true (canFrame p m ts) ts age none).1 else s2
      if s2.canFlag n 2 ∧ m.kind ≠ .xl then s3.acfAdd p (s3.acfCan p m ts) else s3
    | (s2, v) => (s2.canDenied n false v).canLogged n m ts v

def execCanMessageReceive (n : Nat) (msg : CanMsg) (age : Nat) (s : State) : Host.Outcome State Fault Refusal :=
  .next (
    if ¬ (n < 32 ∧ s.linkUp (32 + n)) then s
    else if s.formatExceeds n msg.fmt then s.canError n ⟨2, false, false⟩
    else
      -- Another node's message: one of the channel's own has lost the bus to it (R345).
      let s1 := s.setCan n (chanOffBus (s.can n))
      ((s1.canRxGood n).inc (CAN_RX_MSG_CNT_VAL n)).canAccept n msg (s.stampAgo age) age)

/-! ## LIN (R348–R353) -/

/-- `n` bytes at byte `i` of a channel's LIN record (R366). -/
def State.linRec (s : State) (ch i n : Nat) : Nat := secLe s.active tyLEGACY (1296 + 272 * ch + i) n

/-- DIR, ENHANCED and LEN of a frame ID; IDs 62 and 63 are ignored, IDs 60 and 61 use the classic checksum. -/
def State.linDir (s : State) (n id : Nat) : Nat := if 62 ≤ id then 0 else s.linRec n (16 + 2 * id) 1 % 4
def State.linEnhanced (s : State) (n id : Nat) : Bool := decide (id < 60) && bitOf (s.linRec n (16 + 2 * id) 1) 2
def State.linLen (s : State) (n id : Nat) : Nat := s.linRec n (17 + 2 * id) 1

/-- The PID of a frame ID (ISO 17987). -/
def linPid (id : Nat) : Nat :=
  let b (i : Nat) : Nat := bitN (bitOf id i)
  let p0 := (b 0 + b 1 + b 2 + b 4) % 2
  let p1 := (b 1 + b 3 + b 4 + b 5 + 1) % 2
  id % 64 + 64 * p0 + 128 * p1

/-- The checksum of a response (ISO 17987): the inverted sum with carry of its data, and of its PID when it is the enhanced one. -/
def linChecksum (pid : Option Nat) (data : List Byte) : Byte :=
  let add (a : Nat) (b : Nat) : Nat := if 255 < a + b then a + b - 255 else a + b
  BitVec.ofNat 8 (255 - data.foldl (fun a b => add a b.toNat) (pid.getD 0))

/-- The response buffer of an ID, when it was ever written. -/
def State.linResp (s : State) (n id : Nat) : Option (List Byte) :=
  if s.flag (LIN_RESP_W2_VALID n id) then
    some ((leBytes 4 (s.fld (LIN_RESP_W0_DATA n id)) ++ leBytes 4 (s.fld (LIN_RESP_W1_DATA n id))).take
      (s.fld (LIN_RESP_W2_LEN n id)))
  else none

/-- What a write overwrites, kept for a response that starts in the same clock (R353). -/
def State.linKeep (s : State) (n id : Nat) : State :=
  match s.linResp n id, (s.lin n).old with
  | none, _ => s
  | some d, some (i, _, t) => if i = id ∧ t = s.clk then s else s.setLin n { s.lin n with old := some (id, d, s.clk) }
  | some d, none => s.setLin n { s.lin n with old := some (id, d, s.clk) }

/-- A response written into the buffer of its ID, or rejected (R351). -/
def State.linWrite (s : State) (n id : Nat) (data : List Byte) : State × Bool :=
  if s.linDir n id = 2 ∧ data.length = s.linLen n id then
    let s1 := ((s.linKeep n id).put (LIN_RESP_W0_DATA n id) (leNat (data.take 4))).put (LIN_RESP_W1_DATA n id) (leNat (data.drop 4))
    (((s1.put (LIN_RESP_W2_VALID n id) 1).put (LIN_RESP_W2_LEN n id) data.length).inc (LIN_RESP_UPDATE_CNT_VAL n), true)
  else (s.inc (LIN_RESP_REJECT_CNT_VAL n), false)

/-- A header is on the bus: its response is awaited, due from the device, missing, or none of the device's business. -/
def State.linHeader (s : State) (n id : Nat) (ts : List TbTime) (age : Nat) : State :=
  let s1 := s.setLin n { s.lin n with breakTs := ts, breakAt := clkSince s.clk age, await := none, due := none, sending := none }
  match s.linDir n id with
  | 1 => s1.setLin n { s1.lin n with await := some id }
  | 2 =>
    match s.linResp n id with
    | some _ => s1.setLin n { s1.lin n with due := some id }
    | none => (s1.inc (LIN_NO_DATA_CNT_VAL n)).setFlag (LIN_EVT_NO_DATA n)
  | _ => s1

/-- First entry of a schedule table and the entry after its last. -/
def State.linTable (s : State) (n t : Nat) : Nat × Nat :=
  (s.linRec n (12 + t) 1, if t + 1 < s.linRec n 10 1 then s.linRec n (13 + t) 1 else s.linRec n 11 1)

/-- The entry of the slot that begins: the first of a table that takes effect or starts, else the next one. -/
def State.linAdvance (s : State) (n elapsed : Nat) : State :=
  let x := s.lin n
  let t := x.sel.getD (s.fld (LIN_STATUS_TABLE n))
  let fresh := t != s.fld (LIN_STATUS_TABLE n) || !s.flag (LIN_STATUS_RUNNING n)
  let tab := s.linTable n t
  let e := s.fld (LIN_STATUS_ENTRY n) + 1
  let entry := if fresh ∨ e < tab.1 ∨ tab.2 ≤ e then tab.1 else e
  let s1 := ((s.setLin n { x with sel := none, run := none }).put (LIN_STATUS_TABLE n) t).put (LIN_STATUS_ENTRY n) entry
  let s2 := s1.put (LIN_STATUS_RUNNING n) 1
  let s3 := if t ≠ s.fld (LIN_STATUS_TABLE n) then s2.setFlag (LIN_EVT_SCHED_SWITCH n) else s2
  if tab.2 ≤ tab.1 then s3
  else (s3.inc (LIN_HDR_CNT_VAL n)).linHeader n (s.linRec n (144 + 2 * entry) 1 % 64) (s.stampNow elapsed) 0

/-- The go-to-sleep command of ISO 17987: its ID, its data and the classic checksum (R373). -/
def goToSleep : Nat × List Byte :=
  let d : List Byte := [0x00, 0xFF, 0xFF, 0xFF, 0xFF, 0xFF, 0xFF, 0xFF]
  (0x3C, d ++ [linChecksum none d])

/-- The schedule stops at the end of the slot; a go-to-sleep frame that is due follows (R350, R373). -/
def State.linStop (s : State) (n : Nat) : State :=
  let x := s.lin n
  let last := if x.sleepCmd then some goToSleep else none
  let s1 := (s.setLin n { x with run := none, sleepCmd := false, await := none, due := none, sending := last }).put
    (LIN_STATUS_RUNNING n) 0
  if x.sleepCmd then s1.inc (LIN_HDR_CNT_VAL n) else s1

def execLinSlot (n : Nat) (s : State) (elapsed : Nat := 0) : Host.Outcome State Fault Refusal :=
  .next (
    let x := s.lin n
    if ¬ (n < 16 ∧ s.flag (LIN_CFG_ROLE n) ∧ s.linkUp (64 + n)) then s
    else if x.run = some false ∨ x.sleepCmd then s.linStop n
    else if s.flag (LIN_STATUS_RUNNING n) ∨ x.run = some true then s.linAdvance n elapsed else s)

def execLinHeader (n pid age : Nat) (s : State) : Host.Outcome State Fault Refusal :=
  .next (
    if n < 16 ∧ s.flag (LIN_CFG_ROLE n) = false ∧ s.linkUp (64 + n) ∧ pid = linPid (pid % 64) then
      s.linHeader n (pid % 64) (s.stampAgo age) age
    else s)

/-- An error of a response: counted, and nothing more is awaited. -/
def State.linError (s : State) (n : Nat) (cnt : Fld) : State :=
  ((s.inc cnt).setFlag (LIN_EVT_RX_ERR n)).setLin n { s.lin n with await := none, due := none, sending := none }

/-- A response received for a subscribed ID with a correct checksum. -/
def State.linAccept (s : State) (n id : Nat) (data : List Byte) : State :=
  let x := s.lin n
  let ts := x.breakTs
  let p := 64 + n
  let s1 := (s.setLin n { x with await := none }).inc (LIN_RX_FRAME_CNT_VAL n)
  let bs := legacyHeader 2 p (bitN (s.linEnhanced n id)) (linPid id) data.length 0 0 0 0
    (((ts.head?).getD ⟨0, 0, 0⟩).ct48) ++ data
  let s2 := if s1.linFlag n 0 then (s1.receive p true bs ts (clkSince s.clk x.breakAt) none).1 else s1
  if s1.linFlag n 1 then s2.acfAdd p (s2.acfLin p id data ts) else s2

/-- The device starts the first data byte of a response: the buffer's value, or the one before a write in the same clock, is what it
sends (R353). -/
def State.linStart (s : State) (n : Nat) : State :=
  let x := s.lin n
  match x.due with
  | none => s
  | some id =>
    let now := (s.linResp n id).getD []
    let d := match x.old with
      | some (i, b, t) => if i = id ∧ t = s.clk then b else now
      | none => now
    let sum := linChecksum (if s.linEnhanced n id then some (linPid id) else none) d
    s.setLin n { x with due := none, sending := some (id, d ++ [sum]) }

def execLinResponse (n : Nat) (data : List Byte) (err : LinErr) (s : State) : Host.Outcome State Fault Refusal :=
  .next (
    if ¬ (n < 16 ∧ s.linkUp (64 + n)) then s
    else
      match (s.lin n).sending, (s.lin n).await, err with
      | _, _, .start => s.linStart n
      | _, _, .bit => s.linError n (LIN_BIT_ERR_CNT_VAL n)
      | some _, _, _ => s.setLin n { s.lin n with sending := none }
      | none, some _, .checksum => s.linError n (LIN_CKSUM_ERR_CNT_VAL n)
      | none, some _, .framing => s.linError n (LIN_FRAMING_ERR_CNT_VAL n)
      | none, some id, _ =>
        if s.linLen n id ≤ data.length then s.linAccept n id (data.take (s.linLen n id)) else s
      | none, none, _ => s.setLin n { s.lin n with due := none })

def execLinResponseTimeout (n : Nat) (s : State) : Host.Outcome State Fault Refusal :=
  .next (if n < 16 ∧ (s.lin n).await.isSome then s.linError n (LIN_NO_RESP_CNT_VAL n) else s)

/-- SCHED_SEL written; a value not below TABLE_COUNT is ignored. -/
def State.writeSchedSel (s : State) (n sel : Nat) : State :=
  if sel % 4 < s.linRec n 10 1 then
    (s.put (LIN_CTL_SCHED_SEL n) sel).setLin n { s.lin n with sel := some (sel % 4) }
  else s

def execLinSchedSel (r : Requester) (n sel : Nat) (s : State) : Host.Outcome State Fault Refusal :=
  .next (if n < 16 then s.gated r (rLIN_CTL n) (fun s => s.writeSchedSel n sel) else s)

/-- SCHED_RUN written; it has no effect on a responder. -/
def State.writeSchedRun (s : State) (n : Nat) (run : Bool) : State :=
  let s1 := s.put (LIN_CTL_SCHED_RUN n) (bitN run)
  if s.flag (LIN_CFG_ROLE n) = false then s1
  else
    let on := s.flag (LIN_STATUS_RUNNING n)
    s1.setLin n { s1.lin n with run := if on = run then none else some run }

def execLinSchedRun (r : Requester) (n : Nat) (run : Bool) (s : State) : Host.Outcome State Fault Refusal :=
  .next (if n < 16 then s.gated r (rLIN_CTL n) (fun s => s.writeSchedRun n run) else s)

/-- LIN_CTL.ADMIN_DOWN written. -/
def State.writeLinAdmin (s : State) (n : Nat) (down : Bool) : State :=
  let s1 := s.put (LIN_CTL_ADMIN_DOWN n) (bitN down)
  if down then s1.linkDown (64 + n) else if s1.channelMayUp (64 + n) then s1.linkUpNow (64 + n) else s1

def execLinAdminDown (r : Requester) (n : Nat) (down : Bool) (s : State) : Host.Outcome State Fault Refusal :=
  .next (if n < 16 then s.gated r (rLIN_CTL n) (fun s => s.writeLinAdmin n down) else s)

def execLinBusDominant (n : Nat) (s : State) : Host.Outcome State Fault Refusal :=
  .next (if n < 16 ∧ s.portEnabled (64 + n) then (s.put (LIN_STATUS_DOMINANT n) 1).linkDown (64 + n) else s)

def execLinBusRelease (n : Nat) (s : State) : Host.Outcome State Fault Refusal :=
  .next (
    if n < 16 ∧ s.flag (LIN_STATUS_DOMINANT n) then
      let s1 := s.put (LIN_STATUS_DOMINANT n) 0
      if s1.channelMayUp (64 + n) then s1.linkUpNow (64 + n) else s1
    else s)

/-! ## Unpacking (R362, R363) -/

/-- The ACF messages of an AVTPDU: the bytes that its stream data length covers, as far as the frame goes. -/
def acfData (eth : List Byte) : List Byte :=
  let o := etherOff eth + 2
  if byteAt eth o = 0x82 then slice eth (o + 12) (byteAt eth (o + 1) % 8 * 256 + byteAt eth (o + 2))
  else slice eth (o + 24) (be16 eth (o + 20))

/-- A frame begins to be unpacked on its channel. -/
def State.unpackStart (s : State) (p : Nat) (f : Frame) : State :=
  let u : Unpack := ⟨f, acfData f.ethPart⟩
  if p < 64 then s.setCan (p - 32) { s.can (p - 32) with unpack := some u }
  else s.setLin (p - 64) { s.lin (p - 64) with unpack := some u }

/-- The frame in unpacking. -/
def State.unpacking (s : State) (p : Nat) : Option Unpack :=
  if p < 64 then (s.can (p - 32)).unpack else (s.lin (p - 64)).unpack

/-- The walk goes on with the bytes left; at its end the egress capture point sees the frame, and its buffer is returned. -/
def State.unpackRest (s : State) (p : Nat) (u : Unpack) (rest : List Byte) : State :=
  let left : Option Unpack := if rest = [] then none else some { u with rest := rest }
  let s1 := if p < 64 then s.setCan (p - 32) { s.can (p - 32) with unpack := left }
    else s.setLin (p - 64) { s.lin (p - 64) with unpack := left }
  if rest = [] then (s1.captureOut p u.frame u.frame.bytes s1.stamp).release u.frame else s1

/-- A CAN message of type ACF_CAN or ACF_CAN_BRIEF with `h` header bytes. -/
def acfCanMsg (m : List Byte) (h : Nat) : CanMsg :=
  let b := byteAt m 2
  let data := slice m h (m.length - h - b / 64)
  let fd := bitOf b 1
  { kind := if fd then .fd else .classic, ext := bitOf b 3, rtr := bitOf b 4, brs := bitOf b 2, esi := bitOf b 0,
    id := beNat (slice m (h - 4) 4) % 2 ^ 29, sdt := 0, vcid := 0, af := 0, sec := false, dlc := dlcOf data.length, data := data }

/-- A CAN message of the walk moves into a free entry, is dropped for its format, or is denied by the egress list; `none`
while it waits for a free entry. -/
def State.unpackCan (s : State) (n : Nat) (f : Frame) (m : CanMsg) : Option State :=
  if s.formatExceeds n m.fmt ∨ (m.kind = .classic ∧ 8 < m.data.length) ∨ 64 < m.data.length then
    some (s.inc (CAN_FORMAT_DROP_CNT_VAL n))
  else if 32 ≤ s.txbufUsed n then none
  else
    some (match s.canList n true m.ext m.id with
      | (s1, .pass) => (s1.canPush n m f.tc f.time none).inc (CAN_UNPACK_CNT_VAL n)
      | (s1, v) => s1.canDenied n true v)

/-- The next message of the walk (R362), or its end at a bad length (R363). -/
def State.unpackNext (s : State) (p : Nat) (u : Unpack) : State :=
  let len := 4 * (byteAt u.rest 0 % 2 * 256 + byteAt u.rest 1)
  let type := byteAt u.rest 0 / 2
  let m := u.rest.take len
  let rest := u.rest.drop len
  if u.rest = [] then s.unpackRest p u []
  else if len = 0 ∨ u.rest.length < len ∨ u.rest.length < 2 then
    let s1 := if p < 64 then (s.inc (CAN_UNPACK_BAD_CNT_VAL (p - 32))).setFlag (CAN_EVT_UNPACK_BAD (p - 32))
      else (s.inc (LIN_UNPACK_BAD_CNT_VAL (p - 64))).setFlag (LIN_EVT_UNPACK_BAD (p - 64))
    s1.unpackRest p u []
  else if p < 64 then
    let n := p - 32
    let h := if type = 1 then 16 else 8
    if (type = 1 ∨ type = 2) ∧ h ≤ len ∧ byteAt m 3 % 32 = s.acfBus p then
      match s.unpackCan n u.frame (acfCanMsg m h) with
      | some s1 => s1.unpackRest p u rest
      | none => s
    else (s.inc (CAN_UNPACK_SKIP_CNT_VAL n)).unpackRest p u rest
  else
    let n := p - 64
    if type = 3 ∧ 12 ≤ len ∧ byteAt m 2 % 32 = s.acfBus p then
      match s.linWrite n (byteAt m 3 % 64) (slice m 12 (len - 12 - byteAt m 2 / 64)) with
      | (s1, true) => (s1.inc (LIN_UNPACK_CNT_VAL n)).unpackRest p u rest
      | (s1, false) => s1.unpackRest p u rest
    else (s.inc (LIN_UNPACK_SKIP_CNT_VAL n)).unpackRest p u rest

def execUnpackMove (lin : Bool) (n : Nat) (s : State) : Host.Outcome State Fault Refusal :=
  .next (
    let p := if lin then 64 + n else 32 + n
    if (lin = true ∧ 16 ≤ n) ∨ 32 ≤ n then s
    else
      match s.unpacking p with
      | some u => s.unpackNext p u
      | none => s)

/-! ## Frames selected for a channel (R345, R351, R362, R364) -/

/-- The scheduler of a CN port may select: a free entry, and no frame in unpacking. -/
def State.canReady (s : State) (n : Nat) : Bool := (s.can n).unpack.isNone && decide (s.txbufUsed n < 32)

/-- A frame selected on a CN port: its move is its transmission for the scheduler and its timestamp request (R345). -/
def State.canTake (s0 : State) (n : Nat) (f : Frame) (ts : List TbTime) : State :=
  let p := 32 + n
  let s := s0.reportLeave p f ts
  if f.kind = 1 then (s.canPush n f.canMsg f.tc f.time (some f)).release f
  else if f.kind = 3 ∨ (f.kind = 0 ∧ isAcf f.ethPart ∧ s.canFlag n 3) then s.unpackStart p f
  else
    let m : CanMsg :=
      { kind := .xl, ext := false, rtr := false, brs := false, esi := false, id := s.fld (CAN_TUN_PRIO n),
        sdt := sec8 s.active tyLEGACY 1, vcid := s.fld (CAN_TUN_VCID n), af := s.fld (CAN_TUN_AF_AF n), sec := false,
        dlc := 0, data := f.ethPart }
    ((s.canPush n m f.tc f.time (some f)).inc (CAN_TUNNEL_TX_CNT_VAL n)).release f

/-- A frame selected on an LN port. DESIGN CHOICE: the write of the response buffer is its transmission for its timestamp request and
the egress capture point; a rejected frame gives neither (log 88). -/
def State.linTake (s : State) (n : Nat) (f : Frame) (ts : List TbTime) : State :=
  if f.kind = 2 then
    match s.linWrite n (f.id % 64) f.data with
    | (s1, true) => (s1.leaves (64 + n) f ts).release f
    | (s1, false) => s1.release f
  else (s.reportLeave (64 + n) f ts).unpackStart (64 + n) f

end Sys2Proof.Machine
end

