-- ==== Sys2Proof/Machine/Ledger.lean ====
section
/-! DEFINITION. The metering ledger: records taken at IF3, checkpoints and reports (R426–R434). -/

namespace Sys2Proof.Machine

/-! ## The LEDGER section (R433) -/

/-- `n` bytes, little-endian, at byte `i` of a channel's record. -/
def ldgChan (img : Mem) (c i n : Nat) : Nat := secLe img tyLEDGER (16 + 16 * c + i) n

/-- A channel is enabled. -/
def State.ldgOn (s : State) (c : Nat) : Bool := bitOf (ldgChan s.active c 1 1) 0

/-- The enabled channel of an ingress port and a meter (R427). -/
def State.ldgFind (s : State) (port meter : Nat) : Option Nat :=
  (List.range 64).find? (fun c => s.ldgOn c && ldgChan s.active c 2 1 == port && ldgChan s.active c 4 2 == meter)

/-! ## Channels -/

/-- A 64-bit total that saturates (R428). -/
def State.ldgAdd (s : State) (lo hi : Fld) (n : Nat) : State := s.put64 lo hi (min (s.fld64 lo hi + n) (2 ^ 64 - 1))

/-- A channel made fresh, with zero totals and counts; its hold stays. -/
def State.ldgFresh (s : State) (c : Nat) : State :=
  let s1 := (s.put64 (LDG_CH_CHG_MWH_LO_VAL c) (LDG_CH_CHG_MWH_HI_VAL c) 0).put64 (LDG_CH_DIS_MWH_LO_VAL c)
    (LDG_CH_DIS_MWH_HI_VAL c) 0
  let s2 := (((s1.put (LDG_CH_LAST_SEQ_VAL c) 0).put (LDG_CH_GAP_CNT_VAL c) 0).put (LDG_CH_AUTH_FAIL_VAL c) 0).put
    (LDG_CH_REPLAY_VAL c) 0
  (s2.put (LDG_CH_STATE_GAP c) 0).put (LDG_CH_STATE_FRESH c) 1

/-- LEDGER applied: a channel whose PORT and METER_ID stay keeps its state, every other enabled one is fresh (R434). -/
def State.ldgApply (s : State) (old : Mem) : State :=
  (List.range 64).foldl (fun s c =>
    if s.ldgOn c ∧ (ldgChan old c 2 1 ≠ ldgChan s.active c 2 1 ∨ ldgChan old c 4 2 ≠ ldgChan s.active c 4 2 ∨
        bitOf (ldgChan old c 1 1) 0 = false) then (s.ldgFresh c).put (LDG_CH_STATE_HOLDING c) 0 else s) s

/-! ## Records (R426–R429) -/

/-- The metering record that a frame at IF3 carries. -/
def State.ldgRecordOf (s : State) (f : Frame) : Option (List Byte) :=
  if f.legacy then
    if f.kind = 1 ∧ 32 ≤ f.inPort ∧ f.inPort < 64 ∧ f.dlen = 32 then some (slice f.bytes 32 32) else none
  else
    let ty := secBe16 s.active tyLEDGER 0
    let o := etherOff f.bytes
    if secLen s.active tyLEDGER = 0 ∨ ty = 0 ∨ be16 f.bytes o ≠ ty ∨ f.bytes.length < o + 2 + 32 + 4 then none
    else some (slice f.bytes (o + 2) 32)

/-- The ledger takes a frame from IF3: its record waits, or is dropped at a full FIFO. -/
def State.ldgTake (s : State) (f : Frame) : State :=
  match s.ldgRecordOf f with
  | none => s.inc LDG_MALFORMED_CNT_VAL
  | some b =>
    if 256 ≤ s.ldgQ.length then s.inc LDG_QUEUE_DROP_CNT_VAL else { s with ldgQ := s.ldgQ ++ [⟨f.inPort, b⟩] }

/-- MAC usage (R412). -/
def uMAC : Nat := 2

/-- The key of a channel when it may serve: valid, not orphaned, AES, with MAC usage. -/
def State.ldgKey (s : State) (c : Nat) : Option (List Byte) :=
  match s.keyLoad ownFIRMWARE (ldgChan s.active c 6 2) with
  | .ok (k, _, _) => if isAes k.alg ∧ bitOf k.usage uMAC then some k.key else none
  | .error _ => none

/-- A channel's hold starts: the cluster is requested while any of its channels holds (R429). -/
def State.ldgHold (s : State) (c : Nat) : State :=
  let s1 := ({ s with ldgAt := tabSet 0 s.ldgAt c s.ao } : State).put (LDG_CH_STATE_HOLDING c) 1
  let cl := ldgChan s.active c 3 1
  if cl < 16 then s1.nmLedger cl true else s1

/-- HOLD_S seconds have passed since the channel's last record with ACTIVE = 1. -/
def State.ldgHoldDue (s : State) (c : Nat) : Bool :=
  decide (ldgChan s.active c 8 2 * 1000000 ≤ (s.ao + 2 ^ 48 - tabGet 0 s.ldgAt c) % 2 ^ 48)

/-- A channel's hold ends. -/
def State.ldgUnhold (s : State) (c : Nat) : State :=
  let s1 := s.put (LDG_CH_STATE_HOLDING c) 0
  let cl := ldgChan s.active c 3 1
  let other := (List.range 64).any (fun k => s1.ldgOn k && ldgChan s.active k 3 1 == cl && s1.flag (LDG_CH_STATE_HOLDING k))
  if cl < 16 ∧ other = false then s1.nmLedger cl false else s1

/-- An accepted record updates its channel (R428). -/
def State.ldgAccept (s : State) (c : Nat) (b : List Byte) : State :=
  let seq := beNat (slice b 4 4)
  let last := s.fld (LDG_CH_LAST_SEQ_VAL c)
  let s1 := (s.ldgAdd (LDG_CH_CHG_MWH_LO_VAL c) (LDG_CH_CHG_MWH_HI_VAL c) (beNat (slice b 8 4))).ldgAdd
    (LDG_CH_DIS_MWH_LO_VAL c) (LDG_CH_DIS_MWH_HI_VAL c) (beNat (slice b 12 4))
  let s2 := if last + 1 < seq ∧ s.flag (LDG_CH_STATE_FRESH c) = false then
      ((s1.put (LDG_CH_GAP_CNT_VAL c) (min (s1.fld (LDG_CH_GAP_CNT_VAL c) + (seq - last - 1)) (2 ^ 32 - 1))).put
        (LDG_CH_STATE_GAP c) 1).setFlag LDG_EVT_GAP
    else s1
  let s3 := (s2.put (LDG_CH_LAST_SEQ_VAL c) seq).put (LDG_CH_STATE_FRESH c) 0
  if bitOf (byteAt b 1) 0 then s3.ldgHold c else s3

/-- The checks of R427 on a record, in their order. -/
def State.ldgCheck (s : State) (x : LdgRec) : State :=
  let b := x.bytes
  if s.flag LDG_FLAGS_READY = false then s.inc LDG_NOT_READY_CNT_VAL
  else
    match decide (byteAt b 0 = 1), s.ldgFind x.port (be16 b 2) with
    | true, some c =>
      match s.ldgKey c with
      | none => (s.noteOrphan ownFIRMWARE (ldgChan s.active c 6 2)).inc LDG_NO_KEY_CNT_VAL
      | some k =>
        if slice b 24 8 ≠ (cmac k (b.take 24)).take 8 then
          (s.incSat (LDG_CH_AUTH_FAIL_VAL c)).setFlag LDG_EVT_AUTH_FAIL
        else if s.flag (LDG_CH_STATE_FRESH c) = false ∧ beNat (slice b 4 4) ≤ s.fld (LDG_CH_LAST_SEQ_VAL c) then
          s.incSat (LDG_CH_REPLAY_VAL c)
        else s.ldgAccept c b
    | _, _ => s.inc LDG_UNKNOWN_CNT_VAL

def execMeteringRecord (s : State) : Host.Outcome State Fault Refusal :=
  .next (match s.ldgQ with
    | [] => s
    | x :: t => ({ s with ldgQ := t } : State).ldgCheck x)

def execLedgerHoldExpire (c : Nat) (s : State) : Host.Outcome State Fault Refusal :=
  .next (if c < 64 ∧ s.flag (LDG_CH_STATE_HOLDING c) ∧ s.ldgHoldDue c then s.ldgUnhold c else s)

/-! ## Checkpoints (R430, R431) -/

/-- An entry of a checkpoint or report. -/
def State.ldgEntry (s : State) (c : Nat) : List Byte :=
  [BitVec.ofNat 8 c, BitVec.ofNat 8 (s.fld (LDG_CH_STATE_GAP c) + 2 * s.fld (LDG_CH_STATE_FRESH c))] ++
    leBytes 2 (ldgChan s.active c 4 2) ++ leBytes 4 (s.fld (LDG_CH_LAST_SEQ_VAL c)) ++
    leBytes 8 (s.fld64 (LDG_CH_CHG_MWH_LO_VAL c) (LDG_CH_CHG_MWH_HI_VAL c)) ++
    leBytes 8 (s.fld64 (LDG_CH_DIS_MWH_LO_VAL c) (LDG_CH_DIS_MWH_HI_VAL c)) ++
    leBytes 4 (s.fld (LDG_CH_GAP_CNT_VAL c)) ++ leBytes 4 (s.fld (LDG_CH_AUTH_FAIL_VAL c)) ++
    leBytes 4 (s.fld (LDG_CH_REPLAY_VAL c)) ++ List.replicate 12 0

/-- FLAGS of a checkpoint or report. -/
def State.ldgFlags (s : State) : Nat := s.fld LDG_FLAGS_AFTER_POR + 2 * s.fld LDG_FLAGS_FRESH_START

/-- The key of checkpoints, derived from slot 0. -/
def State.ldgSealKey (s : State) : List Byte :=
  match (s.slot 0).cur with
  | some k => derive108 k.key (ascii [0x4B, 0x51, 0x2D, 0x4C, 0x44, 0x47] ++ devUid) 32
  | none => []

/-- A checkpoint without its CMAC. -/
def State.ldgBody (s : State) : List Byte :=
  ascii [0x4B, 0x51, 0x4C, 0x43] ++ leBytes 2 1 ++ leBytes 2 3120 ++ leBytes 4 (s.fld LDG_CKPT_CTR_COUNT) ++
    leBytes 4 s.ldgSeq ++ [BitVec.ofNat 8 s.ldgFlags, 0] ++ leBytes 6 s.nowCt ++ List.replicate 8 0 ++
    ((List.range 64).map s.ldgEntry).flatten

/-- A checkpoint sealed into the data window; the counter in AO is set by it. -/
def State.ldgSeal (s : State) : State :=
  let s1 := (s.addCnt LDG_CKPT_CTR_COUNT 1).put LDG_FLAGS_AO_VALID 1
  let b := s1.ldgBody
  (s1.windowPut (rLDG_DATA 0) 0 (b ++ cmac s1.ldgSealKey b)).setFlag LDG_EVT_SEALED

/-- A channel's entry restored. -/
def State.ldgLoad (s : State) (c : Nat) (e : List Byte) : State :=
  let s1 := (s.put (LDG_CH_STATE_GAP c) (bitN (bitOf (byteAt e 1) 0))).put (LDG_CH_STATE_FRESH c) (bitN (bitOf (byteAt e 1) 1))
  let s2 := (s1.put (LDG_CH_LAST_SEQ_VAL c) (leNat (slice e 4 4))).put64 (LDG_CH_CHG_MWH_LO_VAL c) (LDG_CH_CHG_MWH_HI_VAL c)
    (leNat (slice e 8 8))
  let s3 := s2.put64 (LDG_CH_DIS_MWH_LO_VAL c) (LDG_CH_DIS_MWH_HI_VAL c) (leNat (slice e 16 8))
  ((s3.put (LDG_CH_GAP_CNT_VAL c) (leNat (slice e 24 4))).put (LDG_CH_AUTH_FAIL_VAL c) (leNat (slice e 28 4))).put
    (LDG_CH_REPLAY_VAL c) (leNat (slice e 32 4))

/-- RESULT codes of LDG_CTL. -/
def ldDONE : Nat := 2
def ldILLEGAL : Nat := 4
def ldNOTOWNER : Nat := 5
def ldBADCKPT : Nat := 6
def ldSTALE : Nat := 7
def ldNOKEY : Nat := 8
def ldNOTREADY : Nat := 9

/-- A command of LDG_CTL: only the management cluster's, ended with its RESULT. -/
def State.ldgCommand (s : State) (r : Requester) (act : State → State × Nat) : State :=
  s.mcOnly r rLDG_CTL LDG_CTL_RESULT ldNOTOWNER (fun s =>
    match act s with
    | (s1, res) => (s1.put LDG_CTL_RESULT res).setFlag LDG_EVT_CMD_DONE)

/-- RESTORE. The two flags last until the next FRESH. -/
def State.ldgRestore (s : State) : State × Nat :=
  let b := s.window (rLDG_DATA 0) 3120
  let fl := byteAt b 16
  let ctr := leNat (slice b 8 4)
  if slice b 0 4 ≠ ascii [0x4B, 0x51, 0x4C, 0x43] ∨ slice b 3104 16 ≠ cmac s.ldgSealKey (b.take 3104) then
    (s.put LDG_FLAGS_READY 0, ldBADCKPT)
  else if s.flag LDG_FLAGS_AO_VALID ∧ ctr ≠ s.fld LDG_CKPT_CTR_COUNT then (s.put LDG_FLAGS_READY 0, ldSTALE)
  else
    let por := bitN (bitOf fl 0 || !s.flag LDG_FLAGS_AO_VALID || s.flag LDG_FLAGS_AFTER_POR)
    let s1 : State := { s with ldgSeq := leNat (slice b 12 4) }
    let s2 := (List.range 64).foldl (fun s c => s.ldgLoad c (slice b (32 + 48 * c) 48)) s1
    ((((s2.put LDG_CKPT_CTR_COUNT ctr).put LDG_FLAGS_AO_VALID 1).put LDG_FLAGS_AFTER_POR por).put
      LDG_FLAGS_FRESH_START (bitN (bitOf fl 1 || s.flag LDG_FLAGS_FRESH_START)) |>.put LDG_FLAGS_READY 1, ldDONE)

/-- FRESH. -/
def State.ldgAllFresh (s : State) : State × Nat :=
  let s1 := (List.range 64).foldl State.ldgFresh s
  (((s1.put LDG_FLAGS_AFTER_POR 0).put LDG_FLAGS_FRESH_START 1).put LDG_FLAGS_READY 1, ldDONE)

def execLdgRestore (r : Requester) (s : State) : Host.Outcome State Fault Refusal :=
  .next (s.ldgCommand r State.ldgRestore)

def execLdgFresh (r : Requester) (s : State) : Host.Outcome State Fault Refusal :=
  .next (s.ldgCommand r State.ldgAllFresh)

/-- SEAL, unless the ledger is not READY. -/
def State.ldgSealCmd (s : State) : State × Nat :=
  if s.flag LDG_FLAGS_READY then (s.ldgSeal, ldDONE) else (s, ldNOTREADY)

def execLdgSeal (r : Requester) (s : State) : Host.Outcome State Fault Refusal := .next (s.ldgCommand r State.ldgSealCmd)

def execCkptTimer (s : State) : Host.Outcome State Fault Refusal :=
  .next (if s.flag LDG_FLAGS_READY ∧ secLe s.active tyLEDGER 2 2 ≠ 0 then s.ldgSeal else s)

/-! ## Reports (R432) -/

/-- REPORT: signed with slot 5; the GAP flags of the channels reported are cleared. -/
def State.ldgReport (s : State) : State × Nat :=
  if s.flag LDG_FLAGS_READY = false then (s, ldNOTREADY)
  else
    match (s.slot 5).cur with
    | none => (s, ldNOKEY)
    | some k =>
      let w := s.window (rLDG_DATA 0) 24
      let cs := (List.range 64).filter (fun c => bitOf (leNat (slice w 16 8)) c)
      let s1 : State := { s with ldgSeq := (s.ldgSeq + 1) % 2 ^ 32 }
      let body := ascii [0x4B, 0x51, 0x4C, 0x52] ++ leBytes 2 1 ++ leBytes 2 (64 + 48 * cs.length + 96) ++ devUid ++
        w.take 16 ++ leBytes 4 s1.ldgSeq ++ leBytes 4 (s.fld LDG_CKPT_CTR_COUNT) ++ leBytes 6 s.nowCt ++
        [BitVec.ofNat 8 s.ldgFlags, BitVec.ofNat 8 cs.length] ++ List.replicate 8 0 ++ (cs.map s.ldgEntry).flatten
      match s1.random 48 with
      | (s2, nonce) =>
        let s3 := s2.windowPut (rLDG_DATA 0) 0 (body ++ ecSign true k.key (sha384 body) nonce)
        (cs.foldl (fun s c => s.put (LDG_CH_STATE_GAP c) 0) s3, ldDONE)

def execLdgReport (r : Requester) (s : State) : Host.Outcome State Fault Refusal := .next (s.ldgCommand r State.ldgReport)

end Sys2Proof.Machine
end

