-- ==== Sys2Proof/Machine/Macsec.lean ====
section
/-! DEFINITION. MACsec on the Ethernet ports: protection of transmitted frames and validation of received ones
(R449–R451). Frames are given without their FCS. The SecTAG and its sequence numbers follow IEEE 802.1AE-2018. -/

namespace Sys2Proof.Machine

/-- A port's traffic passes the pool (ETH_CFG.MACSEC). -/
def State.msecOn (s : State) (p : Nat) : Bool := decide (p < 24) && s.flag (ETH_CFG_MACSEC p)

/-- A frame that bypasses MACsec in both directions (R450). -/
def State.msecBypass (s : State) (i : Nat) (b : List Byte) : Bool :=
  let ty := be16 b 12
  ty == 0x888E || (ty == 0x88F7 && s.flag (CPH_MSEC_CFG_PTP_CLEAR i))

/-- An XPN suite, and one of 256-bit keys. -/
def State.msecXpn (s : State) (i : Nat) : Bool := bitOf (s.fld (CPH_MSEC_CFG_SUITE i)) 1
def State.msecAlg (s : State) (i : Nat) : Nat := if bitOf (s.fld (CPH_MSEC_CFG_SUITE i)) 0 then algAES256 else algAES128

/-- PN of an SA. -/
def State.msecPn (s : State) (i a : Nat) : Nat :=
  if s.msecXpn i then s.fld64 (CPH_MSEC_SA_PN_LO_PN i a) (CPH_MSEC_SA_PN_HI_PN i a) else s.fld (CPH_MSEC_SA_PN_LO_PN i a)
def State.msecSetPn (s : State) (i a n : Nat) : State :=
  if s.msecXpn i then s.put64 (CPH_MSEC_SA_PN_LO_PN i a) (CPH_MSEC_SA_PN_HI_PN i a) n else s.put (CPH_MSEC_SA_PN_LO_PN i a) n

/-- The key of a usable SA: VALID, its slot firmware's, with the usage of its direction. -/
def State.msecKey (s : State) (i a : Nat) : Option (List Byte) :=
  let n := s.fld (CPH_MSEC_SA_CTL_SLOT i a)
  match s.keyLoad ownFIRMWARE n with
  | .ok (k, _, _) =>
    if s.flag (CPH_MSEC_SA_CTL_VALID i a) ∧ (s.loadSlot n).owner = ownFIRMWARE ∧ k.alg = s.msecAlg i ∧
        bitOf k.usage (if a < 4 then 0 else 1) then some k.key else none
  | .error _ => none

/-- A frame without a usable SA key: an orphaned one is counted. -/
def State.msecNoKey (s : State) (i a : Nat) : State :=
  if s.flag (CPH_MSEC_SA_CTL_VALID i a) then s.noteOrphan ownFIRMWARE (s.fld (CPH_MSEC_SA_CTL_SLOT i a)) else s

/-- The engine and the GHASH unit that serve a frame take the key of its SA (R440). -/
def State.msecEngine (s : State) (i a : Nat) (key : List Byte) : State :=
  let n := s.fld (CPH_MSEC_SA_CTL_SLOT i a)
  let x := s.loadSlot n
  s.engineKeep s.cphFree s.ghashFree n x.gen x.version key

/-- SCI of the port's transmit channel, byte 0 first. -/
def State.msecSci (s : State) (i : Nat) : List Byte :=
  leBytes 8 (s.fld64 (CPH_MSEC_SCI_LO_SCI i) (CPH_MSEC_SCI_HI_SCI i))

/-- The IV of a frame: SCI and PN, or SSCI and PN under the SALT. -/
def State.msecIv (s : State) (i a : Nat) (sci : List Byte) (pn : Nat) : List Byte :=
  if s.msecXpn i then
    let salt := ((List.range 3).map (fun k => leBytes 4 (s.fld (CPH_MSEC_SA_SALT_VAL i a k)))).flatten
    ((beBytes 4 (s.fld (CPH_MSEC_SA_SSCI_VAL i a)) ++ beBytes 8 pn).zip salt).map (fun e => e.1 ^^^ e.2)
  else sci ++ beBytes 4 pn

/-- AES-GCM over one frame: the output and the ICV. -/
def msecGcm (key iv aad data : List Byte) (dec : Bool) : List Byte × List Byte :=
  let out := cryptoBytes .gcm [key, iv ++ beBytes 4 2, data] data.length
  let acc := cryptoBytes .ghash [key, List.replicate 16 0, aad, if dec then data else out] 16
  (out, cryptoBytes .gcmTag [key, iv, acc, leBytes 8 aad.length, leBytes 8 data.length] 16)

/-- A SecTAG with explicit SCI. -/
def secTag (enc : Bool) (an userLen pn : Nat) (sci : List Byte) : List Byte :=
  [0x88, 0xE5, BitVec.ofNat 8 (0x20 + (if enc then 0x0C else 0) + an),
    BitVec.ofNat 8 (if userLen < 48 then userLen else 0)] ++ beBytes 4 pn ++ sci

/-- A transmitted frame protected, or dropped (R450, R451). -/
def State.msecProtect (s : State) (i : Nat) (b : List Byte) : State × Option (List Byte) :=
  if s.msecBypass i b then (s, some b)
  else if s.flag CPH_ALARM_REFUSING then (s, none)
  else
    let a := s.fld (CPH_MSEC_CFG_TX_AN i)
    match s.msecKey i a with
    | none => (s.msecNoKey i a, none)
    | some key =>
      let pn := s.msecPn i a
      let top := if s.msecXpn i then 2 ^ 64 - 1 else 2 ^ 32 - 1
      let warn := (if s.msecXpn i then (2 ^ 32 - 1) * 2 ^ 32 else 0) + s.fld (CPH_MSEC_SA_PN_WARN_VAL i a)
      if top ≤ pn then ((s.inc (CPH_MSEC_TX_PN_EXHAUST_CNT_VAL i)).setFlag CPH_EVT_PN_EXHAUST, none)
      else
        let s1 := (s.msecEngine i a key).msecSetPn i a (pn + 1)
        let s2 := if pn = warn then s1.setFlag CPH_EVT_PN_WARN else s1
        let enc := s.flag (CPH_MSEC_CFG_ENCRYPT i)
        let user := b.drop 12
        let sci := s.msecSci i
        let tag := secTag enc a user.length pn sci
        let iv := s.msecIv i a sci pn
        let aad := b.take 12 ++ tag
        if enc then
          let g := msecGcm key iv aad user false
          (s2, some (aad ++ g.1 ++ g.2))
        else
          let g := msecGcm key iv (aad ++ user) [] false
          (s2, some (aad ++ user ++ g.2))

/-- The packet number of a received frame: the XPN suites recover its high half from the lowest acceptable PN. -/
def State.msecRxPn (s : State) (i a pn32 : Nat) : Nat :=
  let low := s.msecPn i a
  if s.msecXpn i then
    let hi := low / 2 ^ 32
    let lo := low % 2 ^ 32
    (if pn32 < 2 ^ 31 ∧ 2 ^ 31 ≤ lo then hi + 1 else hi) * 2 ^ 32 + pn32
  else pn32

/-- A received frame validated: its clear bytes, or dropped and counted (R450). -/
def State.msecValidate (s : State) (i : Nat) (b : List Byte) : State × Option (List Byte) :=
  if s.msecBypass i b then (s, some b)
  else if s.flag CPH_ALARM_REFUSING then (s, none)
  else
    let tci := byteAt b 14
    if be16 b 12 ≠ 0x88E5 ∨ bitOf tci 7 then (s.inc (CPH_MSEC_RX_UNTAGGED_CNT_VAL i), none)
    else
      let a := 4 + tci % 4
      match s.msecKey i a with
      | none => ((s.msecNoKey i a).inc (CPH_MSEC_RX_NOSA_CNT_VAL i), none)
      | some key =>
        let e := s.msecEngine i a key
        let sc := bitOf tci 5
        let hl := if sc then 28 else 20
        let sci := if sc then slice b 20 8 else slice b 6 6 ++ [0, 1]
        let sl := byteAt b 15 % 64
        let n := if sl ≠ 0 then sl else b.length - hl - 16
        let user := slice b hl n
        let icv := slice b (hl + n) 16
        let pn := s.msecRxPn i a (beNat (slice b 16 4))
        let iv := s.msecIv i a sci pn
        let enc := bitOf tci 3
        let aad := b.take hl
        let g := if enc then msecGcm key iv aad user true else msecGcm key iv (aad ++ user) [] true
        if b.length < hl + n + 16 ∨ icv ≠ g.2 then (e.inc (CPH_MSEC_RX_ICV_CNT_VAL i), none)
        else
          let low := s.msecPn i a
          if pn < low then (e.inc (CPH_MSEC_RX_LATE_CNT_VAL i), none)
          else
            (e.msecSetPn i a (max low (pn + 1 - s.fld (CPH_MSEC_CFG_WINDOW i))),
              some (b.take 12 ++ (if enc then g.1 else user)))

end Sys2Proof.Machine
end

