-- ==== Sys2Proof/Machine/Registers.lean ====
section
/-! DEFINITION. A write as the access codes of a register's fields take it (R5, R7, R9, R30). -/

namespace Sys2Proof.Machine

/-- A value as a field's limits take it. -/
def Clamp.take (c : Clamp) (v : Nat) : Nat :=
  match c with
  | .keep => v
  | .within lo hi => max lo (min v hi)
  | .outside lo hi d => if lo ≤ v ∧ v ≤ hi then v else d

/-- A register's value after a write of `v`; `mw` and `own` say whether MW fields and the fields of the register's own half take
the write. -/
def fieldWrite (mw own : Bool) (v old : Nat) (f : FieldSpec) : Nat :=
  let x := f.clamp.take (bits v f.lsb f.wid)
  match f.acc with
  | .rw => if own then setBits old f.lsb f.wid x else old
  | .sh => if own then setBits old f.lsb f.wid x else old
  | .mw => if mw then setBits old f.lsb f.wid x else old
  | .w1c => if own then setBits old f.lsb f.wid (bits old f.lsb f.wid &&& (2 ^ f.wid - 1 - x)) else old
  | .w1s => if own then setBits old f.lsb f.wid (bits old f.lsb f.wid ||| x) else old
  | .ro => old
  | .rc => old
  | .wo => old
  | .ch => old

/-- One register written field by field. -/
def State.storeOne (s : State) (mw own : Bool) (a v : Nat) : State :=
  match specAt a with
  | none => s
  | some r => s.setReg a (BitVec.ofNat 32 (r.fields.foldl (fieldWrite mw own v) (s.reg a).toNat))

/-- The register has a Plane A and a Plane B instance. -/
def halved (r : RegSpec) : Bool :=
  match r.dims with
  | d :: _ => d.stride == 0x80000 && d.count == 2
  | [] => false

/-- A write that reaches its register: through the Plane A half MW fields are written in both planes, through the Plane B half
they ignore it. -/
def State.storeReg (s : State) (a v : Nat) : State :=
  match specAt a with
  | none => s
  | some r =>
    if halved r = false then s.storeOne true true a v
    else if a % 0x100000 < 0x80000 then (s.storeOne true true a v).storeOne true false (a + 0x80000) v
    else s.storeOne false true a v

end Sys2Proof.Machine
end

