-- ==== Sys2Proof/Machine/Egress.lean ====
section
/-! DEFINITION. The port schedulers: gates, heads, eligibility, selection, what becomes of a selected frame, the end of a
transmission, shapers and snares (R193, R195, R214–R218, R229–R246, R268–R272, R309, R316, R558). -/

namespace Sys2Proof.Machine

/-! ## Rates and gates (R233–R235, R284) -/

/-- Bits per second of a speed code (ETH_STATUS.SPEED). -/
def speedRate : Nat → Nat
  | 1 => 100000000
  | 2 => 1000000000
  | 3 => 2500000000
  | 4 => 5000000000
  | 5 => 10000000000
  | 6 => 25000000000
  | _ => 0

/-- A BB, ED or TS port's current rate. -/
def State.rate (s : State) (p : Nat) : Nat := if p < 24 then speedRate (s.fld (ETH_STATUS_SPEED p)) else 10000000

/-- The active gate list of a port; empty when it has none. -/
def State.gateList (s : State) (p : Nat) : List GlChange := if p < 32 then tabGet [] s.car.lists p else []

/-- TB0 within the peal, in ns. -/
def State.phase (s : State) : Nat := (s.tb 0).now.ns % max s.car.sched.peal 1

/-- The OPEN mask in force. -/
def State.gateMask (s : State) (p : Nat) : Nat :=
  let l := s.gateList p
  match (l.filter (fun g => decide (g.off * 8 ≤ s.phase))).getLast?, l.getLast? with
  | some g, _ => g.openMask
  | none, some g => g.openMask
  | none, none => 0xFF

/-- The changes to come, each with its distance from now in ns, in order, over one whole peal. -/
def State.comingGates (s : State) (p : Nat) : List (Nat × GlChange) :=
  let l := s.gateList p
  let t := s.phase
  let peal := s.car.sched.peal
  (l.filter (fun g => decide (t < g.off * 8))).map (fun g => (g.off * 8 - t, g)) ++
    (l.filter (fun g => decide (g.off * 8 ≤ t))).map (fun g => (g.off * 8 + peal - t, g))

/-- When a class's gate next closes, and the next change that a stroke begins with. -/
def State.nextClose (s : State) (p c : Nat) : Option Nat :=
  ((s.comingGates p).find? (fun e => !bitOf e.2.openMask c)).map (fun e => e.1)
def State.nextStroke (s : State) (p : Nat) : Option (Nat × GlChange) := (s.comingGates p).find? (fun e => e.2.stroke)

/-- A transmission of `len` bytes ends within `ns` from now. -/
def State.endsWithin (s : State) (p len ns : Nat) : Bool :=
  decide (0 < s.rate p) && decide ((len + 20) * 8 * 1000000000 ≤ ns * s.rate p)

/-- The frame ends before its gate closes (R234). -/
def State.fitsGate (s : State) (p c len : Nat) : Bool :=
  match s.nextClose p c with
  | some ns => s.endsWithin p len ns
  | none => true

/-- Preemption is active on a port (R82). -/
def State.preempts (s : State) (p : Nat) : Bool := decide (p < 24) && s.flag (ETH_STATUS_PREEMPT_ACTIVE p)

/-- A class is express on its port (R229). -/
def State.express (s : State) (p c : Nat) : Bool := bitOf (s.fld (SCH_PORT_CFG_EXPRESS .A p)) c

/-- The guard band lets the frame start (R235). -/
def State.clearsGuard (s : State) (p c len : Nat) : Bool :=
  if s.preempts p = true ∧ s.express p c = false then true
  else
    match s.nextStroke p with
    | some (ns, g) => bitOf g.openMask c || s.endsWithin p len ns
    | none => true

/-! ## The frame as it leaves (R315, R316, R356, R449) -/

/-- A frame's bytes at a BB, ED or TS port before insertion and protection: the legacy header removed, its R-TAG stripped or
numbered. `strip` says that recovery passed it on an entry without KEEP_TAG. -/
def Frame.wire (f : Frame) (strip : Bool) : List Byte :=
  if strip = false ∧ f.genSeq = none then (if f.legacy then ethFrame f.data else f.bytes)
  else
    let b := f.ethPart
    let b1 := if strip then rtagStrip b else b
    match f.genSeq with
    | some n => ethFrame (rtagPut b1 n)
    | none => ethFrame b1

/-- Recovery strips the tag of a frame. -/
def State.strips (s : State) (h : RecHead) : Bool :=
  match h with
  | .passed r _ _ _ _ => !s.flag (FRE_REC_CFG_KEEP_TAG .A r)
  | _ => false

/-- MACsec protects the frame on this port. -/
def State.protects (s : State) (p : Nat) (b : List Byte) : Bool := s.msecOn p && !s.msecBypass p b

/-- Length from destination address to FCS as the frame leaves its MAC; the length of the frame on other ports. -/
def State.outLen (s : State) (p : Nat) (f : Frame) (h : RecHead) : Nat :=
  if p < 32 then
    let b := f.wire (s.strips h)
    b.length + (if s.protects p b then 32 else 0)
  else f.bytes.length

/-- The charge of a frame to the shapers (R240). -/
def chargeOf (p len : Nat) : Nat := if p < 32 then len + 20 else len

/-! ## Shapers (R240–R242) -/

/-- Level of a shaper as a signed number. -/
def State.shLevel (s : State) (f : Fld) : Int := toSigned32 (s.fld f)

/-- A shaper with its RATE and BURST fields allows a charge. -/
def State.shAllows (s : State) (en burst level : Fld) (charge : Nat) : Bool :=
  !s.flag en || decide ((charge : Int) ≤ s.shLevel level) || decide (s.shLevel level = (s.fld burst : Int))

/-- A charge subtracted from an enabled shaper. -/
def State.shCharge (s : State) (en level : Fld) (charge : Nat) : State :=
  if s.flag en then s.put level (s.fld level + 2 ^ 32 - charge % 2 ^ 32) else s

/-- Queue shaper and port shaper allow a head. -/
def State.allows (s : State) (p c charge : Nat) : Bool :=
  let q := 8 * p + c
  s.shAllows (SCH_QSHP_RATE_EN .A q) (SCH_QSHP_BURST_BURST .A q) (SCH_QSHP_LEVEL_LEVEL .A q) charge &&
    s.shAllows (SCH_PSHP_RATE_EN .A p) (SCH_PSHP_BURST_BURST .A p) (SCH_PSHP_LEVEL_LEVEL .A p) charge

/-- Both shapers charged at the start of a frame. -/
def State.charge (s : State) (p c charge : Nat) : State :=
  let q := 8 * p + c
  (s.shCharge (SCH_QSHP_RATE_EN .A q) (SCH_QSHP_LEVEL_LEVEL .A q) charge).shCharge (SCH_PSHP_RATE_EN .A p)
    (SCH_PSHP_LEVEL_LEVEL .A p) charge

/-- A shaper's level after a write of its RATE or BURST register: BURST or 0, its fraction cleared (R242). -/
def State.shReset (s : State) (en full burst level : Fld) : State :=
  let s1 := s.put level (if s.flag en = false ∨ s.flag full then s.fld burst else 0)
  { s1 with frac := tabSet 0 s1.frac level.addr 0 }

/-! ## Heads (R231, R232) -/

/-- Ingress time of a queue entry. -/
def QEntry.time : QEntry → Nat
  | .frame f => f.time
  | .placeholder _ t _ => t
  | .marker _ _ => 0

/-- The plane whose head a class takes: a plane that hands over comes first while it holds frames for the port, then the
earlier head, then the LEAD plane (R64, R231). -/
def State.headPlane (s : State) (q : Nat) : Option Plane :=
  let l := s.lead
  let y := twinOf l
  match s.queue l q, s.queue y q with
  | [], [] => none
  | [], _ => if (s.plane l).handing && s.portHolds l (q / 8) then none else some y
  | _, [] => if (s.plane y).handing && s.portHolds y (q / 8) then none else some l
  | a :: _, b :: _ =>
    if (s.plane l).handing && s.portHolds l (q / 8) then some l
    else if (s.plane y).handing && s.portHolds y (q / 8) then some y
    else if b.time < a.time then some y else some l

/-- The head of a queue dequeued or discarded. -/
def State.popHead (s : State) (pl : Plane) (q : Nat) : State := (s.unqueue pl q).classEmptied q

/-- A frame of a critical stream. -/
def State.critFrame (s : State) (f : Frame) : Bool :=
  match f.stream with
  | some i => s.crit.contains i
  | none => false

/-- The context that takes a frame into hold on a port: active, naming the frame's plane as the new one, its marker not
admitted or its port not released (R216). A frame of a critical stream is never held (R206). -/
def State.holdCtx (s : State) (f : Frame) (p : Nat) : Option Nat :=
  match s.bucketCtx f.bucket with
  | none => none
  | some c =>
    let x := s.ctx c
    if f.twinned = false ∧ s.critFrame f = false ∧ twinOf x.frm = f.plane ∧ (x.waiting ∨ (tabFind x.ports p).isSome) then some c else none

/-- A frame taken into hold, which is no dequeue: its class keeps its deficit (R216, R232). One beyond MAX_HELD releases the context
(R218). -/
def State.holdFrame (s : State) (c p q : Nat) (f : Frame) : State :=
  let x := s.ctx c
  if s.fld (FRE_RSQ_CFG_MAX_HELD .A) ≤ x.heldCount then
    ((s.inc (FRE_RSQ_OVF_CNT_VAL f.plane)).setFlag (FRE_RSQ_EVT_OVERFLOW f.plane)).ctxRelease c
  else
    ((s.unqueue f.plane q).setCtx c { x with held := tabPut x.held p (tabGet [] x.held p ++ [f]) }).inc
      (FRE_RSQ_HELD_CNT_VAL f.plane)

/-- The head frame of a class after R232: markers consumed, frames beyond their residence limit discarded, frames held,
duplicates discarded. -/
def State.dealHead (s : State) (p c : Nat) : Nat → State × Option (Frame × RecHead)
  | 0 => (s, none)
  | fuel + 1 =>
    let q := 8 * p + c
    let s0 := (s.settleHead .A q).settleHead .B q
    match s0.headPlane q with
    | none => (s0, none)
    | some pl =>
      match s0.queue pl q with
      | .frame f :: _ =>
        if s0.fld (BPM_RESLIM_TC_LIMIT_US pl c) * 1000 < s0.nowNs - f.time then
          (((s0.popHead pl q).inc (BPM_RES_DISCARD_CNT_VAL pl c)).drop f 0x04).dealHead p c fuel
        else
          match s0.holdCtx f p with
          | some k => (s0.holdFrame k p q f).dealHead p c fuel
          | none =>
            if f.twinned = true ∧ (s0.port p).twins.contains f.tag then
              (((s0.popHead pl q).inc (FRE_TWIN_ELIM_CNT_VAL pl)).release f).dealHead p c fuel
            else
              match s0.recHead f p with
              | .lost r rogue => ((s0.popHead pl q).recLost f r rogue).dealHead p c fuel
              | h => (s0, some (f, h))
      | _ => (s0, none)

/-- Entries of both queues of a class, and of the contexts that may return to them. -/
def State.headFuel (s : State) (p c : Nat) : Nat :=
  let q := 8 * p + c
  2 * ((s.queue .A q).length + (s.queue .B q).length + (s.dm.ctxs.map (fun x => x.heldCount)).sum) + 2

/-! ## Selection (R237, R238) -/

/-- A class with its head and what the head charges. -/
structure Head where
  cls : Nat
  frame : Frame
  rec1 : RecHead
  len : Nat
  deriving DecidableEq, Repr

/-- A class looked at: its head when it is eligible. A head that only R234 holds back marks its opening (R236); one that the
guard band holds back shows in GUARD. -/
def State.lookAt (s : State) (p c : Nat) : State × Option Head :=
  match s.dealHead p c (s.headFuel p c) with
  | (s1, none) => (s1, none)
  | (s1, some (f, h)) =>
    let len := s1.outLen p f h
    -- A frame that MACsec is to protect waits for an engine (R224).
    if p < 32 ∧ s1.protects p (f.wire (s1.strips h)) = true ∧ s1.flag CPH_ALARM_REFUSING = false ∧ s1.msecServes = false then (s1, none)
    else
    let gated := decide (p < 32)
    if gated = true ∧ bitOf (s1.gateMask p) c = false then (s1, none)
    else if s1.allows p c (chargeOf p len) = false then (s1, none)
    else if gated = true ∧ s1.clearsGuard p c len = false then (s1.put (SCH_GATE_GUARD .A p) 1, none)
    else if gated = true ∧ s1.fitsGate p c len = false then
      (s1.setPort p { s1.port p with shortMask := setBits (s1.port p).shortMask c 1 1 }, none)
    else (s1, some ⟨c, f, h, len⟩)

/-- Express classes from 7 down to the first that is eligible. -/
def State.pickExpress (s : State) (p : Nat) : List Nat → State × Option Head
  | [] => (s, none)
  | c :: t =>
    if s.express p c = false then s.pickExpress p t
    else
      match s.lookAt p c with
      | (s1, some h) => (s1, some h)
      | (s1, none) => s1.pickExpress p t

/-- The eligible heads of the preemptable classes. -/
def State.pickAll (s : State) (p : Nat) : List Nat → State × List Head
  | [] => (s, [])
  | c :: t =>
    if s.express p c then s.pickAll p t
    else
      match s.lookAt p c with
      | (s1, some h) =>
        match s1.pickAll p t with
        | (s2, l) => (s2, h :: l)
      | (s1, none) => s1.pickAll p t

/-- The classes of a port that are preemptable, highest first. -/
def State.preemptables (s : State) (p : Nat) : List Nat := [7, 6, 5, 4, 3, 2, 1, 0].filter (fun c => !s.express p c)

/-- The class at the DRR pointer, and the pointer one class on (R238). -/
def State.drrAt (s : State) (p : Nat) : Nat := (tabFind s.drr p).getD ((s.preemptables p).headD 0)
def State.drrNext (s : State) (p : Nat) : State :=
  let l := s.preemptables p
  let c := (l.find? (fun k => decide (k < s.drrAt p))).getD (l.headD 0)
  { s with drr := tabPut s.drr p c }

/-- The pointer stands on the highest preemptable class, and every visited flag of the port is cleared (R238). -/
def State.drrReset (s : State) (p : Nat) : State :=
  (List.range 8).foldl (fun s c => s.put (SCH_QDEFICIT_VISITED .A (8 * p + c)) 0) { s with drr := tabDel s.drr p }

/-- The deficit round robin over the eligible heads. -/
def State.drrLoop (s : State) (p : Nat) (l : List Head) : Nat → State × Option Head
  | 0 => (s, none)
  | fuel + 1 =>
    let c := s.drrAt p
    let q := 8 * p + c
    match l.find? (fun h => h.cls == c) with
    | none => ((s.put (SCH_QDEFICIT_VISITED .A q) 0).drrNext p).drrLoop p l fuel
    | some h =>
      let s1 := if s.flag (SCH_QDEFICIT_VISITED .A q) then s
        else (s.addCnt (SCH_QDEFICIT_DEFICIT .A q) (s.fld (SCH_QCFG_QUANTUM .A q))).put (SCH_QDEFICIT_VISITED .A q) 1
      let d := s1.fld (SCH_QDEFICIT_DEFICIT .A q)
      if h.len ≤ d then (s1.put (SCH_QDEFICIT_DEFICIT .A q) (d - h.len), some h)
      else ((s1.put (SCH_QDEFICIT_VISITED .A q) 0).drrNext p).drrLoop p l fuel

/-- The selection of R238; `low` says that a preemptable frame may start. -/
def State.selectHead (s : State) (p : Nat) (low : Bool) : State × Option Head :=
  match s.pickExpress p [7, 6, 5, 4, 3, 2, 1, 0] with
  | (s1, some h) => (s1, some h)
  | (s1, none) =>
    if low = false then (s1, none)
    else
      match s1.pickAll p [7, 6, 5, 4, 3, 2, 1, 0] with
      | (s2, []) => (s2, none)
      | (s2, l) => s2.drrLoop p l 1048576

/-! ## A selected frame -/

/-- The tag of a selected twinned copy enters the port's memory of 256 (R309). -/
def State.noteTwin (s : State) (p : Nat) (f : Frame) : State :=
  if f.twinned then s.setPort p { s.port p with twins := (f.tag :: (s.port p).twins).take 256 } else s

/-- Recovery updated by a selected frame. -/
def State.recCommit (s : State) (h : RecHead) : State × Option FrerUndo :=
  match h with
  | .passed r n rc hist b =>
    match s.recPass r n rc hist b with
    | (s1, u) => (s1, some u)
  | .tagless r => (s.inc (FRE_REC_TAGLESS_VAL .A r), none)
  | _ => (s, none)

/-- The frame's buffer holds a word with an uncorrectable error (R525). -/
def State.stomped (s : State) (f : Frame) : Bool := s.stomps.contains (planeNum f.plane, f.pool, f.buf)

/-- An Ethernet frame with an invalid FCS. -/
def spoilFcs (b : List Byte) : List Byte := b.take (b.length - 4) ++ (b.drop (b.length - 4)).map (fun x => x ^^^ 0xFF)

/-- A preemptable frame is on the wire and may be cut now: its fragment has at least 64·(1 + ADDFRAG) − 4 bytes, or has not resumed yet
(R81). -/
def State.notResumed (s : State) (p : Nat) : Bool := (s.port p).resumed && clkSince s.clk (s.port p).fragAt == 0
def State.mayCut (s : State) (p : Nat) : Bool :=
  s.notResumed p ||
    decide ((64 * (1 + s.fld (ETH_CFG_ADDFRAG p)) + 4) * 8 * 1000000000 ≤ clkSince s.clk (s.port p).fragAt * s.rate p)

/-- A frame committed to its MAC: its timestamp taken, its request served, its FCS spoilt when its buffer holds an uncorrectable word (R80,
R269, R525). -/
def State.commitTx (s : State) (p elapsed : Nat) (pool again : Bool) (raw : List Byte) (f : Frame) (undo : Option FrerUndo) :
    State × TxFrame :=
  let ts := s.stampNow elapsed
  match s.txRequest p pool raw ts f.txReq again with
  | (s1, out, rep) =>
    if s1.stomped f then (if again then s1 else s1.inc RAS_PKT_STOMP_CNT_VAL, ⟨f, raw, spoilFcs out, pool, ts, undo, rep⟩)
    else (s1, ⟨f, raw, out, pool, ts, undo, rep⟩)

/-- A frame that a collision cut is sent again at the port's next transmit opportunity, with the timestamp of this attempt (R95). -/
def State.resend (s : State) (p elapsed : Nat) : State :=
  match (s.port p).tx with
  | none => s
  | some t =>
    match s.commitTx p elapsed t.pool true t.raw t.frame t.undo with
    | (s1, t1) => s1.setPort p { s1.port p with tx := some t1, retry := false }

/-- The port starts sending a frame. A frame that MACsec drops is not sent. -/
def State.startTx (s : State) (p elapsed : Nat) (h : Head) (undo : Option FrerUndo) : State :=
  let f := h.frame
  let b := f.wire (s.strips h.rec1)
  let s0 := if f.genSeq.isSome then s.inc (FRE_RTAG_INSERT_CNT_VAL .A) else s
  let pool := s0.protects p b
  let sealed : State × Option (List Byte) :=
    if pool then
      match s0.msecProtect p (b.take (b.length - 4)) with
      | (s1, some x) => (s1, some (x ++ leBytes 4 (crc32 x)))
      | (s1, none) => (s1, none)
    else (s0, some b)
  match sealed with
  | (s1, none) => s1.release f
  | (s1, some out) =>
    match s1.commitTx p elapsed pool false out f undo with
    | (s2, t) =>
      let x := s2.port p
      if s2.preempts p = true ∧ s2.express p h.cls = false then
        s2.setPort p { x with txp := some t, fragAt := s2.clk, resumed := false }
      else
        let s3 := s2.setPort p { x with tx := some t, attempts := 0, retry := false }
        -- An express frame that starts beside a preemptable one leaves a non-final fragment behind.
        if s2.preempts p = true ∧ x.txp.isSome ∧ s2.notResumed p = false then s3.inc (ETH_TX_FRAG_CNT_VAL p) else s3

/-- A frame forwarded to IF2 is recorded while capture is enabled (R195). -/
def State.captureIf2 (s : State) (f : Frame) : State :=
  if s.flag CAP_CTL_ENABLE then
    let t := ((s.stamp[s.fld CAP_CTL_TB]?).getD ⟨0, 0, 0⟩).ct48
    let mk (seq : Nat) : List Byte := capBytes t 3 (pcodeOf f) f.fragOuter 82 0 f.stream f.tc none 128 seq f.bytes
    (s.capRecord mk (recLen (min 128 f.bytes.length)) none).release f
  else (s.inc CAP_IF2_DROP_CNT_VAL).release f

/-- The cipher pool takes a frame sent to IF1, and what it returns enters on IF1; a frame without a buffer is told to the pool (R27, R175,
R181, R184; log 67). -/
def State.cipherBack (s : State) (f : Frame) : State :=
  match s.domOn 8, Config.cipherReturn f.bytes with
  | true, some bs =>
    (match s.receive 81 f.legacy (if f.legacy then bs else ethFrame bs) s.stamp 0 none with
     | (s1, true) => s1
     | (s1, false) => { s1 with cph := { s1.cph with unstored := s1.cph.unstored + 1 } })
  | _, _ => s

/-- A frame goes to the unit behind a port without a MAC. -/
def State.deliver (s : State) (p elapsed : Nat) (f : Frame) : State :=
  let bad := s.stomped f
  let f := if bad ∧ f.legacy = false then { f with bytes := spoilFcs f.bytes } else f
  let s := if bad then s.inc RAS_PKT_STOMP_CNT_VAL else s
  let ts := s.stampNow elapsed
  if p < 64 then s.canTake (p - 32) f ts
  else if p < 80 then s.linTake (p - 64) f ts
  else if p = 80 then s.ifDeliver f 1 ts
  else if p = 81 then ((s.leaves p f ts).release f).cipherBack f
  else if p = 82 then (s.leaves p f ts).captureIf2 f
  else if p = 83 then ((s.leaves p f ts).ldgTake f).release f
  else if p = 84 then s.ifDeliver f 2 ts
  else if p < 88 then s.release f
  else s.hvDeliver f p ts

/-- A class whose frame starts is no longer held back in this opening (R236). -/
def State.clearShort (s : State) (p c : Nat) : State :=
  s.setPort p { s.port p with shortMask := setBits (s.port p).shortMask c 1 0 }

/-- The selected head leaves its queue. -/
def State.takeHead (s : State) (p elapsed : Nat) (h : Head) : State :=
  let f := h.frame
  let s1 := ((s.charge p h.cls (chargeOf p h.len)).popHead f.plane (8 * p + h.cls)).clearShort p h.cls
  match (s1.noteTwin p f).recCommit h.rec1 with
  | (s2, u) => if p < 32 then s2.startTx p elapsed h u else s2.deliver p elapsed f

/-- The port may select: its link up, no hold, its cluster awake, and its MAC, transmit buffer or channel free. -/
def State.mayServe (s : State) (p : Nat) : Bool :=
  if p < 80 then
    s.portEnabled p && s.linkUp p && !s.holding p && !s.ncMute p &&
      (if p < 32 then (s.port p).tx.isNone && ((s.port p).txp.isNone || (s.preempts p && s.mayCut p))
       else if p < 64 then s.canReady (p - 32)
       else (s.lin (p - 64)).unpack.isNone)
  else s.portEnabled p

/-- A T1S segment has a frame to send again. -/
def State.mayResend (s : State) (p : Nat) : Bool := (s.port p).retry && s.linkUp p

/-- A transmission opportunity of a port, `elapsed` ns after the last tick of PLL_TS. -/
def execEgressSelect (port : Nat) (s : State) (elapsed : Nat := 0) : Host.Outcome State Fault Refusal :=
  .next (
    if s.mayResend port then s.resend port elapsed
    else if s.mayServe port = false then s
    else
      let s0 := s.put (SCH_GATE_GUARD .A port) 0
      match s0.selectHead port (decide ((s.port port).txp = none)) with
      | (s1, some h) => s1.takeHead port elapsed h
      | (s1, none) => s1)

/-! ## The end of a transmission (R177, R195, R272) -/

/-- A frame sent: counted, captured, reported, its buffer returned. -/
def State.sent (s : State) (p : Nat) (t : TxFrame) : State :=
  let s1 := if p < 24 then
      (s.addCnt64 (ETH_TX_FRAMES_CNT_LO_VAL p) (ETH_TX_FRAMES_CNT_HI_VAL p) 1).addCnt64 (ETH_TX_BYTES_CNT_LO_VAL p)
        (ETH_TX_BYTES_CNT_HI_VAL p) t.out.length
    else s.inc (T1S_TX_FRAMES_CNT_VAL (p - 24))
  let s2 := match t.report with
    | some (r, tn) => s1.txReport r tn
    | none => s1
  (s2.captureOut p t.frame t.out t.ts).release t.frame

def execTransmitEnd (port : Nat) (s : State) : Host.Outcome State Fault Refusal :=
  .next (
    let x := s.port port
    if ¬ (port < 32) ∨ x.retry then s
    else
      match x.tx, x.txp with
      | some t, _ => (s.setPort port { x with tx := none, attempts := 0, fragAt := s.clk, resumed := true }).sent port t
      | none, some t => (s.setPort port { x with txp := none }).sent port t
      | none, none => s)

/-! ## Gate changes (R236, R284) -/

/-- The gates of a port as TB0 has them now: an opening that ends with its head only held back by R234 is counted. -/
def State.gateChange (s : State) (p : Nat) : State :=
  let old := s.fld (SCH_GATE_OPEN .A p)
  let new := s.gateMask p
  let x := s.port p
  let closing := (List.range 8).filter (fun c => bitOf old c && !bitOf new c)
  let short := closing.filter (fun c => bitOf x.shortMask c)
  let mask := closing.foldl (fun m c => setBits m c 1 0) x.shortMask
  let s1 := ((s.setPort p { x with shortMask := mask }).put (SCH_GATE_OPEN .A p) new).put (SCH_GATE_LIST .A p)
    (bitN (s.gateList p ≠ []))
  if short = [] then s1
  else (s1.addCnt (SCH_GATE_SHORT_CNT_VAL s.lead) short.length).setFlag (SCH_EVT_GATE_SHORT s.lead)

def execGateChange (port : Nat) (s : State) : Host.Outcome State Fault Refusal :=
  .next (if port < 32 then s.gateChange port else s)

/-! ## Writes of shapers and snares (R242, R246) -/

/-- The address of a register in plane half A. -/
def inHalfA (a : Nat) : Nat := if a % 0x100000 < 0x80000 then a else a - 0x80000

/-- A shaper's RATE or BURST register written, by its address in half A. -/
def State.writeShaper (s : State) (a v : Nat) : State :=
  let s1 := s.storeReg a v
  if rSCH_PSHP_RATE .A 0 ≤ a ∧ a < rSCH_PSHP_RATE .A 256 then
    let p := (a - rSCH_PSHP_RATE .A 0) / (rSCH_PSHP_RATE .A 1 - rSCH_PSHP_RATE .A 0)
    s1.shReset (SCH_PSHP_RATE_EN .A p) (SCH_PSHP_RATE_RESET_FULL .A p) (SCH_PSHP_BURST_BURST .A p) (SCH_PSHP_LEVEL_LEVEL .A p)
  else
    let q := (a - rSCH_QSHP_RATE .A 0) / (rSCH_QSHP_RATE .A 1 - rSCH_QSHP_RATE .A 0)
    s1.shReset (SCH_QSHP_RATE_EN .A q) (SCH_QSHP_RATE_RESET_FULL .A q) (SCH_QSHP_BURST_BURST .A q) (SCH_QSHP_LEVEL_LEVEL .A q)

/-- The address is that of a shaper's RATE or BURST register in half A. -/
def isShaper (a : Nat) : Bool :=
  (List.range 2).any (fun k => let o := if k = 0 then 0 else 4
    (decide (rSCH_PSHP_RATE .A 0 + o ≤ a ∧ a < rSCH_PSHP_RATE .A 256) &&
      (a - o - rSCH_PSHP_RATE .A 0) % (rSCH_PSHP_RATE .A 1 - rSCH_PSHP_RATE .A 0) == 0) ||
    (decide (rSCH_QSHP_RATE .A 0 + o ≤ a ∧ a < rSCH_QSHP_RATE .A 2048) &&
      (a - o - rSCH_QSHP_RATE .A 0) % (rSCH_QSHP_RATE .A 1 - rSCH_QSHP_RATE .A 0) == 0))

def execShaperWrite (r : Requester) (addr v : Nat) (s : State) : Host.Outcome State Fault Refusal :=
  .next (
    if isShaper (inHalfA addr) = false then s
    else s.gated r addr (fun s => if addr = inHalfA addr then s.writeShaper addr v else s))

/-- A snare's CFG or BURST register written. -/
def State.writeSnare (s : State) (a v : Nat) : State :=
  let n := (a - rSCH_SNARE_CFG .A 0) / (rSCH_SNARE_CFG .A 1 - rSCH_SNARE_CFG .A 0)
  [Plane.A, Plane.B].foldl (fun s pl =>
    s.shReset (SCH_SNARE_CFG_EN pl n) (SCH_SNARE_CFG_RESET_FULL pl n) (SCH_SNARE_BURST_BURST pl n)
      (SCH_SNARE_LEVEL_LEVEL pl n)) (s.storeReg a v)

/-- The address is that of a snare's CFG or BURST register in half A. -/
def isSnare (a : Nat) : Bool :=
  (List.range 2).any (fun k => let o := if k = 0 then 0 else rSCH_SNARE_BURST .A 0 - rSCH_SNARE_CFG .A 0
    decide (rSCH_SNARE_CFG .A 0 + o ≤ a ∧ a < rSCH_SNARE_CFG .A 4096) &&
      (a - o - rSCH_SNARE_CFG .A 0) % (rSCH_SNARE_CFG .A 1 - rSCH_SNARE_CFG .A 0) == 0)

def execSnareWrite (r : Requester) (addr v : Nat) (s : State) : Host.Outcome State Fault Refusal :=
  .next (
    if isSnare (inHalfA addr) = false then s
    else s.gated r addr (fun s => if addr = inHalfA addr then s.writeSnare addr v else s))

/-! ## Token steps (R130, R241, R405, R408) -/

/-- One step of 8 ns at `n` units per `d` steps: whole units gained, and the fraction left. -/
def stepGain (frac n d : Nat) : Nat × Nat := ((frac + n) / d, (frac + n) % d)

/-- A level of bytes raised at RATE kb/s: RATE bytes in 10^6 steps. -/
def State.raise (s : State) (rate : Nat) (burst level : Fld) (signed : Bool) : State :=
  let g := stepGain (tabGet 0 s.frac level.addr) rate 1000000
  let s1 : State := { s with frac := tabSet 0 s.frac level.addr g.2 }
  let l : Int := if signed then s.shLevel level else (s.fld level : Int)
  let top : Int := (s.fld burst : Int)
  if top ≤ l + g.1 then
    ({ s1 with frac := tabSet 0 s1.frac level.addr 0 } : State).put level (s.fld burst)
  else s1.put level (s.fld level + g.1)

/-- A bucket of frames per second: n in 125 000 000 steps. -/
def State.raiseFrames (s : State) (key rate level burst : Nat) (put : State → Nat → State) : State :=
  let g := stepGain (tabGet 0 s.frac key) rate 125000000
  if burst ≤ level + g.1 then put { s with frac := tabSet 0 s.frac key 0 } (max level burst)
  else put { s with frac := tabSet 0 s.frac key g.2 } (level + g.1)

/-- The register of an address raised when it is the RATE register of an enabled shaper or snare. -/
def State.raiseAt (s : State) (a : Nat) : State :=
  let ps := rSCH_PSHP_RATE .A 1 - rSCH_PSHP_RATE .A 0
  let qs := rSCH_QSHP_RATE .A 1 - rSCH_QSHP_RATE .A 0
  let ss := rSCH_SNARE_CFG .A 1 - rSCH_SNARE_CFG .A 0
  let p := (a - rSCH_PSHP_RATE .A 0) / ps
  let q := (a - rSCH_QSHP_RATE .A 0) / qs
  let one (s : State) (pl : Plane) : State :=
    let n := (a - rSCH_SNARE_CFG pl 0) / ss
    if rSCH_SNARE_CFG pl 0 ≤ a ∧ n < 4096 ∧ a = rSCH_SNARE_CFG pl n ∧ s.flag (SCH_SNARE_CFG_EN pl n) then
      s.raise (s.fld (SCH_SNARE_CFG_RATE pl n)) (SCH_SNARE_BURST_BURST pl n) (SCH_SNARE_LEVEL_LEVEL pl n) false
    else s
  if rSCH_PSHP_RATE .A 0 ≤ a ∧ p < 256 ∧ a = rSCH_PSHP_RATE .A p ∧ s.flag (SCH_PSHP_RATE_EN .A p) then
    s.raise (s.fld (SCH_PSHP_RATE_RATE .A p)) (SCH_PSHP_BURST_BURST .A p) (SCH_PSHP_LEVEL_LEVEL .A p) true
  else if rSCH_QSHP_RATE .A 0 ≤ a ∧ q < 2048 ∧ a = rSCH_QSHP_RATE .A q ∧ s.flag (SCH_QSHP_RATE_EN .A q) then
    s.raise (s.fld (SCH_QSHP_RATE_RATE .A q)) (SCH_QSHP_BURST_BURST .A q) (SCH_QSHP_LEVEL_LEVEL .A q) true
  else one (one s .A) .B

/-- A CAN rate entry raised; a full bucket leaves the list. -/
def State.raiseCan (s : State) (k : Nat) : State :=
  let ch := k / 32
  let e := k % 32
  let burst := s.zcEntry ch e 12 2
  s.raiseFrames (0x4000000 + k) (s.zcEntry ch e 8 4) (tabGet burst s.canTokens k) burst
    (fun s n => { s with canTokens := if burst ≤ n then tabDel s.canTokens k else tabPut s.canTokens k n })

/-- All token buckets one step of 8 ns on, and the placement clock with them. -/
def State.tokenStep (s : State) : State :=
  let s1 := ({ s with clk := (s.clk + 8) % 2 ^ 64 } : State).edgesEnd.tblComplete.walkOn.keepSpares
  let s2 := (s.regs.map (fun e => e.1)).foldl State.raiseAt s1
  let l := s2.lead
  let s3 := s2.raiseFrames (rPRS_EXC_LEVEL .A) (s2.fld (PRS_EXC_RATE_RATE l)) (s2.fld (PRS_EXC_LEVEL_TOKENS l))
    (s2.fld (PRS_EXC_BURST_BURST l)) (fun s n => s.put (PRS_EXC_LEVEL_TOKENS l) n)
  let s4 := s3.raiseFrames 0x3FFFFFF (s3.fld FWL_EXC_RATE_RATE) s3.if4Tokens (s3.fld FWL_EXC_BURST_BURST)
    (fun s n => { s with if4Tokens := n })
  (s4.canTokens.map (fun e => e.1)).foldl State.raiseCan s4

def execTokenBucketStep (s : State) : Host.Outcome State Fault Refusal :=
  .next (if s.flag CLK_STATUS_PLL_CORE then s.tokenStep else s)

end Sys2Proof.Machine
end

