-- ==== Sys2Proof/Machine/Synthesis.lean ====
section
/-! DEFINITION. Carillon's arithmetic: declaration records and their checks, placement of strokes, gate lists, and the
synthesis of a job (R281–R291, R296, R301). -/

namespace Sys2Proof.Machine

/-! ## What a chart says of ports -/

/-- `n` bytes at byte `i` of a port's record in PORTMAP. -/
def pmLe (img : Mem) (p i n : Nat) : Nat := secLe img tyPORTMAP (16 * p + i) n

/-- ENABLE, PREEMPT and MACSEC of a port; PREEMPT belongs to BB and ED ports, MACSEC to them too. -/
def pmEnabled (img : Mem) (p : Nat) : Bool := decide (p < 80) && bitOf (pmLe img p 2 1) 0
def pmPreempt (img : Mem) (p : Nat) : Bool := decide (p < 24) && bitOf (pmLe img p 2 1) 1
def pmMacsec (img : Mem) (p : Nat) : Bool := decide (p < 32) && bitOf (pmLe img p 2 1) 2

/-- MAXLEN as other sections compare with it: 9 216 for a disabled port (R96) and for ports without one. -/
def pmMaxLen (img : Mem) (p : Nat) : Nat := if p < 32 ∧ pmEnabled img p then pmLe img p 4 2 else 9216

/-- EXPRESS and MAXLEN_TC of a class. -/
def egExpress (img : Mem) (p c : Nat) : Bool := bitOf (egLe img p 1 1) c
def egClassMax (img : Mem) (p c : Nat) : Nat := egLe img p (18 + 12 * c) 2

/-- RATE_p of STREAMS, and the planned rate in bit/s (R304). -/
def stRate (img : Mem) (p : Nat) : Nat := sec8 img tySTREAMS (16 + p)
def stBps (img : Mem) (p : Nat) : Nat :=
  if p < 24 then speedBps (if stRate img p = 0 then topSpeed (pmLe img p 3 1) else stRate img p) else 10000000

/-- FIRST_RT, REPACK and MAX_LOAD_PERMIL. -/
def stFirstRt (img : Mem) : Nat := secLe img tySTREAMS 2 2
def stRepack (img : Mem) : Bool := bitOf (sec8 img tySTREAMS 4) 0
def stMaxLoad (img : Mem) : Nat := secLe img tySTREAMS 6 2

/-- The declaration records of STREAMS, in order. -/
def stRecords (img : Mem) : List (List Byte) :=
  (List.range (secLe img tySTREAMS 0 2)).map (fun i => memTake img (secOff img tySTREAMS + 48 + 48 * i) 48)

/-! ## Declarations (R281, R282) -/

/-- Owner codes of R278. -/
def ownerFW : Nat := 0x40
def ownerCHART : Nat := 0x41

/-- A declaration record read. -/
def parseDecl (owner : Nat) (raw : List Byte) : StreamRec where
  id := leNat (slice raw 0 2) % 4096
  ingress := byteAt raw 2
  tc := byteAt raw 3 % 8
  flags := byteAt raw 4
  demoteTc := byteAt raw 5 % 8
  frames := byteAt raw 6
  period := leNat (slice raw 8 4)
  phase := leNat (slice raw 12 4)
  jitter := leNat (slice raw 16 4)
  bound := leNat (slice raw 20 4)
  maxIn := leNat (slice raw 24 2)
  maxOut := leNat (slice raw 26 2)
  egress := (List.range (min (byteAt raw 7) 8)).map (fun i => byteAt raw (28 + i))
  owner := owner
  raw := raw

/-- CRITICAL, GATE_CHECK, DEMOTE and MUST_ADMIT. -/
def StreamRec.critical (x : StreamRec) : Bool := bitOf x.flags 0
def StreamRec.gateCheck (x : StreamRec) : Bool := bitOf x.flags 1
def StreamRec.demote (x : StreamRec) : Bool := bitOf x.flags 2
def StreamRec.must (x : StreamRec) : Bool := bitOf x.flags 3

/-- Numbers strictly rising. -/
def rising : List Nat → Bool
  | [] => true
  | [_] => true
  | a :: b :: t => decide (a < b) && rising (b :: t)

/-- A field of the record breaks its table. -/
def declMalformed (x : StreamRec) : Bool :=
  let b := x.raw
  decide (4096 ≤ leNat (slice b 0 2)) || decide (8 ≤ byteAt b 3) || decide (16 ≤ byteAt b 4) || decide (8 ≤ byteAt b 5) ||
    x.frames == 0 || byteAt b 7 == 0 || decide (8 < byteAt b 7) || x.bound == 0 || decide (1000000000 < x.bound) ||
    !rising x.egress || (List.range 8).any (fun i => decide (x.egress.length ≤ i) && byteAt b (28 + i) != 0xFF) ||
    (slice b 36 12).any (fun c => c != 0)

/-- A frame length lies outside 64 to 9 216. -/
def badLen (n : Nat) : Bool := decide (n < 64) || decide (9216 < n)

/-- The first of BAD_PARAM, BAD_PORT and BAD_PERIOD that a declaration meets, 0 for none. -/
def declReason (img : Mem) (x : StreamRec) : Nat :=
  if declMalformed x || decide (x.period ≤ x.phase) || decide (x.period ≤ x.jitter) || badLen x.maxIn || badLen x.maxOut ||
      decide (pmMaxLen img x.ingress < x.maxIn) ||
      x.egress.any (fun e => decide (pmMaxLen img e < x.maxOut) || decide (egClassMax img e x.tc < x.maxOut)) ||
      (x.must && x.owner != ownerCHART) then 0x01
  else if (x.ingress :: x.egress).any (fun p => decide (32 ≤ p) || !pmEnabled img p) || x.egress.contains x.ingress then 0x02
  else if x.period < 8000 ∨ 1000000000 < x.period ∨ x.period % 8 ≠ 0 ∨ 1000000000 % x.period ≠ 0 then 0x03
  else 0

/-! ## Placement (R283, R288–R290) -/

/-- Admitted streams with results and strokes while a job is synthesised. -/
structure Plan where
  streams : Tab StreamRec
  results : Tab (List EgRes)
  strokes : List Stroke
  deriving DecidableEq, Repr

/-- The peal in ns, 0 without streams. -/
def Plan.peal (x : Plan) : Nat := x.streams.foldl (fun n e => if n = 0 then e.2.period else Nat.lcm n e.2.period) 0

/-- Time of `n` bytes at a rate, in ps, rounded up. -/
def psOf (n bps : Nat) : Nat := ceilDiv (n * 8 * 1000000000000) bps

/-- The smallest multiple of 8 000 ps not less than `x`. -/
def ceil8 (x : Nat) : Nat := ceilDiv x 8000 * 8000

/-- The placement quantities of a stream on an egress port, in ps. -/
structure Quant where
  base : Nat
  r0 : Nat
  rLast : Nat
  b : Nat
  w : Nat
  q : Nat
  deriving DecidableEq, Repr

/-- B of R248 in ps, preemption taken as active with PREEMPT. -/
def blocking (img : Mem) (e c : Nat) : Nat :=
  if pmPreempt img e && egExpress img e c then psOf (96 + 64 * (1 + pmLe img e 8 1)) (stBps img e)
  else if c = 0 then 0
  else psOf ((List.range c).foldl (fun m k => max m (egClassMax img e k)) 0 + 20) (stBps img e)

/-- t_rx, a, c and b summed, and r0, r_last, b, w and q. -/
def quant (img : Mem) (x : StreamRec) (e : Nat) : Quant :=
  let tRx := psOf x.maxIn (stBps img x.ingress)
  let tIn := psOf (x.maxIn + 20) (stBps img x.ingress)
  let tOut := psOf (x.maxOut + 20) (stBps img e)
  let c := 300000 * (bitN (pmMacsec img x.ingress) + bitN (pmMacsec img e))
  let b := blocking img e x.tc
  let r0 := x.phase * 1000 + tRx + 720000 + c
  ⟨tRx + 720000 + c + b, r0, r0 + x.jitter * 1000 + (x.frames - 1) * tIn, b, ceil8 (x.frames * tOut), (x.frames - 1) * tOut⟩

/-- End of the last occurrence of a stroke that begins before `o + w`, less `m` periods, when it overlaps the window at
`o + m · period`. -/
def overlapEnd (k : Stroke) (o w shift : Nat) : Option Nat :=
  let p := max k.period 1
  let n := (o + shift + w - 1 + p - k.off) / p
  let y := k.off + k.wid + n * p
  if o + shift + p < y then some (y - p - shift) else none

/-- The largest move that the strokes of a port ask for over the windows of a peal. -/
def moveOf (strokes : List Stroke) (o w period count : Nat) : Option Nat :=
  (List.range count).foldl (fun acc m => strokes.foldl (fun acc k =>
    match overlapEnd k o w (m * period), acc with
    | some y, some z => some (max y z)
    | some y, none => some y
    | none, z => z) acc) none

/-- The search for an offset: none when no window is left. Every move passes at least 8 000 ps. -/
def findOffset (strokes : List Stroke) (q : Quant) (period count : Nat) : Nat → Nat → Option Nat
  | 0, _ => none
  | fuel + 1, o =>
    if q.r0 + period < o + q.w then none
    else match moveOf strokes o q.w period count with
      | none => some o
      | some y => findOffset strokes q period count fuel y

/-! ## Gate lists (R285, R286) -/

/-- A stroke interval of a list in units of 8 ns: begin, end, class, and whether it continues one across the peal's end. -/
structure Iv where
  a : Nat
  b : Nat
  cls : Nat
  cont : Bool
  deriving DecidableEq, Repr

/-- An interval put at its place by its begin. -/
def ivInsert (x : Iv) : List Iv → List Iv
  | [] => [x]
  | y :: t => if x.a ≤ y.a then x :: y :: t else y :: ivInsert x t

/-- Occurrences of a stroke within a peal of `u` units. -/
def strokeIvs (u : Nat) (k : Stroke) : List Iv :=
  let p := max (k.period / 8000) 1
  (List.range (u / p)).flatMap (fun m =>
    let a := k.off / 8000 + m * p
    let b := a + k.wid / 8000
    if u < b then [⟨a, u, k.cls, false⟩, ⟨0, b - u, k.cls, true⟩] else [⟨a, b, k.cls, false⟩])

/-- Adjacent intervals of one class joined. -/
def ivJoin : List Iv → List Iv
  | [] => []
  | x :: t => match ivJoin t with
    | [] => [x]
    | y :: l => if x.b = y.a ∧ x.cls = y.cls then ⟨x.a, y.b, x.cls, x.cont⟩ :: l else x :: y :: l

/-- The changes from a point on. -/
def ivChanges (idle u : Nat) : List Iv → Nat → List GlChange
  | [], t => if t < u then [⟨t, false, idle⟩] else []
  | x :: l, t =>
    (if t < x.a then [⟨t, false, idle⟩] else []) ++ ⟨x.a, !x.cont, 2 ^ x.cls⟩ :: ivChanges idle u l x.b

/-- The gate list of a port: empty when it holds no stroke. -/
def gateListOf (strokes : List Stroke) (peal e : Nat) : List GlChange :=
  let ks := strokes.filter (fun k => k.port == e)
  let u := peal / 8
  let l := ivJoin ((ks.flatMap (strokeIvs u)).foldr ivInsert [])
  let ends := match l.getLast? with
    | some z => l.map (fun x => if x.a = 0 ∧ z.b = u ∧ z.cls = x.cls then { x with cont := true } else x)
    | none => l
  let sched := ks.foldl (fun m k => m ||| 2 ^ k.cls) 0
  if ks = [] then [] else ivChanges (255 - sched) u ends 0

/-- Every gate list of a plan; a port not listed has none. -/
def gateLists (strokes : List Stroke) (peal : Nat) : Tab (List GlChange) :=
  (List.range 32).filterMap (fun e => match gateListOf strokes peal e with
    | [] => none
    | l => some (e, l))

/-- Some list holds more than 1 024 changes. -/
def tooManyChanges (strokes : List Stroke) (peal : Nat) : Bool :=
  (gateLists strokes peal).any (fun e => decide (1024 < e.2.length))

/-- Load of a port in units of 10⁻¹²: the sum of width over period. -/
def loadOf (strokes : List Stroke) (e : Nat) : Nat :=
  ((strokes.filter (fun k => k.port == e)).map (fun k => k.wid * (1000000000000 / max k.period 1))).sum

/-! ## Placing a stream (R289) -/

/-- A stream placed on its ports from index `i` on: the plan with its strokes and results, or the reason and the index. -/
def placeOn (img : Mem) (x : StreamRec) (plan : Plan) (peal : Nat) : List Nat → Nat → List Stroke → List EgRes →
    Except (Nat × Nat) (List Stroke × List EgRes)
  | [], _, ks, rs => .ok (ks, rs)
  | e :: l, i, ks, rs =>
    let q := quant img x e
    let per := x.period * 1000
    if pmPreempt img e = true ∧ egExpress img e x.tc = false then .error (0x07, i)
    else match findOffset (ks.filter (fun k => k.port == e)) q per (peal / max x.period 1) (per / 8000 + 2) (ceil8 q.rLast) with
      | none => .error (0x08, i)
      | some o =>
        let g := ceilDiv (o - q.r0) 1000
        let qn := ceilDiv q.q 1000
        let lat := ceilDiv q.base 1000 + qn + g
        if x.bound < lat then .error (0x09, i)
        else if stMaxLoad img * 1000000000 < loadOf ks e + q.w * (1000000000000 / max per 1) then .error (0x0A, i)
        else
          let ks1 := ks ++ [⟨e, o % max per 1, q.w, per, x.tc, x.id⟩]
          if tooManyChanges ks1 peal then .error (0x0B, i)
          else placeOn img x plan peal l (i + 1) ks1 (rs ++ [⟨o % max per 1, q.w, g, qn, ceilDiv q.b 1000, lat⟩])

/-- place(s): the plan with the stream admitted, or the reason and the egress index. -/
def placeStream (img : Mem) (plan : Plan) (x : StreamRec) : Except (Nat × Nat) Plan :=
  let peal := if plan.peal = 0 then x.period else Nat.lcm plan.peal x.period
  match placeOn img x plan peal x.egress 0 plan.strokes [] with
  | .error e => .error e
  | .ok (ks, rs) => .ok ⟨tabPut plan.streams x.id x, tabPut plan.results x.id rs, ks⟩

/-! ## A job (R289, R291, R295, R296) -/

/-- A declaration to evaluate: `old` for a stream admitted before, `inUse` when its ID belonged to one at its turn. -/
structure Todo where
  x : StreamRec
  old : Bool
  inUse : Bool
  deriving DecidableEq, Repr

/-- An entry's place in the order of R289: period, latency bound, stream ID. -/
def Todo.before (a b : Todo) : Bool :=
  if a.x.period = b.x.period then
    (if a.x.bound = b.x.bound then decide (a.x.id < b.x.id) else decide (a.x.bound < b.x.bound))
  else decide (a.x.period < b.x.period)
def todoInsert (x : Todo) : List Todo → List Todo
  | [] => [x]
  | y :: t => if y.before x then y :: todoInsert x t else x :: y :: t

/-- The owner may withdraw a stream of another owner code (R291). -/
def mayWithdraw (src : JobSrc) (owner : Nat) : Bool :=
  match src with
  | .firmware => owner != ownerCHART
  | .tenant tn _ => owner == tn
  | .detach tn => owner == tn
  | .chart => owner == ownerCHART

/-- The items in order: streams withdrawn, withdrawals with no effect, and declarations. -/
def takeItems (src : JobSrc) (cur : Tab StreamRec) : List JobItem → List Nat → Nat → List Todo → List Nat × Nat × List Todo
  | [], gone, ign, ds => (gone, ign, ds)
  | .declare owner raw :: l, gone, ign, ds =>
    let x := parseDecl owner raw
    takeItems src cur l gone ign (ds ++ [⟨x, false, (tabFind cur x.id).isSome && !gone.contains x.id⟩])
  | .withdraw id :: l, gone, ign, ds =>
    match tabFind cur id with
    | some x =>
      if mayWithdraw src x.owner = true ∧ gone.contains id = false then takeItems src cur l (gone ++ [id]) ign ds
      else takeItems src cur l gone (ign + 1) ds
    | none => takeItems src cur l gone (ign + 1) ds

/-- A verdict of a stream: ID, owner, reason, failing egress index, CRITICAL. -/
abbrev Verdict := Nat × Nat × Nat × Nat × Bool

/-- The checks of R282 and R278 and the placement of one entry. -/
def evaluate (img : Mem) (limit : Nat → Nat) (kept : Tab StreamRec) (plan : Plan) (done : List Verdict) (t : Todo) :
    Except (Nat × Nat) Plan :=
  let x := t.x
  let r := declReason img x
  if r ≠ 0 then .error (r, 0)
  else if t.old = false ∧ x.owner ≠ ownerCHART ∧ x.id < stFirstRt img then .error (0x04, 0)
  else if t.old = false ∧ (t.inUse = true ∨ (tabFind plan.streams x.id).isSome = true) then .error (0x05, 0)
  else if t.old = false ∧ x.owner < 64 ∧
      limit x.owner ≤ (kept.filter (fun e => e.2.owner == x.owner)).length +
        (done.filter (fun v => v.2.1 == x.owner && v.2.2.1 == 0)).length then .error (0x06, 0)
  else placeStream img plan x

/-- The outcome of a synthesis: the plan with its verdicts, or REPACK_FAIL (1) or, for a chart record, MUST_ADMIT_FAIL (2) with the verdict
of the stream that failed (R296). -/
def evalAll (img : Mem) (limit : Nat → Nat) (kept : Tab StreamRec) (repack : Bool) :
    List Todo → Plan → List Verdict → Except (Nat × Verdict) (Plan × List Verdict)
  | [], plan, done => .ok (plan, done)
  | t :: l, plan, done =>
    let note (reason eg : Nat) : Verdict := (t.x.id, t.x.owner, reason, eg, t.x.critical)
    match evaluate img limit kept plan done t with
    | .ok plan1 => evalAll img limit kept repack l plan1 (if t.old then done else done ++ [note 0 0])
    | .error (reason, eg) =>
      if repack = true ∧ t.old = true then .error (1, note reason eg)
      else if t.x.must = true ∧ t.x.owner = ownerCHART then .error (2, note reason eg)
      else evalAll img limit kept repack l plan (if t.old then done else done ++ [note reason eg])

/-- What a synthesis gives. -/
structure SynthOut where
  sched : Sched
  verdicts : List Verdict
  withdrawn : List Nat
  /-- Streams admitted before that a re-pack admitted again. -/
  again : List Nat
  ignored : Nat
  fail : Option (Nat × Verdict)
  deriving DecidableEq, Repr

/-- synthesise(job) under a chart image. -/
def synthesise (img : Mem) (limit : Nat → Nat) (cur : Sched) (src : JobSrc) (items : List JobItem) (repack : Bool) : SynthOut :=
  match takeItems src cur.streams items [] 0 [] with
  | (gone, ign, ds) =>
    let kept := cur.streams.filter (fun e => !gone.contains e.1)
    let keep (e : Nat) : Bool := !gone.contains e
    let base : Plan :=
      if repack then ⟨[], [], []⟩
      else ⟨kept, cur.results.filter (fun e => keep e.1), cur.strokes.filter (fun k => keep k.stream)⟩
    let todo := (if repack then kept.map (fun e => ⟨e.2, true, false⟩) else []) ++ ds
    match evalAll img limit kept repack (todo.foldr todoInsert []) base [] with
    | .error e => ⟨cur, [], gone, [], ign, some e⟩
    | .ok (p, vs) => ⟨⟨p.streams, p.results, p.strokes, p.peal⟩, vs, gone, if repack then kept.map (·.1) else [], ign, none⟩

/-- Items of the chart's job (R301): chart streams whose record is gone or changed leave, new and changed records enter. -/
def chartItems (img : Mem) (cur : Sched) : List JobItem :=
  let recs := stRecords img
  let mine := cur.streams.filter (fun e => e.2.owner == ownerCHART)
  (mine.filter (fun e => !recs.contains e.2.raw)).map (fun e => .withdraw e.1) ++
    (recs.filter (fun r => !mine.any (fun e => e.2.raw == r))).map (fun r => .declare ownerCHART r)

/-- The records of STREAMS that break R282 by themselves (R305): the first such index. -/
def badRecord (img : Mem) : Option Nat :=
  let recs := stRecords img
  (List.range recs.length).find? (fun i =>
    let x := parseDecl ownerCHART (recs.getD i [])
    declReason img x != 0 || decide (stFirstRt img ≤ x.id) ||
      (decide (0 < i) && decide (x.id ≤ (parseDecl ownerCHART (recs.getD (i - 1) [])).id)))

end Sys2Proof.Machine
end

