-- ==== Sys2Proof/Machine/Carillon.lean ====
section
/-! DEFINITION. Carillon's commands: firmware's batch, the jobs and their downbeats, and what a chart change and sleep ask of
Carillon (R278–R303). -/

namespace Sys2Proof.Machine

/-! ## Codes of CAR_CTL.RESULT -/

def crDONE : Nat := 0x2
def crBUSY : Nat := 0x3
def crILLEGAL : Nat := 0x4
def crNOTOWNER : Nat := 0x5
def crQUEUEFULL : Nat := 0x6
def crBATCHFULL : Nat := 0x7
def crCANCELLED : Nat := 0x8
def crALREADY : Nat := 0x9

/-! ## Jobs (R294, R297) -/

/-- The next queued job starts; one that was returned to the queue is a restart (R300). -/
def State.startJob (s : State) : State :=
  if s.car.running.isSome ∨ s.car.waiting.isSome ∨ s.car.held then s
  else match s.car.queue with
    | [] => s
    | j :: q =>
      let s1 := s.putCar { s.car with queue := q, running := some { j with again := false } }
      let s2 := if j.again then s1.inc CAR_RESTART_CNT_VAL else s1
      if j.src = .firmware then s2.carShow 3 else s2

def execJobStart (s : State) : Host.Outcome State Fault Refusal := .next s.startJob

/-- The streams a tenant may have admitted. -/
def State.streamLimit (s : State) (tn : Nat) : Nat := s.fld (TNW_REQ2_STREAM tn)

/-- A verdict recorded (R291). Of a stream that the schedule in force admits, the result memory goes on showing what is in force
(`State.carView`). -/
def State.carVerdict (s : State) (results : Tab (List EgRes)) (v : Verdict) : State :=
  match v with
  | (id, owner, reason, eg, crit) =>
    if reason = 0 then s.setRes id ⟨owner, crit, 0, 0, tabGet [] results id, true⟩ else s.setRes id ⟨owner, crit, reason, eg, [], false⟩

/-- Streams rejected: the event and the count. -/
def State.carRejects (s : State) (n : Nat) : State :=
  if n = 0 then s else (s.addCnt CAR_REJECT_CNT_VAL n).setFlag CAR_EVT_REJECT

/-- A firmware or chart job that changes nothing, and its REPACK_FAIL or MUST_ADMIT_FAIL in CAR_JOB_ERR (R296). -/
def State.carFail (s : State) (j : Job) (code : Nat) (v : Verdict) : State :=
  let s1 := ((j.items.foldl State.notEvaluated s).carVerdict [] v).carRejects 1
  let s2 := ((s1.put CAR_JOB_ERR_VALID 1).put CAR_JOB_ERR_STREAM v.1).put CAR_JOB_ERR_CODE code
  if j.src = .firmware then (s2.carShow 6).setFlag CAR_EVT_JOB_DONE else s2

/-- The result of a stream changed, if it has one. -/
def State.carMark (s : State) (id : Nat) (f : StreamRes → StreamRes) : State :=
  match s.carRes id with
  | some x => s.setRes id (f x)
  | none => s

/-- The verdicts, rejections and ignored withdrawals of a job that is DONE; the streams that a re-pack evaluated again read ADMITTED. -/
def State.carNote (s : State) (out : SynthOut) : State :=
  let s1 := out.verdicts.foldl (fun s v => s.carVerdict out.sched.results v) s
  let s2 := out.withdrawn.foldl (fun s id => s.carMark id (fun x => { x with pending := true })) s1
  let s3 := out.again.foldl (fun s id => s.carMark id (fun x => { x with reason := 0, failEg := 0 })) s2
  (s3.carRejects (out.verdicts.filter (fun v => v.2.2.1 != 0)).length).addCnt CAR_WD_IGNORED_CNT_VAL out.ignored

/-- First peal boundary of the schedule in force at or after a CT48 arm time and now, in ns of TB0. -/
def State.nextBoundary (s : State) (arm : Option Nat) : Nat :=
  let wait := match arm with
    | some a => if ctLater a s.nowCt then (a + 2 ^ 48 - s.nowCt) % 2 ^ 48 else 0
    | none => 0
  let t := s.nowNs + wait
  let p := s.car.sched.peal
  if p = 0 then t else ceilDiv t p * p

/-- The running job completes. -/
def State.completeJob (s : State) : State :=
  match s.car.running with
  | none => s
  | some j =>
    let out := synthesise s.active s.streamLimit s.car.sched j.src j.items j.repack
    let s1 := (s.putCar { s.car with running := none }).inc CAR_JOB_CNT_VAL
    match out.fail with
    | some (code, v) => s1.carFail j code v
    | none =>
      let late := match j.arm with
        | some a => ctLater s.nowCt a
        | none => false
      let s2 := s1.carNote out
      let s4 := s2.putCar { s2.car with waiting := some ⟨j, out.sched, out.verdicts, out.withdrawn, s.nextBoundary j.arm % 2 ^ 48⟩ }
      if j.src = .firmware then
        let s5 := s4.carShow 4
        if late then (s5.put CAR_STATUS_LATE 1).setFlag CAR_EVT_JOB_LATE else s5
      else s4

def execJobComplete (s : State) : Host.Outcome State Fault Refusal := .next s.completeJob

/-! ## The downbeat of a job (R280, R293, R297) -/

/-- The snare of an admitted stream; its RATE holds 25 000 000 at most, as a write would leave it (log 45). -/
def State.snareLoad (s : State) (x : StreamRec) : State :=
  [Plane.A, Plane.B].foldl (fun s pl =>
    let i := x.id
    let s1 := (((s.put (SCH_SNARE_CFG_EN pl i) 1).put (SCH_SNARE_CFG_RESET_FULL pl i) 1).put (SCH_SNARE_CFG_GATE_CHECK pl i)
      (bitN x.gateCheck)).put (SCH_SNARE_CFG_ACTION pl i) (bitN x.demote)
    let s2 := ((s1.put (SCH_SNARE_CFG_DEMOTE_TC pl i) x.demoteTc).put (SCH_SNARE_CFG_RATE pl i)
      (min (ceilDiv (x.frames * x.maxIn * 8000000) x.period) 25000000)).put (SCH_SNARE_BURST_BURST pl i) (x.frames * x.maxIn)
    (s2.put (SCH_SNARE_MAXSDU_MAXSDU pl i) x.maxIn).shReset (SCH_SNARE_CFG_EN pl i) (SCH_SNARE_CFG_RESET_FULL pl i)
      (SCH_SNARE_BURST_BURST pl i) (SCH_SNARE_LEVEL_LEVEL pl i)) s

/-- The streams marked critical change: entries that name one gain or lose AUTO_PIN (R167, R280). -/
def State.setCrit (s : State) (l : List Nat) : State :=
  let old := s.crit
  let rs := (s.plane s.engine).regions
  let names (p : Nat → Bool) (x : Nat × Nat × Slot) : Bool := match resStream x.2.2.result with
    | some i => p i
    | none => false
  (List.range rs.length).foldl (fun s ri => match rs[ri]? with
    | none => s
    | some r =>
      let es := s.entriesOf r
      let s1 := s.tblApply ri ((es.filter (names (fun i => old.contains i && !l.contains i))).map
        (fun x => .status x.1 x.2.1 0 stAUTOPIN))
      (es.filter (names (fun i => l.contains i && !old.contains i))).foldl
        (fun s x => s.autoPin ri x.1 x.2.1 x.2.2.result) s1) ({ s with crit := l } : State)

/-- The ports of MISMATCH whose speeds agree again, or which no stroke and no stream uses any more (R302). -/
def State.rateAgain (s : State) : State :=
  (List.range 32).foldl (fun s p =>
    if s.flag (CAR_PORT_STAT_MISMATCH p) ∧ (s.carUses p = false ∨ s.fld (ETH_STATUS_SPEED p) = s.plannedSpeed p) then
      s.put (CAR_PORT_STAT_MISMATCH p) 0 else s) s

/-- A schedule comes into force: gate lists, peal, snares, critical streams and results (R293). A withdrawn stream keeps in its result what
was in force, unless the job declared it anew. -/
def State.carInForce (s : State) (d : JobDone) : State :=
  let admitted := d.verdicts.filter (fun v => v.2.2.1 == 0)
  let old := s.carView
  let s1 := (s.putCar { s.car with sched := d.sched, lists := gateLists d.sched.strokes d.sched.peal }).rateAgain
  let s2 := d.withdrawn.foldl (fun s id =>
    let s1 := (s.put (SCH_SNARE_CFG_EN .A id) 0).put (SCH_SNARE_CFG_EN .B id) 0
    match old id with
    | some x => if d.verdicts.any (fun v => v.1 == id) then s1 else s1.setRes id { x with reason := 0x0C, pending := false }
    | none => s1) s1
  let s3 := admitted.foldl (fun s v => match tabFind d.sched.streams v.1 with
    | some x => s.snareLoad x
    | none => s) s2
  let s4 := d.sched.results.foldl (fun s e => s.carMark e.1 (fun x => { x with eg := e.2, pending := false })) s3
  s4.setCrit ((d.sched.streams.filter (fun e => e.2.critical)).map (·.1))

/-- A job's downbeat: its schedule comes into force, its admissions count (R297). -/
def State.carApply (s : State) (d : JobDone) : State :=
  (((s.putCar { s.car with lastBeat := d.beat }).carInForce d).addCnt CAR_ADMIT_CNT_VAL (d.verdicts.filter (fun v => v.2.2.1 == 0)).length).setFlag CAR_EVT_DOWNBEAT

/-- A tenant's stream command completes at its downbeat (R494, R495). -/
def State.carTenant (s : State) (tn cmd : Nat) (d : JobDone) : State :=
  let done (status : Nat) (data : List Byte) : State :=
    s.setTen tn ((s.ten tn).endCmd (fun c => c.st == .inCarillon && c.id == cmd) status data)
  match d.verdicts with
  | (id, _, reason, _, _) :: _ =>
    let lat := (((tabGet [] d.sched.results id).head?).map (·.l)).getD 0
    if reason = 0 then done 0x00 ([0, 0, 0, 0] ++ leBytes 4 lat)
    else done (if reason = 0x06 then 0x03 else 0x0A) [BitVec.ofNat 8 reason]
  | [] => if d.withdrawn = [] then done 0x07 [] else done 0x00 [0x0C]

/-- TB0 has reached the downbeat of the job that waits. -/
def State.beatDue (s : State) : Bool := s.car.waiting.any (fun d => !ctLater d.beat s.nowCt)

/-- The downbeat of the job that waits, once TB0 has reached it. -/
def State.jobDownbeat (s : State) : State :=
  match s.car.waiting with
  | none => s
  | some d =>
    if s.beatDue = false then s
    else
      let s0 := s.newEra
      let s1 := (s0.putCar { s0.car with waiting := none }).carApply d
      match d.job.src with
      | .firmware => (s1.carShow 5).setFlag CAR_EVT_JOB_DONE
      | .tenant tn cmd => s1.carTenant tn cmd d
      | .detach tn => s1.detachDone tn
      | .chart => s1

def execJobDownbeat (s : State) : Host.Outcome State Fault Refusal := .next s.jobDownbeat

/-! ## Firmware's batch (R295, R299) -/

/-- An item appended to firmware's batch. -/
def State.carAppend (s : State) (i : JobItem) : State :=
  if 512 ≤ s.car.batch.length then s.put CAR_CTL_RESULT crBATCHFULL
  else
    let s1 := (s.putCar { s.car with batch := s.car.batch ++ [i] }).put CAR_CTL_RESULT crDONE
    let st := s.fld CAR_STATUS_JOB
    if 2 ≤ st ∧ st ≤ 4 then s1 else s1.put CAR_STATUS_JOB 1

/-- The job queue is full: 16 jobs (R294). -/
def State.carFull (s : State) : Bool := decide (16 ≤ s.car.queue.length)

/-- SYNTH. -/
def State.carSubmitBatch (s : State) (repack : Bool) : State :=
  if s.car.batch = [] then s.put CAR_CTL_RESULT crILLEGAL
  else if s.carFull then s.put CAR_CTL_RESULT crQUEUEFULL
  else
    let job : Job := ⟨.firmware, s.car.batch, repack, some (s.fld64 CAR_ARM_TIME_LO_TIME CAR_ARM_TIME_HI_TIME), false⟩
    let s1 := s.putCar { s.car with queue := s.car.queue ++ [job], batch := [] }
    ((s1.put CAR_STATUS_JOB 2).put CAR_STATUS_LATE 0).put CAR_CTL_RESULT crDONE

/-- The last job of firmware in the queue removed. -/
def dropLastFw (l : List Job) : List Job × Option Job :=
  match l.reverse.find? (fun j => j.src == .firmware) with
  | none => (l, none)
  | some j => ((l.reverse.erase j).reverse, some j)

/-- CANCEL of firmware's latest job; `late` when its downbeat falls in the same clock, which wins. -/
def State.carCancel (s : State) (late : Bool) : State :=
  let fw (j : Job) : Bool := j.src == .firmware
  let c := s.car
  let st := s.fld CAR_STATUS_JOB
  if st < 2 then s.put CAR_CTL_RESULT crILLEGAL
  else if 4 < st then s.put CAR_CTL_RESULT crALREADY
  else
    match dropLastFw c.queue with
    | (q, some j) => ((s.putCar { c with queue := q }).carCancelled j |>.put CAR_STATUS_JOB 7).put CAR_CTL_RESULT crCANCELLED
    | (_, none) =>
      match c.running, c.waiting with
      | some j, _ =>
        if fw j then ((s.putCar { c with running := none }).carCancelled j).put CAR_CTL_RESULT crCANCELLED
        else s.put CAR_CTL_RESULT crALREADY
      | none, some d =>
        if fw d.job = false then s.put CAR_CTL_RESULT crALREADY
        else if late = true ∧ s.beatDue then s.jobDownbeat.put CAR_CTL_RESULT crALREADY
        else ((s.putCar { c with waiting := none }).carCancelled d.job).put CAR_CTL_RESULT crCANCELLED
      | none, none => s.put CAR_CTL_RESULT crALREADY

/-- A write of CAR_CTL by the management cluster. -/
def State.writeCarCtl (s : State) (cmd arg : Nat) (repack late : Bool) : State :=
  if s.fld CAR_CTL_RESULT = 1 then s.put CAR_CTL_RESULT crBUSY
  else match cmd with
    | 1 => s.carAppend (.declare ownerFW (s.window (rCAR_DECL 0) 48))
    | 2 => s.carAppend (.withdraw (arg % 4096))
    | 3 => s.carSubmitBatch repack
    | 4 => s.carCancel late
    | _ => s.put CAR_CTL_RESULT crILLEGAL

/-- CAR_CTL takes commands from the management cluster only (R307). -/
def State.carCommand (s : State) (r : Requester) (cmd arg : Nat) (repack late : Bool) : State :=
  s.mcOnly r rCAR_CTL CAR_CTL_RESULT crNOTOWNER (fun s => s.writeCarCtl cmd arg repack late)

def execCarDeclare (r : Requester) (s : State) : Host.Outcome State Fault Refusal := .next (s.carCommand r 1 0 false false)

def execCarWithdraw (r : Requester) (stream : Nat) (s : State) : Host.Outcome State Fault Refusal :=
  .next (s.carCommand r 2 stream false false)

def execCarSynth (r : Requester) (repack : Bool) (s : State) : Host.Outcome State Fault Refusal :=
  .next (s.carCommand r 3 0 repack false)

def execCarCancel (r : Requester) (late : Bool) (s : State) : Host.Outcome State Fault Refusal :=
  .next (s.carCommand r 4 0 false late)

/-! ## What a chart change needs (R300, R301) and sleep (R303) -/

/-- The two charts declare streams alike. -/
def State.streamsSame (s : State) : Bool := secSame s.active s.shadow tySTREAMS

/-- ARM of a chart with another STREAMS section: the job running or waiting returns to the queue, which is held. -/
def State.carHold (s : State) : State :=
  let c := s.car
  let back := ((c.waiting.map (·.job)).toList ++ c.running.toList).map (fun j => { j with again := true })
  let marks : List Nat := match c.waiting with
    | some d => d.verdicts.map (fun (v : Verdict) => v.1) ++ d.withdrawn
    | none => []
  let s1 := marks.foldl (fun s id => s.carMark id (fun x => { x with pending := false }))
    (s.putCar { c with queue := back ++ c.queue, running := none, waiting := none, held := true })
  if back.any (fun j => j.src == .firmware) ∧ 3 ≤ s.fld CAR_STATUS_JOB ∧ s.fld CAR_STATUS_JOB ≤ 4 then s1.put CAR_STATUS_JOB 2
  else s1

/-- The queue is released: at the chart's downbeat, a DISARM, a completed ABORT_SWAP or a failed preparation. A schedule of the chart that
did not take effect is dropped, and its streams read NOT_EVALUATED. -/
def State.carRelease (s : State) : State :=
  let s1 := s.putCar { s.car with held := false, chartDone := none }
  match s.car.chartDone with
  | some d => s1.carCancelled d.job
  | none => s1

/-- An admitted run-time stream lies below FIRST_RT of an image. -/
def State.firstRtAbove (s : State) (img : Mem) : Bool :=
  s.car.sched.streams.any (fun e => e.2.owner != ownerCHART && decide (e.1 < stFirstRt img))

/-- The chart's preparation job: its verdicts noted and its schedule kept for the downbeat, or a failure. -/
def State.carChart (s : State) (img : Mem) : State × Bool :=
  let out := synthesise img s.streamLimit s.car.sched .chart (chartItems img s.car.sched) (stRepack img)
  let job : Job := ⟨.chart, chartItems img s.car.sched, stRepack img, none, false⟩
  let s1 := s.inc CAR_JOB_CNT_VAL
  match out.fail with
  | some (code, v) => (s1.carFail job code v, false)
  | none =>
    if s.firstRtAbove img then (s1.carCancelled job, false)
    else
      let s2 := s1.carNote out
      (s2.putCar { s2.car with chartDone := some ⟨job, out.sched, out.verdicts, out.withdrawn, s2.car.lastBeat⟩ }, true)

/-- The chart's schedule takes effect and the queue is released. At a cold boot there is no downbeat (R301). -/
def State.carChartApply (s : State) : State :=
  match s.car.chartDone with
  | some d =>
    let s1 := s.putCar { s.car with held := false, chartDone := none }
    if s.inState .boot then s1.carInForce d else s1.carApply d
  | none => s

/-- Sleep entry: every job ends as cancelled, and the batch is emptied. -/
def State.carSleep (s : State) : State :=
  let s1 := s.carRelease.carDrop (fun _ => true)
  s1.putCar { s1.car with batch := [] }

end Sys2Proof.Machine
end

