-- ==== Sys2Proof/Machine/ChartCheck.lean ====
section
/-! DEFINITION. Check 16 of R47 for the cold sections and for the sections of parsing: the first faulty record of a section
by the numbering of R557. -/

namespace Sys2Proof.Machine

/-- No record (R557). -/
def noRec : Nat := 0xFFFFFFFF

/-- A check of a section: a fault of its header or length, else the first faulty record below `n`. -/
def secCheck (header : Bool) (n : Nat) (bad : Nat → Bool) : Option Nat :=
  if header then some noRec else (List.range n).find? bad

/-- Bytes of a section from `i` on that must be 0 and are not. -/
def dirty (img : Mem) (ty i n : Nat) : Bool := (List.range n).any (fun k => sec8 img ty (i + k) != 0)

/-- A number lies outside a range. -/
def outside (lo hi v : Nat) : Bool := decide (v < lo) || decide (hi < v)

/-- A number is a power of two. -/
def powTwo (v : Nat) : Bool := v != 0 && v &&& (v - 1) == 0

/-- Two ranges of numbers have one in common. -/
def rangesMeet (a n b m : Nat) : Bool := decide (a < b + m) && decide (b < a + n) && n != 0 && m != 0

/-- Run mode of a domain in POWERMAP. -/
def pwrMode (img : Mem) (d : Nat) : Nat := sec8 img tyPOWERMAP d

/-! ## PORTMAP (R96, R97) -/

/-- KIND of a port by its number (R26). -/
def portKind (p : Nat) : Nat := if p < 8 then 0 else if p < 24 then 1 else if p < 32 then 2 else if p < 64 then 3 else 4

/-- Modes permitted on an enabled port of a kind (R74). -/
def modesOf : Nat → List Nat
  | 0 => [0x01, 0x02, 0x03, 0x04, 0x05]
  | 1 => [0x04, 0x05]
  | 2 => [0x10]
  | _ => [0x00]

/-- Line-rate family of a mode (R74). -/
def familyOf (mode : Nat) : Nat := if mode = 1 then 0 else if mode ≤ 3 then 1 else 2

/-- An enabled port of the quad below this one uses another family (R75). -/
def quadClash (img : Mem) (p : Nat) : Bool :=
  (List.range (p % 4)).any (fun k => pmEnabled img (p / 4 * 4 + k) &&
    familyOf (pmLe img (p / 4 * 4 + k) 3 1) != familyOf (pmLe img p 3 1))

def pmBad (img : Mem) (p : Nat) : Bool :=
  let k := portKind p
  let fl := pmLe img p 2 1
  let mode := pmLe img p 3 1
  pmLe img p 0 1 != p || pmLe img p 1 1 != k || decide (16 ≤ fl) || dirty img tyPORTMAP (16 * p + 13) 3 ||
    (if 32 ≤ p then
      decide (2 ≤ fl) || mode != 0 || dirty img tyPORTMAP (16 * p + 4) 9 || (bitOf fl 0 && pwrMode img 2 == 0)
    else if bitOf fl 0 = false then mode != 0
    else
      !(modesOf k).contains mode || outside 1518 (if k = 2 then 1526 else 9216) (pmLe img p 4 2) ||
        decide (1000 < pmLe img p 6 2) ||
        (if k = 2 then
          bitOf fl 1 || decide (15 < pmLe img p 8 1) || outside 1 16 (pmLe img p 9 1) ||
            decide (pmLe img p 9 1 ≤ pmLe img p 8 1) || pmLe img p 10 1 == 0 || pmLe img p 12 1 == 0
        else
          decide (3 < pmLe img p 8 1) || (!bitOf fl 1 && pmLe img p 8 1 != 0) || dirty img tyPORTMAP (16 * p + 9) 4 ||
            quadClash img p) ||
        pwrMode img (portDomain p) == 0)

def checkPORTMAP (img : Mem) : Option Nat := secCheck (secLen img tyPORTMAP != 1280) 80 (pmBad img)

/-! ## POWERMAP (R521, R522) -/

/-- Run modes that a domain may take (R505). -/
def domModes : Nat → List Nat
  | 0 => [1]
  | 1 => [1]
  | 6 => [1]
  | 7 => [0, 1]
  | 8 => [1]
  | 9 => [1]
  | _ => [0, 1, 2]

/-- TENANTQ enables a PCIe tenant. -/
def pcieTenant (img : Mem) : Bool := (List.range 64).any (fun t => secLe img tyTENANTQ (16 + 40 * t + 1) 1 % 4 == 1)

/-- Check 16 of POWERMAP. Its length and the bytes that are no record are tested before the run modes: R557 puts bytes 12 to 31 in no
order against the records, and the model's choice is to report them first (log 77). -/
def checkPOWERMAP (img : Mem) : Option Nat :=
  let fl := pwrMode img 12
  secCheck (secLen img tyPOWERMAP != 32 || decide (8 ≤ fl) || dirty img tyPOWERMAP 13 19) 12 (fun d =>
    !(domModes d).contains (pwrMode img d) ||
      (pwrMode img d == 0 && ((d == 2 && bitOf fl 0) || (d == 3 && bitOf fl 1) || (d == 11 && bitOf fl 2) ||
        (d == 10 && pcieTenant img))))

/-! ## POOLPLAN (R200, R201) -/

/-- `n` bytes of a pool record, and a pool's size in units of 256 bytes. -/
def ppLe (img : Mem) (p i n : Nat) : Nat := secLe img tyPOOLPLAN (16 + 16 * p + i) n
def ppUnits (img : Mem) (p : Nat) : Nat := ppLe img p 4 4 * (poolSize p / 256)

/-- The largest existing pool, or 3 when none exists, and its F_max. -/
def ppLargest (img : Mem) : Nat := (([3, 2, 1, 0].find? (fun p => ppLe img p 4 4 != 0))).getD 3
def ppMax (img : Mem) : Nat := if ppLe img (ppLargest img) 4 4 = 0 then 0 else fMax (ppLargest img)

/-- The capture area in bytes: base and size. -/
def capArea (img : Mem) : Nat × Nat := (secLe img tyPOOLPLAN 4 4 * 65536, secLe img tyPOOLPLAN 8 4 * 65536)
def capLpddr (img : Mem) : Bool := bitOf (sec8 img tyPOOLPLAN 0) 0

/-- `n` bytes of a region record of TABLEPLAN, and its backing range. -/
def tpLe (img : Mem) (r i n : Nat) : Nat := secLe img tyTABLEPLAN (272 + 32 * r + i) n
def tpCount (img : Mem) : Nat := sec8 img tyTABLEPLAN 0
def tpPageable (img : Mem) (r : Nat) : Bool := bitOf (tpLe img r 2 1) 0
def tpBacking (img : Mem) (r : Nat) : Nat × Nat := (tpLe img r 20 4 * 65536, tpLe img r 12 4 * 128)

def ppBad (img : Mem) (p : Nat) : Bool :=
  let count := ppLe img p 4 4
  let ports := (List.range 32).filter (pmEnabled img)
  ppLe img p 0 1 != p || decide (2 ≤ ppLe img p 1 1) || (p == 3 && ppLe img p 1 1 != 0) || ppLe img p 2 2 != 0 ||
    decide (4194303 < count) || (if count = 0 then ppLe img p 8 4 != 0 else decide (count ≤ ppLe img p 8 4)) ||
    (count != 0 && decide (57344 < ppLe img p 12 4 + ppUnits img p)) ||
    (List.range p).any (fun q => rangesMeet (ppLe img p 12 4) (ppUnits img p) (ppLe img q 12 4) (ppUnits img q)) ||
    (p == 0 && count == 0 && !ports.isEmpty) ||
    (p == ppLargest img && (ports.any (fun e => decide (ppMax img < pmLe img e 4 2)) ||
      (decide (ppMax img < 2176) && (List.range 32).any (fun n => pmEnabled img (32 + n)))))

def tcBad (img : Mem) (c : Nat) : Bool :=
  outside 100 1000000 (secLe img tyPOOLPLAN (80 + 8 * c) 4) || outside 1 14336 (secLe img tyPOOLPLAN (84 + 8 * c) 4)

/-- The capture area lies on a backing range, beyond the LPDDR, or in a domain left off. -/
def capBad (img : Mem) (lpddr : Nat) : Bool :=
  let c := capArea img
  capLpddr img && (decide (lpddr < c.1 + c.2) || pwrMode img 11 == 0 ||
    (List.range (tpCount img)).any (fun r => tpPageable img r && rangesMeet c.1 c.2 (tpBacking img r).1 (tpBacking img r).2))

def checkPOOLPLAN (img : Mem) (lpddr : Nat) : Option Nat :=
  let on := capLpddr img
  let hdr := secLen img tyPOOLPLAN != 144 || decide (2 ≤ sec8 img tyPOOLPLAN 0) || dirty img tyPOOLPLAN 1 3 ||
    dirty img tyPOOLPLAN 12 4 || (if on then outside 1 16384 (secLe img tyPOOLPLAN 8 4) else dirty img tyPOOLPLAN 4 8)
  match secCheck hdr 12 (fun i => if i < 4 then ppBad img i else tcBad img (i - 4)) with
  | some r => some r
  | none => if capBad img lpddr then some noRec else none

/-! ## TABLEPLAN (R169, R170) -/

/-- The region that the tag map gives a tag, if it gives one. -/
def tagRegion (img : Mem) (t : Nat) : Option Nat :=
  let r := sec8 img tyTABLEPLAN (16 + t)
  if r < tpCount img then some r else none

/-- The tag map gives a tag a region of a width. -/
def tagIs (img : Mem) (t : Nat) (wide : Bool) : Bool :=
  match tagRegion img t with
  | some r => (tpLe img r 1 1 == 1) == wide
  | none => false

def tpBad (img : Mem) (lpddr r : Nat) : Bool :=
  let pg := tpPageable img r
  let base := tpLe img r 4 4
  let on := tpLe img r 8 4
  let lg := tpLe img r 12 4
  let b := tpBacking img r
  tpLe img r 0 1 != r || decide (2 ≤ tpLe img r 1 1) || decide (2 ≤ tpLe img r 2 1) || dirty img tyTABLEPLAN (272 + 32 * r + 24) 8 ||
    base % 16 != 0 || decide (32768 < base + on) || !powTwo lg || decide (4194304 < lg) ||
    (if pg then
      tpLe img r 3 1 == 0 || on % 16 != 0 || decide (on ≤ 16 * tpLe img r 3 1) || decide (lpddr < b.1 + b.2) ||
        pwrMode img 11 == 0 || (capLpddr img && rangesMeet b.1 b.2 (capArea img).1 (capArea img).2) ||
        (List.range r).any (fun q => tpPageable img q && rangesMeet b.1 b.2 (tpBacking img q).1 (tpBacking img q).2)
    else
      tpLe img r 3 1 != 0 || !powTwo on || lg != on || tpLe img r 20 4 != 0) ||
    (List.range r).any (fun q => rangesMeet base on (tpLe img q 4 4) (tpLe img q 8 4)) ||
    (sec8 img tyTABLEPLAN 2 == r && tpLe img r 1 1 == 1)

def checkTABLEPLAN (img : Mem) (lpddr : Nat) : Option Nat :=
  let n := tpCount img
  let learn := sec8 img tyTABLEPLAN 2
  let ltag := sec8 img tyTABLEPLAN 3
  let hdr := outside 1 16 n || decide (2 ≤ sec8 img tyTABLEPLAN 1) || (learn != 0xFF && decide (n ≤ learn)) ||
    (learn == 0xFF && ltag != 0) || (sec8 img tyTABLEPLAN 1 == 1 && dirty img tyTABLEPLAN 4 4) || dirty img tyTABLEPLAN 8 8 ||
    secLen img tyTABLEPLAN != 272 + 32 * n
  secCheck hdr (256 + n) (fun i =>
    if i < 256 then
      let r := sec8 img tyTABLEPLAN (16 + i)
      (r != 0xFF && decide (n ≤ r)) || (learn != 0xFF && i == ltag && r != learn)
    else tpBad img lpddr (i - 256))

/-! ## PARSEGRAPH (R107, R108) -/

def pgCount (img : Mem) : Nat := sec8 img tyPARSEGRAPH 0

/-- The nodes to which a node can lead (R101 step 5). -/
def ndEdges (img : Mem) (n : Nat) : List Nat :=
  ndB img n 16 :: (if ndW img n 14 = 0 then [] else (List.range (ndB img n 17)).map (fun k => ndB img n (26 + 3 * k)))

/-- The nodes reached from a list in up to `fuel` moves. -/
def ndClosure (img : Mem) : Nat → List Nat → List Nat
  | 0, l => l
  | fuel + 1, l =>
    let more := ((l.flatMap (ndEdges img)).filter (fun n => decide (n < pgCount img) && !l.contains n)).eraseDups
    if more.isEmpty then l else ndClosure img fuel (l ++ more)

def ndBad (img : Mem) (legacy : List Nat) (n : Nat) : Bool :=
  let nodes := pgCount img
  let miss := fun (x : Nat) => x != 0xFF && decide (nodes ≤ x)
  let minLen := ndB img n 18
  ndB img n 0 != n || (decide (15 < ndB img n 2) && ndB img n 2 != 0xFF) || decide (4 < ndB img n 3) ||
    decide (256 < ndW img n 4) || decide (15 < ndB img n 7) || decide (15 < ndB img n 13) ||
    (ndB img n 11 != 0xFF && decide (sec8 img tyKEYTEMPL 1 ≤ ndB img n 11)) || miss (ndB img n 16) ||
    decide (8 < ndB img n 17) || (ndB img n 10 == 0 && minLen != ndW img n 4) || dirty img tyPARSEGRAPH (16 + 48 * n + 19) 5 ||
    (List.range 8).any (fun k => if k < ndB img n 17 then miss (ndB img n (26 + 3 * k))
      else dirty img tyPARSEGRAPH (16 + 48 * n + 24 + 3 * k) 3) ||
    (ndB img n 10 != 0 && decide (minLen < ndB img n 6 + 2)) || (ndW img n 14 != 0 && decide (minLen < ndB img n 12 + 2)) ||
    ((ndB img n 3 == 1 || ndB img n 3 == 2) && legacy.contains n)

def checkPARSEGRAPH (img : Mem) : Option Nat :=
  let n := pgCount img
  let hdr := outside 1 128 n || (List.range 3).any (fun i => decide (n ≤ sec8 img tyPARSEGRAPH (1 + i))) ||
    (List.range 2).any (fun i => decide (2 ≤ sec8 img tyPARSEGRAPH (4 + i))) || dirty img tyPARSEGRAPH 6 10 ||
    secLen img tyPARSEGRAPH != 16 + 48 * n
  secCheck hdr n (ndBad img (ndClosure img 128 [sec8 img tyPARSEGRAPH 2, sec8 img tyPARSEGRAPH 3].eraseDups))

/-! ## KEYTEMPL (R114, R115) -/

def ktCount (img : Mem) : Nat := sec8 img tyKEYTEMPL 0
def ktProfiles (img : Mem) : Nat := sec8 img tyKEYTEMPL 1

/-- Fields of an extraction word: SRC, OFFSET, WIDTH and DST. -/
def exSrc (w : Nat) : Nat := bits w 27 5
def exOff (w : Nat) : Nat := bits w 19 8
def exWid (w : Nat) : Nat := bits w 9 7 + 1
def exDst (w : Nat) : Nat := bits w 0 9

/-- The extraction words in use of a template. -/
def tmWords (img : Mem) (t : Nat) : List Nat := (List.range (min (tmB img t 3) 16)).map (tmExtr img t)

/-- Two extractions of a list write one key bit. -/
def exOverlap : List Nat → Bool
  | [] => false
  | w :: l => l.any (fun v => rangesMeet (exDst w) (exWid w) (exDst v) (exWid v)) || exOverlap l

def tmBad (img : Mem) (t : Nat) : Bool :=
  let k := tmKind img t
  let l := tmWords img t
  tmB img t 0 != t || decide (3 < k) || decide (16 < tmB img t 3) || dirty img tyKEYTEMPL (8 + 72 * t + 6) 2 ||
    dirty img tyKEYTEMPL (8 + 72 * t + 8 + 4 * l.length) (4 * (16 - l.length)) || exOverlap l ||
    l.any (fun w => decide (kindBits k < exDst w + exWid w) || (decide (16 ≤ exSrc w) && decide (1 < exOff w)) ||
      decide (23 ≤ exSrc w)) ||
    (if k ≤ 1 then
      secLe img tyKEYTEMPL (8 + 72 * t + 4) 2 != 0 || l.any (fun w => decide (exDst w < 8)) ||
        !tagIs img (tmB img t 2) (k == 1)
    else
      tmB img t 2 != 0 || tmB img t 3 != 1 || decide (4095 < secLe img tyKEYTEMPL (8 + 72 * t + 4) 2) ||
        l.any (fun w => exWid w != kindBits k || decide (16 ≤ exSrc w)))

def prBad (img : Mem) (p : Nat) : Bool :=
  (List.range 4).any (fun k =>
    let st := profStage img p k
    decide (3 < st.2) ||
      (if st.1 = 0xFF then st.2 != 0
       else decide (ktCount img ≤ st.1) || (tmWords img st.1).any (fun w => decide (20 + k ≤ exSrc w) && decide (exSrc w ≤ 22))))

def checkKEYTEMPL (img : Mem) : Option Nat :=
  let t := ktCount img
  let p := ktProfiles img
  let hdr := decide (64 < t) || outside 1 32 p || dirty img tyKEYTEMPL 2 6 || secLen img tyKEYTEMPL != 8 + 72 * t + 8 * p
  secCheck hdr (t + p) (fun i => if i < t then tmBad img i else prBad img (i - t))

/-! ## RULES (R116–R118, R399) -/

/-- An entry of RULES: its group's byte offset, its template, key bytes as a number, result word, and whether the group is
pinned; `vary` is the two bytes of VARY_TARGET. -/
structure RuleEntry where
  group : Nat
  tmpl : Nat
  key : Nat
  vary : Option Nat
  result : Nat
  pin : Bool
  /-- First entry of its group. -/
  first : Bool
  deriving DecidableEq, Repr

/-- KEY_BYTES of a template's KIND. -/
def keyLenOf : Nat → Nat
  | 0 => 15
  | 1 => 39
  | 2 => 5
  | _ => 17

/-- Byte `i` of the group header at byte `g`. -/
def rgLe (img : Mem) (g i n : Nat) : Nat := secLe img tyRULES (g + i) n

/-- Length of a group with its padding. -/
def rgLen (img : Mem) (g : Nat) : Nat :=
  let n := 24 + rgLe img g 4 4 * (keyLenOf (tmKind img (rgLe img g 0 1)) + (if bitOf (rgLe img g 1 1) 1 then 2 else 0))
  (n + 7) / 8 * 8

/-- The groups in order, by first byte, with the end of the last one; it stops at the section's end and after a group whose
template is missing, whose length cannot be told. -/
def rgFrom (img : Mem) : Nat → Nat → List Nat → List Nat × Option Nat
  | 0, g, l => (l.reverse, some g)
  | n + 1, g, l =>
    if secLen img tyRULES < g + 24 then (l.reverse, some (g + 24))
    else if ktCount img ≤ rgLe img g 0 1 then ((g :: l).reverse, none)
    else rgFrom img n (g + rgLen img g) (g :: l)

def rgAll (img : Mem) : List Nat × Option Nat := rgFrom img (min (secLe img tyRULES 0 4) (secLen img tyRULES)) 8 []

/-- The entries of a group; a group without entries or without a template stands as one entry for its header's faults. -/
def rgEntries (img : Mem) (g : Nat) : List RuleEntry :=
  let t := rgLe img g 0 1
  let kb := keyLenOf (tmKind img t)
  let v := bitOf (rgLe img g 1 1) 1
  let step := kb + (if v then 2 else 0)
  let res := rgLe img g 8 8
  let pin := bitOf (rgLe img g 1 1) 0
  if ktCount img ≤ t ∨ rgLe img g 4 4 = 0 then [⟨g, t, 0, none, res, pin, true⟩]
  else (List.range (rgLe img g 4 4)).map (fun i =>
    let a := g + 24 + step * i
    let vary := if v then some (secLe img tyRULES (a + kb) 2) else none
    let res' := match vary with
      | some x => setBits res 48 12 x
      | none => res
    ⟨g, t, beNat (memTake img (secOff img tyRULES + a) kb), vary, res', pin, i == 0⟩)

def ruleEntries (img : Mem) : List RuleEntry := (rgAll img).1.flatMap (rgEntries img)

/-- Roles that a template serves in the profiles. -/
def tmRoles (img : Mem) (t : Nat) : List Nat :=
  (List.range (ktProfiles img)).flatMap (fun p => (List.range 4).filterMap (fun k =>
    let st := profStage img p k
    if st.1 = t then some st.2 else none))

/-- Key bits that the extractions of a template write, as a mask of the whole key. -/
def tmMask (img : Mem) (t : Nat) : Nat :=
  let w := kindBits (tmKind img t)
  (tmWords img t).foldl (fun m x => m ||| ((2 ^ exWid x - 1) * 2 ^ (w - exDst x - exWid x))) 0

/-- What makes two keys the same rule: the logical table and the key, a prefix with its length. -/
def RuleEntry.ident (img : Mem) (e : RuleEntry) : Bool × Nat × Nat × Nat :=
  if tmKind img e.tmpl ≤ 1 then (false, tmB img e.tmpl 2, tmKind img e.tmpl, e.key)
  else (true, secLe img tyKEYTEMPL (8 + 72 * e.tmpl + 4) 2, tmKind img e.tmpl, e.key)

/-- A prefix entry: its length and address. -/
def RuleEntry.prefixOf (v6 : Bool) (e : RuleEntry) : Nat × Nat :=
  (e.key / 2 ^ (famBits v6), e.key % 2 ^ (famBits v6))

/-- A PORT or COPY target that no port takes: above 255, or IF5 to IF7. -/
def badTarget (result : Nat) : Bool :=
  let a := bits result 60 4
  let t := bits result 48 12
  (a == 1 || a == 6) && (decide (255 < t) || (decide (85 ≤ t) && decide (t ≤ 87)))

def ruleBad (img : Mem) (e : RuleEntry) : Bool :=
  let roles := tmRoles img e.tmpl
  let k := tmKind img e.tmpl
  (e.first && (decide (4 ≤ rgLe img e.group 1 1) || dirty img tyRULES (e.group + 2) 2 || outside 1 65536 (rgLe img e.group 4 4) ||
    dirty img tyRULES (e.group + 16) 8)) ||
    decide (ktCount img ≤ e.tmpl) ||
    (match e.vary with
     | some v => decide (4096 ≤ v)
     | none => false) ||
    (if k ≤ 1 then e.key &&& tmMask img e.tmpl != e.key
     else
      let v6 := k == 3
      let x := e.prefixOf v6
      decide (famBits v6 < x.1) || maskAddr v6 x.1 x.2 != x.2) ||
    (roles.contains 1 && (bits e.result 50 10 != 0 || bits e.result 8 24 != 0)) ||
    ((roles.isEmpty || roles.any (fun r => r != 1)) && (decide (7 ≤ bits e.result 60 4) || badTarget e.result))

/-- The first entry of a list that is faulty or repeats an earlier one. -/
def ruleScan (img : Mem) : List RuleEntry → Nat → List (Bool × Nat × Nat × Nat) → Option Nat
  | [], _, _ => none
  | e :: l, i, seen =>
    if ruleBad img e || (decide (e.tmpl < ktCount img) && seen.contains (e.ident img)) then some i
    else ruleScan img l (i + 1) (e.ident img :: seen)

/-- RULES (R118). The padding bytes of a group and the reserved bits of a result word are not looked at: R118 does not name them
(log 80). -/
def checkRULES (img : Mem) : Option Nat :=
  let gs := rgAll img
  let short := match gs.2 with
    | some g => g != secLen img tyRULES
    | none => false
  if dirty img tyRULES 4 4 || short || decide (secLen img tyRULES < 8) then some noRec
  else ruleScan img (ruleEntries img) 0 []

/-! ## SPREAD (R126) -/

def checkSPREAD (img : Mem) : Option Nat :=
  secCheck (secLen img tySPREAD != 328 || decide (2 ≤ sec8 img tySPREAD 4) || dirty img tySPREAD 5 3) 264 (fun i =>
    if i < 8 then decide (0x4000 ≤ secLe img tySPREAD (8 + 8 * i) 2) || dirty img tySPREAD (10 + 8 * i) 6
    else decide (7 < sec8 img tySPREAD (72 + (i - 8))))

end Sys2Proof.Machine
end

