-- ==== Sys2Proof/Machine/ChartCheck2.lean ====
section
/-! DEFINITION. Check 16 of R47 for the remaining sections, and the whole verification of a chart (R47, R48). -/

namespace Sys2Proof.Machine

/-! ## EGRESS (R251, R252) -/

def egBad (img : Mem) (p : Nat) : Bool :=
  let fl := egLe img p 3 1
  let a := 8 + 112 * p
  if 85 ≤ p ∧ p ≤ 87 then egLe img p 0 1 != p || dirty img tyEGRESS (a + 1) 111
  else
    egLe img p 0 1 != p || decide (8 ≤ egLe img p 2 1) || decide (8 ≤ fl) || egLe img p 7 1 != 0 ||
      decide (25000000 < egLe img p 8 4) || egLe img p 15 1 != 0 || (bitOf fl 0 && egLe img p 12 4 == 0) ||
      (List.range 8).any (fun c =>
        let b := 16 + 12 * c
        let q := egLe img p b 2
        (if egExpress img p c then q != 0 else decide (q < 64)) || outside 64 (pmMaxLen img p) (egClassMax img p c) ||
          decide (25000000 < egLe img p (b + 4) 4) || decide (4 ≤ egLe img p (b + 11) 1) ||
          (bitOf (egLe img p (b + 11) 1) 0 && egLe img p (b + 8) 3 == 0))

def checkEGRESS (img : Mem) : Option Nat :=
  secCheck (secLen img tyEGRESS != 28680 || secLe img tyEGRESS 0 2 != 256 || dirty img tyEGRESS 2 6) 256 (egBad img)

/-! ## STREAMS (R304, R305) -/

/-- Speed codes that a mode permits. -/
def modeSpeeds : Nat → List Nat
  | 1 => [6]
  | 2 => [5]
  | 3 => [2, 3, 4, 5]
  | 4 => [3]
  | 5 => [1, 2]
  | _ => []

def checkSTREAMS (img : Mem) : Option Nat :=
  let n := secLe img tySTREAMS 0 2
  let hdr := decide (4096 < n) || decide (4096 < stFirstRt img) || decide (2 ≤ sec8 img tySTREAMS 4) || sec8 img tySTREAMS 5 != 0 ||
    outside 1 1000 (stMaxLoad img) || dirty img tySTREAMS 8 8 || secLen img tySTREAMS != 48 + 48 * n
  match secCheck hdr 32 (fun p =>
      stRate img p != 0 && !(decide (p < 24) && pmEnabled img p && (modeSpeeds (pmLe img p 3 1)).contains (stRate img p))) with
  | some r => some r
  | none => (badRecord img).map (fun k => 32 + k)

/-! ## FRER (R320, R321) -/

def frMaps (img : Mem) : Nat := secLe img tyFRER 0 2
def frRecs (img : Mem) : Nat := secLe img tyFRER 2 2
/-- `n` bytes of a map record and of a recovery record. -/
def frMap (img : Mem) (k i n : Nat) : Nat := secLe img tyFRER (16 + 8 * k + i) n
def frRec (img : Mem) (k i n : Nat) : Nat := secLe img tyFRER (16 + 8 * frMaps img + 16 * k + i) n

def checkFRER (img : Mem) : Option Nat :=
  let m := frMaps img
  let r := frRecs img
  let entry := fun (x : Nat) => decide (2047 < x) && x != 0xFFFF
  secCheck (decide (4096 < m) || decide (2048 < r) || dirty img tyFRER 4 12 || secLen img tyFRER != 16 + 8 * m + 16 * r) (m + r)
    (fun i =>
      if i < m then
        decide (4095 < frMap img i 0 2) || entry (frMap img i 2 2) || entry (frMap img i 4 2) || frMap img i 6 2 != 0 ||
          (i != 0 && decide (frMap img i 0 2 ≤ frMap img (i - 1) 0 2))
      else
        let k := i - m
        frRec img k 0 2 != k || decide (2047 < frRec img k 2 2) || decide (32 ≤ frRec img k 4 1) ||
          !pmEnabled img (frRec img k 4 1) || decide (1 < frRec img k 5 1) ||
          (if frRec img k 5 1 = 0 then outside 2 128 (frRec img k 6 1) else frRec img k 6 1 != 0) ||
          decide (1 < frRec img k 7 1) || frRec img k 8 2 == 0 || frRec img k 10 2 != 0 || frRec img k 12 4 != 0 ||
          (List.range k).any (fun j => frRec img j 2 2 == frRec img k 2 2 && frRec img j 4 1 == frRec img k 4 1))

/-! ## ZONES (R409, R410) -/

def zcLe (img : Mem) (n i k : Nat) : Nat := secLe img tyZONES (1216 + 520 * n + i) k

/-- A range entry of a CAN list that counts. -/
def zeBad (img : Mem) (n k : Nat) : Bool :=
  let a := 8 + 16 * k
  let lo := zcLe img n a 4
  let hi := zcLe img n (a + 4) 4
  let rate := zcLe img n (a + 8) 4
  let burst := zcLe img n (a + 12) 2
  decide (2 ^ 30 ≤ lo) || decide (2 ^ 29 ≤ hi) || decide (100000 < rate) || (if rate = 0 then burst != 0 else burst == 0) ||
    zcLe img n (a + 14) 2 != 0 || decide (hi < lo % 2 ^ 29) || (!bitOf lo 29 && decide (0x7FF < hi))

def zcBad (img : Mem) (n : Nat) : Bool :=
  if pmEnabled img (32 + n) = false then dirty img tyZONES (1216 + 520 * n) 520
  else
    zcLe img n 0 1 != n || decide (8 ≤ zcLe img n 1 1) || decide (16 < zcLe img n 2 1) || decide (16 < zcLe img n 3 1) ||
      zcLe img n 4 4 != 0 ||
      (List.range 32).any (fun k =>
        if k % 16 < zcLe img n (2 + k / 16) 1 then zeBad img n k else dirty img tyZONES (1216 + 520 * n + 8 + 16 * k) 16)

def checkZONES (img : Mem) : Option Nat :=
  let zc := sec8 img tyZONES 0
  let flows := bitOf (sec8 img tyZONES 1) 0
  let tag := sec8 img tyZONES 2
  let hdr := secLen img tyZONES != 17856 || outside 1 32 zc || decide (4 ≤ sec8 img tyZONES 1) ||
    (if flows then !tagIs img tag true || tagRegion img tag == some (sec8 img tyTABLEPLAN 2) else tag != 0) ||
    sec8 img tyZONES 3 != 0 || decide (100000 < secLe img tyZONES 4 4) || outside 1 1024 (secLe img tyZONES 8 2) ||
    dirty img tyZONES 10 6 || dirty img tyZONES 184 8
  secCheck hdr 1212 (fun i =>
    if i < 4 then secLe img tyZONES (16 + 4 * i) 2 == 0 || dirty img tyZONES (18 + 4 * i) 2
    else if i < 92 then decide (zc ≤ sec8 img tyZONES (28 + i)) || (decide (89 ≤ i) && sec8 img tyZONES (28 + i) != 0)
    else if i < 156 then decide (zc ≤ sec8 img tyZONES (28 + i))
    else if i < 1180 then
      let b := sec8 img tyZONES (36 + i)
      let pol := b % 8
      ((decide (zc ≤ (i - 156) / 32) || decide (zc ≤ (i - 156) % 32)) && b != 0) || decide (4 < pol) || decide (16 ≤ b) ||
        ((pol == 3 || pol == 4) && !flows)
    else zcBad img (i - 1180))

/-! ## LEGACY (R341, R366, R367) -/

def lgCan (img : Mem) (n i k : Nat) : Nat := secLe img tyLEGACY (272 + 32 * n + i) k
def lgLin (img : Mem) (n i k : Nat) : Nat := secLe img tyLEGACY (1296 + 272 * n + i) k

/-- Fields of a bit timing word: quanta per bit with BRP, TSEG1, TSEG2 and SJW. -/
def btBrp (w : Nat) : Nat := bits w 0 5 + 1
def btSeg1 (w : Nat) : Nat := bits w 5 8 + 1
def btSeg2 (w : Nat) : Nat := bits w 13 7 + 1
def btSjw (w : Nat) : Nat := bits w 20 7 + 1
/-- Periods of f_can in one bit. -/
def btTicks (w : Nat) : Nat := btBrp w * (1 + btSeg1 w + btSeg2 w)

/-- A timing word breaks its limits: at most 1, 8 and 20 Mbit/s, data rates at least the nominal rate (R341). -/
def nbtBad (w : Nat) : Bool :=
  decide (2 ^ 27 ≤ w) || decide (btSeg1 w < 2) || decide (btSeg2 w < btSjw w) || decide (btTicks w < 80)
def dataBtBad (nbt minTicks w : Nat) : Bool :=
  decide (2 ^ 27 ≤ w) || decide (32 < btSeg1 w) || decide (16 < btSeg2 w) || decide (btSeg2 w < btSjw w) ||
    decide (btTicks nbt < btTicks w) || decide (btTicks w < minTicks)

def lgCanBad (img : Mem) (n : Nat) : Bool :=
  if pmEnabled img (32 + n) = false then dirty img tyLEGACY (272 + 32 * n) 32
  else
    let mode := lgCan img n 1 1
    let fl := lgCan img n 2 1
    let nbt := lgCan img n 4 4
    lgCan img n 0 1 != n || decide (2 < mode) || decide (128 ≤ fl) || decide (31 < lgCan img n 3 1) || nbtBad nbt ||
      (if mode = 0 then lgCan img n 8 4 != 0 else dataBtBad nbt 10 (lgCan img n 8 4)) ||
      (if mode = 2 then dataBtBad nbt 4 (lgCan img n 12 4) else lgCan img n 12 4 != 0) ||
      decide (1000 < lgCan img n 16 2) ||
      (if bitOf fl 2 then outside 1 16 (lgCan img n 18 1) || decide (sec8 img tyLEGACY 2 ≤ lgCan img n 23 1)
       else lgCan img n 18 1 != 0) ||
      decide (2047 < lgCan img n 20 2) || lgCan img n 28 4 != 0 ||
      (bitOf fl 4 && (mode != 2 || sec8 img tyLEGACY 1 == 0))

/-- Frame entry `id` of a LIN record: DIR, ENHANCED, LEN. -/
def lgDir (img : Mem) (n id : Nat) : Nat := lgLin img n (16 + 2 * id) 1 % 4
def lgFrameBad (img : Mem) (n id : Nat) : Bool :=
  let b := lgLin img n (16 + 2 * id) 1
  let len := lgLin img n (17 + 2 * id) 1
  decide (8 ≤ b) || b % 4 == 3 || (if b % 4 = 0 then len != 0 else outside 1 8 len) ||
    ((id == 60 || id == 61) && bitOf b 2) || ((id == 62 || id == 63) && b % 4 != 0)

def lgLinBad (img : Mem) (n : Nat) : Bool :=
  if pmEnabled img (64 + n) = false then dirty img tyLEGACY (1296 + 272 * n) 272
  else
    let role := lgLin img n 1 1
    let fl := lgLin img n 2 1
    let baud := lgLin img n 4 2
    let tables := lgLin img n 10 1
    let entries := lgLin img n 11 1
    lgLin img n 0 1 != n || decide (1 < role) || decide (8 ≤ fl) || decide (31 < lgLin img n 3 1) || outside 1000 20000 baud ||
      decide (1000 < lgLin img n 6 2) ||
      (if bitOf fl 1 then outside 1 16 (lgLin img n 8 1) || decide (sec8 img tyLEGACY 2 ≤ lgLin img n 9 1)
       else lgLin img n 8 1 != 0) ||
      decide (4 < tables) || (role == 0 && tables != 0) || decide (64 < entries) ||
      (List.range 4).any (fun k =>
        let st := lgLin img n (12 + k) 1
        if tables ≤ k then st != 0
        else decide (entries ≤ st) || (if k = 0 then st != 0 else decide (st ≤ lgLin img n (11 + k) 1))) ||
      (List.range 64).any (lgFrameBad img n) ||
      (List.range (min entries 64)).any (fun k =>
        let id := lgLin img n (144 + 2 * k) 1
        let slot := lgLin img n (145 + 2 * k) 1
        decide (64 ≤ id) || slot == 0 || lgDir img n id == 0 ||
          decide (slot * baud * 10 < 14 * (34 + 10 * (lgLin img n (17 + 2 * id) 1 + 1)) * 1000))

def checkLEGACY (img : Mem) : Option Nat :=
  let count := sec8 img tyLEGACY 2
  let xt := sec8 img tyLEGACY 0
  secCheck (secLen img tyLEGACY != 5648 || decide (8 < count) || dirty img tyLEGACY 3 13 || (xt != 0xFF && !tagIs img xt false)) 56
    (fun i =>
      if i < 8 then
        let a := 16 + 32 * i
        if count ≤ i then dirty img tyLEGACY a 32
        else bitOf (sec8 img tyLEGACY (a + 6)) 0 || decide (4 ≤ sec8 img tyLEGACY (a + 14)) ||
          decide (3 < sec8 img tyLEGACY (a + 15)) || dirty img tyLEGACY (a + 24) 8
      else if i < 40 then lgCanBad img (i - 8)
      else lgLinBad img (i - 40))

/-! ## NMCLUSTER (R393, R394) -/

def nmLe (img : Mem) (c i n : Nat) : Nat := secLe img tyNMCLUSTER (16 + 48 * c + i) n
def nwLe (img : Mem) (n i k : Nat) : Nat := secLe img tyNMCLUSTER (784 + 104 * n + i) k
def nmOn (img : Mem) (c : Nat) : Bool := bitOf (nmLe img c 1 1) 0

/-- Member ports of a cluster as one mask: CAN, LIN, then TS. -/
def nmMask (img : Mem) (c : Nat) : Nat := nmLe img c 4 4 + nmLe img c 8 2 * 2 ^ 32 + nmLe img c 10 1 * 2 ^ 48

def nmMembers (m : Nat) : List Nat :=
  (List.range 32).filterMap (fun n => if bitOf m n then some (32 + n) else none) ++
    (List.range 16).filterMap (fun n => if bitOf m (32 + n) then some (64 + n) else none) ++
    (List.range 8).filterMap (fun n => if bitOf m (48 + n) then some (24 + n) else none)

def nmBad (img : Mem) (c : Nat) : Bool :=
  if nmOn img c = false then dirty img tyNMCLUSTER (16 + 48 * c) 48
  else
    let range := nmLe img c 14 1
    nmLe img c 0 1 != c || decide (16 ≤ nmLe img c 1 1) || decide (16 ≤ nmLe img c 11 1) || decide (2047 < nmLe img c 12 2) ||
      range == 0 || decide (2048 < nmLe img c 12 2 + range) || decide (range ≤ nmLe img c 2 1) ||
      (decide (31 < nmLe img c 15 1) && nmLe img c 15 1 != 0xFF) || outside 10 1000 (nmLe img c 16 2) ||
      decide (10000 < nmLe img c 18 2) || outside 100 60000 (nmLe img c 20 2) || decide (60000 < nmLe img c 22 2) ||
      decide (10000 < nmLe img c 24 2) || nmLe img c 26 1 == 0 || nmLe img c 27 1 != 0 ||
      dirty img tyNMCLUSTER (16 + 48 * c + 34) 14 || nmMask img c == 0 || (nmMembers (nmMask img c)).any (fun p => !pmEnabled img p) ||
      (List.range c).any (fun d => nmOn img d && (nmMask img c &&& nmMask img d != 0 || nmLe img c 3 1 &&& nmLe img d 3 1 != 0))

def nwBad (img : Mem) (n : Nat) : Bool :=
  if (List.range 16).any (fun c => nmOn img c && bitOf (nmLe img c 4 4) n) = false then dirty img tyNMCLUSTER (784 + 104 * n) 104
  else
    let fl := nwLe img n 1 1
    let cnt := nwLe img n 3 1
    nwLe img n 0 1 != n || decide (8 ≤ fl) || ((nwLe img n 2 1 == 0) == bitOf fl 0) || decide (4 < cnt) ||
      (bitOf fl 0 && cnt == 0) || nwLe img n 4 4 != 0 ||
      (List.range 4).any (fun k =>
        let a := 8 + 24 * k
        if cnt ≤ k then dirty img tyNMCLUSTER (784 + 104 * n + a) 24
        else decide (2 ^ 30 ≤ nwLe img n a 4) || decide (2 ^ 29 ≤ nwLe img n (a + 4) 4) || decide (8 < nwLe img n (a + 8) 1) ||
          decide (1 < nwLe img n (a + 9) 1) || dirty img tyNMCLUSTER (784 + 104 * n + a + 10) 6)

def checkNMCLUSTER (img : Mem) : Option Nat :=
  secCheck (secLen img tyNMCLUSTER != 4112 || dirty img tyNMCLUSTER 0 8) 56 (fun i =>
    if i < 8 then sec8 img tyNMCLUSTER (8 + i) / 4 == 0
    else if i < 24 then nmBad img (i - 8)
    else nwBad img (i - 24))

/-! ## TENANTQ (R502, R503) -/

def tqLe (img : Mem) (t i n : Nat) : Nat := secLe img tyTENANTQ (16 + 40 * t + i) n
def tqOn (img : Mem) (t : Nat) : Bool := bitOf (tqLe img t 1 1) 0
def tqInband (img : Mem) (t : Nat) : Bool := bitOf (tqLe img t 1 1) 1

/-- What names the tenant's function or management flow. -/
def tqName (img : Mem) (t : Nat) : Bool × Nat × Nat × Nat :=
  if tqInband img t then (true, tqLe img t 2 1, tqLe img t 28 2, tqLe img t 30 6) else (false, tqLe img t 2 1, 0, 0)

def tqTags (img : Mem) (t : Nat) : List Nat := (List.range (min (tqLe img t 18 1) 4)).map (fun i => tqLe img t (20 + i) 1)

/-- A tag belongs to the device: learned, flow or translation entries. -/
def deviceTag (img : Mem) (tag : Nat) : Bool :=
  (sec8 img tyTABLEPLAN 2 != 0xFF && tag == sec8 img tyTABLEPLAN 3) || (bitOf (sec8 img tyZONES 1) 0 && tag == sec8 img tyZONES 2) ||
    (sec8 img tyLEGACY 0 != 0xFF && tag == sec8 img tyLEGACY 0)

def tqBad (img : Mem) (t : Nat) : Bool :=
  if tqOn img t = false then dirty img tyTENANTQ (16 + 40 * t) 40
  else
    let inb := tqInband img t
    let hc := tqLe img t 3 1
    let hb := tqLe img t 4 1
    let fn := tqLe img t 2 1
    let earlier := (List.range t).filter (tqOn img)
    tqLe img t 0 1 != t || decide (8 ≤ tqLe img t 1 1) || decide (168 < hc) || decide (167 < hb) || decide (168 < hb + hc) ||
      decide (64 < tqLe img t 5 1) || decide (2048 < tqLe img t 6 2) || decide (1008 < tqLe img t 12 2) ||
      decide (4096 < tqLe img t 14 2) || decide (8 < tqLe img t 16 1) || decide (64 < tqLe img t 17 1) ||
      decide (4 < tqLe img t 18 1) || tqLe img t 19 1 != 0 ||
      dirty img tyTENANTQ (16 + 40 * t + 20 + (tqTags img t).length) (4 - (tqTags img t).length) ||
      outside 10 60000 (tqLe img t 24 2) || dirty img tyTENANTQ (16 + 40 * t + 36) 4 ||
      (if inb then
        decide (23 < fn) || outside 1 4094 (tqLe img t 28 2) || bitOf (tqLe img t 30 1) 0 || tqLe img t 5 1 != 0 ||
          tqLe img t 6 2 != 0 || hc != 0 || tqLe img t 17 1 != 0 || !pmEnabled img fn || !pmMacsec img fn ||
          secBe16 img tyTENANTQ 0 == 0
       else bits fn 5 2 != 0 || dirty img tyTENANTQ (16 + 40 * t + 28) 8) ||
      earlier.any (fun u => tqName img u == tqName img t || rangesMeet hb hc (tqLe img u 4 1) (tqLe img u 3 1) ||
        (tqTags img t).any (fun g => (tqTags img u).contains g)) ||
      (tqTags img t).any (fun g => deviceTag img g || !tagIs img g false) ||
      decide (2048 < tqLe img t 6 2 + (earlier.map (fun u => tqLe img u 6 2)).sum)

def checkTENANTQ (img : Mem) : Option Nat :=
  let et := secBe16 img tyTENANTQ 0
  secCheck (secLen img tyTENANTQ != 2576 || (et != 0 && decide (et < 0x600)) || decide (8 ≤ sec8 img tyTENANTQ 2) ||
    dirty img tyTENANTQ 3 13) 64 (tqBad img)

/-! ## LEDGER, USERCAL, PLANE (R337, R433, R434, R533) -/

def lcBad (img : Mem) (c : Nat) : Bool :=
  if bitOf (ldgChan img c 1 1) 0 = false then dirty img tyLEDGER (16 + 16 * c) 16
  else
    let p := ldgChan img c 2 1
    let cl := ldgChan img c 3 1
    ldgChan img c 0 1 != c || ldgChan img c 1 1 != 1 || decide (64 ≤ p) || !pmEnabled img p ||
      (cl != 0xFF && (decide (15 < cl) || !nmOn img cl)) || outside 16 1023 (ldgChan img c 6 2) ||
      outside 1 3600 (ldgChan img c 8 2) || dirty img tyLEDGER (16 + 16 * c + 10) 6 ||
      (List.range c).any (fun d => bitOf (ldgChan img d 1 1) 0 && ldgChan img d 2 1 == p && ldgChan img d 4 2 == ldgChan img c 4 2)

def checkLEDGER (img : Mem) : Option Nat :=
  let et := secBe16 img tyLEDGER 0
  let ck := secLe img tyLEDGER 2 2
  secCheck (secLen img tyLEDGER != 1040 || (et != 0 && decide (et < 0x600)) || (ck != 0 && decide (ck < 10)) || dirty img tyLEDGER 4 12)
    64 (lcBad img)

def ucBad (img : Mem) (i : Nat) : Bool :=
  let a := 16 + 8 * i
  let kind := sec8 img tyUSERCAL a
  let ix := sec8 img tyUSERCAL (a + 1)
  let v := toSigned32 (secLe img tyUSERCAL (a + 4) 4)
  let lim : Int := if kind = 3 then 100 else 1048575
  outside 1 3 kind || (if kind = 3 then ix != 0 else decide (32 ≤ ix) || !pmEnabled img ix) || dirty img tyUSERCAL (a + 2) 2 ||
    decide (v < -lim) || decide (lim < v) ||
    (i != 0 && decide (256 * kind + ix ≤ 256 * sec8 img tyUSERCAL (a - 8) + sec8 img tyUSERCAL (a - 7)))

def checkUSERCAL (img : Mem) : Option Nat :=
  let n := secLe img tyUSERCAL 0 2
  secCheck (decide (65 < n) || dirty img tyUSERCAL 2 14 || secLen img tyUSERCAL != 16 + 8 * n) n (ucBad img)

def checkPLANE (img : Mem) : Option Nat :=
  let pr := sec8 img tyPLANE 0
  secCheck (secLen img tyPLANE != 16 || (decide (1 < pr) && pr != 0xFF) || sec8 img tyPLANE 1 != 0 ||
    outside 10 10000 (secLe img tyPLANE 2 2) || dirty img tyPLANE 4 12 || (pr == 1 && pwrMode img 7 == 0)) 0 (fun _ => false)

/-! ## Verification (R47) -/

/-- Check 16 of one section; `lpddr` is the LPDDR size in bytes. -/
def checkSection (img : Mem) (lpddr ty : Nat) : Option Nat :=
  match ty with
  | 0x01 => checkPORTMAP img
  | 0x02 => checkPOWERMAP img
  | 0x03 => checkPOOLPLAN img lpddr
  | 0x04 => checkTABLEPLAN img lpddr
  | 0x05 => checkPARSEGRAPH img
  | 0x06 => checkKEYTEMPL img
  | 0x07 => checkRULES img
  | 0x08 => checkSPREAD img
  | 0x09 => checkEGRESS img
  | 0x0A => checkSTREAMS img
  | 0x0B => checkFRER img
  | 0x0C => checkZONES img
  | 0x0D => checkLEGACY img
  | 0x0E => checkNMCLUSTER img
  | 0x0F => checkTENANTQ img
  | 0x10 => checkLEDGER img
  | 0x11 => checkUSERCAL img
  | 0x12 => checkPLANE img
  | _ => none

/-- The section types with records, 0x01 to 0x12. -/
def sectionTypes : List Nat := (List.range 18).map (· + 1)

/-- A verification error: CODE, SECTION, RECORD. -/
structure ChtErr where
  code : Nat
  sect : Nat
  record : Nat
  deriving DecidableEq, Repr

/-- Directory rules of R43 over the entries in order, from the first byte that a section may use. -/
def dirBad (img : Mem) (total : Nat) : List DirEntry → Nat → Nat → Bool
  | [], pos, _ => pos != total
  | e :: l, pos, prev =>
    decide (2 ≤ e.flags) || e.off % 8 != 0 || decide (e.off < pos) || (prev != 0 && decide (e.off ≤ prev)) ||
      decide (total < e.off + e.len) || memAnyNonzero img pos (e.off - pos) || dirBad img total l (e.off + e.len) e.off

/-- The first directory entry whose TYPE is unknown or came before (check 7). -/
def badType : List DirEntry → List Nat → Option Nat
  | [], _ => none
  | e :: l, seen =>
    if (sectionTypes.contains e.ty || e.ty == tySIGNATURE) = false || seen.contains e.ty then some e.ty else badType l (e.ty :: seen)

/-- The bytes from one address up to another. -/
def imgBytes (img : Mem) (lo hi : Nat) : List Byte := memTake img lo (hi - lo)

/-- Checks 1 to 12 of R47; `chartLen` is CHART_LEN of the boot directory at boot. -/
def containerErr (img : Mem) (chartLen : Option Nat) : Option ChtErr :=
  let total := chTotalLen img
  let n := chSectCount img
  let dirs := chDirs img
  let sig := secOff img tySIGNATURE
  let err := fun (c x : Nat) => some (ChtErr.mk c x 0)
  if memLe img 0 4 ≠ 0x4843514B then err 0x01 0
  else if memLe img 4 2 ≠ 0x0001 then err 0x02 0
  else if memLe img 6 2 ≠ 64 ∨ memLe img 30 2 ≠ 0 ∨ memLe img 38 2 ≠ 0 ∨ memAnyNonzero img 44 20 then err 0x03 0
  else if total % 8 ≠ 0 ∨ total < 80 ∨ 786432 < total ∨ (chartLen.isSome ∧ chartLen ≠ some total) then err 0x04 0
  else if memLe img 24 4 ≠ 0x4B510256 then err 0x05 0
  else if n < 2 ∨ 19 < n ∨ dirBad img total dirs (64 + 16 * n) 0 then err 0x07 0
  else match badType dirs [] with
  | some t => err 0x08 (t % 256)
  | none =>
    match dirs.find? (fun e => e.flags != bitN (coldTypes.contains e.ty)) with
    | some e => err 0x09 e.ty
    | none =>
      if sectionTypes.any (fun t => (chSect img t).isNone) ∨ (dirs.getLast?).map (·.ty) ≠ some tySIGNATURE then err 0x0B 0
      else if crc32c 0xFFFFFFFF (imgBytes img 64 sig) ≠ memLe img 40 4 then err 0x06 0
      else match dirs.find? (fun e => e.ty != tySIGNATURE && crc32c 0xFFFFFFFF (memTake img e.off e.len) != e.crc) with
        | some e => err 0x0A e.ty
        | none =>
          if secLen img tySIGNATURE ≠ 104 ∨ memLe img sig 2 ≠ 1 ∨ memLe img (sig + 2) 2 ≠ 4 ∨ memLe img (sig + 4) 4 ≠ 0 then err 0x0C 0
          else none


/-- Checks 13 to 15: the key of slot 4, the signature, and the rollback floor (R46, R48). -/
def State.signatureErr (s : State) (img : Mem) : Option ChtErr :=
  let sig := secOff img tySIGNATURE
  match (s.slot 4).cur with
  | none => some ⟨0x0E, 0, 0⟩
  | some k =>
    if s.orphaned 4 ∨ bitOf k.usage uVERIFY = false then some ⟨0x0E, 0, 0⟩
    else if ecVerify true k.pub (sha384 (imgBytes img 0 sig)) (memTake img (sig + 8) 96) = false then some ⟨0x0D, 0, 0⟩
    else none

/-- LPDDR size in bytes as MEM_STATUS gives it. -/
def State.lpddrSize (s : State) : Nat := s.fld MEM_STATUS_SIZE_GIB * 2 ^ 30

/-- Check 16 of every section, in TYPE order. -/
def State.contentErr (s : State) (img : Mem) : Option ChtErr :=
  sectionTypes.findSome? (fun t => (checkSection img s.lpddrSize t).map (fun r => ⟨0x10, t, r⟩))

/-- The whole verification; `floor` is the least COUNTER accepted (R47, R48). -/
def State.chartErr (s : State) (img : Mem) (chartLen : Option Nat) (floor : Nat) : Option ChtErr :=
  match containerErr img chartLen with
  | some e => some e
  | none =>
    match s.signatureErr img with
    | some e => some e
    | none => if chCounter img < floor then some ⟨0x0F, 0, 0⟩ else s.contentErr img

end Sys2Proof.Machine
end

