-- ==== Sys2Proof/Machine/PortEvents.lean ====
section
/-! DEFINITION. The link of an Ethernet port and of a T1S segment: lock, faults, debounce, auto-negotiation, hold,
verification of preemption, PLCA and collisions (R76, R82–R91, R94, R95). -/

namespace Sys2Proof.Machine

/-- An Ethernet port and a T1S segment by fabric port number. -/
def isEth (p : Nat) : Bool := decide (p < 24)
def isT1s (p : Nat) : Bool := decide (24 ≤ p ∧ p < 32)

/-- The conditions are gone: the link goes down within the step. -/
def State.linkLost (s : State) (p : Nat) : State := (s.setPort p { s.port p with debounce := false }).linkDown p

/-- The SerDes quad of a BB or ED port, and the lock bit of its PLL (R74, R513). -/
def portQuad (p : Nat) : Nat := p / 4
def State.putSq (s : State) (q : Nat) (on : Bool) : State := s.put CLK_STATUS_SQ (setBits (s.fld CLK_STATUS_SQ) q 1 (bitN on))

/-- A PCS locks only once its quad's PLL has. -/
def execPcsLockAcquire (port : Nat) (ev : PcsEv) (s : State) : Host.Outcome State Fault Refusal :=
  .next (
    if s.portOn port = false then s
    else
      match ev with
      | .lock => if isEth port then ((s.putSq (portQuad port) true).put (ETH_STATUS_PCS_LOCK port) 1).debounceNow port else s
      | .faultClear => if isEth port then (s.put (ETH_STATUS_REMOTE_FAULT port) 0).debounceNow port else s
      | .phyReady =>
        if isT1s port = true ∧ (s.port port).tc10 = false then
          let n := port - 24
          let s1 := s.put (T1S_STATUS_PHY_READY n) 1
          (if s.fld (T1S_CFG_NODE_ID n) = 0 then s1.put (T1S_STATUS_PLCA_STATUS n) 1 else s1).debounceNow port
        else s)

/-- A port loses its lock or its PHY, or a remote fault is signalled. -/
def State.faultAt (s : State) (port : Nat) (remote : Bool) : State :=
  if s.portOn port = false then s
  else if isEth port then
    let s1 := if remote then
        (if s.flag (ETH_STATUS_REMOTE_FAULT port) then s
         else (s.put (ETH_STATUS_REMOTE_FAULT port) 1).setFlag (ETH_EVT_REMOTE_FAULT port))
      else
        let s0 := s.put (ETH_STATUS_PCS_LOCK port) 0
        if modeHasAn (s.fld (ETH_CFG_MODE port)) then s0.put (ETH_STATUS_AN_DONE port) 0 else s0
    s1.linkLost port
  else if isT1s port then
    ((s.put (T1S_STATUS_PHY_READY (port - 24)) 0).put (T1S_STATUS_PLCA_STATUS (port - 24)) 0).linkLost port
  else s

def execLinkFault (port : Nat) (remote : Bool) (s : State) : Host.Outcome State Fault Refusal := .next (s.faultAt port remote)

def execLinkUpDebounce (port : Nat) (s : State) : Host.Outcome State Fault Refusal :=
  .next (if port < 32 ∧ (s.port port).debounce ∧ s.linkReady port then s.linkUpNow port else s)

/-- ADMIN_DOWN of an ETH or T1S port written. -/
def State.writeAdmin (s : State) (port : Nat) (down : Bool) : State :=
  let s1 := s.put (adminFld port) (bitN down)
  if down then s1.linkLost port else s1.debounceNow port

def execAdminDownWrite (r : Requester) (port : Nat) (down : Bool) (s : State) : Host.Outcome State Fault Refusal :=
  .next (if port < 32 then s.gated r (adminFld port).addr (fun s => s.writeAdmin port down) else s)

/-- Speeds a mode lists under auto-negotiation (R74, R76). -/
def anLists (mode speed : Nat) : Bool :=
  if mode = 3 then decide (2 ≤ speed ∧ speed ≤ 5) else if mode = 5 then decide (1 ≤ speed ∧ speed ≤ 2) else false

def execAnResult (port speed : Nat) (s : State) : Host.Outcome State Fault Refusal :=
  .next (
    let mode := s.fld (ETH_CFG_MODE port)
    if isEth port = false ∨ s.portEnabled port = false ∨ modeHasAn mode = false ∨ s.flag (ETH_STATUS_PCS_LOCK port) = false then s
    else if anLists mode speed then
      let s1 := (s.setPort port { s.port port with anSpeed := speed }).put (ETH_STATUS_AN_DONE port) 1
      if s.linkUp port then (s1.put (ETH_STATUS_SPEED port) speed).rateCheck port else s1.debounceNow port
    else (s.put (ETH_STATUS_AN_DONE port) 0).setFlag (ETH_EVT_SPEED_UNSUP port))

def execVerifyMpacketTimer (port : Nat) (s : State) : Host.Outcome State Fault Refusal :=
  .next (
    if isEth port = false ∨ s.fld (ETH_STATUS_VERIFY_ST port) ≠ 1 then s
    else
      let n := (s.port port).verifyN
      if n < 3 then s.setPort port { s.port port with verifyN := n + 1 }
      else (s.put (ETH_STATUS_VERIFY_ST port) 3).setFlag (ETH_EVT_VERIFY_FAIL port))

/-- A respond mPacket answers a verify mPacket that was sent, a late one too. -/
def execRespondMpacket (port : Nat) (s : State) : Host.Outcome State Fault Refusal :=
  .next (
    let st := s.fld (ETH_STATUS_VERIFY_ST port)
    if isEth port = true ∧ (st = 1 ∨ st = 3) ∧ 0 < (s.port port).verifyN then
      (s.put (ETH_STATUS_VERIFY_ST port) 2).put (ETH_STATUS_PREEMPT_ACTIVE port) 1
    else s)

/-- The hold ends; `tie` says that the debounce ends in the same clock, when the link-up wins and the queues are kept (R89, R90). -/
def execHoldExpire (port : Nat) (s : State) (tie : Bool := false) : Host.Outcome State Fault Refusal :=
  .next (
    if ¬ (port < 32 ∧ s.holding port) then s
    else if tie = true ∧ (s.port port).debounce ∧ s.linkReady port then s.linkUpNow port
    else s.endHold port)

/-- HOLD_MS written; during a hold that has already lasted so long the queues are flushed (R91). -/
def State.writeHoldMs (s : State) (port ms : Nat) (elapsed : Bool) : State :=
  let v := min (ms % 1024) 1000
  let s1 := if port < 24 then s.put (ETH_CTL_HOLD_MS port) v else s.put (T1S_CTL_HOLD_MS (port - 24)) v
  if s.holding port ∧ (elapsed ∨ v = 0) then s1.endHold port else s1

def execHoldMsWrite (r : Requester) (port ms : Nat) (elapsed : Bool) (s : State) : Host.Outcome State Fault Refusal :=
  .next (if port < 32 then s.gated r (adminFld port).addr (fun s => s.writeHoldMs port ms elapsed) else s)

def execPlcaBeacon (n : Nat) (s : State) : Host.Outcome State Fault Refusal :=
  .next (
    if n < 8 ∧ s.portEnabled (24 + n) ∧ s.fld (T1S_CFG_NODE_ID n) ≠ 0 ∧ s.flag (T1S_STATUS_PHY_READY n) ∧
        s.flag (T1S_STATUS_PLCA_STATUS n) = false then
      (s.put (T1S_STATUS_PLCA_STATUS n) 1).debounceNow (24 + n)
    else s)

def execBeaconTimeout (n : Nat) (s : State) : Host.Outcome State Fault Refusal :=
  .next (
    if n < 8 ∧ s.fld (T1S_CFG_NODE_ID n) ≠ 0 ∧ s.flag (T1S_STATUS_PLCA_STATUS n) then
      (s.put (T1S_STATUS_PLCA_STATUS n) 0).linkLost (24 + n)
    else s)

/-- A collision: the frame stays to be sent again, or is lost at its sixteenth attempt (R95). -/
def execT1sCollision (n : Nat) (s : State) : Host.Outcome State Fault Refusal :=
  .next (
    let p := 24 + n
    let x := s.port p
    match decide (n < 8) && !x.retry, x.tx with
    | true, some _ =>
      let s1 := (s.inc (T1S_CONFLICT_CNT_VAL n)).setFlag (T1S_EVT_CONFLICT n)
      if 16 ≤ x.attempts + 1 then s1.abortPort p else s1.setPort p { x with attempts := x.attempts + 1, retry := true }
    | _, _ => s)

end Sys2Proof.Machine
end

