-- ==== Sys2Proof/Machine/Planes.lean ====
section
/-! DEFINITION. A plane as a whole: building it under a chart, copying the run-time state of its twin, handing over, losing its
frames, failing and entering service (R16, R64–R66, R179, R206, R221, R326, R327, R331–R333). -/

namespace Sys2Proof.Machine

/-! ## The layout that a chart gives a plane -/

/-- Region `r` of TABLEPLAN (R169). -/
def regionOf (img : Mem) (r : Nat) : Region where
  wide := tpLe img r 1 1 == 1
  pageable := tpPageable img r
  pinReserve := tpLe img r 3 1
  base := tpLe img r 4 4
  onchip := tpLe img r 8 4
  logical := tpLe img r 12 4
  backing := tpLe img r 20 4
  seed := tpLe img r 16 4
  oldSeed := tpLe img r 16 4
  state := .normal
  walk := 0
  frames := []
  hand := 0

/-- A plane without frames and entries, divided as a chart says (R169, R179, R200). -/
def planeOfChart (img : Mem) : PlaneSt :=
  { PlaneSt.empty with
    regions := (List.range (tpCount img)).map (regionOf img)
    tagMap := (List.range 256).filterMap (fun t => (tagRegion img t).map (fun r => (t, r)))
    lpmTrie := sec8 img tyTABLEPLAN 1 == 1
    lpmSeed := secLe img tyTABLEPLAN 4 4
    lpmOldSeed := secLe img tyTABLEPLAN 4 4
    learnRegion := if sec8 img tyTABLEPLAN 2 = 0xFF then none else some (sec8 img tyTABLEPLAN 2)
    learnTag := sec8 img tyTABLEPLAN 3
    pools := (List.range 4).map (fun p => Pool.build (ppLe img p 4 4)) }

/-- The BPM registers of a plane's half as POOLPLAN gives them (R201). -/
def State.loadPools (s : State) (pl : Plane) (img : Mem) : State :=
  let s1 := (List.range 4).foldl (fun s p =>
    ((((((s.put (BPM_POOL_FREE_ERROR pl p) 0).put (BPM_POOL_CFG_SPILL pl p) (ppLe img p 1 1)).put (BPM_POOL_CFG_COUNT pl p) (ppLe img p 4 4)).put
      (BPM_POOL_RSV_CRIT_RESERVE pl p) (ppLe img p 8 4)).put (BPM_POOL_BASE_BASE pl p) (ppLe img p 12 4)).put
      (BPM_POOL_MINFREE_MINFREE pl p) (ppLe img p 4 4))) s
  (List.range 8).foldl (fun s c =>
    (s.put (BPM_RESLIM_TC_LIMIT_US pl c) (secLe img tyPOOLPLAN (80 + 8 * c) 4)).put (BPM_QLIMIT_TC_LIMIT_KIB pl c)
      (secLe img tyPOOLPLAN (84 + 8 * c) 4)) s1

/-- A plane cleared and divided under a chart. -/
def State.layPlane (s : State) (pl : Plane) (img : Mem) : State :=
  (({ s with stomps := s.stomps.filter (fun m => m.1 != planeNum pl) } : State).setPlane pl (planeOfChart img)).loadPools pl img

/-! ## RULES entries (R59, R116, R167) -/

/-- The whole key of an exact-match rule, with its tag on top. -/
def ruleKey (img : Mem) (e : RuleEntry) : Nat := tmB img e.tmpl 2 * 2 ^ (kindBits (tmKind img e.tmpl) - 8) + e.key

/-- The prefix of an LPM rule. -/
def rulePrefix (img : Mem) (epoch : Nat) (e : RuleEntry) : Prefix :=
  let v6 := tmKind img e.tmpl == 3
  let x := e.prefixOf v6
  ⟨secLe img tyKEYTEMPL (8 + 72 * e.tmpl + 4) 2, v6, x.1, x.2, e.result, stChart epoch e.pin⟩

/-- A pin in a plane alone would leave too few unpinned frames. -/
def State.pinShort (s : State) (r : Region) (b : Nat) : Bool :=
  r.pageable && !pagePinned r s.lpddr (b / 16) && decide (r.onchip / 16 < pinnedFrames r s.lpddr + 1 + r.pinReserve)

/-- A prefix that a plane has no room for is NEED_REHASH in hash mode alone (R152, R156). -/
def State.lpmNoPlace (s : State) (pl : Plane) : State := if (s.plane pl).lpmTrie then s else s.noPlace pl

/-- One rule written into one plane under construction; false when it finds no place or no frame to pin. -/
def State.rule1 (s : State) (pl : Plane) (img : Mem) (epoch : Nat) (e : RuleEntry) : State × Bool :=
  if tmKind img e.tmpl ≤ 1 then
    let key := ruleKey img e
    match (s.plane pl).regionOfKey (tmKind img e.tmpl == 1) key with
    | none => (s, false)
    | some (i, r) =>
      match placePlan r (entryAt (s.plane pl) s.lpddr r) key with
      | none => (s.noPlace pl, false)
      | some (ops, b, n) =>
        if e.pin ∧ s.pinShort r b then (s, false)
        else
          let crit := match resStream e.result with
            | some id => s.crit.contains id
            | none => false
          let deny := crit && s.pinShort r b
          let st := stChart epoch e.pin + (if crit ∧ deny = false then stAUTOPIN else 0)
          let twin := if r.pageable ∧ (s.plane (twinOf pl)).alikeAt i r then [twinOf pl] else []
          let s1 := s.posApply (pl :: twin) r i (ops ++ [.put b n ⟨key, e.result, st⟩])
          (if deny then (s1.inc (TBL_PIN_DENIED_CNT_VAL s1.lead)).setFlag (TBL_EVT_PIN_LIMIT .A) else s1, true)
  else
    match lpmInsertPlane s.epoch s.clk (s.plane pl) (rulePrefix img epoch e) with
    | some p => (s.setPlane pl p, true)
    | none => (s.lpmNoPlace pl, false)

/-- Every rule of a chart written into one plane; false when one does not fit. -/
def State.rulesIn (s : State) (pl : Plane) (img : Mem) (epoch : Nat) : State × Bool :=
  (ruleEntries img).foldl (fun acc e => let q := acc.1.rule1 pl img epoch e; (q.1, acc.2 && q.2)) (s, true)

/-- One rule written into both planes with the pending epoch (R57, R59). -/
def State.ruleBoth (s : State) (img : Mem) (epoch : Nat) (e : RuleEntry) : State × Bool :=
  if tmKind img e.tmpl ≤ 1 then
    let key := ruleKey img e
    match (s.plane s.engine).regionOfKey (tmKind img e.tmpl == 1) key with
    | none => (s, false)
    | some (i, _) =>
      match s.place i key e.result (stChart epoch e.pin) with
      | (_, none) => (s.tblPlanes.foldl State.noPlace s, false)
      | (s1, some (b, n)) => if e.pin ∧ s.pinRefused i b then (s, false) else (s1.autoPin i b n e.result, true)
  else
    match s.lpmEach (fun p => lpmInsertPlane s.epoch s.clk p (rulePrefix img epoch e)) with
    | some s1 => (s1, true)
    | none => (s.tblPlanes.foldl State.lpmNoPlace s, false)

def State.rulesBoth (s : State) (img : Mem) (epoch : Nat) : State × Bool :=
  (ruleEntries img).foldl (fun acc e => if acc.2 then acc.1.ruleBoth img epoch e else acc) (s, true)

/-- A chart entry of one epoch. -/
def ofEpoch (epoch st : Nat) : Bool := stHas st stVALID && stHas st stCHART && bitN (stHas st stEPOCH) == epoch

/-- Every chart entry of one epoch leaves the tables. -/
def State.dropEpoch (s : State) (epoch : Nat) : State :=
  let n := (s.plane s.engine).regions.length
  let s1 := (List.range n).foldl (fun s ri => match (s.plane s.engine).region ri with
    | none => s
    | some r => s.tblApply ri (((s.entriesOf r).filter (fun x => ofEpoch epoch x.2.2.status)).map (fun x => .clear x.1 x.2.1))) s
  (s1.lpmEach (fun p => lpmKeep s.epoch s.clk p (fun x => !ofEpoch epoch x.status))).getD s1

/-! ## The copy from the twin (R66, R331) -/

/-- The snare levels of one half copied into the other. -/
def State.copySnares (s : State) (pl : Plane) : State :=
  (List.range 4096).foldl (fun s i =>
    s.put (SCH_SNARE_LEVEL_LEVEL pl i) (s.fld (SCH_SNARE_LEVEL_LEVEL (twinOf pl) i))) s

/-- The tables of the twin in a plane divided like it: AGE goes with them, pageable regions hold no page. -/
def State.cloneTables (s : State) (pl : Plane) : State :=
  let q := s.plane (twinOf pl)
  let slots := q.exact.filter (fun c => !q.badSlots.contains c.1 && !q.badStatus.contains c.1 &&
    !q.regions.any (fun r => r.pageable && decide (4 * r.base ≤ c.1 ∧ c.1 < 4 * (r.base + r.onchip))))
  let p := { s.plane pl with
    regions := q.regions.map (fun r => { r with frames := [], hand := 0 })
    exact := slots
    lpmSeed := q.lpmSeed
    lpmOldSeed := q.lpmOldSeed
    lpmState := q.lpmState
    lpmWalk := q.lpmWalk
    lpm := q.lpm.filter (fun c => !q.badUnits.contains c.1)
    trie := q.trie
    trieSt := q.trieSt
    bloom := q.bloom
    bloomNew := q.bloomNew
    frags := q.frags }
  (s.setPlane pl p).copySnares pl

/-- The run-time entries of the twin placed in a plane of another layout; those that find no room are counted (R66). A pageable
region that lies alike in both keeps its backing copy. -/
def State.copyByKey (s : State) (pl : Plane) : State :=
  let q := s.plane (twinOf pl)
  let run := fun (st : Nat) => !stHas st stCHART
  let s1 := q.regions.zipIdx.foldl (fun s x =>
    if x.1.pageable ∧ (s.plane pl).alikeAt x.2 x.1 then s
    else ((s.entriesOf x.1).filter (fun e => run e.2.2.status)).foldl (fun s e => s.keyApply pl x.1.wide (.put e.2.2)) s) s
  let prefixes := if q.lpmTrie then q.trie else (q.lpm.filter (fun c => !q.badUnits.contains c.1)).map (·.2)
  let s2 := (prefixes.filter (fun x => run x.status)).foldl (fun s x => match lpmInsertPlane s.epoch s.clk (s.plane pl) x with
    | some p => s.setPlane pl p
    | none => (s.lpmNoPlace pl).inc CHT_SWAP_UNPLACED_CNT_COUNT) s1
  (s2.setPlane pl { s2.plane pl with frags := q.frags }).copySnares pl

/-! ## Frames that a plane loses -/

/-- A transmission of a frame that a plane holds is cut, and counted by the caller. -/
def State.cutPlaneTx (s : State) (pl : Plane) (p reason : Nat) : State × Nat :=
  let x := s.port p
  let mine : Option TxFrame → Bool := fun o => match o with
    | some t => t.frame.plane == pl
    | none => false
  let s1 := if mine x.tx ∨ mine x.txp then
      s.setPort p { x with tx := if mine x.tx then none else x.tx, txp := if mine x.txp then none else x.txp, attempts := 0, retry := false }
    else s
  [x.tx, x.txp].foldl (fun acc o => match o with
    | some t => if t.frame.plane == pl then (acc.1.cutTx p t reason, acc.2 + 1) else acc
    | none => acc) (s1, 0)

/-- Frames being unpacked at legacy channels that a plane holds are lost. -/
def State.cutUnpacks (s : State) (pl : Plane) (reason : Nat) : State × Nat :=
  let a := (List.range 32).foldl (fun acc n => match (acc.1.can n).unpack with
    | some u => if u.frame.plane == pl then ((acc.1.setCan n { acc.1.can n with unpack := none }).drop u.frame reason, acc.2 + 1) else acc
    | none => acc) ((s, 0) : State × Nat)
  (List.range 16).foldl (fun acc n => match (acc.1.lin n).unpack with
    | some u => if u.frame.plane == pl then ((acc.1.setLin n { acc.1.lin n with unpack := none }).drop u.frame reason, acc.2 + 1) else acc
    | none => acc) a

/-- Every frame that a plane holds is discarded, queued, parked, in replication or in transmission; the number of them
(R16, R64). -/
def State.dumpPlane (s : State) (pl : Plane) (reason : Nat) : State × Nat :=
  let cut := ((s.ports.map (·.1)).foldl (fun acc p => let r := acc.1.cutPlaneTx pl p reason; (r.1, acc.2 + r.2))
    ((s, 0) : State × Nat))
  let un := cut.1.cutUnpacks pl reason
  let x := un.1.plane pl
  let held := (un.1.dm.ctxs.filter (fun c => c.valid && c.frm != pl)).flatMap (fun c => c.held.flatMap (·.2))
  let wait := un.1.cph.rxWait.flatMap (fun e => e.2.2)
  let fs := x.queues.flatMap (fun e => framesOf e.2) ++ x.parked.map (·.frame) ++ x.repl.map (·.frame) ++ x.mgmt ++ held ++
    wait.filter (fun f => f.plane == pl)
  let s0 := ({ un.1 with cph := { un.1.cph with rxWait := un.1.cph.rxWait.map (fun e => (e.1, e.2.1, e.2.2.filter (fun f =>
    f.plane != pl))) } } : State).setPlane pl { x with queues := [], parked := [], repl := [], mgmt := [], pageReads := [] }
  let s1 := (x.queues.map (·.1)).foldl State.classEmptied s0
  ((fs.foldl (fun s f => s.drop f reason) s1).resumeAll, cut.2 + un.2 + fs.length)

/-- No frame is held in a plane. -/
def State.planeEmpty (s : State) (pl : Plane) : Bool :=
  let x := s.plane pl
  x.queues.all (fun e => e.2.all (fun q => !q.solid)) && x.parked.isEmpty && x.repl.isEmpty && x.mgmt.isEmpty &&
    s.cph.rxWait.all (fun e => e.2.2.all (fun f => f.plane != pl)) &&
    s.ports.all (fun e => (match e.2.tx with
      | some t => t.frame.plane != pl
      | none => true) && (match e.2.txp with
      | some t => t.frame.plane != pl
      | none => true)) &&
    s.cans.all (fun e => match e.2.unpack with
      | some u => u.frame.plane != pl
      | none => true) &&
    s.lins.all (fun e => match e.2.unpack with
      | some u => u.frame.plane != pl
      | none => true)

/-! ## Buckets -/

/-- Buckets recorded on a plane. -/
def State.bucketsOn (s : State) (pl : Plane) : Nat :=
  (s.dm.buckets.filter (fun e => e.2.plane == pl)).length + (if s.dm.home0 = pl then 65536 - s.dm.buckets.length else 0)

/-- Every bucket is placed on one plane; those that lay on its twin have `moved` now, or are placed for the first time (R206, R210). -/
def State.bucketsTo (s : State) (home : Plane) (moved : Bool) : State :=
  let d := s.dm
  let at1 (old : Plane) (t : Option Nat) : Option Nat := if old ≠ home ∧ moved then some s.clk else t
  let d1 : DrumMajor := { d with home0 := home, homeAt := at1 d.home0 d.homeAt, stranded := none }
  { s with dm := { d1 with buckets := d.buckets.foldl (fun t e =>
      tabSet d1.unlisted t e.1 { e.2 with plane := home, movedAt := at1 e.2.plane e.2.movedAt }) [] } }

/-! ## Handing over (R64) -/

/-- The drain ends: what the plane still holds is discarded and counted, and the plane is ISOLATED. DEDUCED: a plane that took
LEAD back during its drain (R335) gives it to the twin, as one that is LEAD at the handover instant does (R329; log 96). -/
def State.drainEnd (s : State) (pl : Plane) : State :=
  let r := s.dumpPlane pl 0x0C
  let s1 := r.1.addCnt CHT_SWAP_FLUSH_CNT_COUNT r.2
  let s2 := (s1.setPlane pl { s1.plane pl with handing := false }).setCond pl .isolated
  if s2.lead = pl ∧ s2.isCond (twinOf pl) .inService then s2.makeLead (twinOf pl) else s2

/-- The handover instant of a plane to its twin. -/
def State.handOver (s : State) (pl : Plane) : State :=
  let s1 := s.endContexts
  let s2 := s1.setPlane pl { s1.plane pl with handing := true }
  let s3 := (s2.makeLead (twinOf pl)).bucketsTo (twinOf pl) true
  if s.fld CHT_SWAP_DRAIN_DRAIN_US = 0 then s3.drainEnd pl else s3

/-! ## Failure and return -/

/-- The buckets of a lost plane are placed on the one in service, and counted (R221). -/
def State.failMove (s : State) (pl : Plane) (n : Nat) : State :=
  let s1 := s.bucketsTo pl true
  if n = 0 then s1 else (s1.addCnt PLC_FAILOVER_MOVE_CNT_VAL n).setFlag PLC_EVT_FAILOVER_MOVE

/-- Contexts and buckets when a plane is declared failed; a context that switched in the same clock is not counted. Without a plane in
service the buckets stay recorded on the failed one (R221). -/
def State.failBuckets (s : State) (pl : Plane) : State :=
  let y := twinOf pl
  let valid := (List.range 256).filter (fun c => (s.ctx c).valid)
  let s1 := valid.foldl (fun s c => if (s.ctx c).frm = pl then s.ctxRelease c
    else s.setCtx c { s.ctx c with valid := false, waiting := false, ports := [], held := [] }) s
  let old := valid.filter (fun c => (s.ctx c).switchAt != s.clk)
  let s2 := if old = [] then s1 else s1.addCnt (FRE_RSQ_ABANDON_CNT_VAL y) old.length
  if s2.isCond y .inService then s2.failMove y (s2.bucketsOn pl)
  else { s2 with dm := { s2.dm with stranded := some pl } }

/-- A plane enters service; alone, it is LEAD and takes every bucket, and those that a failed plane left are counted (R19, R206, R221). -/
def State.enterService (s : State) (pl : Plane) : State :=
  let s1 := s.setCond pl .inService
  if s.isCond (twinOf pl) .inService then s1
  else
    let s2 := s1.makeLead pl
    match s.dm.stranded with
    | some x => s2.failMove pl (s.bucketsOn x)
    | none => s2.bucketsTo pl false

/-- No plane forwards. -/
def State.noPlane (s : State) : Bool := !s.isCond .A .inService && !s.isCond .B .inService

/-- The last declaration noted (R327 step 4): causes 1 beats missed, 2 FATAL, 3 both planes. -/
def State.noteFail (s : State) (pl : Plane) (cause : Nat) : State :=
  let s1 := ((s.put RED_LAST_FAIL_VALID 1).put RED_LAST_FAIL_CAUSE cause).put RED_LAST_FAIL_PLANE (planeNum pl)
  let s2 := (s1.put64 RED_LAST_FAIL_TIME_LO_TIME RED_LAST_FAIL_TIME_HI_TIME s.nowCt).inc RED_FAILOVER_CNT_VAL
  (s2.setFlag RED_EVT_PLANE_FAIL).rasRecord 0x05 1 0x07 (planeBit pl) (s2.reg rRED_LAST_FAIL).toNat

/-- A plane declared failed: its frames are lost, its buckets move, and its twin becomes LEAD when it is in service (R16, R327). -/
def State.failPlane (s : State) (pl : Plane) (cause : Nat) : State :=
  let s1 := (s.setPlane pl { s.plane pl with handing := false }).setCond pl .failed
  let d := s1.dumpPlane pl 0x0C
  let s2 := (d.1.addCnt RED_FAILOVER_LOST_CNT_VAL d.2).failBuckets pl
  let s3 := if s2.isCond (twinOf pl) .inService then s2.makeLead (twinOf pl) else s2
  s3.noteFail pl cause

end Sys2Proof.Machine
end

