-- ==== Sys2Proof/Machine/Apply.lean ====
section
/-! DEFINITION. A chart takes effect: what applying each section loads and restarts, in the order of R55. The image in force is
`State.active`; `old` is the image that was in force before, empty at a cold boot. -/

namespace Sys2Proof.Machine

/-! ## Power domains (R505, R506, R521) -/

/-- Domains that POWERMAP has on, with mode 1 or 2. -/
def needed (img : Mem) : List Nat := (List.range 12).filter (fun d => pwrMode img d != 0)

/-- Ports of a domain (R97). -/
def domPorts : Nat → List Nat
  | 2 => (List.range 48).map (· + 32)
  | 3 => (List.range 8).map (· + 24)
  | 4 => (List.range 16).map (· + 8)
  | 5 => List.range 8
  | _ => []

/-- Bits of CLK_STATUS.SQ of a domain: quads 0 and 1 lie in D5, 2 to 5 in D4 (R74, R513). -/
def domQuads : Nat → List Nat
  | 4 => [2, 3, 4, 5]
  | 5 => [0, 1]
  | _ => []

/-- READY of the LPDDR falls or rises; a fall raises READY_LOST (R168). -/
def State.memReady (s : State) (on : Bool) : State :=
  if on then s.put MEM_STATUS_READY (s.fld MEM_STATUS_PRESENT)
  else if s.flag MEM_STATUS_READY then (s.put MEM_STATUS_READY 0).setFlag MEM_EVT_READY_LOST else s

/-- A port whose domain loses its supply: its PHY or PCS has to start anew, and a CAN channel has to see the bus idle again. -/
def State.portDead (s : State) (p : Nat) : State :=
  let s1 := s.linkDown p
  let s2 := s1.setPort p { s1.port p with debounce := false, verifyN := 0, anSpeed := 0 }
  if p < 24 then ((s2.put (ETH_STATUS_PCS_LOCK p) 0).put (ETH_STATUS_AN_DONE p) 0).put (ETH_STATUS_REMOTE_FAULT p) 0
  else if p < 32 then (s2.put (T1S_STATUS_PHY_READY (p - 24)) 0).put (T1S_STATUS_PLCA_STATUS (p - 24)) 0
  else if p < 64 then s2.setCan (p - 32) { s2.can (p - 32) with joining := s2.portEnabled p, recovering := false }
  else s2

/-- A domain powered up: the PLLs of its quads lock, and the LPDDR is trained. -/
def State.domUp (s : State) (d : Nat) : State :=
  let s1 := s.put PWR_DOM_STAT_ON (setBits (s.fld PWR_DOM_STAT_ON) d 1 1)
  let s2 := (domQuads d).foldl (fun s q => s.putSq q true) s1
  if d = 11 then s2.memReady true else s2

/-- A domain powered down: the links of its ports are declared down at once (R506). -/
def State.domDown (s : State) (d : Nat) : State :=
  let s1 := (domPorts d).foldl State.portDead s
  let s2 := (domQuads d).foldl (fun s q => s.putSq q false) s1
  let s3 := if d = 10 then s2.put CLK_STATUS_PCIE 0 else if d = 11 then s2.memReady false else s2
  s3.put PWR_DOM_STAT_ON (setBits (s3.fld PWR_DOM_STAT_ON) d 1 0)

/-- Domains newly required by an image powered up; those that came up. -/
def State.powerUp (s : State) (img : Mem) : State × List Nat :=
  let up := (needed img).filter (fun d => !s.domOn d)
  (up.foldl State.domUp s, up)

/-- Domains that the image in force leaves off powered down. -/
def State.powerRelease (s : State) : State :=
  ((List.range 12).filter (fun d => s.domOn d && pwrMode s.active d == 0)).foldl State.domDown s

/-- POWERMAP shown in PWR_MAP. -/
def State.loadPOWERMAP (s : State) : State :=
  let v := (List.range 12).foldl (fun n d => n + pwrMode s.active d * 4 ^ d) 0
  let fl := pwrMode s.active 12
  (((s.put PWR_MAP_RUN_MODE v).put PWR_MAP_KEEP_D2 (bits fl 0 1)).put PWR_MAP_KEEP_D3 (bits fl 1 1)).put PWR_MAP_LPDDR_SR
    (bits fl 2 1)

/-! ## PORTMAP (R68, R92, R96) -/

/-- Two images hold one port's record alike. -/
def portSame (a b : Mem) (p : Nat) : Bool := (List.range 16).all (fun i => pmLe a p i 1 == pmLe b p i 1)

/-- The CFG registers of a BB or ED port, and of a TS port; 0 in every field of a disabled one. -/
def State.loadEth (s : State) (p : Nat) : State :=
  let on := pmEnabled s.active p
  let v := fun (x : Nat) => if on then x else 0
  let fl := pmLe s.active p 2 1
  let s1 := (((s.put (ETH_CFG_MODE p) (v (pmLe s.active p 3 1))).put (ETH_CFG_ENABLE p) (bitN on)).put (ETH_CFG_PREEMPT p)
    (v (bits fl 1 1))).put (ETH_CFG_MACSEC p) (v (bits fl 2 1))
  let s2 := ((s1.put (ETH_CFG_VERIFY p) (v (bits fl 3 1))).put (ETH_CFG_ADDFRAG p) (v (pmLe s.active p 8 1))).put (ETH_CFG_MAXLEN p)
    (v (pmLe s.active p 4 2))
  let s3 := s2.put (CPH_MSEC_CFG_ACTIVE p) (v (bits fl 2 1))
  if on then s3.put (ETH_CTL_HOLD_MS p) (pmLe s.active p 6 2) else s3

def State.loadT1s (s : State) (n : Nat) : State :=
  let p := 24 + n
  let on := pmEnabled s.active p
  let v := fun (x : Nat) => if on then x else 0
  let s1 := ((((s.put (T1S_CFG_ENABLE n) (bitN on)).put (T1S_CFG_NODE_ID n) (v (pmLe s.active p 8 1))).put (T1S_CFG_NODE_COUNT n)
    (v (pmLe s.active p 9 1))).put (T1S_CFG_TO_TMR n) (v (pmLe s.active p 10 1))).put (T1S_CFG_BURST_CNT n) (v (pmLe s.active p 11 1))
  let s2 := (s1.put (T1S_CFG2_BURST_TMR n) (v (pmLe s.active p 12 1))).put (T1S_CFG2_MAXLEN n) (v (pmLe s.active p 4 2))
  if on then s2.put (T1S_CTL_HOLD_MS n) (pmLe s.active p 6 2) else s2

/-- The link conditions of a reconfigured BB or ED port: another mode starts its PCS anew, and what the PCS reports stands otherwise. Those
of a TS port: the coordinator's PLCA status is that of its PHY, another node has to see a BEACON under its new NODE_ID (R84, R94). -/
def State.portRestart (s : State) (old : Mem) (p : Nat) : State :=
  if p < 24 then
    if pmEnabled s.active p ∧ pmLe old p 3 1 = pmLe s.active p 3 1 then s
    else
      let s1 := ((s.put (ETH_STATUS_PCS_LOCK p) 0).put (ETH_STATUS_AN_DONE p) 0).put (ETH_STATUS_REMOTE_FAULT p) 0
      s1.setPort p { s1.port p with anSpeed := 0 }
  else if p < 32 then
    let n := p - 24
    if pmEnabled s.active p = false then (s.put (T1S_STATUS_PHY_READY n) 0).put (T1S_STATUS_PLCA_STATUS n) 0
    else if pmLe s.active p 8 1 = 0 then s.put (T1S_STATUS_PLCA_STATUS n) (s.fld (T1S_STATUS_PHY_READY n))
    else if pmEnabled old p ∧ pmLe old p 8 1 = pmLe s.active p 8 1 then s
    else s.put (T1S_STATUS_PLCA_STATUS n) 0
  else s

/-- A port whose record changed loses its link; one that the chart removes has its queues flushed; the debounce starts again where the
conditions hold; an enabled CAN channel has to see the bus idle first (R68, R84, R92). -/
def State.portChanged (s : State) (old : Mem) (p : Nat) : State :=
  if portSame old s.active p then s
  else
    let s1 := if pmEnabled old p then s.linkDown p else s
    let s2 := if pmEnabled old p ∧ pmEnabled s.active p = false then
        let f := (s1.flushPort p 0x0A).1
        if p < 24 then f.put (ETH_STATUS_HOLDING p) 0 else if p < 32 then f.put (T1S_STATUS_HOLDING (p - 24)) 0 else f
      else s1
    let s3 := s2.setPort p { s2.port p with debounce := false, verifyN := 0 }
    if p < 32 then (s3.portRestart old p).debounceNow p
    else if p < 64 then
      let x := s3.can (p - 32)
      s3.setCan (p - 32) { x with joining := pmEnabled s.active p, recovering := false }
    else s3

def State.loadPORTMAP (s : State) (old : Mem) : State :=
  let s1 := (List.range 24).foldl State.loadEth s
  let s2 := (List.range 8).foldl State.loadT1s s1
  (List.range 80).foldl (fun s p => s.portChanged old p) s2

/-- CN and LN ports whose conditions hold come up (R339). -/
def State.channelsUp (s : State) : State :=
  ((List.range 48).map (· + 32)).foldl (fun s p => if s.channelMayUp p then s.linkUpNow p else s) s

/-! ## The hot sections -/

/-- A byte of a packed register set of items. -/
def packed (f : Nat → Nat) (w : Nat) : Nat := (List.range 4).foldl (fun n j => n + f (4 * w + j) * 256 ^ j) 0

/-- ZONES (R130, R409, R410): CAN rate entries that changed start full. -/
def State.loadZONES (s : State) (old : Mem) : State :=
  let img := s.active
  let fl := sec8 img tyZONES 1
  let s1 := (((s.put FWL_CFG_ZONE_COUNT (sec8 img tyZONES 0)).put FWL_CFG_FLOWS_EN (bits fl 0 1)).put FWL_CFG_FRAG_OUTER_DENY
    (bits fl 1 1)).put FWL_CFG_FLOW_TAG (sec8 img tyZONES 2)
  let s2 := (List.range 4).foldl (fun s p => s.put (FWL_TPROF_TIMEOUT_S p) (secLe img tyZONES (16 + 4 * p) 2)) s1
  let s3 := (List.range 38).foldl (fun s w => s.put (FWL_ZONEMAP_ZONES w) (packed (fun i => sec8 img tyZONES (32 + i)) w)) s2
  let s4 := (List.range 32).foldl (fun s i => (List.range 8).foldl (fun s w =>
    s.put (FWL_MATRIX_POLICY i w) (packed (fun e => sec8 img tyZONES (192 + 32 * i + e)) w)) s) s3
  let s5 := (s4.put FWL_EXC_RATE_RATE (secLe img tyZONES 4 4)).put FWL_EXC_BURST_BURST (secLe img tyZONES 8 2)
  let keep := fun (k : Nat) => (List.range 16).all (fun i =>
    secLe img tyZONES (1216 + 520 * (k / 32) + 8 + 16 * (k % 32) + i) 1 == secLe old tyZONES (1216 + 520 * (k / 32) + 8 + 16 * (k % 32) + i) 1)
  { s5 with
    if4Tokens := secLe img tyZONES 8 2
    canTokens := s5.canTokens.filter (fun e => keep e.1)
    frac := s5.frac.filter (fun e => e.1 != 0x3FFFFFF && (decide (e.1 < 0x4000000) || keep (e.1 - 0x4000000))) }

/-- A shaper as EGRESS gives it: reloaded, with its level reset, only when a value differs (R253). -/
def State.loadShaper (s : State) (en full rate burst level : Plane → Fld) (e f r b : Nat) : State :=
  if s.fld (en .A) = e ∧ s.fld (full .A) = f ∧ s.fld (rate .A) = r ∧ s.fld (burst .A) = b then s
  else
    let s1 := (((s.putBoth en e).putBoth full f).putBoth rate r).putBoth burst b
    s1.shReset (en .A) (full .A) (burst .A) (level .A)

/-- EGRESS (R251, R253). -/
def State.loadEGRESS (s : State) : State :=
  let img := s.active
  (List.range 256).foldl (fun s p =>
    let fl := egLe img p 3 1
    let s := if s.fld (SCH_PORT_CFG_EXPRESS .A p) = egLe img p 1 1 then s else s.drrReset p
    let s1 := (((s.putBoth (fun pl => SCH_PORT_CFG_PCP_EN pl p) (bits fl 2 1)).putBoth (fun pl => SCH_PORT_CFG_EXPRESS pl p)
      (egLe img p 1 1)).putBoth (fun pl => SCH_PORT_CFG_DEFAULT_TC pl p) (egLe img p 2 1)).putBoth
      (fun pl => SCH_PORT_PCPMAP_MAP pl p) (egLe img p 4 3)
    let s2 := s1.loadShaper (fun pl => SCH_PSHP_RATE_EN pl p) (fun pl => SCH_PSHP_RATE_RESET_FULL pl p)
      (fun pl => SCH_PSHP_RATE_RATE pl p) (fun pl => SCH_PSHP_BURST_BURST pl p) (fun pl => SCH_PSHP_LEVEL_LEVEL pl p)
      (bits fl 0 1) (bits fl 1 1) (egLe img p 8 4) (egLe img p 12 4)
    (List.range 8).foldl (fun s c =>
      let q := 8 * p + c
      let b := 16 + 12 * c
      let cf := egLe img p (b + 11) 1
      let s3 := (s.putBoth (fun pl => SCH_QCFG_MAXLEN_TC pl q) (egLe img p (b + 2) 2)).putBoth (fun pl => SCH_QCFG_QUANTUM pl q)
        (egLe img p b 2)
      s3.loadShaper (fun pl => SCH_QSHP_RATE_EN pl q) (fun pl => SCH_QSHP_RATE_RESET_FULL pl q) (fun pl => SCH_QSHP_RATE_RATE pl q)
        (fun pl => SCH_QSHP_BURST_BURST pl q) (fun pl => SCH_QSHP_LEVEL_LEVEL pl q) (bits cf 0 1) (bits cf 1 1)
        (egLe img p (b + 4) 4) (egLe img p (b + 8) 3)) s2) s

/-- STREAMS: the rate table, and the schedule that the chart's job prepared (R298–R304). -/
def State.loadSTREAMS (s : State) : State :=
  ((List.range 32).foldl (fun s p => s.put (CAR_PORT_STAT_RATE p) (stRate s.active p)) s).carChartApply.rateAgain

/-- FRER (R320, R322): generators named before and after go on, recovery entries with the same record keep their state. -/
def State.loadFRER (s : State) (old : Mem) : State :=
  let img := s.active
  let gens := fun (m : Mem) => ((List.range (frMaps m)).map (fun k => frMap m k 2 2)).filter (· != 0xFFFF)
  let clr := (List.range 4096).foldl (fun s i =>
    ((s.putBoth (fun pl => FRE_MAP_GEN_VALID pl i) 0).putBoth (fun pl => FRE_MAP_GEN pl i) 0 |>.putBoth
      (fun pl => FRE_MAP_CS_VALID pl i) 0).putBoth (fun pl => FRE_MAP_CS pl i) 0) s
  let s1 := (List.range (frMaps img)).foldl (fun s k =>
    let i := frMap img k 0 2
    let g := frMap img k 2 2
    let c := frMap img k 4 2
    let s1 := if g = 0xFFFF then s
      else (s.putBoth (fun pl => FRE_MAP_GEN_VALID pl i) 1).putBoth (fun pl => FRE_MAP_GEN pl i) g
    if c = 0xFFFF then s1 else (s1.putBoth (fun pl => FRE_MAP_CS_VALID pl i) 1).putBoth (fun pl => FRE_MAP_CS pl i) c) clr
  let both := fun (g : Nat) => (gens old).contains g && (gens img).contains g
  let s2 := (List.range 2048).foldl (fun s g => if both g then s else
    ({ s.putBoth (fun pl => FRE_GEN_NEXT_SEQ pl g) 0 with gens := tabSet [] s.gens g [] } : State)) s1
  let same := fun (r : Nat) => decide (r < frRecs img) && decide (r < frRecs old) &&
    (List.range 16).all (fun i => frRec img r i 1 == frRec old r i 1)
  (List.range 2048).foldl (fun s r =>
    let on := decide (r < frRecs img)
    let v := fun (i n : Nat) => if on then frRec img r i n else 0
    let s3 := (((s.putBoth (fun pl => FRE_REC_CFG_VALID pl r) (bitN on)).putBoth (fun pl => FRE_REC_CFG_ALG pl r) (v 5 1)).putBoth
      (fun pl => FRE_REC_CFG_KEEP_TAG pl r) (v 7 1)).putBoth (fun pl => FRE_REC_CFG_CS pl r) (v 2 2)
    let s4 := ((s3.putBoth (fun pl => FRE_REC_CFG_PORT pl r) (v 4 1)).putBoth (fun pl => FRE_REC_CFG_HIST_LEN pl r) (v 6 1)).putBoth
      (fun pl => FRE_REC_TMR_RESET_MS pl r) (v 8 2)
    if same r then s4
    else ((s4.put (FRE_REC_STATE_TAKE_ANY .A r) 1).put (FRE_REC_STATE_RECOV_SEQ .A r) 0).setRec r RecSt.reset) s2

/-- LEGACY (R366, R367): sequence counters restart, and response buffers of changed LIN channels are cleared. -/
def State.loadLEGACY (s : State) (old : Mem) : State :=
  let img := s.active
  let s1 := (List.range 32).foldl (fun s n =>
    let c := fun (i k : Nat) => lgCan img n i k
    let bt := fun (s : State) (w : Nat) (f : Fld × Fld × Fld × Fld) =>
      (((s.put f.1 (bits w 20 7)).put f.2.1 (bits w 13 7)).put f.2.2.1 (bits w 5 8)).put f.2.2.2 (bits w 0 5)
    let s1 := (((s.put (CAN_CFG_MODE n) (c 1 1)).put (CAN_CFG_FLAGS n) (c 2 1)).put (CAN_CFG_ACF_BUS_ID n) (c 3 1)).put
      (CAN_CFG_ACF_HDR n) (c 23 1)
    let s2 := bt (bt (bt s1 (c 4 4) (CAN_NBT_SJW n, CAN_NBT_TSEG2 n, CAN_NBT_TSEG1 n, CAN_NBT_BRP n)) (c 8 4)
      (CAN_DBT_SJW n, CAN_DBT_TSEG2 n, CAN_DBT_TSEG1 n, CAN_DBT_BRP n)) (c 12 4)
      (CAN_XBT_SJW n, CAN_XBT_TSEG2 n, CAN_XBT_TSEG1 n, CAN_XBT_BRP n)
    let s3 := (((s2.put (CAN_ACF_WIN_US n) (c 16 2)).put (CAN_ACF_MAXMSG n) (c 18 1)).put (CAN_TDC_TDC_EN n) (bits (c 19 1) 7 1)).put
      (CAN_TDC_TDC_OFFSET n) (bits (c 19 1) 0 7)
    let s4 := ((s3.put (CAN_TUN_PRIO n) (c 20 2)).put (CAN_TUN_VCID n) (c 22 1)).put (CAN_TUN_AF_AF n) (c 24 4)
    s4.setCan n { s4.can n with acfSeq := 0 }) s
  (List.range 16).foldl (fun s n =>
    let l := fun (i k : Nat) => lgLin img n i k
    let s1 := (((s.put (LIN_CFG_BAUD n) (l 4 2)).put (LIN_CFG_ACF_BUS_ID n) (l 3 1)).put (LIN_CFG_ACF_HDR n) (l 9 1)).put
      (LIN_CFG_FLAGS n) (l 2 1)
    let s2 := ((s1.put (LIN_CFG_ROLE n) (l 1 1)).put (LIN_ACF_WIN_US n) (l 6 2)).put (LIN_ACF_MAXMSG n) (l 8 1)
    let s3 := s2.setLin n { s2.lin n with acfSeq := 0 }
    if (List.range 272).all (fun i => l i 1 == lgLin old n i 1) then s3
    else (List.range 64).foldl (fun s i => ((s.setReg (rLIN_RESP_W0 n i) 0).setReg (rLIN_RESP_W1 n i) 0).setReg (rLIN_RESP_W2 n i) 0) s3) s1

/-- NMCLUSTER registers (R393). -/
def State.loadNmRegs (s : State) : State :=
  let img := s.active
  let s1 := (List.range 8).foldl (fun s k =>
    let b := sec8 img tyNMCLUSTER (8 + k)
    let s1 := (s.put (NMW_WAKEPIN_EDGE k) (bits b 0 2)).put (NMW_WAKEPIN_FILTER k) (bits b 2 6)
    match s.pinCluster k with
    | some c => (s1.put (NMW_WAKEPIN_CLUSTER k) c).put (NMW_WAKEPIN_NONE k) 0
    | none => (s1.put (NMW_WAKEPIN_CLUSTER k) 0xF).put (NMW_WAKEPIN_NONE k) 1) s
  let s2 := (List.range 32).foldl (fun s n =>
    let fl := nwLe img n 1 1
    (((s.put (NMW_CAN_TRX_SW_EN n) (bits fl 0 1)).put (NMW_CAN_TRX_PATTERN_WAKE n) (bits fl 1 1)).put (NMW_CAN_TRX_FORERUNNER n)
      (bits fl 2 1)).put (NMW_CAN_SW_FEC_MAX n) (nwLe img n 2 1)) s1
  (List.range 16).foldl (fun s c =>
    (((((s.put (NMW_NC_TMR0_NM_TIMEOUT_MS c) (nmLe img c 20 2)).put (NMW_NC_TMR0_WAIT_SLEEP_MS c) (nmLe img c 22 2)).put
      (NMW_NC_TMR1_REPEAT_MS c) (nmLe img c 18 2)).put (NMW_NC_TMR1_CHIME_MS c) (nmLe img c 16 2)).put (NMW_NC_TMR2_SETTLE_US c)
      (nmLe img c 24 2)).put (NMW_NC_TMR2_READY_MAX_MS c) (nmLe img c 26 1)) s2

/-- NMCLUSTER (R390, R394): a changed or new cluster starts in REPEAT, at a cold boot one with START_AWAKE; ports of removed clusters
return to R369. -/
def State.loadNMCLUSTER (s : State) (old : Mem) : State :=
  let boot := secLen old tyNMCLUSTER == 0
  let s1 := (List.range 16).foldl (fun s c =>
    if (List.range 48).all (fun i => nmLe old c i 1 == nmLe s.active c i 1) then s
    else if s.ncEnabled c = false then (s.ncPut c ncBUS_SLEEP).setNm c NmSt.reset
    else if boot ∧ s.ncStartAwake c = false then s.ncPut c ncBUS_SLEEP
    else s.enterRepeat c 0 0) s.loadNmRegs
  -- A segment of no cluster sleeps no longer.
  (List.range 8).foldl (fun s n =>
    if s.clusterOf (24 + n) = none then (s.setPort (24 + n) { s.port (24 + n) with tc10 := false, tc10Req := false }).debounceNow (24 + n)
    else s) s1

/-- TENANTQ (R503): tenants whose record changed or went are reclaimed with cause CHART, under their old record. -/
def State.loadTENANTQ (s : State) (old : Mem) : State :=
  let img := s.active
  (List.range 64).foldl (fun s t =>
    if (List.range 40).all (fun i => tqLe old t i 1 == tqLe img t i 1) then s
    else { ({ s with active := old } : State).reclaimTenant t 6 with active := img }) s

/-- LEDGER (R434): holds of channels that are gone or name another cluster end. -/
def State.loadLEDGER (s : State) (old : Mem) : State :=
  let s1 := s.ldgApply old
  let s2 := (List.range 64).foldl (fun s c => if s.ldgOn c then s else s.put (LDG_CH_STATE_HOLDING c) 0) s1
  (List.range 16).foldl (fun s k =>
    s.nmLedger k ((List.range 64).any (fun c => s.ldgOn c && ldgChan s.active c 3 1 == k && s.flag (LDG_CH_STATE_HOLDING c)))) s2

/-- PLANE (R336, R337). -/
def State.loadPLANE (s : State) : State :=
  let s1 := (s.put RED_STATUS_PREF_LEAD (sec8 s.active tyPLANE 0)).put RED_TAKEBACK_MS (secLe s.active tyPLANE 2 2)
  if s1.fld RED_STATUS_PREF_LEAD = s.fld RED_STATUS_PREF_LEAD then s1 else s1.takebackFromNow

/-- The capture area of POOLPLAN. -/
def State.loadCapArea (s : State) : State :=
  (s.put CAP_AREA_BASE_BASE (secLe s.active tyPOOLPLAN 4 4)).put CAP_AREA_SIZE_SIZE (secLe s.active tyPOOLPLAN 8 4)

/-- PARSEGRAPH and KEYTEMPL as PRS_CFG shows them. -/
def State.loadPARSEGRAPH (s : State) : State :=
  ((s.putBoth PRS_CFG_NODE_COUNT (pgCount s.active)).putBoth PRS_CFG_ACT_DEPTH (sec8 s.active tyPARSEGRAPH 4)).putBoth PRS_CFG_ACT_LEN
    (sec8 s.active tyPARSEGRAPH 5)
def State.loadKEYTEMPL (s : State) : State := s.putBoth PRS_CFG_PROFILE_COUNT (ktProfiles s.active)

/-! ## The order of application (R55) -/

/-- Section TYPEs in the order of R55. -/
def applyOrder : List Nat :=
  [tyPOWERMAP, tyPORTMAP, tyPOOLPLAN, tyTABLEPLAN, tyPLANE, tyUSERCAL, tyPARSEGRAPH, tyKEYTEMPL, tySPREAD, tyZONES, tyRULES, tyEGRESS,
    tySTREAMS, tyFRER, tyLEGACY, tyNMCLUSTER, tyTENANTQ, tyLEDGER]

/-- One section applied. Pools, regions and rules of a plane are written where the plane is built; USERCAL and SPREAD are read where
they act. -/
def State.applySection (old : Mem) (s : State) (ty : Nat) : State :=
  if ty = tyPOWERMAP then s.loadPOWERMAP
  else if ty = tyPORTMAP then s.loadPORTMAP old
  else if ty = tyPOOLPLAN then s.loadCapArea
  else if ty = tyPLANE then s.loadPLANE
  else if ty = tyPARSEGRAPH then s.loadPARSEGRAPH
  else if ty = tyKEYTEMPL then s.loadKEYTEMPL
  else if ty = tyZONES then s.loadZONES old
  else if ty = tyEGRESS then s.loadEGRESS
  else if ty = tySTREAMS then s.loadSTREAMS
  else if ty = tyFRER then s.loadFRER old
  else if ty = tyLEGACY then s.loadLEGACY old
  else if ty = tyNMCLUSTER then s.loadNMCLUSTER old
  else if ty = tyTENANTQ then s.loadTENANTQ old
  else if ty = tyLEDGER then s.loadLEDGER old
  else s

/-- CHART_ID and COUNTER of the image in force. -/
def State.showActive (s : State) : State :=
  (s.put64 CHT_ACT_ID_LO_ID CHT_ACT_ID_HI_ID (chId s.active)).put CHT_ACT_COUNTER_COUNTER (chCounter s.active)

/-- An image becomes the active one, and the sections that differ are applied in their order. -/
def State.activate (s : State) (img : Mem) (tys : List Nat) : State :=
  let old := s.active
  let s1 := ({ s with active := img } : State).showActive
  ((applyOrder.filter tys.contains).foldl (State.applySection old) s1).channelsUp

end Sys2Proof.Machine
end

