-- ==== Sys2Proof/Machine/ChartCommands.lean ====
section
/-! DEFINITION. The shadow chart: its commands, verification, preparation and downbeat, and the rolling plane swap
(R40–R73). -/

namespace Sys2Proof.Machine

/-! ## Codes -/

/-- Codes of CHT_CTL.RESULT. -/
def chACCEPTED : Nat := 0x1
def chDONE : Nat := 0x2
def chBUSY : Nat := 0x3
def chILLEGAL : Nat := 0x4
def chNOTOWNER : Nat := 0x5
def chNOTREADY : Nat := 0x6
def chNEEDTWO : Nat := 0x7
def chALREADY : Nat := 0x8

/-- Shadow states (R51). -/
def shEMPTY : Nat := 0
def shLOADING : Nat := 1
def shVERIFYING : Nat := 2
def shVERIFIED : Nat := 3
def shREJECTED : Nat := 4
def shARMED : Nat := 5
def shAPPLYING : Nat := 6

/-- Kinds of a verified chart (R50). -/
def kIDENTICAL : Nat := 1
def kHOT : Nat := 2
def kCOLD : Nat := 3

def State.shadowIs (s : State) (n : Nat) : Bool := s.fld CHT_STATUS_SHADOW == n

def State.chResult (s : State) (n : Nat) : State := s.put CHT_CTL_RESULT n

/-- A command that is in progress ends; a later refusal keeps its place in RESULT. -/
def State.chEnd (s : State) : State := if s.fld CHT_CTL_RESULT = chACCEPTED then s.chResult chDONE else s

/-- The shadow takes a state. READY ends with ARMED; EMPTY releases the owner and clears what VERIFYING left. -/
def State.setShadow (s : State) (n : Nat) : State :=
  let s1 := s.put CHT_STATUS_SHADOW n
  let s2 := if n = shARMED then s1 else s1.put CHT_STATUS_READY 0
  if n = shEMPTY then
    (((((s2.put CHT_CTL_OWNER 0).put CHT_DIFF_DIFF 0).put CHT_STATUS_KIND 0).put CHT_SHD_ID_LO_ID 0).put CHT_SHD_ID_HI_ID 0).put
      CHT_SHD_COUNTER_COUNTER 0
  else s2

/-- An error reported; it overwrites an earlier one. CHT_ERR_EV is raised when VALID becomes 1 (R60, R70, R73, log 62). -/
def State.chError (s : State) (code sect record : Nat) : State :=
  let s1 := (((s.put CHT_ERR_VALID 1).put CHT_ERR_SECTION sect).put CHT_ERR_CODE code).put CHT_ERR_DETAIL_RECORD record
  if s.flag CHT_ERR_VALID then s1 else s1.pulse 191

/-- TYPEs that CHT_DIFF marks. -/
def State.diffTypes (s : State) : List Nat := sectionTypes.filter (fun t => decide (1 ≤ t) && bitOf (s.fld CHT_DIFF_DIFF) (t - 1))

def State.differs (s : State) (ty : Nat) : Bool := s.diffTypes.contains ty

/-! ## Commands (R51–R54) -/

/-- Owner code of a requester. -/
def ownerCode : Requester → Nat
  | .mc => 1
  | .core _ => 1
  | .hi0 => 2
  | .hi1 => 3
  | .tenant _ => 0

/-- A command of CHT_CTL. `tie` says that the management cluster writes it in the same clock; `free` that the command is valid
whoever owns the shadow. -/
def State.chCommand (s : State) (r : Requester) (tie free : Bool) (act : State → State) : State :=
  s.gated r rCHT_CTL (fun s =>
    if (tie = true ∧ isMc r = false) ∨ s.fld CHT_CTL_RESULT = chACCEPTED then s.chResult chBUSY
    else if s.shadowIs shEMPTY = false ∧ s.fld CHT_CTL_OWNER ≠ ownerCode r ∧ free = false then s.chResult chNOTOWNER
    else act s)

/-- OPEN. The staged bytes stay. -/
def State.chOpen (s : State) (r : Requester) : State :=
  if s.shadowIs shEMPTY ∨ s.shadowIs shREJECTED then
    ((s.put CHT_CTL_OWNER (ownerCode r)).setShadow shLOADING).chResult chDONE
  else s.chResult chILLEGAL

def execChtOpen (r : Requester) (tie : Bool) (s : State) : Host.Outcome State Fault Refusal :=
  .next (s.chCommand r tie false (fun s => s.chOpen r))

/-- VERIFY: the verification begins. -/
def State.chVerify (s : State) : State :=
  if s.shadowIs shLOADING then (s.setShadow shVERIFYING).chResult chACCEPTED else s.chResult chILLEGAL

def execChtVerify (r : Requester) (tie : Bool) (s : State) : Host.Outcome State Fault Refusal :=
  .next (s.chCommand r tie false State.chVerify)

/-- DISCARD. -/
def State.chDiscard (s : State) : State :=
  if s.shadowIs shLOADING ∨ s.shadowIs shVERIFIED ∨ s.shadowIs shREJECTED then (s.setShadow shEMPTY).chResult chDONE
  else s.chResult chILLEGAL

def execChtDiscard (r : Requester) (tie : Bool) (s : State) : Host.Outcome State Fault Refusal :=
  .next (s.chCommand r tie (isMc r) State.chDiscard)

/-- A write of the shadow window (R53). -/
def State.writeWindow (s : State) (r : Requester) (addr v : Nat) : State :=
  if s.shadowIs shLOADING ∧ s.fld CHT_CTL_OWNER = ownerCode r then
    { s with shadow := memPut s.shadow (addr - 0x140000) (leBytes 4 v) }
  else s.put CHT_STATUS_WIN_REJECT 1

/-- An address of the shadow window. -/
def inShadow (addr : Nat) : Bool := decide (0x140000 ≤ addr ∧ addr < 0x200000)

def execShadowWindowWrite (r : Requester) (addr v : Nat) (s : State) : Host.Outcome State Fault Refusal :=
  .next (if inShadow addr then s.gated r addr (fun s => s.writeWindow r (addr / 4 * 4) v) else s)

/-- A write of CHT_FLOOR: only a higher value takes effect (R49). -/
def State.writeFloor (s : State) (v : Nat) : State :=
  if s.fld CHT_FLOOR_FLOOR < v % 2 ^ 32 then s.put CHT_FLOOR_FLOOR v else s

def execChtFloorWrite (r : Requester) (v : Nat) (s : State) : Host.Outcome State Fault Refusal :=
  .next (s.gated r rCHT_FLOOR (fun s => s.writeFloor v))

/-- A write of the arm time: by the owner, while the shadow is not ARMED. -/
def State.writeArmTime (s : State) (r : Requester) (hi : Bool) (v : Nat) : State :=
  if s.fld CHT_CTL_OWNER = ownerCode r ∧ s.fld CHT_CTL_OWNER ≠ 0 ∧ s.shadowIs shARMED = false then
    if hi then s.put CHT_ARM_TIME_HI_TIME v else s.put CHT_ARM_TIME_LO_TIME v
  else s

/-! ## Verification (R47–R50) -/

/-- The end of VERIFYING. -/
def State.verifyEnd (s : State) : State :=
  let img := s.shadow
  let s1 := (s.put64 CHT_SHD_ID_LO_ID CHT_SHD_ID_HI_ID (chId img)).put CHT_SHD_COUNTER_COUNTER (chCounter img)
  match s.chartErr img none (max (s.fld CHT_FLOOR_FLOOR) (s.fld CHT_ACT_COUNTER_COUNTER)) with
  | some e => (((s1.setShadow shREJECTED).chError e.code e.sect e.record).pulse 188).chEnd
  | none =>
    let tys := sectionTypes.filter (fun t => decide (1 ≤ t ∧ t ≤ 0x12) && !secSame s.active img t)
    let kind := if tys = [] then kIDENTICAL else if tys.any coldTypes.contains then kCOLD else kHOT
    let s2 := (s1.put CHT_DIFF_DIFF (tys.foldl (fun n t => n + 2 ^ (t - 1)) 0)).put CHT_STATUS_KIND kind
    ((s2.setShadow shVERIFIED).pulse 188).chEnd

def execVerifyDone (s : State) : Host.Outcome State Fault Refusal := .next (if s.shadowIs shVERIFYING then s.verifyEnd else s)

/-! ## The rolling plane swap (R63–R70) -/

def State.swapBusy (s : State) : Bool := s.flag GLB_DEVSTATE_SWAP_BUSY

def State.swapStep (s : State) : Nat := s.fld CHT_STATUS_SWAP_STEP

def State.putStep (s : State) (n : Nat) : State := s.put CHT_STATUS_SWAP_STEP n

/-- Handover in step 2 or 5; with a drain limit of 0 the next step follows at once. -/
def State.swapDrain (s : State) (pl : Plane) (step : Nat) : State :=
  let s1 := (s.putStep step).handOver pl
  if (s1.plane pl).handing then s1 else s1.putStep (step + 1)

/-- Steps 1 and 2. -/
def State.startSwap (s : State) : State :=
  let s1 := (s.put GLB_DEVSTATE_SWAP_BUSY 1).putStep 1
  let up := if s1.differs tyPOWERMAP then s1.powerUp s1.shadow else (s1, [])
  ({ up.1 with cht := ⟨false, up.2⟩ } : State).swapDrain .B 2

/-- The swap ends: shadow EMPTY once the new chart is active, VERIFIED once the swap is undone. SWAP_STEP returns to 0 with it: step 8 is the
end of step 7 and step 9 follows when SWAP_BUSY is 0, so the field rests at 2 to 7 only (log 76). -/
def State.endSwap (s : State) (undone : Bool) : State :=
  let s1 := if undone then s.cht.doms.foldl State.domDown s else (s.powerRelease).dropEpoch (1 - s.epoch)
  let s2 : State := { s1.takebackFromNow with cht := ⟨false, []⟩, resyncCopied := false }
  let s3 := ((s2.put GLB_DEVSTATE_SWAP_BUSY 0).putStep 0).setShadow (if undone then shVERIFIED else shEMPTY)
  (if undone then s3.carRelease.chEnd else s3).pulse 190

/-- The swap is to be undone: pending entries are released, the schedule that the chart prepared once it is complete (R300), and Plane B is rebuilt under the active chart once its
drain has ended (R60, R69). -/
def State.swapBack (s : State) : State :=
  let s1 := s.dropEpoch (1 - s.epoch)
  let s2 : State := { s1 with cht := { s1.cht with back := true }, resyncCopied := false }
  if s2.swapStep = 4 then (s2.setCond .B .isolated).putStep 3 else s2

/-- A plane without a twin in service is built with its rules only and becomes LEAD (R70, R333); pending rules of an armed hot
chart go in with them. -/
def State.buildAlone (s : State) (pl : Plane) : State :=
  let s1 := (s.rulesIn pl s.active s.epoch).1
  let s2 := if s1.flag CHT_STATUS_READY ∧ s1.fld CHT_STATUS_KIND = kHOT ∧ s1.differs tyRULES then
      (s1.rulesIn pl s1.shadow (1 - s1.epoch)).1
    else s1
  s2.enterService pl

/-- A plane enters RESYNC; its copy is still to come. -/
def State.enterResync (s : State) (pl : Plane) : State := ({ s with resyncCopied := false, resyncPos := 0 } : State).setCond pl .resync

/-- The end of step 3 or step 6: the isolated plane is rebuilt. -/
def State.swapRebuilt (s : State) : State :=
  if s.swapStep = 3 ∧ s.isCond .B .isolated then
    if s.cht.back then
      let s1 := s.layPlane .B s.active
      if s1.isCond .A .inService then (s1.enterResync .B).putStep 4 else (s1.buildAlone .B).endSwap true
    else
      let s1 := (s.layPlane .B s.shadow).rulesIn .B s.shadow (1 - s.epoch)
      if s1.2 then (s1.1.enterResync .B).putStep 4 else (s1.1.chError 0x11 tyRULES 0).carRelease.swapBack
  else if s.swapStep = 6 ∧ s.isCond .A .isolated then
    let s1 := s.layPlane .A s.active
    if s1.isCond .B .inService then (s1.enterResync .A).putStep 7 else (s1.buildAlone .A).endSwap false
  else s

def execSwapRebuildDone (s : State) : Host.Outcome State Fault Refusal := .next (if s.swapBusy then s.swapRebuilt else s)

/-- The end of the copy of step 4 or step 7. -/
def State.swapResynced (s : State) : State :=
  if s.swapStep = 4 ∧ s.isCond .B .resync ∧ s.resyncCopied = false then
    if s.isCond .A .inService then
      if s.cht.back then ((s.cloneTables .B).setCond .B .inService).endSwap true
      else { s.copyByKey .B with resyncCopied := true }
    else if s.cht.back then (s.buildAlone .B).endSwap true else s
  else if s.swapStep = 7 ∧ s.isCond .A .resync then
    if s.isCond .B .inService then ((s.cloneTables .A).setCond .A .inService).endSwap false
    else (s.buildAlone .A).endSwap false
  else s

def execSwapResyncDone (s : State) : Host.Outcome State Fault Refusal := .next (if s.swapBusy then s.swapResynced else s)

/-! ## Preparation (R56, R57, R60) -/

/-- Preparation is complete: READY, the downbeat and LATE. -/
def State.chReady (s : State) : State :=
  let arm := s.fld64 CHT_ARM_TIME_LO_TIME CHT_ARM_TIME_HI_TIME
  let beat := s.nextBoundary (some arm) % 2 ^ 48
  let s0 := (s.put CHT_STATUS_READY 1).put64 CHT_DOWNBEAT_LO_TIME CHT_DOWNBEAT_HI_TIME beat
  let s1 := s0.putCar { s0.car with chartDone := s0.car.chartDone.map (fun d => { d with beat := beat }) }
  if ctLater s.nowCt arm then s1.put CHT_STATUS_LATE 1 else s1

/-- What preparation holds is released and the shadow is VERIFIED again: DISARM, a failure, sleep entry. -/
def State.disarmShadow (s : State) : State := (s.dropEpoch (1 - s.epoch)).carRelease.setShadow shVERIFIED

/-- Commit, step 5: the new chart becomes active, Plane B takes over and Plane A hands over (R65, R70). -/
def State.swapCommit (s : State) : State :=
  let tys := s.diffTypes
  let s1 := ({ s.newEra with epoch := 1 - s.epoch, resyncCopied := false } : State).trieEpoch.setShadow shAPPLYING
  if s.isCond .A .inService then
    let s2 := ((s1.setCond .B .inService).swapDrain .A 5)
    (s2.activate s.shadow tys).pulse 189
  else
    let s2 := ((s1.putStep 5).enterService .B)
    ((s2.activate s.shadow tys).pulse 189).endSwap false

/-- Preparation of a hot or identical chart ends. -/
def State.prepareHot (s : State) : State :=
  let r := if s.differs tyRULES then s.rulesBoth s.shadow (1 - s.epoch) else (s, true)
  if r.2 = false then (r.1.disarmShadow).chError 0x11 tyRULES 0
  else
    let c := if s.differs tySTREAMS then r.1.carChart s.shadow else (r.1, true)
    if c.2 then c.1.chReady else (c.1.disarmShadow).chError 0x11 tySTREAMS 0

/-- Preparation of a cold chart ends, with step 4; with Plane A lost the commit follows at once. -/
def State.prepareCold (s : State) : State :=
  let c := if s.differs tySTREAMS then s.carChart s.shadow else (s, true)
  if c.2 = false then (c.1.chError 0x11 tySTREAMS 0).carRelease.swapBack
  else
    let s1 := c.1.chReady
    if s1.isCond .A .inService then s1 else s1.swapCommit

/-- The end of preparation. -/
def State.prepared (s : State) : State :=
  if s.shadowIs shARMED = false ∨ s.flag CHT_STATUS_READY then s
  else if s.fld CHT_STATUS_KIND ≠ kCOLD then s.prepareHot
  else if s.swapStep = 4 ∧ s.cht.back = false ∧ s.isCond .B .resync ∧ (s.resyncCopied ∨ s.isCond .A .inService = false) then
    s.prepareCold
  else s

def execPreparationComplete (s : State) : Host.Outcome State Fault Refusal := .next s.prepared

/-! ## ARM, DISARM, ABORT_SWAP and the downbeat -/

/-- ARM (R56, R63). -/
def State.chArm (s : State) : State :=
  if s.shadowIs shVERIFIED = false then s.chResult chILLEGAL
  else if s.flag CLK_STATUS_PLL_TS = false then s.chResult chNOTREADY
  else
    let cold := s.fld CHT_STATUS_KIND == kCOLD
    if cold = true ∧ (s.isCond .A .inService = false ∨ s.isCond .B .inService = false) then s.chResult chNEEDTWO
    else if cold = true ∧ (s.inState .run = false ∨ s.swapBusy) then s.chResult chNOTREADY
    else
      let s1 := ((s.setShadow shARMED).put CHT_STATUS_LATE 0).chResult chDONE
      let s2 := if s.differs tySTREAMS then s1.carHold else s1
      if cold then s2.startSwap else s2

def execChtArm (r : Requester) (tie : Bool) (s : State) : Host.Outcome State Fault Refusal :=
  .next (s.chCommand r tie false State.chArm)

/-- The downbeat of a hot or identical chart (R58, R59). -/
def State.hotBeat (s : State) : State :=
  let s0 := s.newEra
  let s1 := if s.differs tyRULES then ({ s0 with epoch := 1 - s.epoch } : State).trieEpoch else s0
  ((s1.activate s.shadow s.diffTypes).setShadow shAPPLYING).pulse 189

/-- The downbeat of the armed chart, once TB0 has reached it. -/
def State.chartBeat (s : State) : State :=
  if s.shadowIs shARMED = false ∨ s.flag CHT_STATUS_READY = false ∨ s.cht.back ∨
      ctLater (s.fld64 CHT_DOWNBEAT_LO_TIME CHT_DOWNBEAT_HI_TIME) s.nowCt then s
  else if s.fld CHT_STATUS_KIND = kCOLD then s.swapCommit else s.hotBeat

def execChartDownbeat (s : State) : Host.Outcome State Fault Refusal := .next s.chartBeat

/-- A command that comes in the clock of the downbeat or the commit: that wins, here or in the queue before the command, and the
command finds it done (R62). None when preparation has not completed, so that no downbeat can fall now. -/
def State.chLate (s : State) (cold : Bool) : Option State :=
  if (s.fld CHT_STATUS_KIND == kCOLD) ≠ cold then none
  else if s.shadowIs shAPPLYING then some (s.chResult chALREADY)
  else if s.shadowIs shARMED ∧ s.flag CHT_STATUS_READY ∧ s.cht.back = false then
    some ((if cold then s.swapCommit else s.hotBeat).chResult chALREADY)
  else none

/-- DISARM; `late` when it comes in the clock of the downbeat. -/
def State.chDisarm (s : State) (late : Bool) : State :=
  match (if late then s.chLate false else none) with
  | some t => t
  | none =>
    if s.shadowIs shARMED = false ∨ s.fld CHT_STATUS_KIND = kCOLD then s.chResult chILLEGAL
    else s.disarmShadow.chResult chDONE

def execChtDisarm (r : Requester) (tie late : Bool) (s : State) : Host.Outcome State Fault Refusal :=
  .next (s.chCommand r tie false (fun s => s.chDisarm late))

/-- ABORT_SWAP; `late` when it comes in the clock of the commit. -/
def State.chAbort (s : State) (late : Bool) : State :=
  match (if late then s.chLate true else none) with
  | some t => t
  | none =>
    if s.shadowIs shARMED = false ∨ s.fld CHT_STATUS_KIND ≠ kCOLD then s.chResult chILLEGAL
    else
      let s1 := s.chResult chACCEPTED
      if s1.cht.back then s1 else s1.swapBack

def execChtAbortSwap (r : Requester) (tie late : Bool) (s : State) : Host.Outcome State Fault Refusal :=
  .next (s.chCommand r tie false (fun s => s.chAbort late))

/-- The background deletion after the downbeat ends; in a swap the shadow stays APPLYING. -/
def execOldEpochDeleteDone (s : State) : Host.Outcome State Fault Refusal :=
  .next (
    if s.shadowIs shAPPLYING = false then s
    else
      let s1 := s.dropEpoch (1 - s.epoch)
      if s1.swapBusy then s1 else s1.setShadow shEMPTY)

end Sys2Proof.Machine
end

