-- ==== Sys2Proof/Machine/Redundancy.lean ====
section
/-! DEFINITION. Supervision of the planes: heartbeats, fail-over, the commands of RED_CTL, in-field test and repair, and the
return of LEAD (R323–R338, R530, R531). -/

namespace Sys2Proof.Machine

/-! ## Codes of RED_CTL.RESULT -/

def rdACCEPTED : Nat := 0x1
def rdDONE : Nat := 0x2
def rdBUSY : Nat := 0x3
def rdILLEGAL : Nat := 0x4
def rdNOTREADY : Nat := 0x5
def rdNOTOWNER : Nat := 0x6
def rdABANDONED : Nat := 0x7

/-- A plane command ends. -/
def State.redEnd (s : State) (code : Nat) : State :=
  (({ s with redBusy := none } : State).put RED_CTL_RESULT code).setFlag RED_EVT_CMD_DONE

/-! ## Fail-over (R16, R326, R327) -/

/-- A plane whose beats the arbiter judges. -/
def State.supervised (s : State) (pl : Plane) : Bool := s.isCond pl .inService || s.isCond pl .resync

/-- The forwarding plane, or the plane under rebuild, is lost in a rolling swap (R70). -/
def State.swapLost (s : State) (pl : Plane) : State :=
  let step := s.swapStep
  let before := decide (step < 5)
  if pl ≠ (if before then Plane.A else Plane.B) then
    if before then (s.dropEpoch (1 - s.epoch)).endSwap true else s.endSwap false
  else
    let s1 := s.chError 0x12 0 0
    if step = 2 then (s1.drainEnd .B).putStep 3
    else if step = 5 then (s1.drainEnd .A).putStep 6
    else if step = 4 ∧ s1.flag CHT_STATUS_READY ∧ s1.cht.back = false then s1.swapCommit
    else s1

/-- A plane command that the loss of a plane ends: an isolation, or the return of the plane itself (R334). -/
def State.redLost (s : State) (pl : Plane) : State :=
  match s.redBusy with
  | some (.isolate x) =>
    if x = pl then s.redEnd rdABANDONED
    else ((s.setPlane x { s.plane x with handing := false }).makeLead x).redEnd rdABANDONED
  | some (.resync x) => if x = pl then s.redEnd rdABANDONED else s
  | _ => s

/-- Without a plane in service the device is in RECOVERY (R21, R327). -/
def State.noPlaneCheck (s : State) : State :=
  if s.noPlane = true ∧ s.swapBusy = false ∧ (s.inState .startUp ∨ s.inState .run ∨ s.inState .test) then s.enter .recovery else s

/-- The cause of a declaration: the twin declared in the same clock makes it both planes. -/
def State.failCause (s : State) (pl : Plane) (cause : Nat) : Nat :=
  if s.flag RED_LAST_FAIL_VALID ∧ s.fld RED_LAST_FAIL_PLANE = planeNum (twinOf pl) ∧
      s.fld64 RED_LAST_FAIL_TIME_LO_TIME RED_LAST_FAIL_TIME_HI_TIME = s.nowCt then 3 else cause

/-- The arbiter declares a plane failed. -/
def State.declareFailed (s : State) (pl : Plane) (cause : Nat) : State :=
  if s.supervised pl = false then s
  else
    let s1 := ({ s with fatal := s.fatal.filter (fun x => x != pl) } : State).failPlane pl (s.failCause pl cause)
    (if s1.swapBusy then s1.swapLost pl else s1.redLost pl).noPlaneCheck

/-! ## Heartbeats (R323–R326) -/

/-- Place of a path in `beats`. -/
def beatIx (frm : Plane) (path : BeatPath) : Nat := match path with
  | .fabric => 2 * planeNum frm
  | .side => 2 * planeNum frm + 1
  | .arbiter => 4 + planeNum frm

def State.beat (s : State) (i : Nat) : BeatSt := (s.beats[i]?).getD BeatSt.reset
def State.setBeat (s : State) (i : Nat) (x : BeatSt) : State := { s with beats := s.beats.set i x }

/-- The number of the beats a plane sends in the running slot. -/
def State.beatNum (s : State) (pl : Plane) : Nat := (s.beatNums[planeNum pl]?).getD 0

/-- The first four bytes of a beat: PLANE, STATE with the condition, LEAD and FATAL, BEAT_NUM. -/
def State.beatHead (s : State) (pl : Plane) : List Byte :=
  [BitVec.ofNat 8 (planeNum pl),
    BitVec.ofNat 8 (s.fld (condFld pl) + bitN (decide (s.lead = pl)) * 8 + bitN (decide (pl ∈ s.fatal)) * 16)] ++
    leBytes 2 (s.beatNum pl)

/-- The beat that a plane sends in the running slot, on both paths (R323). DESIGN CHOICE: its fields of several
bytes are little-endian, as those that R3 lists (log 93). -/
def State.beatSent (s : State) (pl : Plane) : List Byte :=
  s.beatHead pl ++ leBytes 4 (crc32c 0xFFFFFFFF (s.beatHead pl))

/-- CRC and PLANE of a beat from plane `frm` are right (R324). -/
def beatSound (frm : Plane) (bs : List Byte) : Bool :=
  bs.length == 8 && byteAt bs 0 == planeNum frm && bs.drop 4 == leBytes 4 (crc32c 0xFFFFFFFF (bs.take 4))

/-- BEAT_NUM of a beat, and its FATAL bit. -/
def beatNumOf (bs : List Byte) : Nat := byteAt bs 2 + 256 * byteAt bs 3
def beatFatal (bs : List Byte) : Bool := bitOf (byteAt bs 1) 4

/-- A beat whose time, CRC and PLANE are right is good when its number follows, or the slot before was missed. -/
def BeatSt.take (x : BeatSt) (num : Nat) : BeatSt :=
  if x.missedPrev ∨ num = (x.lastNum + 1) % 65536 then { x with lastNum := num, good := true } else x

/-- One receiver takes a beat. -/
def State.hearBeat (s : State) (num i : Nat) : State := s.setBeat i ((s.beat i).take num)

/-- A beat arrives; the side path leads through the arbiter (R323). FATAL in a beat of the plane declares it failed (R326). -/
def State.beatArrival (s : State) (frm : Plane) (path : BeatPath) (bs : List Byte) (inSlot : Bool) : State :=
  if inSlot = false ∨ beatSound frm bs = false then s
  else
    let s1 := s.hearBeat (beatNumOf bs) (beatIx frm path)
    let s2 := if path = .side then s1.hearBeat (beatNumOf bs) (beatIx frm .arbiter) else s1
    if beatFatal bs then s2.declareFailed frm 2 else s2

def execBeatArrival (frm : Plane) (path : BeatPath) (bytes : List Byte) (inSlot : Bool) (s : State) : Host.Outcome State Fault Refusal :=
  .next (s.beatArrival frm path bytes inSlot)

/-- A path's slot ends. -/
def BeatSt.slot (x : BeatSt) : BeatSt :=
  if x.good then { x with good := false, missedPrev := false, missRun := 0, goodRun := min (x.goodRun + 1) 128 }
  else { x with good := false, missedPrev := true, missRun := min (x.missRun + 1) 4, goodRun := 0 }

/-- FABRIC_DEG and SIDE_DEG show either direction. -/
def State.showDeg (s : State) : State :=
  (s.put RED_STATUS_FABRIC_DEG (bitN ((s.beat 0).degraded || (s.beat 2).degraded))).put RED_STATUS_SIDE_DEG
    (bitN ((s.beat 1).degraded || (s.beat 3).degraded))

/-- A path becomes degraded after four misses while the other delivers, and recovers after 128 good beats (R325). -/
def State.degrade (s : State) (i other : Nat) : State :=
  let x := s.beat i
  if x.degraded = false ∧ x.missRun = 4 ∧ (s.beat other).missRun < 4 then
    ((s.setBeat i { x with degraded := true }).showDeg).setFlag RED_EVT_PATH_DEG
  else if x.degraded = true ∧ x.goodRun = 128 then
    ((s.setBeat i { x with degraded := false }).showDeg).setFlag RED_EVT_PATH_OK
  else s

/-- A path's slot ends without a good beat: it is counted, and the take-back timer restarts (R324, R335). -/
def State.slotMissed (s : State) (i : Nat) (cnt : Fld) : State := if (s.beat i).good then s else (s.inc cnt).takebackFromNow

/-- Slots in which a supervised plane was heard nowhere, the one that ends among them (R326). -/
def State.lostRun (s : State) (frm : Plane) : Nat :=
  if s.supervised frm = false ∨ (s.beat (beatIx frm .fabric)).good ∨ (s.beat (beatIx frm .side)).good ∨
      (s.beat (beatIx frm .arbiter)).good then 0
  else min ((s.slotsLost[planeNum frm]?).getD 0 + 1) 4

/-- The end of a beat slot for the beats of one plane: misses counted, the plane declared failed in the fourth slot running that
neither the twin nor the arbiter heard it in, else the paths judged; the plane's next beats bear the next number. -/
def State.beatSlot (s : State) (frm : Plane) : State :=
  let f := beatIx frm .fabric
  let d := beatIx frm .side
  let a := beatIx frm .arbiter
  let s1 := (s.slotMissed f RED_BEAT_MISS_FAB_CNT_VAL).slotMissed d RED_BEAT_MISS_SIDE_CNT_VAL
  let s2 := ((s1.setBeat f (s.beat f).slot).setBeat d (s.beat d).slot).setBeat a (s.beat a).slot
  let s3 : State := { s2 with
    slotsLost := s2.slotsLost.set (planeNum frm) (s.lostRun frm)
    beatNums := s2.beatNums.set (planeNum frm) ((s.beatNum frm + 1) % 65536) }
  if s.lostRun frm = 4 then s3.declareFailed frm 1 else (s3.degrade f d).degrade d f

def execBeatSlot (frm : Plane) (s : State) : Host.Outcome State Fault Refusal := .next (s.beatSlot frm)

/-! ## Plane commands (R328–R334) -/

/-- A command of RED_CTL reaches the arbiter: from the management cluster, no swap and no other command in the way. -/
def State.redCommand (s : State) (r : Requester) (act : State → State) : State :=
  s.mcOnly r rRED_CTL RED_CTL_RESULT rdNOTOWNER (fun s =>
    if s.swapBusy ∨ s.redBusy.isSome then s.put RED_CTL_RESULT rdBUSY else act s)

def State.redStart (s : State) (b : RedBusy) : State := ({ s with redBusy := some b } : State).put RED_CTL_RESULT rdACCEPTED

/-- ISOLATE. -/
def State.redIsolate (s : State) (pl : Plane) : State :=
  if s.isCond pl .failed then (s.setCond pl .isolated).redEnd rdDONE
  else if s.isCond pl .inService ∧ s.isCond (twinOf pl) .inService ∧ (s.inState .run ∨ s.inState .test) then
    let s1 := (s.redStart (.isolate pl)).handOver pl
    if (s1.plane pl).handing then s1 else s1.redEnd rdDONE
  else s.put RED_CTL_RESULT rdNOTREADY

def execRedIsolate (r : Requester) (pl : Plane) (s : State) : Host.Outcome State Fault Refusal :=
  .next (s.redCommand r (fun s => s.redIsolate pl))

/-- A handover drain ends: the plane is empty, or CHT_SWAP_DRAIN has elapsed (R64). -/
def State.drainOver (s : State) (pl : Plane) : State :=
  if (s.plane pl).handing = false then s
  else
    let s1 := s.drainEnd pl
    if s1.swapBusy then s1.putStep (s1.swapStep + 1)
    else if s1.redBusy = some (.isolate pl) then s1.redEnd rdDONE
    else s1

def execHandoverDrainEnd (s : State) : Host.Outcome State Fault Refusal := .next ((s.drainOver .A).drainOver .B)

/-- TEST. -/
def State.redTest (s : State) (pl : Plane) : State :=
  if s.isCond pl .isolated ∧ s.inState .test then ((s.redStart (.test pl)).put RED_TEST_DONE 0).put RED_TEST_PLANE (planeNum pl)
  else s.put RED_CTL_RESULT rdNOTREADY

def execRedTest (r : Requester) (pl : Plane) (s : State) : Host.Outcome State Fault Refusal :=
  .next (s.redCommand r (fun s => s.redTest pl))

/-- A repair entry: VALID, UNSPARED, PLANE, COLUMN, MACRO, LINE (R530). -/
def repairWord (unspared : Bool) (pl : Plane) (mac line : Nat) : Nat :=
  2 ^ 31 + bitN unspared * 2 ^ 30 + planeNum pl * 2 ^ 29 + line / 2 ^ 18 % 2 * 2 ^ 28 + mac % 1024 * 2 ^ 18 + line % 2 ^ 18

/-- The repair entries in use. -/
def State.repairs (s : State) : List Nat := (List.range (s.fld RAS_REPAIR_STAT_USED)).map (fun i => (s.reg (rRAS_REPAIR i)).toNat)

/-- Spares of a macro still free: two rows and one column, less those of the factory and of the field. -/
def State.spareFree (s : State) (pl : Plane) (mac line : Nat) : Bool :=
  let col := line / 2 ^ 18 % 2
  let like := repairWord false pl mac (col * 2 ^ 18)
  let used := (s.repairs.filter (fun w => w / 2 ^ 18 == like / 2 ^ 18)).length
  decide (used + Config.fusedSpares (planeNum pl) mac (col == 1) < (if col = 1 then 1 else 2))

/-- One faulty row or column; false when it stays without a spare. `line` has bit 18 set for a column. -/
def State.repair1 (s : State) (pl : Plane) (mac line : Nat) : State × Bool :=
  let used := s.fld RAS_REPAIR_STAT_USED
  if repairWord true pl mac line ∈ s.repairs ∨ 256 ≤ used then (s, false)
  else
    let ok := s.spareFree pl mac line
    let w := repairWord (!ok) pl mac line
    let s1 := (s.setReg (rRAS_REPAIR used) (BitVec.ofNat 32 w)).put RAS_REPAIR_STAT_USED (used + 1)
    (if ok then s1.rasRecord 0x09 0 0x1B (planeBit pl) w else s1, ok)

/-- The self-test of a plane ends (R330). -/
def State.redTested (s : State) (logicOk : Bool) (faults : List (Nat × Nat)) : State :=
  match s.redBusy with
  | some (.test pl) =>
    let r := faults.foldl (fun acc f => let x := acc.1.repair1 pl f.1 f.2; (x.1, acc.2 && x.2)) ((s, logicOk) : State × Bool)
    (((r.1.put RED_TEST_FAULTS faults.length).put RED_TEST_PASS (bitN r.2)).put RED_TEST_DONE 1).redEnd rdDONE
  | _ => s

def execRedTestDone (logicOk : Bool) (faults : List (Nat × Nat)) (s : State) : Host.Outcome State Fault Refusal :=
  .next (s.redTested logicOk faults)

/-- REJOIN. -/
def State.redRejoin (s : State) (pl : Plane) : State :=
  if s.isCond pl .isolated then s.redStart (.rebuild pl) else s.put RED_CTL_RESULT rdNOTREADY

def execRedRejoin (r : Requester) (pl : Plane) (s : State) : Host.Outcome State Fault Refusal :=
  .next (s.redCommand r (fun s => s.redRejoin pl))

/-- A plane rebuilt under the active chart: RESYNC beside a twin in service, else service on its own (R331, R333). -/
def State.rebuilt (s : State) (pl : Plane) : State :=
  let s1 := s.layPlane pl s.active
  if s1.isCond (twinOf pl) .inService then s1.enterResync pl else s1.buildAlone pl

/-- The copy from the twin ends; without the twin the plane serves with its rules only. -/
def State.resynced (s : State) (pl : Plane) : State :=
  if s.isCond (twinOf pl) .inService then (s.cloneTables pl).setCond pl .inService else s.buildAlone pl

def execRejoinRebuildDone (s : State) : Host.Outcome State Fault Refusal :=
  .next (match s.redBusy with
    | some (.rebuild pl) =>
      let s1 := s.rebuilt pl
      if s1.isCond pl .resync then { s1 with redBusy := some (.resync pl) } else s1.redEnd rdDONE
    | _ => s)

def execRejoinResyncDone (s : State) : Host.Outcome State Fault Refusal :=
  .next (match s.redBusy with
    | some (.resync pl) => (s.resynced pl).redEnd rdDONE
    | _ => s)

/-- PROMOTE. -/
def State.redPromote (s : State) (pl : Plane) : State :=
  if s.isCond pl .inService ∧ s.lead ≠ pl then (s.makeLead pl).redEnd rdDONE else s.put RED_CTL_RESULT rdNOTREADY

def execRedPromote (r : Requester) (pl : Plane) (s : State) : Host.Outcome State Fault Refusal :=
  .next (s.redCommand r (fun s => s.redPromote pl))

/-! ## The return of LEAD (R335) -/

/-- The preferred plane whose take-back timer runs, if any; it has run since `tbFrom`. -/
def State.takeback (s : State) : Option Plane :=
  let n := s.fld RED_STATUS_PREF_LEAD
  let pl := planeOf n
  if n < 2 ∧ s.isCond pl .inService ∧ s.lead ≠ pl ∧ s.inState .run ∧ s.swapBusy = false then some pl
  else none

/-- The timer has reached PLN_TAKEBACK. -/
def State.takebackDue (s : State) : Bool := decide (s.fld RED_TAKEBACK_MS * 1000000 ≤ clkSince s.clk s.tbFrom)

/-- The plane becomes LEAD, unless a PROMOTE or a change of device state in the same clock wins and restarts the timer. -/
def execTakebackExpire (s : State) (tie : Bool := false) : Host.Outcome State Fault Refusal :=
  .next (match s.takeback with
    | some pl =>
      if s.takebackDue = false then s
      else if tie then s.takebackFromNow
      else ((s.makeLead pl).inc RED_TAKEBACK_CNT_VAL).setFlag RED_EVT_TAKEBACK
    | none => s)

/-- A write of RED_LAST_FAIL: VALID clears the record and its time. -/
def State.writeLastFail (s : State) (v : Nat) : State :=
  if bitOf v 31 then ((s.setReg rRED_LAST_FAIL 0).put RED_LAST_FAIL_TIME_LO_TIME 0).put RED_LAST_FAIL_TIME_HI_TIME 0 else s

end Sys2Proof.Machine
end

