-- ==== Sys2Proof/Machine/Clapper.lean ====
section
/-! DEFINITION. Clapper: the interrupt sources and their signals, delivery to targets, moderation and completion
(R469–R481). -/

namespace Sys2Proof.Machine

/-! ## Signals of the sources (R131, R171, R202, …, R534) -/

/-- The EVT and EVT_EN registers of a level source with the bits that count; none for event pulses and reserved sources. -/
def srcRegs (n : Nat) : Option (Nat × Nat × Nat) :=
  let all : Nat := 2 ^ 32 - 1
  match n with
  | 4 => some (rPWR_EVT, rPWR_EVT_EN, all)
  | 5 => some (rCLK_EVT, rCLK_EVT_EN, all)
  | 32 => some (rTIM_EVT, rTIM_EVT_EN, all)
  | 64 => some (rRED_EVT, rRED_EVT_EN, all)
  | 80 => some (rTRI_EVT, rTRI_EVT_EN, all)
  | 96 => some (rPRS_EVT .A, rPRS_EVT_EN .A, all)
  | 97 => some (rPRS_EVT .B, rPRS_EVT_EN .B, all)
  | 104 => some (rTBL_EVT .A, rTBL_EVT_EN .A, all)
  | 105 => some (rTBL_EVT .B, rTBL_EVT_EN .B, all)
  | 128 => some (rBPM_EVT .A, rBPM_EVT_EN .A, all)
  | 129 => some (rBPM_EVT .B, rBPM_EVT_EN .B, all)
  | 136 => some (rSCH_EVT .A, rSCH_EVT_EN .A, all)
  | 137 => some (rSCH_EVT .B, rSCH_EVT_EN .B, all)
  | 160 => some (rCAR_EVT, rCAR_EVT_EN, all)
  | 168 => some (rFRE_EVT .A, rFRE_EVT_EN .A, all)
  | 176 => some (rPLC_EVT, rPLC_EVT_EN, all)
  | 177 => some (rFRE_RSQ_EVT .A, rFRE_RSQ_EVT_EN .A, all)
  | 178 => some (rFRE_RSQ_EVT .B, rFRE_RSQ_EVT_EN .B, all)
  | 192 => some (rFWL_EVT, rFWL_EVT_EN, all)
  | 200 => some (rBLF_EVT, rBLF_EVT_EN, all)
  | 201 => some (rLDG_EVT, rLDG_EVT_EN, all)
  | 208 => some (rCPH_EVT, rCPH_EVT_EN, 0x07)
  | 209 => some (rCPH_EVT, rCPH_EVT_EN, 0x08)
  | 210 => some (rCPH_EVT, rCPH_EVT_EN, 0x30)
  | 368 => some (rNMW_EVT, rNMW_EVT_EN, all)
  | 384 => some (rHST_EVT, rHST_EVT_EN, 0x0F)
  | 385 => some (rHST_EVT, rHST_EVT_EN, 0x70)
  | 448 => some (rCAP_EVT, rCAP_EVT_EN, all)
  | 464 => some (rMEM_EVT, rMEM_EVT_EN, all)
  | 480 => some (rRAS_EVT, rRAS_EVT_EN, 0x0F)
  | 481 => some (rRAS_EVT, rRAS_EVT_EN, 0x10)
  | _ =>
    if 224 ≤ n ∧ n < 248 then some (rETH_EVT (n - 224), rETH_EVT_EN (n - 224), all)
    else if 256 ≤ n ∧ n < 264 then some (rT1S_EVT (n - 256), rT1S_EVT_EN (n - 256), all)
    else if 272 ≤ n ∧ n < 336 then
      some (rCAN_EVT ((n - 272) / 2), rCAN_EVT_EN ((n - 272) / 2), if n % 2 = 0 then 0x0F else 0xF0)
    else if 336 ≤ n ∧ n < 352 then some (rLIN_EVT (n - 336), rLIN_EVT_EN (n - 336), all)
    else if 352 ≤ n ∧ n < 368 then some (rNMW_NC_EVT (n - 352), rNMW_NC_EVT_EN (n - 352), all)
    else none

/-- Sources that are raised at an event (R36, R73). -/
def pulseSources : List Nat := [0, 1, 188, 189, 190, 191]

/-- A source that no chapter declares reserved. -/
def srcExists (n : Nat) : Bool := (srcRegs n).isSome || pulseSources.contains n

/-- The signal of a source now. -/
def State.srcSignal (s : State) (n : Nat) : Bool :=
  match srcRegs n with
  | some (e, en, mask) => (s.reg e).toNat &&& (s.reg en).toNat &&& mask != 0
  | none => s.pulses.contains n

/-! ## Source states (R472) -/

def stIDLE : Nat := 0
def stPENDING : Nat := 1
def stDELIVERED : Nat := 2

def State.srcIs (s : State) (n st : Nat) : Bool := s.fld (CLP_SRC_CFG_STATE n) == st

/-- EN = 1 and PRIO other than 0. -/
def State.srcOn (s : State) (n : Nat) : Bool := s.flag (CLP_SRC_CFG_EN n) && s.fld (CLP_SRC_CFG_PRIO n) != 0

/-- A source takes a state other than DELIVERED. -/
def State.srcPut (s : State) (n st : Nat) : State :=
  let s1 := (s.put (CLP_SRC_CFG_STATE n) st).put (CLP_SRC_CFG_DLV_TGT n) 0
  if st = stPENDING then s1 else { s1 with clp := { s1.clp with woke := s1.clp.woke.filter (· != n) } }

/-- Sources whose configuration register differs from reset; all others are IDLE. -/
def State.srcListed (s : State) : List Nat :=
  s.regs.filterMap (fun e => if rCLP_SRC_CFG 0 ≤ e.1 ∧ e.1 < rCLP_SRC_CFG 512 then some ((e.1 - rCLP_SRC_CFG 0) / 4) else none)

def State.pendingSrcs (s : State) : List Nat := s.srcListed.filter (fun n => s.srcIs n stPENDING)
def State.deliveredTo (s : State) (t : Nat) : List Nat :=
  s.srcListed.filter (fun n => s.srcIs n stDELIVERED && s.fld (CLP_SRC_CFG_DLV_TGT n) == t)

/-- Clapper sees a source's signal. -/
def State.srcSample (s : State) (n : Nat) : State :=
  let sig := s.srcSignal n
  let rising := sig && !(s.clp.high.contains n && (srcRegs n).isSome)
  let rest := s.clp.high.filter (· != n)
  let s1 : State := { s with
    clp := { s.clp with high := if sig ∧ (srcRegs n).isSome then rest ++ [n] else rest }
    pulses := s.pulses.filter (· != n) }
  if s1.srcOn n = false then s1
  else if s1.flag (CLP_SRC_CFG_TRIG n) = false then
    if sig ∧ s1.srcIs n stIDLE then s1.srcPut n stPENDING else s1
  else if rising = false then s1
  else if s1.srcIs n stIDLE then s1.srcPut n stPENDING
  else if s1.srcIs n stDELIVERED then s1.put (CLP_SRC_CFG_AGAIN n) 1
  else s1

def execSourceSignalChange (src : Nat) (s : State) : Host.Outcome State Fault Refusal :=
  .next (if src < 512 ∧ srcExists src ∧ s.domOn 9 then s.srcSample src else s)

/-! ## Targets (R469, R470) -/

def State.splitOn (s : State) : Bool := s.flag GLB_STRAP_SPLIT_ACTIVE

def State.tgtExists (s : State) (t : Nat) : Bool := t == 0 || (decide (t < 3) && s.splitOn) || decide (3 ≤ t ∧ t < 7)

def State.tgtPowered (s : State) (t : Nat) : Bool :=
  s.tgtExists t && (if t < 3 then s.domOn 9 else bitOf (s.fld TRI_AP_CTL_RUN) (t - 3))

/-- The running priority of a target. -/
def State.runPrio (s : State) (t : Nat) : Nat :=
  (s.deliveredTo t).foldl (fun m n => max m (s.fld (CLP_SRC_CFG_PRIO n))) (s.fld (CLP_TGT_CFG_THRESHOLD t))

/-- A target could accept a source were it open (R474). -/
def State.couldTake (s : State) (n t : Nat) : Bool :=
  bitOf (s.fld (CLP_SRC_CFG_TGT_MASK n)) t && s.tgtPowered t && decide (s.runPrio t < s.fld (CLP_SRC_CFG_PRIO n))

/-- A target is open (R476). -/
def State.tgtOpen (s : State) (t : Nat) : Bool :=
  s.fld (CLP_TGT_CFG_MOD_INT_US t) == 0 || (tabGet none s.clp.rounds t).isNone ||
    decide (s.fld (CLP_TGT_CFG_MOD_BATCH t) ≤ (s.pendingSrcs.filter (fun n => s.couldTake n t)).length) ||
    (s.flag (CLP_TGT_STAT_WFI t) && (s.deliveredTo t).isEmpty)

/-- A source's PRIO bypasses a target's moderation. -/
def State.bypasses (s : State) (n t : Nat) : Bool :=
  let b := s.fld (CLP_TGT_CFG_BYPASS_PRIO t)
  b != 0 && decide (b ≤ s.fld (CLP_SRC_CFG_PRIO n))

/-! ## Routing (R474, R475, R479) -/

/-- The target that takes a source: the lowest running priority, then the one chosen least recently. -/
def State.pickTgt (s : State) (opened : List Nat) (n : Nat) : Option Nat :=
  let order := (List.range 7).filter (fun t => !s.clp.order.contains t) ++ s.clp.order
  let ok := order.filter (fun t => s.couldTake n t && (opened.contains t || s.bypasses n t))
  ok.find? (fun t => ok.all (fun u => decide (s.runPrio t ≤ s.runPrio u)))

/-- A source delivered to a target: the target is chosen latest, leaves WFI, and its interval starts with a round. -/
def State.clpDeliver (s : State) (n t : Nat) : State :=
  let round := !s.bypasses n t && s.fld (CLP_TGT_CFG_MOD_INT_US t) != 0
  let c := s.clp
  let s1 := ((s.srcPut n stDELIVERED).put (CLP_SRC_CFG_DLV_TGT n) t).put (CLP_TGT_STAT_WFI t) 0
  { s1 with clp := { s1.clp with
    order := c.order.filter (· != t) ++ [t]
    rounds := if round then tabSet none c.rounds t (some s.clk) else c.rounds } }

/-- PENDING sources in descending PRIO, ascending number within one PRIO. -/
def State.routeOrder (s : State) : List Nat :=
  let l := s.pendingSrcs
  (List.range 16).reverse.flatMap (fun p => l.filter (fun n => s.fld (CLP_SRC_CFG_PRIO n) == p))

def State.routeOne (opened : List Nat) (s : State) (n : Nat) : State :=
  match s.pickTgt opened n with
  | some t => s.clpDeliver n t
  | none => s

/-- A PENDING source without a powered target wakes WAKE_TGT, once while it is PENDING. -/
def State.srcWake (s : State) (n : Nat) : State :=
  let mask := s.fld (CLP_SRC_CFG_TGT_MASK n)
  if s.srcIs n stPENDING = false ∨ s.flag (CLP_SRC_CFG_WAKE_EN n) = false ∨ s.clp.woke.contains n ∨
      (List.range 7).any (fun t => bitOf mask t && s.tgtPowered t) then s
  else
    let w := s.fld (CLP_SRC_CFG_WAKE_TGT n)
    let s1 := ({ s with clp := { s.clp with woke := s.clp.woke ++ [n] } } : State).inc CLP_WAKE_CNT_VAL
    if 3 ≤ w ∧ w < 7 ∧ s.flag GLB_DEVSTATE_SAFE = false then s1.put TRI_AP_CTL_RUN (setBits (s.fld TRI_AP_CTL_RUN) (w - 3) 1 1) else s1

/-- One clock of routing. -/
def State.route (s : State) : State :=
  let s1 := if s.flag CLP_CTL_HOLD then s
    else
      let opened := (List.range 7).filter s.tgtOpen
      s.routeOrder.foldl (State.routeOne opened) s
  s1.pendingSrcs.foldl State.srcWake s1

def execRoutePending (s : State) : Host.Outcome State Fault Refusal := .next (if s.domOn 9 then s.route else s)

/-! ## Completion, power-down, hold, moderation (R473, R476–R478) -/

/-- A source completed by the target that holds it. -/
def State.srcComplete (s : State) (t n : Nat) : State :=
  if s.srcIs n stDELIVERED = false ∨ s.fld (CLP_SRC_CFG_DLV_TGT n) ≠ t then s.inc CLP_CPL_ERR_CNT_VAL
  else if s.srcOn n = false then (s.srcPut n stIDLE).put (CLP_SRC_CFG_AGAIN n) 0
  else if s.flag (CLP_SRC_CFG_TRIG n) then
    if s.flag (CLP_SRC_CFG_AGAIN n) then (s.srcPut n stPENDING).put (CLP_SRC_CFG_AGAIN n) 0 else s.srcPut n stIDLE
  else if s.srcSignal n then s.srcPut n stPENDING else s.srcPut n stIDLE

def execClpComplete (r : Requester) (target src : Nat) (s : State) : Host.Outcome State Fault Refusal :=
  .next (if s.tgtExists target then s.gated r (rCLP_TGT_CPL target) (fun s => s.srcComplete target (src % 512)) else s)

/-- A target that is not powered loses its delivered sources. -/
def State.targetDown (s : State) (t : Nat) : State :=
  if s.tgtPowered t then s
  else
    let l := s.deliveredTo t
    let s1 := (l.foldl (fun s n => s.srcPut n stPENDING) s).put (CLP_TGT_STAT_WFI t) 0
    if l = [] then s1 else s1.addCnt CLP_REROUTE_CNT_VAL l.length

def execTargetPowerDown (target : Nat) (s : State) : Host.Outcome State Fault Refusal :=
  .next (if target < 7 then s.targetDown target else s)

/-- A write of CLP_CTL.HOLD. -/
def State.writeHold (s : State) (hold : Bool) : State := s.put CLP_CTL_HOLD (bitN hold)

def execClpHoldWrite (r : Requester) (hold : Bool) (s : State) : Host.Outcome State Fault Refusal :=
  .next (s.gated r rCLP_CTL (fun s => s.writeHold hold))

/-- MOD_INT_US has elapsed since the target's last delivery round began. -/
def State.modDue (s : State) (t : Nat) : Bool :=
  match tabGet none s.clp.rounds t with
  | some c => decide (s.fld (CLP_TGT_CFG_MOD_INT_US t) * 1000 ≤ (s.clk + 2 ^ 64 - c) % 2 ^ 64)
  | none => false

def execModerationExpire (target : Nat) (s : State) : Host.Outcome State Fault Refusal :=
  .next (if s.modDue target then { s with clp := { s.clp with rounds := tabSet none s.clp.rounds target none } } else s)

/-- A target enters WFI; with a source delivered it leaves it at once. -/
def execTargetWfi (target : Nat) (s : State) : Host.Outcome State Fault Refusal :=
  .next (if target < 7 ∧ s.tgtPowered target ∧ (s.deliveredTo target).isEmpty then s.put (CLP_TGT_STAT_WFI target) 1 else s)

/-- Clapper without power: every source is IDLE, and edges are lost (R480). -/
def State.clpOff (s : State) : State :=
  let s1 := s.srcListed.foldl (fun s n => (s.srcPut n stIDLE).put (CLP_SRC_CFG_AGAIN n) 0) s
  { s1 with clp := ⟨[], [], [], []⟩, pulses := [] }

/-! ## Configuration -/

/-- A write of CLP_SRCs_CFG. -/
def State.writeSrcCfg (s : State) (n v : Nat) : State :=
  if srcExists n = false then s
  else
    let was := s.flag (CLP_SRC_CFG_EN n)
    let mask := bits v 0 7
    let wake := bitOf v 29 && bitOf mask (bits v 24 3)
    let s1 := ((((((s.put (CLP_SRC_CFG_EN n) (bits v 31 1)).put (CLP_SRC_CFG_TRIG n) (bits v 30 1)).put (CLP_SRC_CFG_WAKE_EN n)
      (bitN wake)).put (CLP_SRC_CFG_WAKE_TGT n) (bits v 24 3)).put (CLP_SRC_CFG_PRIO n) (bits v 16 4)).put (CLP_SRC_CFG_TGT_MASK n) mask)
    let s2 := if bitOf v 31 = false ∧ s1.srcIs n stPENDING then s1.srcPut n stIDLE else s1
    let s3 := if s2.srcOn n ∧ s2.flag (CLP_SRC_CFG_TRIG n) = false ∧ s2.srcIs n stIDLE ∧ s2.srcSignal n then s2.srcPut n stPENDING
      else s2
    if was ∨ s3.srcIs n stPENDING then s3.srcWake n else s3

def execSourceCfgWrite (r : Requester) (src v : Nat) (s : State) : Host.Outcome State Fault Refusal :=
  .next (if src < 512 then s.gated r (rCLP_SRC_CFG src) (fun s => s.writeSrcCfg src v) else s)

/-- A write of CLP_TGTt_CFG. -/
def State.writeTgtCfg (s : State) (t v : Nat) : State :=
  if s.tgtExists t = false then s
  else
    let b := bits v 16 6
    (((s.put (CLP_TGT_CFG_BYPASS_PRIO t) (bits v 28 4)).put (CLP_TGT_CFG_MOD_BATCH t) (max 1 (min 32 b))).put
      (CLP_TGT_CFG_MOD_INT_US t) (min 1000 (bits v 6 10))).put (CLP_TGT_CFG_THRESHOLD t) (bits v 0 4)

end Sys2Proof.Machine
end

