-- ==== Sys2Proof/Machine/Triangle.lean ====
section
/-! DEFINITION. The Triangle: mismatches and their classification, self-tests, resynchronisation, the safe state, debug and the
application cores (R453–R468). -/

namespace Sys2Proof.Machine

/-! ## Modes and the safe state -/

/-- Codes of TRI_STATUS.MODE. -/
def tmTRIPLEX : Nat := 0
def tmDUPLEX : Nat := 1
def tmSIMPLEX : Nat := 2
def tmSTALLED : Nat := 3
def tmSPLIT : Nat := 4
def tmSAFE : Nat := 5

def State.triMode (s : State) : Nat := s.fld TRI_STATUS_MODE

/-- A change of MODE raises MODE_CHG. -/
def State.putMode (s : State) (m : Nat) : State :=
  if s.triMode = m then s else (s.put TRI_STATUS_MODE m).setFlag TRI_EVT_MODE_CHG

/-- A write of the RUN bits: application cores start, or are held in reset and lose their delivered sources (R467, R478). -/
def State.putRun (s : State) (run : Nat) : State :=
  [3, 4, 5, 6].foldl State.targetDown (s.put TRI_AP_CTL_RUN run)

/-- The safe state (R21, R22, R459): the cluster stalls, the application cores are held, ERR_OUT shows fault. -/
def State.enterSafe (s : State) : State :=
  let s1 := ((((s.putMode tmSAFE).put TRI_STATUS_TESTING 0).putRun 0).errCause 0).putDev GLB_DEVSTATE_SAFE 1
  let s2 : State := { s1 with tri := { s1.tri with pend := none, resync := none } }
  if s2.inState .startUp ∨ s2.inState .run ∨ s2.inState .test then s2.enter .recovery else s2

/-! ## Classes (R456) -/

def mcDIVERGENCE : Nat := 1
def mcFAULT : Nat := 2
def mcSKEW : Nat := 3
def mcUNATTRIBUTED : Nat := 4
def mcRESOLVED : Nat := 5
def mcUNRESOLVED : Nat := 6
def mcNOMAJORITY : Nat := 7

/-- An hour of the AO counter. -/
def hourUs : Nat := 3600000000

/-- An AO time lies within the last hour. -/
def State.inHour (s : State) (t : Nat) : Bool := decide ((s.ao + 2 ^ 48 - t) % 2 ^ 48 ≤ hourUs)

/-- A mismatch found: the record without its class. -/
def State.mmFound (s0 : State) (kind cores : Nat) : State :=
  let s : State := { s0 with tri := { s0.tri with found := s0.ao } }
  ((((s.put TRI_LAST_MM_VALID 1).put TRI_LAST_MM_KIND kind).put TRI_LAST_MM_CORES cores).put TRI_LAST_MM_CLASS 0).put64
    TRI_LAST_MM_TIME_LO_AO TRI_LAST_MM_TIME_HI_AO s.ao

/-- An UNATTRIBUTED mismatch noted; the third within an hour makes the voter suspect (R461). -/
def State.noteUnattributed (s : State) (t : Nat) : State :=
  let l := (t :: s.tri.unattributed).take 3
  let s1 : State := ({ s with tri := { s.tri with unattributed := l } } : State).inc TRI_UNATTRIBUTED_CNT_VAL
  match l with
  | [_, _, a] =>
    if (t + 2 ^ 48 - a) % 2 ^ 48 ≤ hourUs then ((s1.put TRI_STATUS_VOTER_SUSPECT 1).setFlag TRI_EVT_VOTER_SUSPECT).errCause 2 else s1
  | _ => s1

/-- A class recorded and counted, with its error record: CORRECTED when the core came back, else FATAL (R524). -/
def State.mmClass (s : State) (cls : Nat) : State :=
  let s1 := (s.put TRI_LAST_MM_CLASS cls).setFlag TRI_EVT_MISMATCH
  let s2 :=
    if cls = mcDIVERGENCE then s1.inc TRI_STATE_DIV_CNT_VAL
    else if cls = mcFAULT ∨ cls = mcRESOLVED then s1.inc TRI_CORE_FAULT_CNT_VAL
    else if cls = mcSKEW then s1.inc TRI_INPUT_SKEW_CNT_VAL
    else if cls = mcUNATTRIBUTED then s1.noteUnattributed s1.tri.found
    else s1
  s2.rasRecord 0x08 (if cls = mcDIVERGENCE ∨ cls = mcSKEW ∨ cls = mcUNATTRIBUTED then 0 else 2) 0x06 0 (s2.reg rTRI_LAST_MM).toNat

/-! ## Mismatches (R454–R456) -/

def State.setTri (s : State) (t : Tri) : State := { s with tri := t }

/-- Cores in service. -/
def State.coresIn (s : State) : List Nat := [0, 1, 2].filter (fun c => !bitOf (s.fld TRI_STATUS_FENCED) c)

def State.fence (s : State) (c : Nat) : State := s.put TRI_STATUS_FENCED (setBits (s.fld TRI_STATUS_FENCED) c 1 1)
def State.testing (s : State) (c : Nat) (on : Bool) : State :=
  s.put TRI_STATUS_TESTING (setBits (s.fld TRI_STATUS_TESTING) c 1 (bitN on))

/-- The cores are being restored from the inspected one (R465). -/
def State.recopying (s : State) : Bool :=
  match s.tri.resync with
  | some (_, 0) => true
  | _ => false

/-- Mismatches are compared: lockstep with two or three cores, running and not halted for debug. -/
def State.compares (s : State) : Bool :=
  (s.triMode == tmTRIPLEX || s.triMode == tmDUPLEX) && !s.splitOn && !s.flag DBG_STATUS_HALTED && !s.pwr.inReset && s.domOn 9 &&
    !s.recopying

/-- The minority core is fenced and a resynchronisation restores it; its end records the class. -/
def State.startResync (s : State) (c cls : Nat) : State :=
  let s1 := s.fence c
  s1.setTri { s1.tri with pend := none, resync := some ([c], cls) }

/-- A mismatch of three cores with a minority core. -/
def State.mmMinority (s : State) (kind c : Nat) (skew : Bool) : State :=
  let s1 := s.mmFound kind (2 ^ c)
  let known := match tabFind s.tri.diverged c with
    | some t => s.inHour t
    | none => false
  if kind = 1 ∧ known = false then
    let s2 := s1.setTri { s1.tri with diverged := tabPut s1.tri.diverged c s.ao }
    s2.startResync c mcDIVERGENCE
  else
    let s2 := (s1.fence c).testing c true
    s2.setTri { s2.tri with pend := some (.minority kind c skew) }

/-- A duplex mismatch: the cluster stalls and both cores are tested; a resynchronisation in progress ends (R458). -/
def State.mmDuplex (s : State) (kind : Nat) : State :=
  let s1 := (s.coresIn.foldl (fun s c => s.testing c true) ((s.mmFound kind 0).putMode tmSTALLED))
  s1.setTri { s1.tri with pend := some (.duplex []), resync := none }

/-- The cores differ; bit c of `diff` is set for a core that no other core agrees with. -/
def State.mismatch (s : State) (kind diff : Nat) (skew : Bool) : State :=
  let alone := s.coresIn.filter (fun c => bitOf diff c)
  if s.compares = false ∨ alone = [] then s
  else if s.coresIn.length = 2 then s.mmDuplex kind
  else match alone with
    | [c] => s.mmMinority kind c skew
    | _ => ((s.mmFound kind (alone.foldl (fun n c => n + 2 ^ c) 0)).mmClass mcNOMAJORITY).enterSafe

def execOutputMismatch (diff : Nat) (skew : Bool) (s : State) : Host.Outcome State Fault Refusal := .next (s.mismatch 0 diff skew)

def execSignatureCompare (diff : Nat) (s : State) : Host.Outcome State Fault Refusal := .next (s.mismatch 1 diff false)

/-! ## Self-test and resynchronisation (R456–R458) -/

/-- Both self-tests of a duplex mismatch have ended. -/
def State.duplexEnd (s : State) (results : List (Nat × Bool)) : State :=
  let s1 := s.setTri { s.tri with pend := none }
  match results.filter (fun x => !x.2) with
  | [(c, _)] =>
    ((((s1.fence c).put TRI_LAST_MM_CORES (2 ^ c)).putMode tmSIMPLEX).mmClass mcRESOLVED).errCause 1
  | _ => (s1.mmClass mcUNRESOLVED).enterSafe

/-- The minority core's self-test has ended. -/
def State.minorityEnd (s : State) (kind c : Nat) (skew pass : Bool) : State :=
  let s1 := s.setTri { s.tri with pend := none }
  if pass = false then (s1.putMode tmDUPLEX).mmClass mcFAULT
  else if kind = 1 then
    (s1.setTri { s1.tri with diverged := tabPut s1.tri.diverged c s1.tri.found }).startResync c mcDIVERGENCE
  else s1.startResync c (if skew then mcSKEW else mcUNATTRIBUTED)

/-- The self-test of a core ends. -/
def State.selfTested (s : State) (c : Nat) (pass : Bool) : State :=
  if bitOf (s.fld TRI_STATUS_TESTING) c = false then s
  else
    let s1 := (s.testing c false).setFlag TRI_EVT_TEST_DONE
    match s1.tri.pend with
    | some (.minority kind m skew) => if m = c then s1.minorityEnd kind c skew pass else s1
    | some (.duplex l) =>
      if bitOf (s1.fld TRI_STATUS_FENCED) c then s1
      else
        let r := l ++ [(c, pass)]
        if r.length < 2 then s1.setTri { s1.tri with pend := some (.duplex r) } else s1.duplexEnd r
    | none => s1

def execCoreSelftestDone (core : Nat) (pass : Bool) (s : State) : Host.Outcome State Fault Refusal :=
  .next (if core < 3 then s.selfTested core pass else s)

/-- A resynchronisation ends: its cores are back in service and the class is recorded; one from a single core marks the cluster
DEBUGGED (R465). -/
def execCoreResyncDone (s : State) : Host.Outcome State Fault Refusal :=
  .next (match s.tri.resync with
    | none => s
    | some (l, cls) =>
      let s1 := (l.foldl (fun s c => s.put TRI_STATUS_FENCED (setBits (s.fld TRI_STATUS_FENCED) c 1 0)) s).inc TRI_RESYNC_CNT_VAL
      let s2 := s1.setTri { s1.tri with resync := none }
      if cls = 0 then s2.put TRI_STATUS_DEBUGGED 1 else s2.mmClass cls)

/-! ## Debug (R464, R465) -/

/-- A fresh nonce. -/
def State.drawNonce (s : State) : State :=
  match s.random 16 with
  | (s1, l) => s1.windowPut (rDBG_NONCE 0) 0 l

/-- DBG_AUTH.GO. -/
def State.debugAuth (s : State) : State :=
  let nonce := s.window (rDBG_NONCE 0) 16
  let sig := s.window (rDBG_SIG 0) 96
  let usable := match (s.slot 7).cur with
    | some k => if s.orphaned 7 ∨ bitOf k.usage uVERIFY = false then none else some k
    | none => none
  let s1 := ((List.range 24).foldl (fun s n => s.setReg (rDBG_SIG n) 0) s).drawNonce
  match usable with
  | none => s1.put DBG_AUTH_RESULT 3
  | some k =>
    if ecVerify true k.pub (sha384 (devUid ++ nonce)) sig then (s1.put DBG_AUTH_RESULT 1).put DBG_STATUS_AUTH 1
    else s1.put DBG_AUTH_RESULT 2

def execDbgAuthGo (r : Requester) (s : State) : Host.Outcome State Fault Refusal := .next (s.gated r rDBG_AUTH State.debugAuth)

/-- A debug action recorded in the replay buffer and replayed, or a full buffer found. -/
def State.replay (s : State) (act : DebugAct) : State :=
  if s.flag DBG_STATUS_OVERFLOW then s
  else if 256 ≤ s.tri.replay.length then s.put DBG_STATUS_OVERFLOW 1
  else
    let l := s.tri.replay ++ [act]
    ((s.setTri { s.tri with replay := l }).put DBG_STATUS_REPLAY_USED l.length).inc TRI_DEBUG_ACT_CNT_VAL

/-- A debug action on the inspected core, the first in service; a halt halts the cluster for debug. In split mode no replay runs. -/
def execDebugAction (s : State) (act : DebugAct := .halt) : Host.Outcome State Fault Refusal :=
  .next (
    if s.flag DBG_STATUS_AUTH = false then s
    else
      let s1 := if act = .halt then s.put DBG_STATUS_HALTED 1 else s
      if s.splitOn then s1 else s1.replay act)

/-- Every core in service but the first is restored from it. -/
def State.recopyCores (s : State) : State :=
  match s.coresIn.drop 1 with
  | [] => s
  | l => s.setTri { s.tri with resync := some (l, 0) }

/-- Resume: with an overflow the other cores are restored from the inspected one, the first in service. A resume that is recorded is
counted as the other actions; the buffer is then empty, as every action has been replayed. -/
def State.debugResume (s : State) : State :=
  let full := decide (256 ≤ s.tri.replay.length)
  let s1 := if s.splitOn ∨ s.flag DBG_STATUS_OVERFLOW then s else if full then s.put DBG_STATUS_OVERFLOW 1 else s.inc TRI_DEBUG_ACT_CNT_VAL
  let s2 := ((s1.setTri { s1.tri with replay := [] }).put DBG_STATUS_HALTED 0).put DBG_STATUS_REPLAY_USED 0
  if s2.flag DBG_STATUS_OVERFLOW then (s2.put DBG_STATUS_OVERFLOW 0).recopyCores else s2

def execDebugResume (s : State) : Host.Outcome State Fault Refusal :=
  .next (if s.flag DBG_STATUS_HALTED then s.debugResume else s)

/-! ## Registers -/

/-- A write of TRI_AP_CTL; in the safe state RUN stays 0. -/
def State.writeApCtl (s : State) (run : Nat) : State := if s.flag GLB_DEVSTATE_SAFE then s else s.putRun (run % 16)

def execTriApCtlWrite (r : Requester) (run : Nat) (s : State) : Host.Outcome State Fault Refusal :=
  .next (s.gated r rTRI_AP_CTL (fun s => s.writeApCtl run))

/-- A write of TRI_LAST_MM: VALID clears the record and its time. -/
def State.writeLastMm (s : State) (v : Nat) : State :=
  if bitOf v 31 then (s.setReg rTRI_LAST_MM 0).put64 TRI_LAST_MM_TIME_LO_AO TRI_LAST_MM_TIME_HI_AO 0 else s

/-- TRI_HISTORY as it reads now. -/
def State.sdRecent (s : State) : Nat :=
  [0, 1, 2].foldl (fun n c => n + (match tabFind s.tri.diverged c with
    | some t => bitN (s.inHour t) * 2 ^ c
    | none => 0)) 0
def State.unattrRecent (s : State) : Nat := (s.tri.unattributed.filter s.inHour).length

end Sys2Proof.Machine
end

