-- ==== Sys2Proof/Machine/Reset.lean ====
section
/-! DEFINITION. Reset: its sources, what it keeps, and its release (R37, R38, R515, R539). -/

namespace Sys2Proof.Machine

/-- Registers held in D0. -/
def keptReg (a : Nat) : Bool :=
  a == rGLB_RESET_CAUSE || a == rCHT_FLOOR || a == rLDG_CKPT_CTR || a == rPWR_WAKE_CFG || a == rPWR_WAKE_TIMER_LO ||
    a == rPWR_WAKE_TIMER_HI || a == rPWR_WAKE_STATUS || a == rPWR_SLEEP_CNT || a == rRAS_REPAIR_STAT ||
    decide (rRAS_REPAIR 0 ≤ a ∧ a < rRAS_REPAIR 256)

/-- Fields held in D0 of registers that are not, and the levels of the wake pins. -/
def keptFields : List Fld :=
  [GLB_DEVSTATE_LAST_SLEEP, LDG_FLAGS_AO_VALID, NMW_WREC_STAT_OVF, CLK_STATUS_XO32K_OK] ++
    (List.range 8).map NMW_WAKEPIN_LEVEL

/-- INH0 to INH3 as a mask. -/
def State.inhMask (s : State) : Nat := (List.range 4).foldl (fun n k => n + bitN (s.inhLevel k) * 2 ^ k) 0

/-- Levels of INH0 to INH3 now: until NMCLUSTER is applied after a reset, those the reset left (R539). -/
def State.inhNow (s : State) : Nat := if s.inState .boot then s.fld NMW_INH_LEVEL else s.inhMask

/-- What lies outside the device and what every reset leaves: the fused epoch and the record in the boot source, the memories and
the messages of the hosts, the commands that wait. -/
def State.outside (s : State) : State :=
  { State.reset with
    free := s.free
    mcMem := []
    host0 := s.host0
    host1 := s.host1
    hostMsgs := s.hostMsgs
    blf := { Blf.reset with epoch := s.blf.epoch, flash := s.blf.flash }
    pending := s.pending }

/-- D0 survives, and with it the registers that `keep` names. -/
def State.survive (s : State) (keep : Nat → Bool) : State :=
  let r := s.outside
  let s1 : State := { r with
    regs := s.regs.filter (fun e => keep e.1)
    ao := s.ao
    wrec := s.wrec
    tri := { r.tri with diverged := s.tri.diverged, unattributed := s.tri.unattributed } }
  keptFields.foldl (fun t f => t.put f (s.fld f)) s1

/-- Everything but D0 reset. -/
def State.resetKeep (s : State) : State := (s.survive keptReg).put NMW_INH_LEVEL s.inhNow

/-- A reset source becomes active, with its cause bit (R38). -/
def State.resetBy (s : State) (cause : Fld) : State := s.resetKeep.put cause 1

/-- A pulse between 100 ns and 1 µs resets or is ignored: the spec leaves which, so a free value says it (R515, log 6). -/
def State.shortPulse (s : State) (cause : Fld) : State :=
  match s.fresh with
  | (s1, v) => if bitOf v 0 then s1.resetBy cause else s1

/-- A power-on reset clears everything and sets POR. -/
def execPowerOnReset (s : State) : Host.Outcome State Fault Refusal := .next s.outside

def execResetNLow (held : Bool) (s : State) : Host.Outcome State Fault Refusal :=
  .next (if held then s.resetBy GLB_RESET_CAUSE_PIN else s.shortPulse GLB_RESET_CAUSE_PIN)

def execPwrGoodLow (held : Bool) (s : State) : Host.Outcome State Fault Refusal :=
  .next (if held then s.resetBy GLB_RESET_CAUSE_PWRGOOD else s.shortPulse GLB_RESET_CAUSE_PWRGOOD)

def execSupplyMonitorReset (s : State) : Host.Outcome State Fault Refusal := .next (s.resetBy GLB_RESET_CAUSE_SUPPLY)

def execThermalReset (s : State) : Host.Outcome State Fault Refusal := .next (s.resetBy GLB_RESET_CAUSE_THERM)

/-- A debug request resets the device once the debugger is authenticated (R464). -/
def execDebugReset (s : State) : Host.Outcome State Fault Refusal :=
  .next (if s.flag DBG_STATUS_AUTH then s.resetBy GLB_RESET_CAUSE_DEBUG else s)

/-- A write of GLB_SWRESET (R515, R555). -/
def State.writeSwreset (s : State) (key : Nat) (go : Bool) : State :=
  if key ≠ 0x5A17 then s.accessErr rGLB_SWRESET 3
  else if go then s.resetBy GLB_RESET_CAUSE_SOFT else s

def execGlbSwreset (r : Requester) (key : Nat) (go : Bool) (s : State) : Host.Outcome State Fault Refusal :=
  .next (s.gated r rGLB_SWRESET (fun s => s.writeSwreset key go))

/-- The last reset source ends: the straps are latched and step 1 of the boot sequence begins (R37, R517, R519). -/
def State.release1 (s : State) (mode : Nat) (splitN : Bool) : State :=
  let split := bitN (!splitN && Config.splitPermit)
  let s1 := (((s.put GLB_STRAP_BOOT_MODE mode).put GLB_STRAP_SPLIT_N (bitN splitN)).put GLB_STRAP_SPLIT_ACTIVE split).put
    GLB_DEVSTATE_SPLIT split
  let s2 := [1, 8, 9].foldl State.domUp s1
  let s3 := if mode % 4 = 1 then s2.domUp 10 else s2
  let s4 := s3.put PWR_BOOT_STATUS_SOURCE (if mode % 4 = 2 then 1 else if mode % 4 = 1 then 2 else 0)
  let s5 : State := { s4 with pwr := { s4.pwr with inReset := false, boot := 1 } }
  s5.drawNonce

def execResetRelease (bootMode : Nat) (splitN : Bool) (s : State) : Host.Outcome State Fault Refusal :=
  .next (if s.pwr.inReset then s.release1 bootMode splitN else s)

end Sys2Proof.Machine
end

