-- ==== Sys2Proof/Machine/Boot.lean ====
section
/-! DEFINITION. The boot sequence up to the handover, and Plane B's joining after it (R460, R515–R520). -/

namespace Sys2Proof.Machine

def State.bootStep (s : State) (n : Nat) : State := { s with pwr := { s.pwr with boot := n } }

/-- The boot has failed: it stays in BOOT, the Triangle stalls, ERR_OUT shows fault (R520). -/
def State.bootFail (s : State) (code : Nat) : State :=
  let s1 := ((s.put PWR_BOOT_STATUS_CODE code).errCause 5).putMode tmSTALLED
  { s1 with pwr := { s1.pwr with halted := true } }

/-- Steps 5 to 7 failing: with BOOT_MODE 0b00 step 5 runs once more on the recovery directory (R519). -/
def State.bootRetry (s : State) (code : Nat) : State :=
  if s.fld GLB_STRAP_BOOT_MODE = 0 ∧ s.fld PWR_BOOT_STATUS_SOURCE = 0 then (s.put PWR_BOOT_STATUS_SOURCE 1).bootStep 5
  else s.bootFail code

/-! ## Steps 3 to 5 -/

/-- The cores that passed run in lockstep (R460). -/
def State.bootCores (s : State) : State :=
  let f := s.fld PWR_BOOT_STATUS_FENCED
  if 2 ≤ popLow f 3 then s.bootFail 1
  else ((s.put TRI_STATUS_FENCED f).putMode (if s.splitOn then tmSPLIT else if f = 0 then tmTRIPLEX else tmDUPLEX)).bootStep 4

/-- Slot 6, generated at every boot (R417). -/
def State.makeSlot6 (s : State) : State :=
  match s.random 32 with
  | (s1, k) => s1.setSlot 6 ⟨some ⟨algAES256, 2 ^ uWRAP, 0xFFFF, 0, 0, false, 0, k, []⟩, none, false, 0, 0, ownDEVICE⟩

/-- A slot of the privileged record made at manufacture: a P-384 VERIFY key, or empty (R417, R516). -/
def factorySlot (n : Nat) : SlotSt :=
  if n ∈ [2, 3, 4, 7] ∧ Config.factorySlot n = true then
    ⟨some ⟨0x19, 0x10, 0xFFFF, 0, 3, false, 0, [], (List.range 96).map (Config.factoryKey n)⟩, none, false, 0, 0, ownDEVICE⟩
  else SlotSt.empty

/-- Slots 2 to 5 and 7 to 15 as the record that carries the fused epoch gives them. -/
def State.restoreSlots (s : State) : State :=
  ((List.range 14).map (· + 2)).foldl (fun s n =>
    if n = 6 then s
    else s.setSlot n (if s.blf.epoch = 1 then factorySlot n else tabGet SlotSt.empty s.blf.flash n)) s

/-- The boot comes from the host: its image lies in the memory of HI0 at the address of PWR_HOSTBOOT (R519). -/
def State.fromHost (s : State) : Bool := s.fld GLB_STRAP_BOOT_MODE == 1

/-- `n` bytes of the boot source at an offset from its directory: the host's memory, or what the command gives. -/
def State.bootBytes (s : State) (given : List Byte) (off n : Nat) : List Byte :=
  if s.fromHost then memTake s.host0 (s.fld64 PWR_HOSTBOOT_LO_ADDR PWR_HOSTBOOT_HI_ADDR + off) n else given.take n

/-- Fields of a boot directory (R516). -/
def dirFwOff (d : List Byte) : Nat := leNat (slice d 8 4)
def dirFwLen (d : List Byte) : Nat := leNat (slice d 12 4)
def dirChartOff (d : List Byte) : Nat := leNat (slice d 20 4)
def dirChartLen (d : List Byte) : Nat := leNat (slice d 24 4)
def dirFloor (d : List Byte) : Nat := leNat (slice d 36 4)

/-- A boot directory that R516 admits; the equality of CHART_LEN with TOTAL_LEN is tested with the chart. -/
def dirGood (d : List Byte) : Bool :=
  let entry := leNat (slice d 16 4)
  slice d 0 4 == [0x4B, 0x51, 0x42, 0x54] && leNat (slice d 4 2) == 1 && leNat (slice d 6 2) == 0 && dirFwOff d % 64 == 0 &&
    decide (64 ≤ dirFwLen d ∧ dirFwLen d ≤ 1572864 ∧ dirFwLen d % 4 = 0) && decide (entry % 4 = 0 ∧ entry < dirFwLen d) &&
    dirChartOff d % 8 == 0 && decide (80 ≤ dirChartLen d ∧ dirChartLen d ≤ 786432 ∧ dirChartLen d % 8 = 0) &&
    (d.drop 40).all (fun b => b == 0)

/-- Step 5: directory and privileged record. With BOOT_MODE 0b11 the device then holds in BOOT. -/
def State.bootDirectory (s : State) (o : BootOutcome) : State :=
  let d := s.bootBytes o.dir 0 64
  if s.fromHost = true ∧ s.pwr.hostGo = false then s
  else if dirGood d = false then s.bootRetry 3
  else if o.privOk = false then s.bootRetry 4
  else
    let s0 : State := { s with pwr := { s.pwr with dir := d } }
    let s1 := s0.restoreSlots
    if s1.fld GLB_STRAP_BOOT_MODE = 3 then { s1 with pwr := { s1.pwr with halted := true } } else s1.bootStep 6

/-! ## Steps 6 to 9 -/

/-- The firmware image as read verifies with slot 3: the signature behind it covers the directory and the image (R516). -/
def State.fwVerifies (s : State) (o : BootOutcome) : Bool :=
  let d := s.pwr.dir
  let b := s.bootBytes o.fw (dirFwOff d) (dirFwLen d + 96)
  match (s.slot 3).cur with
  | some k => decide (b.length = dirFwLen d + 96) && ecVerify true k.pub (sha384 (d ++ b.take (dirFwLen d))) (b.drop (dirFwLen d))
  | none => false

/-- Step 6: the firmware image, and the floor (R518). -/
def State.bootFirmware (s : State) (o : BootOutcome) : State :=
  let floor := dirFloor s.pwr.dir
  if s.fwVerifies o = false then s.bootRetry 5
  else
    let s1 := if s.fld CHT_FLOOR_FLOOR < floor then s.put CHT_FLOOR_FLOOR floor else s
    s1.bootStep 7

/-- The size of the LPDDR, once it is trained. -/
def State.trained (s : State) (gib : Nat) : State :=
  (s.put MEM_STATUS_PRESENT (bitN (gib != 0))).put MEM_STATUS_SIZE_GIB gib

/-- POWERMAP applied: the domains come up, and the planes with their domains, not yet in service. -/
def State.bootPower (s : State) (img : Mem) : State :=
  let s1 := (s.powerUp img).1.loadPOWERMAP
  let s2 := s1.setCond .A .isolated
  if s2.domOn 7 then s2.setCond .B .isolated else s2

/-- Step 7: the chart is read and verified. -/
def State.bootChart (s : State) (o : BootOutcome) : State :=
  let n := dirChartLen s.pwr.dir
  let b := s.bootBytes o.chart (dirChartOff s.pwr.dir) n
  if b.length < n then (s.chError 0x04 0 0).bootRetry 6
  else
    let img := memPut [] 0 b
    let s1 := if pwrMode img 11 = 0 then s else s.trained o.lpddrGib
    match s1.chartErr img (some n) (s1.fld CHT_FLOOR_FLOOR) with
    | some e => (s1.chError e.code e.sect e.record).bootRetry 6
    | none => (({ s1 with active := img } : State).bootPower img).bootStep 8

/-- Step 8: the sections are applied in their order, as over an empty image; Plane A takes its rules, and its entries are pinned
for the chart's streams. A plan that Carillon cannot place leaves the chart without streams (log 70). -/
def State.bootApply (s : State) : State :=
  let img := s.active
  let s1 := ((s.layPlane .A img).rulesIn .A img s.epoch).1
  let s2 := (s1.carChart img).1.put GLB_DEVSTATE_PA_COND Cond.inService.code
  let s3 := ({ s2 with active := [] } : State).activate img sectionTypes
  -- Order 19 of R55: the domains that POWERMAP leaves off go down last.
  ((s3.put GLB_DEVSTATE_PA_COND Cond.isolated.code).powerRelease).bootStep 9

/-- Step 9: the handover. -/
def State.bootHandover (s : State) : State :=
  let s1 := (s.enter .startUp).enterService .A
  { s1 with pwr := { s1.pwr with boot := 0, joinB := s1.domOn 7 } }

/-- The step in progress ends. -/
def State.bootNext (s : State) (o : BootOutcome) : State :=
  match s.pwr.boot with
  | 1 => (s.put CLK_STATUS_REF_OK 1).bootStep 2
  | 2 =>
    let s1 := ((s.put CLK_STATUS_PLL_CORE 1).put CLK_STATUS_PLL_MC 1).put CLK_STATUS_PLL_TS 1
    (s1.put PWR_BOOT_STATUS_FENCED (7 - o.cores % 8)).bootStep 3
  | 3 => s.bootCores
  | 4 => if o.trngOk then s.makeSlot6.bootStep 5 else s.bootFail 2
  | 5 => s.bootDirectory o
  | 6 => s.bootFirmware o
  | 7 => s.bootChart o
  | 8 => s.bootApply
  | 9 => s.bootHandover
  | _ => s

def execBootStepDone (outcome : BootOutcome) (s : State) : Host.Outcome State Fault Refusal :=
  .next (if s.pwr.inReset ∨ s.pwr.halted then s else s.bootNext outcome)

/-- A write of PWR_HOSTBOOT_GO acts for the function of HI0 in BOOT with BOOT_MODE 0b01 (R519). -/
def State.writeHostGo (s : State) (r : Requester) (go : Bool) : State :=
  if go ∧ r = .hi0 ∧ s.inState .boot ∧ s.fld GLB_STRAP_BOOT_MODE = 1 then { s with pwr := { s.pwr with hostGo := true } } else s

def execPwrHostbootGo (r : Requester) (go : Bool) (s : State) : Host.Outcome State Fault Refusal :=
  .next (s.gated r rPWR_HOSTBOOT_GO (fun s => s.writeHostGo r go))

/-- Plane B, rebuilt and resynchronised after the handover, enters service as FOLLOW. -/
def State.joinPlaneB (s : State) : State :=
  if s.pwr.joinB = false ∨ s.pwr.sleep ≠ 0 ∨ s.isCond .B .isolated = false ∨ s.redBusy.isSome then s
  else
    let s1 := s.rebuilt .B
    let s2 := if s1.isCond .B .resync then s1.resynced .B else s1
    { s2 with pwr := { s2.pwr with joinB := false } }

def execBootPlaneBJoin (s : State) : Host.Outcome State Fault Refusal := .next s.joinPlaneB

end Sys2Proof.Machine
end

