-- ==== Sys2Proof/Machine/Flows.lean ====
section
/-! DEFINITION. The flows of the firewall: requests applied, the sweeper, and the flush (R401–R404). -/

namespace Sys2Proof.Machine

/-- The region of flow entries and its number, as the table engine sees it. -/
def State.flowHome (s : State) : Option (Nat × Region) :=
  match (s.plane s.engine).regionOfTag (s.fld FWL_CFG_FLOW_TAG) with
  | none => none
  | some ri => ((s.plane s.engine).region ri).map (fun r => (ri, r))

/-- The flow entries held: bucket, entry and content. -/
def State.flows (s : State) (r : Region) : List (Nat × Nat × Slot) :=
  (s.entriesOf r).filter (fun x => stHas x.2.2.status stVALID && !stHas x.2.2.status stCHART && !stHas x.2.2.status stLEARNED &&
    keyTag true x.2.2.key == s.fld FWL_CFG_FLOW_TAG)

/-- The number of flow entries held (FWL_FLOW_STAT). -/
def State.flowCount (s : State) : Nat :=
  match s.flowHome with
  | some (_, r) => if s.flag FWL_CFG_FLOWS_EN then (s.flows r).length else 0
  | none => 0

/-- The next flow request of both planes by stamp, Plane A's first, and the FIFOs without it. -/
def State.nextFlow (s : State) : Option (FlowReq × State) :=
  match s.planeA.flowQ, s.planeB.flowQ with
  | [], [] => none
  | a :: q, [] => some (a, s.setPlane .A { s.planeA with flowQ := q })
  | [], b :: q => some (b, s.setPlane .B { s.planeB with flowQ := q })
  | a :: qa, b :: qb =>
    if a.stamp ≤ b.stamp then some (a, s.setPlane .A { s.planeA with flowQ := qa })
    else some (b, s.setPlane .B { s.planeB with flowQ := qb })

/-- A flow request applied: a key that is held is refreshed, a new one inserted (R403). -/
def State.applyFlow (s : State) (q : FlowReq) : State :=
  match s.flowHome with
  | none => s
  | some (ri, r) =>
    if s.anyWriter = false then s
    else match bestOf s.epoch (holders r (s.view r) q.key) with
      | some (b, e, _) => s.tblApply ri [.status b e 0 0x180]
      | none => match s.place ri q.key q.result stVALID with
        | (s1, some _) => s1
        | (s1, none) => ((s1.inc FWL_FLOW_FAIL_CNT_VAL).setFlag FWL_EVT_FLOW_FAIL).setFlag (TBL_EVT_NEED_REHASH s1.lead)

def execFlowRequestApply (s : State) : Host.Outcome State Fault Refusal :=
  .next (match s.nextFlow with
    | some (q, s1) => s1.applyFlow q
    | none => s)

/-- FWL_CTL.FLUSH_FLOWS written 1. -/
def State.flushFlows (s : State) : State :=
  match s.flowHome with
  | some (ri, r) => if s.flag FWL_CFG_FLOWS_EN then s.tblApply ri ((s.flows r).map (fun x => .clear x.1 x.2.1)) else s
  | none => s

def execFlushFlows (r : Requester) (s : State) : Host.Outcome State Fault Refusal := .next (s.gated r rFWL_CTL State.flushFlows)

/-- The sweeper visits a flow entry: aged out, or a step older (R150, R404). -/
def State.sweepFlow (s : State) (ri : Nat) (x : Nat × Nat × Slot) : State :=
  if (s.agesOf ri x.1 x.2.1).all (· == 3) then (s.tblApply ri [.clear x.1 x.2.1]).inc FWL_FLOW_AGED_CNT_VAL
  else s.ageUp ri x.1 x.2.1

def execFlowSweep (prof : Nat) (s : State) : Host.Outcome State Fault Refusal :=
  .next (match s.flowHome with
    | some (ri, r) =>
      if s.flag FWL_CFG_FLOWS_EN ∧ s.anyWriter then
        ((s.flows r).filter (fun x => bits x.2.2.result 0 2 == prof)).foldl (fun s x => s.sweepFlow ri x) s
      else s
    | none => s)

end Sys2Proof.Machine
end

