-- ==== Sys2Proof/Machine/NmCommands.lean ====
section
/-! DEFINITION. The NM clusters' own events: their timers, the Knell, Chimes, wake detectors, selective wake, and the commands of
NMW (R369–R392). -/

namespace Sys2Proof.Machine

/-- A cluster that exists. -/
def State.ncIs (s : State) (c st : Nat) : Bool := decide (c < 16) && s.ncEnabled c && s.nc c == st

/-- REPEAT_MS ends (R371). -/
def execNmRepeatExpire (c : Nat) (s : State) : Host.Outcome State Fault Refusal :=
  .next (if s.ncIs c ncREPEAT then s.ncPut c ncNORMAL else s)

/-- The NM timer has reached NM_TIMEOUT. -/
def State.nmDue (s : State) (c : Nat) : Bool :=
  decide (s.ncRec c 20 2 * 1000 ≤ (s.ao + 2 ^ 48 - (s.nmSt c).timerAt) % 2 ^ 48)

/-- NM_TIMEOUT is reached with no request held. -/
def execNmTimeout (c : Nat) (s : State) : Host.Outcome State Fault Refusal :=
  .next (if s.ncIs c ncNORMAL ∧ s.ncRequested c = false ∧ s.nmDue c then s.ncPut c ncREADY else s)

/-- Nothing waits at the cluster's ports: egress queues of both planes and CAN transmit buffers. -/
def State.ncDrained (s : State) (c : Nat) : Bool :=
  (s.ncPorts c).all (fun p =>
    [Plane.A, Plane.B].all (fun pl => (s.plane pl).queues.all (fun q => q.1 / 8 != p || !q.2.any QEntry.solid)) &&
      (decide (p < 32) || decide (64 ≤ p) || s.txbufUsed (p - 32) == 0))

/-- A member at entry to PREPARE_SLEEP: a LIN commander stops after its slot and sends go-to-sleep, a segment sends the TC10 sleep
request (R373). -/
def State.preparePort (s : State) (p : Nat) : State :=
  if p < 32 then s.setPort p { s.port p with tc10Req := true }
  else if 64 ≤ p ∧ s.flag (LIN_CFG_ROLE (p - 64)) then
    s.setLin (p - 64) { s.lin (p - 64) with run := some false, sleepCmd := true, restart := false }
  else s

/-- READY_SLEEP ends (R372, R373). -/
def State.enterPrepare (s : State) (c : Nat) : State := (s.ncPorts c).foldl State.preparePort (s.ncPut c ncPREPARE)

def execReadySleepDrained (c : Nat) (s : State) : Host.Outcome State Fault Refusal :=
  .next (if s.ncIs c ncREADY ∧ s.ncDrained c then s.enterPrepare c else s)

def execReadyMaxExpire (c : Nat) (s : State) : Host.Outcome State Fault Refusal :=
  .next (if s.ncIs c ncREADY then s.enterPrepare c else s)

/-- WAIT_SLEEP ends: the Knell. -/
def execKnell (c : Nat) (s : State) : Host.Outcome State Fault Refusal :=
  .next (if s.ncIs c ncPREPARE then s.knellNow c false else s)

/-- Step 5 of the Knell sequence. -/
def execKnellEnd (c : Nat) (s : State) : Host.Outcome State Fault Refusal :=
  .next (if s.ncIs c ncSHUTDOWN then s.knellDone c else s)

/-! ## Wake detectors (R384, R386, R387, R389, R512) -/

/-- D2 or D3 works for the wake detectors: powered, or kept on in device sleep, from the power-down of step 4 on. -/
def State.wakePower (s : State) (d : Nat) : Bool :=
  if 5 ≤ s.pwr.sleep then s.flag (if d = 2 then PWR_MAP_KEEP_D2 else PWR_MAP_KEEP_D3) else s.domOn d

/-- A wake event outside the clusters, during sleep entry or sleep. -/
def State.deviceWake (s : State) (idx : Nat) : State :=
  if s.pwr.sleep = 0 then s else { s with pwr := { s.pwr with wakes := s.pwr.wakes ++ [⟨0x0A, idx, 0xFF, 0, s.ao⟩] } }

/-- A WAKE pin has held its new level for its filter time. -/
def State.wakePin (s : State) (k : Nat) : State :=
  let up := !s.flag (NMW_WAKEPIN_LEVEL k)
  let s1 := s.put (NMW_WAKEPIN_LEVEL k) (bitN up)
  let edge := bits (secLe s.active tyNMCLUSTER (8 + k) 1) 0 2
  if bitOf edge (if up then 0 else 1) = false then s1
  else match s.pinCluster k with
    | some c => s1.nmWake c 1 k 0
    | none => if bitOf (s.fld PWR_WAKE_CFG_PIN_EN) k then s1.deviceWake k else s1

def execWakePinEdge (k : Nat) (s : State) : Host.Outcome State Fault Refusal := .next (if k < 8 then s.wakePin k else s)

/-- The cluster of a CAN channel, when it is in BUS_SLEEP. -/
def State.sleepingCan (s : State) (n : Nat) : Option Nat :=
  match s.clusterOf (32 + n) with
  | some c => if n < 32 ∧ s.nc c = ncBUS_SLEEP then some c else none
  | none => none

def execCanWakePattern (n : Nat) (s : State) : Host.Outcome State Fault Refusal :=
  .next (match s.sleepingCan n with
    | some c => if bitOf (s.cwRec n 1 1) 1 then s.nmWake c 2 n 0 else s
    | none => s)

/-- Pattern `k` of a channel matches a Classical frame. -/
def State.swMatch (s : State) (n : Nat) (ext : Bool) (id dlc : Nat) (data : List Byte) (k : Nat) : Bool :=
  let at' (i w : Nat) : Nat := s.cwRec n (8 + 24 * k + i) w
  let pid := at' 0 4
  let mask := at' 4 4 % 2 ^ 29
  bitOf pid 29 == ext && ((id ^^^ pid % 2 ^ 29) &&& mask) == 0 &&
    (!bitOf (at' 9 1) 0 || (at' 8 1 == dlc &&
      (List.range 8).any (fun i => (if i < dlc then byteAt data i else 0) &&& at' (16 + i) 1 != 0)))

/-- The selective wake decoder ends a frame, or finds an error. -/
def State.swDecode (s : State) (c n : Nat) (frame : SwFrame) : State :=
  let s0 := s.put (NMW_CAN_SW_OSC_ON n) 1
  match frame with
  | .frame true _ _ _ _ => s0
  | .frame false ext id dlc data =>
    let s1 := s0.put (NMW_CAN_SW_FEC n) (s0.fld (NMW_CAN_SW_FEC n) - 1)
    match (List.range (min 4 (s.cwRec n 3 1))).find? (s.swMatch n ext id dlc data) with
    | some k => (s1.inc (NMW_CAN_SW_MATCH_CNT_VAL n)).nmWake c 3 n k
    | none => s1.inc (NMW_CAN_SW_IGNORE_CNT_VAL n)
  | .error =>
    let s1 := (s0.incSat (NMW_CAN_SW_FEC n)).inc (NMW_CAN_SW_ERR_CNT_VAL n)
    if s.cwRec n 2 1 < s.fld (NMW_CAN_SW_FEC n) + 1 then s1.nmWake c 4 n 0 else s1

def execSwFrameDecode (n : Nat) (frame : SwFrame) (s : State) : Host.Outcome State Fault Refusal :=
  .next (match s.sleepingCan n with
    | some c => if bitOf (s.cwRec n 1 1) 0 ∧ s.wakePower 2 then s.swDecode c n frame else s
    | none => s)

def execSwBusIdle (n : Nat) (s : State) : Host.Outcome State Fault Refusal :=
  .next (if n < 32 then (s.put (NMW_CAN_SW_OSC_ON n) 0).put (NMW_CAN_SW_DECODING n) 0 else s)

def execLinBusWake (n : Nat) (s : State) : Host.Outcome State Fault Refusal :=
  .next (match s.clusterOf (64 + n) with
    | some c => if n < 16 then s.nmWake c 5 n 0 else s
    | none => s)

def execTc10Wake (port : Nat) (s : State) : Host.Outcome State Fault Refusal :=
  .next (match s.clusterOf port with
    | some c => if 24 ≤ port ∧ port < 32 ∧ s.wakePower 3 then s.nmWake c 6 (port - 24) 0 else s
    | none => s)

/-! ## Firmware's request, Chimes and settling -/

/-- A write of NMW_NCc_REQ.FW. -/
def State.writeNmReq (s : State) (c : Nat) (hold : Bool) : State :=
  let was := s.flag (NMW_NC_REQ_FW c)
  let s1 := s.put (NMW_NC_REQ_FW c) (bitN hold)
  if hold then (if was then s1 else s1.nmRequest c 0x40) else if was then s1.nmRelease c else s1

def execNmFwRequest (r : Requester) (c : Nat) (hold : Bool) (s : State) : Host.Outcome State Fault Refusal :=
  .next (if c < 16 then s.gated r (rNMW_NC_REQ c) (fun s => s.writeNmReq c hold) else s)

/-- The Chime of a cluster (R380, R381). What byte 1 says beside ACTIVE_WAKE the spec leaves open: fresh bits (log 6). -/
def State.chimeMsg (s : State) (c : Nat) : State × CanMsg :=
  match s.fresh with
  | (s1, v) =>
    let own := (s.nmSt c).own && s.nc c == ncREPEAT
    let b1 := bitN (bitOf v 0) + 8 * bitN own + 64 * bitN (bitOf v 1)
    let data := [BitVec.ofNat 8 (s.ncRec c 2 1), BitVec.ofNat 8 b1] ++ (List.range 6).map (fun i => BitVec.ofNat 8 (s.ncRec c (28 + i) 1))
    (s1, ⟨.classic, false, false, false, false, s.ncRec c 12 2 + s.ncRec c 2 1, 0, 0, 0, false, 8, data⟩)

/-- A Chime put into the Chime entry of a channel; one that is still pending is replaced, one on the bus when its attempt ends. -/
def State.chimePut (s : State) (c : Nat) (m : CanMsg) (p : Nat) : State :=
  if p < 32 ∨ 64 ≤ p ∨ s.linkUp p = false then s
  else
    let n := p - 32
    let x := s.can n
    let e : CanTx := ⟨m, 7, s.nowNs, false, some c, none, []⟩
    if x.txbuf.any (fun e => e.chime.isSome && e.onBus) then s.setCan n { x with chimeDue := some e }
    else s.setCan n { x with txbuf := x.txbuf.filter (fun e => e.chime.isNone) ++ [e] }

/-- CHIME_MS ends in a cluster that sends Chimes. -/
def execChimeTimer (c : Nat) (s : State) : Host.Outcome State Fault Refusal :=
  .next (
    if s.ncPassive c = false ∧ (s.nmSt c).settling = false ∧ (s.ncIs c ncREPEAT ∨ (s.ncIs c ncNORMAL ∧ s.ncRequested c)) then
      match s.chimeMsg c with
      | (s1, m) => (s.ncPorts c).foldl (fun s p => s.chimePut c m p) s1
    else s)

/-- SETTLE_US ends. -/
def execSettleExpire (c : Nat) (s : State) : Host.Outcome State Fault Refusal :=
  .next (if c < 16 ∧ (s.nmSt c).settling then s.settled c else s)

/-- 100 ms after the wake pulse a commander restarts its schedule (R374). -/
def execLinScheduleRestart (n : Nat) (s : State) : Host.Outcome State Fault Refusal :=
  .next (
    let x := s.lin n
    if n < 16 ∧ x.restart then
      let y := { x with restart := false, pulse := false }
      if s.flag (LIN_CFG_ROLE n) ∧ s.flag (LIN_CTL_SCHED_RUN n) then
        (s.put (LIN_STATUS_RUNNING n) 0).setLin n { y with run := some true, sleepCmd := false, sel := some (s.fld (LIN_CTL_SCHED_SEL n)) }
      else s.setLin n y
    else s)

/-! ## Captures and records -/

/-- AO counter and CT48 captured in the same clock (R392). -/
def State.writeAoSnap (s : State) : State :=
  (s.put64 NMW_AO_SNAP_AO_LO_AO NMW_AO_SNAP_AO_HI_AO s.ao).put64 NMW_AO_SNAP_CT_LO_CT48 NMW_AO_SNAP_CT_HI_CT48 s.nowCt

def execNmwAoSnap (r : Requester) (s : State) : Host.Outcome State Fault Refusal :=
  .next (s.gated r rNMW_AO_SNAP State.writeAoSnap)

/-- The head wake record leaves the FIFO. -/
def State.popWrec (s : State) : State := { s with wrec := s.wrec.drop 1 }

def execWrecPop (r : Requester) (s : State) : Host.Outcome State Fault Refusal := .next (s.gated r rNMW_WREC_POP State.popWrec)

end Sys2Proof.Machine
end

