-- ==== Sys2Proof/Machine/Placement.lean ====
section
/-! DEFINITION. Drum Major's placement: the epoch, moves by the drain marker, pins, and host queue placement (R203–R223). -/

namespace Sys2Proof.Machine

/-! ## Moves -/

/-- A bucket moves to the other plane in a context (R213 steps 1 to 3). -/
def State.startMove (s : State) (b c : Nat) : State :=
  let k := s.bkt b
  let x := s.ctx c
  let s1 := s.setCtx c
    { valid := true, gen := (x.gen + 1) % 16, bucket := b, frm := k.plane, nextSeq := k.seq, switchAt := s.clk,
      hold := s.fld (FRE_RSQ_HOLD_HOLD_US .A), waiting := true, ports := [], held := [] }
  let s2 := s1.setBkt b { k with plane := twinOf k.plane, movedAt := some s.clk }
  ({ s2 with dm := { s2.dm with movedNow := true } } : State).inc PLC_MOVE_CNT_VAL

/-- A free migration context. -/
def State.freeCtx (s : State) : Option Nat := (List.range 256).find? (fun c => !(s.ctx c).valid)

/-- A pinned bucket that lies on the wrong plane while its own takes frames (R212). -/
def State.pinAway (s : State) (b : Nat) : Bool :=
  s.flag (PLC_BUCKET_PIN b) && (s.bkt b).plane != planeOf (s.fld (PLC_BUCKET_PIN_PLANE b)) &&
    s.accepts (planeOf (s.fld (PLC_BUCKET_PIN_PLANE b))) && (s.bucketCtx b).isNone

/-- The pin move of a bucket, when a context is free. -/
def State.pinMove (s : State) (b : Nat) : State :=
  match s.pinAway b, s.freeCtx with
  | true, some c => s.startMove b c
  | _, _ => s

def execBucketPinWrite (r : Requester) (b : Nat) (pin : Bool) (pl : Plane) (s : State) :
    Host.Outcome State Fault Refusal :=
  .next (s.gated r (rPLC_BUCKET b) (fun s =>
    (s.put (PLC_BUCKET_PIN b) (bitN pin)).put (PLC_BUCKET_PIN_PLANE b) (planeNum pl)))

def execPinMoveStart (b : Nat) (s : State) : Host.Outcome State Fault Refusal := .next (s.pinMove b)

/-! ## The marker (R213 steps 4 and 5) -/

/-- A frame of the bucket written before the switch still waits for admission in the old plane. -/
def State.moveParked (s : State) (x : MigCtx) : Bool :=
  (s.plane x.frm).parked.any (fun p => p.frame.bucket == x.bucket && seqBefore p.frame.seq x.nextSeq)

/-- A marker entry at the tail of a non-empty queue, counted for its port. -/
def State.placeMarker (s : State) (c q : Nat) : State :=
  let x := s.ctx c
  if (s.queue x.frm q).any QEntry.solid then
    let s1 := (s.setQueue x.frm q (s.queue x.frm q ++ [.marker c x.gen])).inc (FRE_RSQ_MARKER_CNT_VAL x.frm)
    s1.setCtx c { x with ports := tabPut x.ports (q / 8) (tabGet 0 x.ports (q / 8) + 1) }
  else s

/-- The marker admitted: entries placed, and every port without one released. -/
def State.admitMarker (s : State) (c : Nat) : State :=
  let s1 := (List.range 2048).foldl (fun s q => s.placeMarker c q) s
  let s2 := s1.setCtx c { s1.ctx c with waiting := false }
  let free := ((s2.ctx c).held.map (fun e => e.1)).filter (fun p => (tabFind (s2.ctx c).ports p).isNone)
  (free.foldl (fun s p => s.releasePort c p) s2).ctxSettle c

def execMarkerAdmit (ctx : Nat) (s : State) : Host.Outcome State Fault Refusal :=
  let x := s.ctx ctx
  .next (if x.valid ∧ x.waiting ∧ s.moveParked x = false then s.admitMarker ctx else s)

/-! ## Expiry (R219, R220) -/

/-- A context expires: every port released, and a timeout noted when it held frames. -/
def State.expireCtx (s : State) (c : Nat) : State :=
  let x := s.ctx c
  let y := twinOf x.frm
  let s1 := if x.heldCount = 0 then s else (s.inc (FRE_RSQ_TIMEOUT_CNT_VAL y)).setFlag (FRE_RSQ_EVT_TIMEOUT y)
  s1.ctxRelease c

/-- The hold of a context, as it stood at its switch, has passed. -/
def State.ctxExpired (s : State) (c : Nat) : Bool :=
  let x := s.ctx c
  x.valid && decide (x.hold * 1000 ≤ clkSince s.clk x.switchAt)

def execRsqExpire (ctx : Nat) (s : State) : Host.Outcome State Fault Refusal :=
  .next (if s.ctxExpired ctx then s.expireCtx ctx else s)

/-! ## The epoch (R207–R211) -/

/-- Buckets that any record names: their own one, or PLC_BUCKETb. -/
def State.knownBuckets (s : State) : List Nat :=
  let a := s.dm.buckets.map (fun e => e.1)
  let b := (s.regs.filter (fun e => decide (rPLC_BUCKET 0 ≤ e.1 ∧ e.1 ≤ rPLC_BUCKET 65535))).map
    (fun e => (e.1 - rPLC_BUCKET 0) / 4)
  (List.range 65536).filter (fun n => a.contains n || b.contains n)

/-- LOAD of the epoch that ends, and CRIT cleared when no frame of the epoch was critical (R182, R203). -/
def State.closeBucket (s : State) (b : Nat) : State :=
  let k := s.bkt b
  let s1 := (s.put (PLC_BUCKET_LOAD b) (min k.acc (2 ^ 24 - 1))).setBkt b { k with acc := 0, critSeen := false }
  if k.critSeen then s1 else s1.put (PLC_BUCKET_CRIT b) 0

/-- LOAD summed over the buckets of a plane. -/
def State.planeLoad (s : State) (l : List Nat) (pl : Plane) : Nat :=
  ((l.filter (fun b => decide ((s.bkt b).plane = pl))).map (fun b => s.fld (PLC_BUCKET_LOAD b))).sum

/-- The imbalance I (R207). -/
def imbalance (a b : Nat) : Nat := if a + b = 0 then 0 else 1024 * (max a b - min a b) / (a + b)

/-- Drum Major may act at this epoch end (R207). -/
def State.balanceAllowed (s : State) : Bool :=
  s.flag PLC_CTL_BAL_EN && s.isCond .A .inService && s.isCond .B .inService && s.fld CHT_STATUS_SWAP_STEP == 0 &&
    (match s.redBusy with
     | some (.isolate _) => false
     | _ => true)

/-- The plane that alone lost an ingress allocation in the epoch (R208). -/
def State.pressed (s : State) : Option Plane :=
  if s.dm.pressA ∧ s.dm.pressB = false then some .A
  else if s.dm.pressB ∧ s.dm.pressA = false then some .B else none

/-- The heavy plane when buckets are to move at this epoch end (R208). -/
def State.heavyPlane (s : State) (la lb i : Nat) : Option Plane :=
  let larger : Plane := if lb ≤ la then .A else .B
  match s.pressed with
  | some p => some p
  | none =>
    if 1000 * s.fld PLC_MIN_LOAD_KBYTES ≤ la + lb ∧ s.fld PLC_BAL_BAL_HI < i then some larger
    else if s.dm.moving = true ∧ s.fld PLC_BAL_BAL_LO < i ∧ larger = s.dm.heavy then some s.dm.heavy else none

/-- The bucket may be moved by rebalancing (R210). -/
def State.moveEligible (s : State) (b : Nat) : Bool :=
  !s.flag (PLC_BUCKET_PIN b) && (s.bucketCtx b).isNone &&
    (match (s.bkt b).movedAt with
     | some t => decide (s.fld PLC_DWELL_DWELL_MS * 1000000 ≤ clkSince s.clk t)
     | none => true)

/-- The scan of R209 from the cursor: `fuel` buckets left to scan, `left` moves left, `n` the need. -/
def State.scanBuckets (s : State) (heavy : Plane) : Nat → Nat → Nat → State
  | 0, _, _ => s
  | fuel + 1, left, n =>
    if n = 0 ∨ left = 0 then s
    else
      let b := s.fld PLC_CURSOR_BUCKET
      let next (s : State) : State := s.put PLC_CURSOR_BUCKET ((b + 1) % 65536)
      let ld := s.fld (PLC_BUCKET_LOAD b)
      if (s.bkt b).plane = heavy ∧ 0 < ld ∧ ld ≤ n ∧ s.moveEligible b then
        match s.freeCtx with
        | some c => (next (s.startMove b c)).scanBuckets heavy fuel (left - 1) (n - ld)
        | none => (s.inc PLC_NO_CTX_CNT_VAL).setFlag PLC_EVT_CTX_EXHAUST
      else (next s).scanBuckets heavy fuel left n

/-- The count of epochs in which nothing moved although I stayed high (R211). -/
def State.stuckCount (s : State) (acted : Bool) (i : Nat) : State :=
  let n := if acted ∧ s.fld PLC_BAL_BAL_HI < i ∧ s.dm.movedNow = false then s.dm.stuck + 1 else 0
  let s1 : State := { s with dm := { s.dm with stuck := min n 100 } }
  if 100 ≤ n then s1.setFlag PLC_EVT_BAL_STUCK else s1

/-- Rebalancing at the end of an epoch with the loads and the imbalance. -/
def State.rebalance (s : State) (la lb i : Nat) : State :=
  if s.balanceAllowed = false then ({ s with dm := { s.dm with moving := false } } : State).stuckCount false i
  else
    match s.heavyPlane la lb i with
    | none => ({ s with dm := { s.dm with moving := false } } : State).stuckCount true i
    | some h =>
      let lh := if h = .A then la else lb
      let n0 := (lh - (la + lb - lh)) / 2
      let n := if s.pressed.isSome then max n0 (lh / 16) else n0
      let s1 : State := { s with dm := { s.dm with moving := true, heavy := h } }
      (s1.scanBuckets h 4096 (s.fld PLC_BAL_MAX_MOVES) n).stuckCount true i

/-! ## Host queue placement (R222, R223) -/

/-- Depth of a receive ring of a tenant (R492). -/
def State.rxDepth (s : State) (tn k : Nat) : Nat :=
  let size := 2 ^ s.fld (TNW_RP_CFG_RX_LOG2 tn k)
  (size - 1) - (s.fld (TNW_RP_RX_TAIL_TAIL tn k) + size - s.fld (TNW_RP_RX_HEAD_HEAD tn k) % size) % size

/-- The first ring of a list that no other exceeds, or none falls below, in depth. -/
def pickRing (better : Nat → Nat → Bool) (depth : Nat → Nat) (l : List Nat) : Option Nat :=
  l.find? (fun k => l.all (fun j => !better (depth j) (depth k)))

/-- One host virtual port: an indirection entry goes from the deepest ring to the shallowest. A rewrite of an entry that firmware writes in the
same clock, through the register at `tie`, is dropped (R223). -/
def State.placeRings (tie : Option Nat) (s : State) (h : Nat) : State :=
  match s.hvTenant h with
  | none => s
  | some tn =>
    let mask := s.fld64 (PLC_QPL_MASK_LO_RINGS h) (PLC_QPL_MASK_HI_RINGS h)
    let rings := (List.range 64).filter (fun k => bitOf mask k)
    let d := s.rxDepth tn
    match bitOf (s.fld (PLC_QPL_EN_EN (h / 32))) (h % 32) && s.tenIs tn .active,
        pickRing (fun a b => decide (b < a)) d rings, pickRing (fun a b => decide (a < b)) d rings with
    | true, some deep, some shallow =>
      if s.fld PLC_QPL_CFG_QPL_DELTA ≤ d deep - d shallow ∧ s.fld PLC_QPL_CFG_QPL_MIN ≤ d deep then
        let quiet := s.fld PLC_QPL_CFG_QPL_QUIET_US * 1000
        let at128 (i : Nat) : Nat := bits (s.reg (rPRS_INDIR .A h (i / 4))).toNat (8 * (i % 4)) 6
        match (List.range 128).find? (fun i => at128 i == deep && (tabFind s.dm.indirUse (128 * h + i)).isSome &&
            decide (quiet ≤ clkSince s.clk (tabGet 0 s.dm.indirLast (128 * h + i)))) with
        | some i =>
          if tie = some (rPRS_INDIR .A h (i / 4)) then s.inc PLC_QPL_CONFLICT_CNT_VAL
          else (s.putBoth (fun pl => ⟨rPRS_INDIR pl h (i / 4), 8 * (i % 4), 6⟩) shallow).inc PLC_QPL_MOVE_CNT_VAL
        | none => s
      else s
    | _, _, _ => s

/-- The end of a placement epoch; `tie` is the address of a PRS_INDIR register that firmware writes in the same clock. -/
def State.endEpoch (s : State) (tie : Option Nat) : State :=
  let l := s.knownBuckets
  let s1 := l.foldl State.closeBucket s
  let la := s1.planeLoad l .A
  let lb := s1.planeLoad l .B
  let i := imbalance la lb
  let s2 := ((s1.put PLC_LOAD_A_BYTES (min la (2 ^ 32 - 1))).put PLC_LOAD_B_BYTES (min lb (2 ^ 32 - 1))).put
    PLC_STATUS_IMBAL i
  let s3 := l.foldl State.pinMove s2
  let s4 := s3.rebalance la lb i
  let s5 := if s4.flag PLC_CTL_QPL_EN then (List.range 168).foldl (State.placeRings tie) s4 else s4
  let s6 : State := { s5 with
    dm := { s5.dm with pressA := false, pressB := false, movedNow := false, indirUse := [] } }
  (s6.put PLC_STATUS_MOVING (bitN s6.dm.moving)).put PLC_STATUS_HEAVY (planeNum s6.dm.heavy)

/-- An address of PRS_INDIR through which a write takes effect. -/
def isIndir (a : Nat) : Bool := decide (rPRS_INDIR .A 0 0 ≤ a ∧ a < rPRS_INDIR .A 168 0) && a % 4 == 0

/-- An epoch ends, and in the same clock firmware may write a PRS_INDIR register. -/
def execEpochEnd (s : State) (write : Option (Nat × Nat) := none) : Host.Outcome State Fault Refusal :=
  .next (match write with
    | some (a, v) =>
      if isIndir a then (s.endEpoch (some a)).gated .mc a (fun s => s.storeReg a v) else s.endEpoch none
    | none => s.endEpoch none)

end Sys2Proof.Machine
end

