-- ==== Sys2Proof/Machine/Power.lean ====
section
/-! DEFINITION. State requests, device sleep and its exits, the firmware-controlled domains, and the loss of clocks
(R20–R25, R39, R390, R505–R514). -/

namespace Sys2Proof.Machine

/-! ## State requests (R21–R24, R39) -/

/-- Codes of GLB_STATE_CTL.RESULT. -/
def rqACCEPTED : Nat := 1
def rqDONE : Nat := 2
def rqBUSY : Nat := 3
def rqILLEGAL : Nat := 4
def rqNOTREADY : Nat := 5

def State.rqResult (s : State) (n : Nat) : State := s.put GLB_STATE_CTL_RESULT n

/-- A state request. `tie` says that the management cluster makes one in the same clock; `hold` is a further ground for BUSY, `from'` the
states that the request may leave, `ready` its condition. -/
def State.request (s : State) (r : Requester) (tie : Bool) (hold : State → Bool) (from' : List DevState) (ready : State → Bool)
    (act : State → State) : State :=
  s.gated r rGLB_STATE_CTL (fun s =>
    if (tie = true ∧ isMc r = false) ∨ s.swapBusy = true ∨ s.flag GLB_DEVSTATE_TRANS_BUSY = true ∨ hold s = true then s.rqResult rqBUSY
    else if from'.any s.inState = false then s.rqResult rqILLEGAL
    else if ready s = false then s.rqResult rqNOTREADY
    else act s)

/-- RUN: a plane in service, and no safe state. -/
def State.reqRun (s : State) (r : Requester) (tie : Bool) : State :=
  s.request r tie (fun _ => false) [.startUp, .test, .recovery] (fun s => !s.noPlane && !s.flag GLB_DEVSTATE_SAFE)
    (fun s => (s.enter .run).rqResult rqDONE)

def execReqRun (r : Requester) (tie : Bool) (s : State) : Host.Outcome State Fault Refusal := .next (s.reqRun r tie)

def State.reqTest (s : State) (r : Requester) (tie : Bool) : State :=
  s.request r tie (fun _ => false) [.run] (fun _ => true) (fun s => (s.enter .test).rqResult rqDONE)

def execReqTest (r : Requester) (tie : Bool) (s : State) : Host.Outcome State Fault Refusal := .next (s.reqTest r tie)

def State.reqRecovery (s : State) (r : Requester) (tie : Bool) : State :=
  s.request r tie (fun _ => false) [.run, .test] (fun _ => true) (fun s => (s.enter .recovery).rqResult rqDONE)

def execReqRecovery (r : Requester) (tie : Bool) (s : State) : Host.Outcome State Fault Refusal := .next (s.reqRecovery r tie)

/-- Sleep may be entered (R507). -/
def State.maySleep (s : State) (d : Bool) : Bool :=
  (List.range 64).all (fun t => s.tenIs t .absent) &&
    (d || s.flag PWR_MAP_LPDDR_SR || !(List.range (tpCount s.active)).any (tpPageable s.active))

/-- The wakes that clusters in SHUTDOWN hold latched, oldest first: they survive device sleep entry (R25, R378). -/
def State.latchedWakes (s : State) : List WakeEv :=
  ((List.range 16).filterMap (fun c => if s.nc c = ncSHUTDOWN then (s.nmSt c).latched else none)).foldl
    (fun l w => l.filter (fun x => decide (x.time ≤ w.time)) ++ [w] ++ l.filter (fun x => decide (w.time < x.time))) []

/-- Step 1 of sleep entry (R508): ingress stops, the clusters run their Knells, Carillon's jobs end and an ARMED shadow returns
to VERIFIED. -/
def State.startSleep (s : State) (d : Bool) : State :=
  let s1 := (s.rqResult rqACCEPTED).put GLB_DEVSTATE_TRANS_BUSY 1
  let s2 : State := { s1 with pwr := { s1.pwr with sleep := 2, sleepD := d, wakes := s1.latchedWakes, joinB := false } }
  let s3 := (List.range 16).foldl (fun s c =>
    if s.ncEnabled c = true ∧ s.nc c ≠ ncBUS_SLEEP ∧ s.nc c ≠ ncSHUTDOWN then s.knellNow c true else s) s2
  let s4 := s3.carSleep
  if s4.shadowIs shARMED then s4.disarmShadow else s4

def State.reqSleep (s : State) (r : Requester) (tie d : Bool) : State :=
  s.request r tie (fun s => s.shadowIs shAPPLYING) [.run] (fun s => s.maySleep d) (fun s => s.startSleep d)

def execReqSleepR (r : Requester) (tie : Bool) (s : State) : Host.Outcome State Fault Refusal := .next (s.reqSleep r tie false)

def execReqSleepD (r : Requester) (tie : Bool) (s : State) : Host.Outcome State Fault Refusal := .next (s.reqSleep r tie true)

/-! ## A wake (R25, R378, R379, R391, R510–R512) -/

/-- A wake record of a cluster or of the device; AFTER_KNELL when the cluster had latched the event. -/
def State.recordWake (s : State) (ev : WakeEv) : State :=
  let x := s.nmSt ev.cluster
  s.wakeRecord ⟨ev.src, ev.idx, ev.cluster, s.wakeFlags (decide (ev.cluster < 16) && x.latched == some ev) false ev.pat, ev.time,
    if ev.cluster < 16 then x.knell else 0⟩

/-- The first wake event that waits starts the exit. From SLEEP-D it is a cold boot. -/
def State.leaveSleep (s : State) : State :=
  match s.pwr.wakes with
  | [] => s
  | ev :: _ =>
    let s1 := (s.recordWake ev).put PWR_WAKE_STATUS_SOURCE ev.src
    if s.pwr.sleepD then s1.resetBy GLB_RESET_CAUSE_SLEEPD_WAKE
    else
      let s2 := s1.domUp 1
      if s2.pwr.exit = 0 then { s2 with pwr := { s2.pwr with exit := 1 } } else s2

def execSleepRWake (s : State) : Host.Outcome State Fault Refusal :=
  .next (if s.pwr.sleep = 6 ∧ s.pwr.sleepD = false ∧ s.pwr.exit = 0 then s.leaveSleep else s)

def execSleepDWake (s : State) : Host.Outcome State Fault Refusal :=
  .next (if s.pwr.sleep = 6 ∧ s.pwr.sleepD = true then s.leaveSleep else s)

/-- The AO counter reaches the wake timer (R512). -/
def execWakeTimer (s : State) : Host.Outcome State Fault Refusal :=
  .next (
    if s.flag PWR_WAKE_CFG_TIMER_EN = true ∧ s.fld64 PWR_WAKE_TIMER_LO_AO PWR_WAKE_TIMER_HI_AO ≤ s.ao then s.deviceWake 0x10 else s)

/-! ## Sleep entry (R508) -/

/-- Domains that stay powered in a sleep state: none is powered as a whole beside D0 (R505). -/
def State.powerOff (s : State) : State :=
  let s1 := ((s.setCond .A .off).setCond .B .off)
  let s2 := (((List.range 11).map (· + 1)).foldl (fun s d => if s.domOn d then s.domDown d else s) s1).clpOff
  let s3 := (((s2.put CLK_STATUS_REF_OK 0).put CLK_STATUS_PLL_CORE 0).put CLK_STATUS_PLL_MC 0).put CLK_STATUS_PLL_TS 0
  if s3.flag PWR_MAP_KEEP_D2 then s3
  else (List.range 32).foldl (fun s n => (s.put (NMW_CAN_SW_OSC_ON n) 0).put (NMW_CAN_SW_DECODING n) 0) s3

def State.sleepAt (s : State) (n : Nat) : State := { s with pwr := { s.pwr with sleep := n } }

/-- The step in progress ends. -/
def State.sleepNext (s : State) : State :=
  match s.pwr.sleep with
  | 2 => (((List.range 16).filter (fun c => s.nc c == ncSHUTDOWN)).foldl State.knellDone s).sleepAt 3
  | 3 =>
    let a := s.dumpPlane .A 0x0C
    let b := a.1.dumpPlane .B 0x0C
    (b.1.addCnt PWR_SLEEP_FLUSH_CNT_VAL (a.2 + b.2)).sleepAt 4
  | 4 => (s.powerOff).sleepAt 5
  | 5 =>
    let s1 := ((s.put GLB_DEVSTATE_LAST_SLEEP (if s.pwr.sleepD then 2 else 1)).inc PWR_SLEEP_CNT_VAL).sleepAt 6
    -- SLEEP-D loses the shadow (R51, R71).
    (if s.pwr.sleepD then ({ s1 with shadow := [] } : State).setShadow shEMPTY else s1).leaveSleep
  | _ => s

def execSleepEntryAdvance (s : State) : Host.Outcome State Fault Refusal := .next s.sleepNext

/-! ## The exit from SLEEP-R (R509–R511) -/

/-- Registers that show content retained in SLEEP-R, and the straps (R509). -/
def retainedReg (a : Nat) : Bool :=
  a == rGLB_STRAP || a == rCHT_CTL || a == rCHT_STATUS || a == rCHT_DIFF || decide (rCHT_ACT_ID_LO ≤ a ∧ a ≤ rCHT_SHD_COUNTER) ||
    a == rMEM_STATUS || a == rLDG_FLAGS || decide (rLDG_CH_CHG_MWH_LO 0 ≤ a ∧ a < rLDG_CH_CHG_MWH_LO 64) ||
    decide (rFRE_GEN .A 0 ≤ a ∧ a < rFRE_GEN .A 2048) || decide (rFRE_GEN .B 0 ≤ a ∧ a < rFRE_GEN .B 2048)

/-- Plane A with its retained tables: pages, frames and what waited in its logic are gone. -/
def State.planeRetained (s : State) : PlaneSt :=
  let q := s.planeA
  { planeOfChart s.active with
    regions := q.regions.map (fun r => { r with frames := [], hand := 0 })
    exact := q.exact.filter (fun c => !q.regions.any (fun r => r.pageable && decide (4 * r.base ≤ c.1 ∧ c.1 < 4 * (r.base + r.onchip))))
    lpmSeed := q.lpmSeed
    lpmOldSeed := q.lpmOldSeed
    lpmState := q.lpmState
    lpmWalk := q.lpmWalk
    lpm := q.lpm
    trie := q.trie
    trieSt := q.trieSt
    bloom := q.bloom
    bloomNew := q.bloomNew
    badSlots := q.badSlots
    badStatus := q.badStatus
    badUnits := q.badUnits }

/-- The buckets with their retained sequence numbers, all on Plane A. -/
def State.bucketsRetained (s : State) : Tab Bucket :=
  s.dm.buckets.foldl (fun t e => tabSet (⟨.A, 0, 0, none, false⟩ : Bucket) t e.1 ⟨.A, e.2.seq, 0, none, false⟩) []

/-- What the retained arrays hold, over a device otherwise reset. -/
def State.retained (s : State) : State :=
  let r := s.survive (fun a => keptReg a || retainedReg a)
  let r1 : State := { r with
    planeA := s.planeRetained
    dm := { DrumMajor.reset with buckets := s.bucketsRetained }
    active := s.active
    shadow := s.shadow
    epoch := s.epoch
    lpddr := if s.flag PWR_MAP_LPDDR_SR then s.lpddr else []
    crit := s.crit
    car := { Car.reset with sched := s.car.sched, lists := s.car.lists, results := s.car.results }
    nm := s.nm
    blf := { r.blf with slots := s.blf.slots, below := s.blf.below }
    ldgSeq := s.ldgSeq
    ldgAt := s.ldgAt
    pwr := { PwrSt.reset with inReset := false, wakes := s.pwr.wakes, exit := 4 } }
  -- A verification in progress goes on; the other fields of the two registers show no retained content.
  let r2 := (((r1.put CHT_CTL_RESULT 0).put CHT_STATUS_WIN_REJECT 0).put CHT_STATUS_SWAP_STEP 0).put MEM_STATUS_READY 0
  r2.put GLB_DEVSTATE_SPLIT (r2.fld GLB_STRAP_SPLIT_ACTIVE)

/-- The values that the retained active chart gives the registers, Plane A's among them (R509). -/
def State.reloadChart (s : State) : State :=
  let s1 := ((((((s.loadPOWERMAP.loadPORTMAP []).loadCapArea).loadPLANE).loadPARSEGRAPH).loadKEYTEMPL).loadZONES []).loadPools .A s.active
  let s2 := (List.range 32).foldl (fun s p => s.put (CAR_PORT_STAT_RATE p) (stRate s.active p)) s1.loadEGRESS
  let s3 := s2.car.sched.streams.foldl (fun s e => s.snareLoad e.2) (s2.putCar s2.car)
  let s4 := ((s3.loadFRER s.active).loadLEGACY []).loadNmRegs
  (List.range 16).foldl (fun s k => s.put (NMW_NC_REQ_LEDGER k) (bitN ((List.range 64).any (fun c =>
    s.ldgOn c && ldgChan s.active c 3 1 == k && s.flag (LDG_CH_STATE_HOLDING c))))) s4

/-- The PLLs and the domains that the exit has powered by the end of step 2. -/
def State.exitPower (s : State) : State :=
  let s1 := (((s.put CLK_STATUS_REF_OK 1).put CLK_STATUS_PLL_CORE 1).put CLK_STATUS_PLL_MC 1).put CLK_STATUS_PLL_TS 1
  ([1, 2, 6, 8, 9].filter (fun d => d != 2 || pwrMode s.active 2 != 0)).foldl State.domUp s1

/-- Step 3 ends well: registers, schedule and counters are back, and the device is in START-UP. -/
def State.resumed (s : State) : State :=
  let s1 := s.retained.exitPower.reloadChart
  ((s1.setCond .A .isolated).enter .startUp).setFlag PWR_EVT_WOKE

/-- Step 3 fails: a cold boot (R511). -/
def State.retainErr (s : State) : State :=
  ((s.resetBy GLB_RESET_CAUSE_SLEEPD_WAKE).put PWR_WAKE_STATUS_RETAIN_ERR 1).setFlag PWR_EVT_RETAIN_ERR

/-- The clusters that woke enter REPEAT, each for its first event; the first event of all has its record already. -/
def State.wakeClusters (s : State) : State :=
  let go := fun (acc : State × List Nat) (x : WakeEv × Nat) =>
    if 16 ≤ x.1.cluster ∨ acc.2.contains x.1.cluster then acc
    else
      let s1 := if x.2 = 0 then acc.1 else acc.1.recordWake x.1
      ((s1.setFlag (NMW_NC_EVT_WAKE x.1.cluster)).enterRepeat x.1.cluster x.1.src x.1.idx, x.1.cluster :: acc.2)
  let s1 := (s.pwr.wakes.zipIdx.foldl go (s, [])).1
  { s1 with pwr := { s1.pwr with wakes := [] } }

def State.exitAt (s : State) (n : Nat) : State := { s with pwr := { s.pwr with exit := n } }

/-- Domains of a list that the chart has on. -/
def State.upIf (s : State) (l : List Nat) : State := (l.filter (fun d => pwrMode s.active d != 0)).foldl State.domUp s

/-- Step 6: the cores' self-test and the firmware, then the domains of the hosts and the LPDDR. -/
def State.exitFirmware (s : State) (ok : Bool) (cores : Nat) : State :=
  let s1 := (s.put PWR_BOOT_STATUS_FENCED (7 - cores % 8)).bootCores
  let s2 := s1.bootStep 0
  if s2.pwr.halted then s2.exitAt 0
  else if ok = false then (s2.bootFail 5).exitAt 0
  else (s2.upIf [10, 11]).exitAt 7

/-- Step 7: Plane B joins as FOLLOW. -/
def State.exitPlaneB (s : State) : State :=
  if pwrMode s.active 7 = 0 then s.exitAt 0
  else
    let s1 := ((s.domUp 7).setCond .B .isolated).rebuilt .B
    (if s1.isCond .B .resync then s1.resynced .B else s1).exitAt 0

/-- The step in progress ends; `ok` says that the retained sections, or the firmware, pass their check. -/
def State.exitNext (s : State) (ok : Bool) (cores : Nat) : State :=
  match s.pwr.exit with
  | 1 => (s.put CLK_STATUS_REF_OK 1).exitAt 2
  | 2 => s.exitPower.exitAt 3
  | 3 => if ok then s.resumed else s.retainErr
  | 4 => ((s.enterService .A).wakeClusters.channelsUp).exitAt 5
  | 5 => (s.upIf [3, 4, 5]).exitAt 6
  | 6 => s.exitFirmware ok cores
  | 7 => s.exitPlaneB
  | _ => s

def execWakeExitAdvance (ok : Bool) (cores : Nat) (s : State) : Host.Outcome State Fault Refusal := .next (s.exitNext ok cores)

/-! ## Firmware-controlled domains (R505, R506) -/

/-- Powering a domain down is refused. -/
def State.domPinned (s : State) (d : Nat) : Bool :=
  if d = 10 then (List.range 64).any (fun t => s.tenEnabled t && !s.tenInband t && !s.tenIs t .absent)
  else if d = 11 then (List.range (tpCount s.active)).any (tpPageable s.active) || capLpddr s.active
  else if d = 2 ∨ d = 3 then (domPorts d).any (fun p => match s.clusterOf p with
    | some c => s.nc c != ncBUS_SLEEP
    | none => false)
  else false

/-- A write of PWR_DOM_CTL. -/
def State.writeDom (s : State) (off : Nat) : State :=
  let mine := (List.range 12).filter (fun d => pwrMode s.active d == 2)
  let down := mine.filter (fun d => bitOf off d && s.domOn d)
  let up := mine.filter (fun d => !bitOf off d && !s.domOn d)
  if s.swapBusy ∨ s.shadowIs shAPPLYING then s.put PWR_DOM_CTL_RESULT 3
  else if down.any s.domPinned then s.put PWR_DOM_CTL_RESULT 6
  else
    let s1 := up.foldl State.domUp (down.foldl State.domDown (s.put PWR_DOM_CTL_OFF off))
    ((if 2 ∈ up then s1.channelsUp else s1).put PWR_DOM_CTL_RESULT 2).setFlag PWR_EVT_DOM_DONE

def execPwrDomWrite (r : Requester) (off : Nat) (s : State) : Host.Outcome State Fault Refusal :=
  .next (s.gated r rPWR_DOM_CTL (fun s => s.writeDom off))

end Sys2Proof.Machine
end

