-- ==== Sys2Proof/Machine/Tenants.lean ====
section
/-! DEFINITION. Hosts and tenants: attachment, DOZE, liveness and reclaims, in-band frames, vectors, and transmit rings
(R482–R503). -/

namespace Sys2Proof.Machine

/-! ## Tenant windows (R483) -/

/-- The requester is the function that the tenant's record names: a virtual function, or the PF of a link. -/
def State.tenOwner (s : State) (r : Requester) (tn : Nat) : Bool :=
  s.tenEnabled tn && !s.tenInband tn && (match r with
    | .tenant t => t == tn
    | .hi0 => s.tenRec tn 2 1 == 0
    | .hi1 => s.tenRec tn 2 1 == 0x80
    | .mc => false
    | .core _ => false)

/-- The liveness deadline restarts (R487). -/
def State.tenTouch (s : State) (tn : Nat) : State := s.setTen tn { s.ten tn with live := s.clk }

/-- A write by the tenant's function to its window; writes from elsewhere are ignored. -/
def State.winWrite (s : State) (r : Requester) (tn : Nat) (act : State → State) : State :=
  if s.tenOwner r tn then act (s.tenTouch tn) else s

/-! ## Vectors (R500, R501) -/

/-- The message of a vector leaves, or its PBA bit is set while it is masked. -/
def State.vecSend (s : State) (tn v : Nat) : State :=
  let x := s.ten tn
  let y := { x with
    events := tabDel x.events v
    cplEv := x.cplEv.filter (fun k => decide (k ≠ v))
    pba := x.pba.filter (fun k => decide (k ≠ v)) }
  if v ∈ x.unmasked then
    { s.setTen tn { y with modAt := tabPut x.modAt v s.clk } with hostMsgs := .msix tn v :: s.hostMsgs }
  else s.setTen tn { y with pba := y.pba ++ [v] }

/-- A vector has something to send: events, or a PBA bit that its mask no longer holds. -/
def Tenant.vecPending (x : Tenant) (v : Nat) : Bool :=
  decide (0 < tabGet 0 x.events v) || (x.pba.contains v && x.unmasked.contains v)

/-- Moderation lets a vector with pending events send. -/
def State.vecDue (s : State) (tn v : Nat) : Bool :=
  let x := s.ten tn
  let us := s.fld (TNW_VEC_MOD_US tn v)
  let past (t : Option Nat) : Bool := match t with
    | some c => decide (us * 1000 ≤ clkSince s.clk c)
    | none => true
  decide (us = 0) || (past x.modBase && past (tabFind x.modAt v)) ||
    decide (s.fld (TNW_VEC_MOD_CNT tn v) ≤ tabGet 0 x.events v)

def execVectorSend (tn v : Nat) (s : State) : Host.Outcome State Fault Refusal :=
  .next (if s.tenIs tn .active ∧ v < s.fld (TNW_REQ0_VEC tn) ∧ 0 < tabGet 0 (s.ten tn).events v ∧ s.vecDue tn v then
    s.vecSend tn v else s)

/-- A vector is unmasked; its PBA bit sends the message, in DOZE at RESUME. -/
def execMsixUnmask (tn v : Nat) (s : State) : Host.Outcome State Fault Refusal :=
  .next (
    let x := s.ten tn
    let s1 := s.setTen tn { x with unmasked := if v ∈ x.unmasked then x.unmasked else x.unmasked ++ [v] }
    if v ∈ x.pba ∧ s.tenIs tn .active ∧ v < s.fld (TNW_REQ0_VEC tn) then s1.vecSend tn v else s1)

/-! ## Tenant states (R485, R486, R501) -/

/-- TNW_CTL.RESULT, and WOC with its copy in HST_TNn_STATE. -/
def State.tenResult (s : State) (tn code : Nat) : State := s.put (TNW_CTL_RESULT tn) code
def State.putWoc (s : State) (tn : Nat) (woc : Bool) : State :=
  (s.put (TNW_CTL_WOC tn) (bitN woc)).put (HST_TN_STATE_WOC tn) (bitN woc)

/-- ATTACH. -/
def State.tenAttach (s : State) (tn : Nat) : State :=
  if s.tenIs tn .absent ∧ s.tenEnabled tn then (s.tenPut tn .attaching).tenResult tn 1 else s.tenResult tn 4

/-- DETACH. -/
def State.tenDetach (s : State) (tn : Nat) : State :=
  if s.tenLive tn then (s.tenResult tn 1).detach tn 0 else s.tenResult tn 4

/-- DOZE: pending completions signal a wake at once. -/
def State.tenDoze (s : State) (tn : Nat) : State :=
  if s.tenIs tn .active then
    let s1 := ((s.tenPut tn .doze).setTen tn { s.ten tn with woken := false }).tenResult tn 2
    if (s.ten tn).cplEv = [] then s1 else s1.dozeWake tn
  else s.tenResult tn 4

/-- RESUME: every pending vector sends, held completions of an in-band tenant go out, and moderation starts afresh. -/
def State.tenResume (s : State) (tn : Nat) : State :=
  if s.tenIs tn .doze then
    let x := s.ten tn
    let s1 := ((s.tenPut tn .active).setTen tn { x with modBase := some s.clk }).tenResult tn 2
    let vs := ((x.events.map (·.1)) ++ x.pba.filter (fun v => !(x.events.map (·.1)).contains v)).filter
      (fun v => x.vecPending v && decide (v < s.fld (TNW_REQ0_VEC tn)))
    (vs.foldl (fun s v => s.vecSend tn v) s1).inbandFlush tn 64
  else s.tenResult tn 4

/-- A CMD code of TNW_CTL; other codes but 0 are not valid in any state. -/
def State.tenCtl (s : State) (tn cmd : Nat) : State :=
  match cmd with
  | 0 => s
  | 1 => s.tenAttach tn
  | 2 => s.tenDetach tn
  | 3 => s.tenDoze tn
  | 4 => s.tenResume tn
  | _ => s.tenResult tn 4

/-- A write of TNW_CTL. -/
def State.writeTnwCtl (s : State) (r : Requester) (tn cmd : Nat) (woc : Bool) : State :=
  s.winWrite r tn (fun s => (s.putWoc tn woc).tenCtl tn cmd)

def execTnwAttach (r : Requester) (tn : Nat) (woc : Bool) (s : State) : Host.Outcome State Fault Refusal :=
  .next (s.writeTnwCtl r tn 1 woc)

def execTnwDetach (r : Requester) (tn : Nat) (woc : Bool) (s : State) : Host.Outcome State Fault Refusal :=
  .next (s.writeTnwCtl r tn 2 woc)

def execTnwDoze (r : Requester) (tn : Nat) (woc : Bool) (s : State) : Host.Outcome State Fault Refusal :=
  .next (s.writeTnwCtl r tn 3 woc)

def execTnwResume (r : Requester) (tn : Nat) (woc : Bool) (s : State) : Host.Outcome State Fault Refusal :=
  .next (s.writeTnwCtl r tn 4 woc)

def execTnwLiveWrite (r : Requester) (tn : Nat) (s : State) : Host.Outcome State Fault Refusal :=
  .next (s.winWrite r tn (fun s => s))

/-- The REQ fields with the quota of the record that each may ask for. -/
def State.tenQuotas (s : State) (tn : Nat) : List (Fld × Nat) :=
  [(TNW_REQ0_VEC tn, s.tenRec tn 6 2), (TNW_REQ0_RP tn, s.tenRec tn 5 1), (TNW_REQ1_EM tn, s.tenRec tn 8 4),
    (TNW_REQ2_STREAM tn, s.tenRec tn 14 2), (TNW_REQ2_KEY tn, s.tenRec tn 12 2), (TNW_REQ3_CPH tn, s.tenRec tn 17 1),
    (TNW_REQ3_CAP tn, s.tenRec tn 16 1)]

/-- What a field asks for: all ones stands for the quota. -/
def State.tenAsk (s : State) (e : Fld × Nat) : Nat := if s.fld e.1 = 2 ^ e.1.wid - 1 then e.2 else s.fld e.1

/-- Tenant capture rules that no tenant holds. -/
def State.freeCapRules (s : State) : List Nat :=
  (List.range 16).filter (fun r => decide (8 ≤ r) && (List.range 64).all (fun t => !(s.ten t).capRules.contains r))

/-- A refused grant. -/
def State.grantRefused (s : State) (tn code : Nat) : State :=
  (((s.tenPut tn .absent).tenResult tn code).inc HST_ATTACH_FAIL_CNT_VAL).setFlag HST_EVT_ATTACH_FAIL

/-- The resource manager answers an ATTACH (R486). A tenant whose record a chart has taken away meanwhile has no quota (log 94). -/
def execGrantComplete (tn : Nat) (s : State) : Host.Outcome State Fault Refusal :=
  .next (
    let q := s.tenQuotas tn
    let rp := s.tenAsk (TNW_REQ0_RP tn, s.tenRec tn 5 1)
    let cap := s.tenAsk (TNW_REQ3_CAP tn, s.tenRec tn 16 1)
    if s.tenIs tn .attaching = false then s
    else if s.tenEnabled tn = false ∨ q.any (fun e => decide (e.2 < s.tenAsk e)) = true then s.grantRefused tn 5
    else if s.fld HST_POOL_RP_FREE < rp ∨ s.fld HST_POOL_CAP_FREE < cap then s.grantRefused tn 6
    else
      let s1 := q.foldl (fun t e => t.put e.1 (s.tenAsk e)) s
      let s2 := (s1.put HST_POOL_RP_FREE (s.fld HST_POOL_RP_FREE - rp)).put HST_POOL_CAP_FREE (s.fld HST_POOL_CAP_FREE - cap)
      let s3 := s2.setTen tn { s.ten tn with capRules := s.freeCapRules.take cap, live := s.clk }
      (((s3.tenPut tn .active).tenResult tn 2).inc HST_ATTACH_CNT_VAL).setFlag HST_EVT_ATTACHED)

/-! ## Reclaims (R487, R488) -/

/-- The liveness deadline of a tenant in service, in ns of the placement clock after its latest restart. -/
def State.liveFor (s : State) (tn : Nat) : Option Nat :=
  if s.tenIs tn .active then some (s.tenRec tn 24 2 * 1000000)
  else if s.tenIs tn .doze ∧ s.tenRec tn 26 2 ≠ 0 then some (s.tenRec tn 26 2 * 1000000000)
  else none

/-- The deadline; `tie` when a write or an in-band frame of the tenant restarts it in the same clock, which wins (R487). -/
def execLivenessExpire (tn : Nat) (s : State) (tie : Bool := false) : Host.Outcome State Fault Refusal :=
  .next (if tie then s.tenTouch tn else match s.liveFor tn with
    | some t => if t ≤ clkSince s.clk (s.ten tn).live then s.reclaimTenant tn 1 else s
    | none => s)

/-- An FLR reclaims the tenant of its function, and leaves every vector masked. -/
def execFunctionLevelReset (tn : Nat) (s : State) : Host.Outcome State Fault Refusal :=
  .next (if s.tenEnabled tn = true ∧ s.tenInband tn = false then
    let s1 := s.reclaimTenant tn 2
    s1.setTen tn { s1.ten tn with unmasked := [], pba := [] } else s)

/-- The tenants attached by a PCIe link. -/
def State.linkTenants (s : State) (link : Nat) : List Nat :=
  (List.range 64).filter (fun tn => s.tenEnabled tn && !s.tenInband tn && bits (s.tenRec tn 2 1) 7 1 == link)

def execPcieLinkEvent (link : Nat) (ev : PcieEv) (s : State) : Host.Outcome State Fault Refusal :=
  .next (match ev with
    | .hotReset => (s.linkTenants link).foldl (fun s tn => s.reclaimTenant tn 3) s
    | .linkDown => (s.linkTenants link).foldl (fun s tn => s.reclaimTenant tn 3) s
    | .l0 =>
      -- A link in L0 has its PCIe PLL locked (R513).
      ({ s with hiWake := s.hiWake.filter (fun k => decide (k ≠ link)) } : State).put CLK_STATUS_PCIE
        (if s.domOn 10 then setBits (s.fld CLK_STATUS_PCIE) link 1 1 else 0)
    | .lowPower => s)

def execDmaError (tn : Nat) (s : State) : Host.Outcome State Fault Refusal :=
  .next (if s.tenInband tn then s else s.reclaimTenant tn 4)

/-- A write of HST_CTL by the management cluster: SEL, and with RECLAIM a reclaim. -/
def State.writeHstCtl (s : State) (tn sel : Nat) (reclaim : Bool) : State :=
  let s1 := s.put HST_CTL_SEL sel
  if reclaim = false then s1
  else if s.tenLive tn then (s1.detach tn 5).put HST_CTL_RESULT 2 else s1.put HST_CTL_RESULT 4

def execHstReclaim (r : Requester) (tn sel : Nat) (s : State) : Host.Outcome State Fault Refusal :=
  .next (s.gated r rHST_CTL (fun s => s.writeHstCtl tn sel true))

/-! ## Commands reach the device (R494, R498) -/

/-- Operand bytes that an opcode uses. -/
def cmdUses (op i : Nat) : Bool :=
  match op with
  | 1 => decide (i ≤ 9 ∨ 16 ≤ i)
  | 2 => decide (i ≤ 55)
  | 3 => decide (i ≤ 9)
  | 4 => decide (i ≤ 27)
  | 5 => decide (i ≤ 39)
  | 6 => decide (i = 8 ∨ (16 ≤ i ∧ i ≤ 36))
  | 7 => decide (i ≤ 16)
  | 8 => decide (i ≤ 9)
  | 9 => decide (i ≤ 9)
  | _ => false

/-- A known opcode with every reserved byte 0. -/
def cmdFormed (e : List Byte) : Bool :=
  let op := byteAt e 0
  decide (1 ≤ op ∧ op ≤ 10) && decide (byteAt e 1 < 2) && leNat (slice e 4 4) == 0 &&
    (List.range 64).all (fun i => decide (i < 8) || cmdUses op i || byteAt e i == 0)

/-- The commands an in-band tenant may use. -/
def inbandMay (e : List Byte) : Bool :=
  match byteAt e 0 with
  | 4 => leNat (slice e 24 4) == 0
  | op => op == 1 || op == 2 || op == 3 || op == 8 || op == 9 || op == 10

/-- Commands in flight of all tenants. -/
def State.inFlight (s : State) : Nat := ((List.range 64).map (fun t => (s.ten t).cmds.length)).sum

/-- A tenant holds fewer than 64 commands in flight, and the device fewer than 512. -/
def State.cmdRoom (s : State) (tn : Nat) : Bool := decide ((s.ten tn).cmds.length < 64 ∧ s.inFlight < 512)

/-- A command entry is in flight from here on. -/
def State.tenAccept (s : State) (tn : Nat) (e : List Byte) : State :=
  let x := s.ten tn
  let id := leNat (slice e 2 2)
  let st : CmdSt := if cmdFormed e = false ∨ x.cmds.any (fun c => c.id == id) then .ended 0x01 []
    else if s.tenInband tn = true ∧ inbandMay e = false then .ended 0x08 [] else .fetched
  s.setTen tn { x with cmds := x.cmds ++ [⟨e, id, st⟩] }

/-- Entries in a command ring. -/
def State.cmdSize (s : State) (tn : Nat) : Nat := 2 ^ s.fld (TNW_CMDQ_CFG_LOG2 tn)

/-- A command entry of the tenant can be fetched. -/
def State.cmdReady (s : State) (tn : Nat) : Bool :=
  !s.tenInband tn && s.tenLive tn && s.flag (TNW_CMDQ_CFG_EN tn) &&
    s.fld (TNW_CMDQ_HEAD_HEAD tn) % s.cmdSize tn != s.fld (TNW_CMDQ_TAIL_TAIL tn) % s.cmdSize tn && s.cmdRoom tn

/-- The next entry of a tenant's command ring is fetched. -/
def State.cmdFetch (s : State) (tn : Nat) : State :=
  let head := s.fld (TNW_CMDQ_HEAD_HEAD tn)
  let base := ringBase (s.fld64 (TNW_CMDQ_BASE_LO_BASE tn) (TNW_CMDQ_BASE_HI_BASE tn))
  ({ s with cmdTurn := tn } : State).tenAccept tn (s.dmaRead tn (base + 64 * (head % s.cmdSize tn)) 64) |>.put
    (TNW_CMDQ_HEAD_HEAD tn) ((head + 1) % s.cmdSize tn)

/-- The tenant whose turn it is: the first with an entry to fetch, in ascending order after the one served last, and round (R494). -/
def State.cmdNext (s : State) : Option Nat :=
  ((List.range 64).map (fun i => (s.cmdTurn + 1 + i) % 64)).find? s.cmdReady

def execCommandFetch (tn : Nat) (s : State) : Host.Outcome State Fault Refusal :=
  .next (if s.cmdNext = some tn then s.cmdFetch tn else s)

/-! ## In-band frames (R499) -/

/-- The tenant whose attachment a frame comes from: port, VLAN, source address and TENANT are those of its record. -/
def State.inbandTenant (s : State) (port : Nat) (bs : List Byte) : Option Nat :=
  let tn := byteAt bs 20
  if tn < 64 ∧ s.tenEnabled tn ∧ s.tenInband tn ∧ port = s.tenRec tn 2 1 ∧ be16 bs 12 = 0x8100 ∧
      be16 bs 14 % 4096 = s.tenRec tn 28 2 ∧ slice bs 6 6 = s.tenBytes tn 30 6 ∧ byteAt bs 18 = 1 ∧
      leNat (slice bs 22 4) = 0 then some tn
  else none

/-- A control entry: the amounts, while ABSENT, then the code of TNW_CTL.CMD; byte 1 holds WOC as TNW_CTL does (log 40). -/
def State.inbandControl (s : State) (tn : Nat) (e : List Byte) : State :=
  let s1 := if s.tenIs tn .absent then
      (List.range 4).foldl (fun s i => s.storeOne true true (rTNW_REQ0 tn + 4 * i) (leNat (slice e (16 + 4 * i) 4))) s
    else s
  (s1.putWoc tn (bitOf (byteAt e 1) 0)).tenCtl tn (byteAt e 0 % 16)

/-- A frame of MGMT_ETYPE reaches the in-band engine: its entries are taken, or it is dropped and counted. -/
def State.inbandTake (s : State) (port : Nat) (bs : List Byte) (validated : Bool) : State :=
  let lost := s.inc HST_INBAND_DROP_CNT_VAL
  let count := byteAt bs 21
  let entries := (List.range count).map (fun i => slice bs (26 + 64 * i) 64)
  match s.inbandTenant port bs with
  | none => lost
  | some tn =>
    if validated = false ∨ 16 < count ∨ bs.length < 30 + 64 * count then lost
    else match byteAt bs 19 with
      | 1 =>
        if s.tenLive tn = false then lost
        else entries.foldl (fun s e => if s.cmdRoom tn then s.tenAccept tn e else s.inc HST_INBAND_DROP_CNT_VAL) (s.tenTouch tn)
      | 4 => if count = 1 then (s.tenTouch tn).inbandControl tn (slice bs 26 64) else lost
      | _ => lost

/-- The in-band engine takes the oldest management frame that waits in a plane, and its buffer is returned. -/
def State.inbandNext (s : State) (pl : Plane) : Option State :=
  match (s.plane pl).mgmt with
  | [] => none
  | f :: fs => some (((s.setPlane pl { s.plane pl with mgmt := fs }).release f).inbandTake f.inPort f.bytes f.secure)

/-- The in-band engine of a plane takes its oldest management frame, which the command names: of the LEAD plane, or one that the plane
classified while it was LEAD. -/
def execInbandFrame (pl : Plane) (port : Nat) (bytes : List Byte) (s : State) : Host.Outcome State Fault Refusal :=
  .next (
    if (s.plane pl).mgmt.head?.any (fun f => f.inPort == port && f.bytes == bytes) then (s.inbandNext pl).getD s else s)

def execInbandCompletionSend (tn : Nat) (s : State) : Host.Outcome State Fault Refusal :=
  .next (if s.tenInband tn ∧ s.tenIs tn .active then
    match (s.ten tn).inband with
    | [] => s
    | l => (s.setTen tn { s.ten tn with inband := l.drop 16, cplEv := [] }).sendInband tn 2 (l.take 16)
    else s)

def execCompletionWrite (tn : Nat) (s : State) : Host.Outcome State Fault Refusal :=
  .next (if s.tenLive tn ∨ s.tenIs tn .detaching then s.cplWrite tn else s)

/-! ## Transmit rings (R490, R491, R493) -/

/-- Reserved bytes are 0 and LEN lies in its range. -/
def txFormed (d : List Byte) : Bool :=
  let n := leNat (slice d 8 2)
  decide (14 ≤ n ∧ n ≤ 9212) && decide (byteAt d 10 < 16) && leNat (slice d 18 14) == 0

/-- The timestamp request of a descriptor. -/
def descRequest (d : List Byte) (tn : Option Nat) : Option TxTsReq :=
  let m := byteAt d 10 % 4
  if m = 1 ∨ m = 2 then
    some ⟨m == 1, bits (byteAt d 10) 2 2, leNat (slice d 12 2), leNat (slice d 14 2), leNat (slice d 16 2), tn⟩
  else none

/-- The descriptor at HEAD: its frame enters at the port, or is dropped; STAT is written. A send of the management cluster that finds no
buffer is reported failed (R184, R491). -/
def State.txFetch (s : State) (q : Ring) (port : Nat) (dropped : State → State) (sent : State → State) : State :=
  let d := s.ringRead q.who q.at 32
  if txFormed d then
    let bs := ethFrame (s.ringRead q.who (leNat (d.take 8)) (leNat (slice d 8 2)))
    match s.receive port false bs s.stamp 0 (descRequest d q.who) with
    | (s1, ok) => (sent s1).ringWrite q.who (q.at + 11) [if port = 80 ∧ ok = false then 2 else 1]
  else dropped (s.ringWrite q.who (q.at + 11) [2])

/-- Tenant 64 stands for the IF0 transmit ring of the management cluster. -/
def execTxDescriptorFetch (tn ring : Nat) (s : State) : Host.Outcome State Fault Refusal :=
  .next (
    if tn = 64 then
      let q := s.ifRing 0
      if s.flag (HST_IFQ_CFG_EN 0) = false ∨ q.empty then s
      else ((s.txFetch q 80 (fun s => s) (fun s => s)).put (HST_IFQ_HEAD_HEAD 0) q.next).setFlag HST_EVT_IF0_TX
    else
      let q := s.txRing tn ring
      let h := s.tenRec tn 4 1 + s.fld (TNW_RP_CFG_HV tn ring)
      if s.rpLive tn ring = false ∨ q.empty then s
      else
        let s1 := s.txFetch q (88 + h) (fun s => s.inc (HST_HV_TX_DROP_CNT_VAL h))
          (fun s => s.addCnt64 (HST_HV_TX_FRAMES_LO_VAL h) (HST_HV_TX_FRAMES_HI_VAL h) 1)
        (s1.put (TNW_RP_TX_HEAD_HEAD tn ring) q.next).vecEvent tn (s.fld (TNW_RP_VEC_TX_VEC tn ring)) false)

end Sys2Proof.Machine
end

