-- ==== Sys2Proof/Machine/Receive.lean ====
section
/-! DEFINITION. A frame received at an Ethernet port or a T1S segment: the receive check with its counters, MAC control
frames, MACsec, and the way into the core (R10, R11, R77–R80, R450, R499). -/

namespace Sys2Proof.Machine

/-- The FCS of a frame is the CRC-32 of the bytes before it. -/
def fcsOk (bs : List Byte) : Bool := decide (bs.drop (bs.length - 4) = leBytes 4 (crc32 (bs.take (bs.length - 4))))

/-- What a receive check finds; `frag` is a preempted frame that failed reassembly. -/
inductive RxFail where
  | oversize
  | runt
  | fcs
  | frag
  deriving DecidableEq, Repr

/-- The receive check (R77, R79), in its order of precedence. -/
def rxCheck (maxLen : Nat) (bs : List Byte) (rx : RxCond) : Option RxFail :=
  match rx with
  | .cutOff => some .fcs
  | .badReassembly => some .frag
  | _ =>
    if maxLen < bs.length then some .oversize
    else if bs.length < 64 then some .runt
    else if rx ≠ .clean ∨ fcsOk bs = false then some .fcs else none

/-- A failed check: counted at the port, and RX_ERR raised. -/
def State.rxFail (s : State) (p : Nat) (e : RxFail) : State :=
  if isEth p then
    let c := match e with
      | .oversize => ETH_RX_OVERSIZE_CNT_VAL p
      | .runt => ETH_RX_RUNT_CNT_VAL p
      | .fcs => ETH_RX_FCS_ERR_CNT_VAL p
      | .frag => ETH_RX_FRAG_ERR_CNT_VAL p
    (s.inc c).setFlag (ETH_EVT_RX_ERR p)
  else (s.inc (T1S_RX_ERR_CNT_VAL (p - 24))).setFlag (T1S_EVT_RX_ERR (p - 24))

/-- A frame that passed its check is counted. -/
def State.rxPass (s : State) (p len : Nat) : State :=
  if isEth p then
    (s.addCnt64 (ETH_RX_FRAMES_CNT_LO_VAL p) (ETH_RX_FRAMES_CNT_HI_VAL p) 1).addCnt64 (ETH_RX_BYTES_CNT_LO_VAL p)
      (ETH_RX_BYTES_CNT_HI_VAL p) len
  else s.inc (T1S_RX_FRAMES_CNT_VAL (p - 24))

/-- A MAC control frame is discarded; T1S segments have no counter for it (R78). -/
def State.rxControl (s : State) (p : Nat) : State := if isEth p then s.inc (ETH_RX_CTRL_CNT_VAL p) else s

/-- The bytes of a received frame that a plane stores: the clear frame behind MACsec where the port uses it. -/
def State.rxStored (s : State) (p : Nat) (bs : List Byte) : List Byte :=
  let body := bs.take (bs.length - 4)
  if s.msecOn p ∧ s.msecBypass p body = false then
    match (s.msecValidate p body).2 with
    | some clear => ethFrame clear
    | none => bs
  else bs

/-- A frame that MACsec validates goes into the core as its clear bytes, or is dropped. -/
def State.rxValidate (s : State) (p : Nat) (body : List Byte) (fs : List Frame) : State :=
  match s.msecValidate p body with
  | (s1, some clear) => s1.arriveAll (fs.map (fun f => { f with bytes := ethFrame clear, secure := true }))
  | (s1, none) => s1.releaseAll fs

/-- Frames that wait for MACsec when an alarm fires end with it: they are dropped (R448). -/
def State.dropWaiting (s : State) : State :=
  s.cph.rxWait.foldl (fun s e => s.releaseAll e.2.2) { s with cph := { s.cph with rxWait := [] } }

/-- A frame beyond the MAC: through MACsec where the port uses it, then into the core. Without an engine, or behind a frame of its port that
has none, it waits (R224, R225). -/
def State.rxForward (s : State) (p : Nat) (bs : List Byte) (fs : List Frame) : State :=
  let body := bs.take (bs.length - 4)
  if s.msecOn p ∧ s.msecBypass p body = false then
    if s.flag CPH_ALARM_REFUSING = false ∧ (s.msecServes = false ∨ s.cph.rxWait.any (fun e => e.1 == p)) then
      -- MACsec's 64 places (R445).
      if 64 ≤ s.cph.rxWait.length then s.releaseAll fs else
      { s with cph := { s.cph with rxWait := s.cph.rxWait ++ [(p, body, fs)] } }
    else s.rxValidate p body fs
  else s.arriveAll fs

/-- Drum Major starts an operation: a received frame that waits for MACsec first, whose places are its own, then the first queued operation
that can start (R224, R445). -/
def execCipherOpStart (s : State) : Host.Outcome State Fault Refusal :=
  .next (match s.cph.rxWait, s.msecServes with
    | (p, body, fs) :: t, true => ({ s with cph := { s.cph with rxWait := t } } : State).rxValidate p body fs
    | _, _ => s.cphBegin)

/-- A MAC control frame (R78). -/
def isControl (bs : List Byte) : Bool := be16 bs 12 == 0x8808

/-- The end of a reception whose copies hold buffers: a frame that fails its check is counted at the port and returns them
(R11). -/
def State.rxEnd (s : State) (p maxLen : Nat) (bs : List Byte) (rx : RxCond) (fs : List Frame) : State :=
  match rxCheck maxLen bs rx with
  | some e => (s.rxFail p e).releaseAll fs
  | none =>
    let s1 := s.rxPass p bs.length
    if isControl bs then s1.rxControl p else s1.rxForward p bs fs

/-- MAXLEN of a port. -/
def State.rxMax (s : State) (p : Nat) : Nat := if isEth p then s.fld (ETH_CFG_MAXLEN p) else s.fld (T1S_CFG2_MAXLEN (p - 24))

/-- A reception ends at a port. A frame comes in only while the link is up; one cut off by the loss of the link may end
after its declaration. -/
def execFrameReceive (port : Nat) (bytes : List Byte) (rx : RxCond) (age : Nat) (s : State) :
    Host.Outcome State Fault Refusal :=
  .next (
    if 32 ≤ port ∨ s.portOn port = false ∨ s.pwr.sleep ≠ 0 ∨ (s.linkUp port = false ∧ rx ≠ .cutOff) then s
    else if isControl bytes then s.rxEnd port (s.rxMax port) bytes rx []
    else match s.hold port false (s.rxStored port bytes) (s.stampAgo age) age none with
      | (s1, none) => s1
      | (s1, some fs) => s1.rxEnd port (s.rxMax port) bytes rx fs)

end Sys2Proof.Machine
end

