-- ==== Sys2Proof/Machine/RasCommands.lean ====
section
/-! DEFINITION. Alarms, clock losses, memory errors, error records, the ERR_OUT pair and the external watchdog
(R168, R448, R513, R514, R524–R529, R538). -/

namespace Sys2Proof.Machine

/-! ## Alarms (R448, R527) -/

/-- An alarm: 0 voltage, 1 clock, 2 temperature, 3 glitch. One that is present already makes no new one. -/
def State.alarm (s : State) (b : Nat) : State :=
  if s.pwr.inReset ∨ bitOf (s.fld RAS_ALARM_ACTIVE) b then s
  else
    let s1 := (s.put RAS_ALARM_ACTIVE (setBits (s.fld RAS_ALARM_ACTIVE) b 1 1)).put RAS_ALARM_SEEN (setBits (s.fld RAS_ALARM_SEEN) b 1 1)
    (((s1.setFlag RAS_EVT_ALARM).rasRecord 0x07 2 0x1B 0 (s1.fld RAS_ALARM_SEEN)).errCause 4).cphAlarm b |>.dropWaiting

def execAlarmFire (bit : Nat) (s : State) : Host.Outcome State Fault Refusal := .next (if bit < 4 then s.alarm bit else s)

/-- An alarm ceases. -/
def State.alarmGone (s : State) (b : Nat) : State := s.put RAS_ALARM_ACTIVE (setBits (s.fld RAS_ALARM_ACTIVE) b 1 0)

/-- The clock alarm ceases once the reference runs and the PLLs are locked again. -/
def State.clocksBack (s : State) : State :=
  (((s.put CLK_STATUS_REF_OK 1).put CLK_STATUS_PLL_CORE 1).put CLK_STATUS_PLL_MC 1).put CLK_STATUS_PLL_TS 1

def execAlarmCease (bit : Nat) (s : State) : Host.Outcome State Fault Refusal :=
  .next (
    if bitOf (s.fld RAS_ALARM_ACTIVE) bit = false ∨ 4 ≤ bit then s
    else (if bit = 1 ∧ s.domOn 1 then s.clocksBack else s).alarmGone bit)

/-- A signed number of 12 bits. -/
def signed12 (n : Nat) : Int := if n % 4096 < 2048 then (n % 4096 : Nat) else (n % 4096 : Nat) - 4096

/-- The die temperature of a sensor reading: factory trim and user offset added (R532). -/
def State.tempNow (s : State) (t : Nat) : Int := signed12 t + Config.factoryTrim + userCal s.active 3 0

def State.tempSample (s : State) (t : Nat) : State :=
  let x := s.tempNow t
  let s1 := s.put RAS_TEMP_TJ (x % 4096).toNat
  if signed12 (s.fld RAS_TEMP_ALARM_TJ) ≤ x then s1.alarm 2 else s1.alarmGone 2

def execTempSample (t : Nat) (s : State) : Host.Outcome State Fault Refusal :=
  .next (if s.pwr.inReset then s else s.tempSample t)

/-! ## Clocks (R513, R514, R538) -/

/-- The lock bits of PLL_CORE, PLL_MC and PLL_TS. -/
def pllFld (clk : Nat) : Fld := if clk = 1 then CLK_STATUS_PLL_CORE else if clk = 2 then CLK_STATUS_PLL_MC else CLK_STATUS_PLL_TS

/-- The reference fails (0), or PLL_CORE, PLL_MC or PLL_TS loses lock (1, 2, 3). -/
def State.clockLoss (s : State) (clk : Nat) : State :=
  if clk = 0 then
    if s.flag CLK_STATUS_REF_OK then ((s.put CLK_STATUS_REF_OK 0).setFlag CLK_EVT_REF_LOSS).alarm 1 else s
  else if clk < 4 ∧ s.flag (pllFld clk) then ((s.put (pllFld clk) 0).setFlag CLK_EVT_LOCK_LOSS).alarm 1
  else s

def execClockLoss (clk : Nat) (s : State) : Host.Outcome State Fault Refusal := .next (s.clockLoss clk)

/-- The PLL of a quad loses lock: its ports lose theirs (R85). -/
def State.serdesLoss (s : State) (q : Nat) : State :=
  if q < 6 ∧ bitOf (s.fld CLK_STATUS_SQ) q then
    [0, 1, 2, 3].foldl (fun s i => s.faultAt (4 * q + i) false) ((s.putSq q false).setFlag CLK_EVT_LOCK_LOSS)
  else s

def execSerdesPllLockLoss (quad : Nat) (s : State) : Host.Outcome State Fault Refusal := .next (s.serdesLoss quad)

/-- The 32.768 kHz oscillator runs; the rate of the AO counter is no state of the model. -/
def execXo32kStart (s : State) : Host.Outcome State Fault Refusal := .next (s.put CLK_STATUS_XO32K_OK 1)

/-! ## Memory errors (R168, R524, R525) -/

/-- Memories by code: 0 packet buffer, 1 a plane's queue link memory or pipeline control state, 2 management SRAM, 3 retention
SRAM, 4 Carillon memory, 5 AO RAM; with the UNIT of their records. Table SRAM is 6 and the link words of a free list 7: their errors are
found when they are read (R157, R180). -/
def memUnit : Nat → Nat
  | 0 => 0x0A
  | 1 => 0x0A
  | 2 => 0x06
  | 4 => 0x0C
  | _ => 0xFF

/-- A corrected error; the plane control state has no correction. -/
def State.memCorrected (s : State) (e : MemErr) : State :=
  if e.mem = 1 then s else s.rasRecord 0x01 0 (memUnit e.mem) (if e.mem = 0 then planeBit e.pl else 0) e.addr

/-- An item of a plane's table SRAM fails its parity from now on: `pool` is the TABLE, 0 a slot, 1 a status word, 2 an LPM unit. -/
def State.parityBreaks (s : State) (e : MemErr) : State :=
  let p := s.plane e.pl
  let add (l : List Nat) : List Nat := if l.contains e.addr then l else l ++ [e.addr]
  s.setPlane e.pl (if e.pool = 0 then { p with badSlots := if e.addr < 131072 then add p.badSlots else p.badSlots }
    else if e.pool = 1 then { p with badStatus := if e.addr < 131072 then add p.badStatus else p.badStatus }
    else if e.pool = 2 then { p with badUnits := if e.addr < 65536 then add p.badUnits else p.badUnits }
    else p)

/-- The link word of a free buffer no longer passes its CHECK. -/
def State.linkBreaks (s : State) (e : MemErr) : State :=
  let p := s.plane e.pl
  let q := p.pool e.pool
  if q.bad.contains e.buf ∨ q.count ≤ e.buf then s else s.setPlane e.pl (p.setPool e.pool { q with bad := q.bad ++ [e.buf] })

/-- An uncorrectable error: a frame to spoil, a plane's FATAL, or the management cluster's memories. -/
def State.memFatal (s : State) (e : MemErr) : State :=
  if e.mem = 0 then
    let m := (planeNum e.pl, e.pool, e.buf)
    { s.rasRecord 0x03 1 0x0A (planeBit e.pl) e.addr with stomps := m :: s.stomps.filter (fun x => decide (x ≠ m)) }
  else if e.mem = 1 then
    { s.rasRecord 0x04 1 0x0A (planeBit e.pl) e.addr with fatal := e.pl :: s.fatal.filter (fun x => decide (x ≠ e.pl)) }
  else (s.rasRecord 0x06 2 (memUnit e.mem) 0 e.addr).errCause 3

def execMemoryError (err : MemErr) (s : State) : Host.Outcome State Fault Refusal :=
  .next (if s.pwr.inReset then s else if err.mem = 6 then s.parityBreaks err else if err.mem = 7 then s.linkBreaks err
    else if err.corrected then s.memCorrected err else s.memFatal err)

/-- The LPDDR is no longer ready. -/
def execLpddrReadyLost (s : State) : Host.Outcome State Fault Refusal := .next (s.memReady false)

/-! ## Error records, ERR_OUT and the watchdog (R526, R528, R529) -/

/-- POP of RAS_ERR_POP. -/
def State.popErr (s : State) : State := { s with errFifo := s.errFifo.drop 1 }

def execRasErrPop (r : Requester) (s : State) : Host.Outcome State Fault Refusal := .next (s.gated r rRAS_ERR_POP State.popErr)

def execErrOutForce (r : Requester) (force : Bool) (s : State) : Host.Outcome State Fault Refusal :=
  .next (s.gated r rRAS_ERR_OUT (fun s => s.put RAS_ERR_OUT_FORCE (bitN force)))

/-- The pair shows fault: in reset and BOOT, and while a cause is present. -/
def State.errFault (s : State) : Bool :=
  s.pwr.inReset || s.inState .boot || s.fld RAS_ERR_OUT_CAUSE != 0 || s.flag RAS_ERR_OUT_FORCE

/-- The levels of ERR_OUT_A and ERR_OUT_B: A high with B low signals no fault, both low a fault. -/
def State.errOutPins (s : State) : Bool × Bool := (!s.errFault, false)

/-- A question arrives. -/
def State.question (s : State) (q : Nat) : State :=
  let s1 := if s.wdg.asked ∧ s.flag RAS_WDG_ANSWERED = false then s.inc RAS_WDG_OVERRUN_CNT_VAL else s
  let s2 := ((s1.put RAS_WDG_Q q).put RAS_WDG_ANSWERED 0).setFlag RAS_EVT_WDG_Q
  { s2 with wdg := { s2.wdg with asked := true } }

def execWdgQuestion (q : Nat) (s : State) : Host.Outcome State Fault Refusal :=
  .next (if s.pwr.inReset then s else s.question q)

/-- A write of RAS_WDG_ANS by target 0: the answer starts, or a frame is still being sent. In the safe state the Triangle is
stalled and writes nothing. `tie` says that the latest question arrived in this clock: ANSWERED stays clear for it. -/
def State.writeWdgAns (s : State) (ans : Nat) (tie : Bool) : State :=
  if s.flag GLB_DEVSTATE_SAFE then s
  else if s.wdg.sending then s.put RAS_WDG_ANS_BUSY 1
  else { (if tie then s else s.put RAS_WDG_ANSWERED 1) with wdg := { s.wdg with sending := true, answer := ans % 256 } }

def execWdgAnswer (r : Requester) (ans : Nat) (s : State) (tie : Bool := false) : Host.Outcome State Fault Refusal :=
  .next (s.gated r rRAS_WDG_ANS (fun s => s.writeWdgAns ans tie))

def execWdgAnswerSent (s : State) : Host.Outcome State Fault Refusal := .next { s with wdg := { s.wdg with sending := false } }

end Sys2Proof.Machine
end

