-- ==== Sys2Proof/Machine/RegisterRead.lean ====
section
/-! DEFINITION. Reads of registers: the fields that show live state, block by block, the _HI latches, RC fields, and the gates
of a read (R5–R7, R31–R35, R483). -/

namespace Sys2Proof.Machine

/-! ## What a register shows -/

/-- A stored register with some fields as they read now. -/
def State.shown (s : State) (a : Nat) (l : List (Fld × Nat)) : Nat :=
  l.foldl (fun w e => setBits w e.1.lsb e.1.wid e.2) (s.reg a).toNat

/-- Where in an array of registers an address lies: index of an array of `count` at `stride` from `base`, with the offset
within the element. -/
def arrIx (a base stride count : Nat) : Option (Nat × Nat) :=
  if base ≤ a ∧ (a - base) / stride < count then some ((a - base) / stride, (a - base) % stride) else none

/-- Index in a plain array. -/
def arrAt (a base stride count : Nat) : Option Nat :=
  match arrIx a base stride count with
  | some (n, 0) => some n
  | _ => none

/-- A 32-bit mask of the numbers 32w to 32w + 31 in a list. -/
def maskWord (l : List Nat) (w : Nat) : Nat := (List.range 32).foldl (fun n j => n + bitN (l.contains (32 * w + j)) * 2 ^ j) 0

/-- Word `w` of a record, the lowest-numbered byte in bits 7:0. -/
def recWord (bs : List Byte) (w : Nat) : Nat := leNat (slice bs (4 * w) 4)

/-- Bytes of an error record (R526) and of a wake record (R391). -/
def ErrRec.bytes (x : ErrRec) : List Byte :=
  [x.cls, x.sev, x.unit, x.plane].map (BitVec.ofNat 8) ++ leBytes 4 x.detail ++ leBytes 6 x.time ++ [0, 0]
def WakeRec.bytes (x : WakeRec) : List Byte :=
  [x.src, x.idx, x.cluster, x.flags].map (BitVec.ofNat 8) ++ leBytes 6 x.detect ++ leBytes 6 x.knell

/-- GLB: the identity and the split permission. -/
def State.viewGLB (s : State) (a : Nat) : Nat :=
  match arrAt a (rGLB_DEVUID 0) 4 4 with
  | some n => recWord devUid n
  | none => if a = rGLB_STRAP then s.shown a [(GLB_STRAP_SPLIT_PERMIT, bitN Config.splitPermit)] else (s.reg a).toNat

/-- CHT: the shadow window shows the staged bytes. -/
def State.viewCHT (s : State) (a : Nat) : Nat := if inShadow a then memLe s.shadow (a - 0x140000) 4 else (s.reg a).toNat

/-- TIM: live CT48, the heads of the FIFOs, effective delays. -/
def State.viewTIM (s : State) (a : Nat) : Nat :=
  let pps (n : Nat) : List TbTime := tabGet [] s.ppsCap n
  let cap (n : Nat) : TbTime := ((pps n).head?).getD ⟨0, 0, 0⟩
  match arrIx a (rTIM_TB_CTL 0) 0x40 4, arrIx a (rTIM_PPS_CFG 0) 0x20 4, arrIx a (rTIM_PORT_CFG 0) 0x10 32 with
  | some (n, o), _, _ =>
    let ct := (s.tb n).now.ct48
    if o = 0x30 then ct % 2 ^ 32 else if o = 0x34 then ct / 2 ^ 32 else (s.reg a).toNat
  | none, some (n, o), _ =>
    if o = 0xC then s.shown a [(TIM_PPS_CAP_STAT_COUNT n, (pps n).length)]
    else if o = 0x10 then (cap n).sec % 2 ^ 32
    else if o = 0x14 then (cap n).sec / 2 ^ 32
    else if o = 0x18 then (cap n).ns
    else (s.reg a).toNat
  | none, none, some (p, o) =>
    if o = 4 ∨ o = 8 then (if s.linkUp p then s.delayPs p (o == 8) else 0) else (s.reg a).toNat
  | none, none, none =>
    match s.txts.head? with
    | none => if a = rTIM_TXTS_STAT then 0 else (s.reg a).toNat
    | some x =>
      if a = rTIM_TXTS_STAT then s.txts.length
      else if a = rTIM_TXTS_INFO then s.shown a [(TIM_TXTS_INFO_VALID, 1), (TIM_TXTS_INFO_ABORTED, bitN x.aborted),
        (TIM_TXTS_INFO_FALLBACK, bitN x.fallback), (TIM_TXTS_INFO_NO_TS, bitN x.noTs), (TIM_TXTS_INFO_TB, x.tb),
        (TIM_TXTS_INFO_PORT, x.port), (TIM_TXTS_INFO_TAG, x.tag)]
      else if a = rTIM_TXTS_SEC_LO then x.sec % 2 ^ 32
      else if a = rTIM_TXTS_SEC_HI then x.sec / 2 ^ 32
      else if a = rTIM_TXTS_NS then x.ns
      else (s.reg a).toNat

/-- CLP: the state of the sources and targets; the registers of a target that does not exist read 0. -/
def State.viewCLP (s : State) (a : Nat) : Nat :=
  let given := s.srcListed.filter (fun n => s.srcIs n stDELIVERED)
  match arrAt a (rCLP_PEND 0) 4 16, arrIx a (rCLP_TGT_CFG 0) 0x100 7 with
  | some w, _ => maskWord s.pendingSrcs w
  | none, some (t, o) =>
    if s.tgtExists t = false then 0
    else if o = 4 then s.shown a [(CLP_TGT_STAT_PRESENT t, 1), (CLP_TGT_STAT_POWERED t, bitN (s.tgtPowered t)),
      (CLP_TGT_STAT_OPEN t, bitN (s.tgtOpen t)), (CLP_TGT_STAT_RUNPRIO t, s.runPrio t),
      (CLP_TGT_STAT_DELIVERED t, (s.deliveredTo t).length)]
    else if 0x40 ≤ o ∧ o < 0x80 then maskWord (s.deliveredTo t) ((o - 0x40) / 4)
    else (s.reg a).toNat
  | none, none =>
    if a = rCLP_STATUS then s.shown a [(CLP_STATUS_DELIVERED, given.length), (CLP_STATUS_PENDING, s.pendingSrcs.length)]
    else (s.reg a).toNat

/-- TRI: the mismatches of the last hour. -/
def State.viewTRI (s : State) (a : Nat) : Nat :=
  if a = rTRI_HISTORY then s.shown a [(TRI_HISTORY_SD_RECENT, s.sdRecent), (TRI_HISTORY_UNATTR, s.unattrRecent)] else (s.reg a).toNat

/-- RED: the take-back timer. -/
def State.viewRED (s : State) (a : Nat) : Nat :=
  if a = rRED_STATUS then s.shown a [(RED_STATUS_TAKEBACK_RUN, bitN s.takeback.isSome)] else (s.reg a).toNat

/-- The plane whose half holds an address, and the address in half A. -/
def halfOf (a : Nat) : Plane := if a % 0x100000 < 0x80000 then .A else .B

/-- PRS: the fragment table. -/
def State.viewPRS (s : State) (a : Nat) : Nat :=
  if inHalfA a = rPRS_FRAG_STATUS .A then (s.plane (halfOf a)).frags.length else (s.reg a).toNat

/-- The TBL registers that are used through the Plane A half only (R172). -/
def tblOneHalf (a : Nat) : Bool := decide (a ≤ rTBL_RES_HI .A)

/-- TBL: entries and units in use. -/
def State.viewTBL (s : State) (a : Nat) : Nat :=
  let pl := halfOf a
  let x := inHalfA a
  match arrIx x (rTBL_REG_STAT .A 0) 8 16 with
  | some (r, 0) => s.shown a [(TBL_REG_STAT_USED .A r, s.regionUsed pl r),
      (TBL_REG_STAT_STATE .A r, (((s.plane pl).region r).map (fun x => x.state.code)).getD 0)]
  | some (r, _) => (((s.plane pl).region r).map (·.seed)).getD 0
  | none =>
    if pl = .B ∧ tblOneHalf x then 0
    else if x = rTBL_LPM_STAT .A then s.shown a [(TBL_LPM_STAT_UNITS_USED .A, lpmUnits (s.plane pl) s.clk), (TBL_LPM_STAT_REBUILDING .A, bitN (s.plane pl).bloomNew.isSome),
      (TBL_LPM_STAT_DUAL .A, bitN ((s.plane pl).lpmState ≠ .normal))]
    else (s.reg a).toNat

/-- The handle at the head of a pool's list; the null handle when there is none (R178). -/
def State.headHandle (s : State) (pl : Plane) (p : Nat) : Nat :=
  (((s.plane pl).pool p).head).getD 0x3FFFFF + 0x40000000 * p

/-- BPM: free buffers, list heads and the replication FIFO. -/
def State.viewBPM (s : State) (a : Nat) : Nat :=
  let pl := halfOf a
  let x := inHalfA a
  match arrIx x (rBPM_POOL_FREE .A 0) 0x10 4 with
  | some (p, 0) => s.shown a [(BPM_POOL_FREE_FREE .A p, ((s.plane pl).pool p).free)]
  | some (p, 0xC) => s.headHandle pl p
  | _ => if x = rBPM_REPL_STAT .A then (s.plane pl).repl.length else (s.reg a).toNat

/-- SCH: queue depths per half; the scheduler state of a port reads the same in both halves. -/
def State.viewSCH (s : State) (a : Nat) : Nat :=
  let x := inHalfA a
  match arrAt x (rSCH_QDEPTH .A 0) 4 2048, arrAt x (rSCH_GATE .A 0) 4 256 with
  | some q, _ => (framesOf (s.queue (halfOf a) q)).length
  | none, some p => s.shown x [(SCH_GATE_OPEN .A p, s.gateMask p), (SCH_GATE_LIST .A p, bitN (s.gateList p != []))]
  | none, none =>
    match arrAt x (rSCH_PSHP_LEVEL .A 0) 4 256, arrIx x (rSCH_QSHP_RATE .A 0) 0x10 2048 with
    | some _, _ => (s.reg x).toNat
    | none, some (_, o) => if 8 ≤ o then (s.reg x).toNat else (s.reg a).toNat
    | none, none => (s.reg a).toNat

/-- CAR: the result that CAR_RES_SEL selects, the lists in force and the ports. -/
def State.viewCAR (s : State) (a : Nat) : Nat :=
  let id := s.fld CAR_RES_SEL_STREAM
  let res := s.carView id
  let eg := ((res.map (·.eg)).getD [])[s.fld CAR_RES_SEL_EGRESS]?
  let pick (f : EgRes → Nat) : Nat := (eg.map f).getD 0 % 2 ^ 32
  match arrAt a (rCAR_PORT_STAT 0) 4 32, arrIx a (rCAR_GL_W0 0 0) 0x2000 32 with
  | some p, _ => s.shown a [(CAR_PORT_STAT_LIST p, bitN (s.gateList p != [])), (CAR_PORT_STAT_CHANGES p, (s.gateList p).length),
      (CAR_PORT_STAT_LOAD p, (loadOf s.car.sched.strokes p + 999999999) / 1000000000)]
  | none, some (p, o) =>
    match (s.gateList p)[o / 8]? with
    | some g => if o % 8 = 0 then g.off else 2 ^ 31 + bitN g.stroke * 2 ^ 30 + g.openMask % 256
    | none => 0
  | none, none =>
    if a = rCAR_RES_STATUS then
      match res with
      | none => 0
      | some x => s.shown a [(CAR_RES_STATUS_VALID, 1), (CAR_RES_STATUS_ADMITTED, bitN (tabFind s.car.sched.streams id).isSome),
          (CAR_RES_STATUS_PENDING, bitN x.pending), (CAR_RES_STATUS_CRITICAL, bitN x.crit), (CAR_RES_STATUS_OWNER, x.owner),
          (CAR_RES_STATUS_FAIL_EGRESS, x.failEg), (CAR_RES_STATUS_REASON, x.reason)]
    else if a = rCAR_RES_OFFSET then pick (fun e => e.off / 8000)
    else if a = rCAR_RES_WIDTH then pick (fun e => e.wid / 8000)
    else if a = rCAR_RES_G then pick (·.g)
    else if a = rCAR_RES_Q then pick (·.q)
    else if a = rCAR_RES_B then pick (·.b)
    else if a = rCAR_RES_L then pick (·.l)
    else (s.reg a).toNat

/-- FRE: migration contexts, and the generator and recovery state that both halves show alike. -/
def State.viewFRE (s : State) (a : Nat) : Nat :=
  let pl := halfOf a
  let x := inHalfA a
  match arrIx x (rFRE_RSQ_CTX .A 0) 8 256 with
  | some (c, o) =>
    let m := s.ctx c
    if o = 0 then bitN m.valid * 2 ^ 31 + planeNum m.frm * 2 ^ 30 + m.gen % 16 * 2 ^ 24 + m.bucket
    else m.nextSeq * 2 ^ 16 + m.heldCount
  | none =>
    if x = rFRE_RSQ_STATUS .A then
      ((s.dm.ctxs.filter (fun m => m.valid && twinOf m.frm == pl)).map MigCtx.heldCount).sum
    else if x = rFRE_GEN_CNT .A ∨ x = rFRE_RTAG_INSERT_CNT .A ∨ rFRE_GEN .A 0 ≤ x then (s.reg x).toNat
    else (s.reg a).toNat

/-- PLC: where the buckets lie. -/
def State.viewPLC (s : State) (a : Nat) : Nat :=
  match arrAt a (rPLC_BUCKET 0) 4 65536 with
  | some b => s.shown a [(PLC_BUCKET_PLANE b, planeNum (s.bkt b).plane), (PLC_BUCKET_MIGRATING b, bitN (s.bucketCtx b).isSome)]
  | none =>
    let listed := (s.dm.buckets.filter (fun e => e.2.plane == .A)).length
    if a = rPLC_STATUS then s.shown a [(PLC_STATUS_ACTIVE_CTX, (s.dm.ctxs.filter (·.valid)).length)]
    else if a = rPLC_BUCKETS_A then (if s.dm.home0 = .A then 65536 - s.dm.buckets.length + listed else listed)
    else (s.reg a).toNat

/-- FWL: the flow entries. -/
def State.viewFWL (s : State) (a : Nat) : Nat := if a = rFWL_FLOW_STAT then s.flowCount else (s.reg a).toNat

/-- BLF: the slots, the reclaimer, which runs while a slot is orphaned, and the fused epoch. -/
def State.viewBLF (s : State) (a : Nat) : Nat :=
  if a = rBLF_STATUS then s.shown a [(BLF_STATUS_STAGED, bitN s.blf.staged.isSome),
    (BLF_STATUS_RECLAIMING, bitN (decide (0 < s.orphanSlots) || s.blf.waiting.isSome)), (BLF_STATUS_ORPHANS, s.orphanSlots),
    (BLF_STATUS_USED, s.usedSlots)]
  else if a = rBLF_EPOCH then s.blf.epoch % 256
  else (s.reg a).toNat

/-- CPH: the completion FIFO and the places held. -/
def State.viewCPH (s : State) (a : Nat) : Nat :=
  if a = rCPH_CPL then (match s.cph.cpl.head? with
    | some (id, st) => 2 ^ 31 + st % 32 * 2 ^ 24 + id % 65536
    | none => 0)
  else if a = rCPH_STATUS then s.shown a [(CPH_STATUS_RUNNING, (s.cph.ops.filter CphOp.isRunning).length),
    (CPH_STATUS_HELD, (s.cph.ops.filter CphOp.held).length + s.cph.rxWait.length)]
  else (s.reg a).toNat

/-- T1S: the coordinator has NODE_ID 0. -/
def State.viewT1S (s : State) (a : Nat) : Nat :=
  match arrIx a (rT1S_STATUS 0) 0x10000 8 with
  | some (n, 0) => s.shown a [(T1S_STATUS_COORD n, bitN (s.flag (T1S_CFG_ENABLE n) && s.fld (T1S_CFG_NODE_ID n) == 0))]
  | _ => (s.reg a).toNat

/-- CAN: the error counters and the transmit buffer. -/
def State.viewCAN (s : State) (a : Nat) : Nat :=
  match arrIx a (rCAN_STATUS 0) 0x8000 32 with
  | some (n, 0) => s.shown a [(CAN_STATUS_REC n, min (s.can n).recN 255), (CAN_STATUS_TEC n, (s.can n).tecN),
      (CAN_STATUS_TXBUF n, s.txbufUsed n)]
  | _ => (s.reg a).toNat

/-- NMW: timers, requests, the head wake record, transceiver modes and INH levels. -/
def State.viewNMW (s : State) (a : Nat) : Nat :=
  let head := ((s.wrec.head?).map WakeRec.bytes).getD []
  match arrIx a (rNMW_NC_STATE 0) 0x100 16, arrAt a (rNMW_WREC 0) 4 4, arrIx a (rNMW_CAN_TRX 0) 0x40 32 with
  | some (c, 0), _, _ => s.shown a [(NMW_NC_STATE_NM_TIMER_MS c, min ((s.ao + 2 ^ 48 - (s.nmSt c).timerAt) % 2 ^ 48 / 1000) 65535),
      (NMW_NC_STATE_WAKE_LATCHED c, bitN (s.nmSt c).latched.isSome), (NMW_NC_STATE_REQ c, bitN (s.ncRequested c))]
  | none, some w, _ => recWord head w
  | none, none, some (n, 0) => s.shown a [(NMW_CAN_TRX_TRX_MODE n, s.trxMode n)]
  | _, _, _ =>
    if a = rNMW_WREC_STAT then s.shown a [(NMW_WREC_STAT_COUNT, s.wrec.length)]
    else if a = rNMW_INH then s.shown a [(NMW_INH_LEVEL, s.inhNow)]
    else (s.reg a).toNat

/-- RAS: the head error record, the ERR_OUT pair and the calibration. -/
def State.viewRAS (s : State) (a : Nat) : Nat :=
  let head := ((s.errFifo.head?).map ErrRec.bytes).getD []
  let mode := s.fld RAS_FCAL_SEL_MODE
  let speed := s.fld RAS_FCAL_SEL_SPEED
  let sat (p : Nat) (tx : Bool) : Bool :=
    s.linkUp p && (decide (s.delaySum p tx (s.portMode p) < 0) || decide (1048575 < s.delaySum p tx (s.portMode p)))
  match arrAt a (rRAS_ERR_REC 0) 4 4, arrAt a (rRAS_UCAL 0) 4 32 with
  | some w, _ => recWord head w
  | none, some p => bitN (sat p true) * 2 + bitN (sat p false)
  | none, none =>
    if a = rRAS_ERR_STAT then s.errFifo.length
    else if a = rRAS_ERR_OUT then s.shown a [(RAS_ERR_OUT_FAULT, bitN s.errFault)]
    else if a = rRAS_FCAL_VAL then
      (if (modeSpeeds mode).contains speed ∨ (mode = 0x10 ∧ speed = 0) then 2 ^ 31 + factoryPs (s.flag RAS_FCAL_SEL_DIR) mode speed
       else 0)
    else (s.reg a).toNat

/-- A tenant window. -/
def State.viewTNW (s : State) (a : Nat) : Nat :=
  let tn := (a - 0x2000000) / 0x10000
  let o := a % 0x10000
  if o = 4 then s.shown a [(TNW_STATUS_CAUSE tn, s.fld (HST_TN_STATE_CAUSE tn)), (TNW_STATUS_TENANT tn, tn),
    (TNW_STATUS_STATE tn, s.fld (HST_TN_STATE_STATE tn))]
  else
    match arrAt o 0x8000 4 2048 with
    | some v => s.shown a [(TNW_VEC_PENDING tn v, bitN ((s.ten tn).vecPending v))]
    | none => (s.reg a).toNat

/-- ETH: AN_DONE reads 1 in a mode that has no auto-negotiation. -/
def State.viewETH (s : State) (a : Nat) : Nat :=
  match arrIx a (rETH_CFG 0) 0x8000 24 with
  | some (p, 8) => s.shown a [(ETH_STATUS_AN_DONE p, bitN (s.flag (ETH_STATUS_AN_DONE p) ||
      (s.flag (ETH_CFG_ENABLE p) && !modeHasAn (s.fld (ETH_CFG_MODE p)))))]
  | _ => (s.reg a).toNat

/-- What a register shows, by its place in the register window. -/
def State.view32 (s : State) (a : Nat) : Nat :=
  match a / 0x100000 with
  | 0x00 => s.viewGLB a
  | 0x01 => s.viewCHT a
  | 0x04 => s.viewTIM a
  | 0x05 => s.viewCLP a
  | 0x06 => s.viewTRI a
  | 0x07 => s.viewRED a
  | 0x08 => s.viewPRS a
  | 0x09 => s.viewTBL a
  | 0x0A => s.viewBPM a
  | 0x0B => s.viewSCH a
  | 0x0C => s.viewCAR a
  | 0x0D => s.viewFRE a
  | 0x0E => s.viewPLC a
  | 0x0F => s.viewFWL a
  | 0x10 => s.viewBLF a
  | 0x11 => s.viewCPH a
  | 0x12 => if a = rLDG_STATUS then s.ldgQ.length else (s.reg a).toNat
  | 0x13 => s.viewETH a
  | 0x14 => s.viewT1S a
  | 0x15 => s.viewCAN a
  | 0x17 => s.viewNMW a
  | 0x1B => s.viewRAS a
  | n => if 0x20 ≤ n then s.viewTNW a else (s.reg a).toNat

/-! ## A read (R5–R7, R31, R33, R35) -/

/-- Number of a requester for its _HI latches: the management cluster, the two physical functions, the tenants' functions. -/
def requesterNum : Requester → Nat
  | .mc => 0
  | .core _ => 0
  | .hi0 => 1
  | .hi1 => 2
  | .tenant t => 3 + t

/-- Key of the latch that a requester's read of a _LO register fills: each requester has one latch for each pair, the model's reading
of "its own _HI latch" of R35 (log 75). -/
def latchKey (r : Requester) (a : Nat) : Nat := requesterNum r * 2 ^ 26 + a

/-- An RC field cleared by a read. -/
def clearRc (w : Nat) (f : FieldSpec) : Nat := if f.acc = .rc then setBits w f.lsb f.wid 0 else w

/-- Where the counters of an address are held: recovery and generator state is held once, for both halves (FRE registers). -/
def counterHome (a : Nat) : Nat :=
  let x := inHalfA a
  if a / 0x100000 = 0x0D ∧ (x = rFRE_GEN_CNT .A ∨ x = rFRE_RTAG_INSERT_CNT .A ∨ rFRE_GEN .A 0 ≤ x) then x else a

/-- A 32-bit read that reaches its register: the value and the state it leaves. -/
def State.readWord (s : State) (r : Requester) (a : Nat) : State × Nat :=
  match specAt a with
  | none => (s, if inShadow a then s.viewCHT a else 0)
  | some g =>
    match g.pair with
    | .lo => ({ s with latches := tabSet 0 s.latches (latchKey r a) (BitVec.ofNat 32 (s.view32 (a + 4))) }, s.view32 a)
    | .hi => (s, (tabGet 0 s.latches (latchKey r (a - 4))).toNat)
    | .single =>
      let v := s.view32 a
      if isMc r ∧ g.fields.any (fun f => f.acc == .rc) then
        let h := counterHome a
        (s.setReg h (BitVec.ofNat 32 (g.fields.foldl clearRc (s.reg h).toNat)), v)
      else (s, v)

/-- The tenant whose window a function's address shows (R483). -/
def State.windowTenant (s : State) (r : Requester) : Option Nat := (List.range 64).find? (fun t => s.tenOwner r t)

/-- The register window address that a requester's read of an address reaches: tenant windows lie at 0x200_0000 +
0x1_0000·t here; none reads 0. -/
def State.readAddr (s : State) (r : Requester) (addr : Nat) : Option Nat :=
  let win (t o : Nat) : Nat := 0x2000000 + 0x10000 * t + o
  match r with
  | .tenant t => if addr < 0x10000 ∧ s.tenOwner r t then some (win t addr) else none
  | _ =>
    if addr < 0x2000000 then
      if isHost r ∧ addr / 0x100000 = 0x05 then none
      else if 0x1810000 ≤ addr ∧ addr < 0x1820000 then some (win (s.fld HST_CTL_SEL) (addr % 0x10000))
      else some addr
    else if isHost r ∧ addr < 0x2010000 then (s.windowTenant r).map (fun t => win t (addr % 0x10000))
    else none

/-- Whether the requester is a tenant's virtual function. -/
def isTenant : Requester → Bool
  | .tenant _ => true
  | _ => false

/-- A read answered with a value. -/
def State.answer (s : State) (v : Nat) : State := { s with rdata := v }

/-- A read of `size` bytes: the addressed bytes of the register, with the read's side effects; 0 and a record where the block is
powered down (R31, R33). -/
def State.readReg (s : State) (r : Requester) (addr size : Nat) : State :=
  if s.unreachable r then s
  else if s.bootShut r (addr / 4 * 4) then s.answer 0
  else if addr < 0x2000000 ∧ s.powered addr = false ∧ isTenant r = false then (s.accessErr addr 2).answer 0
  else
    match s.readAddr r (addr / 4 * 4) with
    | none => s.answer 0
    | some a =>
      match s.readWord r a with
      | (s1, v) => s1.answer (v / 2 ^ (8 * (addr % 4)) % 2 ^ (8 * size))

def execLoRead (r : Requester) (addr size : Nat) (s : State) : Host.Outcome State Fault Refusal := .next (s.readReg r addr size)

def execRcCounterRead (r : Requester) (addr size : Nat) (s : State) : Host.Outcome State Fault Refusal :=
  .next (s.readReg r addr size)

end Sys2Proof.Machine
end

