-- ==== Sys2Proof/Machine/TenantCommands.lean ====
section
/-! DEFINITION. The commands of a tenant: what each does, and how it completes (R494–R498). -/

namespace Sys2Proof.Machine

/-! ## Running a command -/

/-- A command of an opcode that was fetched and has not begun. -/
def TenCmd.waits (op : Nat) (c : TenCmd) : Bool := c.st == .fetched && byteAt c.entry 0 == op

/-- A command in progress ends. -/
def State.tenEnd (s : State) (tn : Nat) (c : TenCmd) (status : Nat) (data : List Byte) : State :=
  s.setTen tn ((s.ten tn).endCmd (fun x => x == c) status data)

/-- The oldest fetched command of an opcode of a tenant in service runs. -/
def State.tenRun (s : State) (tn op : Nat) (act : State → TenCmd → State) : State :=
  if s.tenLive tn = false then s
  else match (s.ten tn).cmds.find? (TenCmd.waits op) with
    | some c => act s c
    | none => s

/-- A little-endian operand of a command entry. -/
def TenCmd.opd (c : TenCmd) (i n : Nat) : Nat := leNat (slice c.entry i n)

/-- UNIT_ERROR with the unit's own code. -/
def State.unitError (s : State) (tn : Nat) (c : TenCmd) (code : Nat) : State := s.tenEnd tn c 0x04 [BitVec.ofNat 8 code]

/-! ## TABLE -/

/-- The tenant may write a result word: its ACTION, PORT target and stream (R495). -/
def State.tenResultOk (s : State) (tn result : Nat) : Bool :=
  let action := bits result 60 4
  let t := resTarget result
  decide (1 ≤ action ∧ action ≤ 4) &&
    (action != 1 || decide (t < 32) || s.tenPort tn t) && (match resStream result with
      | some i => (tabFind s.car.sched.streams i).any (fun x => x.owner == tn)
      | none => true)

/-- The outcome of a unit's command: OK with its code and data, or UNIT_ERROR. -/
def State.tblEnd (s : State) (tn : Nat) (c : TenCmd) (code : Nat) (result : List Byte) : State :=
  if code = tsOK ∨ code = tsREPLACED then s.tenEnd tn c 0x00 ([BitVec.ofNat 8 code, 0, 0, 0] ++ result)
  else s.unitError tn c code

/-- TABLE with its region known. -/
def State.tenTblOp (s : State) (tn : Nat) (c : TenCmd) (ri : Nat) (r : Region) (op key result : Nat) (pin : Bool) : State :=
  match op with
  | 1 =>
    match s.tblInsertKey ri r key result pin with
    | (s1, code, _) =>
      if (code = tsOK ∨ code = tsREPLACED) ∧ s.tenLimEM tn < s1.emOwned tn ∧ s.emOwned tn < s1.emOwned tn then s.tenEnd tn c 0x03 []
      else s1.tblEnd tn c code []
  | 2 =>
    match s.tblReplaceKey ri r key result pin with
    | (s1, code) => s1.tblEnd tn c code []
  | 3 =>
    match s.tblDeleteKey ri r key with
    | (s1, code) => s1.tblEnd tn c code []
  | _ =>
    match s.tblWouldTake s.engine r key with
    | some (_, _, x) => s.tblEnd tn c tsOK (leBytes 8 x.result)
    | none => s.unitError tn c tsNOTFOUND

/-- TABLE: the tag, for an insertion or replacement the result word, and then the engine's own checks. -/
def State.tenTableCmd (s : State) (tn : Nat) (c : TenCmd) : State :=
  let op := c.opd 8 1
  let tag := c.opd 16 1
  let result := c.opd 56 8
  let pin := bitOf (c.opd 9 1) 0
  let p := s.plane s.engine
  if (s.tenTags tn).contains tag = false then s.tenEnd tn c 0x02 []
  else if (op = 1 ∨ op = 2) ∧ s.tenResultOk tn result = false then s.tenEnd tn c 0x02 []
  else if op = 0 ∨ 4 < op then s.unitError tn c tsILLEGAL
  else
    match p.regionOfTag tag with
    | none => s.unitError tn c tsNOREGION
    | some ri =>
      match p.region ri with
      | none => s.unitError tn c tsNOREGION
      | some r =>
        if r.wide = false ∧ beNat (slice c.entry 32 24) ≠ 0 then s.tenEnd tn c 0x01 []
        else if op ≠ 4 ∧ s.anyWriter = false then s.unitError tn c tsNOPLANE
        else s.tenTblOp tn c ri r op (beNat (slice c.entry 16 (if r.wide then 40 else 16))) result pin

/-- The table engine takes a tenant's command while no command of TBL_CMD runs. -/
def execTenTable (tn : Nat) (s : State) : Host.Outcome State Fault Refusal :=
  .next (if s.flag (TBL_CMD_BUSY .A) then s else s.tenRun tn 1 (fun s c => s.tenTableCmd tn c))

/-! ## STREAM_DECLARE and STREAM_WITHDRAW -/

/-- A stream command becomes a job of Carillon, or waits in flight while its queue is full. -/
def State.tenJob (s : State) (tn : Nat) (c : TenCmd) (i : JobItem) : State :=
  if s.carFull then s
  else
    let x := s.ten tn
    let s1 := s.setTen tn { x with cmds := x.cmds.map (fun y => if y = c then { y with st := .inCarillon } else y) }
    s1.putCar { s1.car with queue := s1.car.queue ++ [⟨.tenant tn c.id, [i], false, none, false⟩] }

def execTenStreamDeclare (tn : Nat) (s : State) : Host.Outcome State Fault Refusal :=
  .next (s.tenRun tn 2 (fun s c => s.tenJob tn c (.declare tn (slice c.entry 8 48))))

def execTenStreamWithdraw (tn : Nat) (s : State) : Host.Outcome State Fault Refusal :=
  .next (s.tenRun tn 3 (fun s c => s.tenJob tn c (.withdraw (c.opd 8 2))))

/-! ## KEY -/

/-- Slots that a tenant owns. -/
def State.tenKeys (s : State) (tn : Nat) : Nat :=
  ((List.range 1024).filter (fun n => (s.slot n).cur.isSome && (s.slot n).owner == tn)).length

/-- KEY operations that fill a slot. -/
def keyFills (op : Nat) : Bool := decide (1 ≤ op ∧ op ≤ 4)

/-- The slot a command names, or an empty one that the device chooses; which one is free (log 6). -/
def State.keySlot (s : State) (op slot : Nat) (pending : Bool) : State × Nat :=
  if slot = 0xFFFF ∧ keyFills op ∧ pending = false then
    let l := (List.range 1024).filter (fun n => decide (16 ≤ n) && (s.slot n).cur.isNone)
    match s.fresh with
    | (s1, v) => (s1, (l[v % max l.length 1]?).getD slot)
  else (s, slot)

/-- A slot that R415 lets the tenant name: its own, and an empty one to fill. -/
def State.keyOwn (s : State) (tn n : Nat) (fill : Bool) : Bool :=
  s.mayUse tn n || (fill && decide (16 ≤ n ∧ n < 1024) && (s.slot n).cur.isNone)

/-- The Belfry operation itself. -/
def State.keyOp (s : State) (op : Nat) (q : BlfReq) : BlfRes :=
  match op with
  | 1 => s.blfGen q
  | 2 => s.blfDer q
  | 3 => s.blfImp q
  | 4 => s.blfImpPub q
  | 5 => s.blfExp q
  | 6 => s.blfChk q
  | 7 => s.blfCom q
  | 8 => s.blfDis q
  | 9 => (s.blfKill q.slot, bsOK, [])
  | 10 => s.blfAttr q
  | 11 => s.blfPub q
  | 12 => s.blfAtt q
  | _ => (s, bsOK, cryptoBytes .certificate [] 4096)

/-- Belfry fixes the result: output of at most OUT_MAX bytes at DATA_ADDR, and the completion. -/
def keyEnd (tn : Nat) (c : TenCmd) (slot : Nat) (r : BlfRes) : State :=
  match r with
  | (s1, code, out) =>
    let n := min out.length (c.opd 26 2)
    let s2 := if code = bsORPHANED then s1.inc BLF_ORPHAN_USE_CNT_VAL else s1
    if code = bsOK then
      (if n = 0 then s2 else s2.dmaWrite tn (c.opd 16 8) (out.take n)).tenEnd tn c 0x00
        ([BitVec.ofNat 8 code, 0, 0, 0] ++ leBytes 2 slot ++ leBytes 2 n)
    else s2.unitError tn c code

/-- KEY. An INVALIDATE whose slot still has stale children stays in flight until the reclaimer has passed them (R414). -/
def State.tenKeyCmd (s0 : State) (tn : Nat) (c : TenCmd) : State :=
  let op := c.opd 8 1
  let pending := bitOf (c.opd 9 1) 0
  let inLen := c.opd 24 2
  match s0.keySlot op (c.opd 10 2) pending with
  | (s, slot) =>
    let named := slot ≠ 0xFFFF ∨ ¬ keyFills op
    if op = 0 ∨ 13 < op then s0.unitError tn c bsILLEGAL
    else if op ≠ 13 ∧ named ∧ s.keyOwn tn slot (keyFills op && !pending) = false then s0.tenEnd tn c 0x02 []
    else if (op = 2 ∨ op = 3 ∨ op = 5) ∧ s.mayParent tn (c.opd 12 2) = false then s0.tenEnd tn c 0x02 []
    else if keyFills op ∧ pending = false ∧ (s.slot slot).cur.isNone ∧ s.fld (TNW_REQ2_KEY tn) < s.tenKeys tn + 1 then
      s0.tenEnd tn c 0x03 []
    else if op = 9 ∧ s.staleChild slot then s0
    else
      let given := if inLen = 0 then [] else s.dmaRead tn (c.opd 16 8) (min inLen 4096)
      let data := if op = 2 then given else given ++ List.replicate (4096 - given.length) 0
      let q : BlfReq := ⟨tn, slot, pending, bitOf (c.opd 9 1) 1, c.opd 14 1, c.opd 15 1, c.opd 12 2 % 1024,
        c.opd 12 2 + 2 ^ 16 * c.opd 15 1, data⟩
      keyEnd tn c slot (({ s with blf := { s.blf with staged := none } } : State).keyOp op q)

/-- Belfry takes a tenant's command while none of firmware's runs. -/
def execTenKey (tn : Nat) (s : State) : Host.Outcome State Fault Refusal :=
  .next (if s.flag BLF_CMD_BUSY then s else s.tenRun tn 4 (fun s c => s.tenKeyCmd tn c))

/-! ## CIPHER -/

/-- Operations of a tenant that hold a place. -/
def State.tenCphHeld (s : State) (tn : Nat) : Nat :=
  (s.cph.ops.filter (fun op => op.held && op.domain == 48 + tn)).length

def execTenCipher (tn : Nat) (s : State) : Host.Outcome State Fault Refusal :=
  .next (s.tenRun tn 5 (fun s c =>
    if s.fld (TNW_REQ3_CPH tn) ≤ s.tenCphHeld tn ∨ s.cphFull then s.tenEnd tn c 0x09 []
    else
      match s.cphSubmit (48 + tn) (slice c.entry 8 32) with
      | (s1, id) =>
        let x := s1.ten tn
        (s1.setTen tn { x with cmds := x.cmds.map (fun y => if y = c then { y with st := .inCipher id } else y) }).cphDeliver))

/-! ## CAPTURE, STATS, NM_REQ, KEEPALIVE -/

/-- CAPTURE: a granted rule and the tenant's ring, which starts empty when it changes. -/
def State.tenCaptureCmd (s : State) (tn : Nat) (c : TenCmd) : State :=
  let x := s.ten tn
  let cfg := c.opd 16 4
  let size := c.opd 32 4
  let ring := (c.opd 24 8, size, c.opd 36 1 == 1)
  match x.capRules[c.opd 8 1]? with
  | none => s.tenEnd tn c 0x02 []
  | some r =>
    if bitOf cfg 28 ∨ s.tenPort tn (bits cfg 16 8) = false then s.tenEnd tn c 0x02 []
    else if size < 4096 ∨ 16777216 < size ∨ size % 16 ≠ 0 ∨ 1 < c.opd 36 1 then s.tenEnd tn c 0x01 []
    else
      let s1 := (s.storeOne true true (rCAP_RULE_CFG r) cfg).storeOne true true (rCAP_RULE_SEL r) (c.opd 20 4)
      let s2 := if x.capRing = some ring then s1
        else ((s1.setTen tn { x with capRing := some ring }).put (TNW_CAP_HEAD_HEAD tn) 0).put (TNW_CAP_TAIL_TAIL tn) 0
      s2.tenEnd tn c 0x00 []

def execTenCapture (tn : Nat) (s : State) : Host.Outcome State Fault Refusal :=
  .next (s.tenRun tn 6 (fun s c => s.tenCaptureCmd tn c))

/-- STATS: the eight counter words of each HV port, in ascending order, cleared once read (R496). -/
def execTenStats (tn : Nat) (s : State) : Host.Outcome State Fault Refusal :=
  .next (s.tenRun tn 7 (fun s c =>
    let hv := s.tenHv tn
    let words := (List.range hv.2).flatMap (fun i => (List.range 8).map (fun k => 0x1820000 + 0x20 * (hv.1 + i) + 4 * k))
    let bytes := words.flatMap (fun a => leBytes 4 (s.reg a).toNat)
    let s1 := s.dmaWrite tn (c.opd 8 8) bytes
    let s2 := if bitOf (c.opd 16 1) 0 then words.foldl (fun s a => s.setReg a 0) s1 else s1
    s2.tenEnd tn c 0x00 ([0, 0, 0, 0] ++ leBytes 2 bytes.length)))

/-- NM_REQ: the tenant's request on a cluster held or released; a disabled cluster is DENIED. -/
def execTenNmReq (tn : Nat) (s : State) : Host.Outcome State Fault Refusal :=
  .next (s.tenRun tn 8 (fun s c =>
    let k := c.opd 8 1
    let hold := c.opd 9 1 == 1
    if 16 ≤ k ∨ s.ncEnabled k = false then s.tenEnd tn c 0x02 []
    else if 1 < c.opd 9 1 then s.tenEnd tn c 0x01 []
    else
      let x := s.ten tn
      let l := x.nm.filter (fun i => decide (i ≠ k))
      ((s.setTen tn { x with nm := if hold then l ++ [k] else l }).nmTenant k tn hold).tenEnd tn c 0x00 []))

/-- KEEPALIVE completes; the deadline restarts. -/
def execTenKeepalive (tn : Nat) (s : State) : Host.Outcome State Fault Refusal :=
  .next (s.tenRun tn 10 (fun s c => (s.tenTouch tn).tenEnd tn c 0x00 []))

/-! ## ABORT (R497) -/

/-- The target of an ABORT: the tenant's command with the CMD_ID, one that has not ended before any other. -/
def Tenant.target (x : Tenant) (id : Nat) : Option TenCmd :=
  match x.cmds.find? (fun t => t.id == id && byteAt t.entry 0 != 9 && !t.done) with
  | some t => some t
  | none => x.cmds.find? (fun t => t.id == id && byteAt t.entry 0 != 9)

/-- An uncommitted target ends ABORTED. -/
def State.abortTarget (s : State) (tn : Nat) (t : TenCmd) : State :=
  match t.st with
  | .inCarillon => s.carDrop (fun src => src == .tenant tn t.id)
  | _ => s.abortCmd tn t

/-- The target's downbeat falls in the clock of the ABORT, and wins (R299). -/
def State.abortBeaten (s : State) (tn : Nat) (t : TenCmd) : Bool :=
  s.beatDue && s.car.waiting.any (fun d => d.job.src == .tenant tn t.id)

/-- ABORT; `late` when it comes in the clock of its target's downbeat. -/
def execTenAbort (tn : Nat) (s : State) (late : Bool := false) : Host.Outcome State Fault Refusal :=
  .next (s.tenRun tn 9 (fun s c =>
    match (s.ten tn).target (c.opd 8 2) with
    | none => s.tenEnd tn c 0x07 []
    | some t =>
      if t.done then s.tenEnd tn c 0x06 []
      else if late = true ∧ s.abortBeaten tn t then s.jobDownbeat.tenEnd tn c 0x06 []
      else (s.abortTarget tn t).tenEnd tn c 0x00 []))

end Sys2Proof.Machine
end

