-- ==== Sys2Proof/Machine/RegisterWrite.lean ====
section
/-! DEFINITION. Writes of registers: what each register does when it is written, block by block, over the same operations as the
commands that are a write of one register; tenant windows; and a 64-bit access of a host (R5–R9, R31–R35, R483, R490). -/

namespace Sys2Proof.Machine

/-- A register whose VALID bit clears all of it: bit 31 written 1. -/
def State.writeValid (s : State) (a v : Nat) : State := if bitOf v 31 then s.setReg a 0 else s

/-- A bit written that is not what the register holds. -/
def State.bitMoves (s : State) (f : Fld) (v : Nat) : Bool := s.flag f != bitOf v f.lsb

/-! ## Registers of the blocks, once a write reaches them -/

/-- GLB. -/
def State.writeGLB (s : State) (a v : Nat) : State :=
  if a = rGLB_SWRESET then s.writeSwreset (v / 65536) (bitOf v 0)
  else if a = rGLB_ACCESS_ERR then s.writeValid a v
  else s.storeReg a v

/-- CHT. -/
def State.writeCHT (s : State) (r : Requester) (a v : Nat) : State :=
  if inShadow a then s.writeWindow r a v
  else if a = rCHT_ARM_TIME_LO then s.writeArmTime r false v
  else if a = rCHT_ARM_TIME_HI then s.writeArmTime r true v
  else if a = rCHT_FLOOR then s.writeFloor v
  else if a = rCHT_ERR then (if bitOf v 31 then (s.setReg rCHT_ERR 0).setReg rCHT_ERR_DETAIL 0 else s)
  else s.storeReg a v

/-- PWR. -/
def State.writePWR (s : State) (r : Requester) (a v : Nat) : State :=
  if a = rPWR_DOM_CTL then s.writeDom (v % 4096)
  else if a = rPWR_HOSTBOOT_GO then s.writeHostGo r (bitOf v 0)
  else s.storeReg a v

/-- A PPS period that divides one second, or one second. -/
def ppsPeriod (v : Nat) : Nat :=
  let p := v % 2 ^ 20
  if 1000 ≤ p ∧ p ≤ 1000000 ∧ 1000000 % max p 1 = 0 then p else 1000000

/-- TIM. -/
def State.writeTIM (s : State) (a v : Nat) : State :=
  match arrIx a (rTIM_TB_CTL 0) 0x40 4, arrIx a (rTIM_PPS_CFG 0) 0x20 4 with
  | some (n, 0), _ =>
    -- TB0 always runs: its EN is not written.
    let s1 := s.storeReg a (if n = 0 then setBits v 0 1 1 else v)
    if bitOf v 1 then s1.writeStep n else s1
  | some (n, 8), _ => s.writeIncNs n v
  | none, some (n, 4) => s.put (TIM_PPS_PERIOD_PERIOD_US n) (ppsPeriod v)
  | none, some (n, 0xC) => if bitOf v 31 then s.popPps n else s
  | _, _ =>
    if a = rTIM_SNAP then s.writeSnap v
    else if a = rTIM_TXTS_POP then s.popTxts (bitOf v 0)
    else s.storeReg a v

/-- CLP; the management cluster's write is that of target 0, or of the target whose completion register it writes. -/
def State.writeCLP (s : State) (a v : Nat) : State :=
  match arrAt a (rCLP_SRC_CFG 0) 4 512, arrIx a (rCLP_TGT_CFG 0) 0x100 7 with
  | some n, _ => s.writeSrcCfg n v
  | none, some (t, o) =>
    if o = 0 then s.writeTgtCfg t v
    else if o = 8 ∧ s.tgtExists t then s.srcComplete t (v % 512)
    else s
  | none, none => if a = rCLP_CTL then s.writeHold (bitOf v 0) else s.storeReg a v

/-- TRI and DBG. -/
def State.writeTRI (s : State) (a v : Nat) : State :=
  if a = rTRI_LAST_MM then s.writeLastMm v
  else if a = rTRI_AP_CTL then s.writeApCtl v
  else if a = rDBG_AUTH then (if bitOf v 0 then s.debugAuth else s)
  else s.storeReg a v

/-- RED. -/
def State.writeRED (s : State) (a v : Nat) : State := if a = rRED_LAST_FAIL then s.writeLastFail v else s.storeReg a v

/-- PRS. -/
def State.writePRS (s : State) (a v : Nat) : State :=
  if inHalfA a = rPRS_LAST_ERR .A then s.writeValid a v
  else if a = rPRS_EXC_RATE .A then s.writeExc false v
  else if a = rPRS_EXC_BURST .A then s.writeExc true v
  else s.storeReg a v

/-- TBL, but for TBL_CMD. -/
def State.writeTBL (s : State) (a v : Nat) : State :=
  if halfOf a = .B ∧ tblOneHalf (inHalfA a) then s
  else if inHalfA a = rTBL_PAR_ERR .A then s.writeValid a v
  else s.storeReg a v

/-- BPM. -/
def State.writeBPM (s : State) (a v : Nat) : State :=
  let pl := halfOf a
  if inHalfA a = rBPM_LIST_ERR .A then s.writeValid a v
  else if inHalfA a = rBPM_MIN_RESET .A then
    [0, 1, 2, 3].foldl (fun s p => if bitOf v p then s.put (BPM_POOL_MINFREE_MINFREE pl p) (((s.plane pl).pool p).free) else s) s
  else s.storeReg a v

/-- SCH: a write of a shaper or a snare resets its level. -/
def State.writeSCH (s : State) (a v : Nat) : State :=
  if isShaper a then s.writeShaper a v else if isSnare a then s.writeSnare a v else s.storeReg a v

/-- CAR, but for CAR_CTL. -/
def State.writeCAR (s : State) (a v : Nat) : State := if a = rCAR_JOB_ERR then s.writeValid a v else s.storeReg a v

/-- FRE: a written generator forgets its twin records; recovery state is written through the Plane A half. -/
def State.writeFRE (s : State) (a v : Nat) : State :=
  match arrAt a (rFRE_GEN .A 0) 4 2048, arrIx (inHalfA a) (rFRE_REC_CFG .A 0) 0x20 2048 with
  | some g, _ => let s1 := s.storeReg a v; { s1 with gens := tabDel s1.gens g }
  | none, some (n, 4) => if halfOf a = .A ∧ bitOf v 31 then s.takeAny n else s
  | none, _ => s.storeReg a v

/-- PLC: BAL_LO stays at most BAL_HI. -/
def State.writePLC (s : State) (a v : Nat) : State :=
  -- PLC_QPL_EN5 ends at HV167: its bits 31:8 are reserved.
  let s1 := s.storeReg a (if a = rPLC_QPL_EN 5 then v % 256 else v)
  if a = rPLC_BAL ∧ s1.fld PLC_BAL_BAL_HI < s1.fld PLC_BAL_BAL_LO then s1.put PLC_BAL_BAL_LO (s1.fld PLC_BAL_BAL_HI) else s1

/-- FWL: a write of the IF4 limiter fills its bucket (R130, R405). -/
def State.writeFWL (s : State) (a v : Nat) : State :=
  if a = rFWL_CTL then (if bitOf v 0 then s.flushFlows else s)
  else
    let s1 := s.storeReg a v
    if a = rFWL_EXC_RATE ∨ a = rFWL_EXC_BURST then
      { s1 with if4Tokens := s1.fld FWL_EXC_BURST_BURST, frac := tabSet 0 s1.frac 0x3FFFFFF 0 }
    else s1

/-- BLF, but for BLF_CMD: the operand register holds a KCV in bits that no other operand uses, and the data window takes no
write while a command runs. -/
def State.writeBLF (s : State) (a v : Nat) : State :=
  if a = rBLF_CMD_ARG then s.setReg a (BitVec.ofNat 32 v)
  else if s.flag BLF_CMD_BUSY ∧ (arrAt a (rBLF_DATA 0) 4 1024).isSome then s
  else s.storeReg a v

/-- CPH. -/
def State.writeCPH (s : State) (a v : Nat) : State :=
  if a = rCPH_CTL then (if bitOf v 0 then s.writeAlarmClr else s)
  else if a = rCPH_CMD then s.writeCphCmd
  else if a = rCPH_ABORT then s.writeCphAbort v
  else if a = rCPH_CPL_POP then (if bitOf v 0 then s.popCpl else s)
  else s.storeReg a v

/-- The control register of an ETH or T1S port. -/
def State.writePortCtl (s : State) (port a v : Nat) : State :=
  -- HOLD_MS and ADMIN_DOWN act through their own operations, the other fields are stored.
  let s1 := s.storeReg a (setBits (setBits v 22 10 (bits (s.reg a).toNat 22 10)) 0 1 (bits (s.reg a).toNat 0 1))
  let s2 := s1.writeHoldMs port (bits v 22 10) false
  if s2.bitMoves (adminFld port) v then s2.writeAdmin port (bitOf v 0) else s2

/-- ETH and T1S. -/
def State.writePort (s : State) (a v : Nat) : State :=
  match arrIx a (rETH_CFG 0) 0x8000 24, arrIx a (rT1S_CFG 0) 0x10000 8 with
  | some (p, 4), _ => s.writePortCtl p a v
  | none, some (n, 8) => s.writePortCtl (24 + n) a v
  | _, _ => s.storeReg a v

/-- CAN. -/
def State.writeCAN (s : State) (a v : Nat) : State :=
  match arrIx a (rCAN_CFG 0) 0x8000 32 with
  | some (n, 0x20) =>
    let s1 := if bitOf v 2 then s.canFlush n else s
    let s2 := if bitOf v 1 then s1.canRecover n else s1
    if s2.bitMoves (CAN_CTL_ADMIN_DOWN n) v then s2.writeCanAdmin n (bitOf v 0) else s2
  | _ => s.storeReg a v

/-- LIN. -/
def State.writeLIN (s : State) (a v : Nat) : State :=
  match arrIx a (rLIN_CFG 0) 0x10000 16 with
  | some (n, 8) =>
    let s1 := (s.writeSchedSel n (bits v 4 2)).writeSchedRun n (bitOf v 3)
    if s1.bitMoves (LIN_CTL_ADMIN_DOWN n) v then s1.writeLinAdmin n (bitOf v 0) else s1
  | _ => s.storeReg a v

/-- NMW. -/
def State.writeNMW (s : State) (a v : Nat) : State :=
  match arrIx a (rNMW_NC_STATE 0) 0x100 16 with
  | some (c, 4) => s.writeNmReq c (bitOf v 0)
  | _ =>
    if a = rNMW_WREC_POP then (if bitOf v 0 then s.popWrec else s)
    else if a = rNMW_AO_SNAP then (if bitOf v 0 then s.writeAoSnap else s)
    else s.storeReg a v

/-- HST: a ring base is aligned to 64 bytes. -/
def State.writeHST (s : State) (a v : Nat) : State :=
  if a = rHST_CTL then s.writeHstCtl (bits v 8 6) (bits v 16 6) (bitOf v 0)
  else
    match arrIx a (rHST_IFQ_BASE_LO 0) 0x20 3 with
    | some (_, 0) => s.storeReg a (v / 64 * 64)
    | _ => s.storeReg a v

/-- CAP and MEM. -/
def State.writeCAP (s : State) (a v : Nat) : State :=
  if a = rCAP_CTL then s.writeCapCtl v
  else if a = rCAP_TAIL then s.writeCapTail v
  else if a = rMEM_ERR then s.writeValid a v
  else s.storeReg a v

/-- RAS. -/
def State.writeRAS (s : State) (a v : Nat) : State :=
  if a = rRAS_ERR_POP then (if bitOf v 0 then s.popErr else s)
  else if a = rRAS_WDG_ANS then s.writeWdgAns v false
  else s.storeReg a v

/-- A 32-bit write that reaches its register, which is not a command register with a refusal of its own. -/
def State.writeAt (s : State) (r : Requester) (a v : Nat) : State :=
  match a / 0x100000 with
  | 0x00 => s.writeGLB a v
  | 0x01 => s.writeCHT r a v
  | 0x02 => s.writePWR r a v
  | 0x04 => s.writeTIM a v
  | 0x05 => s.writeCLP a v
  | 0x06 => s.writeTRI a v
  | 0x07 => s.writeRED a v
  | 0x08 => s.writePRS a v
  | 0x09 => s.writeTBL a v
  | 0x0A => s.writeBPM a v
  | 0x0B => s.writeSCH a v
  | 0x0C => s.writeCAR a v
  | 0x0D => s.writeFRE a v
  | 0x0E => s.writePLC a v
  | 0x0F => s.writeFWL a v
  | 0x10 => s.writeBLF a v
  | 0x11 => s.writeCPH a v
  | 0x13 => s.writePort a v
  | 0x14 => s.writePort a v
  | 0x15 => s.writeCAN a v
  | 0x16 => s.writeLIN a v
  | 0x17 => s.writeNMW a v
  | 0x18 => s.writeHST a v
  | 0x19 => s.writeCAP a v
  | 0x1A => s.writeCAP a v
  | 0x1B => s.writeRAS a v
  | 0x1C => s.writeTRI a v
  | _ => s.storeReg a v

/-! ## Command registers -/

/-- GLB_STATE_CTL: a request by its code. -/
def State.writeStateCtl (s : State) (r : Requester) (v : Nat) : State :=
  match v % 8 with
  | 1 => s.reqRun r false
  | 2 => s.reqTest r false
  | 3 => s.reqRecovery r false
  | 4 => s.reqSleep r false false
  | 5 => s.reqSleep r false true
  | _ => s.gated r rGLB_STATE_CTL (fun s => s.rqResult rqILLEGAL)

/-- CHT_CTL: a command by its code. -/
def State.writeChtCtl (s : State) (r : Requester) (v : Nat) : State :=
  match v % 16 with
  | 1 => s.chCommand r false false (fun s => s.chOpen r)
  | 2 => s.chCommand r false false State.chVerify
  | 3 => s.chCommand r false false State.chArm
  | 4 => s.chCommand r false false (fun s => s.chDisarm false)
  | 5 => s.chCommand r false (isMc r) State.chDiscard
  | 6 => s.chCommand r false false (fun s => s.chAbort false)
  | _ => s.chCommand r false true (fun s => s.chResult chILLEGAL)

/-- TBL_CMD: a command by its code. -/
def State.writeTblCmd (s : State) (r : Requester) (v : Nat) : State :=
  let wide := bitOf v 15
  let pin := bitOf v 8
  let reg := bits v 10 5
  let pl := planeOf (bits v 16 1)
  s.tblCommand r false (fun s => match v % 16 with
    | 1 => s.doInsert wide pin
    | 2 => s.doReplace wide pin
    | 3 => s.doDelete wide
    | 4 => s.doLookup wide pl
    | 5 => s.doReadAt reg pl
    | 6 => s.doWriteAt reg
    | 7 => s.doRehash reg
    | 8 => s.doResume reg
    | 9 => s.doUnlock wide
    | 10 => s.doFlushLearned reg
    | 11 => s.doLpmInsert pin
    | 12 => s.doLpmDelete
    | 13 => s.doLpmLookup
    | 14 => s.doBloomRebuild
    | _ => s.tblDone tsILLEGAL)

/-- RED_CTL: a command by its code. -/
def State.writeRedCtl (s : State) (r : Requester) (v : Nat) : State :=
  let pl := planeOf (bits v 8 1)
  s.redCommand r (fun s => match v % 16 with
    | 1 => s.redIsolate pl
    | 2 => s.redTest pl
    | 3 => s.redRejoin pl
    | 4 => s.redPromote pl
    | _ => s.put RED_CTL_RESULT rdILLEGAL)

/-- BLF_CMD: a command by its code; 0 has no effect. -/
def State.writeBlfCmd (s : State) (r : Requester) (v : Nat) : State :=
  let q (s : State) : BlfReq := s.blfReq (bits v 10 10) (bitOf v 25) (bitOf v 24)
  let go (f : State → BlfReq → BlfRes) : State := s.blfCommand r false (fun s => f s (q s))
  match v % 16 with
  | 0 => s.mcOnly r rBLF_CMD BLF_CMD_STATUS bsNOTOWNER (fun s => s)
  | 1 => go State.blfGen
  | 2 => go State.blfDer
  | 3 => go State.blfImp
  | 4 => go State.blfImpPub
  | 5 => go State.blfExp
  | 6 => go State.blfChk
  | 7 => go State.blfCom
  | 8 => go State.blfDis
  | 9 => s.blfInv r (bits v 10 10)
  | 10 => go State.blfAttr
  | 11 => go State.blfPub
  | 12 => go State.blfAtt
  | 13 => s.blfCommand r false State.blfCert
  | 14 => s.blfCommand r false State.yelStage
  | _ => s.blfCommand r true State.yelCommit

/-- LDG_CTL: a command by its code. -/
def State.writeLdgCtl (s : State) (r : Requester) (v : Nat) : State :=
  s.ldgCommand r (fun s => match v % 8 with
    | 1 => s.ldgRestore
    | 2 => s.ldgAllFresh
    | 3 => s.ldgSealCmd
    | 4 => s.ldgReport
    | _ => (s, ldILLEGAL))

/-- A 32-bit write of the register window. -/
def State.writeReg (s : State) (r : Requester) (a v : Nat) : State :=
  if a = rGLB_STATE_CTL then s.writeStateCtl r v
  else if a = rCHT_CTL then s.writeChtCtl r v
  else if a = rTBL_CMD .A then s.writeTblCmd r v
  else if a = rRED_CTL then s.writeRedCtl r v
  else if a = rCAR_CTL then s.carCommand r (v % 16) (bits v 16 12) (bitOf v 4) false
  else if a = rBLF_CMD then s.writeBlfCmd r v
  else if a = rLDG_CTL then s.writeLdgCtl r v
  else s.gated r a (fun s => s.writeAt r a v)

/-! ## Tenant windows (R483, R486, R490, R494) -/

/-- A ring's configuration: a size and an HV index are taken only while the ring is off. -/
def keepWhileOn (on : Bool) (old v lsb wid : Nat) : Nat := if on then setBits v lsb wid (bits old lsb wid) else v

/-- A register of a tenant window. -/
def State.storeTnw (s : State) (tn o v : Nat) : State :=
  let a := 0x2000000 + 0x10000 * tn + o
  let old := (s.reg a).toNat
  let cmdOn := s.flag (TNW_CMDQ_CFG_EN tn)
  let cplOn := s.flag (TNW_CPLQ_CFG_EN tn)
  if 0x10 ≤ o ∧ o < 0x20 then (if s.tenIs tn .absent then s.storeReg a v else s)
  else if o = 0x30 then (if cmdOn then s else s.storeReg a (v / 64 * 64))
  else if o = 0x34 then (if cmdOn then s else s.storeReg a v)
  else if o = 0x38 then s.storeReg a (keepWhileOn cmdOn old v 0 4)
  else if o = 0x48 then (if cplOn then s else s.storeReg a (v / 64 * 64))
  else if o = 0x4C then (if cplOn then s else s.storeReg a v)
  else if o = 0x50 then
    let s1 := s.storeReg a (keepWhileOn cplOn old v 0 4)
    if bitOf v 31 ∧ cplOn = false then s1.setTen tn { s1.ten tn with phase := true } else s1
  else if o = 0x64 then
    (match (s.ten tn).capRing with
     | some (_, _, true) => s
     | _ => s.storeReg a (v / 16 * 16))
  else if 0x4000 ≤ o ∧ o < 0x5000 then
    let k := (o - 0x4000) / 0x40
    let on := s.flag (TNW_RP_CFG_EN tn k)
    let p := o % 0x40
    if p < 0x10 then (if on then s else s.storeReg a (if p % 8 = 0 then v / 64 * 64 else v))
    else if p = 0x10 then
      let v1 := keepWhileOn on old (keepWhileOn on old v 8 8) 16 8
      s.storeReg a (if (s.tenHv tn).2 ≤ bits v1 16 8 then setBits v1 31 1 0 else v1)
    else s.storeReg a v
  else s.storeReg a v

/-- A write of a tenant window by the tenant's function. -/
def State.writeTnw (s : State) (r : Requester) (tn o v : Nat) : State :=
  if o = 0 then s.writeTnwCtl r tn (v % 16) (bitOf v 8) else s.winWrite r tn (fun s => s.storeTnw tn o v)

/-- A write of `size` bytes at an address of the requester's window. A write of a tenant window narrower than 32 bits is ignored. -/
def State.regWrite (s : State) (r : Requester) (addr size v : Nat) : State :=
  let a := addr / 4 * 4
  if s.unreachable r then s
  else match r with
  | .tenant t => if size = 4 ∧ a < 0x10000 then s.writeTnw r t a v else s
  | _ =>
    if 0x2000000 ≤ addr then
      match s.windowTenant r with
      | some t => if size = 4 ∧ addr < 0x2010000 then s.writeTnw r t (a % 0x10000) v else s
      | none => s
    else if size < 4 then (s.writeGate r addr size).getD s
    else s.writeReg r a v

def execRegisterWrite (r : Requester) (addr size v : Nat) (s : State) : Host.Outcome State Fault Refusal :=
  .next (s.regWrite r addr size v)

/-- A naturally aligned 64-bit access of a host: the lower word first (R32). -/
def State.access64 (s : State) (r : Requester) (wr : Bool) (addr v : Nat) : State :=
  if isMc r ∨ addr % 8 ≠ 0 ∨ s.unreachable r then s
  else if wr then (s.regWrite r addr 4 (v % 2 ^ 32)).regWrite r (addr + 4) 4 (v / 2 ^ 32 % 2 ^ 32)
  else
    let s1 := s.readReg r addr 4
    let s2 := s1.readReg r (addr + 4) 4
    s2.answer (s1.rdata + 2 ^ 32 * s2.rdata)

def execHost64bitAccess (r : Requester) (wr : Bool) (addr v : Nat) (s : State) : Host.Outcome State Fault Refusal :=
  .next (s.access64 r wr addr v)

end Sys2Proof.Machine
end

