-- ==== Sys2Proof/Machine/Dispatch.lean ====
section
/-! DEFINITION. One arm per command: the direct call of its meaning. -/

namespace Sys2Proof.Machine

def exec (i : Instr) (s : State) : Host.Outcome State Fault Refusal :=
  match i with
  | .registerWrite r addr size v => Sys2Proof.Machine.execRegisterWrite r addr size v s
  | .loRead r addr size => Sys2Proof.Machine.execLoRead r addr size s
  | .rcCounterRead r addr size => Sys2Proof.Machine.execRcCounterRead r addr size s
  | .host64bitAccess r wr addr v => Sys2Proof.Machine.execHost64bitAccess r wr addr v s
  | .reqRun r tie => Sys2Proof.Machine.execReqRun r tie s
  | .reqTest r tie => Sys2Proof.Machine.execReqTest r tie s
  | .reqRecovery r tie => Sys2Proof.Machine.execReqRecovery r tie s
  | .reqSleepR r tie => Sys2Proof.Machine.execReqSleepR r tie s
  | .reqSleepD r tie => Sys2Proof.Machine.execReqSleepD r tie s
  | .sleepEntryAdvance => Sys2Proof.Machine.execSleepEntryAdvance s
  | .glbSwreset r key go => Sys2Proof.Machine.execGlbSwreset r key go s
  | .powerOnReset => Sys2Proof.Machine.execPowerOnReset s
  | .resetNLow held => Sys2Proof.Machine.execResetNLow held s
  | .pwrGoodLow held => Sys2Proof.Machine.execPwrGoodLow held s
  | .supplyMonitorReset => Sys2Proof.Machine.execSupplyMonitorReset s
  | .thermalReset => Sys2Proof.Machine.execThermalReset s
  | .debugReset => Sys2Proof.Machine.execDebugReset s
  | .resetRelease bootMode splitN => Sys2Proof.Machine.execResetRelease bootMode splitN s
  | .bootStepDone outcome => Sys2Proof.Machine.execBootStepDone outcome s
  | .pwrHostbootGo r go => Sys2Proof.Machine.execPwrHostbootGo r go s
  | .chtOpen r tie => Sys2Proof.Machine.execChtOpen r tie s
  | .shadowWindowWrite r addr v => Sys2Proof.Machine.execShadowWindowWrite r addr v s
  | .chtVerify r tie => Sys2Proof.Machine.execChtVerify r tie s
  | .verifyDone => Sys2Proof.Machine.execVerifyDone s
  | .chtArm r tie => Sys2Proof.Machine.execChtArm r tie s
  | .chtDisarm r tie late => Sys2Proof.Machine.execChtDisarm r tie late s
  | .chtDiscard r tie => Sys2Proof.Machine.execChtDiscard r tie s
  | .chtAbortSwap r tie late => Sys2Proof.Machine.execChtAbortSwap r tie late s
  | .chtFloorWrite r v => Sys2Proof.Machine.execChtFloorWrite r v s
  | .preparationComplete => Sys2Proof.Machine.execPreparationComplete s
  | .chartDownbeat => Sys2Proof.Machine.execChartDownbeat s
  | .oldEpochDeleteDone => Sys2Proof.Machine.execOldEpochDeleteDone s
  | .handoverDrainEnd => Sys2Proof.Machine.execHandoverDrainEnd s
  | .swapRebuildDone => Sys2Proof.Machine.execSwapRebuildDone s
  | .swapResyncDone => Sys2Proof.Machine.execSwapResyncDone s
  | .frameReceive port bytes rx age => Sys2Proof.Machine.execFrameReceive port bytes rx age s
  | .linkFault port remote => Sys2Proof.Machine.execLinkFault port remote s
  | .linkUpDebounce port => Sys2Proof.Machine.execLinkUpDebounce port s
  | .adminDownWrite r port down => Sys2Proof.Machine.execAdminDownWrite r port down s
  | .anResult port speed => Sys2Proof.Machine.execAnResult port speed s
  | .verifyMpacketTimer port => Sys2Proof.Machine.execVerifyMpacketTimer port s
  | .respondMpacket port => Sys2Proof.Machine.execRespondMpacket port s
  | .holdExpire port tie => Sys2Proof.Machine.execHoldExpire port s tie
  | .holdMsWrite r port ms elapsed => Sys2Proof.Machine.execHoldMsWrite r port ms elapsed s
  | .plcaBeacon n => Sys2Proof.Machine.execPlcaBeacon n s
  | .beaconTimeout n => Sys2Proof.Machine.execBeaconTimeout n s
  | .t1sCollision n => Sys2Proof.Machine.execT1sCollision n s
  | .fragAge pl idx => Sys2Proof.Machine.execFragAge pl idx s
  | .excLimiterWrite r burst v => Sys2Proof.Machine.execExcLimiterWrite r burst v s
  | .tblInsert r tie wide pin => Sys2Proof.Machine.execTblInsert r tie wide pin s
  | .tblReplace r tie wide pin => Sys2Proof.Machine.execTblReplace r tie wide pin s
  | .tblDelete r tie wide => Sys2Proof.Machine.execTblDelete r tie wide s
  | .tblLookup r tie wide pl => Sys2Proof.Machine.execTblLookup r tie wide pl s
  | .tblReadAt r tie region pl => Sys2Proof.Machine.execTblReadAt r tie region pl s
  | .tblWriteAt r tie region => Sys2Proof.Machine.execTblWriteAt r tie region s
  | .tblRehash r tie region => Sys2Proof.Machine.execTblRehash r tie region s
  | .tblResume r tie region => Sys2Proof.Machine.execTblResume r tie region s
  | .tblUnlock r tie wide => Sys2Proof.Machine.execTblUnlock r tie wide s
  | .tblFlushLearned r tie region => Sys2Proof.Machine.execTblFlushLearned r tie region s
  | .tblLpmInsert r tie pin => Sys2Proof.Machine.execTblLpmInsert r tie pin s
  | .tblLpmDelete r tie => Sys2Proof.Machine.execTblLpmDelete r tie s
  | .tblLpmLookup r tie => Sys2Proof.Machine.execTblLpmLookup r tie s
  | .tblBloomRebuild r tie => Sys2Proof.Machine.execTblBloomRebuild r tie s
  | .rehashWalkEnd region => Sys2Proof.Machine.execRehashWalkEnd region s
  | .learnEventApply => Sys2Proof.Machine.execLearnEventApply s
  | .ageSweep => Sys2Proof.Machine.execAgeSweep s
  | .parityRepair pl table addr => Sys2Proof.Machine.execParityRepair pl table addr s
  | .scrubRead pl => Sys2Proof.Machine.execScrubRead pl s
  | .pageReadComplete pl region page => Sys2Proof.Machine.execPageReadComplete pl region page s
  | .allocSpill pl => Sys2Proof.Machine.execAllocSpill pl s
  | .bufferReturnPush pl pool => Sys2Proof.Machine.execBufferReturnPush pl pool s
  | .copyWrite pl => Sys2Proof.Machine.execCopyWrite pl s
  | .capCtlWrite r v => Sys2Proof.Machine.execCapCtlWrite r v s
  | .capTailWrite r v => Sys2Proof.Machine.execCapTailWrite r v s
  | .epochEnd write => Sys2Proof.Machine.execEpochEnd s write
  | .markerAdmit ctx => Sys2Proof.Machine.execMarkerAdmit ctx s
  | .bucketPinWrite r b pin pl => Sys2Proof.Machine.execBucketPinWrite r b pin pl s
  | .pinMoveStart b => Sys2Proof.Machine.execPinMoveStart b s
  | .rsqExpire ctx => Sys2Proof.Machine.execRsqExpire ctx s
  | .egressSelect port elapsed => Sys2Proof.Machine.execEgressSelect port s elapsed
  | .transmitEnd port => Sys2Proof.Machine.execTransmitEnd port s
  | .gateChange port => Sys2Proof.Machine.execGateChange port s
  | .shaperWrite r addr v => Sys2Proof.Machine.execShaperWrite r addr v s
  | .snareWrite r addr v => Sys2Proof.Machine.execSnareWrite r addr v s
  | .incNsWrite r tb v => Sys2Proof.Machine.execIncNsWrite r tb v s
  | .tbStep r tb => Sys2Proof.Machine.execTbStep r tb s
  | .timSnap r mask => Sys2Proof.Machine.execTimSnap r mask s
  | .txtsPop r pop => Sys2Proof.Machine.execTxtsPop r pop s
  | .ppsPulse n => Sys2Proof.Machine.execPpsPulse n s
  | .ppsEdge n elapsed => Sys2Proof.Machine.execPpsEdge n s elapsed
  | .ppsCapPop r n => Sys2Proof.Machine.execPpsCapPop r n s
  | .carDeclare r => Sys2Proof.Machine.execCarDeclare r s
  | .carWithdraw r stream => Sys2Proof.Machine.execCarWithdraw r stream s
  | .carSynth r repack => Sys2Proof.Machine.execCarSynth r repack s
  | .carCancel r late => Sys2Proof.Machine.execCarCancel r late s
  | .jobStart => Sys2Proof.Machine.execJobStart s
  | .jobComplete => Sys2Proof.Machine.execJobComplete s
  | .jobDownbeat => Sys2Proof.Machine.execJobDownbeat s
  | .beatArrival frm path bytes inSlot => Sys2Proof.Machine.execBeatArrival frm path bytes inSlot s
  | .beatSlot frm => Sys2Proof.Machine.execBeatSlot frm s
  | .redIsolate r pl => Sys2Proof.Machine.execRedIsolate r pl s
  | .redTest r pl => Sys2Proof.Machine.execRedTest r pl s
  | .redTestDone logicOk faults => Sys2Proof.Machine.execRedTestDone logicOk faults s
  | .redRejoin r pl => Sys2Proof.Machine.execRedRejoin r pl s
  | .rejoinRebuildDone => Sys2Proof.Machine.execRejoinRebuildDone s
  | .rejoinResyncDone => Sys2Proof.Machine.execRejoinResyncDone s
  | .redPromote r pl => Sys2Proof.Machine.execRedPromote r pl s
  | .takebackExpire tie => Sys2Proof.Machine.execTakebackExpire s tie
  | .frerResetTimer pl rec => Sys2Proof.Machine.execFrerResetTimer pl rec s
  | .takeAnyWrite r pl rec => Sys2Proof.Machine.execTakeAnyWrite r pl rec s
  | .canMessageReceive n msg age => Sys2Proof.Machine.execCanMessageReceive n msg age s
  | .canProtocolError n err => Sys2Proof.Machine.execCanProtocolError n err s
  | .canRecover r n => Sys2Proof.Machine.execCanRecover r n s
  | .busOffRecoveryEnd n => Sys2Proof.Machine.execBusOffRecoveryEnd n s
  | .canArbitration n elapsed won => Sys2Proof.Machine.execCanArbitration n s elapsed won
  | .canTxSuccess n => Sys2Proof.Machine.execCanTxSuccess n s
  | .canFlushTxbuf r n => Sys2Proof.Machine.execCanFlushTxbuf r n s
  | .canAdminDown r n down => Sys2Proof.Machine.execCanAdminDown r n down s
  | .linAdminDown r n down => Sys2Proof.Machine.execLinAdminDown r n down s
  | .linBusDominant n => Sys2Proof.Machine.execLinBusDominant n s
  | .linSlot n elapsed => Sys2Proof.Machine.execLinSlot n s elapsed
  | .linHeader n pid age => Sys2Proof.Machine.execLinHeader n pid age s
  | .linResponse n data err => Sys2Proof.Machine.execLinResponse n data err s
  | .linResponseTimeout n => Sys2Proof.Machine.execLinResponseTimeout n s
  | .linSchedSel r n sel => Sys2Proof.Machine.execLinSchedSel r n sel s
  | .linSchedRun r n run => Sys2Proof.Machine.execLinSchedRun r n run s
  | .acfBatchClose lin n => Sys2Proof.Machine.execAcfBatchClose lin n s
  | .unpackMove lin n => Sys2Proof.Machine.execUnpackMove lin n s
  | .nmRepeatExpire c => Sys2Proof.Machine.execNmRepeatExpire c s
  | .nmTimeout c => Sys2Proof.Machine.execNmTimeout c s
  | .readySleepDrained c => Sys2Proof.Machine.execReadySleepDrained c s
  | .readyMaxExpire c => Sys2Proof.Machine.execReadyMaxExpire c s
  | .knell c => Sys2Proof.Machine.execKnell c s
  | .knellEnd c => Sys2Proof.Machine.execKnellEnd c s
  | .wakePinEdge k => Sys2Proof.Machine.execWakePinEdge k s
  | .canWakePattern n => Sys2Proof.Machine.execCanWakePattern n s
  | .swFrameDecode n frame => Sys2Proof.Machine.execSwFrameDecode n frame s
  | .swBusIdle n => Sys2Proof.Machine.execSwBusIdle n s
  | .linBusWake n => Sys2Proof.Machine.execLinBusWake n s
  | .tc10Wake port => Sys2Proof.Machine.execTc10Wake port s
  | .nmFwRequest r c hold => Sys2Proof.Machine.execNmFwRequest r c hold s
  | .chimeTimer c => Sys2Proof.Machine.execChimeTimer c s
  | .settleExpire c => Sys2Proof.Machine.execSettleExpire c s
  | .linScheduleRestart n => Sys2Proof.Machine.execLinScheduleRestart n s
  | .nmwAoSnap r => Sys2Proof.Machine.execNmwAoSnap r s
  | .wrecPop r => Sys2Proof.Machine.execWrecPop r s
  | .flowRequestApply => Sys2Proof.Machine.execFlowRequestApply s
  | .flushFlows r => Sys2Proof.Machine.execFlushFlows r s
  | .flowSweep prof => Sys2Proof.Machine.execFlowSweep prof s
  | .blfGenerate r slot pending exprt => Sys2Proof.Machine.execBlfGenerate r slot pending exprt s
  | .blfDerive r slot pending exprt => Sys2Proof.Machine.execBlfDerive r slot pending exprt s
  | .blfImport r slot pending exprt => Sys2Proof.Machine.execBlfImport r slot pending exprt s
  | .blfImportPublic r slot => Sys2Proof.Machine.execBlfImportPublic r slot s
  | .blfExport r slot => Sys2Proof.Machine.execBlfExport r slot s
  | .blfCheck r slot => Sys2Proof.Machine.execBlfCheck r slot s
  | .blfCommit r slot => Sys2Proof.Machine.execBlfCommit r slot s
  | .blfDiscardPending r slot => Sys2Proof.Machine.execBlfDiscardPending r slot s
  | .blfInvalidate r slot => Sys2Proof.Machine.execBlfInvalidate r slot s
  | .blfReadAttr r slot => Sys2Proof.Machine.execBlfReadAttr r slot s
  | .blfGetPublic r slot => Sys2Proof.Machine.execBlfGetPublic r slot s
  | .blfAttest r slot => Sys2Proof.Machine.execBlfAttest r slot s
  | .blfCert r => Sys2Proof.Machine.execBlfCert r s
  | .yelnyStage r => Sys2Proof.Machine.execYelnyStage r s
  | .yelnyCommit r => Sys2Proof.Machine.execYelnyCommit r s
  | .reclaimerStep => Sys2Proof.Machine.execReclaimerStep s
  | .meteringRecord => Sys2Proof.Machine.execMeteringRecord s
  | .ldgRestore r => Sys2Proof.Machine.execLdgRestore r s
  | .ldgFresh r => Sys2Proof.Machine.execLdgFresh r s
  | .ldgSeal r => Sys2Proof.Machine.execLdgSeal r s
  | .ldgReport r => Sys2Proof.Machine.execLdgReport r s
  | .ckptTimer => Sys2Proof.Machine.execCkptTimer s
  | .ledgerHoldExpire c => Sys2Proof.Machine.execLedgerHoldExpire c s
  | .cipherSubmit r => Sys2Proof.Machine.execCipherSubmit r s
  | .cipherOpStart => Sys2Proof.Machine.execCipherOpStart s
  | .cipherOpCommit op => Sys2Proof.Machine.execCipherOpCommit op s
  | .cipherAbort r op => Sys2Proof.Machine.execCipherAbort r op s
  | .alarmClr r => Sys2Proof.Machine.execAlarmClr r s
  | .outputMismatch diff skew => Sys2Proof.Machine.execOutputMismatch diff skew s
  | .signatureCompare diff => Sys2Proof.Machine.execSignatureCompare diff s
  | .coreSelftestDone core pass => Sys2Proof.Machine.execCoreSelftestDone core pass s
  | .coreResyncDone => Sys2Proof.Machine.execCoreResyncDone s
  | .dbgAuthGo r => Sys2Proof.Machine.execDbgAuthGo r s
  | .debugAction act => Sys2Proof.Machine.execDebugAction s act
  | .debugResume => Sys2Proof.Machine.execDebugResume s
  | .triApCtlWrite r run => Sys2Proof.Machine.execTriApCtlWrite r run s
  | .sourceSignalChange src => Sys2Proof.Machine.execSourceSignalChange src s
  | .routePending => Sys2Proof.Machine.execRoutePending s
  | .clpComplete r target src => Sys2Proof.Machine.execClpComplete r target src s
  | .targetPowerDown target => Sys2Proof.Machine.execTargetPowerDown target s
  | .clpHoldWrite r hold => Sys2Proof.Machine.execClpHoldWrite r hold s
  | .moderationExpire target => Sys2Proof.Machine.execModerationExpire target s
  | .targetWfi target => Sys2Proof.Machine.execTargetWfi target s
  | .sourceCfgWrite r src v => Sys2Proof.Machine.execSourceCfgWrite r src v s
  | .tnwAttach r tn woc => Sys2Proof.Machine.execTnwAttach r tn woc s
  | .grantComplete tn => Sys2Proof.Machine.execGrantComplete tn s
  | .tnwDetach r tn woc => Sys2Proof.Machine.execTnwDetach r tn woc s
  | .tnwDoze r tn woc => Sys2Proof.Machine.execTnwDoze r tn woc s
  | .tnwResume r tn woc => Sys2Proof.Machine.execTnwResume r tn woc s
  | .tnwLiveWrite r tn => Sys2Proof.Machine.execTnwLiveWrite r tn s
  | .livenessExpire tn tie => Sys2Proof.Machine.execLivenessExpire tn s tie
  | .functionLevelReset tn => Sys2Proof.Machine.execFunctionLevelReset tn s
  | .pcieLinkEvent link ev => Sys2Proof.Machine.execPcieLinkEvent link ev s
  | .dmaError tn => Sys2Proof.Machine.execDmaError tn s
  | .hstReclaim r tn sel => Sys2Proof.Machine.execHstReclaim r tn sel s
  | .commandFetch tn => Sys2Proof.Machine.execCommandFetch tn s
  | .tenTable tn => Sys2Proof.Machine.execTenTable tn s
  | .tenStreamDeclare tn => Sys2Proof.Machine.execTenStreamDeclare tn s
  | .tenStreamWithdraw tn => Sys2Proof.Machine.execTenStreamWithdraw tn s
  | .tenKey tn => Sys2Proof.Machine.execTenKey tn s
  | .tenCipher tn => Sys2Proof.Machine.execTenCipher tn s
  | .tenCapture tn => Sys2Proof.Machine.execTenCapture tn s
  | .tenStats tn => Sys2Proof.Machine.execTenStats tn s
  | .tenNmReq tn => Sys2Proof.Machine.execTenNmReq tn s
  | .tenAbort tn late => Sys2Proof.Machine.execTenAbort tn s late
  | .tenKeepalive tn => Sys2Proof.Machine.execTenKeepalive tn s
  | .completionWrite tn => Sys2Proof.Machine.execCompletionWrite tn s
  | .txDescriptorFetch tn ring => Sys2Proof.Machine.execTxDescriptorFetch tn ring s
  | .inbandFrame pl port bytes => Sys2Proof.Machine.execInbandFrame pl port bytes s
  | .inbandCompletionSend tn => Sys2Proof.Machine.execInbandCompletionSend tn s
  | .vectorSend tn v => Sys2Proof.Machine.execVectorSend tn v s
  | .msixUnmask tn v => Sys2Proof.Machine.execMsixUnmask tn v s
  | .pwrDomWrite r off => Sys2Proof.Machine.execPwrDomWrite r off s
  | .sleepRWake => Sys2Proof.Machine.execSleepRWake s
  | .wakeExitAdvance ok cores => Sys2Proof.Machine.execWakeExitAdvance ok cores s
  | .sleepDWake => Sys2Proof.Machine.execSleepDWake s
  | .wakeTimer => Sys2Proof.Machine.execWakeTimer s
  | .clockLoss clk => Sys2Proof.Machine.execClockLoss clk s
  | .serdesPllLockLoss quad => Sys2Proof.Machine.execSerdesPllLockLoss quad s
  | .alarmFire bit => Sys2Proof.Machine.execAlarmFire bit s
  | .tempSample t => Sys2Proof.Machine.execTempSample t s
  | .memoryError err => Sys2Proof.Machine.execMemoryError err s
  | .rasErrPop r => Sys2Proof.Machine.execRasErrPop r s
  | .errOutForce r force => Sys2Proof.Machine.execErrOutForce r force s
  | .wdgQuestion q => Sys2Proof.Machine.execWdgQuestion q s
  | .wdgAnswer r ans tie => Sys2Proof.Machine.execWdgAnswer r ans s tie
  | .timeBaseTick => Sys2Proof.Machine.execTimeBaseTick s
  | .tokenBucketStep => Sys2Proof.Machine.execTokenBucketStep s
  | .pcsLockAcquire port ev => Sys2Proof.Machine.execPcsLockAcquire port ev s
  | .canBusIntegration n => Sys2Proof.Machine.execCanBusIntegration n s
  | .linBusRelease n => Sys2Proof.Machine.execLinBusRelease n s
  | .alarmCease bit => Sys2Proof.Machine.execAlarmCease bit s
  | .lpddrReadyLost => Sys2Proof.Machine.execLpddrReadyLost s
  | .bootPlaneBJoin => Sys2Proof.Machine.execBootPlaneBJoin s
  | .wdgAnswerSent => Sys2Proof.Machine.execWdgAnswerSent s
  | .xo32kStart => Sys2Proof.Machine.execXo32kStart s

end Sys2Proof.Machine
end

