-- ==== Sys2Proof/Safety.lean ====
section
/-! DEFINITION. What the claims mean by a state in good form: register file and memories in their canonical form, FIFOs within
their capacity, the fixed numbers of contexts, time bases and beat paths, and the AO counter within its 48 bits; by a write
that reaches its register; and by a change of some registers only. -/

namespace Sys2Proof.Machine

/-- No entry of the register file equals what an unlisted register reads as. -/
def regsTidy (t : Tab Word) : Bool := t.all (fun e => decide (e.2 ≠ resetValue e.1))

/-- The register file is canonical: addresses strictly rising, no entry at its reset value. -/
def regsWf (t : Tab Word) : Bool := tabSorted t && regsTidy t

/-- An increment pair lies in the range of R258: 3.5 ns to 4.5 ns per tick. -/
def incInRange (ns frac : Nat) : Bool := decide (0x380000000 ≤ ns * 2 ^ 32 + frac ∧ ns * 2 ^ 32 + frac ≤ 0x480000000)

/-- A time base is in good form: 48-bit seconds, nanoseconds below 10^9, a 32-bit fraction (R255), an increment in range
(R258), and a waiting increment of the same kind. -/
def TimeBase.ok (t : TimeBase) : Bool :=
  decide (t.now.sec < 2 ^ 48 ∧ t.now.ns < 1000000000 ∧ t.now.frac < 2 ^ 32) && incInRange t.incNs t.incFrac &&
    (match t.commitInc with
     | some (ns, frac) => incInRange ns frac
     | none => true)

/-- The form that every command keeps. -/
structure State.Inv (s : State) : Prop where
  /-- The register file is canonical. -/
  regs : regsWf s.regs = true
  /-- The chart areas (R41), LPDDR (R161), the capture SRAM (R194) and the memories of the management cluster and the hosts
  (R484) are canonical. -/
  active : Memory.wf s.active = true
  shadow : Memory.wf s.shadow = true
  lpddr : Memory.wf s.lpddr = true
  capSram : Memory.wf s.capSram = true
  mcMem : Memory.wf s.mcMem = true
  host0 : Memory.wf s.host0 = true
  host1 : Memory.wf s.host1 = true
  /-- The AO counter has 48 bits (R391). -/
  ao : s.ao < 2 ^ 48
  /-- The error record FIFO holds at most 64 records (R526). -/
  errFifo : s.errFifo.length ≤ 64
  /-- The transmit timestamp FIFO holds at most 64 reports (R273). -/
  txts : s.txts.length ≤ 64
  /-- The wake record FIFO holds at most 32 records (R391). -/
  wrec : s.wrec.length ≤ 32
  /-- The metering FIFO holds at most 256 records (R427). -/
  ldgQ : s.ldgQ.length ≤ 256
  /-- There are 256 migration contexts (R213). -/
  ctxs : s.dm.ctxs.length = 256
  /-- There are four time bases, each in good form (R254, R255). -/
  tbCount : s.tbs.length = 4
  tbs : s.tbs.all TimeBase.ok = true
  /-- The beats of each plane are heard on two paths by its twin (R323) and on one by the arbiter (R326). -/
  beats : s.beats.length = 6
  /-- The chart areas of earlier eras are canonical. -/
  eras : s.eras.all (fun e => Memory.wf e.2.img) = true

/-- A 32-bit write of the requester reaches the register: no check of R31, R33 or R35 stops it. -/
def State.reaches (s : State) (r : Requester) (a : Nat) : Prop := s.writeGate r a 4 = none

/-- Every register but those listed holds in `t` what it holds in `s`. -/
def State.RegsBut (s t : State) (as : List Nat) : Prop := ∀ a, a ∉ as → t.reg a = s.reg a

/-- Nothing but the registers differs, and of them only those listed: with the old registers put back it is the old state, so
memories, FIFOs, tables, queues and the waiting commands are as before. -/
structure State.OnlyRegs (s t : State) (as : List Nat) : Prop where
  rest : { t with regs := s.regs } = s
  regs : s.RegsBut t as

/-- The same, but that sources of Clapper may have been raised too. -/
structure State.OnlyRaises (s t : State) (as : List Nat) : Prop where
  rest : { t with regs := s.regs, pulses := s.pulses } = s
  regs : s.RegsBut t as

/-- An access that does not act left one record (R36, R555): with no record held it is held with its cause and address and raises
source 1 of Clapper, else OVERFLOW is set and the record stays. -/
structure State.Recorded (s t : State) (addr cause : Nat) : Prop where
  frame : s.OnlyRaises t [rGLB_ACCESS_ERR]
  first : s.flag GLB_ACCESS_ERR_VALID = false → t.fld GLB_ACCESS_ERR_VALID = 1 ∧ t.fld GLB_ACCESS_ERR_CAUSE = cause ∧
    t.fld GLB_ACCESS_ERR_ADDR = addr ∧ 1 ∈ t.pulses
  later : s.flag GLB_ACCESS_ERR_VALID = true → t.fld GLB_ACCESS_ERR_OVERFLOW = 1 ∧ t.pulses = s.pulses ∧
    t.fld GLB_ACCESS_ERR_CAUSE = s.fld GLB_ACCESS_ERR_CAUSE ∧ t.fld GLB_ACCESS_ERR_ADDR = s.fld GLB_ACCESS_ERR_ADDR

/-- A state request was done: the state code, nothing else of GLB_DEVSTATE, RESULT done, source 0 raised by the change (R36), and the
take-back timer started anew (R335). -/
structure State.EntersState (s t : State) (code : Nat) : Prop where
  rest : { t with regs := s.regs, pulses := s.pulses, tbFrom := s.tbFrom } = s
  regs : s.RegsBut t [rGLB_DEVSTATE, rGLB_STATE_CTL]
  timer : t.tbFrom = s.clk
  state : t.reg rGLB_DEVSTATE = BitVec.ofNat 32 (setBits (s.reg rGLB_DEVSTATE).toNat 0 3 code)
  result : t.fld GLB_STATE_CTL_RESULT = 2
  raised : 0 ∈ t.pulses

/-- A reset other than power-on: its cause bit set beside those already set, BOOT, D0 kept, the rest cleared (R38). -/
structure State.WasReset (s t : State) (bit : Nat) : Prop where
  cause : t.reg rGLB_RESET_CAUSE = BitVec.ofNat 32 (setBits (s.reg rGLB_RESET_CAUSE).toNat bit 1 1)
  boot : t.inState .boot = true
  inReset : t.pwr.inReset = true
  ao : t.ao = s.ao
  wrec : t.wrec = s.wrec
  charts : t.active = [] ∧ t.shadow = []
  records : t.errFifo = [] ∧ t.txts = []
  queue : t.pending = s.pending

/-- The firmware-controlled domains that a write of PWR_DOM_CTL powers down (R506). -/
def State.domDowns (s : State) (off : Nat) : List Nat :=
  ((List.range 12).filter (fun d => pwrMode s.active d == 2)).filter (fun d => bitOf off d && s.domOn d)

/-- What leaving a sleep state does once its wake is recorded: a cold boot from SLEEP-D, step 1 of the exit from SLEEP-R (R510, R511). -/
def State.leaveBy (s : State) (sleepD : Bool) : State :=
  if sleepD then s.resetBy GLB_RESET_CAUSE_SLEEPD_WAKE
  else if (s.domUp 1).pwr.exit = 0 then { s.domUp 1 with pwr := { (s.domUp 1).pwr with exit := 1 } } else s.domUp 1

/-- A time value as one number of units of 2^-32 ns (R255). -/
def TbTime.units (t : TbTime) : Nat := (t.sec * 1000000000 + t.ns) * 2 ^ 32 + t.frac

/-- A cluster in BUS_SLEEP was woken outside device sleep: REPEAT with SETTLE_US running, the wake's event, and its record at the end of
a FIFO that has room (R374, R376, R379, R391). -/
structure State.WokeCluster (s t : State) (c src idx pat : Nat) : Prop where
  state : t.nc c = ncREPEAT
  settling : (t.nmSt c).settling = true
  latched : (t.nmSt c).latched = none
  event : t.flag (NMW_NC_EVT_WAKE c) = true
  record : s.wrec.length < 32 → t.wrec = s.wrec ++ [⟨src, idx, c, s.wakeFlags false false pat, s.ao, (s.nmSt c).knell⟩]
  full : 32 ≤ s.wrec.length → t.wrec = s.wrec ∧ t.flag NMW_EVT_WREC_OVF = true

/-- A Belfry command ended with STATUS `st` and its output in the data window, or the window cleared; nothing but Belfry changes,
and of Belfry only its slots, the staged envelope and the notes on commits and invalidations
(R425). -/
structure State.BlfEnded (s t : State) (st : Nat) (out : List Byte) : Prop where
  status : t.fld BLF_CMD_STATUS = st
  busy : t.flag BLF_CMD_BUSY = false
  event : t.flag BLF_EVT_CMD_DONE = true
  cleared : out = [] → ∀ k, k < 1024 → t.reg (rBLF_DATA k) = 0
  output : t.window (rBLF_DATA 0) (out.take 4096).length = out.take 4096
  orphan : st = 5 → t.fld BLF_ORPHAN_USE_CNT_VAL = (s.fld BLF_ORPHAN_USE_CNT_VAL + 1) % 2 ^ 32
  regs : ∀ a, a ≠ rBLF_CMD → a ≠ rBLF_EVT → (st = 5 → a ≠ rBLF_ORPHAN_USE_CNT) → (∀ k, k < 1024 → a ≠ rBLF_DATA k) →
    t.reg a = s.reg a
  blf : { t.blf with slots := s.blf.slots, staged := s.blf.staged, edges := s.blf.edges, below := s.blf.below } = s.blf
  rest : { t with regs := s.regs, blf := s.blf, free := s.free } = s

/-- A Belfry command made a key in an empty slot for firmware: STATUS OK, the window cleared, a staged envelope discarded, and no other
slot changed (R417, R422, R425). -/
structure State.BlfMade (s t : State) (n : Nat) (k : KeyHalf) : Prop where
  ended : s.BlfEnded t 1 []
  staged : t.blf.staged = none
  slot : t.slot n = { s.slot n with cur := some k, owner := 0x40 }
  others : ∀ m, m ≠ n → t.slot m = s.slot m

/-- A tenant's command ended: it stands last, behind those that ended before it, with its status and completion data (R494). -/
def State.TenEnds (s t : State) (tn : Nat) (c : TenCmd) (status : Nat) (data : List Byte) : Prop :=
  (t.ten tn).cmds = (s.ten tn).cmds.erase c ++ [{ c with st := .ended status data }]

/-- The five state requests by their codes in GLB_STATE_CTL.REQ. -/
def requestCommand (code : Nat) (r : Requester) (tie : Bool) : Instr :=
  match code with
  | 1 => .reqRun r tie
  | 2 => .reqTest r tie
  | 3 => .reqRecovery r tie
  | 4 => .reqSleepR r tie
  | _ => .reqSleepD r tie

/-- The states that a request may leave by the state transition table (R21). -/
def requestFrom (code : Nat) : List DevState :=
  match code with
  | 1 => [.startUp, .test, .recovery]
  | 2 => [.run]
  | 3 => [.run, .test]
  | _ => [.run]

end Sys2Proof.Machine
end

