-- ==== Sys2Proof/WellFormed.lean ====
section
/-! DEFINITION. Which commands are well-formed: operands in the ranges the spec gives them. A command that is not
well-formed stands for nothing that can happen to the device. -/

namespace Sys2Proof

/-- A 32-bit value. -/
def w32 (v : Nat) : Bool := decide (v < 2 ^ 32)

/-- The address of a register: naturally aligned, inside the register window or the tenant window above it (R4, R5, R490). -/
def regAddr (a : Nat) : Bool := decide (a % 4 = 0 ∧ a < 0x2010000)

/-- An access: 1, 2 or 4 bytes, naturally aligned (R31). -/
def access (a n : Nat) : Bool := (n == 1 || n == 2 || n == 4) && decide (a % n = 0 ∧ a < 0x2010000)

/-- A CAN message whose fields fit the frame they stand in (R340, R341). -/
def CanMsg.ok (m : CanMsg) : Bool :=
  match m.kind with
  | .classic => decide (m.id < 2 ^ 29 ∧ m.dlc < 16 ∧ m.data.length ≤ 8 ∧ m.sdt = 0 ∧ m.vcid = 0 ∧ m.af = 0)
  | .fd => decide (m.id < 2 ^ 29 ∧ m.dlc < 16 ∧ m.data.length ≤ 64 ∧ m.sdt = 0 ∧ m.vcid = 0 ∧ m.af = 0) && !m.rtr
  | .xl => decide (m.id < 2 ^ 11 ∧ m.dlc = 0 ∧ m.sdt < 256 ∧ m.vcid < 256 ∧ m.af < 2 ^ 32 ∧ 1 ≤ m.data.length ∧ m.data.length ≤ 2048)

/-- A frame a selective wake decoder can see (R386). -/
def SwFrame.ok : SwFrame → Bool
  | .frame _ _ id dlc data => decide (id < 2 ^ 29 ∧ dlc < 16 ∧ data.length ≤ 64)
  | .error => true

/-- An outcome of a boot step: three cores, 32-bit fields of the directory, no more chart than CHART_LEN says. -/
def BootOutcome.ok (o : BootOutcome) : Bool :=
  decide (o.cores < 8 ∧ o.dir.length = 64)

/-- Operands lie in their ranges. -/
def Instr.wellFormed : Instr → Bool
  | .registerWrite _ addr size v => access addr size && w32 v
  | .loRead _ addr size => access addr size
  | .rcCounterRead _ addr size => access addr size
  | .host64bitAccess _ _ addr v => decide (addr % 8 = 0) && regAddr addr && decide (v < 2 ^ 64)
  | .reqRun _ _ => true
  | .reqTest _ _ => true
  | .reqRecovery _ _ => true
  | .reqSleepR _ _ => true
  | .reqSleepD _ _ => true
  | .sleepEntryAdvance => true
  | .glbSwreset _ key _ => w32 key
  | .powerOnReset => true
  | .resetNLow _ => true
  | .pwrGoodLow _ => true
  | .supplyMonitorReset => true
  | .thermalReset => true
  | .debugReset => true
  | .resetRelease bootMode _ => decide (bootMode < 4)
  | .bootStepDone outcome => outcome.ok
  | .pwrHostbootGo _ _ => true
  | .chtOpen _ _ => true
  | .shadowWindowWrite _ addr v => regAddr addr && w32 v
  | .chtVerify _ _ => true
  | .verifyDone => true
  | .chtArm _ _ => true
  | .chtDisarm _ _ _ => true
  | .chtDiscard _ _ => true
  | .chtAbortSwap _ _ _ => true
  | .chtFloorWrite _ v => w32 v
  | .preparationComplete => true
  | .chartDownbeat => true
  | .oldEpochDeleteDone => true
  | .handoverDrainEnd => true
  | .swapRebuildDone => true
  | .swapResyncDone => true
  | .frameReceive port bytes _ _ => decide (port < 32) && decide (bytes.length ≤ 9600)
  | .linkFault port _ => decide (port < 256)
  | .linkUpDebounce port => decide (port < 256)
  | .adminDownWrite _ port _ => decide (port < 256)
  | .anResult port speed => decide (port < 256) && decide (speed < 8)
  | .verifyMpacketTimer port => decide (port < 256)
  | .respondMpacket port => decide (port < 256)
  | .holdExpire port _ => decide (port < 256)
  | .holdMsWrite _ port ms _ => decide (port < 256) && decide (ms < 2 ^ 16)
  | .plcaBeacon n => decide (n < 8)
  | .beaconTimeout n => decide (n < 8)
  | .t1sCollision n => decide (n < 8)
  | .fragAge _ idx => decide (idx < 2 ^ 16)
  | .excLimiterWrite _ _ v => w32 v
  | .tblInsert _ _ _ _ => true
  | .tblReplace _ _ _ _ => true
  | .tblDelete _ _ _ => true
  | .tblLookup _ _ _ _ => true
  | .tblReadAt _ _ region _ => decide (region ≤ 16)
  | .tblWriteAt _ _ region => decide (region ≤ 16)
  | .tblRehash _ _ region => decide (region ≤ 16)
  | .tblResume _ _ region => decide (region ≤ 16)
  | .tblUnlock _ _ _ => true
  | .tblFlushLearned _ _ region => decide (region ≤ 16)
  | .tblLpmInsert _ _ _ => true
  | .tblLpmDelete _ _ => true
  | .tblLpmLookup _ _ => true
  | .tblBloomRebuild _ _ => true
  | .rehashWalkEnd region => decide (region ≤ 16)
  | .learnEventApply => true
  | .ageSweep => true
  | .parityRepair _ table addr => decide (table ≤ 2) && w32 addr
  | .scrubRead _ => true
  | .pageReadComplete _ region page => decide (region ≤ 16) && decide (page < 2 ^ 24)
  | .allocSpill _ => true
  | .bufferReturnPush _ pool => decide (pool < 4)
  | .copyWrite _ => true
  | .capCtlWrite _ v => w32 v
  | .capTailWrite _ v => w32 v
  | .epochEnd w => (match w with
    | some (a, v) => decide (a < 2 ^ 25 ∧ a % 4 = 0 ∧ v < 2 ^ 32)
    | none => true)
  | .markerAdmit ctx => decide (ctx < 256)
  | .bucketPinWrite _ b _ _ => decide (b < 65536)
  | .pinMoveStart b => decide (b < 65536)
  | .rsqExpire ctx => decide (ctx < 256)
  | .egressSelect port elapsed => decide (port < 256 ∧ elapsed < 4)
  | .transmitEnd port => decide (port < 256)
  | .gateChange port => decide (port < 256)
  | .shaperWrite _ addr v => regAddr addr && w32 v
  | .snareWrite _ addr v => regAddr addr && w32 v
  | .incNsWrite _ tb v => decide (tb < 4) && w32 v
  | .tbStep _ tb => decide (tb < 4)
  | .timSnap _ mask => decide (mask < 16)
  | .txtsPop _ _ => true
  | .ppsPulse n => decide (n < 4)
  | .ppsEdge n elapsed => decide (n < 4 ∧ elapsed < 4)
  | .ppsCapPop _ n => decide (n < 4)
  | .carDeclare _ => true
  | .carWithdraw _ stream => decide (stream < 4096)
  | .carSynth _ _ => true
  | .carCancel _ _ => true
  | .jobStart => true
  | .jobComplete => true
  | .jobDownbeat => true
  | .beatArrival _ _ bytes _ => bytes.length == 8
  | .beatSlot _ => true
  | .redIsolate _ _ => true
  | .redTest _ _ => true
  | .redTestDone _ faults => faults.all (fun f => decide (f.1 < 256) && w32 f.2)
  | .redRejoin _ _ => true
  | .rejoinRebuildDone => true
  | .rejoinResyncDone => true
  | .redPromote _ _ => true
  | .takebackExpire _ => true
  | .frerResetTimer _ rec => decide (rec < 2048)
  | .takeAnyWrite _ _ rec => decide (rec < 2048)
  | .canMessageReceive n msg _ => decide (n < 32) && msg.ok
  | .canProtocolError n err => decide (n < 32) && decide (err.lec < 8)
  | .canRecover _ n => decide (n < 32)
  | .busOffRecoveryEnd n => decide (n < 32)
  | .canArbitration n elapsed _ => decide (n < 32 ∧ elapsed < 4)
  | .canTxSuccess n => decide (n < 32)
  | .canFlushTxbuf _ n => decide (n < 32)
  | .canAdminDown _ n _ => decide (n < 32)
  | .linAdminDown _ n _ => decide (n < 16)
  | .linBusDominant n => decide (n < 16)
  | .linSlot n elapsed => decide (n < 16 ∧ elapsed < 4)
  | .linHeader n pid _ => decide (n < 16) && decide (pid < 256)
  | .linResponse n data _ => decide (n < 16) && decide (data.length ≤ 8)
  | .linResponseTimeout n => decide (n < 16)
  | .linSchedSel _ n sel => decide (n < 16) && decide (sel < 4)
  | .linSchedRun _ n _ => decide (n < 16)
  | .acfBatchClose _ n => decide (n < 32)
  | .unpackMove _ n => decide (n < 32)
  | .nmRepeatExpire c => decide (c < 16)
  | .nmTimeout c => decide (c < 16)
  | .readySleepDrained c => decide (c < 16)
  | .readyMaxExpire c => decide (c < 16)
  | .knell c => decide (c < 16)
  | .knellEnd c => decide (c < 16)
  | .wakePinEdge k => decide (k < 8)
  | .canWakePattern n => decide (n < 32)
  | .swFrameDecode n frame => decide (n < 32) && frame.ok
  | .swBusIdle n => decide (n < 32)
  | .linBusWake n => decide (n < 16)
  | .tc10Wake port => decide (port < 256)
  | .nmFwRequest _ c _ => decide (c < 16)
  | .chimeTimer c => decide (c < 16)
  | .settleExpire c => decide (c < 16)
  | .linScheduleRestart n => decide (n < 16)
  | .nmwAoSnap _ => true
  | .wrecPop _ => true
  | .flowRequestApply => true
  | .flushFlows _ => true
  | .flowSweep prof => decide (prof < 4)
  | .blfGenerate _ slot _ _ => decide (slot < 1024)
  | .blfDerive _ slot _ _ => decide (slot < 1024)
  | .blfImport _ slot _ _ => decide (slot < 1024)
  | .blfImportPublic _ slot => decide (slot < 1024)
  | .blfExport _ slot => decide (slot < 1024)
  | .blfCheck _ slot => decide (slot < 1024)
  | .blfCommit _ slot => decide (slot < 1024)
  | .blfDiscardPending _ slot => decide (slot < 1024)
  | .blfInvalidate _ slot => decide (slot < 1024)
  | .blfReadAttr _ slot => decide (slot < 1024)
  | .blfGetPublic _ slot => decide (slot < 1024)
  | .blfAttest _ slot => decide (slot < 1024)
  | .blfCert _ => true
  | .yelnyStage _ => true
  | .yelnyCommit _ => true
  | .reclaimerStep => true
  | .meteringRecord => true
  | .ldgRestore _ => true
  | .ldgFresh _ => true
  | .ldgSeal _ => true
  | .ldgReport _ => true
  | .ckptTimer => true
  | .ledgerHoldExpire c => decide (c < 16)
  | .cipherSubmit _ => true
  | .cipherOpStart => true
  | .cipherOpCommit _ => true
  | .cipherAbort _ op => decide (op < 2 ^ 16)
  | .alarmClr _ => true
  | .outputMismatch diff _ => decide (diff < 8)
  | .signatureCompare diff => decide (diff < 8)
  | .coreSelftestDone core _ => decide (core < 3)
  | .coreResyncDone => true
  | .dbgAuthGo _ => true
  | .debugAction _ => true
  | .debugResume => true
  | .triApCtlWrite _ run => decide (run < 16)
  | .sourceSignalChange src => decide (src < 512)
  | .routePending => true
  | .clpComplete _ target src => decide (target < 7) && decide (src < 512)
  | .targetPowerDown target => decide (target < 7)
  | .clpHoldWrite _ _ => true
  | .moderationExpire target => decide (target < 7)
  | .targetWfi target => decide (target < 7)
  | .sourceCfgWrite _ src v => decide (src < 512) && w32 v
  | .tnwAttach _ tn _ => decide (tn < 64)
  | .grantComplete tn => decide (tn < 64)
  | .tnwDetach _ tn _ => decide (tn < 64)
  | .tnwDoze _ tn _ => decide (tn < 64)
  | .tnwResume _ tn _ => decide (tn < 64)
  | .tnwLiveWrite _ tn => decide (tn < 64)
  | .livenessExpire tn _ => decide (tn < 64)
  | .functionLevelReset tn => decide (tn < 64)
  | .pcieLinkEvent link _ => decide (link < 2)
  | .dmaError tn => decide (tn < 64)
  | .hstReclaim _ tn sel => decide (tn < 64) && decide (sel < 64)
  | .commandFetch tn => decide (tn < 64)
  | .tenTable tn => decide (tn < 64)
  | .tenStreamDeclare tn => decide (tn < 64)
  | .tenStreamWithdraw tn => decide (tn < 64)
  | .tenKey tn => decide (tn < 64)
  | .tenCipher tn => decide (tn < 64)
  | .tenCapture tn => decide (tn < 64)
  | .tenStats tn => decide (tn < 64)
  | .tenNmReq tn => decide (tn < 64)
  | .tenAbort tn _ => decide (tn < 64)
  | .tenKeepalive tn => decide (tn < 64)
  | .completionWrite tn => decide (tn < 64)
  | .txDescriptorFetch tn ring => decide (tn ≤ 64) && decide (ring < 64)
  | .inbandFrame _ port _ => decide (port < 256)
  | .inbandCompletionSend tn => decide (tn < 64)
  | .vectorSend tn v => decide (tn < 64) && decide (v < 2048)
  | .msixUnmask tn v => decide (tn < 64) && decide (v < 2048)
  | .pwrDomWrite _ off => decide (off < 2 ^ 12)
  | .sleepRWake => true
  | .wakeExitAdvance _ cores => decide (cores < 8)
  | .sleepDWake => true
  | .wakeTimer => true
  | .clockLoss clk => decide (clk < 4)
  | .serdesPllLockLoss quad => decide (quad < 8)
  | .alarmFire bit => decide (bit < 32)
  | .tempSample t => decide (t < 2 ^ 12)
  | .memoryError err => decide (err.mem < 8) && decide (err.pool < 4)
  | .rasErrPop _ => true
  | .errOutForce _ _ => true
  | .wdgQuestion q => w32 q
  | .wdgAnswer _ ans _ => w32 ans
  | .timeBaseTick => true
  | .tokenBucketStep => true
  | .pcsLockAcquire port _ => decide (port < 256)
  | .canBusIntegration n => decide (n < 32)
  | .linBusRelease n => decide (n < 16)
  | .alarmCease bit => decide (bit < 32)
  | .lpddrReadyLost => true
  | .bootPlaneBJoin => true
  | .wdgAnswerSent => true
  | .xo32kStart => true

end Sys2Proof
end

