-- ==== Sys2Proof/Certificates/Slice0/Obligations.lean ====
section
/-! DEFINITION. The statements for the provers: the machine as a whole, then chapter by chapter what each command does. -/

open Sys2Proof Sys2Proof.Machine

/-! ## The machine as a whole -/

/-- A step takes the command at the front of the queue and runs it on the state with the queue's rest. -/
def Obligations.StepRunsFrontCommand : Prop := ∀ (c : Instr) (q : List Instr) (s : State), s.pending = c :: q →
  step s = exec c { s with pending := q }

/-- On an empty queue the block idles and only the AO counter moves on by one microsecond; the model's choice of log 18. -/
def Obligations.IdleStepCountsOneMicrosecond : Prop := ∀ s : State, s.pending = [] →
  step s = .next { s with ao := (s.ao + 1) % 2 ^ 48 }

/-- The machine right after reset is in good form. -/
def Obligations.ResetIsInGoodForm : Prop := State.reset.Inv

/-- What reset leaves (the register headings): every register at its reset value, the device in BOOT with both planes OFF and Plane A
LEAD, the cause POR, no command waiting and nothing in the memories and FIFOs. -/
def Obligations.ResetLeavesEveryRegisterAtItsResetValue : Prop :=
  (∀ a, State.reset.reg a = resetValue a) ∧ State.reset.inState .boot = true ∧ State.reset.isCond .A .off = true ∧
  State.reset.isCond .B .off = true ∧ State.reset.lead = .A ∧ State.reset.reg rGLB_RESET_CAUSE = 1 ∧
  State.reset.reg rGLB_PARTCODE = 0x4B510256 ∧ State.reset.pending = [] ∧ State.reset.active = [] ∧
  State.reset.errFifo = [] ∧ State.reset.txts = [] ∧ State.reset.wrec = [] ∧ State.reset.pwr.inReset = true

/-- Every command, on every state in good form, answers a next state in good form, and leaves the waiting commands as they are. -/
def Obligations.EveryCommandCompletesInGoodForm : Prop := ∀ (c : Instr) (s : State), s.Inv →
  ∃ t, exec c s = .next t ∧ t.Inv ∧ t.pending = s.pending

/-- Every step keeps the good form. -/
def Obligations.EveryStepKeepsGoodForm : Prop := ∀ s t : State, s.Inv → step s = .next t → t.Inv

/-! ## The register window -/

/-- A register write acts on each field by its access code (R5, R7, R30): RW takes the value, MW through the Plane A half sets both planes
and through the Plane B half is ignored, RO is ignored, a 1 clears a W1C bit, and a reserved offset ignores the write. -/
def Obligations.RegisterWriteActsByAccessCode : Prop := ∀ (s : State) (r : Requester) (a v : Nat), (∀ t, r ≠ .tenant t) →
  s.reaches r a → a < 0x2000000 → a % 4 = 0 →
    (∀ n < 4, a = rGLB_SCRATCH n → ∃ t, exec (.registerWrite r a 4 v) s = .next t ∧ t.reg a = BitVec.ofNat 32 v ∧ s.OnlyRegs t [a]) ∧
    (∀ n < 8, a = rTBL_LEARN_PORT .A n → ∃ t, exec (.registerWrite r a 4 v) s = .next t ∧
      t.reg (rTBL_LEARN_PORT .A n) = BitVec.ofNat 32 v ∧ t.reg (rTBL_LEARN_PORT .B n) = BitVec.ofNat 32 v ∧
      s.OnlyRegs t [rTBL_LEARN_PORT .A n, rTBL_LEARN_PORT .B n]) ∧
    (∀ n < 8, a = rTBL_LEARN_PORT .B n → ∃ t, exec (.registerWrite r a 4 v) s = .next t ∧ s.OnlyRegs t []) ∧
    (a = rGLB_PARTCODE ∨ a = rGLB_DEVSTATE → ∃ t, exec (.registerWrite r a 4 v) s = .next t ∧ s.OnlyRegs t []) ∧
    (a = rGLB_RESET_CAUSE → ∃ t, exec (.registerWrite r a 4 v) s = .next t ∧
      (∀ k < 8, bitOf (t.reg a).toNat k = (bitOf (s.reg a).toNat k && !bitOf v k)) ∧ s.OnlyRegs t [a]) ∧
    (a / 0x100000 = 0x03 → specAt a = none → ∃ t, exec (.registerWrite r a 4 v) s = .next t ∧ s.OnlyRegs t [])

/-- An access that does not act leaves one record, with the first cause that applies (R31, R33, R35, R555): a write refused to a
host, a narrow write, a block powered down, GLB_SWRESET with a wrong KEY. Which register an access reaches does not depend on its byte
within the register. -/
def Obligations.FaultyAccessLeavesOneRecord : Prop := ∀ (s : State) (r : Requester) (a size v : Nat), (∀ t, r ≠ .tenant t) →
  s.unreachable r = false → a < 0x2000000 →
    (isHost r = true → s.hostMayWrite (a / 4 * 4) = false →
      size < 4 ∨ (a % 4 = 0 ∧ a ∉ [rRED_CTL, rCAR_CTL, rBLF_CMD, rLDG_CTL]) →
      ∃ t, exec (.registerWrite r a size v) s = .next t ∧ s.Recorded t a 4) ∧
    ((isHost r = true → s.hostMayWrite (a / 4 * 4) = true) → s.bootShut r (a / 4 * 4) = false → coreShut r (a / 4 * 4) = false →
      (size < 4 → ∃ t, exec (.registerWrite r a size v) s = .next t ∧ s.Recorded t a 1) ∧
      (4 ≤ size → a % 4 = 0 → s.powered a = false → r = .mc →
        ∃ t, exec (.registerWrite r a size v) s = .next t ∧ s.Recorded t a 2)) ∧
    (s.reaches r rGLB_SWRESET → v / 65536 ≠ 0x5A17 →
      ∃ t, exec (.registerWrite r rGLB_SWRESET 4 v) s = .next t ∧ s.Recorded t rGLB_SWRESET 3)

/-- A read of an _LO register latches the current _HI value for its requester alone, and a read of _HI answers what that requester
latched, 0 after reset (R6). -/
def Obligations.LoReadLatchesHiForItsRequester : Prop := ∀ (s : State) (r : Requester) (a : Nat) (g : RegSpec),
  s.unreachable r = false → s.bootShut r a = false → s.bootShut r (a + 4) = false →
  (∀ t, r ≠ .tenant t) → s.powered a = true → s.powered (a + 4) = true → a % 4 = 0 →
  s.readAddr r a = some a → s.readAddr r (a + 4) = some (a + 4) → specAt a = some g → g.pair = .lo →
  (∃ h, specAt (a + 4) = some h ∧ h.pair = .hi) →
    ∃ t u, exec (.loRead r a 4) s = .next t ∧ t.rdata = s.view32 a % 2 ^ 32 ∧
      { t with latches := s.latches, rdata := s.rdata } = s ∧
      (∀ r' b, b < 2 ^ 26 → r' ≠ r ∨ b ≠ a → tabGet 0 t.latches (latchKey r' b) = tabGet 0 s.latches (latchKey r' b)) ∧
      exec (.loRead r (a + 4) 4) t = .next u ∧ u.rdata = s.view32 (a + 4) % 2 ^ 32 ∧ { u with rdata := t.rdata } = t ∧
      tabGet 0 State.reset.latches (latchKey r a) = 0

/-- A management-cluster read of an RC counter answers its value and clears it; a host read answers it and leaves it (R7, R35). -/
def Obligations.CounterReadClearsForTheManagementCluster : Prop := ∀ (s : State) (r : Requester) (a : Nat) (g : RegSpec),
  s.unreachable r = false → s.bootShut r a = false → (∀ t, r ≠ .tenant t) → s.powered a = true → a % 4 = 0 →
  s.readAddr r a = some a → specAt a = some g → g.pair = .single → g.fields = [⟨0, 32, .rc, .keep⟩] →
    ∃ t, exec (.rcCounterRead r a 4) s = .next t ∧ t.rdata = s.view32 a % 2 ^ 32 ∧
      (r = .mc → t.reg (counterHome a) = 0 ∧ { t with regs := s.regs, rdata := s.rdata } = s ∧ s.RegsBut t [counterHome a]) ∧
      (isHost r = true → { t with rdata := s.rdata } = s)

/-- An aligned 64-bit access of a host is two 32-bit accesses, lower address first; a read of an _LO/_HI pair answers both halves of
one value (R32). -/
def Obligations.Host64BitAccessIsTwoAccesses : Prop := ∀ (s : State) (r : Requester) (a v : Nat) (g h : RegSpec),
  isHost r = true → s.unreachable r = false → a % 8 = 0 →
    (∃ t u, exec (.registerWrite r a 4 (v % 2 ^ 32)) s = .next t ∧
      exec (.registerWrite r (a + 4) 4 (v / 2 ^ 32 % 2 ^ 32)) t = .next u ∧ exec (.host64bitAccess r true a v) s = .next u) ∧
    (s.bootShut r a = false → s.bootShut r (a + 4) = false → s.powered a = true → s.powered (a + 4) = true →
      s.readAddr r a = some a → s.readAddr r (a + 4) = some (a + 4) → specAt a = some g → g.pair = .lo →
      specAt (a + 4) = some h → h.pair = .hi →
      ∃ t, exec (.host64bitAccess r false a v) s = .next t ∧
        t.rdata = s.view32 a % 2 ^ 32 + 2 ^ 32 * (s.view32 (a + 4) % 2 ^ 32) ∧
        { t with latches := s.latches, rdata := s.rdata } = s)

/-! ## Device states -/

/-- RUN, TEST and RECOVERY are taken on the conditions of the state transition table (R21): the state changes, source 0 is raised, and
RESULT reads done. -/
def Obligations.StateRequestChangesState : Prop := ∀ (s : State) (r : Requester) (tie : Bool),
  s.reaches r rGLB_STATE_CTL → (tie = true → isMc r = true) → s.swapBusy = false → s.flag GLB_DEVSTATE_TRANS_BUSY = false →
    (s.inState .startUp = true ∨ s.inState .test = true ∨ s.inState .recovery = true →
      s.isCond .A .inService = true ∨ s.isCond .B .inService = true → s.flag GLB_DEVSTATE_SAFE = false →
      ∃ t, exec (.reqRun r tie) s = .next t ∧ s.EntersState t 2) ∧
    (s.inState .run = true → ∃ t, exec (.reqTest r tie) s = .next t ∧ s.EntersState t 3) ∧
    (s.inState .run = true ∨ s.inState .test = true → ∃ t, exec (.reqRecovery r tie) s = .next t ∧ s.EntersState t 4)

/-- A state request is refused BUSY during a swap, while an earlier one is in progress, beside one of the management cluster in the
same clock, and a sleep request while the shadow is APPLYING; ILLEGAL where the table has no such transition; NOT_READY where its
condition fails. Only RESULT changes (R23, R24, R39). -/
def Obligations.StateRequestRefusals : Prop := ∀ (s : State) (r : Requester) (tie : Bool) (k : Nat), 1 ≤ k → k ≤ 5 →
  s.reaches r rGLB_STATE_CTL →
    let busy := (tie = true ∧ isMc r = false) ∨ s.swapBusy = true ∨ s.flag GLB_DEVSTATE_TRANS_BUSY = true ∨
      (4 ≤ k ∧ s.fld CHT_STATUS_SHADOW = 6)
    let legal := ∃ d ∈ requestFrom k, s.inState d = true
    let ready := if k = 1 then (s.isCond .A .inService = true ∨ s.isCond .B .inService = true) ∧ s.flag GLB_DEVSTATE_SAFE = false
      else if k = 4 then s.maySleep false = true else if k = 5 then s.maySleep true = true else True
    (busy → ∃ t, exec (requestCommand k r tie) s = .next t ∧ t.fld GLB_STATE_CTL_RESULT = 3 ∧ s.OnlyRegs t [rGLB_STATE_CTL]) ∧
    (¬ busy → ¬ legal → ∃ t, exec (requestCommand k r tie) s = .next t ∧ t.fld GLB_STATE_CTL_RESULT = 4 ∧
      s.OnlyRegs t [rGLB_STATE_CTL]) ∧
    (¬ busy → legal → ¬ ready → ∃ t, exec (requestCommand k r tie) s = .next t ∧ t.fld GLB_STATE_CTL_RESULT = 5 ∧
      s.OnlyRegs t [rGLB_STATE_CTL])

/-! ## Resets, boot, sleep and power -/

/-- Every reset but power-on sets its own bit of GLB_RESET_CAUSE and keeps the bits already set, keeps D0 (the AO counter and the wake
records), clears the charts and the error FIFO, leads to BOOT and leaves the waiting commands (R21, R38). -/
def Obligations.ResetSetsItsCauseAndKeepsD0 : Prop := ∀ (s : State) (r : Requester) (key : Nat),
    (∃ t, exec (.resetNLow true) s = .next t ∧ s.WasReset t 1) ∧
    (∃ t, exec (.pwrGoodLow true) s = .next t ∧ s.WasReset t 2) ∧
    (∃ t, exec .supplyMonitorReset s = .next t ∧ s.WasReset t 7) ∧
    (∃ t, exec .thermalReset s = .next t ∧ s.WasReset t 5) ∧
    (s.flag DBG_STATUS_AUTH = true → ∃ t, exec .debugReset s = .next t ∧ s.WasReset t 6) ∧
    (s.reaches r rGLB_SWRESET → key = 0x5A17 → ∃ t, exec (.glbSwreset r key true) s = .next t ∧ s.WasReset t 3)

/-- A power-on reset puts every register at its reset value, so GLB_RESET_CAUSE holds POR alone, clears the AO counter and the wake
records, and leaves the commands that wait and the memories of the hosts (R38). -/
def Obligations.PowerOnResetClearsEveryCause : Prop := ∀ s : State, ∃ t, exec .powerOnReset s = .next t ∧
  (∀ a, t.reg a = resetValue a) ∧ t.reg rGLB_RESET_CAUSE = 1 ∧ t.ao = 0 ∧ t.wrec = [] ∧ t.active = [] ∧ t.pwr.inReset = true ∧
  t.pending = s.pending ∧ t.host0 = s.host0 ∧ t.host1 = s.host1

/-- The boot sequence: the release of reset starts step 1, the reference and the PLLs lock in steps 1 and 2, a random generator that
fails its test ends the boot with code 2 at step 4, step 6 raises the floor with a firmware image that verifies, step 9 hands over, and Plane B joins after it. A step that
ends in reset or after a failure does nothing (R517 to R520). -/
def Obligations.BootSequenceSteps : Prop := ∀ (s : State) (o : BootOutcome) (mode : Nat) (n : Bool),
    (s.pwr.inReset = true → exec (.resetRelease mode n) s = .next (s.release1 mode n)) ∧
    (s.pwr.inReset = false → s.pwr.halted = false →
      (s.pwr.boot = 1 → ∃ t, exec (.bootStepDone o) s = .next t ∧ t.fld CLK_STATUS_REF_OK = 1 ∧ t.pwr = { s.pwr with boot := 2 } ∧
        { t with regs := s.regs, pwr := s.pwr } = s ∧ s.RegsBut t [rCLK_STATUS]) ∧
      (s.pwr.boot = 2 → ∃ t, exec (.bootStepDone o) s = .next t ∧ t.fld CLK_STATUS_PLL_CORE = 1 ∧ t.fld CLK_STATUS_PLL_MC = 1 ∧
        t.fld CLK_STATUS_PLL_TS = 1 ∧ t.pwr = { s.pwr with boot := 3 } ∧ s.RegsBut t [rCLK_STATUS, rPWR_BOOT_STATUS]) ∧
      (s.pwr.boot = 4 → o.trngOk = false → exec (.bootStepDone o) s = .next (s.bootFail 2)) ∧
      (s.pwr.boot = 6 → exec (.bootStepDone o) s = .next (if s.fwVerifies o then
        (if s.fld CHT_FLOOR_FLOOR < dirFloor s.pwr.dir then s.put CHT_FLOOR_FLOOR (dirFloor s.pwr.dir) else s).bootStep 7
        else s.bootRetry 5)) ∧
      (s.pwr.boot = 9 → exec (.bootStepDone o) s = .next s.bootHandover)) ∧
    (s.pwr.inReset = true ∨ s.pwr.halted = true → exec (.bootStepDone o) s = .next s) ∧
    (s.reaches .hi0 rPWR_HOSTBOOT_GO → s.inState .boot = true → s.fld GLB_STRAP_BOOT_MODE = 1 →
      exec (.pwrHostbootGo .hi0 true) s = .next { s with pwr := { s.pwr with hostGo := true } }) ∧
    (s.pwr.joinB = true → s.pwr.sleep = 0 → s.isCond .B .isolated = true → s.redBusy = none → (s.rebuilt .B).isCond .B .resync = true →
      exec .bootPlaneBJoin s =
        .next { (s.rebuilt .B).resynced .B with pwr := { ((s.rebuilt .B).resynced .B).pwr with joinB := false } })

/-- A sleep request that no rule refuses starts step 1 of the sleep entry, a step that ends leads to the next, and at its end the device
counts the sleep, shows which one it is, and stays asleep while no wake event waits; SLEEP-D empties the shadow (R23, R25, R51, R507,
R508). -/
def Obligations.SleepIsEnteredInSteps : Prop := ∀ (s : State) (r : Requester) (tie : Bool),
    (s.reaches r rGLB_STATE_CTL → (tie = true → isMc r = true) → s.swapBusy = false → s.flag GLB_DEVSTATE_TRANS_BUSY = false →
      s.fld CHT_STATUS_SHADOW ≠ 6 → s.inState .run = true →
      (s.maySleep false = true → exec (.reqSleepR r tie) s = .next (s.startSleep false)) ∧
      (s.maySleep true = true → exec (.reqSleepD r tie) s = .next (s.startSleep true))) ∧
    (s.pwr.sleep = 4 → exec .sleepEntryAdvance s = .next (s.powerOff.sleepAt 5)) ∧
    (s.pwr.sleep = 5 → s.pwr.wakes = [] → ∃ t, exec .sleepEntryAdvance s = .next t ∧ t.pwr = { s.pwr with sleep := 6 } ∧
      t.fld GLB_DEVSTATE_LAST_SLEEP = (if s.pwr.sleepD then 2 else 1) ∧
      t.fld PWR_SLEEP_CNT_VAL = (s.fld PWR_SLEEP_CNT_VAL + 1) % 2 ^ PWR_SLEEP_CNT_VAL.wid ∧
      { t with regs := s.regs, pwr := s.pwr, shadow := s.shadow } = s ∧
      (s.pwr.sleepD = false → t.shadow = s.shadow ∧ s.RegsBut t [rGLB_DEVSTATE, rPWR_SLEEP_CNT]) ∧
      (s.pwr.sleepD = true → t.shadow = [] ∧ t.fld CHT_STATUS_SHADOW = 0 ∧ t.fld CHT_CTL_OWNER = 0 ∧
        s.RegsBut t [rGLB_DEVSTATE, rPWR_SLEEP_CNT, rCHT_STATUS, rCHT_CTL, rCHT_DIFF, rCHT_SHD_ID_LO, rCHT_SHD_ID_HI,
          rCHT_SHD_COUNTER]))

/-- A wake event that waits leaves the sleep state: from SLEEP-D by a cold boot with its cause SLEEPD_WAKE, from SLEEP-R through the exit
steps, whose step 3 fails to a cold boot when the retained sections fail their check. The wake timer is a wake event with source 0x10
(R25, R510 to R512). -/
def Obligations.WakeLeavesSleep : Prop := ∀ (s : State) (ev : WakeEv) (q : List WakeEv) (ok : Bool) (cores : Nat),
    (s.pwr.sleep = 6 → s.pwr.wakes = ev :: q →
      (s.pwr.sleepD = true → exec .sleepDWake s =
        .next (((s.recordWake ev).put PWR_WAKE_STATUS_SOURCE ev.src).leaveBy s.pwr.sleepD)) ∧
      (s.pwr.sleepD = false → s.pwr.exit = 0 → exec .sleepRWake s =
        .next (((s.recordWake ev).put PWR_WAKE_STATUS_SOURCE ev.src).leaveBy s.pwr.sleepD))) ∧
    (s.pwr.exit = 1 → ∃ t, exec (.wakeExitAdvance ok cores) s = .next t ∧ t.fld CLK_STATUS_REF_OK = 1 ∧
      t.pwr = { s.pwr with exit := 2 } ∧ { t with regs := s.regs, pwr := s.pwr } = s ∧ s.RegsBut t [rCLK_STATUS]) ∧
    (s.pwr.exit = 3 → exec (.wakeExitAdvance true cores) s = .next s.resumed ∧
      exec (.wakeExitAdvance false cores) s = .next s.retainErr) ∧
    (s.flag PWR_WAKE_CFG_TIMER_EN = true → s.fld64 PWR_WAKE_TIMER_LO_AO PWR_WAKE_TIMER_HI_AO ≤ s.ao →
      exec .wakeTimer s = .next (s.deviceWake 0x10))

/-- A write of PWR_DOM_CTL is refused while a swap runs or the shadow is APPLYING, and for a domain that is still needed, with only RESULT
changed. Else the domains go down and up, RESULT reads done and DOM_DONE is raised (R506). -/
def Obligations.DomainWriteIsRefusedOrDone : Prop := ∀ (s : State) (r : Requester) (off : Nat), s.reaches r rPWR_DOM_CTL →
    (s.swapBusy = true ∨ s.fld CHT_STATUS_SHADOW = 6 → ∃ t, exec (.pwrDomWrite r off) s = .next t ∧ t.fld PWR_DOM_CTL_RESULT = 3 ∧
      s.OnlyRegs t [rPWR_DOM_CTL]) ∧
    (s.swapBusy = false → s.fld CHT_STATUS_SHADOW ≠ 6 → (s.domDowns off).any s.domPinned = true →
      ∃ t, exec (.pwrDomWrite r off) s = .next t ∧ t.fld PWR_DOM_CTL_RESULT = 6 ∧ s.OnlyRegs t [rPWR_DOM_CTL]) ∧
    (s.swapBusy = false → s.fld CHT_STATUS_SHADOW ≠ 6 → (s.domDowns off).any s.domPinned = false →
      ∃ t, exec (.pwrDomWrite r off) s = .next t ∧ t.fld PWR_DOM_CTL_RESULT = 2 ∧ t.fld PWR_EVT_DOM_DONE = 1)

/-! ## The chart -/

/-- A command of CHT_CTL is refused BUSY beside one of the management cluster in the same clock or while one is in progress, and
NOT_OWNER from another requester than the owner of a shadow that is not EMPTY; then only RESULT changes (R52, R54). -/
def Obligations.ChartCommandRefusals : Prop := ∀ (s : State) (r : Requester) (tie late : Bool) (c : Instr), s.reaches r rCHT_CTL →
    c ∈ [.chtOpen r tie, .chtVerify r tie, .chtArm r tie, .chtDisarm r tie late, .chtDiscard r tie, .chtAbortSwap r tie late] →
    ((tie = true ∧ isMc r = false) ∨ s.fld CHT_CTL_RESULT = 1 → ∃ t, exec c s = .next t ∧ t.fld CHT_CTL_RESULT = 3 ∧
      s.OnlyRegs t [rCHT_CTL]) ∧
    ((tie = true → isMc r = true) → s.fld CHT_CTL_RESULT ≠ 1 → s.fld CHT_STATUS_SHADOW ≠ 0 → s.fld CHT_CTL_OWNER ≠ ownerCode r →
      (c = .chtDiscard r tie → isMc r = false) → ∃ t, exec c s = .next t ∧ t.fld CHT_CTL_RESULT = 5 ∧ s.OnlyRegs t [rCHT_CTL])

/-- OPEN of an EMPTY or REJECTED shadow takes the ownership and makes it LOADING; VERIFY of a LOADING shadow makes it VERIFYING; DISCARD of a
LOADING, VERIFIED or REJECTED shadow makes it EMPTY without an owner. The staged bytes stay (R51, R52). -/
def Obligations.ShadowCommandsChangeItsState : Prop := ∀ (s : State) (r : Requester) (tie : Bool), s.reaches r rCHT_CTL →
  (tie = true → isMc r = true) → s.fld CHT_CTL_RESULT ≠ 1 → (∀ t, r ≠ .tenant t) →
    (s.fld CHT_STATUS_SHADOW = 0 → ∃ t, exec (.chtOpen r tie) s = .next t ∧ t.fld CHT_STATUS_SHADOW = 1 ∧
      t.fld CHT_CTL_OWNER = ownerCode r ∧ t.fld CHT_CTL_RESULT = 2 ∧ s.OnlyRegs t [rCHT_CTL, rCHT_STATUS]) ∧
    (s.fld CHT_CTL_OWNER = ownerCode r →
      (s.fld CHT_STATUS_SHADOW = 1 → ∃ t, exec (.chtVerify r tie) s = .next t ∧ t.fld CHT_STATUS_SHADOW = 2 ∧
        t.fld CHT_CTL_RESULT = 1 ∧ s.OnlyRegs t [rCHT_CTL, rCHT_STATUS]) ∧
      (s.fld CHT_STATUS_SHADOW ∈ [1, 3, 4] → ∃ t, exec (.chtDiscard r tie) s = .next t ∧ t.fld CHT_STATUS_SHADOW = 0 ∧
        t.fld CHT_CTL_OWNER = 0 ∧ t.fld CHT_CTL_RESULT = 2 ∧
        s.OnlyRegs t [rCHT_CTL, rCHT_STATUS, rCHT_DIFF, rCHT_SHD_ID_LO, rCHT_SHD_ID_HI, rCHT_SHD_COUNTER]))

/-- A write of the shadow window stores its four bytes, little-endian, at their place of the shadow area while the shadow is LOADING and
the requester owns it, and changes no other byte; else it is ignored and WIN_REJECT is set (R3, R53). -/
def Obligations.ShadowWindowWriteStoresFourBytes : Prop := ∀ (s : State) (r : Requester) (a v : Nat), s.reaches r a →
  a % 4 = 0 → 0x140000 ≤ a → a < 0x200000 →
    (s.fld CHT_STATUS_SHADOW = 1 → s.fld CHT_CTL_OWNER = ownerCode r → ∃ t, exec (.shadowWindowWrite r a v) s = .next t ∧
      (∀ i < 4, memGet t.shadow (a - 0x140000 + i) = BitVec.ofNat 8 (v / 2 ^ (8 * i))) ∧
      (∀ b, b < a - 0x140000 ∨ a - 0x140000 + 4 ≤ b → memGet t.shadow b = memGet s.shadow b) ∧
      { t with shadow := s.shadow } = s) ∧
    (s.fld CHT_STATUS_SHADOW ≠ 1 ∨ s.fld CHT_CTL_OWNER ≠ ownerCode r → ∃ t, exec (.shadowWindowWrite r a v) s = .next t ∧
      t.fld CHT_STATUS_WIN_REJECT = 1 ∧ s.OnlyRegs t [rCHT_STATUS])

/-- CHT_FLOOR only rises: a higher value written takes effect, any other is ignored (R49). -/
def Obligations.ChartFloorOnlyRises : Prop := ∀ (s : State) (r : Requester) (v : Nat), s.reaches r rCHT_FLOOR → v < 2 ^ 32 →
  ∃ t, exec (.chtFloorWrite r v) s = .next t ∧ t.fld CHT_FLOOR_FLOOR = max (s.fld CHT_FLOOR_FLOOR) v ∧ s.OnlyRegs t [rCHT_FLOOR]

/-- The end of a verification: the shadow's identity and counter are shown; with a first failing check it is REJECTED with that error,
else VERIFIED with its kind and its differing sections; both raise source 188 and end the command (R47, R50). -/
def Obligations.VerificationEndsVerifiedOrRejected : Prop := ∀ (s : State), s.fld CHT_STATUS_SHADOW = 2 →
    (∃ t, exec .verifyDone s = .next t ∧ 188 ∈ t.pulses ∧ t.shadow = s.shadow ∧ t.active = s.active ∧
      t.fld CHT_STATUS_SHADOW = (if (s.chartErr s.shadow none (max (s.fld CHT_FLOOR_FLOOR) (s.fld CHT_ACT_COUNTER_COUNTER))).isSome
        then 4 else 3) ∧
      (∀ e, s.chartErr s.shadow none (max (s.fld CHT_FLOOR_FLOOR) (s.fld CHT_ACT_COUNTER_COUNTER)) = some e →
        t.fld CHT_ERR_VALID = 1 ∧ t.fld CHT_ERR_CODE = e.code % 2 ^ CHT_ERR_CODE.wid))

/-- ARM of a VERIFIED chart, DISARM of an ARMED hot one, ABORT_SWAP of an ARMED cold one, and the race with the downbeat or the commit
of a chart that is ready, which wins: it takes effect, and the command reads ALREADY_DONE (R51, R56, R62, R63, R69). -/
def Obligations.ArmDisarmAbort : Prop := ∀ (s : State) (r : Requester) (tie late : Bool), s.reaches r rCHT_CTL →
  (tie = true → isMc r = true) → s.fld CHT_CTL_RESULT ≠ 1 → s.fld CHT_CTL_OWNER = ownerCode r →
    (s.fld CHT_STATUS_SHADOW = 3 → s.flag CLK_STATUS_PLL_TS = true → s.fld CHT_STATUS_KIND ≠ 3 → s.differs tySTREAMS = false →
      ∃ t, exec (.chtArm r tie) s = .next t ∧ t.fld CHT_STATUS_SHADOW = 5 ∧ t.fld CHT_CTL_RESULT = 2 ∧
        s.OnlyRegs t [rCHT_CTL, rCHT_STATUS]) ∧
    (s.fld CHT_STATUS_SHADOW = 5 → s.fld CHT_STATUS_KIND ≠ 3 →
      (late = false ∨ s.flag CHT_STATUS_READY = false ∨ s.cht.back = true →
        exec (.chtDisarm r tie late) s = .next (s.disarmShadow.chResult 2)) ∧
      (late = true → s.flag CHT_STATUS_READY = true → s.cht.back = false →
        exec (.chtDisarm r tie late) s = .next (s.hotBeat.chResult 8))) ∧
    (s.fld CHT_STATUS_SHADOW = 5 → s.fld CHT_STATUS_KIND = 3 → s.cht.back = false →
      (late = false ∨ s.flag CHT_STATUS_READY = false →
        exec (.chtAbortSwap r tie late) s = .next ((s.chResult 1).swapBack)) ∧
      (late = true → s.flag CHT_STATUS_READY = true →
        exec (.chtAbortSwap r tie late) s = .next (s.swapCommit.chResult 8))) ∧
    (late = true → s.fld CHT_STATUS_SHADOW = 6 →
      (s.fld CHT_STATUS_KIND ≠ 3 → exec (.chtDisarm r tie late) s = .next (s.chResult 8)) ∧
      (s.fld CHT_STATUS_KIND = 3 → exec (.chtAbortSwap r tie late) s = .next (s.chResult 8)))

/-- Preparation, the downbeat once TB0 has reached it, the deletion of the old epoch and the steps of the rolling swap, each in the state
in which it acts (R56 to R60, R64, R65). -/
def Obligations.ChartTakesEffectInSteps : Prop := ∀ (s : State),
    (s.fld CHT_STATUS_SHADOW = 5 → s.flag CHT_STATUS_READY = false → s.fld CHT_STATUS_KIND ≠ 3 →
      s.differs tyRULES = false → s.differs tySTREAMS = false → exec .preparationComplete s = .next s.chReady) ∧
    (s.fld CHT_STATUS_SHADOW = 5 → s.flag CHT_STATUS_READY = true → s.cht.back = false →
      ctLater (s.fld64 CHT_DOWNBEAT_LO_TIME CHT_DOWNBEAT_HI_TIME) s.nowCt = false →
      exec .chartDownbeat s = .next (if s.fld CHT_STATUS_KIND = 3 then s.swapCommit else s.hotBeat)) ∧
    (s.hotBeat.fld CHT_STATUS_SHADOW = 6 ∧ 189 ∈ s.hotBeat.pulses) ∧
    (s.fld CHT_STATUS_SHADOW = 6 → (s.dropEpoch (1 - s.epoch)).swapBusy = false →
      exec .oldEpochDeleteDone s = .next ((s.dropEpoch (1 - s.epoch)).setShadow 0)) ∧
    (s.swapBusy = true → exec .swapRebuildDone s = .next s.swapRebuilt) ∧
    (s.swapBusy = true → exec .swapResyncDone s = .next s.swapResynced) ∧
    (s.planeA.handing = false → s.planeB.handing = true → (s.drainEnd .B).swapBusy = true →
      exec .handoverDrainEnd s = .next ((s.drainEnd .B).putStep ((s.drainEnd .B).swapStep + 1)))

/-! ## Ports and frames -/

/-- The way of a link up: lock, the end of a remote fault and a ready PHY start the debounce once every condition holds, the end of the
debounce declares the link up with its speed and starts preemption or its verification, and auto-negotiation that gives a speed outside
the mode is reported (R74, R82, R84, R88, R94).
The ways of a link down: lost lock, a remote fault, ADMIN_DOWN, a lost beacon (R85, R86, R87, R94). A link that goes down with nothing
in transmission holds its queues, with its speed and preemption cleared. -/
def Obligations.PortLinkChanges : Prop :=
  (∀ (s : State) (p speed : Nat),
    (p < 24 → s.portOn p = true →
      (∃ t, exec (.pcsLockAcquire p .lock) s = .next t ∧ t.flag (ETH_STATUS_PCS_LOCK p) = true ∧
        bitOf (t.fld CLK_STATUS_SQ) (p / 4) = true ∧ (t.port p).debounce = (t.linkReady p && !t.linkUp p) ∧
        { t with regs := s.regs, ports := s.ports } = s ∧ s.RegsBut t [rETH_STATUS p, rCLK_STATUS]) ∧
      (∃ t, exec (.pcsLockAcquire p .faultClear) s = .next t ∧ t.flag (ETH_STATUS_REMOTE_FAULT p) = false ∧
        (t.port p).debounce = (t.linkReady p && !t.linkUp p) ∧
        { t with regs := s.regs, ports := s.ports } = s ∧ s.RegsBut t [rETH_STATUS p])) ∧
    (24 ≤ p → p < 32 → s.portOn p = true → (s.port p).tc10 = false →
      ∃ t, exec (.pcsLockAcquire p .phyReady) s = .next t ∧ t.flag (T1S_STATUS_PHY_READY (p - 24)) = true ∧
        t.flag (T1S_STATUS_PLCA_STATUS (p - 24)) =
          (s.fld (T1S_CFG_NODE_ID (p - 24)) == 0 || s.flag (T1S_STATUS_PLCA_STATUS (p - 24))) ∧
        (t.port p).debounce = (t.linkReady p && !t.linkUp p) ∧
        { t with regs := s.regs, ports := s.ports } = s ∧ s.RegsBut t [rT1S_STATUS (p - 24)]) ∧
    (p < 24 → s.linkUp p = false → (s.port p).debounce = true → s.linkReady p = true →
      ∃ t, exec (.linkUpDebounce p) s = .next t ∧ t.linkUp p = true ∧ t.holding p = false ∧ t.portFlushed p = false ∧
        t.fld (ETH_STATUS_SPEED p) = s.speedOf p % 8 ∧ t.flag (ETH_EVT_LINK_UP p) = true ∧ (t.port p).debounce = false ∧
        (s.flag (ETH_CFG_PREEMPT p) = true → s.flag (ETH_CFG_VERIFY p) = true → t.fld (ETH_STATUS_VERIFY_ST p) = 1) ∧
        (s.flag (ETH_CFG_PREEMPT p) = true → s.flag (ETH_CFG_VERIFY p) = false → t.preempts p = true) ∧
        { t with regs := s.regs, ports := s.ports } = s ∧
        s.RegsBut t [rETH_STATUS p, rETH_EVT p, rCAR_PORT_STAT p, rCAR_EVT]) ∧
    (24 ≤ p → p < 32 → s.linkUp p = false → (s.port p).debounce = true → s.linkReady p = true →
      ∃ t, exec (.linkUpDebounce p) s = .next t ∧ t.linkUp p = true ∧ t.holding p = false ∧ t.portFlushed p = false ∧
        t.flag (T1S_EVT_LINK_UP (p - 24)) = true ∧ (t.port p).debounce = false ∧
        { t with regs := s.regs, ports := s.ports } = s ∧ s.RegsBut t [rT1S_STATUS (p - 24), rT1S_EVT (p - 24)]) ∧
    ((s.port p).debounce = false ∨ s.linkReady p = false → exec (.linkUpDebounce p) s = .next s) ∧
    (p < 24 → s.portEnabled p = true → modeHasAn (s.fld (ETH_CFG_MODE p)) = true → s.flag (ETH_STATUS_PCS_LOCK p) = true →
      (anLists (s.fld (ETH_CFG_MODE p)) speed = true → s.linkUp p = false →
        ∃ t, exec (.anResult p speed) s = .next t ∧ t.flag (ETH_STATUS_AN_DONE p) = true ∧ (t.port p).anSpeed = speed ∧
          (t.port p).debounce = (t.linkReady p && !t.linkUp p) ∧
          { t with regs := s.regs, ports := s.ports } = s ∧ s.RegsBut t [rETH_STATUS p]) ∧
      (anLists (s.fld (ETH_CFG_MODE p)) speed = false →
        ∃ t, exec (.anResult p speed) s = .next t ∧ t.flag (ETH_STATUS_AN_DONE p) = false ∧
          t.flag (ETH_EVT_SPEED_UNSUP p) = true ∧ s.OnlyRegs t [rETH_STATUS p, rETH_EVT p]))) ∧
  (∀ (s : State) (r : Requester) (p n : Nat),
    (p < 24 → s.portOn p = true →
      exec (.linkFault p true) s = .next ((if s.flag (ETH_STATUS_REMOTE_FAULT p) then s
        else (s.put (ETH_STATUS_REMOTE_FAULT p) 1).setFlag (ETH_EVT_REMOTE_FAULT p)).linkLost p) ∧
      (modeHasAn (s.fld (ETH_CFG_MODE p)) = false →
        exec (.linkFault p false) s = .next ((s.put (ETH_STATUS_PCS_LOCK p) 0).linkLost p)) ∧
      (modeHasAn (s.fld (ETH_CFG_MODE p)) = true →
        exec (.linkFault p false) s = .next (((s.put (ETH_STATUS_PCS_LOCK p) 0).put (ETH_STATUS_AN_DONE p) 0).linkLost p))) ∧
    (24 ≤ p → p < 32 → s.portOn p = true → s.linkUp p = false →
      ∃ t, exec (.linkFault p false) s = .next t ∧ t.flag (T1S_STATUS_PHY_READY (p - 24)) = false ∧
        t.flag (T1S_STATUS_PLCA_STATUS (p - 24)) = false ∧ (t.port p).debounce = false ∧
        { t with regs := s.regs, ports := s.ports } = s ∧ s.RegsBut t [rT1S_STATUS (p - 24)]) ∧
    (p < 24 → s.reaches r (rETH_CTL p) → s.linkUp p = true → (s.port p).tx = none → (s.port p).txp = none →
      s.fld (ETH_CTL_HOLD_MS p) ≠ 0 → ∃ t, exec (.adminDownWrite r p true) s = .next t ∧
        t.flag (ETH_CTL_ADMIN_DOWN p) = true ∧ t.linkUp p = false ∧ t.holding p = true ∧ t.fld (ETH_STATUS_SPEED p) = 0 ∧
        t.preempts p = false ∧ t.fld (ETH_STATUS_VERIFY_ST p) = 0 ∧ t.flag (ETH_EVT_LINK_DOWN p) = true ∧
        { t with regs := s.regs, ports := s.ports } = s ∧ s.RegsBut t [rETH_CTL p, rETH_STATUS p, rETH_EVT p]) ∧
    (p < 24 → s.reaches r (rETH_CTL p) → ∃ t, exec (.adminDownWrite r p false) s = .next t ∧
      t.flag (ETH_CTL_ADMIN_DOWN p) = false ∧ (t.port p).debounce = (t.linkReady p && !t.linkUp p) ∧
      { t with regs := s.regs, ports := s.ports } = s ∧ s.RegsBut t [rETH_CTL p]) ∧
    (n < 8 → s.portEnabled (24 + n) = true → s.fld (T1S_CFG_NODE_ID n) ≠ 0 → s.flag (T1S_STATUS_PHY_READY n) = true →
      s.flag (T1S_STATUS_PLCA_STATUS n) = false → ∃ t, exec (.plcaBeacon n) s = .next t ∧
        t.flag (T1S_STATUS_PLCA_STATUS n) = true ∧ (t.port (24 + n)).debounce = (t.linkReady (24 + n) && !t.linkUp (24 + n)) ∧
        { t with regs := s.regs, ports := s.ports } = s ∧ s.RegsBut t [rT1S_STATUS n]) ∧
    (n < 8 → s.fld (T1S_CFG_NODE_ID n) ≠ 0 → s.flag (T1S_STATUS_PLCA_STATUS n) = true →
      exec (.beaconTimeout n) s = .next ((s.put (T1S_STATUS_PLCA_STATUS n) 0).linkLost (24 + n))))

/-- A hold that ends flushes the port's queues in both planes, but a link-up that falls in the same clock wins; HOLD_MS takes at most 1000; three further verify mPackets
go out before verification of preemption fails, and a respond mPacket ends it well; a collision is tried again up to the sixteenth attempt (R82, R83, R89,
R90, R91, R95). -/
def Obligations.HoldVerificationAndCollision : Prop := ∀ (s : State) (r : Requester) (p n ms : Nat) (elapsed tie : Bool) (f : TxFrame),
    (p < 32 → s.holding p = true →
      (tie = false ∨ (s.port p).debounce = false ∨ s.linkReady p = false →
        exec (.holdExpire p tie) s = .next (s.endHold p)) ∧
      (tie = true → (s.port p).debounce = true → s.linkReady p = true →
        exec (.holdExpire p tie) s = exec (.linkUpDebounce p) s)) ∧
    (s.holding p = false → exec (.holdExpire p tie) s = .next s) ∧
    (p < 24 → s.reaches r (rETH_CTL p) → s.holding p = false → ms < 1024 →
      ∃ t, exec (.holdMsWrite r p ms elapsed) s = .next t ∧ t.holdMs p = min ms 1000 ∧ s.OnlyRegs t [rETH_CTL p]) ∧
    (p < 24 → s.reaches r (rETH_CTL p) → s.holding p = true → elapsed = true ∨ ms % 1024 = 0 →
      exec (.holdMsWrite r p ms elapsed) s = .next ((s.put (ETH_CTL_HOLD_MS p) (min (ms % 1024) 1000)).endHold p)) ∧
    (p < 24 → s.fld (ETH_STATUS_VERIFY_ST p) = 1 →
      ((s.port p).verifyN < 3 → ∃ t, exec (.verifyMpacketTimer p) s = .next t ∧ (t.port p).verifyN = (s.port p).verifyN + 1 ∧
        { t with ports := s.ports } = s) ∧
      (3 ≤ (s.port p).verifyN → ∃ t, exec (.verifyMpacketTimer p) s = .next t ∧ t.fld (ETH_STATUS_VERIFY_ST p) = 3 ∧
        t.flag (ETH_EVT_VERIFY_FAIL p) = true ∧ s.OnlyRegs t [rETH_STATUS p, rETH_EVT p])) ∧
    (p < 24 → s.fld (ETH_STATUS_VERIFY_ST p) = 1 ∨ s.fld (ETH_STATUS_VERIFY_ST p) = 3 → 0 < (s.port p).verifyN →
      ∃ t, exec (.respondMpacket p) s = .next t ∧ t.fld (ETH_STATUS_VERIFY_ST p) = 2 ∧ t.preempts p = true ∧
        s.OnlyRegs t [rETH_STATUS p]) ∧
    (n < 8 → (s.port (24 + n)).tx = some f → (s.port (24 + n)).retry = false → (s.port (24 + n)).attempts < 15 →
      ∃ t, exec (.t1sCollision n) s = .next t ∧ (t.port (24 + n)).attempts = (s.port (24 + n)).attempts + 1 ∧
        (t.port (24 + n)).tx = some f ∧ (t.port (24 + n)).retry = true ∧ t.flag (T1S_EVT_CONFLICT n) = true ∧
        { t with regs := s.regs, ports := s.ports } = s ∧ s.RegsBut t [rT1S_CONFLICT_CNT n, rT1S_EVT n]) ∧
    (n < 8 → (s.port (24 + n)).tx = some f → (s.port (24 + n)).retry = false → 15 ≤ (s.port (24 + n)).attempts → exec (.t1sCollision n) s =
      .next (((s.inc (T1S_CONFLICT_CNT_VAL n)).setFlag (T1S_EVT_CONFLICT n)).abortPort (24 + n)))

/-- A frame received at a port: nothing in sleep or with the link down; a MAC control frame that fails no check is counted and goes no
further, one that is too long, too short or has a bad FCS is counted with RX_ERR; any other holds its buffers, and at its end is
forwarded or gives them back (R10, R11, R77, R78, R79). A fragment context that ages is gone and counted (R107). -/
def Obligations.FrameIsCheckedAtItsPort : Prop := ∀ (s : State) (p age i : Nat) (b : List Byte) (rx : RxCond) (pl : Plane),
    (32 ≤ p ∨ s.portOn p = false ∨ s.pwr.sleep ≠ 0 ∨ (s.linkUp p = false ∧ rx ≠ .cutOff) →
      exec (.frameReceive p b rx age) s = .next s) ∧
    (p < 24 → s.portOn p = true → s.pwr.sleep = 0 → s.linkUp p = true → isControl b = true →
      (rxCheck (s.rxMax p) b rx = none →
        exec (.frameReceive p b rx age) s = .next ((s.rxPass p b.length).inc (ETH_RX_CTRL_CNT_VAL p))) ∧
      (rxCheck (s.rxMax p) b rx = some .runt → ∃ t, exec (.frameReceive p b rx age) s = .next t ∧
        t.fld (ETH_RX_RUNT_CNT_VAL p) = (s.fld (ETH_RX_RUNT_CNT_VAL p) + 1) % 2 ^ (ETH_RX_RUNT_CNT_VAL p).wid ∧
        t.flag (ETH_EVT_RX_ERR p) = true ∧ s.OnlyRegs t [rETH_RX_RUNT_CNT p, rETH_EVT p])) ∧
    (p < 32 → s.portOn p = true → s.pwr.sleep = 0 → s.linkUp p = true → isControl b = false →
      ∀ s1 fs, s.hold p false (s.rxStored p b) (s.stampAgo age) age none = (s1, some fs) →
        (rxCheck (s.rxMax p) b rx = none →
          exec (.frameReceive p b rx age) s = .next ((s1.rxPass p b.length).rxForward p b fs)) ∧
        (∀ e, rxCheck (s.rxMax p) b rx = some e →
          exec (.frameReceive p b rx age) s = .next ((s1.rxFail p e).releaseAll fs))) ∧
    (i < (s.plane pl).frags.length → ∃ t, exec (.fragAge pl i) s = .next t ∧
      (t.plane pl).frags = (s.plane pl).frags.eraseIdx i ∧
      t.fld (PRS_FRAG_AGED_CNT_VAL pl) = (s.fld (PRS_FRAG_AGED_CNT_VAL pl) + 1) % 2 ^ (PRS_FRAG_AGED_CNT_VAL pl).wid ∧
      { t with regs := s.regs, planeA := s.planeA, planeB := s.planeB } = s ∧ t.plane (twinOf pl) = s.plane (twinOf pl) ∧
      s.RegsBut t [rPRS_FRAG_AGED_CNT pl])

/-! ## Tables -/

/-- Every table command: BUSY beside one of the management cluster in the same clock or while another runs, with only STATUS changed;
else it does its work and holds BUSY with the STATUS code that it will end with, and its completion shows that code, BUSY at 0 and
CMD_DONE (R140, R172, R556). That it completes with the placement clock is the model's choice (log 10). -/
def Obligations.TableCommandsEndWithAStatus : Prop := ∀ (s : State) (r : Requester) (tie wide pin : Bool) (g st : Nat) (pl : Plane)
    (c : Instr),
    (s.reaches r (rTBL_CMD .A) →
      c ∈ [.tblInsert r tie wide pin, .tblReplace r tie wide pin, .tblDelete r tie wide, .tblLookup r tie wide pl, .tblReadAt r tie g pl,
        .tblWriteAt r tie g, .tblRehash r tie g, .tblResume r tie g, .tblUnlock r tie wide, .tblFlushLearned r tie g,
        .tblLpmInsert r tie pin, .tblLpmDelete r tie, .tblLpmLookup r tie, .tblBloomRebuild r tie] →
      ((tie = true ∧ isMc r = false) ∨ s.flag (TBL_CMD_BUSY .A) = true → ∃ t, exec c s = .next t ∧ t.fld (TBL_CMD_STATUS .A) = 7 ∧
        s.OnlyRegs t [rTBL_CMD .A]) ∧
      ((tie = true → isMc r = true) → s.flag (TBL_CMD_BUSY .A) = false → ∃ t n, exec c s = .next t ∧
        t.flag (TBL_CMD_BUSY .A) = true ∧ t.tblResult = some n ∧ 1 ≤ n ∧ n ≤ 0xD)) ∧
    (s.tblResult = some st → st ≤ 0xD → s.tblComplete.fld (TBL_CMD_STATUS .A) = st ∧
      s.tblComplete.flag (TBL_CMD_BUSY .A) = false ∧ s.tblComplete.flag (TBL_EVT_CMD_DONE .A) = true ∧ s.tblComplete.tblResult = none ∧
      s.RegsBut s.tblComplete [rTBL_CMD .A, rTBL_EVT .A])

/-- The exact-match commands: an insertion of a key that no entry holds places it and shows where, REPLACE and DELETE act on the
static entry, else the learned one, a lookup shows the entry that a plane would take, UNLOCK clears LOCK of the learned entry, and a
flush deletes the learned entries that it selects; the LPM store, region 16, holds none (R116, R137, R148, R172, R560).
Reads and writes at a place, a rehash with its resumption, and the LPM commands (R118, R141, R142, R143, R153, R172). -/
def Obligations.ExactMatchAndPlaceCommands : Prop :=
  (∀ (s : State) (r : Requester) (tie wide pin : Bool) (pl : Plane) (ri : Nat) (rg : Region),
    s.reaches r (rTBL_CMD .A) → (tie = true → isMc r = true) → s.flag (TBL_CMD_BUSY .A) = false → s.anyWriter = true →
    s.keyRegion wide (s.tblKey wide) = some (ri, rg) →
    (∀ s1 b e, holders rg (s.view rg) (s.tblKey wide) = [] → pin = false →
      s.place ri (s.tblKey wide) s.tblRes (stStatic false) = (s1, some (b, e)) →
      exec (.tblInsert r tie wide pin) s = .next (((s1.autoPin ri b e s.tblRes).putLoc b e).tblDone 1)) ∧
    (∀ s1, holders rg (s.view rg) (s.tblKey wide) = [] → pin = false →
      s.place ri (s.tblKey wide) s.tblRes (stStatic false) = (s1, none) →
      exec (.tblInsert r tie wide pin) s = .next ((s1.setFlag (TBL_EVT_NEED_REHASH .A)).noLoc.tblDone 4)) ∧
    (∀ b e x, staticElseLearned (holders rg (s.view rg) (s.tblKey wide)) = some (b, e, x) →
      exec (.tblDelete r tie wide) s = .next ((s.tblApply ri [.clear b e]).tblDone 1) ∧
      (pin = false → exec (.tblReplace r tie wide pin) s = .next (((s.tblApply ri
        [.put b e ⟨s.tblKey wide, s.tblRes, stClr (stClr x.status stLOCK) stAUTOPIN⟩]).autoPin ri b e s.tblRes).tblDone 1))) ∧
    (staticElseLearned (holders rg (s.view rg) (s.tblKey wide)) = none →
      exec (.tblDelete r tie wide) s = .next (s.tblDone 3) ∧ exec (.tblReplace r tie wide pin) s = .next (s.tblDone 3)) ∧
    ((s.plane pl).regionOfTag (keyTag wide (s.tblKey wide)) = some ri → (s.plane pl).region ri = some rg → rg.wide = wide →
      (∀ b e x, s.tblWouldTake pl rg (s.tblKey wide) = some (b, e, x) →
        exec (.tblLookup r tie wide pl) s = .next (((s.putRes x.result).putLoc b e).tblDone 1)) ∧
      (s.tblWouldTake pl rg (s.tblKey wide) = none → exec (.tblLookup r tie wide pl) s = .next (s.noLoc.tblDone 3))) ∧
    (∀ b e x, (holders rg (s.view rg) (s.tblKey wide)).find? (fun y => stHas y.2.2.status stLEARNED && !stHas y.2.2.status stCHART) =
      some (b, e, x) → exec (.tblUnlock r tie wide) s = .next ((s.tblApply ri [.status b e 0 stLOCK]).tblDone 1)) ∧
    exec (.tblFlushLearned r tie 16) s = .next (s.tblDone 1) ∧
    (∀ g rg', g ≠ 16 → (s.plane s.engine).region g = some rg' → exec (.tblFlushLearned r tie g) s = .next ((s.tblApply g
      (((s.learnedOf rg').filter (fun x => bitOf (s.fld (TBL_CMD_ARG_ARG .A)) 31 ||
        resTarget x.2.2.result == s.fld (TBL_CMD_ARG_ARG .A) % 256)).map (fun x => .clear x.1 x.2.1))).tblDone 1))) ∧
  (∀ (s : State) (r : Requester) (tie pin : Bool) (pl : Plane) (g : Nat) (rg : Region),
    s.reaches r (rTBL_CMD .A) → (tie = true → isMc r = true) → s.flag (TBL_CMD_BUSY .A) = false → s.anyWriter = true → g < 16 →
    (s.plane s.engine).region g = some rg →
    (s.tblLoc.1 < rg.logical → s.tblLoc.2 < rg.k →
      (stHas (s.fld (TBL_SLOT_STATUS_STATUS .A) % 1024) stVALID = false →
        exec (.tblWriteAt r tie g) s = .next ((s.tblApply g
          [.put s.tblLoc.1 s.tblLoc.2 ⟨s.tblKey rg.wide, s.tblRes, s.fld (TBL_SLOT_STATUS_STATUS .A) % 1024⟩]).tblDone 1)) ∧
      (stHas (s.fld (TBL_SLOT_STATUS_STATUS .A) % 1024) stVALID = true →
        stHas (s.fld (TBL_SLOT_STATUS_STATUS .A) % 1024) stPIN = true → s.pinRefused g s.tblLoc.1 = true →
        exec (.tblWriteAt r tie g) s = .next ((s.setFlag (TBL_EVT_PIN_LIMIT .A)).tblDone 6))) ∧
    (∀ rp n, (s.plane pl).region g = some rp → s.tblLoc.1 < rp.logical → s.tblLoc.2 < rp.k →
      rp.slotAt s.tblLoc.1 s.tblLoc.2 = some n →
      (badItems (s.plane pl) rp n ≠ [] → exec (.tblReadAt r tie g pl) s = .next (s.tblDone 8)) ∧
      (badItems (s.plane pl) rp n = [] → exec (.tblReadAt r tie g pl) s = .next ((((s.putKey rp.wide
        (tabGet Slot.none (s.plane pl).exact n).key).putRes (tabGet Slot.none (s.plane pl).exact n).result).put
        (TBL_SLOT_STATUS_STATUS .A) (tabGet Slot.none (s.plane pl).exact n).status).tblDone 1))) ∧
    (rg.logical ≤ s.tblLoc.1 ∨ rg.k ≤ s.tblLoc.2 → exec (.tblWriteAt r tie g) s = .next (s.tblDone 8)) ∧
    (rg.state = .normal → exec (.tblRehash r tie g) s =
      .next ((s.mapRegion g (fun x => x.toDual (s.fld (TBL_CMD_ARG_ARG .A)))).tblDone 1)) ∧
    (rg.state ≠ .normal → exec (.tblRehash r tie g) s = .next (s.tblDone 7) ∧
      exec (.tblResume r tie g) s = .next ((s.mapRegion g (fun x => { x with state := .dual })).tblDone 1)) ∧
    (rg.state = .normal → exec (.tblResume r tie g) s = .next (s.tblDone 0xB)) ∧
    (∀ a len vrf v6, s.lpmOperands = (a, len, vrf, v6) → len ≤ famBits v6 →
      (lpmCopies (s.plane s.engine) vrf v6 len a ≠ [] → exec (.tblLpmInsert r tie pin) s = .next (s.tblDone 2)) ∧
      (∀ s1, lpmCopies (s.plane s.engine) vrf v6 len a = [] →
        s.lpmEach (fun p => lpmInsertPlane s.epoch s.clk p ⟨vrf, v6, len, maskAddr v6 len a, s.tblRes, stStatic pin⟩) = some s1 →
        exec (.tblLpmInsert r tie pin) s = .next (s1.tblDone 1)) ∧
      (lpmCopies (s.plane s.engine) vrf v6 len a = [] → exec (.tblLpmDelete r tie) s = .next (s.tblDone 3)) ∧
      (∀ s1, (lpmCopies (s.plane s.engine) vrf v6 len a).any (fun x => x.vrf == vrf && x.v6 == v6 && x.len == len &&
          x.addr == maskAddr v6 len a && !stHas x.status stCHART) = true →
        s.lpmEach (fun p => lpmKeep s.epoch s.clk p (fun x => !(x.vrf == vrf && x.v6 == v6 && x.len == len &&
          x.addr == maskAddr v6 len a && !stHas x.status stCHART))) = some s1 →
        exec (.tblLpmDelete r tie) s = .next (s1.tblDone 1)) ∧
      (∀ s1 u x, s.lpmLookup s.engine vrf v6 a = (s1, some (u, x)) → exec (.tblLpmLookup r tie) s =
        .next (((s1.putRes x).putLoc (u / 4) (u % 4)).tblDone 1)) ∧
      (∀ s1, s.lpmLookup s.engine vrf v6 a = (s1, none) → exec (.tblLpmLookup r tie) s = .next (s1.noLoc.tblDone 3))) ∧
    exec (.tblBloomRebuild r tie) s =
      .next ((s.mapLpm (fun p => { p with bloomNew := some (bloomOf p.lpm) })).tblDone 1))

/-- What the tables do on their own: the end of a rehash walk, learning from the earliest event, the ageing of learned entries, repair
of a bad slot or status word from a good copy, the scrub pointer, and a page that comes in (R142, R143, R146, R150, R157, R159, R162, R168). -/
def Obligations.TablesWorkOnTheirOwn : Prop := ∀ (s : State) (pl : Plane) (g a page : Nat) (rg : Region),
    (g ≠ 16 → (s.plane s.engine).region g = some rg → rg.state = .dual →
      (∀ s1, s.walkFromBucket g (rg.logical - rg.walk) rg.walk = (s1, none) → exec (.rehashWalkEnd g) s = .next ((s1.mapRegion g
        (fun x => { x with state := .normal, oldSeed := x.seed, walk := 0 })).setFlag (TBL_EVT_REHASH_DONE .A))) ∧
      (∀ s1 b, s.walkFromBucket g (rg.logical - rg.walk) rg.walk = (s1, some b) → exec (.rehashWalkEnd g) s = .next ((s1.mapRegion g
        (fun x => { x with state := .stalled, walk := b })).setFlag (TBL_EVT_REHASH_STALL .A)))) ∧
    (g ≠ 16 → (s.plane s.engine).region g = some rg → rg.state ≠ .dual → exec (.rehashWalkEnd g) s = .next s) ∧
    (∀ ev s1 ri r1, s.nextLearn = some (ev, s1) → (s1.plane s1.engine).learnRegion = some ri →
      (s1.plane s1.engine).region ri = some r1 → s1.anyWriter = true →
      bestOf s1.epoch (holders r1 (s1.view r1) ev.key) = none →
      (s1.emRoom ev.port = false → exec .learnEventApply s = .next (s1.inc (TBL_LEARN_QUOTA_CNT_VAL s.lead))) ∧
      (∀ s2 x, s1.emRoom ev.port = true → s1.place ri ev.key (learnResult ev.port) (stVALID + stLEARNED) = (s2, some x) →
        exec .learnEventApply s = .next (s2.inc (TBL_LEARN_CNT_VAL s.lead))) ∧
      (∀ s2, s1.emRoom ev.port = true → s1.place ri ev.key (learnResult ev.port) (stVALID + stLEARNED) = (s2, none) →
        exec .learnEventApply s =
          .next ((s2.inc (TBL_LEARN_FAIL_CNT_VAL s.lead)).setFlag (TBL_EVT_NEED_REHASH s.lead)))) ∧
    (∀ ri r1, s.fld (TBL_LEARN_CTL_AGE_S s.lead) ≠ 0 → (s.plane s.engine).learnRegion = some ri →
      (s.plane s.engine).region ri = some r1 → s.anyWriter = true → s.learnedOf r1 = [] → exec .ageSweep s = .next s) ∧
    (∀ ri r1 b e x, s.fld (TBL_LEARN_CTL_AGE_S s.lead) ≠ 0 → (s.plane s.engine).learnRegion = some ri →
      (s.plane s.engine).region ri = some r1 → s.anyWriter = true → s.learnedOf r1 = [(b, e, x)] → stHas x.status stLOCK = false →
      exec .ageSweep s = .next (if (s.agesOf ri b e).all (· == 3) then
        (s.tblApply ri [.clear b e]).inc (TBL_AGED_CNT_VAL s.lead) else s.ageUp ri b e)) ∧
    (s.fld (TBL_LEARN_CTL_AGE_S s.lead) = 0 → exec .ageSweep s = .next s) ∧
    (∀ table, table < 2 → (s.plane pl).badItem table a = true →
      (∀ x, s.goodSource pl table a = some x →
        exec (.parityRepair pl table a) s = .next ((s.repairItem pl table a x).repairNoted pl table a true)) ∧
      (s.goodSource pl table a = none → exec (.parityRepair pl table a) s = .next (s.repairNoted pl table a false))) ∧
    ((s.plane pl).badSlots.contains ((s.plane pl).scrub % scrubItems) = false → (s.plane pl).scrub % scrubItems < 131072 →
      ∃ t, exec (.scrubRead pl) s = .next t ∧
        (t.plane pl) = { s.plane pl with scrub := ((s.plane pl).scrub % scrubItems + 1) % scrubItems } ∧
        t.plane (twinOf pl) = s.plane (twinOf pl) ∧ { t with planeA := s.planeA, planeB := s.planeB } = s) ∧
    ((s.plane pl).pageReads.contains (g, page) = false → exec (.pageReadComplete pl g page) s = .next s) ∧
    (∀ s1 s2 fr, (s.plane pl).pageReads.contains (g, page) = true → s1 = s.setPlane pl { s.plane pl with
        pageReads := (s.plane pl).pageReads.filter (fun e => decide (e ≠ (g, page)))
        parked := (s.plane pl).parked.map (fun p => { p with pages := p.pages.filter (fun e => decide (e ≠ (g, page))) }) } →
      s1.takeFrame pl g = (s2, some fr) → exec (.pageReadComplete pl g page) s =
        .next ((s2.loadPage pl g fr page).resumeAll.keepSpare pl g 256))

/-! ## Buffers, capture and the exception limiter -/

/-- Buffers go back and copies are written: at most two returned buffers a clock are pushed onto the list of their pool, the later one on
top; a copy bound for CAN waits for the pages of its translation; the head copy of the replication engine takes a buffer of the smallest pool that fits and stands where its placeholder stood; a
request that a pool refuses spills into the next larger pool in the next clock, or is lost and counted (R179, R181, R183, R184, R189).
Writes of the exception limiter and of the capture engine: RATE and BURST fill the bucket to the burst in force in both halves, MODE,
TARGET and TB are written only while capture is off, and a changed TARGET clears HEAD; CAP_TAIL is not written in RING mode while
capture is on (R130, R199). -/
def Obligations.BuffersLimitersAndCaptures : Prop :=
  (∀ (s : State) (pl : Plane) (pool p : Nat) (j : ReplJob) (js : List ReplJob)
    (k : CopyJob) (ks : List CopyJob) (s0 : State),
    (pool < (s.plane pl).pools.length → ∃ t, exec (.bufferReturnPush pl pool) s = .next t ∧
      ((t.plane pl).pool pool).stack = (((s.plane pl).pool pool).retq.take 2).reverse ++ ((s.plane pl).pool pool).stack ∧
      ((t.plane pl).pool pool).retq = ((s.plane pl).pool pool).retq.drop 2 ∧
      ((t.plane pl).pool pool).bad = ((s.plane pl).pool pool).bad.filter
        (fun b => !(((s.plane pl).pool pool).retq.take 2).contains b) ∧
      (∀ q, q ≠ pool → (t.plane pl).pool q = (s.plane pl).pool q) ∧
      { t.plane pl with pools := (s.plane pl).pools } = s.plane pl ∧
      s.setPlane pl (t.plane pl) = t) ∧
    ((s.plane pl).repl = [] → exec (.copyWrite pl) s = .next s ∧ exec (.allocSpill pl) s = .next s) ∧
    ((s.plane pl).repl = j :: js → j.todo = k :: ks →
      -- a CAN copy first waits for the pages of its translation lookup
      (j.retry = none → s.copyWaits pl j.frame k = (s0, true) → exec (.copyWrite pl) s = .next s0) ∧
      (j.retry = none → s.copyWaits pl j.frame k = (s0, false) → s0.fitPool pl j.frame.bytes.length = some p →
        exec (.copyWrite pl) s = .next (s0.copyRequest pl p p j.frame k)) ∧
      (canBound j.frame k.port = false → s.copyWaits pl j.frame k = (s, false)) ∧
      -- the first request, at the smallest pool that holds the frame
      (j.retry = none → s.copyWaits pl j.frame k = (s, false) → s.fitPool pl j.frame.bytes.length = some p →
        (∀ s1 b, s.popBuf pl p (j.frame.stream.any s.crit.contains) = (s1, some b) → canBound j.frame k.port = false →
          ∃ t, exec (.copyWrite pl) s = .next t ∧
            t.queue pl (8 * k.port + j.frame.tc) = swapPlaceholder k.copy
              (some (.frame { j.frame.forDest k.rx k.ring with pool := p, buf := b })) (s.queue pl (8 * k.port + j.frame.tc)) ∧
            t.fld (BPM_COPIES_CNT_VAL pl) = (s.fld (BPM_COPIES_CNT_VAL pl) + 1) % 2 ^ 32 ∧
            (t.plane pl).repl = (if ks = [] then js else { j with todo := ks, retry := none } :: js)) ∧
        (∀ s1 q, s.popBuf pl p (j.frame.stream.any s.crit.contains) = (s1, none) → s1.flag (BPM_POOL_CFG_SPILL pl p) = true →
          s1.nextPool pl p = some q → ∃ t, exec (.copyWrite pl) s = .next t ∧
            (t.plane pl).repl = { j with retry := some (p, q) } :: js ∧
            t.fld (BPM_SPILL_CNT_VAL pl p) = (s.fld (BPM_SPILL_CNT_VAL pl p) + 1) % 2 ^ 32) ∧
        (∀ s1, s.popBuf pl p (j.frame.stream.any s.crit.contains) = (s1, none) →
          s1.flag (BPM_POOL_CFG_SPILL pl p) = false ∨ s1.nextPool pl p = none →
          exec (.copyWrite pl) s = .next (((s1.allocLost pl p).copyDrop pl k.port).copyGone pl j.frame k))) ∧
      (j.retry = none → s.copyWaits pl j.frame k = (s, false) → s.fitPool pl j.frame.bytes.length = none →
        exec (.copyWrite pl) s = .next (((s.allocLost pl 3).copyDrop pl k.port).copyGone pl j.frame k)) ∧
      -- the request that a smaller pool refused
      (∀ start, p < 4 → j.retry = some (start, p) → exec (.copyWrite pl) s = .next s ∧
        (∀ s1 b, s.popBuf pl p (j.frame.stream.any s.crit.contains) = (s1, some b) →
          exec (.allocSpill pl) s = .next (s1.writeCopy pl j.frame k (p, b))) ∧
        (∀ s1 q, s.popBuf pl p (j.frame.stream.any s.crit.contains) = (s1, none) → s1.flag (BPM_POOL_CFG_SPILL pl p) = true →
          s1.nextPool pl p = some q → ∃ t, exec (.allocSpill pl) s = .next t ∧
            (t.plane pl).repl = { j with retry := some (start, q) } :: js ∧
            t.fld (BPM_SPILL_CNT_VAL pl p) = (s.fld (BPM_SPILL_CNT_VAL pl p) + 1) % 2 ^ 32) ∧
        (∀ s1, s.popBuf pl p (j.frame.stream.any s.crit.contains) = (s1, none) →
          s1.flag (BPM_POOL_CFG_SPILL pl p) = false ∨ s1.nextPool pl p = none →
          exec (.allocSpill pl) s = .next (((s1.allocLost pl start).copyDrop pl k.port).copyGone pl j.frame k))))) ∧
  (∀ (s : State) (r : Requester) (v : Nat) (pl : Plane),
    (s.reaches r (rPRS_EXC_BURST .A) → ∃ t, exec (.excLimiterWrite r true v) s = .next t ∧
      t.fld (PRS_EXC_BURST_BURST pl) = max 1 (min (v % 8192) 4096) ∧
      t.fld (PRS_EXC_LEVEL_TOKENS pl) = max 1 (min (v % 8192) 4096) ∧ tabGet 0 t.frac (rPRS_EXC_LEVEL .A) = 0 ∧
      { t with regs := s.regs, frac := s.frac } = s ∧
      s.RegsBut t [rPRS_EXC_BURST .A, rPRS_EXC_BURST .B, rPRS_EXC_LEVEL .A, rPRS_EXC_LEVEL .B]) ∧
    (s.reaches r (rPRS_EXC_RATE .A) → ∃ t, exec (.excLimiterWrite r false v) s = .next t ∧
      t.fld (PRS_EXC_RATE_RATE pl) = min (v % 2 ^ 20) 1000000 ∧
      t.fld (PRS_EXC_LEVEL_TOKENS pl) = s.fld (PRS_EXC_BURST_BURST .A) ∧ tabGet 0 t.frac (rPRS_EXC_LEVEL .A) = 0 ∧
      { t with regs := s.regs, frac := s.frac } = s ∧
      s.RegsBut t [rPRS_EXC_RATE .A, rPRS_EXC_RATE .B, rPRS_EXC_LEVEL .A, rPRS_EXC_LEVEL .B]) ∧
    (s.reaches r rCAP_CTL →
      (s.flag CAP_CTL_ENABLE = true → ∃ t, exec (.capCtlWrite r v) s = .next t ∧ t.flag CAP_CTL_ENABLE = bitOf v 0 ∧
        t.fld CAP_CTL_MODE = s.fld CAP_CTL_MODE ∧ t.fld CAP_CTL_TARGET = s.fld CAP_CTL_TARGET ∧
        t.fld CAP_CTL_TB = s.fld CAP_CTL_TB ∧ s.OnlyRegs t [rCAP_CTL]) ∧
      (s.flag CAP_CTL_ENABLE = false → bitOf v 2 = false ∨ s.fld CAP_AREA_SIZE_SIZE ≠ 0 →
        ∃ t, exec (.capCtlWrite r v) s = .next t ∧ t.flag CAP_CTL_ENABLE = bitOf v 0 ∧ t.fld CAP_CTL_MODE = bits v 1 1 ∧
          t.fld CAP_CTL_TARGET = bits v 2 1 ∧ t.fld CAP_CTL_TB = bits v 4 2 ∧
          t.fld CAP_HEAD_HEAD = (if s.fld CAP_CTL_TARGET = bits v 2 1 then s.fld CAP_HEAD_HEAD else 0) ∧
          s.OnlyRegs t [rCAP_CTL, rCAP_HEAD])) ∧
    (s.reaches r rCAP_TAIL →
      (s.flag CAP_CTL_MODE = true → s.flag CAP_CTL_ENABLE = true → exec (.capTailWrite r v) s = .next s) ∧
      (s.flag CAP_CTL_MODE = false ∨ s.flag CAP_CTL_ENABLE = false → ∃ t, exec (.capTailWrite r v) s = .next t ∧
        t.fld CAP_TAIL_TAIL = v / 16 * 16 % 2 ^ 30 ∧ s.OnlyRegs t [rCAP_TAIL])))

/-! ## Placement -/

/-- A bucket moves in steps: a pin write names its plane; a pinned bucket on the other plane takes a free context and its next frames go
to its own plane; the drain marker is admitted once no earlier frame of the bucket waits for admission; and a context whose hold, as it
stood at its switch, has passed releases its ports, counted when it held a frame (R212, R213, R219, R220).
The end of a placement epoch: every bucket's LOAD is what was written for it in the epoch and starts again, the loads of the planes
are the sums over their buckets, and the imbalance is that of R207 (R203, R207). A PRS_INDIR
register that firmware writes in the same clock takes that write, and a rewrite of it is dropped (R223). With rebalancing and host queue placement off and no
bucket pinned away, nothing moves. -/
def Obligations.BucketsAndEpochsMove : Prop :=
  (∀ (s : State) (r : Requester) (b c : Nat) (pin : Bool) (pl : Plane),
    (b < 65536 → s.reaches r (rPLC_BUCKET b) → ∃ t, exec (.bucketPinWrite r b pin pl) s = .next t ∧
      t.flag (PLC_BUCKET_PIN b) = pin ∧ t.fld (PLC_BUCKET_PIN_PLANE b) = planeNum pl ∧
      t.fld (PLC_BUCKET_LOAD b) = s.fld (PLC_BUCKET_LOAD b) ∧ s.OnlyRegs t [rPLC_BUCKET b]) ∧
    (s.dm.ctxs.length = 256 → s.pinAway b = true → s.freeCtx = some c → ∃ t, exec (.pinMoveStart b) s = .next t ∧
      (t.bkt b).plane = twinOf (s.bkt b).plane ∧ (t.bkt b).movedAt = some s.clk ∧
      (t.ctx c).valid = true ∧ (t.ctx c).bucket = b ∧ (t.ctx c).frm = (s.bkt b).plane ∧ (t.ctx c).waiting = true ∧
      (t.ctx c).nextSeq = (s.bkt b).seq ∧ (t.ctx c).switchAt = s.clk ∧ (t.ctx c).heldCount = 0 ∧
      (t.ctx c).hold = s.fld (FRE_RSQ_HOLD_HOLD_US .A) ∧ (t.ctx c).gen = ((s.ctx c).gen + 1) % 16 ∧ (∀ d, d ≠ c → t.ctx d = s.ctx d) ∧ (∀ d, d ≠ b → t.bkt d = s.bkt d) ∧
      t.fld PLC_MOVE_CNT_VAL = (s.fld PLC_MOVE_CNT_VAL + 1) % 2 ^ 32 ∧ { t with regs := s.regs, dm := s.dm } = s ∧
      s.RegsBut t [rPLC_MOVE_CNT]) ∧
    (s.pinAway b = false ∨ s.freeCtx = none → exec (.pinMoveStart b) s = .next s) ∧
    ((s.ctx c).valid = true → (s.ctx c).waiting = true → s.moveParked (s.ctx c) = false →
      ∃ t, exec (.markerAdmit c) s = .next t ∧ (t.ctx c).waiting = false ∧ (∀ d, d ≠ c → t.ctx d = s.ctx d) ∧
        (∀ q g, q < 2048 → g = (s.ctx c).gen → (s.queue (s.ctx c).frm q).any QEntry.solid = true →
          t.queue (s.ctx c).frm q = s.queue (s.ctx c).frm q ++ [.marker c g])) ∧
    ((s.ctx c).valid = false ∨ (s.ctx c).waiting = false ∨ s.moveParked (s.ctx c) = true →
      exec (.markerAdmit c) s = .next s) ∧
    (s.ctxExpired c = true ↔ (s.ctx c).valid = true ∧ (s.ctx c).hold * 1000 ≤ clkSince s.clk (s.ctx c).switchAt) ∧
    (s.ctxExpired c = true → ∃ t, exec (.rsqExpire c) s = .next t ∧ (t.ctx c).valid = false ∧ (t.ctx c).held = [] ∧
      (∀ d, d ≠ c → t.ctx d = s.ctx d) ∧
      ((s.ctx c).heldCount = 0 → t.regs = s.regs) ∧
      ((s.ctx c).heldCount ≠ 0 → t.flag (FRE_RSQ_EVT_TIMEOUT (twinOf (s.ctx c).frm)) = true ∧
        t.fld (FRE_RSQ_TIMEOUT_CNT_VAL (twinOf (s.ctx c).frm)) =
          (s.fld (FRE_RSQ_TIMEOUT_CNT_VAL (twinOf (s.ctx c).frm)) + 1) % 2 ^ 32)) ∧
    (s.ctxExpired c = false → exec (.rsqExpire c) s = .next s)) ∧
  (∀ (s : State), (∀ a v, exec (.epochEnd (some (a, v))) s = .next
      (if isIndir a then (s.endEpoch (some a)).gated .mc a (fun s => s.storeReg a v) else s.endEpoch none)) ∧
    ∃ t, exec (.epochEnd none) s = .next t ∧
    t.dm.pressA = false ∧ t.dm.pressB = false ∧ t.dm.movedNow = false ∧ t.dm.indirUse = [] ∧
    t.flag PLC_STATUS_MOVING = t.dm.moving ∧
    (∀ b, b < 65536 → b ∈ s.knownBuckets → (t.bkt b).acc = 0 ∧ t.fld (PLC_BUCKET_LOAD b) = min (s.bkt b).acc (2 ^ 24 - 1)) ∧
    t.fld PLC_STATUS_IMBAL = imbalance
      (((s.knownBuckets.filter (fun b => decide ((s.bkt b).plane = .A))).map (fun b => min (s.bkt b).acc (2 ^ 24 - 1))).sum)
      (((s.knownBuckets.filter (fun b => decide ((s.bkt b).plane = .B))).map (fun b => min (s.bkt b).acc (2 ^ 24 - 1))).sum) ∧
    (s.flag PLC_CTL_BAL_EN = false → s.flag PLC_CTL_QPL_EN = false → (∀ b, s.pinAway b = false) →
      t.dm.moving = false ∧ t.dm.ctxs = s.dm.ctxs ∧ t.fld PLC_MOVE_CNT_VAL = s.fld PLC_MOVE_CNT_VAL ∧
      (∀ b, (t.bkt b).plane = (s.bkt b).plane)))

/-! ## Egress -/

/-- A port that may send selects one head: a frame that a collision cut goes first; else an express class from 7 down comes first, then,
while no preemptable frame is in transmission, the deficit round robin among the eligible preemptable classes; a port that is down, held
or busy selects nothing (R95, R229, R237, R238). `look` is the port after the guard-band flag is cleared.
The end of a transmission: the port is free again, the frame and its bytes are counted, and its buffer waits for its return; an
express frame ends before the preemptable one that it interrupted, and one that a collision cut does not end (R80, R95, R177). -/
def Obligations.PortSelectsAndEndsTransmissions : Prop :=
  (∀ (s look s1 : State) (p e : Nat) (h : Head),
    (s.mayResend p = true → exec (.egressSelect p e) s = .next (s.resend p e)) ∧
    (s.mayResend p = false → s.mayServe p = false → exec (.egressSelect p e) s = .next s) ∧
    (s.mayResend p = false → s.mayServe p = true → look = s.put (SCH_GATE_GUARD .A p) 0 →
      (look.pickExpress p [7, 6, 5, 4, 3, 2, 1, 0] = (s1, some h) → exec (.egressSelect p e) s = .next (s1.takeHead p e h)) ∧
      (look.pickExpress p [7, 6, 5, 4, 3, 2, 1, 0] = (s1, none) →
        ((s.port p).txp ≠ none → exec (.egressSelect p e) s = .next s1) ∧
        ((s.port p).txp = none →
          (∀ s2, s1.pickAll p [7, 6, 5, 4, 3, 2, 1, 0] = (s2, []) → exec (.egressSelect p e) s = .next s2) ∧
          (∀ s2 l s3, s1.pickAll p [7, 6, 5, 4, 3, 2, 1, 0] = (s2, l) → l ≠ [] → s2.drrLoop p l 1048576 = (s3, some h) →
            exec (.egressSelect p e) s = .next (s3.takeHead p e h)))))) ∧
  (∀ (s : State) (p : Nat) (f : TxFrame),
    ((s.port p).tx = none → (s.port p).txp = none → exec (.transmitEnd p) s = .next s) ∧
    (32 ≤ p ∨ (s.port p).retry = true → exec (.transmitEnd p) s = .next s) ∧
    (p < 24 → (s.port p).retry = false → (s.port p).tx = some f → ∃ t, exec (.transmitEnd p) s = .next t ∧ (t.port p).tx = none ∧
      (t.port p).txp = (s.port p).txp ∧
      t.fld64 (ETH_TX_FRAMES_CNT_LO_VAL p) (ETH_TX_FRAMES_CNT_HI_VAL p) =
        (s.fld64 (ETH_TX_FRAMES_CNT_LO_VAL p) (ETH_TX_FRAMES_CNT_HI_VAL p) + 1) % 2 ^ 64 ∧
      t.fld64 (ETH_TX_BYTES_CNT_LO_VAL p) (ETH_TX_BYTES_CNT_HI_VAL p) =
        (s.fld64 (ETH_TX_BYTES_CNT_LO_VAL p) (ETH_TX_BYTES_CNT_HI_VAL p) + f.out.length) % 2 ^ 64 ∧
      (((s.plane f.frame.plane).pool f.frame.pool).error = false → f.frame.pool < (s.plane f.frame.plane).pools.length →
        ((t.plane f.frame.plane).pool f.frame.pool).retq = ((s.plane f.frame.plane).pool f.frame.pool).retq ++ [f.frame.buf])) ∧
    (p < 24 → (s.port p).retry = false → (s.port p).tx = none → (s.port p).txp = some f → ∃ t, exec (.transmitEnd p) s = .next t ∧ (t.port p).txp = none ∧
      t.fld64 (ETH_TX_FRAMES_CNT_LO_VAL p) (ETH_TX_FRAMES_CNT_HI_VAL p) =
        (s.fld64 (ETH_TX_FRAMES_CNT_LO_VAL p) (ETH_TX_FRAMES_CNT_HI_VAL p) + 1) % 2 ^ 64) ∧
    (24 ≤ p → p < 32 → (s.port p).retry = false → (s.port p).tx = some f → ∃ t, exec (.transmitEnd p) s = .next t ∧ (t.port p).tx = none ∧
      (t.port p).attempts = 0 ∧
      t.fld (T1S_TX_FRAMES_CNT_VAL (p - 24)) = (s.fld (T1S_TX_FRAMES_CNT_VAL (p - 24)) + 1) % 2 ^ 32))

/-- The gates follow the active list: SCH_GATE shows the mask in force, and a class that closes while only its length held back its head
is counted (R236). A write of RATE or BURST of a shaper or snare puts its level at BURST or 0 and clears its fraction; its lines
in the Plane B half ignore the write (R7, R242, R246).
One step of 8 ns of the token buckets, with the core PLL locked and not without: the placement clock goes on by 8, a table command
whose work is done completes, the exception
limiter gains RATE frames in 125 000 000 steps up to BURST, and an enabled queue shaper gains RATE bytes in 1 000 000 steps up to BURST, with
the fraction kept below the top and cleared at it (R130, R172, R241). -/
def Obligations.GatesAndTokenBuckets : Prop :=
  (∀ (s : State) (r : Requester) (p q n v a : Nat) (pl : Plane),
    (p < 32 → ∃ t, exec (.gateChange p) s = .next t ∧ t.fld (SCH_GATE_OPEN .A p) = s.gateMask p % 256 ∧
      t.flag (SCH_GATE_LIST .A p) = decide (s.gateList p ≠ []) ∧
      (∀ c, c < 8 → bitOf (s.fld (SCH_GATE_OPEN .A p)) c = true → bitOf (s.gateMask p) c = false →
        bitOf (t.port p).shortMask c = false) ∧
      ((∀ c, c < 8 → bitOf (s.fld (SCH_GATE_OPEN .A p)) c = true → bitOf (s.gateMask p) c = false →
        bitOf (s.port p).shortMask c = false) → s.RegsBut t [rSCH_GATE .A p]) ∧
      (∀ c, c < 8 → bitOf (s.fld (SCH_GATE_OPEN .A p)) c = true → bitOf (s.gateMask p) c = false →
        bitOf (s.port p).shortMask c = true → t.flag (SCH_EVT_GATE_SHORT s.lead) = true) ∧
      { t with regs := s.regs, ports := s.ports } = s) ∧
    (p < 256 → a = rSCH_PSHP_RATE .A p ∨ a = rSCH_PSHP_BURST .A p → s.reaches r a → ∃ t, exec (.shaperWrite r a v) s = .next t ∧
      t.reg a = (s.storeReg a v).reg a ∧
      t.fld (SCH_PSHP_LEVEL_LEVEL .A p) = (if t.flag (SCH_PSHP_RATE_EN .A p) = false ∨ t.flag (SCH_PSHP_RATE_RESET_FULL .A p) = true
        then t.fld (SCH_PSHP_BURST_BURST .A p) else 0) ∧
      tabGet 0 t.frac (rSCH_PSHP_LEVEL .A p) = 0) ∧
    (q < 2048 → a = rSCH_QSHP_RATE .A q ∨ a = rSCH_QSHP_BURST .A q → s.reaches r a → ∃ t, exec (.shaperWrite r a v) s = .next t ∧
      t.reg a = (s.storeReg a v).reg a ∧
      t.fld (SCH_QSHP_LEVEL_LEVEL .A q) = (if t.flag (SCH_QSHP_RATE_EN .A q) = false ∨ t.flag (SCH_QSHP_RATE_RESET_FULL .A q) = true
        then t.fld (SCH_QSHP_BURST_BURST .A q) else 0) ∧
      tabGet 0 t.frac (rSCH_QSHP_LEVEL .A q) = 0) ∧
    (n < 4096 → a = rSCH_SNARE_CFG .A n ∨ a = rSCH_SNARE_BURST .A n → s.reaches r a → ∃ t, exec (.snareWrite r a v) s = .next t ∧
      t.reg a = (s.storeReg a v).reg a ∧
      t.fld (SCH_SNARE_LEVEL_LEVEL pl n) = (if t.flag (SCH_SNARE_CFG_EN pl n) = false ∨
        t.flag (SCH_SNARE_CFG_RESET_FULL pl n) = true then t.fld (SCH_SNARE_BURST_BURST pl n) else 0) ∧
      tabGet 0 t.frac (rSCH_SNARE_LEVEL pl n) = 0) ∧
    (q < 2048 → s.reaches r (rSCH_QSHP_RATE .B q) → exec (.shaperWrite r (rSCH_QSHP_RATE .B q) v) s = .next s) ∧
    (n < 4096 → s.reaches r (rSCH_SNARE_CFG .B n) → exec (.snareWrite r (rSCH_SNARE_CFG .B n) v) s = .next s)) ∧
  (∀ (s : State) (q : Nat),
    (s.flag CLK_STATUS_PLL_CORE = false → exec .tokenBucketStep s = .next s) ∧
    (s.Inv → s.flag CLK_STATUS_PLL_CORE = true → ∃ t, exec .tokenBucketStep s = .next t ∧ t.clk = (s.clk + 8) % 2 ^ 64 ∧
      (∀ st, s.tblResult = some st → t.tblResult = none ∧ t.fld (TBL_CMD_STATUS .A) = st % 16 ∧ t.flag (TBL_CMD_BUSY .A) = false ∧
        t.flag (TBL_EVT_CMD_DONE .A) = true) ∧
      (s.tblResult = none → s.redBusy = none → s.fld PLC_PAGE_CFG_SPARE = 0 →
        { t with regs := s.regs, clk := s.clk, frac := s.frac, canTokens := s.canTokens, if4Tokens := s.if4Tokens,
                 blf := { t.blf with edges := s.blf.edges } } = s) ∧
      (s.fld (PRS_EXC_LEVEL_TOKENS s.lead) ≤ s.fld (PRS_EXC_BURST_BURST s.lead) →
        t.fld (PRS_EXC_LEVEL_TOKENS s.lead) = min (s.fld (PRS_EXC_BURST_BURST s.lead)) (s.fld (PRS_EXC_LEVEL_TOKENS s.lead) +
          (tabGet 0 s.frac (rPRS_EXC_LEVEL .A) + s.fld (PRS_EXC_RATE_RATE s.lead)) / 125000000)) ∧
      (q < 2048 → s.flag (SCH_QSHP_RATE_EN .A q) = true →
        (s.shLevel (SCH_QSHP_LEVEL_LEVEL .A q) + ((tabGet 0 s.frac (rSCH_QSHP_LEVEL .A q) +
            s.fld (SCH_QSHP_RATE_RATE .A q)) / 1000000 : Nat) < (s.fld (SCH_QSHP_BURST_BURST .A q) : Int) →
          t.shLevel (SCH_QSHP_LEVEL_LEVEL .A q) = s.shLevel (SCH_QSHP_LEVEL_LEVEL .A q) +
            ((tabGet 0 s.frac (rSCH_QSHP_LEVEL .A q) + s.fld (SCH_QSHP_RATE_RATE .A q)) / 1000000 : Nat) ∧
          tabGet 0 t.frac (rSCH_QSHP_LEVEL .A q) =
            (tabGet 0 s.frac (rSCH_QSHP_LEVEL .A q) + s.fld (SCH_QSHP_RATE_RATE .A q)) % 1000000) ∧
        ((s.fld (SCH_QSHP_BURST_BURST .A q) : Int) ≤ s.shLevel (SCH_QSHP_LEVEL_LEVEL .A q) +
            ((tabGet 0 s.frac (rSCH_QSHP_LEVEL .A q) + s.fld (SCH_QSHP_RATE_RATE .A q)) / 1000000 : Nat) →
          t.fld (SCH_QSHP_LEVEL_LEVEL .A q) = s.fld (SCH_QSHP_BURST_BURST .A q) ∧
          tabGet 0 t.frac (rSCH_QSHP_LEVEL .A q) = 0))))

/-! ## Time -/

/-- A tick of PLL_TS: a running time base that takes no step advances by its increment, seconds modulo 2^48; an accepted step sets the
value that the step registers hold at the tick, once; a committed increment is used from the next tick on; a snapshot shows the value after the tick; without lock there is no
tick (R255, R256, R257, R258, R259, R260, R261).
Writes of a time base: INC_NS commits an increment of 3.5 ns to 4.5 ns and refuses any other; a step is taken only in START-UP,
once, with its nanoseconds below 10^9, and for TB0 not while a chart is armed; a snapshot is asked of the time bases of the mask
(R258, R259, R261). -/
def Obligations.TimeBasesTickAndAreWritten : Prop :=
  (∀ (s : State) (n : Nat), s.Inv → n < 4 →
    (s.flag CLK_STATUS_PLL_TS = false → exec .timeBaseTick s = .next s) ∧
    (s.flag CLK_STATUS_PLL_TS = true → ∃ t, exec .timeBaseTick s = .next t ∧ t.ticks = s.ticks + 1 ∧
      { t with regs := s.regs, tbs := s.tbs, ticks := s.ticks } = s ∧
      (s.stepAt n = none → n = 0 ∨ s.flag (TIM_TB_CTL_EN n) = true → (t.tb n).now.units =
        ((s.tb n).now.units + ((s.tb n).incNs * 2 ^ 32 + (s.tb n).incFrac)) % (2 ^ 48 * 1000000000 * 2 ^ 32)) ∧
      (s.stepAt n = none → n ≠ 0 → s.flag (TIM_TB_CTL_EN n) = false → (t.tb n).now = (s.tb n).now) ∧
      ((s.tb n).step = true → s.fld (TIM_TB_STEP_NS_NS n) < 1000000000 → t.flag (TIM_TB_CTL_STEP_USED n) = true ∧
        (t.tb n).now = ⟨s.fld64 (TIM_TB_STEP_SEC_LO_SEC n) (TIM_TB_STEP_SEC_HI_SEC n), s.fld (TIM_TB_STEP_NS_NS n), 0⟩) ∧
      ((s.tb n).step = true → 1000000000 ≤ s.fld (TIM_TB_STEP_NS_NS n) →
        t.flag (TIM_TB_CTL_STEP_REFUSED n) = true ∧ s.stepAt n = none) ∧
      ((s.tb n).step = false → s.stepAt n = none) ∧
      (∀ ns frac, (s.tb n).commitInc = some (ns, frac) → (t.tb n).incNs = ns ∧ (t.tb n).incFrac = frac ∧
        t.fld (TIM_TB_INC_NS_NS n) = ns % 256) ∧
      ((s.tb n).commitInc = none → (t.tb n).incNs = (s.tb n).incNs ∧ (t.tb n).incFrac = (s.tb n).incFrac) ∧
      ((s.tb n).snap = true → t.fld64 (TIM_TB_SNAP_SEC_LO_SEC n) (TIM_TB_SNAP_SEC_HI_SEC n) = (t.tb n).now.sec ∧
        t.fld (TIM_TB_SNAP_NS_NS n) = (t.tb n).now.ns) ∧
      (t.tb n).step = false ∧ (t.tb n).commitInc = none ∧ (t.tb n).snap = false)) ∧
  (∀ (s : State) (r : Requester) (n v mask : Nat), s.tbs.length = 4 → n < 4 →
    (s.reaches r (rTIM_TB_INC_NS n) →
      (incInRange (v % 256) (s.fld (TIM_TB_INC_FRAC_FRAC n)) = true → exec (.incNsWrite r n v) s =
        .next (s.setTb n { s.tb n with commitInc := some (v % 256, s.fld (TIM_TB_INC_FRAC_FRAC n)) })) ∧
      (incInRange (v % 256) (s.fld (TIM_TB_INC_FRAC_FRAC n)) = false → ∃ t, exec (.incNsWrite r n v) s = .next t ∧
        t.flag (TIM_TB_CTL_INC_ERR n) = true ∧ t.flag TIM_EVT_INC_ERR = true ∧ s.OnlyRegs t [rTIM_TB_CTL n, rTIM_EVT])) ∧
    (s.reaches r (rTIM_TB_CTL n) →
      (s.flag (TIM_TB_CTL_STEP_USED n) = false → s.inState .startUp = true → s.fld (TIM_TB_STEP_NS_NS n) < 1000000000 →
        n ≠ 0 ∨ s.fld CHT_STATUS_SHADOW ≠ 5 → ∃ t, exec (.tbStep r n) s = .next t ∧
          (t.tb n).step = true ∧
          (t.tb n).now = (s.tb n).now ∧ (∀ m, m ≠ n → t.tb m = s.tb m) ∧ { t with tbs := s.tbs } = s) ∧
      (s.flag (TIM_TB_CTL_STEP_USED n) = true ∨ s.inState .startUp = false ∨ 1000000000 ≤ s.fld (TIM_TB_STEP_NS_NS n) ∨
          (n = 0 ∧ s.fld CHT_STATUS_SHADOW = 5) → ∃ t, exec (.tbStep r n) s = .next t ∧
          t.flag (TIM_TB_CTL_STEP_REFUSED n) = true ∧ s.OnlyRegs t [rTIM_TB_CTL n])) ∧
    (s.reaches r rTIM_SNAP → ∃ t, exec (.timSnap r mask) s = .next t ∧ (t.tb n).snap = ((s.tb n).snap || bitOf mask n) ∧
      (t.tb n).now = (s.tb n).now ∧ { t with tbs := s.tbs } = s))

/-- The timestamp FIFO and the PPS pins: a pop drops the head report or capture; an enabled output pin gives a pulse of its width at its
instant, once; an enabled input pin captures its time base, but for an edge within 1 µs of the last captured one, and a full
FIFO of four counts the loss (R273, R275, R276). -/
def Obligations.PopsAndPulsePins : Prop := ∀ (s : State) (r : Requester) (n e : Nat),
    (s.reaches r rTIM_TXTS_POP → exec (.txtsPop r true) s = .next { s with txts := s.txts.drop 1 } ∧
      exec (.txtsPop r false) s = .next s) ∧
    (n < 4 → s.reaches r (rTIM_PPS_CAP_STAT n) → ∃ t, exec (.ppsCapPop r n) s = .next t ∧
      tabGet [] t.ppsCap n = (tabGet [] s.ppsCap n).drop 1 ∧ (∀ m, m ≠ n → tabGet [] t.ppsCap m = tabGet [] s.ppsCap m) ∧
      { t with ppsCap := s.ppsCap } = s) ∧
    (n < 4 → s.flag (TIM_PPS_CFG_EN n) = true → s.flag (TIM_PPS_CFG_DIR n) = true → s.ppsDue n = true →
      tabFind s.ppsStart n ≠ some s.ticks → ∃ t, exec (.ppsPulse n) s = .next t ∧
        tabGet 0 t.ppsPulses n = tabGet 0 s.ppsPulses n + 1 ∧ tabFind t.ppsStart n = some s.ticks ∧
        tabFind t.ppsEnd n = some (s.ticks + 250 * s.ppsWidth n) ∧
        (0 < s.ppsWidth n → t.ppsLevel n = !s.flag (TIM_PPS_CFG_POL n)) ∧
        { t with ppsPulses := s.ppsPulses, ppsStart := s.ppsStart, ppsEnd := s.ppsEnd } = s) ∧
    (s.flag (TIM_PPS_CFG_EN n) = false ∨ s.flag (TIM_PPS_CFG_DIR n) = false ∨ s.ppsDue n = false ∨
      tabFind s.ppsStart n = some s.ticks →
      exec (.ppsPulse n) s = .next s) ∧
    (n < 4 → s.flag (TIM_PPS_CFG_EN n) = true → s.flag (TIM_PPS_CFG_DIR n) = false →
      (∀ k, tabFind s.ppsLast n = some k → 4 * s.ticks + e % 4 < k + 1000 → exec (.ppsEdge n e) s = .next s) ∧
      ((∀ k, tabFind s.ppsLast n = some k → k + 1000 ≤ 4 * s.ticks + e % 4) →
        (4 ≤ (tabGet [] s.ppsCap n).length → ∃ t, exec (.ppsEdge n e) s = .next t ∧
          t.fld (TIM_PPS_CAP_STAT_OVF n) = min (s.fld (TIM_PPS_CAP_STAT_OVF n) + 1) 255 ∧
          bitOf (t.fld TIM_EVT_PPS_OVF) n = true ∧ s.OnlyRegs t [rTIM_PPS_CAP_STAT n, rTIM_EVT]) ∧
        ((tabGet [] s.ppsCap n).length < 4 → ∃ t, exec (.ppsEdge n e) s = .next t ∧
          tabGet [] t.ppsCap n = tabGet [] s.ppsCap n ++ [((s.stampNow e)[n]?).getD ⟨0, 0, 0⟩] ∧
          tabFind t.ppsLast n = some (4 * s.ticks + e % 4) ∧ bitOf (t.fld TIM_EVT_PPS_IN) n = true ∧
          { t with regs := s.regs, ppsCap := s.ppsCap, ppsLast := s.ppsLast } = s ∧ s.RegsBut t [rTIM_EVT])))

/-! ## Carillon -/

/-- The commands of CAR_CTL: an item goes to the end of firmware's batch, 512 at most; SYNTH submits the batch as one job at the end of the
queue of 16 and opens an empty one; CANCEL ends firmware's latest job unless its downbeat falls in the same clock, which then applies it; a host is told
NOT_OWNER (R294, R295, R299, R307).
A job runs, completes and comes into force: with nothing running, waiting or held the first of the queue starts; its synthesis ends
it DONE, to wait for its downbeat, or FAILED with CAR_JOB_ERR and nothing changed; at its downbeat its schedule and gate lists
are in force (R294, R296, R297). -/
def Obligations.CarillonCommandsAndJobs : Prop :=
  (∀ (s : State) (late repack : Bool) (id : Nat), s.reaches .mc rCAR_CTL →
    s.fld CAR_CTL_RESULT ≠ 1 →
    (s.car.batch.length < 512 →
      (∃ t, exec (.carDeclare .mc) s = .next t ∧
        t.car = { s.car with batch := s.car.batch ++ [.declare ownerFW (s.window (rCAR_DECL 0) 48)] } ∧
        t.fld CAR_CTL_RESULT = 2 ∧ t.fld CAR_STATUS_BATCH = s.car.batch.length + 1 ∧
        t.fld CAR_STATUS_JOB = (if 2 ≤ s.fld CAR_STATUS_JOB ∧ s.fld CAR_STATUS_JOB ≤ 4 then s.fld CAR_STATUS_JOB else 1) ∧
        { t with regs := s.regs, car := s.car } = s ∧ s.RegsBut t [rCAR_CTL, rCAR_STATUS, rCAR_PEAL, rCAR_SHD_PEAL, rCAR_DOWNBEAT_LO, rCAR_DOWNBEAT_HI]) ∧
      (∃ t, exec (.carWithdraw .mc id) s = .next t ∧
        t.car = { s.car with batch := s.car.batch ++ [.withdraw (id % 4096)] } ∧
        t.fld CAR_CTL_RESULT = 2 ∧ { t with regs := s.regs, car := s.car } = s)) ∧
    (512 ≤ s.car.batch.length → (∃ t, exec (.carDeclare .mc) s = .next t ∧ t.fld CAR_CTL_RESULT = 7 ∧ s.OnlyRegs t [rCAR_CTL]) ∧
      ∃ t, exec (.carWithdraw .mc id) s = .next t ∧ t.fld CAR_CTL_RESULT = 7 ∧ s.OnlyRegs t [rCAR_CTL]) ∧
    (s.car.batch = [] → ∃ t, exec (.carSynth .mc repack) s = .next t ∧ t.fld CAR_CTL_RESULT = 4 ∧ s.OnlyRegs t [rCAR_CTL]) ∧
    (s.car.batch ≠ [] → 16 ≤ s.car.queue.length → ∃ t, exec (.carSynth .mc repack) s = .next t ∧ t.fld CAR_CTL_RESULT = 6 ∧
      s.OnlyRegs t [rCAR_CTL]) ∧
    (s.car.batch ≠ [] → s.car.queue.length < 16 → ∃ t, exec (.carSynth .mc repack) s = .next t ∧
      t.car = { s.car with batch := [], queue := s.car.queue ++
        [⟨.firmware, s.car.batch, repack, some (s.fld64 CAR_ARM_TIME_LO_TIME CAR_ARM_TIME_HI_TIME), false⟩] } ∧
      t.fld CAR_CTL_RESULT = 2 ∧ t.fld CAR_STATUS_JOB = 2 ∧ t.flag CAR_STATUS_LATE = false ∧
      t.fld CAR_STATUS_QUEUED = s.car.queue.length + 1 ∧ t.fld CAR_STATUS_BATCH = 0 ∧
      { t with regs := s.regs, car := s.car } = s) ∧
    (s.fld CAR_STATUS_JOB < 2 → ∃ t, exec (.carCancel .mc late) s = .next t ∧ t.fld CAR_CTL_RESULT = 4 ∧ s.OnlyRegs t [rCAR_CTL]) ∧
    (4 < s.fld CAR_STATUS_JOB → ∃ t, exec (.carCancel .mc late) s = .next t ∧ t.fld CAR_CTL_RESULT = 9 ∧ s.OnlyRegs t [rCAR_CTL]) ∧
    (2 ≤ s.fld CAR_STATUS_JOB → s.fld CAR_STATUS_JOB ≤ 4 →
      (∀ q j, dropLastFw s.car.queue = (q, some j) → ∃ t, exec (.carCancel .mc late) s = .next t ∧ t.car.queue = q ∧
        t.car.running = s.car.running ∧ t.car.waiting = s.car.waiting ∧ t.fld CAR_STATUS_JOB = 7 ∧ t.fld CAR_CTL_RESULT = 8 ∧
        t.flag CAR_EVT_JOB_DONE = true) ∧
      (∀ d, s.car.queue = [] → s.car.running = none → s.car.waiting = some d → d.job.src = .firmware →
        (late = false ∨ s.beatDue = false → ∃ t, exec (.carCancel .mc late) s = .next t ∧ t.car.waiting = none ∧ t.fld CAR_STATUS_JOB = 7 ∧
          t.fld CAR_CTL_RESULT = 8 ∧ t.flag CAR_EVT_JOB_DONE = true) ∧
        (late = true → s.beatDue = true → ∃ t, exec (.carCancel .mc late) s = .next t ∧ t.fld CAR_CTL_RESULT = 9 ∧
          t.car.waiting = none ∧ t.car.sched = d.sched ∧ t.fld CAR_STATUS_JOB = 5))) ∧
    (isHost .hi0 = true → s.unreachable .hi0 = false → s.powered rCAR_CTL = true → ∃ t, exec (.carSynth .hi0 repack) s = .next t ∧
      t.fld CAR_CTL_RESULT = 5 ∧ t.car = s.car)) ∧
  (∀ (s : State) (j : Job) (q : List Job) (d : JobDone) (out : SynthOut),
    (s.car.running ≠ none ∨ s.car.waiting ≠ none ∨ s.car.held = true ∨ s.car.queue = [] → exec .jobStart s = .next s) ∧
    (s.car.running = none → s.car.waiting = none → s.car.held = false → s.car.queue = j :: q → ∃ t, exec .jobStart s = .next t ∧
      t.car = { s.car with queue := q, running := some { j with again := false } } ∧
      t.fld CAR_RESTART_CNT_VAL = (if j.again then (s.fld CAR_RESTART_CNT_VAL + 1) % 2 ^ 32 else s.fld CAR_RESTART_CNT_VAL) ∧
      (j.src = .firmware → 2 ≤ s.fld CAR_STATUS_JOB → s.fld CAR_STATUS_JOB ≤ 4 → (∀ k, k ∈ q → k.src ≠ .firmware) →
        t.fld CAR_STATUS_JOB = 3) ∧
      { t with regs := s.regs, car := s.car } = s) ∧
    (s.car.running = none → exec .jobComplete s = .next s) ∧
    (s.car.running = some j → out = synthesise s.active s.streamLimit s.car.sched j.src j.items j.repack →
      (out.fail = none → ∃ t, exec .jobComplete s = .next t ∧ t.car.running = none ∧
        t.car.waiting = some ⟨j, out.sched, out.verdicts, out.withdrawn, s.nextBoundary j.arm % 2 ^ 48⟩ ∧ t.car.sched = s.car.sched ∧ t.car.lists = s.car.lists ∧
        t.car.queue = s.car.queue ∧ (s.car.chartDone = none →
          t.fld64 CAR_DOWNBEAT_LO_TIME CAR_DOWNBEAT_HI_TIME = s.nextBoundary j.arm % 2 ^ 48) ∧
        t.fld CAR_JOB_CNT_VAL = (s.fld CAR_JOB_CNT_VAL + 1) % 2 ^ 32) ∧
      (∀ code v, out.fail = some (code, v) → ∃ t, exec .jobComplete s = .next t ∧ t.car.running = none ∧
        t.car.waiting = s.car.waiting ∧ t.car.sched = s.car.sched ∧ t.flag CAR_JOB_ERR_VALID = true ∧
        t.fld CAR_JOB_ERR_STREAM = v.1 % 4096 ∧ t.fld CAR_JOB_ERR_CODE = code % 256 ∧
        t.fld CAR_JOB_CNT_VAL = (s.fld CAR_JOB_CNT_VAL + 1) % 2 ^ 32)) ∧
    (s.car.waiting = none → exec .jobDownbeat s = .next s) ∧
    (s.car.waiting = some d → ctLater d.beat s.nowCt = true → exec .jobDownbeat s = .next s) ∧
    (s.car.waiting = some d → ctLater d.beat s.nowCt = false → d.job.src = .firmware → ∃ t, exec .jobDownbeat s = .next t ∧
      t.car.waiting = none ∧ t.car.sched = d.sched ∧ t.car.lists = gateLists d.sched.strokes d.sched.peal ∧
      t.car.queue = s.car.queue ∧ t.crit = (d.sched.streams.filter (fun e => e.2.critical)).map (·.1) ∧
      t.flag CAR_EVT_DOWNBEAT = true ∧ t.flag CAR_EVT_JOB_DONE = true))

/-! ## Redundancy -/

/-- Beats and paths: what a plane sends in its slot is sound; a beat outside the slot, or with a wrong CRC or PLANE, does nothing; a
sound one is taken when its number follows or the slot before was missed, on the side path by the arbiter too; FATAL in a sound one
declares the plane failed. The end of a slot counts the paths without a beat and restarts the take-back timer; a path that misses four
while the other delivers is degraded and recovers after 128; a fourth slot running in which nobody heard the plane declares it failed
(R323, R324, R325, R326). -/
def Obligations.BeatsJudgeThePaths : Prop := ∀ (s : State) (frm : Plane) (path : BeatPath) (bs : List Byte), s.beats.length = 6 →
    s.beatNums.length = 2 → s.slotsLost.length = 2 →
    (s.beatNum frm < 65536 → beatSound frm (s.beatSent frm) = true ∧ beatNumOf (s.beatSent frm) = s.beatNum frm ∧
      beatFatal (s.beatSent frm) = decide (frm ∈ s.fatal)) ∧
    exec (.beatArrival frm path bs false) s = .next s ∧
    (beatSound frm bs = false → exec (.beatArrival frm path bs true) s = .next s) ∧
    (beatSound frm bs = true → ∃ s1 : State, exec (.beatArrival frm path bs true) s =
        .next (if beatFatal bs then s1.declareFailed frm 2 else s1) ∧
      (∀ i, i = beatIx frm path ∨ (path = .side ∧ i = beatIx frm .arbiter) →
        ((s.beat i).missedPrev = true ∨ beatNumOf bs = ((s.beat i).lastNum + 1) % 65536 →
          s1.beat i = { s.beat i with good := true, lastNum := beatNumOf bs }) ∧
        ((s.beat i).missedPrev = false → beatNumOf bs ≠ ((s.beat i).lastNum + 1) % 65536 → s1.beat i = s.beat i)) ∧
      (∀ i, i ≠ beatIx frm path → path ≠ .side ∨ i ≠ beatIx frm .arbiter → s1.beat i = s.beat i) ∧
      { s1 with beats := s.beats } = s) ∧
    (∀ good : BeatPath → Bool, (∀ p, (s.beat (beatIx frm p)).good = good p) → s.lostRun frm ≠ 4 →
      (∀ p, p ≠ .arbiter → (s.beat (beatIx frm p)).degraded = false ∧ (good p = true ∨ (s.beat (beatIx frm p)).missRun < 3)) →
      ∃ t, exec (.beatSlot frm) s = .next t ∧ (∀ p, (t.beat (beatIx frm p)).good = false ∧
        (good p = true → (t.beat (beatIx frm p)).missRun = 0 ∧ (t.beat (beatIx frm p)).missedPrev = false ∧
          (t.beat (beatIx frm p)).goodRun = min ((s.beat (beatIx frm p)).goodRun + 1) 128) ∧
        (good p = false → (t.beat (beatIx frm p)).missRun = min ((s.beat (beatIx frm p)).missRun + 1) 4 ∧
          (t.beat (beatIx frm p)).missedPrev = true ∧ (t.beat (beatIx frm p)).goodRun = 0)) ∧
        t.beatNum frm = (s.beatNum frm + 1) % 65536 ∧
        t.fld RED_BEAT_MISS_FAB_CNT_VAL = (s.fld RED_BEAT_MISS_FAB_CNT_VAL + bitN (!good .fabric)) % 2 ^ 32 ∧
        t.fld RED_BEAT_MISS_SIDE_CNT_VAL = (s.fld RED_BEAT_MISS_SIDE_CNT_VAL + bitN (!good .side)) % 2 ^ 32 ∧
        t.tbFrom = (if good .fabric && good .side then s.tbFrom else s.clk) ∧
        { t with regs := s.regs, beats := s.beats, slotsLost := s.slotsLost, beatNums := s.beatNums, tbFrom := s.tbFrom } = s ∧
        s.RegsBut t [rRED_BEAT_MISS_FAB_CNT, rRED_BEAT_MISS_SIDE_CNT]) ∧
    ((s.beat (beatIx frm .fabric)).good = false → (s.beat (beatIx frm .side)).good = true →
      (s.beat (beatIx frm .fabric)).missRun = 3 → (s.beat (beatIx frm .fabric)).degraded = false →
      (s.beat (beatIx frm .side)).degraded = false → ∃ t, exec (.beatSlot frm) s = .next t ∧
        t.flag RED_STATUS_FABRIC_DEG = true ∧ t.flag RED_EVT_PATH_DEG = true ∧ (t.beat (beatIx frm .fabric)).degraded = true ∧
        t.fld RED_BEAT_MISS_FAB_CNT_VAL = (s.fld RED_BEAT_MISS_FAB_CNT_VAL + 1) % 2 ^ 32 ∧
        { t with regs := s.regs, beats := s.beats, slotsLost := s.slotsLost, beatNums := s.beatNums, tbFrom := s.tbFrom } = s ∧
        s.RegsBut t [rRED_STATUS, rRED_EVT, rRED_BEAT_MISS_FAB_CNT]) ∧
    ((s.beat (beatIx frm .fabric)).good = true → (s.beat (beatIx frm .side)).good = true →
      (s.beat (beatIx frm .side)).degraded = true → (s.beat (beatIx frm .side)).goodRun = 127 →
      (s.beat (beatIx frm .fabric)).degraded = false → ∃ t, exec (.beatSlot frm) s = .next t ∧
        (t.beat (beatIx frm .side)).degraded = false ∧ t.flag RED_EVT_PATH_OK = true ∧
        { t with regs := s.regs, beats := s.beats, slotsLost := s.slotsLost, beatNums := s.beatNums } = s ∧
        s.RegsBut t [rRED_STATUS, rRED_EVT]) ∧
    (s.supervised frm = true → (∀ p, (s.beat (beatIx frm p)).good = false) → s.slotsLost[planeNum frm]? = some 3 →
      ∃ s1 : State, exec (.beatSlot frm) s = .next (s1.declareFailed frm 1) ∧
        (∀ p, (s1.beat (beatIx frm p)).missRun = min ((s.beat (beatIx frm p)).missRun + 1) 4) ∧
        s1.fld RED_BEAT_MISS_FAB_CNT_VAL = (s.fld RED_BEAT_MISS_FAB_CNT_VAL + 1) % 2 ^ 32 ∧
        s1.fld RED_BEAT_MISS_SIDE_CNT_VAL = (s.fld RED_BEAT_MISS_SIDE_CNT_VAL + 1) % 2 ^ 32 ∧
        { s1 with regs := s.regs, beats := s.beats, slotsLost := s.slotsLost, beatNums := s.beatNums, tbFrom := s.tbFrom } = s)

/-- The plane commands of RED_CTL: BUSY in a swap or beside another command; ISOLATE, TEST, REJOIN and PROMOTE under the conditions of
the table, NOT_READY otherwise; and how a test, a rebuild and a resynchronisation end (R328, R329, R330, R331, R333).
LEAD returns to the preferred plane when its take-back timer ends, unless a PROMOTE or a change of state in the same clock restarts it (R335); a recovery entry whose reset timer runs out takes any number
and forgets its history, counted (R318), and firmware may set TAKE_ANY through the Plane A half (R317). -/
def Obligations.PlanesLeaveAndReturn : Prop :=
  (∀ (s : State) (pl : Plane) (ok : Bool), s.reaches .mc rRED_CTL →
    (s.swapBusy = true ∨ s.redBusy ≠ none → ∀ c, c ∈ [Instr.redIsolate .mc pl, .redTest .mc pl, .redRejoin .mc pl, .redPromote .mc pl] →
      ∃ t, exec c s = .next t ∧ t.fld RED_CTL_RESULT = 3 ∧ s.OnlyRegs t [rRED_CTL]) ∧
    (s.swapBusy = false → s.redBusy = none →
      (s.isCond pl .failed = true → ∃ t, exec (.redIsolate .mc pl) s = .next t ∧ t.isCond pl .isolated = true ∧
        t.fld RED_CTL_RESULT = 2 ∧ t.flag RED_EVT_CMD_DONE = true ∧ t.redBusy = none ∧
        0 ∈ t.pulses ∧ t.tbFrom = s.clk ∧ s.RegsBut t [rGLB_DEVSTATE, rRED_CTL, rRED_EVT] ∧
        { t with regs := s.regs, pulses := s.pulses, tbFrom := s.tbFrom, redBusy := s.redBusy } = s) ∧
      (s.isCond pl .inService = true → s.isCond (twinOf pl) .inService = true → s.inState .run = true ∨ s.inState .test = true →
        s.fld CHT_SWAP_DRAIN_DRAIN_US ≠ 0 → ∃ t, exec (.redIsolate .mc pl) s = .next t ∧ t.redBusy = some (.isolate pl) ∧
          t.fld RED_CTL_RESULT = 1 ∧ t.lead = twinOf pl ∧ (t.plane pl).handing = true ∧ t.dm.home0 = twinOf pl ∧
          t.isCond pl .inService = true) ∧
      (s.isCond pl .inService = false → s.isCond pl .failed = false →
        ∃ t, exec (.redIsolate .mc pl) s = .next t ∧ t.fld RED_CTL_RESULT = 5 ∧ s.OnlyRegs t [rRED_CTL]) ∧
      (s.isCond pl .isolated = true → s.inState .test = true → ∃ t, exec (.redTest .mc pl) s = .next t ∧
        t.redBusy = some (.test pl) ∧ t.fld RED_CTL_RESULT = 1 ∧ t.flag RED_TEST_DONE = false ∧
        t.fld RED_TEST_PLANE = planeNum pl ∧ { t with regs := s.regs, redBusy := s.redBusy } = s ∧
        s.RegsBut t [rRED_CTL, rRED_TEST]) ∧
      (s.isCond pl .isolated = false ∨ s.inState .test = false → ∃ t, exec (.redTest .mc pl) s = .next t ∧
        t.fld RED_CTL_RESULT = 5 ∧ s.OnlyRegs t [rRED_CTL]) ∧
      (s.isCond pl .isolated = true → ∃ t, exec (.redRejoin .mc pl) s = .next t ∧ t.redBusy = some (.rebuild pl) ∧
        t.fld RED_CTL_RESULT = 1 ∧ { t with regs := s.regs, redBusy := s.redBusy } = s ∧ s.RegsBut t [rRED_CTL]) ∧
      (s.isCond pl .isolated = false → ∃ t, exec (.redRejoin .mc pl) s = .next t ∧ t.fld RED_CTL_RESULT = 5 ∧
        s.OnlyRegs t [rRED_CTL]) ∧
      (s.isCond pl .inService = true → s.lead ≠ pl → ∃ t, exec (.redPromote .mc pl) s = .next t ∧ t.lead = pl ∧
        t.planeA.learnQ = [] ∧ t.planeB.learnQ = [] ∧ t.fld RED_CTL_RESULT = 2 ∧ t.flag RED_EVT_CMD_DONE = true ∧ 0 ∈ t.pulses) ∧
      (s.isCond pl .inService = false ∨ s.lead = pl → ∃ t, exec (.redPromote .mc pl) s = .next t ∧ t.fld RED_CTL_RESULT = 5 ∧
        s.OnlyRegs t [rRED_CTL])) ∧
    (s.redBusy = some (.test pl) → ∃ t, exec (.redTestDone ok []) s = .next t ∧ t.flag RED_TEST_DONE = true ∧
      t.flag RED_TEST_PASS = ok ∧ t.fld RED_TEST_FAULTS = 0 ∧ t.redBusy = none ∧ t.fld RED_CTL_RESULT = 2 ∧
      t.flag RED_EVT_CMD_DONE = true ∧ s.RegsBut t [rRED_TEST, rRED_CTL, rRED_EVT]) ∧
    (s.redBusy = none → exec (.redTestDone ok []) s = .next s ∧ exec .rejoinRebuildDone s = .next s ∧
      exec .rejoinResyncDone s = .next s) ∧
    (s.redBusy = some (.rebuild pl) → s.isCond (twinOf pl) .inService = true → ∃ t, exec .rejoinRebuildDone s = .next t ∧
      t.isCond pl .resync = true ∧ t.redBusy = some (.resync pl) ∧ t.resyncCopied = false ∧ t.resyncPos = 0) ∧
    (s.redBusy = some (.resync pl) → s.isCond (twinOf pl) .inService = true → ∃ t, exec .rejoinResyncDone s = .next t ∧
      t.isCond pl .inService = true ∧ t.redBusy = none ∧ t.fld RED_CTL_RESULT = 2 ∧ t.flag RED_EVT_CMD_DONE = true ∧
      (t.plane pl).lpm = (s.plane (twinOf pl)).lpm.filter (fun c => !(s.plane (twinOf pl)).badUnits.contains c.1) ∧
      (t.plane pl).frags = (s.plane (twinOf pl)).frags)) ∧
  (∀ (s : State) (r : Requester) (pl : Plane) (e : Nat) (tie : Bool),
    (s.takeback = some pl → s.takebackDue = true → ∃ t, exec (.takebackExpire false) s = .next t ∧ t.lead = pl ∧ t.flag RED_EVT_TAKEBACK = true ∧
      t.fld RED_TAKEBACK_CNT_VAL = (s.fld RED_TAKEBACK_CNT_VAL + 1) % 2 ^ 32) ∧
    (s.takeback = some pl → s.takebackDue = true → exec (.takebackExpire true) s = .next { s with tbFrom := s.clk }) ∧
    (s.takeback = none ∨ s.takebackDue = false → exec (.takebackExpire tie) s = .next s) ∧
    (e < 2048 → s.flag (FRE_REC_CFG_VALID .A e) = true → s.recTimeout e = true →
      ∃ t, exec (.frerResetTimer pl e) s = .next t ∧ t.flag (FRE_REC_STATE_TAKE_ANY .A e) = true ∧ (t.recSt e).history = 0 ∧
        (t.recSt e).timer = none ∧ t.fld (FRE_REC_RESETS_VAL .A e) = (s.fld (FRE_REC_RESETS_VAL .A e) + 1) % 2 ^ 32 ∧ t.flag (FRE_EVT_RESET .A) = true ∧
        { t with regs := s.regs, recs := s.recs } = s ∧
        s.RegsBut t [rFRE_REC_STATE .A e, rFRE_REC_RESETS .A e, rFRE_EVT .A]) ∧
    (s.flag (FRE_REC_CFG_VALID .A e) = false ∨ s.recTimeout e = false →
      exec (.frerResetTimer pl e) s = .next s) ∧
    (e < 2048 → s.reaches r (rFRE_REC_STATE .A e) → ∃ t, exec (.takeAnyWrite r .A e) s = .next t ∧
      t.flag (FRE_REC_STATE_TAKE_ANY .A e) = true ∧ (t.recSt e).history = 0 ∧
      t.fld (FRE_REC_STATE_RECOV_SEQ .A e) = s.fld (FRE_REC_STATE_RECOV_SEQ .A e) ∧
      { t with regs := s.regs, recs := s.recs } = s ∧ s.RegsBut t [rFRE_REC_STATE .A e]) ∧
    (e < 2048 → s.reaches r (rFRE_REC_STATE .B e) → exec (.takeAnyWrite r .B e) s = .next s))

/-! ## CAN -/

/-- Error confinement on a CAN channel whose link is up: a protocol error is counted with its code, adds 8 to TEC in
transmission (but for the exception of the standard) and 1 or 8 to REC in reception; 128 makes the node error passive and 256 bus-off; a
recovery sequence ends with both counters at 0 (R340, R342).
The transmit buffer of a CAN channel: arbitration discards what has outlived its class's limit and offers the entry that wins
against all others, which stays on the bus when it wins there; a message sent leaves, counted, and lowers TEC; FLUSH_TXBUF discards all but what is on the bus and the
Chimes; ADMIN_DOWN takes the link down, and the channel rejoins after it (R339, R345, R346, R347). -/
def Obligations.CanErrorsAndTransmitBuffer : Prop :=
  (∀ (s : State) (r : Requester) (n : Nat) (e : CanErr), n < 32 →
    (s.linkUp (32 + n) = true → e.transmitting = true → (s.can n).txbuf.any (fun k => k.onBus) = true →
      (e.alt = false → (s.can n).tecN + 8 < 256 → ∃ t, exec (.canProtocolError n e) s = .next t ∧
        (t.can n).tecN = (s.can n).tecN + 8 ∧ (t.can n).recN = (s.can n).recN ∧
        ((s.can n).chimeDue = none → (t.can n).txbuf = (s.can n).txbuf.map (fun k => { k with onBus := false })) ∧
        t.fld (CAN_STATUS_LEC n) = e.lec % 2 ^ (CAN_STATUS_LEC n).wid ∧
        t.fld (CAN_RX_ERR_CNT_VAL n) = (s.fld (CAN_RX_ERR_CNT_VAL n) + 1) % 2 ^ (CAN_RX_ERR_CNT_VAL n).wid ∧
        (s.fld (CAN_STATUS_STATE n) = 0 → 120 ≤ (s.can n).tecN → t.fld (CAN_STATUS_STATE n) = 1 ∧
          t.flag (CAN_EVT_ERR_PASSIVE n) = true) ∧
        { t with regs := s.regs, cans := s.cans } = s ∧ s.RegsBut t [rCAN_RX_ERR_CNT n, rCAN_EVT n, rCAN_STATUS n]) ∧
      (e.alt = false → 256 ≤ (s.can n).tecN + 8 → ∃ t, exec (.canProtocolError n e) s = .next t ∧
        t.fld (CAN_STATUS_STATE n) = 2 ∧ t.flag (CAN_EVT_BUS_OFF n) = true ∧ t.linkUp (32 + n) = false ∧
        (t.can n).txbuf = [] ∧ (t.can n).recovering = s.canFlag n 0)) ∧
    (s.linkUp (32 + n) = true → e.transmitting = false → (s.can n).tecN < 128 → (s.can n).recN < 120 → ∃ t,
      exec (.canProtocolError n e) s = .next t ∧ (t.can n).recN = (s.can n).recN + (if e.alt then 8 else 1) ∧
      (t.can n).tecN = (s.can n).tecN ∧ (t.can n).txbuf = (chanOffBus (s.can n)).txbuf) ∧
    (s.linkUp (32 + n) = false → exec (.canProtocolError n e) s = .next s) ∧
    (s.reaches r (rCAN_CTL n) → s.fld (CAN_STATUS_STATE n) = 2 → ∃ t, exec (.canRecover r n) s = .next t ∧
      (t.can n).recovering = true ∧ { t with cans := s.cans } = s) ∧
    (s.reaches r (rCAN_CTL n) → s.fld (CAN_STATUS_STATE n) ≠ 2 → exec (.canRecover r n) s = .next s) ∧
    (s.fld (CAN_STATUS_STATE n) = 2 → (s.can n).recovering = true → s.lowPower (32 + n) = false →
      ∃ t, exec (.busOffRecoveryEnd n) s = .next t ∧ (t.can n).tecN = 0 ∧ (t.can n).recN = 0 ∧ (t.can n).recovering = false ∧
        t.fld (CAN_STATUS_STATE n) = 0 ∧ (t.linkUp (32 + n) = true ∨ t.channelMayUp (32 + n) = false)) ∧
    (s.fld (CAN_STATUS_STATE n) ≠ 2 ∨ (s.can n).recovering = false ∨ s.lowPower (32 + n) = true →
      exec (.busOffRecoveryEnd n) s = .next s)) ∧
  (∀ (s : State) (r : Requester) (n e : Nat) (won : Bool) (w : CanTx), n < 32 →
    (s.linkUp (32 + n) = true → s.trxMode n = 0 → (s.can n).chimeDue = none →
      (s.can n).txbuf.all (fun k => !s.canExpired k && !k.onBus) = true →
      (arbWinner (s.can n).txbuf = some w → ∃ t, exec (.canArbitration n e won) s = .next t ∧
        (t.can n).txbuf = (s.can n).txbuf.map (fun k => if k = w then { k with onBus := won, sof := s.stampNow e } else k) ∧
        (∀ k, k ∈ (s.can n).txbuf → w.msg.arbKey ≤ k.msg.arbKey) ∧ { t with cans := s.cans } = s)) ∧
    (s.linkUp (32 + n) = true → s.trxMode n = 0 → (s.can n).txbuf = [w] → (s.can n).chimeDue = none → s.canExpired w = true → ∃ t,
      exec (.canArbitration n e won) s = .next t ∧ (t.can n).txbuf = [] ∧ t.flag (CAN_EVT_TX_EXPIRED n) = true ∧
      t.fld (CAN_TX_EXPIRED_CNT_VAL n) = (s.fld (CAN_TX_EXPIRED_CNT_VAL n) + 1) % 2 ^ (CAN_TX_EXPIRED_CNT_VAL n).wid) ∧
    (s.linkUp (32 + n) = false ∨ s.trxMode n ≠ 0 → exec (.canArbitration n e won) s = .next s) ∧
    ((s.can n).txbuf.find? (fun e => e.onBus) = some w → w.chime = none → (s.can n).chimeDue = none →
      ∃ t, exec (.canTxSuccess n) s = .next t ∧
      (t.can n).txbuf = ((s.can n).txbuf.erase w).map (fun k => { k with onBus := false }) ∧ (t.can n).tecN = (s.can n).tecN - 1 ∧
      t.fld (CAN_TX_MSG_CNT_VAL n) = (s.fld (CAN_TX_MSG_CNT_VAL n) + 1) % 2 ^ (CAN_TX_MSG_CNT_VAL n).wid ∧
      (w.frame = none → { t with regs := s.regs, cans := s.cans } = s)) ∧
    ((s.can n).txbuf.any (fun e => e.onBus) = false → exec (.canTxSuccess n) s = .next s) ∧
    (s.reaches r (rCAN_CTL n) → ∃ t, exec (.canFlushTxbuf r n) s = .next t ∧
      (t.can n).txbuf = (s.can n).txbuf.filter (fun e => e.onBus || e.chime.isSome) ∧
      t.fld (CAN_TX_ABORT_CNT_VAL n) = (s.fld (CAN_TX_ABORT_CNT_VAL n) +
        ((s.can n).txbuf.filter (fun e => !e.onBus && e.chime.isNone)).length) % 2 ^ (CAN_TX_ABORT_CNT_VAL n).wid ∧
      { t with regs := s.regs, cans := s.cans } = s ∧ s.RegsBut t [rCAN_TX_ABORT_CNT n]) ∧
    (s.reaches r (rCAN_CTL n) → (∃ t, exec (.canAdminDown r n true) s = .next t ∧ t.flag (CAN_CTL_ADMIN_DOWN n) = true ∧
        t.linkUp (32 + n) = false ∧ (t.can n).joining = false) ∧
      (s.flag (CAN_CTL_ADMIN_DOWN n) = true → ∃ t, exec (.canAdminDown r n false) s = .next t ∧
        t.flag (CAN_CTL_ADMIN_DOWN n) = false ∧ (t.can n).joining = true ∧
        { t with regs := s.regs, cans := s.cans } = s ∧ s.RegsBut t [rCAN_CTL n])) ∧
    (s.portOn (32 + n) = true → (s.can n).joining = true → s.lowPower (32 + n) = false → ∃ t,
      exec (.canBusIntegration n) s = .next t ∧ (t.can n).joining = false ∧
      (t.linkUp (32 + n) = true ∨ t.channelMayUp (32 + n) = false)) ∧
    ((s.can n).joining = false → exec (.canBusIntegration n) s = .next s))

/-- A CAN message received: nothing while the link is down; one whose format exceeds MODE is a protocol error; a tunnelled message too short
for a frame is counted and dropped; any other is counted, judged by the ingress list (what it denies goes to IF4 where the list logs), becomes a frame of KIND 0x01 and
joins the batch as the channel's flags say (R340, R344, R354, R359, R365). -/
def Obligations.CanMessageIsAccepted : Prop := ∀ (s s0 : State) (n age : Nat) (m : CanMsg), n < 32 →
    (s.linkUp (32 + n) = false → exec (.canMessageReceive n m age) s = .next s) ∧
    (s.linkUp (32 + n) = true → s.formatExceeds n m.fmt = true →
      exec (.canMessageReceive n m age) s = .next (s.canError n ⟨2, false, false⟩)) ∧
    (s.linkUp (32 + n) = true → s.formatExceeds n m.fmt = false →
      s0 = ((s.setCan n (chanOffBus (s.can n))).canRxGood n).inc (CAN_RX_MSG_CNT_VAL n) →
      s0.fld (CAN_RX_MSG_CNT_VAL n) = (s.fld (CAN_RX_MSG_CNT_VAL n) + 1) % 2 ^ (CAN_RX_MSG_CNT_VAL n).wid ∧
      ((s.can n).recN ≤ 127 → s.flag (CAN_STATUS_FROZEN n) = false → (s0.can n).recN = (s.can n).recN - 1) ∧
      (s0.chimeCluster n m = none → m.kind = .xl → s0.canFlag n 2 = false → s0.canFlag n 4 = true →
        m.sdt = sec8 s0.active tyLEGACY 1 →
        (m.data.length < 14 → exec (.canMessageReceive n m age) s = .next (s0.inc (CAN_TUNNEL_BAD_CNT_VAL n))) ∧
        (14 ≤ m.data.length → exec (.canMessageReceive n m age) s = .next ((s0.inc (CAN_TUNNEL_RX_CNT_VAL n)).receive (32 + n) true
          (tunnelFrame (32 + n) m (s.stampAgo age)) (s.stampAgo age) age none).1)) ∧
      (∀ s2, s0.chimeCluster n m = none → m.kind ≠ .xl → s0.canList n false m.ext (m.id % 2 ^ 29) = (s2, .pass) →
        (s2.canFlag n 1 = true → s2.canFlag n 2 = false → exec (.canMessageReceive n m age) s =
          .next (s2.receive (32 + n) true (canFrame (32 + n) m (s.stampAgo age)) (s.stampAgo age) age none).1) ∧
        (s2.canFlag n 1 = false → s2.canFlag n 2 = true → exec (.canMessageReceive n m age) s =
          .next (s2.acfAdd (32 + n) (s2.acfCan (32 + n) m (s.stampAgo age)))) ∧
        (s2.canFlag n 1 = false → s2.canFlag n 2 = false → exec (.canMessageReceive n m age) s = .next s2)) ∧
      (∀ s2 v, s0.chimeCluster n m = none → m.kind ≠ .xl → s0.canList n false m.ext (m.id % 2 ^ 29) = (s2, v) → v ≠ .pass →
        exec (.canMessageReceive n m age) s = .next ((s2.canDenied n false v).canLogged n m (s.stampAgo age) v)))

/-! ## LIN, ACF batches and unpacking -/

/-- A LIN channel's link and its schedule: ADMIN_DOWN and a dominant bus take the link down, and it comes back once nothing holds it;
a table and a run state that firmware writes take effect at the end of the slot, and a table number not below TABLE_COUNT is ignored; a
commander's slot stops a schedule that is to stop (with a go-to-sleep command that is due) or sends
the next header (R339, R348, R349, R350, R373).
Headers and responses on a LIN channel: a responder takes a header of correct parity; a subscribed ID is awaited, a published one is
answered from its buffer when it was ever written, with the value at the start of its first byte and the checksum of its data; bit, checksum and framing errors and a missing response are counted and
nothing more is awaited; a subscribed response of enough bytes is accepted (R348, R351, R352). -/
def Obligations.LinRunsItsSchedule : Prop :=
  (∀ (s : State) (r : Requester) (n sel e : Nat) (run : Bool), n < 16 →
    (s.reaches r (rLIN_CTL n) →
      (∃ t, exec (.linAdminDown r n true) s = .next t ∧ t.flag (LIN_CTL_ADMIN_DOWN n) = true ∧ t.linkUp (64 + n) = false) ∧
      (∃ t, exec (.linAdminDown r n false) s = .next t ∧ t.flag (LIN_CTL_ADMIN_DOWN n) = false ∧
        (t.linkUp (64 + n) = true ∨ t.channelMayUp (64 + n) = false)) ∧
      (sel % 4 < s.linRec n 10 1 → ∃ t, exec (.linSchedSel r n sel) s = .next t ∧ t.fld (LIN_CTL_SCHED_SEL n) = sel % 4 ∧
        (t.lin n).sel = some (sel % 4) ∧ (t.lin n).run = (s.lin n).run ∧
        { t with regs := s.regs, lins := s.lins } = s ∧ s.RegsBut t [rLIN_CTL n]) ∧
      (s.linRec n 10 1 ≤ sel % 4 → exec (.linSchedSel r n sel) s = .next s) ∧
      (s.flag (LIN_CFG_ROLE n) = true → ∃ t, exec (.linSchedRun r n run) s = .next t ∧ t.flag (LIN_CTL_SCHED_RUN n) = run ∧
        (t.lin n).run = (if s.flag (LIN_STATUS_RUNNING n) = run then none else some run) ∧
        { t with regs := s.regs, lins := s.lins } = s ∧ s.RegsBut t [rLIN_CTL n]) ∧
      (s.flag (LIN_CFG_ROLE n) = false → ∃ t, exec (.linSchedRun r n run) s = .next t ∧ t.flag (LIN_CTL_SCHED_RUN n) = run ∧
        s.OnlyRegs t [rLIN_CTL n])) ∧
    (s.portEnabled (64 + n) = true → ∃ t, exec (.linBusDominant n) s = .next t ∧ t.flag (LIN_STATUS_DOMINANT n) = true ∧
      t.linkUp (64 + n) = false) ∧
    (s.flag (LIN_STATUS_DOMINANT n) = true → ∃ t, exec (.linBusRelease n) s = .next t ∧ t.flag (LIN_STATUS_DOMINANT n) = false ∧
      (t.linkUp (64 + n) = true ∨ t.channelMayUp (64 + n) = false)) ∧
    (s.flag (LIN_STATUS_DOMINANT n) = false → exec (.linBusRelease n) s = .next s) ∧
    (s.flag (LIN_CFG_ROLE n) = true → s.linkUp (64 + n) = true → (s.lin n).sleepCmd = false →
      ((s.lin n).run = some false → ∃ t, exec (.linSlot n e) s = .next t ∧ t.flag (LIN_STATUS_RUNNING n) = false ∧
        (t.lin n).run = none ∧ (t.lin n).await = none ∧ (t.lin n).sending = none ∧
        { t with regs := s.regs, lins := s.lins } = s ∧ s.RegsBut t [rLIN_STATUS n]) ∧
      ((s.lin n).run = none → s.flag (LIN_STATUS_RUNNING n) = false → exec (.linSlot n e) s = .next s) ∧
      ((s.lin n).run = some true → s.flag (LIN_STATUS_RUNNING n) = false → (s.lin n).sel = some sel → sel < 4 →
        (s.linTable n sel).1 < (s.linTable n sel).2 → ∃ t, exec (.linSlot n e) s = .next t ∧
          t.flag (LIN_STATUS_RUNNING n) = true ∧ t.fld (LIN_STATUS_TABLE n) = sel % 2 ^ (LIN_STATUS_TABLE n).wid ∧
          t.fld (LIN_STATUS_ENTRY n) = (s.linTable n sel).1 % 2 ^ (LIN_STATUS_ENTRY n).wid ∧ (t.lin n).run = none ∧
          (t.lin n).sel = none ∧ (t.lin n).breakTs = s.stampNow e ∧
          t.fld (LIN_HDR_CNT_VAL n) = (s.fld (LIN_HDR_CNT_VAL n) + 1) % 2 ^ (LIN_HDR_CNT_VAL n).wid)) ∧
    (s.flag (LIN_CFG_ROLE n) = true → s.linkUp (64 + n) = true → (s.lin n).sleepCmd = true → ∃ t, exec (.linSlot n e) s = .next t ∧
      t.flag (LIN_STATUS_RUNNING n) = false ∧ (t.lin n).sleepCmd = false ∧ (t.lin n).sending = some goToSleep ∧
      t.fld (LIN_HDR_CNT_VAL n) = (s.fld (LIN_HDR_CNT_VAL n) + 1) % 2 ^ (LIN_HDR_CNT_VAL n).wid ∧
      { t with regs := s.regs, lins := s.lins } = s ∧ s.RegsBut t [rLIN_STATUS n, rLIN_HDR_CNT n])) ∧
  (∀ (s : State) (n pid age id : Nat) (d : List Byte) (e : LinErr), n < 16 →
    (s.flag (LIN_CFG_ROLE n) = true ∨ s.linkUp (64 + n) = false ∨ pid ≠ linPid (pid % 64) →
      exec (.linHeader n pid age) s = .next s) ∧
    (s.flag (LIN_CFG_ROLE n) = false → s.linkUp (64 + n) = true → pid = linPid (pid % 64) →
      (s.linDir n (pid % 64) = 1 → ∃ t, exec (.linHeader n pid age) s = .next t ∧ (t.lin n).await = some (pid % 64) ∧
        (t.lin n).sending = none ∧ (t.lin n).breakTs = s.stampAgo age ∧ { t with lins := s.lins } = s) ∧
      (s.linDir n (pid % 64) = 2 → s.linResp n (pid % 64) = some d → ∃ t, exec (.linHeader n pid age) s = .next t ∧
        (t.lin n).due = some (pid % 64) ∧ (t.lin n).sending = none ∧ (t.lin n).await = none ∧ { t with lins := s.lins } = s) ∧
      (s.linDir n (pid % 64) = 2 → s.linResp n (pid % 64) = none → ∃ t, exec (.linHeader n pid age) s = .next t ∧
        (t.lin n).due = none ∧ (t.lin n).sending = none ∧ (t.lin n).await = none ∧ t.flag (LIN_EVT_NO_DATA n) = true ∧
        t.fld (LIN_NO_DATA_CNT_VAL n) = (s.fld (LIN_NO_DATA_CNT_VAL n) + 1) % 2 ^ (LIN_NO_DATA_CNT_VAL n).wid ∧
        { t with regs := s.regs, lins := s.lins } = s ∧ s.RegsBut t [rLIN_NO_DATA_CNT n, rLIN_EVT n])) ∧
    (s.linkUp (64 + n) = true → (s.lin n).due = some id → s.linResp n id = some d → ∃ t, exec (.linResponse n [] .start) s = .next t ∧
      (t.lin n).due = none ∧ { t with lins := s.lins } = s ∧
      ((s.lin n).old = none → (t.lin n).sending =
        some (id, d ++ [linChecksum (if s.linEnhanced n id then some (linPid id) else none) d])) ∧
      (∀ b, (s.lin n).old = some (id, b, s.clk) → (t.lin n).sending =
        some (id, b ++ [linChecksum (if s.linEnhanced n id then some (linPid id) else none) b]))) ∧
    (s.linkUp (64 + n) = true → (s.lin n).due = none → exec (.linResponse n [] .start) s = .next s) ∧
    (s.linkUp (64 + n) = true → ∃ t, exec (.linResponse n d .bit) s = .next t ∧ (t.lin n).sending = none ∧ (t.lin n).await = none ∧
      (t.lin n).due = none ∧ t.flag (LIN_EVT_RX_ERR n) = true ∧
      t.fld (LIN_BIT_ERR_CNT_VAL n) = (s.fld (LIN_BIT_ERR_CNT_VAL n) + 1) % 2 ^ (LIN_BIT_ERR_CNT_VAL n).wid ∧
      { t with regs := s.regs, lins := s.lins } = s ∧ s.RegsBut t [rLIN_BIT_ERR_CNT n, rLIN_EVT n]) ∧
    (s.linkUp (64 + n) = true → (s.lin n).sending = some (id, d) → e ≠ .bit → e ≠ .start →
      ∃ t, exec (.linResponse n d e) s = .next t ∧ (t.lin n).sending = none ∧ { t with lins := s.lins } = s) ∧
    (s.linkUp (64 + n) = false → exec (.linResponse n d e) s = .next s) ∧
    (s.linkUp (64 + n) = true → (s.lin n).sending = none → (s.lin n).await = some id →
      (∃ t, exec (.linResponse n d .checksum) s = .next t ∧ (t.lin n).await = none ∧ t.flag (LIN_EVT_RX_ERR n) = true ∧
        t.fld (LIN_CKSUM_ERR_CNT_VAL n) = (s.fld (LIN_CKSUM_ERR_CNT_VAL n) + 1) % 2 ^ (LIN_CKSUM_ERR_CNT_VAL n).wid) ∧
      (∃ t, exec (.linResponse n d .framing) s = .next t ∧ (t.lin n).await = none ∧
        t.fld (LIN_FRAMING_ERR_CNT_VAL n) = (s.fld (LIN_FRAMING_ERR_CNT_VAL n) + 1) % 2 ^ (LIN_FRAMING_ERR_CNT_VAL n).wid) ∧
      (e = .none → d.length = s.linLen n id → exec (.linResponse n d e) s = .next (s.linAccept n id d)) ∧
      (e = .none → d.length < s.linLen n id → exec (.linResponse n d e) s = .next s)) ∧
    ((s.lin n).await = some id → ∃ t, exec (.linResponseTimeout n) s = .next t ∧ (t.lin n).await = none ∧
      t.flag (LIN_EVT_RX_ERR n) = true ∧
      t.fld (LIN_NO_RESP_CNT_VAL n) = (s.fld (LIN_NO_RESP_CNT_VAL n) + 1) % 2 ^ (LIN_NO_RESP_CNT_VAL n).wid ∧
      { t with regs := s.regs, lins := s.lins } = s) ∧
    ((s.lin n).await = none → exec (.linResponseTimeout n) s = .next s))

/-- ACF: an empty batch closes as nothing, another enters the core as an AVTPDU under the next sequence number, counted as sent, and as
dropped where it is refused; the unpacking of an AVTPDU moves its messages one by one, skips those of another type or bus, and
ends at a message whose length is 0 or passes its end (R359, R360, R361, R362, R363). -/
def Obligations.AcfBatchesAndUnpacking : Prop := ∀ (s s1 s2 s3 : State) (n : Nat) (u : Unpack), n < 32 →
    ((s.can n).batchN = 0 → exec (.acfBatchClose false n) s = .next s) ∧
    (n < 16 → (s.lin n).batchN = 0 → exec (.acfBatchClose true n) s = .next s) ∧
    ((s.can n).batchN ≠ 0 → s1 = s.setCan n { s.can n with batch := [], batchN := 0, acfSeq := ((s.can n).acfSeq + 1) % 256 } →
      s2 = s1.inc (CAN_ACF_SENT_CNT_VAL n) →
      (s2.receive (32 + n) true (legacyHeader 3 (32 + n) (s.can n).batchN 0 (s.avtpdu (32 + n) (s.can n).batch
          (s.can n).acfSeq).length 0 0 0 0 s.nowCt ++ s.avtpdu (32 + n) (s.can n).batch (s.can n).acfSeq) s2.stamp 0 none = (s3, true) →
        exec (.acfBatchClose false n) s = .next s3) ∧
      (s2.receive (32 + n) true (legacyHeader 3 (32 + n) (s.can n).batchN 0 (s.avtpdu (32 + n) (s.can n).batch
          (s.can n).acfSeq).length 0 0 0 0 s.nowCt ++ s.avtpdu (32 + n) (s.can n).batch (s.can n).acfSeq) s2.stamp 0 none = (s3, false) →
        exec (.acfBatchClose false n) s = .next ((s3.inc (CAN_ACF_DROP_CNT_VAL n)).setFlag (CAN_EVT_ACF_DROP n)))) ∧
    ((s.can n).unpack = none → exec (.unpackMove false n) s = .next s) ∧
    (n < 16 → (s.lin n).unpack = none → exec (.unpackMove true n) s = .next s) ∧
    ((s.can n).unpack = some u →
      (u.rest = [] → ∃ t, exec (.unpackMove false n) s = .next t ∧ (t.can n).unpack = none ∧ t = s.unpackRest (32 + n) u []) ∧
      (u.rest ≠ [] → 4 * (byteAt u.rest 0 % 2 * 256 + byteAt u.rest 1) = 0 ∨ u.rest.length < 2 ∨
          u.rest.length < 4 * (byteAt u.rest 0 % 2 * 256 + byteAt u.rest 1) → ∃ t, exec (.unpackMove false n) s = .next t ∧
        (t.can n).unpack = none ∧ t.flag (CAN_EVT_UNPACK_BAD n) = true ∧
        t.fld (CAN_UNPACK_BAD_CNT_VAL n) = (s.fld (CAN_UNPACK_BAD_CNT_VAL n) + 1) % 2 ^ (CAN_UNPACK_BAD_CNT_VAL n).wid) ∧
      (∀ len, len = 4 * (byteAt u.rest 0 % 2 * 256 + byteAt u.rest 1) → 0 < len → len < u.rest.length →
        byteAt u.rest 0 / 2 ≠ 1 → byteAt u.rest 0 / 2 ≠ 2 → ∃ t, exec (.unpackMove false n) s = .next t ∧
          (t.can n).unpack = some { u with rest := u.rest.drop len } ∧
          t.fld (CAN_UNPACK_SKIP_CNT_VAL n) = (s.fld (CAN_UNPACK_SKIP_CNT_VAL n) + 1) % 2 ^ (CAN_UNPACK_SKIP_CNT_VAL n).wid ∧
          { t with regs := s.regs, cans := s.cans } = s) ∧
      (∀ len m, len = 4 * (byteAt u.rest 0 % 2 * 256 + byteAt u.rest 1) → 8 ≤ len → len ≤ u.rest.length →
        byteAt u.rest 0 / 2 = 2 → byteAt (u.rest.take len) 3 % 32 = s.acfBus (32 + n) → m = acfCanMsg (u.rest.take len) 8 →
        s.formatExceeds n m.fmt = false → m.data.length ≤ (if m.kind = .classic then 8 else 64) → s.txbufUsed n < 32 →
        (∀ s4, s.canList n true m.ext m.id = (s4, .pass) → exec (.unpackMove false n) s = .next
          (((s4.canPush n m u.frame.tc u.frame.time none).inc (CAN_UNPACK_CNT_VAL n)).unpackRest (32 + n) u (u.rest.drop len))))) ∧
    (n < 16 → (s.lin n).unpack = some u → u.rest = [] → ∃ t, exec (.unpackMove true n) s = .next t ∧ (t.lin n).unpack = none ∧
      t = s.unpackRest (64 + n) u [])

/-! ## Sleep and wake of the clusters -/

/-- A cluster's way to sleep: REPEAT ends in NORMAL, NORMAL without a request, its timer run out, in READY_SLEEP, READY_SLEEP once drained or at READY_MAX_MS in
PREPARE_SLEEP with every LIN commander told to stop and every segment to request TC10 sleep, PREPARE_SLEEP in the Knell with every member's link down, and the Knell in BUS_SLEEP
or, with a wake latched, in REPEAT (R371, R372, R373, R375, R378).
What wakes a cluster in BUS_SLEEP outside device sleep: an edge of its WAKE pin, the wake-up pattern and a matching wake-up frame on a CAN
channel, too many frame errors, a wake on a LIN bus, TC10, and firmware's request; each is noted in one wake record
(R370, R376, R377, R379, R386, R387). -/
def Obligations.NmClusterSleepsAndWakes : Prop :=
  (∀ (s : State) (c : Nat), c < 16 → s.ncEnabled c = true →
    (s.nc c = ncREPEAT → ∃ t, exec (.nmRepeatExpire c) s = .next t ∧ t.nc c = ncNORMAL ∧ t.flag (NMW_NC_EVT_STATE_CHG c) = true ∧
      s.OnlyRegs t [rNMW_NC_STATE c, rNMW_NC_EVT c]) ∧
    (s.nc c = ncNORMAL → s.ncRequested c = false → s.nmDue c = true → ∃ t, exec (.nmTimeout c) s = .next t ∧ t.nc c = ncREADY ∧
      t.flag (NMW_NC_EVT_STATE_CHG c) = true ∧ s.OnlyRegs t [rNMW_NC_STATE c, rNMW_NC_EVT c]) ∧
    (s.nc c = ncNORMAL → s.ncRequested c = true ∨ s.nmDue c = false → exec (.nmTimeout c) s = .next s) ∧
    (s.nc c = ncREADY → s.ncDrained c = false → exec (.readySleepDrained c) s = .next s) ∧
    (∀ cmd, s.nc c = ncREADY → (cmd = .readySleepDrained c ∧ s.ncDrained c = true) ∨ cmd = .readyMaxExpire c →
      ∃ t, exec cmd s = .next t ∧ t.nc c = ncPREPARE ∧ t.flag (NMW_NC_EVT_STATE_CHG c) = true ∧
        (∀ n, n < 16 → s.ncMember c (64 + n) = true → s.flag (LIN_CFG_ROLE n) = true → (t.lin n).run = some false ∧
          (t.lin n).sleepCmd = true ∧ (t.lin n).restart = false) ∧
        (∀ p, 24 ≤ p → p < 32 → s.ncMember c p = true → (t.port p).tc10Req = true) ∧
        { t with regs := s.regs, lins := s.lins, ports := s.ports } = s ∧ s.RegsBut t [rNMW_NC_STATE c, rNMW_NC_EVT c]) ∧
    (s.nc c = ncPREPARE → ∃ t, exec (.knell c) s = .next t ∧ t.nc c = ncSHUTDOWN ∧ (t.nmSt c).knell = s.ao ∧
      (t.nmSt c).latched = none ∧ (t.nmSt c).settling = false ∧ (t.nmSt c).gpioLow = true ∧
      t.fld (NMW_NC_KNELL_CNT_VAL c) = (s.fld (NMW_NC_KNELL_CNT_VAL c) + 1) % 2 ^ 32 ∧
      (∀ p, s.ncMember c p = true → t.linkUp p = false) ∧
      (∀ n, n < 32 → s.ncMember c (32 + n) = true → t.flag (CAN_STATUS_FROZEN n) = true ∧ t.fld (NMW_CAN_SW_FEC n) = 0)) ∧
    (s.nc c = ncSHUTDOWN → s.pwr.sleep = 0 → (s.nmSt c).latched = none → ∃ t, exec (.knellEnd c) s = .next t ∧
      t.nc c = ncBUS_SLEEP ∧ t.flag (NMW_NC_EVT_KNELL c) = true ∧ s.OnlyRegs t [rNMW_NC_STATE c, rNMW_NC_EVT c]) ∧
    (∀ ev, s.nc c = ncSHUTDOWN → s.pwr.sleep = 0 → (s.nmSt c).latched = some ev → ∃ t, exec (.knellEnd c) s = .next t ∧
      t.nc c = ncREPEAT ∧ t.flag (NMW_NC_EVT_KNELL c) = true ∧ t.flag (NMW_NC_EVT_WAKE c) = true ∧
      (t.nmSt c).settling = true ∧ (t.nmSt c).gpioLow = false ∧ (t.nmSt c).latched = none ∧ (s.wrec.length < 32 → t.wrec = s.wrec ++
        [⟨ev.src, ev.idx, c, s.wakeFlags true false ev.pat, ev.time, (s.nmSt c).knell⟩])) ∧
    (s.nc c = ncSHUTDOWN → s.pwr.sleep ≠ 0 → ∃ t, exec (.knellEnd c) s = .next t ∧ t.nc c = ncBUS_SLEEP ∧
      t.nmSt c = s.nmSt c) ∧
    (s.nc c ≠ ncREPEAT → exec (.nmRepeatExpire c) s = .next s) ∧ (s.nc c ≠ ncREADY → exec (.readyMaxExpire c) s = .next s) ∧
    (s.nc c ≠ ncPREPARE → exec (.knell c) s = .next s) ∧ (s.nc c ≠ ncSHUTDOWN → exec (.knellEnd c) s = .next s)) ∧
  (∀ (s : State) (r : Requester) (c n k id dlc : Nat) (ext : Bool) (d : List Byte),
    c < 16 → s.ncEnabled c = true → s.nc c = ncBUS_SLEEP → s.pwr.sleep = 0 →
    s.pwr.wakes.any (fun w => w.cluster == c) = false →
    (k < 8 → s.pinCluster k = some c →
      bitOf (bits (secLe s.active tyNMCLUSTER (8 + k) 1) 0 2) (if s.flag (NMW_WAKEPIN_LEVEL k) then 1 else 0) = true →
      ∃ t, exec (.wakePinEdge k) s = .next t ∧ s.WokeCluster t c 1 k 0 ∧
        t.flag (NMW_WAKEPIN_LEVEL k) = !s.flag (NMW_WAKEPIN_LEVEL k)) ∧
    (k < 8 → bitOf (bits (secLe s.active tyNMCLUSTER (8 + k) 1) 0 2) (if s.flag (NMW_WAKEPIN_LEVEL k) then 1 else 0) = false →
      ∃ t, exec (.wakePinEdge k) s = .next t ∧ t.flag (NMW_WAKEPIN_LEVEL k) = (!s.flag (NMW_WAKEPIN_LEVEL k)) ∧
        s.OnlyRegs t [rNMW_WAKEPIN k]) ∧
    (n < 32 → s.clusterOf (32 + n) = some c →
      (bitOf (s.cwRec n 1 1) 1 = true → ∃ t, exec (.canWakePattern n) s = .next t ∧ s.WokeCluster t c 2 n 0) ∧
      (bitOf (s.cwRec n 1 1) 1 = false → exec (.canWakePattern n) s = .next s) ∧
      (bitOf (s.cwRec n 1 1) 0 = true → s.wakePower 2 = true →
        ((List.range (min 4 (s.cwRec n 3 1))).find? (s.swMatch n ext id dlc d) = some k →
          ∃ t, exec (.swFrameDecode n (.frame false ext id dlc d)) s = .next t ∧ s.WokeCluster t c 3 n k ∧
            t.fld (NMW_CAN_SW_MATCH_CNT_VAL n) = (s.fld (NMW_CAN_SW_MATCH_CNT_VAL n) + 1) % 2 ^ 32) ∧
        ((List.range (min 4 (s.cwRec n 3 1))).find? (s.swMatch n ext id dlc d) = none →
          ∃ t, exec (.swFrameDecode n (.frame false ext id dlc d)) s = .next t ∧
            t.fld (NMW_CAN_SW_FEC n) = s.fld (NMW_CAN_SW_FEC n) - 1 ∧
            t.fld (NMW_CAN_SW_IGNORE_CNT_VAL n) = (s.fld (NMW_CAN_SW_IGNORE_CNT_VAL n) + 1) % 2 ^ 32 ∧
            s.OnlyRegs t [rNMW_CAN_SW n, rNMW_CAN_SW_IGNORE_CNT n]) ∧
        (s.fld (NMW_CAN_SW_FEC n) + 1 ≤ s.cwRec n 2 1 → ∃ t, exec (.swFrameDecode n .error) s = .next t ∧
          t.fld (NMW_CAN_SW_FEC n) = min (s.fld (NMW_CAN_SW_FEC n) + 1) 255 ∧
          t.fld (NMW_CAN_SW_ERR_CNT_VAL n) = (s.fld (NMW_CAN_SW_ERR_CNT_VAL n) + 1) % 2 ^ 32 ∧
          s.OnlyRegs t [rNMW_CAN_SW n, rNMW_CAN_SW_ERR_CNT n]) ∧
        (s.cwRec n 2 1 < s.fld (NMW_CAN_SW_FEC n) + 1 → ∃ t, exec (.swFrameDecode n .error) s = .next t ∧
          s.WokeCluster t c 4 n 0)) ∧
      (bitOf (s.cwRec n 1 1) 0 = false ∨ s.wakePower 2 = false → exec (.swFrameDecode n .error) s = .next s)) ∧
    (n < 32 → ∃ t, exec (.swBusIdle n) s = .next t ∧ t.flag (NMW_CAN_SW_OSC_ON n) = false ∧ t.flag (NMW_CAN_SW_DECODING n) = false ∧
      s.OnlyRegs t [rNMW_CAN_SW n]) ∧
    (n < 16 → s.clusterOf (64 + n) = some c → ∃ t, exec (.linBusWake n) s = .next t ∧ s.WokeCluster t c 5 n 0) ∧
    (24 ≤ k → k < 32 → s.clusterOf k = some c → s.wakePower 3 = true → ∃ t, exec (.tc10Wake k) s = .next t ∧
      s.WokeCluster t c 6 (k - 24) 0) ∧
    (s.wakePower 3 = false → exec (.tc10Wake k) s = .next s) ∧
    (s.reaches r (rNMW_NC_REQ c) → s.flag (NMW_NC_REQ_FW c) = false → ∃ t, exec (.nmFwRequest r c true) s = .next t ∧
      t.flag (NMW_NC_REQ_FW c) = true ∧ s.WokeCluster t c 8 0x40 0))

/-- Requests, Chimes, settling and the NMW captures: a request held in NORMAL and the release of the last one restart the timer; a Chime
goes into the Chime entry of every CAN member whose link is up; the end of SETTLE_US brings the links up; a LIN commander
restarts its schedule; AO_SNAP captures both counts at once; POP drops the head wake record (R371, R374, R380, R391, R392). -/
def Obligations.RequestsChimesAndCaptures : Prop := ∀ (s : State) (r : Requester) (c n : Nat), c < 16 → n < 32 →
    (s.reaches r (rNMW_NC_REQ c) → s.nc c = ncNORMAL →
      (s.flag (NMW_NC_REQ_FW c) = false → ∃ t, exec (.nmFwRequest r c true) s = .next t ∧ t.flag (NMW_NC_REQ_FW c) = true ∧
        (t.nmSt c).timerAt = s.ao ∧ { t with regs := s.regs, nm := s.nm } = s ∧ s.RegsBut t [rNMW_NC_REQ c]) ∧
      (s.flag (NMW_NC_REQ_FW c) = true → ∃ t, exec (.nmFwRequest r c true) s = .next t ∧ t.flag (NMW_NC_REQ_FW c) = true ∧
        s.OnlyRegs t [rNMW_NC_REQ c]) ∧
      (s.flag (NMW_NC_REQ_FW c) = true → s.flag (NMW_NC_REQ_LEDGER c) = false →
        s.fld64 (NMW_NC_TREQ_LO_TN c) (NMW_NC_TREQ_HI_TN c) = 0 → ∃ t, exec (.nmFwRequest r c false) s = .next t ∧
        t.ncRequested c = false ∧ (t.nmSt c).timerAt = s.ao)) ∧
    (s.ncPassive c = false → (s.nmSt c).settling = false → s.ncIs c ncREPEAT = true → ∃ t, exec (.chimeTimer c) s = .next t ∧
      t.free = s.free + 1 ∧ (s.ncMember c (32 + n) = true → s.linkUp (32 + n) = true → ∃ e : CanTx,
        (if (s.can n).txbuf.any (fun e => e.chime.isSome && e.onBus) then (t.can n).txbuf = (s.can n).txbuf ∧ (t.can n).chimeDue = some e
          else (t.can n).txbuf = (s.can n).txbuf.filter (fun e => e.chime.isNone) ++ [e]) ∧ e.chime = some c ∧ e.onBus = false ∧
        e.msg.id = s.ncRec c 12 2 + s.ncRec c 2 1 ∧ e.msg.dlc = 8 ∧ e.msg.data.length = 8 ∧
        byteAt e.msg.data 0 = s.ncRec c 2 1 % 256) ∧
      ((s.ncMember c (32 + n) = false ∨ s.linkUp (32 + n) = false) → t.can n = s.can n) ∧ t.regs = s.regs) ∧
    (s.ncPassive c = true ∨ (s.nmSt c).settling = true → exec (.chimeTimer c) s = .next s) ∧
    ((s.nmSt c).settling = true → ∃ t, exec (.settleExpire c) s = .next t ∧ (t.nmSt c).settling = false ∧
      (s.ncMember c (32 + n) = true → (t.can n).joining = false ∧ (t.linkUp (32 + n) = true ∨ t.channelMayUp (32 + n) = false))) ∧
    ((s.nmSt c).settling = false → exec (.settleExpire c) s = .next s) ∧
    (n < 16 → (s.lin n).restart = true → s.flag (LIN_CFG_ROLE n) = true → s.flag (LIN_CTL_SCHED_RUN n) = true → ∃ t,
      exec (.linScheduleRestart n) s = .next t ∧ (t.lin n).restart = false ∧ (t.lin n).pulse = false ∧ (t.lin n).run = some true ∧
      (t.lin n).sel = some (s.fld (LIN_CTL_SCHED_SEL n)) ∧ (t.lin n).sleepCmd = false ∧ t.flag (LIN_STATUS_RUNNING n) = false ∧
      { t with regs := s.regs, lins := s.lins } = s ∧ s.RegsBut t [rLIN_STATUS n]) ∧
    (n < 16 → (s.lin n).restart = true → s.flag (LIN_CFG_ROLE n) = false → ∃ t, exec (.linScheduleRestart n) s = .next t ∧
      t.lin n = { s.lin n with restart := false, pulse := false } ∧ { t with lins := s.lins } = s) ∧
    ((s.lin n).restart = false → exec (.linScheduleRestart n) s = .next s) ∧
    (s.reaches r rNMW_AO_SNAP → s.ao < 2 ^ 48 → ∃ t, exec (.nmwAoSnap r) s = .next t ∧
      t.fld64 NMW_AO_SNAP_AO_LO_AO NMW_AO_SNAP_AO_HI_AO = s.ao ∧ t.fld64 NMW_AO_SNAP_CT_LO_CT48 NMW_AO_SNAP_CT_HI_CT48 = s.nowCt ∧
      s.OnlyRegs t [rNMW_AO_SNAP_AO_LO, rNMW_AO_SNAP_AO_HI, rNMW_AO_SNAP_CT_LO, rNMW_AO_SNAP_CT_HI]) ∧
    (s.reaches r rNMW_WREC_POP → exec (.wrecPop r) s = .next { s with wrec := s.wrec.drop 1 })

/-! ## Flows -/

/-- Flow requests, the flush and the sweeper: the request with the earliest stamp, Plane A's first, leaves its FIFO and refreshes the entry
that holds its key or inserts it, or is counted where no place is found, and gone where no plane takes it; the flush deletes every flow entry; the sweeper ages
the flows of its profile and deletes those fully aged (R401, R403, R404). -/
def Obligations.FlowsAreAppliedSweptAndFlushed : Prop := ∀ (s s1 : State) (r : Requester) (q : FlowReq) (ri prof : Nat) (rg : Region),
    (s.planeA.flowQ = [] → s.planeB.flowQ = [] → exec .flowRequestApply s = .next s) ∧
    (∀ qa, s.planeA.flowQ = q :: qa → (∀ b, b ∈ s.planeB.flowQ.take 1 → q.stamp ≤ b.stamp) →
      s1 = { s with planeA := { s.planeA with flowQ := qa } } → s1.flowHome = some (ri, rg) → s1.anyWriter = true →
      (∀ b e x, bestOf s1.epoch (holders rg (s1.view rg) q.key) = some (b, e, x) →
        exec .flowRequestApply s = .next (s1.tblApply ri [.status b e 0 0x180])) ∧
      (∀ s2 x, bestOf s1.epoch (holders rg (s1.view rg) q.key) = none → s1.place ri q.key q.result stVALID = (s2, some x) →
        exec .flowRequestApply s = .next s2) ∧
      (∀ s2, bestOf s1.epoch (holders rg (s1.view rg) q.key) = none → s1.place ri q.key q.result stVALID = (s2, none) →
        exec .flowRequestApply s = .next (((s2.inc FWL_FLOW_FAIL_CNT_VAL).setFlag FWL_EVT_FLOW_FAIL).setFlag
          (TBL_EVT_NEED_REHASH s2.lead)))) ∧
    (∀ qa, s.planeA.flowQ = q :: qa → (∀ b, b ∈ s.planeB.flowQ.take 1 → q.stamp ≤ b.stamp) →
      s1 = { s with planeA := { s.planeA with flowQ := qa } } → s1.flowHome = none ∨ s1.anyWriter = false →
      exec .flowRequestApply s = .next s1) ∧
    (∀ a qb, s.planeB.flowQ = q :: qb → (s.planeA.flowQ = [] ∨ (s.planeA.flowQ.head? = some a ∧ q.stamp < a.stamp)) →
      s1 = { s with planeB := { s.planeB with flowQ := qb } } → exec .flowRequestApply s = .next (s1.applyFlow q)) ∧
    (s.reaches r rFWL_CTL → s.flowHome = some (ri, rg) →
      (s.flag FWL_CFG_FLOWS_EN = true → exec (.flushFlows r) s =
        .next (s.tblApply ri ((s.flows rg).map (fun x => .clear x.1 x.2.1)))) ∧
      (s.flag FWL_CFG_FLOWS_EN = false → exec (.flushFlows r) s = .next s)) ∧
    (s.flowHome = some (ri, rg) →
      (s.flag FWL_CFG_FLOWS_EN = false ∨ s.anyWriter = false → exec (.flowSweep prof) s = .next s) ∧
      (s.flag FWL_CFG_FLOWS_EN = true → s.anyWriter = true →
        ((∀ x, x ∈ s.flows rg → bits x.2.2.result 0 2 ≠ prof) → exec (.flowSweep prof) s = .next s) ∧
        (∀ x, s.flows rg = [x] → bits x.2.2.result 0 2 = prof →
          ((s.agesOf ri x.1 x.2.1).all (· == 3) = true → exec (.flowSweep prof) s =
            .next ((s.tblApply ri [.clear x.1 x.2.1]).inc FWL_FLOW_AGED_CNT_VAL)) ∧
          ((s.agesOf ri x.1 x.2.1).all (· == 3) = false → exec (.flowSweep prof) s = .next (s.ageUp ri x.1 x.2.1)))))

/-! ## Belfry -/

/-- The commands that put a key into an empty slot from 16 up, for firmware: GENERATE draws random bytes and DERIVE derives from a parent
that may, IMPORT unwraps under one that may or ends with UNWRAP, IMPORT_PUBLIC takes the point staged. GENERATE
into the pending half of a valid slot takes ALG and USAGE from its record (R412, R415, R418, R425).
The commands on a slot that firmware may alter: CHECK compares the pending key, COMMIT puts it in service with the next VERSION,
DISCARD_PENDING drops it, INVALIDATE empties the slot with the next generation, or waits for the reclaimer while the slot still has
children of its previous key; and one step of the reclaimer, which empties the slot it visits when that is orphaned (R413, R414, R418). -/
def Obligations.BelfryMakesAndChangesSlots : Prop :=
  (∀ (s : State) (n p alg usage : Nat) (e : Bool) (k0 pk : KeyHalf),
    alg = s.fld BLF_CMD_ARG_ALG → usage = s.fld BLF_CMD_ARG_USAGE → p = s.fld BLF_CMD_ARG_ARG →
    s.reaches .mc rBLF_CMD → s.flag BLF_CMD_BUSY = false → 16 ≤ n → n < 1024 →
    ((s.slot n).cur = none → bitOf usage 7 = false →
      (isAes alg = true ∨ isPriv alg = true → ∃ t, exec (.blfGenerate .mc n false e) s = .next t ∧
        s.BlfMade t n ⟨alg, usage, 0xFFFF, 0, 0, e, 0, (s.random (keyLen alg)).2, pubOf alg (s.random (keyLen alg)).2⟩ ∧
        t.free = s.free + keyLen alg) ∧
      (isPub alg = true → ∃ t, exec (.blfImportPublic .mc n) s = .next t ∧
        s.BlfMade t n ⟨alg, usage, 0xFFFF, 0, 2, false, 0, [], (s.window (rBLF_DATA 0) 4096).take (pubLen alg)⟩ ∧ t.free = s.free) ∧
      (16 ≤ p → (s.slot p).cur = some pk → s.orphaned p = false → isAes pk.alg = true → pk.depth < 7 →
        (isAes alg = true → bitOf pk.usage 5 = true → ∃ t, exec (.blfDerive .mc n false e) s = .next t ∧
          s.BlfMade t n ⟨alg, usage, p, (s.slot p).gen, 1, e, pk.depth + 1,
            derive108 pk.key (s.window (rBLF_DATA 0) 4096) (keyLen alg), []⟩ ∧ t.free = s.free) ∧
        (isAes alg = true ∨ isPriv alg = true → bitOf pk.usage 6 = true → ∃ t, exec (.blfImport .mc n false e) s = .next t ∧
          (∀ key, unwrapKey pk.key ((s.window (rBLF_DATA 0) 4096).take (keyLen alg + 8)) = some key →
            s.BlfMade t n ⟨alg, usage, p, (s.slot p).gen, 2, e, pk.depth + 1, key, pubOf alg key⟩) ∧
          (unwrapKey pk.key ((s.window (rBLF_DATA 0) 4096).take (keyLen alg + 8)) = none →
            s.BlfEnded t 0xB [] ∧ t.blf.slots = s.blf.slots)))) ∧
    ((s.slot n).cur = some k0 → s.orphaned n = false → isAes k0.alg = true ∨ isPriv k0.alg = true → bitOf k0.usage 7 = false →
      ∃ t, exec (.blfGenerate .mc n true e) s = .next t ∧ s.BlfEnded t 1 [] ∧
        t.slot n = { s.slot n with
          pend := some ⟨k0.alg, k0.usage, 0xFFFF, 0, 0, e, 0, (s.random (keyLen k0.alg)).2,
            pubOf k0.alg (s.random (keyLen k0.alg)).2⟩
          checked := false } ∧ (∀ m, m ≠ n → t.slot m = s.slot m)) ∧
    -- a slot that holds a key takes no other
    ((s.slot n).cur = some k0 → ∃ t, exec (.blfGenerate .mc n false e) s = .next t ∧ s.BlfEnded t 0x10 [] ∧
      t.blf.slots = s.blf.slots)) ∧
  (∀ (s : State) (n m : Nat) (k q : KeyHalf) (good : Bool),
    (s.reaches .mc rBLF_CMD → s.flag BLF_CMD_BUSY = false → 16 ≤ n → n < 1024 →
      ((s.slot n).pend = some q → s.orphaned n = false →
        good = (if isAes q.alg then (cryptoBytes (.ecb false) [q.key, List.replicate 16 0] 16).take 3 ==
            leBytes 3 ((s.reg rBLF_CMD_ARG).toNat % 2 ^ 24)
          else ecVerify (algBig q.alg) q.pub (testDigest (algBig q.alg)) (ecSign (algBig q.alg) q.key (testDigest (algBig q.alg))
            (s.random (ecLen (algBig q.alg))).2)) →
        ∃ t, exec (.blfCheck .mc n) s = .next t ∧ s.BlfEnded t (if good then 1 else 9) [] ∧
          t.slot n = (if good then { s.slot n with checked := true } else s.slot n) ∧ (∀ i, i ≠ n → t.slot i = s.slot i)) ∧
      ((s.slot n).cur = some k → s.orphaned n = false →
        ((s.slot n).pend = some q → (s.slot n).checked = true → ∃ t, exec (.blfCommit .mc n) s = .next t ∧ s.BlfEnded t 1 [] ∧
          t.slot n = { s.slot n with
            cur := some q
            pend := none
            checked := false
            version := ((s.slot n).version + 1) % 65536 } ∧ (∀ i, i ≠ n → t.slot i = s.slot i) ∧
          t.blf.edges = ⟨n, s.slot n, false⟩ :: s.blf.edges) ∧
        ((s.slot n).pend = none ∨ (s.slot n).checked = false → ∃ t, exec (.blfCommit .mc n) s = .next t ∧ s.BlfEnded t 0xA [] ∧
          t.blf.slots = s.blf.slots)) ∧
      (∃ t, exec (.blfDiscardPending .mc n) s = .next t ∧ s.BlfEnded t 1 [] ∧
        t.slot n = { s.slot n with
          pend := none
          checked := false } ∧ (∀ i, i ≠ n → t.slot i = s.slot i)) ∧
      (s.staleChild n = false → ∃ t, exec (.blfInvalidate .mc n) s = .next t ∧ s.BlfEnded t 1 [] ∧
        t.slot n = ⟨none, none, false, ((s.slot n).gen + 1) % 65536, (s.slot n).version, 0⟩ ∧
        (∀ i, i ≠ n → t.slot i = s.slot i) ∧
        t.blf.edges = ⟨n, s.slot n, true⟩ :: s.blf.edges ∧
        (∀ i, i < 1024 → (i ∈ tabGet [] t.blf.below n ↔ t.orphaned i = true ∧ s.orphaned i = false)) ∧
        ((∃ i, i < 1024 ∧ t.orphaned i = true ∧ s.orphaned i = false) → t.flag BLF_EVT_ORPHAN = true)) ∧
      (s.staleChild n = true → ∃ t, exec (.blfInvalidate .mc n) s = .next t ∧ t.flag BLF_CMD_BUSY = true ∧
        t.blf.waiting = some (n, none) ∧ t.blf.slots = s.blf.slots ∧ { t with regs := s.regs, blf := s.blf } = s ∧
        s.RegsBut t [rBLF_CMD])) ∧
    (s.blf.waiting = none → n = s.blf.steps % 1024 → ∃ t, exec .reclaimerStep s = .next t ∧
      t.blf.steps = (s.blf.steps + 1) % 1024 ∧ { t.blf with slots := s.blf.slots, steps := s.blf.steps, below := s.blf.below } = s.blf ∧
      (∀ x, x ∈ t.blf.below → n ∉ x.2) ∧
      { t with regs := s.regs, blf := s.blf } = s ∧ s.RegsBut t [rBLF_RECLAIM_CNT] ∧
      (16 ≤ n → s.orphaned n = true →
        t.slot n = ⟨none, none, false, ((s.slot n).gen + 1) % 65536, (s.slot n).version, 0⟩ ∧
        (∀ i, i ≠ n → t.slot i = s.slot i) ∧
        t.fld BLF_RECLAIM_CNT_VAL = (s.fld BLF_RECLAIM_CNT_VAL + 1) % 2 ^ 32) ∧
      (n < 16 ∨ s.orphaned n = false → t.blf.slots = s.blf.slots ∧ t.regs = s.regs)) ∧
    (s.blf.waiting = some (m, none) → (s.passed (s.blf.steps % 1024)).staleChild m = true → ∃ t, exec .reclaimerStep s = .next t ∧
      t.blf.waiting = some (m, none) ∧ t.reg rBLF_CMD = s.reg rBLF_CMD ∧ t.blf.steps = (s.blf.steps + 1) % 1024) ∧
    (s.blf.waiting = some (m, none) → 16 ≤ m → m < 1024 → s.orphaned (s.blf.steps % 1024) = false →
      (s.passed (s.blf.steps % 1024)).staleChild m = false →
      ∃ t, exec .reclaimerStep s = .next t ∧ t.fld BLF_CMD_STATUS = 1 ∧ t.flag BLF_CMD_BUSY = false ∧ t.blf.waiting = none ∧
        t.flag BLF_EVT_CMD_DONE = true ∧ t.blf.steps = (s.blf.steps + 1) % 1024 ∧
        t.slot m = ⟨none, none, false, ((s.slot m).gen + 1) % 65536, (s.slot m).version, 0⟩ ∧
        (∀ i, i ≠ m → t.slot i = s.slot i)))

/-- The Belfry commands that only answer: EXPORT wraps a key that may leave under one that may wrap, READ_ATTR gives the
attribute record, GET_PUBLIC the public point, ATTEST the statement signed with slot 1, CERT the certificate. No slot changes (R412,
R424, R425).
YELNY_STAGE ends with the first check that fails and holds a good envelope with what it will make of its slot: OP 2
empties it, OP 1 puts its public point there; YELNY_COMMIT applies the envelope held, and the fused epoch is its EPOCH; with none held it ends with NOT_STAGED. A Belfry
command finds BLF_CMD busy or is the management cluster's own (R420, R421, R422, R425). -/
def Obligations.BelfryAnswersAndRefusals : Prop :=
  (∀ (s : State) (n p : Nat) (k w : KeyHalf),
    s.reaches .mc rBLF_CMD → s.flag BLF_CMD_BUSY = false → n < 1024 →
    (p = s.fld BLF_CMD_ARG_ARG → 16 ≤ n → 16 ≤ p → (s.slot n).cur = some k → s.orphaned n = false →
      (k.exprt = true → (s.slot p).cur = some w → s.orphaned p = false → bitOf w.usage 6 = true → isAes w.alg = true →
        ∃ t, exec (.blfExport .mc n) s = .next t ∧ s.BlfEnded t 1 (wrapKey w.key (if isPub k.alg then k.pub else k.key)) ∧
          t.blf.slots = s.blf.slots ∧ t.free = s.free) ∧
      (k.exprt = false → ∃ t, exec (.blfExport .mc n) s = .next t ∧ s.BlfEnded t 0xC [] ∧ t.blf.slots = s.blf.slots)) ∧
    (∃ t, exec (.blfReadAttr .mc n) s = .next t ∧ s.BlfEnded t 1 (s.attrRecord n).2 ∧ t.blf.slots = s.blf.slots) ∧
    ((s.slot n).cur = some k → s.orphaned n = false →
      (isAes k.alg = false → ∃ t, exec (.blfGetPublic .mc n) s = .next t ∧ s.BlfEnded t 1 k.pub ∧ t.blf.slots = s.blf.slots) ∧
      (isAes k.alg = true → ∃ t, exec (.blfGetPublic .mc n) s = .next t ∧ s.BlfEnded t 7 [] ∧ t.blf.slots = s.blf.slots)) ∧
    ((s.slot n).cur = some k → s.orphaned n = true → ∃ t, exec (.blfGetPublic .mc n) s = .next t ∧ s.BlfEnded t 5 [] ∧
      t.blf.slots = s.blf.slots) ∧
    (∃ t body nonce, exec (.blfAttest .mc n) s = .next t ∧
      s.BlfEnded t 1 (body ++ ecSign true ((List.range 48).map Config.attestKey) (sha384 body) nonce) ∧
      ((∀ x, (s.slot n).cur = some x → x.pub.length ≤ 96) → body.length = 160) ∧ body.take 4 = [0x4B, 0x51, 0x41, 0x54] ∧ slice body 8 16 = devUid ∧
      slice body 24 16 = s.window (rBLF_DATA 0) 16 ∧ slice body 40 16 = (s.attrRecord n).2 ∧
      byteAt body 56 = s.blf.epoch % 256 ∧
      (∀ x, (s.slot n).cur = some x → slice body 64 x.pub.length = x.pub) ∧ t.blf.slots = s.blf.slots) ∧
    (∃ t, exec (.blfCert .mc) s = .next t ∧ s.BlfEnded t 1 (cryptoBytes .certificate [] 4096) ∧ t.blf.slots = s.blf.slots)) ∧
  (∀ (s : State) (r : Requester) (st n slot : Nat) (e w : List Byte) (x : SlotSt) (a b : Bool),
    (s.reaches .mc rBLF_CMD → s.flag BLF_CMD_BUSY = false →
      (w = s.window (rBLF_DATA 0) 4096 → st = s.yelCheck w →
        e = w.take (leNat (slice w 6 2)) → ∃ t, exec (.yelnyStage .mc) s = .next t ∧ t.blf.slots = s.blf.slots ∧
          (if st = 1 then t.blf.staged = some (e, (s.yelSlot e).2) ∧ ∃ out, out.length = 4096 ∧ s.BlfEnded t 1 out
            else t.blf.staged = none ∧ s.BlfEnded t st [])) ∧
      (n = byteAt e 26 → (byteAt e 25 = 2 → (s.yelSlot e).2 = ⟨none, none, false, ((s.slot n).gen + 1) % 65536, (s.slot n).version, 0x41⟩) ∧
        (byteAt e 25 = 1 → isPub (byteAt e 27) = true → (s.yelSlot e).2 = { s.slot n with
          cur := some ⟨byteAt e 27, byteAt e 28, 0xFFFF, 0, 2, byteAt e 29 == 1, 0, [], slice e 40 (leNat (slice e 32 4))⟩
          version := ((s.slot n).version + 1) % 65536
          owner := 0x41 })) ∧
      (s.blf.staged = none → ∃ t, exec (.yelnyCommit .mc) s = .next t ∧ s.BlfEnded t 0x12 [] ∧ t.blf = s.blf) ∧
      (s.blf.staged = some (e, x) → n = byteAt e 26 → 2 ≤ n → ∃ t, exec (.yelnyCommit .mc) s = .next t ∧
        t.fld BLF_CMD_STATUS = 1 ∧ t.flag BLF_CMD_BUSY = false ∧ t.flag BLF_EVT_CMD_DONE = true ∧ t.flag BLF_EVT_EPOCH = true ∧
        t.blf.staged = none ∧ t.blf.epoch = byteAt e 24 ∧ (∀ i, i ≠ n → t.slot i = s.slot i) ∧
        t.slot n = x ∧ { t with regs := s.regs, blf := s.blf } = s)) ∧
    (∀ c ∈ [Instr.blfGenerate r slot a b, .blfDerive r slot a b, .blfImport r slot a b, .blfImportPublic r slot, .blfExport r slot,
        .blfCheck r slot, .blfCommit r slot, .blfDiscardPending r slot, .blfInvalidate r slot, .blfReadAttr r slot,
        .blfGetPublic r slot, .blfAttest r slot, .blfCert r, .yelnyStage r, .yelnyCommit r],
      (s.reaches r rBLF_CMD → s.flag BLF_CMD_BUSY = true →
        ∃ t, exec c s = .next t ∧ t.fld BLF_CMD_STATUS = 2 ∧ s.OnlyRegs t [rBLF_CMD]) ∧
      (isHost r = true → s.unreachable r = false → s.powered rBLF_CMD = true →
        ∃ t, exec c s = .next t ∧ t.fld BLF_CMD_STATUS = 3 ∧ s.OnlyRaises t [rGLB_ACCESS_ERR, rBLF_CMD])))

/-! ## The energy ledger -/

/-- One record at the front of the ledger's FIFO meets the checks of R427 in order, the first that fails counts and changes no channel;
an accepted record adds its energy, sets LAST_SEQ, clears FRESH, counts a gap and, with ACTIVE, starts the hold, which ends HOLD_S after the
channel's last such record (R427, R428, R429).
The commands of LDG_CTL: FRESH makes every channel fresh with zero totals and counts; SEAL and the checkpoint timer advance the
AO counter and put a checkpoint with its CMAC into the data window; RESTORE refuses a checkpoint with a wrong MAGIC or CMAC or a stale
counter and else loads every channel; REPORT advances REPORT_SEQ, signs and clears the GAP flags it reports (R430, R431, R432). -/
def Obligations.LedgerRecordsAndCommands : Prop :=
  (∀ (s : State) (x : LdgRec) (q : List LdgRec) (b k : List Byte) (c : Nat),
    (s.ldgQ = [] → exec .meteringRecord s = .next s) ∧
    (s.ldgQ = x :: q → b = x.bytes →
      (s.flag LDG_FLAGS_READY = false → ∃ t, exec .meteringRecord s = .next t ∧ t.ldgQ = q ∧
        t.fld LDG_NOT_READY_CNT_VAL = (s.fld LDG_NOT_READY_CNT_VAL + 1) % 2 ^ 32 ∧
        { t with regs := s.regs, ldgQ := s.ldgQ } = s ∧ s.RegsBut t [rLDG_NOT_READY_CNT]) ∧
      (s.flag LDG_FLAGS_READY = true → byteAt b 0 ≠ 1 ∨ s.ldgFind x.port (be16 b 2) = none →
        ∃ t, exec .meteringRecord s = .next t ∧ t.ldgQ = q ∧
          t.fld LDG_UNKNOWN_CNT_VAL = (s.fld LDG_UNKNOWN_CNT_VAL + 1) % 2 ^ 32 ∧
          { t with regs := s.regs, ldgQ := s.ldgQ } = s ∧ s.RegsBut t [rLDG_UNKNOWN_CNT]) ∧
      (s.flag LDG_FLAGS_READY = true → byteAt b 0 = 1 → s.ldgFind x.port (be16 b 2) = some c →
        (s.ldgKey c = none → ∃ t, exec .meteringRecord s = .next t ∧ t.ldgQ = q ∧
          t.fld LDG_NO_KEY_CNT_VAL = (s.fld LDG_NO_KEY_CNT_VAL + 1) % 2 ^ 32 ∧
          { t with regs := s.regs, ldgQ := s.ldgQ } = s ∧ s.RegsBut t [rLDG_NO_KEY_CNT, rBLF_ORPHAN_USE_CNT] ∧
          (s.keyLoad ownFIRMWARE (ldgChan s.active c 6 2) ≠ .error 5 → s.RegsBut t [rLDG_NO_KEY_CNT])) ∧
        (s.ldgKey c = some k → slice b 24 8 ≠ (cmac k (b.take 24)).take 8 → ∃ t, exec .meteringRecord s = .next t ∧ t.ldgQ = q ∧
          t.fld (LDG_CH_AUTH_FAIL_VAL c) = min (s.fld (LDG_CH_AUTH_FAIL_VAL c) + 1) (2 ^ 32 - 1) ∧
          t.flag LDG_EVT_AUTH_FAIL = true ∧ { t with regs := s.regs, ldgQ := s.ldgQ } = s ∧
          s.RegsBut t [rLDG_CH_AUTH_FAIL c, rLDG_EVT]) ∧
        (s.ldgKey c = some k → slice b 24 8 = (cmac k (b.take 24)).take 8 →
          (s.flag (LDG_CH_STATE_FRESH c) = false → beNat (slice b 4 4) ≤ s.fld (LDG_CH_LAST_SEQ_VAL c) →
            ∃ t, exec .meteringRecord s = .next t ∧ t.ldgQ = q ∧
              t.fld (LDG_CH_REPLAY_VAL c) = min (s.fld (LDG_CH_REPLAY_VAL c) + 1) (2 ^ 32 - 1) ∧
              { t with regs := s.regs, ldgQ := s.ldgQ } = s ∧ s.RegsBut t [rLDG_CH_REPLAY c]) ∧
          (s.flag (LDG_CH_STATE_FRESH c) = true ∨ s.fld (LDG_CH_LAST_SEQ_VAL c) < beNat (slice b 4 4) →
            ∃ t, exec .meteringRecord s = .next t ∧ t.ldgQ = q ∧
              t.fld64 (LDG_CH_CHG_MWH_LO_VAL c) (LDG_CH_CHG_MWH_HI_VAL c) =
                min (s.fld64 (LDG_CH_CHG_MWH_LO_VAL c) (LDG_CH_CHG_MWH_HI_VAL c) + beNat (slice b 8 4)) (2 ^ 64 - 1) ∧
              t.fld64 (LDG_CH_DIS_MWH_LO_VAL c) (LDG_CH_DIS_MWH_HI_VAL c) =
                min (s.fld64 (LDG_CH_DIS_MWH_LO_VAL c) (LDG_CH_DIS_MWH_HI_VAL c) + beNat (slice b 12 4)) (2 ^ 64 - 1) ∧
              t.fld (LDG_CH_LAST_SEQ_VAL c) = beNat (slice b 4 4) ∧ t.flag (LDG_CH_STATE_FRESH c) = false ∧
              (s.flag (LDG_CH_STATE_FRESH c) = false → s.fld (LDG_CH_LAST_SEQ_VAL c) + 1 < beNat (slice b 4 4) →
                t.fld (LDG_CH_GAP_CNT_VAL c) = min (s.fld (LDG_CH_GAP_CNT_VAL c) +
                  (beNat (slice b 4 4) - s.fld (LDG_CH_LAST_SEQ_VAL c) - 1)) (2 ^ 32 - 1) ∧
                t.flag (LDG_CH_STATE_GAP c) = true ∧ t.flag LDG_EVT_GAP = true) ∧
              (s.flag (LDG_CH_STATE_FRESH c) = true ∨ beNat (slice b 4 4) ≤ s.fld (LDG_CH_LAST_SEQ_VAL c) + 1 →
                t.fld (LDG_CH_GAP_CNT_VAL c) = s.fld (LDG_CH_GAP_CNT_VAL c) ∧
                t.fld (LDG_CH_STATE_GAP c) = s.fld (LDG_CH_STATE_GAP c)) ∧
              (bitOf (byteAt b 1) 0 = true → t.flag (LDG_CH_STATE_HOLDING c) = true ∧ tabGet 0 t.ldgAt c = s.ao ∧
                (ldgChan s.active c 3 1 < 16 → t.flag (NMW_NC_REQ_LEDGER (ldgChan s.active c 3 1)) = true)) ∧
              (bitOf (byteAt b 1) 0 = false → { t with regs := s.regs, ldgQ := s.ldgQ } = s ∧
                s.RegsBut t [rLDG_CH_CHG_MWH_LO c, rLDG_CH_CHG_MWH_HI c, rLDG_CH_DIS_MWH_LO c, rLDG_CH_DIS_MWH_HI c,
                  rLDG_CH_LAST_SEQ c, rLDG_CH_GAP_CNT c, rLDG_CH_STATE c, rLDG_EVT]))))) ∧
    -- the end of a hold
    (c < 64 → s.flag (LDG_CH_STATE_HOLDING c) = true → s.ldgHoldDue c = true → ∃ t, exec (.ledgerHoldExpire c) s = .next t ∧
      t.flag (LDG_CH_STATE_HOLDING c) = false ∧
      (ldgChan s.active c 3 1 < 16 → (∀ d, d < 64 → d ≠ c → s.ldgOn d = true → ldgChan s.active d 3 1 = ldgChan s.active c 3 1 →
        s.flag (LDG_CH_STATE_HOLDING d) = false) → t.flag (NMW_NC_REQ_LEDGER (ldgChan s.active c 3 1)) = false) ∧
      (16 ≤ ldgChan s.active c 3 1 → s.OnlyRegs t [rLDG_CH_STATE c])) ∧
    (64 ≤ c ∨ s.flag (LDG_CH_STATE_HOLDING c) = false ∨ s.ldgHoldDue c = false → exec (.ledgerHoldExpire c) s = .next s)) ∧
  (∀ (s : State) (r : Requester) (b : List Byte) (k : KeyHalf),
    (s.reaches .mc rLDG_CTL →
      (∃ t, exec (.ldgFresh .mc) s = .next t ∧ t.fld LDG_CTL_RESULT = 2 ∧ t.flag LDG_EVT_CMD_DONE = true ∧
        t.flag LDG_FLAGS_READY = true ∧ t.flag LDG_FLAGS_FRESH_START = true ∧ t.flag LDG_FLAGS_AFTER_POR = false ∧
        { t with regs := s.regs } = s ∧
        (∀ c, c < 64 → t.flag (LDG_CH_STATE_FRESH c) = true ∧ t.flag (LDG_CH_STATE_GAP c) = false ∧
          t.fld64 (LDG_CH_CHG_MWH_LO_VAL c) (LDG_CH_CHG_MWH_HI_VAL c) = 0 ∧
          t.fld64 (LDG_CH_DIS_MWH_LO_VAL c) (LDG_CH_DIS_MWH_HI_VAL c) = 0 ∧ t.fld (LDG_CH_LAST_SEQ_VAL c) = 0 ∧
          t.fld (LDG_CH_GAP_CNT_VAL c) = 0 ∧ t.fld (LDG_CH_AUTH_FAIL_VAL c) = 0 ∧ t.fld (LDG_CH_REPLAY_VAL c) = 0 ∧
          t.fld (LDG_CH_STATE_HOLDING c) = s.fld (LDG_CH_STATE_HOLDING c))) ∧
      (s.flag LDG_FLAGS_READY = true → ∃ t, exec (.ldgSeal .mc) s = .next t ∧ t.fld LDG_CTL_RESULT = 2 ∧
        t.flag LDG_EVT_CMD_DONE = true ∧ t.flag LDG_EVT_SEALED = true ∧ t.flag LDG_FLAGS_AO_VALID = true ∧
        t.fld LDG_CKPT_CTR_COUNT = (s.fld LDG_CKPT_CTR_COUNT + 1) % 2 ^ 32 ∧ { t with regs := s.regs } = s ∧
        ∃ c, t.window (rLDG_DATA 0) 3120 = c ++ cmac s.ldgSealKey c ∧ c.length = 3104 ∧ c.take 4 = [0x4B, 0x51, 0x4C, 0x43] ∧
          leNat (slice c 8 4) = (s.fld LDG_CKPT_CTR_COUNT + 1) % 2 ^ 32 ∧
          (∀ n, n < 64 → slice c (32 + 48 * n) 48 = s.ldgEntry n)) ∧
      (s.flag LDG_FLAGS_READY = false →
        (∃ t, exec (.ldgSeal .mc) s = .next t ∧ t.fld LDG_CTL_RESULT = 9 ∧ t.flag LDG_EVT_CMD_DONE = true ∧
          s.OnlyRegs t [rLDG_CTL, rLDG_EVT]) ∧
        (∃ t, exec (.ldgReport .mc) s = .next t ∧ t.fld LDG_CTL_RESULT = 9 ∧ t.flag LDG_EVT_CMD_DONE = true ∧
          s.OnlyRegs t [rLDG_CTL, rLDG_EVT])) ∧
      (b = s.window (rLDG_DATA 0) 3120 →
        (slice b 0 4 ≠ [0x4B, 0x51, 0x4C, 0x43] ∨ slice b 3104 16 ≠ cmac s.ldgSealKey (b.take 3104) →
          ∃ t, exec (.ldgRestore .mc) s = .next t ∧ t.fld LDG_CTL_RESULT = 6 ∧ t.flag LDG_FLAGS_READY = false ∧
            s.OnlyRegs t [rLDG_CTL, rLDG_EVT, rLDG_FLAGS]) ∧
        (slice b 0 4 = [0x4B, 0x51, 0x4C, 0x43] → slice b 3104 16 = cmac s.ldgSealKey (b.take 3104) →
          (s.flag LDG_FLAGS_AO_VALID = true → leNat (slice b 8 4) ≠ s.fld LDG_CKPT_CTR_COUNT →
            ∃ t, exec (.ldgRestore .mc) s = .next t ∧ t.fld LDG_CTL_RESULT = 7 ∧ t.flag LDG_FLAGS_READY = false ∧
              s.OnlyRegs t [rLDG_CTL, rLDG_EVT, rLDG_FLAGS]) ∧
          (s.flag LDG_FLAGS_AO_VALID = false ∨ leNat (slice b 8 4) = s.fld LDG_CKPT_CTR_COUNT →
            ∃ t, exec (.ldgRestore .mc) s = .next t ∧ t.fld LDG_CTL_RESULT = 2 ∧ t.flag LDG_FLAGS_READY = true ∧
              t.flag LDG_EVT_CMD_DONE = true ∧ t.fld LDG_CKPT_CTR_COUNT = leNat (slice b 8 4) ∧
              t.ldgSeq = leNat (slice b 12 4) ∧ { t with regs := s.regs, ldgSeq := s.ldgSeq } = s ∧
              t.flag LDG_FLAGS_AFTER_POR = (bitOf (byteAt b 16) 0 || !s.flag LDG_FLAGS_AO_VALID || s.flag LDG_FLAGS_AFTER_POR) ∧
              t.flag LDG_FLAGS_FRESH_START = (bitOf (byteAt b 16) 1 || s.flag LDG_FLAGS_FRESH_START) ∧
              (∀ c, c < 64 →
                t.fld (LDG_CH_LAST_SEQ_VAL c) = leNat (slice b (36 + 48 * c) 4) ∧
                t.fld64 (LDG_CH_CHG_MWH_LO_VAL c) (LDG_CH_CHG_MWH_HI_VAL c) = leNat (slice b (40 + 48 * c) 8) ∧
                t.fld64 (LDG_CH_DIS_MWH_LO_VAL c) (LDG_CH_DIS_MWH_HI_VAL c) = leNat (slice b (48 + 48 * c) 8) ∧
                t.flag (LDG_CH_STATE_GAP c) = bitOf (byteAt b (33 + 48 * c)) 0 ∧
                t.flag (LDG_CH_STATE_FRESH c) = bitOf (byteAt b (33 + 48 * c)) 1)))) ∧
      (s.flag LDG_FLAGS_READY = true → (s.slot 5).cur = none → ∃ t, exec (.ldgReport .mc) s = .next t ∧
        t.fld LDG_CTL_RESULT = 8 ∧ t.flag LDG_EVT_CMD_DONE = true ∧ s.OnlyRegs t [rLDG_CTL, rLDG_EVT]) ∧
      (s.flag LDG_FLAGS_READY = true → (s.slot 5).cur = some k → ∃ t, exec (.ldgReport .mc) s = .next t ∧
        t.fld LDG_CTL_RESULT = 2 ∧ t.flag LDG_EVT_CMD_DONE = true ∧ t.ldgSeq = (s.ldgSeq + 1) % 2 ^ 32 ∧
        { t with regs := s.regs, ldgSeq := s.ldgSeq, free := s.free } = s ∧
        t.window (rLDG_DATA 0) 4 = [0x4B, 0x51, 0x4C, 0x52] ∧ t.window (rLDG_DATA 2) 16 = devUid ∧
        t.window (rLDG_DATA 6) 16 = s.window (rLDG_DATA 0) 16 ∧
        (∀ c, c < 64 → t.flag (LDG_CH_STATE_GAP c) =
          (s.flag (LDG_CH_STATE_GAP c) && !bitOf (leNat (s.window (rLDG_DATA 4) 8)) c)))) ∧
    (s.flag LDG_FLAGS_READY = true → secLe s.active tyLEDGER 2 2 ≠ 0 → ∃ t, exec .ckptTimer s = .next t ∧
      t.fld LDG_CKPT_CTR_COUNT = (s.fld LDG_CKPT_CTR_COUNT + 1) % 2 ^ 32 ∧ t.flag LDG_FLAGS_AO_VALID = true ∧
      t.flag LDG_EVT_SEALED = true ∧ { t with regs := s.regs } = s ∧
      ∃ c, t.window (rLDG_DATA 0) 3120 = c ++ cmac s.ldgSealKey c ∧ c.length = 3104) ∧
    (s.flag LDG_FLAGS_READY = false ∨ secLe s.active tyLEDGER 2 2 = 0 → exec .ckptTimer s = .next s) ∧
    (∀ c ∈ [Instr.ldgRestore r, .ldgFresh r, .ldgSeal r, .ldgReport r], isHost r = true → s.unreachable r = false →
      s.powered rLDG_CTL = true → ∃ t, exec c s = .next t ∧ t.fld LDG_CTL_RESULT = 5 ∧
        s.OnlyRaises t [rGLB_ACCESS_ERR, rLDG_CTL]))

/-! ## Cipher pool -/

/-- Submission, abort and ALARM_CLR: a submission finds one of 192 places or ends with QUEUE_FULL, an aborted operation ends with ABORTED and is
never delivered before its turn, and the refusal after an alarm ends once no alarm is active (R445, R447, R448).
The start and the commit of an operation: a received frame that waits for MACsec starts first; else the oldest that can start meets the checks of R438 and ends with the first failure or runs on an
idle engine, which keeps its key, and for GCM and GMAC with a GHASH unit; a commit writes its output at DST and ends it in one step, and results of firmware leave in order (R225, R437, R438,
R440, R447). -/
def Obligations.CipherPoolTakesAndRunsOperations : Prop :=
  (∀ (s : State) (r : Requester) (id : Nat) (op : CphOp),
    (s.reaches r rCPH_CMD → s.cphFull = true → ∃ t, exec (.cipherSubmit r) s = .next t ∧ t.fld CPH_CMD_RESULT = 0x10 ∧
      s.OnlyRegs t [rCPH_CMD]) ∧
    (s.reaches r rCPH_CMD → s.cphFull = false → s.flag CPH_ALARM_REFUSING = false →
      (∀ o ∈ s.cph.ops, o.held = true) →
      ∃ t, exec (.cipherSubmit r) s = .next t ∧ t.fld CPH_CMD_RESULT = 1 ∧ t.fld CPH_CMD_OP_ID = s.cph.nextId % 2 ^ 16 ∧
        t.cph.ops = s.cph.ops ++ [⟨s.cph.nextId, 112, s.window (rCPH_OP 0) 32, .queued⟩] ∧
        t.cph.nextId = (s.cph.nextId + 1) % 65536 ∧ t.cph.cpl = s.cph.cpl ∧ { t with regs := s.regs, cph := s.cph } = s ∧
        s.RegsBut t [rCPH_CMD]) ∧
    (s.reaches r rCPH_CMD → s.cphFull = false → s.flag CPH_ALARM_REFUSING = true → s.cph.ops = [] → s.cph.cpl = [] →
      ∃ t, exec (.cipherSubmit r) s = .next t ∧ t.fld CPH_CMD_RESULT = 1 ∧ t.cph.ops = [] ∧
        t.cph.cpl = [(s.cph.nextId, 0xF)] ∧ t.flag CPH_EVT_CPL = true ∧ t.flag CPH_EVT_ERROR = true) ∧
    (s.reaches r rCPH_ABORT → id < 65536 →
      (s.cph.ops.find? (fun x => x.id == id && x.domain == 112) = none →
        ∃ t, exec (.cipherAbort r id) s = .next t ∧ s.OnlyRegs t [rCPH_ABORT] ∧
          t.fld CPH_ABORT_RESULT = (if s.cph.cpl.any (fun e => e.1 == id) then 0xE else 0x11) % 2 ^ CPH_ABORT_RESULT.wid) ∧
      (s.cph.ops = [op] → op.id = id → op.domain = 112 → op.st = .queued → s.cph.cpl.length < 64 →
        ∃ t, exec (.cipherAbort r id) s = .next t ∧ t.fld CPH_ABORT_RESULT = 2 ∧ t.cph.ops = [] ∧
          t.cph.cpl = s.cph.cpl ++ [(id, 0xD)] ∧ t.flag CPH_EVT_CPL = true ∧ t.flag CPH_EVT_ERROR = true ∧
          { t with regs := s.regs, cph := s.cph } = s)) ∧
    (s.reaches r rCPH_CTL → ∃ t, exec (.alarmClr r) s = .next t ∧ s.OnlyRegs t [rCPH_ALARM] ∧
      (s.fld RAS_ALARM_ACTIVE = 0 → t.flag CPH_ALARM_REFUSING = false) ∧
      (s.fld RAS_ALARM_ACTIVE ≠ 0 → t.regs = s.regs))) ∧
  (∀ (s : State) (op : CphOp) (run : CphRun) (h : CphHdr) (e p : Nat) (eng gh : Option Nat)
    (body : List Byte) (fs : List Frame) (w : List (Nat × List Byte × List Frame)),
    (s.cph.rxWait = (p, body, fs) :: w → s.msecServes = true →
      exec .cipherOpStart s = .next (({ s with cph := { s.cph with rxWait := w } } : State).rxValidate p body fs)) ∧
    (s.cph.rxWait = [] ∨ s.msecServes = false → s.cph.ops.find? s.cphReady = none → exec .cipherOpStart s = .next s) ∧
    (s.cph.rxWait = [] ∨ s.msecServes = false → s.cph.ops = [op] → s.cphReady op = true → h = cphHdr op.hdr → eng = (if h.aes then s.cphFree else none) →
      gh = (if h.gcm then s.ghashFree else none) →
      (s.cphStart op eng gh = .running run → ∃ t, exec .cipherOpStart s = .next t ∧
        t.cph.ops = [{ op with st := .running run }] ∧ { t.cph with ops := s.cph.ops, kept := s.cph.kept, subkeys := s.cph.subkeys } = s.cph ∧
        { t with cph := s.cph } = s ∧ run.engine = eng ∧ run.ghash = gh ∧
        (∀ n, eng = some n → ∃ k : EngineKey, tabGet none t.cph.kept n = some k ∧ k.slot = h.slot ∧ k.gen = run.gen ∧
          k.version = run.version)) ∧
      (∀ full, s.cphStart op eng gh = .ended e full → op.domain = 112 → s.cph.cpl.length < 64 →
        ∃ t, exec .cipherOpStart s = .next t ∧ t.cph.ops = [] ∧ t.cph.cpl = s.cph.cpl ++ [(op.id, e)] ∧
          t.flag CPH_EVT_CPL = true ∧ t.flag CPH_EVT_ERROR = true ∧ { t with regs := s.regs, cph := s.cph } = s) ∧
      -- the header is checked before anything else
      (h.bad op.hdr = true → s.cphStart op eng gh = .ended 1 false) ∧
      (h.bad op.hdr = false → h.lengths ≠ 0 → s.cphStart op eng gh = .ended h.lengths false)) ∧
    (s.cph.ops = [op] → op.st = .running run → op.domain = 112 → s.cph.cpl.length < 64 → h = cphHdr op.hdr → h.save = false →
      (h.mode = 1 → ∃ t, exec (.cipherOpCommit op.id) s = .next t ∧
        t.mcMem = memPut s.mcMem h.dst (cryptoBytes (.ecb h.dir) [run.key, memTake s.mcMem (h.src + h.alen) h.dlen] h.dlen) ∧
        t.cph.ops = [] ∧ t.cph.cpl = s.cph.cpl ++ [(op.id, 0)] ∧ t.flag CPH_EVT_CPL = true ∧
        { t with regs := s.regs, cph := s.cph, mcMem := s.mcMem } = s ∧ s.RegsBut t [rCPH_EVT]) ∧
      (h.mode = 3 → ∃ t, exec (.cipherOpCommit op.id) s = .next t ∧
        t.mcMem = memPut s.mcMem h.dst (cryptoBytes .ctr [run.key, run.ctx.chain, memTake s.mcMem (h.src + h.alen) h.dlen] h.dlen) ∧
        t.cph.ops = [] ∧ t.cph.cpl = s.cph.cpl ++ [(op.id, 0)] ∧ t.flag CPH_EVT_CPL = true)) ∧
    ((∀ o ∈ s.cph.ops, o.id ≠ e) → exec (.cipherOpCommit e) s = .next s))

/-! ## The Triangle -/

/-- A mismatch of the compared cores: with three in service a single minority core is fenced and tested, or, for the first SIGNATURE mismatch
of its hour, restored without a test; three that all differ end in the safe state; with two in service the cluster stalls and both are
tested. Nothing is found while the cores are not compared (R454, R455, R456, R459).
The end of a self-test and of a resynchronisation: a minority core that fails leaves DUPLEX, one that passes is restored; of a duplex pair
exactly one failure leaves SIMPLEX, none or two the safe state. A resynchronisation returns its cores to service and records its class
(R456, R457, R459, R465). -/
def Obligations.TriangleFindsAndTests : Prop :=
  (∀ (s : State) (diff c f : Nat) (skew : Bool),
    (s.compares = false → exec (.outputMismatch diff skew) s = .next s ∧ exec (.signatureCompare diff) s = .next s) ∧
    (s.compares = true → s.fld TRI_STATUS_FENCED = 0 → c < 3 → (∀ d, d < 3 → bitOf diff d = decide (d = c)) →
      (∃ t, exec (.outputMismatch diff skew) s = .next t ∧ t.fld TRI_STATUS_FENCED = 2 ^ c ∧
        bitOf (t.fld TRI_STATUS_TESTING) c = true ∧ t.flag TRI_LAST_MM_VALID = true ∧ t.fld TRI_LAST_MM_KIND = 0 ∧
        t.fld TRI_LAST_MM_CORES = 2 ^ c ∧ t.fld TRI_LAST_MM_CLASS = 0 ∧
        t.fld64 TRI_LAST_MM_TIME_LO_AO TRI_LAST_MM_TIME_HI_AO = s.ao % 2 ^ 48 ∧
        t.tri.pend = some (.minority 0 c skew) ∧ t.tri.found = s.ao ∧
        { t.tri with pend := s.tri.pend, found := s.tri.found } = s.tri ∧
        { t with regs := s.regs, tri := s.tri } = s ∧
        s.RegsBut t [rTRI_STATUS, rTRI_LAST_MM, rTRI_LAST_MM_TIME_LO, rTRI_LAST_MM_TIME_HI]) ∧
      (tabFind s.tri.diverged c = none → ∃ t, exec (.signatureCompare diff) s = .next t ∧ t.fld TRI_STATUS_FENCED = 2 ^ c ∧
        t.fld TRI_STATUS_TESTING = s.fld TRI_STATUS_TESTING ∧ t.fld TRI_LAST_MM_KIND = 1 ∧ t.tri.pend = none ∧
        t.tri.resync = some ([c], 1) ∧ tabFind t.tri.diverged c = some s.ao ∧ { t with regs := s.regs, tri := s.tri } = s)) ∧
    (s.compares = true → s.fld TRI_STATUS_FENCED = 0 → (∀ d, d < 3 → bitOf diff d = true) →
      ∃ t, exec (.outputMismatch diff skew) s = .next t ∧ t.flag GLB_DEVSTATE_SAFE = true ∧ t.fld TRI_STATUS_MODE = 5 ∧
        t.fld TRI_LAST_MM_CLASS = 7 ∧ t.fld TRI_AP_CTL_RUN = 0 ∧ bitOf (t.fld RAS_ERR_OUT_CAUSE) 0 = true ∧
        t.flag TRI_EVT_MISMATCH = true ∧ t.tri.pend = none ∧ t.tri.resync = none ∧
        (s.inState .run = true → t.inState .recovery = true)) ∧
    (s.compares = true → f < 3 → s.fld TRI_STATUS_FENCED = 2 ^ f → (∃ d, d < 3 ∧ d ≠ f ∧ bitOf diff d = true) →
      ∃ t, exec (.outputMismatch diff skew) s = .next t ∧ t.fld TRI_STATUS_MODE = 3 ∧ t.tri.pend = some (.duplex []) ∧
        t.tri.resync = none ∧ (∀ d, d < 3 → d ≠ f → bitOf (t.fld TRI_STATUS_TESTING) d = true) ∧
        t.flag TRI_EVT_MODE_CHG = true ∧ t.fld TRI_STATUS_FENCED = 2 ^ f)) ∧
  (∀ (s : State) (c d k cls : Nat) (pass first skew : Bool) (l : List Nat),
    (3 ≤ c ∨ bitOf (s.fld TRI_STATUS_TESTING) c = false → exec (.coreSelftestDone c pass) s = .next s) ∧
    (c < 3 → bitOf (s.fld TRI_STATUS_TESTING) c = true →
      (s.tri.pend = some (.minority k c skew) →
        (∃ t, exec (.coreSelftestDone c false) s = .next t ∧ t.fld TRI_STATUS_MODE = 1 ∧ t.fld TRI_LAST_MM_CLASS = 2 ∧
          t.fld TRI_CORE_FAULT_CNT_VAL = (s.fld TRI_CORE_FAULT_CNT_VAL + 1) % 2 ^ 32 ∧ t.tri.pend = none ∧
          t.flag TRI_EVT_TEST_DONE = true ∧ t.flag TRI_EVT_MISMATCH = true ∧ bitOf (t.fld TRI_STATUS_TESTING) c = false ∧
          t.fld TRI_STATUS_FENCED = s.fld TRI_STATUS_FENCED) ∧
        (∃ t, exec (.coreSelftestDone c true) s = .next t ∧ t.tri.pend = none ∧ t.flag TRI_EVT_TEST_DONE = true ∧
          t.tri.resync = some ([c], if k = 1 then 1 else if skew then 3 else 4) ∧ bitOf (t.fld TRI_STATUS_FENCED) c = true ∧
          bitOf (t.fld TRI_STATUS_TESTING) c = false ∧ { t with regs := s.regs, tri := s.tri } = s)) ∧
      (s.tri.pend = some (.duplex []) → bitOf (s.fld TRI_STATUS_FENCED) c = false →
        ∃ t, exec (.coreSelftestDone c pass) s = .next t ∧ t.tri.pend = some (.duplex [(c, pass)]) ∧
          bitOf (t.fld TRI_STATUS_TESTING) c = false ∧ t.flag TRI_EVT_TEST_DONE = true) ∧
      (s.tri.pend = some (.duplex [(d, first)]) → d < 3 → bitOf (s.fld TRI_STATUS_FENCED) c = false →
        (first ≠ pass → ∃ t, exec (.coreSelftestDone c pass) s = .next t ∧ t.tri.pend = none ∧ t.fld TRI_STATUS_MODE = 2 ∧
          t.fld TRI_LAST_MM_CLASS = 5 ∧ t.fld TRI_LAST_MM_CORES = 2 ^ (if first then c else d) ∧
          bitOf (t.fld TRI_STATUS_FENCED) (if first then c else d) = true ∧ bitOf (t.fld RAS_ERR_OUT_CAUSE) 1 = true) ∧
        (first = pass → ∃ t, exec (.coreSelftestDone c pass) s = .next t ∧ t.tri.pend = none ∧ t.fld TRI_STATUS_MODE = 5 ∧
          t.fld TRI_LAST_MM_CLASS = 6 ∧ t.flag GLB_DEVSTATE_SAFE = true))) ∧
    (s.tri.resync = none → exec .coreResyncDone s = .next s) ∧
    (s.tri.resync = some (l, cls) → ∃ t, exec .coreResyncDone s = .next t ∧ t.tri.resync = none ∧
      t.fld TRI_RESYNC_CNT_VAL = (s.fld TRI_RESYNC_CNT_VAL + 1) % 2 ^ 32 ∧
      (∀ x, x < 3 → bitOf (t.fld TRI_STATUS_FENCED) x = (bitOf (s.fld TRI_STATUS_FENCED) x && !l.contains x)) ∧
      (cls = 0 → t.flag TRI_STATUS_DEBUGGED = true ∧ t.fld TRI_LAST_MM_CLASS = s.fld TRI_LAST_MM_CLASS) ∧
      (0 < cls → cls < 8 → t.fld TRI_LAST_MM_CLASS = cls ∧ t.flag TRI_EVT_MISMATCH = true ∧
        (cls = 1 → t.fld TRI_STATE_DIV_CNT_VAL = (s.fld TRI_STATE_DIV_CNT_VAL + 1) % 2 ^ 32) ∧
        (cls = 3 → t.fld TRI_INPUT_SKEW_CNT_VAL = (s.fld TRI_INPUT_SKEW_CNT_VAL + 1) % 2 ^ 32) ∧
        (cls = 4 → t.fld TRI_UNATTRIBUTED_CNT_VAL = (s.fld TRI_UNATTRIBUTED_CNT_VAL + 1) % 2 ^ 32))))

/-- Debug and the application cores: an attempt to authenticate clears the signature, draws a new nonce and gives its RESULT by slot 7 alone;
a halt halts the cluster; actions are recorded up to 256, and a further one sets OVERFLOW; a resume ends the halt and, after an overflow, restores the other cores;
the RUN bits start application cores or withdraw their sources, and stay 0 in the safe state (R459, R464, R465, R467, R478). -/
def Obligations.DebugAndApplicationCores : Prop := ∀ (s : State) (r : Requester) (run n a : Nat) (k : KeyHalf) (good : Bool) (act : DebugAct),
    (s.reaches r rDBG_AUTH → (s.slot 7).cur = none ∨ s.orphaned 7 = true ∨
        (∃ k0, (s.slot 7).cur = some k0 ∧ bitOf k0.usage 4 = false) → ∃ t, exec (.dbgAuthGo r) s = .next t ∧
      t.fld DBG_AUTH_RESULT = 3 ∧ t.flag DBG_STATUS_AUTH = s.flag DBG_STATUS_AUTH ∧
      t.window (rDBG_NONCE 0) 16 = (s.random 16).2 ∧ (∀ i, i < 24 → t.reg (rDBG_SIG i) = 0) ∧ t.free = s.free + 16 ∧
      { t with regs := s.regs, free := s.free } = s) ∧
    (s.reaches r rDBG_AUTH → (s.slot 7).cur = some k → s.orphaned 7 = false → bitOf k.usage 4 = true →
      good = ecVerify true k.pub (sha384 (devUid ++ s.window (rDBG_NONCE 0) 16)) (s.window (rDBG_SIG 0) 96) →
      ∃ t, exec (.dbgAuthGo r) s = .next t ∧ t.fld DBG_AUTH_RESULT = (if good then 1 else 2) ∧
        t.flag DBG_STATUS_AUTH = (good || s.flag DBG_STATUS_AUTH) ∧ t.window (rDBG_NONCE 0) 16 = (s.random 16).2 ∧
        (∀ i, i < 24 → t.reg (rDBG_SIG i) = 0) ∧ { t with regs := s.regs, free := s.free } = s) ∧
    (s.flag DBG_STATUS_AUTH = false → exec (.debugAction act) s = .next s) ∧
    (s.flag DBG_STATUS_AUTH = true → s.splitOn = false → s.flag DBG_STATUS_OVERFLOW = false →
      (s.tri.replay.length < 256 → ∃ t, exec (.debugAction act) s = .next t ∧
        t.flag DBG_STATUS_HALTED = (decide (act = .halt) || s.flag DBG_STATUS_HALTED) ∧ t.tri = { s.tri with replay := s.tri.replay ++ [act] } ∧
        t.fld DBG_STATUS_REPLAY_USED = s.tri.replay.length + 1 ∧
        t.fld TRI_DEBUG_ACT_CNT_VAL = (s.fld TRI_DEBUG_ACT_CNT_VAL + 1) % 2 ^ 32 ∧ { t with regs := s.regs, tri := s.tri } = s ∧
        s.RegsBut t [rDBG_STATUS, rTRI_DEBUG_ACT_CNT]) ∧
      (256 ≤ s.tri.replay.length → ∃ t, exec (.debugAction act) s = .next t ∧
        t.flag DBG_STATUS_HALTED = (decide (act = .halt) || s.flag DBG_STATUS_HALTED) ∧
        t.flag DBG_STATUS_OVERFLOW = true ∧ s.OnlyRegs t [rDBG_STATUS])) ∧
    (s.flag DBG_STATUS_HALTED = false → exec .debugResume s = .next s) ∧
    (s.flag DBG_STATUS_HALTED = true → s.splitOn = false →
      (s.flag DBG_STATUS_OVERFLOW = false → s.tri.replay.length < 256 → ∃ t, exec .debugResume s = .next t ∧
        t.flag DBG_STATUS_HALTED = false ∧ t.fld DBG_STATUS_REPLAY_USED = 0 ∧ t.tri = { s.tri with replay := [] } ∧
        t.fld TRI_DEBUG_ACT_CNT_VAL = (s.fld TRI_DEBUG_ACT_CNT_VAL + 1) % 2 ^ 32 ∧ { t with regs := s.regs, tri := s.tri } = s ∧
        s.RegsBut t [rDBG_STATUS, rTRI_DEBUG_ACT_CNT]) ∧
      (s.flag DBG_STATUS_OVERFLOW = true ∨ 256 ≤ s.tri.replay.length → s.fld TRI_STATUS_FENCED = 0 → ∃ t, exec .debugResume s = .next t ∧
        t.flag DBG_STATUS_HALTED = false ∧ t.flag DBG_STATUS_OVERFLOW = false ∧ t.fld DBG_STATUS_REPLAY_USED = 0 ∧
        t.tri.resync = some ([1, 2], 0) ∧ t.tri.replay = [] ∧ { t with regs := s.regs, tri := s.tri } = s ∧ s.RegsBut t [rDBG_STATUS])) ∧
    (s.reaches r rTRI_AP_CTL →
      (s.flag GLB_DEVSTATE_SAFE = true → exec (.triApCtlWrite r run) s = .next s) ∧
      (s.flag GLB_DEVSTATE_SAFE = false → ∃ t, exec (.triApCtlWrite r run) s = .next t ∧ t.fld TRI_AP_CTL_RUN = run % 16 ∧
        (n < 512 → 3 ≤ a → a < 7 → bitOf run (a - 3) = false → s.srcIs n stDELIVERED = true →
          s.fld (CLP_SRC_CFG_DLV_TGT n) = a → t.srcIs n stPENDING = true) ∧
        (n < 512 → s.srcIs n stDELIVERED = false ∨ s.fld (CLP_SRC_CFG_DLV_TGT n) < 3 →
          t.reg (rCLP_SRC_CFG n) = s.reg (rCLP_SRC_CFG n))))

/-! ## Clapper -/

/-- The states of a source: a signal takes it from IDLE to PENDING or marks AGAIN, a completion by the target that holds it takes it back by
its signal or AGAIN, any other completion is counted, and a write of its configuration clears a PENDING source with EN and starts one
whose level is asserted. A reserved source never changes (R472, R473, R480).
Routing and the targets: a PENDING source goes to a target that may take it with the lowest running priority, which leaves WFI; under
HOLD nothing is delivered; a source without a powered target wakes WAKE_TGT once; a target that is powered down loses its sources, which
are counted; an interval that ends opens its target; WFI is entered only with nothing delivered (R474–R479). -/
def Obligations.ClapperDeliversSources : Prop :=
  (∀ (s : State) (r : Requester) (n v tg : Nat), n < 512 →
    (srcExists n = false ∨ s.domOn 9 = false → exec (.sourceSignalChange n) s = .next s) ∧
    (srcExists n = true → s.domOn 9 = true → ∃ t, exec (.sourceSignalChange n) s = .next t ∧
      t.pulses = s.pulses.filter (· != n) ∧ { t with regs := s.regs, clp := s.clp, pulses := s.pulses } = s ∧
      s.RegsBut t [rCLP_SRC_CFG n] ∧
      (s.srcOn n = false → t.reg (rCLP_SRC_CFG n) = s.reg (rCLP_SRC_CFG n)) ∧
      (s.srcOn n = true → s.srcSignal n = false → t.reg (rCLP_SRC_CFG n) = s.reg (rCLP_SRC_CFG n)) ∧
      (s.srcOn n = true → s.srcSignal n = true → s.srcIs n stIDLE = true →
        s.flag (CLP_SRC_CFG_TRIG n) = false ∨ s.clp.high.contains n = false → t.srcIs n stPENDING = true) ∧
      (s.srcOn n = true → s.srcSignal n = true → s.srcIs n stDELIVERED = true → s.flag (CLP_SRC_CFG_TRIG n) = true →
        s.clp.high.contains n = false → t.flag (CLP_SRC_CFG_AGAIN n) = true ∧ t.srcIs n stDELIVERED = true)) ∧
    (s.tgtExists tg = true → s.reaches r (rCLP_TGT_CPL tg) →
      (s.srcIs n stDELIVERED = false ∨ s.fld (CLP_SRC_CFG_DLV_TGT n) ≠ tg → ∃ t, exec (.clpComplete r tg n) s = .next t ∧
        t.fld CLP_CPL_ERR_CNT_VAL = (s.fld CLP_CPL_ERR_CNT_VAL + 1) % 2 ^ 32 ∧ s.OnlyRegs t [rCLP_CPL_ERR_CNT]) ∧
      (s.srcIs n stDELIVERED = true → s.fld (CLP_SRC_CFG_DLV_TGT n) = tg → ∃ t, exec (.clpComplete r tg n) s = .next t ∧
        t.fld (CLP_SRC_CFG_DLV_TGT n) = 0 ∧ t.flag (CLP_SRC_CFG_TRIG n) = s.flag (CLP_SRC_CFG_TRIG n) ∧
        { t with regs := s.regs, clp := s.clp } = s ∧ s.RegsBut t [rCLP_SRC_CFG n] ∧
        (s.srcOn n = false → t.srcIs n stIDLE = true ∧ t.flag (CLP_SRC_CFG_AGAIN n) = false) ∧
        (s.srcOn n = true → s.flag (CLP_SRC_CFG_TRIG n) = true →
          t.srcIs n (if s.flag (CLP_SRC_CFG_AGAIN n) then stPENDING else stIDLE) = true ∧ t.flag (CLP_SRC_CFG_AGAIN n) = false) ∧
        (s.srcOn n = true → s.flag (CLP_SRC_CFG_TRIG n) = false →
          t.srcIs n (if s.srcSignal n then stPENDING else stIDLE) = true))) ∧
    (s.reaches r (rCLP_SRC_CFG n) →
      (srcExists n = false → exec (.sourceCfgWrite r n v) s = .next s) ∧
      (srcExists n = true → ∃ t, exec (.sourceCfgWrite r n v) s = .next t ∧ t.flag (CLP_SRC_CFG_EN n) = bitOf v 31 ∧
        t.flag (CLP_SRC_CFG_TRIG n) = bitOf v 30 ∧ t.fld (CLP_SRC_CFG_PRIO n) = bits v 16 4 ∧
        t.fld (CLP_SRC_CFG_TGT_MASK n) = bits v 0 7 ∧ t.fld (CLP_SRC_CFG_WAKE_TGT n) = bits v 24 3 ∧
        t.flag (CLP_SRC_CFG_WAKE_EN n) = (bitOf v 29 && bitOf (bits v 0 7) (bits v 24 3)) ∧
        (∀ m, m < 512 → m ≠ n → t.reg (rCLP_SRC_CFG m) = s.reg (rCLP_SRC_CFG m)) ∧
        (bitOf v 31 = false → s.srcIs n stPENDING = true → t.srcIs n stIDLE = true) ∧
        (s.srcIs n stDELIVERED = true → t.srcIs n stDELIVERED = true) ∧
        (bitOf v 31 = true → bitOf v 30 = false → bits v 16 4 ≠ 0 → s.srcIs n stIDLE = true → s.srcSignal n = true →
          t.srcIs n stPENDING = true)))) ∧
  (∀ (s : State) (r : Requester) (n u tg : Nat) (hold : Bool),
    (s.domOn 9 = false → exec .routePending s = .next s) ∧
    (s.domOn 9 = true → s.flag CLP_CTL_HOLD = false → s.pendingSrcs = [n] → u < 7 → s.couldTake n u = true →
      s.tgtOpen u = true ∨ s.bypasses n u = true →
      ∃ t x, exec .routePending s = .next t ∧ x < 7 ∧ s.couldTake n x = true ∧
        (s.tgtOpen x = true ∨ s.bypasses n x = true) ∧ s.runPrio x ≤ s.runPrio u ∧ t.srcIs n stDELIVERED = true ∧
        t.fld (CLP_SRC_CFG_DLV_TGT n) = x ∧ t.flag (CLP_TGT_STAT_WFI x) = false ∧ t.clp.order.getLast? = some x ∧
        { t with regs := s.regs, clp := s.clp } = s ∧ s.RegsBut t [rCLP_SRC_CFG n, rCLP_TGT_STAT x]) ∧
    (s.domOn 9 = true → s.flag CLP_CTL_HOLD = true → ∃ t, exec .routePending s = .next t ∧
      (∀ m, m < 512 → t.reg (rCLP_SRC_CFG m) = s.reg (rCLP_SRC_CFG m)) ∧
      s.RegsBut t [rCLP_WAKE_CNT, rTRI_AP_CTL]) ∧
    (s.domOn 9 = true → s.pendingSrcs = [n] → (∀ x, x < 7 → bitOf (s.fld (CLP_SRC_CFG_TGT_MASK n)) x = true →
        s.tgtPowered x = false) → s.flag (CLP_SRC_CFG_WAKE_EN n) = true → s.clp.woke.contains n = false →
      ∃ t, exec .routePending s = .next t ∧ t.srcIs n stPENDING = true ∧
        t.fld CLP_WAKE_CNT_VAL = (s.fld CLP_WAKE_CNT_VAL + 1) % 2 ^ 32 ∧ t.clp.woke.contains n = true ∧
        (3 ≤ s.fld (CLP_SRC_CFG_WAKE_TGT n) → s.fld (CLP_SRC_CFG_WAKE_TGT n) < 7 → s.flag GLB_DEVSTATE_SAFE = false →
          bitOf (t.fld TRI_AP_CTL_RUN) (s.fld (CLP_SRC_CFG_WAKE_TGT n) - 3) = true)) ∧
    (tg < 7 → s.tgtPowered tg = false → ∃ t, exec (.targetPowerDown tg) s = .next t ∧
      t.flag (CLP_TGT_STAT_WFI tg) = false ∧
      t.fld CLP_REROUTE_CNT_VAL = (s.fld CLP_REROUTE_CNT_VAL + (s.deliveredTo tg).length) % 2 ^ 32 ∧
      { t with regs := s.regs, clp := s.clp } = s ∧
      (∀ m, m < 512 → s.srcIs m stDELIVERED = true → s.fld (CLP_SRC_CFG_DLV_TGT m) = tg →
        t.srcIs m stPENDING = true ∧ t.flag (CLP_SRC_CFG_AGAIN m) = s.flag (CLP_SRC_CFG_AGAIN m)) ∧
      (∀ m, m < 512 → s.srcIs m stDELIVERED = false ∨ s.fld (CLP_SRC_CFG_DLV_TGT m) ≠ tg →
        t.reg (rCLP_SRC_CFG m) = s.reg (rCLP_SRC_CFG m))) ∧
    (7 ≤ tg ∨ s.tgtPowered tg = true → exec (.targetPowerDown tg) s = .next s) ∧
    (s.reaches r rCLP_CTL → ∃ t, exec (.clpHoldWrite r hold) s = .next t ∧ t.flag CLP_CTL_HOLD = hold ∧ s.OnlyRegs t [rCLP_CTL]) ∧
    (∀ k, tabGet none s.clp.rounds tg = some k → s.fld (CLP_TGT_CFG_MOD_INT_US tg) * 1000 ≤ (s.clk + 2 ^ 64 - k) % 2 ^ 64 →
      ∃ t, exec (.moderationExpire tg) s = .next t ∧ t.clp.rounds = tabSet none s.clp.rounds tg none ∧
        { t.clp with rounds := s.clp.rounds } = s.clp ∧ { t with clp := s.clp } = s ∧ t.tgtOpen tg = true) ∧
    (s.modDue tg = false → exec (.moderationExpire tg) s = .next s) ∧
    (tg < 7 → s.tgtPowered tg = true → s.deliveredTo tg = [] → ∃ t, exec (.targetWfi tg) s = .next t ∧
      t.flag (CLP_TGT_STAT_WFI tg) = true ∧ s.OnlyRegs t [rCLP_TGT_STAT tg]) ∧
    (s.tgtPowered tg = false ∨ s.deliveredTo tg ≠ [] → exec (.targetWfi tg) s = .next s))

/-! ## Alarms, clocks, errors and the watchdog -/

/-- An alarm fires once while it is present: it shows in ACTIVE and SEEN, makes a FATAL record, drives ERR_OUT and empties the cipher pool,
which refuses from then on; one that ceases leaves ACTIVE; the die temperature fires alarm 2 at its limit and ends it below; a clock
loss clears its lock bit and fires alarm 1, a SerDes PLL loss takes the locks of its ports (R85, R448, R513, R514, R526, R527, R538).
Errors and the watchdog: a memory error makes its record, a corrected one of the plane control state does not exist, an item of
table SRAM or a link word fails from then on, and an uncorrectable one spoils its frame's buffer, is left to its plane, or drives ERR_OUT; POP drops the oldest record; FORCE sets the pair; a
question is held with an overrun when the last had no answer, and an answer starts its frame unless one is being sent, and answers a question
but one of the same clock (R168,
R524–R526, R528, R529). -/
def Obligations.AlarmsErrorsAndWatchdog : Prop :=
  (∀ (s : State) (b clk q i x : Nat) (temp : Nat),
    (4 ≤ b ∨ s.pwr.inReset = true ∨ bitOf (s.fld RAS_ALARM_ACTIVE) b = true → exec (.alarmFire b) s = .next s) ∧
    (b < 4 → s.pwr.inReset = false → bitOf (s.fld RAS_ALARM_ACTIVE) b = false → ∃ t, exec (.alarmFire b) s = .next t ∧
      bitOf (t.fld RAS_ALARM_ACTIVE) b = true ∧ bitOf (t.fld RAS_ALARM_SEEN) b = true ∧
      (∀ a, a < 4 → a ≠ b → bitOf (t.fld RAS_ALARM_ACTIVE) a = bitOf (s.fld RAS_ALARM_ACTIVE) a) ∧
      t.flag RAS_EVT_ALARM = true ∧ bitOf (t.fld RAS_ERR_OUT_CAUSE) 4 = true ∧
      (s.errFifo.length < 64 → t.errFifo = s.errFifo ++ [⟨7, 2, 0x1B, 0, t.fld RAS_ALARM_SEEN, s.ao⟩] ∧ t.flag RAS_EVT_FATAL = true) ∧
      t.flag CPH_ALARM_REFUSING = true ∧ bitOf (t.fld CPH_ALARM_CAUSE) b = true ∧ t.flag CPH_EVT_ALARM = true ∧
      (∀ o ∈ t.cph.ops, o.held = false)) ∧
    (bitOf (s.fld RAS_ALARM_ACTIVE) b = false ∨ 4 ≤ b → exec (.alarmCease b) s = .next s) ∧
    (b < 4 → bitOf (s.fld RAS_ALARM_ACTIVE) b = true → ∃ t, exec (.alarmCease b) s = .next t ∧
      bitOf (t.fld RAS_ALARM_ACTIVE) b = false ∧ t.fld RAS_ALARM_SEEN = s.fld RAS_ALARM_SEEN ∧
      (b ≠ 1 → s.OnlyRegs t [rRAS_ALARM]) ∧
      (b = 1 → s.domOn 1 = true → t.flag CLK_STATUS_REF_OK = true ∧ t.flag CLK_STATUS_PLL_CORE = true ∧
        t.flag CLK_STATUS_PLL_MC = true ∧ t.flag CLK_STATUS_PLL_TS = true ∧ s.OnlyRegs t [rRAS_ALARM, rCLK_STATUS])) ∧
    (s.pwr.inReset = true → exec (.tempSample temp) s = .next s) ∧
    (s.pwr.inReset = false → ∃ t, exec (.tempSample temp) s = .next t ∧
      t.fld RAS_TEMP_TJ = (s.tempNow temp % 4096).toNat ∧
      bitOf (t.fld RAS_ALARM_ACTIVE) 2 = decide (signed12 (s.fld RAS_TEMP_ALARM_TJ) ≤ s.tempNow temp) ∧
      (signed12 (s.fld RAS_TEMP_ALARM_TJ) ≤ s.tempNow temp ∨ s.OnlyRegs t [rRAS_TEMP, rRAS_ALARM])) ∧
    (clk = 0 ∧ s.flag CLK_STATUS_REF_OK = false ∨ 0 < clk ∧ clk < 4 ∧ s.flag (pllFld clk) = false ∨ 4 ≤ clk →
      exec (.clockLoss clk) s = .next s) ∧
    (s.pwr.inReset = false →
      (s.flag CLK_STATUS_REF_OK = true → ∃ t, exec (.clockLoss 0) s = .next t ∧ t.flag CLK_STATUS_REF_OK = false ∧
        t.flag CLK_EVT_REF_LOSS = true ∧ bitOf (t.fld RAS_ALARM_ACTIVE) 1 = true) ∧
      (0 < clk → clk < 4 → s.flag (pllFld clk) = true → ∃ t, exec (.clockLoss clk) s = .next t ∧ t.flag (pllFld clk) = false ∧
        t.flag CLK_EVT_LOCK_LOSS = true ∧ bitOf (t.fld RAS_ALARM_ACTIVE) 1 = true)) ∧
    (6 ≤ q ∨ bitOf (s.fld CLK_STATUS_SQ) q = false → exec (.serdesPllLockLoss q) s = .next s) ∧
    (q < 6 → bitOf (s.fld CLK_STATUS_SQ) q = true → ∃ t, exec (.serdesPllLockLoss q) s = .next t ∧
      bitOf (t.fld CLK_STATUS_SQ) q = false ∧ t.flag CLK_EVT_LOCK_LOSS = true ∧
      (x < 6 → x ≠ q → bitOf (t.fld CLK_STATUS_SQ) x = bitOf (s.fld CLK_STATUS_SQ) x) ∧
      (i < 4 → s.portOn (4 * q + i) = true → t.flag (ETH_STATUS_PCS_LOCK (4 * q + i)) = false ∧ t.linkUp (4 * q + i) = false))) ∧
  (∀ (s : State) (r : Requester) (e : MemErr) (force tie : Bool) (q ans : Nat),
    (s.pwr.inReset = true → exec (.memoryError e) s = .next s) ∧
    (s.pwr.inReset = false → e.corrected = true → e.mem = 1 → exec (.memoryError e) s = .next s) ∧
    (s.pwr.inReset = false → s.errFifo.length < 64 →
      (e.corrected = true → e.mem ≠ 1 → e.mem < 6 → ∃ t, exec (.memoryError e) s = .next t ∧ t.flag RAS_EVT_REC = true ∧
        t.errFifo = s.errFifo ++ [⟨1, 0, memUnit e.mem, if e.mem = 0 then planeBit e.pl else 0, e.addr, s.ao⟩] ∧
        { t with regs := s.regs, errFifo := s.errFifo } = s ∧ s.RegsBut t [rRAS_EVT]) ∧
      (e.corrected = false → e.mem = 0 → ∃ t, exec (.memoryError e) s = .next t ∧
        t.errFifo = s.errFifo ++ [⟨3, 1, 0xA, planeBit e.pl, e.addr, s.ao⟩] ∧ (planeNum e.pl, e.pool, e.buf) ∈ t.stomps ∧
        { t with regs := s.regs, errFifo := s.errFifo, stomps := s.stomps } = s ∧ s.RegsBut t [rRAS_EVT]) ∧
      (e.corrected = false → e.mem = 1 → ∃ t, exec (.memoryError e) s = .next t ∧
        t.errFifo = s.errFifo ++ [⟨4, 1, 0xA, planeBit e.pl, e.addr, s.ao⟩] ∧ e.pl ∈ t.fatal ∧
        { t with regs := s.regs, errFifo := s.errFifo, fatal := s.fatal } = s ∧ s.RegsBut t [rRAS_EVT]) ∧
      (e.corrected = false → 2 ≤ e.mem → e.mem < 6 → ∃ t, exec (.memoryError e) s = .next t ∧
        t.errFifo = s.errFifo ++ [⟨6, 2, memUnit e.mem, 0, e.addr, s.ao⟩] ∧ t.flag RAS_EVT_FATAL = true ∧
        bitOf (t.fld RAS_ERR_OUT_CAUSE) 3 = true ∧ s.RegsBut t [rRAS_EVT, rRAS_ERR_OUT])) ∧
    (s.pwr.inReset = false → 64 ≤ s.errFifo.length → e.corrected = false → 2 ≤ e.mem →
      e.mem < 6 → ∃ t, exec (.memoryError e) s = .next t ∧ t.errFifo = s.errFifo ∧ t.flag RAS_EVT_REC_OVF = true ∧
        t.fld RAS_REC_OVF_CNT_VAL = (s.fld RAS_REC_OVF_CNT_VAL + 1) % 2 ^ 32) ∧
    -- table SRAM and link words: the fault is found when the item is read
    (s.pwr.inReset = false → e.mem = 6 → e.pool = 0 → e.addr < 131072 → ∃ t, exec (.memoryError e) s = .next t ∧
      e.addr ∈ (t.plane e.pl).badSlots ∧ (∀ a, a ∈ (s.plane e.pl).badSlots → a ∈ (t.plane e.pl).badSlots) ∧
      { t.plane e.pl with badSlots := (s.plane e.pl).badSlots } = s.plane e.pl ∧ s.setPlane e.pl (t.plane e.pl) = t) ∧
    (s.pwr.inReset = false → e.mem = 7 → e.pool < (s.plane e.pl).pools.length → e.buf < ((s.plane e.pl).pool e.pool).count →
      ∃ t, exec (.memoryError e) s = .next t ∧ e.buf ∈ ((t.plane e.pl).pool e.pool).bad ∧
      { t.plane e.pl with pools := (s.plane e.pl).pools } = s.plane e.pl ∧ s.setPlane e.pl (t.plane e.pl) = t) ∧
    (s.flag MEM_STATUS_READY = true → ∃ t, exec .lpddrReadyLost s = .next t ∧ t.flag MEM_STATUS_READY = false ∧
      t.flag MEM_EVT_READY_LOST = true ∧ s.OnlyRegs t [rMEM_STATUS, rMEM_EVT]) ∧
    (s.flag MEM_STATUS_READY = false → exec .lpddrReadyLost s = .next s) ∧
    (s.reaches r rRAS_ERR_POP → ∃ t, exec (.rasErrPop r) s = .next t ∧ t.errFifo = s.errFifo.drop 1 ∧
      { t with errFifo := s.errFifo } = s) ∧
    (s.reaches r rRAS_ERR_OUT → ∃ t, exec (.errOutForce r force) s = .next t ∧ t.flag RAS_ERR_OUT_FORCE = force ∧
      (force = true → t.errFault = true) ∧ s.OnlyRegs t [rRAS_ERR_OUT]) ∧
    (s.pwr.inReset = true → exec (.wdgQuestion q) s = .next s) ∧
    (s.pwr.inReset = false → ∃ t, exec (.wdgQuestion q) s = .next t ∧ t.fld RAS_WDG_Q = q % 256 ∧
      t.flag RAS_WDG_ANSWERED = false ∧ t.flag RAS_EVT_WDG_Q = true ∧ t.wdg.asked = true ∧
      { t.wdg with asked := s.wdg.asked } = s.wdg ∧ { t with regs := s.regs, wdg := s.wdg } = s ∧
      t.fld RAS_WDG_OVERRUN_CNT_VAL = (s.fld RAS_WDG_OVERRUN_CNT_VAL +
        (if s.wdg.asked = true ∧ s.flag RAS_WDG_ANSWERED = false then 1 else 0)) % 2 ^ 32 ∧
      s.RegsBut t [rRAS_WDG, rRAS_EVT, rRAS_WDG_OVERRUN_CNT]) ∧
    (s.reaches r rRAS_WDG_ANS → s.flag GLB_DEVSTATE_SAFE = false →
      (s.wdg.sending = false → ∃ t, exec (.wdgAnswer r ans tie) s = .next t ∧
        t.flag RAS_WDG_ANSWERED = (!tie || s.flag RAS_WDG_ANSWERED) ∧
        t.wdg.sending = true ∧ t.wdg.answer = ans % 256 ∧ t.wdg.asked = s.wdg.asked ∧
        { t with regs := s.regs, wdg := s.wdg } = s ∧ s.RegsBut t [rRAS_WDG]) ∧
      (s.wdg.sending = true → ∃ t, exec (.wdgAnswer r ans tie) s = .next t ∧ t.flag RAS_WDG_ANS_BUSY = true ∧
        s.OnlyRegs t [rRAS_WDG])) ∧
    (∃ t, exec .wdgAnswerSent s = .next t ∧ t.wdg.sending = false ∧ { t.wdg with sending := s.wdg.sending } = s.wdg ∧
      { t with wdg := s.wdg } = s) ∧
    (∃ t, exec .xo32kStart s = .next t ∧ t.flag CLK_STATUS_XO32K_OK = true ∧ s.OnlyRegs t [rCLK_STATUS]))

/-! ## Hosts and tenants -/

/-- The commands of TNW_CTL by the tenant's own function, each valid in its states and else refused with ILLEGAL, and the answer of the
resource manager, who grants everything or nothing (a tenant whose record a chart took away meanwhile gets nothing, log 94); a write to the tenant's window restarts the liveness deadline, and one from elsewhere is
ignored (R483, R485, R486, R487, R500, R501).
The ways out of service: DETACH and the reclaims, by a missed liveness deadline, a reset of the function or its link, a DMA error or
firmware. With no stream admitted the tenant is ABSENT at once, what it held returns to its pools and its keys are gone; with streams it
is DETACHING behind a withdrawal at the head of Carillon's queue. A write of the tenant in the deadline's own clock wins, and a
reclaim of a tenant not in service does nothing (R485, R487, R488,
R489). -/
def Obligations.TenantEntersAndLeavesService : Prop :=
  (∀ (s : State) (r : Requester) (tn v n : Nat) (woc : Bool), tn < 64 →
    (s.tenOwner r tn = false → ∀ c ∈ [Instr.tnwAttach r tn woc, .tnwDetach r tn woc, .tnwDoze r tn woc, .tnwResume r tn woc,
      .tnwLiveWrite r tn], exec c s = .next s) ∧
    (s.tenOwner r tn = true →
      (∃ t, exec (.tnwLiveWrite r tn) s = .next t ∧ t.ten tn = { s.ten tn with live := s.clk } ∧ { t with tenants := s.tenants } = s) ∧
      (s.tenIs tn .absent = true → ∃ t, exec (.tnwAttach r tn woc) s = .next t ∧ t.tenIs tn .attaching = true ∧
        t.fld (TNW_CTL_RESULT tn) = 1 ∧ t.flag (TNW_CTL_WOC tn) = woc ∧ t.flag (HST_TN_STATE_WOC tn) = woc ∧
        t.ten tn = { s.ten tn with live := s.clk } ∧ { t with regs := s.regs, tenants := s.tenants } = s ∧
        s.RegsBut t [rTNW_CTL tn, rHST_TN_STATE tn]) ∧
      (∀ c ∈ (if s.tenIs tn .absent then [] else [Instr.tnwAttach r tn woc]) ++
          (if s.tenLive tn then [] else [Instr.tnwDetach r tn woc]) ++ (if s.tenIs tn .active then [] else [Instr.tnwDoze r tn woc]) ++
          (if s.tenIs tn .doze then [] else [Instr.tnwResume r tn woc]),
        ∃ t, exec c s = .next t ∧ t.fld (TNW_CTL_RESULT tn) = 4 ∧
          t.fld (HST_TN_STATE_STATE tn) = s.fld (HST_TN_STATE_STATE tn) ∧ t.ten tn = { s.ten tn with live := s.clk } ∧
          { t with regs := s.regs, tenants := s.tenants } = s ∧ s.RegsBut t [rTNW_CTL tn, rHST_TN_STATE tn]) ∧
      (s.tenIs tn .active = true → (s.ten tn).cplEv = [] → ∃ t, exec (.tnwDoze r tn woc) s = .next t ∧
        t.tenIs tn .doze = true ∧ t.fld (TNW_CTL_RESULT tn) = 2 ∧
        t.ten tn = { s.ten tn with
          live := s.clk
          woken := false } ∧
        { t with regs := s.regs, tenants := s.tenants } = s ∧ s.RegsBut t [rTNW_CTL tn, rHST_TN_STATE tn]) ∧
      (s.tenIs tn .active = true → (s.ten tn).cplEv ≠ [] → woc = true → s.tenWakePin tn = false →
        ∃ t, exec (.tnwDoze r tn woc) s = .next t ∧ t.tenIs tn .doze = true ∧ t.hostMsgs = .pme tn :: s.hostMsgs ∧
          (t.ten tn).woken = true) ∧
      (s.tenIs tn .doze = true → (s.ten tn).events = [] → (s.ten tn).pba = [] → (s.ten tn).inband = [] →
        ∃ t, exec (.tnwResume r tn woc) s = .next t ∧ t.tenIs tn .active = true ∧ t.fld (TNW_CTL_RESULT tn) = 2 ∧
          t.ten tn = { s.ten tn with
            live := s.clk
            modBase := some s.clk } ∧
          { t with regs := s.regs, tenants := s.tenants } = s ∧ s.RegsBut t [rTNW_CTL tn, rHST_TN_STATE tn]) ∧
      (s.tenIs tn .doze = true → (s.ten tn).events = [(v, n)] → 0 < n → (s.ten tn).pba = [] → (s.ten tn).inband = [] →
        v < s.fld (TNW_REQ0_VEC tn) → v ∈ (s.ten tn).unmasked →
        ∃ t, exec (.tnwResume r tn woc) s = .next t ∧ t.tenIs tn .active = true ∧ t.hostMsgs = .msix tn v :: s.hostMsgs ∧
          (t.ten tn).events = [] ∧ tabGet 0 (t.ten tn).modAt v = s.clk)) ∧
    (s.tenIs tn .attaching = false → exec (.grantComplete tn) s = .next s) ∧
    (s.tenIs tn .attaching = true →
      (s.tenEnabled tn = false ∨ (∃ e ∈ s.tenQuotas tn, e.2 < s.tenAsk e) → ∃ t, exec (.grantComplete tn) s = .next t ∧ t.tenIs tn .absent = true ∧
        t.fld (TNW_CTL_RESULT tn) = 5 ∧ t.fld HST_ATTACH_FAIL_CNT_VAL = (s.fld HST_ATTACH_FAIL_CNT_VAL + 1) % 2 ^ 32 ∧
        t.flag HST_EVT_ATTACH_FAIL = true ∧ s.OnlyRegs t [rTNW_CTL tn, rHST_TN_STATE tn, rHST_ATTACH_FAIL_CNT, rHST_EVT]) ∧
      (s.tenEnabled tn = true → (∀ e ∈ s.tenQuotas tn, s.tenAsk e ≤ e.2) →
        (s.fld HST_POOL_RP_FREE < s.tenAsk (TNW_REQ0_RP tn, s.tenRec tn 5 1) ∨
            s.fld HST_POOL_CAP_FREE < s.tenAsk (TNW_REQ3_CAP tn, s.tenRec tn 16 1) →
          ∃ t, exec (.grantComplete tn) s = .next t ∧ t.tenIs tn .absent = true ∧ t.fld (TNW_CTL_RESULT tn) = 6 ∧
            t.fld HST_ATTACH_FAIL_CNT_VAL = (s.fld HST_ATTACH_FAIL_CNT_VAL + 1) % 2 ^ 32 ∧
            t.flag HST_EVT_ATTACH_FAIL = true ∧ s.OnlyRegs t [rTNW_CTL tn, rHST_TN_STATE tn, rHST_ATTACH_FAIL_CNT, rHST_EVT]) ∧
        (s.tenAsk (TNW_REQ0_RP tn, s.tenRec tn 5 1) ≤ s.fld HST_POOL_RP_FREE →
            s.tenAsk (TNW_REQ3_CAP tn, s.tenRec tn 16 1) ≤ s.fld HST_POOL_CAP_FREE →
          ∃ t, exec (.grantComplete tn) s = .next t ∧ t.tenIs tn .active = true ∧ t.fld (TNW_CTL_RESULT tn) = 2 ∧
            t.fld HST_ATTACH_CNT_VAL = (s.fld HST_ATTACH_CNT_VAL + 1) % 2 ^ 32 ∧ t.flag HST_EVT_ATTACHED = true ∧
            t.fld HST_POOL_RP_FREE = s.fld HST_POOL_RP_FREE - s.tenAsk (TNW_REQ0_RP tn, s.tenRec tn 5 1) ∧
            t.fld HST_POOL_CAP_FREE = s.fld HST_POOL_CAP_FREE - s.tenAsk (TNW_REQ3_CAP tn, s.tenRec tn 16 1) ∧
            (∀ e ∈ s.tenQuotas tn, t.fld e.1 = s.tenAsk e % 2 ^ e.1.wid) ∧ (t.ten tn).live = s.clk ∧
            (t.ten tn).capRules = s.freeCapRules.take (s.tenAsk (TNW_REQ3_CAP tn, s.tenRec tn 16 1)) ∧
            { t with regs := s.regs, tenants := s.tenants } = s)))) ∧
  (∀ (s : State) (r : Requester) (tn link sel n d : Nat) (woc : Bool), tn < 64 →
    (s.tenOwner r tn = true → s.tenLive tn = true →
      (s.tenStreams tn = [] → ∃ t, exec (.tnwDetach r tn woc) s = .next t ∧ t.tenIs tn .absent = true ∧
        t.fld (HST_TN_STATE_CAUSE tn) = 0 ∧ t.fld (TNW_CTL_RESULT tn) = 2 ∧ t.flag HST_EVT_DETACHED = true ∧ (t.ten tn).cmds = [] ∧
        t.fld HST_POOL_RP_FREE = (s.fld HST_POOL_RP_FREE + s.fld (TNW_REQ0_RP tn)) % 2 ^ HST_POOL_RP_FREE.wid ∧
        t.fld HST_POOL_CAP_FREE = (s.fld HST_POOL_CAP_FREE + (s.ten tn).capRules.length) % 2 ^ HST_POOL_CAP_FREE.wid ∧
        (16 ≤ n → n < 1024 → (s.slot n).cur.isSome = true → (s.slot n).owner = tn → (t.slot n).cur = none)) ∧
      (s.tenStreams tn ≠ [] → ∃ t, exec (.tnwDetach r tn woc) s = .next t ∧ t.tenIs tn .detaching = true ∧
        t.fld (TNW_CTL_RESULT tn) = 1 ∧ (t.ten tn).withdrawing = true ∧
        t.car.queue.head? = some ⟨.detach tn, (s.tenStreams tn).map (.withdraw ·), false, none, false⟩)) ∧
    (s.tenLive tn = true → s.tenStreams tn = [] → ∀ (c : Instr) (cause : Nat),
      (c = .livenessExpire tn false ∧ s.liveFor tn = some d ∧ d ≤ clkSince s.clk (s.ten tn).live ∧ cause = 1) ∨
        (c = .functionLevelReset tn ∧ s.tenEnabled tn = true ∧ s.tenInband tn = false ∧ cause = 2) ∨
        (c = .pcieLinkEvent link .hotReset ∧ tn ∈ s.linkTenants link ∧ cause = 3) ∨
        (c = .pcieLinkEvent link .linkDown ∧ tn ∈ s.linkTenants link ∧ cause = 3) ∨
        (c = .dmaError tn ∧ s.tenInband tn = false ∧ cause = 4) ∨ (c = .hstReclaim r tn sel ∧ s.reaches r rHST_CTL ∧ cause = 5) →
      ∃ t, exec c s = .next t ∧ t.tenIs tn .absent = true ∧ t.fld (HST_TN_STATE_CAUSE tn) = cause ∧
        t.flag HST_EVT_RECLAIM = true ∧ t.flag HST_EVT_DETACHED = true ∧ (t.ten tn).cmds = [] ∧
        (16 ≤ n → n < 1024 → (s.slot n).cur.isSome = true → (s.slot n).owner = tn → (t.slot n).cur = none) ∧
        (cause = 5 → t.fld HST_CTL_RESULT = 2 ∧ t.fld HST_CTL_SEL = sel % 64) ∧
        (cause ≠ 3 → t.fld HST_RECLAIM_CNT_VAL = (s.fld HST_RECLAIM_CNT_VAL + 1) % 2 ^ 32)) ∧
    (s.tenEnabled tn = true → s.tenInband tn = false → ∃ t, exec (.functionLevelReset tn) s = .next t ∧
      (t.ten tn).unmasked = [] ∧ (t.ten tn).pba = []) ∧
    (s.tenEnabled tn = false ∨ s.tenInband tn = true → exec (.functionLevelReset tn) s = .next s) ∧
    (s.liveFor tn = none ∨ (s.liveFor tn = some d ∧ clkSince s.clk (s.ten tn).live < d) →
      exec (.livenessExpire tn false) s = .next s) ∧
    exec (.livenessExpire tn true) s = .next (s.setTen tn { s.ten tn with live := s.clk }) ∧
    (s.tenLive tn = false ∨ s.tenInband tn = true → exec (.dmaError tn) s = .next s) ∧
    (s.tenLive tn = false → s.reaches r rHST_CTL → ∃ t, exec (.hstReclaim r tn sel) s = .next t ∧ t.fld HST_CTL_RESULT = 4 ∧
      s.OnlyRegs t [rHST_CTL]) ∧
    (∃ t, exec (.pcieLinkEvent link .l0) s = .next t ∧ t.hiWake = s.hiWake.filter (fun k => decide (k ≠ link)) ∧
      (link < 2 → s.domOn 10 = true → bitOf (t.fld CLK_STATUS_PCIE) link = true) ∧
      { t with regs := s.regs, hiWake := s.hiWake } = s ∧ s.RegsBut t [rCLK_STATUS]) ∧
    exec (.pcieLinkEvent link .lowPower) s = .next s)

/-- How commands come and completions go: tenants with an entry take turns, the next entry of an enabled command ring is fetched while there is room, a
malformed one ends at once; a completion is written behind TAIL with PHASE; a vector with events due sends its message, or sets its PBA bit while
masked, and unmasking sends what it holds; a transmit descriptor that is malformed is dropped with its status, and one that is
well formed enters the core (R490, R491, R493, R494, R500). -/
def Obligations.TenantRingsAndVectors : Prop := ∀ (s s1 : State) (tn ring v size head tail h d : Nat) (x : Tenant)
    (e ent : List Byte) (q : Ring) (ev ok : Bool), tn < 64 →
    (s.cmdReady tn = false → exec (.commandFetch tn) s = .next s) ∧
    (d < 64 → tn = (s.cmdTurn + 1 + d) % 64 → v < d → s.cmdReady ((s.cmdTurn + 1 + v) % 64) = true → exec (.commandFetch tn) s = .next s) ∧
    (size = 2 ^ s.fld (TNW_CMDQ_CFG_LOG2 tn) → head = s.fld (TNW_CMDQ_HEAD_HEAD tn) →
      (s.tenInband tn = true ∨ s.tenLive tn = false ∨ s.flag (TNW_CMDQ_CFG_EN tn) = false ∨
        head % size = s.fld (TNW_CMDQ_TAIL_TAIL tn) % size ∨ s.cmdRoom tn = false → s.cmdReady tn = false) ∧
      (d < 64 → tn = (s.cmdTurn + 1 + d) % 64 → (∀ i < d, s.cmdReady ((s.cmdTurn + 1 + i) % 64) = false) →
        s.tenInband tn = false → s.tenLive tn = true → s.flag (TNW_CMDQ_CFG_EN tn) = true →
        head % size ≠ s.fld (TNW_CMDQ_TAIL_TAIL tn) % size → s.cmdRoom tn = true →
        e = s.dmaRead tn (ringBase (s.fld64 (TNW_CMDQ_BASE_LO_BASE tn) (TNW_CMDQ_BASE_HI_BASE tn)) + 64 * (head % size)) 64 →
        ∃ t, exec (.commandFetch tn) s = .next t ∧ t.cmdTurn = tn ∧ t.fld (TNW_CMDQ_HEAD_HEAD tn) = (head + 1) % size % 2 ^ 10 ∧
          t.ten tn = { s.ten tn with cmds := (s.ten tn).cmds ++ [⟨e, leNat (slice e 2 2),
            if cmdFormed e = false ∨ (s.ten tn).cmds.any (fun c => c.id == leNat (slice e 2 2)) = true
            then .ended 0x01 [] else .fetched⟩] } ∧
          { t with regs := s.regs, tenants := s.tenants, cmdTurn := s.cmdTurn } = s ∧ s.RegsBut t [rTNW_CMDQ_HEAD tn])) ∧
    ((s.tenLive tn = false ∧ s.tenIs tn .detaching = false) ∨ (s.ten tn).nextCpl = none ∨
        ((s.ten tn).nextCpl = some (x, ent, ev) ∧ x.quiet = true) → exec (.completionWrite tn) s = .next s) ∧
    (s.tenLive tn = true ∨ s.tenIs tn .detaching = true → s.tenInband tn = true → (s.ten tn).nextCpl = some (x, ent, false) →
      x.quiet = false → exec (.completionWrite tn) s = .next (s.setTen tn { x with inband := x.inband ++ [ent] })) ∧
    (s.tenLive tn = true ∨ s.tenIs tn .detaching = true → s.tenInband tn = false → (s.ten tn).nextCpl = some (x, ent, ev) →
      x.quiet = false →
      (s.cplRoom tn = false → exec (.completionWrite tn) s = .next s) ∧
      (s.cplRoom tn = true → tail = s.fld (TNW_CPLQ_TAIL_TAIL tn) →
        ∃ t, exec (.completionWrite tn) s = .next t ∧
          t.fld (TNW_CPLQ_TAIL_TAIL tn) = (tail + 1) % 2 ^ s.fld (TNW_CPLQ_CFG_LOG2 tn) % 2 ^ 12 ∧
          (ev = false →
            t.ten tn = { x with phase := if (tail + 1) % 2 ^ s.fld (TNW_CPLQ_CFG_LOG2 tn) = 0 then !x.phase else x.phase }) ∧
          (ev = true → tabGet 0 (t.ten tn).events (s.fld (TNW_CPLQ_CFG_VEC tn)) =
            tabGet 0 x.events (s.fld (TNW_CPLQ_CFG_VEC tn)) + 1) ∧
          (bitOf (s.tenRec tn 2 1) 7 = false → t.host1 = s.host1 ∧ t.host0 = memPut s.host0
            (ringBase (s.fld64 (TNW_CPLQ_BASE_LO_BASE tn) (TNW_CPLQ_BASE_HI_BASE tn)) + 16 * tail) ent) ∧
          (bitOf (s.tenRec tn 2 1) 7 = true → t.host0 = s.host0 ∧ t.host1 = memPut s.host1
            (ringBase (s.fld64 (TNW_CPLQ_BASE_LO_BASE tn) (TNW_CPLQ_BASE_HI_BASE tn)) + 16 * tail) ent) ∧
          (ev = false ∨ s.tenIs tn .doze = false →
            { t with regs := s.regs, tenants := s.tenants, host0 := s.host0, host1 := s.host1 } = s) ∧
          s.RegsBut t [rTNW_CPLQ_TAIL tn])) ∧
    (s.tenIs tn .active = true → v < s.fld (TNW_REQ0_VEC tn) → 0 < tabGet 0 (s.ten tn).events v → s.vecDue tn v = true →
      ∃ t, exec (.vectorSend tn v) s = .next t ∧ tabGet 0 (t.ten tn).events v = 0 ∧ v ∉ (t.ten tn).cplEv ∧
        { t with tenants := s.tenants, hostMsgs := s.hostMsgs } = s ∧
        (v ∈ (s.ten tn).unmasked → t.hostMsgs = .msix tn v :: s.hostMsgs ∧ v ∉ (t.ten tn).pba ∧
          tabGet 0 (t.ten tn).modAt v = s.clk) ∧
        (v ∉ (s.ten tn).unmasked → t.hostMsgs = s.hostMsgs ∧ v ∈ (t.ten tn).pba)) ∧
    (s.tenIs tn .active = false ∨ s.fld (TNW_REQ0_VEC tn) ≤ v ∨ tabGet 0 (s.ten tn).events v = 0 ∨ s.vecDue tn v = false →
      exec (.vectorSend tn v) s = .next s) ∧
    (∃ t, exec (.msixUnmask tn v) s = .next t ∧ v ∈ (t.ten tn).unmasked ∧ { t with tenants := s.tenants, hostMsgs := s.hostMsgs } = s ∧
      (v ∉ (s.ten tn).pba → t.hostMsgs = s.hostMsgs) ∧
      (v ∈ (s.ten tn).pba → s.tenIs tn .active = true → v < s.fld (TNW_REQ0_VEC tn) →
        t.hostMsgs = .msix tn v :: s.hostMsgs ∧ v ∉ (t.ten tn).pba)) ∧
    (q = s.ifRing 0 →
      (s.flag (HST_IFQ_CFG_EN 0) = false ∨ q.empty = true → exec (.txDescriptorFetch 64 ring) s = .next s) ∧
      (s.flag (HST_IFQ_CFG_EN 0) = true → q.empty = false →
        (txFormed (memTake s.mcMem q.at 32) = false → ∃ t, exec (.txDescriptorFetch 64 ring) s = .next t ∧
          t.fld (HST_IFQ_HEAD_HEAD 0) = q.next % 2 ^ 12 ∧ t.flag HST_EVT_IF0_TX = true ∧
          t.mcMem = memPut s.mcMem (q.at + 11) [2] ∧ { t with regs := s.regs, mcMem := s.mcMem } = s ∧
          s.RegsBut t [rHST_IFQ_HEAD 0, rHST_EVT]) ∧
        (txFormed (memTake s.mcMem q.at 32) = true →
          s.receive 80 false (ethFrame (memTake s.mcMem (leNat ((memTake s.mcMem q.at 32).take 8))
            (leNat (slice (memTake s.mcMem q.at 32) 8 2)))) s.stamp 0 (descRequest (memTake s.mcMem q.at 32) none) = (s1, ok) →
          exec (.txDescriptorFetch 64 ring) s = .next
            (((s1.ringWrite none (q.at + 11) [if ok then 1 else 2]).put (HST_IFQ_HEAD_HEAD 0) q.next).setFlag HST_EVT_IF0_TX)))) ∧
    (q = s.txRing tn ring → h = s.tenRec tn 4 1 + s.fld (TNW_RP_CFG_HV tn ring) → ring < 128 →
      (s.rpLive tn ring = false ∨ q.empty = true → exec (.txDescriptorFetch tn ring) s = .next s) ∧
      (s.rpLive tn ring = true → q.empty = false → txFormed (s.dmaRead tn q.at 32) = false →
        ∃ t, exec (.txDescriptorFetch tn ring) s = .next t ∧ t.fld (TNW_RP_TX_HEAD_HEAD tn ring) = q.next % 2 ^ 12 ∧
          t.fld (HST_HV_TX_DROP_CNT_VAL h) = (s.fld (HST_HV_TX_DROP_CNT_VAL h) + 1) % 2 ^ 32 ∧
          ((s.ten tn).quiet = false → tabGet 0 (t.ten tn).events (s.fld (TNW_RP_VEC_TX_VEC tn ring)) =
            tabGet 0 (s.ten tn).events (s.fld (TNW_RP_VEC_TX_VEC tn ring)) + 1) ∧
          s.RegsBut t [rTNW_RP_TX_HEAD tn ring, rHST_HV_TX_DROP_CNT h]) ∧
      (s.rpLive tn ring = true → q.empty = false → e = s.dmaRead tn q.at 32 → txFormed e = true →
        s.receive (88 + h) false (ethFrame (s.dmaRead tn (leNat (e.take 8)) (leNat (slice e 8 2)))) s.stamp 0
          (descRequest e (some tn)) = (s1, ok) →
        exec (.txDescriptorFetch tn ring) s = .next
          (((((s1.addCnt64 (HST_HV_TX_FRAMES_LO_VAL h) (HST_HV_TX_FRAMES_HI_VAL h) 1).dmaWrite tn (q.at + 11) [1]).put
            (TNW_RP_TX_HEAD_HEAD tn ring) q.next).vecEvent tn (s.fld (TNW_RP_VEC_TX_VEC tn ring)) false))))

/-- The in-band engine of a plane: the management frame that has waited longest there is taken, when the command names it, and its buffer
returned, one that comes from no tenant's attachment or that MACsec did not validate is counted as dropped, a command frame
restarts the deadline and puts its entry in flight, a control frame acts as TNW_CTL does; ready completion entries leave sixteen to a
frame (R494, R498, R499).
The commands of a tenant that need no other unit, or one that is ready: KEEPALIVE, NM_REQ, STATS, CAPTURE and ABORT complete with their effect,
STREAM_DECLARE and STREAM_WITHDRAW become jobs of Carillon or wait, CIPHER takes a place in the pool or ends LIMIT; with none fetched
nothing happens. An ABORT in the clock of its target's downbeat finds it done (R299, R494–R497). -/
def Obligations.InbandFramesAndCommands : Prop :=
  (∀ (s u : State) (pl : Plane) (tn : Nat) (f : Frame) (fs : List Frame) (e : List Byte),
    ((s.plane pl).mgmt.head?.any (fun g => g.inPort == f.inPort && g.bytes == f.bytes) = false →
      exec (.inbandFrame pl f.inPort f.bytes) s = .next s) ∧
    ((s.plane pl).mgmt = f :: fs →
      u = (s.setPlane pl { s.plane pl with mgmt := fs }).release f →
      (u.inbandTenant f.inPort f.bytes = none ∨ f.secure = false ∨ 16 < byteAt f.bytes 21 ∨
          f.bytes.length < 30 + 64 * byteAt f.bytes 21 → ∃ t, exec (.inbandFrame pl f.inPort f.bytes) s = .next t ∧
        t.fld HST_INBAND_DROP_CNT_VAL = (s.fld HST_INBAND_DROP_CNT_VAL + 1) % 2 ^ 32 ∧ u.OnlyRegs t [rHST_INBAND_DROP_CNT]) ∧
      (u.inbandTenant f.inPort f.bytes = some tn → tn < 64 → f.secure = true → byteAt f.bytes 21 = 1 → 94 ≤ f.bytes.length →
        e = slice f.bytes 26 64 →
        (byteAt f.bytes 19 = 1 → s.tenLive tn = true → s.cmdRoom tn = true →
          ∃ t, exec (.inbandFrame pl f.inPort f.bytes) s = .next t ∧ { t with tenants := u.tenants } = u ∧
            t.ten tn = { s.ten tn with
              live := s.clk
              cmds := (s.ten tn).cmds ++ [⟨e, leNat (slice e 2 2),
                if cmdFormed e = false ∨ (s.ten tn).cmds.any (fun c => c.id == leNat (slice e 2 2)) = true then .ended 0x01 []
                else if inbandMay e = false then .ended 0x08 [] else .fetched⟩] }) ∧
        (byteAt f.bytes 19 = 1 → s.tenLive tn = false → ∃ t, exec (.inbandFrame pl f.inPort f.bytes) s = .next t ∧
          t.fld HST_INBAND_DROP_CNT_VAL = (s.fld HST_INBAND_DROP_CNT_VAL + 1) % 2 ^ 32 ∧ u.OnlyRegs t [rHST_INBAND_DROP_CNT]) ∧
        (byteAt f.bytes 19 = 4 → byteAt e 0 % 16 = 1 → s.tenIs tn .absent = true → ∃ t, exec (.inbandFrame pl f.inPort f.bytes) s = .next t ∧
          t.tenIs tn .attaching = true ∧ t.fld (TNW_CTL_RESULT tn) = 1 ∧ (t.ten tn).live = s.clk ∧
          t.flag (TNW_CTL_WOC tn) = bitOf (byteAt e 1) 0 ∧ { t with regs := u.regs, tenants := u.tenants } = u))) ∧
    (s.tenInband tn = false ∨ s.tenIs tn .active = false ∨ (s.ten tn).inband = [] →
      exec (.inbandCompletionSend tn) s = .next s) ∧
    (s.tenInband tn = true → s.tenIs tn .active = true → (s.ten tn).inband ≠ [] →
      exec (.inbandCompletionSend tn) s = .next ((s.setTen tn { s.ten tn with
        inband := (s.ten tn).inband.drop 16
        cplEv := [] }).sendInband tn 2 ((s.ten tn).inband.take 16)))) ∧
  (∀ (s : State) (tn k rule : Nat) (c d : TenCmd) (hold late : Bool), tn < 64 →
    (∀ x ∈ [(Instr.tenStreamDeclare tn, 2), (.tenStreamWithdraw tn, 3), (.tenCipher tn, 5), (.tenCapture tn, 6), (.tenStats tn, 7),
        (.tenNmReq tn, 8), (.tenAbort tn late, 9), (.tenKeepalive tn, 10), (.tenTable tn, 1), (.tenKey tn, 4)],
      s.tenLive tn = false ∨ (s.ten tn).cmds.find? (TenCmd.waits x.2) = none → exec x.1 s = .next s) ∧
    (s.tenLive tn = true → (s.ten tn).cmds.find? (TenCmd.waits 10) = some c → ∃ t, exec (.tenKeepalive tn) s = .next t ∧
      t.ten tn = { s.ten tn with
        live := s.clk
        cmds := (s.ten tn).cmds.erase c ++ [{ c with st := .ended 0 [] }] } ∧ { t with tenants := s.tenants } = s) ∧
    (s.tenLive tn = true → (s.ten tn).cmds.find? (TenCmd.waits 8) = some c → k = c.opd 8 1 →
      (16 ≤ k ∨ s.ncEnabled k = false → ∃ t, exec (.tenNmReq tn) s = .next t ∧ s.TenEnds t tn c 2 [] ∧ { t with tenants := s.tenants } = s) ∧
      (k < 16 → s.ncEnabled k = true → c.opd 9 1 = bitN hold → ∃ t, exec (.tenNmReq tn) s = .next t ∧ s.TenEnds t tn c 0 [] ∧
        bitOf (t.fld64 (NMW_NC_TREQ_LO_TN k) (NMW_NC_TREQ_HI_TN k)) tn = hold ∧ (k ∈ (t.ten tn).nm ↔ hold = true))) ∧
    (s.tenLive tn = true → (s.ten tn).cmds.find? (TenCmd.waits 7) = some c → ∀ words, words = (List.range (s.tenHv tn).2).flatMap
        (fun i => (List.range 8).map (fun j => 0x1820000 + 0x20 * ((s.tenHv tn).1 + i) + 4 * j)) →
      ∃ t, exec (.tenStats tn) s = .next t ∧
        s.TenEnds t tn c 0 ([0, 0, 0, 0] ++ leBytes 2 (32 * (s.tenHv tn).2)) ∧
        (bitOf (s.tenRec tn 2 1) 7 = false → t.host1 = s.host1 ∧ t.host0 = memPut s.host0 (c.opd 8 8)
          (words.flatMap (fun a => leBytes 4 (s.reg a).toNat))) ∧
        (bitOf (s.tenRec tn 2 1) 7 = true → t.host0 = s.host0 ∧ t.host1 = memPut s.host1 (c.opd 8 8)
          (words.flatMap (fun a => leBytes 4 (s.reg a).toNat))) ∧
        (bitOf (c.opd 16 1) 0 = true → ∀ a ∈ words, t.reg a = 0) ∧
        (bitOf (c.opd 16 1) 0 = false → t.regs = s.regs) ∧ s.RegsBut t words) ∧
    (s.tenLive tn = true → (s.ten tn).cmds.find? (TenCmd.waits 6) = some c →
      ((s.ten tn).capRules[c.opd 8 1]? = none → ∃ t, exec (.tenCapture tn) s = .next t ∧ s.TenEnds t tn c 2 [] ∧
        { t with tenants := s.tenants } = s) ∧
      ((s.ten tn).capRules[c.opd 8 1]? = some rule → rule < 16 → bitOf (c.opd 16 4) 28 = false →
        s.tenPort tn (bits (c.opd 16 4) 16 8) = true → 4096 ≤ c.opd 32 4 → c.opd 32 4 ≤ 16777216 → c.opd 32 4 % 16 = 0 →
        c.opd 36 1 ≤ 1 → ∃ t, exec (.tenCapture tn) s = .next t ∧ s.TenEnds t tn c 0 [] ∧
          (t.ten tn).capRing = some (c.opd 24 8, c.opd 32 4, c.opd 36 1 == 1) ∧
          t.reg (rCAP_RULE_CFG rule) = (s.storeOne true true (rCAP_RULE_CFG rule) (c.opd 16 4)).reg (rCAP_RULE_CFG rule) ∧
          t.reg (rCAP_RULE_SEL rule) = (s.storeOne true true (rCAP_RULE_SEL rule) (c.opd 20 4)).reg (rCAP_RULE_SEL rule) ∧
          ((s.ten tn).capRing ≠ some (c.opd 24 8, c.opd 32 4, c.opd 36 1 == 1) →
            t.fld (TNW_CAP_HEAD_HEAD tn) = 0 ∧ t.fld (TNW_CAP_TAIL_TAIL tn) = 0))) ∧
    (s.tenLive tn = true → (s.ten tn).cmds.find? (TenCmd.waits 9) = some c →
      ((s.ten tn).target (c.opd 8 2) = none → ∃ t, exec (.tenAbort tn late) s = .next t ∧ s.TenEnds t tn c 7 [] ∧
        { t with tenants := s.tenants } = s) ∧
      ((s.ten tn).target (c.opd 8 2) = some d →
        (d.done = true → ∃ t, exec (.tenAbort tn late) s = .next t ∧ s.TenEnds t tn c 6 [] ∧ { t with tenants := s.tenants } = s) ∧
        (d.done = false → late = true → s.abortBeaten tn d = true →
          exec (.tenAbort tn late) s = .next (s.jobDownbeat.tenEnd tn c 6 [])) ∧
        (d.st = .inCarillon → late = false ∨ s.abortBeaten tn d = false →
          exec (.tenAbort tn late) s = .next ((s.carDrop (fun src => src == .tenant tn d.id)).tenEnd tn c 0 [])) ∧
        (d.st = .fetched → late = false ∨ s.abortBeaten tn d = false → ∃ t, exec (.tenAbort tn late) s = .next t ∧ { t with tenants := s.tenants } = s ∧
          (t.ten tn).cmds = ((s.ten tn).cmds.erase d ++ [{ d with st := .ended 5 [] }]).erase c ++ [{ c with st := .ended 0 [] }]))) ∧
    (∀ x ∈ [(Instr.tenStreamDeclare tn, 2, JobItem.declare tn (slice c.entry 8 48)),
        (.tenStreamWithdraw tn, 3, JobItem.withdraw (c.opd 8 2))],
      s.tenLive tn = true → (s.ten tn).cmds.find? (TenCmd.waits x.2.1) = some c →
        (s.carFull = true → exec x.1 s = .next s) ∧
        (s.carFull = false → ∃ t, exec x.1 s = .next t ∧
          t.car.queue = s.car.queue ++ [⟨.tenant tn c.id, [x.2.2], false, none, false⟩] ∧ { t.car with queue := s.car.queue } = s.car ∧
          (t.ten tn).cmds = (s.ten tn).cmds.map (fun y => if y = c then { y with st := .inCarillon } else y) ∧
          t.fld CAR_STATUS_QUEUED = (s.car.queue.length + 1) % 2 ^ CAR_STATUS_QUEUED.wid ∧
          s.RegsBut t [rCAR_STATUS, rCAR_PEAL, rCAR_SHD_PEAL, rCAR_DOWNBEAT_LO, rCAR_DOWNBEAT_HI] ∧
          { t with regs := s.regs, tenants := s.tenants, car := s.car } = s)) ∧
    (s.tenLive tn = true → (s.ten tn).cmds.find? (TenCmd.waits 5) = some c →
      (s.fld (TNW_REQ3_CPH tn) ≤ s.tenCphHeld tn ∨ s.cphFull = true → ∃ t, exec (.tenCipher tn) s = .next t ∧ s.TenEnds t tn c 9 [] ∧
        { t with tenants := s.tenants } = s) ∧
      (s.tenCphHeld tn < s.fld (TNW_REQ3_CPH tn) → s.cphFull = false → s.flag CPH_ALARM_REFUSING = false →
        (∀ o ∈ s.cph.ops, o.held = true) → ∃ t, exec (.tenCipher tn) s = .next t ∧
          t.cph.ops = s.cph.ops ++ [⟨s.cph.nextId, 48 + tn, slice c.entry 8 32, .queued⟩] ∧
          (t.ten tn).cmds = (s.ten tn).cmds.map (fun y => if y = c then { y with st := .inCipher s.cph.nextId } else y) ∧
          { t with tenants := s.tenants, cph := s.cph } = s)))

/-- TABLE and KEY of a tenant: a tag outside its TAGS or a slot that is not its own is DENIED, the table engine's own answer completes
an insertion, replacement, deletion or lookup, one beyond the entry limit ends QUOTA, and a KEY generated in an empty slot belongs to the tenant, within its limit (R415, R495,
R496). -/
def Obligations.TenantTableAndKeys : Prop := ∀ (s : State) (tn op tag ri n alg usage : Nat) (reg : Region) (c : TenCmd), tn < 64 →
    s.tenLive tn = true →
    (s.flag (TBL_CMD_BUSY .A) = true → exec (.tenTable tn) s = .next s) ∧
    (s.flag (TBL_CMD_BUSY .A) = false → (s.ten tn).cmds.find? (TenCmd.waits 1) = some c → op = c.opd 8 1 → tag = c.opd 16 1 →
      ((s.tenTags tn).contains tag = false → ∃ t, exec (.tenTable tn) s = .next t ∧ s.TenEnds t tn c 2 [] ∧
        { t with tenants := s.tenants } = s) ∧
      ((s.tenTags tn).contains tag = true → (s.plane s.engine).regionOfTag tag = some ri →
        (s.plane s.engine).region ri = some reg → reg.wide = true →
        (op = 4 → ∀ b i x, s.tblWouldTake s.engine reg (beNat (slice c.entry 16 40)) = some (b, i, x) →
          ∃ t, exec (.tenTable tn) s = .next t ∧ s.TenEnds t tn c 0 ([BitVec.ofNat 8 tsOK, 0, 0, 0] ++ leBytes 8 x.result) ∧
            { t with tenants := s.tenants } = s) ∧
        (op = 4 → s.tblWouldTake s.engine reg (beNat (slice c.entry 16 40)) = none →
          ∃ t, exec (.tenTable tn) s = .next t ∧ s.TenEnds t tn c 4 [BitVec.ofNat 8 tsNOTFOUND] ∧ { t with tenants := s.tenants } = s) ∧
        (op = 3 → s.anyWriter = true → ∀ s1 code, s.tblDeleteKey ri reg (beNat (slice c.entry 16 40)) = (s1, code) →
          exec (.tenTable tn) s = .next (s1.tblEnd tn c code [])) ∧
        (op = 2 → s.anyWriter = true → s.tenResultOk tn (c.opd 56 8) = true → ∀ s1 code, s.tblReplaceKey ri reg
          (beNat (slice c.entry 16 40)) (c.opd 56 8) (bitOf (c.opd 9 1) 0) = (s1, code) →
          exec (.tenTable tn) s = .next (s1.tblEnd tn c code [])) ∧
        (op = 1 → s.anyWriter = true → s.tenResultOk tn (c.opd 56 8) = true → ∀ s1 code x, s.tblInsertKey ri reg
          (beNat (slice c.entry 16 40)) (c.opd 56 8) (bitOf (c.opd 9 1) 0) = (s1, code, x) →
          (s1.emOwned tn ≤ s.tenLimEM tn ∨ s1.emOwned tn ≤ s.emOwned tn → exec (.tenTable tn) s = .next (s1.tblEnd tn c code [])) ∧
          (s.tenLimEM tn < s1.emOwned tn → s.emOwned tn < s1.emOwned tn → code = tsOK ∨ code = tsREPLACED →
            ∃ t, exec (.tenTable tn) s = .next t ∧ s.TenEnds t tn c 3 [] ∧ { t with tenants := s.tenants } = s)))) ∧
    (s.flag BLF_CMD_BUSY = true → exec (.tenKey tn) s = .next s) ∧
    (s.flag BLF_CMD_BUSY = false → (s.ten tn).cmds.find? (TenCmd.waits 4) = some c → c.opd 8 1 = 1 → c.opd 9 1 % 2 = 0 →
      n = c.opd 10 2 → 16 ≤ n → n < 1024 → alg = c.opd 14 1 → usage = c.opd 15 1 →
      ((s.slot n).cur.isSome = true → (s.slot n).owner ≠ tn → ∃ t, exec (.tenKey tn) s = .next t ∧ s.TenEnds t tn c 2 [] ∧
        { t with tenants := s.tenants } = s) ∧
      ((s.slot n).cur = none → s.fld (TNW_REQ2_KEY tn) < s.tenKeys tn + 1 → ∃ t, exec (.tenKey tn) s = .next t ∧
        s.TenEnds t tn c 3 [] ∧ { t with tenants := s.tenants } = s) ∧
      ((s.slot n).cur = none → s.tenKeys tn + 1 ≤ s.fld (TNW_REQ2_KEY tn) → isAes alg = true ∨ isPriv alg = true →
        bitOf usage 7 = false → ∃ t, exec (.tenKey tn) s = .next t ∧
          s.TenEnds t tn c 0 ([1, 0, 0, 0] ++ leBytes 2 n ++ leBytes 2 0) ∧
          t.slot n = { s.slot n with
            cur := some ⟨alg, usage, 0xFFFF, 0, 0, bitOf (c.opd 9 1) 1, 0, (s.random (keyLen alg)).2,
              pubOf alg (s.random (keyLen alg)).2⟩
            owner := tn } ∧
          (∀ m, m ≠ n → t.slot m = s.slot m) ∧ t.blf.staged = none ∧ t.free = s.free + keyLen alg ∧
          { t with tenants := s.tenants, blf := s.blf, free := s.free } = s))
end

