-- ==== Sys2Proof/Laws/Tab.lean ====
section
/-! SUPPORT. Laws of sparse tables and memories: a read after a write, and that every operation keeps the canonical form. -/

namespace Sys2Proof.Machine

/-! ## Reads after writes -/

@[simp] theorem tabFind_nil {α : Type} (n : Nat) : tabFind ([] : Tab α) n = none := rfl

theorem tabFind_cons {α : Type} (k : Nat) (v : α) (t : Tab α) (n : Nat) :
    tabFind ((k, v) :: t) n = if k = n then some v else tabFind t n := rfl

theorem tabFind_tabDel_self {α : Type} (t : Tab α) (n : Nat) : tabFind (tabDel t n) n = none := by
  induction t with
  | nil => rfl
  | cons e t ih =>
    obtain ⟨k, v⟩ := e
    by_cases h : k = n
    · simpa [tabDel, h] using ih
    · have : tabDel ((k, v) :: t) n = (k, v) :: tabDel t n := by simp [tabDel, h]
      rw [this, tabFind_cons, if_neg h, ih]

theorem tabFind_tabDel_ne {α : Type} (t : Tab α) {n m : Nat} (h : m ≠ n) : tabFind (tabDel t n) m = tabFind t m := by
  induction t with
  | nil => rfl
  | cons e t ih =>
    obtain ⟨k, v⟩ := e
    by_cases hk : k = n
    · have : tabDel ((k, v) :: t) n = tabDel t n := by simp [tabDel, hk]
      rw [this, ih, tabFind_cons, if_neg (by omega)]
    · have : tabDel ((k, v) :: t) n = (k, v) :: tabDel t n := by simp [tabDel, hk]
      rw [this, tabFind_cons, tabFind_cons, ih]

theorem tabFind_tabIns_self {α : Type} (n : Nat) (v : α) {t : Tab α} (h : tabFind t n = none) :
    tabFind (tabIns n v t) n = some v := by
  induction t with
  | nil => simp [tabIns, tabFind_cons]
  | cons e t ih =>
    obtain ⟨k, w⟩ := e
    rw [tabFind_cons] at h
    by_cases hk : k = n
    · simp [hk] at h
    · rw [if_neg hk] at h
      unfold tabIns
      split
      · simp [tabFind_cons]
      · rw [tabFind_cons, if_neg hk, ih h]

theorem tabFind_tabIns_ne {α : Type} {n m : Nat} (v : α) (t : Tab α) (h : m ≠ n) :
    tabFind (tabIns n v t) m = tabFind t m := by
  induction t with
  | nil => simp [tabIns, tabFind_cons, h.symm]
  | cons e t ih =>
    obtain ⟨k, w⟩ := e
    unfold tabIns
    split
    · rw [tabFind_cons, if_neg h.symm]
    · rw [tabFind_cons, ih, tabFind_cons]

@[simp] theorem tabFind_tabPut_self {α : Type} (t : Tab α) (n : Nat) (v : α) : tabFind (tabPut t n v) n = some v :=
  tabFind_tabIns_self n v (tabFind_tabDel_self t n)

theorem tabFind_tabPut_ne {α : Type} (t : Tab α) {n m : Nat} (v : α) (h : m ≠ n) :
    tabFind (tabPut t n v) m = tabFind t m := by
  rw [tabPut, tabFind_tabIns_ne v _ h, tabFind_tabDel_ne t h]

@[simp] theorem tabGet_tabPut_self {α : Type} (d : α) (t : Tab α) (n : Nat) (v : α) : tabGet d (tabPut t n v) n = v := by
  simp [tabGet]

theorem tabGet_tabPut_ne {α : Type} (d : α) (t : Tab α) {n m : Nat} (v : α) (h : m ≠ n) :
    tabGet d (tabPut t n v) m = tabGet d t m := by
  simp [tabGet, tabFind_tabPut_ne t v h]

@[simp] theorem tabGet_tabSet_self {α : Type} [DecidableEq α] (d : α) (t : Tab α) (n : Nat) (v : α) :
    tabGet d (tabSet d t n v) n = v := by
  unfold tabSet
  split
  · next h => simp [tabGet, tabFind_tabDel_self, h]
  · simp

theorem tabGet_tabSet_ne {α : Type} [DecidableEq α] (d : α) (t : Tab α) {n m : Nat} (v : α) (h : m ≠ n) :
    tabGet d (tabSet d t n v) m = tabGet d t m := by
  unfold tabSet
  split
  · simp [tabGet, tabFind_tabDel_ne t h]
  · exact tabGet_tabPut_ne d t v h

theorem tabFind_tabSet_ne {α : Type} [DecidableEq α] (d : α) (t : Tab α) {n m : Nat} (v : α) (h : m ≠ n) :
    tabFind (tabSet d t n v) m = tabFind t m := by
  unfold tabSet
  split
  · exact tabFind_tabDel_ne t h
  · exact tabFind_tabPut_ne t v h

/-! ## The canonical form -/

theorem tabSorted_iff {α : Type} (t : Tab α) : tabSorted t = true ↔ t.Pairwise (fun a b => a.1 < b.1) := by
  induction t with
  | nil => simp [tabSorted]
  | cons e t ih =>
    obtain ⟨k, v⟩ := e
    cases t with
    | nil => simp [tabSorted]
    | cons f t =>
      obtain ⟨l, w⟩ := f
      rw [tabSorted, Bool.and_eq_true, ih, decide_eq_true_eq, List.pairwise_cons (a := (k, v))]
      constructor
      · rintro ⟨h, hp⟩
        refine ⟨fun x hx => ?_, hp⟩
        rcases List.mem_cons.mp hx with rfl | hx
        · exact h
        · exact Nat.lt_trans h ((List.pairwise_cons.mp hp).1 x hx)
      · rintro ⟨h, hp⟩
        exact ⟨h (l, w) (by simp), hp⟩

theorem tabSorted_tabDel {α : Type} {t : Tab α} (n : Nat) (h : tabSorted t = true) : tabSorted (tabDel t n) = true :=
  (tabSorted_iff _).mpr (((tabSorted_iff t).mp h).filter _)

theorem mem_tabIns {α : Type} {n : Nat} {v : α} {t : Tab α} {x : Nat × α} (h : x ∈ tabIns n v t) : x = (n, v) ∨ x ∈ t := by
  induction t with
  | nil => simpa [tabIns] using h
  | cons e t ih =>
    obtain ⟨k, w⟩ := e
    unfold tabIns at h
    split at h
    · simpa using h
    · rcases List.mem_cons.mp h with rfl | h
      · exact .inr (by simp)
      · rcases ih h with h | h
        · exact .inl h
        · exact .inr (List.mem_cons_of_mem _ h)

theorem tabSorted_tabIns {α : Type} {n : Nat} (v : α) {t : Tab α} (h : tabSorted t = true) (hn : ∀ x ∈ t, x.1 ≠ n) :
    tabSorted (tabIns n v t) = true := by
  rw [tabSorted_iff] at h ⊢
  induction t with
  | nil => simp [tabIns]
  | cons e t ih =>
    obtain ⟨k, w⟩ := e
    rw [List.pairwise_cons] at h
    unfold tabIns
    split
    · next hk =>
      refine List.pairwise_cons.mpr ⟨fun x hx => ?_, List.pairwise_cons.mpr h⟩
      rcases List.mem_cons.mp hx with rfl | hx
      · exact hk
      · exact Nat.lt_trans hk (h.1 x hx)
    · next hk =>
      refine List.pairwise_cons.mpr ⟨fun x hx => ?_, ih h.2 (fun x hx => hn x (by simp [hx]))⟩
      rcases mem_tabIns hx with rfl | hx
      · have := hn (k, w) (by simp)
        simp at this ⊢
        omega
      · exact h.1 x hx

theorem mem_tabDel {α : Type} {t : Tab α} {n : Nat} {x : Nat × α} (h : x ∈ tabDel t n) : x ∈ t ∧ x.1 ≠ n := by
  simpa [tabDel] using h

theorem tabSorted_tabPut {α : Type} {t : Tab α} (n : Nat) (v : α) (h : tabSorted t = true) :
    tabSorted (tabPut t n v) = true :=
  tabSorted_tabIns v (tabSorted_tabDel n h) (fun _ hx => (mem_tabDel hx).2)

theorem tabSorted_tabSet {α : Type} [DecidableEq α] (d : α) {t : Tab α} (n : Nat) (v : α) (h : tabSorted t = true) :
    tabSorted (tabSet d t n v) = true := by
  unfold tabSet
  split
  · exact tabSorted_tabDel n h
  · exact tabSorted_tabPut n v h

/-- A value found in a table is listed there. -/
theorem mem_of_tabFind {α : Type} {t : Tab α} {n : Nat} {v : α} (h : tabFind t n = some v) : (n, v) ∈ t := by
  induction t with
  | nil => cases h
  | cons x t ih =>
    rw [tabFind_cons] at h
    split at h
    · next hk =>
      cases h
      rw [← hk]
      exact List.mem_cons_self
    · exact List.mem_cons_of_mem _ (ih h)

/-- An entry of a table with one more is that one or was listed. -/
theorem mem_tabPut {α : Type} {t : Tab α} {n : Nat} {v : α} {x : Nat × α} (h : x ∈ tabPut t n v) : x = (n, v) ∨ x ∈ t :=
  (mem_tabIns h).imp id (fun hd => (mem_tabDel hd).1)

theorem tabSorted_filter {α : Type} (p : Nat × α → Bool) {t : Tab α} (h : tabSorted t = true) :
    tabSorted (t.filter p) = true :=
  (tabSorted_iff _).mpr (((tabSorted_iff t).mp h).filter _)

/-- Every entry of a table after a write is an old one, or the written one, which is not the default. -/
theorem mem_tabSet {α : Type} [DecidableEq α] {d : α} {t : Tab α} {n : Nat} {v : α} {x : Nat × α}
    (h : x ∈ tabSet d t n v) : x ∈ t ∨ (x = (n, v) ∧ v ≠ d) := by
  unfold tabSet at h
  split at h
  · exact .inl (mem_tabDel h).1
  · next hv =>
    rcases mem_tabIns h with h | h
    · exact .inr ⟨h, hv⟩
    · exact .inl (mem_tabDel h).1

/-! ## Memories -/

theorem Memory.wf_nil : Memory.wf [] = true := rfl

theorem Memory.wf_memSet {m : Mem} (a : Nat) (b : Byte) (h : Memory.wf m = true) : Memory.wf (memSet m a b) = true := by
  unfold Memory.wf at h ⊢
  rw [Bool.and_eq_true] at h ⊢
  refine ⟨tabSorted_tabSet 0 a b h.1, List.all_eq_true.mpr fun x hx => ?_⟩
  rcases mem_tabSet hx with hx | ⟨rfl, hv⟩
  · exact List.all_eq_true.mp h.2 x hx
  · simpa using hv

theorem Memory.wf_memPut {m : Mem} (a : Nat) (bs : List Byte) (h : Memory.wf m = true) :
    Memory.wf (memPut m a bs) = true := by
  induction bs generalizing m a with
  | nil => exact h
  | cons b bs ih => exact ih (a + 1) (Memory.wf_memSet a b h)

theorem Memory.wf_filter {m : Mem} (p : Host.Cell → Bool) (h : Memory.wf m = true) : Memory.wf (m.filter p) = true := by
  unfold Memory.wf at h ⊢
  rw [Bool.and_eq_true] at h ⊢
  refine ⟨tabSorted_filter p h.1, List.all_eq_true.mpr fun x hx => ?_⟩
  exact List.all_eq_true.mp h.2 x (List.mem_filter.mp hx).1

@[simp] theorem memGet_memSet_self (m : Mem) (a : Nat) (b : Byte) : memGet (memSet m a b) a = b := by
  simp [memGet, memSet]

theorem memGet_memSet_ne (m : Mem) {a c : Nat} (b : Byte) (h : c ≠ a) : memGet (memSet m a b) c = memGet m c :=
  tabGet_tabSet_ne 0 m b h

theorem memGet_memPut_out (m : Mem) (a : Nat) (bs : List Byte) (c : Nat) (h : c < a ∨ a + bs.length ≤ c) :
    memGet (memPut m a bs) c = memGet m c := by
  induction bs generalizing m a with
  | nil => rfl
  | cons b bs ih =>
    rw [List.length_cons] at h
    rw [memPut, ih _ _ (by omega), memGet_memSet_ne m b (by omega)]

theorem memGet_memPut_in (m : Mem) (a : Nat) (bs : List Byte) (i : Nat) (h : i < bs.length) :
    memGet (memPut m a bs) (a + i) = bs[i] := by
  induction bs generalizing m a i with
  | nil => simp at h
  | cons b bs ih =>
    cases i with
    | zero => rw [memPut, memGet_memPut_out _ _ _ _ (by omega)]; simp
    | succ i =>
      rw [memPut, show a + (i + 1) = a + 1 + i by omega, ih _ _ _ (by simpa using h)]
      rfl

/-! ## Bit fields -/

theorem bits_lt (v lsb wid : Nat) : bits v lsb wid < 2 ^ wid := Nat.mod_lt _ (Nat.two_pow_pos wid)

/-- A field read after it was written holds the low bits written. -/
@[simp] theorem bits_setBits_self (v lsb wid x : Nat) : bits (setBits v lsb wid x) lsb wid = x % 2 ^ wid := by
  unfold bits setBits
  have h1 : 0 < 2 ^ lsb := Nat.two_pow_pos lsb
  have h2 : v / 2 ^ (lsb + wid) * 2 ^ (lsb + wid) + x % 2 ^ wid * 2 ^ lsb + v % 2 ^ lsb =
      2 ^ lsb * (v / 2 ^ (lsb + wid) * 2 ^ wid + x % 2 ^ wid) + v % 2 ^ lsb := by
    rw [Nat.pow_add, Nat.mul_add, Nat.mul_left_comm, Nat.mul_comm (x % 2 ^ wid)]
  rw [h2, Nat.mul_add_div h1, Nat.div_eq_of_lt (Nat.mod_lt _ h1), Nat.add_zero, Nat.mul_comm, Nat.mul_add_mod, Nat.mod_mod]

/-- A field of a number cut to a width that holds it. -/
theorem bits_mod (v lsb wid n : Nat) (h : lsb + wid ≤ n) : bits (v % 2 ^ n) lsb wid = bits v lsb wid := by
  unfold bits
  obtain ⟨k, rfl⟩ : ∃ k, n = lsb + k := ⟨n - lsb, by omega⟩
  rw [Nat.pow_add, Nat.mod_mul_right_div_self, Nat.mod_mod_of_dvd _ (Nat.pow_dvd_pow 2 (by omega))]

/-- A field beside one that was written. -/
theorem bits_setBits_beside (v l1 w1 l2 w2 x : Nat) (h : l1 + w1 ≤ l2 ∨ l2 + w2 ≤ l1) :
    bits (setBits v l1 w1 x) l2 w2 = bits v l2 w2 := by
  have hlow : x % 2 ^ w1 * 2 ^ l1 + v % 2 ^ l1 < 2 ^ (l1 + w1) := by
    have h1 := Nat.mod_lt x (Nat.two_pow_pos w1)
    have h2 := Nat.mod_lt v (Nat.two_pow_pos l1)
    calc x % 2 ^ w1 * 2 ^ l1 + v % 2 ^ l1 < x % 2 ^ w1 * 2 ^ l1 + 2 ^ l1 := by omega
      _ = (x % 2 ^ w1 + 1) * 2 ^ l1 := by rw [Nat.succ_mul]
      _ ≤ 2 ^ w1 * 2 ^ l1 := Nat.mul_le_mul_right _ h1
      _ = 2 ^ (l1 + w1) := by rw [Nat.pow_add, Nat.mul_comm]
  unfold bits setBits
  rcases h with h | h
  · obtain ⟨k, rfl⟩ : ∃ k, l2 = l1 + w1 + k := ⟨l2 - (l1 + w1), by omega⟩
    rw [Nat.pow_add 2 (l1 + w1) k, ← Nat.div_div_eq_div_mul, ← Nat.div_div_eq_div_mul, Nat.add_assoc, Nat.mul_comm,
      Nat.mul_add_div (Nat.two_pow_pos _), Nat.div_eq_of_lt hlow, Nat.add_zero]
  · have hd : 2 ^ (l2 + w2) ∣ 2 ^ l1 := Nat.pow_dvd_pow 2 h
    have hd2 : 2 ^ (l2 + w2) ∣ 2 ^ (l1 + w1) := Nat.pow_dvd_pow 2 (by omega)
    have key : ∀ n, n / 2 ^ l2 % 2 ^ w2 = n % 2 ^ (l2 + w2) / 2 ^ l2 := by
      intro n
      rw [Nat.pow_add, Nat.mod_mul_right_div_self]
    rw [key, key]
    congr 1
    obtain ⟨a, ha⟩ := hd
    obtain ⟨b, hb⟩ := hd2
    have hsum : ∀ A X r : Nat, A * 2 ^ (l1 + w1) + X * 2 ^ l1 + r = r + 2 ^ (l2 + w2) * (b * A + a * X) := by
      intro A X r
      rw [hb, ha, Nat.mul_left_comm A, Nat.mul_left_comm X, Nat.mul_comm A b, Nat.mul_comm X a, Nat.mul_add]
      omega
    rw [hsum]
    rw [Nat.add_mul_mod_self_left, Nat.mod_mod_of_dvd _ ⟨a, ha⟩]

end Sys2Proof.Machine
end

