-- ==== Sys2Proof/Laws/Keeps.lean ====
section
/-! SUPPORT. The good form with a given queue, what keeps it, and the shared operations that change a field it
    speaks of. -/

namespace Sys2Proof.Machine

/-- The state is in good form and its queue is `q`. -/
structure State.Keeps (s : State) (q : List Instr) : Prop where
  inv : s.Inv
  queue : s.pending = q

namespace State

/-- A state that agrees on every field the good form speaks of keeps it. -/
theorem Keeps.lit (s : State) (q : List Instr) {x_latches : Tab Word} {x_rdata : Nat} {x_planeA : PlaneSt} {x_planeB :
    PlaneSt} {x_clk : Nat} {x_ticks : Nat} {x_pulses : List Nat} {x_resyncCopied : Bool} {x_resyncPos : Nat}
    {x_tblResult : Option Nat} {x_learnAt : Nat} {x_epoch : Nat} {x_era : Nat} {x_crit : List Nat} {x_flaps : List
    FlapEntry} {x_free : Nat} {x_ports : Tab PortSt} {x_drr : Tab Nat} {x_frac : Tab Nat} {x_if4Tokens : Nat}
    {x_canTokens : Tab Nat} {x_capSample : Tab Nat} {x_capRate : Nat × Nat} {x_canTwin : List (Nat × Nat × Nat)}
    {x_copyNo : Nat} {x_rxNo : Nat} {x_gens : Tab (List (Nat × Nat))} {x_recs : Tab RecSt} {x_slotsLost : List Nat}
    {x_beatNums : List Nat} {x_tbFrom : Nat} {x_redBusy : Option RedBusy} {x_car : Car} {x_ppsCap : Tab (List TbTime)}
    {x_ppsLast : Tab Nat} {x_ppsPulses : Tab Nat} {x_ppsStart : Tab Nat} {x_ppsEnd : Tab Nat} {x_cans : Tab CanSt}
    {x_lins : Tab LinSt} {x_tenants : Tab Tenant} {x_hostMsgs : List HostMsg} {x_cmdTurn : Nat} {x_hiWake : List Nat}
    {x_nm : Tab NmSt} {x_pwr : PwrSt} {x_blf : Blf} {x_ldgSeq : Nat} {x_ldgAt : Tab Nat} {x_cph : Cph} {x_cht : ChtSt}
    {x_fatal : List Plane} {x_clp : Clp} {x_tri : Tri} {x_wdg : Wdg} {x_stomps : List (Nat × Nat × Nat)} :
    (State.mk s.regs x_latches x_rdata x_planeA x_planeB s.dm x_clk s.tbs x_ticks x_pulses x_resyncCopied x_resyncPos
      x_tblResult x_learnAt s.active s.shadow x_epoch x_era s.eras s.lpddr s.ao s.errFifo x_crit x_flaps x_free
      x_ports x_drr x_frac x_if4Tokens x_canTokens s.capSram x_capSample x_capRate x_canTwin x_copyNo x_rxNo x_gens
      x_recs s.beats x_slotsLost x_beatNums x_tbFrom x_redBusy x_car s.txts x_ppsCap x_ppsLast x_ppsPulses x_ppsStart
      x_ppsEnd x_cans x_lins x_tenants x_hostMsgs x_cmdTurn x_hiWake s.mcMem s.host0 s.host1 x_nm s.wrec x_pwr x_blf
      s.ldgQ x_ldgSeq x_ldgAt x_cph x_cht x_fatal x_clp x_tri x_wdg x_stomps s.pending).Keeps q ↔ s.Keeps q :=
  ⟨fun h => ⟨⟨h.1.1, h.1.2, h.1.3, h.1.4, h.1.5, h.1.6, h.1.7, h.1.8, h.1.9, h.1.10, h.1.11, h.1.12, h.1.13, h.1.14,
      h.1.15, h.1.16, h.1.17, h.1.18⟩, h.2⟩,
    fun h => ⟨⟨h.1.1, h.1.2, h.1.3, h.1.4, h.1.5, h.1.6, h.1.7, h.1.8, h.1.9, h.1.10, h.1.11, h.1.12, h.1.13, h.1.14,
      h.1.15, h.1.16, h.1.17, h.1.18⟩, h.2⟩⟩

/-- The same with another record of Drum Major, as long as it holds as many contexts. -/
theorem Keeps.litDm (s : State) (q : List Instr) {d : DrumMajor} (hd : d.ctxs.length = s.dm.ctxs.length) {x_latches :
    Tab Word} {x_rdata : Nat} {x_planeA : PlaneSt} {x_planeB : PlaneSt} {x_clk : Nat} {x_ticks : Nat} {x_pulses : List
    Nat} {x_resyncCopied : Bool} {x_resyncPos : Nat} {x_tblResult : Option Nat} {x_learnAt : Nat} {x_epoch : Nat}
    {x_era : Nat} {x_crit : List Nat} {x_flaps : List FlapEntry} {x_free : Nat} {x_ports : Tab PortSt} {x_drr : Tab
    Nat} {x_frac : Tab Nat} {x_if4Tokens : Nat} {x_canTokens : Tab Nat} {x_capSample : Tab Nat} {x_capRate : Nat ×
    Nat} {x_canTwin : List (Nat × Nat × Nat)} {x_copyNo : Nat} {x_rxNo : Nat} {x_gens : Tab (List (Nat × Nat))}
    {x_recs : Tab RecSt} {x_slotsLost : List Nat} {x_beatNums : List Nat} {x_tbFrom : Nat} {x_redBusy : Option
    RedBusy} {x_car : Car} {x_ppsCap : Tab (List TbTime)} {x_ppsLast : Tab Nat} {x_ppsPulses : Tab Nat} {x_ppsStart :
    Tab Nat} {x_ppsEnd : Tab Nat} {x_cans : Tab CanSt} {x_lins : Tab LinSt} {x_tenants : Tab Tenant} {x_hostMsgs :
    List HostMsg} {x_cmdTurn : Nat} {x_hiWake : List Nat} {x_nm : Tab NmSt} {x_pwr : PwrSt} {x_blf : Blf} {x_ldgSeq :
    Nat} {x_ldgAt : Tab Nat} {x_cph : Cph} {x_cht : ChtSt} {x_fatal : List Plane} {x_clp : Clp} {x_tri : Tri} {x_wdg :
    Wdg} {x_stomps : List (Nat × Nat × Nat)} :
    (State.mk s.regs x_latches x_rdata x_planeA x_planeB d x_clk s.tbs x_ticks x_pulses x_resyncCopied x_resyncPos
      x_tblResult x_learnAt s.active s.shadow x_epoch x_era s.eras s.lpddr s.ao s.errFifo x_crit x_flaps x_free
      x_ports x_drr x_frac x_if4Tokens x_canTokens s.capSram x_capSample x_capRate x_canTwin x_copyNo x_rxNo x_gens
      x_recs s.beats x_slotsLost x_beatNums x_tbFrom x_redBusy x_car s.txts x_ppsCap x_ppsLast x_ppsPulses x_ppsStart
      x_ppsEnd x_cans x_lins x_tenants x_hostMsgs x_cmdTurn x_hiWake s.mcMem s.host0 s.host1 x_nm s.wrec x_pwr x_blf
      s.ldgQ x_ldgSeq x_ldgAt x_cph x_cht x_fatal x_clp x_tri x_wdg x_stomps s.pending).Keeps q ↔ s.Keeps q :=
  ⟨fun h => ⟨⟨h.1.1, h.1.2, h.1.3, h.1.4, h.1.5, h.1.6, h.1.7, h.1.8, h.1.9, h.1.10, h.1.11, h.1.12, h.1.13, hd ▸
      h.1.14, h.1.15, h.1.16, h.1.17, h.1.18⟩, h.2⟩,
    fun h => ⟨⟨h.1.1, h.1.2, h.1.3, h.1.4, h.1.5, h.1.6, h.1.7, h.1.8, h.1.9, h.1.10, h.1.11, h.1.12, h.1.13, hd.trans
      h.1.14, h.1.15, h.1.16, h.1.17, h.1.18⟩, h.2⟩⟩

/-- A list of steps that each keep the form keeps it. -/
theorem foldl_keeps {α : Type} {q : List Instr} {f : State → α → State} (hf : ∀ s a, s.Keeps q → (f s a).Keeps q)
    (l : List α) {s : State} (h : s.Keeps q) : (l.foldl f s).Keeps q := by
  induction l generalizing s with
  | nil => exact h
  | cons a l ih => exact ih (hf s a h)

/-- The same for a state carried beside something else. -/
theorem foldl_fst_keeps {α β : Type} {q : List Instr} {f : State × β → α → State × β}
    (hf : ∀ p a, p.1.Keeps q → (f p a).1.Keeps q) (l : List α) {p : State × β} (h : p.1.Keeps q) :
    (l.foldl f p).1.Keeps q := by
  induction l generalizing p with
  | nil => exact h
  | cons a l ih => exact ih (hf p a h)

theorem ite_keeps {q : List Instr} {c : Prop} [Decidable c] {a b : State} (ha : a.Keeps q) (hb : b.Keeps q) :
    (if c then a else b).Keeps q := by
  split
  · exact ha
  · exact hb

theorem ite_fst_keeps {α : Type} {q : List Instr} {c : Prop} [Decidable c] {a b : State × α} (ha : a.1.Keeps q)
    (hb : b.1.Keeps q) : (if c then a else b).1.Keeps q := by
  split
  · exact ha
  · exact hb

/-- A state got from an optional one, with another to fall back on. -/
theorem getD_keeps {q : List Instr} {o : Option State} {s : State} (ho : ∀ u, o = some u → u.Keeps q) (hs : s.Keeps q) :
    (o.getD s).Keeps q := by
  cases o with
  | none => exact hs
  | some u => exact ho u rfl

theorem setReg_keeps {q : List Instr} {s : State} (h : s.Keeps q) (a : Nat) (w : Word) : (s.setReg a w).Keeps q := by
  refine ⟨⟨?_, h.1.2, h.1.3, h.1.4, h.1.5, h.1.6, h.1.7, h.1.8, h.1.9, h.1.10, h.1.11, h.1.12, h.1.13, h.1.14, h.1.15,
    h.1.16, h.1.17, h.1.18⟩, h.2⟩
  have hr := h.1.1
  unfold regsWf at hr ⊢
  rw [Bool.and_eq_true] at hr ⊢
  refine ⟨tabSorted_tabSet _ a w hr.1, List.all_eq_true.mpr fun x hx => ?_⟩
  rcases mem_tabSet hx with hx | ⟨rfl, hv⟩
  · exact List.all_eq_true.mp hr.2 x hx
  · simpa using hv

theorem put_keeps {q : List Instr} {s : State} (h : s.Keeps q) (f : Fld) (v : Nat) : (s.put f v).Keeps q :=
  setReg_keeps h _ _

end State

theorem Memory.wf_backPut (r : Region) {m : Mem} (b e : Nat) (x : Slot) (h : Memory.wf m = true) :
    Memory.wf (backPut r m b e x) = true := by
  unfold backPut
  exact Memory.wf_memPut _ _ (Memory.wf_memPut _ _ (Memory.wf_memPut _ _ h))

/-- A memory folded over steps that each keep it canonical. -/
theorem Memory.wf_foldl {α : Type} {f : Mem → α → Mem} (hf : ∀ m a, Memory.wf m = true → Memory.wf (f m a) = true)
    (l : List α) {m : Mem} (h : Memory.wf m = true) : Memory.wf (l.foldl f m) = true := by
  induction l generalizing m with
  | nil => exact h
  | cons a l ih => exact ih (hf m a h)

theorem Memory.wf_backOp (r : Region) {m : Mem} (o : TblOp) (h : Memory.wf m = true) :
    Memory.wf (backOp r m o) = true := by
  unfold backOp
  repeat' first
    | assumption
    | apply Memory.wf_backPut
    | split

/-- Every time base the device reads is in good form. -/
theorem State.tb_ok {s : State} (h : s.Inv) (n : Nat) : (s.tb n).ok = true := by
  unfold State.tb
  cases hx : s.tbs[n]? with
  | none => rfl
  | some t => exact List.all_eq_true.mp h.tbs t (List.mem_of_getElem? hx)

/-- A time base in good form keeps the form of the state. -/
theorem State.setTb_keeps {q : List Instr} {s : State} (n : Nat) {t : TimeBase} (ht : t.ok = true) (h0 : s.Keeps q) :
    (State.setTb s n t).Keeps q := by
  refine ⟨{ h0.inv with tbCount := by simp [State.setTb, h0.inv.tbCount], tbs := ?_ }, h0.queue⟩
  refine List.all_eq_true.mpr fun x hx => ?_
  rcases List.mem_or_eq_of_mem_set hx with hx | rfl
  · exact List.all_eq_true.mp h0.inv.tbs x hx
  · exact ht

/-- Another chart with its context keeps the form, as long as its area is canonical. -/
theorem State.withEra_keeps {q : List Instr} {s : State} {x : Era} (hx : Memory.wf x.img = true) (h0 : s.Keeps q) :
    (s.withEra x).Keeps q := ⟨{ h0.inv with active := hx }, h0.queue⟩

/-- Every area kept in the table of eras is canonical. -/
theorem State.era_wf {s : State} (h : s.Inv) {n : Nat} {x : Era} (hx : tabFind s.eras n = some x) :
    Memory.wf x.img = true :=
  List.all_eq_true.mp h.eras _ (mem_of_tabFind hx)

end Sys2Proof.Machine
end

