-- ==== Sys2Proof/Laws/Keeps1.lean ====
section
/-! SUPPORT. What each operation of Operands, Flags, Ras, Tables, Lpm, Access, TenantOps, TableCommands, Crypto keeps:
    the good form, and the queue. -/

namespace Sys2Proof.Machine

/-! ## Operands -/

theorem State.setPlane_keeps {q : List Instr} {s : State} (pl : Plane) (p : PlaneSt) (h0 : s.Keeps q) :
    (State.setPlane s pl p).Keeps q := by
  unfold State.setPlane
  try dsimp only
  repeat' first
    | with_reducible assumption
    | simp only [State.Keeps.lit]
    | with_reducible apply State.ite_keeps
    | with_reducible apply State.ite_fst_keeps
    | split

theorem State.put64_keeps {q : List Instr} {s : State} (lo : Fld) (hi : Fld) (v : Nat) (h0 : s.Keeps q) :
    (State.put64 s lo hi v).Keeps q := by
  unfold State.put64
  try dsimp only
  repeat' first
    | with_reducible assumption
    | with_reducible apply State.put_keeps
    | with_reducible apply State.ite_keeps

theorem State.putBoth_keeps {q : List Instr} {s : State} (f : Plane → Fld) (v : Nat) (h0 : s.Keeps q) :
    (State.putBoth s f v).Keeps q := by
  unfold State.putBoth
  try dsimp only
  repeat' first
    | with_reducible assumption
    | with_reducible apply State.put_keeps
    | with_reducible apply State.ite_keeps

/-! ## Flags -/

theorem State.addCnt_keeps {q : List Instr} {s : State} (f : Fld) (n : Nat) (h0 : s.Keeps q) :
    (State.addCnt s f n).Keeps q := by
  unfold State.addCnt
  try dsimp only
  repeat' first
    | with_reducible assumption
    | with_reducible apply State.put_keeps
    | with_reducible apply State.ite_keeps

theorem State.inc_keeps {q : List Instr} {s : State} (f : Fld) (h0 : s.Keeps q) :
    (State.inc s f).Keeps q := by
  unfold State.inc
  try dsimp only
  repeat' first
    | with_reducible assumption
    | with_reducible apply State.addCnt_keeps
    | with_reducible apply State.ite_keeps

theorem State.setFlag_keeps {q : List Instr} {s : State} (f : Fld) (h0 : s.Keeps q) :
    (State.setFlag s f).Keeps q := by
  unfold State.setFlag
  try dsimp only
  repeat' first
    | with_reducible assumption
    | with_reducible apply State.put_keeps
    | with_reducible apply State.ite_keeps

theorem State.incSat_keeps {q : List Instr} {s : State} (f : Fld) (h0 : s.Keeps q) :
    (State.incSat s f).Keeps q := by
  unfold State.incSat
  try dsimp only
  repeat' first
    | with_reducible assumption
    | with_reducible apply State.put_keeps
    | with_reducible apply State.ite_keeps

theorem State.pulse_keeps {q : List Instr} {s : State} (src : Nat) (h0 : s.Keeps q) :
    (State.pulse s src).Keeps q := by
  unfold State.pulse
  try dsimp only
  repeat' first
    | with_reducible assumption
    | simp only [State.Keeps.lit]
    | with_reducible apply State.ite_keeps
    | with_reducible apply State.ite_fst_keeps
    | split

theorem State.takebackFromNow_keeps {q : List Instr} {s : State} (h0 : s.Keeps q) :
    (State.takebackFromNow s).Keeps q := by
  unfold State.takebackFromNow
  try dsimp only
  repeat' first
    | with_reducible assumption
    | simp only [State.Keeps.lit]
    | with_reducible apply State.ite_keeps
    | with_reducible apply State.ite_fst_keeps
    | split

theorem State.putDev_keeps {q : List Instr} {s : State} (f : Fld) (v : Nat) (h0 : s.Keeps q) :
    (State.putDev s f v).Keeps q := by
  unfold State.putDev
  try dsimp only
  repeat' first
    | with_reducible assumption
    | with_reducible apply State.pulse_keeps
    | with_reducible apply State.takebackFromNow_keeps
    | with_reducible apply State.put_keeps
    | with_reducible apply State.ite_keeps

theorem State.enter_keeps {q : List Instr} {s : State} (d : DevState) (h0 : s.Keeps q) :
    (State.enter s d).Keeps q := by
  unfold State.enter
  try dsimp only
  repeat' first
    | with_reducible assumption
    | with_reducible apply State.putDev_keeps
    | with_reducible apply State.ite_keeps

theorem State.setCond_keeps {q : List Instr} {s : State} (pl : Plane) (c : Cond) (h0 : s.Keeps q) :
    (State.setCond s pl c).Keeps q := by
  unfold State.setCond
  try dsimp only
  repeat' first
    | with_reducible assumption
    | with_reducible apply State.putDev_keeps
    | with_reducible apply State.ite_keeps

theorem State.addCnt64_keeps {q : List Instr} {s : State} (lo : Fld) (hi : Fld) (n : Nat) (h0 : s.Keeps q) :
    (State.addCnt64 s lo hi n).Keeps q := by
  unfold State.addCnt64
  try dsimp only
  repeat' first
    | with_reducible assumption
    | with_reducible apply State.put64_keeps
    | with_reducible apply State.ite_keeps

theorem State.clearFlag_keeps {q : List Instr} {s : State} (f : Fld) (h0 : s.Keeps q) :
    (State.clearFlag s f).Keeps q := by
  unfold State.clearFlag
  try dsimp only
  repeat' first
    | with_reducible assumption
    | with_reducible apply State.put_keeps
    | with_reducible apply State.ite_keeps

/-! ## Ras -/

theorem State.errCause_keeps {q : List Instr} {s : State} (b : Nat) (h0 : s.Keeps q) :
    (State.errCause s b).Keeps q := by
  unfold State.errCause
  try dsimp only
  repeat' first
    | with_reducible assumption
    | with_reducible apply State.put_keeps
    | with_reducible apply State.ite_keeps

theorem State.rasRecord_keeps {q : List Instr} {s : State} (cls : Nat) (sev : Nat) (unit : Nat) (plane : Nat) (detail :
    Nat)
    (h0 : s.Keeps q) : (State.rasRecord s cls sev unit plane detail).Keeps q := by
  unfold State.rasRecord
  split
  · exact State.setFlag_keeps _ (State.inc_keeps _ h0)
  · next hl =>
    have h1 : ({ s with errFifo := s.errFifo ++ [⟨cls, sev, unit, plane, detail, s.ao⟩] } : State).Keeps q :=
      ⟨{ h0.inv with errFifo := by simp; omega }, h0.queue⟩
    dsimp only
    repeat' first
      | with_reducible assumption
      | with_reducible apply State.setFlag_keeps
      | split

/-! ## Tables -/

theorem State.markHit_keeps {q : List Instr} {s : State} (pl : Plane) (ri : Nat) (b : Nat) (b_e : Nat) (age0 : Bool) (h0
    : s.Keeps q) :
    (State.markHit s pl ri b b_e age0).Keeps q := by
  unfold State.markHit
  try dsimp only
  repeat' first
    | with_reducible assumption
    | with_reducible apply State.setPlane_keeps
    | simp only [State.Keeps.lit]
    | with_reducible apply State.ite_keeps
    | with_reducible apply State.ite_fst_keeps
    | split

theorem State.parityFound_keeps {q : List Instr} {s : State} (pl : Plane) (table : Nat) (source : Nat) (addr : Nat)
    (both : Bool) (h0 : s.Keeps q) :
    (State.parityFound s pl table source addr both).Keeps q := by
  unfold State.parityFound
  try dsimp only
  repeat' first
    | with_reducible assumption
    | with_reducible apply State.setFlag_keeps
    | with_reducible apply State.rasRecord_keeps
    | with_reducible apply State.put_keeps
    | with_reducible apply State.inc_keeps
    | with_reducible apply State.ite_keeps

theorem State.reportBad_keeps {q : List Instr} {s : State} (pl : Plane) (l : List (Nat × Nat)) (h0 : s.Keeps q) :
    (State.reportBad s pl l).Keeps q := by
  unfold State.reportBad
  try dsimp only
  repeat' first
    | with_reducible assumption
    | intro _
    | with_reducible apply State.parityFound_keeps
    | with_reducible apply State.foldl_keeps
    | simp only [State.Keeps.lit]
    | simp only [State.Keeps.litDm, List.length_set]
    | with_reducible apply State.ite_keeps
    | with_reducible apply State.ite_fst_keeps
    | split

theorem State.lookup_keeps {q : List Instr} {s : State} (pl : Plane) (ri : Nat) (key : Nat) (quiet : Bool) (h0 : s.Keeps
    q) :
    (State.lookup s pl ri key quiet).1.Keeps q := by
  unfold State.lookup
  try dsimp only
  repeat' first
    | with_reducible assumption
    | with_reducible apply State.markHit_keeps
    | with_reducible apply State.inc_keeps
    | with_reducible apply State.reportBad_keeps
    | simp only [State.Keeps.lit]
    | with_reducible apply State.ite_keeps
    | with_reducible apply State.ite_fst_keeps
    | split

theorem State.lookup_keeps_eq {q : List Instr} {s : State} {pl : Plane} {ri : Nat} {key : Nat} {quiet : Bool} (h0 :
    s.Keeps q) {u : State} {w : Look}
    (e : State.lookup s pl ri key quiet = (u, w)) : u.Keeps q := by
  have hu : (State.lookup s pl ri key quiet).1.Keeps q := by apply State.lookup_keeps <;> assumption
  rw [e] at hu
  exact hu

theorem State.memErr_keeps {q : List Instr} {s : State} (cause : Nat) (addr : Nat) (h0 : s.Keeps q) :
    (State.memErr s cause addr).Keeps q := by
  unfold State.memErr
  try dsimp only
  repeat' first
    | with_reducible assumption
    | with_reducible apply State.setFlag_keeps
    | with_reducible apply State.put_keeps
    | with_reducible apply State.ite_keeps

theorem State.posApply_keeps {q : List Instr} {s : State} (pls : List Plane) (r : Region) (ri : Nat) (ops : List TblOp)
    (h0 : s.Keeps q) : (State.posApply s pls r ri ops).Keeps q := by
  unfold State.posApply
  dsimp only
  refine State.foldl_keeps (fun t pl ht => ?_) _ ?_
  · split
    · exact ht
    · exact State.setPlane_keeps _ _ ht
  · split
    · exact ⟨{ h0.inv with lpddr := Memory.wf_foldl (fun _ _ h => Memory.wf_backOp _ _ h) _ h0.inv.lpddr }, h0.queue⟩
    · exact h0

theorem State.mirrorWalk_keeps {q : List Instr} {s : State} (h0 : s.Keeps q) :
    (State.mirrorWalk s).Keeps q := by
  unfold State.mirrorWalk
  try dsimp only
  repeat' first
    | with_reducible assumption
    | with_reducible apply State.setPlane_keeps
    | simp only [State.Keeps.lit]
    | with_reducible apply State.ite_keeps
    | with_reducible apply State.ite_fst_keeps
    | split

theorem State.noPlace_keeps {q : List Instr} {s : State} (pl : Plane) (h0 : s.Keeps q) :
    (State.noPlace s pl).Keeps q := State.setFlag_keeps _ h0

theorem State.putKey1_keeps {q : List Instr} {s : State} (pl : Plane) (wide : Bool) (x : Slot) (h0 : s.Keeps q) :
    (State.putKey1 s pl wide x).1.Keeps q := by
  unfold State.putKey1
  try dsimp only
  repeat' first
    | with_reducible assumption
    | with_reducible apply State.noPlace_keeps
    | with_reducible apply State.posApply_keeps
    | simp only [State.Keeps.lit]
    | with_reducible apply State.ite_keeps
    | with_reducible apply State.ite_fst_keeps
    | split

theorem State.putKey1_keeps_eq {q : List Instr} {s : State} {pl : Plane} {wide : Bool} {x : Slot} (h0 : s.Keeps q) {u :
    State} {w : Bool}
    (e : State.putKey1 s pl wide x = (u, w)) : u.Keeps q := by
  have hu : (State.putKey1 s pl wide x).1.Keeps q := by apply State.putKey1_keeps <;> assumption
  rw [e] at hu
  exact hu

theorem State.keyApply_keeps {q : List Instr} {s : State} (pl : Plane) (wide : Bool) (a3 : KeyOp) (h0 : s.Keeps q) :
    (State.keyApply s pl wide a3).Keeps q := by
  unfold State.keyApply
  try dsimp only
  repeat' first
    | with_reducible assumption
    | with_reducible apply State.putKey1_keeps
    | with_reducible refine State.putKey1_keeps_eq ?_ ‹_›
    | with_reducible apply State.inc_keeps
    | with_reducible apply State.posApply_keeps
    | simp only [State.Keeps.lit]
    | with_reducible apply State.ite_keeps
    | with_reducible apply State.ite_fst_keeps
    | split

theorem State.tblApply_keeps {q : List Instr} {s : State} (ri : Nat) (ops : List TblOp) (h0 : s.Keeps q) :
    (State.tblApply s ri ops).Keeps q := by
  unfold State.tblApply
  try dsimp only
  repeat' first
    | with_reducible assumption
    | intro _
    | with_reducible apply State.keyApply_keeps
    | with_reducible apply State.mirrorWalk_keeps
    | with_reducible apply State.posApply_keeps
    | with_reducible apply State.foldl_keeps
    | simp only [State.Keeps.lit]
    | simp only [State.Keeps.litDm, List.length_set]
    | with_reducible apply State.ite_keeps
    | with_reducible apply State.ite_fst_keeps
    | split

theorem State.place_keeps {q : List Instr} {s : State} (ri : Nat) (key : Nat) (result : Nat) (status : Nat) (h0 :
    s.Keeps q) :
    (State.place s ri key result status).1.Keeps q := by
  unfold State.place
  try dsimp only
  repeat' first
    | with_reducible assumption
    | with_reducible apply State.tblApply_keeps
    | simp only [State.Keeps.lit]
    | with_reducible apply State.ite_keeps
    | with_reducible apply State.ite_fst_keeps
    | split

theorem State.place_keeps_eq {q : List Instr} {s : State} {ri : Nat} {key : Nat} {result : Nat} {status : Nat} (h0 :
    s.Keeps q) {u : State} {w : Option (Nat × Nat)}
    (e : State.place s ri key result status = (u, w)) : u.Keeps q := by
  have hu : (State.place s ri key result status).1.Keeps q := by apply State.place_keeps <;> assumption
  rw [e] at hu
  exact hu

theorem State.mapRegion_keeps {q : List Instr} {s : State} (ri : Nat) (f : Region → Region) (h0 : s.Keeps q) :
    (State.mapRegion s ri f).Keeps q := by
  unfold State.mapRegion
  try dsimp only
  repeat' first
    | with_reducible assumption
    | simp only [State.Keeps.lit]
    | with_reducible apply State.ite_keeps
    | with_reducible apply State.ite_fst_keeps
    | split

theorem State.evict_keeps {q : List Instr} {s : State} (pl : Plane) (ri : Nat) (f : Nat) (h0 : s.Keeps q) :
    (State.evict s pl ri f).Keeps q := by
  unfold State.evict
  dsimp only
  split
  · exact h0
  · split
    · exact h0
    · refine State.inc_keeps _ (State.setPlane_keeps _ _ ⟨{ h0.inv with lpddr := ?_ }, h0.queue⟩)
      refine Memory.wf_foldl (fun m i hm => Memory.wf_foldl (fun m e hm => ?_) _ hm) _ h0.inv.lpddr
      split
      · exact Memory.wf_backPut _ _ _ _ hm
      · exact hm

theorem State.takeFrame_keeps {q : List Instr} {s : State} (pl : Plane) (ri : Nat) (h0 : s.Keeps q) :
    (State.takeFrame s pl ri).1.Keeps q := by
  unfold State.takeFrame
  try dsimp only
  repeat' first
    | with_reducible assumption
    | with_reducible apply State.setPlane_keeps
    | with_reducible apply State.evict_keeps
    | simp only [State.Keeps.lit]
    | with_reducible apply State.ite_keeps
    | with_reducible apply State.ite_fst_keeps
    | split

theorem State.takeFrame_keeps_eq {q : List Instr} {s : State} {pl : Plane} {ri : Nat} (h0 : s.Keeps q) {u : State} {w :
    Option Nat}
    (e : State.takeFrame s pl ri = (u, w)) : u.Keeps q := by
  have hu : (State.takeFrame s pl ri).1.Keeps q := by apply State.takeFrame_keeps <;> assumption
  rw [e] at hu
  exact hu

theorem State.loadPage_keeps {q : List Instr} {s : State} (pl : Plane) (ri : Nat) (f : Nat) (pg : Nat) (h0 : s.Keeps q) :
    (State.loadPage s pl ri f pg).Keeps q := by
  unfold State.loadPage
  try dsimp only
  repeat' first
    | with_reducible assumption
    | intro _
    | with_reducible apply State.setPlane_keeps
    | with_reducible apply State.parityFound_keeps
    | with_reducible apply State.memErr_keeps
    | with_reducible apply State.inc_keeps
    | with_reducible apply State.foldl_keeps
    | simp only [State.Keeps.lit]
    | simp only [State.Keeps.litDm, List.length_set]
    | with_reducible apply State.ite_keeps
    | with_reducible apply State.ite_fst_keeps
    | split

theorem State.walkOn_keeps {q : List Instr} {s : State} (h0 : s.Keeps q) :
    (State.walkOn s).Keeps q := by
  unfold State.walkOn
  try dsimp only
  repeat' first
    | with_reducible assumption
    | with_reducible apply State.mirrorWalk_keeps
    | simp only [State.Keeps.lit]
    | with_reducible apply State.ite_keeps
    | with_reducible apply State.ite_fst_keeps
    | split

/-! ## Lpm -/

theorem State.lpmLookup_keeps {q : List Instr} {s : State} (pl : Plane) (vrf : Nat) (v6 : Bool) (a : Nat) (h0 : s.Keeps
    q) :
    (State.lpmLookup s pl vrf v6 a).1.Keeps q := by
  unfold State.lpmLookup
  try dsimp only
  repeat' first
    | with_reducible assumption
    | intro _
    | with_reducible apply State.parityFound_keeps
    | with_reducible apply State.addCnt_keeps
    | with_reducible apply State.foldl_keeps
    | simp only [State.Keeps.lit]
    | simp only [State.Keeps.litDm, List.length_set]
    | with_reducible apply State.ite_keeps
    | with_reducible apply State.ite_fst_keeps
    | split

theorem State.lpmLookup_keeps_eq {q : List Instr} {s : State} {pl : Plane} {vrf : Nat} {v6 : Bool} {a : Nat} (h0 :
    s.Keeps q) {u : State} {w : Option (Nat × Nat)}
    (e : State.lpmLookup s pl vrf v6 a = (u, w)) : u.Keeps q := by
  have hu : (State.lpmLookup s pl vrf v6 a).1.Keeps q := by apply State.lpmLookup_keeps <;> assumption
  rw [e] at hu
  exact hu

theorem State.lpmEach_keeps {q : List Instr} {s : State} (f : PlaneSt → Option PlaneSt) (h0 : s.Keeps q) :
    ∀ u, State.lpmEach s f = some u → u.Keeps q := by
  unfold State.lpmEach
  intro u hu
  repeat' split at hu
  all_goals first | cases hu | skip
  all_goals repeat' first
    | with_reducible assumption
    | with_reducible apply State.setPlane_keeps
    | with_reducible apply State.mirrorWalk_keeps
    | simp only [State.Keeps.lit]
    | with_reducible apply State.ite_keeps
    | with_reducible apply State.ite_fst_keeps
    | split

theorem State.lpmEach_keeps_eq {q : List Instr} {s : State} {f : PlaneSt → Option PlaneSt} (h0 : s.Keeps q) {u : State}
    (e : State.lpmEach s f = some u) : u.Keeps q := by
  revert u e
  apply State.lpmEach_keeps <;> assumption

theorem State.trieEpoch_keeps {q : List Instr} {s : State} (h0 : s.Keeps q) :
    (State.trieEpoch s).Keeps q := by
  unfold State.trieEpoch
  try dsimp only
  repeat' first
    | with_reducible assumption
    | simp only [State.Keeps.lit]
    | with_reducible apply State.ite_keeps
    | with_reducible apply State.ite_fst_keeps
    | split

/-! ## Access -/

theorem State.accessErr_keeps {q : List Instr} {s : State} (addr : Nat) (cause : Nat) (h0 : s.Keeps q) :
    (State.accessErr s addr cause).Keeps q := by
  unfold State.accessErr
  try dsimp only
  repeat' first
    | with_reducible assumption
    | with_reducible apply State.pulse_keeps
    | with_reducible apply State.put_keeps
    | with_reducible apply State.ite_keeps

theorem State.writeGate_keeps {q : List Instr} {s : State} (r : Requester) (addr : Nat) (size : Nat) (h0 : s.Keeps q) :
    ∀ u, State.writeGate s r addr size = some u → u.Keeps q := by
  unfold State.writeGate
  intro u hu
  repeat' split at hu
  all_goals first | cases hu | skip
  all_goals repeat' first
    | with_reducible assumption
    | with_reducible apply State.accessErr_keeps
    | with_reducible apply State.ite_keeps

theorem State.writeGate_keeps_eq {q : List Instr} {s : State} {r : Requester} {addr : Nat} {size : Nat} (h0 : s.Keeps q)
    {u : State}
    (e : State.writeGate s r addr size = some u) : u.Keeps q := by
  revert u e
  apply State.writeGate_keeps <;> assumption

theorem State.gated_keeps {q : List Instr} {s : State} (r : Requester) (addr : Nat) {act : State → State} (h0 : s.Keeps
    q) (h1 : ∀ (t : State), t.Keeps q → (act t ).Keeps q) :
    (State.gated s r addr act).Keeps q := by
  unfold State.gated
  try dsimp only
  repeat' first
    | with_reducible assumption
    | intro _
    | with_reducible apply h1
    | with_reducible refine State.writeGate_keeps_eq ?_ ‹_›
    | simp only [State.Keeps.lit]
    | with_reducible apply State.ite_keeps
    | with_reducible apply State.ite_fst_keeps
    | split

theorem State.mcOnly_keeps {q : List Instr} {s : State} (r : Requester) (addr : Nat) (res : Fld) (notOwner : Nat) {act :
    State → State} (h0 : s.Keeps q) (h1 : ∀ (t : State), t.Keeps q → (act t ).Keeps q) :
    (State.mcOnly s r addr res notOwner act).Keeps q := by
  unfold State.mcOnly
  try dsimp only
  repeat' first
    | with_reducible assumption
    | intro _
    | with_reducible apply h1
    | with_reducible apply State.gated_keeps
    | with_reducible apply State.accessErr_keeps
    | with_reducible apply State.put_keeps
    | with_reducible apply State.ite_keeps

/-! ## TenantOps -/

theorem State.tenPut_keeps {q : List Instr} {s : State} (tn : Nat) (t : TenState) (h0 : s.Keeps q) :
    (State.tenPut s tn t).Keeps q := by
  unfold State.tenPut
  try dsimp only
  repeat' first
    | with_reducible assumption
    | with_reducible apply State.put_keeps
    | with_reducible apply State.ite_keeps

theorem State.setTen_keeps {q : List Instr} {s : State} (tn : Nat) (t : Tenant) (h0 : s.Keeps q) :
    (State.setTen s tn t).Keeps q := by
  unfold State.setTen
  try dsimp only
  repeat' first
    | with_reducible assumption
    | simp only [State.Keeps.lit]
    | with_reducible apply State.ite_keeps
    | with_reducible apply State.ite_fst_keeps
    | split

theorem State.dmaWrite_keeps {q : List Instr} {s : State} (tn : Nat) (a : Nat) (bs : List Byte) (h0 : s.Keeps q) :
    (State.dmaWrite s tn a bs).Keeps q := by
  unfold State.dmaWrite
  split
  · exact ⟨{ h0.inv with host1 := Memory.wf_memPut _ _ h0.inv.host1 }, h0.queue⟩
  · exact ⟨{ h0.inv with host0 := Memory.wf_memPut _ _ h0.inv.host0 }, h0.queue⟩

/-! ## TableCommands -/

theorem State.autoPin_keeps {q : List Instr} {s : State} (ri : Nat) (b : Nat) (b_e : Nat) (result : Nat) (h0 : s.Keeps
    q) :
    (State.autoPin s ri b b_e result).Keeps q := by
  unfold State.autoPin
  try dsimp only
  repeat' first
    | with_reducible assumption
    | with_reducible apply State.setFlag_keeps
    | with_reducible apply State.tblApply_keeps
    | with_reducible apply State.inc_keeps
    | simp only [State.Keeps.lit]
    | with_reducible apply State.ite_keeps
    | with_reducible apply State.ite_fst_keeps
    | split

theorem State.tblCommand_keeps {q : List Instr} {s : State} (r : Requester) (tie : Bool) {act : State → State} (h0 :
    s.Keeps q) (h1 : ∀ (t : State), t.Keeps q → (act t ).Keeps q) :
    (State.tblCommand s r tie act).Keeps q := by
  unfold State.tblCommand
  try dsimp only
  repeat' first
    | with_reducible assumption
    | intro _
    | with_reducible apply h1
    | with_reducible apply State.gated_keeps
    | with_reducible apply State.put_keeps
    | with_reducible apply State.ite_keeps

theorem State.tblDone_keeps {q : List Instr} {s : State} (st : Nat) (h0 : s.Keeps q) :
    (State.tblDone s st).Keeps q := by
  unfold State.tblDone
  try dsimp only
  repeat' first
    | with_reducible assumption
    | with_reducible apply State.put_keeps
    | simp only [State.Keeps.lit]
    | with_reducible apply State.ite_keeps
    | with_reducible apply State.ite_fst_keeps
    | split

theorem State.putRes_keeps {q : List Instr} {s : State} (v : Nat) (h0 : s.Keeps q) :
    (State.putRes s v).Keeps q := by
  unfold State.putRes
  try dsimp only
  repeat' first
    | with_reducible assumption
    | with_reducible apply State.put64_keeps
    | with_reducible apply State.ite_keeps

theorem State.putKey_keeps {q : List Instr} {s : State} (wide : Bool) (key : Nat) (h0 : s.Keeps q) :
    (State.putKey s wide key).Keeps q := by
  unfold State.putKey
  try dsimp only
  repeat' first
    | with_reducible assumption
    | intro _
    | with_reducible apply State.put_keeps
    | with_reducible apply State.foldl_keeps
    | simp only [State.Keeps.lit]
    | simp only [State.Keeps.litDm, List.length_set]
    | with_reducible apply State.ite_keeps
    | with_reducible apply State.ite_fst_keeps
    | split

theorem State.showPrefix_keeps {q : List Instr} {s : State} (x : Option Prefix) (h0 : s.Keeps q) :
    (State.showPrefix s x).Keeps q := by
  unfold State.showPrefix
  try dsimp only
  repeat' first
    | with_reducible assumption
    | with_reducible apply State.putKey_keeps
    | with_reducible apply State.put_keeps
    | with_reducible apply State.putRes_keeps
    | simp only [State.Keeps.lit]
    | with_reducible apply State.ite_keeps
    | with_reducible apply State.ite_fst_keeps
    | split

theorem State.doReadAt_keeps {q : List Instr} {s : State} (region : Nat) (pl : Plane) (h0 : s.Keeps q) :
    (State.doReadAt s region pl).Keeps q := by
  unfold State.doReadAt
  try dsimp only
  repeat' first
    | with_reducible assumption
    | with_reducible apply State.putKey_keeps
    | with_reducible apply State.put_keeps
    | with_reducible apply State.showPrefix_keeps
    | with_reducible apply State.tblDone_keeps
    | with_reducible apply State.putRes_keeps
    | simp only [State.Keeps.lit]
    | with_reducible apply State.ite_keeps
    | with_reducible apply State.ite_fst_keeps
    | split

theorem execTblReadAt_keeps {q : List Instr} (r : Requester) (tie : Bool) (region : Nat) (pl : Plane) {s : State} (h0 :
    s.Keeps q) :
    ∃ u, execTblReadAt r tie region pl s = .next u ∧ u.Keeps q := by
  refine ⟨_, rfl, ?_⟩
  try dsimp only
  repeat' first
    | with_reducible assumption
    | intro _
    | with_reducible apply State.tblCommand_keeps
    | with_reducible apply State.doReadAt_keeps
    | with_reducible apply State.foldl_keeps
    | simp only [State.Keeps.lit]
    | simp only [State.Keeps.litDm, List.length_set]
    | with_reducible apply State.ite_keeps
    | with_reducible apply State.ite_fst_keeps
    | split

theorem State.doWriteAt_keeps {q : List Instr} {s : State} (region : Nat) (h0 : s.Keeps q) :
    (State.doWriteAt s region).Keeps q := by
  unfold State.doWriteAt
  try dsimp only
  repeat' first
    | with_reducible assumption
    | with_reducible apply State.setPlane_keeps
    | with_reducible apply State.autoPin_keeps
    | with_reducible apply State.setFlag_keeps
    | with_reducible apply State.tblApply_keeps
    | with_reducible apply State.mirrorWalk_keeps
    | with_reducible apply State.tblDone_keeps
    | simp only [State.Keeps.lit]
    | with_reducible apply State.ite_keeps
    | with_reducible apply State.ite_fst_keeps
    | split

theorem State.doUnlock_keeps {q : List Instr} {s : State} (wide : Bool) (h0 : s.Keeps q) :
    (State.doUnlock s wide).Keeps q := by
  unfold State.doUnlock
  try dsimp only
  repeat' first
    | with_reducible assumption
    | with_reducible apply State.tblApply_keeps
    | with_reducible apply State.tblDone_keeps
    | simp only [State.Keeps.lit]
    | with_reducible apply State.ite_keeps
    | with_reducible apply State.ite_fst_keeps
    | split

theorem execTblUnlock_keeps {q : List Instr} (r : Requester) (tie : Bool) (wide : Bool) {s : State} (h0 : s.Keeps q) :
    ∃ u, execTblUnlock r tie wide s = .next u ∧ u.Keeps q := by
  refine ⟨_, rfl, ?_⟩
  try dsimp only
  repeat' first
    | with_reducible assumption
    | intro _
    | with_reducible apply State.tblCommand_keeps
    | with_reducible apply State.doUnlock_keeps
    | with_reducible apply State.foldl_keeps
    | simp only [State.Keeps.lit]
    | simp only [State.Keeps.litDm, List.length_set]
    | with_reducible apply State.ite_keeps
    | with_reducible apply State.ite_fst_keeps
    | split

theorem State.putLoc_keeps {q : List Instr} {s : State} (b : Nat) (b_e : Nat) (h0 : s.Keeps q) :
    (State.putLoc s b b_e).Keeps q := by
  unfold State.putLoc
  try dsimp only
  repeat' first
    | with_reducible assumption
    | with_reducible apply State.put_keeps
    | with_reducible apply State.ite_keeps

theorem State.noLoc_keeps {q : List Instr} {s : State} (h0 : s.Keeps q) :
    (State.noLoc s).Keeps q := by
  unfold State.noLoc
  try dsimp only
  repeat' first
    | with_reducible assumption
    | with_reducible apply State.put_keeps
    | with_reducible apply State.ite_keeps

theorem State.doLpmLookup_keeps {q : List Instr} {s : State} (h0 : s.Keeps q) :
    (State.doLpmLookup s).Keeps q := by
  unfold State.doLpmLookup
  try dsimp only
  repeat' first
    | with_reducible assumption
    | with_reducible apply State.noLoc_keeps
    | with_reducible apply State.lpmLookup_keeps
    | with_reducible refine State.lpmLookup_keeps_eq ?_ ‹_›
    | with_reducible apply State.tblDone_keeps
    | with_reducible apply State.putRes_keeps
    | with_reducible apply State.putLoc_keeps
    | simp only [State.Keeps.lit]
    | with_reducible apply State.ite_keeps
    | with_reducible apply State.ite_fst_keeps
    | split

theorem execTblLpmLookup_keeps {q : List Instr} (r : Requester) (tie : Bool) {s : State} (h0 : s.Keeps q) :
    ∃ u, execTblLpmLookup r tie s = .next u ∧ u.Keeps q := by
  refine ⟨_, rfl, ?_⟩
  try dsimp only
  repeat' first
    | with_reducible assumption
    | with_reducible apply State.tblCommand_keeps
    | with_reducible apply State.doLpmLookup_keeps
    | with_reducible apply State.ite_keeps

theorem State.leadFlush_keeps {q : List Instr} {s : State} (h0 : s.Keeps q) :
    (State.leadFlush s).Keeps q := by
  unfold State.leadFlush
  try dsimp only
  repeat' first
    | with_reducible assumption
    | with_reducible apply State.addCnt_keeps
    | simp only [State.Keeps.lit]
    | with_reducible apply State.ite_keeps
    | with_reducible apply State.ite_fst_keeps
    | split

theorem State.makeLead_keeps {q : List Instr} {s : State} (pl : Plane) (h0 : s.Keeps q) :
    (State.makeLead s pl).Keeps q := by
  unfold State.makeLead
  try dsimp only
  repeat' first
    | with_reducible assumption
    | with_reducible apply State.leadFlush_keeps
    | with_reducible apply State.put_keeps
    | with_reducible apply State.putDev_keeps
    | with_reducible apply State.ite_keeps

theorem State.tblInsertKey_keeps {q : List Instr} {s : State} (ri : Nat) (r : Region) (key : Nat) (result : Nat) (pin :
    Bool) (h0 : s.Keeps q) :
    (State.tblInsertKey s ri r key result pin).1.Keeps q := by
  unfold State.tblInsertKey
  try dsimp only
  repeat' first
    | with_reducible assumption
    | with_reducible apply State.autoPin_keeps
    | with_reducible apply State.setFlag_keeps
    | with_reducible apply State.tblApply_keeps
    | with_reducible apply State.place_keeps
    | with_reducible refine State.place_keeps_eq ?_ ‹_›
    | simp only [State.Keeps.lit]
    | with_reducible apply State.ite_keeps
    | with_reducible apply State.ite_fst_keeps
    | split

theorem State.tblInsertKey_keeps_eq {q : List Instr} {s : State} {ri : Nat} {r : Region} {key : Nat} {result : Nat} {pin
    : Bool} (h0 : s.Keeps q) {u : State} {w : Nat × Option (Nat × Nat)}
    (e : State.tblInsertKey s ri r key result pin = (u, w)) : u.Keeps q := by
  have hu : (State.tblInsertKey s ri r key result pin).1.Keeps q := by apply State.tblInsertKey_keeps <;> assumption
  rw [e] at hu
  exact hu

theorem State.doInsert_keeps {q : List Instr} {s : State} (wide : Bool) (pin : Bool) (h0 : s.Keeps q) :
    (State.doInsert s wide pin).Keeps q := by
  unfold State.doInsert
  try dsimp only
  repeat' first
    | with_reducible assumption
    | with_reducible apply State.noLoc_keeps
    | with_reducible apply State.tblInsertKey_keeps
    | with_reducible refine State.tblInsertKey_keeps_eq ?_ ‹_›
    | with_reducible apply State.tblDone_keeps
    | with_reducible apply State.putLoc_keeps
    | simp only [State.Keeps.lit]
    | with_reducible apply State.ite_keeps
    | with_reducible apply State.ite_fst_keeps
    | split

theorem State.tblReplaceKey_keeps {q : List Instr} {s : State} (ri : Nat) (r : Region) (key : Nat) (result : Nat) (pin :
    Bool) (h0 : s.Keeps q) :
    (State.tblReplaceKey s ri r key result pin).1.Keeps q := by
  unfold State.tblReplaceKey
  try dsimp only
  repeat' first
    | with_reducible assumption
    | with_reducible apply State.autoPin_keeps
    | with_reducible apply State.setFlag_keeps
    | with_reducible apply State.tblApply_keeps
    | simp only [State.Keeps.lit]
    | with_reducible apply State.ite_keeps
    | with_reducible apply State.ite_fst_keeps
    | split

theorem State.tblReplaceKey_keeps_eq {q : List Instr} {s : State} {ri : Nat} {r : Region} {key : Nat} {result : Nat}
    {pin : Bool} (h0 : s.Keeps q) {u : State} {w : Nat}
    (e : State.tblReplaceKey s ri r key result pin = (u, w)) : u.Keeps q := by
  have hu : (State.tblReplaceKey s ri r key result pin).1.Keeps q := by apply State.tblReplaceKey_keeps <;> assumption
  rw [e] at hu
  exact hu

theorem State.doReplace_keeps {q : List Instr} {s : State} (wide : Bool) (pin : Bool) (h0 : s.Keeps q) :
    (State.doReplace s wide pin).Keeps q := by
  unfold State.doReplace
  try dsimp only
  repeat' first
    | with_reducible assumption
    | with_reducible apply State.tblDone_keeps
    | with_reducible apply State.tblReplaceKey_keeps
    | with_reducible refine State.tblReplaceKey_keeps_eq ?_ ‹_›
    | simp only [State.Keeps.lit]
    | with_reducible apply State.ite_keeps
    | with_reducible apply State.ite_fst_keeps
    | split

theorem State.tblDeleteKey_keeps {q : List Instr} {s : State} (ri : Nat) (r : Region) (key : Nat) (h0 : s.Keeps q) :
    (State.tblDeleteKey s ri r key).1.Keeps q := by
  unfold State.tblDeleteKey
  try dsimp only
  repeat' first
    | with_reducible assumption
    | with_reducible apply State.tblApply_keeps
    | simp only [State.Keeps.lit]
    | with_reducible apply State.ite_keeps
    | with_reducible apply State.ite_fst_keeps
    | split

theorem State.tblDeleteKey_keeps_eq {q : List Instr} {s : State} {ri : Nat} {r : Region} {key : Nat} (h0 : s.Keeps q) {u
    : State} {w : Nat}
    (e : State.tblDeleteKey s ri r key = (u, w)) : u.Keeps q := by
  have hu : (State.tblDeleteKey s ri r key).1.Keeps q := by apply State.tblDeleteKey_keeps <;> assumption
  rw [e] at hu
  exact hu

theorem State.doDelete_keeps {q : List Instr} {s : State} (wide : Bool) (h0 : s.Keeps q) :
    (State.doDelete s wide).Keeps q := by
  unfold State.doDelete
  try dsimp only
  repeat' first
    | with_reducible assumption
    | with_reducible apply State.tblDeleteKey_keeps
    | with_reducible refine State.tblDeleteKey_keeps_eq ?_ ‹_›
    | with_reducible apply State.tblDone_keeps
    | simp only [State.Keeps.lit]
    | with_reducible apply State.ite_keeps
    | with_reducible apply State.ite_fst_keeps
    | split

theorem State.doLookup_keeps {q : List Instr} {s : State} (wide : Bool) (pl : Plane) (h0 : s.Keeps q) :
    (State.doLookup s wide pl).Keeps q := by
  unfold State.doLookup
  try dsimp only
  repeat' first
    | with_reducible assumption
    | with_reducible apply State.noLoc_keeps
    | with_reducible apply State.tblDone_keeps
    | with_reducible apply State.putRes_keeps
    | with_reducible apply State.putLoc_keeps
    | simp only [State.Keeps.lit]
    | with_reducible apply State.ite_keeps
    | with_reducible apply State.ite_fst_keeps
    | split

theorem State.mapLpm_keeps {q : List Instr} {s : State} (f : PlaneSt → PlaneSt) (h0 : s.Keeps q) :
    (State.mapLpm s f).Keeps q := by
  unfold State.mapLpm
  try dsimp only
  repeat' first
    | with_reducible assumption
    | simp only [State.Keeps.lit]
    | with_reducible apply State.ite_keeps
    | with_reducible apply State.ite_fst_keeps
    | split

theorem State.doRehash_keeps {q : List Instr} {s : State} (region : Nat) (h0 : s.Keeps q) :
    (State.doRehash s region).Keeps q := by
  unfold State.doRehash
  try dsimp only
  repeat' first
    | with_reducible assumption
    | with_reducible apply State.mapRegion_keeps
    | with_reducible apply State.tblDone_keeps
    | with_reducible apply State.mapLpm_keeps
    | simp only [State.Keeps.lit]
    | with_reducible apply State.ite_keeps
    | with_reducible apply State.ite_fst_keeps
    | split

theorem State.doResume_keeps {q : List Instr} {s : State} (region : Nat) (h0 : s.Keeps q) :
    (State.doResume s region).Keeps q := by
  unfold State.doResume
  try dsimp only
  repeat' first
    | with_reducible assumption
    | with_reducible apply State.mapRegion_keeps
    | with_reducible apply State.tblDone_keeps
    | with_reducible apply State.mapLpm_keeps
    | simp only [State.Keeps.lit]
    | with_reducible apply State.ite_keeps
    | with_reducible apply State.ite_fst_keeps
    | split

theorem State.doFlushLearned_keeps {q : List Instr} {s : State} (region : Nat) (h0 : s.Keeps q) :
    (State.doFlushLearned s region).Keeps q := by
  unfold State.doFlushLearned
  try dsimp only
  repeat' first
    | with_reducible assumption
    | with_reducible apply State.tblApply_keeps
    | with_reducible apply State.tblDone_keeps
    | simp only [State.Keeps.lit]
    | with_reducible apply State.ite_keeps
    | with_reducible apply State.ite_fst_keeps
    | split

theorem State.tblNeedRehash_keeps {q : List Instr} {s : State} (h0 : s.Keeps q) :
    (State.tblNeedRehash s).Keeps q := by
  unfold State.tblNeedRehash
  try dsimp only
  repeat' first
    | with_reducible assumption
    | with_reducible apply State.setFlag_keeps
    | with_reducible apply State.tblDone_keeps
    | with_reducible apply State.ite_keeps

theorem State.doLpmInsert_keeps {q : List Instr} {s : State} (pin : Bool) (h0 : s.Keeps q) :
    (State.doLpmInsert s pin).Keeps q := by
  unfold State.doLpmInsert
  try dsimp only
  repeat' first
    | with_reducible assumption
    | with_reducible refine State.lpmEach_keeps_eq ?_ ‹_›
    | with_reducible apply State.tblDone_keeps
    | with_reducible apply State.tblNeedRehash_keeps
    | simp only [State.Keeps.lit]
    | with_reducible apply State.ite_keeps
    | with_reducible apply State.ite_fst_keeps
    | split

theorem State.doLpmDelete_keeps {q : List Instr} {s : State} (h0 : s.Keeps q) :
    (State.doLpmDelete s).Keeps q := by
  unfold State.doLpmDelete
  try dsimp only
  repeat' first
    | with_reducible assumption
    | with_reducible refine State.lpmEach_keeps_eq ?_ ‹_›
    | with_reducible apply State.tblDone_keeps
    | simp only [State.Keeps.lit]
    | with_reducible apply State.ite_keeps
    | with_reducible apply State.ite_fst_keeps
    | split

theorem State.doBloomRebuild_keeps {q : List Instr} {s : State} (h0 : s.Keeps q) :
    (State.doBloomRebuild s).Keeps q := by
  unfold State.doBloomRebuild
  try dsimp only
  repeat' first
    | with_reducible assumption
    | with_reducible apply State.tblDone_keeps
    | with_reducible apply State.mapLpm_keeps
    | with_reducible apply State.ite_keeps

theorem execFragAge_keeps {q : List Instr} (pl : Plane) (i : Nat) {s : State} (h0 : s.Keeps q) :
    ∃ u, execFragAge pl i s = .next u ∧ u.Keeps q := by
  refine ⟨_, rfl, ?_⟩
  try dsimp only
  repeat' first
    | with_reducible assumption
    | with_reducible apply State.setPlane_keeps
    | with_reducible apply State.inc_keeps
    | with_reducible apply State.ite_keeps

theorem execTblInsert_keeps {q : List Instr} (r : Requester) (tie : Bool) (wide : Bool) (pin : Bool) {s : State} (h0 :
    s.Keeps q) :
    ∃ u, execTblInsert r tie wide pin s = .next u ∧ u.Keeps q := by
  refine ⟨_, rfl, ?_⟩
  try dsimp only
  repeat' first
    | with_reducible assumption
    | intro _
    | with_reducible apply State.doInsert_keeps
    | with_reducible apply State.tblCommand_keeps
    | with_reducible apply State.foldl_keeps
    | simp only [State.Keeps.lit]
    | simp only [State.Keeps.litDm, List.length_set]
    | with_reducible apply State.ite_keeps
    | with_reducible apply State.ite_fst_keeps
    | split

theorem execTblReplace_keeps {q : List Instr} (r : Requester) (tie : Bool) (wide : Bool) (pin : Bool) {s : State} (h0 :
    s.Keeps q) :
    ∃ u, execTblReplace r tie wide pin s = .next u ∧ u.Keeps q := by
  refine ⟨_, rfl, ?_⟩
  try dsimp only
  repeat' first
    | with_reducible assumption
    | intro _
    | with_reducible apply State.tblCommand_keeps
    | with_reducible apply State.doReplace_keeps
    | with_reducible apply State.foldl_keeps
    | simp only [State.Keeps.lit]
    | simp only [State.Keeps.litDm, List.length_set]
    | with_reducible apply State.ite_keeps
    | with_reducible apply State.ite_fst_keeps
    | split

theorem execTblDelete_keeps {q : List Instr} (r : Requester) (tie : Bool) (wide : Bool) {s : State} (h0 : s.Keeps q) :
    ∃ u, execTblDelete r tie wide s = .next u ∧ u.Keeps q := by
  refine ⟨_, rfl, ?_⟩
  try dsimp only
  repeat' first
    | with_reducible assumption
    | intro _
    | with_reducible apply State.tblCommand_keeps
    | with_reducible apply State.doDelete_keeps
    | with_reducible apply State.foldl_keeps
    | simp only [State.Keeps.lit]
    | simp only [State.Keeps.litDm, List.length_set]
    | with_reducible apply State.ite_keeps
    | with_reducible apply State.ite_fst_keeps
    | split

theorem execTblLookup_keeps {q : List Instr} (r : Requester) (tie : Bool) (wide : Bool) (pl : Plane) {s : State} (h0 :
    s.Keeps q) :
    ∃ u, execTblLookup r tie wide pl s = .next u ∧ u.Keeps q := by
  refine ⟨_, rfl, ?_⟩
  try dsimp only
  repeat' first
    | with_reducible assumption
    | intro _
    | with_reducible apply State.doLookup_keeps
    | with_reducible apply State.tblCommand_keeps
    | with_reducible apply State.foldl_keeps
    | simp only [State.Keeps.lit]
    | simp only [State.Keeps.litDm, List.length_set]
    | with_reducible apply State.ite_keeps
    | with_reducible apply State.ite_fst_keeps
    | split

theorem execTblWriteAt_keeps {q : List Instr} (r : Requester) (tie : Bool) (region : Nat) {s : State} (h0 : s.Keeps q) :
    ∃ u, execTblWriteAt r tie region s = .next u ∧ u.Keeps q := by
  refine ⟨_, rfl, ?_⟩
  try dsimp only
  repeat' first
    | with_reducible assumption
    | intro _
    | with_reducible apply State.doWriteAt_keeps
    | with_reducible apply State.tblCommand_keeps
    | with_reducible apply State.foldl_keeps
    | simp only [State.Keeps.lit]
    | simp only [State.Keeps.litDm, List.length_set]
    | with_reducible apply State.ite_keeps
    | with_reducible apply State.ite_fst_keeps
    | split

theorem execTblRehash_keeps {q : List Instr} (r : Requester) (tie : Bool) (region : Nat) {s : State} (h0 : s.Keeps q) :
    ∃ u, execTblRehash r tie region s = .next u ∧ u.Keeps q := by
  refine ⟨_, rfl, ?_⟩
  try dsimp only
  repeat' first
    | with_reducible assumption
    | intro _
    | with_reducible apply State.tblCommand_keeps
    | with_reducible apply State.doRehash_keeps
    | with_reducible apply State.foldl_keeps
    | simp only [State.Keeps.lit]
    | simp only [State.Keeps.litDm, List.length_set]
    | with_reducible apply State.ite_keeps
    | with_reducible apply State.ite_fst_keeps
    | split

theorem execTblResume_keeps {q : List Instr} (r : Requester) (tie : Bool) (region : Nat) {s : State} (h0 : s.Keeps q) :
    ∃ u, execTblResume r tie region s = .next u ∧ u.Keeps q := by
  refine ⟨_, rfl, ?_⟩
  try dsimp only
  repeat' first
    | with_reducible assumption
    | intro _
    | with_reducible apply State.tblCommand_keeps
    | with_reducible apply State.doResume_keeps
    | with_reducible apply State.foldl_keeps
    | simp only [State.Keeps.lit]
    | simp only [State.Keeps.litDm, List.length_set]
    | with_reducible apply State.ite_keeps
    | with_reducible apply State.ite_fst_keeps
    | split

theorem execTblFlushLearned_keeps {q : List Instr} (r : Requester) (tie : Bool) (region : Nat) {s : State} (h0 : s.Keeps
    q) :
    ∃ u, execTblFlushLearned r tie region s = .next u ∧ u.Keeps q := by
  refine ⟨_, rfl, ?_⟩
  try dsimp only
  repeat' first
    | with_reducible assumption
    | intro _
    | with_reducible apply State.tblCommand_keeps
    | with_reducible apply State.doFlushLearned_keeps
    | with_reducible apply State.foldl_keeps
    | simp only [State.Keeps.lit]
    | simp only [State.Keeps.litDm, List.length_set]
    | with_reducible apply State.ite_keeps
    | with_reducible apply State.ite_fst_keeps
    | split

theorem execTblLpmInsert_keeps {q : List Instr} (r : Requester) (tie : Bool) (pin : Bool) {s : State} (h0 : s.Keeps q) :
    ∃ u, execTblLpmInsert r tie pin s = .next u ∧ u.Keeps q := by
  refine ⟨_, rfl, ?_⟩
  try dsimp only
  repeat' first
    | with_reducible assumption
    | intro _
    | with_reducible apply State.doLpmInsert_keeps
    | with_reducible apply State.tblCommand_keeps
    | with_reducible apply State.foldl_keeps
    | simp only [State.Keeps.lit]
    | simp only [State.Keeps.litDm, List.length_set]
    | with_reducible apply State.ite_keeps
    | with_reducible apply State.ite_fst_keeps
    | split

theorem execTblLpmDelete_keeps {q : List Instr} (r : Requester) (tie : Bool) {s : State} (h0 : s.Keeps q) :
    ∃ u, execTblLpmDelete r tie s = .next u ∧ u.Keeps q := by
  refine ⟨_, rfl, ?_⟩
  try dsimp only
  repeat' first
    | with_reducible assumption
    | with_reducible apply State.tblCommand_keeps
    | with_reducible apply State.doLpmDelete_keeps
    | with_reducible apply State.ite_keeps

theorem execTblBloomRebuild_keeps {q : List Instr} (r : Requester) (tie : Bool) {s : State} (h0 : s.Keeps q) :
    ∃ u, execTblBloomRebuild r tie s = .next u ∧ u.Keeps q := by
  refine ⟨_, rfl, ?_⟩
  try dsimp only
  repeat' first
    | with_reducible assumption
    | with_reducible apply State.tblCommand_keeps
    | with_reducible apply State.doBloomRebuild_keeps
    | with_reducible apply State.ite_keeps

theorem State.walkEntry_keeps {q : List Instr} {s : State} (ri : Nat) (b : Nat) (b_e : Nat) (h0 : s.Keeps q) :
    (State.walkEntry s ri b b_e).1.Keeps q := by
  unfold State.walkEntry
  try dsimp only
  repeat' first
    | with_reducible assumption
    | with_reducible apply State.tblApply_keeps
    | simp only [State.Keeps.lit]
    | with_reducible apply State.ite_keeps
    | with_reducible apply State.ite_fst_keeps
    | split

theorem State.walkFromBucket_keeps {q : List Instr} {s : State} (ri : Nat) (n : Nat) (b : Nat) (h0 : s.Keeps q) :
    (State.walkFromBucket s ri n b).1.Keeps q := by
  induction n generalizing s b with
  | zero => exact h0
  | succ n ih =>
    unfold State.walkFromBucket
    split
    · exact h0
    · next r _ =>
      have h1 : ((List.range r.k).foldl (fun acc e => if acc.2 then acc.1.walkEntry ri b e else acc) (s, true)).1.Keeps
          q := by
        refine State.foldl_fst_keeps (fun p e hp => ?_) _ h0
        split
        · exact State.walkEntry_keeps _ _ _ hp
        · exact hp
      dsimp only
      split
      · exact ih _ h1
      · exact h1

theorem State.walkFromBucket_keeps_eq {q : List Instr} {s : State} {ri : Nat} {a2 : Nat} {a3 : Nat} (h0 : s.Keeps q) {u
    : State} {w : Option Nat}
    (e : State.walkFromBucket s ri a2 a3 = (u, w)) : u.Keeps q := by
  have hu : (State.walkFromBucket s ri a2 a3).1.Keeps q := by apply State.walkFromBucket_keeps <;> assumption
  rw [e] at hu
  exact hu

theorem execRehashWalkEnd_keeps {q : List Instr} (region : Nat) {s : State} (h0 : s.Keeps q) :
    ∃ u, execRehashWalkEnd region s = .next u ∧ u.Keeps q := by
  refine ⟨_, rfl, ?_⟩
  try dsimp only
  repeat' first
    | with_reducible assumption
    | with_reducible apply State.setFlag_keeps
    | with_reducible apply State.mapRegion_keeps
    | with_reducible apply State.walkFromBucket_keeps
    | with_reducible refine State.walkFromBucket_keeps_eq ?_ ‹_›
    | with_reducible apply State.mapLpm_keeps
    | simp only [State.Keeps.lit]
    | with_reducible apply State.ite_keeps
    | with_reducible apply State.ite_fst_keeps
    | split

theorem State.nextLearn_keeps {q : List Instr} {s : State} (h0 : s.Keeps q) : ∀ u, State.nextLearn s = some u →
    u.2.Keeps q := by
  intro u hu
  unfold State.nextLearn at hu
  dsimp only at hu
  split at hu
  · cases hu
  · split at hu
    · cases hu
    · next pl e _ _ =>
      have h1 := State.setPlane_keeps pl { s.plane pl with learnQ := (s.plane pl).learnQ.erase e } h0
      rw [← Option.some.inj hu]
      exact ⟨{ h1.inv with }, h1.queue⟩

theorem State.nextLearn_keeps_eq {q : List Instr} {s : State} (h0 : s.Keeps q) {u : State} {w : LearnEvent}
    (e : State.nextLearn s = some (w, u)) : u.Keeps q := by
  have hu : ∀ x, State.nextLearn s = some x → x.2.Keeps q := by apply State.nextLearn_keeps <;> assumption
  exact hu _ e

theorem State.learnMove_keeps {q : List Instr} {s : State} (ri : Nat) (b : Nat) (b_e : Nat) (x : Slot) (ev : LearnEvent)
    (h0 : s.Keeps q) :
    (State.learnMove s ri b b_e x ev).Keeps q := by
  unfold State.learnMove
  try dsimp only
  repeat' first
    | with_reducible assumption
    | with_reducible apply State.setFlag_keeps
    | with_reducible apply State.tblApply_keeps
    | with_reducible apply State.putKey_keeps
    | with_reducible apply State.inc_keeps
    | simp only [State.Keeps.lit]
    | with_reducible apply State.ite_keeps
    | with_reducible apply State.ite_fst_keeps
    | split

theorem execLearnEventApply_keeps {q : List Instr} {s : State} (h0 : s.Keeps q) :
    ∃ u, execLearnEventApply s = .next u ∧ u.Keeps q := by
  refine ⟨_, rfl, ?_⟩
  try dsimp only
  repeat' first
    | with_reducible assumption
    | with_reducible apply State.setFlag_keeps
    | with_reducible apply State.tblApply_keeps
    | with_reducible refine State.nextLearn_keeps_eq ?_ ‹_›
    | with_reducible apply State.place_keeps
    | with_reducible refine State.place_keeps_eq ?_ ‹_›
    | with_reducible apply State.inc_keeps
    | with_reducible apply State.learnMove_keeps
    | simp only [State.Keeps.lit]
    | with_reducible apply State.ite_keeps
    | with_reducible apply State.ite_fst_keeps
    | split

theorem State.ageUp_keeps {q : List Instr} {s : State} (ri : Nat) (b : Nat) (b_e : Nat) (h0 : s.Keeps q) :
    (State.ageUp s ri b b_e).Keeps q := by
  have hone : ∀ (t : State) (pl : Plane), t.Keeps q → ((match (t.plane pl).region ri with
      | some r =>
        match r.slotAt b b_e with
        | some n =>
          if t.takesWrites pl then t.setPlane pl { t.plane pl with
            exact := tabSet Slot.none (t.plane pl).exact n
              { tabGet Slot.none (t.plane pl).exact n with
                status := stOlder (tabGet Slot.none (t.plane pl).exact n).status } } else t
        | none => t
      | none => t) : State).Keeps q := by
    intro t pl ht
    repeat' first
      | exact ht
      | exact State.setPlane_keeps _ _ ht
      | split
  have h1 := hone _ .B (hone _ .A h0)
  unfold State.ageUp
  dsimp only
  split
  · split
    · exact ⟨{ h1.inv with lpddr := Memory.wf_backPut _ _ _ _ h1.inv.lpddr }, h1.queue⟩
    · exact h1
  · exact h1

theorem execAgeSweep_keeps {q : List Instr} {s : State} (h0 : s.Keeps q) :
    ∃ u, execAgeSweep s = .next u ∧ u.Keeps q := by
  refine ⟨_, rfl, ?_⟩
  try dsimp only
  repeat' first
    | with_reducible assumption
    | intro _
    | with_reducible apply State.tblApply_keeps
    | with_reducible apply State.inc_keeps
    | with_reducible apply State.ageUp_keeps
    | with_reducible apply State.foldl_keeps
    | simp only [State.Keeps.lit]
    | simp only [State.Keeps.litDm, List.length_set]
    | with_reducible apply State.ite_keeps
    | with_reducible apply State.ite_fst_keeps
    | split

theorem State.repairNoted_keeps {q : List Instr} {s : State} (pl : Plane) (table : Nat) (addr : Nat) (good : Bool) (h0 :
    s.Keeps q) :
    (State.repairNoted s pl table addr good).Keeps q := by
  unfold State.repairNoted
  try dsimp only
  repeat' first
    | with_reducible assumption
    | with_reducible apply State.setFlag_keeps
    | with_reducible apply State.put_keeps
    | with_reducible apply State.inc_keeps
    | with_reducible apply State.ite_keeps

theorem State.repairUnit_keeps {q : List Instr} {s : State} (pl : Plane) (b_u : Nat) (h0 : s.Keeps q) :
    (State.repairUnit s pl b_u).Keeps q := by
  unfold State.repairUnit
  try dsimp only
  repeat' first
    | with_reducible assumption
    | with_reducible apply State.setPlane_keeps
    | with_reducible apply State.ite_keeps

theorem State.repairItem_keeps {q : List Instr} {s : State} (pl : Plane) (table : Nat) (n : Nat) (x : Slot) (h0 :
    s.Keeps q) :
    (State.repairItem s pl table n x).Keeps q := by
  unfold State.repairItem
  try dsimp only
  repeat' first
    | with_reducible assumption
    | with_reducible apply State.setPlane_keeps
    | with_reducible apply State.ite_keeps

theorem execParityRepair_keeps {q : List Instr} (pl : Plane) (table : Nat) (addr : Nat) {s : State} (h0 : s.Keeps q) :
    ∃ u, execParityRepair pl table addr s = .next u ∧ u.Keeps q := by
  refine ⟨_, rfl, ?_⟩
  try dsimp only
  repeat' first
    | with_reducible assumption
    | with_reducible apply State.repairUnit_keeps
    | with_reducible apply State.repairNoted_keeps
    | with_reducible apply State.repairItem_keeps
    | simp only [State.Keeps.lit]
    | with_reducible apply State.ite_keeps
    | with_reducible apply State.ite_fst_keeps
    | split

theorem execScrubRead_keeps {q : List Instr} (pl : Plane) {s : State} (h0 : s.Keeps q) :
    ∃ u, execScrubRead pl s = .next u ∧ u.Keeps q := by
  refine ⟨_, rfl, ?_⟩
  try dsimp only
  repeat' first
    | with_reducible assumption
    | with_reducible apply State.setPlane_keeps
    | with_reducible apply State.parityFound_keeps
    | with_reducible apply State.ite_keeps

theorem State.tblComplete_keeps {q : List Instr} {s : State} (h0 : s.Keeps q) :
    (State.tblComplete s).Keeps q := by
  unfold State.tblComplete
  try dsimp only
  repeat' first
    | with_reducible assumption
    | with_reducible apply State.setFlag_keeps
    | with_reducible apply State.put_keeps
    | simp only [State.Keeps.lit]
    | with_reducible apply State.ite_keeps
    | with_reducible apply State.ite_fst_keeps
    | split

/-! ## Crypto -/

theorem State.fresh_keeps {q : List Instr} {s : State} (h0 : s.Keeps q) :
    (State.fresh s).1.Keeps q := by
  unfold State.fresh
  try dsimp only
  repeat' first
    | with_reducible assumption
    | simp only [State.Keeps.lit]
    | with_reducible apply State.ite_keeps
    | with_reducible apply State.ite_fst_keeps
    | split

theorem State.fresh_keeps_eq {q : List Instr} {s : State} (h0 : s.Keeps q) {u : State} {w : Nat}
    (e : State.fresh s = (u, w)) : u.Keeps q := by
  have hu : (State.fresh s).1.Keeps q := by apply State.fresh_keeps <;> assumption
  rw [e] at hu
  exact hu

theorem State.random_keeps {q : List Instr} {s : State} (n : Nat) (h0 : s.Keeps q) : (State.random s n).1.Keeps q := by
  induction n generalizing s with
  | zero => exact h0
  | succ n ih => exact ih (State.fresh_keeps h0)

theorem State.random_keeps_eq {q : List Instr} {s : State} {a1 : Nat} (h0 : s.Keeps q) {u : State} {w : List Byte}
    (e : State.random s a1 = (u, w)) : u.Keeps q := by
  have hu : (State.random s a1).1.Keeps q := by apply State.random_keeps <;> assumption
  rw [e] at hu
  exact hu

theorem State.windowClear_keeps {q : List Instr} {s : State} (a : Nat) (h0 : s.Keeps q) :
    (State.windowClear s a).Keeps q := by
  unfold State.windowClear
  try dsimp only
  repeat' first
    | with_reducible assumption
    | intro _
    | with_reducible apply State.setReg_keeps
    | with_reducible apply State.foldl_keeps
    | simp only [State.Keeps.lit]
    | simp only [State.Keeps.litDm, List.length_set]
    | with_reducible apply State.ite_keeps
    | with_reducible apply State.ite_fst_keeps
    | split

theorem State.windowPut_keeps {q : List Instr} {s : State} (a : Nat) (a2 : Nat) (a3 : List Byte) (h0 : s.Keeps q) :
    (State.windowPut s a a2 a3).Keeps q := by
  fun_induction State.windowPut s a a2 a3
  all_goals try dsimp only
  all_goals repeat' first
    | with_reducible assumption
    | with_reducible apply State.put_keeps
    | with_reducible apply_assumption
    | with_reducible apply State.ite_keeps

end Sys2Proof.Machine
end

