-- ==== Sys2Proof/Laws/Keeps2.lean ====
section
/-! SUPPORT. What each operation of Belfry, Pools, Queues keeps: the good form, and the queue. -/

namespace Sys2Proof.Machine

/-! ## Belfry -/

theorem State.setSlot_keeps {q : List Instr} {s : State} (n : Nat) (x : SlotSt) (h0 : s.Keeps q) :
    (State.setSlot s n x).Keeps q := by
  unfold State.setSlot
  try dsimp only
  repeat' first
    | with_reducible assumption
    | simp only [State.Keeps.lit]
    | with_reducible apply State.ite_keeps
    | with_reducible apply State.ite_fst_keeps
    | split

theorem State.blfCert_keeps {q : List Instr} {s : State} (h0 : s.Keeps q) :
    (State.blfCert s).1.Keeps q := by
  unfold State.blfCert
  try dsimp only
  repeat' first
    | with_reducible assumption
    | with_reducible apply State.ite_keeps

theorem State.blfCert_keeps_eq {q : List Instr} {s : State} (h0 : s.Keeps q) {u : State} {w : Nat × List Byte}
    (e : State.blfCert s = (u, w)) : u.Keeps q := by
  have hu : (State.blfCert s).1.Keeps q := by apply State.blfCert_keeps <;> assumption
  rw [e] at hu
  exact hu

theorem State.noteOrphan_keeps {q : List Instr} {s : State} (who : Nat) (n : Nat) (h0 : s.Keeps q) :
    (State.noteOrphan s who n).Keeps q := by
  unfold State.noteOrphan
  try dsimp only
  repeat' first
    | with_reducible assumption
    | with_reducible apply State.inc_keeps
    | simp only [State.Keeps.lit]
    | with_reducible apply State.ite_keeps
    | with_reducible apply State.ite_fst_keeps
    | split

theorem State.slotEdge_keeps {q : List Instr} {s : State} (n : Nat) (killed : Bool) (h0 : s.Keeps q) :
    (State.slotEdge s n killed).Keeps q := by
  unfold State.slotEdge
  try dsimp only
  repeat' first
    | with_reducible assumption
    | simp only [State.Keeps.lit]
    | with_reducible apply State.ite_keeps
    | with_reducible apply State.ite_fst_keeps
    | split

theorem State.blfKill_keeps {q : List Instr} {s : State} (n : Nat) (h0 : s.Keeps q) :
    (State.blfKill s n).Keeps q := by
  unfold State.blfKill
  try dsimp only
  repeat' first
    | with_reducible assumption
    | with_reducible apply State.setFlag_keeps
    | with_reducible apply State.slotEdge_keeps
    | with_reducible apply State.setSlot_keeps
    | simp only [State.Keeps.lit]
    | with_reducible apply State.ite_keeps
    | with_reducible apply State.ite_fst_keeps
    | split

theorem State.blfEnd_keeps {q : List Instr} {s : State} (st : Nat) (out : List Byte) (h0 : s.Keeps q) :
    (State.blfEnd s st out).Keeps q := by
  unfold State.blfEnd
  try dsimp only
  repeat' first
    | with_reducible assumption
    | with_reducible apply State.setFlag_keeps
    | with_reducible apply State.windowClear_keeps
    | with_reducible apply State.put_keeps
    | with_reducible apply State.inc_keeps
    | with_reducible apply State.windowPut_keeps
    | with_reducible apply State.ite_keeps

theorem State.blfCommand_keeps {q : List Instr} {s : State} (r : Requester) (keep : Bool) {act : State → BlfRes}
    (h0 : s.Keeps q) (h1 : ∀ t : State, t.Keeps q → (act t).1.Keeps q) : (State.blfCommand s r keep act).Keeps q := by
  refine State.mcOnly_keeps _ _ _ _ h0 (fun t ht => ?_)
  split
  · exact State.put_keeps ht _ _
  · have h2 : (if keep then t else { t with blf := { t.blf with staged := none } } : State).Keeps q := by
      split
      · exact ht
      · simpa only [State.Keeps.lit] using ht
    exact State.blfEnd_keeps _ _ (h1 _ h2)

theorem State.blfFill_keeps {q : List Instr} {s : State} (b_q : BlfReq) (algOk : Nat → Bool)
    {make : State → Nat → Nat → State × Except Nat KeyHalf} (h0 : s.Keeps q)
    (h1 : ∀ (t : State) (y0 : Nat) (y1 : Nat), t.Keeps q → (make t y0 y1).1.Keeps q) :
    (State.blfFill s b_q algOk make).1.Keeps q := by
  have hp : ∀ (alg usage : Nat) (store : State → KeyHalf → State), (∀ t k, t.Keeps q → (store t k).Keeps q) →
      (if algOk alg = false ∨ bitOf usage 7 then (s, bsILLEGAL, ([] : List Byte))
      else
        match make s alg usage with
        | (s1, .error e) => (s1, e, [])
        | (s1, .ok k) => (store s1 k, bsOK, [])).1.Keeps q := by
    intro alg usage store hs
    have h2 := h1 s alg usage h0
    split
    · exact h0
    · split
      · next e =>
        rw [e] at h2
        exact h2
      · next e =>
        rw [e] at h2
        exact hs _ _ h2
  unfold State.blfFill
  dsimp only
  split
  · exact h0
  · split
    · split
      · exact h0
      · split
        · exact h0
        · exact hp _ _ _ (fun t k ht => State.setSlot_keeps _ _ ht)
    · split
      · exact h0
      · exact hp _ _ _ (fun t k ht => State.setSlot_keeps _ _ ht)

theorem State.blfFill_keeps_eq {q : List Instr} {s : State} {b_q : BlfReq} {algOk : Nat → Bool} {make : State → Nat →
    Nat → State × Except Nat KeyHalf} (h0 : s.Keeps q) (h1 : ∀ (t : State) (y0 : Nat) (y1 : Nat), t.Keeps q → (make t y0
    y1).1.Keeps q) {u : State} {w : Nat × List Byte}
    (e : State.blfFill s b_q algOk make = (u, w)) : u.Keeps q := by
  have hu : (State.blfFill s b_q algOk make).1.Keeps q := by apply State.blfFill_keeps <;> assumption
  rw [e] at hu
  exact hu

theorem State.blfGen_keeps {q : List Instr} {s : State} (b_q : BlfReq) (h0 : s.Keeps q) :
    (State.blfGen s b_q).1.Keeps q := by
  unfold State.blfGen
  try dsimp only
  repeat' first
    | with_reducible assumption
    | intro _
    | with_reducible apply State.random_keeps
    | with_reducible refine State.random_keeps_eq ?_ ‹_›
    | with_reducible apply State.blfFill_keeps
    | with_reducible refine State.blfFill_keeps_eq ?_ ?_ ‹_›
    | with_reducible apply State.foldl_keeps
    | simp only [State.Keeps.lit]
    | simp only [State.Keeps.litDm, List.length_set]
    | with_reducible apply State.ite_keeps
    | with_reducible apply State.ite_fst_keeps
    | split

theorem State.blfGen_keeps_eq {q : List Instr} {s : State} {b_q : BlfReq} (h0 : s.Keeps q) {u : State} {w : Nat × List
    Byte}
    (e : State.blfGen s b_q = (u, w)) : u.Keeps q := by
  have hu : (State.blfGen s b_q).1.Keeps q := by apply State.blfGen_keeps <;> assumption
  rw [e] at hu
  exact hu

theorem State.blfDer_keeps {q : List Instr} {s : State} (b_q : BlfReq) (h0 : s.Keeps q) :
    (State.blfDer s b_q).1.Keeps q := by
  unfold State.blfDer
  try dsimp only
  repeat' first
    | with_reducible assumption
    | intro _
    | with_reducible apply State.blfFill_keeps
    | with_reducible refine State.blfFill_keeps_eq ?_ ?_ ‹_›
    | with_reducible apply State.foldl_keeps
    | simp only [State.Keeps.lit]
    | simp only [State.Keeps.litDm, List.length_set]
    | with_reducible apply State.ite_keeps
    | with_reducible apply State.ite_fst_keeps
    | split

theorem State.blfDer_keeps_eq {q : List Instr} {s : State} {b_q : BlfReq} (h0 : s.Keeps q) {u : State} {w : Nat × List
    Byte}
    (e : State.blfDer s b_q = (u, w)) : u.Keeps q := by
  have hu : (State.blfDer s b_q).1.Keeps q := by apply State.blfDer_keeps <;> assumption
  rw [e] at hu
  exact hu

theorem State.blfImp_keeps {q : List Instr} {s : State} (b_q : BlfReq) (h0 : s.Keeps q) :
    (State.blfImp s b_q).1.Keeps q := by
  unfold State.blfImp
  try dsimp only
  repeat' first
    | with_reducible assumption
    | intro _
    | with_reducible apply State.blfFill_keeps
    | with_reducible refine State.blfFill_keeps_eq ?_ ?_ ‹_›
    | with_reducible apply State.foldl_keeps
    | simp only [State.Keeps.lit]
    | simp only [State.Keeps.litDm, List.length_set]
    | with_reducible apply State.ite_keeps
    | with_reducible apply State.ite_fst_keeps
    | split

theorem State.blfImp_keeps_eq {q : List Instr} {s : State} {b_q : BlfReq} (h0 : s.Keeps q) {u : State} {w : Nat × List
    Byte}
    (e : State.blfImp s b_q = (u, w)) : u.Keeps q := by
  have hu : (State.blfImp s b_q).1.Keeps q := by apply State.blfImp_keeps <;> assumption
  rw [e] at hu
  exact hu

theorem State.blfImpPub_keeps {q : List Instr} {s : State} (b_q : BlfReq) (h0 : s.Keeps q) :
    (State.blfImpPub s b_q).1.Keeps q := by
  unfold State.blfImpPub
  try dsimp only
  repeat' first
    | with_reducible assumption
    | intro _
    | with_reducible apply State.blfFill_keeps
    | with_reducible refine State.blfFill_keeps_eq ?_ ?_ ‹_›
    | with_reducible apply State.foldl_keeps
    | simp only [State.Keeps.lit]
    | simp only [State.Keeps.litDm, List.length_set]
    | with_reducible apply State.ite_keeps
    | with_reducible apply State.ite_fst_keeps
    | split

theorem State.blfImpPub_keeps_eq {q : List Instr} {s : State} {b_q : BlfReq} (h0 : s.Keeps q) {u : State} {w : Nat ×
    List Byte}
    (e : State.blfImpPub s b_q = (u, w)) : u.Keeps q := by
  have hu : (State.blfImpPub s b_q).1.Keeps q := by apply State.blfImpPub_keeps <;> assumption
  rw [e] at hu
  exact hu

theorem State.blfExp_keeps {q : List Instr} {s : State} (b_q : BlfReq) (h0 : s.Keeps q) :
    (State.blfExp s b_q).1.Keeps q := by
  unfold State.blfExp
  try dsimp only
  repeat' first
    | with_reducible assumption
    | simp only [State.Keeps.lit]
    | with_reducible apply State.ite_keeps
    | with_reducible apply State.ite_fst_keeps
    | split

theorem State.blfExp_keeps_eq {q : List Instr} {s : State} {b_q : BlfReq} (h0 : s.Keeps q) {u : State} {w : Nat × List
    Byte}
    (e : State.blfExp s b_q = (u, w)) : u.Keeps q := by
  have hu : (State.blfExp s b_q).1.Keeps q := by apply State.blfExp_keeps <;> assumption
  rw [e] at hu
  exact hu

theorem State.blfChk_keeps {q : List Instr} {s : State} (b_q : BlfReq) (h0 : s.Keeps q) :
    (State.blfChk s b_q).1.Keeps q := by
  unfold State.blfChk
  try dsimp only
  repeat' first
    | with_reducible assumption
    | with_reducible apply State.random_keeps
    | with_reducible refine State.random_keeps_eq ?_ ‹_›
    | with_reducible apply State.setSlot_keeps
    | simp only [State.Keeps.lit]
    | with_reducible apply State.ite_keeps
    | with_reducible apply State.ite_fst_keeps
    | split

theorem State.blfChk_keeps_eq {q : List Instr} {s : State} {b_q : BlfReq} (h0 : s.Keeps q) {u : State} {w : Nat × List
    Byte}
    (e : State.blfChk s b_q = (u, w)) : u.Keeps q := by
  have hu : (State.blfChk s b_q).1.Keeps q := by apply State.blfChk_keeps <;> assumption
  rw [e] at hu
  exact hu

theorem State.blfCom_keeps {q : List Instr} {s : State} (b_q : BlfReq) (h0 : s.Keeps q) :
    (State.blfCom s b_q).1.Keeps q := by
  unfold State.blfCom
  try dsimp only
  repeat' first
    | with_reducible assumption
    | with_reducible apply State.slotEdge_keeps
    | with_reducible apply State.setSlot_keeps
    | simp only [State.Keeps.lit]
    | with_reducible apply State.ite_keeps
    | with_reducible apply State.ite_fst_keeps
    | split

theorem State.blfCom_keeps_eq {q : List Instr} {s : State} {b_q : BlfReq} (h0 : s.Keeps q) {u : State} {w : Nat × List
    Byte}
    (e : State.blfCom s b_q = (u, w)) : u.Keeps q := by
  have hu : (State.blfCom s b_q).1.Keeps q := by apply State.blfCom_keeps <;> assumption
  rw [e] at hu
  exact hu

theorem State.blfDis_keeps {q : List Instr} {s : State} (b_q : BlfReq) (h0 : s.Keeps q) :
    (State.blfDis s b_q).1.Keeps q := by
  unfold State.blfDis
  try dsimp only
  repeat' first
    | with_reducible assumption
    | with_reducible apply State.setSlot_keeps
    | simp only [State.Keeps.lit]
    | with_reducible apply State.ite_keeps
    | with_reducible apply State.ite_fst_keeps
    | split

theorem State.blfDis_keeps_eq {q : List Instr} {s : State} {b_q : BlfReq} (h0 : s.Keeps q) {u : State} {w : Nat × List
    Byte}
    (e : State.blfDis s b_q = (u, w)) : u.Keeps q := by
  have hu : (State.blfDis s b_q).1.Keeps q := by apply State.blfDis_keeps <;> assumption
  rw [e] at hu
  exact hu

theorem State.blfInv_keeps {q : List Instr} {s : State} (r : Requester) (slot : Nat) (h0 : s.Keeps q) :
    (State.blfInv s r slot).Keeps q := by
  unfold State.blfInv
  try dsimp only
  repeat' first
    | with_reducible assumption
    | intro _
    | with_reducible apply State.blfKill_keeps
    | with_reducible apply State.mcOnly_keeps
    | with_reducible apply State.blfEnd_keeps
    | with_reducible apply State.put_keeps
    | with_reducible apply State.foldl_keeps
    | simp only [State.Keeps.lit]
    | simp only [State.Keeps.litDm, List.length_set]
    | with_reducible apply State.ite_keeps
    | with_reducible apply State.ite_fst_keeps
    | split

theorem State.attrRecord_keeps {q : List Instr} {s : State} (n : Nat) (h0 : s.Keeps q) :
    (State.attrRecord s n).1.Keeps q := by
  unfold State.attrRecord
  try dsimp only
  repeat' first
    | with_reducible assumption
    | with_reducible apply State.random_keeps
    | with_reducible refine State.random_keeps_eq ?_ ‹_›
    | simp only [State.Keeps.lit]
    | with_reducible apply State.ite_keeps
    | with_reducible apply State.ite_fst_keeps
    | split

theorem State.attrRecord_keeps_eq {q : List Instr} {s : State} {n : Nat} (h0 : s.Keeps q) {u : State} {w : List Byte}
    (e : State.attrRecord s n = (u, w)) : u.Keeps q := by
  have hu : (State.attrRecord s n).1.Keeps q := by apply State.attrRecord_keeps <;> assumption
  rw [e] at hu
  exact hu

theorem State.blfAttr_keeps {q : List Instr} {s : State} (b_q : BlfReq) (h0 : s.Keeps q) :
    (State.blfAttr s b_q).1.Keeps q := by
  unfold State.blfAttr
  try dsimp only
  repeat' first
    | with_reducible assumption
    | with_reducible apply State.attrRecord_keeps
    | with_reducible refine State.attrRecord_keeps_eq ?_ ‹_›
    | simp only [State.Keeps.lit]
    | with_reducible apply State.ite_keeps
    | with_reducible apply State.ite_fst_keeps
    | split

theorem State.blfAttr_keeps_eq {q : List Instr} {s : State} {b_q : BlfReq} (h0 : s.Keeps q) {u : State} {w : Nat × List
    Byte}
    (e : State.blfAttr s b_q = (u, w)) : u.Keeps q := by
  have hu : (State.blfAttr s b_q).1.Keeps q := by apply State.blfAttr_keeps <;> assumption
  rw [e] at hu
  exact hu

theorem State.blfPub_keeps {q : List Instr} {s : State} (b_q : BlfReq) (h0 : s.Keeps q) :
    (State.blfPub s b_q).1.Keeps q := by
  unfold State.blfPub
  try dsimp only
  repeat' first
    | with_reducible assumption
    | simp only [State.Keeps.lit]
    | with_reducible apply State.ite_keeps
    | with_reducible apply State.ite_fst_keeps
    | split

theorem State.blfPub_keeps_eq {q : List Instr} {s : State} {b_q : BlfReq} (h0 : s.Keeps q) {u : State} {w : Nat × List
    Byte}
    (e : State.blfPub s b_q = (u, w)) : u.Keeps q := by
  have hu : (State.blfPub s b_q).1.Keeps q := by apply State.blfPub_keeps <;> assumption
  rw [e] at hu
  exact hu

theorem State.blfAtt_keeps {q : List Instr} {s : State} (b_q : BlfReq) (h0 : s.Keeps q) :
    (State.blfAtt s b_q).1.Keeps q := by
  unfold State.blfAtt
  try dsimp only
  repeat' first
    | with_reducible assumption
    | with_reducible apply State.random_keeps
    | with_reducible refine State.random_keeps_eq ?_ ‹_›
    | with_reducible apply State.attrRecord_keeps
    | with_reducible refine State.attrRecord_keeps_eq ?_ ‹_›
    | simp only [State.Keeps.lit]
    | with_reducible apply State.ite_keeps
    | with_reducible apply State.ite_fst_keeps
    | split

theorem State.blfAtt_keeps_eq {q : List Instr} {s : State} {b_q : BlfReq} (h0 : s.Keeps q) {u : State} {w : Nat × List
    Byte}
    (e : State.blfAtt s b_q = (u, w)) : u.Keeps q := by
  have hu : (State.blfAtt s b_q).1.Keeps q := by apply State.blfAtt_keeps <;> assumption
  rw [e] at hu
  exact hu

theorem State.yelSlot_keeps {q : List Instr} {s : State} (b_e : List Byte) (h0 : s.Keeps q) :
    (State.yelSlot s b_e).1.Keeps q := by
  unfold State.yelSlot
  try dsimp only
  repeat' first
    | with_reducible assumption
    | with_reducible apply State.random_keeps
    | with_reducible refine State.random_keeps_eq ?_ ‹_›
    | simp only [State.Keeps.lit]
    | with_reducible apply State.ite_keeps
    | with_reducible apply State.ite_fst_keeps
    | split

theorem State.yelSlot_keeps_eq {q : List Instr} {s : State} {b_e : List Byte} (h0 : s.Keeps q) {u : State} {w : SlotSt}
    (e : State.yelSlot s b_e = (u, w)) : u.Keeps q := by
  have hu : (State.yelSlot s b_e).1.Keeps q := by apply State.yelSlot_keeps <;> assumption
  rw [e] at hu
  exact hu

theorem State.privRecord_keeps {q : List Instr} {s : State} (epoch : Nat) (h0 : s.Keeps q) :
    (State.privRecord s epoch).1.Keeps q := by
  unfold State.privRecord
  try dsimp only
  repeat' first
    | with_reducible assumption
    | with_reducible apply State.random_keeps
    | with_reducible apply State.ite_keeps

theorem State.privRecord_keeps_eq {q : List Instr} {s : State} {epoch : Nat} (h0 : s.Keeps q) {u : State} {w : List Byte}
    (e : State.privRecord s epoch = (u, w)) : u.Keeps q := by
  have hu : (State.privRecord s epoch).1.Keeps q := by apply State.privRecord_keeps <;> assumption
  rw [e] at hu
  exact hu

theorem State.yelStage_keeps {q : List Instr} {s : State} (h0 : s.Keeps q) :
    (State.yelStage s).1.Keeps q := by
  unfold State.yelStage
  try dsimp only
  repeat' first
    | with_reducible assumption
    | with_reducible apply State.privRecord_keeps
    | with_reducible refine State.privRecord_keeps_eq ?_ ‹_›
    | with_reducible apply State.setSlot_keeps
    | with_reducible apply State.yelSlot_keeps
    | with_reducible refine State.yelSlot_keeps_eq ?_ ‹_›
    | simp only [State.Keeps.lit]
    | with_reducible apply State.ite_keeps
    | with_reducible apply State.ite_fst_keeps
    | split

theorem State.yelStage_keeps_eq {q : List Instr} {s : State} (h0 : s.Keeps q) {u : State} {w : Nat × List Byte}
    (e : State.yelStage s = (u, w)) : u.Keeps q := by
  have hu : (State.yelStage s).1.Keeps q := by apply State.yelStage_keeps <;> assumption
  rw [e] at hu
  exact hu

theorem State.yelCommit_keeps {q : List Instr} {s : State} (h0 : s.Keeps q) :
    (State.yelCommit s).1.Keeps q := by
  unfold State.yelCommit
  try dsimp only
  repeat' first
    | with_reducible assumption
    | with_reducible apply State.setFlag_keeps
    | with_reducible apply State.setSlot_keeps
    | simp only [State.Keeps.lit]
    | with_reducible apply State.ite_keeps
    | with_reducible apply State.ite_fst_keeps
    | split

theorem State.yelCommit_keeps_eq {q : List Instr} {s : State} (h0 : s.Keeps q) {u : State} {w : Nat × List Byte}
    (e : State.yelCommit s = (u, w)) : u.Keeps q := by
  have hu : (State.yelCommit s).1.Keeps q := by apply State.yelCommit_keeps <;> assumption
  rw [e] at hu
  exact hu

theorem execBlfGenerate_keeps {q : List Instr} (r : Requester) (slot : Nat) (pending : Bool) (exprt : Bool) {s : State}
    (h0 : s.Keeps q) :
    ∃ u, execBlfGenerate r slot pending exprt s = .next u ∧ u.Keeps q := by
  refine ⟨_, rfl, ?_⟩
  try dsimp only
  repeat' first
    | with_reducible assumption
    | intro _
    | with_reducible apply State.blfGen_keeps
    | with_reducible refine State.blfGen_keeps_eq ?_ ‹_›
    | with_reducible apply State.blfCommand_keeps
    | with_reducible apply State.foldl_keeps
    | simp only [State.Keeps.lit]
    | simp only [State.Keeps.litDm, List.length_set]
    | with_reducible apply State.ite_keeps
    | with_reducible apply State.ite_fst_keeps
    | split

theorem execBlfDerive_keeps {q : List Instr} (r : Requester) (slot : Nat) (pending : Bool) (exprt : Bool) {s : State}
    (h0 : s.Keeps q) :
    ∃ u, execBlfDerive r slot pending exprt s = .next u ∧ u.Keeps q := by
  refine ⟨_, rfl, ?_⟩
  try dsimp only
  repeat' first
    | with_reducible assumption
    | intro _
    | with_reducible apply State.blfDer_keeps
    | with_reducible refine State.blfDer_keeps_eq ?_ ‹_›
    | with_reducible apply State.blfCommand_keeps
    | with_reducible apply State.foldl_keeps
    | simp only [State.Keeps.lit]
    | simp only [State.Keeps.litDm, List.length_set]
    | with_reducible apply State.ite_keeps
    | with_reducible apply State.ite_fst_keeps
    | split

theorem execBlfImport_keeps {q : List Instr} (r : Requester) (slot : Nat) (pending : Bool) (exprt : Bool) {s : State}
    (h0 : s.Keeps q) :
    ∃ u, execBlfImport r slot pending exprt s = .next u ∧ u.Keeps q := by
  refine ⟨_, rfl, ?_⟩
  try dsimp only
  repeat' first
    | with_reducible assumption
    | intro _
    | with_reducible apply State.blfImp_keeps
    | with_reducible refine State.blfImp_keeps_eq ?_ ‹_›
    | with_reducible apply State.blfCommand_keeps
    | with_reducible apply State.foldl_keeps
    | simp only [State.Keeps.lit]
    | simp only [State.Keeps.litDm, List.length_set]
    | with_reducible apply State.ite_keeps
    | with_reducible apply State.ite_fst_keeps
    | split

theorem execBlfImportPublic_keeps {q : List Instr} (r : Requester) (slot : Nat) {s : State} (h0 : s.Keeps q) :
    ∃ u, execBlfImportPublic r slot s = .next u ∧ u.Keeps q := by
  refine ⟨_, rfl, ?_⟩
  try dsimp only
  repeat' first
    | with_reducible assumption
    | intro _
    | with_reducible apply State.blfImpPub_keeps
    | with_reducible refine State.blfImpPub_keeps_eq ?_ ‹_›
    | with_reducible apply State.blfCommand_keeps
    | with_reducible apply State.foldl_keeps
    | simp only [State.Keeps.lit]
    | simp only [State.Keeps.litDm, List.length_set]
    | with_reducible apply State.ite_keeps
    | with_reducible apply State.ite_fst_keeps
    | split

theorem execBlfExport_keeps {q : List Instr} (r : Requester) (slot : Nat) {s : State} (h0 : s.Keeps q) :
    ∃ u, execBlfExport r slot s = .next u ∧ u.Keeps q := by
  refine ⟨_, rfl, ?_⟩
  try dsimp only
  repeat' first
    | with_reducible assumption
    | intro _
    | with_reducible apply State.blfExp_keeps
    | with_reducible refine State.blfExp_keeps_eq ?_ ‹_›
    | with_reducible apply State.blfCommand_keeps
    | with_reducible apply State.foldl_keeps
    | simp only [State.Keeps.lit]
    | simp only [State.Keeps.litDm, List.length_set]
    | with_reducible apply State.ite_keeps
    | with_reducible apply State.ite_fst_keeps
    | split

theorem execBlfCheck_keeps {q : List Instr} (r : Requester) (slot : Nat) {s : State} (h0 : s.Keeps q) :
    ∃ u, execBlfCheck r slot s = .next u ∧ u.Keeps q := by
  refine ⟨_, rfl, ?_⟩
  try dsimp only
  repeat' first
    | with_reducible assumption
    | intro _
    | with_reducible apply State.blfChk_keeps
    | with_reducible refine State.blfChk_keeps_eq ?_ ‹_›
    | with_reducible apply State.blfCommand_keeps
    | with_reducible apply State.foldl_keeps
    | simp only [State.Keeps.lit]
    | simp only [State.Keeps.litDm, List.length_set]
    | with_reducible apply State.ite_keeps
    | with_reducible apply State.ite_fst_keeps
    | split

theorem execBlfCommit_keeps {q : List Instr} (r : Requester) (slot : Nat) {s : State} (h0 : s.Keeps q) :
    ∃ u, execBlfCommit r slot s = .next u ∧ u.Keeps q := by
  refine ⟨_, rfl, ?_⟩
  try dsimp only
  repeat' first
    | with_reducible assumption
    | intro _
    | with_reducible apply State.blfCom_keeps
    | with_reducible refine State.blfCom_keeps_eq ?_ ‹_›
    | with_reducible apply State.blfCommand_keeps
    | with_reducible apply State.foldl_keeps
    | simp only [State.Keeps.lit]
    | simp only [State.Keeps.litDm, List.length_set]
    | with_reducible apply State.ite_keeps
    | with_reducible apply State.ite_fst_keeps
    | split

theorem execBlfDiscardPending_keeps {q : List Instr} (r : Requester) (slot : Nat) {s : State} (h0 : s.Keeps q) :
    ∃ u, execBlfDiscardPending r slot s = .next u ∧ u.Keeps q := by
  refine ⟨_, rfl, ?_⟩
  try dsimp only
  repeat' first
    | with_reducible assumption
    | intro _
    | with_reducible apply State.blfDis_keeps
    | with_reducible refine State.blfDis_keeps_eq ?_ ‹_›
    | with_reducible apply State.blfCommand_keeps
    | with_reducible apply State.foldl_keeps
    | simp only [State.Keeps.lit]
    | simp only [State.Keeps.litDm, List.length_set]
    | with_reducible apply State.ite_keeps
    | with_reducible apply State.ite_fst_keeps
    | split

theorem execBlfInvalidate_keeps {q : List Instr} (r : Requester) (slot : Nat) {s : State} (h0 : s.Keeps q) :
    ∃ u, execBlfInvalidate r slot s = .next u ∧ u.Keeps q := by
  refine ⟨_, rfl, ?_⟩
  try dsimp only
  repeat' first
    | with_reducible assumption
    | with_reducible apply State.blfInv_keeps
    | with_reducible apply State.ite_keeps

theorem execBlfReadAttr_keeps {q : List Instr} (r : Requester) (slot : Nat) {s : State} (h0 : s.Keeps q) :
    ∃ u, execBlfReadAttr r slot s = .next u ∧ u.Keeps q := by
  refine ⟨_, rfl, ?_⟩
  try dsimp only
  repeat' first
    | with_reducible assumption
    | intro _
    | with_reducible apply State.blfAttr_keeps
    | with_reducible refine State.blfAttr_keeps_eq ?_ ‹_›
    | with_reducible apply State.blfCommand_keeps
    | with_reducible apply State.foldl_keeps
    | simp only [State.Keeps.lit]
    | simp only [State.Keeps.litDm, List.length_set]
    | with_reducible apply State.ite_keeps
    | with_reducible apply State.ite_fst_keeps
    | split

theorem execBlfGetPublic_keeps {q : List Instr} (r : Requester) (slot : Nat) {s : State} (h0 : s.Keeps q) :
    ∃ u, execBlfGetPublic r slot s = .next u ∧ u.Keeps q := by
  refine ⟨_, rfl, ?_⟩
  try dsimp only
  repeat' first
    | with_reducible assumption
    | intro _
    | with_reducible apply State.blfPub_keeps
    | with_reducible refine State.blfPub_keeps_eq ?_ ‹_›
    | with_reducible apply State.blfCommand_keeps
    | with_reducible apply State.foldl_keeps
    | simp only [State.Keeps.lit]
    | simp only [State.Keeps.litDm, List.length_set]
    | with_reducible apply State.ite_keeps
    | with_reducible apply State.ite_fst_keeps
    | split

theorem execBlfAttest_keeps {q : List Instr} (r : Requester) (slot : Nat) {s : State} (h0 : s.Keeps q) :
    ∃ u, execBlfAttest r slot s = .next u ∧ u.Keeps q := by
  refine ⟨_, rfl, ?_⟩
  try dsimp only
  repeat' first
    | with_reducible assumption
    | intro _
    | with_reducible apply State.blfAtt_keeps
    | with_reducible refine State.blfAtt_keeps_eq ?_ ‹_›
    | with_reducible apply State.blfCommand_keeps
    | with_reducible apply State.foldl_keeps
    | simp only [State.Keeps.lit]
    | simp only [State.Keeps.litDm, List.length_set]
    | with_reducible apply State.ite_keeps
    | with_reducible apply State.ite_fst_keeps
    | split

theorem execBlfCert_keeps {q : List Instr} (r : Requester) {s : State} (h0 : s.Keeps q) :
    ∃ u, execBlfCert r s = .next u ∧ u.Keeps q := by
  refine ⟨_, rfl, ?_⟩
  try dsimp only
  repeat' first
    | with_reducible assumption
    | with_reducible apply State.blfCert_keeps
    | with_reducible apply State.blfCommand_keeps
    | with_reducible apply State.ite_keeps

theorem execYelnyStage_keeps {q : List Instr} (r : Requester) {s : State} (h0 : s.Keeps q) :
    ∃ u, execYelnyStage r s = .next u ∧ u.Keeps q := by
  refine ⟨_, rfl, ?_⟩
  try dsimp only
  repeat' first
    | with_reducible assumption
    | with_reducible apply State.blfCommand_keeps
    | with_reducible apply State.yelStage_keeps
    | with_reducible apply State.ite_keeps

theorem execYelnyCommit_keeps {q : List Instr} (r : Requester) {s : State} (h0 : s.Keeps q) :
    ∃ u, execYelnyCommit r s = .next u ∧ u.Keeps q := by
  refine ⟨_, rfl, ?_⟩
  try dsimp only
  repeat' first
    | with_reducible assumption
    | with_reducible apply State.yelCommit_keeps
    | with_reducible apply State.blfCommand_keeps
    | with_reducible apply State.ite_keeps

theorem State.passed_keeps {q : List Instr} {s : State} (m : Nat) (h0 : s.Keeps q) :
    (State.passed s m).Keeps q := by
  unfold State.passed
  try dsimp only
  repeat' first
    | with_reducible assumption
    | simp only [State.Keeps.lit]
    | with_reducible apply State.ite_keeps
    | with_reducible apply State.ite_fst_keeps
    | split

theorem State.reclaim_keeps {q : List Instr} {s : State} (h0 : s.Keeps q) :
    (State.reclaim s).Keeps q := by
  unfold State.reclaim
  try dsimp only
  repeat' first
    | with_reducible assumption
    | with_reducible apply State.blfKill_keeps
    | with_reducible apply State.setSlot_keeps
    | with_reducible apply State.blfEnd_keeps
    | with_reducible apply State.inc_keeps
    | with_reducible apply State.passed_keeps
    | simp only [State.Keeps.lit]
    | with_reducible apply State.ite_keeps
    | with_reducible apply State.ite_fst_keeps
    | split

theorem execReclaimerStep_keeps {q : List Instr} {s : State} (h0 : s.Keeps q) :
    ∃ u, execReclaimerStep s = .next u ∧ u.Keeps q := by
  refine ⟨_, rfl, ?_⟩
  try dsimp only
  repeat' first
    | with_reducible assumption
    | with_reducible apply State.reclaim_keeps
    | with_reducible apply State.ite_keeps

theorem State.edgesEnd_keeps {q : List Instr} {s : State} (h0 : s.Keeps q) :
    (State.edgesEnd s).Keeps q := by
  unfold State.edgesEnd
  try dsimp only
  repeat' first
    | with_reducible assumption
    | simp only [State.Keeps.lit]
    | with_reducible apply State.ite_keeps
    | with_reducible apply State.ite_fst_keeps
    | split

/-! ## Pools -/

theorem State.unmark_keeps {q : List Instr} {s : State} (pl : Plane) (p : Nat) (b : Nat) (h0 : s.Keeps q) :
    (State.unmark s pl p b).Keeps q := by
  unfold State.unmark
  try dsimp only
  repeat' first
    | with_reducible assumption
    | simp only [State.Keeps.lit]
    | with_reducible apply State.ite_keeps
    | with_reducible apply State.ite_fst_keeps
    | split

theorem State.freeBuf_keeps {q : List Instr} {s : State} (pl : Plane) (p : Nat) (b : Nat) (h0 : s.Keeps q) :
    (State.freeBuf s pl p b).Keeps q := by
  unfold State.freeBuf
  try dsimp only
  repeat' first
    | with_reducible assumption
    | with_reducible apply State.setPlane_keeps
    | with_reducible apply State.unmark_keeps
    | with_reducible apply State.ite_keeps

theorem State.release_keeps {q : List Instr} {s : State} (f : Frame) (h0 : s.Keeps q) :
    (State.release s f).Keeps q := by
  unfold State.release
  try dsimp only
  repeat' first
    | with_reducible assumption
    | with_reducible apply State.freeBuf_keeps
    | with_reducible apply State.ite_keeps

theorem State.capRoom_keeps {q : List Instr} {s : State} (len : Nat) (h0 : s.Keeps q) :
    (State.capRoom s len).Keeps q := by
  unfold State.capRoom
  try dsimp only
  repeat' first
    | with_reducible assumption
    | with_reducible apply State.setFlag_keeps
    | with_reducible apply State.put_keeps
    | with_reducible apply State.ite_keeps

theorem State.capCount_keeps {q : List Instr} {s : State} (h0 : s.Keeps q) :
    (State.capCount s).Keeps q := by
  unfold State.capCount
  try dsimp only
  repeat' first
    | with_reducible assumption
    | with_reducible apply State.inc_keeps
    | simp only [State.Keeps.lit]
    | with_reducible apply State.ite_keeps
    | with_reducible apply State.ite_fst_keeps
    | split

theorem State.capPut_keeps {q : List Instr} {s : State} (off : Nat) (bs : List Byte) (h0 : s.Keeps q) :
    (State.capPut s off bs).Keeps q := by
  unfold State.capPut
  dsimp only
  split
  · exact ⟨{ h0.inv with lpddr := Memory.wf_memPut _ _ (Memory.wf_memPut _ _ h0.inv.lpddr) }, h0.queue⟩
  · exact ⟨{ h0.inv with capSram := Memory.wf_memPut _ _ (Memory.wf_memPut _ _ h0.inv.capSram) }, h0.queue⟩

theorem State.capRecord_keeps {q : List Instr} {s : State} (mk : Nat → List Byte) (len : Nat) (rule : Option Nat) (h0 :
    s.Keeps q) :
    (State.capRecord s mk len rule).Keeps q := by
  unfold State.capRecord
  try dsimp only
  repeat' first
    | with_reducible assumption
    | with_reducible apply State.capRoom_keeps
    | with_reducible apply State.setFlag_keeps
    | with_reducible apply State.capCount_keeps
    | with_reducible apply State.put_keeps
    | with_reducible apply State.inc_keeps
    | with_reducible apply State.capPut_keeps
    | simp only [State.Keeps.lit]
    | with_reducible apply State.ite_keeps
    | with_reducible apply State.ite_fst_keeps
    | split

theorem State.capTenant_keeps {q : List Instr} {s : State} (tn : Nat) (mk : Nat → List Byte) (len : Nat) (rule : Nat)
    (h0 : s.Keeps q) :
    (State.capTenant s tn mk len rule).Keeps q := by
  unfold State.capTenant
  try dsimp only
  repeat' first
    | with_reducible assumption
    | with_reducible apply State.setFlag_keeps
    | with_reducible apply State.capCount_keeps
    | with_reducible apply State.put_keeps
    | with_reducible apply State.inc_keeps
    | with_reducible apply State.dmaWrite_keeps
    | simp only [State.Keeps.lit]
    | with_reducible apply State.ite_keeps
    | with_reducible apply State.ite_fst_keeps
    | split

theorem State.capture_keeps {q : List Instr} {s : State} (point : Nat) (pcode : Nat) (port : Nat) (bs : List Byte)
    (outer : Bool) (reason : Nat) (stream : Option Nat) (tc : Nat) (time : List TbTime) (h0 : s.Keeps q) :
    (State.capture s point pcode port bs outer reason stream tc time).Keeps q := by
  unfold State.capture
  try dsimp only
  repeat' first
    | with_reducible assumption
    | with_reducible apply State.capRecord_keeps
    | with_reducible apply State.capTenant_keeps
    | simp only [State.Keeps.lit]
    | with_reducible apply State.ite_keeps
    | with_reducible apply State.ite_fst_keeps
    | split

theorem State.drop_keeps {q : List Instr} {s : State} (f : Frame) (reason : Nat) (h0 : s.Keeps q) :
    (State.drop s f reason).Keeps q := by
  unfold State.drop
  try dsimp only
  repeat' first
    | with_reducible assumption
    | with_reducible apply State.release_keeps
    | with_reducible apply State.capture_keeps
    | with_reducible apply State.ite_keeps

theorem State.allocLost_keeps {q : List Instr} {s : State} (pl : Plane) (start : Nat) (h0 : s.Keeps q) :
    (State.allocLost s pl start).Keeps q := by
  unfold State.allocLost
  try dsimp only
  repeat' first
    | with_reducible assumption
    | with_reducible apply State.setFlag_keeps
    | with_reducible apply State.inc_keeps
    | with_reducible apply State.ite_keeps

theorem State.listError_keeps {q : List Instr} {s : State} (pl : Plane) (p : Nat) (b : Nat) (h0 : s.Keeps q) :
    (State.listError s pl p b).Keeps q := by
  unfold State.listError
  try dsimp only
  repeat' first
    | with_reducible assumption
    | with_reducible apply State.setPlane_keeps
    | with_reducible apply State.setFlag_keeps
    | with_reducible apply State.put_keeps
    | with_reducible apply State.ite_keeps

theorem State.popBuf_keeps {q : List Instr} {s : State} (pl : Plane) (p : Nat) (crit : Bool) (h0 : s.Keeps q) :
    (State.popBuf s pl p crit).1.Keeps q := by
  unfold State.popBuf
  try dsimp only
  repeat' first
    | with_reducible assumption
    | with_reducible apply State.setPlane_keeps
    | with_reducible apply State.setFlag_keeps
    | with_reducible apply State.put_keeps
    | with_reducible apply State.listError_keeps
    | simp only [State.Keeps.lit]
    | with_reducible apply State.ite_keeps
    | with_reducible apply State.ite_fst_keeps
    | split

theorem State.popBuf_keeps_eq {q : List Instr} {s : State} {pl : Plane} {p : Nat} {crit : Bool} (h0 : s.Keeps q) {u :
    State} {w : Option Nat}
    (e : State.popBuf s pl p crit = (u, w)) : u.Keeps q := by
  have hu : (State.popBuf s pl p crit).1.Keeps q := by apply State.popBuf_keeps <;> assumption
  rw [e] at hu
  exact hu

theorem State.allocFrom_keeps {q : List Instr} {s : State} (pl : Plane) (start : Nat) (crit : Bool) (a4 : Nat) (a5 :
    Nat) (h0 : s.Keeps q) :
    (State.allocFrom s pl start crit a4 a5).1.Keeps q := by
  fun_induction State.allocFrom s pl start crit a4 a5
  all_goals try dsimp only
  all_goals repeat' first
    | with_reducible assumption
    | with_reducible apply State.popBuf_keeps
    | with_reducible refine State.popBuf_keeps_eq ?_ ‹_›
    | with_reducible apply State.allocLost_keeps
    | with_reducible apply State.inc_keeps
    | with_reducible apply_assumption
    | simp only [State.Keeps.lit]
    | with_reducible apply State.ite_keeps
    | with_reducible apply State.ite_fst_keeps
    | split

theorem State.allocFrom_keeps_eq {q : List Instr} {s : State} {pl : Plane} {start : Nat} {crit : Bool} {a4 : Nat} {a5 :
    Nat} (h0 : s.Keeps q) {u : State} {w : Option (Nat × Nat)}
    (e : State.allocFrom s pl start crit a4 a5 = (u, w)) : u.Keeps q := by
  have hu : (State.allocFrom s pl start crit a4 a5).1.Keeps q := by apply State.allocFrom_keeps <;> assumption
  rw [e] at hu
  exact hu

theorem State.alloc_keeps {q : List Instr} {s : State} (pl : Plane) (len : Nat) (crit : Bool) (h0 : s.Keeps q) :
    (State.alloc s pl len crit).1.Keeps q := by
  unfold State.alloc
  try dsimp only
  repeat' first
    | with_reducible assumption
    | with_reducible apply State.allocLost_keeps
    | with_reducible apply State.allocFrom_keeps
    | with_reducible refine State.allocFrom_keeps_eq ?_ ‹_›
    | simp only [State.Keeps.lit]
    | with_reducible apply State.ite_keeps
    | with_reducible apply State.ite_fst_keeps
    | split

theorem State.alloc_keeps_eq {q : List Instr} {s : State} {pl : Plane} {len : Nat} {crit : Bool} (h0 : s.Keeps q) {u :
    State} {w : Option (Nat × Nat)}
    (e : State.alloc s pl len crit = (u, w)) : u.Keeps q := by
  have hu : (State.alloc s pl len crit).1.Keeps q := by apply State.alloc_keeps <;> assumption
  rw [e] at hu
  exact hu

theorem State.captureOut_keeps {q : List Instr} {s : State} (p : Nat) (f : Frame) (out : List Byte) (ts : List TbTime)
    (h0 : s.Keeps q) :
    (State.captureOut s p f out ts).Keeps q := by
  unfold State.captureOut
  try dsimp only
  repeat' first
    | with_reducible assumption
    | with_reducible apply State.capture_keeps
    | with_reducible apply State.ite_keeps

theorem State.promote_keeps {q : List Instr} {s : State} (pl : Plane) (len : Nat) (crit : Bool) (a4 : Nat) (a5 : Nat ×
    Nat) (h0 : s.Keeps q) :
    (State.promote s pl len crit a4 a5).1.Keeps q := by
  fun_induction State.promote s pl len crit a4 a5
  all_goals try dsimp only
  all_goals repeat' first
    | with_reducible assumption
    | with_reducible apply State.freeBuf_keeps
    | with_reducible apply State.inc_keeps
    | with_reducible apply State.allocFrom_keeps
    | with_reducible refine State.allocFrom_keeps_eq ?_ ‹_›
    | with_reducible apply_assumption
    | simp only [State.Keeps.lit]
    | with_reducible apply State.ite_keeps
    | with_reducible apply State.ite_fst_keeps
    | split

theorem State.promote_keeps_eq {q : List Instr} {s : State} {pl : Plane} {len : Nat} {crit : Bool} {a4 : Nat} {a5 : Nat
    × Nat} (h0 : s.Keeps q) {u : State} {w : Except (Nat × Nat) (Nat × Nat)}
    (e : State.promote s pl len crit a4 a5 = (u, w)) : u.Keeps q := by
  have hu : (State.promote s pl len crit a4 a5).1.Keeps q := by apply State.promote_keeps <;> assumption
  rw [e] at hu
  exact hu

theorem State.promoteLost_keeps {q : List Instr} {s : State} (pl : Plane) (port : Nat) (tc : Nat) (bytes : List Byte)
    (b_h : Nat × Nat) (h0 : s.Keeps q) :
    (State.promoteLost s pl port tc bytes b_h).Keeps q := by
  unfold State.promoteLost
  try dsimp only
  repeat' first
    | with_reducible assumption
    | with_reducible apply State.freeBuf_keeps
    | with_reducible apply State.capture_keeps
    | with_reducible apply State.ite_keeps

theorem State.allocIngress_keeps {q : List Instr} {s : State} (pl : Plane) (port : Nat) (tc : Nat) (bytes : List Byte)
    (crit : Bool)
    (h0 : s.Keeps q) : (State.allocIngress s pl port tc bytes crit).1.Keeps q := by
  have h1 : (if port < 32 then
      match [0, 1, 2, 3].find? (fun p => s.poolExists pl p) with
      | none => (s.allocLost pl 3, none)
      | some p =>
        match s.allocFrom pl p crit 4 p with
        | (s1, some h) => (match s1.promote pl bytes.length crit 4 h with
          | (s2, .ok h1) => (s2, some h1)
          | (s2, .error h1) => (s2.promoteLost pl port tc bytes h1, none))
        | (s1, none) => (s1, none)
    else s.alloc pl bytes.length crit).1.Keeps q := by
    split
    · split
      · exact State.allocLost_keeps _ _ h0
      · split
        · next e =>
          split
          · next e2 => exact State.promote_keeps_eq (State.allocFrom_keeps_eq h0 e) e2
          · next e2 => exact State.promoteLost_keeps _ _ _ _ _ (State.promote_keeps_eq (State.allocFrom_keeps_eq h0 e) e2)
        · next e => exact State.allocFrom_keeps_eq h0 e
    · exact State.alloc_keeps _ _ _ h0
  unfold State.allocIngress
  dsimp only
  split
  · next u h e =>
    have h3 : (u, some h).1.Keeps q := by
      rw [← e]
      exact h1
    exact h3
  · next u e =>
    have h3 : (u, (none : Option (Nat × Nat))).1.Keeps q := by
      rw [← e]
      exact h1
    split
    · simpa only [State.Keeps.litDm] using h3
    · simpa only [State.Keeps.litDm] using h3

theorem State.allocIngress_keeps_eq {q : List Instr} {s : State} {pl : Plane} {port : Nat} {tc : Nat} {bytes : List
    Byte} {crit : Bool} (h0 : s.Keeps q) {u : State} {w : Option (Nat × Nat)}
    (e : State.allocIngress s pl port tc bytes crit = (u, w)) : u.Keeps q := by
  have hu : (State.allocIngress s pl port tc bytes crit).1.Keeps q := by apply State.allocIngress_keeps <;> assumption
  rw [e] at hu
  exact hu

/-! ## Queues -/

theorem State.txReport_keeps {q : List Instr} {s : State} (x : TxReport) (tn : Option Nat) (h0 : s.Keeps q) :
    (State.txReport s x tn).Keeps q := by
  unfold State.txReport
  repeat' split
  · exact h0
  · exact State.inc_keeps _ h0
  · exact State.setTen_keeps _ _ h0
  · exact State.setFlag_keeps _ (State.inc_keeps _ h0)
  · next hl =>
    refine State.setFlag_keeps _ ⟨{ h0.inv with txts := ?_ }, h0.queue⟩
    simp
    omega

theorem State.setCan_keeps {q : List Instr} {s : State} (n : Nat) (x : CanSt) (h0 : s.Keeps q) :
    (State.setCan s n x).Keeps q := by
  unfold State.setCan
  try dsimp only
  repeat' first
    | with_reducible assumption
    | simp only [State.Keeps.lit]
    | with_reducible apply State.ite_keeps
    | with_reducible apply State.ite_fst_keeps
    | split

theorem State.setLin_keeps {q : List Instr} {s : State} (n : Nat) (x : LinSt) (h0 : s.Keeps q) :
    (State.setLin s n x).Keeps q := by
  unfold State.setLin
  try dsimp only
  repeat' first
    | with_reducible assumption
    | simp only [State.Keeps.lit]
    | with_reducible apply State.ite_keeps
    | with_reducible apply State.ite_fst_keeps
    | split

theorem State.setQueue_keeps {q : List Instr} {s : State} (pl : Plane) (i : Nat) (l : List QEntry) (h0 : s.Keeps q) :
    (State.setQueue s pl i l).Keeps q := by
  unfold State.setQueue
  try dsimp only
  repeat' first
    | with_reducible assumption
    | with_reducible apply State.setPlane_keeps
    | with_reducible apply State.ite_keeps

theorem State.setCtx_keeps {q : List Instr} {s : State} (c : Nat) (x : MigCtx) (h0 : s.Keeps q) :
    (State.setCtx s c x).Keeps q := by
  unfold State.setCtx
  try dsimp only
  repeat' first
    | with_reducible assumption
    | intro _
    | with_reducible apply State.foldl_keeps
    | simp only [State.Keeps.lit]
    | simp only [State.Keeps.litDm, List.length_set]
    | with_reducible apply State.ite_keeps
    | with_reducible apply State.ite_fst_keeps
    | split

theorem State.setPort_keeps {q : List Instr} {s : State} (p : Nat) (x : PortSt) (h0 : s.Keeps q) :
    (State.setPort s p x).Keeps q := by
  unfold State.setPort
  try dsimp only
  repeat' first
    | with_reducible assumption
    | simp only [State.Keeps.lit]
    | with_reducible apply State.ite_keeps
    | with_reducible apply State.ite_fst_keeps
    | split

theorem State.countDown_keeps {q : List Instr} {s : State} (p : Nat) (h0 : s.Keeps q) :
    (State.countDown s p).Keeps q := by
  unfold State.countDown
  try dsimp only
  repeat' first
    | with_reducible assumption
    | with_reducible apply State.inc_keeps
    | with_reducible apply State.ite_keeps

theorem State.ctxSettle_keeps {q : List Instr} {s : State} (c : Nat) (h0 : s.Keeps q) :
    (State.ctxSettle s c).Keeps q := by
  unfold State.ctxSettle
  try dsimp only
  repeat' first
    | with_reducible assumption
    | with_reducible apply State.setCtx_keeps
    | with_reducible apply State.ite_keeps

theorem State.unhold_keeps {q : List Instr} {s : State} (pl : Plane) (p : Nat) (l : List Frame) (h0 : s.Keeps q) :
    (State.unhold s pl p l).Keeps q := by
  unfold State.unhold
  try dsimp only
  repeat' first
    | with_reducible assumption
    | intro _
    | with_reducible apply State.setQueue_keeps
    | with_reducible apply State.foldl_keeps
    | simp only [State.Keeps.lit]
    | simp only [State.Keeps.litDm, List.length_set]
    | with_reducible apply State.ite_keeps
    | with_reducible apply State.ite_fst_keeps
    | split

theorem State.releasePort_keeps {q : List Instr} {s : State} (c : Nat) (p : Nat) (h0 : s.Keeps q) :
    (State.releasePort s c p).Keeps q := by
  unfold State.releasePort
  try dsimp only
  repeat' first
    | with_reducible assumption
    | with_reducible apply State.ctxSettle_keeps
    | with_reducible apply State.unhold_keeps
    | with_reducible apply State.setCtx_keeps
    | with_reducible apply State.ite_keeps

theorem State.setRec_keeps {q : List Instr} {s : State} (r : Nat) (x : RecSt) (h0 : s.Keeps q) :
    (State.setRec s r x).Keeps q := by
  unfold State.setRec
  try dsimp only
  repeat' first
    | with_reducible assumption
    | simp only [State.Keeps.lit]
    | with_reducible apply State.ite_keeps
    | with_reducible apply State.ite_fst_keeps
    | split

theorem State.frerUndo_keeps {q : List Instr} {s : State} (b_u : FrerUndo) (h0 : s.Keeps q) :
    (State.frerUndo s b_u).Keeps q := by
  unfold State.frerUndo
  try dsimp only
  repeat' first
    | with_reducible assumption
    | with_reducible apply State.put_keeps
    | with_reducible apply State.setRec_keeps
    | with_reducible apply State.ite_keeps

theorem State.cutTx_keeps {q : List Instr} {s : State} (p : Nat) (t : TxFrame) (reason : Nat) (h0 : s.Keeps q) :
    (State.cutTx s p t reason).Keeps q := by
  unfold State.cutTx
  try dsimp only
  repeat' first
    | with_reducible assumption
    | with_reducible apply State.setPort_keeps
    | with_reducible apply State.drop_keeps
    | with_reducible apply State.txReport_keeps
    | with_reducible apply State.frerUndo_keeps
    | simp only [State.Keeps.lit]
    | with_reducible apply State.ite_keeps
    | with_reducible apply State.ite_fst_keeps
    | split

theorem State.classEmptied_keeps {q : List Instr} {s : State} (b_q : Nat) (h0 : s.Keeps q) :
    (State.classEmptied s b_q).Keeps q := by
  unfold State.classEmptied
  try dsimp only
  repeat' first
    | with_reducible assumption
    | with_reducible apply State.put_keeps
    | with_reducible apply State.ite_keeps

theorem State.consumeMarker_keeps {q : List Instr} {s : State} (c : Nat) (gen : Nat) (p : Nat) (h0 : s.Keeps q) :
    (State.consumeMarker s c gen p).Keeps q := by
  unfold State.consumeMarker
  try dsimp only
  repeat' first
    | with_reducible assumption
    | with_reducible apply State.releasePort_keeps
    | with_reducible apply State.setCtx_keeps
    | simp only [State.Keeps.lit]
    | with_reducible apply State.ite_keeps
    | with_reducible apply State.ite_fst_keeps
    | split

theorem State.flushEntry_keeps {q : List Instr} {s : State} (pl : Plane) (p : Nat) (reason : Nat) (a4 : QEntry) (h0 :
    s.Keeps q) :
    (State.flushEntry s pl p reason a4).Keeps q := by
  unfold State.flushEntry
  try dsimp only
  repeat' first
    | with_reducible assumption
    | with_reducible apply State.setPlane_keeps
    | with_reducible apply State.consumeMarker_keeps
    | with_reducible apply State.drop_keeps
    | simp only [State.Keeps.lit]
    | with_reducible apply State.ite_keeps
    | with_reducible apply State.ite_fst_keeps
    | split

theorem State.flushQueue_keeps {q : List Instr} {s : State} (pl : Plane) (b_q : Nat) (reason : Nat) (h0 : s.Keeps q) :
    (State.flushQueue s pl b_q reason).1.Keeps q := by
  unfold State.flushQueue
  try dsimp only
  repeat' first
    | with_reducible assumption
    | intro _
    | with_reducible apply State.setQueue_keeps
    | with_reducible apply State.classEmptied_keeps
    | with_reducible apply State.flushEntry_keeps
    | with_reducible apply State.foldl_keeps
    | simp only [State.Keeps.lit]
    | simp only [State.Keeps.litDm, List.length_set]
    | with_reducible apply State.ite_keeps
    | with_reducible apply State.ite_fst_keeps
    | split

theorem State.flushQueue_keeps_eq {q : List Instr} {s : State} {pl : Plane} {b_q : Nat} {reason : Nat} (h0 : s.Keeps q)
    {u : State} {w : Nat}
    (e : State.flushQueue s pl b_q reason = (u, w)) : u.Keeps q := by
  have hu : (State.flushQueue s pl b_q reason).1.Keeps q := by apply State.flushQueue_keeps <;> assumption
  rw [e] at hu
  exact hu

theorem State.flushPort_keeps {q : List Instr} {s : State} (p : Nat) (reason : Nat) (h0 : s.Keeps q) :
    (State.flushPort s p reason).1.Keeps q := by
  unfold State.flushPort
  try dsimp only
  repeat' first
    | with_reducible assumption
    | intro _
    | with_reducible apply State.flushQueue_keeps
    | with_reducible refine State.flushQueue_keeps_eq ?_ ‹_›
    | with_reducible apply State.foldl_keeps
    | with_reducible apply State.foldl_fst_keeps
    | simp only [State.Keeps.lit]
    | simp only [State.Keeps.litDm, List.length_set]
    | with_reducible apply State.ite_keeps
    | with_reducible apply State.ite_fst_keeps
    | split

theorem State.endHold_keeps {q : List Instr} {s : State} (p : Nat) (h0 : s.Keeps q) :
    (State.endHold s p).Keeps q := by
  unfold State.endHold
  try dsimp only
  repeat' first
    | with_reducible assumption
    | with_reducible apply State.setFlag_keeps
    | with_reducible apply State.setPort_keeps
    | with_reducible apply State.put_keeps
    | with_reducible apply State.flushPort_keeps
    | with_reducible apply State.addCnt_keeps
    | with_reducible apply State.ite_keeps

theorem State.startHold_keeps {q : List Instr} {s : State} (p : Nat) (h0 : s.Keeps q) :
    (State.startHold s p).Keeps q := by
  unfold State.startHold
  try dsimp only
  repeat' first
    | with_reducible assumption
    | with_reducible apply State.put_keeps
    | with_reducible apply State.endHold_keeps
    | with_reducible apply State.ite_keeps

theorem State.countAbort_keeps {q : List Instr} {s : State} (p : Nat) (h0 : s.Keeps q) :
    (State.countAbort s p).Keeps q := by
  unfold State.countAbort
  try dsimp only
  repeat' first
    | with_reducible assumption
    | with_reducible apply State.inc_keeps
    | with_reducible apply State.ite_keeps

theorem State.abortPort_keeps {q : List Instr} {s : State} (p : Nat) (h0 : s.Keeps q) :
    (State.abortPort s p).Keeps q := by
  unfold State.abortPort
  try dsimp only
  repeat' first
    | with_reducible assumption
    | with_reducible apply State.setPort_keeps
    | with_reducible apply State.cutTx_keeps
    | with_reducible apply State.countAbort_keeps
    | simp only [State.Keeps.lit]
    | with_reducible apply State.ite_keeps
    | with_reducible apply State.ite_fst_keeps
    | split

theorem State.dropUnpack_keeps {q : List Instr} {s : State} (b_u : Option Unpack) (h0 : s.Keeps q) :
    (State.dropUnpack s b_u).Keeps q := by
  unfold State.dropUnpack
  try dsimp only
  repeat' first
    | with_reducible assumption
    | with_reducible apply State.drop_keeps
    | simp only [State.Keeps.lit]
    | with_reducible apply State.ite_keeps
    | with_reducible apply State.ite_fst_keeps
    | split

theorem State.canClearTx_keeps {q : List Instr} {s : State} (n : Nat) (h0 : s.Keeps q) :
    (State.canClearTx s n).Keeps q := by
  unfold State.canClearTx
  try dsimp only
  repeat' first
    | with_reducible assumption
    | with_reducible apply State.setCan_keeps
    | with_reducible apply State.dropUnpack_keeps
    | with_reducible apply State.addCnt_keeps
    | with_reducible apply State.ite_keeps

theorem State.linClear_keeps {q : List Instr} {s : State} (n : Nat) (h0 : s.Keeps q) :
    (State.linClear s n).Keeps q := by
  unfold State.linClear
  try dsimp only
  repeat' first
    | with_reducible assumption
    | with_reducible apply State.setLin_keeps
    | with_reducible apply State.dropUnpack_keeps
    | with_reducible apply State.ite_keeps

theorem State.linkDown_keeps {q : List Instr} {s : State} (p : Nat) (h0 : s.Keeps q) :
    (State.linkDown s p).Keeps q := by
  unfold State.linkDown
  try dsimp only
  repeat' first
    | with_reducible assumption
    | with_reducible apply State.setFlag_keeps
    | with_reducible apply State.abortPort_keeps
    | with_reducible apply State.put_keeps
    | with_reducible apply State.startHold_keeps
    | with_reducible apply State.canClearTx_keeps
    | with_reducible apply State.linClear_keeps
    | with_reducible apply State.ite_keeps

theorem State.dropMarkers_keeps {q : List Instr} {s : State} (pl : Plane) (b_q : Nat) (a3 : Nat) (h0 : s.Keeps q) :
    (State.dropMarkers s pl b_q a3).Keeps q := by
  fun_induction State.dropMarkers s pl b_q a3
  all_goals try dsimp only
  all_goals repeat' first
    | with_reducible assumption
    | with_reducible apply State.setQueue_keeps
    | with_reducible apply State.consumeMarker_keeps
    | with_reducible apply_assumption
    | with_reducible apply State.ite_keeps

theorem State.settleHead_keeps {q : List Instr} {s : State} (pl : Plane) (b_q : Nat) (h0 : s.Keeps q) :
    (State.settleHead s pl b_q).Keeps q := by
  unfold State.settleHead
  try dsimp only
  repeat' first
    | with_reducible assumption
    | with_reducible apply State.dropMarkers_keeps
    | with_reducible apply State.ite_keeps

theorem State.unqueue_keeps {q : List Instr} {s : State} (pl : Plane) (b_q : Nat) (h0 : s.Keeps q) :
    (State.unqueue s pl b_q).Keeps q := by
  unfold State.unqueue
  try dsimp only
  repeat' first
    | with_reducible assumption
    | with_reducible apply State.setQueue_keeps
    | with_reducible apply State.settleHead_keeps
    | with_reducible apply State.ite_keeps

theorem State.ctxRelease_keeps {q : List Instr} {s : State} (c : Nat) (h0 : s.Keeps q) :
    (State.ctxRelease s c).Keeps q := by
  unfold State.ctxRelease
  try dsimp only
  repeat' first
    | with_reducible assumption
    | intro _
    | with_reducible apply State.unhold_keeps
    | with_reducible apply State.setCtx_keeps
    | with_reducible apply State.foldl_keeps
    | simp only [State.Keeps.lit]
    | simp only [State.Keeps.litDm, List.length_set]
    | with_reducible apply State.ite_keeps
    | with_reducible apply State.ite_fst_keeps
    | split

theorem State.endContexts_keeps {q : List Instr} {s : State} (h0 : s.Keeps q) :
    (State.endContexts s).Keeps q := by
  unfold State.endContexts
  try dsimp only
  repeat' first
    | with_reducible assumption
    | intro _
    | with_reducible apply State.ctxRelease_keeps
    | with_reducible apply State.foldl_keeps
    | simp only [State.Keeps.lit]
    | simp only [State.Keeps.litDm, List.length_set]
    | with_reducible apply State.ite_keeps
    | with_reducible apply State.ite_fst_keeps
    | split

theorem State.rateCheck_keeps {q : List Instr} {s : State} (p : Nat) (h0 : s.Keeps q) :
    (State.rateCheck s p).Keeps q := by
  unfold State.rateCheck
  try dsimp only
  repeat' first
    | with_reducible assumption
    | with_reducible apply State.setFlag_keeps
    | with_reducible apply State.put_keeps
    | with_reducible apply State.ite_keeps

theorem State.linkUpNow_keeps {q : List Instr} {s : State} (p : Nat) (h0 : s.Keeps q) :
    (State.linkUpNow s p).Keeps q := by
  unfold State.linkUpNow
  try dsimp only
  repeat' first
    | with_reducible assumption
    | with_reducible apply State.setFlag_keeps
    | with_reducible apply State.setPort_keeps
    | with_reducible apply State.put_keeps
    | with_reducible apply State.rateCheck_keeps
    | with_reducible apply State.ite_keeps

end Sys2Proof.Machine
end

