-- ==== Sys2Proof/Laws/Keeps3.lean ====
section
/-! SUPPORT. What each operation of WakeOps, Gateway, Classify, Admission, FramePath, Exceptions, Registers, Placement
    keeps: the good form, and the queue. -/

namespace Sys2Proof.Machine

/-! ## WakeOps -/

theorem State.setNm_keeps {q : List Instr} {s : State} (c : Nat) (x : NmSt) (h0 : s.Keeps q) :
    (State.setNm s c x).Keeps q := by
  unfold State.setNm
  try dsimp only
  repeat' first
    | with_reducible assumption
    | simp only [State.Keeps.lit]
    | with_reducible apply State.ite_keeps
    | with_reducible apply State.ite_fst_keeps
    | split

theorem State.wakeRecord_keeps {q : List Instr} {s : State} (x : WakeRec) (h0 : s.Keeps q) :
    (State.wakeRecord s x).Keeps q := by
  unfold State.wakeRecord
  split
  · exact State.setFlag_keeps _ (State.incSat_keeps _ h0)
  · next hl =>
    refine State.setFlag_keeps _ ⟨{ h0.inv with wrec := ?_ }, h0.queue⟩
    simp
    omega

theorem State.ncPut_keeps {q : List Instr} {s : State} (c : Nat) (st : Nat) (h0 : s.Keeps q) :
    (State.ncPut s c st).Keeps q := by
  unfold State.ncPut
  try dsimp only
  repeat' first
    | with_reducible assumption
    | with_reducible apply State.setFlag_keeps
    | with_reducible apply State.put_keeps
    | with_reducible apply State.ite_keeps

theorem State.debounceNow_keeps {q : List Instr} {s : State} (p : Nat) (h0 : s.Keeps q) :
    (State.debounceNow s p).Keeps q := by
  unfold State.debounceNow
  try dsimp only
  repeat' first
    | with_reducible assumption
    | with_reducible apply State.setPort_keeps
    | with_reducible apply State.ite_keeps

theorem State.repeatPort_keeps {q : List Instr} {s : State} (src : Nat) (idx : Nat) (p : Nat) (h0 : s.Keeps q) :
    (State.repeatPort s src idx p).Keeps q := by
  unfold State.repeatPort
  try dsimp only
  repeat' first
    | with_reducible assumption
    | with_reducible apply State.setLin_keeps
    | with_reducible apply State.setPort_keeps
    | with_reducible apply State.debounceNow_keeps
    | with_reducible apply State.put_keeps
    | with_reducible apply State.ite_keeps

theorem State.enterRepeat_keeps {q : List Instr} {s : State} (c : Nat) (src : Nat) (idx : Nat) (h0 : s.Keeps q) :
    (State.enterRepeat s c src idx).Keeps q := by
  unfold State.enterRepeat
  try dsimp only
  repeat' first
    | with_reducible assumption
    | intro _
    | with_reducible apply State.setNm_keeps
    | with_reducible apply State.repeatPort_keeps
    | with_reducible apply State.ncPut_keeps
    | with_reducible apply State.foldl_keeps
    | simp only [State.Keeps.lit]
    | simp only [State.Keeps.litDm, List.length_set]
    | with_reducible apply State.ite_keeps
    | with_reducible apply State.ite_fst_keeps
    | split

theorem State.nmWake_keeps {q : List Instr} {s : State} (c : Nat) (src : Nat) (idx : Nat) (pat : Nat) (h0 : s.Keeps q) :
    (State.nmWake s c src idx pat).Keeps q := by
  unfold State.nmWake
  try dsimp only
  repeat' first
    | with_reducible assumption
    | with_reducible apply State.setFlag_keeps
    | with_reducible apply State.setNm_keeps
    | with_reducible apply State.enterRepeat_keeps
    | with_reducible apply State.inc_keeps
    | with_reducible apply State.wakeRecord_keeps
    | simp only [State.Keeps.lit]
    | with_reducible apply State.ite_keeps
    | with_reducible apply State.ite_fst_keeps
    | split

theorem State.txWake_keeps {q : List Instr} {s : State} (p : Nat) (h0 : s.Keeps q) :
    (State.txWake s p).Keeps q := by
  unfold State.txWake
  try dsimp only
  repeat' first
    | with_reducible assumption
    | with_reducible apply State.nmWake_keeps
    | simp only [State.Keeps.lit]
    | with_reducible apply State.ite_keeps
    | with_reducible apply State.ite_fst_keeps
    | split

theorem State.knellPort_keeps {q : List Instr} {s : State} (p : Nat) (h0 : s.Keeps q) :
    (State.knellPort s p).Keeps q := by
  unfold State.knellPort
  try dsimp only
  repeat' first
    | with_reducible assumption
    | with_reducible apply State.setPort_keeps
    | with_reducible apply State.linkDown_keeps
    | with_reducible apply State.put_keeps
    | with_reducible apply State.ite_keeps

theorem State.knellNow_keeps {q : List Instr} {s : State} (c : Nat) (forced : Bool) (h0 : s.Keeps q) :
    (State.knellNow s c forced).Keeps q := by
  unfold State.knellNow
  try dsimp only
  repeat' first
    | with_reducible assumption
    | intro _
    | with_reducible apply State.setNm_keeps
    | with_reducible apply State.knellPort_keeps
    | with_reducible apply State.inc_keeps
    | with_reducible apply State.ncPut_keeps
    | with_reducible apply State.foldl_keeps
    | simp only [State.Keeps.lit]
    | simp only [State.Keeps.litDm, List.length_set]
    | with_reducible apply State.ite_keeps
    | with_reducible apply State.ite_fst_keeps
    | split

theorem State.nmRestart_keeps {q : List Instr} {s : State} (c : Nat) (h0 : s.Keeps q) :
    (State.nmRestart s c).Keeps q := by
  unfold State.nmRestart
  try dsimp only
  repeat' first
    | with_reducible assumption
    | with_reducible apply State.setNm_keeps
    | with_reducible apply State.ite_keeps

theorem State.nmRequest_keeps {q : List Instr} {s : State} (c : Nat) (idx : Nat) (h0 : s.Keeps q) :
    (State.nmRequest s c idx).Keeps q := by
  unfold State.nmRequest
  try dsimp only
  repeat' first
    | with_reducible assumption
    | with_reducible apply State.nmWake_keeps
    | with_reducible apply State.nmRestart_keeps
    | with_reducible apply State.ite_keeps

theorem State.nmRelease_keeps {q : List Instr} {s : State} (c : Nat) (h0 : s.Keeps q) :
    (State.nmRelease s c).Keeps q := by
  unfold State.nmRelease
  try dsimp only
  repeat' first
    | with_reducible assumption
    | with_reducible apply State.nmRestart_keeps
    | with_reducible apply State.ite_keeps

theorem State.nmTenant_keeps {q : List Instr} {s : State} (c : Nat) (tn : Nat) (hold : Bool) (h0 : s.Keeps q) :
    (State.nmTenant s c tn hold).Keeps q := by
  unfold State.nmTenant
  try dsimp only
  repeat' first
    | with_reducible assumption
    | with_reducible apply State.nmRequest_keeps
    | with_reducible apply State.put64_keeps
    | with_reducible apply State.nmRelease_keeps
    | with_reducible apply State.ite_keeps

theorem State.nmLedger_keeps {q : List Instr} {s : State} (c : Nat) (hold : Bool) (h0 : s.Keeps q) :
    (State.nmLedger s c hold).Keeps q := by
  unfold State.nmLedger
  try dsimp only
  repeat' first
    | with_reducible assumption
    | with_reducible apply State.nmRequest_keeps
    | with_reducible apply State.put_keeps
    | with_reducible apply State.nmRelease_keeps
    | with_reducible apply State.ite_keeps

theorem State.knellDone_keeps {q : List Instr} {s : State} (c : Nat) (h0 : s.Keeps q) :
    (State.knellDone s c).Keeps q := by
  unfold State.knellDone
  try dsimp only
  repeat' first
    | with_reducible assumption
    | with_reducible apply State.setFlag_keeps
    | with_reducible apply State.enterRepeat_keeps
    | with_reducible apply State.wakeRecord_keeps
    | with_reducible apply State.ncPut_keeps
    | simp only [State.Keeps.lit]
    | with_reducible apply State.ite_keeps
    | with_reducible apply State.ite_fst_keeps
    | split

theorem State.chimeSeen_keeps {q : List Instr} {s : State} (c : Nat) (n : Nat) (node : Nat) (time : Nat) (h0 : s.Keeps
    q) :
    (State.chimeSeen s c n node time).Keeps q := by
  unfold State.chimeSeen
  try dsimp only
  repeat' first
    | with_reducible assumption
    | with_reducible apply State.nmWake_keeps
    | with_reducible apply State.put_keeps
    | with_reducible apply State.put64_keeps
    | with_reducible apply State.inc_keeps
    | with_reducible apply State.nmRestart_keeps
    | with_reducible apply State.ite_keeps

theorem State.settledPort_keeps {q : List Instr} {s : State} (p : Nat) (h0 : s.Keeps q) :
    (State.settledPort s p).Keeps q := by
  unfold State.settledPort
  try dsimp only
  repeat' first
    | with_reducible assumption
    | with_reducible apply State.setCan_keeps
    | with_reducible apply State.linkUpNow_keeps
    | with_reducible apply State.ite_keeps

theorem State.settled_keeps {q : List Instr} {s : State} (c : Nat) (h0 : s.Keeps q) :
    (State.settled s c).Keeps q := by
  unfold State.settled
  try dsimp only
  repeat' first
    | with_reducible assumption
    | intro _
    | with_reducible apply State.setNm_keeps
    | with_reducible apply State.settledPort_keeps
    | with_reducible apply State.foldl_keeps
    | simp only [State.Keeps.lit]
    | simp only [State.Keeps.litDm, List.length_set]
    | with_reducible apply State.ite_keeps
    | with_reducible apply State.ite_fst_keeps
    | split

/-! ## Gateway -/

theorem State.canList_keeps {q : List Instr} {s : State} (ch : Nat) (out : Bool) (ide : Bool) (id : Nat) (h0 : s.Keeps
    q) :
    (State.canList s ch out ide id).1.Keeps q := by
  unfold State.canList
  try dsimp only
  repeat' first
    | with_reducible assumption
    | simp only [State.Keeps.lit]
    | with_reducible apply State.ite_keeps
    | with_reducible apply State.ite_fst_keeps
    | split

theorem State.canList_keeps_eq {q : List Instr} {s : State} {ch : Nat} {out : Bool} {ide : Bool} {id : Nat} (h0 :
    s.Keeps q) {u : State} {w : CanVerdict}
    (e : State.canList s ch out ide id = (u, w)) : u.Keeps q := by
  have hu : (State.canList s ch out ide id).1.Keeps q := by apply State.canList_keeps <;> assumption
  rw [e] at hu
  exact hu

theorem State.canDenied_keeps {q : List Instr} {s : State} (ch : Nat) (out : Bool) (v : CanVerdict) (h0 : s.Keeps q) :
    (State.canDenied s ch out v).Keeps q := by
  unfold State.canDenied
  try dsimp only
  repeat' first
    | with_reducible assumption
    | with_reducible apply State.setFlag_keeps
    | with_reducible apply State.inc_keeps
    | with_reducible apply State.ite_keeps

theorem State.xlate_keeps {q : List Instr} {s : State} (f : Frame) (n : Nat) (h0 : s.Keeps q) :
    (State.xlate s f n).1.Keeps q := by
  unfold State.xlate
  try dsimp only
  repeat' first
    | with_reducible assumption
    | with_reducible apply State.lookup_keeps
    | with_reducible refine State.lookup_keeps_eq ?_ ‹_›
    | simp only [State.Keeps.lit]
    | with_reducible apply State.ite_keeps
    | with_reducible apply State.ite_fst_keeps
    | split

theorem State.xlate_keeps_eq {q : List Instr} {s : State} {f : Frame} {n : Nat} (h0 : s.Keeps q) {u : State} {w : Xlate}
    (e : State.xlate s f n = (u, w)) : u.Keeps q := by
  have hu : (State.xlate s f n).1.Keeps q := by apply State.xlate_keeps <;> assumption
  rw [e] at hu
  exact hu

/-! ## Classify -/

theorem State.leaveEra_keeps {q : List Instr} {s : State} (h0 : s.Keeps q) : (State.leaveEra s).Keeps q := by
  unfold State.leaveEra
  split
  · exact h0
  · next x hx =>
    have h1 := State.withEra_keeps (State.era_wf h0.inv hx) h0
    refine ⟨{ h1.inv with eras := List.all_eq_true.mpr fun x hx => ?_ }, h1.queue⟩
    exact List.all_eq_true.mp h0.inv.eras x (mem_tabDel hx).1

theorem State.setBkt_keeps {q : List Instr} {s : State} (b : Nat) (x : Bucket) (h0 : s.Keeps q) :
    (State.setBkt s b x).Keeps q := by
  unfold State.setBkt
  try dsimp only
  repeat' first
    | with_reducible assumption
    | intro _
    | with_reducible apply State.foldl_keeps
    | simp only [State.Keeps.lit]
    | simp only [State.Keeps.litDm, List.length_set]
    | with_reducible apply State.ite_keeps
    | with_reducible apply State.ite_fst_keeps
    | split

theorem State.fragInsert_keeps {q : List Instr} {s : State} (pl : Plane) (b_e : FragEntry) (h0 : s.Keeps q) :
    (State.fragInsert s pl b_e).Keeps q := by
  unfold State.fragInsert
  try dsimp only
  repeat' first
    | with_reducible assumption
    | with_reducible apply State.setPlane_keeps
    | with_reducible apply State.setFlag_keeps
    | with_reducible apply State.inc_keeps
    | with_reducible apply State.ite_keeps

theorem State.learnLook_keeps {q : List Instr} {s : State} (pl : Plane) (f : Frame) (h0 : s.Keeps q) :
    (State.learnLook s pl f).Keeps q := by
  unfold State.learnLook
  try dsimp only
  repeat' first
    | with_reducible assumption
    | with_reducible apply State.setPlane_keeps
    | with_reducible apply State.setFlag_keeps
    | with_reducible apply State.markHit_keeps
    | with_reducible apply State.inc_keeps
    | with_reducible apply State.lookup_keeps
    | with_reducible refine State.lookup_keeps_eq ?_ ‹_›
    | simp only [State.Keeps.lit]
    | with_reducible apply State.ite_keeps
    | with_reducible apply State.ite_fst_keeps
    | split

theorem State.genNumber_keeps {q : List Instr} {s : State} (f : Frame) (h0 : s.Keeps q) :
    (State.genNumber s f).1.Keeps q := by
  unfold State.genNumber
  try dsimp only
  repeat' first
    | with_reducible assumption
    | with_reducible apply State.put_keeps
    | with_reducible apply State.inc_keeps
    | simp only [State.Keeps.lit]
    | with_reducible apply State.ite_keeps
    | with_reducible apply State.ite_fst_keeps
    | split

theorem State.genNumber_keeps_eq {q : List Instr} {s : State} {f : Frame} (h0 : s.Keeps q) {u : State} {w : Option Nat}
    (e : State.genNumber s f = (u, w)) : u.Keeps q := by
  have hu : (State.genNumber s f).1.Keeps q := by apply State.genNumber_keeps <;> assumption
  rw [e] at hu
  exact hu

theorem State.police_keeps {q : List Instr} {s : State} (f : Frame) (h0 : s.Keeps q) :
    (State.police s f).1.Keeps q := by
  unfold State.police
  try dsimp only
  repeat' first
    | with_reducible assumption
    | with_reducible apply State.setFlag_keeps
    | with_reducible apply State.drop_keeps
    | with_reducible apply State.put_keeps
    | with_reducible apply State.inc_keeps
    | simp only [State.Keeps.lit]
    | with_reducible apply State.ite_keeps
    | with_reducible apply State.ite_fst_keeps
    | split

theorem State.police_keeps_eq {q : List Instr} {s : State} {f : Frame} (h0 : s.Keeps q) {u : State} {w : Option Frame}
    (e : State.police s f = (u, w)) : u.Keeps q := by
  have hu : (State.police s f).1.Keeps q := by apply State.police_keeps <;> assumption
  rw [e] at hu
  exact hu

theorem State.fwTrace_keeps {q : List Instr} {s : State} (pl : Plane) (f : Frame) (b_w : Walk) (d : Decision) (count :
    Bool) (r : FwRes) (h0 : s.Keeps q) :
    (State.fwTrace s pl f b_w d count r).Keeps q := by
  unfold State.fwTrace
  try dsimp only
  repeat' first
    | with_reducible assumption
    | with_reducible apply State.setPlane_keeps
    | with_reducible apply State.markHit_keeps
    | with_reducible apply State.inc_keeps
    | with_reducible apply State.lookup_keeps
    | with_reducible refine State.lookup_keeps_eq ?_ ‹_›
    | simp only [State.Keeps.lit]
    | with_reducible apply State.ite_keeps
    | with_reducible apply State.ite_fst_keeps
    | split

theorem State.stageLook_keeps {q : List Instr} {s : State} (pl : Plane) (f : Frame) (b_w : Walk) (hits : Tab Nat) (t :
    Nat) (h0 : s.Keeps q) :
    (State.stageLook s pl f b_w hits t).1.Keeps q := by
  unfold State.stageLook
  try dsimp only
  repeat' first
    | with_reducible assumption
    | with_reducible apply State.lpmLookup_keeps
    | with_reducible refine State.lpmLookup_keeps_eq ?_ ‹_›
    | with_reducible apply State.lookup_keeps
    | with_reducible refine State.lookup_keeps_eq ?_ ‹_›
    | simp only [State.Keeps.lit]
    | with_reducible apply State.ite_keeps
    | with_reducible apply State.ite_fst_keeps
    | split

theorem State.stageLook_keeps_eq {q : List Instr} {s : State} {pl : Plane} {f : Frame} {b_w : Walk} {hits : Tab Nat} {t
    : Nat} (h0 : s.Keeps q) {u : State} {w : StageRes}
    (e : State.stageLook s pl f b_w hits t = (u, w)) : u.Keeps q := by
  have hu : (State.stageLook s pl f b_w hits t).1.Keeps q := by apply State.stageLook_keeps <;> assumption
  rw [e] at hu
  exact hu

theorem State.parkRefused_keeps {q : List Instr} {s : State} (pl : Plane) (ri : Nat) (pgs : List Nat) (h0 : s.Keeps q) :
    ∀ u, State.parkRefused s pl ri pgs = some u → u.Keeps q := by
  intro u hu
  unfold State.parkRefused at hu
  dsimp only at hu
  repeat' split at hu
  all_goals cases hu
  all_goals first
    | exact h0
    | exact State.inc_keeps _ h0
    | exact State.memErr_keeps _ _ (State.setFlag_keeps _ (State.inc_keeps _ h0))

theorem State.parkRefused_keeps_eq {q : List Instr} {s : State} {pl : Plane} {ri : Nat} {pgs : List Nat} (h0 : s.Keeps
    q) {u : State}
    (e : State.parkRefused s pl ri pgs = some u) : u.Keeps q := by
  revert u e
  apply State.parkRefused_keeps <;> assumption

theorem State.stagesFrom_keeps {q : List Instr} {s : State} (pl : Plane) (f : Frame) (b_w : Walk) (a4 : Nat) (a5 : Nat)
    (a6 : Tab Nat) (h0 : s.Keeps q) :
    (State.stagesFrom s pl f b_w a4 a5 a6).1.Keeps q := by
  fun_induction State.stagesFrom s pl f b_w a4 a5 a6
  all_goals try dsimp only
  all_goals repeat' first
    | with_reducible assumption
    | with_reducible refine State.parkRefused_keeps_eq ?_ ‹_›
    | with_reducible apply State.stageLook_keeps
    | with_reducible refine State.stageLook_keeps_eq ?_ ‹_›
    | with_reducible apply_assumption
    | simp only [State.Keeps.lit]
    | with_reducible apply State.ite_keeps
    | with_reducible apply State.ite_fst_keeps
    | split

theorem State.stagesFrom_keeps_eq {q : List Instr} {s : State} {pl : Plane} {f : Frame} {b_w : Walk} {a4 : Nat} {a5 :
    Nat} {a6 : Tab Nat} (h0 : s.Keeps q) {u : State} {w : Tab Nat × Option ParkAt}
    (e : State.stagesFrom s pl f b_w a4 a5 a6 = (u, w)) : u.Keeps q := by
  have hu : (State.stagesFrom s pl f b_w a4 a5 a6).1.Keeps q := by apply State.stagesFrom_keeps <;> assumption
  rw [e] at hu
  exact hu

theorem State.startReads_keeps {q : List Instr} {s : State} (pl : Plane) (ri : Nat) (pgs : List Nat) (h0 : s.Keeps q) :
    (State.startReads s pl ri pgs).Keeps q := by
  unfold State.startReads
  try dsimp only
  repeat' first
    | with_reducible assumption
    | with_reducible apply State.setPlane_keeps
    | with_reducible apply State.ite_keeps

theorem State.enterEra_keeps {q : List Instr} {s : State} (n : Nat) (h0 : s.Keeps q) : (State.enterEra s n).Keeps q := by
  unfold State.enterEra
  split
  · exact h0
  · next x hx =>
    have h1 := State.withEra_keeps (State.era_wf h0.inv hx) h0
    refine ⟨{ h1.inv with eras := List.all_eq_true.mpr fun x hx => ?_ }, h1.queue⟩
    rcases mem_tabPut hx with rfl | hx
    · exact h0.inv.active
    · exact List.all_eq_true.mp h0.inv.eras x hx

theorem State.newEra_keeps {q : List Instr} {s : State} (h0 : s.Keeps q) : (State.newEra s).Keeps q := by
  refine ⟨{ h0.inv with eras := List.all_eq_true.mpr fun x hx => ?_ }, h0.queue⟩
  rcases mem_tabPut hx with rfl | hx
  · exact h0.inv.active
  · exact List.all_eq_true.mp h0.inv.eras x (List.mem_filter.mp hx).1

/-! ## Admission -/

theorem State.copyDrop_keeps {q : List Instr} {s : State} (pl : Plane) (p : Nat) (h0 : s.Keeps q) :
    (State.copyDrop s pl p).Keeps q := by
  unfold State.copyDrop
  try dsimp only
  repeat' first
    | with_reducible assumption
    | with_reducible apply State.setFlag_keeps
    | with_reducible apply State.inc_keeps
    | with_reducible apply State.ite_keeps

theorem State.refused_keeps {q : List Instr} {s : State} (pl : Plane) (d : Dest) (x : Refuse) (h0 : s.Keeps q) :
    (State.refused s pl d x).Keeps q := by
  unfold State.refused
  try dsimp only
  repeat' first
    | with_reducible assumption
    | with_reducible apply State.txWake_keeps
    | with_reducible apply State.countDown_keeps
    | with_reducible apply State.inc_keeps
    | with_reducible apply State.copyDrop_keeps
    | simp only [State.Keeps.lit]
    | with_reducible apply State.ite_keeps
    | with_reducible apply State.ite_fst_keeps
    | split

theorem State.egressList_keeps {q : List Instr} {s : State} (f : Frame) (p : Nat) (ide : Bool) (id : Nat) (h0 : s.Keeps
    q) :
    (State.egressList s f p ide id).1.Keeps q := by
  unfold State.egressList
  try dsimp only
  repeat' first
    | with_reducible assumption
    | with_reducible apply State.canList_keeps
    | with_reducible refine State.canList_keeps_eq ?_ ‹_›
    | with_reducible apply State.inc_keeps
    | with_reducible apply State.canDenied_keeps
    | simp only [State.Keeps.lit]
    | with_reducible apply State.ite_keeps
    | with_reducible apply State.ite_fst_keeps
    | split

theorem State.egressList_keeps_eq {q : List Instr} {s : State} {f : Frame} {p : Nat} {ide : Bool} {id : Nat} (h0 :
    s.Keeps q) {u : State} {w : Bool}
    (e : State.egressList s f p ide id = (u, w)) : u.Keeps q := by
  have hu : (State.egressList s f p ide id).1.Keeps q := by apply State.egressList_keeps <;> assumption
  rw [e] at hu
  exact hu

theorem State.ringFor_keeps {q : List Instr} {s : State} (f : Frame) (p : Nat) (h0 : s.Keeps q) :
    (State.ringFor s f p).1.Keeps q := by
  unfold State.ringFor
  try dsimp only
  repeat' first
    | with_reducible assumption
    | intro _
    | with_reducible apply State.foldl_keeps
    | simp only [State.Keeps.lit]
    | simp only [State.Keeps.litDm, List.length_set]
    | with_reducible apply State.ite_keeps
    | with_reducible apply State.ite_fst_keeps
    | split

theorem State.ringFor_keeps_eq {q : List Instr} {s : State} {f : Frame} {p : Nat} (h0 : s.Keeps q) {u : State} {w : Nat}
    (e : State.ringFor s f p = (u, w)) : u.Keeps q := by
  have hu : (State.ringFor s f p).1.Keeps q := by apply State.ringFor_keeps <;> assumption
  rw [e] at hu
  exact hu

theorem State.sentExc_keeps {q : List Instr} {s : State} (d : Dest) (h0 : s.Keeps q) :
    (State.sentExc s d).Keeps q := by
  unfold State.sentExc
  try dsimp only
  repeat' first
    | with_reducible assumption
    | with_reducible apply State.inc_keeps
    | with_reducible apply State.ite_keeps

theorem State.enqueue_keeps {q : List Instr} {s : State} (pl : Plane) (p : Nat) (tc : Nat) (b_e : QEntry) (h0 : s.Keeps
    q) :
    (State.enqueue s pl p tc b_e).Keeps q := by
  unfold State.enqueue
  try dsimp only
  repeat' first
    | with_reducible assumption
    | with_reducible apply State.setQueue_keeps
    | with_reducible apply State.ite_keeps

theorem State.putPlaceholder_keeps {q : List Instr} (f : Frame) {acc : State × List CopyJob} (d : Dest) (h0 :
    acc.1.Keeps q) :
    (State.putPlaceholder f acc d).1.Keeps q := by
  unfold State.putPlaceholder
  try dsimp only
  repeat' first
    | with_reducible assumption
    | with_reducible apply State.enqueue_keeps
    | with_reducible apply State.sentExc_keeps
    | with_reducible apply State.ringFor_keeps
    | with_reducible refine State.ringFor_keeps_eq ?_ ‹_›
    | simp only [State.Keeps.lit]
    | with_reducible apply State.ite_keeps
    | with_reducible apply State.ite_fst_keeps
    | split

theorem Admit.one_keeps {q : List Instr} (f : Frame) {a : Admit} (d : Dest) (h0 : a.st.Keeps q) : (Admit.one f a
    d).st.Keeps q := by
  have hl : ∀ (t : State) (g : Frame) (b : Admit), t.Keeps q → (match t.egressList f d.port g.ide (g.id % 2 ^ 29) with
      | (s1, true) => { b with st := s1, why := 0x08 }
      | (s1, false) => { b with st := s1, acc := a.acc ++ [d], frame := if a.acc.isEmpty then g else a.frame }).st.Keeps
          q := by
    intro t g b ht
    split
    · next e => exact State.egressList_keeps_eq ht e
    · next e => exact State.egressList_keeps_eq ht e
  have hx : ∀ (n : Nat) (u : State) (x : Xlate),
      (if a.acc.isEmpty = true then a.st.xlate f n else (a.st, a.st.xlatePeek f n)) = (u, x) → u.Keeps q := by
    intro n u x e
    split at e
    · exact State.xlate_keeps_eq h0 e
    · cases e
      exact h0
  unfold Admit.one
  dsimp only
  split
  · exact State.refused_keeps _ _ _ h0
  · split
    · exact h0
    · split
      · next e => exact hl _ _ _ (hx _ _ _ e)
      · next e => exact hl _ _ _ (hx _ _ _ e)
      · next e =>
        split
        · exact State.inc_keeps _ (hx _ _ _ e)
        · exact hx _ _ _ e
      · next e =>
        split
        · exact State.inc_keeps _ (hx _ _ _ e)
        · exact hx _ _ _ e

theorem State.admission_keeps {q : List Instr} {s : State} (f : Frame) (ds : List Dest) (h0 : s.Keeps q) :
    (State.admission s f ds).Keeps q := by
  have h1 : ∀ (l : List Dest) (a : Admit), a.st.Keeps q → (l.foldl (Admit.one f) a).st.Keeps q := by
    intro l
    induction l with
    | nil => exact fun _ h => h
    | cons d l ih => exact fun a h => ih _ (Admit.one_keeps f d h)
  have h2 := h1 ds ⟨s, [], f, 0⟩ h0
  unfold State.admission
  dsimp only
  generalize ds.foldl (Admit.one f) ⟨s, [], f, 0⟩ = a at h2 ⊢
  split
  · split
    · exact State.release_keeps _ h2
    · exact State.drop_keeps _ _ h2
  · split
    · exact State.drop_keeps _ _ (State.setFlag_keeps _ (State.inc_keeps _ h2))
    · next d rest _ _ =>
      have h4 := State.sentExc_keeps d (State.enqueue_keeps f.plane d.port f.tc
        (.frame (a.frame.forDest d.rx (a.st.ringFor f d.port).2)) (State.ringFor_keeps f d.port h2))
      split
      · exact h4
      · exact State.setPlane_keeps _ _ (State.foldl_fst_keeps (fun p d hp => State.putPlaceholder_keeps f d hp) _ h4)

theorem State.copyDone_keeps {q : List Instr} {s : State} (pl : Plane) (h0 : s.Keeps q) :
    (State.copyDone s pl).Keeps q := by
  unfold State.copyDone
  try dsimp only
  repeat' first
    | with_reducible assumption
    | with_reducible apply State.setPlane_keeps
    | simp only [State.Keeps.lit]
    | with_reducible apply State.ite_keeps
    | with_reducible apply State.ite_fst_keeps
    | split

theorem State.copyGone_keeps {q : List Instr} {s : State} (pl : Plane) (f : Frame) (k : CopyJob) (h0 : s.Keeps q) :
    (State.copyGone s pl f k).Keeps q := by
  unfold State.copyGone
  try dsimp only
  repeat' first
    | with_reducible assumption
    | with_reducible apply State.setQueue_keeps
    | with_reducible apply State.classEmptied_keeps
    | with_reducible apply State.settleHead_keeps
    | with_reducible apply State.copyDone_keeps
    | with_reducible apply State.ite_keeps

theorem State.writeCopy_keeps {q : List Instr} {s : State} (pl : Plane) (f : Frame) (k : CopyJob) (b_h : Nat × Nat) (h0
    : s.Keeps q) :
    (State.writeCopy s pl f k b_h).Keeps q := by
  unfold State.writeCopy
  try dsimp only
  repeat' first
    | with_reducible assumption
    | with_reducible apply State.setQueue_keeps
    | with_reducible apply State.xlate_keeps
    | with_reducible refine State.xlate_keeps_eq ?_ ‹_›
    | with_reducible apply State.inc_keeps
    | with_reducible apply State.copyGone_keeps
    | with_reducible apply State.release_keeps
    | with_reducible apply State.copyDone_keeps
    | simp only [State.Keeps.lit]
    | with_reducible apply State.ite_keeps
    | with_reducible apply State.ite_fst_keeps
    | split

theorem State.copyRequest_keeps {q : List Instr} {s : State} (pl : Plane) (start : Nat) (p : Nat) (f : Frame) (k :
    CopyJob) (h0 : s.Keeps q) :
    (State.copyRequest s pl start p f k).Keeps q := by
  unfold State.copyRequest
  try dsimp only
  repeat' first
    | with_reducible assumption
    | with_reducible apply State.setPlane_keeps
    | with_reducible apply State.popBuf_keeps
    | with_reducible refine State.popBuf_keeps_eq ?_ ‹_›
    | with_reducible apply State.allocLost_keeps
    | with_reducible apply State.inc_keeps
    | with_reducible apply State.copyDrop_keeps
    | with_reducible apply State.writeCopy_keeps
    | with_reducible apply State.copyGone_keeps
    | simp only [State.Keeps.lit]
    | with_reducible apply State.ite_keeps
    | with_reducible apply State.ite_fst_keeps
    | split

theorem execAllocSpill_keeps {q : List Instr} (pl : Plane) {s : State} (h0 : s.Keeps q) :
    ∃ u, execAllocSpill pl s = .next u ∧ u.Keeps q := by
  refine ⟨_, rfl, ?_⟩
  try dsimp only
  repeat' first
    | with_reducible assumption
    | with_reducible apply State.copyRequest_keeps
    | simp only [State.Keeps.lit]
    | with_reducible apply State.ite_keeps
    | with_reducible apply State.ite_fst_keeps
    | split

theorem execBufferReturnPush_keeps {q : List Instr} (pl : Plane) (pool : Nat) {s : State} (h0 : s.Keeps q) :
    ∃ u, execBufferReturnPush pl pool s = .next u ∧ u.Keeps q := by
  refine ⟨_, rfl, ?_⟩
  try dsimp only
  repeat' first
    | with_reducible assumption
    | with_reducible apply State.setPlane_keeps
    | with_reducible apply State.ite_keeps

theorem State.copyWaits_keeps {q : List Instr} {s : State} (pl : Plane) (f : Frame) (k : CopyJob) (h0 : s.Keeps q) :
    (State.copyWaits s pl f k).1.Keeps q := by
  unfold State.copyWaits
  try dsimp only
  repeat' first
    | with_reducible assumption
    | with_reducible refine State.parkRefused_keeps_eq ?_ ‹_›
    | with_reducible apply State.inc_keeps
    | with_reducible apply State.startReads_keeps
    | simp only [State.Keeps.lit]
    | with_reducible apply State.ite_keeps
    | with_reducible apply State.ite_fst_keeps
    | split

theorem State.copyWaits_keeps_eq {q : List Instr} {s : State} {pl : Plane} {f : Frame} {k : CopyJob} (h0 : s.Keeps q) {u
    : State} {w : Bool}
    (e : State.copyWaits s pl f k = (u, w)) : u.Keeps q := by
  have hu : (State.copyWaits s pl f k).1.Keeps q := by apply State.copyWaits_keeps <;> assumption
  rw [e] at hu
  exact hu

theorem execCopyWrite_keeps {q : List Instr} (pl : Plane) {s : State} (h0 : s.Keeps q) :
    ∃ u, execCopyWrite pl s = .next u ∧ u.Keeps q := by
  refine ⟨_, rfl, ?_⟩
  try dsimp only
  repeat' first
    | with_reducible assumption
    | with_reducible apply State.copyRequest_keeps
    | with_reducible apply State.copyWaits_keeps
    | with_reducible refine State.copyWaits_keeps_eq ?_ ‹_›
    | with_reducible apply State.allocLost_keeps
    | with_reducible apply State.copyDrop_keeps
    | with_reducible apply State.copyGone_keeps
    | simp only [State.Keeps.lit]
    | with_reducible apply State.ite_keeps
    | with_reducible apply State.ite_fst_keeps
    | split

/-! ## FramePath -/

theorem State.captureIn_keeps {q : List Instr} {s : State} (f : Frame) (h0 : s.Keeps q) :
    (State.captureIn s f).Keeps q := by
  unfold State.captureIn
  try dsimp only
  repeat' first
    | with_reducible assumption
    | with_reducible apply State.capture_keeps
    | with_reducible apply State.ite_keeps

theorem State.countLoad_keeps {q : List Instr} {s : State} (f : Frame) (crit : Bool) (h0 : s.Keeps q) :
    (State.countLoad s f crit).Keeps q := by
  unfold State.countLoad
  try dsimp only
  repeat' first
    | with_reducible assumption
    | with_reducible apply State.setBkt_keeps
    | with_reducible apply State.put_keeps
    | with_reducible apply State.ite_keeps

theorem State.crossCopy_keeps {q : List Instr} {s : State} (f : Frame) (d : Dest) (h0 : s.Keeps q) :
    (State.crossCopy s f d).Keeps q := by
  unfold State.crossCopy
  try dsimp only
  repeat' first
    | with_reducible assumption
    | with_reducible apply State.admission_keeps
    | with_reducible apply State.inc_keeps
    | with_reducible apply State.copyDrop_keeps
    | with_reducible apply State.alloc_keeps
    | with_reducible refine State.alloc_keeps_eq ?_ ‹_›
    | simp only [State.Keeps.lit]
    | with_reducible apply State.ite_keeps
    | with_reducible apply State.ite_fst_keeps
    | split

theorem State.exceptionCopy_keeps {q : List Instr} {s : State} (f : Frame) (d : Dest) {token : State → State × Bool}
    (h0 : s.Keeps q) (h1 : ∀ (t : State), t.Keeps q → (token t).1.Keeps q) :
    (State.exceptionCopy s f d token).1.Keeps q := by
  unfold State.exceptionCopy
  have h2 := h1 s h0
  split
  · exact h0
  · split
    · next e =>
      rw [e] at h2
      exact h2
    · next e =>
      rw [e] at h2
      split
      · exact h2
      · exact State.crossCopy_keeps _ _ h2

theorem State.exceptionCopy_keeps_eq {q : List Instr} {s : State} {f : Frame} {d : Dest} {token : State → State × Bool}
    (h0 : s.Keeps q) (h1 : ∀ (t : State), t.Keeps q → (token t ).1.Keeps q) {u : State} {w : List Dest}
    (e : State.exceptionCopy s f d token = (u, w)) : u.Keeps q := by
  have hu : (State.exceptionCopy s f d token).1.Keeps q := by apply State.exceptionCopy_keeps <;> assumption
  rw [e] at hu
  exact hu

theorem State.excToken_keeps {q : List Instr} {s : State} (h0 : s.Keeps q) :
    (State.excToken s).1.Keeps q := by
  unfold State.excToken
  try dsimp only
  repeat' first
    | with_reducible assumption
    | with_reducible apply State.setFlag_keeps
    | with_reducible apply State.put_keeps
    | with_reducible apply State.inc_keeps
    | simp only [State.Keeps.lit]
    | with_reducible apply State.ite_keeps
    | with_reducible apply State.ite_fst_keeps
    | split

theorem State.excToken_keeps_eq {q : List Instr} {s : State} (h0 : s.Keeps q) {u : State} {w : Bool}
    (e : State.excToken s = (u, w)) : u.Keeps q := by
  have hu : (State.excToken s).1.Keeps q := by apply State.excToken_keeps <;> assumption
  rw [e] at hu
  exact hu

theorem State.parseError_keeps {q : List Instr} {s : State} (f0 : Frame) (b_e : Nat × Nat × Nat) (h0 : s.Keeps q) :
    (State.parseError s f0 b_e).Keeps q := by
  unfold State.parseError
  try dsimp only
  repeat' first
    | with_reducible assumption
    | with_reducible apply State.countLoad_keeps
    | with_reducible apply State.setFlag_keeps
    | with_reducible apply State.leaveEra_keeps
    | with_reducible apply State.admission_keeps
    | with_reducible apply State.drop_keeps
    | with_reducible apply State.excToken_keeps
    | with_reducible refine State.excToken_keeps_eq ?_ ‹_›
    | with_reducible apply State.put_keeps
    | with_reducible apply State.inc_keeps
    | with_reducible apply State.exceptionCopy_keeps
    | with_reducible refine State.exceptionCopy_keeps_eq ?_ ?_ ‹_›
    | with_reducible apply State.release_keeps
    | with_reducible apply State.captureIn_keeps
    | simp only [State.Keeps.lit]
    | with_reducible apply State.ite_keeps
    | with_reducible apply State.ite_fst_keeps
    | split

theorem State.mgmtHeld_keeps {q : List Instr} {s : State} (f0 : Frame) (d : Decision) (h0 : s.Keeps q) :
    (State.mgmtHeld s f0 d).Keeps q := by
  unfold State.mgmtHeld
  try dsimp only
  repeat' first
    | with_reducible assumption
    | with_reducible apply State.countLoad_keeps
    | with_reducible apply State.setPlane_keeps
    | with_reducible apply State.inc_keeps
    | with_reducible apply State.release_keeps
    | with_reducible apply State.captureIn_keeps
    | with_reducible apply State.ite_keeps

theorem State.quiet_keeps {q : List Instr} {s0 : State} {s1 : State} (pl : Plane) (h0 : s0.Keeps q) (h1 : s1.Keeps q) :
    (State.quiet s0 s1 pl).Keeps q := by
  unfold State.quiet
  try dsimp only
  repeat' first
    | with_reducible assumption
    | intro _
    | with_reducible apply h1
    | with_reducible apply State.put_keeps
    | with_reducible apply State.foldl_keeps
    | simp only [State.Keeps.lit]
    | simp only [State.Keeps.litDm, List.length_set]
    | with_reducible apply State.ite_keeps
    | with_reducible apply State.ite_fst_keeps
    | split

theorem State.if4Token_keeps {q : List Instr} {s : State} (h0 : s.Keeps q) :
    (State.if4Token s).1.Keeps q := by
  unfold State.if4Token
  try dsimp only
  repeat' first
    | with_reducible assumption
    | with_reducible apply State.setFlag_keeps
    | with_reducible apply State.inc_keeps
    | simp only [State.Keeps.lit]
    | with_reducible apply State.ite_keeps
    | with_reducible apply State.ite_fst_keeps
    | split

theorem State.if4Token_keeps_eq {q : List Instr} {s : State} (h0 : s.Keeps q) {u : State} {w : Bool}
    (e : State.if4Token s = (u, w)) : u.Keeps q := by
  have hu : (State.if4Token s).1.Keeps q := by apply State.if4Token_keeps <;> assumption
  rw [e] at hu
  exact hu

theorem State.dispatch_keeps {q : List Instr} {s : State} (f : Frame) (d : Decision) (ports : List Nat) (lost : Bool)
    (cause : Option (Nat × Nat × Nat)) (h0 : s.Keeps q) :
    (State.dispatch s f d ports lost cause).Keeps q := by
  unfold State.dispatch
  try dsimp only
  repeat' first
    | with_reducible assumption
    | with_reducible apply State.if4Token_keeps
    | with_reducible refine State.if4Token_keeps_eq ?_ ‹_›
    | with_reducible apply State.admission_keeps
    | with_reducible apply State.excToken_keeps
    | with_reducible refine State.excToken_keeps_eq ?_ ‹_›
    | with_reducible apply State.inc_keeps
    | with_reducible apply State.exceptionCopy_keeps
    | with_reducible refine State.exceptionCopy_keeps_eq ?_ ?_ ‹_›
    | with_reducible apply State.release_keeps
    | with_reducible apply State.capture_keeps
    | simp only [State.Keeps.lit]
    | with_reducible apply State.ite_keeps
    | with_reducible apply State.ite_fst_keeps
    | split

theorem State.decided_keeps {q : List Instr} {s : State} (f0 : Frame) (b_w : Walk) (d : Decision) (stored : Option
    FragEntry) (h0 : s.Keeps q) :
    (State.decided s f0 b_w d stored).Keeps q := by
  unfold State.decided
  try dsimp only
  repeat' first
    | with_reducible assumption
    | intro _
    | with_reducible apply State.countLoad_keeps
    | with_reducible apply State.fragInsert_keeps
    | with_reducible apply State.leaveEra_keeps
    | with_reducible apply State.genNumber_keeps
    | with_reducible refine State.genNumber_keeps_eq ?_ ‹_›
    | with_reducible apply State.learnLook_keeps
    | with_reducible apply State.dispatch_keeps
    | with_reducible apply State.police_keeps
    | with_reducible refine State.police_keeps_eq ?_ ‹_›
    | with_reducible apply State.fwTrace_keeps
    | with_reducible apply State.captureIn_keeps
    | with_reducible apply State.foldl_keeps
    | simp only [State.Keeps.lit]
    | simp only [State.Keeps.litDm, List.length_set]
    | with_reducible apply State.ite_keeps
    | with_reducible apply State.ite_fst_keeps
    | split

theorem State.countTally_keeps {q : List Instr} {s : State} (pl : Plane) (t : List Nat) (h0 : s.Keeps q) :
    (State.countTally s pl t).Keeps q := by
  unfold State.countTally
  try dsimp only
  repeat' first
    | with_reducible assumption
    | intro _
    | with_reducible apply State.addCnt_keeps
    | with_reducible apply State.foldl_keeps
    | simp only [State.Keeps.lit]
    | simp only [State.Keeps.litDm, List.length_set]
    | with_reducible apply State.ite_keeps
    | with_reducible apply State.ite_fst_keeps
    | split

theorem State.conclude_keeps {q : List Instr} {s0 : State} {s1 : State} (f : Frame) (b_w : Walk) (d : Decision) (stored
    : Option FragEntry) (tally : List Nat) (h0 : s0.Keeps q) (h1 : s1.Keeps q) :
    (State.conclude s0 s1 f b_w d stored tally).Keeps q := by
  unfold State.conclude
  try dsimp only
  repeat' first
    | with_reducible assumption
    | intro _
    | with_reducible apply h1
    | with_reducible apply State.mgmtHeld_keeps
    | with_reducible apply State.quiet_keeps
    | with_reducible apply State.decided_keeps
    | with_reducible apply State.countTally_keeps
    | with_reducible apply State.release_keeps
    | with_reducible apply State.ite_keeps

theorem State.classifyFrom_keeps {q : List Instr} {s : State} (f : Frame) (b_w : Walk) (k : Nat) (hits : Tab Nat)
    (h0 : s.Keeps q) : (State.classifyFrom s f b_w k hits).1.Keeps q := by
  have hr : ∀ (t : State) (n : Nat) (x : Option (Nat × List Nat)), t.Keeps q → (match x with
      | none => (t, none)
      | some (ri, pgs) =>
        match t.parkRefused f.plane ri pgs with
        | some s2 => (s2, none)
        | none => (t, some (⟨n, ri, pgs⟩ : ParkAt)) : State × Option ParkAt).1.Keeps q := by
    intro t n x ht
    split
    · exact ht
    · split
      · next e => exact State.parkRefused_keeps_eq ht e
      · exact ht
  have hq : ∀ (x : State × Option ParkAt) (u : State) (p : Option ParkAt), x = (u, p) → x.1.Keeps q → u.Keeps q := by
    intro x u p e hx
    rw [e] at hx
    exact hx
  unfold State.classifyFrom
  dsimp only
  split
  · next e => exact State.stagesFrom_keeps_eq h0 e
  · next e =>
    have h1 := State.stagesFrom_keeps_eq h0 e
    split
    · next e2 => exact hq _ _ _ e2 (hr _ _ _ h1)
    · next e2 => exact hr _ _ _ (hq _ _ _ e2 (hr _ _ _ h1))

theorem State.classifyFrom_keeps_eq {q : List Instr} {s : State} {f : Frame} {b_w : Walk} {k : Nat} {hits : Tab Nat} (h0
    : s.Keeps q) {u : State} {w : Tab Nat × Option ParkAt}
    (e : State.classifyFrom s f b_w k hits = (u, w)) : u.Keeps q := by
  have hu : (State.classifyFrom s f b_w k hits).1.Keeps q := by apply State.classifyFrom_keeps <;> assumption
  rw [e] at hu
  exact hu

theorem State.runCopyNow_keeps {q : List Instr} {s : State} (f : Frame) (k : Nat) (hits : Tab Nat) (tally : List Nat)
    (h0 : s.Keeps q) :
    (State.runCopyNow s f k hits tally).1.Keeps q := by
  unfold State.runCopyNow
  try dsimp only
  repeat' first
    | with_reducible assumption
    | with_reducible apply State.classifyFrom_keeps
    | with_reducible refine State.classifyFrom_keeps_eq ?_ ‹_›
    | with_reducible apply State.conclude_keeps
    | with_reducible apply State.quiet_keeps
    | with_reducible apply State.inc_keeps
    | with_reducible apply State.startReads_keeps
    | with_reducible apply State.parseError_keeps
    | with_reducible apply State.release_keeps
    | simp only [State.Keeps.lit]
    | with_reducible apply State.ite_keeps
    | with_reducible apply State.ite_fst_keeps
    | split

theorem State.runCopy_keeps {q : List Instr} {s : State} (f : Frame) (k : Nat) (hits : Tab Nat) (tally : List Nat) (h0 :
    s.Keeps q) :
    (State.runCopy s f k hits tally).1.Keeps q := by
  unfold State.runCopy
  try dsimp only
  repeat' first
    | with_reducible assumption
    | with_reducible apply State.runCopyNow_keeps
    | with_reducible apply State.leaveEra_keeps
    | with_reducible apply State.enterEra_keeps
    | with_reducible apply State.ite_keeps

theorem State.runCopy_keeps_eq {q : List Instr} {s : State} {f : Frame} {k : Nat} {hits : Tab Nat} {tally : List Nat}
    (h0 : s.Keeps q) {u : State} {w : Option Parked}
    (e : State.runCopy s f k hits tally = (u, w)) : u.Keeps q := by
  have hu : (State.runCopy s f k hits tally).1.Keeps q := by apply State.runCopy_keeps <;> assumption
  rw [e] at hu
  exact hu

theorem State.resumeOne_keeps {q : List Instr} {s : State} (pl : Plane) (h0 : s.Keeps q) :
    (State.resumeOne s pl).1.Keeps q := by
  unfold State.resumeOne
  try dsimp only
  repeat' first
    | with_reducible assumption
    | with_reducible apply State.setPlane_keeps
    | with_reducible apply State.runCopy_keeps
    | with_reducible refine State.runCopy_keeps_eq ?_ ‹_›
    | simp only [State.Keeps.lit]
    | with_reducible apply State.ite_keeps
    | with_reducible apply State.ite_fst_keeps
    | split

theorem State.resumeOne_keeps_eq {q : List Instr} {s : State} {pl : Plane} (h0 : s.Keeps q) {u : State} {w : Bool}
    (e : State.resumeOne s pl = (u, w)) : u.Keeps q := by
  have hu : (State.resumeOne s pl).1.Keeps q := by apply State.resumeOne_keeps <;> assumption
  rw [e] at hu
  exact hu

theorem State.resumeParked_keeps {q : List Instr} {s : State} (a1 : Nat) (h0 : s.Keeps q) :
    (State.resumeParked s a1).Keeps q := by
  fun_induction State.resumeParked s a1
  all_goals try dsimp only
  all_goals repeat' first
    | with_reducible assumption
    | with_reducible apply State.resumeOne_keeps
    | with_reducible refine State.resumeOne_keeps_eq ?_ ‹_›
    | with_reducible apply_assumption
    | simp only [State.Keeps.lit]
    | with_reducible apply State.ite_keeps
    | with_reducible apply State.ite_fst_keeps
    | split

theorem State.resumeAll_keeps {q : List Instr} {s : State} (h0 : s.Keeps q) :
    (State.resumeAll s).Keeps q := by
  unfold State.resumeAll
  try dsimp only
  repeat' first
    | with_reducible assumption
    | with_reducible apply State.resumeParked_keeps
    | with_reducible apply State.ite_keeps

theorem State.park_keeps {q : List Instr} {s : State} (pl : Plane) (x : Parked) (h0 : s.Keeps q) :
    (State.park s pl x).Keeps q := by
  unfold State.park
  try dsimp only
  repeat' first
    | with_reducible assumption
    | with_reducible apply State.setPlane_keeps
    | with_reducible apply State.ite_keeps

theorem State.readAhead_keeps {q : List Instr} {s : State} (f : Frame) (h0 : s.Keeps q) :
    (State.readAhead s f).Keeps q := by
  unfold State.readAhead
  try dsimp only
  repeat' first
    | with_reducible assumption
    | with_reducible apply State.classifyFrom_keeps
    | with_reducible refine State.classifyFrom_keeps_eq ?_ ‹_›
    | with_reducible apply State.enterEra_keeps
    | with_reducible apply State.inc_keeps
    | with_reducible apply State.startReads_keeps
    | simp only [State.Keeps.lit]
    | with_reducible apply State.ite_keeps
    | with_reducible apply State.ite_fst_keeps
    | split

theorem State.arrive_keeps {q : List Instr} {s : State} (f : Frame) (h0 : s.Keeps q) :
    (State.arrive s f).Keeps q := by
  unfold State.arrive
  try dsimp only
  repeat' first
    | with_reducible assumption
    | with_reducible apply State.readAhead_keeps
    | with_reducible apply State.runCopy_keeps
    | with_reducible refine State.runCopy_keeps_eq ?_ ‹_›
    | with_reducible apply State.park_keeps
    | simp only [State.Keeps.lit]
    | with_reducible apply State.ite_keeps
    | with_reducible apply State.ite_fst_keeps
    | split

theorem State.arriveAll_keeps {q : List Instr} {s : State} (fs : List Frame) (h0 : s.Keeps q) :
    (State.arriveAll s fs).Keeps q := by
  unfold State.arriveAll
  try dsimp only
  repeat' first
    | with_reducible assumption
    | intro _
    | with_reducible apply State.arrive_keeps
    | with_reducible apply State.foldl_keeps
    | simp only [State.Keeps.lit]
    | simp only [State.Keeps.litDm, List.length_set]
    | with_reducible apply State.ite_keeps
    | with_reducible apply State.ite_fst_keeps
    | split

theorem State.releaseAll_keeps {q : List Instr} {s : State} (fs : List Frame) (h0 : s.Keeps q) :
    (State.releaseAll s fs).Keeps q := by
  unfold State.releaseAll
  try dsimp only
  repeat' first
    | with_reducible assumption
    | intro _
    | with_reducible apply State.release_keeps
    | with_reducible apply State.foldl_keeps
    | simp only [State.Keeps.lit]
    | simp only [State.Keeps.litDm, List.length_set]
    | with_reducible apply State.ite_keeps
    | with_reducible apply State.ite_fst_keeps
    | split

theorem State.entryBuf_keeps {q : List Instr} {s : State} (pl : Plane) (port : Nat) (tc : Nat) (bytes : List Byte) (crit
    : Bool) (h0 : s.Keeps q) :
    (State.entryBuf s pl port tc bytes crit).1.Keeps q := by
  unfold State.entryBuf
  try dsimp only
  repeat' first
    | with_reducible assumption
    | with_reducible apply State.allocIngress_keeps
    | with_reducible refine State.allocIngress_keeps_eq ?_ ‹_›
    | with_reducible apply State.alloc_keeps
    | with_reducible refine State.alloc_keeps_eq ?_ ‹_›
    | simp only [State.Keeps.lit]
    | with_reducible apply State.ite_keeps
    | with_reducible apply State.ite_fst_keeps
    | split

theorem State.entryBuf_keeps_eq {q : List Instr} {s : State} {pl : Plane} {port : Nat} {tc : Nat} {bytes : List Byte}
    {crit : Bool} (h0 : s.Keeps q) {u : State} {w : Option (Nat × Nat)}
    (e : State.entryBuf s pl port tc bytes crit = (u, w)) : u.Keeps q := by
  have hu : (State.entryBuf s pl port tc bytes crit).1.Keeps q := by apply State.entryBuf_keeps <;> assumption
  rw [e] at hu
  exact hu

theorem State.entryBufs_keeps {q : List Instr} {s : State} (port : Nat) (tc : Nat) (bytes : List Byte) (crit : Bool) (l
    : List Plane)
    (h0 : s.Keeps q) : (State.entryBufs s port tc bytes crit l).1.Keeps q := by
  induction l generalizing s with
  | nil => exact h0
  | cons pl t ih =>
    unfold State.entryBufs
    split
    · next e => exact ih (State.entryBuf_keeps_eq h0 e)
    · next e => exact ih (State.entryBuf_keeps_eq h0 e)

theorem State.entryBufs_keeps_eq {q : List Instr} {s : State} {port : Nat} {tc : Nat} {bytes : List Byte} {crit : Bool}
    {a5 : List Plane} (h0 : s.Keeps q) {u : State} {w : List (Plane × Nat × Nat)}
    (e : State.entryBufs s port tc bytes crit a5 = (u, w)) : u.Keeps q := by
  have hu : (State.entryBufs s port tc bytes crit a5).1.Keeps q := by apply State.entryBufs_keeps <;> assumption
  rw [e] at hu
  exact hu

theorem State.hold_keeps {q : List Instr} {s : State} (port : Nat) (legacy : Bool) (bytes : List Byte) (ts : List
    TbTime) (age : Nat) (tx : Option TxTsReq) (h0 : s.Keeps q) :
    (State.hold s port legacy bytes ts age tx).1.Keeps q := by
  unfold State.hold
  try dsimp only
  repeat' first
    | with_reducible assumption
    | with_reducible apply State.entryBufs_keeps
    | with_reducible refine State.entryBufs_keeps_eq ?_ ‹_›
    | with_reducible apply State.setBkt_keeps
    | simp only [State.Keeps.lit]
    | with_reducible apply State.ite_keeps
    | with_reducible apply State.ite_fst_keeps
    | split

theorem State.hold_keeps_eq {q : List Instr} {s : State} {port : Nat} {legacy : Bool} {bytes : List Byte} {ts : List
    TbTime} {age : Nat} {tx : Option TxTsReq} (h0 : s.Keeps q) {u : State} {w : Option (List Frame)}
    (e : State.hold s port legacy bytes ts age tx = (u, w)) : u.Keeps q := by
  have hu : (State.hold s port legacy bytes ts age tx).1.Keeps q := by apply State.hold_keeps <;> assumption
  rw [e] at hu
  exact hu

theorem State.receive_keeps {q : List Instr} {s : State} (port : Nat) (legacy : Bool) (bytes : List Byte) (ts : List
    TbTime) (age : Nat) (tx : Option TxTsReq) (h0 : s.Keeps q) :
    (State.receive s port legacy bytes ts age tx).1.Keeps q := by
  unfold State.receive
  try dsimp only
  repeat' first
    | with_reducible assumption
    | with_reducible apply State.hold_keeps
    | with_reducible refine State.hold_keeps_eq ?_ ‹_›
    | with_reducible apply State.arriveAll_keeps
    | simp only [State.Keeps.lit]
    | with_reducible apply State.ite_keeps
    | with_reducible apply State.ite_fst_keeps
    | split

theorem State.receive_keeps_eq {q : List Instr} {s : State} {port : Nat} {legacy : Bool} {bytes : List Byte} {ts : List
    TbTime} {age : Nat} {tx : Option TxTsReq} (h0 : s.Keeps q) {u : State} {w : Bool}
    (e : State.receive s port legacy bytes ts age tx = (u, w)) : u.Keeps q := by
  have hu : (State.receive s port legacy bytes ts age tx).1.Keeps q := by apply State.receive_keeps <;> assumption
  rw [e] at hu
  exact hu

theorem State.keepSpare_keeps {q : List Instr} {s : State} (pl : Plane) (ri : Nat) (a3 : Nat) (h0 : s.Keeps q) :
    (State.keepSpare s pl ri a3).Keeps q := by
  fun_induction State.keepSpare s pl ri a3
  all_goals try dsimp only
  all_goals repeat' first
    | with_reducible assumption
    | with_reducible apply State.setPlane_keeps
    | with_reducible apply State.evict_keeps
    | with_reducible apply_assumption
    | with_reducible apply State.ite_keeps

theorem execPageReadComplete_keeps {q : List Instr} (pl : Plane) (region : Nat) (page : Nat) {s : State} (h0 : s.Keeps
    q) :
    ∃ u, execPageReadComplete pl region page s = .next u ∧ u.Keeps q := by
  refine ⟨_, rfl, ?_⟩
  try dsimp only
  repeat' first
    | with_reducible assumption
    | with_reducible apply State.setPlane_keeps
    | with_reducible apply State.resumeAll_keeps
    | with_reducible apply State.loadPage_keeps
    | with_reducible apply State.takeFrame_keeps
    | with_reducible refine State.takeFrame_keeps_eq ?_ ‹_›
    | with_reducible apply State.keepSpare_keeps
    | simp only [State.Keeps.lit]
    | with_reducible apply State.ite_keeps
    | with_reducible apply State.ite_fst_keeps
    | split

theorem State.keepSpares_keeps {q : List Instr} {s : State} (h0 : s.Keeps q) :
    (State.keepSpares s).Keeps q := by
  unfold State.keepSpares
  try dsimp only
  repeat' first
    | with_reducible assumption
    | intro _
    | with_reducible apply State.keepSpare_keeps
    | with_reducible apply State.foldl_keeps
    | simp only [State.Keeps.lit]
    | simp only [State.Keeps.litDm, List.length_set]
    | with_reducible apply State.ite_keeps
    | with_reducible apply State.ite_fst_keeps
    | split

/-! ## Exceptions -/

theorem State.writeCapCtl_keeps {q : List Instr} {s : State} (v : Nat) (h0 : s.Keeps q) :
    (State.writeCapCtl s v).Keeps q := by
  unfold State.writeCapCtl
  try dsimp only
  repeat' first
    | with_reducible assumption
    | with_reducible apply State.put_keeps
    | with_reducible apply State.ite_keeps

theorem State.writeCapTail_keeps {q : List Instr} {s : State} (v : Nat) (h0 : s.Keeps q) :
    (State.writeCapTail s v).Keeps q := by
  unfold State.writeCapTail
  try dsimp only
  repeat' first
    | with_reducible assumption
    | with_reducible apply State.put_keeps
    | with_reducible apply State.ite_keeps

theorem State.excFill_keeps {q : List Instr} {s : State} (h0 : s.Keeps q) :
    (State.excFill s).Keeps q := by
  unfold State.excFill
  try dsimp only
  repeat' first
    | with_reducible assumption
    | with_reducible apply State.put_keeps
    | simp only [State.Keeps.lit]
    | with_reducible apply State.ite_keeps
    | with_reducible apply State.ite_fst_keeps
    | split

theorem State.writeExc_keeps {q : List Instr} {s : State} (burst : Bool) (v : Nat) (h0 : s.Keeps q) :
    (State.writeExc s burst v).Keeps q := by
  unfold State.writeExc
  try dsimp only
  repeat' first
    | with_reducible assumption
    | with_reducible apply State.excFill_keeps
    | with_reducible apply State.putBoth_keeps
    | with_reducible apply State.ite_keeps

theorem execExcLimiterWrite_keeps {q : List Instr} (r : Requester) (burst : Bool) (v : Nat) {s : State} (h0 : s.Keeps q) :
    ∃ u, execExcLimiterWrite r burst v s = .next u ∧ u.Keeps q := by
  refine ⟨_, rfl, ?_⟩
  try dsimp only
  repeat' first
    | with_reducible assumption
    | intro _
    | with_reducible apply State.gated_keeps
    | with_reducible apply State.writeExc_keeps
    | with_reducible apply State.foldl_keeps
    | simp only [State.Keeps.lit]
    | simp only [State.Keeps.litDm, List.length_set]
    | with_reducible apply State.ite_keeps
    | with_reducible apply State.ite_fst_keeps
    | split

theorem execCapCtlWrite_keeps {q : List Instr} (r : Requester) (v : Nat) {s : State} (h0 : s.Keeps q) :
    ∃ u, execCapCtlWrite r v s = .next u ∧ u.Keeps q := by
  refine ⟨_, rfl, ?_⟩
  try dsimp only
  repeat' first
    | with_reducible assumption
    | intro _
    | with_reducible apply State.gated_keeps
    | with_reducible apply State.writeCapCtl_keeps
    | with_reducible apply State.foldl_keeps
    | simp only [State.Keeps.lit]
    | simp only [State.Keeps.litDm, List.length_set]
    | with_reducible apply State.ite_keeps
    | with_reducible apply State.ite_fst_keeps
    | split

theorem execCapTailWrite_keeps {q : List Instr} (r : Requester) (v : Nat) {s : State} (h0 : s.Keeps q) :
    ∃ u, execCapTailWrite r v s = .next u ∧ u.Keeps q := by
  refine ⟨_, rfl, ?_⟩
  try dsimp only
  repeat' first
    | with_reducible assumption
    | intro _
    | with_reducible apply State.gated_keeps
    | with_reducible apply State.writeCapTail_keeps
    | with_reducible apply State.foldl_keeps
    | simp only [State.Keeps.lit]
    | simp only [State.Keeps.litDm, List.length_set]
    | with_reducible apply State.ite_keeps
    | with_reducible apply State.ite_fst_keeps
    | split

/-! ## Registers -/

theorem State.storeOne_keeps {q : List Instr} {s : State} (mw : Bool) (own : Bool) (a : Nat) (v : Nat) (h0 : s.Keeps q) :
    (State.storeOne s mw own a v).Keeps q := by
  unfold State.storeOne
  try dsimp only
  repeat' first
    | with_reducible assumption
    | with_reducible apply State.setReg_keeps
    | simp only [State.Keeps.lit]
    | with_reducible apply State.ite_keeps
    | with_reducible apply State.ite_fst_keeps
    | split

theorem State.storeReg_keeps {q : List Instr} {s : State} (a : Nat) (v : Nat) (h0 : s.Keeps q) :
    (State.storeReg s a v).Keeps q := by
  unfold State.storeReg
  try dsimp only
  repeat' first
    | with_reducible assumption
    | with_reducible apply State.storeOne_keeps
    | simp only [State.Keeps.lit]
    | with_reducible apply State.ite_keeps
    | with_reducible apply State.ite_fst_keeps
    | split

/-! ## Placement -/

theorem State.placeMarker_keeps {q : List Instr} {s : State} (c : Nat) (b_q : Nat) (h0 : s.Keeps q) :
    (State.placeMarker s c b_q).Keeps q := by
  unfold State.placeMarker
  try dsimp only
  repeat' first
    | with_reducible assumption
    | with_reducible apply State.setQueue_keeps
    | with_reducible apply State.inc_keeps
    | with_reducible apply State.setCtx_keeps
    | with_reducible apply State.ite_keeps

theorem State.closeBucket_keeps {q : List Instr} {s : State} (b : Nat) (h0 : s.Keeps q) :
    (State.closeBucket s b).Keeps q := by
  unfold State.closeBucket
  try dsimp only
  repeat' first
    | with_reducible assumption
    | with_reducible apply State.setBkt_keeps
    | with_reducible apply State.put_keeps
    | with_reducible apply State.ite_keeps

theorem State.startMove_keeps {q : List Instr} {s : State} (b : Nat) (c : Nat) (h0 : s.Keeps q) :
    (State.startMove s b c).Keeps q := by
  unfold State.startMove
  try dsimp only
  repeat' first
    | with_reducible assumption
    | intro _
    | with_reducible apply State.setBkt_keeps
    | with_reducible apply State.inc_keeps
    | with_reducible apply State.setCtx_keeps
    | with_reducible apply State.foldl_keeps
    | simp only [State.Keeps.lit]
    | simp only [State.Keeps.litDm, List.length_set]
    | with_reducible apply State.ite_keeps
    | with_reducible apply State.ite_fst_keeps
    | split

theorem State.pinMove_keeps {q : List Instr} {s : State} (b : Nat) (h0 : s.Keeps q) :
    (State.pinMove s b).Keeps q := by
  unfold State.pinMove
  try dsimp only
  repeat' first
    | with_reducible assumption
    | with_reducible apply State.startMove_keeps
    | simp only [State.Keeps.lit]
    | with_reducible apply State.ite_keeps
    | with_reducible apply State.ite_fst_keeps
    | split

theorem State.stuckCount_keeps {q : List Instr} {s : State} (acted : Bool) (i : Nat) (h0 : s.Keeps q) :
    (State.stuckCount s acted i).Keeps q := by
  unfold State.stuckCount
  try dsimp only
  repeat' first
    | with_reducible assumption
    | intro _
    | with_reducible apply State.setFlag_keeps
    | with_reducible apply State.foldl_keeps
    | simp only [State.Keeps.lit]
    | simp only [State.Keeps.litDm, List.length_set]
    | with_reducible apply State.ite_keeps
    | with_reducible apply State.ite_fst_keeps
    | split

theorem State.scanBuckets_keeps {q : List Instr} {s : State} (heavy : Plane) (a2 : Nat) (a3 : Nat) (a4 : Nat) (h0 :
    s.Keeps q) :
    (State.scanBuckets s heavy a2 a3 a4).Keeps q := by
  fun_induction State.scanBuckets s heavy a2 a3 a4
  all_goals try dsimp only
  all_goals repeat' first
    | with_reducible assumption
    | with_reducible apply State.setFlag_keeps
    | with_reducible apply State.startMove_keeps
    | with_reducible apply State.put_keeps
    | with_reducible apply State.inc_keeps
    | with_reducible apply_assumption
    | with_reducible apply State.ite_keeps

theorem State.rebalance_keeps {q : List Instr} {s : State} (la : Nat) (lb : Nat) (i : Nat) (h0 : s.Keeps q) :
    (State.rebalance s la lb i).Keeps q := by
  unfold State.rebalance
  try dsimp only
  repeat' first
    | with_reducible assumption
    | intro _
    | with_reducible apply State.stuckCount_keeps
    | with_reducible apply State.scanBuckets_keeps
    | with_reducible apply State.foldl_keeps
    | simp only [State.Keeps.lit]
    | simp only [State.Keeps.litDm, List.length_set]
    | with_reducible apply State.ite_keeps
    | with_reducible apply State.ite_fst_keeps
    | split

theorem State.placeRings_keeps {q : List Instr} (tie : Option Nat) {s : State} (b_h : Nat) (h0 : s.Keeps q) :
    (State.placeRings tie s b_h).Keeps q := by
  unfold State.placeRings
  try dsimp only
  repeat' first
    | with_reducible assumption
    | with_reducible apply State.inc_keeps
    | with_reducible apply State.putBoth_keeps
    | simp only [State.Keeps.lit]
    | with_reducible apply State.ite_keeps
    | with_reducible apply State.ite_fst_keeps
    | split

theorem State.endEpoch_keeps {q : List Instr} {s : State} (tie : Option Nat) (h0 : s.Keeps q) :
    (State.endEpoch s tie).Keeps q := by
  unfold State.endEpoch
  try dsimp only
  repeat' first
    | with_reducible assumption
    | intro _
    | with_reducible apply State.placeRings_keeps
    | with_reducible apply State.put_keeps
    | with_reducible apply State.pinMove_keeps
    | with_reducible apply State.closeBucket_keeps
    | with_reducible apply State.rebalance_keeps
    | with_reducible apply State.foldl_keeps
    | simp only [State.Keeps.lit]
    | simp only [State.Keeps.litDm, List.length_set]
    | with_reducible apply State.ite_keeps
    | with_reducible apply State.ite_fst_keeps
    | split

theorem State.admitMarker_keeps {q : List Instr} {s : State} (c : Nat) (h0 : s.Keeps q) :
    (State.admitMarker s c).Keeps q := by
  unfold State.admitMarker
  try dsimp only
  repeat' first
    | with_reducible assumption
    | intro _
    | with_reducible apply State.releasePort_keeps
    | with_reducible apply State.ctxSettle_keeps
    | with_reducible apply State.setCtx_keeps
    | with_reducible apply State.placeMarker_keeps
    | with_reducible apply State.foldl_keeps
    | simp only [State.Keeps.lit]
    | simp only [State.Keeps.litDm, List.length_set]
    | with_reducible apply State.ite_keeps
    | with_reducible apply State.ite_fst_keeps
    | split

theorem execMarkerAdmit_keeps {q : List Instr} (ctx : Nat) {s : State} (h0 : s.Keeps q) :
    ∃ u, execMarkerAdmit ctx s = .next u ∧ u.Keeps q := by
  refine ⟨_, rfl, ?_⟩
  try dsimp only
  repeat' first
    | with_reducible assumption
    | with_reducible apply State.admitMarker_keeps
    | with_reducible apply State.ite_keeps

theorem execEpochEnd_keeps {q : List Instr} (write : Option (Nat × Nat)) {s : State} (h0 : s.Keeps q) :
    ∃ u, execEpochEnd s write = .next u ∧ u.Keeps q := by
  refine ⟨_, rfl, ?_⟩
  try dsimp only
  repeat' first
    | with_reducible assumption
    | intro _
    | with_reducible apply State.gated_keeps
    | with_reducible apply State.endEpoch_keeps
    | with_reducible apply State.storeReg_keeps
    | with_reducible apply State.foldl_keeps
    | simp only [State.Keeps.lit]
    | simp only [State.Keeps.litDm, List.length_set]
    | with_reducible apply State.ite_keeps
    | with_reducible apply State.ite_fst_keeps
    | split

theorem execBucketPinWrite_keeps {q : List Instr} (r : Requester) (b : Nat) (pin : Bool) (pl : Plane) {s : State} (h0 :
    s.Keeps q) :
    ∃ u, execBucketPinWrite r b pin pl s = .next u ∧ u.Keeps q := by
  refine ⟨_, rfl, ?_⟩
  try dsimp only
  repeat' first
    | with_reducible assumption
    | intro _
    | with_reducible apply State.gated_keeps
    | with_reducible apply State.put_keeps
    | with_reducible apply State.foldl_keeps
    | simp only [State.Keeps.lit]
    | simp only [State.Keeps.litDm, List.length_set]
    | with_reducible apply State.ite_keeps
    | with_reducible apply State.ite_fst_keeps
    | split

theorem execPinMoveStart_keeps {q : List Instr} (b : Nat) {s : State} (h0 : s.Keeps q) :
    ∃ u, execPinMoveStart b s = .next u ∧ u.Keeps q := by
  refine ⟨_, rfl, ?_⟩
  try dsimp only
  repeat' first
    | with_reducible assumption
    | with_reducible apply State.pinMove_keeps
    | with_reducible apply State.ite_keeps

theorem State.expireCtx_keeps {q : List Instr} {s : State} (c : Nat) (h0 : s.Keeps q) :
    (State.expireCtx s c).Keeps q := by
  unfold State.expireCtx
  try dsimp only
  repeat' first
    | with_reducible assumption
    | with_reducible apply State.setFlag_keeps
    | with_reducible apply State.ctxRelease_keeps
    | with_reducible apply State.inc_keeps
    | with_reducible apply State.ite_keeps

theorem execRsqExpire_keeps {q : List Instr} (ctx : Nat) {s : State} (h0 : s.Keeps q) :
    ∃ u, execRsqExpire ctx s = .next u ∧ u.Keeps q := by
  refine ⟨_, rfl, ?_⟩
  try dsimp only
  repeat' first
    | with_reducible assumption
    | with_reducible apply State.expireCtx_keeps
    | with_reducible apply State.ite_keeps

end Sys2Proof.Machine
end

