-- ==== Sys2Proof/Laws/Keeps4.lean ====
section
/-! SUPPORT. What each operation of PortEvents, Ledger, Cipher, Macsec, Time keeps: the good form, and the queue. -/

namespace Sys2Proof.Machine

/-! ## PortEvents -/

theorem execVerifyMpacketTimer_keeps {q : List Instr} (port : Nat) {s : State} (h0 : s.Keeps q) :
    ∃ u, execVerifyMpacketTimer port s = .next u ∧ u.Keeps q := by
  refine ⟨_, rfl, ?_⟩
  try dsimp only
  repeat' first
    | with_reducible assumption
    | with_reducible apply State.setFlag_keeps
    | with_reducible apply State.setPort_keeps
    | with_reducible apply State.put_keeps
    | with_reducible apply State.ite_keeps

theorem State.putSq_keeps {q : List Instr} {s : State} (b_q : Nat) (on : Bool) (h0 : s.Keeps q) :
    (State.putSq s b_q on).Keeps q := by
  unfold State.putSq
  try dsimp only
  repeat' first
    | with_reducible assumption
    | with_reducible apply State.put_keeps
    | with_reducible apply State.ite_keeps

theorem State.writeHoldMs_keeps {q : List Instr} {s : State} (port : Nat) (ms : Nat) (elapsed : Bool) (h0 : s.Keeps q) :
    (State.writeHoldMs s port ms elapsed).Keeps q := by
  unfold State.writeHoldMs
  try dsimp only
  repeat' first
    | with_reducible assumption
    | with_reducible apply State.put_keeps
    | with_reducible apply State.endHold_keeps
    | with_reducible apply State.ite_keeps

theorem State.linkLost_keeps {q : List Instr} {s : State} (p : Nat) (h0 : s.Keeps q) :
    (State.linkLost s p).Keeps q := by
  unfold State.linkLost
  try dsimp only
  repeat' first
    | with_reducible assumption
    | with_reducible apply State.setPort_keeps
    | with_reducible apply State.linkDown_keeps
    | with_reducible apply State.ite_keeps

theorem State.writeAdmin_keeps {q : List Instr} {s : State} (port : Nat) (down : Bool) (h0 : s.Keeps q) :
    (State.writeAdmin s port down).Keeps q := by
  unfold State.writeAdmin
  try dsimp only
  repeat' first
    | with_reducible assumption
    | with_reducible apply State.debounceNow_keeps
    | with_reducible apply State.linkLost_keeps
    | with_reducible apply State.put_keeps
    | with_reducible apply State.ite_keeps

theorem State.faultAt_keeps {q : List Instr} {s : State} (port : Nat) (remote : Bool) (h0 : s.Keeps q) :
    (State.faultAt s port remote).Keeps q := by
  unfold State.faultAt
  try dsimp only
  repeat' first
    | with_reducible assumption
    | with_reducible apply State.setFlag_keeps
    | with_reducible apply State.linkLost_keeps
    | with_reducible apply State.put_keeps
    | with_reducible apply State.ite_keeps

theorem execLinkFault_keeps {q : List Instr} (port : Nat) (remote : Bool) {s : State} (h0 : s.Keeps q) :
    ∃ u, execLinkFault port remote s = .next u ∧ u.Keeps q := by
  refine ⟨_, rfl, ?_⟩
  try dsimp only
  repeat' first
    | with_reducible assumption
    | with_reducible apply State.faultAt_keeps
    | with_reducible apply State.ite_keeps

theorem execLinkUpDebounce_keeps {q : List Instr} (port : Nat) {s : State} (h0 : s.Keeps q) :
    ∃ u, execLinkUpDebounce port s = .next u ∧ u.Keeps q := by
  refine ⟨_, rfl, ?_⟩
  try dsimp only
  repeat' first
    | with_reducible assumption
    | with_reducible apply State.linkUpNow_keeps
    | with_reducible apply State.ite_keeps

theorem execAdminDownWrite_keeps {q : List Instr} (r : Requester) (port : Nat) (down : Bool) {s : State} (h0 : s.Keeps
    q) :
    ∃ u, execAdminDownWrite r port down s = .next u ∧ u.Keeps q := by
  refine ⟨_, rfl, ?_⟩
  try dsimp only
  repeat' first
    | with_reducible assumption
    | intro _
    | with_reducible apply State.gated_keeps
    | with_reducible apply State.writeAdmin_keeps
    | with_reducible apply State.foldl_keeps
    | simp only [State.Keeps.lit]
    | simp only [State.Keeps.litDm, List.length_set]
    | with_reducible apply State.ite_keeps
    | with_reducible apply State.ite_fst_keeps
    | split

theorem execAnResult_keeps {q : List Instr} (port : Nat) (speed : Nat) {s : State} (h0 : s.Keeps q) :
    ∃ u, execAnResult port speed s = .next u ∧ u.Keeps q := by
  refine ⟨_, rfl, ?_⟩
  try dsimp only
  repeat' first
    | with_reducible assumption
    | with_reducible apply State.setFlag_keeps
    | with_reducible apply State.setPort_keeps
    | with_reducible apply State.debounceNow_keeps
    | with_reducible apply State.put_keeps
    | with_reducible apply State.rateCheck_keeps
    | with_reducible apply State.ite_keeps

theorem execRespondMpacket_keeps {q : List Instr} (port : Nat) {s : State} (h0 : s.Keeps q) :
    ∃ u, execRespondMpacket port s = .next u ∧ u.Keeps q := by
  refine ⟨_, rfl, ?_⟩
  try dsimp only
  repeat' first
    | with_reducible assumption
    | with_reducible apply State.put_keeps
    | with_reducible apply State.ite_keeps

theorem execHoldExpire_keeps {q : List Instr} (port : Nat) (tie : Bool) {s : State} (h0 : s.Keeps q) :
    ∃ u, execHoldExpire port s tie = .next u ∧ u.Keeps q := by
  refine ⟨_, rfl, ?_⟩
  try dsimp only
  repeat' first
    | with_reducible assumption
    | with_reducible apply State.linkUpNow_keeps
    | with_reducible apply State.endHold_keeps
    | with_reducible apply State.ite_keeps

theorem execHoldMsWrite_keeps {q : List Instr} (r : Requester) (port : Nat) (ms : Nat) (elapsed : Bool) {s : State} (h0
    : s.Keeps q) :
    ∃ u, execHoldMsWrite r port ms elapsed s = .next u ∧ u.Keeps q := by
  refine ⟨_, rfl, ?_⟩
  try dsimp only
  repeat' first
    | with_reducible assumption
    | intro _
    | with_reducible apply State.gated_keeps
    | with_reducible apply State.writeHoldMs_keeps
    | with_reducible apply State.foldl_keeps
    | simp only [State.Keeps.lit]
    | simp only [State.Keeps.litDm, List.length_set]
    | with_reducible apply State.ite_keeps
    | with_reducible apply State.ite_fst_keeps
    | split

theorem execPlcaBeacon_keeps {q : List Instr} (n : Nat) {s : State} (h0 : s.Keeps q) :
    ∃ u, execPlcaBeacon n s = .next u ∧ u.Keeps q := by
  refine ⟨_, rfl, ?_⟩
  try dsimp only
  repeat' first
    | with_reducible assumption
    | with_reducible apply State.debounceNow_keeps
    | with_reducible apply State.put_keeps
    | with_reducible apply State.ite_keeps

theorem execBeaconTimeout_keeps {q : List Instr} (n : Nat) {s : State} (h0 : s.Keeps q) :
    ∃ u, execBeaconTimeout n s = .next u ∧ u.Keeps q := by
  refine ⟨_, rfl, ?_⟩
  try dsimp only
  repeat' first
    | with_reducible assumption
    | with_reducible apply State.linkLost_keeps
    | with_reducible apply State.put_keeps
    | with_reducible apply State.ite_keeps

theorem execT1sCollision_keeps {q : List Instr} (n : Nat) {s : State} (h0 : s.Keeps q) :
    ∃ u, execT1sCollision n s = .next u ∧ u.Keeps q := by
  refine ⟨_, rfl, ?_⟩
  try dsimp only
  repeat' first
    | with_reducible assumption
    | with_reducible apply State.setFlag_keeps
    | with_reducible apply State.setPort_keeps
    | with_reducible apply State.abortPort_keeps
    | with_reducible apply State.inc_keeps
    | simp only [State.Keeps.lit]
    | with_reducible apply State.ite_keeps
    | with_reducible apply State.ite_fst_keeps
    | split

theorem execPcsLockAcquire_keeps {q : List Instr} (port : Nat) (ev : PcsEv) {s : State} (h0 : s.Keeps q) :
    ∃ u, execPcsLockAcquire port ev s = .next u ∧ u.Keeps q := by
  refine ⟨_, rfl, ?_⟩
  try dsimp only
  repeat' first
    | with_reducible assumption
    | with_reducible apply State.debounceNow_keeps
    | with_reducible apply State.putSq_keeps
    | with_reducible apply State.put_keeps
    | simp only [State.Keeps.lit]
    | with_reducible apply State.ite_keeps
    | with_reducible apply State.ite_fst_keeps
    | split

/-! ## Ledger -/

theorem State.ldgTake_keeps {q : List Instr} {s : State} (f : Frame) (h0 : s.Keeps q) : (State.ldgTake s f).Keeps q := by
  unfold State.ldgTake
  repeat' split
  · exact State.inc_keeps _ h0
  · exact State.inc_keeps _ h0
  · next hl =>
    refine ⟨{ h0.inv with ldgQ := ?_ }, h0.queue⟩
    simp
    omega

theorem State.ldgFresh_keeps {q : List Instr} {s : State} (c : Nat) (h0 : s.Keeps q) :
    (State.ldgFresh s c).Keeps q := by
  unfold State.ldgFresh
  try dsimp only
  repeat' first
    | with_reducible assumption
    | with_reducible apply State.put_keeps
    | with_reducible apply State.put64_keeps
    | with_reducible apply State.ite_keeps

theorem State.ldgApply_keeps {q : List Instr} {s : State} (old : List Host.Cell) (h0 : s.Keeps q) :
    (State.ldgApply s old).Keeps q := by
  unfold State.ldgApply
  try dsimp only
  repeat' first
    | with_reducible assumption
    | intro _
    | with_reducible apply State.ldgFresh_keeps
    | with_reducible apply State.put_keeps
    | with_reducible apply State.foldl_keeps
    | simp only [State.Keeps.lit]
    | simp only [State.Keeps.litDm, List.length_set]
    | with_reducible apply State.ite_keeps
    | with_reducible apply State.ite_fst_keeps
    | split

theorem State.ldgCommand_keeps {q : List Instr} {s : State} (r : Requester) {act : State → State × Nat} (h0 : s.Keeps q)
    (h1 : ∀ (t : State), t.Keeps q → (act t ).1.Keeps q) :
    (State.ldgCommand s r act).Keeps q := by
  unfold State.ldgCommand
  try dsimp only
  repeat' first
    | with_reducible assumption
    | intro _
    | with_reducible apply h1
    | with_reducible apply State.setFlag_keeps
    | with_reducible apply State.mcOnly_keeps
    | with_reducible apply State.put_keeps
    | with_reducible apply State.ite_keeps

theorem State.ldgLoad_keeps {q : List Instr} {s : State} (c : Nat) (b_e : List Byte) (h0 : s.Keeps q) :
    (State.ldgLoad s c b_e).Keeps q := by
  unfold State.ldgLoad
  try dsimp only
  repeat' first
    | with_reducible assumption
    | with_reducible apply State.put_keeps
    | with_reducible apply State.put64_keeps
    | with_reducible apply State.ite_keeps

theorem State.ldgRestore_keeps {q : List Instr} {s : State} (h0 : s.Keeps q) :
    (State.ldgRestore s).1.Keeps q := by
  unfold State.ldgRestore
  try dsimp only
  repeat' first
    | with_reducible assumption
    | intro _
    | with_reducible apply State.ldgLoad_keeps
    | with_reducible apply State.put_keeps
    | with_reducible apply State.foldl_keeps
    | simp only [State.Keeps.lit]
    | simp only [State.Keeps.litDm, List.length_set]
    | with_reducible apply State.ite_keeps
    | with_reducible apply State.ite_fst_keeps
    | split

theorem State.ldgRestore_keeps_eq {q : List Instr} {s : State} (h0 : s.Keeps q) {u : State} {w : Nat}
    (e : State.ldgRestore s = (u, w)) : u.Keeps q := by
  have hu : (State.ldgRestore s).1.Keeps q := by apply State.ldgRestore_keeps <;> assumption
  rw [e] at hu
  exact hu

theorem State.ldgAllFresh_keeps {q : List Instr} {s : State} (h0 : s.Keeps q) :
    (State.ldgAllFresh s).1.Keeps q := by
  unfold State.ldgAllFresh
  try dsimp only
  repeat' first
    | with_reducible assumption
    | intro _
    | with_reducible apply State.ldgFresh_keeps
    | with_reducible apply State.put_keeps
    | with_reducible apply State.foldl_keeps
    | simp only [State.Keeps.lit]
    | simp only [State.Keeps.litDm, List.length_set]
    | with_reducible apply State.ite_keeps
    | with_reducible apply State.ite_fst_keeps
    | split

theorem State.ldgAllFresh_keeps_eq {q : List Instr} {s : State} (h0 : s.Keeps q) {u : State} {w : Nat}
    (e : State.ldgAllFresh s = (u, w)) : u.Keeps q := by
  have hu : (State.ldgAllFresh s).1.Keeps q := by apply State.ldgAllFresh_keeps <;> assumption
  rw [e] at hu
  exact hu

theorem State.ldgSeal_keeps {q : List Instr} {s : State} (h0 : s.Keeps q) :
    (State.ldgSeal s).Keeps q := by
  unfold State.ldgSeal
  try dsimp only
  repeat' first
    | with_reducible assumption
    | with_reducible apply State.setFlag_keeps
    | with_reducible apply State.put_keeps
    | with_reducible apply State.windowPut_keeps
    | with_reducible apply State.addCnt_keeps
    | with_reducible apply State.ite_keeps

theorem State.ldgSealCmd_keeps {q : List Instr} {s : State} (h0 : s.Keeps q) :
    (State.ldgSealCmd s).1.Keeps q := by
  unfold State.ldgSealCmd
  try dsimp only
  repeat' first
    | with_reducible assumption
    | with_reducible apply State.ldgSeal_keeps
    | simp only [State.Keeps.lit]
    | with_reducible apply State.ite_keeps
    | with_reducible apply State.ite_fst_keeps
    | split

theorem State.ldgSealCmd_keeps_eq {q : List Instr} {s : State} (h0 : s.Keeps q) {u : State} {w : Nat}
    (e : State.ldgSealCmd s = (u, w)) : u.Keeps q := by
  have hu : (State.ldgSealCmd s).1.Keeps q := by apply State.ldgSealCmd_keeps <;> assumption
  rw [e] at hu
  exact hu

theorem State.ldgReport_keeps {q : List Instr} {s : State} (h0 : s.Keeps q) :
    (State.ldgReport s).1.Keeps q := by
  unfold State.ldgReport
  try dsimp only
  repeat' first
    | with_reducible assumption
    | intro _
    | with_reducible apply State.random_keeps
    | with_reducible refine State.random_keeps_eq ?_ ‹_›
    | with_reducible apply State.put_keeps
    | with_reducible apply State.windowPut_keeps
    | with_reducible apply State.foldl_keeps
    | simp only [State.Keeps.lit]
    | simp only [State.Keeps.litDm, List.length_set]
    | with_reducible apply State.ite_keeps
    | with_reducible apply State.ite_fst_keeps
    | split

theorem State.ldgReport_keeps_eq {q : List Instr} {s : State} (h0 : s.Keeps q) {u : State} {w : Nat}
    (e : State.ldgReport s = (u, w)) : u.Keeps q := by
  have hu : (State.ldgReport s).1.Keeps q := by apply State.ldgReport_keeps <;> assumption
  rw [e] at hu
  exact hu

theorem State.ldgAdd_keeps {q : List Instr} {s : State} (lo : Fld) (hi : Fld) (n : Nat) (h0 : s.Keeps q) :
    (State.ldgAdd s lo hi n).Keeps q := by
  unfold State.ldgAdd
  try dsimp only
  repeat' first
    | with_reducible assumption
    | with_reducible apply State.put64_keeps
    | with_reducible apply State.ite_keeps

theorem State.ldgHold_keeps {q : List Instr} {s : State} (c : Nat) (h0 : s.Keeps q) :
    (State.ldgHold s c).Keeps q := by
  unfold State.ldgHold
  try dsimp only
  repeat' first
    | with_reducible assumption
    | with_reducible apply State.put_keeps
    | with_reducible apply State.nmLedger_keeps
    | simp only [State.Keeps.lit]
    | with_reducible apply State.ite_keeps
    | with_reducible apply State.ite_fst_keeps
    | split

theorem State.ldgAccept_keeps {q : List Instr} {s : State} (c : Nat) (b : List Byte) (h0 : s.Keeps q) :
    (State.ldgAccept s c b).Keeps q := by
  unfold State.ldgAccept
  try dsimp only
  repeat' first
    | with_reducible assumption
    | with_reducible apply State.setFlag_keeps
    | with_reducible apply State.put_keeps
    | with_reducible apply State.ldgHold_keeps
    | with_reducible apply State.ldgAdd_keeps
    | with_reducible apply State.ite_keeps

theorem State.ldgCheck_keeps {q : List Instr} {s : State} (x : LdgRec) (h0 : s.Keeps q) :
    (State.ldgCheck s x).Keeps q := by
  unfold State.ldgCheck
  try dsimp only
  repeat' first
    | with_reducible assumption
    | with_reducible apply State.incSat_keeps
    | with_reducible apply State.setFlag_keeps
    | with_reducible apply State.noteOrphan_keeps
    | with_reducible apply State.inc_keeps
    | with_reducible apply State.ldgAccept_keeps
    | simp only [State.Keeps.lit]
    | with_reducible apply State.ite_keeps
    | with_reducible apply State.ite_fst_keeps
    | split

theorem execMeteringRecord_keeps {q : List Instr} {s : State} (h0 : s.Keeps q) :
    ∃ u, execMeteringRecord s = .next u ∧ u.Keeps q := by
  refine ⟨_, rfl, ?_⟩
  split
  · exact h0
  · next x t hq =>
    refine State.ldgCheck_keeps _ ⟨{ h0.inv with ldgQ := ?_ }, h0.queue⟩
    have hl := h0.inv.ldgQ
    rw [hq, List.length_cons] at hl
    show t.length ≤ 256
    omega

theorem execLdgRestore_keeps {q : List Instr} (r : Requester) {s : State} (h0 : s.Keeps q) :
    ∃ u, execLdgRestore r s = .next u ∧ u.Keeps q := by
  refine ⟨_, rfl, ?_⟩
  try dsimp only
  repeat' first
    | with_reducible assumption
    | with_reducible apply State.ldgRestore_keeps
    | with_reducible apply State.ldgCommand_keeps
    | with_reducible apply State.ite_keeps

theorem execLdgFresh_keeps {q : List Instr} (r : Requester) {s : State} (h0 : s.Keeps q) :
    ∃ u, execLdgFresh r s = .next u ∧ u.Keeps q := by
  refine ⟨_, rfl, ?_⟩
  try dsimp only
  repeat' first
    | with_reducible assumption
    | with_reducible apply State.ldgAllFresh_keeps
    | with_reducible apply State.ldgCommand_keeps
    | with_reducible apply State.ite_keeps

theorem execLdgSeal_keeps {q : List Instr} (r : Requester) {s : State} (h0 : s.Keeps q) :
    ∃ u, execLdgSeal r s = .next u ∧ u.Keeps q := by
  refine ⟨_, rfl, ?_⟩
  try dsimp only
  repeat' first
    | with_reducible assumption
    | with_reducible apply State.ldgCommand_keeps
    | with_reducible apply State.ldgSealCmd_keeps
    | with_reducible apply State.ite_keeps

theorem execLdgReport_keeps {q : List Instr} (r : Requester) {s : State} (h0 : s.Keeps q) :
    ∃ u, execLdgReport r s = .next u ∧ u.Keeps q := by
  refine ⟨_, rfl, ?_⟩
  try dsimp only
  repeat' first
    | with_reducible assumption
    | with_reducible apply State.ldgReport_keeps
    | with_reducible apply State.ldgCommand_keeps
    | with_reducible apply State.ite_keeps

theorem execCkptTimer_keeps {q : List Instr} {s : State} (h0 : s.Keeps q) :
    ∃ u, execCkptTimer s = .next u ∧ u.Keeps q := by
  refine ⟨_, rfl, ?_⟩
  try dsimp only
  repeat' first
    | with_reducible assumption
    | with_reducible apply State.ldgSeal_keeps
    | with_reducible apply State.ite_keeps

theorem State.ldgUnhold_keeps {q : List Instr} {s : State} (c : Nat) (h0 : s.Keeps q) :
    (State.ldgUnhold s c).Keeps q := by
  unfold State.ldgUnhold
  try dsimp only
  repeat' first
    | with_reducible assumption
    | with_reducible apply State.put_keeps
    | with_reducible apply State.nmLedger_keeps
    | with_reducible apply State.ite_keeps

theorem execLedgerHoldExpire_keeps {q : List Instr} (c : Nat) {s : State} (h0 : s.Keeps q) :
    ∃ u, execLedgerHoldExpire c s = .next u ∧ u.Keeps q := by
  refine ⟨_, rfl, ?_⟩
  try dsimp only
  repeat' first
    | with_reducible assumption
    | with_reducible apply State.ldgUnhold_keeps
    | with_reducible apply State.ite_keeps

/-! ## Cipher -/

theorem State.cphSubmit_keeps {q : List Instr} {s : State} (dom : Nat) (hdr : List Byte) (h0 : s.Keeps q) :
    (State.cphSubmit s dom hdr).1.Keeps q := by
  unfold State.cphSubmit
  try dsimp only
  repeat' first
    | with_reducible assumption
    | simp only [State.Keeps.lit]
    | with_reducible apply State.ite_keeps
    | with_reducible apply State.ite_fst_keeps
    | split

theorem State.cphSubmit_keeps_eq {q : List Instr} {s : State} {dom : Nat} {hdr : List Byte} (h0 : s.Keeps q) {u : State}
    {w : Nat}
    (e : State.cphSubmit s dom hdr = (u, w)) : u.Keeps q := by
  have hu : (State.cphSubmit s dom hdr).1.Keeps q := by apply State.cphSubmit_keeps <;> assumption
  rw [e] at hu
  exact hu

theorem State.engineKeep_keeps {q : List Instr} {s : State} (engine : Option Nat) (ghash : Option Nat) (slot : Nat) (gen
    : Nat) (version : Nat) (key : List Byte) (h0 : s.Keeps q) :
    (State.engineKeep s engine ghash slot gen version key).Keeps q := by
  unfold State.engineKeep
  try dsimp only
  repeat' first
    | with_reducible assumption
    | simp only [State.Keeps.lit]
    | with_reducible apply State.ite_keeps
    | with_reducible apply State.ite_fst_keeps
    | split

theorem State.cphTenant_keeps {q : List Instr} {s : State} (tn : Nat) (op : Nat) (status : Nat) (h0 : s.Keeps q) :
    (State.cphTenant s tn op status).Keeps q := by
  unfold State.cphTenant
  try dsimp only
  repeat' first
    | with_reducible assumption
    | with_reducible apply State.setTen_keeps
    | with_reducible apply State.ite_keeps

theorem deliverOps_keeps {q : List Instr} {s : State} (l : List CphOp) (bl : List Nat) (h0 : s.Keeps q) :
    (deliverOps l bl s).1.Keeps q := by
  induction l generalizing s bl with
  | nil => exact h0
  | cons op t ih =>
    unfold deliverOps
    dsimp only
    split
    · split
      · split
        · refine ih _ ?_
          have h1 := State.setFlag_keeps (q := q) (s := { s with cph := { s.cph with cpl := s.cph.cpl ++ [(op.id,
              ‹Nat›)] } })
            CPH_EVT_CPL (by simpa only [State.Keeps.lit] using h0)
          split
          · exact h1
          · exact State.setFlag_keeps _ h1
        · refine ih _ ?_
          split
          · exact h0
          · exact State.setFlag_keeps _ h0
      · split
        · exact ih _ (State.cphTenant_keeps _ _ _ h0)
        · exact ih _ h0
    · exact ih _ h0

theorem deliverOps_keeps_eq {q : List Instr} {a0 : List CphOp} {a1 : List Nat} {a2 : State} (h0 : a2.Keeps q) {u :
    State} {w : List CphOp}
    (e : deliverOps a0 a1 a2 = (u, w)) : u.Keeps q := by
  have hu : (deliverOps a0 a1 a2).1.Keeps q := by apply deliverOps_keeps <;> assumption
  rw [e] at hu
  exact hu

theorem State.cphDeliver_keeps {q : List Instr} {s : State} (h0 : s.Keeps q) :
    (State.cphDeliver s).Keeps q := by
  unfold State.cphDeliver
  try dsimp only
  repeat' first
    | with_reducible assumption
    | with_reducible apply deliverOps_keeps
    | with_reducible refine deliverOps_keeps_eq ?_ ‹_›
    | simp only [State.Keeps.lit]
    | with_reducible apply State.ite_keeps
    | with_reducible apply State.ite_fst_keeps
    | split

theorem State.cphSet_keeps {q : List Instr} {s : State} (id : Nat) (f : CphOp → CphOp) (h0 : s.Keeps q) :
    (State.cphSet s id f).Keeps q := by
  unfold State.cphSet
  try dsimp only
  repeat' first
    | with_reducible assumption
    | simp only [State.Keeps.lit]
    | with_reducible apply State.ite_keeps
    | with_reducible apply State.ite_fst_keeps
    | split

theorem State.cphEnd_keeps {q : List Instr} {s : State} (id : Nat) (status : Nat) (h0 : s.Keeps q) :
    (State.cphEnd s id status).Keeps q := by
  unfold State.cphEnd
  try dsimp only
  repeat' first
    | with_reducible assumption
    | with_reducible apply State.cphSet_keeps
    | with_reducible apply State.inc_keeps
    | with_reducible apply State.cphDeliver_keeps
    | with_reducible apply State.ite_keeps

theorem State.cphBegin_keeps {q : List Instr} {s : State} (h0 : s.Keeps q) :
    (State.cphBegin s).Keeps q := by
  unfold State.cphBegin
  try dsimp only
  repeat' first
    | with_reducible assumption
    | with_reducible apply State.cphSet_keeps
    | with_reducible apply State.cphEnd_keeps
    | with_reducible apply State.engineKeep_keeps
    | simp only [State.Keeps.lit]
    | with_reducible apply State.ite_keeps
    | with_reducible apply State.ite_fst_keeps
    | split

theorem State.cphWrite_keeps {q : List Instr} {s : State} (dom : Nat) (a : Nat) (bs : List Byte) (h0 : s.Keeps q) :
    (State.cphWrite s dom a bs).Keeps q := by
  unfold State.cphWrite
  split
  · exact ⟨{ h0.inv with mcMem := Memory.wf_memPut _ _ h0.inv.mcMem }, h0.queue⟩
  · exact State.dmaWrite_keeps _ _ _ h0

theorem State.cphZero_keeps {q : List Instr} {s : State} (op : CphOp) (h0 : s.Keeps q) :
    (State.cphZero s op).Keeps q := by
  unfold State.cphZero
  try dsimp only
  repeat' first
    | with_reducible assumption
    | with_reducible apply State.fresh_keeps
    | with_reducible apply State.cphWrite_keeps
    | with_reducible apply State.ite_keeps

theorem State.cphAbort_keeps {q : List Instr} {s : State} (dom : Nat) (id : Nat) (h0 : s.Keeps q) :
    (State.cphAbort s dom id).1.Keeps q := by
  unfold State.cphAbort
  try dsimp only
  repeat' first
    | with_reducible assumption
    | with_reducible apply State.cphZero_keeps
    | with_reducible apply State.cphEnd_keeps
    | simp only [State.Keeps.lit]
    | with_reducible apply State.ite_keeps
    | with_reducible apply State.ite_fst_keeps
    | split

theorem State.cphAbort_keeps_eq {q : List Instr} {s : State} {dom : Nat} {id : Nat} (h0 : s.Keeps q) {u : State} {w : Nat}
    (e : State.cphAbort s dom id = (u, w)) : u.Keeps q := by
  have hu : (State.cphAbort s dom id).1.Keeps q := by apply State.cphAbort_keeps <;> assumption
  rw [e] at hu
  exact hu

theorem State.writeAlarmClr_keeps {q : List Instr} {s : State} (h0 : s.Keeps q) :
    (State.writeAlarmClr s).Keeps q := by
  unfold State.writeAlarmClr
  try dsimp only
  repeat' first
    | with_reducible assumption
    | with_reducible apply State.put_keeps
    | with_reducible apply State.ite_keeps

theorem State.writeCphCmd_keeps {q : List Instr} {s : State} (h0 : s.Keeps q) :
    (State.writeCphCmd s).Keeps q := by
  unfold State.writeCphCmd
  try dsimp only
  repeat' first
    | with_reducible assumption
    | with_reducible apply State.cphSubmit_keeps
    | with_reducible apply State.put_keeps
    | with_reducible apply State.cphDeliver_keeps
    | with_reducible apply State.ite_keeps

theorem State.writeCphAbort_keeps {q : List Instr} {s : State} (op : Nat) (h0 : s.Keeps q) :
    (State.writeCphAbort s op).Keeps q := by
  unfold State.writeCphAbort
  try dsimp only
  repeat' first
    | with_reducible assumption
    | with_reducible apply State.put_keeps
    | with_reducible apply State.cphAbort_keeps
    | with_reducible apply State.ite_keeps

theorem State.popCpl_keeps {q : List Instr} {s : State} (h0 : s.Keeps q) :
    (State.popCpl s).Keeps q := by
  unfold State.popCpl
  try dsimp only
  repeat' first
    | with_reducible assumption
    | with_reducible apply State.cphDeliver_keeps
    | simp only [State.Keeps.lit]
    | with_reducible apply State.ite_keeps
    | with_reducible apply State.ite_fst_keeps
    | split

theorem execCipherSubmit_keeps {q : List Instr} (r : Requester) {s : State} (h0 : s.Keeps q) :
    ∃ u, execCipherSubmit r s = .next u ∧ u.Keeps q := by
  refine ⟨_, rfl, ?_⟩
  try dsimp only
  repeat' first
    | with_reducible assumption
    | with_reducible apply State.gated_keeps
    | with_reducible apply State.writeCphCmd_keeps
    | with_reducible apply State.ite_keeps

theorem State.cphResult_keeps {q : List Instr} {s : State} (op : CphOp) (r : CphRun) (h0 : s.Keeps q) :
    (State.cphResult s op r).1.Keeps q := by
  unfold State.cphResult
  try dsimp only
  repeat' first
    | with_reducible assumption
    | with_reducible apply State.random_keeps
    | with_reducible refine State.random_keeps_eq ?_ ‹_›
    | simp only [State.Keeps.lit]
    | with_reducible apply State.ite_keeps
    | with_reducible apply State.ite_fst_keeps
    | split

theorem State.cphSave_keeps {q : List Instr} {s : State} (op : CphOp) (r : CphRun) (x : CphCtx) (h0 : s.Keeps q) :
    (State.cphSave s op r x).Keeps q := by
  unfold State.cphSave
  try dsimp only
  repeat' first
    | with_reducible assumption
    | with_reducible apply State.cphWrite_keeps
    | simp only [State.Keeps.lit]
    | with_reducible apply State.ite_keeps
    | with_reducible apply State.ite_fst_keeps
    | split

theorem State.cphCommit_keeps {q : List Instr} {s : State} (op : CphOp) (r : CphRun) (h0 : s.Keeps q) :
    (State.cphCommit s op r).Keeps q := by
  unfold State.cphCommit
  try dsimp only
  repeat' first
    | with_reducible assumption
    | with_reducible apply State.cphSave_keeps
    | with_reducible apply State.cphResult_keeps
    | with_reducible apply State.cphEnd_keeps
    | with_reducible apply State.cphWrite_keeps
    | with_reducible apply State.ite_keeps

theorem execCipherOpCommit_keeps {q : List Instr} (op : Nat) {s : State} (h0 : s.Keeps q) :
    ∃ u, execCipherOpCommit op s = .next u ∧ u.Keeps q := by
  refine ⟨_, rfl, ?_⟩
  try dsimp only
  repeat' first
    | with_reducible assumption
    | with_reducible apply State.cphCommit_keeps
    | simp only [State.Keeps.lit]
    | with_reducible apply State.ite_keeps
    | with_reducible apply State.ite_fst_keeps
    | split

theorem execCipherAbort_keeps {q : List Instr} (r : Requester) (op : Nat) {s : State} (h0 : s.Keeps q) :
    ∃ u, execCipherAbort r op s = .next u ∧ u.Keeps q := by
  refine ⟨_, rfl, ?_⟩
  try dsimp only
  repeat' first
    | with_reducible assumption
    | intro _
    | with_reducible apply State.gated_keeps
    | with_reducible apply State.writeCphAbort_keeps
    | with_reducible apply State.foldl_keeps
    | simp only [State.Keeps.lit]
    | simp only [State.Keeps.litDm, List.length_set]
    | with_reducible apply State.ite_keeps
    | with_reducible apply State.ite_fst_keeps
    | split

theorem execAlarmClr_keeps {q : List Instr} (r : Requester) {s : State} (h0 : s.Keeps q) :
    ∃ u, execAlarmClr r s = .next u ∧ u.Keeps q := by
  refine ⟨_, rfl, ?_⟩
  try dsimp only
  repeat' first
    | with_reducible assumption
    | with_reducible apply State.gated_keeps
    | with_reducible apply State.writeAlarmClr_keeps
    | with_reducible apply State.ite_keeps

theorem State.engineErase_keeps {q : List Instr} {s : State} (h0 : s.Keeps q) :
    (State.engineErase s).Keeps q := by
  unfold State.engineErase
  try dsimp only
  repeat' first
    | with_reducible assumption
    | simp only [State.Keeps.lit]
    | with_reducible apply State.ite_keeps
    | with_reducible apply State.ite_fst_keeps
    | split

theorem State.cphAlarm_keeps {q : List Instr} {s : State} (cause : Nat) (h0 : s.Keeps q) :
    (State.cphAlarm s cause).Keeps q := by
  unfold State.cphAlarm
  try dsimp only
  repeat' first
    | with_reducible assumption
    | intro _
    | with_reducible apply State.setFlag_keeps
    | with_reducible apply State.cphSet_keeps
    | with_reducible apply State.put_keeps
    | with_reducible apply State.cphZero_keeps
    | with_reducible apply State.engineErase_keeps
    | with_reducible apply State.cphDeliver_keeps
    | with_reducible apply State.foldl_keeps
    | simp only [State.Keeps.lit]
    | simp only [State.Keeps.litDm, List.length_set]
    | with_reducible apply State.ite_keeps
    | with_reducible apply State.ite_fst_keeps
    | split

/-! ## Macsec -/

theorem State.msecNoKey_keeps {q : List Instr} {s : State} (i : Nat) (a : Nat) (h0 : s.Keeps q) :
    (State.msecNoKey s i a).Keeps q := by
  unfold State.msecNoKey
  try dsimp only
  repeat' first
    | with_reducible assumption
    | with_reducible apply State.noteOrphan_keeps
    | with_reducible apply State.ite_keeps

theorem State.msecEngine_keeps {q : List Instr} {s : State} (i : Nat) (a : Nat) (key : List Byte) (h0 : s.Keeps q) :
    (State.msecEngine s i a key).Keeps q := by
  unfold State.msecEngine
  try dsimp only
  repeat' first
    | with_reducible assumption
    | with_reducible apply State.engineKeep_keeps
    | with_reducible apply State.ite_keeps

theorem State.msecSetPn_keeps {q : List Instr} {s : State} (i : Nat) (a : Nat) (n : Nat) (h0 : s.Keeps q) :
    (State.msecSetPn s i a n).Keeps q := by
  unfold State.msecSetPn
  try dsimp only
  repeat' first
    | with_reducible assumption
    | with_reducible apply State.put_keeps
    | with_reducible apply State.put64_keeps
    | with_reducible apply State.ite_keeps

theorem State.msecValidate_keeps {q : List Instr} {s : State} (i : Nat) (b : List Byte) (h0 : s.Keeps q) :
    (State.msecValidate s i b).1.Keeps q := by
  unfold State.msecValidate
  try dsimp only
  repeat' first
    | with_reducible assumption
    | with_reducible apply State.msecEngine_keeps
    | with_reducible apply State.msecNoKey_keeps
    | with_reducible apply State.inc_keeps
    | with_reducible apply State.msecSetPn_keeps
    | simp only [State.Keeps.lit]
    | with_reducible apply State.ite_keeps
    | with_reducible apply State.ite_fst_keeps
    | split

theorem State.msecValidate_keeps_eq {q : List Instr} {s : State} {i : Nat} {b : List Byte} (h0 : s.Keeps q) {u : State}
    {w : Option (List Byte)}
    (e : State.msecValidate s i b = (u, w)) : u.Keeps q := by
  have hu : (State.msecValidate s i b).1.Keeps q := by apply State.msecValidate_keeps <;> assumption
  rw [e] at hu
  exact hu

theorem State.msecProtect_keeps {q : List Instr} {s : State} (i : Nat) (b : List Byte) (h0 : s.Keeps q) :
    (State.msecProtect s i b).1.Keeps q := by
  unfold State.msecProtect
  try dsimp only
  repeat' first
    | with_reducible assumption
    | with_reducible apply State.setFlag_keeps
    | with_reducible apply State.msecEngine_keeps
    | with_reducible apply State.msecNoKey_keeps
    | with_reducible apply State.inc_keeps
    | with_reducible apply State.msecSetPn_keeps
    | simp only [State.Keeps.lit]
    | with_reducible apply State.ite_keeps
    | with_reducible apply State.ite_fst_keeps
    | split

theorem State.msecProtect_keeps_eq {q : List Instr} {s : State} {i : Nat} {b : List Byte} (h0 : s.Keeps q) {u : State}
    {w : Option (List Byte)}
    (e : State.msecProtect s i b = (u, w)) : u.Keeps q := by
  have hu : (State.msecProtect s i b).1.Keeps q := by apply State.msecProtect_keeps <;> assumption
  rw [e] at hu
  exact hu

/-! ## Time -/

theorem State.txRequest_keeps {q : List Instr} {s : State} (p : Nat) (pool : Bool) (bs : List Byte) (ts : List TbTime)
    (b_q : Option TxTsReq) (again : Bool) (h0 : s.Keeps q) :
    (State.txRequest s p pool bs ts b_q again).1.Keeps q := by
  unfold State.txRequest
  try dsimp only
  repeat' first
    | with_reducible assumption
    | with_reducible apply State.setFlag_keeps
    | with_reducible apply State.inc_keeps
    | simp only [State.Keeps.lit]
    | with_reducible apply State.ite_keeps
    | with_reducible apply State.ite_fst_keeps
    | split

theorem State.txRequest_keeps_eq {q : List Instr} {s : State} {p : Nat} {pool : Bool} {bs : List Byte} {ts : List
    TbTime} {b_q : Option TxTsReq} {again : Bool} (h0 : s.Keeps q) {u : State} {w : List Byte × Option (TxReport ×
    Option Nat)}
    (e : State.txRequest s p pool bs ts b_q again = (u, w)) : u.Keeps q := by
  have hu : (State.txRequest s p pool bs ts b_q again).1.Keeps q := by apply State.txRequest_keeps <;> assumption
  rw [e] at hu
  exact hu

theorem State.reportLeave_keeps {q : List Instr} {s : State} (p : Nat) (f : Frame) (ts : List TbTime) (h0 : s.Keeps q) :
    (State.reportLeave s p f ts).Keeps q := by
  unfold State.reportLeave
  try dsimp only
  repeat' first
    | with_reducible assumption
    | with_reducible apply State.txReport_keeps
    | with_reducible apply State.txRequest_keeps
    | with_reducible refine State.txRequest_keeps_eq ?_ ‹_›
    | simp only [State.Keeps.lit]
    | with_reducible apply State.ite_keeps
    | with_reducible apply State.ite_fst_keeps
    | split

/-- A time stays in form when units of 2^-32 ns are added to it. -/
theorem TbTime.plus_form (t : TbTime) (units : Nat) :
    (t.plus units).sec < 2 ^ 48 ∧ (t.plus units).ns < 1000000000 ∧ (t.plus units).frac < 2 ^ 32 :=
  ⟨Nat.mod_lt _ (Nat.two_pow_pos 48), Nat.mod_lt _ (by decide), Nat.mod_lt _ (Nat.two_pow_pos 32)⟩

/-- A tick keeps a time base in good form, if the step it takes is in form. -/
theorem TimeBase.tick_ok {t : TimeBase} (run : Bool) {st : Option (Nat × Nat)} (k : Nat) (h : t.ok = true)
    (hst : ∀ p, st = some p → p.1 < 2 ^ 48 ∧ p.2 < 1000000000) : (t.tick run st k).ok = true := by
  have hn : (t.tick run st k).now.sec < 2 ^ 48 ∧ (t.tick run st k).now.ns < 1000000000 ∧
      (t.tick run st k).now.frac < 2 ^ 32 := by
    unfold TimeBase.ok at h
    rw [Bool.and_eq_true, Bool.and_eq_true, decide_eq_true_eq] at h
    cases st with
    | some p => exact ⟨(hst p rfl).1, (hst p rfl).2, Nat.two_pow_pos 32⟩
    | none =>
      cases run
      · exact h.1.1
      · exact TbTime.plus_form _ _
  unfold TimeBase.ok at h ⊢
  rw [Bool.and_eq_true, Bool.and_eq_true, decide_eq_true_eq] at h ⊢
  refine ⟨⟨hn, ?_⟩, rfl⟩
  unfold TimeBase.tick
  cases hc : t.commitInc with
  | none => exact h.1.2
  | some p =>
    rw [hc] at h
    exact h.2

theorem State.stepAt_form (s : State) (n : Nat) : ∀ p, s.stepAt n = some p → p.1 < 2 ^ 48 ∧ p.2 < 1000000000 := by
  intro p hp
  unfold State.stepAt at hp
  dsimp only at hp
  split at hp
  · next h =>
    cases hp
    refine ⟨?_, h.2⟩
    have h1 : s.fld (TIM_TB_STEP_SEC_LO_SEC n) < 2 ^ 32 := bits_lt _ _ _
    have h2 : s.fld (TIM_TB_STEP_SEC_HI_SEC n) < 2 ^ 16 := bits_lt _ _ _
    show s.fld (TIM_TB_STEP_SEC_LO_SEC n) + 2 ^ 32 * s.fld (TIM_TB_STEP_SEC_HI_SEC n) < 2 ^ 48
    omega
  · cases hp

theorem State.tickTb_keeps {q : List Instr} {s : State} (n : Nat) (h0 : s.Keeps q) : (State.tickTb s n).Keeps q := by
  have ht := TimeBase.tick_ok (s.tbRuns n) s.ticks (State.tb_ok h0.inv n) (State.stepAt_form s n)
  have h1 := State.setTb_keeps n ht h0
  unfold State.tickTb
  dsimp only
  repeat' first
    | with_reducible assumption
    | with_reducible apply State.put_keeps
    | with_reducible apply State.put64_keeps
    | split

theorem execTimeBaseTick_keeps {q : List Instr} {s : State} (h0 : s.Keeps q) :
    ∃ u, execTimeBaseTick s = .next u ∧ u.Keeps q := by
  refine ⟨_, rfl, ?_⟩
  try dsimp only
  repeat' first
    | with_reducible assumption
    | intro _
    | with_reducible apply State.tickTb_keeps
    | with_reducible apply State.foldl_keeps
    | simp only [State.Keeps.lit]
    | simp only [State.Keeps.litDm, List.length_set]
    | with_reducible apply State.ite_keeps
    | with_reducible apply State.ite_fst_keeps
    | split

theorem State.leaves_keeps {q : List Instr} {s : State} (p : Nat) (f : Frame) (ts : List TbTime) (h0 : s.Keeps q) :
    (State.leaves s p f ts).Keeps q := by
  unfold State.leaves
  try dsimp only
  repeat' first
    | with_reducible assumption
    | with_reducible apply State.reportLeave_keeps
    | with_reducible apply State.captureOut_keeps
    | with_reducible apply State.ite_keeps

theorem State.writeStep_keeps {q : List Instr} {s : State} (n : Nat) (h0 : s.Keeps q) : (State.writeStep s n).Keeps q :=
    by
  unfold State.writeStep
  dsimp only
  split
  · exact State.put_keeps h0 _ _
  · exact State.setTb_keeps n (State.tb_ok h0.inv n) h0

theorem State.writeIncNs_keeps {q : List Instr} {s : State} (n : Nat) (v : Nat) (h0 : s.Keeps q) :
    (State.writeIncNs s n v).Keeps q := by
  unfold State.writeIncNs
  dsimp only
  split
  · next hr =>
    refine State.setTb_keeps n ?_ h0
    have ht := State.tb_ok h0.inv n
    unfold TimeBase.ok at ht ⊢
    rw [Bool.and_eq_true] at ht ⊢
    refine ⟨ht.1, ?_⟩
    unfold incInRange
    exact decide_eq_true hr
  · exact State.setFlag_keeps _ (State.put_keeps h0 _ _)

theorem State.popPps_keeps {q : List Instr} {s : State} (n : Nat) (h0 : s.Keeps q) :
    (State.popPps s n).Keeps q := by
  unfold State.popPps
  try dsimp only
  repeat' first
    | with_reducible assumption
    | simp only [State.Keeps.lit]
    | with_reducible apply State.ite_keeps
    | with_reducible apply State.ite_fst_keeps
    | split

theorem State.writeSnap_keeps {q : List Instr} {s : State} (mask : Nat) (h0 : s.Keeps q) :
    (State.writeSnap s mask).Keeps q := by
  refine State.foldl_keeps (fun t n ht => ?_) _ h0
  split
  · exact State.setTb_keeps n (State.tb_ok ht.inv n) ht
  · exact ht

theorem State.popTxts_keeps {q : List Instr} {s : State} (pop : Bool) (h0 : s.Keeps q) :
    (State.popTxts s pop).Keeps q := by
  unfold State.popTxts
  split
  · refine ⟨{ h0.inv with txts := ?_ }, h0.queue⟩
    have := h0.inv.txts
    simp only [List.length_drop]
    omega
  · exact h0

theorem execIncNsWrite_keeps {q : List Instr} (r : Requester) (tb : Nat) (v : Nat) {s : State} (h0 : s.Keeps q) :
    ∃ u, execIncNsWrite r tb v s = .next u ∧ u.Keeps q := by
  refine ⟨_, rfl, ?_⟩
  try dsimp only
  repeat' first
    | with_reducible assumption
    | intro _
    | with_reducible apply State.gated_keeps
    | with_reducible apply State.writeIncNs_keeps
    | with_reducible apply State.foldl_keeps
    | simp only [State.Keeps.lit]
    | simp only [State.Keeps.litDm, List.length_set]
    | with_reducible apply State.ite_keeps
    | with_reducible apply State.ite_fst_keeps
    | split

theorem execTbStep_keeps {q : List Instr} (r : Requester) (tb : Nat) {s : State} (h0 : s.Keeps q) :
    ∃ u, execTbStep r tb s = .next u ∧ u.Keeps q := by
  refine ⟨_, rfl, ?_⟩
  try dsimp only
  repeat' first
    | with_reducible assumption
    | intro _
    | with_reducible apply State.gated_keeps
    | with_reducible apply State.writeStep_keeps
    | with_reducible apply State.foldl_keeps
    | simp only [State.Keeps.lit]
    | simp only [State.Keeps.litDm, List.length_set]
    | with_reducible apply State.ite_keeps
    | with_reducible apply State.ite_fst_keeps
    | split

theorem execTimSnap_keeps {q : List Instr} (r : Requester) (mask : Nat) {s : State} (h0 : s.Keeps q) :
    ∃ u, execTimSnap r mask s = .next u ∧ u.Keeps q := by
  refine ⟨_, rfl, ?_⟩
  try dsimp only
  repeat' first
    | with_reducible assumption
    | intro _
    | with_reducible apply State.gated_keeps
    | with_reducible apply State.writeSnap_keeps
    | with_reducible apply State.foldl_keeps
    | simp only [State.Keeps.lit]
    | simp only [State.Keeps.litDm, List.length_set]
    | with_reducible apply State.ite_keeps
    | with_reducible apply State.ite_fst_keeps
    | split

theorem execTxtsPop_keeps {q : List Instr} (r : Requester) (pop : Bool) {s : State} (h0 : s.Keeps q) :
    ∃ u, execTxtsPop r pop s = .next u ∧ u.Keeps q := by
  refine ⟨_, rfl, ?_⟩
  try dsimp only
  repeat' first
    | with_reducible assumption
    | intro _
    | with_reducible apply State.gated_keeps
    | with_reducible apply State.popTxts_keeps
    | with_reducible apply State.foldl_keeps
    | simp only [State.Keeps.lit]
    | simp only [State.Keeps.litDm, List.length_set]
    | with_reducible apply State.ite_keeps
    | with_reducible apply State.ite_fst_keeps
    | split

theorem execPpsPulse_keeps {q : List Instr} (n : Nat) {s : State} (h0 : s.Keeps q) :
    ∃ u, execPpsPulse n s = .next u ∧ u.Keeps q := by
  refine ⟨_, rfl, ?_⟩
  try dsimp only
  repeat' first
    | with_reducible assumption
    | simp only [State.Keeps.lit]
    | with_reducible apply State.ite_keeps
    | with_reducible apply State.ite_fst_keeps
    | split

theorem State.ppsCapture_keeps {q : List Instr} {s : State} (n : Nat) (elapsed : Nat) (h0 : s.Keeps q) :
    (State.ppsCapture s n elapsed).Keeps q := by
  unfold State.ppsCapture
  try dsimp only
  repeat' first
    | with_reducible assumption
    | with_reducible apply State.incSat_keeps
    | with_reducible apply State.put_keeps
    | simp only [State.Keeps.lit]
    | with_reducible apply State.ite_keeps
    | with_reducible apply State.ite_fst_keeps
    | split

theorem execPpsEdge_keeps {q : List Instr} (n : Nat) (elapsed : Nat) {s : State} (h0 : s.Keeps q) :
    ∃ u, execPpsEdge n s elapsed = .next u ∧ u.Keeps q := by
  refine ⟨_, rfl, ?_⟩
  try dsimp only
  repeat' first
    | with_reducible assumption
    | with_reducible apply State.ppsCapture_keeps
    | with_reducible apply State.ite_keeps

theorem execPpsCapPop_keeps {q : List Instr} (r : Requester) (n : Nat) {s : State} (h0 : s.Keeps q) :
    ∃ u, execPpsCapPop r n s = .next u ∧ u.Keeps q := by
  refine ⟨_, rfl, ?_⟩
  try dsimp only
  repeat' first
    | with_reducible assumption
    | intro _
    | with_reducible apply State.gated_keeps
    | with_reducible apply State.popPps_keeps
    | with_reducible apply State.foldl_keeps
    | simp only [State.Keeps.lit]
    | simp only [State.Keeps.litDm, List.length_set]
    | with_reducible apply State.ite_keeps
    | with_reducible apply State.ite_fst_keeps
    | split

end Sys2Proof.Machine
end

