-- ==== Sys2Proof/Laws/Keeps5.lean ====
section
/-! SUPPORT. What each operation of Legacy, Rings, Frer, Egress keeps: the good form, and the queue. -/

namespace Sys2Proof.Machine

/-! ## Legacy -/

theorem State.canPush_keeps {q : List Instr} {s : State} (n : Nat) (m : CanMsg) (tc : Nat) (time : Nat) (f : Option
    Frame) (h0 : s.Keeps q) :
    (State.canPush s n m tc time f).Keeps q := by
  unfold State.canPush
  try dsimp only
  repeat' first
    | with_reducible assumption
    | with_reducible apply State.setCan_keeps
    | with_reducible apply State.ite_keeps

theorem State.unpackStart_keeps {q : List Instr} {s : State} (p : Nat) (f : Frame) (h0 : s.Keeps q) :
    (State.unpackStart s p f).Keeps q := by
  unfold State.unpackStart
  try dsimp only
  repeat' first
    | with_reducible assumption
    | with_reducible apply State.setLin_keeps
    | with_reducible apply State.setCan_keeps
    | with_reducible apply State.ite_keeps

theorem State.canTake_keeps {q : List Instr} {s0 : State} (n : Nat) (f : Frame) (ts : List TbTime) (h0 : s0.Keeps q) :
    (State.canTake s0 n f ts).Keeps q := by
  unfold State.canTake
  try dsimp only
  repeat' first
    | with_reducible assumption
    | with_reducible apply State.unpackStart_keeps
    | with_reducible apply State.reportLeave_keeps
    | with_reducible apply State.canPush_keeps
    | with_reducible apply State.inc_keeps
    | with_reducible apply State.release_keeps
    | with_reducible apply State.ite_keeps

theorem State.linKeep_keeps {q : List Instr} {s : State} (n : Nat) (id : Nat) (h0 : s.Keeps q) :
    (State.linKeep s n id).Keeps q := by
  unfold State.linKeep
  try dsimp only
  repeat' first
    | with_reducible assumption
    | with_reducible apply State.setLin_keeps
    | simp only [State.Keeps.lit]
    | with_reducible apply State.ite_keeps
    | with_reducible apply State.ite_fst_keeps
    | split

theorem State.linWrite_keeps {q : List Instr} {s : State} (n : Nat) (id : Nat) (data : List Byte) (h0 : s.Keeps q) :
    (State.linWrite s n id data).1.Keeps q := by
  unfold State.linWrite
  try dsimp only
  repeat' first
    | with_reducible assumption
    | with_reducible apply State.put_keeps
    | with_reducible apply State.linKeep_keeps
    | with_reducible apply State.inc_keeps
    | simp only [State.Keeps.lit]
    | with_reducible apply State.ite_keeps
    | with_reducible apply State.ite_fst_keeps
    | split

theorem State.linWrite_keeps_eq {q : List Instr} {s : State} {n : Nat} {id : Nat} {data : List Byte} (h0 : s.Keeps q) {u
    : State} {w : Bool}
    (e : State.linWrite s n id data = (u, w)) : u.Keeps q := by
  have hu : (State.linWrite s n id data).1.Keeps q := by apply State.linWrite_keeps <;> assumption
  rw [e] at hu
  exact hu

theorem State.linTake_keeps {q : List Instr} {s : State} (n : Nat) (f : Frame) (ts : List TbTime) (h0 : s.Keeps q) :
    (State.linTake s n f ts).Keeps q := by
  unfold State.linTake
  try dsimp only
  repeat' first
    | with_reducible assumption
    | with_reducible apply State.unpackStart_keeps
    | with_reducible apply State.linWrite_keeps
    | with_reducible refine State.linWrite_keeps_eq ?_ ‹_›
    | with_reducible apply State.reportLeave_keeps
    | with_reducible apply State.leaves_keeps
    | with_reducible apply State.release_keeps
    | simp only [State.Keeps.lit]
    | with_reducible apply State.ite_keeps
    | with_reducible apply State.ite_fst_keeps
    | split

theorem State.canFlush_keeps {q : List Instr} {s : State} (n : Nat) (h0 : s.Keeps q) :
    (State.canFlush s n).Keeps q := by
  unfold State.canFlush
  try dsimp only
  repeat' first
    | with_reducible assumption
    | with_reducible apply State.setCan_keeps
    | with_reducible apply State.addCnt_keeps
    | with_reducible apply State.ite_keeps

theorem State.canRecover_keeps {q : List Instr} {s : State} (n : Nat) (h0 : s.Keeps q) :
    (State.canRecover s n).Keeps q := by
  unfold State.canRecover
  try dsimp only
  repeat' first
    | with_reducible assumption
    | with_reducible apply State.setCan_keeps
    | with_reducible apply State.ite_keeps

theorem State.writeCanAdmin_keeps {q : List Instr} {s : State} (n : Nat) (down : Bool) (h0 : s.Keeps q) :
    (State.writeCanAdmin s n down).Keeps q := by
  unfold State.writeCanAdmin
  try dsimp only
  repeat' first
    | with_reducible assumption
    | with_reducible apply State.setCan_keeps
    | with_reducible apply State.linkDown_keeps
    | with_reducible apply State.put_keeps
    | with_reducible apply State.ite_keeps

theorem State.writeSchedRun_keeps {q : List Instr} {s : State} (n : Nat) (run : Bool) (h0 : s.Keeps q) :
    (State.writeSchedRun s n run).Keeps q := by
  unfold State.writeSchedRun
  try dsimp only
  repeat' first
    | with_reducible assumption
    | with_reducible apply State.setLin_keeps
    | with_reducible apply State.put_keeps
    | with_reducible apply State.ite_keeps

theorem State.writeSchedSel_keeps {q : List Instr} {s : State} (n : Nat) (sel : Nat) (h0 : s.Keeps q) :
    (State.writeSchedSel s n sel).Keeps q := by
  unfold State.writeSchedSel
  try dsimp only
  repeat' first
    | with_reducible assumption
    | with_reducible apply State.setLin_keeps
    | with_reducible apply State.put_keeps
    | with_reducible apply State.ite_keeps

theorem State.writeLinAdmin_keeps {q : List Instr} {s : State} (n : Nat) (down : Bool) (h0 : s.Keeps q) :
    (State.writeLinAdmin s n down).Keeps q := by
  unfold State.writeLinAdmin
  try dsimp only
  repeat' first
    | with_reducible assumption
    | with_reducible apply State.linkDown_keeps
    | with_reducible apply State.linkUpNow_keeps
    | with_reducible apply State.put_keeps
    | with_reducible apply State.ite_keeps

theorem State.busOff_keeps {q : List Instr} {s : State} (n : Nat) (h0 : s.Keeps q) :
    (State.busOff s n).Keeps q := by
  unfold State.busOff
  try dsimp only
  repeat' first
    | with_reducible assumption
    | with_reducible apply State.setFlag_keeps
    | with_reducible apply State.setCan_keeps
    | with_reducible apply State.linkDown_keeps
    | with_reducible apply State.put_keeps
    | with_reducible apply State.inc_keeps
    | with_reducible apply State.ite_keeps

theorem State.canPassive_keeps {q : List Instr} {s : State} (n : Nat) (h0 : s.Keeps q) :
    (State.canPassive s n).Keeps q := by
  unfold State.canPassive
  try dsimp only
  repeat' first
    | with_reducible assumption
    | with_reducible apply State.setFlag_keeps
    | with_reducible apply State.put_keeps
    | with_reducible apply State.ite_keeps

theorem State.canError_keeps {q : List Instr} {s : State} (n : Nat) (b_e : CanErr) (h0 : s.Keeps q) :
    (State.canError s n b_e).Keeps q := by
  unfold State.canError
  try dsimp only
  repeat' first
    | with_reducible assumption
    | with_reducible apply State.setFlag_keeps
    | with_reducible apply State.setCan_keeps
    | with_reducible apply State.canPassive_keeps
    | with_reducible apply State.busOff_keeps
    | with_reducible apply State.put_keeps
    | with_reducible apply State.inc_keeps
    | with_reducible apply State.ite_keeps

theorem State.setAcf_keeps {q : List Instr} {s : State} (p : Nat) (b : List Byte) (n : Nat) (seq : Nat) (h0 : s.Keeps q) :
    (State.setAcf s p b n seq).Keeps q := by
  unfold State.setAcf
  try dsimp only
  repeat' first
    | with_reducible assumption
    | with_reducible apply State.setLin_keeps
    | with_reducible apply State.setCan_keeps
    | with_reducible apply State.ite_keeps

theorem State.acfClose_keeps {q : List Instr} {s : State} (p : Nat) (h0 : s.Keeps q) :
    (State.acfClose s p).Keeps q := by
  unfold State.acfClose
  try dsimp only
  repeat' first
    | with_reducible assumption
    | with_reducible apply State.setFlag_keeps
    | with_reducible apply State.receive_keeps
    | with_reducible refine State.receive_keeps_eq ?_ ‹_›
    | with_reducible apply State.setAcf_keeps
    | with_reducible apply State.inc_keeps
    | simp only [State.Keeps.lit]
    | with_reducible apply State.ite_keeps
    | with_reducible apply State.ite_fst_keeps
    | split

theorem State.acfAdd_keeps {q : List Instr} {s : State} (p : Nat) (m : List Byte) (h0 : s.Keeps q) :
    (State.acfAdd s p m).Keeps q := by
  unfold State.acfAdd
  try dsimp only
  repeat' first
    | with_reducible assumption
    | with_reducible apply State.setAcf_keeps
    | with_reducible apply State.acfClose_keeps
    | with_reducible apply State.ite_keeps

theorem State.canLogged_keeps {q : List Instr} {s : State} (n : Nat) (m : CanMsg) (ts : List TbTime) (v : CanVerdict)
    (h0 : s.Keeps q) :
    (State.canLogged s n m ts v).Keeps q := by
  unfold State.canLogged
  try dsimp only
  repeat' first
    | with_reducible assumption
    | with_reducible apply State.if4Token_keeps
    | with_reducible refine State.if4Token_keeps_eq ?_ ‹_›
    | with_reducible apply State.entryBuf_keeps
    | with_reducible refine State.entryBuf_keeps_eq ?_ ‹_›
    | with_reducible apply State.admission_keeps
    | simp only [State.Keeps.lit]
    | with_reducible apply State.ite_keeps
    | with_reducible apply State.ite_fst_keeps
    | split

theorem State.canAccept_keeps {q : List Instr} {s : State} (n : Nat) (m : CanMsg) (ts : List TbTime) (age : Nat) (h0 :
    s.Keeps q) :
    (State.canAccept s n m ts age).Keeps q := by
  unfold State.canAccept
  try dsimp only
  repeat' first
    | with_reducible assumption
    | with_reducible apply State.canLogged_keeps
    | with_reducible apply State.receive_keeps
    | with_reducible refine State.receive_keeps_eq ?_ ‹_›
    | with_reducible apply State.chimeSeen_keeps
    | with_reducible apply State.acfAdd_keeps
    | with_reducible apply State.canList_keeps
    | with_reducible refine State.canList_keeps_eq ?_ ‹_›
    | with_reducible apply State.inc_keeps
    | with_reducible apply State.canDenied_keeps
    | simp only [State.Keeps.lit]
    | with_reducible apply State.ite_keeps
    | with_reducible apply State.ite_fst_keeps
    | split

theorem State.canRxGood_keeps {q : List Instr} {s : State} (n : Nat) (h0 : s.Keeps q) :
    (State.canRxGood s n).Keeps q := by
  unfold State.canRxGood
  try dsimp only
  repeat' first
    | with_reducible assumption
    | with_reducible apply State.setCan_keeps
    | with_reducible apply State.fresh_keeps
    | with_reducible apply State.canPassive_keeps
    | with_reducible apply State.ite_keeps

theorem execCanMessageReceive_keeps {q : List Instr} (n : Nat) (msg : CanMsg) (age : Nat) {s : State} (h0 : s.Keeps q) :
    ∃ u, execCanMessageReceive n msg age s = .next u ∧ u.Keeps q := by
  refine ⟨_, rfl, ?_⟩
  try dsimp only
  repeat' first
    | with_reducible assumption
    | with_reducible apply State.setCan_keeps
    | with_reducible apply State.canError_keeps
    | with_reducible apply State.canRxGood_keeps
    | with_reducible apply State.inc_keeps
    | with_reducible apply State.canAccept_keeps
    | with_reducible apply State.ite_keeps

theorem execCanProtocolError_keeps {q : List Instr} (n : Nat) (err : CanErr) {s : State} (h0 : s.Keeps q) :
    ∃ u, execCanProtocolError n err s = .next u ∧ u.Keeps q := by
  refine ⟨_, rfl, ?_⟩
  try dsimp only
  repeat' first
    | with_reducible assumption
    | with_reducible apply State.canError_keeps
    | with_reducible apply State.ite_keeps

theorem execCanRecover_keeps {q : List Instr} (r : Requester) (n : Nat) {s : State} (h0 : s.Keeps q) :
    ∃ u, execCanRecover r n s = .next u ∧ u.Keeps q := by
  refine ⟨_, rfl, ?_⟩
  try dsimp only
  repeat' first
    | with_reducible assumption
    | intro _
    | with_reducible apply State.gated_keeps
    | with_reducible apply State.canRecover_keeps
    | with_reducible apply State.foldl_keeps
    | simp only [State.Keeps.lit]
    | simp only [State.Keeps.litDm, List.length_set]
    | with_reducible apply State.ite_keeps
    | with_reducible apply State.ite_fst_keeps
    | split

theorem execBusOffRecoveryEnd_keeps {q : List Instr} (n : Nat) {s : State} (h0 : s.Keeps q) :
    ∃ u, execBusOffRecoveryEnd n s = .next u ∧ u.Keeps q := by
  refine ⟨_, rfl, ?_⟩
  try dsimp only
  repeat' first
    | with_reducible assumption
    | with_reducible apply State.setCan_keeps
    | with_reducible apply State.linkUpNow_keeps
    | with_reducible apply State.put_keeps
    | with_reducible apply State.ite_keeps

theorem State.canArbitrate_keeps {q : List Instr} {s : State} (n : Nat) (elapsed : Nat) (won : Bool) (h0 : s.Keeps q) :
    (State.canArbitrate s n elapsed won).Keeps q := by
  unfold State.canArbitrate
  try dsimp only
  repeat' first
    | with_reducible assumption
    | with_reducible apply State.setFlag_keeps
    | with_reducible apply State.setCan_keeps
    | with_reducible apply State.addCnt_keeps
    | simp only [State.Keeps.lit]
    | with_reducible apply State.ite_keeps
    | with_reducible apply State.ite_fst_keeps
    | split

theorem execCanArbitration_keeps {q : List Instr} (n : Nat) (elapsed : Nat) (won : Bool) {s : State} (h0 : s.Keeps q) :
    ∃ u, execCanArbitration n s elapsed won = .next u ∧ u.Keeps q := by
  refine ⟨_, rfl, ?_⟩
  try dsimp only
  repeat' first
    | with_reducible assumption
    | with_reducible apply State.canArbitrate_keeps
    | with_reducible apply State.ite_keeps

theorem execCanTxSuccess_keeps {q : List Instr} (n : Nat) {s : State} (h0 : s.Keeps q) :
    ∃ u, execCanTxSuccess n s = .next u ∧ u.Keeps q := by
  refine ⟨_, rfl, ?_⟩
  try dsimp only
  repeat' first
    | with_reducible assumption
    | with_reducible apply State.setCan_keeps
    | with_reducible apply State.canPassive_keeps
    | with_reducible apply State.inc_keeps
    | with_reducible apply State.nmRestart_keeps
    | with_reducible apply State.captureOut_keeps
    | simp only [State.Keeps.lit]
    | with_reducible apply State.ite_keeps
    | with_reducible apply State.ite_fst_keeps
    | split

theorem execCanFlushTxbuf_keeps {q : List Instr} (r : Requester) (n : Nat) {s : State} (h0 : s.Keeps q) :
    ∃ u, execCanFlushTxbuf r n s = .next u ∧ u.Keeps q := by
  refine ⟨_, rfl, ?_⟩
  try dsimp only
  repeat' first
    | with_reducible assumption
    | intro _
    | with_reducible apply State.canFlush_keeps
    | with_reducible apply State.gated_keeps
    | with_reducible apply State.foldl_keeps
    | simp only [State.Keeps.lit]
    | simp only [State.Keeps.litDm, List.length_set]
    | with_reducible apply State.ite_keeps
    | with_reducible apply State.ite_fst_keeps
    | split

theorem execCanAdminDown_keeps {q : List Instr} (r : Requester) (n : Nat) (down : Bool) {s : State} (h0 : s.Keeps q) :
    ∃ u, execCanAdminDown r n down s = .next u ∧ u.Keeps q := by
  refine ⟨_, rfl, ?_⟩
  try dsimp only
  repeat' first
    | with_reducible assumption
    | intro _
    | with_reducible apply State.gated_keeps
    | with_reducible apply State.writeCanAdmin_keeps
    | with_reducible apply State.foldl_keeps
    | simp only [State.Keeps.lit]
    | simp only [State.Keeps.litDm, List.length_set]
    | with_reducible apply State.ite_keeps
    | with_reducible apply State.ite_fst_keeps
    | split

theorem execLinAdminDown_keeps {q : List Instr} (r : Requester) (n : Nat) (down : Bool) {s : State} (h0 : s.Keeps q) :
    ∃ u, execLinAdminDown r n down s = .next u ∧ u.Keeps q := by
  refine ⟨_, rfl, ?_⟩
  try dsimp only
  repeat' first
    | with_reducible assumption
    | intro _
    | with_reducible apply State.gated_keeps
    | with_reducible apply State.writeLinAdmin_keeps
    | with_reducible apply State.foldl_keeps
    | simp only [State.Keeps.lit]
    | simp only [State.Keeps.litDm, List.length_set]
    | with_reducible apply State.ite_keeps
    | with_reducible apply State.ite_fst_keeps
    | split

theorem execLinBusDominant_keeps {q : List Instr} (n : Nat) {s : State} (h0 : s.Keeps q) :
    ∃ u, execLinBusDominant n s = .next u ∧ u.Keeps q := by
  refine ⟨_, rfl, ?_⟩
  try dsimp only
  repeat' first
    | with_reducible assumption
    | with_reducible apply State.linkDown_keeps
    | with_reducible apply State.put_keeps
    | with_reducible apply State.ite_keeps

theorem State.linStop_keeps {q : List Instr} {s : State} (n : Nat) (h0 : s.Keeps q) :
    (State.linStop s n).Keeps q := by
  unfold State.linStop
  try dsimp only
  repeat' first
    | with_reducible assumption
    | with_reducible apply State.setLin_keeps
    | with_reducible apply State.put_keeps
    | with_reducible apply State.inc_keeps
    | with_reducible apply State.ite_keeps

theorem State.linHeader_keeps {q : List Instr} {s : State} (n : Nat) (id : Nat) (ts : List TbTime) (age : Nat) (h0 :
    s.Keeps q) :
    (State.linHeader s n id ts age).Keeps q := by
  unfold State.linHeader
  try dsimp only
  repeat' first
    | with_reducible assumption
    | with_reducible apply State.setLin_keeps
    | with_reducible apply State.setFlag_keeps
    | with_reducible apply State.inc_keeps
    | simp only [State.Keeps.lit]
    | with_reducible apply State.ite_keeps
    | with_reducible apply State.ite_fst_keeps
    | split

theorem State.linAdvance_keeps {q : List Instr} {s : State} (n : Nat) (elapsed : Nat) (h0 : s.Keeps q) :
    (State.linAdvance s n elapsed).Keeps q := by
  unfold State.linAdvance
  try dsimp only
  repeat' first
    | with_reducible assumption
    | with_reducible apply State.setLin_keeps
    | with_reducible apply State.setFlag_keeps
    | with_reducible apply State.put_keeps
    | with_reducible apply State.inc_keeps
    | with_reducible apply State.linHeader_keeps
    | with_reducible apply State.ite_keeps

theorem execLinSlot_keeps {q : List Instr} (n : Nat) (elapsed : Nat) {s : State} (h0 : s.Keeps q) :
    ∃ u, execLinSlot n s elapsed = .next u ∧ u.Keeps q := by
  refine ⟨_, rfl, ?_⟩
  try dsimp only
  repeat' first
    | with_reducible assumption
    | with_reducible apply State.linAdvance_keeps
    | with_reducible apply State.linStop_keeps
    | with_reducible apply State.ite_keeps

theorem execLinHeader_keeps {q : List Instr} (n : Nat) (pid : Nat) (age : Nat) {s : State} (h0 : s.Keeps q) :
    ∃ u, execLinHeader n pid age s = .next u ∧ u.Keeps q := by
  refine ⟨_, rfl, ?_⟩
  try dsimp only
  repeat' first
    | with_reducible assumption
    | with_reducible apply State.linHeader_keeps
    | with_reducible apply State.ite_keeps

theorem State.linStart_keeps {q : List Instr} {s : State} (n : Nat) (h0 : s.Keeps q) :
    (State.linStart s n).Keeps q := by
  unfold State.linStart
  try dsimp only
  repeat' first
    | with_reducible assumption
    | with_reducible apply State.setLin_keeps
    | simp only [State.Keeps.lit]
    | with_reducible apply State.ite_keeps
    | with_reducible apply State.ite_fst_keeps
    | split

theorem State.linError_keeps {q : List Instr} {s : State} (n : Nat) (cnt : Fld) (h0 : s.Keeps q) :
    (State.linError s n cnt).Keeps q := by
  unfold State.linError
  try dsimp only
  repeat' first
    | with_reducible assumption
    | with_reducible apply State.setLin_keeps
    | with_reducible apply State.setFlag_keeps
    | with_reducible apply State.inc_keeps
    | with_reducible apply State.ite_keeps

theorem State.linAccept_keeps {q : List Instr} {s : State} (n : Nat) (id : Nat) (data : List Byte) (h0 : s.Keeps q) :
    (State.linAccept s n id data).Keeps q := by
  unfold State.linAccept
  try dsimp only
  repeat' first
    | with_reducible assumption
    | with_reducible apply State.setLin_keeps
    | with_reducible apply State.receive_keeps
    | with_reducible apply State.acfAdd_keeps
    | with_reducible apply State.inc_keeps
    | with_reducible apply State.ite_keeps

theorem execLinResponse_keeps {q : List Instr} (n : Nat) (data : List Byte) (err : LinErr) {s : State} (h0 : s.Keeps q) :
    ∃ u, execLinResponse n data err s = .next u ∧ u.Keeps q := by
  refine ⟨_, rfl, ?_⟩
  try dsimp only
  repeat' first
    | with_reducible assumption
    | with_reducible apply State.setLin_keeps
    | with_reducible apply State.linError_keeps
    | with_reducible apply State.linStart_keeps
    | with_reducible apply State.linAccept_keeps
    | simp only [State.Keeps.lit]
    | with_reducible apply State.ite_keeps
    | with_reducible apply State.ite_fst_keeps
    | split

theorem execLinResponseTimeout_keeps {q : List Instr} (n : Nat) {s : State} (h0 : s.Keeps q) :
    ∃ u, execLinResponseTimeout n s = .next u ∧ u.Keeps q := by
  refine ⟨_, rfl, ?_⟩
  try dsimp only
  repeat' first
    | with_reducible assumption
    | with_reducible apply State.linError_keeps
    | with_reducible apply State.ite_keeps

theorem execLinSchedSel_keeps {q : List Instr} (r : Requester) (n : Nat) (sel : Nat) {s : State} (h0 : s.Keeps q) :
    ∃ u, execLinSchedSel r n sel s = .next u ∧ u.Keeps q := by
  refine ⟨_, rfl, ?_⟩
  try dsimp only
  repeat' first
    | with_reducible assumption
    | intro _
    | with_reducible apply State.gated_keeps
    | with_reducible apply State.writeSchedSel_keeps
    | with_reducible apply State.foldl_keeps
    | simp only [State.Keeps.lit]
    | simp only [State.Keeps.litDm, List.length_set]
    | with_reducible apply State.ite_keeps
    | with_reducible apply State.ite_fst_keeps
    | split

theorem execLinSchedRun_keeps {q : List Instr} (r : Requester) (n : Nat) (run : Bool) {s : State} (h0 : s.Keeps q) :
    ∃ u, execLinSchedRun r n run s = .next u ∧ u.Keeps q := by
  refine ⟨_, rfl, ?_⟩
  try dsimp only
  repeat' first
    | with_reducible assumption
    | intro _
    | with_reducible apply State.gated_keeps
    | with_reducible apply State.writeSchedRun_keeps
    | with_reducible apply State.foldl_keeps
    | simp only [State.Keeps.lit]
    | simp only [State.Keeps.litDm, List.length_set]
    | with_reducible apply State.ite_keeps
    | with_reducible apply State.ite_fst_keeps
    | split

theorem execAcfBatchClose_keeps {q : List Instr} (lin : Bool) (n : Nat) {s : State} (h0 : s.Keeps q) :
    ∃ u, execAcfBatchClose lin n s = .next u ∧ u.Keeps q := by
  refine ⟨_, rfl, ?_⟩
  try dsimp only
  repeat' first
    | with_reducible assumption
    | with_reducible apply State.acfClose_keeps
    | with_reducible apply State.ite_keeps

theorem State.unpackRest_keeps {q : List Instr} {s : State} (p : Nat) (b_u : Unpack) (rest : List Byte) (h0 : s.Keeps q) :
    (State.unpackRest s p b_u rest).Keeps q := by
  unfold State.unpackRest
  try dsimp only
  repeat' first
    | with_reducible assumption
    | with_reducible apply State.setLin_keeps
    | with_reducible apply State.setCan_keeps
    | with_reducible apply State.captureOut_keeps
    | with_reducible apply State.release_keeps
    | with_reducible apply State.ite_keeps

theorem State.unpackCan_keeps {q : List Instr} {s : State} (n : Nat) (f : Frame) (m : CanMsg) (h0 : s.Keeps q) :
    ∀ u, State.unpackCan s n f m = some u → u.Keeps q := by
  unfold State.unpackCan
  intro u hu
  repeat' split at hu
  all_goals first | cases hu | skip
  all_goals repeat' first
    | with_reducible assumption
    | with_reducible apply State.canPush_keeps
    | with_reducible apply State.canList_keeps
    | with_reducible refine State.canList_keeps_eq ?_ ‹_›
    | with_reducible apply State.inc_keeps
    | with_reducible apply State.canDenied_keeps
    | simp only [State.Keeps.lit]
    | with_reducible apply State.ite_keeps
    | with_reducible apply State.ite_fst_keeps
    | split

theorem State.unpackCan_keeps_eq {q : List Instr} {s : State} {n : Nat} {f : Frame} {m : CanMsg} (h0 : s.Keeps q) {u :
    State}
    (e : State.unpackCan s n f m = some u) : u.Keeps q := by
  revert u e
  apply State.unpackCan_keeps <;> assumption

theorem State.unpackNext_keeps {q : List Instr} {s : State} (p : Nat) (b_u : Unpack) (h0 : s.Keeps q) :
    (State.unpackNext s p b_u).Keeps q := by
  unfold State.unpackNext
  try dsimp only
  repeat' first
    | with_reducible assumption
    | with_reducible apply State.setFlag_keeps
    | with_reducible apply State.linWrite_keeps
    | with_reducible refine State.linWrite_keeps_eq ?_ ‹_›
    | with_reducible refine State.unpackCan_keeps_eq ?_ ‹_›
    | with_reducible apply State.inc_keeps
    | with_reducible apply State.unpackRest_keeps
    | simp only [State.Keeps.lit]
    | with_reducible apply State.ite_keeps
    | with_reducible apply State.ite_fst_keeps
    | split

theorem execUnpackMove_keeps {q : List Instr} (lin : Bool) (n : Nat) {s : State} (h0 : s.Keeps q) :
    ∃ u, execUnpackMove lin n s = .next u ∧ u.Keeps q := by
  refine ⟨_, rfl, ?_⟩
  try dsimp only
  repeat' first
    | with_reducible assumption
    | with_reducible apply State.unpackNext_keeps
    | simp only [State.Keeps.lit]
    | with_reducible apply State.ite_keeps
    | with_reducible apply State.ite_fst_keeps
    | split

theorem execCanBusIntegration_keeps {q : List Instr} (n : Nat) {s : State} (h0 : s.Keeps q) :
    ∃ u, execCanBusIntegration n s = .next u ∧ u.Keeps q := by
  refine ⟨_, rfl, ?_⟩
  try dsimp only
  repeat' first
    | with_reducible assumption
    | with_reducible apply State.setCan_keeps
    | with_reducible apply State.linkUpNow_keeps
    | with_reducible apply State.ite_keeps

theorem execLinBusRelease_keeps {q : List Instr} (n : Nat) {s : State} (h0 : s.Keeps q) :
    ∃ u, execLinBusRelease n s = .next u ∧ u.Keeps q := by
  refine ⟨_, rfl, ?_⟩
  try dsimp only
  repeat' first
    | with_reducible assumption
    | with_reducible apply State.linkUpNow_keeps
    | with_reducible apply State.put_keeps
    | with_reducible apply State.ite_keeps

/-! ## Rings -/

theorem State.sendInband_keeps {q : List Instr} {s : State} (tn : Nat) (type : Nat) (entries : List (List Byte)) (h0 :
    s.Keeps q) :
    (State.sendInband s tn type entries).Keeps q := by
  unfold State.sendInband
  try dsimp only
  repeat' first
    | with_reducible assumption
    | with_reducible apply State.random_keeps
    | with_reducible refine State.random_keeps_eq ?_ ‹_›
    | with_reducible apply State.admission_keeps
    | with_reducible apply State.alloc_keeps
    | with_reducible refine State.alloc_keeps_eq ?_ ‹_›
    | simp only [State.Keeps.lit]
    | with_reducible apply State.ite_keeps
    | with_reducible apply State.ite_fst_keeps
    | split

theorem State.dozeWake_keeps {q : List Instr} {s : State} (tn : Nat) (h0 : s.Keeps q) :
    (State.dozeWake s tn).Keeps q := by
  unfold State.dozeWake
  try dsimp only
  repeat' first
    | with_reducible assumption
    | with_reducible apply State.setTen_keeps
    | with_reducible apply State.sendInband_keeps
    | simp only [State.Keeps.lit]
    | with_reducible apply State.ite_keeps
    | with_reducible apply State.ite_fst_keeps
    | split

theorem State.vecEvent_keeps {q : List Instr} {s : State} (tn : Nat) (v : Nat) (cpl : Bool) (h0 : s.Keeps q) :
    (State.vecEvent s tn v cpl).Keeps q := by
  unfold State.vecEvent
  try dsimp only
  repeat' first
    | with_reducible assumption
    | with_reducible apply State.setTen_keeps
    | with_reducible apply State.dozeWake_keeps
    | with_reducible apply State.ite_keeps

theorem State.ringWrite_keeps {q : List Instr} {s : State} (who : Option Nat) (a : Nat) (bs : List Byte) (h0 : s.Keeps
    q) :
    (State.ringWrite s who a bs).Keeps q := by
  unfold State.ringWrite
  split
  · exact State.dmaWrite_keeps _ _ _ h0
  · exact ⟨{ h0.inv with mcMem := Memory.wf_memPut _ _ h0.inv.mcMem }, h0.queue⟩

theorem State.rxWrite_keeps {q : List Instr} {s : State} (b_q : Ring) (f : Frame) (h0 : s.Keeps q) :
    ∀ u, State.rxWrite s b_q f = some u → u.Keeps q := by
  intro u hu
  unfold State.rxWrite at hu
  dsimp only at hu
  generalize f.rx.if4 ++ (if f.legacy = true then f.bytes else f.bytes.take (f.bytes.length - 4)) = d at hu
  split at hu
  · cases hu
  · cases hu
    exact State.ringWrite_keeps _ _ _ (State.ringWrite_keeps _ _ _ h0)

theorem State.rxWrite_keeps_eq {q : List Instr} {s : State} {b_q : Ring} {f : Frame} (h0 : s.Keeps q) {u : State}
    (e : State.rxWrite s b_q f = some u) : u.Keeps q := by
  revert u e
  apply State.rxWrite_keeps <;> assumption

theorem State.ifDeliver_keeps {q : List Instr} {s : State} (f : Frame) (b_q : Nat) (ts : List TbTime) (h0 : s.Keeps q) :
    (State.ifDeliver s f b_q ts).Keeps q := by
  unfold State.ifDeliver
  try dsimp only
  repeat' first
    | with_reducible assumption
    | with_reducible apply State.setFlag_keeps
    | with_reducible apply State.drop_keeps
    | with_reducible refine State.rxWrite_keeps_eq ?_ ‹_›
    | with_reducible apply State.put_keeps
    | with_reducible apply State.leaves_keeps
    | with_reducible apply State.release_keeps
    | simp only [State.Keeps.lit]
    | with_reducible apply State.ite_keeps
    | with_reducible apply State.ite_fst_keeps
    | split

theorem State.hvDeliver_keeps {q : List Instr} {s : State} (f : Frame) (p : Nat) (ts : List TbTime) (h0 : s.Keeps q) :
    (State.hvDeliver s f p ts).Keeps q := by
  unfold State.hvDeliver
  try dsimp only
  repeat' first
    | with_reducible assumption
    | with_reducible apply State.vecEvent_keeps
    | with_reducible apply State.drop_keeps
    | with_reducible apply State.addCnt64_keeps
    | with_reducible refine State.rxWrite_keeps_eq ?_ ‹_›
    | with_reducible apply State.put_keeps
    | with_reducible apply State.inc_keeps
    | with_reducible apply State.leaves_keeps
    | with_reducible apply State.release_keeps
    | simp only [State.Keeps.lit]
    | with_reducible apply State.ite_keeps
    | with_reducible apply State.ite_fst_keeps
    | split

/-! ## Frer -/

theorem State.recLost_keeps {q : List Instr} {s : State} (f : Frame) (r : Nat) (rogue : Bool) (h0 : s.Keeps q) :
    (State.recLost s f r rogue).Keeps q := by
  unfold State.recLost
  try dsimp only
  repeat' first
    | with_reducible assumption
    | with_reducible apply State.setFlag_keeps
    | with_reducible apply State.inc_keeps
    | with_reducible apply State.release_keeps
    | with_reducible apply State.ite_keeps

theorem State.recPass_keeps {q : List Instr} {s : State} (r : Nat) (seq : Nat) (recov : Nat) (history : Nat) (behind :
    Bool) (h0 : s.Keeps q) :
    (State.recPass s r seq recov history behind).1.Keeps q := by
  unfold State.recPass
  try dsimp only
  repeat' first
    | with_reducible assumption
    | with_reducible apply State.put_keeps
    | with_reducible apply State.inc_keeps
    | with_reducible apply State.setRec_keeps
    | with_reducible apply State.ite_keeps

theorem State.recPass_keeps_eq {q : List Instr} {s : State} {r : Nat} {seq : Nat} {recov : Nat} {history : Nat} {behind
    : Bool} (h0 : s.Keeps q) {u : State} {w : FrerUndo}
    (e : State.recPass s r seq recov history behind = (u, w)) : u.Keeps q := by
  have hu : (State.recPass s r seq recov history behind).1.Keeps q := by apply State.recPass_keeps <;> assumption
  rw [e] at hu
  exact hu

theorem State.takeAny_keeps {q : List Instr} {s : State} (r : Nat) (h0 : s.Keeps q) :
    (State.takeAny s r).Keeps q := by
  unfold State.takeAny
  try dsimp only
  repeat' first
    | with_reducible assumption
    | with_reducible apply State.put_keeps
    | with_reducible apply State.setRec_keeps
    | with_reducible apply State.ite_keeps

theorem execFrerResetTimer_keeps {q : List Instr} (pl : Plane) (rec : Nat) {s : State} (h0 : s.Keeps q) :
    ∃ u, execFrerResetTimer pl rec s = .next u ∧ u.Keeps q := by
  refine ⟨_, rfl, ?_⟩
  try dsimp only
  repeat' first
    | with_reducible assumption
    | with_reducible apply State.setFlag_keeps
    | with_reducible apply State.inc_keeps
    | with_reducible apply State.setRec_keeps
    | with_reducible apply State.takeAny_keeps
    | with_reducible apply State.ite_keeps

theorem execTakeAnyWrite_keeps {q : List Instr} (r : Requester) (pl : Plane) (rec : Nat) {s : State} (h0 : s.Keeps q) :
    ∃ u, execTakeAnyWrite r pl rec s = .next u ∧ u.Keeps q := by
  refine ⟨_, rfl, ?_⟩
  try dsimp only
  repeat' first
    | with_reducible assumption
    | intro _
    | with_reducible apply State.gated_keeps
    | with_reducible apply State.takeAny_keeps
    | with_reducible apply State.foldl_keeps
    | simp only [State.Keeps.lit]
    | simp only [State.Keeps.litDm, List.length_set]
    | with_reducible apply State.ite_keeps
    | with_reducible apply State.ite_fst_keeps
    | split

/-! ## Egress -/

theorem State.shReset_keeps {q : List Instr} {s : State} (en : Fld) (full : Fld) (burst : Fld) (level : Fld) (h0 :
    s.Keeps q) :
    (State.shReset s en full burst level).Keeps q := by
  unfold State.shReset
  try dsimp only
  repeat' first
    | with_reducible assumption
    | with_reducible apply State.put_keeps
    | simp only [State.Keeps.lit]
    | with_reducible apply State.ite_keeps
    | with_reducible apply State.ite_fst_keeps
    | split

theorem State.commitTx_keeps {q : List Instr} {s : State} (p : Nat) (elapsed : Nat) (pool : Bool) (again : Bool) (raw :
    List Byte) (f : Frame) (undo : Option FrerUndo) (h0 : s.Keeps q) :
    (State.commitTx s p elapsed pool again raw f undo).1.Keeps q := by
  unfold State.commitTx
  try dsimp only
  repeat' first
    | with_reducible assumption
    | with_reducible apply State.inc_keeps
    | with_reducible apply State.txRequest_keeps
    | with_reducible refine State.txRequest_keeps_eq ?_ ‹_›
    | simp only [State.Keeps.lit]
    | with_reducible apply State.ite_keeps
    | with_reducible apply State.ite_fst_keeps
    | split

theorem State.commitTx_keeps_eq {q : List Instr} {s : State} {p : Nat} {elapsed : Nat} {pool : Bool} {again : Bool} {raw
    : List Byte} {f : Frame} {undo : Option FrerUndo} (h0 : s.Keeps q) {u : State} {w : TxFrame}
    (e : State.commitTx s p elapsed pool again raw f undo = (u, w)) : u.Keeps q := by
  have hu : (State.commitTx s p elapsed pool again raw f undo).1.Keeps q := by apply State.commitTx_keeps <;> assumption
  rw [e] at hu
  exact hu

theorem State.resend_keeps {q : List Instr} {s : State} (p : Nat) (elapsed : Nat) (h0 : s.Keeps q) :
    (State.resend s p elapsed).Keeps q := by
  unfold State.resend
  try dsimp only
  repeat' first
    | with_reducible assumption
    | with_reducible apply State.setPort_keeps
    | with_reducible apply State.commitTx_keeps
    | with_reducible refine State.commitTx_keeps_eq ?_ ‹_›
    | simp only [State.Keeps.lit]
    | with_reducible apply State.ite_keeps
    | with_reducible apply State.ite_fst_keeps
    | split

theorem State.popHead_keeps {q : List Instr} {s : State} (pl : Plane) (b_q : Nat) (h0 : s.Keeps q) :
    (State.popHead s pl b_q).Keeps q := by
  unfold State.popHead
  try dsimp only
  repeat' first
    | with_reducible assumption
    | with_reducible apply State.classEmptied_keeps
    | with_reducible apply State.unqueue_keeps
    | with_reducible apply State.ite_keeps

theorem State.holdFrame_keeps {q : List Instr} {s : State} (c : Nat) (p : Nat) (b_q : Nat) (f : Frame) (h0 : s.Keeps q) :
    (State.holdFrame s c p b_q f).Keeps q := by
  unfold State.holdFrame
  try dsimp only
  repeat' first
    | with_reducible assumption
    | with_reducible apply State.setFlag_keeps
    | with_reducible apply State.ctxRelease_keeps
    | with_reducible apply State.inc_keeps
    | with_reducible apply State.setCtx_keeps
    | with_reducible apply State.unqueue_keeps
    | with_reducible apply State.ite_keeps

theorem State.dealHead_keeps {q : List Instr} {s : State} (p : Nat) (c : Nat) (a3 : Nat) (h0 : s.Keeps q) :
    (State.dealHead s p c a3).1.Keeps q := by
  fun_induction State.dealHead s p c a3
  all_goals try dsimp only
  all_goals repeat' first
    | with_reducible assumption
    | with_reducible apply State.drop_keeps
    | with_reducible apply State.popHead_keeps
    | with_reducible apply State.holdFrame_keeps
    | with_reducible apply State.inc_keeps
    | with_reducible apply State.recLost_keeps
    | with_reducible apply State.settleHead_keeps
    | with_reducible apply State.release_keeps
    | with_reducible apply_assumption
    | with_reducible apply State.ite_keeps

theorem State.dealHead_keeps_eq {q : List Instr} {s : State} {p : Nat} {c : Nat} {a3 : Nat} (h0 : s.Keeps q) {u : State}
    {w : Option (Frame × RecHead)}
    (e : State.dealHead s p c a3 = (u, w)) : u.Keeps q := by
  have hu : (State.dealHead s p c a3).1.Keeps q := by apply State.dealHead_keeps <;> assumption
  rw [e] at hu
  exact hu

theorem State.lookAt_keeps {q : List Instr} {s : State} (p : Nat) (c : Nat) (h0 : s.Keeps q) :
    (State.lookAt s p c).1.Keeps q := by
  unfold State.lookAt
  try dsimp only
  repeat' first
    | with_reducible assumption
    | with_reducible apply State.setPort_keeps
    | with_reducible apply State.put_keeps
    | with_reducible apply State.dealHead_keeps
    | with_reducible refine State.dealHead_keeps_eq ?_ ‹_›
    | simp only [State.Keeps.lit]
    | with_reducible apply State.ite_keeps
    | with_reducible apply State.ite_fst_keeps
    | split

theorem State.lookAt_keeps_eq {q : List Instr} {s : State} {p : Nat} {c : Nat} (h0 : s.Keeps q) {u : State} {w : Option
    Head}
    (e : State.lookAt s p c = (u, w)) : u.Keeps q := by
  have hu : (State.lookAt s p c).1.Keeps q := by apply State.lookAt_keeps <;> assumption
  rw [e] at hu
  exact hu

theorem State.pickExpress_keeps {q : List Instr} {s : State} (p : Nat) (a2 : List Nat) (h0 : s.Keeps q) :
    (State.pickExpress s p a2).1.Keeps q := by
  fun_induction State.pickExpress s p a2
  all_goals try dsimp only
  all_goals repeat' first
    | with_reducible assumption
    | with_reducible apply State.lookAt_keeps
    | with_reducible refine State.lookAt_keeps_eq ?_ ‹_›
    | with_reducible apply_assumption
    | simp only [State.Keeps.lit]
    | with_reducible apply State.ite_keeps
    | with_reducible apply State.ite_fst_keeps
    | split

theorem State.pickExpress_keeps_eq {q : List Instr} {s : State} {p : Nat} {a2 : List Nat} (h0 : s.Keeps q) {u : State}
    {w : Option Head}
    (e : State.pickExpress s p a2 = (u, w)) : u.Keeps q := by
  have hu : (State.pickExpress s p a2).1.Keeps q := by apply State.pickExpress_keeps <;> assumption
  rw [e] at hu
  exact hu

theorem State.pickAll_keeps {q : List Instr} {s : State} (p : Nat) (l : List Nat) (h0 : s.Keeps q) :
    (State.pickAll s p l).1.Keeps q := by
  induction l generalizing s with
  | nil => exact h0
  | cons c t ih =>
    unfold State.pickAll
    split
    · exact ih h0
    · split
      · next e => exact ih (State.lookAt_keeps_eq h0 e)
      · next e => exact ih (State.lookAt_keeps_eq h0 e)

theorem State.pickAll_keeps_eq {q : List Instr} {s : State} {p : Nat} {a2 : List Nat} (h0 : s.Keeps q) {u : State} {w :
    List Head}
    (e : State.pickAll s p a2 = (u, w)) : u.Keeps q := by
  have hu : (State.pickAll s p a2).1.Keeps q := by apply State.pickAll_keeps <;> assumption
  rw [e] at hu
  exact hu

theorem State.drrNext_keeps {q : List Instr} {s : State} (p : Nat) (h0 : s.Keeps q) :
    (State.drrNext s p).Keeps q := by
  unfold State.drrNext
  try dsimp only
  repeat' first
    | with_reducible assumption
    | simp only [State.Keeps.lit]
    | with_reducible apply State.ite_keeps
    | with_reducible apply State.ite_fst_keeps
    | split

theorem State.drrLoop_keeps {q : List Instr} {s : State} (p : Nat) (l : List Head) (n : Nat) (h0 : s.Keeps q) :
    (State.drrLoop s p l n).1.Keeps q := by
  induction n generalizing s with
  | zero => exact h0
  | succ n ih =>
    unfold State.drrLoop
    dsimp only
    split
    · exact ih (State.drrNext_keeps _ (State.put_keeps h0 _ _))
    · have h1 : (if s.flag (SCH_QDEFICIT_VISITED .A (8 * p + s.drrAt p)) = true then s
          else (s.addCnt (SCH_QDEFICIT_DEFICIT .A (8 * p + s.drrAt p)) (s.fld (SCH_QCFG_QUANTUM .A (8 * p + s.drrAt
              p)))).put
            (SCH_QDEFICIT_VISITED .A (8 * p + s.drrAt p)) 1).Keeps q := by
        split
        · exact h0
        · exact State.put_keeps (State.addCnt_keeps _ _ h0) _ _
      generalize (if s.flag (SCH_QDEFICIT_VISITED .A (8 * p + s.drrAt p)) = true then s
          else (s.addCnt (SCH_QDEFICIT_DEFICIT .A (8 * p + s.drrAt p)) (s.fld (SCH_QCFG_QUANTUM .A (8 * p + s.drrAt
              p)))).put
            (SCH_QDEFICIT_VISITED .A (8 * p + s.drrAt p)) 1) = t at h1 ⊢
      split
      · exact State.put_keeps h1 _ _
      · exact ih (State.drrNext_keeps _ (State.put_keeps h1 _ _))

theorem State.drrLoop_keeps_eq {q : List Instr} {s : State} {p : Nat} {l : List Head} {a3 : Nat} (h0 : s.Keeps q) {u :
    State} {w : Option Head}
    (e : State.drrLoop s p l a3 = (u, w)) : u.Keeps q := by
  have hu : (State.drrLoop s p l a3).1.Keeps q := by apply State.drrLoop_keeps <;> assumption
  rw [e] at hu
  exact hu

theorem State.selectHead_keeps {q : List Instr} {s : State} (p : Nat) (low : Bool) (h0 : s.Keeps q) :
    (State.selectHead s p low).1.Keeps q := by
  unfold State.selectHead
  try dsimp only
  repeat' first
    | with_reducible assumption
    | with_reducible apply State.pickAll_keeps
    | with_reducible refine State.pickAll_keeps_eq ?_ ‹_›
    | with_reducible apply State.drrLoop_keeps
    | with_reducible refine State.drrLoop_keeps_eq ?_ ‹_›
    | with_reducible apply State.pickExpress_keeps
    | with_reducible refine State.pickExpress_keeps_eq ?_ ‹_›
    | simp only [State.Keeps.lit]
    | with_reducible apply State.ite_keeps
    | with_reducible apply State.ite_fst_keeps
    | split

theorem State.selectHead_keeps_eq {q : List Instr} {s : State} {p : Nat} {low : Bool} (h0 : s.Keeps q) {u : State} {w :
    Option Head}
    (e : State.selectHead s p low = (u, w)) : u.Keeps q := by
  have hu : (State.selectHead s p low).1.Keeps q := by apply State.selectHead_keeps <;> assumption
  rw [e] at hu
  exact hu

theorem State.clearShort_keeps {q : List Instr} {s : State} (p : Nat) (c : Nat) (h0 : s.Keeps q) :
    (State.clearShort s p c).Keeps q := by
  unfold State.clearShort
  try dsimp only
  repeat' first
    | with_reducible assumption
    | with_reducible apply State.setPort_keeps
    | with_reducible apply State.ite_keeps

theorem State.shCharge_keeps {q : List Instr} {s : State} (en : Fld) (level : Fld) (charge : Nat) (h0 : s.Keeps q) :
    (State.shCharge s en level charge).Keeps q := by
  unfold State.shCharge
  try dsimp only
  repeat' first
    | with_reducible assumption
    | with_reducible apply State.put_keeps
    | with_reducible apply State.ite_keeps

theorem State.charge_keeps {q : List Instr} {s : State} (p : Nat) (c : Nat) (charge : Nat) (h0 : s.Keeps q) :
    (State.charge s p c charge).Keeps q := by
  unfold State.charge
  try dsimp only
  repeat' first
    | with_reducible assumption
    | with_reducible apply State.shCharge_keeps
    | with_reducible apply State.ite_keeps

theorem State.recCommit_keeps {q : List Instr} {s : State} (b_h : RecHead) (h0 : s.Keeps q) :
    (State.recCommit s b_h).1.Keeps q := by
  unfold State.recCommit
  try dsimp only
  repeat' first
    | with_reducible assumption
    | with_reducible apply State.recPass_keeps
    | with_reducible refine State.recPass_keeps_eq ?_ ‹_›
    | with_reducible apply State.inc_keeps
    | simp only [State.Keeps.lit]
    | with_reducible apply State.ite_keeps
    | with_reducible apply State.ite_fst_keeps
    | split

theorem State.noteTwin_keeps {q : List Instr} {s : State} (p : Nat) (f : Frame) (h0 : s.Keeps q) :
    (State.noteTwin s p f).Keeps q := by
  unfold State.noteTwin
  try dsimp only
  repeat' first
    | with_reducible assumption
    | with_reducible apply State.setPort_keeps
    | with_reducible apply State.ite_keeps

theorem State.startTx_keeps {q : List Instr} {s : State} (p : Nat) (elapsed : Nat) (b_h : Head) (undo : Option FrerUndo)
    (h0 : s.Keeps q) :
    (State.startTx s p elapsed b_h undo).Keeps q := by
  have h1 : (if b_h.frame.genSeq.isSome then s.inc (FRE_RTAG_INSERT_CNT_VAL .A) else s).Keeps q := by
    split
    · exact State.inc_keeps _ h0
    · exact h0
  have h2 : ∀ (t : State) (b : List Byte), t.Keeps q → (if t.protects p b then
      match t.msecProtect p (b.take (b.length - 4)) with
      | (s1, some x) => (s1, some (x ++ leBytes 4 (crc32 x)))
      | (s1, none) => (s1, none)
    else (t, some b)).1.Keeps q := by
    intro t b ht
    split
    · split
      · next e => exact State.msecProtect_keeps_eq ht e
      · next e => exact State.msecProtect_keeps_eq ht e
    · exact ht
  unfold State.startTx
  dsimp only
  split
  · next u e =>
    refine State.release_keeps _ ?_
    have h3 : (u, (none : Option (List Byte))).1.Keeps q := by
      rw [← e]
      exact h2 _ _ h1
    exact h3
  · next u out e =>
    have h3 : (u, some out).1.Keeps q := by
      rw [← e]
      exact h2 _ _ h1
    repeat' first
      | with_reducible assumption
      | exact h3
      | with_reducible apply State.setPort_keeps
      | with_reducible apply State.inc_keeps
      | with_reducible apply State.commitTx_keeps
      | split

theorem State.cipherBack_keeps {q : List Instr} {s : State} (f : Frame) (h0 : s.Keeps q) :
    (State.cipherBack s f).Keeps q := by
  unfold State.cipherBack
  try dsimp only
  repeat' first
    | with_reducible assumption
    | with_reducible apply State.receive_keeps
    | with_reducible refine State.receive_keeps_eq ?_ ‹_›
    | simp only [State.Keeps.lit]
    | with_reducible apply State.ite_keeps
    | with_reducible apply State.ite_fst_keeps
    | split

theorem State.captureIf2_keeps {q : List Instr} {s : State} (f : Frame) (h0 : s.Keeps q) :
    (State.captureIf2 s f).Keeps q := by
  unfold State.captureIf2
  try dsimp only
  repeat' first
    | with_reducible assumption
    | with_reducible apply State.capRecord_keeps
    | with_reducible apply State.inc_keeps
    | with_reducible apply State.release_keeps
    | with_reducible apply State.ite_keeps

theorem State.deliver_keeps {q : List Instr} {s : State} (p : Nat) (elapsed : Nat) (f : Frame) (h0 : s.Keeps q) :
    (State.deliver s p elapsed f).Keeps q := by
  unfold State.deliver
  try dsimp only
  repeat' first
    | with_reducible assumption
    | with_reducible apply State.ifDeliver_keeps
    | with_reducible apply State.canTake_keeps
    | with_reducible apply State.captureIf2_keeps
    | with_reducible apply State.cipherBack_keeps
    | with_reducible apply State.ldgTake_keeps
    | with_reducible apply State.inc_keeps
    | with_reducible apply State.linTake_keeps
    | with_reducible apply State.hvDeliver_keeps
    | with_reducible apply State.leaves_keeps
    | with_reducible apply State.release_keeps
    | with_reducible apply State.ite_keeps

theorem State.takeHead_keeps {q : List Instr} {s : State} (p : Nat) (elapsed : Nat) (b_h : Head) (h0 : s.Keeps q) :
    (State.takeHead s p elapsed b_h).Keeps q := by
  unfold State.takeHead
  try dsimp only
  repeat' first
    | with_reducible assumption
    | with_reducible apply State.noteTwin_keeps
    | with_reducible apply State.recCommit_keeps
    | with_reducible apply State.popHead_keeps
    | with_reducible apply State.startTx_keeps
    | with_reducible apply State.clearShort_keeps
    | with_reducible apply State.charge_keeps
    | with_reducible apply State.deliver_keeps
    | with_reducible apply State.ite_keeps

theorem execEgressSelect_keeps {q : List Instr} (port : Nat) (elapsed : Nat) {s : State} (h0 : s.Keeps q) :
    ∃ u, execEgressSelect port s elapsed = .next u ∧ u.Keeps q := by
  refine ⟨_, rfl, ?_⟩
  try dsimp only
  repeat' first
    | with_reducible assumption
    | with_reducible apply State.resend_keeps
    | with_reducible apply State.put_keeps
    | with_reducible apply State.takeHead_keeps
    | with_reducible apply State.selectHead_keeps
    | with_reducible refine State.selectHead_keeps_eq ?_ ‹_›
    | simp only [State.Keeps.lit]
    | with_reducible apply State.ite_keeps
    | with_reducible apply State.ite_fst_keeps
    | split

theorem State.drrReset_keeps {q : List Instr} {s : State} (p : Nat) (h0 : s.Keeps q) :
    (State.drrReset s p).Keeps q := by
  unfold State.drrReset
  try dsimp only
  repeat' first
    | with_reducible assumption
    | intro _
    | with_reducible apply State.put_keeps
    | with_reducible apply State.foldl_keeps
    | simp only [State.Keeps.lit]
    | simp only [State.Keeps.litDm, List.length_set]
    | with_reducible apply State.ite_keeps
    | with_reducible apply State.ite_fst_keeps
    | split

theorem State.writeShaper_keeps {q : List Instr} {s : State} (a : Nat) (v : Nat) (h0 : s.Keeps q) :
    (State.writeShaper s a v).Keeps q := by
  unfold State.writeShaper
  try dsimp only
  repeat' first
    | with_reducible assumption
    | with_reducible apply State.shReset_keeps
    | with_reducible apply State.storeReg_keeps
    | with_reducible apply State.ite_keeps

theorem State.writeSnare_keeps {q : List Instr} {s : State} (a : Nat) (v : Nat) (h0 : s.Keeps q) :
    (State.writeSnare s a v).Keeps q := by
  unfold State.writeSnare
  try dsimp only
  repeat' first
    | with_reducible assumption
    | intro _
    | with_reducible apply State.shReset_keeps
    | with_reducible apply State.storeReg_keeps
    | with_reducible apply State.foldl_keeps
    | simp only [State.Keeps.lit]
    | simp only [State.Keeps.litDm, List.length_set]
    | with_reducible apply State.ite_keeps
    | with_reducible apply State.ite_fst_keeps
    | split

theorem State.sent_keeps {q : List Instr} {s : State} (p : Nat) (t : TxFrame) (h0 : s.Keeps q) :
    (State.sent s p t).Keeps q := by
  unfold State.sent
  try dsimp only
  repeat' first
    | with_reducible assumption
    | with_reducible apply State.txReport_keeps
    | with_reducible apply State.addCnt64_keeps
    | with_reducible apply State.inc_keeps
    | with_reducible apply State.captureOut_keeps
    | with_reducible apply State.release_keeps
    | simp only [State.Keeps.lit]
    | with_reducible apply State.ite_keeps
    | with_reducible apply State.ite_fst_keeps
    | split

theorem execTransmitEnd_keeps {q : List Instr} (port : Nat) {s : State} (h0 : s.Keeps q) :
    ∃ u, execTransmitEnd port s = .next u ∧ u.Keeps q := by
  refine ⟨_, rfl, ?_⟩
  try dsimp only
  repeat' first
    | with_reducible assumption
    | with_reducible apply State.setPort_keeps
    | with_reducible apply State.sent_keeps
    | simp only [State.Keeps.lit]
    | with_reducible apply State.ite_keeps
    | with_reducible apply State.ite_fst_keeps
    | split

theorem State.gateChange_keeps {q : List Instr} {s : State} (p : Nat) (h0 : s.Keeps q) :
    (State.gateChange s p).Keeps q := by
  unfold State.gateChange
  try dsimp only
  repeat' first
    | with_reducible assumption
    | with_reducible apply State.setFlag_keeps
    | with_reducible apply State.setPort_keeps
    | with_reducible apply State.put_keeps
    | with_reducible apply State.addCnt_keeps
    | with_reducible apply State.ite_keeps

theorem execGateChange_keeps {q : List Instr} (port : Nat) {s : State} (h0 : s.Keeps q) :
    ∃ u, execGateChange port s = .next u ∧ u.Keeps q := by
  refine ⟨_, rfl, ?_⟩
  try dsimp only
  repeat' first
    | with_reducible assumption
    | with_reducible apply State.gateChange_keeps
    | with_reducible apply State.ite_keeps

theorem execShaperWrite_keeps {q : List Instr} (r : Requester) (addr : Nat) (v : Nat) {s : State} (h0 : s.Keeps q) :
    ∃ u, execShaperWrite r addr v s = .next u ∧ u.Keeps q := by
  refine ⟨_, rfl, ?_⟩
  try dsimp only
  repeat' first
    | with_reducible assumption
    | intro _
    | with_reducible apply State.gated_keeps
    | with_reducible apply State.writeShaper_keeps
    | with_reducible apply State.foldl_keeps
    | simp only [State.Keeps.lit]
    | simp only [State.Keeps.litDm, List.length_set]
    | with_reducible apply State.ite_keeps
    | with_reducible apply State.ite_fst_keeps
    | split

theorem execSnareWrite_keeps {q : List Instr} (r : Requester) (addr : Nat) (v : Nat) {s : State} (h0 : s.Keeps q) :
    ∃ u, execSnareWrite r addr v s = .next u ∧ u.Keeps q := by
  refine ⟨_, rfl, ?_⟩
  try dsimp only
  repeat' first
    | with_reducible assumption
    | intro _
    | with_reducible apply State.gated_keeps
    | with_reducible apply State.writeSnare_keeps
    | with_reducible apply State.foldl_keeps
    | simp only [State.Keeps.lit]
    | simp only [State.Keeps.litDm, List.length_set]
    | with_reducible apply State.ite_keeps
    | with_reducible apply State.ite_fst_keeps
    | split

theorem State.raise_keeps {q : List Instr} {s : State} (rate : Nat) (burst : Fld) (level : Fld) (signed : Bool) (h0 :
    s.Keeps q) :
    (State.raise s rate burst level signed).Keeps q := by
  unfold State.raise
  try dsimp only
  repeat' first
    | with_reducible assumption
    | with_reducible apply State.put_keeps
    | simp only [State.Keeps.lit]
    | with_reducible apply State.ite_keeps
    | with_reducible apply State.ite_fst_keeps
    | split

theorem State.raiseAt_keeps {q : List Instr} {s : State} (a : Nat) (h0 : s.Keeps q) :
    (State.raiseAt s a).Keeps q := by
  unfold State.raiseAt
  try dsimp only
  repeat' first
    | with_reducible assumption
    | with_reducible apply State.raise_keeps
    | with_reducible apply State.ite_keeps

theorem State.raiseFrames_keeps {q : List Instr} {s : State} (key : Nat) (rate : Nat) (level : Nat) (burst : Nat) {put :
    State → Nat → State} (h0 : s.Keeps q) (h1 : ∀ (t : State) (y0 : Nat), t.Keeps q → (put t y0).Keeps q) :
    (State.raiseFrames s key rate level burst put).Keeps q := by
  unfold State.raiseFrames
  try dsimp only
  repeat' first
    | with_reducible assumption
    | intro _
    | with_reducible apply h1
    | simp only [State.Keeps.lit]
    | with_reducible apply State.ite_keeps
    | with_reducible apply State.ite_fst_keeps
    | split

theorem State.raiseCan_keeps {q : List Instr} {s : State} (k : Nat) (h0 : s.Keeps q) :
    (State.raiseCan s k).Keeps q := by
  unfold State.raiseCan
  try dsimp only
  repeat' first
    | with_reducible assumption
    | intro _
    | with_reducible apply State.raiseFrames_keeps
    | with_reducible apply State.foldl_keeps
    | simp only [State.Keeps.lit]
    | simp only [State.Keeps.litDm, List.length_set]
    | with_reducible apply State.ite_keeps
    | with_reducible apply State.ite_fst_keeps
    | split

theorem State.tokenStep_keeps {q : List Instr} {s : State} (h0 : s.Keeps q) :
    (State.tokenStep s).Keeps q := by
  unfold State.tokenStep
  try dsimp only
  repeat' first
    | with_reducible assumption
    | intro _
    | with_reducible apply State.keepSpares_keeps
    | with_reducible apply State.raiseAt_keeps
    | with_reducible apply State.walkOn_keeps
    | with_reducible apply State.raiseFrames_keeps
    | with_reducible apply State.edgesEnd_keeps
    | with_reducible apply State.raiseCan_keeps
    | with_reducible apply State.put_keeps
    | with_reducible apply State.tblComplete_keeps
    | with_reducible apply State.foldl_keeps
    | simp only [State.Keeps.lit]
    | simp only [State.Keeps.litDm, List.length_set]
    | with_reducible apply State.ite_keeps
    | with_reducible apply State.ite_fst_keeps
    | split

theorem execTokenBucketStep_keeps {q : List Instr} {s : State} (h0 : s.Keeps q) :
    ∃ u, execTokenBucketStep s = .next u ∧ u.Keeps q := by
  refine ⟨_, rfl, ?_⟩
  try dsimp only
  repeat' first
    | with_reducible assumption
    | with_reducible apply State.tokenStep_keeps
    | with_reducible apply State.ite_keeps

end Sys2Proof.Machine
end

