-- ==== Sys2Proof/Laws/Keeps6.lean ====
section
/-! SUPPORT. What each operation of Detach, Carillon, Planes, Apply keeps: the good form, and the queue. -/

namespace Sys2Proof.Machine

/-! ## Detach -/

theorem State.detachDone_keeps {q : List Instr} {s : State} (tn : Nat) (h0 : s.Keeps q) :
    (State.detachDone s tn).Keeps q := by
  unfold State.detachDone
  try dsimp only
  repeat' first
    | with_reducible assumption
    | with_reducible apply State.setFlag_keeps
    | with_reducible apply State.setTen_keeps
    | with_reducible apply State.put_keeps
    | with_reducible apply State.tenPut_keeps
    | with_reducible apply State.ite_keeps

theorem State.cplWrite_keeps {q : List Instr} {s : State} (tn : Nat) (h0 : s.Keeps q) :
    (State.cplWrite s tn).Keeps q := by
  unfold State.cplWrite
  try dsimp only
  repeat' first
    | with_reducible assumption
    | with_reducible apply State.vecEvent_keeps
    | with_reducible apply State.setTen_keeps
    | with_reducible apply State.dozeWake_keeps
    | with_reducible apply State.put_keeps
    | with_reducible apply State.dmaWrite_keeps
    | simp only [State.Keeps.lit]
    | with_reducible apply State.ite_keeps
    | with_reducible apply State.ite_fst_keeps
    | split

theorem State.cplFlush_keeps {q : List Instr} {s : State} (tn : Nat) (a2 : Nat) (h0 : s.Keeps q) :
    (State.cplFlush s tn a2).Keeps q := by
  fun_induction State.cplFlush s tn a2
  all_goals try dsimp only
  all_goals repeat' first
    | with_reducible assumption
    | with_reducible apply State.cplWrite_keeps
    | with_reducible apply_assumption
    | with_reducible apply State.ite_keeps

theorem State.putCar_keeps {q : List Instr} {s : State} (c : Car) (h0 : s.Keeps q) :
    (State.putCar s c).Keeps q := by
  unfold State.putCar
  try dsimp only
  repeat' first
    | with_reducible assumption
    | with_reducible apply State.put_keeps
    | with_reducible apply State.put64_keeps
    | simp only [State.Keeps.lit]
    | with_reducible apply State.ite_keeps
    | with_reducible apply State.ite_fst_keeps
    | split

theorem State.setRes_keeps {q : List Instr} {s : State} (id : Nat) (x : StreamRes) (h0 : s.Keeps q) :
    (State.setRes s id x).Keeps q := by
  unfold State.setRes
  try dsimp only
  repeat' first
    | with_reducible assumption
    | simp only [State.Keeps.lit]
    | with_reducible apply State.ite_keeps
    | with_reducible apply State.ite_fst_keeps
    | split

theorem State.carShow_keeps {q : List Instr} {s : State} (code : Nat) (h0 : s.Keeps q) :
    (State.carShow s code).Keeps q := by
  unfold State.carShow
  try dsimp only
  repeat' first
    | with_reducible assumption
    | with_reducible apply State.put_keeps
    | with_reducible apply State.ite_keeps

theorem State.notEvaluated_keeps {q : List Instr} {s : State} (a1 : JobItem) (h0 : s.Keeps q) :
    (State.notEvaluated s a1).Keeps q := by
  unfold State.notEvaluated
  try dsimp only
  repeat' first
    | with_reducible assumption
    | with_reducible apply State.setRes_keeps
    | simp only [State.Keeps.lit]
    | with_reducible apply State.ite_keeps
    | with_reducible apply State.ite_fst_keeps
    | split

theorem State.carCancelled_keeps {q : List Instr} {s : State} (j : Job) (h0 : s.Keeps q) :
    (State.carCancelled s j).Keeps q := by
  unfold State.carCancelled
  try dsimp only
  repeat' first
    | with_reducible assumption
    | intro _
    | with_reducible apply State.notEvaluated_keeps
    | with_reducible apply State.setFlag_keeps
    | with_reducible apply State.setTen_keeps
    | with_reducible apply State.carShow_keeps
    | with_reducible apply State.foldl_keeps
    | simp only [State.Keeps.lit]
    | simp only [State.Keeps.litDm, List.length_set]
    | with_reducible apply State.ite_keeps
    | with_reducible apply State.ite_fst_keeps
    | split

theorem State.carDrop_keeps {q : List Instr} {s : State} (p : JobSrc → Bool) (h0 : s.Keeps q) :
    (State.carDrop s p).Keeps q := by
  unfold State.carDrop
  try dsimp only
  repeat' first
    | with_reducible assumption
    | intro _
    | with_reducible apply State.putCar_keeps
    | with_reducible apply State.carCancelled_keeps
    | with_reducible apply State.foldl_keeps
    | simp only [State.Keeps.lit]
    | simp only [State.Keeps.litDm, List.length_set]
    | with_reducible apply State.ite_keeps
    | with_reducible apply State.ite_fst_keeps
    | split

theorem State.abortCmd_keeps {q : List Instr} {s : State} (tn : Nat) (c : TenCmd) (h0 : s.Keeps q) :
    (State.abortCmd s tn c).Keeps q := by
  unfold State.abortCmd
  try dsimp only
  repeat' first
    | with_reducible assumption
    | with_reducible apply State.setTen_keeps
    | with_reducible apply State.cphAbort_keeps
    | with_reducible refine State.cphAbort_keeps_eq ?_ ‹_›
    | simp only [State.Keeps.lit]
    | with_reducible apply State.ite_keeps
    | with_reducible apply State.ite_fst_keeps
    | split

theorem State.inbandFlush_keeps {q : List Instr} {s : State} (tn : Nat) (a2 : Nat) (h0 : s.Keeps q) :
    (State.inbandFlush s tn a2).Keeps q := by
  fun_induction State.inbandFlush s tn a2
  all_goals try dsimp only
  all_goals repeat' first
    | with_reducible assumption
    | with_reducible apply State.setTen_keeps
    | with_reducible apply State.sendInband_keeps
    | with_reducible apply_assumption
    | with_reducible apply State.ite_keeps

theorem State.tenEntriesOut_keeps {q : List Instr} {s : State} (tn : Nat) (h0 : s.Keeps q) :
    (State.tenEntriesOut s tn).Keeps q := by
  unfold State.tenEntriesOut
  try dsimp only
  repeat' first
    | with_reducible assumption
    | intro _
    | with_reducible apply State.tblApply_keeps
    | with_reducible apply State.foldl_keeps
    | simp only [State.Keeps.lit]
    | simp only [State.Keeps.litDm, List.length_set]
    | with_reducible apply State.ite_keeps
    | with_reducible apply State.ite_fst_keeps
    | split

theorem State.detach_keeps {q : List Instr} {s : State} (tn : Nat) (cause : Nat) (h0 : s.Keeps q) :
    (State.detach s tn cause).Keeps q := by
  unfold State.detach
  try dsimp only
  repeat' first
    | with_reducible assumption
    | intro _
    | with_reducible apply State.setFlag_keeps
    | with_reducible apply State.putCar_keeps
    | with_reducible apply State.detachDone_keeps
    | with_reducible apply State.carDrop_keeps
    | with_reducible apply State.cplFlush_keeps
    | with_reducible apply State.blfKill_keeps
    | with_reducible apply State.inbandFlush_keeps
    | with_reducible apply State.nmTenant_keeps
    | with_reducible apply State.setTen_keeps
    | with_reducible apply State.put_keeps
    | with_reducible apply State.inc_keeps
    | with_reducible apply State.tenEntriesOut_keeps
    | with_reducible apply State.tenPut_keeps
    | with_reducible apply State.abortCmd_keeps
    | with_reducible apply State.foldl_keeps
    | simp only [State.Keeps.lit]
    | simp only [State.Keeps.litDm, List.length_set]
    | with_reducible apply State.ite_keeps
    | with_reducible apply State.ite_fst_keeps
    | split

theorem State.reclaimTenant_keeps {q : List Instr} {s : State} (tn : Nat) (cause : Nat) (h0 : s.Keeps q) :
    (State.reclaimTenant s tn cause).Keeps q := by
  unfold State.reclaimTenant
  try dsimp only
  repeat' first
    | with_reducible assumption
    | with_reducible apply State.detach_keeps
    | with_reducible apply State.ite_keeps

/-! ## Carillon -/

theorem State.rateAgain_keeps {q : List Instr} {s : State} (h0 : s.Keeps q) :
    (State.rateAgain s).Keeps q := by
  unfold State.rateAgain
  try dsimp only
  repeat' first
    | with_reducible assumption
    | intro _
    | with_reducible apply State.put_keeps
    | with_reducible apply State.foldl_keeps
    | simp only [State.Keeps.lit]
    | simp only [State.Keeps.litDm, List.length_set]
    | with_reducible apply State.ite_keeps
    | with_reducible apply State.ite_fst_keeps
    | split

theorem State.snareLoad_keeps {q : List Instr} {s : State} (x : StreamRec) (h0 : s.Keeps q) :
    (State.snareLoad s x).Keeps q := by
  unfold State.snareLoad
  try dsimp only
  repeat' first
    | with_reducible assumption
    | intro _
    | with_reducible apply State.put_keeps
    | with_reducible apply State.shReset_keeps
    | with_reducible apply State.foldl_keeps
    | simp only [State.Keeps.lit]
    | simp only [State.Keeps.litDm, List.length_set]
    | with_reducible apply State.ite_keeps
    | with_reducible apply State.ite_fst_keeps
    | split

theorem State.carMark_keeps {q : List Instr} {s : State} (id : Nat) (f : StreamRes → StreamRes) (h0 : s.Keeps q) :
    (State.carMark s id f).Keeps q := by
  unfold State.carMark
  try dsimp only
  repeat' first
    | with_reducible assumption
    | with_reducible apply State.setRes_keeps
    | simp only [State.Keeps.lit]
    | with_reducible apply State.ite_keeps
    | with_reducible apply State.ite_fst_keeps
    | split

theorem State.setCrit_keeps {q : List Instr} {s : State} (l : List Nat) (h0 : s.Keeps q) :
    (State.setCrit s l).Keeps q := by
  unfold State.setCrit
  try dsimp only
  repeat' first
    | with_reducible assumption
    | intro _
    | with_reducible apply State.autoPin_keeps
    | with_reducible apply State.tblApply_keeps
    | with_reducible apply State.foldl_keeps
    | simp only [State.Keeps.lit]
    | simp only [State.Keeps.litDm, List.length_set]
    | with_reducible apply State.ite_keeps
    | with_reducible apply State.ite_fst_keeps
    | split

theorem State.carInForce_keeps {q : List Instr} {s : State} (d : JobDone) (h0 : s.Keeps q) :
    (State.carInForce s d).Keeps q := by
  unfold State.carInForce
  try dsimp only
  repeat' first
    | with_reducible assumption
    | intro _
    | with_reducible apply State.putCar_keeps
    | with_reducible apply State.carMark_keeps
    | with_reducible apply State.setRes_keeps
    | with_reducible apply State.rateAgain_keeps
    | with_reducible apply State.put_keeps
    | with_reducible apply State.snareLoad_keeps
    | with_reducible apply State.setCrit_keeps
    | with_reducible apply State.foldl_keeps
    | simp only [State.Keeps.lit]
    | simp only [State.Keeps.litDm, List.length_set]
    | with_reducible apply State.ite_keeps
    | with_reducible apply State.ite_fst_keeps
    | split

theorem State.carApply_keeps {q : List Instr} {s : State} (d : JobDone) (h0 : s.Keeps q) :
    (State.carApply s d).Keeps q := by
  unfold State.carApply
  try dsimp only
  repeat' first
    | with_reducible assumption
    | with_reducible apply State.setFlag_keeps
    | with_reducible apply State.putCar_keeps
    | with_reducible apply State.carInForce_keeps
    | with_reducible apply State.addCnt_keeps
    | with_reducible apply State.ite_keeps

theorem State.carTenant_keeps {q : List Instr} {s : State} (tn : Nat) (cmd : Nat) (d : JobDone) (h0 : s.Keeps q) :
    (State.carTenant s tn cmd d).Keeps q := by
  unfold State.carTenant
  try dsimp only
  repeat' first
    | with_reducible assumption
    | with_reducible apply State.setTen_keeps
    | simp only [State.Keeps.lit]
    | with_reducible apply State.ite_keeps
    | with_reducible apply State.ite_fst_keeps
    | split

theorem State.jobDownbeat_keeps {q : List Instr} {s : State} (h0 : s.Keeps q) :
    (State.jobDownbeat s).Keeps q := by
  unfold State.jobDownbeat
  try dsimp only
  repeat' first
    | with_reducible assumption
    | with_reducible apply State.setFlag_keeps
    | with_reducible apply State.putCar_keeps
    | with_reducible apply State.detachDone_keeps
    | with_reducible apply State.carTenant_keeps
    | with_reducible apply State.newEra_keeps
    | with_reducible apply State.carShow_keeps
    | with_reducible apply State.carApply_keeps
    | simp only [State.Keeps.lit]
    | with_reducible apply State.ite_keeps
    | with_reducible apply State.ite_fst_keeps
    | split

theorem execJobDownbeat_keeps {q : List Instr} {s : State} (h0 : s.Keeps q) :
    ∃ u, execJobDownbeat s = .next u ∧ u.Keeps q := by
  refine ⟨_, rfl, ?_⟩
  try dsimp only
  repeat' first
    | with_reducible assumption
    | with_reducible apply State.jobDownbeat_keeps
    | with_reducible apply State.ite_keeps

theorem State.carRelease_keeps {q : List Instr} {s : State} (h0 : s.Keeps q) :
    (State.carRelease s).Keeps q := by
  unfold State.carRelease
  try dsimp only
  repeat' first
    | with_reducible assumption
    | with_reducible apply State.putCar_keeps
    | with_reducible apply State.carCancelled_keeps
    | simp only [State.Keeps.lit]
    | with_reducible apply State.ite_keeps
    | with_reducible apply State.ite_fst_keeps
    | split

theorem State.carSleep_keeps {q : List Instr} {s : State} (h0 : s.Keeps q) :
    (State.carSleep s).Keeps q := by
  unfold State.carSleep
  try dsimp only
  repeat' first
    | with_reducible assumption
    | with_reducible apply State.putCar_keeps
    | with_reducible apply State.carDrop_keeps
    | with_reducible apply State.carRelease_keeps
    | with_reducible apply State.ite_keeps

theorem State.carHold_keeps {q : List Instr} {s : State} (h0 : s.Keeps q) :
    (State.carHold s).Keeps q := by
  unfold State.carHold
  try dsimp only
  repeat' first
    | with_reducible assumption
    | intro _
    | with_reducible apply State.putCar_keeps
    | with_reducible apply State.carMark_keeps
    | with_reducible apply State.put_keeps
    | with_reducible apply State.foldl_keeps
    | simp only [State.Keeps.lit]
    | simp only [State.Keeps.litDm, List.length_set]
    | with_reducible apply State.ite_keeps
    | with_reducible apply State.ite_fst_keeps
    | split

theorem State.carChartApply_keeps {q : List Instr} {s : State} (h0 : s.Keeps q) :
    (State.carChartApply s).Keeps q := by
  unfold State.carChartApply
  try dsimp only
  repeat' first
    | with_reducible assumption
    | with_reducible apply State.putCar_keeps
    | with_reducible apply State.carInForce_keeps
    | with_reducible apply State.carApply_keeps
    | simp only [State.Keeps.lit]
    | with_reducible apply State.ite_keeps
    | with_reducible apply State.ite_fst_keeps
    | split

theorem State.carAppend_keeps {q : List Instr} {s : State} (i : JobItem) (h0 : s.Keeps q) :
    (State.carAppend s i).Keeps q := by
  unfold State.carAppend
  try dsimp only
  repeat' first
    | with_reducible assumption
    | with_reducible apply State.putCar_keeps
    | with_reducible apply State.put_keeps
    | with_reducible apply State.ite_keeps

theorem State.carSubmitBatch_keeps {q : List Instr} {s : State} (repack : Bool) (h0 : s.Keeps q) :
    (State.carSubmitBatch s repack).Keeps q := by
  unfold State.carSubmitBatch
  try dsimp only
  repeat' first
    | with_reducible assumption
    | with_reducible apply State.putCar_keeps
    | with_reducible apply State.put_keeps
    | with_reducible apply State.ite_keeps

theorem State.carCancel_keeps {q : List Instr} {s : State} (late : Bool) (h0 : s.Keeps q) :
    (State.carCancel s late).Keeps q := by
  unfold State.carCancel
  try dsimp only
  repeat' first
    | with_reducible assumption
    | with_reducible apply State.putCar_keeps
    | with_reducible apply State.carCancelled_keeps
    | with_reducible apply State.jobDownbeat_keeps
    | with_reducible apply State.put_keeps
    | simp only [State.Keeps.lit]
    | with_reducible apply State.ite_keeps
    | with_reducible apply State.ite_fst_keeps
    | split

theorem State.writeCarCtl_keeps {q : List Instr} {s : State} (cmd : Nat) (arg : Nat) (repack : Bool) (late : Bool) (h0 :
    s.Keeps q) :
    (State.writeCarCtl s cmd arg repack late).Keeps q := by
  unfold State.writeCarCtl
  try dsimp only
  repeat' first
    | with_reducible assumption
    | with_reducible apply State.carAppend_keeps
    | with_reducible apply State.carSubmitBatch_keeps
    | with_reducible apply State.carCancel_keeps
    | with_reducible apply State.put_keeps
    | simp only [State.Keeps.lit]
    | with_reducible apply State.ite_keeps
    | with_reducible apply State.ite_fst_keeps
    | split

theorem State.carCommand_keeps {q : List Instr} {s : State} (r : Requester) (cmd : Nat) (arg : Nat) (repack : Bool)
    (late : Bool) (h0 : s.Keeps q) :
    (State.carCommand s r cmd arg repack late).Keeps q := by
  unfold State.carCommand
  try dsimp only
  repeat' first
    | with_reducible assumption
    | intro _
    | with_reducible apply State.writeCarCtl_keeps
    | with_reducible apply State.mcOnly_keeps
    | with_reducible apply State.foldl_keeps
    | simp only [State.Keeps.lit]
    | simp only [State.Keeps.litDm, List.length_set]
    | with_reducible apply State.ite_keeps
    | with_reducible apply State.ite_fst_keeps
    | split

theorem State.carRejects_keeps {q : List Instr} {s : State} (n : Nat) (h0 : s.Keeps q) :
    (State.carRejects s n).Keeps q := by
  unfold State.carRejects
  try dsimp only
  repeat' first
    | with_reducible assumption
    | with_reducible apply State.setFlag_keeps
    | with_reducible apply State.addCnt_keeps
    | with_reducible apply State.ite_keeps

theorem State.carVerdict_keeps {q : List Instr} {s : State} (results : Tab (List EgRes)) (v : Nat × Nat × Nat × Nat ×
    Bool) (h0 : s.Keeps q) :
    (State.carVerdict s results v).Keeps q := by
  unfold State.carVerdict
  try dsimp only
  repeat' first
    | with_reducible assumption
    | with_reducible apply State.setRes_keeps
    | with_reducible apply State.ite_keeps

theorem State.carFail_keeps {q : List Instr} {s : State} (j : Job) (code : Nat) (v : Nat × Nat × Nat × Nat × Bool) (h0 :
    s.Keeps q) :
    (State.carFail s j code v).Keeps q := by
  unfold State.carFail
  try dsimp only
  repeat' first
    | with_reducible assumption
    | intro _
    | with_reducible apply State.notEvaluated_keeps
    | with_reducible apply State.setFlag_keeps
    | with_reducible apply State.carVerdict_keeps
    | with_reducible apply State.carRejects_keeps
    | with_reducible apply State.put_keeps
    | with_reducible apply State.carShow_keeps
    | with_reducible apply State.foldl_keeps
    | simp only [State.Keeps.lit]
    | simp only [State.Keeps.litDm, List.length_set]
    | with_reducible apply State.ite_keeps
    | with_reducible apply State.ite_fst_keeps
    | split

theorem State.carNote_keeps {q : List Instr} {s : State} (out : SynthOut) (h0 : s.Keeps q) :
    (State.carNote s out).Keeps q := by
  unfold State.carNote
  try dsimp only
  repeat' first
    | with_reducible assumption
    | intro _
    | with_reducible apply State.carMark_keeps
    | with_reducible apply State.carVerdict_keeps
    | with_reducible apply State.carRejects_keeps
    | with_reducible apply State.addCnt_keeps
    | with_reducible apply State.foldl_keeps
    | simp only [State.Keeps.lit]
    | simp only [State.Keeps.litDm, List.length_set]
    | with_reducible apply State.ite_keeps
    | with_reducible apply State.ite_fst_keeps
    | split

theorem State.carChart_keeps {q : List Instr} {s : State} (img : List Host.Cell) (h0 : s.Keeps q) :
    (State.carChart s img).1.Keeps q := by
  unfold State.carChart
  try dsimp only
  repeat' first
    | with_reducible assumption
    | with_reducible apply State.putCar_keeps
    | with_reducible apply State.carNote_keeps
    | with_reducible apply State.carCancelled_keeps
    | with_reducible apply State.inc_keeps
    | with_reducible apply State.carFail_keeps
    | simp only [State.Keeps.lit]
    | with_reducible apply State.ite_keeps
    | with_reducible apply State.ite_fst_keeps
    | split

theorem State.carChart_keeps_eq {q : List Instr} {s : State} {img : List Host.Cell} (h0 : s.Keeps q) {u : State} {w :
    Bool}
    (e : State.carChart s img = (u, w)) : u.Keeps q := by
  have hu : (State.carChart s img).1.Keeps q := by apply State.carChart_keeps <;> assumption
  rw [e] at hu
  exact hu

theorem execCarDeclare_keeps {q : List Instr} (r : Requester) {s : State} (h0 : s.Keeps q) :
    ∃ u, execCarDeclare r s = .next u ∧ u.Keeps q := by
  refine ⟨_, rfl, ?_⟩
  try dsimp only
  repeat' first
    | with_reducible assumption
    | with_reducible apply State.carCommand_keeps
    | with_reducible apply State.ite_keeps

theorem execCarWithdraw_keeps {q : List Instr} (r : Requester) (stream : Nat) {s : State} (h0 : s.Keeps q) :
    ∃ u, execCarWithdraw r stream s = .next u ∧ u.Keeps q := by
  refine ⟨_, rfl, ?_⟩
  try dsimp only
  repeat' first
    | with_reducible assumption
    | with_reducible apply State.carCommand_keeps
    | with_reducible apply State.ite_keeps

theorem execCarSynth_keeps {q : List Instr} (r : Requester) (repack : Bool) {s : State} (h0 : s.Keeps q) :
    ∃ u, execCarSynth r repack s = .next u ∧ u.Keeps q := by
  refine ⟨_, rfl, ?_⟩
  try dsimp only
  repeat' first
    | with_reducible assumption
    | with_reducible apply State.carCommand_keeps
    | with_reducible apply State.ite_keeps

theorem execCarCancel_keeps {q : List Instr} (r : Requester) (late : Bool) {s : State} (h0 : s.Keeps q) :
    ∃ u, execCarCancel r late s = .next u ∧ u.Keeps q := by
  refine ⟨_, rfl, ?_⟩
  try dsimp only
  repeat' first
    | with_reducible assumption
    | with_reducible apply State.carCommand_keeps
    | with_reducible apply State.ite_keeps

theorem State.startJob_keeps {q : List Instr} {s : State} (h0 : s.Keeps q) :
    (State.startJob s).Keeps q := by
  unfold State.startJob
  try dsimp only
  repeat' first
    | with_reducible assumption
    | with_reducible apply State.putCar_keeps
    | with_reducible apply State.inc_keeps
    | with_reducible apply State.carShow_keeps
    | simp only [State.Keeps.lit]
    | with_reducible apply State.ite_keeps
    | with_reducible apply State.ite_fst_keeps
    | split

theorem execJobStart_keeps {q : List Instr} {s : State} (h0 : s.Keeps q) :
    ∃ u, execJobStart s = .next u ∧ u.Keeps q := by
  refine ⟨_, rfl, ?_⟩
  try dsimp only
  repeat' first
    | with_reducible assumption
    | with_reducible apply State.startJob_keeps
    | with_reducible apply State.ite_keeps

theorem State.completeJob_keeps {q : List Instr} {s : State} (h0 : s.Keeps q) :
    (State.completeJob s).Keeps q := by
  unfold State.completeJob
  try dsimp only
  repeat' first
    | with_reducible assumption
    | with_reducible apply State.setFlag_keeps
    | with_reducible apply State.putCar_keeps
    | with_reducible apply State.carNote_keeps
    | with_reducible apply State.put_keeps
    | with_reducible apply State.inc_keeps
    | with_reducible apply State.carShow_keeps
    | with_reducible apply State.carFail_keeps
    | simp only [State.Keeps.lit]
    | with_reducible apply State.ite_keeps
    | with_reducible apply State.ite_fst_keeps
    | split

theorem execJobComplete_keeps {q : List Instr} {s : State} (h0 : s.Keeps q) :
    ∃ u, execJobComplete s = .next u ∧ u.Keeps q := by
  refine ⟨_, rfl, ?_⟩
  try dsimp only
  repeat' first
    | with_reducible assumption
    | with_reducible apply State.completeJob_keeps
    | with_reducible apply State.ite_keeps

/-! ## Planes -/

theorem State.copySnares_keeps {q : List Instr} {s : State} (pl : Plane) (h0 : s.Keeps q) :
    (State.copySnares s pl).Keeps q := by
  unfold State.copySnares
  try dsimp only
  repeat' first
    | with_reducible assumption
    | intro _
    | with_reducible apply State.put_keeps
    | with_reducible apply State.foldl_keeps
    | simp only [State.Keeps.lit]
    | simp only [State.Keeps.litDm, List.length_set]
    | with_reducible apply State.ite_keeps
    | with_reducible apply State.ite_fst_keeps
    | split

theorem State.dropEpoch_keeps {q : List Instr} {s : State} (epoch : Nat) (h0 : s.Keeps q) : (State.dropEpoch s
    epoch).Keeps q := by
  unfold State.dropEpoch
  dsimp only
  have h1 := State.foldl_keeps (q := q) (f := fun (s : State) ri => match (s.plane s.engine).region ri with
    | none => s
    | some r => s.tblApply ri (((s.entriesOf r).filter (fun x => ofEpoch epoch x.2.2.status)).map (fun x => .clear x.1
        x.2.1)))
    (fun t ri ht => by
      split
      · exact ht
      · exact State.tblApply_keeps _ _ ht) (List.range (s.plane s.engine).regions.length) h0
  exact State.getD_keeps (fun u e => State.lpmEach_keeps_eq h1 e) h1

theorem State.noteFail_keeps {q : List Instr} {s : State} (pl : Plane) (cause : Nat) (h0 : s.Keeps q) :
    (State.noteFail s pl cause).Keeps q := by
  unfold State.noteFail
  try dsimp only
  repeat' first
    | with_reducible assumption
    | with_reducible apply State.setFlag_keeps
    | with_reducible apply State.rasRecord_keeps
    | with_reducible apply State.put_keeps
    | with_reducible apply State.put64_keeps
    | with_reducible apply State.inc_keeps
    | with_reducible apply State.ite_keeps

theorem State.cutPlaneTx_keeps {q : List Instr} {s : State} (pl : Plane) (p : Nat) (reason : Nat) (h0 : s.Keeps q) :
    (State.cutPlaneTx s pl p reason).1.Keeps q := by
  unfold State.cutPlaneTx
  try dsimp only
  repeat' first
    | with_reducible assumption
    | intro _
    | with_reducible apply State.setPort_keeps
    | with_reducible apply State.cutTx_keeps
    | with_reducible apply State.foldl_keeps
    | with_reducible apply State.foldl_fst_keeps
    | simp only [State.Keeps.lit]
    | simp only [State.Keeps.litDm, List.length_set]
    | with_reducible apply State.ite_keeps
    | with_reducible apply State.ite_fst_keeps
    | split

theorem State.cutPlaneTx_keeps_eq {q : List Instr} {s : State} {pl : Plane} {p : Nat} {reason : Nat} (h0 : s.Keeps q) {u
    : State} {w : Nat}
    (e : State.cutPlaneTx s pl p reason = (u, w)) : u.Keeps q := by
  have hu : (State.cutPlaneTx s pl p reason).1.Keeps q := by apply State.cutPlaneTx_keeps <;> assumption
  rw [e] at hu
  exact hu

theorem State.cutUnpacks_keeps {q : List Instr} {s : State} (pl : Plane) (reason : Nat) (h0 : s.Keeps q) :
    (State.cutUnpacks s pl reason).1.Keeps q := by
  unfold State.cutUnpacks
  try dsimp only
  repeat' first
    | with_reducible assumption
    | intro _
    | with_reducible apply State.setLin_keeps
    | with_reducible apply State.setCan_keeps
    | with_reducible apply State.drop_keeps
    | with_reducible apply State.foldl_keeps
    | with_reducible apply State.foldl_fst_keeps
    | simp only [State.Keeps.lit]
    | simp only [State.Keeps.litDm, List.length_set]
    | with_reducible apply State.ite_keeps
    | with_reducible apply State.ite_fst_keeps
    | split

theorem State.cutUnpacks_keeps_eq {q : List Instr} {s : State} {pl : Plane} {reason : Nat} (h0 : s.Keeps q) {u : State}
    {w : Nat}
    (e : State.cutUnpacks s pl reason = (u, w)) : u.Keeps q := by
  have hu : (State.cutUnpacks s pl reason).1.Keeps q := by apply State.cutUnpacks_keeps <;> assumption
  rw [e] at hu
  exact hu

theorem State.dumpPlane_keeps {q : List Instr} {s : State} (pl : Plane) (reason : Nat) (h0 : s.Keeps q) :
    (State.dumpPlane s pl reason).1.Keeps q := by
  unfold State.dumpPlane
  try dsimp only
  repeat' first
    | with_reducible assumption
    | intro _
    | with_reducible apply State.setPlane_keeps
    | with_reducible apply State.cutUnpacks_keeps
    | with_reducible refine State.cutUnpacks_keeps_eq ?_ ‹_›
    | with_reducible apply State.cutPlaneTx_keeps
    | with_reducible refine State.cutPlaneTx_keeps_eq ?_ ‹_›
    | with_reducible apply State.classEmptied_keeps
    | with_reducible apply State.drop_keeps
    | with_reducible apply State.resumeAll_keeps
    | with_reducible apply State.foldl_keeps
    | with_reducible apply State.foldl_fst_keeps
    | simp only [State.Keeps.lit]
    | simp only [State.Keeps.litDm, List.length_set]
    | with_reducible apply State.ite_keeps
    | with_reducible apply State.ite_fst_keeps
    | split

theorem State.drainEnd_keeps {q : List Instr} {s : State} (pl : Plane) (h0 : s.Keeps q) :
    (State.drainEnd s pl).Keeps q := by
  unfold State.drainEnd
  try dsimp only
  repeat' first
    | with_reducible assumption
    | with_reducible apply State.setPlane_keeps
    | with_reducible apply State.makeLead_keeps
    | with_reducible apply State.setCond_keeps
    | with_reducible apply State.dumpPlane_keeps
    | with_reducible apply State.addCnt_keeps
    | with_reducible apply State.ite_keeps

theorem State.bucketsTo_keeps {q : List Instr} {s : State} (home : Plane) (moved : Bool) (h0 : s.Keeps q) :
    (State.bucketsTo s home moved).Keeps q := by
  unfold State.bucketsTo
  try dsimp only
  repeat' first
    | with_reducible assumption
    | intro _
    | with_reducible apply State.foldl_keeps
    | simp only [State.Keeps.lit]
    | simp only [State.Keeps.litDm, List.length_set]
    | with_reducible apply State.ite_keeps
    | with_reducible apply State.ite_fst_keeps
    | split

theorem State.handOver_keeps {q : List Instr} {s : State} (pl : Plane) (h0 : s.Keeps q) :
    (State.handOver s pl).Keeps q := by
  unfold State.handOver
  try dsimp only
  repeat' first
    | with_reducible assumption
    | with_reducible apply State.setPlane_keeps
    | with_reducible apply State.endContexts_keeps
    | with_reducible apply State.makeLead_keeps
    | with_reducible apply State.bucketsTo_keeps
    | with_reducible apply State.drainEnd_keeps
    | with_reducible apply State.ite_keeps

theorem State.failMove_keeps {q : List Instr} {s : State} (pl : Plane) (n : Nat) (h0 : s.Keeps q) :
    (State.failMove s pl n).Keeps q := by
  unfold State.failMove
  try dsimp only
  repeat' first
    | with_reducible assumption
    | with_reducible apply State.setFlag_keeps
    | with_reducible apply State.bucketsTo_keeps
    | with_reducible apply State.addCnt_keeps
    | with_reducible apply State.ite_keeps

theorem State.enterService_keeps {q : List Instr} {s : State} (pl : Plane) (h0 : s.Keeps q) :
    (State.enterService s pl).Keeps q := by
  unfold State.enterService
  try dsimp only
  repeat' first
    | with_reducible assumption
    | with_reducible apply State.makeLead_keeps
    | with_reducible apply State.bucketsTo_keeps
    | with_reducible apply State.setCond_keeps
    | with_reducible apply State.failMove_keeps
    | simp only [State.Keeps.lit]
    | with_reducible apply State.ite_keeps
    | with_reducible apply State.ite_fst_keeps
    | split

theorem State.lpmNoPlace_keeps {q : List Instr} {s : State} (pl : Plane) (h0 : s.Keeps q) :
    (State.lpmNoPlace s pl).Keeps q := by
  unfold State.lpmNoPlace
  split
  · exact h0
  · exact State.noPlace_keeps pl h0

theorem State.rule1_keeps {q : List Instr} {s : State} (pl : Plane) (img : List Host.Cell) (epoch : Nat) (b_e :
    RuleEntry) (h0 : s.Keeps q) :
    (State.rule1 s pl img epoch b_e).1.Keeps q := by
  unfold State.rule1
  try dsimp only
  repeat' first
    | with_reducible assumption
    | with_reducible apply State.noPlace_keeps
    | with_reducible apply State.lpmNoPlace_keeps
    | with_reducible apply State.setPlane_keeps
    | with_reducible apply State.setFlag_keeps
    | with_reducible apply State.inc_keeps
    | with_reducible apply State.posApply_keeps
    | simp only [State.Keeps.lit]
    | with_reducible apply State.ite_keeps
    | with_reducible apply State.ite_fst_keeps
    | split

theorem State.rule1_keeps_eq {q : List Instr} {s : State} {pl : Plane} {img : List Host.Cell} {epoch : Nat} {b_e :
    RuleEntry} (h0 : s.Keeps q) {u : State} {w : Bool}
    (e : State.rule1 s pl img epoch b_e = (u, w)) : u.Keeps q := by
  have hu : (State.rule1 s pl img epoch b_e).1.Keeps q := by apply State.rule1_keeps <;> assumption
  rw [e] at hu
  exact hu

theorem State.rulesIn_keeps {q : List Instr} {s : State} (pl : Plane) (img : List Host.Cell) (epoch : Nat) (h0 : s.Keeps
    q) :
    (State.rulesIn s pl img epoch).1.Keeps q := by
  unfold State.rulesIn
  try dsimp only
  repeat' first
    | with_reducible assumption
    | intro _
    | with_reducible apply State.rule1_keeps
    | with_reducible refine State.rule1_keeps_eq ?_ ‹_›
    | with_reducible apply State.foldl_keeps
    | with_reducible apply State.foldl_fst_keeps
    | simp only [State.Keeps.lit]
    | simp only [State.Keeps.litDm, List.length_set]
    | with_reducible apply State.ite_keeps
    | with_reducible apply State.ite_fst_keeps
    | split

theorem State.loadPools_keeps {q : List Instr} {s : State} (pl : Plane) (img : List Host.Cell) (h0 : s.Keeps q) :
    (State.loadPools s pl img).Keeps q := by
  unfold State.loadPools
  try dsimp only
  repeat' first
    | with_reducible assumption
    | intro _
    | with_reducible apply State.put_keeps
    | with_reducible apply State.foldl_keeps
    | simp only [State.Keeps.lit]
    | simp only [State.Keeps.litDm, List.length_set]
    | with_reducible apply State.ite_keeps
    | with_reducible apply State.ite_fst_keeps
    | split

theorem State.layPlane_keeps {q : List Instr} {s : State} (pl : Plane) (img : List Host.Cell) (h0 : s.Keeps q) :
    (State.layPlane s pl img).Keeps q := by
  unfold State.layPlane
  try dsimp only
  repeat' first
    | with_reducible assumption
    | with_reducible apply State.setPlane_keeps
    | with_reducible apply State.loadPools_keeps
    | simp only [State.Keeps.lit]
    | with_reducible apply State.ite_keeps
    | with_reducible apply State.ite_fst_keeps
    | split

theorem State.ruleBoth_keeps {q : List Instr} {s : State} (img : List Host.Cell) (epoch : Nat) (b_e : RuleEntry) (h0 :
    s.Keeps q) :
    (State.ruleBoth s img epoch b_e).1.Keeps q := by
  unfold State.ruleBoth
  try dsimp only
  repeat' first
    | with_reducible assumption
    | intro _
    | with_reducible apply State.noPlace_keeps
    | with_reducible apply State.lpmNoPlace_keeps
    | with_reducible apply State.foldl_keeps
    | with_reducible apply State.autoPin_keeps
    | with_reducible apply State.place_keeps
    | with_reducible refine State.place_keeps_eq ?_ ‹_›
    | with_reducible refine State.lpmEach_keeps_eq ?_ ‹_›
    | simp only [State.Keeps.lit]
    | with_reducible apply State.ite_keeps
    | with_reducible apply State.ite_fst_keeps
    | split

theorem State.ruleBoth_keeps_eq {q : List Instr} {s : State} {img : List Host.Cell} {epoch : Nat} {b_e : RuleEntry} (h0
    : s.Keeps q) {u : State} {w : Bool}
    (e : State.ruleBoth s img epoch b_e = (u, w)) : u.Keeps q := by
  have hu : (State.ruleBoth s img epoch b_e).1.Keeps q := by apply State.ruleBoth_keeps <;> assumption
  rw [e] at hu
  exact hu

theorem State.rulesBoth_keeps {q : List Instr} {s : State} (img : List Host.Cell) (epoch : Nat) (h0 : s.Keeps q) :
    (State.rulesBoth s img epoch).1.Keeps q := by
  unfold State.rulesBoth
  try dsimp only
  repeat' first
    | with_reducible assumption
    | intro _
    | with_reducible apply State.ruleBoth_keeps
    | with_reducible refine State.ruleBoth_keeps_eq ?_ ‹_›
    | with_reducible apply State.foldl_keeps
    | with_reducible apply State.foldl_fst_keeps
    | simp only [State.Keeps.lit]
    | simp only [State.Keeps.litDm, List.length_set]
    | with_reducible apply State.ite_keeps
    | with_reducible apply State.ite_fst_keeps
    | split

theorem State.rulesBoth_keeps_eq {q : List Instr} {s : State} {img : List Host.Cell} {epoch : Nat} (h0 : s.Keeps q) {u :
    State} {w : Bool}
    (e : State.rulesBoth s img epoch = (u, w)) : u.Keeps q := by
  have hu : (State.rulesBoth s img epoch).1.Keeps q := by apply State.rulesBoth_keeps <;> assumption
  rw [e] at hu
  exact hu

theorem State.cloneTables_keeps {q : List Instr} {s : State} (pl : Plane) (h0 : s.Keeps q) :
    (State.cloneTables s pl).Keeps q := by
  unfold State.cloneTables
  try dsimp only
  repeat' first
    | with_reducible assumption
    | with_reducible apply State.setPlane_keeps
    | with_reducible apply State.copySnares_keeps
    | with_reducible apply State.ite_keeps

theorem State.copyByKey_keeps {q : List Instr} {s : State} (pl : Plane) (h0 : s.Keeps q) :
    (State.copyByKey s pl).Keeps q := by
  unfold State.copyByKey
  try dsimp only
  repeat' first
    | with_reducible assumption
    | intro _
    | with_reducible apply State.noPlace_keeps
    | with_reducible apply State.lpmNoPlace_keeps
    | with_reducible apply State.setPlane_keeps
    | with_reducible apply State.keyApply_keeps
    | with_reducible apply State.copySnares_keeps
    | with_reducible apply State.inc_keeps
    | with_reducible apply State.foldl_keeps
    | simp only [State.Keeps.lit]
    | simp only [State.Keeps.litDm, List.length_set]
    | with_reducible apply State.ite_keeps
    | with_reducible apply State.ite_fst_keeps
    | split

theorem State.failBuckets_keeps {q : List Instr} {s : State} (pl : Plane) (h0 : s.Keeps q) :
    (State.failBuckets s pl).Keeps q := by
  unfold State.failBuckets
  try dsimp only
  repeat' first
    | with_reducible assumption
    | intro _
    | with_reducible apply State.ctxRelease_keeps
    | with_reducible apply State.failMove_keeps
    | with_reducible apply State.setCtx_keeps
    | with_reducible apply State.addCnt_keeps
    | with_reducible apply State.foldl_keeps
    | simp only [State.Keeps.lit]
    | simp only [State.Keeps.litDm, List.length_set]
    | with_reducible apply State.ite_keeps
    | with_reducible apply State.ite_fst_keeps
    | split

theorem State.failPlane_keeps {q : List Instr} {s : State} (pl : Plane) (cause : Nat) (h0 : s.Keeps q) :
    (State.failPlane s pl cause).Keeps q := by
  unfold State.failPlane
  try dsimp only
  repeat' first
    | with_reducible assumption
    | with_reducible apply State.setPlane_keeps
    | with_reducible apply State.makeLead_keeps
    | with_reducible apply State.failBuckets_keeps
    | with_reducible apply State.setCond_keeps
    | with_reducible apply State.noteFail_keeps
    | with_reducible apply State.dumpPlane_keeps
    | with_reducible apply State.addCnt_keeps
    | with_reducible apply State.ite_keeps

/-! ## Apply -/

theorem State.loadT1s_keeps {q : List Instr} {s : State} (n : Nat) (h0 : s.Keeps q) :
    (State.loadT1s s n).Keeps q := by
  unfold State.loadT1s
  try dsimp only
  repeat' first
    | with_reducible assumption
    | with_reducible apply State.put_keeps
    | with_reducible apply State.ite_keeps

theorem State.loadCapArea_keeps {q : List Instr} {s : State} (h0 : s.Keeps q) :
    (State.loadCapArea s).Keeps q := by
  unfold State.loadCapArea
  try dsimp only
  repeat' first
    | with_reducible assumption
    | with_reducible apply State.put_keeps
    | with_reducible apply State.ite_keeps

theorem State.memReady_keeps {q : List Instr} {s : State} (on : Bool) (h0 : s.Keeps q) :
    (State.memReady s on).Keeps q := by
  unfold State.memReady
  try dsimp only
  repeat' first
    | with_reducible assumption
    | with_reducible apply State.setFlag_keeps
    | with_reducible apply State.put_keeps
    | with_reducible apply State.ite_keeps

theorem State.domUp_keeps {q : List Instr} {s : State} (d : Nat) (h0 : s.Keeps q) :
    (State.domUp s d).Keeps q := by
  unfold State.domUp
  try dsimp only
  repeat' first
    | with_reducible assumption
    | intro _
    | with_reducible apply State.putSq_keeps
    | with_reducible apply State.memReady_keeps
    | with_reducible apply State.put_keeps
    | with_reducible apply State.foldl_keeps
    | simp only [State.Keeps.lit]
    | simp only [State.Keeps.litDm, List.length_set]
    | with_reducible apply State.ite_keeps
    | with_reducible apply State.ite_fst_keeps
    | split

theorem State.powerUp_keeps {q : List Instr} {s : State} (img : List Host.Cell) (h0 : s.Keeps q) :
    (State.powerUp s img).1.Keeps q := by
  unfold State.powerUp
  try dsimp only
  repeat' first
    | with_reducible assumption
    | intro _
    | with_reducible apply State.domUp_keeps
    | with_reducible apply State.foldl_keeps
    | simp only [State.Keeps.lit]
    | simp only [State.Keeps.litDm, List.length_set]
    | with_reducible apply State.ite_keeps
    | with_reducible apply State.ite_fst_keeps
    | split

theorem State.powerUp_keeps_eq {q : List Instr} {s : State} {img : List Host.Cell} (h0 : s.Keeps q) {u : State} {w :
    List Nat}
    (e : State.powerUp s img = (u, w)) : u.Keeps q := by
  have hu : (State.powerUp s img).1.Keeps q := by apply State.powerUp_keeps <;> assumption
  rw [e] at hu
  exact hu

theorem State.showActive_keeps {q : List Instr} {s : State} (h0 : s.Keeps q) :
    (State.showActive s).Keeps q := by
  unfold State.showActive
  try dsimp only
  repeat' first
    | with_reducible assumption
    | with_reducible apply State.put_keeps
    | with_reducible apply State.put64_keeps
    | with_reducible apply State.ite_keeps

theorem State.channelsUp_keeps {q : List Instr} {s : State} (h0 : s.Keeps q) :
    (State.channelsUp s).Keeps q := by
  unfold State.channelsUp
  try dsimp only
  repeat' first
    | with_reducible assumption
    | intro _
    | with_reducible apply State.linkUpNow_keeps
    | with_reducible apply State.foldl_keeps
    | simp only [State.Keeps.lit]
    | simp only [State.Keeps.litDm, List.length_set]
    | with_reducible apply State.ite_keeps
    | with_reducible apply State.ite_fst_keeps
    | split

theorem State.loadPOWERMAP_keeps {q : List Instr} {s : State} (h0 : s.Keeps q) :
    (State.loadPOWERMAP s).Keeps q := by
  unfold State.loadPOWERMAP
  try dsimp only
  repeat' first
    | with_reducible assumption
    | with_reducible apply State.put_keeps
    | with_reducible apply State.ite_keeps

theorem State.loadEth_keeps {q : List Instr} {s : State} (p : Nat) (h0 : s.Keeps q) :
    (State.loadEth s p).Keeps q := by
  unfold State.loadEth
  try dsimp only
  repeat' first
    | with_reducible assumption
    | with_reducible apply State.put_keeps
    | with_reducible apply State.ite_keeps

theorem State.portRestart_keeps {q : List Instr} {s : State} (old : List Host.Cell) (p : Nat) (h0 : s.Keeps q) :
    (State.portRestart s old p).Keeps q := by
  unfold State.portRestart
  try dsimp only
  repeat' first
    | with_reducible assumption
    | with_reducible apply State.setPort_keeps
    | with_reducible apply State.put_keeps
    | with_reducible apply State.ite_keeps

theorem State.portChanged_keeps {q : List Instr} {s : State} (old : List Host.Cell) (p : Nat) (h0 : s.Keeps q) :
    (State.portChanged s old p).Keeps q := by
  unfold State.portChanged
  try dsimp only
  repeat' first
    | with_reducible assumption
    | with_reducible apply State.setCan_keeps
    | with_reducible apply State.setPort_keeps
    | with_reducible apply State.linkDown_keeps
    | with_reducible apply State.portRestart_keeps
    | with_reducible apply State.debounceNow_keeps
    | with_reducible apply State.put_keeps
    | with_reducible apply State.flushPort_keeps
    | with_reducible apply State.ite_keeps

theorem State.loadPORTMAP_keeps {q : List Instr} {s : State} (old : List Host.Cell) (h0 : s.Keeps q) :
    (State.loadPORTMAP s old).Keeps q := by
  unfold State.loadPORTMAP
  try dsimp only
  repeat' first
    | with_reducible assumption
    | intro _
    | with_reducible apply State.loadEth_keeps
    | with_reducible apply State.portChanged_keeps
    | with_reducible apply State.loadT1s_keeps
    | with_reducible apply State.foldl_keeps
    | simp only [State.Keeps.lit]
    | simp only [State.Keeps.litDm, List.length_set]
    | with_reducible apply State.ite_keeps
    | with_reducible apply State.ite_fst_keeps
    | split

theorem State.loadPLANE_keeps {q : List Instr} {s : State} (h0 : s.Keeps q) :
    (State.loadPLANE s).Keeps q := by
  unfold State.loadPLANE
  try dsimp only
  repeat' first
    | with_reducible assumption
    | with_reducible apply State.takebackFromNow_keeps
    | with_reducible apply State.put_keeps
    | with_reducible apply State.ite_keeps

theorem State.loadPARSEGRAPH_keeps {q : List Instr} {s : State} (h0 : s.Keeps q) :
    (State.loadPARSEGRAPH s).Keeps q := by
  unfold State.loadPARSEGRAPH
  try dsimp only
  repeat' first
    | with_reducible assumption
    | with_reducible apply State.putBoth_keeps
    | with_reducible apply State.ite_keeps

theorem State.loadKEYTEMPL_keeps {q : List Instr} {s : State} (h0 : s.Keeps q) :
    (State.loadKEYTEMPL s).Keeps q := by
  unfold State.loadKEYTEMPL
  try dsimp only
  repeat' first
    | with_reducible assumption
    | with_reducible apply State.putBoth_keeps
    | with_reducible apply State.ite_keeps

theorem State.loadZONES_keeps {q : List Instr} {s : State} (old : List Host.Cell) (h0 : s.Keeps q) :
    (State.loadZONES s old).Keeps q := by
  unfold State.loadZONES
  try dsimp only
  repeat' first
    | with_reducible assumption
    | intro _
    | with_reducible apply State.put_keeps
    | with_reducible apply State.foldl_keeps
    | simp only [State.Keeps.lit]
    | simp only [State.Keeps.litDm, List.length_set]
    | with_reducible apply State.ite_keeps
    | with_reducible apply State.ite_fst_keeps
    | split

theorem State.loadShaper_keeps {q : List Instr} {s : State} (en : Plane → Fld) (full : Plane → Fld) (rate : Plane → Fld)
    (burst : Plane → Fld) (level : Plane → Fld) (b_e : Nat) (f : Nat) (r : Nat) (b : Nat) (h0 : s.Keeps q) :
    (State.loadShaper s en full rate burst level b_e f r b).Keeps q := by
  unfold State.loadShaper
  try dsimp only
  repeat' first
    | with_reducible assumption
    | with_reducible apply State.shReset_keeps
    | with_reducible apply State.putBoth_keeps
    | with_reducible apply State.ite_keeps

theorem State.loadEGRESS_keeps {q : List Instr} {s : State} (h0 : s.Keeps q) :
    (State.loadEGRESS s).Keeps q := by
  unfold State.loadEGRESS
  try dsimp only
  repeat' first
    | with_reducible assumption
    | intro _
    | with_reducible apply State.drrReset_keeps
    | with_reducible apply State.putBoth_keeps
    | with_reducible apply State.loadShaper_keeps
    | with_reducible apply State.foldl_keeps
    | simp only [State.Keeps.lit]
    | simp only [State.Keeps.litDm, List.length_set]
    | with_reducible apply State.ite_keeps
    | with_reducible apply State.ite_fst_keeps
    | split

theorem State.loadSTREAMS_keeps {q : List Instr} {s : State} (h0 : s.Keeps q) :
    (State.loadSTREAMS s).Keeps q := by
  unfold State.loadSTREAMS
  try dsimp only
  repeat' first
    | with_reducible assumption
    | intro _
    | with_reducible apply State.carChartApply_keeps
    | with_reducible apply State.rateAgain_keeps
    | with_reducible apply State.put_keeps
    | with_reducible apply State.foldl_keeps
    | simp only [State.Keeps.lit]
    | simp only [State.Keeps.litDm, List.length_set]
    | with_reducible apply State.ite_keeps
    | with_reducible apply State.ite_fst_keeps
    | split

theorem State.loadFRER_keeps {q : List Instr} {s : State} (old : List Host.Cell) (h0 : s.Keeps q) :
    (State.loadFRER s old).Keeps q := by
  unfold State.loadFRER
  try dsimp only
  repeat' first
    | with_reducible assumption
    | intro _
    | with_reducible apply State.put_keeps
    | with_reducible apply State.setRec_keeps
    | with_reducible apply State.putBoth_keeps
    | with_reducible apply State.foldl_keeps
    | simp only [State.Keeps.lit]
    | simp only [State.Keeps.litDm, List.length_set]
    | with_reducible apply State.ite_keeps
    | with_reducible apply State.ite_fst_keeps
    | split

theorem State.loadLEGACY_keeps {q : List Instr} {s : State} (old : List Host.Cell) (h0 : s.Keeps q) :
    (State.loadLEGACY s old).Keeps q := by
  unfold State.loadLEGACY
  try dsimp only
  repeat' first
    | with_reducible assumption
    | intro _
    | with_reducible apply State.setLin_keeps
    | with_reducible apply State.setReg_keeps
    | with_reducible apply State.setCan_keeps
    | with_reducible apply State.put_keeps
    | with_reducible apply State.foldl_keeps
    | simp only [State.Keeps.lit]
    | simp only [State.Keeps.litDm, List.length_set]
    | with_reducible apply State.ite_keeps
    | with_reducible apply State.ite_fst_keeps
    | split

theorem State.loadNmRegs_keeps {q : List Instr} {s : State} (h0 : s.Keeps q) :
    (State.loadNmRegs s).Keeps q := by
  unfold State.loadNmRegs
  try dsimp only
  repeat' first
    | with_reducible assumption
    | intro _
    | with_reducible apply State.put_keeps
    | with_reducible apply State.foldl_keeps
    | simp only [State.Keeps.lit]
    | simp only [State.Keeps.litDm, List.length_set]
    | with_reducible apply State.ite_keeps
    | with_reducible apply State.ite_fst_keeps
    | split

theorem State.loadNMCLUSTER_keeps {q : List Instr} {s : State} (old : List Host.Cell) (h0 : s.Keeps q) :
    (State.loadNMCLUSTER s old).Keeps q := by
  unfold State.loadNMCLUSTER
  try dsimp only
  repeat' first
    | with_reducible assumption
    | intro _
    | with_reducible apply State.loadNmRegs_keeps
    | with_reducible apply State.setPort_keeps
    | with_reducible apply State.setNm_keeps
    | with_reducible apply State.debounceNow_keeps
    | with_reducible apply State.enterRepeat_keeps
    | with_reducible apply State.ncPut_keeps
    | with_reducible apply State.foldl_keeps
    | simp only [State.Keeps.lit]
    | simp only [State.Keeps.litDm, List.length_set]
    | with_reducible apply State.ite_keeps
    | with_reducible apply State.ite_fst_keeps
    | split

theorem State.loadTENANTQ_keeps {q : List Instr} {s : State} {old : Mem} (h0 : s.Keeps q) (hm : Memory.wf old = true) :
    (State.loadTENANTQ s old).Keeps q := by
  refine State.foldl_keeps (fun t k ht => ?_) _ h0
  split
  · exact ht
  · have h1 := State.reclaimTenant_keeps (q := q) (s := { t with active := old }) k 6
      ⟨{ ht.inv with active := hm }, ht.queue⟩
    exact ⟨{ h1.inv with active := h0.inv.active }, h1.queue⟩

theorem State.loadLEDGER_keeps {q : List Instr} {s : State} (old : List Host.Cell) (h0 : s.Keeps q) :
    (State.loadLEDGER s old).Keeps q := by
  unfold State.loadLEDGER
  try dsimp only
  repeat' first
    | with_reducible assumption
    | intro _
    | with_reducible apply State.ldgApply_keeps
    | with_reducible apply State.put_keeps
    | with_reducible apply State.nmLedger_keeps
    | with_reducible apply State.foldl_keeps
    | simp only [State.Keeps.lit]
    | simp only [State.Keeps.litDm, List.length_set]
    | with_reducible apply State.ite_keeps
    | with_reducible apply State.ite_fst_keeps
    | split

theorem State.applySection_keeps {q : List Instr} {old : Mem} {s : State} (ty : Nat) (h0 : s.Keeps q)
    (hm : Memory.wf old = true) : (State.applySection old s ty).Keeps q := by
  unfold State.applySection
  repeat' first
    | with_reducible assumption
    | with_reducible apply State.loadPOWERMAP_keeps
    | with_reducible apply State.loadPORTMAP_keeps
    | with_reducible apply State.loadCapArea_keeps
    | with_reducible apply State.loadPLANE_keeps
    | with_reducible apply State.loadPARSEGRAPH_keeps
    | with_reducible apply State.loadKEYTEMPL_keeps
    | with_reducible apply State.loadZONES_keeps
    | with_reducible apply State.loadEGRESS_keeps
    | with_reducible apply State.loadSTREAMS_keeps
    | with_reducible apply State.loadFRER_keeps
    | with_reducible apply State.loadLEGACY_keeps
    | with_reducible apply State.loadNMCLUSTER_keeps
    | with_reducible apply State.loadTENANTQ_keeps
    | with_reducible apply State.loadLEDGER_keeps
    | with_reducible apply State.ite_keeps

theorem State.activate_keeps {q : List Instr} {s : State} {img : Mem} (tys : List Nat) (h0 : s.Keeps q)
    (hm : Memory.wf img = true) : (State.activate s img tys).Keeps q := by
  unfold State.activate
  dsimp only
  refine State.channelsUp_keeps (State.foldl_keeps (fun t ty ht => State.applySection_keeps ty ht h0.inv.active) _ ?_)
  exact State.showActive_keeps ⟨{ h0.inv with active := hm }, h0.queue⟩

theorem State.portDead_keeps {q : List Instr} {s : State} (p : Nat) (h0 : s.Keeps q) :
    (State.portDead s p).Keeps q := by
  unfold State.portDead
  try dsimp only
  repeat' first
    | with_reducible assumption
    | with_reducible apply State.setCan_keeps
    | with_reducible apply State.setPort_keeps
    | with_reducible apply State.linkDown_keeps
    | with_reducible apply State.put_keeps
    | with_reducible apply State.ite_keeps

theorem State.domDown_keeps {q : List Instr} {s : State} (d : Nat) (h0 : s.Keeps q) :
    (State.domDown s d).Keeps q := by
  unfold State.domDown
  try dsimp only
  repeat' first
    | with_reducible assumption
    | intro _
    | with_reducible apply State.putSq_keeps
    | with_reducible apply State.memReady_keeps
    | with_reducible apply State.portDead_keeps
    | with_reducible apply State.put_keeps
    | with_reducible apply State.foldl_keeps
    | simp only [State.Keeps.lit]
    | simp only [State.Keeps.litDm, List.length_set]
    | with_reducible apply State.ite_keeps
    | with_reducible apply State.ite_fst_keeps
    | split

theorem State.powerRelease_keeps {q : List Instr} {s : State} (h0 : s.Keeps q) :
    (State.powerRelease s).Keeps q := by
  unfold State.powerRelease
  try dsimp only
  repeat' first
    | with_reducible assumption
    | intro _
    | with_reducible apply State.domDown_keeps
    | with_reducible apply State.foldl_keeps
    | simp only [State.Keeps.lit]
    | simp only [State.Keeps.litDm, List.length_set]
    | with_reducible apply State.ite_keeps
    | with_reducible apply State.ite_fst_keeps
    | split

end Sys2Proof.Machine
end

