-- ==== Sys2Proof/Laws/Keeps7.lean ====
section
/-! SUPPORT. What each operation of ChartCommands, Redundancy, NmCommands keeps: the good form, and the queue. -/

namespace Sys2Proof.Machine

/-! ## ChartCommands -/

theorem State.writeWindow_keeps {q : List Instr} {s : State} (r : Requester) (addr : Nat) (v : Nat) (h0 : s.Keeps q) :
    (State.writeWindow s r addr v).Keeps q := by
  unfold State.writeWindow
  split
  · exact ⟨{ h0.inv with shadow := Memory.wf_memPut _ _ h0.inv.shadow }, h0.queue⟩
  · exact State.put_keeps h0 _ _

theorem State.setShadow_keeps {q : List Instr} {s : State} (n : Nat) (h0 : s.Keeps q) :
    (State.setShadow s n).Keeps q := by
  unfold State.setShadow
  try dsimp only
  repeat' first
    | with_reducible assumption
    | with_reducible apply State.put_keeps
    | with_reducible apply State.ite_keeps

theorem State.disarmShadow_keeps {q : List Instr} {s : State} (h0 : s.Keeps q) :
    (State.disarmShadow s).Keeps q := by
  unfold State.disarmShadow
  try dsimp only
  repeat' first
    | with_reducible assumption
    | with_reducible apply State.setShadow_keeps
    | with_reducible apply State.dropEpoch_keeps
    | with_reducible apply State.carRelease_keeps
    | with_reducible apply State.ite_keeps

theorem State.chResult_keeps {q : List Instr} {s : State} (n : Nat) (h0 : s.Keeps q) :
    (State.chResult s n).Keeps q := by
  unfold State.chResult
  try dsimp only
  repeat' first
    | with_reducible assumption
    | with_reducible apply State.put_keeps
    | with_reducible apply State.ite_keeps

theorem State.chCommand_keeps {q : List Instr} {s : State} (r : Requester) (tie : Bool) (free : Bool) {act : State →
    State} (h0 : s.Keeps q) (h1 : ∀ (t : State), t.Keeps q → (act t ).Keeps q) :
    (State.chCommand s r tie free act).Keeps q := by
  unfold State.chCommand
  try dsimp only
  repeat' first
    | with_reducible assumption
    | intro _
    | with_reducible apply h1
    | with_reducible apply State.gated_keeps
    | with_reducible apply State.chResult_keeps
    | with_reducible apply State.ite_keeps

theorem State.chOpen_keeps {q : List Instr} {s : State} (r : Requester) (h0 : s.Keeps q) :
    (State.chOpen s r).Keeps q := by
  unfold State.chOpen
  try dsimp only
  repeat' first
    | with_reducible assumption
    | with_reducible apply State.chResult_keeps
    | with_reducible apply State.setShadow_keeps
    | with_reducible apply State.put_keeps
    | with_reducible apply State.ite_keeps

theorem State.chVerify_keeps {q : List Instr} {s : State} (h0 : s.Keeps q) :
    (State.chVerify s).Keeps q := by
  unfold State.chVerify
  try dsimp only
  repeat' first
    | with_reducible assumption
    | with_reducible apply State.chResult_keeps
    | with_reducible apply State.setShadow_keeps
    | with_reducible apply State.ite_keeps

theorem State.putStep_keeps {q : List Instr} {s : State} (n : Nat) (h0 : s.Keeps q) :
    (State.putStep s n).Keeps q := by
  unfold State.putStep
  try dsimp only
  repeat' first
    | with_reducible assumption
    | with_reducible apply State.put_keeps
    | with_reducible apply State.ite_keeps

theorem State.swapDrain_keeps {q : List Instr} {s : State} (pl : Plane) (step : Nat) (h0 : s.Keeps q) :
    (State.swapDrain s pl step).Keeps q := by
  unfold State.swapDrain
  try dsimp only
  repeat' first
    | with_reducible assumption
    | with_reducible apply State.handOver_keeps
    | with_reducible apply State.putStep_keeps
    | with_reducible apply State.ite_keeps

theorem State.startSwap_keeps {q : List Instr} {s : State} (h0 : s.Keeps q) :
    (State.startSwap s).Keeps q := by
  unfold State.startSwap
  try dsimp only
  repeat' first
    | with_reducible assumption
    | with_reducible apply State.put_keeps
    | with_reducible apply State.putStep_keeps
    | with_reducible apply State.swapDrain_keeps
    | with_reducible apply State.powerUp_keeps
    | with_reducible refine State.powerUp_keeps_eq ?_ ‹_›
    | simp only [State.Keeps.lit]
    | with_reducible apply State.ite_keeps
    | with_reducible apply State.ite_fst_keeps
    | split

theorem State.chArm_keeps {q : List Instr} {s : State} (h0 : s.Keeps q) :
    (State.chArm s).Keeps q := by
  unfold State.chArm
  try dsimp only
  repeat' first
    | with_reducible assumption
    | with_reducible apply State.chResult_keeps
    | with_reducible apply State.setShadow_keeps
    | with_reducible apply State.carHold_keeps
    | with_reducible apply State.put_keeps
    | with_reducible apply State.startSwap_keeps
    | with_reducible apply State.ite_keeps

theorem State.chEnd_keeps {q : List Instr} {s : State} (h0 : s.Keeps q) :
    (State.chEnd s).Keeps q := by
  unfold State.chEnd
  try dsimp only
  repeat' first
    | with_reducible assumption
    | with_reducible apply State.chResult_keeps
    | with_reducible apply State.ite_keeps

theorem State.endSwap_keeps {q : List Instr} {s : State} (undone : Bool) (h0 : s.Keeps q) :
    (State.endSwap s undone).Keeps q := by
  unfold State.endSwap
  try dsimp only
  repeat' first
    | with_reducible assumption
    | intro _
    | with_reducible apply State.pulse_keeps
    | with_reducible apply State.takebackFromNow_keeps
    | with_reducible apply State.domDown_keeps
    | with_reducible apply State.setShadow_keeps
    | with_reducible apply State.chEnd_keeps
    | with_reducible apply State.put_keeps
    | with_reducible apply State.dropEpoch_keeps
    | with_reducible apply State.powerRelease_keeps
    | with_reducible apply State.putStep_keeps
    | with_reducible apply State.carRelease_keeps
    | with_reducible apply State.foldl_keeps
    | simp only [State.Keeps.lit]
    | simp only [State.Keeps.litDm, List.length_set]
    | with_reducible apply State.ite_keeps
    | with_reducible apply State.ite_fst_keeps
    | split

theorem State.swapCommit_keeps {q : List Instr} {s : State} (h0 : s.Keeps q) :
    (State.swapCommit s).Keeps q := by
  unfold State.swapCommit
  try dsimp only
  repeat' first
    | with_reducible assumption
    | intro _
    | with_reducible apply State.pulse_keeps
    | with_reducible apply State.endSwap_keeps
    | with_reducible apply State.trieEpoch_keeps
    | with_reducible apply State.enterService_keeps
    | with_reducible apply State.setShadow_keeps
    | with_reducible apply State.activate_keeps
    | with_reducible apply State.setCond_keeps
    | with_reducible apply State.newEra_keeps
    | with_reducible apply State.putStep_keeps
    | with_reducible apply State.swapDrain_keeps
    | with_reducible apply State.foldl_keeps
    | with_reducible apply State.foldl_fst_keeps
    | simp only [State.Keeps.lit]
    | simp only [State.Keeps.litDm, List.length_set]
    | with_reducible apply State.ite_keeps
    | with_reducible apply State.ite_fst_keeps
    | split
  all_goals exact h0.inv.shadow

theorem State.hotBeat_keeps {q : List Instr} {s : State} (h0 : s.Keeps q) :
    (State.hotBeat s).Keeps q := by
  unfold State.hotBeat
  try dsimp only
  repeat' first
    | with_reducible assumption
    | intro _
    | with_reducible apply State.pulse_keeps
    | with_reducible apply State.trieEpoch_keeps
    | with_reducible apply State.setShadow_keeps
    | with_reducible apply State.activate_keeps
    | with_reducible apply State.newEra_keeps
    | with_reducible apply State.foldl_keeps
    | with_reducible apply State.foldl_fst_keeps
    | simp only [State.Keeps.lit]
    | simp only [State.Keeps.litDm, List.length_set]
    | with_reducible apply State.ite_keeps
    | with_reducible apply State.ite_fst_keeps
    | split
  all_goals exact h0.inv.shadow

theorem State.chLate_keeps {q : List Instr} {s : State} (cold : Bool) (h0 : s.Keeps q) :
    ∀ u, State.chLate s cold = some u → u.Keeps q := by
  intro u hu
  unfold State.chLate at hu
  split at hu
  · cases hu
  · split at hu
    · cases hu
      exact State.chResult_keeps _ h0
    · split at hu
      · have e := Option.some.inj hu
        rw [← e]
        refine State.chResult_keeps _ ?_
        split
        · exact State.swapCommit_keeps h0
        · exact State.hotBeat_keeps h0
      · cases hu

theorem State.chLate_keeps_eq {q : List Instr} {s : State} {cold : Bool} (h0 : s.Keeps q) {u : State}
    (e : State.chLate s cold = some u) : u.Keeps q := by
  revert u e
  apply State.chLate_keeps <;> assumption

theorem State.chDisarm_keeps {q : List Instr} {s : State} (late : Bool) (h0 : s.Keeps q) : (State.chDisarm s late).Keeps
    q := by
  unfold State.chDisarm
  split
  · next t e =>
    split at e
    · exact State.chLate_keeps_eq h0 e
    · cases e
  · split
    · exact State.chResult_keeps _ h0
    · exact State.chResult_keeps _ (State.disarmShadow_keeps h0)

theorem State.chDiscard_keeps {q : List Instr} {s : State} (h0 : s.Keeps q) :
    (State.chDiscard s).Keeps q := by
  unfold State.chDiscard
  try dsimp only
  repeat' first
    | with_reducible assumption
    | with_reducible apply State.chResult_keeps
    | with_reducible apply State.setShadow_keeps
    | with_reducible apply State.ite_keeps

theorem State.swapBack_keeps {q : List Instr} {s : State} (h0 : s.Keeps q) :
    (State.swapBack s).Keeps q := by
  unfold State.swapBack
  try dsimp only
  repeat' first
    | with_reducible assumption
    | with_reducible apply State.dropEpoch_keeps
    | with_reducible apply State.setCond_keeps
    | with_reducible apply State.putStep_keeps
    | simp only [State.Keeps.lit]
    | with_reducible apply State.ite_keeps
    | with_reducible apply State.ite_fst_keeps
    | split

theorem State.chAbort_keeps {q : List Instr} {s : State} (late : Bool) (h0 : s.Keeps q) : (State.chAbort s late).Keeps q
    := by
  unfold State.chAbort
  dsimp only
  split
  · next t e =>
    split at e
    · exact State.chLate_keeps_eq h0 e
    · cases e
  · split
    · exact State.chResult_keeps _ h0
    · split
      · exact State.chResult_keeps _ h0
      · exact State.swapBack_keeps (State.chResult_keeps _ h0)

theorem State.writeArmTime_keeps {q : List Instr} {s : State} (r : Requester) (hi : Bool) (v : Nat) (h0 : s.Keeps q) :
    (State.writeArmTime s r hi v).Keeps q := by
  unfold State.writeArmTime
  try dsimp only
  repeat' first
    | with_reducible assumption
    | with_reducible apply State.put_keeps
    | with_reducible apply State.ite_keeps

theorem State.writeFloor_keeps {q : List Instr} {s : State} (v : Nat) (h0 : s.Keeps q) :
    (State.writeFloor s v).Keeps q := by
  unfold State.writeFloor
  try dsimp only
  repeat' first
    | with_reducible assumption
    | with_reducible apply State.put_keeps
    | with_reducible apply State.ite_keeps

theorem State.chError_keeps {q : List Instr} {s : State} (code : Nat) (sect : Nat) (record : Nat) (h0 : s.Keeps q) :
    (State.chError s code sect record).Keeps q := by
  unfold State.chError
  try dsimp only
  repeat' first
    | with_reducible assumption
    | with_reducible apply State.pulse_keeps
    | with_reducible apply State.put_keeps
    | with_reducible apply State.ite_keeps

theorem execChtOpen_keeps {q : List Instr} (r : Requester) (tie : Bool) {s : State} (h0 : s.Keeps q) :
    ∃ u, execChtOpen r tie s = .next u ∧ u.Keeps q := by
  refine ⟨_, rfl, ?_⟩
  try dsimp only
  repeat' first
    | with_reducible assumption
    | intro _
    | with_reducible apply State.chOpen_keeps
    | with_reducible apply State.chCommand_keeps
    | with_reducible apply State.foldl_keeps
    | simp only [State.Keeps.lit]
    | simp only [State.Keeps.litDm, List.length_set]
    | with_reducible apply State.ite_keeps
    | with_reducible apply State.ite_fst_keeps
    | split

theorem execShadowWindowWrite_keeps {q : List Instr} (r : Requester) (addr : Nat) (v : Nat) {s : State} (h0 : s.Keeps q) :
    ∃ u, execShadowWindowWrite r addr v s = .next u ∧ u.Keeps q := by
  refine ⟨_, rfl, ?_⟩
  try dsimp only
  repeat' first
    | with_reducible assumption
    | intro _
    | with_reducible apply State.gated_keeps
    | with_reducible apply State.writeWindow_keeps
    | with_reducible apply State.foldl_keeps
    | simp only [State.Keeps.lit]
    | simp only [State.Keeps.litDm, List.length_set]
    | with_reducible apply State.ite_keeps
    | with_reducible apply State.ite_fst_keeps
    | split

theorem execChtVerify_keeps {q : List Instr} (r : Requester) (tie : Bool) {s : State} (h0 : s.Keeps q) :
    ∃ u, execChtVerify r tie s = .next u ∧ u.Keeps q := by
  refine ⟨_, rfl, ?_⟩
  try dsimp only
  repeat' first
    | with_reducible assumption
    | with_reducible apply State.chVerify_keeps
    | with_reducible apply State.chCommand_keeps
    | with_reducible apply State.ite_keeps

theorem State.verifyEnd_keeps {q : List Instr} {s : State} (h0 : s.Keeps q) :
    (State.verifyEnd s).Keeps q := by
  unfold State.verifyEnd
  try dsimp only
  repeat' first
    | with_reducible assumption
    | with_reducible apply State.pulse_keeps
    | with_reducible apply State.setShadow_keeps
    | with_reducible apply State.chEnd_keeps
    | with_reducible apply State.put_keeps
    | with_reducible apply State.put64_keeps
    | with_reducible apply State.chError_keeps
    | simp only [State.Keeps.lit]
    | with_reducible apply State.ite_keeps
    | with_reducible apply State.ite_fst_keeps
    | split

theorem execVerifyDone_keeps {q : List Instr} {s : State} (h0 : s.Keeps q) :
    ∃ u, execVerifyDone s = .next u ∧ u.Keeps q := by
  refine ⟨_, rfl, ?_⟩
  try dsimp only
  repeat' first
    | with_reducible assumption
    | with_reducible apply State.verifyEnd_keeps
    | with_reducible apply State.ite_keeps

theorem execChtArm_keeps {q : List Instr} (r : Requester) (tie : Bool) {s : State} (h0 : s.Keeps q) :
    ∃ u, execChtArm r tie s = .next u ∧ u.Keeps q := by
  refine ⟨_, rfl, ?_⟩
  try dsimp only
  repeat' first
    | with_reducible assumption
    | with_reducible apply State.chArm_keeps
    | with_reducible apply State.chCommand_keeps
    | with_reducible apply State.ite_keeps

theorem execChtDisarm_keeps {q : List Instr} (r : Requester) (tie : Bool) (late : Bool) {s : State} (h0 : s.Keeps q) :
    ∃ u, execChtDisarm r tie late s = .next u ∧ u.Keeps q := by
  refine ⟨_, rfl, ?_⟩
  try dsimp only
  repeat' first
    | with_reducible assumption
    | intro _
    | with_reducible apply State.chDisarm_keeps
    | with_reducible apply State.chCommand_keeps
    | with_reducible apply State.foldl_keeps
    | simp only [State.Keeps.lit]
    | simp only [State.Keeps.litDm, List.length_set]
    | with_reducible apply State.ite_keeps
    | with_reducible apply State.ite_fst_keeps
    | split

theorem execChtDiscard_keeps {q : List Instr} (r : Requester) (tie : Bool) {s : State} (h0 : s.Keeps q) :
    ∃ u, execChtDiscard r tie s = .next u ∧ u.Keeps q := by
  refine ⟨_, rfl, ?_⟩
  try dsimp only
  repeat' first
    | with_reducible assumption
    | with_reducible apply State.chDiscard_keeps
    | with_reducible apply State.chCommand_keeps
    | with_reducible apply State.ite_keeps

theorem execChtAbortSwap_keeps {q : List Instr} (r : Requester) (tie : Bool) (late : Bool) {s : State} (h0 : s.Keeps q) :
    ∃ u, execChtAbortSwap r tie late s = .next u ∧ u.Keeps q := by
  refine ⟨_, rfl, ?_⟩
  try dsimp only
  repeat' first
    | with_reducible assumption
    | intro _
    | with_reducible apply State.chAbort_keeps
    | with_reducible apply State.chCommand_keeps
    | with_reducible apply State.foldl_keeps
    | simp only [State.Keeps.lit]
    | simp only [State.Keeps.litDm, List.length_set]
    | with_reducible apply State.ite_keeps
    | with_reducible apply State.ite_fst_keeps
    | split

theorem execChtFloorWrite_keeps {q : List Instr} (r : Requester) (v : Nat) {s : State} (h0 : s.Keeps q) :
    ∃ u, execChtFloorWrite r v s = .next u ∧ u.Keeps q := by
  refine ⟨_, rfl, ?_⟩
  try dsimp only
  repeat' first
    | with_reducible assumption
    | intro _
    | with_reducible apply State.gated_keeps
    | with_reducible apply State.writeFloor_keeps
    | with_reducible apply State.foldl_keeps
    | simp only [State.Keeps.lit]
    | simp only [State.Keeps.litDm, List.length_set]
    | with_reducible apply State.ite_keeps
    | with_reducible apply State.ite_fst_keeps
    | split

theorem State.chReady_keeps {q : List Instr} {s : State} (h0 : s.Keeps q) :
    (State.chReady s).Keeps q := by
  unfold State.chReady
  try dsimp only
  repeat' first
    | with_reducible assumption
    | with_reducible apply State.putCar_keeps
    | with_reducible apply State.put_keeps
    | with_reducible apply State.put64_keeps
    | with_reducible apply State.ite_keeps

theorem State.prepareHot_keeps {q : List Instr} {s : State} (h0 : s.Keeps q) :
    (State.prepareHot s).Keeps q := by
  unfold State.prepareHot
  try dsimp only
  repeat' first
    | with_reducible assumption
    | with_reducible apply State.disarmShadow_keeps
    | with_reducible apply State.chReady_keeps
    | with_reducible apply State.carChart_keeps
    | with_reducible refine State.carChart_keeps_eq ?_ ‹_›
    | with_reducible apply State.chError_keeps
    | with_reducible apply State.rulesBoth_keeps
    | with_reducible refine State.rulesBoth_keeps_eq ?_ ‹_›
    | simp only [State.Keeps.lit]
    | with_reducible apply State.ite_keeps
    | with_reducible apply State.ite_fst_keeps
    | split

theorem State.prepareCold_keeps {q : List Instr} {s : State} (h0 : s.Keeps q) :
    (State.prepareCold s).Keeps q := by
  unfold State.prepareCold
  try dsimp only
  repeat' first
    | with_reducible assumption
    | with_reducible apply State.chReady_keeps
    | with_reducible apply State.carChart_keeps
    | with_reducible refine State.carChart_keeps_eq ?_ ‹_›
    | with_reducible apply State.swapCommit_keeps
    | with_reducible apply State.swapBack_keeps
    | with_reducible apply State.chError_keeps
    | with_reducible apply State.carRelease_keeps
    | simp only [State.Keeps.lit]
    | with_reducible apply State.ite_keeps
    | with_reducible apply State.ite_fst_keeps
    | split

theorem State.prepared_keeps {q : List Instr} {s : State} (h0 : s.Keeps q) :
    (State.prepared s).Keeps q := by
  unfold State.prepared
  try dsimp only
  repeat' first
    | with_reducible assumption
    | with_reducible apply State.prepareHot_keeps
    | with_reducible apply State.prepareCold_keeps
    | with_reducible apply State.ite_keeps

theorem execPreparationComplete_keeps {q : List Instr} {s : State} (h0 : s.Keeps q) :
    ∃ u, execPreparationComplete s = .next u ∧ u.Keeps q := by
  refine ⟨_, rfl, ?_⟩
  try dsimp only
  repeat' first
    | with_reducible assumption
    | with_reducible apply State.prepared_keeps
    | with_reducible apply State.ite_keeps

theorem State.chartBeat_keeps {q : List Instr} {s : State} (h0 : s.Keeps q) :
    (State.chartBeat s).Keeps q := by
  unfold State.chartBeat
  try dsimp only
  repeat' first
    | with_reducible assumption
    | with_reducible apply State.swapCommit_keeps
    | with_reducible apply State.hotBeat_keeps
    | with_reducible apply State.ite_keeps

theorem execChartDownbeat_keeps {q : List Instr} {s : State} (h0 : s.Keeps q) :
    ∃ u, execChartDownbeat s = .next u ∧ u.Keeps q := by
  refine ⟨_, rfl, ?_⟩
  try dsimp only
  repeat' first
    | with_reducible assumption
    | with_reducible apply State.chartBeat_keeps
    | with_reducible apply State.ite_keeps

theorem execOldEpochDeleteDone_keeps {q : List Instr} {s : State} (h0 : s.Keeps q) :
    ∃ u, execOldEpochDeleteDone s = .next u ∧ u.Keeps q := by
  refine ⟨_, rfl, ?_⟩
  try dsimp only
  repeat' first
    | with_reducible assumption
    | with_reducible apply State.setShadow_keeps
    | with_reducible apply State.dropEpoch_keeps
    | with_reducible apply State.ite_keeps

theorem State.enterResync_keeps {q : List Instr} {s : State} (pl : Plane) (h0 : s.Keeps q) :
    (State.enterResync s pl).Keeps q := by
  unfold State.enterResync
  try dsimp only
  repeat' first
    | with_reducible assumption
    | with_reducible apply State.setCond_keeps
    | simp only [State.Keeps.lit]
    | with_reducible apply State.ite_keeps
    | with_reducible apply State.ite_fst_keeps
    | split

theorem State.buildAlone_keeps {q : List Instr} {s : State} (pl : Plane) (h0 : s.Keeps q) :
    (State.buildAlone s pl).Keeps q := by
  unfold State.buildAlone
  try dsimp only
  repeat' first
    | with_reducible assumption
    | with_reducible apply State.enterService_keeps
    | with_reducible apply State.rulesIn_keeps
    | with_reducible apply State.ite_keeps

theorem State.swapRebuilt_keeps {q : List Instr} {s : State} (h0 : s.Keeps q) :
    (State.swapRebuilt s).Keeps q := by
  unfold State.swapRebuilt
  try dsimp only
  repeat' first
    | with_reducible assumption
    | with_reducible apply State.endSwap_keeps
    | with_reducible apply State.layPlane_keeps
    | with_reducible apply State.buildAlone_keeps
    | with_reducible apply State.swapBack_keeps
    | with_reducible apply State.enterResync_keeps
    | with_reducible apply State.chError_keeps
    | with_reducible apply State.putStep_keeps
    | with_reducible apply State.carRelease_keeps
    | with_reducible apply State.rulesIn_keeps
    | with_reducible apply State.ite_keeps

theorem execSwapRebuildDone_keeps {q : List Instr} {s : State} (h0 : s.Keeps q) :
    ∃ u, execSwapRebuildDone s = .next u ∧ u.Keeps q := by
  refine ⟨_, rfl, ?_⟩
  try dsimp only
  repeat' first
    | with_reducible assumption
    | with_reducible apply State.swapRebuilt_keeps
    | with_reducible apply State.ite_keeps

theorem State.swapResynced_keeps {q : List Instr} {s : State} (h0 : s.Keeps q) :
    (State.swapResynced s).Keeps q := by
  unfold State.swapResynced
  try dsimp only
  repeat' first
    | with_reducible assumption
    | with_reducible apply State.endSwap_keeps
    | with_reducible apply State.buildAlone_keeps
    | with_reducible apply State.cloneTables_keeps
    | with_reducible apply State.copyByKey_keeps
    | with_reducible apply State.setCond_keeps
    | simp only [State.Keeps.lit]
    | with_reducible apply State.ite_keeps
    | with_reducible apply State.ite_fst_keeps
    | split

theorem execSwapResyncDone_keeps {q : List Instr} {s : State} (h0 : s.Keeps q) :
    ∃ u, execSwapResyncDone s = .next u ∧ u.Keeps q := by
  refine ⟨_, rfl, ?_⟩
  try dsimp only
  repeat' first
    | with_reducible assumption
    | with_reducible apply State.swapResynced_keeps
    | with_reducible apply State.ite_keeps

/-! ## Redundancy -/

theorem State.redStart_keeps {q : List Instr} {s : State} (b : RedBusy) (h0 : s.Keeps q) :
    (State.redStart s b).Keeps q := by
  unfold State.redStart
  try dsimp only
  repeat' first
    | with_reducible assumption
    | with_reducible apply State.put_keeps
    | simp only [State.Keeps.lit]
    | with_reducible apply State.ite_keeps
    | with_reducible apply State.ite_fst_keeps
    | split

theorem State.setBeat_keeps {q : List Instr} {s : State} (i : Nat) (x : BeatSt) (h0 : s.Keeps q) :
    (State.setBeat s i x).Keeps q :=
  ⟨{ h0.inv with beats := by simp [State.setBeat, h0.inv.beats] }, h0.queue⟩

theorem State.hearBeat_keeps {q : List Instr} {s : State} (num : Nat) (i : Nat) (h0 : s.Keeps q) :
    (State.hearBeat s num i).Keeps q := by
  unfold State.hearBeat
  try dsimp only
  repeat' first
    | with_reducible assumption
    | with_reducible apply State.setBeat_keeps
    | with_reducible apply State.ite_keeps

theorem State.redCommand_keeps {q : List Instr} {s : State} (r : Requester) {act : State → State} (h0 : s.Keeps q) (h1 :
    ∀ (t : State), t.Keeps q → (act t ).Keeps q) :
    (State.redCommand s r act).Keeps q := by
  unfold State.redCommand
  try dsimp only
  repeat' first
    | with_reducible assumption
    | intro _
    | with_reducible apply h1
    | with_reducible apply State.mcOnly_keeps
    | with_reducible apply State.put_keeps
    | with_reducible apply State.ite_keeps

theorem State.redEnd_keeps {q : List Instr} {s : State} (code : Nat) (h0 : s.Keeps q) :
    (State.redEnd s code).Keeps q := by
  unfold State.redEnd
  try dsimp only
  repeat' first
    | with_reducible assumption
    | with_reducible apply State.setFlag_keeps
    | with_reducible apply State.put_keeps
    | simp only [State.Keeps.lit]
    | with_reducible apply State.ite_keeps
    | with_reducible apply State.ite_fst_keeps
    | split

theorem State.redIsolate_keeps {q : List Instr} {s : State} (pl : Plane) (h0 : s.Keeps q) :
    (State.redIsolate s pl).Keeps q := by
  unfold State.redIsolate
  try dsimp only
  repeat' first
    | with_reducible assumption
    | with_reducible apply State.redEnd_keeps
    | with_reducible apply State.handOver_keeps
    | with_reducible apply State.put_keeps
    | with_reducible apply State.setCond_keeps
    | with_reducible apply State.redStart_keeps
    | with_reducible apply State.ite_keeps

theorem State.redTest_keeps {q : List Instr} {s : State} (pl : Plane) (h0 : s.Keeps q) :
    (State.redTest s pl).Keeps q := by
  unfold State.redTest
  try dsimp only
  repeat' first
    | with_reducible assumption
    | with_reducible apply State.put_keeps
    | with_reducible apply State.redStart_keeps
    | with_reducible apply State.ite_keeps

theorem State.redRejoin_keeps {q : List Instr} {s : State} (pl : Plane) (h0 : s.Keeps q) :
    (State.redRejoin s pl).Keeps q := by
  unfold State.redRejoin
  try dsimp only
  repeat' first
    | with_reducible assumption
    | with_reducible apply State.put_keeps
    | with_reducible apply State.redStart_keeps
    | with_reducible apply State.ite_keeps

theorem State.redPromote_keeps {q : List Instr} {s : State} (pl : Plane) (h0 : s.Keeps q) :
    (State.redPromote s pl).Keeps q := by
  unfold State.redPromote
  try dsimp only
  repeat' first
    | with_reducible assumption
    | with_reducible apply State.makeLead_keeps
    | with_reducible apply State.redEnd_keeps
    | with_reducible apply State.put_keeps
    | with_reducible apply State.ite_keeps

theorem State.writeLastFail_keeps {q : List Instr} {s : State} (v : Nat) (h0 : s.Keeps q) :
    (State.writeLastFail s v).Keeps q := by
  unfold State.writeLastFail
  try dsimp only
  repeat' first
    | with_reducible assumption
    | with_reducible apply State.setReg_keeps
    | with_reducible apply State.put_keeps
    | with_reducible apply State.ite_keeps

theorem State.drainOver_keeps {q : List Instr} {s : State} (pl : Plane) (h0 : s.Keeps q) :
    (State.drainOver s pl).Keeps q := by
  unfold State.drainOver
  try dsimp only
  repeat' first
    | with_reducible assumption
    | with_reducible apply State.redEnd_keeps
    | with_reducible apply State.drainEnd_keeps
    | with_reducible apply State.putStep_keeps
    | with_reducible apply State.ite_keeps

theorem execHandoverDrainEnd_keeps {q : List Instr} {s : State} (h0 : s.Keeps q) :
    ∃ u, execHandoverDrainEnd s = .next u ∧ u.Keeps q := by
  refine ⟨_, rfl, ?_⟩
  try dsimp only
  repeat' first
    | with_reducible assumption
    | with_reducible apply State.drainOver_keeps
    | with_reducible apply State.ite_keeps

theorem State.noPlaneCheck_keeps {q : List Instr} {s : State} (h0 : s.Keeps q) :
    (State.noPlaneCheck s).Keeps q := by
  unfold State.noPlaneCheck
  try dsimp only
  repeat' first
    | with_reducible assumption
    | with_reducible apply State.enter_keeps
    | with_reducible apply State.ite_keeps

theorem State.swapLost_keeps {q : List Instr} {s : State} (pl : Plane) (h0 : s.Keeps q) :
    (State.swapLost s pl).Keeps q := by
  unfold State.swapLost
  try dsimp only
  repeat' first
    | with_reducible assumption
    | with_reducible apply State.endSwap_keeps
    | with_reducible apply State.swapCommit_keeps
    | with_reducible apply State.dropEpoch_keeps
    | with_reducible apply State.chError_keeps
    | with_reducible apply State.drainEnd_keeps
    | with_reducible apply State.putStep_keeps
    | with_reducible apply State.ite_keeps

theorem State.redLost_keeps {q : List Instr} {s : State} (pl : Plane) (h0 : s.Keeps q) :
    (State.redLost s pl).Keeps q := by
  unfold State.redLost
  try dsimp only
  repeat' first
    | with_reducible assumption
    | with_reducible apply State.setPlane_keeps
    | with_reducible apply State.makeLead_keeps
    | with_reducible apply State.redEnd_keeps
    | simp only [State.Keeps.lit]
    | with_reducible apply State.ite_keeps
    | with_reducible apply State.ite_fst_keeps
    | split

theorem State.declareFailed_keeps {q : List Instr} {s : State} (pl : Plane) (cause : Nat) (h0 : s.Keeps q) :
    (State.declareFailed s pl cause).Keeps q := by
  unfold State.declareFailed
  try dsimp only
  repeat' first
    | with_reducible assumption
    | with_reducible apply State.failPlane_keeps
    | with_reducible apply State.noPlaneCheck_keeps
    | with_reducible apply State.swapLost_keeps
    | with_reducible apply State.redLost_keeps
    | simp only [State.Keeps.lit]
    | with_reducible apply State.ite_keeps
    | with_reducible apply State.ite_fst_keeps
    | split

theorem State.beatArrival_keeps {q : List Instr} {s : State} (frm : Plane) (path : BeatPath) (bs : List Byte) (inSlot :
    Bool) (h0 : s.Keeps q) :
    (State.beatArrival s frm path bs inSlot).Keeps q := by
  unfold State.beatArrival
  try dsimp only
  repeat' first
    | with_reducible assumption
    | with_reducible apply State.hearBeat_keeps
    | with_reducible apply State.declareFailed_keeps
    | with_reducible apply State.ite_keeps

theorem execBeatArrival_keeps {q : List Instr} (frm : Plane) (path : BeatPath) (bytes : List Byte) (inSlot : Bool) {s :
    State} (h0 : s.Keeps q) :
    ∃ u, execBeatArrival frm path bytes inSlot s = .next u ∧ u.Keeps q := by
  refine ⟨_, rfl, ?_⟩
  try dsimp only
  repeat' first
    | with_reducible assumption
    | with_reducible apply State.beatArrival_keeps
    | with_reducible apply State.ite_keeps

theorem State.slotMissed_keeps {q : List Instr} {s : State} (i : Nat) (cnt : Fld) (h0 : s.Keeps q) :
    (State.slotMissed s i cnt).Keeps q := by
  unfold State.slotMissed
  try dsimp only
  repeat' first
    | with_reducible assumption
    | with_reducible apply State.takebackFromNow_keeps
    | with_reducible apply State.inc_keeps
    | with_reducible apply State.ite_keeps

theorem State.showDeg_keeps {q : List Instr} {s : State} (h0 : s.Keeps q) :
    (State.showDeg s).Keeps q := by
  unfold State.showDeg
  try dsimp only
  repeat' first
    | with_reducible assumption
    | with_reducible apply State.put_keeps
    | with_reducible apply State.ite_keeps

theorem State.degrade_keeps {q : List Instr} {s : State} (i : Nat) (other : Nat) (h0 : s.Keeps q) :
    (State.degrade s i other).Keeps q := by
  unfold State.degrade
  try dsimp only
  repeat' first
    | with_reducible assumption
    | with_reducible apply State.setFlag_keeps
    | with_reducible apply State.setBeat_keeps
    | with_reducible apply State.showDeg_keeps
    | with_reducible apply State.ite_keeps

theorem State.beatSlot_keeps {q : List Instr} {s : State} (frm : Plane) (h0 : s.Keeps q) :
    (State.beatSlot s frm).Keeps q := by
  unfold State.beatSlot
  try dsimp only
  repeat' first
    | with_reducible assumption
    | with_reducible apply State.setBeat_keeps
    | with_reducible apply State.slotMissed_keeps
    | with_reducible apply State.degrade_keeps
    | with_reducible apply State.declareFailed_keeps
    | simp only [State.Keeps.lit]
    | with_reducible apply State.ite_keeps
    | with_reducible apply State.ite_fst_keeps
    | split

theorem execBeatSlot_keeps {q : List Instr} (frm : Plane) {s : State} (h0 : s.Keeps q) :
    ∃ u, execBeatSlot frm s = .next u ∧ u.Keeps q := by
  refine ⟨_, rfl, ?_⟩
  try dsimp only
  repeat' first
    | with_reducible assumption
    | with_reducible apply State.beatSlot_keeps
    | with_reducible apply State.ite_keeps

theorem execRedIsolate_keeps {q : List Instr} (r : Requester) (pl : Plane) {s : State} (h0 : s.Keeps q) :
    ∃ u, execRedIsolate r pl s = .next u ∧ u.Keeps q := by
  refine ⟨_, rfl, ?_⟩
  try dsimp only
  repeat' first
    | with_reducible assumption
    | intro _
    | with_reducible apply State.redCommand_keeps
    | with_reducible apply State.redIsolate_keeps
    | with_reducible apply State.foldl_keeps
    | simp only [State.Keeps.lit]
    | simp only [State.Keeps.litDm, List.length_set]
    | with_reducible apply State.ite_keeps
    | with_reducible apply State.ite_fst_keeps
    | split

theorem execRedTest_keeps {q : List Instr} (r : Requester) (pl : Plane) {s : State} (h0 : s.Keeps q) :
    ∃ u, execRedTest r pl s = .next u ∧ u.Keeps q := by
  refine ⟨_, rfl, ?_⟩
  try dsimp only
  repeat' first
    | with_reducible assumption
    | intro _
    | with_reducible apply State.redTest_keeps
    | with_reducible apply State.redCommand_keeps
    | with_reducible apply State.foldl_keeps
    | simp only [State.Keeps.lit]
    | simp only [State.Keeps.litDm, List.length_set]
    | with_reducible apply State.ite_keeps
    | with_reducible apply State.ite_fst_keeps
    | split

theorem State.repair1_keeps {q : List Instr} {s : State} (pl : Plane) (mac : Nat) (line : Nat) (h0 : s.Keeps q) :
    (State.repair1 s pl mac line).1.Keeps q := by
  unfold State.repair1
  try dsimp only
  repeat' first
    | with_reducible assumption
    | with_reducible apply State.setReg_keeps
    | with_reducible apply State.rasRecord_keeps
    | with_reducible apply State.put_keeps
    | simp only [State.Keeps.lit]
    | with_reducible apply State.ite_keeps
    | with_reducible apply State.ite_fst_keeps
    | split

theorem State.repair1_keeps_eq {q : List Instr} {s : State} {pl : Plane} {mac : Nat} {line : Nat} (h0 : s.Keeps q) {u :
    State} {w : Bool}
    (e : State.repair1 s pl mac line = (u, w)) : u.Keeps q := by
  have hu : (State.repair1 s pl mac line).1.Keeps q := by apply State.repair1_keeps <;> assumption
  rw [e] at hu
  exact hu

theorem State.redTested_keeps {q : List Instr} {s : State} (logicOk : Bool) (faults : List (Nat × Nat)) (h0 : s.Keeps q) :
    (State.redTested s logicOk faults).Keeps q := by
  unfold State.redTested
  try dsimp only
  repeat' first
    | with_reducible assumption
    | intro _
    | with_reducible apply State.redEnd_keeps
    | with_reducible apply State.repair1_keeps
    | with_reducible refine State.repair1_keeps_eq ?_ ‹_›
    | with_reducible apply State.put_keeps
    | with_reducible apply State.foldl_keeps
    | with_reducible apply State.foldl_fst_keeps
    | simp only [State.Keeps.lit]
    | simp only [State.Keeps.litDm, List.length_set]
    | with_reducible apply State.ite_keeps
    | with_reducible apply State.ite_fst_keeps
    | split

theorem execRedTestDone_keeps {q : List Instr} (logicOk : Bool) (faults : List (Nat × Nat)) {s : State} (h0 : s.Keeps q) :
    ∃ u, execRedTestDone logicOk faults s = .next u ∧ u.Keeps q := by
  refine ⟨_, rfl, ?_⟩
  try dsimp only
  repeat' first
    | with_reducible assumption
    | with_reducible apply State.redTested_keeps
    | with_reducible apply State.ite_keeps

theorem execRedRejoin_keeps {q : List Instr} (r : Requester) (pl : Plane) {s : State} (h0 : s.Keeps q) :
    ∃ u, execRedRejoin r pl s = .next u ∧ u.Keeps q := by
  refine ⟨_, rfl, ?_⟩
  try dsimp only
  repeat' first
    | with_reducible assumption
    | intro _
    | with_reducible apply State.redRejoin_keeps
    | with_reducible apply State.redCommand_keeps
    | with_reducible apply State.foldl_keeps
    | simp only [State.Keeps.lit]
    | simp only [State.Keeps.litDm, List.length_set]
    | with_reducible apply State.ite_keeps
    | with_reducible apply State.ite_fst_keeps
    | split

theorem State.rebuilt_keeps {q : List Instr} {s : State} (pl : Plane) (h0 : s.Keeps q) :
    (State.rebuilt s pl).Keeps q := by
  unfold State.rebuilt
  try dsimp only
  repeat' first
    | with_reducible assumption
    | with_reducible apply State.layPlane_keeps
    | with_reducible apply State.buildAlone_keeps
    | with_reducible apply State.enterResync_keeps
    | with_reducible apply State.ite_keeps

theorem execRejoinRebuildDone_keeps {q : List Instr} {s : State} (h0 : s.Keeps q) :
    ∃ u, execRejoinRebuildDone s = .next u ∧ u.Keeps q := by
  refine ⟨_, rfl, ?_⟩
  try dsimp only
  repeat' first
    | with_reducible assumption
    | with_reducible apply State.redEnd_keeps
    | with_reducible apply State.rebuilt_keeps
    | simp only [State.Keeps.lit]
    | with_reducible apply State.ite_keeps
    | with_reducible apply State.ite_fst_keeps
    | split

theorem State.resynced_keeps {q : List Instr} {s : State} (pl : Plane) (h0 : s.Keeps q) :
    (State.resynced s pl).Keeps q := by
  unfold State.resynced
  try dsimp only
  repeat' first
    | with_reducible assumption
    | with_reducible apply State.buildAlone_keeps
    | with_reducible apply State.cloneTables_keeps
    | with_reducible apply State.setCond_keeps
    | with_reducible apply State.ite_keeps

theorem execRejoinResyncDone_keeps {q : List Instr} {s : State} (h0 : s.Keeps q) :
    ∃ u, execRejoinResyncDone s = .next u ∧ u.Keeps q := by
  refine ⟨_, rfl, ?_⟩
  try dsimp only
  repeat' first
    | with_reducible assumption
    | with_reducible apply State.redEnd_keeps
    | with_reducible apply State.resynced_keeps
    | simp only [State.Keeps.lit]
    | with_reducible apply State.ite_keeps
    | with_reducible apply State.ite_fst_keeps
    | split

theorem execRedPromote_keeps {q : List Instr} (r : Requester) (pl : Plane) {s : State} (h0 : s.Keeps q) :
    ∃ u, execRedPromote r pl s = .next u ∧ u.Keeps q := by
  refine ⟨_, rfl, ?_⟩
  try dsimp only
  repeat' first
    | with_reducible assumption
    | intro _
    | with_reducible apply State.redPromote_keeps
    | with_reducible apply State.redCommand_keeps
    | with_reducible apply State.foldl_keeps
    | simp only [State.Keeps.lit]
    | simp only [State.Keeps.litDm, List.length_set]
    | with_reducible apply State.ite_keeps
    | with_reducible apply State.ite_fst_keeps
    | split

theorem execTakebackExpire_keeps {q : List Instr} (tie : Bool) {s : State} (h0 : s.Keeps q) :
    ∃ u, execTakebackExpire s tie = .next u ∧ u.Keeps q := by
  refine ⟨_, rfl, ?_⟩
  try dsimp only
  repeat' first
    | with_reducible assumption
    | with_reducible apply State.setFlag_keeps
    | with_reducible apply State.makeLead_keeps
    | with_reducible apply State.takebackFromNow_keeps
    | with_reducible apply State.inc_keeps
    | simp only [State.Keeps.lit]
    | with_reducible apply State.ite_keeps
    | with_reducible apply State.ite_fst_keeps
    | split

/-! ## NmCommands -/

theorem State.deviceWake_keeps {q : List Instr} {s : State} (idx : Nat) (h0 : s.Keeps q) :
    (State.deviceWake s idx).Keeps q := by
  unfold State.deviceWake
  try dsimp only
  repeat' first
    | with_reducible assumption
    | simp only [State.Keeps.lit]
    | with_reducible apply State.ite_keeps
    | with_reducible apply State.ite_fst_keeps
    | split

theorem State.writeNmReq_keeps {q : List Instr} {s : State} (c : Nat) (hold : Bool) (h0 : s.Keeps q) :
    (State.writeNmReq s c hold).Keeps q := by
  unfold State.writeNmReq
  try dsimp only
  repeat' first
    | with_reducible assumption
    | with_reducible apply State.nmRequest_keeps
    | with_reducible apply State.put_keeps
    | with_reducible apply State.nmRelease_keeps
    | with_reducible apply State.ite_keeps

theorem State.popWrec_keeps {q : List Instr} {s : State} (h0 : s.Keeps q) : (State.popWrec s).Keeps q :=
  ⟨{ h0.inv with wrec := Nat.le_trans (by simp [State.popWrec]) h0.inv.wrec }, h0.queue⟩

theorem State.writeAoSnap_keeps {q : List Instr} {s : State} (h0 : s.Keeps q) :
    (State.writeAoSnap s).Keeps q := by
  unfold State.writeAoSnap
  try dsimp only
  repeat' first
    | with_reducible assumption
    | with_reducible apply State.put64_keeps
    | with_reducible apply State.ite_keeps

theorem execNmRepeatExpire_keeps {q : List Instr} (c : Nat) {s : State} (h0 : s.Keeps q) :
    ∃ u, execNmRepeatExpire c s = .next u ∧ u.Keeps q := by
  refine ⟨_, rfl, ?_⟩
  try dsimp only
  repeat' first
    | with_reducible assumption
    | with_reducible apply State.ncPut_keeps
    | with_reducible apply State.ite_keeps

theorem execNmTimeout_keeps {q : List Instr} (c : Nat) {s : State} (h0 : s.Keeps q) :
    ∃ u, execNmTimeout c s = .next u ∧ u.Keeps q := by
  refine ⟨_, rfl, ?_⟩
  try dsimp only
  repeat' first
    | with_reducible assumption
    | with_reducible apply State.ncPut_keeps
    | with_reducible apply State.ite_keeps

theorem State.preparePort_keeps {q : List Instr} {s : State} (p : Nat) (h0 : s.Keeps q) :
    (State.preparePort s p).Keeps q := by
  unfold State.preparePort
  try dsimp only
  repeat' first
    | with_reducible assumption
    | with_reducible apply State.setLin_keeps
    | with_reducible apply State.setPort_keeps
    | with_reducible apply State.ite_keeps

theorem State.enterPrepare_keeps {q : List Instr} {s : State} (c : Nat) (h0 : s.Keeps q) :
    (State.enterPrepare s c).Keeps q := by
  unfold State.enterPrepare
  try dsimp only
  repeat' first
    | with_reducible assumption
    | intro _
    | with_reducible apply State.preparePort_keeps
    | with_reducible apply State.ncPut_keeps
    | with_reducible apply State.foldl_keeps
    | simp only [State.Keeps.lit]
    | simp only [State.Keeps.litDm, List.length_set]
    | with_reducible apply State.ite_keeps
    | with_reducible apply State.ite_fst_keeps
    | split

theorem execReadySleepDrained_keeps {q : List Instr} (c : Nat) {s : State} (h0 : s.Keeps q) :
    ∃ u, execReadySleepDrained c s = .next u ∧ u.Keeps q := by
  refine ⟨_, rfl, ?_⟩
  try dsimp only
  repeat' first
    | with_reducible assumption
    | with_reducible apply State.enterPrepare_keeps
    | with_reducible apply State.ite_keeps

theorem execReadyMaxExpire_keeps {q : List Instr} (c : Nat) {s : State} (h0 : s.Keeps q) :
    ∃ u, execReadyMaxExpire c s = .next u ∧ u.Keeps q := by
  refine ⟨_, rfl, ?_⟩
  try dsimp only
  repeat' first
    | with_reducible assumption
    | with_reducible apply State.enterPrepare_keeps
    | with_reducible apply State.ite_keeps

theorem execKnell_keeps {q : List Instr} (c : Nat) {s : State} (h0 : s.Keeps q) :
    ∃ u, execKnell c s = .next u ∧ u.Keeps q := by
  refine ⟨_, rfl, ?_⟩
  try dsimp only
  repeat' first
    | with_reducible assumption
    | with_reducible apply State.knellNow_keeps
    | with_reducible apply State.ite_keeps

theorem execKnellEnd_keeps {q : List Instr} (c : Nat) {s : State} (h0 : s.Keeps q) :
    ∃ u, execKnellEnd c s = .next u ∧ u.Keeps q := by
  refine ⟨_, rfl, ?_⟩
  try dsimp only
  repeat' first
    | with_reducible assumption
    | with_reducible apply State.knellDone_keeps
    | with_reducible apply State.ite_keeps

theorem State.wakePin_keeps {q : List Instr} {s : State} (k : Nat) (h0 : s.Keeps q) :
    (State.wakePin s k).Keeps q := by
  unfold State.wakePin
  try dsimp only
  repeat' first
    | with_reducible assumption
    | with_reducible apply State.nmWake_keeps
    | with_reducible apply State.deviceWake_keeps
    | with_reducible apply State.put_keeps
    | simp only [State.Keeps.lit]
    | with_reducible apply State.ite_keeps
    | with_reducible apply State.ite_fst_keeps
    | split

theorem execWakePinEdge_keeps {q : List Instr} (k : Nat) {s : State} (h0 : s.Keeps q) :
    ∃ u, execWakePinEdge k s = .next u ∧ u.Keeps q := by
  refine ⟨_, rfl, ?_⟩
  try dsimp only
  repeat' first
    | with_reducible assumption
    | with_reducible apply State.wakePin_keeps
    | with_reducible apply State.ite_keeps

theorem execCanWakePattern_keeps {q : List Instr} (n : Nat) {s : State} (h0 : s.Keeps q) :
    ∃ u, execCanWakePattern n s = .next u ∧ u.Keeps q := by
  refine ⟨_, rfl, ?_⟩
  try dsimp only
  repeat' first
    | with_reducible assumption
    | with_reducible apply State.nmWake_keeps
    | simp only [State.Keeps.lit]
    | with_reducible apply State.ite_keeps
    | with_reducible apply State.ite_fst_keeps
    | split

theorem State.swDecode_keeps {q : List Instr} {s : State} (c : Nat) (n : Nat) (frame : SwFrame) (h0 : s.Keeps q) :
    (State.swDecode s c n frame).Keeps q := by
  unfold State.swDecode
  try dsimp only
  repeat' first
    | with_reducible assumption
    | with_reducible apply State.incSat_keeps
    | with_reducible apply State.nmWake_keeps
    | with_reducible apply State.put_keeps
    | with_reducible apply State.inc_keeps
    | simp only [State.Keeps.lit]
    | with_reducible apply State.ite_keeps
    | with_reducible apply State.ite_fst_keeps
    | split

theorem execSwFrameDecode_keeps {q : List Instr} (n : Nat) (frame : SwFrame) {s : State} (h0 : s.Keeps q) :
    ∃ u, execSwFrameDecode n frame s = .next u ∧ u.Keeps q := by
  refine ⟨_, rfl, ?_⟩
  try dsimp only
  repeat' first
    | with_reducible assumption
    | with_reducible apply State.swDecode_keeps
    | simp only [State.Keeps.lit]
    | with_reducible apply State.ite_keeps
    | with_reducible apply State.ite_fst_keeps
    | split

theorem execSwBusIdle_keeps {q : List Instr} (n : Nat) {s : State} (h0 : s.Keeps q) :
    ∃ u, execSwBusIdle n s = .next u ∧ u.Keeps q := by
  refine ⟨_, rfl, ?_⟩
  try dsimp only
  repeat' first
    | with_reducible assumption
    | with_reducible apply State.put_keeps
    | with_reducible apply State.ite_keeps

theorem execLinBusWake_keeps {q : List Instr} (n : Nat) {s : State} (h0 : s.Keeps q) :
    ∃ u, execLinBusWake n s = .next u ∧ u.Keeps q := by
  refine ⟨_, rfl, ?_⟩
  try dsimp only
  repeat' first
    | with_reducible assumption
    | with_reducible apply State.nmWake_keeps
    | simp only [State.Keeps.lit]
    | with_reducible apply State.ite_keeps
    | with_reducible apply State.ite_fst_keeps
    | split

theorem execTc10Wake_keeps {q : List Instr} (port : Nat) {s : State} (h0 : s.Keeps q) :
    ∃ u, execTc10Wake port s = .next u ∧ u.Keeps q := by
  refine ⟨_, rfl, ?_⟩
  try dsimp only
  repeat' first
    | with_reducible assumption
    | with_reducible apply State.nmWake_keeps
    | simp only [State.Keeps.lit]
    | with_reducible apply State.ite_keeps
    | with_reducible apply State.ite_fst_keeps
    | split

theorem execNmFwRequest_keeps {q : List Instr} (r : Requester) (c : Nat) (hold : Bool) {s : State} (h0 : s.Keeps q) :
    ∃ u, execNmFwRequest r c hold s = .next u ∧ u.Keeps q := by
  refine ⟨_, rfl, ?_⟩
  try dsimp only
  repeat' first
    | with_reducible assumption
    | intro _
    | with_reducible apply State.gated_keeps
    | with_reducible apply State.writeNmReq_keeps
    | with_reducible apply State.foldl_keeps
    | simp only [State.Keeps.lit]
    | simp only [State.Keeps.litDm, List.length_set]
    | with_reducible apply State.ite_keeps
    | with_reducible apply State.ite_fst_keeps
    | split

theorem State.chimeMsg_keeps {q : List Instr} {s : State} (c : Nat) (h0 : s.Keeps q) :
    (State.chimeMsg s c).1.Keeps q := by
  unfold State.chimeMsg
  try dsimp only
  repeat' first
    | with_reducible assumption
    | with_reducible apply State.fresh_keeps
    | with_reducible apply State.ite_keeps

theorem State.chimeMsg_keeps_eq {q : List Instr} {s : State} {c : Nat} (h0 : s.Keeps q) {u : State} {w : CanMsg}
    (e : State.chimeMsg s c = (u, w)) : u.Keeps q := by
  have hu : (State.chimeMsg s c).1.Keeps q := by apply State.chimeMsg_keeps <;> assumption
  rw [e] at hu
  exact hu

theorem State.chimePut_keeps {q : List Instr} {s : State} (c : Nat) (m : CanMsg) (p : Nat) (h0 : s.Keeps q) :
    (State.chimePut s c m p).Keeps q := by
  unfold State.chimePut
  try dsimp only
  repeat' first
    | with_reducible assumption
    | with_reducible apply State.setCan_keeps
    | with_reducible apply State.ite_keeps

theorem execChimeTimer_keeps {q : List Instr} (c : Nat) {s : State} (h0 : s.Keeps q) :
    ∃ u, execChimeTimer c s = .next u ∧ u.Keeps q := by
  refine ⟨_, rfl, ?_⟩
  try dsimp only
  repeat' first
    | with_reducible assumption
    | intro _
    | with_reducible apply State.chimeMsg_keeps
    | with_reducible refine State.chimeMsg_keeps_eq ?_ ‹_›
    | with_reducible apply State.chimePut_keeps
    | with_reducible apply State.foldl_keeps
    | simp only [State.Keeps.lit]
    | simp only [State.Keeps.litDm, List.length_set]
    | with_reducible apply State.ite_keeps
    | with_reducible apply State.ite_fst_keeps
    | split

theorem execSettleExpire_keeps {q : List Instr} (c : Nat) {s : State} (h0 : s.Keeps q) :
    ∃ u, execSettleExpire c s = .next u ∧ u.Keeps q := by
  refine ⟨_, rfl, ?_⟩
  try dsimp only
  repeat' first
    | with_reducible assumption
    | with_reducible apply State.settled_keeps
    | with_reducible apply State.ite_keeps

theorem execLinScheduleRestart_keeps {q : List Instr} (n : Nat) {s : State} (h0 : s.Keeps q) :
    ∃ u, execLinScheduleRestart n s = .next u ∧ u.Keeps q := by
  refine ⟨_, rfl, ?_⟩
  try dsimp only
  repeat' first
    | with_reducible assumption
    | with_reducible apply State.setLin_keeps
    | with_reducible apply State.put_keeps
    | with_reducible apply State.ite_keeps

theorem execNmwAoSnap_keeps {q : List Instr} (r : Requester) {s : State} (h0 : s.Keeps q) :
    ∃ u, execNmwAoSnap r s = .next u ∧ u.Keeps q := by
  refine ⟨_, rfl, ?_⟩
  try dsimp only
  repeat' first
    | with_reducible assumption
    | with_reducible apply State.gated_keeps
    | with_reducible apply State.writeAoSnap_keeps
    | with_reducible apply State.ite_keeps

theorem execWrecPop_keeps {q : List Instr} (r : Requester) {s : State} (h0 : s.Keeps q) :
    ∃ u, execWrecPop r s = .next u ∧ u.Keeps q := by
  refine ⟨_, rfl, ?_⟩
  try dsimp only
  repeat' first
    | with_reducible assumption
    | with_reducible apply State.gated_keeps
    | with_reducible apply State.popWrec_keeps
    | with_reducible apply State.ite_keeps

end Sys2Proof.Machine
end

