-- ==== Sys2Proof/Laws/Keeps8.lean ====
section
/-! SUPPORT. What each operation of Flows, Clapper, Triangle, Tenants keeps: the good form, and the queue. -/

namespace Sys2Proof.Machine

/-! ## Flows -/

theorem State.flushFlows_keeps {q : List Instr} {s : State} (h0 : s.Keeps q) :
    (State.flushFlows s).Keeps q := by
  unfold State.flushFlows
  try dsimp only
  repeat' first
    | with_reducible assumption
    | with_reducible apply State.tblApply_keeps
    | simp only [State.Keeps.lit]
    | with_reducible apply State.ite_keeps
    | with_reducible apply State.ite_fst_keeps
    | split

theorem State.nextFlow_keeps {q : List Instr} {s : State} (h0 : s.Keeps q) :
    ∀ u, State.nextFlow s = some u → u.2.Keeps q := by
  unfold State.nextFlow
  intro u hu
  repeat' split at hu
  all_goals first | cases hu | skip
  all_goals repeat' first
    | with_reducible assumption
    | with_reducible apply State.setPlane_keeps
    | with_reducible apply State.ite_keeps

theorem State.nextFlow_keeps_eq {q : List Instr} {s : State} (h0 : s.Keeps q) {u : State} {w : FlowReq}
    (e : State.nextFlow s = some (w, u)) : u.Keeps q := by
  have hu : ∀ x, State.nextFlow s = some x → x.2.Keeps q := by apply State.nextFlow_keeps <;> assumption
  exact hu _ e

theorem State.applyFlow_keeps {q : List Instr} {s : State} (b_q : FlowReq) (h0 : s.Keeps q) :
    (State.applyFlow s b_q).Keeps q := by
  unfold State.applyFlow
  try dsimp only
  repeat' first
    | with_reducible assumption
    | with_reducible apply State.setFlag_keeps
    | with_reducible apply State.tblApply_keeps
    | with_reducible apply State.place_keeps
    | with_reducible refine State.place_keeps_eq ?_ ‹_›
    | with_reducible apply State.inc_keeps
    | simp only [State.Keeps.lit]
    | with_reducible apply State.ite_keeps
    | with_reducible apply State.ite_fst_keeps
    | split

theorem execFlowRequestApply_keeps {q : List Instr} {s : State} (h0 : s.Keeps q) :
    ∃ u, execFlowRequestApply s = .next u ∧ u.Keeps q := by
  refine ⟨_, rfl, ?_⟩
  try dsimp only
  repeat' first
    | with_reducible assumption
    | with_reducible refine State.nextFlow_keeps_eq ?_ ‹_›
    | with_reducible apply State.applyFlow_keeps
    | simp only [State.Keeps.lit]
    | with_reducible apply State.ite_keeps
    | with_reducible apply State.ite_fst_keeps
    | split

theorem execFlushFlows_keeps {q : List Instr} (r : Requester) {s : State} (h0 : s.Keeps q) :
    ∃ u, execFlushFlows r s = .next u ∧ u.Keeps q := by
  refine ⟨_, rfl, ?_⟩
  try dsimp only
  repeat' first
    | with_reducible assumption
    | with_reducible apply State.gated_keeps
    | with_reducible apply State.flushFlows_keeps
    | with_reducible apply State.ite_keeps

theorem State.sweepFlow_keeps {q : List Instr} {s : State} (ri : Nat) (x : Nat × Nat × Slot) (h0 : s.Keeps q) :
    (State.sweepFlow s ri x).Keeps q := by
  unfold State.sweepFlow
  try dsimp only
  repeat' first
    | with_reducible assumption
    | with_reducible apply State.tblApply_keeps
    | with_reducible apply State.inc_keeps
    | with_reducible apply State.ageUp_keeps
    | with_reducible apply State.ite_keeps

theorem execFlowSweep_keeps {q : List Instr} (prof : Nat) {s : State} (h0 : s.Keeps q) :
    ∃ u, execFlowSweep prof s = .next u ∧ u.Keeps q := by
  refine ⟨_, rfl, ?_⟩
  try dsimp only
  repeat' first
    | with_reducible assumption
    | intro _
    | with_reducible apply State.sweepFlow_keeps
    | with_reducible apply State.foldl_keeps
    | simp only [State.Keeps.lit]
    | simp only [State.Keeps.litDm, List.length_set]
    | with_reducible apply State.ite_keeps
    | with_reducible apply State.ite_fst_keeps
    | split

/-! ## Clapper -/

theorem State.srcPut_keeps {q : List Instr} {s : State} (n : Nat) (st : Nat) (h0 : s.Keeps q) :
    (State.srcPut s n st).Keeps q := by
  unfold State.srcPut
  try dsimp only
  repeat' first
    | with_reducible assumption
    | with_reducible apply State.put_keeps
    | simp only [State.Keeps.lit]
    | with_reducible apply State.ite_keeps
    | with_reducible apply State.ite_fst_keeps
    | split

theorem State.targetDown_keeps {q : List Instr} {s : State} (t : Nat) (h0 : s.Keeps q) :
    (State.targetDown s t).Keeps q := by
  unfold State.targetDown
  try dsimp only
  repeat' first
    | with_reducible assumption
    | intro _
    | with_reducible apply State.srcPut_keeps
    | with_reducible apply State.put_keeps
    | with_reducible apply State.addCnt_keeps
    | with_reducible apply State.foldl_keeps
    | simp only [State.Keeps.lit]
    | simp only [State.Keeps.litDm, List.length_set]
    | with_reducible apply State.ite_keeps
    | with_reducible apply State.ite_fst_keeps
    | split

theorem State.srcWake_keeps {q : List Instr} {s : State} (n : Nat) (h0 : s.Keeps q) :
    (State.srcWake s n).Keeps q := by
  unfold State.srcWake
  try dsimp only
  repeat' first
    | with_reducible assumption
    | with_reducible apply State.put_keeps
    | with_reducible apply State.inc_keeps
    | simp only [State.Keeps.lit]
    | with_reducible apply State.ite_keeps
    | with_reducible apply State.ite_fst_keeps
    | split

theorem State.writeSrcCfg_keeps {q : List Instr} {s : State} (n : Nat) (v : Nat) (h0 : s.Keeps q) :
    (State.writeSrcCfg s n v).Keeps q := by
  unfold State.writeSrcCfg
  try dsimp only
  repeat' first
    | with_reducible assumption
    | with_reducible apply State.srcPut_keeps
    | with_reducible apply State.put_keeps
    | with_reducible apply State.srcWake_keeps
    | with_reducible apply State.ite_keeps

theorem State.writeTgtCfg_keeps {q : List Instr} {s : State} (t : Nat) (v : Nat) (h0 : s.Keeps q) :
    (State.writeTgtCfg s t v).Keeps q := by
  unfold State.writeTgtCfg
  try dsimp only
  repeat' first
    | with_reducible assumption
    | with_reducible apply State.put_keeps
    | with_reducible apply State.ite_keeps

theorem State.srcComplete_keeps {q : List Instr} {s : State} (t : Nat) (n : Nat) (h0 : s.Keeps q) :
    (State.srcComplete s t n).Keeps q := by
  unfold State.srcComplete
  try dsimp only
  repeat' first
    | with_reducible assumption
    | with_reducible apply State.srcPut_keeps
    | with_reducible apply State.put_keeps
    | with_reducible apply State.inc_keeps
    | with_reducible apply State.ite_keeps

theorem State.writeHold_keeps {q : List Instr} {s : State} (hold : Bool) (h0 : s.Keeps q) :
    (State.writeHold s hold).Keeps q := by
  unfold State.writeHold
  try dsimp only
  repeat' first
    | with_reducible assumption
    | with_reducible apply State.put_keeps
    | with_reducible apply State.ite_keeps

theorem State.clpOff_keeps {q : List Instr} {s : State} (h0 : s.Keeps q) :
    (State.clpOff s).Keeps q := by
  unfold State.clpOff
  try dsimp only
  repeat' first
    | with_reducible assumption
    | intro _
    | with_reducible apply State.srcPut_keeps
    | with_reducible apply State.put_keeps
    | with_reducible apply State.foldl_keeps
    | simp only [State.Keeps.lit]
    | simp only [State.Keeps.litDm, List.length_set]
    | with_reducible apply State.ite_keeps
    | with_reducible apply State.ite_fst_keeps
    | split

theorem State.srcSample_keeps {q : List Instr} {s : State} (n : Nat) (h0 : s.Keeps q) :
    (State.srcSample s n).Keeps q := by
  unfold State.srcSample
  try dsimp only
  repeat' first
    | with_reducible assumption
    | with_reducible apply State.srcPut_keeps
    | with_reducible apply State.put_keeps
    | simp only [State.Keeps.lit]
    | with_reducible apply State.ite_keeps
    | with_reducible apply State.ite_fst_keeps
    | split

theorem execSourceSignalChange_keeps {q : List Instr} (src : Nat) {s : State} (h0 : s.Keeps q) :
    ∃ u, execSourceSignalChange src s = .next u ∧ u.Keeps q := by
  refine ⟨_, rfl, ?_⟩
  try dsimp only
  repeat' first
    | with_reducible assumption
    | with_reducible apply State.srcSample_keeps
    | with_reducible apply State.ite_keeps

theorem State.clpDeliver_keeps {q : List Instr} {s : State} (n : Nat) (t : Nat) (h0 : s.Keeps q) :
    (State.clpDeliver s n t).Keeps q := by
  unfold State.clpDeliver
  try dsimp only
  repeat' first
    | with_reducible assumption
    | with_reducible apply State.srcPut_keeps
    | with_reducible apply State.put_keeps
    | simp only [State.Keeps.lit]
    | with_reducible apply State.ite_keeps
    | with_reducible apply State.ite_fst_keeps
    | split

theorem State.routeOne_keeps {q : List Instr} (opened : List Nat) {s : State} (n : Nat) (h0 : s.Keeps q) :
    (State.routeOne opened s n).Keeps q := by
  unfold State.routeOne
  try dsimp only
  repeat' first
    | with_reducible assumption
    | with_reducible apply State.clpDeliver_keeps
    | simp only [State.Keeps.lit]
    | with_reducible apply State.ite_keeps
    | with_reducible apply State.ite_fst_keeps
    | split

theorem State.route_keeps {q : List Instr} {s : State} (h0 : s.Keeps q) :
    (State.route s).Keeps q := by
  unfold State.route
  try dsimp only
  repeat' first
    | with_reducible assumption
    | intro _
    | with_reducible apply State.routeOne_keeps
    | with_reducible apply State.srcWake_keeps
    | with_reducible apply State.foldl_keeps
    | simp only [State.Keeps.lit]
    | simp only [State.Keeps.litDm, List.length_set]
    | with_reducible apply State.ite_keeps
    | with_reducible apply State.ite_fst_keeps
    | split

theorem execRoutePending_keeps {q : List Instr} {s : State} (h0 : s.Keeps q) :
    ∃ u, execRoutePending s = .next u ∧ u.Keeps q := by
  refine ⟨_, rfl, ?_⟩
  try dsimp only
  repeat' first
    | with_reducible assumption
    | with_reducible apply State.route_keeps
    | with_reducible apply State.ite_keeps

theorem execClpComplete_keeps {q : List Instr} (r : Requester) (target : Nat) (src : Nat) {s : State} (h0 : s.Keeps q) :
    ∃ u, execClpComplete r target src s = .next u ∧ u.Keeps q := by
  refine ⟨_, rfl, ?_⟩
  try dsimp only
  repeat' first
    | with_reducible assumption
    | intro _
    | with_reducible apply State.gated_keeps
    | with_reducible apply State.srcComplete_keeps
    | with_reducible apply State.foldl_keeps
    | simp only [State.Keeps.lit]
    | simp only [State.Keeps.litDm, List.length_set]
    | with_reducible apply State.ite_keeps
    | with_reducible apply State.ite_fst_keeps
    | split

theorem execTargetPowerDown_keeps {q : List Instr} (target : Nat) {s : State} (h0 : s.Keeps q) :
    ∃ u, execTargetPowerDown target s = .next u ∧ u.Keeps q := by
  refine ⟨_, rfl, ?_⟩
  try dsimp only
  repeat' first
    | with_reducible assumption
    | with_reducible apply State.targetDown_keeps
    | with_reducible apply State.ite_keeps

theorem execClpHoldWrite_keeps {q : List Instr} (r : Requester) (hold : Bool) {s : State} (h0 : s.Keeps q) :
    ∃ u, execClpHoldWrite r hold s = .next u ∧ u.Keeps q := by
  refine ⟨_, rfl, ?_⟩
  try dsimp only
  repeat' first
    | with_reducible assumption
    | intro _
    | with_reducible apply State.gated_keeps
    | with_reducible apply State.writeHold_keeps
    | with_reducible apply State.foldl_keeps
    | simp only [State.Keeps.lit]
    | simp only [State.Keeps.litDm, List.length_set]
    | with_reducible apply State.ite_keeps
    | with_reducible apply State.ite_fst_keeps
    | split

theorem execModerationExpire_keeps {q : List Instr} (target : Nat) {s : State} (h0 : s.Keeps q) :
    ∃ u, execModerationExpire target s = .next u ∧ u.Keeps q := by
  refine ⟨_, rfl, ?_⟩
  try dsimp only
  repeat' first
    | with_reducible assumption
    | simp only [State.Keeps.lit]
    | with_reducible apply State.ite_keeps
    | with_reducible apply State.ite_fst_keeps
    | split

theorem execTargetWfi_keeps {q : List Instr} (target : Nat) {s : State} (h0 : s.Keeps q) :
    ∃ u, execTargetWfi target s = .next u ∧ u.Keeps q := by
  refine ⟨_, rfl, ?_⟩
  try dsimp only
  repeat' first
    | with_reducible assumption
    | with_reducible apply State.put_keeps
    | with_reducible apply State.ite_keeps

theorem execSourceCfgWrite_keeps {q : List Instr} (r : Requester) (src : Nat) (v : Nat) {s : State} (h0 : s.Keeps q) :
    ∃ u, execSourceCfgWrite r src v s = .next u ∧ u.Keeps q := by
  refine ⟨_, rfl, ?_⟩
  try dsimp only
  repeat' first
    | with_reducible assumption
    | intro _
    | with_reducible apply State.gated_keeps
    | with_reducible apply State.writeSrcCfg_keeps
    | with_reducible apply State.foldl_keeps
    | simp only [State.Keeps.lit]
    | simp only [State.Keeps.litDm, List.length_set]
    | with_reducible apply State.ite_keeps
    | with_reducible apply State.ite_fst_keeps
    | split

/-! ## Triangle -/

theorem State.setTri_keeps {q : List Instr} {s : State} (t : Tri) (h0 : s.Keeps q) :
    (State.setTri s t).Keeps q := by
  unfold State.setTri
  try dsimp only
  repeat' first
    | with_reducible assumption
    | simp only [State.Keeps.lit]
    | with_reducible apply State.ite_keeps
    | with_reducible apply State.ite_fst_keeps
    | split

theorem State.noteUnattributed_keeps {q : List Instr} {s : State} (t : Nat) (h0 : s.Keeps q) :
    (State.noteUnattributed s t).Keeps q := by
  unfold State.noteUnattributed
  try dsimp only
  repeat' first
    | with_reducible assumption
    | with_reducible apply State.setFlag_keeps
    | with_reducible apply State.put_keeps
    | with_reducible apply State.inc_keeps
    | with_reducible apply State.errCause_keeps
    | simp only [State.Keeps.lit]
    | with_reducible apply State.ite_keeps
    | with_reducible apply State.ite_fst_keeps
    | split

theorem State.mmClass_keeps {q : List Instr} {s : State} (cls : Nat) (h0 : s.Keeps q) :
    (State.mmClass s cls).Keeps q := by
  unfold State.mmClass
  try dsimp only
  repeat' first
    | with_reducible assumption
    | with_reducible apply State.setFlag_keeps
    | with_reducible apply State.rasRecord_keeps
    | with_reducible apply State.put_keeps
    | with_reducible apply State.inc_keeps
    | with_reducible apply State.noteUnattributed_keeps
    | with_reducible apply State.ite_keeps

theorem execCoreResyncDone_keeps {q : List Instr} {s : State} (h0 : s.Keeps q) :
    ∃ u, execCoreResyncDone s = .next u ∧ u.Keeps q := by
  refine ⟨_, rfl, ?_⟩
  try dsimp only
  repeat' first
    | with_reducible assumption
    | intro _
    | with_reducible apply State.setTri_keeps
    | with_reducible apply State.put_keeps
    | with_reducible apply State.inc_keeps
    | with_reducible apply State.mmClass_keeps
    | with_reducible apply State.foldl_keeps
    | simp only [State.Keeps.lit]
    | simp only [State.Keeps.litDm, List.length_set]
    | with_reducible apply State.ite_keeps
    | with_reducible apply State.ite_fst_keeps
    | split

theorem State.mmFound_keeps {q : List Instr} {s0 : State} (kind : Nat) (cores : Nat) (h0 : s0.Keeps q) :
    (State.mmFound s0 kind cores).Keeps q := by
  unfold State.mmFound
  try dsimp only
  repeat' first
    | with_reducible assumption
    | with_reducible apply State.put_keeps
    | with_reducible apply State.put64_keeps
    | simp only [State.Keeps.lit]
    | with_reducible apply State.ite_keeps
    | with_reducible apply State.ite_fst_keeps
    | split

theorem State.putMode_keeps {q : List Instr} {s : State} (m : Nat) (h0 : s.Keeps q) :
    (State.putMode s m).Keeps q := by
  unfold State.putMode
  try dsimp only
  repeat' first
    | with_reducible assumption
    | with_reducible apply State.setFlag_keeps
    | with_reducible apply State.put_keeps
    | with_reducible apply State.ite_keeps

theorem State.testing_keeps {q : List Instr} {s : State} (c : Nat) (on : Bool) (h0 : s.Keeps q) :
    (State.testing s c on).Keeps q := by
  unfold State.testing
  try dsimp only
  repeat' first
    | with_reducible assumption
    | with_reducible apply State.put_keeps
    | with_reducible apply State.ite_keeps

theorem State.fence_keeps {q : List Instr} {s : State} (c : Nat) (h0 : s.Keeps q) :
    (State.fence s c).Keeps q := by
  unfold State.fence
  try dsimp only
  repeat' first
    | with_reducible assumption
    | with_reducible apply State.put_keeps
    | with_reducible apply State.ite_keeps

theorem State.startResync_keeps {q : List Instr} {s : State} (c : Nat) (cls : Nat) (h0 : s.Keeps q) :
    (State.startResync s c cls).Keeps q := by
  unfold State.startResync
  try dsimp only
  repeat' first
    | with_reducible assumption
    | with_reducible apply State.setTri_keeps
    | with_reducible apply State.fence_keeps
    | with_reducible apply State.ite_keeps

theorem State.minorityEnd_keeps {q : List Instr} {s : State} (kind : Nat) (c : Nat) (skew : Bool) (pass : Bool) (h0 :
    s.Keeps q) :
    (State.minorityEnd s kind c skew pass).Keeps q := by
  unfold State.minorityEnd
  try dsimp only
  repeat' first
    | with_reducible assumption
    | with_reducible apply State.startResync_keeps
    | with_reducible apply State.setTri_keeps
    | with_reducible apply State.putMode_keeps
    | with_reducible apply State.mmClass_keeps
    | with_reducible apply State.ite_keeps

theorem State.putRun_keeps {q : List Instr} {s : State} (run : Nat) (h0 : s.Keeps q) :
    (State.putRun s run).Keeps q := by
  unfold State.putRun
  try dsimp only
  repeat' first
    | with_reducible assumption
    | intro _
    | with_reducible apply State.targetDown_keeps
    | with_reducible apply State.put_keeps
    | with_reducible apply State.foldl_keeps
    | simp only [State.Keeps.lit]
    | simp only [State.Keeps.litDm, List.length_set]
    | with_reducible apply State.ite_keeps
    | with_reducible apply State.ite_fst_keeps
    | split

theorem State.enterSafe_keeps {q : List Instr} {s : State} (h0 : s.Keeps q) :
    (State.enterSafe s).Keeps q := by
  unfold State.enterSafe
  try dsimp only
  repeat' first
    | with_reducible assumption
    | with_reducible apply State.putMode_keeps
    | with_reducible apply State.put_keeps
    | with_reducible apply State.putDev_keeps
    | with_reducible apply State.enter_keeps
    | with_reducible apply State.putRun_keeps
    | with_reducible apply State.errCause_keeps
    | simp only [State.Keeps.lit]
    | with_reducible apply State.ite_keeps
    | with_reducible apply State.ite_fst_keeps
    | split

theorem State.duplexEnd_keeps {q : List Instr} {s : State} (results : List (Nat × Bool)) (h0 : s.Keeps q) :
    (State.duplexEnd s results).Keeps q := by
  unfold State.duplexEnd
  try dsimp only
  repeat' first
    | with_reducible assumption
    | with_reducible apply State.setTri_keeps
    | with_reducible apply State.enterSafe_keeps
    | with_reducible apply State.putMode_keeps
    | with_reducible apply State.put_keeps
    | with_reducible apply State.fence_keeps
    | with_reducible apply State.mmClass_keeps
    | with_reducible apply State.errCause_keeps
    | simp only [State.Keeps.lit]
    | with_reducible apply State.ite_keeps
    | with_reducible apply State.ite_fst_keeps
    | split

theorem State.selfTested_keeps {q : List Instr} {s : State} (c : Nat) (pass : Bool) (h0 : s.Keeps q) :
    (State.selfTested s c pass).Keeps q := by
  unfold State.selfTested
  try dsimp only
  repeat' first
    | with_reducible assumption
    | with_reducible apply State.setFlag_keeps
    | with_reducible apply State.setTri_keeps
    | with_reducible apply State.testing_keeps
    | with_reducible apply State.duplexEnd_keeps
    | with_reducible apply State.minorityEnd_keeps
    | simp only [State.Keeps.lit]
    | with_reducible apply State.ite_keeps
    | with_reducible apply State.ite_fst_keeps
    | split

theorem State.writeLastMm_keeps {q : List Instr} {s : State} (v : Nat) (h0 : s.Keeps q) :
    (State.writeLastMm s v).Keeps q := by
  unfold State.writeLastMm
  try dsimp only
  repeat' first
    | with_reducible assumption
    | with_reducible apply State.setReg_keeps
    | with_reducible apply State.put64_keeps
    | with_reducible apply State.ite_keeps

theorem State.writeApCtl_keeps {q : List Instr} {s : State} (run : Nat) (h0 : s.Keeps q) :
    (State.writeApCtl s run).Keeps q := by
  unfold State.writeApCtl
  try dsimp only
  repeat' first
    | with_reducible assumption
    | with_reducible apply State.putRun_keeps
    | with_reducible apply State.ite_keeps

theorem State.drawNonce_keeps {q : List Instr} {s : State} (h0 : s.Keeps q) :
    (State.drawNonce s).Keeps q := by
  unfold State.drawNonce
  try dsimp only
  repeat' first
    | with_reducible assumption
    | with_reducible apply State.random_keeps
    | with_reducible apply State.windowPut_keeps
    | with_reducible apply State.ite_keeps

theorem State.debugAuth_keeps {q : List Instr} {s : State} (h0 : s.Keeps q) :
    (State.debugAuth s).Keeps q := by
  unfold State.debugAuth
  try dsimp only
  repeat' first
    | with_reducible assumption
    | intro _
    | with_reducible apply State.setReg_keeps
    | with_reducible apply State.put_keeps
    | with_reducible apply State.drawNonce_keeps
    | with_reducible apply State.foldl_keeps
    | simp only [State.Keeps.lit]
    | simp only [State.Keeps.litDm, List.length_set]
    | with_reducible apply State.ite_keeps
    | with_reducible apply State.ite_fst_keeps
    | split

theorem State.mmDuplex_keeps {q : List Instr} {s : State} (kind : Nat) (h0 : s.Keeps q) :
    (State.mmDuplex s kind).Keeps q := by
  unfold State.mmDuplex
  try dsimp only
  repeat' first
    | with_reducible assumption
    | intro _
    | with_reducible apply State.setTri_keeps
    | with_reducible apply State.mmFound_keeps
    | with_reducible apply State.testing_keeps
    | with_reducible apply State.putMode_keeps
    | with_reducible apply State.foldl_keeps
    | simp only [State.Keeps.lit]
    | simp only [State.Keeps.litDm, List.length_set]
    | with_reducible apply State.ite_keeps
    | with_reducible apply State.ite_fst_keeps
    | split

theorem State.mmMinority_keeps {q : List Instr} {s : State} (kind : Nat) (c : Nat) (skew : Bool) (h0 : s.Keeps q) :
    (State.mmMinority s kind c skew).Keeps q := by
  unfold State.mmMinority
  try dsimp only
  repeat' first
    | with_reducible assumption
    | with_reducible apply State.startResync_keeps
    | with_reducible apply State.setTri_keeps
    | with_reducible apply State.mmFound_keeps
    | with_reducible apply State.testing_keeps
    | with_reducible apply State.fence_keeps
    | with_reducible apply State.ite_keeps

theorem State.mismatch_keeps {q : List Instr} {s : State} (kind : Nat) (diff : Nat) (skew : Bool) (h0 : s.Keeps q) :
    (State.mismatch s kind diff skew).Keeps q := by
  unfold State.mismatch
  try dsimp only
  repeat' first
    | with_reducible assumption
    | with_reducible apply State.mmDuplex_keeps
    | with_reducible apply State.mmMinority_keeps
    | with_reducible apply State.mmFound_keeps
    | with_reducible apply State.enterSafe_keeps
    | with_reducible apply State.mmClass_keeps
    | simp only [State.Keeps.lit]
    | with_reducible apply State.ite_keeps
    | with_reducible apply State.ite_fst_keeps
    | split

theorem execOutputMismatch_keeps {q : List Instr} (diff : Nat) (skew : Bool) {s : State} (h0 : s.Keeps q) :
    ∃ u, execOutputMismatch diff skew s = .next u ∧ u.Keeps q := by
  refine ⟨_, rfl, ?_⟩
  try dsimp only
  repeat' first
    | with_reducible assumption
    | with_reducible apply State.mismatch_keeps
    | with_reducible apply State.ite_keeps

theorem execSignatureCompare_keeps {q : List Instr} (diff : Nat) {s : State} (h0 : s.Keeps q) :
    ∃ u, execSignatureCompare diff s = .next u ∧ u.Keeps q := by
  refine ⟨_, rfl, ?_⟩
  try dsimp only
  repeat' first
    | with_reducible assumption
    | with_reducible apply State.mismatch_keeps
    | with_reducible apply State.ite_keeps

theorem execCoreSelftestDone_keeps {q : List Instr} (core : Nat) (pass : Bool) {s : State} (h0 : s.Keeps q) :
    ∃ u, execCoreSelftestDone core pass s = .next u ∧ u.Keeps q := by
  refine ⟨_, rfl, ?_⟩
  try dsimp only
  repeat' first
    | with_reducible assumption
    | with_reducible apply State.selfTested_keeps
    | with_reducible apply State.ite_keeps

theorem execDbgAuthGo_keeps {q : List Instr} (r : Requester) {s : State} (h0 : s.Keeps q) :
    ∃ u, execDbgAuthGo r s = .next u ∧ u.Keeps q := by
  refine ⟨_, rfl, ?_⟩
  try dsimp only
  repeat' first
    | with_reducible assumption
    | with_reducible apply State.gated_keeps
    | with_reducible apply State.debugAuth_keeps
    | with_reducible apply State.ite_keeps

theorem State.replay_keeps {q : List Instr} {s : State} (act : DebugAct) (h0 : s.Keeps q) :
    (State.replay s act).Keeps q := by
  unfold State.replay
  try dsimp only
  repeat' first
    | with_reducible assumption
    | with_reducible apply State.setTri_keeps
    | with_reducible apply State.put_keeps
    | with_reducible apply State.inc_keeps
    | with_reducible apply State.ite_keeps

theorem execDebugAction_keeps {q : List Instr} (act : DebugAct) {s : State} (h0 : s.Keeps q) :
    ∃ u, execDebugAction s act = .next u ∧ u.Keeps q := by
  refine ⟨_, rfl, ?_⟩
  try dsimp only
  repeat' first
    | with_reducible assumption
    | with_reducible apply State.replay_keeps
    | with_reducible apply State.put_keeps
    | with_reducible apply State.ite_keeps

theorem State.recopyCores_keeps {q : List Instr} {s : State} (h0 : s.Keeps q) :
    (State.recopyCores s).Keeps q := by
  unfold State.recopyCores
  try dsimp only
  repeat' first
    | with_reducible assumption
    | with_reducible apply State.setTri_keeps
    | simp only [State.Keeps.lit]
    | with_reducible apply State.ite_keeps
    | with_reducible apply State.ite_fst_keeps
    | split

theorem State.debugResume_keeps {q : List Instr} {s : State} (h0 : s.Keeps q) :
    (State.debugResume s).Keeps q := by
  unfold State.debugResume
  try dsimp only
  repeat' first
    | with_reducible assumption
    | with_reducible apply State.setTri_keeps
    | with_reducible apply State.put_keeps
    | with_reducible apply State.inc_keeps
    | with_reducible apply State.recopyCores_keeps
    | with_reducible apply State.ite_keeps

theorem execDebugResume_keeps {q : List Instr} {s : State} (h0 : s.Keeps q) :
    ∃ u, execDebugResume s = .next u ∧ u.Keeps q := by
  refine ⟨_, rfl, ?_⟩
  try dsimp only
  repeat' first
    | with_reducible assumption
    | with_reducible apply State.debugResume_keeps
    | with_reducible apply State.ite_keeps

theorem execTriApCtlWrite_keeps {q : List Instr} (r : Requester) (run : Nat) {s : State} (h0 : s.Keeps q) :
    ∃ u, execTriApCtlWrite r run s = .next u ∧ u.Keeps q := by
  refine ⟨_, rfl, ?_⟩
  try dsimp only
  repeat' first
    | with_reducible assumption
    | intro _
    | with_reducible apply State.gated_keeps
    | with_reducible apply State.writeApCtl_keeps
    | with_reducible apply State.foldl_keeps
    | simp only [State.Keeps.lit]
    | simp only [State.Keeps.litDm, List.length_set]
    | with_reducible apply State.ite_keeps
    | with_reducible apply State.ite_fst_keeps
    | split

/-! ## Tenants -/

theorem State.tenTouch_keeps {q : List Instr} {s : State} (tn : Nat) (h0 : s.Keeps q) :
    (State.tenTouch s tn).Keeps q := by
  unfold State.tenTouch
  try dsimp only
  repeat' first
    | with_reducible assumption
    | with_reducible apply State.setTen_keeps
    | with_reducible apply State.ite_keeps

theorem State.winWrite_keeps {q : List Instr} {s : State} (r : Requester) (tn : Nat) {act : State → State} (h0 : s.Keeps
    q) (h1 : ∀ (t : State), t.Keeps q → (act t ).Keeps q) :
    (State.winWrite s r tn act).Keeps q := by
  unfold State.winWrite
  try dsimp only
  repeat' first
    | with_reducible assumption
    | intro _
    | with_reducible apply h1
    | with_reducible apply State.tenTouch_keeps
    | with_reducible apply State.ite_keeps

theorem State.tenResult_keeps {q : List Instr} {s : State} (tn : Nat) (code : Nat) (h0 : s.Keeps q) :
    (State.tenResult s tn code).Keeps q := by
  unfold State.tenResult
  try dsimp only
  repeat' first
    | with_reducible assumption
    | with_reducible apply State.put_keeps
    | with_reducible apply State.ite_keeps

theorem State.tenAttach_keeps {q : List Instr} {s : State} (tn : Nat) (h0 : s.Keeps q) :
    (State.tenAttach s tn).Keeps q := by
  unfold State.tenAttach
  try dsimp only
  repeat' first
    | with_reducible assumption
    | with_reducible apply State.tenResult_keeps
    | with_reducible apply State.tenPut_keeps
    | with_reducible apply State.ite_keeps

theorem State.tenDetach_keeps {q : List Instr} {s : State} (tn : Nat) (h0 : s.Keeps q) :
    (State.tenDetach s tn).Keeps q := by
  unfold State.tenDetach
  try dsimp only
  repeat' first
    | with_reducible assumption
    | with_reducible apply State.tenResult_keeps
    | with_reducible apply State.detach_keeps
    | with_reducible apply State.ite_keeps

theorem State.tenDoze_keeps {q : List Instr} {s : State} (tn : Nat) (h0 : s.Keeps q) :
    (State.tenDoze s tn).Keeps q := by
  unfold State.tenDoze
  try dsimp only
  repeat' first
    | with_reducible assumption
    | with_reducible apply State.setTen_keeps
    | with_reducible apply State.dozeWake_keeps
    | with_reducible apply State.tenResult_keeps
    | with_reducible apply State.tenPut_keeps
    | with_reducible apply State.ite_keeps

theorem State.vecSend_keeps {q : List Instr} {s : State} (tn : Nat) (v : Nat) (h0 : s.Keeps q) :
    (State.vecSend s tn v).Keeps q := by
  unfold State.vecSend
  try dsimp only
  repeat' first
    | with_reducible assumption
    | with_reducible apply State.setTen_keeps
    | simp only [State.Keeps.lit]
    | with_reducible apply State.ite_keeps
    | with_reducible apply State.ite_fst_keeps
    | split

theorem State.tenResume_keeps {q : List Instr} {s : State} (tn : Nat) (h0 : s.Keeps q) :
    (State.tenResume s tn).Keeps q := by
  unfold State.tenResume
  try dsimp only
  repeat' first
    | with_reducible assumption
    | intro _
    | with_reducible apply State.inbandFlush_keeps
    | with_reducible apply State.vecSend_keeps
    | with_reducible apply State.setTen_keeps
    | with_reducible apply State.tenResult_keeps
    | with_reducible apply State.tenPut_keeps
    | with_reducible apply State.foldl_keeps
    | simp only [State.Keeps.lit]
    | simp only [State.Keeps.litDm, List.length_set]
    | with_reducible apply State.ite_keeps
    | with_reducible apply State.ite_fst_keeps
    | split

theorem State.tenCtl_keeps {q : List Instr} {s : State} (tn : Nat) (cmd : Nat) (h0 : s.Keeps q) :
    (State.tenCtl s tn cmd).Keeps q := by
  unfold State.tenCtl
  try dsimp only
  repeat' first
    | with_reducible assumption
    | with_reducible apply State.tenDoze_keeps
    | with_reducible apply State.tenResume_keeps
    | with_reducible apply State.tenResult_keeps
    | with_reducible apply State.tenAttach_keeps
    | with_reducible apply State.tenDetach_keeps
    | simp only [State.Keeps.lit]
    | with_reducible apply State.ite_keeps
    | with_reducible apply State.ite_fst_keeps
    | split

theorem State.putWoc_keeps {q : List Instr} {s : State} (tn : Nat) (woc : Bool) (h0 : s.Keeps q) :
    (State.putWoc s tn woc).Keeps q := by
  unfold State.putWoc
  try dsimp only
  repeat' first
    | with_reducible assumption
    | with_reducible apply State.put_keeps
    | with_reducible apply State.ite_keeps

theorem State.writeTnwCtl_keeps {q : List Instr} {s : State} (r : Requester) (tn : Nat) (cmd : Nat) (woc : Bool) (h0 :
    s.Keeps q) :
    (State.writeTnwCtl s r tn cmd woc).Keeps q := by
  unfold State.writeTnwCtl
  try dsimp only
  repeat' first
    | with_reducible assumption
    | intro _
    | with_reducible apply State.putWoc_keeps
    | with_reducible apply State.winWrite_keeps
    | with_reducible apply State.tenCtl_keeps
    | with_reducible apply State.foldl_keeps
    | simp only [State.Keeps.lit]
    | simp only [State.Keeps.litDm, List.length_set]
    | with_reducible apply State.ite_keeps
    | with_reducible apply State.ite_fst_keeps
    | split

theorem State.writeHstCtl_keeps {q : List Instr} {s : State} (tn : Nat) (sel : Nat) (reclaim : Bool) (h0 : s.Keeps q) :
    (State.writeHstCtl s tn sel reclaim).Keeps q := by
  unfold State.writeHstCtl
  try dsimp only
  repeat' first
    | with_reducible assumption
    | with_reducible apply State.put_keeps
    | with_reducible apply State.detach_keeps
    | with_reducible apply State.ite_keeps

theorem execTnwAttach_keeps {q : List Instr} (r : Requester) (tn : Nat) (woc : Bool) {s : State} (h0 : s.Keeps q) :
    ∃ u, execTnwAttach r tn woc s = .next u ∧ u.Keeps q := by
  refine ⟨_, rfl, ?_⟩
  try dsimp only
  repeat' first
    | with_reducible assumption
    | with_reducible apply State.writeTnwCtl_keeps
    | with_reducible apply State.ite_keeps

theorem State.grantRefused_keeps {q : List Instr} {s : State} (tn : Nat) (code : Nat) (h0 : s.Keeps q) :
    (State.grantRefused s tn code).Keeps q := by
  unfold State.grantRefused
  try dsimp only
  repeat' first
    | with_reducible assumption
    | with_reducible apply State.setFlag_keeps
    | with_reducible apply State.tenResult_keeps
    | with_reducible apply State.inc_keeps
    | with_reducible apply State.tenPut_keeps
    | with_reducible apply State.ite_keeps

theorem execGrantComplete_keeps {q : List Instr} (tn : Nat) {s : State} (h0 : s.Keeps q) :
    ∃ u, execGrantComplete tn s = .next u ∧ u.Keeps q := by
  refine ⟨_, rfl, ?_⟩
  try dsimp only
  repeat' first
    | with_reducible assumption
    | intro _
    | with_reducible apply State.setFlag_keeps
    | with_reducible apply State.grantRefused_keeps
    | with_reducible apply State.setTen_keeps
    | with_reducible apply State.tenResult_keeps
    | with_reducible apply State.put_keeps
    | with_reducible apply State.inc_keeps
    | with_reducible apply State.tenPut_keeps
    | with_reducible apply State.foldl_keeps
    | simp only [State.Keeps.lit]
    | simp only [State.Keeps.litDm, List.length_set]
    | with_reducible apply State.ite_keeps
    | with_reducible apply State.ite_fst_keeps
    | split

theorem execTnwDetach_keeps {q : List Instr} (r : Requester) (tn : Nat) (woc : Bool) {s : State} (h0 : s.Keeps q) :
    ∃ u, execTnwDetach r tn woc s = .next u ∧ u.Keeps q := by
  refine ⟨_, rfl, ?_⟩
  try dsimp only
  repeat' first
    | with_reducible assumption
    | with_reducible apply State.writeTnwCtl_keeps
    | with_reducible apply State.ite_keeps

theorem execTnwDoze_keeps {q : List Instr} (r : Requester) (tn : Nat) (woc : Bool) {s : State} (h0 : s.Keeps q) :
    ∃ u, execTnwDoze r tn woc s = .next u ∧ u.Keeps q := by
  refine ⟨_, rfl, ?_⟩
  try dsimp only
  repeat' first
    | with_reducible assumption
    | with_reducible apply State.writeTnwCtl_keeps
    | with_reducible apply State.ite_keeps

theorem execTnwResume_keeps {q : List Instr} (r : Requester) (tn : Nat) (woc : Bool) {s : State} (h0 : s.Keeps q) :
    ∃ u, execTnwResume r tn woc s = .next u ∧ u.Keeps q := by
  refine ⟨_, rfl, ?_⟩
  try dsimp only
  repeat' first
    | with_reducible assumption
    | with_reducible apply State.writeTnwCtl_keeps
    | with_reducible apply State.ite_keeps

theorem execTnwLiveWrite_keeps {q : List Instr} (r : Requester) (tn : Nat) {s : State} (h0 : s.Keeps q) :
    ∃ u, execTnwLiveWrite r tn s = .next u ∧ u.Keeps q := by
  refine ⟨_, rfl, ?_⟩
  try dsimp only
  repeat' first
    | with_reducible assumption
    | intro _
    | with_reducible apply State.winWrite_keeps
    | with_reducible apply State.foldl_keeps
    | simp only [State.Keeps.lit]
    | simp only [State.Keeps.litDm, List.length_set]
    | with_reducible apply State.ite_keeps
    | with_reducible apply State.ite_fst_keeps
    | split

theorem execLivenessExpire_keeps {q : List Instr} (tn : Nat) (tie : Bool) {s : State} (h0 : s.Keeps q) :
    ∃ u, execLivenessExpire tn s tie = .next u ∧ u.Keeps q := by
  refine ⟨_, rfl, ?_⟩
  try dsimp only
  repeat' first
    | with_reducible assumption
    | with_reducible apply State.reclaimTenant_keeps
    | with_reducible apply State.tenTouch_keeps
    | simp only [State.Keeps.lit]
    | with_reducible apply State.ite_keeps
    | with_reducible apply State.ite_fst_keeps
    | split

theorem execFunctionLevelReset_keeps {q : List Instr} (tn : Nat) {s : State} (h0 : s.Keeps q) :
    ∃ u, execFunctionLevelReset tn s = .next u ∧ u.Keeps q := by
  refine ⟨_, rfl, ?_⟩
  try dsimp only
  repeat' first
    | with_reducible assumption
    | with_reducible apply State.reclaimTenant_keeps
    | with_reducible apply State.setTen_keeps
    | with_reducible apply State.ite_keeps

theorem execPcieLinkEvent_keeps {q : List Instr} (link : Nat) (ev : PcieEv) {s : State} (h0 : s.Keeps q) :
    ∃ u, execPcieLinkEvent link ev s = .next u ∧ u.Keeps q := by
  refine ⟨_, rfl, ?_⟩
  try dsimp only
  repeat' first
    | with_reducible assumption
    | intro _
    | with_reducible apply State.reclaimTenant_keeps
    | with_reducible apply State.put_keeps
    | with_reducible apply State.foldl_keeps
    | simp only [State.Keeps.lit]
    | simp only [State.Keeps.litDm, List.length_set]
    | with_reducible apply State.ite_keeps
    | with_reducible apply State.ite_fst_keeps
    | split

theorem execDmaError_keeps {q : List Instr} (tn : Nat) {s : State} (h0 : s.Keeps q) :
    ∃ u, execDmaError tn s = .next u ∧ u.Keeps q := by
  refine ⟨_, rfl, ?_⟩
  try dsimp only
  repeat' first
    | with_reducible assumption
    | with_reducible apply State.reclaimTenant_keeps
    | with_reducible apply State.ite_keeps

theorem execHstReclaim_keeps {q : List Instr} (r : Requester) (tn : Nat) (sel : Nat) {s : State} (h0 : s.Keeps q) :
    ∃ u, execHstReclaim r tn sel s = .next u ∧ u.Keeps q := by
  refine ⟨_, rfl, ?_⟩
  try dsimp only
  repeat' first
    | with_reducible assumption
    | intro _
    | with_reducible apply State.gated_keeps
    | with_reducible apply State.writeHstCtl_keeps
    | with_reducible apply State.foldl_keeps
    | simp only [State.Keeps.lit]
    | simp only [State.Keeps.litDm, List.length_set]
    | with_reducible apply State.ite_keeps
    | with_reducible apply State.ite_fst_keeps
    | split

theorem State.tenAccept_keeps {q : List Instr} {s : State} (tn : Nat) (b_e : List Byte) (h0 : s.Keeps q) :
    (State.tenAccept s tn b_e).Keeps q := by
  unfold State.tenAccept
  try dsimp only
  repeat' first
    | with_reducible assumption
    | with_reducible apply State.setTen_keeps
    | with_reducible apply State.ite_keeps

theorem State.cmdFetch_keeps {q : List Instr} {s : State} (tn : Nat) (h0 : s.Keeps q) :
    (State.cmdFetch s tn).Keeps q := by
  unfold State.cmdFetch
  try dsimp only
  repeat' first
    | with_reducible assumption
    | with_reducible apply State.tenAccept_keeps
    | with_reducible apply State.put_keeps
    | simp only [State.Keeps.lit]
    | with_reducible apply State.ite_keeps
    | with_reducible apply State.ite_fst_keeps
    | split

theorem execCommandFetch_keeps {q : List Instr} (tn : Nat) {s : State} (h0 : s.Keeps q) :
    ∃ u, execCommandFetch tn s = .next u ∧ u.Keeps q := by
  refine ⟨_, rfl, ?_⟩
  try dsimp only
  repeat' first
    | with_reducible assumption
    | with_reducible apply State.cmdFetch_keeps
    | simp only [State.Keeps.lit]
    | with_reducible apply State.ite_keeps
    | with_reducible apply State.ite_fst_keeps
    | split

theorem execCompletionWrite_keeps {q : List Instr} (tn : Nat) {s : State} (h0 : s.Keeps q) :
    ∃ u, execCompletionWrite tn s = .next u ∧ u.Keeps q := by
  refine ⟨_, rfl, ?_⟩
  try dsimp only
  repeat' first
    | with_reducible assumption
    | with_reducible apply State.cplWrite_keeps
    | with_reducible apply State.ite_keeps

theorem State.txFetch_keeps {q : List Instr} {s : State} (b_q : Ring) (port : Nat) {dropped : State → State} {sent :
    State → State} (h0 : s.Keeps q) (h1 : ∀ (t : State), t.Keeps q → (dropped t ).Keeps q) (h2 : ∀ (t : State), t.Keeps
    q → (sent t ).Keeps q) :
    (State.txFetch s b_q port dropped sent).Keeps q := by
  unfold State.txFetch
  try dsimp only
  repeat' first
    | with_reducible assumption
    | intro _
    | with_reducible apply h1
    | with_reducible apply h2
    | with_reducible apply State.ringWrite_keeps
    | with_reducible apply State.receive_keeps
    | with_reducible apply State.ite_keeps

theorem execTxDescriptorFetch_keeps {q : List Instr} (tn : Nat) (ring : Nat) {s : State} (h0 : s.Keeps q) :
    ∃ u, execTxDescriptorFetch tn ring s = .next u ∧ u.Keeps q := by
  refine ⟨_, rfl, ?_⟩
  try dsimp only
  repeat' first
    | with_reducible assumption
    | intro _
    | with_reducible apply State.setFlag_keeps
    | with_reducible apply State.vecEvent_keeps
    | with_reducible apply State.addCnt64_keeps
    | with_reducible apply State.put_keeps
    | with_reducible apply State.inc_keeps
    | with_reducible apply State.txFetch_keeps
    | with_reducible apply State.foldl_keeps
    | simp only [State.Keeps.lit]
    | simp only [State.Keeps.litDm, List.length_set]
    | with_reducible apply State.ite_keeps
    | with_reducible apply State.ite_fst_keeps
    | split

theorem State.inbandControl_keeps {q : List Instr} {s : State} (tn : Nat) (b_e : List Byte) (h0 : s.Keeps q) :
    (State.inbandControl s tn b_e).Keeps q := by
  unfold State.inbandControl
  try dsimp only
  repeat' first
    | with_reducible assumption
    | intro _
    | with_reducible apply State.storeOne_keeps
    | with_reducible apply State.putWoc_keeps
    | with_reducible apply State.tenCtl_keeps
    | with_reducible apply State.foldl_keeps
    | simp only [State.Keeps.lit]
    | simp only [State.Keeps.litDm, List.length_set]
    | with_reducible apply State.ite_keeps
    | with_reducible apply State.ite_fst_keeps
    | split

theorem State.inbandTake_keeps {q : List Instr} {s : State} (port : Nat) (bs : List Byte) (validated : Bool) (h0 :
    s.Keeps q) :
    (State.inbandTake s port bs validated).Keeps q := by
  unfold State.inbandTake
  try dsimp only
  repeat' first
    | with_reducible assumption
    | intro _
    | with_reducible apply State.tenAccept_keeps
    | with_reducible apply State.inc_keeps
    | with_reducible apply State.inbandControl_keeps
    | with_reducible apply State.tenTouch_keeps
    | with_reducible apply State.foldl_keeps
    | simp only [State.Keeps.lit]
    | simp only [State.Keeps.litDm, List.length_set]
    | with_reducible apply State.ite_keeps
    | with_reducible apply State.ite_fst_keeps
    | split

theorem State.inbandNext_keeps {q : List Instr} {s : State} (pl : Plane) (h0 : s.Keeps q) :
    ∀ u, State.inbandNext s pl = some u → u.Keeps q := by
  unfold State.inbandNext
  intro u hu
  repeat' split at hu
  all_goals first | cases hu | skip
  all_goals repeat' first
    | with_reducible assumption
    | with_reducible apply State.inbandTake_keeps
    | with_reducible apply State.setPlane_keeps
    | with_reducible apply State.release_keeps
    | with_reducible apply State.ite_keeps

theorem State.inbandNext_keeps_eq {q : List Instr} {s : State} {pl : Plane} (h0 : s.Keeps q) {u : State}
    (e : State.inbandNext s pl = some u) : u.Keeps q := by
  revert u e
  apply State.inbandNext_keeps <;> assumption

theorem execInbandFrame_keeps {q : List Instr} (pl : Plane) (port : Nat) (bytes : List Byte) {s : State} (h0 : s.Keeps q) :
    ∃ u, execInbandFrame pl port bytes s = .next u ∧ u.Keeps q :=
  ⟨_, rfl, State.ite_keeps (State.getD_keeps (fun _ e => State.inbandNext_keeps_eq h0 e) h0) h0⟩

theorem execInbandCompletionSend_keeps {q : List Instr} (tn : Nat) {s : State} (h0 : s.Keeps q) :
    ∃ u, execInbandCompletionSend tn s = .next u ∧ u.Keeps q := by
  refine ⟨_, rfl, ?_⟩
  try dsimp only
  repeat' first
    | with_reducible assumption
    | with_reducible apply State.setTen_keeps
    | with_reducible apply State.sendInband_keeps
    | simp only [State.Keeps.lit]
    | with_reducible apply State.ite_keeps
    | with_reducible apply State.ite_fst_keeps
    | split

theorem execVectorSend_keeps {q : List Instr} (tn : Nat) (v : Nat) {s : State} (h0 : s.Keeps q) :
    ∃ u, execVectorSend tn v s = .next u ∧ u.Keeps q := by
  refine ⟨_, rfl, ?_⟩
  try dsimp only
  repeat' first
    | with_reducible assumption
    | with_reducible apply State.vecSend_keeps
    | with_reducible apply State.ite_keeps

theorem execMsixUnmask_keeps {q : List Instr} (tn : Nat) (v : Nat) {s : State} (h0 : s.Keeps q) :
    ∃ u, execMsixUnmask tn v s = .next u ∧ u.Keeps q := by
  refine ⟨_, rfl, ?_⟩
  try dsimp only
  repeat' first
    | with_reducible assumption
    | with_reducible apply State.vecSend_keeps
    | with_reducible apply State.setTen_keeps
    | with_reducible apply State.ite_keeps

end Sys2Proof.Machine
end

