-- ==== Sys2Proof/Laws/Keeps9.lean ====
section
/-! SUPPORT. What each operation of TenantCommands, Receive, Reset, Boot, Power keeps: the good form, and the queue. -/

namespace Sys2Proof.Machine

/-! ## TenantCommands -/

theorem State.tenRun_keeps {q : List Instr} {s : State} (tn : Nat) (op : Nat) {act : State → TenCmd → State} (h0 :
    s.Keeps q) (h1 : ∀ (t : State) (y0 : TenCmd), t.Keeps q → (act t y0).Keeps q) :
    (State.tenRun s tn op act).Keeps q := by
  unfold State.tenRun
  try dsimp only
  repeat' first
    | with_reducible assumption
    | intro _
    | with_reducible apply h1
    | simp only [State.Keeps.lit]
    | with_reducible apply State.ite_keeps
    | with_reducible apply State.ite_fst_keeps
    | split

theorem State.tenEnd_keeps {q : List Instr} {s : State} (tn : Nat) (c : TenCmd) (status : Nat) (data : List Byte) (h0 :
    s.Keeps q) :
    (State.tenEnd s tn c status data).Keeps q := by
  unfold State.tenEnd
  try dsimp only
  repeat' first
    | with_reducible assumption
    | with_reducible apply State.setTen_keeps
    | with_reducible apply State.ite_keeps

theorem execTenKeepalive_keeps {q : List Instr} (tn : Nat) {s : State} (h0 : s.Keeps q) :
    ∃ u, execTenKeepalive tn s = .next u ∧ u.Keeps q := by
  refine ⟨_, rfl, ?_⟩
  try dsimp only
  repeat' first
    | with_reducible assumption
    | intro _
    | with_reducible apply State.tenEnd_keeps
    | with_reducible apply State.tenRun_keeps
    | with_reducible apply State.tenTouch_keeps
    | with_reducible apply State.foldl_keeps
    | simp only [State.Keeps.lit]
    | simp only [State.Keeps.litDm, List.length_set]
    | with_reducible apply State.ite_keeps
    | with_reducible apply State.ite_fst_keeps
    | split

theorem State.abortTarget_keeps {q : List Instr} {s : State} (tn : Nat) (t : TenCmd) (h0 : s.Keeps q) :
    (State.abortTarget s tn t).Keeps q := by
  unfold State.abortTarget
  try dsimp only
  repeat' first
    | with_reducible assumption
    | with_reducible apply State.carDrop_keeps
    | with_reducible apply State.abortCmd_keeps
    | simp only [State.Keeps.lit]
    | with_reducible apply State.ite_keeps
    | with_reducible apply State.ite_fst_keeps
    | split

theorem execTenAbort_keeps {q : List Instr} (tn : Nat) (late : Bool) {s : State} (h0 : s.Keeps q) :
    ∃ u, execTenAbort tn s late = .next u ∧ u.Keeps q := by
  refine ⟨_, rfl, ?_⟩
  try dsimp only
  repeat' first
    | with_reducible assumption
    | intro _
    | with_reducible apply State.tenEnd_keeps
    | with_reducible apply State.tenRun_keeps
    | with_reducible apply State.jobDownbeat_keeps
    | with_reducible apply State.abortTarget_keeps
    | with_reducible apply State.foldl_keeps
    | simp only [State.Keeps.lit]
    | simp only [State.Keeps.litDm, List.length_set]
    | with_reducible apply State.ite_keeps
    | with_reducible apply State.ite_fst_keeps
    | split

theorem State.unitError_keeps {q : List Instr} {s : State} (tn : Nat) (c : TenCmd) (code : Nat) (h0 : s.Keeps q) :
    (State.unitError s tn c code).Keeps q := by
  unfold State.unitError
  try dsimp only
  repeat' first
    | with_reducible assumption
    | with_reducible apply State.tenEnd_keeps
    | with_reducible apply State.ite_keeps

theorem State.tblEnd_keeps {q : List Instr} {s : State} (tn : Nat) (c : TenCmd) (code : Nat) (result : List Byte) (h0 :
    s.Keeps q) :
    (State.tblEnd s tn c code result).Keeps q := by
  unfold State.tblEnd
  try dsimp only
  repeat' first
    | with_reducible assumption
    | with_reducible apply State.tenEnd_keeps
    | with_reducible apply State.unitError_keeps
    | with_reducible apply State.ite_keeps

theorem State.tenTblOp_keeps {q : List Instr} {s : State} (tn : Nat) (c : TenCmd) (ri : Nat) (r : Region) (op : Nat)
    (key : Nat) (result : Nat) (pin : Bool) (h0 : s.Keeps q) :
    (State.tenTblOp s tn c ri r op key result pin).Keeps q := by
  unfold State.tenTblOp
  try dsimp only
  repeat' first
    | with_reducible assumption
    | with_reducible apply State.tenEnd_keeps
    | with_reducible apply State.tblDeleteKey_keeps
    | with_reducible refine State.tblDeleteKey_keeps_eq ?_ ‹_›
    | with_reducible apply State.tblInsertKey_keeps
    | with_reducible refine State.tblInsertKey_keeps_eq ?_ ‹_›
    | with_reducible apply State.tblEnd_keeps
    | with_reducible apply State.tblReplaceKey_keeps
    | with_reducible refine State.tblReplaceKey_keeps_eq ?_ ‹_›
    | with_reducible apply State.unitError_keeps
    | simp only [State.Keeps.lit]
    | with_reducible apply State.ite_keeps
    | with_reducible apply State.ite_fst_keeps
    | split

theorem State.tenTableCmd_keeps {q : List Instr} {s : State} (tn : Nat) (c : TenCmd) (h0 : s.Keeps q) :
    (State.tenTableCmd s tn c).Keeps q := by
  unfold State.tenTableCmd
  try dsimp only
  repeat' first
    | with_reducible assumption
    | with_reducible apply State.tenEnd_keeps
    | with_reducible apply State.tenTblOp_keeps
    | with_reducible apply State.unitError_keeps
    | simp only [State.Keeps.lit]
    | with_reducible apply State.ite_keeps
    | with_reducible apply State.ite_fst_keeps
    | split

theorem execTenTable_keeps {q : List Instr} (tn : Nat) {s : State} (h0 : s.Keeps q) :
    ∃ u, execTenTable tn s = .next u ∧ u.Keeps q := by
  refine ⟨_, rfl, ?_⟩
  try dsimp only
  repeat' first
    | with_reducible assumption
    | intro _
    | with_reducible apply State.tenTableCmd_keeps
    | with_reducible apply State.tenRun_keeps
    | with_reducible apply State.foldl_keeps
    | simp only [State.Keeps.lit]
    | simp only [State.Keeps.litDm, List.length_set]
    | with_reducible apply State.ite_keeps
    | with_reducible apply State.ite_fst_keeps
    | split

theorem State.tenJob_keeps {q : List Instr} {s : State} (tn : Nat) (c : TenCmd) (i : JobItem) (h0 : s.Keeps q) :
    (State.tenJob s tn c i).Keeps q := by
  unfold State.tenJob
  try dsimp only
  repeat' first
    | with_reducible assumption
    | with_reducible apply State.putCar_keeps
    | with_reducible apply State.setTen_keeps
    | with_reducible apply State.ite_keeps

theorem execTenStreamDeclare_keeps {q : List Instr} (tn : Nat) {s : State} (h0 : s.Keeps q) :
    ∃ u, execTenStreamDeclare tn s = .next u ∧ u.Keeps q := by
  refine ⟨_, rfl, ?_⟩
  try dsimp only
  repeat' first
    | with_reducible assumption
    | intro _
    | with_reducible apply State.tenRun_keeps
    | with_reducible apply State.tenJob_keeps
    | with_reducible apply State.foldl_keeps
    | simp only [State.Keeps.lit]
    | simp only [State.Keeps.litDm, List.length_set]
    | with_reducible apply State.ite_keeps
    | with_reducible apply State.ite_fst_keeps
    | split

theorem execTenStreamWithdraw_keeps {q : List Instr} (tn : Nat) {s : State} (h0 : s.Keeps q) :
    ∃ u, execTenStreamWithdraw tn s = .next u ∧ u.Keeps q := by
  refine ⟨_, rfl, ?_⟩
  try dsimp only
  repeat' first
    | with_reducible assumption
    | intro _
    | with_reducible apply State.tenRun_keeps
    | with_reducible apply State.tenJob_keeps
    | with_reducible apply State.foldl_keeps
    | simp only [State.Keeps.lit]
    | simp only [State.Keeps.litDm, List.length_set]
    | with_reducible apply State.ite_keeps
    | with_reducible apply State.ite_fst_keeps
    | split

theorem State.keySlot_keeps {q : List Instr} {s : State} (op : Nat) (slot : Nat) (pending : Bool) (h0 : s.Keeps q) :
    (State.keySlot s op slot pending).1.Keeps q := by
  unfold State.keySlot
  try dsimp only
  repeat' first
    | with_reducible assumption
    | with_reducible apply State.fresh_keeps
    | with_reducible refine State.fresh_keeps_eq ?_ ‹_›
    | simp only [State.Keeps.lit]
    | with_reducible apply State.ite_keeps
    | with_reducible apply State.ite_fst_keeps
    | split

theorem State.keySlot_keeps_eq {q : List Instr} {s : State} {op : Nat} {slot : Nat} {pending : Bool} (h0 : s.Keeps q) {u
    : State} {w : Nat}
    (e : State.keySlot s op slot pending = (u, w)) : u.Keeps q := by
  have hu : (State.keySlot s op slot pending).1.Keeps q := by apply State.keySlot_keeps <;> assumption
  rw [e] at hu
  exact hu

theorem keyEnd_keeps {q : List Instr} (tn : Nat) (c : TenCmd) (slot : Nat) {r : State × Nat × List Byte} (h0 : r.1.Keeps
    q) :
    (keyEnd tn c slot r).Keeps q := by
  unfold keyEnd
  try dsimp only
  repeat' first
    | with_reducible assumption
    | with_reducible apply State.tenEnd_keeps
    | with_reducible apply State.inc_keeps
    | with_reducible apply State.dmaWrite_keeps
    | with_reducible apply State.unitError_keeps
    | with_reducible apply State.ite_keeps

theorem State.keyOp_keeps {q : List Instr} {s : State} (op : Nat) (b_q : BlfReq) (h0 : s.Keeps q) :
    (State.keyOp s op b_q).1.Keeps q := by
  unfold State.keyOp
  try dsimp only
  repeat' first
    | with_reducible assumption
    | with_reducible apply State.blfChk_keeps
    | with_reducible refine State.blfChk_keeps_eq ?_ ‹_›
    | with_reducible apply State.blfAtt_keeps
    | with_reducible refine State.blfAtt_keeps_eq ?_ ‹_›
    | with_reducible apply State.blfExp_keeps
    | with_reducible refine State.blfExp_keeps_eq ?_ ‹_›
    | with_reducible apply State.blfDis_keeps
    | with_reducible refine State.blfDis_keeps_eq ?_ ‹_›
    | with_reducible apply State.blfCom_keeps
    | with_reducible refine State.blfCom_keeps_eq ?_ ‹_›
    | with_reducible apply State.blfKill_keeps
    | with_reducible apply State.blfGen_keeps
    | with_reducible refine State.blfGen_keeps_eq ?_ ‹_›
    | with_reducible apply State.blfPub_keeps
    | with_reducible refine State.blfPub_keeps_eq ?_ ‹_›
    | with_reducible apply State.blfImpPub_keeps
    | with_reducible refine State.blfImpPub_keeps_eq ?_ ‹_›
    | with_reducible apply State.blfDer_keeps
    | with_reducible refine State.blfDer_keeps_eq ?_ ‹_›
    | with_reducible apply State.blfAttr_keeps
    | with_reducible refine State.blfAttr_keeps_eq ?_ ‹_›
    | with_reducible apply State.blfImp_keeps
    | with_reducible refine State.blfImp_keeps_eq ?_ ‹_›
    | simp only [State.Keeps.lit]
    | with_reducible apply State.ite_keeps
    | with_reducible apply State.ite_fst_keeps
    | split

theorem State.tenKeyCmd_keeps {q : List Instr} {s0 : State} (tn : Nat) (c : TenCmd) (h0 : s0.Keeps q) :
    (State.tenKeyCmd s0 tn c).Keeps q := by
  unfold State.tenKeyCmd
  dsimp only
  split
  repeat' first
    | with_reducible assumption
    | with_reducible apply State.unitError_keeps
    | with_reducible apply State.tenEnd_keeps
    | with_reducible apply keyEnd_keeps
    | with_reducible apply State.keyOp_keeps
    | with_reducible apply State.keySlot_keeps
    | with_reducible refine State.keySlot_keeps_eq ?_ ‹_›
    | simp only [State.Keeps.lit]
    | with_reducible apply State.ite_keeps

theorem execTenKey_keeps {q : List Instr} (tn : Nat) {s : State} (h0 : s.Keeps q) :
    ∃ u, execTenKey tn s = .next u ∧ u.Keeps q := by
  refine ⟨_, rfl, ?_⟩
  try dsimp only
  repeat' first
    | with_reducible assumption
    | intro _
    | with_reducible apply State.tenKeyCmd_keeps
    | with_reducible apply State.tenRun_keeps
    | with_reducible apply State.foldl_keeps
    | simp only [State.Keeps.lit]
    | simp only [State.Keeps.litDm, List.length_set]
    | with_reducible apply State.ite_keeps
    | with_reducible apply State.ite_fst_keeps
    | split

theorem execTenCipher_keeps {q : List Instr} (tn : Nat) {s : State} (h0 : s.Keeps q) :
    ∃ u, execTenCipher tn s = .next u ∧ u.Keeps q := by
  refine ⟨_, rfl, ?_⟩
  try dsimp only
  repeat' first
    | with_reducible assumption
    | intro _
    | with_reducible apply State.cphSubmit_keeps
    | with_reducible refine State.cphSubmit_keeps_eq ?_ ‹_›
    | with_reducible apply State.tenEnd_keeps
    | with_reducible apply State.setTen_keeps
    | with_reducible apply State.tenRun_keeps
    | with_reducible apply State.cphDeliver_keeps
    | with_reducible apply State.foldl_keeps
    | simp only [State.Keeps.lit]
    | simp only [State.Keeps.litDm, List.length_set]
    | with_reducible apply State.ite_keeps
    | with_reducible apply State.ite_fst_keeps
    | split

theorem State.tenCaptureCmd_keeps {q : List Instr} {s : State} (tn : Nat) (c : TenCmd) (h0 : s.Keeps q) :
    (State.tenCaptureCmd s tn c).Keeps q := by
  unfold State.tenCaptureCmd
  try dsimp only
  repeat' first
    | with_reducible assumption
    | with_reducible apply State.tenEnd_keeps
    | with_reducible apply State.storeOne_keeps
    | with_reducible apply State.setTen_keeps
    | with_reducible apply State.put_keeps
    | simp only [State.Keeps.lit]
    | with_reducible apply State.ite_keeps
    | with_reducible apply State.ite_fst_keeps
    | split

theorem execTenCapture_keeps {q : List Instr} (tn : Nat) {s : State} (h0 : s.Keeps q) :
    ∃ u, execTenCapture tn s = .next u ∧ u.Keeps q := by
  refine ⟨_, rfl, ?_⟩
  try dsimp only
  repeat' first
    | with_reducible assumption
    | intro _
    | with_reducible apply State.tenRun_keeps
    | with_reducible apply State.tenCaptureCmd_keeps
    | with_reducible apply State.foldl_keeps
    | simp only [State.Keeps.lit]
    | simp only [State.Keeps.litDm, List.length_set]
    | with_reducible apply State.ite_keeps
    | with_reducible apply State.ite_fst_keeps
    | split

theorem execTenStats_keeps {q : List Instr} (tn : Nat) {s : State} (h0 : s.Keeps q) :
    ∃ u, execTenStats tn s = .next u ∧ u.Keeps q := by
  refine ⟨_, rfl, ?_⟩
  try dsimp only
  repeat' first
    | with_reducible assumption
    | intro _
    | with_reducible apply State.setReg_keeps
    | with_reducible apply State.tenEnd_keeps
    | with_reducible apply State.tenRun_keeps
    | with_reducible apply State.dmaWrite_keeps
    | with_reducible apply State.foldl_keeps
    | simp only [State.Keeps.lit]
    | simp only [State.Keeps.litDm, List.length_set]
    | with_reducible apply State.ite_keeps
    | with_reducible apply State.ite_fst_keeps
    | split

theorem execTenNmReq_keeps {q : List Instr} (tn : Nat) {s : State} (h0 : s.Keeps q) :
    ∃ u, execTenNmReq tn s = .next u ∧ u.Keeps q := by
  refine ⟨_, rfl, ?_⟩
  try dsimp only
  repeat' first
    | with_reducible assumption
    | intro _
    | with_reducible apply State.tenEnd_keeps
    | with_reducible apply State.nmTenant_keeps
    | with_reducible apply State.setTen_keeps
    | with_reducible apply State.tenRun_keeps
    | with_reducible apply State.foldl_keeps
    | simp only [State.Keeps.lit]
    | simp only [State.Keeps.litDm, List.length_set]
    | with_reducible apply State.ite_keeps
    | with_reducible apply State.ite_fst_keeps
    | split

/-! ## Receive -/

theorem State.rxValidate_keeps {q : List Instr} {s : State} (p : Nat) (body : List Byte) (fs : List Frame) (h0 : s.Keeps
    q) :
    (State.rxValidate s p body fs).Keeps q := by
  unfold State.rxValidate
  try dsimp only
  repeat' first
    | with_reducible assumption
    | with_reducible apply State.releaseAll_keeps
    | with_reducible apply State.msecValidate_keeps
    | with_reducible refine State.msecValidate_keeps_eq ?_ ‹_›
    | with_reducible apply State.arriveAll_keeps
    | simp only [State.Keeps.lit]
    | with_reducible apply State.ite_keeps
    | with_reducible apply State.ite_fst_keeps
    | split

theorem execCipherOpStart_keeps {q : List Instr} {s : State} (h0 : s.Keeps q) :
    ∃ u, execCipherOpStart s = .next u ∧ u.Keeps q := by
  refine ⟨_, rfl, ?_⟩
  try dsimp only
  repeat' first
    | with_reducible assumption
    | with_reducible apply State.cphBegin_keeps
    | with_reducible apply State.rxValidate_keeps
    | simp only [State.Keeps.lit]
    | with_reducible apply State.ite_keeps
    | with_reducible apply State.ite_fst_keeps
    | split

theorem State.rxFail_keeps {q : List Instr} {s : State} (p : Nat) (b_e : RxFail) (h0 : s.Keeps q) :
    (State.rxFail s p b_e).Keeps q := by
  unfold State.rxFail
  try dsimp only
  repeat' first
    | with_reducible assumption
    | with_reducible apply State.setFlag_keeps
    | with_reducible apply State.inc_keeps
    | with_reducible apply State.ite_keeps

theorem State.rxPass_keeps {q : List Instr} {s : State} (p : Nat) (len : Nat) (h0 : s.Keeps q) :
    (State.rxPass s p len).Keeps q := by
  unfold State.rxPass
  try dsimp only
  repeat' first
    | with_reducible assumption
    | with_reducible apply State.addCnt64_keeps
    | with_reducible apply State.inc_keeps
    | with_reducible apply State.ite_keeps

theorem State.rxControl_keeps {q : List Instr} {s : State} (p : Nat) (h0 : s.Keeps q) :
    (State.rxControl s p).Keeps q := by
  unfold State.rxControl
  try dsimp only
  repeat' first
    | with_reducible assumption
    | with_reducible apply State.inc_keeps
    | with_reducible apply State.ite_keeps

theorem State.rxForward_keeps {q : List Instr} {s : State} (p : Nat) (bs : List Byte) (fs : List Frame) (h0 : s.Keeps q) :
    (State.rxForward s p bs fs).Keeps q := by
  unfold State.rxForward
  try dsimp only
  repeat' first
    | with_reducible assumption
    | with_reducible apply State.releaseAll_keeps
    | with_reducible apply State.rxValidate_keeps
    | with_reducible apply State.arriveAll_keeps
    | simp only [State.Keeps.lit]
    | with_reducible apply State.ite_keeps
    | with_reducible apply State.ite_fst_keeps
    | split

theorem State.rxEnd_keeps {q : List Instr} {s : State} (p : Nat) (maxLen : Nat) (bs : List Byte) (rx : RxCond) (fs :
    List Frame) (h0 : s.Keeps q) :
    (State.rxEnd s p maxLen bs rx fs).Keeps q := by
  unfold State.rxEnd
  try dsimp only
  repeat' first
    | with_reducible assumption
    | with_reducible apply State.rxControl_keeps
    | with_reducible apply State.releaseAll_keeps
    | with_reducible apply State.rxForward_keeps
    | with_reducible apply State.rxFail_keeps
    | with_reducible apply State.rxPass_keeps
    | simp only [State.Keeps.lit]
    | with_reducible apply State.ite_keeps
    | with_reducible apply State.ite_fst_keeps
    | split

theorem execFrameReceive_keeps {q : List Instr} (port : Nat) (bytes : List Byte) (rx : RxCond) (age : Nat) {s : State}
    (h0 : s.Keeps q) :
    ∃ u, execFrameReceive port bytes rx age s = .next u ∧ u.Keeps q := by
  refine ⟨_, rfl, ?_⟩
  try dsimp only
  repeat' first
    | with_reducible assumption
    | with_reducible apply State.rxEnd_keeps
    | with_reducible apply State.hold_keeps
    | with_reducible refine State.hold_keeps_eq ?_ ‹_›
    | simp only [State.Keeps.lit]
    | with_reducible apply State.ite_keeps
    | with_reducible apply State.ite_fst_keeps
    | split

theorem State.dropWaiting_keeps {q : List Instr} {s : State} (h0 : s.Keeps q) :
    (State.dropWaiting s).Keeps q := by
  unfold State.dropWaiting
  try dsimp only
  repeat' first
    | with_reducible assumption
    | intro _
    | with_reducible apply State.releaseAll_keeps
    | with_reducible apply State.foldl_keeps
    | simp only [State.Keeps.lit]
    | simp only [State.Keeps.litDm, List.length_set]
    | with_reducible apply State.ite_keeps
    | with_reducible apply State.ite_fst_keeps
    | split

/-! ## Reset -/

theorem State.outside_keeps {q : List Instr} {s : State} (h0 : s.Keeps q) : (State.outside s).Keeps q where
  queue := h0.queue
  inv :=
    { regs := rfl, active := rfl, shadow := rfl, lpddr := rfl, capSram := rfl, mcMem := rfl, host0 := h0.inv.host0,
      host1 := h0.inv.host1, ao := Nat.two_pow_pos 48, errFifo := Nat.zero_le _, txts := Nat.zero_le _,
      wrec := Nat.zero_le _, ldgQ := Nat.zero_le _, ctxs := List.length_replicate, tbCount := rfl, tbs := rfl,
      beats := rfl, eras := rfl }

theorem State.survive_keeps {q : List Instr} {s : State} (keep : Nat → Bool) (h0 : s.Keeps q) : (State.survive s
    keep).Keeps q := by
  unfold State.survive
  refine State.foldl_keeps (fun t f ht => State.put_keeps ht _ _) _ ?_
  have h1 := State.outside_keeps h0
  refine ⟨{ h1.inv with regs := ?_, ao := h0.inv.ao, wrec := h0.inv.wrec }, h1.queue⟩
  have hr := h0.inv.regs
  unfold regsWf at hr ⊢
  rw [Bool.and_eq_true] at hr ⊢
  refine ⟨tabSorted_filter _ hr.1, List.all_eq_true.mpr fun x hx => ?_⟩
  exact List.all_eq_true.mp hr.2 x (List.mem_filter.mp hx).1

theorem State.resetKeep_keeps {q : List Instr} {s : State} (h0 : s.Keeps q) :
    (State.resetKeep s).Keeps q := by
  unfold State.resetKeep
  try dsimp only
  repeat' first
    | with_reducible assumption
    | with_reducible apply State.survive_keeps
    | with_reducible apply State.put_keeps
    | with_reducible apply State.ite_keeps

theorem State.resetBy_keeps {q : List Instr} {s : State} (cause : Fld) (h0 : s.Keeps q) :
    (State.resetBy s cause).Keeps q := by
  unfold State.resetBy
  try dsimp only
  repeat' first
    | with_reducible assumption
    | with_reducible apply State.put_keeps
    | with_reducible apply State.resetKeep_keeps
    | with_reducible apply State.ite_keeps

theorem State.writeSwreset_keeps {q : List Instr} {s : State} (key : Nat) (go : Bool) (h0 : s.Keeps q) :
    (State.writeSwreset s key go).Keeps q := by
  unfold State.writeSwreset
  try dsimp only
  repeat' first
    | with_reducible assumption
    | with_reducible apply State.accessErr_keeps
    | with_reducible apply State.resetBy_keeps
    | with_reducible apply State.ite_keeps

theorem execGlbSwreset_keeps {q : List Instr} (r : Requester) (key : Nat) (go : Bool) {s : State} (h0 : s.Keeps q) :
    ∃ u, execGlbSwreset r key go s = .next u ∧ u.Keeps q := by
  refine ⟨_, rfl, ?_⟩
  try dsimp only
  repeat' first
    | with_reducible assumption
    | intro _
    | with_reducible apply State.gated_keeps
    | with_reducible apply State.writeSwreset_keeps
    | with_reducible apply State.foldl_keeps
    | simp only [State.Keeps.lit]
    | simp only [State.Keeps.litDm, List.length_set]
    | with_reducible apply State.ite_keeps
    | with_reducible apply State.ite_fst_keeps
    | split

theorem execPowerOnReset_keeps {q : List Instr} {s : State} (h0 : s.Keeps q) :
    ∃ u, execPowerOnReset s = .next u ∧ u.Keeps q := by
  refine ⟨_, rfl, ?_⟩
  try dsimp only
  repeat' first
    | with_reducible assumption
    | with_reducible apply State.outside_keeps
    | with_reducible apply State.ite_keeps

theorem State.shortPulse_keeps {q : List Instr} {s : State} (cause : Fld) (h0 : s.Keeps q) :
    (State.shortPulse s cause).Keeps q := by
  unfold State.shortPulse
  try dsimp only
  repeat' first
    | with_reducible assumption
    | with_reducible apply State.fresh_keeps
    | with_reducible apply State.resetBy_keeps
    | with_reducible apply State.ite_keeps

theorem execResetNLow_keeps {q : List Instr} (held : Bool) {s : State} (h0 : s.Keeps q) :
    ∃ u, execResetNLow held s = .next u ∧ u.Keeps q := by
  refine ⟨_, rfl, ?_⟩
  try dsimp only
  repeat' first
    | with_reducible assumption
    | with_reducible apply State.shortPulse_keeps
    | with_reducible apply State.resetBy_keeps
    | with_reducible apply State.ite_keeps

theorem execPwrGoodLow_keeps {q : List Instr} (held : Bool) {s : State} (h0 : s.Keeps q) :
    ∃ u, execPwrGoodLow held s = .next u ∧ u.Keeps q := by
  refine ⟨_, rfl, ?_⟩
  try dsimp only
  repeat' first
    | with_reducible assumption
    | with_reducible apply State.shortPulse_keeps
    | with_reducible apply State.resetBy_keeps
    | with_reducible apply State.ite_keeps

theorem execSupplyMonitorReset_keeps {q : List Instr} {s : State} (h0 : s.Keeps q) :
    ∃ u, execSupplyMonitorReset s = .next u ∧ u.Keeps q := by
  refine ⟨_, rfl, ?_⟩
  try dsimp only
  repeat' first
    | with_reducible assumption
    | with_reducible apply State.resetBy_keeps
    | with_reducible apply State.ite_keeps

theorem execThermalReset_keeps {q : List Instr} {s : State} (h0 : s.Keeps q) :
    ∃ u, execThermalReset s = .next u ∧ u.Keeps q := by
  refine ⟨_, rfl, ?_⟩
  try dsimp only
  repeat' first
    | with_reducible assumption
    | with_reducible apply State.resetBy_keeps
    | with_reducible apply State.ite_keeps

theorem execDebugReset_keeps {q : List Instr} {s : State} (h0 : s.Keeps q) :
    ∃ u, execDebugReset s = .next u ∧ u.Keeps q := by
  refine ⟨_, rfl, ?_⟩
  try dsimp only
  repeat' first
    | with_reducible assumption
    | with_reducible apply State.resetBy_keeps
    | with_reducible apply State.ite_keeps

theorem State.release1_keeps {q : List Instr} {s : State} (mode : Nat) (splitN : Bool) (h0 : s.Keeps q) :
    (State.release1 s mode splitN).Keeps q := by
  unfold State.release1
  try dsimp only
  repeat' first
    | with_reducible assumption
    | intro _
    | with_reducible apply State.put_keeps
    | with_reducible apply State.domUp_keeps
    | with_reducible apply State.drawNonce_keeps
    | with_reducible apply State.foldl_keeps
    | simp only [State.Keeps.lit]
    | simp only [State.Keeps.litDm, List.length_set]
    | with_reducible apply State.ite_keeps
    | with_reducible apply State.ite_fst_keeps
    | split

theorem execResetRelease_keeps {q : List Instr} (bootMode : Nat) (splitN : Bool) {s : State} (h0 : s.Keeps q) :
    ∃ u, execResetRelease bootMode splitN s = .next u ∧ u.Keeps q := by
  refine ⟨_, rfl, ?_⟩
  try dsimp only
  repeat' first
    | with_reducible assumption
    | with_reducible apply State.release1_keeps
    | with_reducible apply State.ite_keeps

/-! ## Boot -/

theorem State.bootStep_keeps {q : List Instr} {s : State} (n : Nat) (h0 : s.Keeps q) :
    (State.bootStep s n).Keeps q := by
  unfold State.bootStep
  try dsimp only
  repeat' first
    | with_reducible assumption
    | simp only [State.Keeps.lit]
    | with_reducible apply State.ite_keeps
    | with_reducible apply State.ite_fst_keeps
    | split

theorem State.bootFail_keeps {q : List Instr} {s : State} (code : Nat) (h0 : s.Keeps q) :
    (State.bootFail s code).Keeps q := by
  unfold State.bootFail
  try dsimp only
  repeat' first
    | with_reducible assumption
    | with_reducible apply State.putMode_keeps
    | with_reducible apply State.put_keeps
    | with_reducible apply State.errCause_keeps
    | simp only [State.Keeps.lit]
    | with_reducible apply State.ite_keeps
    | with_reducible apply State.ite_fst_keeps
    | split

theorem State.bootRetry_keeps {q : List Instr} {s : State} (code : Nat) (h0 : s.Keeps q) :
    (State.bootRetry s code).Keeps q := by
  unfold State.bootRetry
  try dsimp only
  repeat' first
    | with_reducible assumption
    | with_reducible apply State.bootStep_keeps
    | with_reducible apply State.put_keeps
    | with_reducible apply State.bootFail_keeps
    | with_reducible apply State.ite_keeps

theorem State.restoreSlots_keeps {q : List Instr} {s : State} (h0 : s.Keeps q) :
    (State.restoreSlots s).Keeps q := by
  unfold State.restoreSlots
  try dsimp only
  repeat' first
    | with_reducible assumption
    | intro _
    | with_reducible apply State.setSlot_keeps
    | with_reducible apply State.foldl_keeps
    | simp only [State.Keeps.lit]
    | simp only [State.Keeps.litDm, List.length_set]
    | with_reducible apply State.ite_keeps
    | with_reducible apply State.ite_fst_keeps
    | split

theorem State.bootDirectory_keeps {q : List Instr} {s : State} (o : BootOutcome) (h0 : s.Keeps q) :
    (State.bootDirectory s o).Keeps q := by
  unfold State.bootDirectory
  try dsimp only
  repeat' first
    | with_reducible assumption
    | with_reducible apply State.bootRetry_keeps
    | with_reducible apply State.restoreSlots_keeps
    | with_reducible apply State.bootStep_keeps
    | simp only [State.Keeps.lit]
    | with_reducible apply State.ite_keeps
    | with_reducible apply State.ite_fst_keeps
    | split

theorem State.writeHostGo_keeps {q : List Instr} {s : State} (r : Requester) (go : Bool) (h0 : s.Keeps q) :
    (State.writeHostGo s r go).Keeps q := by
  unfold State.writeHostGo
  try dsimp only
  repeat' first
    | with_reducible assumption
    | simp only [State.Keeps.lit]
    | with_reducible apply State.ite_keeps
    | with_reducible apply State.ite_fst_keeps
    | split

theorem State.bootCores_keeps {q : List Instr} {s : State} (h0 : s.Keeps q) :
    (State.bootCores s).Keeps q := by
  unfold State.bootCores
  try dsimp only
  repeat' first
    | with_reducible assumption
    | with_reducible apply State.putMode_keeps
    | with_reducible apply State.bootStep_keeps
    | with_reducible apply State.put_keeps
    | with_reducible apply State.bootFail_keeps
    | with_reducible apply State.ite_keeps

theorem State.makeSlot6_keeps {q : List Instr} {s : State} (h0 : s.Keeps q) :
    (State.makeSlot6 s).Keeps q := by
  unfold State.makeSlot6
  try dsimp only
  repeat' first
    | with_reducible assumption
    | with_reducible apply State.random_keeps
    | with_reducible apply State.setSlot_keeps
    | with_reducible apply State.ite_keeps

theorem State.bootFirmware_keeps {q : List Instr} {s : State} (o : BootOutcome) (h0 : s.Keeps q) :
    (State.bootFirmware s o).Keeps q := by
  unfold State.bootFirmware
  try dsimp only
  repeat' first
    | with_reducible assumption
    | with_reducible apply State.bootRetry_keeps
    | with_reducible apply State.bootStep_keeps
    | with_reducible apply State.put_keeps
    | with_reducible apply State.ite_keeps

theorem State.trained_keeps {q : List Instr} {s : State} (gib : Nat) (h0 : s.Keeps q) :
    (State.trained s gib).Keeps q := by
  unfold State.trained
  try dsimp only
  repeat' first
    | with_reducible assumption
    | with_reducible apply State.put_keeps
    | with_reducible apply State.ite_keeps

theorem State.bootPower_keeps {q : List Instr} {s : State} (img : List Host.Cell) (h0 : s.Keeps q) :
    (State.bootPower s img).Keeps q := by
  unfold State.bootPower
  try dsimp only
  repeat' first
    | with_reducible assumption
    | with_reducible apply State.setCond_keeps
    | with_reducible apply State.loadPOWERMAP_keeps
    | with_reducible apply State.powerUp_keeps
    | with_reducible apply State.ite_keeps

theorem State.bootChart_keeps {q : List Instr} {s : State} (o : BootOutcome) (h0 : s.Keeps q) : (State.bootChart s
    o).Keeps q := by
  unfold State.bootChart
  dsimp only
  generalize s.bootBytes o.chart (dirChartOff s.pwr.dir) (dirChartLen s.pwr.dir) = b
  split
  · exact State.bootRetry_keeps _ (State.chError_keeps _ _ _ h0)
  · have h1 : (if pwrMode (memPut [] 0 b) 11 = 0 then s else s.trained o.lpddrGib).Keeps q := by
      split
      · exact h0
      · exact State.trained_keeps _ h0
    generalize (if pwrMode (memPut [] 0 b) 11 = 0 then s else s.trained o.lpddrGib) = s1 at h1 ⊢
    split
    · exact State.bootRetry_keeps _ (State.chError_keeps _ _ _ h1)
    · exact State.bootStep_keeps _ (State.bootPower_keeps _
        ⟨{ h1.inv with active := Memory.wf_memPut _ _ Memory.wf_nil }, h1.queue⟩)

theorem State.bootApply_keeps {q : List Instr} {s : State} (h0 : s.Keeps q) : (State.bootApply s).Keeps q := by
  unfold State.bootApply
  dsimp only
  have h1 := State.put_keeps (State.carChart_keeps (q := q) s.active (State.rulesIn_keeps .A s.active s.epoch
    (State.layPlane_keeps .A s.active h0))) GLB_DEVSTATE_PA_COND Cond.inService.code
  have h2 : ∀ t : State, t.Keeps q → ({ t with active := [] } : State).Keeps q :=
    fun t ht => ⟨{ ht.inv with active := Memory.wf_nil }, ht.queue⟩
  exact State.bootStep_keeps _ (State.powerRelease_keeps (State.put_keeps (State.activate_keeps _ (h2 _ h1)
      h0.inv.active) _ _))

theorem State.bootHandover_keeps {q : List Instr} {s : State} (h0 : s.Keeps q) :
    (State.bootHandover s).Keeps q := by
  unfold State.bootHandover
  try dsimp only
  repeat' first
    | with_reducible assumption
    | with_reducible apply State.enterService_keeps
    | with_reducible apply State.enter_keeps
    | simp only [State.Keeps.lit]
    | with_reducible apply State.ite_keeps
    | with_reducible apply State.ite_fst_keeps
    | split

theorem State.bootNext_keeps {q : List Instr} {s : State} (o : BootOutcome) (h0 : s.Keeps q) :
    (State.bootNext s o).Keeps q := by
  unfold State.bootNext
  try dsimp only
  repeat' first
    | with_reducible assumption
    | with_reducible apply State.bootHandover_keeps
    | with_reducible apply State.makeSlot6_keeps
    | with_reducible apply State.bootDirectory_keeps
    | with_reducible apply State.bootFirmware_keeps
    | with_reducible apply State.bootStep_keeps
    | with_reducible apply State.put_keeps
    | with_reducible apply State.bootApply_keeps
    | with_reducible apply State.bootChart_keeps
    | with_reducible apply State.bootFail_keeps
    | with_reducible apply State.bootCores_keeps
    | simp only [State.Keeps.lit]
    | with_reducible apply State.ite_keeps
    | with_reducible apply State.ite_fst_keeps
    | split

theorem execBootStepDone_keeps {q : List Instr} (outcome : BootOutcome) {s : State} (h0 : s.Keeps q) :
    ∃ u, execBootStepDone outcome s = .next u ∧ u.Keeps q := by
  refine ⟨_, rfl, ?_⟩
  try dsimp only
  repeat' first
    | with_reducible assumption
    | with_reducible apply State.bootNext_keeps
    | with_reducible apply State.ite_keeps

theorem execPwrHostbootGo_keeps {q : List Instr} (r : Requester) (go : Bool) {s : State} (h0 : s.Keeps q) :
    ∃ u, execPwrHostbootGo r go s = .next u ∧ u.Keeps q := by
  refine ⟨_, rfl, ?_⟩
  try dsimp only
  repeat' first
    | with_reducible assumption
    | intro _
    | with_reducible apply State.gated_keeps
    | with_reducible apply State.writeHostGo_keeps
    | with_reducible apply State.foldl_keeps
    | simp only [State.Keeps.lit]
    | simp only [State.Keeps.litDm, List.length_set]
    | with_reducible apply State.ite_keeps
    | with_reducible apply State.ite_fst_keeps
    | split

theorem State.joinPlaneB_keeps {q : List Instr} {s : State} (h0 : s.Keeps q) :
    (State.joinPlaneB s).Keeps q := by
  unfold State.joinPlaneB
  try dsimp only
  repeat' first
    | with_reducible assumption
    | with_reducible apply State.rebuilt_keeps
    | with_reducible apply State.resynced_keeps
    | simp only [State.Keeps.lit]
    | with_reducible apply State.ite_keeps
    | with_reducible apply State.ite_fst_keeps
    | split

theorem execBootPlaneBJoin_keeps {q : List Instr} {s : State} (h0 : s.Keeps q) :
    ∃ u, execBootPlaneBJoin s = .next u ∧ u.Keeps q := by
  refine ⟨_, rfl, ?_⟩
  try dsimp only
  repeat' first
    | with_reducible assumption
    | with_reducible apply State.joinPlaneB_keeps
    | with_reducible apply State.ite_keeps

/-! ## Power -/

theorem State.rqResult_keeps {q : List Instr} {s : State} (n : Nat) (h0 : s.Keeps q) :
    (State.rqResult s n).Keeps q := by
  unfold State.rqResult
  try dsimp only
  repeat' first
    | with_reducible assumption
    | with_reducible apply State.put_keeps
    | with_reducible apply State.ite_keeps

theorem State.request_keeps {q : List Instr} {s : State} (r : Requester) (tie : Bool) {hold : State → Bool} (a4 : List
    DevState) {ready : State → Bool} {act : State → State} (h0 : s.Keeps q) (h1 : ∀ (t : State), t.Keeps q → (act t
    ).Keeps q) :
    (State.request s r tie hold a4 ready act).Keeps q := by
  unfold State.request
  try dsimp only
  repeat' first
    | with_reducible assumption
    | intro _
    | with_reducible apply h1
    | with_reducible apply State.gated_keeps
    | with_reducible apply State.rqResult_keeps
    | with_reducible apply State.ite_keeps

theorem State.startSleep_keeps {q : List Instr} {s : State} (d : Bool) (h0 : s.Keeps q) :
    (State.startSleep s d).Keeps q := by
  unfold State.startSleep
  try dsimp only
  repeat' first
    | with_reducible assumption
    | intro _
    | with_reducible apply State.disarmShadow_keeps
    | with_reducible apply State.rqResult_keeps
    | with_reducible apply State.put_keeps
    | with_reducible apply State.carSleep_keeps
    | with_reducible apply State.knellNow_keeps
    | with_reducible apply State.foldl_keeps
    | simp only [State.Keeps.lit]
    | simp only [State.Keeps.litDm, List.length_set]
    | with_reducible apply State.ite_keeps
    | with_reducible apply State.ite_fst_keeps
    | split

theorem State.reqSleep_keeps {q : List Instr} {s : State} (r : Requester) (tie : Bool) (d : Bool) (h0 : s.Keeps q) :
    (State.reqSleep s r tie d).Keeps q := by
  unfold State.reqSleep
  try dsimp only
  repeat' first
    | with_reducible assumption
    | intro _
    | with_reducible apply State.startSleep_keeps
    | with_reducible apply State.request_keeps
    | with_reducible apply State.foldl_keeps
    | simp only [State.Keeps.lit]
    | simp only [State.Keeps.litDm, List.length_set]
    | with_reducible apply State.ite_keeps
    | with_reducible apply State.ite_fst_keeps
    | split

theorem execReqSleepR_keeps {q : List Instr} (r : Requester) (tie : Bool) {s : State} (h0 : s.Keeps q) :
    ∃ u, execReqSleepR r tie s = .next u ∧ u.Keeps q := by
  refine ⟨_, rfl, ?_⟩
  try dsimp only
  repeat' first
    | with_reducible assumption
    | with_reducible apply State.reqSleep_keeps
    | with_reducible apply State.ite_keeps

theorem State.reqRun_keeps {q : List Instr} {s : State} (r : Requester) (tie : Bool) (h0 : s.Keeps q) :
    (State.reqRun s r tie).Keeps q := by
  unfold State.reqRun
  try dsimp only
  repeat' first
    | with_reducible assumption
    | intro _
    | with_reducible apply State.rqResult_keeps
    | with_reducible apply State.request_keeps
    | with_reducible apply State.enter_keeps
    | with_reducible apply State.foldl_keeps
    | simp only [State.Keeps.lit]
    | simp only [State.Keeps.litDm, List.length_set]
    | with_reducible apply State.ite_keeps
    | with_reducible apply State.ite_fst_keeps
    | split

theorem State.reqTest_keeps {q : List Instr} {s : State} (r : Requester) (tie : Bool) (h0 : s.Keeps q) :
    (State.reqTest s r tie).Keeps q := by
  unfold State.reqTest
  try dsimp only
  repeat' first
    | with_reducible assumption
    | intro _
    | with_reducible apply State.rqResult_keeps
    | with_reducible apply State.request_keeps
    | with_reducible apply State.enter_keeps
    | with_reducible apply State.foldl_keeps
    | simp only [State.Keeps.lit]
    | simp only [State.Keeps.litDm, List.length_set]
    | with_reducible apply State.ite_keeps
    | with_reducible apply State.ite_fst_keeps
    | split

theorem State.reqRecovery_keeps {q : List Instr} {s : State} (r : Requester) (tie : Bool) (h0 : s.Keeps q) :
    (State.reqRecovery s r tie).Keeps q := by
  unfold State.reqRecovery
  try dsimp only
  repeat' first
    | with_reducible assumption
    | intro _
    | with_reducible apply State.rqResult_keeps
    | with_reducible apply State.request_keeps
    | with_reducible apply State.enter_keeps
    | with_reducible apply State.foldl_keeps
    | simp only [State.Keeps.lit]
    | simp only [State.Keeps.litDm, List.length_set]
    | with_reducible apply State.ite_keeps
    | with_reducible apply State.ite_fst_keeps
    | split

theorem State.writeDom_keeps {q : List Instr} {s : State} (off : Nat) (h0 : s.Keeps q) :
    (State.writeDom s off).Keeps q := by
  unfold State.writeDom
  try dsimp only
  repeat' first
    | with_reducible assumption
    | intro _
    | with_reducible apply State.setFlag_keeps
    | with_reducible apply State.channelsUp_keeps
    | with_reducible apply State.domDown_keeps
    | with_reducible apply State.put_keeps
    | with_reducible apply State.domUp_keeps
    | with_reducible apply State.foldl_keeps
    | simp only [State.Keeps.lit]
    | simp only [State.Keeps.litDm, List.length_set]
    | with_reducible apply State.ite_keeps
    | with_reducible apply State.ite_fst_keeps
    | split

theorem execReqRun_keeps {q : List Instr} (r : Requester) (tie : Bool) {s : State} (h0 : s.Keeps q) :
    ∃ u, execReqRun r tie s = .next u ∧ u.Keeps q := by
  refine ⟨_, rfl, ?_⟩
  try dsimp only
  repeat' first
    | with_reducible assumption
    | with_reducible apply State.reqRun_keeps
    | with_reducible apply State.ite_keeps

theorem execReqTest_keeps {q : List Instr} (r : Requester) (tie : Bool) {s : State} (h0 : s.Keeps q) :
    ∃ u, execReqTest r tie s = .next u ∧ u.Keeps q := by
  refine ⟨_, rfl, ?_⟩
  try dsimp only
  repeat' first
    | with_reducible assumption
    | with_reducible apply State.reqTest_keeps
    | with_reducible apply State.ite_keeps

theorem execReqRecovery_keeps {q : List Instr} (r : Requester) (tie : Bool) {s : State} (h0 : s.Keeps q) :
    ∃ u, execReqRecovery r tie s = .next u ∧ u.Keeps q := by
  refine ⟨_, rfl, ?_⟩
  try dsimp only
  repeat' first
    | with_reducible assumption
    | with_reducible apply State.reqRecovery_keeps
    | with_reducible apply State.ite_keeps

theorem execReqSleepD_keeps {q : List Instr} (r : Requester) (tie : Bool) {s : State} (h0 : s.Keeps q) :
    ∃ u, execReqSleepD r tie s = .next u ∧ u.Keeps q := by
  refine ⟨_, rfl, ?_⟩
  try dsimp only
  repeat' first
    | with_reducible assumption
    | with_reducible apply State.reqSleep_keeps
    | with_reducible apply State.ite_keeps

theorem State.sleepAt_keeps {q : List Instr} {s : State} (n : Nat) (h0 : s.Keeps q) :
    (State.sleepAt s n).Keeps q := by
  unfold State.sleepAt
  try dsimp only
  repeat' first
    | with_reducible assumption
    | simp only [State.Keeps.lit]
    | with_reducible apply State.ite_keeps
    | with_reducible apply State.ite_fst_keeps
    | split

theorem State.powerOff_keeps {q : List Instr} {s : State} (h0 : s.Keeps q) :
    (State.powerOff s).Keeps q := by
  unfold State.powerOff
  try dsimp only
  repeat' first
    | with_reducible assumption
    | intro _
    | with_reducible apply State.clpOff_keeps
    | with_reducible apply State.domDown_keeps
    | with_reducible apply State.put_keeps
    | with_reducible apply State.setCond_keeps
    | with_reducible apply State.foldl_keeps
    | simp only [State.Keeps.lit]
    | simp only [State.Keeps.litDm, List.length_set]
    | with_reducible apply State.ite_keeps
    | with_reducible apply State.ite_fst_keeps
    | split

theorem State.recordWake_keeps {q : List Instr} {s : State} (ev : WakeEv) (h0 : s.Keeps q) :
    (State.recordWake s ev).Keeps q := by
  unfold State.recordWake
  try dsimp only
  repeat' first
    | with_reducible assumption
    | with_reducible apply State.wakeRecord_keeps
    | with_reducible apply State.ite_keeps

theorem State.leaveSleep_keeps {q : List Instr} {s : State} (h0 : s.Keeps q) :
    (State.leaveSleep s).Keeps q := by
  unfold State.leaveSleep
  try dsimp only
  repeat' first
    | with_reducible assumption
    | with_reducible apply State.put_keeps
    | with_reducible apply State.recordWake_keeps
    | with_reducible apply State.domUp_keeps
    | with_reducible apply State.resetBy_keeps
    | simp only [State.Keeps.lit]
    | with_reducible apply State.ite_keeps
    | with_reducible apply State.ite_fst_keeps
    | split

theorem State.sleepNext_keeps {q : List Instr} {s : State} (h0 : s.Keeps q) : (State.sleepNext s).Keeps q := by
  unfold State.sleepNext
  dsimp only
  split
  · exact State.sleepAt_keeps _ (State.foldl_keeps (fun _ _ h => State.knellDone_keeps _ h) _ h0)
  · exact State.sleepAt_keeps _ (State.addCnt_keeps _ _ (State.dumpPlane_keeps _ _ (State.dumpPlane_keeps _ _ h0)))
  · exact State.sleepAt_keeps _ (State.powerOff_keeps h0)
  · have h1 := State.sleepAt_keeps 6 (State.inc_keeps PWR_SLEEP_CNT_VAL (State.put_keeps h0 GLB_DEVSTATE_LAST_SLEEP
      (if s.pwr.sleepD = true then 2 else 1)))
    generalize (((s.put GLB_DEVSTATE_LAST_SLEEP (if s.pwr.sleepD = true then 2 else 1)).inc PWR_SLEEP_CNT_VAL).sleepAt
        6) = t
      at h1 ⊢
    refine State.leaveSleep_keeps ?_
    split
    · exact State.setShadow_keeps _ ⟨{ h1.inv with shadow := Memory.wf_nil }, h1.queue⟩
    · exact h1
  · exact h0

theorem execSleepEntryAdvance_keeps {q : List Instr} {s : State} (h0 : s.Keeps q) :
    ∃ u, execSleepEntryAdvance s = .next u ∧ u.Keeps q := by
  refine ⟨_, rfl, ?_⟩
  try dsimp only
  repeat' first
    | with_reducible assumption
    | with_reducible apply State.sleepNext_keeps
    | with_reducible apply State.ite_keeps

theorem execPwrDomWrite_keeps {q : List Instr} (r : Requester) (off : Nat) {s : State} (h0 : s.Keeps q) :
    ∃ u, execPwrDomWrite r off s = .next u ∧ u.Keeps q := by
  refine ⟨_, rfl, ?_⟩
  try dsimp only
  repeat' first
    | with_reducible assumption
    | intro _
    | with_reducible apply State.gated_keeps
    | with_reducible apply State.writeDom_keeps
    | with_reducible apply State.foldl_keeps
    | simp only [State.Keeps.lit]
    | simp only [State.Keeps.litDm, List.length_set]
    | with_reducible apply State.ite_keeps
    | with_reducible apply State.ite_fst_keeps
    | split

theorem execSleepRWake_keeps {q : List Instr} {s : State} (h0 : s.Keeps q) :
    ∃ u, execSleepRWake s = .next u ∧ u.Keeps q := by
  refine ⟨_, rfl, ?_⟩
  try dsimp only
  repeat' first
    | with_reducible assumption
    | with_reducible apply State.leaveSleep_keeps
    | with_reducible apply State.ite_keeps

theorem State.exitAt_keeps {q : List Instr} {s : State} (n : Nat) (h0 : s.Keeps q) :
    (State.exitAt s n).Keeps q := by
  unfold State.exitAt
  try dsimp only
  repeat' first
    | with_reducible assumption
    | simp only [State.Keeps.lit]
    | with_reducible apply State.ite_keeps
    | with_reducible apply State.ite_fst_keeps
    | split

theorem State.exitPower_keeps {q : List Instr} {s : State} (h0 : s.Keeps q) :
    (State.exitPower s).Keeps q := by
  unfold State.exitPower
  try dsimp only
  repeat' first
    | with_reducible assumption
    | intro _
    | with_reducible apply State.put_keeps
    | with_reducible apply State.domUp_keeps
    | with_reducible apply State.foldl_keeps
    | simp only [State.Keeps.lit]
    | simp only [State.Keeps.litDm, List.length_set]
    | with_reducible apply State.ite_keeps
    | with_reducible apply State.ite_fst_keeps
    | split

theorem State.reloadChart_keeps {q : List Instr} {s : State} (h0 : s.Keeps q) :
    (State.reloadChart s).Keeps q := by
  unfold State.reloadChart
  try dsimp only
  repeat' first
    | with_reducible assumption
    | intro _
    | with_reducible apply State.loadNmRegs_keeps
    | with_reducible apply State.putCar_keeps
    | with_reducible apply State.loadPLANE_keeps
    | with_reducible apply State.loadEGRESS_keeps
    | with_reducible apply State.put_keeps
    | with_reducible apply State.loadPORTMAP_keeps
    | with_reducible apply State.loadFRER_keeps
    | with_reducible apply State.loadZONES_keeps
    | with_reducible apply State.loadPools_keeps
    | with_reducible apply State.loadPARSEGRAPH_keeps
    | with_reducible apply State.loadPOWERMAP_keeps
    | with_reducible apply State.loadCapArea_keeps
    | with_reducible apply State.snareLoad_keeps
    | with_reducible apply State.loadLEGACY_keeps
    | with_reducible apply State.loadKEYTEMPL_keeps
    | with_reducible apply State.foldl_keeps
    | simp only [State.Keeps.lit]
    | simp only [State.Keeps.litDm, List.length_set]
    | with_reducible apply State.ite_keeps
    | with_reducible apply State.ite_fst_keeps
    | split

theorem State.retained_keeps {q : List Instr} {s : State} (h0 : s.Keeps q) : (State.retained s).Keeps q := by
  unfold State.retained
  have h1 := State.survive_keeps (fun a => keptReg a || retainedReg a) h0
  have hc : DrumMajor.reset.ctxs.length = 256 := by
    unfold DrumMajor.reset
    exact List.length_replicate
  have hl : Memory.wf (if s.flag PWR_MAP_LPDDR_SR = true then s.lpddr else []) = true := by
    split
    · exact h0.inv.lpddr
    · exact Memory.wf_nil
  generalize s.survive (fun a => keptReg a || retainedReg a) = r at h1 ⊢
  generalize (if s.flag PWR_MAP_LPDDR_SR = true then s.lpddr else []) = m at hl ⊢
  dsimp only
  repeat' first
    | with_reducible assumption
    | with_reducible apply State.put_keeps
    | with_reducible apply State.ite_keeps
  all_goals exact ⟨⟨h1.inv.regs, h0.inv.active, h0.inv.shadow, hl, h1.inv.capSram, h1.inv.mcMem, h1.inv.host0,
      h1.inv.host1,
    h1.inv.ao, h1.inv.errFifo, h1.inv.txts, h1.inv.wrec, h1.inv.ldgQ, hc, h1.inv.tbCount, h1.inv.tbs, h1.inv.beats,
        h1.inv.eras⟩,
    h1.queue⟩

theorem State.resumed_keeps {q : List Instr} {s : State} (h0 : s.Keeps q) :
    (State.resumed s).Keeps q := by
  unfold State.resumed
  try dsimp only
  repeat' first
    | with_reducible assumption
    | with_reducible apply State.setFlag_keeps
    | with_reducible apply State.retained_keeps
    | with_reducible apply State.exitPower_keeps
    | with_reducible apply State.reloadChart_keeps
    | with_reducible apply State.setCond_keeps
    | with_reducible apply State.enter_keeps
    | with_reducible apply State.ite_keeps

theorem State.retainErr_keeps {q : List Instr} {s : State} (h0 : s.Keeps q) :
    (State.retainErr s).Keeps q := by
  unfold State.retainErr
  try dsimp only
  repeat' first
    | with_reducible assumption
    | with_reducible apply State.setFlag_keeps
    | with_reducible apply State.put_keeps
    | with_reducible apply State.resetBy_keeps
    | with_reducible apply State.ite_keeps

theorem State.wakeClusters_keeps {q : List Instr} {s : State} (h0 : s.Keeps q) :
    (State.wakeClusters s).Keeps q := by
  unfold State.wakeClusters
  try dsimp only
  repeat' first
    | with_reducible assumption
    | intro _
    | with_reducible apply State.setFlag_keeps
    | with_reducible apply State.enterRepeat_keeps
    | with_reducible apply State.recordWake_keeps
    | with_reducible apply State.foldl_keeps
    | with_reducible apply State.foldl_fst_keeps
    | simp only [State.Keeps.lit]
    | simp only [State.Keeps.litDm, List.length_set]
    | with_reducible apply State.ite_keeps
    | with_reducible apply State.ite_fst_keeps
    | split

theorem State.upIf_keeps {q : List Instr} {s : State} (l : List Nat) (h0 : s.Keeps q) :
    (State.upIf s l).Keeps q := by
  unfold State.upIf
  try dsimp only
  repeat' first
    | with_reducible assumption
    | intro _
    | with_reducible apply State.domUp_keeps
    | with_reducible apply State.foldl_keeps
    | simp only [State.Keeps.lit]
    | simp only [State.Keeps.litDm, List.length_set]
    | with_reducible apply State.ite_keeps
    | with_reducible apply State.ite_fst_keeps
    | split

theorem State.exitFirmware_keeps {q : List Instr} {s : State} (ok : Bool) (cores : Nat) (h0 : s.Keeps q) :
    (State.exitFirmware s ok cores).Keeps q := by
  unfold State.exitFirmware
  try dsimp only
  repeat' first
    | with_reducible assumption
    | with_reducible apply State.upIf_keeps
    | with_reducible apply State.bootStep_keeps
    | with_reducible apply State.put_keeps
    | with_reducible apply State.exitAt_keeps
    | with_reducible apply State.bootFail_keeps
    | with_reducible apply State.bootCores_keeps
    | with_reducible apply State.ite_keeps

theorem State.exitPlaneB_keeps {q : List Instr} {s : State} (h0 : s.Keeps q) :
    (State.exitPlaneB s).Keeps q := by
  unfold State.exitPlaneB
  try dsimp only
  repeat' first
    | with_reducible assumption
    | with_reducible apply State.rebuilt_keeps
    | with_reducible apply State.exitAt_keeps
    | with_reducible apply State.setCond_keeps
    | with_reducible apply State.domUp_keeps
    | with_reducible apply State.resynced_keeps
    | with_reducible apply State.ite_keeps

theorem State.exitNext_keeps {q : List Instr} {s : State} (ok : Bool) (cores : Nat) (h0 : s.Keeps q) :
    (State.exitNext s ok cores).Keeps q := by
  unfold State.exitNext
  try dsimp only
  repeat' first
    | with_reducible assumption
    | with_reducible apply State.enterService_keeps
    | with_reducible apply State.channelsUp_keeps
    | with_reducible apply State.exitPower_keeps
    | with_reducible apply State.retainErr_keeps
    | with_reducible apply State.upIf_keeps
    | with_reducible apply State.put_keeps
    | with_reducible apply State.exitAt_keeps
    | with_reducible apply State.exitFirmware_keeps
    | with_reducible apply State.exitPlaneB_keeps
    | with_reducible apply State.wakeClusters_keeps
    | with_reducible apply State.resumed_keeps
    | simp only [State.Keeps.lit]
    | with_reducible apply State.ite_keeps
    | with_reducible apply State.ite_fst_keeps
    | split

theorem execWakeExitAdvance_keeps {q : List Instr} (ok : Bool) (cores : Nat) {s : State} (h0 : s.Keeps q) :
    ∃ u, execWakeExitAdvance ok cores s = .next u ∧ u.Keeps q := by
  refine ⟨_, rfl, ?_⟩
  try dsimp only
  repeat' first
    | with_reducible assumption
    | with_reducible apply State.exitNext_keeps
    | with_reducible apply State.ite_keeps

theorem execSleepDWake_keeps {q : List Instr} {s : State} (h0 : s.Keeps q) :
    ∃ u, execSleepDWake s = .next u ∧ u.Keeps q := by
  refine ⟨_, rfl, ?_⟩
  try dsimp only
  repeat' first
    | with_reducible assumption
    | with_reducible apply State.leaveSleep_keeps
    | with_reducible apply State.ite_keeps

theorem execWakeTimer_keeps {q : List Instr} {s : State} (h0 : s.Keeps q) :
    ∃ u, execWakeTimer s = .next u ∧ u.Keeps q := by
  refine ⟨_, rfl, ?_⟩
  try dsimp only
  repeat' first
    | with_reducible assumption
    | with_reducible apply State.deviceWake_keeps
    | with_reducible apply State.ite_keeps

end Sys2Proof.Machine
end

