-- ==== Sys2Proof/Laws/Keeps10.lean ====
section
/-! SUPPORT. What each operation of RasCommands, RegisterRead, RegisterWrite, Safety keeps: the good form, and the
    queue. -/

namespace Sys2Proof.Machine

/-! ## RasCommands -/

theorem State.popErr_keeps {q : List Instr} {s : State} (h0 : s.Keeps q) : (State.popErr s).Keeps q :=
  ⟨{ h0.inv with errFifo := Nat.le_trans (by simp [State.popErr]) h0.inv.errFifo }, h0.queue⟩

theorem State.writeWdgAns_keeps {q : List Instr} {s : State} (ans : Nat) (tie : Bool) (h0 : s.Keeps q) :
    (State.writeWdgAns s ans tie).Keeps q := by
  unfold State.writeWdgAns
  try dsimp only
  repeat' first
    | with_reducible assumption
    | with_reducible apply State.put_keeps
    | simp only [State.Keeps.lit]
    | with_reducible apply State.ite_keeps
    | with_reducible apply State.ite_fst_keeps
    | split

theorem State.alarm_keeps {q : List Instr} {s : State} (b : Nat) (h0 : s.Keeps q) :
    (State.alarm s b).Keeps q := by
  unfold State.alarm
  try dsimp only
  repeat' first
    | with_reducible assumption
    | with_reducible apply State.setFlag_keeps
    | with_reducible apply State.cphAlarm_keeps
    | with_reducible apply State.rasRecord_keeps
    | with_reducible apply State.dropWaiting_keeps
    | with_reducible apply State.put_keeps
    | with_reducible apply State.errCause_keeps
    | with_reducible apply State.ite_keeps

theorem State.clockLoss_keeps {q : List Instr} {s : State} (clk : Nat) (h0 : s.Keeps q) :
    (State.clockLoss s clk).Keeps q := by
  unfold State.clockLoss
  try dsimp only
  repeat' first
    | with_reducible assumption
    | with_reducible apply State.setFlag_keeps
    | with_reducible apply State.put_keeps
    | with_reducible apply State.alarm_keeps
    | with_reducible apply State.ite_keeps

theorem execClockLoss_keeps {q : List Instr} (clk : Nat) {s : State} (h0 : s.Keeps q) :
    ∃ u, execClockLoss clk s = .next u ∧ u.Keeps q := by
  refine ⟨_, rfl, ?_⟩
  try dsimp only
  repeat' first
    | with_reducible assumption
    | with_reducible apply State.clockLoss_keeps
    | with_reducible apply State.ite_keeps

theorem State.serdesLoss_keeps {q : List Instr} {s : State} (b_q : Nat) (h0 : s.Keeps q) :
    (State.serdesLoss s b_q).Keeps q := by
  unfold State.serdesLoss
  try dsimp only
  repeat' first
    | with_reducible assumption
    | intro _
    | with_reducible apply State.faultAt_keeps
    | with_reducible apply State.setFlag_keeps
    | with_reducible apply State.putSq_keeps
    | with_reducible apply State.foldl_keeps
    | simp only [State.Keeps.lit]
    | simp only [State.Keeps.litDm, List.length_set]
    | with_reducible apply State.ite_keeps
    | with_reducible apply State.ite_fst_keeps
    | split

theorem execSerdesPllLockLoss_keeps {q : List Instr} (quad : Nat) {s : State} (h0 : s.Keeps q) :
    ∃ u, execSerdesPllLockLoss quad s = .next u ∧ u.Keeps q := by
  refine ⟨_, rfl, ?_⟩
  try dsimp only
  repeat' first
    | with_reducible assumption
    | with_reducible apply State.serdesLoss_keeps
    | with_reducible apply State.ite_keeps

theorem execAlarmFire_keeps {q : List Instr} (bit : Nat) {s : State} (h0 : s.Keeps q) :
    ∃ u, execAlarmFire bit s = .next u ∧ u.Keeps q := by
  refine ⟨_, rfl, ?_⟩
  try dsimp only
  repeat' first
    | with_reducible assumption
    | with_reducible apply State.alarm_keeps
    | with_reducible apply State.ite_keeps

theorem State.alarmGone_keeps {q : List Instr} {s : State} (b : Nat) (h0 : s.Keeps q) :
    (State.alarmGone s b).Keeps q := by
  unfold State.alarmGone
  try dsimp only
  repeat' first
    | with_reducible assumption
    | with_reducible apply State.put_keeps
    | with_reducible apply State.ite_keeps

theorem State.tempSample_keeps {q : List Instr} {s : State} (t : Nat) (h0 : s.Keeps q) :
    (State.tempSample s t).Keeps q := by
  unfold State.tempSample
  try dsimp only
  repeat' first
    | with_reducible assumption
    | with_reducible apply State.alarmGone_keeps
    | with_reducible apply State.put_keeps
    | with_reducible apply State.alarm_keeps
    | with_reducible apply State.ite_keeps

theorem execTempSample_keeps {q : List Instr} (t : Nat) {s : State} (h0 : s.Keeps q) :
    ∃ u, execTempSample t s = .next u ∧ u.Keeps q := by
  refine ⟨_, rfl, ?_⟩
  try dsimp only
  repeat' first
    | with_reducible assumption
    | with_reducible apply State.tempSample_keeps
    | with_reducible apply State.ite_keeps

theorem State.parityBreaks_keeps {q : List Instr} {s : State} (b_e : MemErr) (h0 : s.Keeps q) :
    (State.parityBreaks s b_e).Keeps q := by
  unfold State.parityBreaks
  try dsimp only
  repeat' first
    | with_reducible assumption
    | with_reducible apply State.setPlane_keeps
    | with_reducible apply State.ite_keeps

theorem State.linkBreaks_keeps {q : List Instr} {s : State} (b_e : MemErr) (h0 : s.Keeps q) :
    (State.linkBreaks s b_e).Keeps q := by
  unfold State.linkBreaks
  try dsimp only
  repeat' first
    | with_reducible assumption
    | with_reducible apply State.setPlane_keeps
    | with_reducible apply State.ite_keeps

theorem State.memCorrected_keeps {q : List Instr} {s : State} (b_e : MemErr) (h0 : s.Keeps q) :
    (State.memCorrected s b_e).Keeps q := by
  unfold State.memCorrected
  try dsimp only
  repeat' first
    | with_reducible assumption
    | with_reducible apply State.rasRecord_keeps
    | with_reducible apply State.ite_keeps

theorem State.memFatal_keeps {q : List Instr} {s : State} (b_e : MemErr) (h0 : s.Keeps q) :
    (State.memFatal s b_e).Keeps q := by
  unfold State.memFatal
  try dsimp only
  repeat' first
    | with_reducible assumption
    | with_reducible apply State.rasRecord_keeps
    | with_reducible apply State.errCause_keeps
    | simp only [State.Keeps.lit]
    | with_reducible apply State.ite_keeps
    | with_reducible apply State.ite_fst_keeps
    | split

theorem execMemoryError_keeps {q : List Instr} (err : MemErr) {s : State} (h0 : s.Keeps q) :
    ∃ u, execMemoryError err s = .next u ∧ u.Keeps q := by
  refine ⟨_, rfl, ?_⟩
  try dsimp only
  repeat' first
    | with_reducible assumption
    | with_reducible apply State.memFatal_keeps
    | with_reducible apply State.memCorrected_keeps
    | with_reducible apply State.parityBreaks_keeps
    | with_reducible apply State.linkBreaks_keeps
    | with_reducible apply State.ite_keeps

theorem execRasErrPop_keeps {q : List Instr} (r : Requester) {s : State} (h0 : s.Keeps q) :
    ∃ u, execRasErrPop r s = .next u ∧ u.Keeps q := by
  refine ⟨_, rfl, ?_⟩
  try dsimp only
  repeat' first
    | with_reducible assumption
    | with_reducible apply State.gated_keeps
    | with_reducible apply State.popErr_keeps
    | with_reducible apply State.ite_keeps

theorem execErrOutForce_keeps {q : List Instr} (r : Requester) (force : Bool) {s : State} (h0 : s.Keeps q) :
    ∃ u, execErrOutForce r force s = .next u ∧ u.Keeps q := by
  refine ⟨_, rfl, ?_⟩
  try dsimp only
  repeat' first
    | with_reducible assumption
    | intro _
    | with_reducible apply State.gated_keeps
    | with_reducible apply State.put_keeps
    | with_reducible apply State.foldl_keeps
    | simp only [State.Keeps.lit]
    | simp only [State.Keeps.litDm, List.length_set]
    | with_reducible apply State.ite_keeps
    | with_reducible apply State.ite_fst_keeps
    | split

theorem State.question_keeps {q : List Instr} {s : State} (b_q : Nat) (h0 : s.Keeps q) :
    (State.question s b_q).Keeps q := by
  unfold State.question
  try dsimp only
  repeat' first
    | with_reducible assumption
    | with_reducible apply State.setFlag_keeps
    | with_reducible apply State.put_keeps
    | with_reducible apply State.inc_keeps
    | simp only [State.Keeps.lit]
    | with_reducible apply State.ite_keeps
    | with_reducible apply State.ite_fst_keeps
    | split

theorem execWdgQuestion_keeps {q : List Instr} (b_q : Nat) {s : State} (h0 : s.Keeps q) :
    ∃ u, execWdgQuestion b_q s = .next u ∧ u.Keeps q := by
  refine ⟨_, rfl, ?_⟩
  try dsimp only
  repeat' first
    | with_reducible assumption
    | with_reducible apply State.question_keeps
    | with_reducible apply State.ite_keeps

theorem execWdgAnswer_keeps {q : List Instr} (r : Requester) (ans : Nat) (tie : Bool) {s : State} (h0 : s.Keeps q) :
    ∃ u, execWdgAnswer r ans s tie = .next u ∧ u.Keeps q := by
  refine ⟨_, rfl, ?_⟩
  try dsimp only
  repeat' first
    | with_reducible assumption
    | intro _
    | with_reducible apply State.gated_keeps
    | with_reducible apply State.writeWdgAns_keeps
    | with_reducible apply State.foldl_keeps
    | simp only [State.Keeps.lit]
    | simp only [State.Keeps.litDm, List.length_set]
    | with_reducible apply State.ite_keeps
    | with_reducible apply State.ite_fst_keeps
    | split

theorem State.clocksBack_keeps {q : List Instr} {s : State} (h0 : s.Keeps q) :
    (State.clocksBack s).Keeps q := by
  unfold State.clocksBack
  try dsimp only
  repeat' first
    | with_reducible assumption
    | with_reducible apply State.put_keeps
    | with_reducible apply State.ite_keeps

theorem execAlarmCease_keeps {q : List Instr} (bit : Nat) {s : State} (h0 : s.Keeps q) :
    ∃ u, execAlarmCease bit s = .next u ∧ u.Keeps q := by
  refine ⟨_, rfl, ?_⟩
  try dsimp only
  repeat' first
    | with_reducible assumption
    | with_reducible apply State.alarmGone_keeps
    | with_reducible apply State.clocksBack_keeps
    | with_reducible apply State.ite_keeps

theorem execLpddrReadyLost_keeps {q : List Instr} {s : State} (h0 : s.Keeps q) :
    ∃ u, execLpddrReadyLost s = .next u ∧ u.Keeps q := by
  refine ⟨_, rfl, ?_⟩
  try dsimp only
  repeat' first
    | with_reducible assumption
    | with_reducible apply State.memReady_keeps
    | with_reducible apply State.ite_keeps

theorem execWdgAnswerSent_keeps {q : List Instr} {s : State} (h0 : s.Keeps q) :
    ∃ u, execWdgAnswerSent s = .next u ∧ u.Keeps q := by
  refine ⟨_, rfl, ?_⟩
  try dsimp only
  repeat' first
    | with_reducible assumption
    | simp only [State.Keeps.lit]
    | with_reducible apply State.ite_keeps
    | with_reducible apply State.ite_fst_keeps
    | split

theorem execXo32kStart_keeps {q : List Instr} {s : State} (h0 : s.Keeps q) :
    ∃ u, execXo32kStart s = .next u ∧ u.Keeps q := by
  refine ⟨_, rfl, ?_⟩
  try dsimp only
  repeat' first
    | with_reducible assumption
    | with_reducible apply State.put_keeps
    | with_reducible apply State.ite_keeps

/-! ## RegisterRead -/

theorem State.readWord_keeps {q : List Instr} {s : State} (r : Requester) (a : Nat) (h0 : s.Keeps q) :
    (State.readWord s r a).1.Keeps q := by
  unfold State.readWord
  try dsimp only
  repeat' first
    | with_reducible assumption
    | with_reducible apply State.setReg_keeps
    | simp only [State.Keeps.lit]
    | with_reducible apply State.ite_keeps
    | with_reducible apply State.ite_fst_keeps
    | split

theorem State.readWord_keeps_eq {q : List Instr} {s : State} {r : Requester} {a : Nat} (h0 : s.Keeps q) {u : State} {w :
    Nat}
    (e : State.readWord s r a = (u, w)) : u.Keeps q := by
  have hu : (State.readWord s r a).1.Keeps q := by apply State.readWord_keeps <;> assumption
  rw [e] at hu
  exact hu

theorem State.answer_keeps {q : List Instr} {s : State} (v : Nat) (h0 : s.Keeps q) :
    (State.answer s v).Keeps q := by
  unfold State.answer
  try dsimp only
  repeat' first
    | with_reducible assumption
    | simp only [State.Keeps.lit]
    | with_reducible apply State.ite_keeps
    | with_reducible apply State.ite_fst_keeps
    | split

theorem State.readReg_keeps {q : List Instr} {s : State} (r : Requester) (addr : Nat) (size : Nat) (h0 : s.Keeps q) :
    (State.readReg s r addr size).Keeps q := by
  unfold State.readReg
  try dsimp only
  repeat' first
    | with_reducible assumption
    | with_reducible apply State.answer_keeps
    | with_reducible apply State.accessErr_keeps
    | with_reducible apply State.readWord_keeps
    | with_reducible refine State.readWord_keeps_eq ?_ ‹_›
    | simp only [State.Keeps.lit]
    | with_reducible apply State.ite_keeps
    | with_reducible apply State.ite_fst_keeps
    | split

theorem execLoRead_keeps {q : List Instr} (r : Requester) (addr : Nat) (size : Nat) {s : State} (h0 : s.Keeps q) :
    ∃ u, execLoRead r addr size s = .next u ∧ u.Keeps q := by
  refine ⟨_, rfl, ?_⟩
  try dsimp only
  repeat' first
    | with_reducible assumption
    | with_reducible apply State.readReg_keeps
    | with_reducible apply State.ite_keeps

theorem execRcCounterRead_keeps {q : List Instr} (r : Requester) (addr : Nat) (size : Nat) {s : State} (h0 : s.Keeps q) :
    ∃ u, execRcCounterRead r addr size s = .next u ∧ u.Keeps q := by
  refine ⟨_, rfl, ?_⟩
  try dsimp only
  repeat' first
    | with_reducible assumption
    | with_reducible apply State.readReg_keeps
    | with_reducible apply State.ite_keeps

/-! ## RegisterWrite -/

theorem State.writeValid_keeps {q : List Instr} {s : State} (a : Nat) (v : Nat) (h0 : s.Keeps q) :
    (State.writeValid s a v).Keeps q := by
  unfold State.writeValid
  try dsimp only
  repeat' first
    | with_reducible assumption
    | with_reducible apply State.setReg_keeps
    | with_reducible apply State.ite_keeps

theorem State.writeCAP_keeps {q : List Instr} {s : State} (a : Nat) (v : Nat) (h0 : s.Keeps q) :
    (State.writeCAP s a v).Keeps q := by
  unfold State.writeCAP
  try dsimp only
  repeat' first
    | with_reducible assumption
    | with_reducible apply State.writeCapCtl_keeps
    | with_reducible apply State.writeValid_keeps
    | with_reducible apply State.writeCapTail_keeps
    | with_reducible apply State.storeReg_keeps
    | with_reducible apply State.ite_keeps

theorem State.writeGLB_keeps {q : List Instr} {s : State} (a : Nat) (v : Nat) (h0 : s.Keeps q) :
    (State.writeGLB s a v).Keeps q := by
  unfold State.writeGLB
  try dsimp only
  repeat' first
    | with_reducible assumption
    | with_reducible apply State.writeSwreset_keeps
    | with_reducible apply State.writeValid_keeps
    | with_reducible apply State.storeReg_keeps
    | with_reducible apply State.ite_keeps

theorem State.storeTnw_keeps {q : List Instr} {s : State} (tn : Nat) (o : Nat) (v : Nat) (h0 : s.Keeps q) :
    (State.storeTnw s tn o v).Keeps q := by
  unfold State.storeTnw
  try dsimp only
  repeat' first
    | with_reducible assumption
    | with_reducible apply State.setTen_keeps
    | with_reducible apply State.storeReg_keeps
    | simp only [State.Keeps.lit]
    | with_reducible apply State.ite_keeps
    | with_reducible apply State.ite_fst_keeps
    | split

theorem State.writeTnw_keeps {q : List Instr} {s : State} (r : Requester) (tn : Nat) (o : Nat) (v : Nat) (h0 : s.Keeps
    q) :
    (State.writeTnw s r tn o v).Keeps q := by
  unfold State.writeTnw
  try dsimp only
  repeat' first
    | with_reducible assumption
    | intro _
    | with_reducible apply State.writeTnwCtl_keeps
    | with_reducible apply State.storeTnw_keeps
    | with_reducible apply State.winWrite_keeps
    | with_reducible apply State.foldl_keeps
    | simp only [State.Keeps.lit]
    | simp only [State.Keeps.litDm, List.length_set]
    | with_reducible apply State.ite_keeps
    | with_reducible apply State.ite_fst_keeps
    | split

theorem State.writeStateCtl_keeps {q : List Instr} {s : State} (r : Requester) (v : Nat) (h0 : s.Keeps q) :
    (State.writeStateCtl s r v).Keeps q := by
  unfold State.writeStateCtl
  try dsimp only
  repeat' first
    | with_reducible assumption
    | intro _
    | with_reducible apply State.gated_keeps
    | with_reducible apply State.rqResult_keeps
    | with_reducible apply State.reqTest_keeps
    | with_reducible apply State.reqSleep_keeps
    | with_reducible apply State.reqRecovery_keeps
    | with_reducible apply State.reqRun_keeps
    | with_reducible apply State.foldl_keeps
    | simp only [State.Keeps.lit]
    | simp only [State.Keeps.litDm, List.length_set]
    | with_reducible apply State.ite_keeps
    | with_reducible apply State.ite_fst_keeps
    | split

theorem State.writeChtCtl_keeps {q : List Instr} {s : State} (r : Requester) (v : Nat) (h0 : s.Keeps q) :
    (State.writeChtCtl s r v).Keeps q := by
  unfold State.writeChtCtl
  try dsimp only
  repeat' first
    | with_reducible assumption
    | intro _
    | with_reducible apply State.chArm_keeps
    | with_reducible apply State.chDisarm_keeps
    | with_reducible apply State.chResult_keeps
    | with_reducible apply State.chVerify_keeps
    | with_reducible apply State.chDiscard_keeps
    | with_reducible apply State.chAbort_keeps
    | with_reducible apply State.chOpen_keeps
    | with_reducible apply State.chCommand_keeps
    | with_reducible apply State.foldl_keeps
    | simp only [State.Keeps.lit]
    | simp only [State.Keeps.litDm, List.length_set]
    | with_reducible apply State.ite_keeps
    | with_reducible apply State.ite_fst_keeps
    | split

theorem State.writeTblCmd_keeps {q : List Instr} {s : State} (r : Requester) (v : Nat) (h0 : s.Keeps q) :
    (State.writeTblCmd s r v).Keeps q := by
  unfold State.writeTblCmd
  try dsimp only
  repeat' first
    | with_reducible assumption
    | intro _
    | with_reducible apply State.doInsert_keeps
    | with_reducible apply State.doWriteAt_keeps
    | with_reducible apply State.doLookup_keeps
    | with_reducible apply State.doLpmInsert_keeps
    | with_reducible apply State.tblCommand_keeps
    | with_reducible apply State.doUnlock_keeps
    | with_reducible apply State.doReplace_keeps
    | with_reducible apply State.doLpmDelete_keeps
    | with_reducible apply State.doBloomRebuild_keeps
    | with_reducible apply State.doDelete_keeps
    | with_reducible apply State.doFlushLearned_keeps
    | with_reducible apply State.doResume_keeps
    | with_reducible apply State.doRehash_keeps
    | with_reducible apply State.tblDone_keeps
    | with_reducible apply State.doLpmLookup_keeps
    | with_reducible apply State.doReadAt_keeps
    | with_reducible apply State.foldl_keeps
    | simp only [State.Keeps.lit]
    | simp only [State.Keeps.litDm, List.length_set]
    | with_reducible apply State.ite_keeps
    | with_reducible apply State.ite_fst_keeps
    | split

theorem State.writeRedCtl_keeps {q : List Instr} {s : State} (r : Requester) (v : Nat) (h0 : s.Keeps q) :
    (State.writeRedCtl s r v).Keeps q := by
  unfold State.writeRedCtl
  try dsimp only
  repeat' first
    | with_reducible assumption
    | intro _
    | with_reducible apply State.redRejoin_keeps
    | with_reducible apply State.put_keeps
    | with_reducible apply State.redPromote_keeps
    | with_reducible apply State.redTest_keeps
    | with_reducible apply State.redCommand_keeps
    | with_reducible apply State.redIsolate_keeps
    | with_reducible apply State.foldl_keeps
    | simp only [State.Keeps.lit]
    | simp only [State.Keeps.litDm, List.length_set]
    | with_reducible apply State.ite_keeps
    | with_reducible apply State.ite_fst_keeps
    | split

theorem State.writeBlfCmd_keeps {q : List Instr} {s : State} (r : Requester) (v : Nat) (h0 : s.Keeps q) :
    (State.writeBlfCmd s r v).Keeps q := by
  unfold State.writeBlfCmd
  try dsimp only
  repeat' first
    | with_reducible assumption
    | intro _
    | with_reducible apply State.blfChk_keeps
    | with_reducible refine State.blfChk_keeps_eq ?_ ‹_›
    | with_reducible apply State.blfAtt_keeps
    | with_reducible refine State.blfAtt_keeps_eq ?_ ‹_›
    | with_reducible apply State.blfExp_keeps
    | with_reducible refine State.blfExp_keeps_eq ?_ ‹_›
    | with_reducible apply State.blfDis_keeps
    | with_reducible refine State.blfDis_keeps_eq ?_ ‹_›
    | with_reducible apply State.blfCom_keeps
    | with_reducible refine State.blfCom_keeps_eq ?_ ‹_›
    | with_reducible apply State.blfInv_keeps
    | with_reducible apply State.mcOnly_keeps
    | with_reducible apply State.blfGen_keeps
    | with_reducible refine State.blfGen_keeps_eq ?_ ‹_›
    | with_reducible apply State.blfCert_keeps
    | with_reducible refine State.blfCert_keeps_eq ?_ ‹_›
    | with_reducible apply State.blfPub_keeps
    | with_reducible refine State.blfPub_keeps_eq ?_ ‹_›
    | with_reducible apply State.blfImpPub_keeps
    | with_reducible refine State.blfImpPub_keeps_eq ?_ ‹_›
    | with_reducible apply State.blfDer_keeps
    | with_reducible refine State.blfDer_keeps_eq ?_ ‹_›
    | with_reducible apply State.blfAttr_keeps
    | with_reducible refine State.blfAttr_keeps_eq ?_ ‹_›
    | with_reducible apply State.blfImp_keeps
    | with_reducible refine State.blfImp_keeps_eq ?_ ‹_›
    | with_reducible apply State.yelCommit_keeps
    | with_reducible refine State.yelCommit_keeps_eq ?_ ‹_›
    | with_reducible apply State.blfCommand_keeps
    | with_reducible apply State.yelStage_keeps
    | with_reducible refine State.yelStage_keeps_eq ?_ ‹_›
    | with_reducible apply State.foldl_keeps
    | simp only [State.Keeps.lit]
    | simp only [State.Keeps.litDm, List.length_set]
    | with_reducible apply State.ite_keeps
    | with_reducible apply State.ite_fst_keeps
    | split

theorem State.writeLdgCtl_keeps {q : List Instr} {s : State} (r : Requester) (v : Nat) (h0 : s.Keeps q) :
    (State.writeLdgCtl s r v).Keeps q := by
  unfold State.writeLdgCtl
  try dsimp only
  repeat' first
    | with_reducible assumption
    | intro _
    | with_reducible apply State.ldgRestore_keeps
    | with_reducible refine State.ldgRestore_keeps_eq ?_ ‹_›
    | with_reducible apply State.ldgAllFresh_keeps
    | with_reducible refine State.ldgAllFresh_keeps_eq ?_ ‹_›
    | with_reducible apply State.ldgReport_keeps
    | with_reducible refine State.ldgReport_keeps_eq ?_ ‹_›
    | with_reducible apply State.ldgCommand_keeps
    | with_reducible apply State.ldgSealCmd_keeps
    | with_reducible refine State.ldgSealCmd_keeps_eq ?_ ‹_›
    | with_reducible apply State.foldl_keeps
    | simp only [State.Keeps.lit]
    | simp only [State.Keeps.litDm, List.length_set]
    | with_reducible apply State.ite_keeps
    | with_reducible apply State.ite_fst_keeps
    | split

theorem State.writeCHT_keeps {q : List Instr} {s : State} (r : Requester) (a : Nat) (v : Nat) (h0 : s.Keeps q) :
    (State.writeCHT s r a v).Keeps q := by
  unfold State.writeCHT
  try dsimp only
  repeat' first
    | with_reducible assumption
    | with_reducible apply State.setReg_keeps
    | with_reducible apply State.writeFloor_keeps
    | with_reducible apply State.writeWindow_keeps
    | with_reducible apply State.storeReg_keeps
    | with_reducible apply State.writeArmTime_keeps
    | with_reducible apply State.ite_keeps

theorem State.writePWR_keeps {q : List Instr} {s : State} (r : Requester) (a : Nat) (v : Nat) (h0 : s.Keeps q) :
    (State.writePWR s r a v).Keeps q := by
  unfold State.writePWR
  try dsimp only
  repeat' first
    | with_reducible assumption
    | with_reducible apply State.writeDom_keeps
    | with_reducible apply State.storeReg_keeps
    | with_reducible apply State.writeHostGo_keeps
    | with_reducible apply State.ite_keeps

theorem State.writeTIM_keeps {q : List Instr} {s : State} (a : Nat) (v : Nat) (h0 : s.Keeps q) :
    (State.writeTIM s a v).Keeps q := by
  unfold State.writeTIM
  try dsimp only
  repeat' first
    | with_reducible assumption
    | with_reducible apply State.popTxts_keeps
    | with_reducible apply State.popPps_keeps
    | with_reducible apply State.writeIncNs_keeps
    | with_reducible apply State.writeStep_keeps
    | with_reducible apply State.writeSnap_keeps
    | with_reducible apply State.put_keeps
    | with_reducible apply State.storeReg_keeps
    | simp only [State.Keeps.lit]
    | with_reducible apply State.ite_keeps
    | with_reducible apply State.ite_fst_keeps
    | split

theorem State.writeCLP_keeps {q : List Instr} {s : State} (a : Nat) (v : Nat) (h0 : s.Keeps q) :
    (State.writeCLP s a v).Keeps q := by
  unfold State.writeCLP
  try dsimp only
  repeat' first
    | with_reducible assumption
    | with_reducible apply State.srcComplete_keeps
    | with_reducible apply State.writeHold_keeps
    | with_reducible apply State.writeTgtCfg_keeps
    | with_reducible apply State.writeSrcCfg_keeps
    | with_reducible apply State.storeReg_keeps
    | simp only [State.Keeps.lit]
    | with_reducible apply State.ite_keeps
    | with_reducible apply State.ite_fst_keeps
    | split

theorem State.writeTRI_keeps {q : List Instr} {s : State} (a : Nat) (v : Nat) (h0 : s.Keeps q) :
    (State.writeTRI s a v).Keeps q := by
  unfold State.writeTRI
  try dsimp only
  repeat' first
    | with_reducible assumption
    | with_reducible apply State.writeLastMm_keeps
    | with_reducible apply State.debugAuth_keeps
    | with_reducible apply State.writeApCtl_keeps
    | with_reducible apply State.storeReg_keeps
    | with_reducible apply State.ite_keeps

theorem State.writeRED_keeps {q : List Instr} {s : State} (a : Nat) (v : Nat) (h0 : s.Keeps q) :
    (State.writeRED s a v).Keeps q := by
  unfold State.writeRED
  try dsimp only
  repeat' first
    | with_reducible assumption
    | with_reducible apply State.writeLastFail_keeps
    | with_reducible apply State.storeReg_keeps
    | with_reducible apply State.ite_keeps

theorem State.writePRS_keeps {q : List Instr} {s : State} (a : Nat) (v : Nat) (h0 : s.Keeps q) :
    (State.writePRS s a v).Keeps q := by
  unfold State.writePRS
  try dsimp only
  repeat' first
    | with_reducible assumption
    | with_reducible apply State.writeExc_keeps
    | with_reducible apply State.writeValid_keeps
    | with_reducible apply State.storeReg_keeps
    | with_reducible apply State.ite_keeps

theorem State.writeTBL_keeps {q : List Instr} {s : State} (a : Nat) (v : Nat) (h0 : s.Keeps q) :
    (State.writeTBL s a v).Keeps q := by
  unfold State.writeTBL
  try dsimp only
  repeat' first
    | with_reducible assumption
    | with_reducible apply State.writeValid_keeps
    | with_reducible apply State.storeReg_keeps
    | with_reducible apply State.ite_keeps

theorem State.writeBPM_keeps {q : List Instr} {s : State} (a : Nat) (v : Nat) (h0 : s.Keeps q) :
    (State.writeBPM s a v).Keeps q := by
  unfold State.writeBPM
  try dsimp only
  repeat' first
    | with_reducible assumption
    | intro _
    | with_reducible apply State.put_keeps
    | with_reducible apply State.writeValid_keeps
    | with_reducible apply State.storeReg_keeps
    | with_reducible apply State.foldl_keeps
    | simp only [State.Keeps.lit]
    | simp only [State.Keeps.litDm, List.length_set]
    | with_reducible apply State.ite_keeps
    | with_reducible apply State.ite_fst_keeps
    | split

theorem State.writeSCH_keeps {q : List Instr} {s : State} (a : Nat) (v : Nat) (h0 : s.Keeps q) :
    (State.writeSCH s a v).Keeps q := by
  unfold State.writeSCH
  try dsimp only
  repeat' first
    | with_reducible assumption
    | with_reducible apply State.writeShaper_keeps
    | with_reducible apply State.storeReg_keeps
    | with_reducible apply State.writeSnare_keeps
    | with_reducible apply State.ite_keeps

theorem State.writeCAR_keeps {q : List Instr} {s : State} (a : Nat) (v : Nat) (h0 : s.Keeps q) :
    (State.writeCAR s a v).Keeps q := by
  unfold State.writeCAR
  try dsimp only
  repeat' first
    | with_reducible assumption
    | with_reducible apply State.writeValid_keeps
    | with_reducible apply State.storeReg_keeps
    | with_reducible apply State.ite_keeps

theorem State.writeFRE_keeps {q : List Instr} {s : State} (a : Nat) (v : Nat) (h0 : s.Keeps q) :
    (State.writeFRE s a v).Keeps q := by
  unfold State.writeFRE
  try dsimp only
  repeat' first
    | with_reducible assumption
    | with_reducible apply State.takeAny_keeps
    | with_reducible apply State.storeReg_keeps
    | simp only [State.Keeps.lit]
    | with_reducible apply State.ite_keeps
    | with_reducible apply State.ite_fst_keeps
    | split

theorem State.writePLC_keeps {q : List Instr} {s : State} (a : Nat) (v : Nat) (h0 : s.Keeps q) :
    (State.writePLC s a v).Keeps q := by
  unfold State.writePLC
  try dsimp only
  repeat' first
    | with_reducible assumption
    | with_reducible apply State.put_keeps
    | with_reducible apply State.storeReg_keeps
    | with_reducible apply State.ite_keeps

theorem State.writeFWL_keeps {q : List Instr} {s : State} (a : Nat) (v : Nat) (h0 : s.Keeps q) :
    (State.writeFWL s a v).Keeps q := by
  unfold State.writeFWL
  try dsimp only
  repeat' first
    | with_reducible assumption
    | with_reducible apply State.flushFlows_keeps
    | with_reducible apply State.storeReg_keeps
    | simp only [State.Keeps.lit]
    | with_reducible apply State.ite_keeps
    | with_reducible apply State.ite_fst_keeps
    | split

theorem State.writeBLF_keeps {q : List Instr} {s : State} (a : Nat) (v : Nat) (h0 : s.Keeps q) :
    (State.writeBLF s a v).Keeps q := by
  unfold State.writeBLF
  try dsimp only
  repeat' first
    | with_reducible assumption
    | with_reducible apply State.setReg_keeps
    | with_reducible apply State.storeReg_keeps
    | with_reducible apply State.ite_keeps

theorem State.writeCPH_keeps {q : List Instr} {s : State} (a : Nat) (v : Nat) (h0 : s.Keeps q) :
    (State.writeCPH s a v).Keeps q := by
  unfold State.writeCPH
  try dsimp only
  repeat' first
    | with_reducible assumption
    | with_reducible apply State.writeCphCmd_keeps
    | with_reducible apply State.writeCphAbort_keeps
    | with_reducible apply State.writeAlarmClr_keeps
    | with_reducible apply State.storeReg_keeps
    | with_reducible apply State.popCpl_keeps
    | with_reducible apply State.ite_keeps

theorem State.writePortCtl_keeps {q : List Instr} {s : State} (port : Nat) (a : Nat) (v : Nat) (h0 : s.Keeps q) :
    (State.writePortCtl s port a v).Keeps q := by
  unfold State.writePortCtl
  try dsimp only
  repeat' first
    | with_reducible assumption
    | with_reducible apply State.writeHoldMs_keeps
    | with_reducible apply State.writeAdmin_keeps
    | with_reducible apply State.storeReg_keeps
    | with_reducible apply State.ite_keeps

theorem State.writePort_keeps {q : List Instr} {s : State} (a : Nat) (v : Nat) (h0 : s.Keeps q) :
    (State.writePort s a v).Keeps q := by
  unfold State.writePort
  try dsimp only
  repeat' first
    | with_reducible assumption
    | with_reducible apply State.writePortCtl_keeps
    | with_reducible apply State.storeReg_keeps
    | simp only [State.Keeps.lit]
    | with_reducible apply State.ite_keeps
    | with_reducible apply State.ite_fst_keeps
    | split

theorem State.writeCAN_keeps {q : List Instr} {s : State} (a : Nat) (v : Nat) (h0 : s.Keeps q) :
    (State.writeCAN s a v).Keeps q := by
  unfold State.writeCAN
  try dsimp only
  repeat' first
    | with_reducible assumption
    | with_reducible apply State.canFlush_keeps
    | with_reducible apply State.writeCanAdmin_keeps
    | with_reducible apply State.canRecover_keeps
    | with_reducible apply State.storeReg_keeps
    | simp only [State.Keeps.lit]
    | with_reducible apply State.ite_keeps
    | with_reducible apply State.ite_fst_keeps
    | split

theorem State.writeLIN_keeps {q : List Instr} {s : State} (a : Nat) (v : Nat) (h0 : s.Keeps q) :
    (State.writeLIN s a v).Keeps q := by
  unfold State.writeLIN
  try dsimp only
  repeat' first
    | with_reducible assumption
    | with_reducible apply State.writeLinAdmin_keeps
    | with_reducible apply State.storeReg_keeps
    | with_reducible apply State.writeSchedRun_keeps
    | with_reducible apply State.writeSchedSel_keeps
    | simp only [State.Keeps.lit]
    | with_reducible apply State.ite_keeps
    | with_reducible apply State.ite_fst_keeps
    | split

theorem State.writeNMW_keeps {q : List Instr} {s : State} (a : Nat) (v : Nat) (h0 : s.Keeps q) :
    (State.writeNMW s a v).Keeps q := by
  unfold State.writeNMW
  try dsimp only
  repeat' first
    | with_reducible assumption
    | with_reducible apply State.popWrec_keeps
    | with_reducible apply State.writeAoSnap_keeps
    | with_reducible apply State.writeNmReq_keeps
    | with_reducible apply State.storeReg_keeps
    | simp only [State.Keeps.lit]
    | with_reducible apply State.ite_keeps
    | with_reducible apply State.ite_fst_keeps
    | split

theorem State.writeHST_keeps {q : List Instr} {s : State} (a : Nat) (v : Nat) (h0 : s.Keeps q) :
    (State.writeHST s a v).Keeps q := by
  unfold State.writeHST
  try dsimp only
  repeat' first
    | with_reducible assumption
    | with_reducible apply State.writeHstCtl_keeps
    | with_reducible apply State.storeReg_keeps
    | simp only [State.Keeps.lit]
    | with_reducible apply State.ite_keeps
    | with_reducible apply State.ite_fst_keeps
    | split

theorem State.writeRAS_keeps {q : List Instr} {s : State} (a : Nat) (v : Nat) (h0 : s.Keeps q) :
    (State.writeRAS s a v).Keeps q := by
  unfold State.writeRAS
  try dsimp only
  repeat' first
    | with_reducible assumption
    | with_reducible apply State.writeWdgAns_keeps
    | with_reducible apply State.popErr_keeps
    | with_reducible apply State.storeReg_keeps
    | with_reducible apply State.ite_keeps

theorem State.writeAt_keeps {q : List Instr} {s : State} (r : Requester) (a : Nat) (v : Nat) (h0 : s.Keeps q) :
    (State.writeAt s r a v).Keeps q := by
  unfold State.writeAt
  try dsimp only
  repeat' first
    | with_reducible assumption
    | with_reducible apply State.writeGLB_keeps
    | with_reducible apply State.writePLC_keeps
    | with_reducible apply State.writeFWL_keeps
    | with_reducible apply State.writeBPM_keeps
    | with_reducible apply State.writePRS_keeps
    | with_reducible apply State.writeSCH_keeps
    | with_reducible apply State.writeLIN_keeps
    | with_reducible apply State.writeCPH_keeps
    | with_reducible apply State.writeCAN_keeps
    | with_reducible apply State.writeTRI_keeps
    | with_reducible apply State.writePWR_keeps
    | with_reducible apply State.writeCHT_keeps
    | with_reducible apply State.writeRED_keeps
    | with_reducible apply State.writeNMW_keeps
    | with_reducible apply State.writeCAR_keeps
    | with_reducible apply State.writeRAS_keeps
    | with_reducible apply State.writeCLP_keeps
    | with_reducible apply State.writeCAP_keeps
    | with_reducible apply State.writeTIM_keeps
    | with_reducible apply State.storeReg_keeps
    | with_reducible apply State.writeTBL_keeps
    | with_reducible apply State.writeBLF_keeps
    | with_reducible apply State.writePort_keeps
    | with_reducible apply State.writeHST_keeps
    | with_reducible apply State.writeFRE_keeps
    | simp only [State.Keeps.lit]
    | with_reducible apply State.ite_keeps
    | with_reducible apply State.ite_fst_keeps
    | split

theorem State.writeReg_keeps {q : List Instr} {s : State} (r : Requester) (a : Nat) (v : Nat) (h0 : s.Keeps q) :
    (State.writeReg s r a v).Keeps q := by
  unfold State.writeReg
  try dsimp only
  repeat' first
    | with_reducible assumption
    | intro _
    | with_reducible apply State.writeTblCmd_keeps
    | with_reducible apply State.gated_keeps
    | with_reducible apply State.writeLdgCtl_keeps
    | with_reducible apply State.writeBlfCmd_keeps
    | with_reducible apply State.writeRedCtl_keeps
    | with_reducible apply State.writeStateCtl_keeps
    | with_reducible apply State.carCommand_keeps
    | with_reducible apply State.writeAt_keeps
    | with_reducible apply State.writeChtCtl_keeps
    | with_reducible apply State.foldl_keeps
    | simp only [State.Keeps.lit]
    | simp only [State.Keeps.litDm, List.length_set]
    | with_reducible apply State.ite_keeps
    | with_reducible apply State.ite_fst_keeps
    | split

theorem State.regWrite_keeps {q : List Instr} {s : State} (r : Requester) (addr : Nat) (size : Nat) (v : Nat) (h0 :
    s.Keeps q) :
    (State.regWrite s r addr size v).Keeps q := by
  unfold State.regWrite
  dsimp only
  repeat' first
    | with_reducible assumption
    | with_reducible apply State.writeTnw_keeps
    | with_reducible apply State.writeReg_keeps
    | exact State.getD_keeps (fun u e => State.writeGate_keeps_eq h0 e) h0
    | split

theorem execRegisterWrite_keeps {q : List Instr} (r : Requester) (addr : Nat) (size : Nat) (v : Nat) {s : State} (h0 :
    s.Keeps q) :
    ∃ u, execRegisterWrite r addr size v s = .next u ∧ u.Keeps q := by
  refine ⟨_, rfl, ?_⟩
  try dsimp only
  repeat' first
    | with_reducible assumption
    | with_reducible apply State.regWrite_keeps
    | with_reducible apply State.ite_keeps

theorem State.access64_keeps {q : List Instr} {s : State} (r : Requester) (wr : Bool) (addr : Nat) (v : Nat) (h0 :
    s.Keeps q) :
    (State.access64 s r wr addr v).Keeps q := by
  unfold State.access64
  try dsimp only
  repeat' first
    | with_reducible assumption
    | with_reducible apply State.answer_keeps
    | with_reducible apply State.readReg_keeps
    | with_reducible apply State.regWrite_keeps
    | with_reducible apply State.ite_keeps

theorem execHost64bitAccess_keeps {q : List Instr} (r : Requester) (wr : Bool) (addr : Nat) (v : Nat) {s : State} (h0 :
    s.Keeps q) :
    ∃ u, execHost64bitAccess r wr addr v s = .next u ∧ u.Keeps q := by
  refine ⟨_, rfl, ?_⟩
  try dsimp only
  repeat' first
    | with_reducible assumption
    | with_reducible apply State.access64_keeps
    | with_reducible apply State.ite_keeps

/-! ## Safety -/

theorem State.leaveBy_keeps {q : List Instr} {s : State} (sleepD : Bool) (h0 : s.Keeps q) :
    (State.leaveBy s sleepD).Keeps q := by
  unfold State.leaveBy
  try dsimp only
  repeat' first
    | with_reducible assumption
    | with_reducible apply State.domUp_keeps
    | with_reducible apply State.resetBy_keeps
    | simp only [State.Keeps.lit]
    | with_reducible apply State.ite_keeps
    | with_reducible apply State.ite_fst_keeps
    | split

end Sys2Proof.Machine
end

