-- ==== Sys2Proof/Laws/State.lean ====
section
/-! SUPPORT. Laws of State: reads of registers and fields after writes, and one lemma per field per update. -/

namespace Sys2Proof.Machine.State

/-! ## Registers and fields -/

@[simp] theorem reg_setReg_self (s : State) (a : Nat) (w : Word) : (s.setReg a w).reg a = w := by
  unfold reg setReg tabSet
  dsimp only
  split
  · next h =>
    split at h
    · rw [tabFind_tabDel_self] at h
      cases h
    · rw [tabFind_tabPut_self] at h
      cases h
      rfl
  · next h =>
    split at h
    · next hw => exact hw.symm
    · rw [tabFind_tabPut_self] at h
      cases h

theorem reg_setReg_ne (s : State) {a b : Nat} (w : Word) (h : b ≠ a) : (s.setReg a w).reg b = s.reg b := by
  unfold reg setReg
  dsimp only
  rw [tabFind_tabSet_ne _ _ _ h]

/-- What a register is after a field of it was written. -/
theorem reg_put_self (s : State) (f : Fld) (v : Nat) :
    (s.put f v).reg f.addr = BitVec.ofNat 32 (setBits (s.reg f.addr).toNat f.lsb f.wid v) := reg_setReg_self s _ _

theorem reg_put_ne (s : State) (f : Fld) (v : Nat) {a : Nat} (h : a ≠ f.addr) : (s.put f v).reg a = s.reg a :=
  reg_setReg_ne s _ h

/-- A field read after it was written; the field lies within its register. -/
theorem fld_put_self (s : State) (f : Fld) (v : Nat) (h : f.lsb + f.wid ≤ 32) : (s.put f v).fld f = v % 2 ^ f.wid := by
  unfold fld
  rw [reg_put_self, BitVec.toNat_ofNat, bits_mod _ _ _ _ h, bits_setBits_self]

/-- A field of another register. -/
theorem fld_put_addr (s : State) {f g : Fld} (v : Nat) (h : g.addr ≠ f.addr) : (s.put f v).fld g = s.fld g := by
  unfold fld
  rw [reg_put_ne s f v h]

/-- A field beside the one written. -/
theorem fld_put_beside (s : State) {f g : Fld} (v : Nat) (hg : g.lsb + g.wid ≤ 32)
    (h : f.lsb + f.wid ≤ g.lsb ∨ g.lsb + g.wid ≤ f.lsb) : (s.put f v).fld g = s.fld g := by
  by_cases ha : g.addr = f.addr
  · unfold fld
    rw [ha, reg_put_self, BitVec.toNat_ofNat, bits_mod _ _ _ _ hg, bits_setBits_beside _ _ _ _ _ _ h]
  · exact fld_put_addr s v ha

theorem flag_put_self (s : State) (f : Fld) (v : Nat) (h : f.lsb + f.wid ≤ 32) :
    (s.put f v).flag f = (v % 2 ^ f.wid == 1) := by
  unfold flag
  rw [fld_put_self s f v h]

theorem flag_put_addr (s : State) {f g : Fld} (v : Nat) (h : g.addr ≠ f.addr) : (s.put f v).flag g = s.flag g := by
  unfold flag
  rw [fld_put_addr s v h]

theorem flag_put_beside (s : State) {f g : Fld} (v : Nat) (hg : g.lsb + g.wid ≤ 32)
    (h : f.lsb + f.wid ≤ g.lsb ∨ g.lsb + g.wid ≤ f.lsb) : (s.put f v).flag g = s.flag g := by
  unfold flag
  rw [fld_put_beside s v hg h]

@[simp] theorem plane_setPlane_self (s : State) (pl : Plane) (p : PlaneSt) : (s.setPlane pl p).plane pl = p := by
  cases pl <;> rfl

theorem plane_setPlane_twin (s : State) (pl : Plane) (p : PlaneSt) :
    (s.setPlane pl p).plane (twinOf pl) = s.plane (twinOf pl) := by
  cases pl <;> rfl


/-! ## setReg leaves every other field -/

@[simp] theorem setReg_latches (s : State) (a : Nat) (w : Word) : (s.setReg a w).latches = s.latches := rfl
@[simp] theorem setReg_rdata (s : State) (a : Nat) (w : Word) : (s.setReg a w).rdata = s.rdata := rfl
@[simp] theorem setReg_planeA (s : State) (a : Nat) (w : Word) : (s.setReg a w).planeA = s.planeA := rfl
@[simp] theorem setReg_planeB (s : State) (a : Nat) (w : Word) : (s.setReg a w).planeB = s.planeB := rfl
@[simp] theorem setReg_dm (s : State) (a : Nat) (w : Word) : (s.setReg a w).dm = s.dm := rfl
@[simp] theorem setReg_clk (s : State) (a : Nat) (w : Word) : (s.setReg a w).clk = s.clk := rfl
@[simp] theorem setReg_tbs (s : State) (a : Nat) (w : Word) : (s.setReg a w).tbs = s.tbs := rfl
@[simp] theorem setReg_ticks (s : State) (a : Nat) (w : Word) : (s.setReg a w).ticks = s.ticks := rfl
@[simp] theorem setReg_pulses (s : State) (a : Nat) (w : Word) : (s.setReg a w).pulses = s.pulses := rfl
@[simp] theorem setReg_resyncCopied (s : State) (a : Nat) (w : Word) : (s.setReg a w).resyncCopied = s.resyncCopied := rfl
@[simp] theorem setReg_resyncPos (s : State) (a : Nat) (w : Word) : (s.setReg a w).resyncPos = s.resyncPos := rfl
@[simp] theorem setReg_tblResult (s : State) (a : Nat) (w : Word) : (s.setReg a w).tblResult = s.tblResult := rfl
@[simp] theorem setReg_learnAt (s : State) (a : Nat) (w : Word) : (s.setReg a w).learnAt = s.learnAt := rfl
@[simp] theorem setReg_active (s : State) (a : Nat) (w : Word) : (s.setReg a w).active = s.active := rfl
@[simp] theorem setReg_shadow (s : State) (a : Nat) (w : Word) : (s.setReg a w).shadow = s.shadow := rfl
@[simp] theorem setReg_epoch (s : State) (a : Nat) (w : Word) : (s.setReg a w).epoch = s.epoch := rfl
@[simp] theorem setReg_era (s : State) (a : Nat) (w : Word) : (s.setReg a w).era = s.era := rfl
@[simp] theorem setReg_eras (s : State) (a : Nat) (w : Word) : (s.setReg a w).eras = s.eras := rfl
@[simp] theorem setReg_lpddr (s : State) (a : Nat) (w : Word) : (s.setReg a w).lpddr = s.lpddr := rfl
@[simp] theorem setReg_ao (s : State) (a : Nat) (w : Word) : (s.setReg a w).ao = s.ao := rfl
@[simp] theorem setReg_errFifo (s : State) (a : Nat) (w : Word) : (s.setReg a w).errFifo = s.errFifo := rfl
@[simp] theorem setReg_crit (s : State) (a : Nat) (w : Word) : (s.setReg a w).crit = s.crit := rfl
@[simp] theorem setReg_flaps (s : State) (a : Nat) (w : Word) : (s.setReg a w).flaps = s.flaps := rfl
@[simp] theorem setReg_free (s : State) (a : Nat) (w : Word) : (s.setReg a w).free = s.free := rfl
@[simp] theorem setReg_ports (s : State) (a : Nat) (w : Word) : (s.setReg a w).ports = s.ports := rfl
@[simp] theorem setReg_drr (s : State) (a : Nat) (w : Word) : (s.setReg a w).drr = s.drr := rfl
@[simp] theorem setReg_frac (s : State) (a : Nat) (w : Word) : (s.setReg a w).frac = s.frac := rfl
@[simp] theorem setReg_if4Tokens (s : State) (a : Nat) (w : Word) : (s.setReg a w).if4Tokens = s.if4Tokens := rfl
@[simp] theorem setReg_canTokens (s : State) (a : Nat) (w : Word) : (s.setReg a w).canTokens = s.canTokens := rfl
@[simp] theorem setReg_capSram (s : State) (a : Nat) (w : Word) : (s.setReg a w).capSram = s.capSram := rfl
@[simp] theorem setReg_capSample (s : State) (a : Nat) (w : Word) : (s.setReg a w).capSample = s.capSample := rfl
@[simp] theorem setReg_capRate (s : State) (a : Nat) (w : Word) : (s.setReg a w).capRate = s.capRate := rfl
@[simp] theorem setReg_canTwin (s : State) (a : Nat) (w : Word) : (s.setReg a w).canTwin = s.canTwin := rfl
@[simp] theorem setReg_copyNo (s : State) (a : Nat) (w : Word) : (s.setReg a w).copyNo = s.copyNo := rfl
@[simp] theorem setReg_rxNo (s : State) (a : Nat) (w : Word) : (s.setReg a w).rxNo = s.rxNo := rfl
@[simp] theorem setReg_gens (s : State) (a : Nat) (w : Word) : (s.setReg a w).gens = s.gens := rfl
@[simp] theorem setReg_recs (s : State) (a : Nat) (w : Word) : (s.setReg a w).recs = s.recs := rfl
@[simp] theorem setReg_beats (s : State) (a : Nat) (w : Word) : (s.setReg a w).beats = s.beats := rfl
@[simp] theorem setReg_slotsLost (s : State) (a : Nat) (w : Word) : (s.setReg a w).slotsLost = s.slotsLost := rfl
@[simp] theorem setReg_beatNums (s : State) (a : Nat) (w : Word) : (s.setReg a w).beatNums = s.beatNums := rfl
@[simp] theorem setReg_tbFrom (s : State) (a : Nat) (w : Word) : (s.setReg a w).tbFrom = s.tbFrom := rfl
@[simp] theorem setReg_redBusy (s : State) (a : Nat) (w : Word) : (s.setReg a w).redBusy = s.redBusy := rfl
@[simp] theorem setReg_car (s : State) (a : Nat) (w : Word) : (s.setReg a w).car = s.car := rfl
@[simp] theorem setReg_txts (s : State) (a : Nat) (w : Word) : (s.setReg a w).txts = s.txts := rfl
@[simp] theorem setReg_ppsCap (s : State) (a : Nat) (w : Word) : (s.setReg a w).ppsCap = s.ppsCap := rfl
@[simp] theorem setReg_ppsLast (s : State) (a : Nat) (w : Word) : (s.setReg a w).ppsLast = s.ppsLast := rfl
@[simp] theorem setReg_ppsPulses (s : State) (a : Nat) (w : Word) : (s.setReg a w).ppsPulses = s.ppsPulses := rfl
@[simp] theorem setReg_ppsStart (s : State) (a : Nat) (w : Word) : (s.setReg a w).ppsStart = s.ppsStart := rfl
@[simp] theorem setReg_ppsEnd (s : State) (a : Nat) (w : Word) : (s.setReg a w).ppsEnd = s.ppsEnd := rfl
@[simp] theorem setReg_cans (s : State) (a : Nat) (w : Word) : (s.setReg a w).cans = s.cans := rfl
@[simp] theorem setReg_lins (s : State) (a : Nat) (w : Word) : (s.setReg a w).lins = s.lins := rfl
@[simp] theorem setReg_tenants (s : State) (a : Nat) (w : Word) : (s.setReg a w).tenants = s.tenants := rfl
@[simp] theorem setReg_hostMsgs (s : State) (a : Nat) (w : Word) : (s.setReg a w).hostMsgs = s.hostMsgs := rfl
@[simp] theorem setReg_cmdTurn (s : State) (a : Nat) (w : Word) : (s.setReg a w).cmdTurn = s.cmdTurn := rfl
@[simp] theorem setReg_hiWake (s : State) (a : Nat) (w : Word) : (s.setReg a w).hiWake = s.hiWake := rfl
@[simp] theorem setReg_mcMem (s : State) (a : Nat) (w : Word) : (s.setReg a w).mcMem = s.mcMem := rfl
@[simp] theorem setReg_host0 (s : State) (a : Nat) (w : Word) : (s.setReg a w).host0 = s.host0 := rfl
@[simp] theorem setReg_host1 (s : State) (a : Nat) (w : Word) : (s.setReg a w).host1 = s.host1 := rfl
@[simp] theorem setReg_nm (s : State) (a : Nat) (w : Word) : (s.setReg a w).nm = s.nm := rfl
@[simp] theorem setReg_wrec (s : State) (a : Nat) (w : Word) : (s.setReg a w).wrec = s.wrec := rfl
@[simp] theorem setReg_pwr (s : State) (a : Nat) (w : Word) : (s.setReg a w).pwr = s.pwr := rfl
@[simp] theorem setReg_blf (s : State) (a : Nat) (w : Word) : (s.setReg a w).blf = s.blf := rfl
@[simp] theorem setReg_ldgQ (s : State) (a : Nat) (w : Word) : (s.setReg a w).ldgQ = s.ldgQ := rfl
@[simp] theorem setReg_ldgSeq (s : State) (a : Nat) (w : Word) : (s.setReg a w).ldgSeq = s.ldgSeq := rfl
@[simp] theorem setReg_ldgAt (s : State) (a : Nat) (w : Word) : (s.setReg a w).ldgAt = s.ldgAt := rfl
@[simp] theorem setReg_cph (s : State) (a : Nat) (w : Word) : (s.setReg a w).cph = s.cph := rfl
@[simp] theorem setReg_cht (s : State) (a : Nat) (w : Word) : (s.setReg a w).cht = s.cht := rfl
@[simp] theorem setReg_fatal (s : State) (a : Nat) (w : Word) : (s.setReg a w).fatal = s.fatal := rfl
@[simp] theorem setReg_clp (s : State) (a : Nat) (w : Word) : (s.setReg a w).clp = s.clp := rfl
@[simp] theorem setReg_tri (s : State) (a : Nat) (w : Word) : (s.setReg a w).tri = s.tri := rfl
@[simp] theorem setReg_wdg (s : State) (a : Nat) (w : Word) : (s.setReg a w).wdg = s.wdg := rfl
@[simp] theorem setReg_stomps (s : State) (a : Nat) (w : Word) : (s.setReg a w).stomps = s.stomps := rfl
@[simp] theorem setReg_pending (s : State) (a : Nat) (w : Word) : (s.setReg a w).pending = s.pending := rfl

/-! ## put leaves every other field -/

@[simp] theorem put_latches (s : State) (f : Fld) (v : Nat) : (s.put f v).latches = s.latches := rfl
@[simp] theorem put_rdata (s : State) (f : Fld) (v : Nat) : (s.put f v).rdata = s.rdata := rfl
@[simp] theorem put_planeA (s : State) (f : Fld) (v : Nat) : (s.put f v).planeA = s.planeA := rfl
@[simp] theorem put_planeB (s : State) (f : Fld) (v : Nat) : (s.put f v).planeB = s.planeB := rfl
@[simp] theorem put_dm (s : State) (f : Fld) (v : Nat) : (s.put f v).dm = s.dm := rfl
@[simp] theorem put_clk (s : State) (f : Fld) (v : Nat) : (s.put f v).clk = s.clk := rfl
@[simp] theorem put_tbs (s : State) (f : Fld) (v : Nat) : (s.put f v).tbs = s.tbs := rfl
@[simp] theorem put_ticks (s : State) (f : Fld) (v : Nat) : (s.put f v).ticks = s.ticks := rfl
@[simp] theorem put_pulses (s : State) (f : Fld) (v : Nat) : (s.put f v).pulses = s.pulses := rfl
@[simp] theorem put_resyncCopied (s : State) (f : Fld) (v : Nat) : (s.put f v).resyncCopied = s.resyncCopied := rfl
@[simp] theorem put_resyncPos (s : State) (f : Fld) (v : Nat) : (s.put f v).resyncPos = s.resyncPos := rfl
@[simp] theorem put_tblResult (s : State) (f : Fld) (v : Nat) : (s.put f v).tblResult = s.tblResult := rfl
@[simp] theorem put_learnAt (s : State) (f : Fld) (v : Nat) : (s.put f v).learnAt = s.learnAt := rfl
@[simp] theorem put_active (s : State) (f : Fld) (v : Nat) : (s.put f v).active = s.active := rfl
@[simp] theorem put_shadow (s : State) (f : Fld) (v : Nat) : (s.put f v).shadow = s.shadow := rfl
@[simp] theorem put_epoch (s : State) (f : Fld) (v : Nat) : (s.put f v).epoch = s.epoch := rfl
@[simp] theorem put_era (s : State) (f : Fld) (v : Nat) : (s.put f v).era = s.era := rfl
@[simp] theorem put_eras (s : State) (f : Fld) (v : Nat) : (s.put f v).eras = s.eras := rfl
@[simp] theorem put_lpddr (s : State) (f : Fld) (v : Nat) : (s.put f v).lpddr = s.lpddr := rfl
@[simp] theorem put_ao (s : State) (f : Fld) (v : Nat) : (s.put f v).ao = s.ao := rfl
@[simp] theorem put_errFifo (s : State) (f : Fld) (v : Nat) : (s.put f v).errFifo = s.errFifo := rfl
@[simp] theorem put_crit (s : State) (f : Fld) (v : Nat) : (s.put f v).crit = s.crit := rfl
@[simp] theorem put_flaps (s : State) (f : Fld) (v : Nat) : (s.put f v).flaps = s.flaps := rfl
@[simp] theorem put_free (s : State) (f : Fld) (v : Nat) : (s.put f v).free = s.free := rfl
@[simp] theorem put_ports (s : State) (f : Fld) (v : Nat) : (s.put f v).ports = s.ports := rfl
@[simp] theorem put_drr (s : State) (f : Fld) (v : Nat) : (s.put f v).drr = s.drr := rfl
@[simp] theorem put_frac (s : State) (f : Fld) (v : Nat) : (s.put f v).frac = s.frac := rfl
@[simp] theorem put_if4Tokens (s : State) (f : Fld) (v : Nat) : (s.put f v).if4Tokens = s.if4Tokens := rfl
@[simp] theorem put_canTokens (s : State) (f : Fld) (v : Nat) : (s.put f v).canTokens = s.canTokens := rfl
@[simp] theorem put_capSram (s : State) (f : Fld) (v : Nat) : (s.put f v).capSram = s.capSram := rfl
@[simp] theorem put_capSample (s : State) (f : Fld) (v : Nat) : (s.put f v).capSample = s.capSample := rfl
@[simp] theorem put_capRate (s : State) (f : Fld) (v : Nat) : (s.put f v).capRate = s.capRate := rfl
@[simp] theorem put_canTwin (s : State) (f : Fld) (v : Nat) : (s.put f v).canTwin = s.canTwin := rfl
@[simp] theorem put_copyNo (s : State) (f : Fld) (v : Nat) : (s.put f v).copyNo = s.copyNo := rfl
@[simp] theorem put_rxNo (s : State) (f : Fld) (v : Nat) : (s.put f v).rxNo = s.rxNo := rfl
@[simp] theorem put_gens (s : State) (f : Fld) (v : Nat) : (s.put f v).gens = s.gens := rfl
@[simp] theorem put_recs (s : State) (f : Fld) (v : Nat) : (s.put f v).recs = s.recs := rfl
@[simp] theorem put_beats (s : State) (f : Fld) (v : Nat) : (s.put f v).beats = s.beats := rfl
@[simp] theorem put_slotsLost (s : State) (f : Fld) (v : Nat) : (s.put f v).slotsLost = s.slotsLost := rfl
@[simp] theorem put_beatNums (s : State) (f : Fld) (v : Nat) : (s.put f v).beatNums = s.beatNums := rfl
@[simp] theorem put_tbFrom (s : State) (f : Fld) (v : Nat) : (s.put f v).tbFrom = s.tbFrom := rfl
@[simp] theorem put_redBusy (s : State) (f : Fld) (v : Nat) : (s.put f v).redBusy = s.redBusy := rfl
@[simp] theorem put_car (s : State) (f : Fld) (v : Nat) : (s.put f v).car = s.car := rfl
@[simp] theorem put_txts (s : State) (f : Fld) (v : Nat) : (s.put f v).txts = s.txts := rfl
@[simp] theorem put_ppsCap (s : State) (f : Fld) (v : Nat) : (s.put f v).ppsCap = s.ppsCap := rfl
@[simp] theorem put_ppsLast (s : State) (f : Fld) (v : Nat) : (s.put f v).ppsLast = s.ppsLast := rfl
@[simp] theorem put_ppsPulses (s : State) (f : Fld) (v : Nat) : (s.put f v).ppsPulses = s.ppsPulses := rfl
@[simp] theorem put_ppsStart (s : State) (f : Fld) (v : Nat) : (s.put f v).ppsStart = s.ppsStart := rfl
@[simp] theorem put_ppsEnd (s : State) (f : Fld) (v : Nat) : (s.put f v).ppsEnd = s.ppsEnd := rfl
@[simp] theorem put_cans (s : State) (f : Fld) (v : Nat) : (s.put f v).cans = s.cans := rfl
@[simp] theorem put_lins (s : State) (f : Fld) (v : Nat) : (s.put f v).lins = s.lins := rfl
@[simp] theorem put_tenants (s : State) (f : Fld) (v : Nat) : (s.put f v).tenants = s.tenants := rfl
@[simp] theorem put_hostMsgs (s : State) (f : Fld) (v : Nat) : (s.put f v).hostMsgs = s.hostMsgs := rfl
@[simp] theorem put_cmdTurn (s : State) (f : Fld) (v : Nat) : (s.put f v).cmdTurn = s.cmdTurn := rfl
@[simp] theorem put_hiWake (s : State) (f : Fld) (v : Nat) : (s.put f v).hiWake = s.hiWake := rfl
@[simp] theorem put_mcMem (s : State) (f : Fld) (v : Nat) : (s.put f v).mcMem = s.mcMem := rfl
@[simp] theorem put_host0 (s : State) (f : Fld) (v : Nat) : (s.put f v).host0 = s.host0 := rfl
@[simp] theorem put_host1 (s : State) (f : Fld) (v : Nat) : (s.put f v).host1 = s.host1 := rfl
@[simp] theorem put_nm (s : State) (f : Fld) (v : Nat) : (s.put f v).nm = s.nm := rfl
@[simp] theorem put_wrec (s : State) (f : Fld) (v : Nat) : (s.put f v).wrec = s.wrec := rfl
@[simp] theorem put_pwr (s : State) (f : Fld) (v : Nat) : (s.put f v).pwr = s.pwr := rfl
@[simp] theorem put_blf (s : State) (f : Fld) (v : Nat) : (s.put f v).blf = s.blf := rfl
@[simp] theorem put_ldgQ (s : State) (f : Fld) (v : Nat) : (s.put f v).ldgQ = s.ldgQ := rfl
@[simp] theorem put_ldgSeq (s : State) (f : Fld) (v : Nat) : (s.put f v).ldgSeq = s.ldgSeq := rfl
@[simp] theorem put_ldgAt (s : State) (f : Fld) (v : Nat) : (s.put f v).ldgAt = s.ldgAt := rfl
@[simp] theorem put_cph (s : State) (f : Fld) (v : Nat) : (s.put f v).cph = s.cph := rfl
@[simp] theorem put_cht (s : State) (f : Fld) (v : Nat) : (s.put f v).cht = s.cht := rfl
@[simp] theorem put_fatal (s : State) (f : Fld) (v : Nat) : (s.put f v).fatal = s.fatal := rfl
@[simp] theorem put_clp (s : State) (f : Fld) (v : Nat) : (s.put f v).clp = s.clp := rfl
@[simp] theorem put_tri (s : State) (f : Fld) (v : Nat) : (s.put f v).tri = s.tri := rfl
@[simp] theorem put_wdg (s : State) (f : Fld) (v : Nat) : (s.put f v).wdg = s.wdg := rfl
@[simp] theorem put_stomps (s : State) (f : Fld) (v : Nat) : (s.put f v).stomps = s.stomps := rfl
@[simp] theorem put_pending (s : State) (f : Fld) (v : Nat) : (s.put f v).pending = s.pending := rfl

/-! ## setPlane leaves every other field -/

@[simp] theorem setPlane_regs (s : State) (pl : Plane) (p : PlaneSt) : (s.setPlane pl p).regs = s.regs := by cases pl <;> rfl
@[simp] theorem setPlane_latches (s : State) (pl : Plane) (p : PlaneSt) : (s.setPlane pl p).latches = s.latches := by cases pl <;> rfl
@[simp] theorem setPlane_rdata (s : State) (pl : Plane) (p : PlaneSt) : (s.setPlane pl p).rdata = s.rdata := by cases pl <;> rfl
@[simp] theorem setPlane_dm (s : State) (pl : Plane) (p : PlaneSt) : (s.setPlane pl p).dm = s.dm := by cases pl <;> rfl
@[simp] theorem setPlane_clk (s : State) (pl : Plane) (p : PlaneSt) : (s.setPlane pl p).clk = s.clk := by cases pl <;> rfl
@[simp] theorem setPlane_tbs (s : State) (pl : Plane) (p : PlaneSt) : (s.setPlane pl p).tbs = s.tbs := by cases pl <;> rfl
@[simp] theorem setPlane_ticks (s : State) (pl : Plane) (p : PlaneSt) : (s.setPlane pl p).ticks = s.ticks := by cases pl <;> rfl
@[simp] theorem setPlane_pulses (s : State) (pl : Plane) (p : PlaneSt) : (s.setPlane pl p).pulses = s.pulses := by cases pl <;> rfl
@[simp] theorem setPlane_resyncCopied (s : State) (pl : Plane) (p : PlaneSt) : (s.setPlane pl p).resyncCopied = s.resyncCopied := by cases pl <;> rfl
@[simp] theorem setPlane_resyncPos (s : State) (pl : Plane) (p : PlaneSt) : (s.setPlane pl p).resyncPos = s.resyncPos := by cases pl <;> rfl
@[simp] theorem setPlane_tblResult (s : State) (pl : Plane) (p : PlaneSt) : (s.setPlane pl p).tblResult = s.tblResult := by cases pl <;> rfl
@[simp] theorem setPlane_learnAt (s : State) (pl : Plane) (p : PlaneSt) : (s.setPlane pl p).learnAt = s.learnAt := by cases pl <;> rfl
@[simp] theorem setPlane_active (s : State) (pl : Plane) (p : PlaneSt) : (s.setPlane pl p).active = s.active := by cases pl <;> rfl
@[simp] theorem setPlane_shadow (s : State) (pl : Plane) (p : PlaneSt) : (s.setPlane pl p).shadow = s.shadow := by cases pl <;> rfl
@[simp] theorem setPlane_epoch (s : State) (pl : Plane) (p : PlaneSt) : (s.setPlane pl p).epoch = s.epoch := by cases pl <;> rfl
@[simp] theorem setPlane_era (s : State) (pl : Plane) (p : PlaneSt) : (s.setPlane pl p).era = s.era := by cases pl <;> rfl
@[simp] theorem setPlane_eras (s : State) (pl : Plane) (p : PlaneSt) : (s.setPlane pl p).eras = s.eras := by cases pl <;> rfl
@[simp] theorem setPlane_lpddr (s : State) (pl : Plane) (p : PlaneSt) : (s.setPlane pl p).lpddr = s.lpddr := by cases pl <;> rfl
@[simp] theorem setPlane_ao (s : State) (pl : Plane) (p : PlaneSt) : (s.setPlane pl p).ao = s.ao := by cases pl <;> rfl
@[simp] theorem setPlane_errFifo (s : State) (pl : Plane) (p : PlaneSt) : (s.setPlane pl p).errFifo = s.errFifo := by cases pl <;> rfl
@[simp] theorem setPlane_crit (s : State) (pl : Plane) (p : PlaneSt) : (s.setPlane pl p).crit = s.crit := by cases pl <;> rfl
@[simp] theorem setPlane_flaps (s : State) (pl : Plane) (p : PlaneSt) : (s.setPlane pl p).flaps = s.flaps := by cases pl <;> rfl
@[simp] theorem setPlane_free (s : State) (pl : Plane) (p : PlaneSt) : (s.setPlane pl p).free = s.free := by cases pl <;> rfl
@[simp] theorem setPlane_ports (s : State) (pl : Plane) (p : PlaneSt) : (s.setPlane pl p).ports = s.ports := by cases pl <;> rfl
@[simp] theorem setPlane_drr (s : State) (pl : Plane) (p : PlaneSt) : (s.setPlane pl p).drr = s.drr := by cases pl <;> rfl
@[simp] theorem setPlane_frac (s : State) (pl : Plane) (p : PlaneSt) : (s.setPlane pl p).frac = s.frac := by cases pl <;> rfl
@[simp] theorem setPlane_if4Tokens (s : State) (pl : Plane) (p : PlaneSt) : (s.setPlane pl p).if4Tokens = s.if4Tokens := by cases pl <;> rfl
@[simp] theorem setPlane_canTokens (s : State) (pl : Plane) (p : PlaneSt) : (s.setPlane pl p).canTokens = s.canTokens := by cases pl <;> rfl
@[simp] theorem setPlane_capSram (s : State) (pl : Plane) (p : PlaneSt) : (s.setPlane pl p).capSram = s.capSram := by cases pl <;> rfl
@[simp] theorem setPlane_capSample (s : State) (pl : Plane) (p : PlaneSt) : (s.setPlane pl p).capSample = s.capSample := by cases pl <;> rfl
@[simp] theorem setPlane_capRate (s : State) (pl : Plane) (p : PlaneSt) : (s.setPlane pl p).capRate = s.capRate := by cases pl <;> rfl
@[simp] theorem setPlane_canTwin (s : State) (pl : Plane) (p : PlaneSt) : (s.setPlane pl p).canTwin = s.canTwin := by cases pl <;> rfl
@[simp] theorem setPlane_copyNo (s : State) (pl : Plane) (p : PlaneSt) : (s.setPlane pl p).copyNo = s.copyNo := by cases pl <;> rfl
@[simp] theorem setPlane_rxNo (s : State) (pl : Plane) (p : PlaneSt) : (s.setPlane pl p).rxNo = s.rxNo := by cases pl <;> rfl
@[simp] theorem setPlane_gens (s : State) (pl : Plane) (p : PlaneSt) : (s.setPlane pl p).gens = s.gens := by cases pl <;> rfl
@[simp] theorem setPlane_recs (s : State) (pl : Plane) (p : PlaneSt) : (s.setPlane pl p).recs = s.recs := by cases pl <;> rfl
@[simp] theorem setPlane_beats (s : State) (pl : Plane) (p : PlaneSt) : (s.setPlane pl p).beats = s.beats := by cases pl <;> rfl
@[simp] theorem setPlane_slotsLost (s : State) (pl : Plane) (p : PlaneSt) : (s.setPlane pl p).slotsLost = s.slotsLost := by cases pl <;> rfl
@[simp] theorem setPlane_beatNums (s : State) (pl : Plane) (p : PlaneSt) : (s.setPlane pl p).beatNums = s.beatNums := by cases pl <;> rfl
@[simp] theorem setPlane_tbFrom (s : State) (pl : Plane) (p : PlaneSt) : (s.setPlane pl p).tbFrom = s.tbFrom := by cases pl <;> rfl
@[simp] theorem setPlane_redBusy (s : State) (pl : Plane) (p : PlaneSt) : (s.setPlane pl p).redBusy = s.redBusy := by cases pl <;> rfl
@[simp] theorem setPlane_car (s : State) (pl : Plane) (p : PlaneSt) : (s.setPlane pl p).car = s.car := by cases pl <;> rfl
@[simp] theorem setPlane_txts (s : State) (pl : Plane) (p : PlaneSt) : (s.setPlane pl p).txts = s.txts := by cases pl <;> rfl
@[simp] theorem setPlane_ppsCap (s : State) (pl : Plane) (p : PlaneSt) : (s.setPlane pl p).ppsCap = s.ppsCap := by cases pl <;> rfl
@[simp] theorem setPlane_ppsLast (s : State) (pl : Plane) (p : PlaneSt) : (s.setPlane pl p).ppsLast = s.ppsLast := by cases pl <;> rfl
@[simp] theorem setPlane_ppsPulses (s : State) (pl : Plane) (p : PlaneSt) : (s.setPlane pl p).ppsPulses = s.ppsPulses := by cases pl <;> rfl
@[simp] theorem setPlane_ppsStart (s : State) (pl : Plane) (p : PlaneSt) : (s.setPlane pl p).ppsStart = s.ppsStart := by cases pl <;> rfl
@[simp] theorem setPlane_ppsEnd (s : State) (pl : Plane) (p : PlaneSt) : (s.setPlane pl p).ppsEnd = s.ppsEnd := by cases pl <;> rfl
@[simp] theorem setPlane_cans (s : State) (pl : Plane) (p : PlaneSt) : (s.setPlane pl p).cans = s.cans := by cases pl <;> rfl
@[simp] theorem setPlane_lins (s : State) (pl : Plane) (p : PlaneSt) : (s.setPlane pl p).lins = s.lins := by cases pl <;> rfl
@[simp] theorem setPlane_tenants (s : State) (pl : Plane) (p : PlaneSt) : (s.setPlane pl p).tenants = s.tenants := by cases pl <;> rfl
@[simp] theorem setPlane_hostMsgs (s : State) (pl : Plane) (p : PlaneSt) : (s.setPlane pl p).hostMsgs = s.hostMsgs := by cases pl <;> rfl
@[simp] theorem setPlane_cmdTurn (s : State) (pl : Plane) (p : PlaneSt) : (s.setPlane pl p).cmdTurn = s.cmdTurn := by cases pl <;> rfl
@[simp] theorem setPlane_hiWake (s : State) (pl : Plane) (p : PlaneSt) : (s.setPlane pl p).hiWake = s.hiWake := by cases pl <;> rfl
@[simp] theorem setPlane_mcMem (s : State) (pl : Plane) (p : PlaneSt) : (s.setPlane pl p).mcMem = s.mcMem := by cases pl <;> rfl
@[simp] theorem setPlane_host0 (s : State) (pl : Plane) (p : PlaneSt) : (s.setPlane pl p).host0 = s.host0 := by cases pl <;> rfl
@[simp] theorem setPlane_host1 (s : State) (pl : Plane) (p : PlaneSt) : (s.setPlane pl p).host1 = s.host1 := by cases pl <;> rfl
@[simp] theorem setPlane_nm (s : State) (pl : Plane) (p : PlaneSt) : (s.setPlane pl p).nm = s.nm := by cases pl <;> rfl
@[simp] theorem setPlane_wrec (s : State) (pl : Plane) (p : PlaneSt) : (s.setPlane pl p).wrec = s.wrec := by cases pl <;> rfl
@[simp] theorem setPlane_pwr (s : State) (pl : Plane) (p : PlaneSt) : (s.setPlane pl p).pwr = s.pwr := by cases pl <;> rfl
@[simp] theorem setPlane_blf (s : State) (pl : Plane) (p : PlaneSt) : (s.setPlane pl p).blf = s.blf := by cases pl <;> rfl
@[simp] theorem setPlane_ldgQ (s : State) (pl : Plane) (p : PlaneSt) : (s.setPlane pl p).ldgQ = s.ldgQ := by cases pl <;> rfl
@[simp] theorem setPlane_ldgSeq (s : State) (pl : Plane) (p : PlaneSt) : (s.setPlane pl p).ldgSeq = s.ldgSeq := by cases pl <;> rfl
@[simp] theorem setPlane_ldgAt (s : State) (pl : Plane) (p : PlaneSt) : (s.setPlane pl p).ldgAt = s.ldgAt := by cases pl <;> rfl
@[simp] theorem setPlane_cph (s : State) (pl : Plane) (p : PlaneSt) : (s.setPlane pl p).cph = s.cph := by cases pl <;> rfl
@[simp] theorem setPlane_cht (s : State) (pl : Plane) (p : PlaneSt) : (s.setPlane pl p).cht = s.cht := by cases pl <;> rfl
@[simp] theorem setPlane_fatal (s : State) (pl : Plane) (p : PlaneSt) : (s.setPlane pl p).fatal = s.fatal := by cases pl <;> rfl
@[simp] theorem setPlane_clp (s : State) (pl : Plane) (p : PlaneSt) : (s.setPlane pl p).clp = s.clp := by cases pl <;> rfl
@[simp] theorem setPlane_tri (s : State) (pl : Plane) (p : PlaneSt) : (s.setPlane pl p).tri = s.tri := by cases pl <;> rfl
@[simp] theorem setPlane_wdg (s : State) (pl : Plane) (p : PlaneSt) : (s.setPlane pl p).wdg = s.wdg := by cases pl <;> rfl
@[simp] theorem setPlane_stomps (s : State) (pl : Plane) (p : PlaneSt) : (s.setPlane pl p).stomps = s.stomps := by cases pl <;> rfl
@[simp] theorem setPlane_pending (s : State) (pl : Plane) (p : PlaneSt) : (s.setPlane pl p).pending = s.pending := by cases pl <;> rfl

/-! ## setTb leaves every other field -/

@[simp] theorem setTb_regs (s : State) (n : Nat) (t : TimeBase) : (s.setTb n t).regs = s.regs := rfl
@[simp] theorem setTb_latches (s : State) (n : Nat) (t : TimeBase) : (s.setTb n t).latches = s.latches := rfl
@[simp] theorem setTb_rdata (s : State) (n : Nat) (t : TimeBase) : (s.setTb n t).rdata = s.rdata := rfl
@[simp] theorem setTb_planeA (s : State) (n : Nat) (t : TimeBase) : (s.setTb n t).planeA = s.planeA := rfl
@[simp] theorem setTb_planeB (s : State) (n : Nat) (t : TimeBase) : (s.setTb n t).planeB = s.planeB := rfl
@[simp] theorem setTb_dm (s : State) (n : Nat) (t : TimeBase) : (s.setTb n t).dm = s.dm := rfl
@[simp] theorem setTb_clk (s : State) (n : Nat) (t : TimeBase) : (s.setTb n t).clk = s.clk := rfl
@[simp] theorem setTb_ticks (s : State) (n : Nat) (t : TimeBase) : (s.setTb n t).ticks = s.ticks := rfl
@[simp] theorem setTb_pulses (s : State) (n : Nat) (t : TimeBase) : (s.setTb n t).pulses = s.pulses := rfl
@[simp] theorem setTb_resyncCopied (s : State) (n : Nat) (t : TimeBase) : (s.setTb n t).resyncCopied = s.resyncCopied := rfl
@[simp] theorem setTb_resyncPos (s : State) (n : Nat) (t : TimeBase) : (s.setTb n t).resyncPos = s.resyncPos := rfl
@[simp] theorem setTb_tblResult (s : State) (n : Nat) (t : TimeBase) : (s.setTb n t).tblResult = s.tblResult := rfl
@[simp] theorem setTb_learnAt (s : State) (n : Nat) (t : TimeBase) : (s.setTb n t).learnAt = s.learnAt := rfl
@[simp] theorem setTb_active (s : State) (n : Nat) (t : TimeBase) : (s.setTb n t).active = s.active := rfl
@[simp] theorem setTb_shadow (s : State) (n : Nat) (t : TimeBase) : (s.setTb n t).shadow = s.shadow := rfl
@[simp] theorem setTb_epoch (s : State) (n : Nat) (t : TimeBase) : (s.setTb n t).epoch = s.epoch := rfl
@[simp] theorem setTb_era (s : State) (n : Nat) (t : TimeBase) : (s.setTb n t).era = s.era := rfl
@[simp] theorem setTb_eras (s : State) (n : Nat) (t : TimeBase) : (s.setTb n t).eras = s.eras := rfl
@[simp] theorem setTb_lpddr (s : State) (n : Nat) (t : TimeBase) : (s.setTb n t).lpddr = s.lpddr := rfl
@[simp] theorem setTb_ao (s : State) (n : Nat) (t : TimeBase) : (s.setTb n t).ao = s.ao := rfl
@[simp] theorem setTb_errFifo (s : State) (n : Nat) (t : TimeBase) : (s.setTb n t).errFifo = s.errFifo := rfl
@[simp] theorem setTb_crit (s : State) (n : Nat) (t : TimeBase) : (s.setTb n t).crit = s.crit := rfl
@[simp] theorem setTb_flaps (s : State) (n : Nat) (t : TimeBase) : (s.setTb n t).flaps = s.flaps := rfl
@[simp] theorem setTb_free (s : State) (n : Nat) (t : TimeBase) : (s.setTb n t).free = s.free := rfl
@[simp] theorem setTb_ports (s : State) (n : Nat) (t : TimeBase) : (s.setTb n t).ports = s.ports := rfl
@[simp] theorem setTb_drr (s : State) (n : Nat) (t : TimeBase) : (s.setTb n t).drr = s.drr := rfl
@[simp] theorem setTb_frac (s : State) (n : Nat) (t : TimeBase) : (s.setTb n t).frac = s.frac := rfl
@[simp] theorem setTb_if4Tokens (s : State) (n : Nat) (t : TimeBase) : (s.setTb n t).if4Tokens = s.if4Tokens := rfl
@[simp] theorem setTb_canTokens (s : State) (n : Nat) (t : TimeBase) : (s.setTb n t).canTokens = s.canTokens := rfl
@[simp] theorem setTb_capSram (s : State) (n : Nat) (t : TimeBase) : (s.setTb n t).capSram = s.capSram := rfl
@[simp] theorem setTb_capSample (s : State) (n : Nat) (t : TimeBase) : (s.setTb n t).capSample = s.capSample := rfl
@[simp] theorem setTb_capRate (s : State) (n : Nat) (t : TimeBase) : (s.setTb n t).capRate = s.capRate := rfl
@[simp] theorem setTb_canTwin (s : State) (n : Nat) (t : TimeBase) : (s.setTb n t).canTwin = s.canTwin := rfl
@[simp] theorem setTb_copyNo (s : State) (n : Nat) (t : TimeBase) : (s.setTb n t).copyNo = s.copyNo := rfl
@[simp] theorem setTb_rxNo (s : State) (n : Nat) (t : TimeBase) : (s.setTb n t).rxNo = s.rxNo := rfl
@[simp] theorem setTb_gens (s : State) (n : Nat) (t : TimeBase) : (s.setTb n t).gens = s.gens := rfl
@[simp] theorem setTb_recs (s : State) (n : Nat) (t : TimeBase) : (s.setTb n t).recs = s.recs := rfl
@[simp] theorem setTb_beats (s : State) (n : Nat) (t : TimeBase) : (s.setTb n t).beats = s.beats := rfl
@[simp] theorem setTb_slotsLost (s : State) (n : Nat) (t : TimeBase) : (s.setTb n t).slotsLost = s.slotsLost := rfl
@[simp] theorem setTb_beatNums (s : State) (n : Nat) (t : TimeBase) : (s.setTb n t).beatNums = s.beatNums := rfl
@[simp] theorem setTb_tbFrom (s : State) (n : Nat) (t : TimeBase) : (s.setTb n t).tbFrom = s.tbFrom := rfl
@[simp] theorem setTb_redBusy (s : State) (n : Nat) (t : TimeBase) : (s.setTb n t).redBusy = s.redBusy := rfl
@[simp] theorem setTb_car (s : State) (n : Nat) (t : TimeBase) : (s.setTb n t).car = s.car := rfl
@[simp] theorem setTb_txts (s : State) (n : Nat) (t : TimeBase) : (s.setTb n t).txts = s.txts := rfl
@[simp] theorem setTb_ppsCap (s : State) (n : Nat) (t : TimeBase) : (s.setTb n t).ppsCap = s.ppsCap := rfl
@[simp] theorem setTb_ppsLast (s : State) (n : Nat) (t : TimeBase) : (s.setTb n t).ppsLast = s.ppsLast := rfl
@[simp] theorem setTb_ppsPulses (s : State) (n : Nat) (t : TimeBase) : (s.setTb n t).ppsPulses = s.ppsPulses := rfl
@[simp] theorem setTb_ppsStart (s : State) (n : Nat) (t : TimeBase) : (s.setTb n t).ppsStart = s.ppsStart := rfl
@[simp] theorem setTb_ppsEnd (s : State) (n : Nat) (t : TimeBase) : (s.setTb n t).ppsEnd = s.ppsEnd := rfl
@[simp] theorem setTb_cans (s : State) (n : Nat) (t : TimeBase) : (s.setTb n t).cans = s.cans := rfl
@[simp] theorem setTb_lins (s : State) (n : Nat) (t : TimeBase) : (s.setTb n t).lins = s.lins := rfl
@[simp] theorem setTb_tenants (s : State) (n : Nat) (t : TimeBase) : (s.setTb n t).tenants = s.tenants := rfl
@[simp] theorem setTb_hostMsgs (s : State) (n : Nat) (t : TimeBase) : (s.setTb n t).hostMsgs = s.hostMsgs := rfl
@[simp] theorem setTb_cmdTurn (s : State) (n : Nat) (t : TimeBase) : (s.setTb n t).cmdTurn = s.cmdTurn := rfl
@[simp] theorem setTb_hiWake (s : State) (n : Nat) (t : TimeBase) : (s.setTb n t).hiWake = s.hiWake := rfl
@[simp] theorem setTb_mcMem (s : State) (n : Nat) (t : TimeBase) : (s.setTb n t).mcMem = s.mcMem := rfl
@[simp] theorem setTb_host0 (s : State) (n : Nat) (t : TimeBase) : (s.setTb n t).host0 = s.host0 := rfl
@[simp] theorem setTb_host1 (s : State) (n : Nat) (t : TimeBase) : (s.setTb n t).host1 = s.host1 := rfl
@[simp] theorem setTb_nm (s : State) (n : Nat) (t : TimeBase) : (s.setTb n t).nm = s.nm := rfl
@[simp] theorem setTb_wrec (s : State) (n : Nat) (t : TimeBase) : (s.setTb n t).wrec = s.wrec := rfl
@[simp] theorem setTb_pwr (s : State) (n : Nat) (t : TimeBase) : (s.setTb n t).pwr = s.pwr := rfl
@[simp] theorem setTb_blf (s : State) (n : Nat) (t : TimeBase) : (s.setTb n t).blf = s.blf := rfl
@[simp] theorem setTb_ldgQ (s : State) (n : Nat) (t : TimeBase) : (s.setTb n t).ldgQ = s.ldgQ := rfl
@[simp] theorem setTb_ldgSeq (s : State) (n : Nat) (t : TimeBase) : (s.setTb n t).ldgSeq = s.ldgSeq := rfl
@[simp] theorem setTb_ldgAt (s : State) (n : Nat) (t : TimeBase) : (s.setTb n t).ldgAt = s.ldgAt := rfl
@[simp] theorem setTb_cph (s : State) (n : Nat) (t : TimeBase) : (s.setTb n t).cph = s.cph := rfl
@[simp] theorem setTb_cht (s : State) (n : Nat) (t : TimeBase) : (s.setTb n t).cht = s.cht := rfl
@[simp] theorem setTb_fatal (s : State) (n : Nat) (t : TimeBase) : (s.setTb n t).fatal = s.fatal := rfl
@[simp] theorem setTb_clp (s : State) (n : Nat) (t : TimeBase) : (s.setTb n t).clp = s.clp := rfl
@[simp] theorem setTb_tri (s : State) (n : Nat) (t : TimeBase) : (s.setTb n t).tri = s.tri := rfl
@[simp] theorem setTb_wdg (s : State) (n : Nat) (t : TimeBase) : (s.setTb n t).wdg = s.wdg := rfl
@[simp] theorem setTb_stomps (s : State) (n : Nat) (t : TimeBase) : (s.setTb n t).stomps = s.stomps := rfl
@[simp] theorem setTb_pending (s : State) (n : Nat) (t : TimeBase) : (s.setTb n t).pending = s.pending := rfl

/-! ## setPort leaves every other field -/

@[simp] theorem setPort_regs (s : State) (p : Nat) (x : PortSt) : (s.setPort p x).regs = s.regs := rfl
@[simp] theorem setPort_latches (s : State) (p : Nat) (x : PortSt) : (s.setPort p x).latches = s.latches := rfl
@[simp] theorem setPort_rdata (s : State) (p : Nat) (x : PortSt) : (s.setPort p x).rdata = s.rdata := rfl
@[simp] theorem setPort_planeA (s : State) (p : Nat) (x : PortSt) : (s.setPort p x).planeA = s.planeA := rfl
@[simp] theorem setPort_planeB (s : State) (p : Nat) (x : PortSt) : (s.setPort p x).planeB = s.planeB := rfl
@[simp] theorem setPort_dm (s : State) (p : Nat) (x : PortSt) : (s.setPort p x).dm = s.dm := rfl
@[simp] theorem setPort_clk (s : State) (p : Nat) (x : PortSt) : (s.setPort p x).clk = s.clk := rfl
@[simp] theorem setPort_tbs (s : State) (p : Nat) (x : PortSt) : (s.setPort p x).tbs = s.tbs := rfl
@[simp] theorem setPort_ticks (s : State) (p : Nat) (x : PortSt) : (s.setPort p x).ticks = s.ticks := rfl
@[simp] theorem setPort_pulses (s : State) (p : Nat) (x : PortSt) : (s.setPort p x).pulses = s.pulses := rfl
@[simp] theorem setPort_resyncCopied (s : State) (p : Nat) (x : PortSt) : (s.setPort p x).resyncCopied = s.resyncCopied := rfl
@[simp] theorem setPort_resyncPos (s : State) (p : Nat) (x : PortSt) : (s.setPort p x).resyncPos = s.resyncPos := rfl
@[simp] theorem setPort_tblResult (s : State) (p : Nat) (x : PortSt) : (s.setPort p x).tblResult = s.tblResult := rfl
@[simp] theorem setPort_learnAt (s : State) (p : Nat) (x : PortSt) : (s.setPort p x).learnAt = s.learnAt := rfl
@[simp] theorem setPort_active (s : State) (p : Nat) (x : PortSt) : (s.setPort p x).active = s.active := rfl
@[simp] theorem setPort_shadow (s : State) (p : Nat) (x : PortSt) : (s.setPort p x).shadow = s.shadow := rfl
@[simp] theorem setPort_epoch (s : State) (p : Nat) (x : PortSt) : (s.setPort p x).epoch = s.epoch := rfl
@[simp] theorem setPort_era (s : State) (p : Nat) (x : PortSt) : (s.setPort p x).era = s.era := rfl
@[simp] theorem setPort_eras (s : State) (p : Nat) (x : PortSt) : (s.setPort p x).eras = s.eras := rfl
@[simp] theorem setPort_lpddr (s : State) (p : Nat) (x : PortSt) : (s.setPort p x).lpddr = s.lpddr := rfl
@[simp] theorem setPort_ao (s : State) (p : Nat) (x : PortSt) : (s.setPort p x).ao = s.ao := rfl
@[simp] theorem setPort_errFifo (s : State) (p : Nat) (x : PortSt) : (s.setPort p x).errFifo = s.errFifo := rfl
@[simp] theorem setPort_crit (s : State) (p : Nat) (x : PortSt) : (s.setPort p x).crit = s.crit := rfl
@[simp] theorem setPort_flaps (s : State) (p : Nat) (x : PortSt) : (s.setPort p x).flaps = s.flaps := rfl
@[simp] theorem setPort_free (s : State) (p : Nat) (x : PortSt) : (s.setPort p x).free = s.free := rfl
@[simp] theorem setPort_drr (s : State) (p : Nat) (x : PortSt) : (s.setPort p x).drr = s.drr := rfl
@[simp] theorem setPort_frac (s : State) (p : Nat) (x : PortSt) : (s.setPort p x).frac = s.frac := rfl
@[simp] theorem setPort_if4Tokens (s : State) (p : Nat) (x : PortSt) : (s.setPort p x).if4Tokens = s.if4Tokens := rfl
@[simp] theorem setPort_canTokens (s : State) (p : Nat) (x : PortSt) : (s.setPort p x).canTokens = s.canTokens := rfl
@[simp] theorem setPort_capSram (s : State) (p : Nat) (x : PortSt) : (s.setPort p x).capSram = s.capSram := rfl
@[simp] theorem setPort_capSample (s : State) (p : Nat) (x : PortSt) : (s.setPort p x).capSample = s.capSample := rfl
@[simp] theorem setPort_capRate (s : State) (p : Nat) (x : PortSt) : (s.setPort p x).capRate = s.capRate := rfl
@[simp] theorem setPort_canTwin (s : State) (p : Nat) (x : PortSt) : (s.setPort p x).canTwin = s.canTwin := rfl
@[simp] theorem setPort_copyNo (s : State) (p : Nat) (x : PortSt) : (s.setPort p x).copyNo = s.copyNo := rfl
@[simp] theorem setPort_rxNo (s : State) (p : Nat) (x : PortSt) : (s.setPort p x).rxNo = s.rxNo := rfl
@[simp] theorem setPort_gens (s : State) (p : Nat) (x : PortSt) : (s.setPort p x).gens = s.gens := rfl
@[simp] theorem setPort_recs (s : State) (p : Nat) (x : PortSt) : (s.setPort p x).recs = s.recs := rfl
@[simp] theorem setPort_beats (s : State) (p : Nat) (x : PortSt) : (s.setPort p x).beats = s.beats := rfl
@[simp] theorem setPort_slotsLost (s : State) (p : Nat) (x : PortSt) : (s.setPort p x).slotsLost = s.slotsLost := rfl
@[simp] theorem setPort_beatNums (s : State) (p : Nat) (x : PortSt) : (s.setPort p x).beatNums = s.beatNums := rfl
@[simp] theorem setPort_tbFrom (s : State) (p : Nat) (x : PortSt) : (s.setPort p x).tbFrom = s.tbFrom := rfl
@[simp] theorem setPort_redBusy (s : State) (p : Nat) (x : PortSt) : (s.setPort p x).redBusy = s.redBusy := rfl
@[simp] theorem setPort_car (s : State) (p : Nat) (x : PortSt) : (s.setPort p x).car = s.car := rfl
@[simp] theorem setPort_txts (s : State) (p : Nat) (x : PortSt) : (s.setPort p x).txts = s.txts := rfl
@[simp] theorem setPort_ppsCap (s : State) (p : Nat) (x : PortSt) : (s.setPort p x).ppsCap = s.ppsCap := rfl
@[simp] theorem setPort_ppsLast (s : State) (p : Nat) (x : PortSt) : (s.setPort p x).ppsLast = s.ppsLast := rfl
@[simp] theorem setPort_ppsPulses (s : State) (p : Nat) (x : PortSt) : (s.setPort p x).ppsPulses = s.ppsPulses := rfl
@[simp] theorem setPort_ppsStart (s : State) (p : Nat) (x : PortSt) : (s.setPort p x).ppsStart = s.ppsStart := rfl
@[simp] theorem setPort_ppsEnd (s : State) (p : Nat) (x : PortSt) : (s.setPort p x).ppsEnd = s.ppsEnd := rfl
@[simp] theorem setPort_cans (s : State) (p : Nat) (x : PortSt) : (s.setPort p x).cans = s.cans := rfl
@[simp] theorem setPort_lins (s : State) (p : Nat) (x : PortSt) : (s.setPort p x).lins = s.lins := rfl
@[simp] theorem setPort_tenants (s : State) (p : Nat) (x : PortSt) : (s.setPort p x).tenants = s.tenants := rfl
@[simp] theorem setPort_hostMsgs (s : State) (p : Nat) (x : PortSt) : (s.setPort p x).hostMsgs = s.hostMsgs := rfl
@[simp] theorem setPort_cmdTurn (s : State) (p : Nat) (x : PortSt) : (s.setPort p x).cmdTurn = s.cmdTurn := rfl
@[simp] theorem setPort_hiWake (s : State) (p : Nat) (x : PortSt) : (s.setPort p x).hiWake = s.hiWake := rfl
@[simp] theorem setPort_mcMem (s : State) (p : Nat) (x : PortSt) : (s.setPort p x).mcMem = s.mcMem := rfl
@[simp] theorem setPort_host0 (s : State) (p : Nat) (x : PortSt) : (s.setPort p x).host0 = s.host0 := rfl
@[simp] theorem setPort_host1 (s : State) (p : Nat) (x : PortSt) : (s.setPort p x).host1 = s.host1 := rfl
@[simp] theorem setPort_nm (s : State) (p : Nat) (x : PortSt) : (s.setPort p x).nm = s.nm := rfl
@[simp] theorem setPort_wrec (s : State) (p : Nat) (x : PortSt) : (s.setPort p x).wrec = s.wrec := rfl
@[simp] theorem setPort_pwr (s : State) (p : Nat) (x : PortSt) : (s.setPort p x).pwr = s.pwr := rfl
@[simp] theorem setPort_blf (s : State) (p : Nat) (x : PortSt) : (s.setPort p x).blf = s.blf := rfl
@[simp] theorem setPort_ldgQ (s : State) (p : Nat) (x : PortSt) : (s.setPort p x).ldgQ = s.ldgQ := rfl
@[simp] theorem setPort_ldgSeq (s : State) (p : Nat) (x : PortSt) : (s.setPort p x).ldgSeq = s.ldgSeq := rfl
@[simp] theorem setPort_ldgAt (s : State) (p : Nat) (x : PortSt) : (s.setPort p x).ldgAt = s.ldgAt := rfl
@[simp] theorem setPort_cph (s : State) (p : Nat) (x : PortSt) : (s.setPort p x).cph = s.cph := rfl
@[simp] theorem setPort_cht (s : State) (p : Nat) (x : PortSt) : (s.setPort p x).cht = s.cht := rfl
@[simp] theorem setPort_fatal (s : State) (p : Nat) (x : PortSt) : (s.setPort p x).fatal = s.fatal := rfl
@[simp] theorem setPort_clp (s : State) (p : Nat) (x : PortSt) : (s.setPort p x).clp = s.clp := rfl
@[simp] theorem setPort_tri (s : State) (p : Nat) (x : PortSt) : (s.setPort p x).tri = s.tri := rfl
@[simp] theorem setPort_wdg (s : State) (p : Nat) (x : PortSt) : (s.setPort p x).wdg = s.wdg := rfl
@[simp] theorem setPort_stomps (s : State) (p : Nat) (x : PortSt) : (s.setPort p x).stomps = s.stomps := rfl
@[simp] theorem setPort_pending (s : State) (p : Nat) (x : PortSt) : (s.setPort p x).pending = s.pending := rfl

/-! ## setTen leaves every other field -/

@[simp] theorem setTen_regs (s : State) (n : Nat) (x : Tenant) : (s.setTen n x).regs = s.regs := rfl
@[simp] theorem setTen_latches (s : State) (n : Nat) (x : Tenant) : (s.setTen n x).latches = s.latches := rfl
@[simp] theorem setTen_rdata (s : State) (n : Nat) (x : Tenant) : (s.setTen n x).rdata = s.rdata := rfl
@[simp] theorem setTen_planeA (s : State) (n : Nat) (x : Tenant) : (s.setTen n x).planeA = s.planeA := rfl
@[simp] theorem setTen_planeB (s : State) (n : Nat) (x : Tenant) : (s.setTen n x).planeB = s.planeB := rfl
@[simp] theorem setTen_dm (s : State) (n : Nat) (x : Tenant) : (s.setTen n x).dm = s.dm := rfl
@[simp] theorem setTen_clk (s : State) (n : Nat) (x : Tenant) : (s.setTen n x).clk = s.clk := rfl
@[simp] theorem setTen_tbs (s : State) (n : Nat) (x : Tenant) : (s.setTen n x).tbs = s.tbs := rfl
@[simp] theorem setTen_ticks (s : State) (n : Nat) (x : Tenant) : (s.setTen n x).ticks = s.ticks := rfl
@[simp] theorem setTen_pulses (s : State) (n : Nat) (x : Tenant) : (s.setTen n x).pulses = s.pulses := rfl
@[simp] theorem setTen_resyncCopied (s : State) (n : Nat) (x : Tenant) : (s.setTen n x).resyncCopied = s.resyncCopied := rfl
@[simp] theorem setTen_resyncPos (s : State) (n : Nat) (x : Tenant) : (s.setTen n x).resyncPos = s.resyncPos := rfl
@[simp] theorem setTen_tblResult (s : State) (n : Nat) (x : Tenant) : (s.setTen n x).tblResult = s.tblResult := rfl
@[simp] theorem setTen_learnAt (s : State) (n : Nat) (x : Tenant) : (s.setTen n x).learnAt = s.learnAt := rfl
@[simp] theorem setTen_active (s : State) (n : Nat) (x : Tenant) : (s.setTen n x).active = s.active := rfl
@[simp] theorem setTen_shadow (s : State) (n : Nat) (x : Tenant) : (s.setTen n x).shadow = s.shadow := rfl
@[simp] theorem setTen_epoch (s : State) (n : Nat) (x : Tenant) : (s.setTen n x).epoch = s.epoch := rfl
@[simp] theorem setTen_era (s : State) (n : Nat) (x : Tenant) : (s.setTen n x).era = s.era := rfl
@[simp] theorem setTen_eras (s : State) (n : Nat) (x : Tenant) : (s.setTen n x).eras = s.eras := rfl
@[simp] theorem setTen_lpddr (s : State) (n : Nat) (x : Tenant) : (s.setTen n x).lpddr = s.lpddr := rfl
@[simp] theorem setTen_ao (s : State) (n : Nat) (x : Tenant) : (s.setTen n x).ao = s.ao := rfl
@[simp] theorem setTen_errFifo (s : State) (n : Nat) (x : Tenant) : (s.setTen n x).errFifo = s.errFifo := rfl
@[simp] theorem setTen_crit (s : State) (n : Nat) (x : Tenant) : (s.setTen n x).crit = s.crit := rfl
@[simp] theorem setTen_flaps (s : State) (n : Nat) (x : Tenant) : (s.setTen n x).flaps = s.flaps := rfl
@[simp] theorem setTen_free (s : State) (n : Nat) (x : Tenant) : (s.setTen n x).free = s.free := rfl
@[simp] theorem setTen_ports (s : State) (n : Nat) (x : Tenant) : (s.setTen n x).ports = s.ports := rfl
@[simp] theorem setTen_drr (s : State) (n : Nat) (x : Tenant) : (s.setTen n x).drr = s.drr := rfl
@[simp] theorem setTen_frac (s : State) (n : Nat) (x : Tenant) : (s.setTen n x).frac = s.frac := rfl
@[simp] theorem setTen_if4Tokens (s : State) (n : Nat) (x : Tenant) : (s.setTen n x).if4Tokens = s.if4Tokens := rfl
@[simp] theorem setTen_canTokens (s : State) (n : Nat) (x : Tenant) : (s.setTen n x).canTokens = s.canTokens := rfl
@[simp] theorem setTen_capSram (s : State) (n : Nat) (x : Tenant) : (s.setTen n x).capSram = s.capSram := rfl
@[simp] theorem setTen_capSample (s : State) (n : Nat) (x : Tenant) : (s.setTen n x).capSample = s.capSample := rfl
@[simp] theorem setTen_capRate (s : State) (n : Nat) (x : Tenant) : (s.setTen n x).capRate = s.capRate := rfl
@[simp] theorem setTen_canTwin (s : State) (n : Nat) (x : Tenant) : (s.setTen n x).canTwin = s.canTwin := rfl
@[simp] theorem setTen_copyNo (s : State) (n : Nat) (x : Tenant) : (s.setTen n x).copyNo = s.copyNo := rfl
@[simp] theorem setTen_rxNo (s : State) (n : Nat) (x : Tenant) : (s.setTen n x).rxNo = s.rxNo := rfl
@[simp] theorem setTen_gens (s : State) (n : Nat) (x : Tenant) : (s.setTen n x).gens = s.gens := rfl
@[simp] theorem setTen_recs (s : State) (n : Nat) (x : Tenant) : (s.setTen n x).recs = s.recs := rfl
@[simp] theorem setTen_beats (s : State) (n : Nat) (x : Tenant) : (s.setTen n x).beats = s.beats := rfl
@[simp] theorem setTen_slotsLost (s : State) (n : Nat) (x : Tenant) : (s.setTen n x).slotsLost = s.slotsLost := rfl
@[simp] theorem setTen_beatNums (s : State) (n : Nat) (x : Tenant) : (s.setTen n x).beatNums = s.beatNums := rfl
@[simp] theorem setTen_tbFrom (s : State) (n : Nat) (x : Tenant) : (s.setTen n x).tbFrom = s.tbFrom := rfl
@[simp] theorem setTen_redBusy (s : State) (n : Nat) (x : Tenant) : (s.setTen n x).redBusy = s.redBusy := rfl
@[simp] theorem setTen_car (s : State) (n : Nat) (x : Tenant) : (s.setTen n x).car = s.car := rfl
@[simp] theorem setTen_txts (s : State) (n : Nat) (x : Tenant) : (s.setTen n x).txts = s.txts := rfl
@[simp] theorem setTen_ppsCap (s : State) (n : Nat) (x : Tenant) : (s.setTen n x).ppsCap = s.ppsCap := rfl
@[simp] theorem setTen_ppsLast (s : State) (n : Nat) (x : Tenant) : (s.setTen n x).ppsLast = s.ppsLast := rfl
@[simp] theorem setTen_ppsPulses (s : State) (n : Nat) (x : Tenant) : (s.setTen n x).ppsPulses = s.ppsPulses := rfl
@[simp] theorem setTen_ppsStart (s : State) (n : Nat) (x : Tenant) : (s.setTen n x).ppsStart = s.ppsStart := rfl
@[simp] theorem setTen_ppsEnd (s : State) (n : Nat) (x : Tenant) : (s.setTen n x).ppsEnd = s.ppsEnd := rfl
@[simp] theorem setTen_cans (s : State) (n : Nat) (x : Tenant) : (s.setTen n x).cans = s.cans := rfl
@[simp] theorem setTen_lins (s : State) (n : Nat) (x : Tenant) : (s.setTen n x).lins = s.lins := rfl
@[simp] theorem setTen_hostMsgs (s : State) (n : Nat) (x : Tenant) : (s.setTen n x).hostMsgs = s.hostMsgs := rfl
@[simp] theorem setTen_cmdTurn (s : State) (n : Nat) (x : Tenant) : (s.setTen n x).cmdTurn = s.cmdTurn := rfl
@[simp] theorem setTen_hiWake (s : State) (n : Nat) (x : Tenant) : (s.setTen n x).hiWake = s.hiWake := rfl
@[simp] theorem setTen_mcMem (s : State) (n : Nat) (x : Tenant) : (s.setTen n x).mcMem = s.mcMem := rfl
@[simp] theorem setTen_host0 (s : State) (n : Nat) (x : Tenant) : (s.setTen n x).host0 = s.host0 := rfl
@[simp] theorem setTen_host1 (s : State) (n : Nat) (x : Tenant) : (s.setTen n x).host1 = s.host1 := rfl
@[simp] theorem setTen_nm (s : State) (n : Nat) (x : Tenant) : (s.setTen n x).nm = s.nm := rfl
@[simp] theorem setTen_wrec (s : State) (n : Nat) (x : Tenant) : (s.setTen n x).wrec = s.wrec := rfl
@[simp] theorem setTen_pwr (s : State) (n : Nat) (x : Tenant) : (s.setTen n x).pwr = s.pwr := rfl
@[simp] theorem setTen_blf (s : State) (n : Nat) (x : Tenant) : (s.setTen n x).blf = s.blf := rfl
@[simp] theorem setTen_ldgQ (s : State) (n : Nat) (x : Tenant) : (s.setTen n x).ldgQ = s.ldgQ := rfl
@[simp] theorem setTen_ldgSeq (s : State) (n : Nat) (x : Tenant) : (s.setTen n x).ldgSeq = s.ldgSeq := rfl
@[simp] theorem setTen_ldgAt (s : State) (n : Nat) (x : Tenant) : (s.setTen n x).ldgAt = s.ldgAt := rfl
@[simp] theorem setTen_cph (s : State) (n : Nat) (x : Tenant) : (s.setTen n x).cph = s.cph := rfl
@[simp] theorem setTen_cht (s : State) (n : Nat) (x : Tenant) : (s.setTen n x).cht = s.cht := rfl
@[simp] theorem setTen_fatal (s : State) (n : Nat) (x : Tenant) : (s.setTen n x).fatal = s.fatal := rfl
@[simp] theorem setTen_clp (s : State) (n : Nat) (x : Tenant) : (s.setTen n x).clp = s.clp := rfl
@[simp] theorem setTen_tri (s : State) (n : Nat) (x : Tenant) : (s.setTen n x).tri = s.tri := rfl
@[simp] theorem setTen_wdg (s : State) (n : Nat) (x : Tenant) : (s.setTen n x).wdg = s.wdg := rfl
@[simp] theorem setTen_stomps (s : State) (n : Nat) (x : Tenant) : (s.setTen n x).stomps = s.stomps := rfl
@[simp] theorem setTen_pending (s : State) (n : Nat) (x : Tenant) : (s.setTen n x).pending = s.pending := rfl

/-! ## setCan leaves every other field -/

@[simp] theorem setCan_regs (s : State) (n : Nat) (x : CanSt) : (s.setCan n x).regs = s.regs := rfl
@[simp] theorem setCan_latches (s : State) (n : Nat) (x : CanSt) : (s.setCan n x).latches = s.latches := rfl
@[simp] theorem setCan_rdata (s : State) (n : Nat) (x : CanSt) : (s.setCan n x).rdata = s.rdata := rfl
@[simp] theorem setCan_planeA (s : State) (n : Nat) (x : CanSt) : (s.setCan n x).planeA = s.planeA := rfl
@[simp] theorem setCan_planeB (s : State) (n : Nat) (x : CanSt) : (s.setCan n x).planeB = s.planeB := rfl
@[simp] theorem setCan_dm (s : State) (n : Nat) (x : CanSt) : (s.setCan n x).dm = s.dm := rfl
@[simp] theorem setCan_clk (s : State) (n : Nat) (x : CanSt) : (s.setCan n x).clk = s.clk := rfl
@[simp] theorem setCan_tbs (s : State) (n : Nat) (x : CanSt) : (s.setCan n x).tbs = s.tbs := rfl
@[simp] theorem setCan_ticks (s : State) (n : Nat) (x : CanSt) : (s.setCan n x).ticks = s.ticks := rfl
@[simp] theorem setCan_pulses (s : State) (n : Nat) (x : CanSt) : (s.setCan n x).pulses = s.pulses := rfl
@[simp] theorem setCan_resyncCopied (s : State) (n : Nat) (x : CanSt) : (s.setCan n x).resyncCopied = s.resyncCopied := rfl
@[simp] theorem setCan_resyncPos (s : State) (n : Nat) (x : CanSt) : (s.setCan n x).resyncPos = s.resyncPos := rfl
@[simp] theorem setCan_tblResult (s : State) (n : Nat) (x : CanSt) : (s.setCan n x).tblResult = s.tblResult := rfl
@[simp] theorem setCan_learnAt (s : State) (n : Nat) (x : CanSt) : (s.setCan n x).learnAt = s.learnAt := rfl
@[simp] theorem setCan_active (s : State) (n : Nat) (x : CanSt) : (s.setCan n x).active = s.active := rfl
@[simp] theorem setCan_shadow (s : State) (n : Nat) (x : CanSt) : (s.setCan n x).shadow = s.shadow := rfl
@[simp] theorem setCan_epoch (s : State) (n : Nat) (x : CanSt) : (s.setCan n x).epoch = s.epoch := rfl
@[simp] theorem setCan_era (s : State) (n : Nat) (x : CanSt) : (s.setCan n x).era = s.era := rfl
@[simp] theorem setCan_eras (s : State) (n : Nat) (x : CanSt) : (s.setCan n x).eras = s.eras := rfl
@[simp] theorem setCan_lpddr (s : State) (n : Nat) (x : CanSt) : (s.setCan n x).lpddr = s.lpddr := rfl
@[simp] theorem setCan_ao (s : State) (n : Nat) (x : CanSt) : (s.setCan n x).ao = s.ao := rfl
@[simp] theorem setCan_errFifo (s : State) (n : Nat) (x : CanSt) : (s.setCan n x).errFifo = s.errFifo := rfl
@[simp] theorem setCan_crit (s : State) (n : Nat) (x : CanSt) : (s.setCan n x).crit = s.crit := rfl
@[simp] theorem setCan_flaps (s : State) (n : Nat) (x : CanSt) : (s.setCan n x).flaps = s.flaps := rfl
@[simp] theorem setCan_free (s : State) (n : Nat) (x : CanSt) : (s.setCan n x).free = s.free := rfl
@[simp] theorem setCan_ports (s : State) (n : Nat) (x : CanSt) : (s.setCan n x).ports = s.ports := rfl
@[simp] theorem setCan_drr (s : State) (n : Nat) (x : CanSt) : (s.setCan n x).drr = s.drr := rfl
@[simp] theorem setCan_frac (s : State) (n : Nat) (x : CanSt) : (s.setCan n x).frac = s.frac := rfl
@[simp] theorem setCan_if4Tokens (s : State) (n : Nat) (x : CanSt) : (s.setCan n x).if4Tokens = s.if4Tokens := rfl
@[simp] theorem setCan_canTokens (s : State) (n : Nat) (x : CanSt) : (s.setCan n x).canTokens = s.canTokens := rfl
@[simp] theorem setCan_capSram (s : State) (n : Nat) (x : CanSt) : (s.setCan n x).capSram = s.capSram := rfl
@[simp] theorem setCan_capSample (s : State) (n : Nat) (x : CanSt) : (s.setCan n x).capSample = s.capSample := rfl
@[simp] theorem setCan_capRate (s : State) (n : Nat) (x : CanSt) : (s.setCan n x).capRate = s.capRate := rfl
@[simp] theorem setCan_canTwin (s : State) (n : Nat) (x : CanSt) : (s.setCan n x).canTwin = s.canTwin := rfl
@[simp] theorem setCan_copyNo (s : State) (n : Nat) (x : CanSt) : (s.setCan n x).copyNo = s.copyNo := rfl
@[simp] theorem setCan_rxNo (s : State) (n : Nat) (x : CanSt) : (s.setCan n x).rxNo = s.rxNo := rfl
@[simp] theorem setCan_gens (s : State) (n : Nat) (x : CanSt) : (s.setCan n x).gens = s.gens := rfl
@[simp] theorem setCan_recs (s : State) (n : Nat) (x : CanSt) : (s.setCan n x).recs = s.recs := rfl
@[simp] theorem setCan_beats (s : State) (n : Nat) (x : CanSt) : (s.setCan n x).beats = s.beats := rfl
@[simp] theorem setCan_slotsLost (s : State) (n : Nat) (x : CanSt) : (s.setCan n x).slotsLost = s.slotsLost := rfl
@[simp] theorem setCan_beatNums (s : State) (n : Nat) (x : CanSt) : (s.setCan n x).beatNums = s.beatNums := rfl
@[simp] theorem setCan_tbFrom (s : State) (n : Nat) (x : CanSt) : (s.setCan n x).tbFrom = s.tbFrom := rfl
@[simp] theorem setCan_redBusy (s : State) (n : Nat) (x : CanSt) : (s.setCan n x).redBusy = s.redBusy := rfl
@[simp] theorem setCan_car (s : State) (n : Nat) (x : CanSt) : (s.setCan n x).car = s.car := rfl
@[simp] theorem setCan_txts (s : State) (n : Nat) (x : CanSt) : (s.setCan n x).txts = s.txts := rfl
@[simp] theorem setCan_ppsCap (s : State) (n : Nat) (x : CanSt) : (s.setCan n x).ppsCap = s.ppsCap := rfl
@[simp] theorem setCan_ppsLast (s : State) (n : Nat) (x : CanSt) : (s.setCan n x).ppsLast = s.ppsLast := rfl
@[simp] theorem setCan_ppsPulses (s : State) (n : Nat) (x : CanSt) : (s.setCan n x).ppsPulses = s.ppsPulses := rfl
@[simp] theorem setCan_ppsStart (s : State) (n : Nat) (x : CanSt) : (s.setCan n x).ppsStart = s.ppsStart := rfl
@[simp] theorem setCan_ppsEnd (s : State) (n : Nat) (x : CanSt) : (s.setCan n x).ppsEnd = s.ppsEnd := rfl
@[simp] theorem setCan_lins (s : State) (n : Nat) (x : CanSt) : (s.setCan n x).lins = s.lins := rfl
@[simp] theorem setCan_tenants (s : State) (n : Nat) (x : CanSt) : (s.setCan n x).tenants = s.tenants := rfl
@[simp] theorem setCan_hostMsgs (s : State) (n : Nat) (x : CanSt) : (s.setCan n x).hostMsgs = s.hostMsgs := rfl
@[simp] theorem setCan_cmdTurn (s : State) (n : Nat) (x : CanSt) : (s.setCan n x).cmdTurn = s.cmdTurn := rfl
@[simp] theorem setCan_hiWake (s : State) (n : Nat) (x : CanSt) : (s.setCan n x).hiWake = s.hiWake := rfl
@[simp] theorem setCan_mcMem (s : State) (n : Nat) (x : CanSt) : (s.setCan n x).mcMem = s.mcMem := rfl
@[simp] theorem setCan_host0 (s : State) (n : Nat) (x : CanSt) : (s.setCan n x).host0 = s.host0 := rfl
@[simp] theorem setCan_host1 (s : State) (n : Nat) (x : CanSt) : (s.setCan n x).host1 = s.host1 := rfl
@[simp] theorem setCan_nm (s : State) (n : Nat) (x : CanSt) : (s.setCan n x).nm = s.nm := rfl
@[simp] theorem setCan_wrec (s : State) (n : Nat) (x : CanSt) : (s.setCan n x).wrec = s.wrec := rfl
@[simp] theorem setCan_pwr (s : State) (n : Nat) (x : CanSt) : (s.setCan n x).pwr = s.pwr := rfl
@[simp] theorem setCan_blf (s : State) (n : Nat) (x : CanSt) : (s.setCan n x).blf = s.blf := rfl
@[simp] theorem setCan_ldgQ (s : State) (n : Nat) (x : CanSt) : (s.setCan n x).ldgQ = s.ldgQ := rfl
@[simp] theorem setCan_ldgSeq (s : State) (n : Nat) (x : CanSt) : (s.setCan n x).ldgSeq = s.ldgSeq := rfl
@[simp] theorem setCan_ldgAt (s : State) (n : Nat) (x : CanSt) : (s.setCan n x).ldgAt = s.ldgAt := rfl
@[simp] theorem setCan_cph (s : State) (n : Nat) (x : CanSt) : (s.setCan n x).cph = s.cph := rfl
@[simp] theorem setCan_cht (s : State) (n : Nat) (x : CanSt) : (s.setCan n x).cht = s.cht := rfl
@[simp] theorem setCan_fatal (s : State) (n : Nat) (x : CanSt) : (s.setCan n x).fatal = s.fatal := rfl
@[simp] theorem setCan_clp (s : State) (n : Nat) (x : CanSt) : (s.setCan n x).clp = s.clp := rfl
@[simp] theorem setCan_tri (s : State) (n : Nat) (x : CanSt) : (s.setCan n x).tri = s.tri := rfl
@[simp] theorem setCan_wdg (s : State) (n : Nat) (x : CanSt) : (s.setCan n x).wdg = s.wdg := rfl
@[simp] theorem setCan_stomps (s : State) (n : Nat) (x : CanSt) : (s.setCan n x).stomps = s.stomps := rfl
@[simp] theorem setCan_pending (s : State) (n : Nat) (x : CanSt) : (s.setCan n x).pending = s.pending := rfl

/-! ## setLin leaves every other field -/

@[simp] theorem setLin_regs (s : State) (n : Nat) (x : LinSt) : (s.setLin n x).regs = s.regs := rfl
@[simp] theorem setLin_latches (s : State) (n : Nat) (x : LinSt) : (s.setLin n x).latches = s.latches := rfl
@[simp] theorem setLin_rdata (s : State) (n : Nat) (x : LinSt) : (s.setLin n x).rdata = s.rdata := rfl
@[simp] theorem setLin_planeA (s : State) (n : Nat) (x : LinSt) : (s.setLin n x).planeA = s.planeA := rfl
@[simp] theorem setLin_planeB (s : State) (n : Nat) (x : LinSt) : (s.setLin n x).planeB = s.planeB := rfl
@[simp] theorem setLin_dm (s : State) (n : Nat) (x : LinSt) : (s.setLin n x).dm = s.dm := rfl
@[simp] theorem setLin_clk (s : State) (n : Nat) (x : LinSt) : (s.setLin n x).clk = s.clk := rfl
@[simp] theorem setLin_tbs (s : State) (n : Nat) (x : LinSt) : (s.setLin n x).tbs = s.tbs := rfl
@[simp] theorem setLin_ticks (s : State) (n : Nat) (x : LinSt) : (s.setLin n x).ticks = s.ticks := rfl
@[simp] theorem setLin_pulses (s : State) (n : Nat) (x : LinSt) : (s.setLin n x).pulses = s.pulses := rfl
@[simp] theorem setLin_resyncCopied (s : State) (n : Nat) (x : LinSt) : (s.setLin n x).resyncCopied = s.resyncCopied := rfl
@[simp] theorem setLin_resyncPos (s : State) (n : Nat) (x : LinSt) : (s.setLin n x).resyncPos = s.resyncPos := rfl
@[simp] theorem setLin_tblResult (s : State) (n : Nat) (x : LinSt) : (s.setLin n x).tblResult = s.tblResult := rfl
@[simp] theorem setLin_learnAt (s : State) (n : Nat) (x : LinSt) : (s.setLin n x).learnAt = s.learnAt := rfl
@[simp] theorem setLin_active (s : State) (n : Nat) (x : LinSt) : (s.setLin n x).active = s.active := rfl
@[simp] theorem setLin_shadow (s : State) (n : Nat) (x : LinSt) : (s.setLin n x).shadow = s.shadow := rfl
@[simp] theorem setLin_epoch (s : State) (n : Nat) (x : LinSt) : (s.setLin n x).epoch = s.epoch := rfl
@[simp] theorem setLin_era (s : State) (n : Nat) (x : LinSt) : (s.setLin n x).era = s.era := rfl
@[simp] theorem setLin_eras (s : State) (n : Nat) (x : LinSt) : (s.setLin n x).eras = s.eras := rfl
@[simp] theorem setLin_lpddr (s : State) (n : Nat) (x : LinSt) : (s.setLin n x).lpddr = s.lpddr := rfl
@[simp] theorem setLin_ao (s : State) (n : Nat) (x : LinSt) : (s.setLin n x).ao = s.ao := rfl
@[simp] theorem setLin_errFifo (s : State) (n : Nat) (x : LinSt) : (s.setLin n x).errFifo = s.errFifo := rfl
@[simp] theorem setLin_crit (s : State) (n : Nat) (x : LinSt) : (s.setLin n x).crit = s.crit := rfl
@[simp] theorem setLin_flaps (s : State) (n : Nat) (x : LinSt) : (s.setLin n x).flaps = s.flaps := rfl
@[simp] theorem setLin_free (s : State) (n : Nat) (x : LinSt) : (s.setLin n x).free = s.free := rfl
@[simp] theorem setLin_ports (s : State) (n : Nat) (x : LinSt) : (s.setLin n x).ports = s.ports := rfl
@[simp] theorem setLin_drr (s : State) (n : Nat) (x : LinSt) : (s.setLin n x).drr = s.drr := rfl
@[simp] theorem setLin_frac (s : State) (n : Nat) (x : LinSt) : (s.setLin n x).frac = s.frac := rfl
@[simp] theorem setLin_if4Tokens (s : State) (n : Nat) (x : LinSt) : (s.setLin n x).if4Tokens = s.if4Tokens := rfl
@[simp] theorem setLin_canTokens (s : State) (n : Nat) (x : LinSt) : (s.setLin n x).canTokens = s.canTokens := rfl
@[simp] theorem setLin_capSram (s : State) (n : Nat) (x : LinSt) : (s.setLin n x).capSram = s.capSram := rfl
@[simp] theorem setLin_capSample (s : State) (n : Nat) (x : LinSt) : (s.setLin n x).capSample = s.capSample := rfl
@[simp] theorem setLin_capRate (s : State) (n : Nat) (x : LinSt) : (s.setLin n x).capRate = s.capRate := rfl
@[simp] theorem setLin_canTwin (s : State) (n : Nat) (x : LinSt) : (s.setLin n x).canTwin = s.canTwin := rfl
@[simp] theorem setLin_copyNo (s : State) (n : Nat) (x : LinSt) : (s.setLin n x).copyNo = s.copyNo := rfl
@[simp] theorem setLin_rxNo (s : State) (n : Nat) (x : LinSt) : (s.setLin n x).rxNo = s.rxNo := rfl
@[simp] theorem setLin_gens (s : State) (n : Nat) (x : LinSt) : (s.setLin n x).gens = s.gens := rfl
@[simp] theorem setLin_recs (s : State) (n : Nat) (x : LinSt) : (s.setLin n x).recs = s.recs := rfl
@[simp] theorem setLin_beats (s : State) (n : Nat) (x : LinSt) : (s.setLin n x).beats = s.beats := rfl
@[simp] theorem setLin_slotsLost (s : State) (n : Nat) (x : LinSt) : (s.setLin n x).slotsLost = s.slotsLost := rfl
@[simp] theorem setLin_beatNums (s : State) (n : Nat) (x : LinSt) : (s.setLin n x).beatNums = s.beatNums := rfl
@[simp] theorem setLin_tbFrom (s : State) (n : Nat) (x : LinSt) : (s.setLin n x).tbFrom = s.tbFrom := rfl
@[simp] theorem setLin_redBusy (s : State) (n : Nat) (x : LinSt) : (s.setLin n x).redBusy = s.redBusy := rfl
@[simp] theorem setLin_car (s : State) (n : Nat) (x : LinSt) : (s.setLin n x).car = s.car := rfl
@[simp] theorem setLin_txts (s : State) (n : Nat) (x : LinSt) : (s.setLin n x).txts = s.txts := rfl
@[simp] theorem setLin_ppsCap (s : State) (n : Nat) (x : LinSt) : (s.setLin n x).ppsCap = s.ppsCap := rfl
@[simp] theorem setLin_ppsLast (s : State) (n : Nat) (x : LinSt) : (s.setLin n x).ppsLast = s.ppsLast := rfl
@[simp] theorem setLin_ppsPulses (s : State) (n : Nat) (x : LinSt) : (s.setLin n x).ppsPulses = s.ppsPulses := rfl
@[simp] theorem setLin_ppsStart (s : State) (n : Nat) (x : LinSt) : (s.setLin n x).ppsStart = s.ppsStart := rfl
@[simp] theorem setLin_ppsEnd (s : State) (n : Nat) (x : LinSt) : (s.setLin n x).ppsEnd = s.ppsEnd := rfl
@[simp] theorem setLin_cans (s : State) (n : Nat) (x : LinSt) : (s.setLin n x).cans = s.cans := rfl
@[simp] theorem setLin_tenants (s : State) (n : Nat) (x : LinSt) : (s.setLin n x).tenants = s.tenants := rfl
@[simp] theorem setLin_hostMsgs (s : State) (n : Nat) (x : LinSt) : (s.setLin n x).hostMsgs = s.hostMsgs := rfl
@[simp] theorem setLin_cmdTurn (s : State) (n : Nat) (x : LinSt) : (s.setLin n x).cmdTurn = s.cmdTurn := rfl
@[simp] theorem setLin_hiWake (s : State) (n : Nat) (x : LinSt) : (s.setLin n x).hiWake = s.hiWake := rfl
@[simp] theorem setLin_mcMem (s : State) (n : Nat) (x : LinSt) : (s.setLin n x).mcMem = s.mcMem := rfl
@[simp] theorem setLin_host0 (s : State) (n : Nat) (x : LinSt) : (s.setLin n x).host0 = s.host0 := rfl
@[simp] theorem setLin_host1 (s : State) (n : Nat) (x : LinSt) : (s.setLin n x).host1 = s.host1 := rfl
@[simp] theorem setLin_nm (s : State) (n : Nat) (x : LinSt) : (s.setLin n x).nm = s.nm := rfl
@[simp] theorem setLin_wrec (s : State) (n : Nat) (x : LinSt) : (s.setLin n x).wrec = s.wrec := rfl
@[simp] theorem setLin_pwr (s : State) (n : Nat) (x : LinSt) : (s.setLin n x).pwr = s.pwr := rfl
@[simp] theorem setLin_blf (s : State) (n : Nat) (x : LinSt) : (s.setLin n x).blf = s.blf := rfl
@[simp] theorem setLin_ldgQ (s : State) (n : Nat) (x : LinSt) : (s.setLin n x).ldgQ = s.ldgQ := rfl
@[simp] theorem setLin_ldgSeq (s : State) (n : Nat) (x : LinSt) : (s.setLin n x).ldgSeq = s.ldgSeq := rfl
@[simp] theorem setLin_ldgAt (s : State) (n : Nat) (x : LinSt) : (s.setLin n x).ldgAt = s.ldgAt := rfl
@[simp] theorem setLin_cph (s : State) (n : Nat) (x : LinSt) : (s.setLin n x).cph = s.cph := rfl
@[simp] theorem setLin_cht (s : State) (n : Nat) (x : LinSt) : (s.setLin n x).cht = s.cht := rfl
@[simp] theorem setLin_fatal (s : State) (n : Nat) (x : LinSt) : (s.setLin n x).fatal = s.fatal := rfl
@[simp] theorem setLin_clp (s : State) (n : Nat) (x : LinSt) : (s.setLin n x).clp = s.clp := rfl
@[simp] theorem setLin_tri (s : State) (n : Nat) (x : LinSt) : (s.setLin n x).tri = s.tri := rfl
@[simp] theorem setLin_wdg (s : State) (n : Nat) (x : LinSt) : (s.setLin n x).wdg = s.wdg := rfl
@[simp] theorem setLin_stomps (s : State) (n : Nat) (x : LinSt) : (s.setLin n x).stomps = s.stomps := rfl
@[simp] theorem setLin_pending (s : State) (n : Nat) (x : LinSt) : (s.setLin n x).pending = s.pending := rfl

/-! ## withPending leaves every other field -/

@[simp] theorem withPending_regs (s : State) (q : List Instr) : (s.withPending q).regs = s.regs := rfl
@[simp] theorem withPending_latches (s : State) (q : List Instr) : (s.withPending q).latches = s.latches := rfl
@[simp] theorem withPending_rdata (s : State) (q : List Instr) : (s.withPending q).rdata = s.rdata := rfl
@[simp] theorem withPending_planeA (s : State) (q : List Instr) : (s.withPending q).planeA = s.planeA := rfl
@[simp] theorem withPending_planeB (s : State) (q : List Instr) : (s.withPending q).planeB = s.planeB := rfl
@[simp] theorem withPending_dm (s : State) (q : List Instr) : (s.withPending q).dm = s.dm := rfl
@[simp] theorem withPending_clk (s : State) (q : List Instr) : (s.withPending q).clk = s.clk := rfl
@[simp] theorem withPending_tbs (s : State) (q : List Instr) : (s.withPending q).tbs = s.tbs := rfl
@[simp] theorem withPending_ticks (s : State) (q : List Instr) : (s.withPending q).ticks = s.ticks := rfl
@[simp] theorem withPending_pulses (s : State) (q : List Instr) : (s.withPending q).pulses = s.pulses := rfl
@[simp] theorem withPending_resyncCopied (s : State) (q : List Instr) : (s.withPending q).resyncCopied = s.resyncCopied := rfl
@[simp] theorem withPending_resyncPos (s : State) (q : List Instr) : (s.withPending q).resyncPos = s.resyncPos := rfl
@[simp] theorem withPending_tblResult (s : State) (q : List Instr) : (s.withPending q).tblResult = s.tblResult := rfl
@[simp] theorem withPending_learnAt (s : State) (q : List Instr) : (s.withPending q).learnAt = s.learnAt := rfl
@[simp] theorem withPending_active (s : State) (q : List Instr) : (s.withPending q).active = s.active := rfl
@[simp] theorem withPending_shadow (s : State) (q : List Instr) : (s.withPending q).shadow = s.shadow := rfl
@[simp] theorem withPending_epoch (s : State) (q : List Instr) : (s.withPending q).epoch = s.epoch := rfl
@[simp] theorem withPending_era (s : State) (q : List Instr) : (s.withPending q).era = s.era := rfl
@[simp] theorem withPending_eras (s : State) (q : List Instr) : (s.withPending q).eras = s.eras := rfl
@[simp] theorem withPending_lpddr (s : State) (q : List Instr) : (s.withPending q).lpddr = s.lpddr := rfl
@[simp] theorem withPending_ao (s : State) (q : List Instr) : (s.withPending q).ao = s.ao := rfl
@[simp] theorem withPending_errFifo (s : State) (q : List Instr) : (s.withPending q).errFifo = s.errFifo := rfl
@[simp] theorem withPending_crit (s : State) (q : List Instr) : (s.withPending q).crit = s.crit := rfl
@[simp] theorem withPending_flaps (s : State) (q : List Instr) : (s.withPending q).flaps = s.flaps := rfl
@[simp] theorem withPending_free (s : State) (q : List Instr) : (s.withPending q).free = s.free := rfl
@[simp] theorem withPending_ports (s : State) (q : List Instr) : (s.withPending q).ports = s.ports := rfl
@[simp] theorem withPending_drr (s : State) (q : List Instr) : (s.withPending q).drr = s.drr := rfl
@[simp] theorem withPending_frac (s : State) (q : List Instr) : (s.withPending q).frac = s.frac := rfl
@[simp] theorem withPending_if4Tokens (s : State) (q : List Instr) : (s.withPending q).if4Tokens = s.if4Tokens := rfl
@[simp] theorem withPending_canTokens (s : State) (q : List Instr) : (s.withPending q).canTokens = s.canTokens := rfl
@[simp] theorem withPending_capSram (s : State) (q : List Instr) : (s.withPending q).capSram = s.capSram := rfl
@[simp] theorem withPending_capSample (s : State) (q : List Instr) : (s.withPending q).capSample = s.capSample := rfl
@[simp] theorem withPending_capRate (s : State) (q : List Instr) : (s.withPending q).capRate = s.capRate := rfl
@[simp] theorem withPending_canTwin (s : State) (q : List Instr) : (s.withPending q).canTwin = s.canTwin := rfl
@[simp] theorem withPending_copyNo (s : State) (q : List Instr) : (s.withPending q).copyNo = s.copyNo := rfl
@[simp] theorem withPending_rxNo (s : State) (q : List Instr) : (s.withPending q).rxNo = s.rxNo := rfl
@[simp] theorem withPending_gens (s : State) (q : List Instr) : (s.withPending q).gens = s.gens := rfl
@[simp] theorem withPending_recs (s : State) (q : List Instr) : (s.withPending q).recs = s.recs := rfl
@[simp] theorem withPending_beats (s : State) (q : List Instr) : (s.withPending q).beats = s.beats := rfl
@[simp] theorem withPending_slotsLost (s : State) (q : List Instr) : (s.withPending q).slotsLost = s.slotsLost := rfl
@[simp] theorem withPending_beatNums (s : State) (q : List Instr) : (s.withPending q).beatNums = s.beatNums := rfl
@[simp] theorem withPending_tbFrom (s : State) (q : List Instr) : (s.withPending q).tbFrom = s.tbFrom := rfl
@[simp] theorem withPending_redBusy (s : State) (q : List Instr) : (s.withPending q).redBusy = s.redBusy := rfl
@[simp] theorem withPending_car (s : State) (q : List Instr) : (s.withPending q).car = s.car := rfl
@[simp] theorem withPending_txts (s : State) (q : List Instr) : (s.withPending q).txts = s.txts := rfl
@[simp] theorem withPending_ppsCap (s : State) (q : List Instr) : (s.withPending q).ppsCap = s.ppsCap := rfl
@[simp] theorem withPending_ppsLast (s : State) (q : List Instr) : (s.withPending q).ppsLast = s.ppsLast := rfl
@[simp] theorem withPending_ppsPulses (s : State) (q : List Instr) : (s.withPending q).ppsPulses = s.ppsPulses := rfl
@[simp] theorem withPending_ppsStart (s : State) (q : List Instr) : (s.withPending q).ppsStart = s.ppsStart := rfl
@[simp] theorem withPending_ppsEnd (s : State) (q : List Instr) : (s.withPending q).ppsEnd = s.ppsEnd := rfl
@[simp] theorem withPending_cans (s : State) (q : List Instr) : (s.withPending q).cans = s.cans := rfl
@[simp] theorem withPending_lins (s : State) (q : List Instr) : (s.withPending q).lins = s.lins := rfl
@[simp] theorem withPending_tenants (s : State) (q : List Instr) : (s.withPending q).tenants = s.tenants := rfl
@[simp] theorem withPending_hostMsgs (s : State) (q : List Instr) : (s.withPending q).hostMsgs = s.hostMsgs := rfl
@[simp] theorem withPending_cmdTurn (s : State) (q : List Instr) : (s.withPending q).cmdTurn = s.cmdTurn := rfl
@[simp] theorem withPending_hiWake (s : State) (q : List Instr) : (s.withPending q).hiWake = s.hiWake := rfl
@[simp] theorem withPending_mcMem (s : State) (q : List Instr) : (s.withPending q).mcMem = s.mcMem := rfl
@[simp] theorem withPending_host0 (s : State) (q : List Instr) : (s.withPending q).host0 = s.host0 := rfl
@[simp] theorem withPending_host1 (s : State) (q : List Instr) : (s.withPending q).host1 = s.host1 := rfl
@[simp] theorem withPending_nm (s : State) (q : List Instr) : (s.withPending q).nm = s.nm := rfl
@[simp] theorem withPending_wrec (s : State) (q : List Instr) : (s.withPending q).wrec = s.wrec := rfl
@[simp] theorem withPending_pwr (s : State) (q : List Instr) : (s.withPending q).pwr = s.pwr := rfl
@[simp] theorem withPending_blf (s : State) (q : List Instr) : (s.withPending q).blf = s.blf := rfl
@[simp] theorem withPending_ldgQ (s : State) (q : List Instr) : (s.withPending q).ldgQ = s.ldgQ := rfl
@[simp] theorem withPending_ldgSeq (s : State) (q : List Instr) : (s.withPending q).ldgSeq = s.ldgSeq := rfl
@[simp] theorem withPending_ldgAt (s : State) (q : List Instr) : (s.withPending q).ldgAt = s.ldgAt := rfl
@[simp] theorem withPending_cph (s : State) (q : List Instr) : (s.withPending q).cph = s.cph := rfl
@[simp] theorem withPending_cht (s : State) (q : List Instr) : (s.withPending q).cht = s.cht := rfl
@[simp] theorem withPending_fatal (s : State) (q : List Instr) : (s.withPending q).fatal = s.fatal := rfl
@[simp] theorem withPending_clp (s : State) (q : List Instr) : (s.withPending q).clp = s.clp := rfl
@[simp] theorem withPending_tri (s : State) (q : List Instr) : (s.withPending q).tri = s.tri := rfl
@[simp] theorem withPending_wdg (s : State) (q : List Instr) : (s.withPending q).wdg = s.wdg := rfl
@[simp] theorem withPending_stomps (s : State) (q : List Instr) : (s.withPending q).stomps = s.stomps := rfl

/-! ## answer leaves every other field -/

@[simp] theorem answer_regs (s : State) (v : Nat) : (s.answer v).regs = s.regs := rfl
@[simp] theorem answer_latches (s : State) (v : Nat) : (s.answer v).latches = s.latches := rfl
@[simp] theorem answer_planeA (s : State) (v : Nat) : (s.answer v).planeA = s.planeA := rfl
@[simp] theorem answer_planeB (s : State) (v : Nat) : (s.answer v).planeB = s.planeB := rfl
@[simp] theorem answer_dm (s : State) (v : Nat) : (s.answer v).dm = s.dm := rfl
@[simp] theorem answer_clk (s : State) (v : Nat) : (s.answer v).clk = s.clk := rfl
@[simp] theorem answer_tbs (s : State) (v : Nat) : (s.answer v).tbs = s.tbs := rfl
@[simp] theorem answer_ticks (s : State) (v : Nat) : (s.answer v).ticks = s.ticks := rfl
@[simp] theorem answer_pulses (s : State) (v : Nat) : (s.answer v).pulses = s.pulses := rfl
@[simp] theorem answer_resyncCopied (s : State) (v : Nat) : (s.answer v).resyncCopied = s.resyncCopied := rfl
@[simp] theorem answer_resyncPos (s : State) (v : Nat) : (s.answer v).resyncPos = s.resyncPos := rfl
@[simp] theorem answer_tblResult (s : State) (v : Nat) : (s.answer v).tblResult = s.tblResult := rfl
@[simp] theorem answer_learnAt (s : State) (v : Nat) : (s.answer v).learnAt = s.learnAt := rfl
@[simp] theorem answer_active (s : State) (v : Nat) : (s.answer v).active = s.active := rfl
@[simp] theorem answer_shadow (s : State) (v : Nat) : (s.answer v).shadow = s.shadow := rfl
@[simp] theorem answer_epoch (s : State) (v : Nat) : (s.answer v).epoch = s.epoch := rfl
@[simp] theorem answer_era (s : State) (v : Nat) : (s.answer v).era = s.era := rfl
@[simp] theorem answer_eras (s : State) (v : Nat) : (s.answer v).eras = s.eras := rfl
@[simp] theorem answer_lpddr (s : State) (v : Nat) : (s.answer v).lpddr = s.lpddr := rfl
@[simp] theorem answer_ao (s : State) (v : Nat) : (s.answer v).ao = s.ao := rfl
@[simp] theorem answer_errFifo (s : State) (v : Nat) : (s.answer v).errFifo = s.errFifo := rfl
@[simp] theorem answer_crit (s : State) (v : Nat) : (s.answer v).crit = s.crit := rfl
@[simp] theorem answer_flaps (s : State) (v : Nat) : (s.answer v).flaps = s.flaps := rfl
@[simp] theorem answer_free (s : State) (v : Nat) : (s.answer v).free = s.free := rfl
@[simp] theorem answer_ports (s : State) (v : Nat) : (s.answer v).ports = s.ports := rfl
@[simp] theorem answer_drr (s : State) (v : Nat) : (s.answer v).drr = s.drr := rfl
@[simp] theorem answer_frac (s : State) (v : Nat) : (s.answer v).frac = s.frac := rfl
@[simp] theorem answer_if4Tokens (s : State) (v : Nat) : (s.answer v).if4Tokens = s.if4Tokens := rfl
@[simp] theorem answer_canTokens (s : State) (v : Nat) : (s.answer v).canTokens = s.canTokens := rfl
@[simp] theorem answer_capSram (s : State) (v : Nat) : (s.answer v).capSram = s.capSram := rfl
@[simp] theorem answer_capSample (s : State) (v : Nat) : (s.answer v).capSample = s.capSample := rfl
@[simp] theorem answer_capRate (s : State) (v : Nat) : (s.answer v).capRate = s.capRate := rfl
@[simp] theorem answer_canTwin (s : State) (v : Nat) : (s.answer v).canTwin = s.canTwin := rfl
@[simp] theorem answer_copyNo (s : State) (v : Nat) : (s.answer v).copyNo = s.copyNo := rfl
@[simp] theorem answer_rxNo (s : State) (v : Nat) : (s.answer v).rxNo = s.rxNo := rfl
@[simp] theorem answer_gens (s : State) (v : Nat) : (s.answer v).gens = s.gens := rfl
@[simp] theorem answer_recs (s : State) (v : Nat) : (s.answer v).recs = s.recs := rfl
@[simp] theorem answer_beats (s : State) (v : Nat) : (s.answer v).beats = s.beats := rfl
@[simp] theorem answer_slotsLost (s : State) (v : Nat) : (s.answer v).slotsLost = s.slotsLost := rfl
@[simp] theorem answer_beatNums (s : State) (v : Nat) : (s.answer v).beatNums = s.beatNums := rfl
@[simp] theorem answer_tbFrom (s : State) (v : Nat) : (s.answer v).tbFrom = s.tbFrom := rfl
@[simp] theorem answer_redBusy (s : State) (v : Nat) : (s.answer v).redBusy = s.redBusy := rfl
@[simp] theorem answer_car (s : State) (v : Nat) : (s.answer v).car = s.car := rfl
@[simp] theorem answer_txts (s : State) (v : Nat) : (s.answer v).txts = s.txts := rfl
@[simp] theorem answer_ppsCap (s : State) (v : Nat) : (s.answer v).ppsCap = s.ppsCap := rfl
@[simp] theorem answer_ppsLast (s : State) (v : Nat) : (s.answer v).ppsLast = s.ppsLast := rfl
@[simp] theorem answer_ppsPulses (s : State) (v : Nat) : (s.answer v).ppsPulses = s.ppsPulses := rfl
@[simp] theorem answer_ppsStart (s : State) (v : Nat) : (s.answer v).ppsStart = s.ppsStart := rfl
@[simp] theorem answer_ppsEnd (s : State) (v : Nat) : (s.answer v).ppsEnd = s.ppsEnd := rfl
@[simp] theorem answer_cans (s : State) (v : Nat) : (s.answer v).cans = s.cans := rfl
@[simp] theorem answer_lins (s : State) (v : Nat) : (s.answer v).lins = s.lins := rfl
@[simp] theorem answer_tenants (s : State) (v : Nat) : (s.answer v).tenants = s.tenants := rfl
@[simp] theorem answer_hostMsgs (s : State) (v : Nat) : (s.answer v).hostMsgs = s.hostMsgs := rfl
@[simp] theorem answer_cmdTurn (s : State) (v : Nat) : (s.answer v).cmdTurn = s.cmdTurn := rfl
@[simp] theorem answer_hiWake (s : State) (v : Nat) : (s.answer v).hiWake = s.hiWake := rfl
@[simp] theorem answer_mcMem (s : State) (v : Nat) : (s.answer v).mcMem = s.mcMem := rfl
@[simp] theorem answer_host0 (s : State) (v : Nat) : (s.answer v).host0 = s.host0 := rfl
@[simp] theorem answer_host1 (s : State) (v : Nat) : (s.answer v).host1 = s.host1 := rfl
@[simp] theorem answer_nm (s : State) (v : Nat) : (s.answer v).nm = s.nm := rfl
@[simp] theorem answer_wrec (s : State) (v : Nat) : (s.answer v).wrec = s.wrec := rfl
@[simp] theorem answer_pwr (s : State) (v : Nat) : (s.answer v).pwr = s.pwr := rfl
@[simp] theorem answer_blf (s : State) (v : Nat) : (s.answer v).blf = s.blf := rfl
@[simp] theorem answer_ldgQ (s : State) (v : Nat) : (s.answer v).ldgQ = s.ldgQ := rfl
@[simp] theorem answer_ldgSeq (s : State) (v : Nat) : (s.answer v).ldgSeq = s.ldgSeq := rfl
@[simp] theorem answer_ldgAt (s : State) (v : Nat) : (s.answer v).ldgAt = s.ldgAt := rfl
@[simp] theorem answer_cph (s : State) (v : Nat) : (s.answer v).cph = s.cph := rfl
@[simp] theorem answer_cht (s : State) (v : Nat) : (s.answer v).cht = s.cht := rfl
@[simp] theorem answer_fatal (s : State) (v : Nat) : (s.answer v).fatal = s.fatal := rfl
@[simp] theorem answer_clp (s : State) (v : Nat) : (s.answer v).clp = s.clp := rfl
@[simp] theorem answer_tri (s : State) (v : Nat) : (s.answer v).tri = s.tri := rfl
@[simp] theorem answer_wdg (s : State) (v : Nat) : (s.answer v).wdg = s.wdg := rfl
@[simp] theorem answer_stomps (s : State) (v : Nat) : (s.answer v).stomps = s.stomps := rfl
@[simp] theorem answer_pending (s : State) (v : Nat) : (s.answer v).pending = s.pending := rfl

/-! ## Flags and counters are writes of fields -/

theorem setFlag_eq (s : State) (f : Fld) : s.setFlag f = s.put f 1 := rfl
theorem clearFlag_eq (s : State) (f : Fld) : s.clearFlag f = s.put f 0 := rfl
theorem addCnt_eq (s : State) (f : Fld) (n : Nat) : s.addCnt f n = s.put f (s.fld f + n) := rfl
theorem inc_eq (s : State) (f : Fld) : s.inc f = s.put f (s.fld f + 1) := rfl
theorem putBoth_eq (s : State) (f : Plane → Fld) (v : Nat) : s.putBoth f v = (s.put (f .A) v).put (f .B) v := rfl
theorem put64_eq (s : State) (lo hi : Fld) (v : Nat) : s.put64 lo hi v = (s.put lo v).put hi (v / 2 ^ lo.wid) := rfl

end Sys2Proof.Machine.State
end

