-- ==== Sys2Proof/Laws/Ops.lean ====
section
/-! SUPPORT. The laws of the shared operations that the commands are made of: the write gates, and a change of listed
registers only. -/

namespace Sys2Proof.Machine

open Sys2Proof

namespace State

/-- A write that reaches its register acts. -/
theorem gated_reaches {s : State} {r : Requester} {a : Nat} (h : s.reaches r a) (act : State → State) :
    s.gated r a act = act s := by
  unfold State.gated
  rw [show s.writeGate r a 4 = none from h]

/-- A write that does not reach its register leaves the state its gate answers. -/
theorem gated_shut {s t : State} {r : Requester} {a : Nat} (h : s.writeGate r a 4 = some t) (act : State → State) :
    s.gated r a act = t := by
  unfold State.gated
  rw [h]

/-- A write can only reach its register in a device that is out of reset with its path powered. -/
theorem reaches_unreachable {s : State} {r : Requester} {a : Nat} (h : s.reaches r a) : s.unreachable r = false := by
  unfold State.reaches State.writeGate at h
  split at h
  · cases h
  · rename_i hu
    simpa using hu

/-- A write that is refused, or that its sender cannot make, never acts. -/
theorem mcOnly_mc {s : State} {a : Nat} (h : s.reaches .mc a) (res : Fld) (n : Nat) (act : State → State) :
    s.mcOnly .mc a res n act = act s := by
  unfold State.mcOnly
  rw [reaches_unreachable h]
  simpa [isHost] using gated_reaches h act

namespace OnlyRegs

theorem refl (s : State) (as : List Nat) : s.OnlyRegs s as := ⟨rfl, fun _ _ => rfl⟩

theorem setReg {s t : State} {as : List Nat} (h : s.OnlyRegs t as) {a : Nat} (w : Word) (ha : a ∈ as) :
    s.OnlyRegs (t.setReg a w) as := by
  refine ⟨h.rest, fun b hb => ?_⟩
  · rw [reg_setReg_ne t w (fun e : b = a => hb (e ▸ ha))]
    exact h.regs b hb

theorem put {s t : State} {as : List Nat} (h : s.OnlyRegs t as) {f : Fld} (v : Nat) (ha : f.addr ∈ as) :
    s.OnlyRegs (t.put f v) as := h.setReg _ ha

theorem mono {s t : State} {as bs : List Nat} (h : s.OnlyRegs t as) (hs : ∀ a ∈ as, a ∈ bs) : s.OnlyRegs t bs :=
  ⟨h.rest, fun a ha => h.regs a (fun e => ha (hs a e))⟩

end OnlyRegs

namespace RegsBut

theorem refl (s : State) (as : List Nat) : s.RegsBut s as := fun _ _ => rfl

theorem of_regs {s t : State} (as : List Nat) (h : t.regs = s.regs) : s.RegsBut t as := fun a _ => by
  unfold State.reg
  rw [h]

theorem trans {s t u : State} {as : List Nat} (h : s.RegsBut t as) (k : t.RegsBut u as) : s.RegsBut u as :=
  fun a ha => (k a ha).trans (h a ha)

theorem setReg {s t : State} {as : List Nat} (h : s.RegsBut t as) {a : Nat} (w : Word) (ha : a ∈ as) :
    s.RegsBut (t.setReg a w) as := fun b hb => by
  rw [reg_setReg_ne t w (fun e : b = a => hb (e ▸ ha))]
  exact h b hb

theorem put {s t : State} {as : List Nat} (h : s.RegsBut t as) {f : Fld} (v : Nat) (ha : f.addr ∈ as) :
    s.RegsBut (t.put f v) as := h.setReg _ ha

/-- A further change that leaves the register file. -/
theorem same {s t u : State} {as : List Nat} (h : s.RegsBut t as) (e : u.regs = t.regs) : s.RegsBut u as :=
  h.trans (of_regs as e)

theorem pulse {s t : State} {as : List Nat} (h : s.RegsBut t as) (n : Nat) : s.RegsBut (t.pulse n) as := h.same rfl

end RegsBut

namespace OnlyRaises

theorem refl (s : State) (as : List Nat) : s.OnlyRaises s as := ⟨rfl, fun _ _ => rfl⟩

theorem put {s t : State} {as : List Nat} (h : s.OnlyRaises t as) {f : Fld} (v : Nat) (ha : f.addr ∈ as) :
    s.OnlyRaises (t.put f v) as := ⟨h.rest, h.regs.put v ha⟩

theorem pulse {s t : State} {as : List Nat} (h : s.OnlyRaises t as) (n : Nat) : s.OnlyRaises (t.pulse n) as :=
  ⟨h.rest, h.regs.pulse n⟩

theorem of_onlyRegs {s t : State} {as : List Nat} (h : s.OnlyRegs t as) : s.OnlyRaises t as := by
  refine ⟨?_, h.regs⟩
  have := congrArg (fun x : State => { x with pulses := s.pulses }) h.rest
  exact this

end OnlyRaises

@[simp] theorem reg_pulse (s : State) (n a : Nat) : (s.pulse n).reg a = s.reg a := rfl
@[simp] theorem fld_pulse (s : State) (n : Nat) (f : Fld) : (s.pulse n).fld f = s.fld f := rfl
@[simp] theorem flag_pulse (s : State) (n : Nat) (f : Fld) : (s.pulse n).flag f = s.flag f := rfl

/-- A raised source is noted. -/
theorem mem_pulse (s : State) (n : Nat) : n ∈ (s.pulse n).pulses := by
  unfold State.pulse
  dsimp only
  split
  · assumption
  · simp

end State

end Sys2Proof.Machine
end

