-- ==== Sys2Proof/Tests/Slice0.lean ====
section
/-! SUPPORT. The checks of well-formedness, the worked examples of the spec, and for each statement with hypotheses
a concrete state and operands that meet them all. -/

open Sys2Proof Sys2Proof.Machine

/-! ## An ill-formed command for each check -/

theorem test_wf_access_aligned : (Instr.registerWrite .mc 0x1 4 0).wellFormed = false := by decide
theorem test_wf_access_size : (Instr.registerWrite .mc 0x0 8 0).wellFormed = false := by decide
theorem test_wf_access_window : (Instr.registerWrite .mc 0x2010000 4 0).wellFormed = false := by decide
theorem test_wf_value : (Instr.registerWrite .mc 0x0 4 0x100000000).wellFormed = false := by decide
theorem test_wf_lo_read : (Instr.loRead .mc 0x2 4).wellFormed = false := by decide
theorem test_wf_64bit : (Instr.host64bitAccess .hi0 true 0x4 0).wellFormed = false := by decide
theorem test_wf_boot_mode : (Instr.resetRelease 4 false).wellFormed = false := by decide
theorem test_wf_port : (Instr.frameReceive 32 [] .clean 0).wellFormed = false := by decide
theorem test_wf_region : (Instr.tblRehash .mc false 17).wellFormed = false := by decide
theorem test_wf_time_base : (Instr.tbStep .mc 4).wellFormed = false := by decide
theorem test_wf_cluster : (Instr.knell 16).wellFormed = false := by decide
theorem test_wf_key_slot : (Instr.blfCheck .mc 1024).wellFormed = false := by decide
theorem test_wf_tenant : (Instr.tenTable 64).wellFormed = false := by decide
theorem test_wf_vector : (Instr.vectorSend 0 2048).wellFormed = false := by decide
theorem test_wf_source : (Instr.sourceSignalChange 512).wellFormed = false := by decide
theorem test_wf_good : (Instr.registerWrite .hi1 0x40 4 0xFFFFFFFF).wellFormed = true := by decide

/-! ## Worked cases of the spec

Each expected value is the spec's own number. -/

namespace Worked
set_option maxRecDepth 100000

/-- 01_architecture.md, after R35: the addresses of SCH_QSHP_RATE of queue 5 in Plane B and of the block of ED3. -/
theorem test_worked_addresses : rSCH_QSHP_RATE .B 5 = 0xB84150 ∧ rETH_STATUS 11 = 0x1358000 + 8 := by decide

/-- A chart area of sections: TYPE, LENGTH, and bytes at offsets; section k stands at 0x1000 (k + 1), up to 0x1000 bytes. -/
def wImg (secs : List (Nat × Nat × List (Nat × List Byte))) : Mem :=
  (secs.zipIdx).foldl (fun m e => e.1.2.2.foldl (fun m c => memPut m (0x1000 * (e.2 + 1) + c.1) c.2)
    (memPut m (64 + 16 * e.2) (leBytes 2 e.1.1 ++ leBytes 2 0 ++ leBytes 4 (0x1000 * (e.2 + 1)) ++ leBytes 4 e.1.2.1)))
    (memPut [] 28 (leBytes 2 secs.length))

/-- A PARSEGRAPH of an IPv4 node (least length 20) and a UDP node (least length 8). -/
def ipUdp : Mem := wImg [(0x05, 112, [(16 + 3, [1]), (16 + 18, [20]), (64 + 3, [3]), (64 + 18, [8])])]

/-- The frame of 04_parsing.md after R106 with total length T and UDP length U; the lengths stand big-endian. -/
def camera (t u : Nat) : List Byte :=
  List.replicate 18 0 ++ [0x45, 0, BitVec.ofNat 8 (t / 256), BitVec.ofNat 8 t] ++ List.replicate 16 0 ++
    [0, 0, 0, 0, BitVec.ofNat 8 (u / 256), BitVec.ofNat 8 u, 0, 0] ++ List.replicate 22 0

theorem test_worked_length_passes : lenBad ipUdp 0 (camera 978 958) 1000 996 18 20 false none = false ∧
    lenBad ipUdp 1 (camera 978 958) 1000 996 38 8 false (some 996) = false := by decide +kernel
theorem test_worked_length_over : lenBad ipUdp 0 (camera 980 958) 1000 996 18 20 false none = true := by decide +kernel
theorem test_worked_length_padded : lenBad ipUdp 0 (camera 32 12) 68 64 18 20 false none = false ∧
    lenBad ipUdp 1 (camera 32 12) 68 64 38 8 false (some 50) = false := by decide +kernel
theorem test_worked_length_trailing : lenBad ipUdp 0 (camera 32 12) 72 68 18 20 false none = true := by decide +kernel

/-- 12_legacy_buses.md, after R361: 80, 24 and 28 bytes, acf_msg_length 20, 6 and 7. -/
theorem test_worked_acf : ([64, 8, 12].map fun n =>
      let m := acfMsg 1 0 0 (List.replicate 8 0) (List.replicate 4 0) (List.replicate n 0)
      (m.length, (m[1]?.getD 0).toNat)) = [(80, 20), (24, 6), (28, 7)] := by decide +kernel

/-- 10_carillon.md: BB0 and BB4 at 25 Gb/s with MACSEC, BB4 without preemption, MAXLEN_TC 1 522 in TC0 to TC5. -/
def linea : Mem := wImg [
  (0x01, 1280, [(2, [5]), (4, leBytes 2 9216), (64 + 2, [5]), (64 + 4, leBytes 2 9216)]),
  (0x09, 28680, [(8 + 448 + 1, [0x40])] ++ (List.range 6).map (fun c => (8 + 448 + 18 + 12 * c, leBytes 2 1522)) ++
    [(8 + 448 + 18 + 72, leBytes 2 9216)]),
  (0x0A, 48, [(6, leBytes 2 1000), (16, [6]), (20, [6])])]

/-- The stream of 10_carillon.md. -/
def s300 : StreamRec :=
  { id := 300, ingress := 0, tc := 6, flags := 3, demoteTc := 0, frames := 1, period := 250000, phase := 40004, jitter := 1996, bound := 5000,
    maxIn := 288, maxOut := 288, egress := [4], owner := 0x41, raw := [] }

theorem test_worked_rates : stBps linea 0 = 25000000000 ∧ stBps linea 4 = 25000000000 := by decide +kernel
/-- o = 43 416 000 ps, w = 104 000 ps, G = 2 000, Q = 0, B = 494 (493.44 rounded up), L = 3 906 ns. -/
theorem test_worked_placement : (match placeOn linea s300 ⟨[], [], []⟩ 1000000 [4] 0 [] [] with
    | .ok (_, r) => r
    | .error _ => []) = [⟨43416000, 104000, 2000, 0, 494, 3906⟩] := by decide +kernel
/-- With [43 416 000, 43 520 000) held, the offset moves to 43 520 000 ps: G 2 104, L 4 010 ns. -/
theorem test_worked_displaced : (match placeOn linea s300 ⟨[], [], []⟩ 1000000 [4] 0 [⟨4, 43416000, 104000, 250000000, 6, 1⟩] [] with
    | .ok (_, r) => r
    | .error _ => []) = [⟨43520000, 104000, 2104, 0, 494, 4010⟩] := by decide +kernel
/-- The gate list of BB4: nine changes in units of 8 ns. -/
theorem test_worked_gate_list : (gateListOf [⟨4, 43416000, 104000, 250000000, 6, 300⟩] 1000000 4).map (fun c => (c.off, c.openMask)) =
    [(0, 0xBF), (5427, 0x40), (5440, 0xBF), (36677, 0x40), (36690, 0xBF), (67927, 0x40), (67940, 0xBF), (99177, 0x40), (99190, 0xBF)] := by
  decide +kernel
/-- Without preemption on BB4, B = 0.49344 µs (08_egress.md). -/
theorem test_worked_blocking : blocking linea 4 6 = 493440 := by decide +kernel

/-- 17_triangle.md, after R461: at T, T + 1 200 000 000 and T + 3 500 000 000 µs the voter is suspect; a third at
T + 3 700 000 000 leaves it trusted. -/
theorem test_worked_voter :
    (((State.reset.noteUnattributed 7).noteUnattributed (7 + 1200000000)).noteUnattributed (7 + 3500000000)).fld TRI_STATUS_VOTER_SUSPECT = 1 ∧
    (((State.reset.noteUnattributed 7).noteUnattributed (7 + 1200000000)).noteUnattributed (7 + 3700000000)).fld TRI_STATUS_VOTER_SUSPECT = 0 := by
  decide +kernel

end Worked

/-! ## The hypotheses of the statements are met

Each `test_wit_…` names a part of an obligation and shows, for each of its clauses, operands and a state that
meet the clause's hypotheses together. -/

namespace Wit
set_option maxRecDepth 100000
set_option Elab.async false

open Worked (wImg)

theorem someOf {α : Type} {o : Option α} (h : o.isSome = true) : o = some (o.get h) := (Option.some_get h).symm
theorem pairOf {α β : Type} {e : α × Option β} (h : e.2.isSome = true) : e = (e.1, some (e.2.get h)) :=
  Prod.ext rfl (Option.some_get h).symm
theorem pairNone {α β : Type} {e : α × Option β} (h : e.2.isNone = true) : e = (e.1, none) :=
  Prod.ext rfl (Option.isNone_iff_eq_none.1 h)
theorem pairLit {α β : Type} {e : α × β} {v : β} (h : e.2 = v) : e = (e.1, v) := Prod.ext rfl h
theorem tripleLit {α β γ : Type} {e : α × β × γ} {v : γ} (h : e.2.2 = v) : e = (e.1, e.2.1, v) := Prod.ext rfl (Prod.ext rfl h)
theorem someFst {α β : Type} {o : Option (α × β)} {v : β} (h : o.isSome = true) (g : (o.get h).2 = v) :
    o = some ((o.get h).1, v) := (someOf h).trans (congrArg some (Prod.ext rfl g))
theorem oneOf {α : Type} {l : List α} (h : l.length = 1) : l = [l[0]'(h ▸ Nat.zero_lt_one)] := by
  match l, h with
  | [_], _ => rfl
theorem consOf {α : Type} {l : List α} {x : α} (h : l.head? = some x) : l = x :: l.tail := by
  match l, h with
  | _ :: _, rfl => rfl
/-- Fields set one after another. -/
def wPut (s : State) (l : List (Fld × Nat)) : State := l.foldl (fun s e => s.put e.1 e.2) s
/-- A powered device out of reset in RUN with both planes in service. -/
def wOn : State :=
  wPut { State.reset with pwr := { PwrSt.reset with inReset := false } }
    [(PWR_DOM_STAT_ON, 0xFFF), (CLK_STATUS_PLL_CORE, 1), (GLB_DEVSTATE_STATE, 2), (GLB_DEVSTATE_PA_COND, 1), (GLB_DEVSTATE_PB_COND, 1)]
/-- A frame of one byte repeated, received on BB0 and stored in plane A. -/
def wFrame (n : Nat) : Frame :=
  { bytes := List.replicate n 0x11, legacy := false, inPort := 0, ts := [], rxMode := (0, 0), bucket := 0, seq := 0, qidx := 0, home := .A,
    plane := .A, both := false, twinned := false, stream := none, tc := 0, pool := 0, buf := 5, fragOuter := false, ring := 0,
    genSeq := none, txReq := none, rx := RxMeta.plain, secure := false, era := 0, no := 0 }
/-- The state a command leaves. -/
def wRun (c : Instr) (s : State) : State := match exec c s with
  | .next t => t
  | _ => s
/-- The powered device under a chart that enables two ports of each kind. -/
def wCh : State := { wOn with active := wImg [(0x01, 0x500, [0, 1, 24, 25, 32, 33, 64, 65].map (fun p => (16 * p + 2, [(1 : Byte)])))] }
/-- Another record of a port. -/
def wPort (s : State) (p : Nat) (x : PortSt) : State := { s with ports := tabSet PortSt.reset s.ports p x }

namespace W01
/-- Data of the witnesses below. -/
def wSpec (a : Nat) : RegSpec := match specAt a with
  | some g => g
  | none => ⟨"", 0, .single, [], 0, []⟩

theorem test_wit_StepRunsFrontCommand :
    (∃ (c : Instr) (q : List Instr) (s : State), s.pending = c :: q) :=
  ⟨.supplyMonitorReset, [], ({ State.reset with pending := [.supplyMonitorReset] } : State), (by first | decide +kernel | rfl)⟩

theorem test_wit_IdleStepCountsOneMicrosecond :
    (∃ (s : State), s.pending = []) :=
  ⟨State.reset, (by first | decide +kernel | rfl)⟩

theorem test_wit_EveryCommandCompletesInGoodForm :
    (∃ (s : State), s.Inv) :=
  ⟨wOn, by constructor <;> decide +kernel⟩

theorem test_wit_EveryStepKeepsGoodForm :
    (∃ (s : State) (t : State), s.Inv ∧ step s = .next t) :=
  ⟨wOn, { wOn with ao := 1 }, by constructor <;> decide +kernel, rfl⟩

theorem test_wit_RegisterWriteActsByAccessCode :
    (∃ (s : State) (r : Requester) (a : Nat), (∀ t, r ≠ .tenant t) ∧ s.reaches r a ∧ a < 0x2000000 ∧ a % 4 = 0 ∧ ∃ n, n < 4 ∧ a = rGLB_SCRATCH n) ∧
    (∃ (s : State) (r : Requester) (a : Nat), (∀ t, r ≠ .tenant t) ∧ s.reaches r a ∧ a < 0x2000000 ∧ a % 4 = 0 ∧ ∃ n, n < 8 ∧ a = rTBL_LEARN_PORT .A n) ∧
    (∃ (s : State) (r : Requester) (a : Nat), (∀ t, r ≠ .tenant t) ∧ s.reaches r a ∧ a < 0x2000000 ∧ a % 4 = 0 ∧ ∃ n, n < 8 ∧ a = rTBL_LEARN_PORT .B n) ∧
    (∃ (s : State) (r : Requester) (a : Nat), (∀ t, r ≠ .tenant t) ∧ s.reaches r a ∧ a < 0x2000000 ∧ a % 4 = 0 ∧ (a = rGLB_PARTCODE ∨ a = rGLB_DEVSTATE)) ∧
    (∃ (s : State) (r : Requester) (a : Nat), (∀ t, r ≠ .tenant t) ∧ s.reaches r a ∧ a < 0x2000000 ∧ a % 4 = 0 ∧ a = rGLB_RESET_CAUSE) ∧
    (∃ (s : State) (r : Requester) (a : Nat), (∀ t, r ≠ .tenant t) ∧ s.reaches r a ∧ a < 0x2000000 ∧ a % 4 = 0 ∧ a / 0x100000 = 0x03 ∧ specAt a = none) :=
  ⟨⟨wOn, (.mc), (rGLB_SCRATCH 2), (by intro t h; cases h), (by unfold State.reaches; decide +kernel), (by first | decide +kernel | rfl), (by first | decide +kernel | rfl), (by decide +kernel)⟩,
   ⟨wOn, (.mc), (rTBL_LEARN_PORT .A 3), (by intro t h; cases h), (by unfold State.reaches; decide +kernel), (by first | decide +kernel | rfl), (by first | decide +kernel | rfl), (by decide +kernel)⟩,
   ⟨wOn, (.mc), (rTBL_LEARN_PORT .B 3), (by intro t h; cases h), (by unfold State.reaches; decide +kernel), (by first | decide +kernel | rfl), (by first | decide +kernel | rfl), (by decide +kernel)⟩,
   ⟨wOn, (.mc), rGLB_PARTCODE, (by intro t h; cases h), (by unfold State.reaches; decide +kernel), (by first | decide +kernel | rfl), (by first | decide +kernel | rfl), (by first | decide +kernel | rfl)⟩,
   ⟨wOn, (.mc), rGLB_RESET_CAUSE, (by intro t h; cases h), (by unfold State.reaches; decide +kernel), (by first | decide +kernel | rfl), (by first | decide +kernel | rfl), (by first | rfl | decide +kernel)⟩,
   ⟨wOn, (.mc), 0x300FF0, (by intro t h; cases h), (by unfold State.reaches; decide +kernel), (by first | decide +kernel | rfl), (by first | decide +kernel | rfl), (by first | decide +kernel | rfl), (by first | decide +kernel | rfl)⟩⟩

theorem test_wit_FaultyAccessLeavesOneRecord :
    (∃ (s : State) (r : Requester) (a : Nat) (size : Nat), (∀ t, r ≠ .tenant t) ∧ s.unreachable r = false ∧ a < 0x2000000 ∧ isHost r = true ∧ s.hostMayWrite (a / 4 * 4) = false ∧ (size < 4 ∨ (a % 4 = 0 ∧ a ∉ [rRED_CTL, rCAR_CTL, rBLF_CMD, rLDG_CTL]))) ∧
    (∃ (s : State) (r : Requester) (a : Nat) (size : Nat), (∀ t, r ≠ .tenant t) ∧ s.unreachable r = false ∧ a < 0x2000000 ∧ (isHost r = true → s.hostMayWrite (a / 4 * 4) = true) ∧ s.bootShut r (a / 4 * 4) = false ∧ coreShut r (a / 4 * 4) = false ∧ size < 4) ∧
    (∃ (s : State) (r : Requester) (a : Nat) (size : Nat), (∀ t, r ≠ .tenant t) ∧ s.unreachable r = false ∧ a < 0x2000000 ∧ (isHost r = true → s.hostMayWrite (a / 4 * 4) = true) ∧ s.bootShut r (a / 4 * 4) = false ∧ coreShut r (a / 4 * 4) = false ∧ 4 ≤ size ∧ a % 4 = 0 ∧ s.powered a = false ∧ r = .mc) ∧
    (∃ (s : State) (r : Requester) (a : Nat) (v : Nat), (∀ t, r ≠ .tenant t) ∧ s.unreachable r = false ∧ a < 0x2000000 ∧ s.reaches r rGLB_SWRESET ∧ v / 65536 ≠ 0x5A17) :=
  ⟨⟨wOn, (.hi0), (rRED_CTL), 1, (by intro t h; cases h), (by first | decide +kernel | rfl), (by first | decide +kernel | rfl), (by first | decide +kernel | rfl), (by first | decide +kernel | rfl), (by first | decide +kernel | rfl)⟩,
   ⟨wOn, (.mc), (rRED_CTL), 1, (by intro t h; cases h), (by first | decide +kernel | rfl), (by first | decide +kernel | rfl), (by first | decide +kernel | rfl), (by first | decide +kernel | rfl), (by first | decide +kernel | rfl), (by first | decide +kernel | rfl)⟩,
   ⟨(wPut wOn [(PWR_DOM_STAT_ON,0x203)]), (.mc), (0x800200), 4, (by intro t h; cases h), (by first | decide +kernel | rfl), (by first | decide +kernel | rfl), (by first | decide +kernel | rfl), (by first | decide +kernel | rfl), (by first | decide +kernel | rfl), (by first | decide +kernel | rfl), (by first | decide +kernel | rfl), (by first | decide +kernel | rfl), (by first | rfl | decide +kernel)⟩,
   ⟨wOn, .mc, 0, 5, (by intro t h; cases h), (by first | decide +kernel | rfl), (by first | decide +kernel | rfl), (by unfold State.reaches; decide +kernel), (by first | decide +kernel | rfl)⟩⟩

theorem test_wit_LoReadLatchesHiForItsRequester :
    (∃ (s : State) (r : Requester) (a : Nat) (g : RegSpec), s.unreachable r = false ∧ s.bootShut r a = false ∧ s.bootShut r (a + 4) = false ∧ (∀ t, r ≠ .tenant t) ∧ s.powered a = true ∧ s.powered (a + 4) = true ∧ a % 4 = 0 ∧ s.readAddr r a = some a ∧ s.readAddr r (a + 4) = some (a + 4) ∧ specAt a = some g ∧ g.pair = .lo ∧ (∃ h, specAt (a + 4) = some h ∧ h.pair = .hi)) :=
  ⟨wOn, .hi0, rCHT_ACT_ID_LO, (wSpec rCHT_ACT_ID_LO), (by first | decide +kernel | rfl), (by first | decide +kernel | rfl), (by first | decide +kernel | rfl), (by intro t h; cases h), (by first | decide +kernel | rfl), (by first | decide +kernel | rfl), (by first | decide +kernel | rfl), (by first | decide +kernel | rfl), (by first | decide +kernel | rfl), (by first | decide +kernel | rfl), (by first | decide +kernel | rfl), (by first | decide +kernel | rfl)⟩

theorem test_wit_CounterReadClearsForTheManagementCluster :
    (∃ (s : State) (r : Requester) (a : Nat) (g : RegSpec), s.unreachable r = false ∧ s.bootShut r a = false ∧ (∀ t, r ≠ .tenant t) ∧ s.powered a = true ∧ a % 4 = 0 ∧ s.readAddr r a = some a ∧ specAt a = some g ∧ g.pair = .single ∧ g.fields = [⟨0, 32, .rc, .keep⟩]) :=
  ⟨wOn, .mc, rCLP_WAKE_CNT, (wSpec rCLP_WAKE_CNT), (by first | decide +kernel | rfl), (by first | decide +kernel | rfl), (by intro t h; cases h), (by first | decide +kernel | rfl), (by first | decide +kernel | rfl), (by first | decide +kernel | rfl), (by first | decide +kernel | rfl), (by first | decide +kernel | rfl), (by first | decide +kernel | rfl)⟩

theorem test_wit_Host64BitAccessIsTwoAccesses :
    (∃ (s : State) (r : Requester) (a : Nat) (g : RegSpec) (h : RegSpec), isHost r = true ∧ s.unreachable r = false ∧ a % 8 = 0 ∧ s.bootShut r a = false ∧ s.bootShut r (a + 4) = false ∧ s.powered a = true ∧ s.powered (a + 4) = true ∧ s.readAddr r a = some a ∧ s.readAddr r (a + 4) = some (a + 4) ∧ specAt a = some g ∧ g.pair = .lo ∧ specAt (a + 4) = some h ∧ h.pair = .hi) :=
  ⟨wOn, .hi0, rCHT_ACT_ID_LO, (wSpec rCHT_ACT_ID_LO), (wSpec (rCHT_ACT_ID_LO + 4)), (by first | decide +kernel | rfl), (by first | decide +kernel | rfl), (by first | decide +kernel | rfl), (by first | decide +kernel | rfl), (by first | decide +kernel | rfl), (by first | decide +kernel | rfl), (by first | decide +kernel | rfl), (by first | decide +kernel | rfl), (by first | decide +kernel | rfl), (by first | decide +kernel | rfl), (by first | decide +kernel | rfl), (by first | decide +kernel | rfl), (by first | decide +kernel | rfl)⟩

theorem test_wit_StateRequestChangesState :
    (∃ (s : State) (r : Requester) (tie : Bool), s.reaches r rGLB_STATE_CTL ∧ (tie = true → isMc r = true) ∧ s.swapBusy = false ∧ s.flag GLB_DEVSTATE_TRANS_BUSY = false ∧ (s.inState .startUp = true ∨ s.inState .test = true ∨ s.inState .recovery = true) ∧ (s.isCond .A .inService = true ∨ s.isCond .B .inService = true) ∧ s.flag GLB_DEVSTATE_SAFE = false) ∧
    (∃ (s : State) (r : Requester) (tie : Bool), s.reaches r rGLB_STATE_CTL ∧ (tie = true → isMc r = true) ∧ s.swapBusy = false ∧ s.flag GLB_DEVSTATE_TRANS_BUSY = false ∧ s.inState .run = true) ∧
    (∃ (s : State) (r : Requester) (tie : Bool), s.reaches r rGLB_STATE_CTL ∧ (tie = true → isMc r = true) ∧ s.swapBusy = false ∧ s.flag GLB_DEVSTATE_TRANS_BUSY = false ∧ (s.inState .run = true ∨ s.inState .test = true)) :=
  ⟨⟨(wPut wOn [(GLB_DEVSTATE_STATE, 4)]), .hi0, false, (by unfold State.reaches; decide +kernel), (by first | decide +kernel | rfl), (by first | decide +kernel | rfl), (by first | decide +kernel | rfl), (by first | decide +kernel | rfl), (by first | decide +kernel | rfl), (by first | decide +kernel | rfl)⟩,
   ⟨wOn, .mc, false, (by unfold State.reaches; decide +kernel), (by first | decide +kernel | rfl), (by first | decide +kernel | rfl), (by first | decide +kernel | rfl), (by first | decide +kernel | rfl)⟩,
   ⟨wOn, .mc, false, (by unfold State.reaches; decide +kernel), (by first | decide +kernel | rfl), (by first | decide +kernel | rfl), (by first | decide +kernel | rfl), (by first | decide +kernel | rfl)⟩⟩

theorem test_wit_StateRequestRefusals :
    (∃ (s : State) (r : Requester) (k : Nat), 1 ≤ k ∧ k ≤ 5 ∧ s.reaches r rGLB_STATE_CTL) :=
  ⟨wOn, .hi1, 5, (by first | decide +kernel | rfl), (by first | decide +kernel | rfl), (by unfold State.reaches; decide +kernel)⟩

end W01

namespace W02
/-- Data of the witnesses below. -/
def wO (trng : Bool) : BootOutcome := ⟨7, trng, [], true, [], [], 0⟩
/-- Data of the witnesses below. -/
def wPw (p : PwrSt) (l : List (Fld × Nat)) : State := { wPut wOn l with pwr := p, ao := 700 }
/-- Data of the witnesses below. -/
def wP0 : PwrSt := { PwrSt.reset with inReset := false }
/-- Data of the witnesses below. -/
def wHot : State := { wPut wOn [(CLK_STATUS_PLL_TS,1)] with active := wImg [(0x01, 0x500, [(2, [1])])], shadow := wImg [(0x01, 0x500, [(2, [1])])] }

theorem test_wit_ResetSetsItsCauseAndKeepsD0 :
    (∃ (s : State), s.flag DBG_STATUS_AUTH = true) ∧
    (∃ (s : State) (r : Requester) (key : Nat), s.reaches r rGLB_SWRESET ∧ key = 0x5A17) :=
  ⟨⟨(wPut wOn [(DBG_STATUS_AUTH, 1)]), (by first | decide +kernel | rfl)⟩,
   ⟨(wPut wOn [(DBG_STATUS_AUTH, 1)]), .mc, 0x5A17, (by unfold State.reaches; decide +kernel), (by first | rfl | decide +kernel)⟩⟩

theorem test_wit_BootSequenceSteps :
    (∃ (s : State), s.pwr.inReset = true) ∧
    (∃ (s : State), s.pwr.inReset = false ∧ s.pwr.halted = false ∧ s.pwr.boot = 1) ∧
    (∃ (s : State), s.pwr.inReset = false ∧ s.pwr.halted = false ∧ s.pwr.boot = 2) ∧
    (∃ (s : State) (o : BootOutcome), s.pwr.inReset = false ∧ s.pwr.halted = false ∧ s.pwr.boot = 4 ∧ o.trngOk = false) ∧
    (∃ (s : State), s.pwr.inReset = false ∧ s.pwr.halted = false ∧ s.pwr.boot = 6) ∧
    (∃ (s : State), s.pwr.inReset = false ∧ s.pwr.halted = false ∧ s.pwr.boot = 9) ∧
    (∃ (s : State), (s.pwr.inReset = true ∨ s.pwr.halted = true)) ∧
    (∃ (s : State), s.reaches .hi0 rPWR_HOSTBOOT_GO ∧ s.inState .boot = true ∧ s.fld GLB_STRAP_BOOT_MODE = 1) ∧
    (∃ (s : State), s.pwr.joinB = true ∧ s.pwr.sleep = 0 ∧ s.isCond .B .isolated = true ∧ s.redBusy = none ∧ (s.rebuilt .B).isCond .B .resync = true) :=
  ⟨⟨State.reset, (by first | decide +kernel | rfl)⟩,
   ⟨(wPw {wP0 with boot := 1} []), (by first | decide +kernel | rfl), (by first | decide +kernel | rfl), (by first | decide +kernel | rfl)⟩,
   ⟨(wPw {wP0 with boot := 2} []), (by first | decide +kernel | rfl), (by first | decide +kernel | rfl), (by first | decide +kernel | rfl)⟩,
   ⟨(wPw {wP0 with boot := 4} []), (wO false), (by first | decide +kernel | rfl), (by first | decide +kernel | rfl), (by first | decide +kernel | rfl), (by first | decide +kernel | rfl)⟩,
   ⟨(wPw {wP0 with boot := 6} []), (by first | decide +kernel | rfl), (by first | decide +kernel | rfl), (by first | decide +kernel | rfl)⟩,
   ⟨(wPw {wP0 with boot := 9} []), (by first | decide +kernel | rfl), (by first | decide +kernel | rfl), (by first | decide +kernel | rfl)⟩,
   ⟨State.reset, (by first | decide +kernel | rfl)⟩,
   ⟨(wPw wP0 [(GLB_DEVSTATE_STATE,0),(GLB_STRAP_BOOT_MODE,1)]), (by unfold State.reaches; decide +kernel), (by first | decide +kernel | rfl), (by first | decide +kernel | rfl)⟩,
   ⟨(wPw {wP0 with joinB := true} [(GLB_DEVSTATE_PB_COND,2)]), (by first | decide +kernel | rfl), (by first | decide +kernel | rfl), (by first | decide +kernel | rfl), (by first | decide +kernel | rfl), (by first | decide +kernel | rfl)⟩⟩

theorem test_wit_SleepIsEnteredInSteps :
    (∃ (s : State) (r : Requester) (tie : Bool), s.reaches r rGLB_STATE_CTL ∧ (tie = true → isMc r = true) ∧ s.swapBusy = false ∧ s.flag GLB_DEVSTATE_TRANS_BUSY = false ∧ s.fld CHT_STATUS_SHADOW ≠ 6 ∧ s.inState .run = true ∧ s.maySleep false = true) ∧
    (∃ (s : State) (r : Requester) (tie : Bool), s.reaches r rGLB_STATE_CTL ∧ (tie = true → isMc r = true) ∧ s.swapBusy = false ∧ s.flag GLB_DEVSTATE_TRANS_BUSY = false ∧ s.fld CHT_STATUS_SHADOW ≠ 6 ∧ s.inState .run = true ∧ s.maySleep true = true) ∧
    (∃ (s : State), s.pwr.sleep = 4) ∧
    (∃ (s : State), s.pwr.sleep = 5 ∧ s.pwr.wakes = []) :=
  ⟨⟨(wPw wP0 []), .mc, true, (by unfold State.reaches; decide +kernel), (by first | decide +kernel | rfl), (by first | decide +kernel | rfl), (by first | decide +kernel | rfl), (by first | decide +kernel | rfl), (by first | decide +kernel | rfl), (by first | decide +kernel | rfl)⟩,
   ⟨(wPw wP0 []), .mc, true, (by unfold State.reaches; decide +kernel), (by first | decide +kernel | rfl), (by first | decide +kernel | rfl), (by first | decide +kernel | rfl), (by first | decide +kernel | rfl), (by first | decide +kernel | rfl), (by first | decide +kernel | rfl)⟩,
   ⟨(wPw {wP0 with sleep := 4} []), (by first | decide +kernel | rfl)⟩,
   ⟨(wPw {wP0 with sleep := 5} []), (by first | decide +kernel | rfl), (by first | decide +kernel | rfl)⟩⟩

theorem test_wit_WakeLeavesSleep :
    (∃ (s : State) (ev : WakeEv) (q : List WakeEv), s.pwr.sleep = 6 ∧ s.pwr.wakes = ev :: q ∧ s.pwr.sleepD = true) ∧
    (∃ (s : State) (ev : WakeEv) (q : List WakeEv), s.pwr.sleep = 6 ∧ s.pwr.wakes = ev :: q ∧ s.pwr.sleepD = false ∧ s.pwr.exit = 0) ∧
    (∃ (s : State), s.pwr.exit = 1) ∧
    (∃ (s : State), s.pwr.exit = 3) ∧
    (∃ (s : State), s.flag PWR_WAKE_CFG_TIMER_EN = true ∧ s.fld64 PWR_WAKE_TIMER_LO_AO PWR_WAKE_TIMER_HI_AO ≤ s.ao) :=
  ⟨⟨(wPw {wP0 with sleep := 6, sleepD := true, wakes := [⟨1,2,3,0,5⟩]} []), ⟨1,2,3,0,5⟩, [], (by first | decide +kernel | rfl), (by first | decide +kernel | rfl), (by first | decide +kernel | rfl)⟩,
   ⟨(wPw {wP0 with sleep := 6, wakes := [⟨1,2,3,0,5⟩]} []), ⟨1,2,3,0,5⟩, [], (by first | decide +kernel | rfl), (by first | decide +kernel | rfl), (by first | decide +kernel | rfl), (by first | decide +kernel | rfl)⟩,
   ⟨(wPw {wP0 with exit := 1} []), (by first | decide +kernel | rfl)⟩,
   ⟨(wPw {wP0 with exit := 3} []), (by first | decide +kernel | rfl)⟩,
   ⟨(wPw wP0 [(PWR_WAKE_CFG_TIMER_EN,1)]), (by first | decide +kernel | rfl), (by first | decide +kernel | rfl)⟩⟩

theorem test_wit_DomainWriteIsRefusedOrDone :
    (∃ (s : State) (r : Requester), s.reaches r rPWR_DOM_CTL ∧ (s.swapBusy = true ∨ s.fld CHT_STATUS_SHADOW = 6)) ∧
    (∃ (s : State) (r : Requester) (off : Nat), s.reaches r rPWR_DOM_CTL ∧ s.swapBusy = false ∧ s.fld CHT_STATUS_SHADOW ≠ 6 ∧ (s.domDowns off).any s.domPinned = true) ∧
    (∃ (s : State) (r : Requester) (off : Nat), s.reaches r rPWR_DOM_CTL ∧ s.swapBusy = false ∧ s.fld CHT_STATUS_SHADOW ≠ 6 ∧ (s.domDowns off).any s.domPinned = false) :=
  ⟨⟨(wPw wP0 [(CHT_STATUS_SHADOW,6)]), .mc, (by unfold State.reaches; decide +kernel), (by first | decide +kernel | rfl)⟩,
   ⟨({ (wPw wP0 []) with active := wImg [(0x01,0x500,[(2,[1]),(16*24+2,[1])]),(0x02,0x400,[(0,[2,2,2,2,2,2,2,2,2,2,2,2])]),(0x0E, 0x2000, [(8, [3]), (160, [0, 1, 0x21, 1, 1, 0, 0, 0, 1, 0, 1, 0, 0, 5, 0x40, 0])])], regs := tabSet 0 wOn.regs (NMW_NC_STATE_STATE 3).addr 3 } : State), .mc, 8, (by unfold State.reaches; decide +kernel), (by first | decide +kernel | rfl), (by first | decide +kernel | rfl), (by first | decide +kernel | rfl)⟩,
   ⟨(wPw wP0 []), .mc, 0, (by unfold State.reaches; decide +kernel), (by first | decide +kernel | rfl), (by first | decide +kernel | rfl), (by first | decide +kernel | rfl)⟩⟩

theorem test_wit_ChartCommandRefusals :
    (∃ (s : State) (r : Requester) (tie : Bool) (late : Bool) (c : Instr), s.reaches r rCHT_CTL ∧ c ∈ [.chtOpen r tie, .chtVerify r tie, .chtArm r tie, .chtDisarm r tie late, .chtDiscard r tie, .chtAbortSwap r tie late] ∧ ((tie = true ∧ isMc r = false) ∨ s.fld CHT_CTL_RESULT = 1)) ∧
    (∃ (s : State) (r : Requester) (tie : Bool) (late : Bool) (c : Instr), s.reaches r rCHT_CTL ∧ c ∈ [.chtOpen r tie, .chtVerify r tie, .chtArm r tie, .chtDisarm r tie late, .chtDiscard r tie, .chtAbortSwap r tie late] ∧ (tie = true → isMc r = true) ∧ s.fld CHT_CTL_RESULT ≠ 1 ∧ s.fld CHT_STATUS_SHADOW ≠ 0 ∧ s.fld CHT_CTL_OWNER ≠ ownerCode r ∧ (c = .chtDiscard r tie → isMc r = false)) :=
  ⟨⟨(wPw wP0 [(CHT_STATUS_SHADOW,0),(CHT_CTL_OWNER,0),(CHT_CTL_RESULT,0)]), (.hi0), true, true, (.chtDiscard (.hi0) true), (by unfold State.reaches; decide +kernel), (by first | decide +kernel | rfl), (by first | decide +kernel | rfl)⟩,
   ⟨(wPw wP0 [(CHT_STATUS_SHADOW,1),(CHT_CTL_OWNER,0),(CHT_CTL_RESULT,0)]), (.hi0), false, true, (.chtDiscard (.hi0) false), (by unfold State.reaches; decide +kernel), (by first | decide +kernel | rfl), (by first | decide +kernel | rfl), (by first | decide +kernel | rfl), (by first | decide +kernel | rfl), (by first | decide +kernel | rfl), (by first | decide +kernel | rfl)⟩⟩

theorem test_wit_ShadowCommandsChangeItsState :
    (∃ (s : State) (r : Requester) (tie : Bool), s.reaches r rCHT_CTL ∧ (tie = true → isMc r = true) ∧ s.fld CHT_CTL_RESULT ≠ 1 ∧ (∀ t, r ≠ .tenant t) ∧ s.fld CHT_STATUS_SHADOW = 0) ∧
    (∃ (s : State) (r : Requester) (tie : Bool), s.reaches r rCHT_CTL ∧ (tie = true → isMc r = true) ∧ s.fld CHT_CTL_RESULT ≠ 1 ∧ (∀ t, r ≠ .tenant t) ∧ s.fld CHT_CTL_OWNER = ownerCode r ∧ s.fld CHT_STATUS_SHADOW = 1) ∧
    (∃ (s : State) (r : Requester) (tie : Bool), s.reaches r rCHT_CTL ∧ (tie = true → isMc r = true) ∧ s.fld CHT_CTL_RESULT ≠ 1 ∧ (∀ t, r ≠ .tenant t) ∧ s.fld CHT_CTL_OWNER = ownerCode r ∧ s.fld CHT_STATUS_SHADOW ∈ [1, 3, 4]) :=
  ⟨⟨(wPw wP0 [(CHT_STATUS_SHADOW,0),(CHT_CTL_OWNER,0),(CHT_CTL_RESULT,0)]), (.mc), true, (by unfold State.reaches; decide +kernel), (by first | decide +kernel | rfl), (by first | decide +kernel | rfl), (by intro t h; cases h), (by first | decide +kernel | rfl)⟩,
   ⟨(wPw wP0 [(CHT_STATUS_SHADOW,1),(CHT_CTL_OWNER,1),(CHT_CTL_RESULT,0)]), (.mc), true, (by unfold State.reaches; decide +kernel), (by first | decide +kernel | rfl), (by first | decide +kernel | rfl), (by intro t h; cases h), (by first | decide +kernel | rfl), (by first | decide +kernel | rfl)⟩,
   ⟨(wPw wP0 [(CHT_STATUS_SHADOW,1),(CHT_CTL_OWNER,1),(CHT_CTL_RESULT,0)]), (.mc), true, (by unfold State.reaches; decide +kernel), (by first | decide +kernel | rfl), (by first | decide +kernel | rfl), (by intro t h; cases h), (by first | decide +kernel | rfl), (by first | decide +kernel | rfl)⟩⟩

theorem test_wit_ShadowWindowWriteStoresFourBytes :
    (∃ (s : State) (r : Requester) (a : Nat), s.reaches r a ∧ a % 4 = 0 ∧ 0x140000 ≤ a ∧ a < 0x200000 ∧ s.fld CHT_STATUS_SHADOW = 1 ∧ s.fld CHT_CTL_OWNER = ownerCode r) ∧
    (∃ (s : State) (r : Requester) (a : Nat), s.reaches r a ∧ a % 4 = 0 ∧ 0x140000 ≤ a ∧ a < 0x200000 ∧ (s.fld CHT_STATUS_SHADOW ≠ 1 ∨ s.fld CHT_CTL_OWNER ≠ ownerCode r)) :=
  ⟨⟨(wPw wP0 [(CHT_STATUS_SHADOW,1),(CHT_CTL_OWNER,1),(CHT_CTL_RESULT,0)]), .mc, 0x140008, (by unfold State.reaches; decide +kernel), (by first | decide +kernel | rfl), (by first | decide +kernel | rfl), (by first | decide +kernel | rfl), (by first | decide +kernel | rfl), (by first | decide +kernel | rfl)⟩,
   ⟨(wPw wP0 [(CHT_STATUS_SHADOW,0),(CHT_CTL_OWNER,0),(CHT_CTL_RESULT,0)]), .mc, 0x140008, (by unfold State.reaches; decide +kernel), (by first | decide +kernel | rfl), (by first | decide +kernel | rfl), (by first | decide +kernel | rfl), (by first | decide +kernel | rfl)⟩⟩

theorem test_wit_ChartFloorOnlyRises :
    (∃ (s : State) (r : Requester) (v : Nat), s.reaches r rCHT_FLOOR ∧ v < 2 ^ 32) :=
  ⟨wOn, .hi0, 0xFFFFFFFF, (by unfold State.reaches; decide +kernel), (by first | decide +kernel | rfl)⟩

theorem test_wit_VerificationEndsVerifiedOrRejected :
    (∃ (s : State), s.fld CHT_STATUS_SHADOW = 2) :=
  ⟨({ (wPw wP0 [(CHT_STATUS_SHADOW,2),(CHT_CTL_OWNER,1),(CHT_STATUS_KIND,0),(CHT_STATUS_READY,0),(CLK_STATUS_PLL_TS,1)]) with active := wHot.active, shadow := wHot.shadow, cht := { State.reset.cht with back := true } } : State), (by first | decide +kernel | rfl)⟩

theorem test_wit_ArmDisarmAbort :
    (∃ (s : State) (r : Requester) (tie : Bool), s.reaches r rCHT_CTL ∧ (tie = true → isMc r = true) ∧ s.fld CHT_CTL_RESULT ≠ 1 ∧ s.fld CHT_CTL_OWNER = ownerCode r ∧ s.fld CHT_STATUS_SHADOW = 3 ∧ s.flag CLK_STATUS_PLL_TS = true ∧ s.fld CHT_STATUS_KIND ≠ 3 ∧ s.differs tySTREAMS = false) ∧
    (∃ (s : State) (r : Requester) (tie : Bool) (late : Bool), s.reaches r rCHT_CTL ∧ (tie = true → isMc r = true) ∧ s.fld CHT_CTL_RESULT ≠ 1 ∧ s.fld CHT_CTL_OWNER = ownerCode r ∧ s.fld CHT_STATUS_SHADOW = 5 ∧ s.fld CHT_STATUS_KIND ≠ 3 ∧ (late = false ∨ s.flag CHT_STATUS_READY = false ∨ s.cht.back = true)) ∧
    (∃ (s : State) (r : Requester) (tie : Bool) (late : Bool), s.reaches r rCHT_CTL ∧ (tie = true → isMc r = true) ∧ s.fld CHT_CTL_RESULT ≠ 1 ∧ s.fld CHT_CTL_OWNER = ownerCode r ∧ s.fld CHT_STATUS_SHADOW = 5 ∧ s.fld CHT_STATUS_KIND ≠ 3 ∧ late = true ∧ s.flag CHT_STATUS_READY = true ∧ s.cht.back = false) ∧
    (∃ (s : State) (r : Requester) (tie : Bool) (late : Bool), s.reaches r rCHT_CTL ∧ (tie = true → isMc r = true) ∧ s.fld CHT_CTL_RESULT ≠ 1 ∧ s.fld CHT_CTL_OWNER = ownerCode r ∧ s.fld CHT_STATUS_SHADOW = 5 ∧ s.fld CHT_STATUS_KIND = 3 ∧ s.cht.back = false ∧ (late = false ∨ s.flag CHT_STATUS_READY = false)) ∧
    (∃ (s : State) (r : Requester) (tie : Bool) (late : Bool), s.reaches r rCHT_CTL ∧ (tie = true → isMc r = true) ∧ s.fld CHT_CTL_RESULT ≠ 1 ∧ s.fld CHT_CTL_OWNER = ownerCode r ∧ s.fld CHT_STATUS_SHADOW = 5 ∧ s.fld CHT_STATUS_KIND = 3 ∧ s.cht.back = false ∧ late = true ∧ s.flag CHT_STATUS_READY = true) ∧
    (∃ (s : State) (r : Requester) (tie : Bool) (late : Bool), s.reaches r rCHT_CTL ∧ (tie = true → isMc r = true) ∧ s.fld CHT_CTL_RESULT ≠ 1 ∧ s.fld CHT_CTL_OWNER = ownerCode r ∧ late = true ∧ s.fld CHT_STATUS_SHADOW = 6 ∧ s.fld CHT_STATUS_KIND ≠ 3) ∧
    (∃ (s : State) (r : Requester) (tie : Bool) (late : Bool), s.reaches r rCHT_CTL ∧ (tie = true → isMc r = true) ∧ s.fld CHT_CTL_RESULT ≠ 1 ∧ s.fld CHT_CTL_OWNER = ownerCode r ∧ late = true ∧ s.fld CHT_STATUS_SHADOW = 6 ∧ s.fld CHT_STATUS_KIND = 3) :=
  ⟨⟨({ (wPw wP0 [(CHT_STATUS_SHADOW,3),(CHT_CTL_OWNER,1),(CHT_STATUS_KIND,0),(CHT_STATUS_READY,0),(CLK_STATUS_PLL_TS,1)]) with active := wHot.active, shadow := wHot.shadow, cht := { State.reset.cht with back := true } } : State), .mc, true, (by unfold State.reaches; decide +kernel), (by first | decide +kernel | rfl), (by first | decide +kernel | rfl), (by first | decide +kernel | rfl), (by first | decide +kernel | rfl), (by first | decide +kernel | rfl), (by first | decide +kernel | rfl), (by first | decide +kernel | rfl)⟩,
   ⟨({ (wPw wP0 [(CHT_STATUS_SHADOW,5),(CHT_CTL_OWNER,1),(CHT_STATUS_KIND,0),(CHT_STATUS_READY,0),(CLK_STATUS_PLL_TS,1)]) with active := wHot.active, shadow := wHot.shadow, cht := { State.reset.cht with back := true } } : State), .mc, true, true, (by unfold State.reaches; decide +kernel), (by first | decide +kernel | rfl), (by first | decide +kernel | rfl), (by first | decide +kernel | rfl), (by first | decide +kernel | rfl), (by first | decide +kernel | rfl), (by first | decide +kernel | rfl)⟩,
   ⟨({ (wPw wP0 [(CHT_STATUS_SHADOW,5),(CHT_CTL_OWNER,1),(CHT_STATUS_KIND,0),(CHT_STATUS_READY,1),(CLK_STATUS_PLL_TS,1)]) with active := wHot.active, shadow := wHot.shadow, cht := { State.reset.cht with back := false } } : State), .mc, true, true, (by unfold State.reaches; decide +kernel), (by first | decide +kernel | rfl), (by first | decide +kernel | rfl), (by first | decide +kernel | rfl), (by first | decide +kernel | rfl), (by first | decide +kernel | rfl), (by first | rfl | decide +kernel), (by first | decide +kernel | rfl), (by first | decide +kernel | rfl)⟩,
   ⟨({ (wPw wP0 [(CHT_STATUS_SHADOW,5),(CHT_CTL_OWNER,1),(CHT_STATUS_KIND,3),(CHT_STATUS_READY,0),(CLK_STATUS_PLL_TS,1)]) with active := wHot.active, shadow := wHot.shadow, cht := { State.reset.cht with back := false } } : State), .mc, true, true, (by unfold State.reaches; decide +kernel), (by first | decide +kernel | rfl), (by first | decide +kernel | rfl), (by first | decide +kernel | rfl), (by first | decide +kernel | rfl), (by first | decide +kernel | rfl), (by first | decide +kernel | rfl), (by first | decide +kernel | rfl)⟩,
   ⟨({ (wPw wP0 [(CHT_STATUS_SHADOW,5),(CHT_CTL_OWNER,1),(CHT_STATUS_KIND,3),(CHT_STATUS_READY,1),(CLK_STATUS_PLL_TS,1)]) with active := wHot.active, shadow := wHot.shadow, cht := { State.reset.cht with back := false } } : State), .mc, true, true, (by unfold State.reaches; decide +kernel), (by first | decide +kernel | rfl), (by first | decide +kernel | rfl), (by first | decide +kernel | rfl), (by first | decide +kernel | rfl), (by first | decide +kernel | rfl), (by first | decide +kernel | rfl), (by first | rfl | decide +kernel), (by first | decide +kernel | rfl)⟩,
   ⟨({ (wPw wP0 [(CHT_STATUS_SHADOW,6),(CHT_CTL_OWNER,1),(CHT_STATUS_KIND,0),(CHT_STATUS_READY,0),(CLK_STATUS_PLL_TS,1)]) with active := wHot.active, shadow := wHot.shadow, cht := { State.reset.cht with back := true } } : State), .mc, true, true, (by unfold State.reaches; decide +kernel), (by first | decide +kernel | rfl), (by first | decide +kernel | rfl), (by first | decide +kernel | rfl), (by first | rfl | decide +kernel), (by first | decide +kernel | rfl), (by first | decide +kernel | rfl)⟩,
   ⟨({ (wPw wP0 [(CHT_STATUS_SHADOW,6),(CHT_CTL_OWNER,1),(CHT_STATUS_KIND,3),(CHT_STATUS_READY,0),(CLK_STATUS_PLL_TS,1)]) with active := wHot.active, shadow := wHot.shadow, cht := { State.reset.cht with back := true } } : State), .mc, true, true, (by unfold State.reaches; decide +kernel), (by first | decide +kernel | rfl), (by first | decide +kernel | rfl), (by first | decide +kernel | rfl), (by first | rfl | decide +kernel), (by first | decide +kernel | rfl), (by first | decide +kernel | rfl)⟩⟩

theorem test_wit_ChartTakesEffectInSteps :
    (∃ (s : State), s.fld CHT_STATUS_SHADOW = 5 ∧ s.flag CHT_STATUS_READY = false ∧ s.fld CHT_STATUS_KIND ≠ 3 ∧ s.differs tyRULES = false ∧ s.differs tySTREAMS = false) ∧
    (∃ (s : State), s.fld CHT_STATUS_SHADOW = 5 ∧ s.flag CHT_STATUS_READY = true ∧ s.cht.back = false ∧ ctLater (s.fld64 CHT_DOWNBEAT_LO_TIME CHT_DOWNBEAT_HI_TIME) s.nowCt = false) ∧
    (∃ (s : State), s.fld CHT_STATUS_SHADOW = 6 ∧ (s.dropEpoch (1 - s.epoch)).swapBusy = false) ∧
    (∃ (s : State), s.swapBusy = true) ∧
    (∃ (s : State), s.planeA.handing = false ∧ s.planeB.handing = true ∧ (s.drainEnd .B).swapBusy = true) :=
  ⟨⟨({ (wPw wP0 [(CHT_STATUS_SHADOW,5),(CHT_CTL_OWNER,1),(CHT_STATUS_KIND,0),(CHT_STATUS_READY,0),(CLK_STATUS_PLL_TS,1)]) with active := wHot.active, shadow := wHot.shadow, cht := { State.reset.cht with back := true } } : State), (by first | decide +kernel | rfl), (by first | decide +kernel | rfl), (by first | decide +kernel | rfl), (by first | decide +kernel | rfl), (by first | decide +kernel | rfl)⟩,
   ⟨({ (wPw wP0 [(CHT_STATUS_SHADOW,5),(CHT_CTL_OWNER,1),(CHT_STATUS_KIND,0),(CHT_STATUS_READY,1),(CLK_STATUS_PLL_TS,1)]) with active := wHot.active, shadow := wHot.shadow, cht := { State.reset.cht with back := false } } : State), (by first | decide +kernel | rfl), (by first | decide +kernel | rfl), (by first | decide +kernel | rfl), (by first | decide +kernel | rfl)⟩,
   ⟨({ (wPw wP0 [(CHT_STATUS_SHADOW,6),(CHT_CTL_OWNER,1),(CHT_STATUS_KIND,0),(CHT_STATUS_READY,0),(CLK_STATUS_PLL_TS,1)]) with active := wHot.active, shadow := wHot.shadow, cht := { State.reset.cht with back := true } } : State), (by first | decide +kernel | rfl), (by first | decide +kernel | rfl)⟩,
   ⟨({wPut wOn [(GLB_DEVSTATE_SWAP_BUSY,1)] with planeB := { wOn.planeB with handing := true }} : State), (by first | decide +kernel | rfl)⟩,
   ⟨({wPut wOn [(GLB_DEVSTATE_SWAP_BUSY,1)] with planeB := { wOn.planeB with handing := true }} : State), (by first | decide +kernel | rfl), (by first | decide +kernel | rfl), (by first | decide +kernel | rfl)⟩⟩

end W02

namespace W03
/-- Data of the witnesses below. -/
def wTx (f : Frame) : TxFrame := ⟨f, f.bytes, f.bytes, false, [], none, none⟩
/-- Data of the witnesses below. -/
def wPl (l : List (Fld × Nat)) (x : PortSt) (p : Nat) : State := wPort (wPut wCh l) p x
/-- Data of the witnesses below. -/
def wCtl : List Byte := List.replicate 12 0 ++ [0x88, 0x08] ++ List.replicate 50 0
/-- Data of the witnesses below. -/
def wGood : List Byte := ethFrame (List.replicate 60 0x22)
/-- Data of the witnesses below. -/
def wRx (c : Nat) : State := wPut { wCh with planeA := { PlaneSt.empty with pools := [⟨[4, 3], 5, c, false, [], []⟩, ⟨[], 0, 0, false, [], []⟩, ⟨[], 0, 0, false, [], []⟩, ⟨[], 0, 0, false, [], []⟩] } }
  [(BPM_POOL_CFG_COUNT .A 0, c), (ETH_STATUS_LINK 0, 1), (ETH_CFG_MAXLEN 0, 1522)]

theorem test_wit_PortLinkComesUp :
    (∃ (s : State) (p : Nat), p < 24 ∧ s.portOn p = true) ∧
    (∃ (s : State) (p : Nat), 24 ≤ p ∧ p < 32 ∧ s.portOn p = true ∧ (s.port p).tc10 = false) ∧
    (∃ (s : State) (p : Nat), p < 24 ∧ s.linkUp p = false ∧ (s.port p).debounce = true ∧ s.linkReady p = true) ∧
    (∃ (s : State) (p : Nat), 24 ≤ p ∧ p < 32 ∧ s.linkUp p = false ∧ (s.port p).debounce = true ∧ s.linkReady p = true) ∧
    (∃ (s : State) (p : Nat), ((s.port p).debounce = false ∨ s.linkReady p = false)) ∧
    (∃ (s : State) (p : Nat) (speed : Nat), p < 24 ∧ s.portEnabled p = true ∧ modeHasAn (s.fld (ETH_CFG_MODE p)) = true ∧ s.flag (ETH_STATUS_PCS_LOCK p) = true ∧ anLists (s.fld (ETH_CFG_MODE p)) speed = true ∧ s.linkUp p = false) ∧
    (∃ (s : State) (p : Nat) (speed : Nat), p < 24 ∧ s.portEnabled p = true ∧ modeHasAn (s.fld (ETH_CFG_MODE p)) = true ∧ s.flag (ETH_STATUS_PCS_LOCK p) = true ∧ anLists (s.fld (ETH_CFG_MODE p)) speed = false) :=
  ⟨⟨wCh, 0, (by first | decide +kernel | rfl), (by first | decide +kernel | rfl)⟩,
   ⟨wCh, 24, (by first | decide +kernel | rfl), (by first | decide +kernel | rfl), (by first | decide +kernel | rfl), (by first | decide +kernel | rfl)⟩,
   ⟨(wPl [(ETH_CFG_MODE 0,1),(ETH_STATUS_PCS_LOCK 0,1),(ETH_CFG_PREEMPT 0,1),(ETH_STATUS_FLUSHED 0,1)] { PortSt.reset with debounce := true } 0), 0, (by first | decide +kernel | rfl), (by first | decide +kernel | rfl), (by first | decide +kernel | rfl), (by first | decide +kernel | rfl)⟩,
   ⟨(wPl [(T1S_CFG_NODE_ID 0,1),(T1S_STATUS_PHY_READY 0,1),(T1S_STATUS_PLCA_STATUS 0,1)] { PortSt.reset with debounce := true } 24), 24, (by first | decide +kernel | rfl), (by first | decide +kernel | rfl), (by first | decide +kernel | rfl), (by first | decide +kernel | rfl), (by first | decide +kernel | rfl)⟩,
   ⟨wCh, 0, (by first | decide +kernel | rfl)⟩,
   ⟨(wPl [(ETH_CFG_MODE 0,3),(ETH_STATUS_PCS_LOCK 0,1)] { PortSt.reset with debounce := true } 0), 0, 2, (by first | decide +kernel | rfl), (by first | decide +kernel | rfl), (by first | decide +kernel | rfl), (by first | decide +kernel | rfl), (by first | decide +kernel | rfl), (by first | decide +kernel | rfl)⟩,
   ⟨(wPl [(ETH_CFG_MODE 0,3),(ETH_STATUS_PCS_LOCK 0,1)] { PortSt.reset with debounce := true } 0), 0, 0, (by first | decide +kernel | rfl), (by first | decide +kernel | rfl), (by first | decide +kernel | rfl), (by first | decide +kernel | rfl), (by first | decide +kernel | rfl)⟩⟩

theorem test_wit_PortLinkGoesDown :
    (∃ (s : State) (p : Nat), p < 24 ∧ s.portOn p = true ∧ modeHasAn (s.fld (ETH_CFG_MODE p)) = false) ∧
    (∃ (s : State) (p : Nat), p < 24 ∧ s.portOn p = true ∧ modeHasAn (s.fld (ETH_CFG_MODE p)) = true) ∧
    (∃ (s : State) (p : Nat), 24 ≤ p ∧ p < 32 ∧ s.portOn p = true ∧ s.linkUp p = false) ∧
    (∃ (s : State) (r : Requester) (p : Nat), p < 24 ∧ s.reaches r (rETH_CTL p) ∧ s.linkUp p = true ∧ (s.port p).tx = none ∧ (s.port p).txp = none ∧ s.fld (ETH_CTL_HOLD_MS p) ≠ 0) ∧
    (∃ (s : State) (n : Nat), n < 8 ∧ s.portEnabled (24 + n) = true ∧ s.fld (T1S_CFG_NODE_ID n) ≠ 0 ∧ s.flag (T1S_STATUS_PHY_READY n) = true ∧ s.flag (T1S_STATUS_PLCA_STATUS n) = false) ∧
    (∃ (s : State) (n : Nat), n < 8 ∧ s.fld (T1S_CFG_NODE_ID n) ≠ 0 ∧ s.flag (T1S_STATUS_PLCA_STATUS n) = true) :=
  ⟨⟨wCh, 0, (by first | decide +kernel | rfl), (by first | decide +kernel | rfl), (by first | decide +kernel | rfl)⟩,
   ⟨(wPl [(ETH_CFG_MODE 0,3),(ETH_STATUS_LINK 0,1),(ETH_STATUS_SPEED 0,4),(ETH_STATUS_PREEMPT_ACTIVE 0,1),(ETH_STATUS_VERIFY_ST 0,2),(ETH_CTL_HOLD_MS 0,100)] PortSt.reset 0), 0, (by first | decide +kernel | rfl), (by first | decide +kernel | rfl), (by first | decide +kernel | rfl)⟩,
   ⟨wCh, 24, (by first | decide +kernel | rfl), (by first | decide +kernel | rfl), (by first | decide +kernel | rfl), (by first | decide +kernel | rfl)⟩,
   ⟨(wPl [(ETH_CFG_MODE 0,3),(ETH_STATUS_LINK 0,1),(ETH_STATUS_SPEED 0,4),(ETH_STATUS_PREEMPT_ACTIVE 0,1),(ETH_STATUS_VERIFY_ST 0,2),(ETH_CTL_HOLD_MS 0,100)] PortSt.reset 0), .mc, 0, (by first | decide +kernel | rfl), (by unfold State.reaches; decide +kernel), (by first | decide +kernel | rfl), (by first | decide +kernel | rfl), (by first | decide +kernel | rfl), (by first | decide +kernel | rfl)⟩,
   ⟨(wPl [(T1S_CFG_NODE_ID 0,1),(T1S_STATUS_PHY_READY 0,1)] PortSt.reset 24), 0, (by first | decide +kernel | rfl), (by first | decide +kernel | rfl), (by first | decide +kernel | rfl), (by first | decide +kernel | rfl), (by first | decide +kernel | rfl)⟩,
   ⟨(wPl [(T1S_CFG_NODE_ID 0,1),(T1S_STATUS_PHY_READY 0,1),(T1S_STATUS_LINK 0,1),(T1S_STATUS_PLCA_STATUS 0,1)] PortSt.reset 24), 0, (by first | decide +kernel | rfl), (by first | decide +kernel | rfl), (by first | decide +kernel | rfl)⟩⟩

theorem test_wit_HoldVerificationAndCollision :
    (∃ (s : State) (p : Nat) (tie : Bool), p < 32 ∧ s.holding p = true ∧ (tie = false ∨ (s.port p).debounce = false ∨ s.linkReady p = false)) ∧
    (∃ (s : State) (p : Nat) (tie : Bool), p < 32 ∧ s.holding p = true ∧ tie = true ∧ (s.port p).debounce = true ∧ s.linkReady p = true) ∧
    (∃ (s : State) (p : Nat), s.holding p = false) ∧
    (∃ (s : State) (r : Requester) (p : Nat) (ms : Nat), p < 24 ∧ s.reaches r (rETH_CTL p) ∧ s.holding p = false ∧ ms < 1024) ∧
    (∃ (s : State) (r : Requester) (p : Nat) (ms : Nat) (elapsed : Bool), p < 24 ∧ s.reaches r (rETH_CTL p) ∧ s.holding p = true ∧ (elapsed = true ∨ ms % 1024 = 0)) ∧
    (∃ (s : State) (p : Nat), p < 24 ∧ s.fld (ETH_STATUS_VERIFY_ST p) = 1 ∧ (s.port p).verifyN < 3) ∧
    (∃ (s : State) (p : Nat), p < 24 ∧ s.fld (ETH_STATUS_VERIFY_ST p) = 1 ∧ 3 ≤ (s.port p).verifyN) ∧
    (∃ (s : State) (p : Nat), p < 24 ∧ (s.fld (ETH_STATUS_VERIFY_ST p) = 1 ∨ s.fld (ETH_STATUS_VERIFY_ST p) = 3) ∧ 0 < (s.port p).verifyN) ∧
    (∃ (s : State) (n : Nat) (f : TxFrame), n < 8 ∧ (s.port (24 + n)).tx = some f ∧ (s.port (24 + n)).retry = false ∧ (s.port (24 + n)).attempts < 15) ∧
    (∃ (s : State) (n : Nat) (f : TxFrame), n < 8 ∧ (s.port (24 + n)).tx = some f ∧ (s.port (24 + n)).retry = false ∧ 15 ≤ (s.port (24 + n)).attempts) :=
  ⟨⟨(wPl [(ETH_STATUS_HOLDING 0,1)] PortSt.reset 0), 0, false, (by first | decide +kernel | rfl), (by first | decide +kernel | rfl), (by first | decide +kernel | rfl)⟩,
   ⟨(wPl [(ETH_STATUS_HOLDING 0,1),(ETH_CFG_MODE 0,1),(ETH_STATUS_PCS_LOCK 0,1)] { PortSt.reset with debounce := true } 0), 0, true, (by first | decide +kernel | rfl), (by first | decide +kernel | rfl), (by first | rfl | decide +kernel), (by first | decide +kernel | rfl), (by first | decide +kernel | rfl)⟩,
   ⟨wCh, 0, (by first | decide +kernel | rfl)⟩,
   ⟨wCh, .mc, 0, 0, (by first | decide +kernel | rfl), (by unfold State.reaches; decide +kernel), (by first | decide +kernel | rfl), (by first | decide +kernel | rfl)⟩,
   ⟨(wPl [(ETH_STATUS_HOLDING 0,1)] PortSt.reset 0), .mc, 0, 0, false, (by first | decide +kernel | rfl), (by unfold State.reaches; decide +kernel), (by first | decide +kernel | rfl), (by first | decide +kernel | rfl)⟩,
   ⟨(wPl [(ETH_STATUS_VERIFY_ST 0,1)] {PortSt.reset with verifyN := 2} 0), 0, (by first | decide +kernel | rfl), (by first | decide +kernel | rfl), (by first | decide +kernel | rfl)⟩,
   ⟨(wPl [(ETH_STATUS_VERIFY_ST 0,1)] {PortSt.reset with verifyN := 3} 0), 0, (by first | decide +kernel | rfl), (by first | decide +kernel | rfl), (by first | decide +kernel | rfl)⟩,
   ⟨(wPl [(ETH_STATUS_VERIFY_ST 0,1)] {PortSt.reset with verifyN := 2} 0), 0, (by first | decide +kernel | rfl), (by first | decide +kernel | rfl), (by first | decide +kernel | rfl)⟩,
   ⟨(wPl [] {PortSt.reset with tx := some (wTx (wFrame 64)), attempts := 14} 24), 0, (wTx (wFrame 64)), (by first | decide +kernel | rfl), (by first | decide +kernel | rfl), (by first | decide +kernel | rfl), (by first | decide +kernel | rfl)⟩,
   ⟨(wPl [] {PortSt.reset with tx := some (wTx (wFrame 64)), attempts := 15} 24), 0, (wTx (wFrame 64)), (by first | decide +kernel | rfl), (by first | decide +kernel | rfl), (by first | decide +kernel | rfl), (by first | decide +kernel | rfl)⟩⟩

theorem test_wit_FrameIsCheckedAtItsPort :
    (∃ (s : State) (p : Nat) (rx : RxCond), (32 ≤ p ∨ s.portOn p = false ∨ s.pwr.sleep ≠ 0 ∨ (s.linkUp p = false ∧ rx ≠ .cutOff))) ∧
    (∃ (s : State) (p : Nat) (b : List Byte) (rx : RxCond), p < 24 ∧ s.portOn p = true ∧ s.pwr.sleep = 0 ∧ s.linkUp p = true ∧ isControl b = true ∧ rxCheck (s.rxMax p) b rx = none) ∧
    (∃ (s : State) (p : Nat) (b : List Byte) (rx : RxCond), p < 24 ∧ s.portOn p = true ∧ s.pwr.sleep = 0 ∧ s.linkUp p = true ∧ isControl b = true ∧ rxCheck (s.rxMax p) b rx = some .runt) ∧
    (∃ (s : State) (p : Nat) (age : Nat) (b : List Byte) (rx : RxCond), p < 32 ∧ s.portOn p = true ∧ s.pwr.sleep = 0 ∧ s.linkUp p = true ∧ isControl b = false ∧ ∃ s1 fs, s.hold p false (s.rxStored p b) (s.stampAgo age) age none = (s1, some fs) ∧ rxCheck (s.rxMax p) b rx = none) ∧
    (∃ (s : State) (p : Nat) (age : Nat) (b : List Byte) (rx : RxCond), p < 32 ∧ s.portOn p = true ∧ s.pwr.sleep = 0 ∧ s.linkUp p = true ∧ isControl b = false ∧ ∃ s1 fs, s.hold p false (s.rxStored p b) (s.stampAgo age) age none = (s1, some fs) ∧ ∃ e, rxCheck (s.rxMax p) b rx = some e) ∧
    (∃ (s : State) (i : Nat) (pl : Plane), i < (s.plane pl).frags.length) :=
  ⟨⟨wCh, 0, .clean, (by first | decide +kernel | rfl)⟩,
   ⟨(wRx 5), 0, (wCtl.take 60 ++ leBytes 4 (crc32 (wCtl.take 60))), .clean, (by first | decide +kernel | rfl), (by first | decide +kernel | rfl), (by first | decide +kernel | rfl), (by first | decide +kernel | rfl), (by first | decide +kernel | rfl), (by first | decide +kernel | rfl)⟩,
   ⟨(wRx 5), 0, (wCtl.take 20), .clean, (by first | decide +kernel | rfl), (by first | decide +kernel | rfl), (by first | decide +kernel | rfl), (by first | decide +kernel | rfl), (by first | decide +kernel | rfl), (by first | decide +kernel | rfl)⟩,
   ⟨(wRx 5), 0, 5, wGood, .clean, (by first | decide +kernel | rfl), (by first | decide +kernel | rfl), (by first | decide +kernel | rfl), (by first | decide +kernel | rfl), (by first | decide +kernel | rfl), (((wRx 5) : State).hold (0 : Nat) false (((wRx 5) : State).rxStored (0 : Nat) (wGood : List Byte)) (((wRx 5) : State).stampAgo (5 : Nat)) (5 : Nat) none).1, (Option.get ((((wRx 5) : State).hold (0 : Nat) false (((wRx 5) : State).rxStored (0 : Nat) (wGood : List Byte)) (((wRx 5) : State).stampAgo (5 : Nat)) (5 : Nat) none).2) (by decide +kernel)), (pairOf (by decide +kernel)), (by first | decide +kernel | rfl)⟩,
   ⟨(wRx 5), 0, 5, wGood, .cutOff, (by first | decide +kernel | rfl), (by first | decide +kernel | rfl), (by first | decide +kernel | rfl), (by first | decide +kernel | rfl), (by first | decide +kernel | rfl), (((wRx 5) : State).hold (0 : Nat) false (((wRx 5) : State).rxStored (0 : Nat) (wGood : List Byte)) (((wRx 5) : State).stampAgo (5 : Nat)) (5 : Nat) none).1, (Option.get ((((wRx 5) : State).hold (0 : Nat) false (((wRx 5) : State).rxStored (0 : Nat) (wGood : List Byte)) (((wRx 5) : State).stampAgo (5 : Nat)) (5 : Nat) none).2) (by decide +kernel)), (pairOf (by decide +kernel)), (Option.get (rxCheck (((wRx 5) : State).rxMax (0 : Nat)) (wGood : List Byte) (.cutOff : RxCond)) (by decide +kernel)), (someOf (by decide +kernel))⟩,
   ⟨({wRx 8 with planeB := {PlaneSt.empty with frags := [⟨[1],⟨3, 0, none, none, none, none⟩,[],none⟩]}}), 0, .B, (by first | decide +kernel | rfl)⟩⟩

end W03

namespace W04
/-- Data of the witnesses below. -/
def wRg (pg : Bool) (st : RegState) (w : Bool) : Region := ⟨w, pg, 1, 0, 64, 64, 0, 5, 7, st, 3, [], 0⟩
/-- Data of the witnesses below. -/
def wSl (st : Nat) : Slot := ⟨0, 0x1234, st⟩
/-- Data of the witnesses below. -/
def wTab (r : Region) (ex : Tab Slot) : State :=
  { wOn with planeA := { PlaneSt.empty with regions := [r], tagMap := [(0, 0)], exact := ex, learnRegion := some 0 }, planeB := { PlaneSt.empty with regions := [r], tagMap := [(0, 0)], exact := ex, learnRegion := some 0 } }
/-- Data of the witnesses below. -/
def wHome (w : Bool) : Nat := 4 * cand0 (wRg false .normal w) 0
/-- Data of the witnesses below. -/
def wTn : State := { wPut (wTab { wRg true .normal false with pinReserve := 4 } []) [(TBL_SLOT_STATUS_STATUS .A, 0x3FF)] with lpddr := [] }
/-- Data of the witnesses below. -/
def wTcs (s : State) (pl : Plane) : State := { s with tblResult := some 5 }
/-- Data of the witnesses below. -/
def wLpm : State := (wRun (.tblLpmInsert .mc false false) (wTab (wRg false .normal false) [])).tblComplete

theorem test_wit_TableCommandsEndWithAStatus :
    (∃ (s : State) (r : Requester) (tie : Bool) (wide : Bool) (pin : Bool) (g : Nat) (pl : Plane) (c : Instr), s.reaches r (rTBL_CMD .A) ∧ c ∈ [.tblInsert r tie wide pin, .tblReplace r tie wide pin, .tblDelete r tie wide, .tblLookup r tie wide pl, .tblReadAt r tie g pl, .tblWriteAt r tie g, .tblRehash r tie g, .tblResume r tie g, .tblUnlock r tie wide, .tblFlushLearned r tie g, .tblLpmInsert r tie pin, .tblLpmDelete r tie, .tblLpmLookup r tie, .tblBloomRebuild r tie] ∧ ((tie = true ∧ isMc r = false) ∨ s.flag (TBL_CMD_BUSY .A) = true)) ∧
    (∃ (s : State) (r : Requester) (tie : Bool) (wide : Bool) (pin : Bool) (g : Nat) (pl : Plane) (c : Instr), s.reaches r (rTBL_CMD .A) ∧ c ∈ [.tblInsert r tie wide pin, .tblReplace r tie wide pin, .tblDelete r tie wide, .tblLookup r tie wide pl, .tblReadAt r tie g pl, .tblWriteAt r tie g, .tblRehash r tie g, .tblResume r tie g, .tblUnlock r tie wide, .tblFlushLearned r tie g, .tblLpmInsert r tie pin, .tblLpmDelete r tie, .tblLpmLookup r tie, .tblBloomRebuild r tie] ∧ (tie = true → isMc r = true) ∧ s.flag (TBL_CMD_BUSY .A) = false) ∧
    (∃ (s : State) (st : Nat), s.tblResult = some st ∧ st ≤ 0xD) :=
  ⟨⟨wOn, .hi0, true, false, false, 0, .A, (.tblResume .hi0 true 0), (by unfold State.reaches; decide +kernel), (by first | decide +kernel | rfl), (by first | decide +kernel | rfl)⟩,
   ⟨wOn, .mc, true, false, false, 0, .A, (.tblResume .mc true 0), (by unfold State.reaches; decide +kernel), (by first | decide +kernel | rfl), (by first | decide +kernel | rfl), (by first | decide +kernel | rfl)⟩,
   ⟨({wTab (wRg false .normal false) [] with tblResult := some 9}), 9, (by first | decide +kernel | rfl), (by first | decide +kernel | rfl)⟩⟩

theorem test_wit_ExactMatchCommands :
    (∃ (s : State) (r : Requester) (tie : Bool) (wide : Bool) (pin : Bool) (ri : Nat) (rg : Region), s.reaches r (rTBL_CMD .A) ∧ (tie = true → isMc r = true) ∧ s.flag (TBL_CMD_BUSY .A) = false ∧ s.anyWriter = true ∧ s.keyRegion wide (s.tblKey wide) = some (ri, rg) ∧ ∃ s1 b e, holders rg (s.view rg) (s.tblKey wide) = [] ∧ pin = false ∧ s.place ri (s.tblKey wide) s.tblRes (stStatic false) = (s1, some (b, e))) ∧
    (∃ (s : State) (r : Requester) (tie : Bool) (wide : Bool) (pin : Bool) (ri : Nat) (rg : Region), s.reaches r (rTBL_CMD .A) ∧ (tie = true → isMc r = true) ∧ s.flag (TBL_CMD_BUSY .A) = false ∧ s.anyWriter = true ∧ s.keyRegion wide (s.tblKey wide) = some (ri, rg) ∧ ∃ s1, holders rg (s.view rg) (s.tblKey wide) = [] ∧ pin = false ∧ s.place ri (s.tblKey wide) s.tblRes (stStatic false) = (s1, none)) ∧
    (∃ (s : State) (r : Requester) (tie : Bool) (wide : Bool) (pin : Bool) (ri : Nat) (rg : Region), s.reaches r (rTBL_CMD .A) ∧ (tie = true → isMc r = true) ∧ s.flag (TBL_CMD_BUSY .A) = false ∧ s.anyWriter = true ∧ s.keyRegion wide (s.tblKey wide) = some (ri, rg) ∧ ∃ b e x, staticElseLearned (holders rg (s.view rg) (s.tblKey wide)) = some (b, e, x) ∧ pin = false) ∧
    (∃ (s : State) (r : Requester) (tie : Bool) (wide : Bool) (ri : Nat) (rg : Region), s.reaches r (rTBL_CMD .A) ∧ (tie = true → isMc r = true) ∧ s.flag (TBL_CMD_BUSY .A) = false ∧ s.anyWriter = true ∧ s.keyRegion wide (s.tblKey wide) = some (ri, rg) ∧ staticElseLearned (holders rg (s.view rg) (s.tblKey wide)) = none) ∧
    (∃ (s : State) (r : Requester) (tie : Bool) (wide : Bool) (pl : Plane) (ri : Nat) (rg : Region), s.reaches r (rTBL_CMD .A) ∧ (tie = true → isMc r = true) ∧ s.flag (TBL_CMD_BUSY .A) = false ∧ s.anyWriter = true ∧ s.keyRegion wide (s.tblKey wide) = some (ri, rg) ∧ (s.plane pl).regionOfTag (keyTag wide (s.tblKey wide)) = some ri ∧ (s.plane pl).region ri = some rg ∧ rg.wide = wide ∧ ∃ b e x, s.tblWouldTake pl rg (s.tblKey wide) = some (b, e, x)) ∧
    (∃ (s : State) (r : Requester) (tie : Bool) (wide : Bool) (pl : Plane) (ri : Nat) (rg : Region), s.reaches r (rTBL_CMD .A) ∧ (tie = true → isMc r = true) ∧ s.flag (TBL_CMD_BUSY .A) = false ∧ s.anyWriter = true ∧ s.keyRegion wide (s.tblKey wide) = some (ri, rg) ∧ (s.plane pl).regionOfTag (keyTag wide (s.tblKey wide)) = some ri ∧ (s.plane pl).region ri = some rg ∧ rg.wide = wide ∧ s.tblWouldTake pl rg (s.tblKey wide) = none) ∧
    (∃ (s : State) (r : Requester) (tie : Bool) (wide : Bool) (ri : Nat) (rg : Region), s.reaches r (rTBL_CMD .A) ∧ (tie = true → isMc r = true) ∧ s.flag (TBL_CMD_BUSY .A) = false ∧ s.anyWriter = true ∧ s.keyRegion wide (s.tblKey wide) = some (ri, rg) ∧ ∃ b e x, (holders rg (s.view rg) (s.tblKey wide)).find? (fun y => stHas y.2.2.status stLEARNED && !stHas y.2.2.status stCHART) = some (b, e, x)) ∧
    (∃ (s : State) (r : Requester) (tie : Bool) (wide : Bool) (ri : Nat) (rg : Region), s.reaches r (rTBL_CMD .A) ∧ (tie = true → isMc r = true) ∧ s.flag (TBL_CMD_BUSY .A) = false ∧ s.anyWriter = true ∧ s.keyRegion wide (s.tblKey wide) = some (ri, rg) ∧ ∃ g rg', g ≠ 16 ∧ (s.plane s.engine).region g = some rg') :=
  ⟨⟨(wTab (wRg false .dual true) []), .mc, false, true, false, 0, (((wTab (wRg false .dual true) [])).planeA.regions.headD (wRg false .normal false)), (by unfold State.reaches; decide +kernel), (by first | decide +kernel | rfl), (by first | decide +kernel | rfl), (by first | decide +kernel | rfl), (by first | decide +kernel | rfl), (((wTab (wRg false .dual true) []) : State).place (0 : Nat) (((wTab (wRg false .dual true) []) : State).tblKey (true : Bool)) ((wTab (wRg false .dual true) []) : State).tblRes (stStatic false)).1, ((Option.get ((((wTab (wRg false .dual true) []) : State).place (0 : Nat) (((wTab (wRg false .dual true) []) : State).tblKey (true : Bool)) ((wTab (wRg false .dual true) []) : State).tblRes (stStatic false)).2) (by decide +kernel))).1, ((Option.get ((((wTab (wRg false .dual true) []) : State).place (0 : Nat) (((wTab (wRg false .dual true) []) : State).tblKey (true : Bool)) ((wTab (wRg false .dual true) []) : State).tblRes (stStatic false)).2) (by decide +kernel))).2, (by first | decide +kernel | rfl), (by first | rfl | decide +kernel), (pairOf (by decide +kernel))⟩,
   ⟨(let s := wTab (wRg false .normal false) []; { s with planeA := { s.planeA with exact := (List.range 256).map (fun n => (n, ⟨7000000, 3, stStatic false⟩)) }, planeB := { s.planeB with exact := (List.range 256).map (fun n => (n, ⟨7000000, 3, stStatic false⟩)) } }), .mc, false, false, false, 0, (wRg false .normal false), (by unfold State.reaches; decide +kernel), (by first | decide +kernel | rfl), (by first | decide +kernel | rfl), (by first | decide +kernel | rfl), (by first | decide +kernel | rfl), (((let s := wTab (wRg false .normal false) []; { s with planeA := { s.planeA with exact := (List.range 256).map (fun n => (n, ⟨7000000, 3, stStatic false⟩)) }, planeB := { s.planeB with exact := (List.range 256).map (fun n => (n, ⟨7000000, 3, stStatic false⟩)) } }) : State).place (0 : Nat) (((let s := wTab (wRg false .normal false) []; { s with planeA := { s.planeA with exact := (List.range 256).map (fun n => (n, ⟨7000000, 3, stStatic false⟩)) }, planeB := { s.planeB with exact := (List.range 256).map (fun n => (n, ⟨7000000, 3, stStatic false⟩)) } }) : State).tblKey (false : Bool)) ((let s := wTab (wRg false .normal false) []; { s with planeA := { s.planeA with exact := (List.range 256).map (fun n => (n, ⟨7000000, 3, stStatic false⟩)) }, planeB := { s.planeB with exact := (List.range 256).map (fun n => (n, ⟨7000000, 3, stStatic false⟩)) } }) : State).tblRes (stStatic false)).1, (by first | decide +kernel | rfl), (by first | rfl | decide +kernel), (pairNone (by decide +kernel))⟩,
   ⟨(wTab (wRg false .normal true) [(wHome true, wSl (stStatic false))]), .mc, false, true, false, 0, (((wTab (wRg false .normal true) [(wHome true, wSl (stStatic false))])).planeA.regions.headD (wRg false .normal false)), (by unfold State.reaches; decide +kernel), (by first | decide +kernel | rfl), (by first | decide +kernel | rfl), (by first | decide +kernel | rfl), (by first | decide +kernel | rfl), ((Option.get (staticElseLearned (holders ((((wTab (wRg false .normal true) [(wHome true, wSl (stStatic false))])).planeA.regions.headD (wRg false .normal false)) : Region) (((wTab (wRg false .normal true) [(wHome true, wSl (stStatic false))]) : State).view ((((wTab (wRg false .normal true) [(wHome true, wSl (stStatic false))])).planeA.regions.headD (wRg false .normal false)) : Region)) (((wTab (wRg false .normal true) [(wHome true, wSl (stStatic false))]) : State).tblKey (true : Bool)))) (by decide +kernel))).1, ((Option.get (staticElseLearned (holders ((((wTab (wRg false .normal true) [(wHome true, wSl (stStatic false))])).planeA.regions.headD (wRg false .normal false)) : Region) (((wTab (wRg false .normal true) [(wHome true, wSl (stStatic false))]) : State).view ((((wTab (wRg false .normal true) [(wHome true, wSl (stStatic false))])).planeA.regions.headD (wRg false .normal false)) : Region)) (((wTab (wRg false .normal true) [(wHome true, wSl (stStatic false))]) : State).tblKey (true : Bool)))) (by decide +kernel))).2.1, ((Option.get (staticElseLearned (holders ((((wTab (wRg false .normal true) [(wHome true, wSl (stStatic false))])).planeA.regions.headD (wRg false .normal false)) : Region) (((wTab (wRg false .normal true) [(wHome true, wSl (stStatic false))]) : State).view ((((wTab (wRg false .normal true) [(wHome true, wSl (stStatic false))])).planeA.regions.headD (wRg false .normal false)) : Region)) (((wTab (wRg false .normal true) [(wHome true, wSl (stStatic false))]) : State).tblKey (true : Bool)))) (by decide +kernel))).2.2, (someOf (by decide +kernel)), (by first | rfl | decide +kernel)⟩,
   ⟨(wTab (wRg false .dual true) []), .mc, false, true, 0, (((wTab (wRg false .dual true) [])).planeA.regions.headD (wRg false .normal false)), (by unfold State.reaches; decide +kernel), (by first | decide +kernel | rfl), (by first | decide +kernel | rfl), (by first | decide +kernel | rfl), (by first | decide +kernel | rfl), (by first | decide +kernel | rfl)⟩,
   ⟨(wTab (wRg false .normal true) [(wHome true, wSl (stStatic false))]), .mc, false, true, .A, 0, (((wTab (wRg false .normal true) [(wHome true, wSl (stStatic false))])).planeA.regions.headD (wRg false .normal false)), (by unfold State.reaches; decide +kernel), (by first | decide +kernel | rfl), (by first | decide +kernel | rfl), (by first | decide +kernel | rfl), (by first | decide +kernel | rfl), (by first | decide +kernel | rfl), (by first | decide +kernel | rfl), (by first | decide +kernel | rfl), ((Option.get (((wTab (wRg false .normal true) [(wHome true, wSl (stStatic false))]) : State).tblWouldTake (.A : Plane) ((((wTab (wRg false .normal true) [(wHome true, wSl (stStatic false))])).planeA.regions.headD (wRg false .normal false)) : Region) (((wTab (wRg false .normal true) [(wHome true, wSl (stStatic false))]) : State).tblKey (true : Bool))) (by decide +kernel))).1, ((Option.get (((wTab (wRg false .normal true) [(wHome true, wSl (stStatic false))]) : State).tblWouldTake (.A : Plane) ((((wTab (wRg false .normal true) [(wHome true, wSl (stStatic false))])).planeA.regions.headD (wRg false .normal false)) : Region) (((wTab (wRg false .normal true) [(wHome true, wSl (stStatic false))]) : State).tblKey (true : Bool))) (by decide +kernel))).2.1, ((Option.get (((wTab (wRg false .normal true) [(wHome true, wSl (stStatic false))]) : State).tblWouldTake (.A : Plane) ((((wTab (wRg false .normal true) [(wHome true, wSl (stStatic false))])).planeA.regions.headD (wRg false .normal false)) : Region) (((wTab (wRg false .normal true) [(wHome true, wSl (stStatic false))]) : State).tblKey (true : Bool))) (by decide +kernel))).2.2, (someOf (by decide +kernel))⟩,
   ⟨(wTab (wRg false .dual true) []), .mc, false, true, .A, 0, (((wTab (wRg false .dual true) [])).planeA.regions.headD (wRg false .normal false)), (by unfold State.reaches; decide +kernel), (by first | decide +kernel | rfl), (by first | decide +kernel | rfl), (by first | decide +kernel | rfl), (by first | decide +kernel | rfl), (by first | decide +kernel | rfl), (by first | decide +kernel | rfl), (by first | decide +kernel | rfl), (by first | decide +kernel | rfl)⟩,
   ⟨(wTab (wRg false .normal true) [(wHome true, wSl (stVALID+stLEARNED+stLOCK))]), .mc, false, true, 0, (((wTab (wRg false .normal true) [(wHome true, wSl (stVALID+stLEARNED+stLOCK))])).planeA.regions.headD (wRg false .normal false)), (by unfold State.reaches; decide +kernel), (by first | decide +kernel | rfl), (by first | decide +kernel | rfl), (by first | decide +kernel | rfl), (by first | decide +kernel | rfl), ((Option.get ((holders ((((wTab (wRg false .normal true) [(wHome true, wSl (stVALID+stLEARNED+stLOCK))])).planeA.regions.headD (wRg false .normal false)) : Region) (((wTab (wRg false .normal true) [(wHome true, wSl (stVALID+stLEARNED+stLOCK))]) : State).view ((((wTab (wRg false .normal true) [(wHome true, wSl (stVALID+stLEARNED+stLOCK))])).planeA.regions.headD (wRg false .normal false)) : Region)) (((wTab (wRg false .normal true) [(wHome true, wSl (stVALID+stLEARNED+stLOCK))]) : State).tblKey (true : Bool))).find? (fun y => stHas y.2.2.status stLEARNED && !stHas y.2.2.status stCHART)) (by decide +kernel))).1, ((Option.get ((holders ((((wTab (wRg false .normal true) [(wHome true, wSl (stVALID+stLEARNED+stLOCK))])).planeA.regions.headD (wRg false .normal false)) : Region) (((wTab (wRg false .normal true) [(wHome true, wSl (stVALID+stLEARNED+stLOCK))]) : State).view ((((wTab (wRg false .normal true) [(wHome true, wSl (stVALID+stLEARNED+stLOCK))])).planeA.regions.headD (wRg false .normal false)) : Region)) (((wTab (wRg false .normal true) [(wHome true, wSl (stVALID+stLEARNED+stLOCK))]) : State).tblKey (true : Bool))).find? (fun y => stHas y.2.2.status stLEARNED && !stHas y.2.2.status stCHART)) (by decide +kernel))).2.1, ((Option.get ((holders ((((wTab (wRg false .normal true) [(wHome true, wSl (stVALID+stLEARNED+stLOCK))])).planeA.regions.headD (wRg false .normal false)) : Region) (((wTab (wRg false .normal true) [(wHome true, wSl (stVALID+stLEARNED+stLOCK))]) : State).view ((((wTab (wRg false .normal true) [(wHome true, wSl (stVALID+stLEARNED+stLOCK))])).planeA.regions.headD (wRg false .normal false)) : Region)) (((wTab (wRg false .normal true) [(wHome true, wSl (stVALID+stLEARNED+stLOCK))]) : State).tblKey (true : Bool))).find? (fun y => stHas y.2.2.status stLEARNED && !stHas y.2.2.status stCHART)) (by decide +kernel))).2.2, (someOf (by decide +kernel))⟩,
   ⟨(wTab (wRg false .dual true) []), .mc, false, true, 0, (((wTab (wRg false .dual true) [])).planeA.regions.headD (wRg false .normal false)), (by unfold State.reaches; decide +kernel), (by first | decide +kernel | rfl), (by first | decide +kernel | rfl), (by first | decide +kernel | rfl), (by first | decide +kernel | rfl), (0), (Option.get ((((wTab (wRg false .dual true) []) : State).plane ((wTab (wRg false .dual true) []) : State).engine).region (0)) (by decide +kernel)), (by first | decide +kernel | rfl), (someOf (by decide +kernel))⟩⟩

theorem test_wit_PlaceRehashAndLpmCommands :
    (∃ (s : State) (r : Requester) (tie : Bool) (g : Nat) (rg : Region), s.reaches r (rTBL_CMD .A) ∧ (tie = true → isMc r = true) ∧ s.flag (TBL_CMD_BUSY .A) = false ∧ s.anyWriter = true ∧ g < 16 ∧ (s.plane s.engine).region g = some rg ∧ s.tblLoc.1 < rg.logical ∧ s.tblLoc.2 < rg.k ∧ stHas (s.fld (TBL_SLOT_STATUS_STATUS .A) % 1024) stVALID = false) ∧
    (∃ (s : State) (r : Requester) (tie : Bool) (g : Nat) (rg : Region), s.reaches r (rTBL_CMD .A) ∧ (tie = true → isMc r = true) ∧ s.flag (TBL_CMD_BUSY .A) = false ∧ s.anyWriter = true ∧ g < 16 ∧ (s.plane s.engine).region g = some rg ∧ s.tblLoc.1 < rg.logical ∧ s.tblLoc.2 < rg.k ∧ stHas (s.fld (TBL_SLOT_STATUS_STATUS .A) % 1024) stVALID = true ∧ stHas (s.fld (TBL_SLOT_STATUS_STATUS .A) % 1024) stPIN = true ∧ s.pinRefused g s.tblLoc.1 = true) ∧
    (∃ (s : State) (r : Requester) (tie : Bool) (pl : Plane) (g : Nat) (rg : Region), s.reaches r (rTBL_CMD .A) ∧ (tie = true → isMc r = true) ∧ s.flag (TBL_CMD_BUSY .A) = false ∧ s.anyWriter = true ∧ g < 16 ∧ (s.plane s.engine).region g = some rg ∧ ∃ rp n, (s.plane pl).region g = some rp ∧ s.tblLoc.1 < rp.logical ∧ s.tblLoc.2 < rp.k ∧ rp.slotAt s.tblLoc.1 s.tblLoc.2 = some n ∧ badItems (s.plane pl) rp n ≠ []) ∧
    (∃ (s : State) (r : Requester) (tie : Bool) (pl : Plane) (g : Nat) (rg : Region), s.reaches r (rTBL_CMD .A) ∧ (tie = true → isMc r = true) ∧ s.flag (TBL_CMD_BUSY .A) = false ∧ s.anyWriter = true ∧ g < 16 ∧ (s.plane s.engine).region g = some rg ∧ ∃ rp n, (s.plane pl).region g = some rp ∧ s.tblLoc.1 < rp.logical ∧ s.tblLoc.2 < rp.k ∧ rp.slotAt s.tblLoc.1 s.tblLoc.2 = some n ∧ badItems (s.plane pl) rp n = []) ∧
    (∃ (s : State) (r : Requester) (tie : Bool) (g : Nat) (rg : Region), s.reaches r (rTBL_CMD .A) ∧ (tie = true → isMc r = true) ∧ s.flag (TBL_CMD_BUSY .A) = false ∧ s.anyWriter = true ∧ g < 16 ∧ (s.plane s.engine).region g = some rg ∧ (rg.logical ≤ s.tblLoc.1 ∨ rg.k ≤ s.tblLoc.2)) ∧
    (∃ (s : State) (r : Requester) (tie : Bool) (g : Nat) (rg : Region), s.reaches r (rTBL_CMD .A) ∧ (tie = true → isMc r = true) ∧ s.flag (TBL_CMD_BUSY .A) = false ∧ s.anyWriter = true ∧ g < 16 ∧ (s.plane s.engine).region g = some rg ∧ rg.state = .normal) ∧
    (∃ (s : State) (r : Requester) (tie : Bool) (g : Nat) (rg : Region), s.reaches r (rTBL_CMD .A) ∧ (tie = true → isMc r = true) ∧ s.flag (TBL_CMD_BUSY .A) = false ∧ s.anyWriter = true ∧ g < 16 ∧ (s.plane s.engine).region g = some rg ∧ rg.state ≠ .normal) ∧
    (∃ (s : State) (r : Requester) (tie : Bool) (g : Nat) (rg : Region), s.reaches r (rTBL_CMD .A) ∧ (tie = true → isMc r = true) ∧ s.flag (TBL_CMD_BUSY .A) = false ∧ s.anyWriter = true ∧ g < 16 ∧ (s.plane s.engine).region g = some rg ∧ ∃ a len vrf v6, s.lpmOperands = (a, len, vrf, v6) ∧ len ≤ famBits v6 ∧ lpmCopies (s.plane s.engine) vrf v6 len a ≠ []) ∧
    (∃ (s : State) (r : Requester) (tie : Bool) (pin : Bool) (g : Nat) (rg : Region), s.reaches r (rTBL_CMD .A) ∧ (tie = true → isMc r = true) ∧ s.flag (TBL_CMD_BUSY .A) = false ∧ s.anyWriter = true ∧ g < 16 ∧ (s.plane s.engine).region g = some rg ∧ ∃ a len vrf v6, s.lpmOperands = (a, len, vrf, v6) ∧ len ≤ famBits v6 ∧ ∃ s1, lpmCopies (s.plane s.engine) vrf v6 len a = [] ∧ s.lpmEach (fun p => lpmInsertPlane s.epoch s.clk p ⟨vrf, v6, len, maskAddr v6 len a, s.tblRes, stStatic pin⟩) = some s1) ∧
    (∃ (s : State) (r : Requester) (tie : Bool) (g : Nat) (rg : Region), s.reaches r (rTBL_CMD .A) ∧ (tie = true → isMc r = true) ∧ s.flag (TBL_CMD_BUSY .A) = false ∧ s.anyWriter = true ∧ g < 16 ∧ (s.plane s.engine).region g = some rg ∧ ∃ a len vrf v6, s.lpmOperands = (a, len, vrf, v6) ∧ len ≤ famBits v6 ∧ lpmCopies (s.plane s.engine) vrf v6 len a = []) ∧
    (∃ (s : State) (r : Requester) (tie : Bool) (g : Nat) (rg : Region), s.reaches r (rTBL_CMD .A) ∧ (tie = true → isMc r = true) ∧ s.flag (TBL_CMD_BUSY .A) = false ∧ s.anyWriter = true ∧ g < 16 ∧ (s.plane s.engine).region g = some rg ∧ ∃ a len vrf v6, s.lpmOperands = (a, len, vrf, v6) ∧ len ≤ famBits v6 ∧ ∃ s1, (lpmCopies (s.plane s.engine) vrf v6 len a).any (fun x => x.vrf == vrf && x.v6 == v6 && x.len == len && x.addr == maskAddr v6 len a && !stHas x.status stCHART) = true ∧ s.lpmEach (fun p => lpmKeep s.epoch s.clk p (fun x => !(x.vrf == vrf && x.v6 == v6 && x.len == len && x.addr == maskAddr v6 len a && !stHas x.status stCHART))) = some s1) ∧
    (∃ (s : State) (r : Requester) (tie : Bool) (g : Nat) (rg : Region), s.reaches r (rTBL_CMD .A) ∧ (tie = true → isMc r = true) ∧ s.flag (TBL_CMD_BUSY .A) = false ∧ s.anyWriter = true ∧ g < 16 ∧ (s.plane s.engine).region g = some rg ∧ ∃ a len vrf v6, s.lpmOperands = (a, len, vrf, v6) ∧ len ≤ famBits v6 ∧ ∃ s1 u x, s.lpmLookup s.engine vrf v6 a = (s1, some (u, x))) ∧
    (∃ (s : State) (r : Requester) (tie : Bool) (g : Nat) (rg : Region), s.reaches r (rTBL_CMD .A) ∧ (tie = true → isMc r = true) ∧ s.flag (TBL_CMD_BUSY .A) = false ∧ s.anyWriter = true ∧ g < 16 ∧ (s.plane s.engine).region g = some rg ∧ ∃ a len vrf v6, s.lpmOperands = (a, len, vrf, v6) ∧ len ≤ famBits v6 ∧ ∃ s1, s.lpmLookup s.engine vrf v6 a = (s1, none)) :=
  ⟨⟨wLpm, .mc, false, 0, ((wLpm).planeA.regions.headD (wRg false .normal false)), (by unfold State.reaches; decide +kernel), (by first | decide +kernel | rfl), (by first | decide +kernel | rfl), (by first | decide +kernel | rfl), (by first | decide +kernel | rfl), (by first | decide +kernel | rfl), (by first | decide +kernel | rfl), (by first | decide +kernel | rfl), (by first | decide +kernel | rfl)⟩,
   ⟨wTn, .mc, false, 0, ((wTn).planeA.regions.headD (wRg false .normal false)), (by unfold State.reaches; decide +kernel), (by first | decide +kernel | rfl), (by first | decide +kernel | rfl), (by first | decide +kernel | rfl), (by first | decide +kernel | rfl), (by first | decide +kernel | rfl), (by first | decide +kernel | rfl), (by first | decide +kernel | rfl), (by first | decide +kernel | rfl), (by first | decide +kernel | rfl), (by first | decide +kernel | rfl)⟩,
   ⟨(let s := wTab (wRg false .normal false) []; {s with planeA := {s.planeA with badSlots := [0]}}), .mc, false, .A, 0, (((let s := wTab (wRg false .normal false) []; {s with planeA := {s.planeA with badSlots := [0]}})).planeA.regions.headD (wRg false .normal false)), (by unfold State.reaches; decide +kernel), (by first | decide +kernel | rfl), (by first | decide +kernel | rfl), (by first | decide +kernel | rfl), (by first | decide +kernel | rfl), (by first | decide +kernel | rfl), (Option.get ((((let s := wTab (wRg false .normal false) []; {s with planeA := {s.planeA with badSlots := [0]}}) : State).plane (.A : Plane)).region (0 : Nat)) (by decide +kernel)), (Option.get ((Option.get ((((let s := wTab (wRg false .normal false) []; {s with planeA := {s.planeA with badSlots := [0]}}) : State).plane (.A : Plane)).region (0 : Nat)) (by decide +kernel)).slotAt ((let s := wTab (wRg false .normal false) []; {s with planeA := {s.planeA with badSlots := [0]}}) : State).tblLoc.1 ((let s := wTab (wRg false .normal false) []; {s with planeA := {s.planeA with badSlots := [0]}}) : State).tblLoc.2) (by decide +kernel)), (someOf (by decide +kernel)), (by first | decide +kernel | rfl), (by first | decide +kernel | rfl), (someOf (by decide +kernel)), (by first | decide +kernel | rfl)⟩,
   ⟨wLpm, .mc, false, .A, 0, ((wLpm).planeA.regions.headD (wRg false .normal false)), (by unfold State.reaches; decide +kernel), (by first | decide +kernel | rfl), (by first | decide +kernel | rfl), (by first | decide +kernel | rfl), (by first | decide +kernel | rfl), (by first | decide +kernel | rfl), (Option.get (((wLpm : State).plane (.A : Plane)).region (0 : Nat)) (by decide +kernel)), (Option.get ((Option.get (((wLpm : State).plane (.A : Plane)).region (0 : Nat)) (by decide +kernel)).slotAt (wLpm : State).tblLoc.1 (wLpm : State).tblLoc.2) (by decide +kernel)), (someOf (by decide +kernel)), (by first | decide +kernel | rfl), (by first | decide +kernel | rfl), (someOf (by decide +kernel)), (by first | decide +kernel | rfl)⟩,
   ⟨(wPut (wTab (wRg false .normal false) []) [(TBL_CMD_LOC_BUCKET .A, 70)]), .mc, false, 0, (((wPut (wTab (wRg false .normal false) []) [(TBL_CMD_LOC_BUCKET .A, 70)])).planeA.regions.headD (wRg false .normal false)), (by unfold State.reaches; decide +kernel), (by first | decide +kernel | rfl), (by first | decide +kernel | rfl), (by first | decide +kernel | rfl), (by first | decide +kernel | rfl), (by first | decide +kernel | rfl), (by first | decide +kernel | rfl)⟩,
   ⟨wTn, .mc, false, 0, ((wTn).planeA.regions.headD (wRg false .normal false)), (by unfold State.reaches; decide +kernel), (by first | decide +kernel | rfl), (by first | decide +kernel | rfl), (by first | decide +kernel | rfl), (by first | decide +kernel | rfl), (by first | decide +kernel | rfl), (by first | decide +kernel | rfl)⟩,
   ⟨(wTab (wRg false .stalled true) []), .mc, false, 0, (((wTab (wRg false .stalled true) [])).planeA.regions.headD (wRg false .normal false)), (by unfold State.reaches; decide +kernel), (by first | decide +kernel | rfl), (by first | decide +kernel | rfl), (by first | decide +kernel | rfl), (by first | decide +kernel | rfl), (by first | decide +kernel | rfl), (by first | decide +kernel | rfl)⟩,
   ⟨wLpm, .mc, false, 0, ((wLpm).planeA.regions.headD (wRg false .normal false)), (by unfold State.reaches; decide +kernel), (by first | decide +kernel | rfl), (by first | decide +kernel | rfl), (by first | decide +kernel | rfl), (by first | decide +kernel | rfl), (by first | decide +kernel | rfl), ((wLpm : State).lpmOperands).1, ((wLpm : State).lpmOperands).2.1, ((wLpm : State).lpmOperands).2.2.1, ((wLpm : State).lpmOperands).2.2.2, rfl, (by first | decide +kernel | rfl), (by first | decide +kernel | rfl)⟩,
   ⟨wTn, .mc, false, false, 0, ((wTn).planeA.regions.headD (wRg false .normal false)), (by unfold State.reaches; decide +kernel), (by first | decide +kernel | rfl), (by first | decide +kernel | rfl), (by first | decide +kernel | rfl), (by first | decide +kernel | rfl), (by first | decide +kernel | rfl), ((wTn : State).lpmOperands).1, ((wTn : State).lpmOperands).2.1, ((wTn : State).lpmOperands).2.2.1, ((wTn : State).lpmOperands).2.2.2, rfl, (by first | decide +kernel | rfl), (Option.get ((wTn : State).lpmEach (fun p => lpmInsertPlane (wTn : State).epoch (wTn : State).clk p ⟨((wTn : State).lpmOperands).2.2.1, ((wTn : State).lpmOperands).2.2.2, ((wTn : State).lpmOperands).2.1, maskAddr ((wTn : State).lpmOperands).2.2.2 ((wTn : State).lpmOperands).2.1 ((wTn : State).lpmOperands).1, (wTn : State).tblRes, stStatic (false : Bool)⟩)) (by decide +kernel)), (by first | decide +kernel | rfl), (someOf (by decide +kernel))⟩,
   ⟨wTn, .mc, false, 0, ((wTn).planeA.regions.headD (wRg false .normal false)), (by unfold State.reaches; decide +kernel), (by first | decide +kernel | rfl), (by first | decide +kernel | rfl), (by first | decide +kernel | rfl), (by first | decide +kernel | rfl), (by first | decide +kernel | rfl), ((wTn : State).lpmOperands).1, ((wTn : State).lpmOperands).2.1, ((wTn : State).lpmOperands).2.2.1, ((wTn : State).lpmOperands).2.2.2, rfl, (by first | decide +kernel | rfl), (by first | decide +kernel | rfl)⟩,
   ⟨wLpm, .mc, false, 0, ((wLpm).planeA.regions.headD (wRg false .normal false)), (by unfold State.reaches; decide +kernel), (by first | decide +kernel | rfl), (by first | decide +kernel | rfl), (by first | decide +kernel | rfl), (by first | decide +kernel | rfl), (by first | decide +kernel | rfl), ((wLpm : State).lpmOperands).1, ((wLpm : State).lpmOperands).2.1, ((wLpm : State).lpmOperands).2.2.1, ((wLpm : State).lpmOperands).2.2.2, rfl, (by first | decide +kernel | rfl), (Option.get ((wLpm : State).lpmEach (fun p => lpmKeep (wLpm : State).epoch (wLpm : State).clk p (fun x => !(x.vrf == ((wLpm : State).lpmOperands).2.2.1 && x.v6 == ((wLpm : State).lpmOperands).2.2.2 && x.len == ((wLpm : State).lpmOperands).2.1 && x.addr == maskAddr ((wLpm : State).lpmOperands).2.2.2 ((wLpm : State).lpmOperands).2.1 ((wLpm : State).lpmOperands).1 && !stHas x.status stCHART)))) (by decide +kernel)), (by first | decide +kernel | rfl), (someOf (by decide +kernel))⟩,
   ⟨wLpm, .mc, false, 0, ((wLpm).planeA.regions.headD (wRg false .normal false)), (by unfold State.reaches; decide +kernel), (by first | decide +kernel | rfl), (by first | decide +kernel | rfl), (by first | decide +kernel | rfl), (by first | decide +kernel | rfl), (by first | decide +kernel | rfl), ((wLpm : State).lpmOperands).1, ((wLpm : State).lpmOperands).2.1, ((wLpm : State).lpmOperands).2.2.1, ((wLpm : State).lpmOperands).2.2.2, rfl, (by first | decide +kernel | rfl), ((wLpm : State).lpmLookup (wLpm : State).engine ((wLpm : State).lpmOperands).2.2.1 ((wLpm : State).lpmOperands).2.2.2 ((wLpm : State).lpmOperands).1).1, ((Option.get (((wLpm : State).lpmLookup (wLpm : State).engine ((wLpm : State).lpmOperands).2.2.1 ((wLpm : State).lpmOperands).2.2.2 ((wLpm : State).lpmOperands).1).2) (by decide +kernel))).1, ((Option.get (((wLpm : State).lpmLookup (wLpm : State).engine ((wLpm : State).lpmOperands).2.2.1 ((wLpm : State).lpmOperands).2.2.2 ((wLpm : State).lpmOperands).1).2) (by decide +kernel))).2, (pairOf (by decide +kernel))⟩,
   ⟨wTn, .mc, false, 0, ((wTn).planeA.regions.headD (wRg false .normal false)), (by unfold State.reaches; decide +kernel), (by first | decide +kernel | rfl), (by first | decide +kernel | rfl), (by first | decide +kernel | rfl), (by first | decide +kernel | rfl), (by first | decide +kernel | rfl), ((wTn : State).lpmOperands).1, ((wTn : State).lpmOperands).2.1, ((wTn : State).lpmOperands).2.2.1, ((wTn : State).lpmOperands).2.2.2, rfl, (by first | decide +kernel | rfl), ((wTn : State).lpmLookup (wTn : State).engine ((wTn : State).lpmOperands).2.2.1 ((wTn : State).lpmOperands).2.2.2 ((wTn : State).lpmOperands).1).1, (pairNone (by decide +kernel))⟩⟩

theorem test_wit_TablesWorkOnTheirOwn :
    (∃ (s : State) (g : Nat) (rg : Region), g ≠ 16 ∧ (s.plane s.engine).region g = some rg ∧ rg.state = .dual ∧ ∃ s1, s.walkFromBucket g (rg.logical - rg.walk) rg.walk = (s1, none)) ∧
    (∃ (s : State) (g : Nat) (rg : Region), g ≠ 16 ∧ (s.plane s.engine).region g = some rg ∧ rg.state = .dual ∧ ∃ s1 b, s.walkFromBucket g (rg.logical - rg.walk) rg.walk = (s1, some b)) ∧
    (∃ (s : State) (g : Nat) (rg : Region), g ≠ 16 ∧ (s.plane s.engine).region g = some rg ∧ rg.state ≠ .dual) ∧
    (∃ (s : State), ∃ ev s1 ri r1, s.nextLearn = some (ev, s1) ∧ (s1.plane s1.engine).learnRegion = some ri ∧ (s1.plane s1.engine).region ri = some r1 ∧ s1.anyWriter = true ∧ bestOf s1.epoch (holders r1 (s1.view r1) ev.key) = none ∧ s1.emRoom ev.port = false) ∧
    (∃ (s : State), ∃ ev s1 ri r1, s.nextLearn = some (ev, s1) ∧ (s1.plane s1.engine).learnRegion = some ri ∧ (s1.plane s1.engine).region ri = some r1 ∧ s1.anyWriter = true ∧ bestOf s1.epoch (holders r1 (s1.view r1) ev.key) = none ∧ ∃ s2 x, s1.emRoom ev.port = true ∧ s1.place ri ev.key (learnResult ev.port) (stVALID + stLEARNED) = (s2, some x)) ∧
    (∃ (s : State), ∃ ev s1 ri r1, s.nextLearn = some (ev, s1) ∧ (s1.plane s1.engine).learnRegion = some ri ∧ (s1.plane s1.engine).region ri = some r1 ∧ s1.anyWriter = true ∧ bestOf s1.epoch (holders r1 (s1.view r1) ev.key) = none ∧ ∃ s2, s1.emRoom ev.port = true ∧ s1.place ri ev.key (learnResult ev.port) (stVALID + stLEARNED) = (s2, none)) ∧
    (∃ (s : State), ∃ ri r1, s.fld (TBL_LEARN_CTL_AGE_S s.lead) ≠ 0 ∧ (s.plane s.engine).learnRegion = some ri ∧ (s.plane s.engine).region ri = some r1 ∧ s.anyWriter = true ∧ s.learnedOf r1 = []) ∧
    (∃ (s : State), ∃ ri r1 b e x, s.fld (TBL_LEARN_CTL_AGE_S s.lead) ≠ 0 ∧ (s.plane s.engine).learnRegion = some ri ∧ (s.plane s.engine).region ri = some r1 ∧ s.anyWriter = true ∧ s.learnedOf r1 = [(b, e, x)] ∧ stHas x.status stLOCK = false) ∧
    (∃ (s : State), s.fld (TBL_LEARN_CTL_AGE_S s.lead) = 0) ∧
    (∃ (s : State) (pl : Plane) (a : Nat), ∃ table, table < 2 ∧ (s.plane pl).badItem table a = true ∧ ∃ x, s.goodSource pl table a = some x) ∧
    (∃ (s : State) (pl : Plane) (a : Nat), ∃ table, table < 2 ∧ (s.plane pl).badItem table a = true ∧ s.goodSource pl table a = none) ∧
    (∃ (s : State) (pl : Plane), (s.plane pl).badSlots.contains ((s.plane pl).scrub % scrubItems) = false ∧ (s.plane pl).scrub % scrubItems < 131072) ∧
    (∃ (s : State) (pl : Plane) (g : Nat) (page : Nat), (s.plane pl).pageReads.contains (g, page) = false) ∧
    (∃ (s : State) (pl : Plane) (g : Nat) (page : Nat), ∃ s1 s2 fr, (s.plane pl).pageReads.contains (g, page) = true ∧ s1 = s.setPlane pl { s.plane pl with pageReads := (s.plane pl).pageReads.filter (fun e => decide (e ≠ (g, page))), parked := (s.plane pl).parked.map (fun p => { p with pages := p.pages.filter (fun e => decide (e ≠ (g, page))) }) } ∧ s1.takeFrame pl g = (s2, some fr)) :=
  ⟨⟨(wTab (wRg false .dual false) [(3,wSl (stStatic false))]), 0, (((wTab (wRg false .dual false) [(3,wSl (stStatic false))])).planeA.regions.headD (wRg false .normal false)), (by first | decide +kernel | rfl), (by first | decide +kernel | rfl), (by first | decide +kernel | rfl), (((wTab (wRg false .dual false) [(3,wSl (stStatic false))]) : State).walkFromBucket (0 : Nat) (((((wTab (wRg false .dual false) [(3,wSl (stStatic false))])).planeA.regions.headD (wRg false .normal false)) : Region).logical - ((((wTab (wRg false .dual false) [(3,wSl (stStatic false))])).planeA.regions.headD (wRg false .normal false)) : Region).walk) ((((wTab (wRg false .dual false) [(3,wSl (stStatic false))])).planeA.regions.headD (wRg false .normal false)) : Region).walk).1, (pairNone (by decide +kernel))⟩,
   ⟨({wTab (wRg false .dual false) [(3,wSl (stStatic false))] with planeA := {(wTab (wRg false .dual false) []).planeA with exact := (List.range 256).map (fun n => (n, ⟨7000000 + n, 3, stStatic false⟩)) }}), 0, ((({wTab (wRg false .dual false) [(3,wSl (stStatic false))] with planeA := {(wTab (wRg false .dual false) []).planeA with exact := (List.range 256).map (fun n => (n, ⟨7000000 + n, 3, stStatic false⟩)) }})).planeA.regions.headD (wRg false .normal false)), (by first | decide +kernel | rfl), (by first | decide +kernel | rfl), (by first | decide +kernel | rfl), ((({wTab (wRg false .dual false) [(3,wSl (stStatic false))] with planeA := {(wTab (wRg false .dual false) []).planeA with exact := (List.range 256).map (fun n => (n, ⟨7000000 + n, 3, stStatic false⟩)) }}) : State).walkFromBucket (0 : Nat) ((((({wTab (wRg false .dual false) [(3,wSl (stStatic false))] with planeA := {(wTab (wRg false .dual false) []).planeA with exact := (List.range 256).map (fun n => (n, ⟨7000000 + n, 3, stStatic false⟩)) }})).planeA.regions.headD (wRg false .normal false)) : Region).logical - (((({wTab (wRg false .dual false) [(3,wSl (stStatic false))] with planeA := {(wTab (wRg false .dual false) []).planeA with exact := (List.range 256).map (fun n => (n, ⟨7000000 + n, 3, stStatic false⟩)) }})).planeA.regions.headD (wRg false .normal false)) : Region).walk) (((({wTab (wRg false .dual false) [(3,wSl (stStatic false))] with planeA := {(wTab (wRg false .dual false) []).planeA with exact := (List.range 256).map (fun n => (n, ⟨7000000 + n, 3, stStatic false⟩)) }})).planeA.regions.headD (wRg false .normal false)) : Region).walk).1, (Option.get (((({wTab (wRg false .dual false) [(3,wSl (stStatic false))] with planeA := {(wTab (wRg false .dual false) []).planeA with exact := (List.range 256).map (fun n => (n, ⟨7000000 + n, 3, stStatic false⟩)) }}) : State).walkFromBucket (0 : Nat) ((((({wTab (wRg false .dual false) [(3,wSl (stStatic false))] with planeA := {(wTab (wRg false .dual false) []).planeA with exact := (List.range 256).map (fun n => (n, ⟨7000000 + n, 3, stStatic false⟩)) }})).planeA.regions.headD (wRg false .normal false)) : Region).logical - (((({wTab (wRg false .dual false) [(3,wSl (stStatic false))] with planeA := {(wTab (wRg false .dual false) []).planeA with exact := (List.range 256).map (fun n => (n, ⟨7000000 + n, 3, stStatic false⟩)) }})).planeA.regions.headD (wRg false .normal false)) : Region).walk) (((({wTab (wRg false .dual false) [(3,wSl (stStatic false))] with planeA := {(wTab (wRg false .dual false) []).planeA with exact := (List.range 256).map (fun n => (n, ⟨7000000 + n, 3, stStatic false⟩)) }})).planeA.regions.headD (wRg false .normal false)) : Region).walk).2) (by decide +kernel)), (pairOf (by decide +kernel))⟩,
   ⟨(wTab (wRg false .normal false) []), 0, (((wTab (wRg false .normal false) [])).planeA.regions.headD (wRg false .normal false)), (by first | decide +kernel | rfl), (by first | decide +kernel | rfl), (by first | decide +kernel | rfl)⟩,
   ⟨({ wTab (wRg false .normal false) [] with planeA := { (wTab (wRg false .normal false) []).planeA with learnQ := [⟨0, 88, 0⟩] }, clk := 100000, active := wImg [(0x0F, 0x100, [(17, [1, 0, 1])])] }), ((Option.get ((({ wTab (wRg false .normal false) [] with planeA := { (wTab (wRg false .normal false) []).planeA with learnQ := [⟨0, 88, 0⟩] }, clk := 100000, active := wImg [(0x0F, 0x100, [(17, [1, 0, 1])])] }) : State).nextLearn) (by decide +kernel))).1, ((Option.get ((({ wTab (wRg false .normal false) [] with planeA := { (wTab (wRg false .normal false) []).planeA with learnQ := [⟨0, 88, 0⟩] }, clk := 100000, active := wImg [(0x0F, 0x100, [(17, [1, 0, 1])])] }) : State).nextLearn) (by decide +kernel))).2, (Option.get ((((Option.get ((({ wTab (wRg false .normal false) [] with planeA := { (wTab (wRg false .normal false) []).planeA with learnQ := [⟨0, 88, 0⟩] }, clk := 100000, active := wImg [(0x0F, 0x100, [(17, [1, 0, 1])])] }) : State).nextLearn) (by decide +kernel))).2.plane ((Option.get ((({ wTab (wRg false .normal false) [] with planeA := { (wTab (wRg false .normal false) []).planeA with learnQ := [⟨0, 88, 0⟩] }, clk := 100000, active := wImg [(0x0F, 0x100, [(17, [1, 0, 1])])] }) : State).nextLearn) (by decide +kernel))).2.engine).learnRegion) (by decide +kernel)), (Option.get ((((Option.get ((({ wTab (wRg false .normal false) [] with planeA := { (wTab (wRg false .normal false) []).planeA with learnQ := [⟨0, 88, 0⟩] }, clk := 100000, active := wImg [(0x0F, 0x100, [(17, [1, 0, 1])])] }) : State).nextLearn) (by decide +kernel))).2.plane ((Option.get ((({ wTab (wRg false .normal false) [] with planeA := { (wTab (wRg false .normal false) []).planeA with learnQ := [⟨0, 88, 0⟩] }, clk := 100000, active := wImg [(0x0F, 0x100, [(17, [1, 0, 1])])] }) : State).nextLearn) (by decide +kernel))).2.engine).region (Option.get ((((Option.get ((({ wTab (wRg false .normal false) [] with planeA := { (wTab (wRg false .normal false) []).planeA with learnQ := [⟨0, 88, 0⟩] }, clk := 100000, active := wImg [(0x0F, 0x100, [(17, [1, 0, 1])])] }) : State).nextLearn) (by decide +kernel))).2.plane ((Option.get ((({ wTab (wRg false .normal false) [] with planeA := { (wTab (wRg false .normal false) []).planeA with learnQ := [⟨0, 88, 0⟩] }, clk := 100000, active := wImg [(0x0F, 0x100, [(17, [1, 0, 1])])] }) : State).nextLearn) (by decide +kernel))).2.engine).learnRegion) (by decide +kernel))) (by decide +kernel)), (someOf (by decide +kernel)), (someOf (by decide +kernel)), (someOf (by decide +kernel)), (by first | decide +kernel | rfl), (by first | decide +kernel | rfl), (by first | decide +kernel | rfl)⟩,
   ⟨({ wTab (wRg false .normal false) [] with planeA := { (wTab (wRg false .normal false) []).planeA with learnQ := [⟨0, 3, 0⟩] }, clk := 100000 }), ((Option.get ((({ wTab (wRg false .normal false) [] with planeA := { (wTab (wRg false .normal false) []).planeA with learnQ := [⟨0, 3, 0⟩] }, clk := 100000 }) : State).nextLearn) (by decide +kernel))).1, ((Option.get ((({ wTab (wRg false .normal false) [] with planeA := { (wTab (wRg false .normal false) []).planeA with learnQ := [⟨0, 3, 0⟩] }, clk := 100000 }) : State).nextLearn) (by decide +kernel))).2, (Option.get ((((Option.get ((({ wTab (wRg false .normal false) [] with planeA := { (wTab (wRg false .normal false) []).planeA with learnQ := [⟨0, 3, 0⟩] }, clk := 100000 }) : State).nextLearn) (by decide +kernel))).2.plane ((Option.get ((({ wTab (wRg false .normal false) [] with planeA := { (wTab (wRg false .normal false) []).planeA with learnQ := [⟨0, 3, 0⟩] }, clk := 100000 }) : State).nextLearn) (by decide +kernel))).2.engine).learnRegion) (by decide +kernel)), (Option.get ((((Option.get ((({ wTab (wRg false .normal false) [] with planeA := { (wTab (wRg false .normal false) []).planeA with learnQ := [⟨0, 3, 0⟩] }, clk := 100000 }) : State).nextLearn) (by decide +kernel))).2.plane ((Option.get ((({ wTab (wRg false .normal false) [] with planeA := { (wTab (wRg false .normal false) []).planeA with learnQ := [⟨0, 3, 0⟩] }, clk := 100000 }) : State).nextLearn) (by decide +kernel))).2.engine).region (Option.get ((((Option.get ((({ wTab (wRg false .normal false) [] with planeA := { (wTab (wRg false .normal false) []).planeA with learnQ := [⟨0, 3, 0⟩] }, clk := 100000 }) : State).nextLearn) (by decide +kernel))).2.plane ((Option.get ((({ wTab (wRg false .normal false) [] with planeA := { (wTab (wRg false .normal false) []).planeA with learnQ := [⟨0, 3, 0⟩] }, clk := 100000 }) : State).nextLearn) (by decide +kernel))).2.engine).learnRegion) (by decide +kernel))) (by decide +kernel)), (someOf (by decide +kernel)), (someOf (by decide +kernel)), (someOf (by decide +kernel)), (by first | decide +kernel | rfl), (by first | decide +kernel | rfl), (((Option.get ((({ wTab (wRg false .normal false) [] with planeA := { (wTab (wRg false .normal false) []).planeA with learnQ := [⟨0, 3, 0⟩] }, clk := 100000 }) : State).nextLearn) (by decide +kernel))).2.place (Option.get ((((Option.get ((({ wTab (wRg false .normal false) [] with planeA := { (wTab (wRg false .normal false) []).planeA with learnQ := [⟨0, 3, 0⟩] }, clk := 100000 }) : State).nextLearn) (by decide +kernel))).2.plane ((Option.get ((({ wTab (wRg false .normal false) [] with planeA := { (wTab (wRg false .normal false) []).planeA with learnQ := [⟨0, 3, 0⟩] }, clk := 100000 }) : State).nextLearn) (by decide +kernel))).2.engine).learnRegion) (by decide +kernel)) ((Option.get ((({ wTab (wRg false .normal false) [] with planeA := { (wTab (wRg false .normal false) []).planeA with learnQ := [⟨0, 3, 0⟩] }, clk := 100000 }) : State).nextLearn) (by decide +kernel))).1.key (learnResult ((Option.get ((({ wTab (wRg false .normal false) [] with planeA := { (wTab (wRg false .normal false) []).planeA with learnQ := [⟨0, 3, 0⟩] }, clk := 100000 }) : State).nextLearn) (by decide +kernel))).1.port) (stVALID + stLEARNED)).1, (Option.get ((((Option.get ((({ wTab (wRg false .normal false) [] with planeA := { (wTab (wRg false .normal false) []).planeA with learnQ := [⟨0, 3, 0⟩] }, clk := 100000 }) : State).nextLearn) (by decide +kernel))).2.place (Option.get ((((Option.get ((({ wTab (wRg false .normal false) [] with planeA := { (wTab (wRg false .normal false) []).planeA with learnQ := [⟨0, 3, 0⟩] }, clk := 100000 }) : State).nextLearn) (by decide +kernel))).2.plane ((Option.get ((({ wTab (wRg false .normal false) [] with planeA := { (wTab (wRg false .normal false) []).planeA with learnQ := [⟨0, 3, 0⟩] }, clk := 100000 }) : State).nextLearn) (by decide +kernel))).2.engine).learnRegion) (by decide +kernel)) ((Option.get ((({ wTab (wRg false .normal false) [] with planeA := { (wTab (wRg false .normal false) []).planeA with learnQ := [⟨0, 3, 0⟩] }, clk := 100000 }) : State).nextLearn) (by decide +kernel))).1.key (learnResult ((Option.get ((({ wTab (wRg false .normal false) [] with planeA := { (wTab (wRg false .normal false) []).planeA with learnQ := [⟨0, 3, 0⟩] }, clk := 100000 }) : State).nextLearn) (by decide +kernel))).1.port) (stVALID + stLEARNED)).2) (by decide +kernel)), (by first | decide +kernel | rfl), (pairOf (by decide +kernel))⟩,
   ⟨({ (wTab (wRg false .normal false) ((List.range 256).map (fun n => (n, ⟨7000000, 3, stStatic false⟩)))) with planeA := { ((wTab (wRg false .normal false) ((List.range 256).map (fun n => (n, ⟨7000000, 3, stStatic false⟩))))).planeA with learnQ := [⟨0, 3, 0⟩] }, clk := 100000 }), ((Option.get ((({ (wTab (wRg false .normal false) ((List.range 256).map (fun n => (n, ⟨7000000, 3, stStatic false⟩)))) with planeA := { ((wTab (wRg false .normal false) ((List.range 256).map (fun n => (n, ⟨7000000, 3, stStatic false⟩))))).planeA with learnQ := [⟨0, 3, 0⟩] }, clk := 100000 }) : State).nextLearn) (by decide +kernel))).1, ((Option.get ((({ (wTab (wRg false .normal false) ((List.range 256).map (fun n => (n, ⟨7000000, 3, stStatic false⟩)))) with planeA := { ((wTab (wRg false .normal false) ((List.range 256).map (fun n => (n, ⟨7000000, 3, stStatic false⟩))))).planeA with learnQ := [⟨0, 3, 0⟩] }, clk := 100000 }) : State).nextLearn) (by decide +kernel))).2, (Option.get ((((Option.get ((({ (wTab (wRg false .normal false) ((List.range 256).map (fun n => (n, ⟨7000000, 3, stStatic false⟩)))) with planeA := { ((wTab (wRg false .normal false) ((List.range 256).map (fun n => (n, ⟨7000000, 3, stStatic false⟩))))).planeA with learnQ := [⟨0, 3, 0⟩] }, clk := 100000 }) : State).nextLearn) (by decide +kernel))).2.plane ((Option.get ((({ (wTab (wRg false .normal false) ((List.range 256).map (fun n => (n, ⟨7000000, 3, stStatic false⟩)))) with planeA := { ((wTab (wRg false .normal false) ((List.range 256).map (fun n => (n, ⟨7000000, 3, stStatic false⟩))))).planeA with learnQ := [⟨0, 3, 0⟩] }, clk := 100000 }) : State).nextLearn) (by decide +kernel))).2.engine).learnRegion) (by decide +kernel)), (Option.get ((((Option.get ((({ (wTab (wRg false .normal false) ((List.range 256).map (fun n => (n, ⟨7000000, 3, stStatic false⟩)))) with planeA := { ((wTab (wRg false .normal false) ((List.range 256).map (fun n => (n, ⟨7000000, 3, stStatic false⟩))))).planeA with learnQ := [⟨0, 3, 0⟩] }, clk := 100000 }) : State).nextLearn) (by decide +kernel))).2.plane ((Option.get ((({ (wTab (wRg false .normal false) ((List.range 256).map (fun n => (n, ⟨7000000, 3, stStatic false⟩)))) with planeA := { ((wTab (wRg false .normal false) ((List.range 256).map (fun n => (n, ⟨7000000, 3, stStatic false⟩))))).planeA with learnQ := [⟨0, 3, 0⟩] }, clk := 100000 }) : State).nextLearn) (by decide +kernel))).2.engine).region (Option.get ((((Option.get ((({ (wTab (wRg false .normal false) ((List.range 256).map (fun n => (n, ⟨7000000, 3, stStatic false⟩)))) with planeA := { ((wTab (wRg false .normal false) ((List.range 256).map (fun n => (n, ⟨7000000, 3, stStatic false⟩))))).planeA with learnQ := [⟨0, 3, 0⟩] }, clk := 100000 }) : State).nextLearn) (by decide +kernel))).2.plane ((Option.get ((({ (wTab (wRg false .normal false) ((List.range 256).map (fun n => (n, ⟨7000000, 3, stStatic false⟩)))) with planeA := { ((wTab (wRg false .normal false) ((List.range 256).map (fun n => (n, ⟨7000000, 3, stStatic false⟩))))).planeA with learnQ := [⟨0, 3, 0⟩] }, clk := 100000 }) : State).nextLearn) (by decide +kernel))).2.engine).learnRegion) (by decide +kernel))) (by decide +kernel)), (someOf (by decide +kernel)), (someOf (by decide +kernel)), (someOf (by decide +kernel)), (by first | decide +kernel | rfl), (by first | decide +kernel | rfl), (((Option.get ((({ (wTab (wRg false .normal false) ((List.range 256).map (fun n => (n, ⟨7000000, 3, stStatic false⟩)))) with planeA := { ((wTab (wRg false .normal false) ((List.range 256).map (fun n => (n, ⟨7000000, 3, stStatic false⟩))))).planeA with learnQ := [⟨0, 3, 0⟩] }, clk := 100000 }) : State).nextLearn) (by decide +kernel))).2.place (Option.get ((((Option.get ((({ (wTab (wRg false .normal false) ((List.range 256).map (fun n => (n, ⟨7000000, 3, stStatic false⟩)))) with planeA := { ((wTab (wRg false .normal false) ((List.range 256).map (fun n => (n, ⟨7000000, 3, stStatic false⟩))))).planeA with learnQ := [⟨0, 3, 0⟩] }, clk := 100000 }) : State).nextLearn) (by decide +kernel))).2.plane ((Option.get ((({ (wTab (wRg false .normal false) ((List.range 256).map (fun n => (n, ⟨7000000, 3, stStatic false⟩)))) with planeA := { ((wTab (wRg false .normal false) ((List.range 256).map (fun n => (n, ⟨7000000, 3, stStatic false⟩))))).planeA with learnQ := [⟨0, 3, 0⟩] }, clk := 100000 }) : State).nextLearn) (by decide +kernel))).2.engine).learnRegion) (by decide +kernel)) ((Option.get ((({ (wTab (wRg false .normal false) ((List.range 256).map (fun n => (n, ⟨7000000, 3, stStatic false⟩)))) with planeA := { ((wTab (wRg false .normal false) ((List.range 256).map (fun n => (n, ⟨7000000, 3, stStatic false⟩))))).planeA with learnQ := [⟨0, 3, 0⟩] }, clk := 100000 }) : State).nextLearn) (by decide +kernel))).1.key (learnResult ((Option.get ((({ (wTab (wRg false .normal false) ((List.range 256).map (fun n => (n, ⟨7000000, 3, stStatic false⟩)))) with planeA := { ((wTab (wRg false .normal false) ((List.range 256).map (fun n => (n, ⟨7000000, 3, stStatic false⟩))))).planeA with learnQ := [⟨0, 3, 0⟩] }, clk := 100000 }) : State).nextLearn) (by decide +kernel))).1.port) (stVALID + stLEARNED)).1, (by first | decide +kernel | rfl), (pairNone (by decide +kernel))⟩,
   ⟨(wTab (wRg false .normal false) []), (Option.get ((((wTab (wRg false .normal false) []) : State).plane ((wTab (wRg false .normal false) []) : State).engine).learnRegion) (by decide +kernel)), (Option.get ((((wTab (wRg false .normal false) []) : State).plane ((wTab (wRg false .normal false) []) : State).engine).region (Option.get ((((wTab (wRg false .normal false) []) : State).plane ((wTab (wRg false .normal false) []) : State).engine).learnRegion) (by decide +kernel))) (by decide +kernel)), (by first | decide +kernel | rfl), (someOf (by decide +kernel)), (someOf (by decide +kernel)), (by first | decide +kernel | rfl), (by first | decide +kernel | rfl)⟩,
   ⟨(wTab (wRg false .normal false) [(wHome false, wSl (stVALID+stLEARNED))]), (Option.get ((((wTab (wRg false .normal false) [(wHome false, wSl (stVALID+stLEARNED))]) : State).plane ((wTab (wRg false .normal false) [(wHome false, wSl (stVALID+stLEARNED))]) : State).engine).learnRegion) (by decide +kernel)), (Option.get ((((wTab (wRg false .normal false) [(wHome false, wSl (stVALID+stLEARNED))]) : State).plane ((wTab (wRg false .normal false) [(wHome false, wSl (stVALID+stLEARNED))]) : State).engine).region (Option.get ((((wTab (wRg false .normal false) [(wHome false, wSl (stVALID+stLEARNED))]) : State).plane ((wTab (wRg false .normal false) [(wHome false, wSl (stVALID+stLEARNED))]) : State).engine).learnRegion) (by decide +kernel))) (by decide +kernel)), ((((wTab (wRg false .normal false) [(wHome false, wSl (stVALID+stLEARNED))]) : State).learnedOf (Option.get ((((wTab (wRg false .normal false) [(wHome false, wSl (stVALID+stLEARNED))]) : State).plane ((wTab (wRg false .normal false) [(wHome false, wSl (stVALID+stLEARNED))]) : State).engine).region (Option.get ((((wTab (wRg false .normal false) [(wHome false, wSl (stVALID+stLEARNED))]) : State).plane ((wTab (wRg false .normal false) [(wHome false, wSl (stVALID+stLEARNED))]) : State).engine).learnRegion) (by decide +kernel))) (by decide +kernel)))[0]'(by decide +kernel)).1, ((((wTab (wRg false .normal false) [(wHome false, wSl (stVALID+stLEARNED))]) : State).learnedOf (Option.get ((((wTab (wRg false .normal false) [(wHome false, wSl (stVALID+stLEARNED))]) : State).plane ((wTab (wRg false .normal false) [(wHome false, wSl (stVALID+stLEARNED))]) : State).engine).region (Option.get ((((wTab (wRg false .normal false) [(wHome false, wSl (stVALID+stLEARNED))]) : State).plane ((wTab (wRg false .normal false) [(wHome false, wSl (stVALID+stLEARNED))]) : State).engine).learnRegion) (by decide +kernel))) (by decide +kernel)))[0]'(by decide +kernel)).2.1, ((((wTab (wRg false .normal false) [(wHome false, wSl (stVALID+stLEARNED))]) : State).learnedOf (Option.get ((((wTab (wRg false .normal false) [(wHome false, wSl (stVALID+stLEARNED))]) : State).plane ((wTab (wRg false .normal false) [(wHome false, wSl (stVALID+stLEARNED))]) : State).engine).region (Option.get ((((wTab (wRg false .normal false) [(wHome false, wSl (stVALID+stLEARNED))]) : State).plane ((wTab (wRg false .normal false) [(wHome false, wSl (stVALID+stLEARNED))]) : State).engine).learnRegion) (by decide +kernel))) (by decide +kernel)))[0]'(by decide +kernel)).2.2, (by first | decide +kernel | rfl), (someOf (by decide +kernel)), (someOf (by decide +kernel)), (by first | decide +kernel | rfl), (oneOf (by decide +kernel)), (by first | decide +kernel | rfl)⟩,
   ⟨(wPut (wTab (wRg false .normal false) []) [(TBL_LEARN_CTL_AGE_S .A,0)]), (by first | decide +kernel | rfl)⟩,
   ⟨(let s := wTab (wRg false .normal false) []; {s with planeA := {s.planeA with badSlots := [0], scrub := 5, regions := [wRg true .normal false], pageReads := [(0,2)]}}), .A, 0, (0), (by first | decide +kernel | rfl), (by first | decide +kernel | rfl), (Option.get (((let s := wTab (wRg false .normal false) []; {s with planeA := {s.planeA with badSlots := [0], scrub := 5, regions := [wRg true .normal false], pageReads := [(0,2)]}}) : State).goodSource (.A : Plane) (0) (0 : Nat)) (by decide +kernel)), (someOf (by decide +kernel))⟩,
   ⟨(let s := wTab (wRg false .normal false) []; {s with planeA := {s.planeA with badSlots := [0], scrub := 0}, planeB := {s.planeB with badSlots := [0]}}), .A, 0, (0), (by first | decide +kernel | rfl), (by first | decide +kernel | rfl), (by first | decide +kernel | rfl)⟩,
   ⟨(wTab (wRg false .normal false) []), .A, (by first | decide +kernel | rfl), (by first | decide +kernel | rfl)⟩,
   ⟨(wTab (wRg false .normal false) []), .A, 0, 2, (by first | decide +kernel | rfl)⟩,
   ⟨(let s := wTab (wRg false .normal false) []; {s with planeA := {s.planeA with badSlots := [0], scrub := 5, regions := [wRg true .normal false], pageReads := [(0,2)]}}), .A, 0, 2, (((let s := wTab (wRg false .normal false) []; {s with planeA := {s.planeA with badSlots := [0], scrub := 5, regions := [wRg true .normal false], pageReads := [(0,2)]}}) : State).setPlane (.A : Plane) { ((let s := wTab (wRg false .normal false) []; {s with planeA := {s.planeA with badSlots := [0], scrub := 5, regions := [wRg true .normal false], pageReads := [(0,2)]}}) : State).plane (.A : Plane) with pageReads := (((let s := wTab (wRg false .normal false) []; {s with planeA := {s.planeA with badSlots := [0], scrub := 5, regions := [wRg true .normal false], pageReads := [(0,2)]}}) : State).plane (.A : Plane)).pageReads.filter (fun e => decide (e ≠ ((0 : Nat), (2 : Nat)))), parked := (((let s := wTab (wRg false .normal false) []; {s with planeA := {s.planeA with badSlots := [0], scrub := 5, regions := [wRg true .normal false], pageReads := [(0,2)]}}) : State).plane (.A : Plane)).parked.map (fun p => { p with pages := p.pages.filter (fun e => decide (e ≠ ((0 : Nat), (2 : Nat)))) }) }), ((((let s := wTab (wRg false .normal false) []; {s with planeA := {s.planeA with badSlots := [0], scrub := 5, regions := [wRg true .normal false], pageReads := [(0,2)]}}) : State).setPlane (.A : Plane) { ((let s := wTab (wRg false .normal false) []; {s with planeA := {s.planeA with badSlots := [0], scrub := 5, regions := [wRg true .normal false], pageReads := [(0,2)]}}) : State).plane (.A : Plane) with pageReads := (((let s := wTab (wRg false .normal false) []; {s with planeA := {s.planeA with badSlots := [0], scrub := 5, regions := [wRg true .normal false], pageReads := [(0,2)]}}) : State).plane (.A : Plane)).pageReads.filter (fun e => decide (e ≠ ((0 : Nat), (2 : Nat)))), parked := (((let s := wTab (wRg false .normal false) []; {s with planeA := {s.planeA with badSlots := [0], scrub := 5, regions := [wRg true .normal false], pageReads := [(0,2)]}}) : State).plane (.A : Plane)).parked.map (fun p => { p with pages := p.pages.filter (fun e => decide (e ≠ ((0 : Nat), (2 : Nat)))) }) }).takeFrame (.A : Plane) (0 : Nat)).1, (Option.get (((((let s := wTab (wRg false .normal false) []; {s with planeA := {s.planeA with badSlots := [0], scrub := 5, regions := [wRg true .normal false], pageReads := [(0,2)]}}) : State).setPlane (.A : Plane) { ((let s := wTab (wRg false .normal false) []; {s with planeA := {s.planeA with badSlots := [0], scrub := 5, regions := [wRg true .normal false], pageReads := [(0,2)]}}) : State).plane (.A : Plane) with pageReads := (((let s := wTab (wRg false .normal false) []; {s with planeA := {s.planeA with badSlots := [0], scrub := 5, regions := [wRg true .normal false], pageReads := [(0,2)]}}) : State).plane (.A : Plane)).pageReads.filter (fun e => decide (e ≠ ((0 : Nat), (2 : Nat)))), parked := (((let s := wTab (wRg false .normal false) []; {s with planeA := {s.planeA with badSlots := [0], scrub := 5, regions := [wRg true .normal false], pageReads := [(0,2)]}}) : State).plane (.A : Plane)).parked.map (fun p => { p with pages := p.pages.filter (fun e => decide (e ≠ ((0 : Nat), (2 : Nat)))) }) }).takeFrame (.A : Plane) (0 : Nat)).2) (by decide +kernel)), (by first | decide +kernel | rfl), rfl, (pairOf (by decide +kernel))⟩⟩

end W04

namespace W05
/-- Data of the witnesses below. -/
def wPools (st : Pool) : PlaneSt := { PlaneSt.empty with pools := [st, ⟨[], 0, 0, false, [], []⟩, ⟨[1], 4, 4, false, [], []⟩, ⟨[], 0, 0, false, [], []⟩] }
/-- Data of the witnesses below. -/
def wB0 : State := { wOn with planeA := wPools ⟨[4, 3], 5, 8, false, [2], [2, 1, 0]⟩ }
/-- Data of the witnesses below. -/
def wJob (port : Nat) (f : Frame) (ks : List CopyJob) (r : Option (Nat × Nat)) : ReplJob := ⟨f, ⟨7, port, RxMeta.plain, 0⟩ :: ks, r⟩
/-- Data of the witnesses below. -/
def wCpy (st : Pool) (j : ReplJob) (sp : Nat) (q : Nat) : State :=
  wPut { wOn with planeA := { wPools st with repl := [j], queues := [(q, [.placeholder 7 0 60])] } } [(BPM_POOL_CFG_COUNT .A 0, st.count), (BPM_POOL_CFG_COUNT .A 2, 4), (BPM_POOL_CFG_SPILL .A 0, sp)]
/-- Data of the witnesses below. -/
def wSt : Pool := ⟨[4, 3], 5, 8, false, [], []⟩
/-- Data of the witnesses below. -/
def wSt0 : Pool := ⟨[], 8, 8, false, [], []⟩
/-- Data of the witnesses below. -/
def wj1 : ReplJob := wJob 3 (wFrame 64) [] none
/-- Data of the witnesses below. -/
def wj2 : ReplJob := wJob 3 (wFrame 64) [⟨8, 4, RxMeta.plain, 0⟩] (some (0, 0))
/-- Data of the witnesses below. -/
def wj3 : ReplJob := wJob 3 (wFrame 9000) [] none
/-- Data of the witnesses below. -/
def wbig : State := wPut { wOn with planeA := { wPools wSt with repl := [wj3], queues := [(24, [.placeholder 7 0 60])] } } [(BPM_POOL_CFG_COUNT .A 0, 8)]
/-- Data of the witnesses below. -/
def wBk : Bucket := ⟨.A, 5, 300, none, false⟩
/-- Data of the witnesses below. -/
def wPin : State := wPut { wOn with dm := { DrumMajor.reset with buckets := [(9, wBk)] } } [(PLC_BUCKET_PIN 9, 1), (PLC_BUCKET_PIN_PLANE 9, 1), (FRE_RSQ_HOLD_HOLD_US .A, 100)]
/-- Data of the witnesses below. -/
def wctx (w : Bool) (held : Tab (List Frame)) : MigCtx := ⟨true, 3, 9, .A, 5, 0, 100, w, [(3, 2)], held⟩
/-- Data of the witnesses below. -/
def wMk (w : Bool) (held : Tab (List Frame)) : State :=
  { wPin with clk := 100000, dm := { wPin.dm with ctxs := wctx w held :: (DrumMajor.reset.ctxs.drop 1) }, planeA := { wPools wSt with queues := [(24, [.frame (wFrame 64)])] } }
/-- Data of the witnesses below. -/
def wReg : Region := ⟨false, true, 0, 0, 16, 64, 0, 0, 0, .normal, 0, [], 0⟩
/-- Data of the witnesses below. -/
def wLeg : Frame := { wFrame 64 with legacy := true, bytes := 1 :: List.replicate 63 0 }
/-- Data of the witnesses below. -/
def wj4 : ReplJob := wJob 33 wLeg [] none
/-- Data of the witnesses below. -/
def wXl : State := wPut { wOn with active := wImg [(0x0D, 64, [])], planeA := { wPools wSt with repl := [wj4], regions := [wReg], tagMap := [(0, 0)], queues := [(264, [.placeholder 7 0 60])] } } [(BPM_POOL_CFG_COUNT .A 0, 8), (MEM_STATUS_READY, 1)]

theorem test_wit_BuffersReturnAndCopiesAreWritten :
    (∃ (s : State) (pl : Plane) (pool : Nat), pool < (s.plane pl).pools.length) ∧
    (∃ (s : State) (pl : Plane), (s.plane pl).repl = []) ∧
    (∃ (s : State) (pl : Plane) (j : ReplJob) (js : List ReplJob) (k : CopyJob) (ks : List CopyJob) (s0 : State), (s.plane pl).repl = j :: js ∧ j.todo = k :: ks ∧ j.retry = none ∧ s.copyWaits pl j.frame k = (s0, true)) ∧
    (∃ (s : State) (pl : Plane) (p : Nat) (j : ReplJob) (js : List ReplJob) (k : CopyJob) (ks : List CopyJob) (s0 : State), (s.plane pl).repl = j :: js ∧ j.todo = k :: ks ∧ j.retry = none ∧ s.copyWaits pl j.frame k = (s0, false) ∧ s0.fitPool pl j.frame.bytes.length = some p) ∧
    (∃ (s : State) (pl : Plane) (j : ReplJob) (js : List ReplJob) (k : CopyJob) (ks : List CopyJob), (s.plane pl).repl = j :: js ∧ j.todo = k :: ks ∧ canBound j.frame k.port = false) ∧
    (∃ (s : State) (pl : Plane) (p : Nat) (j : ReplJob) (js : List ReplJob) (k : CopyJob) (ks : List CopyJob), (s.plane pl).repl = j :: js ∧ j.todo = k :: ks ∧ j.retry = none ∧ s.copyWaits pl j.frame k = (s, false) ∧ s.fitPool pl j.frame.bytes.length = some p ∧ ∃ s1 b, s.popBuf pl p (j.frame.stream.any s.crit.contains) = (s1, some b) ∧ canBound j.frame k.port = false) ∧
    (∃ (s : State) (pl : Plane) (p : Nat) (j : ReplJob) (js : List ReplJob) (k : CopyJob) (ks : List CopyJob), (s.plane pl).repl = j :: js ∧ j.todo = k :: ks ∧ j.retry = none ∧ s.copyWaits pl j.frame k = (s, false) ∧ s.fitPool pl j.frame.bytes.length = some p ∧ ∃ s1 q, s.popBuf pl p (j.frame.stream.any s.crit.contains) = (s1, none) ∧ s1.flag (BPM_POOL_CFG_SPILL pl p) = true ∧ s1.nextPool pl p = some q) ∧
    (∃ (s : State) (pl : Plane) (p : Nat) (j : ReplJob) (js : List ReplJob) (k : CopyJob) (ks : List CopyJob), (s.plane pl).repl = j :: js ∧ j.todo = k :: ks ∧ j.retry = none ∧ s.copyWaits pl j.frame k = (s, false) ∧ s.fitPool pl j.frame.bytes.length = some p ∧ ∃ s1, s.popBuf pl p (j.frame.stream.any s.crit.contains) = (s1, none) ∧ (s1.flag (BPM_POOL_CFG_SPILL pl p) = false ∨ s1.nextPool pl p = none)) ∧
    (∃ (s : State) (pl : Plane) (j : ReplJob) (js : List ReplJob) (k : CopyJob) (ks : List CopyJob), (s.plane pl).repl = j :: js ∧ j.todo = k :: ks ∧ j.retry = none ∧ s.copyWaits pl j.frame k = (s, false) ∧ s.fitPool pl j.frame.bytes.length = none) ∧
    (∃ (s : State) (pl : Plane) (p : Nat) (j : ReplJob) (js : List ReplJob) (k : CopyJob) (ks : List CopyJob), (s.plane pl).repl = j :: js ∧ j.todo = k :: ks ∧ ∃ start, p < 4 ∧ j.retry = some (start, p) ∧ ∃ s1 b, s.popBuf pl p (j.frame.stream.any s.crit.contains) = (s1, some b)) ∧
    (∃ (s : State) (pl : Plane) (p : Nat) (j : ReplJob) (js : List ReplJob) (k : CopyJob) (ks : List CopyJob), (s.plane pl).repl = j :: js ∧ j.todo = k :: ks ∧ ∃ start, p < 4 ∧ j.retry = some (start, p) ∧ ∃ s1 q, s.popBuf pl p (j.frame.stream.any s.crit.contains) = (s1, none) ∧ s1.flag (BPM_POOL_CFG_SPILL pl p) = true ∧ s1.nextPool pl p = some q) ∧
    (∃ (s : State) (pl : Plane) (p : Nat) (j : ReplJob) (js : List ReplJob) (k : CopyJob) (ks : List CopyJob), (s.plane pl).repl = j :: js ∧ j.todo = k :: ks ∧ ∃ start, p < 4 ∧ j.retry = some (start, p) ∧ ∃ s1, s.popBuf pl p (j.frame.stream.any s.crit.contains) = (s1, none) ∧ (s1.flag (BPM_POOL_CFG_SPILL pl p) = false ∨ s1.nextPool pl p = none)) :=
  ⟨⟨wB0, .A, 0, (by first | decide +kernel | rfl)⟩,
   ⟨wB0, .A, (by first | decide +kernel | rfl)⟩,
   ⟨wXl, .A, wj4, [], ⟨7, 33, RxMeta.plain, 0⟩, [], (wXl.copyWaits .A wLeg ⟨7, 33, RxMeta.plain, 0⟩).1, (by first | decide +kernel | rfl), (by first | decide +kernel | rfl), (by first | decide +kernel | rfl), (by first | decide +kernel | rfl)⟩,
   ⟨(wCpy wSt wj1 0 24), .A, 0, wj1, [], ⟨7, 3, RxMeta.plain, 0⟩, [], (wCpy wSt wj1 0 24), (by first | decide +kernel | rfl), (by first | decide +kernel | rfl), (by first | decide +kernel | rfl), (by first | decide +kernel | rfl), (by first | decide +kernel | rfl)⟩,
   ⟨wbig, .A, wj3, [], ⟨7, 3, RxMeta.plain, 0⟩, [], (by first | decide +kernel | rfl), (by first | decide +kernel | rfl), (by first | decide +kernel | rfl)⟩,
   ⟨(wCpy wSt wj1 0 24), .A, 0, wj1, [], ⟨7, 3, RxMeta.plain, 0⟩, [], (by first | decide +kernel | rfl), (by first | decide +kernel | rfl), (by first | decide +kernel | rfl), (by first | decide +kernel | rfl), (by first | decide +kernel | rfl), (((wCpy wSt wj1 0 24) : State).popBuf (.A : Plane) (0 : Nat) ((wj1 : ReplJob).frame.stream.any ((wCpy wSt wj1 0 24) : State).crit.contains)).1, (Option.get ((((wCpy wSt wj1 0 24) : State).popBuf (.A : Plane) (0 : Nat) ((wj1 : ReplJob).frame.stream.any ((wCpy wSt wj1 0 24) : State).crit.contains)).2) (by decide +kernel)), (pairOf (by decide +kernel)), (by first | decide +kernel | rfl)⟩,
   ⟨(wCpy wSt0 wj1 1 24), .A, 0, wj1, [], ⟨7, 3, RxMeta.plain, 0⟩, [], (by first | decide +kernel | rfl), (by first | decide +kernel | rfl), (by first | decide +kernel | rfl), (by first | decide +kernel | rfl), (by first | decide +kernel | rfl), (((wCpy wSt0 wj1 1 24) : State).popBuf (.A : Plane) (0 : Nat) ((wj1 : ReplJob).frame.stream.any ((wCpy wSt0 wj1 1 24) : State).crit.contains)).1, (Option.get ((((wCpy wSt0 wj1 1 24) : State).popBuf (.A : Plane) (0 : Nat) ((wj1 : ReplJob).frame.stream.any ((wCpy wSt0 wj1 1 24) : State).crit.contains)).1.nextPool (.A : Plane) (0 : Nat)) (by decide +kernel)), (pairNone (by decide +kernel)), (by first | decide +kernel | rfl), (someOf (by decide +kernel))⟩,
   ⟨(wCpy wSt0 wj1 0 24), .A, 0, wj1, [], ⟨7, 3, RxMeta.plain, 0⟩, [], (by first | decide +kernel | rfl), (by first | decide +kernel | rfl), (by first | decide +kernel | rfl), (by first | decide +kernel | rfl), (by first | decide +kernel | rfl), (((wCpy wSt0 wj1 0 24) : State).popBuf (.A : Plane) (0 : Nat) ((wj1 : ReplJob).frame.stream.any ((wCpy wSt0 wj1 0 24) : State).crit.contains)).1, (pairNone (by decide +kernel)), (by first | decide +kernel | rfl)⟩,
   ⟨wbig, .A, wj3, [], ⟨7, 3, RxMeta.plain, 0⟩, [], (by first | decide +kernel | rfl), (by first | decide +kernel | rfl), (by first | decide +kernel | rfl), (by first | decide +kernel | rfl), (by first | decide +kernel | rfl)⟩,
   ⟨(wCpy wSt wj2 0 24), .A, 0, wj2, [], ⟨7, 3, RxMeta.plain, 0⟩, [⟨8, 4, RxMeta.plain, 0⟩], (by first | decide +kernel | rfl), (by first | decide +kernel | rfl), ((Option.get ((wj2 : ReplJob).retry) (by decide +kernel))).1, (by first | decide +kernel | rfl), (someFst (by decide +kernel) (by decide +kernel)), (((wCpy wSt wj2 0 24) : State).popBuf (.A : Plane) (0 : Nat) ((wj2 : ReplJob).frame.stream.any ((wCpy wSt wj2 0 24) : State).crit.contains)).1, (Option.get ((((wCpy wSt wj2 0 24) : State).popBuf (.A : Plane) (0 : Nat) ((wj2 : ReplJob).frame.stream.any ((wCpy wSt wj2 0 24) : State).crit.contains)).2) (by decide +kernel)), (pairOf (by decide +kernel))⟩,
   ⟨(wCpy wSt0 wj2 1 24), .A, 0, wj2, [], ⟨7, 3, RxMeta.plain, 0⟩, [⟨8, 4, RxMeta.plain, 0⟩], (by first | decide +kernel | rfl), (by first | decide +kernel | rfl), ((Option.get ((wj2 : ReplJob).retry) (by decide +kernel))).1, (by first | decide +kernel | rfl), (someFst (by decide +kernel) (by decide +kernel)), (((wCpy wSt0 wj2 1 24) : State).popBuf (.A : Plane) (0 : Nat) ((wj2 : ReplJob).frame.stream.any ((wCpy wSt0 wj2 1 24) : State).crit.contains)).1, (Option.get ((((wCpy wSt0 wj2 1 24) : State).popBuf (.A : Plane) (0 : Nat) ((wj2 : ReplJob).frame.stream.any ((wCpy wSt0 wj2 1 24) : State).crit.contains)).1.nextPool (.A : Plane) (0 : Nat)) (by decide +kernel)), (pairNone (by decide +kernel)), (by first | decide +kernel | rfl), (someOf (by decide +kernel))⟩,
   ⟨(wCpy wSt0 wj2 0 24), .A, 0, wj2, [], ⟨7, 3, RxMeta.plain, 0⟩, [⟨8, 4, RxMeta.plain, 0⟩], (by first | decide +kernel | rfl), (by first | decide +kernel | rfl), ((Option.get ((wj2 : ReplJob).retry) (by decide +kernel))).1, (by first | decide +kernel | rfl), (someFst (by decide +kernel) (by decide +kernel)), (((wCpy wSt0 wj2 0 24) : State).popBuf (.A : Plane) (0 : Nat) ((wj2 : ReplJob).frame.stream.any ((wCpy wSt0 wj2 0 24) : State).crit.contains)).1, (pairNone (by decide +kernel)), (by first | decide +kernel | rfl)⟩⟩

theorem test_wit_LimiterAndCaptureWrites :
    (∃ (s : State) (r : Requester), s.reaches r (rPRS_EXC_BURST .A)) ∧
    (∃ (s : State) (r : Requester), s.reaches r (rPRS_EXC_RATE .A)) ∧
    (∃ (s : State) (r : Requester), s.reaches r rCAP_CTL ∧ s.flag CAP_CTL_ENABLE = true) ∧
    (∃ (s : State) (r : Requester) (v : Nat), s.reaches r rCAP_CTL ∧ s.flag CAP_CTL_ENABLE = false ∧ (bitOf v 2 = false ∨ s.fld CAP_AREA_SIZE_SIZE ≠ 0)) ∧
    (∃ (s : State) (r : Requester), s.reaches r rCAP_TAIL ∧ s.flag CAP_CTL_MODE = true ∧ s.flag CAP_CTL_ENABLE = true) ∧
    (∃ (s : State) (r : Requester), s.reaches r rCAP_TAIL ∧ (s.flag CAP_CTL_MODE = false ∨ s.flag CAP_CTL_ENABLE = false)) :=
  ⟨⟨wOn, .mc, (by unfold State.reaches; decide +kernel)⟩,
   ⟨wOn, .mc, (by unfold State.reaches; decide +kernel)⟩,
   ⟨(wPut wOn [(CAP_CTL_ENABLE,1),(CAP_CTL_MODE,1),(CAP_HEAD_HEAD,64),(CAP_CTL_TARGET,1)]), .mc, (by unfold State.reaches; decide +kernel), (by first | decide +kernel | rfl)⟩,
   ⟨wOn, .mc, 0, (by unfold State.reaches; decide +kernel), (by first | decide +kernel | rfl), (by first | decide +kernel | rfl)⟩,
   ⟨(wPut wOn [(CAP_CTL_ENABLE,1),(CAP_CTL_MODE,1),(CAP_HEAD_HEAD,64),(CAP_CTL_TARGET,1)]), .mc, (by unfold State.reaches; decide +kernel), (by first | decide +kernel | rfl), (by first | decide +kernel | rfl)⟩,
   ⟨wOn, .mc, (by unfold State.reaches; decide +kernel), (by first | decide +kernel | rfl)⟩⟩

theorem test_wit_BucketMovesInSteps :
    (∃ (s : State) (r : Requester) (b : Nat), b < 65536 ∧ s.reaches r (rPLC_BUCKET b)) ∧
    (∃ (s : State) (b : Nat) (c : Nat), s.dm.ctxs.length = 256 ∧ s.pinAway b = true ∧ s.freeCtx = some c) ∧
    (∃ (s : State) (b : Nat), (s.pinAway b = false ∨ s.freeCtx = none)) ∧
    (∃ (s : State) (c : Nat), (s.ctx c).valid = true ∧ (s.ctx c).waiting = true ∧ s.moveParked (s.ctx c) = false) ∧
    (∃ (s : State) (c : Nat), ((s.ctx c).valid = false ∨ (s.ctx c).waiting = false ∨ s.moveParked (s.ctx c) = true)) ∧
    (∃ (s : State) (c : Nat), s.ctxExpired c = true) ∧
    (∃ (s : State) (c : Nat), s.ctxExpired c = false) :=
  ⟨⟨wOn, .mc, 9, (by first | decide +kernel | rfl), (by unfold State.reaches; decide +kernel)⟩,
   ⟨wPin, 9, 0, (by first | decide +kernel | rfl), (by first | decide +kernel | rfl), (by first | decide +kernel | rfl)⟩,
   ⟨wOn, 9, (by first | decide +kernel | rfl)⟩,
   ⟨(wMk true []), 0, (by first | decide +kernel | rfl), (by first | decide +kernel | rfl), (by first | decide +kernel | rfl)⟩,
   ⟨wOn, 0, (by first | decide +kernel | rfl)⟩,
   ⟨(wMk true []), 0, (by first | decide +kernel | rfl)⟩,
   ⟨wOn, 0, (by first | decide +kernel | rfl)⟩⟩

end W05

namespace W06
/-- Data of the witnesses below. -/
def wTx (f : Frame) : TxFrame := ⟨f, f.bytes, f.bytes, false, [], none, none⟩
/-- Data of the witnesses below. -/
def wPl (l : List (Fld × Nat)) (x : PortSt) (p : Nat) : State := wPort (wPut { wCh with planeA := { PlaneSt.empty with pools := [⟨[4, 3], 5, 9, false, [], []⟩, ⟨[], 0, 0, false, [], []⟩, ⟨[], 0, 0, false, [], []⟩, ⟨[], 0, 0, false, [], []⟩] } } l) p x
/-- Data of the witnesses below. -/
def wQ (s : State) (q : Nat) : State := { s with planeA := { s.planeA with queues := [(q, [.frame (wFrame 64)])] } }
/-- Data of the witnesses below. -/
def wUp0 : State := wPl [(ETH_STATUS_LINK 0, 1), (SCH_QCFG_QUANTUM .A 3, 1000), (SCH_QCFG_QUANTUM .A 0, 1000), (SCH_PORT_CFG_EXPRESS .A 0, 0x80)] PortSt.reset 0
/-- Data of the witnesses below. -/
def wGt (m o : Nat) (sm : Nat) : State := wPort (wPut { wCh with car := { Car.reset with lists := [(0, [⟨0, true, m⟩])], sched := { Car.reset.sched with peal := 1000 } } } [(SCH_GATE_OPEN .A 0, o), (SCH_GATE_GUARD .A 0, 1)]) 0 { PortSt.reset with shortMask := sm }
/-- Data of the witnesses below. -/
def wEl (s : State) (p : Nat) : State := s.put (SCH_GATE_GUARD .A p) 0
/-- Data of the witnesses below. -/
def wHd : Head := ⟨0, wFrame 64, .free, 64⟩

theorem test_wit_PortSelectsOneHead :
    (∃ (s : State) (p : Nat), s.mayResend p = true) ∧
    (∃ (s : State) (p : Nat), s.mayResend p = false ∧ s.mayServe p = false) ∧
    (∃ (s : State) (look : State) (s1 : State) (p : Nat) (h : Head), s.mayResend p = false ∧ s.mayServe p = true ∧ look = s.put (SCH_GATE_GUARD .A p) 0 ∧ look.pickExpress p [7, 6, 5, 4, 3, 2, 1, 0] = (s1, some h)) ∧
    (∃ (s : State) (look : State) (s1 : State) (p : Nat), s.mayResend p = false ∧ s.mayServe p = true ∧ look = s.put (SCH_GATE_GUARD .A p) 0 ∧ look.pickExpress p [7, 6, 5, 4, 3, 2, 1, 0] = (s1, none) ∧ (s.port p).txp ≠ none) ∧
    (∃ (s : State) (look : State) (s1 : State) (p : Nat), s.mayResend p = false ∧ s.mayServe p = true ∧ look = s.put (SCH_GATE_GUARD .A p) 0 ∧ look.pickExpress p [7, 6, 5, 4, 3, 2, 1, 0] = (s1, none) ∧ (s.port p).txp = none ∧ ∃ s2, s1.pickAll p [7, 6, 5, 4, 3, 2, 1, 0] = (s2, [])) ∧
    (∃ (s : State) (look : State) (s1 : State) (p : Nat) (h : Head), s.mayResend p = false ∧ s.mayServe p = true ∧ look = s.put (SCH_GATE_GUARD .A p) 0 ∧ look.pickExpress p [7, 6, 5, 4, 3, 2, 1, 0] = (s1, none) ∧ (s.port p).txp = none ∧ ∃ s2 l s3, s1.pickAll p [7, 6, 5, 4, 3, 2, 1, 0] = (s2, l) ∧ l ≠ [] ∧ s2.drrLoop p l 1048576 = (s3, some h)) :=
  ⟨⟨(wPl [(T1S_STATUS_LINK 0,1)] {PortSt.reset with tx := some (wTx (wFrame 64)), retry := true, attempts := 1} 24), 24, (by first | decide +kernel | rfl)⟩,
   ⟨wCh, 0, (by first | decide +kernel | rfl), (by first | decide +kernel | rfl)⟩,
   ⟨(wQ wUp0 7), (wEl (wQ wUp0 7) 0), ((wEl (wQ wUp0 7) 0).pickExpress 0 [7,6,5,4,3,2,1,0]).1, 0, (((wEl (wQ wUp0 7) 0).pickExpress 0 [7,6,5,4,3,2,1,0]).2.getD (((wEl (wQ wUp0 7) 0).pickAll 0 [7,6,5,4,3,2,1,0]).2.headD wHd)), (by first | decide +kernel | rfl), (by first | decide +kernel | rfl), (by first | rfl | decide +kernel), (by first | decide +kernel | rfl)⟩,
   ⟨(wPort {wPut wUp0 [(ETH_STATUS_PREEMPT_ACTIVE 0,1),(ETH_STATUS_SPEED 0,4)] with clk := 1000000} 0 {PortSt.reset with txp := some (wTx (wFrame 64))}), (wEl (wPort {wPut wUp0 [(ETH_STATUS_PREEMPT_ACTIVE 0,1),(ETH_STATUS_SPEED 0,4)] with clk := 1000000} 0 {PortSt.reset with txp := some (wTx (wFrame 64))}) 0), ((wEl (wPort {wPut wUp0 [(ETH_STATUS_PREEMPT_ACTIVE 0,1),(ETH_STATUS_SPEED 0,4)] with clk := 1000000} 0 {PortSt.reset with txp := some (wTx (wFrame 64))}) 0).pickExpress 0 [7,6,5,4,3,2,1,0]).1, 0, (by first | decide +kernel | rfl), (by first | decide +kernel | rfl), (by first | rfl | decide +kernel), (by first | decide +kernel | rfl), (by first | decide +kernel | rfl)⟩,
   ⟨wUp0, (wEl wUp0 0), ((wEl wUp0 0).pickExpress 0 [7,6,5,4,3,2,1,0]).1, 0, (by first | decide +kernel | rfl), (by first | decide +kernel | rfl), (by first | rfl | decide +kernel), (by first | decide +kernel | rfl), (by first | decide +kernel | rfl), ((((wEl wUp0 0).pickExpress 0 [7,6,5,4,3,2,1,0]).1 : State).pickAll (0 : Nat) [7, 6, 5, 4, 3, 2, 1, 0]).1, (pairLit (by decide +kernel))⟩,
   ⟨(wQ wUp0 3), (wEl (wQ wUp0 3) 0), ((wEl (wQ wUp0 3) 0).pickExpress 0 [7,6,5,4,3,2,1,0]).1, 0, (((wEl (wQ wUp0 3) 0).pickExpress 0 [7,6,5,4,3,2,1,0]).2.getD (((wEl (wQ wUp0 3) 0).pickAll 0 [7,6,5,4,3,2,1,0]).2.headD wHd)), (by first | decide +kernel | rfl), (by first | decide +kernel | rfl), (by first | rfl | decide +kernel), (by first | decide +kernel | rfl), (by first | decide +kernel | rfl), ((((wEl (wQ wUp0 3) 0).pickExpress 0 [7,6,5,4,3,2,1,0]).1 : State).pickAll (0 : Nat) [7, 6, 5, 4, 3, 2, 1, 0]).1, ((((wEl (wQ wUp0 3) 0).pickExpress 0 [7,6,5,4,3,2,1,0]).1 : State).pickAll (0 : Nat) [7, 6, 5, 4, 3, 2, 1, 0]).2, (((((wEl (wQ wUp0 3) 0).pickExpress 0 [7,6,5,4,3,2,1,0]).1 : State).pickAll (0 : Nat) [7, 6, 5, 4, 3, 2, 1, 0]).1.drrLoop (0 : Nat) ((((wEl (wQ wUp0 3) 0).pickExpress 0 [7,6,5,4,3,2,1,0]).1 : State).pickAll (0 : Nat) [7, 6, 5, 4, 3, 2, 1, 0]).2 1048576).1, rfl, (by first | decide +kernel | rfl), (pairLit (by decide +kernel))⟩⟩

theorem test_wit_TransmissionEndIsCounted :
    (∃ (s : State) (p : Nat), (s.port p).tx = none ∧ (s.port p).txp = none) ∧
    (∃ (s : State) (p : Nat), (32 ≤ p ∨ (s.port p).retry = true)) ∧
    (∃ (s : State) (p : Nat) (f : TxFrame), p < 24 ∧ (s.port p).retry = false ∧ (s.port p).tx = some f) ∧
    (∃ (s : State) (p : Nat) (f : TxFrame), p < 24 ∧ (s.port p).retry = false ∧ (s.port p).tx = none ∧ (s.port p).txp = some f) ∧
    (∃ (s : State) (p : Nat) (f : TxFrame), 24 ≤ p ∧ p < 32 ∧ (s.port p).retry = false ∧ (s.port p).tx = some f) :=
  ⟨⟨wCh, 0, (by first | decide +kernel | rfl), (by first | decide +kernel | rfl)⟩,
   ⟨wUp0, 40, (by first | decide +kernel | rfl)⟩,
   ⟨(wPort wUp0 0 {PortSt.reset with tx := some (wTx (wFrame 64))}), 0, (wTx (wFrame 64)), (by first | decide +kernel | rfl), (by first | decide +kernel | rfl), (by first | decide +kernel | rfl)⟩,
   ⟨(wPort wUp0 0 {PortSt.reset with txp := some (wTx (wFrame 64))}), 0, (wTx (wFrame 64)), (by first | decide +kernel | rfl), (by first | decide +kernel | rfl), (by first | decide +kernel | rfl), (by first | decide +kernel | rfl)⟩,
   ⟨(wPort wUp0 24 {PortSt.reset with tx := some (wTx (wFrame 64)), attempts := 3}), 24, (wTx (wFrame 64)), (by first | decide +kernel | rfl), (by first | decide +kernel | rfl), (by first | decide +kernel | rfl), (by first | decide +kernel | rfl)⟩⟩

theorem test_wit_GatesAndShaperWrites :
    (∃ (p : Nat), p < 32) ∧
    (∃ (s : State) (r : Requester) (p : Nat) (a : Nat), p < 256 ∧ (a = rSCH_PSHP_RATE .A p ∨ a = rSCH_PSHP_BURST .A p) ∧ s.reaches r a) ∧
    (∃ (s : State) (r : Requester) (q : Nat) (a : Nat), q < 2048 ∧ (a = rSCH_QSHP_RATE .A q ∨ a = rSCH_QSHP_BURST .A q) ∧ s.reaches r a) ∧
    (∃ (s : State) (r : Requester) (n : Nat) (a : Nat), n < 4096 ∧ (a = rSCH_SNARE_CFG .A n ∨ a = rSCH_SNARE_BURST .A n) ∧ s.reaches r a) ∧
    (∃ (s : State) (r : Requester) (q : Nat), q < 2048 ∧ s.reaches r (rSCH_QSHP_RATE .B q)) ∧
    (∃ (s : State) (r : Requester) (n : Nat), n < 4096 ∧ s.reaches r (rSCH_SNARE_CFG .B n)) :=
  ⟨⟨0, (by first | decide +kernel | rfl)⟩,
   ⟨wCh, .mc, 0, (rSCH_PSHP_RATE .A 0), (by first | decide +kernel | rfl), (by first | decide +kernel | rfl), (by unfold State.reaches; decide +kernel)⟩,
   ⟨wCh, .mc, 5, (rSCH_QSHP_RATE .A 5), (by first | decide +kernel | rfl), (by first | decide +kernel | rfl), (by unfold State.reaches; decide +kernel)⟩,
   ⟨wCh, .mc, 3, (rSCH_SNARE_CFG .A 3), (by first | decide +kernel | rfl), (by first | decide +kernel | rfl), (by unfold State.reaches; decide +kernel)⟩,
   ⟨wCh, .mc, 5, (by first | decide +kernel | rfl), (by unfold State.reaches; decide +kernel)⟩,
   ⟨wCh, .mc, 3, (by first | decide +kernel | rfl), (by unfold State.reaches; decide +kernel)⟩⟩

theorem test_wit_TokenBucketsFill :
    (∃ (s : State), s.flag CLK_STATUS_PLL_CORE = false) ∧
    (∃ (s : State), s.Inv ∧ s.flag CLK_STATUS_PLL_CORE = true) :=
  ⟨⟨(wPut wOn [(CLK_STATUS_PLL_CORE,0)]), (by first | decide +kernel | rfl)⟩,
   ⟨wOn, (by constructor <;> decide +kernel), (by first | decide +kernel | rfl)⟩⟩

end W06

namespace W07
/-- Data of the witnesses below. -/
def wT : State := wPut wOn [(CLK_STATUS_PLL_TS, 1), (TIM_TB_CTL_EN 1, 1)]
/-- Data of the witnesses below. -/
def wTb (x : TimeBase) : State := { wT with tbs := [x, TimeBase.reset, x, x] }
/-- Data of the witnesses below. -/
def wTs1 : State := wPut (wTb { TimeBase.reset with step := true }) [(TIM_TB_STEP_NS_NS 0, 5), (TIM_TB_STEP_SEC_LO_SEC 0, 77), (TIM_TB_STEP_SEC_HI_SEC 0, 3), (TIM_TB_STEP_NS_NS 2, 1000000000)]
/-- Data of the witnesses below. -/
def wTs2 : State := wTb { TimeBase.reset with commitInc := some (4, 77), snap := true, now := ⟨2^48-1, 999999999, 5⟩ }
/-- Data of the witnesses below. -/
def wSU : State := wPut wT [(GLB_DEVSTATE_STATE, 1), (TIM_TB_CTL_STEP_USED 1, 1), (TIM_TB_STEP_NS_NS 2, 1000000000)]
/-- Data of the witnesses below. -/
def wSA : State := wPut wSU [(CHT_STATUS_SHADOW, 5)]
/-- Data of the witnesses below. -/
def wPd : State := (wPut (wRun .timeBaseTick (wTb { TimeBase.reset with now := ⟨5, 999999998, 0⟩ })) [(TIM_PPS_CFG_EN 0, 1), (TIM_PPS_CFG_DIR 0, 1), (TIM_PPS_PERIOD_PERIOD_US 0, 1000000), (TIM_PPS_CFG_WIDTH_US 0, 5)])
/-- Data of the witnesses below. -/
def wPps : State := { wPut wT [(TIM_PPS_CFG_EN 0, 1), (TIM_PPS_CFG_DIR 0, 1), (TIM_PPS_CFG_EN 1, 1), (TIM_PPS_CFG_EN 2, 1),(TIM_PPS_CFG_EN 3, 1), (TIM_PPS_CAP_STAT_OVF 2, 255)] with ppsCap := [(2, List.replicate 4 ⟨1,2,3⟩)], ppsLast := [(2, 100), (3, 500)], ticks := 300, txts := [⟨1, 2, false, false, false, 0, 1, 2⟩] }

theorem test_wit_TimeBaseTickAdvances :
    (∃ (s : State) (n : Nat), s.Inv ∧ n < 4 ∧ s.flag CLK_STATUS_PLL_TS = false) ∧
    (∃ (s : State) (n : Nat), s.Inv ∧ n < 4 ∧ s.flag CLK_STATUS_PLL_TS = true) :=
  ⟨⟨wOn, 0, (by constructor <;> decide +kernel), (by first | decide +kernel | rfl), (by first | decide +kernel | rfl)⟩,
   ⟨wT, 0, (by constructor <;> decide +kernel), (by first | decide +kernel | rfl), (by first | decide +kernel | rfl)⟩⟩

theorem test_wit_TimeBaseWrites :
    (∃ (s : State) (r : Requester) (n : Nat) (v : Nat), s.tbs.length = 4 ∧ n < 4 ∧ s.reaches r (rTIM_TB_INC_NS n) ∧ incInRange (v % 256) (s.fld (TIM_TB_INC_FRAC_FRAC n)) = true) ∧
    (∃ (s : State) (r : Requester) (n : Nat) (v : Nat), s.tbs.length = 4 ∧ n < 4 ∧ s.reaches r (rTIM_TB_INC_NS n) ∧ incInRange (v % 256) (s.fld (TIM_TB_INC_FRAC_FRAC n)) = false) ∧
    (∃ (s : State) (r : Requester) (n : Nat), s.tbs.length = 4 ∧ n < 4 ∧ s.reaches r (rTIM_TB_CTL n) ∧ s.flag (TIM_TB_CTL_STEP_USED n) = false ∧ s.inState .startUp = true ∧ s.fld (TIM_TB_STEP_NS_NS n) < 1000000000 ∧ (n ≠ 0 ∨ s.fld CHT_STATUS_SHADOW ≠ 5)) ∧
    (∃ (s : State) (r : Requester) (n : Nat), s.tbs.length = 4 ∧ n < 4 ∧ s.reaches r (rTIM_TB_CTL n) ∧ (s.flag (TIM_TB_CTL_STEP_USED n) = true ∨ s.inState .startUp = false ∨ 1000000000 ≤ s.fld (TIM_TB_STEP_NS_NS n) ∨ (n = 0 ∧ s.fld CHT_STATUS_SHADOW = 5))) ∧
    (∃ (s : State) (r : Requester) (n : Nat), s.tbs.length = 4 ∧ n < 4 ∧ s.reaches r rTIM_SNAP) :=
  ⟨⟨wT, .mc, 0, 4, (by first | decide +kernel | rfl), (by first | decide +kernel | rfl), (by unfold State.reaches; decide +kernel), (by first | decide +kernel | rfl)⟩,
   ⟨wT, .mc, 0, 9, (by first | decide +kernel | rfl), (by first | decide +kernel | rfl), (by unfold State.reaches; decide +kernel), (by first | decide +kernel | rfl)⟩,
   ⟨wSU, .mc, 0, (by first | decide +kernel | rfl), (by first | decide +kernel | rfl), (by unfold State.reaches; decide +kernel), (by first | decide +kernel | rfl), (by first | decide +kernel | rfl), (by first | decide +kernel | rfl), (by first | decide +kernel | rfl)⟩,
   ⟨wT, .mc, 0, (by first | decide +kernel | rfl), (by first | decide +kernel | rfl), (by unfold State.reaches; decide +kernel), (by first | decide +kernel | rfl)⟩,
   ⟨wT, .mc, 0, (by first | decide +kernel | rfl), (by first | decide +kernel | rfl), (by unfold State.reaches; decide +kernel)⟩⟩

theorem test_wit_PopsAndPulsePins :
    (∃ (s : State) (r : Requester), s.reaches r rTIM_TXTS_POP) ∧
    (∃ (s : State) (r : Requester) (n : Nat), n < 4 ∧ s.reaches r (rTIM_PPS_CAP_STAT n)) ∧
    (∃ (s : State) (n : Nat), n < 4 ∧ s.flag (TIM_PPS_CFG_EN n) = true ∧ s.flag (TIM_PPS_CFG_DIR n) = true ∧ s.ppsDue n = true ∧ tabFind s.ppsStart n ≠ some s.ticks) ∧
    (∃ (s : State) (n : Nat), (s.flag (TIM_PPS_CFG_EN n) = false ∨ s.flag (TIM_PPS_CFG_DIR n) = false ∨ s.ppsDue n = false ∨ tabFind s.ppsStart n = some s.ticks)) ∧
    (∃ (s : State) (n : Nat) (e : Nat), n < 4 ∧ s.flag (TIM_PPS_CFG_EN n) = true ∧ s.flag (TIM_PPS_CFG_DIR n) = false ∧ ∃ k, tabFind s.ppsLast n = some k ∧ 4 * s.ticks + e % 4 < k + 1000) ∧
    (∃ (s : State) (n : Nat) (e : Nat), n < 4 ∧ s.flag (TIM_PPS_CFG_EN n) = true ∧ s.flag (TIM_PPS_CFG_DIR n) = false ∧ (∀ k, tabFind s.ppsLast n = some k → k + 1000 ≤ 4 * s.ticks + e % 4) ∧ 4 ≤ (tabGet [] s.ppsCap n).length) ∧
    (∃ (s : State) (n : Nat) (e : Nat), n < 4 ∧ s.flag (TIM_PPS_CFG_EN n) = true ∧ s.flag (TIM_PPS_CFG_DIR n) = false ∧ (∀ k, tabFind s.ppsLast n = some k → k + 1000 ≤ 4 * s.ticks + e % 4) ∧ (tabGet [] s.ppsCap n).length < 4) :=
  ⟨⟨(wPd), .mc, (by unfold State.reaches; decide +kernel)⟩,
   ⟨(wPd), .mc, 0, (by first | decide +kernel | rfl), (by unfold State.reaches; decide +kernel)⟩,
   ⟨(wPd), 0, (by first | decide +kernel | rfl), (by first | decide +kernel | rfl), (by first | decide +kernel | rfl), (by first | decide +kernel | rfl), (by first | decide +kernel | rfl)⟩,
   ⟨(wOn), 0, (by first | decide +kernel | rfl)⟩,
   ⟨(wPps), 3, 7, (by first | decide +kernel | rfl), (by first | decide +kernel | rfl), (by first | decide +kernel | rfl), (Option.get (tabFind ((wPps) : State).ppsLast (3 : Nat)) (by decide +kernel)), (someOf (by decide +kernel)), (by first | decide +kernel | rfl)⟩,
   ⟨(wPps), 2, 7, (by first | decide +kernel | rfl), (by first | decide +kernel | rfl), (by first | decide +kernel | rfl), (by first | decide +kernel | rfl), (by first | decide +kernel | rfl)⟩,
   ⟨(wPps), 1, 7, (by first | decide +kernel | rfl), (by first | decide +kernel | rfl), (by first | decide +kernel | rfl), (by first | decide +kernel | rfl), (by first | decide +kernel | rfl)⟩⟩

end W07

namespace W08
/-- Data of the witnesses below. -/
def wJb (src : JobSrc) : Job := ⟨src, [.withdraw 5], false, none, false⟩
/-- Data of the witnesses below. -/
def wJd (b : Nat) : JobDone := ⟨wJb .firmware, { Car.reset.sched with peal := 1000 }, [], [], b⟩
/-- Data of the witnesses below. -/
def wCj (n : Nat) (c : Car) : State := wPut { wOn with car := c } [(CAR_STATUS_JOB, n)]
/-- Data of the witnesses below. -/
def wBad : Job := ⟨.firmware, [.withdraw 9], true, none, false⟩
/-- Data of the witnesses below. -/
def wBadS : Sched := { Car.reset.sched with streams := [(5, parseDecl 0x40 (5 :: List.replicate 47 0))] }
/-- Data of the witnesses below. -/
def wSec : Car := Car.reset

theorem test_wit_CarillonCommands :
    (∃ (s : State), s.reaches .mc rCAR_CTL ∧ s.fld CAR_CTL_RESULT ≠ 1 ∧ s.car.batch.length < 512) ∧
    (∃ (s : State), s.reaches .mc rCAR_CTL ∧ s.fld CAR_CTL_RESULT ≠ 1 ∧ 512 ≤ s.car.batch.length) ∧
    (∃ (s : State), s.reaches .mc rCAR_CTL ∧ s.fld CAR_CTL_RESULT ≠ 1 ∧ s.car.batch = []) ∧
    (∃ (s : State), s.reaches .mc rCAR_CTL ∧ s.fld CAR_CTL_RESULT ≠ 1 ∧ s.car.batch ≠ [] ∧ 16 ≤ s.car.queue.length) ∧
    (∃ (s : State), s.reaches .mc rCAR_CTL ∧ s.fld CAR_CTL_RESULT ≠ 1 ∧ s.car.batch ≠ [] ∧ s.car.queue.length < 16) ∧
    (∃ (s : State), s.reaches .mc rCAR_CTL ∧ s.fld CAR_CTL_RESULT ≠ 1 ∧ s.fld CAR_STATUS_JOB < 2) ∧
    (∃ (s : State), s.reaches .mc rCAR_CTL ∧ s.fld CAR_CTL_RESULT ≠ 1 ∧ 4 < s.fld CAR_STATUS_JOB) ∧
    (∃ (s : State), s.reaches .mc rCAR_CTL ∧ s.fld CAR_CTL_RESULT ≠ 1 ∧ 2 ≤ s.fld CAR_STATUS_JOB ∧ s.fld CAR_STATUS_JOB ≤ 4 ∧ ∃ q j, dropLastFw s.car.queue = (q, some j)) ∧
    (∃ (s : State) (late : Bool), s.reaches .mc rCAR_CTL ∧ s.fld CAR_CTL_RESULT ≠ 1 ∧ 2 ≤ s.fld CAR_STATUS_JOB ∧ s.fld CAR_STATUS_JOB ≤ 4 ∧ ∃ d, s.car.queue = [] ∧ s.car.running = none ∧ s.car.waiting = some d ∧ d.job.src = .firmware ∧ (late = false ∨ s.beatDue = false)) ∧
    (∃ (s : State) (late : Bool), s.reaches .mc rCAR_CTL ∧ s.fld CAR_CTL_RESULT ≠ 1 ∧ 2 ≤ s.fld CAR_STATUS_JOB ∧ s.fld CAR_STATUS_JOB ≤ 4 ∧ ∃ d, s.car.queue = [] ∧ s.car.running = none ∧ s.car.waiting = some d ∧ d.job.src = .firmware ∧ late = true ∧ s.beatDue = true) ∧
    (∃ (s : State), s.reaches .mc rCAR_CTL ∧ s.fld CAR_CTL_RESULT ≠ 1 ∧ isHost .hi0 = true ∧ s.unreachable .hi0 = false ∧ s.powered rCAR_CTL = true) :=
  ⟨⟨(wCj 0 Car.reset), (by unfold State.reaches; decide +kernel), (by first | decide +kernel | rfl), (by first | decide +kernel | rfl)⟩,
   ⟨(wCj 1 {Car.reset with batch := List.replicate 512 (.withdraw 4)}), (by unfold State.reaches; decide +kernel), (by first | decide +kernel | rfl), (by first | decide +kernel | rfl)⟩,
   ⟨(wCj 0 Car.reset), (by unfold State.reaches; decide +kernel), (by first | decide +kernel | rfl), (by first | decide +kernel | rfl)⟩,
   ⟨(wCj 2 {Car.reset with batch := [.withdraw 4], queue := List.replicate 16 (wJb (.tenant 3 4))}), (by unfold State.reaches; decide +kernel), (by first | decide +kernel | rfl), (by first | decide +kernel | rfl), (by first | decide +kernel | rfl)⟩,
   ⟨(wCj 1 {Car.reset with batch := [.withdraw 4]}), (by unfold State.reaches; decide +kernel), (by first | decide +kernel | rfl), (by first | decide +kernel | rfl), (by first | decide +kernel | rfl)⟩,
   ⟨(wCj 0 Car.reset), (by unfold State.reaches; decide +kernel), (by first | decide +kernel | rfl), (by first | decide +kernel | rfl)⟩,
   ⟨(wCj 5 Car.reset), (by unfold State.reaches; decide +kernel), (by first | decide +kernel | rfl), (by first | decide +kernel | rfl)⟩,
   ⟨(wCj 2 {Car.reset with batch := [.withdraw 4], queue := [wJb .firmware, wJb (.tenant 3 4)]}), (by unfold State.reaches; decide +kernel), (by first | decide +kernel | rfl), (by first | decide +kernel | rfl), (by first | decide +kernel | rfl), (dropLastFw ((wCj 2 {Car.reset with batch := [.withdraw 4], queue := [wJb .firmware, wJb (.tenant 3 4)]}) : State).car.queue).1, (Option.get ((dropLastFw ((wCj 2 {Car.reset with batch := [.withdraw 4], queue := [wJb .firmware, wJb (.tenant 3 4)]}) : State).car.queue).2) (by decide +kernel)), (pairOf (by decide +kernel))⟩,
   ⟨(wCj 4 {Car.reset with waiting := some (wJd 0)}), false, (by unfold State.reaches; decide +kernel), (by first | decide +kernel | rfl), (by first | decide +kernel | rfl), (by first | decide +kernel | rfl), (Option.get (((wCj 4 {Car.reset with waiting := some (wJd 0)}) : State).car.waiting) (by decide +kernel)), (by first | decide +kernel | rfl), (by first | decide +kernel | rfl), (someOf (by decide +kernel)), (by first | decide +kernel | rfl), (by first | decide +kernel | rfl)⟩,
   ⟨(wCj 4 {Car.reset with waiting := some (wJd 0)}), true, (by unfold State.reaches; decide +kernel), (by first | decide +kernel | rfl), (by first | decide +kernel | rfl), (by first | decide +kernel | rfl), (Option.get (((wCj 4 {Car.reset with waiting := some (wJd 0)}) : State).car.waiting) (by decide +kernel)), (by first | decide +kernel | rfl), (by first | decide +kernel | rfl), (someOf (by decide +kernel)), (by first | decide +kernel | rfl), (by first | rfl | decide +kernel), (by first | decide +kernel | rfl)⟩,
   ⟨(wCj 0 Car.reset), (by unfold State.reaches; decide +kernel), (by first | decide +kernel | rfl), (by first | decide +kernel | rfl), (by first | decide +kernel | rfl), (by first | decide +kernel | rfl)⟩⟩

theorem test_wit_CarillonJobsRun :
    (∃ (s : State), (s.car.running ≠ none ∨ s.car.waiting ≠ none ∨ s.car.held = true ∨ s.car.queue = [])) ∧
    (∃ (s : State) (j : Job) (q : List Job), s.car.running = none ∧ s.car.waiting = none ∧ s.car.held = false ∧ s.car.queue = j :: q) ∧
    (∃ (s : State) (j : Job) (out : SynthOut), s.car.running = some j ∧ out = synthesise s.active s.streamLimit s.car.sched j.src j.items j.repack ∧ out.fail = none) ∧
    (∃ (s : State) (j : Job) (out : SynthOut), s.car.running = some j ∧ out = synthesise s.active s.streamLimit s.car.sched j.src j.items j.repack ∧ ∃ code v, out.fail = some (code, v)) ∧
    (∃ (s : State), s.car.waiting = none) ∧
    (∃ (s : State) (d : JobDone), s.car.waiting = some d ∧ ctLater d.beat s.nowCt = true) ∧
    (∃ (s : State) (d : JobDone), s.car.waiting = some d ∧ ctLater d.beat s.nowCt = false ∧ d.job.src = .firmware) :=
  ⟨⟨(wCj 0 Car.reset), (by first | decide +kernel | rfl)⟩,
   ⟨(wCj 2 {Car.reset with queue := [wJb .firmware]}), (wJb .firmware), [], (by first | decide +kernel | rfl), (by first | decide +kernel | rfl), (by first | decide +kernel | rfl), (by first | decide +kernel | rfl)⟩,
   ⟨(wCj 3 {Car.reset with running := some (wJb .firmware), queue := [wJb .firmware]}), (wJb .firmware), (synthesise ((wCj 3 {Car.reset with running := some (wJb .firmware), queue := [wJb .firmware]})).active ((wCj 3 {Car.reset with running := some (wJb .firmware), queue := [wJb .firmware]})).streamLimit ((wCj 3 {Car.reset with running := some (wJb .firmware), queue := [wJb .firmware]})).car.sched ((wJb .firmware)).src ((wJb .firmware)).items ((wJb .firmware)).repack), (by first | decide +kernel | rfl), (by first | rfl | decide +kernel), (by first | decide +kernel | rfl)⟩,
   ⟨(wCj 3 {Car.reset with running := some wBad, sched := wBadS}), wBad, (synthesise ((wCj 3 {Car.reset with running := some wBad, sched := wBadS})).active ((wCj 3 {Car.reset with running := some wBad, sched := wBadS})).streamLimit ((wCj 3 {Car.reset with running := some wBad, sched := wBadS})).car.sched (wBad).src (wBad).items (wBad).repack), (by first | decide +kernel | rfl), (by first | rfl | decide +kernel), ((Option.get (((synthesise ((wCj 3 {Car.reset with running := some wBad, sched := wBadS})).active ((wCj 3 {Car.reset with running := some wBad, sched := wBadS})).streamLimit ((wCj 3 {Car.reset with running := some wBad, sched := wBadS})).car.sched (wBad).src (wBad).items (wBad).repack) : SynthOut).fail) (by decide +kernel))).1, ((Option.get (((synthesise ((wCj 3 {Car.reset with running := some wBad, sched := wBadS})).active ((wCj 3 {Car.reset with running := some wBad, sched := wBadS})).streamLimit ((wCj 3 {Car.reset with running := some wBad, sched := wBadS})).car.sched (wBad).src (wBad).items (wBad).repack) : SynthOut).fail) (by decide +kernel))).2, (someOf (by decide +kernel))⟩,
   ⟨(wCj 0 Car.reset), (by first | decide +kernel | rfl)⟩,
   ⟨(wCj 4 {Car.reset with waiting := some (wJd 1000)}), (wJd 1000), (by first | decide +kernel | rfl), (by first | decide +kernel | rfl)⟩,
   ⟨(wCj 4 {Car.reset with waiting := some (wJd 0)}), (wJd 0), (by first | decide +kernel | rfl), (by first | decide +kernel | rfl), (by first | decide +kernel | rfl)⟩⟩

end W08

namespace W09
/-- Data of the witnesses below. -/
def wBt (l : List (Nat × BeatSt)) (s : State) : State := { s with beats := (List.range 6).map (fun i => tabGet BeatSt.reset l i) }
/-- Data of the witnesses below. -/
def wG : BeatSt := { BeatSt.reset with good := true }
/-- Data of the witnesses below. -/
def wRed (b : Option RedBusy) (l : List (Fld × Nat)) : State := wPut { wOn with redBusy := b, clk := 1000 } l

theorem test_wit_BeatsJudgeThePaths :
    (∃ (s : State) (frm : Plane), s.beats.length = 6 ∧ s.beatNums.length = 2 ∧ s.slotsLost.length = 2 ∧ s.beatNum frm < 65536) ∧
    (∃ (s : State) (frm : Plane) (bs : List Byte), s.beats.length = 6 ∧ s.beatNums.length = 2 ∧ s.slotsLost.length = 2 ∧ beatSound frm bs = false) ∧
    (∃ (s : State) (frm : Plane) (bs : List Byte), s.beats.length = 6 ∧ s.beatNums.length = 2 ∧ s.slotsLost.length = 2 ∧ beatSound frm bs = true) ∧
    (∃ (s : State) (frm : Plane), s.beats.length = 6 ∧ s.beatNums.length = 2 ∧ s.slotsLost.length = 2 ∧ ∃ good : BeatPath → Bool, (∀ p, (s.beat (beatIx frm p)).good = good p) ∧ s.lostRun frm ≠ 4 ∧ (∀ p, p ≠ .arbiter → (s.beat (beatIx frm p)).degraded = false ∧ (good p = true ∨ (s.beat (beatIx frm p)).missRun < 3))) ∧
    (∃ (s : State) (frm : Plane), s.beats.length = 6 ∧ s.beatNums.length = 2 ∧ s.slotsLost.length = 2 ∧ (s.beat (beatIx frm .fabric)).good = false ∧ (s.beat (beatIx frm .side)).good = true ∧ (s.beat (beatIx frm .fabric)).missRun = 3 ∧ (s.beat (beatIx frm .fabric)).degraded = false ∧ (s.beat (beatIx frm .side)).degraded = false) ∧
    (∃ (s : State) (frm : Plane), s.beats.length = 6 ∧ s.beatNums.length = 2 ∧ s.slotsLost.length = 2 ∧ (s.beat (beatIx frm .fabric)).good = true ∧ (s.beat (beatIx frm .side)).good = true ∧ (s.beat (beatIx frm .side)).degraded = true ∧ (s.beat (beatIx frm .side)).goodRun = 127 ∧ (s.beat (beatIx frm .fabric)).degraded = false) ∧
    (∃ (s : State) (frm : Plane), s.beats.length = 6 ∧ s.beatNums.length = 2 ∧ s.slotsLost.length = 2 ∧ s.supervised frm = true ∧ (∀ p, (s.beat (beatIx frm p)).good = false) ∧ s.slotsLost[planeNum frm]? = some 3) :=
  ⟨⟨wOn, .A, (by first | decide +kernel | rfl), (by first | decide +kernel | rfl), (by first | decide +kernel | rfl), (by first | decide +kernel | rfl)⟩,
   ⟨wOn, .A, [], (by first | decide +kernel | rfl), (by first | decide +kernel | rfl), (by first | decide +kernel | rfl), (by first | decide +kernel | rfl)⟩,
   ⟨wOn, .A, ((wOn).beatSent .A), (by first | decide +kernel | rfl), (by first | decide +kernel | rfl), (by first | decide +kernel | rfl), (by first | decide +kernel | rfl)⟩,
   ⟨wOn, .A, (by first | decide +kernel | rfl), (by first | decide +kernel | rfl), (by first | decide +kernel | rfl), (fun p => ((wOn : State).beat (beatIx (.A : Plane) p)).good), (by intro p; cases p <;> first | rfl | decide +kernel), (by first | decide +kernel | rfl), (by intro p; cases p <;> first | rfl | decide +kernel)⟩,
   ⟨(wBt [(0,{BeatSt.reset with missRun := 3, missedPrev := true}),(1,wG),(4,wG),(2,{BeatSt.reset with missRun := 3}),(3,wG),(5,wG)] wOn), .A, (by first | decide +kernel | rfl), (by first | decide +kernel | rfl), (by first | decide +kernel | rfl), (by first | decide +kernel | rfl), (by first | decide +kernel | rfl), (by first | decide +kernel | rfl), (by first | decide +kernel | rfl), (by first | decide +kernel | rfl)⟩,
   ⟨(wBt [(0,wG),(1,{wG with degraded := true, goodRun := 127}),(4,wG),(2,wG),(3,{wG with degraded := true, goodRun := 127})] wOn), .A, (by first | decide +kernel | rfl), (by first | decide +kernel | rfl), (by first | decide +kernel | rfl), (by first | decide +kernel | rfl), (by first | decide +kernel | rfl), (by first | decide +kernel | rfl), (by first | decide +kernel | rfl), (by first | decide +kernel | rfl)⟩,
   ⟨(wBt [] {wOn with slotsLost := [3,3], clk := 500}), .A, (by first | decide +kernel | rfl), (by first | decide +kernel | rfl), (by first | decide +kernel | rfl), (by first | decide +kernel | rfl), (by intro p; cases p <;> first | rfl | decide +kernel), (by first | decide +kernel | rfl)⟩⟩

theorem test_wit_PlaneCommands :
    (∃ (s : State) (pl : Plane), s.reaches .mc rRED_CTL ∧ (s.swapBusy = true ∨ s.redBusy ≠ none) ∧ ∃ c, c ∈ [Instr.redIsolate .mc pl, .redTest .mc pl, .redRejoin .mc pl, .redPromote .mc pl]) ∧
    (∃ (s : State) (pl : Plane), s.reaches .mc rRED_CTL ∧ s.swapBusy = false ∧ s.redBusy = none ∧ s.isCond pl .failed = true) ∧
    (∃ (s : State) (pl : Plane), s.reaches .mc rRED_CTL ∧ s.swapBusy = false ∧ s.redBusy = none ∧ s.isCond pl .inService = true ∧ s.isCond (twinOf pl) .inService = true ∧ (s.inState .run = true ∨ s.inState .test = true) ∧ s.fld CHT_SWAP_DRAIN_DRAIN_US ≠ 0) ∧
    (∃ (s : State) (pl : Plane), s.reaches .mc rRED_CTL ∧ s.swapBusy = false ∧ s.redBusy = none ∧ s.isCond pl .inService = false ∧ s.isCond pl .failed = false) ∧
    (∃ (s : State) (pl : Plane), s.reaches .mc rRED_CTL ∧ s.swapBusy = false ∧ s.redBusy = none ∧ s.isCond pl .isolated = true ∧ s.inState .test = true) ∧
    (∃ (s : State) (pl : Plane), s.reaches .mc rRED_CTL ∧ s.swapBusy = false ∧ s.redBusy = none ∧ (s.isCond pl .isolated = false ∨ s.inState .test = false)) ∧
    (∃ (s : State) (pl : Plane), s.reaches .mc rRED_CTL ∧ s.swapBusy = false ∧ s.redBusy = none ∧ s.isCond pl .isolated = false) ∧
    (∃ (s : State) (pl : Plane), s.reaches .mc rRED_CTL ∧ s.swapBusy = false ∧ s.redBusy = none ∧ s.isCond pl .inService = true ∧ s.lead ≠ pl) ∧
    (∃ (s : State) (pl : Plane), s.reaches .mc rRED_CTL ∧ s.swapBusy = false ∧ s.redBusy = none ∧ (s.isCond pl .inService = false ∨ s.lead = pl)) ∧
    (∃ (s : State) (pl : Plane), s.reaches .mc rRED_CTL ∧ s.redBusy = some (.test pl)) ∧
    (∃ (s : State), s.reaches .mc rRED_CTL ∧ s.redBusy = none) ∧
    (∃ (s : State) (pl : Plane), s.reaches .mc rRED_CTL ∧ s.redBusy = some (.rebuild pl) ∧ s.isCond (twinOf pl) .inService = true) ∧
    (∃ (s : State) (pl : Plane), s.reaches .mc rRED_CTL ∧ s.redBusy = some (.resync pl) ∧ s.isCond (twinOf pl) .inService = true) :=
  ⟨⟨(wRed (some (.test .A)) []), .A, (by unfold State.reaches; decide +kernel), (by first | decide +kernel | rfl), (Instr.redIsolate .mc (.A : Plane)), (by first | decide +kernel | rfl)⟩,
   ⟨(wRed none [(GLB_DEVSTATE_PB_COND,4)]), .B, (by unfold State.reaches; decide +kernel), (by first | decide +kernel | rfl), (by first | decide +kernel | rfl), (by first | decide +kernel | rfl)⟩,
   ⟨(wRed none []), .A, (by unfold State.reaches; decide +kernel), (by first | decide +kernel | rfl), (by first | decide +kernel | rfl), (by first | decide +kernel | rfl), (by first | decide +kernel | rfl), (by first | decide +kernel | rfl), (by first | decide +kernel | rfl)⟩,
   ⟨(wRed none [(GLB_DEVSTATE_PB_COND,2),(GLB_DEVSTATE_STATE,3)]), .B, (by unfold State.reaches; decide +kernel), (by first | decide +kernel | rfl), (by first | decide +kernel | rfl), (by first | decide +kernel | rfl), (by first | decide +kernel | rfl)⟩,
   ⟨(wRed none [(GLB_DEVSTATE_PB_COND,2),(GLB_DEVSTATE_STATE,3)]), .B, (by unfold State.reaches; decide +kernel), (by first | decide +kernel | rfl), (by first | decide +kernel | rfl), (by first | decide +kernel | rfl), (by first | decide +kernel | rfl)⟩,
   ⟨(wRed none []), .A, (by unfold State.reaches; decide +kernel), (by first | decide +kernel | rfl), (by first | decide +kernel | rfl), (by first | decide +kernel | rfl)⟩,
   ⟨(wRed none []), .A, (by unfold State.reaches; decide +kernel), (by first | decide +kernel | rfl), (by first | decide +kernel | rfl), (by first | decide +kernel | rfl)⟩,
   ⟨(wRed none []), .B, (by unfold State.reaches; decide +kernel), (by first | decide +kernel | rfl), (by first | decide +kernel | rfl), (by first | decide +kernel | rfl), (by first | decide +kernel | rfl)⟩,
   ⟨(wRed none []), .A, (by unfold State.reaches; decide +kernel), (by first | decide +kernel | rfl), (by first | decide +kernel | rfl), (by first | decide +kernel | rfl)⟩,
   ⟨(wRed (some (.test .A)) []), .A, (by unfold State.reaches; decide +kernel), (by first | decide +kernel | rfl)⟩,
   ⟨(wRed none []), (by unfold State.reaches; decide +kernel), (by first | decide +kernel | rfl)⟩,
   ⟨(wRed (some (.rebuild .B)) [(GLB_DEVSTATE_PB_COND,2)]), .B, (by unfold State.reaches; decide +kernel), (by first | decide +kernel | rfl), (by first | decide +kernel | rfl)⟩,
   ⟨(wRed (some (.resync .B)) [(GLB_DEVSTATE_PB_COND,3)]), .B, (by unfold State.reaches; decide +kernel), (by first | decide +kernel | rfl), (by first | decide +kernel | rfl)⟩⟩

theorem test_wit_TakebackAndRecoveryReset :
    (∃ (s : State) (pl : Plane), s.takeback = some pl ∧ s.takebackDue = true) ∧
    (∃ (s : State), (s.takeback = none ∨ s.takebackDue = false)) ∧
    (∃ (s : State) (e : Nat), e < 2048 ∧ s.flag (FRE_REC_CFG_VALID .A e) = true ∧ s.recTimeout e = true) ∧
    (∃ (s : State) (e : Nat), (s.flag (FRE_REC_CFG_VALID .A e) = false ∨ s.recTimeout e = false)) ∧
    (∃ (s : State) (r : Requester) (e : Nat), e < 2048 ∧ s.reaches r (rFRE_REC_STATE .A e)) ∧
    (∃ (s : State) (r : Requester) (e : Nat), e < 2048 ∧ s.reaches r (rFRE_REC_STATE .B e)) :=
  ⟨⟨(wPut {wOn with clk := 10000000000000} [(RED_STATUS_PREF_LEAD,1),(RED_TAKEBACK_MS,10)]), .B, (by first | decide +kernel | rfl), (by first | decide +kernel | rfl)⟩,
   ⟨wOn, (by first | decide +kernel | rfl)⟩,
   ⟨(wPut {wOn with recs := [(3,{RecSt.reset with timer := some 0, history := 5})], clk := 10000000000} [(FRE_REC_CFG_VALID .A 3,1),(FRE_REC_TMR_RESET_MS .A 3,5)]), 3, (by first | decide +kernel | rfl), (by first | decide +kernel | rfl), (by first | decide +kernel | rfl)⟩,
   ⟨wOn, 0, (by first | decide +kernel | rfl)⟩,
   ⟨wOn, .mc, 0, (by first | decide +kernel | rfl), (by unfold State.reaches; decide +kernel)⟩,
   ⟨wOn, .mc, 0, (by first | decide +kernel | rfl), (by unfold State.reaches; decide +kernel)⟩⟩

end W09

namespace W10
/-- Data of the witnesses below. -/
def wMsg (k : CanKind) (d : List Byte) : CanMsg := ⟨k, false, false, false, false, 0x123, 0, 0, 0, false, 8, d⟩
/-- Data of the witnesses below. -/
def wCe (b : Bool) (f : Option Frame) (ch : Option Nat) (id : Nat) : CanTx := ⟨{ wMsg .classic [1,2,3,4,5,6,7,8] with id := id }, 0, 0, b, ch, f, []⟩
/-- Data of the witnesses below. -/
def wCan (x : CanSt) (l : List (Fld × Nat)) : State := { wPut wCh ([(CAN_STATUS_LINK 0, 1), (CAN_CFG_MODE 0, 2)] ++ l) with cans := [(0, x)] }
/-- Data of the witnesses below. -/
def wZi : State := { wPut wCh [(CAN_STATUS_LINK 0, 1), (CAN_CFG_MODE 0, 2)] with active := wImg [(0x01, 0x500, [(16 * 32 + 2, [1])]), (0x0C, 0x4000, [(1216, [0, 3])])] }
/-- Data of the witnesses below. -/
def wZs (m : CanMsg) (s : State) : State := ((s.setCan 0 (chanOffBus (s.can 0))).canRxGood 0).inc (CAN_RX_MSG_CNT_VAL 0)
/-- Data of the witnesses below. -/
def wLate (x : CanSt) (l : List (Fld × Nat)) : State := { wPut (wCan x l) [(BPM_RESLIM_TC_LIMIT_US .A 0, 1)] with tbs := List.replicate 4 { TimeBase.reset with now := ⟨5, 0, 0⟩ } }

theorem test_wit_CanErrorConfinement :
    (∃ (s : State) (n : Nat) (e : CanErr), n < 32 ∧ s.linkUp (32 + n) = true ∧ e.transmitting = true ∧ (s.can n).txbuf.any (fun k => k.onBus) = true ∧ e.alt = false ∧ (s.can n).tecN + 8 < 256) ∧
    (∃ (s : State) (n : Nat) (e : CanErr), n < 32 ∧ s.linkUp (32 + n) = true ∧ e.transmitting = true ∧ (s.can n).txbuf.any (fun k => k.onBus) = true ∧ e.alt = false ∧ 256 ≤ (s.can n).tecN + 8) ∧
    (∃ (s : State) (n : Nat) (e : CanErr), n < 32 ∧ s.linkUp (32 + n) = true ∧ e.transmitting = false ∧ (s.can n).tecN < 128 ∧ (s.can n).recN < 120) ∧
    (∃ (s : State) (n : Nat), n < 32 ∧ s.linkUp (32 + n) = false) ∧
    (∃ (s : State) (r : Requester) (n : Nat), n < 32 ∧ s.reaches r (rCAN_CTL n) ∧ s.fld (CAN_STATUS_STATE n) = 2) ∧
    (∃ (s : State) (r : Requester) (n : Nat), n < 32 ∧ s.reaches r (rCAN_CTL n) ∧ s.fld (CAN_STATUS_STATE n) ≠ 2) ∧
    (∃ (s : State) (n : Nat), n < 32 ∧ s.fld (CAN_STATUS_STATE n) = 2 ∧ (s.can n).recovering = true ∧ s.lowPower (32 + n) = false) ∧
    (∃ (s : State) (n : Nat), n < 32 ∧ (s.fld (CAN_STATUS_STATE n) ≠ 2 ∨ (s.can n).recovering = false ∨ s.lowPower (32 + n) = true)) :=
  ⟨⟨(wCan {CanSt.reset with tecN := 0, txbuf := [wCe true none none 5]} []), 0, ⟨3, true, false⟩, (by first | decide +kernel | rfl), (by first | decide +kernel | rfl), (by first | decide +kernel | rfl), (by first | decide +kernel | rfl), (by first | decide +kernel | rfl), (by first | decide +kernel | rfl)⟩,
   ⟨(wCan {CanSt.reset with tecN := 250, txbuf := [wCe true none none 5]} []), 0, ⟨3, true, false⟩, (by first | decide +kernel | rfl), (by first | decide +kernel | rfl), (by first | decide +kernel | rfl), (by first | decide +kernel | rfl), (by first | decide +kernel | rfl), (by first | decide +kernel | rfl)⟩,
   ⟨(wCan {CanSt.reset with tecN := 0, txbuf := [wCe true none none 5]} []), 0, ⟨7, false, true⟩, (by first | decide +kernel | rfl), (by first | decide +kernel | rfl), (by first | decide +kernel | rfl), (by first | decide +kernel | rfl), (by first | decide +kernel | rfl)⟩,
   ⟨wCh, 0, (by first | decide +kernel | rfl), (by first | decide +kernel | rfl)⟩,
   ⟨(wCan {CanSt.reset with tecN := 256} [(CAN_STATUS_STATE 0,2),(CAN_STATUS_LINK 0,0)]), .mc, 0, (by first | decide +kernel | rfl), (by unfold State.reaches; decide +kernel), (by first | decide +kernel | rfl)⟩,
   ⟨wCh, .mc, 0, (by first | decide +kernel | rfl), (by unfold State.reaches; decide +kernel), (by first | decide +kernel | rfl)⟩,
   ⟨(wCan {CanSt.reset with recovering := true, tecN := 256} [(CAN_STATUS_STATE 0,2),(CAN_STATUS_LINK 0,0)]), 0, (by first | decide +kernel | rfl), (by first | decide +kernel | rfl), (by first | decide +kernel | rfl), (by first | decide +kernel | rfl)⟩,
   ⟨wCh, 0, (by first | decide +kernel | rfl), (by first | decide +kernel | rfl)⟩⟩

theorem test_wit_CanTransmitBuffer :
    (∃ (s : State) (n : Nat) (w : CanTx), n < 32 ∧ s.linkUp (32 + n) = true ∧ s.trxMode n = 0 ∧ (s.can n).chimeDue = none ∧ (s.can n).txbuf.all (fun k => !s.canExpired k && !k.onBus) = true ∧ arbWinner (s.can n).txbuf = some w) ∧
    (∃ (s : State) (n : Nat) (w : CanTx), n < 32 ∧ s.linkUp (32 + n) = true ∧ s.trxMode n = 0 ∧ (s.can n).txbuf = [w] ∧ (s.can n).chimeDue = none ∧ s.canExpired w = true) ∧
    (∃ (s : State) (n : Nat), n < 32 ∧ (s.linkUp (32 + n) = false ∨ s.trxMode n ≠ 0)) ∧
    (∃ (s : State) (n : Nat) (e : Nat) (w : CanTx), n < 32 ∧ (s.can n).txbuf.find? (fun e => e.onBus) = some w ∧ w.chime = none ∧ (s.can n).chimeDue = none) ∧
    (∃ (s : State) (n : Nat) (e : Nat), n < 32 ∧ (s.can n).txbuf.any (fun e => e.onBus) = false) ∧
    (∃ (s : State) (r : Requester) (n : Nat), n < 32 ∧ s.reaches r (rCAN_CTL n) ∧ s.flag (CAN_CTL_ADMIN_DOWN n) = true) ∧
    (∃ (s : State) (n : Nat), n < 32 ∧ s.portOn (32 + n) = true ∧ (s.can n).joining = true ∧ s.lowPower (32 + n) = false) ∧
    (∃ (s : State) (n : Nat), n < 32 ∧ (s.can n).joining = false) :=
  ⟨⟨(wCan {CanSt.reset with txbuf := [wCe false none none 9, wCe false none none 5]} []), 0, (wCe false none none 5), (by first | decide +kernel | rfl), (by first | decide +kernel | rfl), (by first | decide +kernel | rfl), (by first | decide +kernel | rfl), (by first | decide +kernel | rfl), (by first | decide +kernel | rfl)⟩,
   ⟨(wLate {CanSt.reset with txbuf := [{wCe false none none 9 with time := 0}]} [(TIM_TB_CTL_EN 1,1)]), 0, (wCe false none none 9), (by first | decide +kernel | rfl), (by first | decide +kernel | rfl), (by first | decide +kernel | rfl), (by first | decide +kernel | rfl), (by first | decide +kernel | rfl), (by first | decide +kernel | rfl)⟩,
   ⟨wCh, 0, (by first | decide +kernel | rfl), (by first | decide +kernel | rfl)⟩,
   ⟨(wCan {CanSt.reset with txbuf := [wCe true none none 5, wCe false none none 6, wCe false none (some 3) 7], tecN := 4} []), 0, 3, (wCe true none none 5), (by first | decide +kernel | rfl), (by first | decide +kernel | rfl), (by first | decide +kernel | rfl), (by first | decide +kernel | rfl)⟩,
   ⟨wCh, 0, 3, (by first | decide +kernel | rfl), (by first | decide +kernel | rfl)⟩,
   ⟨(wCan {CanSt.reset with joining := true} [(CAN_CTL_ADMIN_DOWN 0,1)]), .mc, 0, (by first | decide +kernel | rfl), (by unfold State.reaches; decide +kernel), (by first | decide +kernel | rfl)⟩,
   ⟨(wCan {CanSt.reset with joining := true} [(CAN_STATUS_LINK 0,0)]), 0, (by first | decide +kernel | rfl), (by first | decide +kernel | rfl), (by first | decide +kernel | rfl), (by first | decide +kernel | rfl)⟩,
   ⟨wCh, 0, (by first | decide +kernel | rfl), (by first | decide +kernel | rfl)⟩⟩

theorem test_wit_CanMessageIsAccepted :
    (∃ (s : State) (n : Nat), n < 32 ∧ s.linkUp (32 + n) = false) ∧
    (∃ (s : State) (n : Nat) (m : CanMsg), n < 32 ∧ s.linkUp (32 + n) = true ∧ s.formatExceeds n m.fmt = true) ∧
    (∃ (s : State) (s0 : State) (n : Nat) (m : CanMsg), n < 32 ∧ s.linkUp (32 + n) = true ∧ s.formatExceeds n m.fmt = false ∧ s0 = ((s.setCan n (chanOffBus (s.can n))).canRxGood n).inc (CAN_RX_MSG_CNT_VAL n) ∧ (s.can n).recN ≤ 127 ∧ s.flag (CAN_STATUS_FROZEN n) = false) ∧
    (∃ (s : State) (s0 : State) (n : Nat) (m : CanMsg), n < 32 ∧ s.linkUp (32 + n) = true ∧ s.formatExceeds n m.fmt = false ∧ s0 = ((s.setCan n (chanOffBus (s.can n))).canRxGood n).inc (CAN_RX_MSG_CNT_VAL n) ∧ s0.chimeCluster n m = none ∧ m.kind = .xl ∧ s0.canFlag n 2 = false ∧ s0.canFlag n 4 = true ∧ m.sdt = sec8 s0.active tyLEGACY 1 ∧ m.data.length < 14) ∧
    (∃ (s : State) (s0 : State) (n : Nat) (m : CanMsg), n < 32 ∧ s.linkUp (32 + n) = true ∧ s.formatExceeds n m.fmt = false ∧ s0 = ((s.setCan n (chanOffBus (s.can n))).canRxGood n).inc (CAN_RX_MSG_CNT_VAL n) ∧ s0.chimeCluster n m = none ∧ m.kind = .xl ∧ s0.canFlag n 2 = false ∧ s0.canFlag n 4 = true ∧ m.sdt = sec8 s0.active tyLEGACY 1 ∧ 14 ≤ m.data.length) ∧
    (∃ (s : State) (s0 : State) (n : Nat) (m : CanMsg), n < 32 ∧ s.linkUp (32 + n) = true ∧ s.formatExceeds n m.fmt = false ∧ s0 = ((s.setCan n (chanOffBus (s.can n))).canRxGood n).inc (CAN_RX_MSG_CNT_VAL n) ∧ ∃ s2, s0.chimeCluster n m = none ∧ m.kind ≠ .xl ∧ s0.canList n false m.ext (m.id % 2 ^ 29) = (s2, .pass) ∧ s2.canFlag n 1 = true ∧ s2.canFlag n 2 = false) ∧
    (∃ (s : State) (s0 : State) (n : Nat) (m : CanMsg), n < 32 ∧ s.linkUp (32 + n) = true ∧ s.formatExceeds n m.fmt = false ∧ s0 = ((s.setCan n (chanOffBus (s.can n))).canRxGood n).inc (CAN_RX_MSG_CNT_VAL n) ∧ ∃ s2, s0.chimeCluster n m = none ∧ m.kind ≠ .xl ∧ s0.canList n false m.ext (m.id % 2 ^ 29) = (s2, .pass) ∧ s2.canFlag n 1 = false ∧ s2.canFlag n 2 = true) ∧
    (∃ (s : State) (s0 : State) (n : Nat) (m : CanMsg), n < 32 ∧ s.linkUp (32 + n) = true ∧ s.formatExceeds n m.fmt = false ∧ s0 = ((s.setCan n (chanOffBus (s.can n))).canRxGood n).inc (CAN_RX_MSG_CNT_VAL n) ∧ ∃ s2, s0.chimeCluster n m = none ∧ m.kind ≠ .xl ∧ s0.canList n false m.ext (m.id % 2 ^ 29) = (s2, .pass) ∧ s2.canFlag n 1 = false ∧ s2.canFlag n 2 = false) ∧
    (∃ (s : State) (s0 : State) (n : Nat) (m : CanMsg), n < 32 ∧ s.linkUp (32 + n) = true ∧ s.formatExceeds n m.fmt = false ∧ s0 = ((s.setCan n (chanOffBus (s.can n))).canRxGood n).inc (CAN_RX_MSG_CNT_VAL n) ∧ ∃ s2 v, s0.chimeCluster n m = none ∧ m.kind ≠ .xl ∧ s0.canList n false m.ext (m.id % 2 ^ 29) = (s2, v) ∧ v ≠ .pass) :=
  ⟨⟨wCh, 0, (by first | decide +kernel | rfl), (by first | decide +kernel | rfl)⟩,
   ⟨(wCan CanSt.reset [(CAN_CFG_MODE 0,0)]), 0, (wMsg .xl [1]), (by first | decide +kernel | rfl), (by first | decide +kernel | rfl), (by first | decide +kernel | rfl)⟩,
   ⟨wZi, (wZs (wMsg .xl [1]) wZi), 0, (wMsg .xl [1]), (by first | decide +kernel | rfl), (by first | decide +kernel | rfl), (by first | decide +kernel | rfl), (by first | rfl | decide +kernel), (by first | decide +kernel | rfl), (by first | decide +kernel | rfl)⟩,
   ⟨(wPut wZi [(CAN_CFG_FLAGS 0,16)]), (wZs (wMsg .xl [1]) (wPut wZi [(CAN_CFG_FLAGS 0,16)])), 0, (wMsg .xl [1]), (by first | decide +kernel | rfl), (by first | decide +kernel | rfl), (by first | decide +kernel | rfl), (by first | rfl | decide +kernel), (by first | decide +kernel | rfl), (by first | decide +kernel | rfl), (by first | decide +kernel | rfl), (by first | decide +kernel | rfl), (by first | decide +kernel | rfl), (by first | decide +kernel | rfl)⟩,
   ⟨(wPut wZi [(CAN_CFG_FLAGS 0,16)]), (wZs (wMsg .xl (List.replicate 64 1)) (wPut wZi [(CAN_CFG_FLAGS 0,16)])), 0, (wMsg .xl (List.replicate 64 1)), (by first | decide +kernel | rfl), (by first | decide +kernel | rfl), (by first | decide +kernel | rfl), (by first | rfl | decide +kernel), (by first | decide +kernel | rfl), (by first | decide +kernel | rfl), (by first | decide +kernel | rfl), (by first | decide +kernel | rfl), (by first | decide +kernel | rfl), (by first | decide +kernel | rfl)⟩,
   ⟨(wCan {CanSt.reset with recN := 5} [(CAN_CFG_FLAGS 0,2)]), (wZs (wMsg .classic [1,2,3,4,5,6,7,8]) (wCan {CanSt.reset with recN := 5} [(CAN_CFG_FLAGS 0,2)])), 0, (wMsg .classic [1,2,3,4,5,6,7,8]), (by first | decide +kernel | rfl), (by first | decide +kernel | rfl), (by first | decide +kernel | rfl), (by first | rfl | decide +kernel), (((wZs (wMsg .classic [1,2,3,4,5,6,7,8]) (wCan {CanSt.reset with recN := 5} [(CAN_CFG_FLAGS 0,2)])) : State).canList (0 : Nat) false ((wMsg .classic [1,2,3,4,5,6,7,8]) : CanMsg).ext (((wMsg .classic [1,2,3,4,5,6,7,8]) : CanMsg).id % 2 ^ 29)).1, (by first | decide +kernel | rfl), (by first | decide +kernel | rfl), (pairLit (by decide +kernel)), (by first | decide +kernel | rfl), (by first | decide +kernel | rfl)⟩,
   ⟨(wCan {CanSt.reset with recN := 0} [(CAN_CFG_FLAGS 0,4)]), (wZs (wMsg .classic [1,2,3,4,5,6,7,8]) (wCan {CanSt.reset with recN := 0} [(CAN_CFG_FLAGS 0,4)])), 0, (wMsg .classic [1,2,3,4,5,6,7,8]), (by first | decide +kernel | rfl), (by first | decide +kernel | rfl), (by first | decide +kernel | rfl), (by first | rfl | decide +kernel), (((wZs (wMsg .classic [1,2,3,4,5,6,7,8]) (wCan {CanSt.reset with recN := 0} [(CAN_CFG_FLAGS 0,4)])) : State).canList (0 : Nat) false ((wMsg .classic [1,2,3,4,5,6,7,8]) : CanMsg).ext (((wMsg .classic [1,2,3,4,5,6,7,8]) : CanMsg).id % 2 ^ 29)).1, (by first | decide +kernel | rfl), (by first | decide +kernel | rfl), (pairLit (by decide +kernel)), (by first | decide +kernel | rfl), (by first | decide +kernel | rfl)⟩,
   ⟨(wCan {CanSt.reset with recN := 0} [(CAN_CFG_FLAGS 0,0)]), (wZs (wMsg .classic [1,2,3,4,5,6,7,8]) (wCan {CanSt.reset with recN := 0} [(CAN_CFG_FLAGS 0,0)])), 0, (wMsg .classic [1,2,3,4,5,6,7,8]), (by first | decide +kernel | rfl), (by first | decide +kernel | rfl), (by first | decide +kernel | rfl), (by first | rfl | decide +kernel), (((wZs (wMsg .classic [1,2,3,4,5,6,7,8]) (wCan {CanSt.reset with recN := 0} [(CAN_CFG_FLAGS 0,0)])) : State).canList (0 : Nat) false ((wMsg .classic [1,2,3,4,5,6,7,8]) : CanMsg).ext (((wMsg .classic [1,2,3,4,5,6,7,8]) : CanMsg).id % 2 ^ 29)).1, (by first | decide +kernel | rfl), (by first | decide +kernel | rfl), (pairLit (by decide +kernel)), (by first | decide +kernel | rfl), (by first | decide +kernel | rfl)⟩,
   ⟨wZi, (wZs (wMsg .classic [1,2,3,4,5,6,7,8]) wZi), 0, (wMsg .classic [1,2,3,4,5,6,7,8]), (by first | decide +kernel | rfl), (by first | decide +kernel | rfl), (by first | decide +kernel | rfl), (by first | rfl | decide +kernel), (((wZs (wMsg .classic [1,2,3,4,5,6,7,8]) wZi) : State).canList (0 : Nat) false ((wMsg .classic [1,2,3,4,5,6,7,8]) : CanMsg).ext (((wMsg .classic [1,2,3,4,5,6,7,8]) : CanMsg).id % 2 ^ 29)).1, (((wZs (wMsg .classic [1,2,3,4,5,6,7,8]) wZi) : State).canList (0 : Nat) false ((wMsg .classic [1,2,3,4,5,6,7,8]) : CanMsg).ext (((wMsg .classic [1,2,3,4,5,6,7,8]) : CanMsg).id % 2 ^ 29)).2, (by first | decide +kernel | rfl), (by first | decide +kernel | rfl), rfl, (by first | decide +kernel | rfl)⟩⟩

end W10

namespace W11
/-- Data of the witnesses below. -/
def wLin (x : LinSt) (l : List (Fld × Nat)) : State := { wPut wOn ([(LIN_STATUS_LINK 0, 1)] ++ l) with lins := [(0, x)], active := wImg [(0x01, 0x500, [(16 * 64 + 2, [1]), (16 * 32 + 2, [1])]), (0x0D, 0x4000, [(1296 + 10, [2, 3, 0, 2]), (1296 + 26, [1, 2, 6, 2, 2, 3])])] }
/-- Data of the witnesses below. -/
def wUn (r : List Byte) : Unpack := ⟨{ wFrame 64 with inPort := 3 }, r⟩
/-- Data of the witnesses below. -/
def wCn (x : CanSt) : State := { wPut wCh [(CAN_STATUS_LINK 0, 1)] with cans := [(0, x)] }
/-- Data of the witnesses below. -/
def wAcf (s : State) : State × State × State :=
  let s1 := s.setCan 0 { s.can 0 with batch := [], batchN := 0, acfSeq := ((s.can 0).acfSeq + 1) % 256 }
  let s2 := s1.inc (CAN_ACF_SENT_CNT_VAL 0)
  let n := 0
  (s1, s2, (s2.receive (32 + n) true (legacyHeader 3 (32 + n) (s.can n).batchN 0 (s.avtpdu (32 + n) (s.can n).batch
          (s.can n).acfSeq).length 0 0 0 0 s.nowCt ++ s.avtpdu (32 + n) (s.can n).batch (s.can n).acfSeq) s2.stamp 0 none).1)
/-- Data of the witnesses below. -/
def wPo : PlaneSt := { PlaneSt.empty with pools := [⟨[4, 3], 5, 9, false, [], []⟩, ⟨[], 0, 0, false, [], []⟩, ⟨[], 0, 0, false, [], []⟩, ⟨[], 0, 0, false, [], []⟩] }

theorem test_wit_LinLinkAndSchedule :
    (∃ (s : State) (r : Requester) (n : Nat) (sel : Nat), n < 16 ∧ s.reaches r (rLIN_CTL n) ∧ sel % 4 < s.linRec n 10 1) ∧
    (∃ (s : State) (r : Requester) (n : Nat) (sel : Nat), n < 16 ∧ s.reaches r (rLIN_CTL n) ∧ s.linRec n 10 1 ≤ sel % 4) ∧
    (∃ (s : State) (r : Requester) (n : Nat), n < 16 ∧ s.reaches r (rLIN_CTL n) ∧ s.flag (LIN_CFG_ROLE n) = true) ∧
    (∃ (s : State) (r : Requester) (n : Nat), n < 16 ∧ s.reaches r (rLIN_CTL n) ∧ s.flag (LIN_CFG_ROLE n) = false) ∧
    (∃ (s : State) (n : Nat), n < 16 ∧ s.portEnabled (64 + n) = true) ∧
    (∃ (s : State) (n : Nat), n < 16 ∧ s.flag (LIN_STATUS_DOMINANT n) = true) ∧
    (∃ (s : State) (n : Nat), n < 16 ∧ s.flag (LIN_STATUS_DOMINANT n) = false) ∧
    (∃ (s : State) (n : Nat) (run : Bool), n < 16 ∧ s.flag (LIN_CFG_ROLE n) = true ∧ s.linkUp (64 + n) = true ∧ (s.lin n).sleepCmd = false ∧ (s.lin n).run = some false) ∧
    (∃ (s : State) (n : Nat) (run : Bool), n < 16 ∧ s.flag (LIN_CFG_ROLE n) = true ∧ s.linkUp (64 + n) = true ∧ (s.lin n).sleepCmd = false ∧ (s.lin n).run = none ∧ s.flag (LIN_STATUS_RUNNING n) = false) ∧
    (∃ (s : State) (n : Nat) (sel : Nat) (run : Bool), n < 16 ∧ s.flag (LIN_CFG_ROLE n) = true ∧ s.linkUp (64 + n) = true ∧ (s.lin n).sleepCmd = false ∧ (s.lin n).run = some true ∧ s.flag (LIN_STATUS_RUNNING n) = false ∧ (s.lin n).sel = some sel ∧ sel < 4 ∧ (s.linTable n sel).1 < (s.linTable n sel).2) ∧
    (∃ (s : State) (n : Nat), n < 16 ∧ s.flag (LIN_CFG_ROLE n) = true ∧ s.linkUp (64 + n) = true ∧ (s.lin n).sleepCmd = true) :=
  ⟨⟨(wLin {LinSt.reset with sel := none} []), .mc, 0, 1, (by first | decide +kernel | rfl), (by unfold State.reaches; decide +kernel), (by first | decide +kernel | rfl)⟩,
   ⟨(wLin {LinSt.reset with sel := none} []), .mc, 0, 2, (by first | decide +kernel | rfl), (by unfold State.reaches; decide +kernel), (by first | decide +kernel | rfl)⟩,
   ⟨(wLin {LinSt.reset with sel := none} [(LIN_CFG_ROLE 0,1)]), .mc, 0, (by first | decide +kernel | rfl), (by unfold State.reaches; decide +kernel), (by first | decide +kernel | rfl)⟩,
   ⟨(wLin {LinSt.reset with sel := none} []), .mc, 0, (by first | decide +kernel | rfl), (by unfold State.reaches; decide +kernel), (by first | decide +kernel | rfl)⟩,
   ⟨(wLin {LinSt.reset with sel := none} []), 0, (by first | decide +kernel | rfl), (by first | decide +kernel | rfl)⟩,
   ⟨(wLin {LinSt.reset with sel := none} [(LIN_STATUS_DOMINANT 0,1),(LIN_STATUS_LINK 0,0),(LIN_CTL_ADMIN_DOWN 0,1)]), 0, (by first | decide +kernel | rfl), (by first | decide +kernel | rfl)⟩,
   ⟨(wLin {LinSt.reset with sel := none} []), 0, (by first | decide +kernel | rfl), (by first | decide +kernel | rfl)⟩,
   ⟨(wLin {LinSt.reset with run := some false} [(LIN_CFG_ROLE 0,1),(LIN_STATUS_RUNNING 0,1)]), 0, true, (by first | decide +kernel | rfl), (by first | decide +kernel | rfl), (by first | decide +kernel | rfl), (by first | decide +kernel | rfl), (by first | decide +kernel | rfl)⟩,
   ⟨(wLin {LinSt.reset with sel := none} [(LIN_CFG_ROLE 0,1)]), 0, true, (by first | decide +kernel | rfl), (by first | decide +kernel | rfl), (by first | decide +kernel | rfl), (by first | decide +kernel | rfl), (by first | decide +kernel | rfl), (by first | decide +kernel | rfl)⟩,
   ⟨(wLin {LinSt.reset with run := some true, sel := some 1} [(LIN_CFG_ROLE 0,1)]), 0, 1, true, (by first | decide +kernel | rfl), (by first | decide +kernel | rfl), (by first | decide +kernel | rfl), (by first | decide +kernel | rfl), (by first | decide +kernel | rfl), (by first | decide +kernel | rfl), (by first | decide +kernel | rfl), (by first | decide +kernel | rfl), (by first | decide +kernel | rfl)⟩,
   ⟨(wLin {LinSt.reset with sleepCmd := true} [(LIN_CFG_ROLE 0,1),(LIN_STATUS_RUNNING 0,1)]), 0, (by first | decide +kernel | rfl), (by first | decide +kernel | rfl), (by first | decide +kernel | rfl), (by first | decide +kernel | rfl)⟩⟩

theorem test_wit_LinHeadersAndResponses :
    (∃ (s : State) (n : Nat) (pid : Nat), n < 16 ∧ (s.flag (LIN_CFG_ROLE n) = true ∨ s.linkUp (64 + n) = false ∨ pid ≠ linPid (pid % 64))) ∧
    (∃ (s : State) (n : Nat) (pid : Nat), n < 16 ∧ s.flag (LIN_CFG_ROLE n) = false ∧ s.linkUp (64 + n) = true ∧ pid = linPid (pid % 64) ∧ s.linDir n (pid % 64) = 1) ∧
    (∃ (s : State) (n : Nat) (pid : Nat) (d : List Byte), n < 16 ∧ s.flag (LIN_CFG_ROLE n) = false ∧ s.linkUp (64 + n) = true ∧ pid = linPid (pid % 64) ∧ s.linDir n (pid % 64) = 2 ∧ s.linResp n (pid % 64) = some d) ∧
    (∃ (s : State) (n : Nat) (pid : Nat), n < 16 ∧ s.flag (LIN_CFG_ROLE n) = false ∧ s.linkUp (64 + n) = true ∧ pid = linPid (pid % 64) ∧ s.linDir n (pid % 64) = 2 ∧ s.linResp n (pid % 64) = none) ∧
    (∃ (s : State) (n : Nat) (id : Nat) (d : List Byte), n < 16 ∧ s.linkUp (64 + n) = true ∧ (s.lin n).due = some id ∧ s.linResp n id = some d) ∧
    (∃ (s : State) (n : Nat), n < 16 ∧ s.linkUp (64 + n) = true ∧ (s.lin n).due = none) ∧
    (∃ (s : State) (n : Nat) (id : Nat) (d : List Byte) (e : LinErr), n < 16 ∧ s.linkUp (64 + n) = true ∧ (s.lin n).sending = some (id, d) ∧ e ≠ .bit ∧ e ≠ .start) ∧
    (∃ (s : State) (n : Nat), n < 16 ∧ s.linkUp (64 + n) = false) ∧
    (∃ (s : State) (n : Nat) (id : Nat) (d : List Byte) (e : LinErr), n < 16 ∧ s.linkUp (64 + n) = true ∧ (s.lin n).sending = none ∧ (s.lin n).await = some id ∧ e = .none ∧ d.length = s.linLen n id) ∧
    (∃ (s : State) (n : Nat) (id : Nat) (d : List Byte) (e : LinErr), n < 16 ∧ s.linkUp (64 + n) = true ∧ (s.lin n).sending = none ∧ (s.lin n).await = some id ∧ e = .none ∧ d.length < s.linLen n id) ∧
    (∃ (s : State) (n : Nat) (id : Nat), n < 16 ∧ (s.lin n).await = some id) ∧
    (∃ (s : State) (n : Nat), n < 16 ∧ (s.lin n).await = none) :=
  ⟨⟨wCh, 0, 6, (by first | decide +kernel | rfl), (by first | decide +kernel | rfl)⟩,
   ⟨(wLin {LinSt.reset with sel := none} []), 0, (linPid 5), (by first | decide +kernel | rfl), (by first | decide +kernel | rfl), (by first | decide +kernel | rfl), (by first | rfl | decide +kernel), (by first | decide +kernel | rfl)⟩,
   ⟨(wLin {LinSt.reset with sel := none} [(LIN_RESP_W0_DATA 0 6,0x0201),(LIN_RESP_W2_LEN 0 6,2),(LIN_RESP_W2_VALID 0 6,1)]), 0, 6, [1,2], (by first | decide +kernel | rfl), (by first | decide +kernel | rfl), (by first | decide +kernel | rfl), (by first | rfl | decide +kernel), (by first | decide +kernel | rfl), (by first | decide +kernel | rfl)⟩,
   ⟨(wLin {LinSt.reset with sel := none} []), 0, 6, (by first | decide +kernel | rfl), (by first | decide +kernel | rfl), (by first | decide +kernel | rfl), (by first | rfl | decide +kernel), (by first | decide +kernel | rfl), (by first | decide +kernel | rfl)⟩,
   ⟨(wLin {LinSt.reset with due := some 6} [(LIN_RESP_W0_DATA 0 6,0x0201),(LIN_RESP_W2_LEN 0 6,2),(LIN_RESP_W2_VALID 0 6,1)]), 0, 6, [1,2], (by first | decide +kernel | rfl), (by first | decide +kernel | rfl), (by first | decide +kernel | rfl), (by first | decide +kernel | rfl)⟩,
   ⟨(wLin {LinSt.reset with sel := none} []), 0, (by first | decide +kernel | rfl), (by first | decide +kernel | rfl), (by first | decide +kernel | rfl)⟩,
   ⟨(wLin {LinSt.reset with sending := some (6,[1,2,3])} []), 0, 6, [1,2,3], .none, (by first | decide +kernel | rfl), (by first | decide +kernel | rfl), (by first | decide +kernel | rfl), (by first | decide +kernel | rfl), (by first | decide +kernel | rfl)⟩,
   ⟨wCh, 0, (by first | decide +kernel | rfl), (by first | decide +kernel | rfl)⟩,
   ⟨(wLin {LinSt.reset with await := some 5} []), 0, 5, [1,2], .none, (by first | decide +kernel | rfl), (by first | decide +kernel | rfl), (by first | decide +kernel | rfl), (by first | decide +kernel | rfl), (by first | rfl | decide +kernel), (by first | decide +kernel | rfl)⟩,
   ⟨(wLin {LinSt.reset with await := some 5} []), 0, 5, [], .none, (by first | decide +kernel | rfl), (by first | decide +kernel | rfl), (by first | decide +kernel | rfl), (by first | decide +kernel | rfl), (by first | rfl | decide +kernel), (by first | decide +kernel | rfl)⟩,
   ⟨(wLin {LinSt.reset with await := some 5} []), 0, 5, (by first | decide +kernel | rfl), (by first | decide +kernel | rfl)⟩,
   ⟨wCh, 0, (by first | decide +kernel | rfl), (by first | decide +kernel | rfl)⟩⟩

theorem test_wit_AcfBatchesAndUnpacking :
    (∃ (s : State) (n : Nat), n < 32 ∧ (s.can n).batchN = 0) ∧
    (∃ (s : State) (n : Nat), n < 32 ∧ n < 16 ∧ (s.lin n).batchN = 0) ∧
    (∃ (s : State) (s1 : State) (s2 : State) (s3 : State) (n : Nat), n < 32 ∧ (s.can n).batchN ≠ 0 ∧ s1 = s.setCan n { s.can n with batch := [], batchN := 0, acfSeq := ((s.can n).acfSeq + 1) % 256 } ∧ s2 = s1.inc (CAN_ACF_SENT_CNT_VAL n) ∧ s2.receive (32 + n) true (legacyHeader 3 (32 + n) (s.can n).batchN 0 (s.avtpdu (32 + n) (s.can n).batch (s.can n).acfSeq).length 0 0 0 0 s.nowCt ++ s.avtpdu (32 + n) (s.can n).batch (s.can n).acfSeq) s2.stamp 0 none = (s3, true)) ∧
    (∃ (s : State) (s1 : State) (s2 : State) (s3 : State) (n : Nat), n < 32 ∧ (s.can n).batchN ≠ 0 ∧ s1 = s.setCan n { s.can n with batch := [], batchN := 0, acfSeq := ((s.can n).acfSeq + 1) % 256 } ∧ s2 = s1.inc (CAN_ACF_SENT_CNT_VAL n) ∧ s2.receive (32 + n) true (legacyHeader 3 (32 + n) (s.can n).batchN 0 (s.avtpdu (32 + n) (s.can n).batch (s.can n).acfSeq).length 0 0 0 0 s.nowCt ++ s.avtpdu (32 + n) (s.can n).batch (s.can n).acfSeq) s2.stamp 0 none = (s3, false)) ∧
    (∃ (s : State) (n : Nat), n < 32 ∧ (s.can n).unpack = none) ∧
    (∃ (s : State) (n : Nat), n < 32 ∧ n < 16 ∧ (s.lin n).unpack = none) ∧
    (∃ (s : State) (n : Nat) (u : Unpack), n < 32 ∧ (s.can n).unpack = some u ∧ u.rest = []) ∧
    (∃ (s : State) (n : Nat) (u : Unpack), n < 32 ∧ (s.can n).unpack = some u ∧ u.rest ≠ [] ∧ (4 * (byteAt u.rest 0 % 2 * 256 + byteAt u.rest 1) = 0 ∨ u.rest.length < 2 ∨ u.rest.length < 4 * (byteAt u.rest 0 % 2 * 256 + byteAt u.rest 1))) ∧
    (∃ (s : State) (n : Nat) (u : Unpack), n < 32 ∧ (s.can n).unpack = some u ∧ ∃ len, len = 4 * (byteAt u.rest 0 % 2 * 256 + byteAt u.rest 1) ∧ 0 < len ∧ len < u.rest.length ∧ byteAt u.rest 0 / 2 ≠ 1 ∧ byteAt u.rest 0 / 2 ≠ 2) ∧
    (∃ (s : State) (n : Nat) (u : Unpack), n < 32 ∧ (s.can n).unpack = some u ∧ ∃ len m, len = 4 * (byteAt u.rest 0 % 2 * 256 + byteAt u.rest 1) ∧ 8 ≤ len ∧ len ≤ u.rest.length ∧ byteAt u.rest 0 / 2 = 2 ∧ byteAt (u.rest.take len) 3 % 32 = s.acfBus (32 + n) ∧ m = acfCanMsg (u.rest.take len) 8 ∧ s.formatExceeds n m.fmt = false ∧ m.data.length ≤ (if m.kind = .classic then 8 else 64) ∧ s.txbufUsed n < 32 ∧ ∃ s4, s.canList n true m.ext m.id = (s4, .pass)) ∧
    (∃ (s : State) (n : Nat) (u : Unpack), n < 32 ∧ n < 16 ∧ (s.lin n).unpack = some u ∧ u.rest = []) :=
  ⟨⟨({ wPut (wCn {CanSt.reset with txbuf := []}) [(BPM_POOL_CFG_COUNT .A 0, 9)] with planeA := wPo, lins := [(0, {LinSt.reset with unpack := some (wUn [])})] }), 0, (by first | decide +kernel | rfl), (by first | decide +kernel | rfl)⟩,
   ⟨({ wPut (wCn {CanSt.reset with txbuf := []}) [(BPM_POOL_CFG_COUNT .A 0, 9)] with planeA := wPo, lins := [(0, {LinSt.reset with unpack := some (wUn [])})] }), 0, (by first | decide +kernel | rfl), (by first | decide +kernel | rfl), (by first | decide +kernel | rfl)⟩,
   ⟨({ wPut (wCn {CanSt.reset with batchN := 1, batch := [1,2,3,4], acfSeq := 255}) [(BPM_POOL_CFG_COUNT .A 0, 9)] with planeA := wPo, lins := [(0, {LinSt.reset with unpack := some (wUn [])})] }), (wAcf ({ wPut (wCn {CanSt.reset with batchN := 1, batch := [1,2,3,4], acfSeq := 255}) [(BPM_POOL_CFG_COUNT .A 0, 9)] with planeA := wPo, lins := [(0, {LinSt.reset with unpack := some (wUn [])})] })).1, (wAcf ({ wPut (wCn {CanSt.reset with batchN := 1, batch := [1,2,3,4], acfSeq := 255}) [(BPM_POOL_CFG_COUNT .A 0, 9)] with planeA := wPo, lins := [(0, {LinSt.reset with unpack := some (wUn [])})] })).2.1, (wAcf ({ wPut (wCn {CanSt.reset with batchN := 1, batch := [1,2,3,4], acfSeq := 255}) [(BPM_POOL_CFG_COUNT .A 0, 9)] with planeA := wPo, lins := [(0, {LinSt.reset with unpack := some (wUn [])})] })).2.2, 0, (by first | decide +kernel | rfl), (by first | decide +kernel | rfl), (by first | rfl | decide +kernel), (by first | rfl | decide +kernel), (by first | decide +kernel | rfl)⟩,
   ⟨({ wPut (wCn {CanSt.reset with batchN := 1, batch := [1,2,3,4], acfSeq := 255}) [(BPM_POOL_CFG_COUNT .A 0, 9)] with planeA := PlaneSt.empty, lins := [(0, {LinSt.reset with unpack := some (wUn [])})] }), (wAcf ({ wPut (wCn {CanSt.reset with batchN := 1, batch := [1,2,3,4], acfSeq := 255}) [(BPM_POOL_CFG_COUNT .A 0, 9)] with planeA := PlaneSt.empty, lins := [(0, {LinSt.reset with unpack := some (wUn [])})] })).1, (wAcf ({ wPut (wCn {CanSt.reset with batchN := 1, batch := [1,2,3,4], acfSeq := 255}) [(BPM_POOL_CFG_COUNT .A 0, 9)] with planeA := PlaneSt.empty, lins := [(0, {LinSt.reset with unpack := some (wUn [])})] })).2.1, (wAcf ({ wPut (wCn {CanSt.reset with batchN := 1, batch := [1,2,3,4], acfSeq := 255}) [(BPM_POOL_CFG_COUNT .A 0, 9)] with planeA := PlaneSt.empty, lins := [(0, {LinSt.reset with unpack := some (wUn [])})] })).2.2, 0, (by first | decide +kernel | rfl), (by first | decide +kernel | rfl), (by first | rfl | decide +kernel), (by first | rfl | decide +kernel), (by first | decide +kernel | rfl)⟩,
   ⟨({ wPut (wCn {CanSt.reset with txbuf := []}) [(BPM_POOL_CFG_COUNT .A 0, 9)] with planeA := wPo, lins := [(0, {LinSt.reset with unpack := some (wUn [])})] }), 0, (by first | decide +kernel | rfl), (by first | decide +kernel | rfl)⟩,
   ⟨wOn, 15, (by decide +kernel), (by decide +kernel), (by decide +kernel)⟩,
   ⟨({ wPut (wCn {CanSt.reset with unpack := some (wUn [])}) [(BPM_POOL_CFG_COUNT .A 0, 9)] with planeA := wPo, lins := [(0, {LinSt.reset with unpack := some (wUn [])})] }), 0, (wUn []), (by first | decide +kernel | rfl), (by first | decide +kernel | rfl), (by first | decide +kernel | rfl)⟩,
   ⟨({ wPut (wCn {CanSt.reset with unpack := some (wUn [2])}) [(BPM_POOL_CFG_COUNT .A 0, 9)] with planeA := wPo, lins := [(0, {LinSt.reset with unpack := some (wUn [])})] }), 0, (wUn [2]), (by first | decide +kernel | rfl), (by first | decide +kernel | rfl), (by first | decide +kernel | rfl), (by first | decide +kernel | rfl)⟩,
   ⟨({ wPut (wCn {CanSt.reset with unpack := some (wUn [6,1,0,0,9,9])}) [(BPM_POOL_CFG_COUNT .A 0, 9)] with planeA := wPo, lins := [(0, {LinSt.reset with unpack := some (wUn [])})] }), 0, (wUn [6,1,0,0,9,9]), (by first | decide +kernel | rfl), (by first | decide +kernel | rfl), (4 * (byteAt ((wUn [6,1,0,0,9,9]) : Unpack).rest 0 % 2 * 256 + byteAt ((wUn [6,1,0,0,9,9]) : Unpack).rest 1)), rfl, (by first | decide +kernel | rfl), (by first | decide +kernel | rfl), (by first | decide +kernel | rfl), (by first | decide +kernel | rfl)⟩,
   ⟨({ wPut (wCn {CanSt.reset with unpack := some (wUn [4,4,0,0,0,0,1,0x23,1,2,3,4,5,6,7,8,9])}) [(BPM_POOL_CFG_COUNT .A 0, 9)] with planeA := wPo, lins := [(0, {LinSt.reset with unpack := some (wUn [])})] }), 0, (wUn [4,4,0,0,0,0,1,0x23,1,2,3,4,5,6,7,8,9]), (by first | decide +kernel | rfl), (by first | decide +kernel | rfl), (4 * (byteAt ((wUn [4,4,0,0,0,0,1,0x23,1,2,3,4,5,6,7,8,9]) : Unpack).rest 0 % 2 * 256 + byteAt ((wUn [4,4,0,0,0,0,1,0x23,1,2,3,4,5,6,7,8,9]) : Unpack).rest 1)), (acfCanMsg (((wUn [4,4,0,0,0,0,1,0x23,1,2,3,4,5,6,7,8,9]) : Unpack).rest.take (4 * (byteAt ((wUn [4,4,0,0,0,0,1,0x23,1,2,3,4,5,6,7,8,9]) : Unpack).rest 0 % 2 * 256 + byteAt ((wUn [4,4,0,0,0,0,1,0x23,1,2,3,4,5,6,7,8,9]) : Unpack).rest 1))) 8), rfl, (by first | decide +kernel | rfl), (by first | decide +kernel | rfl), (by first | decide +kernel | rfl), (by first | decide +kernel | rfl), rfl, (by first | decide +kernel | rfl), (by first | decide +kernel | rfl), (by first | decide +kernel | rfl), ((({ wPut (wCn {CanSt.reset with unpack := some (wUn [4,4,0,0,0,0,1,0x23,1,2,3,4,5,6,7,8,9])}) [(BPM_POOL_CFG_COUNT .A 0, 9)] with planeA := wPo, lins := [(0, {LinSt.reset with unpack := some (wUn [])})] }) : State).canList (0 : Nat) true (acfCanMsg (((wUn [4,4,0,0,0,0,1,0x23,1,2,3,4,5,6,7,8,9]) : Unpack).rest.take (4 * (byteAt ((wUn [4,4,0,0,0,0,1,0x23,1,2,3,4,5,6,7,8,9]) : Unpack).rest 0 % 2 * 256 + byteAt ((wUn [4,4,0,0,0,0,1,0x23,1,2,3,4,5,6,7,8,9]) : Unpack).rest 1))) 8).ext (acfCanMsg (((wUn [4,4,0,0,0,0,1,0x23,1,2,3,4,5,6,7,8,9]) : Unpack).rest.take (4 * (byteAt ((wUn [4,4,0,0,0,0,1,0x23,1,2,3,4,5,6,7,8,9]) : Unpack).rest 0 % 2 * 256 + byteAt ((wUn [4,4,0,0,0,0,1,0x23,1,2,3,4,5,6,7,8,9]) : Unpack).rest 1))) 8).id).1, (pairLit (by decide +kernel))⟩,
   ⟨({ wPut (wCn {CanSt.reset with txbuf := []}) [(BPM_POOL_CFG_COUNT .A 0, 9)] with planeA := wPo, lins := [(0, {LinSt.reset with unpack := some (wUn [])})] }), 0, (wUn []), (by first | decide +kernel | rfl), (by first | decide +kernel | rfl), (by first | decide +kernel | rfl), (by first | decide +kernel | rfl)⟩⟩

end W11

namespace W12
/-- Data of the witnesses below. -/
def wNcImg (fl cw : Byte) : Mem := wImg [(0x01, 0x500, [(16 * 64 + 2, [1]), (16 * 32 + 2, [1]), (16 * 24 + 2, [1])]), (0x0E, 0x2000, [(8, [3]), (160, [0, fl, 0x21, 1, 1, 0, 0, 0, 1, 0, 1, 0, 0, 5, 0x40, 0]), (180, [10, 0]), (784, [0, cw, 31, 1, 0, 0, 0, 0, 0x23, 1, 0, 0, 0xFF, 7, 0, 0])])]
/-- Data of the witnesses below. -/
def wNc (st : Nat) (x : NmSt) (l : List (Fld × Nat)) : State := wPut { wOn with active := wNcImg 1 3, nm := tabSet NmSt.reset [] 3 x, ao := 20000 } ([(NMW_NC_STATE_STATE 3, st)] ++ l)

theorem test_wit_NmClusterGoesToSleep :
    (∃ (s : State) (c : Nat), c < 16 ∧ s.ncEnabled c = true ∧ s.nc c = ncREPEAT) ∧
    (∃ (s : State) (c : Nat), c < 16 ∧ s.ncEnabled c = true ∧ s.nc c = ncNORMAL ∧ s.ncRequested c = false ∧ s.nmDue c = true) ∧
    (∃ (s : State) (c : Nat), c < 16 ∧ s.ncEnabled c = true ∧ s.nc c = ncNORMAL ∧ (s.ncRequested c = true ∨ s.nmDue c = false)) ∧
    (∃ (s : State) (c : Nat), c < 16 ∧ s.ncEnabled c = true ∧ s.nc c = ncREADY ∧ s.ncDrained c = false) ∧
    (∃ (s : State) (c : Nat), c < 16 ∧ s.ncEnabled c = true ∧ ∃ cmd : Instr, s.nc c = ncREADY ∧ ((cmd = .readySleepDrained c ∧ s.ncDrained c = true) ∨ cmd = .readyMaxExpire c)) ∧
    (∃ (s : State) (c : Nat), c < 16 ∧ s.ncEnabled c = true ∧ s.nc c = ncPREPARE) ∧
    (∃ (s : State) (c : Nat), c < 16 ∧ s.ncEnabled c = true ∧ s.nc c = ncSHUTDOWN ∧ s.pwr.sleep = 0 ∧ (s.nmSt c).latched = none) ∧
    (∃ (s : State) (c : Nat), c < 16 ∧ s.ncEnabled c = true ∧ ∃ ev, s.nc c = ncSHUTDOWN ∧ s.pwr.sleep = 0 ∧ (s.nmSt c).latched = some ev) ∧
    (∃ (s : State) (c : Nat), c < 16 ∧ s.ncEnabled c = true ∧ s.nc c = ncSHUTDOWN ∧ s.pwr.sleep ≠ 0) ∧
    (∃ (s : State) (c : Nat), c < 16 ∧ s.ncEnabled c = true ∧ s.nc c ≠ ncREPEAT) ∧
    (∃ (s : State) (c : Nat), c < 16 ∧ s.ncEnabled c = true ∧ s.nc c ≠ ncREADY) ∧
    (∃ (s : State) (c : Nat), c < 16 ∧ s.ncEnabled c = true ∧ s.nc c ≠ ncPREPARE) ∧
    (∃ (s : State) (c : Nat), c < 16 ∧ s.ncEnabled c = true ∧ s.nc c ≠ ncSHUTDOWN) :=
  ⟨⟨(wNc 1 {NmSt.reset with settling := false} []), 3, (by first | decide +kernel | rfl), (by first | decide +kernel | rfl), (by first | decide +kernel | rfl)⟩,
   ⟨(wNc 2 {NmSt.reset with settling := false} []), 3, (by first | decide +kernel | rfl), (by first | decide +kernel | rfl), (by first | decide +kernel | rfl), (by first | decide +kernel | rfl), (by first | decide +kernel | rfl)⟩,
   ⟨(wNc 2 {NmSt.reset with timerAt := 15000} []), 3, (by first | decide +kernel | rfl), (by first | decide +kernel | rfl), (by first | decide +kernel | rfl), (by first | decide +kernel | rfl)⟩,
   ⟨({ (wNc 3 {NmSt.reset with settling := false} []) with cans := [(0, {CanSt.reset with txbuf := [⟨⟨.classic,false,false,false,false,5,0,0,0,false,8,[1,2,3,4,5,6,7,8]⟩,0,0,false,none,none,[]⟩]})] }), 3, (by first | decide +kernel | rfl), (by first | decide +kernel | rfl), (by first | decide +kernel | rfl), (by first | decide +kernel | rfl)⟩,
   ⟨(wNc 3 {NmSt.reset with settling := false} []), 3, (by decide +kernel), (by decide +kernel), .readyMaxExpire 3, (by decide +kernel), .inr rfl⟩,
   ⟨(wNc 4 {NmSt.reset with settling := false} []), 3, (by first | decide +kernel | rfl), (by first | decide +kernel | rfl), (by first | decide +kernel | rfl)⟩,
   ⟨(wNc 5 {NmSt.reset with settling := false} []), 3, (by first | decide +kernel | rfl), (by first | decide +kernel | rfl), (by first | decide +kernel | rfl), (by first | decide +kernel | rfl), (by first | decide +kernel | rfl)⟩,
   ⟨(wNc 5 {NmSt.reset with latched := some ⟨2,0,3,0,77⟩, gpioLow := true} []), 3, (by first | decide +kernel | rfl), (by first | decide +kernel | rfl), (Option.get ((((wNc 5 {NmSt.reset with latched := some ⟨2,0,3,0,77⟩, gpioLow := true} []) : State).nmSt (3 : Nat)).latched) (by decide +kernel)), (by first | decide +kernel | rfl), (by first | decide +kernel | rfl), (someOf (by decide +kernel))⟩,
   ⟨({ (wNc 5 {NmSt.reset with gpioLow := true, latched := some ⟨2,0,3,0,77⟩} []) with pwr := { PwrSt.reset with inReset := false, sleep := 3 } }), 3, (by first | decide +kernel | rfl), (by first | decide +kernel | rfl), (by first | decide +kernel | rfl), (by first | decide +kernel | rfl)⟩,
   ⟨(wNc 2 {NmSt.reset with timerAt := 15000} []), 3, (by first | decide +kernel | rfl), (by first | decide +kernel | rfl), (by first | decide +kernel | rfl)⟩,
   ⟨(wNc 2 {NmSt.reset with timerAt := 15000} []), 3, (by first | decide +kernel | rfl), (by first | decide +kernel | rfl), (by first | decide +kernel | rfl)⟩,
   ⟨(wNc 2 {NmSt.reset with timerAt := 15000} []), 3, (by first | decide +kernel | rfl), (by first | decide +kernel | rfl), (by first | decide +kernel | rfl)⟩,
   ⟨(wNc 2 {NmSt.reset with timerAt := 15000} []), 3, (by first | decide +kernel | rfl), (by first | decide +kernel | rfl), (by first | decide +kernel | rfl)⟩⟩

theorem test_wit_WakeSourcesWakeTheCluster :
    (∃ (s : State) (c : Nat) (k : Nat), c < 16 ∧ s.ncEnabled c = true ∧ s.nc c = ncBUS_SLEEP ∧ s.pwr.sleep = 0 ∧ s.pwr.wakes.any (fun w => w.cluster == c) = false ∧ k < 8 ∧ s.pinCluster k = some c ∧ bitOf (bits (secLe s.active tyNMCLUSTER (8 + k) 1) 0 2) (if s.flag (NMW_WAKEPIN_LEVEL k) then 1 else 0) = true) ∧
    (∃ (s : State) (c : Nat) (k : Nat), c < 16 ∧ s.ncEnabled c = true ∧ s.nc c = ncBUS_SLEEP ∧ s.pwr.sleep = 0 ∧ s.pwr.wakes.any (fun w => w.cluster == c) = false ∧ k < 8 ∧ bitOf (bits (secLe s.active tyNMCLUSTER (8 + k) 1) 0 2) (if s.flag (NMW_WAKEPIN_LEVEL k) then 1 else 0) = false) ∧
    (∃ (s : State) (c : Nat) (n : Nat), c < 16 ∧ s.ncEnabled c = true ∧ s.nc c = ncBUS_SLEEP ∧ s.pwr.sleep = 0 ∧ s.pwr.wakes.any (fun w => w.cluster == c) = false ∧ n < 32 ∧ s.clusterOf (32 + n) = some c ∧ bitOf (s.cwRec n 1 1) 1 = true) ∧
    (∃ (s : State) (c : Nat) (n : Nat), c < 16 ∧ s.ncEnabled c = true ∧ s.nc c = ncBUS_SLEEP ∧ s.pwr.sleep = 0 ∧ s.pwr.wakes.any (fun w => w.cluster == c) = false ∧ n < 32 ∧ s.clusterOf (32 + n) = some c ∧ bitOf (s.cwRec n 1 1) 1 = false) ∧
    (∃ (s : State) (c : Nat) (n : Nat) (k : Nat) (id : Nat) (dlc : Nat) (ext : Bool) (d : List Byte), c < 16 ∧ s.ncEnabled c = true ∧ s.nc c = ncBUS_SLEEP ∧ s.pwr.sleep = 0 ∧ s.pwr.wakes.any (fun w => w.cluster == c) = false ∧ n < 32 ∧ s.clusterOf (32 + n) = some c ∧ bitOf (s.cwRec n 1 1) 0 = true ∧ s.wakePower 2 = true ∧ (List.range (min 4 (s.cwRec n 3 1))).find? (s.swMatch n ext id dlc d) = some k) ∧
    (∃ (s : State) (c : Nat) (n : Nat) (id : Nat) (dlc : Nat) (ext : Bool) (d : List Byte), c < 16 ∧ s.ncEnabled c = true ∧ s.nc c = ncBUS_SLEEP ∧ s.pwr.sleep = 0 ∧ s.pwr.wakes.any (fun w => w.cluster == c) = false ∧ n < 32 ∧ s.clusterOf (32 + n) = some c ∧ bitOf (s.cwRec n 1 1) 0 = true ∧ s.wakePower 2 = true ∧ (List.range (min 4 (s.cwRec n 3 1))).find? (s.swMatch n ext id dlc d) = none) ∧
    (∃ (s : State) (c : Nat) (n : Nat), c < 16 ∧ s.ncEnabled c = true ∧ s.nc c = ncBUS_SLEEP ∧ s.pwr.sleep = 0 ∧ s.pwr.wakes.any (fun w => w.cluster == c) = false ∧ n < 32 ∧ s.clusterOf (32 + n) = some c ∧ bitOf (s.cwRec n 1 1) 0 = true ∧ s.wakePower 2 = true ∧ s.fld (NMW_CAN_SW_FEC n) + 1 ≤ s.cwRec n 2 1) ∧
    (∃ (s : State) (c : Nat) (n : Nat), c < 16 ∧ s.ncEnabled c = true ∧ s.nc c = ncBUS_SLEEP ∧ s.pwr.sleep = 0 ∧ s.pwr.wakes.any (fun w => w.cluster == c) = false ∧ n < 32 ∧ s.clusterOf (32 + n) = some c ∧ bitOf (s.cwRec n 1 1) 0 = true ∧ s.wakePower 2 = true ∧ s.cwRec n 2 1 < s.fld (NMW_CAN_SW_FEC n) + 1) ∧
    (∃ (s : State) (c : Nat) (n : Nat), c < 16 ∧ s.ncEnabled c = true ∧ s.nc c = ncBUS_SLEEP ∧ s.pwr.sleep = 0 ∧ s.pwr.wakes.any (fun w => w.cluster == c) = false ∧ n < 32 ∧ s.clusterOf (32 + n) = some c ∧ (bitOf (s.cwRec n 1 1) 0 = false ∨ s.wakePower 2 = false)) ∧
    (∃ (s : State) (c : Nat) (n : Nat), c < 16 ∧ s.ncEnabled c = true ∧ s.nc c = ncBUS_SLEEP ∧ s.pwr.sleep = 0 ∧ s.pwr.wakes.any (fun w => w.cluster == c) = false ∧ n < 16 ∧ s.clusterOf (64 + n) = some c) ∧
    (∃ (s : State) (c : Nat) (k : Nat), c < 16 ∧ s.ncEnabled c = true ∧ s.nc c = ncBUS_SLEEP ∧ s.pwr.sleep = 0 ∧ s.pwr.wakes.any (fun w => w.cluster == c) = false ∧ 24 ≤ k ∧ k < 32 ∧ s.clusterOf k = some c ∧ s.wakePower 3 = true) ∧
    (∃ (s : State) (c : Nat), c < 16 ∧ s.ncEnabled c = true ∧ s.nc c = ncBUS_SLEEP ∧ s.pwr.sleep = 0 ∧ s.pwr.wakes.any (fun w => w.cluster == c) = false ∧ s.wakePower 3 = false) ∧
    (∃ (s : State) (r : Requester) (c : Nat), c < 16 ∧ s.ncEnabled c = true ∧ s.nc c = ncBUS_SLEEP ∧ s.pwr.sleep = 0 ∧ s.pwr.wakes.any (fun w => w.cluster == c) = false ∧ s.reaches r (rNMW_NC_REQ c) ∧ s.flag (NMW_NC_REQ_FW c) = false) :=
  ⟨⟨(wNc 0 {NmSt.reset with settling := false} []), 3, 0, (by first | decide +kernel | rfl), (by first | decide +kernel | rfl), (by first | decide +kernel | rfl), (by first | decide +kernel | rfl), (by first | decide +kernel | rfl), (by first | decide +kernel | rfl), (by first | decide +kernel | rfl), (by first | decide +kernel | rfl)⟩,
   ⟨(wNc 0 {NmSt.reset with settling := false} []), 3, 3, (by first | decide +kernel | rfl), (by first | decide +kernel | rfl), (by first | decide +kernel | rfl), (by first | decide +kernel | rfl), (by first | decide +kernel | rfl), (by first | decide +kernel | rfl), (by first | decide +kernel | rfl)⟩,
   ⟨(wNc 0 {NmSt.reset with settling := false} []), 3, 0, (by first | decide +kernel | rfl), (by first | decide +kernel | rfl), (by first | decide +kernel | rfl), (by first | decide +kernel | rfl), (by first | decide +kernel | rfl), (by first | decide +kernel | rfl), (by first | decide +kernel | rfl), (by first | decide +kernel | rfl)⟩,
   ⟨({ (wNc 0 {NmSt.reset with settling := false} []) with active := wNcImg 1 0, wrec := List.replicate 32 ⟨1,2,3,4,5,6⟩ }), 3, 0, (by first | decide +kernel | rfl), (by first | decide +kernel | rfl), (by first | decide +kernel | rfl), (by first | decide +kernel | rfl), (by first | decide +kernel | rfl), (by first | decide +kernel | rfl), (by first | decide +kernel | rfl), (by first | decide +kernel | rfl)⟩,
   ⟨(wNc 0 {NmSt.reset with settling := false} []), 3, 0, 0, 291, 8, false, [1], (by first | decide +kernel | rfl), (by first | decide +kernel | rfl), (by first | decide +kernel | rfl), (by first | decide +kernel | rfl), (by first | decide +kernel | rfl), (by first | decide +kernel | rfl), (by first | decide +kernel | rfl), (by first | decide +kernel | rfl), (by first | decide +kernel | rfl), (by first | decide +kernel | rfl)⟩,
   ⟨(wNc 0 {NmSt.reset with settling := false} []), 3, 0, 292, 8, false, [1], (by first | decide +kernel | rfl), (by first | decide +kernel | rfl), (by first | decide +kernel | rfl), (by first | decide +kernel | rfl), (by first | decide +kernel | rfl), (by first | decide +kernel | rfl), (by first | decide +kernel | rfl), (by first | decide +kernel | rfl), (by first | decide +kernel | rfl), (by first | decide +kernel | rfl)⟩,
   ⟨(wNc 0 {NmSt.reset with settling := false} []), 3, 0, (by first | decide +kernel | rfl), (by first | decide +kernel | rfl), (by first | decide +kernel | rfl), (by first | decide +kernel | rfl), (by first | decide +kernel | rfl), (by first | decide +kernel | rfl), (by first | decide +kernel | rfl), (by first | decide +kernel | rfl), (by first | decide +kernel | rfl), (by first | decide +kernel | rfl)⟩,
   ⟨(wNc 0 {NmSt.reset with settling := false} [(NMW_WAKEPIN_LEVEL 0,1),(NMW_CAN_SW_FEC 0,31)]), 3, 0, (by first | decide +kernel | rfl), (by first | decide +kernel | rfl), (by first | decide +kernel | rfl), (by first | decide +kernel | rfl), (by first | decide +kernel | rfl), (by first | decide +kernel | rfl), (by first | decide +kernel | rfl), (by first | decide +kernel | rfl), (by first | decide +kernel | rfl), (by first | decide +kernel | rfl)⟩,
   ⟨(wNc 0 {NmSt.reset with settling := false} [(PWR_DOM_STAT_ON,0)]), 3, 0, (by first | decide +kernel | rfl), (by first | decide +kernel | rfl), (by first | decide +kernel | rfl), (by first | decide +kernel | rfl), (by first | decide +kernel | rfl), (by first | decide +kernel | rfl), (by first | decide +kernel | rfl), (by first | decide +kernel | rfl)⟩,
   ⟨(wNc 0 {NmSt.reset with settling := false} []), 3, 0, (by first | decide +kernel | rfl), (by first | decide +kernel | rfl), (by first | decide +kernel | rfl), (by first | decide +kernel | rfl), (by first | decide +kernel | rfl), (by first | decide +kernel | rfl), (by first | decide +kernel | rfl)⟩,
   ⟨(wNc 0 {NmSt.reset with settling := false} []), 3, 24, (by first | decide +kernel | rfl), (by first | decide +kernel | rfl), (by first | decide +kernel | rfl), (by first | decide +kernel | rfl), (by first | decide +kernel | rfl), (by first | decide +kernel | rfl), (by first | decide +kernel | rfl), (by first | decide +kernel | rfl), (by first | decide +kernel | rfl)⟩,
   ⟨(wNc 0 {NmSt.reset with settling := false} [(PWR_DOM_STAT_ON,0)]), 3, (by first | decide +kernel | rfl), (by first | decide +kernel | rfl), (by first | decide +kernel | rfl), (by first | decide +kernel | rfl), (by first | decide +kernel | rfl), (by first | decide +kernel | rfl)⟩,
   ⟨(wNc 0 {NmSt.reset with settling := false} []), .mc, 3, (by first | decide +kernel | rfl), (by first | decide +kernel | rfl), (by first | decide +kernel | rfl), (by first | decide +kernel | rfl), (by first | decide +kernel | rfl), (by unfold State.reaches; decide +kernel), (by first | decide +kernel | rfl)⟩⟩

theorem test_wit_RequestsChimesAndCaptures :
    (∃ (s : State) (r : Requester) (c : Nat) (n : Nat), c < 16 ∧ n < 32 ∧ s.reaches r (rNMW_NC_REQ c) ∧ s.nc c = ncNORMAL ∧ s.flag (NMW_NC_REQ_FW c) = false) ∧
    (∃ (s : State) (r : Requester) (c : Nat) (n : Nat), c < 16 ∧ n < 32 ∧ s.reaches r (rNMW_NC_REQ c) ∧ s.nc c = ncNORMAL ∧ s.flag (NMW_NC_REQ_FW c) = true ∧ s.flag (NMW_NC_REQ_LEDGER c) = false ∧ s.fld64 (NMW_NC_TREQ_LO_TN c) (NMW_NC_TREQ_HI_TN c) = 0) ∧
    (∃ (s : State) (c : Nat) (n : Nat), c < 16 ∧ n < 32 ∧ s.ncPassive c = false ∧ (s.nmSt c).settling = false ∧ s.ncIs c ncREPEAT = true) ∧
    (∃ (s : State) (c : Nat) (n : Nat), c < 16 ∧ n < 32 ∧ (s.ncPassive c = true ∨ (s.nmSt c).settling = true)) ∧
    (∃ (s : State) (c : Nat) (n : Nat), c < 16 ∧ n < 32 ∧ (s.nmSt c).settling = true) ∧
    (∃ (s : State) (c : Nat) (n : Nat), c < 16 ∧ n < 32 ∧ (s.nmSt c).settling = false) ∧
    (∃ (s : State) (c : Nat) (n : Nat), c < 16 ∧ n < 32 ∧ n < 16 ∧ (s.lin n).restart = true ∧ s.flag (LIN_CFG_ROLE n) = true ∧ s.flag (LIN_CTL_SCHED_RUN n) = true) ∧
    (∃ (s : State) (c : Nat) (n : Nat), c < 16 ∧ n < 32 ∧ n < 16 ∧ (s.lin n).restart = true ∧ s.flag (LIN_CFG_ROLE n) = false) ∧
    (∃ (s : State) (c : Nat) (n : Nat), c < 16 ∧ n < 32 ∧ (s.lin n).restart = false) ∧
    (∃ (s : State) (r : Requester) (c : Nat) (n : Nat), c < 16 ∧ n < 32 ∧ s.reaches r rNMW_AO_SNAP ∧ s.ao < 2 ^ 48) ∧
    (∃ (s : State) (r : Requester) (c : Nat) (n : Nat), c < 16 ∧ n < 32 ∧ s.reaches r rNMW_WREC_POP) :=
  ⟨⟨(wNc 2 {NmSt.reset with settling := false} []), .mc, 3, 0, (by first | decide +kernel | rfl), (by first | decide +kernel | rfl), (by unfold State.reaches; decide +kernel), (by first | decide +kernel | rfl), (by first | decide +kernel | rfl)⟩,
   ⟨(wNc 2 {NmSt.reset with settling := false} [(NMW_NC_REQ_FW 3,1)]), .mc, 3, 0, (by first | decide +kernel | rfl), (by first | decide +kernel | rfl), (by unfold State.reaches; decide +kernel), (by first | decide +kernel | rfl), (by first | decide +kernel | rfl), (by first | decide +kernel | rfl), (by first | decide +kernel | rfl)⟩,
   ⟨(wNc 1 {NmSt.reset with settling := false} [(CAN_STATUS_LINK 0,1)]), 3, 0, (by first | decide +kernel | rfl), (by first | decide +kernel | rfl), (by first | decide +kernel | rfl), (by first | decide +kernel | rfl), (by first | decide +kernel | rfl)⟩,
   ⟨(wNc 1 {NmSt.reset with settling := true} []), 3, 0, (by first | decide +kernel | rfl), (by first | decide +kernel | rfl), (by first | decide +kernel | rfl)⟩,
   ⟨(wNc 1 {NmSt.reset with settling := true} []), 3, 0, (by first | decide +kernel | rfl), (by first | decide +kernel | rfl), (by first | decide +kernel | rfl)⟩,
   ⟨(wNc 2 {NmSt.reset with settling := false} []), 3, 0, (by first | decide +kernel | rfl), (by first | decide +kernel | rfl), (by first | decide +kernel | rfl)⟩,
   ⟨({ (wNc 2 {NmSt.reset with settling := false} [(LIN_CFG_ROLE 0,1),(LIN_CTL_SCHED_RUN 0,1),(LIN_CTL_SCHED_SEL 0,2)]) with lins := [(0,{LinSt.reset with restart := true, pulse := true})] }), 3, 0, (by first | decide +kernel | rfl), (by first | decide +kernel | rfl), (by first | decide +kernel | rfl), (by first | decide +kernel | rfl), (by first | decide +kernel | rfl), (by first | decide +kernel | rfl)⟩,
   ⟨({ (wNc 2 {NmSt.reset with settling := false} []) with lins := [(0,{LinSt.reset with restart := true, pulse := true})], wrec := [⟨1,2,3,4,5,6⟩] }), 3, 0, (by first | decide +kernel | rfl), (by first | decide +kernel | rfl), (by first | decide +kernel | rfl), (by first | decide +kernel | rfl), (by first | decide +kernel | rfl)⟩,
   ⟨(wNc 1 {NmSt.reset with settling := true} []), 3, 0, (by first | decide +kernel | rfl), (by first | decide +kernel | rfl), (by first | decide +kernel | rfl)⟩,
   ⟨(wNc 1 {NmSt.reset with settling := true} []), .mc, 3, 0, (by first | decide +kernel | rfl), (by first | decide +kernel | rfl), (by unfold State.reaches; decide +kernel), (by first | decide +kernel | rfl)⟩,
   ⟨(wNc 1 {NmSt.reset with settling := true} []), .mc, 3, 0, (by first | decide +kernel | rfl), (by first | decide +kernel | rfl), (by unfold State.reaches; decide +kernel)⟩⟩

end W12

namespace W13
/-- Data of the witnesses below. -/
def wRg : Region := ⟨true, false, 1, 0, 64, 64, 0, 5, 7, .normal, 3, [], 0⟩
/-- Data of the witnesses below. -/
def wFq (t : Nat) (k : Nat) : FlowReq := ⟨0x3300000000 * 0 + k, 2, t⟩
/-- Data of the witnesses below. -/
def wFt (r : List Region) (ex : Tab Slot) (qa qb : List FlowReq) (l : List (Fld × Nat)) : State :=
  wPut { wOn with planeA := { PlaneSt.empty with regions := r, tagMap := [(0, 0)], exact := ex, flowQ := qa }, planeB := { PlaneSt.empty with regions := r, tagMap := [(0, 0)], exact := ex, flowQ := qb } } ([(FWL_CFG_FLOW_TAG, 0), (FWL_CFG_FLOWS_EN, 1)] ++ l)
/-- Data of the witnesses below. -/
def wHm : Nat := 4 * cand0 wRg 0
/-- Data of the witnesses below. -/
def wS1 (s : State) (b : Bool) : State := if b then { s with planeA := { s.planeA with flowQ := s.planeA.flowQ.drop 1 } } else { s with planeB := { s.planeB with flowQ := s.planeB.flowQ.drop 1 } }

theorem test_wit_FlowsAreAppliedSweptAndFlushed :
    (∃ (s : State), s.planeA.flowQ = [] ∧ s.planeB.flowQ = []) ∧
    (∃ (s : State) (s1 : State) (q : FlowReq) (ri : Nat) (rg : Region), ∃ qa, s.planeA.flowQ = q :: qa ∧ (∀ b, b ∈ s.planeB.flowQ.take 1 → q.stamp ≤ b.stamp) ∧ s1 = { s with planeA := { s.planeA with flowQ := qa } } ∧ s1.flowHome = some (ri, rg) ∧ s1.anyWriter = true ∧ ∃ b e x, bestOf s1.epoch (holders rg (s1.view rg) q.key) = some (b, e, x)) ∧
    (∃ (s : State) (s1 : State) (q : FlowReq) (ri : Nat) (rg : Region), ∃ qa, s.planeA.flowQ = q :: qa ∧ (∀ b, b ∈ s.planeB.flowQ.take 1 → q.stamp ≤ b.stamp) ∧ s1 = { s with planeA := { s.planeA with flowQ := qa } } ∧ s1.flowHome = some (ri, rg) ∧ s1.anyWriter = true ∧ ∃ s2 x, bestOf s1.epoch (holders rg (s1.view rg) q.key) = none ∧ s1.place ri q.key q.result stVALID = (s2, some x)) ∧
    (∃ (s : State) (s1 : State) (q : FlowReq) (ri : Nat) (rg : Region), ∃ qa, s.planeA.flowQ = q :: qa ∧ (∀ b, b ∈ s.planeB.flowQ.take 1 → q.stamp ≤ b.stamp) ∧ s1 = { s with planeA := { s.planeA with flowQ := qa } } ∧ s1.flowHome = some (ri, rg) ∧ s1.anyWriter = true ∧ ∃ s2, bestOf s1.epoch (holders rg (s1.view rg) q.key) = none ∧ s1.place ri q.key q.result stVALID = (s2, none)) ∧
    (∃ (s : State) (s1 : State) (q : FlowReq), ∃ qa, s.planeA.flowQ = q :: qa ∧ (∀ b, b ∈ s.planeB.flowQ.take 1 → q.stamp ≤ b.stamp) ∧ s1 = { s with planeA := { s.planeA with flowQ := qa } } ∧ (s1.flowHome = none ∨ s1.anyWriter = false)) ∧
    (∃ (s : State) (s1 : State) (q : FlowReq), ∃ a qb, s.planeB.flowQ = q :: qb ∧ (s.planeA.flowQ = [] ∨ (s.planeA.flowQ.head? = some a ∧ q.stamp < a.stamp)) ∧ s1 = { s with planeB := { s.planeB with flowQ := qb } }) ∧
    (∃ (s : State) (r : Requester) (ri : Nat) (rg : Region), s.reaches r rFWL_CTL ∧ s.flowHome = some (ri, rg) ∧ s.flag FWL_CFG_FLOWS_EN = true) ∧
    (∃ (s : State) (r : Requester) (ri : Nat) (rg : Region), s.reaches r rFWL_CTL ∧ s.flowHome = some (ri, rg) ∧ s.flag FWL_CFG_FLOWS_EN = false) ∧
    (∃ (s : State) (ri : Nat) (rg : Region), s.flowHome = some (ri, rg) ∧ (s.flag FWL_CFG_FLOWS_EN = false ∨ s.anyWriter = false)) ∧
    (∃ (s : State) (ri : Nat) (prof : Nat) (rg : Region), s.flowHome = some (ri, rg) ∧ s.flag FWL_CFG_FLOWS_EN = true ∧ s.anyWriter = true ∧ (∀ x, x ∈ s.flows rg → bits x.2.2.result 0 2 ≠ prof)) ∧
    (∃ (s : State) (ri : Nat) (prof : Nat) (rg : Region), s.flowHome = some (ri, rg) ∧ s.flag FWL_CFG_FLOWS_EN = true ∧ s.anyWriter = true ∧ ∃ x, s.flows rg = [x] ∧ bits x.2.2.result 0 2 = prof ∧ (s.agesOf ri x.1 x.2.1).all (· == 3) = true) ∧
    (∃ (s : State) (ri : Nat) (prof : Nat) (rg : Region), s.flowHome = some (ri, rg) ∧ s.flag FWL_CFG_FLOWS_EN = true ∧ s.anyWriter = true ∧ ∃ x, s.flows rg = [x] ∧ bits x.2.2.result 0 2 = prof ∧ (s.agesOf ri x.1 x.2.1).all (· == 3) = false) :=
  ⟨⟨wOn, (by first | decide +kernel | rfl), (by first | decide +kernel | rfl)⟩,
   ⟨(wFt [wRg] [(wHm,⟨0,2,stVALID⟩)] [wFq 5 0] [wFq 6 0] []), (wS1 (wFt [wRg] [(wHm,⟨0,2,stVALID⟩)] [wFq 5 0] [wFq 6 0] []) true), (wFq 5 0), 0, wRg, (((wFt [wRg] [(wHm,⟨0,2,stVALID⟩)] [wFq 5 0] [wFq 6 0] []) : State).planeA.flowQ).tail, (consOf (by decide +kernel)), (by first | decide +kernel | rfl), (by first | rfl | decide +kernel), (by first | decide +kernel | rfl), (by first | decide +kernel | rfl), ((Option.get (bestOf ((wS1 (wFt [wRg] [(wHm,⟨0,2,stVALID⟩)] [wFq 5 0] [wFq 6 0] []) true) : State).epoch (holders (wRg : Region) (((wS1 (wFt [wRg] [(wHm,⟨0,2,stVALID⟩)] [wFq 5 0] [wFq 6 0] []) true) : State).view (wRg : Region)) ((wFq 5 0) : FlowReq).key)) (by decide +kernel))).1, ((Option.get (bestOf ((wS1 (wFt [wRg] [(wHm,⟨0,2,stVALID⟩)] [wFq 5 0] [wFq 6 0] []) true) : State).epoch (holders (wRg : Region) (((wS1 (wFt [wRg] [(wHm,⟨0,2,stVALID⟩)] [wFq 5 0] [wFq 6 0] []) true) : State).view (wRg : Region)) ((wFq 5 0) : FlowReq).key)) (by decide +kernel))).2.1, ((Option.get (bestOf ((wS1 (wFt [wRg] [(wHm,⟨0,2,stVALID⟩)] [wFq 5 0] [wFq 6 0] []) true) : State).epoch (holders (wRg : Region) (((wS1 (wFt [wRg] [(wHm,⟨0,2,stVALID⟩)] [wFq 5 0] [wFq 6 0] []) true) : State).view (wRg : Region)) ((wFq 5 0) : FlowReq).key)) (by decide +kernel))).2.2, (someOf (by decide +kernel))⟩,
   ⟨(wFt [wRg] [] [wFq 5 0] [] []), (wS1 (wFt [wRg] [] [wFq 5 0] [] []) true), (wFq 5 0), 0, wRg, (((wFt [wRg] [] [wFq 5 0] [] []) : State).planeA.flowQ).tail, (consOf (by decide +kernel)), (by first | decide +kernel | rfl), (by first | rfl | decide +kernel), (by first | decide +kernel | rfl), (by first | decide +kernel | rfl), (((wS1 (wFt [wRg] [] [wFq 5 0] [] []) true) : State).place (0 : Nat) ((wFq 5 0) : FlowReq).key ((wFq 5 0) : FlowReq).result stVALID).1, (Option.get ((((wS1 (wFt [wRg] [] [wFq 5 0] [] []) true) : State).place (0 : Nat) ((wFq 5 0) : FlowReq).key ((wFq 5 0) : FlowReq).result stVALID).2) (by decide +kernel)), (by first | decide +kernel | rfl), (pairOf (by decide +kernel))⟩,
   ⟨(wFt [wRg] ((List.range 256).map (fun n => (n, ⟨7000000, 3, stVALID⟩))) [wFq 5 0] [] []), (wS1 (wFt [wRg] ((List.range 256).map (fun n => (n, ⟨7000000, 3, stVALID⟩))) [wFq 5 0] [] []) true), (wFq 5 0), 0, wRg, (((wFt [wRg] ((List.range 256).map (fun n => (n, ⟨7000000, 3, stVALID⟩))) [wFq 5 0] [] []) : State).planeA.flowQ).tail, (consOf (by decide +kernel)), (by first | decide +kernel | rfl), (by first | rfl | decide +kernel), (by first | decide +kernel | rfl), (by first | decide +kernel | rfl), (((wS1 (wFt [wRg] ((List.range 256).map (fun n => (n, ⟨7000000, 3, stVALID⟩))) [wFq 5 0] [] []) true) : State).place (0 : Nat) ((wFq 5 0) : FlowReq).key ((wFq 5 0) : FlowReq).result stVALID).1, (by first | decide +kernel | rfl), (pairNone (by decide +kernel))⟩,
   ⟨(wFt [] [] [wFq 5 0] [] []), (wS1 (wFt [] [] [wFq 5 0] [] []) true), (wFq 5 0), (((wFt [] [] [wFq 5 0] [] []) : State).planeA.flowQ).tail, (consOf (by decide +kernel)), (by first | decide +kernel | rfl), (by first | rfl | decide +kernel), (by first | decide +kernel | rfl)⟩,
   ⟨(wFt [wRg] [] [] [wFq 4 0] []), (wS1 (wFt [wRg] [] [] [wFq 4 0] []) false), (wFq 4 0), (((wFq 4 0) : FlowReq)), (((wFt [wRg] [] [] [wFq 4 0] []) : State).planeB.flowQ).tail, (consOf (by decide +kernel)), (by first | decide +kernel | rfl), (by first | rfl | decide +kernel)⟩,
   ⟨(wFt [wRg] [] [wFq 5 0] [] []), .mc, 0, wRg, (by unfold State.reaches; decide +kernel), (by first | decide +kernel | rfl), (by first | decide +kernel | rfl)⟩,
   ⟨(wFt [wRg] [] [] [] [(FWL_CFG_FLOWS_EN,0)]), .mc, 0, wRg, (by unfold State.reaches; decide +kernel), (by first | decide +kernel | rfl), (by first | decide +kernel | rfl)⟩,
   ⟨(wFt [wRg] [] [] [] [(FWL_CFG_FLOWS_EN,0)]), 0, wRg, (by first | decide +kernel | rfl), (by first | decide +kernel | rfl)⟩,
   ⟨(wFt [wRg] [] [wFq 5 0] [] []), 0, 2, wRg, (by first | decide +kernel | rfl), (by first | decide +kernel | rfl), (by first | decide +kernel | rfl), (by first | decide +kernel | rfl)⟩,
   ⟨(wFt [wRg] [(wHm,⟨0,2,stVALID+0x180⟩)] [] [] []), 0, 2, wRg, (by first | decide +kernel | rfl), (by first | decide +kernel | rfl), (by first | decide +kernel | rfl), (((wFt [wRg] [(wHm,⟨0,2,stVALID+0x180⟩)] [] [] []) : State).flows (wRg : Region))[0]'(by decide +kernel), (oneOf (by decide +kernel)), (by first | decide +kernel | rfl), (by first | decide +kernel | rfl)⟩,
   ⟨(wFt [wRg] [(wHm,⟨0,2,stVALID⟩)] [wFq 5 0] [wFq 6 0] []), 0, 2, wRg, (by first | decide +kernel | rfl), (by first | decide +kernel | rfl), (by first | decide +kernel | rfl), (((wFt [wRg] [(wHm,⟨0,2,stVALID⟩)] [wFq 5 0] [wFq 6 0] []) : State).flows (wRg : Region))[0]'(by decide +kernel), (oneOf (by decide +kernel)), (by first | decide +kernel | rfl), (by first | decide +kernel | rfl)⟩⟩

end W13

namespace W14
/-- Data of the witnesses below. -/
def wK (a u : Nat) (x : Bool) (par : Nat) : KeyHalf := ⟨a, u, par, 0, 0, x, 0, List.replicate 16 7, if isAes a then [] else List.replicate 64 9⟩
/-- Data of the witnesses below. -/
def wS (c p : Option KeyHalf) (ck : Bool) : SlotSt := ⟨c, p, ck, 3, 65535, 0x40⟩
/-- Data of the witnesses below. -/
def wBl (l : List (Nat × SlotSt)) (b : Blf) (f : List (Fld × Nat)) : State := { wPut wOn f with blf := { b with slots := l } }
/-- Data of the witnesses below. -/
def wR : Blf := Blf.reset

theorem test_wit_BelfryMakesKeys :
    (∃ (s : State) (n : Nat) (p : Nat) (alg : Nat) (usage : Nat), alg = s.fld BLF_CMD_ARG_ALG ∧ usage = s.fld BLF_CMD_ARG_USAGE ∧ p = s.fld BLF_CMD_ARG_ARG ∧ s.reaches .mc rBLF_CMD ∧ s.flag BLF_CMD_BUSY = false ∧ 16 ≤ n ∧ n < 1024 ∧ (s.slot n).cur = none ∧ bitOf usage 7 = false ∧ (isAes alg = true ∨ isPriv alg = true)) ∧
    (∃ (s : State) (n : Nat) (p : Nat) (alg : Nat) (usage : Nat), alg = s.fld BLF_CMD_ARG_ALG ∧ usage = s.fld BLF_CMD_ARG_USAGE ∧ p = s.fld BLF_CMD_ARG_ARG ∧ s.reaches .mc rBLF_CMD ∧ s.flag BLF_CMD_BUSY = false ∧ 16 ≤ n ∧ n < 1024 ∧ (s.slot n).cur = none ∧ bitOf usage 7 = false ∧ isPub alg = true) ∧
    (∃ (s : State) (n : Nat) (p : Nat) (alg : Nat) (usage : Nat) (pk : KeyHalf), alg = s.fld BLF_CMD_ARG_ALG ∧ usage = s.fld BLF_CMD_ARG_USAGE ∧ p = s.fld BLF_CMD_ARG_ARG ∧ s.reaches .mc rBLF_CMD ∧ s.flag BLF_CMD_BUSY = false ∧ 16 ≤ n ∧ n < 1024 ∧ (s.slot n).cur = none ∧ bitOf usage 7 = false ∧ 16 ≤ p ∧ (s.slot p).cur = some pk ∧ s.orphaned p = false ∧ isAes pk.alg = true ∧ pk.depth < 7 ∧ isAes alg = true ∧ bitOf pk.usage 5 = true) ∧
    (∃ (s : State) (n : Nat) (p : Nat) (alg : Nat) (usage : Nat) (pk : KeyHalf), alg = s.fld BLF_CMD_ARG_ALG ∧ usage = s.fld BLF_CMD_ARG_USAGE ∧ p = s.fld BLF_CMD_ARG_ARG ∧ s.reaches .mc rBLF_CMD ∧ s.flag BLF_CMD_BUSY = false ∧ 16 ≤ n ∧ n < 1024 ∧ (s.slot n).cur = none ∧ bitOf usage 7 = false ∧ 16 ≤ p ∧ (s.slot p).cur = some pk ∧ s.orphaned p = false ∧ isAes pk.alg = true ∧ pk.depth < 7 ∧ (isAes alg = true ∨ isPriv alg = true) ∧ bitOf pk.usage 6 = true) ∧
    (∃ (s : State) (n : Nat) (p : Nat) (alg : Nat) (usage : Nat) (k0 : KeyHalf), alg = s.fld BLF_CMD_ARG_ALG ∧ usage = s.fld BLF_CMD_ARG_USAGE ∧ p = s.fld BLF_CMD_ARG_ARG ∧ s.reaches .mc rBLF_CMD ∧ s.flag BLF_CMD_BUSY = false ∧ 16 ≤ n ∧ n < 1024 ∧ (s.slot n).cur = some k0 ∧ s.orphaned n = false ∧ (isAes k0.alg = true ∨ isPriv k0.alg = true) ∧ bitOf k0.usage 7 = false) :=
  ⟨⟨(wBl [(20, wS (some (wK 1 0x60 true 0xFFFF)) none false)] Blf.reset [(BLF_CMD_ARG_ALG,1),(BLF_CMD_ARG_USAGE,1),(BLF_CMD_ARG_ARG,20)]), 16, (((wBl [(20, wS (some (wK 1 0x60 true 0xFFFF)) none false)] Blf.reset [(BLF_CMD_ARG_ALG,1),(BLF_CMD_ARG_USAGE,1),(BLF_CMD_ARG_ARG,20)])).fld BLF_CMD_ARG_ARG), (((wBl [(20, wS (some (wK 1 0x60 true 0xFFFF)) none false)] Blf.reset [(BLF_CMD_ARG_ALG,1),(BLF_CMD_ARG_USAGE,1),(BLF_CMD_ARG_ARG,20)])).fld BLF_CMD_ARG_ALG), (((wBl [(20, wS (some (wK 1 0x60 true 0xFFFF)) none false)] Blf.reset [(BLF_CMD_ARG_ALG,1),(BLF_CMD_ARG_USAGE,1),(BLF_CMD_ARG_ARG,20)])).fld BLF_CMD_ARG_USAGE), (by first | rfl | decide +kernel), (by first | rfl | decide +kernel), (by first | rfl | decide +kernel), (by unfold State.reaches; decide +kernel), (by first | decide +kernel | rfl), (by first | decide +kernel | rfl), (by first | decide +kernel | rfl), (by first | decide +kernel | rfl), (by first | decide +kernel | rfl), (by first | decide +kernel | rfl)⟩,
   ⟨(wBl [(20, wS (some (wK 1 0x60 true 0xFFFF)) none false)] Blf.reset [(BLF_CMD_ARG_ALG,24),(BLF_CMD_ARG_USAGE,2),(BLF_CMD_ARG_ARG,20)]), 16, (((wBl [(20, wS (some (wK 1 0x60 true 0xFFFF)) none false)] Blf.reset [(BLF_CMD_ARG_ALG,24),(BLF_CMD_ARG_USAGE,2),(BLF_CMD_ARG_ARG,20)])).fld BLF_CMD_ARG_ARG), (((wBl [(20, wS (some (wK 1 0x60 true 0xFFFF)) none false)] Blf.reset [(BLF_CMD_ARG_ALG,24),(BLF_CMD_ARG_USAGE,2),(BLF_CMD_ARG_ARG,20)])).fld BLF_CMD_ARG_ALG), (((wBl [(20, wS (some (wK 1 0x60 true 0xFFFF)) none false)] Blf.reset [(BLF_CMD_ARG_ALG,24),(BLF_CMD_ARG_USAGE,2),(BLF_CMD_ARG_ARG,20)])).fld BLF_CMD_ARG_USAGE), (by first | rfl | decide +kernel), (by first | rfl | decide +kernel), (by first | rfl | decide +kernel), (by unfold State.reaches; decide +kernel), (by first | decide +kernel | rfl), (by first | decide +kernel | rfl), (by first | decide +kernel | rfl), (by first | decide +kernel | rfl), (by first | decide +kernel | rfl), (by first | decide +kernel | rfl)⟩,
   ⟨(wBl [(20, wS (some (wK 1 0x60 true 0xFFFF)) none false)] Blf.reset [(BLF_CMD_ARG_ALG,1),(BLF_CMD_ARG_USAGE,1),(BLF_CMD_ARG_ARG,20)]), 16, (((wBl [(20, wS (some (wK 1 0x60 true 0xFFFF)) none false)] Blf.reset [(BLF_CMD_ARG_ALG,1),(BLF_CMD_ARG_USAGE,1),(BLF_CMD_ARG_ARG,20)])).fld BLF_CMD_ARG_ARG), (((wBl [(20, wS (some (wK 1 0x60 true 0xFFFF)) none false)] Blf.reset [(BLF_CMD_ARG_ALG,1),(BLF_CMD_ARG_USAGE,1),(BLF_CMD_ARG_ARG,20)])).fld BLF_CMD_ARG_ALG), (((wBl [(20, wS (some (wK 1 0x60 true 0xFFFF)) none false)] Blf.reset [(BLF_CMD_ARG_ALG,1),(BLF_CMD_ARG_USAGE,1),(BLF_CMD_ARG_ARG,20)])).fld BLF_CMD_ARG_USAGE), (wK 1 0x60 true 0xFFFF), (by first | rfl | decide +kernel), (by first | rfl | decide +kernel), (by first | rfl | decide +kernel), (by unfold State.reaches; decide +kernel), (by first | decide +kernel | rfl), (by first | decide +kernel | rfl), (by first | decide +kernel | rfl), (by first | decide +kernel | rfl), (by first | decide +kernel | rfl), (by first | decide +kernel | rfl), (by first | decide +kernel | rfl), (by first | decide +kernel | rfl), (by first | decide +kernel | rfl), (by first | decide +kernel | rfl), (by first | decide +kernel | rfl), (by first | decide +kernel | rfl)⟩,
   ⟨(wBl [(20, wS (some (wK 1 0x60 true 0xFFFF)) none false)] Blf.reset [(BLF_CMD_ARG_ALG,1),(BLF_CMD_ARG_USAGE,1),(BLF_CMD_ARG_ARG,20)]), 16, (((wBl [(20, wS (some (wK 1 0x60 true 0xFFFF)) none false)] Blf.reset [(BLF_CMD_ARG_ALG,1),(BLF_CMD_ARG_USAGE,1),(BLF_CMD_ARG_ARG,20)])).fld BLF_CMD_ARG_ARG), (((wBl [(20, wS (some (wK 1 0x60 true 0xFFFF)) none false)] Blf.reset [(BLF_CMD_ARG_ALG,1),(BLF_CMD_ARG_USAGE,1),(BLF_CMD_ARG_ARG,20)])).fld BLF_CMD_ARG_ALG), (((wBl [(20, wS (some (wK 1 0x60 true 0xFFFF)) none false)] Blf.reset [(BLF_CMD_ARG_ALG,1),(BLF_CMD_ARG_USAGE,1),(BLF_CMD_ARG_ARG,20)])).fld BLF_CMD_ARG_USAGE), (wK 1 0x60 true 0xFFFF), (by first | rfl | decide +kernel), (by first | rfl | decide +kernel), (by first | rfl | decide +kernel), (by unfold State.reaches; decide +kernel), (by first | decide +kernel | rfl), (by first | decide +kernel | rfl), (by first | decide +kernel | rfl), (by first | decide +kernel | rfl), (by first | decide +kernel | rfl), (by first | decide +kernel | rfl), (by first | decide +kernel | rfl), (by first | decide +kernel | rfl), (by first | decide +kernel | rfl), (by first | decide +kernel | rfl), (by first | decide +kernel | rfl), (by first | decide +kernel | rfl)⟩,
   ⟨(wBl [(20, wS (some (wK 1 0x60 true 0xFFFF)) none false)] Blf.reset [(BLF_CMD_ARG_ALG,1),(BLF_CMD_ARG_USAGE,1),(BLF_CMD_ARG_ARG,20)]), 20, (((wBl [(20, wS (some (wK 1 0x60 true 0xFFFF)) none false)] Blf.reset [(BLF_CMD_ARG_ALG,1),(BLF_CMD_ARG_USAGE,1),(BLF_CMD_ARG_ARG,20)])).fld BLF_CMD_ARG_ARG), (((wBl [(20, wS (some (wK 1 0x60 true 0xFFFF)) none false)] Blf.reset [(BLF_CMD_ARG_ALG,1),(BLF_CMD_ARG_USAGE,1),(BLF_CMD_ARG_ARG,20)])).fld BLF_CMD_ARG_ALG), (((wBl [(20, wS (some (wK 1 0x60 true 0xFFFF)) none false)] Blf.reset [(BLF_CMD_ARG_ALG,1),(BLF_CMD_ARG_USAGE,1),(BLF_CMD_ARG_ARG,20)])).fld BLF_CMD_ARG_USAGE), (wK 1 0x60 true 0xFFFF), (by first | rfl | decide +kernel), (by first | rfl | decide +kernel), (by first | rfl | decide +kernel), (by unfold State.reaches; decide +kernel), (by first | decide +kernel | rfl), (by first | decide +kernel | rfl), (by first | decide +kernel | rfl), (by first | decide +kernel | rfl), (by first | decide +kernel | rfl), (by first | decide +kernel | rfl), (by first | decide +kernel | rfl)⟩⟩

theorem test_wit_BelfryChangesSlots :
    (∃ (s : State) (n : Nat) (q : KeyHalf) (good : Bool), s.reaches .mc rBLF_CMD ∧ s.flag BLF_CMD_BUSY = false ∧ 16 ≤ n ∧ n < 1024 ∧ (s.slot n).pend = some q ∧ s.orphaned n = false ∧ good = (if isAes q.alg then (cryptoBytes (.ecb false) [q.key, List.replicate 16 0] 16).take 3 == leBytes 3 ((s.reg rBLF_CMD_ARG).toNat % 2 ^ 24) else ecVerify (algBig q.alg) q.pub (testDigest (algBig q.alg)) (ecSign (algBig q.alg) q.key (testDigest (algBig q.alg)) (s.random (ecLen (algBig q.alg))).2))) ∧
    (∃ (s : State) (n : Nat) (k : KeyHalf) (q : KeyHalf), s.reaches .mc rBLF_CMD ∧ s.flag BLF_CMD_BUSY = false ∧ 16 ≤ n ∧ n < 1024 ∧ (s.slot n).cur = some k ∧ s.orphaned n = false ∧ (s.slot n).pend = some q ∧ (s.slot n).checked = true) ∧
    (∃ (s : State) (n : Nat) (k : KeyHalf), s.reaches .mc rBLF_CMD ∧ s.flag BLF_CMD_BUSY = false ∧ 16 ≤ n ∧ n < 1024 ∧ (s.slot n).cur = some k ∧ s.orphaned n = false ∧ ((s.slot n).pend = none ∨ (s.slot n).checked = false)) ∧
    (∃ (s : State) (n : Nat), s.reaches .mc rBLF_CMD ∧ s.flag BLF_CMD_BUSY = false ∧ 16 ≤ n ∧ n < 1024 ∧ s.staleChild n = false) ∧
    (∃ (s : State) (n : Nat), s.reaches .mc rBLF_CMD ∧ s.flag BLF_CMD_BUSY = false ∧ 16 ≤ n ∧ n < 1024 ∧ s.staleChild n = true) ∧
    (∃ (s : State) (n : Nat), s.blf.waiting = none ∧ n = s.blf.steps % 1024) ∧
    (∃ (s : State) (m : Nat), s.blf.waiting = some (m, none) ∧ (s.passed (s.blf.steps % 1024)).staleChild m = true) ∧
    (∃ (s : State) (m : Nat), s.blf.waiting = some (m, none) ∧ 16 ≤ m ∧ m < 1024 ∧ s.orphaned (s.blf.steps % 1024) = false ∧ (s.passed (s.blf.steps % 1024)).staleChild m = false) :=
  ⟨⟨(wBl [(20, wS (some (wK 1 0x60 true 0xFFFF)) (some (wK 0x10 1 false 0xFFFF)) true), (30, wS (some (wK 1 1 false 20)) none false)] Blf.reset []), 20, (wK 0x10 1 false 0xFFFF), (if isAes ((wK 0x10 1 false 0xFFFF) : KeyHalf).alg then (cryptoBytes (.ecb false) [((wK 0x10 1 false 0xFFFF)).key, List.replicate 16 0] 16).take 3 == leBytes 3 ((((wBl [(20, wS (some (wK 1 0x60 true 0xFFFF)) (some (wK 0x10 1 false 0xFFFF)) true), (30, wS (some (wK 1 1 false 20)) none false)] Blf.reset [])).reg rBLF_CMD_ARG).toNat % 2 ^ 24) else ecVerify (algBig ((wK 0x10 1 false 0xFFFF)).alg) ((wK 0x10 1 false 0xFFFF)).pub (testDigest (algBig ((wK 0x10 1 false 0xFFFF)).alg)) (ecSign (algBig ((wK 0x10 1 false 0xFFFF)).alg) ((wK 0x10 1 false 0xFFFF)).key (testDigest (algBig ((wK 0x10 1 false 0xFFFF)).alg)) (((wBl [(20, wS (some (wK 1 0x60 true 0xFFFF)) (some (wK 0x10 1 false 0xFFFF)) true), (30, wS (some (wK 1 1 false 20)) none false)] Blf.reset [])).random (ecLen (algBig ((wK 0x10 1 false 0xFFFF)).alg))).2)), (by unfold State.reaches; decide +kernel), (by first | decide +kernel | rfl), (by first | decide +kernel | rfl), (by first | decide +kernel | rfl), (by first | decide +kernel | rfl), (by first | decide +kernel | rfl), (by first | rfl | decide +kernel)⟩,
   ⟨(wBl [(20, wS (some (wK 1 0x60 true 0xFFFF)) (some (wK 0x10 1 false 0xFFFF)) true), (30, wS (some (wK 1 1 false 20)) none false)] Blf.reset []), 20, (wK 1 0x60 true 0xFFFF), (wK 0x10 1 false 0xFFFF), (by unfold State.reaches; decide +kernel), (by first | decide +kernel | rfl), (by first | decide +kernel | rfl), (by first | decide +kernel | rfl), (by first | decide +kernel | rfl), (by first | decide +kernel | rfl), (by first | decide +kernel | rfl), (by first | decide +kernel | rfl)⟩,
   ⟨(wBl [(20, wS (some (wK 1 0x60 true 0xFFFF)) (some (wK 1 2 true 0xFFFF)) false), (30, wS (some {wK 1 1 false 20 with parentGen := 3}) none false)] Blf.reset []), 20, (wK 1 0x60 true 0xFFFF), (by unfold State.reaches; decide +kernel), (by first | decide +kernel | rfl), (by first | decide +kernel | rfl), (by first | decide +kernel | rfl), (by first | decide +kernel | rfl), (by first | decide +kernel | rfl), (by first | decide +kernel | rfl)⟩,
   ⟨(wBl [(20, wS (some (wK 1 0x60 true 0xFFFF)) (some (wK 0x10 1 false 0xFFFF)) true), (30, wS (some (wK 1 1 false 20)) none false)] Blf.reset []), 20, (by unfold State.reaches; decide +kernel), (by first | decide +kernel | rfl), (by first | decide +kernel | rfl), (by first | decide +kernel | rfl), (by first | decide +kernel | rfl)⟩,
   ⟨(wBl [(20, wS (some (wK 1 0x60 true 0xFFFF)) (some (wK 0x10 1 false 0xFFFF)) true), (30, wS (some (wK 1 1 false 20)) none false)] {Blf.reset with below := [(20,[30])]} []), 20, (by unfold State.reaches; decide +kernel), (by first | decide +kernel | rfl), (by first | decide +kernel | rfl), (by first | decide +kernel | rfl), (by first | decide +kernel | rfl)⟩,
   ⟨(wBl [(20, wS (some (wK 1 0x60 true 0xFFFF)) (some (wK 0x10 1 false 0xFFFF)) true), (30, wS (some (wK 1 1 false 20)) none false)] {Blf.reset with steps := 1023+30+1} []), 30, (by first | decide +kernel | rfl), (by first | rfl | decide +kernel)⟩,
   ⟨(wBl [(20, wS (some (wK 1 0x60 true 0xFFFF)) (some (wK 1 2 true 0xFFFF)) false), (30, wS (some {wK 1 1 false 20 with parentGen := 3}) none false)] {Blf.reset with steps := 30, waiting := some (20,none), below := [(20,[31])]} []), 20, (by first | decide +kernel | rfl), (by first | decide +kernel | rfl)⟩,
   ⟨(wBl [(20, wS (some (wK 1 0x60 true 0xFFFF)) (some (wK 1 2 true 0xFFFF)) false), (30, wS (some {wK 1 1 false 20 with parentGen := 3}) none false)] {Blf.reset with steps := 30, waiting := some (20,none), below := [(20,[30])]} []), 20, (by first | decide +kernel | rfl), (by first | decide +kernel | rfl), (by first | decide +kernel | rfl), (by first | decide +kernel | rfl), (by first | decide +kernel | rfl)⟩⟩

theorem test_wit_BelfryAnswers :
    (∃ (s : State) (n : Nat) (p : Nat) (k : KeyHalf) (w : KeyHalf), s.reaches .mc rBLF_CMD ∧ s.flag BLF_CMD_BUSY = false ∧ n < 1024 ∧ p = s.fld BLF_CMD_ARG_ARG ∧ 16 ≤ n ∧ 16 ≤ p ∧ (s.slot n).cur = some k ∧ s.orphaned n = false ∧ k.exprt = true ∧ (s.slot p).cur = some w ∧ s.orphaned p = false ∧ bitOf w.usage 6 = true ∧ isAes w.alg = true) ∧
    (∃ (s : State) (n : Nat) (p : Nat) (k : KeyHalf), s.reaches .mc rBLF_CMD ∧ s.flag BLF_CMD_BUSY = false ∧ n < 1024 ∧ p = s.fld BLF_CMD_ARG_ARG ∧ 16 ≤ n ∧ 16 ≤ p ∧ (s.slot n).cur = some k ∧ s.orphaned n = false ∧ k.exprt = false) ∧
    (∃ (s : State) (n : Nat) (k : KeyHalf), s.reaches .mc rBLF_CMD ∧ s.flag BLF_CMD_BUSY = false ∧ n < 1024 ∧ (s.slot n).cur = some k ∧ s.orphaned n = false ∧ isAes k.alg = false) ∧
    (∃ (s : State) (n : Nat) (k : KeyHalf), s.reaches .mc rBLF_CMD ∧ s.flag BLF_CMD_BUSY = false ∧ n < 1024 ∧ (s.slot n).cur = some k ∧ s.orphaned n = false ∧ isAes k.alg = true) ∧
    (∃ (s : State) (n : Nat) (k : KeyHalf), s.reaches .mc rBLF_CMD ∧ s.flag BLF_CMD_BUSY = false ∧ n < 1024 ∧ (s.slot n).cur = some k ∧ s.orphaned n = true) :=
  ⟨⟨(wBl [(20, wS (some (wK 1 0x60 true 0xFFFF)) (some (wK 1 2 true 0xFFFF)) false), (30, wS (some {wK 1 1 false 20 with parentGen := 3}) none false)] Blf.reset [(BLF_CMD_ARG_ARG,20)]), 20, (((wBl [(20, wS (some (wK 1 0x60 true 0xFFFF)) (some (wK 1 2 true 0xFFFF)) false), (30, wS (some {wK 1 1 false 20 with parentGen := 3}) none false)] Blf.reset [(BLF_CMD_ARG_ARG,20)])).fld BLF_CMD_ARG_ARG), (wK 1 0x60 true 0xFFFF), (wK 1 0x60 true 0xFFFF), (by unfold State.reaches; decide +kernel), (by first | decide +kernel | rfl), (by first | decide +kernel | rfl), (by first | rfl | decide +kernel), (by first | decide +kernel | rfl), (by first | decide +kernel | rfl), (by first | decide +kernel | rfl), (by first | decide +kernel | rfl), (by first | decide +kernel | rfl), (by first | decide +kernel | rfl), (by first | decide +kernel | rfl), (by first | decide +kernel | rfl), (by first | decide +kernel | rfl)⟩,
   ⟨(wBl [(20, wS (some (wK 1 0x60 true 0xFFFF)) (some (wK 0x10 1 false 0xFFFF)) true), (30, wS (some (wK 1 1 false 20)) none false), (40, wS (some (wK 0x18 1 false 0xFFFF)) none false)] Blf.reset [(BLF_CMD_ARG_ARG,20)]), 40, (((wBl [(20, wS (some (wK 1 0x60 true 0xFFFF)) (some (wK 0x10 1 false 0xFFFF)) true), (30, wS (some (wK 1 1 false 20)) none false), (40, wS (some (wK 0x18 1 false 0xFFFF)) none false)] Blf.reset [(BLF_CMD_ARG_ARG,20)])).fld BLF_CMD_ARG_ARG), (wK 0x18 1 false 0xFFFF), (by unfold State.reaches; decide +kernel), (by first | decide +kernel | rfl), (by first | decide +kernel | rfl), (by first | rfl | decide +kernel), (by first | decide +kernel | rfl), (by first | decide +kernel | rfl), (by first | decide +kernel | rfl), (by first | decide +kernel | rfl), (by first | decide +kernel | rfl)⟩,
   ⟨(wBl [(20, wS (some (wK 1 0x60 true 0xFFFF)) (some (wK 0x10 1 false 0xFFFF)) true), (30, wS (some (wK 1 1 false 20)) none false), (40, wS (some (wK 0x18 1 false 0xFFFF)) none false)] Blf.reset [(BLF_CMD_ARG_ARG,20)]), 40, (wK 0x18 1 false 0xFFFF), (by unfold State.reaches; decide +kernel), (by first | decide +kernel | rfl), (by first | decide +kernel | rfl), (by first | decide +kernel | rfl), (by first | decide +kernel | rfl), (by first | decide +kernel | rfl)⟩,
   ⟨(wBl [(20, wS (some (wK 1 0x60 true 0xFFFF)) (some (wK 1 2 true 0xFFFF)) false), (30, wS (some {wK 1 1 false 20 with parentGen := 3}) none false)] Blf.reset [(BLF_CMD_ARG_ARG,20)]), 20, (wK 1 0x60 true 0xFFFF), (by unfold State.reaches; decide +kernel), (by first | decide +kernel | rfl), (by first | decide +kernel | rfl), (by first | decide +kernel | rfl), (by first | decide +kernel | rfl), (by first | decide +kernel | rfl)⟩,
   ⟨(wBl [(20, wS (some (wK 1 0x60 true 0xFFFF)) (some (wK 0x10 1 false 0xFFFF)) true), (30, wS (some (wK 1 1 false 20)) none false), (40, wS (some (wK 0x18 1 false 0xFFFF)) none false)] Blf.reset [(BLF_CMD_ARG_ARG,20)]), 30, (wK 1 1 false 20), (by unfold State.reaches; decide +kernel), (by first | decide +kernel | rfl), (by first | decide +kernel | rfl), (by first | decide +kernel | rfl), (by first | decide +kernel | rfl)⟩⟩

theorem test_wit_YelnyAndBelfryRefusals :
    (∃ (s : State) (st : Nat) (e : List Byte) (w : List Byte), s.reaches .mc rBLF_CMD ∧ s.flag BLF_CMD_BUSY = false ∧ w = s.window (rBLF_DATA 0) 4096 ∧ st = s.yelCheck w ∧ e = w.take (leNat (slice w 6 2))) ∧
    (∃ (s : State) (n : Nat) (e : List Byte), s.reaches .mc rBLF_CMD ∧ s.flag BLF_CMD_BUSY = false ∧ n = byteAt e 26 ∧ byteAt e 25 = 2) ∧
    (∃ (s : State) (n : Nat) (e : List Byte), s.reaches .mc rBLF_CMD ∧ s.flag BLF_CMD_BUSY = false ∧ n = byteAt e 26 ∧ byteAt e 25 = 1 ∧ isPub (byteAt e 27) = true) ∧
    (∃ (s : State), s.reaches .mc rBLF_CMD ∧ s.flag BLF_CMD_BUSY = false ∧ s.blf.staged = none) ∧
    (∃ (s : State) (n : Nat) (e : List Byte) (x : SlotSt), s.reaches .mc rBLF_CMD ∧ s.flag BLF_CMD_BUSY = false ∧ s.blf.staged = some (e, x) ∧ n = byteAt e 26 ∧ 2 ≤ n) ∧
    (∃ (s : State) (r : Requester) (slot : Nat) (a : Bool) (b : Bool), ∃ c, c ∈ [Instr.blfGenerate r slot a b, .blfDerive r slot a b, .blfImport r slot a b, .blfImportPublic r slot, .blfExport r slot, .blfCheck r slot, .blfCommit r slot, .blfDiscardPending r slot, .blfInvalidate r slot, .blfReadAttr r slot, .blfGetPublic r slot, .blfAttest r slot, .blfCert r, .yelnyStage r, .yelnyCommit r] ∧ s.reaches r rBLF_CMD ∧ s.flag BLF_CMD_BUSY = true) ∧
    (∃ (s : State) (r : Requester) (slot : Nat) (a : Bool) (b : Bool), ∃ c, c ∈ [Instr.blfGenerate r slot a b, .blfDerive r slot a b, .blfImport r slot a b, .blfImportPublic r slot, .blfExport r slot, .blfCheck r slot, .blfCommit r slot, .blfDiscardPending r slot, .blfInvalidate r slot, .blfReadAttr r slot, .blfGetPublic r slot, .blfAttest r slot, .blfCert r, .yelnyStage r, .yelnyCommit r] ∧ isHost r = true ∧ s.unreachable r = false ∧ s.powered rBLF_CMD = true) :=
  ⟨⟨(wBl [] Blf.reset []), (((wBl [] Blf.reset [])).yelCheck (((wBl [] Blf.reset [])).window (rBLF_DATA 0) 4096)), [], (((wBl [] Blf.reset [])).window (rBLF_DATA 0) 4096), (by unfold State.reaches; decide +kernel), (by first | decide +kernel | rfl), (by first | rfl | decide +kernel), (by first | rfl | decide +kernel), (by first | rfl | decide +kernel)⟩,
   ⟨(wBl [] Blf.reset []), (byteAt (List.replicate 24 0 ++ [9,2,20] : List Byte) 26), (List.replicate 24 0 ++ [9,2,20] : List Byte), (by unfold State.reaches; decide +kernel), (by first | decide +kernel | rfl), (by first | rfl | decide +kernel), (by first | decide +kernel | rfl)⟩,
   ⟨(wBl [] Blf.reset []), (byteAt (List.replicate 24 0 ++ [9,1,20,0x18,1,1] ++ List.replicate 100 3 : List Byte) 26), (List.replicate 24 0 ++ [9,1,20,0x18,1,1] ++ List.replicate 100 3 : List Byte), (by unfold State.reaches; decide +kernel), (by first | decide +kernel | rfl), (by first | rfl | decide +kernel), (by first | decide +kernel | rfl), (by first | decide +kernel | rfl)⟩,
   ⟨(wBl [] Blf.reset []), (by unfold State.reaches; decide +kernel), (by first | decide +kernel | rfl), (by first | decide +kernel | rfl)⟩,
   ⟨(wBl [] {Blf.reset with staged := some ((List.replicate 24 0 ++ [9,2,20] : List Byte), ⟨none,none,false,1,2,3⟩)} []), (byteAt (List.replicate 24 0 ++ [9,2,20] : List Byte) 26), (List.replicate 24 0 ++ [9,2,20] : List Byte), ⟨none,none,false,1,2,3⟩, (by unfold State.reaches; decide +kernel), (by first | decide +kernel | rfl), (by first | decide +kernel | rfl), (by first | rfl | decide +kernel), (by first | decide +kernel | rfl)⟩,
   ⟨(wBl [] Blf.reset [(BLF_CMD_BUSY,1)]), .mc, 20, true, false, (Instr.yelnyCommit (.mc : Requester)), (by simp), (by unfold State.reaches; decide +kernel), (by first | decide +kernel | rfl)⟩,
   ⟨(wBl [] Blf.reset []), .hi0, 20, true, false, (Instr.yelnyCommit (.hi0 : Requester)), (by simp), (by first | decide +kernel | rfl), (by first | decide +kernel | rfl), (by first | decide +kernel | rfl)⟩⟩

end W14

namespace W15
/-- Data of the witnesses below. -/
def wLdgImg (cl : Byte) (iv : Byte) : Mem := wImg [(0x10, 0x500, [(0, [1, 0, iv, 0]), (16, [0, 1, 3, cl, 7, 0, 20, 0, 2, 0]), (32, [0, 1, 4, 5, 8, 0, 21, 0, 2, 0])])]
/-- Data of the witnesses below. -/
def wKl : KeyHalf := ⟨2, 4, 0xFFFF, 0, 0, false, 0, List.replicate 32 7, []⟩
/-- Data of the witnesses below. -/
def wLdg (img : Mem) (q : List LdgRec) (l : List (Fld × Nat)) : State := { wPut wOn ([(LDG_FLAGS_READY, 1)] ++ l) with active := img, ldgQ := q, ao := 100, blf := { Blf.reset with slots := [(20, ⟨some wKl, none, false, 3, 9, 0x40⟩), (5, ⟨some wKl, none, false, 3, 9, 0x40⟩)] } }
/-- Data of the witnesses below. -/
def wRc (v a : Byte) (mt : Byte) (seq : Nat) (tag : List Byte) : List Byte := [v, a, 0, mt] ++ (leBytes 4 seq).reverse ++ (leBytes 4 1000).reverse ++ (leBytes 4 50).reverse ++ List.replicate 8 0 ++ tag
/-- Data of the witnesses below. -/
def wT (v a mt : Byte) (seq : Nat) : List Byte := wRc v a mt seq ((cmac wKl.key (wRc v a mt seq [])).take 8)
/-- Data of the witnesses below. -/
def wCk (m : List Byte) (ctr : Nat) (tag : Byte) : List (Fld × Nat) → State → State := fun _ s => (m ++ leBytes 4 0 ++ leBytes 4 ctr ++ leBytes 4 9 ++ [3]).zipIdx.foldl (fun (s : State) (e : Byte × Nat) => { s with regs := tabSet 0 s.regs (rLDG_DATA (e.2 / 4)) (s.reg (rLDG_DATA (e.2 / 4)) ||| (BitVec.ofNat 32 (e.1.toNat * 2 ^ (8 * (e.2 % 4))))) }) { s with regs := tabSet 0 s.regs (rLDG_DATA 776) (BitVec.ofNat 32 tag.toNat) }
/-- Data of the witnesses below. -/
def wBad : List Byte := List.replicate 8 ((cmac wKl.key (wRc 1 0 7 5 [])).headD 0 + 1)
/-- Data of the witnesses below. -/
def wSeed (aov : Nat) : State := wLdg (wLdgImg 5 1) [] [(LDG_FLAGS_AO_VALID, aov), (LDG_CKPT_CTR_COUNT, 7), (⟨rLDG_DATA 0, 0, 32⟩, 0x434C514B)]
/-- Data of the witnesses below. -/
def wTag (aov : Nat) (i : Nat) : Byte := (cmac (wSeed aov).ldgSealKey (((wSeed aov).window (rLDG_DATA 0) 3120).take 3104)).getD i 0
/-- Data of the witnesses below. -/
def wWord (aov : Nat) (j : Nat) : BitVec 32 :=
  BitVec.ofNat 32 ((wTag aov (4 * j)).toNat + 256 * (wTag aov (4 * j + 1)).toNat + 65536 * (wTag aov (4 * j + 2)).toNat + 16777216 * (wTag aov (4 * j + 3)).toNat)
/-- Data of the witnesses below. -/
def wSealed (aov : Nat) : State :=
  { wSeed aov with regs := (wSeed aov).regs ++ [0, 1, 2, 3].map (fun j => (rLDG_DATA (776 + j), wWord aov j)) }
theorem byte_succ_ne (b : Byte) : b + 1 ≠ b := by
  intro h
  have := congrArg BitVec.toNat h
  simp [BitVec.toNat_add] at this
  omega
theorem bad_tag : slice (wRc 1 0 7 5 wBad) 24 8 ≠ (cmac wKl.key ((wRc 1 0 7 5 wBad).take 24)).take 8 := by
  intro h
  exact byte_succ_ne _ (congrArg (fun l => l.headD 0) h)
theorem word_byte (a b c d : Byte) :
    (List.range 4).map (fun i => BitVec.ofNat 8 (bits (BitVec.ofNat 32 (a.toNat + 256 * b.toNat + 65536 * c.toNat +
      16777216 * d.toNat)).toNat (8 * i) 8)) = [a, b, c, d] := by
  have h := a.isLt; have h1 := b.isLt; have h2 := c.isLt; have h3 := d.isLt
  simp only [List.range, List.range.loop, List.map, bits, BitVec.toNat_ofNat, List.cons.injEq, and_true]
  refine ⟨?_, ?_, ?_, ?_⟩ <;> apply BitVec.eq_of_toNat_eq <;> simp only [BitVec.toNat_ofNat] <;> omega
theorem tabFind_append {α : Type} (l m : Tab α) (n : Nat) : tabFind m n = none → tabFind (l ++ m) n = tabFind l n := by
  intro h
  induction l with
  | nil => simpa [tabFind] using h
  | cons e l ih => simp only [List.cons_append, tabFind, ih]
theorem window_of_regs (s t : State) (a n : Nat) (h : ∀ i, i < n → t.reg (a + 4 * (i / 4)) = s.reg (a + 4 * (i / 4))) :
    t.window a n = s.window a n := by
  refine List.map_congr_left (fun i hi => ?_)
  rw [h i (List.mem_range.1 hi)]
theorem window_take (s : State) (a n m : Nat) (h : m ≤ n) : (s.window a n).take m = s.window a m := by
  simp only [State.window, ← List.map_take, List.take_range, Nat.min_eq_left h]
theorem cmac_bytes (k m : List Byte) : [(cmac k m).getD 0 0, (cmac k m).getD 1 0, (cmac k m).getD 2 0, (cmac k m).getD 3 0, (cmac k m).getD 4 0, (cmac k m).getD 5 0, (cmac k m).getD 6 0, (cmac k m).getD 7 0, (cmac k m).getD 8 0, (cmac k m).getD 9 0, (cmac k m).getD 10 0, (cmac k m).getD 11 0, (cmac k m).getD 12 0, (cmac k m).getD 13 0, (cmac k m).getD 14 0, (cmac k m).getD 15 0] = cmac k m := rfl
theorem sealed_body : ((wSealed 1).window (rLDG_DATA 0) 3120).take 3104 = ((wSeed 1).window (rLDG_DATA 0) 3120).take 3104 := by
  rw [window_take _ _ _ _ (by decide), window_take _ _ _ _ (by decide)]
  refine window_of_regs _ _ _ _ (fun i hi => ?_)
  have hk : tabFind ([0, 1, 2, 3].map (fun j => (rLDG_DATA (776 + j), wWord 1 j))) (rLDG_DATA 0 + 4 * (i / 4)) = none := by
    simp only [List.map, tabFind, rLDG_DATA]
    repeat rw [if_neg (by omega)]
  have e : tabFind (wSealed 1).regs (rLDG_DATA 0 + 4 * (i / 4)) = tabFind (wSeed 1).regs (rLDG_DATA 0 + 4 * (i / 4)) :=
    tabFind_append _ _ _ hk
  unfold State.reg
  rw [e]
theorem sealed_tag : slice ((wSealed 1).window (rLDG_DATA 0) 3120) 3104 16 =
    ((List.range 4).map (fun i => BitVec.ofNat 8 (bits (wWord 1 0).toNat (8 * i) 8))) ++
    ((List.range 4).map (fun i => BitVec.ofNat 8 (bits (wWord 1 1).toNat (8 * i) 8))) ++
    ((List.range 4).map (fun i => BitVec.ofNat 8 (bits (wWord 1 2).toNat (8 * i) 8))) ++
    ((List.range 4).map (fun i => BitVec.ofNat 8 (bits (wWord 1 3).toNat (8 * i) 8))) := by
  rfl
theorem sealed_key : (wSealed 1).ldgSealKey = (wSeed 1).ldgSealKey := rfl
theorem tag_bytes (k m : List Byte) (g : Nat → Byte) (h : ∀ i, g i = (cmac k m).getD i 0) :
    [g 0, g 1, g 2, g 3] ++ [g 4, g 5, g 6, g 7] ++ [g 8, g 9, g 10, g 11] ++ [g 12, g 13, g 14, g 15] = cmac k m := by
  simp only [h, List.cons_append, List.nil_append]
  exact cmac_bytes k m
theorem sealed_cmac : slice ((wSealed 1).window (rLDG_DATA 0) 3120) 3104 16 =
    cmac (wSealed 1).ldgSealKey (((wSealed 1).window (rLDG_DATA 0) 3120).take 3104) := by
  rw [sealed_body, sealed_key]
  refine (sealed_tag.trans ?_).trans (tag_bytes _ _ (wTag 1) (fun i => rfl))
  simp only [wWord, word_byte, Nat.reduceMul, Nat.reduceAdd]
/-- The sealed state with another word in LDG_FLAGS. -/
def wSealedBut (v : BitVec 32) : State := { wSealed 1 with regs := (rLDG_FLAGS, v) :: (wSealed 1).regs }
theorem but_window (v : BitVec 32) : (wSealedBut v).window (rLDG_DATA 0) 3120 = (wSealed 1).window (rLDG_DATA 0) 3120 := by
  refine window_of_regs _ _ _ _ (fun i hi => ?_)
  have hk : rLDG_FLAGS ≠ rLDG_DATA 0 + 4 * (i / 4) := by
    simp only [rLDG_FLAGS, rLDG_DATA]
    omega
  have e : tabFind (wSealedBut v).regs (rLDG_DATA 0 + 4 * (i / 4)) = tabFind (wSealed 1).regs (rLDG_DATA 0 + 4 * (i / 4)) :=
    if_neg hk
  unfold State.reg
  rw [e]
theorem but_cmac (v : BitVec 32) : slice ((wSealedBut v).window (rLDG_DATA 0) 3120) 3104 16 =
    cmac (wSealedBut v).ldgSealKey (((wSealedBut v).window (rLDG_DATA 0) 3120).take 3104) := by
  rw [but_window, (rfl : (wSealedBut v).ldgSealKey = (wSealed 1).ldgSealKey)]
  exact sealed_cmac

theorem test_wit_LedgerTakesRecords :
    (∃ (s : State), s.ldgQ = []) ∧
    (∃ (s : State) (x : LdgRec) (q : List LdgRec) (b : List Byte), s.ldgQ = x :: q ∧ b = x.bytes ∧ s.flag LDG_FLAGS_READY = false) ∧
    (∃ (s : State) (x : LdgRec) (q : List LdgRec) (b : List Byte), s.ldgQ = x :: q ∧ b = x.bytes ∧ s.flag LDG_FLAGS_READY = true ∧ (byteAt b 0 ≠ 1 ∨ s.ldgFind x.port (be16 b 2) = none)) ∧
    (∃ (s : State) (x : LdgRec) (q : List LdgRec) (b : List Byte) (c : Nat), s.ldgQ = x :: q ∧ b = x.bytes ∧ s.flag LDG_FLAGS_READY = true ∧ byteAt b 0 = 1 ∧ s.ldgFind x.port (be16 b 2) = some c ∧ s.ldgKey c = none) ∧
    (∃ (s : State) (x : LdgRec) (q : List LdgRec) (b : List Byte) (k : List Byte) (c : Nat), s.ldgQ = x :: q ∧ b = x.bytes ∧ s.flag LDG_FLAGS_READY = true ∧ byteAt b 0 = 1 ∧ s.ldgFind x.port (be16 b 2) = some c ∧ s.ldgKey c = some k ∧ slice b 24 8 ≠ (cmac k (b.take 24)).take 8) ∧
    (∃ (s : State) (x : LdgRec) (q : List LdgRec) (b : List Byte) (k : List Byte) (c : Nat), s.ldgQ = x :: q ∧ b = x.bytes ∧ s.flag LDG_FLAGS_READY = true ∧ byteAt b 0 = 1 ∧ s.ldgFind x.port (be16 b 2) = some c ∧ s.ldgKey c = some k ∧ slice b 24 8 = (cmac k (b.take 24)).take 8 ∧ s.flag (LDG_CH_STATE_FRESH c) = false ∧ beNat (slice b 4 4) ≤ s.fld (LDG_CH_LAST_SEQ_VAL c)) ∧
    (∃ (s : State) (x : LdgRec) (q : List LdgRec) (b : List Byte) (k : List Byte) (c : Nat), s.ldgQ = x :: q ∧ b = x.bytes ∧ s.flag LDG_FLAGS_READY = true ∧ byteAt b 0 = 1 ∧ s.ldgFind x.port (be16 b 2) = some c ∧ s.ldgKey c = some k ∧ slice b 24 8 = (cmac k (b.take 24)).take 8 ∧ (s.flag (LDG_CH_STATE_FRESH c) = true ∨ s.fld (LDG_CH_LAST_SEQ_VAL c) < beNat (slice b 4 4))) ∧
    (∃ (s : State) (c : Nat), c < 64 ∧ s.flag (LDG_CH_STATE_HOLDING c) = true ∧ s.ldgHoldDue c = true) ∧
    (∃ (s : State) (c : Nat), (64 ≤ c ∨ s.flag (LDG_CH_STATE_HOLDING c) = false ∨ s.ldgHoldDue c = false)) :=
  ⟨⟨(wLdg (wLdgImg 5 1) [] []), (by first | decide +kernel | rfl)⟩,
   ⟨(wLdg (wLdgImg 5 1) [⟨3, (wT 1 0 7 5)⟩] [(LDG_FLAGS_READY,0)]), ⟨3, (wT 1 0 7 5)⟩, [], (wT 1 0 7 5), (by first | decide +kernel | rfl), (by first | rfl | decide +kernel), (by first | decide +kernel | rfl)⟩,
   ⟨(wLdg (wLdgImg 5 1) [⟨3, (wT 2 0 7 5)⟩] []), ⟨3, (wT 2 0 7 5)⟩, [], (wT 2 0 7 5), (by first | decide +kernel | rfl), (by first | rfl | decide +kernel), (by first | decide +kernel | rfl), (by first | decide +kernel | rfl)⟩,
   ⟨({ (wLdg (wLdgImg 5 1) [⟨3, (wT 1 0 7 5)⟩] []) with blf := Blf.reset }), ⟨3, (wT 1 0 7 5)⟩, [], (wT 1 0 7 5), 0, (by first | decide +kernel | rfl), (by first | rfl | decide +kernel), (by first | decide +kernel | rfl), (by first | decide +kernel | rfl), (by first | decide +kernel | rfl), (by first | decide +kernel | rfl)⟩,
   ⟨wLdg (wLdgImg 5 1) [⟨3, wRc 1 0 7 5 wBad⟩] [], ⟨3, wRc 1 0 7 5 wBad⟩, [], wRc 1 0 7 5 wBad, wKl.key, 0, rfl, rfl, (by decide +kernel), (by decide +kernel), (by decide +kernel), (by decide +kernel), bad_tag⟩,
   ⟨(wLdg (wLdgImg 5 1) [⟨3, (wT 1 0 7 5)⟩] [(LDG_CH_LAST_SEQ_VAL 0,5)]), ⟨3, (wT 1 0 7 5)⟩, [], (wT 1 0 7 5), wKl.key, 0, (by first | decide +kernel | rfl), (by first | rfl | decide +kernel), (by first | decide +kernel | rfl), (by first | decide +kernel | rfl), (by first | decide +kernel | rfl), (by first | decide +kernel | rfl), (by first | decide +kernel | rfl), (by first | decide +kernel | rfl), (by first | decide +kernel | rfl)⟩,
   ⟨(wLdg (wLdgImg 0xFF 1) [⟨3,wT 1 1 7 5⟩] []), ⟨3,wT 1 1 7 5⟩, [], (wT 1 1 7 5), wKl.key, 0, (by first | decide +kernel | rfl), (by first | rfl | decide +kernel), (by first | decide +kernel | rfl), (by first | decide +kernel | rfl), (by first | decide +kernel | rfl), (by first | decide +kernel | rfl), (by first | decide +kernel | rfl), (by first | decide +kernel | rfl)⟩,
   ⟨({ (wLdg (wLdgImg 5 1) [] [(LDG_CH_STATE_HOLDING 0,1)]) with ao := 5000000 }), 0, (by first | decide +kernel | rfl), (by first | decide +kernel | rfl), (by first | decide +kernel | rfl)⟩,
   ⟨(wLdg (wLdgImg 5 1) [] []), 0, (by first | decide +kernel | rfl)⟩⟩

theorem test_wit_LedgerCommands :
    (∃ (s : State), s.reaches .mc rLDG_CTL ∧ s.flag LDG_FLAGS_READY = false) ∧
    (∃ (s : State) (b : List Byte), s.reaches .mc rLDG_CTL ∧ b = s.window (rLDG_DATA 0) 3120 ∧ (slice b 0 4 ≠ [0x4B, 0x51, 0x4C, 0x43] ∨ slice b 3104 16 ≠ cmac s.ldgSealKey (b.take 3104))) ∧
    (∃ (s : State) (b : List Byte), s.reaches .mc rLDG_CTL ∧ b = s.window (rLDG_DATA 0) 3120 ∧ slice b 0 4 = [0x4B, 0x51, 0x4C, 0x43] ∧ slice b 3104 16 = cmac s.ldgSealKey (b.take 3104) ∧ s.flag LDG_FLAGS_AO_VALID = true ∧ leNat (slice b 8 4) ≠ s.fld LDG_CKPT_CTR_COUNT) ∧
    (∃ (s : State) (b : List Byte), s.reaches .mc rLDG_CTL ∧ b = s.window (rLDG_DATA 0) 3120 ∧ slice b 0 4 = [0x4B, 0x51, 0x4C, 0x43] ∧ slice b 3104 16 = cmac s.ldgSealKey (b.take 3104) ∧ (s.flag LDG_FLAGS_AO_VALID = false ∨ leNat (slice b 8 4) = s.fld LDG_CKPT_CTR_COUNT)) ∧
    (∃ (s : State), s.reaches .mc rLDG_CTL ∧ s.flag LDG_FLAGS_READY = true ∧ (s.slot 5).cur = none) ∧
    (∃ (s : State) (k : KeyHalf), s.reaches .mc rLDG_CTL ∧ s.flag LDG_FLAGS_READY = true ∧ (s.slot 5).cur = some k) ∧
    (∃ (s : State), s.flag LDG_FLAGS_READY = true ∧ secLe s.active tyLEDGER 2 2 ≠ 0) ∧
    (∃ (s : State), (s.flag LDG_FLAGS_READY = false ∨ secLe s.active tyLEDGER 2 2 = 0)) ∧
    (∃ (s : State) (r : Requester), ∃ c, c ∈ [Instr.ldgRestore r, .ldgFresh r, .ldgSeal r, .ldgReport r] ∧ isHost r = true ∧ s.unreachable r = false ∧ s.powered rLDG_CTL = true) :=
  ⟨⟨(wLdg (wLdgImg 5 1) [] [(LDG_FLAGS_READY,0)]), (by unfold State.reaches; decide +kernel), (by first | decide +kernel | rfl)⟩,
   ⟨(wLdg (wLdgImg 5 1) [] []), (((wLdg (wLdgImg 5 1) [] [])).window (rLDG_DATA 0) 3120), (by unfold State.reaches; decide +kernel), (by first | rfl | decide +kernel), (by first | decide +kernel | rfl)⟩,
   ⟨wSealed 1, (wSealed 1).window (rLDG_DATA 0) 3120, (by unfold State.reaches; decide +kernel), rfl, (by decide +kernel), sealed_cmac, (by decide +kernel), (by decide +kernel)⟩,
   ⟨wSealedBut 1, (wSealedBut 1).window (rLDG_DATA 0) 3120, (by unfold State.reaches; decide +kernel), rfl, (by decide +kernel), but_cmac 1, (by decide +kernel)⟩,
   ⟨({ (wLdg (wLdgImg 5 1) [] []) with blf := Blf.reset }), (by unfold State.reaches; decide +kernel), (by first | decide +kernel | rfl), (by first | decide +kernel | rfl)⟩,
   ⟨(wLdg (wLdgImg 5 1) [] []), wKl, (by unfold State.reaches; decide +kernel), (by first | decide +kernel | rfl), (by first | decide +kernel | rfl)⟩,
   ⟨({ (wLdg (wLdgImg 5 1) [] []) with blf := Blf.reset }), (by first | decide +kernel | rfl), (by first | decide +kernel | rfl)⟩,
   ⟨(wLdg (wLdgImg 5 0) [] []), (by first | decide +kernel | rfl)⟩,
   ⟨(wLdg (wLdgImg 5 1) [] []), .hi0, (by decide +kernel)⟩⟩

end W15

namespace W16
/-- Data of the witnesses below. -/
def wKa (u : Nat) : KeyHalf := ⟨2, u, 0xFFFF, 0, 0, false, 0, List.replicate 32 7, []⟩
/-- Data of the witnesses below. -/
def wHd (m f sl dl al tl : Nat) : List Byte := [BitVec.ofNat 8 m, BitVec.ofNat 8 f] ++ leBytes 2 sl ++ leBytes 4 dl ++ leBytes 2 al ++ [BitVec.ofNat 8 tl, 0] ++ leBytes 4 0x1000 ++ leBytes 4 0x2000 ++ leBytes 4 0x3000 ++ leBytes 4 0x4000 ++ leBytes 4 0
/-- Data of the witnesses below. -/
def wCp (ops : List CphOp) (cpl : List (Nat × Nat)) (l : List (Fld × Nat)) : State := { wPut wOn ([(PLC_CPH_MASK_LO_AE,0xF0),(PLC_GH_MASK_GH,6)] ++ l) with cph := { State.reset.cph with ops := ops, cpl := cpl, nextId := 9 }, blf := { Blf.reset with slots := [(20, ⟨some (wKa 7), none, false, 3, 9, 0x40⟩)] } }
/-- Data of the witnesses below. -/
def wSt (s : State) (op : CphOp) : CphSt := s.cphStart op (if (cphHdr op.hdr).aes then s.cphFree else none) (if (cphHdr op.hdr).gcm then s.ghashFree else none)
/-- Data of the witnesses below. -/
def wRr (s : State) (op : CphOp) : CphRun := match wSt s op with | .running r => r | _ => ⟨none,none,0,[],0,0,⟨[],[],[],0,0,false,0,false⟩⟩
/-- Data of the witnesses below. -/
def wEe (s : State) (op : CphOp) : Nat := match wSt s op with | .ended e _ => e | _ => 77

theorem test_wit_CipherCommands :
    (∃ (s : State) (r : Requester), s.reaches r rCPH_CMD ∧ s.cphFull = true) ∧
    (∃ (s : State) (r : Requester), s.reaches r rCPH_CMD ∧ s.cphFull = false ∧ s.flag CPH_ALARM_REFUSING = false ∧ (∀ o ∈ s.cph.ops, o.held = true)) ∧
    (∃ (s : State) (r : Requester), s.reaches r rCPH_CMD ∧ s.cphFull = false ∧ s.flag CPH_ALARM_REFUSING = true ∧ s.cph.ops = [] ∧ s.cph.cpl = []) ∧
    (∃ (s : State) (r : Requester) (id : Nat), s.reaches r rCPH_ABORT ∧ id < 65536 ∧ s.cph.ops.find? (fun x => x.id == id && x.domain == 112) = none) ∧
    (∃ (s : State) (r : Requester) (id : Nat) (op : CphOp), s.reaches r rCPH_ABORT ∧ id < 65536 ∧ s.cph.ops = [op] ∧ op.id = id ∧ op.domain = 112 ∧ op.st = .queued ∧ s.cph.cpl.length < 64) ∧
    (∃ (s : State) (r : Requester), s.reaches r rCPH_CTL) :=
  ⟨⟨(wCp (List.replicate 192 ⟨5, 112, (wHd 1 6 20 32 0 0), .queued⟩) [] []), .mc, (by unfold State.reaches; decide +kernel), (by first | decide +kernel | rfl)⟩,
   ⟨(wCp [] [] []), .mc, (by unfold State.reaches; decide +kernel), (by first | decide +kernel | rfl), (by first | decide +kernel | rfl), (by first | decide +kernel | rfl)⟩,
   ⟨(wCp [] [] [(CPH_ALARM_REFUSING,1)]), .mc, (by unfold State.reaches; decide +kernel), (by first | decide +kernel | rfl), (by first | decide +kernel | rfl), (by first | decide +kernel | rfl), (by first | decide +kernel | rfl)⟩,
   ⟨(wCp [] [] []), .mc, 5, (by unfold State.reaches; decide +kernel), (by first | decide +kernel | rfl), (by first | decide +kernel | rfl)⟩,
   ⟨(wCp [⟨5, 112, (wHd 1 6 20 32 0 0), .queued⟩] [] []), .mc, 5, ⟨5, 112, (wHd 1 6 20 32 0 0), .queued⟩, (by unfold State.reaches; decide +kernel), (by first | decide +kernel | rfl), (by first | decide +kernel | rfl), (by first | decide +kernel | rfl), (by first | decide +kernel | rfl), (by first | decide +kernel | rfl), (by first | decide +kernel | rfl)⟩,
   ⟨(wCp [] [] []), .mc, (by unfold State.reaches; decide +kernel)⟩⟩

theorem test_wit_CipherStartsAndCommits :
    (∃ (s : State) (p : Nat) (body : List Byte) (fs : List Frame) (w : List (Nat × List Byte × List Frame)), s.cph.rxWait = (p, body, fs) :: w ∧ s.msecServes = true) ∧
    (∃ (s : State), (s.cph.rxWait = [] ∨ s.msecServes = false) ∧ s.cph.ops.find? s.cphReady = none) ∧
    (∃ (s : State) (op : CphOp) (run : CphRun) (h : CphHdr) (eng : Option Nat) (gh : Option Nat), (s.cph.rxWait = [] ∨ s.msecServes = false) ∧ s.cph.ops = [op] ∧ s.cphReady op = true ∧ h = cphHdr op.hdr ∧ eng = (if h.aes then s.cphFree else none) ∧ gh = (if h.gcm then s.ghashFree else none) ∧ s.cphStart op eng gh = .running run) ∧
    (∃ (s : State) (op : CphOp) (h : CphHdr) (e : Nat) (eng : Option Nat) (gh : Option Nat), (s.cph.rxWait = [] ∨ s.msecServes = false) ∧ s.cph.ops = [op] ∧ s.cphReady op = true ∧ h = cphHdr op.hdr ∧ eng = (if h.aes then s.cphFree else none) ∧ gh = (if h.gcm then s.ghashFree else none) ∧ ∃ full, s.cphStart op eng gh = .ended e full ∧ op.domain = 112 ∧ s.cph.cpl.length < 64) ∧
    (∃ (s : State) (op : CphOp) (h : CphHdr) (eng : Option Nat) (gh : Option Nat), (s.cph.rxWait = [] ∨ s.msecServes = false) ∧ s.cph.ops = [op] ∧ s.cphReady op = true ∧ h = cphHdr op.hdr ∧ eng = (if h.aes then s.cphFree else none) ∧ gh = (if h.gcm then s.ghashFree else none) ∧ h.bad op.hdr = true) ∧
    (∃ (s : State) (op : CphOp) (h : CphHdr) (eng : Option Nat) (gh : Option Nat), (s.cph.rxWait = [] ∨ s.msecServes = false) ∧ s.cph.ops = [op] ∧ s.cphReady op = true ∧ h = cphHdr op.hdr ∧ eng = (if h.aes then s.cphFree else none) ∧ gh = (if h.gcm then s.ghashFree else none) ∧ h.bad op.hdr = false ∧ h.lengths ≠ 0) ∧
    (∃ (s : State) (op : CphOp) (run : CphRun) (h : CphHdr), s.cph.ops = [op] ∧ op.st = .running run ∧ op.domain = 112 ∧ s.cph.cpl.length < 64 ∧ h = cphHdr op.hdr ∧ h.save = false ∧ h.mode = 1) ∧
    (∃ (s : State) (op : CphOp) (run : CphRun) (h : CphHdr), s.cph.ops = [op] ∧ op.st = .running run ∧ op.domain = 112 ∧ s.cph.cpl.length < 64 ∧ h = cphHdr op.hdr ∧ h.save = false ∧ h.mode = 3) ∧
    (∃ (s : State) (e : Nat), (∀ o ∈ s.cph.ops, o.id ≠ e)) :=
  ⟨⟨({(wCp [] [] []) with cph := { State.reset.cph with rxWait := [(3,[1,2],[])] } }), 3, [1,2], [], [], (by first | decide +kernel | rfl), (by first | decide +kernel | rfl)⟩,
   ⟨(wCp [⟨5, 112, (wHd 1 6 20 3 0 0), .running (wRr (wCp [⟨5, 112, (wHd 1 6 20 3 0 0), .queued⟩] [] []) ⟨5, 112, (wHd 1 6 20 3 0 0), .queued⟩)⟩] [] []), (by first | decide +kernel | rfl), (by first | decide +kernel | rfl)⟩,
   ⟨(wCp [⟨5, 112, (wHd 9 6 0 32 0 0), .queued⟩] [] []), ⟨5, 112, (wHd 9 6 0 32 0 0), .queued⟩, (wRr (wCp [⟨5, 112, (wHd 9 6 0 32 0 0), .queued⟩] [] []) ⟨5, 112, (wHd 9 6 0 32 0 0), .queued⟩), (cphHdr (wHd 9 6 0 32 0 0)), (if (cphHdr (wHd 9 6 0 32 0 0)).aes then ((wCp [⟨5, 112, (wHd 9 6 0 32 0 0), .queued⟩] [] [])).cphFree else none), (if (cphHdr (wHd 9 6 0 32 0 0)).gcm then ((wCp [⟨5, 112, (wHd 9 6 0 32 0 0), .queued⟩] [] [])).ghashFree else none), (by first | decide +kernel | rfl), (by first | decide +kernel | rfl), (by first | decide +kernel | rfl), (by first | rfl | decide +kernel), (by first | rfl | decide +kernel), (by first | rfl | decide +kernel), (by first | decide +kernel | rfl)⟩,
   ⟨(wCp [⟨5, 112, (wHd 1 6 20 3 0 0), .queued⟩] [] []), ⟨5, 112, (wHd 1 6 20 3 0 0), .queued⟩, (cphHdr (wHd 1 6 20 3 0 0)), (wEe (wCp [⟨5, 112, (wHd 1 6 20 3 0 0), .queued⟩] [] []) ⟨5, 112, (wHd 1 6 20 3 0 0), .queued⟩), (if (cphHdr (wHd 1 6 20 3 0 0)).aes then ((wCp [⟨5, 112, (wHd 1 6 20 3 0 0), .queued⟩] [] [])).cphFree else none), (if (cphHdr (wHd 1 6 20 3 0 0)).gcm then ((wCp [⟨5, 112, (wHd 1 6 20 3 0 0), .queued⟩] [] [])).ghashFree else none), (by first | decide +kernel | rfl), (by first | decide +kernel | rfl), (by first | decide +kernel | rfl), (by first | rfl | decide +kernel), (by first | rfl | decide +kernel), (by first | rfl | decide +kernel), (false), (by first | decide +kernel | rfl), (by first | decide +kernel | rfl), (by first | decide +kernel | rfl)⟩,
   ⟨(wCp [⟨5, 112, (wHd 13 6 20 0 16 16), .queued⟩] [] []), ⟨5, 112, (wHd 13 6 20 0 16 16), .queued⟩, (cphHdr (wHd 13 6 20 0 16 16)), (if (cphHdr (wHd 13 6 20 0 16 16)).aes then ((wCp [⟨5, 112, (wHd 13 6 20 0 16 16), .queued⟩] [] [])).cphFree else none), (if (cphHdr (wHd 13 6 20 0 16 16)).gcm then ((wCp [⟨5, 112, (wHd 13 6 20 0 16 16), .queued⟩] [] [])).ghashFree else none), (by first | decide +kernel | rfl), (by first | decide +kernel | rfl), (by first | decide +kernel | rfl), (by first | rfl | decide +kernel), (by first | rfl | decide +kernel), (by first | rfl | decide +kernel), (by first | decide +kernel | rfl)⟩,
   ⟨(wCp [⟨5, 112, (wHd 1 6 20 3 0 0), .queued⟩] [] []), ⟨5, 112, (wHd 1 6 20 3 0 0), .queued⟩, (cphHdr (wHd 1 6 20 3 0 0)), (if (cphHdr (wHd 1 6 20 3 0 0)).aes then ((wCp [⟨5, 112, (wHd 1 6 20 3 0 0), .queued⟩] [] [])).cphFree else none), (if (cphHdr (wHd 1 6 20 3 0 0)).gcm then ((wCp [⟨5, 112, (wHd 1 6 20 3 0 0), .queued⟩] [] [])).ghashFree else none), (by first | decide +kernel | rfl), (by first | decide +kernel | rfl), (by first | decide +kernel | rfl), (by first | rfl | decide +kernel), (by first | rfl | decide +kernel), (by first | rfl | decide +kernel), (by first | decide +kernel | rfl), (by first | decide +kernel | rfl)⟩,
   ⟨(wCp [⟨5, 112, (wHd 1 6 20 3 0 0), .running (wRr (wCp [⟨5, 112, (wHd 1 6 20 3 0 0), .queued⟩] [] []) ⟨5, 112, (wHd 1 6 20 3 0 0), .queued⟩)⟩] [] []), ⟨5, 112, (wHd 1 6 20 3 0 0), .running (wRr (wCp [⟨5, 112, (wHd 1 6 20 3 0 0), .queued⟩] [] []) ⟨5, 112, (wHd 1 6 20 3 0 0), .queued⟩)⟩, (wRr (wCp [⟨5, 112, (wHd 1 6 20 3 0 0), .queued⟩] [] []) ⟨5, 112, (wHd 1 6 20 3 0 0), .queued⟩), (cphHdr (wHd 1 6 20 3 0 0)), (by first | decide +kernel | rfl), (by first | decide +kernel | rfl), (by first | decide +kernel | rfl), (by first | decide +kernel | rfl), (by first | rfl | decide +kernel), (by first | decide +kernel | rfl), (by first | decide +kernel | rfl)⟩,
   ⟨(wCp [⟨5, 112, (wHd 3 6 20 30 0 0), .running (wRr (wCp [⟨5, 112, (wHd 3 6 20 30 0 0), .queued⟩] [] []) ⟨5, 112, (wHd 3 6 20 30 0 0), .queued⟩)⟩] [] []), ⟨5, 112, (wHd 3 6 20 30 0 0), .running (wRr (wCp [⟨5, 112, (wHd 3 6 20 30 0 0), .queued⟩] [] []) ⟨5, 112, (wHd 3 6 20 30 0 0), .queued⟩)⟩, (wRr (wCp [⟨5, 112, (wHd 3 6 20 30 0 0), .queued⟩] [] []) ⟨5, 112, (wHd 3 6 20 30 0 0), .queued⟩), (cphHdr (wHd 3 6 20 30 0 0)), (by first | decide +kernel | rfl), (by first | decide +kernel | rfl), (by first | decide +kernel | rfl), (by first | decide +kernel | rfl), (by first | rfl | decide +kernel), (by first | decide +kernel | rfl), (by first | decide +kernel | rfl)⟩,
   ⟨({(wCp [] [] []) with cph := { State.reset.cph with rxWait := [(3,[1,2],[])] } }), 7, (by first | decide +kernel | rfl)⟩⟩

end W16

namespace W17
/-- Data of the witnesses below. -/
def wTr (l : List (Fld × Nat)) (t : Tri) : State := { wPut wOn l with tri := t, ao := 500 }
/-- Data of the witnesses below. -/
def wT0 : Tri := State.reset.tri
/-- Data of the witnesses below. -/
def wKv (u : Nat) : KeyHalf := ⟨0x19, u, 0xFFFF, 0, 0, false, 0, [], List.replicate 96 9⟩

theorem test_wit_TriangleFindsMismatches :
    (∃ (s : State), s.compares = false) ∧
    (∃ (s : State) (diff : Nat) (c : Nat), s.compares = true ∧ s.fld TRI_STATUS_FENCED = 0 ∧ c < 3 ∧ (∀ d, d < 3 → bitOf diff d = decide (d = c)) ∧ tabFind s.tri.diverged c = none) ∧
    (∃ (s : State) (diff : Nat), s.compares = true ∧ s.fld TRI_STATUS_FENCED = 0 ∧ (∀ d, d < 3 → bitOf diff d = true)) ∧
    (∃ (s : State) (diff : Nat) (f : Nat), s.compares = true ∧ f < 3 ∧ s.fld TRI_STATUS_FENCED = 2 ^ f ∧ (∃ d, d < 3 ∧ d ≠ f ∧ bitOf diff d = true)) :=
  ⟨⟨(wTr [(TRI_STATUS_MODE,2)] wT0), (by first | decide +kernel | rfl)⟩,
   ⟨(wTr [] wT0), 1, 0, (by first | decide +kernel | rfl), (by first | decide +kernel | rfl), (by first | decide +kernel | rfl), (by first | decide +kernel | rfl), (by first | decide +kernel | rfl)⟩,
   ⟨(wTr [] wT0), 7, (by first | decide +kernel | rfl), (by first | decide +kernel | rfl), (by first | decide +kernel | rfl)⟩,
   ⟨(wTr [(TRI_STATUS_FENCED,2)] wT0), 1, 1, (by first | decide +kernel | rfl), (by first | decide +kernel | rfl), (by first | decide +kernel | rfl), (by first | decide +kernel | rfl)⟩⟩

theorem test_wit_TriangleTestsAndRestores :
    (∃ (s : State) (c : Nat), (3 ≤ c ∨ bitOf (s.fld TRI_STATUS_TESTING) c = false)) ∧
    (∃ (s : State) (c : Nat) (k : Nat) (skew : Bool), c < 3 ∧ bitOf (s.fld TRI_STATUS_TESTING) c = true ∧ s.tri.pend = some (.minority k c skew)) ∧
    (∃ (s : State) (c : Nat), c < 3 ∧ bitOf (s.fld TRI_STATUS_TESTING) c = true ∧ s.tri.pend = some (.duplex []) ∧ bitOf (s.fld TRI_STATUS_FENCED) c = false) ∧
    (∃ (s : State) (c : Nat) (d : Nat) (pass : Bool) (first : Bool), c < 3 ∧ bitOf (s.fld TRI_STATUS_TESTING) c = true ∧ s.tri.pend = some (.duplex [(d, first)]) ∧ d < 3 ∧ bitOf (s.fld TRI_STATUS_FENCED) c = false ∧ first ≠ pass) ∧
    (∃ (s : State) (c : Nat) (d : Nat) (pass : Bool) (first : Bool), c < 3 ∧ bitOf (s.fld TRI_STATUS_TESTING) c = true ∧ s.tri.pend = some (.duplex [(d, first)]) ∧ d < 3 ∧ bitOf (s.fld TRI_STATUS_FENCED) c = false ∧ first = pass) ∧
    (∃ (s : State), s.tri.resync = none) ∧
    (∃ (s : State) (cls : Nat) (l : List Nat), s.tri.resync = some (l, cls)) :=
  ⟨⟨(wTr [] wT0), 0, (by first | decide +kernel | rfl)⟩,
   ⟨(wTr [(TRI_STATUS_TESTING,2)] {wT0 with pend := some (.minority 0 1 true)}), 1, 0, true, (by first | decide +kernel | rfl), (by first | decide +kernel | rfl), (by first | decide +kernel | rfl)⟩,
   ⟨(wTr [(TRI_STATUS_TESTING,7)] {wT0 with pend := some (.duplex [])}), 0, (by first | decide +kernel | rfl), (by first | decide +kernel | rfl), (by first | decide +kernel | rfl), (by first | decide +kernel | rfl)⟩,
   ⟨(wTr [(TRI_STATUS_TESTING,7)] {wT0 with pend := some (.duplex [(2,true)])}), 0, 2, false, true, (by first | decide +kernel | rfl), (by first | decide +kernel | rfl), (by first | decide +kernel | rfl), (by first | decide +kernel | rfl), (by first | decide +kernel | rfl), (by first | decide +kernel | rfl)⟩,
   ⟨(wTr [(TRI_STATUS_TESTING,7)] {wT0 with pend := some (.duplex [(2,true)])}), 0, 2, true, true, (by first | decide +kernel | rfl), (by first | decide +kernel | rfl), (by first | decide +kernel | rfl), (by first | decide +kernel | rfl), (by first | decide +kernel | rfl), (by first | rfl | decide +kernel)⟩,
   ⟨(wTr [] wT0), (by first | decide +kernel | rfl)⟩,
   ⟨(wTr [(TRI_STATUS_FENCED,7)] {wT0 with resync := some ([1],0), found := 400, unattributed := [300,200]}), (((wTr [(TRI_STATUS_FENCED,7)] {wT0 with resync := some ([1],0), found := 400, unattributed := [300,200]})).tri.resync.map (·.2) |>.getD 0), (((wTr [(TRI_STATUS_FENCED,7)] {wT0 with resync := some ([1],0), found := 400, unattributed := [300,200]})).tri.resync.map (·.1) |>.getD []), (by first | decide +kernel | rfl)⟩⟩

theorem test_wit_DebugAndApplicationCores :
    (∃ (s : State) (r : Requester), s.reaches r rDBG_AUTH ∧ ((s.slot 7).cur = none ∨ s.orphaned 7 = true ∨ (∃ k0, (s.slot 7).cur = some k0 ∧ bitOf k0.usage 4 = false))) ∧
    (∃ (s : State) (r : Requester) (k : KeyHalf) (good : Bool), s.reaches r rDBG_AUTH ∧ (s.slot 7).cur = some k ∧ s.orphaned 7 = false ∧ bitOf k.usage 4 = true ∧ good = ecVerify true k.pub (sha384 (devUid ++ s.window (rDBG_NONCE 0) 16)) (s.window (rDBG_SIG 0) 96)) ∧
    (∃ (s : State), s.flag DBG_STATUS_AUTH = false) ∧
    (∃ (s : State), s.flag DBG_STATUS_AUTH = true ∧ s.splitOn = false ∧ s.flag DBG_STATUS_OVERFLOW = false ∧ s.tri.replay.length < 256) ∧
    (∃ (s : State), s.flag DBG_STATUS_AUTH = true ∧ s.splitOn = false ∧ s.flag DBG_STATUS_OVERFLOW = false ∧ 256 ≤ s.tri.replay.length) ∧
    (∃ (s : State), s.flag DBG_STATUS_HALTED = false) ∧
    (∃ (s : State), s.flag DBG_STATUS_HALTED = true ∧ s.splitOn = false ∧ s.flag DBG_STATUS_OVERFLOW = false ∧ s.tri.replay.length < 256) ∧
    (∃ (s : State), s.flag DBG_STATUS_HALTED = true ∧ s.splitOn = false ∧ (s.flag DBG_STATUS_OVERFLOW = true ∨ 256 ≤ s.tri.replay.length) ∧ s.fld TRI_STATUS_FENCED = 0) ∧
    (∃ (s : State) (r : Requester), s.reaches r rTRI_AP_CTL ∧ s.flag GLB_DEVSTATE_SAFE = true) ∧
    (∃ (s : State) (r : Requester), s.reaches r rTRI_AP_CTL ∧ s.flag GLB_DEVSTATE_SAFE = false) :=
  ⟨⟨(wTr [(GLB_DEVSTATE_SAFE,1)] wT0), .mc, (by unfold State.reaches; decide +kernel), (by first | decide +kernel | rfl)⟩,
   ⟨({ (wTr [(DBG_STATUS_AUTH,1)] wT0) with blf := {Blf.reset with slots := [(7,⟨some (wKv 16),none,false,3,9,0x40⟩)]} }), .mc, (wKv 16), (ecVerify true (wKv 16).pub (sha384 (devUid ++ (({ (wTr [(DBG_STATUS_AUTH,1)] wT0) with blf := {Blf.reset with slots := [(7,⟨some (wKv 16),none,false,3,9,0x40⟩)]} })).window (rDBG_NONCE 0) 16)) ((({ (wTr [(DBG_STATUS_AUTH,1)] wT0) with blf := {Blf.reset with slots := [(7,⟨some (wKv 16),none,false,3,9,0x40⟩)]} })).window (rDBG_SIG 0) 96)), (by unfold State.reaches; decide +kernel), (by first | decide +kernel | rfl), (by first | decide +kernel | rfl), (by first | decide +kernel | rfl), (by first | rfl | decide +kernel)⟩,
   ⟨(wTr [(GLB_DEVSTATE_SAFE,1)] wT0), (by first | decide +kernel | rfl)⟩,
   ⟨(wTr [(DBG_STATUS_AUTH,1),(DBG_STATUS_HALTED,1)] {wT0 with replay := List.replicate 255 .halt}), (by first | decide +kernel | rfl), (by first | decide +kernel | rfl), (by first | decide +kernel | rfl), (by first | decide +kernel | rfl)⟩,
   ⟨(wTr [(DBG_STATUS_AUTH,1),(DBG_STATUS_HALTED,1)] {wT0 with replay := List.replicate 256 .halt}), (by first | decide +kernel | rfl), (by first | decide +kernel | rfl), (by first | decide +kernel | rfl), (by first | decide +kernel | rfl)⟩,
   ⟨(wTr [(GLB_DEVSTATE_SAFE,1)] wT0), (by first | decide +kernel | rfl)⟩,
   ⟨(wTr [(DBG_STATUS_AUTH,1),(DBG_STATUS_HALTED,1)] {wT0 with replay := List.replicate 255 .halt}), (by first | decide +kernel | rfl), (by first | decide +kernel | rfl), (by first | decide +kernel | rfl), (by first | decide +kernel | rfl)⟩,
   ⟨(wTr [(DBG_STATUS_AUTH,1),(DBG_STATUS_HALTED,1)] {wT0 with replay := List.replicate 256 .halt}), (by first | decide +kernel | rfl), (by first | decide +kernel | rfl), (by first | decide +kernel | rfl), (by first | decide +kernel | rfl)⟩,
   ⟨(wTr [(GLB_DEVSTATE_SAFE,1)] wT0), .mc, (by unfold State.reaches; decide +kernel), (by first | decide +kernel | rfl)⟩,
   ⟨({ (wTr [] wT0) with blf := {Blf.reset with slots := [(7,⟨none,none,false,3,9,0x40⟩)]} }), .mc, (by unfold State.reaches; decide +kernel), (by first | decide +kernel | rfl)⟩⟩

end W17

namespace W18
/-- Data of the witnesses below. -/
def wCl (l : List (Fld × Nat)) (c : Clp) (p : List Nat) : State := { wPut wOn l with clp := c, pulses := p, clk := 9000000 }
/-- Data of the witnesses below. -/
def wC0 : Clp := ⟨[], [], [], []⟩

theorem test_wit_SourcesChangeState :
    (∃ (s : State) (n : Nat), n < 512 ∧ (srcExists n = false ∨ s.domOn 9 = false)) ∧
    (∃ (s : State) (n : Nat), n < 512 ∧ srcExists n = true ∧ s.domOn 9 = true) ∧
    (∃ (s : State) (r : Requester) (n : Nat) (tg : Nat), n < 512 ∧ s.tgtExists tg = true ∧ s.reaches r (rCLP_TGT_CPL tg) ∧ (s.srcIs n stDELIVERED = false ∨ s.fld (CLP_SRC_CFG_DLV_TGT n) ≠ tg)) ∧
    (∃ (s : State) (r : Requester) (n : Nat) (tg : Nat), n < 512 ∧ s.tgtExists tg = true ∧ s.reaches r (rCLP_TGT_CPL tg) ∧ s.srcIs n stDELIVERED = true ∧ s.fld (CLP_SRC_CFG_DLV_TGT n) = tg) ∧
    (∃ (s : State) (r : Requester) (n : Nat), n < 512 ∧ s.reaches r (rCLP_SRC_CFG n) ∧ srcExists n = false) ∧
    (∃ (s : State) (r : Requester) (n : Nat), n < 512 ∧ s.reaches r (rCLP_SRC_CFG n) ∧ srcExists n = true) :=
  ⟨⟨State.reset, 1, (by first | decide +kernel | rfl), (by first | decide +kernel | rfl)⟩,
   ⟨(wCl [(CLP_SRC_CFG_EN 1,0),(CLP_SRC_CFG_PRIO 1,5),(CLP_SRC_CFG_TGT_MASK 1,9),(CLP_SRC_CFG_STATE 1,0),(CLP_SRC_CFG_TRIG 1,0)] wC0 []), 1, (by first | decide +kernel | rfl), (by first | decide +kernel | rfl), (by first | decide +kernel | rfl)⟩,
   ⟨(wCl [] wC0 []), .mc, 2, 0, (by first | decide +kernel | rfl), (by first | decide +kernel | rfl), (by unfold State.reaches; decide +kernel), (by first | decide +kernel | rfl)⟩,
   ⟨(wCl [(CLP_SRC_CFG_EN 1,0),(CLP_SRC_CFG_PRIO 1,5),(CLP_SRC_CFG_TGT_MASK 1,9),(CLP_SRC_CFG_STATE 1,2),(CLP_SRC_CFG_TRIG 1,0)] wC0 []), .mc, 1, 0, (by first | decide +kernel | rfl), (by first | decide +kernel | rfl), (by unfold State.reaches; decide +kernel), (by first | decide +kernel | rfl), (by first | decide +kernel | rfl)⟩,
   ⟨(wCl [] wC0 []), .mc, 2, (by first | decide +kernel | rfl), (by unfold State.reaches; decide +kernel), (by first | decide +kernel | rfl)⟩,
   ⟨(wCl [(CLP_SRC_CFG_EN 1,0),(CLP_SRC_CFG_PRIO 1,5),(CLP_SRC_CFG_TGT_MASK 1,9),(CLP_SRC_CFG_STATE 1,0),(CLP_SRC_CFG_TRIG 1,0)] wC0 []), .mc, 1, (by first | decide +kernel | rfl), (by unfold State.reaches; decide +kernel), (by first | decide +kernel | rfl)⟩⟩

theorem test_wit_ClapperRoutesSources :
    (∃ (s : State), s.domOn 9 = false) ∧
    (∃ (s : State) (n : Nat) (u : Nat), s.domOn 9 = true ∧ s.flag CLP_CTL_HOLD = false ∧ s.pendingSrcs = [n] ∧ u < 7 ∧ s.couldTake n u = true ∧ (s.tgtOpen u = true ∨ s.bypasses n u = true)) ∧
    (∃ (s : State), s.domOn 9 = true ∧ s.flag CLP_CTL_HOLD = true) ∧
    (∃ (s : State) (n : Nat), s.domOn 9 = true ∧ s.pendingSrcs = [n] ∧ (∀ x, x < 7 → bitOf (s.fld (CLP_SRC_CFG_TGT_MASK n)) x = true → s.tgtPowered x = false) ∧ s.flag (CLP_SRC_CFG_WAKE_EN n) = true ∧ s.clp.woke.contains n = false) ∧
    (∃ (s : State) (tg : Nat), tg < 7 ∧ s.tgtPowered tg = false) ∧
    (∃ (s : State) (tg : Nat), (7 ≤ tg ∨ s.tgtPowered tg = true)) ∧
    (∃ (s : State) (r : Requester), s.reaches r rCLP_CTL) ∧
    (∃ (s : State) (tg : Nat), ∃ k, tabGet none s.clp.rounds tg = some k ∧ s.fld (CLP_TGT_CFG_MOD_INT_US tg) * 1000 ≤ (s.clk + 2 ^ 64 - k) % 2 ^ 64) ∧
    (∃ (s : State) (tg : Nat), s.modDue tg = false) ∧
    (∃ (s : State) (tg : Nat), tg < 7 ∧ s.tgtPowered tg = true ∧ s.deliveredTo tg = []) ∧
    (∃ (s : State) (tg : Nat), (s.tgtPowered tg = false ∨ s.deliveredTo tg ≠ [])) :=
  ⟨⟨State.reset, (by first | decide +kernel | rfl)⟩,
   ⟨(wCl [(CLP_SRC_CFG_EN 1,1),(CLP_SRC_CFG_PRIO 1,5),(CLP_SRC_CFG_TGT_MASK 1,9),(CLP_SRC_CFG_STATE 1,1),(CLP_SRC_CFG_TRIG 1,0)] wC0 []), 1, 0, (by first | decide +kernel | rfl), (by first | decide +kernel | rfl), (by first | decide +kernel | rfl), (by first | decide +kernel | rfl), (by first | decide +kernel | rfl), (by first | decide +kernel | rfl)⟩,
   ⟨(wCl [(CLP_CTL_HOLD,1),(CLP_SRC_CFG_EN 1,1),(CLP_SRC_CFG_PRIO 1,5),(CLP_SRC_CFG_TGT_MASK 1,9),(CLP_SRC_CFG_STATE 1,1),(CLP_SRC_CFG_TRIG 1,0)] wC0 []), (by first | decide +kernel | rfl), (by first | decide +kernel | rfl)⟩,
   ⟨(wCl [(CLP_SRC_CFG_EN 1,1),(CLP_SRC_CFG_PRIO 1,5),(CLP_SRC_CFG_TGT_MASK 1,9),(CLP_SRC_CFG_STATE 1,1),(CLP_SRC_CFG_TRIG 1,0),(CLP_SRC_CFG_TGT_MASK 1,16),(CLP_SRC_CFG_WAKE_EN 1,1),(CLP_SRC_CFG_WAKE_TGT 1,4)] wC0 []), 1, (by first | decide +kernel | rfl), (by first | decide +kernel | rfl), (by first | decide +kernel | rfl), (by first | decide +kernel | rfl), (by first | decide +kernel | rfl)⟩,
   ⟨State.reset, 0, (by first | decide +kernel | rfl), (by first | decide +kernel | rfl)⟩,
   ⟨State.reset, 7, (by first | decide +kernel | rfl)⟩,
   ⟨(wCl [(CLP_SRC_CFG_EN 1,1),(CLP_SRC_CFG_PRIO 1,5),(CLP_SRC_CFG_TGT_MASK 1,9),(CLP_SRC_CFG_STATE 1,1),(CLP_SRC_CFG_TRIG 1,0)] wC0 []), .mc, (by unfold State.reaches; decide +kernel)⟩,
   ⟨(wCl [(CLP_SRC_CFG_EN 1,1),(CLP_SRC_CFG_PRIO 1,5),(CLP_SRC_CFG_TGT_MASK 1,9),(CLP_SRC_CFG_STATE 1,1),(CLP_SRC_CFG_TRIG 1,0),(CLP_TGT_CFG_MOD_INT_US 0,7),(CLP_TGT_CFG_MOD_BATCH 0,2),(CLP_TGT_CFG_BYPASS_PRIO 0,5)] ⟨[],[(3,some 5),(0,some 8999999)],[],[]⟩ []), 3, (Option.get (tabGet none ((wCl [(CLP_SRC_CFG_EN 1,1),(CLP_SRC_CFG_PRIO 1,5),(CLP_SRC_CFG_TGT_MASK 1,9),(CLP_SRC_CFG_STATE 1,1),(CLP_SRC_CFG_TRIG 1,0),(CLP_TGT_CFG_MOD_INT_US 0,7),(CLP_TGT_CFG_MOD_BATCH 0,2),(CLP_TGT_CFG_BYPASS_PRIO 0,5)] ⟨[],[(3,some 5),(0,some 8999999)],[],[]⟩ []) : State).clp.rounds (3 : Nat)) (by decide +kernel)), (someOf (by decide +kernel)), (by first | decide +kernel | rfl)⟩,
   ⟨State.reset, 0, (by first | decide +kernel | rfl)⟩,
   ⟨(wCl [(CLP_SRC_CFG_EN 1,1),(CLP_SRC_CFG_PRIO 1,5),(CLP_SRC_CFG_TGT_MASK 1,9),(CLP_SRC_CFG_STATE 1,1),(CLP_SRC_CFG_TRIG 1,0)] wC0 []), 0, (by first | decide +kernel | rfl), (by first | decide +kernel | rfl), (by first | decide +kernel | rfl)⟩,
   ⟨State.reset, 0, (by first | decide +kernel | rfl)⟩⟩

end W18

namespace W19
/-- Data of the witnesses below. -/
def wRa (l : List (Fld × Nat)) : State := wPut wOn l
/-- Data of the witnesses below. -/
def wE (m : Nat) (c : Bool) (a p b : Nat) : MemErr := ⟨m, c, .B, a, p, b⟩

theorem test_wit_AlarmsAndClockLosses :
    (∃ (s : State) (b : Nat), (4 ≤ b ∨ s.pwr.inReset = true ∨ bitOf (s.fld RAS_ALARM_ACTIVE) b = true)) ∧
    (∃ (s : State) (b : Nat), b < 4 ∧ s.pwr.inReset = false ∧ bitOf (s.fld RAS_ALARM_ACTIVE) b = false) ∧
    (∃ (s : State) (b : Nat), (bitOf (s.fld RAS_ALARM_ACTIVE) b = false ∨ 4 ≤ b)) ∧
    (∃ (s : State) (b : Nat), b < 4 ∧ bitOf (s.fld RAS_ALARM_ACTIVE) b = true) ∧
    (∃ (s : State), s.pwr.inReset = true) ∧
    (∃ (s : State) (clk : Nat), (clk = 0 ∧ s.flag CLK_STATUS_REF_OK = false ∨ 0 < clk ∧ clk < 4 ∧ s.flag (pllFld clk) = false ∨ 4 ≤ clk)) ∧
    (∃ (s : State), s.pwr.inReset = false ∧ s.flag CLK_STATUS_REF_OK = true) ∧
    (∃ (s : State) (clk : Nat), s.pwr.inReset = false ∧ 0 < clk ∧ clk < 4 ∧ s.flag (pllFld clk) = true) ∧
    (∃ (s : State) (q : Nat), (6 ≤ q ∨ bitOf (s.fld CLK_STATUS_SQ) q = false)) ∧
    (∃ (s : State) (q : Nat), q < 6 ∧ bitOf (s.fld CLK_STATUS_SQ) q = true) :=
  ⟨⟨(wRa []), 4, (by first | decide +kernel | rfl)⟩,
   ⟨(wRa []), 0, (by first | decide +kernel | rfl), (by first | decide +kernel | rfl), (by first | decide +kernel | rfl)⟩,
   ⟨(wRa []), 0, (by first | decide +kernel | rfl)⟩,
   ⟨(wRa [(RAS_ALARM_ACTIVE,2)]), 1, (by first | decide +kernel | rfl), (by first | decide +kernel | rfl)⟩,
   ⟨State.reset, (by first | decide +kernel | rfl)⟩,
   ⟨(wRa []), 0, (by first | decide +kernel | rfl)⟩,
   ⟨(wRa [(RAS_TEMP_ALARM_TJ,100),(CLK_STATUS_REF_OK,1),(CLK_STATUS_PLL_MC,1),(CLK_STATUS_SQ,63)]), (by first | decide +kernel | rfl), (by first | decide +kernel | rfl)⟩,
   ⟨(wRa []), 1, (by first | decide +kernel | rfl), (by first | decide +kernel | rfl), (by first | decide +kernel | rfl), (by first | decide +kernel | rfl)⟩,
   ⟨(wRa []), 0, (by first | decide +kernel | rfl)⟩,
   ⟨(wRa [(RAS_TEMP_ALARM_TJ,100),(CLK_STATUS_REF_OK,1),(CLK_STATUS_PLL_MC,1),(CLK_STATUS_SQ,63)]), 0, (by first | decide +kernel | rfl), (by first | decide +kernel | rfl)⟩⟩

theorem test_wit_ErrorsAndWatchdog :
    (∃ (s : State), s.pwr.inReset = true) ∧
    (∃ (s : State) (e : MemErr), s.pwr.inReset = false ∧ e.corrected = true ∧ e.mem = 1) ∧
    (∃ (s : State) (e : MemErr), s.pwr.inReset = false ∧ s.errFifo.length < 64 ∧ e.corrected = true ∧ e.mem ≠ 1 ∧ e.mem < 6) ∧
    (∃ (s : State) (e : MemErr), s.pwr.inReset = false ∧ s.errFifo.length < 64 ∧ e.corrected = false ∧ e.mem = 0) ∧
    (∃ (s : State) (e : MemErr), s.pwr.inReset = false ∧ s.errFifo.length < 64 ∧ e.corrected = false ∧ e.mem = 1) ∧
    (∃ (s : State) (e : MemErr), s.pwr.inReset = false ∧ s.errFifo.length < 64 ∧ e.corrected = false ∧ 2 ≤ e.mem ∧ e.mem < 6) ∧
    (∃ (s : State) (e : MemErr), s.pwr.inReset = false ∧ 64 ≤ s.errFifo.length ∧ e.corrected = false ∧ 2 ≤ e.mem ∧ e.mem < 6) ∧
    (∃ (s : State) (e : MemErr), s.pwr.inReset = false ∧ e.mem = 6 ∧ e.pool = 0 ∧ e.addr < 131072) ∧
    (∃ (s : State) (e : MemErr), s.pwr.inReset = false ∧ e.mem = 7 ∧ e.pool < (s.plane e.pl).pools.length ∧ e.buf < ((s.plane e.pl).pool e.pool).count) ∧
    (∃ (s : State), s.flag MEM_STATUS_READY = true) ∧
    (∃ (s : State), s.flag MEM_STATUS_READY = false) ∧
    (∃ (s : State) (r : Requester), s.reaches r rRAS_ERR_POP) ∧
    (∃ (s : State) (r : Requester), s.reaches r rRAS_ERR_OUT) ∧
    (∃ (s : State) (r : Requester), s.reaches r rRAS_WDG_ANS ∧ s.flag GLB_DEVSTATE_SAFE = false ∧ s.wdg.sending = false) ∧
    (∃ (s : State) (r : Requester), s.reaches r rRAS_WDG_ANS ∧ s.flag GLB_DEVSTATE_SAFE = false ∧ s.wdg.sending = true) :=
  ⟨⟨State.reset, (by first | decide +kernel | rfl)⟩,
   ⟨(wRa []), (wE 1 true 5 0 3), (by first | decide +kernel | rfl), (by first | decide +kernel | rfl), (by first | decide +kernel | rfl)⟩,
   ⟨(wRa []), (wE 0 true 5 0 3), (by first | decide +kernel | rfl), (by first | decide +kernel | rfl), (by first | decide +kernel | rfl), (by first | decide +kernel | rfl), (by first | decide +kernel | rfl)⟩,
   ⟨(wRa []), (wE 0 false 5 0 3), (by first | decide +kernel | rfl), (by first | decide +kernel | rfl), (by first | decide +kernel | rfl), (by first | decide +kernel | rfl)⟩,
   ⟨(wRa []), (wE 1 false 5 0 3), (by first | decide +kernel | rfl), (by first | decide +kernel | rfl), (by first | decide +kernel | rfl), (by first | decide +kernel | rfl)⟩,
   ⟨(wRa []), (wE 4 false 5 0 3), (by first | decide +kernel | rfl), (by first | decide +kernel | rfl), (by first | decide +kernel | rfl), (by first | decide +kernel | rfl), (by first | decide +kernel | rfl)⟩,
   ⟨({ (wRa []) with errFifo := List.replicate 64 ⟨1,0,0,0,0,0⟩ }), (wE 4 false 5 0 3), (by first | decide +kernel | rfl), (by first | decide +kernel | rfl), (by first | decide +kernel | rfl), (by first | decide +kernel | rfl), (by first | decide +kernel | rfl)⟩,
   ⟨(wRa []), (wE 6 true 5 0 3), (by first | decide +kernel | rfl), (by first | decide +kernel | rfl), (by first | decide +kernel | rfl), (by first | decide +kernel | rfl)⟩,
   ⟨({ (wRa []) with planeB := {PlaneSt.empty with badSlots := [3,7], pools := [⟨[4, 3], 5, 9, false, [], []⟩]} }), (wE 7 true 5 0 3), (by first | decide +kernel | rfl), (by first | decide +kernel | rfl), (by first | decide +kernel | rfl), (by first | decide +kernel | rfl)⟩,
   ⟨({ (wRa [(MEM_STATUS_READY,1),(RAS_WDG_ANSWERED,1)]) with errFifo := [⟨1,0,0,0,0,0⟩], wdg := ⟨true,true,3⟩ }), (by first | decide +kernel | rfl)⟩,
   ⟨(wRa []), (by first | decide +kernel | rfl)⟩,
   ⟨(wRa []), .mc, (by unfold State.reaches; decide +kernel)⟩,
   ⟨(wRa []), .mc, (by unfold State.reaches; decide +kernel)⟩,
   ⟨(wRa []), .mc, (by unfold State.reaches; decide +kernel), (by first | decide +kernel | rfl), (by first | decide +kernel | rfl)⟩,
   ⟨({ (wRa [(MEM_STATUS_READY,1),(RAS_WDG_ANSWERED,1)]) with errFifo := [⟨1,0,0,0,0,0⟩], wdg := ⟨true,true,3⟩ }), .mc, (by unfold State.reaches; decide +kernel), (by first | decide +kernel | rfl), (by first | decide +kernel | rfl)⟩⟩

end W19

namespace W20
/-- Data of the witnesses below. -/
def wTq (fl fn : Byte) : Mem := wImg [(0x01, 0x500, [(2, [1])]), (0x0F, 0x2000, [(16 + 40 * 3, [3, fl, fn, 0, 2, 4, 8, 0, 10, 0, 0, 0, 3, 0, 2, 0, 2, 1, 0, 0, 0, 0, 0, 0, 20, 0, 30, 0])])]
/-- Data of the witnesses below. -/
def wTn (fl fn : Byte) (st : Nat) (x : Tenant) (l : List (Fld × Nat)) : State := { wPut wOn ([(HST_TN_STATE_STATE 3, st), (HST_POOL_RP_FREE, 100), (HST_POOL_CAP_FREE, 8), (PWR_DOM_STAT_ON, 0xFFF)] ++ l) with active := wTq fl fn, tenants := [(3, x)], clk := 500000000 }
/-- Data of the witnesses below. -/
def wX : Tenant := (State.reset).ten 3
/-- Data of the witnesses below. -/
def wKo : KeyHalf := ⟨2, 4, 0xFFFF, 0, 0, false, 0, List.replicate 32 7, []⟩

theorem test_wit_TenantAttachesAndDozes :
    (∃ (s : State) (r : Requester) (tn : Nat), tn < 64 ∧ s.tenOwner r tn = false) ∧
    (∃ (s : State) (r : Requester) (tn : Nat), tn < 64 ∧ s.tenOwner r tn = true ∧ s.tenIs tn .absent = true) ∧
    (∃ (s : State) (r : Requester) (tn : Nat), tn < 64 ∧ s.tenOwner r tn = true ∧ s.tenIs tn .active = true ∧ (s.ten tn).cplEv = []) ∧
    (∃ (s : State) (r : Requester) (tn : Nat) (woc : Bool), tn < 64 ∧ s.tenOwner r tn = true ∧ s.tenIs tn .active = true ∧ (s.ten tn).cplEv ≠ [] ∧ woc = true ∧ s.tenWakePin tn = false) ∧
    (∃ (s : State) (r : Requester) (tn : Nat), tn < 64 ∧ s.tenOwner r tn = true ∧ s.tenIs tn .doze = true ∧ (s.ten tn).events = [] ∧ (s.ten tn).pba = [] ∧ (s.ten tn).inband = []) ∧
    (∃ (s : State) (r : Requester) (tn : Nat) (v : Nat) (n : Nat), tn < 64 ∧ s.tenOwner r tn = true ∧ s.tenIs tn .doze = true ∧ (s.ten tn).events = [(v, n)] ∧ 0 < n ∧ (s.ten tn).pba = [] ∧ (s.ten tn).inband = [] ∧ v < s.fld (TNW_REQ0_VEC tn) ∧ v ∈ (s.ten tn).unmasked) ∧
    (∃ (s : State) (tn : Nat), tn < 64 ∧ s.tenIs tn .attaching = false) ∧
    (∃ (s : State) (tn : Nat), tn < 64 ∧ s.tenIs tn .attaching = true ∧ (s.tenEnabled tn = false ∨ (∃ e ∈ s.tenQuotas tn, e.2 < s.tenAsk e))) ∧
    (∃ (s : State) (tn : Nat), tn < 64 ∧ s.tenIs tn .attaching = true ∧ s.tenEnabled tn = true ∧ (∀ e ∈ s.tenQuotas tn, s.tenAsk e ≤ e.2) ∧ (s.fld HST_POOL_RP_FREE < s.tenAsk (TNW_REQ0_RP tn, s.tenRec tn 5 1) ∨ s.fld HST_POOL_CAP_FREE < s.tenAsk (TNW_REQ3_CAP tn, s.tenRec tn 16 1))) ∧
    (∃ (s : State) (tn : Nat), tn < 64 ∧ s.tenIs tn .attaching = true ∧ s.tenEnabled tn = true ∧ (∀ e ∈ s.tenQuotas tn, s.tenAsk e ≤ e.2) ∧ s.tenAsk (TNW_REQ0_RP tn, s.tenRec tn 5 1) ≤ s.fld HST_POOL_RP_FREE ∧ s.tenAsk (TNW_REQ3_CAP tn, s.tenRec tn 16 1) ≤ s.fld HST_POOL_CAP_FREE) :=
  ⟨⟨(wTn 1 5 0 wX []), .mc, 3, (by first | decide +kernel | rfl), (by first | decide +kernel | rfl)⟩,
   ⟨(wTn 1 5 0 wX []), (.tenant 3), 3, (by first | decide +kernel | rfl), (by first | decide +kernel | rfl), (by first | decide +kernel | rfl)⟩,
   ⟨(wTn 1 128 2 wX []), .hi1, 3, (by first | decide +kernel | rfl), (by first | decide +kernel | rfl), (by first | decide +kernel | rfl), (by first | decide +kernel | rfl)⟩,
   ⟨(wTn 1 5 2 {wX with cplEv := [2]} []), (.tenant 3), 3, true, (by first | decide +kernel | rfl), (by first | decide +kernel | rfl), (by first | decide +kernel | rfl), (by first | decide +kernel | rfl), (by first | rfl | decide +kernel), (by first | decide +kernel | rfl)⟩,
   ⟨(wTn 1 5 3 wX []), (.tenant 3), 3, (by first | decide +kernel | rfl), (by first | decide +kernel | rfl), (by first | decide +kernel | rfl), (by first | decide +kernel | rfl), (by first | decide +kernel | rfl), (by first | decide +kernel | rfl)⟩,
   ⟨(wTn 1 5 3 {wX with events := [(2,3)], unmasked := [2]} [(TNW_REQ0_VEC 3,8)]), (.tenant 3), 3, 2, 3, (by first | decide +kernel | rfl), (by first | decide +kernel | rfl), (by first | decide +kernel | rfl), (by first | decide +kernel | rfl), (by first | decide +kernel | rfl), (by first | decide +kernel | rfl), (by first | decide +kernel | rfl), (by first | decide +kernel | rfl), (by first | decide +kernel | rfl)⟩,
   ⟨(wTn 1 5 0 wX []), 3, (by first | decide +kernel | rfl), (by first | decide +kernel | rfl)⟩,
   ⟨(wTn 0 5 1 wX []), 3, (by first | decide +kernel | rfl), (by first | decide +kernel | rfl), (by first | decide +kernel | rfl)⟩,
   ⟨(wTn 1 5 1 wX [(TNW_REQ0_RP 3,4),(HST_POOL_RP_FREE,3)]), 3, (by first | decide +kernel | rfl), (by first | decide +kernel | rfl), (by first | decide +kernel | rfl), (by first | decide +kernel | rfl), (by first | decide +kernel | rfl)⟩,
   ⟨(wTn 1 5 1 wX []), 3, (by first | decide +kernel | rfl), (by first | decide +kernel | rfl), (by first | decide +kernel | rfl), (by first | decide +kernel | rfl), (by first | decide +kernel | rfl), (by first | decide +kernel | rfl)⟩⟩

theorem test_wit_TenantLeavesService :
    (∃ (s : State) (r : Requester) (tn : Nat), tn < 64 ∧ s.tenOwner r tn = true ∧ s.tenLive tn = true ∧ s.tenStreams tn = []) ∧
    (∃ (s : State) (r : Requester) (tn : Nat), tn < 64 ∧ s.tenOwner r tn = true ∧ s.tenLive tn = true ∧ s.tenStreams tn ≠ []) ∧
    (∃ (s : State) (r : Requester) (tn : Nat) (link : Nat) (sel : Nat) (d : Nat), tn < 64 ∧ s.tenLive tn = true ∧ s.tenStreams tn = [] ∧ ∃ (c : Instr) (cause : Nat), ((c = .livenessExpire tn false ∧ s.liveFor tn = some d ∧ d ≤ clkSince s.clk (s.ten tn).live ∧ cause = 1) ∨ (c = .functionLevelReset tn ∧ s.tenEnabled tn = true ∧ s.tenInband tn = false ∧ cause = 2) ∨ (c = .pcieLinkEvent link .hotReset ∧ tn ∈ s.linkTenants link ∧ cause = 3) ∨ (c = .pcieLinkEvent link .linkDown ∧ tn ∈ s.linkTenants link ∧ cause = 3) ∨ (c = .dmaError tn ∧ s.tenInband tn = false ∧ cause = 4) ∨ (c = .hstReclaim r tn sel ∧ s.reaches r rHST_CTL ∧ cause = 5))) ∧
    (∃ (s : State) (tn : Nat), tn < 64 ∧ s.tenEnabled tn = true ∧ s.tenInband tn = false) ∧
    (∃ (s : State) (tn : Nat), tn < 64 ∧ (s.tenEnabled tn = false ∨ s.tenInband tn = true)) ∧
    (∃ (s : State) (tn : Nat) (d : Nat), tn < 64 ∧ (s.liveFor tn = none ∨ (s.liveFor tn = some d ∧ clkSince s.clk (s.ten tn).live < d))) ∧
    (∃ (s : State) (tn : Nat), tn < 64 ∧ (s.tenLive tn = false ∨ s.tenInband tn = true)) ∧
    (∃ (s : State) (r : Requester) (tn : Nat), tn < 64 ∧ s.tenLive tn = false ∧ s.reaches r rHST_CTL) :=
  ⟨⟨(wTn 1 5 2 {wX with live := 490000000} []), (.tenant 3), 3, (by first | decide +kernel | rfl), (by first | decide +kernel | rfl), (by first | decide +kernel | rfl), (by first | decide +kernel | rfl)⟩,
   ⟨({ (wTn 1 133 2 {wX with capRules := [9], pba := [1], unmasked := [2], live := 450000000, cmds := [⟨List.replicate 64 0, 4, .fetched⟩]} [(TNW_REQ0_RP 3,4)]) with car := {Car.reset with sched := {Car.reset.sched with streams := [(5, parseDecl 3 (5 :: List.replicate 47 0)),(6, parseDecl 4 (6 :: List.replicate 47 0))]}, queue := [⟨.firmware,[],false,none,false⟩]} } : State), (.tenant 3), 3, (by first | decide +kernel | rfl), (by first | decide +kernel | rfl), (by first | decide +kernel | rfl), (by first | decide +kernel | rfl)⟩,
   ⟨(wTn 1 5 2 {wX with live := 490000000} []), .mc, 3, 1, 67, (((wTn 1 5 2 {wX with live := 490000000} [])).liveFor 3 |>.getD 0), (by first | decide +kernel | rfl), (by first | decide +kernel | rfl), (by first | decide +kernel | rfl), (Instr.functionLevelReset (3 : Nat)), (2), (.inr (.inl (by decide +kernel)))⟩,
   ⟨(wTn 1 5 2 {wX with live := 490000000} []), 3, (by first | decide +kernel | rfl), (by first | decide +kernel | rfl), (by first | decide +kernel | rfl)⟩,
   ⟨({ (wTn 0 5 0 {wX with capRules := [9], pba := [1], unmasked := [2], live := 450000000, cmds := [⟨List.replicate 64 0, 4, .fetched⟩]} [(TNW_REQ0_RP 3,4)]) with blf := {Blf.reset with slots := [(20,⟨some wKo,none,false,3,9,3⟩),(21,⟨some wKo,none,false,3,9,0x40⟩)]} } : State), 3, (by first | decide +kernel | rfl), (by first | decide +kernel | rfl)⟩,
   ⟨(wTn 1 5 2 {wX with live := 490000000} []), 3, (((wTn 1 5 2 {wX with live := 490000000} [])).liveFor 3 |>.getD 0), (by first | decide +kernel | rfl), (by first | decide +kernel | rfl)⟩,
   ⟨({ (wTn 0 5 0 {wX with capRules := [9], pba := [1], unmasked := [2], live := 450000000, cmds := [⟨List.replicate 64 0, 4, .fetched⟩]} [(TNW_REQ0_RP 3,4)]) with blf := {Blf.reset with slots := [(20,⟨some wKo,none,false,3,9,3⟩),(21,⟨some wKo,none,false,3,9,0x40⟩)]} } : State), 3, (by first | decide +kernel | rfl), (by first | decide +kernel | rfl)⟩,
   ⟨({ (wTn 0 5 0 {wX with capRules := [9], pba := [1], unmasked := [2], live := 450000000, cmds := [⟨List.replicate 64 0, 4, .fetched⟩]} [(TNW_REQ0_RP 3,4)]) with blf := {Blf.reset with slots := [(20,⟨some wKo,none,false,3,9,3⟩),(21,⟨some wKo,none,false,3,9,0x40⟩)]} } : State), .mc, 3, (by first | decide +kernel | rfl), (by first | decide +kernel | rfl), (by unfold State.reaches; decide +kernel)⟩⟩

theorem test_wit_TenantRingsAndVectors :
    (∃ (s : State) (tn : Nat), tn < 64 ∧ s.cmdReady tn = false) ∧
    (∃ (s : State) (tn : Nat) (v : Nat) (d : Nat), tn < 64 ∧ d < 64 ∧ tn = (s.cmdTurn + 1 + d) % 64 ∧ v < d ∧ s.cmdReady ((s.cmdTurn + 1 + v) % 64) = true) ∧
    (∃ (s : State) (tn : Nat) (size : Nat) (head : Nat), tn < 64 ∧ size = 2 ^ s.fld (TNW_CMDQ_CFG_LOG2 tn) ∧ head = s.fld (TNW_CMDQ_HEAD_HEAD tn) ∧ (s.tenInband tn = true ∨ s.tenLive tn = false ∨ s.flag (TNW_CMDQ_CFG_EN tn) = false ∨ head % size = s.fld (TNW_CMDQ_TAIL_TAIL tn) % size ∨ s.cmdRoom tn = false)) ∧
    (∃ (s : State) (tn : Nat) (size : Nat) (head : Nat) (d : Nat) (e : List Byte), tn < 64 ∧ size = 2 ^ s.fld (TNW_CMDQ_CFG_LOG2 tn) ∧ head = s.fld (TNW_CMDQ_HEAD_HEAD tn) ∧ d < 64 ∧ tn = (s.cmdTurn + 1 + d) % 64 ∧ (∀ i < d, s.cmdReady ((s.cmdTurn + 1 + i) % 64) = false) ∧ s.tenInband tn = false ∧ s.tenLive tn = true ∧ s.flag (TNW_CMDQ_CFG_EN tn) = true ∧ head % size ≠ s.fld (TNW_CMDQ_TAIL_TAIL tn) % size ∧ s.cmdRoom tn = true ∧ e = s.dmaRead tn (ringBase (s.fld64 (TNW_CMDQ_BASE_LO_BASE tn) (TNW_CMDQ_BASE_HI_BASE tn)) + 64 * (head % size)) 64) ∧
    (∃ (s : State) (tn : Nat) (x : Tenant) (ent : List Byte) (ev : Bool), tn < 64 ∧ ((s.tenLive tn = false ∧ s.tenIs tn .detaching = false) ∨ (s.ten tn).nextCpl = none ∨ ((s.ten tn).nextCpl = some (x, ent, ev) ∧ x.quiet = true))) ∧
    (∃ (s : State) (tn : Nat) (x : Tenant) (ent : List Byte), tn < 64 ∧ (s.tenLive tn = true ∨ s.tenIs tn .detaching = true) ∧ s.tenInband tn = true ∧ (s.ten tn).nextCpl = some (x, ent, false) ∧ x.quiet = false) ∧
    (∃ (s : State) (tn : Nat) (x : Tenant) (ent : List Byte) (ev : Bool), tn < 64 ∧ (s.tenLive tn = true ∨ s.tenIs tn .detaching = true) ∧ s.tenInband tn = false ∧ (s.ten tn).nextCpl = some (x, ent, ev) ∧ x.quiet = false ∧ s.cplRoom tn = false) ∧
    (∃ (s : State) (tn : Nat) (tail : Nat) (x : Tenant) (ent : List Byte) (ev : Bool), tn < 64 ∧ (s.tenLive tn = true ∨ s.tenIs tn .detaching = true) ∧ s.tenInband tn = false ∧ (s.ten tn).nextCpl = some (x, ent, ev) ∧ x.quiet = false ∧ s.cplRoom tn = true ∧ tail = s.fld (TNW_CPLQ_TAIL_TAIL tn)) ∧
    (∃ (s : State) (tn : Nat) (v : Nat), tn < 64 ∧ s.tenIs tn .active = true ∧ v < s.fld (TNW_REQ0_VEC tn) ∧ 0 < tabGet 0 (s.ten tn).events v ∧ s.vecDue tn v = true) ∧
    (∃ (s : State) (tn : Nat) (v : Nat), tn < 64 ∧ (s.tenIs tn .active = false ∨ s.fld (TNW_REQ0_VEC tn) ≤ v ∨ tabGet 0 (s.ten tn).events v = 0 ∨ s.vecDue tn v = false)) ∧
    (∃ (s : State) (tn : Nat) (q : Ring), tn < 64 ∧ q = s.ifRing 0 ∧ (s.flag (HST_IFQ_CFG_EN 0) = false ∨ q.empty = true)) ∧
    (∃ (s : State) (tn : Nat) (q : Ring), tn < 64 ∧ q = s.ifRing 0 ∧ s.flag (HST_IFQ_CFG_EN 0) = true ∧ q.empty = false ∧ txFormed (memTake s.mcMem q.at 32) = false) ∧
    (∃ (s : State) (s1 : State) (tn : Nat) (q : Ring) (ok : Bool), tn < 64 ∧ q = s.ifRing 0 ∧ s.flag (HST_IFQ_CFG_EN 0) = true ∧ q.empty = false ∧ txFormed (memTake s.mcMem q.at 32) = true ∧ s.receive 80 false (ethFrame (memTake s.mcMem (leNat ((memTake s.mcMem q.at 32).take 8)) (leNat (slice (memTake s.mcMem q.at 32) 8 2)))) s.stamp 0 (descRequest (memTake s.mcMem q.at 32) none) = (s1, ok)) ∧
    (∃ (s : State) (tn : Nat) (ring : Nat) (h : Nat) (q : Ring), tn < 64 ∧ q = s.txRing tn ring ∧ h = s.tenRec tn 4 1 + s.fld (TNW_RP_CFG_HV tn ring) ∧ ring < 128 ∧ (s.rpLive tn ring = false ∨ q.empty = true)) ∧
    (∃ (s : State) (tn : Nat) (ring : Nat) (h : Nat) (q : Ring), tn < 64 ∧ q = s.txRing tn ring ∧ h = s.tenRec tn 4 1 + s.fld (TNW_RP_CFG_HV tn ring) ∧ ring < 128 ∧ s.rpLive tn ring = true ∧ q.empty = false ∧ txFormed (s.dmaRead tn q.at 32) = false) ∧
    (∃ (s : State) (s1 : State) (tn : Nat) (ring : Nat) (h : Nat) (e : List Byte) (q : Ring) (ok : Bool), tn < 64 ∧ q = s.txRing tn ring ∧ h = s.tenRec tn 4 1 + s.fld (TNW_RP_CFG_HV tn ring) ∧ ring < 128 ∧ s.rpLive tn ring = true ∧ q.empty = false ∧ e = s.dmaRead tn q.at 32 ∧ txFormed e = true ∧ s.receive (88 + h) false (ethFrame (s.dmaRead tn (leNat (e.take 8)) (leNat (slice e 8 2)))) s.stamp 0 (descRequest e (some tn)) = (s1, ok)) :=
  ⟨⟨({ (wTn 1 5 2 wX [(TNW_CMDQ_CFG_EN 3,1),(TNW_CMDQ_CFG_LOG2 3,4),(TNW_CMDQ_HEAD_HEAD 3,15),(TNW_CMDQ_TAIL_TAIL 3,2),(TNW_CMDQ_BASE_LO_BASE 3,0x4000)]) with cmdTurn := 2 } : State), 4, (by first | decide +kernel | rfl), (by first | decide +kernel | rfl)⟩,
   ⟨({ (wTn 1 5 2 wX [(TNW_CMDQ_CFG_EN 3,1),(TNW_CMDQ_CFG_LOG2 3,4),(TNW_CMDQ_HEAD_HEAD 3,15),(TNW_CMDQ_TAIL_TAIL 3,2),(TNW_CMDQ_BASE_LO_BASE 3,0x4000)]) with cmdTurn := 2 } : State), 4, 0, 1, (by first | decide +kernel | rfl), (by first | decide +kernel | rfl), (by first | rfl | decide +kernel), (by first | decide +kernel | rfl), (by first | decide +kernel | rfl)⟩,
   ⟨(wTn 1 5 2 {wX with cmds := [⟨List.replicate 64 0, 4, .ended 1 [1,2]⟩]} []), 3, (2 ^ ((wTn 1 5 2 {wX with cmds := [⟨List.replicate 64 0, 4, .ended 1 [1,2]⟩]} [])).fld (TNW_CMDQ_CFG_LOG2 3)), (((wTn 1 5 2 {wX with cmds := [⟨List.replicate 64 0, 4, .ended 1 [1,2]⟩]} [])).fld (TNW_CMDQ_HEAD_HEAD 3)), (by first | decide +kernel | rfl), (by first | rfl | decide +kernel), (by first | rfl | decide +kernel), (by first | decide +kernel | rfl)⟩,
   ⟨(wTn 1 5 2 wX [(TNW_CMDQ_CFG_EN 3,1),(TNW_CMDQ_CFG_LOG2 3,4),(TNW_CMDQ_HEAD_HEAD 3,15),(TNW_CMDQ_TAIL_TAIL 3,2),(TNW_CMDQ_BASE_LO_BASE 3,0x4000)]), 3, (2 ^ ((wTn 1 5 2 wX [(TNW_CMDQ_CFG_EN 3,1),(TNW_CMDQ_CFG_LOG2 3,4),(TNW_CMDQ_HEAD_HEAD 3,15),(TNW_CMDQ_TAIL_TAIL 3,2),(TNW_CMDQ_BASE_LO_BASE 3,0x4000)])).fld (TNW_CMDQ_CFG_LOG2 3)), (((wTn 1 5 2 wX [(TNW_CMDQ_CFG_EN 3,1),(TNW_CMDQ_CFG_LOG2 3,4),(TNW_CMDQ_HEAD_HEAD 3,15),(TNW_CMDQ_TAIL_TAIL 3,2),(TNW_CMDQ_BASE_LO_BASE 3,0x4000)])).fld (TNW_CMDQ_HEAD_HEAD 3)), ((3 + 64 - 1 - ((wTn 1 5 2 wX [(TNW_CMDQ_CFG_EN 3,1),(TNW_CMDQ_CFG_LOG2 3,4),(TNW_CMDQ_HEAD_HEAD 3,15),(TNW_CMDQ_TAIL_TAIL 3,2),(TNW_CMDQ_BASE_LO_BASE 3,0x4000)])).cmdTurn) % 64), (((wTn 1 5 2 wX [(TNW_CMDQ_CFG_EN 3,1),(TNW_CMDQ_CFG_LOG2 3,4),(TNW_CMDQ_HEAD_HEAD 3,15),(TNW_CMDQ_TAIL_TAIL 3,2),(TNW_CMDQ_BASE_LO_BASE 3,0x4000)])).dmaRead 3 (ringBase (((wTn 1 5 2 wX [(TNW_CMDQ_CFG_EN 3,1),(TNW_CMDQ_CFG_LOG2 3,4),(TNW_CMDQ_HEAD_HEAD 3,15),(TNW_CMDQ_TAIL_TAIL 3,2),(TNW_CMDQ_BASE_LO_BASE 3,0x4000)])).fld64 (TNW_CMDQ_BASE_LO_BASE 3) (TNW_CMDQ_BASE_HI_BASE 3)) + 64 * (((wTn 1 5 2 wX [(TNW_CMDQ_CFG_EN 3,1),(TNW_CMDQ_CFG_LOG2 3,4),(TNW_CMDQ_HEAD_HEAD 3,15),(TNW_CMDQ_TAIL_TAIL 3,2),(TNW_CMDQ_BASE_LO_BASE 3,0x4000)])).fld (TNW_CMDQ_HEAD_HEAD 3) % 16)) 64), (by first | decide +kernel | rfl), (by first | rfl | decide +kernel), (by first | rfl | decide +kernel), (by first | decide +kernel | rfl), (by first | rfl | decide +kernel), (by first | decide +kernel | rfl), (by first | decide +kernel | rfl), (by first | decide +kernel | rfl), (by first | decide +kernel | rfl), (by first | decide +kernel | rfl), (by first | decide +kernel | rfl), (by first | rfl | decide +kernel)⟩,
   ⟨({ (wTn 1 5 2 wX [(TNW_CMDQ_CFG_EN 3,1),(TNW_CMDQ_CFG_LOG2 3,4),(TNW_CMDQ_HEAD_HEAD 3,15),(TNW_CMDQ_TAIL_TAIL 3,2),(TNW_CMDQ_BASE_LO_BASE 3,0x4000)]) with cmdTurn := 2 } : State), 4, wX, [], true, (by first | decide +kernel | rfl), (by first | decide +kernel | rfl)⟩,
   ⟨(wTn 3 5 2 {wX with cmds := [⟨List.replicate 64 0, 4, .ended 1 [1,2]⟩]} [(TNW_CPLQ_CFG_EN 3,1),(TNW_CPLQ_CFG_LOG2 3,4),(TNW_CPLQ_HEAD_HEAD 3,3),(TNW_CPLQ_TAIL_TAIL 3,15),(TNW_CPLQ_CFG_VEC 3,2),(TNW_REQ0_VEC 3,8)]), 3, (((((wTn 3 5 2 {wX with cmds := [⟨List.replicate 64 0, 4, .ended 1 [1,2]⟩]} [(TNW_CPLQ_CFG_EN 3,1),(TNW_CPLQ_CFG_LOG2 3,4),(TNW_CPLQ_HEAD_HEAD 3,3),(TNW_CPLQ_TAIL_TAIL 3,15),(TNW_CPLQ_CFG_VEC 3,2),(TNW_REQ0_VEC 3,8)])).ten 3).nextCpl).map (·.1) |>.getD wX), (((((wTn 3 5 2 {wX with cmds := [⟨List.replicate 64 0, 4, .ended 1 [1,2]⟩]} [(TNW_CPLQ_CFG_EN 3,1),(TNW_CPLQ_CFG_LOG2 3,4),(TNW_CPLQ_HEAD_HEAD 3,3),(TNW_CPLQ_TAIL_TAIL 3,15),(TNW_CPLQ_CFG_VEC 3,2),(TNW_REQ0_VEC 3,8)])).ten 3).nextCpl).map (·.2.1) |>.getD []), (by first | decide +kernel | rfl), (by first | decide +kernel | rfl), (by first | decide +kernel | rfl), (by first | decide +kernel | rfl), (by first | decide +kernel | rfl)⟩,
   ⟨(wTn 1 5 2 {wX with cmds := [⟨List.replicate 64 0, 4, .ended 1 [1,2]⟩]} []), 3, (((((wTn 1 5 2 {wX with cmds := [⟨List.replicate 64 0, 4, .ended 1 [1,2]⟩]} [])).ten 3).nextCpl).map (·.1) |>.getD wX), (((((wTn 1 5 2 {wX with cmds := [⟨List.replicate 64 0, 4, .ended 1 [1,2]⟩]} [])).ten 3).nextCpl).map (·.2.1) |>.getD []), (((((wTn 1 5 2 {wX with cmds := [⟨List.replicate 64 0, 4, .ended 1 [1,2]⟩]} [])).ten 3).nextCpl).map (·.2.2) |>.getD false), (by first | decide +kernel | rfl), (by first | decide +kernel | rfl), (by first | decide +kernel | rfl), (by first | decide +kernel | rfl), (by first | decide +kernel | rfl), (by first | decide +kernel | rfl)⟩,
   ⟨(wTn 1 5 2 {wX with reports := [⟨77,3,false,false,false,0,1,2⟩]} [(TNW_CPLQ_CFG_EN 3,1),(TNW_CPLQ_CFG_LOG2 3,4),(TNW_CPLQ_HEAD_HEAD 3,3),(TNW_CPLQ_TAIL_TAIL 3,15),(TNW_CPLQ_CFG_VEC 3,2),(TNW_REQ0_VEC 3,8)]), 3, (((wTn 1 5 2 {wX with reports := [⟨77,3,false,false,false,0,1,2⟩]} [(TNW_CPLQ_CFG_EN 3,1),(TNW_CPLQ_CFG_LOG2 3,4),(TNW_CPLQ_HEAD_HEAD 3,3),(TNW_CPLQ_TAIL_TAIL 3,15),(TNW_CPLQ_CFG_VEC 3,2),(TNW_REQ0_VEC 3,8)])).fld (TNW_CPLQ_TAIL_TAIL 3)), (((((wTn 1 5 2 {wX with reports := [⟨77,3,false,false,false,0,1,2⟩]} [(TNW_CPLQ_CFG_EN 3,1),(TNW_CPLQ_CFG_LOG2 3,4),(TNW_CPLQ_HEAD_HEAD 3,3),(TNW_CPLQ_TAIL_TAIL 3,15),(TNW_CPLQ_CFG_VEC 3,2),(TNW_REQ0_VEC 3,8)])).ten 3).nextCpl).map (·.1) |>.getD wX), (((((wTn 1 5 2 {wX with reports := [⟨77,3,false,false,false,0,1,2⟩]} [(TNW_CPLQ_CFG_EN 3,1),(TNW_CPLQ_CFG_LOG2 3,4),(TNW_CPLQ_HEAD_HEAD 3,3),(TNW_CPLQ_TAIL_TAIL 3,15),(TNW_CPLQ_CFG_VEC 3,2),(TNW_REQ0_VEC 3,8)])).ten 3).nextCpl).map (·.2.1) |>.getD []), (((((wTn 1 5 2 {wX with reports := [⟨77,3,false,false,false,0,1,2⟩]} [(TNW_CPLQ_CFG_EN 3,1),(TNW_CPLQ_CFG_LOG2 3,4),(TNW_CPLQ_HEAD_HEAD 3,3),(TNW_CPLQ_TAIL_TAIL 3,15),(TNW_CPLQ_CFG_VEC 3,2),(TNW_REQ0_VEC 3,8)])).ten 3).nextCpl).map (·.2.2) |>.getD false), (by first | decide +kernel | rfl), (by first | decide +kernel | rfl), (by first | decide +kernel | rfl), (by first | decide +kernel | rfl), (by first | decide +kernel | rfl), (by first | decide +kernel | rfl), (by first | rfl | decide +kernel)⟩,
   ⟨(wTn 1 5 2 {wX with events := [(2,3)], pba := [2], cplEv := [2,4]} [(TNW_CPLQ_CFG_EN 3,1),(TNW_CPLQ_CFG_LOG2 3,4),(TNW_CPLQ_HEAD_HEAD 3,3),(TNW_CPLQ_TAIL_TAIL 3,15),(TNW_CPLQ_CFG_VEC 3,2),(TNW_REQ0_VEC 3,8)]), 3, 2, (by first | decide +kernel | rfl), (by first | decide +kernel | rfl), (by first | decide +kernel | rfl), (by first | decide +kernel | rfl), (by first | decide +kernel | rfl)⟩,
   ⟨({ (wTn 1 5 2 wX [(TNW_CMDQ_CFG_EN 3,1),(TNW_CMDQ_CFG_LOG2 3,4),(TNW_CMDQ_HEAD_HEAD 3,15),(TNW_CMDQ_TAIL_TAIL 3,2),(TNW_CMDQ_BASE_LO_BASE 3,0x4000)]) with cmdTurn := 2 } : State), 4, 0, (by first | decide +kernel | rfl), (by first | decide +kernel | rfl)⟩,
   ⟨({ (wTn 1 5 2 wX [(TNW_CMDQ_CFG_EN 3,1),(TNW_CMDQ_CFG_LOG2 3,4),(TNW_CMDQ_HEAD_HEAD 3,15),(TNW_CMDQ_TAIL_TAIL 3,2),(TNW_CMDQ_BASE_LO_BASE 3,0x4000)]) with cmdTurn := 2 } : State), 4, ((({ (wTn 1 5 2 wX [(TNW_CMDQ_CFG_EN 3,1),(TNW_CMDQ_CFG_LOG2 3,4),(TNW_CMDQ_HEAD_HEAD 3,15),(TNW_CMDQ_TAIL_TAIL 3,2),(TNW_CMDQ_BASE_LO_BASE 3,0x4000)]) with cmdTurn := 2 } : State)).ifRing 0), (by first | decide +kernel | rfl), (by first | rfl | decide +kernel), (by first | decide +kernel | rfl)⟩,
   ⟨(wTn 1 5 2 wX [(HST_IFQ_CFG_EN 0,1),(HST_IFQ_CFG_LOG2 0,4),(HST_IFQ_TAIL_TAIL 0,2)]), 3, (((wTn 1 5 2 wX [(HST_IFQ_CFG_EN 0,1),(HST_IFQ_CFG_LOG2 0,4),(HST_IFQ_TAIL_TAIL 0,2)])).ifRing 0), (by first | decide +kernel | rfl), (by first | rfl | decide +kernel), (by first | decide +kernel | rfl), (by first | decide +kernel | rfl), (by first | decide +kernel | rfl)⟩,
   ⟨({ (wTn 1 5 2 wX [(HST_IFQ_CFG_EN 0,1),(HST_IFQ_CFG_LOG2 0,4),(HST_IFQ_TAIL_TAIL 0,2)]) with host0 := memPut [] 0 (leBytes 8 0x900 ++ leBytes 2 64 ++ List.replicate 22 0), mcMem := memPut [] 0 (leBytes 8 0x900 ++ leBytes 2 64 ++ List.replicate 22 0) } : State), ((({ (wTn 1 5 2 wX [(HST_IFQ_CFG_EN 0,1),(HST_IFQ_CFG_LOG2 0,4),(HST_IFQ_TAIL_TAIL 0,2)]) with host0 := memPut [] 0 (leBytes 8 0x900 ++ leBytes 2 64 ++ List.replicate 22 0), mcMem := memPut [] 0 (leBytes 8 0x900 ++ leBytes 2 64 ++ List.replicate 22 0) } : State)).receive 80 false (ethFrame (memTake (({ (wTn 1 5 2 wX [(HST_IFQ_CFG_EN 0,1),(HST_IFQ_CFG_LOG2 0,4),(HST_IFQ_TAIL_TAIL 0,2)]) with host0 := memPut [] 0 (leBytes 8 0x900 ++ leBytes 2 64 ++ List.replicate 22 0), mcMem := memPut [] 0 (leBytes 8 0x900 ++ leBytes 2 64 ++ List.replicate 22 0) } : State)).mcMem (leNat ((memTake (({ (wTn 1 5 2 wX [(HST_IFQ_CFG_EN 0,1),(HST_IFQ_CFG_LOG2 0,4),(HST_IFQ_TAIL_TAIL 0,2)]) with host0 := memPut [] 0 (leBytes 8 0x900 ++ leBytes 2 64 ++ List.replicate 22 0), mcMem := memPut [] 0 (leBytes 8 0x900 ++ leBytes 2 64 ++ List.replicate 22 0) } : State)).mcMem ((({ (wTn 1 5 2 wX [(HST_IFQ_CFG_EN 0,1),(HST_IFQ_CFG_LOG2 0,4),(HST_IFQ_TAIL_TAIL 0,2)]) with host0 := memPut [] 0 (leBytes 8 0x900 ++ leBytes 2 64 ++ List.replicate 22 0), mcMem := memPut [] 0 (leBytes 8 0x900 ++ leBytes 2 64 ++ List.replicate 22 0) } : State)).ifRing 0).at 32).take 8)) (leNat (slice (memTake (({ (wTn 1 5 2 wX [(HST_IFQ_CFG_EN 0,1),(HST_IFQ_CFG_LOG2 0,4),(HST_IFQ_TAIL_TAIL 0,2)]) with host0 := memPut [] 0 (leBytes 8 0x900 ++ leBytes 2 64 ++ List.replicate 22 0), mcMem := memPut [] 0 (leBytes 8 0x900 ++ leBytes 2 64 ++ List.replicate 22 0) } : State)).mcMem ((({ (wTn 1 5 2 wX [(HST_IFQ_CFG_EN 0,1),(HST_IFQ_CFG_LOG2 0,4),(HST_IFQ_TAIL_TAIL 0,2)]) with host0 := memPut [] 0 (leBytes 8 0x900 ++ leBytes 2 64 ++ List.replicate 22 0), mcMem := memPut [] 0 (leBytes 8 0x900 ++ leBytes 2 64 ++ List.replicate 22 0) } : State)).ifRing 0).at 32) 8 2)))) (({ (wTn 1 5 2 wX [(HST_IFQ_CFG_EN 0,1),(HST_IFQ_CFG_LOG2 0,4),(HST_IFQ_TAIL_TAIL 0,2)]) with host0 := memPut [] 0 (leBytes 8 0x900 ++ leBytes 2 64 ++ List.replicate 22 0), mcMem := memPut [] 0 (leBytes 8 0x900 ++ leBytes 2 64 ++ List.replicate 22 0) } : State)).stamp 0 (descRequest (memTake (({ (wTn 1 5 2 wX [(HST_IFQ_CFG_EN 0,1),(HST_IFQ_CFG_LOG2 0,4),(HST_IFQ_TAIL_TAIL 0,2)]) with host0 := memPut [] 0 (leBytes 8 0x900 ++ leBytes 2 64 ++ List.replicate 22 0), mcMem := memPut [] 0 (leBytes 8 0x900 ++ leBytes 2 64 ++ List.replicate 22 0) } : State)).mcMem ((({ (wTn 1 5 2 wX [(HST_IFQ_CFG_EN 0,1),(HST_IFQ_CFG_LOG2 0,4),(HST_IFQ_TAIL_TAIL 0,2)]) with host0 := memPut [] 0 (leBytes 8 0x900 ++ leBytes 2 64 ++ List.replicate 22 0), mcMem := memPut [] 0 (leBytes 8 0x900 ++ leBytes 2 64 ++ List.replicate 22 0) } : State)).ifRing 0).at 32) none)).1, 3, ((({ (wTn 1 5 2 wX [(HST_IFQ_CFG_EN 0,1),(HST_IFQ_CFG_LOG2 0,4),(HST_IFQ_TAIL_TAIL 0,2)]) with host0 := memPut [] 0 (leBytes 8 0x900 ++ leBytes 2 64 ++ List.replicate 22 0), mcMem := memPut [] 0 (leBytes 8 0x900 ++ leBytes 2 64 ++ List.replicate 22 0) } : State)).ifRing 0), ((({ (wTn 1 5 2 wX [(HST_IFQ_CFG_EN 0,1),(HST_IFQ_CFG_LOG2 0,4),(HST_IFQ_TAIL_TAIL 0,2)]) with host0 := memPut [] 0 (leBytes 8 0x900 ++ leBytes 2 64 ++ List.replicate 22 0), mcMem := memPut [] 0 (leBytes 8 0x900 ++ leBytes 2 64 ++ List.replicate 22 0) } : State)).receive 80 false (ethFrame (memTake (({ (wTn 1 5 2 wX [(HST_IFQ_CFG_EN 0,1),(HST_IFQ_CFG_LOG2 0,4),(HST_IFQ_TAIL_TAIL 0,2)]) with host0 := memPut [] 0 (leBytes 8 0x900 ++ leBytes 2 64 ++ List.replicate 22 0), mcMem := memPut [] 0 (leBytes 8 0x900 ++ leBytes 2 64 ++ List.replicate 22 0) } : State)).mcMem (leNat ((memTake (({ (wTn 1 5 2 wX [(HST_IFQ_CFG_EN 0,1),(HST_IFQ_CFG_LOG2 0,4),(HST_IFQ_TAIL_TAIL 0,2)]) with host0 := memPut [] 0 (leBytes 8 0x900 ++ leBytes 2 64 ++ List.replicate 22 0), mcMem := memPut [] 0 (leBytes 8 0x900 ++ leBytes 2 64 ++ List.replicate 22 0) } : State)).mcMem ((({ (wTn 1 5 2 wX [(HST_IFQ_CFG_EN 0,1),(HST_IFQ_CFG_LOG2 0,4),(HST_IFQ_TAIL_TAIL 0,2)]) with host0 := memPut [] 0 (leBytes 8 0x900 ++ leBytes 2 64 ++ List.replicate 22 0), mcMem := memPut [] 0 (leBytes 8 0x900 ++ leBytes 2 64 ++ List.replicate 22 0) } : State)).ifRing 0).at 32).take 8)) (leNat (slice (memTake (({ (wTn 1 5 2 wX [(HST_IFQ_CFG_EN 0,1),(HST_IFQ_CFG_LOG2 0,4),(HST_IFQ_TAIL_TAIL 0,2)]) with host0 := memPut [] 0 (leBytes 8 0x900 ++ leBytes 2 64 ++ List.replicate 22 0), mcMem := memPut [] 0 (leBytes 8 0x900 ++ leBytes 2 64 ++ List.replicate 22 0) } : State)).mcMem ((({ (wTn 1 5 2 wX [(HST_IFQ_CFG_EN 0,1),(HST_IFQ_CFG_LOG2 0,4),(HST_IFQ_TAIL_TAIL 0,2)]) with host0 := memPut [] 0 (leBytes 8 0x900 ++ leBytes 2 64 ++ List.replicate 22 0), mcMem := memPut [] 0 (leBytes 8 0x900 ++ leBytes 2 64 ++ List.replicate 22 0) } : State)).ifRing 0).at 32) 8 2)))) (({ (wTn 1 5 2 wX [(HST_IFQ_CFG_EN 0,1),(HST_IFQ_CFG_LOG2 0,4),(HST_IFQ_TAIL_TAIL 0,2)]) with host0 := memPut [] 0 (leBytes 8 0x900 ++ leBytes 2 64 ++ List.replicate 22 0), mcMem := memPut [] 0 (leBytes 8 0x900 ++ leBytes 2 64 ++ List.replicate 22 0) } : State)).stamp 0 (descRequest (memTake (({ (wTn 1 5 2 wX [(HST_IFQ_CFG_EN 0,1),(HST_IFQ_CFG_LOG2 0,4),(HST_IFQ_TAIL_TAIL 0,2)]) with host0 := memPut [] 0 (leBytes 8 0x900 ++ leBytes 2 64 ++ List.replicate 22 0), mcMem := memPut [] 0 (leBytes 8 0x900 ++ leBytes 2 64 ++ List.replicate 22 0) } : State)).mcMem ((({ (wTn 1 5 2 wX [(HST_IFQ_CFG_EN 0,1),(HST_IFQ_CFG_LOG2 0,4),(HST_IFQ_TAIL_TAIL 0,2)]) with host0 := memPut [] 0 (leBytes 8 0x900 ++ leBytes 2 64 ++ List.replicate 22 0), mcMem := memPut [] 0 (leBytes 8 0x900 ++ leBytes 2 64 ++ List.replicate 22 0) } : State)).ifRing 0).at 32) none)).2, (by first | decide +kernel | rfl), (by first | rfl | decide +kernel), (by first | decide +kernel | rfl), (by first | decide +kernel | rfl), (by first | decide +kernel | rfl), (by first | decide +kernel | rfl)⟩,
   ⟨(wTn 1 5 2 {wX with cmds := [⟨List.replicate 64 0, 4, .ended 1 [1,2]⟩]} []), 3, 1, (((wTn 1 5 2 {wX with cmds := [⟨List.replicate 64 0, 4, .ended 1 [1,2]⟩]} [])).tenRec 3 4 1 + ((wTn 1 5 2 {wX with cmds := [⟨List.replicate 64 0, 4, .ended 1 [1,2]⟩]} [])).fld (TNW_RP_CFG_HV 3 1)), (((wTn 1 5 2 {wX with cmds := [⟨List.replicate 64 0, 4, .ended 1 [1,2]⟩]} [])).txRing 3 1), (by first | decide +kernel | rfl), (by first | rfl | decide +kernel), (by first | rfl | decide +kernel), (by first | decide +kernel | rfl), (by first | decide +kernel | rfl)⟩,
   ⟨(wTn 1 5 2 wX [(TNW_REQ0_RP 3,4),(TNW_RP_CFG_EN 3 1,1),(TNW_RP_CFG_TX_LOG2 3 1,4),(TNW_RP_TX_TAIL_TAIL 3 1,2),(TNW_RP_VEC_TX_VEC 3 1,2)]), 3, 1, (((wTn 1 5 2 wX [(TNW_REQ0_RP 3,4),(TNW_RP_CFG_EN 3 1,1),(TNW_RP_CFG_TX_LOG2 3 1,4),(TNW_RP_TX_TAIL_TAIL 3 1,2),(TNW_RP_VEC_TX_VEC 3 1,2)])).tenRec 3 4 1 + ((wTn 1 5 2 wX [(TNW_REQ0_RP 3,4),(TNW_RP_CFG_EN 3 1,1),(TNW_RP_CFG_TX_LOG2 3 1,4),(TNW_RP_TX_TAIL_TAIL 3 1,2),(TNW_RP_VEC_TX_VEC 3 1,2)])).fld (TNW_RP_CFG_HV 3 1)), (((wTn 1 5 2 wX [(TNW_REQ0_RP 3,4),(TNW_RP_CFG_EN 3 1,1),(TNW_RP_CFG_TX_LOG2 3 1,4),(TNW_RP_TX_TAIL_TAIL 3 1,2),(TNW_RP_VEC_TX_VEC 3 1,2)])).txRing 3 1), (by first | decide +kernel | rfl), (by first | rfl | decide +kernel), (by first | rfl | decide +kernel), (by first | decide +kernel | rfl), (by first | decide +kernel | rfl), (by first | decide +kernel | rfl), (by first | decide +kernel | rfl)⟩,
   ⟨({ (wTn 1 5 2 wX [(TNW_REQ0_RP 3,4),(TNW_RP_CFG_EN 3 1,1),(TNW_RP_CFG_TX_LOG2 3 1,4),(TNW_RP_TX_TAIL_TAIL 3 1,2),(TNW_RP_VEC_TX_VEC 3 1,2)]) with host0 := memPut [] 0 (leBytes 8 0x900 ++ leBytes 2 64 ++ List.replicate 22 0), mcMem := memPut [] 0 (leBytes 8 0x900 ++ leBytes 2 64 ++ List.replicate 22 0) } : State), ((({ (wTn 1 5 2 wX [(TNW_REQ0_RP 3,4),(TNW_RP_CFG_EN 3 1,1),(TNW_RP_CFG_TX_LOG2 3 1,4),(TNW_RP_TX_TAIL_TAIL 3 1,2),(TNW_RP_VEC_TX_VEC 3 1,2)]) with host0 := memPut [] 0 (leBytes 8 0x900 ++ leBytes 2 64 ++ List.replicate 22 0), mcMem := memPut [] 0 (leBytes 8 0x900 ++ leBytes 2 64 ++ List.replicate 22 0) } : State)).receive (88 + ((({ (wTn 1 5 2 wX [(TNW_REQ0_RP 3,4),(TNW_RP_CFG_EN 3 1,1),(TNW_RP_CFG_TX_LOG2 3 1,4),(TNW_RP_TX_TAIL_TAIL 3 1,2),(TNW_RP_VEC_TX_VEC 3 1,2)]) with host0 := memPut [] 0 (leBytes 8 0x900 ++ leBytes 2 64 ++ List.replicate 22 0), mcMem := memPut [] 0 (leBytes 8 0x900 ++ leBytes 2 64 ++ List.replicate 22 0) } : State)).tenRec 3 4 1 + (({ (wTn 1 5 2 wX [(TNW_REQ0_RP 3,4),(TNW_RP_CFG_EN 3 1,1),(TNW_RP_CFG_TX_LOG2 3 1,4),(TNW_RP_TX_TAIL_TAIL 3 1,2),(TNW_RP_VEC_TX_VEC 3 1,2)]) with host0 := memPut [] 0 (leBytes 8 0x900 ++ leBytes 2 64 ++ List.replicate 22 0), mcMem := memPut [] 0 (leBytes 8 0x900 ++ leBytes 2 64 ++ List.replicate 22 0) } : State)).fld (TNW_RP_CFG_HV 3 1))) false (ethFrame ((({ (wTn 1 5 2 wX [(TNW_REQ0_RP 3,4),(TNW_RP_CFG_EN 3 1,1),(TNW_RP_CFG_TX_LOG2 3 1,4),(TNW_RP_TX_TAIL_TAIL 3 1,2),(TNW_RP_VEC_TX_VEC 3 1,2)]) with host0 := memPut [] 0 (leBytes 8 0x900 ++ leBytes 2 64 ++ List.replicate 22 0), mcMem := memPut [] 0 (leBytes 8 0x900 ++ leBytes 2 64 ++ List.replicate 22 0) } : State)).dmaRead 3 (leNat (((({ (wTn 1 5 2 wX [(TNW_REQ0_RP 3,4),(TNW_RP_CFG_EN 3 1,1),(TNW_RP_CFG_TX_LOG2 3 1,4),(TNW_RP_TX_TAIL_TAIL 3 1,2),(TNW_RP_VEC_TX_VEC 3 1,2)]) with host0 := memPut [] 0 (leBytes 8 0x900 ++ leBytes 2 64 ++ List.replicate 22 0), mcMem := memPut [] 0 (leBytes 8 0x900 ++ leBytes 2 64 ++ List.replicate 22 0) } : State)).dmaRead 3 ((({ (wTn 1 5 2 wX [(TNW_REQ0_RP 3,4),(TNW_RP_CFG_EN 3 1,1),(TNW_RP_CFG_TX_LOG2 3 1,4),(TNW_RP_TX_TAIL_TAIL 3 1,2),(TNW_RP_VEC_TX_VEC 3 1,2)]) with host0 := memPut [] 0 (leBytes 8 0x900 ++ leBytes 2 64 ++ List.replicate 22 0), mcMem := memPut [] 0 (leBytes 8 0x900 ++ leBytes 2 64 ++ List.replicate 22 0) } : State)).txRing 3 1).at 32).take 8)) (leNat (slice ((({ (wTn 1 5 2 wX [(TNW_REQ0_RP 3,4),(TNW_RP_CFG_EN 3 1,1),(TNW_RP_CFG_TX_LOG2 3 1,4),(TNW_RP_TX_TAIL_TAIL 3 1,2),(TNW_RP_VEC_TX_VEC 3 1,2)]) with host0 := memPut [] 0 (leBytes 8 0x900 ++ leBytes 2 64 ++ List.replicate 22 0), mcMem := memPut [] 0 (leBytes 8 0x900 ++ leBytes 2 64 ++ List.replicate 22 0) } : State)).dmaRead 3 ((({ (wTn 1 5 2 wX [(TNW_REQ0_RP 3,4),(TNW_RP_CFG_EN 3 1,1),(TNW_RP_CFG_TX_LOG2 3 1,4),(TNW_RP_TX_TAIL_TAIL 3 1,2),(TNW_RP_VEC_TX_VEC 3 1,2)]) with host0 := memPut [] 0 (leBytes 8 0x900 ++ leBytes 2 64 ++ List.replicate 22 0), mcMem := memPut [] 0 (leBytes 8 0x900 ++ leBytes 2 64 ++ List.replicate 22 0) } : State)).txRing 3 1).at 32) 8 2)))) (({ (wTn 1 5 2 wX [(TNW_REQ0_RP 3,4),(TNW_RP_CFG_EN 3 1,1),(TNW_RP_CFG_TX_LOG2 3 1,4),(TNW_RP_TX_TAIL_TAIL 3 1,2),(TNW_RP_VEC_TX_VEC 3 1,2)]) with host0 := memPut [] 0 (leBytes 8 0x900 ++ leBytes 2 64 ++ List.replicate 22 0), mcMem := memPut [] 0 (leBytes 8 0x900 ++ leBytes 2 64 ++ List.replicate 22 0) } : State)).stamp 0 (descRequest ((({ (wTn 1 5 2 wX [(TNW_REQ0_RP 3,4),(TNW_RP_CFG_EN 3 1,1),(TNW_RP_CFG_TX_LOG2 3 1,4),(TNW_RP_TX_TAIL_TAIL 3 1,2),(TNW_RP_VEC_TX_VEC 3 1,2)]) with host0 := memPut [] 0 (leBytes 8 0x900 ++ leBytes 2 64 ++ List.replicate 22 0), mcMem := memPut [] 0 (leBytes 8 0x900 ++ leBytes 2 64 ++ List.replicate 22 0) } : State)).dmaRead 3 ((({ (wTn 1 5 2 wX [(TNW_REQ0_RP 3,4),(TNW_RP_CFG_EN 3 1,1),(TNW_RP_CFG_TX_LOG2 3 1,4),(TNW_RP_TX_TAIL_TAIL 3 1,2),(TNW_RP_VEC_TX_VEC 3 1,2)]) with host0 := memPut [] 0 (leBytes 8 0x900 ++ leBytes 2 64 ++ List.replicate 22 0), mcMem := memPut [] 0 (leBytes 8 0x900 ++ leBytes 2 64 ++ List.replicate 22 0) } : State)).txRing 3 1).at 32) (some 3))).1, 3, 1, ((({ (wTn 1 5 2 wX [(TNW_REQ0_RP 3,4),(TNW_RP_CFG_EN 3 1,1),(TNW_RP_CFG_TX_LOG2 3 1,4),(TNW_RP_TX_TAIL_TAIL 3 1,2),(TNW_RP_VEC_TX_VEC 3 1,2)]) with host0 := memPut [] 0 (leBytes 8 0x900 ++ leBytes 2 64 ++ List.replicate 22 0), mcMem := memPut [] 0 (leBytes 8 0x900 ++ leBytes 2 64 ++ List.replicate 22 0) } : State)).tenRec 3 4 1 + (({ (wTn 1 5 2 wX [(TNW_REQ0_RP 3,4),(TNW_RP_CFG_EN 3 1,1),(TNW_RP_CFG_TX_LOG2 3 1,4),(TNW_RP_TX_TAIL_TAIL 3 1,2),(TNW_RP_VEC_TX_VEC 3 1,2)]) with host0 := memPut [] 0 (leBytes 8 0x900 ++ leBytes 2 64 ++ List.replicate 22 0), mcMem := memPut [] 0 (leBytes 8 0x900 ++ leBytes 2 64 ++ List.replicate 22 0) } : State)).fld (TNW_RP_CFG_HV 3 1)), ((({ (wTn 1 5 2 wX [(TNW_REQ0_RP 3,4),(TNW_RP_CFG_EN 3 1,1),(TNW_RP_CFG_TX_LOG2 3 1,4),(TNW_RP_TX_TAIL_TAIL 3 1,2),(TNW_RP_VEC_TX_VEC 3 1,2)]) with host0 := memPut [] 0 (leBytes 8 0x900 ++ leBytes 2 64 ++ List.replicate 22 0), mcMem := memPut [] 0 (leBytes 8 0x900 ++ leBytes 2 64 ++ List.replicate 22 0) } : State)).dmaRead 3 ((({ (wTn 1 5 2 wX [(TNW_REQ0_RP 3,4),(TNW_RP_CFG_EN 3 1,1),(TNW_RP_CFG_TX_LOG2 3 1,4),(TNW_RP_TX_TAIL_TAIL 3 1,2),(TNW_RP_VEC_TX_VEC 3 1,2)]) with host0 := memPut [] 0 (leBytes 8 0x900 ++ leBytes 2 64 ++ List.replicate 22 0), mcMem := memPut [] 0 (leBytes 8 0x900 ++ leBytes 2 64 ++ List.replicate 22 0) } : State)).txRing 3 1).at 32), ((({ (wTn 1 5 2 wX [(TNW_REQ0_RP 3,4),(TNW_RP_CFG_EN 3 1,1),(TNW_RP_CFG_TX_LOG2 3 1,4),(TNW_RP_TX_TAIL_TAIL 3 1,2),(TNW_RP_VEC_TX_VEC 3 1,2)]) with host0 := memPut [] 0 (leBytes 8 0x900 ++ leBytes 2 64 ++ List.replicate 22 0), mcMem := memPut [] 0 (leBytes 8 0x900 ++ leBytes 2 64 ++ List.replicate 22 0) } : State)).txRing 3 1), ((({ (wTn 1 5 2 wX [(TNW_REQ0_RP 3,4),(TNW_RP_CFG_EN 3 1,1),(TNW_RP_CFG_TX_LOG2 3 1,4),(TNW_RP_TX_TAIL_TAIL 3 1,2),(TNW_RP_VEC_TX_VEC 3 1,2)]) with host0 := memPut [] 0 (leBytes 8 0x900 ++ leBytes 2 64 ++ List.replicate 22 0), mcMem := memPut [] 0 (leBytes 8 0x900 ++ leBytes 2 64 ++ List.replicate 22 0) } : State)).receive (88 + ((({ (wTn 1 5 2 wX [(TNW_REQ0_RP 3,4),(TNW_RP_CFG_EN 3 1,1),(TNW_RP_CFG_TX_LOG2 3 1,4),(TNW_RP_TX_TAIL_TAIL 3 1,2),(TNW_RP_VEC_TX_VEC 3 1,2)]) with host0 := memPut [] 0 (leBytes 8 0x900 ++ leBytes 2 64 ++ List.replicate 22 0), mcMem := memPut [] 0 (leBytes 8 0x900 ++ leBytes 2 64 ++ List.replicate 22 0) } : State)).tenRec 3 4 1 + (({ (wTn 1 5 2 wX [(TNW_REQ0_RP 3,4),(TNW_RP_CFG_EN 3 1,1),(TNW_RP_CFG_TX_LOG2 3 1,4),(TNW_RP_TX_TAIL_TAIL 3 1,2),(TNW_RP_VEC_TX_VEC 3 1,2)]) with host0 := memPut [] 0 (leBytes 8 0x900 ++ leBytes 2 64 ++ List.replicate 22 0), mcMem := memPut [] 0 (leBytes 8 0x900 ++ leBytes 2 64 ++ List.replicate 22 0) } : State)).fld (TNW_RP_CFG_HV 3 1))) false (ethFrame ((({ (wTn 1 5 2 wX [(TNW_REQ0_RP 3,4),(TNW_RP_CFG_EN 3 1,1),(TNW_RP_CFG_TX_LOG2 3 1,4),(TNW_RP_TX_TAIL_TAIL 3 1,2),(TNW_RP_VEC_TX_VEC 3 1,2)]) with host0 := memPut [] 0 (leBytes 8 0x900 ++ leBytes 2 64 ++ List.replicate 22 0), mcMem := memPut [] 0 (leBytes 8 0x900 ++ leBytes 2 64 ++ List.replicate 22 0) } : State)).dmaRead 3 (leNat (((({ (wTn 1 5 2 wX [(TNW_REQ0_RP 3,4),(TNW_RP_CFG_EN 3 1,1),(TNW_RP_CFG_TX_LOG2 3 1,4),(TNW_RP_TX_TAIL_TAIL 3 1,2),(TNW_RP_VEC_TX_VEC 3 1,2)]) with host0 := memPut [] 0 (leBytes 8 0x900 ++ leBytes 2 64 ++ List.replicate 22 0), mcMem := memPut [] 0 (leBytes 8 0x900 ++ leBytes 2 64 ++ List.replicate 22 0) } : State)).dmaRead 3 ((({ (wTn 1 5 2 wX [(TNW_REQ0_RP 3,4),(TNW_RP_CFG_EN 3 1,1),(TNW_RP_CFG_TX_LOG2 3 1,4),(TNW_RP_TX_TAIL_TAIL 3 1,2),(TNW_RP_VEC_TX_VEC 3 1,2)]) with host0 := memPut [] 0 (leBytes 8 0x900 ++ leBytes 2 64 ++ List.replicate 22 0), mcMem := memPut [] 0 (leBytes 8 0x900 ++ leBytes 2 64 ++ List.replicate 22 0) } : State)).txRing 3 1).at 32).take 8)) (leNat (slice ((({ (wTn 1 5 2 wX [(TNW_REQ0_RP 3,4),(TNW_RP_CFG_EN 3 1,1),(TNW_RP_CFG_TX_LOG2 3 1,4),(TNW_RP_TX_TAIL_TAIL 3 1,2),(TNW_RP_VEC_TX_VEC 3 1,2)]) with host0 := memPut [] 0 (leBytes 8 0x900 ++ leBytes 2 64 ++ List.replicate 22 0), mcMem := memPut [] 0 (leBytes 8 0x900 ++ leBytes 2 64 ++ List.replicate 22 0) } : State)).dmaRead 3 ((({ (wTn 1 5 2 wX [(TNW_REQ0_RP 3,4),(TNW_RP_CFG_EN 3 1,1),(TNW_RP_CFG_TX_LOG2 3 1,4),(TNW_RP_TX_TAIL_TAIL 3 1,2),(TNW_RP_VEC_TX_VEC 3 1,2)]) with host0 := memPut [] 0 (leBytes 8 0x900 ++ leBytes 2 64 ++ List.replicate 22 0), mcMem := memPut [] 0 (leBytes 8 0x900 ++ leBytes 2 64 ++ List.replicate 22 0) } : State)).txRing 3 1).at 32) 8 2)))) (({ (wTn 1 5 2 wX [(TNW_REQ0_RP 3,4),(TNW_RP_CFG_EN 3 1,1),(TNW_RP_CFG_TX_LOG2 3 1,4),(TNW_RP_TX_TAIL_TAIL 3 1,2),(TNW_RP_VEC_TX_VEC 3 1,2)]) with host0 := memPut [] 0 (leBytes 8 0x900 ++ leBytes 2 64 ++ List.replicate 22 0), mcMem := memPut [] 0 (leBytes 8 0x900 ++ leBytes 2 64 ++ List.replicate 22 0) } : State)).stamp 0 (descRequest ((({ (wTn 1 5 2 wX [(TNW_REQ0_RP 3,4),(TNW_RP_CFG_EN 3 1,1),(TNW_RP_CFG_TX_LOG2 3 1,4),(TNW_RP_TX_TAIL_TAIL 3 1,2),(TNW_RP_VEC_TX_VEC 3 1,2)]) with host0 := memPut [] 0 (leBytes 8 0x900 ++ leBytes 2 64 ++ List.replicate 22 0), mcMem := memPut [] 0 (leBytes 8 0x900 ++ leBytes 2 64 ++ List.replicate 22 0) } : State)).dmaRead 3 ((({ (wTn 1 5 2 wX [(TNW_REQ0_RP 3,4),(TNW_RP_CFG_EN 3 1,1),(TNW_RP_CFG_TX_LOG2 3 1,4),(TNW_RP_TX_TAIL_TAIL 3 1,2),(TNW_RP_VEC_TX_VEC 3 1,2)]) with host0 := memPut [] 0 (leBytes 8 0x900 ++ leBytes 2 64 ++ List.replicate 22 0), mcMem := memPut [] 0 (leBytes 8 0x900 ++ leBytes 2 64 ++ List.replicate 22 0) } : State)).txRing 3 1).at 32) (some 3))).2, (by first | decide +kernel | rfl), (by first | rfl | decide +kernel), (by first | rfl | decide +kernel), (by first | decide +kernel | rfl), (by first | decide +kernel | rfl), (by first | decide +kernel | rfl), (by first | rfl | decide +kernel), (by first | decide +kernel | rfl), (by first | decide +kernel | rfl)⟩⟩

end W20

namespace W21
/-- Data of the witnesses below. -/
def wTq (fl fn : Byte) : Mem := wImg [(0x01, 0x500, [(2, [1]),(16*88+2,[1])]), (0x0F, 0x2000, [(16 + 40 * 3, [3, fl, fn, 2, 2, 4, 8, 0, 10, 0, 0, 0, 3, 0, 2, 0, 2, 1, 2, 0, 0x11, 0, 0, 0, 20, 0, 30, 0, 7, 0, 1, 2, 3, 4, 5, 6])]), (0x0E, 0x2000, [(8, [3]), (160, [0, 1, 0x21, 1, 1, 0, 0, 0, 1, 0, 1, 0, 0, 5, 0x40, 0])])]
/-- Data of the witnesses below. -/
def wRg : Region := ⟨true, false, 1, 0, 64, 64, 0, 5, 7, .normal, 3, [], 0⟩
/-- Data of the witnesses below. -/
def wTn (fl fn : Byte) (st : Nat) (x : Tenant) (l : List (Fld × Nat)) : State := { wPut wOn ([(HST_TN_STATE_STATE 3, st), (HST_POOL_RP_FREE, 100), (HST_POOL_CAP_FREE, 8), (PWR_DOM_STAT_ON, 0xFFF)] ++ l) with active := wTq fl fn, tenants := [(3, x)], clk := 500000000, planeA := { PlaneSt.empty with pools := [⟨[4, 3], 5, 9, false, [], []⟩], regions := [wRg], tagMap := [(0x11, 0), (0, 0)] }, planeB := { PlaneSt.empty with pools := [⟨[4, 3], 5, 9, false, [], []⟩], regions := [wRg], tagMap := [(0x11, 0), (0, 0)] } }
/-- Data of the witnesses below. -/
def wX : Tenant := (State.reset).ten 3
/-- Data of the witnesses below. -/
def wKo (u : Nat) : KeyHalf := ⟨2, u, 0xFFFF, 0, 0, false, 0, List.replicate 32 7, []⟩
/-- Data of the witnesses below. -/
def wCm (l : List Byte) (st : CmdSt) : TenCmd := ⟨l ++ List.replicate (64 - l.length) 0, 4, st⟩
/-- Data of the witnesses below. -/
def wFr (ty n : Nat) (e : List Byte) (sec : Bool) : Frame := { wFrame 64 with inPort := 5, bytes := [9,9,9,9,9,9,1,2,3,4,5,6,0x81,0,0,7,0x88,0xB5,1,BitVec.ofNat 8 ty,3,BitVec.ofNat 8 n,0,0,0,0] ++ e ++ List.replicate (64 - e.length) 0 ++ [1,2,3,4], secure := sec, plane := .A, buf := 5 }
/-- Data of the witnesses below. -/
def wIn (s : State) (a b : List Frame) : State := { s with planeA := { s.planeA with mgmt := a }, planeB := { s.planeB with mgmt := b } }
/-- Data of the witnesses below. -/
def wDo (s : State) (c : Instr) : State := wRun c s

theorem test_wit_InbandFramesAreTaken :
    (∃ (s : State) (pl : Plane) (f : Frame), (s.plane pl).mgmt.head?.any (fun g => g.inPort == f.inPort && g.bytes == f.bytes) = false) ∧
    (∃ (s : State) (u : State) (pl : Plane) (f : Frame) (fs : List Frame), (s.plane pl).mgmt = f :: fs ∧ u = (s.setPlane pl { s.plane pl with mgmt := fs }).release f ∧ (u.inbandTenant f.inPort f.bytes = none ∨ f.secure = false ∨ 16 < byteAt f.bytes 21 ∨ f.bytes.length < 30 + 64 * byteAt f.bytes 21)) ∧
    (∃ (s : State) (u : State) (pl : Plane) (tn : Nat) (f : Frame) (fs : List Frame) (e : List Byte), (s.plane pl).mgmt = f :: fs ∧ u = (s.setPlane pl { s.plane pl with mgmt := fs }).release f ∧ u.inbandTenant f.inPort f.bytes = some tn ∧ tn < 64 ∧ f.secure = true ∧ byteAt f.bytes 21 = 1 ∧ 94 ≤ f.bytes.length ∧ e = slice f.bytes 26 64 ∧ byteAt f.bytes 19 = 1 ∧ s.tenLive tn = true ∧ s.cmdRoom tn = true) ∧
    (∃ (s : State) (u : State) (pl : Plane) (tn : Nat) (f : Frame) (fs : List Frame) (e : List Byte), (s.plane pl).mgmt = f :: fs ∧ u = (s.setPlane pl { s.plane pl with mgmt := fs }).release f ∧ u.inbandTenant f.inPort f.bytes = some tn ∧ tn < 64 ∧ f.secure = true ∧ byteAt f.bytes 21 = 1 ∧ 94 ≤ f.bytes.length ∧ e = slice f.bytes 26 64 ∧ byteAt f.bytes 19 = 1 ∧ s.tenLive tn = false) ∧
    (∃ (s : State) (u : State) (pl : Plane) (tn : Nat) (f : Frame) (fs : List Frame) (e : List Byte), (s.plane pl).mgmt = f :: fs ∧ u = (s.setPlane pl { s.plane pl with mgmt := fs }).release f ∧ u.inbandTenant f.inPort f.bytes = some tn ∧ tn < 64 ∧ f.secure = true ∧ byteAt f.bytes 21 = 1 ∧ 94 ≤ f.bytes.length ∧ e = slice f.bytes 26 64 ∧ byteAt f.bytes 19 = 4 ∧ byteAt e 0 % 16 = 1 ∧ s.tenIs tn .absent = true) ∧
    (∃ (s : State) (tn : Nat), (s.tenInband tn = false ∨ s.tenIs tn .active = false ∨ (s.ten tn).inband = [])) ∧
    (∃ (s : State) (tn : Nat), s.tenInband tn = true ∧ s.tenIs tn .active = true ∧ (s.ten tn).inband ≠ []) :=
  ⟨⟨wOn, .A, (wFr 1 1 [1,0,4,0] true), (by first | decide +kernel | rfl)⟩,
   ⟨(wIn (wTn 3 5 0 wX []) [(wFr 1 17 [1] true)] []), (((wIn (wTn 3 5 0 wX []) [(wFr 1 17 [1] true)] []).setPlane .A { ((wIn (wTn 3 5 0 wX []) [(wFr 1 17 [1] true)] [])).plane .A with mgmt := [] }).release (wFr 1 17 [1] true)), .A, (wFr 1 17 [1] true), [], (by first | decide +kernel | rfl), (by first | rfl | decide +kernel), (by first | decide +kernel | rfl)⟩,
   ⟨(wIn (wTn 3 5 2 wX []) [(wFr 1 1 [1,0,4,0] true)] []), (((wIn (wTn 3 5 2 wX []) [(wFr 1 1 [1,0,4,0] true)] []).setPlane .A { ((wIn (wTn 3 5 2 wX []) [(wFr 1 1 [1,0,4,0] true)] [])).plane .A with mgmt := [] }).release (wFr 1 1 [1,0,4,0] true)), .A, 3, (wFr 1 1 [1,0,4,0] true), [], (slice ((wFr 1 1 [1,0,4,0] true)).bytes 26 64), (by first | decide +kernel | rfl), (by first | rfl | decide +kernel), (by first | decide +kernel | rfl), (by first | decide +kernel | rfl), (by first | decide +kernel | rfl), (by first | decide +kernel | rfl), (by first | decide +kernel | rfl), (by first | rfl | decide +kernel), (by first | decide +kernel | rfl), (by first | decide +kernel | rfl), (by first | decide +kernel | rfl)⟩,
   ⟨(wIn (wTn 3 5 0 wX []) [(wFr 1 1 [1,0,4,0] true)] []), (((wIn (wTn 3 5 0 wX []) [(wFr 1 1 [1,0,4,0] true)] []).setPlane .A { ((wIn (wTn 3 5 0 wX []) [(wFr 1 1 [1,0,4,0] true)] [])).plane .A with mgmt := [] }).release (wFr 1 1 [1,0,4,0] true)), .A, 3, (wFr 1 1 [1,0,4,0] true), [], (slice ((wFr 1 1 [1,0,4,0] true)).bytes 26 64), (by first | decide +kernel | rfl), (by first | rfl | decide +kernel), (by first | decide +kernel | rfl), (by first | decide +kernel | rfl), (by first | decide +kernel | rfl), (by first | decide +kernel | rfl), (by first | decide +kernel | rfl), (by first | rfl | decide +kernel), (by first | decide +kernel | rfl), (by first | decide +kernel | rfl)⟩,
   ⟨(wIn (wTn 3 5 0 wX []) [(wFr 4 1 [1,1] true)] []), (((wIn (wTn 3 5 0 wX []) [(wFr 4 1 [1,1] true)] []).setPlane .A { ((wIn (wTn 3 5 0 wX []) [(wFr 4 1 [1,1] true)] [])).plane .A with mgmt := [] }).release (wFr 4 1 [1,1] true)), .A, 3, (wFr 4 1 [1,1] true), [], (slice ((wFr 4 1 [1,1] true)).bytes 26 64), (by first | decide +kernel | rfl), (by first | rfl | decide +kernel), (by first | decide +kernel | rfl), (by first | decide +kernel | rfl), (by first | decide +kernel | rfl), (by first | decide +kernel | rfl), (by first | decide +kernel | rfl), (by first | rfl | decide +kernel), (by first | decide +kernel | rfl), (by first | decide +kernel | rfl), (by first | decide +kernel | rfl)⟩,
   ⟨wOn, 3, (by first | decide +kernel | rfl)⟩,
   ⟨(wTn 3 5 2 {wX with inband := List.replicate 20 [1]} []), 3, (by first | decide +kernel | rfl), (by first | decide +kernel | rfl), (by first | decide +kernel | rfl)⟩⟩

theorem test_wit_TenantCommandsComplete :
    (∃ (s : State) (tn : Nat) (late : Bool), tn < 64 ∧ ∃ x, x ∈ [(Instr.tenStreamDeclare tn, 2), (.tenStreamWithdraw tn, 3), (.tenCipher tn, 5), (.tenCapture tn, 6), (.tenStats tn, 7), (.tenNmReq tn, 8), (.tenAbort tn late, 9), (.tenKeepalive tn, 10), (.tenTable tn, 1), (.tenKey tn, 4)] ∧ (s.tenLive tn = false ∨ (s.ten tn).cmds.find? (TenCmd.waits x.2) = none)) ∧
    (∃ (s : State) (tn : Nat) (c : TenCmd), tn < 64 ∧ s.tenLive tn = true ∧ (s.ten tn).cmds.find? (TenCmd.waits 10) = some c) ∧
    (∃ (s : State) (tn : Nat) (k : Nat) (c : TenCmd), tn < 64 ∧ s.tenLive tn = true ∧ (s.ten tn).cmds.find? (TenCmd.waits 8) = some c ∧ k = c.opd 8 1 ∧ (16 ≤ k ∨ s.ncEnabled k = false)) ∧
    (∃ (s : State) (tn : Nat) (k : Nat) (c : TenCmd) (hold : Bool), tn < 64 ∧ s.tenLive tn = true ∧ (s.ten tn).cmds.find? (TenCmd.waits 8) = some c ∧ k = c.opd 8 1 ∧ k < 16 ∧ s.ncEnabled k = true ∧ c.opd 9 1 = bitN hold) ∧
    (∃ (s : State) (tn : Nat) (c : TenCmd), tn < 64 ∧ s.tenLive tn = true ∧ (s.ten tn).cmds.find? (TenCmd.waits 7) = some c ∧ ∃ words, words = (List.range (s.tenHv tn).2).flatMap (fun i => (List.range 8).map (fun j => 0x1820000 + 0x20 * ((s.tenHv tn).1 + i) + 4 * j))) ∧
    (∃ (s : State) (tn : Nat) (c : TenCmd), tn < 64 ∧ s.tenLive tn = true ∧ (s.ten tn).cmds.find? (TenCmd.waits 6) = some c ∧ (s.ten tn).capRules[c.opd 8 1]? = none) ∧
    (∃ (s : State) (tn : Nat) (rule : Nat) (c : TenCmd), tn < 64 ∧ s.tenLive tn = true ∧ (s.ten tn).cmds.find? (TenCmd.waits 6) = some c ∧ (s.ten tn).capRules[c.opd 8 1]? = some rule ∧ rule < 16 ∧ bitOf (c.opd 16 4) 28 = false ∧ s.tenPort tn (bits (c.opd 16 4) 16 8) = true ∧ 4096 ≤ c.opd 32 4 ∧ c.opd 32 4 ≤ 16777216 ∧ c.opd 32 4 % 16 = 0 ∧ c.opd 36 1 ≤ 1) ∧
    (∃ (s : State) (tn : Nat) (c : TenCmd), tn < 64 ∧ s.tenLive tn = true ∧ (s.ten tn).cmds.find? (TenCmd.waits 9) = some c ∧ (s.ten tn).target (c.opd 8 2) = none) ∧
    (∃ (s : State) (tn : Nat) (c : TenCmd) (d : TenCmd), tn < 64 ∧ s.tenLive tn = true ∧ (s.ten tn).cmds.find? (TenCmd.waits 9) = some c ∧ (s.ten tn).target (c.opd 8 2) = some d ∧ d.done = true) ∧
    (∃ (s : State) (tn : Nat) (c : TenCmd) (d : TenCmd) (late : Bool), tn < 64 ∧ s.tenLive tn = true ∧ (s.ten tn).cmds.find? (TenCmd.waits 9) = some c ∧ (s.ten tn).target (c.opd 8 2) = some d ∧ d.done = false ∧ late = true ∧ s.abortBeaten tn d = true) ∧
    (∃ (s : State) (tn : Nat) (c : TenCmd) (d : TenCmd) (late : Bool), tn < 64 ∧ s.tenLive tn = true ∧ (s.ten tn).cmds.find? (TenCmd.waits 9) = some c ∧ (s.ten tn).target (c.opd 8 2) = some d ∧ d.st = .inCarillon ∧ (late = false ∨ s.abortBeaten tn d = false)) ∧
    (∃ (s : State) (tn : Nat) (c : TenCmd) (d : TenCmd) (late : Bool), tn < 64 ∧ s.tenLive tn = true ∧ (s.ten tn).cmds.find? (TenCmd.waits 9) = some c ∧ (s.ten tn).target (c.opd 8 2) = some d ∧ d.st = .fetched ∧ (late = false ∨ s.abortBeaten tn d = false)) ∧
    (∃ (s : State) (tn : Nat) (c : TenCmd), tn < 64 ∧ ∃ x, x ∈ [(Instr.tenStreamDeclare tn, 2, JobItem.declare tn (slice c.entry 8 48)), (.tenStreamWithdraw tn, 3, JobItem.withdraw (c.opd 8 2))] ∧ s.tenLive tn = true ∧ (s.ten tn).cmds.find? (TenCmd.waits x.2.1) = some c ∧ s.carFull = true) ∧
    (∃ (s : State) (tn : Nat) (c : TenCmd), tn < 64 ∧ ∃ x, x ∈ [(Instr.tenStreamDeclare tn, 2, JobItem.declare tn (slice c.entry 8 48)), (.tenStreamWithdraw tn, 3, JobItem.withdraw (c.opd 8 2))] ∧ s.tenLive tn = true ∧ (s.ten tn).cmds.find? (TenCmd.waits x.2.1) = some c ∧ s.carFull = false) ∧
    (∃ (s : State) (tn : Nat) (c : TenCmd), tn < 64 ∧ s.tenLive tn = true ∧ (s.ten tn).cmds.find? (TenCmd.waits 5) = some c ∧ (s.fld (TNW_REQ3_CPH tn) ≤ s.tenCphHeld tn ∨ s.cphFull = true)) ∧
    (∃ (s : State) (tn : Nat) (c : TenCmd), tn < 64 ∧ s.tenLive tn = true ∧ (s.ten tn).cmds.find? (TenCmd.waits 5) = some c ∧ s.tenCphHeld tn < s.fld (TNW_REQ3_CPH tn) ∧ s.cphFull = false ∧ s.flag CPH_ALARM_REFUSING = false ∧ (∀ o ∈ s.cph.ops, o.held = true)) :=
  ⟨⟨(wTn 1 5 2 {wX with capRules := [9], nm := [3], cmds := [(wCm [10,0,4,0,0,0,0,0] .fetched)]} []), 3, true, (by first | decide +kernel | rfl), (by decide +kernel)⟩,
   ⟨(wTn 1 5 2 {wX with capRules := [9], nm := [3], cmds := [(wCm [10,0,4,0,0,0,0,0] .fetched)]} []), 3, (wCm [10,0,4,0,0,0,0,0] .fetched), (by first | decide +kernel | rfl), (by first | decide +kernel | rfl), (by first | decide +kernel | rfl)⟩,
   ⟨(wTn 1 5 2 {wX with capRules := [9], nm := [3], cmds := [(wCm [8,0,4,0,0,0,0,0,4,1] .fetched)]} []), 3, 4, (wCm [8,0,4,0,0,0,0,0,4,1] .fetched), (by first | decide +kernel | rfl), (by first | decide +kernel | rfl), (by first | decide +kernel | rfl), (by first | rfl | decide +kernel), (by first | decide +kernel | rfl)⟩,
   ⟨(wTn 1 5 2 {wX with capRules := [9], nm := [3], cmds := [(wCm [8,0,4,0,0,0,0,0,3,1] .fetched)]} []), 3, 3, (wCm [8,0,4,0,0,0,0,0,3,1] .fetched), true, (by first | decide +kernel | rfl), (by first | decide +kernel | rfl), (by first | decide +kernel | rfl), (by first | rfl | decide +kernel), (by first | decide +kernel | rfl), (by first | decide +kernel | rfl), (by first | decide +kernel | rfl)⟩,
   ⟨(wTn 1 5 2 {wX with capRules := [9], nm := [3], cmds := [(wCm [7,0,4,0,0,0,0,0,0,9,0,0,0,0,0,0,0] .fetched)]} []), 3, (wCm [7,0,4,0,0,0,0,0,0,9,0,0,0,0,0,0,0] .fetched), (by first | decide +kernel | rfl), (by first | decide +kernel | rfl), (by first | decide +kernel | rfl), ((List.range (((wTn 1 5 2 {wX with capRules := [9], nm := [3], cmds := [(wCm [7,0,4,0,0,0,0,0,0,9,0,0,0,0,0,0,0] .fetched)]} []) : State).tenHv (3 : Nat)).2).flatMap (fun i => (List.range 8).map (fun j => 0x1820000 + 0x20 * ((((wTn 1 5 2 {wX with capRules := [9], nm := [3], cmds := [(wCm [7,0,4,0,0,0,0,0,0,9,0,0,0,0,0,0,0] .fetched)]} []) : State).tenHv (3 : Nat)).1 + i) + 4 * j))), rfl⟩,
   ⟨(wTn 1 5 2 {wX with capRules := [9], nm := [3], cmds := [(wCm [6,0,4,0,0,0,0,0,7,0,0,0,0,0,0,0,0,0,90,0,5,0,0,0,0,80,0,0,0,0,0,0,0,16,0,0,1] .fetched)]} []), 3, (wCm [6,0,4,0,0,0,0,0,7,0,0,0,0,0,0,0,0,0,90,0,5,0,0,0,0,80,0,0,0,0,0,0,0,16,0,0,1] .fetched), (by first | decide +kernel | rfl), (by first | decide +kernel | rfl), (by first | decide +kernel | rfl), (by first | decide +kernel | rfl)⟩,
   ⟨(wTn 1 5 2 {wX with capRules := [9], nm := [3], cmds := [(wCm [6,0,4,0,0,0,0,0,0,0,0,0,0,0,0,0,1,0,90,128,5,0,0,0,0,80,0,0,0,0,0,0,0,16,0,0,1] .fetched)]} []), 3, 9, (wCm [6,0,4,0,0,0,0,0,0,0,0,0,0,0,0,0,1,0,90,128,5,0,0,0,0,80,0,0,0,0,0,0,0,16,0,0,1] .fetched), (by first | decide +kernel | rfl), (by first | decide +kernel | rfl), (by first | decide +kernel | rfl), (by first | decide +kernel | rfl), (by first | decide +kernel | rfl), (by first | decide +kernel | rfl), (by first | decide +kernel | rfl), (by first | decide +kernel | rfl), (by first | decide +kernel | rfl), (by first | decide +kernel | rfl), (by first | decide +kernel | rfl)⟩,
   ⟨(wTn 1 5 2 {wX with capRules := [9], nm := [3], cmds := [(wCm [9,0,4,0,0,0,0,0,5,0] .fetched)]} []), 3, (wCm [9,0,4,0,0,0,0,0,5,0] .fetched), (by first | decide +kernel | rfl), (by first | decide +kernel | rfl), (by first | decide +kernel | rfl), (by first | decide +kernel | rfl)⟩,
   ⟨(wTn 1 5 2 {wX with capRules := [9], nm := [3], cmds := [(wCm [9,0,4,0,0,0,0,0,5,0] .fetched), (⟨[1],5,.ended 0 []⟩ : TenCmd)]} []), 3, (wCm [9,0,4,0,0,0,0,0,5,0] .fetched), (⟨[1],5,.ended 0 []⟩ : TenCmd), (by first | decide +kernel | rfl), (by first | decide +kernel | rfl), (by first | decide +kernel | rfl), (by first | decide +kernel | rfl), (by first | decide +kernel | rfl)⟩,
   ⟨({ (wTn 1 5 2 {wX with capRules := [9], nm := [3], cmds := [(wCm [9,0,4,0,0,0,0,0,5,0] .fetched), (⟨[1],5,.fetched⟩ : TenCmd)]} []) with car := {Car.reset with waiting := some ⟨⟨.tenant 3 5,[],false,none,false⟩,{Car.reset.sched with peal := 1000},[],[],0⟩} } : State), 3, (wCm [9,0,4,0,0,0,0,0,5,0] .fetched), (⟨[1],5,.fetched⟩ : TenCmd), true, (by first | decide +kernel | rfl), (by first | decide +kernel | rfl), (by first | decide +kernel | rfl), (by first | decide +kernel | rfl), (by first | decide +kernel | rfl), (by first | rfl | decide +kernel), (by first | decide +kernel | rfl)⟩,
   ⟨(wTn 1 5 2 {wX with capRules := [9], nm := [3], cmds := [(wCm [9,0,4,0,0,0,0,0,5,0] .fetched), (⟨[1],5,.inCarillon⟩ : TenCmd)]} []), 3, (wCm [9,0,4,0,0,0,0,0,5,0] .fetched), (⟨[1],5,.inCarillon⟩ : TenCmd), true, (by first | decide +kernel | rfl), (by first | decide +kernel | rfl), (by first | decide +kernel | rfl), (by first | decide +kernel | rfl), (by first | decide +kernel | rfl), (by first | decide +kernel | rfl)⟩,
   ⟨(wTn 1 5 2 {wX with capRules := [9], nm := [3], cmds := [(wCm [9,0,4,0,0,0,0,0,5,0] .fetched), (⟨[1],5,.fetched⟩ : TenCmd)]} []), 3, (wCm [9,0,4,0,0,0,0,0,5,0] .fetched), (⟨[1],5,.fetched⟩ : TenCmd), true, (by first | decide +kernel | rfl), (by first | decide +kernel | rfl), (by first | decide +kernel | rfl), (by first | decide +kernel | rfl), (by first | decide +kernel | rfl), (by first | decide +kernel | rfl)⟩,
   ⟨({ (wTn 1 5 2 {wX with capRules := [9], nm := [3], cmds := [(wCm [3,0,4,0,0,0,0,0,5,0] .fetched)]} [(TNW_REQ3_CPH 3,2)]) with car := {Car.reset with queue := List.replicate 16 ⟨.firmware,[],false,none,false⟩} } : State), 3, (wCm [3,0,4,0,0,0,0,0,5,0] .fetched), (by first | decide +kernel | rfl), (by decide +kernel)⟩,
   ⟨(wTn 1 5 2 {wX with capRules := [9], nm := [3], cmds := [(wCm [3,0,4,0,0,0,0,0,5,0] .fetched)]} []), 3, (wCm [3,0,4,0,0,0,0,0,5,0] .fetched), (by first | decide +kernel | rfl), (by decide +kernel)⟩,
   ⟨(wTn 1 5 2 {wX with capRules := [9], nm := [3], cmds := [(wCm [5,0,4,0,0,0,0,0,1,1,1,1,1,1,1,1,1,1,1,1,1,1,1,1,1,1,1,1,1,1,1,1,1,1,1,1,1,1,1,1] .fetched)]} []), 3, (wCm [5,0,4,0,0,0,0,0,1,1,1,1,1,1,1,1,1,1,1,1,1,1,1,1,1,1,1,1,1,1,1,1,1,1,1,1,1,1,1,1] .fetched), (by first | decide +kernel | rfl), (by first | decide +kernel | rfl), (by first | decide +kernel | rfl), (by first | decide +kernel | rfl)⟩,
   ⟨(wTn 1 5 2 {wX with capRules := [9], nm := [3], cmds := [(wCm [5,0,4,0,0,0,0,0,1,1,1,1,1,1,1,1,1,1,1,1,1,1,1,1,1,1,1,1,1,1,1,1,1,1,1,1,1,1,1,1] .fetched)]} [(TNW_REQ3_CPH 3,2)]), 3, (wCm [5,0,4,0,0,0,0,0,1,1,1,1,1,1,1,1,1,1,1,1,1,1,1,1,1,1,1,1,1,1,1,1,1,1,1,1,1,1,1,1] .fetched), (by first | decide +kernel | rfl), (by first | decide +kernel | rfl), (by first | decide +kernel | rfl), (by first | decide +kernel | rfl), (by first | decide +kernel | rfl), (by first | decide +kernel | rfl), (by first | decide +kernel | rfl)⟩⟩

theorem test_wit_TenantTableAndKeys :
    (∃ (s : State) (tn : Nat), tn < 64 ∧ s.tenLive tn = true ∧ s.flag (TBL_CMD_BUSY .A) = true) ∧
    (∃ (s : State) (tn : Nat) (op : Nat) (tag : Nat) (c : TenCmd), tn < 64 ∧ s.tenLive tn = true ∧ s.flag (TBL_CMD_BUSY .A) = false ∧ (s.ten tn).cmds.find? (TenCmd.waits 1) = some c ∧ op = c.opd 8 1 ∧ tag = c.opd 16 1 ∧ (s.tenTags tn).contains tag = false) ∧
    (∃ (s : State) (tn : Nat) (op : Nat) (tag : Nat) (ri : Nat) (reg : Region) (c : TenCmd), tn < 64 ∧ s.tenLive tn = true ∧ s.flag (TBL_CMD_BUSY .A) = false ∧ (s.ten tn).cmds.find? (TenCmd.waits 1) = some c ∧ op = c.opd 8 1 ∧ tag = c.opd 16 1 ∧ (s.tenTags tn).contains tag = true ∧ (s.plane s.engine).regionOfTag tag = some ri ∧ (s.plane s.engine).region ri = some reg ∧ reg.wide = true ∧ op = 4 ∧ ∃ b i x, s.tblWouldTake s.engine reg (beNat (slice c.entry 16 40)) = some (b, i, x)) ∧
    (∃ (s : State) (tn : Nat) (op : Nat) (tag : Nat) (ri : Nat) (reg : Region) (c : TenCmd), tn < 64 ∧ s.tenLive tn = true ∧ s.flag (TBL_CMD_BUSY .A) = false ∧ (s.ten tn).cmds.find? (TenCmd.waits 1) = some c ∧ op = c.opd 8 1 ∧ tag = c.opd 16 1 ∧ (s.tenTags tn).contains tag = true ∧ (s.plane s.engine).regionOfTag tag = some ri ∧ (s.plane s.engine).region ri = some reg ∧ reg.wide = true ∧ op = 4 ∧ s.tblWouldTake s.engine reg (beNat (slice c.entry 16 40)) = none) ∧
    (∃ (s : State) (tn : Nat) (op : Nat) (tag : Nat) (ri : Nat) (reg : Region) (c : TenCmd), tn < 64 ∧ s.tenLive tn = true ∧ s.flag (TBL_CMD_BUSY .A) = false ∧ (s.ten tn).cmds.find? (TenCmd.waits 1) = some c ∧ op = c.opd 8 1 ∧ tag = c.opd 16 1 ∧ (s.tenTags tn).contains tag = true ∧ (s.plane s.engine).regionOfTag tag = some ri ∧ (s.plane s.engine).region ri = some reg ∧ reg.wide = true ∧ op = 3 ∧ s.anyWriter = true ∧ ∃ s1 code, s.tblDeleteKey ri reg (beNat (slice c.entry 16 40)) = (s1, code)) ∧
    (∃ (s : State) (tn : Nat) (op : Nat) (tag : Nat) (ri : Nat) (reg : Region) (c : TenCmd), tn < 64 ∧ s.tenLive tn = true ∧ s.flag (TBL_CMD_BUSY .A) = false ∧ (s.ten tn).cmds.find? (TenCmd.waits 1) = some c ∧ op = c.opd 8 1 ∧ tag = c.opd 16 1 ∧ (s.tenTags tn).contains tag = true ∧ (s.plane s.engine).regionOfTag tag = some ri ∧ (s.plane s.engine).region ri = some reg ∧ reg.wide = true ∧ op = 2 ∧ s.anyWriter = true ∧ s.tenResultOk tn (c.opd 56 8) = true ∧ ∃ s1 code, s.tblReplaceKey ri reg (beNat (slice c.entry 16 40)) (c.opd 56 8) (bitOf (c.opd 9 1) 0) = (s1, code)) ∧
    (∃ (s : State) (tn : Nat) (op : Nat) (tag : Nat) (ri : Nat) (reg : Region) (c : TenCmd), tn < 64 ∧ s.tenLive tn = true ∧ s.flag (TBL_CMD_BUSY .A) = false ∧ (s.ten tn).cmds.find? (TenCmd.waits 1) = some c ∧ op = c.opd 8 1 ∧ tag = c.opd 16 1 ∧ (s.tenTags tn).contains tag = true ∧ (s.plane s.engine).regionOfTag tag = some ri ∧ (s.plane s.engine).region ri = some reg ∧ reg.wide = true ∧ op = 1 ∧ s.anyWriter = true ∧ s.tenResultOk tn (c.opd 56 8) = true ∧ ∃ s1 code x, s.tblInsertKey ri reg (beNat (slice c.entry 16 40)) (c.opd 56 8) (bitOf (c.opd 9 1) 0) = (s1, code, x) ∧ (s1.emOwned tn ≤ s.tenLimEM tn ∨ s1.emOwned tn ≤ s.emOwned tn)) ∧
    (∃ (s : State) (tn : Nat) (op : Nat) (tag : Nat) (ri : Nat) (reg : Region) (c : TenCmd), tn < 64 ∧ s.tenLive tn = true ∧ s.flag (TBL_CMD_BUSY .A) = false ∧ (s.ten tn).cmds.find? (TenCmd.waits 1) = some c ∧ op = c.opd 8 1 ∧ tag = c.opd 16 1 ∧ (s.tenTags tn).contains tag = true ∧ (s.plane s.engine).regionOfTag tag = some ri ∧ (s.plane s.engine).region ri = some reg ∧ reg.wide = true ∧ op = 1 ∧ s.anyWriter = true ∧ s.tenResultOk tn (c.opd 56 8) = true ∧ ∃ s1 code x, s.tblInsertKey ri reg (beNat (slice c.entry 16 40)) (c.opd 56 8) (bitOf (c.opd 9 1) 0) = (s1, code, x) ∧ s.tenLimEM tn < s1.emOwned tn ∧ s.emOwned tn < s1.emOwned tn ∧ (code = tsOK ∨ code = tsREPLACED)) ∧
    (∃ (s : State) (tn : Nat), tn < 64 ∧ s.tenLive tn = true ∧ s.flag BLF_CMD_BUSY = true) ∧
    (∃ (s : State) (tn : Nat) (n : Nat) (alg : Nat) (usage : Nat) (c : TenCmd), tn < 64 ∧ s.tenLive tn = true ∧ s.flag BLF_CMD_BUSY = false ∧ (s.ten tn).cmds.find? (TenCmd.waits 4) = some c ∧ c.opd 8 1 = 1 ∧ c.opd 9 1 % 2 = 0 ∧ n = c.opd 10 2 ∧ 16 ≤ n ∧ n < 1024 ∧ alg = c.opd 14 1 ∧ usage = c.opd 15 1 ∧ (s.slot n).cur.isSome = true ∧ (s.slot n).owner ≠ tn) ∧
    (∃ (s : State) (tn : Nat) (n : Nat) (alg : Nat) (usage : Nat) (c : TenCmd), tn < 64 ∧ s.tenLive tn = true ∧ s.flag BLF_CMD_BUSY = false ∧ (s.ten tn).cmds.find? (TenCmd.waits 4) = some c ∧ c.opd 8 1 = 1 ∧ c.opd 9 1 % 2 = 0 ∧ n = c.opd 10 2 ∧ 16 ≤ n ∧ n < 1024 ∧ alg = c.opd 14 1 ∧ usage = c.opd 15 1 ∧ (s.slot n).cur = none ∧ s.fld (TNW_REQ2_KEY tn) < s.tenKeys tn + 1) ∧
    (∃ (s : State) (tn : Nat) (n : Nat) (alg : Nat) (usage : Nat) (c : TenCmd), tn < 64 ∧ s.tenLive tn = true ∧ s.flag BLF_CMD_BUSY = false ∧ (s.ten tn).cmds.find? (TenCmd.waits 4) = some c ∧ c.opd 8 1 = 1 ∧ c.opd 9 1 % 2 = 0 ∧ n = c.opd 10 2 ∧ 16 ≤ n ∧ n < 1024 ∧ alg = c.opd 14 1 ∧ usage = c.opd 15 1 ∧ (s.slot n).cur = none ∧ s.tenKeys tn + 1 ≤ s.fld (TNW_REQ2_KEY tn) ∧ (isAes alg = true ∨ isPriv alg = true) ∧ bitOf usage 7 = false) :=
  ⟨⟨(wTn 1 5 2 wX [(TBL_CMD_BUSY .A,1),(BLF_CMD_BUSY,1)]), 3, (by first | decide +kernel | rfl), (by first | decide +kernel | rfl), (by first | decide +kernel | rfl)⟩,
   ⟨(wTn 1 5 2 {wX with cmds := [(wCm [1,0,4,0,0,0,0,0,1,0,0,0,0,0,0,0,18,0,0,0,0,0,0,0,0,0,0,0,0,0,0,0,0,0,0,0,0,0,0,0,0,0,0,0,0,0,0,0,0,0,0,0,0,0,0,7,0,0,0,0,0,0,0,32] .fetched)]} [(TNW_REQ1_EM 3,0)]), 3, 1, 18, (wCm [1,0,4,0,0,0,0,0,1,0,0,0,0,0,0,0,18,0,0,0,0,0,0,0,0,0,0,0,0,0,0,0,0,0,0,0,0,0,0,0,0,0,0,0,0,0,0,0,0,0,0,0,0,0,0,7,0,0,0,0,0,0,0,32] .fetched), (by first | decide +kernel | rfl), (by first | decide +kernel | rfl), (by first | decide +kernel | rfl), (by first | decide +kernel | rfl), (by first | rfl | decide +kernel), (by first | rfl | decide +kernel), (by first | decide +kernel | rfl)⟩,
   ⟨({ (wPut (wDo (wTn 1 5 2 {wX with cmds := [(wCm [1,0,4,0,0,0,0,0,1,0,0,0,0,0,0,0,17,0,0,0,0,0,0,0,0,0,0,0,0,0,0,0,0,0,0,0,0,0,0,0,0,0,0,0,0,0,0,0,0,0,0,0,0,0,0,7,0,0,0,0,0,0,0,32] .fetched)]} [(TNW_REQ1_EM 3,5)]) (.tenTable 3)) [(TNW_REQ1_EM 3,0)]) with tenants := [(3, {wX with cmds := [(wCm [1,0,4,0,0,0,0,0,4,0,0,0,0,0,0,0,17,0,0,0,0,0,0,0,0,0,0,0,0,0,0,0,0,0,0,0,0,0,0,0,0,0,0,0,0,0,0,0,0,0,0,0,0,0,0,7,0,0,0,0,0,0,0,32] .fetched)]})] } : State), 3, 4, 17, 0, wRg, (wCm [1,0,4,0,0,0,0,0,4,0,0,0,0,0,0,0,17,0,0,0,0,0,0,0,0,0,0,0,0,0,0,0,0,0,0,0,0,0,0,0,0,0,0,0,0,0,0,0,0,0,0,0,0,0,0,7,0,0,0,0,0,0,0,32] .fetched), (by first | decide +kernel | rfl), (by first | decide +kernel | rfl), (by first | decide +kernel | rfl), (by first | decide +kernel | rfl), (by first | rfl | decide +kernel), (by first | rfl | decide +kernel), (by first | decide +kernel | rfl), (by first | decide +kernel | rfl), (by first | decide +kernel | rfl), (by first | decide +kernel | rfl), (by first | rfl | decide +kernel), ((Option.get ((({ (wPut (wDo (wTn 1 5 2 {wX with cmds := [(wCm [1,0,4,0,0,0,0,0,1,0,0,0,0,0,0,0,17,0,0,0,0,0,0,0,0,0,0,0,0,0,0,0,0,0,0,0,0,0,0,0,0,0,0,0,0,0,0,0,0,0,0,0,0,0,0,7,0,0,0,0,0,0,0,32] .fetched)]} [(TNW_REQ1_EM 3,5)]) (.tenTable 3)) [(TNW_REQ1_EM 3,0)]) with tenants := [(3, {wX with cmds := [(wCm [1,0,4,0,0,0,0,0,4,0,0,0,0,0,0,0,17,0,0,0,0,0,0,0,0,0,0,0,0,0,0,0,0,0,0,0,0,0,0,0,0,0,0,0,0,0,0,0,0,0,0,0,0,0,0,7,0,0,0,0,0,0,0,32] .fetched)]})] } : State) : State).tblWouldTake (({ (wPut (wDo (wTn 1 5 2 {wX with cmds := [(wCm [1,0,4,0,0,0,0,0,1,0,0,0,0,0,0,0,17,0,0,0,0,0,0,0,0,0,0,0,0,0,0,0,0,0,0,0,0,0,0,0,0,0,0,0,0,0,0,0,0,0,0,0,0,0,0,7,0,0,0,0,0,0,0,32] .fetched)]} [(TNW_REQ1_EM 3,5)]) (.tenTable 3)) [(TNW_REQ1_EM 3,0)]) with tenants := [(3, {wX with cmds := [(wCm [1,0,4,0,0,0,0,0,4,0,0,0,0,0,0,0,17,0,0,0,0,0,0,0,0,0,0,0,0,0,0,0,0,0,0,0,0,0,0,0,0,0,0,0,0,0,0,0,0,0,0,0,0,0,0,7,0,0,0,0,0,0,0,32] .fetched)]})] } : State) : State).engine (wRg : Region) (beNat (slice ((wCm [1,0,4,0,0,0,0,0,4,0,0,0,0,0,0,0,17,0,0,0,0,0,0,0,0,0,0,0,0,0,0,0,0,0,0,0,0,0,0,0,0,0,0,0,0,0,0,0,0,0,0,0,0,0,0,7,0,0,0,0,0,0,0,32] .fetched) : TenCmd).entry 16 40))) (by decide +kernel))).1, ((Option.get ((({ (wPut (wDo (wTn 1 5 2 {wX with cmds := [(wCm [1,0,4,0,0,0,0,0,1,0,0,0,0,0,0,0,17,0,0,0,0,0,0,0,0,0,0,0,0,0,0,0,0,0,0,0,0,0,0,0,0,0,0,0,0,0,0,0,0,0,0,0,0,0,0,7,0,0,0,0,0,0,0,32] .fetched)]} [(TNW_REQ1_EM 3,5)]) (.tenTable 3)) [(TNW_REQ1_EM 3,0)]) with tenants := [(3, {wX with cmds := [(wCm [1,0,4,0,0,0,0,0,4,0,0,0,0,0,0,0,17,0,0,0,0,0,0,0,0,0,0,0,0,0,0,0,0,0,0,0,0,0,0,0,0,0,0,0,0,0,0,0,0,0,0,0,0,0,0,7,0,0,0,0,0,0,0,32] .fetched)]})] } : State) : State).tblWouldTake (({ (wPut (wDo (wTn 1 5 2 {wX with cmds := [(wCm [1,0,4,0,0,0,0,0,1,0,0,0,0,0,0,0,17,0,0,0,0,0,0,0,0,0,0,0,0,0,0,0,0,0,0,0,0,0,0,0,0,0,0,0,0,0,0,0,0,0,0,0,0,0,0,7,0,0,0,0,0,0,0,32] .fetched)]} [(TNW_REQ1_EM 3,5)]) (.tenTable 3)) [(TNW_REQ1_EM 3,0)]) with tenants := [(3, {wX with cmds := [(wCm [1,0,4,0,0,0,0,0,4,0,0,0,0,0,0,0,17,0,0,0,0,0,0,0,0,0,0,0,0,0,0,0,0,0,0,0,0,0,0,0,0,0,0,0,0,0,0,0,0,0,0,0,0,0,0,7,0,0,0,0,0,0,0,32] .fetched)]})] } : State) : State).engine (wRg : Region) (beNat (slice ((wCm [1,0,4,0,0,0,0,0,4,0,0,0,0,0,0,0,17,0,0,0,0,0,0,0,0,0,0,0,0,0,0,0,0,0,0,0,0,0,0,0,0,0,0,0,0,0,0,0,0,0,0,0,0,0,0,7,0,0,0,0,0,0,0,32] .fetched) : TenCmd).entry 16 40))) (by decide +kernel))).2.1, ((Option.get ((({ (wPut (wDo (wTn 1 5 2 {wX with cmds := [(wCm [1,0,4,0,0,0,0,0,1,0,0,0,0,0,0,0,17,0,0,0,0,0,0,0,0,0,0,0,0,0,0,0,0,0,0,0,0,0,0,0,0,0,0,0,0,0,0,0,0,0,0,0,0,0,0,7,0,0,0,0,0,0,0,32] .fetched)]} [(TNW_REQ1_EM 3,5)]) (.tenTable 3)) [(TNW_REQ1_EM 3,0)]) with tenants := [(3, {wX with cmds := [(wCm [1,0,4,0,0,0,0,0,4,0,0,0,0,0,0,0,17,0,0,0,0,0,0,0,0,0,0,0,0,0,0,0,0,0,0,0,0,0,0,0,0,0,0,0,0,0,0,0,0,0,0,0,0,0,0,7,0,0,0,0,0,0,0,32] .fetched)]})] } : State) : State).tblWouldTake (({ (wPut (wDo (wTn 1 5 2 {wX with cmds := [(wCm [1,0,4,0,0,0,0,0,1,0,0,0,0,0,0,0,17,0,0,0,0,0,0,0,0,0,0,0,0,0,0,0,0,0,0,0,0,0,0,0,0,0,0,0,0,0,0,0,0,0,0,0,0,0,0,7,0,0,0,0,0,0,0,32] .fetched)]} [(TNW_REQ1_EM 3,5)]) (.tenTable 3)) [(TNW_REQ1_EM 3,0)]) with tenants := [(3, {wX with cmds := [(wCm [1,0,4,0,0,0,0,0,4,0,0,0,0,0,0,0,17,0,0,0,0,0,0,0,0,0,0,0,0,0,0,0,0,0,0,0,0,0,0,0,0,0,0,0,0,0,0,0,0,0,0,0,0,0,0,7,0,0,0,0,0,0,0,32] .fetched)]})] } : State) : State).engine (wRg : Region) (beNat (slice ((wCm [1,0,4,0,0,0,0,0,4,0,0,0,0,0,0,0,17,0,0,0,0,0,0,0,0,0,0,0,0,0,0,0,0,0,0,0,0,0,0,0,0,0,0,0,0,0,0,0,0,0,0,0,0,0,0,7,0,0,0,0,0,0,0,32] .fetched) : TenCmd).entry 16 40))) (by decide +kernel))).2.2, (someOf (by decide +kernel))⟩,
   ⟨(wTn 1 5 2 {wX with cmds := [(wCm [1,0,4,0,0,0,0,0,4,0,0,0,0,0,0,0,17,0,0,0,0,0,0,0,0,0,0,0,0,0,0,0,0,0,0,0,0,0,0,0,0,0,0,0,0,0,0,0,0,0,0,0,0,0,0,7,0,0,0,0,0,0,0,32] .fetched)]} [(TNW_REQ1_EM 3,0)]), 3, 4, 17, 0, wRg, (wCm [1,0,4,0,0,0,0,0,4,0,0,0,0,0,0,0,17,0,0,0,0,0,0,0,0,0,0,0,0,0,0,0,0,0,0,0,0,0,0,0,0,0,0,0,0,0,0,0,0,0,0,0,0,0,0,7,0,0,0,0,0,0,0,32] .fetched), (by first | decide +kernel | rfl), (by first | decide +kernel | rfl), (by first | decide +kernel | rfl), (by first | decide +kernel | rfl), (by first | rfl | decide +kernel), (by first | rfl | decide +kernel), (by first | decide +kernel | rfl), (by first | decide +kernel | rfl), (by first | decide +kernel | rfl), (by first | decide +kernel | rfl), (by first | rfl | decide +kernel), (by first | decide +kernel | rfl)⟩,
   ⟨(wTn 1 5 2 {wX with cmds := [(wCm [1,0,4,0,0,0,0,0,3,0,0,0,0,0,0,0,17,0,0,0,0,0,0,0,0,0,0,0,0,0,0,0,0,0,0,0,0,0,0,0,0,0,0,0,0,0,0,0,0,0,0,0,0,0,0,7,0,0,0,0,0,0,0,32] .fetched)]} [(TNW_REQ1_EM 3,0)]), 3, 3, 17, 0, wRg, (wCm [1,0,4,0,0,0,0,0,3,0,0,0,0,0,0,0,17,0,0,0,0,0,0,0,0,0,0,0,0,0,0,0,0,0,0,0,0,0,0,0,0,0,0,0,0,0,0,0,0,0,0,0,0,0,0,7,0,0,0,0,0,0,0,32] .fetched), (by first | decide +kernel | rfl), (by first | decide +kernel | rfl), (by first | decide +kernel | rfl), (by first | decide +kernel | rfl), (by first | rfl | decide +kernel), (by first | rfl | decide +kernel), (by first | decide +kernel | rfl), (by first | decide +kernel | rfl), (by first | decide +kernel | rfl), (by first | decide +kernel | rfl), (by first | rfl | decide +kernel), (by first | decide +kernel | rfl), (((wTn 1 5 2 {wX with cmds := [(wCm [1,0,4,0,0,0,0,0,3,0,0,0,0,0,0,0,17,0,0,0,0,0,0,0,0,0,0,0,0,0,0,0,0,0,0,0,0,0,0,0,0,0,0,0,0,0,0,0,0,0,0,0,0,0,0,7,0,0,0,0,0,0,0,32] .fetched)]} [(TNW_REQ1_EM 3,0)]) : State).tblDeleteKey (0 : Nat) (wRg : Region) (beNat (slice ((wCm [1,0,4,0,0,0,0,0,3,0,0,0,0,0,0,0,17,0,0,0,0,0,0,0,0,0,0,0,0,0,0,0,0,0,0,0,0,0,0,0,0,0,0,0,0,0,0,0,0,0,0,0,0,0,0,7,0,0,0,0,0,0,0,32] .fetched) : TenCmd).entry 16 40))).1, (((wTn 1 5 2 {wX with cmds := [(wCm [1,0,4,0,0,0,0,0,3,0,0,0,0,0,0,0,17,0,0,0,0,0,0,0,0,0,0,0,0,0,0,0,0,0,0,0,0,0,0,0,0,0,0,0,0,0,0,0,0,0,0,0,0,0,0,7,0,0,0,0,0,0,0,32] .fetched)]} [(TNW_REQ1_EM 3,0)]) : State).tblDeleteKey (0 : Nat) (wRg : Region) (beNat (slice ((wCm [1,0,4,0,0,0,0,0,3,0,0,0,0,0,0,0,17,0,0,0,0,0,0,0,0,0,0,0,0,0,0,0,0,0,0,0,0,0,0,0,0,0,0,0,0,0,0,0,0,0,0,0,0,0,0,7,0,0,0,0,0,0,0,32] .fetched) : TenCmd).entry 16 40))).2, rfl⟩,
   ⟨(wTn 1 5 2 {wX with cmds := [(wCm [1,0,4,0,0,0,0,0,2,0,0,0,0,0,0,0,17,0,0,0,0,0,0,0,0,0,0,0,0,0,0,0,0,0,0,0,0,0,0,0,0,0,0,0,0,0,0,0,0,0,0,0,0,0,0,7,0,0,0,0,0,0,0,32] .fetched)]} [(TNW_REQ1_EM 3,0)]), 3, 2, 17, 0, wRg, (wCm [1,0,4,0,0,0,0,0,2,0,0,0,0,0,0,0,17,0,0,0,0,0,0,0,0,0,0,0,0,0,0,0,0,0,0,0,0,0,0,0,0,0,0,0,0,0,0,0,0,0,0,0,0,0,0,7,0,0,0,0,0,0,0,32] .fetched), (by first | decide +kernel | rfl), (by first | decide +kernel | rfl), (by first | decide +kernel | rfl), (by first | decide +kernel | rfl), (by first | rfl | decide +kernel), (by first | rfl | decide +kernel), (by first | decide +kernel | rfl), (by first | decide +kernel | rfl), (by first | decide +kernel | rfl), (by first | decide +kernel | rfl), (by first | rfl | decide +kernel), (by first | decide +kernel | rfl), (by first | decide +kernel | rfl), (((wTn 1 5 2 {wX with cmds := [(wCm [1,0,4,0,0,0,0,0,2,0,0,0,0,0,0,0,17,0,0,0,0,0,0,0,0,0,0,0,0,0,0,0,0,0,0,0,0,0,0,0,0,0,0,0,0,0,0,0,0,0,0,0,0,0,0,7,0,0,0,0,0,0,0,32] .fetched)]} [(TNW_REQ1_EM 3,0)]) : State).tblReplaceKey (0 : Nat) (wRg : Region) (beNat (slice ((wCm [1,0,4,0,0,0,0,0,2,0,0,0,0,0,0,0,17,0,0,0,0,0,0,0,0,0,0,0,0,0,0,0,0,0,0,0,0,0,0,0,0,0,0,0,0,0,0,0,0,0,0,0,0,0,0,7,0,0,0,0,0,0,0,32] .fetched) : TenCmd).entry 16 40)) (((wCm [1,0,4,0,0,0,0,0,2,0,0,0,0,0,0,0,17,0,0,0,0,0,0,0,0,0,0,0,0,0,0,0,0,0,0,0,0,0,0,0,0,0,0,0,0,0,0,0,0,0,0,0,0,0,0,7,0,0,0,0,0,0,0,32] .fetched) : TenCmd).opd 56 8) (bitOf (((wCm [1,0,4,0,0,0,0,0,2,0,0,0,0,0,0,0,17,0,0,0,0,0,0,0,0,0,0,0,0,0,0,0,0,0,0,0,0,0,0,0,0,0,0,0,0,0,0,0,0,0,0,0,0,0,0,7,0,0,0,0,0,0,0,32] .fetched) : TenCmd).opd 9 1) 0)).1, (((wTn 1 5 2 {wX with cmds := [(wCm [1,0,4,0,0,0,0,0,2,0,0,0,0,0,0,0,17,0,0,0,0,0,0,0,0,0,0,0,0,0,0,0,0,0,0,0,0,0,0,0,0,0,0,0,0,0,0,0,0,0,0,0,0,0,0,7,0,0,0,0,0,0,0,32] .fetched)]} [(TNW_REQ1_EM 3,0)]) : State).tblReplaceKey (0 : Nat) (wRg : Region) (beNat (slice ((wCm [1,0,4,0,0,0,0,0,2,0,0,0,0,0,0,0,17,0,0,0,0,0,0,0,0,0,0,0,0,0,0,0,0,0,0,0,0,0,0,0,0,0,0,0,0,0,0,0,0,0,0,0,0,0,0,7,0,0,0,0,0,0,0,32] .fetched) : TenCmd).entry 16 40)) (((wCm [1,0,4,0,0,0,0,0,2,0,0,0,0,0,0,0,17,0,0,0,0,0,0,0,0,0,0,0,0,0,0,0,0,0,0,0,0,0,0,0,0,0,0,0,0,0,0,0,0,0,0,0,0,0,0,7,0,0,0,0,0,0,0,32] .fetched) : TenCmd).opd 56 8) (bitOf (((wCm [1,0,4,0,0,0,0,0,2,0,0,0,0,0,0,0,17,0,0,0,0,0,0,0,0,0,0,0,0,0,0,0,0,0,0,0,0,0,0,0,0,0,0,0,0,0,0,0,0,0,0,0,0,0,0,7,0,0,0,0,0,0,0,32] .fetched) : TenCmd).opd 9 1) 0)).2, rfl⟩,
   ⟨(wTn 1 5 2 {wX with cmds := [(wCm [1,0,4,0,0,0,0,0,1,0,0,0,0,0,0,0,17,0,0,0,0,0,0,0,0,0,0,0,0,0,0,0,0,0,0,0,0,0,0,0,0,0,0,0,0,0,0,0,0,0,0,0,0,0,0,7,0,0,0,0,0,0,0,32] .fetched)]} [(TNW_REQ1_EM 3,5)]), 3, 1, 17, 0, wRg, (wCm [1,0,4,0,0,0,0,0,1,0,0,0,0,0,0,0,17,0,0,0,0,0,0,0,0,0,0,0,0,0,0,0,0,0,0,0,0,0,0,0,0,0,0,0,0,0,0,0,0,0,0,0,0,0,0,7,0,0,0,0,0,0,0,32] .fetched), (by first | decide +kernel | rfl), (by first | decide +kernel | rfl), (by first | decide +kernel | rfl), (by first | decide +kernel | rfl), (by first | rfl | decide +kernel), (by first | rfl | decide +kernel), (by first | decide +kernel | rfl), (by first | decide +kernel | rfl), (by first | decide +kernel | rfl), (by first | decide +kernel | rfl), (by first | rfl | decide +kernel), (by first | decide +kernel | rfl), (by first | decide +kernel | rfl), (((wTn 1 5 2 {wX with cmds := [(wCm [1,0,4,0,0,0,0,0,1,0,0,0,0,0,0,0,17,0,0,0,0,0,0,0,0,0,0,0,0,0,0,0,0,0,0,0,0,0,0,0,0,0,0,0,0,0,0,0,0,0,0,0,0,0,0,7,0,0,0,0,0,0,0,32] .fetched)]} [(TNW_REQ1_EM 3,5)]) : State).tblInsertKey (0 : Nat) (wRg : Region) (beNat (slice ((wCm [1,0,4,0,0,0,0,0,1,0,0,0,0,0,0,0,17,0,0,0,0,0,0,0,0,0,0,0,0,0,0,0,0,0,0,0,0,0,0,0,0,0,0,0,0,0,0,0,0,0,0,0,0,0,0,7,0,0,0,0,0,0,0,32] .fetched) : TenCmd).entry 16 40)) (((wCm [1,0,4,0,0,0,0,0,1,0,0,0,0,0,0,0,17,0,0,0,0,0,0,0,0,0,0,0,0,0,0,0,0,0,0,0,0,0,0,0,0,0,0,0,0,0,0,0,0,0,0,0,0,0,0,7,0,0,0,0,0,0,0,32] .fetched) : TenCmd).opd 56 8) (bitOf (((wCm [1,0,4,0,0,0,0,0,1,0,0,0,0,0,0,0,17,0,0,0,0,0,0,0,0,0,0,0,0,0,0,0,0,0,0,0,0,0,0,0,0,0,0,0,0,0,0,0,0,0,0,0,0,0,0,7,0,0,0,0,0,0,0,32] .fetched) : TenCmd).opd 9 1) 0)).1, (((wTn 1 5 2 {wX with cmds := [(wCm [1,0,4,0,0,0,0,0,1,0,0,0,0,0,0,0,17,0,0,0,0,0,0,0,0,0,0,0,0,0,0,0,0,0,0,0,0,0,0,0,0,0,0,0,0,0,0,0,0,0,0,0,0,0,0,7,0,0,0,0,0,0,0,32] .fetched)]} [(TNW_REQ1_EM 3,5)]) : State).tblInsertKey (0 : Nat) (wRg : Region) (beNat (slice ((wCm [1,0,4,0,0,0,0,0,1,0,0,0,0,0,0,0,17,0,0,0,0,0,0,0,0,0,0,0,0,0,0,0,0,0,0,0,0,0,0,0,0,0,0,0,0,0,0,0,0,0,0,0,0,0,0,7,0,0,0,0,0,0,0,32] .fetched) : TenCmd).entry 16 40)) (((wCm [1,0,4,0,0,0,0,0,1,0,0,0,0,0,0,0,17,0,0,0,0,0,0,0,0,0,0,0,0,0,0,0,0,0,0,0,0,0,0,0,0,0,0,0,0,0,0,0,0,0,0,0,0,0,0,7,0,0,0,0,0,0,0,32] .fetched) : TenCmd).opd 56 8) (bitOf (((wCm [1,0,4,0,0,0,0,0,1,0,0,0,0,0,0,0,17,0,0,0,0,0,0,0,0,0,0,0,0,0,0,0,0,0,0,0,0,0,0,0,0,0,0,0,0,0,0,0,0,0,0,0,0,0,0,7,0,0,0,0,0,0,0,32] .fetched) : TenCmd).opd 9 1) 0)).2.1, (((wTn 1 5 2 {wX with cmds := [(wCm [1,0,4,0,0,0,0,0,1,0,0,0,0,0,0,0,17,0,0,0,0,0,0,0,0,0,0,0,0,0,0,0,0,0,0,0,0,0,0,0,0,0,0,0,0,0,0,0,0,0,0,0,0,0,0,7,0,0,0,0,0,0,0,32] .fetched)]} [(TNW_REQ1_EM 3,5)]) : State).tblInsertKey (0 : Nat) (wRg : Region) (beNat (slice ((wCm [1,0,4,0,0,0,0,0,1,0,0,0,0,0,0,0,17,0,0,0,0,0,0,0,0,0,0,0,0,0,0,0,0,0,0,0,0,0,0,0,0,0,0,0,0,0,0,0,0,0,0,0,0,0,0,7,0,0,0,0,0,0,0,32] .fetched) : TenCmd).entry 16 40)) (((wCm [1,0,4,0,0,0,0,0,1,0,0,0,0,0,0,0,17,0,0,0,0,0,0,0,0,0,0,0,0,0,0,0,0,0,0,0,0,0,0,0,0,0,0,0,0,0,0,0,0,0,0,0,0,0,0,7,0,0,0,0,0,0,0,32] .fetched) : TenCmd).opd 56 8) (bitOf (((wCm [1,0,4,0,0,0,0,0,1,0,0,0,0,0,0,0,17,0,0,0,0,0,0,0,0,0,0,0,0,0,0,0,0,0,0,0,0,0,0,0,0,0,0,0,0,0,0,0,0,0,0,0,0,0,0,7,0,0,0,0,0,0,0,32] .fetched) : TenCmd).opd 9 1) 0)).2.2, rfl, (by first | decide +kernel | rfl)⟩,
   ⟨(wTn 1 5 2 {wX with cmds := [(wCm [1,0,4,0,0,0,0,0,1,0,0,0,0,0,0,0,17,0,0,0,0,0,0,0,0,0,0,0,0,0,0,0,0,0,0,0,0,0,0,0,0,0,0,0,0,0,0,0,0,0,0,0,0,0,0,7,0,0,0,0,0,0,0,32] .fetched)]} [(TNW_REQ1_EM 3,0)]), 3, 1, 17, 0, wRg, (wCm [1,0,4,0,0,0,0,0,1,0,0,0,0,0,0,0,17,0,0,0,0,0,0,0,0,0,0,0,0,0,0,0,0,0,0,0,0,0,0,0,0,0,0,0,0,0,0,0,0,0,0,0,0,0,0,7,0,0,0,0,0,0,0,32] .fetched), (by first | decide +kernel | rfl), (by first | decide +kernel | rfl), (by first | decide +kernel | rfl), (by first | decide +kernel | rfl), (by first | rfl | decide +kernel), (by first | rfl | decide +kernel), (by first | decide +kernel | rfl), (by first | decide +kernel | rfl), (by first | decide +kernel | rfl), (by first | decide +kernel | rfl), (by first | rfl | decide +kernel), (by first | decide +kernel | rfl), (by first | decide +kernel | rfl), (((wTn 1 5 2 {wX with cmds := [(wCm [1,0,4,0,0,0,0,0,1,0,0,0,0,0,0,0,17,0,0,0,0,0,0,0,0,0,0,0,0,0,0,0,0,0,0,0,0,0,0,0,0,0,0,0,0,0,0,0,0,0,0,0,0,0,0,7,0,0,0,0,0,0,0,32] .fetched)]} [(TNW_REQ1_EM 3,0)]) : State).tblInsertKey (0 : Nat) (wRg : Region) (beNat (slice ((wCm [1,0,4,0,0,0,0,0,1,0,0,0,0,0,0,0,17,0,0,0,0,0,0,0,0,0,0,0,0,0,0,0,0,0,0,0,0,0,0,0,0,0,0,0,0,0,0,0,0,0,0,0,0,0,0,7,0,0,0,0,0,0,0,32] .fetched) : TenCmd).entry 16 40)) (((wCm [1,0,4,0,0,0,0,0,1,0,0,0,0,0,0,0,17,0,0,0,0,0,0,0,0,0,0,0,0,0,0,0,0,0,0,0,0,0,0,0,0,0,0,0,0,0,0,0,0,0,0,0,0,0,0,7,0,0,0,0,0,0,0,32] .fetched) : TenCmd).opd 56 8) (bitOf (((wCm [1,0,4,0,0,0,0,0,1,0,0,0,0,0,0,0,17,0,0,0,0,0,0,0,0,0,0,0,0,0,0,0,0,0,0,0,0,0,0,0,0,0,0,0,0,0,0,0,0,0,0,0,0,0,0,7,0,0,0,0,0,0,0,32] .fetched) : TenCmd).opd 9 1) 0)).1, (((wTn 1 5 2 {wX with cmds := [(wCm [1,0,4,0,0,0,0,0,1,0,0,0,0,0,0,0,17,0,0,0,0,0,0,0,0,0,0,0,0,0,0,0,0,0,0,0,0,0,0,0,0,0,0,0,0,0,0,0,0,0,0,0,0,0,0,7,0,0,0,0,0,0,0,32] .fetched)]} [(TNW_REQ1_EM 3,0)]) : State).tblInsertKey (0 : Nat) (wRg : Region) (beNat (slice ((wCm [1,0,4,0,0,0,0,0,1,0,0,0,0,0,0,0,17,0,0,0,0,0,0,0,0,0,0,0,0,0,0,0,0,0,0,0,0,0,0,0,0,0,0,0,0,0,0,0,0,0,0,0,0,0,0,7,0,0,0,0,0,0,0,32] .fetched) : TenCmd).entry 16 40)) (((wCm [1,0,4,0,0,0,0,0,1,0,0,0,0,0,0,0,17,0,0,0,0,0,0,0,0,0,0,0,0,0,0,0,0,0,0,0,0,0,0,0,0,0,0,0,0,0,0,0,0,0,0,0,0,0,0,7,0,0,0,0,0,0,0,32] .fetched) : TenCmd).opd 56 8) (bitOf (((wCm [1,0,4,0,0,0,0,0,1,0,0,0,0,0,0,0,17,0,0,0,0,0,0,0,0,0,0,0,0,0,0,0,0,0,0,0,0,0,0,0,0,0,0,0,0,0,0,0,0,0,0,0,0,0,0,7,0,0,0,0,0,0,0,32] .fetched) : TenCmd).opd 9 1) 0)).2.1, (((wTn 1 5 2 {wX with cmds := [(wCm [1,0,4,0,0,0,0,0,1,0,0,0,0,0,0,0,17,0,0,0,0,0,0,0,0,0,0,0,0,0,0,0,0,0,0,0,0,0,0,0,0,0,0,0,0,0,0,0,0,0,0,0,0,0,0,7,0,0,0,0,0,0,0,32] .fetched)]} [(TNW_REQ1_EM 3,0)]) : State).tblInsertKey (0 : Nat) (wRg : Region) (beNat (slice ((wCm [1,0,4,0,0,0,0,0,1,0,0,0,0,0,0,0,17,0,0,0,0,0,0,0,0,0,0,0,0,0,0,0,0,0,0,0,0,0,0,0,0,0,0,0,0,0,0,0,0,0,0,0,0,0,0,7,0,0,0,0,0,0,0,32] .fetched) : TenCmd).entry 16 40)) (((wCm [1,0,4,0,0,0,0,0,1,0,0,0,0,0,0,0,17,0,0,0,0,0,0,0,0,0,0,0,0,0,0,0,0,0,0,0,0,0,0,0,0,0,0,0,0,0,0,0,0,0,0,0,0,0,0,7,0,0,0,0,0,0,0,32] .fetched) : TenCmd).opd 56 8) (bitOf (((wCm [1,0,4,0,0,0,0,0,1,0,0,0,0,0,0,0,17,0,0,0,0,0,0,0,0,0,0,0,0,0,0,0,0,0,0,0,0,0,0,0,0,0,0,0,0,0,0,0,0,0,0,0,0,0,0,7,0,0,0,0,0,0,0,32] .fetched) : TenCmd).opd 9 1) 0)).2.2, rfl, (by first | decide +kernel | rfl), (by first | decide +kernel | rfl), (by first | decide +kernel | rfl)⟩,
   ⟨(wTn 1 5 2 wX [(TBL_CMD_BUSY .A,1),(BLF_CMD_BUSY,1)]), 3, (by first | decide +kernel | rfl), (by first | decide +kernel | rfl), (by first | decide +kernel | rfl)⟩,
   ⟨({ (wTn 1 5 2 {wX with cmds := [(wCm [4,0,4,0,0,0,0,0,1,0,21,0,0,0,1,3,0,0,0,0,0,0,0,0,0,0] .fetched)]} [(TNW_REQ2_KEY 3,0)]) with blf := {Blf.reset with slots := [(21,⟨some (wKo 4),none,false,3,9,0x40⟩)]} } : State), 3, 21, 1, 3, (wCm [4,0,4,0,0,0,0,0,1,0,21,0,0,0,1,3,0,0,0,0,0,0,0,0,0,0] .fetched), (by first | decide +kernel | rfl), (by first | decide +kernel | rfl), (by first | decide +kernel | rfl), (by first | decide +kernel | rfl), (by first | decide +kernel | rfl), (by first | decide +kernel | rfl), (by first | rfl | decide +kernel), (by first | decide +kernel | rfl), (by first | decide +kernel | rfl), (by first | rfl | decide +kernel), (by first | rfl | decide +kernel), (by first | decide +kernel | rfl), (by first | decide +kernel | rfl)⟩,
   ⟨({ (wTn 1 5 2 {wX with cmds := [(wCm [4,0,4,0,0,0,0,0,1,0,20,0,0,0,1,3,0,0,0,0,0,0,0,0,0,0] .fetched)]} [(TNW_REQ2_KEY 3,0)]) with blf := {Blf.reset with slots := [(21,⟨some (wKo 4),none,false,3,9,0x40⟩)]} } : State), 3, 20, 1, 3, (wCm [4,0,4,0,0,0,0,0,1,0,20,0,0,0,1,3,0,0,0,0,0,0,0,0,0,0] .fetched), (by first | decide +kernel | rfl), (by first | decide +kernel | rfl), (by first | decide +kernel | rfl), (by first | decide +kernel | rfl), (by first | decide +kernel | rfl), (by first | decide +kernel | rfl), (by first | rfl | decide +kernel), (by first | decide +kernel | rfl), (by first | decide +kernel | rfl), (by first | rfl | decide +kernel), (by first | rfl | decide +kernel), (by first | decide +kernel | rfl), (by first | decide +kernel | rfl)⟩,
   ⟨({ (wTn 1 5 2 {wX with cmds := [(wCm [4,0,4,0,0,0,0,0,1,0,20,0,0,0,1,3,0,0,0,0,0,0,0,0,0,0] .fetched)]} [(TNW_REQ2_KEY 3,3)]) with blf := {Blf.reset with slots := [(21,⟨some (wKo 4),none,false,3,9,0x40⟩)]} } : State), 3, 20, 1, 3, (wCm [4,0,4,0,0,0,0,0,1,0,20,0,0,0,1,3,0,0,0,0,0,0,0,0,0,0] .fetched), (by first | decide +kernel | rfl), (by first | decide +kernel | rfl), (by first | decide +kernel | rfl), (by first | decide +kernel | rfl), (by first | decide +kernel | rfl), (by first | decide +kernel | rfl), (by first | rfl | decide +kernel), (by first | decide +kernel | rfl), (by first | decide +kernel | rfl), (by first | rfl | decide +kernel), (by first | rfl | decide +kernel), (by first | decide +kernel | rfl), (by first | decide +kernel | rfl), (by first | decide +kernel | rfl), (by first | decide +kernel | rfl)⟩⟩

end W21

end Wit
end

section
/-! PROOFS. The form of the reset state, reads of counters, and writes of the shadow window: O3, O10 and O22. -/

namespace Sys2Proof.Machine

/-- Settles O3: every list of the reset state is empty, and its contexts, time bases and beat paths are replicated in their fixed
numbers. -/
theorem resetIsInGoodForm : Obligations.ResetIsInGoodForm where
  regs := rfl
  active := rfl
  shadow := rfl
  lpddr := rfl
  capSram := rfl
  mcMem := rfl
  host0 := rfl
  host1 := rfl
  ao := Nat.two_pow_pos 48
  errFifo := Nat.zero_le 64
  txts := Nat.zero_le 64
  wrec := Nat.zero_le 32
  ldgQ := Nat.zero_le 256
  ctxs := List.length_replicate
  tbCount := List.length_replicate
  tbs := List.all_eq_true.mpr fun x hx => by rw [List.eq_of_mem_replicate hx]; decide
  beats := List.length_replicate
  eras := rfl

/-! ## Reads of counters (R7) -/

/-- An aligned 32-bit read that passes every gate answers what its register shows, with the side effects of the read. -/
theorem State.readReg_word {s : State} {r : Requester} {a b : Nat} (hu : s.unreachable r = false) (hb : s.bootShut r a = false)
    (hp : s.powered a = true) (ha : a % 4 = 0) (hr : s.readAddr r a = some b) :
    s.readReg r a 4 = (s.readWord r b).1.answer ((s.readWord r b).2 % 2 ^ 32) := by
  have h4 : a / 4 * 4 = a := by omega
  simp [State.readReg, hu, hb, hp, hr, ha, h4]

/-- A field that is a whole register, cleared: the register is 0. -/
theorem ofNat_setBits_whole (w : Word) : BitVec.ofNat 32 (setBits w.toNat 0 32 0) = 0 := by
  have hw : w.toNat / 2 ^ 32 = 0 := Nat.div_eq_of_lt w.isLt
  rw [setBits, Nat.zero_add, hw]
  simp [Nat.mod_one]

/-- The management cluster's read of a counter clears it where it is held. -/
theorem State.readWord_counter_mc {s : State} {r : Requester} {a : Nat} {g : RegSpec} (hg : specAt a = some g)
    (hs : g.pair = .single) (hf : g.fields = [⟨0, 32, .rc, .keep⟩]) (hr : isMc r = true) :
    s.readWord r a = (s.setReg (counterHome a) 0, s.view32 a) := by
  simp [State.readWord, hg, hs, hf, hr, clearRc, ofNat_setBits_whole]

/-- Any other requester's read of a register without a pair has no effect. -/
theorem State.readWord_single_other {s : State} {r : Requester} {a : Nat} {g : RegSpec} (hg : specAt a = some g)
    (hs : g.pair = .single) (hr : isMc r = false) : s.readWord r a = (s, s.view32 a) := by
  simp [State.readWord, hg, hs, hr]

theorem isHost_of_isMc {r : Requester} (h : isMc r = true) : isHost r = false := by
  cases r <;> simp_all [isMc, isHost]

/-- Settles O10, by the two forms of a counter's read. -/
theorem counterReadClearsForTheManagementCluster : Obligations.CounterReadClearsForTheManagementCluster := by
  intro s r a g hu hb ht hp ha hr hg hs hf
  refine ⟨_, rfl, ?_⟩
  rw [State.readReg_word hu hb hp ha hr]
  cases hm : isMc r with
  | true =>
    rw [State.readWord_counter_mc hg hs hf hm]
    refine ⟨rfl, fun _ => ⟨State.reg_setReg_self s _ _, rfl, fun b hb => ?_⟩, fun h => ?_⟩
    · exact State.reg_setReg_ne s _ (by simpa using hb)
    · exact absurd h (by simp [isHost_of_isMc hm])
  | false =>
    rw [State.readWord_single_other hg hs hm]
    exact ⟨rfl, fun h => absurd hm (by simp [h, isMc]), fun _ => rfl⟩

/-! ## The shadow window (R53) -/

theorem leBytes_length (n v : Nat) : (leBytes n v).length = n := by
  induction n generalizing v with
  | zero => rfl
  | succ n ih => simp [leBytes, ih]

theorem getElem_leBytes (n v i : Nat) (h : i < (leBytes n v).length) :
    (leBytes n v)[i] = BitVec.ofNat 8 (v / 2 ^ (8 * i)) := by
  induction n generalizing v i with
  | zero => simp [leBytes] at h
  | succ n ih =>
    cases i with
    | zero => simp [leBytes]
    | succ i =>
      have h2 : v / 256 / 2 ^ (8 * i) = v / 2 ^ (8 * (i + 1)) := by
        rw [Nat.div_div_eq_div_mul, Nat.mul_succ, Nat.pow_add, Nat.mul_comm]
      simpa [leBytes, h2] using ih (v / 256) i (by simpa [leBytes] using h)

/-- A write in the shadow window that reaches it. -/
theorem exec_shadowWindowWrite {s : State} {r : Requester} {a : Nat} (v : Nat) (h : s.reaches r a) (ha : a % 4 = 0)
    (hl : 0x140000 ≤ a) (hh : a < 0x200000) : exec (.shadowWindowWrite r a v) s = .next (s.writeWindow r a v) := by
  have h4 : a / 4 * 4 = a := by omega
  simp [exec, execShadowWindowWrite, inShadow, hl, hh, h4, State.gated_reaches h]

/-- Settles O22, by the two cases of the owner's condition. -/
theorem shadowWindowWriteStoresFourBytes : Obligations.ShadowWindowWriteStoresFourBytes := by
  intro s r a v hr ha hl hh
  rw [exec_shadowWindowWrite v hr ha hl hh]
  refine ⟨fun hs ho => ⟨_, rfl, ?_⟩, fun h => ⟨_, rfl, ?_⟩⟩
  · have hw : s.writeWindow r a v = { s with shadow := memPut s.shadow (a - 0x140000) (leBytes 4 v) } :=
      if_pos ⟨by simp [State.shadowIs, hs, shLOADING], ho⟩
    rw [hw]
    refine ⟨fun i hi => ?_, fun b hb => memGet_memPut_out _ _ _ _ (by rwa [leBytes_length]), rfl⟩
    have hi : i < (leBytes 4 v).length := by rwa [leBytes_length]
    exact (memGet_memPut_in _ _ _ _ hi).trans (getElem_leBytes 4 v i hi)
  · have hw : s.writeWindow r a v = s.put CHT_STATUS_WIN_REJECT 1 := by
      refine if_neg fun ⟨hs, ho⟩ => ?_
      rcases h with h | h
      · exact h (by simpa [State.shadowIs, shLOADING] using hs)
      · exact h ho
    rw [hw]
    exact ⟨State.fld_put_self s CHT_STATUS_WIN_REJECT 1 (by decide), (State.OnlyRegs.refl s _).put 1 (by decide)⟩

end Sys2Proof.Machine
end

section
/-! PROOFS. A register write, field by field by its access codes: O7. -/

namespace Sys2Proof.Machine

/-! ## Bits of fields -/

theorem bitOf_eq_bits (v k : Nat) : bitOf v k = (bits v k 1 == 1) := by simp [bitOf, bits]

theorem bitOf_mod {v k n : Nat} (h : k < n) : bitOf (v % 2 ^ n) k = bitOf v k := by
  rw [bitOf_eq_bits, bitOf_eq_bits, bits_mod v k 1 n h]

theorem bitOf_setBits_one_self (v l x : Nat) : bitOf (setBits v l 1 x) l = (x % 2 == 1) := by
  simp [bitOf_eq_bits]

theorem bitOf_setBits_one_ne (v x : Nat) {k l : Nat} (h : k ≠ l) : bitOf (setBits v l 1 x) k = bitOf v k := by
  rw [bitOf_eq_bits, bitOf_eq_bits, bits_setBits_beside v l 1 k 1 x (by omega)]

/-- A field that is the whole register takes the 32 bits written. -/
theorem ofNat_setBits_word (w v : Nat) : BitVec.ofNat 32 (setBits w 0 32 (bits v 0 32)) = BitVec.ofNat 32 v := by
  have h := bits_setBits_self w 0 32 (bits v 0 32)
  apply BitVec.eq_of_toNat_eq
  simpa [bits] using h

/-! ## A register written field by field (R7) -/

/-- A one-bit field cleared by a write of 1. -/
def w1cBit (l : Nat) : FieldSpec := ⟨l, 1, .w1c, .keep⟩

theorem bitOf_fieldWrite_w1cBit_self (mw : Bool) (v old l : Nat) :
    bitOf (fieldWrite mw true v old (w1cBit l)) l = (bitOf old l && !bitOf v l) := by
  have ho : bits old l 1 < 2 := bits_lt old l 1
  have hv : bits v l 1 < 2 := bits_lt v l 1
  simp only [fieldWrite, w1cBit, Clamp.take, if_true, bitOf_eq_bits, bits_setBits_self]
  generalize bits old l 1 = x at ho ⊢
  generalize bits v l 1 = y at hv ⊢
  obtain rfl | rfl : x = 0 ∨ x = 1 := by omega
  all_goals obtain rfl | rfl : y = 0 ∨ y = 1 := by omega
  all_goals rfl

theorem bitOf_fieldWrite_w1cBit_ne (mw : Bool) (v old : Nat) {k l : Nat} (h : k ≠ l) :
    bitOf (fieldWrite mw true v old (w1cBit l)) k = bitOf old k := by
  simp only [fieldWrite, w1cBit, if_true, bitOf_setBits_one_ne _ _ h]

/-- A register of one-bit W1C fields: a bit of one of them stays unless 1 is written to it. -/
theorem bitOf_foldl_w1cBit (mw : Bool) (v k : Nat) (ls : List Nat) (old : Nat) :
    bitOf ((ls.map w1cBit).foldl (fieldWrite mw true v) old) k = (bitOf old k && !(decide (k ∈ ls) && bitOf v k)) := by
  induction ls generalizing old with
  | nil => simp
  | cons l ls ih =>
    rw [List.map_cons, List.foldl_cons, ih]
    by_cases h : k = l
    · subst h
      rw [bitOf_fieldWrite_w1cBit_self]
      cases bitOf old k <;> cases bitOf v k <;> simp
    · simp [bitOf_fieldWrite_w1cBit_ne mw v old h, h]

/-- Fields that a write leaves alone leave the register. -/
theorem foldl_fieldWrite_unchanged {mw own : Bool} {v : Nat} {fs : List FieldSpec}
    (h : ∀ f ∈ fs, ∀ old, fieldWrite mw own v old f = old) (old : Nat) : fs.foldl (fieldWrite mw own v) old = old := by
  induction fs generalizing old with
  | nil => rfl
  | cons f fs ih =>
    rw [List.foldl_cons, h f List.mem_cons_self]
    exact ih (fun g hg => h g (List.mem_cons_of_mem _ hg)) old

theorem fieldWrite_ro {mw own : Bool} {v : Nat} {f : FieldSpec} (h : f.acc = .ro) (old : Nat) :
    fieldWrite mw own v old f = old := by simp [fieldWrite, h]

theorem fieldWrite_mw_off {own : Bool} {v : Nat} {f : FieldSpec} (h : f.acc = .mw) (old : Nat) :
    fieldWrite false own v old f = old := by simp [fieldWrite, h]

namespace State

theorem storeOne_of_spec (s : State) (mw own : Bool) {a : Nat} (v : Nat) {g : RegSpec} (hg : specAt a = some g) :
    s.storeOne mw own a v = s.setReg a (BitVec.ofNat 32 (g.fields.foldl (fieldWrite mw own v) (s.reg a).toNat)) := by
  simp [storeOne, hg]

/-- A register that is one RW field takes the value. -/
theorem storeOne_word_rw (s : State) (mw : Bool) {a : Nat} (v : Nat) {g : RegSpec} (hg : specAt a = some g)
    (hf : g.fields = [⟨0, 32, .rw, .keep⟩]) : s.storeOne mw true a v = s.setReg a (BitVec.ofNat 32 v) := by
  rw [storeOne_of_spec s mw true v hg, hf]
  exact congrArg (s.setReg a) (ofNat_setBits_word _ v)

/-- A register that is one MW field takes a value written through the Plane A half. -/
theorem storeOne_word_mw (s : State) (own : Bool) {a : Nat} (v : Nat) {g : RegSpec} (hg : specAt a = some g)
    (hf : g.fields = [⟨0, 32, .mw, .keep⟩]) : s.storeOne true own a v = s.setReg a (BitVec.ofNat 32 v) := by
  rw [storeOne_of_spec s true own v hg, hf]
  exact congrArg (s.setReg a) (ofNat_setBits_word _ v)

/-- A write that no field of its register takes changes nothing. -/
theorem storeOne_unchanged (s : State) {mw own : Bool} {a v : Nat} {g : RegSpec} (hg : specAt a = some g)
    (h : ∀ f ∈ g.fields, ∀ old, fieldWrite mw own v old f = old) : s.OnlyRegs (s.storeOne mw own a v) [] := by
  rw [storeOne_of_spec s mw own v hg, foldl_fieldWrite_unchanged h, BitVec.ofNat_toNat, BitVec.setWidth_eq]
  refine ⟨rfl, fun b _ => ?_⟩
  by_cases hb : b = a
  · rw [hb, reg_setReg_self]
  · exact reg_setReg_ne s _ hb

theorem storeReg_reserved (s : State) {a : Nat} (v : Nat) (hg : specAt a = none) : s.storeReg a v = s := by
  simp [storeReg, hg]

theorem storeReg_single (s : State) {a : Nat} (v : Nat) {g : RegSpec} (hg : specAt a = some g) (hh : halved g = false) :
    s.storeReg a v = s.storeOne true true a v := by simp [storeReg, hg, hh]

theorem storeReg_halfA (s : State) {a : Nat} (v : Nat) {g : RegSpec} (hg : specAt a = some g) (hh : halved g = true)
    (ha : a % 0x100000 < 0x80000) :
    s.storeReg a v = (s.storeOne true true a v).storeOne true false (a + 0x80000) v := by
  simp [storeReg, hg, hh, ha]

theorem storeReg_halfB (s : State) {a : Nat} (v : Nat) {g : RegSpec} (hg : specAt a = some g) (hh : halved g = true)
    (ha : ¬ a % 0x100000 < 0x80000) : s.storeReg a v = s.storeOne false true a v := by
  simp [storeReg, hg, hh, ha]

end State

/-! ## A write of the register window (R5, R31) -/

/-- The registers that take commands with a refusal of their own. -/
def commandRegs : List Nat := [rGLB_STATE_CTL, rCHT_CTL, rTBL_CMD .A, rRED_CTL, rCAR_CTL, rBLF_CMD, rLDG_CTL]

/-- An aligned 32-bit write that reaches a register which takes no commands acts there. -/
theorem exec_registerWrite {s : State} {r : Requester} {a : Nat} (v : Nat) (hr : ∀ t, r ≠ .tenant t) (h : s.reaches r a)
    (hl : a < 0x2000000) (ha : a % 4 = 0) (hc : a ∉ commandRegs) :
    exec (.registerWrite r a 4 v) s = .next (s.writeAt r a v) := by
  have h4 : a / 4 * 4 = a := by omega
  have hw : s.writeReg r a v = s.writeAt r a v := by
    simp only [commandRegs, List.mem_cons, List.not_mem_nil, or_false, not_or] at hc
    obtain ⟨h1, h2, h3, h5, h6, h7, h8⟩ := hc
    simp only [State.writeReg, h1, h2, h3, h5, h6, h7, h8, if_false, State.gated_reaches h]
  have hg : s.regWrite r a 4 v = s.writeReg r a v := by
    cases r with
    | tenant t => exact absurd rfl (hr t)
    | _ => simp [State.regWrite, State.reaches_unreachable h, h4, Nat.not_le.mpr hl]
  simp only [exec, execRegisterWrite, hg, hw]

/-! ## The registers that O7 names -/

theorem specAt_glbScratch {n : Nat} (h : n < 4) :
    ∃ g, specAt (rGLB_SCRATCH n) = some g ∧ halved g = false ∧ g.fields = [⟨0, 32, .rw, .keep⟩] := by
  obtain rfl | rfl | rfl | rfl : n = 0 ∨ n = 1 ∨ n = 2 ∨ n = 3 := by omega
  all_goals exact ⟨_, rfl, rfl, rfl⟩

/-- The eight registers of TBL_LEARN_PORT by their numbers. -/
theorem learnPort_cases {n : Nat} (h : n < 8) : n = 0 ∨ n = 1 ∨ n = 2 ∨ n = 3 ∨ n = 4 ∨ n = 5 ∨ n = 6 ∨ n = 7 := by omega

theorem specAt_tblLearnPort (pl : Plane) {n : Nat} (h : n < 8) :
    ∃ g, specAt (rTBL_LEARN_PORT pl n) = some g ∧ halved g = true ∧ g.fields = [⟨0, 32, .mw, .keep⟩] := by
  obtain rfl | rfl | rfl | rfl | rfl | rfl | rfl | rfl := learnPort_cases h
  all_goals cases pl
  all_goals exact ⟨_, rfl, rfl, rfl⟩

theorem specAt_glbResetCause :
    ∃ g, specAt rGLB_RESET_CAUSE = some g ∧ halved g = false ∧ g.fields = [7, 6, 5, 4, 3, 2, 1, 0].map w1cBit :=
  ⟨_, rfl, rfl, rfl⟩

theorem specAt_readOnly {a : Nat} (h : a = rGLB_PARTCODE ∨ a = rGLB_DEVSTATE) :
    ∃ g, specAt a = some g ∧ halved g = false ∧ ∀ f ∈ g.fields, f.acc = .ro := by
  rcases h with rfl | rfl
  · exact ⟨_, rfl, rfl, by decide⟩
  · exact ⟨_, rfl, rfl, by decide⟩

theorem State.writeAt_glb (s : State) (r : Requester) {a : Nat} (v : Nat) (hb : a / 0x100000 = 0)
    (h : a ∉ [rGLB_SWRESET, rGLB_ACCESS_ERR]) : s.writeAt r a v = s.storeReg a v := by
  simp only [List.mem_cons, List.not_mem_nil, or_false, not_or] at h
  simp [State.writeAt, hb, State.writeGLB, h]

theorem State.writeAt_clk (s : State) (r : Requester) {a : Nat} (v : Nat) (hb : a / 0x100000 = 3) :
    s.writeAt r a v = s.storeReg a v := by
  simp [State.writeAt, hb]

theorem State.writeAt_tblLearnPort (s : State) (r : Requester) (pl : Plane) {n : Nat} (v : Nat) (h : n < 8) :
    s.writeAt r (rTBL_LEARN_PORT pl n) v = s.storeReg (rTBL_LEARN_PORT pl n) v := by
  obtain rfl | rfl | rfl | rfl | rfl | rfl | rfl | rfl := learnPort_cases h
  all_goals cases pl
  all_goals rfl

theorem glbScratch_not_command {n : Nat} (h : n < 4) : rGLB_SCRATCH n ∉ commandRegs := by
  have hall : ∀ n < 4, rGLB_SCRATCH n ∉ commandRegs := by decide
  exact hall n h

theorem tblLearnPort_not_command (pl : Plane) {n : Nat} (h : n < 8) : rTBL_LEARN_PORT pl n ∉ commandRegs := by
  have hA : ∀ n < 8, rTBL_LEARN_PORT .A n ∉ commandRegs := by decide
  have hB : ∀ n < 8, rTBL_LEARN_PORT .B n ∉ commandRegs := by decide
  cases pl with
  | A => exact hA n h
  | B => exact hB n h

theorem clk_not_command {a : Nat} (h : a / 0x100000 = 3) : a ∉ commandRegs := by
  have hc : ∀ b ∈ commandRegs, b / 0x100000 ≠ 3 := by decide
  exact fun hm => hc a hm h

/-- GLB_SCRATCHn takes the value. -/
theorem State.writeAt_glbScratch (s : State) (r : Requester) {n : Nat} (v : Nat) (h : n < 4) :
    s.writeAt r (rGLB_SCRATCH n) v = s.setReg (rGLB_SCRATCH n) (BitVec.ofNat 32 v) := by
  obtain ⟨g, hg, hh, hf⟩ := specAt_glbScratch h
  have hw : s.writeAt r (rGLB_SCRATCH n) v = s.storeReg (rGLB_SCRATCH n) v := by
    have hall : ∀ n < 4, rGLB_SCRATCH n / 0x100000 = 0 ∧ rGLB_SCRATCH n ∉ [rGLB_SWRESET, rGLB_ACCESS_ERR] := by decide
    exact s.writeAt_glb r v (hall n h).1 (hall n h).2
  rw [hw, s.storeReg_single v hg hh, s.storeOne_word_rw true v hg hf]

/-- TBL_LEARN_PORTn written through the Plane A half takes the value in both planes. -/
theorem State.writeAt_tblLearnPort_A (s : State) (r : Requester) {n : Nat} (v : Nat) (h : n < 8) :
    s.writeAt r (rTBL_LEARN_PORT .A n) v =
      (s.setReg (rTBL_LEARN_PORT .A n) (BitVec.ofNat 32 v)).setReg (rTBL_LEARN_PORT .B n) (BitVec.ofNat 32 v) := by
  obtain ⟨g, hg, hh, hf⟩ := specAt_tblLearnPort .A h
  obtain ⟨k, hk, -, hfk⟩ := specAt_tblLearnPort .B h
  have hA : rTBL_LEARN_PORT .A n % 0x100000 < 0x80000 := by simp only [rTBL_LEARN_PORT, half]; omega
  have hB : rTBL_LEARN_PORT .A n + 0x80000 = rTBL_LEARN_PORT .B n := by simp only [rTBL_LEARN_PORT, half]; omega
  rw [s.writeAt_tblLearnPort r .A v h, s.storeReg_halfA v hg hh hA, hB, s.storeOne_word_mw true v hg hf,
    State.storeOne_word_mw _ false v hk hfk]

/-- TBL_LEARN_PORTn written through the Plane B half takes no value. -/
theorem State.writeAt_tblLearnPort_B (s : State) (r : Requester) {n : Nat} (v : Nat) (h : n < 8) :
    s.OnlyRegs (s.writeAt r (rTBL_LEARN_PORT .B n) v) [] := by
  obtain ⟨g, hg, hh, hf⟩ := specAt_tblLearnPort .B h
  have hB : ¬ rTBL_LEARN_PORT .B n % 0x100000 < 0x80000 := by simp only [rTBL_LEARN_PORT, half]; omega
  rw [s.writeAt_tblLearnPort r .B v h, s.storeReg_halfB v hg hh hB]
  exact s.storeOne_unchanged hg (by simp [hf, fieldWrite_mw_off])

/-- Registers of RO fields take no value. -/
theorem State.writeAt_readOnly (s : State) (r : Requester) {a : Nat} (v : Nat) (h : a = rGLB_PARTCODE ∨ a = rGLB_DEVSTATE) :
    s.OnlyRegs (s.writeAt r a v) [] := by
  obtain ⟨g, hg, hh, hf⟩ := specAt_readOnly h
  have hw : s.writeAt r a v = s.storeReg a v := by
    refine s.writeAt_glb r v ?_ ?_ <;> rcases h with rfl | rfl <;> decide
  rw [hw, s.storeReg_single v hg hh]
  exact s.storeOne_unchanged hg fun f hm => fieldWrite_ro (hf f hm)

/-- GLB_RESET_CAUSE loses the bits that are written 1. -/
theorem State.bitOf_writeAt_glbResetCause (s : State) (r : Requester) (v : Nat) {k : Nat} (h : k < 8) :
    bitOf ((s.writeAt r rGLB_RESET_CAUSE v).reg rGLB_RESET_CAUSE).toNat k =
      (bitOf (s.reg rGLB_RESET_CAUSE).toNat k && !bitOf v k) := by
  obtain ⟨g, hg, hh, hf⟩ := specAt_glbResetCause
  have hall : ∀ k < 8, k ∈ [7, 6, 5, 4, 3, 2, 1, 0] := by decide
  have hk := hall k h
  rw [s.writeAt_glb r v (by decide) (by decide), s.storeReg_single v hg hh, s.storeOne_of_spec true true v hg, hf,
    State.reg_setReg_self, BitVec.toNat_ofNat, bitOf_mod (by omega), bitOf_foldl_w1cBit, decide_eq_true hk, Bool.true_and]

theorem State.onlyRegs_writeAt_glbResetCause (s : State) (r : Requester) (v : Nat) :
    s.OnlyRegs (s.writeAt r rGLB_RESET_CAUSE v) [rGLB_RESET_CAUSE] := by
  obtain ⟨g, hg, hh, hf⟩ := specAt_glbResetCause
  rw [s.writeAt_glb r v (by decide) (by decide), s.storeReg_single v hg hh, s.storeOne_of_spec true true v hg]
  exact (State.OnlyRegs.refl s _).setReg _ List.mem_cons_self

/-- Settles O7: the write acts on its one register, whose fields take it by their access codes. -/
theorem registerWriteActsByAccessCode : Obligations.RegisterWriteActsByAccessCode := by
  intro s r a v hr h hl ha
  have acts (hc : a ∉ commandRegs) : exec (.registerWrite r a 4 v) s = .next (s.writeAt r a v) :=
    exec_registerWrite v hr h hl ha hc
  refine ⟨fun n hn e => ?_, fun n hn e => ?_, fun n hn e => ?_, fun e => ?_, fun e => ?_, fun hb hg => ?_⟩
  · subst e
    refine ⟨_, acts (glbScratch_not_command hn), ?_⟩
    rw [s.writeAt_glbScratch r v hn]
    exact ⟨State.reg_setReg_self s _ _, (State.OnlyRegs.refl s _).setReg _ List.mem_cons_self⟩
  · subst e
    refine ⟨_, acts (tblLearnPort_not_command .A hn), ?_⟩
    rw [s.writeAt_tblLearnPort_A r v hn]
    have hne : rTBL_LEARN_PORT .A n ≠ rTBL_LEARN_PORT .B n := by simp [rTBL_LEARN_PORT, half]
    exact ⟨by rw [State.reg_setReg_ne _ _ hne, State.reg_setReg_self], State.reg_setReg_self _ _ _,
      ((State.OnlyRegs.refl s _).setReg _ (by simp)).setReg _ (by simp)⟩
  · subst e
    exact ⟨_, acts (tblLearnPort_not_command .B hn), s.writeAt_tblLearnPort_B r v hn⟩
  · have hc : a ∉ commandRegs := by rcases e with rfl | rfl <;> decide
    exact ⟨_, acts hc, s.writeAt_readOnly r v e⟩
  · subst e
    exact ⟨_, acts (by decide), fun k hk => s.bitOf_writeAt_glbResetCause r v hk, s.onlyRegs_writeAt_glbResetCause r v⟩
  · refine ⟨_, acts (clk_not_command hb), ?_⟩
    rw [s.writeAt_clk r v hb, s.storeReg_reserved v hg]
    exact State.OnlyRegs.refl s _

end Sys2Proof.Machine
end

section
/-! SUPPORT. Gate changes, and what a write of a shaper or snare leaves of its bucket (R236, R242, R246). -/

namespace Sys2Proof.Machine

/-! ## Gates (R236) -/

theorem bitOf_foldl_clear (cs : List Nat) (m c : Nat) :
    bitOf (cs.foldl (fun m c => setBits m c 1 0) m) c = (bitOf m c && !decide (c ∈ cs)) := by
  induction cs generalizing m with
  | nil => simp
  | cons d cs ih =>
    rw [List.foldl_cons, ih]
    by_cases h : c = d
    · simp [h, bitOf_setBits_one_self]
    · simp [bitOf_setBits_one_ne m 0 h, h]

namespace State

/-- The classes of a port whose gate closes. -/
def closingClasses (s : State) (p : Nat) : List Nat :=
  (List.range 8).filter (fun c => bitOf (s.fld (SCH_GATE_OPEN .A p)) c && !bitOf (s.gateMask p) c)

/-- Those of them whose head only its length held back. -/
def shortClasses (s : State) (p : Nat) : List Nat := (s.closingClasses p).filter (fun c => bitOf (s.port p).shortMask c)

/-- A port whose closing classes are no longer noted as held back. -/
def shortCleared (s : State) (p : Nat) : State :=
  s.setPort p { s.port p with shortMask := (s.closingClasses p).foldl (fun m c => setBits m c 1 0) (s.port p).shortMask }

/-- The same with the mask in force shown. -/
def gatesShown (s : State) (p : Nat) : State :=
  ((s.shortCleared p).put (SCH_GATE_OPEN .A p) (s.gateMask p)).put (SCH_GATE_LIST .A p) (bitN (s.gateList p ≠ []))

theorem mem_closingClasses {s : State} {p c : Nat} : c ∈ s.closingClasses p ↔
    c < 8 ∧ bitOf (s.fld (SCH_GATE_OPEN .A p)) c = true ∧ bitOf (s.gateMask p) c = false := by
  simp [closingClasses]

theorem mem_shortClasses {s : State} {p c : Nat} : c ∈ s.shortClasses p ↔
    c ∈ s.closingClasses p ∧ bitOf (s.port p).shortMask c = true := by
  simp [shortClasses]

theorem gateChange_none_short {s : State} {p : Nat} (h : s.shortClasses p = []) : s.gateChange p = s.gatesShown p :=
  if_pos h

theorem gateChange_some_short {s : State} {p : Nat} (h : s.shortClasses p ≠ []) : s.gateChange p =
    ((s.gatesShown p).addCnt (SCH_GATE_SHORT_CNT_VAL s.lead) (s.shortClasses p).length).setFlag (SCH_EVT_GATE_SHORT s.lead) :=
  if_neg h

theorem gatesShown_onlyRegs (s : State) (p : Nat) : (s.shortCleared p).OnlyRegs (s.gatesShown p) [rSCH_GATE .A p] :=
  ((OnlyRegs.refl _ _).put _ List.mem_cons_self).put _ List.mem_cons_self

/-- A gate change writes SCH_GATE of its port and, when a class was held back, the counter and the event of the LEAD plane. -/
theorem gateChange_onlyRegs (s : State) (p : Nat) : (s.shortCleared p).OnlyRegs (s.gateChange p)
    [rSCH_GATE .A p, rSCH_GATE_SHORT_CNT s.lead, rSCH_EVT s.lead] := by
  have hs : (s.shortCleared p).OnlyRegs (s.gatesShown p) [rSCH_GATE .A p, rSCH_GATE_SHORT_CNT s.lead, rSCH_EVT s.lead] :=
    (s.gatesShown_onlyRegs p).mono (by simp)
  by_cases h : s.shortClasses p = []
  · rwa [gateChange_none_short h]
  · rw [gateChange_some_short h]
    exact (hs.put (f := SCH_GATE_SHORT_CNT_VAL s.lead) _ (by simp [SCH_GATE_SHORT_CNT_VAL])).put _ (by simp [SCH_EVT_GATE_SHORT])

/-- Beside registers a gate change only touches the ports. -/
theorem gateChange_frame (s : State) (p : Nat) : { s.gateChange p with regs := s.regs, ports := s.ports } = s := by
  have h := (s.gateChange_onlyRegs p).rest
  exact congrArg (fun x : State => { x with regs := s.regs, ports := s.ports }) h

theorem fld_gateChange (s : State) {p : Nat} (hp : p < 32) {f : Fld} (hf : f.addr = rSCH_GATE .A p) :
    (s.gateChange p).fld f = (s.gatesShown p).fld f := by
  have he (pl : Plane) : rSCH_GATE .A p ≠ rSCH_EVT pl := by
    cases pl <;> simp only [rSCH_GATE, rSCH_EVT, half] <;> omega
  have hc (pl : Plane) : rSCH_GATE .A p ≠ rSCH_GATE_SHORT_CNT pl := by
    cases pl <;> simp only [rSCH_GATE, rSCH_GATE_SHORT_CNT, half] <;> omega
  by_cases h : s.shortClasses p = []
  · rw [gateChange_none_short h]
  · rw [gateChange_some_short h, setFlag_eq, fld_put_addr _ _ (hf ▸ he s.lead), addCnt_eq, fld_put_addr _ _ (hf ▸ hc s.lead)]

/-- SCH_GATE shows the mask in force. -/
theorem fld_gateChange_open (s : State) {p : Nat} (hp : p < 32) :
    (s.gateChange p).fld (SCH_GATE_OPEN .A p) = s.gateMask p % 256 := by
  rw [s.fld_gateChange hp rfl, gatesShown, fld_put_beside _ _ (by simp [SCH_GATE_OPEN]) (by simp [SCH_GATE_OPEN, SCH_GATE_LIST]),
    fld_put_self _ _ _ (by simp [SCH_GATE_OPEN])]
  rfl

theorem flag_gateChange_list (s : State) {p : Nat} (hp : p < 32) :
    (s.gateChange p).flag (SCH_GATE_LIST .A p) = decide (s.gateList p ≠ []) := by
  rw [flag, s.fld_gateChange hp rfl, gatesShown, fld_put_self _ _ _ (by simp [SCH_GATE_LIST])]
  by_cases h : s.gateList p = [] <;> simp [h, bitN, SCH_GATE_LIST]

theorem bitOf_shortMask_gateChange {s : State} {p c : Nat} (h : c ∈ s.closingClasses p) :
    bitOf ((s.gateChange p).port p).shortMask c = false := by
  have hq : (s.gateChange p).ports = (s.shortCleared p).ports := by
    have h := congrArg (fun x : State => x.ports) (s.gateChange_onlyRegs p).rest
    exact h
  have hp : ((s.gateChange p).port p).shortMask =
      (s.closingClasses p).foldl (fun m c => setBits m c 1 0) (s.port p).shortMask := by
    rw [port, hq]
    exact congrArg PortSt.shortMask (tabGet_tabSet_self _ _ _ _)
  rw [hp, bitOf_foldl_clear, decide_eq_true h]
  simp

/-- Without a class held back only SCH_GATE is written. -/
theorem gateChange_regsBut {s : State} {p : Nat} (h : s.shortClasses p = []) :
    s.RegsBut (s.gateChange p) [rSCH_GATE .A p] := by
  rw [gateChange_none_short h]
  exact (RegsBut.of_regs _ rfl).trans (s.gatesShown_onlyRegs p).regs

theorem flag_gateChange_short {s : State} {p : Nat} (h : s.shortClasses p ≠ []) :
    (s.gateChange p).flag (SCH_EVT_GATE_SHORT s.lead) = true := by
  rw [gateChange_some_short h, setFlag_eq, flag_put_self _ _ _ (by simp [SCH_EVT_GATE_SHORT])]
  rfl

theorem exec_gateChange {p : Nat} (s : State) (hp : p < 32) : exec (.gateChange p) s = .next (s.gateChange p) := by
  simp [exec, execGateChange, hp]

/-! ## Levels and fractions -/

/-- Other fractions. -/
def withFrac (s : State) (f : Tab Nat) : State := { s with frac := f }

@[simp] theorem frac_withFrac (s : State) (f : Tab Nat) : (s.withFrac f).frac = f := rfl
@[simp] theorem reg_withFrac (s : State) (f : Tab Nat) (a : Nat) : (s.withFrac f).reg a = s.reg a := rfl
@[simp] theorem fld_withFrac (s : State) (f : Tab Nat) (x : Fld) : (s.withFrac f).fld x = s.fld x := rfl

/-! ## Writes of shapers and snares (R242, R246) -/

theorem shReset_eq (s : State) (en full burst level : Fld) : s.shReset en full burst level =
    (s.put level (if s.flag en = false ∨ s.flag full = true then s.fld burst else 0)).withFrac (tabSet 0 s.frac level.addr 0) := rfl

theorem fld_shReset_ne (s : State) (en full burst : Fld) {level f : Fld} (h : f.addr ≠ level.addr) :
    (s.shReset en full burst level).fld f = s.fld f := by
  rw [shReset_eq, fld_withFrac, fld_put_addr _ _ h]

theorem flag_shReset_ne (s : State) (en full burst : Fld) {level f : Fld} (h : f.addr ≠ level.addr) :
    (s.shReset en full burst level).flag f = s.flag f := by
  rw [flag, fld_shReset_ne _ _ _ _ h, flag]

theorem reg_shReset_ne (s : State) (en full burst : Fld) {level : Fld} {a : Nat} (h : a ≠ level.addr) :
    (s.shReset en full burst level).reg a = s.reg a := by
  rw [shReset_eq, reg_withFrac, reg_put_ne _ _ _ h]

theorem frac_shReset_self (s : State) (en full burst level : Fld) :
    tabGet 0 (s.shReset en full burst level).frac level.addr = 0 := by
  rw [shReset_eq, frac_withFrac, tabGet_tabSet_self]

theorem frac_shReset_ne (s : State) (en full burst : Fld) {level : Fld} {k : Nat} (h : k ≠ level.addr) :
    tabGet 0 (s.shReset en full burst level).frac k = tabGet 0 s.frac k := by
  rw [shReset_eq, frac_withFrac, tabGet_tabSet_ne _ _ _ h]

/-- The level that a write leaves: BURST or 0, by the fields as they read after the write. -/
theorem fld_shReset_level (s : State) {en full burst level : Fld} (he : en.addr ≠ level.addr) (hf : full.addr ≠ level.addr)
    (hb : burst.addr ≠ level.addr) (hw : burst.wid ≤ level.wid) (hl : level.lsb + level.wid ≤ 32) :
    (s.shReset en full burst level).fld level =
      if (s.shReset en full burst level).flag en = false ∨ (s.shReset en full burst level).flag full = true
        then (s.shReset en full burst level).fld burst else 0 := by
  have hlt : s.fld burst < 2 ^ level.wid := Nat.lt_of_lt_of_le (bits_lt _ _ _) (Nat.pow_le_pow_right (by decide) hw)
  have hput : (s.shReset en full burst level).fld level =
      (if s.flag en = false ∨ s.flag full = true then s.fld burst else 0) % 2 ^ level.wid := by
    rw [shReset_eq, fld_withFrac, fld_put_self _ _ _ hl]
  rw [hput, flag_shReset_ne _ _ _ _ he, flag_shReset_ne _ _ _ _ hf, fld_shReset_ne _ _ _ _ hb]
  split
  · exact Nat.mod_eq_of_lt hlt
  · exact Nat.zero_mod _

end State

theorem isShaper_port {p a : Nat} (hp : p < 256) (h : a = rSCH_PSHP_RATE .A p ∨ a = rSCH_PSHP_BURST .A p) :
    isShaper a = true := by
  simp only [rSCH_PSHP_RATE, rSCH_PSHP_BURST, half] at h
  simp [isShaper, List.range_succ, rSCH_PSHP_RATE, rSCH_QSHP_RATE, half]
  omega

theorem isShaper_queue {q a : Nat} (hq : q < 2048) (h : a = rSCH_QSHP_RATE .A q ∨ a = rSCH_QSHP_BURST .A q) :
    isShaper a = true := by
  simp only [rSCH_QSHP_RATE, rSCH_QSHP_BURST, half] at h
  simp [isShaper, List.range_succ, rSCH_PSHP_RATE, rSCH_QSHP_RATE, half]
  omega

theorem isSnare_snare {n a : Nat} (hn : n < 4096) (h : a = rSCH_SNARE_CFG .A n ∨ a = rSCH_SNARE_BURST .A n) :
    isSnare a = true := by
  simp only [rSCH_SNARE_CFG, rSCH_SNARE_BURST, half] at h
  simp [isSnare, List.range_succ, rSCH_SNARE_CFG, rSCH_SNARE_BURST, half]
  omega

theorem inHalfA_of_low {a : Nat} (h : a % 0x100000 < 0x80000) : inHalfA a = a := if_pos h

theorem ne_inHalfA_of_high {a : Nat} (h : ¬ a % 0x100000 < 0x80000) : a ≠ inHalfA a := by
  rw [inHalfA, if_neg h]
  omega

/-- A write of a shaper's register in the Plane A half that reaches it. -/
theorem exec_shaperWrite {s : State} {r : Requester} {a : Nat} (v : Nat) (h : s.reaches r a) (ha : inHalfA a = a)
    (hs : isShaper a = true) : exec (.shaperWrite r a v) s = .next (s.writeShaper a v) := by
  simp [exec, execShaperWrite, ha, hs, State.gated_reaches h]

/-- A write of a snare's register in the Plane A half that reaches it. -/
theorem exec_snareWrite {s : State} {r : Requester} {a : Nat} (v : Nat) (h : s.reaches r a) (ha : inHalfA a = a)
    (hs : isSnare a = true) : exec (.snareWrite r a v) s = .next (s.writeSnare a v) := by
  simp [exec, execSnareWrite, ha, hs, State.gated_reaches h]

/-- Through the Plane B half a shaper or a snare takes no write. -/
theorem exec_shaperWrite_halfB {s : State} {r : Requester} {a : Nat} (v : Nat) (h : s.reaches r a) (ha : a ≠ inHalfA a) :
    exec (.shaperWrite r a v) s = .next s := by
  simp [exec, execShaperWrite, ha, State.gated_reaches h]

theorem exec_snareWrite_halfB {s : State} {r : Requester} {a : Nat} (v : Nat) (h : s.reaches r a) (ha : a ≠ inHalfA a) :
    exec (.snareWrite r a v) s = .next s := by
  simp [exec, execSnareWrite, ha, State.gated_reaches h]

namespace State

theorem writeShaper_port (s : State) {p a : Nat} (v : Nat) (hp : p < 256)
    (h : a = rSCH_PSHP_RATE .A p ∨ a = rSCH_PSHP_BURST .A p) : s.writeShaper a v =
      (s.storeReg a v).shReset (SCH_PSHP_RATE_EN .A p) (SCH_PSHP_RATE_RESET_FULL .A p) (SCH_PSHP_BURST_BURST .A p)
        (SCH_PSHP_LEVEL_LEVEL .A p) := by
  simp only [rSCH_PSHP_RATE, rSCH_PSHP_BURST, half] at h
  have hr : rSCH_PSHP_RATE .A 0 ≤ a ∧ a < rSCH_PSHP_RATE .A 256 := by simp only [rSCH_PSHP_RATE, half]; omega
  have hi : (a - rSCH_PSHP_RATE .A 0) / (rSCH_PSHP_RATE .A 1 - rSCH_PSHP_RATE .A 0) = p := by
    simp only [rSCH_PSHP_RATE, half]; omega
  simp only [writeShaper, if_pos hr, hi]

theorem writeShaper_queue (s : State) {q a : Nat} (v : Nat)
    (h : a = rSCH_QSHP_RATE .A q ∨ a = rSCH_QSHP_BURST .A q) : s.writeShaper a v =
      (s.storeReg a v).shReset (SCH_QSHP_RATE_EN .A q) (SCH_QSHP_RATE_RESET_FULL .A q) (SCH_QSHP_BURST_BURST .A q)
        (SCH_QSHP_LEVEL_LEVEL .A q) := by
  simp only [rSCH_QSHP_RATE, rSCH_QSHP_BURST, half] at h
  have hr : ¬ (rSCH_PSHP_RATE .A 0 ≤ a ∧ a < rSCH_PSHP_RATE .A 256) := by simp only [rSCH_PSHP_RATE, half]; omega
  have hi : (a - rSCH_QSHP_RATE .A 0) / (rSCH_QSHP_RATE .A 1 - rSCH_QSHP_RATE .A 0) = q := by
    simp only [rSCH_QSHP_RATE, half]; omega
  simp only [writeShaper, if_neg hr, hi]

/-- A snare's bucket of one plane after a write of its CFG or BURST register. -/
def snareReset (s : State) (pl : Plane) (n : Nat) : State :=
  s.shReset (SCH_SNARE_CFG_EN pl n) (SCH_SNARE_CFG_RESET_FULL pl n) (SCH_SNARE_BURST_BURST pl n) (SCH_SNARE_LEVEL_LEVEL pl n)

theorem writeSnare_snare (s : State) {n a : Nat} (v : Nat) (h : a = rSCH_SNARE_CFG .A n ∨ a = rSCH_SNARE_BURST .A n) :
    s.writeSnare a v = ((s.storeReg a v).snareReset .A n).snareReset .B n := by
  simp only [rSCH_SNARE_CFG, rSCH_SNARE_BURST, half] at h
  have hi : (a - rSCH_SNARE_CFG .A 0) / (rSCH_SNARE_CFG .A 1 - rSCH_SNARE_CFG .A 0) = n := by
    simp only [rSCH_SNARE_CFG, half]; omega
  simp only [writeSnare, hi, List.foldl_cons, List.foldl_nil, snareReset]

end State

end Sys2Proof.Machine
end

section
/-! SUPPORT. Levels after a write, the frame of every bucket's step, and one bucket of bytes (R241). -/

namespace Sys2Proof.Machine
namespace State

/-- After a write of a port shaper's RATE or BURST its level is BURST or 0 and its fraction is cleared. -/
theorem writeShaper_port_reads (s : State) {p a : Nat} (v : Nat) (hp : p < 256)
    (h : a = rSCH_PSHP_RATE .A p ∨ a = rSCH_PSHP_BURST .A p) :
    (s.writeShaper a v).reg a = (s.storeReg a v).reg a ∧
    (s.writeShaper a v).fld (SCH_PSHP_LEVEL_LEVEL .A p) =
      (if (s.writeShaper a v).flag (SCH_PSHP_RATE_EN .A p) = false ∨ (s.writeShaper a v).flag (SCH_PSHP_RATE_RESET_FULL .A p) = true
        then (s.writeShaper a v).fld (SCH_PSHP_BURST_BURST .A p) else 0) ∧
    tabGet 0 (s.writeShaper a v).frac (rSCH_PSHP_LEVEL .A p) = 0 := by
  have hr : rSCH_PSHP_RATE .A p ≠ rSCH_PSHP_LEVEL .A p := by simp only [rSCH_PSHP_RATE, rSCH_PSHP_LEVEL, half]; omega
  have hb : rSCH_PSHP_BURST .A p ≠ rSCH_PSHP_LEVEL .A p := by simp only [rSCH_PSHP_BURST, rSCH_PSHP_LEVEL, half]; omega
  have ha : a ≠ rSCH_PSHP_LEVEL .A p := by rcases h with rfl | rfl <;> assumption
  rw [s.writeShaper_port v hp h]
  exact ⟨reg_shReset_ne _ _ _ _ ha, fld_shReset_level _ hr hr hb (by simp [SCH_PSHP_BURST_BURST, SCH_PSHP_LEVEL_LEVEL])
    (by simp [SCH_PSHP_LEVEL_LEVEL]), frac_shReset_self _ _ _ _ _⟩

/-- The same of a queue shaper. -/
theorem writeShaper_queue_reads (s : State) {q a : Nat} (v : Nat) (h : a = rSCH_QSHP_RATE .A q ∨ a = rSCH_QSHP_BURST .A q) :
    (s.writeShaper a v).reg a = (s.storeReg a v).reg a ∧
    (s.writeShaper a v).fld (SCH_QSHP_LEVEL_LEVEL .A q) =
      (if (s.writeShaper a v).flag (SCH_QSHP_RATE_EN .A q) = false ∨ (s.writeShaper a v).flag (SCH_QSHP_RATE_RESET_FULL .A q) = true
        then (s.writeShaper a v).fld (SCH_QSHP_BURST_BURST .A q) else 0) ∧
    tabGet 0 (s.writeShaper a v).frac (rSCH_QSHP_LEVEL .A q) = 0 := by
  have hr : rSCH_QSHP_RATE .A q ≠ rSCH_QSHP_LEVEL .A q := by simp [rSCH_QSHP_RATE, rSCH_QSHP_LEVEL]
  have hb : rSCH_QSHP_BURST .A q ≠ rSCH_QSHP_LEVEL .A q := by simp [rSCH_QSHP_BURST, rSCH_QSHP_LEVEL]
  have ha : a ≠ rSCH_QSHP_LEVEL .A q := by rcases h with rfl | rfl <;> assumption
  rw [s.writeShaper_queue v h]
  exact ⟨reg_shReset_ne _ _ _ _ ha, fld_shReset_level _ hr hr hb (by simp [SCH_QSHP_BURST_BURST, SCH_QSHP_LEVEL_LEVEL])
    (by simp [SCH_QSHP_LEVEL_LEVEL]), frac_shReset_self _ _ _ _ _⟩

theorem snareCfg_ne_level (pl pl' : Plane) (n : Nat) : rSCH_SNARE_CFG pl n ≠ rSCH_SNARE_LEVEL pl' n := by
  cases pl <;> cases pl' <;> simp only [rSCH_SNARE_CFG, rSCH_SNARE_LEVEL, half] <;> omega

theorem snareBurst_ne_level (pl pl' : Plane) (n : Nat) : rSCH_SNARE_BURST pl n ≠ rSCH_SNARE_LEVEL pl' n := by
  cases pl <;> cases pl' <;> simp only [rSCH_SNARE_BURST, rSCH_SNARE_LEVEL, half] <;> omega

theorem snareLevel_A_ne_B (n : Nat) : rSCH_SNARE_LEVEL .A n ≠ rSCH_SNARE_LEVEL .B n := by
  simp [rSCH_SNARE_LEVEL, half]

theorem fld_snareReset_level (s : State) (pl : Plane) (n : Nat) :
    (s.snareReset pl n).fld (SCH_SNARE_LEVEL_LEVEL pl n) =
      if (s.snareReset pl n).flag (SCH_SNARE_CFG_EN pl n) = false ∨ (s.snareReset pl n).flag (SCH_SNARE_CFG_RESET_FULL pl n) = true
        then (s.snareReset pl n).fld (SCH_SNARE_BURST_BURST pl n) else 0 :=
  fld_shReset_level s (snareCfg_ne_level pl pl n) (snareCfg_ne_level pl pl n) (snareBurst_ne_level pl pl n)
    (by simp [SCH_SNARE_BURST_BURST, SCH_SNARE_LEVEL_LEVEL]) (by simp [SCH_SNARE_LEVEL_LEVEL])

/-- The same of a snare, in both planes. -/
theorem writeSnare_reads (s : State) (pl : Plane) {n a : Nat} (v : Nat) (h : a = rSCH_SNARE_CFG .A n ∨ a = rSCH_SNARE_BURST .A n) :
    (s.writeSnare a v).reg a = (s.storeReg a v).reg a ∧
    (s.writeSnare a v).fld (SCH_SNARE_LEVEL_LEVEL pl n) =
      (if (s.writeSnare a v).flag (SCH_SNARE_CFG_EN pl n) = false ∨ (s.writeSnare a v).flag (SCH_SNARE_CFG_RESET_FULL pl n) = true
        then (s.writeSnare a v).fld (SCH_SNARE_BURST_BURST pl n) else 0) ∧
    tabGet 0 (s.writeSnare a v).frac (rSCH_SNARE_LEVEL pl n) = 0 := by
  have ha (pl : Plane) : a ≠ rSCH_SNARE_LEVEL pl n := by
    rcases h with rfl | rfl
    · exact snareCfg_ne_level .A pl n
    · exact snareBurst_ne_level .A pl n
  rw [s.writeSnare_snare v h]
  refine ⟨(reg_shReset_ne _ _ _ _ (ha .B)).trans (reg_shReset_ne _ _ _ _ (ha .A)), ?_⟩
  generalize s.storeReg a v = u
  cases pl with
  | B => exact ⟨fld_snareReset_level _ .B n, frac_shReset_self _ _ _ _ _⟩
  | A =>
    have hf {f : Fld} (hf : f.addr ≠ rSCH_SNARE_LEVEL .B n) : ((u.snareReset .A n).snareReset .B n).fld f =
        (u.snareReset .A n).fld f := fld_shReset_ne _ _ _ _ hf
    have hg {f : Fld} (hf : f.addr ≠ rSCH_SNARE_LEVEL .B n) : ((u.snareReset .A n).snareReset .B n).flag f =
        (u.snareReset .A n).flag f := flag_shReset_ne _ _ _ _ hf
    rw [hf (snareLevel_A_ne_B n), hg (snareCfg_ne_level .A .B n), hg (snareCfg_ne_level .A .B n), hf (snareBurst_ne_level .A .B n)]
    exact ⟨fld_snareReset_level u .A n, (frac_shReset_ne _ _ _ _ (snareLevel_A_ne_B n)).trans (frac_shReset_self _ _ _ _ _)⟩

/-! ## What token buckets earn (R241) -/

/-- Nothing but levels and fractions of buckets differs, and of them only those whose register or key is in `P`. -/
structure Earns (s t : State) (P : Nat → Prop) : Prop where
  rest : { t with regs := s.regs, frac := s.frac, canTokens := s.canTokens, if4Tokens := s.if4Tokens } = s
  regs : ∀ a, ¬ P a → t.reg a = s.reg a
  frac : ∀ k, ¬ P k → tabGet 0 t.frac k = tabGet 0 s.frac k

namespace Earns

theorem refl (s : State) (P : Nat → Prop) : s.Earns s P := ⟨rfl, fun _ _ => rfl, fun _ _ => rfl⟩

theorem trans {s t u : State} {P : Nat → Prop} (h : s.Earns t P) (k : t.Earns u P) : s.Earns u P := by
  refine ⟨?_, fun a ha => (k.regs a ha).trans (h.regs a ha), fun a ha => (k.frac a ha).trans (h.frac a ha)⟩
  have e := congrArg (fun x : State =>
    { x with regs := s.regs, frac := s.frac, canTokens := s.canTokens, if4Tokens := s.if4Tokens }) k.rest
  exact Eq.trans e h.rest

theorem mono {s t : State} {P Q : Nat → Prop} (h : s.Earns t P) (hpq : ∀ a, P a → Q a) : s.Earns t Q :=
  ⟨h.rest, fun a ha => h.regs a (fun hp => ha (hpq a hp)), fun a ha => h.frac a (fun hp => ha (hpq a hp))⟩

/-- A run of steps that each earn within `P`. -/
theorem foldl {α : Type} {f : State → α → State} {P : Nat → Prop} {l : List α} (h : ∀ s : State, ∀ x ∈ l, s.Earns (f s x) P)
    (s : State) : s.Earns (l.foldl f s) P := by
  induction l generalizing s with
  | nil => exact refl s P
  | cons x l ih =>
    exact (h s x List.mem_cons_self).trans (ih (fun s y hy => h s y (List.mem_cons_of_mem _ hy)) _)

theorem fld {s t : State} {P : Nat → Prop} (h : s.Earns t P) {f : Fld} (hf : ¬ P f.addr) : t.fld f = s.fld f := by
  rw [State.fld, h.regs _ hf, State.fld]

theorem flag {s t : State} {P : Nat → Prop} (h : s.Earns t P) {f : Fld} (hf : ¬ P f.addr) : t.flag f = s.flag f := by
  rw [State.flag, h.fld hf, State.flag]

theorem clk {s t : State} {P : Nat → Prop} (h : s.Earns t P) : t.clk = s.clk := by
  have e := congrArg (fun x : State => x.clk) h.rest
  exact e

theorem tblResult {s t : State} {P : Nat → Prop} (h : s.Earns t P) : t.tblResult = s.tblResult := by
  have e := congrArg (fun x : State => x.tblResult) h.rest
  exact e

/-- A level written beside its fraction. -/
theorem put {s : State} (f : Tab Nat) (level : Fld) (v : Nat) {P : Nat → Prop} (hl : P level.addr)
    (hf : ∀ k, ¬ P k → tabGet 0 f k = tabGet 0 s.frac k) : s.Earns ((s.withFrac f).put level v) P :=
  ⟨rfl, fun _ ha => reg_put_ne _ _ _ (fun e => ha (e ▸ hl)), hf⟩

end Earns

/-! ## Levels of bytes -/

/-- What a bucket of bytes gains in one step. -/
def gained (s : State) (rate : Nat) (level : Fld) : Nat := (tabGet 0 s.frac level.addr + rate) / 1000000

/-- A level as its bucket counts it: a shaper's has a sign. -/
def bucketLevel (s : State) (level : Fld) (signed : Bool) : Int := if signed then s.shLevel level else (s.fld level : Int)

/-- A bucket that reaches BURST is full and keeps no fraction. -/
theorem raise_to_top {s : State} {rate : Nat} {burst level : Fld} {signed : Bool}
    (h : (s.fld burst : Int) ≤ s.bucketLevel level signed + s.gained rate level) : s.raise rate burst level signed =
      (s.withFrac (tabSet 0 (tabSet 0 s.frac level.addr ((tabGet 0 s.frac level.addr + rate) % 1000000)) level.addr 0)).put level
        (s.fld burst) := if_pos h

/-- A bucket below BURST gains whole bytes and keeps the fraction. -/
theorem raise_below_top {s : State} {rate : Nat} {burst level : Fld} {signed : Bool}
    (h : s.bucketLevel level signed + s.gained rate level < (s.fld burst : Int)) : s.raise rate burst level signed =
      (s.withFrac (tabSet 0 s.frac level.addr ((tabGet 0 s.frac level.addr + rate) % 1000000))).put level
        (s.fld level + s.gained rate level) := if_neg (Int.not_le.mpr h)

theorem raise_earns (s : State) (rate : Nat) (burst level : Fld) (signed : Bool) :
    s.Earns (s.raise rate burst level signed) (· = level.addr) := by
  by_cases h : s.bucketLevel level signed + s.gained rate level < (s.fld burst : Int)
  · rw [raise_below_top h]
    exact Earns.put _ level _ rfl fun k hk => tabGet_tabSet_ne _ _ _ hk
  · rw [raise_to_top (Int.not_lt.mp h)]
    exact Earns.put _ level _ rfl fun k hk => (tabGet_tabSet_ne _ _ _ hk).trans (tabGet_tabSet_ne _ _ _ hk)

theorem toSigned32_add {x g b : Nat} (hx : x < 2 ^ 32) (hb : b < 2 ^ 31) (h : toSigned32 x + (g : Int) < (b : Int)) :
    toSigned32 ((x + g) % 2 ^ 32) = toSigned32 x + g := by
  unfold toSigned32 at *
  rw [Nat.mod_mod, Nat.mod_eq_of_lt hx] at *
  split at h <;> split <;> omega

end State
end Sys2Proof.Machine
end

section
/-! SUPPORT. The step of all shapers and snares whose RATE registers are listed; each enabled queue is raised once (R241). -/

namespace Sys2Proof.Machine
namespace State

/-! ## A step of the shapers and snares (R241) -/

/-- The level that the RATE register of an address lets rise. -/
def levelOf (a x : Nat) : Prop :=
  (∃ p < 256, a = rSCH_PSHP_RATE .A p ∧ x = rSCH_PSHP_LEVEL .A p) ∨
    (∃ q < 2048, a = rSCH_QSHP_RATE .A q ∧ x = rSCH_QSHP_LEVEL .A q) ∨
    ∃ pl, ∃ n < 4096, a = rSCH_SNARE_CFG pl n ∧ x = rSCH_SNARE_LEVEL pl n

/-- One plane's snare raised when the address is that of its CFG register. -/
def raiseSnare (s : State) (a : Nat) (pl : Plane) : State :=
  let n := (a - rSCH_SNARE_CFG pl 0) / (rSCH_SNARE_CFG .A 1 - rSCH_SNARE_CFG .A 0)
  if rSCH_SNARE_CFG pl 0 ≤ a ∧ n < 4096 ∧ a = rSCH_SNARE_CFG pl n ∧ s.flag (SCH_SNARE_CFG_EN pl n) then
    s.raise (s.fld (SCH_SNARE_CFG_RATE pl n)) (SCH_SNARE_BURST_BURST pl n) (SCH_SNARE_LEVEL_LEVEL pl n) false
  else s

/-- The queue whose shaper's RATE register an address would be. -/
def queueOf (a : Nat) : Nat := (a - rSCH_QSHP_RATE .A 0) / (rSCH_QSHP_RATE .A 1 - rSCH_QSHP_RATE .A 0)

/-- The port whose shaper's RATE register an address would be. -/
def portOf (a : Nat) : Nat := (a - rSCH_PSHP_RATE .A 0) / (rSCH_PSHP_RATE .A 1 - rSCH_PSHP_RATE .A 0)

/-- A port shaper raised. -/
def raisePort (s : State) (p : Nat) : State :=
  s.raise (s.fld (SCH_PSHP_RATE_RATE .A p)) (SCH_PSHP_BURST_BURST .A p) (SCH_PSHP_LEVEL_LEVEL .A p) true

/-- A queue shaper raised. -/
def raiseQueue (s : State) (q : Nat) : State :=
  s.raise (s.fld (SCH_QSHP_RATE_RATE .A q)) (SCH_QSHP_BURST_BURST .A q) (SCH_QSHP_LEVEL_LEVEL .A q) true

theorem raiseAt_eq (s : State) (a : Nat) : s.raiseAt a =
    if rSCH_PSHP_RATE .A 0 ≤ a ∧ portOf a < 256 ∧ a = rSCH_PSHP_RATE .A (portOf a) ∧ s.flag (SCH_PSHP_RATE_EN .A (portOf a)) then
      s.raisePort (portOf a)
    else if rSCH_QSHP_RATE .A 0 ≤ a ∧ queueOf a < 2048 ∧ a = rSCH_QSHP_RATE .A (queueOf a) ∧
        s.flag (SCH_QSHP_RATE_EN .A (queueOf a)) then s.raiseQueue (queueOf a)
    else (s.raiseSnare a .A).raiseSnare a .B := rfl

theorem raiseSnare_earns (s : State) (a : Nat) (pl : Plane) : s.Earns (s.raiseSnare a pl) (levelOf a) := by
  unfold raiseSnare
  dsimp only
  split
  · next h =>
    obtain ⟨-, hn, ha, -⟩ := h
    refine (raise_earns s _ _ _ _).mono fun x hx => .inr (.inr ⟨pl, _, hn, ha, hx⟩)
  · exact Earns.refl s _

/-- A RATE register's step touches no level but its own. -/
theorem raiseAt_earns (s : State) (a : Nat) : s.Earns (s.raiseAt a) (levelOf a) := by
  rw [raiseAt_eq]
  split
  · next h =>
    obtain ⟨-, hp, ha, -⟩ := h
    exact (raise_earns s _ _ _ _).mono fun x hx => .inl ⟨_, hp, ha, hx⟩
  · split
    · next h =>
      obtain ⟨-, hq, ha, -⟩ := h
      exact (raise_earns s _ _ _ _).mono fun x hx => .inr (.inl ⟨_, hq, ha, hx⟩)
    · exact (raiseSnare_earns s a .A).trans (raiseSnare_earns _ a .B)

theorem raiseAt_queue {s : State} {q : Nat} (hq : q < 2048) (h : s.flag (SCH_QSHP_RATE_EN .A q) = true) :
    s.raiseAt (rSCH_QSHP_RATE .A q) = s.raiseQueue q := by
  have hi : queueOf (rSCH_QSHP_RATE .A q) = q := by simp only [queueOf, rSCH_QSHP_RATE, half]; omega
  have hp : ¬ portOf (rSCH_QSHP_RATE .A q) < 256 := by simp only [portOf, rSCH_QSHP_RATE, rSCH_PSHP_RATE, half]; omega
  have hl : rSCH_QSHP_RATE .A 0 ≤ rSCH_QSHP_RATE .A q := by simp only [rSCH_QSHP_RATE]; omega
  rw [raiseAt_eq, if_neg (fun h => hp h.2.1), hi, if_pos ⟨hl, hq, rfl, h⟩]

/-- Only its RATE register lets a queue shaper's level rise. -/
theorem eq_rate_of_levelOf {a q : Nat} (hq : q < 2048) (h : levelOf a (rSCH_QSHP_LEVEL .A q)) : a = rSCH_QSHP_RATE .A q := by
  obtain ⟨p, hp, -, hx⟩ | ⟨q', hq', ha, hx⟩ | ⟨pl, n, hn, -, hx⟩ := h
  · simp only [rSCH_QSHP_LEVEL, rSCH_PSHP_LEVEL, half] at hx; omega
  · have he : q' = q := by simp only [rSCH_QSHP_LEVEL, half] at hx; omega
    rw [ha, he]
  · cases pl <;> simp only [rSCH_QSHP_LEVEL, rSCH_SNARE_LEVEL, half] at hx <;> omega

theorem not_levelOf_rate (a : Nat) {q : Nat} (hq : q < 2048) : ¬ levelOf a (rSCH_QSHP_RATE .A q) := by
  rintro (⟨p, hp, -, hx⟩ | ⟨q', hq', -, hx⟩ | ⟨pl, n, hn, -, hx⟩)
  · simp only [rSCH_QSHP_RATE, rSCH_PSHP_LEVEL, half] at hx; omega
  · simp only [rSCH_QSHP_RATE, rSCH_QSHP_LEVEL, half] at hx; omega
  · cases pl <;> simp only [rSCH_QSHP_RATE, rSCH_SNARE_LEVEL, half] at hx <;> omega

theorem not_levelOf_burst (a : Nat) {q : Nat} (hq : q < 2048) : ¬ levelOf a (rSCH_QSHP_BURST .A q) := by
  rintro (⟨p, hp, -, hx⟩ | ⟨q', hq', -, hx⟩ | ⟨pl, n, hn, -, hx⟩)
  · simp only [rSCH_QSHP_BURST, rSCH_PSHP_LEVEL, half] at hx; omega
  · simp only [rSCH_QSHP_BURST, rSCH_QSHP_LEVEL, half] at hx; omega
  · cases pl <;> simp only [rSCH_QSHP_BURST, rSCH_SNARE_LEVEL, half] at hx <;> omega

/-- Every level lies in the block of the schedulers. -/
theorem levelOf_block {a x : Nat} (h : levelOf a x) : x / 0x100000 = 0xB := by
  obtain ⟨p, hp, -, rfl⟩ | ⟨q, hq, -, rfl⟩ | ⟨pl, n, hn, -, rfl⟩ := h
  · simp only [rSCH_PSHP_LEVEL, half]; omega
  · simp only [rSCH_QSHP_LEVEL, half]; omega
  · cases pl <;> simp only [rSCH_SNARE_LEVEL, half] <;> omega

end State

/-! ## Registers that are enabled are listed -/

theorem specAt_mem {a : Nat} {g : RegSpec} (h : specAt a = some g) : g ∈ blockRegs a := List.mem_of_find?_eq_some h

theorem resetValue_sch {a : Nat} (h : a / 0x100000 = 0xB) : bits (resetValue a).toNat 31 1 = 0 := by
  have hb : blockRegs a = regsSCH := by simp [blockRegs, h]
  have hall : ∀ g ∈ regsSCH, g.reset < 2 ^ 31 ∧ g.base ≠ rBPM_POOL_HEAD .A 0 ∧ g.base ≠ rTIM_TB_CTL 0 := by decide
  unfold resetValue
  split
  · decide
  · next g hg =>
    obtain ⟨hr, h1, h2⟩ := hall g (hb ▸ specAt_mem hg)
    rw [if_neg h1, if_neg (fun h => h2 h.1), BitVec.toNat_ofNat, Nat.mod_eq_of_lt (by omega)]
    simp only [bits]
    omega

namespace State

/-- A queue shaper that is enabled has its RATE register listed in the register file. -/
theorem rate_mem_of_enabled {s : State} {q : Nat} (hq : q < 2048) (h : s.flag (SCH_QSHP_RATE_EN .A q) = true) :
    rSCH_QSHP_RATE .A q ∈ s.regs.map (fun e => e.1) := by
  cases hf : tabFind s.regs (rSCH_QSHP_RATE .A q) with
  | some w => exact List.mem_map.mpr ⟨_, mem_of_tabFind hf, rfl⟩
  | none =>
    have hr : s.reg (rSCH_QSHP_RATE .A q) = resetValue (rSCH_QSHP_RATE .A q) := by rw [reg, hf]
    have hb : rSCH_QSHP_RATE .A q / 0x100000 = 0xB := by simp only [rSCH_QSHP_RATE, half]; omega
    have h0 : s.fld (SCH_QSHP_RATE_EN .A q) = 0 := (congrArg (fun w : Word => bits w.toNat 31 1) hr).trans (resetValue_sch hb)
    rw [flag, h0] at h
    cases h

theorem regs_keys_nodup {s : State} (h : s.Inv) : (s.regs.map (fun e => e.1)).Nodup := by
  have hs : tabSorted s.regs = true := (Bool.and_eq_true_iff.mp h.regs).1
  exact List.pairwise_map.mpr (((tabSorted_iff _).mp hs).imp fun hlt => Nat.ne_of_lt hlt)

/-! ## Every shaper and snare raised -/

/-- Every shaper and snare whose RATE register is listed, raised. -/
def raiseListed (s : State) (l : List Nat) : State := l.foldl raiseAt s

theorem raiseListed_earns (s : State) (l : List Nat) : s.Earns (s.raiseListed l) (fun x => ∃ a ∈ l, levelOf a x) :=
  Earns.foldl (fun s a ha => (raiseAt_earns s a).mono fun _ hx => ⟨a, ha, hx⟩) s

/-- What a step leaves of a queue shaper's level and fraction, by what it had before. -/
structure QueueRaised (s t : State) (q : Nat) : Prop where
  below : s.shLevel (SCH_QSHP_LEVEL_LEVEL .A q) + s.gained (s.fld (SCH_QSHP_RATE_RATE .A q)) (SCH_QSHP_LEVEL_LEVEL .A q) <
      (s.fld (SCH_QSHP_BURST_BURST .A q) : Int) →
    t.shLevel (SCH_QSHP_LEVEL_LEVEL .A q) = s.shLevel (SCH_QSHP_LEVEL_LEVEL .A q) +
        s.gained (s.fld (SCH_QSHP_RATE_RATE .A q)) (SCH_QSHP_LEVEL_LEVEL .A q) ∧
      tabGet 0 t.frac (rSCH_QSHP_LEVEL .A q) =
        (tabGet 0 s.frac (rSCH_QSHP_LEVEL .A q) + s.fld (SCH_QSHP_RATE_RATE .A q)) % 1000000
  top : (s.fld (SCH_QSHP_BURST_BURST .A q) : Int) ≤
      s.shLevel (SCH_QSHP_LEVEL_LEVEL .A q) + s.gained (s.fld (SCH_QSHP_RATE_RATE .A q)) (SCH_QSHP_LEVEL_LEVEL .A q) →
    t.fld (SCH_QSHP_LEVEL_LEVEL .A q) = s.fld (SCH_QSHP_BURST_BURST .A q) ∧ tabGet 0 t.frac (rSCH_QSHP_LEVEL .A q) = 0

/-- One step of a queue shaper's bucket. -/
theorem raiseQueue_raised (s : State) (q : Nat) : s.QueueRaised (s.raiseQueue q) q := by
  have hw : (SCH_QSHP_LEVEL_LEVEL .A q).lsb + (SCH_QSHP_LEVEL_LEVEL .A q).wid ≤ 32 := by simp [SCH_QSHP_LEVEL_LEVEL]
  have hburst : s.fld (SCH_QSHP_BURST_BURST .A q) < 2 ^ 24 := bits_lt _ _ _
  refine ⟨fun h => ?_, fun h => ?_⟩
  · rw [raiseQueue, raise_below_top (signed := true) h]
    refine ⟨?_, by rw [put_frac, frac_withFrac]; exact tabGet_tabSet_self _ _ _ _⟩
    rw [shLevel, fld_put_self _ _ _ hw]
    exact toSigned32_add (bits_lt _ _ _) (by omega) h
  · rw [raiseQueue, raise_to_top (signed := true) h]
    refine ⟨?_, by rw [put_frac, frac_withFrac]; exact tabGet_tabSet_self _ _ _ _⟩
    rw [fld_put_self _ _ _ hw]
    exact Nat.mod_eq_of_lt (Nat.lt_trans hburst (by simp [SCH_QSHP_LEVEL_LEVEL]))

/-- What a queue's registers and fraction hold decides its step. -/
theorem QueueRaised.congr {s s' t t' : State} {q : Nat} (h : s.QueueRaised t q)
    (hr : s'.reg (rSCH_QSHP_RATE .A q) = s.reg (rSCH_QSHP_RATE .A q))
    (hb : s'.reg (rSCH_QSHP_BURST .A q) = s.reg (rSCH_QSHP_BURST .A q))
    (hl : s'.reg (rSCH_QSHP_LEVEL .A q) = s.reg (rSCH_QSHP_LEVEL .A q))
    (hf : tabGet 0 s'.frac (rSCH_QSHP_LEVEL .A q) = tabGet 0 s.frac (rSCH_QSHP_LEVEL .A q))
    (hl' : t'.reg (rSCH_QSHP_LEVEL .A q) = t.reg (rSCH_QSHP_LEVEL .A q))
    (hf' : tabGet 0 t'.frac (rSCH_QSHP_LEVEL .A q) = tabGet 0 t.frac (rSCH_QSHP_LEVEL .A q)) : s'.QueueRaised t' q := by
  have er : s'.fld (SCH_QSHP_RATE_RATE .A q) = s.fld (SCH_QSHP_RATE_RATE .A q) := congrArg (fun w : Word => bits w.toNat 0 25) hr
  have eb : s'.fld (SCH_QSHP_BURST_BURST .A q) = s.fld (SCH_QSHP_BURST_BURST .A q) :=
    congrArg (fun w : Word => bits w.toNat 0 24) hb
  have el : s'.fld (SCH_QSHP_LEVEL_LEVEL .A q) = s.fld (SCH_QSHP_LEVEL_LEVEL .A q) :=
    congrArg (fun w : Word => bits w.toNat 0 32) hl
  have el' : t'.fld (SCH_QSHP_LEVEL_LEVEL .A q) = t.fld (SCH_QSHP_LEVEL_LEVEL .A q) :=
    congrArg (fun w : Word => bits w.toNat 0 32) hl'
  have eg : s'.gained (s'.fld (SCH_QSHP_RATE_RATE .A q)) (SCH_QSHP_LEVEL_LEVEL .A q) =
      s.gained (s.fld (SCH_QSHP_RATE_RATE .A q)) (SCH_QSHP_LEVEL_LEVEL .A q) := by
    rw [er]
    exact congrArg (fun n => (n + s.fld (SCH_QSHP_RATE_RATE .A q)) / 1000000) hf
  obtain ⟨hbelow, htop⟩ := h
  refine ⟨?_, ?_⟩
  · rw [eg, shLevel, shLevel, el, el', eb, hf, hf', er]
    exact hbelow
  · rw [eg, shLevel, el, el', eb, hf']
    exact htop

/-- Among the registers raised, a queue's RATE register stands once, and it alone raises the queue. -/
theorem raiseListed_queue {s : State} {l : List Nat} {q : Nat} (hq : q < 2048) (hn : l.Nodup)
    (hm : rSCH_QSHP_RATE .A q ∈ l) (he : s.flag (SCH_QSHP_RATE_EN .A q) = true) : s.QueueRaised (s.raiseListed l) q := by
  obtain ⟨l1, l2, rfl⟩ := List.append_of_mem hm
  obtain ⟨-, hn2, hdisj⟩ := List.nodup_append.mp hn
  have hnot : rSCH_QSHP_RATE .A q ∉ l1 ++ l2 := fun hm => (List.mem_append.mp hm).elim
    (fun h1 => hdisj _ h1 _ List.mem_cons_self rfl) (List.nodup_cons.mp hn2).1
  have other (l' : List Nat) (hl : ∀ a ∈ l', a ∈ l1 ++ l2) : ¬ ∃ a ∈ l', levelOf a (rSCH_QSHP_LEVEL .A q) :=
    fun ⟨a, ha, hx⟩ => hnot (eq_rate_of_levelOf hq hx ▸ hl a ha)
  have rate (l' : List Nat) : ¬ ∃ a ∈ l', levelOf a (rSCH_QSHP_RATE .A q) := fun ⟨a, _, hx⟩ => not_levelOf_rate a hq hx
  have burst (l' : List Nat) : ¬ ∃ a ∈ l', levelOf a (rSCH_QSHP_BURST .A q) := fun ⟨a, _, hx⟩ => not_levelOf_burst a hq hx
  have h1 := raiseListed_earns s l1
  have hrun : s.raiseListed (l1 ++ rSCH_QSHP_RATE .A q :: l2) = ((s.raiseListed l1).raiseQueue q).raiseListed l2 := by
    have hen : (s.raiseListed l1).flag (SCH_QSHP_RATE_EN .A q) = true := (h1.flag (rate l1)).trans he
    rw [raiseListed, List.foldl_append, List.foldl_cons]
    exact congrArg (fun u : State => l2.foldl raiseAt u) (raiseAt_queue hq hen)
  have h2 := raiseListed_earns ((s.raiseListed l1).raiseQueue q) l2
  have o1 := other l1 fun a ha => List.mem_append_left _ ha
  have o2 := other l2 fun a ha => List.mem_append_right _ ha
  rw [hrun]
  exact (raiseQueue_raised (s.raiseListed l1) q).congr (h1.regs _ (rate l1)).symm (h1.regs _ (burst l1)).symm
    (h1.regs _ o1).symm (h1.frac _ o1).symm (h2.regs _ o2) (h2.frac _ o2)

end State
end Sys2Proof.Machine
end

section
/-! SUPPORT. What a step of the placement clock does to the tables: a command's end, the copy walk, spare page frames (R172, R226, R332). -/

namespace Sys2Proof.Machine
namespace State

/-! ## What a step does beside the buckets: table commands, the copy walk of REJOIN, spare page frames -/

theorem tblComplete_none {s : State} (h : s.tblResult = none) : s.tblComplete = s := by simp [tblComplete, h]

/-- No completion waits any more, and the filters that a rebuild left are in use. -/
def withoutResult (s : State) : State :=
  { s with tblResult := none, planeA := s.planeA.bloomSwap, planeB := s.planeB.bloomSwap }

theorem reg_withoutResult (s : State) (a : Nat) : s.withoutResult.reg a = s.reg a := rfl
theorem fld_withoutResult (s : State) (f : Fld) : s.withoutResult.fld f = s.fld f := rfl
theorem clk_withoutResult (s : State) : s.withoutResult.clk = s.clk := rfl
theorem frac_withoutResult (s : State) : s.withoutResult.frac = s.frac := rfl
theorem tblResult_withoutResult (s : State) : s.withoutResult.tblResult = none := rfl

/-- A table command completes: STATUS, BUSY at 0, the event. -/
theorem tblComplete_some {s : State} {st : Nat} (h : s.tblResult = some st) : s.tblComplete =
    (((s.put (TBL_CMD_STATUS .A) st).put (TBL_CMD_BUSY .A) 0).setFlag (TBL_EVT_CMD_DONE .A)).withoutResult := by
  simp only [tblComplete, h, withoutResult]

theorem fld_tblComplete {s : State} {st : Nat} (h : s.tblResult = some st) (f : Fld) : s.tblComplete.fld f =
    (((s.put (TBL_CMD_STATUS .A) st).put (TBL_CMD_BUSY .A) 0).put (TBL_EVT_CMD_DONE .A) 1).fld f := by
  rw [tblComplete_some h, fld_withoutResult, setFlag_eq]

/-- A waiting completion shows its STATUS with BUSY at 0, and the event. -/
theorem tblComplete_shows {s : State} {st : Nat} (h : s.tblResult = some st) :
    s.tblComplete.fld (TBL_CMD_STATUS .A) = st % 16 ∧ s.tblComplete.flag (TBL_CMD_BUSY .A) = false ∧
      s.tblComplete.flag (TBL_EVT_CMD_DONE .A) = true := by
  have hne : rTBL_CMD .A ≠ rTBL_EVT .A := by decide
  refine ⟨?_, ?_, ?_⟩
  · rw [fld_tblComplete h, fld_put_addr _ _ hne, fld_put_beside _ _ (by decide) (by decide), fld_put_self _ _ _ (by decide)]
    rfl
  · rw [flag, fld_tblComplete h, fld_put_addr _ _ hne, fld_put_self _ _ _ (by decide)]
    rfl
  · rw [flag, fld_tblComplete h, fld_put_self _ _ _ (by decide)]
    rfl

theorem tblResult_tblComplete (s : State) : s.tblComplete.tblResult = none := by
  cases h : s.tblResult with
  | none => rw [tblComplete_none h, h]
  | some st => rw [tblComplete_some h, tblResult_withoutResult]

theorem clk_tblComplete (s : State) : s.tblComplete.clk = s.clk := by
  cases h : s.tblResult with
  | none => rw [tblComplete_none h]
  | some st => rw [tblComplete_some h, clk_withoutResult, setFlag_eq, put_clk, put_clk, put_clk]

theorem frac_tblComplete (s : State) : s.tblComplete.frac = s.frac := by
  cases h : s.tblResult with
  | none => rw [tblComplete_none h]
  | some st => rw [tblComplete_some h, frac_withoutResult, setFlag_eq, put_frac, put_frac, put_frac]

theorem regsBut_tblComplete (s : State) : s.RegsBut s.tblComplete [rTBL_CMD .A, rTBL_EVT .A] := by
  cases h : s.tblResult with
  | none => rw [tblComplete_none h]; exact RegsBut.refl s _
  | some st =>
    rw [tblComplete_some h]
    have hr : s.RegsBut (((s.put (TBL_CMD_STATUS .A) st).put (TBL_CMD_BUSY .A) 0).setFlag (TBL_EVT_CMD_DONE .A))
        [rTBL_CMD .A, rTBL_EVT .A] := (((RegsBut.refl s _).put _ (by decide)).put _ (by decide)).put _ (by decide)
    exact fun a ha => (reg_withoutResult _ a).trans (hr a ha)

/-- The registers that the upkeep of the tables counts in. -/
def evictCounters : List Nat := [rTBL_PAGE_EVICT_CNT .A, rTBL_PAGE_EVICT_CNT .B]

/-- Work on the tables beside their commands: the clock, the fractions, a waiting completion and every register but the counters
of evicted pages stay. -/
structure Upkeep (s t : State) : Prop where
  clk : t.clk = s.clk
  frac : t.frac = s.frac
  tblResult : t.tblResult = s.tblResult
  regs : s.RegsBut t evictCounters

namespace Upkeep

theorem refl (s : State) : s.Upkeep s := ⟨rfl, rfl, rfl, RegsBut.refl s _⟩

theorem trans {s t u : State} (h : s.Upkeep t) (k : t.Upkeep u) : s.Upkeep u :=
  ⟨k.clk.trans h.clk, k.frac.trans h.frac, k.tblResult.trans h.tblResult, h.regs.trans k.regs⟩

theorem foldl {α : Type} {f : State → α → State} (h : ∀ (s : State) (x : α), s.Upkeep (f s x)) (l : List α) (s : State) :
    s.Upkeep (l.foldl f s) := by
  induction l generalizing s with
  | nil => exact refl s
  | cons x l ih => exact (h s x).trans (ih _)

theorem setPlane {s t : State} (h : s.Upkeep t) (pl : Plane) (p : PlaneSt) : s.Upkeep (t.setPlane pl p) := by
  cases pl <;> exact ⟨h.clk, h.frac, h.tblResult, h.regs⟩

theorem inc {s t : State} (h : s.Upkeep t) {f : Fld} (hf : f.addr ∈ evictCounters) : s.Upkeep (t.inc f) :=
  ⟨h.clk, h.frac, h.tblResult, h.regs.put _ hf⟩

end Upkeep

/-- The copy walk at a place. -/
def walkedTo (s : State) (n : Nat) : State := { s with resyncPos := n }

theorem walkedTo_upkeep (s : State) (n : Nat) : s.Upkeep (s.walkedTo n) := ⟨rfl, rfl, rfl, fun _ _ => rfl⟩

theorem mirrorWalk_upkeep (s : State) : s.Upkeep s.mirrorWalk := by
  unfold mirrorWalk
  split
  · split
    · exact (Upkeep.refl s).setPlane _ _
    · exact Upkeep.refl s
  · exact Upkeep.refl s

theorem walkOn_upkeep (s : State) : s.Upkeep s.walkOn := by
  unfold walkOn
  split
  · split
    · exact (s.walkedTo_upkeep (min (s.resyncPos + 1) 196608)).trans (mirrorWalk_upkeep _)
    · exact Upkeep.refl s
  · exact Upkeep.refl s

theorem walkOn_idle {s : State} (h : s.redBusy = none) : s.walkOn = s := by simp [walkOn, h]

/-- Another content of LPDDR. -/
def withLpddr (s : State) (m : Mem) : State := { s with lpddr := m }

theorem withLpddr_upkeep (s : State) (m : Mem) : s.Upkeep (s.withLpddr m) := ⟨rfl, rfl, rfl, fun _ _ => rfl⟩

/-- A page leaves its frame for LPDDR and is counted, if there is one. -/
theorem evict_cases (s : State) (pl : Plane) (ri f : Nat) : s.evict pl ri f = s ∨
    ∃ m p, s.evict pl ri f = ((s.withLpddr m).setPlane pl p).inc (TBL_PAGE_EVICT_CNT_VAL pl) := by
  unfold evict
  dsimp only
  split
  · exact .inl rfl
  · split
    · exact .inl rfl
    · exact .inr ⟨_, _, rfl⟩

theorem evict_upkeep (s : State) (pl : Plane) (ri f : Nat) : s.Upkeep (s.evict pl ri f) := by
  rcases s.evict_cases pl ri f with h | ⟨m, p, h⟩
  · rw [h]; exact Upkeep.refl s
  · rw [h]
    exact ((s.withLpddr_upkeep m).setPlane pl p).inc (by cases pl <;> simp [TBL_PAGE_EVICT_CNT_VAL, evictCounters])

theorem keepSpare_upkeep (s : State) (pl : Plane) (ri fuel : Nat) : s.Upkeep (s.keepSpare pl ri fuel) := by
  induction fuel generalizing s with
  | zero => exact Upkeep.refl s
  | succ fuel ih =>
    rw [keepSpare]
    dsimp only
    split
    · exact Upkeep.refl s
    · split
      · exact Upkeep.refl s
      · split
        · exact (((Upkeep.refl s).setPlane _ _).trans (evict_upkeep _ _ _ _)).trans (ih _)
        · exact (Upkeep.refl s).setPlane _ _

theorem keepSpares_upkeep (s : State) : s.Upkeep s.keepSpares := by
  unfold keepSpares
  refine Upkeep.foldl (fun s pl => ?_) _ s
  refine Upkeep.foldl (fun s x => ?_) _ s
  exact keepSpare_upkeep s pl x.2 256

/-- Without spare page frames to keep nothing is evicted. -/
theorem keepSpare_none {s : State} (h : s.fld PLC_PAGE_CFG_SPARE = 0) (pl : Plane) (ri fuel : Nat) : s.keepSpare pl ri fuel = s := by
  cases fuel with
  | zero => rfl
  | succ fuel =>
    rw [keepSpare]
    dsimp only
    split
    · rfl
    · exact if_pos (h ▸ Nat.zero_le _)

/-- A run of steps that each leave the state. -/
theorem foldl_unchanged {α : Type} {f : State → α → State} {s : State} (h : ∀ x, f s x = s) (l : List α) : l.foldl f s = s := by
  induction l with
  | nil => rfl
  | cons x l ih => rw [List.foldl_cons, h, ih]

theorem keepSpares_none {s : State} (h : s.fld PLC_PAGE_CFG_SPARE = 0) : s.keepSpares = s :=
  foldl_unchanged (fun pl => foldl_unchanged (fun x => keepSpare_none h pl x.2 256) _) _

end State
end Sys2Proof.Machine
end

section
/-! SUPPORT. The limiters of frames, and the whole step of 8 ns (R130, R241). -/

namespace Sys2Proof.Machine
namespace State

/-! ## The buckets of frames (R130, R405, R408) -/

theorem raiseFrames_cases (s : State) (key rate level burst : Nat) (put : State → Nat → State) :
    ∃ f n, s.raiseFrames key rate level burst put = put (s.withFrac (tabSet 0 s.frac key f)) n := by
  unfold raiseFrames
  dsimp only
  split
  · exact ⟨_, _, rfl⟩
  · exact ⟨_, _, rfl⟩

/-- A bucket that holds at most BURST frames gains up to BURST. -/
theorem raiseFrames_of_le {s : State} {key rate level burst : Nat} (put : State → Nat → State) (h : level ≤ burst) :
    ∃ f, s.raiseFrames key rate level burst put =
      put (s.withFrac (tabSet 0 s.frac key f)) (min burst (level + (tabGet 0 s.frac key + rate) / 125000000)) := by
  unfold raiseFrames
  dsimp only [stepGain]
  split
  · next ht => exact ⟨_, by rw [Nat.max_eq_right h, Nat.min_eq_left ht]; rfl⟩
  · next ht => exact ⟨_, by rw [Nat.min_eq_right (Nat.le_of_not_le ht)]; rfl⟩

theorem raiseFrames_earns {s : State} {key rate level burst : Nat} {put : State → Nat → State} {P : Nat → Prop} (hk : P key)
    (hp : ∀ (t : State) n, t.Earns (put t n) P) : s.Earns (s.raiseFrames key rate level burst put) P := by
  obtain ⟨f, n, h⟩ := s.raiseFrames_cases key rate level burst put
  have hf : s.Earns (s.withFrac (tabSet 0 s.frac key f)) P :=
    ⟨rfl, fun _ _ => rfl, fun k hn => tabGet_tabSet_ne _ _ _ (fun e => hn (e ▸ hk))⟩
  rw [h]
  exact hf.trans (hp _ n)

/-- The exception limiter of the LEAD plane raised. -/
def raiseExc (s : State) : State :=
  s.raiseFrames (rPRS_EXC_LEVEL .A) (s.fld (PRS_EXC_RATE_RATE s.lead)) (s.fld (PRS_EXC_LEVEL_TOKENS s.lead))
    (s.fld (PRS_EXC_BURST_BURST s.lead)) (fun t n => t.put (PRS_EXC_LEVEL_TOKENS s.lead) n)

/-- Tokens of the IF4 limiter. -/
def withIf4 (s : State) (n : Nat) : State := { s with if4Tokens := n }

/-- The IF4 limiter raised. -/
def raiseIf4 (s : State) : State :=
  s.raiseFrames 0x3FFFFFF (s.fld FWL_EXC_RATE_RATE) s.if4Tokens (s.fld FWL_EXC_BURST_BURST) withIf4

/-- Every CAN rate entry that is not full raised. -/
def raiseCans (s : State) : State := (s.canTokens.map (fun e => e.1)).foldl raiseCan s

/-- What the limiters of frames count in. -/
def limiterKey (x : Nat) : Prop := x = rPRS_EXC_LEVEL .A ∨ x = rPRS_EXC_LEVEL .B ∨ 0x3FFFFFF ≤ x

theorem raiseExc_earns (s : State) : s.Earns s.raiseExc limiterKey := by
  have hl (pl : Plane) : limiterKey (rPRS_EXC_LEVEL pl) := by
    cases pl
    · exact .inl rfl
    · exact .inr (.inl rfl)
  exact raiseFrames_earns (.inl rfl) fun t n =>
    ⟨rfl, fun a ha => reg_put_ne _ _ _ (fun e => ha (e ▸ hl s.lead)), fun _ _ => rfl⟩

theorem raiseIf4_earns (s : State) : s.Earns s.raiseIf4 (0x3FFFFFF ≤ ·) :=
  raiseFrames_earns (Nat.le_refl _) fun _ _ => ⟨rfl, fun _ _ => rfl, fun _ _ => rfl⟩

theorem raiseCan_earns (s : State) (k : Nat) : s.Earns (s.raiseCan k) (0x3FFFFFF ≤ ·) := by
  unfold raiseCan
  exact raiseFrames_earns (by omega) fun _ _ => ⟨rfl, fun _ _ => rfl, fun _ _ => rfl⟩

theorem raiseCans_earns (s : State) : s.Earns s.raiseCans (0x3FFFFFF ≤ ·) :=
  Earns.foldl (fun s k _ => raiseCan_earns s k) s

/-- The exception limiter's level after its step. -/
theorem fld_raiseExc {s : State} (h : s.fld (PRS_EXC_LEVEL_TOKENS s.lead) ≤ s.fld (PRS_EXC_BURST_BURST s.lead)) :
    s.raiseExc.fld (PRS_EXC_LEVEL_TOKENS s.lead) = min (s.fld (PRS_EXC_BURST_BURST s.lead))
      (s.fld (PRS_EXC_LEVEL_TOKENS s.lead) +
        (tabGet 0 s.frac (rPRS_EXC_LEVEL .A) + s.fld (PRS_EXC_RATE_RATE s.lead)) / 125000000) := by
  have hb : s.fld (PRS_EXC_BURST_BURST s.lead) < 2 ^ 13 := bits_lt _ _ _
  obtain ⟨f, he⟩ := raiseFrames_of_le (key := rPRS_EXC_LEVEL .A) (rate := s.fld (PRS_EXC_RATE_RATE s.lead))
    (fun t n => t.put (PRS_EXC_LEVEL_TOKENS s.lead) n) h
  rw [raiseExc, he, fld_put_self _ _ _ (by simp [PRS_EXC_LEVEL_TOKENS])]
  exact Nat.mod_eq_of_lt (Nat.lt_of_le_of_lt (Nat.min_le_left _ _) hb)

/-! ## The whole step -/

/-- The placement clock one step on, with the ends of Belfry's edges. -/
def clockOn (s : State) : State := ({ s with clk := (s.clk + 8) % 2 ^ 64 } : State).edgesEnd

/-- What a step does before its buckets. -/
def beforeBuckets (s : State) : State := s.clockOn.tblComplete.walkOn.keepSpares

theorem tokenStep_eq (s : State) :
    s.tokenStep = ((s.beforeBuckets.raiseListed (s.regs.map (fun e => e.1))).raiseExc.raiseIf4).raiseCans := rfl

theorem reg_clockOn (s : State) (a : Nat) : s.clockOn.reg a = s.reg a := rfl

theorem clk_beforeBuckets (s : State) : s.beforeBuckets.clk = (s.clk + 8) % 2 ^ 64 := by
  rw [beforeBuckets, (keepSpares_upkeep _).clk, (walkOn_upkeep _).clk, clk_tblComplete]
  rfl

theorem frac_beforeBuckets (s : State) : s.beforeBuckets.frac = s.frac := by
  rw [beforeBuckets, (keepSpares_upkeep _).frac, (walkOn_upkeep _).frac, frac_tblComplete]
  rfl

theorem tblResult_beforeBuckets (s : State) : s.beforeBuckets.tblResult = none := by
  rw [beforeBuckets, (keepSpares_upkeep _).tblResult, (walkOn_upkeep _).tblResult, tblResult_tblComplete]

/-- Registers that neither a table command's end nor an evicted page writes. -/
theorem reg_beforeBuckets (s : State) {a : Nat} (h : a ∉ [rTBL_CMD .A, rTBL_EVT .A]) (hc : a ∉ evictCounters) :
    s.beforeBuckets.reg a = s.reg a := by
  rw [beforeBuckets, (keepSpares_upkeep _).regs a hc, (walkOn_upkeep _).regs a hc, regsBut_tblComplete _ a h, reg_clockOn]

/-- Any register outside the tables' block. -/
theorem reg_beforeBuckets_block (s : State) {a : Nat} (h : a / 0x100000 ≠ 9) : s.beforeBuckets.reg a = s.reg a := by
  have h9 : ∀ b ∈ [rTBL_CMD .A, rTBL_EVT .A] ++ evictCounters, b / 0x100000 = 9 := by decide
  exact s.reg_beforeBuckets (fun hm => h (h9 a (List.mem_append_left _ hm))) (fun hm => h (h9 a (List.mem_append_right _ hm)))

theorem fld_beforeBuckets_block (s : State) {f : Fld} (h : f.addr / 0x100000 ≠ 9) : s.beforeBuckets.fld f = s.fld f := by
  rw [fld, s.reg_beforeBuckets_block h, fld]

/-- With no table command, no copy walk and no spare page frames a step only counts its clock before the buckets. -/
theorem beforeBuckets_idle {s : State} (ht : s.tblResult = none) (hr : s.redBusy = none) (hp : s.fld PLC_PAGE_CFG_SPARE = 0) :
    s.beforeBuckets = s.clockOn := by
  have h1 : s.clockOn.tblComplete = s.clockOn := tblComplete_none ht
  have h2 : s.clockOn.walkOn = s.clockOn := walkOn_idle hr
  rw [beforeBuckets, h1, h2]
  exact keepSpares_none hp

/-- What the buckets count in: levels of shapers and snares, and the limiters of frames. -/
def bucketKey (x : Nat) : Prop := x / 0x100000 = 0xB ∨ limiterKey x

theorem limiters_earn (s : State) : s.Earns (s.raiseExc.raiseIf4).raiseCans limiterKey :=
  (s.raiseExc_earns.trans ((raiseIf4_earns _).mono fun _ h => .inr (.inr h))).trans
    ((raiseCans_earns _).mono fun _ h => .inr (.inr h))

theorem tokenStep_earns (s : State) : s.beforeBuckets.Earns s.tokenStep bucketKey := by
  rw [tokenStep_eq]
  refine Earns.trans ((raiseListed_earns _ _).mono ?_) ((limiters_earn _).mono fun x hx => .inr hx)
  rintro x ⟨a, -, hx⟩
  exact .inl (levelOf_block hx)

/-- The clause of O36 on a waiting table command. -/
theorem tokenStep_completes {s : State} {st : Nat} (h : s.tblResult = some st) :
    s.tokenStep.tblResult = none ∧ s.tokenStep.fld (TBL_CMD_STATUS .A) = st % 16 ∧ s.tokenStep.flag (TBL_CMD_BUSY .A) = false ∧
      s.tokenStep.flag (TBL_EVT_CMD_DONE .A) = true := by
  have key {a : Nat} (ha : a ∈ [rTBL_CMD .A, rTBL_EVT .A]) : s.tokenStep.reg a = s.clockOn.tblComplete.reg a := by
    have h9 : ∀ b ∈ [rTBL_CMD .A, rTBL_EVT .A], b / 0x100000 = 9 ∧ b < 0x1000000 ∧ b ∉ evictCounters := by decide
    obtain ⟨hb, hl, hc⟩ := h9 a ha
    have hn : ¬ bucketKey a := by
      rintro (h' | h' | h' | h')
      · omega
      · rw [h'] at hb; revert hb; decide
      · rw [h'] at hb; revert hb; decide
      · omega
    rw [s.tokenStep_earns.regs a hn, beforeBuckets, (keepSpares_upkeep _).regs a hc, (walkOn_upkeep _).regs a hc]
  obtain ⟨h1, h2, h3⟩ := tblComplete_shows (s := s.clockOn) h
  refine ⟨by rw [s.tokenStep_earns.tblResult, tblResult_beforeBuckets], ?_, ?_, ?_⟩
  · rw [fld, key (by simp [TBL_CMD_STATUS])]; exact h1
  · rw [flag, fld, key (by simp [TBL_CMD_BUSY])]; exact h2
  · rw [flag, fld, key (by simp [TBL_EVT_CMD_DONE])]; exact h3

/-- With nothing to do beside the buckets a step changes only the clock and what the buckets hold. -/
theorem tokenStep_frame {s : State} (ht : s.tblResult = none) (hr : s.redBusy = none) (hp : s.fld PLC_PAGE_CFG_SPARE = 0) :
    { s.tokenStep with regs := s.regs, clk := s.clk, frac := s.frac, canTokens := s.canTokens, if4Tokens := s.if4Tokens,
                       blf := { s.tokenStep.blf with edges := s.blf.edges } } = s := by
  have h := s.tokenStep_earns.rest
  rw [beforeBuckets_idle ht hr hp] at h
  have e := congrArg (fun x : State => { x with
    regs := s.regs, clk := s.clk, frac := s.frac, canTokens := s.canTokens, if4Tokens := s.if4Tokens,
    blf := { x.blf with edges := s.blf.edges } }) h
  exact e

theorem lead_raiseListed_beforeBuckets (s : State) (l : List Nat) : (s.beforeBuckets.raiseListed l).lead = s.lead := by
  have hd : ¬ ∃ a ∈ l, levelOf a rGLB_DEVSTATE := by
    rintro ⟨a, -, h⟩
    exact absurd (levelOf_block h) (by decide)
  rw [lead, (raiseListed_earns _ l).fld hd, s.fld_beforeBuckets_block (by decide), lead]

/-- The clause of O36 on the exception limiter. -/
theorem tokenStep_exc {s : State} (h : s.fld (PRS_EXC_LEVEL_TOKENS s.lead) ≤ s.fld (PRS_EXC_BURST_BURST s.lead)) :
    s.tokenStep.fld (PRS_EXC_LEVEL_TOKENS s.lead) = min (s.fld (PRS_EXC_BURST_BURST s.lead))
      (s.fld (PRS_EXC_LEVEL_TOKENS s.lead) +
        (tabGet 0 s.frac (rPRS_EXC_LEVEL .A) + s.fld (PRS_EXC_RATE_RATE s.lead)) / 125000000) := by
  have hl := s.lead_raiseListed_beforeBuckets (s.regs.map (fun e => e.1))
  have he := raiseListed_earns s.beforeBuckets (s.regs.map (fun e => e.1))
  rw [tokenStep_eq]
  generalize s.beforeBuckets.raiseListed (s.regs.map (fun e => e.1)) = u at hl he
  have hp {x : Nat} (hx : x / 0x100000 = 8) : ¬ ∃ a ∈ s.regs.map (fun e => e.1), levelOf a x := by
    rintro ⟨a, -, h⟩
    have := levelOf_block h
    omega
  have hu {f : Fld} (hx : f.addr / 0x100000 = 8) : u.fld f = s.fld f :=
    (he.fld (hp hx)).trans (s.fld_beforeBuckets_block (by omega))
  have hlev (pl : Plane) : (PRS_EXC_LEVEL_TOKENS pl).addr / 0x100000 = 8 := by cases pl <;> decide
  have hbur (pl : Plane) : (PRS_EXC_BURST_BURST pl).addr / 0x100000 = 8 := by cases pl <;> decide
  have hrat (pl : Plane) : (PRS_EXC_RATE_RATE pl).addr / 0x100000 = 8 := by cases pl <;> decide
  have hfr : tabGet 0 u.frac (rPRS_EXC_LEVEL .A) = tabGet 0 s.frac (rPRS_EXC_LEVEL .A) := by
    rw [he.frac _ (hp (by decide)), frac_beforeBuckets]
  have hlow (pl : Plane) : ¬ 0x3FFFFFF ≤ (PRS_EXC_LEVEL_TOKENS pl).addr := by cases pl <;> decide
  have hx := fld_raiseExc (s := u) (by rw [hl, hu (hlev _), hu (hbur _)]; exact h)
  rw [(raiseCans_earns _).fld (hlow _), (raiseIf4_earns _).fld (hlow _)]
  rw [hl, hu (hlev _), hu (hbur _), hu (hrat _), hfr] at hx
  exact hx

/-- The clauses of O36 on a queue shaper. -/
theorem tokenStep_queue {s : State} {q : Nat} (hi : s.Inv) (hq : q < 2048) (he : s.flag (SCH_QSHP_RATE_EN .A q) = true) :
    s.QueueRaised s.tokenStep q := by
  have hb {x : Nat} (h : x / 0x100000 = 0xB) : s.beforeBuckets.reg x = s.reg x := s.reg_beforeBuckets_block (by omega)
  have hrate : rSCH_QSHP_RATE .A q / 0x100000 = 0xB := by simp only [rSCH_QSHP_RATE, half]; omega
  have hburst : rSCH_QSHP_BURST .A q / 0x100000 = 0xB := by simp only [rSCH_QSHP_BURST, half]; omega
  have hlevel : rSCH_QSHP_LEVEL .A q / 0x100000 = 0xB := by simp only [rSCH_QSHP_LEVEL, half]; omega
  have hen : s.beforeBuckets.flag (SCH_QSHP_RATE_EN .A q) = true := by
    rw [flag, s.fld_beforeBuckets_block (by rw [show (SCH_QSHP_RATE_EN .A q).addr = rSCH_QSHP_RATE .A q from rfl]; omega)]
    exact he
  have hl : ¬ limiterKey (rSCH_QSHP_LEVEL .A q) := by
    simp only [limiterKey, rSCH_QSHP_LEVEL, rPRS_EXC_LEVEL, half]
    omega
  have hraised := raiseListed_queue hq (regs_keys_nodup hi) (rate_mem_of_enabled hq he) hen
  have ht := limiters_earn (s.beforeBuckets.raiseListed (s.regs.map (fun e => e.1)))
  rw [tokenStep_eq]
  exact hraised.congr (hb hrate).symm (hb hburst).symm (hb hlevel).symm (by rw [frac_beforeBuckets]) (ht.regs _ hl) (ht.frac _ hl)

end State

/-- A step of the token buckets with the core PLL locked. -/
theorem exec_tokenBucketStep {s : State} (h : s.flag CLK_STATUS_PLL_CORE = true) :
    exec .tokenBucketStep s = .next s.tokenStep := by
  simp [exec, execTokenBucketStep, h]

theorem exec_tokenBucketStep_unlocked {s : State} (h : s.flag CLK_STATUS_PLL_CORE = false) :
    exec .tokenBucketStep s = .next s := by
  simp [exec, execTokenBucketStep, h]

end Sys2Proof.Machine
end

section
/-! PROOFS. Gates and token buckets: O36. -/

namespace Sys2Proof.Machine

/-- The clause of O36 on gates. -/
theorem gateChange_follows_list (s : State) {p : Nat} (hp : p < 32) : ∃ t, exec (.gateChange p) s = .next t ∧
    t.fld (SCH_GATE_OPEN .A p) = s.gateMask p % 256 ∧ t.flag (SCH_GATE_LIST .A p) = decide (s.gateList p ≠ []) ∧
    (∀ c, c < 8 → bitOf (s.fld (SCH_GATE_OPEN .A p)) c = true → bitOf (s.gateMask p) c = false →
      bitOf (t.port p).shortMask c = false) ∧
    ((∀ c, c < 8 → bitOf (s.fld (SCH_GATE_OPEN .A p)) c = true → bitOf (s.gateMask p) c = false →
      bitOf (s.port p).shortMask c = false) → s.RegsBut t [rSCH_GATE .A p]) ∧
    (∀ c, c < 8 → bitOf (s.fld (SCH_GATE_OPEN .A p)) c = true → bitOf (s.gateMask p) c = false →
      bitOf (s.port p).shortMask c = true → t.flag (SCH_EVT_GATE_SHORT s.lead) = true) ∧
    { t with regs := s.regs, ports := s.ports } = s := by
  refine ⟨_, s.exec_gateChange hp, s.fld_gateChange_open hp, s.flag_gateChange_list hp, fun c hc ho hm => ?_, fun h => ?_,
    fun c hc ho hm hb => ?_, s.gateChange_frame p⟩
  · exact State.bitOf_shortMask_gateChange (State.mem_closingClasses.mpr ⟨hc, ho, hm⟩)
  · refine State.gateChange_regsBut (List.eq_nil_iff_forall_not_mem.mpr fun c hm => ?_)
    obtain ⟨hcl, hb⟩ := State.mem_shortClasses.mp hm
    obtain ⟨hc, ho, hm⟩ := State.mem_closingClasses.mp hcl
    exact absurd hb (by simp [h c hc ho hm])
  · exact State.flag_gateChange_short
      (List.ne_nil_of_mem (State.mem_shortClasses.mpr ⟨State.mem_closingClasses.mpr ⟨hc, ho, hm⟩, hb⟩))

/-- Settles O36: gates by the classes that close, writes by what a bucket's reset leaves, and a step by the frames of its stages with
each enabled queue raised once. -/
theorem gatesAndTokenBuckets : Obligations.GatesAndTokenBuckets := by
  refine ⟨fun s r p q n v a pl => ⟨fun hp => gateChange_follows_list s hp, fun hp ha hr => ?_, fun hq ha hr => ?_,
    fun hn ha hr => ?_, fun hq hr => ?_, fun hn hr => ?_⟩,
    fun s q => ⟨exec_tokenBucketStep_unlocked, fun hi hl => ⟨_, exec_tokenBucketStep hl, ?_, fun st => State.tokenStep_completes,
      State.tokenStep_frame, State.tokenStep_exc, fun hq he => ?_⟩⟩⟩
  · have hA : inHalfA a = a := inHalfA_of_low (by
      simp only [rSCH_PSHP_RATE, rSCH_PSHP_BURST, half] at ha
      omega)
    exact ⟨_, exec_shaperWrite v hr hA (isShaper_port hp ha), s.writeShaper_port_reads v hp ha⟩
  · have hA : inHalfA a = a := inHalfA_of_low (by
      simp only [rSCH_QSHP_RATE, rSCH_QSHP_BURST, half] at ha
      omega)
    exact ⟨_, exec_shaperWrite v hr hA (isShaper_queue hq ha), s.writeShaper_queue_reads v ha⟩
  · have hA : inHalfA a = a := inHalfA_of_low (by
      simp only [rSCH_SNARE_CFG, rSCH_SNARE_BURST, half] at ha
      omega)
    exact ⟨_, exec_snareWrite v hr hA (isSnare_snare hn ha), s.writeSnare_reads pl v ha⟩
  · refine exec_shaperWrite_halfB v hr (ne_inHalfA_of_high ?_)
    simp only [rSCH_QSHP_RATE, half]
    omega
  · refine exec_snareWrite_halfB v hr (ne_inHalfA_of_high ?_)
    simp only [rSCH_SNARE_CFG, half]
    omega
  · rw [s.tokenStep_earns.clk, s.clk_beforeBuckets]
  · obtain ⟨hbelow, htop⟩ := State.tokenStep_queue hi hq he
    exact ⟨hbelow, htop⟩

end Sys2Proof.Machine
end

section
/-! SUPPORT. Fields written one after another, and what a change of listed registers leaves. -/

namespace Sys2Proof.Machine

/-- An entry of a table of which only some keys are kept. -/
theorem tabFind_filter {α : Type} (keep : Nat → Bool) (t : Tab α) (n : Nat) :
    tabFind (t.filter (fun e => keep e.1)) n = if keep n then tabFind t n else none := by
  induction t with
  | nil => simp
  | cons e t ih =>
    obtain ⟨k, v⟩ := e
    by_cases hk : k = n
    · subst hk
      cases h : keep k <;> simp [h, ih, tabFind_cons]
    · cases h : keep k <;> simp [h, ih, tabFind_cons, hk]

namespace State

/-- Two fields in different registers, or beside each other. -/
def apart (f g : Fld) : Prop := g.addr ≠ f.addr ∨ f.lsb + f.wid ≤ g.lsb ∨ g.lsb + g.wid ≤ f.lsb

theorem fld_put_apart (s : State) {f g : Fld} (v : Nat) (hg : g.lsb + g.wid ≤ 32) (h : apart f g) :
    (s.put f v).fld g = s.fld g := by
  rcases h with h | h
  · exact fld_put_addr s v h
  · exact fld_put_beside s v hg h

/-- Several fields written one after another. -/
def putAll (s : State) (val : Fld → Nat) (fs : List Fld) : State := fs.foldl (fun t f => t.put f (val f)) s

theorem OnlyRegs.putAll {s t : State} {as : List Nat} (h : s.OnlyRegs t as) (val : Fld → Nat) {fs : List Fld}
    (hs : ∀ f ∈ fs, f.addr ∈ as) : s.OnlyRegs (t.putAll val fs) as := by
  induction fs generalizing t with
  | nil => exact h
  | cons f fs ih => exact ih (h.put _ (hs f List.mem_cons_self)) fun g hg => hs g (List.mem_cons_of_mem _ hg)

theorem fld_putAll_apart (s : State) (val : Fld → Nat) {fs : List Fld} {g : Fld} (hg : g.lsb + g.wid ≤ 32)
    (h : ∀ f ∈ fs, apart f g) : (s.putAll val fs).fld g = s.fld g := by
  induction fs generalizing s with
  | nil => rfl
  | cons f fs ih =>
    exact (ih _ fun f' hf => h f' (List.mem_cons_of_mem _ hf)).trans (fld_put_apart s _ hg (h f List.mem_cons_self))

/-- What does not look at the registers stays. -/
theorem OnlyRegs.same {β : Type} {s t : State} {as : List Nat} (h : s.OnlyRegs t as) {f : State → β}
    (hf : ∀ x regs, f { x with regs := regs } = f x) : f t = f s := (hf t s.regs).symm.trans (congrArg f h.rest)

theorem inc_onlyRegs (s : State) (f : Fld) : s.OnlyRegs (s.inc f) [f.addr] := (OnlyRegs.refl s _).put _ List.mem_cons_self

end State

end Sys2Proof.Machine
end

section
/-! PROOFS. What reset leaves, and what every reset keeps (R38): O4, O14 and O15. -/

namespace Sys2Proof.Machine

/-- Settles O4: nothing is listed in the reset state's register file, so each register shows its reset value. -/
theorem resetLeavesEveryRegisterAtItsResetValue : Obligations.ResetLeavesEveryRegisterAtItsResetValue :=
  ⟨fun _ => rfl, rfl, rfl, rfl, rfl, rfl, rfl, rfl, rfl, rfl, rfl, rfl, rfl⟩

/-- Settles O15: a power-on reset answers the reset state but for what lies outside the device. -/
theorem powerOnResetClearsEveryCause : Obligations.PowerOnResetClearsEveryCause := fun s =>
  ⟨s.outside, rfl, fun _ => rfl, rfl, rfl, rfl, rfl, rfl, rfl, rfl, rfl⟩

namespace State

/-! ## A reset other than power-on -/

/-- What survives a reset before the single fields that D0 holds: the registers that `keep` names, the AO counter, the wake records. -/
def keptD0 (s : State) (keep : Nat → Bool) : State :=
  { s.outside with
    regs := s.regs.filter (fun e => keep e.1)
    ao := s.ao
    wrec := s.wrec
    tri := { s.outside.tri with diverged := s.tri.diverged, unattributed := s.tri.unattributed } }

theorem survive_eq (s : State) (keep : Nat → Bool) : s.survive keep = (s.keptD0 keep).putAll s.fld keptFields := rfl

theorem reg_keptD0 (s : State) (keep : Nat → Bool) (a : Nat) :
    (s.keptD0 keep).reg a = if keep a then s.reg a else resetValue a := by
  simp only [reg, keptD0, tabFind_filter]
  cases keep a <;> rfl

/-- Registers of which a reset writes single fields. -/
def resetRegs : List Nat := rNMW_INH :: keptFields.map (fun f => f.addr)

theorem resetKeep_onlyRegs (s : State) : (s.keptD0 keptReg).OnlyRegs s.resetKeep resetRegs := by
  rw [resetKeep, survive_eq]
  have h := (OnlyRegs.refl (s.keptD0 keptReg) resetRegs).putAll s.fld
    fun f hf => List.mem_cons_of_mem _ (List.mem_map_of_mem hf)
  exact h.put _ List.mem_cons_self

theorem resetBy_onlyRegs (s : State) {cause : Fld} (ha : cause.addr = rGLB_RESET_CAUSE) :
    (s.keptD0 keptReg).OnlyRegs (s.resetBy cause) (rGLB_RESET_CAUSE :: resetRegs) :=
  (s.resetKeep_onlyRegs.mono fun _ h => List.mem_cons_of_mem _ h).put 1 (ha ▸ List.mem_cons_self)

theorem reg_resetKeep_cause (s : State) : s.resetKeep.reg rGLB_RESET_CAUSE = s.reg rGLB_RESET_CAUSE := by
  rw [s.resetKeep_onlyRegs.regs _ (by decide), reg_keptD0]
  rfl

/-- The device state is not held in D0: a reset leads to BOOT. -/
theorem inState_resetKeep (s : State) : s.resetKeep.inState .boot = true := by
  have hk : (s.keptD0 keptReg).reg rGLB_DEVSTATE = resetValue rGLB_DEVSTATE := reg_keptD0 s keptReg _
  have hf : s.resetKeep.fld GLB_DEVSTATE_STATE = (s.keptD0 keptReg).fld GLB_DEVSTATE_STATE := by
    rw [resetKeep, survive_eq, fld_put_addr _ _ (by decide)]
    exact fld_putAll_apart _ _ (by decide) (by simp only [apart]; decide)
  rw [inState, hf, fld, show GLB_DEVSTATE_STATE.addr = rGLB_DEVSTATE from rfl, hk]
  rfl

theorem resetBy_wasReset (s : State) {cause : Fld} (ha : cause.addr = rGLB_RESET_CAUSE) (hw : cause.wid = 1) :
    s.WasReset (s.resetBy cause) cause.lsb := by
  have same {β : Type} (f : State → β) (hf : ∀ x regs, f { x with regs := regs } = f x) :
      f (s.resetBy cause) = f (s.keptD0 keptReg) := (s.resetBy_onlyRegs ha).same hf
  exact {
    cause := by rw [← s.reg_resetKeep_cause, ← ha, resetBy, reg_put_self, hw]
    boot := by
      rw [inState, resetBy, fld_put_addr _ _ (by rw [ha]; decide)]
      exact s.inState_resetKeep
    inReset := same (fun x => x.pwr.inReset) fun _ _ => rfl
    ao := same State.ao fun _ _ => rfl
    wrec := same State.wrec fun _ _ => rfl
    charts := ⟨same State.active fun _ _ => rfl, same State.shadow fun _ _ => rfl⟩
    records := ⟨same State.errFifo fun _ _ => rfl, same State.txts fun _ _ => rfl⟩
    queue := same State.pending fun _ _ => rfl }

end State

/-- Settles O14: each source's command is a reset by its own cause bit. -/
theorem resetSetsItsCauseAndKeepsD0 : Obligations.ResetSetsItsCauseAndKeepsD0 := by
  intro s r key
  refine ⟨⟨_, rfl, s.resetBy_wasReset (cause := GLB_RESET_CAUSE_PIN) rfl rfl⟩,
    ⟨_, rfl, s.resetBy_wasReset (cause := GLB_RESET_CAUSE_PWRGOOD) rfl rfl⟩,
    ⟨_, rfl, s.resetBy_wasReset (cause := GLB_RESET_CAUSE_SUPPLY) rfl rfl⟩,
    ⟨_, rfl, s.resetBy_wasReset (cause := GLB_RESET_CAUSE_THERM) rfl rfl⟩, fun h => ?_, fun h hk => ?_⟩
  · refine ⟨s.resetBy GLB_RESET_CAUSE_DEBUG, ?_, s.resetBy_wasReset rfl rfl⟩
    simp [exec, execDebugReset, h]
  · refine ⟨s.resetBy GLB_RESET_CAUSE_SOFT, ?_, s.resetBy_wasReset rfl rfl⟩
    simp [exec, execGlbSwreset, State.gated_reaches h, State.writeSwreset, hk]

end Sys2Proof.Machine
end

section
/-! PROOFS. Accesses that do not act, and 64-bit accesses of a host (R31 to R35, R555): O8 and O11. -/

namespace Sys2Proof.Machine

namespace State

/-! ## The one record of a faulty access (R555) -/

theorem accessErr_recorded (s : State) {addr cause : Nat} (ha : addr < 2 ^ 25) (hc : cause < 2 ^ 3) :
    s.Recorded (s.accessErr addr cause) addr cause := by
  have hm {f : Fld} (h : f.addr = rGLB_ACCESS_ERR) : f.addr ∈ [rGLB_ACCESS_ERR] := h ▸ List.mem_cons_self
  cases hv : s.flag GLB_ACCESS_ERR_VALID with
  | true =>
    have he : s.accessErr addr cause = s.put GLB_ACCESS_ERR_OVERFLOW 1 := if_pos hv
    rw [he]
    exact ⟨(OnlyRaises.refl s _).put _ (hm rfl), fun h => absurd h (by simp [hv]),
      fun _ => ⟨fld_put_self s _ _ (by decide), put_pulses s _ _, fld_put_beside s _ (by decide) (by decide),
        fld_put_beside s _ (by decide) (by decide)⟩⟩
  | false =>
    have he : s.accessErr addr cause =
        (((s.put GLB_ACCESS_ERR_VALID 1).put GLB_ACCESS_ERR_CAUSE cause).put GLB_ACCESS_ERR_ADDR addr).pulse 1 := by
      simp [accessErr, hv]
    rw [he]
    refine ⟨((((OnlyRaises.refl s _).put _ (hm rfl)).put _ (hm rfl)).put _ (hm rfl)).pulse 1,
      fun _ => ⟨?_, ?_, ?_, mem_pulse _ 1⟩, fun h => absurd h (by simp [hv])⟩
    · rw [fld_pulse, fld_put_beside _ _ (by decide) (by decide), fld_put_beside _ _ (by decide) (by decide)]
      exact fld_put_self s _ _ (by decide)
    · rw [fld_pulse, fld_put_beside _ _ (by decide) (by decide), fld_put_self _ _ _ (by decide),
        show GLB_ACCESS_ERR_CAUSE.wid = 3 from rfl, Nat.mod_eq_of_lt hc]
    · rw [fld_pulse, fld_put_self _ _ _ (by decide), show GLB_ACCESS_ERR_ADDR.wid = 25 from rfl, Nat.mod_eq_of_lt ha]

/-! ## What the write gate answers (R31, R33, R35) -/

/-- The checks of a write by the management cluster or a host, in their order. -/
theorem writeGate_eq {s : State} {r : Requester} (a size : Nat) (hr : ∀ t, r ≠ .tenant t) (hu : s.unreachable r = false) :
    s.writeGate r a size =
      if isHost r ∧ s.hostMayWrite (a / 4 * 4) = false then some (s.accessErr a 4)
      else if s.bootShut r (a / 4 * 4) ∨ coreShut r (a / 4 * 4) then some s
      else if size < 4 then some (s.accessErr a 1)
      else if s.powered a = false then some (s.accessErr a 2)
      else none := by
  cases r with
  | tenant t => exact absurd rfl (hr t)
  | mc | core _ | hi0 | hi1 => simp [writeGate, hu]

/-- A register of the management cluster alone, but for a host's write, which is refused in the register's own field too. -/
theorem mcOnly_shut {s t : State} {r : Requester} {a : Nat} (hr : isHost r = false) (h : s.writeGate r a 4 = some t) (res : Fld)
    (n : Nat) (act : State → State) : s.mcOnly r a res n act = t := by
  cases hu : s.unreachable r with
  | true =>
    unfold writeGate at h
    rw [if_pos hu] at h
    rw [mcOnly, if_pos hu, Option.some.inj h]
  | false =>
    simp only [mcOnly, hu, hr, Bool.false_eq_true, if_false]
    exact gated_shut h act

theorem ite_eq_of_branches {α : Type} {c : Prop} [Decidable c] {x y z : α} (hx : c → x = z) (hy : y = z) :
    (if c then x else y) = z := by
  by_cases hc : c
  · rw [if_pos hc, hx hc]
  · rw [if_neg hc, hy]

/-- A write whose gate answers a state goes no further, whatever register it would reach. -/
theorem writeReg_shut {s t : State} {r : Requester} {a : Nat} (v : Nat) (h : s.writeGate r a 4 = some t)
    (hr : isHost r = false ∨ a ∉ [rRED_CTL, rCAR_CTL, rBLF_CMD, rLDG_CTL]) : s.writeReg r a v = t := by
  have hm (hl : a ∈ [rRED_CTL, rCAR_CTL, rBLF_CMD, rLDG_CTL]) (res : Fld) (n : Nat) (act : State → State) :
      s.mcOnly r a res n act = t := mcOnly_shut (hr.resolve_right fun hn => hn hl) h res n act
  unfold writeReg
  refine ite_eq_of_branches (fun h1 => ?_) <| ite_eq_of_branches (fun h2 => ?_) <| ite_eq_of_branches (fun h3 => ?_) <|
    ite_eq_of_branches (fun h4 => ?_) <| ite_eq_of_branches (fun h5 => ?_) <| ite_eq_of_branches (fun h6 => ?_) <|
    ite_eq_of_branches (fun h7 => ?_) (gated_shut h _)
  · subst h1
    unfold writeStateCtl reqRun reqTest reqRecovery reqSleep request
    split <;> exact gated_shut h _
  · subst h2
    unfold writeChtCtl
    split <;> exact gated_shut h _
  · subst h3
    unfold writeTblCmd tblCommand
    exact gated_shut h _
  · subst h4
    exact hm (by decide) _ _ _
  · subst h5
    exact hm (by decide) _ _ _
  · subst h6
    unfold writeBlfCmd
    split <;> exact hm (by decide) _ _ _
  · subst h7
    exact hm (by decide) _ _ _

/-! ## Writes of the register window that do not act -/

section
variable {s t : State} {r : Requester} {a size : Nat} (v : Nat) (hr : ∀ t, r ≠ .tenant t) (hu : s.unreachable r = false)
  (hl : a < 0x2000000)
include hr hu hl

theorem regWrite_window : s.regWrite r a size v = if size < 4 then (s.writeGate r a size).getD s else s.writeReg r (a / 4 * 4) v := by
  cases r with
  | tenant t => exact absurd rfl (hr t)
  | mc | core _ | hi0 | hi1 => simp [regWrite, hu, Nat.not_le.mpr hl]

theorem exec_registerWrite_narrow (hz : size < 4) (h : s.writeGate r a size = some t) :
    exec (.registerWrite r a size v) s = .next t := by
  simp only [exec, execRegisterWrite, regWrite_window v hr hu hl, if_pos hz, h, Option.getD_some]

theorem exec_registerWrite_shut (hz : ¬ size < 4) (ha : a % 4 = 0) (h : s.writeGate r a 4 = some t)
    (hm : isHost r = false ∨ a ∉ [rRED_CTL, rCAR_CTL, rBLF_CMD, rLDG_CTL]) :
    exec (.registerWrite r a size v) s = .next t := by
  have h4 : a / 4 * 4 = a := by omega
  simp only [exec, execRegisterWrite, regWrite_window v hr hu hl, if_neg hz, h4, writeReg_shut v h hm]

end

end State

/-- Settles O8, by the first check of the write gate that fails. -/
theorem faultyAccessLeavesOneRecord : Obligations.FaultyAccessLeavesOneRecord := by
  intro s r a size v hr hu hl
  have record {cause : Nat} (hc : cause < 2 ^ 3) : s.Recorded (s.accessErr a cause) a cause :=
    s.accessErr_recorded (Nat.lt_of_lt_of_le hl (by decide)) hc
  refine ⟨fun hh hw hs => ⟨_, ?_, record (by decide)⟩, fun hw hb hc => ⟨fun hz => ⟨_, ?_, record (by decide)⟩,
    fun hz ha hp hm => ⟨_, ?_, record (by decide)⟩⟩, fun h hk => ⟨s.accessErr rGLB_SWRESET 3, ?_, ?_⟩⟩
  · have gate (n : Nat) : s.writeGate r a n = some (s.accessErr a 4) := by
      rw [State.writeGate_eq a n hr hu, if_pos ⟨hh, hw⟩]
    by_cases hz : size < 4
    · exact State.exec_registerWrite_narrow v hr hu hl hz (gate size)
    · obtain ⟨ha, hn⟩ := hs.resolve_left hz
      exact State.exec_registerWrite_shut v hr hu hl hz ha (gate 4) (.inr hn)
  · refine State.exec_registerWrite_narrow v hr hu hl hz ?_
    rw [State.writeGate_eq a size hr hu, if_neg (fun h => by simp [hw h.1] at h), if_neg (by simp [hb, hc]), if_pos hz]
  · refine State.exec_registerWrite_shut v hr hu hl (Nat.not_lt.mpr hz) ha ?_ (.inl (by simp [hm, isHost]))
    rw [State.writeGate_eq a 4 hr hu, if_neg (fun h => by simp [hw h.1] at h), if_neg (by simp [hb, hc]),
      if_neg (by decide), if_pos hp]
  · have hnot : rGLB_SWRESET ∉ commandRegs := by decide
    rw [exec_registerWrite v hr h (by decide) (by decide) hnot]
    have he : s.writeAt r rGLB_SWRESET v = s.accessErr rGLB_SWRESET 3 := if_pos hk
    rw [he]
  · exact s.accessErr_recorded (by decide) (by decide)

/-! ## A 64-bit access of a host (R32) -/

namespace State

/-- The latch of a requester for a register pair filled (R6). -/
def latched (s : State) (r : Requester) (a : Nat) (w : Word) : State :=
  { s with latches := tabSet 0 s.latches (latchKey r a) w }

theorem readWord_lo {s : State} {r : Requester} {a : Nat} {g : RegSpec} (hg : specAt a = some g) (hp : g.pair = .lo) :
    s.readWord r a = (s.latched r a (BitVec.ofNat 32 (s.view32 (a + 4))), s.view32 a) := by
  simp [readWord, hg, hp, latched]

theorem readWord_hi {s : State} {r : Requester} {a : Nat} {g : RegSpec} (hg : specAt a = some g) (hp : g.pair = .hi) :
    s.readWord r a = (s, (tabGet 0 s.latches (latchKey r (a - 4))).toNat) := by
  simp [readWord, hg, hp]

end State

theorem isMc_of_isHost {r : Requester} (h : isHost r = true) : isMc r = false := by
  cases r <;> simp_all [isMc, isHost]

/-- Settles O11: the access is its two halves by definition, and the read of _LO fills the latch that the read of _HI answers. -/
theorem host64BitAccessIsTwoAccesses : Obligations.Host64BitAccessIsTwoAccesses := by
  intro s r a v g h hr hu ha
  have hcond : ¬ (isMc r = true ∨ a % 8 ≠ 0 ∨ s.unreachable r = true) := by simp [isMc_of_isHost hr, ha, hu]
  refine ⟨⟨_, _, rfl, rfl, ?_⟩, fun hb hb4 hp hp4 hra hra4 hg hlo hh hhi => ⟨_, rfl, ?_⟩⟩
  · simp only [exec, execHost64bitAccess, State.access64, if_neg hcond, if_true]
  · let s1 := (s.latched r a (BitVec.ofNat 32 (s.view32 (a + 4)))).answer (s.view32 a % 2 ^ 32)
    have h1 : s.readReg r a 4 = s1 := by
      rw [State.readReg_word hu hb hp (by omega) hra, State.readWord_lo hg hlo]
    have h2 : s1.readReg r (a + 4) 4 = s1.answer (s.view32 (a + 4) % 2 ^ 32) := by
      have hw : s1.readWord r (a + 4) = (s1, s.view32 (a + 4) % 2 ^ 32) := by
        rw [State.readWord_hi hh hhi, Nat.add_sub_cancel]
        simp [s1, State.latched, State.answer]
      have hu1 : s1.unreachable r = false := hu
      rw [State.readReg_word hu1 hb4 hp4 (by omega) hra4, hw, Nat.mod_mod]
    have hx : s.access64 r false a v = s1.answer (s.view32 a % 2 ^ 32 + 2 ^ 32 * (s.view32 (a + 4) % 2 ^ 32)) := by
      simp only [State.access64, if_neg hcond, Bool.false_eq_true, if_false, h1, h2]
      rfl
    rw [hx]
    exact ⟨rfl, rfl⟩

end Sys2Proof.Machine
end

section
/-! PROOFS. The state requests: what is refused, and what is done (R21 to R24, R39): O12 and O13. -/

namespace Sys2Proof.Machine

namespace State

/-! ## A change of the device state (R36) -/

/-- A change of a field of the device's condition other than SAFE. -/
theorem putDev_of_ne {s : State} {f : Fld} {v : Nat} (hv : s.fld f ≠ v) (hf : f ≠ GLB_DEVSTATE_SAFE) :
    s.putDev f v = (s.put f v).takebackFromNow.pulse 0 := by
  rw [putDev, if_neg hv, if_neg hf]

theorem fld_of_inState {s : State} {d : DevState} (h : s.inState d = true) : s.fld GLB_DEVSTATE_STATE = d.code := beq_iff_eq.mp h

/-- A request done from another state. -/
theorem entersState_of_inState {s : State} {c d : DevState} (h : s.inState c = true) (hd : c.code ≠ d.code) :
    s.EntersState ((s.enter d).rqResult rqDONE) d.code := by
  have he : s.enter d = (s.put GLB_DEVSTATE_STATE d.code).takebackFromNow.pulse 0 :=
    putDev_of_ne (by rw [fld_of_inState h]; exact hd) (by decide)
  rw [he]
  have hregs : s.RegsBut ((s.put GLB_DEVSTATE_STATE d.code).takebackFromNow.pulse 0) [rGLB_DEVSTATE, rGLB_STATE_CTL] :=
    (((RegsBut.refl s _).put _ (by decide)).same rfl).pulse 0
  exact {
    rest := by simp only [rqResult, put, setReg, takebackFromNow, pulse]
    regs := hregs.put _ (by decide)
    timer := by simp only [rqResult, put, setReg, takebackFromNow, pulse]
    state := (reg_put_ne _ _ _ (by decide)).trans (reg_put_self s GLB_DEVSTATE_STATE _)
    result := fld_put_self _ _ _ (by decide)
    raised := mem_pulse _ 0 }

/-! ## The five requests by their codes (R21) -/

/-- What refuses a request with BUSY. -/
def requestBusy (s : State) (r : Requester) (tie : Bool) (k : Nat) : Prop :=
  (tie = true ∧ isMc r = false) ∨ s.swapBusy = true ∨ s.flag GLB_DEVSTATE_TRANS_BUSY = true ∨
    (4 ≤ k ∧ s.fld CHT_STATUS_SHADOW = 6)

/-- The table has a transition from the present state. -/
def requestLegal (s : State) (k : Nat) : Prop := ∃ d ∈ requestFrom k, s.inState d = true

/-- The condition of a request. -/
def requestReady (s : State) (k : Nat) : Bool :=
  if k = 1 then !s.noPlane && !s.flag GLB_DEVSTATE_SAFE else if 4 ≤ k then s.maySleep (k == 5) else true

/-- The state that a request other than a sleep leads to. -/
def requestEnters : Nat → DevState
  | 1 => .run
  | 2 => .test
  | _ => .recovery

/-- What a request does that nothing refuses. -/
def requestDone (s : State) (k : Nat) : State :=
  if 4 ≤ k then s.startSleep (k == 5) else (s.enter (requestEnters k)).rqResult rqDONE

theorem request_cases {k : Nat} (h1 : 1 ≤ k) (h5 : k ≤ 5) : k = 1 ∨ k = 2 ∨ k = 3 ∨ k = 4 ∨ k = 5 := by omega

/-- The condition of a request in the statement's words. -/
theorem requestReady_iff {s : State} {k : Nat} (h1 : 1 ≤ k) (h5 : k ≤ 5) : s.requestReady k = true ↔
    if k = 1 then (s.isCond .A .inService = true ∨ s.isCond .B .inService = true) ∧ s.flag GLB_DEVSTATE_SAFE = false
    else if k = 4 then s.maySleep false = true else if k = 5 then s.maySleep true = true else True := by
  obtain rfl | rfl | rfl | rfl | rfl := request_cases h1 h5
  · rw [if_pos rfl, requestReady, if_pos rfl, Bool.and_eq_true, noPlane, ← Bool.not_or, Bool.not_not, Bool.or_eq_true, Bool.not_eq_true']
  all_goals simp [requestReady]

/-- Every request that reaches GLB_STATE_CTL, in the order of its checks. -/
theorem exec_requestCommand {s : State} {r : Requester} (tie : Bool) {k : Nat} (h1 : 1 ≤ k) (h5 : k ≤ 5)
    (hr : s.reaches r rGLB_STATE_CTL) : exec (requestCommand k r tie) s = .next (
      if (tie = true ∧ isMc r = false) ∨ s.swapBusy = true ∨ s.flag GLB_DEVSTATE_TRANS_BUSY = true ∨
          (4 ≤ k ∧ s.fld CHT_STATUS_SHADOW = 6) then s.rqResult rqBUSY
      else if (requestFrom k).any s.inState = false then s.rqResult rqILLEGAL
      else if s.requestReady k = false then s.rqResult rqNOTREADY
      else s.requestDone k) := by
  obtain rfl | rfl | rfl | rfl | rfl := request_cases h1 h5
  all_goals simp [exec, requestCommand, execReqRun, execReqTest, execReqRecovery, execReqSleepR, execReqSleepD, reqRun,
      reqTest, reqRecovery, reqSleep, request, gated_reaches hr, requestFrom, requestReady, requestDone, requestEnters, shadowIs,
      shAPPLYING]

section
variable {s : State} {r : Requester} {tie : Bool} {k : Nat} (h1 : 1 ≤ k) (h5 : k ≤ 5) (hr : s.reaches r rGLB_STATE_CTL)
include h1 h5 hr

theorem exec_request_busy (hb : s.requestBusy r tie k) : exec (requestCommand k r tie) s = .next (s.rqResult rqBUSY) := by
  unfold requestBusy at hb
  rw [exec_requestCommand tie h1 h5 hr, if_pos hb]

theorem exec_request_illegal (hb : ¬ s.requestBusy r tie k) (hl : ¬ s.requestLegal k) :
    exec (requestCommand k r tie) s = .next (s.rqResult rqILLEGAL) := by
  have hn : (requestFrom k).any s.inState = false := by simpa [requestLegal] using hl
  unfold requestBusy at hb
  rw [exec_requestCommand tie h1 h5 hr, if_neg hb, if_pos hn]

theorem exec_request_legal (hb : ¬ s.requestBusy r tie k) (hl : s.requestLegal k) : exec (requestCommand k r tie) s =
    .next (if s.requestReady k = false then s.rqResult rqNOTREADY else s.requestDone k) := by
  have hn : ¬ (requestFrom k).any s.inState = false := by simpa [requestLegal] using hl
  unfold requestBusy at hb
  rw [exec_requestCommand tie h1 h5 hr, if_neg hb, if_neg hn]

theorem exec_request_done (hb : ¬ s.requestBusy r tie k) (hl : s.requestLegal k) (hd : s.requestReady k = true) :
    exec (requestCommand k r tie) s = .next (s.requestDone k) := by
  rw [exec_request_legal h1 h5 hr hb hl, if_neg (by simp [hd])]

end

/-- A refusal only shows its code. -/
theorem rqResult_refused (s : State) {n : Nat} (hn : n < 2 ^ 3) :
    (s.rqResult n).fld GLB_STATE_CTL_RESULT = n ∧ s.OnlyRegs (s.rqResult n) [rGLB_STATE_CTL] :=
  ⟨(fld_put_self s _ _ (by decide)).trans (Nat.mod_eq_of_lt hn), (OnlyRegs.refl s _).put n List.mem_cons_self⟩

/-- A request that leaves no room for BUSY. -/
theorem not_requestBusy {s : State} {r : Requester} {tie : Bool} {k : Nat} (ht : tie = true → isMc r = true)
    (hs : s.swapBusy = false) (hb : s.flag GLB_DEVSTATE_TRANS_BUSY = false) (hk : 4 ≤ k → s.fld CHT_STATUS_SHADOW ≠ 6) :
    ¬ s.requestBusy r tie k := by
  rintro (⟨h, hm⟩ | h | h | ⟨h, h6⟩)
  · simp [ht h] at hm
  · simp [hs] at h
  · simp [hb] at h
  · exact hk h h6

end State

/-- Settles O12: a request that no check stops enters its state, which none of the states it may leave is. -/
theorem stateRequestChangesState : Obligations.StateRequestChangesState := by
  intro s r tie hr ht hs hb
  have free (k : Nat) (hk : k < 4) : ¬ s.requestBusy r tie k := State.not_requestBusy ht hs hb (by omega)
  refine ⟨fun hl hp hf => ?_, fun hl => ?_, fun hl => ?_⟩
  · have legal : s.requestLegal 1 := by simpa [State.requestLegal, requestFrom] using hl
    have ready : s.requestReady 1 = true := (State.requestReady_iff (by decide) (by decide)).mpr ⟨hp, hf⟩
    refine ⟨_, State.exec_request_done (k := 1) (by decide) (by decide) hr (free 1 (by decide)) legal ready, ?_⟩
    rcases hl with h | h | h <;> exact State.entersState_of_inState h (by decide)
  · have legal : s.requestLegal 2 := by simpa [State.requestLegal, requestFrom] using hl
    exact ⟨_, State.exec_request_done (k := 2) (by decide) (by decide) hr (free 2 (by decide)) legal rfl,
      State.entersState_of_inState hl (by decide)⟩
  · have legal : s.requestLegal 3 := by simpa [State.requestLegal, requestFrom] using hl
    refine ⟨_, State.exec_request_done (k := 3) (by decide) (by decide) hr (free 3 (by decide)) legal rfl, ?_⟩
    rcases hl with h | h <;> exact State.entersState_of_inState h (by decide)

/-- Settles O13: the checks of a request in their order. -/
theorem stateRequestRefusals : Obligations.StateRequestRefusals := by
  intro s r tie k h1 h5 hr
  refine ⟨fun hb => ⟨_, State.exec_request_busy h1 h5 hr hb, s.rqResult_refused (by decide)⟩,
    fun hb hl => ⟨_, State.exec_request_illegal h1 h5 hr hb hl, s.rqResult_refused (by decide)⟩,
    fun hb hl hn => ⟨s.rqResult rqNOTREADY, ?_, s.rqResult_refused (by decide)⟩⟩
  have hready : s.requestReady k = false := Bool.eq_false_iff.mpr fun h => hn ((State.requestReady_iff h1 h5).mp h)
  rw [State.exec_request_legal h1 h5 hr hb hl, if_pos hready]

end Sys2Proof.Machine
end

section
/-! PROOFS. The steps of the sleep entry, and what a wake does (R23, R25, R507 to R512): O17 and O18. -/

namespace Sys2Proof.Machine

namespace State

/-! ## The end of the sleep entry (R508) -/

/-- What the last step of the sleep entry shows: the kind of sleep and the sleep counted. -/
def sleepShown (s : State) : State :=
  (s.put GLB_DEVSTATE_LAST_SLEEP (if s.pwr.sleepD then 2 else 1)).inc PWR_SLEEP_CNT_VAL

/-- The staged chart lost. -/
def withoutShadow (s : State) : State := { s with shadow := [] }

theorem leaveSleep_nil {s : State} (h : s.pwr.wakes = []) : s.leaveSleep = s := by simp [leaveSleep, h]

theorem leaveSleep_cons {s : State} {ev : WakeEv} {q : List WakeEv} (h : s.pwr.wakes = ev :: q) :
    s.leaveSleep = ((s.recordWake ev).put PWR_WAKE_STATUS_SOURCE ev.src).leaveBy s.pwr.sleepD := by
  simp only [leaveSleep, h, leaveBy]

theorem setShadow_empty (s : State) : s.setShadow shEMPTY =
    (((((((s.put CHT_STATUS_SHADOW 0).put CHT_STATUS_READY 0).put CHT_CTL_OWNER 0).put CHT_DIFF_DIFF 0).put
      CHT_STATUS_KIND 0).put CHT_SHD_ID_LO_ID 0).put CHT_SHD_ID_HI_ID 0).put CHT_SHD_COUNTER_COUNTER 0 := by
  simp [setShadow, shEMPTY, shARMED]

/-- The registers that show the staged chart. -/
def shadowRegs : List Nat := [rCHT_STATUS, rCHT_CTL, rCHT_DIFF, rCHT_SHD_ID_LO, rCHT_SHD_ID_HI, rCHT_SHD_COUNTER]

theorem setShadow_empty_onlyRegs (s : State) : s.OnlyRegs (s.setShadow shEMPTY) shadowRegs := by
  rw [setShadow_empty]
  have put {t : State} (h : s.OnlyRegs t shadowRegs) (f : Fld) (hf : f.addr ∈ shadowRegs) : s.OnlyRegs (t.put f 0) shadowRegs :=
    h.put 0 hf
  exact put (put (put (put (put (put (put (put (OnlyRegs.refl s _) _ (by decide)) _ (by decide)) _ (by decide)) _ (by decide)) _
    (by decide)) _ (by decide)) _ (by decide)) _ (by decide)

theorem setShadow_empty_shows (s : State) :
    (s.setShadow shEMPTY).fld CHT_STATUS_SHADOW = 0 ∧ (s.setShadow shEMPTY).fld CHT_CTL_OWNER = 0 := by
  rw [setShadow_empty]
  constructor
  · iterate 7 rw [fld_put_apart _ _ (by decide) (by simp only [apart]; decide)]
    exact fld_put_self s _ 0 (by decide)
  · iterate 5 rw [fld_put_apart _ _ (by decide) (by simp only [apart]; decide)]
    exact fld_put_self _ _ 0 (by decide)

theorem sleepShown_onlyRegs (s : State) : s.OnlyRegs s.sleepShown [rGLB_DEVSTATE, rPWR_SLEEP_CNT] :=
  ((OnlyRegs.refl s _).put _ (by decide)).put _ (by decide)

theorem fld_sleepShown_last (s : State) : s.sleepShown.fld GLB_DEVSTATE_LAST_SLEEP = if s.pwr.sleepD then 2 else 1 := by
  rw [sleepShown, inc_eq, fld_put_addr _ _ (by decide), fld_put_self _ _ _ (by decide)]
  cases s.pwr.sleepD <;> rfl

theorem fld_sleepShown_count (s : State) :
    s.sleepShown.fld PWR_SLEEP_CNT_VAL = (s.fld PWR_SLEEP_CNT_VAL + 1) % 2 ^ PWR_SLEEP_CNT_VAL.wid := by
  rw [sleepShown, inc_eq, fld_put_self _ _ _ (by decide), fld_put_addr _ _ (by decide)]

/-- The state asleep with its shadow retained. -/
def asleepR (s : State) : State := s.sleepShown.sleepAt 6

/-- The state asleep: SLEEP-D empties the shadow. -/
def asleep (s : State) : State := if s.pwr.sleepD then s.asleepR.withoutShadow.setShadow shEMPTY else s.asleepR

theorem sleepAt_fld (s : State) (n : Nat) (f : Fld) : (s.sleepAt n).fld f = s.fld f := rfl

theorem fld_asleepR (s : State) (f : Fld) : s.asleepR.fld f = s.sleepShown.fld f := sleepAt_fld _ _ _

theorem asleepR_pwr (s : State) : s.asleepR.pwr = { s.pwr with sleep := 6 } :=
  s.sleepShown_onlyRegs.same (f := fun x => (x.sleepAt 6).pwr) fun _ _ => rfl

theorem asleepR_shadow (s : State) : s.asleepR.shadow = s.shadow :=
  s.sleepShown_onlyRegs.same (f := fun x => (x.sleepAt 6).shadow) fun _ _ => rfl

theorem sleepAt_regsBut (s : State) (n : Nat) (as : List Nat) : s.RegsBut (s.sleepAt n) as := RegsBut.of_regs as rfl

theorem asleepR_regsBut (s : State) : s.RegsBut s.asleepR [rGLB_DEVSTATE, rPWR_SLEEP_CNT] :=
  s.sleepShown_onlyRegs.regs.trans (sleepAt_regsBut _ 6 _)

theorem withoutShadow_reg (s : State) (a : Nat) : s.withoutShadow.reg a = s.reg a := rfl
theorem withoutShadow_fld (s : State) (f : Fld) : s.withoutShadow.fld f = s.fld f := rfl
theorem withoutShadow_pwr (s : State) : s.withoutShadow.pwr = s.pwr := rfl

/-- From the state with the staged chart lost to SLEEP-D. -/
theorem asleepD_onlyRegs (s : State) : s.asleepR.withoutShadow.OnlyRegs (s.asleepR.withoutShadow.setShadow shEMPTY) shadowRegs :=
  setShadow_empty_onlyRegs _

theorem asleep_pwr (s : State) : s.asleep.pwr = { s.pwr with sleep := 6 } := by
  rw [← s.asleepR_pwr]
  unfold asleep
  split
  · exact (s.asleepD_onlyRegs.same (f := State.pwr) fun _ _ => rfl).trans (withoutShadow_pwr _)
  · rfl

/-- The sleep shown stays when the shadow is emptied. -/
theorem fld_asleep (s : State) {f : Fld} (h : f.addr ∉ shadowRegs) : s.asleep.fld f = s.sleepShown.fld f := by
  rw [← s.fld_asleepR]
  unfold asleep
  split
  · rw [fld, s.asleepD_onlyRegs.regs _ h, withoutShadow_reg, fld]
  · rfl

/-- A state with its registers, sleep and shadow put back to those of another. -/
def backTo (s t : State) : State := { t with regs := s.regs, pwr := s.pwr, shadow := s.shadow }

theorem backTo_withoutShadow (s t : State) : s.backTo t.withoutShadow = s.backTo t := rfl

theorem backTo_asleepR (s : State) : s.backTo s.asleepR = s :=
  s.sleepShown_onlyRegs.same (f := fun x => s.backTo (x.sleepAt 6)) fun _ _ => rfl

theorem asleep_frame (s : State) : s.backTo s.asleep = s := by
  unfold asleep
  split
  · rw [s.asleepD_onlyRegs.same (f := s.backTo) fun _ _ => rfl, backTo_withoutShadow, backTo_asleepR]
  · exact s.backTo_asleepR

theorem asleep_sleepD {s : State} (h : s.pwr.sleepD = true) : s.asleep = s.asleepR.withoutShadow.setShadow shEMPTY := if_pos h

theorem asleep_sleepR {s : State} (h : s.pwr.sleepD = false) : s.asleep = s.asleepR := if_neg (by simp [h])

theorem asleepD_regsBut (s : State) :
    s.RegsBut (s.asleepR.withoutShadow.setShadow shEMPTY) ([rGLB_DEVSTATE, rPWR_SLEEP_CNT] ++ shadowRegs) := by
  intro a ha
  rw [List.mem_append, not_or] at ha
  rw [s.asleepD_onlyRegs.regs a ha.2, withoutShadow_reg, s.asleepR_regsBut a ha.1]

/-- Step 5 with no wake waiting. -/
theorem sleepNext_asleep {s : State} (h : s.pwr.sleep = 5) (hw : s.pwr.wakes = []) : s.sleepNext = s.asleep := by
  have hn : s.sleepNext = s.asleep.leaveSleep := by
    simp only [sleepNext, h, asleep, asleepR, sleepShown, withoutShadow]
  rw [hn, leaveSleep_nil (by rw [asleep_pwr, hw])]

theorem requestDone_sleep (s : State) (d : Bool) : s.requestDone (if d then 5 else 4) = s.startSleep d := by
  cases d <;> exact if_pos (by decide)

theorem requestReady_sleep (s : State) (d : Bool) : s.requestReady (if d then 5 else 4) = s.maySleep d := by
  cases d <;> simp [requestReady]

end State

/-- A sleep request that no check stops. -/
theorem exec_request_sleep {s : State} {r : Requester} {tie : Bool} (d : Bool) (hr : s.reaches r rGLB_STATE_CTL)
    (hb : ∀ k, ¬ s.requestBusy r tie k) (hrun : s.inState .run = true) (hm : s.maySleep d = true) :
    exec (requestCommand (if d then 5 else 4) r tie) s = .next (s.startSleep d) := by
  have hl : s.requestLegal (if d then 5 else 4) := by cases d <;> exact ⟨.run, List.mem_cons_self, hrun⟩
  rw [State.exec_request_done (by split <;> decide) (by split <;> decide) hr (hb _) hl ((s.requestReady_sleep d).trans hm),
    s.requestDone_sleep]

/-- Settles O17: the request by its checks, the end of the entry by what the last step shows. -/
theorem sleepIsEnteredInSteps : Obligations.SleepIsEnteredInSteps := by
  intro s r tie
  refine ⟨fun hr ht hs hb hsh hrun => ?_, fun h => ?_, fun h hw => ⟨s.asleep, ?_, s.asleep_pwr, ?_, ?_, s.asleep_frame, fun hd => ?_,
    fun hd => ?_⟩⟩
  · have free (k : Nat) : ¬ s.requestBusy r tie k := State.not_requestBusy ht hs hb fun _ => hsh
    exact ⟨exec_request_sleep false hr free hrun, exec_request_sleep true hr free hrun⟩
  · simp only [exec, execSleepEntryAdvance, State.sleepNext, h]
  · simp only [exec, execSleepEntryAdvance, State.sleepNext_asleep h hw]
  · rw [s.fld_asleep (by decide), s.fld_sleepShown_last]
  · rw [s.fld_asleep (by decide), s.fld_sleepShown_count]
  · rw [State.asleep_sleepR hd]
    exact ⟨s.asleepR_shadow, s.asleepR_regsBut⟩
  · rw [State.asleep_sleepD hd]
    obtain ⟨hshadow, howner⟩ := State.setShadow_empty_shows s.asleepR.withoutShadow
    exact ⟨s.asleepD_onlyRegs.same (f := State.shadow) fun _ _ => rfl, hshadow, howner, s.asleepD_regsBut⟩

/-- Settles O18. -/
theorem wakeLeavesSleep : Obligations.WakeLeavesSleep := by
  intro s ev q ok cores
  refine ⟨fun h6 hw => ⟨fun hd => ?_, fun hd hx => ?_⟩, fun h1 => ⟨(s.put CLK_STATUS_REF_OK 1).exitAt 2, ?_, ?_, ?_, ?_, ?_⟩,
    fun h3 => ⟨?_, ?_⟩, fun hen hao => ?_⟩
  · simp only [exec, execSleepDWake, h6, hd, State.leaveSleep_cons hw, and_self, if_true]
  · simp only [exec, execSleepRWake, h6, hd, hx, State.leaveSleep_cons hw, and_self, if_true]
  · simp only [exec, execWakeExitAdvance, State.exitNext, h1]
  · exact State.fld_put_self s CLK_STATUS_REF_OK 1 (by decide)
  · rfl
  · rfl
  · exact ((State.RegsBut.refl s [rCLK_STATUS]).put (f := CLK_STATUS_REF_OK) 1 List.mem_cons_self).same rfl
  · simp only [exec, execWakeExitAdvance, State.exitNext, h3, if_true]
  · simp only [exec, execWakeExitAdvance, State.exitNext, h3, Bool.false_eq_true, if_false]
  · simp only [exec, execWakeTimer, hen, hao, and_self, if_true]

end Sys2Proof.Machine
end

section
/-! PROOFS. A frame received at its port, and the ageing of a fragment context (R10, R11, R77 to R79, R119): O29. -/

namespace Sys2Proof.Machine

namespace State

theorem releaseAll_nil (s : State) : s.releaseAll [] = s := rfl

/-! ## The end of a reception -/

theorem rxEnd_failed {s : State} {n : Nat} {b : List Byte} {rx : RxCond} {e : RxFail} (p : Nat) (fs : List Frame)
    (h : rxCheck n b rx = some e) : s.rxEnd p n b rx fs = (s.rxFail p e).releaseAll fs := by
  simp only [rxEnd, h]

theorem rxEnd_control {s : State} {n : Nat} {b : List Byte} {rx : RxCond} {p : Nat} (fs : List Frame)
    (h : rxCheck n b rx = none) (hc : isControl b = true) (hp : p < 24) :
    s.rxEnd p n b rx fs = (s.rxPass p b.length).inc (ETH_RX_CTRL_CNT_VAL p) := by
  simp only [rxEnd, h, hc, if_true, rxControl, isEth, hp, decide_true]

theorem rxEnd_passed {s : State} {n : Nat} {b : List Byte} {rx : RxCond} (p : Nat) (fs : List Frame)
    (h : rxCheck n b rx = none) (hc : isControl b = false) :
    s.rxEnd p n b rx fs = (s.rxPass p b.length).rxForward p b fs := by
  simp only [rxEnd, h, hc, Bool.false_eq_true, if_false]

/-- A runt at an Ethernet port is counted there and raises RX_ERR. -/
theorem rxFail_runt (s : State) {p : Nat} (hp : p < 24) :
    s.rxFail p .runt = (s.inc (ETH_RX_RUNT_CNT_VAL p)).setFlag (ETH_EVT_RX_ERR p) := by
  simp only [rxFail, isEth, hp, decide_true, if_true]

theorem rxFail_runt_shows (s : State) {p : Nat} (hp : p < 24) :
    (s.rxFail p .runt).fld (ETH_RX_RUNT_CNT_VAL p) =
      (s.fld (ETH_RX_RUNT_CNT_VAL p) + 1) % 2 ^ (ETH_RX_RUNT_CNT_VAL p).wid ∧
    (s.rxFail p .runt).flag (ETH_EVT_RX_ERR p) = true ∧ s.OnlyRegs (s.rxFail p .runt) [rETH_RX_RUNT_CNT p, rETH_EVT p] := by
  have hne : (ETH_RX_RUNT_CNT_VAL p).addr ≠ (ETH_EVT_RX_ERR p).addr := by
    simp only [ETH_RX_RUNT_CNT_VAL, ETH_EVT_RX_ERR, rETH_RX_RUNT_CNT, rETH_EVT]
    omega
  rw [s.rxFail_runt hp, setFlag_eq, inc_eq]
  refine ⟨?_, ?_, ?_⟩
  · rw [fld_put_addr _ _ hne, fld_put_self _ _ _ (by simp [ETH_RX_RUNT_CNT_VAL])]
  · rw [flag_put_self _ _ _ (by simp [ETH_EVT_RX_ERR])]
    rfl
  · exact ((OnlyRegs.refl s _).put (f := ETH_RX_RUNT_CNT_VAL p) _ (by simp [ETH_RX_RUNT_CNT_VAL])).put _
      (by simp [ETH_EVT_RX_ERR])

end State

/-! ## A frame at its port -/

section
variable {s : State} {p : Nat} {b : List Byte} {rx : RxCond} {age : Nat}

/-- A port at which nothing is received. -/
theorem exec_frameReceive_deaf
    (h : 32 ≤ p ∨ s.portOn p = false ∨ s.pwr.sleep ≠ 0 ∨ (s.linkUp p = false ∧ rx ≠ .cutOff)) :
    exec (.frameReceive p b rx age) s = .next s := by
  rw [exec, execFrameReceive, if_pos h]

variable (hp : p < 32) (hon : s.portOn p = true) (hs : s.pwr.sleep = 0) (hl : s.linkUp p = true)
include hp hon hs hl

theorem hears_of_linkUp : ¬ (32 ≤ p ∨ s.portOn p = false ∨ s.pwr.sleep ≠ 0 ∨ (s.linkUp p = false ∧ rx ≠ .cutOff)) := by
  simp [hon, hs, hl, hp]

/-- A MAC control frame holds no buffers. -/
theorem exec_frameReceive_control (hc : isControl b = true) :
    exec (.frameReceive p b rx age) s = .next (s.rxEnd p (s.rxMax p) b rx []) := by
  rw [exec, execFrameReceive, if_neg (hears_of_linkUp hp hon hs hl), if_pos hc]

/-- Any other frame, whose copies found buffers. -/
theorem exec_frameReceive_held (hc : isControl b = false) {s1 : State} {fs : List Frame}
    (hh : s.hold p false (s.rxStored p b) (s.stampAgo age) age none = (s1, some fs)) :
    exec (.frameReceive p b rx age) s = .next (s1.rxEnd p (s.rxMax p) b rx fs) := by
  rw [exec, execFrameReceive, if_neg (hears_of_linkUp hp hon hs hl), if_neg (by simp [hc]), hh]

end

/-! ## A fragment context ages (R119) -/

theorem exec_fragAge {s : State} {pl : Plane} {i : Nat} (h : i < (s.plane pl).frags.length) : exec (.fragAge pl i) s =
    .next ((s.setPlane pl { s.plane pl with frags := (s.plane pl).frags.eraseIdx i }).inc (PRS_FRAG_AGED_CNT_VAL pl)) := by
  rw [exec, execFragAge]
  exact congrArg _ (if_pos h)

namespace State

theorem plane_inc (s : State) (f : Fld) (pl : Plane) : (s.inc f).plane pl = s.plane pl := by
  cases pl with
  | A => exact put_planeA s _ _
  | B => exact put_planeB s _ _

theorem setPlane_reg (s : State) (pl : Plane) (q : PlaneSt) (a : Nat) : (s.setPlane pl q).reg a = s.reg a := by cases pl <;> rfl

theorem setPlane_fld (s : State) (pl : Plane) (q : PlaneSt) (f : Fld) : (s.setPlane pl q).fld f = s.fld f := by cases pl <;> rfl

/-- A state with its registers and planes put back to those of another. -/
def planesBack (s t : State) : State := { t with regs := s.regs, planeA := s.planeA, planeB := s.planeB }

theorem planesBack_setPlane (s : State) (pl : Plane) (q : PlaneSt) : s.planesBack (s.setPlane pl q) = s := by cases pl <;> rfl

/-- A plane changed and one of its counters advanced. -/
theorem setPlane_inc_frame (s : State) (pl : Plane) (q : PlaneSt) {f : Fld} (hf : f.lsb + f.wid ≤ 32) :
    ((s.setPlane pl q).inc f).plane pl = q ∧ ((s.setPlane pl q).inc f).fld f = (s.fld f + 1) % 2 ^ f.wid ∧
    s.planesBack ((s.setPlane pl q).inc f) = s ∧ ((s.setPlane pl q).inc f).plane (twinOf pl) = s.plane (twinOf pl) ∧
    s.RegsBut ((s.setPlane pl q).inc f) [f.addr] := by
  have h := (s.setPlane pl q).inc_onlyRegs f
  refine ⟨?_, ?_, ?_, ?_, fun a ha => ?_⟩
  · rw [plane_inc, plane_setPlane_self]
  · rw [inc_eq, fld_put_self _ _ _ hf, setPlane_fld]
  · rw [h.same (f := s.planesBack) fun _ _ => rfl, planesBack_setPlane]
  · rw [plane_inc, plane_setPlane_twin]
  · rw [h.regs a ha, setPlane_reg]

end State

/-- Settles O29: a reception by its check, whether the frame holds buffers or is a control frame. -/
theorem frameIsCheckedAtItsPort : Obligations.FrameIsCheckedAtItsPort := by
  intro s p age i b rx pl
  refine ⟨exec_frameReceive_deaf, fun hp hon hs hl hc => ⟨fun hk => ?_, fun hk => ⟨s.rxFail p .runt, ?_, s.rxFail_runt_shows hp⟩⟩,
    fun hp hon hs hl hc s1 fs hh => ⟨fun hk => ?_, fun e hk => ?_⟩, fun hi => ⟨_, exec_fragAge hi, ?_⟩⟩
  · rw [exec_frameReceive_control (by omega) hon hs hl hc, State.rxEnd_control [] hk hc hp]
  · rw [exec_frameReceive_control (by omega) hon hs hl hc, State.rxEnd_failed p [] hk, State.releaseAll_nil]
  · rw [exec_frameReceive_held hp hon hs hl hc hh, State.rxEnd_passed p fs hk hc]
  · rw [exec_frameReceive_held hp hon hs hl hc hh, State.rxEnd_failed p fs hk]
  · obtain ⟨hplane, hrest⟩ := s.setPlane_inc_frame pl { s.plane pl with frags := (s.plane pl).frags.eraseIdx i }
      (f := PRS_FRAG_AGED_CNT_VAL pl) (by simp [PRS_FRAG_AGED_CNT_VAL])
    exact ⟨congrArg PlaneSt.frags hplane, hrest⟩

end Sys2Proof.Machine
end

section
/-! PROOFS. The good form, kept by every command and every step: O5 and O6. -/

namespace Sys2Proof.Machine

/-- Every command keeps the good form and the queue, by the law of its own operation. -/
theorem exec_keeps {q : List Instr} (c : Instr) {s : State} (h : s.Keeps q) : ∃ u, exec c s = .next u ∧ u.Keeps q := by
  cases c with
  | registerWrite r addr size v => exact execRegisterWrite_keeps r addr size v h
  | loRead r addr size => exact execLoRead_keeps r addr size h
  | rcCounterRead r addr size => exact execRcCounterRead_keeps r addr size h
  | host64bitAccess r wr addr v => exact execHost64bitAccess_keeps r wr addr v h
  | reqRun r tie => exact execReqRun_keeps r tie h
  | reqTest r tie => exact execReqTest_keeps r tie h
  | reqRecovery r tie => exact execReqRecovery_keeps r tie h
  | reqSleepR r tie => exact execReqSleepR_keeps r tie h
  | reqSleepD r tie => exact execReqSleepD_keeps r tie h
  | sleepEntryAdvance => exact execSleepEntryAdvance_keeps h
  | glbSwreset r key go => exact execGlbSwreset_keeps r key go h
  | powerOnReset => exact execPowerOnReset_keeps h
  | resetNLow held => exact execResetNLow_keeps held h
  | pwrGoodLow held => exact execPwrGoodLow_keeps held h
  | supplyMonitorReset => exact execSupplyMonitorReset_keeps h
  | thermalReset => exact execThermalReset_keeps h
  | debugReset => exact execDebugReset_keeps h
  | resetRelease bootMode splitN => exact execResetRelease_keeps bootMode splitN h
  | bootStepDone outcome => exact execBootStepDone_keeps outcome h
  | pwrHostbootGo r go => exact execPwrHostbootGo_keeps r go h
  | chtOpen r tie => exact execChtOpen_keeps r tie h
  | shadowWindowWrite r addr v => exact execShadowWindowWrite_keeps r addr v h
  | chtVerify r tie => exact execChtVerify_keeps r tie h
  | verifyDone => exact execVerifyDone_keeps h
  | chtArm r tie => exact execChtArm_keeps r tie h
  | chtDisarm r tie late => exact execChtDisarm_keeps r tie late h
  | chtDiscard r tie => exact execChtDiscard_keeps r tie h
  | chtAbortSwap r tie late => exact execChtAbortSwap_keeps r tie late h
  | chtFloorWrite r v => exact execChtFloorWrite_keeps r v h
  | preparationComplete => exact execPreparationComplete_keeps h
  | chartDownbeat => exact execChartDownbeat_keeps h
  | oldEpochDeleteDone => exact execOldEpochDeleteDone_keeps h
  | handoverDrainEnd => exact execHandoverDrainEnd_keeps h
  | swapRebuildDone => exact execSwapRebuildDone_keeps h
  | swapResyncDone => exact execSwapResyncDone_keeps h
  | frameReceive port bytes rx age => exact execFrameReceive_keeps port bytes rx age h
  | linkFault port remote => exact execLinkFault_keeps port remote h
  | linkUpDebounce port => exact execLinkUpDebounce_keeps port h
  | adminDownWrite r port down => exact execAdminDownWrite_keeps r port down h
  | anResult port speed => exact execAnResult_keeps port speed h
  | verifyMpacketTimer port => exact execVerifyMpacketTimer_keeps port h
  | respondMpacket port => exact execRespondMpacket_keeps port h
  | holdExpire port tie => exact execHoldExpire_keeps port tie h
  | holdMsWrite r port ms elapsed => exact execHoldMsWrite_keeps r port ms elapsed h
  | plcaBeacon n => exact execPlcaBeacon_keeps n h
  | beaconTimeout n => exact execBeaconTimeout_keeps n h
  | t1sCollision n => exact execT1sCollision_keeps n h
  | fragAge pl idx => exact execFragAge_keeps pl idx h
  | excLimiterWrite r burst v => exact execExcLimiterWrite_keeps r burst v h
  | tblInsert r tie wide pin => exact execTblInsert_keeps r tie wide pin h
  | tblReplace r tie wide pin => exact execTblReplace_keeps r tie wide pin h
  | tblDelete r tie wide => exact execTblDelete_keeps r tie wide h
  | tblLookup r tie wide pl => exact execTblLookup_keeps r tie wide pl h
  | tblReadAt r tie region pl => exact execTblReadAt_keeps r tie region pl h
  | tblWriteAt r tie region => exact execTblWriteAt_keeps r tie region h
  | tblRehash r tie region => exact execTblRehash_keeps r tie region h
  | tblResume r tie region => exact execTblResume_keeps r tie region h
  | tblUnlock r tie wide => exact execTblUnlock_keeps r tie wide h
  | tblFlushLearned r tie region => exact execTblFlushLearned_keeps r tie region h
  | tblLpmInsert r tie pin => exact execTblLpmInsert_keeps r tie pin h
  | tblLpmDelete r tie => exact execTblLpmDelete_keeps r tie h
  | tblLpmLookup r tie => exact execTblLpmLookup_keeps r tie h
  | tblBloomRebuild r tie => exact execTblBloomRebuild_keeps r tie h
  | rehashWalkEnd region => exact execRehashWalkEnd_keeps region h
  | learnEventApply => exact execLearnEventApply_keeps h
  | ageSweep => exact execAgeSweep_keeps h
  | parityRepair pl table addr => exact execParityRepair_keeps pl table addr h
  | scrubRead pl => exact execScrubRead_keeps pl h
  | pageReadComplete pl region page => exact execPageReadComplete_keeps pl region page h
  | allocSpill pl => exact execAllocSpill_keeps pl h
  | bufferReturnPush pl pool => exact execBufferReturnPush_keeps pl pool h
  | copyWrite pl => exact execCopyWrite_keeps pl h
  | capCtlWrite r v => exact execCapCtlWrite_keeps r v h
  | capTailWrite r v => exact execCapTailWrite_keeps r v h
  | epochEnd write => exact execEpochEnd_keeps write h
  | markerAdmit ctx => exact execMarkerAdmit_keeps ctx h
  | bucketPinWrite r b pin pl => exact execBucketPinWrite_keeps r b pin pl h
  | pinMoveStart b => exact execPinMoveStart_keeps b h
  | rsqExpire ctx => exact execRsqExpire_keeps ctx h
  | egressSelect port elapsed => exact execEgressSelect_keeps port elapsed h
  | transmitEnd port => exact execTransmitEnd_keeps port h
  | gateChange port => exact execGateChange_keeps port h
  | shaperWrite r addr v => exact execShaperWrite_keeps r addr v h
  | snareWrite r addr v => exact execSnareWrite_keeps r addr v h
  | incNsWrite r tb v => exact execIncNsWrite_keeps r tb v h
  | tbStep r tb => exact execTbStep_keeps r tb h
  | timSnap r mask => exact execTimSnap_keeps r mask h
  | txtsPop r pop => exact execTxtsPop_keeps r pop h
  | ppsPulse n => exact execPpsPulse_keeps n h
  | ppsEdge n elapsed => exact execPpsEdge_keeps n elapsed h
  | ppsCapPop r n => exact execPpsCapPop_keeps r n h
  | carDeclare r => exact execCarDeclare_keeps r h
  | carWithdraw r stream => exact execCarWithdraw_keeps r stream h
  | carSynth r repack => exact execCarSynth_keeps r repack h
  | carCancel r late => exact execCarCancel_keeps r late h
  | jobStart => exact execJobStart_keeps h
  | jobComplete => exact execJobComplete_keeps h
  | jobDownbeat => exact execJobDownbeat_keeps h
  | beatArrival frm path bytes inSlot => exact execBeatArrival_keeps frm path bytes inSlot h
  | beatSlot frm => exact execBeatSlot_keeps frm h
  | redIsolate r pl => exact execRedIsolate_keeps r pl h
  | redTest r pl => exact execRedTest_keeps r pl h
  | redTestDone logicOk faults => exact execRedTestDone_keeps logicOk faults h
  | redRejoin r pl => exact execRedRejoin_keeps r pl h
  | rejoinRebuildDone => exact execRejoinRebuildDone_keeps h
  | rejoinResyncDone => exact execRejoinResyncDone_keeps h
  | redPromote r pl => exact execRedPromote_keeps r pl h
  | takebackExpire tie => exact execTakebackExpire_keeps tie h
  | frerResetTimer pl rec => exact execFrerResetTimer_keeps pl rec h
  | takeAnyWrite r pl rec => exact execTakeAnyWrite_keeps r pl rec h
  | canMessageReceive n msg age => exact execCanMessageReceive_keeps n msg age h
  | canProtocolError n err => exact execCanProtocolError_keeps n err h
  | canRecover r n => exact execCanRecover_keeps r n h
  | busOffRecoveryEnd n => exact execBusOffRecoveryEnd_keeps n h
  | canArbitration n elapsed won => exact execCanArbitration_keeps n elapsed won h
  | canTxSuccess n => exact execCanTxSuccess_keeps n h
  | canFlushTxbuf r n => exact execCanFlushTxbuf_keeps r n h
  | canAdminDown r n down => exact execCanAdminDown_keeps r n down h
  | linAdminDown r n down => exact execLinAdminDown_keeps r n down h
  | linBusDominant n => exact execLinBusDominant_keeps n h
  | linSlot n elapsed => exact execLinSlot_keeps n elapsed h
  | linHeader n pid age => exact execLinHeader_keeps n pid age h
  | linResponse n data err => exact execLinResponse_keeps n data err h
  | linResponseTimeout n => exact execLinResponseTimeout_keeps n h
  | linSchedSel r n sel => exact execLinSchedSel_keeps r n sel h
  | linSchedRun r n run => exact execLinSchedRun_keeps r n run h
  | acfBatchClose lin n => exact execAcfBatchClose_keeps lin n h
  | unpackMove lin n => exact execUnpackMove_keeps lin n h
  | nmRepeatExpire c => exact execNmRepeatExpire_keeps c h
  | nmTimeout c => exact execNmTimeout_keeps c h
  | readySleepDrained c => exact execReadySleepDrained_keeps c h
  | readyMaxExpire c => exact execReadyMaxExpire_keeps c h
  | knell c => exact execKnell_keeps c h
  | knellEnd c => exact execKnellEnd_keeps c h
  | wakePinEdge k => exact execWakePinEdge_keeps k h
  | canWakePattern n => exact execCanWakePattern_keeps n h
  | swFrameDecode n frame => exact execSwFrameDecode_keeps n frame h
  | swBusIdle n => exact execSwBusIdle_keeps n h
  | linBusWake n => exact execLinBusWake_keeps n h
  | tc10Wake port => exact execTc10Wake_keeps port h
  | nmFwRequest r c hold => exact execNmFwRequest_keeps r c hold h
  | chimeTimer c => exact execChimeTimer_keeps c h
  | settleExpire c => exact execSettleExpire_keeps c h
  | linScheduleRestart n => exact execLinScheduleRestart_keeps n h
  | nmwAoSnap r => exact execNmwAoSnap_keeps r h
  | wrecPop r => exact execWrecPop_keeps r h
  | flowRequestApply => exact execFlowRequestApply_keeps h
  | flushFlows r => exact execFlushFlows_keeps r h
  | flowSweep prof => exact execFlowSweep_keeps prof h
  | blfGenerate r slot pending exprt => exact execBlfGenerate_keeps r slot pending exprt h
  | blfDerive r slot pending exprt => exact execBlfDerive_keeps r slot pending exprt h
  | blfImport r slot pending exprt => exact execBlfImport_keeps r slot pending exprt h
  | blfImportPublic r slot => exact execBlfImportPublic_keeps r slot h
  | blfExport r slot => exact execBlfExport_keeps r slot h
  | blfCheck r slot => exact execBlfCheck_keeps r slot h
  | blfCommit r slot => exact execBlfCommit_keeps r slot h
  | blfDiscardPending r slot => exact execBlfDiscardPending_keeps r slot h
  | blfInvalidate r slot => exact execBlfInvalidate_keeps r slot h
  | blfReadAttr r slot => exact execBlfReadAttr_keeps r slot h
  | blfGetPublic r slot => exact execBlfGetPublic_keeps r slot h
  | blfAttest r slot => exact execBlfAttest_keeps r slot h
  | blfCert r => exact execBlfCert_keeps r h
  | yelnyStage r => exact execYelnyStage_keeps r h
  | yelnyCommit r => exact execYelnyCommit_keeps r h
  | reclaimerStep => exact execReclaimerStep_keeps h
  | meteringRecord => exact execMeteringRecord_keeps h
  | ldgRestore r => exact execLdgRestore_keeps r h
  | ldgFresh r => exact execLdgFresh_keeps r h
  | ldgSeal r => exact execLdgSeal_keeps r h
  | ldgReport r => exact execLdgReport_keeps r h
  | ckptTimer => exact execCkptTimer_keeps h
  | ledgerHoldExpire c => exact execLedgerHoldExpire_keeps c h
  | cipherSubmit r => exact execCipherSubmit_keeps r h
  | cipherOpStart => exact execCipherOpStart_keeps h
  | cipherOpCommit op => exact execCipherOpCommit_keeps op h
  | cipherAbort r op => exact execCipherAbort_keeps r op h
  | alarmClr r => exact execAlarmClr_keeps r h
  | outputMismatch diff skew => exact execOutputMismatch_keeps diff skew h
  | signatureCompare diff => exact execSignatureCompare_keeps diff h
  | coreSelftestDone core pass => exact execCoreSelftestDone_keeps core pass h
  | coreResyncDone => exact execCoreResyncDone_keeps h
  | dbgAuthGo r => exact execDbgAuthGo_keeps r h
  | debugAction act => exact execDebugAction_keeps act h
  | debugResume => exact execDebugResume_keeps h
  | triApCtlWrite r run => exact execTriApCtlWrite_keeps r run h
  | sourceSignalChange src => exact execSourceSignalChange_keeps src h
  | routePending => exact execRoutePending_keeps h
  | clpComplete r target src => exact execClpComplete_keeps r target src h
  | targetPowerDown target => exact execTargetPowerDown_keeps target h
  | clpHoldWrite r hold => exact execClpHoldWrite_keeps r hold h
  | moderationExpire target => exact execModerationExpire_keeps target h
  | targetWfi target => exact execTargetWfi_keeps target h
  | sourceCfgWrite r src v => exact execSourceCfgWrite_keeps r src v h
  | tnwAttach r tn woc => exact execTnwAttach_keeps r tn woc h
  | grantComplete tn => exact execGrantComplete_keeps tn h
  | tnwDetach r tn woc => exact execTnwDetach_keeps r tn woc h
  | tnwDoze r tn woc => exact execTnwDoze_keeps r tn woc h
  | tnwResume r tn woc => exact execTnwResume_keeps r tn woc h
  | tnwLiveWrite r tn => exact execTnwLiveWrite_keeps r tn h
  | livenessExpire tn tie => exact execLivenessExpire_keeps tn tie h
  | functionLevelReset tn => exact execFunctionLevelReset_keeps tn h
  | pcieLinkEvent link ev => exact execPcieLinkEvent_keeps link ev h
  | dmaError tn => exact execDmaError_keeps tn h
  | hstReclaim r tn sel => exact execHstReclaim_keeps r tn sel h
  | commandFetch tn => exact execCommandFetch_keeps tn h
  | tenTable tn => exact execTenTable_keeps tn h
  | tenStreamDeclare tn => exact execTenStreamDeclare_keeps tn h
  | tenStreamWithdraw tn => exact execTenStreamWithdraw_keeps tn h
  | tenKey tn => exact execTenKey_keeps tn h
  | tenCipher tn => exact execTenCipher_keeps tn h
  | tenCapture tn => exact execTenCapture_keeps tn h
  | tenStats tn => exact execTenStats_keeps tn h
  | tenNmReq tn => exact execTenNmReq_keeps tn h
  | tenAbort tn late => exact execTenAbort_keeps tn late h
  | tenKeepalive tn => exact execTenKeepalive_keeps tn h
  | completionWrite tn => exact execCompletionWrite_keeps tn h
  | txDescriptorFetch tn ring => exact execTxDescriptorFetch_keeps tn ring h
  | inbandFrame pl port bytes => exact execInbandFrame_keeps pl port bytes h
  | inbandCompletionSend tn => exact execInbandCompletionSend_keeps tn h
  | vectorSend tn v => exact execVectorSend_keeps tn v h
  | msixUnmask tn v => exact execMsixUnmask_keeps tn v h
  | pwrDomWrite r off => exact execPwrDomWrite_keeps r off h
  | sleepRWake => exact execSleepRWake_keeps h
  | wakeExitAdvance ok cores => exact execWakeExitAdvance_keeps ok cores h
  | sleepDWake => exact execSleepDWake_keeps h
  | wakeTimer => exact execWakeTimer_keeps h
  | clockLoss clk => exact execClockLoss_keeps clk h
  | serdesPllLockLoss quad => exact execSerdesPllLockLoss_keeps quad h
  | alarmFire bit => exact execAlarmFire_keeps bit h
  | tempSample t => exact execTempSample_keeps t h
  | memoryError err => exact execMemoryError_keeps err h
  | rasErrPop r => exact execRasErrPop_keeps r h
  | errOutForce r force => exact execErrOutForce_keeps r force h
  | wdgQuestion q => exact execWdgQuestion_keeps q h
  | wdgAnswer r ans tie => exact execWdgAnswer_keeps r ans tie h
  | timeBaseTick => exact execTimeBaseTick_keeps h
  | tokenBucketStep => exact execTokenBucketStep_keeps h
  | pcsLockAcquire port ev => exact execPcsLockAcquire_keeps port ev h
  | canBusIntegration n => exact execCanBusIntegration_keeps n h
  | linBusRelease n => exact execLinBusRelease_keeps n h
  | alarmCease bit => exact execAlarmCease_keeps bit h
  | lpddrReadyLost => exact execLpddrReadyLost_keeps h
  | bootPlaneBJoin => exact execBootPlaneBJoin_keeps h
  | wdgAnswerSent => exact execWdgAnswerSent_keeps h
  | xo32kStart => exact execXo32kStart_keeps h

/-- Settles O5, with the waiting commands as the queue that is kept. -/
theorem everyCommandCompletesInGoodForm : Obligations.EveryCommandCompletesInGoodForm := by
  intro c s h
  obtain ⟨u, hu, hinv, hq⟩ := exec_keeps (q := s.pending) c ⟨h, rfl⟩
  exact ⟨u, hu, hinv, hq⟩

/-- The queue is no part of the good form. -/
theorem State.withPending_inv {s : State} (h : s.Inv) (q : List Instr) : (s.withPending q).Inv := { h with }

/-- One microsecond more stays within the 48 bits of the AO counter. -/
theorem State.idle_inv {s : State} (h : s.Inv) : s.idle.Inv := { h with ao := Nat.mod_lt _ (Nat.two_pow_pos 48) }

theorem step_of_empty {s : State} (h : s.pending = []) : step s = .next s.idle := by rw [step, h]

theorem step_of_front {s : State} {c : Instr} {q : List Instr} (h : s.pending = c :: q) :
    step s = exec c (s.withPending q) := by rw [step, h]

/-- Settles O6: a step idles, or runs the front command on the queue's rest. -/
theorem everyStepKeepsGoodForm : Obligations.EveryStepKeepsGoodForm := by
  intro s t h hs
  cases hp : s.pending with
  | nil =>
    rw [step_of_empty hp] at hs
    obtain rfl : s.idle = t := Host.Outcome.next.inj hs
    exact State.idle_inv h
  | cons c q =>
    rw [step_of_front hp] at hs
    obtain ⟨u, hu, hinv, -⟩ := everyCommandCompletesInGoodForm c (s.withPending q) (State.withPending_inv h q)
    obtain rfl : u = t := Host.Outcome.next.inj (hu.symm.trans hs)
    exact hinv

end Sys2Proof.Machine
end

section
/-! PROOFS. The commands of CHT_CTL and CHT_FLOOR (R49 to R54): O20, O21 and O23. -/

namespace Sys2Proof.Machine

namespace State

/-! ## The checks of a command of CHT_CTL (R52, R54) -/

/-- What refuses a chart command with BUSY. -/
def chartBusy (s : State) (r : Requester) (tie : Bool) : Prop := (tie = true ∧ isMc r = false) ∨ s.fld CHT_CTL_RESULT = 1

/-- The shadow is held by another requester. -/
def chartForeign (s : State) (r : Requester) : Prop := s.fld CHT_STATUS_SHADOW ≠ 0 ∧ s.fld CHT_CTL_OWNER ≠ ownerCode r

theorem not_chartBusy {s : State} {r : Requester} {tie : Bool} (ht : tie = true → isMc r = true)
    (hn : s.fld CHT_CTL_RESULT ≠ 1) : ¬ s.chartBusy r tie := by
  rintro (⟨h, hm⟩ | h)
  · simp [ht h] at hm
  · exact hn h

theorem not_chartForeign_of_owner {s : State} {r : Requester} (h : s.fld CHT_CTL_OWNER = ownerCode r) : ¬ s.chartForeign r :=
  fun hf => hf.2 h

theorem not_chartForeign_of_empty {s : State} {r : Requester} (h : s.fld CHT_STATUS_SHADOW = 0) : ¬ s.chartForeign r :=
  fun hf => hf.1 h

theorem shadowIs_of_fld {s : State} {m : Nat} (h : s.fld CHT_STATUS_SHADOW = m) (n : Nat) : s.shadowIs n = (m == n) :=
  congrArg (· == n) h

section
variable {s : State} {r : Requester} {tie : Bool} (hr : s.reaches r rCHT_CTL)
include hr

/-- Every command that reaches CHT_CTL, in the order of its checks. -/
theorem chCommand_eq (free : Bool) (act : State → State) : s.chCommand r tie free act =
    if (tie = true ∧ isMc r = false) ∨ s.fld CHT_CTL_RESULT = chACCEPTED then s.chResult chBUSY
    else if s.shadowIs shEMPTY = false ∧ s.fld CHT_CTL_OWNER ≠ ownerCode r ∧ free = false then s.chResult chNOTOWNER
    else act s := gated_reaches hr _

theorem chCommand_busy (hb : s.chartBusy r tie) (free : Bool) (act : State → State) :
    s.chCommand r tie free act = s.chResult chBUSY := by
  rw [chCommand_eq hr]
  exact if_pos hb

theorem chCommand_foreign (hb : ¬ s.chartBusy r tie) (hf : s.chartForeign r) (act : State → State) :
    s.chCommand r tie false act = s.chResult chNOTOWNER := by
  obtain ⟨hshadow, howner⟩ := hf
  rw [chCommand_eq hr]
  exact (if_neg hb).trans (if_pos ⟨beq_false_of_ne hshadow, howner, rfl⟩)

theorem chCommand_acts (hb : ¬ s.chartBusy r tie) (hf : ¬ s.chartForeign r) (free : Bool) (act : State → State) :
    s.chCommand r tie free act = act s := by
  rw [chCommand_eq hr]
  exact (if_neg hb).trans (if_neg fun ⟨hshadow, howner, _⟩ => hf ⟨ne_of_beq_false hshadow, howner⟩)

end

/-! ## RESULT and the states of the shadow -/

theorem fld_chResult (s : State) {n : Nat} (hn : n < 16) : (s.chResult n).fld CHT_CTL_RESULT = n :=
  (fld_put_self s _ n (by decide)).trans (Nat.mod_eq_of_lt hn)

theorem fld_chResult_shadow (s : State) (n : Nat) : (s.chResult n).fld CHT_STATUS_SHADOW = s.fld CHT_STATUS_SHADOW :=
  fld_put_addr s n (by decide)

theorem fld_chResult_owner (s : State) (n : Nat) : (s.chResult n).fld CHT_CTL_OWNER = s.fld CHT_CTL_OWNER :=
  fld_put_beside s n (by decide) (by decide)

theorem OnlyRegs.chResult {s t : State} {as : List Nat} (h : s.OnlyRegs t as) (ha : rCHT_CTL ∈ as) (n : Nat) :
    s.OnlyRegs (t.chResult n) as := h.put n ha

/-- A refusal only shows its code. -/
theorem chResult_refused (s : State) {n : Nat} (hn : n < 16) :
    (s.chResult n).fld CHT_CTL_RESULT = n ∧ s.OnlyRegs (s.chResult n) [rCHT_CTL] :=
  ⟨s.fld_chResult hn, (OnlyRegs.refl s _).chResult List.mem_cons_self n⟩

/-- Every state but EMPTY and ARMED only ends READY. -/
theorem setShadow_plain (s : State) {n : Nat} (h0 : n ≠ shEMPTY) (h5 : n ≠ shARMED) :
    s.setShadow n = (s.put CHT_STATUS_SHADOW n).put CHT_STATUS_READY 0 := by
  simp only [setShadow, h0, h5, if_false]

theorem setShadow_onlyRegs (s : State) {n : Nat} (h0 : n ≠ shEMPTY) : s.OnlyRegs (s.setShadow n) [rCHT_STATUS] := by
  have hs : s.OnlyRegs (s.put CHT_STATUS_SHADOW n) [rCHT_STATUS] := (OnlyRegs.refl s _).put n (by decide)
  by_cases h5 : n = shARMED
  · subst h5
    exact hs
  · rw [setShadow_plain s h0 h5]
    exact hs.put 0 (by decide)

theorem fld_setShadow_shadow (s : State) {n : Nat} (hn : n < 8) : (s.setShadow n).fld CHT_STATUS_SHADOW = n := by
  have hs : (s.put CHT_STATUS_SHADOW n).fld CHT_STATUS_SHADOW = n :=
    (fld_put_self s _ n (by decide)).trans (Nat.mod_eq_of_lt hn)
  by_cases h0 : n = shEMPTY
  · subst h0
    exact s.setShadow_empty_shows.1
  by_cases h5 : n = shARMED
  · subst h5
    exact hs
  · rw [setShadow_plain s h0 h5, fld_put_beside _ _ (by decide) (by decide), hs]

theorem fld_setShadow_of_ne (s : State) {n : Nat} (h0 : n ≠ shEMPTY) {f : Fld} (hf : f.addr ≠ rCHT_STATUS) :
    (s.setShadow n).fld f = s.fld f := by
  rw [fld, (s.setShadow_onlyRegs h0).regs _ (by simpa using hf), fld]

/-! ## OPEN, VERIFY and DISCARD (R51) -/

theorem ownerCode_lt (r : Requester) : ownerCode r < 4 := by cases r <;> simp [ownerCode]

theorem chOpen_empty {s : State} (r : Requester) (h : s.fld CHT_STATUS_SHADOW = 0) :
    s.chOpen r = ((s.put CHT_CTL_OWNER (ownerCode r)).setShadow shLOADING).chResult chDONE :=
  if_pos (.inl (shadowIs_of_fld h shEMPTY))

theorem chVerify_loading {s : State} (h : s.fld CHT_STATUS_SHADOW = 1) :
    s.chVerify = (s.setShadow shVERIFYING).chResult chACCEPTED := if_pos (shadowIs_of_fld h shLOADING)

theorem chDiscard_held {s : State} (h : s.fld CHT_STATUS_SHADOW ∈ [1, 3, 4]) :
    s.chDiscard = (s.setShadow shEMPTY).chResult chDONE := by
  refine if_pos ?_
  simpa [shadowIs, shLOADING, shVERIFIED, shREJECTED] using h

theorem chOpen_empty_shows {s : State} (r : Requester) (h : s.fld CHT_STATUS_SHADOW = 0) :
    (s.chOpen r).fld CHT_STATUS_SHADOW = 1 ∧ (s.chOpen r).fld CHT_CTL_OWNER = ownerCode r ∧
      (s.chOpen r).fld CHT_CTL_RESULT = 2 ∧ s.OnlyRegs (s.chOpen r) [rCHT_CTL, rCHT_STATUS] := by
  rw [chOpen_empty r h]
  refine ⟨?_, ?_, fld_chResult _ (by decide), ?_⟩
  · rw [fld_chResult_shadow, fld_setShadow_shadow _ (by decide), shLOADING]
  · rw [fld_chResult_owner, fld_setShadow_of_ne _ (by decide) (by decide), fld_put_self _ _ _ (by decide)]
    exact Nat.mod_eq_of_lt (ownerCode_lt r)
  · have howned : s.OnlyRegs (s.put CHT_CTL_OWNER (ownerCode r)) [rCHT_CTL, rCHT_STATUS] :=
      (OnlyRegs.refl s _).put _ (by decide)
    have hloading := (howned.put (f := CHT_STATUS_SHADOW) 1 (by decide)).put (f := CHT_STATUS_READY) 0 (by decide)
    rw [setShadow_plain _ (by decide) (by decide)]
    exact hloading.chResult (by decide) _

theorem chVerify_loading_shows {s : State} (h : s.fld CHT_STATUS_SHADOW = 1) :
    s.chVerify.fld CHT_STATUS_SHADOW = 2 ∧ s.chVerify.fld CHT_CTL_RESULT = 1 ∧ s.OnlyRegs s.chVerify [rCHT_CTL, rCHT_STATUS] := by
  rw [chVerify_loading h]
  refine ⟨?_, fld_chResult _ (by decide), ?_⟩
  · rw [fld_chResult_shadow, fld_setShadow_shadow _ (by decide), shVERIFYING]
  · exact ((s.setShadow_onlyRegs (by decide)).mono fun _ => List.mem_cons_of_mem _).chResult (by decide) _

theorem chDiscard_held_shows {s : State} (h : s.fld CHT_STATUS_SHADOW ∈ [1, 3, 4]) :
    s.chDiscard.fld CHT_STATUS_SHADOW = 0 ∧ s.chDiscard.fld CHT_CTL_OWNER = 0 ∧ s.chDiscard.fld CHT_CTL_RESULT = 2 ∧
      s.OnlyRegs s.chDiscard shadowRegs := by
  obtain ⟨hshadow, howner⟩ := s.setShadow_empty_shows
  rw [chDiscard_held h]
  exact ⟨(fld_chResult_shadow _ _).trans hshadow, (fld_chResult_owner _ _).trans howner, fld_chResult _ (by decide),
    s.setShadow_empty_onlyRegs.chResult (by decide) _⟩

/-! ## CHT_FLOOR (R49) -/

/-- The floor after a write is the higher of the two values. -/
theorem fld_writeFloor (s : State) {v : Nat} (hv : v < 2 ^ 32) :
    (s.writeFloor v).fld CHT_FLOOR_FLOOR = max (s.fld CHT_FLOOR_FLOOR) v := by
  have hm : v % 2 ^ 32 = v := Nat.mod_eq_of_lt hv
  unfold writeFloor
  split
  · next hlt =>
    rw [fld_put_self _ _ _ (by decide), Nat.max_eq_right (by omega)]
    exact hm
  · next hge => rw [Nat.max_eq_left (by omega)]

theorem writeFloor_onlyRegs (s : State) (v : Nat) : s.OnlyRegs (s.writeFloor v) [rCHT_FLOOR] := by
  unfold writeFloor
  split
  · exact (OnlyRegs.refl s _).put v (by decide)
  · exact OnlyRegs.refl s _

end State

/-- Each of the six commands of CHT_CTL passes the same checks; only DISCARD by the management cluster is free of the owner. -/
theorem exec_chartCommand (s : State) {r : Requester} {tie late : Bool} {c : Instr}
    (hc : c ∈ [.chtOpen r tie, .chtVerify r tie, .chtArm r tie, .chtDisarm r tie late, .chtDiscard r tie, .chtAbortSwap r tie late]) :
    ∃ free act, (free = true → c = .chtDiscard r tie ∧ isMc r = true) ∧ exec c s = .next (s.chCommand r tie free act) := by
  have owned {c : Instr} {act : State → State} (h : exec c s = .next (s.chCommand r tie false act)) :
      ∃ free act, (free = true → c = .chtDiscard r tie ∧ isMc r = true) ∧ exec c s = .next (s.chCommand r tie free act) :=
    ⟨false, act, fun hf => absurd hf (by decide), h⟩
  simp only [List.mem_cons, List.not_mem_nil, or_false] at hc
  rcases hc with rfl | rfl | rfl | rfl | rfl | rfl
  case inr.inr.inr.inr.inl => exact ⟨isMc r, State.chDiscard, fun hm => ⟨rfl, hm⟩, rfl⟩
  all_goals exact owned rfl

/-- Settles O20: the checks that the six commands share. -/
theorem chartCommandRefusals : Obligations.ChartCommandRefusals := by
  intro s r tie late c hr hc
  obtain ⟨free, act, hfree, he⟩ := exec_chartCommand s hc
  refine ⟨fun hb => ⟨_, he, ?_⟩, fun ht hn hs ho hd => ⟨_, he, ?_⟩⟩
  · rw [State.chCommand_busy hr hb]
    exact s.chResult_refused (by decide)
  · have hf : free = false := Bool.eq_false_iff.mpr fun h => by
      obtain ⟨hdiscard, hmc⟩ := hfree h
      simp [hd hdiscard] at hmc
    rw [hf, State.chCommand_foreign hr (State.not_chartBusy ht hn) ⟨hs, ho⟩]
    exact s.chResult_refused (by decide)

/-- Settles O21: a command that no check stops, by the state in which it acts. -/
theorem shadowCommandsChangeItsState : Obligations.ShadowCommandsChangeItsState := by
  intro s r tie hr ht hn _
  have free : ¬ s.chartBusy r tie := State.not_chartBusy ht hn
  refine ⟨fun h0 => ⟨s.chOpen r, ?_, State.chOpen_empty_shows r h0⟩, fun ho => ?_⟩
  · exact congrArg _ (State.chCommand_acts hr free (State.not_chartForeign_of_empty h0) false fun s => s.chOpen r)
  · have own : ¬ s.chartForeign r := State.not_chartForeign_of_owner ho
    refine ⟨fun h1 => ⟨s.chVerify, ?_, State.chVerify_loading_shows h1⟩, fun hh => ⟨s.chDiscard, ?_, ?_⟩⟩
    · exact congrArg _ (State.chCommand_acts hr free own false State.chVerify)
    · exact congrArg _ (State.chCommand_acts hr free own (isMc r) State.chDiscard)
    · obtain ⟨hshadow, howner, hresult, hregs⟩ := State.chDiscard_held_shows hh
      exact ⟨hshadow, howner, hresult, hregs.mono (by decide)⟩

/-- Settles O23: a write that reaches CHT_FLOOR keeps the higher value. -/
theorem chartFloorOnlyRises : Obligations.ChartFloorOnlyRises := fun s _ v hr hv =>
  ⟨s.writeFloor v, congrArg _ (State.gated_reaches hr fun s => s.writeFloor v), s.fld_writeFloor hv, s.writeFloor_onlyRegs v⟩

end Sys2Proof.Machine
end

section
/-! PROOFS. ARM, DISARM and ABORT_SWAP, and the steps in which an armed chart takes effect (R51, R56 to R70): O25 and O26. -/

namespace Sys2Proof.Machine

namespace State

/-! ## ARM of a chart that is not cold (R56) -/

/-- With TB0 running, ARM of a VERIFIED chart that is not cold and leaves STREAMS alone only arms it. -/
theorem chArm_hot {s : State} (h3 : s.fld CHT_STATUS_SHADOW = 3) (hts : s.flag CLK_STATUS_PLL_TS = true)
    (hk : s.fld CHT_STATUS_KIND ≠ 3) (hst : s.differs tySTREAMS = false) :
    s.chArm = ((s.setShadow shARMED).put CHT_STATUS_LATE 0).chResult chDONE := by
  have hv : s.shadowIs shVERIFIED = true := shadowIs_of_fld h3 shVERIFIED
  have hc : (s.fld CHT_STATUS_KIND == kCOLD) = false := beq_false_of_ne hk
  simp [chArm, hv, hts, hc, hst]

theorem chArm_hot_shows {s : State} (h3 : s.fld CHT_STATUS_SHADOW = 3) (hts : s.flag CLK_STATUS_PLL_TS = true)
    (hk : s.fld CHT_STATUS_KIND ≠ 3) (hst : s.differs tySTREAMS = false) :
    s.chArm.fld CHT_STATUS_SHADOW = 5 ∧ s.chArm.fld CHT_CTL_RESULT = 2 ∧ s.OnlyRegs s.chArm [rCHT_CTL, rCHT_STATUS] := by
  rw [chArm_hot h3 hts hk hst]
  refine ⟨?_, fld_chResult _ (by decide), ?_⟩
  · rw [fld_chResult_shadow, fld_put_beside _ _ (by decide) (by decide), fld_setShadow_shadow _ (by decide), shARMED]
  · have harmed := (s.setShadow_onlyRegs (n := shARMED) (by decide)).put (f := CHT_STATUS_LATE) 0 (by decide)
    exact (harmed.mono fun _ => List.mem_cons_of_mem _).chResult (by decide) _

/-! ## The race with the downbeat or the commit (R62) -/

/-- No downbeat or commit can fall now: the armed chart is not ready, or its swap is being undone. -/
theorem chLate_unready {s : State} {cold : Bool} (h5 : s.fld CHT_STATUS_SHADOW = 5)
    (h : s.flag CHT_STATUS_READY = false ∨ s.cht.back = true) : s.chLate cold = none := by
  have h6 : s.shadowIs shAPPLYING = false := shadowIs_of_fld h5 shAPPLYING
  unfold chLate
  split
  · rfl
  · rw [if_neg (by simp [h6]), if_neg]
    rintro ⟨_, hready, hback⟩
    simp [hready, hback] at h

section
variable {s : State} {cold : Bool} (hk : (s.fld CHT_STATUS_KIND == kCOLD) = cold)
include hk

/-- A chart that is ready takes effect before the command. -/
theorem chLate_ready (h5 : s.fld CHT_STATUS_SHADOW = 5) (hr : s.flag CHT_STATUS_READY = true) (hb : s.cht.back = false) :
    s.chLate cold = some ((if cold then s.swapCommit else s.hotBeat).chResult chALREADY) := by
  have h6 : s.shadowIs shAPPLYING = false := shadowIs_of_fld h5 shAPPLYING
  rw [chLate, if_neg (not_not_intro hk), if_neg (by simp [h6])]
  exact if_pos ⟨shadowIs_of_fld h5 shARMED, hr, hb⟩

/-- The chart took effect before the command, which finds it so. -/
theorem chLate_applying (h6 : s.fld CHT_STATUS_SHADOW = 6) : s.chLate cold = some (s.chResult chALREADY) := by
  rw [chLate, if_neg (not_not_intro hk)]
  exact if_pos (shadowIs_of_fld h6 shAPPLYING)

end

/-! ## DISARM and ABORT_SWAP (R56, R69) -/

theorem chDisarm_late {s t : State} (h : s.chLate false = some t) : s.chDisarm true = t := by
  simp [chDisarm, h]

theorem chAbort_late {s t : State} (h : s.chLate true = some t) : s.chAbort true = t := by
  simp [chAbort, h]

/-- DISARM of an armed hot chart that nothing overtakes. -/
theorem chDisarm_armed {s : State} {late : Bool} (hl : late = true → s.chLate false = none)
    (h5 : s.fld CHT_STATUS_SHADOW = 5) (hk : s.fld CHT_STATUS_KIND ≠ 3) :
    s.chDisarm late = s.disarmShadow.chResult chDONE := by
  have ha : s.shadowIs shARMED = true := shadowIs_of_fld h5 shARMED
  have hc : s.fld CHT_STATUS_KIND ≠ kCOLD := hk
  cases late with
  | false => simp [chDisarm, ha, hc]
  | true => simp [chDisarm, hl rfl, ha, hc]

/-- ABORT_SWAP of an armed cold chart that nothing overtakes begins to undo the swap. -/
theorem chAbort_armed {s : State} {late : Bool} (hl : late = true → s.chLate true = none)
    (h5 : s.fld CHT_STATUS_SHADOW = 5) (hk : s.fld CHT_STATUS_KIND = 3) (hb : s.cht.back = false) :
    s.chAbort late = (s.chResult chACCEPTED).swapBack := by
  have ha : s.shadowIs shARMED = true := shadowIs_of_fld h5 shARMED
  have hc : s.fld CHT_STATUS_KIND = kCOLD := hk
  have hback : (s.chResult chACCEPTED).cht.back = false := hb
  cases late with
  | false => simp [chAbort, ha, hc, hback]
  | true => simp [chAbort, hl rfl, ha, hc, hback]

end State

/-- Settles O25: ARM by what it shows, DISARM and ABORT_SWAP by whether the downbeat or the commit wins. -/
theorem armDisarmAbort : Obligations.ArmDisarmAbort := by
  intro s r tie late hr ht hn ho
  have acts (act : State → State) : s.chCommand r tie false act = act s :=
    State.chCommand_acts hr (State.not_chartBusy ht hn) (State.not_chartForeign_of_owner ho) false act
  have hdisarm : exec (.chtDisarm r tie late) s = .next (s.chDisarm late) := congrArg _ (acts fun s => s.chDisarm late)
  have habort : exec (.chtAbortSwap r tie late) s = .next (s.chAbort late) := congrArg _ (acts fun s => s.chAbort late)
  have hot (hk : s.fld CHT_STATUS_KIND ≠ 3) : (s.fld CHT_STATUS_KIND == kCOLD) = false := beq_false_of_ne hk
  have cold (hk : s.fld CHT_STATUS_KIND = 3) : (s.fld CHT_STATUS_KIND == kCOLD) = true := beq_iff_eq.mpr hk
  rw [hdisarm, habort]
  refine ⟨fun h3 hts hk hst => ⟨s.chArm, congrArg _ (acts State.chArm), State.chArm_hot_shows h3 hts hk hst⟩,
    fun h5 hk => ⟨fun h => ?_, fun hl hready hb => ?_⟩, fun h5 hk hb => ⟨fun h => ?_, fun hl hready => ?_⟩,
    fun hl h6 => ⟨fun hk => ?_, fun hk => ?_⟩⟩
  · have hlate (hl : late = true) : s.chLate false = none := State.chLate_unready h5 (h.resolve_left (by simp [hl]))
    rw [State.chDisarm_armed hlate h5 hk, chDONE]
  · rw [hl, State.chDisarm_late (State.chLate_ready (hot hk) h5 hready hb), if_neg Bool.false_ne_true, chALREADY]
  · have hlate (hl : late = true) : s.chLate true = none := State.chLate_unready h5 (.inl (h.resolve_left (by simp [hl])))
    rw [State.chAbort_armed hlate h5 hk hb, chACCEPTED]
  · rw [hl, State.chAbort_late (State.chLate_ready (cold hk) h5 hready hb), if_pos rfl, chALREADY]
  · rw [hl, State.chDisarm_late (State.chLate_applying (hot hk) h6), chALREADY]
  · rw [hl, State.chAbort_late (State.chLate_applying (cold hk) h6), chALREADY]

namespace State

/-! ## Preparation, the downbeat and the drains (R57 to R59, R64) -/

/-- Preparation of a hot chart that changes neither RULES nor STREAMS has nothing left to do. -/
theorem prepareHot_unchanged {s : State} (hr : s.differs tyRULES = false) (hs : s.differs tySTREAMS = false) :
    s.prepareHot = s.chReady := by
  simp [prepareHot, hr, hs]

theorem prepared_hot {s : State} (h5 : s.fld CHT_STATUS_SHADOW = 5) (hn : s.flag CHT_STATUS_READY = false)
    (hk : s.fld CHT_STATUS_KIND ≠ 3) : s.prepared = s.prepareHot := by
  have ha : s.shadowIs shARMED = true := shadowIs_of_fld h5 shARMED
  have hc : s.fld CHT_STATUS_KIND ≠ kCOLD := hk
  simp [prepared, ha, hn, hc]

/-- The downbeat of an armed chart that is ready, once its time has come. -/
theorem chartBeat_due {s : State} (h5 : s.fld CHT_STATUS_SHADOW = 5) (hready : s.flag CHT_STATUS_READY = true)
    (hb : s.cht.back = false) (hd : ctLater (s.fld64 CHT_DOWNBEAT_LO_TIME CHT_DOWNBEAT_HI_TIME) s.nowCt = false) :
    s.chartBeat = if s.fld CHT_STATUS_KIND = 3 then s.swapCommit else s.hotBeat := by
  have ha : s.shadowIs shARMED = true := shadowIs_of_fld h5 shARMED
  exact if_neg (by simp [ha, hready, hb, hd])

theorem hotBeat_applies (s : State) : s.hotBeat.fld CHT_STATUS_SHADOW = 6 ∧ 189 ∈ s.hotBeat.pulses := by
  unfold hotBeat
  refine ⟨?_, mem_pulse _ 189⟩
  rw [fld_pulse, fld_setShadow_shadow _ (by decide), shAPPLYING]

theorem drainOver_idle {s : State} {pl : Plane} (h : (s.plane pl).handing = false) : s.drainOver pl = s := if_pos h

/-- In a swap the end of a drain leads to the next step. -/
theorem drainOver_swap {s : State} {pl : Plane} (h : (s.plane pl).handing = true) (hs : (s.drainEnd pl).swapBusy = true) :
    s.drainOver pl = (s.drainEnd pl).putStep ((s.drainEnd pl).swapStep + 1) := by
  simp [drainOver, h, hs]

end State

/-- The deletion of the old epoch ends outside a swap: the shadow is EMPTY again (R59). -/
theorem exec_oldEpochDeleteDone {s : State} (h6 : s.fld CHT_STATUS_SHADOW = 6)
    (hs : (s.dropEpoch (1 - s.epoch)).swapBusy = false) :
    exec .oldEpochDeleteDone s = .next ((s.dropEpoch (1 - s.epoch)).setShadow shEMPTY) := by
  have ha : s.shadowIs shAPPLYING = true := State.shadowIs_of_fld h6 shAPPLYING
  simp [exec, execOldEpochDeleteDone, ha, hs]

/-- Settles O26: each step by the state in which it acts. -/
theorem chartTakesEffectInSteps : Obligations.ChartTakesEffectInSteps := by
  intro s
  refine ⟨fun h5 hn hk hr hs => ?_, fun h5 hready hb hd => congrArg _ (State.chartBeat_due h5 hready hb hd), s.hotBeat_applies,
    exec_oldEpochDeleteDone, fun h => congrArg _ (if_pos h), fun h => congrArg _ (if_pos h), fun hA hB hs => ?_⟩
  · exact congrArg _ ((State.prepared_hot h5 hn hk).trans (State.prepareHot_unchanged hr hs))
  · rw [exec, execHandoverDrainEnd, State.drainOver_idle (pl := .A) hA, State.drainOver_swap (pl := .B) hB hs]

end Sys2Proof.Machine
end
section
/-! PROOFS. The commands of TBL_CMD on keys, at places, on regions and on the LPM store (R137 to R148, R153, R172, R560): O31. -/

namespace Sys2Proof.Machine

namespace State

/-- A write of TBL_CMD that reaches an idle engine, with no write of the management cluster in the way, is taken up. -/
theorem tblCommand_taken {s : State} {r : Requester} {tie : Bool} (hr : s.reaches r (rTBL_CMD .A))
    (ht : tie = true → isMc r = true) (hb : s.flag (TBL_CMD_BUSY .A) = false) (act : State → State) :
    s.tblCommand r tie act = act s := by
  rw [tblCommand, gated_reaches hr]
  refine if_neg ?_
  rintro (⟨h, hm⟩ | h)
  · rw [ht h] at hm
    cases hm
  · rw [hb] at h
    cases h

/-- Such a command answers what it does to the state. -/
theorem next_tblCommand {s t : State} {r : Requester} {tie : Bool} {act : State → State} (hr : s.reaches r (rTBL_CMD .A))
    (ht : tie = true → isMc r = true) (hb : s.flag (TBL_CMD_BUSY .A) = false) (h : act s = t) :
    (.next (s.tblCommand r tie act) : Host.Outcome State Fault Refusal) = .next t :=
  congrArg Host.Outcome.next ((tblCommand_taken hr ht hb act).trans h)

/-! ## Commands on a key (R137, R148, R560) -/

section
variable {s s1 : State} {wide pin : Bool} {ri b e st : Nat} {rg : Region} {x : Slot}

/-- An unpinned insertion of a key that no entry holds, placed. -/
theorem tblInsertKey_placed {key result : Nat} (hpin : pin = false) (hn : holders rg (s.view rg) key = [])
    (hp : s.place ri key result (stStatic false) = (s1, some (b, e))) :
    s.tblInsertKey ri rg key result pin = (s1.autoPin ri b e result, tsOK, some (b, e)) := by
  simp [tblInsertKey, hpin, hn, hp]

/-- The same with no place for it. -/
theorem tblInsertKey_full {key result : Nat} (hpin : pin = false) (hn : holders rg (s.view rg) key = [])
    (hp : s.place ri key result (stStatic false) = (s1, none)) :
    s.tblInsertKey ri rg key result pin = (s1.setFlag (TBL_EVT_NEED_REHASH .A), tsNEEDREHASH, none) := by
  simp [tblInsertKey, hpin, hn, hp]

/-- REPLACE without PIN keeps the status of its entry, but for LOCK and AUTO_PIN. -/
theorem tblReplaceKey_found {key : Nat} (result : Nat) (hpin : pin = false)
    (hf : staticElseLearned (holders rg (s.view rg) key) = some (b, e, x)) :
    s.tblReplaceKey ri rg key result pin =
      ((s.tblApply ri [.put b e ⟨key, result, stClr (stClr x.status stLOCK) stAUTOPIN⟩]).autoPin ri b e result, tsOK) := by
  simp [tblReplaceKey, hpin, hf]

theorem tblReplaceKey_missing {key : Nat} (result : Nat) (pin : Bool)
    (hf : staticElseLearned (holders rg (s.view rg) key) = none) :
    s.tblReplaceKey ri rg key result pin = (s, tsNOTFOUND) := by
  simp only [tblReplaceKey, hf]

theorem tblDeleteKey_found {key : Nat} (hf : staticElseLearned (holders rg (s.view rg) key) = some (b, e, x)) :
    s.tblDeleteKey ri rg key = (s.tblApply ri [.clear b e], tsOK) := by
  simp only [tblDeleteKey, hf]

theorem tblDeleteKey_missing {key : Nat} (hf : staticElseLearned (holders rg (s.view rg) key) = none) :
    s.tblDeleteKey ri rg key = (s, tsNOTFOUND) := by
  simp only [tblDeleteKey, hf]

/-- LOOKUP shows the result and the place of the entry that the plane would take. -/
theorem doLookup_found {pl : Plane} (ht : (s.plane pl).regionOfTag (keyTag wide (s.tblKey wide)) = some ri)
    (hg : (s.plane pl).region ri = some rg) (hx : rg.wide = wide)
    (hf : s.tblWouldTake pl rg (s.tblKey wide) = some (b, e, x)) :
    s.doLookup wide pl = ((s.putRes x.result).putLoc b e).tblDone tsOK := by
  simp [doLookup, ht, hg, hx, hf]

theorem doLookup_missing {pl : Plane} (ht : (s.plane pl).regionOfTag (keyTag wide (s.tblKey wide)) = some ri)
    (hg : (s.plane pl).region ri = some rg) (hx : rg.wide = wide) (hf : s.tblWouldTake pl rg (s.tblKey wide) = none) :
    s.doLookup wide pl = s.noLoc.tblDone tsNOTFOUND := by
  simp [doLookup, ht, hg, hx, hf]

variable (hw : s.anyWriter = true) (hk : s.keyRegion wide (s.tblKey wide) = some (ri, rg))
include hw hk

/-- An insertion with a place shows it. -/
theorem doInsert_placed (h : s.tblInsertKey ri rg (s.tblKey wide) s.tblRes pin = (s1, st, some (b, e))) :
    s.doInsert wide pin = (s1.putLoc b e).tblDone st := by
  simp [doInsert, hw, hk, h]

theorem doInsert_unplaced (h : s.tblInsertKey ri rg (s.tblKey wide) s.tblRes pin = (s1, st, none)) :
    s.doInsert wide pin = s1.noLoc.tblDone st := by
  simp [doInsert, hw, hk, h]

theorem doReplace_eq (h : s.tblReplaceKey ri rg (s.tblKey wide) s.tblRes pin = (s1, st)) :
    s.doReplace wide pin = s1.tblDone st := by
  simp [doReplace, hw, hk, h]

theorem doDelete_eq (h : s.tblDeleteKey ri rg (s.tblKey wide) = (s1, st)) : s.doDelete wide = s1.tblDone st := by
  simp [doDelete, hw, hk, h]

/-- UNLOCK clears LOCK of the learned entry. -/
theorem doUnlock_found (hf : (holders rg (s.view rg) (s.tblKey wide)).find?
    (fun y => stHas y.2.2.status stLEARNED && !stHas y.2.2.status stCHART) = some (b, e, x)) :
    s.doUnlock wide = (s.tblApply ri [.status b e 0 stLOCK]).tblDone tsOK := by
  simp [doUnlock, hw, hk, hf]

end

/-! ## Commands on a region (R141 to R143) -/

section
variable {s : State} (hw : s.anyWriter = true)
include hw

/-- The LPM store holds no learned entry to flush. -/
theorem doFlushLearned_lpm : s.doFlushLearned 16 = s.tblDone tsOK := by
  simp [doFlushLearned, hw]

variable {g : Nat} {rg : Region} (hg : g ≠ 16) (hr : (s.plane s.engine).region g = some rg)
include hg hr

theorem doFlushLearned_region : s.doFlushLearned g = (s.tblApply g (((s.learnedOf rg).filter
    (fun x => bitOf (s.fld (TBL_CMD_ARG_ARG .A)) 31 || resTarget x.2.2.result == s.fld (TBL_CMD_ARG_ARG .A) % 256)).map
      (fun x => .clear x.1 x.2.1))).tblDone tsOK := by
  simp [doFlushLearned, hw, hg, hr]

theorem doRehash_normal (hn : rg.state = .normal) :
    s.doRehash g = (s.mapRegion g (fun x => x.toDual (s.fld (TBL_CMD_ARG_ARG .A)))).tblDone tsOK := by
  simp [doRehash, hw, hg, hr, hn]

theorem doRehash_busy (hn : rg.state ≠ .normal) : s.doRehash g = s.tblDone tsBUSY := by
  simp [doRehash, hw, hg, hr, hn]

theorem doResume_dual (hn : rg.state ≠ .normal) :
    s.doResume g = (s.mapRegion g (fun x => { x with state := .dual })).tblDone tsOK := by
  simp [doResume, hw, hg, hr, hn]

theorem doResume_normal (hn : rg.state = .normal) : s.doResume g = s.tblDone tsNOTDUAL := by
  simp [doResume, hw, hg, hr, hn]

/-! ## Commands at a place (R172) -/

theorem doWriteAt_outside (ho : rg.logical ≤ s.tblLoc.1 ∨ rg.k ≤ s.tblLoc.2) : s.doWriteAt g = s.tblDone tsBADSLOT := by
  simp [doWriteAt, hw, hg, hr, ho]

variable (hb : s.tblLoc.1 < rg.logical) (he : s.tblLoc.2 < rg.k)
include hb he

/-- A status without VALID is written as it stands, and asks for no pin. -/
theorem doWriteAt_invalid (hv : stHas (s.fld (TBL_SLOT_STATUS_STATUS .A) % 1024) stVALID = false) :
    s.doWriteAt g = (s.tblApply g [.put s.tblLoc.1 s.tblLoc.2
      ⟨s.tblKey rg.wide, s.tblRes, s.fld (TBL_SLOT_STATUS_STATUS .A) % 1024⟩]).tblDone tsOK := by
  simp [doWriteAt, hw, hg, hr, hv, Nat.not_le.mpr hb, Nat.not_le.mpr he]

/-- A valid entry whose PIN its page has no room for is not written. -/
theorem doWriteAt_pinRefused (hv : stHas (s.fld (TBL_SLOT_STATUS_STATUS .A) % 1024) stVALID = true)
    (hp : stHas (s.fld (TBL_SLOT_STATUS_STATUS .A) % 1024) stPIN = true) (hf : s.pinRefused g s.tblLoc.1 = true) :
    s.doWriteAt g = (s.setFlag (TBL_EVT_PIN_LIMIT .A)).tblDone tsPINLIMIT := by
  simp [doWriteAt, hw, hg, hr, hv, hp, hf, Nat.not_le.mpr hb, Nat.not_le.mpr he]

end

section
variable {s : State} {pl : Plane} {g n : Nat} {rp : Region} (hg : g ≠ 16) (hr : (s.plane pl).region g = some rp)
  (hb : s.tblLoc.1 < rp.logical) (he : s.tblLoc.2 < rp.k) (hn : rp.slotAt s.tblLoc.1 s.tblLoc.2 = some n)
include hg hr hb he hn

theorem doReadAt_bad (hx : badItems (s.plane pl) rp n ≠ []) : s.doReadAt g pl = s.tblDone tsBADSLOT := by
  simp [doReadAt, hg, hr, hn, hx, Nat.not_le.mpr hb, Nat.not_le.mpr he]

/-- A good slot is shown with its key, result and status. -/
theorem doReadAt_good (hx : badItems (s.plane pl) rp n = []) : s.doReadAt g pl =
    (((s.putKey rp.wide (tabGet Slot.none (s.plane pl).exact n).key).putRes
      (tabGet Slot.none (s.plane pl).exact n).result).put (TBL_SLOT_STATUS_STATUS .A)
        (tabGet Slot.none (s.plane pl).exact n).status).tblDone tsOK := by
  simp [doReadAt, hg, hr, hn, hx, Nat.not_le.mpr hb, Nat.not_le.mpr he]

end

/-! ## The LPM store (R118, R153) -/

/-- The stored entry that an LPM command names: its VRF, family, length and masked address, and not of the chart. -/
def lpmNames (a len vrf : Nat) (v6 : Bool) (x : Prefix) : Bool :=
  x.vrf == vrf && x.v6 == v6 && x.len == len && x.addr == maskAddr v6 len a && !stHas x.status stCHART

theorem doBloomRebuild_eq {s : State} (hw : s.anyWriter = true) :
    s.doBloomRebuild = (s.mapLpm (fun p => { p with bloomNew := some (bloomOf p.lpm) })).tblDone tsOK := by
  simp [doBloomRebuild, hw]

section
variable {s s1 : State} {a len vrf : Nat} {v6 : Bool} (ho : s.lpmOperands = (a, len, vrf, v6))
include ho

/-- The LPM lookup shows the result and the unit that the engine's plane finds. -/
theorem doLpmLookup_found {u x : Nat} (hl : s.lpmLookup s.engine vrf v6 a = (s1, some (u, x))) :
    s.doLpmLookup = ((s1.putRes x).putLoc (u / 4) (u % 4)).tblDone tsOK := by
  simp [doLpmLookup, ho, hl]

theorem doLpmLookup_missing (hl : s.lpmLookup s.engine vrf v6 a = (s1, none)) :
    s.doLpmLookup = s1.noLoc.tblDone tsNOTFOUND := by
  simp [doLpmLookup, ho, hl]

variable (hw : s.anyWriter = true)
include hw

theorem doLpmDelete_missing (hc : lpmCopies (s.plane s.engine) vrf v6 len a = []) : s.doLpmDelete = s.tblDone tsNOTFOUND := by
  simp [doLpmDelete, ho, hw, hc]

theorem doLpmDelete_found (hc : (lpmCopies (s.plane s.engine) vrf v6 len a).any (lpmNames a len vrf v6) = true)
    (hs : s.lpmEach (fun p => lpmKeep s.epoch s.clk p (fun x => !lpmNames a len vrf v6 x)) = some s1) :
    s.doLpmDelete = s1.tblDone tsOK := by
  unfold lpmNames at hc hs
  simp only [doLpmDelete, ho, hw, hc, hs, Bool.not_true, Bool.false_eq_true, if_false]

variable (hlen : len ≤ famBits v6)
include hlen

theorem doLpmInsert_exists (pin : Bool) (hc : lpmCopies (s.plane s.engine) vrf v6 len a ≠ []) :
    s.doLpmInsert pin = s.tblDone tsEXISTS := by
  simp [doLpmInsert, ho, hw, hc, Nat.not_lt.mpr hlen]

theorem doLpmInsert_new {pin : Bool} (hc : lpmCopies (s.plane s.engine) vrf v6 len a = [])
    (hs : s.lpmEach (fun p => lpmInsertPlane s.epoch s.clk p ⟨vrf, v6, len, maskAddr v6 len a, s.tblRes, stStatic pin⟩) =
      some s1) : s.doLpmInsert pin = s1.tblDone tsOK := by
  simp [doLpmInsert, ho, hw, hc, hs, Nat.not_lt.mpr hlen]

end

end State

/-- Settles O31: each command is taken up, and ends by the case of what it finds. -/
theorem exactMatchAndPlaceCommands : Obligations.ExactMatchAndPlaceCommands := by
  refine ⟨fun s r tie wide pin pl ri rg hr ht hb hw hk => ?_, fun s r tie pin pl g rg hr ht hb hw hg hrg => ?_⟩
  · have ends {act : State → State} {t : State} (h : act s = t) :
        (.next (s.tblCommand r tie act) : Host.Outcome State Fault Refusal) = .next t := State.next_tblCommand hr ht hb h
    exact ⟨fun s1 b e hn hpin hp => ends (State.doInsert_placed hw hk (State.tblInsertKey_placed hpin hn hp)),
      fun s1 hn hpin hp => ends (State.doInsert_unplaced hw hk (State.tblInsertKey_full hpin hn hp)),
      fun b e x hf => ⟨ends (State.doDelete_eq hw hk (State.tblDeleteKey_found hf)),
        fun hpin => ends (State.doReplace_eq hw hk (State.tblReplaceKey_found _ hpin hf))⟩,
      fun hf => ⟨ends (State.doDelete_eq hw hk (State.tblDeleteKey_missing hf)),
        ends (State.doReplace_eq hw hk (State.tblReplaceKey_missing _ _ hf))⟩,
      fun htag hreg hx => ⟨fun b e x hf => ends (State.doLookup_found htag hreg hx hf),
        fun hf => ends (State.doLookup_missing htag hreg hx hf)⟩,
      fun b e x hf => ends (State.doUnlock_found hw hk hf),
      ends (State.doFlushLearned_lpm hw),
      fun g rg' hg hrg => ends (State.doFlushLearned_region hw hg hrg)⟩
  · have ends {act : State → State} {t : State} (h : act s = t) :
        (.next (s.tblCommand r tie act) : Host.Outcome State Fault Refusal) = .next t := State.next_tblCommand hr ht hb h
    have hg : g ≠ 16 := by omega
    exact ⟨fun hl he => ⟨fun hv => ends (State.doWriteAt_invalid hw hg hrg hl he hv),
        fun hv hp hf => ends (State.doWriteAt_pinRefused hw hg hrg hl he hv hp hf)⟩,
      fun rp n hrp hl he hn => ⟨fun hx => ends (State.doReadAt_bad hg hrp hl he hn hx),
        fun hx => ends (State.doReadAt_good hg hrp hl he hn hx)⟩,
      fun ho => ends (State.doWriteAt_outside hw hg hrg ho),
      fun hn => ends (State.doRehash_normal hw hg hrg hn),
      fun hn => ⟨ends (State.doRehash_busy hw hg hrg hn), ends (State.doResume_dual hw hg hrg hn)⟩,
      fun hn => ends (State.doResume_normal hw hg hrg hn),
      fun a len vrf v6 ho hlen => ⟨fun hc => ends (State.doLpmInsert_exists ho hw hlen pin hc),
        fun s1 hc hs => ends (State.doLpmInsert_new ho hw hlen hc hs),
        fun hc => ends (State.doLpmDelete_missing ho hw hc),
        fun s1 hc hs => ends (State.doLpmDelete_found ho hw hc hs),
        fun s1 u x hl => ends (State.doLpmLookup_found ho hl),
        fun s1 hl => ends (State.doLpmLookup_missing ho hl)⟩,
      ends (State.doBloomRebuild_eq hw)⟩

end Sys2Proof.Machine
end

section
/-! SUPPORT. Buffers of a pool pushed and popped, and the copies of the replication engine (R179 to R184, R189, R190). -/

namespace Sys2Proof.Machine

/-! ## Pools of a plane -/

theorem PlaneSt.pool_setPool_self {x : PlaneSt} {p : Nat} (h : p < x.pools.length) (q : Pool) : (x.setPool p q).pool p = q := by
  simp [PlaneSt.pool, PlaneSt.setPool, h]

theorem PlaneSt.pool_setPool_ne (x : PlaneSt) {p r : Nat} (h : r ≠ p) (q : Pool) : (x.setPool p q).pool r = x.pool r := by
  simp [PlaneSt.pool, PlaneSt.setPool, h.symm]

/-- A pool with up to two returned buffers pushed onto its list, their link words written anew. -/
def Pool.pushed (q : Pool) : Pool :=
  { q with
    retq := q.retq.drop 2
    stack := (q.retq.take 2).reverse ++ q.stack
    bad := q.bad.filter (fun b => !(q.retq.take 2).contains b) }

theorem exec_bufferReturnPush (s : State) (pl : Plane) (pool : Nat) : exec (.bufferReturnPush pl pool) s =
    .next (s.setPlane pl ((s.plane pl).setPool pool ((s.plane pl).pool pool).pushed)) := by
  rw [exec, execBufferReturnPush]
  rfl

namespace State

/-- What a request to a pool may write beside the pool itself. -/
def poolRegs (pl : Plane) (p : Nat) : List Nat :=
  [rBPM_POOL_MINFREE pl p, rBPM_POOL_FREE pl p, rBPM_LIST_ERR pl, rBPM_EVT pl]

/-- Of a plane only its pools differ, and of the registers only those that a request to a pool may write. -/
structure AsksPool (s t : State) (pl : Plane) (p : Nat) : Prop where
  plane : { t.plane pl with pools := (s.plane pl).pools } = s.plane pl
  regs : s.RegsBut t (poolRegs pl p)

namespace AsksPool

theorem refl (s : State) (pl : Plane) (p : Nat) : s.AsksPool s pl p := ⟨rfl, RegsBut.refl s _⟩

theorem setPool (s : State) (pl : Plane) (p : Nat) (q : Pool) :
    s.AsksPool (s.setPlane pl ((s.plane pl).setPool p q)) pl p := by
  refine ⟨?_, fun a _ => setPlane_reg s pl _ a⟩
  rw [plane_setPlane_self]
  rfl

theorem put {s t : State} {pl : Plane} {p : Nat} (h : s.AsksPool t pl p) {f : Fld} (v : Nat) (hf : f.addr ∈ poolRegs pl p) :
    s.AsksPool (t.put f v) pl p := by
  refine ⟨?_, h.regs.put v hf⟩
  rw [← h.plane]
  cases pl <;> rfl

theorem repl {s t : State} {pl : Plane} {p : Nat} (h : s.AsksPool t pl p) : (t.plane pl).repl = (s.plane pl).repl :=
  (congrArg PlaneSt.repl h.plane :)

theorem queue {s t : State} {pl : Plane} {p : Nat} (h : s.AsksPool t pl p) (i : Nat) : t.queue pl i = s.queue pl i :=
  (congrArg (fun x => PlaneSt.queue x i) h.plane :)

theorem fld {s t : State} {pl : Plane} {p : Nat} (h : s.AsksPool t pl p) {f : Fld} (hf : f.addr ∉ poolRegs pl p) :
    t.fld f = s.fld f := by
  rw [State.fld, State.fld, h.regs f.addr hf]

end AsksPool

/-- A list found corrupt (R180). -/
theorem listError_asksPool (s : State) (pl : Plane) (p b : Nat) : s.AsksPool (s.listError pl p b) pl p := by
  have hs := ((AsksPool.setPool s pl p { (s.plane pl).pool p with
    error := true, stack := [], fresh := ((s.plane pl).pool p).count, retq := [] }).put (f := BPM_POOL_FREE_ERROR pl p) 1
      (by simp [poolRegs, BPM_POOL_FREE_ERROR])).put (f := BPM_EVT_LIST_ERR pl) 1 (by simp [poolRegs, BPM_EVT_LIST_ERR])
  unfold listError
  dsimp only
  split
  · exact hs.put _ (by simp [poolRegs, BPM_LIST_ERR_OVERFLOW])
  · exact ((hs.put _ (by simp [poolRegs, BPM_LIST_ERR_VALID])).put _ (by simp [poolRegs, BPM_LIST_ERR_POOL])).put _
      (by simp [poolRegs, BPM_LIST_ERR_INDEX])

/-- A buffer taken off the list of its pool, and the least number of free buffers noted. -/
def popped (s : State) (pl : Plane) (p b : Nat) : State :=
  ((s.unmark pl p b).setPlane pl ((s.plane pl).setPool p ((s.plane pl).pool p).tail)).put (BPM_POOL_MINFREE_MINFREE pl p)
    (min (s.fld (BPM_POOL_MINFREE_MINFREE pl p)) (((s.plane pl).pool p).free - 1))

theorem popped_asksPool (s : State) (pl : Plane) (p b : Nat) : s.AsksPool (s.popped pl p b) pl p := by
  have hu : s.AsksPool ((s.unmark pl p b).setPlane pl ((s.plane pl).setPool p ((s.plane pl).pool p).tail)) pl p := by
    obtain ⟨hplane, hregs⟩ := AsksPool.setPool s pl p ((s.plane pl).pool p).tail
    cases pl <;> exact ⟨hplane, hregs⟩
  exact hu.put _ (by simp [poolRegs, BPM_POOL_MINFREE_MINFREE])

/-- What one request to one pool can leave: the state as it was, a list found corrupt, or a buffer taken, with the event of a pool that
runs low. -/
theorem popBuf_cases {s s1 : State} {pl : Plane} {p : Nat} {crit : Bool} {o : Option Nat} (h : s.popBuf pl p crit = (s1, o)) :
    s1 = s ∨ ∃ b, s1 = s.listError pl p b ∨ s1 = s.popped pl p b ∨ s1 = (s.popped pl p b).setFlag (BPM_EVT_LOW pl) := by
  unfold popBuf at h
  generalize (if crit = true then 0 else s.fld (BPM_POOL_RSV_CRIT_RESERVE pl p)) = reserve at h
  dsimp only at h
  split at h
  · exact .inl (congrArg Prod.fst h).symm
  · split at h
    · exact .inl (congrArg Prod.fst h).symm
    · next b _ =>
      refine .inr ⟨b, ?_⟩
      split at h
      · exact .inl (congrArg Prod.fst h).symm
      · have h1 := congrArg Prod.fst h
        dsimp only at h1
        split at h1
        · exact .inr (.inr h1.symm)
        · exact .inr (.inl h1.symm)

/-- One request to a pool leaves queues, copies and every other counter of the plane. -/
theorem popBuf_asksPool {s s1 : State} {pl : Plane} {p : Nat} {crit : Bool} {o : Option Nat}
    (h : s.popBuf pl p crit = (s1, o)) : s.AsksPool s1 pl p := by
  rcases popBuf_cases h with rfl | ⟨b, rfl | rfl | rfl⟩
  · exact AsksPool.refl s1 pl p
  · exact s.listError_asksPool pl p b
  · exact s.popped_asksPool pl p b
  · exact (s.popped_asksPool pl p b).put _ (by simp [poolRegs, BPM_EVT_LOW])

/-- The counters of copies and of spills are none of those registers. -/
theorem copiesCnt_notMem_poolRegs (pl : Plane) {p : Nat} (hp : p < 4) : rBPM_COPIES_CNT pl ∉ poolRegs pl p := by
  simp only [poolRegs, List.mem_cons, List.not_mem_nil, rBPM_COPIES_CNT, rBPM_POOL_MINFREE, rBPM_POOL_FREE, rBPM_LIST_ERR, rBPM_EVT,
    or_false]
  omega

theorem spillCnt_notMem_poolRegs (pl : Plane) {p : Nat} (hp : p < 4) : rBPM_SPILL_CNT pl p ∉ poolRegs pl p := by
  simp only [poolRegs, List.mem_cons, List.not_mem_nil, rBPM_SPILL_CNT, rBPM_POOL_MINFREE, rBPM_POOL_FREE, rBPM_LIST_ERR, rBPM_EVT,
    or_false]
  omega

theorem fitPool_lt {s : State} {pl : Plane} {len p : Nat} (h : s.fitPool pl len = some p) : p < 4 := by
  have hm := List.mem_of_find?_eq_some h
  simp only [List.mem_cons, List.not_mem_nil, or_false] at hm
  omega

/-! ## Queues and the head job of a plane -/

theorem queue_setQueue_self (s : State) (pl : Plane) (i : Nat) (l : List QEntry) : (s.setQueue pl i l).queue pl i = l := by
  simp [queue, setQueue, PlaneSt.queue, PlaneSt.setQueue]

theorem fld_setQueue (s : State) (pl : Plane) (i : Nat) (l : List QEntry) (f : Fld) : (s.setQueue pl i l).fld f = s.fld f :=
  setPlane_fld s pl _ f

theorem repl_setQueue (s : State) (pl : Plane) (i : Nat) (l : List QEntry) :
    ((s.setQueue pl i l).plane pl).repl = (s.plane pl).repl := by
  rw [setQueue, plane_setPlane_self]
  rfl

theorem fld_inc_self (s : State) {f : Fld} (hf : f.lsb + f.wid ≤ 32) : (s.inc f).fld f = (s.fld f + 1) % 2 ^ f.wid := by
  rw [inc_eq, fld_put_self _ _ _ hf]

/-- A plane with other jobs of the replication engine. -/
def withRepl (s : State) (pl : Plane) (l : List ReplJob) : State := s.setPlane pl { s.plane pl with repl := l }

theorem repl_withRepl (s : State) (pl : Plane) (l : List ReplJob) : ((s.withRepl pl l).plane pl).repl = l := by
  rw [withRepl, plane_setPlane_self]

theorem queue_withRepl (s : State) (pl : Plane) (l : List ReplJob) (i : Nat) : (s.withRepl pl l).queue pl i = s.queue pl i := by
  rw [withRepl, queue, plane_setPlane_self]
  rfl

theorem fld_withRepl (s : State) (pl : Plane) (l : List ReplJob) (f : Fld) : (s.withRepl pl l).fld f = s.fld f :=
  setPlane_fld s pl _ f

/-- The head job goes with its last copy. -/
theorem copyDone_eq {s : State} {pl : Plane} {j : ReplJob} {js : List ReplJob} {k : CopyJob} {ks : List CopyJob}
    (hr : (s.plane pl).repl = j :: js) (ht : j.todo = k :: ks) :
    s.copyDone pl = s.withRepl pl (if ks = [] then js else { j with todo := ks, retry := none } :: js) := by
  simp [copyDone, hr, ht, withRepl]

/-- A copy that is not for a CAN bus is written without a lookup. -/
theorem writeCopy_plain {s : State} {f : Frame} {k : CopyJob} (pl : Plane) (h : Nat × Nat) (hc : canBound f k.port = false) :
    s.writeCopy pl f k h = ((s.inc (BPM_COPIES_CNT_VAL pl)).setQueue pl (8 * k.port + f.tc) (swapPlaceholder k.copy
      (some (.frame { f.forDest k.rx k.ring with pool := h.1, buf := h.2 })) (s.queue pl (8 * k.port + f.tc)))).copyDone pl :=
  if_pos hc

/-- It stands where its placeholder stood, is counted, and leaves the head job. -/
theorem writeCopy_plain_shows {s : State} {pl : Plane} {j : ReplJob} {js : List ReplJob} {k : CopyJob} {ks : List CopyJob}
    (hr : (s.plane pl).repl = j :: js) (ht : j.todo = k :: ks) (h : Nat × Nat) (hc : canBound j.frame k.port = false) :
    (s.writeCopy pl j.frame k h).queue pl (8 * k.port + j.frame.tc) = swapPlaceholder k.copy
      (some (.frame { j.frame.forDest k.rx k.ring with pool := h.1, buf := h.2 })) (s.queue pl (8 * k.port + j.frame.tc)) ∧
    (s.writeCopy pl j.frame k h).fld (BPM_COPIES_CNT_VAL pl) = (s.fld (BPM_COPIES_CNT_VAL pl) + 1) % 2 ^ 32 ∧
    ((s.writeCopy pl j.frame k h).plane pl).repl = (if ks = [] then js else { j with todo := ks, retry := none } :: js) := by
  rw [writeCopy_plain pl h hc, copyDone_eq (by rw [repl_setQueue, plane_inc, hr]) ht]
  refine ⟨?_, ?_, repl_withRepl _ _ _⟩
  · rw [queue_withRepl, queue_setQueue_self]
  · rw [fld_withRepl, fld_setQueue, fld_inc_self _ (by simp [BPM_COPIES_CNT_VAL])]
    rfl

/-! ## A request of the replication engine (R182 to R184) -/

section
variable {s s1 : State} {pl : Plane} {p : Nat} {f : Frame}

/-- The request finds a buffer. -/
theorem copyRequest_found {b : Nat} (h : s.popBuf pl p (f.stream.any s.crit.contains) = (s1, some b)) (start : Nat) (k : CopyJob) :
    s.copyRequest pl start p f k = s1.writeCopy pl f k (p, b) := by
  cases hf : f.stream <;> simp_all [copyRequest]

variable (h : s.popBuf pl p (f.stream.any s.crit.contains) = (s1, none))
include h

/-- It spills into the next larger pool, which is asked in the next clock. -/
theorem copyRequest_spills {q : Nat} {j : ReplJob} {js : List ReplJob} (hr : (s.plane pl).repl = j :: js)
    (hs : s1.flag (BPM_POOL_CFG_SPILL pl p) = true) (hq : s1.nextPool pl p = some q) (start : Nat) (k : CopyJob) :
    s.copyRequest pl start p f k =
      (s1.inc (BPM_SPILL_CNT_VAL pl p)).withRepl pl ({ j with retry := some (start, q) } :: js) := by
  have hr1 : ((s1.inc (BPM_SPILL_CNT_VAL pl p)).plane pl).repl = j :: js := by rw [plane_inc, (popBuf_asksPool h).repl, hr]
  cases hf : f.stream <;> simp_all [copyRequest, withRepl]

/-- The head job notes both pools, and the spill is counted at the pool that refused. -/
theorem copyRequest_spills_shows {q : Nat} {j : ReplJob} {js : List ReplJob} (hp : p < 4) (hr : (s.plane pl).repl = j :: js)
    (hs : s1.flag (BPM_POOL_CFG_SPILL pl p) = true) (hq : s1.nextPool pl p = some q) (start : Nat) (k : CopyJob) :
    ((s.copyRequest pl start p f k).plane pl).repl = { j with retry := some (start, q) } :: js ∧
    (s.copyRequest pl start p f k).fld (BPM_SPILL_CNT_VAL pl p) = (s.fld (BPM_SPILL_CNT_VAL pl p) + 1) % 2 ^ 32 := by
  rw [copyRequest_spills h hr hs hq]
  refine ⟨repl_withRepl _ _ _, ?_⟩
  rw [fld_withRepl, fld_inc_self _ (by simp [BPM_SPILL_CNT_VAL]), (popBuf_asksPool h).fld (spillCnt_notMem_poolRegs pl hp)]
  rfl

/-- It has no pool to spill into, and is lost. -/
theorem copyRequest_lost (hs : s1.flag (BPM_POOL_CFG_SPILL pl p) = false ∨ s1.nextPool pl p = none) (start : Nat) (k : CopyJob) :
    s.copyRequest pl start p f k = ((s1.allocLost pl start).copyDrop pl k.port).copyGone pl f k := by
  rcases hs with hs | hs
  · cases hf : f.stream <;> simp_all [copyRequest]
  · cases hf : f.stream <;> simp_all [copyRequest]

end

/-- A copy that is not bound for CAN waits for no pages. -/
theorem copyWaits_plain {s : State} {pl : Plane} {f : Frame} {k : CopyJob} (h : canBound f k.port = false) :
    s.copyWaits pl f k = (s, false) := if_pos h

end State

/-! ## The commands of the replication engine -/

section
variable {s s0 : State} {pl : Plane}

theorem exec_copyWrite_idle (h : (s.plane pl).repl = []) : exec (.copyWrite pl) s = .next s := by
  simp only [exec, execCopyWrite, h]

theorem exec_allocSpill_idle (h : (s.plane pl).repl = []) : exec (.allocSpill pl) s = .next s := by
  simp only [exec, execAllocSpill, h]

variable {j : ReplJob} {js : List ReplJob} {k : CopyJob} {ks : List CopyJob} (hr : (s.plane pl).repl = j :: js)
  (ht : j.todo = k :: ks)
include hr ht

theorem exec_copyWrite_waits (hn : j.retry = none) (hw : s.copyWaits pl j.frame k = (s0, true)) :
    exec (.copyWrite pl) s = .next s0 := by
  simp only [exec, execCopyWrite, hr, ht, hn, hw]

/-- The first request goes to the smallest pool that holds the frame. -/
theorem exec_copyWrite_requests {p : Nat} (hn : j.retry = none) (hw : s.copyWaits pl j.frame k = (s0, false))
    (hp : s0.fitPool pl j.frame.bytes.length = some p) :
    exec (.copyWrite pl) s = .next (s0.copyRequest pl p p j.frame k) := by
  simp only [exec, execCopyWrite, hr, ht, hn, hw, hp]

theorem exec_copyWrite_unfit (hn : j.retry = none) (hw : s.copyWaits pl j.frame k = (s0, false))
    (hp : s0.fitPool pl j.frame.bytes.length = none) :
    exec (.copyWrite pl) s = .next (((s0.allocLost pl 3).copyDrop pl k.port).copyGone pl j.frame k) := by
  simp only [exec, execCopyWrite, hr, ht, hn, hw, hp]

/-- A request that spilled is the allocator's, not a new one. -/
theorem exec_copyWrite_spilled {start p : Nat} (hn : j.retry = some (start, p)) : exec (.copyWrite pl) s = .next s := by
  simp only [exec, execCopyWrite, hr, ht, hn]

theorem exec_allocSpill_requests {start p : Nat} (hn : j.retry = some (start, p)) :
    exec (.allocSpill pl) s = .next (s.copyRequest pl start p j.frame k) := by
  simp only [exec, execAllocSpill, hr, ht, hn]

end

end Sys2Proof.Machine
end

section
/-! SUPPORT. Fields of both plane halves, and writes of the exception limiter and of the capture engine (R130, R199). -/

namespace Sys2Proof.Machine
namespace State

/-! ## Fields of both halves -/

section
variable {s : State} {f : Plane → Fld} (hf : ∀ pl, (f pl).lsb + (f pl).wid ≤ 32) (hne : (f .A).addr ≠ (f .B).addr)

include hf hne in
/-- A field written in both halves reads the same in each. -/
theorem fld_putBoth_self (v : Nat) (pl : Plane) : (s.putBoth f v).fld (f pl) = v % 2 ^ (f pl).wid := by
  rw [putBoth_eq]
  cases pl with
  | A => rw [fld_put_addr _ _ hne, fld_put_self _ _ _ (hf .A)]
  | B => exact fld_put_self _ _ _ (hf .B)

theorem fld_putBoth_ne {g : Fld} (v : Nat) (hg : ∀ pl, g.addr ≠ (f pl).addr) : (s.putBoth f v).fld g = s.fld g := by
  rw [putBoth_eq, fld_put_addr _ _ (hg .B), fld_put_addr _ _ (hg .A)]

theorem OnlyRegs.putBoth {t : State} {as : List Nat} (h : s.OnlyRegs t as) (v : Nat) (ha : ∀ pl, (f pl).addr ∈ as) :
    s.OnlyRegs (t.putBoth f v) as := (h.put v (ha .A)).put v (ha .B)

end

/-! ## The exception limiter (R130) -/

theorem excFill_eq (s : State) : s.excFill = (s.putBoth PRS_EXC_LEVEL_TOKENS (s.fld (PRS_EXC_BURST_BURST .A))).withFrac
    (tabSet 0 s.frac (rPRS_EXC_LEVEL .A) 0) := rfl

/-- A state with its registers and fractions put back to those of another. -/
def bucketsBack (s t : State) : State := { t with regs := s.regs, frac := s.frac }

theorem bucketsBack_withFrac {s t : State} {as : List Nat} (h : s.OnlyRegs t as) (f : Tab Nat) :
    s.bucketsBack (t.withFrac f) = s :=
  (congrArg (fun x : State => x.withFrac s.frac) h.rest :)

/-- A change of RATE or BURST fills the bucket to the burst then in force, with no fraction. -/
theorem putBoth_excFill_shows {s : State} {f : Plane → Fld} (hf : ∀ pl, (f pl).lsb + (f pl).wid ≤ 32)
    (hne : (f .A).addr ≠ (f .B).addr) (hl : ∀ pl ql, (f pl).addr ≠ rPRS_EXC_LEVEL ql) (v : Nat) (pl : Plane) :
    (s.putBoth f v).excFill.fld (f pl) = v % 2 ^ (f pl).wid ∧
    (s.putBoth f v).excFill.fld (PRS_EXC_LEVEL_TOKENS pl) = (s.putBoth f v).fld (PRS_EXC_BURST_BURST .A) ∧
    tabGet 0 (s.putBoth f v).excFill.frac (rPRS_EXC_LEVEL .A) = 0 ∧
    s.bucketsBack (s.putBoth f v).excFill = s ∧
    s.RegsBut (s.putBoth f v).excFill [(f .A).addr, (f .B).addr, rPRS_EXC_LEVEL .A, rPRS_EXC_LEVEL .B] := by
  have hlevel : ∀ pl, (PRS_EXC_LEVEL_TOKENS pl).lsb + (PRS_EXC_LEVEL_TOKENS pl).wid ≤ 32 := fun pl => by
    simp [PRS_EXC_LEVEL_TOKENS]
  have honly : s.OnlyRegs ((s.putBoth f v).putBoth PRS_EXC_LEVEL_TOKENS ((s.putBoth f v).fld (PRS_EXC_BURST_BURST .A)))
      [(f .A).addr, (f .B).addr, rPRS_EXC_LEVEL .A, rPRS_EXC_LEVEL .B] := by
    refine ((OnlyRegs.refl s _).putBoth v fun pl => ?_).putBoth _ fun pl => ?_
    · cases pl <;> simp
    · cases pl <;> simp [PRS_EXC_LEVEL_TOKENS]
  rw [excFill_eq]
  refine ⟨?_, ?_, ?_, ?_, fun a ha => (reg_withFrac _ _ a).trans (honly.regs a ha)⟩
  · rw [fld_withFrac, fld_putBoth_ne _ (hl pl), fld_putBoth_self hf hne]
  · rw [fld_withFrac, fld_putBoth_self hlevel (by decide)]
    exact Nat.mod_eq_of_lt (bits_lt _ _ _)
  · rw [frac_withFrac, tabGet_tabSet_self]
  · exact bucketsBack_withFrac honly _

theorem excBurst_addr_ne_level (pl ql : Plane) : (PRS_EXC_BURST_BURST pl).addr ≠ rPRS_EXC_LEVEL ql := by
  cases pl <;> cases ql <;> decide

theorem excRate_addr_ne_level (pl ql : Plane) : (PRS_EXC_RATE_RATE pl).addr ≠ rPRS_EXC_LEVEL ql := by
  cases pl <;> cases ql <;> decide

theorem excBurst_addr_ne_rate (pl : Plane) : (PRS_EXC_BURST_BURST .A).addr ≠ (PRS_EXC_RATE_RATE pl).addr := by
  cases pl <;> decide

/-! ## The capture engine (R199) -/

/-- CAP_CTL written while capture is off, but for ENABLE. -/
def capModeSet (s : State) (v : Nat) : State :=
  ((s.put CAP_CTL_TB (bits v 4 2)).put CAP_CTL_MODE (bits v 1 1)).put CAP_CTL_TARGET (bits v 2 1)

/-- HEAD at 0, when the ring has moved. -/
def capHeadCleared (s : State) (moved : Bool) : State := if moved then s.put CAP_HEAD_HEAD 0 else s

theorem writeCapCtl_on {s : State} (h : s.flag CAP_CTL_ENABLE = true) (v : Nat) :
    s.writeCapCtl v = s.put CAP_CTL_ENABLE v := by
  simp only [writeCapCtl, h, if_true]

theorem writeCapCtl_off {s : State} {v : Nat} (h : s.flag CAP_CTL_ENABLE = false)
    (ha : bitOf v 2 = false ∨ s.fld CAP_AREA_SIZE_SIZE ≠ 0) : s.writeCapCtl v =
      ((s.capModeSet v).capHeadCleared (bits v 2 1 != s.fld CAP_CTL_TARGET)).put CAP_CTL_ENABLE v := by
  have ht : ¬ (bitOf v 2 = true ∧ s.fld CAP_AREA_SIZE_SIZE = 0) := by
    rintro ⟨h2, h0⟩
    rcases ha with h | h
    · simp [h2] at h
    · exact h h0
  by_cases hm : bits v 2 1 = s.fld CAP_CTL_TARGET <;>
    simp [writeCapCtl, h, if_neg ht, hm, capHeadCleared, capModeSet]

theorem fld_capHeadCleared_ne (s : State) (moved : Bool) {g : Fld} (hg : g.addr ≠ rCAP_HEAD) :
    (s.capHeadCleared moved).fld g = s.fld g := by
  cases moved with
  | false => rfl
  | true => exact fld_put_addr s 0 hg

theorem fld_capHeadCleared_head (s : State) (moved : Bool) :
    (s.capHeadCleared moved).fld CAP_HEAD_HEAD = if moved then 0 else s.fld CAP_HEAD_HEAD := by
  cases moved with
  | false => rfl
  | true => exact fld_put_self s CAP_HEAD_HEAD 0 (by decide)

theorem flag_put_enable (s : State) (v : Nat) : (s.put CAP_CTL_ENABLE v).flag CAP_CTL_ENABLE = bitOf v 0 := by
  rw [flag_put_self _ _ _ (by decide)]
  simp [bitOf, CAP_CTL_ENABLE]

theorem writeCapCtl_on_shows {s : State} (h : s.flag CAP_CTL_ENABLE = true) (v : Nat) :
    (s.writeCapCtl v).flag CAP_CTL_ENABLE = bitOf v 0 ∧ (s.writeCapCtl v).fld CAP_CTL_MODE = s.fld CAP_CTL_MODE ∧
    (s.writeCapCtl v).fld CAP_CTL_TARGET = s.fld CAP_CTL_TARGET ∧ (s.writeCapCtl v).fld CAP_CTL_TB = s.fld CAP_CTL_TB ∧
    s.OnlyRegs (s.writeCapCtl v) [rCAP_CTL] := by
  rw [writeCapCtl_on h]
  exact ⟨s.flag_put_enable v, fld_put_beside _ _ (by decide) (by decide), fld_put_beside _ _ (by decide) (by decide),
    fld_put_beside _ _ (by decide) (by decide), (OnlyRegs.refl s _).put v List.mem_cons_self⟩

/-- MODE, TARGET and TB as they were set. -/
theorem capModeSet_shows (s : State) (v : Nat) : (s.capModeSet v).fld CAP_CTL_MODE = bits v 1 1 ∧
    (s.capModeSet v).fld CAP_CTL_TARGET = bits v 2 1 ∧ (s.capModeSet v).fld CAP_CTL_TB = bits v 4 2 ∧
    (s.capModeSet v).fld CAP_HEAD_HEAD = s.fld CAP_HEAD_HEAD := by
  have hlt (l w : Nat) : bits v l w % 2 ^ w = bits v l w := Nat.mod_eq_of_lt (bits_lt v l w)
  rw [capModeSet]
  refine ⟨?_, ?_, ?_, ?_⟩
  · rw [fld_put_beside _ _ (by decide) (by decide), fld_put_self _ _ _ (by decide)]
    exact hlt 1 1
  · rw [fld_put_self _ _ _ (by decide)]
    exact hlt 2 1
  · rw [fld_put_beside _ _ (by decide) (by decide), fld_put_beside _ _ (by decide) (by decide), fld_put_self _ _ _ (by decide)]
    exact hlt 4 2
  · rw [fld_put_addr _ _ (by decide), fld_put_addr _ _ (by decide), fld_put_addr _ _ (by decide)]

theorem writeCapCtl_off_shows {s : State} {v : Nat} (h : s.flag CAP_CTL_ENABLE = false)
    (ha : bitOf v 2 = false ∨ s.fld CAP_AREA_SIZE_SIZE ≠ 0) :
    (s.writeCapCtl v).flag CAP_CTL_ENABLE = bitOf v 0 ∧ (s.writeCapCtl v).fld CAP_CTL_MODE = bits v 1 1 ∧
    (s.writeCapCtl v).fld CAP_CTL_TARGET = bits v 2 1 ∧ (s.writeCapCtl v).fld CAP_CTL_TB = bits v 4 2 ∧
    (s.writeCapCtl v).fld CAP_HEAD_HEAD = (if s.fld CAP_CTL_TARGET = bits v 2 1 then s.fld CAP_HEAD_HEAD else 0) ∧
    s.OnlyRegs (s.writeCapCtl v) [rCAP_CTL, rCAP_HEAD] := by
  obtain ⟨hmode, htarget, htb, hhead⟩ := s.capModeSet_shows v
  rw [writeCapCtl_off h ha]
  refine ⟨flag_put_enable _ v, ?_, ?_, ?_, ?_, ?_⟩
  · rw [fld_put_beside _ _ (by decide) (by decide), fld_capHeadCleared_ne _ _ (by decide), hmode]
  · rw [fld_put_beside _ _ (by decide) (by decide), fld_capHeadCleared_ne _ _ (by decide), htarget]
  · rw [fld_put_beside _ _ (by decide) (by decide), fld_capHeadCleared_ne _ _ (by decide), htb]
  · rw [fld_put_addr _ _ (by decide), fld_capHeadCleared_head, hhead]
    by_cases hm : s.fld CAP_CTL_TARGET = bits v 2 1
    · simp [hm]
    · simp [hm, Ne.symm hm]
  · have hset : s.OnlyRegs (s.capModeSet v) [rCAP_CTL, rCAP_HEAD] :=
      (((OnlyRegs.refl s _).put _ (by decide)).put _ (by decide)).put _ (by decide)
    refine OnlyRegs.put ?_ v (by decide)
    cases bits v 2 1 != s.fld CAP_CTL_TARGET with
    | false => exact hset
    | true => exact hset.put 0 (by decide)

theorem writeCapTail_shut {s : State} (hm : s.flag CAP_CTL_MODE = true) (he : s.flag CAP_CTL_ENABLE = true) (v : Nat) :
    s.writeCapTail v = s := if_pos ⟨hm, he⟩

theorem writeCapTail_open {s : State} (h : s.flag CAP_CTL_MODE = false ∨ s.flag CAP_CTL_ENABLE = false) (v : Nat) :
    s.writeCapTail v = s.put CAP_TAIL_TAIL (v / 16 * 16) := by
  refine if_neg ?_
  rintro ⟨hm, he⟩
  rcases h with h | h
  · simp [hm] at h
  · simp [he] at h

end State

/-! ## The writes that reach their registers -/

section
variable {s : State} {r : Requester} (v : Nat)

theorem exec_excLimiterWrite_burst (h : s.reaches r (rPRS_EXC_BURST .A)) : exec (.excLimiterWrite r true v) s =
    .next (s.putBoth PRS_EXC_BURST_BURST (clampN 1 4096 (v % 8192))).excFill :=
  congrArg Host.Outcome.next (State.gated_reaches h _)

theorem exec_excLimiterWrite_rate (h : s.reaches r (rPRS_EXC_RATE .A)) : exec (.excLimiterWrite r false v) s =
    .next (s.putBoth PRS_EXC_RATE_RATE (min (v % 2 ^ 20) 1000000)).excFill :=
  congrArg Host.Outcome.next (State.gated_reaches h _)

theorem exec_capCtlWrite (h : s.reaches r rCAP_CTL) : exec (.capCtlWrite r v) s = .next (s.writeCapCtl v) :=
  congrArg Host.Outcome.next (State.gated_reaches h _)

theorem exec_capTailWrite (h : s.reaches r rCAP_TAIL) : exec (.capTailWrite r v) s = .next (s.writeCapTail v) :=
  congrArg Host.Outcome.next (State.gated_reaches h _)

end

end Sys2Proof.Machine
end

section
/-! PROOFS. Buffers, copies, the exception limiter and the capture engine: O33. -/

namespace Sys2Proof.Machine

/-- Settles O33: a returned pool by its own lemma, a copy by what its request finds, and each write by the state that it meets. -/
theorem buffersLimitersAndCaptures : Obligations.BuffersLimitersAndCaptures := by
  refine ⟨fun s pl pool p j js k ks s0 => ⟨fun hpool => ⟨_, exec_bufferReturnPush s pl pool, ?_⟩,
      fun h => ⟨exec_copyWrite_idle h, exec_allocSpill_idle h⟩, fun hr ht => ⟨exec_copyWrite_waits hr ht,
        exec_copyWrite_requests hr ht, State.copyWaits_plain, fun hn hw hp => ⟨fun s1 b hb hc => ?_, fun s1 q hb hs hq => ?_,
          fun s1 hb hs => ?_⟩, exec_copyWrite_unfit hr ht, fun start hp hn => ⟨exec_copyWrite_spilled hr ht hn, fun s1 b hb => ?_,
          fun s1 q hb hs hq => ?_, fun s1 hb hs => ?_⟩⟩⟩,
    fun s r v pl => ⟨fun h => ⟨_, exec_excLimiterWrite_burst v h, ?_⟩, fun h => ⟨_, exec_excLimiterWrite_rate v h, ?_⟩,
      fun h => ⟨fun he => ⟨_, exec_capCtlWrite v h, State.writeCapCtl_on_shows he v⟩,
        fun he ha => ⟨_, exec_capCtlWrite v h, State.writeCapCtl_off_shows he ha⟩⟩,
      fun h => ⟨fun hm he => ?_, fun hopen => ⟨_, exec_capTailWrite v h, ?_⟩⟩⟩⟩
  · rw [State.plane_setPlane_self, PlaneSt.pool_setPool_self hpool]
    exact ⟨rfl, rfl, rfl, fun q hq => PlaneSt.pool_setPool_ne _ hq _, rfl, rfl⟩
  · have hask := State.popBuf_asksPool hb
    refine ⟨_, exec_copyWrite_requests hr ht hn hw hp, ?_⟩
    rw [State.copyRequest_found hb, ← hask.queue, ← hask.fld (State.copiesCnt_notMem_poolRegs pl (State.fitPool_lt hp))]
    exact State.writeCopy_plain_shows (hask.repl.trans hr) ht (p, b) hc
  · exact ⟨_, exec_copyWrite_requests hr ht hn hw hp,
      State.copyRequest_spills_shows hb (State.fitPool_lt hp) hr hs hq p k⟩
  · rw [exec_copyWrite_requests hr ht hn hw hp, State.copyRequest_lost hb hs]
  · rw [exec_allocSpill_requests hr ht hn, State.copyRequest_found hb]
  · exact ⟨_, exec_allocSpill_requests hr ht hn, State.copyRequest_spills_shows hb hp hr hs hq start k⟩
  · rw [exec_allocSpill_requests hr ht hn, State.copyRequest_lost hb hs]
  · obtain ⟨hburst, hlevel, hfrac, hback, hregs⟩ := State.putBoth_excFill_shows (s := s) (f := PRS_EXC_BURST_BURST)
      (by simp [PRS_EXC_BURST_BURST]) (by decide) State.excBurst_addr_ne_level (clampN 1 4096 (v % 8192)) pl
    have hclamp : clampN 1 4096 (v % 8192) % 2 ^ 13 = max 1 (min (v % 8192) 4096) := Nat.mod_eq_of_lt (by rw [clampN]; omega)
    refine ⟨hburst.trans hclamp, hlevel.trans ?_, hfrac, hback, hregs⟩
    exact (State.fld_putBoth_self (by simp [PRS_EXC_BURST_BURST]) (by decide) _ .A).trans hclamp
  · obtain ⟨hrate, hlevel, hfrac, hback, hregs⟩ := State.putBoth_excFill_shows (s := s) (f := PRS_EXC_RATE_RATE)
      (by simp [PRS_EXC_RATE_RATE]) (by decide) State.excRate_addr_ne_level (min (v % 2 ^ 20) 1000000) pl
    refine ⟨hrate.trans (Nat.mod_eq_of_lt ?_), hlevel.trans (State.fld_putBoth_ne _ State.excBurst_addr_ne_rate), hfrac, hback, hregs⟩
    exact Nat.lt_of_le_of_lt (Nat.min_le_right _ _) (by simp [PRS_EXC_RATE_RATE])
  · rw [exec_capTailWrite v h, State.writeCapTail_shut hm he]
  · rw [State.writeCapTail_open hopen]
    exact ⟨State.fld_put_self s _ _ (by decide), (State.OnlyRegs.refl s _).put _ List.mem_cons_self⟩

end Sys2Proof.Machine
end

section
/-! PROOFS. A table command is refused or taken, holds BUSY, and shows its STATUS as it completes (R140, R172, R556): O30. -/

namespace Sys2Proof.Machine

namespace State

/-- A command that was taken: BUSY reads 1, and a STATUS code of R172, 0x1 to 0xD, waits to be shown. -/
def CommandPending (t : State) : Prop :=
  t.flag (TBL_CMD_BUSY .A) = true ∧ ∃ n, t.tblResult = some n ∧ 1 ≤ n ∧ n ≤ 0xD

/-- A completion that waits with a code. -/
def withResult (s : State) (n : Nat) : State := { s with tblResult := some n }

theorem flag_withResult (s : State) (n : Nat) (f : Fld) : (s.withResult n).flag f = s.flag f := rfl

theorem tblDone_eq (u : State) (n : Nat) : u.tblDone n = (u.put (TBL_CMD_BUSY .A) 1).withResult n := rfl

theorem tblDone_pending (u : State) {n : Nat} (hn : 1 ≤ n ∧ n ≤ 0xD := by decide) : (u.tblDone n).CommandPending := by
  refine ⟨?_, n, rfl, hn⟩
  rw [tblDone_eq, flag_withResult, flag_put_self _ _ _ (by decide)]
  rfl

theorem ite_pending {c : Prop} [Decidable c] {t u : State} (ht : t.CommandPending) (hu : u.CommandPending) :
    (if c then t else u).CommandPending := by
  split
  · exact ht
  · exact hu

/-! ## What each command ends with: `tblDone` in every branch of its work, with a code of R172 -/

/-- The codes that an insertion, a REPLACE or a DELETE of a key can end with. -/
def keyCodes : List Nat := [tsOK, tsEXISTS, tsNOTFOUND, tsNEEDREHASH, tsPINLIMIT, tsREPLACED]

theorem keyCodes_bounds {n : Nat} (h : n ∈ keyCodes) : 1 ≤ n ∧ n ≤ 0xD :=
  (by decide : ∀ n ∈ keyCodes, 1 ≤ n ∧ n ≤ 0xD) n h

theorem tblInsertKey_code (s : State) (ri : Nat) (rg : Region) (key result : Nat) (pin : Bool) :
    (s.tblInsertKey ri rg key result pin).2.1 ∈ keyCodes := by
  unfold tblInsertKey
  dsimp only
  split
  · simp [keyCodes]
  · split
    · split <;> simp [keyCodes]
    · split
      · simp [keyCodes]
      · split <;> simp [keyCodes]

theorem tblReplaceKey_code (s : State) (ri : Nat) (rg : Region) (key result : Nat) (pin : Bool) :
    (s.tblReplaceKey ri rg key result pin).2 ∈ keyCodes := by
  unfold tblReplaceKey
  split
  · simp [keyCodes]
  · split <;> simp [keyCodes]

theorem tblDeleteKey_code (s : State) (ri : Nat) (rg : Region) (key : Nat) : (s.tblDeleteKey ri rg key).2 ∈ keyCodes := by
  unfold tblDeleteKey
  split <;> simp [keyCodes]

section
variable (s : State) (wide pin : Bool) (g : Nat) (pl : Plane)

theorem doInsert_pending : (s.doInsert wide pin).CommandPending := by
  unfold doInsert
  dsimp only
  split
  · exact tblDone_pending _
  · next ri rg _ =>
    have hcode := s.tblInsertKey_code ri rg (s.tblKey wide) s.tblRes pin
    refine ite_pending (tblDone_pending _) ?_
    split
    · next h =>
      rw [h] at hcode
      exact tblDone_pending _ (keyCodes_bounds hcode)
    · next h =>
      rw [h] at hcode
      exact tblDone_pending _ (keyCodes_bounds hcode)

theorem doReplace_pending : (s.doReplace wide pin).CommandPending := by
  unfold doReplace
  dsimp only
  split
  · exact tblDone_pending _
  · exact ite_pending (tblDone_pending _) (tblDone_pending _ (keyCodes_bounds (tblReplaceKey_code ..)))

theorem doDelete_pending : (s.doDelete wide).CommandPending := by
  unfold doDelete
  dsimp only
  split
  · exact tblDone_pending _
  · exact ite_pending (tblDone_pending _) (tblDone_pending _ (keyCodes_bounds (tblDeleteKey_code ..)))

theorem doLookup_pending : (s.doLookup wide pl).CommandPending := by
  unfold doLookup
  dsimp only
  split
  · exact tblDone_pending _
  · split
    · exact tblDone_pending _
    · refine ite_pending (tblDone_pending _) ?_
      split <;> exact tblDone_pending _

theorem doReadAt_pending : (s.doReadAt g pl).CommandPending := by
  unfold doReadAt
  dsimp only
  refine ite_pending (ite_pending (tblDone_pending _) (ite_pending (tblDone_pending _) (tblDone_pending _))) ?_
  split
  · exact tblDone_pending _
  · exact ite_pending (tblDone_pending _) (ite_pending (tblDone_pending _) (tblDone_pending _))

theorem doWriteAt_pending : (s.doWriteAt g).CommandPending := by
  unfold doWriteAt
  dsimp only
  refine ite_pending (tblDone_pending _) (ite_pending (tblDone_pending _) ?_)
  split
  · exact tblDone_pending _
  · exact ite_pending (tblDone_pending _) (ite_pending (tblDone_pending _) (tblDone_pending _))

theorem doRehash_pending : (s.doRehash g).CommandPending := by
  unfold doRehash
  dsimp only
  refine ite_pending (tblDone_pending _) (ite_pending ?_ ?_)
  · exact ite_pending (tblDone_pending _) (ite_pending (tblDone_pending _) (tblDone_pending _))
  · split
    · exact tblDone_pending _
    · exact ite_pending (tblDone_pending _) (tblDone_pending _)

theorem doResume_pending : (s.doResume g).CommandPending := by
  unfold doResume
  dsimp only
  refine ite_pending (tblDone_pending _) (ite_pending ?_ ?_)
  · exact ite_pending (tblDone_pending _) (tblDone_pending _)
  · split
    · exact tblDone_pending _
    · exact ite_pending (tblDone_pending _) (tblDone_pending _)

theorem doUnlock_pending : (s.doUnlock wide).CommandPending := by
  unfold doUnlock
  dsimp only
  split
  · exact tblDone_pending _
  · refine ite_pending (tblDone_pending _) ?_
    split <;> exact tblDone_pending _

theorem doFlushLearned_pending : (s.doFlushLearned g).CommandPending := by
  unfold doFlushLearned
  dsimp only
  refine ite_pending (tblDone_pending _) (ite_pending (tblDone_pending _) ?_)
  split <;> exact tblDone_pending _

theorem doLpmInsert_pending : (s.doLpmInsert pin).CommandPending := by
  unfold doLpmInsert
  dsimp only
  refine ite_pending (tblDone_pending _) (ite_pending (tblDone_pending _)
    (ite_pending (tblDone_pending _) ?_))
  split
  · exact tblDone_pending _
  · exact ite_pending (tblDone_pending _) (tblDone_pending _)

theorem doLpmDelete_pending : s.doLpmDelete.CommandPending := by
  unfold doLpmDelete
  dsimp only
  refine ite_pending (tblDone_pending _) (ite_pending (tblDone_pending _) ?_)
  split <;> exact tblDone_pending _

theorem doLpmLookup_pending : s.doLpmLookup.CommandPending := by
  unfold doLpmLookup
  dsimp only
  split <;> exact tblDone_pending _

theorem doBloomRebuild_pending : s.doBloomRebuild.CommandPending :=
  ite_pending (tblDone_pending _) (tblDone_pending _)

end

/-- A command beside one of the management cluster, or while another runs, is refused with BUSY (R140). -/
theorem tblCommand_refused {s : State} {r : Requester} {tie : Bool} (hr : s.reaches r (rTBL_CMD .A))
    (h : (tie = true ∧ isMc r = false) ∨ s.flag (TBL_CMD_BUSY .A) = true) (act : State → State) :
    s.tblCommand r tie act = s.put (TBL_CMD_STATUS .A) tsBUSY :=
  (gated_reaches hr _).trans (if_pos h)

end State

/-- The commands of TBL_CMD with their operands. -/
def tableCommands (r : Requester) (tie wide pin : Bool) (g : Nat) (pl : Plane) : List Instr :=
  [.tblInsert r tie wide pin, .tblReplace r tie wide pin, .tblDelete r tie wide, .tblLookup r tie wide pl, .tblReadAt r tie g pl,
    .tblWriteAt r tie g, .tblRehash r tie g, .tblResume r tie g, .tblUnlock r tie wide, .tblFlushLearned r tie g,
    .tblLpmInsert r tie pin, .tblLpmDelete r tie, .tblLpmLookup r tie, .tblBloomRebuild r tie]

/-- Each of them is a write of TBL_CMD whose work leaves the command pending. -/
theorem exec_tableCommand (s : State) {r : Requester} {tie wide pin : Bool} {g : Nat} {pl : Plane} {c : Instr}
    (hc : c ∈ tableCommands r tie wide pin g pl) :
    ∃ act : State → State, exec c s = .next (s.tblCommand r tie act) ∧ (act s).CommandPending := by
  simp only [tableCommands, List.mem_cons, List.not_mem_nil, or_false] at hc
  rcases hc with rfl | rfl | rfl | rfl | rfl | rfl | rfl | rfl | rfl | rfl | rfl | rfl | rfl | rfl
  · exact ⟨_, rfl, s.doInsert_pending wide pin⟩
  · exact ⟨_, rfl, s.doReplace_pending wide pin⟩
  · exact ⟨_, rfl, s.doDelete_pending wide⟩
  · exact ⟨_, rfl, s.doLookup_pending wide pl⟩
  · exact ⟨_, rfl, s.doReadAt_pending g pl⟩
  · exact ⟨_, rfl, s.doWriteAt_pending g⟩
  · exact ⟨_, rfl, s.doRehash_pending g⟩
  · exact ⟨_, rfl, s.doResume_pending g⟩
  · exact ⟨_, rfl, s.doUnlock_pending wide⟩
  · exact ⟨_, rfl, s.doFlushLearned_pending g⟩
  · exact ⟨_, rfl, s.doLpmInsert_pending pin⟩
  · exact ⟨_, rfl, s.doLpmDelete_pending⟩
  · exact ⟨_, rfl, s.doLpmLookup_pending⟩
  · exact ⟨_, rfl, s.doBloomRebuild_pending⟩

/-- Settles O30: a command is refused by BUSY or leaves its code pending, and the pending code is shown at the completion. -/
theorem tableCommandsEndWithAStatus : Obligations.TableCommandsEndWithAStatus := by
  intro s r tie wide pin g st pl c
  refine ⟨fun hr hc => ?_, fun hst hle => ?_⟩
  · obtain ⟨act, hexec, hbusy, n, hn⟩ := exec_tableCommand s hc
    rw [hexec]
    refine ⟨fun h => ⟨_, rfl, ?_⟩, fun ht hb => ⟨_, n, rfl, ?_⟩⟩
    · rw [State.tblCommand_refused hr h]
      exact ⟨State.fld_put_self s _ _ (by decide), (State.OnlyRegs.refl s _).put _ List.mem_cons_self⟩
    · rw [State.tblCommand_taken hr ht hb]
      exact ⟨hbusy, hn⟩
  · obtain ⟨hstatus, hbusy, hdone⟩ := State.tblComplete_shows hst
    exact ⟨hstatus.trans (Nat.mod_eq_of_lt (by omega)), hbusy, hdone, s.tblResult_tblComplete, s.regsBut_tblComplete⟩

end Sys2Proof.Machine
end

section
/-! PROOFS. The work of the tables beside commands: walk, learning, ageing, repair, scrubbing and page reads (R142 to R168): O32. -/

namespace Sys2Proof.Machine

section
variable {s s1 : State} {g : Nat} {rg : Region} (hg : g ≠ 16) (hr : (s.plane s.engine).region g = some rg)
include hg hr

/-! ## The end of a rehash walk (R142, R143) -/

theorem exec_rehashWalkEnd_idle (hd : rg.state ≠ .dual) : exec (.rehashWalkEnd g) s = .next s := by
  simp only [exec, execRehashWalkEnd, hg, hr, hd, if_false]

variable (hd : rg.state = .dual)
include hd

/-- A walk that places every entry makes the new seed the only one. -/
theorem exec_rehashWalkEnd_done (hw : s.walkFromBucket g (rg.logical - rg.walk) rg.walk = (s1, none)) :
    exec (.rehashWalkEnd g) s = .next ((s1.mapRegion g
      (fun x => { x with state := .normal, oldSeed := x.seed, walk := 0 })).setFlag (TBL_EVT_REHASH_DONE .A)) := by
  simp only [exec, execRehashWalkEnd, hg, hr, hd, hw, if_false, if_true]

/-- A walk that cannot place an entry stalls at its bucket. -/
theorem exec_rehashWalkEnd_stalled {b : Nat} (hw : s.walkFromBucket g (rg.logical - rg.walk) rg.walk = (s1, some b)) :
    exec (.rehashWalkEnd g) s = .next ((s1.mapRegion g
      (fun x => { x with state := .stalled, walk := b })).setFlag (TBL_EVT_REHASH_STALL .A)) := by
  simp only [exec, execRehashWalkEnd, hg, hr, hd, hw, if_false, if_true]

end

/-! ## Learning a new key (R146) -/

section
variable {s s1 s2 : State} {ev : LearnEvent} {ri : Nat} {r1 : Region} (hn : s.nextLearn = some (ev, s1))
  (hl : (s1.plane s1.engine).learnRegion = some ri) (hr : (s1.plane s1.engine).region ri = some r1)
  (hw : s1.anyWriter = true) (hb : bestOf s1.epoch (holders r1 (s1.view r1) ev.key) = none)
include hn hl hr hw hb

/-- A tenant with no entry left learns nothing. -/
theorem exec_learnEventApply_quota (hq : s1.emRoom ev.port = false) :
    exec .learnEventApply s = .next (s1.inc (TBL_LEARN_QUOTA_CNT_VAL s.lead)) := by
  simp [exec, execLearnEventApply, hn, hl, hr, hw, hb, hq]

variable (hq : s1.emRoom ev.port = true)
include hq

theorem exec_learnEventApply_placed {x : Nat × Nat}
    (hp : s1.place ri ev.key (learnResult ev.port) (stVALID + stLEARNED) = (s2, some x)) :
    exec .learnEventApply s = .next (s2.inc (TBL_LEARN_CNT_VAL s.lead)) := by
  simp [exec, execLearnEventApply, hn, hl, hr, hw, hb, hq, hp]

theorem exec_learnEventApply_full
    (hp : s1.place ri ev.key (learnResult ev.port) (stVALID + stLEARNED) = (s2, none)) : exec .learnEventApply s =
      .next ((s2.inc (TBL_LEARN_FAIL_CNT_VAL s.lead)).setFlag (TBL_EVT_NEED_REHASH s.lead)) := by
  simp [exec, execLearnEventApply, hn, hl, hr, hw, hb, hq, hp]

end

/-! ## Ageing (R150) -/

theorem exec_ageSweep_off {s : State} (h : s.fld (TBL_LEARN_CTL_AGE_S s.lead) = 0) : exec .ageSweep s = .next s := by
  simp only [exec, execAgeSweep, h, if_true]

/-- One entry in a sweep: it stays while locked, is deleted at the age of 3 in every plane, and grows older otherwise. -/
def State.ageEntry (s : State) (ri : Nat) (x : Nat × Nat × Slot) : State :=
  if stHas x.2.2.status stLOCK then s
  else if (s.agesOf ri x.1 x.2.1).all (· == 3) then (s.tblApply ri [.clear x.1 x.2.1]).inc (TBL_AGED_CNT_VAL s.lead)
  else s.ageUp ri x.1 x.2.1

/-- A sweep takes the learned entries of the learn region one after another. -/
theorem exec_ageSweep {s : State} {ri : Nat} {r1 : Region} (ha : s.fld (TBL_LEARN_CTL_AGE_S s.lead) ≠ 0)
    (hl : (s.plane s.engine).learnRegion = some ri) (hr : (s.plane s.engine).region ri = some r1) (hw : s.anyWriter = true) :
    exec .ageSweep s = .next ((s.learnedOf r1).foldl (fun s x => s.ageEntry ri x) s) := by
  simp [exec, execAgeSweep, State.ageEntry, ha, hl, hr, hw]

/-! ## Repair of a bad item, and the scrubber (R157 to R160) -/

section
variable {s : State} {pl : Plane} {a : Nat} {table : Nat} (ht : table < 2) (hb : (s.plane pl).badItem table a = true)
include ht hb

theorem exec_parityRepair_good {x : Slot} (hx : s.goodSource pl table a = some x) :
    exec (.parityRepair pl table a) s = .next ((s.repairItem pl table a x).repairNoted pl table a true) := by
  have h2 : table ≠ 2 := by omega
  simp only [exec, execParityRepair, h2, ht, hb, hx, if_false, and_self, if_true]

theorem exec_parityRepair_none (hx : s.goodSource pl table a = none) :
    exec (.parityRepair pl table a) s = .next (s.repairNoted pl table a false) := by
  have h2 : table ≠ 2 := by omega
  simp only [exec, execParityRepair, h2, ht, hb, hx, if_false, and_self, if_true]

end

/-- The scrubber's pointer one item on, round to the first. -/
def State.scrubOn (s : State) (pl : Plane) : State :=
  s.setPlane pl { s.plane pl with scrub := ((s.plane pl).scrub % scrubItems + 1) % scrubItems }

/-- A good slot is read and left. -/
theorem exec_scrubRead_goodSlot {s : State} {pl : Plane} (hi : (s.plane pl).scrub % scrubItems < 131072)
    (hb : (s.plane pl).badSlots.contains ((s.plane pl).scrub % scrubItems) = false) :
    exec (.scrubRead pl) s = .next (s.scrubOn pl) := by
  have hgood : (s.plane pl).badItem 0 ((s.plane pl).scrub % scrubItems) = false := hb
  simp only [exec, execScrubRead, State.scrubOn, hi, hgood, if_true, Bool.false_eq_true, if_false]

/-! ## A page that comes in (R162, R168) -/

theorem exec_pageReadComplete_unasked {s : State} {pl : Plane} {g page : Nat}
    (h : (s.plane pl).pageReads.contains (g, page) = false) : exec (.pageReadComplete pl g page) s = .next s :=
  congrArg Host.Outcome.next (if_pos h)

/-- A page read that ends: nothing waits for that page any more. -/
def State.pageArrived (s : State) (pl : Plane) (g page : Nat) : State :=
  s.setPlane pl { s.plane pl with
    pageReads := (s.plane pl).pageReads.filter (fun e => decide (e ≠ (g, page)))
    parked := (s.plane pl).parked.map (fun p => { p with pages := p.pages.filter (fun e => decide (e ≠ (g, page))) }) }

/-- The page is loaded into the frame taken for it, and the frames that waited go on. -/
theorem exec_pageReadComplete_loads {s s2 : State} {pl : Plane} {g page fr : Nat}
    (h : (s.plane pl).pageReads.contains (g, page) = true) (hf : (s.pageArrived pl g page).takeFrame pl g = (s2, some fr)) :
    exec (.pageReadComplete pl g page) s = .next ((s2.loadPage pl g fr page).resumeAll.keepSpare pl g 256) := by
  unfold State.pageArrived at hf
  simp only [exec, execPageReadComplete, h, hf, Bool.true_eq_false, if_false]

/-- Settles O32: each work by the state in which it is done. -/
theorem tablesWorkOnTheirOwn : Obligations.TablesWorkOnTheirOwn := by
  intro s pl g a page rg
  refine ⟨fun hg hr hd => ⟨fun s1 => exec_rehashWalkEnd_done hg hr hd, fun s1 b => exec_rehashWalkEnd_stalled hg hr hd⟩,
    exec_rehashWalkEnd_idle, fun ev s1 ri r1 hn hl hr hw hb => ⟨exec_learnEventApply_quota hn hl hr hw hb,
      fun s2 x hq => exec_learnEventApply_placed hn hl hr hw hb hq, fun s2 => exec_learnEventApply_full hn hl hr hw hb⟩,
    fun ri r1 ha hl hr hw hnone => ?_, fun ri r1 b e x ha hl hr hw hone hlock => ?_, exec_ageSweep_off,
    fun table ht hb => ⟨fun x => exec_parityRepair_good ht hb, exec_parityRepair_none ht hb⟩,
    fun hb hi => ⟨_, exec_scrubRead_goodSlot hi hb, ?_⟩, exec_pageReadComplete_unasked, ?_⟩
  · rw [exec_ageSweep ha hl hr hw, hnone, List.foldl_nil]
  · rw [exec_ageSweep ha hl hr hw, hone, List.foldl_cons, List.foldl_nil]
    simp only [State.ageEntry, hlock, Bool.false_eq_true, if_false]
  · exact ⟨State.plane_setPlane_self .., State.plane_setPlane_twin .., by cases pl <;> rfl⟩
  · rintro s1 s2 fr h rfl hf
    exact exec_pageReadComplete_loads h hf

end Sys2Proof.Machine
end

section
/-! PROOFS. A POP drops the oldest entry, and the pulse pins start and capture (R273, R275, R276): O38. -/

namespace Sys2Proof.Machine

/-! ## The writes that pop -/

theorem exec_txtsPop {s : State} {r : Requester} (pop : Bool) (h : s.reaches r rTIM_TXTS_POP) :
    exec (.txtsPop r pop) s = .next (s.popTxts pop) :=
  congrArg Host.Outcome.next (State.gated_reaches h _)

theorem exec_ppsCapPop {s : State} {r : Requester} {n : Nat} (hn : n < 4) (h : s.reaches r (rTIM_PPS_CAP_STAT n)) :
    exec (.ppsCapPop r n) s = .next (s.popPps n) :=
  congrArg Host.Outcome.next ((if_pos hn).trans (State.gated_reaches h _))

/-! ## An output pin starts its pulse (R275) -/

/-- A pulse of pin `n` starts at the last tick. -/
def State.ppsStarted (s : State) (n : Nat) : State :=
  { s with
    ppsPulses := tabSet 0 s.ppsPulses n (tabGet 0 s.ppsPulses n + 1)
    ppsStart := tabPut s.ppsStart n s.ticks
    ppsEnd := tabPut s.ppsEnd n (s.ticks + 250 * s.ppsWidth n) }

theorem State.ppsPulses_ppsStarted (s : State) (n : Nat) :
    tabGet 0 (s.ppsStarted n).ppsPulses n = tabGet 0 s.ppsPulses n + 1 :=
  tabGet_tabSet_self 0 s.ppsPulses n (tabGet 0 s.ppsPulses n + 1)

section
variable {s : State} {n : Nat}

theorem exec_ppsPulse_due (hn : n < 4) (he : s.flag (TIM_PPS_CFG_EN n) = true) (ho : s.flag (TIM_PPS_CFG_DIR n) = true)
    (hd : s.ppsDue n = true) (hs : tabFind s.ppsStart n ≠ some s.ticks) :
    exec (.ppsPulse n) s = .next (s.ppsStarted n) :=
  congrArg Host.Outcome.next (if_pos ⟨hn, Bool.and_eq_true_iff.mpr ⟨he, ho⟩, hd, hs⟩)

theorem exec_ppsPulse_idle (h : s.flag (TIM_PPS_CFG_EN n) = false ∨ s.flag (TIM_PPS_CFG_DIR n) = false ∨
    s.ppsDue n = false ∨ tabFind s.ppsStart n = some s.ticks) : exec (.ppsPulse n) s = .next s := by
  refine congrArg Host.Outcome.next (if_neg fun ⟨_, hout, hdue, hstart⟩ => ?_)
  obtain ⟨hen, hdir⟩ := Bool.and_eq_true_iff.mp hout
  rcases h with h | h | h | h
  · exact Bool.eq_false_iff.mp h hen
  · exact Bool.eq_false_iff.mp h hdir
  · exact Bool.eq_false_iff.mp h hdue
  · exact hstart h

/-- A pulse of some width holds the pin at its active level. -/
theorem State.ppsLevel_ppsStarted (hw : 0 < s.ppsWidth n) : (s.ppsStarted n).ppsLevel n = !s.flag (TIM_PPS_CFG_POL n) := by
  have hend : tabGet 0 (s.ppsStarted n).ppsEnd n = s.ticks + 250 * s.ppsWidth n := tabGet_tabPut_self _ _ _ _
  have hin : s.ticks < tabGet 0 (s.ppsStarted n).ppsEnd n := by omega
  exact (congrArg (· != s.flag (TIM_PPS_CFG_POL n)) (decide_eq_true hin)).trans (Bool.true_bne _)

/-! ## An input pin captures an edge (R276) -/

theorem exec_ppsEdge (hn : n < 4) (he : s.flag (TIM_PPS_CFG_EN n) = true) (hi : s.flag (TIM_PPS_CFG_DIR n) = false) (e : Nat) :
    exec (.ppsEdge n e) s = .next (s.ppsCapture n e) :=
  congrArg Host.Outcome.next (if_pos ⟨hn, he, hi⟩)

/-- An edge that finds the FIFO of its pin full is counted and noted. -/
def State.ppsLost (s : State) (n : Nat) : State :=
  (s.incSat (TIM_PPS_CAP_STAT_OVF n)).put TIM_EVT_PPS_OVF (setBits (s.fld TIM_EVT_PPS_OVF) n 1 1)

/-- The time base of a pin captured at the end of its FIFO. -/
def State.ppsTaken (s : State) (n e : Nat) : State :=
  { s with
    ppsCap := tabSet [] s.ppsCap n (tabGet [] s.ppsCap n ++ [((s.stampNow e)[n]?).getD ⟨0, 0, 0⟩])
    ppsLast := tabPut s.ppsLast n (4 * s.ticks + e % 4) }

theorem State.ppsCapture_near {e k : Nat} (hk : tabFind s.ppsLast n = some k) (h : 4 * s.ticks + e % 4 < k + 1000) :
    s.ppsCapture n e = s := by
  rw [State.ppsCapture, hk]
  exact if_pos (decide_eq_true h)

theorem State.ppsCapture_far {e : Nat} (h : ∀ k, tabFind s.ppsLast n = some k → k + 1000 ≤ 4 * s.ticks + e % 4) :
    s.ppsCapture n e = if 4 ≤ (tabGet [] s.ppsCap n).length then s.ppsLost n
      else (s.ppsTaken n e).put TIM_EVT_PPS_IN (setBits (s.fld TIM_EVT_PPS_IN) n 1 1) := by
  rw [State.ppsCapture]
  cases hk : tabFind s.ppsLast n with
  | none => rfl
  | some k => exact if_neg fun hnear => Nat.not_lt.mpr (h k hk) (of_decide_eq_true hnear)

/-- The bit of a pin set in an event field of the four pins. -/
theorem State.bitOf_put_pin (s : State) {f : Fld} (hf : f.lsb + f.wid ≤ 32) (hw : f.wid = 4) (hn : n < 4) (v : Nat) :
    bitOf ((s.put f (setBits v n 1 1)).fld f) n = true := by
  rw [fld_put_self _ _ _ hf, hw, bitOf_mod hn, bitOf_setBits_one_self]
  rfl

theorem State.ppsLost_shows (s : State) (hn : n < 4) :
    (s.ppsLost n).fld (TIM_PPS_CAP_STAT_OVF n) = min (s.fld (TIM_PPS_CAP_STAT_OVF n) + 1) 255 ∧
    bitOf ((s.ppsLost n).fld TIM_EVT_PPS_OVF) n = true ∧ s.OnlyRegs (s.ppsLost n) [rTIM_PPS_CAP_STAT n, rTIM_EVT] := by
  refine ⟨?_, bitOf_put_pin _ (by decide) rfl hn _,
    ((OnlyRegs.refl s _).put (f := TIM_PPS_CAP_STAT_OVF n) _ (by simp [TIM_PPS_CAP_STAT_OVF])).put _ (by simp [TIM_EVT_PPS_OVF])⟩
  have hother : (TIM_PPS_CAP_STAT_OVF n).addr ≠ TIM_EVT_PPS_OVF.addr := by
    simp only [TIM_PPS_CAP_STAT_OVF, rTIM_PPS_CAP_STAT, TIM_EVT_PPS_OVF, rTIM_EVT]
    omega
  rw [ppsLost, fld_put_addr _ _ hother, incSat, fld_put_self _ _ _ (by simp [TIM_PPS_CAP_STAT_OVF])]
  exact Nat.mod_eq_of_lt (Nat.lt_of_le_of_lt (Nat.min_le_right _ _) (by simp [TIM_PPS_CAP_STAT_OVF]))

end

/-- Settles O38: each pop by its own lemma, and the pins by whether a pulse starts and what an edge finds. -/
theorem popsAndPulsePins : Obligations.PopsAndPulsePins := by
  refine fun s r n e => ⟨fun h => ⟨exec_txtsPop true h, exec_txtsPop false h⟩,
    fun hn h => ⟨_, exec_ppsCapPop hn h, tabGet_tabSet_self _ _ _ _, fun m hm => tabGet_tabSet_ne _ _ _ hm, rfl⟩,
    fun hn he ho hd hs => ⟨_, exec_ppsPulse_due hn he ho hd hs, s.ppsPulses_ppsStarted n, tabFind_tabPut_self _ _ _,
      tabFind_tabPut_self _ _ _, State.ppsLevel_ppsStarted, rfl⟩,
    exec_ppsPulse_idle, fun hn he hi => ⟨fun k hk h => ?_, fun hfar => ⟨fun hfull => ?_, fun hroom => ?_⟩⟩⟩
  · rw [exec_ppsEdge hn he hi, State.ppsCapture_near hk h]
  · rw [exec_ppsEdge hn he hi, State.ppsCapture_far hfar, if_pos hfull]
    exact ⟨_, rfl, s.ppsLost_shows hn⟩
  · rw [exec_ppsEdge hn he hi, State.ppsCapture_far hfar, if_neg (Nat.not_le.mpr hroom)]
    exact ⟨_, rfl, tabGet_tabSet_self _ _ _ _, tabFind_tabPut_self _ _ _, State.bitOf_put_pin _ (by decide) rfl hn _, rfl,
      (State.RegsBut.of_regs (t := s.ppsTaken n e) _ rfl).put _ List.mem_cons_self⟩

end Sys2Proof.Machine
end

section
/-! SUPPORT. What a tick of PLL_TS does to one time base and its registers, and leaves of the others (R255 to R261). -/

namespace Sys2Proof.Machine

/-! ## Time values -/

theorem TbTime.units_plus (t : TbTime) (d : Nat) :
    (t.plus d).units = (t.units + d) % (2 ^ 48 * 1000000000 * 2 ^ 32) := by
  simp only [TbTime.plus, TbTime.units]
  omega

/-- A time base in good form shows a time of 48-bit seconds and 30-bit nanoseconds. -/
theorem TimeBase.now_lt {t : TimeBase} (h : t.ok = true) : t.now.sec < 2 ^ 48 ∧ t.now.ns < 2 ^ 30 := by
  unfold TimeBase.ok at h
  rw [Bool.and_eq_true, Bool.and_eq_true, decide_eq_true_eq] at h
  obtain ⟨⟨⟨hsec, hns, -⟩, -⟩, -⟩ := h
  exact ⟨hsec, Nat.lt_trans hns (by decide)⟩

namespace State

/-! ## A time base changed -/

theorem tb_setTb_self {s : State} {n : Nat} (h : n < s.tbs.length) (x : TimeBase) : (s.setTb n x).tb n = x := by
  simp [setTb, tb, h]

theorem tb_setTb_ne (s : State) {n m : Nat} (h : m ≠ n) (x : TimeBase) : (s.setTb n x).tb m = s.tb m := by
  simp [setTb, tb, List.getElem?_set_ne h.symm]

/-! ## Changes of listed registers, one after another -/

theorem OnlyRegs.trans {s t u : State} {as bs : List Nat} (h : s.OnlyRegs t as) (k : t.OnlyRegs u bs) : s.OnlyRegs u (as ++ bs) :=
  ⟨(congrArg (fun x : State => { x with regs := s.regs }) k.rest).trans h.rest, fun a ha =>
    (k.regs a fun hb => ha (List.mem_append_right _ hb)).trans (h.regs a fun hb => ha (List.mem_append_left _ hb))⟩

theorem OnlyRegs.fld {s t : State} {as : List Nat} (h : s.OnlyRegs t as) {f : Fld} (hf : f.addr ∉ as) : t.fld f = s.fld f := by
  rw [State.fld, State.fld, h.regs f.addr hf]

/-! ## What a tick leaves in the registers -/

/-- INC_NS shows an increment that was committed. -/
def incShown (s : State) (n : Nat) (t : TimeBase) (ns : Nat) : State :=
  if t.commitInc.isSome then s.put (TIM_TB_INC_NS_NS n) ns else s

/-- A step that waited shows as taken or as refused. -/
def stepShown (s : State) (n : Nat) (t : TimeBase) (taken : Bool) : State :=
  if taken then s.put (TIM_TB_CTL_STEP_USED n) 1 else if t.step then s.put (TIM_TB_CTL_STEP_REFUSED n) 1 else s

/-- A snapshot that was asked for shows the value after the tick. -/
def snapShown (s : State) (n : Nat) (t : TimeBase) (now : TbTime) : State :=
  if t.snap then
    (s.put64 (TIM_TB_SNAP_SEC_LO_SEC n) (TIM_TB_SNAP_SEC_HI_SEC n) now.sec).put (TIM_TB_SNAP_NS_NS n) now.ns
  else s

def snapRegs (n : Nat) : List Nat := [rTIM_TB_SNAP_SEC_LO n, rTIM_TB_SNAP_SEC_HI n, rTIM_TB_SNAP_NS n]

section
variable (s : State) (n : Nat) (t : TimeBase)

theorem incShown_onlyRegs (ns : Nat) : s.OnlyRegs (s.incShown n t ns) [rTIM_TB_INC_NS n] := by
  unfold incShown
  split
  · exact (OnlyRegs.refl s _).put _ List.mem_cons_self
  · exact OnlyRegs.refl s _

theorem stepShown_onlyRegs (taken : Bool) : s.OnlyRegs (s.stepShown n t taken) [rTIM_TB_CTL n] := by
  unfold stepShown
  split
  · exact (OnlyRegs.refl s _).put _ List.mem_cons_self
  split
  · exact (OnlyRegs.refl s _).put _ List.mem_cons_self
  · exact OnlyRegs.refl s _

theorem snapShown_onlyRegs (now : TbTime) : s.OnlyRegs (s.snapShown n t now) (snapRegs n) := by
  unfold snapShown
  split
  · exact (((OnlyRegs.refl s (snapRegs n)).put _ (by simp [snapRegs, TIM_TB_SNAP_SEC_LO_SEC])).put _
      (by simp [snapRegs, TIM_TB_SNAP_SEC_HI_SEC])).put _ (by simp [snapRegs, TIM_TB_SNAP_NS_NS])
  · exact OnlyRegs.refl s _

variable {t}

theorem fld_incShown {p : Nat × Nat} (h : t.commitInc = some p) (ns : Nat) :
    (s.incShown n t ns).fld (TIM_TB_INC_NS_NS n) = ns % 256 := by
  rw [incShown, h, if_pos Option.isSome_some, fld_put_self _ _ _ (by simp [TIM_TB_INC_NS_NS])]
  rfl

theorem flag_stepShown_used : (s.stepShown n t true).flag (TIM_TB_CTL_STEP_USED n) = true := by
  rw [stepShown, if_pos rfl, flag_put_self _ _ _ (by simp [TIM_TB_CTL_STEP_USED])]
  rfl

theorem flag_stepShown_refused (h : t.step = true) : (s.stepShown n t false).flag (TIM_TB_CTL_STEP_REFUSED n) = true := by
  rw [stepShown, if_neg Bool.false_ne_true, if_pos h, flag_put_self _ _ _ (by simp [TIM_TB_CTL_STEP_REFUSED])]
  rfl

theorem snapShown_shows (h : t.snap = true) {now : TbTime} (hs : now.sec < 2 ^ 48) (hn : now.ns < 2 ^ 30) :
    (s.snapShown n t now).fld64 (TIM_TB_SNAP_SEC_LO_SEC n) (TIM_TB_SNAP_SEC_HI_SEC n) = now.sec ∧
    (s.snapShown n t now).fld (TIM_TB_SNAP_NS_NS n) = now.ns := by
  rw [snapShown, if_pos h, fld64, put64]
  have hlo : (TIM_TB_SNAP_SEC_LO_SEC n).addr ≠ (TIM_TB_SNAP_NS_NS n).addr := by
    simp [TIM_TB_SNAP_SEC_LO_SEC, TIM_TB_SNAP_NS_NS, rTIM_TB_SNAP_SEC_LO, rTIM_TB_SNAP_NS]
  have hhi : (TIM_TB_SNAP_SEC_HI_SEC n).addr ≠ (TIM_TB_SNAP_NS_NS n).addr := by
    simp [TIM_TB_SNAP_SEC_HI_SEC, TIM_TB_SNAP_NS_NS, rTIM_TB_SNAP_SEC_HI, rTIM_TB_SNAP_NS]
  have hboth : (TIM_TB_SNAP_SEC_LO_SEC n).addr ≠ (TIM_TB_SNAP_SEC_HI_SEC n).addr := by
    simp [TIM_TB_SNAP_SEC_HI_SEC, TIM_TB_SNAP_SEC_LO_SEC, rTIM_TB_SNAP_SEC_HI, rTIM_TB_SNAP_SEC_LO]
  rw [fld_put_addr _ _ hlo, fld_put_addr _ _ hhi, fld_put_addr _ _ hboth,
    fld_put_self _ (TIM_TB_SNAP_SEC_LO_SEC n) _ (by simp [TIM_TB_SNAP_SEC_LO_SEC]),
    fld_put_self _ (TIM_TB_SNAP_SEC_HI_SEC n) _ (by simp [TIM_TB_SNAP_SEC_HI_SEC]),
    fld_put_self _ (TIM_TB_SNAP_NS_NS n) _ (by simp [TIM_TB_SNAP_NS_NS])]
  simp only [TIM_TB_SNAP_SEC_LO_SEC, TIM_TB_SNAP_SEC_HI_SEC, TIM_TB_SNAP_NS_NS]
  omega

end

/-! ## One time base at a tick -/

/-- Time base `n` after the tick. -/
def tbAfter (s : State) (n : Nat) : TimeBase := (s.tb n).tick (s.tbRuns n) (s.stepAt n) s.ticks

theorem tickTb_eq (s : State) (n : Nat) : s.tickTb n =
    (((s.setTb n (s.tbAfter n)).incShown n (s.tb n) (s.tbAfter n).incNs).stepShown n (s.tb n)
      (s.tbAfter n).stepped).snapShown n (s.tb n) (s.tbAfter n).now := rfl

theorem tickTb_onlyRegs (s : State) (n : Nat) : (s.setTb n (s.tbAfter n)).OnlyRegs (s.tickTb n)
    (([rTIM_TB_INC_NS n] ++ [rTIM_TB_CTL n]) ++ snapRegs n) := by
  rw [tickTb_eq]
  exact ((incShown_onlyRegs _ _ _ _).trans (stepShown_onlyRegs _ _ _ _)).trans (snapShown_onlyRegs _ _ _ _)

/-- Time base `n` ticked: its value and increment, and what its registers show of it. -/
structure TbTicked (s t : State) (n : Nat) : Prop where
  tb : t.tb n = s.tbAfter n
  inc : ∀ p, (s.tb n).commitInc = some p → t.fld (TIM_TB_INC_NS_NS n) = (s.tbAfter n).incNs % 256
  used : (s.tbAfter n).stepped = true → t.flag (TIM_TB_CTL_STEP_USED n) = true
  refused : (s.tbAfter n).stepped = false → (s.tb n).step = true → t.flag (TIM_TB_CTL_STEP_REFUSED n) = true
  snap : (s.tb n).snap = true → (s.tbAfter n).now.sec < 2 ^ 48 → (s.tbAfter n).now.ns < 2 ^ 30 →
    t.fld64 (TIM_TB_SNAP_SEC_LO_SEC n) (TIM_TB_SNAP_SEC_HI_SEC n) = (s.tbAfter n).now.sec ∧
    t.fld (TIM_TB_SNAP_NS_NS n) = (s.tbAfter n).now.ns

theorem tickTb_ticked {s : State} {n : Nat} (hn : n < s.tbs.length) : s.TbTicked (s.tickTb n) n := by
  have hctl : rTIM_TB_CTL n ∉ snapRegs n := by
    simp [snapRegs, rTIM_TB_CTL, rTIM_TB_SNAP_SEC_LO, rTIM_TB_SNAP_SEC_HI, rTIM_TB_SNAP_NS]
  have hinc : rTIM_TB_INC_NS n ∉ [rTIM_TB_CTL n] ++ snapRegs n := by
    simp [snapRegs, rTIM_TB_INC_NS, rTIM_TB_CTL, rTIM_TB_SNAP_SEC_LO, rTIM_TB_SNAP_SEC_HI, rTIM_TB_SNAP_NS]
  refine ⟨?_, fun p hp => ?_, fun hu => ?_, fun hu hs => ?_, fun hsnap hs hns => ?_⟩
  · exact ((tickTb_onlyRegs s n).same (f := fun u => u.tb n) fun _ _ => rfl).trans (tb_setTb_self hn _)
  · rw [tickTb_eq, ((stepShown_onlyRegs _ _ _ _).trans (snapShown_onlyRegs _ _ _ _)).fld hinc, fld_incShown _ _ hp]
  · rw [tickTb_eq, hu, flag, (snapShown_onlyRegs _ _ _ _).fld hctl]
    exact flag_stepShown_used _ _
  · rw [tickTb_eq, hu, flag, (snapShown_onlyRegs _ _ _ _).fld hctl]
    exact flag_stepShown_refused _ _ hs
  · exact snapShown_shows _ n hsnap hs hns

/-! ## The other time bases stay -/

/-- Time base `n`, its registers and the count of ticks are the same in both states. -/
structure SameTb (s t : State) (n : Nat) : Prop where
  ticks : t.ticks = s.ticks
  count : t.tbs.length = s.tbs.length
  tb : t.tb n = s.tb n
  regs : ∀ a, a / 64 = 0x10000 + n → t.reg a = s.reg a

namespace SameTb

theorem refl (s : State) (n : Nat) : s.SameTb s n := ⟨rfl, rfl, rfl, fun _ _ => rfl⟩

theorem trans {s t u : State} {n : Nat} (h : s.SameTb t n) (k : t.SameTb u n) : s.SameTb u n :=
  ⟨k.ticks.trans h.ticks, k.count.trans h.count, k.tb.trans h.tb, fun a ha => (k.regs a ha).trans (h.regs a ha)⟩

theorem fld {s t : State} {n : Nat} (h : s.SameTb t n) {f : Fld} (hf : f.addr / 64 = 0x10000 + n) : t.fld f = s.fld f := by
  rw [State.fld, State.fld, h.regs f.addr hf]

theorem flag {s t : State} {n : Nat} (h : s.SameTb t n) {f : Fld} (hf : f.addr / 64 = 0x10000 + n) : t.flag f = s.flag f := by
  rw [State.flag, State.flag, h.fld hf]

theorem tbRuns {s t : State} {n : Nat} (h : s.SameTb t n) : t.tbRuns n = s.tbRuns n := by
  rw [State.tbRuns, State.tbRuns, h.flag (by simp only [TIM_TB_CTL_EN, rTIM_TB_CTL]; omega)]

theorem stepAt {s t : State} {n : Nat} (h : s.SameTb t n) : t.stepAt n = s.stepAt n := by
  rw [State.stepAt, State.stepAt, State.fld64, State.fld64, h.tb,
    h.fld (f := TIM_TB_STEP_NS_NS n) (by simp only [TIM_TB_STEP_NS_NS, rTIM_TB_STEP_NS]; omega),
    h.fld (f := TIM_TB_STEP_SEC_LO_SEC n) (by simp only [TIM_TB_STEP_SEC_LO_SEC, rTIM_TB_STEP_SEC_LO]; omega),
    h.fld (f := TIM_TB_STEP_SEC_HI_SEC n) (by simp only [TIM_TB_STEP_SEC_HI_SEC, rTIM_TB_STEP_SEC_HI]; omega)]

theorem tbAfter {s t : State} {n : Nat} (h : s.SameTb t n) : t.tbAfter n = s.tbAfter n := by
  rw [State.tbAfter, State.tbAfter, h.tb, h.tbRuns, h.stepAt, h.ticks]

end SameTb

/-- The registers that a tick of time base `m` writes lie in its own block. -/
theorem tickTb_sameTb (s : State) {n m : Nat} (h : n ≠ m) : s.SameTb (s.tickTb m) n := by
  have only := tickTb_onlyRegs s m
  refine ⟨only.same (f := State.ticks) fun _ _ => rfl, ?_,
    (only.same (f := fun u => u.tb n) fun _ _ => rfl).trans (tb_setTb_ne s h _), fun a ha => only.regs a ?_⟩
  · exact (only.same (f := fun u => u.tbs.length) fun _ _ => rfl).trans List.length_set
  · simp only [snapRegs, List.cons_append, List.nil_append, List.mem_cons, List.not_mem_nil, or_false, rTIM_TB_INC_NS,
      rTIM_TB_CTL, rTIM_TB_SNAP_SEC_LO, rTIM_TB_SNAP_SEC_HI, rTIM_TB_SNAP_NS]
    omega

theorem foldl_tickTb_sameTb {n : Nat} {l : List Nat} (h : n ∉ l) (s : State) : s.SameTb (l.foldl tickTb s) n := by
  induction l generalizing s with
  | nil => exact SameTb.refl s n
  | cons m l ih =>
    obtain ⟨hm, hl⟩ := not_or.mp (mt List.mem_cons.mpr h)
    exact (tickTb_sameTb s hm).trans (ih hl _)

/-- The tick of a time base depends on its own part of the state only, and shows in it only. -/
theorem TbTicked.congr {s s' t t' : State} {n : Nat} (h : s.TbTicked t n) (hs : s'.SameTb s n) (ht : t.SameTb t' n) :
    s'.TbTicked t' n := by
  obtain ⟨htb, hinc, hused, hrefused, hsnap⟩ := h
  rw [hs.tbAfter] at htb hinc hused hrefused hsnap
  rw [hs.tb] at hinc hrefused hsnap
  refine ⟨ht.tb.trans htb, fun p hp => ?_, fun hu => ?_, fun hu hst => ?_, fun hsn h1 h2 => ?_⟩
  · rw [ht.fld (by simp only [TIM_TB_INC_NS_NS, rTIM_TB_INC_NS]; omega), hinc p hp]
  · rw [ht.flag (by simp only [TIM_TB_CTL_STEP_USED, rTIM_TB_CTL]; omega), hused hu]
  · rw [ht.flag (by simp only [TIM_TB_CTL_STEP_REFUSED, rTIM_TB_CTL]; omega), hrefused hu hst]
  · rw [fld64, ht.fld (f := TIM_TB_SNAP_SEC_LO_SEC n) (by simp only [TIM_TB_SNAP_SEC_LO_SEC, rTIM_TB_SNAP_SEC_LO]; omega),
      ht.fld (f := TIM_TB_SNAP_SEC_HI_SEC n) (by simp only [TIM_TB_SNAP_SEC_HI_SEC, rTIM_TB_SNAP_SEC_HI]; omega),
      ht.fld (f := TIM_TB_SNAP_NS_NS n) (by simp only [TIM_TB_SNAP_NS_NS, rTIM_TB_SNAP_NS]; omega)]
    exact hsnap hsn h1 h2

/-- Each of the time bases listed once ticks once. -/
theorem foldl_tickTb_ticked {s : State} {n : Nat} {l : List Nat} (hl : l.Nodup) (hm : n ∈ l) (hn : n < s.tbs.length) :
    s.TbTicked (l.foldl tickTb s) n := by
  obtain ⟨l1, l2, rfl⟩ := List.append_of_mem hm
  obtain ⟨-, hn2, hdisj⟩ := List.nodup_append.mp hl
  have before := foldl_tickTb_sameTb (fun h1 => hdisj n h1 n List.mem_cons_self rfl) s
  rw [List.foldl_append, List.foldl_cons]
  exact (tickTb_ticked (before.count ▸ hn)).congr before (foldl_tickTb_sameTb (List.nodup_cons.mp hn2).1 _)

/-! ## The whole tick -/

/-- A state with its registers, time bases and count of ticks put back to those of another. -/
def timeBack (s t : State) : State := { t with regs := s.regs, tbs := s.tbs, ticks := s.ticks }

theorem timeBack_foldl_tickTb (s : State) (l : List Nat) (t : State) : s.timeBack (l.foldl tickTb t) = s.timeBack t := by
  induction l generalizing t with
  | nil => rfl
  | cons m l ih => exact (ih _).trans ((tickTb_onlyRegs t m).same (f := s.timeBack) fun _ _ => rfl)

theorem foldl_tickTb_ticks (l : List Nat) (t : State) : (l.foldl tickTb t).ticks = t.ticks := by
  induction l generalizing t with
  | nil => rfl
  | cons m l ih => exact (ih _).trans ((tickTb_onlyRegs t m).same (f := State.ticks) fun _ _ => rfl)

theorem mem_timeBases {n : Nat} (h : n < 4) : n ∈ [0, 1, 2, 3] := by
  simp only [List.mem_cons, List.not_mem_nil, or_false]
  omega

/-- The state after a tick with PLL_TS locked. -/
def ticked (s : State) : State := [0, 1, 2, 3].foldl tickTb { s with ticks := s.ticks + 1 }

theorem ticked_ticks (s : State) : s.ticked.ticks = s.ticks + 1 := foldl_tickTb_ticks _ _

theorem timeBack_ticked (s : State) : s.timeBack s.ticked = s := timeBack_foldl_tickTb s _ _

theorem ticked_tbTicked {s : State} {n : Nat} (h : s.tbs.length = 4) (hn : n < 4) :
    ({ s with ticks := s.ticks + 1 } : State).TbTicked s.ticked n :=
  foldl_tickTb_ticked (by decide) (mem_timeBases hn) (h ▸ hn)

end State

end Sys2Proof.Machine
end

section
/-! PROOFS. A time base advances by its increment at a tick and is written by firmware (R255 to R261): O37. -/

namespace Sys2Proof.Machine

/-! ## Steps (R259) -/

section
variable {s : State} {n : Nat}

theorem State.stepAt_taken (hs : (s.tb n).step = true) (hns : s.fld (TIM_TB_STEP_NS_NS n) < 1000000000) :
    s.stepAt n = some (s.fld64 (TIM_TB_STEP_SEC_LO_SEC n) (TIM_TB_STEP_SEC_HI_SEC n), s.fld (TIM_TB_STEP_NS_NS n)) :=
  if_pos ⟨hs, hns⟩

theorem State.stepAt_refused (hns : 1000000000 ≤ s.fld (TIM_TB_STEP_NS_NS n)) : s.stepAt n = none :=
  if_neg fun h => Nat.not_lt.mpr hns h.2

theorem State.stepAt_unasked (hs : (s.tb n).step = false) : s.stepAt n = none :=
  if_neg fun h => Bool.eq_false_iff.mp hs h.1

end

theorem State.tbRuns_iff {s : State} {n : Nat} : s.tbRuns n = true ↔ n = 0 ∨ s.flag (TIM_TB_CTL_EN n) = true := by
  simp [State.tbRuns]

theorem State.tbRuns_eq_false {s : State} {n : Nat} (hn : n ≠ 0) (he : s.flag (TIM_TB_CTL_EN n) = false) :
    s.tbRuns n = false := by
  simp [State.tbRuns, hn, he]

/-! ## The value and increment after a tick (R256 to R258) -/

section
variable {t : TimeBase} (k : Nat)

theorem TimeBase.tick_running :
    (t.tick true none k).now.units =
      (t.now.units + (t.incNs * 2 ^ 32 + t.incFrac)) % (2 ^ 48 * 1000000000 * 2 ^ 32) := TbTime.units_plus _ _

theorem TimeBase.tick_commits {p : Nat × Nat} (h : t.commitInc = some p) (run : Bool) (st : Option (Nat × Nat)) :
    (t.tick run st k).incNs = p.1 ∧ (t.tick run st k).incFrac = p.2 := by
  simp only [TimeBase.tick, h, Option.getD_some, and_self]

theorem TimeBase.tick_keepsInc (h : t.commitInc = none) (run : Bool) (st : Option (Nat × Nat)) :
    (t.tick run st k).incNs = t.incNs ∧ (t.tick run st k).incFrac = t.incFrac := by
  simp only [TimeBase.tick, h, Option.getD_none, and_self]

end

theorem exec_timeBaseTick_unlocked {s : State} (h : s.flag CLK_STATUS_PLL_TS = false) : exec .timeBaseTick s = .next s :=
  congrArg Host.Outcome.next (if_neg (Bool.eq_false_iff.mp h))

theorem exec_timeBaseTick_locked {s : State} (h : s.flag CLK_STATUS_PLL_TS = true) : exec .timeBaseTick s = .next s.ticked :=
  congrArg Host.Outcome.next (if_pos h)

/-! ## Firmware's writes of a time base (R258, R259, R261) -/

section
variable {s : State} {r : Requester} {n : Nat}

theorem exec_incNsWrite (hn : n < 4) (h : s.reaches r (rTIM_TB_INC_NS n)) (v : Nat) :
    exec (.incNsWrite r n v) s = .next (s.writeIncNs n v) :=
  congrArg Host.Outcome.next ((if_pos hn).trans (State.gated_reaches h _))

theorem exec_tbStep (hn : n < 4) (h : s.reaches r (rTIM_TB_CTL n)) : exec (.tbStep r n) s = .next (s.writeStep n) :=
  congrArg Host.Outcome.next ((if_pos hn).trans (State.gated_reaches h _))

theorem exec_timSnap (mask : Nat) (h : s.reaches r rTIM_SNAP) : exec (.timSnap r mask) s = .next (s.writeSnap mask) :=
  congrArg Host.Outcome.next (State.gated_reaches h _)

theorem State.writeIncNs_inRange {v : Nat} (h : incInRange (v % 256) (s.fld (TIM_TB_INC_FRAC_FRAC n)) = true) :
    s.writeIncNs n v = s.setTb n { s.tb n with commitInc := some (v % 256, s.fld (TIM_TB_INC_FRAC_FRAC n)) } :=
  if_pos (of_decide_eq_true h)

theorem State.writeIncNs_outOfRange {v : Nat} (h : incInRange (v % 256) (s.fld (TIM_TB_INC_FRAC_FRAC n)) = false) :
    s.writeIncNs n v = (s.put (TIM_TB_CTL_INC_ERR n) 1).setFlag TIM_EVT_INC_ERR :=
  if_neg (of_decide_eq_false h)

theorem State.incRefused_shows (s : State) (hn : n < 4) :
    ((s.put (TIM_TB_CTL_INC_ERR n) 1).setFlag TIM_EVT_INC_ERR).flag (TIM_TB_CTL_INC_ERR n) = true ∧
    ((s.put (TIM_TB_CTL_INC_ERR n) 1).setFlag TIM_EVT_INC_ERR).flag TIM_EVT_INC_ERR = true ∧
    s.OnlyRegs ((s.put (TIM_TB_CTL_INC_ERR n) 1).setFlag TIM_EVT_INC_ERR) [rTIM_TB_CTL n, rTIM_EVT] := by
  have hother : (TIM_TB_CTL_INC_ERR n).addr ≠ TIM_EVT_INC_ERR.addr := by
    simp only [TIM_TB_CTL_INC_ERR, rTIM_TB_CTL, TIM_EVT_INC_ERR, rTIM_EVT]
    omega
  rw [setFlag_eq, flag_put_addr _ _ hother, flag_put_self _ _ _ (by simp [TIM_TB_CTL_INC_ERR]), flag_put_self _ _ _ (by decide)]
  exact ⟨rfl, rfl, ((OnlyRegs.refl s _).put (f := TIM_TB_CTL_INC_ERR n) _ (by simp [TIM_TB_CTL_INC_ERR])).put _
    (by simp [TIM_EVT_INC_ERR])⟩

theorem State.writeStep_accepted (hu : s.flag (TIM_TB_CTL_STEP_USED n) = false) (hs : s.inState .startUp = true)
    (hns : s.fld (TIM_TB_STEP_NS_NS n) < 1000000000) (hc : n ≠ 0 ∨ s.fld CHT_STATUS_SHADOW ≠ 5) :
    s.writeStep n = s.setTb n { s.tb n with step := true } := by
  refine if_neg fun h => ?_
  rcases h with h | h | h | ⟨h0, h5⟩
  · exact Bool.eq_false_iff.mp hu h
  · exact Bool.eq_false_iff.mp h hs
  · exact Nat.not_lt.mpr h hns
  · exact hc.elim (· h0) (· h5)

theorem State.writeStep_refused (h : s.flag (TIM_TB_CTL_STEP_USED n) = true ∨ s.inState .startUp = false ∨
    1000000000 ≤ s.fld (TIM_TB_STEP_NS_NS n) ∨ (n = 0 ∧ s.fld CHT_STATUS_SHADOW = 5)) :
    s.writeStep n = s.put (TIM_TB_CTL_STEP_REFUSED n) 1 := if_pos h

end

namespace State

/-- A snapshot asked of time base `m`, if the mask names it. -/
def askSnap (mask : Nat) (s : State) (m : Nat) : State :=
  if bitOf mask m then s.setTb m { s.tb m with snap := true } else s

theorem askSnap_frame (mask : Nat) (s t : State) (m : Nat) :
    ({ t.askSnap mask m with tbs := s.tbs } : State) = { t with tbs := s.tbs } := by
  unfold askSnap
  split <;> rfl

theorem askSnap_count (mask : Nat) (t : State) (m : Nat) : (t.askSnap mask m).tbs.length = t.tbs.length := by
  unfold askSnap
  split
  · exact List.length_set
  · rfl

theorem tb_askSnap_self {s : State} {n : Nat} (h : n < s.tbs.length) (mask : Nat) :
    (s.askSnap mask n).tb n = { s.tb n with snap := (s.tb n).snap || bitOf mask n } := by
  unfold askSnap
  split
  · next hb => rw [tb_setTb_self h, hb, Bool.or_true]
  · next hb => rw [Bool.eq_false_iff.mpr hb, Bool.or_false]

theorem tb_askSnap_ne (s : State) {n m : Nat} (h : n ≠ m) (mask : Nat) : (s.askSnap mask m).tb n = s.tb n := by
  unfold askSnap
  split
  · exact tb_setTb_ne s h _
  · rfl

/-- Of the time bases listed, those of the mask are asked; being asked twice is as being asked once. -/
theorem tb_foldl_askSnap {s : State} {n : Nat} (h : n < s.tbs.length) (mask : Nat) (l : List Nat) :
    (l.foldl (askSnap mask) s).tb n = { s.tb n with snap := (s.tb n).snap || (decide (n ∈ l) && bitOf mask n) } := by
  induction l generalizing s with
  | nil => simp
  | cons m l ih =>
    rw [List.foldl_cons, ih ((askSnap_count mask s m).symm ▸ h)]
    by_cases hm : n = m
    · subst hm
      rw [tb_askSnap_self h]
      cases bitOf mask n <;> simp
    · rw [tb_askSnap_ne s hm]
      simp [hm]

theorem foldl_askSnap_frame (mask : Nat) (s : State) (l : List Nat) (t : State) :
    ({ l.foldl (askSnap mask) t with tbs := s.tbs } : State) = { t with tbs := s.tbs } := by
  induction l generalizing t with
  | nil => rfl
  | cons m l ih => exact (ih _).trans (askSnap_frame mask s t m)

theorem tb_writeSnap {s : State} {n : Nat} (hl : s.tbs.length = 4) (hn : n < 4) (mask : Nat) :
    (s.writeSnap mask).tb n = { s.tb n with snap := (s.tb n).snap || bitOf mask n } := by
  have h := tb_foldl_askSnap (hl.symm ▸ hn) mask [0, 1, 2, 3]
  rwa [decide_eq_true (mem_timeBases hn), Bool.true_and] at h

theorem writeSnap_frame (s : State) (mask : Nat) : ({ s.writeSnap mask with tbs := s.tbs } : State) = s :=
  foldl_askSnap_frame mask s [0, 1, 2, 3] s

end State

/-- Settles O37: the tick by what `TbTicked` says of each time base, and each write by the state that it meets. -/
theorem timeBasesTickAndAreWritten : Obligations.TimeBasesTickAndAreWritten := by
  refine ⟨fun s n hinv hn => ⟨exec_timeBaseTick_unlocked, fun hlock => ⟨_, exec_timeBaseTick_locked hlock, s.ticked_ticks,
      s.timeBack_ticked, ?_⟩⟩, fun s r n v mask hl hn => ⟨fun h => ⟨fun hin => ?_, fun hout => ?_⟩,
      fun h => ⟨fun hu hs hns hc => ?_, fun hbad => ?_⟩, fun h => ⟨_, exec_timSnap mask h, ?_⟩⟩⟩
  · obtain ⟨htb, hinc, hused, hrefused, hsnap⟩ := State.ticked_tbTicked hinv.tbCount hn
    have hnext : s.ticked.tb n = (s.tb n).tick (s.tbRuns n) (s.stepAt n) (s.ticks + 1) := htb
    obtain ⟨hsec, hns⟩ := TimeBase.now_lt (TimeBase.tick_ok (s.tbRuns n) (s.ticks + 1) (State.tb_ok hinv n) (s.stepAt_form n))
    refine ⟨fun hst hrun => ?_, fun hst hn0 hen => ?_, fun hst hlt => ⟨?_, ?_⟩, fun hst hge => ⟨?_, ?_⟩,
      State.stepAt_unasked, fun ns frac hc => ?_, fun hc => ?_, fun hsn => ?_, ?_⟩
    · rw [hnext, hst, State.tbRuns_iff.mpr hrun]
      exact TimeBase.tick_running _
    · rw [hnext, hst, State.tbRuns_eq_false hn0 hen]
      rfl
    · exact hused (congrArg Option.isSome (State.stepAt_taken hst hlt))
    · rw [hnext, State.stepAt_taken hst hlt]
      rfl
    · exact hrefused (congrArg Option.isSome (State.stepAt_refused hge)) hst
    · exact State.stepAt_refused hge
    · obtain ⟨hincNs, hincFrac⟩ := TimeBase.tick_commits (s.ticks + 1) hc (s.tbRuns n) (s.stepAt n)
      rw [hnext]
      exact ⟨hincNs, hincFrac, (hinc _ hc).trans (congrArg (· % 256) hincNs)⟩
    · rw [hnext]
      exact TimeBase.tick_keepsInc _ hc _ _
    · rw [hnext]
      exact hsnap hsn hsec hns
    · rw [hnext]
      exact ⟨rfl, rfl, rfl⟩
  · rw [exec_incNsWrite hn h, State.writeIncNs_inRange hin]
  · rw [exec_incNsWrite hn h, State.writeIncNs_outOfRange hout]
    exact ⟨_, rfl, s.incRefused_shows hn⟩
  · rw [exec_tbStep hn h, State.writeStep_accepted hu hs hns hc]
    have hself := State.tb_setTb_self (hl.symm ▸ hn) { s.tb n with step := true }
    exact ⟨_, rfl, congrArg TimeBase.step hself, (congrArg TimeBase.now hself :), fun m hm => s.tb_setTb_ne hm _, rfl⟩
  · rw [exec_tbStep hn h, State.writeStep_refused hbad]
    exact ⟨_, rfl, State.flag_put_self _ _ _ (by simp [TIM_TB_CTL_STEP_REFUSED]),
      (State.OnlyRegs.refl s _).put _ List.mem_cons_self⟩
  · have hself := State.tb_writeSnap hl hn mask
    exact ⟨congrArg TimeBase.snap hself, (congrArg TimeBase.now hself :), s.writeSnap_frame mask⟩

end Sys2Proof.Machine
end

section
/-! PROOFS. A job that waits with a stream number past 4095, and what its downbeat does to CAR_STATUS: O39. -/

namespace Sys2Proof.Machine

/-! ## A counterexample to the clause on CANCEL in the clock of the downbeat (R291, R299) -/

/-- A stream of number 0xF000. No declaration gives it, since `parseDecl` keeps the 12 bits of a stream number, but a state may hold it;
the BURST register of its snare in Plane A, 0xB10004 + 0x10 * 0xF000, is then CAR_STATUS at 0xC00004. -/
def strayStream : StreamRec := ⟨0xF000, 0, 0, 0, 0, 0, 0, 0, 0, 0, 0, 0, [], ownerFW, []⟩

/-- A job of firmware that is DONE, admits the stream, and has its downbeat at 0. -/
def strayJob : JobDone :=
  ⟨⟨.firmware, [], false, none, false⟩, ⟨[(0, strayStream)], [], [], 0⟩, [(0, ownerFW, 0, 0, false)], [], 0⟩

/-- A powered device out of reset in which that job waits; CAR_STATUS.JOB shows 4. -/
def strayState : State :=
  (({ State.reset with
      pwr := { PwrSt.reset with inReset := false }
      car := { Car.reset with waiting := some strayJob } } : State).put PWR_DOM_STAT_ON 0xFFF).put CAR_STATUS_JOB 4

theorem strayState_reaches : strayState.reaches .mc rCAR_CTL := by
  unfold State.reaches
  decide +kernel

/-- The downbeat loads BURST of the stream's snare with 0 bytes (R280), so CAR_STATUS.JOB no longer shows a job to follow. -/
theorem carCancel_strayState : (strayState.carCancel true).fld CAR_STATUS_JOB = 0 := by decide +kernel

/-- A CANCEL that reaches CAR_CTL while RESULT does not show a command accepted. -/
theorem exec_carCancel {s : State} (hr : s.reaches .mc rCAR_CTL) (hn : s.fld CAR_CTL_RESULT ≠ 1) (late : Bool) :
    exec (.carCancel .mc late) s = .next (s.carCancel late) :=
  congrArg Host.Outcome.next ((State.mcOnly_mc hr CAR_CTL_RESULT crNOTOWNER fun s => s.writeCarCtl 4 0 false late).trans
    (if_neg hn))

/-- Refutes O39: in a state whose waiting job admits stream 0xF000, a CANCEL in the clock of the downbeat leaves CAR_STATUS.JOB 0
where the statement has 5. Numbers of 12 bits name no such snare. -/
theorem not_carillonCommandsAndJobs : ¬ Obligations.CarillonCommandsAndJobs := by
  unfold Obligations.CarillonCommandsAndJobs
  intro ⟨hcommands, _⟩
  have hidle : strayState.fld CAR_CTL_RESULT ≠ 1 := by decide +kernel
  obtain ⟨-, -, -, -, -, -, -, hcancel, -⟩ := hcommands strayState true false 0 strayState_reaches hidle
  obtain ⟨-, hwaiting⟩ := hcancel (by decide +kernel) (by decide +kernel)
  obtain ⟨-, hlate⟩ := hwaiting strayJob rfl rfl rfl rfl
  obtain ⟨t, hexec, -, -, -, hjob⟩ := hlate rfl (by decide +kernel)
  have ht : t = strayState.carCancel true := by
    rw [exec_carCancel strayState_reaches hidle] at hexec
    exact (Host.Outcome.next.inj hexec).symm
  rw [ht, carCancel_strayState] at hjob
  exact absurd hjob (by decide)

end Sys2Proof.Machine
end

section
/-! SUPPORT. A tenant's record read and written, and its commands begun and ended (R494). -/

namespace Sys2Proof.Machine

open Sys2Proof

/-! ## A tenant's command ends -/

/-- A command in flight ends: it goes behind the others with its status. -/
theorem Tenant.endCmd_of_mem {x : Tenant} {c : TenCmd} (h : c ∈ x.cmds) (status : Nat) (data : List Byte) :
    x.endCmd (fun y => y == c) status data = { x with cmds := x.cmds.erase c ++ [{ c with st := .ended status data }] } := by
  have hfind : x.cmds.find? (fun y => y == c) = some c := by
    obtain ⟨d, hd⟩ := Option.isSome_iff_exists.mp (List.find?_isSome (p := fun y => y == c).mpr ⟨c, h, beq_self_eq_true c⟩)
    rw [hd, beq_iff_eq.mp (List.find?_some (p := fun y => y == c) hd)]
  simp only [endCmd, hfind]

/-- The target of an ABORT is in flight and is no ABORT itself (R497). -/
theorem Tenant.target_spec {x : Tenant} {id : Nat} {d : TenCmd} (h : x.target id = some d) :
    d ∈ x.cmds ∧ byteAt d.entry 0 ≠ 9 := by
  unfold target at h
  split at h
  · next e he =>
    cases h
    have := List.find?_some he
    simp only [Bool.and_eq_true, bne_iff_ne] at this
    exact ⟨List.mem_of_find?_eq_some he, this.1.2⟩
  · have := List.find?_some h
    simp only [Bool.and_eq_true, bne_iff_ne] at this
    exact ⟨List.mem_of_find?_eq_some h, this.2⟩

namespace State

@[simp] theorem ten_setTen_self (s : State) (tn : Nat) (x : Tenant) : (s.setTen tn x).ten tn = x :=
  tabGet_tabSet_self _ _ _ _

theorem ten_setTen_ne (s : State) {tn n : Nat} (x : Tenant) (h : n ≠ tn) : (s.setTen tn x).ten n = s.ten n :=
  tabGet_tabSet_ne _ _ _ h

theorem ten_congr {s t : State} (h : t.tenants = s.tenants) (tn : Nat) : t.ten tn = s.ten tn := by
  unfold ten
  rw [h]

theorem fld_congr {s t : State} (h : t.regs = s.regs) (f : Fld) : t.fld f = s.fld f := by
  unfold fld reg
  rw [h]

theorem ten_tenEnd {s : State} {tn : Nat} {c : TenCmd} (h : c ∈ (s.ten tn).cmds) (status : Nat) (data : List Byte) :
    (s.tenEnd tn c status data).ten tn =
      { s.ten tn with cmds := (s.ten tn).cmds.erase c ++ [{ c with st := .ended status data }] } := by
  rw [tenEnd, ten_setTen_self, Tenant.endCmd_of_mem h]

theorem setTen_frame (s : State) (tn : Nat) (x : Tenant) : { s.setTen tn x with tenants := s.tenants } = s := rfl

/-- Two changes one after another that touch nothing but the tenants. -/
theorem tenants_frame_trans {s t u : State} (h : { t with tenants := s.tenants } = s) (k : { u with tenants := t.tenants } = t) :
    { u with tenants := s.tenants } = s := (congrArg (fun x : State => { x with tenants := s.tenants }) k).trans h

/-- The end of a command touches nothing but the tenants. -/
theorem tenEnd_frame (s : State) (tn : Nat) (c : TenCmd) (status : Nat) (data : List Byte) :
    { s.tenEnd tn c status data with tenants := s.tenants } = s := rfl

/-- A command ends after work that left the commands of its tenant. -/
theorem tenEnds_after {s t : State} {tn : Nat} {c : TenCmd} (ht : (t.ten tn).cmds = (s.ten tn).cmds)
    (h : c ∈ (s.ten tn).cmds) (status : Nat) (data : List Byte) : s.TenEnds (t.tenEnd tn c status data) tn c status data := by
  unfold TenEnds
  rw [ten_tenEnd (ht ▸ h), ht]

/-- A command that only ends. -/
theorem tenEnd_only {s : State} {tn : Nat} {c : TenCmd} (h : c ∈ (s.ten tn).cmds) (status : Nat) (data : List Byte) :
    s.TenEnds (s.tenEnd tn c status data) tn c status data ∧ { s.tenEnd tn c status data with tenants := s.tenants } = s :=
  ⟨tenEnds_after rfl h status data, s.tenEnd_frame tn c status data⟩

/-! ## A tenant's command begins -/

/-- Nothing waits, or the tenant is out of service. -/
theorem tenRun_idle {s : State} {tn op : Nat}
    (h : s.tenLive tn = false ∨ (s.ten tn).cmds.find? (TenCmd.waits op) = none) (act : State → TenCmd → State) :
    s.tenRun tn op act = s := by
  unfold tenRun
  rcases h with h | h
  · exact if_pos h
  · rw [h]
    exact ite_self s

/-- The tenant is in service, and `c` is its oldest fetched command of an opcode. -/
structure RunsCmd (s : State) (tn op : Nat) (c : TenCmd) : Prop where
  live : s.tenLive tn = true
  first : (s.ten tn).cmds.find? (TenCmd.waits op) = some c

namespace RunsCmd

variable {s : State} {tn op : Nat} {c : TenCmd} (h : s.RunsCmd tn op c)
include h

theorem tenRun_eq (act : State → TenCmd → State) : s.tenRun tn op act = act s c := by
  unfold tenRun
  rw [h.live, h.first]
  rfl

theorem mem : c ∈ (s.ten tn).cmds := List.mem_of_find?_eq_some h.first

theorem waits : c.st = .fetched ∧ byteAt c.entry 0 = op := by
  have := List.find?_some h.first
  simpa [TenCmd.waits] using this

end RunsCmd

end State

/-- What each of these commands of a tenant is: its work on the oldest fetched entry of its opcode, or nothing while its unit is
busy. -/
theorem exec_tenantCommand (s : State) {tn : Nat} {late : Bool} {x : Instr × Nat}
    (hx : x ∈ [(Instr.tenStreamDeclare tn, 2), (.tenStreamWithdraw tn, 3), (.tenCipher tn, 5), (.tenCapture tn, 6), (.tenStats tn, 7),
      (.tenNmReq tn, 8), (.tenAbort tn late, 9), (.tenKeepalive tn, 10), (.tenTable tn, 1), (.tenKey tn, 4)]) :
    exec x.1 s = .next s ∨ ∃ act, exec x.1 s = .next (s.tenRun tn x.2 act) := by
  have unlessBusy {i : Instr} {op : Nat} {busy : Bool} {act : State → TenCmd → State}
      (h : exec i s = .next (if busy then s else s.tenRun tn op act)) :
      exec i s = .next s ∨ ∃ act, exec i s = .next (s.tenRun tn op act) := by
    cases busy
    · exact .inr ⟨act, h⟩
    · exact .inl h
  simp only [List.mem_cons, List.not_mem_nil, or_false] at hx
  rcases hx with rfl | rfl | rfl | rfl | rfl | rfl | rfl | rfl | rfl | rfl
  case inr.inr.inr.inr.inr.inr.inr.inr.inl => exact unlessBusy rfl
  case inr.inr.inr.inr.inr.inr.inr.inr.inr => exact unlessBusy rfl
  all_goals exact .inr ⟨_, rfl⟩

end Sys2Proof.Machine
end

section
/-! PROOFS. The commands of a tenant that need no other unit, or one that is ready (R494 to R497). -/

namespace Sys2Proof.Machine

open Sys2Proof

namespace State

variable {s : State} {tn : Nat} {c : TenCmd}

/-! ## KEEPALIVE (R487) -/

theorem exec_keepalive (h : s.RunsCmd tn 10 c) : ∃ t, exec (.tenKeepalive tn) s = .next t ∧
    t.ten tn = { s.ten tn with
      live := s.clk
      cmds := (s.ten tn).cmds.erase c ++ [{ c with st := .ended 0 [] }] } ∧ { t with tenants := s.tenants } = s := by
  refine ⟨(s.tenTouch tn).tenEnd tn c 0 [], congrArg Host.Outcome.next (h.tenRun_eq _), ?_,
    tenants_frame_trans (s.setTen_frame tn _) (tenEnd_frame _ tn c 0 [])⟩
  have htouch : (s.tenTouch tn).ten tn = { s.ten tn with live := s.clk } := ten_setTen_self _ _ _
  rw [ten_tenEnd (htouch ▸ h.mem), htouch]

/-! ## STREAM_DECLARE and STREAM_WITHDRAW (R294, R495) -/

theorem tenJob_full (h : s.carFull = true) (i : JobItem) : s.tenJob tn c i = s := if_pos h

/-- The registers that show Carillon's queue, its peals and its downbeat. -/
def carShown : List Nat := [rCAR_STATUS, rCAR_PEAL, rCAR_SHD_PEAL, rCAR_DOWNBEAT_LO, rCAR_DOWNBEAT_HI]

/-- Carillon changed is shown in its own registers only. -/
theorem putCar_onlyRegs (s : State) (x : Car) : ({ s with car := x } : State).OnlyRegs (s.putCar x) carShown := by
  have put {t : State} (h : ({ s with car := x } : State).OnlyRegs t carShown) (f : Fld) (hf : f.addr ∈ carShown) (v : Nat) :
      ({ s with car := x } : State).OnlyRegs (t.put f v) carShown := h.put v hf
  have hstatus := put (put (put (OnlyRegs.refl _ _) CAR_STATUS_QUEUED (by decide) x.queue.length) CAR_STATUS_BATCH (by decide)
    x.batch.length) CAR_STATUS_HELD (by decide) (bitN x.held)
  have hpeal := put (put hstatus CAR_PEAL_PEAL_NS (by decide) x.sched.peal) CAR_SHD_PEAL_PEAL_NS (by decide)
    ((x.ahead.map (fun d => d.sched.peal)).getD 0)
  exact put (put hpeal CAR_DOWNBEAT_LO_TIME (by decide) _) CAR_DOWNBEAT_HI_TIME (by decide) _

theorem putCar_car (s : State) (x : Car) : (s.putCar x).car = x := (s.putCar_onlyRegs x).same (f := State.car) fun _ _ => rfl

theorem putCar_tenants (s : State) (x : Car) : (s.putCar x).tenants = s.tenants :=
  (s.putCar_onlyRegs x).same (f := State.tenants) fun _ _ => rfl

theorem putCar_regsBut (s : State) (x : Car) : s.RegsBut (s.putCar x) carShown :=
  (RegsBut.of_regs _ rfl).trans (s.putCar_onlyRegs x).regs

theorem fld_putCar_queued (s : State) (x : Car) :
    (s.putCar x).fld CAR_STATUS_QUEUED = x.queue.length % 2 ^ CAR_STATUS_QUEUED.wid := by
  simp only [putCar, put64_eq]
  iterate 6 rw [fld_put_apart _ _ (by decide) (by simp only [apart]; decide)]
  exact fld_put_self _ _ _ (by decide)

/-- The tenant's record with a command of it in Carillon's hands. -/
def tenInCarillon (s : State) (tn : Nat) (c : TenCmd) : State :=
  s.setTen tn { s.ten tn with cmds := (s.ten tn).cmds.map (fun y => if y = c then { y with st := .inCarillon } else y) }

/-- Carillon with one more job in its queue. -/
def carQueued (s : State) (j : Job) : Car := { s.car with queue := s.car.queue ++ [j] }

/-- A stream command becomes the last job of the queue. -/
theorem tenJob_submits (h : s.carFull = false) (i : JobItem) :
    (s.tenJob tn c i).car.queue = s.car.queue ++ [⟨.tenant tn c.id, [i], false, none, false⟩] ∧
    { (s.tenJob tn c i).car with queue := s.car.queue } = s.car ∧
    ((s.tenJob tn c i).ten tn).cmds = (s.ten tn).cmds.map (fun y => if y = c then { y with st := .inCarillon } else y) ∧
    (s.tenJob tn c i).fld CAR_STATUS_QUEUED = (s.car.queue.length + 1) % 2 ^ CAR_STATUS_QUEUED.wid ∧
    s.RegsBut (s.tenJob tn c i) carShown ∧
    { s.tenJob tn c i with regs := s.regs, tenants := s.tenants, car := s.car } = s := by
  have hjob : s.tenJob tn c i = (s.tenInCarillon tn c).putCar (s.carQueued ⟨.tenant tn c.id, [i], false, none, false⟩) :=
    if_neg (by simp [h])
  have hten : s.RegsBut (s.tenInCarillon tn c) carShown := RegsBut.of_regs _ rfl
  rw [hjob, putCar_car]
  refine ⟨rfl, rfl, ?_, ?_, ?_, ?_⟩
  · rw [ten_congr (putCar_tenants _ _), tenInCarillon, ten_setTen_self]
  · rw [fld_putCar_queued, carQueued, List.length_append, List.length_singleton]
  · exact hten.trans (putCar_regsBut _ _)
  · exact (putCar_onlyRegs _ _).same (f := fun x => { x with regs := s.regs, tenants := s.tenants, car := s.car }) fun _ _ => rfl

/-! ## CIPHER (R445) -/

/-- Operations that all hold a place have no result to deliver. -/
theorem deliverOps_held {ops : List CphOp} (h : ∀ o ∈ ops, o.held = true) (blocked : List Nat) (s : State) :
    deliverOps ops blocked s = (s, ops) := by
  induction ops generalizing blocked with
  | nil => rfl
  | cons o ops ih =>
    have hrest := ih (fun p hp => h p (List.mem_cons_of_mem _ hp)) (o.domain :: blocked)
    have ho : o.held = true := h o List.mem_cons_self
    unfold deliverOps
    unfold CphOp.held at ho
    cases hst : o.st with
    | ended st full => simp [hst] at ho
    | queued => simp only [hrest]
    | running r => simp only [hrest]

theorem exec_cipher_refused (h : s.RunsCmd tn 5 c) (hfull : s.fld (TNW_REQ3_CPH tn) ≤ s.tenCphHeld tn ∨ s.cphFull = true) :
    exec (.tenCipher tn) s = .next (s.tenEnd tn c 9 []) :=
  congrArg Host.Outcome.next ((h.tenRun_eq _).trans (if_pos hfull))

/-- The operation that a CIPHER command asks for. -/
def cipherOp (s : State) (tn : Nat) (c : TenCmd) : CphOp := ⟨s.cph.nextId, 48 + tn, slice c.entry 8 32, .queued⟩

/-- The pool with that operation in it. -/
def cipherTaken (s : State) (tn : Nat) (c : TenCmd) : State :=
  { s with cph := { s.cph with ops := s.cph.ops ++ [s.cipherOp tn c], nextId := (s.cph.nextId + 1) % 65536 } }

/-- The command shown in progress. -/
def cipherBegun (s : State) (tn : Nat) (c : TenCmd) : State :=
  (s.cipherTaken tn c).setTen tn { s.ten tn with
    cmds := (s.ten tn).cmds.map (fun y => if y = c then { y with st := .inCipher s.cph.nextId } else y) }

theorem cphDeliver_held (h : ∀ o ∈ s.cph.ops, o.held = true) : s.cphDeliver = s := by
  unfold cphDeliver
  rw [deliverOps_held h]

theorem exec_cipher_taken (h : s.RunsCmd tn 5 c) (hroom : s.tenCphHeld tn < s.fld (TNW_REQ3_CPH tn)) (hfull : s.cphFull = false)
    (hopen : s.flag CPH_ALARM_REFUSING = false) (hheld : ∀ o ∈ s.cph.ops, o.held = true) :
    exec (.tenCipher tn) s = .next (s.cipherBegun tn c) := by
  have hsubmit : s.cphSubmit (48 + tn) (slice c.entry 8 32) = (s.cipherTaken tn c, s.cph.nextId) := by
    simp only [cphSubmit, hopen, Bool.false_eq_true, if_false]
    rfl
  have hops : ∀ o ∈ (s.cipherBegun tn c).cph.ops, o.held = true := fun o ho => by
    rcases List.mem_append.mp ho with ho | ho
    · exact hheld o ho
    · rw [List.mem_singleton.mp ho]
      rfl
  refine congrArg Host.Outcome.next ((h.tenRun_eq _).trans ((if_neg (by simp [hfull]; omega)).trans ?_))
  rw [hsubmit]
  exact cphDeliver_held hops

end State

end Sys2Proof.Machine
end

section
/-! SUPPORT. What a tenant's request on an NM cluster leaves: the tenants, and the request bits (R371, R496). -/

namespace Sys2Proof.Machine

open Sys2Proof

namespace State

/-! ## Changes that leave the tenants and the requests of a cluster -/

/-- The tenants and the registers of the tenants' requests on cluster `k` are as before. -/
structure KeepsRequests (k : Nat) (s t : State) : Prop where
  tenants : t.tenants = s.tenants
  lo : t.reg (rNMW_NC_TREQ_LO k) = s.reg (rNMW_NC_TREQ_LO k)
  hi : t.reg (rNMW_NC_TREQ_HI k) = s.reg (rNMW_NC_TREQ_HI k)

namespace KeepsRequests

variable {k : Nat} {s t u : State}

theorem refl (s : State) : KeepsRequests k s s := ⟨rfl, rfl, rfl⟩

theorem trans (h : KeepsRequests k s t) (g : KeepsRequests k t u) : KeepsRequests k s u :=
  ⟨g.tenants.trans h.tenants, g.lo.trans h.lo, g.hi.trans h.hi⟩

/-- A change beside the registers and the tenants. -/
theorem same (h : KeepsRequests k s t) (ht : u.tenants = t.tenants) (hr : u.regs = t.regs) : KeepsRequests k s u :=
  h.trans ⟨ht, RegsBut.of_regs [] hr _ List.not_mem_nil, RegsBut.of_regs [] hr _ List.not_mem_nil⟩

theorem put (h : KeepsRequests k s t) {f : Fld} (v : Nat) (hlo : rNMW_NC_TREQ_LO k ≠ f.addr) (hhi : rNMW_NC_TREQ_HI k ≠ f.addr) :
    KeepsRequests k s (t.put f v) := h.trans ⟨rfl, reg_put_ne t f v hlo, reg_put_ne t f v hhi⟩

theorem foldl {α : Type} {f : State → α → State} (hf : ∀ s a, KeepsRequests k s (f s a)) (as : List α) (s : State) :
    KeepsRequests k s (as.foldl f s) := by
  induction as generalizing s with
  | nil => exact refl s
  | cons a as ih => exact (hf s a).trans (ih (f s a))

theorem fld64 (h : KeepsRequests k s t) : t.fld64 (NMW_NC_TREQ_LO_TN k) (NMW_NC_TREQ_HI_TN k) =
    s.fld64 (NMW_NC_TREQ_LO_TN k) (NMW_NC_TREQ_HI_TN k) := by
  have hlo : t.fld (NMW_NC_TREQ_LO_TN k) = s.fld (NMW_NC_TREQ_LO_TN k) := congrArg (fun w : Word => bits w.toNat 0 32) h.lo
  have hhi : t.fld (NMW_NC_TREQ_HI_TN k) = s.fld (NMW_NC_TREQ_HI_TN k) := congrArg (fun w : Word => bits w.toNat 0 32) h.hi
  rw [State.fld64, State.fld64, hlo, hhi]

end KeepsRequests

/-! ## A cluster is requested -/

section
variable (s : State) {k : Nat}

/-- A register of the wake records, of a CAN transceiver, or of a cluster past its first 16 bytes. -/
theorem keepsRequests_put {f : Fld} (v : Nat) (h : f.addr = rNMW_NC_STATE k ∨ f.addr = rNMW_NC_EVT k ∨ f.addr = rNMW_NC_CANCEL_CNT k ∨
    (k < 16 ∧ 0x1701000 ≤ f.addr)) : KeepsRequests k s (s.put f v) := by
  refine (KeepsRequests.refl s).put v ?_ ?_ <;>
  · simp only [rNMW_NC_TREQ_LO, rNMW_NC_TREQ_HI, rNMW_NC_STATE, rNMW_NC_EVT, rNMW_NC_CANCEL_CNT] at h ⊢
    omega

theorem ncPut_keepsRequests (st : Nat) : KeepsRequests k s (s.ncPut k st) := by
  unfold ncPut
  split
  · exact .refl s
  · exact (keepsRequests_put s st (.inl rfl)).trans (keepsRequests_put _ 1 (.inr (.inl rfl)))

theorem repeatPort_keepsRequests (hk : k < 16) (src idx p : Nat) : KeepsRequests k s (s.repeatPort src idx p) := by
  unfold repeatPort
  split
  · exact (KeepsRequests.refl s).same rfl rfl
  split
  · exact keepsRequests_put s 0 (.inr (.inr (.inr ⟨hk, by simp only [NMW_CAN_SW_FEC, rNMW_CAN_SW]; omega⟩)))
  · exact (KeepsRequests.refl s).same rfl rfl

theorem enterRepeat_keepsRequests (hk : k < 16) (src idx : Nat) : KeepsRequests k s (s.enterRepeat k src idx) := by
  have hset (x : NmSt) : KeepsRequests k s ((s.ncPut k ncREPEAT).setNm k x) := (ncPut_keepsRequests s ncREPEAT).same rfl rfl
  unfold enterRepeat
  dsimp only
  exact (hset _).trans (.foldl (fun t p => repeatPort_keepsRequests t hk src idx p) _ _)

theorem wakeRecord_keepsRequests (hk : k < 16) (x : WakeRec) : KeepsRequests k s (s.wakeRecord x) := by
  have high (f : Fld) (hf : 0x1701000 ≤ f.addr) (t : State) (v : Nat) : KeepsRequests k t (t.put f v) :=
    keepsRequests_put t v (.inr (.inr (.inr ⟨hk, hf⟩)))
  have hqueue (l : List WakeRec) : KeepsRequests k s { s with wrec := l } := (KeepsRequests.refl s).same rfl rfl
  unfold wakeRecord
  split
  · exact (high NMW_WREC_STAT_OVF (by decide) _ _).trans (high NMW_EVT_WREC_OVF (by decide) _ _)
  · exact (hqueue _).trans (high NMW_EVT_WREC (by decide) _ _)

theorem nmWake_keepsRequests (hk : k < 16) (src idx pat : Nat) : KeepsRequests k s (s.nmWake k src idx pat) := by
  have hwake (t : State) : KeepsRequests k t ((t.setFlag (NMW_NC_EVT_WAKE k)).enterRepeat k src idx) :=
    (keepsRequests_put t 1 (.inr (.inl rfl))).trans (enterRepeat_keepsRequests _ hk src idx)
  have hpower (p : PwrSt) : KeepsRequests k s { s with pwr := p } := (KeepsRequests.refl s).same rfl rfl
  unfold nmWake
  extract_lets st ev _ slept _ recorded cancelled marked
  split
  · exact .refl s
  have hslept : KeepsRequests k s slept := by
    unfold slept
    split
    · exact .refl s
    · exact hpower _
  split
  · split
    · exact hslept
    · exact hslept.same rfl rfl
  split
  · exact hslept
  split
  · exact .refl s
  split
  · exact (wakeRecord_keepsRequests s hk _).trans (hwake _)
  split
  · exact (((wakeRecord_keepsRequests s hk _).trans (keepsRequests_put _ _ (.inr (.inr (.inl rfl))))).trans
      (keepsRequests_put _ 1 (.inr (.inl rfl)))).trans (hwake _)
  · exact .refl s

theorem nmRequest_keepsRequests (hk : k < 16) (idx : Nat) : KeepsRequests k s (s.nmRequest k idx) := by
  unfold nmRequest
  split
  · exact (KeepsRequests.refl s).same rfl rfl
  · exact nmWake_keepsRequests s hk 8 idx 0

theorem nmRelease_keepsRequests : KeepsRequests k s (s.nmRelease k) := by
  unfold nmRelease
  split
  · exact .refl s
  · exact (KeepsRequests.refl s).same rfl rfl

/-- The request bits of a cluster with that of one tenant changed. -/
def putRequest (k tn : Nat) (hold : Bool) : State :=
  s.put64 (NMW_NC_TREQ_LO_TN k) (NMW_NC_TREQ_HI_TN k)
    (setBits (s.fld64 (NMW_NC_TREQ_LO_TN k) (NMW_NC_TREQ_HI_TN k)) tn 1 (bitN hold))

theorem putRequest_onlyRegs (tn : Nat) (hold : Bool) :
    s.OnlyRegs (s.putRequest k tn hold) [rNMW_NC_TREQ_LO k, rNMW_NC_TREQ_HI k] :=
  ((OnlyRegs.refl s _).put (f := NMW_NC_TREQ_LO_TN k) _ (List.mem_cons_self)).put (f := NMW_NC_TREQ_HI_TN k) _
    (List.mem_cons_of_mem _ List.mem_cons_self)

/-- What follows from a tenant's request leaves its bit as it was written. -/
theorem nmTenant_keepsRequests (hk : k < 16) (tn : Nat) (hold : Bool) : KeepsRequests k (s.putRequest k tn hold) (s.nmTenant k tn hold) := by
  unfold nmTenant
  dsimp only
  split
  · split
    · exact .refl _
    · exact nmRequest_keepsRequests _ hk tn
  · split
    · exact nmRelease_keepsRequests _
    · exact .refl _

/-- A pair of registers read after it was written. -/
theorem fld64_put64_words (lo hi : Fld) (hne : lo.addr ≠ hi.addr) (hl : lo.lsb = 0 ∧ lo.wid = 32) (hh : hi.lsb = 0 ∧ hi.wid = 32)
    (v : Nat) : (s.put64 lo hi v).fld64 lo hi = v % 2 ^ 64 := by
  rw [put64_eq, fld64, fld_put_addr _ _ hne, fld_put_self _ _ _ (by omega), fld_put_self _ _ _ (by omega), hl.2, hh.2]
  omega

theorem bitOf_nmTenant (hk : k < 16) {tn : Nat} (htn : tn < 64) (hold : Bool) :
    bitOf ((s.nmTenant k tn hold).fld64 (NMW_NC_TREQ_LO_TN k) (NMW_NC_TREQ_HI_TN k)) tn = hold := by
  have hne : (NMW_NC_TREQ_LO_TN k).addr ≠ (NMW_NC_TREQ_HI_TN k).addr := by
    simp only [NMW_NC_TREQ_LO_TN, NMW_NC_TREQ_HI_TN, rNMW_NC_TREQ_LO, rNMW_NC_TREQ_HI]
    omega
  rw [(s.nmTenant_keepsRequests hk tn hold).fld64, putRequest, fld64_put64_words _ _ _ hne ⟨rfl, rfl⟩ ⟨rfl, rfl⟩, bitOf_mod htn,
    bitOf_setBits_one_self]
  cases hold <;> rfl

theorem nmTenant_tenants (hk : k < 16) (tn : Nat) (hold : Bool) : (s.nmTenant k tn hold).tenants = s.tenants :=
  (s.nmTenant_keepsRequests hk tn hold).tenants.trans
    ((s.putRequest_onlyRegs tn hold).same (f := State.tenants) fun _ _ => rfl)

end

end State

end Sys2Proof.Machine
end

section
/-! PROOFS. NM_REQ, STATS, CAPTURE and ABORT of a tenant (R494 to R497). -/

namespace Sys2Proof.Machine

open Sys2Proof

theorem length_flatMap_const {α β : Type} (f : α → List β) (n : Nat) (h : ∀ a, (f a).length = n) (l : List α) :
    (l.flatMap f).length = n * l.length := by
  induction l with
  | nil => rfl
  | cons a l ih => rw [List.flatMap_cons, List.length_append, h, ih, List.length_cons, Nat.mul_succ, Nat.add_comm]

/-- The tenant with its request on a cluster held or released. -/
def Tenant.asks (x : Tenant) (k : Nat) (hold : Bool) : Tenant :=
  { x with nm := if hold then x.nm.filter (fun i => decide (i ≠ k)) ++ [k] else x.nm.filter (fun i => decide (i ≠ k)) }

theorem Tenant.mem_asks (x : Tenant) (k : Nat) (hold : Bool) : k ∈ (x.asks k hold).nm ↔ hold = true := by
  cases hold <;> simp [asks]

/-- The tenant with its capture ring. -/
def Tenant.withRing (x : Tenant) (ring : Nat × Nat × Bool) : Tenant := { x with capRing := some ring }

namespace State

variable {s : State} {tn : Nat} {c : TenCmd}

/-! ## NM_REQ (R371, R496) -/

/-- A tenant's request on a cluster noted in its record and in the cluster. -/
def nmAsked (s : State) (tn k : Nat) (hold : Bool) : State := (s.setTen tn ((s.ten tn).asks k hold)).nmTenant k tn hold

theorem exec_nmReq_denied (h : s.RunsCmd tn 8 c) (hk : 16 ≤ c.opd 8 1 ∨ s.ncEnabled (c.opd 8 1) = false) :
    exec (.tenNmReq tn) s = .next (s.tenEnd tn c 2 []) :=
  congrArg Host.Outcome.next ((h.tenRun_eq _).trans (if_pos hk))

theorem exec_nmReq_taken (h : s.RunsCmd tn 8 c) {hold : Bool} (hk : c.opd 8 1 < 16) (he : s.ncEnabled (c.opd 8 1) = true)
    (hb : c.opd 9 1 = bitN hold) :
    exec (.tenNmReq tn) s = .next ((s.nmAsked tn (c.opd 8 1) hold).tenEnd tn c 0 []) := by
  have hle : ¬ 1 < bitN hold := by cases hold <;> decide
  have hhold : (bitN hold == 1) = hold := by cases hold <;> rfl
  refine congrArg Host.Outcome.next ((h.tenRun_eq _).trans ((if_neg (by simp [he]; omega)).trans ?_))
  rw [hb, hhold]
  exact if_neg hle

theorem ten_nmAsked {k : Nat} (hk : k < 16) (hold : Bool) : (s.nmAsked tn k hold).ten tn = (s.ten tn).asks k hold := by
  rw [nmAsked, ten_congr (nmTenant_tenants _ hk tn hold), ten_setTen_self]

theorem exec_nmReq (h : s.RunsCmd tn 8 c) (htn : tn < 64) {hold : Bool} (hk : c.opd 8 1 < 16)
    (he : s.ncEnabled (c.opd 8 1) = true) (hb : c.opd 9 1 = bitN hold) :
    ∃ t, exec (.tenNmReq tn) s = .next t ∧ s.TenEnds t tn c 0 [] ∧
      bitOf (t.fld64 (NMW_NC_TREQ_LO_TN (c.opd 8 1)) (NMW_NC_TREQ_HI_TN (c.opd 8 1))) tn = hold ∧
      (c.opd 8 1 ∈ (t.ten tn).nm ↔ hold = true) := by
  have hten := s.ten_nmAsked (tn := tn) hk hold
  have hcmds : ((s.nmAsked tn (c.opd 8 1) hold).ten tn).cmds = (s.ten tn).cmds := (congrArg Tenant.cmds hten).trans rfl
  refine ⟨_, exec_nmReq_taken h hk he hb, tenEnds_after hcmds h.mem 0 [], bitOf_nmTenant _ hk htn hold, ?_⟩
  rw [ten_tenEnd (hcmds ▸ h.mem), hten]
  exact Tenant.mem_asks _ _ _

/-! ## STATS (R496) -/

/-- The counter words of the HV ports of a tenant, in ascending order. -/
def statsWords (s : State) (tn : Nat) : List Nat := (List.range (s.tenHv tn).2).flatMap
  (fun i => (List.range 8).map (fun j => 0x1820000 + 0x20 * ((s.tenHv tn).1 + i) + 4 * j))

/-- Registers read as bytes, each in ascending order of its own. -/
def wordBytes (s : State) (as : List Nat) : List Byte := as.flatMap (fun a => leBytes 4 (s.reg a).toNat)

/-- Registers cleared. -/
def zeroAll (s : State) (as : List Nat) : State := as.foldl (fun s a => s.setReg a 0) s

theorem length_wordBytes_stats (s : State) (tn : Nat) : (s.wordBytes (s.statsWords tn)).length = 32 * (s.tenHv tn).2 := by
  rw [wordBytes, length_flatMap_const _ 4 (fun a => leBytes_length 4 _), statsWords,
    length_flatMap_const _ 8 (fun i => by rw [List.length_map, List.length_range]), List.length_range, ← Nat.mul_assoc]

theorem zeroAll_onlyRegs (s : State) (as : List Nat) : s.OnlyRegs (s.zeroAll as) as := by
  have sub (bs : List Nat) (t : State) (hs : ∀ a ∈ bs, a ∈ as) (h : s.OnlyRegs t as) : s.OnlyRegs (t.zeroAll bs) as := by
    induction bs generalizing t with
    | nil => exact h
    | cons b bs ih => exact ih _ (fun a ha => hs a (List.mem_cons_of_mem _ ha)) (h.setReg 0 (hs b List.mem_cons_self))
  exact sub as s (fun _ h => h) (OnlyRegs.refl s as)

theorem reg_zeroAll {as : List Nat} {a : Nat} (s : State) (h : a ∈ as ∨ s.reg a = 0) : (s.zeroAll as).reg a = 0 := by
  induction as generalizing s with
  | nil => exact h.resolve_left List.not_mem_nil
  | cons b as ih =>
    refine ih _ ?_
    by_cases hb : a = b
    · exact .inr (hb ▸ reg_setReg_self s b 0)
    · rcases h with h | h
      · exact .inl ((List.mem_cons.mp h).resolve_left hb)
      · exact .inr ((reg_setReg_ne s 0 hb).trans h)

/-- The counters written to the tenant's host, and cleared when the command asks for it. -/
def statsRead (s : State) (tn : Nat) (c : TenCmd) : State :=
  if bitOf (c.opd 16 1) 0 then (s.dmaWrite tn (c.opd 8 8) (s.wordBytes (s.statsWords tn))).zeroAll (s.statsWords tn)
  else s.dmaWrite tn (c.opd 8 8) (s.wordBytes (s.statsWords tn))

theorem statsRead_onlyRegs (s : State) (tn : Nat) (c : TenCmd) :
    (s.dmaWrite tn (c.opd 8 8) (s.wordBytes (s.statsWords tn))).OnlyRegs (s.statsRead tn c) (s.statsWords tn) := by
  unfold statsRead
  split
  · exact zeroAll_onlyRegs _ _
  · exact OnlyRegs.refl _ _

theorem dmaWrite_tenants (s : State) (tn a : Nat) (bs : List Byte) : (s.dmaWrite tn a bs).tenants = s.tenants := by
  unfold dmaWrite
  split <;> rfl

theorem dmaWrite_regs (s : State) (tn a : Nat) (bs : List Byte) : (s.dmaWrite tn a bs).regs = s.regs := by
  unfold dmaWrite
  split <;> rfl

theorem dmaWrite_link0 (h : bitOf (s.tenRec tn 2 1) 7 = false) (a : Nat) (bs : List Byte) :
    s.dmaWrite tn a bs = { s with host0 := memPut s.host0 a bs } := by
  unfold dmaWrite
  exact if_neg (by simp [h])

theorem dmaWrite_link1 (h : bitOf (s.tenRec tn 2 1) 7 = true) (a : Nat) (bs : List Byte) :
    s.dmaWrite tn a bs = { s with host1 := memPut s.host1 a bs } := by
  unfold dmaWrite
  exact if_pos h

theorem exec_stats_eq (h : s.RunsCmd tn 7 c) : exec (.tenStats tn) s =
    .next ((s.statsRead tn c).tenEnd tn c 0 ([0, 0, 0, 0] ++ leBytes 2 (32 * (s.tenHv tn).2))) := by
  rw [← s.length_wordBytes_stats tn]
  exact congrArg Host.Outcome.next (h.tenRun_eq _)

theorem exec_stats (h : s.RunsCmd tn 7 c) : ∃ t, exec (.tenStats tn) s = .next t ∧
    s.TenEnds t tn c 0 ([0, 0, 0, 0] ++ leBytes 2 (32 * (s.tenHv tn).2)) ∧
    (bitOf (s.tenRec tn 2 1) 7 = false → t.host1 = s.host1 ∧
      t.host0 = memPut s.host0 (c.opd 8 8) (s.wordBytes (s.statsWords tn))) ∧
    (bitOf (s.tenRec tn 2 1) 7 = true → t.host0 = s.host0 ∧
      t.host1 = memPut s.host1 (c.opd 8 8) (s.wordBytes (s.statsWords tn))) ∧
    (bitOf (c.opd 16 1) 0 = true → ∀ a ∈ s.statsWords tn, t.reg a = 0) ∧
    (bitOf (c.opd 16 1) 0 = false → t.regs = s.regs) ∧ s.RegsBut t (s.statsWords tn) := by
  have hread := s.statsRead_onlyRegs tn c
  have hten : ((s.statsRead tn c).ten tn) = s.ten tn :=
    ten_congr ((hread.same (f := State.tenants) fun _ _ => rfl).trans (dmaWrite_tenants ..)) tn
  have hhost0 : (s.statsRead tn c).host0 = _ := hread.same (f := State.host0) fun _ _ => rfl
  have hhost1 : (s.statsRead tn c).host1 = _ := hread.same (f := State.host1) fun _ _ => rfl
  have hregs : s.RegsBut (s.dmaWrite tn (c.opd 8 8) (s.wordBytes (s.statsWords tn))) (s.statsWords tn) :=
    RegsBut.of_regs _ (dmaWrite_regs ..)
  refine ⟨_, exec_stats_eq h, tenEnds_after (congrArg Tenant.cmds hten) h.mem _ _, fun hl => ?_, fun hl => ?_, fun hc a ha => ?_,
    fun hc => ?_, hregs.trans hread.regs⟩
  · rw [dmaWrite_link0 hl] at hhost0 hhost1
    exact ⟨hhost1, hhost0⟩
  · rw [dmaWrite_link1 hl] at hhost0 hhost1
    exact ⟨hhost0, hhost1⟩
  · have hclear : s.statsRead tn c = _ := if_pos hc
    exact (congrArg (fun t : State => t.reg a) hclear).trans (reg_zeroAll _ (.inl ha))
  · have hleft : s.statsRead tn c = _ := if_neg (by simp [hc])
    exact (congrArg State.regs hleft).trans (dmaWrite_regs ..)

/-! ## ABORT (R299, R497) -/

theorem exec_abort_none (h : s.RunsCmd tn 9 c) (late : Bool) (ht : (s.ten tn).target (c.opd 8 2) = none) :
    exec (.tenAbort tn late) s = .next (s.tenEnd tn c 7 []) := by
  refine congrArg Host.Outcome.next ((h.tenRun_eq _).trans ?_)
  rw [ht]

/-- An ABORT that finds its target: it is done, its downbeat wins, or it ends. -/
theorem exec_abort_target (h : s.RunsCmd tn 9 c) (late : Bool) {d : TenCmd} (ht : (s.ten tn).target (c.opd 8 2) = some d) :
    exec (.tenAbort tn late) s = .next (
      if d.done then s.tenEnd tn c 6 []
      else if late = true ∧ s.abortBeaten tn d then s.jobDownbeat.tenEnd tn c 6 []
      else (s.abortTarget tn d).tenEnd tn c 0 []) := by
  refine congrArg Host.Outcome.next ((h.tenRun_eq _).trans ?_)
  rw [ht]

section
variable (h : s.RunsCmd tn 9 c) {late : Bool} {d : TenCmd} (ht : (s.ten tn).target (c.opd 8 2) = some d)
include h ht

theorem exec_abort_done (hd : d.done = true) : exec (.tenAbort tn late) s = .next (s.tenEnd tn c 6 []) := by
  rw [exec_abort_target h late ht, if_pos hd]

theorem exec_abort_beaten (hd : d.done = false) (hl : late = true) (hb : s.abortBeaten tn d = true) :
    exec (.tenAbort tn late) s = .next (s.jobDownbeat.tenEnd tn c 6 []) := by
  rw [exec_abort_target h late ht, if_neg (by simp [hd]), if_pos ⟨hl, hb⟩]

theorem exec_abort_takes (hd : d.done = false) (hb : late = false ∨ s.abortBeaten tn d = false) :
    exec (.tenAbort tn late) s = .next ((s.abortTarget tn d).tenEnd tn c 0 []) := by
  rw [exec_abort_target h late ht, if_neg (by simp [hd]), if_neg]
  rintro ⟨hl, hw⟩
  rcases hb with hb | hb
  · simp [hl] at hb
  · simp [hw] at hb

theorem exec_abort_inCarillon (hst : d.st = .inCarillon) (hb : late = false ∨ s.abortBeaten tn d = false) :
    exec (.tenAbort tn late) s = .next ((s.carDrop (fun src => src == .tenant tn d.id)).tenEnd tn c 0 []) := by
  rw [exec_abort_takes h ht (by simp [TenCmd.done, hst]) hb]
  unfold abortTarget
  rw [hst]

/-- A target that has not begun ends ABORTED, and the ABORT behind it. -/
theorem exec_abort_fetched (hst : d.st = .fetched) (hb : late = false ∨ s.abortBeaten tn d = false) :
    ∃ t, exec (.tenAbort tn late) s = .next t ∧ { t with tenants := s.tenants } = s ∧
      (t.ten tn).cmds = ((s.ten tn).cmds.erase d ++ [{ d with st := .ended 5 [] }]).erase c ++ [{ c with st := .ended 0 [] }] := by
  obtain ⟨hmem, hop⟩ := Tenant.target_spec ht
  have htarget : s.abortTarget tn d = s.setTen tn { s.ten tn with
      cmds := (s.ten tn).cmds.erase d ++ [{ d with st := .ended 5 [] }] } := by
    rw [← Tenant.endCmd_of_mem hmem]
    unfold abortTarget abortCmd
    rw [hst]
  have hne : c ≠ d := fun e => hop (e ▸ h.waits.2)
  have hc : c ∈ (s.ten tn).cmds.erase d ++ [{ d with st := .ended 5 [] }] :=
    List.mem_append_left _ ((List.mem_erase_of_ne hne).mpr h.mem)
  refine ⟨_, exec_abort_takes h ht (by simp [TenCmd.done, hst]) hb, ?_, ?_⟩
  · rw [htarget]
    exact tenants_frame_trans (s.setTen_frame tn _) (tenEnd_frame _ tn c 0 [])
  · rw [htarget, ten_tenEnd (by rw [ten_setTen_self]; exact hc), ten_setTen_self]

end

/-! ## CAPTURE (R495) -/

theorem storeOne_onlyRegs (s : State) (mw own : Bool) (a v : Nat) : s.OnlyRegs (s.storeOne mw own a v) [a] := by
  unfold storeOne
  split
  · exact OnlyRegs.refl _ _
  · exact (OnlyRegs.refl _ _).setReg _ List.mem_cons_self

/-- What a stored register holds depends on nothing but what it held. -/
theorem reg_storeOne_congr {t : State} {a : Nat} (h : t.reg a = s.reg a) (mw own : Bool) (v : Nat) :
    (t.storeOne mw own a v).reg a = (s.storeOne mw own a v).reg a := by
  unfold storeOne
  split
  · exact h
  · rw [reg_setReg_self, reg_setReg_self, h]

/-- The ring that a CAPTURE command gives: address, size, RING mode. -/
def capAsked (c : TenCmd) : Nat × Nat × Bool := (c.opd 24 8, c.opd 32 4, c.opd 36 1 == 1)

/-- A capture rule written by a tenant. -/
def capRuled (s : State) (c : TenCmd) (rule : Nat) : State :=
  (s.storeOne true true (rCAP_RULE_CFG rule) (c.opd 16 4)).storeOne true true (rCAP_RULE_SEL rule) (c.opd 20 4)

/-- A tenant's ring that has changed starts empty. -/
def capStarted (s : State) (tn : Nat) (x : Tenant) : State :=
  ((s.setTen tn x).put (TNW_CAP_HEAD_HEAD tn) 0).put (TNW_CAP_TAIL_TAIL tn) 0

/-- The ring of a tenant after its command. -/
def capSet (s : State) (tn : Nat) (c : TenCmd) (rule : Nat) : State :=
  if (s.ten tn).capRing = some (capAsked c) then s.capRuled c rule
  else (s.capRuled c rule).capStarted tn ((s.ten tn).withRing (capAsked c))

theorem exec_capture_denied (h : s.RunsCmd tn 6 c) (hr : (s.ten tn).capRules[c.opd 8 1]? = none) :
    exec (.tenCapture tn) s = .next (s.tenEnd tn c 2 []) := by
  refine congrArg Host.Outcome.next ((h.tenRun_eq _).trans ?_)
  unfold tenCaptureCmd
  dsimp only
  rw [hr]

theorem exec_capture_eq {rule : Nat} (h : s.RunsCmd tn 6 c) (hr : (s.ten tn).capRules[c.opd 8 1]? = some rule)
    (hcfg : bitOf (c.opd 16 4) 28 = false) (hport : s.tenPort tn (bits (c.opd 16 4) 16 8) = true) (hmin : 4096 ≤ c.opd 32 4)
    (hmax : c.opd 32 4 ≤ 16777216) (hmod : c.opd 32 4 % 16 = 0) (hmode : c.opd 36 1 ≤ 1) :
    exec (.tenCapture tn) s = .next ((s.capSet tn c rule).tenEnd tn c 0 []) := by
  refine congrArg Host.Outcome.next ((h.tenRun_eq _).trans ?_)
  unfold tenCaptureCmd
  dsimp only
  rw [hr]
  exact (if_neg (by simp [hcfg, hport])).trans (if_neg (by omega))

section
variable (s tn c) {rule : Nat}

theorem capRuled_onlyRegs (rule : Nat) : s.OnlyRegs (s.capRuled c rule) [rCAP_RULE_CFG rule, rCAP_RULE_SEL rule] :=
  (s.storeOne_onlyRegs true true (rCAP_RULE_CFG rule) (c.opd 16 4)).trans
    ((s.storeOne true true (rCAP_RULE_CFG rule) (c.opd 16 4)).storeOne_onlyRegs true true (rCAP_RULE_SEL rule) (c.opd 20 4))

theorem reg_capRuled (rule : Nat) :
    (s.capRuled c rule).reg (rCAP_RULE_CFG rule) =
      (s.storeOne true true (rCAP_RULE_CFG rule) (c.opd 16 4)).reg (rCAP_RULE_CFG rule) ∧
    (s.capRuled c rule).reg (rCAP_RULE_SEL rule) =
      (s.storeOne true true (rCAP_RULE_SEL rule) (c.opd 20 4)).reg (rCAP_RULE_SEL rule) := by
  have hne : rCAP_RULE_CFG rule ≠ rCAP_RULE_SEL rule := by
    simp only [rCAP_RULE_CFG, rCAP_RULE_SEL]
    omega
  constructor
  · exact (storeOne_onlyRegs _ true true (rCAP_RULE_SEL rule) _).regs _ (by simpa using hne)
  · exact reg_storeOne_congr ((s.storeOne_onlyRegs true true (rCAP_RULE_CFG rule) _).regs _ (by simpa using hne.symm)) true true _

theorem capStarted_onlyRegs (x : Tenant) :
    (s.setTen tn x).OnlyRegs (s.capStarted tn x) [rTNW_CAP_HEAD tn, rTNW_CAP_TAIL tn] :=
  ((OnlyRegs.refl _ _).put (f := TNW_CAP_HEAD_HEAD tn) 0 List.mem_cons_self).put (f := TNW_CAP_TAIL_TAIL tn) 0
    (List.mem_cons_of_mem _ List.mem_cons_self)

theorem ten_capSet (rule : Nat) : (s.capSet tn c rule).ten tn = (s.ten tn).withRing (capAsked c) := by
  unfold capSet
  split
  · next hring =>
    rw [Tenant.withRing, ← hring]
    exact ten_congr ((s.capRuled_onlyRegs c rule).same (f := State.tenants) fun _ _ => rfl) tn
  · exact (ten_congr ((capStarted_onlyRegs _ tn _).same (f := State.tenants) fun _ _ => rfl) tn).trans (ten_setTen_self _ _ _)

theorem capStarted_empty (x : Tenant) :
    (s.capStarted tn x).fld (TNW_CAP_HEAD_HEAD tn) = 0 ∧ (s.capStarted tn x).fld (TNW_CAP_TAIL_TAIL tn) = 0 := by
  have hne : (TNW_CAP_HEAD_HEAD tn).addr ≠ (TNW_CAP_TAIL_TAIL tn).addr := by
    simp only [TNW_CAP_HEAD_HEAD, TNW_CAP_TAIL_TAIL, rTNW_CAP_HEAD, rTNW_CAP_TAIL]
    omega
  constructor
  · exact (fld_put_addr _ 0 hne).trans (fld_put_self _ _ 0 (by simp [TNW_CAP_HEAD_HEAD]))
  · exact fld_put_self _ _ 0 (by simp [TNW_CAP_TAIL_TAIL])

/-- The rule's registers lie below the windows of the tenants. -/
theorem reg_capSet {a : Nat} (ha : a < 0x2000000) : (s.capSet tn c rule).reg a = (s.capRuled c rule).reg a := by
  unfold capSet
  split
  · rfl
  · refine (capStarted_onlyRegs _ tn _).regs a ?_
    simp only [rTNW_CAP_HEAD, rTNW_CAP_TAIL, List.mem_cons, List.not_mem_nil, or_false]
    omega

end

theorem exec_capture {rule : Nat} (h : s.RunsCmd tn 6 c) (hr : (s.ten tn).capRules[c.opd 8 1]? = some rule) (hrule : rule < 16)
    (hcfg : bitOf (c.opd 16 4) 28 = false) (hport : s.tenPort tn (bits (c.opd 16 4) 16 8) = true) (hmin : 4096 ≤ c.opd 32 4)
    (hmax : c.opd 32 4 ≤ 16777216) (hmod : c.opd 32 4 % 16 = 0) (hmode : c.opd 36 1 ≤ 1) :
    ∃ t, exec (.tenCapture tn) s = .next t ∧ s.TenEnds t tn c 0 [] ∧
      (t.ten tn).capRing = some (c.opd 24 8, c.opd 32 4, c.opd 36 1 == 1) ∧
      t.reg (rCAP_RULE_CFG rule) = (s.storeOne true true (rCAP_RULE_CFG rule) (c.opd 16 4)).reg (rCAP_RULE_CFG rule) ∧
      t.reg (rCAP_RULE_SEL rule) = (s.storeOne true true (rCAP_RULE_SEL rule) (c.opd 20 4)).reg (rCAP_RULE_SEL rule) ∧
      ((s.ten tn).capRing ≠ some (c.opd 24 8, c.opd 32 4, c.opd 36 1 == 1) →
        t.fld (TNW_CAP_HEAD_HEAD tn) = 0 ∧ t.fld (TNW_CAP_TAIL_TAIL tn) = 0) := by
  have hten := s.ten_capSet tn c rule
  have hcmds : ((s.capSet tn c rule).ten tn).cmds = (s.ten tn).cmds := (congrArg Tenant.cmds hten).trans rfl
  obtain ⟨hregCfg, hregSel⟩ := s.reg_capRuled c rule
  refine ⟨_, exec_capture_eq h hr hcfg hport hmin hmax hmod hmode, tenEnds_after hcmds h.mem 0 [], ?_,
    (s.reg_capSet tn c ?_).trans hregCfg, (s.reg_capSet tn c ?_).trans hregSel, fun hring => ?_⟩
  · rw [ten_tenEnd (hcmds ▸ h.mem), hten]
    rfl
  · simp only [rCAP_RULE_CFG]
    omega
  · simp only [rCAP_RULE_SEL]
    omega
  · have hstart : s.capSet tn c rule = _ := if_neg hring
    obtain ⟨hhead, htail⟩ := (s.capRuled c rule).capStarted_empty tn ((s.ten tn).withRing (capAsked c))
    exact ⟨(congrArg (fun t : State => t.fld (TNW_CAP_HEAD_HEAD tn)) hstart).trans hhead,
      (congrArg (fun t : State => t.fld (TNW_CAP_TAIL_TAIL tn)) hstart).trans htail⟩

end State

end Sys2Proof.Machine
end

section
/-! PROOFS. The in-band engine: management frames taken, and completion entries sent (R494, R498, R499). -/

namespace Sys2Proof.Machine

open Sys2Proof

namespace State

/-! ## The frame that has waited longest in a plane -/

/-- The oldest management frame of a plane taken, and its buffer returned. -/
def mgmtTaken (s : State) (pl : Plane) (f : Frame) (fs : List Frame) : State :=
  (s.setPlane pl { s.plane pl with mgmt := fs }).release f

theorem exec_inbandFrame_other {s : State} {pl : Plane} {port : Nat} {bs : List Byte}
    (h : (s.plane pl).mgmt.head?.any (fun g => g.inPort == port && g.bytes == bs) = false) :
    exec (.inbandFrame pl port bs) s = .next s := congrArg Host.Outcome.next (if_neg (by simp [h]))

theorem exec_inbandFrame_taken {s : State} {pl : Plane} {f : Frame} {fs : List Frame} (h : (s.plane pl).mgmt = f :: fs) :
    exec (.inbandFrame pl f.inPort f.bytes) s = .next ((s.mgmtTaken pl f fs).inbandTake f.inPort f.bytes f.secure) := by
  have hnext : s.inbandNext pl = some ((s.mgmtTaken pl f fs).inbandTake f.inPort f.bytes f.secure) := by
    unfold inbandNext
    rw [h]
    rfl
  refine congrArg Host.Outcome.next ((if_pos ?_).trans ?_)
  · simp [h]
  · rw [hnext]
    rfl

/-- What takes no part in the store of frames. -/
structure SameBesidePlanes (s t : State) : Prop where
  regs : t.regs = s.regs
  tenants : t.tenants = s.tenants
  active : t.active = s.active
  clk : t.clk = s.clk

theorem SameBesidePlanes.trans {s t u : State} (h : SameBesidePlanes s t) (g : SameBesidePlanes t u) : SameBesidePlanes s u :=
  ⟨g.regs.trans h.regs, g.tenants.trans h.tenants, g.active.trans h.active, g.clk.trans h.clk⟩

theorem setPlane_sameBeside (s : State) (pl : Plane) (p : PlaneSt) : SameBesidePlanes s (s.setPlane pl p) :=
  ⟨setPlane_regs s pl p, setPlane_tenants s pl p, setPlane_active s pl p, setPlane_clk s pl p⟩

theorem release_sameBeside (s : State) (f : Frame) : SameBesidePlanes s (s.release f) := by
  have hunmark : SameBesidePlanes s (s.unmark f.plane f.pool f.buf) := ⟨rfl, rfl, rfl, rfl⟩
  unfold release freeBuf
  dsimp only
  split
  · exact hunmark
  · exact hunmark.trans (setPlane_sameBeside _ _ _)

theorem mgmtTaken_sameBeside (s : State) (pl : Plane) (f : Frame) (fs : List Frame) : SameBesidePlanes s (s.mgmtTaken pl f fs) :=
  (setPlane_sameBeside s _ _).trans (release_sameBeside _ f)

section
variable {s t : State} (h : SameBesidePlanes s t) (tn : Nat)
include h

theorem SameBesidePlanes.ten : t.ten tn = s.ten tn := ten_congr h.tenants tn

theorem SameBesidePlanes.tenIs (st : TenState) : t.tenIs tn st = s.tenIs tn st := by
  unfold State.tenIs
  rw [fld_congr h.regs]

theorem SameBesidePlanes.tenLive : t.tenLive tn = s.tenLive tn := by
  unfold State.tenLive
  rw [h.tenIs, h.tenIs]

theorem SameBesidePlanes.cmdRoom : t.cmdRoom tn = s.cmdRoom tn := by
  unfold State.cmdRoom inFlight
  simp only [h.ten]

end

/-! ## What a frame does (R498, R499) -/

section
variable {s : State} {port tn : Nat} {bs : List Byte} {validated : Bool}

/-- Frames that are dropped and counted. -/
theorem inbandTake_refused (h : s.inbandTenant port bs = none ∨ validated = false ∨ 16 < byteAt bs 21 ∨
    bs.length < 30 + 64 * byteAt bs 21) : s.inbandTake port bs validated = s.inc HST_INBAND_DROP_CNT_VAL := by
  unfold inbandTake
  dsimp only
  split
  · rfl
  · next tn htn => exact if_pos (h.resolve_left (by simp [htn]))

/-- A frame names its tenant, which is enabled and attached in-band. -/
theorem inbandTenant_spec (h : s.inbandTenant port bs = some tn) : s.tenEnabled tn = true ∧ s.tenInband tn = true := by
  unfold inbandTenant at h
  dsimp only at h
  split at h
  · next hc =>
    cases h
    exact ⟨hc.2.1, hc.2.2.1⟩
  · cases h

/-- A sound frame of one entry from a tenant's attachment. -/
structure SoundFrame (s : State) (port tn : Nat) (bs : List Byte) : Prop where
  tenant : s.inbandTenant port bs = some tn
  one : byteAt bs 21 = 1
  len : 94 ≤ bs.length

variable (h : s.SoundFrame port tn bs)
include h

theorem SoundFrame.not_refused : ¬ (true = false ∨ 16 < 1 ∨ bs.length < 30 + 64 * 1) := by
  have hlen := h.len
  simp
  omega

theorem SoundFrame.inbandTake_dead (htype : byteAt bs 19 = 1) (hl : s.tenLive tn = false) :
    s.inbandTake port bs true = s.inc HST_INBAND_DROP_CNT_VAL := by
  unfold inbandTake
  rw [h.tenant, h.one, htype]
  exact (if_neg h.not_refused).trans (if_pos hl)

theorem SoundFrame.inbandTake_command (htype : byteAt bs 19 = 1) (hl : s.tenLive tn = true)
    (hroom : (s.tenTouch tn).cmdRoom tn = true) :
    s.inbandTake port bs true = (s.tenTouch tn).tenAccept tn (slice bs 26 64) := by
  unfold inbandTake
  rw [h.tenant, h.one, htype]
  exact (if_neg h.not_refused).trans ((if_neg (by simp [hl])).trans (if_pos hroom))

theorem SoundFrame.inbandTake_control (htype : byteAt bs 19 = 4) :
    s.inbandTake port bs true = (s.tenTouch tn).inbandControl tn (slice bs 26 64) := by
  unfold inbandTake
  rw [h.tenant, h.one, htype]
  exact (if_neg h.not_refused).trans (if_pos rfl)

end

/-! ## A command entry (R498) -/

theorem ten_tenTouch (s : State) (tn : Nat) : (s.tenTouch tn).ten tn = { s.ten tn with live := s.clk } := ten_setTen_self _ _ _

/-- The restart of a deadline leaves the commands in flight. -/
theorem cmds_tenTouch (s : State) (tn n : Nat) : ((s.tenTouch tn).ten n).cmds = (s.ten n).cmds := by
  by_cases h : n = tn
  · rw [h, ten_tenTouch]
  · exact congrArg Tenant.cmds (ten_setTen_ne s _ h)

theorem cmdRoom_tenTouch (s : State) (tn n : Nat) : (s.tenTouch tn).cmdRoom n = s.cmdRoom n := by
  unfold cmdRoom inFlight
  simp only [cmds_tenTouch]

/-- A command entry of an in-band tenant as it comes in flight. -/
theorem ten_tenAccept {s : State} {tn : Nat} (hin : s.tenInband tn = true) (e : List Byte) :
    (s.tenAccept tn e).ten tn = { s.ten tn with cmds := (s.ten tn).cmds ++ [⟨e, leNat (slice e 2 2),
      if cmdFormed e = false ∨ (s.ten tn).cmds.any (fun c => c.id == leNat (slice e 2 2)) = true then .ended 0x01 []
      else if inbandMay e = false then .ended 0x08 [] else .fetched⟩] } := by
  unfold tenAccept
  simp only [ten_setTen_self, hin, true_and]

theorem tenAccept_frame (s : State) (tn : Nat) (e : List Byte) : { s.tenAccept tn e with tenants := s.tenants } = s := rfl

/-! ## A control entry (R498, R499) -/

/-- The amounts that a control entry asks for, stored. -/
def inbandAmounts (s : State) (tn : Nat) (e : List Byte) : State :=
  (List.range 4).foldl (fun s i => s.storeOne true true (rTNW_REQ0 tn + 4 * i) (leNat (slice e (16 + 4 * i) 4))) s

/-- The registers of the amounts. -/
def amountRegs (tn : Nat) : List Nat := [rTNW_REQ0 tn, rTNW_REQ1 tn, rTNW_REQ2 tn, rTNW_REQ3 tn]

theorem inbandAmounts_onlyRegs (s : State) (tn : Nat) (e : List Byte) : s.OnlyRegs (s.inbandAmounts tn e) (amountRegs tn) := by
  have store {t : State} (h : s.OnlyRegs t (amountRegs tn)) (i : Nat) (hi : i < 4) :
      s.OnlyRegs (t.storeOne true true (rTNW_REQ0 tn + 4 * i) (leNat (slice e (16 + 4 * i) 4))) (amountRegs tn) := by
    refine (h.trans (t.storeOne_onlyRegs true true _ _)).mono fun a ha => (List.mem_append.mp ha).elim id fun hi => ?_
    simp only [amountRegs, rTNW_REQ0, rTNW_REQ1, rTNW_REQ2, rTNW_REQ3, List.mem_cons, List.not_mem_nil, or_false] at hi ⊢
    omega
  exact store (store (store (store (OnlyRegs.refl s _) 0 (by decide)) 1 (by decide)) 2 (by decide)) 3 (by decide)

/-- ATTACH of a control entry: the amounts, WOC, and the tenant ATTACHING. -/
def inbandAttached (s : State) (tn : Nat) (e : List Byte) : State :=
  (((s.inbandAmounts tn e).putWoc tn (bitOf (byteAt e 1) 0)).tenPut tn .attaching).tenResult tn 1

theorem fld_putWoc_state (s : State) (tn : Nat) (woc : Bool) :
    (s.putWoc tn woc).fld (HST_TN_STATE_STATE tn) = s.fld (HST_TN_STATE_STATE tn) := by
  unfold putWoc
  rw [fld_put_beside _ _ (by simp [HST_TN_STATE_STATE]) (by simp [HST_TN_STATE_STATE, HST_TN_STATE_WOC]),
    fld_put_beside _ _ (by simp [HST_TN_STATE_STATE]) (by simp [HST_TN_STATE_STATE, TNW_CTL_WOC])]

variable {s : State} {tn : Nat} {e : List Byte}

theorem inbandControl_attach (htn : tn < 64) (he : s.tenEnabled tn = true) (ha : s.tenIs tn .absent = true)
    (hcmd : byteAt e 0 % 16 = 1) : s.inbandControl tn e = s.inbandAttached tn e := by
  have hamounts : (s.inbandAmounts tn e).fld (HST_TN_STATE_STATE tn) = s.fld (HST_TN_STATE_STATE tn) := by
    refine (s.inbandAmounts_onlyRegs tn e).fld ?_
    simp only [amountRegs, HST_TN_STATE_STATE, rHST_TN_STATE, rTNW_REQ0, rTNW_REQ1, rTNW_REQ2, rTNW_REQ3, List.mem_cons,
      List.not_mem_nil, or_false]
    omega
  have habsent : ((s.inbandAmounts tn e).putWoc tn (bitOf (byteAt e 1) 0)).tenIs tn .absent = true := by
    unfold tenIs
    rw [fld_putWoc_state, hamounts]
    exact ha
  have henabled : ((s.inbandAmounts tn e).putWoc tn (bitOf (byteAt e 1) 0)).tenEnabled tn = true := by
    refine Eq.trans ?_ he
    exact ((((OnlyRegs.refl _ [_, _]).put (f := TNW_CTL_WOC tn) _ List.mem_cons_self).put (f := HST_TN_STATE_WOC tn) _
      (List.mem_cons_of_mem _ List.mem_cons_self)).same (f := fun x => x.tenEnabled tn) fun _ _ => rfl).trans
      ((s.inbandAmounts_onlyRegs tn e).same (f := fun x => x.tenEnabled tn) fun _ _ => rfl)
  unfold inbandControl
  rw [hcmd, if_pos ha]
  exact if_pos ⟨habsent, henabled⟩

/-- The registers that an ATTACH writes. -/
def attachRegs (tn : Nat) : List Nat := [rTNW_CTL tn, rHST_TN_STATE tn] ++ amountRegs tn

theorem inbandAttached_onlyRegs (s : State) (tn : Nat) (e : List Byte) : s.OnlyRegs (s.inbandAttached tn e) (attachRegs tn) := by
  have put {t : State} (h : s.OnlyRegs t (attachRegs tn)) (f : Fld) (hf : f.addr = rTNW_CTL tn ∨ f.addr = rHST_TN_STATE tn)
      (v : Nat) : s.OnlyRegs (t.put f v) (attachRegs tn) := h.put v (List.mem_append_left _ (by simpa using hf))
  have hamounts : s.OnlyRegs (s.inbandAmounts tn e) (attachRegs tn) :=
    (s.inbandAmounts_onlyRegs tn e).mono fun _ => List.mem_append_right _
  exact put (put (put (put hamounts (TNW_CTL_WOC tn) (.inl rfl) _) (HST_TN_STATE_WOC tn) (.inr rfl) _)
    (HST_TN_STATE_STATE tn) (.inr rfl) _) (TNW_CTL_RESULT tn) (.inl rfl) 1

/-- What an accepted ATTACH shows. -/
theorem inbandAttached_shows (s : State) (htn : tn < 64) (e : List Byte) :
    (s.inbandAttached tn e).tenIs tn .attaching = true ∧ (s.inbandAttached tn e).fld (TNW_CTL_RESULT tn) = 1 ∧
    (s.inbandAttached tn e).flag (TNW_CTL_WOC tn) = bitOf (byteAt e 1) 0 := by
  have hctl : rTNW_CTL tn ≠ rHST_TN_STATE tn := by
    simp only [rTNW_CTL, rHST_TN_STATE]
    omega
  refine ⟨?_, fld_put_self _ _ 1 (by simp [TNW_CTL_RESULT]), ?_⟩
  · unfold inbandAttached tenResult tenIs
    rw [fld_put_addr (f := TNW_CTL_RESULT tn) (g := HST_TN_STATE_STATE tn) _ _ hctl.symm, tenPut, fld_put_self _ _ _ (by simp [HST_TN_STATE_STATE])]
    rfl
  · unfold inbandAttached tenResult tenPut putWoc
    rw [flag_put_beside _ _ (by simp [TNW_CTL_WOC]) (by simp [TNW_CTL_WOC, TNW_CTL_RESULT]), 
      flag_put_addr (f := HST_TN_STATE_STATE tn) (g := TNW_CTL_WOC tn) _ _ hctl,
      flag_put_addr (f := HST_TN_STATE_WOC tn) (g := TNW_CTL_WOC tn) _ _ hctl, flag_put_self _ _ _ (by simp [TNW_CTL_WOC])]
    cases bitOf (byteAt e 1) 0 <;> rfl

/-! ## Completion entries leave (R494, R499) -/

theorem exec_inbandCompletionSend_idle (h : s.tenInband tn = false ∨ s.tenIs tn .active = false ∨ (s.ten tn).inband = []) :
    exec (.inbandCompletionSend tn) s = .next s := by
  refine congrArg Host.Outcome.next ?_
  by_cases hactive : s.tenInband tn = true ∧ s.tenIs tn .active = true
  · obtain ⟨hin, hact⟩ := hactive
    have hnone : (s.ten tn).inband = [] := by simpa [hin, hact] using h
    rw [if_pos ⟨hin, hact⟩, hnone]
  · exact if_neg hactive

theorem exec_inbandCompletionSend_some (hin : s.tenInband tn = true) (hact : s.tenIs tn .active = true)
    (hsome : (s.ten tn).inband ≠ []) : exec (.inbandCompletionSend tn) s = .next ((s.setTen tn { s.ten tn with
      inband := (s.ten tn).inband.drop 16
      cplEv := [] }).sendInband tn 2 ((s.ten tn).inband.take 16)) := by
  refine congrArg Host.Outcome.next ((if_pos ⟨hin, hact⟩).trans ?_)
  split
  · next hnone => exact absurd hnone hsome
  · rfl

end State

end Sys2Proof.Machine
end

section
/-! PROOFS. In-band frames are taken, and the commands of a tenant complete (R299, R494 to R499): O59. -/

namespace Sys2Proof.Machine

open Sys2Proof

/-! ## A management frame is taken (R498, R499) -/

section
variable {s u : State} {pl : Plane} {f : Frame} {fs : List Frame} (hm : (s.plane pl).mgmt = f :: fs) (hu : u = s.mgmtTaken pl f fs)
include hm hu

/-- A frame taken that is counted as dropped. -/
theorem inbandFrame_dropped (h : u.inbandTake f.inPort f.bytes f.secure = u.inc HST_INBAND_DROP_CNT_VAL) :
    ∃ t, exec (.inbandFrame pl f.inPort f.bytes) s = .next t ∧
      t.fld HST_INBAND_DROP_CNT_VAL = (s.fld HST_INBAND_DROP_CNT_VAL + 1) % 2 ^ 32 ∧ u.OnlyRegs t [rHST_INBAND_DROP_CNT] := by
  have hbeside : s.SameBesidePlanes u := hu ▸ s.mgmtTaken_sameBeside pl f fs
  refine ⟨u.inc HST_INBAND_DROP_CNT_VAL, ?_, ?_, u.inc_onlyRegs _⟩
  · rw [State.exec_inbandFrame_taken hm, ← hu, h]
  · rw [State.inc_eq, State.fld_put_self _ _ _ (by decide), State.fld_congr hbeside.regs]
    rfl

section
variable {tn : Nat} (hf : u.SoundFrame f.inPort tn f.bytes) (hsecure : f.secure = true)
include hf hsecure

/-- A command frame: the deadline restarts, and its entry is in flight. -/
theorem inbandFrame_command (htype : byteAt f.bytes 19 = 1) (hlive : s.tenLive tn = true) (hroom : s.cmdRoom tn = true) :
    ∃ t, exec (.inbandFrame pl f.inPort f.bytes) s = .next t ∧ { t with tenants := u.tenants } = u ∧
      t.ten tn = { s.ten tn with
        live := s.clk
        cmds := (s.ten tn).cmds ++ [⟨slice f.bytes 26 64, leNat (slice (slice f.bytes 26 64) 2 2),
          if cmdFormed (slice f.bytes 26 64) = false ∨
              (s.ten tn).cmds.any (fun c => c.id == leNat (slice (slice f.bytes 26 64) 2 2)) = true then .ended 0x01 []
          else if inbandMay (slice f.bytes 26 64) = false then .ended 0x08 [] else .fetched⟩] } := by
  have hbeside : s.SameBesidePlanes u := hu ▸ s.mgmtTaken_sameBeside pl f fs
  have htake := hf.inbandTake_command htype ((hbeside.tenLive tn).trans hlive)
    ((u.cmdRoom_tenTouch tn tn).trans ((hbeside.cmdRoom tn).trans hroom))
  have hin : (u.tenTouch tn).tenInband tn = true := (State.inbandTenant_spec hf.tenant).2
  refine ⟨(u.tenTouch tn).tenAccept tn (slice f.bytes 26 64), ?_,
    State.tenants_frame_trans (u.setTen_frame tn _) (State.tenAccept_frame (u.tenTouch tn) tn (slice f.bytes 26 64)), ?_⟩
  · rw [State.exec_inbandFrame_taken hm, hsecure, ← hu, htake]
  · rw [State.ten_tenAccept hin, State.ten_tenTouch, hbeside.ten, hbeside.clk]

/-- A control frame with the code of ATTACH. -/
theorem inbandFrame_attach (htn : tn < 64) (htype : byteAt f.bytes 19 = 4) (hcmd : byteAt (slice f.bytes 26 64) 0 % 16 = 1)
    (habsent : s.tenIs tn .absent = true) :
    ∃ t, exec (.inbandFrame pl f.inPort f.bytes) s = .next t ∧ t.tenIs tn .attaching = true ∧ t.fld (TNW_CTL_RESULT tn) = 1 ∧
      (t.ten tn).live = s.clk ∧ t.flag (TNW_CTL_WOC tn) = bitOf (byteAt (slice f.bytes 26 64) 1) 0 ∧
      { t with regs := u.regs, tenants := u.tenants } = u := by
  have hbeside : s.SameBesidePlanes u := hu ▸ s.mgmtTaken_sameBeside pl f fs
  have hattach : (u.tenTouch tn).inbandControl tn (slice f.bytes 26 64) = (u.tenTouch tn).inbandAttached tn (slice f.bytes 26 64) :=
    State.inbandControl_attach htn (State.inbandTenant_spec hf.tenant).1 ((hbeside.tenIs tn .absent).trans habsent) hcmd
  obtain ⟨hstate, hresult, hwoc⟩ := (u.tenTouch tn).inbandAttached_shows htn (slice f.bytes 26 64)
  have hregs := (u.tenTouch tn).inbandAttached_onlyRegs tn (slice f.bytes 26 64)
  refine ⟨(u.tenTouch tn).inbandAttached tn (slice f.bytes 26 64), ?_, hstate, hresult, ?_, hwoc, ?_⟩
  · rw [State.exec_inbandFrame_taken hm, hsecure, ← hu, hf.inbandTake_control htype, hattach]
  · rw [State.ten_congr (hregs.same (f := State.tenants) fun _ _ => rfl), State.ten_tenTouch]
    exact hbeside.clk
  · exact (hregs.same (f := fun x => { x with regs := u.regs, tenants := u.tenants }) fun _ _ => rfl).trans (u.setTen_frame tn _)

end

end

/-- STREAM_DECLARE and STREAM_WITHDRAW, by the item that each submits (R294, R495). -/
theorem streamCommand_becomesJob {s : State} {tn op : Nat} {c : TenCmd} {i : Instr} {item : TenCmd → JobItem}
    (hi : exec i s = .next (s.tenRun tn op fun s c => s.tenJob tn c (item c))) (h : s.RunsCmd tn op c) :
    (s.carFull = true → exec i s = .next s) ∧
    (s.carFull = false → ∃ t, exec i s = .next t ∧
      t.car.queue = s.car.queue ++ [⟨.tenant tn c.id, [item c], false, none, false⟩] ∧
      { t.car with queue := s.car.queue } = s.car ∧
      (t.ten tn).cmds = (s.ten tn).cmds.map (fun y => if y = c then { y with st := .inCarillon } else y) ∧
      t.fld CAR_STATUS_QUEUED = (s.car.queue.length + 1) % 2 ^ CAR_STATUS_QUEUED.wid ∧ s.RegsBut t State.carShown ∧
      { t with regs := s.regs, tenants := s.tenants, car := s.car } = s) := by
  have hexec : exec i s = .next (s.tenJob tn c (item c)) := hi.trans (congrArg _ (h.tenRun_eq _))
  exact ⟨fun hfull => hexec.trans (congrArg _ (State.tenJob_full hfull _)), fun hfull => ⟨_, hexec, State.tenJob_submits hfull _⟩⟩

/-- Settles O59: a frame by what its sender and TYPE make of it, a command by its opcode. -/
theorem inbandFramesAndCommands : Obligations.InbandFramesAndCommands := by
  unfold Obligations.InbandFramesAndCommands
  refine ⟨fun s u pl tn f fs e => ⟨State.exec_inbandFrame_other, fun hm hu => ⟨fun hlost => ?_, ?_⟩,
    State.exec_inbandCompletionSend_idle, State.exec_inbandCompletionSend_some⟩, ?_⟩
  · exact inbandFrame_dropped hm hu (State.inbandTake_refused hlost)
  · rintro htenant htn hsecure hone hlen rfl
    have hf : u.SoundFrame f.inPort tn f.bytes := ⟨htenant, hone, hlen⟩
    have hbeside : s.SameBesidePlanes u := hu ▸ s.mgmtTaken_sameBeside pl f fs
    refine ⟨inbandFrame_command hm hu hf hsecure, fun htype hdead => inbandFrame_dropped hm hu ?_,
      inbandFrame_attach hm hu hf hsecure htn⟩
    rw [hsecure]
    exact hf.inbandTake_dead htype ((hbeside.tenLive tn).trans hdead)
  · intro s tn k rule c d hold late htn
    refine ⟨fun x hx hidle => ?_, fun hl hc => State.exec_keepalive ⟨hl, hc⟩, fun hl hc hk => ?_, fun hl hc words hw => ?_,
      fun hl hc => ?_, fun hl hc => ?_, fun x hx hl hc => ?_, fun hl hc => ?_⟩
    · rcases exec_tenantCommand s hx with h | ⟨act, h⟩
      · exact h
      · exact h.trans (congrArg _ (State.tenRun_idle hidle act))
    · subst hk
      exact ⟨fun hdenied => ⟨_, State.exec_nmReq_denied ⟨hl, hc⟩ hdenied, State.tenEnd_only (List.mem_of_find?_eq_some hc) 2 []⟩,
        State.exec_nmReq ⟨hl, hc⟩ htn⟩
    · subst hw
      exact State.exec_stats ⟨hl, hc⟩
    · exact ⟨fun hr => ⟨_, State.exec_capture_denied ⟨hl, hc⟩ hr, State.tenEnd_only (List.mem_of_find?_eq_some hc) 2 []⟩,
        State.exec_capture ⟨hl, hc⟩⟩
    · exact ⟨fun ht => ⟨_, State.exec_abort_none ⟨hl, hc⟩ late ht, State.tenEnd_only (List.mem_of_find?_eq_some hc) 7 []⟩,
        fun ht => ⟨fun hd => ⟨_, State.exec_abort_done ⟨hl, hc⟩ ht hd, State.tenEnd_only (List.mem_of_find?_eq_some hc) 6 []⟩,
          State.exec_abort_beaten ⟨hl, hc⟩ ht, State.exec_abort_inCarillon ⟨hl, hc⟩ ht, State.exec_abort_fetched ⟨hl, hc⟩ ht⟩⟩
    · simp only [List.mem_cons, List.not_mem_nil, or_false] at hx
      rcases hx with rfl | rfl
      · exact streamCommand_becomesJob (i := .tenStreamDeclare tn) (item := fun c => .declare tn (slice c.entry 8 48)) rfl ⟨hl, hc⟩
      · exact streamCommand_becomesJob (i := .tenStreamWithdraw tn) (item := fun c => .withdraw (c.opd 8 2)) rfl ⟨hl, hc⟩
    · exact ⟨fun hfull => ⟨_, State.exec_cipher_refused ⟨hl, hc⟩ hfull, State.tenEnd_only (List.mem_of_find?_eq_some hc) 9 []⟩,
        fun hroom hfull hopen hheld => ⟨_, State.exec_cipher_taken ⟨hl, hc⟩ hroom hfull hopen hheld, rfl,
          congrArg Tenant.cmds (State.ten_setTen_self _ _ _), rfl⟩⟩

end Sys2Proof.Machine
end

section
/-! SUPPORT. Heartbeats: what a plane sends, what its twin and the arbiter hear, and the end of a beat slot (R323 to R326). -/

namespace Sys2Proof.Machine

theorem State.RegsBut.fld {s t : State} {as : List Nat} (h : s.RegsBut t as) {f : Fld} (hf : f.addr ∉ as) : t.fld f = s.fld f := by
  rw [State.fld, State.fld, h f.addr hf]

theorem State.flag_put_bitN (s : State) {f : Fld} (hf : f.lsb + f.wid ≤ 32) (hw : f.wid = 1) (b : Bool) :
    (s.put f (bitN b)).flag f = b := by
  rw [State.flag_put_self _ _ _ hf, hw]
  cases b <;> rfl

theorem State.RegsBut.mono {s t : State} {as bs : List Nat} (h : s.RegsBut t as) (hs : ∀ a ∈ as, a ∈ bs) : s.RegsBut t bs :=
  fun a ha => h a fun e => ha (hs a e)

/-! ## Beats sent (R323) -/

/-- FATAL lies above the condition and LEAD in STATE of a beat. -/
theorem bitOf_beatState {c : Nat} (hc : c < 8) (lead fatal : Bool) : bitOf (c + bitN lead * 8 + bitN fatal * 16) 4 = fatal := by
  have hlead : bitN lead ≤ 1 := by cases lead <;> decide
  have hhigh : (c + bitN lead * 8 + bitN fatal * 16) / 2 ^ 4 = bitN fatal := by omega
  rw [bitOf, hhigh]
  cases fatal <;> rfl

namespace State

section
variable (s : State) (frm : Plane)

theorem beatSound_beatSent : beatSound frm (s.beatSent frm) = true := by
  have hbody : (s.beatSent frm).take 4 = s.beatHead frm := rfl
  have hcrc : (s.beatSent frm).drop 4 = leBytes 4 (crc32c 0xFFFFFFFF (s.beatHead frm)) := rfl
  have hplane : byteAt (s.beatSent frm) 0 = planeNum frm := by cases frm <;> rfl
  have hlen : (s.beatSent frm).length = 8 := rfl
  rw [beatSound, hbody, hcrc, hplane, hlen]
  simp

theorem beatNumOf_beatSent {s : State} {frm : Plane} (h : s.beatNum frm < 65536) : beatNumOf (s.beatSent frm) = s.beatNum frm := by
  change s.beatNum frm % 2 ^ 8 + 256 * (s.beatNum frm / 256 % 2 ^ 8) = s.beatNum frm
  omega

theorem beatFatal_beatSent : beatFatal (s.beatSent frm) = decide (frm ∈ s.fatal) := by
  have hcond : s.fld (condFld frm) < 8 := by
    cases frm with
    | A => exact bits_lt _ _ 3
    | B => exact bits_lt _ _ 3
  exact (bitOf_mod (by decide : 4 < 8)).trans (bitOf_beatState hcond _ _)

end

/-! ## The receivers of beats -/

theorem beatIx_lt (frm : Plane) (p : BeatPath) : beatIx frm p < 6 := by cases frm <;> cases p <;> decide

theorem beatIx_side_ne (frm : Plane) : beatIx frm .side ≠ beatIx frm .arbiter ∧ beatIx frm .side ≠ beatIx frm .fabric := by
  cases frm <;> decide

theorem beat_setBeat_self {s : State} {i : Nat} (h : i < s.beats.length) (x : BeatSt) : (s.setBeat i x).beat i = x := by
  simp [setBeat, beat, h]

theorem beat_setBeat_ne (s : State) {i k : Nat} (h : k ≠ i) (x : BeatSt) : (s.setBeat i x).beat k = s.beat k := by
  simp [setBeat, beat, List.getElem?_set_ne h.symm]

/-- The receivers that a beat on a path reaches: the side path leads through the arbiter too. -/
def hearsAt (frm : Plane) (path : BeatPath) (i : Nat) : Prop := i = beatIx frm path ∨ (path = .side ∧ i = beatIx frm .arbiter)

/-- A sound beat heard by the receivers that it reaches. -/
def heard (s : State) (frm : Plane) (path : BeatPath) (num : Nat) : State :=
  if path = .side then (s.hearBeat num (beatIx frm path)).hearBeat num (beatIx frm .arbiter) else s.hearBeat num (beatIx frm path)

theorem beat_hearBeat_self {s : State} {i : Nat} (h : i < s.beats.length) (num : Nat) :
    (s.hearBeat num i).beat i = (s.beat i).take num := beat_setBeat_self h _

theorem beat_hearBeat_ne (s : State) {i k : Nat} (h : k ≠ i) (num : Nat) : (s.hearBeat num i).beat k = s.beat k :=
  beat_setBeat_ne s h _

theorem length_hearBeat (s : State) (num i : Nat) : (s.hearBeat num i).beats.length = s.beats.length := List.length_set

theorem heard_side (s : State) (frm : Plane) (num : Nat) : s.heard frm .side num =
    (s.hearBeat num (beatIx frm .side)).hearBeat num (beatIx frm .arbiter) := rfl

theorem heard_of_ne_side (s : State) (frm : Plane) {path : BeatPath} (h : path ≠ .side) (num : Nat) :
    s.heard frm path num = s.hearBeat num (beatIx frm path) := if_neg h

theorem heard_frame (s : State) (frm : Plane) (path : BeatPath) (num : Nat) : { s.heard frm path num with beats := s.beats } = s := by
  cases path <;> rfl

section
variable {s : State} {frm : Plane} {path : BeatPath} {i : Nat}

theorem beat_heard_of_hearsAt (hl : s.beats.length = 6) (h : hearsAt frm path i) (num : Nat) :
    (s.heard frm path num).beat i = (s.beat i).take num := by
  have hlt : ∀ p, beatIx frm p < s.beats.length := fun p => hl ▸ beatIx_lt frm p
  have hne : beatIx frm .side ≠ beatIx frm .arbiter := (beatIx_side_ne frm).1
  by_cases hp : path = .side
  · subst hp
    rw [heard_side]
    rcases h with rfl | ⟨-, rfl⟩
    · rw [beat_hearBeat_ne _ hne, beat_hearBeat_self (hlt _)]
    · rw [beat_hearBeat_self (length_hearBeat s _ _ ▸ hlt _), beat_hearBeat_ne _ hne.symm]
  · rcases h with rfl | ⟨hside, -⟩
    · rw [heard_of_ne_side _ _ hp, beat_hearBeat_self (hlt _)]
    · exact absurd hside hp

theorem beat_heard_of_not_hearsAt (h : ¬ hearsAt frm path i) (num : Nat) : (s.heard frm path num).beat i = s.beat i := by
  obtain ⟨hpath, harb⟩ := not_or.mp h
  by_cases hp : path = .side
  · subst hp
    rw [heard_side, beat_hearBeat_ne _ fun e => harb ⟨rfl, e⟩, beat_hearBeat_ne _ hpath]
  · rw [heard_of_ne_side _ _ hp, beat_hearBeat_ne _ hpath]

/-! ## A beat arrives (R324, R326) -/

theorem exec_beatArrival_sound {bs : List Byte} (h : beatSound frm bs = true) : exec (.beatArrival frm path bs true) s =
    .next (if beatFatal bs then (s.heard frm path (beatNumOf bs)).declareFailed frm 2 else s.heard frm path (beatNumOf bs)) :=
  congrArg Host.Outcome.next (if_neg (by simp [h]))

theorem exec_beatArrival_ignored {bs : List Byte} {inSlot : Bool} (h : inSlot = false ∨ beatSound frm bs = false) :
    exec (.beatArrival frm path bs inSlot) s = .next s := congrArg Host.Outcome.next (if_pos h)

end

end State

theorem BeatSt.take_following {x : BeatSt} {num : Nat} (h : x.missedPrev = true ∨ num = (x.lastNum + 1) % 65536) :
    x.take num = { x with good := true, lastNum := num } := if_pos h

theorem BeatSt.take_stray {x : BeatSt} {num : Nat} (hm : x.missedPrev = false) (hn : num ≠ (x.lastNum + 1) % 65536) :
    x.take num = x := if_neg (by simp [hm, hn])

/-! ## The end of a beat slot (R324, R325) -/

theorem BeatSt.slot_good {x : BeatSt} (h : x.good = true) : x.slot =
    { x with good := false, missedPrev := false, missRun := 0, goodRun := min (x.goodRun + 1) 128 } := if_pos h

theorem BeatSt.slot_missed {x : BeatSt} (h : x.good = false) : x.slot =
    { x with good := false, missedPrev := true, missRun := min (x.missRun + 1) 4, goodRun := 0 } := if_neg (by simp [h])

theorem BeatSt.good_slot (x : BeatSt) : x.slot.good = false := by
  unfold BeatSt.slot
  split <;> rfl

theorem BeatSt.degraded_slot (x : BeatSt) : x.slot.degraded = x.degraded := by
  unfold BeatSt.slot
  split <;> rfl

theorem BeatSt.missRun_slot_ne {x : BeatSt} (h : x.good = true ∨ x.missRun < 3) : x.slot.missRun ≠ 4 := by
  by_cases hg : x.good = true
  · simp [BeatSt.slot_good hg]
  · rw [BeatSt.slot_missed (eq_false_of_ne_true hg)]
    have hm := h.resolve_left hg
    dsimp only
    omega

namespace State

/-- A state with its registers and the start of the take-back timer put back to those of another. -/
def timerBack (s t : State) : State := { t with regs := s.regs, tbFrom := s.tbFrom }

/-- A state with all that the end of a slot may alter put back to that of another. -/
def slotsBack (s t : State) : State :=
  { t with regs := s.regs, beats := s.beats, slotsLost := s.slotsLost, beatNums := s.beatNums, tbFrom := s.tbFrom }

theorem slotsBack_put (s t : State) (f : Fld) (v : Nat) : s.slotsBack (t.put f v) = s.slotsBack t := rfl

/-- With the take-back timer left running, it need not be put back. -/
theorem frame_of_slotsBack {s t : State} (h : s.slotsBack t = s) (htb : t.tbFrom = s.tbFrom) :
    { t with regs := s.regs, beats := s.beats, slotsLost := s.slotsLost, beatNums := s.beatNums } = s := by
  rw [slotsBack, ← htb] at h
  exact h

section
variable (s : State) (i : Nat) (cnt : Fld)

theorem timerBack_slotMissed (t : State) : s.timerBack (t.slotMissed i cnt) = s.timerBack t := by
  unfold slotMissed
  split <;> rfl

theorem slotMissed_heard {s : State} {i : Nat} (h : (s.beat i).good = true) : s.slotMissed i cnt = s := if_pos h

theorem clk_slotMissed : (s.slotMissed i cnt).clk = s.clk := by
  unfold slotMissed
  split <;> rfl

theorem beats_slotMissed : (s.slotMissed i cnt).beats = s.beats := by
  unfold slotMissed
  split <;> rfl

theorem beatNums_slotMissed : (s.slotMissed i cnt).beatNums = s.beatNums := by
  unfold slotMissed
  split <;> rfl

theorem beat_slotMissed (k : Nat) : (s.slotMissed i cnt).beat k = s.beat k := by
  rw [beat, beat, beats_slotMissed]

theorem tbFrom_slotMissed : (s.slotMissed i cnt).tbFrom = if (s.beat i).good then s.tbFrom else s.clk := by
  unfold slotMissed
  split <;> rfl

theorem slotMissed_regsBut : s.RegsBut (s.slotMissed i cnt) [cnt.addr] := by
  unfold slotMissed
  split
  · exact RegsBut.refl s _
  · exact ((RegsBut.refl s _).put _ List.mem_cons_self).same rfl

theorem fld_slotMissed_self {cnt : Fld} (h : cnt.lsb + cnt.wid ≤ 32) :
    (s.slotMissed i cnt).fld cnt = (s.fld cnt + bitN (!(s.beat i).good)) % 2 ^ cnt.wid := by
  unfold slotMissed
  split
  · next hg => simp [hg, bitN, fld, Nat.mod_eq_of_lt (bits_lt _ _ _)]
  · next hg =>
    rw [eq_false_of_ne_true hg]
    exact fld_inc_self s h

end

/-- The misses of the slot that ends, counted. -/
def missesCounted (s : State) (frm : Plane) : State :=
  (s.slotMissed (beatIx frm .fabric) RED_BEAT_MISS_FAB_CNT_VAL).slotMissed (beatIx frm .side) RED_BEAT_MISS_SIDE_CNT_VAL

/-- A state with the lists that the end of a slot writes. -/
def withSlots (s : State) (beats : List BeatSt) (lost nums : List Nat) : State :=
  { s with beats := beats, slotsLost := lost, beatNums := nums }

theorem withSlots_regs (s : State) (beats : List BeatSt) (lost nums : List Nat) : (s.withSlots beats lost nums).regs = s.regs := rfl

theorem withSlots_tbFrom (s : State) (beats : List BeatSt) (lost nums : List Nat) : (s.withSlots beats lost nums).tbFrom = s.tbFrom := rfl

/-- The run of lost slots and the number of the next beat, noted. -/
def slotClosed (s : State) (frm : Plane) (lost num : Nat) : State :=
  { s with slotsLost := s.slotsLost.set (planeNum frm) lost, beatNums := s.beatNums.set (planeNum frm) num }

/-- A slot that has ended, before the paths and the plane are judged. -/
def slotEnded (s : State) (frm : Plane) : State :=
  ((((s.missesCounted frm).setBeat (beatIx frm .fabric) (s.beat (beatIx frm .fabric)).slot).setBeat (beatIx frm .side)
    (s.beat (beatIx frm .side)).slot).setBeat (beatIx frm .arbiter) (s.beat (beatIx frm .arbiter)).slot).slotClosed frm
      (s.lostRun frm) ((s.beatNum frm + 1) % 65536)

section
variable (s : State) (beats : List BeatSt) (lost nums : List Nat)

theorem setBeat_eq_withSlots (i : Nat) (x : BeatSt) : s.setBeat i x = s.withSlots (s.beats.set i x) s.slotsLost s.beatNums := rfl

theorem setBeat_withSlots (i : Nat) (x : BeatSt) :
    (s.withSlots beats lost nums).setBeat i x = s.withSlots (beats.set i x) lost nums := rfl

theorem slotClosed_withSlots (frm : Plane) (run num : Nat) : (s.withSlots beats lost nums).slotClosed frm run num =
    s.withSlots beats (lost.set (planeNum frm) run) (nums.set (planeNum frm) num) := rfl

end

theorem slotEnded_eq (s : State) (frm : Plane) : s.slotEnded frm = (s.missesCounted frm).withSlots
    ((((s.missesCounted frm).beats.set (beatIx frm .fabric) (s.beat (beatIx frm .fabric)).slot).set (beatIx frm .side)
      (s.beat (beatIx frm .side)).slot).set (beatIx frm .arbiter) (s.beat (beatIx frm .arbiter)).slot)
    ((s.missesCounted frm).slotsLost.set (planeNum frm) (s.lostRun frm))
    ((s.missesCounted frm).beatNums.set (planeNum frm) ((s.beatNum frm + 1) % 65536)) := by
  rw [slotEnded, setBeat_eq_withSlots (s.missesCounted frm), setBeat_withSlots, setBeat_withSlots, slotClosed_withSlots]

theorem exec_beatSlot_lost {s : State} {frm : Plane} (h : s.lostRun frm = 4) :
    exec (.beatSlot frm) s = .next ((s.slotEnded frm).declareFailed frm 1) := congrArg Host.Outcome.next (if_pos h)

theorem exec_beatSlot_judged {s : State} {frm : Plane} (h : s.lostRun frm ≠ 4) : exec (.beatSlot frm) s =
    .next (((s.slotEnded frm).degrade (beatIx frm .fabric) (beatIx frm .side)).degrade (beatIx frm .side) (beatIx frm .fabric)) :=
  congrArg Host.Outcome.next (if_neg h)

section
variable (s : State) (frm : Plane)

theorem timerBack_missesCounted : s.timerBack (s.missesCounted frm) = s :=
  (s.timerBack_slotMissed _ _ _).trans (s.timerBack_slotMissed _ _ _)

theorem tbFrom_missesCounted : (s.missesCounted frm).tbFrom =
    if (s.beat (beatIx frm .fabric)).good && (s.beat (beatIx frm .side)).good then s.tbFrom else s.clk := by
  rw [missesCounted, tbFrom_slotMissed, tbFrom_slotMissed, clk_slotMissed, beat_slotMissed]
  cases (s.beat (beatIx frm .fabric)).good <;> cases (s.beat (beatIx frm .side)).good <;> rfl

theorem missesCounted_regsBut : s.RegsBut (s.missesCounted frm) [rRED_BEAT_MISS_FAB_CNT, rRED_BEAT_MISS_SIDE_CNT] :=
  ((s.slotMissed_regsBut _ _).mono (by decide)).trans ((slotMissed_regsBut _ _ _).mono (by decide))

theorem slotEnded_regs : (s.slotEnded frm).regs = (s.missesCounted frm).regs := by
  rw [slotEnded_eq, withSlots_regs]

theorem slotEnded_regsBut : s.RegsBut (s.slotEnded frm) [rRED_BEAT_MISS_FAB_CNT, rRED_BEAT_MISS_SIDE_CNT] :=
  (s.missesCounted_regsBut frm).same (s.slotEnded_regs frm)

theorem slotEnded_regsBut_of_side {s : State} {frm : Plane} (hd : (s.beat (beatIx frm .side)).good = true) :
    s.RegsBut (s.slotEnded frm) [rRED_BEAT_MISS_FAB_CNT] := by
  have hcounted : s.missesCounted frm = s.slotMissed (beatIx frm .fabric) RED_BEAT_MISS_FAB_CNT_VAL :=
    slotMissed_heard _ ((congrArg BeatSt.good (s.beat_slotMissed _ _ _)).trans hd)
  exact (s.slotMissed_regsBut _ _).same ((s.slotEnded_regs frm).trans (congrArg regs hcounted))

theorem slotEnded_regs_of_heard {s : State} {frm : Plane} (hf : (s.beat (beatIx frm .fabric)).good = true)
    (hd : (s.beat (beatIx frm .side)).good = true) : (s.slotEnded frm).regs = s.regs := by
  rw [slotEnded_regs, missesCounted, slotMissed_heard _ hf, slotMissed_heard _ hd]

theorem fld_slotEnded_fabric : (s.slotEnded frm).fld RED_BEAT_MISS_FAB_CNT_VAL =
    (s.fld RED_BEAT_MISS_FAB_CNT_VAL + bitN (!(s.beat (beatIx frm .fabric)).good)) % 2 ^ 32 := by
  rw [fld_congr (s.slotEnded_regs frm), missesCounted, (slotMissed_regsBut _ _ _).fld (by decide)]
  exact s.fld_slotMissed_self _ (by decide)

theorem fld_slotEnded_side : (s.slotEnded frm).fld RED_BEAT_MISS_SIDE_CNT_VAL =
    (s.fld RED_BEAT_MISS_SIDE_CNT_VAL + bitN (!(s.beat (beatIx frm .side)).good)) % 2 ^ 32 := by
  rw [fld_congr (s.slotEnded_regs frm), missesCounted, fld_slotMissed_self _ _ (by decide), beat_slotMissed,
    (slotMissed_regsBut _ _ _).fld (by decide)]
  rfl

theorem slotsBack_withSlots (t : State) (beats : List BeatSt) (lost nums : List Nat) :
    s.slotsBack (t.withSlots beats lost nums) = (s.timerBack t).withSlots s.beats s.slotsLost s.beatNums := rfl

theorem slotsBack_slotEnded : s.slotsBack (s.slotEnded frm) = s := by
  rw [slotEnded_eq, slotsBack_withSlots, timerBack_missesCounted]
  rfl

theorem tbFrom_slotEnded : (s.slotEnded frm).tbFrom =
    if (s.beat (beatIx frm .fabric)).good && (s.beat (beatIx frm .side)).good then s.tbFrom else s.clk := by
  rw [slotEnded_eq, withSlots_tbFrom, tbFrom_missesCounted]

end

section
variable {s : State} {frm : Plane}

theorem beats_slotEnded : (s.slotEnded frm).beats =
    ((s.beats.set (beatIx frm .fabric) (s.beat (beatIx frm .fabric)).slot).set (beatIx frm .side)
      (s.beat (beatIx frm .side)).slot).set (beatIx frm .arbiter) (s.beat (beatIx frm .arbiter)).slot := by
  have hbeats : (s.missesCounted frm).beats = s.beats := by rw [missesCounted, beats_slotMissed, beats_slotMissed]
  rw [slotEnded_eq, withSlots, hbeats]

theorem beat_slotEnded (hl : s.beats.length = 6) (p : BeatPath) :
    (s.slotEnded frm).beat (beatIx frm p) = (s.beat (beatIx frm p)).slot := by
  rw [beat, beats_slotEnded]
  cases frm <;> cases p <;> simp [beatIx, planeNum, hl]

theorem length_slotEnded (hl : s.beats.length = 6) : (s.slotEnded frm).beats.length = 6 := by
  simp [beats_slotEnded, hl]

theorem beatNum_slotEnded (hl : s.beatNums.length = 2) : (s.slotEnded frm).beatNum frm = (s.beatNum frm + 1) % 65536 := by
  have hnums : (s.missesCounted frm).beatNums = s.beatNums := by rw [missesCounted, beatNums_slotMissed, beatNums_slotMissed]
  rw [beatNum, slotEnded_eq, withSlots, hnums]
  cases frm <;> simp [planeNum, hl]

/-- What four slots without a beat make of a supervised plane. -/
theorem lostRun_four (hs : s.supervised frm = true) (hg : ∀ p, (s.beat (beatIx frm p)).good = false)
    (h3 : s.slotsLost[planeNum frm]? = some 3) : s.lostRun frm = 4 := by
  simp [lostRun, hs, hg, h3]

theorem lostRun_heard {p : BeatPath} (h : (s.beat (beatIx frm p)).good = true) : s.lostRun frm = 0 := by
  refine if_pos ?_
  cases p <;> simp [h]

end

/-! ## Paths judged (R325) -/

/-- A path found degraded or well, shown and reported. -/
def judged (s : State) (i : Nat) (deg : Bool) (ev : Fld) : State :=
  ((s.setBeat i { s.beat i with degraded := deg }).showDeg).setFlag ev

section
variable {s : State} {i other : Nat}

theorem degrade_lost (hd : (s.beat i).degraded = false) (hm : (s.beat i).missRun = 4) (ho : (s.beat other).missRun < 4) :
    s.degrade i other = s.judged i true RED_EVT_PATH_DEG := if_pos ⟨hd, hm, ho⟩

theorem degrade_recovered (hd : (s.beat i).degraded = true) (hg : (s.beat i).goodRun = 128) :
    s.degrade i other = s.judged i false RED_EVT_PATH_OK := by
  unfold degrade
  exact (if_neg (by simp [hd])).trans (if_pos ⟨hd, hg⟩)

theorem degrade_unchanged (hd : (s.beat i).degraded = false) (hm : (s.beat i).missRun ≠ 4) : s.degrade i other = s := by
  unfold degrade
  exact (if_neg (by simp [hm])).trans (if_neg (by simp [hd]))

end

section
variable (s : State) (i : Nat) (deg : Bool) {ev : Fld}

theorem judged_onlyRegs (he : ev.addr = rRED_EVT) :
    (s.setBeat i { s.beat i with degraded := deg }).OnlyRegs (s.judged i deg ev) [rRED_STATUS, rRED_EVT] :=
  (((OnlyRegs.refl _ _).put _ (by decide)).put _ (by decide)).put _ (by rw [he]; decide)

theorem judged_regsBut (he : ev.addr = rRED_EVT) : s.RegsBut (s.judged i deg ev) [rRED_STATUS, rRED_EVT] :=
  (s.judged_onlyRegs i deg he).regs

theorem slotsBack_judged (t : State) (ev : Fld) : s.slotsBack (t.judged i deg ev) = s.slotsBack t := by
  rw [judged, setFlag_eq, slotsBack_put, showDeg, slotsBack_put, slotsBack_put]
  rfl

theorem tbFrom_judged (ev : Fld) : (s.judged i deg ev).tbFrom = s.tbFrom := by
  rw [judged, setFlag_eq, put_tbFrom, showDeg, put_tbFrom, put_tbFrom]
  rfl

theorem beat_judged_ne {k : Nat} (h : k ≠ i) : (s.judged i deg ev).beat k = s.beat k := beat_setBeat_ne s h _

theorem beat_judged_self {s : State} {i : Nat} (h : i < s.beats.length) :
    (s.judged i deg ev).beat i = { s.beat i with degraded := deg } :=
  beat_setBeat_self h _

theorem flag_judged_event (hl : ev.lsb + ev.wid ≤ 32) (hw : ev.wid = 1) : (s.judged i deg ev).flag ev = true := by
  rw [judged, setFlag_eq, flag_put_self _ _ _ hl, hw]
  rfl

theorem flag_judged_fabric {s : State} {frm : Plane} (hl : s.beats.length = 6) (he : ev.addr = rRED_EVT) :
    (s.judged (beatIx frm .fabric) true ev).flag RED_STATUS_FABRIC_DEG = true := by
  have hshown : ∀ t : State, t.showDeg.flag RED_STATUS_FABRIC_DEG = ((t.beat 0).degraded || (t.beat 2).degraded) := fun t => by
    rw [showDeg, flag_put_beside _ _ (by decide) (by decide), flag_put_bitN _ (by decide) rfl]
  have hself := beat_setBeat_self (hl ▸ beatIx_lt frm .fabric) { s.beat (beatIx frm .fabric) with degraded := true }
  rw [judged, setFlag_eq, flag_put_addr _ _ (by rw [he]; decide), hshown]
  cases frm with
  | A => exact (congrArg (fun x : BeatSt => x.degraded || _) hself).trans (Bool.true_or _)
  | B => exact (congrArg (fun x : BeatSt => _ || x.degraded) hself).trans (Bool.or_true _)

end
end State

end Sys2Proof.Machine
end

section
/-! PROOFS. Beats and slots judge the paths of a plane: O40. -/

namespace Sys2Proof.Machine

/-! ## The three ways in which a slot's paths are judged (R325) -/

namespace State

section
variable {s : State} {frm : Plane} (hl : s.beats.length = 6)
include hl

theorem exec_beatSlot_quiet {good : BeatPath → Bool} (hg : ∀ p, (s.beat (beatIx frm p)).good = good p) (h4 : s.lostRun frm ≠ 4)
    (hq : ∀ p, p ≠ .arbiter → (s.beat (beatIx frm p)).degraded = false ∧ (good p = true ∨ (s.beat (beatIx frm p)).missRun < 3)) :
    exec (.beatSlot frm) s = .next (s.slotEnded frm) := by
  have hkeep : ∀ p q, p ≠ .arbiter → (s.slotEnded frm).degrade (beatIx frm p) (beatIx frm q) = s.slotEnded frm := fun p q hp => by
    obtain ⟨hdeg, hrun⟩ := hq p hp
    rw [← hg p] at hrun
    refine degrade_unchanged ?_ ?_
    · rw [beat_slotEnded hl, BeatSt.degraded_slot, hdeg]
    · rw [beat_slotEnded hl]
      exact BeatSt.missRun_slot_ne hrun
  rw [exec_beatSlot_judged h4, hkeep .fabric .side (by decide), hkeep .side .fabric (by decide)]

/-- A path whose fourth slot running was missed while the other delivers. -/
theorem exec_beatSlot_degrades (hf : (s.beat (beatIx frm .fabric)).good = false) (hd : (s.beat (beatIx frm .side)).good = true)
    (h3 : (s.beat (beatIx frm .fabric)).missRun = 3) (hfd : (s.beat (beatIx frm .fabric)).degraded = false)
    (hdd : (s.beat (beatIx frm .side)).degraded = false) :
    exec (.beatSlot frm) s = .next ((s.slotEnded frm).judged (beatIx frm .fabric) true RED_EVT_PATH_DEG) := by
  have hne : beatIx frm .side ≠ beatIx frm .fabric := (beatIx_side_ne frm).2
  have hside : (s.slotEnded frm).beat (beatIx frm .side) = _ := (beat_slotEnded hl .side).trans (BeatSt.slot_good hd)
  have hfab : (s.slotEnded frm).beat (beatIx frm .fabric) = _ := (beat_slotEnded hl .fabric).trans (BeatSt.slot_missed hf)
  rw [exec_beatSlot_judged (by rw [lostRun_heard hd]; decide), degrade_lost (i := beatIx frm .fabric), degrade_unchanged]
  · rw [beat_judged_ne _ _ _ hne, hside, hdd]
  · rw [beat_judged_ne _ _ _ hne, hside]
    exact Nat.zero_ne_add_one 3
  · rw [hfab, hfd]
  · rw [hfab]
    simp [h3]
  · rw [hside]
    exact Nat.zero_lt_succ 3

/-- A degraded path with its 128th good beat running. -/
theorem exec_beatSlot_recovers (hf : (s.beat (beatIx frm .fabric)).good = true) (hd : (s.beat (beatIx frm .side)).good = true)
    (hdd : (s.beat (beatIx frm .side)).degraded = true) (h127 : (s.beat (beatIx frm .side)).goodRun = 127)
    (hfd : (s.beat (beatIx frm .fabric)).degraded = false) :
    exec (.beatSlot frm) s = .next ((s.slotEnded frm).judged (beatIx frm .side) false RED_EVT_PATH_OK) := by
  have hside : (s.slotEnded frm).beat (beatIx frm .side) = _ := (beat_slotEnded hl .side).trans (BeatSt.slot_good hd)
  have hfab : (s.slotEnded frm).beat (beatIx frm .fabric) = _ := (beat_slotEnded hl .fabric).trans (BeatSt.slot_good hf)
  rw [exec_beatSlot_judged (by rw [lostRun_heard hd]; decide), degrade_unchanged (i := beatIx frm .fabric), degrade_recovered]
  · rw [hside, hdd]
  · rw [hside]
    simp [h127]
  · rw [hfab, hfd]
  · rw [hfab]
    exact Nat.zero_ne_add_one 3

end
end State

/-- Settles O40: a beat by who hears it, the end of a slot by how its paths are judged. -/
theorem beatsJudgeThePaths : Obligations.BeatsJudgeThePaths := by
  unfold Obligations.BeatsJudgeThePaths
  intro s frm path bs hl hnums _
  refine ⟨fun hn => ⟨s.beatSound_beatSent frm, State.beatNumOf_beatSent hn, s.beatFatal_beatSent frm⟩,
    State.exec_beatArrival_ignored (.inl rfl), fun h => State.exec_beatArrival_ignored (.inr h), fun h => ?_, fun good hg h4 hq => ?_,
    fun hf hd h3 hfd hdd => ?_, fun hf hd hdd h127 hfd => ?_, fun hs hg h3 => ?_⟩
  · refine ⟨_, State.exec_beatArrival_sound h, fun i hi => ?_, fun i hi hside => ?_, s.heard_frame frm path _⟩
    · rw [State.beat_heard_of_hearsAt hl hi]
      exact ⟨BeatSt.take_following, BeatSt.take_stray⟩
    · refine State.beat_heard_of_not_hearsAt ?_ _
      rintro (hpath | ⟨hp, harb⟩)
      · exact hi hpath
      · exact hside.elim (fun hne => hne hp) (fun hne => hne harb)
  · refine ⟨_, State.exec_beatSlot_quiet hl hg h4 hq, fun p => ?_, State.beatNum_slotEnded hnums, ?_, ?_, ?_, s.slotsBack_slotEnded frm,
      s.slotEnded_regsBut frm⟩
    · rw [State.beat_slotEnded hl, ← hg p]
      refine ⟨BeatSt.good_slot _, fun hp => ?_, fun hp => ?_⟩
      · rw [BeatSt.slot_good hp]
        exact ⟨rfl, rfl, rfl⟩
      · rw [BeatSt.slot_missed hp]
        exact ⟨rfl, rfl, rfl⟩
    · rw [State.fld_slotEnded_fabric, hg]
    · rw [State.fld_slotEnded_side, hg]
    · rw [State.tbFrom_slotEnded, hg, hg]
  · have hregs := (s.slotEnded frm).judged_regsBut (beatIx frm .fabric) true (ev := RED_EVT_PATH_DEG) rfl
    refine ⟨_, State.exec_beatSlot_degrades hl hf hd h3 hfd hdd, State.flag_judged_fabric (State.length_slotEnded hl) rfl,
      State.flag_judged_event _ _ _ (by decide) rfl, ?_, ?_,
      (s.slotsBack_judged _ _ _ _).trans (s.slotsBack_slotEnded frm),
      ((State.slotEnded_regsBut_of_side hd).mono (by decide)).trans (hregs.mono (by decide))⟩
    · rw [State.beat_judged_self _ (Nat.lt_of_lt_of_eq (State.beatIx_lt frm .fabric) (State.length_slotEnded hl).symm)]
    · rw [hregs.fld (by decide), State.fld_slotEnded_fabric, hf]
      rfl
  · have hregs := (s.slotEnded frm).judged_regsBut (beatIx frm .side) false (ev := RED_EVT_PATH_OK) rfl
    refine ⟨_, State.exec_beatSlot_recovers hl hf hd hdd h127 hfd, ?_, State.flag_judged_event _ _ _ (by decide) rfl,
      State.frame_of_slotsBack ((s.slotsBack_judged _ _ _ _).trans (s.slotsBack_slotEnded frm)) ?_,
      (State.RegsBut.of_regs _ (State.slotEnded_regs_of_heard hf hd)).trans hregs⟩
    · rw [State.beat_judged_self _ (Nat.lt_of_lt_of_eq (State.beatIx_lt frm .side) (State.length_slotEnded hl).symm)]
    · rw [State.tbFrom_judged, State.tbFrom_slotEnded, hf, hd]
      rfl
  · refine ⟨_, State.exec_beatSlot_lost (State.lostRun_four hs hg h3), fun p => ?_, ?_, ?_, s.slotsBack_slotEnded frm⟩
    · rw [State.beat_slotEnded hl, BeatSt.slot_missed (hg p)]
    · rw [State.fld_slotEnded_fabric, hg]
      rfl
    · rw [State.fld_slotEnded_side, hg]
      rfl

end Sys2Proof.Machine
end

section
/-! SUPPORT. A plane's condition changes, LEAD changes, and a plane is handed over (R18, R64, R128, R149, R335). -/

namespace Sys2Proof.Machine

/-! ## Conditions of a plane -/

theorem Cond.code_lt (c : Cond) : c.code < 2 ^ 3 := by cases c <;> decide

namespace State

theorem condFld_addr (pl : Plane) : (condFld pl).addr = rGLB_DEVSTATE := by cases pl <;> rfl

theorem condFld_fits (pl : Plane) : (condFld pl).lsb + (condFld pl).wid ≤ 32 := by cases pl <;> decide

theorem condFld_wid (pl : Plane) : (condFld pl).wid = 3 := by cases pl <;> rfl

theorem condFld_ne_safe (pl : Plane) : condFld pl ≠ GLB_DEVSTATE_SAFE := by cases pl <;> decide

theorem isCond_congr {s t : State} {pl : Plane} (h : t.fld (condFld pl) = s.fld (condFld pl)) (c : Cond) :
    t.isCond pl c = s.isCond pl c := congrArg (· == c.code) h

/-- A plane is in one condition at a time. -/
theorem isCond_unique {s : State} {pl : Plane} {c d : Cond} (h : s.isCond pl c = true) (hd : c.code ≠ d.code) :
    s.isCond pl d = false := by
  rw [isCond, beq_iff_eq.mp (h : (s.fld (condFld pl) == c.code) = true)]
  exact beq_false_of_ne hd

theorem RegsBut.isCond {s t : State} {as : List Nat} (h : s.RegsBut t as) (ha : rGLB_DEVSTATE ∉ as) (pl : Plane) (c : Cond) :
    t.isCond pl c = s.isCond pl c := isCond_congr (h.fld (by rwa [condFld_addr])) c

section
variable (s : State) {f : Fld} (v : Nat)

theorem putDev_frame (f : Fld) : { s.putDev f v with regs := s.regs, pulses := s.pulses, tbFrom := s.tbFrom } = s := by
  unfold putDev
  split
  · rfl
  · split <;> rfl

theorem putDev_regsBut (f : Fld) : s.RegsBut (s.putDev f v) [f.addr] := by
  have hput : s.RegsBut (s.put f v) [f.addr] := (RegsBut.refl s _).put _ List.mem_cons_self
  unfold putDev
  split
  · exact RegsBut.refl s _
  · split
    · exact hput.pulse 0
    · exact (hput.same rfl).pulse 0

theorem fld_putDev_self {v : Nat} (hf : f.lsb + f.wid ≤ 32) (hv : v < 2 ^ f.wid) : (s.putDev f v).fld f = v := by
  have hput : (s.put f v).fld f = v := (fld_put_self s f v hf).trans (Nat.mod_eq_of_lt hv)
  unfold putDev
  split
  · assumption
  · split <;> exact hput

theorem fld_putDev_apart {g : Fld} (hg : g.lsb + g.wid ≤ 32) (h : apart f g) : (s.putDev f v).fld g = s.fld g := by
  have hput : (s.put f v).fld g = s.fld g := fld_put_apart s v hg h
  unfold putDev
  split
  · rfl
  · split <;> exact hput

end

section
variable (s : State) (pl : Plane) (c : Cond)

theorem isCond_setCond : (s.setCond pl c).isCond pl c = true :=
  beq_iff_eq.mpr (s.fld_putDev_self (condFld_fits pl) (by rw [condFld_wid]; exact Cond.code_lt c))

theorem setCond_regsBut : s.RegsBut (s.setCond pl c) [rGLB_DEVSTATE] := condFld_addr pl ▸ s.putDev_regsBut c.code (condFld pl)

theorem setCond_frame : { s.setCond pl c with regs := s.regs, pulses := s.pulses, tbFrom := s.tbFrom } = s := s.putDev_frame _ _

theorem setCond_raises {s : State} {pl : Plane} {c : Cond} (h : s.isCond pl c = false) :
    0 ∈ (s.setCond pl c).pulses ∧ (s.setCond pl c).tbFrom = s.clk := by
  rw [setCond, putDev_of_ne (ne_of_beq_false h) (condFld_ne_safe pl)]
  exact ⟨mem_pulse _ 0, rfl⟩

end

/-! ## A plane becomes LEAD (R18, R128, R149) -/

/-- The registers that a change of LEAD may write. -/
def leadRegs : List Nat :=
  [rGLB_DEVSTATE, rPRS_EXC_LEVEL .A, rPRS_EXC_LEVEL .B, rTBL_LEARN_Q_DROP_CNT .A, rTBL_LEARN_Q_DROP_CNT .B]

/-- LEAD moved with the bucket of the exception limiter. -/
def leadMoved (s : State) (pl : Plane) : State :=
  (s.put (PRS_EXC_LEVEL_TOKENS pl) (s.fld (PRS_EXC_LEVEL_TOKENS s.lead))).putDev GLB_DEVSTATE_LEAD (planeNum pl)

/-- A state with what a change of LEAD may alter put back. -/
def leadBack (s t : State) : State :=
  { t with regs := s.regs, pulses := s.pulses, tbFrom := s.tbFrom, flaps := s.flaps, planeA := s.planeA, planeB := s.planeB }

/-- No learning event waits and the tracker is clear (R149). -/
def learnCleared (s : State) : State :=
  { s with
    flaps := []
    planeA := { s.planeA with learnQ := [] }
    planeB := { s.planeB with learnQ := [] } }

section
variable (s : State) (pl : Plane)

theorem plane_learnCleared : s.learnCleared.plane pl = { s.plane pl with learnQ := [] } := by cases pl <;> rfl

theorem leadFlush_onlyRegs : s.learnCleared.OnlyRegs s.leadFlush [rTBL_LEARN_Q_DROP_CNT .A, rTBL_LEARN_Q_DROP_CNT .B] := by
  have hcounter : ∀ y, (TBL_LEARN_Q_DROP_CNT_VAL y).addr ∈ [rTBL_LEARN_Q_DROP_CNT .A, rTBL_LEARN_Q_DROP_CNT .B] := fun y => by
    cases y <;> decide
  unfold leadFlush
  change s.learnCleared.OnlyRegs (if _ = 0 then s.learnCleared else s.learnCleared.addCnt _ _) _
  split
  · exact OnlyRegs.refl _ _
  · exact (OnlyRegs.refl _ _).put _ (hcounter _)

theorem leadFlush_regsBut : s.RegsBut s.leadFlush [rTBL_LEARN_Q_DROP_CNT .A, rTBL_LEARN_Q_DROP_CNT .B] :=
  s.leadFlush_onlyRegs.regs

theorem plane_leadFlush : s.leadFlush.plane pl = { s.plane pl with learnQ := [] } :=
  (s.leadFlush_onlyRegs.same (f := fun t => t.plane pl) fun _ _ => by cases pl <;> rfl).trans (s.plane_learnCleared pl)

theorem leadFlush_pulses : s.leadFlush.pulses = s.pulses := s.leadFlush_onlyRegs.same (f := pulses) fun _ _ => rfl

theorem leadBack_learnCleared (t : State) : s.leadBack t.learnCleared = s.leadBack t := rfl

theorem leadBack_leadFlush (t : State) : s.leadBack t.leadFlush = s.leadBack t :=
  (t.leadFlush_onlyRegs.same (f := s.leadBack) fun _ _ => rfl).trans (s.leadBack_learnCleared t)

theorem leadBack_put (t : State) (f : Fld) (v : Nat) : s.leadBack (t.put f v) = s.leadBack t := rfl

theorem leadBack_putDev (t : State) (f : Fld) (v : Nat) : s.leadBack (t.putDev f v) = s.leadBack t := by
  unfold putDev
  split
  · rfl
  · split <;> rfl

theorem plane_putDev (f : Fld) (v : Nat) : (s.putDev f v).plane pl = s.plane pl := by
  unfold putDev
  split
  · rfl
  · split <;> cases pl <;> rfl

theorem plane_put (f : Fld) (v : Nat) : (s.put f v).plane pl = s.plane pl := by
  cases pl with
  | A => exact put_planeA s f v
  | B => exact put_planeB s f v

theorem plane_leadMoved (x : Plane) : (s.leadMoved pl).plane x = s.plane x := by
  rw [leadMoved, plane_putDev, plane_put]

theorem leadMoved_regsBut : s.RegsBut (s.leadMoved pl) [rGLB_DEVSTATE, rPRS_EXC_LEVEL .A, rPRS_EXC_LEVEL .B] :=
  ((RegsBut.refl s _).put _ (by cases pl <;> decide)).trans ((putDev_regsBut _ _ _).mono (by decide))

theorem planeNum_lt : planeNum pl < 2 ^ 1 := by cases pl <;> decide

theorem planeOf_planeNum : planeOf (planeNum pl) = pl := by cases pl <;> rfl

theorem lead_leadMoved : (s.leadMoved pl).lead = pl :=
  (congrArg planeOf (fld_putDev_self _ (by decide) (planeNum_lt pl))).trans (planeOf_planeNum pl)

theorem fld_leadMoved_of_devstate {g : Fld} (hg : g.lsb + g.wid ≤ 32) (ha : g.addr = rGLB_DEVSTATE)
    (h : g.lsb + g.wid ≤ 8 ∨ 9 ≤ g.lsb) : (s.leadMoved pl).fld g = s.fld g := by
  rw [leadMoved, fld_putDev_apart (f := GLB_DEVSTATE_LEAD) _ _ hg (.inr h.symm), fld_put_addr]
  rw [ha]
  cases pl <;> decide

end

section
variable {s : State} {pl : Plane}

theorem makeLead_of_lead (h : s.lead = pl) : s.makeLead pl = s := if_pos h

theorem makeLead_of_ne (h : s.lead ≠ pl) : s.makeLead pl = (s.leadMoved pl).leadFlush := if_neg h

variable (s pl)

theorem makeLead_regsBut : s.RegsBut (s.makeLead pl) leadRegs := by
  by_cases h : s.lead = pl
  · rw [makeLead_of_lead h]
    exact RegsBut.refl s _
  · rw [makeLead_of_ne h]
    exact ((s.leadMoved_regsBut pl).mono (by decide)).trans ((leadFlush_regsBut _).mono (by decide))

theorem leadBack_makeLead : s.leadBack (s.makeLead pl) = s := by
  by_cases h : s.lead = pl
  · rw [makeLead_of_lead h]
    rfl
  · rw [makeLead_of_ne h, leadBack_leadFlush, leadMoved, leadBack_putDev, leadBack_put]
    rfl

theorem fld_leadFlush_of_devstate {g : Fld} (ha : g.addr = rGLB_DEVSTATE) : s.leadFlush.fld g = s.fld g :=
  s.leadFlush_regsBut.fld (by rw [ha]; decide)

theorem lead_makeLead : (s.makeLead pl).lead = pl := by
  by_cases h : s.lead = pl
  · rwa [makeLead_of_lead h]
  · rw [makeLead_of_ne h, lead, fld_leadFlush_of_devstate _ rfl]
    exact s.lead_leadMoved pl

theorem isCond_makeLead (x : Plane) (c : Cond) : (s.makeLead pl).isCond x c = s.isCond x c := by
  by_cases h : s.lead = pl
  · rw [makeLead_of_lead h]
  · refine isCond_congr ?_ c
    rw [makeLead_of_ne h, fld_leadFlush_of_devstate _ (condFld_addr x),
      fld_leadMoved_of_devstate _ _ (condFld_fits x) (condFld_addr x) (by cases x <;> decide)]

theorem handing_makeLead (x : Plane) : ((s.makeLead pl).plane x).handing = (s.plane x).handing := by
  by_cases h : s.lead = pl
  · rw [makeLead_of_lead h]
  · rw [makeLead_of_ne h, plane_leadFlush, plane_leadMoved]

/-- A change of LEAD empties both queues of learning events and is reported. -/
theorem makeLead_reports {s : State} {pl : Plane} (h : s.lead ≠ pl) : (s.makeLead pl).planeA.learnQ = [] ∧
    (s.makeLead pl).planeB.learnQ = [] ∧ 0 ∈ (s.makeLead pl).pulses := by
  rw [makeLead_of_ne h]
  refine ⟨congrArg PlaneSt.learnQ (plane_leadFlush _ .A), congrArg PlaneSt.learnQ (plane_leadFlush _ .B), ?_⟩
  have hne : (s.put (PRS_EXC_LEVEL_TOKENS pl) (s.fld (PRS_EXC_LEVEL_TOKENS s.lead))).fld GLB_DEVSTATE_LEAD ≠ planeNum pl := by
    rw [fld_put_addr _ _ (by cases pl <;> decide)]
    intro hsame
    exact h ((congrArg planeOf hsame).trans (planeOf_planeNum pl))
  rw [leadFlush_pulses, leadMoved, putDev_of_ne hne (by decide)]
  exact mem_pulse _ 0

end

/-! ## A plane handed over (R64) -/

/-- What a value of the state is after steps that each keep it. -/
theorem foldl_same {α β : Type} {f : State → α → State} (g : State → β) {l : List α} (h : ∀ s, ∀ x ∈ l, g (f s x) = g s)
    (s : State) : g (l.foldl f s) = g s := List.foldlRecOn l f (motive := fun t => g t = g s) rfl fun t ht x hx => (h t x hx).trans ht

/-- A state with the planes and the record of the buckets put back. -/
def framesBack (s t : State) : State := { t with planeA := s.planeA, planeB := s.planeB, dm := s.dm }

section
variable (s t : State)

theorem framesBack_setPlane (pl : Plane) (p : PlaneSt) : s.framesBack (t.setPlane pl p) = s.framesBack t := by cases pl <;> rfl

theorem framesBack_unhold (pl : Plane) (p : Nat) (l : List Frame) : s.framesBack (t.unhold pl p l) = s.framesBack t := by
  refine foldl_same s.framesBack (fun u c _ => ?_) t
  dsimp only
  split
  · rfl
  · exact s.framesBack_setPlane u _ _

theorem framesBack_ctxRelease (c : Nat) : s.framesBack (t.ctxRelease c) = s.framesBack t :=
  foldl_same s.framesBack (fun u _ _ => s.framesBack_unhold u _ _ _) t

theorem framesBack_endContexts : s.framesBack t.endContexts = s.framesBack t := by
  refine foldl_same s.framesBack (fun u c _ => ?_) t
  split
  · exact s.framesBack_ctxRelease u c
  · rfl

end

/-- A plane begins to hand over: its contexts have ended. -/
def handoverBegun (s : State) (pl : Plane) : State :=
  s.endContexts.setPlane pl { s.endContexts.plane pl with handing := true }

theorem framesBack_handoverBegun (s : State) (pl : Plane) : s.framesBack (s.handoverBegun pl) = s :=
  (s.framesBack_setPlane _ _ _).trans (s.framesBack_endContexts s)

theorem regs_handoverBegun (s : State) (pl : Plane) : (s.handoverBegun pl).regs = s.regs :=
  (congrArg regs (s.framesBack_handoverBegun pl) :)

theorem handing_handoverBegun (s : State) (pl : Plane) : ((s.handoverBegun pl).plane pl).handing = true := by
  rw [handoverBegun, plane_setPlane_self]

theorem handOver_drains {s : State} {pl : Plane} (h : s.fld CHT_SWAP_DRAIN_DRAIN_US ≠ 0) :
    s.handOver pl = ((s.handoverBegun pl).makeLead (twinOf pl)).bucketsTo (twinOf pl) true := if_neg h

section
variable {s : State} {pl : Plane} (h : s.fld CHT_SWAP_DRAIN_DRAIN_US ≠ 0)
include h

theorem handOver_regsBut : s.RegsBut (s.handOver pl) leadRegs := by
  rw [handOver_drains h]
  exact (RegsBut.of_regs _ (s.regs_handoverBegun pl)).trans ((makeLead_regsBut _ _).same rfl)

theorem handOver_redBusy : (s.handOver pl).redBusy = s.redBusy := by
  rw [handOver_drains h]
  have hlead : ((s.handoverBegun pl).makeLead (twinOf pl)).redBusy = (s.handoverBegun pl).redBusy :=
    (congrArg redBusy (leadBack_makeLead (s.handoverBegun pl) (twinOf pl)) :)
  exact hlead.trans (congrArg redBusy (s.framesBack_handoverBegun pl) :)

theorem handOver_lead : (s.handOver pl).lead = twinOf pl := by
  rw [handOver_drains h]
  exact lead_makeLead _ _

theorem handOver_handing : ((s.handOver pl).plane pl).handing = true := by
  have hplane : ∀ t : State, (t.bucketsTo (twinOf pl) true).plane pl = t.plane pl := fun t => by cases pl <;> rfl
  rw [handOver_drains h, hplane, handing_makeLead, handing_handoverBegun]

theorem handOver_home : (s.handOver pl).dm.home0 = twinOf pl := by
  rw [handOver_drains h]
  rfl

theorem handOver_isCond (x : Plane) (c : Cond) : (s.handOver pl).isCond x c = s.isCond x c := by
  rw [handOver_drains h]
  exact (isCond_makeLead _ _ x c).trans (isCond_congr (fld_congr (s.regs_handoverBegun pl) _) c)

end
end State

end Sys2Proof.Machine
end

section
/-! SUPPORT. The commands of RED_CTL, and how a test, a rebuild and a resynchronisation end (R328 to R331, R333). -/

namespace Sys2Proof.Machine
namespace State

/-! ## A command of RED_CTL begins and ends (R328) -/

section
variable {s : State} (hr : s.reaches .mc rRED_CTL) (act : State → State)
include hr

theorem redCommand_busy (hb : s.swapBusy = true ∨ s.redBusy ≠ none) : s.redCommand .mc act = s.put RED_CTL_RESULT rdBUSY :=
  (mcOnly_mc hr _ _ _).trans (if_pos (hb.imp_right Option.isSome_iff_ne_none.mpr))

theorem redCommand_acts (hswap : s.swapBusy = false) (hred : s.redBusy = none) : s.redCommand .mc act = act s :=
  (mcOnly_mc hr _ _ _).trans (if_neg (by simp [hswap, hred]))

end

theorem exec_redCommand (s : State) {pl : Plane} {c : Instr}
    (hc : c ∈ [Instr.redIsolate .mc pl, .redTest .mc pl, .redRejoin .mc pl, .redPromote .mc pl]) :
    ∃ act, exec c s = .next (s.redCommand .mc act) := by
  simp only [List.mem_cons, List.not_mem_nil, or_false] at hc
  rcases hc with rfl | rfl | rfl | rfl
  · exact ⟨fun s => s.redIsolate pl, rfl⟩
  · exact ⟨fun s => s.redTest pl, rfl⟩
  · exact ⟨fun s => s.redRejoin pl, rfl⟩
  · exact ⟨fun s => s.redPromote pl, rfl⟩

/-- A state with the registers and the plane command in progress put back to those of another. -/
def redBack (s t : State) : State := { t with regs := s.regs, redBusy := s.redBusy }

theorem redBack_put (s t : State) (f : Fld) (v : Nat) : s.redBack (t.put f v) = s.redBack t := rfl

theorem redBack_redStart (s t : State) (b : RedBusy) : s.redBack (t.redStart b) = s.redBack t := rfl

/-- A state with what a command that changes a plane's condition writes put back to that of another. -/
def condBack (s t : State) : State := { t with regs := s.regs, pulses := s.pulses, tbFrom := s.tbFrom, redBusy := s.redBusy }

theorem condBack_put (s t : State) (f : Fld) (v : Nat) : s.condBack (t.put f v) = s.condBack t := rfl

theorem condBack_redEnd (s t : State) (code : Nat) : s.condBack (t.redEnd code) = s.condBack t := by
  rw [redEnd, setFlag_eq, condBack_put, condBack_put]
  rfl

theorem condBack_setCond (s t : State) (pl : Plane) (c : Cond) : s.condBack (t.setCond pl c) = s.condBack t := by
  unfold setCond putDev
  split
  · rfl
  · split <;> rfl

/-- RESULT alone is written. -/
theorem redResult_only (s : State) {n : Nat} (hn : n < 16) :
    (s.put RED_CTL_RESULT n).fld RED_CTL_RESULT = n ∧ s.OnlyRegs (s.put RED_CTL_RESULT n) [rRED_CTL] :=
  ⟨(fld_put_self _ _ _ (by decide)).trans (Nat.mod_eq_of_lt hn), (OnlyRegs.refl s _).put _ List.mem_cons_self⟩

theorem redStart_regsBut (s : State) (b : RedBusy) : s.RegsBut (s.redStart b) [rRED_CTL] :=
  RegsBut.put (RegsBut.of_regs _ rfl) _ List.mem_cons_self

theorem fld_redStart (s : State) (b : RedBusy) : (s.redStart b).fld RED_CTL_RESULT = 1 := fld_put_self _ _ _ (by decide)

theorem plane_redEnd (s : State) (code : Nat) (pl : Plane) : (s.redEnd code).plane pl = s.plane pl := by cases pl <;> rfl

theorem redEnd_regsBut (s : State) (code : Nat) : s.RegsBut (s.redEnd code) [rRED_CTL, rRED_EVT] :=
  ((RegsBut.of_regs _ rfl).put _ (by decide)).put _ (by decide)

theorem redEnd_done (s : State) : (s.redEnd rdDONE).redBusy = none ∧ (s.redEnd rdDONE).fld RED_CTL_RESULT = 2 ∧
    (s.redEnd rdDONE).flag RED_EVT_CMD_DONE = true :=
  ⟨rfl, (fld_put_addr _ _ (by decide)).trans (fld_put_self _ _ _ (by decide)), flag_put_self _ _ _ (by decide)⟩

/-! ## ISOLATE, TEST, REJOIN and PROMOTE (R329 to R331, R335) -/

section
variable {s : State} {pl : Plane}

theorem redIsolate_failed (h : s.isCond pl .failed = true) : s.redIsolate pl = (s.setCond pl .isolated).redEnd rdDONE := if_pos h

theorem redIsolate_notReady (hs : s.isCond pl .inService = false) (hf : s.isCond pl .failed = false) :
    s.redIsolate pl = s.put RED_CTL_RESULT rdNOTREADY :=
  (if_neg (by simp [hf])).trans (if_neg (by simp [hs]))

theorem redIsolate_failed_shows (h : s.isCond pl .failed = true) : ∃ t, s.redIsolate pl = t ∧ t.isCond pl .isolated = true ∧
    t.fld RED_CTL_RESULT = 2 ∧ t.flag RED_EVT_CMD_DONE = true ∧ t.redBusy = none ∧
    0 ∈ t.pulses ∧ t.tbFrom = s.clk ∧ s.RegsBut t [rGLB_DEVSTATE, rRED_CTL, rRED_EVT] ∧
    { t with regs := s.regs, pulses := s.pulses, tbFrom := s.tbFrom, redBusy := s.redBusy } = s := by
  have hregs := (s.setCond pl .isolated).redEnd_regsBut rdDONE
  obtain ⟨hbusy, hresult, hevent⟩ := (s.setCond pl .isolated).redEnd_done
  obtain ⟨hpulse, htimer⟩ := setCond_raises (isCond_unique h (by decide : Cond.failed.code ≠ Cond.isolated.code))
  exact ⟨_, redIsolate_failed h, (hregs.isCond (by decide) pl _).trans (s.isCond_setCond pl _), hresult, hevent, hbusy, hpulse, htimer,
    ((s.setCond_regsBut pl _).mono (by decide)).trans (hregs.mono (by decide)),
    (s.condBack_redEnd _ _).trans (s.condBack_setCond s pl _)⟩

theorem redIsolate_drains (hs : s.isCond pl .inService = true) (ht : s.isCond (twinOf pl) .inService = true)
    (hstate : s.inState .run = true ∨ s.inState .test = true) (hdrain : s.fld CHT_SWAP_DRAIN_DRAIN_US ≠ 0) :
    s.redIsolate pl = (s.redStart (.isolate pl)).handOver pl := by
  have hstart : (s.redStart (.isolate pl)).fld CHT_SWAP_DRAIN_DRAIN_US ≠ 0 := by
    rwa [(s.redStart_regsBut _).fld (by decide)]
  refine (if_neg ?_).trans ((if_pos ⟨hs, ht, hstate⟩).trans (if_pos (handOver_handing hstart)))
  rw [isCond_unique hs (by decide : Cond.inService.code ≠ Cond.failed.code)]
  decide

theorem redIsolate_drains_shows (hs : s.isCond pl .inService = true) (ht : s.isCond (twinOf pl) .inService = true)
    (hstate : s.inState .run = true ∨ s.inState .test = true) (hdrain : s.fld CHT_SWAP_DRAIN_DRAIN_US ≠ 0) :
    ∃ t, s.redIsolate pl = t ∧ t.redBusy = some (.isolate pl) ∧ t.fld RED_CTL_RESULT = 1 ∧ t.lead = twinOf pl ∧
      (t.plane pl).handing = true ∧ t.dm.home0 = twinOf pl ∧ t.isCond pl .inService = true := by
  have hregs := s.redStart_regsBut (.isolate pl)
  have hstart : (s.redStart (.isolate pl)).fld CHT_SWAP_DRAIN_DRAIN_US ≠ 0 := by rwa [hregs.fld (by decide)]
  exact ⟨_, redIsolate_drains hs ht hstate hdrain, handOver_redBusy hstart,
    ((handOver_regsBut hstart).fld (by decide)).trans (s.fld_redStart _), handOver_lead hstart, handOver_handing hstart,
    handOver_home hstart, (handOver_isCond hstart pl _).trans ((hregs.isCond (by decide) pl _).trans hs)⟩

theorem redTest_starts (hc : s.isCond pl .isolated = true) (ht : s.inState .test = true) : s.redTest pl =
    ((s.redStart (.test pl)).put RED_TEST_DONE 0).put RED_TEST_PLANE (planeNum pl) := if_pos ⟨hc, ht⟩

theorem redTest_notReady (h : s.isCond pl .isolated = false ∨ s.inState .test = false) :
    s.redTest pl = s.put RED_CTL_RESULT rdNOTREADY := if_neg (by rcases h with h | h <;> simp [h])

theorem redTest_starts_shows (hc : s.isCond pl .isolated = true) (ht : s.inState .test = true) : ∃ t, s.redTest pl = t ∧
    t.redBusy = some (.test pl) ∧ t.fld RED_CTL_RESULT = 1 ∧ t.flag RED_TEST_DONE = false ∧ t.fld RED_TEST_PLANE = planeNum pl ∧
    { t with regs := s.regs, redBusy := s.redBusy } = s ∧ s.RegsBut t [rRED_CTL, rRED_TEST] := by
  refine ⟨_, redTest_starts hc ht, rfl, ?_, ?_, ?_, ?_, (((s.redStart_regsBut _).mono (by decide)).put _ (by decide)).put _ (by decide)⟩
  · rw [fld_put_addr _ _ (by decide), fld_put_addr _ _ (by decide), fld_redStart]
  · rw [flag_put_beside _ _ (by decide) (by decide), flag_put_self _ _ _ (by decide)]
    rfl
  · exact (fld_put_self _ _ _ (by decide)).trans (Nat.mod_eq_of_lt (planeNum_lt pl))
  · exact (s.redBack_put _ _ _).trans ((s.redBack_put _ _ _).trans (s.redBack_redStart s _))

theorem redRejoin_starts (h : s.isCond pl .isolated = true) : s.redRejoin pl = s.redStart (.rebuild pl) := if_pos h

theorem redRejoin_notReady (h : s.isCond pl .isolated = false) : s.redRejoin pl = s.put RED_CTL_RESULT rdNOTREADY :=
  if_neg (by simp [h])

theorem redPromote_leads (hs : s.isCond pl .inService = true) (hl : s.lead ≠ pl) : s.redPromote pl = (s.makeLead pl).redEnd rdDONE :=
  if_pos ⟨hs, hl⟩

theorem redPromote_notReady (h : s.isCond pl .inService = false ∨ s.lead = pl) :
    s.redPromote pl = s.put RED_CTL_RESULT rdNOTREADY := if_neg (by rcases h with h | h <;> simp [h])

theorem redPromote_leads_shows (hs : s.isCond pl .inService = true) (hl : s.lead ≠ pl) : ∃ t, s.redPromote pl = t ∧ t.lead = pl ∧
    t.planeA.learnQ = [] ∧ t.planeB.learnQ = [] ∧ t.fld RED_CTL_RESULT = 2 ∧ t.flag RED_EVT_CMD_DONE = true ∧ 0 ∈ t.pulses := by
  obtain ⟨hqa, hqb, hpulse⟩ := makeLead_reports hl
  obtain ⟨-, hresult, hevent⟩ := (s.makeLead pl).redEnd_done
  have hlead : ((s.makeLead pl).redEnd rdDONE).lead = pl :=
    (congrArg planeOf ((redEnd_regsBut _ _).fld (by decide))).trans (s.lead_makeLead pl)
  exact ⟨_, redPromote_leads hs hl, hlead, hqa, hqb, hresult, hevent, hpulse⟩

end

/-! ## The end of a test (R330) -/

/-- A test without faults, shown. -/
def testShown (s : State) (ok : Bool) : State := ((s.put RED_TEST_FAULTS 0).put RED_TEST_PASS (bitN ok)).put RED_TEST_DONE 1

theorem testShown_shows (s : State) (ok : Bool) : (s.testShown ok).flag RED_TEST_DONE = true ∧
    (s.testShown ok).flag RED_TEST_PASS = ok ∧ (s.testShown ok).fld RED_TEST_FAULTS = 0 := by
  refine ⟨flag_put_self _ _ _ (by decide), ?_, ?_⟩
  · rw [testShown, flag_put_beside _ _ (by decide) (by decide), flag_put_bitN _ (by decide) rfl]
  · rw [testShown, fld_put_beside _ _ (by decide) (by decide), fld_put_beside _ _ (by decide) (by decide),
      fld_put_self _ _ _ (by decide)]
    rfl

theorem testShown_regsBut (s : State) (ok : Bool) : s.RegsBut (s.testShown ok) [rRED_TEST] :=
  (((RegsBut.refl s _).put _ (by decide)).put _ (by decide)).put _ (by decide)

theorem redTested_sound {s : State} {pl : Plane} (h : s.redBusy = some (.test pl)) (ok : Bool) :
    s.redTested ok [] = (s.testShown ok).redEnd rdDONE := by
  rw [redTested, h]
  rfl

theorem redTested_sound_shows {s : State} {pl : Plane} (h : s.redBusy = some (.test pl)) (ok : Bool) :
    ∃ t, s.redTested ok [] = t ∧ t.flag RED_TEST_DONE = true ∧ t.flag RED_TEST_PASS = ok ∧ t.fld RED_TEST_FAULTS = 0 ∧
    t.redBusy = none ∧ t.fld RED_CTL_RESULT = 2 ∧ t.flag RED_EVT_CMD_DONE = true ∧ s.RegsBut t [rRED_TEST, rRED_CTL, rRED_EVT] := by
  have hregs := (s.testShown ok).redEnd_regsBut rdDONE
  obtain ⟨hbusy, hresult, hevent⟩ := (s.testShown ok).redEnd_done
  obtain ⟨hdone, hpass, hfaults⟩ := s.testShown_shows ok
  have hflag : ∀ f : Fld, f.addr = rRED_TEST → ((s.testShown ok).redEnd rdDONE).fld f = (s.testShown ok).fld f := fun f hf =>
    hregs.fld (by rw [hf]; decide)
  exact ⟨_, redTested_sound h ok, (congrArg (· == 1) (hflag _ rfl)).trans hdone, (congrArg (· == 1) (hflag _ rfl)).trans hpass,
    (hflag _ rfl).trans hfaults, hbusy, hresult, hevent,
    ((s.testShown_regsBut ok).mono (by decide)).trans (hregs.mono (by decide))⟩

/-! ## A plane rebuilt and resynchronised (R331, R333) -/

theorem reg_put_block {s : State} {f : Fld} {v a n : Nat} (ha : a / 0x100000 ≠ n) (hf : f.addr / 0x100000 = n) :
    (s.put f v).reg a = s.reg a := reg_put_ne s f v fun h => ha (h ▸ hf)

theorem limitRegs_block (pl : Plane) {c : Nat} (hc : c < 8) :
    rBPM_RESLIM_TC pl c / 0x100000 = 0xA ∧ rBPM_QLIMIT_TC pl c / 0x100000 = 0xA := by
  cases pl <;> simp only [rBPM_RESLIM_TC, rBPM_QLIMIT_TC, half] <;> omega

theorem poolRegs_block (pl : Plane) {p : Nat} (hp : p < 4) : rBPM_POOL_FREE pl p / 0x100000 = 0xA ∧
    rBPM_POOL_CFG pl p / 0x100000 = 0xA ∧ rBPM_POOL_RSV pl p / 0x100000 = 0xA ∧ rBPM_POOL_BASE pl p / 0x100000 = 0xA ∧
    rBPM_POOL_MINFREE pl p / 0x100000 = 0xA := by
  cases pl <;> simp only [rBPM_POOL_FREE, rBPM_POOL_CFG, rBPM_POOL_RSV, rBPM_POOL_BASE, rBPM_POOL_MINFREE, half] <;> omega

section
variable (s : State) (pl : Plane)

/-- The division of the pools writes registers of the buffer memory only. -/
theorem reg_loadPools (img : Mem) {a : Nat} (ha : a / 0x100000 ≠ 0xA) : (s.loadPools pl img).reg a = s.reg a := by
  refine (foldl_same (fun t => t.reg a) (fun t c hc => ?_) _).trans (foldl_same (fun t => t.reg a) (fun t p hp => ?_) s)
  · obtain ⟨hres, hq⟩ := limitRegs_block pl (List.mem_range.mp hc)
    rw [reg_put_block ha hq, reg_put_block ha hres]
  · obtain ⟨herr, hcfg, hrsv, hbase, hmin⟩ := poolRegs_block pl (List.mem_range.mp hp)
    rw [reg_put_block ha hmin, reg_put_block ha hbase, reg_put_block ha hrsv, reg_put_block ha hcfg, reg_put_block ha hcfg,
      reg_put_block ha herr]

theorem isCond_layPlane (img : Mem) (x : Plane) (c : Cond) : (s.layPlane pl img).isCond x c = s.isCond x c := by
  refine isCond_congr ?_ c
  rw [fld, layPlane, reg_loadPools _ _ _ (by rw [condFld_addr]; decide), setPlane_reg]
  rfl

theorem plane_copySnares (x : Plane) : (s.copySnares pl).plane x = s.plane x := by
  rw [copySnares]
  exact foldl_same (fun t => t.plane x) (fun t _ _ => t.plane_put x _ _) s

theorem cloneTables_copies : ((s.cloneTables pl).plane pl).lpm =
      (s.plane (twinOf pl)).lpm.filter (fun c => !(s.plane (twinOf pl)).badUnits.contains c.1) ∧
    ((s.cloneTables pl).plane pl).frags = (s.plane (twinOf pl)).frags := by
  rw [cloneTables, plane_copySnares, plane_setPlane_self]
  exact ⟨rfl, rfl⟩

/-- The plane serves with the tables of its twin, and the command has ended. -/
def rejoined (s : State) (pl : Plane) : State := ((s.cloneTables pl).setCond pl .inService).redEnd rdDONE

theorem rejoined_shows : (s.rejoined pl).isCond pl .inService = true ∧ (s.rejoined pl).redBusy = none ∧
    (s.rejoined pl).fld RED_CTL_RESULT = 2 ∧ (s.rejoined pl).flag RED_EVT_CMD_DONE = true ∧
    ((s.rejoined pl).plane pl).lpm = (s.plane (twinOf pl)).lpm.filter (fun c => !(s.plane (twinOf pl)).badUnits.contains c.1) ∧
    ((s.rejoined pl).plane pl).frags = (s.plane (twinOf pl)).frags := by
  obtain ⟨hbusy, hresult, hevent⟩ := ((s.cloneTables pl).setCond pl .inService).redEnd_done
  obtain ⟨hlpm, hfrags⟩ := s.cloneTables_copies pl
  have hplane : (s.rejoined pl).plane pl = (s.cloneTables pl).plane pl :=
    (plane_redEnd _ _ _).trans (plane_putDev _ _ _ _)
  exact ⟨((redEnd_regsBut _ _).isCond (by decide) pl _).trans (isCond_setCond _ pl _), hbusy, hresult, hevent,
    (congrArg PlaneSt.lpm hplane).trans hlpm, (congrArg PlaneSt.frags hplane).trans hfrags⟩

end

/-- What RESYNC starts from. -/
theorem enterResync_shows (s : State) (pl : Plane) : (s.enterResync pl).isCond pl .resync = true ∧
    (s.enterResync pl).resyncCopied = false ∧ (s.enterResync pl).resyncPos = 0 :=
  ⟨isCond_setCond _ pl _, congrArg resyncCopied (setCond_frame _ pl _), congrArg resyncPos (setCond_frame _ pl _)⟩

/-- A plane command in progress. -/
def withRedBusy (s : State) (b : RedBusy) : State := { s with redBusy := some b }

theorem withRedBusy_shows (s : State) (b : RedBusy) : (∀ pl c, (s.withRedBusy b).isCond pl c = s.isCond pl c) ∧
    (s.withRedBusy b).redBusy = some b ∧ (s.withRedBusy b).resyncCopied = s.resyncCopied ∧
    (s.withRedBusy b).resyncPos = s.resyncPos := ⟨fun _ _ => rfl, rfl, rfl, rfl⟩

section
variable {s : State} {pl : Plane} (ht : s.isCond (twinOf pl) .inService = true)
include ht

theorem rebuilt_beside_twin : s.rebuilt pl = (s.layPlane pl s.active).enterResync pl :=
  if_pos ((s.isCond_layPlane pl s.active _ _).trans ht)

theorem exec_rejoinRebuildDone_resyncs (h : s.redBusy = some (.rebuild pl)) : exec .rejoinRebuildDone s =
    .next (((s.layPlane pl s.active).enterResync pl).withRedBusy (.resync pl)) := by
  change execRejoinRebuildDone s = _
  have hresync : (s.rebuilt pl).isCond pl .resync = true := by
    rw [rebuilt_beside_twin ht]
    exact (enterResync_shows _ pl).1
  rw [execRejoinRebuildDone, h, ← rebuilt_beside_twin ht]
  exact congrArg Host.Outcome.next (if_pos hresync)

theorem exec_rejoinResyncDone_serves (h : s.redBusy = some (.resync pl)) : exec .rejoinResyncDone s =
    .next (s.rejoined pl) := by
  change execRejoinResyncDone s = _
  rw [execRejoinResyncDone, h]
  exact congrArg (fun t : State => Host.Outcome.next (t.redEnd rdDONE)) (if_pos ht)

end

/-- No step of a plane command is due while none is in progress. -/
theorem exec_planeStep_idle {s : State} (h : s.redBusy = none) (ok : Bool) : exec (.redTestDone ok []) s = .next s ∧
    exec .rejoinRebuildDone s = .next s ∧ exec .rejoinResyncDone s = .next s := by
  change execRedTestDone ok [] s = _ ∧ execRejoinRebuildDone s = _ ∧ execRejoinResyncDone s = _
  rw [execRedTestDone, redTested, execRejoinRebuildDone, execRejoinResyncDone, h]
  exact ⟨rfl, rfl, rfl⟩

end State

end Sys2Proof.Machine
end

section
/-! PROOFS. The take-back timer and the reset timers of recovery, and what the planes leave and return by (R317, R318, R335): O41. -/

namespace Sys2Proof.Machine
namespace State

/-! ## LEAD returns (R335) -/

/-- LEAD taken back by the preferred plane, counted and reported. -/
def takenBack (s : State) (pl : Plane) : State := ((s.makeLead pl).inc RED_TAKEBACK_CNT_VAL).setFlag RED_EVT_TAKEBACK

section
variable {s : State} {pl : Plane}

theorem exec_takebackExpire_returns (h : s.takeback = some pl) (hd : s.takebackDue = true) : exec (.takebackExpire false) s =
    .next (s.takenBack pl) := by
  change execTakebackExpire s false = _
  rw [execTakebackExpire, h]
  exact congrArg Host.Outcome.next ((if_neg (by simp [hd])).trans (if_neg Bool.false_ne_true))

theorem exec_takebackExpire_tie (h : s.takeback = some pl) (hd : s.takebackDue = true) : exec (.takebackExpire true) s =
    .next s.takebackFromNow := by
  change execTakebackExpire s true = _
  rw [execTakebackExpire, h]
  exact congrArg Host.Outcome.next ((if_neg (by simp [hd])).trans (if_pos rfl))

theorem exec_takebackExpire_idle (h : s.takeback = none ∨ s.takebackDue = false) (tie : Bool) :
    exec (.takebackExpire tie) s = .next s := by
  change execTakebackExpire s tie = _
  unfold execTakebackExpire
  split
  · next y hy => exact congrArg Host.Outcome.next (if_pos (h.resolve_left (by simp [hy])))
  · rfl

variable (s pl)

theorem takenBack_shows : (s.takenBack pl).lead = pl ∧ (s.takenBack pl).flag RED_EVT_TAKEBACK = true ∧
    (s.takenBack pl).fld RED_TAKEBACK_CNT_VAL = (s.fld RED_TAKEBACK_CNT_VAL + 1) % 2 ^ 32 := by
  have hregs : (s.makeLead pl).RegsBut (s.takenBack pl) [rRED_TAKEBACK_CNT, rRED_EVT] :=
    ((RegsBut.refl _ _).put _ (by decide)).put _ (by decide)
  refine ⟨(congrArg planeOf (hregs.fld (by decide))).trans (s.lead_makeLead pl), flag_put_self _ _ _ (by decide), ?_⟩
  rw [takenBack, setFlag_eq, fld_put_addr _ _ (by decide), fld_inc_self _ (by decide), (s.makeLead_regsBut pl).fld (by decide)]
  rfl

end

/-! ## Recovery entries forget (R317, R318) -/

section
variable (s : State) (e : Nat) (x : RecSt) (f : Fld)

@[simp] theorem recSt_setRec_self : (s.setRec e x).recSt e = x := tabGet_tabSet_self _ _ _ _

@[simp] theorem regs_setRec : (s.setRec e x).regs = s.regs := rfl

@[simp] theorem fld_setRec : (s.setRec e x).fld f = s.fld f := rfl

@[simp] theorem flag_setRec : (s.setRec e x).flag f = s.flag f := rfl

@[simp] theorem recSt_put (v : Nat) : (s.put f v).recSt e = s.recSt e := rfl

end

/-- A state with the registers and the recovery entries put back to those of another. -/
def recsBack (s t : State) : State := { t with regs := s.regs, recs := s.recs }

theorem recsBack_put (s t : State) (f : Fld) (v : Nat) : s.recsBack (t.put f v) = s.recsBack t := rfl

theorem recsBack_setRec (s t : State) (e : Nat) (x : RecSt) : s.recsBack (t.setRec e x) = s.recsBack t := rfl

section
variable {s : State} {e : Nat}

/-- The entry that takes any number, with its reset timer stopped, counted and reported. -/
def recForgotten (s : State) (e : Nat) : State :=
  (((s.takeAny e).setRec e { (s.takeAny e).recSt e with timer := none }).inc (FRE_REC_RESETS_VAL .A e)).setFlag (FRE_EVT_RESET .A)

theorem exec_frerResetTimer_expires (pl : Plane) (he : e < 2048) (hv : s.flag (FRE_REC_CFG_VALID .A e) = true)
    (ht : s.recTimeout e = true) : exec (.frerResetTimer pl e) s = .next (s.recForgotten e) :=
  congrArg Host.Outcome.next (if_pos ⟨he, hv, ht⟩)

theorem exec_frerResetTimer_idle (pl : Plane) (h : s.flag (FRE_REC_CFG_VALID .A e) = false ∨ s.recTimeout e = false) :
    exec (.frerResetTimer pl e) s = .next s := congrArg Host.Outcome.next (if_neg (by rcases h with h | h <;> simp [h]))

theorem exec_takeAnyWrite (he : e < 2048) {r : Requester} (hr : s.reaches r (rFRE_REC_STATE .A e)) :
    exec (.takeAnyWrite r .A e) s = .next (s.takeAny e) := congrArg Host.Outcome.next ((if_pos he).trans (gated_reaches hr _))

theorem exec_takeAnyWrite_halfB (he : e < 2048) {r : Requester} (hr : s.reaches r (rFRE_REC_STATE .B e)) :
    exec (.takeAnyWrite r .B e) s = .next s := congrArg Host.Outcome.next ((if_pos he).trans (gated_reaches hr _))

variable (s e)

theorem takeAny_shows : (s.takeAny e).flag (FRE_REC_STATE_TAKE_ANY .A e) = true ∧ ((s.takeAny e).recSt e).history = 0 ∧
    (s.takeAny e).fld (FRE_REC_STATE_RECOV_SEQ .A e) = s.fld (FRE_REC_STATE_RECOV_SEQ .A e) ∧
    s.recsBack (s.takeAny e) = s ∧ s.RegsBut (s.takeAny e) [rFRE_REC_STATE .A e] := by
  rw [takeAny, flag_setRec, fld_setRec, recSt_setRec_self, recsBack_setRec, recsBack_put]
  have hput : s.RegsBut (s.put (FRE_REC_STATE_TAKE_ANY .A e) 1) [rFRE_REC_STATE .A e] := (RegsBut.refl s _).put _ List.mem_cons_self
  refine ⟨flag_put_self s (FRE_REC_STATE_TAKE_ANY .A e) 1 (by decide : 31 + 1 ≤ 32), rfl, ?_, rfl, hput.same (regs_setRec _ _ _)⟩
  exact fld_put_beside s 1 (by decide : 0 + 16 ≤ 32) (.inr (by decide : 0 + 16 ≤ 31))

/-- The registers of a recovery entry and the events of its block lie apart. -/
theorem recRegs_apart : rFRE_REC_RESETS .A e ≠ rFRE_REC_STATE .A e ∧ rFRE_EVT .A ≠ rFRE_REC_STATE .A e ∧
    rFRE_EVT .A ≠ rFRE_REC_RESETS .A e := by
  simp only [rFRE_REC_RESETS, rFRE_REC_STATE, rFRE_EVT, half]
  omega

theorem recForgotten_shows : (s.recForgotten e).flag (FRE_REC_STATE_TAKE_ANY .A e) = true ∧ ((s.recForgotten e).recSt e).history = 0 ∧
    ((s.recForgotten e).recSt e).timer = none ∧
    (s.recForgotten e).fld (FRE_REC_RESETS_VAL .A e) = (s.fld (FRE_REC_RESETS_VAL .A e) + 1) % 2 ^ 32 ∧
    (s.recForgotten e).flag (FRE_EVT_RESET .A) = true ∧ s.recsBack (s.recForgotten e) = s ∧
    s.RegsBut (s.recForgotten e) [rFRE_REC_STATE .A e, rFRE_REC_RESETS .A e, rFRE_EVT .A] := by
  obtain ⟨hany, hhistory, -, hback, hregs⟩ := s.takeAny_shows e
  obtain ⟨hcount, hevent, hboth⟩ := recRegs_apart e
  have hlater : (s.takeAny e).RegsBut (s.recForgotten e) [rFRE_REC_RESETS .A e, rFRE_EVT .A] :=
    ((RegsBut.of_regs _ (regs_setRec _ _ _)).put _ List.mem_cons_self).put _ (List.mem_cons_of_mem _ List.mem_cons_self)
  have hrec : (s.recForgotten e).recSt e = { (s.takeAny e).recSt e with timer := none } := by
    rw [recForgotten, setFlag_eq, recSt_put, inc_eq, recSt_put, recSt_setRec_self]
  refine ⟨?_, ?_, ?_, ?_, flag_put_self _ _ _ (by decide), ?_, ?_⟩
  · refine (congrArg (· == 1) (hlater.fld ?_)).trans hany
    simp only [List.mem_cons, List.not_mem_nil, or_false, not_or]
    exact ⟨hcount.symm, hevent.symm⟩
  · rw [hrec]
    exact hhistory
  · rw [hrec]
  · have hsame : (s.takeAny e).fld (FRE_REC_RESETS_VAL .A e) = s.fld (FRE_REC_RESETS_VAL .A e) :=
      hregs.fld (fun h => hcount (List.mem_singleton.mp h))
    rw [recForgotten, setFlag_eq, fld_put_addr _ _ hboth.symm, fld_inc_self _ (by decide : 0 + 32 ≤ 32), fld_setRec, hsame]
    rfl
  · rw [recForgotten, setFlag_eq, recsBack_put, inc_eq, recsBack_put, recsBack_setRec, hback]
  · exact (hregs.mono (by simp)).trans (hlater.mono (by simp))

end

end State

/-- Settles O41: a command by the conditions that it finds, a step by the command in progress, a timer by whether it has run out. -/
theorem planesLeaveAndReturn : Obligations.PlanesLeaveAndReturn := by
  unfold Obligations.PlanesLeaveAndReturn
  refine ⟨fun s pl ok hr => ⟨fun hb c hc => ?_, fun hswap hred => ?_, fun h => ?_, fun h => ?_, fun h ht => ?_, fun h ht => ?_⟩,
    fun s r pl e tie => ⟨fun h hd => ?_, fun h hd => ?_, fun h => ?_, fun he hv ht => ?_, fun h => ?_, fun he hr => ?_,
      fun he hr => ?_⟩⟩
  · obtain ⟨act, hexec⟩ := s.exec_redCommand hc
    exact ⟨_, hexec.trans (congrArg Host.Outcome.next (State.redCommand_busy hr act hb)), s.redResult_only (by decide)⟩
  · have hdoes : ∀ {i : Instr} {act : State → State} {t : State}, exec i s = .next (s.redCommand .mc act) → act s = t →
        exec i s = .next t := fun hi ht => hi.trans (congrArg Host.Outcome.next ((State.redCommand_acts hr _ hswap hred).trans ht))
    refine ⟨fun hf => ?_, fun hs ht hstate hdrain => ?_, fun hs hf => ?_, fun hc ht => ?_, fun h => ?_, fun hc => ?_, fun hc => ?_,
      fun hs hl => ?_, fun h => ?_⟩
    · obtain ⟨t, ht, hshows⟩ := State.redIsolate_failed_shows hf
      exact ⟨t, hdoes rfl ht, hshows⟩
    · obtain ⟨t, ht, hshows⟩ := State.redIsolate_drains_shows hs ht hstate hdrain
      exact ⟨t, hdoes rfl ht, hshows⟩
    · exact ⟨_, hdoes rfl (State.redIsolate_notReady hs hf), s.redResult_only (by decide)⟩
    · obtain ⟨t, ht, hshows⟩ := State.redTest_starts_shows hc ht
      exact ⟨t, hdoes rfl ht, hshows⟩
    · exact ⟨_, hdoes rfl (State.redTest_notReady h), s.redResult_only (by decide)⟩
    · exact ⟨_, hdoes rfl (State.redRejoin_starts hc), rfl, s.fld_redStart _, s.redBack_redStart s _, s.redStart_regsBut _⟩
    · exact ⟨_, hdoes rfl (State.redRejoin_notReady hc), s.redResult_only (by decide)⟩
    · obtain ⟨t, ht, hshows⟩ := State.redPromote_leads_shows hs hl
      exact ⟨t, hdoes rfl ht, hshows⟩
    · exact ⟨_, hdoes rfl (State.redPromote_notReady h), s.redResult_only (by decide)⟩
  · obtain ⟨t, ht, hshows⟩ := State.redTested_sound_shows h ok
    exact ⟨t, congrArg Host.Outcome.next ht, hshows⟩
  · exact State.exec_planeStep_idle h ok
  · obtain ⟨hcond, hcopied, hpos⟩ := (s.layPlane pl s.active).enterResync_shows pl
    obtain ⟨hsame, hbusy, hcopiedSame, hposSame⟩ := ((s.layPlane pl s.active).enterResync pl).withRedBusy_shows (.resync pl)
    exact ⟨_, State.exec_rejoinRebuildDone_resyncs ht h, (hsame pl _).trans hcond, hbusy, hcopiedSame.trans hcopied,
      hposSame.trans hpos⟩
  · exact ⟨_, State.exec_rejoinResyncDone_serves ht h, s.rejoined_shows pl⟩
  · exact ⟨_, State.exec_takebackExpire_returns h hd, s.takenBack_shows pl⟩
  · exact State.exec_takebackExpire_tie h hd
  · exact State.exec_takebackExpire_idle h tie
  · exact ⟨_, State.exec_frerResetTimer_expires pl he hv ht, s.recForgotten_shows e⟩
  · exact State.exec_frerResetTimer_idle pl h
  · exact ⟨_, State.exec_takeAnyWrite he hr, s.takeAny_shows e⟩
  · exact State.exec_takeAnyWrite_halfB he hr

end Sys2Proof.Machine
end

section
/-! SUPPORT. What capture, a frame's discard and the flushing of a port leave of the CAN and LIN channels. -/

namespace Sys2Proof.Machine
namespace State

/-! ## The channels stay the same -/

/-- A register of a CAN or LIN channel lies here. -/
def inChannels (a : Nat) : Prop := 0x1500000 ≤ a ∧ a < 0x1700000

theorem canReg_inChannels {n b : Nat} (hn : n < 32) (hb : 0x1500000 ≤ b ∧ b < 0x1508000) : inChannels (b + 0x8000 * n) := by
  unfold inChannels
  omega

theorem linReg_inChannels {n b : Nat} (hn : n < 16) (hb : 0x1600000 ≤ b ∧ b < 0x1610000) : inChannels (b + 0x10000 * n) := by
  unfold inChannels
  omega

/-- The channels, and their registers, are the same. -/
structure SameChannels (s t : State) : Prop where
  cans : t.cans = s.cans
  lins : t.lins = s.lins
  regs : ∀ a, inChannels a → t.reg a = s.reg a

namespace SameChannels

theorem refl (s : State) : s.SameChannels s := ⟨rfl, rfl, fun _ _ => rfl⟩

variable {s t u : State}

theorem trans (h : s.SameChannels t) (k : t.SameChannels u) : s.SameChannels u :=
  ⟨k.cans.trans h.cans, k.lins.trans h.lins, fun a ha => (k.regs a ha).trans (h.regs a ha)⟩

/-- A change beside the register file and the channels. -/
theorem same (h : s.SameChannels t) (hc : u.cans = t.cans) (hl : u.lins = t.lins) (hr : u.regs = t.regs) : s.SameChannels u :=
  h.trans ⟨hc, hl, fun a _ => RegsBut.of_regs [] hr a (List.not_mem_nil)⟩

theorem put (h : s.SameChannels t) {f : Fld} (v : Nat) (hf : ¬ inChannels f.addr) : s.SameChannels (t.put f v) :=
  h.trans ⟨put_cans t f v, put_lins t f v, fun _ ha => reg_put_ne t f v fun e => hf (e ▸ ha)⟩

theorem inc (h : s.SameChannels t) {f : Fld} (hf : ¬ inChannels f.addr) : s.SameChannels (t.inc f) := h.put _ hf

theorem setFlag (h : s.SameChannels t) {f : Fld} (hf : ¬ inChannels f.addr) : s.SameChannels (t.setFlag f) := h.put _ hf

theorem ite {c : Prop} [Decidable c] (ht : s.SameChannels t) (hu : s.SameChannels u) : s.SameChannels (if c then t else u) := by
  split
  · exact ht
  · exact hu

theorem foldl {α : Type} {f : State → α → State} {l : List α} (hf : ∀ s : State, ∀ x ∈ l, s.SameChannels (f s x)) (s : State) :
    s.SameChannels (l.foldl f s) :=
  List.foldlRecOn l f (motive := fun t => s.SameChannels t) (refl s) fun t ht x hx => ht.trans (hf t x hx)

theorem can (h : s.SameChannels t) (n : Nat) : t.can n = s.can n := congrArg (tabGet CanSt.reset · n) h.cans

theorem lin (h : s.SameChannels t) (n : Nat) : t.lin n = s.lin n := congrArg (tabGet LinSt.reset · n) h.lins

theorem fld (h : s.SameChannels t) {f : Fld} (hf : inChannels f.addr) : t.fld f = s.fld f := by
  rw [State.fld, State.fld, h.regs _ hf]

theorem flag (h : s.SameChannels t) {f : Fld} (hf : inChannels f.addr) : t.flag f = s.flag f := congrArg (· == 1) (h.fld hf)

end SameChannels

/-! ## Capture and release (R178, R194) -/

theorem beyond_channels {a : Nat} (h : 0x1700000 ≤ a) : ¬ inChannels a := fun ha => Nat.not_lt.mpr h ha.2

theorem capRuleCnt_beyond (r : Nat) : ¬ inChannels (rCAP_RULE_CNT r) :=
  beyond_channels (Nat.le_trans (by decide : 0x1700000 ≤ 0x1900108) (Nat.le_add_right _ _))

theorem tnwCap_beyond (tn : Nat) : ¬ inChannels (rTNW_CAP_HEAD tn) ∧ ¬ inChannels (rTNW_CAP_TAIL tn) :=
  ⟨beyond_channels (Nat.le_trans (by decide : 0x1700000 ≤ 0x2000060) (Nat.le_add_right _ _)),
    beyond_channels (Nat.le_trans (by decide : 0x1700000 ≤ 0x2000064) (Nat.le_add_right _ _))⟩

section
variable (s : State)

theorem dmaWrite_sameChannels (tn a : Nat) (bs : List Byte) : s.SameChannels (s.dmaWrite tn a bs) := by
  unfold dmaWrite
  exact .ite ((SameChannels.refl s).same rfl rfl rfl) ((SameChannels.refl s).same rfl rfl rfl)

theorem capCount_sameChannels : s.SameChannels s.capCount := by
  have hrate : ∀ x, s.SameChannels { s with capRate := x } := fun x => (SameChannels.refl s).same rfl rfl rfl
  exact (hrate _).inc (beyond_channels (by decide))

theorem capPut_sameChannels (off : Nat) (bs : List Byte) : s.SameChannels (s.capPut off bs) := by
  unfold capPut
  exact .ite ((SameChannels.refl s).same rfl rfl rfl) ((SameChannels.refl s).same rfl rfl rfl)

theorem capRoom_sameChannels (len : Nat) : s.SameChannels (s.capRoom len) := by
  unfold capRoom
  exact .ite (.refl s) (((SameChannels.refl s).put _ (beyond_channels (by decide))).setFlag (beyond_channels (by decide)))

theorem capRecord_sameChannels (mk : Nat → List Byte) (len : Nat) (rule : Option Nat) :
    s.SameChannels (s.capRecord mk len rule) := by
  have hroom : s.SameChannels (if s.flag CAP_CTL_MODE then s.capRoom len else s) := .ite (s.capRoom_sameChannels len) (.refl s)
  have hhead : ∀ (u : State) off bs v, u.SameChannels ((u.capCount.capPut off bs).put CAP_HEAD_HEAD v) := fun u off bs v =>
    (u.capCount_sameChannels.trans (capPut_sameChannels _ off bs)).put v (beyond_channels (by decide))
  unfold capRecord
  refine .ite ((SameChannels.refl s).inc (beyond_channels (by decide))) ?_
  refine .ite ((hroom.inc (beyond_channels (by decide))).setFlag (beyond_channels (by decide))) ?_
  cases rule with
  | none => exact .ite ((hroom.trans (hhead _ _ _ _)).setFlag (beyond_channels (by decide))) (hroom.trans (hhead _ _ _ _))
  | some r =>
    exact .ite (((hroom.trans (hhead _ _ _ _)).inc (capRuleCnt_beyond r)).setFlag (beyond_channels (by decide)))
      ((hroom.trans (hhead _ _ _ _)).inc (capRuleCnt_beyond r))

theorem capTenant_sameChannels (tn : Nat) (mk : Nat → List Byte) (len rule : Nat) :
    s.SameChannels (s.capTenant tn mk len rule) := by
  obtain ⟨hhead, htail⟩ := tnwCap_beyond tn
  unfold capTenant
  split
  · exact .refl s
  · refine .ite ((SameChannels.refl s).inc (beyond_channels (by decide))) ?_
    refine .ite (((SameChannels.refl s).inc (beyond_channels (by decide))).setFlag (beyond_channels (by decide))) ?_
    have hroom : ∀ (c : Prop) [Decidable c] v,
        s.SameChannels (if c then s else (s.put (TNW_CAP_TAIL_TAIL tn) v).setFlag CAP_EVT_WRAP) := fun c _ v =>
      .ite (.refl s) (((SameChannels.refl s).put v htail).setFlag (beyond_channels (by decide)))
    exact ((((hroom _ _).trans (capCount_sameChannels _)).trans ((dmaWrite_sameChannels _ _ _ _).trans
      (dmaWrite_sameChannels _ _ _ _))).put _ hhead).inc (capRuleCnt_beyond rule)

theorem capture_sameChannels (point pcode port : Nat) (bs : List Byte) (outer : Bool) (reason : Nat) (stream : Option Nat)
    (tc : Nat) (time : List TbTime) :
    s.SameChannels (s.capture point pcode port bs outer reason stream tc time) := by
  unfold capture
  refine .ite (.refl s) ?_
  split
  · exact .refl s
  · have hsample : ∀ t, s.SameChannels { s with capSample := t } := fun t => (SameChannels.refl s).same rfl rfl rfl
    refine .ite (hsample _) (.ite ((hsample _).trans (capRecord_sameChannels _ _ _ _)) ?_)
    split
    · exact (hsample _).trans (capTenant_sameChannels _ _ _ _ _)
    · exact (hsample _).trans (capRecord_sameChannels _ _ _ _)

theorem captureOut_sameChannels (p : Nat) (f : Frame) (out : List Byte) (ts : List TbTime) :
    s.SameChannels (s.captureOut p f out ts) := s.capture_sameChannels _ _ _ _ _ _ _ _ _

theorem setPlane_sameChannels (pl : Plane) (x : PlaneSt) : s.SameChannels (s.setPlane pl x) :=
  (SameChannels.refl s).same (setPlane_cans s pl x) (setPlane_lins s pl x) (setPlane_regs s pl x)

theorem release_sameChannels (f : Frame) : s.SameChannels (s.release f) := by
  have hunmark : s.SameChannels (s.unmark f.plane f.pool f.buf) := (SameChannels.refl s).same rfl rfl rfl
  unfold release freeBuf
  exact .ite hunmark (hunmark.trans (setPlane_sameChannels _ _ _))

theorem drop_sameChannels (f : Frame) (reason : Nat) : s.SameChannels (s.drop f reason) :=
  (s.capture_sameChannels _ _ _ _ _ _ _ _ _).trans (release_sameChannels _ f)

/-! ## A port flushed (R89) -/

/-- A change of the planes and of the migration contexts leaves the channels. -/
theorem SameChannels.of_framesBack {s t : State} (h : s.framesBack t = s) : s.SameChannels t :=
  (SameChannels.refl s).same (congrArg State.cans h :) (congrArg State.lins h :) (congrArg State.regs h :)

theorem consumeMarker_sameChannels (c gen p : Nat) : s.SameChannels (s.consumeMarker c gen p) := by
  have hctx : ∀ (u : State) x, u.SameChannels (u.setCtx c x) := fun u x => (SameChannels.refl u).same rfl rfl rfl
  unfold consumeMarker
  refine .ite ?_ (.refl s)
  split
  · refine .ite ?_ (hctx s _)
    unfold releasePort ctxSettle
    have hreleased : ∀ x pl l, s.SameChannels ((s.setCtx c x).unhold pl p l) := fun x pl l =>
      (hctx s x).trans (.of_framesBack (framesBack_unhold _ _ pl p l))
    exact .ite ((hreleased _ _ _).trans (hctx _ _)) (hreleased _ _ _)
  · exact .refl s

theorem flushEntry_sameChannels (pl : Plane) (p reason : Nat) (e : QEntry) : s.SameChannels (s.flushEntry pl p reason e) := by
  cases e with
  | frame f => exact s.drop_sameChannels f reason
  | placeholder n _ _ => exact s.setPlane_sameChannels pl _
  | marker c g => exact s.consumeMarker_sameChannels c g p

theorem flushQueue_sameChannels (pl : Plane) {q : Nat} (hq : q < 2048) (reason : Nat) :
    s.SameChannels (s.flushQueue pl q reason).1 := by
  have hdeficit : ¬ inChannels (rSCH_QDEFICIT .A q) := by
    simp only [inChannels, rSCH_QDEFICIT, half]
    omega
  have hentries : ∀ x (l : List QEntry), s.SameChannels (l.foldl (fun u e => u.flushEntry pl (q / 8) reason e) (s.setPlane pl x)) :=
    fun x l => (s.setPlane_sameChannels pl x).trans (.foldl (fun u e _ => u.flushEntry_sameChannels pl (q / 8) reason e) _)
  exact .ite (hentries _ _) (((hentries _ _).put _ hdeficit).put _ hdeficit)

theorem flushPort_sameChannels {p : Nat} (hp : p < 256) (reason : Nat) : s.SameChannels (s.flushPort p reason).1 := by
  unfold flushPort
  refine List.foldlRecOn (List.range 16) _ (motive := fun r : State × Nat => s.SameChannels r.1) (.refl s) fun r hr i _ => ?_
  exact hr.trans (flushQueue_sameChannels _ _ (by omega) reason)

theorem dropUnpack_sameChannels (u : Option Unpack) : s.SameChannels (s.dropUnpack u) := by
  cases u with
  | none => exact .refl s
  | some u => exact s.drop_sameChannels u.frame 0x0B

end
end State
end Sys2Proof.Machine
end

section
/-! SUPPORT. The links of CAN and LIN channels: taken down, and up again (R339, R347). -/

namespace Sys2Proof.Machine
namespace State

/-- Two fields of one channel, in different registers or beside each other. -/
theorem apart_channel {a b m n i j k l : Nat} (h : b ≠ a ∨ i + j ≤ k ∨ k + l ≤ i) : apart ⟨a + m * n, i, j⟩ ⟨b + m * n, k, l⟩ :=
  h.imp_left fun hne heq => hne (Nat.add_right_cancel heq)

/-- A field of a channel, read after another field of the channel was written. -/
theorem fld_put_channel (s : State) (v : Nat) {a b m n i j k l : Nat} (hg : k + l ≤ 32) (h : b ≠ a ∨ i + j ≤ k ∨ k + l ≤ i) :
    (s.put ⟨a + m * n, i, j⟩ v).fld ⟨b + m * n, k, l⟩ = s.fld ⟨b + m * n, k, l⟩ := fld_put_apart s v hg (apart_channel h)

theorem flag_put_channel (s : State) (v : Nat) {a b m n i j k l : Nat} (hg : k + l ≤ 32) (h : b ≠ a ∨ i + j ≤ k ∨ k + l ≤ i) :
    (s.put ⟨a + m * n, i, j⟩ v).flag ⟨b + m * n, k, l⟩ = s.flag ⟨b + m * n, k, l⟩ := congrArg (· == 1) (fld_put_channel s v hg h)

theorem flag_put_apart (s : State) {f g : Fld} (v : Nat) (hg : g.lsb + g.wid ≤ 32) (h : apart f g) :
    (s.put f v).flag g = s.flag g := congrArg (· == 1) (fld_put_apart s v hg h)

theorem flag_setFlag_self (s : State) {f : Fld} (hf : f.lsb + f.wid ≤ 32) (hw : f.wid = 1) : (s.setFlag f).flag f = true :=
  s.flag_put_bitN hf hw true

theorem flag_clear_self (s : State) {f : Fld} (hf : f.lsb + f.wid ≤ 32) (hw : f.wid = 1) : (s.put f 0).flag f = false :=
  s.flag_put_bitN hf hw false

@[simp] theorem can_put (s : State) (f : Fld) (v n : Nat) : (s.put f v).can n = s.can n :=
  congrArg (tabGet CanSt.reset · n) (s.put_cans f v)

@[simp] theorem lin_put (s : State) (f : Fld) (v n : Nat) : (s.put f v).lin n = s.lin n :=
  congrArg (tabGet LinSt.reset · n) (s.put_lins f v)

@[simp] theorem fld_setCan (s : State) (n : Nat) (x : CanSt) (f : Fld) : (s.setCan n x).fld f = s.fld f := rfl
@[simp] theorem flag_setCan (s : State) (n : Nat) (x : CanSt) (f : Fld) : (s.setCan n x).flag f = s.flag f := rfl
@[simp] theorem fld_setLin (s : State) (n : Nat) (x : LinSt) (f : Fld) : (s.setLin n x).fld f = s.fld f := rfl
@[simp] theorem flag_setLin (s : State) (n : Nat) (x : LinSt) (f : Fld) : (s.setLin n x).flag f = s.flag f := rfl
@[simp] theorem fld_setPort (s : State) (p : Nat) (x : PortSt) (f : Fld) : (s.setPort p x).fld f = s.fld f := rfl
@[simp] theorem flag_setPort (s : State) (p : Nat) (x : PortSt) (f : Fld) : (s.setPort p x).flag f = s.flag f := rfl

@[simp] theorem can_setCan_self (s : State) (n : Nat) (x : CanSt) : (s.setCan n x).can n = x := tabGet_tabSet_self _ _ _ _

@[simp] theorem lin_setLin_self (s : State) (n : Nat) (x : LinSt) : (s.setLin n x).lin n = x := tabGet_tabSet_self _ _ _ _

/-! ## A link goes down -/

section
variable {s : State} {n : Nat}

theorem linkUp_can (s : State) (hn : n < 32) : s.linkUp (32 + n) = s.flag (CAN_STATUS_LINK n) := by
  unfold linkUp
  rw [if_neg (by omega), if_neg (by omega), if_pos (by omega), Nat.add_sub_cancel_left]

theorem linkUp_lin (s : State) (hn : n < 16) : s.linkUp (64 + n) = s.flag (LIN_STATUS_LINK n) := by
  unfold linkUp
  rw [if_neg (by omega), if_neg (by omega), if_neg (by omega), if_pos (by omega), Nat.add_sub_cancel_left]

theorem setPort_sameChannels (s : State) (p : Nat) (x : PortSt) : s.SameChannels (s.setPort p x) :=
  (SameChannels.refl s).same (setPort_cans s p x) (setPort_lins s p x) (setPort_regs s p x)

theorem startHold_sameChannels (s : State) {p : Nat} (h32 : 32 ≤ p) (h80 : p < 80) : s.SameChannels (s.startHold p) := by
  have hhold : s.holdMs p = 0 := (if_neg (by omega)).trans (if_neg (by omega))
  unfold startHold endHold
  rw [if_pos hhold, if_neg (by omega), if_neg (by omega)]
  exact (s.flushPort_sameChannels (by omega) 0x0A).trans (setPort_sameChannels _ _ _)

/-- A CAN channel shows its link down. -/
def canDownShown (s : State) (n : Nat) : State := (s.put (CAN_STATUS_LINK n) 0).setFlag (CAN_EVT_LINK_DOWN n)

/-- A CAN channel whose link is down: the transmit buffer is empty, and what left it is counted. -/
def canCut (s : State) (n : Nat) : State :=
  ((s.canDownShown n).setCan n { (s.canDownShown n).can n with txbuf := [], chimeDue := none, unpack := none }).addCnt
    (CAN_TX_ABORT_CNT_VAL n) (((s.canDownShown n).can n).txbuf.filter (fun e => e.chime.isNone)).length

theorem can_canDownShown (s : State) (n : Nat) : (s.canDownShown n).can n = s.can n := by
  rw [canDownShown, setFlag_eq, can_put, can_put]

theorem linkDown_can (hn : n < 32) (h : s.linkUp (32 + n) = true) : (s.canCut n).SameChannels (s.linkDown (32 + n)) := by
  unfold linkDown
  rw [if_neg (by simp [h]), if_neg (by omega), if_neg (by omega), if_pos (by omega), Nat.add_sub_cancel_left]
  exact (dropUnpack_sameChannels _ _).trans (startHold_sameChannels _ (by omega) (by omega))

theorem linkDown_of_down {p : Nat} (h : s.linkUp p = false) : s.linkDown p = s := if_pos h

/-- A field that a lost link of its channel does not write. -/
theorem fld_canCut (s : State) {f : Fld} (hf : f.lsb + f.wid ≤ 32) (hlink : apart (CAN_STATUS_LINK n) f)
    (hevent : apart (CAN_EVT_LINK_DOWN n) f) (habort : apart (CAN_TX_ABORT_CNT_VAL n) f) : (s.canCut n).fld f = s.fld f := by
  rw [canCut, addCnt_eq, fld_put_apart _ _ hf habort, fld_setCan, canDownShown, setFlag_eq, fld_put_apart _ _ hf hevent,
    fld_put_apart s _ hf hlink]

theorem fld_linkDown_can (hn : n < 32) {f : Fld} (hf : f.lsb + f.wid ≤ 32) (hin : inChannels f.addr)
    (hlink : apart (CAN_STATUS_LINK n) f) (hevent : apart (CAN_EVT_LINK_DOWN n) f) (habort : apart (CAN_TX_ABORT_CNT_VAL n) f) :
    (s.linkDown (32 + n)).fld f = s.fld f := by
  cases h : s.linkUp (32 + n) with
  | false => rw [linkDown_of_down h]
  | true => exact ((linkDown_can hn h).fld hin).trans (s.fld_canCut hf hlink hevent habort)

theorem linkUp_linkDown_can (s : State) (hn : n < 32) : (s.linkDown (32 + n)).linkUp (32 + n) = false := by
  cases h : s.linkUp (32 + n) with
  | false => rwa [linkDown_of_down h]
  | true =>
    rw [linkUp_can _ hn, (linkDown_can hn h).flag (canReg_inChannels hn (by decide)), canCut, addCnt_eq]
    refine (flag_put_channel _ _ (by decide) (by decide)).trans ?_
    rw [flag_setCan, canDownShown, setFlag_eq]
    exact (flag_put_channel _ _ (by decide) (by decide)).trans (flag_clear_self s (by decide : 31 + 1 ≤ 32) rfl)

theorem can_linkDown_can (hn : n < 32) (h : s.linkUp (32 + n) = true) : (s.linkDown (32 + n)).can n =
    { s.can n with txbuf := [], chimeDue := none, unpack := none } := by
  rw [(linkDown_can hn h).can n, canCut, addCnt_eq, can_put, can_setCan_self, can_canDownShown]

/-- A LIN channel shows its link down. -/
def linDownShown (s : State) (n : Nat) : State := (s.put (LIN_STATUS_LINK n) 0).setFlag (LIN_EVT_LINK_DOWN n)

/-- A LIN channel whose link is down has left what it had on the bus. -/
def linCut (s : State) (n : Nat) : State :=
  (s.linDownShown n).setLin n { (s.linDownShown n).lin n with await := none, due := none, sending := none, unpack := none }

theorem linkDown_lin (hn : n < 16) (h : s.linkUp (64 + n) = true) : (s.linCut n).SameChannels (s.linkDown (64 + n)) := by
  unfold linkDown
  rw [if_neg (by simp [h]), if_neg (by omega), if_neg (by omega), if_neg (by omega), if_pos (by omega), Nat.add_sub_cancel_left]
  exact (dropUnpack_sameChannels _ _).trans (startHold_sameChannels _ (by omega) (by omega))

theorem flag_linkDown_lin (hn : n < 16) {f : Fld} (hf : f.lsb + f.wid ≤ 32) (hin : inChannels f.addr)
    (hlink : apart (LIN_STATUS_LINK n) f) (hevent : apart (LIN_EVT_LINK_DOWN n) f) :
    (s.linkDown (64 + n)).flag f = s.flag f := by
  cases h : s.linkUp (64 + n) with
  | false => rw [linkDown_of_down h]
  | true =>
    rw [(linkDown_lin hn h).flag hin, linCut, flag_setLin, linDownShown, setFlag_eq, flag_put_apart _ _ hf hevent,
      flag_put_apart s _ hf hlink]

theorem linkUp_linkDown_lin (s : State) (hn : n < 16) : (s.linkDown (64 + n)).linkUp (64 + n) = false := by
  cases h : s.linkUp (64 + n) with
  | false => rwa [linkDown_of_down h]
  | true =>
    rw [linkUp_lin _ hn, (linkDown_lin hn h).flag (linReg_inChannels hn (by decide)), linCut, flag_setLin, linDownShown,
      setFlag_eq]
    exact (flag_put_channel _ _ (by decide) (by decide)).trans (flag_clear_self s (by decide : 31 + 1 ≤ 32) rfl)

/-! ## A link comes up -/

/-- The link of a channel comes up when nothing holds it. -/
def upIfFree (s : State) (p : Nat) : State := if s.channelMayUp p then s.linkUpNow p else s

theorem linkUpNow_of_up {p : Nat} (h : s.linkUp p = true) : s.linkUpNow p = s := if_pos h

theorem linkUpNow_can (hn : n < 32) (h : s.linkUp (32 + n) = false) : ∃ x, s.linkUpNow (32 + n) =
    (((s.put (CAN_STATUS_LINK n) 1).put (CAN_STATUS_FROZEN n) 0).setFlag (CAN_EVT_LINK_UP n)).setPort (32 + n) x := by
  unfold linkUpNow
  rw [if_neg (by simp [h]), if_neg (by omega), if_neg (by omega), if_pos (by omega), Nat.add_sub_cancel_left]
  exact ⟨_, rfl⟩

theorem linkUpNow_lin (hn : n < 16) (h : s.linkUp (64 + n) = false) : ∃ x, s.linkUpNow (64 + n) =
    ((s.put (LIN_STATUS_LINK n) 1).setFlag (LIN_EVT_LINK_UP n)).setPort (64 + n) x := by
  unfold linkUpNow
  rw [if_neg (by simp [h]), if_neg (by omega), if_neg (by omega), if_neg (by omega), if_pos (by omega), Nat.add_sub_cancel_left]
  exact ⟨_, rfl⟩

theorem linkUp_linkUpNow_can (s : State) (hn : n < 32) : (s.linkUpNow (32 + n)).linkUp (32 + n) = true := by
  cases h : s.linkUp (32 + n) with
  | true => rwa [linkUpNow_of_up h]
  | false =>
    obtain ⟨x, hx⟩ := linkUpNow_can hn h
    rw [hx, linkUp_can _ hn, flag_setPort]
    exact (flag_put_channel _ _ (by decide) (by decide)).trans
      ((flag_put_channel _ _ (by decide) (by decide)).trans (flag_setFlag_self s (by decide : 31 + 1 ≤ 32) rfl))

theorem linkUp_linkUpNow_lin (s : State) (hn : n < 16) : (s.linkUpNow (64 + n)).linkUp (64 + n) = true := by
  cases h : s.linkUp (64 + n) with
  | true => rwa [linkUpNow_of_up h]
  | false =>
    obtain ⟨x, hx⟩ := linkUpNow_lin hn h
    rw [hx, linkUp_lin _ hn, flag_setPort]
    exact (flag_put_channel _ _ (by decide) (by decide)).trans (flag_setFlag_self s (by decide : 31 + 1 ≤ 32) rfl)

theorem upIfFree_can (s : State) (hn : n < 32) :
    (s.upIfFree (32 + n)).linkUp (32 + n) = true ∨ (s.upIfFree (32 + n)).channelMayUp (32 + n) = false := by
  unfold upIfFree
  cases h : s.channelMayUp (32 + n) with
  | true => exact .inl (s.linkUp_linkUpNow_can hn)
  | false => exact .inr h

theorem upIfFree_lin (s : State) (hn : n < 16) :
    (s.upIfFree (64 + n)).linkUp (64 + n) = true ∨ (s.upIfFree (64 + n)).channelMayUp (64 + n) = false := by
  unfold upIfFree
  cases h : s.channelMayUp (64 + n) with
  | true => exact .inl (s.linkUp_linkUpNow_lin hn)
  | false => exact .inr h

theorem cans_upIfFree (s : State) (hn : n < 32) : (s.upIfFree (32 + n)).cans = s.cans := by
  unfold upIfFree
  split
  · cases h : s.linkUp (32 + n) with
    | true => rw [linkUpNow_of_up h]
    | false =>
      obtain ⟨x, hx⟩ := linkUpNow_can hn h
      rw [hx, setPort_cans, setFlag_eq, put_cans, put_cans, put_cans]
  · rfl

/-- A link that comes up shows LINK, ends FROZEN and raises its event. -/
theorem fld_upIfFree_can (s : State) (hn : n < 32) {f : Fld} (hf : f.lsb + f.wid ≤ 32) (hlink : apart (CAN_STATUS_LINK n) f)
    (hfrozen : apart (CAN_STATUS_FROZEN n) f) (hevent : apart (CAN_EVT_LINK_UP n) f) :
    (s.upIfFree (32 + n)).fld f = s.fld f := by
  unfold upIfFree
  split
  · cases h : s.linkUp (32 + n) with
    | true => rw [linkUpNow_of_up h]
    | false =>
      obtain ⟨x, hx⟩ := linkUpNow_can hn h
      rw [hx, fld_setPort, setFlag_eq, fld_put_apart _ _ hf hevent, fld_put_apart _ _ hf hfrozen, fld_put_apart s _ hf hlink]
  · rfl

theorem flag_upIfFree_lin (s : State) (hn : n < 16) {f : Fld} (hf : f.lsb + f.wid ≤ 32) (hlink : apart (LIN_STATUS_LINK n) f)
    (hevent : apart (LIN_EVT_LINK_UP n) f) : (s.upIfFree (64 + n)).flag f = s.flag f := by
  unfold upIfFree
  split
  · cases h : s.linkUp (64 + n) with
    | true => rw [linkUpNow_of_up h]
    | false =>
      obtain ⟨x, hx⟩ := linkUpNow_lin hn h
      rw [hx, flag_setPort, setFlag_eq, flag_put_apart _ _ hf hevent, flag_put_apart s _ hf hlink]
  · rfl

end
end State
end Sys2Proof.Machine
end

section
/-! SUPPORT. Error confinement and the transmit buffer of a CAN channel (R342, R345 to R347). -/

namespace Sys2Proof.Machine
namespace State

/-- A state with the registers and the CAN channels put back to those of another. -/
def canBack (s t : State) : State := { t with regs := s.regs, cans := s.cans }

theorem canBack_self (s : State) : s.canBack s = s := rfl

theorem canBack_put (s t : State) (f : Fld) (v : Nat) : s.canBack (t.put f v) = s.canBack t := rfl

theorem canBack_setCan (s t : State) (n : Nat) (x : CanSt) : s.canBack (t.setCan n x) = s.canBack t := rfl

theorem RegsBut.setCan {s t : State} {as : List Nat} (h : s.RegsBut t as) (n : Nat) (x : CanSt) : s.RegsBut (t.setCan n x) as :=
  h.same (setCan_regs t n x)

/-! ## The error state of a channel (R342) -/

section
variable (s : State) (n : Nat)

theorem canPassive_onlyRegs : s.OnlyRegs (s.canPassive n) [rCAN_STATUS n, rCAN_EVT n] := by
  have hstate : ∀ v, s.OnlyRegs (s.put (CAN_STATUS_STATE n) v) [rCAN_STATUS n, rCAN_EVT n] := fun v =>
    (OnlyRegs.refl s _).put v List.mem_cons_self
  unfold canPassive
  dsimp only
  split
  · exact .refl s _
  · split
    · split
      · exact .refl s _
      · exact (hstate 1).put 1 (List.mem_cons_of_mem _ List.mem_cons_self)
    · exact hstate 0

theorem can_canPassive (k : Nat) : (s.canPassive n).can k = s.can k :=
  (s.canPassive_onlyRegs n).same (f := fun t => t.can k) fun _ _ => rfl

theorem canBack_canPassive (t : State) : s.canBack (t.canPassive n) = s.canBack t :=
  (t.canPassive_onlyRegs n).same (f := s.canBack) fun _ _ => rfl

/-- A field beside STATE and its event. -/
theorem fld_canPassive {f : Fld} (hf : f.lsb + f.wid ≤ 32) (hstate : apart (CAN_STATUS_STATE n) f)
    (hevent : apart (CAN_EVT_ERR_PASSIVE n) f) : (s.canPassive n).fld f = s.fld f := by
  unfold canPassive
  dsimp only
  split
  · rfl
  · split
    · split
      · rfl
      · rw [setFlag_eq, fld_put_apart _ _ hf hevent, fld_put_apart _ _ hf hstate]
    · rw [fld_put_apart _ _ hf hstate]

/-- A counter at 128 makes an error active node error passive. -/
theorem canPassive_at128 {s : State} {n : Nat} (h0 : s.fld (CAN_STATUS_STATE n) = 0) (ht : 128 ≤ (s.can n).tecN) :
    (s.canPassive n).fld (CAN_STATUS_STATE n) = 1 ∧ (s.canPassive n).flag (CAN_EVT_ERR_PASSIVE n) = true := by
  have hpassive : s.canPassive n = (s.put (CAN_STATUS_STATE n) 1).setFlag (CAN_EVT_ERR_PASSIVE n) := by
    unfold canPassive
    dsimp only
    rw [h0, if_neg (by decide), if_pos (.inl ht), if_neg (by decide)]
  rw [hpassive]
  exact ⟨(fld_put_channel _ _ (by decide) (by decide)).trans (fld_put_self _ _ _ (by decide : 29 + 2 ≤ 32)),
    flag_setFlag_self _ (by decide : 4 + 1 ≤ 32) rfl⟩

/-- A channel of which nothing is on the bus any more is as it was beside its transmit buffer. -/
theorem chanOffBus_of_noChime {x : CanSt} (h : x.chimeDue = none) :
    chanOffBus x = { x with txbuf := x.txbuf.map (fun k => { k with onBus := false }) } := by
  unfold chanOffBus
  rw [h]

/-- The channel goes off the bus with nothing on it. -/
theorem busOff_shows {s : State} {n : Nat} (hn : n < 32) (h : s.linkUp (32 + n) = true) :
    (s.busOff n).fld (CAN_STATUS_STATE n) = 2 ∧ (s.busOff n).flag (CAN_EVT_BUS_OFF n) = true ∧
    (s.busOff n).linkUp (32 + n) = false ∧ ((s.busOff n).can n).txbuf = [] ∧ ((s.busOff n).can n).recovering = s.canFlag n 0 := by
  have hup : (((s.put (CAN_STATUS_STATE n) 2).inc (CAN_BUS_OFF_CNT_VAL n)).setFlag (CAN_EVT_BUS_OFF n)).linkUp (32 + n) = true := by
    rw [linkUp_can _ hn] at h ⊢
    refine (flag_put_channel _ _ (by decide) (by decide)).trans ((flag_put_channel _ _ (by decide) (by decide)).trans ?_)
    exact (flag_put_channel _ _ (by decide) (by decide)).trans h
  unfold busOff
  dsimp only
  rw [can_setCan_self, fld_setCan, flag_setCan, can_linkDown_can hn hup]
  refine ⟨?_, ?_, ?_, rfl, rfl⟩
  · refine (fld_linkDown_can hn (by decide : 29 + 2 ≤ 32) (canReg_inChannels hn (by decide)) (apart_channel (by decide))
      (apart_channel (by decide)) (apart_channel (by decide))).trans ?_
    refine (fld_put_channel _ _ (by decide) (by decide)).trans ((fld_put_channel _ _ (by decide) (by decide)).trans ?_)
    exact fld_put_self s _ _ (by decide : 29 + 2 ≤ 32)
  · refine (congrArg (· == 1) (fld_linkDown_can hn (by decide : 5 + 1 ≤ 32) (canReg_inChannels hn (by decide))
      (apart_channel (by decide)) (apart_channel (by decide)) (apart_channel (by decide)))).trans ?_
    exact flag_setFlag_self _ (by decide : 5 + 1 ≤ 32) rfl
  · rw [linkUp_can _ hn, flag_setCan, ← linkUp_can _ hn]
    exact linkUp_linkDown_can _ hn

end

/-! ## Protocol errors (R340, R342) -/

/-- A protocol error counted and shown, with the counters it leaves. -/
def canErred (s : State) (n lec tec rec : Nat) : State :=
  (((s.inc (CAN_RX_ERR_CNT_VAL n)).setFlag (CAN_EVT_RX_ERR n)).put (CAN_STATUS_LEC n) lec).setCan n
    { chanOffBus (s.can n) with tecN := tec, recN := rec }

section
variable {s : State} {n : Nat} {e : CanErr}

theorem canError_sending (ht : e.transmitting = true) (ha : e.alt = false) (h : (s.can n).tecN + 8 < 256) :
    s.canError n e = (s.canErred n e.lec ((s.can n).tecN + 8) (s.can n).recN).canPassive n := by
  have hsend : e.transmitting = true ∧ e.alt = false := ⟨ht, ha⟩
  unfold canError
  dsimp only
  rw [if_pos hsend, if_pos ht, if_neg (Nat.not_le.mpr h)]
  rfl

theorem canError_busOff (ht : e.transmitting = true) (ha : e.alt = false) (h : 256 ≤ (s.can n).tecN + 8) :
    s.canError n e = (s.canErred n e.lec ((s.can n).tecN + 8) (s.can n).recN).busOff n := by
  have hsend : e.transmitting = true ∧ e.alt = false := ⟨ht, ha⟩
  unfold canError
  dsimp only
  rw [if_pos hsend, if_pos ht, if_pos h]
  rfl

theorem canError_receiving (ht : e.transmitting = false) (htec : (s.can n).tecN < 128) (hrec : (s.can n).recN < 120) :
    s.canError n e = (s.canErred n e.lec (s.can n).tecN ((s.can n).recN + if e.alt then 8 else 1)).canPassive n := by
  have hcount : min 255 ((s.can n).recN + if e.alt then 8 else 1) = (s.can n).recN + if e.alt then 8 else 1 := by
    cases e.alt <;> simp <;> omega
  have hreceive : ¬ e.transmitting = true := by simp [ht]
  have hnosend : ¬ (e.transmitting = true ∧ e.alt = false) := fun h => hreceive h.1
  unfold canError
  dsimp only
  rw [if_neg hnosend, if_neg hreceive, hcount, if_neg (Nat.not_le.mpr (Nat.lt_trans htec (by decide)))]
  rfl

variable (s n) (lec tec rec : Nat)

theorem can_canErred : (s.canErred n lec tec rec).can n = { chanOffBus (s.can n) with tecN := tec, recN := rec } :=
  can_setCan_self _ n _

theorem fld_canErred_state : (s.canErred n lec tec rec).fld (CAN_STATUS_STATE n) = s.fld (CAN_STATUS_STATE n) := by
  rw [canErred, fld_setCan]
  refine (fld_put_channel _ _ (by decide) (by decide)).trans ((fld_put_channel _ _ (by decide) (by decide)).trans ?_)
  exact fld_put_channel s _ (by decide) (by decide)

theorem fld_canErred_lec : (s.canErred n lec tec rec).fld (CAN_STATUS_LEC n) = lec % 2 ^ (CAN_STATUS_LEC n).wid := by
  rw [canErred, fld_setCan, fld_put_self _ (CAN_STATUS_LEC n) lec (by decide : 26 + 3 ≤ 32)]

theorem fld_canErred_count : (s.canErred n lec tec rec).fld (CAN_RX_ERR_CNT_VAL n) =
    (s.fld (CAN_RX_ERR_CNT_VAL n) + 1) % 2 ^ (CAN_RX_ERR_CNT_VAL n).wid := by
  rw [canErred, fld_setCan]
  refine (fld_put_channel _ _ (by decide) (by decide)).trans ((fld_put_channel _ _ (by decide) (by decide)).trans ?_)
  exact fld_inc_self s (by decide : 0 + 32 ≤ 32)

theorem canErred_regsBut : s.RegsBut (s.canErred n lec tec rec) [rCAN_RX_ERR_CNT n, rCAN_EVT n, rCAN_STATUS n] :=
  RegsBut.setCan ((((RegsBut.refl s _).put _ List.mem_cons_self).put _ (List.mem_cons_of_mem _ List.mem_cons_self)).put _
    (List.mem_cons_of_mem _ (List.mem_cons_of_mem _ List.mem_cons_self))) n _

theorem canBack_canErred : s.canBack (s.canErred n lec tec rec) = s := by
  rw [canErred, canBack_setCan, canBack_put, setFlag_eq, canBack_put, inc_eq, canBack_put, canBack_self]

theorem linkUp_canErred (hn : n < 32) : (s.canErred n lec tec rec).linkUp (32 + n) = s.linkUp (32 + n) := by
  rw [linkUp_can _ hn, linkUp_can _ hn, canErred, flag_setCan]
  refine (flag_put_channel _ _ (by decide) (by decide)).trans ((flag_put_channel _ _ (by decide) (by decide)).trans ?_)
  exact flag_put_channel s _ (by decide) (by decide)

theorem canFlag_canErred (i : Nat) : (s.canErred n lec tec rec).canFlag n i = s.canFlag n i := by
  refine congrArg (bitOf · i) ?_
  rw [canErred, fld_setCan]
  refine (fld_put_channel _ _ (by decide) (by decide)).trans ((fld_put_channel _ _ (by decide) (by decide)).trans ?_)
  exact fld_put_channel s _ (by decide) (by decide)

end

section
variable {s : State} {n : Nat} {e : CanErr}

theorem exec_canProtocolError_acts (hn : n < 32) (hl : s.linkUp (32 + n) = true)
    (h : e.transmitting = false ∨ (s.can n).txbuf.any (fun k => k.onBus) = true) :
    exec (.canProtocolError n e) s = .next (s.canError n e) := congrArg Host.Outcome.next (if_pos ⟨hn, hl, h⟩)

theorem exec_canProtocolError_down (hl : s.linkUp (32 + n) = false) : exec (.canProtocolError n e) s = .next s :=
  congrArg Host.Outcome.next (if_neg (by simp [hl]))

/-- What an error in transmission leaves below 256. -/
theorem canErred_sending_shows (lec rec : Nat) {tec : Nat} (htec : tec = (s.can n).tecN + 8) :
    (((s.canErred n lec tec rec).canPassive n).can n).tecN = (s.can n).tecN + 8 ∧
    (((s.canErred n lec tec rec).canPassive n).can n).recN = rec ∧
    ((s.can n).chimeDue = none → (((s.canErred n lec tec rec).canPassive n).can n).txbuf =
      (s.can n).txbuf.map (fun k => { k with onBus := false })) ∧
    ((s.canErred n lec tec rec).canPassive n).fld (CAN_STATUS_LEC n) = lec % 2 ^ (CAN_STATUS_LEC n).wid ∧
    ((s.canErred n lec tec rec).canPassive n).fld (CAN_RX_ERR_CNT_VAL n) =
      (s.fld (CAN_RX_ERR_CNT_VAL n) + 1) % 2 ^ (CAN_RX_ERR_CNT_VAL n).wid ∧
    (s.fld (CAN_STATUS_STATE n) = 0 → 120 ≤ (s.can n).tecN →
      ((s.canErred n lec tec rec).canPassive n).fld (CAN_STATUS_STATE n) = 1 ∧
      ((s.canErred n lec tec rec).canPassive n).flag (CAN_EVT_ERR_PASSIVE n) = true) ∧
    s.canBack ((s.canErred n lec tec rec).canPassive n) = s ∧
    s.RegsBut ((s.canErred n lec tec rec).canPassive n) [rCAN_RX_ERR_CNT n, rCAN_EVT n, rCAN_STATUS n] := by
  rw [can_canPassive, can_canErred]
  refine ⟨htec, rfl, fun h => ?_, ?_, ?_, fun h0 h120 => canPassive_at128 ?_ ?_, ?_, ?_⟩
  · rw [chanOffBus_of_noChime h]
  · exact (fld_canPassive _ n (by decide : 26 + 3 ≤ 32) (apart_channel (by decide)) (apart_channel (by decide))).trans
      (s.fld_canErred_lec n lec tec rec)
  · exact (fld_canPassive _ n (by decide : 0 + 32 ≤ 32) (apart_channel (by decide)) (apart_channel (by decide))).trans
      (s.fld_canErred_count n lec tec rec)
  · rw [fld_canErred_state, h0]
  · rw [can_canErred, htec]
    exact Nat.add_le_add_right h120 8
  · rw [canBack_canPassive, canBack_canErred]
  · exact (s.canErred_regsBut n lec tec rec).trans ((canPassive_onlyRegs _ n).regs.mono (by simp))

/-! ## Bus-off ends (R342) -/

theorem exec_canRecover {r : Requester} (hn : n < 32) (hr : s.reaches r (rCAN_CTL n)) :
    exec (.canRecover r n) s = .next (s.canRecover n) := congrArg Host.Outcome.next ((if_pos hn).trans (gated_reaches hr _))

/-- The counters cleared and the node error active again. -/
def canRecovered (s : State) (n : Nat) : State :=
  (s.setCan n { s.can n with tecN := 0, recN := 0, recovering := false }).put (CAN_STATUS_STATE n) 0

theorem exec_busOffRecoveryEnd_ends (hn : n < 32) (hs : s.fld (CAN_STATUS_STATE n) = 2) (hr : (s.can n).recovering = true)
    (hl : s.lowPower (32 + n) = false) : exec (.busOffRecoveryEnd n) s = .next ((s.canRecovered n).upIfFree (32 + n)) :=
  congrArg Host.Outcome.next (if_pos ⟨hn, hs, hr, hl⟩)

theorem exec_busOffRecoveryEnd_idle
    (h : s.fld (CAN_STATUS_STATE n) ≠ 2 ∨ (s.can n).recovering = false ∨ s.lowPower (32 + n) = true) :
    exec (.busOffRecoveryEnd n) s = .next s := by
  refine congrArg Host.Outcome.next (if_neg ?_)
  rintro ⟨-, hs, hr, hl⟩
  rcases h with h | h | h
  · exact h hs
  · simp [h] at hr
  · simp [h] at hl

theorem can_upIfFree (s : State) (hn : n < 32) (k : Nat) : (s.upIfFree (32 + n)).can k = s.can k :=
  congrArg (tabGet CanSt.reset · k) (s.cans_upIfFree hn)

theorem canRecovered_shows (s : State) (hn : n < 32) : (((s.canRecovered n).upIfFree (32 + n)).can n).tecN = 0 ∧
    (((s.canRecovered n).upIfFree (32 + n)).can n).recN = 0 ∧
    (((s.canRecovered n).upIfFree (32 + n)).can n).recovering = false ∧
    ((s.canRecovered n).upIfFree (32 + n)).fld (CAN_STATUS_STATE n) = 0 ∧
    (((s.canRecovered n).upIfFree (32 + n)).linkUp (32 + n) = true ∨
      ((s.canRecovered n).upIfFree (32 + n)).channelMayUp (32 + n) = false) := by
  rw [can_upIfFree _ hn, canRecovered, can_put, can_setCan_self]
  refine ⟨rfl, rfl, rfl, ?_, upIfFree_can _ hn⟩
  exact (fld_upIfFree_can _ hn (by decide : 29 + 2 ≤ 32) (apart_channel (by decide)) (apart_channel (by decide))
    (apart_channel (by decide))).trans (fld_put_self _ _ _ (by decide : 29 + 2 ≤ 32))

end

/-! ## Arbitration (R345, R346) -/

/-- Nothing on the bus and no Chime due: the channel is as it was. -/
theorem chanOffBus_of_idle {x : CanSt} (hc : x.chimeDue = none) (h : ∀ k ∈ x.txbuf, k.onBus = false) : chanOffBus x = x := by
  have hsame : x.txbuf.map (fun k => { k with onBus := false }) = x.txbuf :=
    (List.map_congr_left fun k hk => show { k with onBus := false } = id k by rw [← h k hk]; rfl).trans (List.map_id _)
  rw [chanOffBus_of_noChime hc, hsame]

section
variable {s : State} {n : Nat} {w : CanTx}

theorem exec_canArbitration_acts (hn : n < 32) (hl : s.linkUp (32 + n) = true) (hm : s.trxMode n = 0) (e : Nat) (won : Bool) :
    exec (.canArbitration n e won) s = .next (s.canArbitrate n e won) := congrArg Host.Outcome.next (if_pos ⟨hn, hl, hm⟩)

theorem exec_canArbitration_idle (h : s.linkUp (32 + n) = false ∨ s.trxMode n ≠ 0) (e : Nat) (won : Bool) :
    exec (.canArbitration n e won) s = .next s := by
  refine congrArg Host.Outcome.next (if_neg ?_)
  rintro ⟨-, hl, hm⟩
  rcases h with h | h
  · simp [h] at hl
  · exact h hm

/-- What the bus compares lets the winner pass all others. -/
theorem arbWinner_le {l : List CanTx} (h : arbWinner l = some w) : ∀ k ∈ l, w.msg.arbKey ≤ k.msg.arbKey := by
  have hall := List.find?_some h
  simpa using hall

/-- The winner as it stands on the bus, or is offered again. -/
def offered (s : State) (n e : Nat) (won : Bool) (w : CanTx) : State :=
  s.setCan n { s.can n with
    txbuf := (s.can n).txbuf.map (fun k => if k = w then { k with onBus := won, sof := s.stampNow e } else k) }

theorem canArbitrate_offers (hd : (s.can n).chimeDue = none)
    (hall : (s.can n).txbuf.all (fun k => !s.canExpired k && !k.onBus) = true) (hw : arbWinner (s.can n).txbuf = some w) (e : Nat)
    (won : Bool) : s.canArbitrate n e won = s.offered n e won w := by
  have hkept : ∀ k ∈ (s.can n).txbuf, s.canExpired k = false ∧ k.onBus = false := by simpa using hall
  have hidle : chanOffBus (s.can n) = s.can n := chanOffBus_of_idle hd fun k hk => (hkept k hk).2
  have hgone : (s.can n).txbuf.filter s.canExpired = [] :=
    List.filter_eq_nil_iff.mpr fun k hk => by simp [(hkept k hk).1]
  have hleft : (s.can n).txbuf.filter (fun k => !s.canExpired k) = (s.can n).txbuf :=
    List.filter_eq_self.mpr fun k hk => by simp [(hkept k hk).1]
  unfold canArbitrate
  dsimp only
  rw [hidle, hgone, hleft, if_pos rfl, hw]
  rfl

/-- The last entry discarded for its age. -/
def lastExpired (s : State) (n : Nat) : State :=
  ((s.addCnt (CAN_TX_EXPIRED_CNT_VAL n) 1).setFlag (CAN_EVT_TX_EXPIRED n)).setCan n { s.can n with txbuf := [] }

theorem canArbitrate_expires (hb : (s.can n).txbuf = [w]) (hd : (s.can n).chimeDue = none) (he : s.canExpired w = true) (e : Nat)
    (won : Bool) : s.canArbitrate n e won = s.lastExpired n := by
  have hoff : s.canExpired { w with onBus := false } = true := he
  unfold canArbitrate
  rw [chanOffBus_of_noChime hd, hb]
  simp [hoff, arbWinner, lastExpired]

theorem lastExpired_shows (s : State) (n : Nat) : ((s.lastExpired n).can n).txbuf = [] ∧
    (s.lastExpired n).flag (CAN_EVT_TX_EXPIRED n) = true ∧
    (s.lastExpired n).fld (CAN_TX_EXPIRED_CNT_VAL n) =
      (s.fld (CAN_TX_EXPIRED_CNT_VAL n) + 1) % 2 ^ (CAN_TX_EXPIRED_CNT_VAL n).wid := by
  rw [lastExpired, can_setCan_self, flag_setCan, fld_setCan]
  exact ⟨rfl, flag_setFlag_self _ (by decide : 2 + 1 ≤ 32) rfl,
    (fld_put_channel _ _ (by decide) (by decide)).trans (fld_inc_self s (by decide : 0 + 32 ≤ 32))⟩

/-! ## The end of a transmission (R345, R347) -/

/-- A message sent has left the transmit buffer and is counted. -/
def canSent (s : State) (n : Nat) (w : CanTx) : State :=
  (s.setCan n { chanOffBus { s.can n with txbuf := (s.can n).txbuf.erase w } with tecN := (s.can n).tecN - 1 }).inc
    (CAN_TX_MSG_CNT_VAL n)

/-- A message that is no Chime leaves; the egress capture point sees the frame it came from. -/
theorem exec_canTxSuccess_sent (hn : n < 32) (hw : (s.can n).txbuf.find? (fun k => k.onBus) = some w) (hc : w.chime = none) :
    ∃ t : State, exec (.canTxSuccess n) s = .next (t.canPassive n) ∧ (s.canSent n w).SameChannels t ∧
      (w.frame = none → t = s.canSent n w) := by
  change ∃ t : State, execCanTxSuccess n s = _ ∧ _
  unfold execCanTxSuccess
  dsimp only
  rw [hw, decide_eq_true hn]
  dsimp only
  rw [hc]
  cases hf : w.frame with
  | none => exact ⟨_, rfl, .refl _, fun _ => rfl⟩
  | some f => exact ⟨_, rfl, captureOut_sameChannels _ _ _ _ _, fun h => by cases h⟩

theorem exec_canTxSuccess_idle (h : (s.can n).txbuf.any (fun k => k.onBus) = false) : exec (.canTxSuccess n) s = .next s := by
  have hnone : (s.can n).txbuf.find? (fun k => k.onBus) = none := by
    rw [List.find?_eq_none]
    simpa using h
  change execCanTxSuccess n s = _
  unfold execCanTxSuccess
  dsimp only
  rw [hnone]
  cases decide (n < 32) <;> rfl

theorem canSent_shows (s : State) {n : Nat} (w : CanTx) (hd : (s.can n).chimeDue = none) :
    ((s.canSent n w).can n).txbuf = ((s.can n).txbuf.erase w).map (fun k => { k with onBus := false }) ∧
    ((s.canSent n w).can n).tecN = (s.can n).tecN - 1 ∧
    (s.canSent n w).fld (CAN_TX_MSG_CNT_VAL n) = (s.fld (CAN_TX_MSG_CNT_VAL n) + 1) % 2 ^ (CAN_TX_MSG_CNT_VAL n).wid ∧
    s.canBack (s.canSent n w) = s := by
  have hdue : ({ s.can n with txbuf := (s.can n).txbuf.erase w } : CanSt).chimeDue = none := hd
  rw [canSent, inc_eq, can_put, can_setCan_self, chanOffBus_of_noChime hdue, canBack_put, canBack_setCan]
  exact ⟨rfl, rfl, fld_inc_self (s.setCan n _) (by decide : 0 + 32 ≤ 32), rfl⟩

theorem canTxSuccess_shows (hn : n < 32) (hw : (s.can n).txbuf.find? (fun k => k.onBus) = some w) (hc : w.chime = none)
    (hd : (s.can n).chimeDue = none) : ∃ t, exec (.canTxSuccess n) s = .next t ∧
      (t.can n).txbuf = ((s.can n).txbuf.erase w).map (fun k => { k with onBus := false }) ∧ (t.can n).tecN = (s.can n).tecN - 1 ∧
      t.fld (CAN_TX_MSG_CNT_VAL n) = (s.fld (CAN_TX_MSG_CNT_VAL n) + 1) % 2 ^ (CAN_TX_MSG_CNT_VAL n).wid ∧
      (w.frame = none → { t with regs := s.regs, cans := s.cans } = s) := by
  obtain ⟨t, ht, hsame, hframe⟩ := exec_canTxSuccess_sent hn hw hc
  obtain ⟨hbuf, htec, hcount, hback⟩ := s.canSent_shows w hd
  refine ⟨_, ht, ?_, ?_, ?_, fun h => ?_⟩
  · rw [can_canPassive, hsame.can, hbuf]
  · rw [can_canPassive, hsame.can, htec]
  · refine (fld_canPassive _ n (by decide : 0 + 32 ≤ 32) (apart_channel (by decide)) (apart_channel (by decide))).trans ?_
    exact (hsame.fld (canReg_inChannels hn (by decide))).trans hcount
  · rw [hframe h]
    exact (s.canBack_canPassive n _).trans hback

/-! ## FLUSH_TXBUF, ADMIN_DOWN and the way back (R339, R347) -/

variable {r : Requester}

theorem exec_canFlushTxbuf (hn : n < 32) (hr : s.reaches r (rCAN_CTL n)) : exec (.canFlushTxbuf r n) s = .next (s.canFlush n) :=
  congrArg Host.Outcome.next ((if_pos hn).trans (gated_reaches hr _))

theorem canFlush_shows (s : State) (n : Nat) :
    ((s.canFlush n).can n).txbuf = (s.can n).txbuf.filter (fun k => k.onBus || k.chime.isSome) ∧
    (s.canFlush n).fld (CAN_TX_ABORT_CNT_VAL n) = (s.fld (CAN_TX_ABORT_CNT_VAL n) +
      ((s.can n).txbuf.filter (fun k => !k.onBus && k.chime.isNone)).length) % 2 ^ (CAN_TX_ABORT_CNT_VAL n).wid ∧
    s.canBack (s.canFlush n) = s ∧ s.RegsBut (s.canFlush n) [rCAN_TX_ABORT_CNT n] := by
  unfold canFlush
  dsimp only
  rw [addCnt_eq, can_put, can_setCan_self, canBack_put, canBack_setCan]
  exact ⟨rfl, fld_put_self _ _ _ (by decide : 0 + 32 ≤ 32), rfl, ((RegsBut.refl s _).setCan n _).put _ List.mem_cons_self⟩

theorem exec_canAdminDown (hn : n < 32) (hr : s.reaches r (rCAN_CTL n)) (down : Bool) :
    exec (.canAdminDown r n down) s = .next (s.writeCanAdmin n down) :=
  congrArg Host.Outcome.next ((if_pos hn).trans (gated_reaches hr _))

theorem writeCanAdmin_down_shows (s : State) (hn : n < 32) : (s.writeCanAdmin n true).flag (CAN_CTL_ADMIN_DOWN n) = true ∧
    (s.writeCanAdmin n true).linkUp (32 + n) = false ∧ ((s.writeCanAdmin n true).can n).joining = false := by
  unfold writeCanAdmin
  dsimp only
  rw [if_pos rfl, can_setCan_self, flag_setCan, linkUp_can _ hn, flag_setCan, ← linkUp_can _ hn]
  refine ⟨?_, linkUp_linkDown_can _ hn, rfl⟩
  refine (congrArg (· == 1) (fld_linkDown_can hn (by decide : 0 + 1 ≤ 32) (canReg_inChannels hn (by decide))
      (apart_channel (by decide)) (apart_channel (by decide)) (apart_channel (by decide)))).trans ?_
  exact flag_put_bitN s (by decide : 0 + 1 ≤ 32) rfl true

theorem writeCanAdmin_up_shows (h : s.flag (CAN_CTL_ADMIN_DOWN n) = true) :
    (s.writeCanAdmin n false).flag (CAN_CTL_ADMIN_DOWN n) = false ∧ ((s.writeCanAdmin n false).can n).joining = true ∧
    s.canBack (s.writeCanAdmin n false) = s ∧ s.RegsBut (s.writeCanAdmin n false) [rCAN_CTL n] := by
  unfold writeCanAdmin
  dsimp only
  rw [if_neg (by decide), if_pos h, can_setCan_self, flag_setCan, canBack_setCan, canBack_put]
  exact ⟨flag_put_bitN s (by decide : 0 + 1 ≤ 32) rfl false, rfl, rfl, ((RegsBut.refl s _).put _ List.mem_cons_self).setCan n _⟩

/-- The channel has seen the 11 recessive bits. -/
def canJoined (s : State) (n : Nat) : State := s.setCan n { s.can n with joining := false }

theorem exec_canBusIntegration_joins (hn : n < 32) (hp : s.portOn (32 + n) = true) (hj : (s.can n).joining = true)
    (hl : s.lowPower (32 + n) = false) : exec (.canBusIntegration n) s = .next ((s.canJoined n).upIfFree (32 + n)) :=
  congrArg Host.Outcome.next (if_pos ⟨hn, hp, hj, hl⟩)

theorem joining_canJoined (s : State) (hn : n < 32) : (((s.canJoined n).upIfFree (32 + n)).can n).joining = false := by
  rw [can_upIfFree _ hn, canJoined, can_setCan_self]

theorem exec_canBusIntegration_idle (h : (s.can n).joining = false) : exec (.canBusIntegration n) s = .next s :=
  congrArg Host.Outcome.next (if_neg (by simp [h]))

end

end State
end Sys2Proof.Machine
end

section
/-! PROOFS. The error confinement and the transmit buffer of a CAN channel (R339, R340, R342, R345 to R347): O42. -/

namespace Sys2Proof.Machine

/-- Settles O42: an error moves the counters and then the state, or takes the channel off the bus with its link; what the transmit
buffer loses is what the command names. -/
theorem canErrorsAndTransmitBuffer : Obligations.CanErrorsAndTransmitBuffer := by
  unfold Obligations.CanErrorsAndTransmitBuffer
  refine ⟨fun s r n e hn => ⟨fun hl ht hb => ⟨fun ha h => ?_, fun ha h => ?_⟩, fun hl ht htec hrec => ?_,
      State.exec_canProtocolError_down, fun hr h2 => ?_, fun hr h2 => ?_, fun h2 hrec hl => ?_, State.exec_busOffRecoveryEnd_idle⟩,
    fun s r n e won w hn => ⟨fun hl hm hd hall hw => ?_, fun hl hm hb hd he => ?_, fun h => State.exec_canArbitration_idle h e won,
      State.canTxSuccess_shows hn, State.exec_canTxSuccess_idle, fun hr => ?_, fun hr => ⟨?_, fun h => ?_⟩, fun hp hj hl => ?_,
      State.exec_canBusIntegration_idle⟩⟩
  · refine ⟨_, State.exec_canProtocolError_acts hn hl (.inr hb), ?_⟩
    rw [State.canError_sending ht ha h]
    exact State.canErred_sending_shows e.lec _ rfl
  · refine ⟨_, State.exec_canProtocolError_acts hn hl (.inr hb), ?_⟩
    have hup := (State.linkUp_canErred s n e.lec ((s.can n).tecN + 8) (s.can n).recN hn).trans hl
    obtain ⟨hstate, hevent, hdown, hbuf, hrecovering⟩ := State.busOff_shows hn hup
    rw [State.canError_busOff ht ha h]
    exact ⟨hstate, hevent, hdown, hbuf, hrecovering.trans (State.canFlag_canErred ..)⟩
  · refine ⟨_, State.exec_canProtocolError_acts hn hl (.inl ht), ?_⟩
    rw [State.canError_receiving ht htec hrec, State.can_canPassive, State.can_canErred]
    exact ⟨rfl, rfl, rfl⟩
  · refine ⟨_, (State.exec_canRecover hn hr).trans (congrArg Host.Outcome.next (if_pos h2)), ?_, rfl⟩
    rw [State.can_setCan_self]
  · exact (State.exec_canRecover hn hr).trans (congrArg Host.Outcome.next (if_neg h2))
  · exact ⟨_, State.exec_busOffRecoveryEnd_ends hn h2 hrec hl, s.canRecovered_shows hn⟩
  · refine ⟨_, (State.exec_canArbitration_acts hn hl hm e won).trans
      (congrArg Host.Outcome.next (State.canArbitrate_offers hd hall hw e won)), ?_, State.arbWinner_le hw, rfl⟩
    rw [State.offered, State.can_setCan_self]
  · exact ⟨_, (State.exec_canArbitration_acts hn hl hm e won).trans
      (congrArg Host.Outcome.next (State.canArbitrate_expires hb hd he e won)), s.lastExpired_shows n⟩
  · exact ⟨_, State.exec_canFlushTxbuf hn hr, s.canFlush_shows n⟩
  · exact ⟨_, State.exec_canAdminDown hn hr true, s.writeCanAdmin_down_shows hn⟩
  · exact ⟨_, State.exec_canAdminDown hn hr false, State.writeCanAdmin_up_shows h⟩
  · exact ⟨_, State.exec_canBusIntegration_joins hn hp hj hl, s.joining_canJoined hn, State.upIfFree_can _ hn⟩

end Sys2Proof.Machine
end

section
/-! PROOFS. A CAN message received (R340, R344, R354, R359, R365): O43. -/

namespace Sys2Proof.Machine

theorem recN_chanOffBus (x : CanSt) : (chanOffBus x).recN = x.recN := by
  unfold chanOffBus
  split <;> rfl

namespace State

/-! ## A message heard is counted (R340, R342) -/

/-- A field beside STATE and its event stays when a message was received well. -/
theorem fld_canRxGood (s : State) (n : Nat) {f : Fld} (hf : f.lsb + f.wid ≤ 32) (hstate : apart (CAN_STATUS_STATE n) f)
    (hevent : apart (CAN_EVT_ERR_PASSIVE n) f) : (s.canRxGood n).fld f = s.fld f := by
  unfold canRxGood
  dsimp only
  split
  · rfl
  · split <;> exact (fld_canPassive _ n hf hstate hevent).trans (fld_setCan _ n _ f)

theorem recN_canRxGood {s : State} {n : Nat} (hz : s.flag (CAN_STATUS_FROZEN n) = false) (h : (s.can n).recN ≤ 127) :
    ((s.canRxGood n).can n).recN = (s.can n).recN - 1 := by
  have hcounts : s.canRxGood n = (s.setCan n { s.can n with recN := (s.can n).recN - 1 }).canPassive n :=
    (if_neg (by simp [hz])).trans (if_neg (Nat.not_lt.mpr h))
  rw [hcounts, can_canPassive, can_setCan_self]

/-- A message of another node heard: the channel's own has lost the bus to it. -/
def canHeard (s : State) (n : Nat) : State := ((s.setCan n (chanOffBus (s.can n))).canRxGood n).inc (CAN_RX_MSG_CNT_VAL n)

section
variable {s : State} {n : Nat} {m : CanMsg}

theorem fld_canHeard_count (s : State) (n : Nat) :
    (s.canHeard n).fld (CAN_RX_MSG_CNT_VAL n) = (s.fld (CAN_RX_MSG_CNT_VAL n) + 1) % 2 ^ (CAN_RX_MSG_CNT_VAL n).wid := by
  have hsame : ∀ t : State, (t.canRxGood n).fld (CAN_RX_MSG_CNT_VAL n) = t.fld (CAN_RX_MSG_CNT_VAL n) := fun t =>
    t.fld_canRxGood n (by decide : 0 + 32 ≤ 32) (apart_channel (by decide)) (apart_channel (by decide))
  rw [canHeard, fld_inc_self _ (by decide : 0 + 32 ≤ 32), hsame, fld_setCan]

theorem recN_canHeard (h : (s.can n).recN ≤ 127) (hz : s.flag (CAN_STATUS_FROZEN n) = false) :
    ((s.canHeard n).can n).recN = (s.can n).recN - 1 := by
  have hrec : ((s.setCan n (chanOffBus (s.can n))).can n).recN = (s.can n).recN := by rw [can_setCan_self, recN_chanOffBus]
  rw [canHeard, inc_eq, can_put, recN_canRxGood ((flag_setCan s n _ _).trans hz) (hrec ▸ h), hrec]

theorem exec_canMessageReceive_deaf (age : Nat) (hl : s.linkUp (32 + n) = false) : exec (.canMessageReceive n m age) s = .next s :=
  congrArg Host.Outcome.next (if_pos (by simp [hl]))

theorem exec_canMessageReceive_exceeds (age : Nat) (hn : n < 32) (hl : s.linkUp (32 + n) = true)
    (hf : s.formatExceeds n m.fmt = true) : exec (.canMessageReceive n m age) s = .next (s.canError n ⟨2, false, false⟩) :=
  congrArg Host.Outcome.next ((if_neg (not_not_intro ⟨hn, hl⟩)).trans (if_pos hf))

theorem exec_canMessageReceive_heard (age : Nat) (hn : n < 32) (hl : s.linkUp (32 + n) = true)
    (hf : s.formatExceeds n m.fmt = false) :
    exec (.canMessageReceive n m age) s = .next ((s.canHeard n).canAccept n m (s.stampAgo age) age) :=
  congrArg Host.Outcome.next ((if_neg (not_not_intro ⟨hn, hl⟩)).trans (if_neg (by simp [hf])))

/-! ## What becomes of it (R354, R359, R365) -/

section
variable (ts : List TbTime) (age : Nat) (hc : s.chimeCluster n m = none)
include hc

theorem canAccept_tunnelBad (hx : m.kind = .xl) (h2 : s.canFlag n 2 = false) (h4 : s.canFlag n 4 = true)
    (hs : m.sdt = sec8 s.active tyLEGACY 1) (hd : m.data.length < 14) :
    s.canAccept n m ts age = s.inc (CAN_TUNNEL_BAD_CNT_VAL n) := by
  have hskip : ¬ (s.canFlag n 2 = true ∧ m.kind = .xl) := by simp [h2]
  unfold canAccept
  rw [hc]
  dsimp only
  rw [if_neg hskip, if_pos ⟨hx, h4, hs⟩, if_pos hd]

theorem canAccept_tunnel (hx : m.kind = .xl) (h2 : s.canFlag n 2 = false) (h4 : s.canFlag n 4 = true)
    (hs : m.sdt = sec8 s.active tyLEGACY 1) (hd : 14 ≤ m.data.length) : s.canAccept n m ts age =
      ((s.inc (CAN_TUNNEL_RX_CNT_VAL n)).receive (32 + n) true (tunnelFrame (32 + n) m ts) ts age none).1 := by
  have hskip : ¬ (s.canFlag n 2 = true ∧ m.kind = .xl) := by simp [h2]
  unfold canAccept
  rw [hc]
  dsimp only
  rw [if_neg hskip, if_pos ⟨hx, h4, hs⟩, if_neg (Nat.not_lt.mpr hd)]

variable {s2 : State} (hk : m.kind ≠ .xl)
include hk

/-- What the ingress list passes becomes a frame and joins the batch, as the flags say. -/
theorem canAccept_passed (hv : s.canList n false m.ext (m.id % 2 ^ 29) = (s2, .pass)) : s.canAccept n m ts age =
    let s3 := if s2.canFlag n 1 then (s2.receive (32 + n) true (canFrame (32 + n) m ts) ts age none).1 else s2
    if s2.canFlag n 2 then s3.acfAdd (32 + n) (s3.acfCan (32 + n) m ts) else s3 := by
  have hskip : ¬ (s.canFlag n 2 = true ∧ m.kind = .xl) := fun h => hk h.2
  unfold canAccept
  rw [hc]
  dsimp only
  rw [if_neg hskip, if_neg (fun h => hk h.1), hv]
  simp only [hk, ne_eq, not_false_eq_true, and_true]

theorem canAccept_denied {v : CanVerdict} (hv : s.canList n false m.ext (m.id % 2 ^ 29) = (s2, v)) (hp : v ≠ .pass) :
    s.canAccept n m ts age = (s2.canDenied n false v).canLogged n m ts v := by
  have hskip : ¬ (s.canFlag n 2 = true ∧ m.kind = .xl) := fun h => hk h.2
  unfold canAccept
  rw [hc]
  dsimp only
  rw [if_neg hskip, if_neg (fun h => hk h.1), hv]
  cases v with
  | pass => exact absurd rfl hp
  | deny => rfl
  | rate => rfl

end

end

end State

/-- Settles O43: the message is heard, then accepted by the first of the tunnel, the ingress list's pass and its denial that applies. -/
theorem canMessageIsAccepted : Obligations.CanMessageIsAccepted := by
  unfold Obligations.CanMessageIsAccepted
  intro s s0 n age m hn
  refine ⟨State.exec_canMessageReceive_deaf age, State.exec_canMessageReceive_exceeds age hn, fun hl hf h0 => ?_⟩
  have hs0 : s0 = s.canHeard n := h0
  subst hs0
  have hheard := State.exec_canMessageReceive_heard age hn hl hf
  have haccept : ∀ {t : State}, (s.canHeard n).canAccept n m (s.stampAgo age) age = t →
      exec (.canMessageReceive n m age) s = .next t := fun h => hheard.trans (congrArg Host.Outcome.next h)
  refine ⟨s.fld_canHeard_count n, State.recN_canHeard, fun hc hx h2 h4 hs => ⟨fun hd => ?_, fun hd => ?_⟩,
    fun s2 hc hk hv => ⟨fun h1 h2 => ?_, fun h1 h2 => ?_, fun h1 h2 => ?_⟩, fun s2 v hc hk hv hp => ?_⟩
  · exact haccept (State.canAccept_tunnelBad _ age hc hx h2 h4 hs hd)
  · exact haccept (State.canAccept_tunnel _ age hc hx h2 h4 hs hd)
  · exact haccept ((State.canAccept_passed _ age hc hk hv).trans (by simp [h1, h2]))
  · exact haccept ((State.canAccept_passed _ age hc hk hv).trans (by simp [h1, h2]))
  · exact haccept ((State.canAccept_passed _ age hc hk hv).trans (by simp [h1, h2]))
  · exact haccept (State.canAccept_denied _ age hc hk hv hp)

end Sys2Proof.Machine
end

section
/-! SUPPORT. The link, the schedule, the headers and the responses of a LIN channel (R339, R348 to R352, R373). -/

namespace Sys2Proof.Machine
namespace State

/-- A state with the registers and the LIN channels put back to those of another. -/
def linBack (s t : State) : State := { t with regs := s.regs, lins := s.lins }

theorem linBack_self (s : State) : s.linBack s = s := rfl

theorem linBack_put (s t : State) (f : Fld) (v : Nat) : s.linBack (t.put f v) = s.linBack t := rfl

theorem linBack_setLin (s t : State) (n : Nat) (x : LinSt) : s.linBack (t.setLin n x) = s.linBack t := rfl

theorem RegsBut.setLin {s t : State} {as : List Nat} (h : s.RegsBut t as) (n : Nat) (x : LinSt) : s.RegsBut (t.setLin n x) as :=
  h.same (setLin_regs t n x)

section
variable {s : State} {n : Nat} {r : Requester}

/-! ## ADMIN_DOWN and a dominant bus (R339) -/

theorem exec_linAdminDown (hn : n < 16) (hr : s.reaches r (rLIN_CTL n)) (down : Bool) :
    exec (.linAdminDown r n down) s = .next (s.writeLinAdmin n down) :=
  congrArg Host.Outcome.next ((if_pos hn).trans (gated_reaches hr _))

theorem writeLinAdmin_down_shows (s : State) (hn : n < 16) : (s.writeLinAdmin n true).flag (LIN_CTL_ADMIN_DOWN n) = true ∧
    (s.writeLinAdmin n true).linkUp (64 + n) = false :=
  ⟨(flag_linkDown_lin hn (by decide : 0 + 1 ≤ 32) (linReg_inChannels hn (by decide)) (apart_channel (by decide))
    (apart_channel (by decide))).trans (flag_put_bitN s (by decide : 0 + 1 ≤ 32) rfl true), linkUp_linkDown_lin _ hn⟩

theorem writeLinAdmin_up_shows (s : State) (hn : n < 16) : (s.writeLinAdmin n false).flag (LIN_CTL_ADMIN_DOWN n) = false ∧
    ((s.writeLinAdmin n false).linkUp (64 + n) = true ∨ (s.writeLinAdmin n false).channelMayUp (64 + n) = false) := by
  have hup : s.writeLinAdmin n false = (s.put (LIN_CTL_ADMIN_DOWN n) (bitN false)).upIfFree (64 + n) := by
    unfold writeLinAdmin
    exact if_neg Bool.false_ne_true
  rw [hup]
  exact ⟨(flag_upIfFree_lin _ hn (by decide : 0 + 1 ≤ 32) (apart_channel (by decide)) (apart_channel (by decide))).trans
    (flag_put_bitN s (by decide : 0 + 1 ≤ 32) rfl false), upIfFree_lin _ hn⟩

theorem exec_linBusDominant (hn : n < 16) (hp : s.portEnabled (64 + n) = true) :
    exec (.linBusDominant n) s = .next ((s.put (LIN_STATUS_DOMINANT n) 1).linkDown (64 + n)) :=
  congrArg Host.Outcome.next (if_pos ⟨hn, hp⟩)

theorem linDominant_shows (s : State) (hn : n < 16) :
    ((s.put (LIN_STATUS_DOMINANT n) 1).linkDown (64 + n)).flag (LIN_STATUS_DOMINANT n) = true ∧
    ((s.put (LIN_STATUS_DOMINANT n) 1).linkDown (64 + n)).linkUp (64 + n) = false :=
  ⟨(flag_linkDown_lin hn (by decide : 30 + 1 ≤ 32) (linReg_inChannels hn (by decide)) (apart_channel (by decide))
    (apart_channel (by decide))).trans (flag_setFlag_self s (by decide : 30 + 1 ≤ 32) rfl), linkUp_linkDown_lin _ hn⟩

theorem exec_linBusRelease_ends (hn : n < 16) (h : s.flag (LIN_STATUS_DOMINANT n) = true) :
    exec (.linBusRelease n) s = .next ((s.put (LIN_STATUS_DOMINANT n) 0).upIfFree (64 + n)) :=
  congrArg Host.Outcome.next (if_pos ⟨hn, h⟩)

theorem exec_linBusRelease_idle (h : s.flag (LIN_STATUS_DOMINANT n) = false) : exec (.linBusRelease n) s = .next s :=
  congrArg Host.Outcome.next (if_neg (by simp [h]))

theorem linReleased_shows (s : State) (hn : n < 16) :
    ((s.put (LIN_STATUS_DOMINANT n) 0).upIfFree (64 + n)).flag (LIN_STATUS_DOMINANT n) = false ∧
    (((s.put (LIN_STATUS_DOMINANT n) 0).upIfFree (64 + n)).linkUp (64 + n) = true ∨
      ((s.put (LIN_STATUS_DOMINANT n) 0).upIfFree (64 + n)).channelMayUp (64 + n) = false) :=
  ⟨(flag_upIfFree_lin _ hn (by decide : 30 + 1 ≤ 32) (apart_channel (by decide)) (apart_channel (by decide))).trans
    (flag_clear_self s (by decide : 30 + 1 ≤ 32) rfl), upIfFree_lin _ hn⟩

/-! ## Table and run state (R349, R350) -/

theorem exec_linSchedSel (hn : n < 16) (hr : s.reaches r (rLIN_CTL n)) (sel : Nat) :
    exec (.linSchedSel r n sel) s = .next (s.writeSchedSel n sel) :=
  congrArg Host.Outcome.next ((if_pos hn).trans (gated_reaches hr _))

theorem writeSchedSel_ignored {sel : Nat} (h : s.linRec n 10 1 ≤ sel % 4) : s.writeSchedSel n sel = s := if_neg (Nat.not_lt.mpr h)

theorem writeSchedSel_shows {sel : Nat} (h : sel % 4 < s.linRec n 10 1) :
    (s.writeSchedSel n sel).fld (LIN_CTL_SCHED_SEL n) = sel % 4 ∧ ((s.writeSchedSel n sel).lin n).sel = some (sel % 4) ∧
    ((s.writeSchedSel n sel).lin n).run = (s.lin n).run ∧ s.linBack (s.writeSchedSel n sel) = s ∧
    s.RegsBut (s.writeSchedSel n sel) [rLIN_CTL n] := by
  unfold writeSchedSel
  rw [if_pos h, fld_setLin, lin_setLin_self, linBack_setLin, linBack_put]
  exact ⟨fld_put_self s _ sel (by decide : 4 + 2 ≤ 32), rfl, rfl, rfl, ((RegsBut.refl s _).put _ List.mem_cons_self).setLin n _⟩

theorem exec_linSchedRun (hn : n < 16) (hr : s.reaches r (rLIN_CTL n)) (run : Bool) :
    exec (.linSchedRun r n run) s = .next (s.writeSchedRun n run) :=
  congrArg Host.Outcome.next ((if_pos hn).trans (gated_reaches hr _))

theorem writeSchedRun_commander_shows (h : s.flag (LIN_CFG_ROLE n) = true) (run : Bool) :
    (s.writeSchedRun n run).flag (LIN_CTL_SCHED_RUN n) = run ∧
    ((s.writeSchedRun n run).lin n).run = (if s.flag (LIN_STATUS_RUNNING n) = run then none else some run) ∧
    s.linBack (s.writeSchedRun n run) = s ∧ s.RegsBut (s.writeSchedRun n run) [rLIN_CTL n] := by
  unfold writeSchedRun
  dsimp only
  rw [if_neg (by simp [h]), flag_setLin, lin_setLin_self, linBack_setLin, linBack_put]
  exact ⟨flag_put_bitN s (by decide : 3 + 1 ≤ 32) rfl run, rfl, rfl, ((RegsBut.refl s _).put _ List.mem_cons_self).setLin n _⟩

theorem writeSchedRun_responder_shows (h : s.flag (LIN_CFG_ROLE n) = false) (run : Bool) :
    (s.writeSchedRun n run).flag (LIN_CTL_SCHED_RUN n) = run ∧ s.OnlyRegs (s.writeSchedRun n run) [rLIN_CTL n] := by
  have hput : s.writeSchedRun n run = s.put (LIN_CTL_SCHED_RUN n) (bitN run) := if_pos h
  rw [hput]
  exact ⟨flag_put_bitN s (by decide : 3 + 1 ≤ 32) rfl run, (OnlyRegs.refl s _).put _ List.mem_cons_self⟩

/-! ## A header on the bus (R348, R351) -/

/-- A header is on the bus, and nothing is awaited, due or sent yet. -/
def linHeard (s : State) (n : Nat) (ts : List TbTime) (age : Nat) : State :=
  s.setLin n { s.lin n with breakTs := ts, breakAt := clkSince s.clk age, await := none, due := none, sending := none }

variable {id : Nat} {ts : List TbTime} {age : Nat}

theorem linHeader_subscribed (h : s.linDir n id = 1) : s.linHeader n id ts age =
    (s.linHeard n ts age).setLin n { (s.linHeard n ts age).lin n with await := some id } := by
  unfold linHeader
  dsimp only
  rw [h]
  rfl

theorem linHeader_published {d : List Byte} (h : s.linDir n id = 2) (hd : s.linResp n id = some d) : s.linHeader n id ts age =
    (s.linHeard n ts age).setLin n { (s.linHeard n ts age).lin n with due := some id } := by
  unfold linHeader
  dsimp only
  rw [h, hd]
  rfl

theorem linHeader_unwritten (h : s.linDir n id = 2) (hd : s.linResp n id = none) : s.linHeader n id ts age =
    ((s.linHeard n ts age).inc (LIN_NO_DATA_CNT_VAL n)).setFlag (LIN_EVT_NO_DATA n) := by
  unfold linHeader
  dsimp only
  rw [h, hd]
  rfl

theorem linHeader_other (h1 : s.linDir n id ≠ 1) (h2 : s.linDir n id ≠ 2) : s.linHeader n id ts age = s.linHeard n ts age := by
  unfold linHeader
  dsimp only
  split
  · next h => exact absurd h h1
  · next h => exact absurd h h2
  · rfl

/-- A header leaves the schedule, and of the registers it writes those of a missing response only. -/
theorem linHeader_leaves (s : State) (n id : Nat) (ts : List TbTime) (age : Nat) :
    ((s.linHeader n id ts age).lin n).run = (s.lin n).run ∧ ((s.linHeader n id ts age).lin n).sel = (s.lin n).sel ∧
    ((s.linHeader n id ts age).lin n).breakTs = ts ∧
    s.RegsBut (s.linHeader n id ts age) [rLIN_NO_DATA_CNT n, rLIN_EVT n] := by
  have hlin : (s.linHeard n ts age).lin n =
      { s.lin n with breakTs := ts, breakAt := clkSince s.clk age, await := none, due := none, sending := none } :=
    lin_setLin_self s n _
  have hregs : s.RegsBut (s.linHeard n ts age) [rLIN_NO_DATA_CNT n, rLIN_EVT n] := (RegsBut.refl s _).setLin n _
  by_cases h1 : s.linDir n id = 1
  · rw [linHeader_subscribed h1, lin_setLin_self, hlin]
    exact ⟨rfl, rfl, rfl, hregs.setLin n _⟩
  · by_cases h2 : s.linDir n id = 2
    · cases hd : s.linResp n id with
      | some d =>
        rw [linHeader_published h2 hd, lin_setLin_self, hlin]
        exact ⟨rfl, rfl, rfl, hregs.setLin n _⟩
      | none =>
        rw [linHeader_unwritten h2 hd, setFlag_eq, lin_put, inc_eq, lin_put, hlin]
        exact ⟨rfl, rfl, rfl, (hregs.put _ List.mem_cons_self).put _ (List.mem_cons_of_mem _ List.mem_cons_self)⟩
    · rw [linHeader_other h1 h2, hlin]
      exact ⟨rfl, rfl, rfl, hregs⟩

/-! ## A slot of the schedule (R350, R373) -/

variable {e : Nat}

theorem exec_linSlot_stops (hn : n < 16) (hrole : s.flag (LIN_CFG_ROLE n) = true) (hl : s.linkUp (64 + n) = true)
    (h : (s.lin n).run = some false ∨ (s.lin n).sleepCmd = true) : exec (.linSlot n e) s = .next (s.linStop n) :=
  congrArg Host.Outcome.next ((if_neg (not_not_intro ⟨hn, hrole, hl⟩)).trans (if_pos h))

theorem exec_linSlot_idle (hn : n < 16) (hrole : s.flag (LIN_CFG_ROLE n) = true) (hl : s.linkUp (64 + n) = true)
    (hs : (s.lin n).sleepCmd = false) (hr : (s.lin n).run = none) (hnot : s.flag (LIN_STATUS_RUNNING n) = false) :
    exec (.linSlot n e) s = .next s :=
  congrArg Host.Outcome.next ((if_neg (not_not_intro ⟨hn, hrole, hl⟩)).trans ((if_neg (by simp [hs, hr])).trans
    (if_neg (by simp [hnot, hr]))))

theorem exec_linSlot_starts (hn : n < 16) (hrole : s.flag (LIN_CFG_ROLE n) = true) (hl : s.linkUp (64 + n) = true)
    (hs : (s.lin n).sleepCmd = false) (hr : (s.lin n).run = some true) : exec (.linSlot n e) s = .next (s.linAdvance n e) :=
  congrArg Host.Outcome.next ((if_neg (not_not_intro ⟨hn, hrole, hl⟩)).trans ((if_neg (by simp [hs, hr])).trans
    (if_pos (.inr hr))))

/-- The schedule has stopped, with what is sent after it. -/
def linStopped (s : State) (n : Nat) (last : Option (Nat × List Byte)) : State :=
  (s.setLin n { s.lin n with run := none, sleepCmd := false, await := none, due := none, sending := last }).put
    (LIN_STATUS_RUNNING n) 0

theorem linStop_quiet (h : (s.lin n).sleepCmd = false) : s.linStop n = s.linStopped n none := by
  unfold linStop
  dsimp only
  rw [h, if_neg (by decide), if_neg (by decide)]
  rfl

theorem linStop_sleeps (h : (s.lin n).sleepCmd = true) :
    s.linStop n = (s.linStopped n (some goToSleep)).inc (LIN_HDR_CNT_VAL n) := by
  unfold linStop
  dsimp only
  rw [h, if_pos rfl, if_pos rfl]
  rfl

theorem lin_linStopped (s : State) (n : Nat) (last : Option (Nat × List Byte)) : (s.linStopped n last).lin n =
    { s.lin n with run := none, sleepCmd := false, await := none, due := none, sending := last } :=
  (lin_put _ _ _ _).trans (lin_setLin_self s n _)

theorem linStopped_shows (s : State) (n : Nat) (last : Option (Nat × List Byte)) :
    (s.linStopped n last).flag (LIN_STATUS_RUNNING n) = false ∧ s.linBack (s.linStopped n last) = s ∧
    s.RegsBut (s.linStopped n last) [rLIN_STATUS n] :=
  ⟨flag_clear_self (s.setLin n _) (by decide : 27 + 1 ≤ 32) rfl, (s.linBack_put _ _ _).trans (s.linBack_setLin s n _),
    ((RegsBut.refl s _).setLin n _).put _ List.mem_cons_self⟩

theorem fld_linStopped_count (s : State) (n : Nat) (last : Option (Nat × List Byte)) :
    (s.linStopped n last).fld (LIN_HDR_CNT_VAL n) = s.fld (LIN_HDR_CNT_VAL n) :=
  (fld_put_channel _ _ (by decide) (by decide)).trans (fld_setLin s n _ _)

/-- The go-to-sleep command is sent and its header counted. -/
theorem linStop_sleeps_shows (h : (s.lin n).sleepCmd = true) : (s.linStop n).flag (LIN_STATUS_RUNNING n) = false ∧
    ((s.linStop n).lin n).sleepCmd = false ∧ ((s.linStop n).lin n).sending = some goToSleep ∧
    (s.linStop n).fld (LIN_HDR_CNT_VAL n) = (s.fld (LIN_HDR_CNT_VAL n) + 1) % 2 ^ (LIN_HDR_CNT_VAL n).wid ∧
    s.linBack (s.linStop n) = s ∧ s.RegsBut (s.linStop n) [rLIN_STATUS n, rLIN_HDR_CNT n] := by
  obtain ⟨hrunning, hback, hregs⟩ := s.linStopped_shows n (some goToSleep)
  rw [linStop_sleeps h, fld_inc_self _ (by decide : 0 + 32 ≤ 32), fld_linStopped_count, inc_eq, lin_put, lin_linStopped, linBack_put]
  exact ⟨(flag_put_channel _ _ (by decide) (by decide)).trans hrunning, rfl, rfl, rfl, hback,
    (hregs.mono (by simp)).put _ (List.mem_cons_of_mem _ List.mem_cons_self)⟩

/-- The slot of an entry begins. -/
def linSlotShown (s : State) (n t entry : Nat) : State :=
  (((s.setLin n { s.lin n with sel := none, run := none }).put (LIN_STATUS_TABLE n) t).put (LIN_STATUS_ENTRY n) entry).put
    (LIN_STATUS_RUNNING n) 1

/-- A slot that begins, with the event of a table taken up. -/
def linSlotBegun (s : State) (n t entry : Nat) : State :=
  if t ≠ s.fld (LIN_STATUS_TABLE n) then (s.linSlotShown n t entry).setFlag (LIN_EVT_SCHED_SWITCH n) else s.linSlotShown n t entry

theorem linAdvance_starts {t : Nat} (hsel : (s.lin n).sel = some t) (hnot : s.flag (LIN_STATUS_RUNNING n) = false)
    (htab : (s.linTable n t).1 < (s.linTable n t).2) : ∃ id, s.linAdvance n e =
      ((s.linSlotBegun n t (s.linTable n t).1).inc (LIN_HDR_CNT_VAL n)).linHeader n id (s.stampNow e) 0 := by
  have hfresh : ∀ p : Prop, (t != s.fld (LIN_STATUS_TABLE n) || !false) = true ∨ p := fun _ => .inl (Bool.or_true _)
  refine ⟨s.linRec n (144 + 2 * (s.linTable n t).1) 1 % 64, ?_⟩
  unfold linAdvance
  dsimp only
  rw [hsel, Option.getD_some, hnot, if_neg (Nat.not_le.mpr htab), if_pos (hfresh _)]
  rfl

theorem linSlotShown_shows (s : State) (n t entry : Nat) :
    (s.linSlotShown n t entry).flag (LIN_STATUS_RUNNING n) = true ∧
    (s.linSlotShown n t entry).fld (LIN_STATUS_TABLE n) = t % 2 ^ (LIN_STATUS_TABLE n).wid ∧
    (s.linSlotShown n t entry).fld (LIN_STATUS_ENTRY n) = entry % 2 ^ (LIN_STATUS_ENTRY n).wid ∧
    (s.linSlotShown n t entry).fld (LIN_HDR_CNT_VAL n) = s.fld (LIN_HDR_CNT_VAL n) ∧
    (s.linSlotShown n t entry).lin n = { s.lin n with sel := none, run := none } := by
  refine ⟨flag_setFlag_self _ (by decide : 27 + 1 ≤ 32) rfl, ?_, ?_, ?_, ?_⟩
  · refine (fld_put_channel _ _ (by decide) (by decide)).trans ((fld_put_channel _ _ (by decide) (by decide)).trans ?_)
    exact fld_put_self _ _ _ (by decide : 28 + 2 ≤ 32)
  · exact (fld_put_channel _ _ (by decide) (by decide)).trans (fld_put_self _ _ _ (by decide : 16 + 6 ≤ 32))
  · refine (fld_put_channel _ _ (by decide) (by decide)).trans ((fld_put_channel _ _ (by decide) (by decide)).trans ?_)
    exact (fld_put_channel _ _ (by decide) (by decide)).trans (fld_setLin s n _ _)
  · rw [linSlotShown, lin_put, lin_put, lin_put, lin_setLin_self]

/-- The event of a table taken up leaves the channel and its other registers. -/
theorem linSlotBegun_leaves (s : State) (n t entry : Nat) :
    (s.linSlotBegun n t entry).lin n = (s.linSlotShown n t entry).lin n ∧
    (s.linSlotShown n t entry).RegsBut (s.linSlotBegun n t entry) [rLIN_EVT n] := by
  unfold linSlotBegun
  split
  · exact ⟨lin_put _ _ _ _, (RegsBut.refl _ _).put _ List.mem_cons_self⟩
  · exact ⟨rfl, .refl _ _⟩

theorem linAdvance_starts_shows {t : Nat} (hsel : (s.lin n).sel = some t) (hnot : s.flag (LIN_STATUS_RUNNING n) = false)
    (htab : (s.linTable n t).1 < (s.linTable n t).2) : (s.linAdvance n e).flag (LIN_STATUS_RUNNING n) = true ∧
    (s.linAdvance n e).fld (LIN_STATUS_TABLE n) = t % 2 ^ (LIN_STATUS_TABLE n).wid ∧
    (s.linAdvance n e).fld (LIN_STATUS_ENTRY n) = (s.linTable n t).1 % 2 ^ (LIN_STATUS_ENTRY n).wid ∧
    ((s.linAdvance n e).lin n).run = none ∧ ((s.linAdvance n e).lin n).sel = none ∧
    ((s.linAdvance n e).lin n).breakTs = s.stampNow e ∧
    (s.linAdvance n e).fld (LIN_HDR_CNT_VAL n) = (s.fld (LIN_HDR_CNT_VAL n) + 1) % 2 ^ (LIN_HDR_CNT_VAL n).wid := by
  obtain ⟨id, hadvance⟩ := linAdvance_starts (e := e) hsel hnot htab
  obtain ⟨hrunning, htable, hentry, hcount, hlin⟩ := s.linSlotShown_shows n t (s.linTable n t).1
  obtain ⟨hlinBegun, hbegun⟩ := s.linSlotBegun_leaves n t (s.linTable n t).1
  obtain ⟨hrun, hsel', hbreak, hheader⟩ :=
    ((s.linSlotBegun n t (s.linTable n t).1).inc (LIN_HDR_CNT_VAL n)).linHeader_leaves n id (s.stampNow e) 0
  have hbefore : ((s.linSlotBegun n t (s.linTable n t).1).inc (LIN_HDR_CNT_VAL n)).lin n = { s.lin n with sel := none, run := none } := by
    rw [inc_eq, lin_put, hlinBegun, hlin]
  have hstatus : ∀ f : Fld, f.addr = rLIN_STATUS n → (s.linAdvance n e).fld f = (s.linSlotShown n t (s.linTable n t).1).fld f :=
    fun f hf => by
      rw [hadvance, hheader.fld (by rw [hf]; simp [rLIN_STATUS, rLIN_NO_DATA_CNT, rLIN_EVT]), inc_eq,
        fld_put_addr _ _ (by rw [hf]; simp [rLIN_STATUS, LIN_HDR_CNT_VAL, rLIN_HDR_CNT]),
        hbegun.fld (by rw [hf]; simp [rLIN_STATUS, rLIN_EVT])]
  refine ⟨(congrArg (· == 1) (hstatus _ rfl)).trans hrunning, (hstatus _ rfl).trans htable, (hstatus _ rfl).trans hentry, ?_, ?_, ?_, ?_⟩
  · rw [hadvance, hrun, hbefore]
  · rw [hadvance, hsel', hbefore]
  · rw [hadvance, hbreak]
  · rw [hadvance, hheader.fld (by simp [LIN_HDR_CNT_VAL, rLIN_HDR_CNT, rLIN_NO_DATA_CNT, rLIN_EVT]),
      fld_inc_self _ (by decide : 0 + 32 ≤ 32), hbegun.fld (by simp [LIN_HDR_CNT_VAL, rLIN_HDR_CNT, rLIN_EVT]), hcount]

end
end State
end Sys2Proof.Machine
end

section
/-! PROOFS. The schedule of a LIN channel, its headers and its responses (R339, R348 to R352, R373): O44. -/

namespace Sys2Proof.Machine
namespace State

/-! ## A responder's header (R348, R351) -/

section
variable {s : State} {n pid age : Nat} {d : List Byte}

theorem exec_linHeader_ignored (h : s.flag (LIN_CFG_ROLE n) = true ∨ s.linkUp (64 + n) = false ∨ pid ≠ linPid (pid % 64)) :
    exec (.linHeader n pid age) s = .next s := by
  refine congrArg Host.Outcome.next (if_neg ?_)
  rintro ⟨-, hrole, hl, hp⟩
  rcases h with h | h | h
  · simp [h] at hrole
  · simp [h] at hl
  · exact h hp

theorem exec_linHeader_heard (hn : n < 16) (hrole : s.flag (LIN_CFG_ROLE n) = false) (hl : s.linkUp (64 + n) = true)
    (hp : pid = linPid (pid % 64)) :
    exec (.linHeader n pid age) s = .next (s.linHeader n (pid % 64) (s.stampAgo age) age) :=
  congrArg Host.Outcome.next (if_pos ⟨hn, hrole, hl, hp⟩)

theorem lin_linHeard (s : State) (n : Nat) (ts : List TbTime) (age : Nat) : (s.linHeard n ts age).lin n =
    { s.lin n with breakTs := ts, breakAt := clkSince s.clk age, await := none, due := none, sending := none } :=
  lin_setLin_self s n _

variable {id : Nat} {ts : List TbTime}

/-- A state with the LIN channels put back to those of another. -/
def linsBack (s t : State) : State := { t with lins := s.lins }

theorem linsBack_setLin (s t : State) (n : Nat) (x : LinSt) : s.linsBack (t.setLin n x) = s.linsBack t := rfl

/-- A change of the channel after the header was heard. -/
theorem linsBack_linHeard (s : State) (n : Nat) (ts : List TbTime) (age : Nat) (x : LinSt) :
    s.linsBack ((s.linHeard n ts age).setLin n x) = s := (s.linsBack_setLin _ n x).trans (s.linsBack_setLin s n _)

theorem linHeader_subscribed_shows (h : s.linDir n id = 1) : ((s.linHeader n id ts age).lin n).await = some id ∧
    ((s.linHeader n id ts age).lin n).sending = none ∧ ((s.linHeader n id ts age).lin n).breakTs = ts ∧
    s.linsBack (s.linHeader n id ts age) = s := by
  rw [linHeader_subscribed h, lin_setLin_self, lin_linHeard, linsBack_linHeard]
  exact ⟨rfl, rfl, rfl, rfl⟩

theorem linHeader_published_shows (h : s.linDir n id = 2) (hd : s.linResp n id = some d) :
    ((s.linHeader n id ts age).lin n).due = some id ∧ ((s.linHeader n id ts age).lin n).sending = none ∧
    ((s.linHeader n id ts age).lin n).await = none ∧ s.linsBack (s.linHeader n id ts age) = s := by
  rw [linHeader_published h hd, lin_setLin_self, lin_linHeard, linsBack_linHeard]
  exact ⟨rfl, rfl, rfl, rfl⟩

theorem linHeader_unwritten_shows (h : s.linDir n id = 2) (hd : s.linResp n id = none) :
    ((s.linHeader n id ts age).lin n).due = none ∧ ((s.linHeader n id ts age).lin n).sending = none ∧
    ((s.linHeader n id ts age).lin n).await = none ∧ (s.linHeader n id ts age).flag (LIN_EVT_NO_DATA n) = true ∧
    (s.linHeader n id ts age).fld (LIN_NO_DATA_CNT_VAL n) =
      (s.fld (LIN_NO_DATA_CNT_VAL n) + 1) % 2 ^ (LIN_NO_DATA_CNT_VAL n).wid ∧
    s.linBack (s.linHeader n id ts age) = s ∧ s.RegsBut (s.linHeader n id ts age) [rLIN_NO_DATA_CNT n, rLIN_EVT n] := by
  obtain ⟨-, -, -, hregs⟩ := s.linHeader_leaves n id ts age
  rw [linHeader_unwritten h hd] at hregs ⊢
  rw [setFlag_eq, lin_put, inc_eq, lin_put, lin_linHeard, linBack_put, linBack_put]
  refine ⟨rfl, rfl, rfl, flag_setFlag_self _ (by decide : 4 + 1 ≤ 32) rfl, ?_, linBack_setLin s s n _, hregs⟩
  exact (fld_put_channel _ _ (by decide) (by decide)).trans (fld_inc_self (s.linHeard n ts age) (by decide : 0 + 32 ≤ 32))

end

/-! ## The response the device sends (R351, R353) -/

section
variable {s : State} {n id : Nat} {d : List Byte} {e : LinErr}

/-- What the device sends: data and the checksum of its ID. -/
def linSent (s : State) (n id : Nat) (d : List Byte) : List Byte :=
  d ++ [linChecksum (if s.linEnhanced n id then some (linPid id) else none) d]

/-- The data of a response that starts: the buffer's, or what a write of the same clock replaced. -/
def linStartData (s : State) (n id : Nat) (d : List Byte) : List Byte :=
  match (s.lin n).old with
  | some (i, b, t) => if i = id ∧ t = s.clk then b else d
  | none => d

theorem linStart_idle (h : (s.lin n).due = none) : s.linStart n = s := by
  unfold linStart
  dsimp only
  rw [h]

theorem linStart_sends (hdue : (s.lin n).due = some id) (hd : s.linResp n id = some d) : s.linStart n =
    s.setLin n { s.lin n with due := none, sending := some (id, s.linSent n id (s.linStartData n id d)) } := by
  unfold linStart
  dsimp only
  rw [hdue]
  dsimp only
  rw [hd]
  rfl

theorem linStart_shows (hdue : (s.lin n).due = some id) (hd : s.linResp n id = some d) :
    ((s.linStart n).lin n).due = none ∧ { s.linStart n with lins := s.lins } = s ∧
    ((s.lin n).old = none → ((s.linStart n).lin n).sending = some (id, s.linSent n id d)) ∧
    (∀ b, (s.lin n).old = some (id, b, s.clk) → ((s.linStart n).lin n).sending = some (id, s.linSent n id b)) := by
  rw [linStart_sends hdue hd, lin_setLin_self]
  refine ⟨rfl, rfl, fun h => ?_, fun b h => ?_⟩
  · rw [linStartData, h]
  · rw [linStartData, h]
    exact congrArg (fun x => some (id, s.linSent n id x)) (if_pos ⟨rfl, rfl⟩)

/-! ## What a response tells (R351, R352) -/

/-- An error counted and reported, after which nothing is awaited, due or sent. -/
theorem linError_shows (s : State) {cnt : Fld} (hcnt : cnt.lsb + cnt.wid ≤ 32) (ha : apart (LIN_EVT_RX_ERR n) cnt) :
    ((s.linError n cnt).lin n).sending = none ∧ ((s.linError n cnt).lin n).await = none ∧
    ((s.linError n cnt).lin n).due = none ∧ (s.linError n cnt).flag (LIN_EVT_RX_ERR n) = true ∧
    (s.linError n cnt).fld cnt = (s.fld cnt + 1) % 2 ^ cnt.wid ∧ s.linBack (s.linError n cnt) = s ∧
    s.RegsBut (s.linError n cnt) [cnt.addr, rLIN_EVT n] := by
  unfold linError
  rw [lin_setLin_self, flag_setLin, fld_setLin, linBack_setLin, setFlag_eq, linBack_put, inc_eq, linBack_put]
  refine ⟨rfl, rfl, rfl, flag_setFlag_self _ (by decide : 3 + 1 ≤ 32) rfl, ?_, s.linBack_self, ?_⟩
  · rw [fld_put_apart _ _ hcnt ha, fld_put_self _ _ _ hcnt]
  · exact (((RegsBut.refl s _).put _ List.mem_cons_self).put _ (List.mem_cons_of_mem _ List.mem_cons_self)).setLin n _

theorem exec_linResponse_down (hl : s.linkUp (64 + n) = false) : exec (.linResponse n d e) s = .next s :=
  congrArg Host.Outcome.next (if_pos (by simp [hl]))

section
variable (hn : n < 16) (hl : s.linkUp (64 + n) = true)
include hn hl

theorem exec_linResponse_start : exec (.linResponse n d .start) s = .next (s.linStart n) :=
  congrArg Host.Outcome.next (if_neg (not_not_intro ⟨hn, hl⟩))

theorem exec_linResponse_bit : exec (.linResponse n d .bit) s = .next (s.linError n (LIN_BIT_ERR_CNT_VAL n)) :=
  congrArg Host.Outcome.next (if_neg (not_not_intro ⟨hn, hl⟩))

/-- The device has sent its response to the end. -/
theorem exec_linResponse_sent {x : Nat × List Byte} (hs : (s.lin n).sending = some x) (hb : e ≠ .bit) (hst : e ≠ .start) :
    exec (.linResponse n d e) s = .next (s.setLin n { s.lin n with sending := none }) := by
  refine congrArg Host.Outcome.next ((if_neg (not_not_intro ⟨hn, hl⟩)).trans ?_)
  rw [hs]
  cases e with
  | start => exact absurd rfl hst
  | bit => exact absurd rfl hb
  | none => rfl
  | checksum => rfl
  | framing => rfl

variable (hs : (s.lin n).sending = none) (ha : (s.lin n).await = some id)
include hs ha

theorem exec_linResponse_checksum : exec (.linResponse n d .checksum) s = .next (s.linError n (LIN_CKSUM_ERR_CNT_VAL n)) := by
  refine congrArg Host.Outcome.next ((if_neg (not_not_intro ⟨hn, hl⟩)).trans ?_)
  rw [hs, ha]

theorem exec_linResponse_framing : exec (.linResponse n d .framing) s = .next (s.linError n (LIN_FRAMING_ERR_CNT_VAL n)) := by
  refine congrArg Host.Outcome.next ((if_neg (not_not_intro ⟨hn, hl⟩)).trans ?_)
  rw [hs, ha]

theorem exec_linResponse_whole : exec (.linResponse n d .none) s =
    .next (if s.linLen n id ≤ d.length then s.linAccept n id (d.take (s.linLen n id)) else s) := by
  refine congrArg Host.Outcome.next ((if_neg (not_not_intro ⟨hn, hl⟩)).trans ?_)
  rw [hs, ha]

end

theorem exec_linResponseTimeout_missing (hn : n < 16) (ha : (s.lin n).await = some id) :
    exec (.linResponseTimeout n) s = .next (s.linError n (LIN_NO_RESP_CNT_VAL n)) :=
  congrArg Host.Outcome.next (if_pos ⟨hn, by simp [ha]⟩)

theorem exec_linResponseTimeout_idle (ha : (s.lin n).await = none) : exec (.linResponseTimeout n) s = .next s :=
  congrArg Host.Outcome.next (if_neg (by simp [ha]))

end
end State

/-- Settles O44: the schedule by the slot's cases, headers by their direction, and responses by what they tell while something is sent or awaited. -/
theorem linRunsItsSchedule : Obligations.LinRunsItsSchedule := by
  unfold Obligations.LinRunsItsSchedule
  refine ⟨fun s r n sel e run hn => ⟨fun hr => ⟨?_, ?_, fun h => ?_, fun h => ?_, fun h => ?_, fun h => ?_⟩, fun hp => ?_, fun h => ?_,
      State.exec_linBusRelease_idle, fun hrole hl hs => ⟨fun h => ?_, State.exec_linSlot_idle hn hrole hl hs,
        fun hr hnot hsel _ htab => ?_⟩, fun hrole hl hs => ?_⟩,
    fun s n pid age id d e hn => ⟨State.exec_linHeader_ignored, fun hrole hl hp => ?_, fun hl hdue hd => ?_, fun hl hdue => ?_,
      fun hl => ?_, fun hl hs hb hst => ?_, State.exec_linResponse_down, fun hl hs ha => ⟨?_, ?_, fun he hd => ?_, fun he hd => ?_⟩,
      fun ha => ?_, State.exec_linResponseTimeout_idle⟩⟩
  · exact ⟨_, State.exec_linAdminDown hn hr true, s.writeLinAdmin_down_shows hn⟩
  · exact ⟨_, State.exec_linAdminDown hn hr false, s.writeLinAdmin_up_shows hn⟩
  · exact ⟨_, State.exec_linSchedSel hn hr sel, State.writeSchedSel_shows h⟩
  · exact (State.exec_linSchedSel hn hr sel).trans (congrArg Host.Outcome.next (State.writeSchedSel_ignored h))
  · exact ⟨_, State.exec_linSchedRun hn hr run, State.writeSchedRun_commander_shows h run⟩
  · exact ⟨_, State.exec_linSchedRun hn hr run, State.writeSchedRun_responder_shows h run⟩
  · exact ⟨_, State.exec_linBusDominant hn hp, s.linDominant_shows hn⟩
  · exact ⟨_, State.exec_linBusRelease_ends hn h, s.linReleased_shows hn⟩
  · obtain ⟨hrunning, hback, hregs⟩ := s.linStopped_shows n none
    refine ⟨_, (State.exec_linSlot_stops hn hrole hl (.inl h)).trans (congrArg Host.Outcome.next (State.linStop_quiet hs)), hrunning, ?_⟩
    rw [State.lin_linStopped]
    exact ⟨rfl, rfl, rfl, hback, hregs⟩
  · exact ⟨_, State.exec_linSlot_starts hn hrole hl hs hr, State.linAdvance_starts_shows hsel hnot htab⟩
  · exact ⟨_, State.exec_linSlot_stops hn hrole hl (.inr hs), State.linStop_sleeps_shows hs⟩
  · have hheard := State.exec_linHeader_heard (age := age) hn hrole hl hp
    exact ⟨fun h => ⟨_, hheard, State.linHeader_subscribed_shows h⟩, fun h hd => ⟨_, hheard, State.linHeader_published_shows h hd⟩,
      fun h hd => ⟨_, hheard, State.linHeader_unwritten_shows h hd⟩⟩
  · exact ⟨_, State.exec_linResponse_start hn hl, State.linStart_shows hdue hd⟩
  · exact (State.exec_linResponse_start hn hl).trans (congrArg Host.Outcome.next (State.linStart_idle hdue))
  · exact ⟨_, State.exec_linResponse_bit hn hl, s.linError_shows (by decide : 0 + 32 ≤ 32) (State.apart_channel (by decide))⟩
  · refine ⟨_, State.exec_linResponse_sent hn hl hs hb hst, ?_, rfl⟩
    rw [State.lin_setLin_self]
  · obtain ⟨-, hawait, -, hevent, hcount, -⟩ := s.linError_shows (cnt := LIN_CKSUM_ERR_CNT_VAL n) (by decide : 0 + 32 ≤ 32)
      (State.apart_channel (by decide))
    exact ⟨_, State.exec_linResponse_checksum hn hl hs ha, hawait, hevent, hcount⟩
  · obtain ⟨-, hawait, -, -, hcount, -⟩ := s.linError_shows (cnt := LIN_FRAMING_ERR_CNT_VAL n) (by decide : 0 + 32 ≤ 32)
      (State.apart_channel (by decide))
    exact ⟨_, State.exec_linResponse_framing hn hl hs ha, hawait, hcount⟩
  · subst he
    rw [State.exec_linResponse_whole hn hl hs ha, if_pos (Nat.le_of_eq hd.symm), List.take_of_length_le (Nat.le_of_eq hd)]
  · subst he
    rw [State.exec_linResponse_whole hn hl hs ha, if_neg (Nat.not_le.mpr hd)]
  · obtain ⟨-, hawait, -, hevent, hcount, hback, -⟩ := s.linError_shows (cnt := LIN_NO_RESP_CNT_VAL n) (by decide : 0 + 32 ≤ 32)
      (State.apart_channel (by decide))
    exact ⟨_, State.exec_linResponseTimeout_missing hn ha, hawait, hevent, hcount, hback⟩

end Sys2Proof.Machine
end

section
/-! PROOFS. ACF batches that close, and AVTPDUs unpacked message by message (R359 to R363): O45. -/

namespace Sys2Proof.Machine
namespace State

section
variable {s : State} {n : Nat}

/-! ## A batch closes (R359 to R361) -/

theorem acf_can (s : State) (hn : n < 32) : s.acf (32 + n) = ((s.can n).batch, (s.can n).batchN, (s.can n).acfSeq) := by
  unfold acf
  rw [if_pos (by omega), Nat.add_sub_cancel_left]

theorem acf_lin (s : State) (n : Nat) : s.acf (64 + n) = ((s.lin n).batch, (s.lin n).batchN, (s.lin n).acfSeq) := by
  unfold acf
  rw [if_neg (by omega), Nat.add_sub_cancel_left]

theorem acfClose_empty {p : Nat} (h : (s.acf p).2.1 = 0) : s.acfClose p = s := by
  unfold acfClose
  exact if_pos h

theorem exec_acfBatchClose_can (hn : n < 32) : exec (.acfBatchClose false n) s = .next (s.acfClose (32 + n)) :=
  congrArg Host.Outcome.next (if_neg (by simp [hn]))

theorem exec_acfBatchClose_lin (hn : n < 16) : exec (.acfBatchClose true n) s = .next (s.acfClose (64 + n)) :=
  congrArg Host.Outcome.next (if_neg (by omega))

/-- The batch of a CAN channel taken, under its sequence number, and counted as sent. -/
def canBatchTaken (s : State) (n : Nat) : State :=
  (s.setCan n { s.can n with batch := [], batchN := 0, acfSeq := ((s.can n).acfSeq + 1) % 256 }).inc (CAN_ACF_SENT_CNT_VAL n)

/-- The frame of KIND 0x03 that a batch of a CAN channel becomes. -/
def canBatchFrame (s : State) (n : Nat) : List Byte :=
  legacyHeader 3 (32 + n) (s.can n).batchN 0 (s.avtpdu (32 + n) (s.can n).batch (s.can n).acfSeq).length 0 0 0 0 s.nowCt ++
    s.avtpdu (32 + n) (s.can n).batch (s.can n).acfSeq

/-- That frame enters the core, or is refused. -/
def canBatchEntry (s : State) (n : Nat) : State × Bool :=
  (s.canBatchTaken n).receive (32 + n) true (s.canBatchFrame n) (s.canBatchTaken n).stamp 0 none

theorem acfClose_can (hn : n < 32) (hb : (s.can n).batchN ≠ 0) {s3 : State} {ok : Bool} (h : s.canBatchEntry n = (s3, ok)) :
    s.acfClose (32 + n) = if ok then s3 else (s3.inc (CAN_ACF_DROP_CNT_VAL n)).setFlag (CAN_EVT_ACF_DROP n) := by
  have hcan : 32 + n < 64 := by omega
  unfold acfClose setAcf
  rw [acf_can s hn]
  dsimp only
  rw [if_neg hb, if_pos hcan, if_pos hcan, Nat.add_sub_cancel_left]
  split
  · next hentry =>
    cases h.symm.trans hentry
    rfl
  · next hentry =>
    cases h.symm.trans hentry
    exact if_pos hcan

/-! ## The walk through an AVTPDU goes on or ends (R362, R363) -/

theorem unpacking_can (s : State) (hn : n < 32) : s.unpacking (32 + n) = (s.can n).unpack := by
  unfold unpacking
  rw [if_pos (by omega), Nat.add_sub_cancel_left]

theorem unpacking_lin (s : State) (n : Nat) : s.unpacking (64 + n) = (s.lin n).unpack := by
  unfold unpacking
  rw [if_neg (by omega), Nat.add_sub_cancel_left]

/-- A walk moves one message on, where there is one. -/
theorem execUnpackMove_eq {lin : Bool} {p : Nat} (hp : (if lin then 64 + n else 32 + n) = p)
    (hn : ¬ ((lin = true ∧ 16 ≤ n) ∨ 32 ≤ n)) :
    exec (.unpackMove lin n) s = .next ((s.unpacking p).elim s (fun u => s.unpackNext p u)) := by
  subst hp
  refine congrArg Host.Outcome.next ((if_neg hn).trans ?_)
  split
  · next hu => rw [hu, Option.elim_some]
  · next hu => rw [hu, Option.elim_none]

theorem exec_unpackMove_can (hn : n < 32) :
    exec (.unpackMove false n) s = .next ((s.can n).unpack.elim s (fun u => s.unpackNext (32 + n) u)) :=
  unpacking_can s hn ▸ execUnpackMove_eq (if_neg Bool.false_ne_true) (by simp [hn])

theorem exec_unpackMove_lin (hn : n < 16) :
    exec (.unpackMove true n) s = .next ((s.lin n).unpack.elim s (fun u => s.unpackNext (64 + n) u)) :=
  unpacking_lin s n ▸ execUnpackMove_eq (if_pos rfl) (by omega)

variable {u : Unpack}

theorem unpackRest_can_end (s : State) (hn : n < 32) (u : Unpack) :
    (s.setCan n { s.can n with unpack := none }).SameChannels (s.unpackRest (32 + n) u []) := by
  unfold unpackRest
  dsimp only
  rw [if_pos rfl, if_pos rfl, if_pos (by omega), Nat.add_sub_cancel_left]
  exact (captureOut_sameChannels _ _ _ _ _).trans (release_sameChannels _ _)

theorem unpackRest_lin_end (s : State) (n : Nat) (u : Unpack) :
    (s.setLin n { s.lin n with unpack := none }).SameChannels (s.unpackRest (64 + n) u []) := by
  unfold unpackRest
  dsimp only
  rw [if_pos rfl, if_pos rfl, if_neg (by omega), Nat.add_sub_cancel_left]
  exact (captureOut_sameChannels _ _ _ _ _).trans (release_sameChannels _ _)

theorem unpackRest_can_on (s : State) (hn : n < 32) (u : Unpack) {rest : List Byte} (h : rest ≠ []) :
    s.unpackRest (32 + n) u rest = s.setCan n { s.can n with unpack := some { u with rest := rest } } := by
  unfold unpackRest
  dsimp only
  rw [if_neg h, if_neg h, if_pos (by omega), Nat.add_sub_cancel_left]

theorem unpack_can_end (s : State) (hn : n < 32) (u : Unpack) : ((s.unpackRest (32 + n) u []).can n).unpack = none := by
  rw [(s.unpackRest_can_end hn u).can, can_setCan_self]

theorem unpack_lin_end (s : State) (n : Nat) (u : Unpack) : ((s.unpackRest (64 + n) u []).lin n).unpack = none := by
  rw [(s.unpackRest_lin_end n u).lin, lin_setLin_self]

/-! ## One message of the walk -/

/-- The length in bytes that a message names. -/
def acfLen (bs : List Byte) : Nat := 4 * (byteAt bs 0 % 2 * 256 + byteAt bs 1)

theorem unpackNext_end {p : Nat} (h : u.rest = []) : s.unpackNext p u = s.unpackRest p u [] := if_pos h

theorem unpackNext_bad (hn : n < 32) (hr : u.rest ≠ [])
    (h : acfLen u.rest = 0 ∨ u.rest.length < 2 ∨ u.rest.length < acfLen u.rest) : s.unpackNext (32 + n) u =
      ((s.inc (CAN_UNPACK_BAD_CNT_VAL n)).setFlag (CAN_EVT_UNPACK_BAD n)).unpackRest (32 + n) u [] := by
  have hbad : acfLen u.rest = 0 ∨ u.rest.length < acfLen u.rest ∨ u.rest.length < 2 := h.imp_right Or.symm
  have hcan : 32 + n < 64 := by omega
  refine (if_neg hr).trans ((if_pos hbad).trans ?_)
  dsimp only
  rw [if_pos hcan, Nat.add_sub_cancel_left]

theorem canBad_shows (s : State) (hn : n < 32) (u : Unpack) {t : State}
    (ht : t = ((s.inc (CAN_UNPACK_BAD_CNT_VAL n)).setFlag (CAN_EVT_UNPACK_BAD n)).unpackRest (32 + n) u []) :
    (t.can n).unpack = none ∧ t.flag (CAN_EVT_UNPACK_BAD n) = true ∧
    t.fld (CAN_UNPACK_BAD_CNT_VAL n) = (s.fld (CAN_UNPACK_BAD_CNT_VAL n) + 1) % 2 ^ (CAN_UNPACK_BAD_CNT_VAL n).wid := by
  subst ht
  have hsame := ((s.inc (CAN_UNPACK_BAD_CNT_VAL n)).setFlag (CAN_EVT_UNPACK_BAD n)).unpackRest_can_end hn u
  rw [hsame.flag (canReg_inChannels hn (by decide)), hsame.fld (canReg_inChannels hn (by decide)), flag_setCan, fld_setCan]
  exact ⟨unpack_can_end _ hn u, flag_setFlag_self _ (by decide : 7 + 1 ≤ 32) rfl,
    (fld_put_channel _ _ (by decide) (by decide)).trans (fld_inc_self s (by decide : 0 + 32 ≤ 32))⟩

section
variable (hn : n < 32) (hpos : 0 < acfLen u.rest) (hlen : acfLen u.rest ≤ u.rest.length)
include hn hpos hlen

/-- A message that the bytes left hold is judged by its type and its bus. -/
theorem unpackNext_whole : s.unpackNext (32 + n) u =
    if (byteAt u.rest 0 / 2 = 1 ∨ byteAt u.rest 0 / 2 = 2) ∧ (if byteAt u.rest 0 / 2 = 1 then 16 else 8) ≤ acfLen u.rest ∧
        byteAt (u.rest.take (acfLen u.rest)) 3 % 32 = s.acfBus (32 + n) then
      (s.unpackCan n u.frame (acfCanMsg (u.rest.take (acfLen u.rest)) (if byteAt u.rest 0 / 2 = 1 then 16 else 8))).elim s
        (fun t => t.unpackRest (32 + n) u (u.rest.drop (acfLen u.rest)))
    else (s.inc (CAN_UNPACK_SKIP_CNT_VAL n)).unpackRest (32 + n) u (u.rest.drop (acfLen u.rest)) := by
  have hfour : 4 ≤ acfLen u.rest := by
    unfold acfLen at hpos ⊢
    omega
  have hr : u.rest ≠ [] := List.ne_nil_of_length_pos (by omega)
  have hgood : ¬ (acfLen u.rest = 0 ∨ u.rest.length < acfLen u.rest ∨ u.rest.length < 2) := by omega
  have hcan : 32 + n < 64 := by omega
  refine (if_neg hr).trans ((if_neg hgood).trans ((if_pos hcan).trans ?_))
  dsimp only
  rw [Nat.add_sub_cancel_left]
  refine ite_congr rfl (fun _ => ?_) fun _ => rfl
  unfold acfLen
  split
  · next ht => rw [ht, Option.elim_some]
  · next ht => rw [ht, Option.elim_none]

theorem unpackNext_skips (h1 : byteAt u.rest 0 / 2 ≠ 1) (h2 : byteAt u.rest 0 / 2 ≠ 2) : s.unpackNext (32 + n) u =
    (s.inc (CAN_UNPACK_SKIP_CNT_VAL n)).unpackRest (32 + n) u (u.rest.drop (acfLen u.rest)) :=
  (unpackNext_whole hn hpos hlen).trans (if_neg fun h => h.1.elim h1 h2)

/-- A message of type ACF_CAN_BRIEF on the channel's bus. -/
theorem unpackNext_brief (h8 : 8 ≤ acfLen u.rest) (h2 : byteAt u.rest 0 / 2 = 2)
    (hbus : byteAt (u.rest.take (acfLen u.rest)) 3 % 32 = s.acfBus (32 + n)) {t : State}
    (ht : s.unpackCan n u.frame (acfCanMsg (u.rest.take (acfLen u.rest)) 8) = some t) :
    s.unpackNext (32 + n) u = t.unpackRest (32 + n) u (u.rest.drop (acfLen u.rest)) := by
  have hheader : (if byteAt u.rest 0 / 2 = 1 then 16 else 8) = 8 := if_neg (by omega)
  rw [unpackNext_whole hn hpos hlen, hheader, if_pos ⟨.inr h2, h8, hbus⟩, ht, Option.elim_some]

end

/-- A message within the channel's format that the egress list passes takes a free entry. -/
theorem unpackCan_moves {f : Frame} {m : CanMsg} {s4 : State} (hf : s.formatExceeds n m.fmt = false)
    (hd : m.data.length ≤ if m.kind = .classic then 8 else 64) (hfree : s.txbufUsed n < 32)
    (hv : s.canList n true m.ext m.id = (s4, .pass)) :
    s.unpackCan n f m = some ((s4.canPush n m f.tc f.time none).inc (CAN_UNPACK_CNT_VAL n)) := by
  have hfits : ¬ (s.formatExceeds n m.fmt = true ∨ (m.kind = .classic ∧ 8 < m.data.length) ∨ 64 < m.data.length) := by
    rw [hf]
    split at hd
    · next hk => simp [hk]; omega
    · next hk => simp [hk]; omega
  unfold unpackCan
  rw [if_neg hfits, if_neg (Nat.not_le.mpr hfree), hv]

/-- A skipped message is counted, and the walk goes on behind it. -/
theorem canSkipped_shows (s : State) (hn : n < 32) (u : Unpack) {rest : List Byte} (h : rest ≠ []) {t : State}
    (ht : t = (s.inc (CAN_UNPACK_SKIP_CNT_VAL n)).unpackRest (32 + n) u rest) :
    (t.can n).unpack = some { u with rest := rest } ∧
    t.fld (CAN_UNPACK_SKIP_CNT_VAL n) = (s.fld (CAN_UNPACK_SKIP_CNT_VAL n) + 1) % 2 ^ (CAN_UNPACK_SKIP_CNT_VAL n).wid ∧
    s.canBack t = s := by
  rw [ht, unpackRest_can_on _ hn u h, can_setCan_self, fld_setCan, canBack_setCan, inc_eq, canBack_put]
  exact ⟨rfl, fld_inc_self s (by decide : 0 + 32 ≤ 32), s.canBack_self⟩

end
end State

/-- Settles O45: a batch closes by what its channel holds and whether its frame enters; a walk goes on by the length, the type and the bus of its next message. -/
theorem acfBatchesAndUnpacking : Obligations.AcfBatchesAndUnpacking := by
  unfold Obligations.AcfBatchesAndUnpacking
  intro s s1 s2 s3 n u hn
  refine ⟨fun h => ?_, fun hlin h => ?_, fun hb h1 h2 => ?_, fun h => ?_, fun hlin h => ?_, fun hu => ?_, fun hlin hu hr => ?_⟩
  · rw [State.exec_acfBatchClose_can hn, State.acfClose_empty (by rw [State.acf_can s hn, h])]
  · rw [State.exec_acfBatchClose_lin hlin, State.acfClose_empty (by rw [State.acf_lin, h])]
  · subst h1 h2
    exact ⟨fun h => (State.exec_acfBatchClose_can hn).trans (congrArg Host.Outcome.next (State.acfClose_can hn hb h)),
      fun h => (State.exec_acfBatchClose_can hn).trans (congrArg Host.Outcome.next (State.acfClose_can hn hb h))⟩
  · rw [State.exec_unpackMove_can hn, h, Option.elim_none]
  · rw [State.exec_unpackMove_lin hlin, h, Option.elim_none]
  · have hmove : exec (.unpackMove false n) s = .next (s.unpackNext (32 + n) u) := by
      rw [State.exec_unpackMove_can hn, hu, Option.elim_some]
    have hnext : ∀ {t : State}, s.unpackNext (32 + n) u = t → exec (.unpackMove false n) s = .next t := fun h =>
      hmove.trans (congrArg Host.Outcome.next h)
    refine ⟨fun hr => ⟨_, hnext (State.unpackNext_end hr), s.unpack_can_end hn u, rfl⟩,
      fun hr h => ⟨_, hnext (State.unpackNext_bad hn hr h), s.canBad_shows hn u rfl⟩,
      fun len hlen hpos hlt h1 h2 => ?_, fun len m hlen h8 hle h2 hbus hm hf hd hfree s4 hv => ?_⟩
    · subst hlen
      exact ⟨_, hnext (State.unpackNext_skips hn hpos (Nat.le_of_lt hlt) h1 h2),
        s.canSkipped_shows hn u (List.ne_nil_of_length_pos (by rw [List.length_drop]; exact Nat.sub_pos_of_lt hlt)) rfl⟩
    · subst hlen hm
      exact hnext (State.unpackNext_brief hn (Nat.lt_of_lt_of_le (by decide) h8) hle h8 h2 hbus (State.unpackCan_moves hf hd hfree hv))
  · rw [State.exec_unpackMove_lin hlin, hu, Option.elim_some, State.unpackNext_end hr]
    exact ⟨_, rfl, s.unpack_lin_end n u, rfl⟩

end Sys2Proof.Machine
end

section
/-! PROOFS. A step runs the front command or idles; the boot sequence and the write of PWR_DOM_CTL (R506, R517 to R520): O1, O2, O16
and O19. -/

namespace Sys2Proof.Machine

/-- Settles O1. -/
theorem stepRunsFrontCommand : Obligations.StepRunsFrontCommand := fun _ _ _ h => step_of_front h

/-- Settles O2. -/
theorem idleStepCountsOneMicrosecond : Obligations.IdleStepCountsOneMicrosecond := fun _ h => step_of_empty h

/-! ## The boot sequence (R517 to R520) -/

section
variable {s : State}

theorem exec_bootStepDone_runs (hr : s.pwr.inReset = false) (hh : s.pwr.halted = false) (o : BootOutcome) :
    exec (.bootStepDone o) s = .next (s.bootNext o) := by
  simp only [exec, execBootStepDone, hr, hh, Bool.false_eq_true, or_self, if_false]

theorem exec_bootStepDone_idle (h : s.pwr.inReset = true ∨ s.pwr.halted = true) (o : BootOutcome) :
    exec (.bootStepDone o) s = .next s := by
  simp only [exec, execBootStepDone, if_pos h]

theorem State.bootStep_regs (s : State) (n : Nat) : (s.bootStep n).regs = s.regs := rfl
theorem State.bootStep_pwr (s : State) (n : Nat) : (s.bootStep n).pwr = { s.pwr with boot := n } := rfl
@[simp] theorem State.bootStep_fld (s : State) (n : Nat) (f : Fld) : (s.bootStep n).fld f = s.fld f := rfl

/-- What step 2 shows: the three PLLs locked, and the cores that failed their test. -/
def State.pllsLocked (s : State) (cores : Nat) : State :=
  (((s.put CLK_STATUS_PLL_CORE 1).put CLK_STATUS_PLL_MC 1).put CLK_STATUS_PLL_TS 1).put PWR_BOOT_STATUS_FENCED (7 - cores % 8)

theorem State.pllsLocked_onlyRegs (s : State) (cores : Nat) : s.OnlyRegs (s.pllsLocked cores) [rCLK_STATUS, rPWR_BOOT_STATUS] :=
  ((((OnlyRegs.refl s _).put _ (by decide)).put _ (by decide)).put _ (by decide)).put _ (by decide)

theorem State.pllsLocked_shows (s : State) (cores : Nat) : (s.pllsLocked cores).fld CLK_STATUS_PLL_CORE = 1 ∧
    (s.pllsLocked cores).fld CLK_STATUS_PLL_MC = 1 ∧ (s.pllsLocked cores).fld CLK_STATUS_PLL_TS = 1 := by
  unfold pllsLocked
  refine ⟨?_, ?_, ?_⟩
  · rw [fld_put_addr _ _ (by decide), fld_put_beside _ _ (by decide) (by decide), fld_put_beside _ _ (by decide) (by decide),
      fld_put_self _ _ _ (by decide)]
    rfl
  · rw [fld_put_addr _ _ (by decide), fld_put_beside _ _ (by decide) (by decide), fld_put_self _ _ _ (by decide)]
    rfl
  · rw [fld_put_addr _ _ (by decide), fld_put_self _ _ _ (by decide)]
    rfl

theorem State.bootNext_plls (h : s.pwr.boot = 2) (o : BootOutcome) : s.bootNext o = (s.pllsLocked o.cores).bootStep 3 := by
  simp only [State.bootNext, h, State.pllsLocked]

theorem State.bootNext_firmware (h : s.pwr.boot = 6) (o : BootOutcome) : s.bootNext o = if s.fwVerifies o then
    (if s.fld CHT_FLOOR_FLOOR < dirFloor s.pwr.dir then s.put CHT_FLOOR_FLOOR (dirFloor s.pwr.dir) else s).bootStep 7
    else s.bootRetry 5 := by
  simp only [State.bootNext, h, State.bootFirmware]
  cases s.fwVerifies o <;> rfl

end

/-- Settles O16: the step in progress by its number, the join of Plane B by what holds after its rebuild. -/
theorem bootSequenceSteps : Obligations.BootSequenceSteps := by
  intro s o mode n
  refine ⟨fun hr => ?_, fun hr hh => ?_, fun h => exec_bootStepDone_idle h o, fun hr hboot hmode => ?_,
    fun hj hsleep hiso hidle hres => ?_⟩
  · simp only [exec, execResetRelease, hr, if_true]
  · rw [exec_bootStepDone_runs hr hh]
    refine ⟨fun h1 => ?_, fun h2 => ?_, fun h4 ht => ?_, fun h6 => congrArg _ (State.bootNext_firmware h6 o), fun h9 => ?_⟩
    · have hput : s.OnlyRegs (s.put CLK_STATUS_REF_OK 1) [rCLK_STATUS] := (State.OnlyRegs.refl s _).put _ List.mem_cons_self
      refine ⟨(s.put CLK_STATUS_REF_OK 1).bootStep 2, ?_, ?_, rfl, ?_, hput.regs.same (State.bootStep_regs _ 2)⟩
      · simp only [State.bootNext, h1]
      · exact State.fld_put_self s CLK_STATUS_REF_OK 1 (by decide)
      · exact hput.rest
    · obtain ⟨hcore, hmc, hts⟩ := s.pllsLocked_shows o.cores
      refine ⟨(s.pllsLocked o.cores).bootStep 3, congrArg _ (State.bootNext_plls h2 o), ?_⟩
      simp only [State.bootStep_fld]
      exact ⟨hcore, hmc, hts, State.bootStep_pwr _ 3, (s.pllsLocked_onlyRegs o.cores).regs.same (State.bootStep_regs _ 3)⟩
    · simp only [State.bootNext, h4, ht, Bool.false_eq_true, if_false]
    · simp only [State.bootNext, h9]
  · simp only [exec, execPwrHostbootGo, State.gated_reaches hr, State.writeHostGo, hboot, hmode, and_self, if_true]
  · simp only [exec, execBootPlaneBJoin, State.joinPlaneB, hj, hsleep, hiso, hidle, hres, Option.isSome_none, Bool.false_eq_true,
      Bool.true_eq_false, ne_eq, not_true_eq_false, or_self, if_false, if_true]

/-! ## Firmware-controlled domains (R506) -/

section
variable {s : State}

theorem exec_pwrDomWrite {r : Requester} (hr : s.reaches r rPWR_DOM_CTL) (off : Nat) :
    exec (.pwrDomWrite r off) s = .next (s.writeDom off) := by
  simp only [exec, execPwrDomWrite, State.gated_reaches hr]

theorem State.writeDom_busy (h : s.swapBusy = true ∨ s.fld CHT_STATUS_SHADOW = 6) (off : Nat) :
    s.writeDom off = s.put PWR_DOM_CTL_RESULT 3 := by
  refine if_pos (h.imp_right fun h6 => ?_)
  rw [shadowIs_of_fld h6]
  rfl

theorem State.writeDom_free (hs : s.swapBusy = false) (h6 : s.fld CHT_STATUS_SHADOW ≠ 6) (off : Nat) :
    s.writeDom off = if (s.domDowns off).any s.domPinned then s.put PWR_DOM_CTL_RESULT 6 else
      let up := ((List.range 12).filter (fun d => pwrMode s.active d == 2)).filter (fun d => !bitOf off d && !s.domOn d)
      let s1 := up.foldl State.domUp ((s.domDowns off).foldl State.domDown (s.put PWR_DOM_CTL_OFF off))
      ((if 2 ∈ up then s1.channelsUp else s1).put PWR_DOM_CTL_RESULT 2).setFlag PWR_EVT_DOM_DONE := by
  refine if_neg (not_or.mpr ⟨by simp [hs], ?_⟩)
  rw [shadowIs_of_fld rfl]
  simpa [shAPPLYING] using h6

/-- RESULT written, and nothing else. -/
theorem State.domResult_only (s : State) {n : Nat} (hn : n < 2 ^ PWR_DOM_CTL_RESULT.wid) :
    (s.put PWR_DOM_CTL_RESULT n).fld PWR_DOM_CTL_RESULT = n ∧ s.OnlyRegs (s.put PWR_DOM_CTL_RESULT n) [rPWR_DOM_CTL] :=
  ⟨(fld_put_self _ _ _ (by decide)).trans (Nat.mod_eq_of_lt hn), (OnlyRegs.refl s _).put _ List.mem_cons_self⟩

end

/-- Settles O19: a write that no check stops ends with RESULT and its event, whatever the domains did. -/
theorem domainWriteIsRefusedOrDone : Obligations.DomainWriteIsRefusedOrDone := by
  intro s r off hr
  rw [exec_pwrDomWrite hr]
  refine ⟨fun h => ⟨_, congrArg _ (State.writeDom_busy h off), s.domResult_only (by decide)⟩, fun hs h6 hp => ?_, fun hs h6 hp => ?_⟩
  · exact ⟨_, congrArg _ ((State.writeDom_free hs h6 off).trans (if_pos hp)), s.domResult_only (by decide)⟩
  · refine ⟨_, congrArg _ ((State.writeDom_free hs h6 off).trans (if_neg (by simp [hp]))), ?_, State.fld_put_self _ _ 1 (by decide)⟩
    exact (State.fld_put_addr _ _ (by decide)).trans (State.fld_put_self _ PWR_DOM_CTL_RESULT 2 (by decide))

end Sys2Proof.Machine
end

section
/-! PROOFS. Flow requests applied, the flush and the sweeper of the firewall (R401, R403, R404): O48. -/

namespace Sys2Proof.Machine
namespace State

section
variable {s : State} {q : FlowReq}

/-! ## The request applied next (R403) -/

theorem nextFlow_none (ha : s.planeA.flowQ = []) (hb : s.planeB.flowQ = []) : s.nextFlow = none := by
  simp only [nextFlow, ha, hb]

/-- Plane A's request goes first unless Plane B's is older. -/
theorem nextFlow_planeA {qa : List FlowReq} (ha : s.planeA.flowQ = q :: qa) (hb : ∀ b ∈ s.planeB.flowQ.take 1, q.stamp ≤ b.stamp) :
    s.nextFlow = some (q, { s with planeA := { s.planeA with flowQ := qa } }) := by
  cases hq : s.planeB.flowQ with
  | nil => simp only [nextFlow, ha, hq, setPlane]
  | cons b qb =>
    have hle : q.stamp ≤ b.stamp := hb b (by simp [hq])
    simp only [nextFlow, ha, hq, setPlane, if_pos hle]

theorem nextFlow_planeB {a : FlowReq} {qb : List FlowReq} (hb : s.planeB.flowQ = q :: qb)
    (ha : s.planeA.flowQ = [] ∨ (s.planeA.flowQ.head? = some a ∧ q.stamp < a.stamp)) :
    s.nextFlow = some (q, { s with planeB := { s.planeB with flowQ := qb } }) := by
  rcases ha with ha | ⟨ha, hlt⟩
  · simp only [nextFlow, ha, hb, setPlane]
  · obtain ⟨qa, hqa⟩ := List.head?_eq_some_iff.mp ha
    simp only [nextFlow, hqa, hb, setPlane, if_neg (Nat.not_le.mpr hlt)]

theorem exec_flowRequestApply {s1 : State} (h : s.nextFlow = some (q, s1)) :
    exec .flowRequestApply s = .next (s1.applyFlow q) := by
  simp only [exec, execFlowRequestApply, h]

/-! ## What becomes of it -/

section
variable {ri : Nat} {rg : Region} (hhome : s.flowHome = some (ri, rg)) (hw : s.anyWriter = true)
include hhome hw

theorem applyFlow_refreshes {b e : Nat} {x : Slot} (h : bestOf s.epoch (holders rg (s.view rg) q.key) = some (b, e, x)) :
    s.applyFlow q = s.tblApply ri [.status b e 0 0x180] := by
  simp only [applyFlow, hhome, hw, h, Bool.true_eq_false, if_false]

theorem applyFlow_inserts {s2 : State} {x : Nat × Nat} (h : bestOf s.epoch (holders rg (s.view rg) q.key) = none)
    (hp : s.place ri q.key q.result stVALID = (s2, some x)) : s.applyFlow q = s2 := by
  simp only [applyFlow, hhome, hw, h, hp, Bool.true_eq_false, if_false]

theorem applyFlow_fails {s2 : State} (h : bestOf s.epoch (holders rg (s.view rg) q.key) = none)
    (hp : s.place ri q.key q.result stVALID = (s2, none)) : s.applyFlow q =
    ((s2.inc FWL_FLOW_FAIL_CNT_VAL).setFlag FWL_EVT_FLOW_FAIL).setFlag (TBL_EVT_NEED_REHASH s2.lead) := by
  simp only [applyFlow, hhome, hw, h, hp, Bool.true_eq_false, if_false]

end

theorem applyFlow_gone (h : s.flowHome = none ∨ s.anyWriter = false) : s.applyFlow q = s := by
  unfold applyFlow
  rcases h with h | h
  · rw [h]
  · split
    · rfl
    · exact if_pos h

/-! ## Flush and sweeper (R401, R404) -/

section
variable {ri : Nat} {rg : Region} (hhome : s.flowHome = some (ri, rg))
include hhome

theorem exec_flushFlows {r : Requester} (hr : s.reaches r rFWL_CTL) : exec (.flushFlows r) s =
    .next (if s.flag FWL_CFG_FLOWS_EN then s.tblApply ri ((s.flows rg).map (fun x => .clear x.1 x.2.1)) else s) := by
  simp only [exec, execFlushFlows, gated_reaches hr, flushFlows, hhome]

theorem exec_flowSweep (prof : Nat) : exec (.flowSweep prof) s = .next (
    if s.flag FWL_CFG_FLOWS_EN = true ∧ s.anyWriter = true then
      ((s.flows rg).filter (fun x => bits x.2.2.result 0 2 == prof)).foldl (fun s x => s.sweepFlow ri x) s
    else s) := by
  simp only [exec, execFlowSweep, hhome]

end
end
end State

/-- Settles O48: a request by whose FIFO it leaves and what the tables make of it, the sweeper by the flows of its profile. -/
theorem flowsAreAppliedSweptAndFlushed : Obligations.FlowsAreAppliedSweptAndFlushed := by
  intro s s1 r q ri prof rg
  refine ⟨fun ha hb => ?_, fun qa ha hb h1 hhome hw => ?_, fun qa ha hb h1 hgone => ?_, fun a qb hb ha h1 => ?_,
    fun hr hhome => ?_, fun hhome => ?_⟩
  · simp only [exec, execFlowRequestApply, State.nextFlow_none ha hb]
  · subst h1
    rw [State.exec_flowRequestApply (State.nextFlow_planeA ha hb)]
    exact ⟨fun b e x h => congrArg _ (State.applyFlow_refreshes hhome hw h),
      fun s2 x h hp => congrArg _ (State.applyFlow_inserts hhome hw h hp),
      fun s2 h hp => congrArg _ (State.applyFlow_fails hhome hw h hp)⟩
  · subst h1
    rw [State.exec_flowRequestApply (State.nextFlow_planeA ha hb), State.applyFlow_gone hgone]
  · subst h1
    exact State.exec_flowRequestApply (State.nextFlow_planeB hb ha)
  · rw [State.exec_flushFlows hhome hr]
    exact ⟨fun h => congrArg _ (if_pos h), fun h => congrArg _ (if_neg (by simp [h]))⟩
  · rw [State.exec_flowSweep hhome]
    refine ⟨fun h => congrArg _ (if_neg (by rcases h with h | h <;> simp [h])), fun hen hw => ?_⟩
    rw [if_pos ⟨hen, hw⟩]
    refine ⟨fun hnone => ?_, fun x hx hprof => ?_⟩
    · rw [List.filter_eq_nil_iff.mpr fun x hx => by simpa using hnone x hx, List.foldl_nil]
    · have hsweep : (s.flows rg).filter (fun x => bits x.2.2.result 0 2 == prof) = [x] := by simp [hx, hprof]
      rw [hsweep, List.foldl_cons, List.foldl_nil, State.sweepFlow]
      exact ⟨fun h => congrArg _ (if_pos h), fun h => congrArg _ (if_neg (by simp [h]))⟩

end Sys2Proof.Machine
end

section
/-! SUPPORT. Fields read after others were written, by their registers and places. -/

namespace Sys2Proof.Machine
namespace State

section
variable {s : State} {a b i j k l : Nat} (v : Nat)

theorem fld_put_same (h : i + j ≤ 32) : (s.put ⟨a, i, j⟩ v).fld ⟨a, i, j⟩ = v % 2 ^ j := fld_put_self s ⟨a, i, j⟩ v h

theorem fld_put_other (h : b ≠ a) : (s.put ⟨a, i, j⟩ v).fld ⟨b, k, l⟩ = s.fld ⟨b, k, l⟩ := fld_put_addr s v h

theorem fld_put_next (hg : k + l ≤ 32) (h : i + j ≤ k ∨ k + l ≤ i) : (s.put ⟨a, i, j⟩ v).fld ⟨a, k, l⟩ = s.fld ⟨a, k, l⟩ :=
  fld_put_beside s v hg h

end

theorem flag_eq (s : State) (f : Fld) : s.flag f = (s.fld f == 1) := rfl

theorem fld_lt (s : State) (f : Fld) : s.fld f < 2 ^ f.wid := Nat.mod_lt _ (Nat.two_pow_pos _)

/-- A field of one bit is 1 or 0. -/
theorem fld_bit (s : State) {f : Fld} (hw : f.wid = 1) : s.fld f = bitN (s.flag f) := by
  have hlt := s.fld_lt f
  rw [hw] at hlt
  rw [flag_eq]
  obtain h | h : s.fld f = 0 ∨ s.fld f = 1 := by omega
  · rw [h]; rfl
  · rw [h]; rfl

end State
end Sys2Proof.Machine
end

section
/-! SUPPORT. The sources of Clapper: their registers, states and signals, and which of them are pending or delivered (R472, R473). -/

namespace Sys2Proof.Machine
namespace State

/-! ## The register of a source -/

theorem resetValue_clp {a : Nat} (h : a / 0x100000 = 5) : bits (resetValue a).toNat 20 2 = 0 := by
  have hb : blockRegs a = regsCLP := by simp [blockRegs, h]
  have hall : ∀ g ∈ regsCLP, g.reset < 2 ^ 20 ∧ g.base ≠ rBPM_POOL_HEAD .A 0 ∧ g.base ≠ rTIM_TB_CTL 0 := by decide
  unfold resetValue
  split
  · decide
  · next g hg =>
    obtain ⟨hr, h1, h2⟩ := hall g (hb ▸ specAt_mem hg)
    rw [if_neg h1, if_neg (fun h => h2 h.1), BitVec.toNat_ofNat, Nat.mod_eq_of_lt (by omega)]
    simp only [bits]
    omega

/-- A source that is not IDLE is listed. -/
theorem mem_srcListed {s : State} {n st : Nat} (hn : n < 512) (hst : st ≠ 0) (h : s.srcIs n st = true) : n ∈ s.srcListed := by
  have hfld : s.fld (CLP_SRC_CFG_STATE n) = st := beq_iff_eq.mp h
  cases hf : tabFind s.regs (rCLP_SRC_CFG n) with
  | some w =>
    refine List.mem_filterMap.mpr ⟨_, mem_of_tabFind hf, ?_⟩
    refine (if_pos (by simp only [rCLP_SRC_CFG]; omega)).trans (congrArg some ?_)
    simp only [rCLP_SRC_CFG]
    omega
  | none =>
    have hr : s.reg (rCLP_SRC_CFG n) = resetValue (rCLP_SRC_CFG n) := by rw [reg, hf]
    have hb : rCLP_SRC_CFG n / 0x100000 = 5 := by simp only [rCLP_SRC_CFG]; omega
    have h0 : s.fld (CLP_SRC_CFG_STATE n) = 0 := (congrArg (fun w : Word => bits w.toNat 20 2) hr).trans (resetValue_clp hb)
    exact absurd (hfld.symm.trans h0) hst

theorem lt_of_mem_srcListed {s : State} {n : Nat} (h : n ∈ s.srcListed) : n < 512 := by
  obtain ⟨e, -, he⟩ := List.mem_filterMap.mp h
  split at he
  · next hr =>
    have hn := Option.some.inj he
    simp only [rCLP_SRC_CFG] at hr hn
    omega
  · cases he

theorem mem_pendingSrcs {s : State} {n : Nat} : n ∈ s.pendingSrcs ↔ n < 512 ∧ s.srcIs n stPENDING = true :=
  ⟨fun h => ⟨lt_of_mem_srcListed (List.mem_filter.mp h).1, (List.mem_filter.mp h).2⟩,
    fun h => List.mem_filter.mpr ⟨mem_srcListed h.1 (by decide) h.2, h.2⟩⟩

theorem mem_deliveredTo {s : State} {n tg : Nat} :
    n ∈ s.deliveredTo tg ↔ n < 512 ∧ s.srcIs n stDELIVERED = true ∧ s.fld (CLP_SRC_CFG_DLV_TGT n) = tg := by
  rw [deliveredTo, List.mem_filter, Bool.and_eq_true, beq_iff_eq]
  exact ⟨fun h => ⟨lt_of_mem_srcListed h.1, h.2⟩, fun h => ⟨mem_srcListed h.1 (by decide) h.2.1, h.2⟩⟩

theorem srcIs_unique {s : State} {n st st' : Nat} (h : s.srcIs n st = true) (hne : st ≠ st') : s.srcIs n st' = false := by
  rw [srcIs, beq_iff_eq] at h
  rw [srcIs, h]
  exact beq_eq_false_iff_ne.mpr hne

end State
end Sys2Proof.Machine
end

section
/-! SUPPORT. Changes of Clapper, a source put into a state, and a sample of its signal (R472, R473). -/

namespace Sys2Proof.Machine
namespace State

/-! ## Changes that touch the registers listed and Clapper's own state -/

/-- Nothing but Clapper's own state and the registers listed differs. -/
structure OnlyClapper (s t : State) (as : List Nat) : Prop where
  rest : { t with regs := s.regs, clp := s.clp } = s
  regs : s.RegsBut t as

namespace OnlyClapper

variable {s t u : State} {as : List Nat}

theorem refl (s : State) (as : List Nat) : s.OnlyClapper s as := ⟨rfl, RegsBut.refl s as⟩

theorem put (h : s.OnlyClapper t as) {f : Fld} (v : Nat) (ha : f.addr ∈ as) : s.OnlyClapper (t.put f v) as :=
  ⟨h.rest, h.regs.put v ha⟩

theorem clp (h : s.OnlyClapper t as) (c : Clp) : s.OnlyClapper { t with clp := c } as := ⟨h.rest, h.regs.same rfl⟩

theorem trans (h : s.OnlyClapper t as) (k : t.OnlyClapper u as) : s.OnlyClapper u as :=
  ⟨(congrArg (fun x : State => { x with regs := s.regs, clp := s.clp }) k.rest).trans h.rest, h.regs.trans k.regs⟩

theorem fld (h : s.OnlyClapper t as) {f : Fld} (hf : f.addr ∉ as) : t.fld f = s.fld f := by rw [State.fld, State.fld, h.regs f.addr hf]

theorem pulses (h : s.OnlyClapper t as) : t.pulses = s.pulses :=
  (congrArg State.pulses h.rest :)

end OnlyClapper

section
variable {s t : State} {n st : Nat}

/-! ## A source put into a state -/

theorem srcPut_regs (s : State) (n st : Nat) :
    (s.srcPut n st).regs = ((s.put (CLP_SRC_CFG_STATE n) st).put (CLP_SRC_CFG_DLV_TGT n) 0).regs := by
  unfold srcPut
  rw [apply_ite State.regs, ite_self]

theorem srcPut_fld (s : State) (n st : Nat) (f : Fld) :
    (s.srcPut n st).fld f = ((s.put (CLP_SRC_CFG_STATE n) st).put (CLP_SRC_CFG_DLV_TGT n) 0).fld f := fld_congr (s.srcPut_regs n st) f

theorem srcPut_only (s : State) (n st : Nat) : s.OnlyClapper (s.srcPut n st) [rCLP_SRC_CFG n] := by
  have h := ((OnlyClapper.refl s [rCLP_SRC_CFG n]).put (f := CLP_SRC_CFG_STATE n) st List.mem_cons_self).put
    (f := CLP_SRC_CFG_DLV_TGT n) 0 List.mem_cons_self
  unfold srcPut
  split
  · exact h
  · exact h.clp _

@[simp] theorem srcPut_tgt (s : State) (n st : Nat) : (s.srcPut n st).fld (CLP_SRC_CFG_DLV_TGT n) = 0 := by
  simp [srcPut_fld, fld_put_same, CLP_SRC_CFG_DLV_TGT]

@[simp] theorem srcPut_srcIs (s : State) (n st st' : Nat) : (s.srcPut n st).srcIs n st' = (st % 4 == st') := by
  simp [srcIs, srcPut_fld, fld_put_same, fld_put_next, CLP_SRC_CFG_DLV_TGT, CLP_SRC_CFG_STATE]

/-- A place of the source's register beside its state and its target. -/
theorem srcPut_bits (s : State) (n st : Nat) {l w : Nat} (h : l + w ≤ 8 ∨ 11 ≤ l ∧ l + w ≤ 20 ∨ 22 ≤ l ∧ l + w ≤ 32) :
    (s.srcPut n st).fld ⟨rCLP_SRC_CFG n, l, w⟩ = s.fld ⟨rCLP_SRC_CFG n, l, w⟩ := by
  rw [srcPut_fld, CLP_SRC_CFG_DLV_TGT, CLP_SRC_CFG_STATE, fld_put_next _ (by omega) (by omega), fld_put_next _ (by omega) (by omega)]

theorem srcPut_bit (s : State) (n st : Nat) {l : Nat} (h : l + 1 ≤ 8 ∨ 11 ≤ l ∧ l + 1 ≤ 20 ∨ 22 ≤ l ∧ l + 1 ≤ 32) :
    (s.srcPut n st).flag ⟨rCLP_SRC_CFG n, l, 1⟩ = s.flag ⟨rCLP_SRC_CFG n, l, 1⟩ := congrArg (· == 1) (s.srcPut_bits n st h)

@[simp] theorem srcPut_en (s : State) (n st : Nat) : (s.srcPut n st).flag (CLP_SRC_CFG_EN n) = s.flag (CLP_SRC_CFG_EN n) :=
  s.srcPut_bit n st (by decide)
@[simp] theorem srcPut_trig (s : State) (n st : Nat) : (s.srcPut n st).flag (CLP_SRC_CFG_TRIG n) = s.flag (CLP_SRC_CFG_TRIG n) :=
  s.srcPut_bit n st (by decide)
@[simp] theorem srcPut_again (s : State) (n st : Nat) : (s.srcPut n st).flag (CLP_SRC_CFG_AGAIN n) = s.flag (CLP_SRC_CFG_AGAIN n) :=
  s.srcPut_bit n st (by decide)
@[simp] theorem srcPut_wakeEn (s : State) (n st : Nat) :
    (s.srcPut n st).flag (CLP_SRC_CFG_WAKE_EN n) = s.flag (CLP_SRC_CFG_WAKE_EN n) :=
  s.srcPut_bit n st (by decide)
@[simp] theorem srcPut_wakeTgt (s : State) (n st : Nat) :
    (s.srcPut n st).fld (CLP_SRC_CFG_WAKE_TGT n) = s.fld (CLP_SRC_CFG_WAKE_TGT n) :=
  s.srcPut_bits n st (by decide)
@[simp] theorem srcPut_prio (s : State) (n st : Nat) : (s.srcPut n st).fld (CLP_SRC_CFG_PRIO n) = s.fld (CLP_SRC_CFG_PRIO n) :=
  s.srcPut_bits n st (by decide)
@[simp] theorem srcPut_mask (s : State) (n st : Nat) : (s.srcPut n st).fld (CLP_SRC_CFG_TGT_MASK n) = s.fld (CLP_SRC_CFG_TGT_MASK n) :=
  s.srcPut_bits n st (by decide)

/-- AGAIN written: it reads what was written, and the source keeps its state, its target and its configuration. -/
theorem againPut_flag (s : State) (n v : Nat) : (s.put (CLP_SRC_CFG_AGAIN n) v).flag (CLP_SRC_CFG_AGAIN n) = (v % 2 == 1) :=
  congrArg (· == 1) (s.fld_put_same v (by decide))
@[simp] theorem againPut_srcIs (s : State) (n v st : Nat) : (s.put (CLP_SRC_CFG_AGAIN n) v).srcIs n st = s.srcIs n st :=
  congrArg (· == st) (s.fld_put_next v (by decide) (by decide))
@[simp] theorem againPut_tgt (s : State) (n v : Nat) :
    (s.put (CLP_SRC_CFG_AGAIN n) v).fld (CLP_SRC_CFG_DLV_TGT n) = s.fld (CLP_SRC_CFG_DLV_TGT n) :=
  s.fld_put_next v (by decide) (by decide)
@[simp] theorem againPut_trig (s : State) (n v : Nat) :
    (s.put (CLP_SRC_CFG_AGAIN n) v).flag (CLP_SRC_CFG_TRIG n) = s.flag (CLP_SRC_CFG_TRIG n) :=
  congrArg (· == 1) (s.fld_put_next v (by decide) (by decide))

/-! ## A sample of its signal (R472, R473) -/

/-- The sample itself: the level seen, and the pulse taken. -/
def sampled (s : State) (n : Nat) : State :=
  { s with
    clp := { s.clp with high := if s.srcSignal n ∧ (srcRegs n).isSome then s.clp.high.filter (· != n) ++ [n] else s.clp.high.filter (· != n) }
    pulses := s.pulses.filter (· != n) }

theorem srcSample_eq (s : State) (n : Nat) : s.srcSample n =
    if (s.sampled n).srcOn n = false then s.sampled n
    else if (s.sampled n).flag (CLP_SRC_CFG_TRIG n) = false then
      if s.srcSignal n ∧ (s.sampled n).srcIs n stIDLE then (s.sampled n).srcPut n stPENDING else s.sampled n
    else if (s.srcSignal n && !(s.clp.high.contains n && (srcRegs n).isSome)) = false then s.sampled n
    else if (s.sampled n).srcIs n stIDLE then (s.sampled n).srcPut n stPENDING
    else if (s.sampled n).srcIs n stDELIVERED then (s.sampled n).put (CLP_SRC_CFG_AGAIN n) 1
    else s.sampled n := rfl

theorem srcSample_off (h : s.srcOn n = false) : s.srcSample n = s.sampled n := if_pos h

theorem srcSample_quiet (h : s.srcSignal n = false) : s.srcSample n = s.sampled n := by
  simp only [srcSample_eq, h, Bool.false_and, Bool.false_eq_true, false_and, if_false, if_true, ite_self]

theorem srcSample_idle (ho : s.srcOn n = true) (hs : s.srcSignal n = true) (hi : s.srcIs n stIDLE = true)
    (hh : s.flag (CLP_SRC_CFG_TRIG n) = false ∨ s.clp.high.contains n = false) :
    s.srcSample n = (s.sampled n).srcPut n stPENDING := by
  have ho' : (s.sampled n).srcOn n = true := ho
  have hi' : (s.sampled n).srcIs n stIDLE = true := hi
  have ht : (s.sampled n).flag (CLP_SRC_CFG_TRIG n) = s.flag (CLP_SRC_CFG_TRIG n) := rfl
  rw [srcSample_eq]
  rcases hh with hh | hh
  · simp only [ho', hi', ht, hh, hs, Bool.true_eq_false, and_self, if_true, if_false]
  · simp only [ho', hi', ht, hh, hs, Bool.false_and, Bool.not_false, Bool.and_self, Bool.true_eq_false, and_self, if_true, if_false, ite_self]

theorem srcSample_again (ho : s.srcOn n = true) (hs : s.srcSignal n = true) (hd : s.srcIs n stDELIVERED = true)
    (ht : s.flag (CLP_SRC_CFG_TRIG n) = true) (hh : s.clp.high.contains n = false) :
    s.srcSample n = (s.sampled n).put (CLP_SRC_CFG_AGAIN n) 1 := by
  have ho' : (s.sampled n).srcOn n = true := ho
  have hd' : (s.sampled n).srcIs n stDELIVERED = true := hd
  have hi' : (s.sampled n).srcIs n stIDLE = false := srcIs_unique hd (by decide)
  have ht' : (s.sampled n).flag (CLP_SRC_CFG_TRIG n) = true := ht
  rw [srcSample_eq]
  simp only [ho', hi', hd', ht', hh, hs, Bool.false_and, Bool.not_false, Bool.and_self, Bool.true_eq_false, Bool.false_eq_true,
    if_true, if_false]

theorem srcSample_only (s : State) (n : Nat) : (s.sampled n).OnlyClapper (s.srcSample n) [rCLP_SRC_CFG n] := by
  have h0 := OnlyClapper.refl (s.sampled n) [rCLP_SRC_CFG n]
  have hp := (s.sampled n).srcPut_only n stPENDING
  rw [srcSample_eq]
  split
  · exact h0
  · split
    · split
      · exact hp
      · exact h0
    · split
      · exact h0
      · split
        · exact hp
        · split
          · exact h0.put _ List.mem_cons_self
          · exact h0

end
end State
end Sys2Proof.Machine
end

section
/-! PROOFS. The states of a source, completion, configuration, routing and the targets of Clapper (R472 to R480): O55. -/

namespace Sys2Proof.Machine
namespace State

section
variable {s t : State} {n : Nat}

theorem srcOn_congr (h : t.reg (rCLP_SRC_CFG n) = s.reg (rCLP_SRC_CFG n)) : t.srcOn n = s.srcOn n := by
  simp only [srcOn, flag, fld, CLP_SRC_CFG_EN, CLP_SRC_CFG_PRIO, h]

theorem srcIs_congr (h : t.reg (rCLP_SRC_CFG n) = s.reg (rCLP_SRC_CFG n)) (st : Nat) : t.srcIs n st = s.srcIs n st := by
  simp only [srcIs, fld, CLP_SRC_CFG_STATE, h]

/-! ## Completion (R473) -/

theorem srcComplete_wrong {tg : Nat} (h : s.srcIs n stDELIVERED = false ∨ s.fld (CLP_SRC_CFG_DLV_TGT n) ≠ tg) :
    s.srcComplete tg n = s.inc CLP_CPL_ERR_CNT_VAL := if_pos h

/-- What a completed source becomes. -/
def completed (s : State) (n : Nat) : State :=
  if s.srcOn n = false then (s.srcPut n stIDLE).put (CLP_SRC_CFG_AGAIN n) 0
  else if s.flag (CLP_SRC_CFG_TRIG n) then
    if s.flag (CLP_SRC_CFG_AGAIN n) then (s.srcPut n stPENDING).put (CLP_SRC_CFG_AGAIN n) 0 else s.srcPut n stIDLE
  else if s.srcSignal n then s.srcPut n stPENDING else s.srcPut n stIDLE

theorem srcComplete_held {tg : Nat} (hd : s.srcIs n stDELIVERED = true) (ht : s.fld (CLP_SRC_CFG_DLV_TGT n) = tg) :
    s.srcComplete tg n = s.completed n := if_neg (by simp [hd, ht])

/-- Whatever a completed source becomes, it holds no target and keeps its trigger. -/
theorem completed_keeps (s : State) (n : Nat) : s.OnlyClapper (s.completed n) [rCLP_SRC_CFG n] ∧
    (s.completed n).fld (CLP_SRC_CFG_DLV_TGT n) = 0 ∧ (s.completed n).flag (CLP_SRC_CFG_TRIG n) = s.flag (CLP_SRC_CFG_TRIG n) := by
  have hput : ∀ st, s.OnlyClapper (s.srcPut n st) [rCLP_SRC_CFG n] := s.srcPut_only n
  have hagain : ∀ st, s.OnlyClapper ((s.srcPut n st).put (CLP_SRC_CFG_AGAIN n) 0) [rCLP_SRC_CFG n] := fun st =>
    (hput st).put 0 List.mem_cons_self
  unfold completed
  split
  · exact ⟨hagain _, by simp, by simp⟩
  · split
    · split
      · exact ⟨hagain _, by simp, by simp⟩
      · exact ⟨hput _, by simp, by simp⟩
    · split
      · exact ⟨hput _, by simp, by simp⟩
      · exact ⟨hput _, by simp, by simp⟩

theorem completed_off (h : s.srcOn n = false) :
    (s.completed n).srcIs n stIDLE = true ∧ (s.completed n).flag (CLP_SRC_CFG_AGAIN n) = false := by
  rw [completed, if_pos h]
  exact ⟨by simp [stIDLE], by simp [againPut_flag]⟩

theorem completed_edge (ho : s.srcOn n = true) (ht : s.flag (CLP_SRC_CFG_TRIG n) = true) :
    (s.completed n).srcIs n (if s.flag (CLP_SRC_CFG_AGAIN n) then stPENDING else stIDLE) = true ∧
      (s.completed n).flag (CLP_SRC_CFG_AGAIN n) = false := by
  rw [completed, if_neg (by simp [ho]), if_pos ht]
  split
  · exact ⟨by simp [stPENDING], by simp [againPut_flag]⟩
  · next ha => exact ⟨by simp [stIDLE], by simpa using ha⟩

theorem completed_level (ho : s.srcOn n = true) (ht : s.flag (CLP_SRC_CFG_TRIG n) = false) :
    (s.completed n).srcIs n (if s.srcSignal n then stPENDING else stIDLE) = true := by
  rw [completed, if_neg (by simp [ho]), if_neg (by simp [ht])]
  split
  · simp [stPENDING]
  · simp [stIDLE]

/-! ## The signal of a source does not look at Clapper's registers -/

theorem some_pair {α β γ : Type} {a a' : α} {b b' : β} {c c' : γ} (h : some (a, b, c) = some (a', b', c')) : a = a' ∧ b = b' := by
  simp only [Option.some.injEq, Prod.mk.injEq] at h
  exact ⟨h.1, h.2.1⟩

theorem evts_page {a b e en j k : Nat} (h : a + j = e ∧ b + k = en) (ha : 0x502000 ≤ a) (hb : 0x502000 ≤ b) :
    e / 0x1000 ≠ 0x501 ∧ en / 0x1000 ≠ 0x501 := by omega

/-- No source takes its signal from the page of the configurations. -/
theorem srcRegs_page {m e en k : Nat} (h : srcRegs m = some (e, en, k)) : e / 0x1000 ≠ 0x501 ∧ en / 0x1000 ≠ 0x501 := by
  unfold srcRegs at h
  split at h
  any_goals (cases h; decide)
  split at h
  · exact evts_page (some_pair h) (by decide) (by decide)
  · split at h
    · exact evts_page (some_pair h) (by decide) (by decide)
    · split at h
      · exact evts_page (some_pair h) (by decide) (by decide)
      · split at h
        · exact evts_page (some_pair h) (by decide) (by decide)
        · split at h
          · exact evts_page (some_pair h) (by decide) (by decide)
          · cases h

theorem srcCfg_page (hn : n < 512) : rCLP_SRC_CFG n / 0x1000 = 0x501 := by
  simp only [rCLP_SRC_CFG]
  omega

theorem srcSignal_congr (hn : n < 512) (h : s.OnlyClapper t [rCLP_SRC_CFG n]) (m : Nat) : t.srcSignal m = s.srcSignal m := by
  have hreg : ∀ a, a / 0x1000 ≠ 0x501 → t.reg a = s.reg a := fun a ha =>
    h.regs a fun hm => ha (List.mem_singleton.mp hm ▸ srcCfg_page hn)
  unfold srcSignal
  split
  · next he =>
    obtain ⟨h1, h2⟩ := srcRegs_page he
    rw [hreg _ h1, hreg _ h2]
  · rw [h.pulses]

/-! ## A source without a powered target wakes one (R479) -/

/-- Its wake: counted, remembered, and an application core started. -/
def woken (s : State) (n : Nat) : State :=
  ({ s with clp := { s.clp with woke := s.clp.woke ++ [n] } } : State).inc CLP_WAKE_CNT_VAL

theorem srcWake_eq (s : State) (n : Nat) : s.srcWake n =
    if s.srcIs n stPENDING = false ∨ s.flag (CLP_SRC_CFG_WAKE_EN n) = false ∨ s.clp.woke.contains n ∨
        (List.range 7).any (fun t => bitOf (s.fld (CLP_SRC_CFG_TGT_MASK n)) t && s.tgtPowered t) then s
    else if 3 ≤ s.fld (CLP_SRC_CFG_WAKE_TGT n) ∧ s.fld (CLP_SRC_CFG_WAKE_TGT n) < 7 ∧ s.flag GLB_DEVSTATE_SAFE = false then
      (s.woken n).put TRI_AP_CTL_RUN (setBits (s.fld TRI_AP_CTL_RUN) (s.fld (CLP_SRC_CFG_WAKE_TGT n) - 3) 1 1)
    else s.woken n := rfl

theorem woken_only (s : State) (n : Nat) : s.OnlyClapper (s.woken n) [rCLP_WAKE_CNT, rTRI_AP_CTL] :=
  ((OnlyClapper.refl s _).clp _).put (f := CLP_WAKE_CNT_VAL) _ (by decide)

theorem srcWake_only (s : State) (n : Nat) : s.OnlyClapper (s.srcWake n) [rCLP_WAKE_CNT, rTRI_AP_CTL] := by
  rw [srcWake_eq]
  split
  · exact .refl s _
  · split
    · exact (s.woken_only n).put _ (by decide)
    · exact s.woken_only n

theorem srcCfg_ne_wake {m : Nat} (hm : m < 512) : rCLP_SRC_CFG m ∉ [rCLP_WAKE_CNT, rTRI_AP_CTL] := by
  simp only [rCLP_SRC_CFG, rCLP_WAKE_CNT, rTRI_AP_CTL, List.mem_cons, List.not_mem_nil, or_false]
  omega

theorem srcWake_reg (s : State) (n : Nat) {m : Nat} (hm : m < 512) : (s.srcWake n).reg (rCLP_SRC_CFG m) = s.reg (rCLP_SRC_CFG m) :=
  (s.srcWake_only n).regs _ (srcCfg_ne_wake hm)

theorem srcWakes_only (s : State) (l : List Nat) : s.OnlyClapper (l.foldl State.srcWake s) [rCLP_WAKE_CNT, rTRI_AP_CTL] := by
  induction l generalizing s with
  | nil => exact .refl s _
  | cons m l ih => exact (s.srcWake_only m).trans (ih _)

theorem srcWake_wakes (hp : s.srcIs n stPENDING = true) (he : s.flag (CLP_SRC_CFG_WAKE_EN n) = true) (hw : s.clp.woke.contains n = false)
    (ht : ∀ x < 7, bitOf (s.fld (CLP_SRC_CFG_TGT_MASK n)) x = true → s.tgtPowered x = false) : s.srcWake n =
    if 3 ≤ s.fld (CLP_SRC_CFG_WAKE_TGT n) ∧ s.fld (CLP_SRC_CFG_WAKE_TGT n) < 7 ∧ s.flag GLB_DEVSTATE_SAFE = false then
      (s.woken n).put TRI_AP_CTL_RUN (setBits (s.fld TRI_AP_CTL_RUN) (s.fld (CLP_SRC_CFG_WAKE_TGT n) - 3) 1 1)
    else s.woken n := by
  rw [srcWake_eq]
  refine if_neg ?_
  simp only [hp, he, hw, Bool.true_eq_false, Bool.false_eq_true, false_or, List.any_eq_true, List.mem_range, Bool.and_eq_true, not_exists,
    not_and, Bool.not_eq_true]
  exact ht

theorem srcWake_shows (hp : s.srcIs n stPENDING = true) (he : s.flag (CLP_SRC_CFG_WAKE_EN n) = true) (hw : s.clp.woke.contains n = false)
    (ht : ∀ x < 7, bitOf (s.fld (CLP_SRC_CFG_TGT_MASK n)) x = true → s.tgtPowered x = false) :
    (s.srcWake n).fld CLP_WAKE_CNT_VAL = (s.fld CLP_WAKE_CNT_VAL + 1) % 2 ^ 32 ∧ (s.srcWake n).clp.woke.contains n = true ∧
      (3 ≤ s.fld (CLP_SRC_CFG_WAKE_TGT n) → s.fld (CLP_SRC_CFG_WAKE_TGT n) < 7 → s.flag GLB_DEVSTATE_SAFE = false →
        bitOf ((s.srcWake n).fld TRI_AP_CTL_RUN) (s.fld (CLP_SRC_CFG_WAKE_TGT n) - 3) = true) := by
  have hcnt : (s.woken n).fld CLP_WAKE_CNT_VAL = (s.fld CLP_WAKE_CNT_VAL + 1) % 2 ^ 32 := fld_put_self _ CLP_WAKE_CNT_VAL _ (by decide)
  have hwoke : (s.woken n).clp.woke.contains n = true := by simp [woken, inc_eq, put, setReg]
  rw [srcWake_wakes hp he hw ht]
  split
  · next h =>
    refine ⟨(fld_put_addr _ _ (by decide)).trans hcnt, hwoke, fun _ _ _ => ?_⟩
    rw [fld_put_self _ _ _ (by decide), bitOf_mod (by simp only [TRI_AP_CTL_RUN]; omega), bitOf_setBits_one_self]
    rfl
  · next h => exact ⟨hcnt, hwoke, fun h1 h2 h3 => absurd ⟨h1, h2, h3⟩ h⟩

/-! ## A write of its configuration (R472) -/

theorem bits_mod_self (v i j : Nat) : bits v i j % 2 ^ j = bits v i j := Nat.mod_mod _ _

theorem bitN_shown (b : Bool) : (bitN b % 2 ^ 1 == 1) = b := by
  cases b <;> rfl

/-- The fields a write puts into the register. -/
def cfgPut (s : State) (n v : Nat) : State :=
  (((((s.put (CLP_SRC_CFG_EN n) (bits v 31 1)).put (CLP_SRC_CFG_TRIG n) (bits v 30 1)).put (CLP_SRC_CFG_WAKE_EN n)
    (bitN (bitOf v 29 && bitOf (bits v 0 7) (bits v 24 3)))).put (CLP_SRC_CFG_WAKE_TGT n) (bits v 24 3)).put (CLP_SRC_CFG_PRIO n)
    (bits v 16 4)).put (CLP_SRC_CFG_TGT_MASK n) (bits v 0 7)

/-- A write that clears EN takes a PENDING source back. -/
def cfgCleared (s : State) (n v : Nat) : State :=
  if bitOf v 31 = false ∧ (s.cfgPut n v).srcIs n stPENDING then (s.cfgPut n v).srcPut n stIDLE else s.cfgPut n v

/-- A write that enables a source whose level is asserted starts it. -/
def cfgStarted (s : State) : Nat → State := fun n =>
  if s.srcOn n ∧ s.flag (CLP_SRC_CFG_TRIG n) = false ∧ s.srcIs n stIDLE ∧ s.srcSignal n then s.srcPut n stPENDING else s

theorem writeSrcCfg_eq (h : srcExists n = true) (v : Nat) : s.writeSrcCfg n v =
    if s.flag (CLP_SRC_CFG_EN n) ∨ ((s.cfgCleared n v).cfgStarted n).srcIs n stPENDING then
      ((s.cfgCleared n v).cfgStarted n).srcWake n
    else (s.cfgCleared n v).cfgStarted n := if_neg (by simp [h])

/-- The configuration a write leaves, whatever the state of the source. -/
structure CfgIs (s : State) (n v : Nat) : Prop where
  en : s.flag (CLP_SRC_CFG_EN n) = bitOf v 31
  trig : s.flag (CLP_SRC_CFG_TRIG n) = bitOf v 30
  prio : s.fld (CLP_SRC_CFG_PRIO n) = bits v 16 4
  mask : s.fld (CLP_SRC_CFG_TGT_MASK n) = bits v 0 7
  wakeTgt : s.fld (CLP_SRC_CFG_WAKE_TGT n) = bits v 24 3
  wakeEn : s.flag (CLP_SRC_CFG_WAKE_EN n) = (bitOf v 29 && bitOf (bits v 0 7) (bits v 24 3))

theorem CfgIs.srcPut {v : Nat} (h : s.CfgIs n v) (st : Nat) : (s.srcPut n st).CfgIs n v :=
  ⟨by simp [h.en], by simp [h.trig], by simp [h.prio], by simp [h.mask], by simp [h.wakeTgt], by simp [h.wakeEn]⟩

theorem CfgIs.congr {v : Nat} (h : s.CfgIs n v) (e : t.reg (rCLP_SRC_CFG n) = s.reg (rCLP_SRC_CFG n)) : t.CfgIs n v :=
  have hf : ∀ i j, t.fld ⟨rCLP_SRC_CFG n, i, j⟩ = s.fld ⟨rCLP_SRC_CFG n, i, j⟩ := fun i j => congrArg (fun w : Word => bits w.toNat i j) e
  ⟨(congrArg (· == 1) (hf 31 1)).trans h.en, (congrArg (· == 1) (hf 30 1)).trans h.trig, (hf 16 4).trans h.prio,
    (hf 0 7).trans h.mask, (hf 24 3).trans h.wakeTgt, (congrArg (· == 1) (hf 29 1)).trans h.wakeEn⟩

theorem cfgPut_cfgIs (s : State) (n v : Nat) : (s.cfgPut n v).CfgIs n v := by
  constructor
  all_goals
    simp (disch := omega) only [cfgPut, flag_eq, fld_put_same, fld_put_next, CLP_SRC_CFG_EN, CLP_SRC_CFG_TRIG, CLP_SRC_CFG_WAKE_EN,
      CLP_SRC_CFG_WAKE_TGT, CLP_SRC_CFG_PRIO, CLP_SRC_CFG_TGT_MASK, bits_mod_self, ← bitOf_eq_bits, bitN_shown]

theorem cfgPut_only (s : State) (n v : Nat) : s.OnlyClapper (s.cfgPut n v) [rCLP_SRC_CFG n] := by
  have h (t : State) (ht : s.OnlyClapper t [rCLP_SRC_CFG n]) (i j x : Nat) : s.OnlyClapper (t.put ⟨rCLP_SRC_CFG n, i, j⟩ x)
      [rCLP_SRC_CFG n] := ht.put x List.mem_cons_self
  exact h _ (h _ (h _ (h _ (h _ (h _ (.refl s _) 31 1 _) _ _ _) _ _ _) _ _ _) _ _ _) _ _ _

theorem cfgPut_srcIs (s : State) (n v st : Nat) : (s.cfgPut n v).srcIs n st = s.srcIs n st := by
  simp (disch := omega) only [cfgPut, srcIs, fld_put_next, CLP_SRC_CFG_EN, CLP_SRC_CFG_TRIG, CLP_SRC_CFG_WAKE_EN,
      CLP_SRC_CFG_WAKE_TGT, CLP_SRC_CFG_PRIO, CLP_SRC_CFG_TGT_MASK, CLP_SRC_CFG_STATE]

theorem cfgCleared_cfgIs (s : State) (n v : Nat) : (s.cfgCleared n v).CfgIs n v ∧ s.OnlyClapper (s.cfgCleared n v) [rCLP_SRC_CFG n] := by
  have hput := s.cfgPut_cfgIs n v
  unfold cfgCleared
  split
  · exact ⟨hput.srcPut _, (s.cfgPut_only n v).trans (srcPut_only _ n _)⟩
  · exact ⟨hput, s.cfgPut_only n v⟩

theorem cfgStarted_cfgIs {v : Nat} (h : s.CfgIs n v) : (s.cfgStarted n).CfgIs n v ∧ s.OnlyClapper (s.cfgStarted n) [rCLP_SRC_CFG n] := by
  unfold cfgStarted
  split
  · exact ⟨h.srcPut _, s.srcPut_only n _⟩
  · exact ⟨h, .refl s _⟩

theorem cfgCleared_idle {v : Nat} (hv : bitOf v 31 = false) (h : s.srcIs n stPENDING = true) : (s.cfgCleared n v).srcIs n stIDLE = true := by
  rw [cfgCleared, if_pos ⟨hv, (s.cfgPut_srcIs n v _).trans h⟩]
  simp [stIDLE]

theorem cfgCleared_srcIs {v st : Nat} (h : s.srcIs n st = true) (hst : bitOf v 31 = true ∨ st ≠ stPENDING) :
    (s.cfgCleared n v).srcIs n st = true := by
  rw [cfgCleared, if_neg, cfgPut_srcIs, h]
  rintro ⟨hv, hp⟩
  rw [cfgPut_srcIs] at hp
  rcases hst with hst | hst
  · exact absurd (hst.symm.trans hv) (by decide)
  · exact absurd (hp.symm.trans (srcIs_unique h hst)) (by decide)

theorem cfgStarted_eq_self (h : s.srcOn n = false ∨ s.srcIs n stIDLE = false) : s.cfgStarted n = s :=
  if_neg fun ⟨ho, _, hi, _⟩ => by
    rcases h with h | h
    · exact absurd (ho.symm.trans h) (by decide)
    · exact absurd (hi.symm.trans h) (by decide)

theorem cfgStarted_pending (ho : s.srcOn n = true) (ht : s.flag (CLP_SRC_CFG_TRIG n) = false) (hi : s.srcIs n stIDLE = true)
    (hs : s.srcSignal n = true) : (s.cfgStarted n).srcIs n stPENDING = true := by
  rw [cfgStarted, if_pos ⟨ho, ht, hi, hs⟩]
  simp [stPENDING]

/-- The registers of the configurations after a write are those before the wake that may follow it. -/
theorem writeSrcCfg_reg (h : srcExists n = true) (v : Nat) {m : Nat} (hm : m < 512) :
    (s.writeSrcCfg n v).reg (rCLP_SRC_CFG m) = ((s.cfgCleared n v).cfgStarted n).reg (rCLP_SRC_CFG m) := by
  rw [writeSrcCfg_eq h]
  split
  · exact srcWake_reg _ n hm
  · rfl

theorem CfgIs.srcOn_eq {v : Nat} (h : s.CfgIs n v) : s.srcOn n = (bitOf v 31 && bits v 16 4 != 0) := by rw [srcOn, h.en, h.prio]

end

/-- What a write of a source's configuration leaves: the configuration it carries, and the state that follows from it. -/
theorem writeSrcCfg_shows {s : State} {n : Nat} (hn : n < 512) (h : srcExists n = true) (v : Nat) :
    (s.writeSrcCfg n v).CfgIs n v ∧
      (∀ m, m < 512 → m ≠ n → (s.writeSrcCfg n v).reg (rCLP_SRC_CFG m) = s.reg (rCLP_SRC_CFG m)) ∧
      (bitOf v 31 = false → s.srcIs n stPENDING = true → (s.writeSrcCfg n v).srcIs n stIDLE = true) ∧
      (s.srcIs n stDELIVERED = true → (s.writeSrcCfg n v).srcIs n stDELIVERED = true) ∧
      (bitOf v 31 = true → bitOf v 30 = false → bits v 16 4 ≠ 0 → s.srcIs n stIDLE = true → s.srcSignal n = true →
        (s.writeSrcCfg n v).srcIs n stPENDING = true) := by
  obtain ⟨hcl, hclOnly⟩ := s.cfgCleared_cfgIs n v
  obtain ⟨hst, hstOnly⟩ := cfgStarted_cfgIs hcl
  have hreg := writeSrcCfg_reg (s := s) h v hn
  refine ⟨hst.congr hreg, fun m hm hmn => ?_, fun hv hp => ?_, fun hd => ?_, fun hv ht hprio hi hs => ?_⟩
  · rw [writeSrcCfg_reg h v hm]
    refine (hclOnly.trans hstOnly).regs _ fun e => hmn ?_
    simp only [rCLP_SRC_CFG, List.mem_singleton] at e
    omega
  · rw [srcIs_congr hreg, cfgStarted_eq_self (.inl (by rw [hcl.srcOn_eq, hv, Bool.false_and])), cfgCleared_idle hv hp]
  · have hd' := cfgCleared_srcIs (v := v) hd (.inr (by decide))
    rw [srcIs_congr hreg, cfgStarted_eq_self (.inr (srcIs_unique hd' (by decide))), hd']
  · rw [srcIs_congr hreg]
    refine cfgStarted_pending ?_ (hcl.trig.trans ht) (cfgCleared_srcIs hi (.inl hv)) ((srcSignal_congr hn hclOnly n).trans hs)
    rw [hcl.srcOn_eq, hv, Bool.true_and]
    exact bne_iff_ne.mpr hprio

/-! ## Routing (R474, R475) -/

section
variable {s : State} {n x : Nat}

theorem lt_of_tgtPowered (h : s.tgtPowered x = true) : x < 7 := by
  simp only [tgtPowered, tgtExists, Bool.and_eq_true, Bool.or_eq_true, beq_iff_eq, decide_eq_true_eq] at h
  omega

theorem tgtPowered_of_couldTake (h : s.couldTake n x = true) :
    bitOf (s.fld (CLP_SRC_CFG_TGT_MASK n)) x = true ∧ s.tgtPowered x = true := by
  simp only [couldTake, Bool.and_eq_true] at h
  exact h.1

/-- The targets in the order of their last choice, and those that may take a source. -/
def tgtOrder (s : State) : List Nat := (List.range 7).filter (fun t => !s.clp.order.contains t) ++ s.clp.order
def takers (s : State) (opened : List Nat) (n : Nat) : List Nat :=
  s.tgtOrder.filter (fun t => s.couldTake n t && (opened.contains t || s.bypasses n t))

theorem mem_tgtOrder (h : x < 7) : x ∈ s.tgtOrder := by
  by_cases hx : x ∈ s.clp.order
  · exact List.mem_append_right _ hx
  · exact List.mem_append_left _ (List.mem_filter.mpr ⟨List.mem_range.mpr h, by simpa using hx⟩)

theorem mem_takers {opened : List Nat} :
    x ∈ s.takers opened n ↔ x ∈ s.tgtOrder ∧ s.couldTake n x = true ∧ (x ∈ opened ∨ s.bypasses n x = true) := by
  simp [takers, List.mem_filter]

theorem pickTgt_eq (s : State) (opened : List Nat) (n : Nat) : s.pickTgt opened n =
    (s.takers opened n).find? (fun t => (s.takers opened n).all (fun u => decide (s.runPrio t ≤ s.runPrio u))) := rfl

/-- Where a target may take the source, one with the lowest running priority is picked. -/
theorem pickTgt_some {opened : List Nat} {u : Nat} (hu : u ∈ s.takers opened n) : ∃ x, s.pickTgt opened n = some x ∧
    x ∈ s.takers opened n ∧ ∀ w ∈ s.takers opened n, s.runPrio x ≤ s.runPrio w := by
  obtain ⟨m, hm, hmin⟩ := (s.takers opened n).toFinset.exists_min_image s.runPrio ⟨u, List.mem_toFinset.mpr hu⟩
  have hsome : (s.pickTgt opened n).isSome = true := by
    rw [pickTgt_eq, List.find?_isSome]
    exact ⟨m, List.mem_toFinset.mp hm, by simpa using fun w hw => hmin w (List.mem_toFinset.mpr hw)⟩
  obtain ⟨x, hx⟩ := Option.isSome_iff_exists.mp hsome
  rw [pickTgt_eq] at hx
  have hall := List.find?_some hx
  exact ⟨x, (s.pickTgt_eq opened n).trans hx, List.mem_of_find?_eq_some hx, fun w hw => of_decide_eq_true (List.all_eq_true.mp hall w hw)⟩

theorem pickTgt_none {opened : List Nat} (h : ∀ x, s.couldTake n x = false) : s.pickTgt opened n = none := by
  have hnil : s.takers opened n = [] := List.filter_eq_nil_iff.mpr fun x _ => by simp [h x]
  rw [pickTgt_eq, hnil, List.find?_nil]

theorem routeOrder_single (h : s.pendingSrcs = [n]) : s.routeOrder = [n] := by
  have hlt : s.fld (CLP_SRC_CFG_PRIO n) < 16 := s.fld_lt (CLP_SRC_CFG_PRIO n)
  rw [routeOrder, h]
  simp only [List.filter_cons, List.filter_nil]
  generalize s.fld (CLP_SRC_CFG_PRIO n) = p at hlt
  interval_cases p <;> rfl

theorem pendingSrcs_single (h : s.pendingSrcs = [n]) : n < 512 ∧ s.srcIs n stPENDING = true :=
  mem_pendingSrcs.mp (h ▸ List.mem_singleton_self n)

/-! ## A delivery -/

/-- The registers of a delivery, without the order and the round that Clapper keeps. -/
theorem clpDeliver_regs (s : State) (n x : Nat) :
    (s.clpDeliver n x).regs = (((s.srcPut n stDELIVERED).put (CLP_SRC_CFG_DLV_TGT n) x).put (CLP_TGT_STAT_WFI x) 0).regs := by
  simp only [clpDeliver]

theorem clpDeliver_only (s : State) (n x : Nat) : s.OnlyClapper (s.clpDeliver n x) [rCLP_SRC_CFG n, rCLP_TGT_STAT x] := by
  have hput : s.OnlyClapper (s.srcPut n stDELIVERED) [rCLP_SRC_CFG n, rCLP_TGT_STAT x] :=
    ⟨(s.srcPut_only n _).rest, fun a ha => (s.srcPut_only n _).regs a fun h => ha (List.mem_cons.mpr (.inl (List.mem_singleton.mp h)))⟩
  exact ((hput.put (f := CLP_SRC_CFG_DLV_TGT n) x List.mem_cons_self).put (f := CLP_TGT_STAT_WFI x) 0
    (List.mem_cons_of_mem _ List.mem_cons_self)).clp _

theorem srcCfg_ne_stat {m : Nat} (hm : m < 512) (x : Nat) : rCLP_SRC_CFG m ≠ rCLP_TGT_STAT x := by
  simp only [rCLP_SRC_CFG, rCLP_TGT_STAT]
  omega

theorem clpDeliver_shows (hn : n < 512) (hx : x < 8) : (s.clpDeliver n x).srcIs n stDELIVERED = true ∧
    (s.clpDeliver n x).fld (CLP_SRC_CFG_DLV_TGT n) = x ∧ (s.clpDeliver n x).flag (CLP_TGT_STAT_WFI x) = false ∧
    (s.clpDeliver n x).clp.order.getLast? = some x := by
  have hne := srcCfg_ne_stat hn x
  have hfld (f : Fld) := fld_congr (s.clpDeliver_regs n x) f
  refine ⟨?_, ?_, ?_, List.getLast?_concat⟩
  · rw [srcIs, hfld, fld_put_addr _ _ hne, CLP_SRC_CFG_DLV_TGT, CLP_SRC_CFG_STATE, fld_put_next _ (by decide) (by decide)]
    exact (s.srcPut_srcIs n _ _).trans (by decide)
  · rw [hfld, fld_put_addr _ _ hne, CLP_SRC_CFG_DLV_TGT, fld_put_same _ (by decide)]
    omega
  · rw [flag, hfld, CLP_TGT_STAT_WFI, fld_put_same _ (by decide)]
    rfl

theorem clpDeliver_reg {m : Nat} (hm : m < 512) (hmn : m ≠ n) : (s.clpDeliver n x).reg (rCLP_SRC_CFG m) = s.reg (rCLP_SRC_CFG m) := by
  refine (s.clpDeliver_only n x).regs _ fun h => ?_
  simp only [rCLP_SRC_CFG, rCLP_TGT_STAT, List.mem_cons, List.not_mem_nil, or_false] at h
  omega

/-- With its only PENDING source delivered, none waits. -/
theorem clpDeliver_pendingSrcs (h : s.pendingSrcs = [n]) (hx : x < 8) : (s.clpDeliver n x).pendingSrcs = [] := by
  refine List.eq_nil_iff_forall_not_mem.mpr fun m hm => ?_
  obtain ⟨hlt, hp⟩ := mem_pendingSrcs.mp hm
  obtain ⟨hn, -⟩ := pendingSrcs_single h
  by_cases hmn : m = n
  · subst hmn
    exact absurd (hp.symm.trans (srcIs_unique (clpDeliver_shows hlt hx).1 (by decide))) (by decide)
  · rw [srcIs_congr (clpDeliver_reg hlt hmn)] at hp
    exact hmn (List.mem_singleton.mp (h ▸ mem_pendingSrcs.mpr ⟨hlt, hp⟩))

/-! ## One clock of routing -/

theorem route_held (h : s.flag CLP_CTL_HOLD = true) : s.route = s.pendingSrcs.foldl State.srcWake s := by
  simp only [route, h, if_true]

/-- A single PENDING source, routed to the target picked for it or left to its wake. -/
theorem route_single (h : s.pendingSrcs = [n]) (hh : s.flag CLP_CTL_HOLD = false) :
    s.route = (State.routeOne ((List.range 7).filter s.tgtOpen) s n).pendingSrcs.foldl State.srcWake
      (State.routeOne ((List.range 7).filter s.tgtOpen) s n) := by
  simp only [route, hh, Bool.false_eq_true, if_false, routeOrder_single h, List.foldl_cons, List.foldl_nil]

theorem route_delivers (h : s.pendingSrcs = [n]) (hh : s.flag CLP_CTL_HOLD = false)
    (hp : s.pickTgt ((List.range 7).filter s.tgtOpen) n = some x) (hx : x < 8) : s.route = s.clpDeliver n x := by
  rw [route_single h hh, routeOne, hp]
  simp only [clpDeliver_pendingSrcs h hx, List.foldl_nil]

/-- No target that the source may go to is powered: nothing is delivered, and the source wakes its target. -/
theorem route_wakes (h : s.pendingSrcs = [n])
    (ht : ∀ x < 7, bitOf (s.fld (CLP_SRC_CFG_TGT_MASK n)) x = true → s.tgtPowered x = false) : s.route = s.srcWake n := by
  have hnone (opened : List Nat) : s.pickTgt opened n = none := pickTgt_none fun x => by
    refine Bool.eq_false_iff.mpr fun hc => ?_
    obtain ⟨hm, hp⟩ := tgtPowered_of_couldTake hc
    exact absurd (hp.symm.trans (ht x (lt_of_tgtPowered hp) hm)) (by decide)
  cases hh : s.flag CLP_CTL_HOLD with
  | true => rw [route_held hh, h, List.foldl_cons, List.foldl_nil]
  | false => simp only [route_single h hh, routeOne, hnone, h, List.foldl_cons, List.foldl_nil]

/-! ## A target that is not powered (R478) -/

/-- Sources put back to PENDING: one of them is PENDING with its AGAIN, another is as before. -/
theorem repend_only (s : State) (l : List Nat) :
    { l.foldl (fun s n => s.srcPut n stPENDING) s with regs := s.regs, clp := s.clp } = s := by
  induction l generalizing s with
  | nil => rfl
  | cons m l ih =>
    exact (congrArg (fun x : State => { x with regs := s.regs, clp := s.clp }) (ih (s.srcPut m stPENDING))).trans
      (s.srcPut_only m stPENDING).rest

theorem repend_reg (l : List Nat) (s : State) {a : Nat} (ha : ∀ m ∈ l, a ≠ rCLP_SRC_CFG m) :
    (l.foldl (fun s n => s.srcPut n stPENDING) s).reg a = s.reg a := by
  induction l generalizing s with
  | nil => rfl
  | cons m l ih =>
    refine (ih _ fun k hk => ha k (List.mem_cons_of_mem _ hk)).trans ((s.srcPut_only m _).regs _ fun h => ?_)
    exact ha m List.mem_cons_self (List.mem_singleton.mp h)

theorem srcCfg_inj {m k : Nat} (h : m ≠ k) : rCLP_SRC_CFG m ≠ rCLP_SRC_CFG k := by
  simp only [rCLP_SRC_CFG]
  omega

theorem repend_again (l : List Nat) (s : State) (n : Nat) :
    (l.foldl (fun s n => s.srcPut n stPENDING) s).flag (CLP_SRC_CFG_AGAIN n) = s.flag (CLP_SRC_CFG_AGAIN n) := by
  induction l generalizing s with
  | nil => rfl
  | cons m l ih =>
    refine (ih _).trans ?_
    by_cases hmn : n = m
    · exact hmn ▸ s.srcPut_again n _
    · exact congrArg (· == 1) ((s.srcPut_only m stPENDING).fld fun h => srcCfg_inj hmn (List.mem_singleton.mp h))

theorem repend_srcIs (l : List Nat) (s : State) (h : n ∈ l ∨ s.srcIs n stPENDING = true) :
    (l.foldl (fun s n => s.srcPut n stPENDING) s).srcIs n stPENDING = true := by
  induction l generalizing s with
  | nil => exact h.resolve_left List.not_mem_nil
  | cons m l ih =>
    refine ih _ ?_
    by_cases hmn : n = m
    · subst hmn
      exact .inr ((s.srcPut_srcIs n _ _).trans (by decide))
    · refine h.imp (fun h => (List.mem_cons.mp h).resolve_left hmn) fun h => ?_
      rw [srcIs_congr ((s.srcPut_only m stPENDING).regs _ fun h => srcCfg_inj hmn (List.mem_singleton.mp h)), h]

/-- The sources of a target that loses its power, put back, and its WFI cleared. -/
def unloaded (s : State) (tg : Nat) : State := ((s.deliveredTo tg).foldl (fun s n => s.srcPut n stPENDING) s).put (CLP_TGT_STAT_WFI tg) 0

theorem targetDown_powered (h : s.tgtPowered x = true) : s.targetDown x = s := if_pos h

theorem targetDown_unpowered (h : s.tgtPowered x = false) : s.targetDown x =
    if s.deliveredTo x = [] then s.unloaded x else (s.unloaded x).addCnt CLP_REROUTE_CNT_VAL (s.deliveredTo x).length :=
  if_neg (by simp [h])

theorem rest_put {t : State} (h : { t with regs := s.regs, clp := s.clp } = s) (f : Fld) (v : Nat) :
    { t.put f v with regs := s.regs, clp := s.clp } = s := h

theorem targetDown_rest (s : State) (x : Nat) : { s.targetDown x with regs := s.regs, clp := s.clp } = s := by
  cases h : s.tgtPowered x with
  | true => rw [targetDown_powered h]
  | false =>
    rw [targetDown_unpowered h]
    have hu := rest_put (s.repend_only (s.deliveredTo x)) (CLP_TGT_STAT_WFI x) 0
    split
    · exact hu
    · exact rest_put hu _ _

theorem unloaded_reg {a : Nat} (hs : a ≠ rCLP_TGT_STAT x) (ha : ∀ m ∈ s.deliveredTo x, a ≠ rCLP_SRC_CFG m) :
    (s.unloaded x).reg a = s.reg a := (reg_put_ne _ _ _ hs).trans (repend_reg _ s ha)

theorem targetDown_reg {a : Nat} (hc : a ≠ rCLP_REROUTE_CNT) (hs : a ≠ rCLP_TGT_STAT x)
    (ha : ∀ m ∈ s.deliveredTo x, a ≠ rCLP_SRC_CFG m) : (s.targetDown x).reg a = s.reg a := by
  cases h : s.tgtPowered x with
  | true => rw [targetDown_powered h]
  | false =>
    rw [targetDown_unpowered h]
    split
    · exact unloaded_reg hs ha
    · exact (reg_put_ne _ _ _ hc).trans (unloaded_reg hs ha)

/-- The register of a source after the target lost its power is that of the sources put back. -/
theorem targetDown_srcReg (h : s.tgtPowered x = false) {m : Nat} (hm : m < 512) : (s.targetDown x).reg (rCLP_SRC_CFG m) =
    ((s.deliveredTo x).foldl (fun s n => s.srcPut n stPENDING) s).reg (rCLP_SRC_CFG m) := by
  have hstat := srcCfg_ne_stat hm x
  have hcnt : rCLP_SRC_CFG m ≠ rCLP_REROUTE_CNT := by simp only [rCLP_SRC_CFG, rCLP_REROUTE_CNT]; omega
  rw [targetDown_unpowered h]
  split
  · exact reg_put_ne _ _ _ hstat
  · exact (reg_put_ne _ _ _ hcnt).trans (reg_put_ne _ _ _ hstat)

theorem targetDown_wfi (h : s.tgtPowered x = false) : (s.targetDown x).flag (CLP_TGT_STAT_WFI x) = false := by
  have hu : (s.unloaded x).flag (CLP_TGT_STAT_WFI x) = false := congrArg (· == 1) (fld_put_same _ (by decide))
  rw [targetDown_unpowered h]
  split
  · exact hu
  · refine (flag_put_addr _ _ ?_).trans hu
    simp only [CLP_TGT_STAT_WFI, rCLP_TGT_STAT, CLP_REROUTE_CNT_VAL, rCLP_REROUTE_CNT]
    omega

theorem targetDown_counts (h : s.tgtPowered x = false) : (s.targetDown x).fld CLP_REROUTE_CNT_VAL =
    (s.fld CLP_REROUTE_CNT_VAL + (s.deliveredTo x).length) % 2 ^ 32 := by
  have hu : (s.unloaded x).fld CLP_REROUTE_CNT_VAL = s.fld CLP_REROUTE_CNT_VAL := by
    refine congrArg (fun w : Word => bits w.toNat 0 32) (unloaded_reg ?_ fun m _ => ?_)
    · simp only [CLP_REROUTE_CNT_VAL, rCLP_TGT_STAT, rCLP_REROUTE_CNT]; omega
    · simp only [CLP_REROUTE_CNT_VAL, rCLP_SRC_CFG, rCLP_REROUTE_CNT]; omega
  rw [targetDown_unpowered h]
  split
  · next hl =>
    rw [hu, hl]
    exact (Nat.mod_eq_of_lt (s.fld_lt CLP_REROUTE_CNT_VAL)).symm
  · rw [addCnt_eq, hu]
    exact fld_put_self _ _ _ (by decide)

/-! ## Moderation and WFI (R476, R477) -/

theorem tgtOpen_of_no_round (h : tabGet none s.clp.rounds x = none) : s.tgtOpen x = true := by
  simp [tgtOpen, h]

end
end State

/-- Settles O55: the states of a source by what it does with its signal, the targets by the source that waits. -/
theorem clapperDeliversSources : Obligations.ClapperDeliversSources := by
  refine ⟨fun s r n v tg hn => ⟨fun h => ?_, fun he hd => ?_, fun htg hr => ?_, fun hr => ?_⟩,
    fun s r n u tg hold => ⟨fun h => ?_, fun hd hh hp hu hc hopen => ?_, fun hd hh => ?_, fun hd hp ht he hw => ?_, fun htg hp => ?_,
      fun h => ?_, fun hr => ?_, fun k hk hdue => ?_, fun h => ?_, fun htg hp hnil => ?_, fun h => ?_⟩⟩
  · simp only [exec, execSourceSignalChange]
    rw [if_neg (by rcases h with h | h <;> simp [h])]
  · have honly := s.srcSample_only n
    simp only [exec, execSourceSignalChange, if_pos (And.intro hn (And.intro he hd))]
    refine ⟨_, rfl, honly.pulses, ?_, honly.regs, fun ho => ?_, fun ho hs => ?_, fun ho hs hi hh => ?_, fun ho hs hdl ht hh => ?_⟩
    · exact congrArg (fun x : State => { x with regs := s.regs, clp := s.clp, pulses := s.pulses }) honly.rest
    · rw [State.srcSample_off ho]; rfl
    · rw [State.srcSample_quiet hs]; rfl
    · rw [State.srcSample_idle ho hs hi hh, State.srcPut_srcIs]; rfl
    · rw [State.srcSample_again ho hs hdl ht hh, State.againPut_srcIs]
      exact ⟨State.againPut_flag _ n 1, hdl⟩
  · simp only [exec, execClpComplete, htg, if_true, State.gated_reaches hr, Nat.mod_eq_of_lt hn]
    refine ⟨fun h => ?_, fun hd ht => ?_⟩
    · rw [State.srcComplete_wrong h]
      exact ⟨_, rfl, State.fld_inc_self s (by decide), s.inc_onlyRegs _⟩
    · rw [State.srcComplete_held hd ht]
      obtain ⟨honly, htgt, htrig⟩ := s.completed_keeps n
      exact ⟨_, rfl, htgt, htrig, honly.rest, honly.regs, State.completed_off, State.completed_edge, State.completed_level⟩
  · simp only [exec, execSourceCfgWrite, hn, if_true, State.gated_reaches hr]
    refine ⟨fun he => by rw [State.writeSrcCfg, if_pos he], fun he => ?_⟩
    obtain ⟨⟨hen, htrig, hprio, hmask, hwt, hwe⟩, hstates⟩ := State.writeSrcCfg_shows (s := s) hn he v
    exact ⟨_, rfl, hen, htrig, hprio, hmask, hwt, hwe, hstates⟩
  · simp only [exec, execRoutePending, h, Bool.false_eq_true, if_false]
  · have hopen' : u ∈ (List.range 7).filter s.tgtOpen ∨ s.bypasses n u = true :=
      hopen.imp_left fun ho => List.mem_filter.mpr ⟨List.mem_range.mpr hu, ho⟩
    have hmem : u ∈ s.takers ((List.range 7).filter s.tgtOpen) n := State.mem_takers.mpr ⟨State.mem_tgtOrder hu, hc, hopen'⟩
    obtain ⟨x, hpick, hx, hmin⟩ := State.pickTgt_some hmem
    obtain ⟨-, hxc, hxo⟩ := State.mem_takers.mp hx
    have hx7 := State.lt_of_tgtPowered (State.tgtPowered_of_couldTake hxc).2
    obtain ⟨hst, htgt, hwfi, hlast⟩ := State.clpDeliver_shows (s := s) (State.pendingSrcs_single hp).1 (Nat.lt_succ_of_lt hx7)
    have honly := s.clpDeliver_only n x
    simp only [exec, execRoutePending, hd, if_true, State.route_delivers hp hh hpick (Nat.lt_succ_of_lt hx7)]
    exact ⟨_, x, rfl, hx7, hxc, hxo.imp_left fun h => (List.mem_filter.mp h).2, hmin u hmem, hst, htgt, hwfi, hlast, honly.rest,
      honly.regs⟩
  · simp only [exec, execRoutePending, hd, if_true, State.route_held hh]
    have honly := s.srcWakes_only s.pendingSrcs
    exact ⟨_, rfl, fun m hm => honly.regs _ (State.srcCfg_ne_wake hm), honly.regs⟩
  · obtain ⟨hn, hpend⟩ := State.pendingSrcs_single hp
    simp only [exec, execRoutePending, hd, if_true, State.route_wakes hp ht]
    exact ⟨_, rfl, (State.srcIs_congr (s.srcWake_reg n hn) _).trans hpend, State.srcWake_shows hpend he hw ht⟩
  · simp only [exec, execTargetPowerDown, htg, if_true]
    refine ⟨_, rfl, State.targetDown_wfi hp, State.targetDown_counts hp, s.targetDown_rest tg, fun m hm hd ht => ?_, fun m hm h => ?_⟩
    · have hreg := State.targetDown_srcReg hp hm
      rw [State.srcIs_congr hreg]
      refine ⟨State.repend_srcIs _ s (.inl (State.mem_deliveredTo.mpr ⟨hm, hd, ht⟩)), ?_⟩
      exact (congrArg (fun w : Word => bits w.toNat 28 1 == 1) hreg).trans (State.repend_again _ s m)
    · rw [State.targetDown_srcReg hp hm]
      refine State.repend_reg _ s fun k hk => State.srcCfg_inj fun hmk => ?_
      obtain ⟨-, hd, ht⟩ := State.mem_deliveredTo.mp (hmk ▸ hk)
      rcases h with h | h
      · exact absurd (h.symm.trans hd) (by decide)
      · exact h ht
  · simp only [exec, execTargetPowerDown]
    rcases h with h | h
    · rw [if_neg (Nat.not_lt.mpr h)]
    · rw [State.targetDown_powered h, ite_self]
  · simp only [exec, execClpHoldWrite, State.gated_reaches hr]
    exact ⟨_, rfl, State.flag_put_bitN s (by decide) (by decide) hold, (State.OnlyRegs.refl s _).put _ (by decide)⟩
  · have hmod : s.modDue tg = true := by simp only [State.modDue, hk, hdue, decide_true]
    simp only [exec, execModerationExpire, hmod, if_true]
    exact ⟨_, rfl, rfl, rfl, rfl, State.tgtOpen_of_no_round (tabGet_tabSet_self none _ tg none)⟩
  · simp only [exec, execModerationExpire, h, Bool.false_eq_true, if_false]
  · simp only [exec, execTargetWfi, htg, hp, hnil, List.isEmpty_nil, and_self, if_true]
    exact ⟨_, rfl, congrArg (· == 1) (State.fld_put_same 1 (by decide)), (State.OnlyRegs.refl s _).put 1 List.mem_cons_self⟩
  · simp only [exec, execTargetWfi]
    rw [if_neg]
    rintro ⟨-, hp, hnil⟩
    rcases h with h | h
    · exact absurd (h.symm.trans hp) (by decide)
    · exact h (List.isEmpty_iff.mp hnil)

end Sys2Proof.Machine
end

section
/-! SUPPORT. Changes named by the fields they may touch, and the error records and causes among them. -/

namespace Sys2Proof.Machine
namespace State

/-- A field within its register that overlaps none of those listed. -/
def beside (fs : List Fld) (g : Fld) : Bool :=
  decide (g.lsb + g.wid ≤ 32) && fs.all fun f => g.addr != f.addr || decide (f.lsb + f.wid ≤ g.lsb) || decide (g.lsb + g.wid ≤ f.lsb)

/-- Every field beside those listed holds in `t` what it holds in `s`. -/
def FldsBut (s t : State) (fs : List Fld) : Prop := ∀ g, beside fs g = true → t.fld g = s.fld g

theorem beside_iff {fs : List Fld} {g : Fld} : beside fs g = true ↔ g.lsb + g.wid ≤ 32 ∧ ∀ f ∈ fs, apart f g := by
  simp [beside, apart, or_assoc]

namespace FldsBut

variable {s t u : State} {fs gs : List Fld}

theorem refl (s : State) (fs : List Fld) : s.FldsBut s fs := fun _ _ => rfl

theorem same (h : s.FldsBut t fs) (e : u.regs = t.regs) : s.FldsBut u fs := fun g hg => (fld_congr e g).trans (h g hg)

theorem put (h : s.FldsBut t fs) {f : Fld} (v : Nat) (hf : f ∈ fs) : s.FldsBut (t.put f v) fs := fun g hg =>
  have ⟨hw, ha⟩ := beside_iff.mp hg
  (fld_put_apart t v hw (ha f hf)).trans (h g hg)

theorem mono (h : s.FldsBut t fs) (hs : fs ⊆ gs) : s.FldsBut t gs := fun g hg =>
  have ⟨hw, ha⟩ := beside_iff.mp hg
  h g (beside_iff.mpr ⟨hw, fun f hf => ha f (hs hf)⟩)

theorem trans (h : s.FldsBut t fs) (k : t.FldsBut u fs) : s.FldsBut u fs := fun g hg => (k g hg).trans (h g hg)

/-- Changes of different fields one after the other. -/
theorem append (h : s.FldsBut t fs) (k : t.FldsBut u gs) : s.FldsBut u (fs ++ gs) :=
  (h.mono (List.subset_append_left fs gs)).trans (k.mono (List.subset_append_right fs gs))

theorem flag (h : s.FldsBut t fs) {g : Fld} (hg : beside fs g = true) : t.flag g = s.flag g := congrArg (· == 1) (h g hg)

end FldsBut

section
variable (s : State)

theorem put_fldsBut (f : Fld) (v : Nat) : s.FldsBut (s.put f v) [f] := (FldsBut.refl s _).put v List.mem_cons_self

theorem putDev_fldsBut (f : Fld) (v : Nat) : s.FldsBut (s.putDev f v) [f] := fun _ hg =>
  have ⟨hw, ha⟩ := beside_iff.mp hg
  s.fld_putDev_apart v hw (ha f List.mem_cons_self)

/-! ## Error records and causes (R168, R524, R528) -/

/-- What an error record may show. -/
def recFields : List Fld := [RAS_REC_OVF_CNT_VAL, RAS_EVT_REC_OVF, RAS_EVT_REC, RAS_EVT_FATAL]

theorem rasRecord_fldsBut (cls sev unit plane detail : Nat) : s.FldsBut (s.rasRecord cls sev unit plane detail) recFields := by
  unfold rasRecord
  split
  · exact ((FldsBut.refl s _).put _ (by decide)).put _ (by decide)
  · have hrec (l : List ErrRec) : s.FldsBut (({ s with errFifo := l } : State).setFlag RAS_EVT_REC) recFields :=
      ((FldsBut.refl s _).same rfl).put _ (by decide)
    dsimp only
    split
    · exact (hrec _).put _ (by decide)
    · exact hrec _

theorem inc_tri (f : Fld) : (s.inc f).tri = s.tri := rfl
theorem setFlag_tri (f : Fld) : (s.setFlag f).tri = s.tri := rfl

@[simp] theorem rasRecord_tri (cls sev unit plane detail : Nat) : (s.rasRecord cls sev unit plane detail).tri = s.tri := by
  unfold rasRecord
  split
  · rw [setFlag_tri, inc_tri]
  · dsimp only
    split
    · rw [setFlag_tri, setFlag_tri]
    · rw [setFlag_tri]

theorem errCause_shows {b : Nat} (h : b < 6) : bitOf ((s.errCause b).fld RAS_ERR_OUT_CAUSE) b = true := by
  rw [errCause, fld_put_self _ _ _ (by decide), bitOf_mod (n := RAS_ERR_OUT_CAUSE.wid) h, bitOf_setBits_one_self]
  rfl

end
end State
end Sys2Proof.Machine
end

section
/-! SUPPORT. The Triangle: its modes, fences and tests, a mismatch found and classified, and the safe state (R454 to R461). -/

namespace Sys2Proof.Machine
namespace State

section
variable {s : State}

/-! ## Modes, fences and tests -/

theorem putMode_fldsBut (s : State) (m : Nat) : s.FldsBut (s.putMode m) [TRI_STATUS_MODE, TRI_EVT_MODE_CHG] := by
  unfold putMode
  split
  · exact .refl s _
  · exact ((FldsBut.refl s _).put m (by decide)).put 1 (by decide)

theorem fld_putMode (s : State) {m : Nat} (hm : m < 8) : (s.putMode m).fld TRI_STATUS_MODE = m := by
  unfold putMode
  split
  · assumption
  · exact (fld_put_addr _ _ (by decide)).trans ((fld_put_self s TRI_STATUS_MODE m (by decide)).trans (Nat.mod_eq_of_lt hm))

theorem putMode_changes {m : Nat} (h : s.fld TRI_STATUS_MODE ≠ m) : (s.putMode m).flag TRI_EVT_MODE_CHG = true := by
  rw [putMode, if_neg (c := s.triMode = m) h]
  exact flag_setFlag_self _ (by decide) rfl

@[simp] theorem putMode_tri (s : State) (m : Nat) : (s.putMode m).tri = s.tri := by
  unfold putMode
  split <;> rfl

/-- A core fenced: its bit alone is set. -/
theorem bitOf_fence (s : State) {c x : Nat} (hx : x < 3) :
    bitOf ((s.fence c).fld TRI_STATUS_FENCED) x = (decide (x = c) || bitOf (s.fld TRI_STATUS_FENCED) x) := by
  rw [fence, fld_put_self _ _ _ (by decide), bitOf_mod (n := TRI_STATUS_FENCED.wid) hx]
  by_cases h : x = c
  · rw [h, bitOf_setBits_one_self]; simp
  · rw [bitOf_setBits_one_ne _ _ h]; simp [h]

theorem fence_first {c : Nat} (h : s.fld TRI_STATUS_FENCED = 0) (hc : c < 3) : (s.fence c).fld TRI_STATUS_FENCED = 2 ^ c := by
  rw [fence, fld_put_self _ _ _ (by decide), h]
  interval_cases c <;> rfl

theorem bitOf_testing (s : State) {c x : Nat} (hx : x < 3) (on : Bool) : bitOf ((s.testing c on).fld TRI_STATUS_TESTING) x =
    if x = c then on else bitOf (s.fld TRI_STATUS_TESTING) x := by
  rw [testing, fld_put_self _ _ _ (by decide), bitOf_mod (n := TRI_STATUS_TESTING.wid) hx]
  split
  · next h => rw [h, bitOf_setBits_one_self]; cases on <;> rfl
  · next h => rw [bitOf_setBits_one_ne _ _ h]

theorem fence_fldsBut (s : State) (c : Nat) : s.FldsBut (s.fence c) [TRI_STATUS_FENCED] := s.put_fldsBut _ _
theorem testing_fldsBut (s : State) (c : Nat) (on : Bool) : s.FldsBut (s.testing c on) [TRI_STATUS_TESTING] := s.put_fldsBut _ _

@[simp] theorem setTri_fld (s : State) (t : Tri) (f : Fld) : (s.setTri t).fld f = s.fld f := rfl
@[simp] theorem setTri_flag (s : State) (t : Tri) (f : Fld) : (s.setTri t).flag f = s.flag f := rfl
@[simp] theorem setTri_tri (s : State) (t : Tri) : (s.setTri t).tri = t := rfl
@[simp] theorem fence_tri (s : State) (c : Nat) : (s.fence c).tri = s.tri := rfl
@[simp] theorem testing_tri (s : State) (c : Nat) (on : Bool) : (s.testing c on).tri = s.tri := rfl

theorem setTri_fldsBut (s : State) (t : Tri) : s.FldsBut (s.setTri t) [] := (FldsBut.refl s []).same rfl

/-! ## A mismatch found (R456) -/

/-- Every field of its record. -/
def foundFields : List Fld := [TRI_LAST_MM_VALID, TRI_LAST_MM_KIND, TRI_LAST_MM_CORES, TRI_LAST_MM_CLASS, TRI_LAST_MM_TIME_LO_AO,
  TRI_LAST_MM_TIME_HI_AO]

theorem mmFound_fldsBut (s : State) (kind cores : Nat) : s.FldsBut (s.mmFound kind cores) foundFields :=
  ((((((FldsBut.refl s foundFields).same (u := { s with tri := { s.tri with found := s.ao } }) rfl).put _ (by decide)).put _
    (by decide)).put _ (by decide)).put _ (by decide)).put _ (by decide) |>.put _ (by decide)

theorem mmFound_tri (s : State) (kind cores : Nat) : (s.mmFound kind cores).tri = { s.tri with found := s.ao } := rfl

/-- The record of a mismatch, whose class is not yet known. -/
theorem mmFound_shows (s : State) {kind cores : Nat} (hk : kind < 2) (hc : cores < 8) :
    (s.mmFound kind cores).flag TRI_LAST_MM_VALID = true ∧ (s.mmFound kind cores).fld TRI_LAST_MM_KIND = kind ∧
      (s.mmFound kind cores).fld TRI_LAST_MM_CORES = cores ∧ (s.mmFound kind cores).fld TRI_LAST_MM_CLASS = 0 ∧
      (s.mmFound kind cores).fld64 TRI_LAST_MM_TIME_LO_AO TRI_LAST_MM_TIME_HI_AO = s.ao % 2 ^ 48 := by
  unfold mmFound
  dsimp only
  generalize ({ s with tri := { s.tri with found := s.ao } } : State) = t
  refine ⟨?_, ?_, ?_, ?_, ?_⟩
  all_goals
    simp (disch := decide) only [put64_eq, fld64, flag_eq, fld_put_same, fld_put_next, fld_put_other, TRI_LAST_MM_VALID, TRI_LAST_MM_KIND,
      TRI_LAST_MM_CORES, TRI_LAST_MM_CLASS, TRI_LAST_MM_TIME_LO_AO, TRI_LAST_MM_TIME_HI_AO]
  · rfl
  · exact Nat.mod_eq_of_lt hk
  · exact Nat.mod_eq_of_lt hc
  · rfl
  · omega

/-! ## A class recorded (R456, R461) -/

/-- What a class may show beside the class itself: the counters, the suspicion of the voter and the error record. -/
def classFields : List Fld := [TRI_LAST_MM_CLASS, TRI_EVT_MISMATCH, TRI_STATE_DIV_CNT_VAL, TRI_CORE_FAULT_CNT_VAL,
  TRI_INPUT_SKEW_CNT_VAL, TRI_UNATTRIBUTED_CNT_VAL, TRI_STATUS_VOTER_SUSPECT, TRI_EVT_VOTER_SUSPECT, RAS_ERR_OUT_CAUSE] ++ recFields

/-- The counter of a class. -/
def classCount (s : State) (cls : Nat) : State :=
  if cls = mcDIVERGENCE then s.inc TRI_STATE_DIV_CNT_VAL
  else if cls = mcFAULT ∨ cls = mcRESOLVED then s.inc TRI_CORE_FAULT_CNT_VAL
  else if cls = mcSKEW then s.inc TRI_INPUT_SKEW_CNT_VAL
  else if cls = mcUNATTRIBUTED then s.noteUnattributed s.tri.found
  else s

/-- A class put into the record. -/
def classShown (s : State) (cls : Nat) : State := (s.put TRI_LAST_MM_CLASS cls).setFlag TRI_EVT_MISMATCH

/-- The severity of its error record. -/
def classSev (cls : Nat) : Nat := if cls = mcDIVERGENCE ∨ cls = mcSKEW ∨ cls = mcUNATTRIBUTED then 0 else 2

theorem mmClass_eq (s : State) (cls : Nat) : s.mmClass cls = ((s.classShown cls).classCount cls).rasRecord 0x08 (classSev cls) 0x06 0
    (((s.classShown cls).classCount cls).reg rTRI_LAST_MM).toNat := rfl

/-- What a counted class leaves. -/
def countFields : List Fld := [TRI_STATE_DIV_CNT_VAL, TRI_CORE_FAULT_CNT_VAL, TRI_INPUT_SKEW_CNT_VAL, TRI_UNATTRIBUTED_CNT_VAL,
  TRI_STATUS_VOTER_SUSPECT, TRI_EVT_VOTER_SUSPECT, RAS_ERR_OUT_CAUSE]

/-- An UNATTRIBUTED mismatch counted, and the suspicion of the voter that may follow. -/
def unattributedNoted (s : State) (t : Nat) : State :=
  (s.setTri { s.tri with unattributed := (t :: s.tri.unattributed).take 3 }).inc TRI_UNATTRIBUTED_CNT_VAL
def voterSuspected (s : State) : State := ((s.put TRI_STATUS_VOTER_SUSPECT 1).setFlag TRI_EVT_VOTER_SUSPECT).errCause 2

theorem noteUnattributed_cases (s : State) (t : Nat) :
    s.noteUnattributed t = s.unattributedNoted t ∨ s.noteUnattributed t = (s.unattributedNoted t).voterSuspected := by
  change (match (t :: s.tri.unattributed).take 3 with
    | [_, _, a] => if (t + 2 ^ 48 - a) % 2 ^ 48 ≤ hourUs then (s.unattributedNoted t).voterSuspected else s.unattributedNoted t
    | _ => s.unattributedNoted t) = _ ∨ (match (t :: s.tri.unattributed).take 3 with
    | [_, _, a] => if (t + 2 ^ 48 - a) % 2 ^ 48 ≤ hourUs then (s.unattributedNoted t).voterSuspected else s.unattributedNoted t
    | _ => s.unattributedNoted t) = _
  split
  · split
    · exact .inr rfl
    · exact .inl rfl
  · exact .inl rfl

theorem noteUnattributed_fldsBut (s : State) (t : Nat) : s.FldsBut (s.noteUnattributed t) countFields := by
  have hnoted : s.FldsBut (s.unattributedNoted t) countFields := ((s.setTri_fldsBut _).mono (List.nil_subset _)).put _ (by decide)
  obtain h | h := s.noteUnattributed_cases t
  · exact h ▸ hnoted
  · exact h ▸ ((hnoted.put _ (by decide)).put _ (by decide)).put _ (by decide)

theorem noteUnattributed_tri (s : State) (t : Nat) :
    (s.noteUnattributed t).tri = { s.tri with unattributed := (t :: s.tri.unattributed).take 3 } := by
  obtain h | h := s.noteUnattributed_cases t
  · rw [h, unattributedNoted, inc_tri, setTri_tri]
  · rw [h, voterSuspected, errCause, put_tri, setFlag_tri, put_tri, unattributedNoted, inc_tri, setTri_tri]

theorem noteUnattributed_counts (s : State) (t : Nat) :
    (s.noteUnattributed t).fld TRI_UNATTRIBUTED_CNT_VAL = (s.fld TRI_UNATTRIBUTED_CNT_VAL + 1) % 2 ^ 32 := by
  have hinc : (s.unattributedNoted t).fld TRI_UNATTRIBUTED_CNT_VAL = (s.fld TRI_UNATTRIBUTED_CNT_VAL + 1) % 2 ^ 32 :=
    fld_inc_self _ (by decide)
  obtain h | h := s.noteUnattributed_cases t
  · rw [h, hinc]
  · rw [h, voterSuspected, errCause, setFlag_eq, fld_put_addr _ _ (by decide), fld_put_addr _ _ (by decide), fld_put_addr _ _ (by decide),
      hinc]

theorem classCount_fldsBut (s : State) (cls : Nat) : s.FldsBut (s.classCount cls) countFields := by
  unfold classCount
  split
  · exact (FldsBut.refl s _).put _ (by decide)
  · split
    · exact (FldsBut.refl s _).put _ (by decide)
    · split
      · exact (FldsBut.refl s _).put _ (by decide)
      · split
        · exact s.noteUnattributed_fldsBut _
        · exact .refl s _

theorem mmClass_fldsBut (s : State) (cls : Nat) : s.FldsBut (s.mmClass cls) classFields := by
  have hshown : s.FldsBut (s.classShown cls) classFields := ((FldsBut.refl s _).put _ (by decide)).put _ (by decide)
  rw [mmClass_eq]
  exact (hshown.trans ((classCount_fldsBut _ cls).mono (by decide))).trans ((rasRecord_fldsBut _ _ _ _ _ _).mono (by decide))

/-- Beside the list of UNATTRIBUTED mismatches the Triangle's own state is as before. -/
theorem mmClass_tri (s : State) (cls : Nat) : { (s.mmClass cls).tri with unattributed := s.tri.unattributed } = s.tri := by
  have hshown : (s.classShown cls).tri = s.tri := by rw [classShown, setFlag_tri, put_tri]
  rw [mmClass_eq, rasRecord_tri]
  unfold classCount
  split
  · rw [inc_tri, hshown]
  · split
    · rw [inc_tri, hshown]
    · split
      · rw [inc_tri, hshown]
      · split
        · rw [noteUnattributed_tri, hshown]
        · rw [hshown]

theorem mmClass_shows (s : State) {cls : Nat} (h : cls < 16) :
    (s.mmClass cls).fld TRI_LAST_MM_CLASS = cls ∧ (s.mmClass cls).flag TRI_EVT_MISMATCH = true := by
  have hc := (s.classShown cls).classCount_fldsBut cls
  have hr := rasRecord_fldsBut ((s.classShown cls).classCount cls) 0x08 (classSev cls) 0x06 0
    (((s.classShown cls).classCount cls).reg rTRI_LAST_MM).toNat
  rw [mmClass_eq]
  refine ⟨?_, ?_⟩
  · rw [hr _ (by decide), hc _ (by decide), classShown, setFlag_eq, fld_put_addr _ _ (by decide), fld_put_self _ _ _ (by decide)]
    exact Nat.mod_eq_of_lt h
  · rw [hr.flag (by decide), hc.flag (by decide)]
    exact flag_setFlag_self _ (by decide) rfl

/-- The counters of the classes. -/
theorem mmClass_counts (s : State) :
    (s.mmClass mcDIVERGENCE).fld TRI_STATE_DIV_CNT_VAL = (s.fld TRI_STATE_DIV_CNT_VAL + 1) % 2 ^ 32 ∧
      (s.mmClass mcFAULT).fld TRI_CORE_FAULT_CNT_VAL = (s.fld TRI_CORE_FAULT_CNT_VAL + 1) % 2 ^ 32 ∧
      (s.mmClass mcSKEW).fld TRI_INPUT_SKEW_CNT_VAL = (s.fld TRI_INPUT_SKEW_CNT_VAL + 1) % 2 ^ 32 ∧
      (s.mmClass mcUNATTRIBUTED).fld TRI_UNATTRIBUTED_CNT_VAL = (s.fld TRI_UNATTRIBUTED_CNT_VAL + 1) % 2 ^ 32 := by
  have hshown (cls : Nat) {f : Fld} (hf : beside [TRI_LAST_MM_CLASS, TRI_EVT_MISMATCH] f = true) :
      (s.classShown cls).fld f = s.fld f := (((FldsBut.refl s _).put _ (by decide)).put _ (by decide) : s.FldsBut (s.classShown cls) _) f hf
  refine ⟨?_, ?_, ?_, ?_⟩
  all_goals rw [mmClass_eq, rasRecord_fldsBut _ _ _ _ _ _ _ (by decide)]
  · exact (fld_inc_self _ (by decide)).trans (by rw [hshown _ (by decide)]; rfl)
  · exact (fld_inc_self _ (by decide)).trans (by rw [hshown _ (by decide)]; rfl)
  · exact (fld_inc_self _ (by decide)).trans (by rw [hshown _ (by decide)]; rfl)
  · exact (noteUnattributed_counts _ _).trans (by rw [hshown _ (by decide)])

/-! ## The safe state (R22, R459) -/

/-- A write of the RUN bits leaves what is neither theirs nor Clapper's. -/
theorem putRun_reg (s : State) (run : Nat) {a : Nat} (ha : a ≠ rTRI_AP_CTL) (h5 : a / 0x100000 ≠ 5) :
    (s.putRun run).reg a = s.reg a := by
  have hdown (t : State) {x : Nat} (hx : x < 7) : (t.targetDown x).reg a = t.reg a := by
    refine targetDown_reg ?_ ?_ fun m hm => ?_
    · simp only [rCLP_REROUTE_CNT]; omega
    · simp only [rCLP_TGT_STAT]; omega
    · have := (mem_deliveredTo.mp hm).1
      simp only [rCLP_SRC_CFG]
      omega
  simp only [putRun, List.foldl_cons, List.foldl_nil]
  rw [hdown _ (by decide), hdown _ (by decide), hdown _ (by decide), hdown _ (by decide)]
  exact reg_put_ne s TRI_AP_CTL_RUN run ha

theorem fld_putRun (s : State) (run : Nat) : (s.putRun run).fld TRI_AP_CTL_RUN = run % 16 := by
  have hdown (t : State) (x : Nat) (hx : x < 7) : (t.targetDown x).reg rTRI_AP_CTL = t.reg rTRI_AP_CTL := by
    refine targetDown_reg (by decide) ?_ fun m hm => ?_
    · simp only [rTRI_AP_CTL, rCLP_TGT_STAT]; omega
    · have := (mem_deliveredTo.mp hm).1
      simp only [rTRI_AP_CTL, rCLP_SRC_CFG]
      omega
  have hfld (t : State) (x : Nat) (hx : x < 7) : (t.targetDown x).fld TRI_AP_CTL_RUN = t.fld TRI_AP_CTL_RUN :=
    congrArg (fun w : Word => bits w.toNat 0 4) (hdown t x hx)
  simp only [putRun, List.foldl_cons, List.foldl_nil]
  rw [hfld _ _ (by decide), hfld _ _ (by decide), hfld _ _ (by decide), hfld _ _ (by decide)]
  exact fld_put_self s TRI_AP_CTL_RUN run (by decide)

theorem targetDown_tri (s : State) (x : Nat) : (s.targetDown x).tri = s.tri := (congrArg State.tri (s.targetDown_rest x) :)

theorem putRun_tri (s : State) (run : Nat) : (s.putRun run).tri = s.tri := by
  simp only [putRun, List.foldl_cons, List.foldl_nil, targetDown_tri, put_tri]

/-- The stalled cluster and its cause, before the device leaves its state. -/
def safeHeld (s : State) : State :=
  ((((s.putMode tmSAFE).put TRI_STATUS_TESTING 0).putRun 0).errCause 0).putDev GLB_DEVSTATE_SAFE 1

theorem enterSafe_eq (s : State) : s.enterSafe =
    if (s.safeHeld.setTri { s.safeHeld.tri with pend := none, resync := none }).inState .startUp ∨
        (s.safeHeld.setTri { s.safeHeld.tri with pend := none, resync := none }).inState .run ∨
        (s.safeHeld.setTri { s.safeHeld.tri with pend := none, resync := none }).inState .test then
      (s.safeHeld.setTri { s.safeHeld.tri with pend := none, resync := none }).enter .recovery
    else s.safeHeld.setTri { s.safeHeld.tri with pend := none, resync := none } := rfl

end
end State
end Sys2Proof.Machine
end

section
/-! SUPPORT. The safe state of the cluster, and which of its cores disagree (R22, R454, R455, R459). -/

namespace Sys2Proof.Machine
namespace State

/-! ## The safe state (R22, R459) -/

/-- What the safe state writes, beside the registers of Clapper. -/
def safeFields : List Fld := [TRI_STATUS_MODE, TRI_EVT_MODE_CHG, TRI_STATUS_TESTING, TRI_AP_CTL_RUN, RAS_ERR_OUT_CAUSE, GLB_DEVSTATE_SAFE,
  GLB_DEVSTATE_STATE]

section
variable {s t : State}

theorem putRun_fld (s : State) (run : Nat) {g : Fld} (ha : g.addr ≠ rTRI_AP_CTL) (h5 : g.addr / 0x100000 ≠ 5) :
    (s.putRun run).fld g = s.fld g := by rw [fld, fld, putRun_reg s run ha h5]

/-- The cluster stalled, its tests ended and its application cores held. -/
def stalled (s : State) : State := ((s.putMode tmSAFE).put TRI_STATUS_TESTING 0).putRun 0

theorem safeHeld_eq (s : State) : s.safeHeld = (s.stalled.errCause 0).putDev GLB_DEVSTATE_SAFE 1 := rfl

theorem stalled_fld (s : State) {g : Fld} (hg : beside [TRI_STATUS_MODE, TRI_EVT_MODE_CHG, TRI_STATUS_TESTING] g = true)
    (ha : g.addr ≠ rTRI_AP_CTL) (h5 : g.addr / 0x100000 ≠ 5) : s.stalled.fld g = s.fld g := by
  rw [stalled, putRun_fld _ _ ha h5]
  exact (((s.putMode_fldsBut tmSAFE).mono (List.subset_append_left _ [TRI_STATUS_TESTING])).put 0 (by decide)) g hg

theorem stalled_mode (s : State) : s.stalled.fld TRI_STATUS_MODE = 5 := by
  rw [stalled, putRun_fld _ _ (by decide) (by decide), fld_put_beside _ _ (by decide) (by decide), fld_putMode _ (by decide)]
  rfl

/-- What the held cluster shows. -/
theorem safeHeld_shows (s : State) : s.safeHeld.flag GLB_DEVSTATE_SAFE = true ∧ s.safeHeld.fld TRI_STATUS_MODE = 5 ∧
    s.safeHeld.fld TRI_AP_CTL_RUN = 0 ∧ bitOf (s.safeHeld.fld RAS_ERR_OUT_CAUSE) 0 = true := by
  have hcause := put_fldsBut s.stalled RAS_ERR_OUT_CAUSE (setBits (s.stalled.fld RAS_ERR_OUT_CAUSE) 0 1 1)
  have hsafe := putDev_fldsBut (s.stalled.errCause 0) GLB_DEVSTATE_SAFE 1
  rw [safeHeld_eq]
  refine ⟨?_, ?_, ?_, ?_⟩
  · exact beq_iff_eq.mpr (fld_putDev_self _ (by decide) (by decide))
  · rw [hsafe _ (by decide), errCause, hcause _ (by decide), stalled_mode]
  · rw [hsafe _ (by decide), errCause, hcause _ (by decide), stalled, fld_putRun]
  · rw [hsafe _ (by decide), errCause_shows _ (by decide)]

theorem safeHeld_fld (s : State) {g : Fld} (hg : beside safeFields g = true) (ha : g.addr ≠ rTRI_AP_CTL)
    (h5 : g.addr / 0x100000 ≠ 5) : s.safeHeld.fld g = s.fld g := by
  obtain ⟨hw, hall⟩ := beside_iff.mp hg
  have hsub {fs : List Fld} (h : fs ⊆ safeFields) : beside fs g = true := beside_iff.mpr ⟨hw, fun f hf => hall f (h hf)⟩
  rw [safeHeld_eq, putDev_fldsBut _ _ _ _ (hsub (by decide)), errCause, put_fldsBut _ _ _ _ (hsub (by decide)),
    stalled_fld s (hsub (by decide)) ha h5]

theorem safeHeld_inState (s : State) (d : DevState) : s.safeHeld.inState d = s.inState d := by
  have hstate : s.safeHeld.fld GLB_DEVSTATE_STATE = s.fld GLB_DEVSTATE_STATE := by
    rw [safeHeld_eq, putDev_fldsBut _ _ _ _ (by decide), errCause, put_fldsBut _ _ _ _ (by decide),
      stalled_fld s (by decide) (by decide) (by decide)]
  rw [inState, inState, hstate]

theorem putDev_tri (s : State) (f : Fld) (v : Nat) : (s.putDev f v).tri = s.tri := (congrArg State.tri (s.putDev_frame v f) :)

theorem safeHeld_tri (s : State) : s.safeHeld.tri = s.tri := by
  rw [safeHeld_eq, putDev_tri, errCause, put_tri, stalled, putRun_tri, put_tri, putMode_tri]

/-- The safe state: the held cluster, nothing in progress, and a running device in RECOVERY. -/
theorem enterSafe_cases (s : State) :
    s.enterSafe = s.safeHeld.setTri { s.tri with pend := none, resync := none } ∧ s.inState .run = false ∨
      s.enterSafe = (s.safeHeld.setTri { s.tri with pend := none, resync := none }).enter .recovery := by
  have hin (d : DevState) : (s.safeHeld.setTri { s.tri with pend := none, resync := none }).inState d = s.inState d := s.safeHeld_inState d
  rw [enterSafe_eq, safeHeld_tri, hin, hin, hin]
  split
  · exact .inr rfl
  · next h => exact .inl ⟨rfl, by simpa using fun hr => h (.inr (.inl hr))⟩

theorem enter_fldsBut (s : State) (d : DevState) : s.FldsBut (s.enter d) [GLB_DEVSTATE_STATE] := s.putDev_fldsBut _ _

theorem inState_enter (s : State) (d : DevState) : (s.enter d).inState d = true :=
  beq_iff_eq.mpr (fld_putDev_self _ (by decide) (by cases d <;> decide))

theorem enterSafe_fld (s : State) {g : Fld} (hg : beside safeFields g = true) (ha : g.addr ≠ rTRI_AP_CTL)
    (h5 : g.addr / 0x100000 ≠ 5) : s.enterSafe.fld g = s.fld g := by
  obtain ⟨hw, hall⟩ := beside_iff.mp hg
  obtain ⟨h, -⟩ | h := s.enterSafe_cases
  · rw [h, setTri_fld, safeHeld_fld s hg ha h5]
  · rw [h, enter_fldsBut _ _ _ (beside_iff.mpr ⟨hw, fun f hf => hall f (List.mem_singleton.mp hf ▸ by decide)⟩), setTri_fld,
      safeHeld_fld s hg ha h5]

theorem enterSafe_flag (s : State) {g : Fld} (hg : beside safeFields g = true) (ha : g.addr ≠ rTRI_AP_CTL)
    (h5 : g.addr / 0x100000 ≠ 5) : s.enterSafe.flag g = s.flag g := congrArg (· == 1) (s.enterSafe_fld hg ha h5)

theorem enterSafe_shows (s : State) : s.enterSafe.flag GLB_DEVSTATE_SAFE = true ∧ s.enterSafe.fld TRI_STATUS_MODE = 5 ∧
    s.enterSafe.fld TRI_AP_CTL_RUN = 0 ∧ bitOf (s.enterSafe.fld RAS_ERR_OUT_CAUSE) 0 = true := by
  obtain ⟨h, -⟩ | h := s.enterSafe_cases
  · rw [h]
    exact s.safeHeld_shows
  · have hfld {g : Fld} (hg : beside [GLB_DEVSTATE_STATE] g = true) : s.enterSafe.fld g = s.safeHeld.fld g := by
      rw [h, enter_fldsBut _ _ _ hg, setTri_fld]
    rw [flag, hfld (by decide), hfld (by decide), hfld (by decide), hfld (by decide)]
    exact s.safeHeld_shows

theorem enterSafe_tri (s : State) : s.enterSafe.tri = { s.tri with pend := none, resync := none } := by
  obtain ⟨h, -⟩ | h := s.enterSafe_cases
  · rw [h, setTri_tri]
  · rw [h, enter, putDev_tri, setTri_tri]

theorem enterSafe_recovers (h : s.inState .run = true) : s.enterSafe.inState .recovery = true := by
  obtain ⟨-, hr⟩ | he := s.enterSafe_cases
  · exact absurd (h.symm.trans hr) (by decide)
  · rw [he, inState_enter]

/-! ## Which cores disagree (R454, R455) -/

theorem mismatch_uncompared (h : s.compares = false) (kind diff : Nat) (skew : Bool) : s.mismatch kind diff skew = s :=
  if_pos (.inl h)

theorem coresIn_all (h : s.fld TRI_STATUS_FENCED = 0) : s.coresIn = [0, 1, 2] := by rw [coresIn, h]; rfl

theorem coresIn_two {f : Nat} (hf : f < 3) (h : s.fld TRI_STATUS_FENCED = 2 ^ f) : s.coresIn = [0, 1, 2].filter (· != f) := by
  rw [coresIn, h]
  interval_cases f <;> rfl

theorem mismatch_minority {c diff : Nat} (hc : s.compares = true) (hf : s.fld TRI_STATUS_FENCED = 0) (hlt : c < 3)
    (hd : ∀ d, d < 3 → bitOf diff d = decide (d = c)) (kind : Nat) (skew : Bool) :
    s.mismatch kind diff skew = s.mmMinority kind c skew := by
  have halone : [0, 1, 2].filter (fun d => bitOf diff d) = [c] := by
    simp only [List.filter_cons, List.filter_nil, hd 0 (by decide), hd 1 (by decide), hd 2 (by decide)]
    interval_cases c <;> rfl
  simp only [mismatch, coresIn_all hf, halone, hc, Bool.true_eq_false, List.cons_ne_nil, or_self, if_false, List.length_cons,
    List.length_nil, Nat.reduceAdd, Nat.reduceEqDiff]

theorem mismatch_noMajority {diff : Nat} (hc : s.compares = true) (hf : s.fld TRI_STATUS_FENCED = 0)
    (hd : ∀ d, d < 3 → bitOf diff d = true) (kind : Nat) (skew : Bool) :
    s.mismatch kind diff skew = ((s.mmFound kind 7).mmClass mcNOMAJORITY).enterSafe := by
  have halone : [0, 1, 2].filter (fun d => bitOf diff d) = [0, 1, 2] := by
    simp only [List.filter_cons, List.filter_nil, hd 0 (by decide), hd 1 (by decide), hd 2 (by decide), if_true]
  simp only [mismatch, coresIn_all hf, halone, hc, Bool.true_eq_false, reduceCtorEq, or_self, if_false, List.length_cons,
    List.length_nil, Nat.reduceAdd, Nat.reduceEqDiff]
  rfl

theorem mismatch_duplex {f diff : Nat} (hc : s.compares = true) (hlt : f < 3) (hf : s.fld TRI_STATUS_FENCED = 2 ^ f)
    (hd : ∃ d, d < 3 ∧ d ≠ f ∧ bitOf diff d = true) (kind : Nat) (skew : Bool) : s.mismatch kind diff skew = s.mmDuplex kind := by
  have hlen : s.coresIn.length = 2 := by
    rw [coresIn_two hlt hf]
    interval_cases f <;> rfl
  have halone : s.coresIn.filter (fun d => bitOf diff d) ≠ [] := by
    obtain ⟨d, hd3, hdf, hbit⟩ := hd
    refine List.ne_nil_of_mem (List.mem_filter.mpr ⟨?_, hbit⟩)
    rw [coresIn_two hlt hf]
    exact List.mem_filter.mpr ⟨by interval_cases d <;> decide, by simpa using hdf⟩
  simp only [mismatch, hc, hlen, halone, Bool.true_eq_false, or_self, if_false, if_true]

end
end State
end Sys2Proof.Machine
end

section
/-! PROOFS. Mismatches, self-tests and resynchronisations of the Triangle (R454 to R465): O53. -/

namespace Sys2Proof.Machine
namespace State

theorem setTri_regs (s : State) (x : Tri) : (s.setTri x).regs = s.regs := rfl

/-- Nothing but the registers and the Triangle's own state differs. -/
def OnlyTri (s t : State) : Prop := { t with regs := s.regs, tri := s.tri } = s

namespace OnlyTri

variable {s t u : State}

theorem refl (s : State) : s.OnlyTri s := rfl
theorem put (h : s.OnlyTri t) (f : Fld) (v : Nat) : s.OnlyTri (t.put f v) := h
theorem setTri (h : s.OnlyTri t) (x : Tri) : s.OnlyTri (t.setTri x) := h

end OnlyTri

section
variable {s : State}

theorem mmFound_onlyTri (s : State) (kind cores : Nat) : s.OnlyTri (s.mmFound kind cores) :=
  ((((((OnlyTri.refl s).setTri { s.tri with found := s.ao }).put _ _).put _ _).put _ _).put _ _).put _ _ |>.put _ _

theorem mmFound_regsBut (s : State) (kind cores : Nat) :
    s.RegsBut (s.mmFound kind cores) [rTRI_LAST_MM, rTRI_LAST_MM_TIME_LO, rTRI_LAST_MM_TIME_HI] := by
  have h0 : s.RegsBut ({ s with tri := { s.tri with found := s.ao } } : State)
      [rTRI_LAST_MM, rTRI_LAST_MM_TIME_LO, rTRI_LAST_MM_TIME_HI] := (RegsBut.refl s _).same rfl
  exact (((((h0.put (f := TRI_LAST_MM_VALID) 1 (by decide)).put (f := TRI_LAST_MM_KIND) kind (by decide)).put (f := TRI_LAST_MM_CORES) cores
    (by decide)).put (f := TRI_LAST_MM_CLASS) 0 (by decide)).put (f := TRI_LAST_MM_TIME_LO_AO) _ (by decide)).put
    (f := TRI_LAST_MM_TIME_HI_AO) _ (by decide)

/-! ## A minority core (R454, R456) -/

/-- A minority core is fenced and tested. -/
def minorityTested (s : State) (kind c : Nat) (skew : Bool) : State :=
  (((s.mmFound kind (2 ^ c)).fence c).testing c true).setTri
    { (((s.mmFound kind (2 ^ c)).fence c).testing c true).tri with pend := some (.minority kind c skew) }

/-- A core whose last SIGNATURE mismatch lies within the hour. -/
def minorityKnown (s : State) (c : Nat) : Bool :=
  match tabFind s.tri.diverged c with
  | some t => s.inHour t
  | none => false

/-- A SIGNATURE mismatch noted for its core. -/
def divergenceNoted (s : State) (c kind : Nat) : State :=
  (s.mmFound kind (2 ^ c)).setTri { (s.mmFound kind (2 ^ c)).tri with diverged := tabPut (s.mmFound kind (2 ^ c)).tri.diverged c s.ao }

theorem mmMinority_eq (s : State) (kind c : Nat) (skew : Bool) : s.mmMinority kind c skew =
    if kind = 1 ∧ s.minorityKnown c = false then (s.divergenceNoted c kind).startResync c mcDIVERGENCE
    else s.minorityTested kind c skew := rfl

theorem mmMinority_output (s : State) (c : Nat) (skew : Bool) : s.mmMinority 0 c skew = s.minorityTested 0 c skew := by
  rw [mmMinority_eq, if_neg fun h => absurd h.1 (by decide)]

theorem mmMinority_signature {c : Nat} (h : tabFind s.tri.diverged c = none) (skew : Bool) :
    s.mmMinority 1 c skew = (s.divergenceNoted c 1).startResync c mcDIVERGENCE := by
  rw [mmMinority_eq, if_pos ⟨rfl, by rw [minorityKnown, h]⟩]

theorem pow_lt_eight {c : Nat} (h : c < 3) : 2 ^ c < 8 := by
  interval_cases c <;> decide

/-- A minority core found by its outputs. -/
theorem mmMinority_output_shows {c : Nat} (hf : s.fld TRI_STATUS_FENCED = 0) (hc : c < 3) (skew : Bool) :
    (s.mmMinority 0 c skew).fld TRI_STATUS_FENCED = 2 ^ c ∧ bitOf ((s.mmMinority 0 c skew).fld TRI_STATUS_TESTING) c = true ∧
      (s.mmMinority 0 c skew).flag TRI_LAST_MM_VALID = true ∧ (s.mmMinority 0 c skew).fld TRI_LAST_MM_KIND = 0 ∧
      (s.mmMinority 0 c skew).fld TRI_LAST_MM_CORES = 2 ^ c ∧ (s.mmMinority 0 c skew).fld TRI_LAST_MM_CLASS = 0 ∧
      (s.mmMinority 0 c skew).fld64 TRI_LAST_MM_TIME_LO_AO TRI_LAST_MM_TIME_HI_AO = s.ao % 2 ^ 48 := by
  have hfound := s.mmFound_fldsBut 0 (2 ^ c)
  obtain ⟨hvalid, hkind, hcores, hclass, htime⟩ := s.mmFound_shows (kind := 0) (by decide) (pow_lt_eight hc)
  have hfence := (s.mmFound 0 (2 ^ c)).fence_fldsBut c
  have htest := ((s.mmFound 0 (2 ^ c)).fence c).testing_fldsBut c true
  have hkeep {g : Fld} (hg1 : beside [TRI_STATUS_TESTING] g = true) (hg2 : beside [TRI_STATUS_FENCED] g = true) :
      (s.mmMinority 0 c skew).fld g = (s.mmFound 0 (2 ^ c)).fld g := by
    rw [mmMinority_output, minorityTested, setTri_fld, htest _ hg1, hfence _ hg2]
  refine ⟨?_, ?_, ?_, ?_, ?_, ?_, ?_⟩
  · rw [mmMinority_output, minorityTested, setTri_fld, htest _ (by decide), fence_first ((hfound _ (by decide)).trans hf) hc]
  · rw [mmMinority_output, minorityTested, setTri_fld, bitOf_testing _ hc, if_pos rfl]
  · rw [flag, hkeep (by decide) (by decide)]; exact hvalid
  · rw [hkeep (by decide) (by decide), hkind]
  · rw [hkeep (by decide) (by decide), hcores]
  · rw [hkeep (by decide) (by decide), hclass]
  · rw [fld64, hkeep (by decide) (by decide), hkeep (by decide) (by decide)]; exact htime

theorem mmMinority_output_tri (s : State) (c : Nat) (skew : Bool) :
    (s.mmMinority 0 c skew).tri = { s.tri with pend := some (.minority 0 c skew), found := s.ao } := by
  rw [mmMinority_output, minorityTested, setTri_tri, testing_tri, fence_tri, mmFound_tri]

theorem fence_onlyTri {t : State} (h : s.OnlyTri t) (c : Nat) : s.OnlyTri (t.fence c) := h.put _ _
theorem testing_onlyTri {t : State} (h : s.OnlyTri t) (c : Nat) (on : Bool) : s.OnlyTri (t.testing c on) := h.put _ _

theorem mmMinority_output_onlyTri (s : State) (c : Nat) (skew : Bool) : s.OnlyTri (s.mmMinority 0 c skew) := by
  rw [mmMinority_output]
  exact (testing_onlyTri (fence_onlyTri (s.mmFound_onlyTri 0 (2 ^ c)) c) c true).setTri _

theorem mmMinority_output_regsBut (s : State) (c : Nat) (skew : Bool) : s.RegsBut (s.mmMinority 0 c skew)
    [rTRI_STATUS, rTRI_LAST_MM, rTRI_LAST_MM_TIME_LO, rTRI_LAST_MM_TIME_HI] := by
  have hfound : s.RegsBut (s.mmFound 0 (2 ^ c)) [rTRI_STATUS, rTRI_LAST_MM, rTRI_LAST_MM_TIME_LO, rTRI_LAST_MM_TIME_HI] :=
    fun a ha => s.mmFound_regsBut 0 (2 ^ c) a fun h => ha (List.mem_cons_of_mem _ h)
  have hfence : s.RegsBut ((s.mmFound 0 (2 ^ c)).fence c) [rTRI_STATUS, rTRI_LAST_MM, rTRI_LAST_MM_TIME_LO, rTRI_LAST_MM_TIME_HI] :=
    hfound.put _ List.mem_cons_self
  have htest : s.RegsBut (((s.mmFound 0 (2 ^ c)).fence c).testing c true)
      [rTRI_STATUS, rTRI_LAST_MM, rTRI_LAST_MM_TIME_LO, rTRI_LAST_MM_TIME_HI] := hfence.put _ List.mem_cons_self
  rw [mmMinority_output]
  exact htest.same (setTri_regs _ _)

theorem startResync_fldsBut (s : State) (c cls : Nat) : s.FldsBut (s.startResync c cls) [TRI_STATUS_FENCED] :=
  (s.fence_fldsBut c).same rfl

theorem startResync_fenced (s : State) (c cls : Nat) :
    (s.startResync c cls).fld TRI_STATUS_FENCED = (s.fence c).fld TRI_STATUS_FENCED := rfl

theorem startResync_tri (s : State) (c cls : Nat) : (s.startResync c cls).tri = { s.tri with pend := none, resync := some ([c], cls) } := rfl

theorem startResync_diverged (s : State) (c cls : Nat) : (s.startResync c cls).tri.diverged = s.tri.diverged := rfl
theorem startResync_pend (s : State) (c cls : Nat) : (s.startResync c cls).tri.pend = none := rfl
theorem startResync_resync (s : State) (c cls : Nat) : (s.startResync c cls).tri.resync = some ([c], cls) := rfl

theorem divergenceNoted_diverged (s : State) (c kind : Nat) : tabFind (s.divergenceNoted c kind).tri.diverged c = some s.ao := by
  rw [divergenceNoted, setTri_tri]
  exact tabFind_tabPut_self _ c _

theorem divergenceNoted_onlyTri (s : State) (c kind : Nat) : s.OnlyTri (s.divergenceNoted c kind) :=
  OnlyTri.setTri (s.mmFound_onlyTri kind (2 ^ c)) _

theorem divergenceNoted_fld (s : State) (c kind : Nat) (f : Fld) :
    (s.divergenceNoted c kind).fld f = (s.mmFound kind (2 ^ c)).fld f := setTri_fld _ _ f

theorem startResync_onlyTri {t : State} (h : s.OnlyTri t) (c cls : Nat) : s.OnlyTri (t.startResync c cls) :=
  (fence_onlyTri h c).setTri _

/-- A minority core found by its SIGNATURE for the first time. -/
theorem mmMinority_signature_shows {c : Nat} (hd : tabFind s.tri.diverged c = none) (hf : s.fld TRI_STATUS_FENCED = 0) (hc : c < 3) :
    (s.mmMinority 1 c false).fld TRI_STATUS_FENCED = 2 ^ c ∧
      (s.mmMinority 1 c false).fld TRI_STATUS_TESTING = s.fld TRI_STATUS_TESTING ∧
      (s.mmMinority 1 c false).fld TRI_LAST_MM_KIND = 1 ∧ (s.mmMinority 1 c false).tri.pend = none ∧
      (s.mmMinority 1 c false).tri.resync = some ([c], 1) ∧ tabFind (s.mmMinority 1 c false).tri.diverged c = some s.ao ∧
      s.OnlyTri (s.mmMinority 1 c false) := by
  have hfound := s.mmFound_fldsBut 1 (2 ^ c)
  obtain ⟨-, hkind, -⟩ := s.mmFound_shows (kind := 1) (by decide) (pow_lt_eight hc)
  rw [mmMinority_signature hd]
  refine ⟨?_, ?_, ?_, startResync_pend _ c _, startResync_resync _ c _, ?_,
    startResync_onlyTri (s.divergenceNoted_onlyTri c 1) c _⟩
  · rw [startResync_fenced]
    exact fence_first (by rw [divergenceNoted_fld, hfound _ (by decide), hf]) hc
  · rw [startResync_fldsBut _ _ _ _ (by decide), divergenceNoted_fld, hfound _ (by decide)]
  · rw [startResync_fldsBut _ _ _ _ (by decide), divergenceNoted_fld, hkind]
  · rw [startResync_diverged, divergenceNoted_diverged]

/-! ## Three cores that all differ, and two cores that differ (R455, R458, R459) -/

theorem mmNoMajority_shows (s : State) : (((s.mmFound 0 7).mmClass mcNOMAJORITY).enterSafe).fld TRI_LAST_MM_CLASS = 7 ∧
    (((s.mmFound 0 7).mmClass mcNOMAJORITY).enterSafe).flag TRI_EVT_MISMATCH = true ∧
    (s.inState .run = true → (((s.mmFound 0 7).mmClass mcNOMAJORITY).enterSafe).inState .recovery = true) := by
  obtain ⟨hcls, hevt⟩ := (s.mmFound 0 7).mmClass_shows (cls := mcNOMAJORITY) (by decide)
  refine ⟨?_, ?_, fun h => enterSafe_recovers ?_⟩
  · rw [enterSafe_fld _ (by decide) (by decide) (by decide), hcls]
    rfl
  · rw [enterSafe_flag _ (by decide) (by decide) (by decide), hevt]
  · rw [inState, mmClass_fldsBut _ _ _ (by decide), mmFound_fldsBut _ _ _ _ (by decide)]
    exact h

/-- Cores tested together: each of them, and no other field. -/
theorem testAll_fldsBut (l : List Nat) (s : State) : s.FldsBut (l.foldl (fun s c => s.testing c true) s) [TRI_STATUS_TESTING] := by
  induction l generalizing s with
  | nil => exact .refl s _
  | cons c l ih => exact (s.testing_fldsBut c true).trans (ih _)

theorem bitOf_testAll (l : List Nat) (s : State) {x : Nat} (hx : x < 3) :
    bitOf ((l.foldl (fun s c => s.testing c true) s).fld TRI_STATUS_TESTING) x = (l.contains x || bitOf (s.fld TRI_STATUS_TESTING) x) := by
  induction l generalizing s with
  | nil => rfl
  | cons c l ih =>
    rw [List.foldl_cons, ih, bitOf_testing s hx]
    by_cases h : x = c
    · simp [h]
    · simp [h]

theorem testAll_tri (l : List Nat) (s : State) : (l.foldl (fun s c => s.testing c true) s).tri = s.tri := by
  induction l generalizing s with
  | nil => rfl
  | cons c l ih => rw [List.foldl_cons, ih, testing_tri]

/-- Both cores in service are stalled and tested. -/
theorem mmDuplex_shows {f : Nat} (hlt : f < 3) (hf : s.fld TRI_STATUS_FENCED = 2 ^ f) (hm : s.fld TRI_STATUS_MODE ≠ 3) (kind : Nat) :
    (s.mmDuplex kind).fld TRI_STATUS_MODE = 3 ∧ (s.mmDuplex kind).tri.pend = some (.duplex []) ∧ (s.mmDuplex kind).tri.resync = none ∧
      (∀ d, d < 3 → d ≠ f → bitOf ((s.mmDuplex kind).fld TRI_STATUS_TESTING) d = true) ∧
      (s.mmDuplex kind).flag TRI_EVT_MODE_CHG = true ∧ (s.mmDuplex kind).fld TRI_STATUS_FENCED = 2 ^ f := by
  have hfound := s.mmFound_fldsBut kind 0
  have htest := testAll_fldsBut s.coresIn ((s.mmFound kind 0).putMode tmSTALLED)
  refine ⟨?_, rfl, rfl, fun d hd hdf => ?_, ?_, ?_⟩
  · rw [mmDuplex, setTri_fld, htest _ (by decide), fld_putMode _ (by decide)]
    rfl
  · rw [mmDuplex, setTri_fld, bitOf_testAll _ _ hd, coresIn_two hlt hf]
    have hmem : d ∈ [0, 1, 2].filter (· != f) := List.mem_filter.mpr ⟨by interval_cases d <;> decide, by simpa using hdf⟩
    rw [List.contains_iff_mem.mpr hmem, Bool.true_or]
  · rw [mmDuplex, setTri_flag, htest.flag (by decide), putMode_changes]
    rw [hfound _ (by decide)]
    exact hm
  · rw [mmDuplex, setTri_fld, htest _ (by decide), putMode_fldsBut _ _ _ (by decide), hfound _ (by decide), hf]

theorem mode_of_compares (h : s.compares = true) : s.fld TRI_STATUS_MODE ≠ 3 := by
  simp only [compares, Bool.and_eq_true, Bool.or_eq_true, beq_iff_eq, triMode] at h
  obtain ⟨⟨⟨⟨⟨hm, -⟩, -⟩, -⟩, -⟩, -⟩ := h
  rcases hm with hm | hm <;> rw [hm] <;> decide

/-! ## The end of a self-test (R456, R458) -/

/-- What the end of any self-test shows. -/
def testEnded (s : State) (c : Nat) : State := (s.testing c false).setFlag TRI_EVT_TEST_DONE

theorem selfTested_idle {c : Nat} (h : bitOf (s.fld TRI_STATUS_TESTING) c = false) (pass : Bool) : s.selfTested c pass = s := if_pos h

theorem selfTested_eq {c : Nat} (h : bitOf (s.fld TRI_STATUS_TESTING) c = true) (pass : Bool) : s.selfTested c pass =
    match s.tri.pend with
    | some (.minority kind m skew) => if m = c then (s.testEnded c).minorityEnd kind c skew pass else s.testEnded c
    | some (.duplex l) =>
      if bitOf ((s.testEnded c).fld TRI_STATUS_FENCED) c then s.testEnded c
      else if (l ++ [(c, pass)]).length < 2 then (s.testEnded c).setTri { s.tri with pend := some (.duplex (l ++ [(c, pass)])) }
      else (s.testEnded c).duplexEnd (l ++ [(c, pass)])
    | none => s.testEnded c := (if_neg (by simp [h])).trans rfl

section
variable (s : State) (c : Nat)

@[simp] theorem testEnded_tri : (s.testEnded c).tri = s.tri := by rw [testEnded, setFlag_tri, testing_tri]

theorem testEnded_fldsBut : s.FldsBut (s.testEnded c) [TRI_STATUS_TESTING, TRI_EVT_TEST_DONE] :=
  ((s.testing_fldsBut c false).mono (by decide)).put _ (by decide)

theorem testEnded_onlyTri : s.OnlyTri (s.testEnded c) := OnlyTri.put (testing_onlyTri (OnlyTri.refl s) c false) TRI_EVT_TEST_DONE 1

theorem testEnded_shows {c : Nat} (hc : c < 3) : (s.testEnded c).flag TRI_EVT_TEST_DONE = true ∧
    bitOf ((s.testEnded c).fld TRI_STATUS_TESTING) c = false := by
  refine ⟨flag_setFlag_self _ (by decide) rfl, ?_⟩
  rw [testEnded, setFlag_eq, fld_put_addr _ _ (by decide), bitOf_testing s hc, if_pos rfl]

end

/-! ### A minority core (R456) -/

theorem minorityEnd_fails (s : State) (k c : Nat) (skew : Bool) :
    s.minorityEnd k c skew false = ((s.setTri { s.tri with pend := none }).putMode tmDUPLEX).mmClass mcFAULT := by
  simp only [minorityEnd, if_true]

/-- A core restored, the time of its divergence noted first where SIGNATURE found it. -/
def divergenceKept (s : State) (k c : Nat) : State :=
  if k = 1 then s.setTri { s.tri with pend := none, diverged := tabPut s.tri.diverged c s.tri.found }
  else s.setTri { s.tri with pend := none }

theorem minorityEnd_passes (s : State) (k c : Nat) (skew : Bool) : s.minorityEnd k c skew true =
    (s.divergenceKept k c).startResync c (if k = 1 then mcDIVERGENCE else if skew then mcSKEW else mcUNATTRIBUTED) := by
  unfold minorityEnd divergenceKept
  dsimp only
  rw [if_neg (by decide)]
  split
  · rfl
  · rfl

theorem divergenceKept_fld (s : State) (k c : Nat) (f : Fld) : (s.divergenceKept k c).fld f = s.fld f := by
  unfold divergenceKept
  split
  · exact setTri_fld _ _ f
  · exact setTri_fld _ _ f

theorem divergenceKept_onlyTri {t : State} (h : s.OnlyTri t) (k c : Nat) : s.OnlyTri (t.divergenceKept k c) := by
  unfold divergenceKept
  split
  · exact h.setTri _
  · exact h.setTri _

/-- A minority core that fails its test: DUPLEX without it. -/
theorem minorityEnd_fails_shows (s : State) (k c : Nat) (skew : Bool) :
    (s.minorityEnd k c skew false).fld TRI_STATUS_MODE = 1 ∧ (s.minorityEnd k c skew false).fld TRI_LAST_MM_CLASS = 2 ∧
      (s.minorityEnd k c skew false).fld TRI_CORE_FAULT_CNT_VAL = (s.fld TRI_CORE_FAULT_CNT_VAL + 1) % 2 ^ 32 ∧
      (s.minorityEnd k c skew false).tri.pend = none ∧ (s.minorityEnd k c skew false).flag TRI_EVT_MISMATCH = true ∧
      (s.minorityEnd k c skew false).flag TRI_EVT_TEST_DONE = s.flag TRI_EVT_TEST_DONE ∧
      (s.minorityEnd k c skew false).fld TRI_STATUS_TESTING = s.fld TRI_STATUS_TESTING ∧
      (s.minorityEnd k c skew false).fld TRI_STATUS_FENCED = s.fld TRI_STATUS_FENCED := by
  have hmode := (s.setTri { s.tri with pend := none }).putMode_fldsBut tmDUPLEX
  have hclass := ((s.setTri { s.tri with pend := none }).putMode tmDUPLEX).mmClass_fldsBut mcFAULT
  obtain ⟨hcls, hevt⟩ := ((s.setTri { s.tri with pend := none }).putMode tmDUPLEX).mmClass_shows (cls := mcFAULT) (by decide)
  have htri := congrArg Tri.pend (((s.setTri { s.tri with pend := none }).putMode tmDUPLEX).mmClass_tri mcFAULT)
  rw [minorityEnd_fails]
  refine ⟨?_, hcls, ?_, ?_, hevt, ?_, ?_, ?_⟩
  · rw [hclass _ (by decide), fld_putMode _ (by decide)]
    rfl
  · rw [(mmClass_counts _).2.1, hmode _ (by decide), setTri_fld]
  · rw [putMode_tri, setTri_tri] at htri
    exact htri
  · rw [hclass.flag (by decide), hmode.flag (by decide), setTri_flag]
  · rw [hclass _ (by decide), hmode _ (by decide), setTri_fld]
  · rw [hclass _ (by decide), hmode _ (by decide), setTri_fld]

/-! ### The cores of a duplex mismatch (R458) -/

theorem duplexEnd_one {l : List (Nat × Bool)} {c : Nat} {b : Bool} (h : l.filter (fun x => !x.2) = [(c, b)]) : s.duplexEnd l =
    (((((s.setTri { s.tri with pend := none }).fence c).put TRI_LAST_MM_CORES (2 ^ c)).putMode tmSIMPLEX).mmClass mcRESOLVED).errCause 1 := by
  simp only [duplexEnd, h]

theorem duplexEnd_other {l : List (Nat × Bool)} (h : (l.filter (fun x => !x.2)).length ≠ 1) :
    s.duplexEnd l = ((s.setTri { s.tri with pend := none }).mmClass mcUNRESOLVED).enterSafe := by
  unfold duplexEnd
  split
  · next heq => exact absurd (congrArg List.length heq) h
  · rfl

/-- The core of a duplex pair that fails alone is fenced. -/
def simplexed (s : State) (c : Nat) : State := (((s.setTri { s.tri with pend := none }).fence c).put TRI_LAST_MM_CORES (2 ^ c)).putMode tmSIMPLEX

theorem simplexed_shows (s : State) {x : Nat} (hx : x < 3) : (s.simplexed x).fld TRI_STATUS_MODE = 2 ∧
    (s.simplexed x).fld TRI_LAST_MM_CORES = 2 ^ x ∧ bitOf ((s.simplexed x).fld TRI_STATUS_FENCED) x = true ∧
    (s.simplexed x).tri.pend = none := by
  have hmode := (((s.setTri { s.tri with pend := none }).fence x).put TRI_LAST_MM_CORES (2 ^ x)).putMode_fldsBut tmSIMPLEX
  refine ⟨?_, ?_, ?_, ?_⟩
  · rw [simplexed, fld_putMode _ (by decide)]
    rfl
  · rw [simplexed, hmode _ (by decide), fld_put_self _ _ _ (by decide)]
    exact Nat.mod_eq_of_lt (pow_lt_eight hx)
  · rw [simplexed, hmode _ (by decide), fld_put_addr _ _ (by decide), bitOf_fence _ hx, decide_eq_true rfl, Bool.true_or]
  · rw [simplexed, putMode_tri, put_tri, fence_tri, setTri_tri]

/-- Exactly one core failed. -/
theorem duplexEnd_resolves {l : List (Nat × Bool)} {c : Nat} {b : Bool} (h : l.filter (fun x => !x.2) = [(c, b)]) (hc : c < 3) :
    (s.duplexEnd l).tri.pend = none ∧ (s.duplexEnd l).fld TRI_STATUS_MODE = 2 ∧ (s.duplexEnd l).fld TRI_LAST_MM_CLASS = 5 ∧
      (s.duplexEnd l).fld TRI_LAST_MM_CORES = 2 ^ c ∧ bitOf ((s.duplexEnd l).fld TRI_STATUS_FENCED) c = true ∧
      bitOf ((s.duplexEnd l).fld RAS_ERR_OUT_CAUSE) 1 = true := by
  obtain ⟨hmode, hcores, hfenced, hpend⟩ := s.simplexed_shows hc
  have hclass := (s.simplexed c).mmClass_fldsBut mcRESOLVED
  obtain ⟨hcls, -⟩ := (s.simplexed c).mmClass_shows (cls := mcRESOLVED) (by decide)
  have htri := congrArg Tri.pend ((s.simplexed c).mmClass_tri mcRESOLVED)
  have hout {g : Fld} (hg : beside [RAS_ERR_OUT_CAUSE] g = true) :
      (((s.simplexed c).mmClass mcRESOLVED).errCause 1).fld g = ((s.simplexed c).mmClass mcRESOLVED).fld g := put_fldsBut _ _ _ _ hg
  rw [duplexEnd_one h, ← simplexed]
  refine ⟨?_, ?_, ?_, ?_, ?_, errCause_shows _ (by decide)⟩
  · rw [errCause, put_tri]
    exact htri.trans hpend
  · rw [hout (by decide), hclass _ (by decide), hmode]
  · rw [hout (by decide), hcls]
    rfl
  · rw [hout (by decide), hclass _ (by decide), hcores]
  · rw [hout (by decide), hclass _ (by decide), hfenced]

/-- None or both failed. -/
theorem duplexEnd_unresolved {l : List (Nat × Bool)} (h : (l.filter (fun x => !x.2)).length ≠ 1) :
    (s.duplexEnd l).tri.pend = none ∧ (s.duplexEnd l).fld TRI_STATUS_MODE = 5 ∧ (s.duplexEnd l).fld TRI_LAST_MM_CLASS = 6 ∧
      (s.duplexEnd l).flag GLB_DEVSTATE_SAFE = true := by
  obtain ⟨hsafe, hmode, -⟩ := ((s.setTri { s.tri with pend := none }).mmClass mcUNRESOLVED).enterSafe_shows
  obtain ⟨hcls, -⟩ := (s.setTri { s.tri with pend := none }).mmClass_shows (cls := mcUNRESOLVED) (by decide)
  rw [duplexEnd_other h]
  refine ⟨?_, hmode, ?_, hsafe⟩
  · rw [enterSafe_tri]
  · rw [enterSafe_fld _ (by decide) (by decide) (by decide), hcls]
    rfl

/-! ## The end of a resynchronisation (R457, R465) -/

/-- Cores back in service. -/
def unfence (l : List Nat) (s : State) : State := l.foldl (fun s c => s.put TRI_STATUS_FENCED (setBits (s.fld TRI_STATUS_FENCED) c 1 0)) s

theorem unfence_fldsBut (l : List Nat) (s : State) : s.FldsBut (unfence l s) [TRI_STATUS_FENCED] := by
  induction l generalizing s with
  | nil => exact .refl s _
  | cons c l ih => exact (s.put_fldsBut _ _).trans (ih _)

theorem unfence_tri (l : List Nat) (s : State) : (unfence l s).tri = s.tri := by
  induction l generalizing s with
  | nil => rfl
  | cons c l ih => exact (ih _).trans (put_tri s _ _)

theorem bitOf_unfence (l : List Nat) (s : State) {x : Nat} (hx : x < 3) :
    bitOf ((unfence l s).fld TRI_STATUS_FENCED) x = (bitOf (s.fld TRI_STATUS_FENCED) x && !l.contains x) := by
  induction l generalizing s with
  | nil => simp [unfence]
  | cons c l ih =>
    refine (ih _).trans ?_
    rw [fld_put_self _ _ _ (by decide), bitOf_mod (n := TRI_STATUS_FENCED.wid) hx]
    by_cases h : x = c
    · simp [h, bitOf_setBits_one_self]
    · rw [bitOf_setBits_one_ne _ _ h]
      simp [h]

/-- The cores back in service, counted, and nothing in progress. -/
def resynced1 (s : State) (l : List Nat) : State :=
  ((unfence l s).inc TRI_RESYNC_CNT_VAL).setTri { ((unfence l s).inc TRI_RESYNC_CNT_VAL).tri with resync := none }

theorem exec_coreResyncDone {l : List Nat} {cls : Nat} (h : s.tri.resync = some (l, cls)) : exec .coreResyncDone s =
    .next (if cls = 0 then (s.resynced1 l).put TRI_STATUS_DEBUGGED 1 else (s.resynced1 l).mmClass cls) := by
  simp only [exec, execCoreResyncDone, h]
  rfl

theorem resynced1_fldsBut (s : State) (l : List Nat) : s.FldsBut (s.resynced1 l) [TRI_STATUS_FENCED, TRI_RESYNC_CNT_VAL] := by
  have h : s.FldsBut ((unfence l s).inc TRI_RESYNC_CNT_VAL) [TRI_STATUS_FENCED, TRI_RESYNC_CNT_VAL] :=
    ((unfence_fldsBut l s).mono (by decide)).put _ (by decide)
  exact h.same (setTri_regs _ _)

theorem resynced1_shows (s : State) (l : List Nat) : (s.resynced1 l).tri.resync = none ∧
    (s.resynced1 l).fld TRI_RESYNC_CNT_VAL = (s.fld TRI_RESYNC_CNT_VAL + 1) % 2 ^ 32 ∧
    ∀ x, x < 3 → bitOf ((s.resynced1 l).fld TRI_STATUS_FENCED) x = (bitOf (s.fld TRI_STATUS_FENCED) x && !l.contains x) := by
  refine ⟨?_, ?_, fun x hx => ?_⟩
  · rw [resynced1, setTri_tri]
  · rw [resynced1, setTri_fld, fld_inc_self _ (by decide), unfence_fldsBut l s _ (by decide)]
    rfl
  · rw [resynced1, setTri_fld, inc_eq, fld_put_addr _ _ (by decide), bitOf_unfence l s hx]

end
end State

/-- Settles O53: a mismatch by the cores in service and those that disagree, the end of a test by what it was for. -/
theorem triangleFindsAndTests : Obligations.TriangleFindsAndTests := by
  refine ⟨fun s diff c f skew => ⟨fun h => ?_, fun hc hf hlt hd => ?_, fun hc hf hd => ?_, fun hc hlt hf hd => ?_⟩,
    fun s c d k cls pass first skew l => ⟨fun h => ?_, fun hc ht => ⟨fun hp => ?_, fun hp hf => ?_, fun hp hd hf => ?_⟩, fun h => ?_,
      fun h => ?_⟩⟩
  · simp only [exec, execOutputMismatch, execSignatureCompare, State.mismatch_uncompared h, and_self]
  · simp only [exec, execOutputMismatch, execSignatureCompare, State.mismatch_minority hc hf hlt hd]
    refine ⟨?_, fun hdiv => ⟨_, rfl, State.mmMinority_signature_shows hdiv hf hlt⟩⟩
    obtain ⟨hfen, htest, hvalid, hkind, hcores, hclass, htime⟩ := State.mmMinority_output_shows hf hlt skew
    have htri := s.mmMinority_output_tri c skew
    refine ⟨_, rfl, hfen, htest, hvalid, hkind, hcores, hclass, htime, ?_, ?_, ?_, s.mmMinority_output_onlyTri c skew,
      s.mmMinority_output_regsBut c skew⟩
    · rw [htri]
    · rw [htri]
    · rw [htri]
  · simp only [exec, execOutputMismatch, State.mismatch_noMajority hc hf hd]
    obtain ⟨hsafe, hmode, hrun, hcause⟩ := ((s.mmFound 0 7).mmClass mcNOMAJORITY).enterSafe_shows
    obtain ⟨hcls, hevt, hrec⟩ := s.mmNoMajority_shows
    refine ⟨_, rfl, hsafe, hmode, hcls, hrun, hcause, hevt, ?_, ?_, hrec⟩
    · rw [State.enterSafe_tri]
    · rw [State.enterSafe_tri]
  · simp only [exec, execOutputMismatch, State.mismatch_duplex hc hlt hf hd]
    exact ⟨_, rfl, State.mmDuplex_shows hlt hf (State.mode_of_compares hc) 0⟩
  · simp only [exec, execCoreSelftestDone]
    rcases h with h | h
    · rw [if_neg (Nat.not_lt.mpr h)]
    · rw [State.selfTested_idle h, ite_self]
  · obtain ⟨hdone, htested⟩ := s.testEnded_shows hc
    have hkeep := s.testEnded_fldsBut c
    simp only [exec, execCoreSelftestDone, hc, if_true, State.selfTested_eq ht, hp]
    refine ⟨?_, ?_⟩
    · obtain ⟨hmode, hcls, hcnt, hpend, hevt, htd, htest, hfen⟩ := (s.testEnded c).minorityEnd_fails_shows k c skew
      refine ⟨_, rfl, hmode, hcls, ?_, hpend, htd.trans hdone, hevt, ?_, ?_⟩
      · rw [hcnt, hkeep _ (by decide)]
      · rw [htest, htested]
      · rw [hfen, hkeep _ (by decide)]
    · have hresync := ((s.testEnded c).divergenceKept k c).startResync_fldsBut c
        (if k = 1 then mcDIVERGENCE else if skew then mcSKEW else mcUNATTRIBUTED)
      rw [State.minorityEnd_passes]
      refine ⟨_, rfl, State.startResync_pend _ c _, ?_, State.startResync_resync _ c _, ?_, ?_,
        State.startResync_onlyTri (State.divergenceKept_onlyTri (s.testEnded_onlyTri c) k c) c _⟩
      · rw [hresync.flag (by decide), State.flag, State.divergenceKept_fld]
        exact hdone
      · rw [State.startResync_fenced, State.bitOf_fence _ hc, decide_eq_true rfl, Bool.true_or]
      · rw [hresync _ (by decide), State.divergenceKept_fld, htested]
  · obtain ⟨hdone, htested⟩ := s.testEnded_shows hc
    have hfen : bitOf ((s.testEnded c).fld TRI_STATUS_FENCED) c = false := by rw [s.testEnded_fldsBut c _ (by decide), hf]
    simp only [exec, execCoreSelftestDone, hc, if_true, State.selfTested_eq ht, hp, hfen, Bool.false_eq_true, if_false, List.nil_append,
      List.length_cons, List.length_nil, Nat.reduceAdd, Nat.reduceLT]
    exact ⟨_, rfl, rfl, htested, hdone⟩
  · have hfen : bitOf ((s.testEnded c).fld TRI_STATUS_FENCED) c = false := by rw [s.testEnded_fldsBut c _ (by decide), hf]
    simp only [exec, execCoreSelftestDone, hc, if_true, State.selfTested_eq ht, hp, hfen, Bool.false_eq_true, if_false, List.cons_append,
      List.nil_append, List.length_cons, List.length_nil, Nat.reduceAdd, Nat.lt_irrefl]
    refine ⟨fun hne => ⟨_, rfl, ?_⟩, fun he => ⟨_, rfl, State.duplexEnd_unresolved ?_⟩⟩
    · cases first with
      | true => exact State.duplexEnd_resolves (b := false) (by simp [Bool.eq_false_iff.mpr hne.symm]) hc
      | false => exact State.duplexEnd_resolves (b := false) (by simp [Bool.eq_true_of_not_eq_false hne.symm]) hd
    · subst he
      cases first <;> simp
  · simp only [exec, execCoreResyncDone, h]
  · obtain ⟨hnone, hcnt, hfen⟩ := s.resynced1_shows l
    have hkeep := s.resynced1_fldsBut l
    have hclass := (s.resynced1 l).mmClass_fldsBut cls
    have htri := congrArg Tri.resync ((s.resynced1 l).mmClass_tri cls)
    rw [State.exec_coreResyncDone h]
    refine ⟨_, rfl, ?_, ?_, fun x hx => ?_, fun h0 => ?_, fun h0 h8 => ?_⟩
    · split
      · exact hnone
      · exact htri.trans hnone
    · split
      · rw [State.fld_put_addr _ _ (by decide), hcnt]
      · rw [hclass _ (by decide), hcnt]
    · split
      · rw [State.fld_put_beside _ _ (by decide) (by decide), hfen x hx]
      · rw [hclass _ (by decide), hfen x hx]
    · rw [if_pos h0]
      refine ⟨State.flag_put_bitN _ (by decide) (by decide) true, ?_⟩
      rw [State.fld_put_addr _ _ (by decide), hkeep _ (by decide)]
    · obtain ⟨hcls, hevt⟩ := (s.resynced1 l).mmClass_shows (Nat.lt_trans h8 (by decide))
      obtain ⟨h1, -, h3, h4⟩ := (s.resynced1 l).mmClass_counts
      rw [if_neg (Nat.ne_of_gt h0)]
      refine ⟨hcls, hevt, fun he => ?_, fun he => ?_, fun he => ?_⟩
      · subst he
        exact h1.trans (by rw [hkeep _ (by decide)])
      · subst he
        exact h3.trans (by rw [hkeep _ (by decide)])
      · subst he
        exact h4.trans (by rw [hkeep _ (by decide)])

end Sys2Proof.Machine
end

section
/-! SUPPORT. Data windows read after they were written, and fresh random bytes (log 6, log 25). -/

namespace Sys2Proof.Machine
namespace State

/-! ## Data windows -/

/-- A byte of a data window. -/
def winByte (s : State) (a j : Nat) : Byte := BitVec.ofNat 8 (s.fld ⟨a + 4 * (j / 4), 8 * (j % 4), 8⟩)

theorem window_eq (s : State) (a n : Nat) : s.window a n = (List.range n).map (s.winByte a) := rfl

theorem winByte_put (s : State) (a i j : Nat) (b : Byte) :
    (s.put ⟨a + 4 * (i / 4), 8 * (i % 4), 8⟩ b.toNat).winByte a j = if j = i then b else s.winByte a j := by
  unfold winByte
  split
  · next h =>
    rw [h, fld_put_same _ (by omega), Nat.mod_eq_of_lt b.isLt, BitVec.ofNat_toNat, BitVec.setWidth_eq]
  · next h =>
    by_cases hw : j / 4 = i / 4
    · rw [hw, fld_put_next _ (by omega) (by omega)]
    · rw [fld_put_other _ (by omega)]

theorem winByte_windowPut (a : Nat) (l : List Byte) (s : State) (i j : Nat) : (s.windowPut a i l).winByte a j =
    if h : i ≤ j ∧ j - i < l.length then l[j - i] else s.winByte a j := by
  induction l generalizing s i with
  | nil => simp [windowPut]
  | cons b l ih =>
    rw [windowPut, ih]
    by_cases hj : j = i
    · subst hj
      rw [dif_neg (by omega), winByte_put, if_pos rfl, dif_pos (by simp)]
      simp
    · by_cases hin : i ≤ j ∧ j - i < (b :: l).length
      · have hlen : j - i < l.length + 1 := hin.2
        rw [dif_pos hin, dif_pos (by omega)]
        have hidx : j - i = j - (i + 1) + 1 := by omega
        simp only [hidx, List.getElem_cons_succ]
      · have hlen : ¬ (i ≤ j ∧ j - i < l.length + 1) := hin
        rw [dif_neg hin, dif_neg (by omega), winByte_put, if_neg hj]

/-- A window holds what was written into it. -/
theorem window_windowPut (s : State) (a : Nat) (l : List Byte) : (s.windowPut a 0 l).window a l.length = l := by
  refine List.ext_getElem (by simp [window_eq]) fun j h _ => ?_
  have hj : j < l.length := by simpa [window_eq] using h
  simp [window_eq, winByte_windowPut, hj]

theorem windowPut_reg (a : Nat) {c : Nat} (l : List Byte) (s : State) (i : Nat) (h : c < a ∨ a + i + l.length ≤ c) :
    (s.windowPut a i l).reg c = s.reg c := by
  induction l generalizing s i with
  | nil => rfl
  | cons b l ih =>
    have hl : (b :: l).length = l.length + 1 := rfl
    rw [windowPut, ih _ _ (by omega)]
    exact reg_put_ne s _ _ (by dsimp only; omega)

theorem windowPut_rest (a : Nat) (l : List Byte) (s : State) (i : Nat) : { s.windowPut a i l with regs := s.regs } = s := by
  induction l generalizing s i with
  | nil => rfl
  | cons b l ih => exact (congrArg (fun t : State => { t with regs := s.regs }) (ih _ _) :)

/-- A window of registers that a change leaves. -/
theorem window_congr {s t : State} {a n : Nat} (h : ∀ k, k < n → t.reg (a + 4 * (k / 4)) = s.reg (a + 4 * (k / 4))) :
    t.window a n = s.window a n := by
  refine List.map_congr_left fun k hk => ?_
  rw [h k (List.mem_range.mp hk)]

/-! ## Random bytes -/

theorem random_state (s : State) (n : Nat) : (s.random n).1 = { s with free := s.free + n } := by
  induction n generalizing s with
  | zero => rfl
  | succ n ih =>
    have h := ih { s with free := s.free + 1 }
    rw [Nat.add_assoc, Nat.add_comm 1 n] at h
    exact h

theorem random_bytes (s : State) (n : Nat) :
    (s.random n).2 = (List.range n).map fun i => BitVec.ofNat 8 (Config.freeValue (s.free + i)) := by
  induction n generalizing s with
  | zero => rfl
  | succ n ih =>
    have h := ih { s with free := s.free + 1 }
    rw [List.range_succ_eq_map, List.map_cons, List.map_map]
    refine (congrArg (List.cons _) h).trans (congrArg (List.cons _) (List.map_congr_left fun i _ => ?_))
    rw [Function.comp_apply, Nat.succ_eq_add_one, Nat.add_assoc, Nat.add_comm 1 i]

theorem random_length (s : State) (n : Nat) : (s.random n).2.length = n := by rw [random_bytes, List.length_map, List.length_range]

theorem random_congr {s t : State} (h : t.free = s.free) (n : Nat) : (t.random n).2 = (s.random n).2 := by
  rw [random_bytes, random_bytes, h]

end State
end Sys2Proof.Machine
end

section
/-! PROOFS. Debug of the Triangle, and the RUN bits of the application cores (R459, R464, R465, R467, R478): O54. -/

namespace Sys2Proof.Machine
namespace State

section
variable {s : State}

/-! ## An attempt to authenticate (R464) -/

/-- The signature cleared, and a new nonce drawn after it. -/
def sigRegs : List Nat := (List.range 24).map rDBG_SIG
def renonced (s : State) : State := (s.zeroAll sigRegs).drawNonce

theorem mem_sigRegs {a : Nat} : a ∈ sigRegs ↔ ∃ i, i < 24 ∧ rDBG_SIG i = a := by simp [sigRegs]

theorem drawNonce_eq (s : State) : s.drawNonce = ({ s with free := s.free + 16 } : State).windowPut (rDBG_NONCE 0) 0 (s.random 16).2 := by
  rw [← random_state]
  rfl

/-- The key that may vouch for a debugger. -/
def debugKey (s : State) : Option KeyHalf :=
  match (s.slot 7).cur with
  | some k => if s.orphaned 7 ∨ bitOf k.usage uVERIFY = false then none else some k
  | none => none

theorem debugAuth_eq (s : State) : s.debugAuth =
    match s.debugKey with
    | none => s.renonced.put DBG_AUTH_RESULT 3
    | some k =>
      if ecVerify true k.pub (sha384 (devUid ++ s.window (rDBG_NONCE 0) 16)) (s.window (rDBG_SIG 0) 96) then
        (s.renonced.put DBG_AUTH_RESULT 1).put DBG_STATUS_AUTH 1
      else s.renonced.put DBG_AUTH_RESULT 2 := by
  unfold debugAuth renonced zeroAll sigRegs
  rw [List.foldl_map]
  rfl

theorem debugKey_none (h : (s.slot 7).cur = none ∨ s.orphaned 7 = true ∨ ∃ k, (s.slot 7).cur = some k ∧ bitOf k.usage 4 = false) :
    s.debugKey = none := by
  unfold debugKey
  split
  · next k hk =>
    refine if_pos ?_
    obtain h | h | ⟨k', hk', hu⟩ := h
    · exact absurd (h.symm.trans hk) (by simp)
    · exact .inl h
    · exact .inr (Option.some.inj (hk'.symm.trans hk) ▸ hu)
  · rfl

theorem debugKey_some {k : KeyHalf} (hk : (s.slot 7).cur = some k) (ho : s.orphaned 7 = false) (hu : bitOf k.usage 4 = true) :
    s.debugKey = some k := by
  simp only [debugKey, hk, ho, uVERIFY, hu, Bool.false_eq_true, Bool.true_eq_false, or_self, if_false]

/-- What any attempt leaves: the nonce drawn, the signature cleared. -/
structure Renonced (s t : State) : Prop where
  nonce : t.window (rDBG_NONCE 0) 16 = (s.random 16).2
  sig : ∀ i, i < 24 → t.reg (rDBG_SIG i) = 0
  free : t.free = s.free + 16
  rest : { t with regs := s.regs, free := s.free } = s

theorem renonced_eq (s : State) : s.renonced =
    ({ s.zeroAll sigRegs with free := s.free + 16 } : State).windowPut (rDBG_NONCE 0) 0 (s.random 16).2 := by
  have hfree : (s.zeroAll sigRegs).free = s.free := (s.zeroAll_onlyRegs sigRegs).same (f := State.free) fun _ _ => rfl
  rw [renonced, drawNonce_eq, hfree, random_congr hfree]

theorem reg_withFree (s : State) (n a : Nat) : ({ s with free := n } : State).reg a = s.reg a := rfl

theorem renonced_reg (s : State) {a : Nat} (h : a < 0x1C00010) : s.renonced.reg a = s.reg a := by
  rw [renonced_eq]
  rw [windowPut_reg _ _ _ _ (.inl (by simp only [rDBG_NONCE]; omega)), reg_withFree]
  refine (s.zeroAll_onlyRegs sigRegs).regs a fun hm => ?_
  obtain ⟨i, -, hi⟩ := mem_sigRegs.mp hm
  simp only [rDBG_SIG] at hi
  omega

theorem windowPut_free (s : State) (a i : Nat) (l : List Byte) : (s.windowPut a i l).free = s.free :=
  (congrArg State.free (windowPut_rest a l s i) :)

/-- A window written after a change of registers alone. -/
theorem windowPut_onlyRegs {z : State} {as : List Nat} (h : s.OnlyRegs z as) (k a i : Nat) (l : List Byte) :
    { ({ z with free := k } : State).windowPut a i l with regs := s.regs, free := s.free } = s :=
  ((congrArg (fun t : State => { t with regs := s.regs, free := s.free }) (windowPut_rest a l { z with free := k } i) :)).trans
    (congrArg (fun t : State => { t with free := s.free }) h.rest :)

theorem renonced_renonced (s : State) : s.Renonced s.renonced := by
  have hlen := s.random_length 16
  rw [renonced_eq]
  refine ⟨?_, fun i hi => ?_, ?_, ?_⟩
  · have hwin := window_windowPut { s.zeroAll sigRegs with free := s.free + 16 } (rDBG_NONCE 0) (s.random 16).2
    rwa [hlen] at hwin
  · rw [windowPut_reg _ _ _ _ (.inr (by simp only [rDBG_NONCE, rDBG_SIG, hlen]; omega)), reg_withFree]
    exact reg_zeroAll s (.inl (mem_sigRegs.mpr ⟨i, hi, rfl⟩))
  · rw [windowPut_free]
  · exact windowPut_onlyRegs (s.zeroAll_onlyRegs sigRegs) _ _ _ _

theorem Renonced.put {t : State} (h : s.Renonced t) {f : Fld} (v : Nat) (hf : f.addr < 0x1C00010) : s.Renonced (t.put f v) := by
  refine ⟨?_, fun i hi => ?_, h.free, h.rest⟩
  · rw [← h.nonce]
    exact window_congr fun k _ => reg_put_ne t f v (by simp only [rDBG_NONCE]; omega)
  · rw [reg_put_ne t f v (by simp only [rDBG_SIG]; omega), h.sig i hi]

theorem debugAuth_refused (h : s.debugKey = none) : s.debugAuth = s.renonced.put DBG_AUTH_RESULT 3 := by
  rw [debugAuth_eq, h]

theorem debugAuth_checked {k : KeyHalf} (h : s.debugKey = some k) : s.debugAuth =
    if ecVerify true k.pub (sha384 (devUid ++ s.window (rDBG_NONCE 0) 16)) (s.window (rDBG_SIG 0) 96) then
      (s.renonced.put DBG_AUTH_RESULT 1).put DBG_STATUS_AUTH 1
    else s.renonced.put DBG_AUTH_RESULT 2 := by
  rw [debugAuth_eq, h]

theorem renonced_auth (s : State) : s.renonced.flag DBG_STATUS_AUTH = s.flag DBG_STATUS_AUTH :=
  congrArg (fun w : Word => bits w.toNat 31 1 == 1) (s.renonced_reg (a := rDBG_STATUS) (by decide))

/-! ## Actions and resume (R465) -/

/-- The action itself: a halt halts the cluster. -/
def acted (s : State) (act : DebugAct) : State := if act = .halt then s.put DBG_STATUS_HALTED 1 else s

theorem exec_debugAction (ha : s.flag DBG_STATUS_AUTH = true) (hs : s.splitOn = false) (act : DebugAct) :
    exec (.debugAction act) s = .next ((s.acted act).replay act) := by
  have hsplit : (s.acted act).splitOn = s.splitOn := by
    unfold acted splitOn
    split
    · exact flag_put_addr _ _ (by decide)
    · rfl
  simp only [exec, execDebugAction, ha, hs, Bool.true_eq_false, Bool.false_eq_true, if_false]
  rfl

theorem acted_shows (s : State) (act : DebugAct) : (s.acted act).flag DBG_STATUS_HALTED = (decide (act = .halt) || s.flag DBG_STATUS_HALTED) ∧
    s.OnlyRegs (s.acted act) [rDBG_STATUS] := by
  unfold acted
  split
  · next h =>
    rw [decide_eq_true h, Bool.true_or]
    exact ⟨flag_put_bitN s (by decide) (by decide) true, (OnlyRegs.refl s _).put 1 (by decide)⟩
  · next h =>
    rw [decide_eq_false h, Bool.false_or]
    exact ⟨rfl, .refl s _⟩

theorem acted_fldsBut (s : State) (act : DebugAct) : s.FldsBut (s.acted act) [DBG_STATUS_HALTED] := by
  unfold acted
  split
  · exact s.put_fldsBut _ _
  · exact .refl s _

theorem replay_full {act : DebugAct} (h : s.flag DBG_STATUS_OVERFLOW = false) (hl : 256 ≤ s.tri.replay.length) :
    s.replay act = s.put DBG_STATUS_OVERFLOW 1 := by
  rw [replay, if_neg (by simp [h]), if_pos hl]

/-- An action recorded: in the buffer, shown in REPLAY_USED, and counted. -/
def recorded (s : State) (act : DebugAct) : State :=
  ((s.setTri { s.tri with replay := s.tri.replay ++ [act] }).put DBG_STATUS_REPLAY_USED (s.tri.replay ++ [act]).length).inc
    TRI_DEBUG_ACT_CNT_VAL

theorem replay_recorded {act : DebugAct} (h : s.flag DBG_STATUS_OVERFLOW = false) (hl : s.tri.replay.length < 256) :
    s.replay act = s.recorded act := by
  rw [replay, if_neg (by simp [h]), if_neg (Nat.not_le.mpr hl)]
  rfl

theorem recorded_fldsBut (s : State) (act : DebugAct) :
    s.FldsBut (s.recorded act) [DBG_STATUS_REPLAY_USED, TRI_DEBUG_ACT_CNT_VAL] :=
  (((s.setTri_fldsBut _).mono (List.nil_subset _)).put _ (by decide)).put _ (by decide)

theorem recorded_shows (s : State) {act : DebugAct} (hl : s.tri.replay.length < 256) :
    (s.recorded act).tri = { s.tri with replay := s.tri.replay ++ [act] } ∧
      (s.recorded act).fld DBG_STATUS_REPLAY_USED = s.tri.replay.length + 1 ∧
      (s.recorded act).fld TRI_DEBUG_ACT_CNT_VAL = (s.fld TRI_DEBUG_ACT_CNT_VAL + 1) % 2 ^ 32 := by
  refine ⟨?_, ?_, ?_⟩
  · rw [recorded, inc_tri, put_tri, setTri_tri]
  · rw [recorded, inc_eq, fld_put_addr _ _ (by decide), fld_put_self _ _ _ (by decide), List.length_append, List.length_singleton]
    exact Nat.mod_eq_of_lt (Nat.lt_trans (Nat.succ_lt_succ hl) (by decide))
  · rw [recorded, fld_inc_self _ (by decide), fld_put_addr _ _ (by decide), setTri_fld]
    rfl

theorem recorded_regsBut (s : State) (act : DebugAct) : s.RegsBut (s.recorded act) [rDBG_STATUS, rTRI_DEBUG_ACT_CNT] := by
  have htri : s.RegsBut (s.setTri { s.tri with replay := s.tri.replay ++ [act] }) [rDBG_STATUS, rTRI_DEBUG_ACT_CNT] :=
    (RegsBut.refl s _).same (setTri_regs _ _)
  have hused := htri.put (f := DBG_STATUS_REPLAY_USED) (s.tri.replay ++ [act]).length (by decide)
  exact hused.put (f := TRI_DEBUG_ACT_CNT_VAL) _ (by decide)

/-- The end of the halt. -/
def unhalted (s : State) : State := ((s.setTri { s.tri with replay := [] }).put DBG_STATUS_HALTED 0).put DBG_STATUS_REPLAY_USED 0

theorem debugResume_eq (h : s.splitOn = false) : s.debugResume =
    if (if s.flag DBG_STATUS_OVERFLOW then s else if 256 ≤ s.tri.replay.length then s.put DBG_STATUS_OVERFLOW 1
        else s.inc TRI_DEBUG_ACT_CNT_VAL).unhalted.flag DBG_STATUS_OVERFLOW then
      ((if s.flag DBG_STATUS_OVERFLOW then s else if 256 ≤ s.tri.replay.length then s.put DBG_STATUS_OVERFLOW 1
        else s.inc TRI_DEBUG_ACT_CNT_VAL).unhalted.put DBG_STATUS_OVERFLOW 0).recopyCores
    else (if s.flag DBG_STATUS_OVERFLOW then s else if 256 ≤ s.tri.replay.length then s.put DBG_STATUS_OVERFLOW 1
        else s.inc TRI_DEBUG_ACT_CNT_VAL).unhalted := by
  simp only [debugResume, h, Bool.false_eq_true, false_or, decide_eq_true_eq]
  rfl

theorem unhalted_fldsBut (s : State) : s.FldsBut s.unhalted [DBG_STATUS_HALTED, DBG_STATUS_REPLAY_USED] :=
  (((s.setTri_fldsBut _).mono (List.nil_subset _)).put _ (by decide)).put _ (by decide)

theorem unhalted_shows (s : State) : s.unhalted.flag DBG_STATUS_HALTED = false ∧ s.unhalted.fld DBG_STATUS_REPLAY_USED = 0 ∧
    s.unhalted.tri = { s.tri with replay := [] } := by
  refine ⟨?_, ?_, ?_⟩
  · rw [unhalted, flag_put_beside _ _ (by decide) (by decide)]
    exact flag_put_bitN _ (by decide) (by decide) false
  · rw [unhalted, fld_put_self _ _ _ (by decide)]
    rfl
  · rw [unhalted, put_tri, put_tri, setTri_tri]

theorem debugResume_replayed (hs : s.splitOn = false) (ho : s.flag DBG_STATUS_OVERFLOW = false) (hl : s.tri.replay.length < 256) :
    s.debugResume = (s.inc TRI_DEBUG_ACT_CNT_VAL).unhalted := by
  have hflag : (s.inc TRI_DEBUG_ACT_CNT_VAL).unhalted.flag DBG_STATUS_OVERFLOW = false := by
    rw [(unhalted_fldsBut _).flag (by decide), inc_eq, flag_put_addr _ _ (by decide), ho]
  rw [debugResume_eq hs, if_neg (c := s.flag DBG_STATUS_OVERFLOW = true) (by simp [ho]),
    if_neg (c := 256 ≤ s.tri.replay.length) (Nat.not_le.mpr hl), if_neg (by simp [hflag])]

/-- After an overflow the halt ends with the other cores restored from the first. -/
theorem debugResume_overflowed (hs : s.splitOn = false) (ho : s.flag DBG_STATUS_OVERFLOW = true ∨ 256 ≤ s.tri.replay.length) :
    ∃ t, s.debugResume = (t.unhalted.put DBG_STATUS_OVERFLOW 0).recopyCores ∧ s.OnlyRegs t [rDBG_STATUS] ∧
      t.fld TRI_STATUS_FENCED = s.fld TRI_STATUS_FENCED := by
  by_cases h : s.flag DBG_STATUS_OVERFLOW = true
  · have hflag : s.unhalted.flag DBG_STATUS_OVERFLOW = true := by rw [(unhalted_fldsBut _).flag (by decide), h]
    refine ⟨s, ?_, .refl s _, rfl⟩
    rw [debugResume_eq hs, if_pos h, if_pos hflag]
  · have hflag : (s.put DBG_STATUS_OVERFLOW 1).unhalted.flag DBG_STATUS_OVERFLOW = true := by
      rw [(unhalted_fldsBut _).flag (by decide)]
      exact flag_put_bitN _ (by decide) (by decide) true
    refine ⟨s.put DBG_STATUS_OVERFLOW 1, ?_, (OnlyRegs.refl s _).put 1 (by decide), fld_put_addr _ _ (by decide)⟩
    rw [debugResume_eq hs, if_neg (c := s.flag DBG_STATUS_OVERFLOW = true) h, if_pos (ho.resolve_left h), if_pos hflag]

theorem recopyCores_all (h : s.fld TRI_STATUS_FENCED = 0) : s.recopyCores = s.setTri { s.tri with resync := some ([1, 2], 0) } := by
  rw [recopyCores, coresIn_all h]
  rfl

theorem unhalted_onlyTri {t : State} (h : s.OnlyTri t) : s.OnlyTri t.unhalted := OnlyTri.put (OnlyTri.put (h.setTri _) _ _) _ _

theorem unhalted_regsBut (s : State) : s.RegsBut s.unhalted [rDBG_STATUS] := by
  have htri : s.RegsBut (s.setTri { s.tri with replay := [] }) [rDBG_STATUS] := (RegsBut.refl s _).same (setTri_regs _ _)
  exact (htri.put (f := DBG_STATUS_HALTED) 0 (by decide)).put (f := DBG_STATUS_REPLAY_USED) 0 (by decide)

theorem OnlyRegs.onlyTri {t : State} {as : List Nat} (h : s.OnlyRegs t as) : s.OnlyTri t :=
  (congrArg (fun x : State => { x with tri := s.tri }) h.rest :)

/-! ## The RUN bits (R467, R478) -/

theorem targetDown_srcSame {n x : Nat} (hn : n < 512) (h : s.srcIs n stDELIVERED = false ∨ s.fld (CLP_SRC_CFG_DLV_TGT n) ≠ x) :
    (s.targetDown x).reg (rCLP_SRC_CFG n) = s.reg (rCLP_SRC_CFG n) := by
  refine targetDown_reg ?_ (srcCfg_ne_stat hn x) fun m hm => srcCfg_inj fun hnm => ?_
  · simp only [rCLP_SRC_CFG, rCLP_REROUTE_CNT]; omega
  · obtain ⟨-, hd, ht⟩ := mem_deliveredTo.mp (hnm ▸ hm)
    rcases h with h | h
    · exact absurd (h.symm.trans hd) (by decide)
    · exact h ht

theorem targetDown_run (s : State) {x : Nat} (hx : x < 7) : (s.targetDown x).fld TRI_AP_CTL_RUN = s.fld TRI_AP_CTL_RUN := by
  have hreg : (s.targetDown x).reg rTRI_AP_CTL = s.reg rTRI_AP_CTL := by
    refine targetDown_reg (by decide) ?_ fun m hm => ?_
    · simp only [rTRI_AP_CTL, rCLP_TGT_STAT]; omega
    · have := (mem_deliveredTo.mp hm).1
      simp only [rTRI_AP_CTL, rCLP_SRC_CFG]
      omega
  exact congrArg (fun w : Word => bits w.toNat 0 4) hreg

theorem srcTgt_congr {t : State} {n : Nat} (h : t.reg (rCLP_SRC_CFG n) = s.reg (rCLP_SRC_CFG n)) :
    t.fld (CLP_SRC_CFG_DLV_TGT n) = s.fld (CLP_SRC_CFG_DLV_TGT n) := congrArg (fun w : Word => bits w.toNat 8 3) h

/-- A source held by none of the targets that go down is as before. -/
theorem targetsDown_srcSame {n : Nat} (hn : n < 512) (l : List Nat) (s : State)
    (h : s.srcIs n stDELIVERED = false ∨ ∀ x ∈ l, s.fld (CLP_SRC_CFG_DLV_TGT n) ≠ x) :
    (l.foldl State.targetDown s).reg (rCLP_SRC_CFG n) = s.reg (rCLP_SRC_CFG n) := by
  induction l generalizing s with
  | nil => rfl
  | cons x l ih =>
    have hx := targetDown_srcSame (x := x) hn (h.imp_right fun h => h x List.mem_cons_self)
    refine (ih _ ?_).trans hx
    rw [srcIs_congr hx, srcTgt_congr hx]
    exact h.imp_right fun h y hy => h y (List.mem_cons_of_mem _ hy)

/-- A source held by an application core that goes down waits again. -/
theorem targetsDown_pending {n a : Nat} (hn : n < 512) (ha : 3 ≤ a) (l : List Nat) (s : State) (hl : ∀ x ∈ l, x < 7)
    (hr : bitOf (s.fld TRI_AP_CTL_RUN) (a - 3) = false)
    (h : s.srcIs n stPENDING = true ∨ a ∈ l ∧ s.srcIs n stDELIVERED = true ∧ s.fld (CLP_SRC_CFG_DLV_TGT n) = a) :
    (l.foldl State.targetDown s).srcIs n stPENDING = true := by
  induction l generalizing s with
  | nil => exact h.resolve_right fun h => absurd h.1 List.not_mem_nil
  | cons x l ih =>
    refine ih _ (fun y hy => hl y (List.mem_cons_of_mem _ hy)) ?_ ?_
    · rw [targetDown_run s (hl x List.mem_cons_self), hr]
    · obtain hp | ⟨hmem, hd, ht⟩ := h
      · exact .inl ((srcIs_congr (targetDown_srcSame hn (.inl (srcIs_unique hp (by decide)))) _).trans hp)
      · by_cases hx : x = a
        · have hoff : s.tgtPowered x = false := by
            rw [tgtPowered, hx, if_neg (by omega), hr, Bool.and_false]
          rw [srcIs_congr (targetDown_srcReg hoff hn)]
          exact .inl (repend_srcIs _ s (.inl (mem_deliveredTo.mpr ⟨hn, hd, ht.trans hx.symm⟩)))
        · have hsame := targetDown_srcSame (x := x) hn (.inr fun h => hx (h.symm.trans ht))
          rw [srcIs_congr hsame, srcIs_congr hsame, srcTgt_congr hsame]
          exact .inr ⟨(List.mem_cons.mp hmem).resolve_left (Ne.symm hx), hd, ht⟩

theorem srcCfg_runPut (s : State) {n : Nat} (hn : n < 512) (run : Nat) :
    (s.put TRI_AP_CTL_RUN run).reg (rCLP_SRC_CFG n) = s.reg (rCLP_SRC_CFG n) :=
  reg_put_ne s _ _ (by simp only [TRI_AP_CTL_RUN, rTRI_AP_CTL, rCLP_SRC_CFG]; omega)

theorem putRun_pending {n a : Nat} (hn : n < 512) (ha : 3 ≤ a) (ha7 : a < 7) {run : Nat} (hr : bitOf run (a - 3) = false)
    (hd : s.srcIs n stDELIVERED = true) (ht : s.fld (CLP_SRC_CFG_DLV_TGT n) = a) : (s.putRun run).srcIs n stPENDING = true := by
  have hput := s.srcCfg_runPut hn run
  refine targetsDown_pending hn ha _ _ (by decide) ?_ (.inr ⟨?_, ?_, ?_⟩)
  · rw [fld_put_self _ _ _ (by decide), bitOf_mod (by simp only [TRI_AP_CTL_RUN]; omega), hr]
  · simp only [List.mem_cons, List.not_mem_nil, or_false]
    omega
  · rw [srcIs_congr hput, hd]
  · rw [srcTgt_congr hput, ht]

theorem putRun_srcSame {n : Nat} (hn : n < 512) (run : Nat) (h : s.srcIs n stDELIVERED = false ∨ s.fld (CLP_SRC_CFG_DLV_TGT n) < 3) :
    (s.putRun run).reg (rCLP_SRC_CFG n) = s.reg (rCLP_SRC_CFG n) := by
  have hput := s.srcCfg_runPut hn run
  refine (targetsDown_srcSame hn _ _ ?_).trans hput
  rw [srcIs_congr hput, srcTgt_congr hput]
  refine h.imp_right fun h x hx => ?_
  simp only [List.mem_cons, List.not_mem_nil, or_false] at hx
  omega

end
end State

/-- Settles O54: an attempt by the key that slot 7 holds, an action by the room in the buffer, and the RUN bits by the cores that stop. -/
theorem debugAndApplicationCores : Obligations.DebugAndApplicationCores := by
  intro s r run n a k good act
  have hrenonced := s.renonced_renonced
  have hauth := s.renonced_auth
  refine ⟨fun hr hk => ?_, fun hr hk ho hu hgood => ?_, fun h => ?_, fun ha hs ho => ⟨fun hl => ?_, fun hl => ?_⟩, fun h => ?_,
    fun hh hs => ⟨fun ho hl => ?_, fun ho hf => ?_⟩, fun hr => ⟨fun h => ?_, fun h => ?_⟩⟩
  · obtain ⟨hnonce, hsig, hfree, hrest⟩ := hrenonced.put (f := DBG_AUTH_RESULT) 3 (by decide)
    simp only [exec, execDbgAuthGo, State.gated_reaches hr, State.debugAuth_refused (State.debugKey_none hk)]
    refine ⟨_, rfl, State.fld_put_self _ _ 3 (by decide), ?_, hnonce, hsig, hfree, hrest⟩
    rw [State.flag_put_addr _ _ (by decide), hauth]
  · simp only [exec, execDbgAuthGo, State.gated_reaches hr, State.debugAuth_checked (State.debugKey_some hk ho hu), ← hgood]
    cases good with
    | true =>
      obtain ⟨hnonce, hsig, -, hrest⟩ := (hrenonced.put (f := DBG_AUTH_RESULT) 1 (by decide)).put (f := DBG_STATUS_AUTH) 1 (by decide)
      refine ⟨_, rfl, ?_, State.flag_put_bitN _ (by decide) (by decide) true, hnonce, hsig, hrest⟩
      rw [if_pos rfl, State.fld_put_addr _ _ (by decide)]
      exact State.fld_put_self _ DBG_AUTH_RESULT 1 (by decide)
    | false =>
      obtain ⟨hnonce, hsig, -, hrest⟩ := hrenonced.put (f := DBG_AUTH_RESULT) 2 (by decide)
      refine ⟨_, rfl, State.fld_put_self _ DBG_AUTH_RESULT 2 (by decide), ?_, hnonce, hsig, hrest⟩
      rw [if_neg Bool.false_ne_true, State.flag_put_addr _ _ (by decide), hauth, Bool.false_or]
  · simp only [exec, execDebugAction, h, if_true]
  · obtain ⟨hhalted, hacted⟩ := s.acted_shows act
    have hkeep := s.acted_fldsBut act
    have htri : (s.acted act).tri = s.tri := hacted.same (f := State.tri) fun _ _ => rfl
    rw [State.exec_debugAction ha hs, State.replay_recorded (by rw [hkeep.flag (by decide), ho]) (by rw [htri]; exact hl)]
    obtain ⟨hrec, hused, hcnt⟩ := (s.acted act).recorded_shows (act := act) (by rw [htri]; exact hl)
    rw [htri] at hrec hused
    refine ⟨_, rfl, ?_, hrec, hused, ?_, ?_, ?_⟩
    · rw [((s.acted act).recorded_fldsBut act).flag (by decide), hhalted]
    · rw [hcnt, hkeep _ (by decide)]
    · exact State.OnlyTri.put (State.OnlyTri.put (hacted.onlyTri.setTri _) _ _) _ _
    · exact fun b hb => ((s.acted act).recorded_regsBut act b hb).trans
        (hacted.regs b fun h => hb (List.mem_cons.mpr (.inl (List.mem_singleton.mp h))))
  · obtain ⟨hhalted, hacted⟩ := s.acted_shows act
    have htri : (s.acted act).tri = s.tri := hacted.same (f := State.tri) fun _ _ => rfl
    rw [State.exec_debugAction ha hs, State.replay_full (by rw [(s.acted_fldsBut act).flag (by decide), ho]) (by rw [htri]; exact hl)]
    refine ⟨_, rfl, ?_, State.flag_put_bitN _ (by decide) (by decide) true, hacted.put _ (by decide)⟩
    rw [State.flag_put_beside _ _ (by decide) (by decide), hhalted]
  · simp only [exec, execDebugResume, h, Bool.false_eq_true, if_false]
  · simp only [exec, execDebugResume, hh, if_true, State.debugResume_replayed hs ho hl]
    obtain ⟨hhalted, hused, htri⟩ := (s.inc TRI_DEBUG_ACT_CNT_VAL).unhalted_shows
    rw [State.inc_tri] at htri
    refine ⟨_, rfl, hhalted, hused, htri, ?_, State.unhalted_onlyTri (s.inc_onlyRegs _).onlyTri, fun b hb => ?_⟩
    · rw [State.unhalted_fldsBut _ _ (by decide), State.fld_inc_self _ (by decide)]
      rfl
    · refine ((s.inc TRI_DEBUG_ACT_CNT_VAL).unhalted_regsBut b fun h => ?_).trans
        ((s.inc_onlyRegs TRI_DEBUG_ACT_CNT_VAL).regs b fun h => hb (List.mem_cons_of_mem _ h))
      exact hb (List.mem_cons.mpr (.inl (List.mem_singleton.mp h)))
  · obtain ⟨t, ht, honly, hfen⟩ := State.debugResume_overflowed hs ho
    obtain ⟨hhalted, hused, htri⟩ := t.unhalted_shows
    have htt : t.tri = s.tri := honly.same (f := State.tri) fun _ _ => rfl
    have hcores : (t.unhalted.put DBG_STATUS_OVERFLOW 0).fld TRI_STATUS_FENCED = 0 := by
      rw [State.fld_put_addr _ _ (by decide), State.unhalted_fldsBut _ _ (by decide), hfen, hf]
    simp only [exec, execDebugResume, hh, if_true, ht, State.recopyCores_all hcores]
    refine ⟨_, rfl, ?_, ?_, ?_, rfl, ?_, ?_, ?_⟩
    · rw [State.setTri_flag, State.flag_put_beside _ _ (by decide) (by decide), hhalted]
    · rw [State.setTri_flag]
      exact State.flag_put_bitN _ (by decide) (by decide) false
    · rw [State.setTri_fld, State.fld_put_beside _ _ (by decide) (by decide), hused]
    · rw [State.setTri_tri, State.put_tri, htri]
    · exact State.OnlyTri.setTri (State.OnlyTri.put (State.unhalted_onlyTri honly.onlyTri) _ _) _
    · have hput : s.RegsBut (t.unhalted.put DBG_STATUS_OVERFLOW 0) [rDBG_STATUS] :=
        (honly.regs.trans t.unhalted_regsBut).put 0 (by decide)
      exact hput.same (State.setTri_regs _ _)
  · simp only [exec, execTriApCtlWrite, State.gated_reaches hr, State.writeApCtl, h, if_true]
  · simp only [exec, execTriApCtlWrite, State.gated_reaches hr, State.writeApCtl, h, Bool.false_eq_true, if_false]
    refine ⟨_, rfl, ?_, fun hn ha ha7 hrun hd ht => ?_, fun hn h => State.putRun_srcSame hn _ h⟩
    · rw [State.fld_putRun, Nat.mod_mod]
    · exact State.putRun_pending hn ha ha7 ((bitOf_mod (n := 4) (by omega)).trans hrun) hd ht

end Sys2Proof.Machine
end

section
/-! SUPPORT. The NM clusters: their states and members, and what happens at their ports one after another (R369 to R374). -/

namespace Sys2Proof.Machine
namespace State

section
variable {s t : State} {c : Nat}

/-! ## A cluster's state -/

theorem nmSt_setNm_self (s : State) (c : Nat) (x : NmSt) : (s.setNm c x).nmSt c = x := tabGet_tabSet_self _ _ _ _
theorem setNm_fld (s : State) (c : Nat) (x : NmSt) (f : Fld) : (s.setNm c x).fld f = s.fld f := rfl
theorem setNm_flag (s : State) (c : Nat) (x : NmSt) (f : Fld) : (s.setNm c x).flag f = s.flag f := rfl
theorem setNm_regs (s : State) (c : Nat) (x : NmSt) : (s.setNm c x).regs = s.regs := rfl
theorem nmSt_put (s : State) (f : Fld) (v c : Nat) : (s.put f v).nmSt c = s.nmSt c := rfl

theorem ncPut_new {st : Nat} (h : s.nc c ≠ st) :
    s.ncPut c st = (s.put (NMW_NC_STATE_STATE c) st).setFlag (NMW_NC_EVT_STATE_CHG c) := if_neg h

theorem nc_evtPut (s : State) (c v i j : Nat) : (s.put ⟨rNMW_NC_EVT c, i, j⟩ v).nc c = s.nc c :=
  fld_put_other v (by simp only [rNMW_NC_STATE, rNMW_NC_EVT]; omega)

theorem nc_ncPut (s : State) (c : Nat) {st : Nat} (hst : st < 8) : (s.ncPut c st).nc c = st := by
  by_cases h : s.nc c = st
  · rw [ncPut, if_pos h, h]
  · rw [ncPut_new h]
    exact (nc_evtPut _ c 1 0 1).trans ((fld_put_same st (by decide)).trans (Nat.mod_eq_of_lt hst))

/-- A change of STATE raises STATE_CHG. -/
theorem ncPut_raises {st : Nat} (h : s.nc c ≠ st) : (s.ncPut c st).flag (NMW_NC_EVT_STATE_CHG c) = true := by
  rw [ncPut_new h]
  exact flag_setFlag_self _ (by decide : 0 + 1 ≤ 32) rfl

theorem ncPut_onlyRegs (s : State) (c st : Nat) : s.OnlyRegs (s.ncPut c st) [rNMW_NC_STATE c, rNMW_NC_EVT c] := by
  unfold ncPut
  split
  · exact .refl s _
  · exact ((OnlyRegs.refl s _).put (f := NMW_NC_STATE_STATE c) st List.mem_cons_self).put (f := NMW_NC_EVT_STATE_CHG c) 1
      (List.mem_cons_of_mem _ List.mem_cons_self)

theorem ncPut_nmSt (s : State) (c st k : Nat) : (s.ncPut c st).nmSt k = s.nmSt k :=
  (s.ncPut_onlyRegs c st).same (f := fun x => x.nmSt k) fun _ _ => rfl

theorem ncIs_of (hc : c < 16) (he : s.ncEnabled c = true) {st : Nat} (h : s.nc c = st) : s.ncIs c st = true := by
  simp [ncIs, hc, he, h]

theorem ncIs_not {st : Nat} (h : s.nc c ≠ st) : s.ncIs c st = false := by simp [ncIs, h]

/-! ## The ports of a cluster -/

theorem mem_ncPorts {p : Nat} : p ∈ s.ncPorts c ↔ 24 ≤ p ∧ p < 80 ∧ s.ncMember c p = true := by
  simp only [ncPorts, List.mem_filter, List.mem_map, List.mem_range]
  exact ⟨fun ⟨⟨i, hi, hp⟩, hm⟩ => ⟨by omega, by omega, hm⟩, fun ⟨h1, h2, hm⟩ => ⟨⟨p - 24, by omega, by omega⟩, hm⟩⟩

theorem member_ports {p : Nat} (h : s.ncMember c p = true) : 24 ≤ p ∧ p < 80 := by
  unfold ncMember at h
  rw [Bool.and_eq_true] at h
  obtain ⟨-, h⟩ := h
  split at h
  · omega
  · split at h
    · omega
    · split at h
      · omega
      · cases h

theorem mem_ncPorts_of_member {p : Nat} (h : s.ncMember c p = true) : p ∈ s.ncPorts c :=
  mem_ncPorts.mpr ⟨(member_ports h).1, (member_ports h).2, h⟩

theorem ncPorts_nodup (s : State) (c : Nat) : (s.ncPorts c).Nodup :=
  (List.Nodup.map (fun _ _ h => Nat.add_right_cancel h) List.nodup_range).filter _

/-- Steps at the ports of a list without repetition: those before port `p`, the one at it, and those after it. -/
theorem foldl_once {f : State → Nat → State} {l : List Nat} {p : Nat} (hl : l.Nodup) (hp : p ∈ l) (s : State) :
    ∃ l1 l2 : List Nat, p ∉ l1 ∧ p ∉ l2 ∧ (∀ q ∈ l1, q ∈ l) ∧ (∀ q ∈ l2, q ∈ l) ∧ l.foldl f s = l2.foldl f (f (l1.foldl f s) p) := by
  obtain ⟨l1, l2, rfl⟩ := List.append_of_mem hp
  have h := List.nodup_append.mp hl
  refine ⟨l1, l2, fun h1 => h.2.2 p h1 p List.mem_cons_self rfl, (List.nodup_cons.mp h.2.1).1,
    fun q hq => List.mem_append_left _ hq, fun q hq => List.mem_append_right _ (List.mem_cons_of_mem _ hq), ?_⟩
  rw [List.foldl_append, List.foldl_cons]

/-- A relation that every step of a list respects. -/
theorem foldl_relates {R : State → State → Prop} (hrefl : ∀ s, R s s) (htrans : ∀ {s t u}, R s t → R t u → R s u)
    {f : State → Nat → State} {l : List Nat} (h : ∀ s, ∀ q ∈ l, R s (f s q)) (s : State) : R s (l.foldl f s) := by
  induction l generalizing s with
  | nil => exact hrefl s
  | cons q l ih => exact htrans (h s q List.mem_cons_self) (ih (fun s r hr => h s r (List.mem_cons_of_mem _ hr)) _)

end
end State
end Sys2Proof.Machine
end

section
/-! PROOFS. Requests, Chimes, settling and the captures of network management (R371, R374, R380, R391, R392): O47. -/

namespace Sys2Proof.Machine
namespace State

section
variable {s : State} {c n : Nat}

/-! ## Requests (R371) -/

theorem exec_nmFwRequest {r : Requester} (hc : c < 16) (hr : s.reaches r (rNMW_NC_REQ c)) (hold : Bool) :
    exec (.nmFwRequest r c hold) s = .next (s.writeNmReq c hold) := by
  simp only [exec, execNmFwRequest, hc, if_true, gated_reaches hr]

/-- The FW bit of a cluster written. -/
theorem fwPut_flag (s : State) (c : Nat) (b : Bool) : (s.put (NMW_NC_REQ_FW c) (bitN b)).flag (NMW_NC_REQ_FW c) = b :=
  s.flag_put_bitN (by decide : 0 + 1 ≤ 32) rfl b

theorem fwPut_onlyRegs (s : State) (c v : Nat) : s.OnlyRegs (s.put (NMW_NC_REQ_FW c) v) [rNMW_NC_REQ c] :=
  (OnlyRegs.refl s _).put v List.mem_cons_self

theorem nc_fwPut (s : State) (c v : Nat) : (s.put (NMW_NC_REQ_FW c) v).nc c = s.nc c :=
  fld_put_other v (by simp only [rNMW_NC_STATE, rNMW_NC_REQ]; omega)

theorem writeNmReq_hold_new (hf : s.flag (NMW_NC_REQ_FW c) = false) (hn : s.nc c = ncNORMAL) :
    s.writeNmReq c true = (s.put (NMW_NC_REQ_FW c) 1).nmRestart c := by
  have hnc : (s.put (NMW_NC_REQ_FW c) (bitN true)).nc c = ncNORMAL := (s.nc_fwPut c _).trans hn
  simp only [writeNmReq, hf, if_true, Bool.false_eq_true, if_false, nmRequest, hnc]
  rfl

theorem writeNmReq_hold_again (hf : s.flag (NMW_NC_REQ_FW c) = true) : s.writeNmReq c true = s.put (NMW_NC_REQ_FW c) 1 := by
  simp only [writeNmReq, hf, if_true]
  rfl

theorem ncRequested_fwReleased (hl : s.flag (NMW_NC_REQ_LEDGER c) = false)
    (ht : s.fld64 (NMW_NC_TREQ_LO_TN c) (NMW_NC_TREQ_HI_TN c) = 0) : (s.put (NMW_NC_REQ_FW c) 0).ncRequested c = false := by
  have hfw : (s.put (NMW_NC_REQ_FW c) 0).flag (NMW_NC_REQ_FW c) = false := s.fwPut_flag c false
  have hledger : (s.put (NMW_NC_REQ_FW c) 0).flag (NMW_NC_REQ_LEDGER c) = false :=
    (congrArg (· == 1) (s.fld_put_next 0 (by decide) (by decide))).trans hl
  have hten : (s.put (NMW_NC_REQ_FW c) 0).fld64 (NMW_NC_TREQ_LO_TN c) (NMW_NC_TREQ_HI_TN c) = 0 := by
    rw [← ht, fld64, fld64, fld_put_addr, fld_put_addr]
    · simp only [NMW_NC_TREQ_HI_TN, rNMW_NC_TREQ_HI, NMW_NC_REQ_FW, rNMW_NC_REQ]; omega
    · simp only [NMW_NC_TREQ_LO_TN, rNMW_NC_TREQ_LO, NMW_NC_REQ_FW, rNMW_NC_REQ]; omega
  rw [ncRequested, hfw, hledger, hten]
  rfl

theorem writeNmReq_release (hf : s.flag (NMW_NC_REQ_FW c) = true) (h : (s.put (NMW_NC_REQ_FW c) 0).ncRequested c = false) :
    s.writeNmReq c false = (s.put (NMW_NC_REQ_FW c) 0).nmRestart c := by
  have h' : (s.put (NMW_NC_REQ_FW c) (bitN false)).ncRequested c = false := h
  simp only [writeNmReq, hf, if_true, Bool.false_eq_true, if_false, nmRelease, h']
  rfl

theorem nmRestart_rest {t : State} {as : List Nat} (h : s.OnlyRegs t as) (c : Nat) :
    { t.nmRestart c with regs := s.regs, nm := s.nm } = s := (congrArg (fun x : State => { x with nm := s.nm }) h.rest :)

theorem nmRestart_timerAt (s : State) (c : Nat) : ((s.nmRestart c).nmSt c).timerAt = s.ao := by rw [nmRestart, nmSt_setNm_self]

/-! ## Chimes (R380) -/

theorem linkUp_congr {t : State} (h : t.regs = s.regs) (p : Nat) : t.linkUp p = s.linkUp p := by
  unfold linkUp flag
  rw [fld_congr h, fld_congr h, fld_congr h, fld_congr h]

theorem can_setCan_ne (s : State) {m : Nat} (h : n ≠ m) (x : CanSt) : (s.setCan m x).can n = s.can n := tabGet_tabSet_ne _ _ _ h

theorem can_withFree (s : State) (k n : Nat) : ({ s with free := k } : State).can n = s.can n := rfl

theorem chimePut_regs (s : State) (c : Nat) (m : CanMsg) (p : Nat) : (s.chimePut c m p).regs = s.regs := by
  unfold chimePut
  split
  · rfl
  · dsimp only
    split
    · rw [setCan_regs]
    · rw [setCan_regs]

theorem chimePut_free (s : State) (c : Nat) (m : CanMsg) (p : Nat) : (s.chimePut c m p).free = s.free := by
  unfold chimePut
  split
  · rfl
  · dsimp only
    split
    · rw [setCan_free]
    · rw [setCan_free]

theorem chimePut_other (s : State) (c : Nat) (m : CanMsg) {p : Nat} (h : p ≠ 32 + n) : (s.chimePut c m p).can n = s.can n := by
  unfold chimePut
  split
  · rfl
  · dsimp only
    split
    · rw [can_setCan_ne _ (by omega)]
    · rw [can_setCan_ne _ (by omega)]

theorem chimePut_down (c : Nat) (m : CanMsg) {p : Nat} (h : s.linkUp p = false) : s.chimePut c m p = s := if_pos (.inr (.inr h))

/-- A Chime at a channel whose link is up. -/
theorem chimePut_up (c : Nat) (m : CanMsg) (hn : n < 32) (h : s.linkUp (32 + n) = true) :
    if (s.can n).txbuf.any (fun e => e.chime.isSome && e.onBus) then
      ((s.chimePut c m (32 + n)).can n).txbuf = (s.can n).txbuf ∧
        ((s.chimePut c m (32 + n)).can n).chimeDue = some ⟨m, 7, s.nowNs, false, some c, none, []⟩
    else ((s.chimePut c m (32 + n)).can n).txbuf =
      (s.can n).txbuf.filter (fun e => e.chime.isNone) ++ [⟨m, 7, s.nowNs, false, some c, none, []⟩] := by
  have hnot : ¬ (32 + n < 32 ∨ 64 ≤ 32 + n ∨ s.linkUp (32 + n) = false) := by
    rw [h]
    simp only [Bool.true_eq_false, or_false]
    omega
  unfold chimePut
  rw [if_neg hnot, Nat.add_sub_cancel_left]
  split
  · next hb => simp only [hb, if_true, can_setCan_self, and_self]
  · next hb => simp only [hb, Bool.false_eq_true, if_false, can_setCan_self]

/-- The Chime of a cluster put at every member port. -/
def chimed (s : State) (c : Nat) : State :=
  (s.ncPorts c).foldl (fun s p => s.chimePut c (s.chimeMsg c).2 p) (s.chimeMsg c).1

theorem exec_chimeTimer (hp : s.ncPassive c = false) (hs : (s.nmSt c).settling = false) (hi : s.ncIs c ncREPEAT = true) :
    ∃ m, exec (.chimeTimer c) s = .next ((s.ncPorts c).foldl (fun s p => s.chimePut c m p) { s with free := s.free + 1 }) ∧
      m.id = s.ncRec c 12 2 + s.ncRec c 2 1 ∧ m.dlc = 8 ∧ m.data.length = 8 ∧ byteAt m.data 0 = s.ncRec c 2 1 % 256 := by
  refine ⟨(s.chimeMsg c).2, ?_, rfl, rfl, rfl, rfl⟩
  simp only [exec, execChimeTimer, hp, hs, hi, and_self, true_or, if_true]
  rfl

theorem chimes_regs (m : CanMsg) (l : List Nat) (s : State) : (l.foldl (fun s p => s.chimePut c m p) s).regs = s.regs :=
  foldl_same State.regs (fun s _ _ => s.chimePut_regs c m _) s

theorem chimes_other (m : CanMsg) {l : List Nat} (h : 32 + n ∉ l) (s : State) :
    (l.foldl (fun s p => s.chimePut c m p) s).can n = s.can n :=
  foldl_same (fun s => s.can n) (fun s _ hq => s.chimePut_other c m fun e => h (e ▸ hq)) s

/-- The Chime at member channel `n`. -/
theorem chimes_at (m : CanMsg) {l : List Nat} (hl : l.Nodup) (hn : n < 32) (hmem : 32 + n ∈ l) (hup : s.linkUp (32 + n) = true) :
    ∃ e : CanTx, (if (s.can n).txbuf.any (fun e => e.chime.isSome && e.onBus) then
        ((l.foldl (fun s p => s.chimePut c m p) s).can n).txbuf = (s.can n).txbuf ∧
          ((l.foldl (fun s p => s.chimePut c m p) s).can n).chimeDue = some e
      else ((l.foldl (fun s p => s.chimePut c m p) s).can n).txbuf = (s.can n).txbuf.filter (fun e => e.chime.isNone) ++ [e]) ∧
      e.chime = some c ∧ e.onBus = false ∧ e.msg = m := by
  obtain ⟨l1, l2, h1, h2, -, -, hfold⟩ := foldl_once (f := fun s p => s.chimePut c m p) hl hmem s
  have hcan : (l1.foldl (fun s p => s.chimePut c m p) s).can n = s.can n := chimes_other m h1 s
  have hup1 : (l1.foldl (fun s p => s.chimePut c m p) s).linkUp (32 + n) = true :=
    (linkUp_congr (chimes_regs m l1 s) _).trans hup
  have hput := chimePut_up c m hn hup1
  rw [hcan] at hput
  rw [hfold, chimes_other m h2]
  exact ⟨_, hput, rfl, rfl, rfl⟩

/-! ## The end of SETTLE_US (R374) -/

/-- The registers that the link of a channel other than `n` does not write. -/
def besideLinks (n a : Nat) : Prop :=
  a / 0x100000 ≠ 0x15 ∧ a / 0x100000 ≠ 0x16 ∨ 0x1500000 + 0x8000 * n ≤ a ∧ a < 0x1500000 + 0x8000 * (n + 1)

/-- What settling another port leaves for CAN channel `n`. -/
structure SettlesBeside (n : Nat) (s t : State) : Prop where
  active : t.active = s.active
  nm : t.nm = s.nm
  can : t.can n = s.can n
  regs : ∀ a, besideLinks n a → t.reg a = s.reg a

namespace SettlesBeside

variable {t u : State}

theorem refl (s : State) : SettlesBeside n s s := ⟨rfl, rfl, rfl, fun _ _ => rfl⟩

theorem trans (h : SettlesBeside n s t) (k : SettlesBeside n t u) : SettlesBeside n s u :=
  ⟨k.active.trans h.active, k.nm.trans h.nm, k.can.trans h.can, fun a ha => (k.regs a ha).trans (h.regs a ha)⟩

theorem put (h : SettlesBeside n s t) {f : Fld} (v : Nat) (hf : ¬ besideLinks n f.addr) : SettlesBeside n s (t.put f v) :=
  h.trans ⟨rfl, rfl, rfl, fun _ ha => reg_put_ne t f v fun e => hf (e ▸ ha)⟩

theorem setPort (h : SettlesBeside n s t) (p : Nat) (x : PortSt) : SettlesBeside n s (t.setPort p x) :=
  h.trans ⟨rfl, rfl, rfl, fun _ _ => rfl⟩

theorem setCan (h : SettlesBeside n s t) {m : Nat} (hm : n ≠ m) (x : CanSt) : SettlesBeside n s (t.setCan m x) :=
  h.trans ⟨rfl, rfl, can_setCan_ne t hm x, fun _ _ => rfl⟩

theorem fld (h : SettlesBeside n s t) {f : Fld} (hf : besideLinks n f.addr) : t.fld f = s.fld f := by
  rw [State.fld, State.fld, h.regs _ hf]

end SettlesBeside

theorem canReg_not_beside {m a : Nat} (hm : m < 32) (hmn : m ≠ n) (ha : a < 0x8000) : ¬ besideLinks n (0x1500000 + a + 0x8000 * m) := by
  unfold besideLinks
  omega

theorem linReg_not_beside (hn : n < 32) {m a : Nat} (hm : m < 16) (ha : a < 0x10000) : ¬ besideLinks n (0x1600000 + a + 0x10000 * m) := by
  unfold besideLinks
  omega

theorem linkUpNow_settlesBeside (hn : n < 32) {p : Nat} (h32 : 32 ≤ p) (h80 : p < 80) (hp : p ≠ 32 + n) (s : State) :
    SettlesBeside n s (s.linkUpNow p) := by
  cases hup : s.linkUp p with
  | true => rw [linkUpNow_of_up hup]; exact .refl s
  | false =>
    by_cases h64 : p < 64
    · obtain ⟨m, rfl⟩ := Nat.exists_eq_add_of_le h32
      have hm : m < 32 := by omega
      have hmn : m ≠ n := by omega
      obtain ⟨x, hx⟩ := linkUpNow_can hm hup
      rw [hx]
      exact ((((SettlesBeside.refl s).put 1 (canReg_not_beside (a := 0x24) hm hmn (by decide))).put 0
        (canReg_not_beside (a := 0x24) hm hmn (by decide))).put 1 (canReg_not_beside (a := 0x28) hm hmn (by decide))).setPort _ x
    · obtain ⟨m, rfl⟩ := Nat.exists_eq_add_of_le (Nat.le_of_not_lt h64)
      have hm : m < 16 := by omega
      obtain ⟨x, hx⟩ := linkUpNow_lin hm hup
      rw [hx]
      exact (((SettlesBeside.refl s).put 1 (linReg_not_beside (a := 0xC) hn hm (by decide))).put 1
        (linReg_not_beside (a := 0x10) hn hm (by decide))).setPort _ x

/-- A CAN channel joins the bus at once. -/
def joined (s : State) (p : Nat) : State :=
  if 32 ≤ p ∧ p < 64 then s.setCan (p - 32) { s.can (p - 32) with joining := false } else s

theorem settledPort_eq (s : State) (p : Nat) :
    s.settledPort p = if 32 ≤ p ∧ (s.joined p).channelMayUp p then (s.joined p).linkUpNow p else s.joined p := rfl

theorem settledPort_settlesBeside (hn : n < 32) {p : Nat} (h80 : p < 80) (hp : p ≠ 32 + n) (s : State) :
    SettlesBeside n s (s.settledPort p) := by
  have hjoin : SettlesBeside n s (s.joined p) := by
    unfold joined
    split
    · exact (SettlesBeside.refl s).setCan (by omega) _
    · exact .refl s
  rw [settledPort_eq]
  split
  · next h => exact hjoin.trans (linkUpNow_settlesBeside hn h.1 h80 hp _)
  · exact hjoin

/-- Whether a channel may come up, by what settling another port leaves. -/
theorem SettlesBeside.channelMayUp {t : State} (hn : n < 32) (h : SettlesBeside n s t) :
    t.channelMayUp (32 + n) = s.channelMayUp (32 + n) := by
  have hfld {f : Fld} (hf : besideLinks n f.addr) : t.fld f = s.fld f := h.fld hf
  have hnc (c : Nat) (hc : c < 16) : t.nc c = s.nc c := hfld (.inl (by simp only [NMW_NC_STATE_STATE, rNMW_NC_STATE]; omega))
  have hcluster : t.clusterOf (32 + n) = s.clusterOf (32 + n) := by simp only [clusterOf, ncMember, ncEnabled, ncRec, h.active]
  have hawake : t.ncAwake (32 + n) = s.ncAwake (32 + n) := by
    unfold ncAwake
    rw [hcluster]
    split
    · next c hc => rw [hnc c (List.mem_range.mp (List.mem_of_find?_eq_some hc))]
    · rfl
  have hsettling : t.ncSettling (32 + n) = s.ncSettling (32 + n) := by simp only [ncSettling, hcluster, nmSt, h.nm]
  have hon : t.portOn (32 + n) = s.portOn (32 + n) := by
    rw [portOn, portOn, portEnabled, portEnabled, domOn, domOn, h.active, hfld (.inl (by decide))]
  have hctl : t.flag (CAN_CTL_ADMIN_DOWN n) = s.flag (CAN_CTL_ADMIN_DOWN n) :=
    congrArg (· == 1) (hfld (.inr (by simp only [CAN_CTL_ADMIN_DOWN, rCAN_CTL]; omega)))
  have hst : t.fld (CAN_STATUS_STATE n) = s.fld (CAN_STATUS_STATE n) :=
    hfld (.inr (by simp only [CAN_STATUS_STATE, rCAN_STATUS]; omega))
  unfold State.channelMayUp
  rw [hon, hawake, hsettling, if_pos (by omega), if_pos (by omega), Nat.add_sub_cancel_left, hctl, hst, h.can]

theorem SettlesBeside.linkUp {t : State} (hn : n < 32) (h : SettlesBeside n s t) : t.linkUp (32 + n) = s.linkUp (32 + n) := by
  rw [linkUp_can t hn, linkUp_can s hn]
  exact congrArg (· == 1) (h.fld (.inr (by simp only [CAN_STATUS_LINK, rCAN_STATUS]; omega)))

/-- The member channel itself: it has joined, and its link is up unless something holds it. -/
theorem settledPort_self (hn : n < 32) (s : State) : ((s.settledPort (32 + n)).can n).joining = false ∧
    ((s.settledPort (32 + n)).linkUp (32 + n) = true ∨ (s.settledPort (32 + n)).channelMayUp (32 + n) = false) := by
  have heq : s.settledPort (32 + n) = (s.setCan n { s.can n with joining := false }).upIfFree (32 + n) := by
    have hjoin : s.joined (32 + n) = s.setCan n { s.can n with joining := false } := by
      rw [joined, if_pos (by omega), Nat.add_sub_cancel_left]
    simp only [settledPort_eq, hjoin, upIfFree, Nat.le_add_right, true_and]
  rw [heq]
  refine ⟨?_, upIfFree_can _ hn⟩
  rw [can_upIfFree _ hn, can_setCan_self]

theorem settledPorts_beside (hn : n < 32) {l : List Nat} (h80 : ∀ p ∈ l, p < 80) (h : 32 + n ∉ l) (s : State) :
    SettlesBeside n s (l.foldl State.settledPort s) :=
  foldl_relates SettlesBeside.refl SettlesBeside.trans (fun t q hq => settledPort_settlesBeside hn (h80 q hq) (fun e => h (e ▸ hq)) t) s

theorem settledPort_nm {p : Nat} (h80 : p < 80) (s : State) : (s.settledPort p).nm = s.nm := by
  obtain ⟨m, hm, hp⟩ : ∃ m, m < 32 ∧ p ≠ 32 + m := by
    by_cases h : p = 32
    · exact ⟨1, by decide, by omega⟩
    · exact ⟨0, by decide, by omega⟩
  exact (settledPort_settlesBeside hm h80 hp s).nm

theorem settled_nmSt (s : State) (c : Nat) : (s.settled c).nmSt c = { s.nmSt c with settling := false } := by
  have hnm : (s.settled c).nm = (s.setNm c { s.nmSt c with settling := false }).nm :=
    foldl_same State.nm (fun t q hq => settledPort_nm (mem_ncPorts.mp hq).2.1 t) _
  exact (congrArg (tabGet NmSt.reset · c) hnm).trans (nmSt_setNm_self s c _)

theorem settled_channel (hn : n < 32) (hm : s.ncMember c (32 + n) = true) : ((s.settled c).can n).joining = false ∧
    ((s.settled c).linkUp (32 + n) = true ∨ (s.settled c).channelMayUp (32 + n) = false) := by
  obtain ⟨l1, l2, -, h2, -, hsub, hfold⟩ := foldl_once (f := State.settledPort) (s.ncPorts_nodup c) (mem_ncPorts_of_member hm)
    (s.setNm c { s.nmSt c with settling := false })
  have hbeside := settledPorts_beside hn (fun p hp => (mem_ncPorts.mp (hsub p hp)).2.1) h2
    ((l1.foldl State.settledPort (s.setNm c { s.nmSt c with settling := false })).settledPort (32 + n))
  obtain ⟨hjoin, hup⟩ := settledPort_self hn (l1.foldl State.settledPort (s.setNm c { s.nmSt c with settling := false }))
  rw [settled, hfold, hbeside.can, hbeside.linkUp hn, hbeside.channelMayUp hn]
  exact ⟨hjoin, hup⟩

/-! ## The schedule of a commander, and the captures (R374, R391, R392) -/

theorem setLin_rest {t : State} {as : List Nat} (h : s.OnlyRegs t as) (n : Nat) (x : LinSt) :
    { t.setLin n x with regs := s.regs, lins := s.lins } = s := (congrArg (fun x : State => { x with lins := s.lins }) h.rest :)

theorem exec_linScheduleRestart_idle (h : (s.lin n).restart = false) : exec (.linScheduleRestart n) s = .next s := by
  simp only [exec, execLinScheduleRestart, h, Bool.false_eq_true, and_false, if_false]

theorem exec_linScheduleRestart_runs (hn : n < 16) (h : (s.lin n).restart = true) (hr : s.flag (LIN_CFG_ROLE n) = true)
    (hs : s.flag (LIN_CTL_SCHED_RUN n) = true) : exec (.linScheduleRestart n) s = .next ((s.put (LIN_STATUS_RUNNING n) 0).setLin n
      { s.lin n with
        restart := false, pulse := false, run := some true, sleepCmd := false, sel := some (s.fld (LIN_CTL_SCHED_SEL n)) }) := by
  simp only [exec, execLinScheduleRestart, hn, h, hr, hs, and_self, if_true]

theorem exec_linScheduleRestart_responder (hn : n < 16) (h : (s.lin n).restart = true) (hr : s.flag (LIN_CFG_ROLE n) = false) :
    exec (.linScheduleRestart n) s = .next (s.setLin n { s.lin n with restart := false, pulse := false }) := by
  simp only [exec, execLinScheduleRestart, hn, h, hr, and_self, if_true, Bool.false_eq_true, false_and, if_false]

/-- Both counts captured. -/
theorem writeAoSnap_shows (s : State) : s.writeAoSnap.fld64 NMW_AO_SNAP_AO_LO_AO NMW_AO_SNAP_AO_HI_AO = s.ao % 2 ^ 48 ∧
    s.writeAoSnap.fld64 NMW_AO_SNAP_CT_LO_CT48 NMW_AO_SNAP_CT_HI_CT48 = s.nowCt := by
  have hct : s.nowCt < 2 ^ 48 := Nat.mod_lt _ (by decide)
  unfold writeAoSnap
  refine ⟨?_, ?_⟩
  all_goals
    simp (disch := decide) only [put64_eq, fld64, fld_put_same, fld_put_other, NMW_AO_SNAP_AO_LO_AO, NMW_AO_SNAP_AO_HI_AO,
      NMW_AO_SNAP_CT_LO_CT48, NMW_AO_SNAP_CT_HI_CT48]
    omega

theorem writeAoSnap_onlyRegs (s : State) : s.OnlyRegs s.writeAoSnap
    [rNMW_AO_SNAP_AO_LO, rNMW_AO_SNAP_AO_HI, rNMW_AO_SNAP_CT_LO, rNMW_AO_SNAP_CT_HI] :=
  ((((OnlyRegs.refl s _).put (f := NMW_AO_SNAP_AO_LO_AO) _ (by decide)).put (f := NMW_AO_SNAP_AO_HI_AO) _ (by decide)).put
    (f := NMW_AO_SNAP_CT_LO_CT48) _ (by decide)).put (f := NMW_AO_SNAP_CT_HI_CT48) _ (by decide)

end
end State

/-- Settles O47: a request by what the cluster holds, and the ports of a cluster one after another. -/
theorem requestsChimesAndCaptures : Obligations.RequestsChimesAndCaptures := by
  intro s r c n hc hn
  refine ⟨fun hr hnorm => ⟨fun hf => ?_, fun hf => ?_, fun hf hl ht => ?_⟩, fun hp hs hi => ?_, fun h => ?_, fun h => ?_, fun h => ?_,
    fun hn h hr hs => ?_, fun hn h hr => ?_, State.exec_linScheduleRestart_idle, fun hr hao => ?_, fun hr => ?_⟩
  · rw [State.exec_nmFwRequest hc hr, State.writeNmReq_hold_new hf hnorm]
    exact ⟨_, rfl, s.fwPut_flag c true, State.nmRestart_timerAt _ c, State.nmRestart_rest (s.fwPut_onlyRegs c 1) c,
      (s.fwPut_onlyRegs c 1).regs.same (State.setNm_regs _ c _)⟩
  · rw [State.exec_nmFwRequest hc hr, State.writeNmReq_hold_again hf]
    exact ⟨_, rfl, s.fwPut_flag c true, s.fwPut_onlyRegs c 1⟩
  · have hreq := State.ncRequested_fwReleased (c := c) hl ht
    rw [State.exec_nmFwRequest hc hr, State.writeNmReq_release hf hreq]
    exact ⟨_, rfl, hreq, State.nmRestart_timerAt _ c⟩
  · obtain ⟨m, hexec, hid, hdlc, hlen, hbyte⟩ := State.exec_chimeTimer hp hs hi
    refine ⟨_, hexec, ?_, fun hm hup => ?_, fun h => ?_, State.chimes_regs m _ _⟩
    · exact State.foldl_same State.free (fun t q _ => t.chimePut_free c m q) _
    · obtain ⟨e, he, hch, hbus, hmsg⟩ := State.chimes_at (s := { s with free := s.free + 1 }) (c := c) m (s.ncPorts_nodup c) hn
        (State.mem_ncPorts_of_member hm) hup
      subst hmsg
      exact ⟨e, he, hch, hbus, hid, hdlc, hlen, hbyte⟩
    · by_cases hmem : 32 + n ∈ s.ncPorts c
      · have hup := h.resolve_left (by rw [(State.mem_ncPorts.mp hmem).2.2]; decide)
        obtain ⟨l1, l2, h1, h2, -, -, hfold⟩ := State.foldl_once (f := fun s p => s.chimePut c m p) (s.ncPorts_nodup c) hmem
          { s with free := s.free + 1 }
        have hdown := (State.linkUp_congr (State.chimes_regs (c := c) m l1 { s with free := s.free + 1 }) (32 + n)).trans hup
        rw [hfold, State.chimes_other m h2, State.chimePut_down c m hdown, State.chimes_other m h1,
          State.can_withFree]
      · rw [State.chimes_other m hmem, State.can_withFree]
  · simp only [exec, execChimeTimer]
    rw [if_neg]
    rintro ⟨hp, hs, -⟩
    rcases h with h | h
    · exact absurd (h.symm.trans hp) (by decide)
    · exact absurd (h.symm.trans hs) (by decide)
  · simp only [exec, execSettleExpire, hc, h, and_self, if_true]
    exact ⟨_, rfl, by rw [State.settled_nmSt], State.settled_channel hn⟩
  · simp only [exec, execSettleExpire, h, Bool.false_eq_true, and_false, if_false]
  · rw [State.exec_linScheduleRestart_runs hn h hr hs]
    have hstate := State.lin_setLin_self (s.put (LIN_STATUS_RUNNING n) 0) n { s.lin n with
      restart := false, pulse := false, run := some true, sleepCmd := false, sel := some (s.fld (LIN_CTL_SCHED_SEL n)) }
    have hput : s.OnlyRegs (s.put (LIN_STATUS_RUNNING n) 0) [rLIN_STATUS n] := (State.OnlyRegs.refl s _).put 0 List.mem_cons_self
    refine ⟨_, rfl, ?_, ?_, ?_, ?_, ?_, ?_, State.setLin_rest hput n _, hput.regs.same (State.setLin_regs _ n _)⟩
    · rw [hstate]
    · rw [hstate]
    · rw [hstate]
    · rw [hstate]
    · rw [hstate]
    · rw [State.flag_setLin]
      exact State.flag_clear_self s (by decide : 27 + 1 ≤ 32) rfl
  · rw [State.exec_linScheduleRestart_responder hn h hr]
    exact ⟨_, rfl, State.lin_setLin_self s n _, rfl⟩
  · simp only [exec, execNmwAoSnap, State.gated_reaches hr]
    obtain ⟨hshow, hct⟩ := s.writeAoSnap_shows
    exact ⟨_, rfl, hshow.trans (Nat.mod_eq_of_lt hao), hct, s.writeAoSnap_onlyRegs⟩
  · simp only [exec, execWrecPop, State.gated_reaches hr, State.popWrec]

end Sys2Proof.Machine
end

section
/-! SUPPORT. What a lost link leaves of the other links and of the NM clusters (R85 to R91, R375). -/

namespace Sys2Proof.Machine
namespace State

/-! ## Fields of the links and of the clusters -/

/-- A field of the link registers of segments, of the CAN and LIN channels, or of NMW, but not of the half that a recovery entry without
bounds could reach (R319). -/
def linkField (g : Fld) : Prop :=
  g.lsb + g.wid ≤ 32 ∧ 0x1400000 ≤ g.addr ∧ g.addr < 0x1800000 ∧ (g.addr < 0x1500000 → g.addr % 0x10000 = 0xC) ∧
    (g.addr % 32 = 4 → 16 ≤ g.lsb)

/-- The clusters, and the fields of links and clusters, are the same. -/
structure KeepsLinks (s t : State) : Prop where
  nm : t.nm = s.nm
  flds : ∀ g, linkField g → t.fld g = s.fld g

/-- A register outside those blocks. -/
def offLinks (a : Nat) : Prop := a < 0x1400000 ∨ 0x1800000 ≤ a

theorem offLinks_above {b k : Nat} (h : 0x1800000 ≤ b) : offLinks (b + k) := .inr (Nat.le_add_right_of_le h)

namespace KeepsLinks

theorem refl (s : State) : s.KeepsLinks s := ⟨rfl, fun _ _ => rfl⟩

variable {s t u : State}

theorem trans (h : s.KeepsLinks t) (k : t.KeepsLinks u) : s.KeepsLinks u :=
  ⟨k.nm.trans h.nm, fun g hg => (k.flds g hg).trans (h.flds g hg)⟩

/-- A change beside the register file and the clusters. -/
theorem same (h : s.KeepsLinks t) (hn : u.nm = t.nm) (hr : u.regs = t.regs) : s.KeepsLinks u :=
  h.trans ⟨hn, fun g _ => fld_congr hr g⟩

theorem write (h : s.KeepsLinks t) {f : Fld} (v : Nat) (hf : ∀ g, linkField g → apart f g) : s.KeepsLinks (t.put f v) :=
  h.trans ⟨rfl, fun g hg => fld_put_apart t v hg.1 (hf g hg)⟩

theorem put (h : s.KeepsLinks t) {f : Fld} (v : Nat) (hf : offLinks f.addr) : s.KeepsLinks (t.put f v) := by
  refine h.write v fun g ⟨_, hlo, hhi, _⟩ => .inl fun e => ?_
  rw [e] at hlo hhi
  exact hf.elim (fun h => Nat.not_le.mpr h hlo) fun h => Nat.not_lt.mpr h hhi

theorem ite {c : Prop} [Decidable c] (ht : s.KeepsLinks t) (hu : s.KeepsLinks u) : s.KeepsLinks (if c then t else u) := by
  split
  · exact ht
  · exact hu

theorem foldl {α : Type} {f : State → α → State} {l : List α} (hf : ∀ s : State, ∀ x ∈ l, s.KeepsLinks (f s x)) (s : State) :
    s.KeepsLinks (l.foldl f s) :=
  List.foldlRecOn l f (motive := fun t => s.KeepsLinks t) (refl s) fun t ht x hx => ht.trans (hf t x hx)

theorem of_framesBack (h : s.framesBack t = s) : s.KeepsLinks t :=
  (refl s).same (congrArg State.nm h :) (congrArg State.regs h :)

end KeepsLinks

/-! ## Capture and release (R178, R194) -/

section
variable (s : State)

theorem dmaWrite_keepsLinks (tn a : Nat) (bs : List Byte) : s.KeepsLinks (s.dmaWrite tn a bs) := by
  unfold dmaWrite
  exact .ite ((KeepsLinks.refl s).same rfl rfl) ((KeepsLinks.refl s).same rfl rfl)

theorem capCount_keepsLinks : s.KeepsLinks s.capCount := by
  have hrate : ∀ x, s.KeepsLinks { s with capRate := x } := fun x => (KeepsLinks.refl s).same rfl rfl
  exact (hrate _).put _ (.inr (by decide))

theorem capPut_keepsLinks (off : Nat) (bs : List Byte) : s.KeepsLinks (s.capPut off bs) := by
  unfold capPut
  exact .ite ((KeepsLinks.refl s).same rfl rfl) ((KeepsLinks.refl s).same rfl rfl)

theorem capRecord_keepsLinks (mk : Nat → List Byte) (len : Nat) (rule : Option Nat) : s.KeepsLinks (s.capRecord mk len rule) := by
  have hroom : s.KeepsLinks (if s.flag CAP_CTL_MODE then s.capRoom len else s) := by
    unfold capRoom
    exact .ite (.ite (.refl s) (((KeepsLinks.refl s).put _ (.inr (by decide))).put _ (.inr (by decide)))) (.refl s)
  have hhead : ∀ (u : State) off bs v, u.KeepsLinks ((u.capCount.capPut off bs).put CAP_HEAD_HEAD v) := fun u off bs v =>
    (u.capCount_keepsLinks.trans (capPut_keepsLinks _ off bs)).put v (.inr (by decide))
  have hrule (r : Nat) : offLinks (rCAP_RULE_CNT r) := offLinks_above (by decide)
  unfold capRecord
  refine .ite ((KeepsLinks.refl s).put _ (.inr (by decide))) ?_
  refine .ite ((hroom.put _ (.inr (by decide))).put _ (.inr (by decide))) ?_
  cases rule with
  | none => exact .ite ((hroom.trans (hhead _ _ _ _)).put _ (.inr (by decide))) (hroom.trans (hhead _ _ _ _))
  | some r =>
    exact .ite (((hroom.trans (hhead _ _ _ _)).put _ (hrule r)).put _ (.inr (by decide))) ((hroom.trans (hhead _ _ _ _)).put _ (hrule r))

theorem capTenant_keepsLinks (tn : Nat) (mk : Nat → List Byte) (len rule : Nat) : s.KeepsLinks (s.capTenant tn mk len rule) := by
  have hrule : offLinks (rCAP_RULE_CNT rule) := offLinks_above (by decide)
  have hhead : offLinks (rTNW_CAP_HEAD tn) := offLinks_above (by decide)
  have htail : offLinks (rTNW_CAP_TAIL tn) := offLinks_above (by decide)
  unfold capTenant
  split
  · exact .refl s
  · refine .ite ((KeepsLinks.refl s).put _ (.inr (by decide))) ?_
    refine .ite (((KeepsLinks.refl s).put _ (.inr (by decide))).put _ (.inr (by decide))) ?_
    have hroom : ∀ (c : Prop) [Decidable c] v,
        s.KeepsLinks (if c then s else (s.put (TNW_CAP_TAIL_TAIL tn) v).setFlag CAP_EVT_WRAP) := fun c _ v =>
      .ite (.refl s) (((KeepsLinks.refl s).put v htail).put _ (.inr (by decide)))
    exact ((((hroom _ _).trans (capCount_keepsLinks _)).trans ((dmaWrite_keepsLinks _ _ _ _).trans
      (dmaWrite_keepsLinks _ _ _ _))).put _ hhead).put _ hrule

theorem capture_keepsLinks (point pcode port : Nat) (bs : List Byte) (outer : Bool) (reason : Nat) (stream : Option Nat)
    (tc : Nat) (time : List TbTime) : s.KeepsLinks (s.capture point pcode port bs outer reason stream tc time) := by
  have hsample : ∀ x, s.KeepsLinks { s with capSample := x } := fun x => (KeepsLinks.refl s).same rfl rfl
  unfold capture
  refine .ite (.refl s) ?_
  split
  · exact .refl s
  · refine .ite (hsample _) (.ite ((hsample _).trans (capRecord_keepsLinks _ _ _ _)) ?_)
    split
    · exact (hsample _).trans (capTenant_keepsLinks _ _ _ _ _)
    · exact (hsample _).trans (capRecord_keepsLinks _ _ _ _)

theorem setPlane_keepsLinks (pl : Plane) (x : PlaneSt) : s.KeepsLinks (s.setPlane pl x) :=
  (KeepsLinks.refl s).same (setPlane_nm s pl x) (setPlane_regs s pl x)

theorem drop_keepsLinks (f : Frame) (reason : Nat) : s.KeepsLinks (s.drop f reason) := by
  have hunmark : ∀ u : State, u.KeepsLinks (u.unmark f.plane f.pool f.buf) := fun u => (KeepsLinks.refl u).same rfl rfl
  have hrelease : ∀ u : State, u.KeepsLinks (u.release f) := fun u => by
    unfold release freeBuf
    exact .ite (hunmark u) ((hunmark u).trans (setPlane_keepsLinks _ _ _))
  exact (s.capture_keepsLinks _ _ _ _ _ _ _ _ _).trans (hrelease _)

/-! ## A port flushed (R89) -/

theorem consumeMarker_keepsLinks (c gen p : Nat) : s.KeepsLinks (s.consumeMarker c gen p) := by
  have hctx : ∀ (u : State) x, u.KeepsLinks (u.setCtx c x) := fun u x => (KeepsLinks.refl u).same rfl rfl
  have hunhold : ∀ x pl l, s.KeepsLinks ((s.setCtx c x).unhold pl p l) := fun x pl l =>
    (hctx s x).trans (.of_framesBack (framesBack_unhold _ _ pl p l))
  unfold consumeMarker
  refine .ite ?_ (.refl s)
  split
  · refine .ite ?_ (hctx s _)
    unfold releasePort ctxSettle
    exact .ite ((hunhold _ _ _).trans (hctx _ _)) (hunhold _ _ _)
  · exact .refl s

theorem flushPort_keepsLinks {p : Nat} (hp : p < 256) (reason : Nat) : s.KeepsLinks (s.flushPort p reason).1 := by
  have hentry (pl : Plane) (q : Nat) (u : State) (e : QEntry) : u.KeepsLinks (u.flushEntry pl q reason e) := by
    cases e with
    | frame f => exact u.drop_keepsLinks f reason
    | placeholder n _ _ => exact u.setPlane_keepsLinks pl _
    | marker c g => exact u.consumeMarker_keepsLinks c g q
  have hqueue (u : State) (pl : Plane) (q : Nat) (hq : q < 2048) : u.KeepsLinks (u.flushQueue pl q reason).1 := by
    have hdeficit : offLinks (rSCH_QDEFICIT .A q) := .inl (by simp only [rSCH_QDEFICIT, half]; omega)
    have hentries : ∀ x (l : List QEntry), u.KeepsLinks (l.foldl (fun v e => v.flushEntry pl (q / 8) reason e) (u.setPlane pl x)) :=
      fun x l => (u.setPlane_keepsLinks pl x).trans (.foldl (fun v e _ => hentry pl (q / 8) v e) _)
    exact .ite (hentries _ _) (((hentries _ _).put _ hdeficit).put _ hdeficit)
  unfold flushPort
  refine List.foldlRecOn (List.range 16) _ (motive := fun r : State × Nat => s.KeepsLinks r.1) (.refl s) fun r hr i _ => ?_
  exact hr.trans (hqueue _ _ _ (by omega))

theorem dropUnpack_keepsLinks (u : Option Unpack) : s.KeepsLinks (s.dropUnpack u) := by
  cases u with
  | none => exact .refl s
  | some u => exact s.drop_keepsLinks u.frame 0x0B

theorem setPort_keepsLinks (p : Nat) (x : PortSt) : s.KeepsLinks (s.setPort p x) := (KeepsLinks.refl s).same rfl rfl

/-! ## A frame cut in transmission on a segment (R86, R319) -/

theorem txReport_keepsLinks (x : TxReport) (tn : Option Nat) : s.KeepsLinks (s.txReport x tn) := by
  unfold txReport
  split
  · refine .ite (.refl s) (.ite ((KeepsLinks.refl s).put _ (offLinks_above (by decide))) ((KeepsLinks.refl s).same rfl rfl))
  · have htxts (l : List TxReport) : s.KeepsLinks { s with txts := l } := (KeepsLinks.refl s).same rfl rfl
    exact .ite (((KeepsLinks.refl s).put _ (.inl (by decide))).put _ (.inl (by decide))) ((htxts _).put _ (.inl (by decide)))

/-- A recovery entry writes its sequence number into the lower half of a register at 4 modulo 32. -/
theorem recovSeq_apart (e : Nat) (g : Fld) (h : linkField g) : apart (FRE_REC_STATE_RECOV_SEQ .A e) g := by
  obtain ⟨-, -, -, -, h4⟩ := h
  by_cases heq : g.addr = rFRE_REC_STATE .A e
  · refine .inr (.inl (h4 ?_))
    rw [heq]
    simp only [rFRE_REC_STATE, half]
    omega
  · exact .inl heq

theorem frerUndo_keepsLinks (u : FrerUndo) : s.KeepsLinks (s.frerUndo u) := by
  unfold frerUndo
  refine .ite (.ite ((KeepsLinks.refl s).write _ (recovSeq_apart u.entry)) (.refl s)) (.ite ?_ (.refl s))
  exact (KeepsLinks.refl s).same rfl rfl

theorem cutTx_keepsLinks (p : Nat) (t : TxFrame) (reason : Nat) : s.KeepsLinks (s.cutTx p t reason) := by
  have hundo (u : State) : u.KeepsLinks (match t.undo with
      | some x => u.frerUndo x
      | none => u) := by
    split
    · exact u.frerUndo_keepsLinks _
    · exact .refl u
  have hreport (u : State) : u.KeepsLinks (match t.report with
      | some (r, tn) => u.txReport { r with aborted := true } tn
      | none => u) := by
    split
    · exact u.txReport_keepsLinks _ _
    · exact .refl u
  have htwins : s.KeepsLinks (if t.frame.twinned then s.setPort p { s.port p with twins := (s.port p).twins.erase t.frame.tag } else s) :=
    .ite (s.setPort_keepsLinks p _) (.refl s)
  exact ((htwins.trans (hundo _)).trans (hreport _)).trans (drop_keepsLinks _ _ _)

/-- A field of a segment's registers beside its link register. -/
theorem segment_apart {f : Fld} {m a : Nat} (hm : m < 8) (ha : a < 0x10000) (hc : a ≠ 0xC) (hf : f.addr = 0x1400000 + a + 0x10000 * m) (g : Fld)
    (hg : linkField g) : apart f g := by
  obtain ⟨-, -, -, h14, -⟩ := hg
  refine .inl fun e => ?_
  rw [e] at h14
  omega

theorem abortPort_keepsLinks {m : Nat} (hm : m < 8) : s.KeepsLinks (s.abortPort (24 + m)) := by
  have hone (u : State) (o : Option TxFrame) : u.KeepsLinks (match o with
      | some t => (u.cutTx (24 + m) t 0x0B).countAbort (24 + m)
      | none => u) := by
    split
    · next t =>
      refine (u.cutTx_keepsLinks (24 + m) t 0x0B).trans ?_
      rw [countAbort, if_neg (by omega), if_pos (by omega), Nat.add_sub_cancel_left]
      exact (KeepsLinks.refl _).write _ (segment_apart (a := 0x110) hm (by decide) (by decide) rfl)
    · exact .refl u
  exact ((s.setPort_keepsLinks _ _).trans (hone _ _)).trans (hone _ _)

/-! ## A link goes down (R85 to R89, R347) -/

end

/-- The clusters, and the fields of links and clusters but those listed and what overlaps them, are the same. -/
structure KeepsLinksBut (fs : List Fld) (s t : State) : Prop where
  nm : t.nm = s.nm
  flds : ∀ g, linkField g → (∀ f ∈ fs, apart f g) → t.fld g = s.fld g

section
variable {s t u : State} {fs : List Fld}

theorem KeepsLinks.but (h : s.KeepsLinks t) (fs : List Fld) : KeepsLinksBut fs s t := ⟨h.nm, fun g hg _ => h.flds g hg⟩

namespace KeepsLinksBut

theorem refl (s : State) (fs : List Fld) : KeepsLinksBut fs s s := (KeepsLinks.refl s).but fs

theorem trans (h : KeepsLinksBut fs s t) (k : KeepsLinksBut fs t u) : KeepsLinksBut fs s u :=
  ⟨k.nm.trans h.nm, fun g hg ha => (k.flds g hg ha).trans (h.flds g hg ha)⟩

theorem put (h : KeepsLinksBut fs s t) {f : Fld} (v : Nat) (hf : f ∈ fs) : KeepsLinksBut fs s (t.put f v) :=
  h.trans ⟨rfl, fun _ hg ha => fld_put_apart t v hg.1 (ha f hf)⟩

/-- A register that is none of those of links and clusters. -/
theorem write (h : KeepsLinksBut fs s t) {f : Fld} (v : Nat) (hf : ∀ g, linkField g → apart f g) : KeepsLinksBut fs s (t.put f v) :=
  h.trans (((KeepsLinks.refl t).write v hf).but fs)

theorem setPort (h : KeepsLinksBut fs s t) (p : Nat) (x : PortSt) : KeepsLinksBut fs s (t.setPort p x) :=
  h.trans ((t.setPort_keepsLinks p x).but fs)

theorem mono {gs : List Fld} (h : KeepsLinksBut fs s t) (hs : fs ⊆ gs) : KeepsLinksBut gs s t :=
  ⟨h.nm, fun g hg ha => h.flds g hg fun f hf => ha f (hs hf)⟩

theorem linkUp_segment (h : KeepsLinksBut fs s t) {m : Nat} (hm : m < 8) (ha : ∀ f ∈ fs, apart f (T1S_STATUS_LINK m)) :
    t.linkUp (24 + m) = s.linkUp (24 + m) := by
  have hfld : t.fld (T1S_STATUS_LINK m) = s.fld (T1S_STATUS_LINK m) :=
    h.flds _ ⟨(by decide : 0 + 1 ≤ 32), by simp only [T1S_STATUS_LINK, rT1S_STATUS]; omega⟩ ha
  unfold linkUp flag
  rw [if_neg (by omega), if_pos (by omega), if_neg (by omega), if_pos (by omega), Nat.add_sub_cancel_left, hfld]

theorem linkUp_can (h : KeepsLinksBut fs s t) {n : Nat} (hn : n < 32) (ha : ∀ f ∈ fs, apart f (CAN_STATUS_LINK n)) :
    t.linkUp (32 + n) = s.linkUp (32 + n) := by
  rw [State.linkUp_can _ hn, State.linkUp_can _ hn]
  exact congrArg (· == 1) (h.flds _ ⟨(by decide : 31 + 1 ≤ 32), by simp only [CAN_STATUS_LINK, rCAN_STATUS]; omega⟩ ha)

theorem linkUp_lin (h : KeepsLinksBut fs s t) {n : Nat} (hn : n < 16) (ha : ∀ f ∈ fs, apart f (LIN_STATUS_LINK n)) :
    t.linkUp (64 + n) = s.linkUp (64 + n) := by
  rw [State.linkUp_lin _ hn, State.linkUp_lin _ hn]
  exact congrArg (· == 1) (h.flds _ ⟨(by decide : 31 + 1 ≤ 32), by simp only [LIN_STATUS_LINK, rLIN_STATUS]; omega⟩ ha)

end KeepsLinksBut

/-- The fields that a member's part of the Knell writes. -/
def segmentFields (m : Nat) : List Fld :=
  [T1S_STATUS_LINK m, T1S_STATUS_HOLDING m, T1S_STATUS_FLUSHED m, T1S_STATUS_PLCA_STATUS m, T1S_STATUS_PHY_READY m]
def canFields (n : Nat) : List Fld :=
  [CAN_STATUS_LINK n, CAN_EVT_LINK_DOWN n, CAN_TX_ABORT_CNT_VAL n, CAN_STATUS_FROZEN n, NMW_CAN_SW_FEC n]
def linFields (n : Nat) : List Fld := [LIN_STATUS_LINK n, LIN_EVT_LINK_DOWN n]

theorem startHold_segment (s : State) {m : Nat} (hm : m < 8) : KeepsLinksBut [T1S_STATUS_HOLDING m, T1S_STATUS_FLUSHED m] s (s.startHold (24 + m)) := by
  have hflush := (s.flushPort_keepsLinks (p := 24 + m) (by omega) 0x0A).but [T1S_STATUS_HOLDING m, T1S_STATUS_FLUSHED m]
  unfold startHold
  split
  · unfold endHold
    rw [if_neg (by omega), if_pos (by omega), Nat.add_sub_cancel_left]
    exact (((hflush.write _ (segment_apart (a := 0x118) hm (by decide) (by decide) rfl)).put 0 List.mem_cons_self).put 1
      (List.mem_cons_of_mem _ List.mem_cons_self)).write 1 (segment_apart (a := 0x10) hm (by decide) (by decide) rfl)
  · rw [if_neg (by omega), Nat.add_sub_cancel_left]
    exact (KeepsLinksBut.refl s _).put 1 List.mem_cons_self

/-- A segment that shows its link down. -/
def segmentDownShown (s : State) (m : Nat) : State := (s.put (T1S_STATUS_LINK m) 0).setFlag (T1S_EVT_LINK_DOWN m)

theorem linkDown_segment {m : Nat} (hm : m < 8) (h : s.linkUp (24 + m) = true) :
    s.linkDown (24 + m) = ((s.segmentDownShown m).abortPort (24 + m)).startHold (24 + m) := by
  unfold linkDown segmentDownShown
  rw [if_neg (by simp [h]), if_neg (by omega), if_pos (by omega), Nat.add_sub_cancel_left]

theorem linkDown_segment_keeps (s : State) {m : Nat} (hm : m < 8) : KeepsLinksBut (segmentFields m) s (s.linkDown (24 + m)) := by
  cases h : s.linkUp (24 + m) with
  | false => rw [linkDown_of_down h]; exact .refl s _
  | true =>
    have hshown : KeepsLinksBut (segmentFields m) s (s.segmentDownShown m) :=
      ((KeepsLinksBut.refl s _).put 0 List.mem_cons_self).write 1 (segment_apart (a := 0x10) hm (by decide) (by decide) rfl)
    rw [linkDown_segment hm h]
    exact (hshown.trans (((s.segmentDownShown m).abortPort_keepsLinks hm).but _)).trans
      ((startHold_segment _ hm).mono (by simp [segmentFields]))

theorem linkUp_linkDown_segment (s : State) {m : Nat} (hm : m < 8) : (s.linkDown (24 + m)).linkUp (24 + m) = false := by
  cases h : s.linkUp (24 + m) with
  | false => rwa [linkDown_of_down h]
  | true =>
    have hkeep : KeepsLinksBut [T1S_STATUS_HOLDING m, T1S_STATUS_FLUSHED m] (s.put (T1S_STATUS_LINK m) 0) (s.linkDown (24 + m)) := by
      rw [linkDown_segment hm h]
      exact (((KeepsLinksBut.refl _ _).write 1 (segment_apart (a := 0x10) hm (by decide) (by decide) rfl)).trans
        (((s.segmentDownShown m).abortPort_keepsLinks hm).but _)).trans (startHold_segment _ hm)
    rw [hkeep.linkUp_segment hm fun f hf => ?_, linkUp, if_neg (by omega), if_pos (by omega), Nat.add_sub_cancel_left]
    · exact flag_clear_self s (by decide : 0 + 1 ≤ 32) rfl
    · simp only [List.mem_cons, List.not_mem_nil, or_false] at hf
      obtain rfl | rfl := hf
      · exact .inr (by decide : 4 + 1 ≤ 0 ∨ 0 + 1 ≤ 4)
      · exact .inr (by decide : 5 + 1 ≤ 0 ∨ 0 + 1 ≤ 5)

theorem startHold_channel (s : State) {p : Nat} (h32 : 32 ≤ p) (h80 : p < 80) : s.KeepsLinks (s.startHold p) := by
  have hhold : s.holdMs p = 0 := (if_neg (by omega)).trans (if_neg (by omega))
  unfold startHold endHold
  rw [if_pos hhold, if_neg (by omega), if_neg (by omega)]
  exact (s.flushPort_keepsLinks (by omega) 0x0A).trans (setPort_keepsLinks _ _ _)

theorem setCan_keepsLinks (s : State) (n : Nat) (x : CanSt) : s.KeepsLinks (s.setCan n x) := (KeepsLinks.refl s).same rfl rfl
theorem setLin_keepsLinks (s : State) (n : Nat) (x : LinSt) : s.KeepsLinks (s.setLin n x) := (KeepsLinks.refl s).same rfl rfl

theorem linkDown_can_keeps (s : State) {n : Nat} (hn : n < 32) : KeepsLinksBut (canFields n) s (s.linkDown (32 + n)) := by
  cases h : s.linkUp (32 + n) with
  | false => rw [linkDown_of_down h]; exact .refl s _
  | true =>
    have hshown : KeepsLinksBut (canFields n) s (s.canDownShown n) :=
      ((KeepsLinksBut.refl s _).put 0 List.mem_cons_self).put 1 (by simp)
    have hcut : KeepsLinksBut (canFields n) s (s.canCut n) :=
      (hshown.trans ((setCan_keepsLinks _ n _).but _)).put _ (by simp [canFields])
    unfold linkDown
    rw [if_neg (by simp [h]), if_neg (by omega), if_neg (by omega), if_pos (by omega), Nat.add_sub_cancel_left]
    exact (hcut.trans ((dropUnpack_keepsLinks _ _).but _)).trans ((startHold_channel _ (by omega) (by omega)).but _)

theorem linkDown_lin_keeps (s : State) {n : Nat} (hn : n < 16) : KeepsLinksBut (linFields n) s (s.linkDown (64 + n)) := by
  cases h : s.linkUp (64 + n) with
  | false => rw [linkDown_of_down h]; exact .refl s _
  | true =>
    have hshown : KeepsLinksBut (linFields n) s (s.linDownShown n) :=
      ((KeepsLinksBut.refl s _).put 0 List.mem_cons_self).put 1 (by simp)
    unfold linkDown
    rw [if_neg (by simp [h]), if_neg (by omega), if_neg (by omega), if_neg (by omega), if_pos (by omega), Nat.add_sub_cancel_left]
    exact ((hshown.trans ((setLin_keepsLinks _ n _).but _)).trans ((dropUnpack_keepsLinks _ _).but _)).trans
      ((startHold_channel _ (by omega) (by omega)).but _)

end
end State
end Sys2Proof.Machine
end

section
/-! PROOFS. A cluster goes to sleep, and a wake source wakes it (R370 to R379, R386, R387): O46. -/

namespace Sys2Proof.Machine
namespace State

section
variable {s t : State} {c n : Nat}

/-! ## PREPARE_SLEEP (R373) -/

theorem port_setPort_self (s : State) (p : Nat) (x : PortSt) : (s.setPort p x).port p = x := tabGet_tabSet_self _ _ _ _
theorem port_setPort_ne (s : State) {p q : Nat} (h : p ≠ q) (x : PortSt) : (s.setPort q x).port p = s.port p := tabGet_tabSet_ne _ _ _ h
theorem lin_setLin_ne (s : State) {m : Nat} (h : n ≠ m) (x : LinSt) : (s.setLin m x).lin n = s.lin n := tabGet_tabSet_ne _ _ _ h
theorem port_setLin (s : State) (m : Nat) (x : LinSt) (p : Nat) : (s.setLin m x).port p = s.port p := rfl
theorem lin_setPort (s : State) (p : Nat) (x : PortSt) (n : Nat) : (s.setPort p x).lin n = s.lin n := rfl

/-- Nothing but the LIN channels and the ports differs. -/
structure OnlyPorts (s t : State) : Prop where
  rest : { t with lins := s.lins, ports := s.ports } = s
  regs : t.regs = s.regs

namespace OnlyPorts

theorem refl (s : State) : s.OnlyPorts s := ⟨rfl, rfl⟩
theorem setPort (h : s.OnlyPorts t) (p : Nat) (x : PortSt) : s.OnlyPorts (t.setPort p x) := ⟨h.rest, h.regs⟩
theorem setLin (h : s.OnlyPorts t) (m : Nat) (x : LinSt) : s.OnlyPorts (t.setLin m x) := ⟨h.rest, h.regs⟩
theorem trans {u : State} (h : s.OnlyPorts t) (k : t.OnlyPorts u) : s.OnlyPorts u :=
  ⟨(congrArg (fun x : State => { x with lins := s.lins, ports := s.ports }) k.rest :).trans h.rest, k.regs.trans h.regs⟩

end OnlyPorts

theorem preparePort_onlyPorts (s : State) (p : Nat) : s.OnlyPorts (s.preparePort p) := by
  unfold preparePort
  split
  · exact (OnlyPorts.refl s).setPort _ _
  · split
    · exact (OnlyPorts.refl s).setLin _ _
    · exact .refl s

theorem preparePort_port (s : State) {p q : Nat} (h : p ≠ q) : (s.preparePort q).port p = s.port p := by
  unfold preparePort
  split
  · exact port_setPort_ne s h _
  · split
    · exact port_setLin s _ _ p
    · rfl

theorem preparePort_lin (s : State) {q : Nat} (h : q ≠ 64 + n) : (s.preparePort q).lin n = s.lin n := by
  unfold preparePort
  split
  · exact lin_setPort s _ _ n
  · split
    · exact lin_setLin_ne s (by omega) _
    · rfl

theorem preparePort_segment (s : State) {p : Nat} (hp : p < 32) : ((s.preparePort p).port p).tc10Req = true := by
  rw [preparePort, if_pos hp, port_setPort_self]

theorem preparePort_commander (s : State) (hr : s.flag (LIN_CFG_ROLE n) = true) : (s.preparePort (64 + n)).lin n =
    { s.lin n with run := some false, sleepCmd := true, restart := false } := by
  rw [preparePort, if_neg (by omega), Nat.add_sub_cancel_left, if_pos ⟨Nat.le_add_right 64 n, hr⟩, lin_setLin_self]

theorem prepares_onlyPorts (l : List Nat) (s : State) : s.OnlyPorts (l.foldl State.preparePort s) :=
  foldl_relates OnlyPorts.refl OnlyPorts.trans (fun t q _ => t.preparePort_onlyPorts q) s

theorem ncMember_congr (h : t.active = s.active) (c p : Nat) : t.ncMember c p = s.ncMember c p := by
  simp only [ncMember, ncEnabled, ncRec, h]

theorem ncPorts_congr (h : t.active = s.active) (c : Nat) : t.ncPorts c = s.ncPorts c := by
  simp only [ncPorts, ncMember_congr h]

/-- The entry to PREPARE_SLEEP: its registers, and every member told. -/
theorem enterPrepare_shows (hr : s.nc c = ncREADY) : (s.enterPrepare c).nc c = ncPREPARE ∧
    (s.enterPrepare c).flag (NMW_NC_EVT_STATE_CHG c) = true ∧
    (∀ n, n < 16 → s.ncMember c (64 + n) = true → s.flag (LIN_CFG_ROLE n) = true → ((s.enterPrepare c).lin n).run = some false ∧
      ((s.enterPrepare c).lin n).sleepCmd = true ∧ ((s.enterPrepare c).lin n).restart = false) ∧
    (∀ p, 24 ≤ p → p < 32 → s.ncMember c p = true → ((s.enterPrepare c).port p).tc10Req = true) ∧
    { s.enterPrepare c with regs := s.regs, lins := s.lins, ports := s.ports } = s ∧
    s.RegsBut (s.enterPrepare c) [rNMW_NC_STATE c, rNMW_NC_EVT c] := by
  have hput := s.ncPut_onlyRegs c ncPREPARE
  have honly := prepares_onlyPorts (s.ncPorts c) (s.ncPut c ncPREPARE)
  have hne : s.nc c ≠ ncPREPARE := by rw [hr]; decide
  unfold enterPrepare
  refine ⟨?_, ?_, fun n hn hm hrole => ?_, fun p h24 h32 hm => ?_, ?_, hput.regs.same honly.regs⟩
  · exact (fld_congr honly.regs _).trans (nc_ncPut s c (by decide))
  · exact (congrArg (· == 1) (fld_congr honly.regs _)).trans (ncPut_raises hne)
  · obtain ⟨l1, l2, h1, h2, -, -, hfold⟩ := foldl_once (f := State.preparePort) (s.ncPorts_nodup c) (mem_ncPorts_of_member hm)
      (s.ncPut c ncPREPARE)
    have hrole1 : (l1.foldl State.preparePort (s.ncPut c ncPREPARE)).flag (LIN_CFG_ROLE n) = true := by
      rw [flag, fld_congr (prepares_onlyPorts l1 _).regs, hput.fld, ← hrole]
      · rfl
      · simp only [LIN_CFG_ROLE, rLIN_CFG, rNMW_NC_STATE, rNMW_NC_EVT, List.mem_cons, List.not_mem_nil, or_false]
        omega
    have hafter : ∀ u : State, (l2.foldl State.preparePort u).lin n = u.lin n :=
      foldl_same (fun u => u.lin n) fun u q hq => u.preparePort_lin fun e => h2 (e ▸ hq)
    rw [hfold, hafter, preparePort_commander _ hrole1]
    exact ⟨rfl, rfl, rfl⟩
  · obtain ⟨l1, l2, h1, h2, -, -, hfold⟩ := foldl_once (f := State.preparePort) (s.ncPorts_nodup c) (mem_ncPorts_of_member hm)
      (s.ncPut c ncPREPARE)
    have hafter : ∀ u : State, (l2.foldl State.preparePort u).port p = u.port p :=
      foldl_same (fun u => u.port p) fun u q hq => u.preparePort_port fun e => h2 (e ▸ hq)
    rw [hfold, hafter, preparePort_segment _ h32]
  · exact (congrArg (fun x : State => { x with regs := s.regs, lins := s.lins, ports := s.ports }) honly.rest :).trans
      (congrArg (fun x : State => { x with lins := s.lins, ports := s.ports }) hput.rest :)

/-! ## The Knell (R375, R387, R388) -/

/-- The fields that the Knell writes at a member port. -/
def knellFields (p : Nat) : List Fld := if p < 32 then segmentFields (p - 24) else if p < 64 then canFields (p - 32) else linFields (p - 64)

theorem knellPort_segment_keeps (s : State) {m : Nat} (hm : m < 8) : KeepsLinksBut (segmentFields m) s (s.knellPort (24 + m)) := by
  unfold knellPort
  rw [if_pos (by omega), Nat.add_sub_cancel_left]
  exact (((s.linkDown_segment_keeps hm).put 0 (by simp [segmentFields])).put 0 (by simp [segmentFields])).setPort _ _

theorem knellPort_can_keeps (s : State) (hn : n < 32) : KeepsLinksBut (canFields n) s (s.knellPort (32 + n)) := by
  unfold knellPort
  rw [if_neg (by omega), if_pos (by omega), Nat.add_sub_cancel_left]
  exact ((s.linkDown_can_keeps hn).put 1 (by simp [canFields])).put 0 (by simp [canFields])

theorem knellPort_lin_keeps (s : State) (hn : n < 16) : KeepsLinksBut (linFields n) s (s.knellPort (64 + n)) := by
  unfold knellPort
  rw [if_neg (by omega), if_neg (by omega)]
  exact s.linkDown_lin_keeps hn

/-- The member ports by their kind. -/
theorem port_cases {p : Nat} (h24 : 24 ≤ p) (h80 : p < 80) :
    (∃ m < 8, p = 24 + m) ∨ (∃ n < 32, p = 32 + n) ∨ ∃ n < 16, p = 64 + n := by
  by_cases h32 : p < 32
  · exact .inl ⟨p - 24, by omega, by omega⟩
  · by_cases h64 : p < 64
    · exact .inr (.inl ⟨p - 32, by omega, by omega⟩)
    · exact .inr (.inr ⟨p - 64, by omega, by omega⟩)

theorem knellFields_segment {m : Nat} (hm : m < 8) : knellFields (24 + m) = segmentFields m := by
  rw [knellFields, if_pos (by omega), Nat.add_sub_cancel_left]
theorem knellFields_can (hn : n < 32) : knellFields (32 + n) = canFields n := by
  rw [knellFields, if_neg (by omega), if_pos (by omega), Nat.add_sub_cancel_left]
theorem knellFields_lin : knellFields (64 + n) = linFields n := by
  rw [knellFields, if_neg (by omega), if_neg (by omega), Nat.add_sub_cancel_left]

theorem knellPort_keepsLinksBut (s : State) {p : Nat} (h24 : 24 ≤ p) (h80 : p < 80) : KeepsLinksBut (knellFields p) s (s.knellPort p) := by
  obtain ⟨m, hm, rfl⟩ | ⟨n, hn, rfl⟩ | ⟨n, hn, rfl⟩ := port_cases h24 h80
  · rw [knellFields_segment hm]; exact s.knellPort_segment_keeps hm
  · rw [knellFields_can hn]; exact s.knellPort_can_keeps hn
  · rw [knellFields_lin]; exact s.knellPort_lin_keeps hn

/-- The port whose link a register belongs to, 0 for none. -/
def linkPort (a : Nat) : Nat :=
  if a < 0x1500000 then 24 + (a - 0x1400000) / 0x10000
  else if a < 0x1600000 then 32 + (a - 0x1500000) / 0x8000
  else if a < 0x1700000 then 64 + (a - 0x1600000) / 0x10000
  else if 0x1720000 ≤ a then 32 + (a - 0x1720000) / 0x40
  else 0

theorem linkPort_segment {m b : Nat} (hm : m < 8) (hb : b < 0x10000) : linkPort (0x1400000 + b + 0x10000 * m) = 24 + m := by
  unfold linkPort
  rw [if_pos (by omega)]
  omega
theorem linkPort_can {b : Nat} (hn : n < 32) (hb : b < 0x8000) : linkPort (0x1500000 + b + 0x8000 * n) = 32 + n := by
  unfold linkPort
  rw [if_neg (by omega), if_pos (by omega)]
  omega
theorem linkPort_lin {b : Nat} (hn : n < 16) (hb : b < 0x10000) : linkPort (0x1600000 + b + 0x10000 * n) = 64 + n := by
  unfold linkPort
  rw [if_neg (by omega), if_neg (by omega), if_pos (by omega)]
  omega
theorem linkPort_wake {b : Nat} (hb : b < 0x40) : linkPort (0x1720000 + b + 0x40 * n) = 32 + n := by
  unfold linkPort
  rw [if_neg (by omega), if_neg (by omega), if_neg (by omega), if_pos (by omega)]
  omega
theorem linkPort_cluster {a : Nat} (h : 0x1700000 ≤ a ∧ a < 0x1720000) : linkPort a = 0 := by
  unfold linkPort
  rw [if_neg (by omega), if_neg (by omega), if_neg (by omega), if_neg (by omega)]

theorem knellFields_port {p : Nat} (h24 : 24 ≤ p) (h80 : p < 80) {f : Fld} (h : f ∈ knellFields p) : linkPort f.addr = p := by
  obtain ⟨m, hm, rfl⟩ | ⟨n, hn, rfl⟩ | ⟨n, hn, rfl⟩ := port_cases h24 h80
  · rw [knellFields_segment hm, segmentFields] at h
    simp only [List.mem_cons, List.not_mem_nil, or_false] at h
    obtain rfl | rfl | rfl | rfl | rfl := h <;> exact linkPort_segment (b := 0xC) hm (by decide)
  · rw [knellFields_can hn, canFields] at h
    simp only [List.mem_cons, List.not_mem_nil, or_false] at h
    obtain rfl | rfl | rfl | rfl | rfl := h
    · exact linkPort_can (b := 0x24) hn (by decide)
    · exact linkPort_can (b := 0x28) hn (by decide)
    · exact linkPort_can (b := 0x114) hn (by decide)
    · exact linkPort_can (b := 0x24) hn (by decide)
    · exact linkPort_wake (b := 0x8) (by decide)
  · rw [knellFields_lin, linFields] at h
    simp only [List.mem_cons, List.not_mem_nil, or_false] at h
    obtain rfl | rfl := h
    · exact linkPort_lin (b := 0xC) hn (by decide)
    · exact linkPort_lin (b := 0x10) hn (by decide)

/-- What belongs to another port is as before. -/
theorem knells_fld {l : List Nat} (hl : ∀ q ∈ l, 24 ≤ q ∧ q < 80) {g : Fld} (hg : linkField g) (hp : linkPort g.addr ∉ l) (s : State) :
    (l.foldl State.knellPort s).fld g = s.fld g :=
  foldl_same (fun t => t.fld g) (fun t q hq => (t.knellPort_keepsLinksBut (hl q hq).1 (hl q hq).2).flds g hg fun _ hf => .inl fun e =>
    hp (e ▸ knellFields_port (hl q hq).1 (hl q hq).2 hf ▸ hq)) s

theorem knells_nm {l : List Nat} (hl : ∀ q ∈ l, 24 ≤ q ∧ q < 80) (s : State) : (l.foldl State.knellPort s).nm = s.nm :=
  foldl_same State.nm (fun t q hq => (t.knellPort_keepsLinksBut (hl q hq).1 (hl q hq).2).nm) s

/-- The field that shows a member's link. -/
def linkShown (p : Nat) : Fld := if p < 32 then T1S_STATUS_LINK (p - 24) else if p < 64 then CAN_STATUS_LINK (p - 32) else LIN_STATUS_LINK (p - 64)

theorem linkUp_member (s : State) {p : Nat} (h24 : 24 ≤ p) (h80 : p < 80) : s.linkUp p = s.flag (linkShown p) := by
  unfold linkUp linkShown
  rw [if_neg (by omega), if_pos h80]
  split
  · rfl
  · split <;> rfl

theorem linkShown_linkField {p : Nat} (h24 : 24 ≤ p) (h80 : p < 80) : linkField (linkShown p) ∧ linkPort (linkShown p).addr = p := by
  unfold linkShown
  obtain ⟨m, hm, rfl⟩ | ⟨n, hn, rfl⟩ | ⟨n, hn, rfl⟩ := port_cases h24 h80
  · rw [if_pos (by omega), Nat.add_sub_cancel_left]
    exact ⟨⟨(by decide : 0 + 1 ≤ 32), by simp only [T1S_STATUS_LINK, rT1S_STATUS]; omega⟩, linkPort_segment (b := 0xC) hm (by decide)⟩
  · rw [if_neg (by omega), if_pos (by omega), Nat.add_sub_cancel_left]
    exact ⟨⟨(by decide : 31 + 1 ≤ 32), by simp only [CAN_STATUS_LINK, rCAN_STATUS]; omega⟩, linkPort_can (b := 0x24) hn (by decide)⟩
  · rw [if_neg (by omega), if_neg (by omega), Nat.add_sub_cancel_left]
    exact ⟨⟨(by decide : 31 + 1 ≤ 32), by simp only [LIN_STATUS_LINK, rLIN_STATUS]; omega⟩, linkPort_lin (b := 0xC) hn (by decide)⟩

/-- A member's link is down after its part of the Knell. -/
theorem linkUp_knellPort (s : State) {p : Nat} (h24 : 24 ≤ p) (h80 : p < 80) : (s.knellPort p).linkUp p = false := by
  unfold knellPort
  obtain ⟨m, hm, rfl⟩ | ⟨n, hn, rfl⟩ | ⟨n, hn, rfl⟩ := port_cases h24 h80
  · have hdown := s.linkUp_linkDown_segment hm
    rw [if_pos (by omega), Nat.add_sub_cancel_left]
    rw [linkUp_member _ h24 h80, linkShown, if_pos (by omega), Nat.add_sub_cancel_left] at hdown ⊢
    rw [← hdown, flag_setPort]
    exact congrArg (· == 1) ((fld_put_next 0 (by decide) (by decide)).trans (fld_put_next 0 (by decide) (by decide)))
  · have hdown := s.linkUp_linkDown_can hn
    rw [if_neg (by omega), if_pos (by omega), Nat.add_sub_cancel_left]
    rw [linkUp_can _ hn] at hdown ⊢
    rw [← hdown, flag_put_addr _ _ (by simp only [CAN_STATUS_LINK, rCAN_STATUS, NMW_CAN_SW_FEC, rNMW_CAN_SW]; omega)]
    exact congrArg (· == 1) (fld_put_next 1 (by decide) (by decide))
  · rw [if_neg (by omega), if_neg (by omega)]
    exact s.linkUp_linkDown_lin hn

/-- A CAN member is frozen, and its error counter of selective wake starts anew. -/
theorem knellPort_can_shows (s : State) (hn : n < 32) : (s.knellPort (32 + n)).fld (CAN_STATUS_FROZEN n) = 1 ∧
    (s.knellPort (32 + n)).fld (NMW_CAN_SW_FEC n) = 0 := by
  unfold knellPort
  rw [if_neg (by omega), if_pos (by omega), Nat.add_sub_cancel_left]
  refine ⟨?_, fld_put_same 0 (by decide)⟩
  rw [fld_put_addr _ _ (by simp only [CAN_STATUS_FROZEN, rCAN_STATUS, NMW_CAN_SW_FEC, rNMW_CAN_SW]; omega)]
  exact fld_put_same 1 (by decide)

/-- The Knell itself, before its ports. -/
def knellNoted (s : State) (c : Nat) : State :=
  ((s.ncPut c ncSHUTDOWN).inc (NMW_NC_KNELL_CNT_VAL c)).setNm c
    { ((s.ncPut c ncSHUTDOWN).inc (NMW_NC_KNELL_CNT_VAL c)).nmSt c with knell := s.ao, latched := none, settling := false, gpioLow := true }

theorem knellNow_eq (s : State) (c : Nat) : s.knellNow c false = (s.ncPorts c).foldl State.knellPort (s.knellNoted c) := rfl

theorem knellNoted_fld (s : State) (c : Nat) (f : Fld) :
    (s.knellNoted c).fld f = ((s.ncPut c ncSHUTDOWN).inc (NMW_NC_KNELL_CNT_VAL c)).fld f := by
  rw [knellNoted, setNm_fld]

theorem nc_eq (s : State) (c : Nat) : s.nc c = s.fld (NMW_NC_STATE_STATE c) := rfl

theorem knellNoted_shows (s : State) (c : Nat) : (s.knellNoted c).nc c = ncSHUTDOWN ∧
    (s.knellNoted c).fld (NMW_NC_KNELL_CNT_VAL c) = (s.fld (NMW_NC_KNELL_CNT_VAL c) + 1) % 2 ^ 32 := by
  have hne : rNMW_NC_KNELL_CNT c ≠ rNMW_NC_STATE c := by simp only [rNMW_NC_STATE, rNMW_NC_KNELL_CNT]; omega
  refine ⟨?_, ?_⟩
  · rw [nc_eq, knellNoted_fld, inc_eq, fld_put_addr _ _ (Ne.symm hne), ← nc_eq]
    exact nc_ncPut s c (by decide)
  · rw [knellNoted_fld, fld_inc_self _ (by decide : 0 + 32 ≤ 32), (s.ncPut_onlyRegs c ncSHUTDOWN).fld]
    · rfl
    simp only [NMW_NC_KNELL_CNT_VAL, rNMW_NC_KNELL_CNT, rNMW_NC_STATE, rNMW_NC_EVT, List.mem_cons, List.not_mem_nil, or_false]
    omega

theorem knellNoted_nmSt (s : State) (c : Nat) : ((s.knellNoted c).nmSt c).knell = s.ao ∧ ((s.knellNoted c).nmSt c).latched = none ∧
    ((s.knellNoted c).nmSt c).settling = false ∧ ((s.knellNoted c).nmSt c).gpioLow = true := by
  rw [knellNoted, nmSt_setNm_self]
  exact ⟨rfl, rfl, rfl, rfl⟩

/-- What the Knell of a cluster shows. -/
theorem knellNow_shows (hc : c < 16) : (s.knellNow c false).nc c = ncSHUTDOWN ∧
    ((s.knellNow c false).nmSt c).knell = s.ao ∧ ((s.knellNow c false).nmSt c).latched = none ∧
    ((s.knellNow c false).nmSt c).settling = false ∧ ((s.knellNow c false).nmSt c).gpioLow = true ∧
    (s.knellNow c false).fld (NMW_NC_KNELL_CNT_VAL c) = (s.fld (NMW_NC_KNELL_CNT_VAL c) + 1) % 2 ^ 32 := by
  have hports : ∀ q ∈ s.ncPorts c, 24 ≤ q ∧ q < 80 := fun q hq => ⟨(mem_ncPorts.mp hq).1, (mem_ncPorts.mp hq).2.1⟩
  have hcluster {g : Fld} (hg : g.lsb + g.wid ≤ 32) (ha : 0x1700000 ≤ g.addr ∧ g.addr < 0x1720000) (h4 : g.addr % 32 ≠ 4) :
      (s.knellNow c false).fld g = (s.knellNoted c).fld g := by
    refine knells_fld hports ⟨hg, by omega⟩ (fun h => ?_) _
    rw [linkPort_cluster ha] at h
    exact absurd (hports 0 h).1 (by decide)
  have hnm : (s.knellNow c false).nmSt c = (s.knellNoted c).nmSt c := congrArg (tabGet NmSt.reset · c) (knells_nm hports _)
  obtain ⟨hstate, hcnt⟩ := s.knellNoted_shows c
  obtain ⟨hknell, hlatched, hsettling, hlow⟩ := s.knellNoted_nmSt c
  rw [hnm]
  refine ⟨?_, hknell, hlatched, hsettling, hlow, ?_⟩
  · refine (hcluster (g := NMW_NC_STATE_STATE c) (by decide : 0 + 3 ≤ 32) ?_ ?_).trans hstate
    · simp only [NMW_NC_STATE_STATE, rNMW_NC_STATE]; omega
    · simp only [NMW_NC_STATE_STATE, rNMW_NC_STATE]; omega
  · refine (hcluster (g := NMW_NC_KNELL_CNT_VAL c) (by decide : 0 + 32 ≤ 32) ?_ ?_).trans hcnt
    · simp only [NMW_NC_KNELL_CNT_VAL, rNMW_NC_KNELL_CNT]; omega
    · simp only [NMW_NC_KNELL_CNT_VAL, rNMW_NC_KNELL_CNT]; omega

/-- What the Knell leaves at a member port is what the port's own part left. -/
theorem knellNow_member {p : Nat} (hm : s.ncMember c p = true) :
    ∃ t, ∀ g, linkField g → linkPort g.addr = p → (s.knellNow c false).fld g = (State.knellPort t p).fld g := by
  obtain ⟨l1, l2, -, h2, -, hsub, hfold⟩ := foldl_once (f := State.knellPort) (s.ncPorts_nodup c) (mem_ncPorts_of_member hm) (s.knellNoted c)
  refine ⟨l1.foldl State.knellPort (s.knellNoted c), fun g hg hgp => ?_⟩
  rw [knellNow_eq, hfold]
  exact knells_fld (fun q hq => ⟨(mem_ncPorts.mp (hsub q hq)).1, (mem_ncPorts.mp (hsub q hq)).2.1⟩) hg (hgp ▸ h2) _

theorem knellNow_linkUp {p : Nat} (hm : s.ncMember c p = true) : (s.knellNow c false).linkUp p = false := by
  obtain ⟨h24, h80⟩ := member_ports hm
  obtain ⟨t, ht⟩ := knellNow_member hm
  obtain ⟨hfield, hport⟩ := linkShown_linkField h24 h80
  rw [linkUp_member _ h24 h80, flag, ht _ hfield hport]
  exact (linkUp_member _ h24 h80).symm.trans (t.linkUp_knellPort h24 h80)

theorem knellNow_can (hn : n < 32) (hm : s.ncMember c (32 + n) = true) :
    (s.knellNow c false).flag (CAN_STATUS_FROZEN n) = true ∧ (s.knellNow c false).fld (NMW_CAN_SW_FEC n) = 0 := by
  obtain ⟨t, ht⟩ := knellNow_member hm
  obtain ⟨hfrozen, hfec⟩ := t.knellPort_can_shows hn
  refine ⟨?_, ?_⟩
  · refine congrArg (· == 1) ((ht _ ⟨(by decide : 25 + 1 ≤ 32), ?_⟩ (linkPort_can (b := 0x24) hn (by decide))).trans hfrozen)
    simp only [CAN_STATUS_FROZEN, rCAN_STATUS]
    omega
  · refine (ht _ ⟨(by decide : 0 + 8 ≤ 32), ?_⟩ (linkPort_wake (b := 0x8) (by decide))).trans hfec
    simp only [NMW_CAN_SW_FEC, rNMW_CAN_SW]
    omega


/-! ## The entry to REPEAT (R374) -/

/-- The registers that the entry to REPEAT leaves: all but the cluster's state and events and the selective wake of channels. -/
def repeatKeeps (c a : Nat) : Prop := a ∉ [rNMW_NC_STATE c, rNMW_NC_EVT c] ∧ ∀ n, a ≠ rNMW_CAN_SW n

theorem repeatPort_reg (s : State) (src idx p : Nat) {a : Nat} (ha : ∀ n, a ≠ rNMW_CAN_SW n) : (s.repeatPort src idx p).reg a = s.reg a := by
  unfold repeatPort
  split
  · rfl
  · split
    · exact reg_put_ne s _ _ (ha _)
    · rfl

theorem repeatPort_nm (s : State) (src idx p : Nat) : (s.repeatPort src idx p).nm = s.nm := by
  unfold repeatPort
  split
  · rfl
  · split <;> rfl

theorem repeatPort_wrec (s : State) (src idx p : Nat) : (s.repeatPort src idx p).wrec = s.wrec := by
  unfold repeatPort
  split
  · rfl
  · split <;> rfl

/-- A cluster's state once it has entered REPEAT, before its members. -/
def repeatNoted (s : State) (c src : Nat) : State :=
  (s.ncPut c ncREPEAT).setNm c { s.nmSt c with latched := none, settling := true, own := ownWake src, gpioLow := false }

theorem enterRepeat_eq (s : State) (c src idx : Nat) :
    s.enterRepeat c src idx = (s.ncPorts c).foldl (fun s p => s.repeatPort src idx p) (s.repeatNoted c src) := rfl

theorem repeatNoted_reg (s : State) (c src a : Nat) : (s.repeatNoted c src).reg a = (s.ncPut c ncREPEAT).reg a := rfl

theorem enterRepeat_reg (s : State) (c src idx : Nat) {a : Nat} (ha : ∀ n, a ≠ rNMW_CAN_SW n) :
    (s.enterRepeat c src idx).reg a = (s.ncPut c ncREPEAT).reg a := by
  rw [enterRepeat_eq, foldl_same (fun t => t.reg a) (fun t q _ => t.repeatPort_reg src idx q ha), repeatNoted_reg]

theorem enterRepeat_fld (s : State) (c src idx : Nat) {f : Fld} (hf : ∀ n, f.addr ≠ rNMW_CAN_SW n) :
    (s.enterRepeat c src idx).fld f = (s.ncPut c ncREPEAT).fld f := by
  rw [fld, fld, enterRepeat_reg s c src idx hf]

theorem enterRepeat_fld_kept (s : State) {c : Nat} (src idx : Nat) {f : Fld} (hf : repeatKeeps c f.addr) :
    (s.enterRepeat c src idx).fld f = s.fld f :=
  (s.enterRepeat_fld c src idx hf.2).trans ((s.ncPut_onlyRegs c _).fld hf.1)

theorem enterRepeat_wrec (s : State) (c src idx : Nat) : (s.enterRepeat c src idx).wrec = s.wrec :=
  (foldl_same State.wrec (fun t q _ => t.repeatPort_wrec src idx q) _).trans
    ((s.ncPut_onlyRegs c ncREPEAT).same (f := State.wrec) fun _ _ => rfl)

theorem enterRepeat_nmSt (s : State) (c src idx : Nat) : ((s.enterRepeat c src idx).nmSt c).latched = none ∧
    ((s.enterRepeat c src idx).nmSt c).settling = true ∧ ((s.enterRepeat c src idx).nmSt c).gpioLow = false := by
  have hnm : (s.enterRepeat c src idx).nmSt c = (s.repeatNoted c src).nmSt c :=
    congrArg (tabGet NmSt.reset · c) (foldl_same State.nm (fun t q _ => t.repeatPort_nm src idx q) _)
  rw [hnm, repeatNoted, nmSt_setNm_self]
  exact ⟨rfl, rfl, rfl⟩

theorem ne_wake_of_lt {a : Nat} (h : a < 0x1720000) (n : Nat) : a ≠ rNMW_CAN_SW n := by
  simp only [rNMW_CAN_SW]
  omega

theorem enterRepeat_nc (s : State) (src idx : Nat) (hc : c < 16) : (s.enterRepeat c src idx).nc c = ncREPEAT := by
  rw [nc_eq, enterRepeat_fld _ _ _ _ (ne_wake_of_lt (by simp only [NMW_NC_STATE_STATE, rNMW_NC_STATE]; omega)), ← nc_eq]
  exact nc_ncPut s c (by decide)

/-- A cluster's events but STATE_CHG stay as they are. -/
theorem ncPut_event (s : State) (c st : Nat) {i j : Nat} (hj : i + j ≤ 32) (hi : 1 ≤ i) :
    (s.ncPut c st).fld ⟨rNMW_NC_EVT c, i, j⟩ = s.fld ⟨rNMW_NC_EVT c, i, j⟩ := by
  unfold ncPut
  split
  · rfl
  · exact (fld_put_next 1 hj (.inl hi)).trans (fld_put_other st (by simp only [rNMW_NC_STATE, rNMW_NC_EVT]; omega))

theorem enterRepeat_event (s : State) (src idx : Nat) (hc : c < 16) {i j : Nat} (hj : i + j ≤ 32) (hi : 1 ≤ i) :
    (s.enterRepeat c src idx).fld ⟨rNMW_NC_EVT c, i, j⟩ = s.fld ⟨rNMW_NC_EVT c, i, j⟩ :=
  (s.enterRepeat_fld c src idx (ne_wake_of_lt (by simp only [rNMW_NC_EVT]; omega))).trans (s.ncPut_event c _ hj hi)

/-! ## Wake records (R391) -/

theorem wakeRecord_free (x : WakeRec) (h : s.wrec.length < 32) : s.wakeRecord x = ({ s with wrec := s.wrec ++ [x] } : State).setFlag NMW_EVT_WREC :=
  if_neg (by omega)

theorem wakeRecord_full (x : WakeRec) (h : 32 ≤ s.wrec.length) : s.wakeRecord x = (s.incSat NMW_WREC_STAT_OVF).setFlag NMW_EVT_WREC_OVF :=
  if_pos h

theorem wakeRecord_shows (s : State) (x : WakeRec) : (s.wrec.length < 32 → (s.wakeRecord x).wrec = s.wrec ++ [x]) ∧
    (32 ≤ s.wrec.length → (s.wakeRecord x).wrec = s.wrec ∧ (s.wakeRecord x).flag NMW_EVT_WREC_OVF = true) := by
  refine ⟨fun h => ?_, fun h => ?_⟩
  · rw [wakeRecord_free x h]
    rfl
  · rw [wakeRecord_full x h]
    exact ⟨rfl, flag_setFlag_self _ (by decide) rfl⟩

theorem wakeRecord_reg (s : State) (x : WakeRec) {a : Nat} (h : a ∉ [rNMW_EVT, rNMW_WREC_STAT]) : (s.wakeRecord x).reg a = s.reg a := by
  obtain ⟨hevt, hstat⟩ : a ≠ rNMW_EVT ∧ a ≠ rNMW_WREC_STAT := by simpa using h
  unfold wakeRecord
  split
  · exact (reg_put_ne _ _ _ hevt).trans (reg_put_ne _ _ _ hstat)
  · exact reg_put_ne _ _ _ hevt

theorem wakeRecord_fld (s : State) (x : WakeRec) {f : Fld} (h : f.addr ∉ [rNMW_EVT, rNMW_WREC_STAT]) : (s.wakeRecord x).fld f = s.fld f := by
  rw [fld, fld, wakeRecord_reg s x h]

end
end State
end Sys2Proof.Machine
end

section
/-! PROOFS. The ways of a cluster to sleep and back, command by command (R370 to R379, R386, R387, R391): O46. -/

namespace Sys2Proof.Machine
namespace State

section
variable {s t u : State} {c n k src idx pat : Nat}

/-! ## A wake that is recorded (R376, R379) -/

/-- A wake recorded: its record, the event WAKE, and REPEAT. -/
def wakeNoted (s : State) (c src idx : Nat) (x : WakeRec) : State := ((s.wakeRecord x).setFlag (NMW_NC_EVT_WAKE c)).enterRepeat c src idx

theorem wakeNoted_fld (s : State) (src idx : Nat) (x : WakeRec) {f : Fld} (hk : repeatKeeps c f.addr) (hf : f.addr ∉ [rNMW_EVT, rNMW_WREC_STAT]) :
    (s.wakeNoted c src idx x).fld f = s.fld f := by
  have hevt : f.addr ≠ rNMW_NC_EVT c := fun h => hk.1 (by rw [h]; exact List.mem_cons_of_mem _ List.mem_cons_self)
  rw [wakeNoted, enterRepeat_fld_kept _ _ _ hk, setFlag_eq, fld_put_addr _ _ hevt, wakeRecord_fld s x hf]

theorem wakeNoted_event (s : State) (hc : c < 16) (src idx : Nat) (x : WakeRec) : (s.wakeNoted c src idx x).flag (NMW_NC_EVT_WAKE c) = true := by
  have hself := flag_setFlag_self (s.wakeRecord x) (f := NMW_NC_EVT_WAKE c) (by decide : 3 + 1 ≤ 32) rfl
  rw [← hself, flag, flag, wakeNoted]
  exact congrArg (· == 1) (enterRepeat_event _ src idx hc (by decide) (by decide))

theorem wakeNoted_knell (s : State) (hc : c < 16) (src idx : Nat) (x : WakeRec) :
    (s.wakeNoted c src idx x).flag (NMW_NC_EVT_KNELL c) = s.flag (NMW_NC_EVT_KNELL c) := by
  have hnext : ((s.wakeRecord x).setFlag (NMW_NC_EVT_WAKE c)).fld (NMW_NC_EVT_KNELL c) = (s.wakeRecord x).fld (NMW_NC_EVT_KNELL c) :=
    fld_put_next 1 (by decide) (by decide)
  have hevt : rNMW_NC_EVT c ∉ [rNMW_EVT, rNMW_WREC_STAT] := by
    simp only [rNMW_NC_EVT, rNMW_EVT, rNMW_WREC_STAT, List.mem_cons, List.not_mem_nil, or_false]
    omega
  rw [flag, flag, wakeNoted, ← wakeRecord_fld s x (f := NMW_NC_EVT_KNELL c) hevt, ← hnext]
  exact congrArg (· == 1) (enterRepeat_event _ src idx hc (by decide) (by decide))

theorem wakeNoted_wrec (s : State) (c src idx : Nat) (x : WakeRec) : (s.wakeNoted c src idx x).wrec = (s.wakeRecord x).wrec :=
  enterRepeat_wrec _ c src idx

theorem wakeNoted_overflow (s : State) (hc : c < 16) (src idx : Nat) (x : WakeRec) :
    (s.wakeNoted c src idx x).flag NMW_EVT_WREC_OVF = (s.wakeRecord x).flag NMW_EVT_WREC_OVF := by
  have hkeeps : repeatKeeps c rNMW_EVT := by
    refine ⟨?_, ne_wake_of_lt (by decide)⟩
    simp only [rNMW_EVT, rNMW_NC_STATE, rNMW_NC_EVT, List.mem_cons, List.not_mem_nil, or_false]
    omega
  have hevt : rNMW_EVT ≠ rNMW_NC_EVT c := fun h => hkeeps.1 (by rw [h]; exact List.mem_cons_of_mem _ List.mem_cons_self)
  rw [flag, wakeNoted, enterRepeat_fld_kept _ _ _ hkeeps, setFlag_eq, fld_put_addr _ _ hevt, flag]

/-- What wakes a cluster in BUS_SLEEP outside device sleep. -/
structure Asleep (s : State) (c : Nat) : Prop where
  small : c < 16
  enabled : s.ncEnabled c = true
  state : s.nc c = ncBUS_SLEEP
  awake : s.pwr.sleep = 0
  fresh : s.pwr.wakes.any (fun w => w.cluster == c) = false

theorem nmWake_asleep (h : s.Asleep c) (src idx pat : Nat) :
    s.nmWake c src idx pat = s.wakeNoted c src idx ⟨src, idx, c, s.wakeFlags false false pat, s.ao, (s.nmSt c).knell⟩ := by
  simp only [nmWake, h.enabled, h.state, h.awake, h.fresh, ncBUS_SLEEP, ncSHUTDOWN, Bool.true_eq_false, if_false, if_true, ne_eq,
    not_true_eq_false, Bool.false_eq_true, (by decide : ¬ 0 = 5)]
  rfl

theorem nmWake_woke (h : s.Asleep c) (src idx pat : Nat) : s.WokeCluster (s.nmWake c src idx pat) c src idx pat := by
  rw [nmWake_asleep h]
  obtain ⟨hlatched, hsettling, -⟩ := enterRepeat_nmSt ((s.wakeRecord ⟨src, idx, c, s.wakeFlags false false pat, s.ao,
    (s.nmSt c).knell⟩).setFlag (NMW_NC_EVT_WAKE c)) c src idx
  obtain ⟨hroom, hfull⟩ := s.wakeRecord_shows ⟨src, idx, c, s.wakeFlags false false pat, s.ao, (s.nmSt c).knell⟩
  exact ⟨enterRepeat_nc _ src idx h.small, hsettling, hlatched, s.wakeNoted_event h.small src idx _, fun hlen =>
    (s.wakeNoted_wrec c src idx _).trans (hroom hlen), fun hlen => ⟨(s.wakeNoted_wrec c src idx _).trans (hfull hlen).1,
    (s.wakeNoted_overflow h.small src idx _).trans (hfull hlen).2⟩⟩

/-- Registers written before the wake change nothing of it. -/
theorem WokeCluster.after {as : List Nat} (h : s.OnlyRegs t as) (k : t.WokeCluster u c src idx pat) : s.WokeCluster u c src idx pat := by
  have hwrec : t.wrec = s.wrec := h.same (f := State.wrec) fun _ _ => rfl
  have hflags : t.wakeFlags false false pat = s.wakeFlags false false pat := h.same (f := (State.wakeFlags · false false pat)) fun _ _ => rfl
  have hao : t.ao = s.ao := h.same (f := State.ao) fun _ _ => rfl
  have hnm : t.nmSt c = s.nmSt c := h.same (f := (State.nmSt · c)) fun _ _ => rfl
  refine ⟨k.state, k.settling, k.latched, k.event, fun hlen => ?_, fun hlen => ?_⟩
  · rw [k.record (by rw [hwrec]; exact hlen), hwrec, hflags, hao, hnm]
  · rw [← hwrec]
    exact k.full (by rw [hwrec]; exact hlen)

theorem Asleep.after {as : List Nat} (h : s.Asleep c) (ho : s.OnlyRegs t as) (ha : rNMW_NC_STATE c ∉ as) : t.Asleep c :=
  ⟨h.small, (ho.same (f := (State.ncEnabled · c)) fun _ _ => rfl).trans h.enabled, (ho.fld (f := NMW_NC_STATE_STATE c) ha).trans h.state,
    (ho.same (f := fun x => x.pwr.sleep) fun _ _ => rfl).trans h.awake,
    (ho.same (f := fun x => x.pwr.wakes.any (fun w => w.cluster == c)) fun _ _ => rfl).trans h.fresh⟩

/-- A wake that comes with registers of its own. -/
theorem nmWake_woke_after {as : List Nat} (h : s.Asleep c) (ho : s.OnlyRegs t as) (ha : rNMW_NC_STATE c ∉ as) (src idx pat : Nat) :
    s.WokeCluster (t.nmWake c src idx pat) c src idx pat := (nmWake_woke (h.after ho ha) src idx pat).after ho

theorem nmWake_fld (h : s.Asleep c) (src idx pat : Nat) {f : Fld} (hk : repeatKeeps c f.addr) (hf : f.addr ∉ [rNMW_EVT, rNMW_WREC_STAT]) :
    (s.nmWake c src idx pat).fld f = s.fld f := by
  rw [nmWake_asleep h, wakeNoted_fld s src idx _ hk hf]


/-! ## The Knell's end (R375, R378) -/

theorem knellDone_asleep (h : (if s.pwr.sleep = 0 then (s.nmSt c).latched else none) = none) :
    s.knellDone c = (s.setFlag (NMW_NC_EVT_KNELL c)).ncPut c ncBUS_SLEEP := by
  simp only [knellDone, h]

theorem knellDone_woken {ev : WakeEv} (h : s.pwr.sleep = 0) (hl : (s.nmSt c).latched = some ev) :
    s.knellDone c = (s.setFlag (NMW_NC_EVT_KNELL c)).wakeNoted c ev.src ev.idx
      ⟨ev.src, ev.idx, c, s.wakeFlags true false ev.pat, ev.time, (s.nmSt c).knell⟩ := by
  simp only [knellDone, h, hl, if_true]
  rfl

theorem knellFlag_self (s : State) (c : Nat) : (s.setFlag (NMW_NC_EVT_KNELL c)).flag (NMW_NC_EVT_KNELL c) = true :=
  flag_setFlag_self s (by decide : 1 + 1 ≤ 32) rfl

/-- The end in BUS_SLEEP. -/
theorem knellDone_shows (h : (if s.pwr.sleep = 0 then (s.nmSt c).latched else none) = none) : (s.knellDone c).nc c = ncBUS_SLEEP ∧
    (s.knellDone c).flag (NMW_NC_EVT_KNELL c) = true ∧ s.OnlyRegs (s.knellDone c) [rNMW_NC_STATE c, rNMW_NC_EVT c] := by
  rw [knellDone_asleep h]
  refine ⟨nc_ncPut _ c (by decide), ?_, ?_⟩
  · rw [← knellFlag_self s c]
    exact congrArg (· == 1) (ncPut_event _ c _ (by decide) (by decide))
  · have hflag : s.OnlyRegs (s.setFlag (NMW_NC_EVT_KNELL c)) [rNMW_NC_STATE c, rNMW_NC_EVT c] :=
      (OnlyRegs.refl s _).put 1 (List.mem_cons_of_mem _ List.mem_cons_self)
    exact (hflag.trans (ncPut_onlyRegs _ c ncBUS_SLEEP)).mono (by simp)

/-- The end in REPEAT. -/
theorem knellDone_repeats {ev : WakeEv} (hc : c < 16) (h : s.pwr.sleep = 0) (hl : (s.nmSt c).latched = some ev) :
    (s.knellDone c).nc c = ncREPEAT ∧ (s.knellDone c).flag (NMW_NC_EVT_KNELL c) = true ∧
    (s.knellDone c).flag (NMW_NC_EVT_WAKE c) = true ∧ ((s.knellDone c).nmSt c).settling = true ∧
    ((s.knellDone c).nmSt c).gpioLow = false ∧ ((s.knellDone c).nmSt c).latched = none ∧ (s.wrec.length < 32 →
      (s.knellDone c).wrec = s.wrec ++ [⟨ev.src, ev.idx, c, s.wakeFlags true false ev.pat, ev.time, (s.nmSt c).knell⟩]) := by
  rw [knellDone_woken h hl]
  obtain ⟨hlatched, hsettling, hlow⟩ := enterRepeat_nmSt (((s.setFlag (NMW_NC_EVT_KNELL c)).wakeRecord ⟨ev.src, ev.idx, c,
    s.wakeFlags true false ev.pat, ev.time, (s.nmSt c).knell⟩).setFlag (NMW_NC_EVT_WAKE c)) c ev.src ev.idx
  refine ⟨enterRepeat_nc _ _ _ hc, ?_, wakeNoted_event _ hc _ _ _, hsettling, hlow, hlatched, fun hlen => ?_⟩
  · rw [wakeNoted_knell _ hc, knellFlag_self]
  · rw [wakeNoted_wrec, (wakeRecord_shows _ _).1]
    · rfl
    · exact hlen

/-! ## Selective wake (R384, R386) -/

theorem sleepingCan_some (hn : n < 32) (hm : s.clusterOf (32 + n) = some c) (h : s.nc c = ncBUS_SLEEP) : s.sleepingCan n = some c := by
  simp only [sleepingCan, hm, hn, h, true_and, if_true]

theorem swRegs_ne (n c : Nat) : rNMW_NC_STATE c ∉ [rNMW_CAN_SW n, rNMW_CAN_SW_MATCH_CNT n] ∧
    rNMW_NC_STATE c ∉ [rNMW_CAN_SW n, rNMW_CAN_SW_ERR_CNT n] := by
  simp only [rNMW_NC_STATE, rNMW_CAN_SW, rNMW_CAN_SW_MATCH_CNT, rNMW_CAN_SW_ERR_CNT, List.mem_cons, List.not_mem_nil, or_false]
  omega

/-- What the decoder writes for a frame it has received whole. -/
def swFrameNoted (s : State) (n : Nat) : State :=
  (s.put (NMW_CAN_SW_OSC_ON n) 1).put (NMW_CAN_SW_FEC n) ((s.put (NMW_CAN_SW_OSC_ON n) 1).fld (NMW_CAN_SW_FEC n) - 1)

theorem swFrameNoted_onlyRegs (s : State) (n : Nat) : s.OnlyRegs (s.swFrameNoted n) [rNMW_CAN_SW n] :=
  ((OnlyRegs.refl s _).put _ List.mem_cons_self).put _ List.mem_cons_self

theorem oscOn_fec (s : State) (n : Nat) : (s.put (NMW_CAN_SW_OSC_ON n) 1).fld (NMW_CAN_SW_FEC n) = s.fld (NMW_CAN_SW_FEC n) :=
  fld_put_next 1 (by decide) (by decide)

theorem swFrameNoted_fec (s : State) (n : Nat) : (s.swFrameNoted n).fld (NMW_CAN_SW_FEC n) = s.fld (NMW_CAN_SW_FEC n) - 1 := by
  have hlt : s.fld (NMW_CAN_SW_FEC n) < 2 ^ 8 := s.fld_lt _
  rw [swFrameNoted, oscOn_fec]
  exact (fld_put_same _ (by decide)).trans (Nat.mod_eq_of_lt (by omega))

theorem swDecode_match {ext : Bool} {id dlc : Nat} {d : List Byte}
    (h : (List.range (min 4 (s.cwRec n 3 1))).find? (s.swMatch n ext id dlc d) = some k) :
    s.swDecode c n (.frame false ext id dlc d) = ((s.swFrameNoted n).inc (NMW_CAN_SW_MATCH_CNT_VAL n)).nmWake c 3 n k := by
  simp only [swDecode, h]
  rfl

theorem swDecode_ignore {ext : Bool} {id dlc : Nat} {d : List Byte}
    (h : (List.range (min 4 (s.cwRec n 3 1))).find? (s.swMatch n ext id dlc d) = none) :
    s.swDecode c n (.frame false ext id dlc d) = (s.swFrameNoted n).inc (NMW_CAN_SW_IGNORE_CNT_VAL n) := by
  simp only [swDecode, h]
  rfl

/-- What the decoder writes for an error. -/
def swErrorNoted (s : State) (n : Nat) : State :=
  ((s.put (NMW_CAN_SW_OSC_ON n) 1).incSat (NMW_CAN_SW_FEC n)).inc (NMW_CAN_SW_ERR_CNT_VAL n)

theorem swDecode_error (s : State) (c n : Nat) : s.swDecode c n .error =
    if s.cwRec n 2 1 < s.fld (NMW_CAN_SW_FEC n) + 1 then (s.swErrorNoted n).nmWake c 4 n 0 else s.swErrorNoted n := rfl

theorem swErrorNoted_onlyRegs (s : State) (n : Nat) : s.OnlyRegs (s.swErrorNoted n) [rNMW_CAN_SW n, rNMW_CAN_SW_ERR_CNT n] := by
  have hosc : s.OnlyRegs (s.put (NMW_CAN_SW_OSC_ON n) 1) [rNMW_CAN_SW n] := (OnlyRegs.refl s _).put 1 List.mem_cons_self
  exact (hosc.put _ List.mem_cons_self).trans (inc_onlyRegs _ _)

theorem fld_incSat_self (s : State) {f : Fld} (hf : f.lsb + f.wid ≤ 32) : (s.incSat f).fld f = min (s.fld f + 1) (2 ^ f.wid - 1) := by
  have hpos := Nat.two_pow_pos f.wid
  rw [incSat, fld_put_self _ _ _ hf, Nat.mod_eq_of_lt (by omega)]

theorem swErrorNoted_shows (s : State) (n : Nat) : (s.swErrorNoted n).fld (NMW_CAN_SW_FEC n) = min (s.fld (NMW_CAN_SW_FEC n) + 1) 255 ∧
    (s.swErrorNoted n).fld (NMW_CAN_SW_ERR_CNT_VAL n) = (s.fld (NMW_CAN_SW_ERR_CNT_VAL n) + 1) % 2 ^ 32 := by
  have hne : rNMW_CAN_SW_ERR_CNT n ≠ rNMW_CAN_SW n := by simp only [rNMW_CAN_SW, rNMW_CAN_SW_ERR_CNT]; omega
  refine ⟨?_, ?_⟩
  · rw [swErrorNoted, inc_eq, fld_put_addr _ _ (Ne.symm hne), fld_incSat_self _ (by decide : 0 + 8 ≤ 32), oscOn_fec]
    rfl
  · rw [swErrorNoted, fld_inc_self _ (by decide : 0 + 32 ≤ 32), incSat, fld_put_addr _ _ hne, fld_put_addr _ _ hne]
    rfl

theorem sleeping_decodes {f : SwFrame} (h : s.sleepingCan n = some c) (hcfg : bitOf (s.cwRec n 1 1) 0 = true) (hp : s.wakePower 2 = true) :
    exec (.swFrameDecode n f) s = .next (s.swDecode c n f) := by
  simp only [exec, execSwFrameDecode, h, hcfg, hp, and_self, if_true]

theorem sleeping_ignores {f : SwFrame} (h : s.sleepingCan n = some c) (hoff : bitOf (s.cwRec n 1 1) 0 = false ∨ s.wakePower 2 = false) :
    exec (.swFrameDecode n f) s = .next s := by
  have hnot : ¬ (bitOf (s.cwRec n 1 1) 0 = true ∧ s.wakePower 2 = true) := by
    rintro ⟨h1, h2⟩
    obtain h' | h' := hoff
    · rw [h1] at h'; exact Bool.noConfusion h'
    · rw [h2] at h'; exact Bool.noConfusion h'
  simp only [exec, execSwFrameDecode, h, if_neg hnot]

/-! ## The WAKE pins (R376) -/

theorem pinEdge_select (b : Bool) : (if (!b) = true then 0 else 1) = if b = true then 1 else 0 := by cases b <;> rfl

theorem wakePin_quiet
    (h : bitOf (bits (secLe s.active tyNMCLUSTER (8 + k) 1) 0 2) (if s.flag (NMW_WAKEPIN_LEVEL k) then 1 else 0) = false) :
    s.wakePin k = s.put (NMW_WAKEPIN_LEVEL k) (bitN !s.flag (NMW_WAKEPIN_LEVEL k)) := by
  rw [← pinEdge_select] at h
  simp only [wakePin, h, if_true]

theorem wakePin_wakes (hp : s.pinCluster k = some c)
    (h : bitOf (bits (secLe s.active tyNMCLUSTER (8 + k) 1) 0 2) (if s.flag (NMW_WAKEPIN_LEVEL k) then 1 else 0) = true) :
    s.wakePin k = (s.put (NMW_WAKEPIN_LEVEL k) (bitN !s.flag (NMW_WAKEPIN_LEVEL k))).nmWake c 1 k 0 := by
  rw [← pinEdge_select] at h
  simp only [wakePin, h, hp, Bool.true_eq_false, if_false]

theorem levelPut_shows (s : State) (k : Nat) (b : Bool) : (s.put (NMW_WAKEPIN_LEVEL k) (bitN b)).flag (NMW_WAKEPIN_LEVEL k) = b ∧
    s.OnlyRegs (s.put (NMW_WAKEPIN_LEVEL k) (bitN b)) [rNMW_WAKEPIN k] :=
  ⟨s.flag_put_bitN (by decide : 31 + 1 ≤ 32) rfl b, (OnlyRegs.refl s _).put _ List.mem_cons_self⟩

end
end State

open State in
/-- Settles O46: each state's way on by what its entry writes, the Knell and PREPARE_SLEEP member by member; every wake in BUS_SLEEP is
the same recorded entry to REPEAT, behind the registers its source writes. -/
theorem nmClusterSleepsAndWakes : Obligations.NmClusterSleepsAndWakes := by
  unfold Obligations.NmClusterSleepsAndWakes
  refine ⟨fun s c hc he => ?_, fun s r c n k id dlc ext d hc he hs hp hw => ?_⟩
  · have is {st : Nat} (h : s.nc c = st) : s.ncIs c st = true := ncIs_of hc he h
    have isnt {st : Nat} (h : s.nc c ≠ st) : s.ncIs c st = false := ncIs_not h
    have moves {st st' : Nat} (h : s.nc c = st) (hne : st ≠ st') (hlt : st' < 8) : (s.ncPut c st').nc c = st' ∧
        (s.ncPut c st').flag (NMW_NC_EVT_STATE_CHG c) = true ∧ s.OnlyRegs (s.ncPut c st') [rNMW_NC_STATE c, rNMW_NC_EVT c] :=
      ⟨nc_ncPut s c hlt, ncPut_raises (h ▸ hne), s.ncPut_onlyRegs c st'⟩
    refine ⟨fun h => ⟨s.ncPut c ncNORMAL, ?_, moves h (by decide) (by decide)⟩,
      fun h hr hd => ⟨s.ncPut c ncREADY, ?_, moves h (by decide) (by decide)⟩, fun h hnot => ?_, fun h hd => ?_,
      fun cmd h hcmd => ⟨s.enterPrepare c, ?_, enterPrepare_shows h⟩, fun h => ?_, fun h hsl hl => ?_, fun ev h hsl hl => ?_,
      fun h hsl => ?_, fun h => ?_, fun h => ?_, fun h => ?_, fun h => ?_⟩
    · simp only [exec, execNmRepeatExpire, is h, if_true]
    · simp only [exec, execNmTimeout, is h, hr, hd, and_self, if_true]
    · have hnot' : ¬ (s.ncRequested c = false ∧ s.nmDue c = true) := by
        rintro ⟨h1, h2⟩
        obtain h' | h' := hnot
        · rw [h1] at h'; exact Bool.noConfusion h'
        · rw [h2] at h'; exact Bool.noConfusion h'
      simp only [exec, execNmTimeout, is h, true_and, if_neg hnot']
    · simp only [exec, execReadySleepDrained, hd, Bool.false_eq_true, and_false, if_false]
    · obtain ⟨rfl, hd⟩ | rfl := hcmd
      · simp only [exec, execReadySleepDrained, is h, hd, and_self, if_true]
      · simp only [exec, execReadyMaxExpire, is h, if_true]
    · obtain ⟨hstate, hknell, hlatched, hsettling, hlow, hcnt⟩ := s.knellNow_shows hc
      refine ⟨s.knellNow c false, ?_, hstate, hknell, hlatched, hsettling, hlow, hcnt, fun p hm => knellNow_linkUp hm, fun m hm hmem =>
        knellNow_can hm hmem⟩
      simp only [exec, execKnell, is h, if_true]
    · refine ⟨s.knellDone c, ?_, knellDone_shows (by rw [hsl, if_pos rfl, hl])⟩
      simp only [exec, execKnellEnd, is h, if_true]
    · refine ⟨s.knellDone c, ?_, knellDone_repeats hc hsl hl⟩
      simp only [exec, execKnellEnd, is h, if_true]
    · obtain ⟨hstate, -, honly⟩ := knellDone_shows (s := s) (c := c) (if_neg hsl)
      refine ⟨s.knellDone c, ?_, hstate, honly.same (f := (State.nmSt · c)) fun _ _ => rfl⟩
      simp only [exec, execKnellEnd, is h, if_true]
    · simp only [exec, execNmRepeatExpire, isnt h, Bool.false_eq_true, if_false]
    · simp only [exec, execReadyMaxExpire, isnt h, Bool.false_eq_true, if_false]
    · simp only [exec, execKnell, isnt h, Bool.false_eq_true, if_false]
    · simp only [exec, execKnellEnd, isnt h, Bool.false_eq_true, if_false]
  · have hsleep : s.Asleep c := ⟨hc, he, hs, hp, hw⟩
    refine ⟨fun hk hpin hedge => ?_, fun hk hedge => ?_, fun hn hm => ⟨fun hcfg => ?_, fun hcfg => ?_, fun hcfg hpow =>
      ⟨fun hmatch => ?_, fun hmatch => ?_, fun hfec => ?_, fun hfec => ?_⟩, fun hoff => ?_⟩, fun hn => ?_, fun hn hm => ?_,
      fun h24 h32 hm hpow => ?_, fun hpow => ?_, fun hr hfw => ?_⟩
    · obtain ⟨hlevel, honly⟩ := s.levelPut_shows k !s.flag (NMW_WAKEPIN_LEVEL k)
      have hne : rNMW_NC_STATE c ∉ [rNMW_WAKEPIN k] := by
        simp only [rNMW_NC_STATE, rNMW_WAKEPIN, List.mem_cons, List.not_mem_nil, or_false]; omega
      refine ⟨s.wakePin k, ?_, ?_, ?_⟩
      · simp only [exec, execWakePinEdge, hk, if_true]
      · rw [wakePin_wakes hpin hedge]
        exact nmWake_woke_after hsleep honly hne 1 k 0
      · rw [wakePin_wakes hpin hedge, flag, nmWake_fld (hsleep.after honly hne) 1 k 0, ← flag, hlevel]
        · refine ⟨?_, ne_wake_of_lt ?_⟩
          · simp only [NMW_WAKEPIN_LEVEL, rNMW_WAKEPIN, rNMW_NC_STATE, rNMW_NC_EVT, List.mem_cons, List.not_mem_nil, or_false]; omega
          · simp only [NMW_WAKEPIN_LEVEL, rNMW_WAKEPIN]; omega
        · simp only [NMW_WAKEPIN_LEVEL, rNMW_WAKEPIN, rNMW_EVT, rNMW_WREC_STAT, List.mem_cons, List.not_mem_nil, or_false]; omega
    · refine ⟨s.wakePin k, ?_, ?_⟩
      · simp only [exec, execWakePinEdge, hk, if_true]
      · rw [wakePin_quiet hedge]
        exact s.levelPut_shows k _
    · refine ⟨s.nmWake c 2 n 0, ?_, nmWake_woke hsleep 2 n 0⟩
      simp only [exec, execCanWakePattern, sleepingCan_some hn hm hs, hcfg, if_true]
    · simp only [exec, execCanWakePattern, sleepingCan_some hn hm hs, hcfg, Bool.false_eq_true, if_false]
    · have honly : s.OnlyRegs ((s.swFrameNoted n).inc (NMW_CAN_SW_MATCH_CNT_VAL n)) [rNMW_CAN_SW n, rNMW_CAN_SW_MATCH_CNT n] :=
        (s.swFrameNoted_onlyRegs n).trans (inc_onlyRegs _ _)
      refine ⟨_, sleeping_decodes (sleepingCan_some hn hm hs) hcfg hpow, ?_, ?_⟩
      · rw [swDecode_match hmatch]
        exact nmWake_woke_after hsleep honly (swRegs_ne n c).1 3 n k
      · rw [swDecode_match hmatch, nmWake_fld (hsleep.after honly (swRegs_ne n c).1) 3 n k, fld_inc_self _ (by decide : 0 + 32 ≤ 32),
          (s.swFrameNoted_onlyRegs n).fld]
        · rfl
        · simp only [NMW_CAN_SW_MATCH_CNT_VAL, rNMW_CAN_SW_MATCH_CNT, rNMW_CAN_SW, List.mem_cons, List.not_mem_nil, or_false]; omega
        · refine ⟨?_, fun m => ?_⟩
          · simp only [NMW_CAN_SW_MATCH_CNT_VAL, rNMW_CAN_SW_MATCH_CNT, rNMW_NC_STATE, rNMW_NC_EVT, List.mem_cons, List.not_mem_nil,
              or_false]
            omega
          · simp only [NMW_CAN_SW_MATCH_CNT_VAL, rNMW_CAN_SW_MATCH_CNT, rNMW_CAN_SW]; omega
        · simp only [NMW_CAN_SW_MATCH_CNT_VAL, rNMW_CAN_SW_MATCH_CNT, rNMW_EVT, rNMW_WREC_STAT, List.mem_cons, List.not_mem_nil,
            or_false]
          omega
    · have hne : rNMW_CAN_SW_IGNORE_CNT n ≠ rNMW_CAN_SW n := by simp only [rNMW_CAN_SW, rNMW_CAN_SW_IGNORE_CNT]; omega
      refine ⟨_, sleeping_decodes (sleepingCan_some hn hm hs) hcfg hpow, ?_, ?_, ?_⟩
      · rw [swDecode_ignore hmatch, inc_eq, fld_put_addr _ _ (Ne.symm hne), swFrameNoted_fec]
      · rw [swDecode_ignore hmatch, fld_inc_self _ (by decide : 0 + 32 ≤ 32), (s.swFrameNoted_onlyRegs n).fld]
        · rfl
        · exact fun h => hne (List.mem_singleton.mp h)
      · rw [swDecode_ignore hmatch]
        exact (s.swFrameNoted_onlyRegs n).trans (inc_onlyRegs _ _)
    · obtain ⟨hshow, hcnt⟩ := s.swErrorNoted_shows n
      refine ⟨s.swErrorNoted n, ?_, hshow, hcnt, s.swErrorNoted_onlyRegs n⟩
      rw [sleeping_decodes (sleepingCan_some hn hm hs) hcfg hpow, swDecode_error, if_neg (by omega)]
    · refine ⟨(s.swErrorNoted n).nmWake c 4 n 0, ?_, nmWake_woke_after hsleep (s.swErrorNoted_onlyRegs n) (swRegs_ne n c).2 4 n 0⟩
      rw [sleeping_decodes (sleepingCan_some hn hm hs) hcfg hpow, swDecode_error, if_pos hfec]
    · exact sleeping_ignores (sleepingCan_some hn hm hs) hoff
    · refine ⟨(s.put (NMW_CAN_SW_OSC_ON n) 0).put (NMW_CAN_SW_DECODING n) 0, ?_, ?_, flag_clear_self _ (by decide : 17 + 1 ≤ 32) rfl,
        ((OnlyRegs.refl s _).put 0 List.mem_cons_self).put 0 List.mem_cons_self⟩
      · simp only [exec, execSwBusIdle, hn, if_true]
      · rw [← flag_clear_self s (f := NMW_CAN_SW_OSC_ON n) (by decide : 16 + 1 ≤ 32) rfl]
        exact congrArg (· == 1) (fld_put_next 0 (by decide) (by decide))
    · refine ⟨s.nmWake c 5 n 0, ?_, nmWake_woke hsleep 5 n 0⟩
      simp only [exec, execLinBusWake, hm, hn, if_true]
    · refine ⟨s.nmWake c 6 (k - 24) 0, ?_, nmWake_woke hsleep 6 (k - 24) 0⟩
      simp only [exec, execTc10Wake, hm, h24, h32, hpow, and_self, if_true]
    · simp only [exec, execTc10Wake, hpow, Bool.false_eq_true, and_false, if_false]
      split <;> rfl
    · have hne : rNMW_NC_STATE c ∉ [rNMW_NC_REQ c] := by
        simp only [rNMW_NC_STATE, rNMW_NC_REQ, List.mem_cons, List.not_mem_nil, or_false]; omega
      have honly := s.fwPut_onlyRegs c (bitN true)
      have hsleep' := hsleep.after honly hne
      have hwake : s.writeNmReq c true = (s.put (NMW_NC_REQ_FW c) (bitN true)).nmWake c 8 0x40 0 := by
        simp only [writeNmReq, hfw, if_true, Bool.false_eq_true, if_false, nmRequest, hsleep'.state,
          if_neg (by decide : ¬ ncBUS_SLEEP = ncNORMAL)]
      refine ⟨_, exec_nmFwRequest hc hr true, ?_, ?_⟩
      · rw [hwake, flag, nmWake_fld hsleep' 8 0x40 0, ← flag]
        · exact s.fwPut_flag c true
        · refine ⟨?_, ne_wake_of_lt ?_⟩
          · simp only [NMW_NC_REQ_FW, rNMW_NC_REQ, rNMW_NC_STATE, rNMW_NC_EVT, List.mem_cons, List.not_mem_nil, or_false]; omega
          · simp only [NMW_NC_REQ_FW, rNMW_NC_REQ]; omega
        · simp only [NMW_NC_REQ_FW, rNMW_NC_REQ, rNMW_EVT, rNMW_WREC_STAT, List.mem_cons, List.not_mem_nil, or_false]; omega
      · rw [hwake]
        exact nmWake_woke_after hsleep honly hne 8 0x40 0

end Sys2Proof.Machine
end

section
/-! SUPPORT. Belfry: how a command ends, what its slots are afterwards, and what it finds staged (R412 to R425). -/

namespace Sys2Proof.Machine
namespace State

section
variable {s t u : State} {n m st : Nat}

theorem fld_of_reg {f : Fld} (h : t.reg f.addr = s.reg f.addr) : t.fld f = s.fld f := by rw [fld, fld, h]

/-! ## The data window cleared -/

theorem clears_out (a : Nat) (l : List Nat) (s : State) {c : Nat} (h : ∀ k ∈ l, c ≠ a + 4 * k) :
    (l.foldl (fun s k => s.setReg (a + 4 * k) 0) s).reg c = s.reg c :=
  foldl_same (fun t => t.reg c) (fun t k hk => reg_setReg_ne t 0 (h k hk)) s

theorem clears_in (a : Nat) {l : List Nat} (s : State) {k : Nat} (h : k ∈ l) :
    (l.foldl (fun s k => s.setReg (a + 4 * k) 0) s).reg (a + 4 * k) = 0 := by
  induction l generalizing s with
  | nil => exact absurd h List.not_mem_nil
  | cons b l ih =>
    by_cases hl : k ∈ l
    · exact ih _ hl
    · obtain rfl : k = b := (List.mem_cons.mp h).resolve_right hl
      rw [List.foldl_cons, clears_out a l _ fun q hq e => hl (by rwa [show k = q by omega]), reg_setReg_self]

theorem window_word (k : Nat) : rBLF_DATA 0 + 4 * k = rBLF_DATA k := by simp only [rBLF_DATA]

theorem windowClear_reg_in (s : State) {k : Nat} (h : k < 1024) : (s.windowClear (rBLF_DATA 0)).reg (rBLF_DATA k) = 0 := by
  have hin := clears_in (rBLF_DATA 0) s (List.mem_range.mpr h)
  rwa [window_word] at hin

theorem windowClear_reg_out (s : State) {c : Nat} (h : ∀ k, k < 1024 → c ≠ rBLF_DATA k) : (s.windowClear (rBLF_DATA 0)).reg c = s.reg c :=
  clears_out _ _ s fun k hk => by
    rw [window_word]
    exact h k (List.mem_range.mp hk)

theorem clears_rest (a : Nat) (l : List Nat) (s : State) : { l.foldl (fun s k => s.setReg (a + 4 * k) 0) s with regs := s.regs } = s := by
  induction l generalizing s with
  | nil => rfl
  | cons b l ih => exact (congrArg (fun t : State => { t with regs := s.regs }) (ih _) :)

theorem windowPut_reg_ne (a : Nat) {c : Nat} (l : List Byte) (s : State) (i : Nat) (h : ∀ j, j < i + l.length → c ≠ a + 4 * (j / 4)) :
    (s.windowPut a i l).reg c = s.reg c := by
  induction l generalizing s i with
  | nil => rfl
  | cons b l ih =>
    have hl : (b :: l).length = l.length + 1 := rfl
    rw [windowPut, ih _ _ fun j hj => h j (by omega)]
    exact reg_put_ne s _ _ (h i (by omega))

/-! ## The end of a command (R425) -/

/-- The output of a command in the data window. -/
def blfOut (s : State) (out : List Byte) : State :=
  if out = [] then s.windowClear (rBLF_DATA 0) else s.windowPut (rBLF_DATA 0) 0 (out.take 4096)

theorem blfOut_rest (s : State) (out : List Byte) : { s.blfOut out with regs := s.regs } = s := by
  unfold blfOut windowClear
  split
  · exact clears_rest _ _ s
  · exact windowPut_rest _ _ s 0

theorem blfOut_reg (s : State) (out : List Byte) {c : Nat} (h : ∀ k, k < 1024 → c ≠ rBLF_DATA k) : (s.blfOut out).reg c = s.reg c := by
  unfold blfOut
  split
  · exact s.windowClear_reg_out h
  · refine windowPut_reg_ne _ _ s 0 fun j hj => ?_
    have hlen : (out.take 4096).length ≤ 4096 := List.length_take_le _ _
    rw [window_word]
    exact h _ (by omega)

theorem blfOut_cleared (s : State) {k : Nat} (h : k < 1024) : (s.blfOut []).reg (rBLF_DATA k) = 0 := by
  rw [blfOut, if_pos rfl]
  exact s.windowClear_reg_in h

theorem blfOut_window (s : State) (out : List Byte) : (s.blfOut out).window (rBLF_DATA 0) (out.take 4096).length = out.take 4096 := by
  by_cases h : out = []
  · rw [h]
    rfl
  · rw [blfOut, if_neg h]
    exact window_windowPut s _ _

/-- The use of an orphaned slot counted. -/
def blfCount (s : State) (st : Nat) : State := if st = bsORPHANED then s.inc BLF_ORPHAN_USE_CNT_VAL else s

theorem blfCount_onlyRegs (s : State) (st : Nat) : s.OnlyRegs (s.blfCount st) [rBLF_ORPHAN_USE_CNT] := by
  unfold blfCount
  split
  · exact inc_onlyRegs s _
  · exact .refl s _

theorem blfCount_same (s : State) (h : st ≠ 5) : s.blfCount st = s := if_neg h

theorem blfCount_counts (s : State) : (s.blfCount 5).fld BLF_ORPHAN_USE_CNT_VAL = (s.fld BLF_ORPHAN_USE_CNT_VAL + 1) % 2 ^ 32 :=
  fld_inc_self s (by decide)

theorem setFlag_onlyRegs (s : State) (f : Fld) : s.OnlyRegs (s.setFlag f) [f.addr] := (OnlyRegs.refl s _).put 1 List.mem_cons_self

/-- STATUS shown, BUSY cleared and CMD_DONE raised. -/
def blfDone (s : State) (st : Nat) : State := ((s.put BLF_CMD_STATUS st).put BLF_CMD_BUSY 0).setFlag BLF_EVT_CMD_DONE

theorem blfEnd_eq (s : State) (st : Nat) (out : List Byte) : s.blfEnd st out = ((s.blfOut out).blfCount st).blfDone st := rfl

theorem blfDone_onlyRegs (s : State) (st : Nat) : s.OnlyRegs (s.blfDone st) [rBLF_CMD, rBLF_EVT] := by
  have hcmd : s.OnlyRegs ((s.put BLF_CMD_STATUS st).put BLF_CMD_BUSY 0) [rBLF_CMD] :=
    ((OnlyRegs.refl s _).put st List.mem_cons_self).put 0 List.mem_cons_self
  exact hcmd.trans (setFlag_onlyRegs _ _)

theorem blfDone_cmd (s : State) (st i j : Nat) :
    (s.blfDone st).fld ⟨rBLF_CMD, i, j⟩ = ((s.put BLF_CMD_STATUS st).put BLF_CMD_BUSY 0).fld ⟨rBLF_CMD, i, j⟩ := fld_put_other 1 (by decide)

theorem blfDone_status (s : State) (h : st < 32) : (s.blfDone st).fld BLF_CMD_STATUS = st :=
  (s.blfDone_cmd st 26 5).trans ((fld_put_next 0 (by decide) (by decide)).trans ((fld_put_same st (by decide)).trans (Nat.mod_eq_of_lt h)))

theorem blfDone_busy (s : State) (st : Nat) : (s.blfDone st).flag BLF_CMD_BUSY = false :=
  congrArg (· == 1) ((s.blfDone_cmd st 31 1).trans (fld_put_same 0 (by decide)))

theorem blfDone_event (s : State) (st : Nat) : (s.blfDone st).flag BLF_EVT_CMD_DONE = true := flag_setFlag_self _ (by decide) rfl

/-- The other events stay. -/
theorem blfDone_evt (s : State) (st : Nat) {i j : Nat} (hj : i + j ≤ 32) (hi : 1 ≤ i) :
    (s.blfDone st).fld ⟨rBLF_EVT, i, j⟩ = s.fld ⟨rBLF_EVT, i, j⟩ :=
  (fld_put_next 1 hj (.inl hi)).trans ((fld_put_other 0 (by decide)).trans (fld_put_other st (by decide)))

theorem data_ne_events {k : Nat} (h : k < 1024) : rBLF_CMD ≠ rBLF_DATA k ∧ rBLF_EVT ≠ rBLF_DATA k ∧ rBLF_ORPHAN_USE_CNT ≠ rBLF_DATA k ∧
    rBLF_RECLAIM_CNT ≠ rBLF_DATA k := by
  simp only [rBLF_CMD, rBLF_EVT, rBLF_ORPHAN_USE_CNT, rBLF_RECLAIM_CNT, rBLF_DATA]
  omega

/-- What ends a command leaves all but its registers. -/
theorem blfEnd_reg (s : State) (st : Nat) (out : List Byte) {c : Nat} (hc : c ∉ [rBLF_CMD, rBLF_EVT]) (ho : st = 5 → c ≠ rBLF_ORPHAN_USE_CNT)
    (hd : ∀ k, k < 1024 → c ≠ rBLF_DATA k) : (s.blfEnd st out).reg c = s.reg c := by
  rw [blfEnd_eq, (blfDone_onlyRegs _ st).regs c hc, ← s.blfOut_reg out hd]
  by_cases h : st = 5
  · exact (blfCount_onlyRegs _ st).regs c fun e => ho h (List.mem_singleton.mp e)
  · rw [blfCount_same _ h]

theorem rest_trans (h : { t with regs := s.regs } = s) (k : { u with regs := t.regs } = t) : { u with regs := s.regs } = s :=
  (congrArg (fun x : State => { x with regs := s.regs }) k :).trans h

theorem blf_of_rest (h : { t with regs := s.regs } = s) : t.blf = s.blf := (congrArg State.blf h :)
theorem free_of_rest (h : { t with regs := s.regs } = s) : t.free = s.free := (congrArg State.free h :)

theorem blfEnd_rest (s : State) (st : Nat) (out : List Byte) : { s.blfEnd st out with regs := s.regs } = s := by
  rw [blfEnd_eq]
  exact rest_trans (s.blfOut_rest out) (rest_trans (blfCount_onlyRegs _ st).rest (blfDone_onlyRegs _ st).rest)

theorem blfEnd_blf (s : State) (st : Nat) (out : List Byte) : (s.blfEnd st out).blf = s.blf := blf_of_rest (s.blfEnd_rest st out)
theorem blfEnd_free (s : State) (st : Nat) (out : List Byte) : (s.blfEnd st out).free = s.free := free_of_rest (s.blfEnd_rest st out)

theorem blfEnd_evt (s : State) (st : Nat) (out : List Byte) {i j : Nat} (hj : i + j ≤ 32) (hi : 1 ≤ i) :
    (s.blfEnd st out).fld ⟨rBLF_EVT, i, j⟩ = s.fld ⟨rBLF_EVT, i, j⟩ := by
  rw [blfEnd_eq, blfDone_evt _ _ hj hi, (blfCount_onlyRegs _ st).fld (by decide : rBLF_EVT ∉ _), fld, fld,
    s.blfOut_reg out fun k hk => (data_ne_events hk).2.1]

/-- What a command may have done before its end: Belfry's slots, staged envelope and notes, and its events. -/
structure BlfActed (s u : State) : Prop where
  blf : { u.blf with slots := s.blf.slots, staged := s.blf.staged, edges := s.blf.edges, below := s.blf.below } = s.blf
  rest : { u with regs := s.regs, blf := s.blf, free := s.free } = s
  regs : s.RegsBut u [rBLF_EVT]

theorem BlfActed.rest_after (h : s.BlfActed u) (k : { t with regs := u.regs } = u) :
    { t with regs := s.regs, blf := s.blf, free := s.free } = s :=
  (congrArg (fun x : State => { x with regs := s.regs, blf := s.blf, free := s.free }) k :).trans h.rest

theorem BlfActed.ended (h : s.BlfActed u) (hst : st < 32) (out : List Byte) : s.BlfEnded (u.blfEnd st out) st out where
  status := by rw [blfEnd_eq, blfDone_status _ hst]
  busy := by rw [blfEnd_eq, blfDone_busy]
  event := by rw [blfEnd_eq, blfDone_event]
  cleared := by
    rintro rfl k hk
    have hne := data_ne_events hk
    have hcmd : rBLF_DATA k ∉ [rBLF_CMD, rBLF_EVT] := by simp [hne.1.symm, hne.2.1.symm]
    have hcnt : rBLF_DATA k ∉ [rBLF_ORPHAN_USE_CNT] := by simp [hne.2.2.1.symm]
    rw [blfEnd_eq, (blfDone_onlyRegs _ st).regs _ hcmd, (blfCount_onlyRegs _ st).regs _ hcnt, u.blfOut_cleared hk]
  output := by
    refine Eq.trans (window_congr fun i hi => ?_) (u.blfOut_window out)
    have hlen : (out.take 4096).length ≤ 4096 := List.length_take_le _ _
    have hne := data_ne_events (show i / 4 < 1024 by omega)
    have hcmd : rBLF_DATA (i / 4) ∉ [rBLF_CMD, rBLF_EVT] := by simp [hne.1.symm, hne.2.1.symm]
    have hcnt : rBLF_DATA (i / 4) ∉ [rBLF_ORPHAN_USE_CNT] := by simp [hne.2.2.1.symm]
    rw [window_word, blfEnd_eq, (blfDone_onlyRegs _ st).regs _ hcmd, (blfCount_onlyRegs _ st).regs _ hcnt]
  orphan := by
    rintro rfl
    have hkept : (u.blfOut out).fld BLF_ORPHAN_USE_CNT_VAL = s.fld BLF_ORPHAN_USE_CNT_VAL := by
      exact fld_of_reg ((u.blfOut_reg out fun k hk => (data_ne_events hk).2.2.1).trans (h.regs _ (by decide)))
    rw [blfEnd_eq, (blfDone_onlyRegs _ 5).fld (by decide), blfCount_counts, hkept]
  regs := fun a hcmd hevt ho hd => by
    rw [u.blfEnd_reg st out (by simp [hcmd, hevt]) ho hd, h.regs a (by simp [hevt])]
  blf := by rw [blfEnd_blf]; exact h.blf
  rest := h.rest_after (u.blfEnd_rest st out)

/-! ## What starts a command -/

/-- A staged envelope discarded (R422). -/
def unstaged (s : State) : State := { s with blf := { s.blf with staged := none } }

theorem blfCommand_ends (hr : s.reaches .mc rBLF_CMD) (hb : s.flag BLF_CMD_BUSY = false) {act : State → BlfRes} {out : List Byte}
    (h : act s.unstaged = (u, st, out)) : s.blfCommand .mc false act = u.blfEnd st out := by
  have hact : act { s with blf := { s.blf with staged := none } } = (u, st, out) := h
  rw [blfCommand, mcOnly_mc hr, hb]
  simp only [Bool.false_eq_true, if_false, hact]

/-! ## Slots -/

theorem slot_congr (h : t.blf.slots = s.blf.slots) (n : Nat) : t.slot n = s.slot n := by rw [slot, slot, h]

theorem orphanFrom_congr (h : t.blf.slots = s.blf.slots) (fuel : Nat) (k : KeyHalf) : t.orphanFrom fuel k = s.orphanFrom fuel k := by
  induction fuel generalizing k with
  | zero => rfl
  | succ fuel ih => simp only [orphanFrom, slot_congr h, ih]

theorem orphaned_congr (h : t.blf.slots = s.blf.slots) (n : Nat) : t.orphaned n = s.orphaned n := by
  simp only [orphaned, slot_congr h, orphanFrom_congr h]

theorem slot_setSlot_self (s : State) (hn : 2 ≤ n) (x : SlotSt) : (s.setSlot n x).slot n = x := by
  rw [slot, if_neg (by omega)]
  exact tabGet_tabSet_self _ _ _ _

theorem slot_setSlot_ne (s : State) (h : m ≠ n) (x : SlotSt) : (s.setSlot n x).slot m = s.slot m := by
  rw [slot, slot]
  split
  · rfl
  · exact tabGet_tabSet_ne _ _ _ h

theorem blfEnd_slot (s : State) (st : Nat) (out : List Byte) (n : Nat) : (s.blfEnd st out).slot n = s.slot n :=
  slot_congr (congrArg Blf.slots (s.blfEnd_blf st out)) n


/-! ## What a command may change -/

theorem BlfActed.unstaged (s : State) : s.BlfActed s.unstaged := ⟨rfl, rfl, fun _ _ => rfl⟩

theorem BlfActed.withFree (h : s.BlfActed u) (f : Nat) : s.BlfActed { u with free := f } := ⟨h.blf, h.rest, h.regs⟩

theorem BlfActed.setSlot (h : s.BlfActed u) (n : Nat) (x : SlotSt) : s.BlfActed (u.setSlot n x) := ⟨h.blf, h.rest, h.regs⟩

theorem BlfActed.slotEdge (h : s.BlfActed u) (n : Nat) (b : Bool) : s.BlfActed (u.slotEdge n b) := ⟨h.blf, h.rest, h.regs⟩

theorem BlfActed.withBelow (h : s.BlfActed u) (l : Tab (List Nat)) : s.BlfActed { u with blf := { u.blf with below := l } } := ⟨h.blf, h.rest, h.regs⟩

theorem BlfActed.withStaged (h : s.BlfActed u) (x : Option (List Byte × SlotSt)) : s.BlfActed { u with blf := { u.blf with staged := x } } :=
  ⟨h.blf, h.rest, h.regs⟩

theorem BlfActed.setFlag (h : s.BlfActed u) {f : Fld} (hf : f.addr = rBLF_EVT) : s.BlfActed (u.setFlag f) :=
  ⟨h.blf, h.rest, fun a ha => (reg_put_ne u f 1 fun e => ha (by rw [e, hf]; exact List.mem_cons_self)).trans (h.regs a ha)⟩

/-! ## The same command with its envelope discarded -/

@[simp] theorem unstaged_slot (s : State) (n : Nat) : s.unstaged.slot n = s.slot n := rfl
@[simp] theorem unstaged_orphaned (s : State) (n : Nat) : s.unstaged.orphaned n = s.orphaned n :=
  orphaned_congr (s := s) (t := s.unstaged) rfl n
@[simp] theorem unstaged_random (s : State) (n : Nat) : (s.unstaged.random n).2 = (s.random n).2 :=
  random_congr (s := s) (t := s.unstaged) rfl n
@[simp] theorem unstaged_window (s : State) (a n : Nat) : s.unstaged.window a n = s.window a n := window_congr fun _ _ => rfl
@[simp] theorem unstaged_blfReq (s : State) (n : Nat) (p e : Bool) : s.unstaged.blfReq n p e = s.blfReq n p e := by
  unfold blfReq
  rw [unstaged_window]
  rfl

/-! ## Commands by what they leave (R425) -/

theorem blfCommand_answers (hr : s.reaches .mc rBLF_CMD) (hb : s.flag BLF_CMD_BUSY = false) {act : State → BlfRes} {out : List Byte}
    {f : Nat} (hst : st < 32) (h : act s.unstaged = ({ s.unstaged with free := f }, st, out)) :
    s.BlfEnded (s.blfCommand .mc false act) st out ∧ (s.blfCommand .mc false act).blf.slots = s.blf.slots ∧
      (s.blfCommand .mc false act).free = f := by
  rw [blfCommand_ends hr hb h, blfEnd_blf, blfEnd_free]
  exact ⟨((BlfActed.unstaged s).withFree f).ended hst out, rfl, rfl⟩

theorem blfCommand_sets (hr : s.reaches .mc rBLF_CMD) (hb : s.flag BLF_CMD_BUSY = false) {act : State → BlfRes}
    {f : Nat} {x : SlotSt} (hn : 2 ≤ n) (hst : st < 32)
    (h : act s.unstaged = (({ s.unstaged with free := f } : State).setSlot n x, st, [])) :
    s.BlfEnded (s.blfCommand .mc false act) st [] ∧ (s.blfCommand .mc false act).slot n = x ∧
      (∀ m, m ≠ n → (s.blfCommand .mc false act).slot m = s.slot m) ∧ (s.blfCommand .mc false act).blf.staged = none ∧
      (s.blfCommand .mc false act).free = f := by
  rw [blfCommand_ends hr hb h, blfEnd_blf, blfEnd_free, blfEnd_slot]
  refine ⟨(((BlfActed.unstaged s).withFree f).setSlot n x).ended hst [], slot_setSlot_self _ hn x, fun m hm => ?_, rfl, rfl⟩
  rw [blfEnd_slot, slot_setSlot_ne _ hm]
  rfl

theorem blfCommand_makes (hr : s.reaches .mc rBLF_CMD) (hb : s.flag BLF_CMD_BUSY = false) {act : State → BlfRes}
    {f : Nat} {k : KeyHalf} (hn : 2 ≤ n) (h : act s.unstaged =
      (({ s.unstaged with free := f } : State).setSlot n { s.slot n with cur := some k, owner := ownFIRMWARE }, bsOK, [])) :
    s.BlfMade (s.blfCommand .mc false act) n k ∧ (s.blfCommand .mc false act).free = f := by
  obtain ⟨hend, hslot, hothers, hstaged, hfree⟩ := blfCommand_sets hr hb hn (by decide) h
  exact ⟨⟨hend, hstaged, hslot, hothers⟩, hfree⟩

theorem withFree_same (s : State) : { s with free := s.free } = s := rfl

theorem unstaged_withFree (s : State) : { s.unstaged with free := s.free } = s.unstaged := withFree_same s.unstaged

theorem blfCommand_answers_kept (hr : s.reaches .mc rBLF_CMD) (hb : s.flag BLF_CMD_BUSY = false) {act : State → BlfRes} {out : List Byte}
    (hst : st < 32) (h : act s.unstaged = (s.unstaged, st, out)) : s.BlfEnded (s.blfCommand .mc false act) st out ∧
      (s.blfCommand .mc false act).blf.slots = s.blf.slots ∧ (s.blfCommand .mc false act).free = s.free :=
  blfCommand_answers hr hb hst (by rw [unstaged_withFree]; exact h)

theorem blfCommand_sets_kept (hr : s.reaches .mc rBLF_CMD) (hb : s.flag BLF_CMD_BUSY = false) {act : State → BlfRes} {x : SlotSt}
    (hn : 2 ≤ n) (hst : st < 32) (h : act s.unstaged = (s.unstaged.setSlot n x, st, [])) :
    s.BlfEnded (s.blfCommand .mc false act) st [] ∧ (s.blfCommand .mc false act).slot n = x ∧
      (∀ m, m ≠ n → (s.blfCommand .mc false act).slot m = s.slot m) ∧ (s.blfCommand .mc false act).blf.staged = none ∧
      (s.blfCommand .mc false act).free = s.free :=
  blfCommand_sets hr hb hn hst (by rw [unstaged_withFree]; exact h)

theorem blfCommand_makes_kept (hr : s.reaches .mc rBLF_CMD) (hb : s.flag BLF_CMD_BUSY = false) {act : State → BlfRes} {k : KeyHalf}
    (hn : 2 ≤ n) (h : act s.unstaged = (s.unstaged.setSlot n { s.slot n with cur := some k, owner := ownFIRMWARE }, bsOK, [])) :
    s.BlfMade (s.blfCommand .mc false act) n k ∧ (s.blfCommand .mc false act).free = s.free :=
  blfCommand_makes hr hb hn (by rw [unstaged_withFree]; exact h)

/-! ## A new key (R412, R415) -/

section
variable {q : BlfReq} {k : KeyHalf} {algOk : Nat → Bool} {make : State → Nat → Nat → State × Except Nat KeyHalf} {e : Nat}

theorem blfAlter_firmware (hw : q.who = ownFIRMWARE) (h16 : 16 ≤ q.slot) (hs : q.slot < 1024) : s.blfAlter q = none := by
  rw [blfAlter, if_neg (by omega), if_pos (.inl hw)]

theorem blfFill_new (ha : s.blfAlter q = none) (hp : q.pending = false) (hc : (s.slot q.slot).cur = none) (hok : algOk q.alg = true)
    (hu : bitOf q.usage 7 = false) (hm : make s q.alg q.usage = (u, .ok k)) :
    s.blfFill q algOk make = (u.setSlot q.slot { s.slot q.slot with cur := some k, owner := q.who }, bsOK, []) := by
  simp [blfFill, ha, hp, hc, hok, hu, hm]

theorem blfFill_refused (ha : s.blfAlter q = none) (hp : q.pending = false) (hc : (s.slot q.slot).cur = none) (hok : algOk q.alg = true)
    (hu : bitOf q.usage 7 = false) (hm : make s q.alg q.usage = (u, .error e)) : s.blfFill q algOk make = (u, e, []) := by
  simp [blfFill, ha, hp, hc, hok, hu, hm]

theorem blfFill_held (ha : s.blfAlter q = none) (hp : q.pending = false) (hc : (s.slot q.slot).cur = some k) :
    s.blfFill q algOk make = (s, bsSLOT, []) := by
  simp [blfFill, ha, hp, hc]

theorem blfFill_pending {k0 : KeyHalf} (ha : s.blfAlter q = none) (hp : q.pending = true) (hc : (s.slot q.slot).cur = some k0)
    (ho : s.orphaned q.slot = false) (hok : algOk k0.alg = true) (hu : bitOf k0.usage 7 = false)
    (hm : make s k0.alg k0.usage = (u, .ok k)) :
    s.blfFill q algOk make = (u.setSlot q.slot { s.slot q.slot with pend := some k, checked := false }, bsOK, []) := by
  simp [blfFill, ha, hp, hc, ho, hok, hu, hm]

/-- A key of random bytes. -/
def drawnKey (s : State) (alg usage : Nat) (e : Bool) : KeyHalf :=
  ⟨alg, usage, 0xFFFF, 0, 0, e, 0, (s.random (keyLen alg)).2, pubOf alg (s.random (keyLen alg)).2⟩

@[simp] theorem unstaged_drawnKey (s : State) (alg usage : Nat) (e : Bool) : s.unstaged.drawnKey alg usage e = s.drawnKey alg usage e := by
  rw [drawnKey, drawnKey, unstaged_random]

theorem blfGen_eq (s : State) (q : BlfReq) : s.blfGen q = s.blfFill q (fun a => isAes a || isPriv a) fun s alg usage =>
    ((s.random (keyLen alg)).1, .ok (s.drawnKey alg usage q.exprt)) := rfl

theorem blfGen_new (ha : s.blfAlter q = none) (hp : q.pending = false) (hc : (s.slot q.slot).cur = none)
    (hok : isAes q.alg = true ∨ isPriv q.alg = true) (hu : bitOf q.usage 7 = false) :
    s.blfGen q = (({ s with free := s.free + keyLen q.alg } : State).setSlot q.slot
      { s.slot q.slot with cur := some (s.drawnKey q.alg q.usage q.exprt), owner := q.who }, bsOK, []) := by
  rw [blfGen_eq, blfFill_new ha hp hc (Bool.or_eq_true_iff.mpr hok) hu rfl, random_state]

theorem blfGen_pending (ha : s.blfAlter q = none) (hp : q.pending = true) (hc : (s.slot q.slot).cur = some k)
    (ho : s.orphaned q.slot = false) (hok : isAes k.alg = true ∨ isPriv k.alg = true) (hu : bitOf k.usage 7 = false) :
    s.blfGen q = (({ s with free := s.free + keyLen k.alg } : State).setSlot q.slot
      { s.slot q.slot with pend := some (s.drawnKey k.alg k.usage q.exprt), checked := false }, bsOK, []) := by
  rw [blfGen_eq, blfFill_pending ha hp hc ho (Bool.or_eq_true_iff.mpr hok) hu rfl, random_state]

theorem blfImpPub_new (ha : s.blfAlter q = none) (hc : (s.slot q.slot).cur = none) (hok : isPub q.alg = true)
    (hu : bitOf q.usage 7 = false) : s.blfImpPub q = (s.setSlot q.slot { s.slot q.slot with
      cur := some ⟨q.alg, q.usage, 0xFFFF, 0, 2, q.exprt, 0, [], q.data.take (pubLen q.alg)⟩, owner := q.who }, bsOK, []) :=
  blfFill_new (q := { q with pending := false }) ha rfl hc hok hu rfl

theorem blfParent_ok {use : Nat} (hw : q.who = ownFIRMWARE) (hp : q.pending = false) (h16 : 16 ≤ q.arg) (h1024 : q.arg < 1024)
    (hc : (s.slot q.arg).cur = some k) (ho : s.orphaned q.arg = false) (hu : bitOf k.usage use = true) (ha : isAes k.alg = true)
    (hd : k.depth < 7) : s.blfParent q use = .ok k := by
  have hmay : s.mayParent ownFIRMWARE q.arg = true := by simp [mayParent, mayUse, h16, h1024]
  have hdepth : ¬ 7 < k.depth + 1 := by omega
  simp [blfParent, hc, hp, hw, hmay, ho, hu, ha, hdepth]

/-- A key derived from a parent. -/
def derivedKey (s : State) (q : BlfReq) (p : KeyHalf) (alg usage : Nat) : KeyHalf :=
  ⟨alg, usage, q.arg, (s.slot q.arg).gen, 1, q.exprt, p.depth + 1, derive108 p.key q.data (keyLen alg), []⟩

theorem blfDer_new {p : KeyHalf} (ha : s.blfAlter q = none) (hp : q.pending = false) (hc : (s.slot q.slot).cur = none)
    (hok : isAes q.alg = true) (hu : bitOf q.usage 7 = false) (hpar : s.blfParent q uDERIVE = .ok p) :
    s.blfDer q = (s.setSlot q.slot { s.slot q.slot with cur := some (s.derivedKey q p q.alg q.usage), owner := q.who }, bsOK, []) := by
  refine blfFill_new ha hp hc hok hu ?_
  rw [hpar]
  rfl

/-- A key unwrapped under a parent. -/
def importedKey (s : State) (q : BlfReq) (p : KeyHalf) (alg usage : Nat) (key : List Byte) : KeyHalf :=
  ⟨alg, usage, q.arg, (s.slot q.arg).gen, 2, q.exprt, p.depth + 1, key, pubOf alg key⟩

theorem blfImp_new {p : KeyHalf} {key : List Byte} (ha : s.blfAlter q = none) (hp : q.pending = false) (hc : (s.slot q.slot).cur = none)
    (hok : isAes q.alg = true ∨ isPriv q.alg = true) (hu : bitOf q.usage 7 = false) (hpar : s.blfParent q uWRAP = .ok p)
    (hkey : unwrapKey p.key (q.data.take (keyLen q.alg + 8)) = some key) :
    s.blfImp q = (s.setSlot q.slot { s.slot q.slot with cur := some (s.importedKey q p q.alg q.usage key), owner := q.who }, bsOK, []) := by
  refine blfFill_new ha hp hc (Bool.or_eq_true_iff.mpr hok) hu ?_
  simp only [hpar, hkey]
  rfl

theorem blfImp_bad {p : KeyHalf} (ha : s.blfAlter q = none) (hp : q.pending = false) (hc : (s.slot q.slot).cur = none)
    (hok : isAes q.alg = true ∨ isPriv q.alg = true) (hu : bitOf q.usage 7 = false) (hpar : s.blfParent q uWRAP = .ok p)
    (hkey : unwrapKey p.key (q.data.take (keyLen q.alg + 8)) = none) : s.blfImp q = (s, bsUNWRAP, []) := by
  refine blfFill_refused ha hp hc (Bool.or_eq_true_iff.mpr hok) hu ?_
  simp only [hpar, hkey]

end

end
end State
end Sys2Proof.Machine
end

section
/-! PROOFS. Belfry makes keys and changes its slots (R412 to R415, R418, R425): O49. -/

namespace Sys2Proof.Machine
namespace State

section
variable {s t u : State} {n m : Nat} {k : KeyHalf} {q : BlfReq}

/-! ## CHECK, COMMIT and DISCARD_PENDING (R418) -/

/-- The test of a pending key: its KCV, or a signature verified. -/
def checkGood (s : State) (k : KeyHalf) (kcv : Nat) : Bool :=
  if isAes k.alg then (cryptoBytes (.ecb false) [k.key, List.replicate 16 0] 16).take 3 == leBytes 3 kcv
  else ecVerify (algBig k.alg) k.pub (testDigest (algBig k.alg)) (ecSign (algBig k.alg) k.key (testDigest (algBig k.alg))
    (s.random (ecLen (algBig k.alg))).2)

/-- The test draws a nonce for a signature alone. -/
def checkFree (s : State) (k : KeyHalf) : Nat := if isAes k.alg then s.free else s.free + ecLen (algBig k.alg)

theorem checkFree_state (s : State) (k : KeyHalf) :
    (if isAes k.alg = true then s else (s.random (ecLen (algBig k.alg))).1) = { s with free := s.checkFree k } := by
  unfold checkFree
  split
  · rfl
  · exact random_state s _

theorem blfChk_eq (ha : s.blfAlter q = none) (hp : (s.slot q.slot).pend = some k) (ho : s.orphaned q.slot = false) :
    s.blfChk q = if s.checkGood k q.kcv then
        (({ s with free := s.checkFree k } : State).setSlot q.slot { s.slot q.slot with checked := true }, bsOK, [])
      else ({ s with free := s.checkFree k }, bsCHECKFAIL, []) := by
  rw [← checkFree_state]
  simp only [blfChk, ha, hp, ho, Bool.false_eq_true, if_false]
  rfl

/-- A pending key in service (R418 step 4). -/
def committed (x : SlotSt) (k : KeyHalf) : SlotSt := { x with cur := some k, pend := none, checked := false, version := (x.version + 1) % 65536 }

theorem blfCom_checked {k0 : KeyHalf} (ha : s.blfAlter q = none) (hc : (s.slot q.slot).cur = some k0) (ho : s.orphaned q.slot = false)
    (hp : (s.slot q.slot).pend = some k) (hk : (s.slot q.slot).checked = true) :
    s.blfCom q = ((s.slotEdge q.slot false).setSlot q.slot (committed (s.slot q.slot) k), bsOK, []) := by
  simp only [blfCom, ha, hc, ho, hp, hk, Option.isNone_some, Bool.false_eq_true, if_false]
  rfl

theorem blfCom_unchecked {k0 : KeyHalf} (ha : s.blfAlter q = none) (hc : (s.slot q.slot).cur = some k0) (ho : s.orphaned q.slot = false)
    (h : (s.slot q.slot).pend = none ∨ (s.slot q.slot).checked = false) : s.blfCom q = (s, bsNOTCHECKED, []) := by
  simp only [blfCom, ha, hc, ho, Option.isNone_some, Bool.false_eq_true, if_false]
  split
  · next k hp hk => exact absurd h (by simp [hp, hk])
  · rfl

theorem blfDis_eq (ha : s.blfAlter q = none) :
    s.blfDis q = (s.setSlot q.slot { s.slot q.slot with pend := none, checked := false }, bsOK, []) := by
  simp only [blfDis, ha]

/-! ## INVALIDATE (R413) -/

/-- A slot emptied, and the loads of its clock told. -/
def slotKilled (s : State) (n : Nat) : State := (s.slotEdge n true).setSlot n (s.slot n).emptied

/-- What its invalidation orphans. -/
def newOrphans (s : State) (n : Nat) : List Nat := (List.range 1024).filter fun c => (s.slotKilled n).orphaned c && !s.orphaned c

/-- Slots noted that the reclaimer has still to pass. -/
def withBelow (s : State) (l : Tab (List Nat)) : State := { s with blf := { s.blf with below := l } }

theorem withBelow_below (s : State) (l : Tab (List Nat)) : (s.withBelow l).blf.below = l := rfl
theorem withBelow_slots (s : State) (l : Tab (List Nat)) : (s.withBelow l).blf.slots = s.blf.slots := rfl
theorem withBelow_edges (s : State) (l : Tab (List Nat)) : (s.withBelow l).blf.edges = s.blf.edges := rfl

def killNoted (s : State) (n : Nat) : State := (s.slotKilled n).withBelow (tabSet [] (s.slotKilled n).blf.below n (s.newOrphans n))

theorem blfKill_eq (s : State) (n : Nat) :
    s.blfKill n = if s.newOrphans n = [] then s.killNoted n else (s.killNoted n).setFlag BLF_EVT_ORPHAN := rfl

theorem blfKill_blf (s : State) (n : Nat) : (s.blfKill n).blf = (s.killNoted n).blf := by
  rw [blfKill_eq]
  split <;> rfl

theorem blfKill_acted (h : s.BlfActed u) (n : Nat) : s.BlfActed (u.blfKill n) := by
  have hnoted : s.BlfActed (u.killNoted n) := ((h.slotEdge n true).setSlot n _).withBelow _
  rw [blfKill_eq]
  split
  · exact hnoted
  · exact hnoted.setFlag rfl

theorem blfKill_slots (s : State) (n : Nat) : (s.blfKill n).blf.slots = (s.slotKilled n).blf.slots := by
  rw [blfKill_blf, killNoted, withBelow_slots]

theorem blfKill_slot (s : State) (n m : Nat) : (s.blfKill n).slot m = (s.slotKilled n).slot m := slot_congr (s.blfKill_slots n) m

theorem blfKill_slot_self (s : State) (hn : 2 ≤ n) : (s.blfKill n).slot n = (s.slot n).emptied := by
  rw [blfKill_slot, slotKilled, slot_setSlot_self _ hn]

theorem blfKill_slot_ne (s : State) (h : m ≠ n) : (s.blfKill n).slot m = s.slot m := by
  rw [blfKill_slot, slotKilled, slot_setSlot_ne _ h]
  rfl

theorem blfKill_edges (s : State) (n : Nat) : (s.blfKill n).blf.edges = ⟨n, s.slot n, true⟩ :: s.blf.edges := by
  rw [blfKill_blf, killNoted, withBelow_edges]
  rfl

theorem blfKill_orphaned (s : State) (n m : Nat) : (s.blfKill n).orphaned m = (s.slotKilled n).orphaned m :=
  orphaned_congr (s.blfKill_slots n) m

theorem mem_newOrphans {s : State} {n i : Nat} (hi : i < 1024) :
    i ∈ s.newOrphans n ↔ (s.blfKill n).orphaned i = true ∧ s.orphaned i = false := by
  simp [newOrphans, hi, blfKill_orphaned]

theorem blfKill_below (s : State) (n : Nat) : tabGet [] (s.blfKill n).blf.below n = s.newOrphans n := by
  rw [blfKill_blf, killNoted, withBelow_below, tabGet_tabSet_self]

theorem blfKill_event {i : Nat} (hi : i < 1024) (h : (s.blfKill n).orphaned i = true ∧ s.orphaned i = false) :
    (s.blfKill n).flag BLF_EVT_ORPHAN = true := by
  rw [blfKill_eq, if_neg (List.ne_nil_of_mem ((mem_newOrphans hi).mpr h))]
  exact flag_setFlag_self _ (by decide) rfl

theorem exec_blfInvalidate (hr : s.reaches .mc rBLF_CMD) (hb : s.flag BLF_CMD_BUSY = false) (h16 : 16 ≤ n) (hn : n < 1024) :
    exec (.blfInvalidate .mc n) s = .next (if s.staleChild n then
      ({ s.unstaged with blf := { s.unstaged.blf with waiting := some (n, none) } } : State).put BLF_CMD_BUSY 1
      else (s.unstaged.blfKill n).blfEnd bsOK []) := by
  have h16' : ¬ n < 16 := by omega
  simp only [exec, execBlfInvalidate, blfInv, mcOnly_mc hr, hb, Bool.false_eq_true, if_false, Nat.mod_eq_of_lt hn, h16']
  rfl

/-- What an INVALIDATE shows that need not wait. -/
theorem blfInvalidate_shows (h16 : 16 ≤ n) : s.BlfEnded ((s.unstaged.blfKill n).blfEnd bsOK []) 1 [] ∧
    ((s.unstaged.blfKill n).blfEnd bsOK []).slot n = (s.slot n).emptied ∧
    (∀ i, i ≠ n → ((s.unstaged.blfKill n).blfEnd bsOK []).slot i = s.slot i) ∧
    ((s.unstaged.blfKill n).blfEnd bsOK []).blf.edges = ⟨n, s.slot n, true⟩ :: s.blf.edges ∧
    (∀ i, i < 1024 → (i ∈ tabGet [] ((s.unstaged.blfKill n).blfEnd bsOK []).blf.below n ↔
      ((s.unstaged.blfKill n).blfEnd bsOK []).orphaned i = true ∧ s.orphaned i = false)) ∧
    ((∃ i, i < 1024 ∧ ((s.unstaged.blfKill n).blfEnd bsOK []).orphaned i = true ∧ s.orphaned i = false) →
      ((s.unstaged.blfKill n).blfEnd bsOK []).flag BLF_EVT_ORPHAN = true) := by
  have horph (i : Nat) : ((s.unstaged.blfKill n).blfEnd bsOK []).orphaned i = (s.unstaged.blfKill n).orphaned i :=
    orphaned_congr (congrArg Blf.slots (blfEnd_blf _ _ _)) i
  have hsame (i : Nat) : s.orphaned i = s.unstaged.orphaned i := (unstaged_orphaned s i).symm
  refine ⟨(blfKill_acted (.unstaged s) n).ended (by decide) [], ?_, fun i hi => ?_, ?_, fun i hi => ?_, ?_⟩
  · rw [blfEnd_slot, blfKill_slot_self _ (by omega), unstaged_slot]
  · rw [blfEnd_slot, blfKill_slot_ne _ hi, unstaged_slot]
  · rw [blfEnd_blf, blfKill_edges, unstaged_slot]
    rfl
  · rw [horph, hsame, blfEnd_blf, blfKill_below, mem_newOrphans hi]
  · rintro ⟨i, hi, h1, h2⟩
    rw [horph] at h1
    rw [hsame] at h2
    exact (congrArg (· == 1) (blfEnd_evt _ _ _ (by decide) (by decide))).trans (blfKill_event hi ⟨h1, h2⟩)

/-! ## The reclaimer (R414) -/

/-- The slot that the reclaimer is at. -/
def reclaimAt (s : State) : Nat := s.blf.steps % 1024

/-- Its visit, which empties an orphaned slot. -/
def visited (s : State) : State :=
  if 16 ≤ s.reclaimAt ∧ (s.passed s.reclaimAt).orphaned s.reclaimAt = true then
    ((s.passed s.reclaimAt).setSlot s.reclaimAt ((s.passed s.reclaimAt).slot s.reclaimAt).emptied).inc BLF_RECLAIM_CNT_VAL
  else s.passed s.reclaimAt

/-- The visit, and the next slot. -/
def visitDone (s : State) : State := { s.visited with blf := { s.visited.blf with steps := (s.visited.blf.steps + 1) % 1024 } }

/-- A waiting INVALIDATE that may go on. -/
def goesOn (s : State) (m : Nat) : State := (State.blfKill { s with blf := { s.blf with waiting := none } } m).blfEnd bsOK []

theorem reclaim_eq (s : State) : s.reclaim = match s.visitDone.blf.waiting with
    | some (k, none) => if s.visitDone.staleChild k then s.visitDone else s.visitDone.goesOn k
    | _ => s.visitDone := rfl

theorem passed_orphaned (s : State) (m n : Nat) : (s.passed m).orphaned n = s.orphaned n := orphaned_congr (s := s) (t := s.passed m) rfl n

theorem passed_slot (s : State) (m n : Nat) : (s.passed m).slot n = s.slot n := rfl

theorem visited_orphan (h16 : 16 ≤ s.reclaimAt) (ho : s.orphaned s.reclaimAt = true) :
    s.visited = ((s.passed s.reclaimAt).setSlot s.reclaimAt (s.slot s.reclaimAt).emptied).inc BLF_RECLAIM_CNT_VAL :=
  if_pos ⟨h16, (passed_orphaned s _ _).trans ho⟩

theorem visited_sound (h : s.reclaimAt < 16 ∨ s.orphaned s.reclaimAt = false) : s.visited = s.passed s.reclaimAt := by
  refine if_neg fun ⟨h16, ho⟩ => ?_
  rw [passed_orphaned] at ho
  obtain h | h := h
  · omega
  · rw [ho] at h
    exact Bool.noConfusion h

theorem passed_blf (s : State) (m : Nat) : { (s.passed m).blf with below := s.blf.below } = s.blf := rfl

/-- What a visit leaves. -/
structure Visited (s t : State) : Prop where
  rest : { t with regs := s.regs, blf := s.blf } = s
  blf : { t.blf with slots := s.blf.slots, below := s.blf.below } = s.blf
  below : t.blf.below = (s.passed s.reclaimAt).blf.below
  regs : s.RegsBut t [rBLF_RECLAIM_CNT]

theorem Visited.passed (s : State) : s.Visited (s.passed s.reclaimAt) := ⟨rfl, rfl, rfl, fun _ _ => rfl⟩

theorem Visited.setSlot (h : s.Visited t) (n : Nat) (x : SlotSt) : s.Visited (t.setSlot n x) := ⟨h.rest, h.blf, h.below, h.regs⟩

theorem Visited.inc (h : s.Visited t) {f : Fld} (hf : f.addr = rBLF_RECLAIM_CNT) : s.Visited (t.inc f) := by
  refine ⟨h.rest, h.blf, h.below, fun a ha => ?_⟩
  rw [inc_eq, reg_put_ne _ _ _ fun e => ha (List.mem_singleton.mpr (e.trans hf)), h.regs a ha]

theorem visited_shows (s : State) : s.Visited s.visited := by
  unfold visited
  split
  · exact ((Visited.passed s).setSlot _ _).inc rfl
  · exact .passed s

theorem visited_steps (s : State) : s.visited.blf.steps = s.blf.steps := (congrArg Blf.steps s.visited_shows.blf :)

theorem visitDone_waiting (s : State) : s.visitDone.blf.waiting = s.blf.waiting := (congrArg Blf.waiting s.visited_shows.blf :)

theorem visitDone_steps (s : State) : s.visitDone.blf.steps = (s.blf.steps + 1) % 1024 :=
  congrArg (fun k => (k + 1) % 1024) (visited_steps s)

theorem visitDone_below (s : State) : s.visitDone.blf.below = (s.passed s.reclaimAt).blf.below := s.visited_shows.below

theorem visitDone_blf (s : State) : { s.visitDone.blf with slots := s.blf.slots, steps := s.blf.steps, below := s.blf.below } = s.blf :=
  (congrArg (fun x : Blf => { x with steps := s.blf.steps }) s.visited_shows.blf :)

theorem visitDone_rest (s : State) : { s.visitDone with regs := s.regs, blf := s.blf } = s :=
  (congrArg (fun x : State => { x with blf := s.blf }) s.visited_shows.rest :)

theorem visitDone_regs (s : State) : s.RegsBut s.visitDone [rBLF_RECLAIM_CNT] := s.visited_shows.regs

theorem visitDone_slot (s : State) (n : Nat) : s.visitDone.slot n = s.visited.slot n := rfl

/-- The reclaimer has passed the slot for every slot that waits. -/
theorem passed_below (s : State) (m : Nat) {x : Nat × List Nat} (h : x ∈ (s.passed m).blf.below) : m ∉ x.2 := by
  obtain ⟨hmem, -⟩ := List.mem_filter.mp h
  obtain ⟨y, -, rfl⟩ := List.mem_map.mp hmem
  exact fun h => by simpa using (List.mem_filter.mp h).2

theorem staleChild_congr (h : t.blf.below = s.blf.below) (n : Nat) : t.staleChild n = s.staleChild n := by rw [staleChild, staleChild, h]


/-! ## Firmware's operands -/

theorem blfReq_slot (hn : n < 1024) (p e : Bool) : (s.blfReq n p e).slot = n := Nat.mod_eq_of_lt hn

theorem blfReq_alg (s : State) (n : Nat) (p e : Bool) : (s.blfReq n p e).alg = s.fld BLF_CMD_ARG_ALG := by rw [blfReq]
theorem blfReq_usage (s : State) (n : Nat) (p e : Bool) : (s.blfReq n p e).usage = s.fld BLF_CMD_ARG_USAGE := by rw [blfReq]
theorem blfReq_data (s : State) (n : Nat) (p e : Bool) : (s.blfReq n p e).data = s.window (rBLF_DATA 0) 4096 := by rw [blfReq]

theorem blfReq_arg_eq (s : State) (n : Nat) (p e : Bool) : (s.blfReq n p e).arg = s.fld BLF_CMD_ARG_ARG := by rw [blfReq]
theorem blfReq_exprt (s : State) (n : Nat) (p e : Bool) : (s.blfReq n p e).exprt = e := by rw [blfReq]

theorem derivedKey_blfReq (s : State) (n : Nat) (e : Bool) (p : KeyHalf) (alg usage : Nat) : s.derivedKey (s.blfReq n false e) p alg usage =
    ⟨alg, usage, s.fld BLF_CMD_ARG_ARG, (s.slot (s.fld BLF_CMD_ARG_ARG)).gen, 1, e, p.depth + 1,
      derive108 p.key (s.window (rBLF_DATA 0) 4096) (keyLen alg), []⟩ := by
  rw [derivedKey, blfReq_data, blfReq_arg_eq, blfReq_exprt]

theorem importedKey_blfReq (s : State) (n : Nat) (e : Bool) (p : KeyHalf) (alg usage : Nat) (key : List Byte) :
    s.importedKey (s.blfReq n false e) p alg usage key =
    ⟨alg, usage, s.fld BLF_CMD_ARG_ARG, (s.slot (s.fld BLF_CMD_ARG_ARG)).gen, 2, e, p.depth + 1, key, pubOf alg key⟩ := by
  rw [importedKey, blfReq_arg_eq, blfReq_exprt]

theorem unstaged_derivedKey (s : State) (q : BlfReq) (p : KeyHalf) (alg usage : Nat) :
    s.unstaged.derivedKey q p alg usage = s.derivedKey q p alg usage := by rw [derivedKey, derivedKey, unstaged_slot]

theorem unstaged_importedKey (s : State) (q : BlfReq) (p : KeyHalf) (alg usage : Nat) (key : List Byte) :
    s.unstaged.importedKey q p alg usage key = s.importedKey q p alg usage key := by rw [importedKey, importedKey, unstaged_slot]

theorem blfReq_alter (h16 : 16 ≤ n) (hn : n < 1024) (p e : Bool) : s.unstaged.blfAlter (s.blfReq n p e) = none :=
  blfAlter_firmware rfl (by rw [blfReq_slot hn]; exact h16) (by rw [blfReq_slot hn]; exact hn)

theorem blfReq_arg (s : State) (n : Nat) (p e : Bool) : (s.blfReq n p e).arg < 1024 := fld_lt s BLF_CMD_ARG_ARG

/-! ## The commands that make a key -/

section
variable (hr : s.reaches .mc rBLF_CMD) (hb : s.flag BLF_CMD_BUSY = false) (h16 : 16 ≤ n) (hn : n < 1024) (e : Bool)
include hr hb h16 hn

theorem blfGenerate_makes (hc : (s.slot n).cur = none) (hu : bitOf (s.fld BLF_CMD_ARG_USAGE) 7 = false)
    (hok : isAes (s.fld BLF_CMD_ARG_ALG) = true ∨ isPriv (s.fld BLF_CMD_ARG_ALG) = true) :
    ∃ t, exec (.blfGenerate .mc n false e) s = .next t ∧
      s.BlfMade t n (s.drawnKey (s.fld BLF_CMD_ARG_ALG) (s.fld BLF_CMD_ARG_USAGE) e) ∧ t.free = s.free + keyLen (s.fld BLF_CMD_ARG_ALG) := by
  have hgen := blfGen_new (s := s.unstaged) (q := s.blfReq n false e) (blfReq_alter h16 hn false e) rfl
    (by rw [blfReq_slot hn]; exact hc) hok hu
  rw [unstaged_drawnKey, blfReq_slot hn] at hgen
  exact ⟨_, rfl, blfCommand_makes hr hb (by omega) ((congrArg (State.blfGen s.unstaged) (unstaged_blfReq s n false e)).trans hgen)⟩

theorem blfGenerate_held {k0 : KeyHalf} (hc : (s.slot n).cur = some k0) :
    ∃ t, exec (.blfGenerate .mc n false e) s = .next t ∧ s.BlfEnded t 0x10 [] ∧ t.blf.slots = s.blf.slots := by
  have hgen : s.unstaged.blfGen (s.unstaged.blfReq n false e) = (s.unstaged, 0x10, []) := by
    rw [unstaged_blfReq]
    exact blfFill_held (s := s.unstaged) (blfReq_alter h16 hn false e) rfl (by rw [blfReq_slot hn]; exact hc)
  obtain ⟨hend, hslots, -⟩ := blfCommand_answers_kept (act := fun s => s.blfGen (s.blfReq n false e)) (st := 0x10) hr hb (by decide) hgen
  exact ⟨_, rfl, hend, hslots⟩

theorem blfGenerate_pending {k0 : KeyHalf} (hc : (s.slot n).cur = some k0) (ho : s.orphaned n = false)
    (hok : isAes k0.alg = true ∨ isPriv k0.alg = true) (hu : bitOf k0.usage 7 = false) :
    ∃ t, exec (.blfGenerate .mc n true e) s = .next t ∧ s.BlfEnded t 1 [] ∧
      t.slot n = { s.slot n with pend := some (s.drawnKey k0.alg k0.usage e), checked := false } ∧ (∀ m, m ≠ n → t.slot m = s.slot m) := by
  have hgen := blfGen_pending (s := s.unstaged) (q := s.blfReq n true e) (blfReq_alter h16 hn true e) rfl
    (by rw [blfReq_slot hn]; exact hc) (by rw [blfReq_slot hn, unstaged_orphaned]; exact ho) hok hu
  rw [unstaged_drawnKey, blfReq_slot hn] at hgen
  obtain ⟨hend, hslot, hothers, -, -⟩ := blfCommand_sets (act := fun s => s.blfGen (s.blfReq n true e)) (n := n) (st := bsOK) hr hb
    (by omega) (by decide) ((congrArg (State.blfGen s.unstaged) (unstaged_blfReq s n true e)).trans hgen)
  exact ⟨_, rfl, hend, hslot, hothers⟩

theorem blfImportPublic_makes (hc : (s.slot n).cur = none) (hu : bitOf (s.fld BLF_CMD_ARG_USAGE) 7 = false)
    (hok : isPub (s.fld BLF_CMD_ARG_ALG) = true) : ∃ t, exec (.blfImportPublic .mc n) s = .next t ∧
      s.BlfMade t n ⟨s.fld BLF_CMD_ARG_ALG, s.fld BLF_CMD_ARG_USAGE, 0xFFFF, 0, 2, false, 0, [],
        (s.window (rBLF_DATA 0) 4096).take (pubLen (s.fld BLF_CMD_ARG_ALG))⟩ ∧ t.free = s.free := by
  have himp := blfImpPub_new (s := s.unstaged) (q := s.blfReq n false false) (blfReq_alter h16 hn false false)
    (by rw [blfReq_slot hn]; exact hc) hok hu
  rw [blfReq_slot hn, blfReq_data, blfReq_alg, blfReq_usage] at himp
  exact ⟨_, rfl, blfCommand_makes_kept hr hb (by omega)
    ((congrArg (State.blfImpPub s.unstaged) (unstaged_blfReq s n false false)).trans himp)⟩

variable {pk : KeyHalf} (h16p : 16 ≤ s.fld BLF_CMD_ARG_ARG) (hcp : (s.slot (s.fld BLF_CMD_ARG_ARG)).cur = some pk)
  (hop : s.orphaned (s.fld BLF_CMD_ARG_ARG) = false) (hap : isAes pk.alg = true) (hdp : pk.depth < 7)
  (hc : (s.slot n).cur = none) (hu : bitOf (s.fld BLF_CMD_ARG_USAGE) 7 = false)
include h16p hcp hop hap hdp

omit hr hb h16 hn in
theorem blfReq_parent (m : Nat) {use : Nat} (hup : bitOf pk.usage use = true) :
    s.unstaged.blfParent (s.blfReq m false e) use = .ok pk :=
  blfParent_ok rfl rfl h16p (s.blfReq_arg m false e) hcp ((unstaged_orphaned s _).trans hop) hup hap hdp

include hc hu

theorem blfDerive_makes (hok : isAes (s.fld BLF_CMD_ARG_ALG) = true) (hup : bitOf pk.usage 5 = true) :
    ∃ t, exec (.blfDerive .mc n false e) s = .next t ∧
      s.BlfMade t n ⟨s.fld BLF_CMD_ARG_ALG, s.fld BLF_CMD_ARG_USAGE, s.fld BLF_CMD_ARG_ARG, (s.slot (s.fld BLF_CMD_ARG_ARG)).gen, 1, e,
        pk.depth + 1, derive108 pk.key (s.window (rBLF_DATA 0) 4096) (keyLen (s.fld BLF_CMD_ARG_ALG)), []⟩ ∧ t.free = s.free := by
  have hder := blfDer_new (s := s.unstaged) (q := s.blfReq n false e) (blfReq_alter h16 hn false e) rfl
    (by rw [blfReq_slot hn]; exact hc) hok hu (blfReq_parent e h16p hcp hop hap hdp n hup)
  rw [blfReq_slot hn, unstaged_derivedKey, blfReq_alg, blfReq_usage, derivedKey_blfReq] at hder
  exact ⟨_, rfl, blfCommand_makes_kept hr hb (by omega)
    ((congrArg (State.blfDer s.unstaged) (unstaged_blfReq s n false e)).trans hder)⟩

theorem blfImport_makes (hok : isAes (s.fld BLF_CMD_ARG_ALG) = true ∨ isPriv (s.fld BLF_CMD_ARG_ALG) = true)
    (hup : bitOf pk.usage 6 = true) : ∃ t, exec (.blfImport .mc n false e) s = .next t ∧
      (∀ key, unwrapKey pk.key ((s.window (rBLF_DATA 0) 4096).take (keyLen (s.fld BLF_CMD_ARG_ALG) + 8)) = some key →
        s.BlfMade t n ⟨s.fld BLF_CMD_ARG_ALG, s.fld BLF_CMD_ARG_USAGE, s.fld BLF_CMD_ARG_ARG, (s.slot (s.fld BLF_CMD_ARG_ARG)).gen, 2, e,
          pk.depth + 1, key, pubOf (s.fld BLF_CMD_ARG_ALG) key⟩) ∧
      (unwrapKey pk.key ((s.window (rBLF_DATA 0) 4096).take (keyLen (s.fld BLF_CMD_ARG_ALG) + 8)) = none →
        s.BlfEnded t 0xB [] ∧ t.blf.slots = s.blf.slots) := by
  have halter := blfReq_alter (s := s) h16 hn false e
  have hcur : (s.unstaged.slot (s.blfReq n false e).slot).cur = none := by rw [blfReq_slot hn]; exact hc
  have hpar := blfReq_parent e h16p hcp hop hap hdp n hup
  refine ⟨_, rfl, fun key hkey => ?_, fun hkey => ?_⟩
  · have himp := blfImp_new (key := key) halter rfl hcur hok hu hpar (by rw [blfReq_data, blfReq_alg]; exact hkey)
    rw [blfReq_slot hn, unstaged_importedKey, blfReq_alg, blfReq_usage, importedKey_blfReq] at himp
    exact (blfCommand_makes_kept hr hb (by omega) ((congrArg (State.blfImp s.unstaged) (unstaged_blfReq s n false e)).trans himp)).1
  · have himp := blfImp_bad halter rfl hcur hok hu hpar (by rw [blfReq_data, blfReq_alg]; exact hkey)
    obtain ⟨hend, hslots, -⟩ := blfCommand_answers_kept (act := fun s => s.blfImp (s.blfReq n false e)) (st := bsUNWRAP) hr hb (by decide)
      ((congrArg (State.blfImp s.unstaged) (unstaged_blfReq s n false e)).trans himp)
    exact ⟨hend, hslots⟩

end

/-! ## The commands on a slot -/

theorem blfReq_kcv (s : State) (n : Nat) (p e : Bool) : (s.blfReq n p e).kcv = (s.reg rBLF_CMD_ARG).toNat % 2 ^ 24 := by rw [blfReq]

theorem unstaged_checkGood (s : State) (k : KeyHalf) (kcv : Nat) : s.unstaged.checkGood k kcv = s.checkGood k kcv := by
  rw [checkGood, checkGood, unstaged_random]

section
variable (hr : s.reaches .mc rBLF_CMD) (hb : s.flag BLF_CMD_BUSY = false) (h16 : 16 ≤ n) (hn : n < 1024)
include hr hb h16 hn

theorem blfCheck_shows (hp : (s.slot n).pend = some k) (ho : s.orphaned n = false) {good : Bool}
    (hg : good = s.checkGood k ((s.reg rBLF_CMD_ARG).toNat % 2 ^ 24)) : ∃ t, exec (.blfCheck .mc n) s = .next t ∧
      s.BlfEnded t (if good then 1 else 9) [] ∧ t.slot n = (if good then { s.slot n with checked := true } else s.slot n) ∧
      (∀ i, i ≠ n → t.slot i = s.slot i) := by
  have hchk := blfChk_eq (s := s.unstaged) (q := s.blfReq n false false) (k := k) (blfReq_alter h16 hn false false)
    (by rw [blfReq_slot hn]; exact hp) (by rw [blfReq_slot hn, unstaged_orphaned]; exact ho)
  rw [blfReq_slot hn, blfReq_kcv, unstaged_checkGood, ← hg] at hchk
  have hact := (congrArg (State.blfChk s.unstaged) (unstaged_blfReq s n false false)).trans hchk
  refine ⟨_, rfl, ?_⟩
  cases good with
  | true =>
    obtain ⟨hend, hslot, hothers, -, -⟩ := blfCommand_sets (act := fun s => s.blfChk (s.blfReq n false false)) (n := n) (st := bsOK) hr hb
      (by omega) (by decide) hact
    exact ⟨hend, hslot, hothers⟩
  | false =>
    obtain ⟨hend, hslots, -⟩ := blfCommand_answers (act := fun s => s.blfChk (s.blfReq n false false)) (st := bsCHECKFAIL) hr hb
      (by decide) hact
    exact ⟨hend, slot_congr hslots n, fun i _ => slot_congr hslots i⟩

theorem blfCommit_shows {k0 : KeyHalf} (hc : (s.slot n).cur = some k0) (ho : s.orphaned n = false) (hp : (s.slot n).pend = some k)
    (hk : (s.slot n).checked = true) : ∃ t, exec (.blfCommit .mc n) s = .next t ∧ s.BlfEnded t 1 [] ∧
      t.slot n = committed (s.slot n) k ∧ (∀ i, i ≠ n → t.slot i = s.slot i) ∧ t.blf.edges = ⟨n, s.slot n, false⟩ :: s.blf.edges := by
  have hcom := blfCom_checked (s := s.unstaged) (q := s.blfReq n false false) (k := k) (blfReq_alter h16 hn false false)
    (by rw [blfReq_slot hn]; exact hc) (by rw [blfReq_slot hn, unstaged_orphaned]; exact ho) (by rw [blfReq_slot hn]; exact hp)
    (by rw [blfReq_slot hn]; exact hk)
  rw [blfReq_slot hn, unstaged_slot] at hcom
  refine ⟨_, rfl, ?_⟩
  rw [blfCommand_ends hr hb ((congrArg (State.blfCom s.unstaged) (unstaged_blfReq s n false false)).trans hcom), blfEnd_slot, blfEnd_blf]
  refine ⟨(((BlfActed.unstaged s).slotEdge n false).setSlot n _).ended (by decide) [], slot_setSlot_self _ (by omega) _, fun i hi => ?_, rfl⟩
  rw [blfEnd_slot, slot_setSlot_ne _ hi]
  rfl

theorem blfCommit_refused {k0 : KeyHalf} (hc : (s.slot n).cur = some k0) (ho : s.orphaned n = false)
    (h : (s.slot n).pend = none ∨ (s.slot n).checked = false) : ∃ t, exec (.blfCommit .mc n) s = .next t ∧ s.BlfEnded t 0xA [] ∧
      t.blf.slots = s.blf.slots := by
  have hcom := blfCom_unchecked (s := s.unstaged) (q := s.blfReq n false false) (blfReq_alter h16 hn false false)
    (by rw [blfReq_slot hn]; exact hc) (by rw [blfReq_slot hn, unstaged_orphaned]; exact ho) (by rw [blfReq_slot hn]; exact h)
  obtain ⟨hend, hslots, -⟩ := blfCommand_answers_kept (act := fun s => s.blfCom (s.blfReq n false false)) (st := bsNOTCHECKED) hr hb
    (by decide) ((congrArg (State.blfCom s.unstaged) (unstaged_blfReq s n false false)).trans hcom)
  exact ⟨_, rfl, hend, hslots⟩

theorem blfDiscard_shows : ∃ t, exec (.blfDiscardPending .mc n) s = .next t ∧ s.BlfEnded t 1 [] ∧
    t.slot n = { s.slot n with pend := none, checked := false } ∧ (∀ i, i ≠ n → t.slot i = s.slot i) := by
  have hdis := blfDis_eq (s := s.unstaged) (q := s.blfReq n false false) (blfReq_alter h16 hn false false)
  rw [blfReq_slot hn] at hdis
  obtain ⟨hend, hslot, hothers, -, -⟩ := blfCommand_sets_kept (act := fun s => s.blfDis (s.blfReq n false false)) (n := n) (st := bsOK) hr hb
    (by omega) (by decide) ((congrArg (State.blfDis s.unstaged) (unstaged_blfReq s n false false)).trans hdis)
  exact ⟨_, rfl, hend, hslot, hothers⟩

end

/-! ## An INVALIDATE that waits -/

/-- It is held with BUSY until the reclaimer has passed the slot's children. -/
def waitHeld (s : State) (n : Nat) : State := { s.unstaged with blf := { s.unstaged.blf with waiting := some (n, none) } }

theorem waitHeld_rest (s : State) (n : Nat) : { s.waitHeld n with regs := s.regs, blf := s.blf } = s := rfl

theorem waitHeld_reg (s : State) (n a : Nat) : (s.waitHeld n).reg a = s.reg a := rfl

theorem rest_beside_blf (h : { u with regs := s.regs, blf := s.blf } = s) (k : { t with regs := u.regs } = u) :
    { t with regs := s.regs, blf := s.blf } = s :=
  (congrArg (fun x : State => { x with regs := s.regs, blf := s.blf }) k :).trans h

theorem waitHeld_shows (s : State) (n : Nat) : ((s.waitHeld n).put BLF_CMD_BUSY 1).flag BLF_CMD_BUSY = true ∧
    ((s.waitHeld n).put BLF_CMD_BUSY 1).blf.waiting = some (n, none) ∧ ((s.waitHeld n).put BLF_CMD_BUSY 1).blf.slots = s.blf.slots ∧
    { (s.waitHeld n).put BLF_CMD_BUSY 1 with regs := s.regs, blf := s.blf } = s ∧ s.RegsBut ((s.waitHeld n).put BLF_CMD_BUSY 1) [rBLF_CMD] := by
  have hput : (s.waitHeld n).OnlyRegs ((s.waitHeld n).put BLF_CMD_BUSY 1) [rBLF_CMD] := (OnlyRegs.refl _ _).put 1 List.mem_cons_self
  refine ⟨flag_setFlag_self _ (by decide) rfl, ?_, ?_, ?_, fun a ha => (hput.regs a ha).trans (s.waitHeld_reg n a)⟩
  · rw [blf_of_rest hput.rest]
    rfl
  · rw [blf_of_rest hput.rest]
    rfl
  · exact rest_beside_blf (t := (s.waitHeld n).put BLF_CMD_BUSY 1) (s.waitHeld_rest n) hput.rest

theorem reclaim_free (hw : s.blf.waiting = none) : s.reclaim = s.visitDone := by rw [reclaim_eq, visitDone_waiting, hw]

theorem reclaim_waits (hw : s.blf.waiting = some (m, none)) (h : (s.passed s.reclaimAt).staleChild m = true) : s.reclaim = s.visitDone := by
  rw [reclaim_eq, visitDone_waiting, hw]
  exact if_pos ((staleChild_congr s.visitDone_below m).trans h)

theorem reclaim_goesOn (hw : s.blf.waiting = some (m, none)) (h : (s.passed s.reclaimAt).staleChild m = false) :
    s.reclaim = s.visitDone.goesOn m := by
  have hstill : s.visitDone.staleChild m = false := (staleChild_congr s.visitDone_below m).trans h
  rw [reclaim_eq, visitDone_waiting, hw]
  simp only [hstill, Bool.false_eq_true, if_false]

theorem visitDone_fld (s : State) (f : Fld) : s.visitDone.fld f = s.visited.fld f := rfl
theorem visitDone_slots (s : State) : s.visitDone.blf.slots = s.visited.blf.slots := rfl
theorem visitDone_allRegs (s : State) : s.visitDone.regs = s.visited.regs := rfl
theorem setSlot_fld (s : State) (n : Nat) (x : SlotSt) (f : Fld) : (s.setSlot n x).fld f = s.fld f := rfl
theorem passed_fld (s : State) (n : Nat) (f : Fld) : (s.passed n).fld f = s.fld f := rfl
theorem slot_inc (s : State) (f : Fld) (n : Nat) : (s.inc f).slot n = s.slot n := rfl

/-- What a visit shows. -/
theorem visitDone_shows (s : State) : s.visitDone.blf.steps = (s.blf.steps + 1) % 1024 ∧
    { s.visitDone.blf with slots := s.blf.slots, steps := s.blf.steps, below := s.blf.below } = s.blf ∧
    (∀ x, x ∈ s.visitDone.blf.below → s.reclaimAt ∉ x.2) ∧ { s.visitDone with regs := s.regs, blf := s.blf } = s ∧
    s.RegsBut s.visitDone [rBLF_RECLAIM_CNT] ∧
    (16 ≤ s.reclaimAt → s.orphaned s.reclaimAt = true → s.visitDone.slot s.reclaimAt = (s.slot s.reclaimAt).emptied ∧
      (∀ i, i ≠ s.reclaimAt → s.visitDone.slot i = s.slot i) ∧
      s.visitDone.fld BLF_RECLAIM_CNT_VAL = (s.fld BLF_RECLAIM_CNT_VAL + 1) % 2 ^ 32) ∧
    (s.reclaimAt < 16 ∨ s.orphaned s.reclaimAt = false → s.visitDone.blf.slots = s.blf.slots ∧ s.visitDone.regs = s.regs) := by
  refine ⟨s.visitDone_steps, s.visitDone_blf, fun x hx => ?_, s.visitDone_rest, s.visitDone_regs, fun h16 ho => ⟨?_, fun i hi => ?_, ?_⟩,
    fun h => ⟨?_, ?_⟩⟩
  · rw [visitDone_below] at hx
    exact s.passed_below _ hx
  · rw [visitDone_slot, visited_orphan h16 ho, slot_inc, slot_setSlot_self _ (by omega)]
  · rw [visitDone_slot, visited_orphan h16 ho, slot_inc, slot_setSlot_ne _ hi, passed_slot]
  · rw [visitDone_fld, visited_orphan h16 ho, fld_inc_self _ (by decide), setSlot_fld, passed_fld]
    rfl
  · rw [visitDone_slots, visited_sound h]
    rfl
  · rw [visitDone_allRegs, visited_sound h]
    rfl

theorem goesOn_waiting (s : State) (m : Nat) : (s.goesOn m).blf.waiting = none := by
  rw [goesOn, blfEnd_blf, blfKill_blf]
  rfl

theorem goesOn_steps (s : State) (m : Nat) : (s.goesOn m).blf.steps = s.blf.steps := by
  rw [goesOn, blfEnd_blf, blfKill_blf]
  rfl

theorem goesOn_shows (h16 : 16 ≤ m) (ho : s.orphaned s.reclaimAt = false) : (s.visitDone.goesOn m).fld BLF_CMD_STATUS = 1 ∧
    (s.visitDone.goesOn m).flag BLF_CMD_BUSY = false ∧ (s.visitDone.goesOn m).blf.waiting = none ∧
    (s.visitDone.goesOn m).flag BLF_EVT_CMD_DONE = true ∧ (s.visitDone.goesOn m).blf.steps = (s.blf.steps + 1) % 1024 ∧
    (s.visitDone.goesOn m).slot m = (s.slot m).emptied ∧ (∀ i, i ≠ m → (s.visitDone.goesOn m).slot i = s.slot i) := by
  have hslot (i : Nat) : s.visitDone.slot i = s.slot i := by rw [visitDone_slot, visited_sound (.inr ho), passed_slot]
  have hsame (u : State) (w : Option (Nat × Option Nat)) (i : Nat) : State.slot { u with blf := { u.blf with waiting := w } } i = u.slot i := rfl
  refine ⟨?_, ?_, goesOn_waiting _ m, ?_, (goesOn_steps _ m).trans s.visitDone_steps, ?_, fun i hi => ?_⟩
  · rw [goesOn, blfEnd_eq, blfDone_status _ (by decide)]
    rfl
  · rw [goesOn, blfEnd_eq, blfDone_busy]
  · rw [goesOn, blfEnd_eq, blfDone_event]
  · rw [goesOn, blfEnd_slot, blfKill_slot_self _ (by omega), hsame, hslot m]
  · rw [goesOn, blfEnd_slot, blfKill_slot_ne _ hi, hsame, hslot i]

end
end State

open State in
/-- Settles O49: each command by what it makes of the slot its operands name, the reclaimer by its visit. -/
theorem belfryMakesAndChangesSlots : Obligations.BelfryMakesAndChangesSlots := by
  unfold Obligations.BelfryMakesAndChangesSlots
  refine ⟨fun s n p alg usage e k0 pk halg husage hp hr hb h16 hn => ?_, fun s n m k q good => ⟨fun hr hb h16 hn => ?_, fun hw hat => ?_,
    fun hw hstale => ?_, fun hw h16 hm ho hstale => ?_⟩⟩
  · subst halg husage hp
    exact ⟨fun hc hu => ⟨fun hok => blfGenerate_makes hr hb h16 hn e hc hu hok, fun hok => blfImportPublic_makes hr hb h16 hn hc hu hok,
      fun h16p hcp hop hap hdp => ⟨fun hok hup => blfDerive_makes hr hb h16 hn e h16p hcp hop hap hdp hc hu hok hup,
      fun hok hup => blfImport_makes hr hb h16 hn e h16p hcp hop hap hdp hc hu hok hup⟩⟩,
      fun hc ho hok hu => blfGenerate_pending hr hb h16 hn e hc ho hok hu, fun hc => blfGenerate_held hr hb h16 hn e hc⟩
  · refine ⟨fun hp ho hg => blfCheck_shows hr hb h16 hn hp ho hg, fun hc ho => ⟨fun hp hk => blfCommit_shows hr hb h16 hn hc ho hp hk,
      fun h => blfCommit_refused hr hb h16 hn hc ho h⟩, blfDiscard_shows hr hb h16 hn, fun hs => ⟨_, ?_, blfInvalidate_shows h16⟩,
      fun hs => ⟨(s.waitHeld n).put BLF_CMD_BUSY 1, ?_, s.waitHeld_shows n⟩⟩
    · rw [exec_blfInvalidate hr hb h16 hn, hs]
      rfl
    · rw [exec_blfInvalidate hr hb h16 hn, hs]
      rfl
  · exact ⟨s.visitDone, congrArg Host.Outcome.next (reclaim_free hw), hat ▸ visitDone_shows s⟩
  · exact ⟨s.visitDone, congrArg Host.Outcome.next (reclaim_waits hw hstale), s.visitDone_waiting.trans hw,
      s.visitDone_regs _ (by decide), s.visitDone_steps⟩
  · exact ⟨s.visitDone.goesOn m, congrArg Host.Outcome.next (reclaim_goesOn hw hstale), goesOn_shows h16 ho⟩

end Sys2Proof.Machine
end

section
/-! PROOFS. The answers and refusals of Belfry and of its boot commands (R412, R420 to R425): O50. -/

namespace Sys2Proof.Machine

/-! ## Bytes at their places -/

theorem slice_append_left {a : List Byte} (b : List Byte) {i n : Nat} (h : a.length ≤ i) : slice (a ++ b) i n = slice b (i - a.length) n := by
  rw [slice, slice, List.drop_append, List.drop_eq_nil_of_le h, List.nil_append]

theorem slice_zero_append (a b : List Byte) : slice (a ++ b) 0 a.length = a := by
  rw [slice, List.drop_zero, List.take_left]

/-- The bytes of a part between what stands before and behind it. -/
theorem slice_part {l a b c : List Byte} (h : l = a ++ b ++ c) {i n : Nat} (ha : a.length = i) (hb : b.length = n) : slice l i n = b := by
  subst ha hb
  rw [h, List.append_assoc, slice_append_left _ (Nat.le_refl _), Nat.sub_self, slice_zero_append]

theorem byteAt_part {l a c : List Byte} {b : Byte} (h : l = a ++ b :: c) {i : Nat} (ha : a.length = i) : byteAt l i = b.toNat := by
  subst ha
  rw [h, byteAt, List.getD_append_right _ _ _ _ (Nat.le_refl _), Nat.sub_self, List.getD_cons_zero]

theorem devUid_length : devUid.length = 16 := by rw [devUid, List.length_map, List.length_range]

theorem cryptoBytes_length (f : CryptoFn) (args : List (List Byte)) (n : Nat) : (cryptoBytes f args n).length = n := by
  rw [cryptoBytes, List.length_map, List.length_range]

namespace State

section
variable {s t u : State} {n m p st : Nat} {k w : KeyHalf} {q : BlfReq}

/-! ## The attribute record (R412) -/

theorem attrRecord_empty (hc : (s.slot n).cur = none) : s.attrRecord n = ((s.random 12).1,
    leBytes 2 n ++ (s.random 12).2.take 8 ++ [0] ++ (s.random 12).2.drop 8 ++ [0]) := by
  simp only [attrRecord, hc]

/-- The KCV of a key in its record. -/
def kcvShown (k : KeyHalf) : List Byte :=
  if isAes k.alg then (cryptoBytes (.ecb false) [k.key, List.replicate 16 0] 16).take 3 ++ [0] else [0, 0, 0, 0]

theorem kcvShown_length (k : KeyHalf) : (kcvShown k).length = 4 := by
  unfold kcvShown
  split <;> simp [cryptoBytes_length]

theorem attrRecord_valid (hc : (s.slot n).cur = some k) : s.attrRecord n = (s, leBytes 2 n ++ leBytes 2 k.parent ++
    [BitVec.ofNat 8 k.alg, BitVec.ofNat 8 k.usage, BitVec.ofNat 8 (k.origin + 4 * bitN k.exprt + 8 * bitN (s.slot n).pend.isSome),
      BitVec.ofNat 8 (s.slot n).owner] ++ leBytes 2 (s.slot n).version ++
    [BitVec.ofNat 8 (if s.orphaned n then 2 else 1), BitVec.ofNat 8 k.depth] ++ kcvShown k) := by
  simp only [attrRecord, hc]
  rfl

/-- The random bytes a record takes. -/
def attrFree (s : State) (n : Nat) : Nat := if (s.slot n).cur.isNone then s.free + 12 else s.free

theorem attrRecord_state (s : State) (n : Nat) : (s.attrRecord n).1 = { s with free := s.attrFree n } := by
  cases hc : (s.slot n).cur with
  | none => rw [attrRecord_empty hc, random_state, attrFree, hc, if_pos Option.isNone_none]
  | some k =>
    rw [attrRecord_valid hc, attrFree, hc, Option.isNone_some, if_neg Bool.false_ne_true]

theorem attrRecord_bytes_congr (hs : t.blf.slots = s.blf.slots) (hf : t.free = s.free) (n : Nat) : (t.attrRecord n).2 = (s.attrRecord n).2 := by
  have hslot := slot_congr hs n
  cases hc : (s.slot n).cur with
  | none => rw [attrRecord_empty hc, attrRecord_empty (hslot ▸ hc), random_congr hf 12]
  | some k => rw [attrRecord_valid hc, attrRecord_valid (hslot ▸ hc), hslot, orphaned_congr hs]

theorem unstaged_attrRecord (s : State) (n : Nat) : (s.unstaged.attrRecord n).2 = (s.attrRecord n).2 :=
  attrRecord_bytes_congr (s := s) (t := s.unstaged) rfl rfl n

theorem attrRecord_length (s : State) (n : Nat) : (s.attrRecord n).2.length = 16 := by
  cases hc : (s.slot n).cur with
  | none =>
    have hlen := random_length s 12
    simp [attrRecord_empty hc, leBytes_length, hlen]
  | some k => simp [attrRecord_valid hc, leBytes_length, kcvShown_length]

/-! ## What firmware may use and name (R415) -/

theorem mayUse_firmware (h16 : 16 ≤ n) (hn : n < 1024) : s.mayUse ownFIRMWARE n = true := by simp [mayUse, h16, hn]

theorem mayParent_firmware (h16 : 16 ≤ n) (hn : n < 1024) : s.mayParent ownFIRMWARE n = true := by
  rw [mayParent, mayUse_firmware h16 hn, Bool.true_or]

theorem blfUse_ok (h16 : 16 ≤ n) (hn : n < 1024) (hc : (s.slot n).cur = some k) (ho : s.orphaned n = false) :
    s.blfUse ownFIRMWARE n = .ok k := by
  simp only [blfUse, hc, mayUse_firmware h16 hn, ho, Bool.true_eq_false, Bool.false_eq_true, if_false]

theorem blfExp_ok (hw : q.who = ownFIRMWARE) (hk : s.blfUse ownFIRMWARE q.slot = .ok k) (he : k.exprt = true)
    (hc : (s.slot q.arg).cur = some w) (h16 : 16 ≤ q.arg) (hp : q.arg < 1024) (ho : s.orphaned q.arg = false)
    (hu : bitOf w.usage 6 = true) (ha : isAes w.alg = true) :
    s.blfExp q = (s, bsOK, wrapKey w.key (if isPub k.alg then k.pub else k.key)) := by
  simp [blfExp, hw, hk, he, hc, mayParent_firmware h16 hp, ho, uWRAP, hu, ha]

theorem blfExp_closed (hw : q.who = ownFIRMWARE) (hk : s.blfUse ownFIRMWARE q.slot = .ok k) (he : k.exprt = false) :
    s.blfExp q = (s, bsEXPORT, []) := by
  simp [blfExp, hw, hk, he]

/-! ## READ_ATTR, GET_PUBLIC and ATTEST (R412, R424) -/

theorem blfAttr_firmware (hw : q.who = ownFIRMWARE) : s.blfAttr q = ((s.attrRecord q.slot).1, bsOK, (s.attrRecord q.slot).2) := by
  rw [blfAttr, if_neg fun h => h.1 hw]

theorem blfPub_eq (hw : q.who = ownFIRMWARE) (hc : (s.slot q.slot).cur = some k) :
    s.blfPub q = if s.orphaned q.slot then (s, bsORPHANED, []) else if isAes k.alg then (s, bsUSAGE, []) else (s, bsOK, k.pub) := by
  simp only [blfPub, hc, hw, ne_eq, not_true_eq_false, false_and, if_false]

/-- The public point in a statement, empty for a slot without a key. -/
def attestPub (s : State) (n : Nat) : List Byte :=
  match (s.slot n).cur with
  | some k => k.pub
  | none => []

/-- A statement before its signature. -/
def attestHead (s : State) (data : List Byte) (n : Nat) : List Byte :=
  ascii [0x4B, 0x51, 0x41, 0x54] ++ leBytes 2 1 ++ leBytes 2 256 ++ devUid ++ data.take 16 ++ (s.attrRecord n).2 ++
    [BitVec.ofNat 8 s.blf.epoch] ++ List.replicate 7 0

def attestBody (s : State) (data : List Byte) (n : Nat) : List Byte :=
  s.attestHead data n ++ s.attestPub n ++ List.replicate (96 - (s.attestPub n).length) 0

theorem blfAtt_firmware (hw : q.who = ownFIRMWARE) : s.blfAtt q = (((s.attrRecord q.slot).1.random 48).1, bsOK,
    s.attestBody q.data q.slot ++ ecSign true ((List.range 48).map Config.attestKey) (sha384 (s.attestBody q.data q.slot))
      ((s.attrRecord q.slot).1.random 48).2) := by
  rw [blfAtt, if_neg fun h => h.1 hw]
  rfl


theorem unstaged_attestBody (s : State) (data : List Byte) (n : Nat) : s.unstaged.attestBody data n = s.attestBody data n := by
  rw [attestBody, attestBody, attestHead, attestHead, unstaged_attrRecord]
  rfl

theorem window_take (s : State) (a : Nat) {i n : Nat} (h : i ≤ n) : (s.window a n).take i = s.window a i := by
  rw [window_eq, window_eq, ← List.map_take, List.take_range, Nat.min_eq_left h]

theorem window_length (s : State) (a n : Nat) : (s.window a n).length = n := by rw [window_eq, List.length_map, List.length_range]

section
variable {data : List Byte} (hd : 16 ≤ data.length)
include hd

theorem attestHead_length : (s.attestHead data n).length = 64 := by
  simp [attestHead, ascii, leBytes_length, devUid_length, attrRecord_length, Nat.min_eq_left hd]

theorem attestBody_length (h : (s.attestPub n).length ≤ 96) : (s.attestBody data n).length = 160 := by
  rw [attestBody, List.length_append, List.length_append, attestHead_length hd, List.length_replicate]
  omega

/-- The parts of a statement at their places. -/
theorem attestBody_parts : (s.attestBody data n).take 4 = [0x4B, 0x51, 0x41, 0x54] ∧ slice (s.attestBody data n) 8 16 = devUid ∧
    slice (s.attestBody data n) 24 16 = data.take 16 ∧ slice (s.attestBody data n) 40 16 = (s.attrRecord n).2 ∧
    byteAt (s.attestBody data n) 56 = s.blf.epoch % 256 ∧
    slice (s.attestBody data n) 64 (s.attestPub n).length = s.attestPub n := by
  have h8 : (ascii [0x4B, 0x51, 0x41, 0x54] ++ leBytes 2 1 ++ leBytes 2 256).length = 8 := rfl
  have hdata : (data.take 16).length = 16 := by rw [List.length_take, Nat.min_eq_left hd]
  have hrec := s.attrRecord_length n
  refine ⟨?_, ?_, ?_, ?_, ?_, ?_⟩
  · simp only [attestBody, attestHead, List.append_assoc]
    rfl
  · exact slice_part (by simp only [attestBody, attestHead, List.append_assoc]; rfl) h8 devUid_length
  · refine slice_part (a := ascii [0x4B, 0x51, 0x41, 0x54] ++ leBytes 2 1 ++ leBytes 2 256 ++ devUid)
      (by simp only [attestBody, attestHead, List.append_assoc]; rfl) ?_ hdata
    rw [List.length_append, h8, devUid_length]
  · refine slice_part (a := ascii [0x4B, 0x51, 0x41, 0x54] ++ leBytes 2 1 ++ leBytes 2 256 ++ devUid ++ data.take 16)
      (by simp only [attestBody, attestHead, List.append_assoc]; rfl) ?_ hrec
    rw [List.length_append, List.length_append, h8, devUid_length, hdata]
  · refine (byteAt_part (a := ascii [0x4B, 0x51, 0x41, 0x54] ++ leBytes 2 1 ++ leBytes 2 256 ++ devUid ++ data.take 16 ++ (s.attrRecord n).2)
      (b := BitVec.ofNat 8 s.blf.epoch)
      (by simp only [attestBody, attestHead, List.append_assoc, List.singleton_append]; rfl) ?_).trans (BitVec.toNat_ofNat _ _)
    rw [List.length_append, List.length_append, List.length_append, h8, devUid_length, hdata, hrec]
  · exact slice_part rfl (attestHead_length hd) rfl

end

/-! ## The commands that only answer -/

section
variable (hr : s.reaches .mc rBLF_CMD) (hb : s.flag BLF_CMD_BUSY = false)
include hr hb

theorem blfReadAttr_shows (hn : n < 1024) : ∃ t, exec (.blfReadAttr .mc n) s = .next t ∧ s.BlfEnded t 1 (s.attrRecord n).2 ∧
    t.blf.slots = s.blf.slots := by
  have hattr := blfAttr_firmware (s := s.unstaged) (q := s.blfReq n false false) rfl
  rw [blfReq_slot hn, unstaged_attrRecord, attrRecord_state] at hattr
  obtain ⟨hend, hslots, -⟩ := blfCommand_answers (act := fun s => s.blfAttr (s.blfReq n false false)) (st := bsOK) hr hb (by decide)
    ((congrArg (State.blfAttr s.unstaged) (unstaged_blfReq s n false false)).trans hattr)
  exact ⟨_, rfl, hend, hslots⟩

theorem blfCert_shows : ∃ t, exec (.blfCert .mc) s = .next t ∧ s.BlfEnded t 1 (cryptoBytes .certificate [] 4096) ∧
    t.blf.slots = s.blf.slots := by
  obtain ⟨hend, hslots, -⟩ := blfCommand_answers_kept (act := State.blfCert) (st := bsOK) (out := cryptoBytes .certificate [] 4096) hr hb
    (by decide) rfl
  exact ⟨_, rfl, hend, hslots⟩

/-- GET_PUBLIC by the state of its slot. -/
theorem blfGetPublic_shows {out : List Byte} (hst : st < 32) (h : s.unstaged.blfPub (s.blfReq n false false) = (s.unstaged, st, out)) :
    ∃ t, exec (.blfGetPublic .mc n) s = .next t ∧ s.BlfEnded t st out ∧ t.blf.slots = s.blf.slots := by
  obtain ⟨hend, hslots, -⟩ := blfCommand_answers_kept (act := fun s => s.blfPub (s.blfReq n false false)) hr hb hst
    ((congrArg (State.blfPub s.unstaged) (unstaged_blfReq s n false false)).trans h)
  exact ⟨_, rfl, hend, hslots⟩

theorem blfAttest_shows (hn : n < 1024) : ∃ t body nonce, exec (.blfAttest .mc n) s = .next t ∧
    s.BlfEnded t 1 (body ++ ecSign true ((List.range 48).map Config.attestKey) (sha384 body) nonce) ∧
    ((∀ x, (s.slot n).cur = some x → x.pub.length ≤ 96) → body.length = 160) ∧ body.take 4 = [0x4B, 0x51, 0x41, 0x54] ∧
    slice body 8 16 = devUid ∧ slice body 24 16 = s.window (rBLF_DATA 0) 16 ∧ slice body 40 16 = (s.attrRecord n).2 ∧
    byteAt body 56 = s.blf.epoch % 256 ∧ (∀ x, (s.slot n).cur = some x → slice body 64 x.pub.length = x.pub) ∧
    t.blf.slots = s.blf.slots := by
  have hdata : 16 ≤ (s.window (rBLF_DATA 0) 4096).length := by rw [window_length]; decide
  have hpub {x : KeyHalf} (hx : (s.slot n).cur = some x) : s.attestPub n = x.pub := by simp only [attestPub, hx]
  obtain ⟨htag, huid, hnonce, hrec, hepoch, hpoint⟩ := attestBody_parts (s := s) (n := n) hdata
  rw [window_take _ _ (by decide)] at hnonce
  have hatt := blfAtt_firmware (s := s.unstaged) (q := s.blfReq n false false) rfl
  rw [blfReq_slot hn, blfReq_data, unstaged_attestBody, random_state, attrRecord_state] at hatt
  obtain ⟨hend, hslots, -⟩ := blfCommand_answers (act := fun s => s.blfAtt (s.blfReq n false false)) (st := bsOK) hr hb (by decide)
    ((congrArg (State.blfAtt s.unstaged) (unstaged_blfReq s n false false)).trans hatt)
  refine ⟨_, s.attestBody (s.window (rBLF_DATA 0) 4096) n, _, rfl, hend, fun h => attestBody_length hdata ?_, htag, huid, hnonce, hrec, hepoch,
    fun x hx => ?_, hslots⟩
  · cases hc : (s.slot n).cur with
    | none =>
      simp only [attestPub, hc]
      exact Nat.zero_le _
    | some x => exact hpub hc ▸ h x hc
  · rw [← hpub hx]
    exact hpoint

theorem blfExport_shows (h16 : 16 ≤ n) (hn : n < 1024) (hc : (s.slot n).cur = some k) (ho : s.orphaned n = false) (he : k.exprt = true)
    (h16p : 16 ≤ s.fld BLF_CMD_ARG_ARG) (hcp : (s.slot (s.fld BLF_CMD_ARG_ARG)).cur = some w) (hop : s.orphaned (s.fld BLF_CMD_ARG_ARG) = false)
    (hu : bitOf w.usage 6 = true) (ha : isAes w.alg = true) : ∃ t, exec (.blfExport .mc n) s = .next t ∧
      s.BlfEnded t 1 (wrapKey w.key (if isPub k.alg then k.pub else k.key)) ∧ t.blf.slots = s.blf.slots ∧ t.free = s.free := by
  have huse : s.unstaged.blfUse ownFIRMWARE (s.blfReq n false false).slot = .ok k := by
    rw [blfReq_slot hn]
    exact blfUse_ok h16 hn hc ((unstaged_orphaned s n).trans ho)
  have hexp := blfExp_ok (s := s.unstaged) (q := s.blfReq n false false) (w := w) rfl huse he (by rw [blfReq_arg_eq]; exact hcp)
    (by rw [blfReq_arg_eq]; exact h16p) (s.blfReq_arg n false false) (by rw [blfReq_arg_eq, unstaged_orphaned]; exact hop) hu ha
  obtain ⟨hend, hslots, hfree⟩ := blfCommand_answers_kept (act := fun s => s.blfExp (s.blfReq n false false)) (st := bsOK) hr hb (by decide)
    ((congrArg (State.blfExp s.unstaged) (unstaged_blfReq s n false false)).trans hexp)
  exact ⟨_, rfl, hend, hslots, hfree⟩

theorem blfExport_refused (h16 : 16 ≤ n) (hn : n < 1024) (hc : (s.slot n).cur = some k) (ho : s.orphaned n = false) (he : k.exprt = false) :
    ∃ t, exec (.blfExport .mc n) s = .next t ∧ s.BlfEnded t 0xC [] ∧ t.blf.slots = s.blf.slots := by
  have huse : s.unstaged.blfUse ownFIRMWARE (s.blfReq n false false).slot = .ok k := by
    rw [blfReq_slot hn]
    exact blfUse_ok h16 hn hc ((unstaged_orphaned s n).trans ho)
  have hexp := blfExp_closed (s := s.unstaged) (q := s.blfReq n false false) rfl huse he
  obtain ⟨hend, hslots, -⟩ := blfCommand_answers_kept (act := fun s => s.blfExp (s.blfReq n false false)) (st := bsEXPORT) hr hb (by decide)
    ((congrArg (State.blfExp s.unstaged) (unstaged_blfReq s n false false)).trans hexp)
  exact ⟨_, rfl, hend, hslots⟩

end

/-! ## The Yelny envelope (R420 to R422) -/

theorem yelTransport_congr (hs : t.blf.slots = s.blf.slots) (epoch : Nat) : t.yelTransport epoch = s.yelTransport epoch := by
  rw [yelTransport, yelTransport, slot_congr hs]

theorem yelKey_congr (hs : t.blf.slots = s.blf.slots) (e : List Byte) : t.yelKey e = s.yelKey e := by
  rw [yelKey, yelKey, yelTransport_congr hs]

theorem yelCheck_congr (hs : t.blf.slots = s.blf.slots) (he : t.blf.epoch = s.blf.epoch) (e : List Byte) : t.yelCheck e = s.yelCheck e := by
  rw [yelCheck, yelCheck, slot_congr hs, yelKey_congr hs, he]

theorem yelCheck_lt (s : State) (e : List Byte) : s.yelCheck e < 32 := by
  unfold yelCheck
  dsimp only
  repeat' split
  all_goals decide

/-- A slot with the key of an envelope. -/
def yelMade (s : State) (e : List Byte) (origin : Nat) (key pub : List Byte) : SlotSt :=
  { s.slot (byteAt e 26) with
    cur := some ⟨byteAt e 27, byteAt e 28, 0xFFFF, 0, origin, byteAt e 29 == 1, 0, key, pub⟩
    version := ((s.slot (byteAt e 26)).version + 1) % 65536
    owner := ownDEVICE }

/-- The random bytes that an envelope draws. -/
def yelFree (s : State) (e : List Byte) : Nat := if byteAt e 25 = 1 ∨ byteAt e 25 = 2 then s.free else s.free + keyLen (byteAt e 27)

theorem yelSlot_key {e : List Byte} (h : byteAt e 25 = 1) : s.yelSlot e = (s, if isPub (byteAt e 27) then s.yelMade e 2 [] ((s.yelKey e).getD [])
    else s.yelMade e 2 ((s.yelKey e).getD []) (pubOf (byteAt e 27) ((s.yelKey e).getD []))) := by
  simp only [yelSlot, h]
  rfl

theorem yelSlot_empties {e : List Byte} (h : byteAt e 25 = 2) : s.yelSlot e = (s, { (s.slot (byteAt e 26)).emptied with owner := ownDEVICE }) := by
  simp only [yelSlot, h]

theorem yelSlot_pair {e : List Byte} (h1 : byteAt e 25 ≠ 1) (h2 : byteAt e 25 ≠ 2) : s.yelSlot e = ((s.random (keyLen (byteAt e 27))).1,
    s.yelMade e 0 (s.random (keyLen (byteAt e 27))).2 (pubOf (byteAt e 27) (s.random (keyLen (byteAt e 27))).2)) := by
  unfold yelSlot
  dsimp only
  split
  · next h => exact absurd h h1
  · next h => exact absurd h h2
  · rfl

theorem yelSlot_state (s : State) (e : List Byte) : (s.yelSlot e).1 = { s with free := s.yelFree e } := by
  by_cases h1 : byteAt e 25 = 1
  · have hf : s.yelFree e = s.free := if_pos (.inl h1)
    rw [yelSlot_key h1, hf]
  · by_cases h2 : byteAt e 25 = 2
    · have hf : s.yelFree e = s.free := if_pos (.inr h2)
      rw [yelSlot_empties h2, hf]
    · have hf : s.yelFree e = s.free + keyLen (byteAt e 27) := if_neg (by simp [h1, h2])
      rw [yelSlot_pair h1 h2, random_state, hf]

theorem yelMade_congr (hs : t.blf.slots = s.blf.slots) (e : List Byte) (origin : Nat) (key pub : List Byte) :
    t.yelMade e origin key pub = s.yelMade e origin key pub := by
  rw [yelMade, yelMade, slot_congr hs]

theorem yelSlot_congr (hs : t.blf.slots = s.blf.slots) (hf : t.free = s.free) (e : List Byte) : (t.yelSlot e).2 = (s.yelSlot e).2 := by
  by_cases h1 : byteAt e 25 = 1
  · simp only [yelSlot_key h1, yelMade_congr hs, yelKey_congr hs]
  · by_cases h2 : byteAt e 25 = 2
    · simp only [yelSlot_empties h2, slot_congr hs]
    · simp only [yelSlot_pair h1 h2, yelMade_congr hs, random_congr hf]

/-- The sealed record of what an envelope will leave (R421). -/
def yelSealed (s : State) (e : List Byte) : State × List Byte := ((s.yelSlot e).1.setSlot (byteAt e 26) (s.yelSlot e).2).privRecord (byteAt e 24)

/-- The envelope in a window. -/
def envelope (w : List Byte) : List Byte := w.take (leNat (slice w 6 2))

/-- Belfry as another state has it, but for the envelope it holds. -/
def holdingEnvelope (s t : State) (x : List Byte × SlotSt) : State := { s with blf := { t.blf with staged := some x } }

theorem yelStage_refused {w : List Byte} (hw : s.window (rBLF_DATA 0) 4096 = w) (h : s.yelCheck w ≠ bsOK) :
    s.yelStage = (s, s.yelCheck w, []) := by
  rw [yelStage, hw, if_pos h]

theorem yelStage_holds {w : List Byte} (hw : s.window (rBLF_DATA 0) 4096 = w) (h : s.yelCheck w = bsOK) : s.yelStage =
    ((s.yelSealed (envelope w)).1.holdingEnvelope (s.yelSlot (envelope w)).1 (envelope w, (s.yelSlot (envelope w)).2), bsOK,
      (s.yelSealed (envelope w)).2) := by
  rw [yelStage, hw, if_neg (fun hne => hne h), yelSealed, holdingEnvelope, envelope]

theorem privRecord_length (s : State) (epoch : Nat) : (s.privRecord epoch).2.length = 4096 := by
  simp only [privRecord, cryptoBytes_length]

theorem yelSealed_length (s : State) (e : List Byte) : (s.yelSealed e).2.length = 4096 := privRecord_length _ _

theorem privRecord_state (s : State) (epoch : Nat) : (s.privRecord epoch).1 = { s with free := s.free + 16 } := random_state s 16

/-- What is left when an envelope is held. -/
def staging (s : State) (f : Nat) (x : List Byte × SlotSt) : State := { s with free := f, blf := { s.blf with staged := some x } }

theorem BlfActed.staging (h : s.BlfActed u) (f : Nat) (x : List Byte × SlotSt) : s.BlfActed (u.staging f x) := ⟨h.blf, h.rest, h.regs⟩

theorem yelHeld_state (s : State) (e : List Byte) : (s.yelSealed e).1.holdingEnvelope (s.yelSlot e).1 (e, (s.yelSlot e).2) =
    s.staging (s.yelFree e + 16) (e, (s.yelSlot e).2) := by
  rw [yelSealed, privRecord_state, yelSlot_state]
  rfl

theorem yelnyStage_shows (hr : s.reaches .mc rBLF_CMD) (hb : s.flag BLF_CMD_BUSY = false) {w e : List Byte}
    (hw : w = s.window (rBLF_DATA 0) 4096) (hst : st = s.yelCheck w) (he : e = envelope w) :
    ∃ t, exec (.yelnyStage .mc) s = .next t ∧ t.blf.slots = s.blf.slots ∧
      (if st = 1 then t.blf.staged = some (e, (s.yelSlot e).2) ∧ ∃ out, out.length = 4096 ∧ s.BlfEnded t 1 out
        else t.blf.staged = none ∧ s.BlfEnded t st []) := by
  have hw' : s.unstaged.window (rBLF_DATA 0) 4096 = w := (unstaged_window s _ _).trans hw.symm
  have hcheck : s.unstaged.yelCheck w = s.yelCheck w := yelCheck_congr (s := s) (t := s.unstaged) rfl rfl w
  have hslot : (s.unstaged.yelSlot e).2 = (s.yelSlot e).2 := yelSlot_congr (s := s) (t := s.unstaged) rfl rfl e
  subst hst
  by_cases h : s.yelCheck w = 1
  · have hstage := yelStage_holds hw' (hcheck.trans h)
    rw [← he, yelHeld_state, hslot] at hstage
    refine ⟨_, congrArg Host.Outcome.next (blfCommand_ends (act := State.yelStage) hr hb hstage), ?_, ?_⟩
    · rw [blfEnd_blf]
      rfl
    · have hacted : s.BlfActed (s.unstaged.staging (s.unstaged.yelFree e + 16) (e, (s.yelSlot e).2)) :=
        (BlfActed.unstaged s).staging _ _
      rw [if_pos h, blfEnd_blf]
      exact ⟨rfl, (s.unstaged.yelSealed e).2, yelSealed_length _ e, hacted.ended (by decide) _⟩
  · have hstage := yelStage_refused hw' (fun k => h (hcheck.symm.trans k))
    rw [hcheck] at hstage
    refine ⟨_, congrArg Host.Outcome.next (blfCommand_ends (act := State.yelStage) hr hb hstage), ?_, ?_⟩
    · rw [blfEnd_blf]
      rfl
    · rw [if_neg h, blfEnd_blf]
      exact ⟨rfl, (BlfActed.unstaged s).ended (yelCheck_lt s w) []⟩

/-! ## YELNY_COMMIT (R422) -/

theorem yelnyCommit_ends (hr : s.reaches .mc rBLF_CMD) (hb : s.flag BLF_CMD_BUSY = false) {out : List Byte} (h : s.yelCommit = (u, st, out)) :
    exec (.yelnyCommit .mc) s = .next (u.blfEnd st out) := by
  have hcommand : s.blfCommand .mc true State.yelCommit = u.blfEnd st out := by
    rw [blfCommand, mcOnly_mc hr, hb]
    simp only [Bool.false_eq_true, if_false, if_true, h]
  exact congrArg Host.Outcome.next hcommand

theorem BlfActed.refl (s : State) : s.BlfActed s := ⟨rfl, rfl, fun _ _ => rfl⟩

/-- The slots that the boot source holds. -/
def flashOf (l : Tab SlotSt) : Tab SlotSt := l.filter fun x => decide (2 ≤ x.1 ∧ x.1 ≤ 15 ∧ x.1 ≠ 6)

/-- An envelope applied. -/
def fused (s : State) (n epoch : Nat) (x : SlotSt) : State :=
  { s.setSlot n x with blf := { (s.setSlot n x).blf with staged := none, epoch := epoch, flash := flashOf (s.setSlot n x).blf.slots } }

theorem yelCommit_some {e : List Byte} {x : SlotSt} (h : s.blf.staged = some (e, x)) :
    s.yelCommit = ((s.fused (byteAt e 26) (byteAt e 24) x).setFlag BLF_EVT_EPOCH, bsOK, []) := by
  simp only [yelCommit, h]
  rfl

theorem fused_rest (s : State) (n epoch : Nat) (x : SlotSt) : { s.fused n epoch x with regs := s.regs, blf := s.blf } = s := rfl
theorem fused_slot (s : State) (n epoch : Nat) (x : SlotSt) (m : Nat) : (s.fused n epoch x).slot m = (s.setSlot n x).slot m := rfl
theorem setFlag_rest (s : State) (f : Fld) : { s.setFlag f with regs := s.regs } = s := rfl

theorem yelnyCommit_shows (hr : s.reaches .mc rBLF_CMD) (hb : s.flag BLF_CMD_BUSY = false) {e : List Byte} {x : SlotSt}
    (h : s.blf.staged = some (e, x)) (hn : n = byteAt e 26) (h2 : 2 ≤ n) : ∃ t, exec (.yelnyCommit .mc) s = .next t ∧
      t.fld BLF_CMD_STATUS = 1 ∧ t.flag BLF_CMD_BUSY = false ∧ t.flag BLF_EVT_CMD_DONE = true ∧ t.flag BLF_EVT_EPOCH = true ∧
      t.blf.staged = none ∧ t.blf.epoch = byteAt e 24 ∧ (∀ i, i ≠ n → t.slot i = s.slot i) ∧ t.slot n = x ∧
      { t with regs := s.regs, blf := s.blf } = s := by
  have hcommit := yelCommit_some h
  rw [← hn] at hcommit
  have hrest := setFlag_rest (s.fused n (byteAt e 24) x) BLF_EVT_EPOCH
  have hblf := blf_of_rest hrest
  have hslot (i : Nat) : ((s.fused n (byteAt e 24) x).setFlag BLF_EVT_EPOCH).slot i = (s.setSlot n x).slot i :=
    slot_congr (congrArg Blf.slots hblf) i
  refine ⟨_, yelnyCommit_ends hr hb hcommit, ?_, ?_, ?_, ?_, ?_, ?_, fun i hi => ?_, ?_, ?_⟩
  · rw [blfEnd_eq, blfDone_status _ (by decide)]
    rfl
  · rw [blfEnd_eq, blfDone_busy]
  · rw [blfEnd_eq, blfDone_event]
  · have hset := flag_setFlag_self (s.fused n (byteAt e 24) x) (f := BLF_EVT_EPOCH) (by decide) rfl
    rw [← hset]
    exact congrArg (· == 1) (blfEnd_evt _ _ _ (by decide) (by decide))
  · rw [blfEnd_blf, hblf]
    rfl
  · rw [blfEnd_blf, hblf]
    rfl
  · rw [blfEnd_slot, hslot, slot_setSlot_ne _ hi]
  · rw [blfEnd_slot, hslot, slot_setSlot_self _ h2]
  · exact rest_beside_blf (rest_beside_blf (fused_rest s n (byteAt e 24) x) hrest) (blfEnd_rest _ _ _)

/-! ## Refusals (R425) -/

/-- No host's function may write BLF_CMD. -/
theorem hostShut (s : State) : s.hostMayWrite (rBLF_CMD / 4 * 4) = false := by
  simp [hostMayWrite, rBLF_CMD, rGLB_STATE_CTL, rGLB_SCRATCH, rTBL_RES_HI, half, rPWR_HOSTBOOT_LO, rPWR_HOSTBOOT_HI, rPWR_HOSTBOOT_GO]

theorem isHost_of_reaches {r : Requester} (hr : s.reaches r rBLF_CMD) : isHost r = false := by
  by_contra hhost
  have hnot (tn : Nat) : r ≠ .tenant tn := by
    rintro rfl
    exact hhost rfl
  rw [reaches, writeGate_eq _ _ hnot (reaches_unreachable hr), if_pos ⟨by simpa using hhost, hostShut s⟩] at hr
  exact absurd hr (Option.some_ne_none _)

theorem mcOnly_reaches {r : Requester} (hr : s.reaches r rBLF_CMD) (res : Fld) (m : Nat) (act : State → State) :
    s.mcOnly r rBLF_CMD res m act = act s := by
  simp only [mcOnly, reaches_unreachable hr, isHost_of_reaches hr, Bool.false_eq_true, if_false, gated_reaches hr]

theorem statusPut_shows (s : State) (h : n < 32) : (s.put BLF_CMD_STATUS n).fld BLF_CMD_STATUS = n ∧
    s.OnlyRegs (s.put BLF_CMD_STATUS n) [rBLF_CMD] :=
  ⟨(fld_put_same n (by decide)).trans (Nat.mod_eq_of_lt h), (OnlyRegs.refl s _).put n List.mem_cons_self⟩

theorem mcOnly_host {r : Requester} (hh : isHost r = true) (hu : s.unreachable r = false) (hp : s.powered rBLF_CMD = true)
    (act : State → State) : (s.mcOnly r rBLF_CMD BLF_CMD_STATUS bsNOTOWNER act).fld BLF_CMD_STATUS = 3 ∧
      s.OnlyRaises (s.mcOnly r rBLF_CMD BLF_CMD_STATUS bsNOTOWNER act) [rGLB_ACCESS_ERR, rBLF_CMD] := by
  have hrec := (s.accessErr_recorded (addr := rBLF_CMD) (cause := 4) (by decide) (by decide)).frame
  simp only [mcOnly, hu, hh, hp, Bool.false_eq_true, if_false, if_true]
  refine ⟨(fld_put_same 3 (by decide)), ?_⟩
  exact OnlyRaises.put ⟨hrec.rest, fun a ha => hrec.regs a fun hm => ha (List.mem_cons.mpr (.inl (List.mem_singleton.mp hm)))⟩ _
    (List.mem_cons_of_mem _ List.mem_cons_self)

/-- A write of BLF_CMD, by what it does in a device whose BLF_CMD is free. -/
def blfGuard (act : State → State) (s : State) : State := if s.flag BLF_CMD_BUSY then s.put BLF_CMD_STATUS bsBUSY else act s

theorem blfCommand_guarded {c : Instr} {r : Requester} {keep : Bool} {act : State → BlfRes} (h : exec c s = .next (s.blfCommand r keep act)) :
    ∃ act, exec c s = .next (s.mcOnly r rBLF_CMD BLF_CMD_STATUS bsNOTOWNER (blfGuard act)) := ⟨_, h⟩

theorem blfInvalidate_guarded (s : State) (r : Requester) (n : Nat) :
    ∃ act, exec (.blfInvalidate r n) s = .next (s.mcOnly r rBLF_CMD BLF_CMD_STATUS bsNOTOWNER (blfGuard act)) := ⟨_, rfl⟩

theorem blf_refusals {c : Instr} {r : Requester} (h : ∃ act, exec c s = .next (s.mcOnly r rBLF_CMD BLF_CMD_STATUS bsNOTOWNER (blfGuard act))) :
    (s.reaches r rBLF_CMD → s.flag BLF_CMD_BUSY = true → ∃ t, exec c s = .next t ∧ t.fld BLF_CMD_STATUS = 2 ∧ s.OnlyRegs t [rBLF_CMD]) ∧
    (isHost r = true → s.unreachable r = false → s.powered rBLF_CMD = true →
      ∃ t, exec c s = .next t ∧ t.fld BLF_CMD_STATUS = 3 ∧ s.OnlyRaises t [rGLB_ACCESS_ERR, rBLF_CMD]) := by
  obtain ⟨act, hact⟩ := h
  rw [hact]
  refine ⟨fun hr hb => ⟨_, rfl, ?_⟩, fun hh hu hp => ⟨_, rfl, mcOnly_host hh hu hp _⟩⟩
  rw [mcOnly_reaches hr, blfGuard, if_pos hb]
  exact s.statusPut_shows (by decide)

end
end State

open State in
/-- Settles O50: each answer by the record its slot gives, the boot commands by the envelope checked and held, and every refusal by the
one gate of BLF_CMD. -/
theorem belfryAnswersAndRefusals : Obligations.BelfryAnswersAndRefusals := by
  unfold Obligations.BelfryAnswersAndRefusals
  refine ⟨fun s n p k w hr hb hn => ⟨fun hp h16 h16p hc ho => ?_, blfReadAttr_shows hr hb hn, fun hc ho => ?_, fun hc ho => ?_,
    blfAttest_shows hr hb hn, blfCert_shows hr hb⟩, fun s r st n slot e w x a b => ⟨fun hr hb => ⟨fun hw hst he => ?_, fun hn => ?_,
    fun h => ?_, fun h hn h2 => ?_⟩, fun c hc => ?_⟩⟩
  · subst hp
    exact ⟨fun he hcp hop hu ha => blfExport_shows hr hb h16 hn hc ho he h16p hcp hop hu ha,
      fun he => blfExport_refused hr hb h16 hn hc ho he⟩
  · have hpub := blfPub_eq (s := s.unstaged) (q := s.blfReq n false false) (k := k) rfl (by rw [blfReq_slot hn]; exact hc)
    rw [blfReq_slot hn, unstaged_orphaned, ho] at hpub
    refine ⟨fun ha => blfGetPublic_shows hr hb (by decide : bsOK < 32) ?_, fun ha => blfGetPublic_shows hr hb (by decide : bsUSAGE < 32) ?_⟩
    · rw [hpub, ha]
      rfl
    · rw [hpub, ha]
      rfl
  · have hpub := blfPub_eq (s := s.unstaged) (q := s.blfReq n false false) (k := k) rfl (by rw [blfReq_slot hn]; exact hc)
    rw [blfReq_slot hn, unstaged_orphaned, ho] at hpub
    exact blfGetPublic_shows hr hb (by decide : bsORPHANED < 32) hpub
  · exact yelnyStage_shows hr hb hw hst he
  · subst hn
    refine ⟨fun h => ?_, fun h hp => ?_⟩
    · rw [yelSlot_empties h]
      rfl
    · have hkey : s.yelKey e = some (slice e 40 (leNat (slice e 32 4))) := by
        simp only [yelKey, h, ne_eq, not_true_eq_false, if_false, hp, if_true]
      rw [yelSlot_key h, hkey, if_pos hp]
      rfl
  · have hcommit : s.yelCommit = (s, bsNOTSTAGED, []) := by simp only [yelCommit, h]
    exact ⟨_, yelnyCommit_ends hr hb hcommit, (BlfActed.refl s).ended (by decide) [], blfEnd_blf _ _ _⟩
  · exact yelnyCommit_shows hr hb h hn h2
  · simp only [List.mem_cons, List.not_mem_nil, or_false] at hc
    obtain rfl | rfl | rfl | rfl | rfl | rfl | rfl | rfl | rfl | rfl | rfl | rfl | rfl | rfl | rfl := hc
    on_goal 9 => exact blf_refusals (blfInvalidate_guarded s r slot)
    all_goals exact blf_refusals (blfCommand_guarded rfl)

end Sys2Proof.Machine
end

section
/-! SUPPORT. What a wake and a request of a cluster leave of the rest of the device, numbers in bytes, and parts of a data window (R371, R376). -/

namespace Sys2Proof.Machine

/-! ## Numbers in bytes -/

theorem beNat_append (l : List Byte) (b : Byte) : beNat (l ++ [b]) = beNat l * 256 + b.toNat := by
  rw [beNat, List.foldl_append, ← beNat]
  rfl

theorem leNat_cons (b : Byte) (l : List Byte) : leNat (b :: l) = leNat l * 256 + b.toNat := by
  rw [leNat, List.reverse_cons, beNat_append, ← leNat]

theorem leNat_lt (l : List Byte) : leNat l < 256 ^ l.length := by
  induction l with
  | nil => decide
  | cons b l ih =>
    have hb := b.isLt
    rw [leNat_cons, List.length_cons, Nat.pow_succ]
    omega

theorem beNat_lt (l : List Byte) : beNat l < 256 ^ l.length := by
  have h := leNat_lt l.reverse
  rwa [leNat, List.reverse_reverse, List.length_reverse] at h

theorem leNat_leBytes (n v : Nat) : leNat (leBytes n v) = v % 256 ^ n := by
  induction n generalizing v with
  | zero => rw [Nat.pow_zero, Nat.mod_one]; rfl
  | succ n ih =>
    have hpow : 256 ^ (n + 1) = 256 * 256 ^ n := by rw [Nat.pow_succ, Nat.mul_comm]
    rw [leBytes, leNat_cons, ih, BitVec.toNat_ofNat, hpow, Nat.mod_mul]
    omega

theorem slice_length_le (l : List Byte) (i n : Nat) : (slice l i n).length ≤ n := List.length_take_le _ _

theorem beNat_slice_lt (l : List Byte) (i : Nat) : beNat (slice l i 4) < 2 ^ 32 :=
  (beNat_lt _).trans_le (Nat.pow_le_pow_right (by decide) (slice_length_le l i 4))

theorem leNat_slice_lt (l : List Byte) (i n : Nat) : leNat (slice l i n) < 256 ^ n :=
  (leNat_lt _).trans_le (Nat.pow_le_pow_right (by decide) (slice_length_le l i n))

theorem slice_slice (l : List Byte) {i n j m : Nat} (h : j + m ≤ n) : slice (slice l i n) j m = slice l (i + j) m := by
  rw [slice, slice, slice, List.drop_take, List.take_take, List.drop_drop, Nat.min_eq_left (by omega)]

theorem byteAt_slice (l : List Byte) {i n j : Nat} (h : j < n) : byteAt (slice l i n) j = byteAt l (i + j) := by
  rw [byteAt, byteAt, slice, List.getD_eq_getElem?_getD, List.getD_eq_getElem?_getD, List.getElem?_take_of_lt h, List.getElem?_drop]

namespace State

section
variable {s t u : State} {k : Nat}

/-! ## Parts of a window -/

/-- A window that starts at a later word. -/
theorem slice_window (s : State) (a : Nat) {j n m : Nat} (h : 4 * j + m ≤ n) : slice (s.window a n) (4 * j) m = s.window (a + 4 * j) m := by
  refine List.ext_getElem ?_ fun i hi _ => ?_
  · simp only [slice, window_eq, List.length_take, List.length_drop, List.length_map, List.length_range]
    omega
  · have hword : a + 4 * ((4 * j + i) / 4) = a + 4 * j + 4 * (i / 4) := by omega
    have hbyte : (4 * j + i) % 4 = i % 4 := by omega
    simp only [slice, window_eq, List.getElem_take, List.getElem_drop, List.getElem_map, List.getElem_range, winByte, hword, hbyte]

/-! ## What a wake of a cluster leaves -/

/-- A cluster woken or requested: of the registers only those of network management change, and not its request bits. -/
structure WakeFrame (k : Nat) (s t : State) : Prop where
  rest : { t with regs := s.regs, nm := s.nm, wrec := s.wrec, ports := s.ports, lins := s.lins, pwr := s.pwr } = s
  beside : ∀ a, a < 0x1700000 ∨ 0x1800000 ≤ a → t.reg a = s.reg a
  req : t.reg (rNMW_NC_REQ k) = s.reg (rNMW_NC_REQ k)

namespace WakeFrame

theorem refl (s : State) : WakeFrame k s s := ⟨rfl, fun _ _ => rfl, rfl⟩

theorem trans (h : WakeFrame k s t) (g : WakeFrame k t u) : WakeFrame k s u :=
  ⟨(congrArg (fun x : State => { x with regs := s.regs, nm := s.nm, wrec := s.wrec, ports := s.ports, lins := s.lins, pwr := s.pwr })
    g.rest :).trans h.rest, fun a ha => (g.beside a ha).trans (h.beside a ha), g.req.trans h.req⟩

theorem put (h : WakeFrame k s t) {f : Fld} (v : Nat) (hf : 0x1700000 ≤ f.addr ∧ f.addr < 0x1800000) (hk : f.addr ≠ rNMW_NC_REQ k) :
    WakeFrame k s (t.put f v) :=
  ⟨h.rest, fun a ha => (reg_put_ne t f v (by omega)).trans (h.beside a ha), (reg_put_ne t f v hk.symm).trans h.req⟩

theorem setNm (h : WakeFrame k s t) (c : Nat) (x : NmSt) : WakeFrame k s (t.setNm c x) := ⟨h.rest, h.beside, h.req⟩
theorem setPort (h : WakeFrame k s t) (p : Nat) (x : PortSt) : WakeFrame k s (t.setPort p x) := ⟨h.rest, h.beside, h.req⟩
theorem setLin (h : WakeFrame k s t) (n : Nat) (x : LinSt) : WakeFrame k s (t.setLin n x) := ⟨h.rest, h.beside, h.req⟩
theorem withWrec (h : WakeFrame k s t) (l : List WakeRec) : WakeFrame k s { t with wrec := l } := ⟨h.rest, h.beside, h.req⟩
theorem withPwr (h : WakeFrame k s t) (x : PwrSt) : WakeFrame k s { t with pwr := x } := ⟨h.rest, h.beside, h.req⟩

theorem foldl {f : State → Nat → State} (hf : ∀ s q, WakeFrame k s (f s q)) (l : List Nat) (s : State) : WakeFrame k s (l.foldl f s) :=
  foldl_relates (R := WakeFrame k) refl trans (fun s q _ => hf s q) s

end WakeFrame

theorem ncPut_frame (s : State) (k : Nat) {c : Nat} (hc : c < 16) (st : Nat) : WakeFrame k s (s.ncPut c st) := by
  unfold ncPut
  split
  · exact .refl s
  · refine ((WakeFrame.refl s).put st ?_ ?_).put 1 ?_ ?_ <;>
    · simp only [NMW_NC_STATE_STATE, NMW_NC_EVT_STATE_CHG, rNMW_NC_STATE, rNMW_NC_EVT, rNMW_NC_REQ]
      omega

theorem repeatPort_frame (s : State) (k src idx p : Nat) : WakeFrame k s (s.repeatPort src idx p) := by
  unfold repeatPort
  split
  · exact ((WakeFrame.refl s).setPort _ _).setPort _ _
  · split
    · refine (WakeFrame.refl s).put 0 ?_ ?_ <;>
      · simp only [NMW_CAN_SW_FEC, rNMW_CAN_SW, rNMW_NC_REQ]
        omega
    · exact (WakeFrame.refl s).setLin _ _

theorem enterRepeat_frame (s : State) (k : Nat) {c : Nat} (hc : c < 16) (src idx : Nat) : WakeFrame k s (s.enterRepeat c src idx) :=
  ((s.ncPut_frame k hc ncREPEAT).setNm c _).trans (.foldl (fun t p => t.repeatPort_frame k src idx p) _ _)

theorem wakeRecord_frame (s : State) (hk : k < 16) (x : WakeRec) : WakeFrame k s (s.wakeRecord x) := by
  have hreq {f : Fld} (hf : 0x1710000 ≤ f.addr ∧ f.addr < 0x1800000) : (0x1700000 ≤ f.addr ∧ f.addr < 0x1800000) ∧ f.addr ≠ rNMW_NC_REQ k := by
    simp only [rNMW_NC_REQ]
    omega
  unfold wakeRecord
  split
  · have hstat := hreq (f := NMW_WREC_STAT_OVF) (by decide)
    have hevt := hreq (f := NMW_EVT_WREC_OVF) (by decide)
    exact ((WakeFrame.refl s).put _ hstat.1 hstat.2).put 1 hevt.1 hevt.2
  · have hevt := hreq (f := NMW_EVT_WREC) (by decide)
    exact ((WakeFrame.refl s).withWrec _).put 1 hevt.1 hevt.2

theorem wakeEvent_frame (s : State) (k : Nat) {c : Nat} (hc : c < 16) (src idx : Nat) :
    WakeFrame k s ((s.setFlag (NMW_NC_EVT_WAKE c)).enterRepeat c src idx) := by
  refine ((WakeFrame.refl s).put 1 ?_ ?_).trans (enterRepeat_frame _ k hc src idx) <;>
  · simp only [NMW_NC_EVT_WAKE, rNMW_NC_EVT, rNMW_NC_REQ]
    omega

theorem nmWake_frame (s : State) (hk : k < 16) {c : Nat} (hc : c < 16) (src idx pat : Nat) : WakeFrame k s (s.nmWake c src idx pat) := by
  unfold nmWake
  extract_lets st ev _ slept _ recorded cancelled marked
  have hslept : WakeFrame k s slept := by
    unfold slept
    split
    · exact .refl s
    · exact (WakeFrame.refl s).withPwr _
  split
  · exact .refl s
  split
  · split
    · exact hslept
    · exact hslept.setNm _ _
  split
  · exact hslept
  split
  · exact .refl s
  split
  · exact (s.wakeRecord_frame hk _).trans (wakeEvent_frame _ k hc src idx)
  split
  · refine (((s.wakeRecord_frame hk _).put _ ?_ ?_).put 1 ?_ ?_).trans (wakeEvent_frame _ k hc src idx) <;>
    · simp only [NMW_NC_CANCEL_CNT_VAL, NMW_NC_EVT_CANCEL, rNMW_NC_CANCEL_CNT, rNMW_NC_EVT, rNMW_NC_REQ]
      omega
  · exact .refl s

theorem nmRequest_frame (s : State) (hk : k < 16) {c : Nat} (hc : c < 16) (idx : Nat) : WakeFrame k s (s.nmRequest c idx) := by
  unfold nmRequest
  split
  · exact (WakeFrame.refl s).setNm _ _
  · exact s.nmWake_frame hk hc 8 idx 0

theorem nmRelease_frame (s : State) (k c : Nat) : WakeFrame k s (s.nmRelease c) := by
  unfold nmRelease
  split
  · exact .refl s
  · exact (WakeFrame.refl s).setNm _ _

/-! ## A request of the ledger (R429) -/

/-- Its bit is as it was written; all else is what the request or its end does. -/
theorem nmLedger_shows (s : State) (hk : k < 16) (hold : Bool) : (s.nmLedger k hold).flag (NMW_NC_REQ_LEDGER k) = hold ∧
    WakeFrame k (s.put (NMW_NC_REQ_LEDGER k) (bitN hold)) (s.nmLedger k hold) := by
  have hframe : WakeFrame k (s.put (NMW_NC_REQ_LEDGER k) (bitN hold)) (s.nmLedger k hold) := by
    unfold nmLedger
    dsimp only
    split
    · split
      · exact .refl _
      · exact nmRequest_frame _ hk hk _
    · split
      · exact nmRelease_frame _ k k
      · exact .refl _
  refine ⟨?_, hframe⟩
  have hfld : (s.nmLedger k hold).fld (NMW_NC_REQ_LEDGER k) = (s.put (NMW_NC_REQ_LEDGER k) (bitN hold)).fld (NMW_NC_REQ_LEDGER k) :=
    fld_of_reg hframe.req
  rw [flag, hfld]
  exact s.flag_put_bitN (by decide : 1 + 1 ≤ 32) rfl hold

end
end State
end Sys2Proof.Machine
end

section
/-! PROOFS. The energy ledger takes records (R427 to R429): O51. -/

namespace Sys2Proof.Machine
namespace State

section
variable {s t u : State} {c : Nat} {x : LdgRec} {q : List LdgRec} {k : List Byte} {as : List Nat}

/-! ## The checks of R427 -/

theorem ldgCheck_notReady (h : s.flag LDG_FLAGS_READY = false) : s.ldgCheck x = s.inc LDG_NOT_READY_CNT_VAL := if_pos h

theorem ldgCheck_unknown (h : s.flag LDG_FLAGS_READY = true) (hf : byteAt x.bytes 0 ≠ 1 ∨ s.ldgFind x.port (be16 x.bytes 2) = none) :
    s.ldgCheck x = s.inc LDG_UNKNOWN_CNT_VAL := by
  simp only [ldgCheck, h, Bool.true_eq_false, if_false]
  split
  · next c hv hc =>
    obtain hf | hf := hf
    · exact absurd (of_decide_eq_true hv) hf
    · rw [hf] at hc
      exact absurd hc.symm (Option.some_ne_none c)
  · rfl

section
variable (h : s.flag LDG_FLAGS_READY = true) (hv : byteAt x.bytes 0 = 1) (hf : s.ldgFind x.port (be16 x.bytes 2) = some c)
include h hv hf

theorem ldgCheck_noKey (hk : s.ldgKey c = none) :
    s.ldgCheck x = (s.noteOrphan ownFIRMWARE (ldgChan s.active c 6 2)).inc LDG_NO_KEY_CNT_VAL := by
  simp only [ldgCheck, h, hv, hf, hk, Bool.true_eq_false, if_false, decide_true]

theorem ldgCheck_badTag (hk : s.ldgKey c = some k) (ht : slice x.bytes 24 8 ≠ (cmac k (x.bytes.take 24)).take 8) :
    s.ldgCheck x = (s.incSat (LDG_CH_AUTH_FAIL_VAL c)).setFlag LDG_EVT_AUTH_FAIL := by
  simp only [ldgCheck, h, hv, hf, hk, Bool.true_eq_false, if_false, decide_true, if_pos ht]

theorem ldgCheck_replay (hk : s.ldgKey c = some k) (ht : slice x.bytes 24 8 = (cmac k (x.bytes.take 24)).take 8)
    (hr : s.flag (LDG_CH_STATE_FRESH c) = false) (hs : beNat (slice x.bytes 4 4) ≤ s.fld (LDG_CH_LAST_SEQ_VAL c)) :
    s.ldgCheck x = s.incSat (LDG_CH_REPLAY_VAL c) := by
  simp only [ldgCheck, h, hv, hf, hk, Bool.true_eq_false, if_false, decide_true, ht, ne_eq, not_true_eq_false, hr, hs, and_self, if_true]

theorem ldgCheck_accepts (hk : s.ldgKey c = some k) (ht : slice x.bytes 24 8 = (cmac k (x.bytes.take 24)).take 8)
    (hs : s.flag (LDG_CH_STATE_FRESH c) = true ∨ s.fld (LDG_CH_LAST_SEQ_VAL c) < beNat (slice x.bytes 4 4)) :
    s.ldgCheck x = s.ldgAccept c x.bytes := by
  have hnot : ¬ (s.flag (LDG_CH_STATE_FRESH c) = false ∧ beNat (slice x.bytes 4 4) ≤ s.fld (LDG_CH_LAST_SEQ_VAL c)) := by
    rintro ⟨h1, h2⟩
    obtain h' | h' := hs
    · rw [h1] at h'; exact Bool.noConfusion h'
    · omega
  simp only [ldgCheck, h, hv, hf, hk, Bool.true_eq_false, if_false, decide_true, ht, ne_eq, not_true_eq_false, if_neg hnot]

end

/-! ## The record at the front -/

/-- The FIFO without its front. -/
def ldgPopped (s : State) (q : List LdgRec) : State := { s with ldgQ := q }

theorem exec_meteringRecord (h : s.ldgQ = x :: q) : exec .meteringRecord s = .next ((s.ldgPopped q).ldgCheck x) := by
  simp only [exec, execMeteringRecord, h]
  rfl

theorem ldgPopped_fld (s : State) (q : List LdgRec) (f : Fld) : (s.ldgPopped q).fld f = s.fld f := rfl
theorem ldgPopped_flag (s : State) (q : List LdgRec) (f : Fld) : (s.ldgPopped q).flag f = s.flag f := rfl
theorem ldgPopped_find (s : State) (q : List LdgRec) (p m : Nat) : (s.ldgPopped q).ldgFind p m = s.ldgFind p m := rfl

theorem ldgPopped_keyLoad (s : State) (q : List LdgRec) (who n : Nat) : (s.ldgPopped q).keyLoad who n = s.keyLoad who n := by
  have horphan (key : KeyHalf) : (s.ldgPopped q).orphanFrom 1024 key = s.orphanFrom 1024 key :=
    orphanFrom_congr (s := s) (t := s.ldgPopped q) rfl 1024 key
  simp only [keyLoad, horphan]
  rfl

theorem ldgPopped_key (s : State) (q : List LdgRec) (c : Nat) : (s.ldgPopped q).ldgKey c = s.ldgKey c := by
  rw [ldgKey, ldgKey, ldgPopped_keyLoad]
  rfl

theorem ldgQ_of_onlyRegs (h : (s.ldgPopped q).OnlyRegs t as) : t.ldgQ = q := (congrArg State.ldgQ h.rest :)

theorem popped_rest (h : (s.ldgPopped q).OnlyRegs t as) : { t with regs := s.regs, ldgQ := s.ldgQ } = s :=
  (congrArg (fun x : State => { x with ldgQ := s.ldgQ }) h.rest :)

theorem popped_regs (h : (s.ldgPopped q).OnlyRegs t as) : s.RegsBut t as := h.regs

/-! ## A channel's registers -/

theorem incSat_onlyRegs (s : State) (f : Fld) : s.OnlyRegs (s.incSat f) [f.addr] := (OnlyRegs.refl s _).put _ List.mem_cons_self

theorem noteOrphan_onlyRegs (s : State) (who n : Nat) : s.OnlyRegs (s.noteOrphan who n) [rBLF_ORPHAN_USE_CNT] := by
  unfold noteOrphan
  split
  · split
    · exact inc_onlyRegs s _
    · exact .refl s _
  · exact .refl s _

theorem noteOrphan_same (who n : Nat) (h : s.keyLoad who n ≠ .error 5) : s.noteOrphan who n = s := by
  unfold noteOrphan
  split
  · next e he => exact if_neg fun hb => h (by rw [he, hb]; rfl)
  · rfl

theorem ldgAdd_onlyRegs (s : State) (lo hi : Fld) (n : Nat) : s.OnlyRegs (s.ldgAdd lo hi n) [lo.addr, hi.addr] :=
  ((OnlyRegs.refl s _).put _ List.mem_cons_self).put _ (List.mem_cons_of_mem _ List.mem_cons_self)

theorem ldgAdd_self (s : State) {lo hi : Fld} (hne : lo.addr ≠ hi.addr) (hl : lo.lsb = 0 ∧ lo.wid = 32) (hh : hi.lsb = 0 ∧ hi.wid = 32)
    (n : Nat) : (s.ldgAdd lo hi n).fld64 lo hi = min (s.fld64 lo hi + n) (2 ^ 64 - 1) := by
  rw [ldgAdd, fld64_put64_words _ _ _ hne hl hh, Nat.mod_eq_of_lt (by omega)]

theorem fld64_of_regs {lo hi : Fld} (hl : t.reg lo.addr = s.reg lo.addr) (hh : t.reg hi.addr = s.reg hi.addr) : t.fld64 lo hi = s.fld64 lo hi := by
  rw [fld64, fld64, fld_of_reg hl, fld_of_reg hh]

/-! ## An accepted record (R428) -/

/-- Its energies added to the totals. -/
def ldgTotals (s : State) (c : Nat) (b : List Byte) : State :=
  (s.ldgAdd (LDG_CH_CHG_MWH_LO_VAL c) (LDG_CH_CHG_MWH_HI_VAL c) (beNat (slice b 8 4))).ldgAdd
    (LDG_CH_DIS_MWH_LO_VAL c) (LDG_CH_DIS_MWH_HI_VAL c) (beNat (slice b 12 4))

/-- The sequence numbers before it were missed. -/
def ldgMisses (s : State) (c seq : Nat) : Prop := s.fld (LDG_CH_LAST_SEQ_VAL c) + 1 < seq ∧ s.flag (LDG_CH_STATE_FRESH c) = false

/-- A gap counted and flagged. -/
def ldgGapped (s : State) (c n : Nat) : State :=
  ((s.put (LDG_CH_GAP_CNT_VAL c) (min (s.fld (LDG_CH_GAP_CNT_VAL c) + n) (2 ^ 32 - 1))).put (LDG_CH_STATE_GAP c) 1).setFlag LDG_EVT_GAP

/-- The sequence number noted, and the channel no longer fresh. -/
def ldgSeen (s : State) (c seq : Nat) : State := (s.put (LDG_CH_LAST_SEQ_VAL c) seq).put (LDG_CH_STATE_FRESH c) 0

/-- An accepted record but for its hold. -/
def ldgNoted (s : State) (c : Nat) (b : List Byte) : State :=
  (if s.fld (LDG_CH_LAST_SEQ_VAL c) + 1 < beNat (slice b 4 4) ∧ s.flag (LDG_CH_STATE_FRESH c) = false then
    (s.ldgTotals c b).ldgGapped c (beNat (slice b 4 4) - s.fld (LDG_CH_LAST_SEQ_VAL c) - 1) else s.ldgTotals c b).ldgSeen c (beNat (slice b 4 4))

theorem ldgAccept_eq (s : State) (c : Nat) (b : List Byte) :
    s.ldgAccept c b = if bitOf (byteAt b 1) 0 then (s.ldgNoted c b).ldgHold c else s.ldgNoted c b := rfl

/-- The registers of a channel's totals. -/
def totalRegs (c : Nat) : List Nat := [rLDG_CH_CHG_MWH_LO c, rLDG_CH_CHG_MWH_HI c, rLDG_CH_DIS_MWH_LO c, rLDG_CH_DIS_MWH_HI c]

theorem ldgTotals_onlyRegs (s : State) (c : Nat) (b : List Byte) : s.OnlyRegs (s.ldgTotals c b) (totalRegs c) :=
  (s.ldgAdd_onlyRegs _ _ _).trans (ldgAdd_onlyRegs _ _ _ _)

theorem ldgTotals_shows (s : State) (c : Nat) (b : List Byte) :
    (s.ldgTotals c b).fld64 (LDG_CH_CHG_MWH_LO_VAL c) (LDG_CH_CHG_MWH_HI_VAL c) =
      min (s.fld64 (LDG_CH_CHG_MWH_LO_VAL c) (LDG_CH_CHG_MWH_HI_VAL c) + beNat (slice b 8 4)) (2 ^ 64 - 1) ∧
    (s.ldgTotals c b).fld64 (LDG_CH_DIS_MWH_LO_VAL c) (LDG_CH_DIS_MWH_HI_VAL c) =
      min (s.fld64 (LDG_CH_DIS_MWH_LO_VAL c) (LDG_CH_DIS_MWH_HI_VAL c) + beNat (slice b 12 4)) (2 ^ 64 - 1) := by
  have hchg : rLDG_CH_CHG_MWH_LO c ≠ rLDG_CH_CHG_MWH_HI c := by simp only [rLDG_CH_CHG_MWH_LO, rLDG_CH_CHG_MWH_HI]; omega
  have hdis : rLDG_CH_DIS_MWH_LO c ≠ rLDG_CH_DIS_MWH_HI c := by simp only [rLDG_CH_DIS_MWH_LO, rLDG_CH_DIS_MWH_HI]; omega
  have hfirst := s.ldgAdd_onlyRegs (LDG_CH_CHG_MWH_LO_VAL c) (LDG_CH_CHG_MWH_HI_VAL c) (beNat (slice b 8 4))
  have hlast := (s.ldgAdd (LDG_CH_CHG_MWH_LO_VAL c) (LDG_CH_CHG_MWH_HI_VAL c) (beNat (slice b 8 4))).ldgAdd_onlyRegs
    (LDG_CH_DIS_MWH_LO_VAL c) (LDG_CH_DIS_MWH_HI_VAL c) (beNat (slice b 12 4))
  have hout {a : Nat} (ha : a = rLDG_CH_CHG_MWH_LO c ∨ a = rLDG_CH_CHG_MWH_HI c) : a ∉ [rLDG_CH_DIS_MWH_LO c, rLDG_CH_DIS_MWH_HI c] := by
    simp only [rLDG_CH_CHG_MWH_LO, rLDG_CH_CHG_MWH_HI, rLDG_CH_DIS_MWH_LO, rLDG_CH_DIS_MWH_HI, List.mem_cons, List.not_mem_nil, or_false] at ha ⊢
    omega
  have hin {a : Nat} (ha : a = rLDG_CH_DIS_MWH_LO c ∨ a = rLDG_CH_DIS_MWH_HI c) : a ∉ [rLDG_CH_CHG_MWH_LO c, rLDG_CH_CHG_MWH_HI c] := by
    simp only [rLDG_CH_CHG_MWH_LO, rLDG_CH_CHG_MWH_HI, rLDG_CH_DIS_MWH_LO, rLDG_CH_DIS_MWH_HI, List.mem_cons, List.not_mem_nil, or_false] at ha ⊢
    omega
  refine ⟨?_, ?_⟩
  · exact (fld64_of_regs (hlast.regs _ (hout (.inl rfl))) (hlast.regs _ (hout (.inr rfl)))).trans (s.ldgAdd_self hchg ⟨rfl, rfl⟩ ⟨rfl, rfl⟩ _)
  · exact (ldgAdd_self _ hdis ⟨rfl, rfl⟩ ⟨rfl, rfl⟩ _).trans (congrArg (fun v => min (v + beNat (slice b 12 4)) (2 ^ 64 - 1))
      (fld64_of_regs (hfirst.regs _ (hin (.inl rfl))) (hfirst.regs _ (hin (.inr rfl)))))


theorem ldgGapped_onlyRegs (s : State) (c n : Nat) : s.OnlyRegs (s.ldgGapped c n) [rLDG_CH_GAP_CNT c, rLDG_CH_STATE c, rLDG_EVT] := by
  have hchan : s.OnlyRegs ((s.put (LDG_CH_GAP_CNT_VAL c) (min (s.fld (LDG_CH_GAP_CNT_VAL c) + n) (2 ^ 32 - 1))).put (LDG_CH_STATE_GAP c) 1)
      [rLDG_CH_GAP_CNT c, rLDG_CH_STATE c] :=
    ((OnlyRegs.refl s _).put _ List.mem_cons_self).put 1 (List.mem_cons_of_mem _ List.mem_cons_self)
  exact hchan.trans (setFlag_onlyRegs _ _)

theorem ldgSeen_onlyRegs (s : State) (c seq : Nat) : s.OnlyRegs (s.ldgSeen c seq) [rLDG_CH_LAST_SEQ c, rLDG_CH_STATE c] :=
  ((OnlyRegs.refl s _).put seq List.mem_cons_self).put 0 (List.mem_cons_of_mem _ List.mem_cons_self)

/-- The registers of a channel beside its totals, and the events. -/
def seenRegs (c : Nat) : List Nat := [rLDG_CH_LAST_SEQ c, rLDG_CH_GAP_CNT c, rLDG_CH_STATE c, rLDG_EVT]

theorem ldgNoted_after_totals (s : State) (c : Nat) (b : List Byte) : (s.ldgTotals c b).OnlyRegs (s.ldgNoted c b) (seenRegs c) := by
  unfold ldgNoted
  split
  · exact ((ldgGapped_onlyRegs _ c _).trans (ldgSeen_onlyRegs _ c _)).mono (by simp [seenRegs])
  · exact (ldgSeen_onlyRegs _ c _).mono (by simp [seenRegs])

theorem ldgNoted_onlyRegs (s : State) (c : Nat) (b : List Byte) : s.OnlyRegs (s.ldgNoted c b) [rLDG_CH_CHG_MWH_LO c, rLDG_CH_CHG_MWH_HI c,
    rLDG_CH_DIS_MWH_LO c, rLDG_CH_DIS_MWH_HI c, rLDG_CH_LAST_SEQ c, rLDG_CH_GAP_CNT c, rLDG_CH_STATE c, rLDG_EVT] :=
  (s.ldgTotals_onlyRegs c b).trans (s.ldgNoted_after_totals c b)

/-- Totals and other registers of a channel are apart. -/
theorem total_notSeen (c : Nat) {a : Nat} (ha : a ∈ totalRegs c) : a ∉ seenRegs c := by
  simp only [totalRegs, seenRegs, rLDG_CH_CHG_MWH_LO, rLDG_CH_CHG_MWH_HI, rLDG_CH_DIS_MWH_LO, rLDG_CH_DIS_MWH_HI, rLDG_CH_LAST_SEQ,
    rLDG_CH_GAP_CNT, rLDG_CH_STATE, rLDG_EVT, List.mem_cons, List.not_mem_nil, or_false] at ha ⊢
  omega

theorem seen_notTotal (c : Nat) {a : Nat} (ha : a ∈ seenRegs c) : a ∉ totalRegs c := fun h => total_notSeen c h ha

theorem ldgSeen_shows (s : State) (c : Nat) {seq : Nat} (h : seq < 2 ^ 32) : (s.ldgSeen c seq).fld (LDG_CH_LAST_SEQ_VAL c) = seq ∧
    (s.ldgSeen c seq).flag (LDG_CH_STATE_FRESH c) = false ∧ (s.ldgSeen c seq).fld (LDG_CH_STATE_GAP c) = s.fld (LDG_CH_STATE_GAP c) ∧
    (s.ldgSeen c seq).fld (LDG_CH_GAP_CNT_VAL c) = s.fld (LDG_CH_GAP_CNT_VAL c) ∧
    (s.ldgSeen c seq).flag LDG_EVT_GAP = s.flag LDG_EVT_GAP := by
  have hseq : rLDG_CH_LAST_SEQ c ≠ rLDG_CH_STATE c := by simp only [rLDG_CH_LAST_SEQ, rLDG_CH_STATE]; omega
  have hcnt : rLDG_CH_GAP_CNT c ∉ [rLDG_CH_LAST_SEQ c, rLDG_CH_STATE c] := by
    simp only [rLDG_CH_LAST_SEQ, rLDG_CH_STATE, rLDG_CH_GAP_CNT, List.mem_cons, List.not_mem_nil, or_false]; omega
  have hevt : rLDG_EVT ∉ [rLDG_CH_LAST_SEQ c, rLDG_CH_STATE c] := by
    simp only [rLDG_CH_LAST_SEQ, rLDG_CH_STATE, rLDG_EVT, List.mem_cons, List.not_mem_nil, or_false]; omega
  refine ⟨?_, ?_, ?_, (s.ldgSeen_onlyRegs c seq).fld hcnt, congrArg (· == 1) ((s.ldgSeen_onlyRegs c seq).fld (f := LDG_EVT_GAP) hevt)⟩
  · exact (fld_put_other 0 hseq).trans ((fld_put_same seq (by decide)).trans (Nat.mod_eq_of_lt h))
  · exact congrArg (· == 1) (fld_put_same 0 (by decide))
  · exact (fld_put_next 0 (by decide) (by decide)).trans (fld_put_other seq hseq.symm)

theorem ldgGapped_shows (s : State) (c n : Nat) :
    (s.ldgGapped c n).fld (LDG_CH_GAP_CNT_VAL c) = min (s.fld (LDG_CH_GAP_CNT_VAL c) + n) (2 ^ 32 - 1) ∧
    (s.ldgGapped c n).fld (LDG_CH_STATE_GAP c) = 1 ∧ (s.ldgGapped c n).flag LDG_EVT_GAP = true := by
  have hcnt : rLDG_CH_GAP_CNT c ≠ rLDG_CH_STATE c ∧ rLDG_CH_GAP_CNT c ≠ rLDG_EVT ∧ rLDG_CH_STATE c ≠ rLDG_EVT := by
    simp only [rLDG_CH_GAP_CNT, rLDG_CH_STATE, rLDG_EVT]; omega
  obtain ⟨h1, h2, h3⟩ := hcnt
  refine ⟨?_, ?_, flag_setFlag_self _ (by decide) rfl⟩
  · exact (fld_put_other 1 h2).trans ((fld_put_other 1 h1).trans ((fld_put_same _ (by decide)).trans (Nat.mod_eq_of_lt (by omega))))
  · exact (fld_put_other 1 h3).trans (fld_put_same 1 (by decide))

/-- What an accepted record shows, its hold apart. -/
structure LdgTaken (s t : State) (c : Nat) (b : List Byte) : Prop where
  charged : t.fld64 (LDG_CH_CHG_MWH_LO_VAL c) (LDG_CH_CHG_MWH_HI_VAL c) =
    min (s.fld64 (LDG_CH_CHG_MWH_LO_VAL c) (LDG_CH_CHG_MWH_HI_VAL c) + beNat (slice b 8 4)) (2 ^ 64 - 1)
  discharged : t.fld64 (LDG_CH_DIS_MWH_LO_VAL c) (LDG_CH_DIS_MWH_HI_VAL c) =
    min (s.fld64 (LDG_CH_DIS_MWH_LO_VAL c) (LDG_CH_DIS_MWH_HI_VAL c) + beNat (slice b 12 4)) (2 ^ 64 - 1)
  seq : t.fld (LDG_CH_LAST_SEQ_VAL c) = beNat (slice b 4 4)
  known : t.flag (LDG_CH_STATE_FRESH c) = false
  gap : s.flag (LDG_CH_STATE_FRESH c) = false → s.fld (LDG_CH_LAST_SEQ_VAL c) + 1 < beNat (slice b 4 4) →
    t.fld (LDG_CH_GAP_CNT_VAL c) = min (s.fld (LDG_CH_GAP_CNT_VAL c) + (beNat (slice b 4 4) - s.fld (LDG_CH_LAST_SEQ_VAL c) - 1)) (2 ^ 32 - 1) ∧
      t.flag (LDG_CH_STATE_GAP c) = true ∧ t.flag LDG_EVT_GAP = true
  noGap : s.flag (LDG_CH_STATE_FRESH c) = true ∨ beNat (slice b 4 4) ≤ s.fld (LDG_CH_LAST_SEQ_VAL c) + 1 →
    t.fld (LDG_CH_GAP_CNT_VAL c) = s.fld (LDG_CH_GAP_CNT_VAL c) ∧ t.fld (LDG_CH_STATE_GAP c) = s.fld (LDG_CH_STATE_GAP c)

theorem ldgNoted_taken (s : State) (c : Nat) (b : List Byte) : s.LdgTaken (s.ldgNoted c b) c b := by
  have htot := s.ldgTotals_onlyRegs c b
  have hseen := s.ldgNoted_after_totals c b
  obtain ⟨hchg, hdis⟩ := s.ldgTotals_shows c b
  have hcnt : (s.ldgTotals c b).fld (LDG_CH_GAP_CNT_VAL c) = s.fld (LDG_CH_GAP_CNT_VAL c) :=
    htot.fld (f := LDG_CH_GAP_CNT_VAL c) (seen_notTotal c (by simp [seenRegs, LDG_CH_GAP_CNT_VAL]))
  have hgap : (s.ldgTotals c b).fld (LDG_CH_STATE_GAP c) = s.fld (LDG_CH_STATE_GAP c) :=
    htot.fld (f := LDG_CH_STATE_GAP c) (seen_notTotal c (by simp [seenRegs, LDG_CH_STATE_GAP]))
  have htotal {a : Nat} (ha : a ∈ totalRegs c) : (s.ldgNoted c b).reg a = (s.ldgTotals c b).reg a := hseen.regs a (total_notSeen c ha)
  have hshows (u : State) := u.ldgSeen_shows c (beNat_slice_lt b 4)
  refine ⟨?_, ?_, (hshows _).1, (hshows _).2.1, fun hf hs => ?_, fun h => ?_⟩
  · exact (fld64_of_regs (htotal (by simp [totalRegs, LDG_CH_CHG_MWH_LO_VAL])) (htotal (by simp [totalRegs, LDG_CH_CHG_MWH_HI_VAL]))).trans hchg
  · exact (fld64_of_regs (htotal (by simp [totalRegs, LDG_CH_DIS_MWH_LO_VAL])) (htotal (by simp [totalRegs, LDG_CH_DIS_MWH_HI_VAL]))).trans hdis
  · obtain ⟨-, -, hg, hc, he⟩ := hshows ((s.ldgTotals c b).ldgGapped c (beNat (slice b 4 4) - s.fld (LDG_CH_LAST_SEQ_VAL c) - 1))
    obtain ⟨hc', hg', he'⟩ := (s.ldgTotals c b).ldgGapped_shows c (beNat (slice b 4 4) - s.fld (LDG_CH_LAST_SEQ_VAL c) - 1)
    rw [ldgNoted, if_pos ⟨hs, hf⟩, hc, hc', hcnt, he, he', flag, hg, hg']
    exact ⟨rfl, rfl, rfl⟩
  · have hnot : ¬ (s.fld (LDG_CH_LAST_SEQ_VAL c) + 1 < beNat (slice b 4 4) ∧ s.flag (LDG_CH_STATE_FRESH c) = false) := by
      rintro ⟨h1, h2⟩
      obtain h | h := h
      · rw [h2] at h; exact Bool.noConfusion h
      · omega
    obtain ⟨-, -, hg, hc, -⟩ := hshows (s.ldgTotals c b)
    rw [ldgNoted, if_neg hnot, hc, hcnt, hg, hgap]
    exact ⟨rfl, rfl⟩

/-! ## Its hold (R429) -/

/-- The fields that the hold of a channel leaves: low registers, and of the channel's state what stands before HOLDING. -/
def holdKeeps (c : Nat) (f : Fld) : Prop := f.addr < 0x1700000 ∧ f.lsb + f.wid ≤ 32 ∧ (f.addr ≠ rLDG_CH_STATE c ∨ f.lsb + f.wid ≤ 2)

theorem LdgTaken.after {b : List Byte} (h : s.LdgTaken t c b) (hc : c < 64) (hk : ∀ f, holdKeeps c f → u.fld f = t.fld f) : s.LdgTaken u c b := by
  have hchan {a : Nat} (ha : a ∈ totalRegs c ++ [rLDG_CH_LAST_SEQ c, rLDG_CH_GAP_CNT c, rLDG_EVT]) : u.fld ⟨a, 0, 32⟩ = t.fld ⟨a, 0, 32⟩ := by
    refine hk _ ⟨?_, (by decide : 0 + 32 ≤ 32), .inl ?_⟩ <;>
    · simp only [totalRegs, rLDG_CH_CHG_MWH_LO, rLDG_CH_CHG_MWH_HI, rLDG_CH_DIS_MWH_LO, rLDG_CH_DIS_MWH_HI, rLDG_CH_LAST_SEQ, rLDG_CH_GAP_CNT,
        rLDG_CH_STATE, rLDG_EVT, List.mem_append, List.mem_cons, List.not_mem_nil, or_false] at ha ⊢
      omega
  have hstate {i : Nat} (hi : i + 1 ≤ 2) : u.fld ⟨rLDG_CH_STATE c, i, 1⟩ = t.fld ⟨rLDG_CH_STATE c, i, 1⟩ :=
    hk _ ⟨by simp only [rLDG_CH_STATE]; omega, by dsimp only; omega, .inr hi⟩
  have hevt : u.fld LDG_EVT_GAP = t.fld LDG_EVT_GAP :=
    hk _ ⟨by decide, by decide, .inl (by simp only [LDG_EVT_GAP, rLDG_EVT, rLDG_CH_STATE]; omega)⟩
  have hpair {lo hi : Nat} (hl : lo ∈ totalRegs c) (hh : hi ∈ totalRegs c) : u.fld64 ⟨lo, 0, 32⟩ ⟨hi, 0, 32⟩ = t.fld64 ⟨lo, 0, 32⟩ ⟨hi, 0, 32⟩ := by
    rw [fld64, fld64, hchan (List.mem_append_left _ hl), hchan (List.mem_append_left _ hh)]
  have hseq : u.fld (LDG_CH_LAST_SEQ_VAL c) = t.fld (LDG_CH_LAST_SEQ_VAL c) := hchan (by simp [totalRegs])
  have hcnt : u.fld (LDG_CH_GAP_CNT_VAL c) = t.fld (LDG_CH_GAP_CNT_VAL c) := hchan (by simp [totalRegs])
  have hfresh : u.fld (LDG_CH_STATE_FRESH c) = t.fld (LDG_CH_STATE_FRESH c) := hstate (by decide)
  have hgap : u.fld (LDG_CH_STATE_GAP c) = t.fld (LDG_CH_STATE_GAP c) := hstate (by decide)
  refine ⟨(hpair ?_ ?_).trans h.charged, (hpair ?_ ?_).trans h.discharged, hseq.trans h.seq, (congrArg (· == 1) hfresh).trans h.known,
    fun hf hs => ?_, fun hn => ?_⟩
  · simp [totalRegs]
  · simp [totalRegs]
  · simp [totalRegs]
  · simp [totalRegs]
  · obtain ⟨h1, h2, h3⟩ := h.gap hf hs
    exact ⟨hcnt.trans h1, (congrArg (· == 1) hgap).trans h2, (congrArg (· == 1) hevt).trans h3⟩
  · obtain ⟨h1, h2⟩ := h.noGap hn
    exact ⟨hcnt.trans h1, hgap.trans h2⟩

/-- A hold noted, before its cluster is requested. -/
def holdNoted (s : State) (c : Nat) : State := ({ s with ldgAt := tabSet 0 s.ldgAt c s.ao } : State).put (LDG_CH_STATE_HOLDING c) 1

theorem ldgHold_eq (s : State) (c : Nat) :
    s.ldgHold c = if ldgChan s.active c 3 1 < 16 then (s.holdNoted c).nmLedger (ldgChan s.active c 3 1) true else s.holdNoted c := rfl

theorem holdNoted_ldgAt (s : State) (c : Nat) : (s.holdNoted c).ldgAt = tabSet 0 s.ldgAt c s.ao := rfl
theorem holdNoted_ldgQ (s : State) (c : Nat) : (s.holdNoted c).ldgQ = s.ldgQ := rfl

theorem holdNoted_fld (s : State) {f : Fld} (hf : holdKeeps c f) : (s.holdNoted c).fld f = s.fld f := by
  obtain ⟨-, h32, happart⟩ := hf
  have hput : apart (LDG_CH_STATE_HOLDING c) f := by
    obtain h | h := happart
    · exact .inl h
    · exact .inr (.inr h)
  exact fld_put_apart _ 1 h32 hput

theorem holdNoted_holds (s : State) (c : Nat) : (s.holdNoted c).flag (LDG_CH_STATE_HOLDING c) = true :=
  flag_setFlag_self _ (by decide : 2 + 1 ≤ 32) rfl


/-- What a request of the ledger leaves beside its own bit. -/
theorem nmLedger_low (s : State) {n : Nat} (hn : n < 16) (hold : Bool) {a : Nat} (ha : a < 0x1700000) : (s.nmLedger n hold).reg a = s.reg a := by
  refine ((s.nmLedger_shows hn hold).2.beside a (.inl ha)).trans (reg_put_ne s _ _ ?_)
  simp only [NMW_NC_REQ_LEDGER, rNMW_NC_REQ]
  omega

theorem WakeFrame.ldgQ {n : Nat} (h : WakeFrame n s t) : t.ldgQ = s.ldgQ := (congrArg State.ldgQ h.rest :)
theorem WakeFrame.ldgAt {n : Nat} (h : WakeFrame n s t) : t.ldgAt = s.ldgAt := (congrArg State.ldgAt h.rest :)

theorem nmLedger_ldgQ (s : State) {n : Nat} (hn : n < 16) (hold : Bool) : (s.nmLedger n hold).ldgQ = s.ldgQ := (s.nmLedger_shows hn hold).2.ldgQ
theorem nmLedger_ldgAt (s : State) {n : Nat} (hn : n < 16) (hold : Bool) : (s.nmLedger n hold).ldgAt = s.ldgAt := (s.nmLedger_shows hn hold).2.ldgAt

theorem ldgHold_shows (s : State) (hc : c < 64) : (∀ f, holdKeeps c f → (s.ldgHold c).fld f = s.fld f) ∧ (s.ldgHold c).ldgQ = s.ldgQ ∧
    (s.ldgHold c).flag (LDG_CH_STATE_HOLDING c) = true ∧ tabGet 0 (s.ldgHold c).ldgAt c = s.ao ∧
    (ldgChan s.active c 3 1 < 16 → (s.ldgHold c).flag (NMW_NC_REQ_LEDGER (ldgChan s.active c 3 1)) = true) := by
  have hat : tabGet 0 (s.holdNoted c).ldgAt c = s.ao := by rw [holdNoted_ldgAt, tabGet_tabSet_self]
  by_cases hcl : ldgChan s.active c 3 1 < 16
  · have heq : s.ldgHold c = (s.holdNoted c).nmLedger (ldgChan s.active c 3 1) true := (s.ldgHold_eq c).trans (if_pos hcl)
    have hstate : rLDG_CH_STATE c < 0x1700000 := by simp only [rLDG_CH_STATE]; omega
    rw [heq, nmLedger_ldgQ _ hcl, nmLedger_ldgAt _ hcl, hat]
    refine ⟨fun f hf => (fld_of_reg (nmLedger_low _ hcl true hf.1)).trans (s.holdNoted_fld hf), rfl, ?_, rfl,
      fun _ => ((s.holdNoted c).nmLedger_shows hcl true).1⟩
    exact (congrArg (· == 1) (fld_of_reg (f := LDG_CH_STATE_HOLDING c) (nmLedger_low _ hcl true hstate))).trans (s.holdNoted_holds c)
  · have heq : s.ldgHold c = s.holdNoted c := (s.ldgHold_eq c).trans (if_neg hcl)
    rw [heq, hat]
    exact ⟨fun f hf => s.holdNoted_fld hf, rfl, s.holdNoted_holds c, rfl, fun h => absurd h hcl⟩

/-- What an accepted record does. -/
theorem ldgAccept_shows (s : State) (hc : c < 64) (b : List Byte) : s.LdgTaken (s.ldgAccept c b) c b ∧ (s.ldgAccept c b).ldgQ = s.ldgQ ∧
    (bitOf (byteAt b 1) 0 = true → (s.ldgAccept c b).flag (LDG_CH_STATE_HOLDING c) = true ∧ tabGet 0 (s.ldgAccept c b).ldgAt c = s.ao ∧
      (ldgChan s.active c 3 1 < 16 → (s.ldgAccept c b).flag (NMW_NC_REQ_LEDGER (ldgChan s.active c 3 1)) = true)) ∧
    (bitOf (byteAt b 1) 0 = false → s.ldgAccept c b = s.ldgNoted c b) := by
  have honly := s.ldgNoted_onlyRegs c b
  have hq : (s.ldgNoted c b).ldgQ = s.ldgQ := honly.same (f := State.ldgQ) fun _ _ => rfl
  have hao : (s.ldgNoted c b).ao = s.ao := honly.same (f := State.ao) fun _ _ => rfl
  have hact : (s.ldgNoted c b).active = s.active := honly.same (f := State.active) fun _ _ => rfl
  have htaken := s.ldgNoted_taken c b
  rw [ldgAccept_eq]
  cases hb : bitOf (byteAt b 1) 0 with
  | true =>
    rw [if_pos rfl]
    obtain ⟨hkeeps, hq', hholds, hat, hreq⟩ := (s.ldgNoted c b).ldgHold_shows hc
    rw [hao] at hat
    rw [hact] at hreq
    exact ⟨htaken.after hc hkeeps, hq'.trans hq, fun _ => ⟨hholds, hat, hreq⟩, fun h => Bool.noConfusion h⟩
  | false =>
    rw [if_neg Bool.false_ne_true]
    exact ⟨htaken, hq, fun h => Bool.noConfusion h, fun _ => rfl⟩

/-! ## The end of a hold -/

/-- The hold ended, before its cluster is released. -/
def unholdNoted (s : State) (c : Nat) : State := s.put (LDG_CH_STATE_HOLDING c) 0

/-- Another channel of the cluster holds. -/
def otherHolds (s : State) (c : Nat) : Bool :=
  (List.range 64).any fun k => s.ldgOn k && ldgChan s.active k 3 1 == ldgChan s.active c 3 1 && (s.unholdNoted c).flag (LDG_CH_STATE_HOLDING k)

theorem ldgUnhold_eq (s : State) (c : Nat) : s.ldgUnhold c = if ldgChan s.active c 3 1 < 16 ∧ s.otherHolds c = false then
    (s.unholdNoted c).nmLedger (ldgChan s.active c 3 1) false else s.unholdNoted c := rfl

theorem unholdNoted_clear (s : State) (c : Nat) : (s.unholdNoted c).flag (LDG_CH_STATE_HOLDING c) = false :=
  flag_clear_self s (by decide : 2 + 1 ≤ 32) rfl

theorem otherHolds_false (h : ∀ d, d < 64 → d ≠ c → s.ldgOn d = true → ldgChan s.active d 3 1 = ldgChan s.active c 3 1 →
    s.flag (LDG_CH_STATE_HOLDING d) = false) : s.otherHolds c = false := by
  rw [otherHolds, List.any_eq_false]
  intro d hd
  have hd64 : d < 64 := List.mem_range.mp hd
  by_cases hdc : d = c
  · subst hdc
    rw [unholdNoted_clear]
    simp
  · have hkept : (s.unholdNoted c).flag (LDG_CH_STATE_HOLDING d) = s.flag (LDG_CH_STATE_HOLDING d) :=
      flag_put_addr s 0 (by simp only [LDG_CH_STATE_HOLDING, rLDG_CH_STATE]; omega)
    rw [hkept]
    by_cases hon : s.ldgOn d = true ∧ ldgChan s.active d 3 1 = ldgChan s.active c 3 1
    · rw [h d hd64 hdc hon.1 hon.2]
      simp
    · simp only [not_and] at hon
      simp only [Bool.and_eq_true, beq_iff_eq, not_and]
      exact fun h12 => absurd h12.2 (hon h12.1)

theorem ldgUnhold_shows (s : State) (hc : c < 64) : (s.ldgUnhold c).flag (LDG_CH_STATE_HOLDING c) = false ∧
    (ldgChan s.active c 3 1 < 16 → (∀ d, d < 64 → d ≠ c → s.ldgOn d = true → ldgChan s.active d 3 1 = ldgChan s.active c 3 1 →
      s.flag (LDG_CH_STATE_HOLDING d) = false) → (s.ldgUnhold c).flag (NMW_NC_REQ_LEDGER (ldgChan s.active c 3 1)) = false) ∧
    (16 ≤ ldgChan s.active c 3 1 → s.OnlyRegs (s.ldgUnhold c) [rLDG_CH_STATE c]) := by
  refine ⟨?_, fun hcl h => ?_, fun hcl => ?_⟩
  · have hstate : rLDG_CH_STATE c < 0x1700000 := by simp only [rLDG_CH_STATE]; omega
    rw [ldgUnhold_eq]
    split
    · next h =>
      exact (congrArg (· == 1) (fld_of_reg (f := LDG_CH_STATE_HOLDING c) (nmLedger_low _ h.1 false hstate))).trans (s.unholdNoted_clear c)
    · exact s.unholdNoted_clear c
  · rw [ldgUnhold_eq, if_pos ⟨hcl, otherHolds_false h⟩]
    exact ((s.unholdNoted c).nmLedger_shows hcl false).1
  · rw [ldgUnhold_eq, if_neg (by omega)]
    exact (OnlyRegs.refl s _).put 0 List.mem_cons_self

theorem ldgFind_lt {p m : Nat} (h : s.ldgFind p m = some c) : c < 64 := List.mem_range.mp (List.mem_of_find?_eq_some h)


theorem LdgTaken.of_popped {b : List Byte} (h : (s.ldgPopped q).LdgTaken t c b) : s.LdgTaken t c b :=
  ⟨h.charged, h.discharged, h.seq, h.known, h.gap, h.noGap⟩

/-! ## A metering record by its check -/

section
variable (hq : s.ldgQ = x :: q) {b : List Byte} (hb : b = x.bytes)
include hq

theorem meteringRecord_notReady (hr : s.flag LDG_FLAGS_READY = false) : ∃ t, exec .meteringRecord s = .next t ∧ t.ldgQ = q ∧
    t.fld LDG_NOT_READY_CNT_VAL = (s.fld LDG_NOT_READY_CNT_VAL + 1) % 2 ^ 32 ∧ { t with regs := s.regs, ldgQ := s.ldgQ } = s ∧
    s.RegsBut t [rLDG_NOT_READY_CNT] := by
  have honly := (s.ldgPopped q).inc_onlyRegs LDG_NOT_READY_CNT_VAL
  refine ⟨(s.ldgPopped q).inc LDG_NOT_READY_CNT_VAL, ?_, ldgQ_of_onlyRegs honly, fld_inc_self _ (by decide), popped_rest honly, popped_regs honly⟩
  rw [exec_meteringRecord hq, ldgCheck_notReady (s := s.ldgPopped q) hr]

include hb

theorem meteringRecord_unknown (hr : s.flag LDG_FLAGS_READY = true) (hf : byteAt b 0 ≠ 1 ∨ s.ldgFind x.port (be16 b 2) = none) :
    ∃ t, exec .meteringRecord s = .next t ∧ t.ldgQ = q ∧ t.fld LDG_UNKNOWN_CNT_VAL = (s.fld LDG_UNKNOWN_CNT_VAL + 1) % 2 ^ 32 ∧
      { t with regs := s.regs, ldgQ := s.ldgQ } = s ∧ s.RegsBut t [rLDG_UNKNOWN_CNT] := by
  have honly := (s.ldgPopped q).inc_onlyRegs LDG_UNKNOWN_CNT_VAL
  refine ⟨(s.ldgPopped q).inc LDG_UNKNOWN_CNT_VAL, ?_, ldgQ_of_onlyRegs honly, fld_inc_self _ (by decide), popped_rest honly, popped_regs honly⟩
  rw [exec_meteringRecord hq, ldgCheck_unknown (s := s.ldgPopped q) hr (hb ▸ hf)]

variable (hr : s.flag LDG_FLAGS_READY = true) (hv : byteAt b 0 = 1) (hf : s.ldgFind x.port (be16 b 2) = some c)
include hr hv hf

theorem meteringRecord_noKey (hk : s.ldgKey c = none) : ∃ t, exec .meteringRecord s = .next t ∧ t.ldgQ = q ∧
    t.fld LDG_NO_KEY_CNT_VAL = (s.fld LDG_NO_KEY_CNT_VAL + 1) % 2 ^ 32 ∧ { t with regs := s.regs, ldgQ := s.ldgQ } = s ∧
    s.RegsBut t [rLDG_NO_KEY_CNT, rBLF_ORPHAN_USE_CNT] ∧
    (s.keyLoad ownFIRMWARE (ldgChan s.active c 6 2) ≠ .error 5 → s.RegsBut t [rLDG_NO_KEY_CNT]) := by
  subst hb
  have hnote := (s.ldgPopped q).noteOrphan_onlyRegs ownFIRMWARE (ldgChan s.active c 6 2)
  have hcount := ((s.ldgPopped q).noteOrphan ownFIRMWARE (ldgChan s.active c 6 2)).inc_onlyRegs LDG_NO_KEY_CNT_VAL
  have honly := hnote.trans hcount
  refine ⟨((s.ldgPopped q).noteOrphan ownFIRMWARE (ldgChan s.active c 6 2)).inc LDG_NO_KEY_CNT_VAL, ?_, ldgQ_of_onlyRegs honly, ?_,
    popped_rest honly, fun a ha => popped_regs honly a ?_, fun hload => ?_⟩
  · rw [exec_meteringRecord hq, ldgCheck_noKey (s := s.ldgPopped q) hr hv hf ((ldgPopped_key s q c).trans hk)]
    rfl
  · rw [fld_inc_self _ (by decide), hnote.fld (f := LDG_NO_KEY_CNT_VAL) (by decide)]
    rfl
  · exact fun hm => ha (List.mem_reverse.mp hm)
  · rw [noteOrphan_same _ _ (by rw [ldgPopped_keyLoad]; exact hload)]
    exact popped_regs (inc_onlyRegs _ _)

theorem meteringRecord_badTag (hk : s.ldgKey c = some k) (ht : slice b 24 8 ≠ (cmac k (b.take 24)).take 8) :
    ∃ t, exec .meteringRecord s = .next t ∧ t.ldgQ = q ∧
      t.fld (LDG_CH_AUTH_FAIL_VAL c) = min (s.fld (LDG_CH_AUTH_FAIL_VAL c) + 1) (2 ^ 32 - 1) ∧ t.flag LDG_EVT_AUTH_FAIL = true ∧
      { t with regs := s.regs, ldgQ := s.ldgQ } = s ∧ s.RegsBut t [rLDG_CH_AUTH_FAIL c, rLDG_EVT] := by
  subst hb
  have honly := ((s.ldgPopped q).incSat_onlyRegs (LDG_CH_AUTH_FAIL_VAL c)).trans (setFlag_onlyRegs _ LDG_EVT_AUTH_FAIL)
  have hne : rLDG_CH_AUTH_FAIL c ≠ rLDG_EVT := by simp only [rLDG_CH_AUTH_FAIL, rLDG_EVT]; omega
  refine ⟨((s.ldgPopped q).incSat (LDG_CH_AUTH_FAIL_VAL c)).setFlag LDG_EVT_AUTH_FAIL, ?_, ldgQ_of_onlyRegs honly, ?_,
    flag_setFlag_self _ (by decide) rfl, popped_rest honly, popped_regs honly⟩
  · rw [exec_meteringRecord hq, ldgCheck_badTag (s := s.ldgPopped q) hr hv hf ((ldgPopped_key s q c).trans hk) ht]
  · exact (fld_put_other 1 hne).trans (fld_incSat_self _ (by decide : 0 + 32 ≤ 32))

variable (hk : s.ldgKey c = some k) (ht : slice b 24 8 = (cmac k (b.take 24)).take 8)
include hk ht

theorem meteringRecord_replay (hfr : s.flag (LDG_CH_STATE_FRESH c) = false) (hs : beNat (slice b 4 4) ≤ s.fld (LDG_CH_LAST_SEQ_VAL c)) :
    ∃ t, exec .meteringRecord s = .next t ∧ t.ldgQ = q ∧
      t.fld (LDG_CH_REPLAY_VAL c) = min (s.fld (LDG_CH_REPLAY_VAL c) + 1) (2 ^ 32 - 1) ∧
      { t with regs := s.regs, ldgQ := s.ldgQ } = s ∧ s.RegsBut t [rLDG_CH_REPLAY c] := by
  subst hb
  have honly := (s.ldgPopped q).incSat_onlyRegs (LDG_CH_REPLAY_VAL c)
  refine ⟨(s.ldgPopped q).incSat (LDG_CH_REPLAY_VAL c), ?_, ldgQ_of_onlyRegs honly, fld_incSat_self _ (by decide : 0 + 32 ≤ 32),
    popped_rest honly, popped_regs honly⟩
  rw [exec_meteringRecord hq, ldgCheck_replay (s := s.ldgPopped q) hr hv hf ((ldgPopped_key s q c).trans hk) ht hfr hs]

theorem meteringRecord_accepts (hs : s.flag (LDG_CH_STATE_FRESH c) = true ∨ s.fld (LDG_CH_LAST_SEQ_VAL c) < beNat (slice b 4 4)) :
    ∃ t, exec .meteringRecord s = .next t ∧ t.ldgQ = q ∧ s.LdgTaken t c b ∧
      (bitOf (byteAt b 1) 0 = true → t.flag (LDG_CH_STATE_HOLDING c) = true ∧ tabGet 0 t.ldgAt c = s.ao ∧
        (ldgChan s.active c 3 1 < 16 → t.flag (NMW_NC_REQ_LEDGER (ldgChan s.active c 3 1)) = true)) ∧
      (bitOf (byteAt b 1) 0 = false → { t with regs := s.regs, ldgQ := s.ldgQ } = s ∧
        s.RegsBut t [rLDG_CH_CHG_MWH_LO c, rLDG_CH_CHG_MWH_HI c, rLDG_CH_DIS_MWH_LO c, rLDG_CH_DIS_MWH_HI c,
          rLDG_CH_LAST_SEQ c, rLDG_CH_GAP_CNT c, rLDG_CH_STATE c, rLDG_EVT]) := by
  subst hb
  obtain ⟨htaken, hq', hact, hidle⟩ := (s.ldgPopped q).ldgAccept_shows (ldgFind_lt hf) x.bytes
  refine ⟨(s.ldgPopped q).ldgAccept c x.bytes, ?_, hq', htaken.of_popped, hact, fun h => ?_⟩
  · rw [exec_meteringRecord hq, ldgCheck_accepts (s := s.ldgPopped q) hr hv hf ((ldgPopped_key s q c).trans hk) ht hs]
  · have honly := (s.ldgPopped q).ldgNoted_onlyRegs c x.bytes
    rw [hidle h]
    exact ⟨popped_rest honly, popped_regs honly⟩

end

end
end State
end Sys2Proof.Machine
end

section
/-! SUPPORT. The ledger's channels made fresh and loaded, its checkpoint, and how its commands end (R430 to R432). -/

namespace Sys2Proof.Machine

theorem apart_comm {f g : Fld} (h : State.apart f g) : State.apart g f := by
  obtain h | h | h := h
  · exact .inl h.symm
  · exact .inr (.inr h)
  · exact .inr (.inl h)

namespace State

section
variable {s t u : State} {c d : Nat} {as : List Nat}

/-! ## Values written one after another -/

def puts (s : State) (l : List (Fld × Nat)) : State := l.foldl (fun t e => t.put e.1 e.2) s

theorem fld_puts_apart {l : List (Fld × Nat)} {f : Fld} (hf : f.lsb + f.wid ≤ 32) (h : ∀ e ∈ l, apart e.1 f) (s : State) :
    (s.puts l).fld f = s.fld f := by
  induction l generalizing s with
  | nil => rfl
  | cons e l ih => exact (ih (fun e' he => h e' (List.mem_cons_of_mem _ he)) _).trans (fld_put_apart s _ hf (h e List.mem_cons_self))

/-- A field of several that are apart holds what was written to it. -/
theorem fld_puts {l : List (Fld × Nat)} (hp : l.Pairwise fun a b => apart a.1 b.1) {f : Fld} {v : Nat} (hf : f.lsb + f.wid ≤ 32)
    (h : (f, v) ∈ l) (s : State) : (s.puts l).fld f = v % 2 ^ f.wid := by
  induction l generalizing s with
  | nil => exact absurd h List.not_mem_nil
  | cons e l ih =>
    obtain ⟨hhead, htail⟩ := List.pairwise_cons.mp hp
    obtain rfl | h := List.mem_cons.mp h
    · exact (fld_puts_apart hf (fun e he => apart_comm (hhead e he)) _).trans (fld_put_self s f v hf)
    · exact ih htail h _

theorem puts_onlyRegs {l : List (Fld × Nat)} (h : ∀ e ∈ l, e.1.addr ∈ as) (s : State) : s.OnlyRegs (s.puts l) as := by
  induction l generalizing s with
  | nil => exact .refl s as
  | cons e l ih =>
    have hput : s.OnlyRegs (s.put e.1 e.2) as := (OnlyRegs.refl s as).put _ (h e List.mem_cons_self)
    exact (hput.trans (ih (fun e' he => h e' (List.mem_cons_of_mem _ he)) _)).mono (by simp)

/-! ## The channels, one by one -/

/-- The registers of a channel that commands write. -/
def chanRegs (c : Nat) : List Nat := [rLDG_CH_CHG_MWH_LO c, rLDG_CH_CHG_MWH_HI c, rLDG_CH_DIS_MWH_LO c, rLDG_CH_DIS_MWH_HI c,
  rLDG_CH_LAST_SEQ c, rLDG_CH_GAP_CNT c, rLDG_CH_AUTH_FAIL c, rLDG_CH_REPLAY c, rLDG_CH_STATE c]

theorem chanRegs_range {a : Nat} (h : a ∈ chanRegs c) : 0x1201000 + 0x40 * c ≤ a ∧ a < 0x1201040 + 0x40 * c := by
  simp only [chanRegs, rLDG_CH_CHG_MWH_LO, rLDG_CH_CHG_MWH_HI, rLDG_CH_DIS_MWH_LO, rLDG_CH_DIS_MWH_HI, rLDG_CH_LAST_SEQ, rLDG_CH_GAP_CNT,
    rLDG_CH_AUTH_FAIL, rLDG_CH_REPLAY, rLDG_CH_STATE, List.mem_cons, List.not_mem_nil, or_false] at h
  omega

theorem chanRegs_apart {a : Nat} (h : a ∈ chanRegs c) (hd : c ≠ d) : a ∉ chanRegs d := fun hm => by
  have h1 := chanRegs_range h
  have h2 := chanRegs_range hm
  omega

/-- Channels changed one by one: what one of them is then depends on its own change alone. -/
theorem chans_reg {f : State → Nat → State} (hf : ∀ (s : State) (d : Nat), s.OnlyRegs (f s d) (chanRegs d)) (hc : c < 64) (s : State) :
    ∃ t, ∀ a ∈ chanRegs c, ((List.range 64).foldl f s).reg a = (f t c).reg a ∧ t.reg a = s.reg a := by
  obtain ⟨l1, l2, h1, h2, -, -, hfold⟩ := foldl_once (f := f) List.nodup_range (List.mem_range.mpr hc) s
  refine ⟨l1.foldl f s, fun a ha => ⟨?_, ?_⟩⟩
  · rw [hfold]
    exact foldl_same (fun t => t.reg a) (fun t d hd => (hf t d).regs a (chanRegs_apart ha fun e => h2 (e ▸ hd))) _
  · exact foldl_same (fun t => t.reg a) (fun t d hd => (hf t d).regs a (chanRegs_apart ha fun e => h1 (e ▸ hd))) s

theorem chans_other {f : State → Nat → State} (hf : ∀ (s : State) (d : Nat), s.OnlyRegs (f s d) (chanRegs d)) {l : List Nat} (hl : ∀ d ∈ l, d < 64) {a : Nat}
    (ha : a < 0x1201000 ∨ 0x1202000 ≤ a) (s : State) : (l.foldl f s).reg a = s.reg a :=
  foldl_same (fun t => t.reg a) (fun t d hd => (hf t d).regs a fun hm => by
    have hrange := chanRegs_range hm
    have hd64 := hl d hd
    omega) s

theorem chans_rest {f : State → Nat → State} (hf : ∀ (s : State) (d : Nat), s.OnlyRegs (f s d) (chanRegs d)) (l : List Nat) (s : State) :
    { l.foldl f s with regs := s.regs } = s :=
  foldl_relates (R := fun s t => { t with regs := s.regs } = s) (fun _ => rfl) rest_trans (fun s d _ => (hf s d).rest) s

theorem fld64_of_flds {lo hi : Fld} (hl : t.fld lo = s.fld lo) (hh : t.fld hi = s.fld hi) : t.fld64 lo hi = s.fld64 lo hi := by
  rw [fld64, fld64, hl, hh]

/-! ## A channel made fresh -/

def freshWrites (c : Nat) : List (Fld × Nat) := [(LDG_CH_CHG_MWH_LO_VAL c, 0), (LDG_CH_CHG_MWH_HI_VAL c, 0 / 2 ^ 32),
  (LDG_CH_DIS_MWH_LO_VAL c, 0), (LDG_CH_DIS_MWH_HI_VAL c, 0 / 2 ^ 32), (LDG_CH_LAST_SEQ_VAL c, 0), (LDG_CH_GAP_CNT_VAL c, 0),
  (LDG_CH_AUTH_FAIL_VAL c, 0), (LDG_CH_REPLAY_VAL c, 0), (LDG_CH_STATE_GAP c, 0), (LDG_CH_STATE_FRESH c, 1)]

theorem ldgFresh_eq (s : State) (c : Nat) : s.ldgFresh c = s.puts (freshWrites c) := rfl

theorem freshWrites_apart (c : Nat) : (freshWrites c).Pairwise fun a b => apart a.1 b.1 := by
  simp [freshWrites, apart, LDG_CH_CHG_MWH_LO_VAL, LDG_CH_CHG_MWH_HI_VAL, LDG_CH_DIS_MWH_LO_VAL, LDG_CH_DIS_MWH_HI_VAL, LDG_CH_LAST_SEQ_VAL,
    LDG_CH_GAP_CNT_VAL, LDG_CH_AUTH_FAIL_VAL, LDG_CH_REPLAY_VAL, LDG_CH_STATE_GAP, LDG_CH_STATE_FRESH, rLDG_CH_CHG_MWH_LO,
    rLDG_CH_CHG_MWH_HI, rLDG_CH_DIS_MWH_LO, rLDG_CH_DIS_MWH_HI, rLDG_CH_LAST_SEQ, rLDG_CH_GAP_CNT, rLDG_CH_AUTH_FAIL, rLDG_CH_REPLAY,
    rLDG_CH_STATE]


theorem ldgFresh_onlyRegs (s : State) (c : Nat) : s.OnlyRegs (s.ldgFresh c) (chanRegs c) := by
  rw [ldgFresh_eq]
  exact puts_onlyRegs (by simp [freshWrites, chanRegs, LDG_CH_CHG_MWH_LO_VAL, LDG_CH_CHG_MWH_HI_VAL, LDG_CH_DIS_MWH_LO_VAL,
    LDG_CH_DIS_MWH_HI_VAL, LDG_CH_LAST_SEQ_VAL, LDG_CH_GAP_CNT_VAL, LDG_CH_AUTH_FAIL_VAL, LDG_CH_REPLAY_VAL, LDG_CH_STATE_GAP,
    LDG_CH_STATE_FRESH]) s

theorem ldgFresh_fld (s : State) {c : Nat} {f : Fld} {v : Nat} (hf : f.lsb + f.wid ≤ 32) (h : (f, v) ∈ freshWrites c) :
    (s.ldgFresh c).fld f = v % 2 ^ f.wid := by
  rw [ldgFresh_eq]
  exact fld_puts (freshWrites_apart c) hf h s

theorem ldgFresh_holding (s : State) (c : Nat) : (s.ldgFresh c).fld (LDG_CH_STATE_HOLDING c) = s.fld (LDG_CH_STATE_HOLDING c) := by
  rw [ldgFresh_eq]
  refine fld_puts_apart (by decide : 2 + 1 ≤ 32) ?_ s
  simp [freshWrites, apart, LDG_CH_CHG_MWH_LO_VAL, LDG_CH_CHG_MWH_HI_VAL, LDG_CH_DIS_MWH_LO_VAL, LDG_CH_DIS_MWH_HI_VAL, LDG_CH_LAST_SEQ_VAL,
    LDG_CH_GAP_CNT_VAL, LDG_CH_AUTH_FAIL_VAL, LDG_CH_REPLAY_VAL, LDG_CH_STATE_GAP, LDG_CH_STATE_FRESH, rLDG_CH_CHG_MWH_LO,
    rLDG_CH_CHG_MWH_HI, rLDG_CH_DIS_MWH_LO, rLDG_CH_DIS_MWH_HI, rLDG_CH_LAST_SEQ, rLDG_CH_GAP_CNT, rLDG_CH_AUTH_FAIL, rLDG_CH_REPLAY,
    rLDG_CH_STATE, LDG_CH_STATE_HOLDING]

/-- What a fresh channel shows. -/
structure LdgFreshed (s t : State) (c : Nat) : Prop where
  fresh : t.flag (LDG_CH_STATE_FRESH c) = true
  gap : t.flag (LDG_CH_STATE_GAP c) = false
  charged : t.fld64 (LDG_CH_CHG_MWH_LO_VAL c) (LDG_CH_CHG_MWH_HI_VAL c) = 0
  discharged : t.fld64 (LDG_CH_DIS_MWH_LO_VAL c) (LDG_CH_DIS_MWH_HI_VAL c) = 0
  seq : t.fld (LDG_CH_LAST_SEQ_VAL c) = 0
  gaps : t.fld (LDG_CH_GAP_CNT_VAL c) = 0
  authFails : t.fld (LDG_CH_AUTH_FAIL_VAL c) = 0
  replays : t.fld (LDG_CH_REPLAY_VAL c) = 0
  holding : t.fld (LDG_CH_STATE_HOLDING c) = s.fld (LDG_CH_STATE_HOLDING c)

theorem allFresh_channel (s : State) (hc : c < 64) {v : State} (hv : ∀ a ∈ chanRegs c, v.reg a = ((List.range 64).foldl State.ldgFresh s).reg a) :
    s.LdgFreshed v c := by
  obtain ⟨t, ht⟩ := chans_reg ldgFresh_onlyRegs hc s
  have hfld {f : Fld} (ha : f.addr ∈ chanRegs c) : v.fld f = (t.ldgFresh c).fld f := fld_of_reg ((hv _ ha).trans (ht _ ha).1)
  have hval {f : Fld} {x : Nat} (hf : f.lsb + f.wid ≤ 32) (h : (f, x) ∈ freshWrites c) (ha : f.addr ∈ chanRegs c) :
      v.fld f = x % 2 ^ f.wid := (hfld ha).trans (t.ldgFresh_fld hf h)
  have hword {a : Nat} (h : (⟨a, 0, 32⟩, 0) ∈ freshWrites c) (ha : a ∈ chanRegs c) : v.fld ⟨a, 0, 32⟩ = 0 :=
    (hval (by dsimp only; omega) h ha).trans (Nat.zero_mod _)
  have hpair {lo hi : Nat} (hl : v.fld ⟨lo, 0, 32⟩ = 0) (hh : v.fld ⟨hi, 0, 32⟩ = 0) : v.fld64 ⟨lo, 0, 32⟩ ⟨hi, 0, 32⟩ = 0 := by
    rw [fld64, hl, hh, Nat.mul_zero]
  have hstate : rLDG_CH_STATE c ∈ chanRegs c := by simp [chanRegs]
  exact {
    fresh := congrArg (· == 1) (hval (f := LDG_CH_STATE_FRESH c) (x := 1) (by decide : 0 + 1 ≤ 32) (by simp [freshWrites]) hstate)
    gap := congrArg (· == 1) (hval (f := LDG_CH_STATE_GAP c) (x := 0) (by decide : 1 + 1 ≤ 32) (by simp [freshWrites]) hstate)
    charged := hpair (hword (.head _) (.head _)) (hword (.tail _ (.head _)) (.tail _ (.head _)))
    discharged := hpair (hword (.tail _ (.tail _ (.head _))) (.tail _ (.tail _ (.head _))))
      (hword (.tail _ (.tail _ (.tail _ (.head _)))) (.tail _ (.tail _ (.tail _ (.head _)))))
    seq := hword (a := rLDG_CH_LAST_SEQ c) (by simp [freshWrites, LDG_CH_LAST_SEQ_VAL]) (by simp [chanRegs])
    gaps := hword (a := rLDG_CH_GAP_CNT c) (by simp [freshWrites, LDG_CH_GAP_CNT_VAL]) (by simp [chanRegs])
    authFails := hword (a := rLDG_CH_AUTH_FAIL c) (by simp [freshWrites, LDG_CH_AUTH_FAIL_VAL]) (by simp [chanRegs])
    replays := hword (a := rLDG_CH_REPLAY c) (by simp [freshWrites, LDG_CH_REPLAY_VAL]) (by simp [chanRegs])
    holding := (hfld hstate).trans ((t.ldgFresh_holding c).trans (fld_of_reg (ht _ hstate).2)) }

end
end State
end Sys2Proof.Machine
end

section
/-! SUPPORT. The ledger's channels loaded from a checkpoint (R431). -/

namespace Sys2Proof.Machine

namespace State

section
variable {s t u : State} {c d : Nat}

def loadWrites (c : Nat) (e : List Byte) : List (Fld × Nat) :=
  [(LDG_CH_STATE_GAP c, bitN (bitOf (byteAt e 1) 0)), (LDG_CH_STATE_FRESH c, bitN (bitOf (byteAt e 1) 1)),
    (LDG_CH_LAST_SEQ_VAL c, leNat (slice e 4 4)), (LDG_CH_CHG_MWH_LO_VAL c, leNat (slice e 8 8)),
    (LDG_CH_CHG_MWH_HI_VAL c, leNat (slice e 8 8) / 2 ^ 32), (LDG_CH_DIS_MWH_LO_VAL c, leNat (slice e 16 8)),
    (LDG_CH_DIS_MWH_HI_VAL c, leNat (slice e 16 8) / 2 ^ 32), (LDG_CH_GAP_CNT_VAL c, leNat (slice e 24 4)),
    (LDG_CH_AUTH_FAIL_VAL c, leNat (slice e 28 4)), (LDG_CH_REPLAY_VAL c, leNat (slice e 32 4))]

theorem ldgLoad_eq (s : State) (c : Nat) (e : List Byte) : s.ldgLoad c e = s.puts (loadWrites c e) := rfl

theorem loadWrites_apart (c : Nat) (e : List Byte) : (loadWrites c e).Pairwise fun a b => apart a.1 b.1 := by
  simp [loadWrites, apart, LDG_CH_CHG_MWH_LO_VAL, LDG_CH_CHG_MWH_HI_VAL, LDG_CH_DIS_MWH_LO_VAL, LDG_CH_DIS_MWH_HI_VAL, LDG_CH_LAST_SEQ_VAL,
    LDG_CH_GAP_CNT_VAL, LDG_CH_AUTH_FAIL_VAL, LDG_CH_REPLAY_VAL, LDG_CH_STATE_GAP, LDG_CH_STATE_FRESH, rLDG_CH_CHG_MWH_LO,
    rLDG_CH_CHG_MWH_HI, rLDG_CH_DIS_MWH_LO, rLDG_CH_DIS_MWH_HI, rLDG_CH_LAST_SEQ, rLDG_CH_GAP_CNT, rLDG_CH_AUTH_FAIL, rLDG_CH_REPLAY,
    rLDG_CH_STATE]

theorem ldgLoad_onlyRegs (e : Nat → List Byte) (s : State) (c : Nat) : s.OnlyRegs (s.ldgLoad c (e c)) (chanRegs c) := by
  rw [ldgLoad_eq]
  exact puts_onlyRegs (by simp [loadWrites, chanRegs, LDG_CH_CHG_MWH_LO_VAL, LDG_CH_CHG_MWH_HI_VAL, LDG_CH_DIS_MWH_LO_VAL,
    LDG_CH_DIS_MWH_HI_VAL, LDG_CH_LAST_SEQ_VAL, LDG_CH_GAP_CNT_VAL, LDG_CH_AUTH_FAIL_VAL, LDG_CH_REPLAY_VAL, LDG_CH_STATE_GAP,
    LDG_CH_STATE_FRESH]) s

/-- What a channel loaded from its entry shows. -/
structure LdgLoaded (t : State) (c : Nat) (e : List Byte) : Prop where
  seq : t.fld (LDG_CH_LAST_SEQ_VAL c) = leNat (slice e 4 4)
  charged : t.fld64 (LDG_CH_CHG_MWH_LO_VAL c) (LDG_CH_CHG_MWH_HI_VAL c) = leNat (slice e 8 8)
  discharged : t.fld64 (LDG_CH_DIS_MWH_LO_VAL c) (LDG_CH_DIS_MWH_HI_VAL c) = leNat (slice e 16 8)
  gap : t.flag (LDG_CH_STATE_GAP c) = bitOf (byteAt e 1) 0
  fresh : t.flag (LDG_CH_STATE_FRESH c) = bitOf (byteAt e 1) 1

theorem bitN_is_one (b : Bool) : (bitN b % 2 ^ 1 == 1) = b := by cases b <;> rfl

theorem split_words {x : Nat} (h : x < 2 ^ 64) : x % 2 ^ 32 + 2 ^ 32 * (x / 2 ^ 32 % 2 ^ 32) = x := by omega

theorem allLoaded_channel (e : Nat → List Byte) (s : State) (hc : c < 64) {v : State}
    (hv : ∀ a ∈ chanRegs c, v.reg a = ((List.range 64).foldl (fun s c => s.ldgLoad c (e c)) s).reg a) : v.LdgLoaded c (e c) := by
  obtain ⟨t, ht⟩ := chans_reg (ldgLoad_onlyRegs e) hc s
  have hval {f : Fld} {x : Nat} (hf : f.lsb + f.wid ≤ 32) (h : (f, x) ∈ loadWrites c (e c)) (ha : f.addr ∈ chanRegs c) :
      v.fld f = x % 2 ^ f.wid := by
    rw [fld_of_reg ((hv _ ha).trans (ht _ ha).1)]
    exact fld_puts (loadWrites_apart c (e c)) hf h t
  have hword {a x : Nat} (h : (⟨a, 0, 32⟩, x) ∈ loadWrites c (e c)) (ha : a ∈ chanRegs c) : v.fld ⟨a, 0, 32⟩ = x % 2 ^ 32 :=
    hval (by dsimp only; omega) h ha
  have hpair {lo hi i : Nat} (hl : v.fld ⟨lo, 0, 32⟩ = leNat (slice (e c) i 8) % 2 ^ 32)
      (hh : v.fld ⟨hi, 0, 32⟩ = leNat (slice (e c) i 8) / 2 ^ 32 % 2 ^ 32) : v.fld64 ⟨lo, 0, 32⟩ ⟨hi, 0, 32⟩ = leNat (slice (e c) i 8) := by
    rw [fld64, hl, hh]
    exact split_words (leNat_slice_lt ..)
  have hstate : rLDG_CH_STATE c ∈ chanRegs c := by simp [chanRegs]
  exact {
    seq := (hword (a := rLDG_CH_LAST_SEQ c) (by simp [loadWrites, LDG_CH_LAST_SEQ_VAL]) (by simp [chanRegs])).trans
      (Nat.mod_eq_of_lt (leNat_slice_lt ..))
    charged := hpair (hword (.tail _ (.tail _ (.tail _ (.head _)))) (.head _))
      (hword (.tail _ (.tail _ (.tail _ (.tail _ (.head _))))) (.tail _ (.head _)))
    discharged := hpair (hword (.tail _ (.tail _ (.tail _ (.tail _ (.tail _ (.head _)))))) (.tail _ (.tail _ (.head _))))
      (hword (.tail _ (.tail _ (.tail _ (.tail _ (.tail _ (.tail _ (.head _))))))) (.tail _ (.tail _ (.tail _ (.head _)))))
    gap := (congrArg (· == 1) (hval (f := LDG_CH_STATE_GAP c) (by decide : 1 + 1 ≤ 32) (.head _) hstate)).trans (bitN_is_one _)
    fresh := (congrArg (· == 1) (hval (f := LDG_CH_STATE_FRESH c) (by decide : 0 + 1 ≤ 32) (.tail _ (.head _)) hstate)).trans
      (bitN_is_one _) }

end
end State
end Sys2Proof.Machine
end

section
/-! SUPPORT. How the commands of LDG_CTL end: FRESH, SEAL and RESTORE (R430, R431). -/

namespace Sys2Proof.Machine

namespace State

section
variable {s t u : State} {c n res : Nat} {as : List Nat}

/-! ## The end of a command -/

def ldgDone (s : State) (res : Nat) : State := (s.put LDG_CTL_RESULT res).setFlag LDG_EVT_CMD_DONE

theorem ldgCommand_mc (hr : s.reaches .mc rLDG_CTL) {act : State → State × Nat} (h : act s = (u, res)) :
    s.ldgCommand .mc act = u.ldgDone res := by
  rw [ldgCommand, mcOnly_mc hr, h]
  rfl

theorem ldgDone_onlyRegs (s : State) (res : Nat) : s.OnlyRegs (s.ldgDone res) [rLDG_CTL, rLDG_EVT] :=
  ((OnlyRegs.refl s _).put res List.mem_cons_self).put 1 (List.mem_cons_of_mem _ List.mem_cons_self)

theorem ldgDone_result (s : State) (h : res < 16) : (s.ldgDone res).fld LDG_CTL_RESULT = res :=
  (fld_put_other _ (by decide : rLDG_CTL ≠ rLDG_EVT)).trans ((fld_put_same _ (by decide : 8 + 4 ≤ 32)).trans (Nat.mod_eq_of_lt h))

theorem ldgDone_event (s : State) (res : Nat) : (s.ldgDone res).flag LDG_EVT_CMD_DONE = true := flag_setFlag_self _ (by decide) rfl

theorem ldgDone_fld (s : State) (res : Nat) {f : Fld} (hc : f.addr ≠ rLDG_CTL) (he : f.addr ≠ rLDG_EVT) : (s.ldgDone res).fld f = s.fld f :=
  (s.ldgDone_onlyRegs res).fld (by simp [hc, he])

theorem ldgDone_sealed (s : State) (res : Nat) : (s.ldgDone res).fld LDG_EVT_SEALED = s.fld LDG_EVT_SEALED :=
  (fld_put_next _ (by decide : 2 + 1 ≤ 32) (by decide)).trans (fld_put_other _ (by decide))

/-- A command of the management cluster, from what it does and the RESULT it gives. -/
theorem ldgCommand_ends (hr : s.reaches .mc rLDG_CTL) {act : State → State × Nat} (h : act s = (u, res)) (hres : res < 16) :
    s.ldgCommand .mc act = u.ldgDone res ∧ (u.ldgDone res).fld LDG_CTL_RESULT = res ∧ (u.ldgDone res).flag LDG_EVT_CMD_DONE = true :=
  ⟨ldgCommand_mc hr h, u.ldgDone_result hres, u.ldgDone_event res⟩

/-- A command that changes nothing but its RESULT. -/
theorem ldgCommand_refused (hr : s.reaches .mc rLDG_CTL) {act : State → State × Nat} (h : act s = (s, res)) (hres : res < 16) :
    ∃ t, Host.Outcome.next (s.ldgCommand .mc act) = (.next t : Host.Outcome State Fault Refusal) ∧ t.fld LDG_CTL_RESULT = res ∧
      t.flag LDG_EVT_CMD_DONE = true ∧ s.OnlyRegs t [rLDG_CTL, rLDG_EVT] := by
  obtain ⟨he, hresult, hevent⟩ := ldgCommand_ends hr h hres
  exact ⟨_, congrArg _ he, hresult, hevent, s.ldgDone_onlyRegs res⟩

/-- A command of the ledger that comes from a host. -/
theorem ldgCommand_host {r : Requester} (hh : isHost r = true) (hu : s.unreachable r = false) (hp : s.powered rLDG_CTL = true)
    (act : State → State × Nat) : (s.ldgCommand r act).fld LDG_CTL_RESULT = 5 ∧ s.OnlyRaises (s.ldgCommand r act) [rGLB_ACCESS_ERR, rLDG_CTL] := by
  have hrec := (s.accessErr_recorded (addr := rLDG_CTL) (cause := 4) (by decide) (by decide)).frame
  simp only [ldgCommand, mcOnly, hu, hh, hp, Bool.false_eq_true, if_false, if_true]
  refine ⟨fld_put_same _ (by decide : 8 + 4 ≤ 32), ?_⟩
  exact OnlyRaises.put ⟨hrec.rest, fun a ha => hrec.regs a fun hm => ha (List.mem_cons.mpr (.inl (List.mem_singleton.mp hm)))⟩ _
    (List.mem_cons_of_mem _ List.mem_cons_self)

/-! ## FRESH -/

def startWrites : List (Fld × Nat) := [(LDG_FLAGS_AFTER_POR, 0), (LDG_FLAGS_FRESH_START, 1), (LDG_FLAGS_READY, 1)]

theorem ldgAllFresh_eq (s : State) : s.ldgAllFresh = (((List.range 64).foldl State.ldgFresh s).puts startWrites, 2) := rfl

theorem startWrites_apart : startWrites.Pairwise fun a b => apart a.1 b.1 := by simp [startWrites, apart, LDG_FLAGS_AFTER_POR,
  LDG_FLAGS_FRESH_START, LDG_FLAGS_READY]

theorem started_onlyRegs (s : State) : s.OnlyRegs (s.puts startWrites) [rLDG_FLAGS] := puts_onlyRegs (by decide) s

theorem started_flags (s : State) : (s.puts startWrites).flag LDG_FLAGS_READY = true ∧ (s.puts startWrites).flag LDG_FLAGS_FRESH_START = true ∧
    (s.puts startWrites).flag LDG_FLAGS_AFTER_POR = false :=
  ⟨congrArg (· == 1) (fld_puts (v := 1) startWrites_apart (by decide) (by decide) s),
    congrArg (· == 1) (fld_puts (v := 1) startWrites_apart (by decide) (by decide) s),
    congrArg (· == 1) (fld_puts (v := 0) startWrites_apart (by decide) (by decide) s)⟩

theorem chan_notCtl {a : Nat} (h : a ∈ chanRegs c) : a ∉ [rLDG_CTL, rLDG_EVT] := by
  have hrange := chanRegs_range h
  simp only [rLDG_CTL, rLDG_EVT, List.mem_cons, List.not_mem_nil, or_false]
  omega

theorem chan_notFlags {a : Nat} (h : a ∈ chanRegs c) : a ∉ [rLDG_CKPT_CTR, rLDG_FLAGS] := by
  have hrange := chanRegs_range h
  simp only [rLDG_FLAGS, rLDG_CKPT_CTR, List.mem_cons, List.not_mem_nil, or_false]
  omega

theorem ldgFresh_shows (hr : s.reaches .mc rLDG_CTL) : ∃ t, exec (.ldgFresh .mc) s = .next t ∧ t.fld LDG_CTL_RESULT = 2 ∧
    t.flag LDG_EVT_CMD_DONE = true ∧ t.flag LDG_FLAGS_READY = true ∧ t.flag LDG_FLAGS_FRESH_START = true ∧
    t.flag LDG_FLAGS_AFTER_POR = false ∧ { t with regs := s.regs } = s ∧ ∀ c, c < 64 → s.LdgFreshed t c := by
  obtain ⟨he, hres, hev⟩ := ldgCommand_ends (s := s) hr s.ldgAllFresh_eq (by decide)
  have hrest := chans_rest ldgFresh_onlyRegs (List.range 64) s
  have hchan (c : Nat) (hc : c < 64) := allFresh_channel s hc (v := (((List.range 64).foldl State.ldgFresh s).puts startWrites).ldgDone 2)
  generalize (List.range 64).foldl State.ldgFresh s = u at *
  have hdone := ldgDone_onlyRegs (u.puts startWrites) 2
  have hstart := started_onlyRegs u
  obtain ⟨hready, hfresh, hpor⟩ := started_flags u
  generalize (u.puts startWrites).ldgDone 2 = t at *
  have hkeep {f : Fld} (hf : f.addr ∉ [rLDG_CTL, rLDG_EVT]) : t.flag f = (u.puts startWrites).flag f := congrArg (· == 1) (hdone.fld hf)
  refine ⟨t, congrArg Host.Outcome.next he, hres, hev, (hkeep (by decide)).trans hready, (hkeep (by decide)).trans hfresh,
    (hkeep (by decide)).trans hpor, rest_trans (rest_trans hrest hstart.rest) hdone.rest, fun c hc => hchan c hc fun a ha => ?_⟩
  exact (hdone.regs a (chan_notCtl ha)).trans (hstart.regs a fun h => chan_notFlags ha (List.mem_cons_of_mem _ h))

/-! ## RESTORE -/

/-- The bytes of a checkpoint that RESTORE takes. -/
def ckptGood (s : State) (b : List Byte) : Prop := slice b 0 4 = [0x4B, 0x51, 0x4C, 0x43] ∧ slice b 3104 16 = cmac s.ldgSealKey (b.take 3104)

def ldgLoaded (s : State) (b : List Byte) : State :=
  (List.range 64).foldl (fun s c => s.ldgLoad c (slice b (32 + 48 * c) 48)) { s with ldgSeq := leNat (slice b 12 4) }

def resumeWrites (ctr : Nat) (por fresh : Bool) : List (Fld × Nat) := [(LDG_CKPT_CTR_COUNT, ctr), (LDG_FLAGS_AO_VALID, 1),
  (LDG_FLAGS_AFTER_POR, bitN por), (LDG_FLAGS_FRESH_START, bitN fresh), (LDG_FLAGS_READY, 1)]

variable {b : List Byte}

/-- RESTORE's checks, and what it does with a checkpoint that passes them. -/
theorem ldgRestore_eq (hb : b = s.window (rLDG_DATA 0) 3120) : s.ldgRestore =
    if slice b 0 4 ≠ [0x4B, 0x51, 0x4C, 0x43] ∨ slice b 3104 16 ≠ cmac s.ldgSealKey (b.take 3104) then (s.put LDG_FLAGS_READY 0, 6)
    else if s.flag LDG_FLAGS_AO_VALID ∧ leNat (slice b 8 4) ≠ s.fld LDG_CKPT_CTR_COUNT then (s.put LDG_FLAGS_READY 0, 7)
    else ((s.ldgLoaded b).puts (resumeWrites (leNat (slice b 8 4)) (bitOf (byteAt b 16) 0 || !s.flag LDG_FLAGS_AO_VALID ||
      s.flag LDG_FLAGS_AFTER_POR) (bitOf (byteAt b 16) 1 || s.flag LDG_FLAGS_FRESH_START)), 2) := by
  simp only [ldgRestore, ← hb]
  rfl

theorem ldgRestore_bad (hb : b = s.window (rLDG_DATA 0) 3120)
    (h : slice b 0 4 ≠ [0x4B, 0x51, 0x4C, 0x43] ∨ slice b 3104 16 ≠ cmac s.ldgSealKey (b.take 3104)) :
    s.ldgRestore = (s.put LDG_FLAGS_READY 0, 6) := by
  rw [ldgRestore_eq hb, if_pos h]

theorem ldgRestore_stale (hb : b = s.window (rLDG_DATA 0) 3120) (h : s.ckptGood b) (ha : s.flag LDG_FLAGS_AO_VALID = true)
    (hc : leNat (slice b 8 4) ≠ s.fld LDG_CKPT_CTR_COUNT) : s.ldgRestore = (s.put LDG_FLAGS_READY 0, 7) := by
  obtain ⟨hm, ht⟩ := h
  rw [ldgRestore_eq hb, if_neg (not_or.mpr ⟨not_not.mpr hm, not_not.mpr ht⟩), if_pos ⟨ha, hc⟩]

theorem ldgRestore_loads (hb : b = s.window (rLDG_DATA 0) 3120) (h : s.ckptGood b)
    (hc : s.flag LDG_FLAGS_AO_VALID = false ∨ leNat (slice b 8 4) = s.fld LDG_CKPT_CTR_COUNT) :
    s.ldgRestore = ((s.ldgLoaded b).puts (resumeWrites (leNat (slice b 8 4)) (bitOf (byteAt b 16) 0 || !s.flag LDG_FLAGS_AO_VALID ||
      s.flag LDG_FLAGS_AFTER_POR) (bitOf (byteAt b 16) 1 || s.flag LDG_FLAGS_FRESH_START)), 2) := by
  obtain ⟨hm, ht⟩ := h
  rw [ldgRestore_eq hb, if_neg (not_or.mpr ⟨not_not.mpr hm, not_not.mpr ht⟩), if_neg]
  rintro ⟨ha, hne⟩
  obtain h | h := hc
  · rw [h] at ha
    cases ha
  · exact hne h

/-- A RESTORE that is refused leaves the ledger not READY. -/
theorem ldgRestore_refused (hr : s.reaches .mc rLDG_CTL) (h : s.ldgRestore = (s.put LDG_FLAGS_READY 0, res)) (hres : res < 16) :
    ∃ t, exec (.ldgRestore .mc) s = .next t ∧ t.fld LDG_CTL_RESULT = res ∧ t.flag LDG_FLAGS_READY = false ∧
      s.OnlyRegs t [rLDG_CTL, rLDG_EVT, rLDG_FLAGS] := by
  obtain ⟨he, hresult, -⟩ := ldgCommand_ends hr h hres
  have hput : s.OnlyRegs (s.put LDG_FLAGS_READY 0) [rLDG_FLAGS] := (OnlyRegs.refl s _).put 0 List.mem_cons_self
  have hdone := ldgDone_onlyRegs (s.put LDG_FLAGS_READY 0) res
  refine ⟨_, congrArg Host.Outcome.next he, hresult, ?_, (hput.trans hdone).mono (by simp)⟩
  exact (congrArg (· == 1) (hdone.fld (by decide))).trans (flag_put_bitN _ (by decide) rfl false)

theorem resumed_onlyRegs (s : State) (ctr : Nat) (por fresh : Bool) :
    s.OnlyRegs (s.puts (resumeWrites ctr por fresh)) [rLDG_CKPT_CTR, rLDG_FLAGS] := by
  refine puts_onlyRegs ?_ s
  simp [resumeWrites, LDG_CKPT_CTR_COUNT, LDG_FLAGS_AO_VALID, LDG_FLAGS_AFTER_POR, LDG_FLAGS_FRESH_START, LDG_FLAGS_READY]

theorem resumed_fld (s : State) (ctr : Nat) (por fresh : Bool) {f : Fld} {v : Nat} (hf : f.lsb + f.wid ≤ 32)
    (h : (f, v) ∈ resumeWrites ctr por fresh) : (s.puts (resumeWrites ctr por fresh)).fld f = v % 2 ^ f.wid := by
  refine fld_puts ?_ hf h s
  simp [resumeWrites, apart, rLDG_CKPT_CTR, rLDG_FLAGS, LDG_CKPT_CTR_COUNT, LDG_FLAGS_AO_VALID, LDG_FLAGS_AFTER_POR, LDG_FLAGS_FRESH_START,
    LDG_FLAGS_READY]

theorem resumed_shows (s : State) {ctr : Nat} (hctr : ctr < 2 ^ 32) (por fresh : Bool) {t : State}
    (ht : t = s.puts (resumeWrites ctr por fresh)) : t.fld LDG_CKPT_CTR_COUNT = ctr ∧ t.flag LDG_FLAGS_READY = true ∧
      t.flag LDG_FLAGS_AFTER_POR = por ∧ t.flag LDG_FLAGS_FRESH_START = fresh := by
  have hfld {f : Fld} {v : Nat} (hf : f.lsb + f.wid ≤ 32) (h : (f, v) ∈ resumeWrites ctr por fresh) : t.fld f = v % 2 ^ f.wid := by
    rw [ht]
    exact s.resumed_fld ctr por fresh hf h
  exact ⟨(hfld (by decide) (.head _)).trans (Nat.mod_eq_of_lt hctr),
    (congrArg (· == 1) (hfld (f := LDG_FLAGS_READY) (v := 1) (by decide) (by simp [resumeWrites])) :),
    (congrArg (· == 1) (hfld (f := LDG_FLAGS_AFTER_POR) (by decide) (.tail _ (.tail _ (.head _))))).trans (bitN_is_one por),
    (congrArg (· == 1) (hfld (f := LDG_FLAGS_FRESH_START) (by decide) (.tail _ (.tail _ (.tail _ (.head _)))))).trans (bitN_is_one fresh)⟩

theorem ldgLoaded_eq (s : State) (b : List Byte) : s.ldgLoaded b =
    (List.range 64).foldl (fun s c => s.ldgLoad c (slice b (32 + 48 * c) 48)) { s with ldgSeq := leNat (slice b 12 4) } := rfl

theorem ldgLoaded_rest (s : State) (b : List Byte) :
    { s.ldgLoaded b with regs := s.regs } = { s with ldgSeq := leNat (slice b 12 4) } := by
  rw [ldgLoaded_eq]
  exact chans_rest (ldgLoad_onlyRegs fun c => slice b (32 + 48 * c) 48) (List.range 64) { s with ldgSeq := leNat (slice b 12 4) }

theorem slice_entry (b : List Byte) {c i m : Nat} (h : i + m ≤ 48) : slice (slice b (32 + 48 * c) 48) i m = slice b (32 + i + 48 * c) m := by
  rw [slice_slice b h]
  congr 1
  omega

theorem byteAt_entry (b : List Byte) (c : Nat) : byteAt (slice b (32 + 48 * c) 48) 1 = byteAt b (33 + 48 * c) := by
  rw [byteAt_slice b (by decide)]
  congr 1
  omega

theorem ldgRestore_shows (hr : s.reaches .mc rLDG_CTL) (hb : b = s.window (rLDG_DATA 0) 3120) (hg : s.ckptGood b)
    (hc : s.flag LDG_FLAGS_AO_VALID = false ∨ leNat (slice b 8 4) = s.fld LDG_CKPT_CTR_COUNT) :
    ∃ t, exec (.ldgRestore .mc) s = .next t ∧ t.fld LDG_CTL_RESULT = 2 ∧ t.flag LDG_FLAGS_READY = true ∧
      t.flag LDG_EVT_CMD_DONE = true ∧ t.fld LDG_CKPT_CTR_COUNT = leNat (slice b 8 4) ∧
      t.ldgSeq = leNat (slice b 12 4) ∧ { t with regs := s.regs, ldgSeq := s.ldgSeq } = s ∧
      t.flag LDG_FLAGS_AFTER_POR = (bitOf (byteAt b 16) 0 || !s.flag LDG_FLAGS_AO_VALID || s.flag LDG_FLAGS_AFTER_POR) ∧
      t.flag LDG_FLAGS_FRESH_START = (bitOf (byteAt b 16) 1 || s.flag LDG_FLAGS_FRESH_START) ∧
      ∀ c, c < 64 → t.LdgLoaded c (slice b (32 + 48 * c) 48) := by
  obtain ⟨he, hres, hev⟩ := ldgCommand_ends hr (ldgRestore_loads hb hg hc) (by decide)
  generalize (bitOf (byteAt b 16) 0 || !s.flag LDG_FLAGS_AO_VALID || s.flag LDG_FLAGS_AFTER_POR) = por at *
  generalize (bitOf (byteAt b 16) 1 || s.flag LDG_FLAGS_FRESH_START) = fresh at *
  have hresumed := (s.ldgLoaded b).resumed_onlyRegs (leNat (slice b 8 4)) por fresh
  obtain ⟨hctr, hready, hpor, hfresh⟩ := (s.ldgLoaded b).resumed_shows (leNat_slice_lt b 8 4) por fresh rfl
  generalize (s.ldgLoaded b).puts (resumeWrites (leNat (slice b 8 4)) por fresh) = v at *
  have hdone := v.ldgDone_onlyRegs 2
  generalize v.ldgDone 2 = t at *
  have hkeep {f : Fld} (hf : f.addr ∉ [rLDG_CTL, rLDG_EVT]) : t.flag f = v.flag f :=
    congrArg (· == 1) (hdone.fld hf)
  have hbeside : { t with regs := s.regs } = { s with ldgSeq := leNat (slice b 12 4) } :=
    rest_trans (s := { s with ldgSeq := leNat (slice b 12 4) }) (s.ldgLoaded_rest b) (rest_trans hresumed.rest hdone.rest)
  refine ⟨t, congrArg Host.Outcome.next he, hres, (hkeep (by decide)).trans hready, hev, (hdone.fld (by decide)).trans hctr,
    (congrArg State.ldgSeq hbeside :), (congrArg (fun x : State => { x with ldgSeq := s.ldgSeq }) hbeside :),
    (hkeep (by decide)).trans hpor, (hkeep (by decide)).trans hfresh, fun c hc => ?_⟩
  exact allLoaded_channel (fun c => slice b (32 + 48 * c) 48) _ hc fun a ha =>
    (hdone.regs a (chan_notCtl ha)).trans (hresumed.regs a (chan_notFlags ha))

end
end State
end Sys2Proof.Machine
end

section
/-! SUPPORT. The ledger's checkpoint and report in the data window (R430, R432). -/

namespace Sys2Proof.Machine

/-- Blocks of one length joined: each stands at its place. -/
theorem slice_flatten {α : Type} {f : α → List Byte} {w : Nat} (hf : ∀ a, (f a).length = w) {l : List α} {n : Nat} (hn : n < l.length) :
    slice (l.map f).flatten (w * n) w = f l[n] := by
  induction l generalizing n with
  | nil => exact absurd hn (Nat.not_lt_zero n)
  | cons a l ih =>
    rw [List.map_cons, List.flatten_cons]
    cases n with
    | zero => exact (congrArg (slice _ 0) (hf a).symm).trans (slice_zero_append _ _)
    | succ n =>
      rw [slice_append_left _ (by rw [hf, Nat.mul_succ]; omega), hf, Nat.mul_succ, Nat.add_sub_cancel]
      exact ih (Nat.lt_of_succ_lt_succ hn)

theorem flatten_length {α : Type} {f : α → List Byte} {w : Nat} (hf : ∀ a, (f a).length = w) (l : List α) :
    (l.map f).flatten.length = w * l.length := length_flatMap_const f w hf l

namespace State

section
variable {s t u : State} {c n : Nat} {as : List Nat}

theorem window_part {a j m : Nat} {l : List Byte} (h : 4 * j + m ≤ l.length) : (s.windowPut a 0 l).window (a + 4 * j) m = slice l (4 * j) m := by
  rw [← slice_window _ a h, window_windowPut]

theorem window_start {a m : Nat} {l : List Byte} (h : m ≤ l.length) : (s.windowPut a 0 l).window a m = l.take m := by
  rw [← window_take _ a h, window_windowPut]

/-! ## A checkpoint -/

theorem ldgEntry_length (s : State) (c : Nat) : (s.ldgEntry c).length = 48 := by
  simp only [ldgEntry, List.length_append, leBytes_length, List.length_replicate, List.length_cons, List.length_nil]

theorem ldgEntry_congr (hi : t.active = s.active) (hr : ∀ a ∈ chanRegs c, t.reg a = s.reg a) : t.ldgEntry c = s.ldgEntry c := by
  have hfld {f : Fld} (h : f.addr ∈ chanRegs c) : t.fld f = s.fld f := fld_of_reg (hr _ h)
  have hstate : rLDG_CH_STATE c ∈ chanRegs c := by simp [chanRegs]
  rw [ldgEntry, ldgEntry, hi, hfld (f := LDG_CH_STATE_GAP c) hstate, hfld (f := LDG_CH_STATE_FRESH c) hstate,
    hfld (f := LDG_CH_LAST_SEQ_VAL c) (by simp [chanRegs, LDG_CH_LAST_SEQ_VAL]),
    fld64_of_flds (hfld (f := LDG_CH_CHG_MWH_LO_VAL c) (.head _)) (hfld (f := LDG_CH_CHG_MWH_HI_VAL c) (.tail _ (.head _))),
    fld64_of_flds (hfld (f := LDG_CH_DIS_MWH_LO_VAL c) (.tail _ (.tail _ (.head _))))
      (hfld (f := LDG_CH_DIS_MWH_HI_VAL c) (.tail _ (.tail _ (.tail _ (.head _))))),
    hfld (f := LDG_CH_GAP_CNT_VAL c) (by simp [chanRegs, LDG_CH_GAP_CNT_VAL]),
    hfld (f := LDG_CH_AUTH_FAIL_VAL c) (by simp [chanRegs, LDG_CH_AUTH_FAIL_VAL]),
    hfld (f := LDG_CH_REPLAY_VAL c) (by simp [chanRegs, LDG_CH_REPLAY_VAL])]

theorem ldgSealKey_congr (h : t.blf = s.blf) : t.ldgSealKey = s.ldgSealKey := by
  rw [ldgSealKey, ldgSealKey, slot_congr (congrArg Blf.slots h)]

/-- The first 32 bytes of a checkpoint. -/
def ldgHead (s : State) : List Byte := ascii [0x4B, 0x51, 0x4C, 0x43] ++ leBytes 2 1 ++ leBytes 2 3120 ++ leBytes 4 (s.fld LDG_CKPT_CTR_COUNT) ++
  leBytes 4 s.ldgSeq ++ [BitVec.ofNat 8 s.ldgFlags, 0] ++ leBytes 6 s.nowCt ++ List.replicate 8 0

theorem ldgBody_eq (s : State) : s.ldgBody = s.ldgHead ++ ((List.range 64).map s.ldgEntry).flatten := rfl

theorem ldgHead_length (s : State) : s.ldgHead.length = 32 := by
  simp only [ldgHead, ascii, List.length_append, List.length_map, leBytes_length, List.length_replicate, List.length_cons, List.length_nil]

theorem ldgBody_length (s : State) : s.ldgBody.length = 3104 := by
  rw [ldgBody_eq, List.length_append, ldgHead_length, flatten_length s.ldgEntry_length, List.length_range]

theorem ldgBody_magic (s : State) : s.ldgBody.take 4 = [0x4B, 0x51, 0x4C, 0x43] := by
  simp only [ldgBody_eq, ldgHead, List.append_assoc]
  rfl

theorem ldgBody_counter (s : State) : leNat (slice s.ldgBody 8 4) = s.fld LDG_CKPT_CTR_COUNT := by
  have hpart : slice s.ldgBody 8 4 = leBytes 4 (s.fld LDG_CKPT_CTR_COUNT) := by
    refine slice_part (a := ascii [0x4B, 0x51, 0x4C, 0x43] ++ leBytes 2 1 ++ leBytes 2 3120) (c := leBytes 4 s.ldgSeq ++
      ([BitVec.ofNat 8 s.ldgFlags, 0] ++ (leBytes 6 s.nowCt ++ (List.replicate 8 0 ++ ((List.range 64).map s.ldgEntry).flatten)))) ?_ ?_
      (leBytes_length 4 _)
    · simp only [ldgBody_eq, ldgHead, List.append_assoc]
    · simp only [ascii, List.length_append, List.length_map, leBytes_length, List.length_cons, List.length_nil]
  rw [hpart, leNat_leBytes]
  exact Nat.mod_eq_of_lt (fld_lt s LDG_CKPT_CTR_COUNT)

theorem ldgBody_entry (s : State) (hn : n < 64) : slice s.ldgBody (32 + 48 * n) 48 = s.ldgEntry n := by
  have hn' : n < (List.range 64).length := by rwa [List.length_range]
  rw [ldgBody_eq, slice_append_left _ (by rw [ldgHead_length]; omega), ldgHead_length, Nat.add_sub_cancel_left,
    slice_flatten s.ldgEntry_length hn', List.getElem_range]

/-! ## SEAL and the checkpoint timer -/

def sealCounted (s : State) : State := (s.addCnt LDG_CKPT_CTR_COUNT 1).put LDG_FLAGS_AO_VALID 1

def ldgSealed (s : State) (b : List Byte) : State := (s.windowPut (rLDG_DATA 0) 0 b).setFlag LDG_EVT_SEALED

theorem ldgSeal_eq (s : State) : s.ldgSeal = s.sealCounted.ldgSealed (s.sealCounted.ldgBody ++ cmac s.sealCounted.ldgSealKey s.sealCounted.ldgBody) :=
  rfl

theorem sealCounted_onlyRegs (s : State) : s.OnlyRegs s.sealCounted [rLDG_CKPT_CTR, rLDG_FLAGS] :=
  ((OnlyRegs.refl s _).put _ List.mem_cons_self).put _ (List.mem_cons_of_mem _ List.mem_cons_self)

theorem sealCounted_shows (s : State) : s.sealCounted.fld LDG_CKPT_CTR_COUNT = (s.fld LDG_CKPT_CTR_COUNT + 1) % 2 ^ 32 ∧
    s.sealCounted.flag LDG_FLAGS_AO_VALID = true :=
  ⟨(fld_put_other _ (by decide)).trans (fld_put_same _ (by decide)), flag_put_bitN _ (by decide) rfl true⟩

theorem ldgSealed_reg (s : State) (b : List Byte) {a : Nat} (h : a < rLDG_DATA 0) (he : a ≠ rLDG_EVT) : (s.ldgSealed b).reg a = s.reg a :=
  (reg_put_ne _ _ _ he).trans (windowPut_reg _ b s 0 (.inl h))

theorem ldgSealed_rest (s : State) (b : List Byte) : { s.ldgSealed b with regs := s.regs } = s := rest_trans (windowPut_rest _ b s 0) rfl

theorem data_notCtl {k : Nat} : rLDG_DATA 0 + 4 * k ∉ [rLDG_CTL, rLDG_EVT] := by
  simp only [rLDG_DATA, rLDG_CTL, rLDG_EVT, List.mem_cons, List.not_mem_nil, or_false]
  omega

theorem ldgSealed_window (s : State) (b : List Byte) : (s.ldgSealed b).window (rLDG_DATA 0) b.length = b := by
  refine (window_congr fun k _ => reg_put_ne _ _ _ ?_).trans (window_windowPut s _ b)
  exact fun h => data_notCtl (k := k / 4) (by rw [h]; decide)

/-- What a checkpoint taken leaves in the ledger. -/
structure LdgCheckpointed (s t : State) : Prop where
  counter : t.fld LDG_CKPT_CTR_COUNT = (s.fld LDG_CKPT_CTR_COUNT + 1) % 2 ^ 32
  valid : t.flag LDG_FLAGS_AO_VALID = true
  event : t.flag LDG_EVT_SEALED = true
  rest : { t with regs := s.regs } = s
  window : ∃ c, t.window (rLDG_DATA 0) 3120 = c ++ cmac s.ldgSealKey c ∧ c.length = 3104 ∧ c.take 4 = [0x4B, 0x51, 0x4C, 0x43] ∧
    leNat (slice c 8 4) = (s.fld LDG_CKPT_CTR_COUNT + 1) % 2 ^ 32 ∧ ∀ n, n < 64 → slice c (32 + 48 * n) 48 = s.ldgEntry n

theorem ldgSeal_checkpointed (s : State) : s.LdgCheckpointed s.ldgSeal := by
  rw [ldgSeal_eq]
  have hcounted := s.sealCounted_onlyRegs
  obtain ⟨hctr, hvalid⟩ := s.sealCounted_shows
  generalize s.sealCounted = u at *
  have hkey : u.ldgSealKey = s.ldgSealKey := ldgSealKey_congr (blf_of_rest hcounted.rest)
  have hlen : (u.ldgBody ++ cmac s.ldgSealKey u.ldgBody).length = 3120 := by
    rw [List.length_append, ldgBody_length, cmac, cryptoBytes_length]
  have hkeep {f : Fld} (h : f.addr < rLDG_DATA 0) (he : f.addr ≠ rLDG_EVT) (b : List Byte) : (u.ldgSealed b).fld f = u.fld f :=
    fld_of_reg (u.ldgSealed_reg b h he)
  rw [hkey]
  exact {
    counter := (hkeep (by decide) (by decide) _).trans hctr
    valid := (congrArg (· == 1) (hkeep (by decide) (by decide) _)).trans hvalid
    event := flag_setFlag_self _ (by decide) rfl
    rest := rest_trans hcounted.rest (u.ldgSealed_rest _)
    window := ⟨u.ldgBody, (congrArg _ hlen.symm).trans (u.ldgSealed_window _), u.ldgBody_length, u.ldgBody_magic,
      u.ldgBody_counter.trans hctr, fun n hn => (u.ldgBody_entry hn).trans (ldgEntry_congr (congrArg State.active hcounted.rest :)
        fun a ha => hcounted.regs a (chan_notFlags ha))⟩ }

theorem LdgCheckpointed.done (h : s.LdgCheckpointed t) (res : Nat) : s.LdgCheckpointed (t.ldgDone res) where
  counter := (t.ldgDone_fld res (by decide) (by decide)).trans h.counter
  valid := (congrArg (· == 1) (t.ldgDone_fld res (f := LDG_FLAGS_AO_VALID) (by decide) (by decide))).trans h.valid
  event := (congrArg (· == 1) (t.ldgDone_sealed res)).trans h.event
  rest := rest_trans h.rest (t.ldgDone_onlyRegs res).rest
  window := by
    have hw : (t.ldgDone res).window (rLDG_DATA 0) 3120 = t.window (rLDG_DATA 0) 3120 :=
      window_congr fun k _ => (t.ldgDone_onlyRegs res).regs _ data_notCtl
    rw [hw]
    exact h.window

theorem ldgSeal_shows (hr : s.reaches .mc rLDG_CTL) (hready : s.flag LDG_FLAGS_READY = true) : ∃ t, exec (.ldgSeal .mc) s = .next t ∧
    t.fld LDG_CTL_RESULT = 2 ∧ t.flag LDG_EVT_CMD_DONE = true ∧ s.LdgCheckpointed t := by
  have hcmd : s.ldgSealCmd = (s.ldgSeal, 2) := if_pos hready
  obtain ⟨he, hres, hev⟩ := ldgCommand_ends hr hcmd (by decide)
  exact ⟨_, congrArg Host.Outcome.next he, hres, hev, s.ldgSeal_checkpointed.done 2⟩

theorem ldgSealCmd_notReady (h : s.flag LDG_FLAGS_READY = false) : s.ldgSealCmd = (s, 9) := if_neg (by rw [h]; decide)

theorem ckptTimer_seals (hready : s.flag LDG_FLAGS_READY = true) (h : secLe s.active tyLEDGER 2 2 ≠ 0) : exec .ckptTimer s = .next s.ldgSeal :=
  congrArg Host.Outcome.next (if_pos ⟨hready, h⟩)

theorem ckptTimer_idle (h : s.flag LDG_FLAGS_READY = false ∨ secLe s.active tyLEDGER 2 2 = 0) : exec .ckptTimer s = .next s := by
  refine congrArg Host.Outcome.next (if_neg ?_)
  rintro ⟨hready, hne⟩
  obtain h | h := h
  · rw [h] at hready
    cases hready
  · exact hne h

end
end State
end Sys2Proof.Machine
end

section
/-! PROOFS. The energy ledger: records, checkpoints and reports: O51. -/

namespace Sys2Proof.Machine

namespace State

section
variable {s t u : State} {c n : Nat} {k : KeyHalf}

/-! ## REPORT (R432) -/

def gapsCleared (s : State) (l : List Nat) : State := l.foldl (fun s c => s.put (LDG_CH_STATE_GAP c) 0) s

theorem gap_put (s : State) (d c : Nat) : (s.put (LDG_CH_STATE_GAP d) 0).flag (LDG_CH_STATE_GAP c) =
    (s.flag (LDG_CH_STATE_GAP c) && !decide (c = d)) := by
  by_cases h : c = d
  · subst h
    rw [decide_eq_true rfl, Bool.not_true, Bool.and_false]
    exact flag_put_bitN s (by decide : 1 + 1 ≤ 32) rfl false
  · rw [decide_eq_false h, Bool.not_false, Bool.and_true]
    refine congrArg (· == 1) (fld_put_other 0 ?_)
    simp only [rLDG_CH_STATE]
    omega

theorem gapsCleared_flag (s : State) (l : List Nat) (c : Nat) : (s.gapsCleared l).flag (LDG_CH_STATE_GAP c) =
    (s.flag (LDG_CH_STATE_GAP c) && !decide (c ∈ l)) := by
  induction l generalizing s with
  | nil => simp [gapsCleared]
  | cons d l ih =>
    refine (ih _).trans ?_
    rw [gap_put]
    simp [Bool.and_assoc]

theorem gapsCleared_rest (s : State) (l : List Nat) : { s.gapsCleared l with regs := s.regs } = s :=
  foldl_relates (R := fun s t => { t with regs := s.regs } = s) (f := fun s c => s.put (LDG_CH_STATE_GAP c) 0) (fun _ => rfl) rest_trans
    (fun _ _ _ => rfl) s

theorem gapsCleared_reg (s : State) {l : List Nat} {a : Nat} (ha : ∀ c ∈ l, a ≠ rLDG_CH_STATE c) : (s.gapsCleared l).reg a = s.reg a :=
  foldl_same (fun t => t.reg a) (fun t d hd => reg_put_ne t (LDG_CH_STATE_GAP d) 0 (ha d hd)) s

/-- The channels that a report covers. -/
def reported (w : List Byte) : List Nat := (List.range 64).filter (fun c => bitOf (leNat (slice w 16 8)) c)

def reportBody (s : State) (w : List Byte) : List Byte :=
  ascii [0x4B, 0x51, 0x4C, 0x52] ++ leBytes 2 1 ++ leBytes 2 (64 + 48 * (reported w).length + 96) ++ devUid ++
    w.take 16 ++ leBytes 4 ((s.ldgSeq + 1) % 2 ^ 32) ++ leBytes 4 (s.fld LDG_CKPT_CTR_COUNT) ++ leBytes 6 s.nowCt ++
    [BitVec.ofNat 8 s.ldgFlags, BitVec.ofNat 8 (reported w).length] ++ List.replicate 8 0 ++ ((reported w).map s.ldgEntry).flatten

/-- The ledger's report numbered, its nonce drawn. -/
def reportDrawn (s : State) : State := { s with ldgSeq := (s.ldgSeq + 1) % 2 ^ 32, free := s.free + 48 }

def reportNonce (s : State) : List Byte := (({ s with ldgSeq := (s.ldgSeq + 1) % 2 ^ 32 } : State).random 48).2

def reportBytes (s : State) (k : KeyHalf) (w : List Byte) : List Byte :=
  s.reportBody w ++ ecSign true k.key (sha384 (s.reportBody w)) s.reportNonce

theorem report_random (s : State) : ({ s with ldgSeq := (s.ldgSeq + 1) % 2 ^ 32 } : State).random 48 = (s.reportDrawn, s.reportNonce) :=
  Prod.ext (random_state _ 48) rfl

theorem ldgReport_notReady (h : s.flag LDG_FLAGS_READY = false) : s.ldgReport = (s, 9) := if_pos h

theorem ldgReport_noKey (h : s.flag LDG_FLAGS_READY = true) (hk : (s.slot 5).cur = none) : s.ldgReport = (s, 8) := by
  rw [ldgReport, h, if_neg (by decide), hk]
  rfl

theorem ldgReport_signs (h : s.flag LDG_FLAGS_READY = true) (hk : (s.slot 5).cur = some k) {w : List Byte} (hw : s.window (rLDG_DATA 0) 24 = w) :
    s.ldgReport = ((s.reportDrawn.windowPut (rLDG_DATA 0) 0 (s.reportBytes k w)).gapsCleared (reported w), 2) := by
  rw [ldgReport, h, if_neg (by decide), hk]
  simp only [hw, report_random]
  rfl

variable {w : List Byte}

theorem reportBody_parts (hw : w.length = 24) : 40 ≤ (s.reportBody w).length ∧ (s.reportBody w).take 4 = [0x4B, 0x51, 0x4C, 0x52] ∧
    slice (s.reportBody w) 8 16 = devUid ∧ slice (s.reportBody w) 24 16 = w.take 16 := by
  have htake : (w.take 16).length = 16 := by rw [List.length_take, hw]; rfl
  refine ⟨?_, ?_, ?_, ?_⟩
  · simp only [reportBody, ascii, List.length_append, List.length_map, leBytes_length, devUid_length, htake, List.length_cons, List.length_nil]
    omega
  · simp only [reportBody, List.append_assoc]
    rfl
  · refine slice_part (a := ascii [0x4B, 0x51, 0x4C, 0x52] ++ leBytes 2 1 ++ leBytes 2 (64 + 48 * (reported w).length + 96))
      (c := w.take 16 ++ (leBytes 4 ((s.ldgSeq + 1) % 2 ^ 32) ++ (leBytes 4 (s.fld LDG_CKPT_CTR_COUNT) ++ (leBytes 6 s.nowCt ++
        ([BitVec.ofNat 8 s.ldgFlags, BitVec.ofNat 8 (reported w).length] ++ (List.replicate 8 0 ++
          ((reported w).map s.ldgEntry).flatten)))))) ?_ ?_ devUid_length
    · simp only [reportBody, List.append_assoc]
    · simp only [ascii, List.length_append, List.length_map, leBytes_length, List.length_cons, List.length_nil]
  · refine slice_part (a := ascii [0x4B, 0x51, 0x4C, 0x52] ++ leBytes 2 1 ++ leBytes 2 (64 + 48 * (reported w).length + 96) ++ devUid)
      (c := leBytes 4 ((s.ldgSeq + 1) % 2 ^ 32) ++ (leBytes 4 (s.fld LDG_CKPT_CTR_COUNT) ++ (leBytes 6 s.nowCt ++
        ([BitVec.ofNat 8 s.ldgFlags, BitVec.ofNat 8 (reported w).length] ++ (List.replicate 8 0 ++
          ((reported w).map s.ldgEntry).flatten))))) ?_ ?_ htake
    · simp only [reportBody, List.append_assoc]
    · simp only [ascii, List.length_append, List.length_map, leBytes_length, devUid_length, List.length_cons, List.length_nil]

theorem slice_append_of_le {a : List Byte} (b : List Byte) {i n : Nat} (h : i + n ≤ a.length) : slice (a ++ b) i n = slice a i n := by
  rw [slice, slice, List.drop_append_of_le_length (by omega), List.take_append_of_le_length (by rw [List.length_drop]; omega)]

theorem reportBytes_parts (hw : w.length = 24) (k : KeyHalf) : 40 ≤ (s.reportBytes k w).length ∧
    (s.reportBytes k w).take 4 = [0x4B, 0x51, 0x4C, 0x52] ∧ slice (s.reportBytes k w) 8 16 = devUid ∧
    slice (s.reportBytes k w) 24 16 = w.take 16 := by
  obtain ⟨hlen, hmagic, huid, hnonce⟩ := reportBody_parts (s := s) hw
  rw [reportBytes]
  refine ⟨?_, (List.take_append_of_le_length (by omega)).trans hmagic, (slice_append_of_le _ (by omega)).trans huid,
    (slice_append_of_le _ (by omega)).trans hnonce⟩
  rw [List.length_append]
  omega

/-- What a report leaves in the ledger and its data window. -/
structure LdgReported (s t : State) : Prop where
  seq : t.ldgSeq = (s.ldgSeq + 1) % 2 ^ 32
  rest : { t with regs := s.regs, ldgSeq := s.ldgSeq, free := s.free } = s
  magic : t.window (rLDG_DATA 0) 4 = [0x4B, 0x51, 0x4C, 0x52]
  device : t.window (rLDG_DATA 2) 16 = devUid
  asked : t.window (rLDG_DATA 6) 16 = s.window (rLDG_DATA 0) 16
  gaps : ∀ c, c < 64 → t.flag (LDG_CH_STATE_GAP c) = (s.flag (LDG_CH_STATE_GAP c) && !bitOf (leNat (s.window (rLDG_DATA 4) 8)) c)

theorem data_ne_state {j : Nat} (h : c < 64) : rLDG_DATA 0 + j ≠ rLDG_CH_STATE c := by
  simp only [rLDG_DATA, rLDG_CH_STATE]
  omega

theorem reported_lt {d : Nat} (h : d ∈ reported w) : d < 64 := List.mem_range.mp (List.mem_filter.mp h).1

theorem mem_reported (hc : c < 64) : (decide (c ∈ reported w)) = bitOf (leNat (slice w 16 8)) c := by
  rw [Bool.eq_iff_iff]
  simp [reported, hc]

theorem report_shows (s : State) (k : KeyHalf) (hw : s.window (rLDG_DATA 0) 24 = w)
    (ht : t = ((s.reportDrawn.windowPut (rLDG_DATA 0) 0 (s.reportBytes k w)).gapsCleared (reported w)).ldgDone 2) : s.LdgReported t := by
  have hwlen : w.length = 24 := hw ▸ s.window_length _ 24
  obtain ⟨hlen, hmagic, huid, hnonce⟩ := reportBytes_parts (s := s) hwlen k
  have hput := windowPut_rest (rLDG_DATA 0) (s.reportBytes k w) s.reportDrawn 0
  have hreg {a : Nat} (ha : a < rLDG_DATA 0) := windowPut_reg (rLDG_DATA 0) (s.reportBytes k w) s.reportDrawn 0 (.inl ha)
  have hwin {j m : Nat} (h : 4 * j + m ≤ 40) := window_part (s := s.reportDrawn) (a := rLDG_DATA 0) (h.trans hlen)
  generalize s.reportDrawn.windowPut (rLDG_DATA 0) 0 (s.reportBytes k w) = u at *
  have hclr := u.gapsCleared_rest (reported w)
  have hdone := (u.gapsCleared (reported w)).ldgDone_onlyRegs 2
  rw [← ht] at hdone
  have hdrawn : { t with regs := s.regs } = s.reportDrawn := rest_trans (s := s.reportDrawn) hput (rest_trans hclr hdone.rest)
  have hwindow (j m : Nat) : t.window (rLDG_DATA 0 + 4 * j) m = u.window (rLDG_DATA 0 + 4 * j) m := window_congr fun i _ => by
    have hj : rLDG_DATA 0 + 4 * j + 4 * (i / 4) = rLDG_DATA 0 + 4 * (j + i / 4) := by omega
    rw [hj]
    exact (hdone.regs _ data_notCtl).trans (u.gapsCleared_reg fun c hc => data_ne_state (reported_lt hc))
  exact {
    seq := (congrArg State.ldgSeq hdrawn :)
    rest := (congrArg (fun x : State => { x with ldgSeq := s.ldgSeq, free := s.free }) hdrawn :)
    magic := ((hwindow 0 4).trans (hwin (j := 0) (by decide))).trans hmagic
    device := ((hwindow 2 16).trans (hwin (j := 2) (by decide))).trans huid
    asked := ((hwindow 6 16).trans (hwin (j := 6) (by decide))).trans (hnonce.trans (by rw [← hw]; exact window_take s _ (by decide)))
    gaps := fun c hc => by
      have hstate : rLDG_CH_STATE c ∈ chanRegs c := by simp [chanRegs]
      have hlow : rLDG_CH_STATE c < rLDG_DATA 0 := by
        simp only [rLDG_CH_STATE, rLDG_DATA]
        omega
      have hbits : slice w 16 8 = s.window (rLDG_DATA 4) 8 := by
        rw [← hw]
        exact slice_window s (rLDG_DATA 0) (j := 4) (by decide)
      have hu : u.flag (LDG_CH_STATE_GAP c) = s.flag (LDG_CH_STATE_GAP c) := congrArg (· == 1) (fld_of_reg (hreg hlow))
      have hflag : t.flag (LDG_CH_STATE_GAP c) = (u.gapsCleared (reported w)).flag (LDG_CH_STATE_GAP c) :=
        congrArg (· == 1) (hdone.fld (chan_notCtl hstate))
      rw [hflag, gapsCleared_flag, hu, mem_reported hc, hbits] }

theorem ldgReport_shows (hr : s.reaches .mc rLDG_CTL) (h : s.flag LDG_FLAGS_READY = true) (hk : (s.slot 5).cur = some k) :
    ∃ t, exec (.ldgReport .mc) s = .next t ∧ t.fld LDG_CTL_RESULT = 2 ∧ t.flag LDG_EVT_CMD_DONE = true ∧ s.LdgReported t := by
  obtain ⟨he, hres, hev⟩ := ldgCommand_ends hr (ldgReport_signs h hk rfl) (by decide)
  exact ⟨_, congrArg Host.Outcome.next he, hres, hev, report_shows s k rfl rfl⟩

theorem ledgerHoldExpire_due (hc : c < 64) (hh : s.flag (LDG_CH_STATE_HOLDING c) = true) (hd : s.ldgHoldDue c = true) :
    exec (.ledgerHoldExpire c) s = .next (s.ldgUnhold c) := congrArg Host.Outcome.next (if_pos ⟨hc, hh, hd⟩)

theorem ledgerHoldExpire_idle (h : 64 ≤ c ∨ s.flag (LDG_CH_STATE_HOLDING c) = false ∨ s.ldgHoldDue c = false) :
    exec (.ledgerHoldExpire c) s = .next s := by
  refine congrArg Host.Outcome.next (if_neg ?_)
  rintro ⟨hc, hh, hd⟩
  obtain h | h | h := h
  · omega
  · exact absurd hh (by simp [h])
  · exact absurd hd (by simp [h])

theorem meteringRecord_empty (h : s.ldgQ = []) : exec .meteringRecord s = .next s := congrArg Host.Outcome.next (by rw [h])

/-- The commands of LDG_CTL are those of the ledger. -/
theorem ledger_host {r : Requester} {i : Instr} (hi : i ∈ [Instr.ldgRestore r, .ldgFresh r, .ldgSeal r, .ldgReport r]) :
    ∃ act, ∀ s, exec i s = .next (s.ldgCommand r act) := by
  simp only [List.mem_cons, List.not_mem_nil, or_false] at hi
  obtain rfl | rfl | rfl | rfl := hi
  exacts [⟨_, fun _ => rfl⟩, ⟨_, fun _ => rfl⟩, ⟨_, fun _ => rfl⟩, ⟨_, fun _ => rfl⟩]

end
end State

open State in
/-- Settles O51. A record stops at the first check that it fails; a command of LDG_CTL ends in `ldgDone`, and what it changes before stands in
registers of the channels, in the flags and in the data window, which are apart. -/
theorem ledgerRecordsAndCommands : Obligations.LedgerRecordsAndCommands := by
  unfold Obligations.LedgerRecordsAndCommands
  refine ⟨fun s x q b k c => ⟨meteringRecord_empty, fun hq hb => ⟨fun hr => meteringRecord_notReady hq hr,
      fun hr hf => meteringRecord_unknown hq hb hr hf, fun hr hv hf => ⟨fun hk => meteringRecord_noKey hq hb hr hv hf hk,
        fun hk ht => meteringRecord_badTag hq hb hr hv hf hk ht, fun hk ht => ⟨fun hfr hs => meteringRecord_replay hq hb hr hv hf hk ht hfr hs,
          fun hs => ?accepts⟩⟩⟩, fun hc hh hd => ⟨_, ledgerHoldExpire_due hc hh hd, s.ldgUnhold_shows hc⟩, ledgerHoldExpire_idle⟩,
    fun s r b k => ⟨fun hr => ⟨?fresh, fun hready => ?seals, fun hready => ⟨ldgCommand_refused hr (ldgSealCmd_notReady hready) (by decide),
        ldgCommand_refused hr (ldgReport_notReady hready) (by decide)⟩, fun hb => ⟨fun hbad => ldgRestore_refused hr (ldgRestore_bad hb hbad) (by decide),
          fun hm ht => ⟨fun ha hc => ldgRestore_refused hr (ldgRestore_stale hb ⟨hm, ht⟩ ha hc) (by decide), fun hc => ?restore⟩⟩,
        fun hready hk => ldgCommand_refused hr (ldgReport_noKey hready hk) (by decide), fun hready hk => ?report⟩,
      fun hready hl => ?timer, ckptTimer_idle, fun i hi hh hu hp => ?host⟩⟩
  case accepts =>
    obtain ⟨t, he, hq', htaken, hact, hidle⟩ := meteringRecord_accepts hq hb hr hv hf hk ht hs
    exact ⟨t, he, hq', htaken.charged, htaken.discharged, htaken.seq, htaken.known, htaken.gap, htaken.noGap, hact, hidle⟩
  case fresh =>
    obtain ⟨t, he, hres, hev, hready, hfresh, hpor, hrest, hchan⟩ := ldgFresh_shows hr
    exact ⟨t, he, hres, hev, hready, hfresh, hpor, hrest, fun c hc => ⟨(hchan c hc).fresh, (hchan c hc).gap, (hchan c hc).charged,
      (hchan c hc).discharged, (hchan c hc).seq, (hchan c hc).gaps, (hchan c hc).authFails, (hchan c hc).replays, (hchan c hc).holding⟩⟩
  case seals =>
    obtain ⟨t, he, hres, hev, h⟩ := ldgSeal_shows hr hready
    exact ⟨t, he, hres, hev, h.event, h.valid, h.counter, h.rest, h.window⟩
  case restore =>
    obtain ⟨t, he, hres, hready, hev, hctr, hseq, hrest, hpor, hfresh, hchan⟩ := ldgRestore_shows hr hb ⟨hm, ht⟩ hc
    refine ⟨t, he, hres, hready, hev, hctr, hseq, hrest, hpor, hfresh, fun c hc => ⟨(hchan c hc).seq.trans ?_, (hchan c hc).charged.trans ?_,
      (hchan c hc).discharged.trans ?_, (hchan c hc).gap.trans ?_, (hchan c hc).fresh.trans ?_⟩⟩
    · rw [slice_entry b (by decide)]
    · rw [slice_entry b (by decide)]
    · rw [slice_entry b (by decide)]
    · rw [byteAt_entry]
    · rw [byteAt_entry]
  case report =>
    obtain ⟨t, he, hres, hev, h⟩ := ldgReport_shows hr hready hk
    exact ⟨t, he, hres, hev, h.seq, h.rest, h.magic, h.device, h.asked, h.gaps⟩
  case timer =>
    have h := s.ldgSeal_checkpointed
    obtain ⟨c, hw, hlen, -⟩ := h.window
    exact ⟨_, ckptTimer_seals hready hl, h.counter, h.valid, h.event, h.rest, c, hw, hlen⟩
  case host =>
    obtain ⟨act, hact⟩ := ledger_host hi
    exact ⟨_, hact s, ldgCommand_host hh hu hp act⟩

end Sys2Proof.Machine
end

section
/-! PROOFS. TABLE and KEY of a tenant: O60. -/

namespace Sys2Proof.Machine

namespace State

section
variable {s s1 : State} {tn ri tag code n : Nat} {reg : Region} {c : TenCmd}

/-! ## TABLE (R495) -/

theorem tenTable_busy (h : s.flag (TBL_CMD_BUSY .A) = true) : exec (.tenTable tn) s = .next s := congrArg Host.Outcome.next (if_pos h)

theorem tenTable_runs (hb : s.flag (TBL_CMD_BUSY .A) = false) (hrun : s.RunsCmd tn 1 c) : exec (.tenTable tn) s = .next (s.tenTableCmd tn c) :=
  congrArg Host.Outcome.next ((if_neg (by simp [hb])).trans (hrun.tenRun_eq _))

theorem tenTableCmd_foreign (h : (s.tenTags tn).contains (c.opd 16 1) = false) : s.tenTableCmd tn c = s.tenEnd tn c 2 [] := if_pos h

/-- A tag of the tenant with a region of wide keys: the engine does what the operation asks. -/
theorem tenTableCmd_asks (htag : (s.tenTags tn).contains (c.opd 16 1) = true) (hri : (s.plane s.engine).regionOfTag (c.opd 16 1) = some ri)
    (hreg : (s.plane s.engine).region ri = some reg) (hwide : reg.wide = true) (hop : 1 ≤ c.opd 8 1 ∧ c.opd 8 1 ≤ 4)
    (hw : c.opd 8 1 = 4 ∨ s.anyWriter = true) (hres : c.opd 8 1 = 1 ∨ c.opd 8 1 = 2 → s.tenResultOk tn (c.opd 56 8) = true) :
    s.tenTableCmd tn c = s.tenTblOp tn c ri reg (c.opd 8 1) (beNat (slice c.entry 16 40)) (c.opd 56 8) (bitOf (c.opd 9 1) 0) := by
  have hden : ¬ ((c.opd 8 1 = 1 ∨ c.opd 8 1 = 2) ∧ s.tenResultOk tn (c.opd 56 8) = false) := by
    rintro ⟨h, hbad⟩
    rw [hres h] at hbad
    cases hbad
  have hplane : ¬ (c.opd 8 1 ≠ 4 ∧ s.anyWriter = false) := by
    rintro ⟨h, hno⟩
    rw [hw.resolve_left h] at hno
    cases hno
  rw [tenTableCmd, if_neg (by simp only [htag, Bool.true_eq_false, not_false_eq_true]), if_neg hden, if_neg (by omega), hri]
  simp only [hreg, hwide, Bool.true_eq_false, false_and, if_false, if_neg hplane, if_true]

theorem tenTblOp_found {key result : Nat} {pin : Bool} {b i : Nat} {x : Slot} (h : s.tblWouldTake s.engine reg key = some (b, i, x)) :
    s.tenTblOp tn c ri reg 4 key result pin = s.tenEnd tn c 0 ([BitVec.ofNat 8 tsOK, 0, 0, 0] ++ leBytes 8 x.result) := by
  simp only [tenTblOp, h, tblEnd, true_or, if_true]

theorem tenTblOp_missed {key result : Nat} {pin : Bool} (h : s.tblWouldTake s.engine reg key = none) :
    s.tenTblOp tn c ri reg 4 key result pin = s.tenEnd tn c 4 [BitVec.ofNat 8 tsNOTFOUND] := by
  simp only [tenTblOp, h, unitError]

theorem tenTblOp_deletes {key result : Nat} {pin : Bool} (h : s.tblDeleteKey ri reg key = (s1, code)) :
    s.tenTblOp tn c ri reg 3 key result pin = s1.tblEnd tn c code [] := by
  simp only [tenTblOp, h]

theorem tenTblOp_replaces {key result : Nat} {pin : Bool} (h : s.tblReplaceKey ri reg key result pin = (s1, code)) :
    s.tenTblOp tn c ri reg 2 key result pin = s1.tblEnd tn c code [] := by
  simp only [tenTblOp, h]

theorem tenTblOp_inserts {key result : Nat} {pin : Bool} {x : Option (Nat × Nat)} (h : s.tblInsertKey ri reg key result pin = (s1, code, x))
    (hroom : s1.emOwned tn ≤ s.tenLimEM tn ∨ s1.emOwned tn ≤ s.emOwned tn) :
    s.tenTblOp tn c ri reg 1 key result pin = s1.tblEnd tn c code [] := by
  simp only [tenTblOp, h]
  exact if_neg (by omega)

theorem tenTblOp_overLimit {key result : Nat} {pin : Bool} {x : Option (Nat × Nat)} (h : s.tblInsertKey ri reg key result pin = (s1, code, x))
    (hlim : s.tenLimEM tn < s1.emOwned tn) (hmore : s.emOwned tn < s1.emOwned tn) (hcode : code = tsOK ∨ code = tsREPLACED) :
    s.tenTblOp tn c ri reg 1 key result pin = s.tenEnd tn c 3 [] := by
  simp only [tenTblOp, h]
  exact if_pos ⟨hcode, hlim, hmore⟩

/-- A command that only ends, by its outcome. -/
theorem ends_only {o : Host.Outcome State Fault Refusal} (hc : c ∈ (s.ten tn).cmds) {status : Nat} {data : List Byte}
    (h : o = .next (s.tenEnd tn c status data)) :
    ∃ t, o = .next t ∧ s.TenEnds t tn c status data ∧ { t with tenants := s.tenants } = s :=
  ⟨_, h, tenEnd_only hc status data⟩

/-! ## KEY (R415) -/

theorem tenKey_busy (h : s.flag BLF_CMD_BUSY = true) : exec (.tenKey tn) s = .next s := congrArg Host.Outcome.next (if_pos h)

theorem tenKey_runs (hb : s.flag BLF_CMD_BUSY = false) (hrun : s.RunsCmd tn 4 c) : exec (.tenKey tn) s = .next (s.tenKeyCmd tn c) :=
  congrArg Host.Outcome.next ((if_neg (by simp [hb])).trans (hrun.tenRun_eq _))

theorem key_current (hp : c.opd 9 1 % 2 = 0) : bitOf (c.opd 9 1) 0 = false := by simp [bitOf, hp]

theorem keySlot_named (s : State) (hlt : n < 1024) : s.keySlot 1 n false = (s, n) := if_neg (by omega)

theorem keyOwn_empty (h16 : 16 ≤ n) (hlt : n < 1024) (hc : (s.slot n).cur = none) : s.keyOwn tn n true = true := by simp [keyOwn, hc, h16, hlt]

/-- The bytes that a KEY brings, filled up to Belfry's data window. -/
def keyData (s : State) (tn : Nat) (c : TenCmd) : List Byte :=
  let given := if c.opd 24 2 = 0 then [] else s.dmaRead tn (c.opd 16 8) (min (c.opd 24 2) 4096)
  given ++ List.replicate (4096 - given.length) 0

/-- What a tenant asks Belfry for with a GENERATE. -/
def genRequest (s : State) (tn : Nat) (c : TenCmd) (n : Nat) : BlfReq := ⟨tn, n, false, bitOf (c.opd 9 1) 1, c.opd 14 1, c.opd 15 1,
  c.opd 12 2 % 1024, c.opd 12 2 + 2 ^ 16 * c.opd 15 1, s.keyData tn c⟩

section
variable (hop : c.opd 8 1 = 1) (hp : c.opd 9 1 % 2 = 0) (hn : n = c.opd 10 2) (h16 : 16 ≤ n) (hlt : n < 1024)

include hop hp hn hlt

theorem tenKeyCmd_generates : s.tenKeyCmd tn c =
    if s.keyOwn tn n true = false then s.tenEnd tn c 2 []
    else if (s.slot n).cur.isNone ∧ s.fld (TNW_REQ2_KEY tn) < s.tenKeys tn + 1 then s.tenEnd tn c 3 []
    else keyEnd tn c n (s.unstaged.blfGen (s.genRequest tn c n)) := by
  have hne : n ≠ 0xFFFF := by omega
  rw [tenKeyCmd, hop, key_current hp, ← hn, keySlot_named s hlt]
  simp [keyFills, hne, keyOp, genRequest, keyData, unstaged]

theorem tenKeyCmd_foreign (htn : tn < 64) (hc : (s.slot n).cur.isSome = true) (ho : (s.slot n).owner ≠ tn) : s.tenKeyCmd tn c = s.tenEnd tn c 2 [] := by
  have hown : s.keyOwn tn n true = false := by simp [keyOwn, mayUse, hc, ho, ownFIRMWARE, Nat.ne_of_lt htn]
  rw [tenKeyCmd_generates hop hp hn hlt, if_pos hown]

include h16

theorem tenKeyCmd_overLimit (hc : (s.slot n).cur = none) (hq : s.fld (TNW_REQ2_KEY tn) < s.tenKeys tn + 1) : s.tenKeyCmd tn c = s.tenEnd tn c 3 [] := by
  rw [tenKeyCmd_generates hop hp hn hlt, if_neg (by simp [keyOwn_empty h16 hlt hc]), if_pos ⟨by rw [hc]; rfl, hq⟩]

/-- A key of the tenant made in an empty slot. -/
theorem tenKeyCmd_makes (hc : (s.slot n).cur = none) (hq : s.tenKeys tn + 1 ≤ s.fld (TNW_REQ2_KEY tn))
    (hok : isAes (c.opd 14 1) = true ∨ isPriv (c.opd 14 1) = true) (hu : bitOf (c.opd 15 1) 7 = false) :
    s.tenKeyCmd tn c = ((({ s.unstaged with free := s.free + keyLen (c.opd 14 1) } : State).setSlot n { s.slot n with
      cur := some (s.drawnKey (c.opd 14 1) (c.opd 15 1) (bitOf (c.opd 9 1) 1)), owner := tn }).tenEnd tn c 0
        ([1, 0, 0, 0] ++ leBytes 2 n ++ leBytes 2 0)) := by
  have hfree : s.unstaged.blfAlter (s.genRequest tn c n) = none := by
    rw [blfAlter, if_neg (by simp only [genRequest]; omega), if_pos (.inr (.inl (by rw [unstaged_slot]; simp [genRequest, hc])))]
  rw [tenKeyCmd_generates hop hp hn hlt, if_neg (by simp [keyOwn_empty h16 hlt hc]), if_neg (by omega),
    blfGen_new hfree rfl (by rw [unstaged_slot]; exact hc) hok hu]
  simp only [keyEnd, unstaged_drawnKey, unstaged_slot, genRequest]
  simp [bsOK, bsORPHANED]
  rfl

end


/-- The slot of a key made. -/
def keyPut (s : State) (f n : Nat) (x : SlotSt) : State := ({ s.unstaged with free := f } : State).setSlot n x

theorem keyPut_frame (s : State) (f n : Nat) (x : SlotSt) : { s.keyPut f n x with blf := s.blf, free := s.free } = s := rfl

theorem keyPut_slots (s : State) (f : Nat) (h16 : 16 ≤ n) (x : SlotSt) : (s.keyPut f n x).slot n = x ∧
    ∀ m, m ≠ n → (s.keyPut f n x).slot m = s.slot m :=
  ⟨slot_setSlot_self _ (by omega) x, fun _ hm => slot_setSlot_ne _ hm x⟩

theorem tenEnd_slot (s : State) (tn : Nat) (c : TenCmd) (status : Nat) (data : List Byte) (n : Nat) :
    (s.tenEnd tn c status data).slot n = s.slot n := rfl

theorem ended_frame {t : State} (h : { t with blf := s.blf, free := s.free } = s) (tn : Nat) (c : TenCmd) (status : Nat) (data : List Byte) :
    { t.tenEnd tn c status data with tenants := s.tenants, blf := s.blf, free := s.free } = s :=
  (congrArg (fun u : State => { u with tenants := s.tenants }) h :)

theorem key_made (hc : c ∈ (s.ten tn).cmds) (f : Nat) (x : SlotSt) (h16 : 16 ≤ n) {data : List Byte} {t : State}
    (ht : t = (s.keyPut f n x).tenEnd tn c 0 data) : s.TenEnds t tn c 0 data ∧ t.slot n = x ∧
      (∀ m, m ≠ n → t.slot m = s.slot m) ∧ t.blf.staged = none ∧ t.free = f ∧
      { t with tenants := s.tenants, blf := s.blf, free := s.free } = s := by
  have hframe := s.keyPut_frame f n x
  obtain ⟨hself, hother⟩ := s.keyPut_slots f h16 x
  have hstaged : (s.keyPut f n x).blf.staged = none := rfl
  have hfree : (s.keyPut f n x).free = f := rfl
  generalize s.keyPut f n x = u at *
  subst ht
  exact ⟨tenEnds_after (congrArg Tenant.cmds (ten_congr (congrArg State.tenants hframe) tn)) hc 0 data, hself, hother, hstaged, hfree,
    ended_frame hframe tn c 0 data⟩

end
end State

open State in
/-- Settles O60. Each command is the oldest fetched one of its opcode; the checks of its unit stand in order, and the engine's or Belfry's own
operation is named by the equation of the check that it passes. -/
theorem tenantTableAndKeys : Obligations.TenantTableAndKeys := by
  unfold Obligations.TenantTableAndKeys
  intro s tn op tag ri n alg usage reg c htn hlive
  refine ⟨tenTable_busy, fun hb hfind hop htag => ?_, tenKey_busy, fun hb hfind hop hp hn h16 hlt halg husage => ?_⟩
  · subst hop htag
    have hrun : s.RunsCmd tn 1 c := ⟨hlive, hfind⟩
    rw [tenTable_runs hb hrun]
    refine ⟨fun h => ends_only hrun.mem (congrArg _ (tenTableCmd_foreign h)), fun htag hri hreg hwide => ?_⟩
    refine ⟨fun hop b i x hx => ?_, fun hop hx => ?_, fun hop hw s1 code hs1 => ?_, fun hop hw hres s1 code hs1 => ?_,
      fun hop hw hres s1 code x hs1 => ?_⟩
    · rw [tenTableCmd_asks htag hri hreg hwide (by omega) (.inl hop) (by omega), hop]
      exact ends_only hrun.mem (congrArg _ (tenTblOp_found hx))
    · rw [tenTableCmd_asks htag hri hreg hwide (by omega) (.inl hop) (by omega), hop]
      exact ends_only hrun.mem (congrArg _ (tenTblOp_missed hx))
    · rw [tenTableCmd_asks htag hri hreg hwide (by omega) (.inr hw) (by omega), hop, tenTblOp_deletes hs1]
    · rw [tenTableCmd_asks htag hri hreg hwide (by omega) (.inr hw) (fun _ => hres), hop, tenTblOp_replaces hs1]
    · rw [tenTableCmd_asks htag hri hreg hwide (by omega) (.inr hw) (fun _ => hres), hop]
      exact ⟨fun hroom => congrArg _ (tenTblOp_inserts hs1 hroom), fun hlim hmore hcode =>
        ends_only hrun.mem (congrArg _ (tenTblOp_overLimit hs1 hlim hmore hcode))⟩
  · subst halg husage
    have hrun : s.RunsCmd tn 4 c := ⟨hlive, hfind⟩
    rw [tenKey_runs hb hrun]
    refine ⟨fun hc ho => ends_only hrun.mem (congrArg _ (tenKeyCmd_foreign hop hp hn hlt htn hc ho)),
      fun hc hq => ends_only hrun.mem (congrArg _ (tenKeyCmd_overLimit hop hp hn h16 hlt hc hq)), fun hc hq hok hu => ?_⟩
    exact ⟨_, rfl, key_made hrun.mem (s.free + keyLen (c.opd 14 1)) _ h16 (tenKeyCmd_makes hop hp hn h16 hlt hc hq hok hu)⟩

end Sys2Proof.Machine
end

section
/-! SUPPORT. Vectors, commands fetched and completions written of a tenant (R494, R500, R501). -/

namespace Sys2Proof.Machine

theorem find?_first {α : Type} {p : α → Bool} {f : Nat → α} {d k : Nat} (hd : d < k) (hp : p (f d) = true) (h : ∀ i < d, p (f i) = false) :
    ((List.range k).map f).find? p = some (f d) := by
  rw [List.find?_map, Option.map_eq_some_iff]
  refine ⟨d, List.find?_range_eq_some.mpr ⟨hp, List.mem_range.mpr hd, fun i hi => ?_⟩, rfl⟩
  simp [h i hi]

namespace State

section
variable {s t : State} {tn v d head size tail : Nat} {x : Tenant} {e ent : List Byte} {ev : Bool}

/-! ## Whose turn it is (R494) -/

theorem commandFetch_idle (h : s.cmdNext ≠ some tn) : exec (.commandFetch tn) s = .next s := congrArg Host.Outcome.next (if_neg h)

theorem cmdNext_ready (h : s.cmdNext = some tn) : s.cmdReady tn = true := List.find?_some (p := s.cmdReady) h

theorem commandFetch_notReady (h : s.cmdReady tn = false) : exec (.commandFetch tn) s = .next s :=
  commandFetch_idle fun hn => by rw [cmdNext_ready hn] at h; cases h

/-- The turn comes to the first tenant from the one served last that has an entry. -/
theorem cmdNext_first (hd : d < 64) (hr : s.cmdReady ((s.cmdTurn + 1 + d) % 64) = true) (h : ∀ i < d, s.cmdReady ((s.cmdTurn + 1 + i) % 64) = false) :
    s.cmdNext = some ((s.cmdTurn + 1 + d) % 64) := find?_first (f := fun i => (s.cmdTurn + 1 + i) % 64) hd hr h

theorem commandFetch_later (hd : d < 64) (htn : tn = (s.cmdTurn + 1 + d) % 64) (hv : v < d) (hr : s.cmdReady ((s.cmdTurn + 1 + v) % 64) = true) :
    exec (.commandFetch tn) s = .next s := by
  classical
  have hex : ∃ i, s.cmdReady ((s.cmdTurn + 1 + i) % 64) = true := ⟨v, hr⟩
  have hle := Nat.find_min' hex hr
  refine commandFetch_idle ?_
  rw [cmdNext_first (by omega) (Nat.find_spec hex) fun i hi => by simpa using Nat.find_min hex hi]
  intro h
  have := Option.some.inj h
  omega

theorem cmdReady_false (h : s.tenInband tn = true ∨ s.tenLive tn = false ∨ s.flag (TNW_CMDQ_CFG_EN tn) = false ∨
    s.fld (TNW_CMDQ_HEAD_HEAD tn) % s.cmdSize tn = s.fld (TNW_CMDQ_TAIL_TAIL tn) % s.cmdSize tn ∨ s.cmdRoom tn = false) : s.cmdReady tn = false := by
  rw [cmdReady]
  obtain h | h | h | h | h := h <;> simp [h]

theorem cmdReady_true (hi : s.tenInband tn = false) (hl : s.tenLive tn = true) (hen : s.flag (TNW_CMDQ_CFG_EN tn) = true)
    (hne : s.fld (TNW_CMDQ_HEAD_HEAD tn) % s.cmdSize tn ≠ s.fld (TNW_CMDQ_TAIL_TAIL tn) % s.cmdSize tn) (hr : s.cmdRoom tn = true) :
    s.cmdReady tn = true := by
  simp [cmdReady, hi, hl, hen, hne, hr]

/-! ## A command entry of a ring -/

/-- A command entry as it comes in flight through the tenant's ring. -/
theorem ten_tenAccept_ring (hin : s.tenInband tn = false) (e : List Byte) :
    (s.tenAccept tn e).ten tn = { s.ten tn with cmds := (s.ten tn).cmds ++ [⟨e, leNat (slice e 2 2),
      if cmdFormed e = false ∨ (s.ten tn).cmds.any (fun c => c.id == leNat (slice e 2 2)) = true then .ended 0x01 [] else .fetched⟩] } := by
  unfold tenAccept
  simp only [ten_setTen_self, hin, Bool.false_eq_true, false_and, if_false]

def turned (s : State) (tn : Nat) : State := { s with cmdTurn := tn }

theorem turned_ten (s : State) (tn n : Nat) : (s.turned tn).ten n = s.ten n := rfl
theorem put_ten (s : State) (f : Fld) (v n : Nat) : (s.put f v).ten n = s.ten n := rfl
theorem tenAccept_reg (s : State) (tn : Nat) (e : List Byte) (a : Nat) : (s.tenAccept tn e).reg a = s.reg a := rfl
theorem tenAccept_turn (s : State) (tn : Nat) (e : List Byte) : (s.tenAccept tn e).cmdTurn = s.cmdTurn := rfl

theorem commandFetch_takes (hsize : size = 2 ^ s.fld (TNW_CMDQ_CFG_LOG2 tn)) (hhead : head = s.fld (TNW_CMDQ_HEAD_HEAD tn))
    (hnext : s.cmdNext = some tn) (hin : s.tenInband tn = false)
    (he : e = s.dmaRead tn (ringBase (s.fld64 (TNW_CMDQ_BASE_LO_BASE tn) (TNW_CMDQ_BASE_HI_BASE tn)) + 64 * (head % size)) 64) :
    ∃ t, exec (.commandFetch tn) s = .next t ∧ t.cmdTurn = tn ∧ t.fld (TNW_CMDQ_HEAD_HEAD tn) = (head + 1) % size % 2 ^ 10 ∧
      t.ten tn = { s.ten tn with cmds := (s.ten tn).cmds ++ [⟨e, leNat (slice e 2 2),
        if cmdFormed e = false ∨ (s.ten tn).cmds.any (fun c => c.id == leNat (slice e 2 2)) = true then .ended 0x01 [] else .fetched⟩] } ∧
      { t with regs := s.regs, tenants := s.tenants, cmdTurn := s.cmdTurn } = s ∧ s.RegsBut t [rTNW_CMDQ_HEAD tn] := by
  have hfetch : s.cmdFetch tn = ((s.turned tn).tenAccept tn e).put (TNW_CMDQ_HEAD_HEAD tn) ((head + 1) % size) := by
    subst hsize hhead he
    rfl
  have hten := ten_tenAccept_ring (s := s.turned tn) hin e
  have hframe : { s.turned tn with cmdTurn := s.cmdTurn } = s := rfl
  have hreg (a : Nat) : ((s.turned tn).tenAccept tn e).reg a = s.reg a := (s.turned tn).tenAccept_reg tn e a
  have hturn : ((s.turned tn).tenAccept tn e).cmdTurn = tn := (s.turned tn).tenAccept_turn tn e
  have haccept := (s.turned tn).tenAccept_frame tn e
  rw [turned_ten] at hten
  refine ⟨_, congrArg Host.Outcome.next ((if_pos hnext).trans hfetch), ?_⟩
  generalize (s.turned tn).tenAccept tn e = u at *
  refine ⟨hturn, fld_put_same _ (by decide : 0 + 10 ≤ 32), hten, ?_, fun a ha =>
    (reg_put_ne _ _ _ fun h => ha (List.mem_singleton.mpr h)).trans (hreg a)⟩
  exact (congrArg (fun x : State => { x with regs := s.regs, tenants := s.tenants, cmdTurn := s.cmdTurn }) haccept).trans hframe

/-! ## Vectors (R500) -/

/-- A vector sends. -/
def vecCleared (x : Tenant) (v : Nat) : Tenant := { x with
  events := tabDel x.events v
  cplEv := x.cplEv.filter (fun k => decide (k ≠ v))
  pba := x.pba.filter (fun k => decide (k ≠ v)) }

def msgSent (s : State) (m : HostMsg) : State := { s with hostMsgs := m :: s.hostMsgs }

theorem msgSent_ten (s : State) (m : HostMsg) (n : Nat) : (s.msgSent m).ten n = s.ten n := rfl

theorem msgSent_frame (s : State) (m : HostMsg) {u : State} (h : { u with tenants := s.tenants } = s) :
    { u.msgSent m with tenants := s.tenants, hostMsgs := s.hostMsgs } = s :=
  (congrArg (fun x : State => { x with hostMsgs := s.hostMsgs }) h :)

theorem vecSend_message (h : v ∈ (s.ten tn).unmasked) : s.vecSend tn v =
    (s.setTen tn { vecCleared (s.ten tn) v with modAt := tabPut (s.ten tn).modAt v s.clk }).msgSent (.msix tn v) := if_pos h

theorem vecSend_masked (h : v ∉ (s.ten tn).unmasked) : s.vecSend tn v =
    s.setTen tn { vecCleared (s.ten tn) v with pba := (vecCleared (s.ten tn) v).pba ++ [v] } := if_neg h

theorem vecCleared_shows (x : Tenant) (v : Nat) : tabGet 0 (vecCleared x v).events v = 0 ∧ v ∉ (vecCleared x v).cplEv ∧ v ∉ (vecCleared x v).pba :=
  ⟨congrArg (Option.getD · 0) (tabFind_tabDel_self _ _), by simp [vecCleared], by simp [vecCleared]⟩

/-- The message of a vector that is not masked. -/
theorem vecSend_sends (h : v ∈ (s.ten tn).unmasked) : (s.vecSend tn v).hostMsgs = .msix tn v :: s.hostMsgs ∧
    (s.vecSend tn v).ten tn = { vecCleared (s.ten tn) v with modAt := tabPut (s.ten tn).modAt v s.clk } ∧
    { s.vecSend tn v with tenants := s.tenants, hostMsgs := s.hostMsgs } = s := by
  rw [vecSend_message h, msgSent_ten, ten_setTen_self]
  exact ⟨rfl, rfl, msgSent_frame s _ (s.setTen_frame tn _)⟩

theorem vecSend_holds (h : v ∉ (s.ten tn).unmasked) : (s.vecSend tn v).hostMsgs = s.hostMsgs ∧
    (s.vecSend tn v).ten tn = { vecCleared (s.ten tn) v with pba := (vecCleared (s.ten tn) v).pba ++ [v] } ∧
    { s.vecSend tn v with tenants := s.tenants, hostMsgs := s.hostMsgs } = s := by
  rw [vecSend_masked h]
  exact ⟨rfl, ten_setTen_self s tn _, rfl⟩

theorem vectorSend_sends (ha : s.tenIs tn .active = true) (hv : v < s.fld (TNW_REQ0_VEC tn)) (he : 0 < tabGet 0 (s.ten tn).events v)
    (hd : s.vecDue tn v = true) : ∃ t, exec (.vectorSend tn v) s = .next t ∧ tabGet 0 (t.ten tn).events v = 0 ∧ v ∉ (t.ten tn).cplEv ∧
      { t with tenants := s.tenants, hostMsgs := s.hostMsgs } = s ∧
      (v ∈ (s.ten tn).unmasked → t.hostMsgs = .msix tn v :: s.hostMsgs ∧ v ∉ (t.ten tn).pba ∧ tabGet 0 (t.ten tn).modAt v = s.clk) ∧
      (v ∉ (s.ten tn).unmasked → t.hostMsgs = s.hostMsgs ∧ v ∈ (t.ten tn).pba) := by
  have hexec : exec (.vectorSend tn v) s = .next (s.vecSend tn v) := congrArg Host.Outcome.next (if_pos ⟨ha, hv, he, hd⟩)
  obtain ⟨hev, hcpl, hpba⟩ := vecCleared_shows (s.ten tn) v
  by_cases hm : v ∈ (s.ten tn).unmasked
  · obtain ⟨hmsg, hten, hframe⟩ := vecSend_sends hm
    refine ⟨_, hexec, ?_⟩
    rw [hten]
    exact ⟨hev, hcpl, hframe, fun _ => ⟨hmsg, hpba, tabGet_tabPut_self ..⟩, fun h => absurd hm h⟩
  · obtain ⟨hmsg, hten, hframe⟩ := vecSend_holds hm
    refine ⟨_, hexec, ?_⟩
    rw [hten]
    exact ⟨hev, hcpl, hframe, fun h => absurd h hm, fun _ => ⟨hmsg, List.mem_append_right _ List.mem_cons_self⟩⟩

theorem vectorSend_idle (h : s.tenIs tn .active = false ∨ s.fld (TNW_REQ0_VEC tn) ≤ v ∨ tabGet 0 (s.ten tn).events v = 0 ∨ s.vecDue tn v = false) :
    exec (.vectorSend tn v) s = .next s := by
  refine congrArg Host.Outcome.next (if_neg ?_)
  rintro ⟨ha, hv, he, hd⟩
  obtain h | h | h | h := h
  · rw [ha] at h
    cases h
  · omega
  · omega
  · rw [hd] at h
    cases h

/-- A vector that the host has unmasked. -/
def vecUnmasked (s : State) (tn v : Nat) : State := s.setTen tn { s.ten tn with
  unmasked := if v ∈ (s.ten tn).unmasked then (s.ten tn).unmasked else (s.ten tn).unmasked ++ [v] }

theorem msixUnmask_eq (s : State) (tn v : Nat) : exec (.msixUnmask tn v) s = .next (if v ∈ (s.ten tn).pba ∧ s.tenIs tn .active = true ∧
    v < s.fld (TNW_REQ0_VEC tn) then (s.vecUnmasked tn v).vecSend tn v else s.vecUnmasked tn v) := rfl

theorem mem_vecUnmasked (s : State) (tn v : Nat) : v ∈ ((s.vecUnmasked tn v).ten tn).unmasked := by
  rw [vecUnmasked, ten_setTen_self]
  dsimp only
  split
  · assumption
  · exact List.mem_append_right _ List.mem_cons_self

theorem msixUnmask_shows (s : State) (tn v : Nat) : ∃ t, exec (.msixUnmask tn v) s = .next t ∧ v ∈ (t.ten tn).unmasked ∧
    { t with tenants := s.tenants, hostMsgs := s.hostMsgs } = s ∧ (v ∉ (s.ten tn).pba → t.hostMsgs = s.hostMsgs) ∧
    (v ∈ (s.ten tn).pba → s.tenIs tn .active = true → v < s.fld (TNW_REQ0_VEC tn) →
      t.hostMsgs = .msix tn v :: s.hostMsgs ∧ v ∉ (t.ten tn).pba) := by
  have hmem := s.mem_vecUnmasked tn v
  have hframe : { s.vecUnmasked tn v with tenants := s.tenants, hostMsgs := s.hostMsgs } = s := rfl
  have hmsgs : (s.vecUnmasked tn v).hostMsgs = s.hostMsgs := rfl
  refine ⟨_, s.msixUnmask_eq tn v, ?_⟩
  generalize s.vecUnmasked tn v = u at *
  split
  · next h =>
    obtain ⟨hsent, hten, hkeep⟩ := vecSend_sends hmem
    rw [hten, hsent, hmsgs]
    exact ⟨hmem, (congrArg (fun x : State => { x with tenants := s.tenants, hostMsgs := s.hostMsgs }) hkeep).trans hframe,
      fun hn => absurd h.1 hn, fun _ _ _ => ⟨rfl, (vecCleared_shows _ v).2.2⟩⟩
  · next h => exact ⟨hmem, hframe, fun _ => hmsgs, fun hp ha hv => absurd ⟨hp, ha, hv⟩ h⟩

end
end State
end Sys2Proof.Machine
end

section
/-! PROOFS. The command, completion and transmit rings of a tenant, and its vectors: O58. -/

namespace Sys2Proof.Machine

theorem memLe_one_lt (m : Mem) (a : Nat) : memLe m a 1 < 256 := by
  rw [memLe, memLe]
  have hbyte := (memGet m a).isLt
  omega

namespace State

section
variable {s t u s1 : State} {tn v h tail ring : Nat} {x : Tenant} {e ent : List Byte} {ev ok : Bool} {q : Ring}

/-! ## Events of a vector (R500, R501) -/

/-- What the wake of a tenant that is not in-band may touch. -/
structure WakeOnly (s t : State) (tn : Nat) : Prop where
  regs : t.regs = s.regs
  host0 : t.host0 = s.host0
  host1 : t.host1 = s.host1
  events : (t.ten tn).events = (s.ten tn).events
  same : s.tenIs tn .doze = false → t = s

theorem dozeWake_awake (h : s.tenIs tn .doze = false) : s.dozeWake tn = s := if_pos (.inl h)

theorem dozeWake_only (hin : s.tenInband tn = false) : s.WakeOnly (s.dozeWake tn) tn := by
  by_cases hstop : s.tenIs tn .doze = false ∨ s.flag (HST_TN_STATE_WOC tn) = false ∨ (s.ten tn).woken = true
  · rw [dozeWake, if_pos hstop]
    exact ⟨rfl, rfl, rfl, rfl, fun _ => rfl⟩
  · have hdoze : s.tenIs tn .doze = false → s.dozeWake tn = s := fun hn => absurd (.inl hn) hstop
    have hten : ((s.setTen tn { s.ten tn with woken := true }).ten tn).events = (s.ten tn).events := by rw [ten_setTen_self]
    rw [dozeWake, if_neg hstop] at hdoze ⊢
    simp only [hin, Bool.false_eq_true, if_false] at hdoze ⊢
    split at hdoze
    · next hpin =>
      rw [if_pos hpin]
      exact ⟨rfl, rfl, rfl, hten, hdoze⟩
    · next hpin =>
      rw [if_neg hpin]
      exact ⟨rfl, rfl, rfl, hten, hdoze⟩

/-- One more event of a vector noted. -/
def evNoted (x : Tenant) (v : Nat) (cpl : Bool) : Tenant := { x with
  events := tabPut x.events v (tabGet 0 x.events v + 1)
  cplEv := if cpl = true ∧ v ∉ x.cplEv then x.cplEv ++ [v] else x.cplEv }

theorem vecEvent_quiet (hq : (s.ten tn).quiet = true) (v : Nat) (cpl : Bool) : s.vecEvent tn v cpl = s := if_pos hq

theorem vecEvent_counts (hq : (s.ten tn).quiet = false) (v : Nat) : s.vecEvent tn v false = s.setTen tn (evNoted (s.ten tn) v false) :=
  if_neg (by simp [hq])

theorem vecEvent_wakes (hq : (s.ten tn).quiet = false) (v : Nat) : s.vecEvent tn v true = (s.setTen tn (evNoted (s.ten tn) v true)).dozeWake tn :=
  if_neg (by simp [hq])

theorem evNoted_event (x : Tenant) (v : Nat) (cpl : Bool) : tabGet 0 (evNoted x v cpl).events v = tabGet 0 x.events v + 1 := tabGet_tabPut_self ..

theorem vecEvent_false_frame (s : State) (tn v : Nat) : { s.vecEvent tn v false with tenants := s.tenants } = s := by
  cases hq : (s.ten tn).quiet with
  | true => rw [vecEvent_quiet hq]
  | false => rw [vecEvent_counts hq]; rfl

/-! ## Completions (R494) -/

theorem completionWrite_serves (h : s.tenLive tn = true ∨ s.tenIs tn .detaching = true) : exec (.completionWrite tn) s = .next (s.cplWrite tn) :=
  congrArg Host.Outcome.next (if_pos h)

theorem cplWrite_none (h : (s.ten tn).nextCpl = none) : s.cplWrite tn = s := by rw [cplWrite, h]

theorem cplWrite_quiet (h : (s.ten tn).nextCpl = some (x, ent, ev)) (hq : x.quiet = true) : s.cplWrite tn = s := by
  simp only [cplWrite, h, hq, if_true]

theorem completionWrite_idle (h : (s.tenLive tn = false ∧ s.tenIs tn .detaching = false) ∨ (s.ten tn).nextCpl = none ∨
    ((s.ten tn).nextCpl = some (x, ent, ev) ∧ x.quiet = true)) : exec (.completionWrite tn) s = .next s := by
  refine congrArg Host.Outcome.next ?_
  obtain ⟨hl, hd⟩ | h | ⟨h, hq⟩ := h
  · exact if_neg (by simp [hl, hd])
  · rw [cplWrite_none h, ite_self]
  · rw [cplWrite_quiet h hq, ite_self]

section
variable (hx : (s.ten tn).nextCpl = some (x, ent, ev)) (hq : x.quiet = false)
include hx hq

theorem cplWrite_full (hin : s.tenInband tn = false) (hroom : s.cplRoom tn = false) : s.cplWrite tn = s := by
  simp only [cplWrite, hx, hq, hin, hroom, Bool.false_eq_true, if_false, if_true]

/-- The completion's entry and TAIL, its tenant already without it. -/
def cplPut (s : State) (tn : Nat) (x : Tenant) (ent : List Byte) : State :=
  let tail := s.fld (TNW_CPLQ_TAIL_TAIL tn)
  let next := (tail + 1) % 2 ^ s.fld (TNW_CPLQ_CFG_LOG2 tn)
  ((s.setTen tn { x with phase := if next = 0 then !x.phase else x.phase }).dmaWrite tn
    (ringBase (s.fld64 (TNW_CPLQ_BASE_LO_BASE tn) (TNW_CPLQ_BASE_HI_BASE tn)) + 16 * tail) ent).put (TNW_CPLQ_TAIL_TAIL tn) next

theorem cplWrite_writes (hin : s.tenInband tn = false) (hroom : s.cplRoom tn = true) : s.cplWrite tn =
    if ev then (s.cplPut tn x ent).vecEvent tn (s.fld (TNW_CPLQ_CFG_VEC tn)) true else s.cplPut tn x ent := by
  simp only [cplWrite, hx, hq, hin, hroom, cplPut, Bool.false_eq_true, Bool.true_eq_false, if_false]

end

theorem dmaWrite_frame (s : State) (tn a : Nat) (bs : List Byte) : { s.dmaWrite tn a bs with host0 := s.host0, host1 := s.host1 } = s := by
  unfold dmaWrite
  split <;> rfl

theorem dmaWrite_hosts (s : State) (tn a : Nat) (bs : List Byte) :
    (bitOf (s.tenRec tn 2 1) 7 = false → (s.dmaWrite tn a bs).host1 = s.host1 ∧ (s.dmaWrite tn a bs).host0 = memPut s.host0 a bs) ∧
    (bitOf (s.tenRec tn 2 1) 7 = true → (s.dmaWrite tn a bs).host0 = s.host0 ∧ (s.dmaWrite tn a bs).host1 = memPut s.host1 a bs) := by
  refine ⟨fun h => ?_, fun h => ?_⟩
  · rw [dmaWrite_link0 h]
    exact ⟨rfl, rfl⟩
  · rw [dmaWrite_link1 h]
    exact ⟨rfl, rfl⟩

/-- What an entry written to the completion ring leaves. -/
structure CplPut (s t : State) (tn : Nat) (x : Tenant) (ent : List Byte) : Prop where
  tail : t.fld (TNW_CPLQ_TAIL_TAIL tn) = (s.fld (TNW_CPLQ_TAIL_TAIL tn) + 1) % 2 ^ s.fld (TNW_CPLQ_CFG_LOG2 tn) % 2 ^ 12
  ten : t.ten tn = { x with
    phase := if (s.fld (TNW_CPLQ_TAIL_TAIL tn) + 1) % 2 ^ s.fld (TNW_CPLQ_CFG_LOG2 tn) = 0 then !x.phase else x.phase }
  link0 : bitOf (s.tenRec tn 2 1) 7 = false → t.host1 = s.host1 ∧ t.host0 = memPut s.host0
    (ringBase (s.fld64 (TNW_CPLQ_BASE_LO_BASE tn) (TNW_CPLQ_BASE_HI_BASE tn)) + 16 * s.fld (TNW_CPLQ_TAIL_TAIL tn)) ent
  link1 : bitOf (s.tenRec tn 2 1) 7 = true → t.host0 = s.host0 ∧ t.host1 = memPut s.host1
    (ringBase (s.fld64 (TNW_CPLQ_BASE_LO_BASE tn) (TNW_CPLQ_BASE_HI_BASE tn)) + 16 * s.fld (TNW_CPLQ_TAIL_TAIL tn)) ent
  frame : { t with regs := s.regs, tenants := s.tenants, host0 := s.host0, host1 := s.host1 } = s
  regs : s.RegsBut t [rTNW_CPLQ_TAIL tn]

theorem cplPut_shows (s : State) (tn : Nat) (x : Tenant) (ent : List Byte) : s.CplPut (s.cplPut tn x ent) tn x ent := by
  rw [cplPut]
  have hframe := s.setTen_frame tn { x with
    phase := if (s.fld (TNW_CPLQ_TAIL_TAIL tn) + 1) % 2 ^ s.fld (TNW_CPLQ_CFG_LOG2 tn) = 0 then !x.phase else x.phase }
  have hten := s.ten_setTen_self tn { x with
    phase := if (s.fld (TNW_CPLQ_TAIL_TAIL tn) + 1) % 2 ^ s.fld (TNW_CPLQ_CFG_LOG2 tn) = 0 then !x.phase else x.phase }
  generalize s.setTen tn { x with
    phase := if (s.fld (TNW_CPLQ_TAIL_TAIL tn) + 1) % 2 ^ s.fld (TNW_CPLQ_CFG_LOG2 tn) = 0 then !x.phase else x.phase } = u at *
  have hrec : u.tenRec tn 2 1 = s.tenRec tn 2 1 := by rw [tenRec, tenRec, show u.active = s.active from (congrArg State.active hframe :)]
  have h0 : u.host0 = s.host0 := (congrArg State.host0 hframe :)
  have h1 : u.host1 = s.host1 := (congrArg State.host1 hframe :)
  have hregs : u.regs = s.regs := (congrArg State.regs hframe :)
  have hdma (a : Nat) := u.dmaWrite_frame tn a ent
  have hhosts (a : Nat) := u.dmaWrite_hosts tn a ent
  have htens (a : Nat) := ten_congr (u.dmaWrite_tenants tn a ent) tn
  have hdregs (a : Nat) := u.dmaWrite_regs tn a ent
  simp only [h0, h1, hrec] at hhosts
  exact {
    tail := fld_put_same _ (by decide : 0 + 12 ≤ 32)
    ten := (htens _).trans hten
    link0 := (hhosts _).1
    link1 := (hhosts _).2
    frame := (congrArg (fun y : State => { y with regs := s.regs, tenants := s.tenants, host0 := s.host0, host1 := s.host1 }) (hdma _)).trans
      (congrArg (fun y : State => { y with regs := s.regs, host0 := s.host0, host1 := s.host1 }) hframe)
    regs := fun b hb => (reg_put_ne _ _ _ fun h => hb (List.mem_singleton.mpr h)).trans (by rw [reg, reg, hdregs, hregs]) }

/-- A completion written to its ring. -/
theorem completionWrite_writes (hs : s.tenLive tn = true ∨ s.tenIs tn .detaching = true) (hx : (s.ten tn).nextCpl = some (x, ent, ev))
    (hq : x.quiet = false) (hin : s.tenInband tn = false) (hroom : s.cplRoom tn = true) (htail : tail = s.fld (TNW_CPLQ_TAIL_TAIL tn)) (htn : tn < 64) :
    ∃ t, exec (.completionWrite tn) s = .next t ∧
      t.fld (TNW_CPLQ_TAIL_TAIL tn) = (tail + 1) % 2 ^ s.fld (TNW_CPLQ_CFG_LOG2 tn) % 2 ^ 12 ∧
      (ev = false → t.ten tn = { x with phase := if (tail + 1) % 2 ^ s.fld (TNW_CPLQ_CFG_LOG2 tn) = 0 then !x.phase else x.phase }) ∧
      (ev = true → tabGet 0 (t.ten tn).events (s.fld (TNW_CPLQ_CFG_VEC tn)) = tabGet 0 x.events (s.fld (TNW_CPLQ_CFG_VEC tn)) + 1) ∧
      (bitOf (s.tenRec tn 2 1) 7 = false → t.host1 = s.host1 ∧ t.host0 = memPut s.host0
        (ringBase (s.fld64 (TNW_CPLQ_BASE_LO_BASE tn) (TNW_CPLQ_BASE_HI_BASE tn)) + 16 * tail) ent) ∧
      (bitOf (s.tenRec tn 2 1) 7 = true → t.host0 = s.host0 ∧ t.host1 = memPut s.host1
        (ringBase (s.fld64 (TNW_CPLQ_BASE_LO_BASE tn) (TNW_CPLQ_BASE_HI_BASE tn)) + 16 * tail) ent) ∧
      (ev = false ∨ s.tenIs tn .doze = false → { t with regs := s.regs, tenants := s.tenants, host0 := s.host0, host1 := s.host1 } = s) ∧
      s.RegsBut t [rTNW_CPLQ_TAIL tn] := by
  subst htail
  have hput := s.cplPut_shows tn x ent
  refine ⟨_, (completionWrite_serves hs).trans (congrArg _ (cplWrite_writes hx hq hin hroom)), ?_⟩
  generalize s.cplPut tn x ent = u at *
  cases ev with
  | false => exact ⟨hput.tail, fun _ => hput.ten, fun h => Bool.noConfusion h, hput.link0, hput.link1, fun _ => hput.frame, hput.regs⟩
  | true =>
    have hquiet : (u.ten tn).quiet = false := by rw [hput.ten]; exact hq
    have hactive : u.active = s.active := (congrArg State.active hput.frame :)
    have huin : u.tenInband tn = false := by
      rw [tenInband, tenRec, hactive]
      exact hin
    have hwake := dozeWake_only (s := u.setTen tn (evNoted (u.ten tn) (s.fld (TNW_CPLQ_CFG_VEC tn)) true)) (tn := tn) huin
    have hreg (a : Nat) : (u.setTen tn (evNoted (u.ten tn) (s.fld (TNW_CPLQ_CFG_VEC tn)) true)).reg a = u.reg a := rfl
    have hframe := u.setTen_frame tn (evNoted (u.ten tn) (s.fld (TNW_CPLQ_CFG_VEC tn)) true)
    have hten := u.ten_setTen_self tn (evNoted (u.ten tn) (s.fld (TNW_CPLQ_CFG_VEC tn)) true)
    rw [if_pos rfl, vecEvent_wakes hquiet]
    generalize u.setTen tn (evNoted (u.ten tn) (s.fld (TNW_CPLQ_CFG_VEC tn)) true) = w at *
    have hw0 : w.host0 = u.host0 := (congrArg State.host0 hframe :)
    have hw1 : w.host1 = u.host1 := (congrArg State.host1 hframe :)
    have htreg (a : Nat) : (w.dozeWake tn).reg a = u.reg a := by rw [← hreg, reg, reg, hwake.regs]
    refine ⟨(fld_of_reg (htreg _)).trans hput.tail, fun h => Bool.noConfusion h, fun _ => ?_, ?_, ?_, fun h => ?_,
      fun a ha => (htreg a).trans (hput.regs a ha)⟩
    · rw [hwake.events, hten, evNoted_event, hput.ten]
    · rw [hwake.host0, hwake.host1, hw0, hw1]
      exact hput.link0
    · rw [hwake.host0, hwake.host1, hw0, hw1]
      exact hput.link1
    · have hstate : w.tenIs tn .doze = s.tenIs tn .doze := by
        rw [tenIs, tenIs]
        refine congrArg (· == 3) (fld_of_reg ((hreg _).trans (hput.regs _ ?_)))
        simp only [HST_TN_STATE_STATE, rHST_TN_STATE, rTNW_CPLQ_TAIL, List.mem_singleton]
        omega
      rw [hwake.same (hstate.trans (h.resolve_left (by decide)))]
      exact (congrArg (fun y : State => { y with regs := s.regs, tenants := s.tenants, host0 := s.host0, host1 := s.host1 }) hframe).trans hput.frame

theorem completionWrite_inband (hs : s.tenLive tn = true ∨ s.tenIs tn .detaching = true) (hin : s.tenInband tn = true)
    (hx : (s.ten tn).nextCpl = some (x, ent, false)) (hq : x.quiet = false) :
    exec (.completionWrite tn) s = .next (s.setTen tn { x with inband := x.inband ++ [ent] }) := by
  rw [completionWrite_serves hs]
  simp only [cplWrite, hx, hq, hin, Bool.false_eq_true, if_false, if_true]

theorem completionWrite_full (hs : s.tenLive tn = true ∨ s.tenIs tn .detaching = true) (hin : s.tenInband tn = false)
    (hx : (s.ten tn).nextCpl = some (x, ent, ev)) (hq : x.quiet = false) (hroom : s.cplRoom tn = false) :
    exec (.completionWrite tn) s = .next s := by
  rw [completionWrite_serves hs, cplWrite_full hx hq hin hroom]

/-! ## The transmit ring of the management cluster (R490, R491, R493) -/

theorem inc_ten (s : State) (f : Fld) (n : Nat) : (s.inc f).ten n = s.ten n := rfl

theorem ringRead_tenant (s : State) (tn a n : Nat) : s.ringRead (some tn) a n = s.dmaRead tn a n := rfl
theorem ringWrite_tenant (s : State) (tn a : Nat) (bs : List Byte) : s.ringWrite (some tn) a bs = s.dmaWrite tn a bs := rfl

theorem txFetch_malformed {port : Nat} {dropped sent : State → State} (h : txFormed (s.ringRead q.who q.at 32) = false) :
    s.txFetch q port dropped sent = dropped (s.ringWrite q.who (q.at + 11) [2]) := by
  rw [txFetch, h]
  rfl

theorem txFetch_sends {port : Nat} {dropped sent : State → State} (h : txFormed (s.ringRead q.who q.at 32) = true)
    (hr : s.receive port false (ethFrame (s.ringRead q.who (leNat ((s.ringRead q.who q.at 32).take 8))
      (leNat (slice (s.ringRead q.who q.at 32) 8 2)))) s.stamp 0 (descRequest (s.ringRead q.who q.at 32) q.who) = (s1, ok)) :
    s.txFetch q port dropped sent = (sent s1).ringWrite q.who (q.at + 11) [if port = 80 ∧ ok = false then 2 else 1] := by
  simp only [txFetch, h, hr, if_true]

theorem if0Fetch_idle (h : s.flag (HST_IFQ_CFG_EN 0) = false ∨ (s.ifRing 0).empty = true) : exec (.txDescriptorFetch 64 ring) s = .next s :=
  congrArg Host.Outcome.next ((if_pos rfl).trans (if_pos h))

/-- The descriptor at HEAD of the IF0 ring done. -/
def if0Done (s : State) (next : Nat) : State := (s.put (HST_IFQ_HEAD_HEAD 0) next).setFlag HST_EVT_IF0_TX

theorem if0Fetch_runs (hen : s.flag (HST_IFQ_CFG_EN 0) = true) (hne : (s.ifRing 0).empty = false) : exec (.txDescriptorFetch 64 ring) s =
    .next ((s.txFetch (s.ifRing 0) 80 (fun s => s) (fun s => s)).if0Done (s.ifRing 0).next) :=
  congrArg Host.Outcome.next ((if_pos rfl).trans (if_neg (by simp [hen, hne])))

theorem if0Fetch_malformed (hq : q = s.ifRing 0) (hen : s.flag (HST_IFQ_CFG_EN 0) = true) (hne : q.empty = false)
    (hbad : txFormed (memTake s.mcMem q.at 32) = false) : ∃ t, exec (.txDescriptorFetch 64 ring) s = .next t ∧
      t.fld (HST_IFQ_HEAD_HEAD 0) = q.next % 2 ^ 12 ∧ t.flag HST_EVT_IF0_TX = true ∧ t.mcMem = memPut s.mcMem (q.at + 11) [2] ∧
      { t with regs := s.regs, mcMem := s.mcMem } = s ∧ s.RegsBut t [rHST_IFQ_HEAD 0, rHST_EVT] := by
  subst hq
  have hwritten : s.txFetch (s.ifRing 0) 80 (fun s => s) (fun s => s) = s.ringWrite none ((s.ifRing 0).at + 11) [2] := txFetch_malformed hbad
  refine ⟨_, if0Fetch_runs hen hne, ?_⟩
  rw [hwritten]
  have hmem : (s.ringWrite none ((s.ifRing 0).at + 11) [2]).mcMem = memPut s.mcMem ((s.ifRing 0).at + 11) [2] := rfl
  have hframe : { s.ringWrite none ((s.ifRing 0).at + 11) [2] with mcMem := s.mcMem } = s := rfl
  have hregs (a : Nat) : (s.ringWrite none ((s.ifRing 0).at + 11) [2]).reg a = s.reg a := rfl
  generalize s.ringWrite none ((s.ifRing 0).at + 11) [2] = u at *
  have honly : u.OnlyRegs (u.if0Done (s.ifRing 0).next) [rHST_IFQ_HEAD 0, rHST_EVT] :=
    ((OnlyRegs.refl u _).put _ List.mem_cons_self).put _ (List.mem_cons_of_mem _ List.mem_cons_self)
  exact ⟨(fld_put_other _ (by decide)).trans (fld_put_same _ (by decide : 0 + 12 ≤ 32)), flag_setFlag_self _ (by decide) rfl, hmem,
    (congrArg (fun y : State => { y with regs := s.regs, mcMem := s.mcMem }) honly.rest).trans
      (congrArg (fun y : State => { y with regs := s.regs }) hframe),
    fun a ha => (honly.regs a ha).trans (hregs a)⟩

theorem if0Fetch_sends (hq : q = s.ifRing 0) (hen : s.flag (HST_IFQ_CFG_EN 0) = true) (hne : q.empty = false)
    (hok : txFormed (memTake s.mcMem q.at 32) = true)
    (hr : s.receive 80 false (ethFrame (memTake s.mcMem (leNat ((memTake s.mcMem q.at 32).take 8)) (leNat (slice (memTake s.mcMem q.at 32) 8 2))))
      s.stamp 0 (descRequest (memTake s.mcMem q.at 32) none) = (s1, ok)) :
    exec (.txDescriptorFetch 64 ring) s = .next
      (((s1.ringWrite none (q.at + 11) [if ok then 1 else 2]).put (HST_IFQ_HEAD_HEAD 0) q.next).setFlag HST_EVT_IF0_TX) := by
  subst hq
  have hsent := txFetch_sends (port := 80) (dropped := fun s => s) (sent := fun s => s) (q := s.ifRing 0) hok hr
  rw [if0Fetch_runs hen hne, hsent]
  cases ok <;> rfl

/-! ## The transmit rings of a tenant (R490, R491) -/

section
variable (htn : tn < 64) (hq : q = s.txRing tn ring) (hh : h = s.tenRec tn 4 1 + s.fld (TNW_RP_CFG_HV tn ring))
include htn hq

theorem tenFetch_idle (hi : s.rpLive tn ring = false ∨ q.empty = true) : exec (.txDescriptorFetch tn ring) s = .next s := by
  subst hq
  exact congrArg Host.Outcome.next ((if_neg (by omega)).trans (if_pos hi))

variable (hl : s.rpLive tn ring = true) (hne : q.empty = false)
include hh hl hne

theorem tenFetch_runs : exec (.txDescriptorFetch tn ring) s = .next (((s.txFetch q (88 + h) (fun s => s.inc (HST_HV_TX_DROP_CNT_VAL h))
    (fun s => s.addCnt64 (HST_HV_TX_FRAMES_LO_VAL h) (HST_HV_TX_FRAMES_HI_VAL h) 1)).put (TNW_RP_TX_HEAD_HEAD tn ring) q.next).vecEvent tn
      (s.fld (TNW_RP_VEC_TX_VEC tn ring)) false) := by
  subst hq hh
  exact congrArg Host.Outcome.next ((if_neg (by omega)).trans (if_neg (by simp [hl, hne])))

theorem tenFetch_sends (he : e = s.dmaRead tn q.at 32) (hok : txFormed e = true)
    (hr : s.receive (88 + h) false (ethFrame (s.dmaRead tn (leNat (e.take 8)) (leNat (slice e 8 2)))) s.stamp 0 (descRequest e (some tn)) = (s1, ok)) :
    exec (.txDescriptorFetch tn ring) s = .next
      (((((s1.addCnt64 (HST_HV_TX_FRAMES_LO_VAL h) (HST_HV_TX_FRAMES_HI_VAL h) 1).dmaWrite tn (q.at + 11) [1]).put
        (TNW_RP_TX_HEAD_HEAD tn ring) q.next).vecEvent tn (s.fld (TNW_RP_VEC_TX_VEC tn ring)) false)) := by
  have hwho : q.who = some tn := by rw [hq]; rfl
  have hread (a n : Nat) : s.ringRead q.who a n = s.dmaRead tn a n := by rw [hwho, ringRead_tenant]
  have hsent := txFetch_sends (s := s) (port := 88 + h) (dropped := fun s => s.inc (HST_HV_TX_DROP_CNT_VAL h))
    (sent := fun s => s.addCnt64 (HST_HV_TX_FRAMES_LO_VAL h) (HST_HV_TX_FRAMES_HI_VAL h) 1) (q := q) (s1 := s1) (ok := ok)
    (by rw [hread, ← he]; exact hok) (by rw [hread, hread, ← he, hwho]; exact hr)
  rw [tenFetch_runs htn hq hh hl hne, hsent, hwho, if_neg (by omega), ringWrite_tenant]

theorem tenFetch_malformed (hring : ring < 128) (hbad : txFormed (s.dmaRead tn q.at 32) = false) :
    ∃ t, exec (.txDescriptorFetch tn ring) s = .next t ∧ t.fld (TNW_RP_TX_HEAD_HEAD tn ring) = q.next % 2 ^ 12 ∧
      t.fld (HST_HV_TX_DROP_CNT_VAL h) = (s.fld (HST_HV_TX_DROP_CNT_VAL h) + 1) % 2 ^ 32 ∧
      ((s.ten tn).quiet = false → tabGet 0 (t.ten tn).events (s.fld (TNW_RP_VEC_TX_VEC tn ring)) =
        tabGet 0 (s.ten tn).events (s.fld (TNW_RP_VEC_TX_VEC tn ring)) + 1) ∧
      s.RegsBut t [rTNW_RP_TX_HEAD tn ring, rHST_HV_TX_DROP_CNT h] := by
  have hwho : q.who = some tn := by rw [hq]; rfl
  have hwritten : s.txFetch q (88 + h) (fun s => s.inc (HST_HV_TX_DROP_CNT_VAL h)) (fun s => s.addCnt64 (HST_HV_TX_FRAMES_LO_VAL h)
      (HST_HV_TX_FRAMES_HI_VAL h) 1) = (s.dmaWrite tn (q.at + 11) [2]).inc (HST_HV_TX_DROP_CNT_VAL h) := by
    rw [txFetch_malformed (by rw [hwho, ringRead_tenant]; exact hbad), hwho, ringWrite_tenant]
  have hlt : h < 512 := by
    have hrec := memLe_one_lt s.active (secOff s.active tyTENANTQ + (16 + 40 * tn + 4))
    have hcfg := fld_lt s (TNW_RP_CFG_HV tn ring)
    have hwid : (2 : Nat) ^ (TNW_RP_CFG_HV tn ring).wid = 256 := rfl
    have htenRec : s.tenRec tn 4 1 = memLe s.active (secOff s.active tyTENANTQ + (16 + 40 * tn + 4)) 1 := rfl
    omega
  have hapart : rHST_HV_TX_DROP_CNT h ≠ rTNW_RP_TX_HEAD tn ring := by
    simp only [rHST_HV_TX_DROP_CNT, rTNW_RP_TX_HEAD]
    omega
  refine ⟨_, tenFetch_runs htn hq hh hl hne, ?_⟩
  rw [hwritten]
  have hregs (a : Nat) : (s.dmaWrite tn (q.at + 11) [2]).reg a = s.reg a := by rw [reg, reg, dmaWrite_regs]
  have hten := ten_congr (s.dmaWrite_tenants tn (q.at + 11) [2]) tn
  generalize s.dmaWrite tn (q.at + 11) [2] = u at *
  have honly : u.OnlyRegs ((u.inc (HST_HV_TX_DROP_CNT_VAL h)).put (TNW_RP_TX_HEAD_HEAD tn ring) q.next)
      [rTNW_RP_TX_HEAD tn ring, rHST_HV_TX_DROP_CNT h] :=
    ((OnlyRegs.refl u _).put _ (List.mem_cons_of_mem _ List.mem_cons_self)).put _ List.mem_cons_self
  have hhead : ((u.inc (HST_HV_TX_DROP_CNT_VAL h)).put (TNW_RP_TX_HEAD_HEAD tn ring) q.next).fld (TNW_RP_TX_HEAD_HEAD tn ring) = q.next % 2 ^ 12 :=
    fld_put_same _ (by decide : 0 + 12 ≤ 32)
  have hdrop : ((u.inc (HST_HV_TX_DROP_CNT_VAL h)).put (TNW_RP_TX_HEAD_HEAD tn ring) q.next).fld (HST_HV_TX_DROP_CNT_VAL h) =
      (s.fld (HST_HV_TX_DROP_CNT_VAL h) + 1) % 2 ^ 32 :=
    (fld_put_other _ hapart).trans ((fld_inc_self u (by decide : 0 + 32 ≤ 32)).trans (by rw [fld_of_reg (hregs _)]; rfl))
  have huten : ((u.inc (HST_HV_TX_DROP_CNT_VAL h)).put (TNW_RP_TX_HEAD_HEAD tn ring) q.next).ten tn = s.ten tn := by
    rw [put_ten, inc_ten, hten]
  generalize (u.inc (HST_HV_TX_DROP_CNT_VAL h)).put (TNW_RP_TX_HEAD_HEAD tn ring) q.next = w at *
  have hevent := w.vecEvent_false_frame tn (s.fld (TNW_RP_VEC_TX_VEC tn ring))
  have hereg (a : Nat) : (w.vecEvent tn (s.fld (TNW_RP_VEC_TX_VEC tn ring)) false).reg a = w.reg a :=
    (congrArg (fun x : State => x.reg a) hevent :)
  refine ⟨(fld_of_reg (hereg _)).trans hhead, (fld_of_reg (hereg _)).trans hdrop, fun hquiet => ?_,
    fun a ha => (hereg a).trans ((honly.regs a ha).trans (hregs a))⟩
  rw [vecEvent_counts (by rw [huten]; exact hquiet), ten_setTen_self, evNoted_event, huten]

end

end
end State
open State in
/-- Settles O58. The turn is the first ready tenant after the one served last; every other clause is the equation of its branch, with what
the branch writes. -/
theorem tenantRingsAndVectors : Obligations.TenantRingsAndVectors := by
  unfold Obligations.TenantRingsAndVectors
  intro s s1 tn ring v size head tail h d x e ent q ev ok htn
  refine ⟨commandFetch_notReady, fun hd ht hv hr => commandFetch_later hd ht hv hr, fun hsize hhead => ⟨fun hno => cmdReady_false ?notReady,
      fun hd ht hfirst hin hl hen hne hroom he => commandFetch_takes hsize hhead ?next hin he⟩, completionWrite_idle,
    fun hs hin hx hq => completionWrite_inband hs hin hx hq, fun hs hin hx hq => ⟨fun hroom => completionWrite_full hs hin hx hq hroom,
      fun hroom htail => completionWrite_writes hs hx hq hin hroom htail htn⟩, fun ha hv he hd => vectorSend_sends ha hv he hd, vectorSend_idle,
    s.msixUnmask_shows tn v, fun hq => ⟨fun hi => if0Fetch_idle (hq ▸ hi), fun hen hne => ⟨fun hbad => if0Fetch_malformed hq hen hne hbad,
      fun hok hr => if0Fetch_sends hq hen hne hok hr⟩⟩, fun hq hh hring => ⟨fun hi => tenFetch_idle htn hq hi,
      fun hl hne hbad => tenFetch_malformed htn hq hh hl hne hring hbad, fun hl hne he hok hr => tenFetch_sends htn hq hh hl hne he hok hr⟩⟩
  case notReady =>
    subst hsize hhead
    exact hno
  case next =>
    subst hsize hhead ht
    exact cmdNext_first hd (cmdReady_true hin hl hen hne hroom) hfirst

end Sys2Proof.Machine
end

section
/-! SUPPORT. The commands of TNW_CTL and the answer to an ATTACH (R483, R485, R486, R501). -/

namespace Sys2Proof.Machine
namespace State

section
variable {s t u : State} {r : Requester} {tn v n : Nat} {woc : Bool} {as : List Nat} {x : Tenant}

/-! ## The tenant's own writes (R483, R487) -/

theorem winWrite_other (h : s.tenOwner r tn = false) (act : State → State) : s.winWrite r tn act = s := if_neg (by simp [h])

theorem winWrite_own (h : s.tenOwner r tn = true) (act : State → State) : s.winWrite r tn act = act (s.tenTouch tn) := if_pos h

theorem tenOwner_spec (h : s.tenOwner r tn = true) : s.tenEnabled tn = true ∧ s.tenInband tn = false := by
  unfold tenOwner at h
  obtain ⟨hboth, -⟩ := (Bool.and_eq_true_iff).mp h
  simpa using hboth

theorem foreignWrites_ignored (h : s.tenOwner r tn = false) : ∀ c ∈ [Instr.tnwAttach r tn woc, .tnwDetach r tn woc, .tnwDoze r tn woc,
    .tnwResume r tn woc, .tnwLiveWrite r tn], exec c s = .next s := by
  have hctl (cmd : Nat) : s.writeTnwCtl r tn cmd woc = s := winWrite_other h _
  have hlive : s.winWrite r tn (fun s => s) = s := winWrite_other h _
  intro c hc
  simp only [List.mem_cons, List.not_mem_nil, or_false] at hc
  obtain rfl | rfl | rfl | rfl | rfl := hc
  · exact congrArg Host.Outcome.next (hctl 1)
  · exact congrArg Host.Outcome.next (hctl 2)
  · exact congrArg Host.Outcome.next (hctl 3)
  · exact congrArg Host.Outcome.next (hctl 4)
  · exact congrArg Host.Outcome.next hlive

theorem tenTouch_frame (s : State) (tn : Nat) : { s.tenTouch tn with tenants := s.tenants } = s := rfl

/-- Nothing changes but the tenants and some registers. -/
structure OnlyTenants (s t : State) (as : List Nat) : Prop where
  rest : { t with regs := s.regs, tenants := s.tenants } = s
  regs : s.RegsBut t as

namespace OnlyTenants

theorem put (h : s.OnlyTenants t as) {f : Fld} (v : Nat) (hf : f.addr ∈ as) : s.OnlyTenants (t.put f v) as :=
  ⟨h.rest, fun a ha => (reg_put_ne t f v fun e => ha (by rwa [e])).trans (h.regs a ha)⟩

theorem puts (h : s.OnlyTenants t as) {l : List (Fld × Nat)} (hl : ∀ e ∈ l, e.1.addr ∈ as) : s.OnlyTenants (t.puts l) as := by
  have honly := puts_onlyRegs hl t
  exact ⟨(congrArg (fun x : State => { x with regs := s.regs, tenants := s.tenants }) honly.rest :).trans h.rest,
    fun a ha => (honly.regs a ha).trans (h.regs a ha)⟩

theorem setTen (h : s.OnlyTenants t as) (n : Nat) (x : Tenant) : s.OnlyTenants (t.setTen n x) as := ⟨h.rest, h.regs⟩

theorem touch (s : State) (tn : Nat) (as : List Nat) : s.OnlyTenants (s.tenTouch tn) as := ⟨rfl, fun _ _ => rfl⟩

theorem active (h : s.OnlyTenants t as) : t.active = s.active := (congrArg State.active h.rest :)
theorem clk (h : s.OnlyTenants t as) : t.clk = s.clk := (congrArg State.clk h.rest :)
theorem hostMsgs (h : s.OnlyTenants t as) : t.hostMsgs = s.hostMsgs := (congrArg State.hostMsgs h.rest :)
theorem fld (h : s.OnlyTenants t as) {f : Fld} (hf : f.addr ∉ as) : t.fld f = s.fld f := fld_of_reg (h.regs _ hf)
theorem tenRec (h : s.OnlyTenants t as) (tn i k : Nat) : t.tenRec tn i k = s.tenRec tn i k := by rw [State.tenRec, State.tenRec, h.active]

end OnlyTenants

theorem puts_ten (l : List (Fld × Nat)) (s : State) (n : Nat) : (s.puts l).ten n = s.ten n := by
  induction l generalizing s with
  | nil => rfl
  | cons e l ih => exact (ih _).trans (put_ten s e.1 e.2 n)

/-! ## The commands of TNW_CTL (R485) -/

/-- What a command that is accepted writes: WOC with its copy, the state and the result. -/
def ctlWrites (tn : Nat) (woc : Bool) (st result : Nat) : List (Fld × Nat) :=
  [(TNW_CTL_WOC tn, bitN woc), (HST_TN_STATE_WOC tn, bitN woc), (HST_TN_STATE_STATE tn, st), (TNW_CTL_RESULT tn, result)]

/-- What a refused one writes. -/
def ctlRefusal (tn : Nat) (woc : Bool) : List (Fld × Nat) :=
  [(TNW_CTL_WOC tn, bitN woc), (HST_TN_STATE_WOC tn, bitN woc), (TNW_CTL_RESULT tn, 4)]

/-- The registers that TNW_CTL's commands write. -/
def ctlRegs (tn : Nat) : List Nat := [rTNW_CTL tn, rHST_TN_STATE tn]

theorem ctlWrites_apart (tn : Nat) (woc : Bool) (st result : Nat) : (ctlWrites tn woc st result).Pairwise fun a b => apart a.1 b.1 := by
  simp [ctlWrites, apart, TNW_CTL_WOC, HST_TN_STATE_WOC, HST_TN_STATE_STATE, TNW_CTL_RESULT, rTNW_CTL, rHST_TN_STATE]

theorem ctlRefusal_apart (tn : Nat) (woc : Bool) : (ctlRefusal tn woc).Pairwise fun a b => apart a.1 b.1 := by
  simp [ctlRefusal, apart, TNW_CTL_WOC, HST_TN_STATE_WOC, TNW_CTL_RESULT, rTNW_CTL, rHST_TN_STATE]

theorem ctlRefusal_keeps (tn : Nat) (woc : Bool) : ∀ e ∈ ctlRefusal tn woc, apart e.1 (HST_TN_STATE_STATE tn) := by
  simp [ctlRefusal, apart, TNW_CTL_WOC, HST_TN_STATE_WOC, HST_TN_STATE_STATE, TNW_CTL_RESULT, rTNW_CTL, rHST_TN_STATE]

theorem ctlWrites_addr (tn : Nat) (woc : Bool) (st result : Nat) : ∀ e ∈ ctlWrites tn woc st result, e.1.addr ∈ ctlRegs tn := by
  simp [ctlWrites, ctlRegs, TNW_CTL_WOC, HST_TN_STATE_WOC, HST_TN_STATE_STATE, TNW_CTL_RESULT]

theorem ctlRefusal_addr (tn : Nat) (woc : Bool) : ∀ e ∈ ctlRefusal tn woc, e.1.addr ∈ ctlRegs tn := by
  simp [ctlRefusal, ctlRegs, TNW_CTL_WOC, HST_TN_STATE_WOC, TNW_CTL_RESULT]

theorem bitN_flag (woc : Bool) : (bitN woc % 2 ^ 1 == 1) = woc := by cases woc <;> rfl

/-- The state, the result and WOC as an accepted command leaves them. -/
theorem ctlWrites_shows (tn : Nat) (woc : Bool) {st : TenState} {result : Nat} (hr : result < 2 ^ 4) (s : State) :
    (s.puts (ctlWrites tn woc st.code result)).tenIs tn st = true ∧ (s.puts (ctlWrites tn woc st.code result)).fld (TNW_CTL_RESULT tn) = result ∧
    (s.puts (ctlWrites tn woc st.code result)).flag (TNW_CTL_WOC tn) = woc ∧
    (s.puts (ctlWrites tn woc st.code result)).flag (HST_TN_STATE_WOC tn) = woc := by
  have hread {f : Fld} {v : Nat} (hf : f.lsb + f.wid ≤ 32) (h : (f, v) ∈ ctlWrites tn woc st.code result) :=
    fld_puts (ctlWrites_apart tn woc st.code result) hf h s
  have hcode : st.code % 2 ^ 3 = st.code := by cases st <;> rfl
  refine ⟨?_, ?_, ?_, ?_⟩
  · rw [tenIs, hread (f := HST_TN_STATE_STATE tn) (v := st.code) (by simp [HST_TN_STATE_STATE]) (by simp [ctlWrites])]
    exact beq_iff_eq.mpr hcode
  · rw [hread (f := TNW_CTL_RESULT tn) (v := result) (by simp [TNW_CTL_RESULT]) (by simp [ctlWrites])]
    exact Nat.mod_eq_of_lt hr
  · rw [flag, hread (f := TNW_CTL_WOC tn) (v := bitN woc) (by simp [TNW_CTL_WOC]) (by simp [ctlWrites])]
    exact bitN_flag woc
  · rw [flag, hread (f := HST_TN_STATE_WOC tn) (v := bitN woc) (by simp [HST_TN_STATE_WOC]) (by simp [ctlWrites])]
    exact bitN_flag woc

theorem putWoc_tenIs (s : State) (tn : Nat) (woc : Bool) (st : TenState) : ((s.tenTouch tn).putWoc tn woc).tenIs tn st = s.tenIs tn st :=
  congrArg (· == st.code) (fld_putWoc_state _ tn woc)

theorem tenAttach_accepts (ha : s.tenIs tn .absent = true) (he : s.tenEnabled tn = true) :
    s.tenAttach tn = (s.tenPut tn .attaching).tenResult tn 1 := if_pos ⟨ha, he⟩

theorem tenAttach_refuses (ha : s.tenIs tn .absent = false) : s.tenAttach tn = s.tenResult tn 4 := if_neg (by simp [ha])
theorem tenDetach_refuses (ha : s.tenLive tn = false) : s.tenDetach tn = s.tenResult tn 4 := if_neg (by simp [ha])
theorem tenDoze_refuses (ha : s.tenIs tn .active = false) : s.tenDoze tn = s.tenResult tn 4 := if_neg (by simp [ha])
theorem tenResume_refuses (ha : s.tenIs tn .doze = false) : s.tenResume tn = s.tenResult tn 4 := if_neg (by simp [ha])

/-- What a refused command leaves. -/
theorem ctlRefused {c : Instr} (h : exec c s = .next ((s.tenTouch tn).puts (ctlRefusal tn woc))) : ∃ t, exec c s = .next t ∧
    t.fld (TNW_CTL_RESULT tn) = 4 ∧ t.fld (HST_TN_STATE_STATE tn) = s.fld (HST_TN_STATE_STATE tn) ∧
    t.ten tn = { s.ten tn with live := s.clk } ∧ { t with regs := s.regs, tenants := s.tenants } = s ∧
    s.RegsBut t [rTNW_CTL tn, rHST_TN_STATE tn] := by
  have hres := fld_puts (ctlRefusal_apart tn woc) (f := TNW_CTL_RESULT tn) (v := 4) (by simp [TNW_CTL_RESULT]) (by simp [ctlRefusal]) (s.tenTouch tn)
  have hst := fld_puts_apart (f := HST_TN_STATE_STATE tn) (by simp [HST_TN_STATE_STATE]) (ctlRefusal_keeps tn woc) (s.tenTouch tn)
  have honly := (OnlyTenants.touch s tn _).puts (ctlRefusal_addr tn woc)
  have hten := (puts_ten (ctlRefusal tn woc) (s.tenTouch tn) tn).trans (s.ten_tenTouch tn)
  exact ⟨_, h, hres, hst, hten, honly.rest, honly.regs⟩

section
variable (ho : s.tenOwner r tn = true)
include ho

theorem writeTnwCtl_own (cmd : Nat) (woc : Bool) : s.writeTnwCtl r tn cmd woc = ((s.tenTouch tn).putWoc tn woc).tenCtl tn cmd :=
  winWrite_own ho _

theorem liveWrite_restarts : ∃ t, exec (.tnwLiveWrite r tn) s = .next t ∧ t.ten tn = { s.ten tn with live := s.clk } ∧
    { t with tenants := s.tenants } = s := ⟨_, congrArg Host.Outcome.next (winWrite_own ho _), s.ten_tenTouch tn, s.tenTouch_frame tn⟩

theorem attach_accepted (ha : s.tenIs tn .absent = true) : ∃ t, exec (.tnwAttach r tn woc) s = .next t ∧ t.tenIs tn .attaching = true ∧
    t.fld (TNW_CTL_RESULT tn) = 1 ∧ t.flag (TNW_CTL_WOC tn) = woc ∧ t.flag (HST_TN_STATE_WOC tn) = woc ∧
    t.ten tn = { s.ten tn with live := s.clk } ∧ { t with regs := s.regs, tenants := s.tenants } = s ∧
    s.RegsBut t [rTNW_CTL tn, rHST_TN_STATE tn] := by
  have heq : s.writeTnwCtl r tn 1 woc = (s.tenTouch tn).puts (ctlWrites tn woc TenState.attaching.code 1) :=
    (writeTnwCtl_own ho 1 woc).trans (tenAttach_accepts ((s.putWoc_tenIs tn woc .absent).trans ha) (tenOwner_spec ho).1)
  obtain ⟨hst, hres, hwoc, hcopy⟩ := ctlWrites_shows tn woc (st := .attaching) (result := 1) (by decide) (s.tenTouch tn)
  have honly := (OnlyTenants.touch s tn _).puts (ctlWrites_addr tn woc TenState.attaching.code 1)
  have hten := (puts_ten (ctlWrites tn woc TenState.attaching.code 1) (s.tenTouch tn) tn).trans (s.ten_tenTouch tn)
  exact ⟨_, congrArg Host.Outcome.next heq, hst, hres, hwoc, hcopy, hten, honly.rest, honly.regs⟩

theorem ctl_refused : ∀ c ∈ (if s.tenIs tn .absent then [] else [Instr.tnwAttach r tn woc]) ++
      (if s.tenLive tn then [] else [Instr.tnwDetach r tn woc]) ++ (if s.tenIs tn .active then [] else [Instr.tnwDoze r tn woc]) ++
      (if s.tenIs tn .doze then [] else [Instr.tnwResume r tn woc]),
    ∃ t, exec c s = .next t ∧ t.fld (TNW_CTL_RESULT tn) = 4 ∧ t.fld (HST_TN_STATE_STATE tn) = s.fld (HST_TN_STATE_STATE tn) ∧
      t.ten tn = { s.ten tn with live := s.clk } ∧ { t with regs := s.regs, tenants := s.tenants } = s ∧
      s.RegsBut t [rTNW_CTL tn, rHST_TN_STATE tn] := by
  have hmem {b : Bool} {c d : Instr} (h : c ∈ if b = true then [] else [d]) : b = false ∧ c = d := by
    cases b with
    | true => exact absurd h List.not_mem_nil
    | false => exact ⟨rfl, List.mem_singleton.mp h⟩
  have hst (st : TenState) := s.putWoc_tenIs tn woc st
  have hlive : ((s.tenTouch tn).putWoc tn woc).tenLive tn = s.tenLive tn := by rw [tenLive, tenLive, hst, hst]
  intro c hc
  rw [List.mem_append, List.mem_append, List.mem_append] at hc
  obtain ((hc | hc) | hc) | hc := hc
  all_goals obtain ⟨hno, rfl⟩ := hmem hc
  · exact ctlRefused (congrArg Host.Outcome.next ((writeTnwCtl_own ho 1 woc).trans (tenAttach_refuses ((hst .absent).trans hno))))
  · exact ctlRefused (congrArg Host.Outcome.next ((writeTnwCtl_own ho 2 woc).trans (tenDetach_refuses (hlive.trans hno))))
  · exact ctlRefused (congrArg Host.Outcome.next ((writeTnwCtl_own ho 3 woc).trans (tenDoze_refuses ((hst .active).trans hno))))
  · exact ctlRefused (congrArg Host.Outcome.next ((writeTnwCtl_own ho 4 woc).trans (tenResume_refuses ((hst .doze).trans hno))))

end

end
end State
end Sys2Proof.Machine
end

section
/-! SUPPORT. DOZE, RESUME and the grant of a tenant (R485, R486, R501). -/

namespace Sys2Proof.Machine
namespace State

section
variable {s t u : State} {r : Requester} {tn v n : Nat} {woc : Bool} {as : List Nat} {x : Tenant}

/-! ## DOZE (R485, R501) -/

theorem setTen_put (s : State) (tn : Nat) (x : Tenant) (f : Fld) (v : Nat) : (s.setTen tn x).put f v = (s.put f v).setTen tn x := rfl

theorem setTen_tenResult (s : State) (tn : Nat) (x : Tenant) (code : Nat) :
    (s.setTen tn x).tenResult tn code = (s.tenResult tn code).setTen tn x := setTen_put s tn x _ code

theorem msgSent_tenIs (s : State) (m : HostMsg) (n : Nat) (st : TenState) : (s.msgSent m).tenIs n st = s.tenIs n st := (rfl)

theorem msgSent_hostMsgs (s : State) (m : HostMsg) : (s.msgSent m).hostMsgs = m :: s.hostMsgs := rfl

theorem setTen_inc (s : State) (tn : Nat) (x : Tenant) (f : Fld) : (s.setTen tn x).inc f = (s.inc f).setTen tn x := rfl

theorem setTen_rest (h : { u with regs := s.regs } = s) (tn : Nat) (x : Tenant) :
    { u.setTen tn x with regs := s.regs, tenants := s.tenants } = s := (congrArg (fun y : State => { y with tenants := s.tenants }) h :)

theorem setTen_fld (s : State) (tn : Nat) (x : Tenant) (f : Fld) : (s.setTen tn x).fld f = s.fld f := (rfl)
theorem setTen_flag (s : State) (tn : Nat) (x : Tenant) (f : Fld) : (s.setTen tn x).flag f = s.flag f := (rfl)
theorem setTen_tenIs (s : State) (tn : Nat) (x : Tenant) (n : Nat) (st : TenState) : (s.setTen tn x).tenIs n st = s.tenIs n st := (rfl)

/-- A tenant's state after an accepted command that changes its own record. -/
def ctlTaken (s : State) (tn : Nat) (woc : Bool) (st : TenState) (x : Tenant) : State :=
  ((s.tenTouch tn).puts (ctlWrites tn woc st.code 2)).setTen tn x

theorem ctlTaken_shows (s : State) (tn : Nat) (woc : Bool) (st : TenState) (x : Tenant) : (s.ctlTaken tn woc st x).tenIs tn st = true ∧
    (s.ctlTaken tn woc st x).fld (TNW_CTL_RESULT tn) = 2 ∧ (s.ctlTaken tn woc st x).flag (HST_TN_STATE_WOC tn) = woc ∧
    (s.ctlTaken tn woc st x).ten tn = x ∧ s.OnlyTenants (s.ctlTaken tn woc st x) (ctlRegs tn) := by
  obtain ⟨hst, hres, -, hcopy⟩ := ctlWrites_shows tn woc (st := st) (result := 2) (by decide) (s.tenTouch tn)
  have honly := (OnlyTenants.touch s tn _).puts (ctlWrites_addr tn woc st.code 2)
  rw [ctlTaken, setTen_tenIs, setTen_fld, setTen_flag, ten_setTen_self]
  exact ⟨hst, hres, hcopy, rfl, honly.setTen tn x⟩

/-- A tenant that dozes. -/
def dozed (x : Tenant) (clk : Nat) : Tenant := { x with
  live := clk
  woken := false }

theorem tenDoze_active (h : s.tenIs tn .active = true) : s.tenDoze tn =
    if (s.ten tn).cplEv = [] then ((s.tenPut tn .doze).tenResult tn 2).setTen tn { s.ten tn with woken := false }
    else (((s.tenPut tn .doze).tenResult tn 2).setTen tn { s.ten tn with woken := false }).dozeWake tn := by
  rw [← setTen_tenResult]
  exact if_pos h

theorem putWoc_ten (s : State) (tn : Nat) (woc : Bool) (n : Nat) : (s.putWoc tn woc).ten n = s.ten n := rfl

theorem tnwDoze_taken (ho : s.tenOwner r tn = true) (h : s.tenIs tn .active = true) (woc : Bool) : s.writeTnwCtl r tn 3 woc =
    if (s.ten tn).cplEv = [] then s.ctlTaken tn woc .doze (dozed (s.ten tn) s.clk)
    else (s.ctlTaken tn woc .doze (dozed (s.ten tn) s.clk)).dozeWake tn := by
  have hten : ((s.tenTouch tn).putWoc tn woc).ten tn = { s.ten tn with live := s.clk } := s.ten_tenTouch tn
  have hdoze := tenDoze_active ((s.putWoc_tenIs tn woc .active).trans h)
  rw [hten] at hdoze
  exact (writeTnwCtl_own ho 3 woc).trans hdoze

theorem doze_accepted (ho : s.tenOwner r tn = true) (h : s.tenIs tn .active = true) (he : (s.ten tn).cplEv = []) :
    ∃ t, exec (.tnwDoze r tn woc) s = .next t ∧ t.tenIs tn .doze = true ∧ t.fld (TNW_CTL_RESULT tn) = 2 ∧
      t.ten tn = { s.ten tn with
        live := s.clk
        woken := false } ∧
      { t with regs := s.regs, tenants := s.tenants } = s ∧ s.RegsBut t [rTNW_CTL tn, rHST_TN_STATE tn] := by
  obtain ⟨hst, hres, -, hten, honly⟩ := s.ctlTaken_shows tn woc .doze (dozed (s.ten tn) s.clk)
  exact ⟨_, congrArg Host.Outcome.next ((tnwDoze_taken ho h woc).trans (if_pos he)), hst, hres, hten, honly.rest, honly.regs⟩

/-- The wake of a tenant in DOZE that its PCIe function carries. -/
theorem dozeWake_pme (hd : s.tenIs tn .doze = true) (hw : s.flag (HST_TN_STATE_WOC tn) = true) (hk : (s.ten tn).woken = false)
    (hin : s.tenInband tn = false) (hp : s.tenWakePin tn = false) :
    s.dozeWake tn = (s.setTen tn { s.ten tn with woken := true }).msgSent (.pme tn) := by
  have hstop : ¬ (s.tenIs tn .doze = false ∨ s.flag (HST_TN_STATE_WOC tn) = false ∨ (s.ten tn).woken = true) := by simp [hd, hw, hk]
  rw [dozeWake, if_neg hstop]
  simp only [hin, hp, Bool.false_eq_true, if_false]
  rfl

theorem doze_wakes (ho : s.tenOwner r tn = true) (h : s.tenIs tn .active = true) (he : (s.ten tn).cplEv ≠ []) (hp : s.tenWakePin tn = false) :
    ∃ t, exec (.tnwDoze r tn true) s = .next t ∧ t.tenIs tn .doze = true ∧ t.hostMsgs = .pme tn :: s.hostMsgs ∧ (t.ten tn).woken = true := by
  obtain ⟨hst, -, hwoc, hten, honly⟩ := s.ctlTaken_shows tn true .doze (dozed (s.ten tn) s.clk)
  refine ⟨_, congrArg Host.Outcome.next ((tnwDoze_taken ho h true).trans (if_neg he)), ?_⟩
  generalize s.ctlTaken tn true .doze (dozed (s.ten tn) s.clk) = u at *
  have hrec := honly.tenRec tn 1 1
  have hin : u.tenInband tn = false := by rw [tenInband, hrec]; exact (tenOwner_spec ho).2
  have hpin : u.tenWakePin tn = false := by rw [tenWakePin, hrec]; exact hp
  rw [dozeWake_pme hst hwoc (by rw [hten]; rfl) hin hpin, msgSent_ten, ten_setTen_self, msgSent_tenIs, setTen_tenIs, msgSent_hostMsgs, setTen_hostMsgs]
  exact ⟨hst, congrArg (HostMsg.pme tn :: ·) honly.hostMsgs, rfl⟩

/-! ## RESUME (R485, R500) -/

theorem inbandFlush_none (h : (s.ten tn).inband = []) (n : Nat) : s.inbandFlush tn n = s := by
  cases n with
  | zero => rfl
  | succ n => rw [inbandFlush, h]

/-- A tenant that resumes. -/
def returned (x : Tenant) (clk : Nat) : Tenant := { x with
  live := clk
  modBase := some clk }

/-- The vectors that a RESUME sends, of `vec` vectors. -/
def resumeVectors (x : Tenant) (vec : Nat) : List Nat :=
  ((x.events.map (·.1)) ++ x.pba.filter (fun v => !(x.events.map (·.1)).contains v)).filter (fun v => x.vecPending v && decide (v < vec))

theorem tenResume_doze (h : s.tenIs tn .doze = true) : s.tenResume tn =
    ((resumeVectors (s.ten tn) (s.fld (TNW_REQ0_VEC tn))).foldl (fun s v => s.vecSend tn v)
      (((s.tenPut tn .active).tenResult tn 2).setTen tn { s.ten tn with modBase := some s.clk })).inbandFlush tn 64 := by
  rw [← setTen_tenResult]
  exact if_pos h

theorem resumeVectors_live (x : Tenant) (c vec : Nat) : resumeVectors { x with live := c } vec = resumeVectors x vec := rfl

theorem reqVec_notCtl (tn : Nat) : (TNW_REQ0_VEC tn).addr ∉ ctlRegs tn := by
  simp only [ctlRegs, TNW_REQ0_VEC, rTNW_REQ0, rTNW_CTL, rHST_TN_STATE, List.mem_cons, List.not_mem_nil, or_false]
  omega

theorem tnwResume_taken (ho : s.tenOwner r tn = true) (h : s.tenIs tn .doze = true) (woc : Bool) : s.writeTnwCtl r tn 4 woc =
    ((resumeVectors (s.ten tn) (s.fld (TNW_REQ0_VEC tn))).foldl (fun s v => s.vecSend tn v)
      (s.ctlTaken tn woc .active (returned (s.ten tn) s.clk))).inbandFlush tn 64 := by
  have hten : ((s.tenTouch tn).putWoc tn woc).ten tn = { s.ten tn with live := s.clk } := s.ten_tenTouch tn
  have honly : s.OnlyTenants ((s.tenTouch tn).putWoc tn woc) (ctlRegs tn) := ((OnlyTenants.touch s tn _).put _
    (by simp [ctlRegs, TNW_CTL_WOC])).put _ (by simp [ctlRegs, HST_TN_STATE_WOC])
  have hvec := honly.fld (reqVec_notCtl tn)
  have hresume := tenResume_doze ((s.putWoc_tenIs tn woc .doze).trans h)
  rw [hten, resumeVectors_live, hvec] at hresume
  exact (writeTnwCtl_own ho 4 woc).trans hresume

theorem resume_quiet (ho : s.tenOwner r tn = true) (h : s.tenIs tn .doze = true) (he : (s.ten tn).events = []) (hp : (s.ten tn).pba = [])
    (hi : (s.ten tn).inband = []) : ∃ t, exec (.tnwResume r tn woc) s = .next t ∧ t.tenIs tn .active = true ∧ t.fld (TNW_CTL_RESULT tn) = 2 ∧
      t.ten tn = { s.ten tn with
        live := s.clk
        modBase := some s.clk } ∧
      { t with regs := s.regs, tenants := s.tenants } = s ∧ s.RegsBut t [rTNW_CTL tn, rHST_TN_STATE tn] := by
  have hnone : resumeVectors (s.ten tn) (s.fld (TNW_REQ0_VEC tn)) = [] := by simp [resumeVectors, he, hp]
  obtain ⟨hst, hres, -, hten, honly⟩ := s.ctlTaken_shows tn woc .active (returned (s.ten tn) s.clk)
  have htaken := tnwResume_taken ho h woc
  rw [hnone, List.foldl_nil, inbandFlush_none (by rw [hten]; exact hi)] at htaken
  exact ⟨_, congrArg Host.Outcome.next htaken, hst, hres, hten, honly.rest, honly.regs⟩

theorem resumeVectors_one (he : x.events = [(v, n)]) (hn : 0 < n) (hp : x.pba = []) {vec : Nat} (hv : v < vec) : resumeVectors x vec = [v] := by
  have hcount : tabGet 0 x.events v = n := by simp [he, tabGet, tabFind]
  have hpending : x.vecPending v = true := by simp [Tenant.vecPending, hcount, hn]
  simp [resumeVectors, he, hp, hpending, hv]

theorem resume_sends (ho : s.tenOwner r tn = true) (h : s.tenIs tn .doze = true) (he : (s.ten tn).events = [(v, n)]) (hn : 0 < n)
    (hp : (s.ten tn).pba = []) (hi : (s.ten tn).inband = []) (hv : v < s.fld (TNW_REQ0_VEC tn)) (hu : v ∈ (s.ten tn).unmasked) :
    ∃ t, exec (.tnwResume r tn woc) s = .next t ∧ t.tenIs tn .active = true ∧ t.hostMsgs = .msix tn v :: s.hostMsgs ∧
      (t.ten tn).events = [] ∧ tabGet 0 (t.ten tn).modAt v = s.clk := by
  have htaken := tnwResume_taken ho h woc
  obtain ⟨hst, -, -, hten, honly⟩ := s.ctlTaken_shows tn woc .active (returned (s.ten tn) s.clk)
  rw [resumeVectors_one he hn hp hv, List.foldl_cons, List.foldl_nil] at htaken
  generalize s.ctlTaken tn woc .active (returned (s.ten tn) s.clk) = u at *
  have hmem : v ∈ (u.ten tn).unmasked := by rw [hten]; exact hu
  obtain ⟨hmsg, hsent, hframe⟩ := vecSend_sends hmem
  have hregs : (u.vecSend tn v).regs = u.regs := (congrArg State.regs hframe :)
  rw [hten] at hsent
  rw [inbandFlush_none (by rw [hsent]; exact hi)] at htaken
  refine ⟨_, congrArg Host.Outcome.next htaken, ?_, hmsg.trans (congrArg (HostMsg.msix tn v :: ·) honly.hostMsgs), ?_, ?_⟩
  · rw [tenIs, fld_congr hregs]
    exact hst
  · rw [hsent]
    change tabDel (s.ten tn).events v = []
    simp [he, tabDel]
  · rw [hsent]
    exact (tabGet_tabPut_self _ _ _ _).trans honly.clk

/-! ## The resource manager's answer (R486) -/

theorem grant_idle (h : s.tenIs tn .attaching = false) : exec (.grantComplete tn) s = .next s := congrArg Host.Outcome.next (if_pos h)

theorem grant_beyond (ha : s.tenIs tn .attaching = true) (h : s.tenEnabled tn = false ∨ ∃ e ∈ s.tenQuotas tn, e.2 < s.tenAsk e) :
    exec (.grantComplete tn) s = .next (s.grantRefused tn 5) := by
  refine congrArg Host.Outcome.next ((if_neg (by simp [ha])).trans (if_pos (h.imp id ?_)))
  rintro ⟨e, he, hlt⟩
  exact List.any_eq_true.mpr ⟨e, he, decide_eq_true hlt⟩

theorem grant_within (ha : s.tenIs tn .attaching = true) (he : s.tenEnabled tn = true) (h : ∀ e ∈ s.tenQuotas tn, s.tenAsk e ≤ e.2) :
    s.tenIs tn .attaching ≠ false ∧ ¬ (s.tenEnabled tn = false ∨ (s.tenQuotas tn).any (fun e => decide (e.2 < s.tenAsk e)) = true) := by
  refine ⟨by simp [ha], ?_⟩
  rw [not_or]
  refine ⟨by simp [he], fun hany => ?_⟩
  obtain ⟨e, hmem, hlt⟩ := List.any_eq_true.mp hany
  exact absurd (h e hmem) (by simpa using hlt)

theorem grant_exhausted (ha : s.tenIs tn .attaching = true) (he : s.tenEnabled tn = true) (h : ∀ e ∈ s.tenQuotas tn, s.tenAsk e ≤ e.2)
    (hpool : s.fld HST_POOL_RP_FREE < s.tenAsk (TNW_REQ0_RP tn, s.tenRec tn 5 1) ∨
      s.fld HST_POOL_CAP_FREE < s.tenAsk (TNW_REQ3_CAP tn, s.tenRec tn 16 1)) :
    exec (.grantComplete tn) s = .next (s.grantRefused tn 6) := by
  obtain ⟨hatt, hquota⟩ := grant_within ha he h
  exact congrArg Host.Outcome.next ((if_neg hatt).trans ((if_neg hquota).trans (if_pos hpool)))

/-- The registers that a refused grant writes. -/
def refusalRegs (tn : Nat) : List Nat := [rTNW_CTL tn, rHST_TN_STATE tn, rHST_ATTACH_FAIL_CNT, rHST_EVT]

/-- What a refused grant writes. -/
def refusalWrites (s : State) (tn code : Nat) : List (Fld × Nat) := [(HST_TN_STATE_STATE tn, 0), (TNW_CTL_RESULT tn, code),
  (HST_ATTACH_FAIL_CNT_VAL, s.fld HST_ATTACH_FAIL_CNT_VAL + 1), (HST_EVT_ATTACH_FAIL, 1)]

theorem inc_puts (s : State) (l : List (Fld × Nat)) {f : Fld} (hf : f.lsb + f.wid ≤ 32) (h : ∀ e ∈ l, apart e.1 f) :
    (s.puts l).inc f = s.puts (l ++ [(f, s.fld f + 1)]) := by
  rw [inc_eq, fld_puts_apart hf h, puts, puts, List.foldl_append]
  rfl

theorem grantRefused_eq (s : State) (tn code : Nat) : s.grantRefused tn code = s.puts (s.refusalWrites tn code) := by
  have hinc := s.inc_puts [(HST_TN_STATE_STATE tn, 0), (TNW_CTL_RESULT tn, code)] (f := HST_ATTACH_FAIL_CNT_VAL) (by decide)
    (by simp [apart, TNW_CTL_RESULT, HST_TN_STATE_STATE, HST_ATTACH_FAIL_CNT_VAL, rTNW_CTL, rHST_TN_STATE, rHST_ATTACH_FAIL_CNT]; omega)
  exact congrArg (State.setFlag · HST_EVT_ATTACH_FAIL) hinc

theorem refusalWrites_apart (s : State) (htn : tn < 64) (code : Nat) : (s.refusalWrites tn code).Pairwise fun a b => apart a.1 b.1 := by
  simp [refusalWrites, apart, TNW_CTL_RESULT, HST_TN_STATE_STATE, HST_ATTACH_FAIL_CNT_VAL, HST_EVT_ATTACH_FAIL, rTNW_CTL, rHST_TN_STATE,
    rHST_ATTACH_FAIL_CNT, rHST_EVT]
  omega

theorem grantRefused_shows (s : State) {code : Nat} (hc : code < 2 ^ 4) (htn : tn < 64) : (s.grantRefused tn code).tenIs tn .absent = true ∧
    (s.grantRefused tn code).fld (TNW_CTL_RESULT tn) = code ∧
    (s.grantRefused tn code).fld HST_ATTACH_FAIL_CNT_VAL = (s.fld HST_ATTACH_FAIL_CNT_VAL + 1) % 2 ^ 32 ∧
    (s.grantRefused tn code).flag HST_EVT_ATTACH_FAIL = true ∧ s.OnlyRegs (s.grantRefused tn code) (refusalRegs tn) := by
  have hread {f : Fld} {v : Nat} (hf : f.lsb + f.wid ≤ 32) (h : (f, v) ∈ s.refusalWrites tn code) :=
    fld_puts (s.refusalWrites_apart htn code) hf h s
  rw [grantRefused_eq]
  refine ⟨?_, ?_, ?_, ?_, puts_onlyRegs (by simp [refusalWrites, refusalRegs, TNW_CTL_RESULT, HST_TN_STATE_STATE, HST_ATTACH_FAIL_CNT_VAL,
    HST_EVT_ATTACH_FAIL]) s⟩
  · rw [tenIs, hread (f := HST_TN_STATE_STATE tn) (v := 0) (by simp [HST_TN_STATE_STATE]) (by simp [refusalWrites])]
    rfl
  · rw [hread (f := TNW_CTL_RESULT tn) (v := code) (by simp [TNW_CTL_RESULT]) (by simp [refusalWrites])]
    exact Nat.mod_eq_of_lt hc
  · exact hread (f := HST_ATTACH_FAIL_CNT_VAL) (by decide) (by simp [refusalWrites])
  · rw [flag, hread (f := HST_EVT_ATTACH_FAIL) (v := 1) (by decide) (by simp [refusalWrites])]
    rfl

theorem grant_refused (htn : tn < 64) {code : Nat} (hc : code < 2 ^ 4) (h : exec (.grantComplete tn) s = .next (s.grantRefused tn code)) :
    ∃ t, exec (.grantComplete tn) s = .next t ∧ t.tenIs tn .absent = true ∧ t.fld (TNW_CTL_RESULT tn) = code ∧
      t.fld HST_ATTACH_FAIL_CNT_VAL = (s.fld HST_ATTACH_FAIL_CNT_VAL + 1) % 2 ^ 32 ∧ t.flag HST_EVT_ATTACH_FAIL = true ∧
      s.OnlyRegs t [rTNW_CTL tn, rHST_TN_STATE tn, rHST_ATTACH_FAIL_CNT, rHST_EVT] := ⟨_, h, s.grantRefused_shows hc htn⟩

/-- What a grant writes: the limits, the pools, the state and the result, the count and the event. -/
def grantWrites (s : State) (tn : Nat) : List (Fld × Nat) :=
  (s.tenQuotas tn).map (fun e => (e.1, s.tenAsk e)) ++
    [(HST_POOL_RP_FREE, s.fld HST_POOL_RP_FREE - s.tenAsk (TNW_REQ0_RP tn, s.tenRec tn 5 1)),
      (HST_POOL_CAP_FREE, s.fld HST_POOL_CAP_FREE - s.tenAsk (TNW_REQ3_CAP tn, s.tenRec tn 16 1)),
      (HST_TN_STATE_STATE tn, 2), (TNW_CTL_RESULT tn, 2), (HST_ATTACH_CNT_VAL, s.fld HST_ATTACH_CNT_VAL + 1), (HST_EVT_ATTACHED, 1)]

theorem grantWrites_apart (s : State) (htn : tn < 64) : (s.grantWrites tn).Pairwise fun a b => apart a.1 b.1 := by
  simp [grantWrites, tenQuotas, apart, TNW_CTL_RESULT, HST_TN_STATE_STATE, HST_ATTACH_CNT_VAL, HST_EVT_ATTACHED, HST_POOL_RP_FREE, HST_POOL_CAP_FREE,
    TNW_REQ0_VEC, TNW_REQ0_RP, TNW_REQ1_EM, TNW_REQ2_STREAM, TNW_REQ2_KEY, TNW_REQ3_CPH, TNW_REQ3_CAP, rTNW_CTL, rHST_TN_STATE,
    rHST_ATTACH_CNT, rHST_EVT, rHST_POOL, rTNW_REQ0, rTNW_REQ1, rTNW_REQ2, rTNW_REQ3]
  omega

/-- The tenant's record as a grant leaves it. -/
def grantedTo (s : State) (tn : Nat) : Tenant := { s.ten tn with
  capRules := s.freeCapRules.take (s.tenAsk (TNW_REQ3_CAP tn, s.tenRec tn 16 1))
  live := s.clk }

theorem puts_map {α : Type} (l : List α) (f : α → Fld) (v : α → Nat) (s : State) :
    l.foldl (fun t e => t.put (f e) (v e)) s = s.puts (l.map fun e => (f e, v e)) := by rw [puts, List.foldl_map]

theorem puts_append (s : State) (l m : List (Fld × Nat)) : s.puts (l ++ m) = (s.puts l).puts m := List.foldl_append

/-- The tenant's record may be written before or after the registers. -/
theorem setTen_granted (s : State) (tn : Nat) (x : Tenant) : ((((s.setTen tn x).tenPut tn .active).tenResult tn 2).inc HST_ATTACH_CNT_VAL).setFlag
    HST_EVT_ATTACHED = ((((s.tenPut tn .active).tenResult tn 2).inc HST_ATTACH_CNT_VAL).setFlag HST_EVT_ATTACHED).setTen tn x := by
  unfold tenPut tenResult setFlag
  rw [setTen_put, setTen_put, setTen_inc, setTen_put]

theorem grantWrites_apart_count (s : State) (htn : tn < 64) : ∀ e ∈ (s.tenQuotas tn).map (fun e => (e.1, s.tenAsk e)) ++
    [(HST_POOL_RP_FREE, s.fld HST_POOL_RP_FREE - s.tenAsk (TNW_REQ0_RP tn, s.tenRec tn 5 1)),
      (HST_POOL_CAP_FREE, s.fld HST_POOL_CAP_FREE - s.tenAsk (TNW_REQ3_CAP tn, s.tenRec tn 16 1)),
      (HST_TN_STATE_STATE tn, 2), (TNW_CTL_RESULT tn, 2)], apart e.1 HST_ATTACH_CNT_VAL := by
  simp [tenQuotas, apart, TNW_CTL_RESULT, HST_TN_STATE_STATE, HST_ATTACH_CNT_VAL, HST_POOL_RP_FREE, HST_POOL_CAP_FREE,
    TNW_REQ0_VEC, TNW_REQ0_RP, TNW_REQ1_EM, TNW_REQ2_STREAM, TNW_REQ2_KEY, TNW_REQ3_CPH, TNW_REQ3_CAP, rTNW_CTL, rHST_TN_STATE,
    rHST_ATTACH_CNT, rHST_POOL, rTNW_REQ0, rTNW_REQ1, rTNW_REQ2, rTNW_REQ3]
  omega

/-- The writes of a grant, one after another. -/
theorem grantWrites_eq (s : State) (htn : tn < 64) : s.puts (s.grantWrites tn) =
    ((((((s.puts ((s.tenQuotas tn).map fun e => (e.1, s.tenAsk e))).put HST_POOL_RP_FREE
      (s.fld HST_POOL_RP_FREE - s.tenAsk (TNW_REQ0_RP tn, s.tenRec tn 5 1))).put HST_POOL_CAP_FREE
      (s.fld HST_POOL_CAP_FREE - s.tenAsk (TNW_REQ3_CAP tn, s.tenRec tn 16 1))).tenPut tn .active).tenResult tn 2).inc
      HST_ATTACH_CNT_VAL).setFlag HST_EVT_ATTACHED := by
  have hinc := s.inc_puts _ (f := HST_ATTACH_CNT_VAL) (by decide) (s.grantWrites_apart_count htn)
  rw [puts_append] at hinc
  generalize hq : (s.tenQuotas tn).map (fun e => (e.1, s.tenAsk e)) = q at *
  rw [grantWrites, hq, puts_append]
  rw [List.append_assoc, puts_append] at hinc
  exact (congrArg (State.setFlag · HST_EVT_ATTACHED) hinc).symm

theorem grant_accepted (htn : tn < 64) (ha : s.tenIs tn .attaching = true) (he : s.tenEnabled tn = true) (h : ∀ e ∈ s.tenQuotas tn, s.tenAsk e ≤ e.2)
    (hrp : s.tenAsk (TNW_REQ0_RP tn, s.tenRec tn 5 1) ≤ s.fld HST_POOL_RP_FREE)
    (hcap : s.tenAsk (TNW_REQ3_CAP tn, s.tenRec tn 16 1) ≤ s.fld HST_POOL_CAP_FREE) :
    exec (.grantComplete tn) s = .next ((s.puts (s.grantWrites tn)).setTen tn (s.grantedTo tn)) := by
  obtain ⟨hatt, hquota⟩ := grant_within ha he h
  refine congrArg Host.Outcome.next ((if_neg hatt).trans ((if_neg hquota).trans ((if_neg (by omega)).trans ?_)))
  rw [grantWrites_eq s htn, ← setTen_granted, ← puts_map]
  rfl

/-- What a grant writes is read back. -/
theorem grantWrites_read (s : State) (htn : tn < 64) {f : Fld} {v : Nat} (hf : f.lsb + f.wid ≤ 32) (h : (f, v) ∈ s.grantWrites tn) :
    (s.puts (s.grantWrites tn)).fld f = v % 2 ^ f.wid := fld_puts (s.grantWrites_apart htn) hf h s

theorem grantWrites_rest (s : State) (tn : Nat) : { s.puts (s.grantWrites tn) with regs := s.regs } = s :=
  (puts_onlyRegs (as := (s.grantWrites tn).map (·.1.addr)) (fun e he => List.mem_map.mpr ⟨e, he, rfl⟩) s).rest

theorem grant_writes (s : State) (htn : tn < 64) : (s.puts (s.grantWrites tn)).tenIs tn .active = true ∧
    (s.puts (s.grantWrites tn)).fld (TNW_CTL_RESULT tn) = 2 ∧
    (s.puts (s.grantWrites tn)).fld HST_ATTACH_CNT_VAL = (s.fld HST_ATTACH_CNT_VAL + 1) % 2 ^ 32 ∧
    (s.puts (s.grantWrites tn)).flag HST_EVT_ATTACHED = true ∧
    (s.puts (s.grantWrites tn)).fld HST_POOL_RP_FREE = s.fld HST_POOL_RP_FREE - s.tenAsk (TNW_REQ0_RP tn, s.tenRec tn 5 1) ∧
    (s.puts (s.grantWrites tn)).fld HST_POOL_CAP_FREE = s.fld HST_POOL_CAP_FREE - s.tenAsk (TNW_REQ3_CAP tn, s.tenRec tn 16 1) ∧
    ∀ e ∈ s.tenQuotas tn, (s.puts (s.grantWrites tn)).fld e.1 = s.tenAsk e % 2 ^ e.1.wid := by
  have hless {f : Fld} (k : Nat) : (s.fld f - k) % 2 ^ f.wid = s.fld f - k := Nat.mod_eq_of_lt ((Nat.sub_le _ _).trans_lt (s.fld_lt f))
  have hquota : ∀ e ∈ s.tenQuotas tn, e.1.lsb + e.1.wid ≤ 32 := by
    simp [tenQuotas, TNW_REQ0_VEC, TNW_REQ0_RP, TNW_REQ1_EM, TNW_REQ2_STREAM, TNW_REQ2_KEY, TNW_REQ3_CPH, TNW_REQ3_CAP]
  refine ⟨?_, ?_, ?_, ?_, ?_, ?_, fun e hmem => ?_⟩
  · rw [tenIs, s.grantWrites_read htn (f := HST_TN_STATE_STATE tn) (v := 2) (by simp [HST_TN_STATE_STATE]) (by simp [grantWrites])]
    rfl
  · exact s.grantWrites_read htn (f := TNW_CTL_RESULT tn) (v := 2) (by simp [TNW_CTL_RESULT]) (by simp [grantWrites])
  · exact s.grantWrites_read htn (f := HST_ATTACH_CNT_VAL) (by decide) (by simp [grantWrites])
  · rw [flag, s.grantWrites_read htn (f := HST_EVT_ATTACHED) (v := 1) (by decide) (by simp [grantWrites])]
    rfl
  · exact (s.grantWrites_read htn (f := HST_POOL_RP_FREE) (by decide) (by simp [grantWrites])).trans (hless (f := HST_POOL_RP_FREE) _)
  · exact (s.grantWrites_read htn (f := HST_POOL_CAP_FREE) (by decide) (by simp [grantWrites])).trans (hless (f := HST_POOL_CAP_FREE) _)
  · exact s.grantWrites_read htn (hquota e hmem) (List.mem_append_left _ (List.mem_map.mpr ⟨e, hmem, rfl⟩))

theorem grant_granted (htn : tn < 64) (ha : s.tenIs tn .attaching = true) (he : s.tenEnabled tn = true)
    (h : ∀ e ∈ s.tenQuotas tn, s.tenAsk e ≤ e.2) (hrp : s.tenAsk (TNW_REQ0_RP tn, s.tenRec tn 5 1) ≤ s.fld HST_POOL_RP_FREE)
    (hcap : s.tenAsk (TNW_REQ3_CAP tn, s.tenRec tn 16 1) ≤ s.fld HST_POOL_CAP_FREE) :
    ∃ t, exec (.grantComplete tn) s = .next t ∧ t.tenIs tn .active = true ∧ t.fld (TNW_CTL_RESULT tn) = 2 ∧
      t.fld HST_ATTACH_CNT_VAL = (s.fld HST_ATTACH_CNT_VAL + 1) % 2 ^ 32 ∧ t.flag HST_EVT_ATTACHED = true ∧
      t.fld HST_POOL_RP_FREE = s.fld HST_POOL_RP_FREE - s.tenAsk (TNW_REQ0_RP tn, s.tenRec tn 5 1) ∧
      t.fld HST_POOL_CAP_FREE = s.fld HST_POOL_CAP_FREE - s.tenAsk (TNW_REQ3_CAP tn, s.tenRec tn 16 1) ∧
      (∀ e ∈ s.tenQuotas tn, t.fld e.1 = s.tenAsk e % 2 ^ e.1.wid) ∧ (t.ten tn).live = s.clk ∧
      (t.ten tn).capRules = s.freeCapRules.take (s.tenAsk (TNW_REQ3_CAP tn, s.tenRec tn 16 1)) ∧
      { t with regs := s.regs, tenants := s.tenants } = s := by
  obtain ⟨hst, hres, hcnt, hevt, hrp', hcap', hquotas⟩ := s.grant_writes htn
  have hrest := s.grantWrites_rest tn
  refine ⟨_, grant_accepted htn ha he h hrp hcap, ?_⟩
  generalize s.puts (s.grantWrites tn) = u at *
  simp only [setTen_tenIs, setTen_fld, setTen_flag, ten_setTen_self]
  exact ⟨hst, hres, hcnt, hevt, hrp', hcap', hquotas, rfl, rfl, setTen_rest hrest tn _⟩

end
end State
end Sys2Proof.Machine
end

section
/-! SUPPORT. What the work of other blocks leaves of a tenant: its registers, its rules, its streams and its keys (R489). -/

namespace Sys2Proof.Machine

/-- What stays of a tenant while commands end and entries leave. -/
structure TenKept (x y : Tenant) : Prop where
  rules : y.capRules = x.capRules
  cmds : x.cmds = [] → y.cmds = []

theorem TenKept.refl (x : Tenant) : TenKept x x := ⟨rfl, id⟩

theorem TenKept.trans {x y z : Tenant} (h : TenKept x y) (k : TenKept y z) : TenKept x z := ⟨k.rules.trans h.rules, fun hx => k.cmds (h.cmds hx)⟩

theorem endCmd_kept (x : Tenant) (p : TenCmd → Bool) (status : Nat) (data : List Byte) : TenKept x (x.endCmd p status data) := by
  unfold Tenant.endCmd
  split
  · next c hc => exact ⟨rfl, fun h => by simp [h] at hc⟩
  · exact .refl x

namespace State

section
variable {s t u : State}

/-- A register that only the tenants' own block writes: the HST registers, and of a tenant's window TNW_CTL and TNW_REQ0. -/
def tenantReg (a : Nat) : Prop := 0x1800000 ≤ a ∧ (a < 0x1820000 ∨ (0x2000000 ≤ a ∧ a % 0x10000 ≤ 0x10 ∧ a % 0x10 = 0))

theorem not_tenantReg {a : Nat} (h : a < 0x1800000 ∨ 0x1820000 ≤ a ∧ a < 0x2000000) : ¬ tenantReg a := by
  unfold tenantReg
  omega

/-- The tenants' registers, the chart, the schedule and the keys are the same, and of each tenant what a command's end leaves. -/
structure SameTenancy (s t : State) : Prop where
  regs : ∀ a, tenantReg a → t.reg a = s.reg a
  active : t.active = s.active
  sched : t.car.sched = s.car.sched
  slots : t.blf.slots = s.blf.slots
  ten : ∀ n, TenKept (s.ten n) (t.ten n)

namespace SameTenancy

theorem refl (s : State) : s.SameTenancy s := ⟨fun _ _ => rfl, rfl, rfl, rfl, fun _ => .refl _⟩

theorem trans (h : s.SameTenancy t) (k : t.SameTenancy u) : s.SameTenancy u :=
  ⟨fun a ha => (k.regs a ha).trans (h.regs a ha), k.active.trans h.active, k.sched.trans h.sched, k.slots.trans h.slots,
    fun n => (h.ten n).trans (k.ten n)⟩

theorem same (hr : t.regs = s.regs) (ha : t.active = s.active) (hc : t.car = s.car) (hb : t.blf = s.blf) (ht : t.tenants = s.tenants) :
    s.SameTenancy t :=
  ⟨fun a _ => by rw [reg, reg, hr], ha, congrArg Car.sched hc, congrArg Blf.slots hb, fun n => ten_congr ht n ▸ .refl _⟩

theorem put (h : s.SameTenancy t) {f : Fld} (v : Nat) (hf : ¬ tenantReg f.addr) : s.SameTenancy (t.put f v) :=
  ⟨fun a ha => (reg_put_ne t f v fun e => hf (e ▸ ha)).trans (h.regs a ha), h.active, h.sched, h.slots, h.ten⟩

theorem inc (h : s.SameTenancy t) {f : Fld} (hf : ¬ tenantReg f.addr) : s.SameTenancy (t.inc f) := h.put _ hf

theorem setFlag (h : s.SameTenancy t) {f : Fld} (hf : ¬ tenantReg f.addr) : s.SameTenancy (t.setFlag f) := h.put _ hf

theorem ite {c : Prop} [Decidable c] (ht : s.SameTenancy t) (hu : s.SameTenancy u) : s.SameTenancy (if c then t else u) := by
  split
  · exact ht
  · exact hu

theorem foldl {α : Type} {f : State → α → State} {l : List α} (hf : ∀ s : State, ∀ x ∈ l, s.SameTenancy (f s x)) (s : State) :
    s.SameTenancy (l.foldl f s) :=
  List.foldlRecOn l f (motive := fun t => s.SameTenancy t) (refl s) fun t ht x hx => ht.trans (hf t x hx)

theorem fld (h : s.SameTenancy t) {f : Fld} (hf : tenantReg f.addr) : t.fld f = s.fld f := fld_of_reg (h.regs _ hf)

theorem slot (h : s.SameTenancy t) (n : Nat) : t.slot n = s.slot n := slot_congr h.slots n

/-- One tenant changed. -/
theorem setTen (s : State) (tn : Nat) {x : Tenant} (h : TenKept (s.ten tn) x) : s.SameTenancy (s.setTen tn x) := by
  refine ⟨fun _ _ => rfl, rfl, rfl, rfl, fun n => ?_⟩
  by_cases hn : n = tn
  · subst hn
    rw [ten_setTen_self]
    exact h
  · rw [ten_setTen_ne s x hn]
    exact .refl _

end SameTenancy

theorem setPlane_sameTenancy (s : State) (pl : Plane) (x : PlaneSt) : s.SameTenancy (s.setPlane pl x) := by
  cases pl <;> exact .same rfl rfl rfl rfl rfl

theorem dmaWrite_sameTenancy (s : State) (tn a : Nat) (bs : List Byte) : s.SameTenancy (s.dmaWrite tn a bs) := by
  unfold dmaWrite
  exact .ite (.same rfl rfl rfl rfl rfl) (.same rfl rfl rfl rfl rfl)

/-! ## Capture (R194 to R199) -/

theorem capCount_sameTenancy (s : State) : s.SameTenancy s.capCount := by
  have hrate : ∀ x, s.SameTenancy { s with capRate := x } := fun x => .same rfl rfl rfl rfl rfl
  exact (hrate _).inc (not_tenantReg (by decide))

theorem capPut_sameTenancy (s : State) (off : Nat) (bs : List Byte) : s.SameTenancy (s.capPut off bs) := by
  unfold capPut
  exact .ite (.same rfl rfl rfl rfl rfl) (.same rfl rfl rfl rfl rfl)

theorem capRoom_sameTenancy (s : State) (len : Nat) : s.SameTenancy (s.capRoom len) := by
  unfold capRoom
  exact .ite (.refl s) (((SameTenancy.refl s).put _ (not_tenantReg (by decide))).setFlag (not_tenantReg (by decide)))

theorem capRuleCnt_foreign (r : Nat) : ¬ tenantReg (rCAP_RULE_CNT r) := by
  simp only [tenantReg, rCAP_RULE_CNT]
  omega

theorem tnwCap_foreign (tn : Nat) : ¬ tenantReg (rTNW_CAP_HEAD tn) ∧ ¬ tenantReg (rTNW_CAP_TAIL tn) := by
  simp only [tenantReg, rTNW_CAP_HEAD, rTNW_CAP_TAIL]
  omega

theorem capRecord_sameTenancy (s : State) (mk : Nat → List Byte) (len : Nat) (rule : Option Nat) : s.SameTenancy (s.capRecord mk len rule) := by
  have hroom : s.SameTenancy (if s.flag CAP_CTL_MODE then s.capRoom len else s) := .ite (s.capRoom_sameTenancy len) (.refl s)
  have hhead : ∀ (u : State) off bs v, u.SameTenancy ((u.capCount.capPut off bs).put CAP_HEAD_HEAD v) := fun u off bs v =>
    (u.capCount_sameTenancy.trans (capPut_sameTenancy _ off bs)).put v (not_tenantReg (by decide))
  unfold capRecord
  refine .ite ((SameTenancy.refl s).inc (not_tenantReg (by decide))) ?_
  refine .ite ((hroom.inc (not_tenantReg (by decide))).setFlag (not_tenantReg (by decide))) ?_
  cases rule with
  | none => exact .ite ((hroom.trans (hhead _ _ _ _)).setFlag (not_tenantReg (by decide))) (hroom.trans (hhead _ _ _ _))
  | some r =>
    exact .ite (((hroom.trans (hhead _ _ _ _)).inc (capRuleCnt_foreign r)).setFlag (not_tenantReg (by decide)))
      ((hroom.trans (hhead _ _ _ _)).inc (capRuleCnt_foreign r))

theorem capTenant_sameTenancy (s : State) (tn : Nat) (mk : Nat → List Byte) (len rule : Nat) : s.SameTenancy (s.capTenant tn mk len rule) := by
  obtain ⟨hhead, htail⟩ := tnwCap_foreign tn
  unfold capTenant
  split
  · exact .refl s
  · refine .ite ((SameTenancy.refl s).inc (not_tenantReg (by decide))) ?_
    refine .ite (((SameTenancy.refl s).inc (not_tenantReg (by decide))).setFlag (not_tenantReg (by decide))) ?_
    have hroom : ∀ (c : Prop) [Decidable c] v, s.SameTenancy (if c then s else (s.put (TNW_CAP_TAIL_TAIL tn) v).setFlag CAP_EVT_WRAP) :=
      fun c _ v => .ite (.refl s) (((SameTenancy.refl s).put v htail).setFlag (not_tenantReg (by decide)))
    exact ((((hroom _ _).trans (capCount_sameTenancy _)).trans ((dmaWrite_sameTenancy _ _ _ _).trans
      (dmaWrite_sameTenancy _ _ _ _))).put _ hhead).inc (capRuleCnt_foreign rule)

theorem capture_sameTenancy (s : State) (point pcode port : Nat) (bs : List Byte) (outer : Bool) (reason : Nat) (stream : Option Nat)
    (tc : Nat) (time : List TbTime) : s.SameTenancy (s.capture point pcode port bs outer reason stream tc time) := by
  unfold capture
  refine .ite (.refl s) ?_
  split
  · exact .refl s
  · have hsample : ∀ t, s.SameTenancy { s with capSample := t } := fun t => .same rfl rfl rfl rfl rfl
    refine .ite (hsample _) (.ite ((hsample _).trans (capRecord_sameTenancy _ _ _ _)) ?_)
    split
    · exact (hsample _).trans (capTenant_sameTenancy _ _ _ _ _)
    · exact (hsample _).trans (capRecord_sameTenancy _ _ _ _)

/-! ## Buffers (R175 to R184) -/

theorem release_sameTenancy (s : State) (f : Frame) : s.SameTenancy (s.release f) := by
  have hunmark : s.SameTenancy (s.unmark f.plane f.pool f.buf) := .same rfl rfl rfl rfl rfl
  unfold release freeBuf
  exact .ite hunmark (hunmark.trans (setPlane_sameTenancy _ _ _))

theorem drop_sameTenancy (s : State) (f : Frame) (reason : Nat) : s.SameTenancy (s.drop f reason) :=
  (s.capture_sameTenancy _ _ _ _ _ _ _ _ _).trans (release_sameTenancy _ f)

theorem half_lt (pl : Plane) : half pl < 0x100000 := by cases pl <;> decide

/-- The registers of a plane's buffers. -/
theorem bpm_foreign (pl : Plane) {b : Nat} (h : b < 0x1000000) : ¬ tenantReg (b + half pl) := by
  have hhalf := half_lt pl
  exact not_tenantReg (.inl (by omega))

theorem bpmPool_foreign (pl : Plane) {b p k : Nat} (h : b < 0x1000000) (hp : p < 4) (hk : k ≤ 0x10) : ¬ tenantReg (b + half pl + k * p) := by
  have hhalf := half_lt pl
  have hmul : k * p ≤ 0x10 * 3 := Nat.mul_le_mul hk (by omega)
  exact not_tenantReg (.inl (by omega))

theorem listError_sameTenancy (s : State) (pl : Plane) {p : Nat} (hp : p < 4) (b : Nat) : s.SameTenancy (s.listError pl p b) := by
  unfold listError
  dsimp only
  have hfree : ¬ tenantReg (rBPM_POOL_FREE pl p) := bpmPool_foreign pl (by decide) hp (by decide)
  have herr : ¬ tenantReg (rBPM_LIST_ERR pl) := bpm_foreign pl (by decide)
  have hevt : ¬ tenantReg (rBPM_EVT pl) := bpm_foreign pl (by decide)
  have hset (x : PlaneSt) := ((s.setPlane_sameTenancy pl x).put (f := BPM_POOL_FREE_ERROR pl p) 1 hfree).setFlag (f := BPM_EVT_LIST_ERR pl) hevt
  exact .ite ((hset _).put (f := BPM_LIST_ERR_OVERFLOW pl) 1 herr) ((((hset _).put (f := BPM_LIST_ERR_VALID pl) 1 herr).put
    (f := BPM_LIST_ERR_POOL pl) p herr).put (f := BPM_LIST_ERR_INDEX pl) b herr)

theorem popBuf_sameTenancy (s : State) (pl : Plane) {p : Nat} (hp : p < 4) (crit : Bool) : s.SameTenancy (s.popBuf pl p crit).1 := by
  have hmin : ¬ tenantReg (rBPM_POOL_MINFREE pl p) := bpmPool_foreign pl (by decide) hp (by decide)
  have hevt : ¬ tenantReg (rBPM_EVT pl) := bpm_foreign pl (by decide)
  have hstomp : ∀ l, s.SameTenancy { s with stomps := l } := fun l => .same rfl rfl rfl rfl rfl
  unfold popBuf
  dsimp only
  generalize (if crit = true then 0 else s.fld (BPM_POOL_RSV_CRIT_RESERVE pl p)) = reserve
  split
  · exact .refl s
  split
  · exact .refl s
  split
  · exact s.listError_sameTenancy pl hp _
  · have hput (l : List (Nat × Nat × Nat)) (x : PlaneSt) (v : Nat) :=
      ((hstomp l).trans (setPlane_sameTenancy _ pl x)).put (f := BPM_POOL_MINFREE_MINFREE pl p) v hmin
    exact .ite ((hput _ _ _).setFlag (f := BPM_EVT_LOW pl) hevt) (hput _ _ _)

theorem allocLost_sameTenancy (s : State) (pl : Plane) {p : Nat} (hp : p < 4) : s.SameTenancy (s.allocLost pl p) :=
  ((SameTenancy.refl s).inc (f := BPM_EMPTY_CNT_VAL pl p) (bpmPool_foreign pl (by decide) hp (by decide))).setFlag (f := BPM_EVT_EMPTY pl)
    (bpm_foreign pl (by decide))

theorem nextPool_lt {pl : Plane} {p q : Nat} (h : s.nextPool pl p = some q) : q < 4 := by
  have hmem := List.mem_of_find?_eq_some h
  simp only [List.mem_cons, List.not_mem_nil, or_false] at hmem
  omega

theorem allocFrom_sameTenancy (s : State) (pl : Plane) {start : Nat} (hs : start < 4) (crit : Bool) (fuel : Nat) {p : Nat} (hp : p < 4) :
    s.SameTenancy (s.allocFrom pl start crit fuel p).1 := by
  induction fuel generalizing s p with
  | zero => exact s.allocLost_sameTenancy pl hs
  | succ fuel ih =>
    have hpop := s.popBuf_sameTenancy pl hp crit
    rw [allocFrom]
    split
    · next s1 b he => rwa [he] at hpop
    · next s1 he =>
      rw [he] at hpop
      split
      · next q _ hq =>
        have hspill := hpop.inc (f := BPM_SPILL_CNT_VAL pl p) (bpmPool_foreign pl (by decide) hp (by decide))
        exact hspill.trans (ih _ (nextPool_lt hq))
      · exact hpop.trans (allocLost_sameTenancy _ pl hs)

theorem alloc_sameTenancy (s : State) (pl : Plane) (len : Nat) (crit : Bool) : s.SameTenancy (s.alloc pl len crit).1 := by
  unfold alloc
  split
  · next p hp => exact s.allocFrom_sameTenancy pl (fitPool_lt hp) crit 4 (fitPool_lt hp)
  · exact s.allocLost_sameTenancy pl (by decide)

end
end State
end Sys2Proof.Machine
end

section
/-! SUPPORT. What a frame that the device sends, a wake and a completion leave of a tenant (R186, R494, R499). -/

namespace Sys2Proof.Machine
namespace State

section
variable {s t u : State} {tn : Nat} {f : Frame} {d : Dest}

/-! ## Requests of network management (R371, R385) -/

theorem WakeFrame.sameTenancy {k : Nat} (h : WakeFrame k s t) : s.SameTenancy t :=
  ⟨fun a ha => h.beside a (.inr ha.1), (congrArg State.active h.rest :), congrArg Car.sched (congrArg State.car h.rest :),
    congrArg Blf.slots (congrArg State.blf h.rest :), fun n => ten_congr (congrArg State.tenants h.rest :) n ▸ .refl _⟩

theorem clusterOf_lt {p c : Nat} (h : s.clusterOf p = some c) : c < 16 := List.mem_range.mp (List.mem_of_find?_eq_some h)

theorem txWake_sameTenancy (s : State) (p : Nat) : s.SameTenancy (s.txWake p) := by
  unfold txWake
  split
  · next c hc => exact .ite (s.nmWake_frame (k := 0) (by decide) (clusterOf_lt hc) _ _ _).sameTenancy (.refl s)
  · exact .refl s

theorem countDown_sameTenancy (s : State) (p : Nat) : s.SameTenancy (s.countDown p) := by
  unfold countDown
  split
  · exact (SameTenancy.refl s).inc (not_tenantReg (.inl (by simp only [ETH_DOWN_DROP_CNT_VAL, rETH_DOWN_DROP_CNT]; omega)))
  · split
    · exact (SameTenancy.refl s).inc (not_tenantReg (.inl (by simp only [T1S_DOWN_DROP_CNT_VAL, rT1S_DOWN_DROP_CNT]; omega)))
    · exact .refl s

/-- A tenant's request ends. -/
theorem nmTenant_released (s : State) {c : Nat} (hc : c < 16) (tn : Nat) : s.SameTenancy (s.nmTenant c tn false) := by
  have hlo : ¬ tenantReg (NMW_NC_TREQ_LO_TN c).addr := not_tenantReg (.inl (by simp only [NMW_NC_TREQ_LO_TN, rNMW_NC_TREQ_LO]; omega))
  have hhi : ¬ tenantReg (NMW_NC_TREQ_HI_TN c).addr := not_tenantReg (.inl (by simp only [NMW_NC_TREQ_HI_TN, rNMW_NC_TREQ_HI]; omega))
  have hput (v : Nat) : s.SameTenancy (s.put64 (NMW_NC_TREQ_LO_TN c) (NMW_NC_TREQ_HI_TN c) v) := ((SameTenancy.refl s).put _ hlo).put _ hhi
  unfold nmTenant
  dsimp only
  rw [if_neg Bool.false_ne_true]
  exact .ite ((hput _).trans (nmRelease_frame _ 0 c).sameTenancy) (hput _)

/-! ## Admission of a frame for one destination (R186) -/

/-- A refusal that a channel counts is one at a CAN port. -/
theorem kindCheck_channel {p : Nat} {x : Refuse} (h : s.kindCheck f p = some x) (hx : x = .format ∨ x = .tunnel) : p < 64 := by
  by_contra hp
  unfold kindCheck at h
  dsimp only at h
  rw [if_neg (by omega), if_neg (by omega)] at h
  split at h
  · split at h
    · cases h
    · split at h
      · split at h
        · cases h
        · cases h
          simp at hx
      · cases h
        simp at hx
  · cases h

theorem refusal_channel {size p : Nat} {x : Refuse} (h : s.refusal f size p = some x) (hx : x = .format ∨ x = .tunnel) : p < 64 := by
  unfold refusal at h
  split at h
  · cases h
    simp at hx
  · split at h
    · next r hr =>
      cases h
      exact kindCheck_channel hr hx
    · split at h
      · cases h
        simp at hx
      · split at h
        · cases h
          simp at hx
        · cases h

theorem refused_sameTenancy (s : State) (pl : Plane) (hd : d.copy = false) {x : Refuse} (hx : x = .format ∨ x = .tunnel → d.port < 64) :
    s.SameTenancy (s.refused pl d x) := by
  have hadm : s.SameTenancy (s.inc (BPM_ADMIT_DROP_CNT_VAL pl)) := (SameTenancy.refl s).inc (bpm_foreign pl (by decide))
  unfold refused
  rw [hd]
  cases x with
  | admission => exact hadm
  | kind => exact hadm
  | format => exact hadm.inc (not_tenantReg (.inl (by have := hx (.inl rfl); simp only [CAN_FORMAT_DROP_CNT_VAL, rCAN_FORMAT_DROP_CNT]; omega)))
  | tunnel => exact hadm.inc (not_tenantReg (.inl (by have := hx (.inr rfl); simp only [CAN_TUNNEL_DROP_CNT_VAL, rCAN_TUNNEL_DROP_CNT]; omega)))
  | down => exact (s.countDown_sameTenancy d.port).trans (txWake_sameTenancy _ d.port)
  | qlimit => exact (SameTenancy.refl s).inc (bpm_foreign pl (by decide))

theorem ringFor_sameTenancy (s : State) (f : Frame) (p : Nat) : s.SameTenancy (s.ringFor f p).1 := by
  unfold ringFor
  split
  · exact .refl s
  · exact .same rfl rfl rfl rfl rfl

theorem enqueue_sameTenancy (s : State) (pl : Plane) (p tc : Nat) (e : QEntry) : s.SameTenancy (s.enqueue pl p tc e) := s.setPlane_sameTenancy pl _

theorem sentExc_sameTenancy (s : State) (d : Dest) : s.SameTenancy (s.sentExc d) :=
  .ite ((SameTenancy.refl s).inc (bpm_foreign s.lead (b := 0x80010C) (by decide))) (.refl s)

/-- An Ethernet frame admitted to one destination, no copy. -/
theorem admission_one_sameTenancy (s : State) (hf : f.legacy = false) (hd : d.copy = false) : s.SameTenancy (s.admission f [d]) := by
  have hcan : canBound f d.port = false := by simp [canBound, Frame.kind, hf]
  cases h : s.refusal f (poolSize f.pool) d.port with
  | some x =>
    have hone : Admit.one f ⟨s, [], f, 0⟩ d = ⟨s.refused f.plane d x, [], f, x.reason d.copy⟩ := by
      simp only [Admit.one, List.isEmpty_nil, if_true, h]
    have hrefused := s.refused_sameTenancy f.plane hd (refusal_channel h)
    unfold admission
    rw [List.foldl_cons, List.foldl_nil, hone]
    exact .ite (hrefused.trans (release_sameTenancy _ f)) (hrefused.trans (drop_sameTenancy _ f _))
  | none =>
    have hone : Admit.one f ⟨s, [], f, 0⟩ d = ⟨s, [d], f, 0⟩ := by
      simp only [Admit.one, List.isEmpty_nil, if_true, h, hcan, List.nil_append]
    unfold admission
    rw [List.foldl_cons, List.foldl_nil, hone]
    simp only [ne_eq, not_true_eq_false, false_and, if_false, if_true]
    exact ((s.ringFor_sameTenancy f d.port).trans (enqueue_sameTenancy _ _ _ _ _)).trans (sentExc_sameTenancy _ d)

theorem sendInband_sameTenancy (s : State) (tn type : Nat) (entries : List (List Byte)) : s.SameTenancy (s.sendInband tn type entries) := by
  have hrandom : s.SameTenancy (s.random 6).1 := by
    rw [random_state]
    exact .same rfl rfl rfl rfl rfl
  have halloc {len : Nat} {r : State × Option (Nat × Nat)} (he : (s.random 6).1.alloc (s.random 6).1.lead len false = r) : s.SameTenancy r.1 :=
    hrandom.trans (he ▸ alloc_sameTenancy _ _ len false)
  unfold sendInband
  dsimp only
  split
  · next s2 he => exact halloc he
  · next s2 p he => exact (halloc he).trans (admission_one_sameTenancy _ rfl rfl)

end
end State
end Sys2Proof.Machine
end

section
/-! SUPPORT. What completions and the cipher pool leave of a tenant (R446, R494, R499, R501). -/

namespace Sys2Proof.Machine

theorem nextCpl_kept {x y : Tenant} {ent : List Byte} {ev : Bool} (h : x.nextCpl = some (y, ent, ev)) : TenKept x y := by
  unfold Tenant.nextCpl at h
  split at h
  · cases h
    exact ⟨rfl, id⟩
  · split at h
    · next c hc =>
      split at h
      · cases h
        exact ⟨rfl, fun hx => by simp [hx]⟩
      · cases h
    · cases h

namespace State

section
variable {s t u : State} {tn : Nat}

/-! ## Completions leave (R494, R499) -/

theorem dozeWake_sameTenancy (s : State) (tn : Nat) : s.SameTenancy (s.dozeWake tn) := by
  have hwoken : s.SameTenancy (s.setTen tn { s.ten tn with woken := true }) := .setTen s tn ⟨rfl, id⟩
  unfold dozeWake
  refine .ite (.refl s) (.ite (hwoken.trans (sendInband_sameTenancy _ _ _ _)) (.ite ?_ ?_))
  · exact hwoken.trans (.same rfl rfl rfl rfl rfl)
  · exact hwoken.trans (.same rfl rfl rfl rfl rfl)

theorem vecEvent_sameTenancy (s : State) (tn v : Nat) (cpl : Bool) : s.SameTenancy (s.vecEvent tn v cpl) := by
  have hnoted : s.SameTenancy (s.setTen tn (evNoted (s.ten tn) v cpl)) := .setTen s tn ⟨rfl, id⟩
  exact .ite (.refl s) (.ite (hnoted.trans (dozeWake_sameTenancy _ tn)) hnoted)

theorem cplWrite_sameTenancy (s : State) (tn : Nat) : s.SameTenancy (s.cplWrite tn) := by
  have htail : ¬ tenantReg (rTNW_CPLQ_TAIL tn) := by
    simp only [tenantReg, rTNW_CPLQ_TAIL]
    omega
  unfold cplWrite
  split
  · exact .refl s
  · next x ent ev hx =>
    have hkept (y : Tenant) (hr : y.capRules = x.capRules) (hc : y.cmds = x.cmds) : s.SameTenancy (s.setTen tn y) :=
      .setTen s tn ((nextCpl_kept hx).trans ⟨hr, fun h => hc.trans h⟩)
    refine .ite (.refl s) (.ite ?_ (.ite (.refl s) ?_))
    · have hdone := hkept { x with inband := x.inband ++ [ent], cplEv := if ev then [0] else x.cplEv } rfl rfl
      exact .ite (hdone.trans (dozeWake_sameTenancy _ tn)) hdone
    · have hput (v a w : Nat) := ((hkept { x with phase := if v = 0 then !x.phase else x.phase } rfl rfl).trans
        (dmaWrite_sameTenancy _ tn a ent)).put (f := TNW_CPLQ_TAIL_TAIL tn) w htail
      exact .ite ((hput _ _ _).trans (vecEvent_sameTenancy _ tn _ true)) (hput _ _ _)

theorem cplFlush_sameTenancy (s : State) (tn n : Nat) : s.SameTenancy (s.cplFlush tn n) := by
  induction n generalizing s with
  | zero => exact .refl s
  | succ n ih => exact (s.cplWrite_sameTenancy tn).trans (ih _)

theorem inbandFlush_sameTenancy (s : State) (tn n : Nat) : s.SameTenancy (s.inbandFlush tn n) := by
  induction n generalizing s with
  | zero => exact .refl s
  | succ n ih =>
    rw [inbandFlush]
    split
    · exact .refl s
    · have hout (l : List (List Byte)) : s.SameTenancy (s.setTen tn { s.ten tn with inband := l, cplEv := [] }) := .setTen s tn ⟨rfl, id⟩
      exact ((hout _).trans (sendInband_sameTenancy _ _ _ _)).trans (ih _)

/-! ## Results of the cipher pool (R225, R447) -/

theorem cphTenant_sameTenancy (s : State) (tn op status : Nat) : s.SameTenancy (s.cphTenant tn op status) := .setTen s tn (endCmd_kept _ _ _ _)

theorem withCph_sameTenancy (h : s.SameTenancy t) (x : Cph) : s.SameTenancy { t with cph := x } := h.trans (.same rfl rfl rfl rfl rfl)

theorem deliverOps_sameTenancy (l : List CphOp) (blocked : List Nat) (s : State) : s.SameTenancy (deliverOps l blocked s).1 := by
  induction l generalizing blocked s with
  | nil => exact .refl s
  | cons op l ih =>
    rw [deliverOps]
    dsimp only
    split
    · next st full _ _ =>
      split
      · have hput (x : List (Nat × Nat)) : s.SameTenancy (({ s with cph := { s.cph with cpl := x } } : State).setFlag CPH_EVT_CPL) :=
          (withCph_sameTenancy (.refl s) _).setFlag (not_tenantReg (by decide))
        split
        · exact (SameTenancy.ite (hput _) ((hput _).setFlag (not_tenantReg (by decide)))).trans (ih _ _)
        · exact (SameTenancy.ite (.refl s) ((SameTenancy.refl s).setFlag (not_tenantReg (by decide)))).trans (ih _ _)
      · split
        · exact (s.cphTenant_sameTenancy _ _ _).trans (ih _ _)
        · exact ih _ _
    · exact ih _ _

theorem cphDeliver_sameTenancy (s : State) : s.SameTenancy s.cphDeliver := withCph_sameTenancy (deliverOps_sameTenancy _ _ s) _

theorem cphEnd_sameTenancy (s : State) (id status : Nat) : s.SameTenancy (s.cphEnd id status) := by
  have hcount : s.SameTenancy (if status = cpORPHANED then s.inc BLF_ORPHAN_USE_CNT_VAL else s) :=
    .ite ((SameTenancy.refl s).inc (not_tenantReg (by decide))) (.refl s)
  exact (hcount.trans (withCph_sameTenancy (.refl _) _)).trans (cphDeliver_sameTenancy _)

theorem cphWrite_sameTenancy (s : State) (dom a : Nat) (bs : List Byte) : s.SameTenancy (s.cphWrite dom a bs) := by
  unfold cphWrite
  exact .ite (.same rfl rfl rfl rfl rfl) (s.dmaWrite_sameTenancy _ a bs)

theorem cphZero_sameTenancy (s : State) (op : CphOp) : s.SameTenancy (s.cphZero op) := by
  have hfresh : s.SameTenancy s.fresh.1 := .same rfl rfl rfl rfl rfl
  unfold cphZero
  exact .ite (hfresh.trans (cphWrite_sameTenancy _ _ _ _)) (.refl s)

theorem cphAbort_sameTenancy (s : State) (dom id : Nat) : s.SameTenancy (s.cphAbort dom id).1 := by
  unfold cphAbort
  split
  · exact .refl s
  · split
    · exact (s.cphZero_sameTenancy _).trans (cphEnd_sameTenancy _ _ _)
    · exact .refl s

theorem abortCmd_sameTenancy (s : State) (tn : Nat) (c : TenCmd) : s.SameTenancy (s.abortCmd tn c) := by
  unfold abortCmd
  split
  · exact s.cphAbort_sameTenancy _ _
  · exact .refl s
  · exact .setTen s tn (endCmd_kept _ _ _ _)

end
end State
end Sys2Proof.Machine
end

section
/-! SUPPORT. What Carillon, the table engine and network management leave of a tenant (R17, R291, R332, R371). -/

namespace Sys2Proof.Machine
namespace State

section
variable {s t u : State} {tn : Nat}

/-! ## Carillon's jobs (R291, R299) -/

/-- Carillon changed, with the schedule in force the same. -/
theorem withCar_sameTenancy (s : State) {c : Car} (hc : c.sched = s.car.sched) : s.SameTenancy { s with car := c } :=
  ⟨fun _ _ => rfl, rfl, hc, rfl, fun _ => .refl _⟩

theorem putCar_sameTenancy (s : State) {c : Car} (hc : c.sched = s.car.sched) : s.SameTenancy (s.putCar c) := by
  have hput {f : Fld} (v : Nat) (hf : f.addr < 0x1800000) {t : State} (h : s.SameTenancy t) : s.SameTenancy (t.put f v) :=
    h.put v (not_tenantReg (.inl hf))
  exact hput _ (by decide) (hput _ (by decide) (hput _ (by decide) (hput _ (by decide) (hput _ (by decide) (hput _ (by decide)
    (hput _ (by decide) (s.withCar_sameTenancy hc)))))))

theorem notEvaluated_sameTenancy (s : State) (i : JobItem) : s.SameTenancy (s.notEvaluated i) := by
  unfold notEvaluated
  split
  · exact s.withCar_sameTenancy rfl
  · split
    · exact s.withCar_sameTenancy rfl
    · exact .refl s

theorem carShow_sameTenancy (s : State) (code : Nat) : s.SameTenancy (s.carShow code) :=
  .ite ((SameTenancy.refl s).put _ (not_tenantReg (by decide))) (.refl s)

theorem carCancelled_sameTenancy (s : State) (j : Job) : s.SameTenancy (s.carCancelled j) := by
  have hitems : s.SameTenancy (j.items.foldl State.notEvaluated s) := .foldl (fun s i _ => s.notEvaluated_sameTenancy i) s
  have hrejected : s.SameTenancy (if j.declares then (j.items.foldl State.notEvaluated s).setFlag CAR_EVT_REJECT
      else j.items.foldl State.notEvaluated s) := .ite (hitems.setFlag (not_tenantReg (by decide))) hitems
  unfold carCancelled
  dsimp only
  split
  · exact (hrejected.trans (carShow_sameTenancy _ 7)).setFlag (not_tenantReg (by decide))
  · exact hrejected.trans (.setTen _ _ (endCmd_kept _ _ _ _))
  · exact hrejected

theorem carDrop_sameTenancy (s : State) (p : JobSrc → Bool) : s.SameTenancy (s.carDrop p) := by
  unfold carDrop
  refine (s.putCar_sameTenancy ?_).trans (.foldl (fun s j _ => s.carCancelled_sameTenancy j) _)
  rfl

/-! ## The tables (R17, R66, R332) -/

theorem mirrorWalk_sameTenancy (s : State) : s.SameTenancy s.mirrorWalk := by
  unfold mirrorWalk
  split
  · exact .ite (s.setPlane_sameTenancy _ _) (.refl s)
  · exact .refl s

theorem posApply_sameTenancy (s : State) (pls : List Plane) (r : Region) (ri : Nat) (ops : List TblOp) :
    s.SameTenancy (s.posApply pls r ri ops) := by
  have hback (m : Mem) : s.SameTenancy (if r.pageable then { s with lpddr := m } else s) := .ite (.same rfl rfl rfl rfl rfl) (.refl s)
  refine (hback _).trans (.foldl (fun s pl _ => ?_) _)
  split
  · exact .refl s
  · exact s.setPlane_sameTenancy pl _

theorem putKey1_sameTenancy (s : State) (pl : Plane) (wide : Bool) (x : Slot) : s.SameTenancy (s.putKey1 pl wide x).1 := by
  unfold putKey1
  split
  · exact s.posApply_sameTenancy _ _ _ _
  · split
    · exact .refl s
    · split
      · exact (SameTenancy.refl s).setFlag (not_tenantReg (by cases pl <;> decide))
      · exact s.posApply_sameTenancy _ _ _ _

theorem keyApply_sameTenancy (s : State) (pl : Plane) (wide : Bool) (k : KeyOp) : s.SameTenancy (s.keyApply pl wide k) := by
  unfold keyApply
  split
  · next x =>
    have hput := s.putKey1_sameTenancy pl wide x
    exact .ite hput (hput.inc (not_tenantReg (by decide)))
  · split
    · exact s.posApply_sameTenancy _ _ _ _
    · exact .refl s
  · split
    · exact s.posApply_sameTenancy _ _ _ _
    · exact .refl s

theorem tblApply_sameTenancy (s : State) (ri : Nat) (ops : List TblOp) : s.SameTenancy (s.tblApply ri ops) := by
  unfold tblApply
  split
  · exact .refl s
  · exact ((s.posApply_sameTenancy _ _ _ _).trans (.foldl (fun s pl _ => .foldl (fun s k _ => s.keyApply_sameTenancy pl _ k) s) _)).trans
      (mirrorWalk_sameTenancy _)

theorem tenEntriesOut_sameTenancy (s : State) (tn : Nat) : s.SameTenancy (s.tenEntriesOut tn) := by
  refine .foldl (fun s ri _ => ?_) s
  split
  · exact s.tblApply_sameTenancy _ _
  · exact .refl s

end
end State
end Sys2Proof.Machine
end

section
/-! SUPPORT. The detach sequence of a tenant up to its end (R489). -/

namespace Sys2Proof.Machine
namespace State

section
variable {s t u : State} {tn n cause : Nat} {x : Tenant}

/-- The tenants' registers, the chart and the schedule are the same, and of each tenant what a command's end leaves. -/
structure SameTenure (s t : State) : Prop where
  regs : ∀ a, tenantReg a → t.reg a = s.reg a
  active : t.active = s.active
  sched : t.car.sched = s.car.sched
  ten : ∀ n, TenKept (s.ten n) (t.ten n)

theorem SameTenancy.tenure (h : s.SameTenancy t) : s.SameTenure t := ⟨h.regs, h.active, h.sched, h.ten⟩

theorem SameTenure.same (hr : t.regs = s.regs) (ha : t.active = s.active) (hc : t.car = s.car) (ht : t.tenants = s.tenants) : s.SameTenure t :=
  ⟨fun a _ => by rw [reg, reg, hr], ha, congrArg Car.sched hc, fun n => ten_congr ht n ▸ .refl _⟩

theorem SameTenure.trans (h : s.SameTenure t) (k : t.SameTenure u) : s.SameTenure u :=
  ⟨fun a ha => (k.regs a ha).trans (h.regs a ha), k.active.trans h.active, k.sched.trans h.sched, fun n => (h.ten n).trans (k.ten n)⟩

theorem SameTenure.fld (h : s.SameTenure t) {f : Fld} (hf : tenantReg f.addr) : t.fld f = s.fld f := fld_of_reg (h.regs _ hf)

/-! ## The keys of a tenant leave (R413, R489) -/

/-- The slots that a tenant owns and that hold a key. -/
def ownedSlots (s : State) (tn : Nat) : List Nat :=
  (List.range 1024).filter (fun n => ((s.slot n).cur.isSome || (s.slot n).pend.isSome) && (s.slot n).owner == tn)

def keysOut (s : State) (tn : Nat) : State := (s.ownedSlots tn).foldl (fun s n => s.blfKill n) s

theorem withBelow_sameTenure (s : State) (l : Tab (List Nat)) : s.SameTenure (s.withBelow l) := .same rfl rfl rfl rfl
theorem setSlot_sameTenure (s : State) (n : Nat) (x : SlotSt) : s.SameTenure (s.setSlot n x) := .same rfl rfl rfl rfl
theorem slotEdge_sameTenure (s : State) (n : Nat) (killed : Bool) : s.SameTenure (s.slotEdge n killed) := .same rfl rfl rfl rfl

theorem blfKill_sameTenure (s : State) (n : Nat) : s.SameTenure (s.blfKill n) := by
  have hnoted : s.SameTenure (s.killNoted n) :=
    ((s.slotEdge_sameTenure n true).trans (setSlot_sameTenure _ n _)).trans (withBelow_sameTenure _ _)
  rw [blfKill_eq]
  split
  · exact hnoted
  · exact hnoted.trans ((SameTenancy.refl (s.killNoted n)).setFlag (not_tenantReg (by decide))).tenure

theorem keysOut_sameTenure (s : State) (tn : Nat) : s.SameTenure (s.keysOut tn) :=
  foldl_relates (R := SameTenure) (fun s => (SameTenancy.refl s).tenure) .trans (fun s n _ => s.blfKill_sameTenure n) s

theorem killAll_slot_ne {l : List Nat} (h : n ∉ l) (s : State) : (l.foldl (fun s n => s.blfKill n) s).slot n = s.slot n :=
  foldl_relates (R := fun s t => t.slot n = s.slot n) (fun _ => rfl) (fun h k => k.trans h)
    (fun s _ hm => s.blfKill_slot_ne fun e => h (e ▸ hm)) s

theorem mem_ownedSlots : n ∈ s.ownedSlots tn ↔ n < 1024 ∧ ((s.slot n).cur.isSome = true ∨ (s.slot n).pend.isSome = true) ∧ (s.slot n).owner = tn := by
  simp [ownedSlots]

theorem keysOut_kept (h : (s.slot n).owner ≠ tn ∨ (s.slot n).cur = none ∧ (s.slot n).pend = none) : (s.keysOut tn).slot n = s.slot n := by
  refine killAll_slot_ne (fun hmem => ?_) s
  obtain ⟨-, hsome, howner⟩ := mem_ownedSlots.mp hmem
  obtain hne | ⟨hc, hp⟩ := h
  · exact hne howner
  · simp [hc, hp] at hsome

theorem keysOut_gone (hn : 2 ≤ n) (hlt : n < 1024) (hc : (s.slot n).cur.isSome = true) (ho : (s.slot n).owner = tn) :
    (s.keysOut tn).slot n = (s.slot n).emptied := by
  have hnodup : (s.ownedSlots tn).Nodup := List.nodup_range.filter _
  obtain ⟨l1, l2, h1, h2, -, -, heq⟩ := foldl_once (f := fun s n => s.blfKill n) hnodup (mem_ownedSlots.mpr ⟨hlt, .inl hc, ho⟩) s
  rw [keysOut, heq, killAll_slot_ne h2, blfKill_slot_self _ hn, killAll_slot_ne h1]

/-! ## The steps (R489) -/

/-- The tenant is DETACHING, with the cause of it. -/
def detachBegun (s : State) (tn cause : Nat) : State := (s.tenPut tn .detaching).put (HST_TN_STATE_CAUSE tn) cause

/-- Its requests, its capture rules, its jobs and its commands end. -/
def workEnded (s : State) (tn : Nat) (x : Tenant) : State :=
  x.cmds.foldl (fun s c => s.abortCmd tn c)
    ((((List.range 16).filter (fun r => x.capRules.contains r)).foldl (fun s r => s.put (CAP_RULE_CFG_EN r) 0)
      (((List.range 16).filter (fun c => x.nm.contains c)).foldl (fun s c => s.nmTenant c tn false) s)).carDrop (fun src => match src with
        | .tenant t _ => t == tn
        | _ => false))

/-- A reclaim is counted. -/
def reclaimCounted (s : State) : State := (s.inc HST_RECLAIM_CNT_VAL).setFlag HST_EVT_RECLAIM

/-- A DETACH lets completions leave. -/
def completionsOut (s : State) (tn : Nat) (x : Tenant) : State := (s.cplFlush tn (x.cmds.length + x.reports.length)).inbandFlush tn 64

/-- The steps before the keys leave. -/
def detachNoted (s : State) (tn cause : Nat) : State :=
  if cause != 0 then ((s.detachBegun tn cause).workEnded tn (s.ten tn)).reclaimCounted
  else ((s.detachBegun tn cause).workEnded tn (s.ten tn)).completionsOut tn (s.ten tn)

/-- All but the end of the sequence. -/
def detachSwept (s : State) (tn cause : Nat) : State := ((s.detachNoted tn cause).keysOut tn).tenEntriesOut tn

/-- The withdrawal of a tenant's streams at the head of Carillon's queue. -/
def withdrawalQueued (s : State) (tn : Nat) (reclaimed : Bool) : State :=
  (s.setTen tn { s.ten tn with quiet := reclaimed, withdrawing := true, nm := [] }).putCar
    { s.car with queue := ⟨.detach tn, (s.tenStreams tn).map (.withdraw ·), false, none, false⟩ :: s.car.queue }

theorem detach_eq (s : State) (tn cause : Nat) : s.detach tn cause = if (s.detachSwept tn cause).tenStreams tn = [] then
    (s.detachSwept tn cause).detachDone tn else (s.detachSwept tn cause).withdrawalQueued tn (cause != 0) := rfl

theorem workEnded_sameTenancy (s : State) (tn : Nat) (x : Tenant) : s.SameTenancy (s.workEnded tn x) := by
  have hlt {c : Nat} {p : Nat → Bool} (h : c ∈ (List.range 16).filter p) : c < 16 := List.mem_range.mp (List.mem_of_mem_filter h)
  refine (((SameTenancy.foldl (fun s c hc => s.nmTenant_released (hlt hc) tn) s).trans (.foldl (fun s r hr => ?_) _)).trans
    (carDrop_sameTenancy _ _)).trans (.foldl (fun s c _ => s.abortCmd_sameTenancy tn c) _)
  refine (SameTenancy.refl s).put 0 ?_
  have hr16 := hlt hr
  simp only [tenantReg, CAP_RULE_CFG_EN, rCAP_RULE_CFG]
  omega

theorem completionsOut_sameTenancy (s : State) (tn : Nat) (x : Tenant) : s.SameTenancy (s.completionsOut tn x) :=
  (s.cplFlush_sameTenancy tn _).trans (inbandFlush_sameTenancy _ tn 64)

end
end State
end Sys2Proof.Machine
end

section
/-! SUPPORT. The end of a detach sequence, and what it leaves of other tenants (R488, R489). -/

namespace Sys2Proof.Machine
namespace State

section
variable {s t u : State} {tn n cause : Nat} {x : Tenant}

/-! ## All but the end of the sequence -/

theorem tenantReg_window (tn : Nat) : tenantReg (rTNW_CTL tn) ∧ tenantReg (rTNW_REQ0 tn) := by
  simp only [tenantReg, rTNW_CTL, rTNW_REQ0]
  omega

theorem tenantReg_state (htn : tn < 64) : tenantReg (rHST_TN_STATE tn) := by
  simp only [tenantReg, rHST_TN_STATE]
  omega

theorem tenantReg_hst {a : Nat} (h : 0x1800000 ≤ a ∧ a < 0x1820000) : tenantReg a := ⟨h.1, .inl h.2⟩

theorem detachBegun_onlyRegs (s : State) (tn cause : Nat) : s.OnlyRegs (s.detachBegun tn cause) [rHST_TN_STATE tn] :=
  ((OnlyRegs.refl s _).put _ List.mem_cons_self).put _ List.mem_cons_self

theorem detachBegun_shows (s : State) (tn : Nat) (hc : cause < 16) : (s.detachBegun tn cause).tenIs tn .detaching = true ∧
    (s.detachBegun tn cause).fld (HST_TN_STATE_CAUSE tn) = cause := by
  refine ⟨beq_iff_eq.mpr ?_, (fld_put_self _ _ _ (by simp [HST_TN_STATE_CAUSE])).trans (Nat.mod_eq_of_lt hc)⟩
  refine (fld_put_beside _ _ (by simp [HST_TN_STATE_STATE]) (by simp [HST_TN_STATE_STATE, HST_TN_STATE_CAUSE])).trans ?_
  exact fld_put_self _ _ _ (by simp [HST_TN_STATE_STATE])

theorem reclaimCounted_onlyRegs (s : State) : s.OnlyRegs s.reclaimCounted [rHST_RECLAIM_CNT, rHST_EVT] :=
  ((OnlyRegs.refl s _).put _ List.mem_cons_self).put _ (by simp [HST_EVT_RECLAIM])

theorem reclaimCounted_shows (s : State) : s.reclaimCounted.flag HST_EVT_RECLAIM = true ∧
    s.reclaimCounted.fld HST_RECLAIM_CNT_VAL = (s.fld HST_RECLAIM_CNT_VAL + 1) % 2 ^ 32 :=
  ⟨flag_setFlag_self _ (by decide) rfl, (fld_put_addr _ _ (by decide)).trans (fld_inc_self s (by decide))⟩

/-- What one kind of change leaves of the registers, the chart, the schedule, the keys and the tenants. -/
theorem OnlyRegs.unregistered {as : List Nat} (h : s.OnlyRegs t as) : t.active = s.active ∧ t.car = s.car ∧ t.blf = s.blf ∧ t.tenants = s.tenants :=
  ⟨(congrArg State.active h.rest :), (congrArg State.car h.rest :), (congrArg State.blf h.rest :), (congrArg State.tenants h.rest :)⟩

/-- The work before the keys leave, after the tenant is DETACHING. -/
structure Noted (s t : State) : Prop where
  regs : ∀ a, tenantReg a → a ∉ [rHST_RECLAIM_CNT, rHST_EVT] → t.reg a = s.reg a
  active : t.active = s.active
  sched : t.car.sched = s.car.sched
  slots : t.blf.slots = s.blf.slots
  ten : ∀ n, TenKept (s.ten n) (t.ten n)

theorem SameTenancy.noted (h : s.SameTenancy t) : s.Noted t := ⟨fun a ha _ => h.regs a ha, h.active, h.sched, h.slots, h.ten⟩

theorem SameTenancy.counted (h : s.SameTenancy t) : s.Noted t.reclaimCounted := by
  have hcount := t.reclaimCounted_onlyRegs
  obtain ⟨hactive, hcar, hblf, htenants⟩ := hcount.unregistered
  exact ⟨fun a ha hno => (hcount.regs a hno).trans (h.regs a ha), hactive.trans h.active, (congrArg Car.sched hcar).trans h.sched,
    (congrArg Blf.slots hblf).trans h.slots, fun n => by rw [ten_congr htenants n]; exact h.ten n⟩

theorem detachNoted_noted (s : State) (tn cause : Nat) : (s.detachBegun tn cause).Noted (s.detachNoted tn cause) := by
  have hended := (s.detachBegun tn cause).workEnded_sameTenancy tn (s.ten tn)
  unfold detachNoted
  split
  · exact hended.counted
  · exact (hended.trans (completionsOut_sameTenancy _ tn (s.ten tn))).noted

theorem detachSwept_tenure (s : State) (tn cause : Nat) : (s.detachNoted tn cause).SameTenure (s.detachSwept tn cause) :=
  (keysOut_sameTenure _ tn).trans (tenEntriesOut_sameTenancy _ tn).tenure

theorem detachSwept_slot (s : State) (tn cause n : Nat) : (s.detachSwept tn cause).slot n = ((s.detachNoted tn cause).keysOut tn).slot n :=
  (tenEntriesOut_sameTenancy _ tn).slot n

theorem detachNoted_slot (s : State) (tn cause n : Nat) : (s.detachNoted tn cause).slot n = s.slot n :=
  slot_congr ((detachNoted_noted s tn cause).slots.trans (congrArg Blf.slots (s.detachBegun_onlyRegs tn cause).unregistered.2.2.1)) n

theorem detachSwept_fld (s : State) (tn cause : Nat) {f : Fld} (hf : tenantReg f.addr) (hno : f.addr ∉ [rHST_RECLAIM_CNT, rHST_EVT]) :
    (s.detachSwept tn cause).fld f = (s.detachBegun tn cause).fld f :=
  ((s.detachSwept_tenure tn cause).fld hf).trans (fld_of_reg ((detachNoted_noted s tn cause).regs _ hf hno))

theorem detachSwept_ten (s : State) (tn cause n : Nat) : TenKept (s.ten n) ((s.detachSwept tn cause).ten n) := by
  have hbegun := ten_congr (s.detachBegun_onlyRegs tn cause).unregistered.2.2.2 n
  exact hbegun ▸ ((detachNoted_noted s tn cause).ten n).trans ((s.detachSwept_tenure tn cause).ten n)

theorem detachSwept_sched (s : State) (tn cause : Nat) : (s.detachSwept tn cause).car.sched = s.car.sched :=
  ((s.detachSwept_tenure tn cause).sched.trans (detachNoted_noted s tn cause).sched).trans
    (congrArg Car.sched (s.detachBegun_onlyRegs tn cause).unregistered.2.1)

theorem detachSwept_streams (s : State) (tn cause m : Nat) : (s.detachSwept tn cause).tenStreams m = s.tenStreams m := by
  rw [tenStreams, tenStreams, detachSwept_sched]

theorem detachSwept_gone (s : State) (cause : Nat) (hn : 2 ≤ n) (hlt : n < 1024) (hc : (s.slot n).cur.isSome = true) (ho : (s.slot n).owner = tn) :
    ((s.detachSwept tn cause).slot n).cur = none ∧ ((s.detachSwept tn cause).slot n).pend = none := by
  have hnoted := s.detachNoted_slot tn cause n
  rw [detachSwept_slot, keysOut_gone hn hlt (by rwa [hnoted]) (by rwa [hnoted])]
  exact ⟨rfl, rfl⟩

theorem detachSwept_kept (s : State) (cause : Nat) (h : (s.slot n).owner ≠ tn ∨ (s.slot n).cur = none ∧ (s.slot n).pend = none) :
    (s.detachSwept tn cause).slot n = s.slot n := by
  have hnoted := s.detachNoted_slot tn cause n
  rw [detachSwept_slot, keysOut_kept (by rwa [hnoted]), hnoted]

/-- The state, the cause and the result as the sweep leaves them. -/
theorem detachSwept_shows (s : State) (htn : tn < 64) (hc : cause < 16) : (s.detachSwept tn cause).tenIs tn .detaching = true ∧
    (s.detachSwept tn cause).fld (HST_TN_STATE_CAUSE tn) = cause := by
  have hno : rHST_TN_STATE tn ∉ [rHST_RECLAIM_CNT, rHST_EVT] := by
    simp only [rHST_TN_STATE, rHST_RECLAIM_CNT, rHST_EVT, List.mem_cons, List.not_mem_nil, or_false]
    omega
  obtain ⟨hst, hcause⟩ := s.detachBegun_shows tn hc
  refine ⟨?_, (s.detachSwept_fld tn cause (f := HST_TN_STATE_CAUSE tn) (tenantReg_state htn) hno).trans hcause⟩
  rw [tenIs, s.detachSwept_fld tn cause (f := HST_TN_STATE_STATE tn) (tenantReg_state htn) hno]
  exact hst

/-- A register of the tenants that no step of the sweep writes. -/
theorem detachSwept_reg (s : State) (tn cause : Nat) {a : Nat} (ha : tenantReg a) (hno : a ∉ [rHST_TN_STATE tn, rHST_RECLAIM_CNT, rHST_EVT]) :
    (s.detachSwept tn cause).reg a = s.reg a := by
  rw [List.mem_cons, not_or] at hno
  exact (((s.detachSwept_tenure tn cause).regs a ha).trans ((detachNoted_noted s tn cause).regs a ha hno.2)).trans
    ((s.detachBegun_onlyRegs tn cause).regs a (by simpa using hno.1))

theorem detachSwept_reclaimed (s : State) (htn : tn < 64) (hc : cause ≠ 0) : (s.detachSwept tn cause).flag HST_EVT_RECLAIM = true ∧
    (s.detachSwept tn cause).fld HST_RECLAIM_CNT_VAL = (s.fld HST_RECLAIM_CNT_VAL + 1) % 2 ^ 32 := by
  have hnoted : s.detachNoted tn cause = ((s.detachBegun tn cause).workEnded tn (s.ten tn)).reclaimCounted := if_pos (by simp [hc])
  have htenure := s.detachSwept_tenure tn cause
  obtain ⟨hevt, hcnt⟩ := ((s.detachBegun tn cause).workEnded tn (s.ten tn)).reclaimCounted_shows
  have hended := ((s.detachBegun tn cause).workEnded_sameTenancy tn (s.ten tn)).fld (f := HST_RECLAIM_CNT_VAL) (tenantReg_hst (by decide))
  have hbegun := (s.detachBegun_onlyRegs tn cause).fld (f := HST_RECLAIM_CNT_VAL) (by
    simp only [HST_RECLAIM_CNT_VAL, rHST_RECLAIM_CNT, rHST_TN_STATE, List.mem_singleton]
    omega)
  rw [hended, hbegun, ← hnoted] at hcnt
  rw [← hnoted] at hevt
  exact ⟨(congrArg (· == 1) (htenure.fld (f := HST_EVT_RECLAIM) (tenantReg_hst (by decide)))).trans hevt,
    (htenure.fld (f := HST_RECLAIM_CNT_VAL) (tenantReg_hst (by decide))).trans hcnt⟩

end
end State
end Sys2Proof.Machine
end

section
/-! SUPPORT. What the end of a detach sequence shows (R488, R489). -/

namespace Sys2Proof.Machine
namespace State

section
variable {s t u : State} {tn n m cause : Nat} {x : Tenant}

/-! ## The tenant is ABSENT (R489) -/

/-- What the end of the sequence writes: the pools, an accepted DETACH's result, the state and the event. -/
def doneWrites (s : State) (tn : Nat) : List (Fld × Nat) :=
  [(HST_POOL_RP_FREE, s.fld HST_POOL_RP_FREE + s.fld (TNW_REQ0_RP tn)),
    (HST_POOL_CAP_FREE, s.fld HST_POOL_CAP_FREE + (s.ten tn).capRules.length)] ++
  (if s.fld (TNW_CTL_RESULT tn) = 1 then [(TNW_CTL_RESULT tn, 2)] else []) ++ [(HST_TN_STATE_STATE tn, 0), (HST_EVT_DETACHED, 1)]

/-- A tenant out of service. -/
def outOfService (x : Tenant) : Tenant := { Tenant.absent with unmasked := x.unmasked }

theorem setTen_done (s : State) (tn : Nat) (x : Tenant) : ((s.setTen tn x).tenPut tn .absent).setFlag HST_EVT_DETACHED =
    ((s.tenPut tn .absent).setFlag HST_EVT_DETACHED).setTen tn x := by
  unfold tenPut setFlag
  rw [setTen_put, setTen_put]

theorem put_ite {c : Prop} [Decidable c] (s : State) (f : Fld) (v : Nat) :
    (if c then s.put f v else s) = s.puts (if c then [(f, v)] else []) := by split <;> rfl

theorem detachDone_eq (s : State) (htn : tn < 64) : s.detachDone tn = (s.puts (s.doneWrites tn)).setTen tn (outOfService (s.ten tn)) := by
  have hcap (v : Nat) : (s.put HST_POOL_RP_FREE v).fld HST_POOL_CAP_FREE = s.fld HST_POOL_CAP_FREE := fld_put_beside _ _ (by decide) (by decide)
  have hres (v w : Nat) : ((s.put HST_POOL_RP_FREE v).put HST_POOL_CAP_FREE w).fld (TNW_CTL_RESULT tn) = s.fld (TNW_CTL_RESULT tn) := by
    have hne : (TNW_CTL_RESULT tn).addr ≠ rHST_POOL := by
      simp only [TNW_CTL_RESULT, rTNW_CTL, rHST_POOL]
      omega
    rw [fld_put_addr _ _ hne, fld_put_addr _ _ hne]
  unfold detachDone
  dsimp only
  rw [setTen_done, hcap, hres, put_ite, doneWrites, puts_append, puts_append]
  rfl

theorem doneWrites_apart (s : State) (htn : tn < 64) : (s.doneWrites tn).Pairwise fun a b => apart a.1 b.1 := by
  rw [doneWrites]
  split <;>
  · simp [apart, TNW_CTL_RESULT, HST_TN_STATE_STATE, HST_EVT_DETACHED, HST_POOL_RP_FREE, HST_POOL_CAP_FREE, rTNW_CTL, rHST_TN_STATE, rHST_EVT,
      rHST_POOL]
    omega

theorem doneWrites_read (s : State) (htn : tn < 64) {f : Fld} {v : Nat} (hf : f.lsb + f.wid ≤ 32) (h : (f, v) ∈ s.doneWrites tn) :
    (s.puts (s.doneWrites tn)).fld f = v % 2 ^ f.wid := fld_puts (s.doneWrites_apart htn) hf h s

/-- The registers that the end of the sequence writes. -/
def doneRegs (tn : Nat) : List Nat := [rHST_POOL, rTNW_CTL tn, rHST_TN_STATE tn, rHST_EVT]

theorem doneWrites_onlyRegs (s : State) (tn : Nat) : s.OnlyRegs (s.puts (s.doneWrites tn)) (doneRegs tn) := by
  refine puts_onlyRegs ?_ s
  rw [doneWrites]
  split <;> simp [doneRegs, TNW_CTL_RESULT, HST_TN_STATE_STATE, HST_EVT_DETACHED, HST_POOL_RP_FREE, HST_POOL_CAP_FREE]

/-- The end of a sequence, seen from the tenant. -/
structure DetachEnded (s t : State) (tn : Nat) : Prop where
  absent : t.tenIs tn .absent = true
  cause : t.fld (HST_TN_STATE_CAUSE tn) = s.fld (HST_TN_STATE_CAUSE tn)
  result : s.fld (TNW_CTL_RESULT tn) = 1 → t.fld (TNW_CTL_RESULT tn) = 2
  detached : t.flag HST_EVT_DETACHED = true
  reclaim : t.flag HST_EVT_RECLAIM = s.flag HST_EVT_RECLAIM
  rp : t.fld HST_POOL_RP_FREE = (s.fld HST_POOL_RP_FREE + s.fld (TNW_REQ0_RP tn)) % 2 ^ HST_POOL_RP_FREE.wid
  cap : t.fld HST_POOL_CAP_FREE = (s.fld HST_POOL_CAP_FREE + (s.ten tn).capRules.length) % 2 ^ HST_POOL_CAP_FREE.wid
  cmds : (t.ten tn).cmds = []
  others : ∀ m, m ≠ tn → t.ten m = s.ten m
  regs : s.RegsBut t (doneRegs tn)
  rest : { t with regs := s.regs, tenants := s.tenants } = s

theorem detachDone_ended (s : State) (htn : tn < 64) : s.DetachEnded (s.detachDone tn) tn := by
  have honly := s.doneWrites_onlyRegs tn
  have hread {f : Fld} {v : Nat} := s.doneWrites_read htn (f := f) (v := v)
  have hbeside {f : Fld} (hf : f.lsb + f.wid ≤ 32) (h : ∀ e ∈ s.doneWrites tn, apart e.1 f) := fld_puts_apart hf h s
  have hten (m : Nat) := puts_ten (s.doneWrites tn) s m
  have hmem : (HST_TN_STATE_STATE tn, 0) ∈ s.doneWrites tn ∧ (HST_EVT_DETACHED, 1) ∈ s.doneWrites tn ∧
      (HST_POOL_RP_FREE, s.fld HST_POOL_RP_FREE + s.fld (TNW_REQ0_RP tn)) ∈ s.doneWrites tn ∧
      (HST_POOL_CAP_FREE, s.fld HST_POOL_CAP_FREE + (s.ten tn).capRules.length) ∈ s.doneWrites tn := by simp [doneWrites]
  obtain ⟨hstate, hevt, hrp, hcap⟩ := hmem
  have happart : ∀ e ∈ s.doneWrites tn, apart e.1 (HST_TN_STATE_CAUSE tn) ∧ apart e.1 HST_EVT_RECLAIM := by
    rw [doneWrites]
    split <;>
    · simp [apart, TNW_CTL_RESULT, HST_TN_STATE_STATE, HST_TN_STATE_CAUSE, HST_EVT_DETACHED, HST_EVT_RECLAIM, HST_POOL_RP_FREE, HST_POOL_CAP_FREE,
        rTNW_CTL, rHST_TN_STATE, rHST_EVT, rHST_POOL]
      omega
  have hcause := hbeside (f := HST_TN_STATE_CAUSE tn) (by simp [HST_TN_STATE_CAUSE]) fun e he => (happart e he).1
  have hreclaim := hbeside (f := HST_EVT_RECLAIM) (by decide) fun e he => (happart e he).2
  have hstate' := hread (by simp [HST_TN_STATE_STATE]) hstate
  have hevt' := hread (by decide) hevt
  have hrp' := hread (by decide) hrp
  have hcap' := hread (by decide) hcap
  have hresult (h : s.fld (TNW_CTL_RESULT tn) = 1) := hread (f := TNW_CTL_RESULT tn) (v := 2) (by simp [TNW_CTL_RESULT]) (by simp [doneWrites, h])
  rw [detachDone_eq s htn]
  generalize s.puts (s.doneWrites tn) = v at *
  exact {
    absent := by rw [setTen_tenIs, tenIs, hstate']; rfl
    cause := by rw [setTen_fld, hcause]
    result := fun h => by rw [setTen_fld, hresult h]; rfl
    detached := by rw [setTen_flag, flag, hevt']; rfl
    reclaim := by rw [setTen_flag, flag, hreclaim, ← flag]
    rp := by rw [setTen_fld, hrp']
    cap := by rw [setTen_fld, hcap']
    cmds := by rw [ten_setTen_self]; rfl
    others := fun m hm => by rw [ten_setTen_ne _ _ hm, hten]
    regs := fun a ha => honly.regs a ha
    rest := setTen_rest honly.rest tn _ }

/-! ## The streams are withdrawn first (R299, R489) -/

/-- A sequence that waits for its streams, seen from the tenant. -/
structure WithdrawalQueued (s t : State) (tn : Nat) : Prop where
  regs : s.RegsBut t carShown
  withdrawing : (t.ten tn).withdrawing = true
  head : t.car.queue.head? = some ⟨.detach tn, (s.tenStreams tn).map (.withdraw ·), false, none, false⟩
  sched : t.car.sched = s.car.sched
  active : t.active = s.active
  slots : t.blf.slots = s.blf.slots
  others : ∀ m, m ≠ tn → t.ten m = s.ten m

theorem withdrawalQueued_shows (s : State) (tn : Nat) (b : Bool) : s.WithdrawalQueued (s.withdrawalQueued tn b) tn := by
  have hframe := s.setTen_frame tn { s.ten tn with quiet := b, withdrawing := true, nm := [] }
  have hself := s.ten_setTen_self tn { s.ten tn with quiet := b, withdrawing := true, nm := [] }
  have hother (m : Nat) (hm : m ≠ tn) := s.ten_setTen_ne { s.ten tn with quiet := b, withdrawing := true, nm := [] } hm
  have hregs (a : Nat) : (s.setTen tn { s.ten tn with quiet := b, withdrawing := true, nm := [] }).reg a = s.reg a := rfl
  unfold withdrawalQueued
  generalize s.setTen tn { s.ten tn with quiet := b, withdrawing := true, nm := [] } = v at *
  have hten (c : Car) (m : Nat) := ten_congr (v.putCar_tenants c) m
  have honly (c : Car) := v.putCar_onlyRegs c
  exact {
    regs := fun a ha => (v.putCar_regsBut _ a ha).trans (hregs a)
    withdrawing := by rw [hten, hself]
    head := by rw [putCar_car]; rfl
    sched := by rw [putCar_car]
    active := ((honly _).unregistered.1).trans (congrArg State.active hframe :)
    slots := congrArg Blf.slots ((honly _).unregistered.2.2.1.trans (congrArg State.blf hframe :))
    others := fun m hm => (hten _ m).trans (hother m hm) }

end
end State
end Sys2Proof.Machine
end

section
/-! SUPPORT. DETACH and reclaims of a tenant, and what they leave of the others (R488, R489). -/

namespace Sys2Proof.Machine
namespace State

section
variable {s t u : State} {tn n m cause : Nat} {x : Tenant}

/-! ## A sequence that ends at once, and one that waits -/

theorem detach_ended (htn : tn < 64) (hs : s.tenStreams tn = []) (cause : Nat) : (s.detachSwept tn cause).DetachEnded (s.detach tn cause) tn := by
  rw [detach_eq, if_pos (by rw [detachSwept_streams, hs])]
  exact detachDone_ended _ htn

theorem detach_queued (hs : s.tenStreams tn ≠ []) (cause : Nat) : (s.detachSwept tn cause).WithdrawalQueued (s.detach tn cause) tn := by
  rw [detach_eq, if_neg (by rwa [detachSwept_streams])]
  exact withdrawalQueued_shows _ _ _

theorem DetachEnded.slots (h : s.DetachEnded t tn) : t.blf.slots = s.blf.slots := congrArg Blf.slots (congrArg State.blf h.rest :)

theorem DetachEnded.slot (h : s.DetachEnded t tn) (n : Nat) : t.slot n = s.slot n := slot_congr h.slots n

/-! ## A reclaim (R488) -/

theorem tnState_notOf (htn : tn < 64) (hm : m ≠ tn) : rHST_TN_STATE tn ∉ [rHST_TN_STATE m, rHST_RECLAIM_CNT, rHST_EVT] := by
  simp only [rHST_TN_STATE, rHST_RECLAIM_CNT, rHST_EVT, List.mem_cons, List.not_mem_nil, or_false]
  omega

/-- A tenant reclaimed that had no stream. -/
structure Reclaimed (s t : State) (tn cause : Nat) : Prop where
  absent : t.tenIs tn .absent = true
  cause : t.fld (HST_TN_STATE_CAUSE tn) = cause
  reclaim : t.flag HST_EVT_RECLAIM = true
  detached : t.flag HST_EVT_DETACHED = true
  cmds : (t.ten tn).cmds = []
  gone : ∀ n, 2 ≤ n → n < 1024 → (s.slot n).cur.isSome = true → (s.slot n).owner = tn → (t.slot n).cur = none ∧ (t.slot n).pend = none
  count : t.fld HST_RECLAIM_CNT_VAL = (s.fld HST_RECLAIM_CNT_VAL + 1) % 2 ^ 32

theorem detach_reclaimed (htn : tn < 64) (hs : s.tenStreams tn = []) (h0 : cause ≠ 0) (hc : cause < 16) : s.Reclaimed (s.detach tn cause) tn cause := by
  have hend := detach_ended htn hs cause
  obtain ⟨hevt, hcnt⟩ := s.detachSwept_reclaimed htn h0
  have hnotDone : rHST_RECLAIM_CNT ∉ doneRegs tn := by
    simp only [doneRegs, rHST_RECLAIM_CNT, rHST_POOL, rTNW_CTL, rHST_TN_STATE, rHST_EVT, List.mem_cons, List.not_mem_nil, or_false]
    omega
  exact {
    absent := hend.absent
    cause := hend.cause.trans (s.detachSwept_shows htn hc).2
    reclaim := hend.reclaim.trans hevt
    detached := hend.detached
    cmds := hend.cmds
    gone := fun n hn hlt hcur ho => by rw [hend.slot]; exact s.detachSwept_gone cause hn hlt hcur ho
    count := (fld_of_reg (hend.regs _ hnotDone)).trans hcnt }

theorem reclaimTenant_live (hl : s.tenLive tn = true) (cause : Nat) : s.reclaimTenant tn cause = s.detach tn cause := if_pos hl
theorem reclaimTenant_idle (hl : s.tenLive tn = false) (cause : Nat) : s.reclaimTenant tn cause = s := if_neg (by simp [hl])

/-! ## Another tenant -/

/-- What the reclaim of another tenant leaves of a tenant: its state, its streams, its keys, and the events. -/
structure LeftAlone (tn : Nat) (s t : State) : Prop where
  state : t.reg (rHST_TN_STATE tn) = s.reg (rHST_TN_STATE tn)
  reclaim : s.flag HST_EVT_RECLAIM = true → t.flag HST_EVT_RECLAIM = true
  detached : s.flag HST_EVT_DETACHED = true → t.flag HST_EVT_DETACHED = true
  sched : t.car.sched = s.car.sched
  slots : ∀ n, (s.slot n).owner = tn ∨ (s.slot n).cur = none ∧ (s.slot n).pend = none → t.slot n = s.slot n
  cmds : (s.ten tn).cmds = [] → (t.ten tn).cmds = []

theorem LeftAlone.refl (tn : Nat) (s : State) : LeftAlone tn s s := ⟨rfl, id, id, rfl, fun _ _ => rfl, id⟩

theorem LeftAlone.trans (h : LeftAlone tn s t) (k : LeftAlone tn t u) : LeftAlone tn s u :=
  ⟨k.state.trans h.state, fun hs => k.reclaim (h.reclaim hs), fun hs => k.detached (h.detached hs), k.sched.trans h.sched,
    fun n hn => (k.slots n (by rwa [h.slots n hn])).trans (h.slots n hn), fun hs => k.cmds (h.cmds hs)⟩

theorem LeftAlone.tenIs (h : LeftAlone tn s t) (st : TenState) : t.tenIs tn st = s.tenIs tn st :=
  congrArg (· == st.code) (fld_of_reg (f := HST_TN_STATE_STATE tn) h.state)

theorem LeftAlone.tenLive (h : LeftAlone tn s t) : t.tenLive tn = s.tenLive tn := by rw [State.tenLive, State.tenLive, h.tenIs, h.tenIs]

theorem LeftAlone.tenStreams (h : LeftAlone tn s t) : t.tenStreams tn = s.tenStreams tn := by rw [State.tenStreams, State.tenStreams, h.sched]

theorem reclaimCounted_detached (s : State) : s.reclaimCounted.flag HST_EVT_DETACHED = s.flag HST_EVT_DETACHED :=
  (flag_put_beside _ _ (by decide) (by decide)).trans (flag_put_addr _ _ (by decide))

theorem detachSwept_detached (s : State) (hc : cause ≠ 0) : (s.detachSwept tn cause).flag HST_EVT_DETACHED = s.flag HST_EVT_DETACHED := by
  have hnoted : s.detachNoted tn cause = ((s.detachBegun tn cause).workEnded tn (s.ten tn)).reclaimCounted := if_pos (by simp [hc])
  have hended := ((s.detachBegun tn cause).workEnded_sameTenancy tn (s.ten tn)).fld (f := HST_EVT_DETACHED) (tenantReg_hst (by decide))
  have hbegun := (s.detachBegun_onlyRegs tn cause).fld (f := HST_EVT_DETACHED) (by
    simp only [HST_EVT_DETACHED, rHST_EVT, rHST_TN_STATE, List.mem_singleton]
    omega)
  have hcounted := ((s.detachBegun tn cause).workEnded tn (s.ten tn)).reclaimCounted_detached
  rw [← hnoted, flag, flag, hended, hbegun] at hcounted
  exact (congrArg (· == 1) ((s.detachSwept_tenure tn cause).fld (f := HST_EVT_DETACHED) (tenantReg_hst (by decide)))).trans hcounted

theorem detachSwept_leftAlone (s : State) (htn : tn < 64) (hm : m < 64) (hne : m ≠ tn) (hc : cause ≠ 0) : LeftAlone tn s (s.detachSwept m cause) where
  state := s.detachSwept_reg m cause (tenantReg_state htn) (tnState_notOf htn hne)
  reclaim _ := (s.detachSwept_reclaimed hm hc).1
  detached h := (s.detachSwept_detached hc).trans h
  sched := s.detachSwept_sched m cause
  slots n hn := s.detachSwept_kept cause (hn.imp (fun h => by rw [h]; exact hne.symm) id)
  cmds := (s.detachSwept_ten m cause tn).cmds

theorem DetachEnded.leftAlone (h : s.DetachEnded t m) (htn : tn < 64) (hne : m ≠ tn) : LeftAlone tn s t where
  state := h.regs _ (by
    simp only [doneRegs, rHST_TN_STATE, rHST_POOL, rTNW_CTL, rHST_EVT, List.mem_cons, List.not_mem_nil, or_false]
    omega)
  reclaim hs := h.reclaim.trans hs
  detached _ := h.detached
  sched := congrArg Car.sched (congrArg State.car h.rest :)
  slots n _ := h.slot n
  cmds hs := by rw [h.others tn hne.symm]; exact hs

theorem WithdrawalQueued.leftAlone (h : s.WithdrawalQueued t m) (htn : tn < 64) (hne : m ≠ tn) : LeftAlone tn s t where
  state := h.regs _ (by
    simp only [carShown, rHST_TN_STATE, rCAR_STATUS, rCAR_PEAL, rCAR_SHD_PEAL, rCAR_DOWNBEAT_LO, rCAR_DOWNBEAT_HI, List.mem_cons, List.not_mem_nil,
      or_false]
    omega)
  reclaim hs := (congrArg (· == 1) (fld_of_reg (f := HST_EVT_RECLAIM) (h.regs _ (by decide)))).trans hs
  detached hs := (congrArg (· == 1) (fld_of_reg (f := HST_EVT_DETACHED) (h.regs _ (by decide)))).trans hs
  sched := h.sched
  slots n _ := slot_congr h.slots n
  cmds hs := by rw [h.others tn hne.symm]; exact hs

theorem reclaimTenant_leftAlone (s : State) (htn : tn < 64) (hm : m < 64) (hne : m ≠ tn) (hc : cause ≠ 0) :
    LeftAlone tn s (s.reclaimTenant m cause) := by
  cases hl : s.tenLive m with
  | false =>
    rw [reclaimTenant_idle hl]
    exact .refl tn s
  | true =>
    rw [reclaimTenant_live hl]
    have hswept := s.detachSwept_leftAlone htn hm hne hc
    by_cases hs : s.tenStreams m = []
    · exact hswept.trans ((detach_ended hm hs cause).leftAlone htn hne)
    · exact hswept.trans ((detach_queued hs cause).leftAlone htn hne)

/-- The tenants of a link reclaimed, seen from one of them. -/
theorem reclaimAll_reclaims {l : List Nat} (hnodup : l.Nodup) (hlt : ∀ m ∈ l, m < 64) (hmem : tn ∈ l) (hl : s.tenLive tn = true)
    (hs : s.tenStreams tn = []) (h0 : cause ≠ 0) (hc : cause < 16) {t : State} (ht : t = l.foldl (fun s m => s.reclaimTenant m cause) s) :
    t.tenIs tn .absent = true ∧ t.fld (HST_TN_STATE_CAUSE tn) = cause ∧ t.flag HST_EVT_RECLAIM = true ∧ t.flag HST_EVT_DETACHED = true ∧
    (t.ten tn).cmds = [] ∧
    ∀ n, 2 ≤ n → n < 1024 → (s.slot n).cur.isSome = true → (s.slot n).owner = tn → (t.slot n).cur = none := by
  have htn := hlt tn hmem
  obtain ⟨l1, l2, h1, h2, hl1, hl2, heq⟩ := foldl_once (f := fun s m => s.reclaimTenant m cause) hnodup hmem s
  have hothers {l' : List Nat} (hno : tn ∉ l') (hsub : ∀ q ∈ l', q ∈ l) (v : State) :
      LeftAlone tn v (l'.foldl (fun s m => s.reclaimTenant m cause) v) :=
    foldl_relates (R := LeftAlone tn) (LeftAlone.refl tn) .trans
      (fun w q hq => w.reclaimTenant_leftAlone htn (hlt q (hsub q hq)) (fun e => hno (e ▸ hq)) h0) v
  have hbefore := hothers h1 hl1 s
  have hdone := detach_reclaimed htn (hbefore.tenStreams.trans hs) h0 hc
  rw [← reclaimTenant_live (hbefore.tenLive.trans hl)] at hdone
  have hafter := hothers h2 hl2 ((l1.foldl (fun s m => s.reclaimTenant m cause) s).reclaimTenant tn cause)
  rw [← heq, ← ht] at hafter
  refine ⟨(hafter.tenIs _).trans hdone.absent, (fld_of_reg hafter.state).trans hdone.cause, hafter.reclaim hdone.reclaim,
    hafter.detached hdone.detached, hafter.cmds hdone.cmds, fun n hn hlt hcur ho => ?_⟩
  have hslot := hbefore.slots n (.inl ho)
  have hgone := hdone.gone n hn hlt (by rwa [hslot]) (by rwa [hslot])
  rw [hafter.slots n (.inr hgone)]
  exact hgone.1

end
end State
end Sys2Proof.Machine
end

section
/-! PROOFS. A tenant attaches, dozes, resumes, detaches and is reclaimed: O57. -/

namespace Sys2Proof.Machine
namespace State

section
variable {s t u : State} {r : Requester} {tn n m v d link sel cause : Nat} {woc : Bool} {x : Tenant} {c : Instr}

/-! ## DETACH (R485, R489) -/

/-- The tenant's function has asked for DETACH. -/
def detachAsked (s : State) (tn : Nat) (woc : Bool) : State := ((s.tenTouch tn).putWoc tn woc).tenResult tn 1

theorem tnwDetach_runs (ho : s.tenOwner r tn = true) (hl : s.tenLive tn = true) :
    exec (.tnwDetach r tn woc) s = .next ((s.detachAsked tn woc).detach tn 0) := by
  have hlive : ((s.tenTouch tn).putWoc tn woc).tenLive tn = true := by rwa [tenLive, putWoc_tenIs, putWoc_tenIs, ← tenLive]
  exact congrArg Host.Outcome.next ((writeTnwCtl_own ho 2 woc).trans (if_pos hlive))

theorem detachAsked_only (s : State) (tn : Nat) (woc : Bool) : s.OnlyTenants (s.detachAsked tn woc) (ctlRegs tn) :=
  (((OnlyTenants.touch s tn _).put _ (by simp [ctlRegs, TNW_CTL_WOC])).put _ (by simp [ctlRegs, HST_TN_STATE_WOC])).put _
    (by simp [ctlRegs, TNW_CTL_RESULT])

theorem detachAsked_result (s : State) (tn : Nat) (woc : Bool) : (s.detachAsked tn woc).fld (TNW_CTL_RESULT tn) = 1 :=
  fld_put_self _ _ 1 (by simp [TNW_CTL_RESULT])

theorem detachAsked_ten (s : State) (tn : Nat) (woc : Bool) : (s.detachAsked tn woc).ten tn = { s.ten tn with live := s.clk } := by
  rw [detachAsked, tenResult, put_ten, putWoc_ten, ten_tenTouch]

theorem OnlyTenants.streams {as : List Nat} (h : s.OnlyTenants t as) (m : Nat) : t.tenStreams m = s.tenStreams m := by
  rw [State.tenStreams, State.tenStreams, show t.car = s.car from (congrArg State.car h.rest :)]

theorem OnlyTenants.slot {as : List Nat} (h : s.OnlyTenants t as) (n : Nat) : t.slot n = s.slot n :=
  slot_congr (congrArg Blf.slots (congrArg State.blf h.rest :)) n

theorem window_notSwept (tn : Nat) : rTNW_CTL tn ∉ [rHST_TN_STATE tn, rHST_RECLAIM_CNT, rHST_EVT] ∧
    rTNW_REQ0 tn ∉ [rHST_TN_STATE tn, rHST_RECLAIM_CNT, rHST_EVT] := by
  simp only [rTNW_CTL, rTNW_REQ0, rHST_TN_STATE, rHST_RECLAIM_CNT, rHST_EVT, List.mem_cons, List.not_mem_nil, or_false]
  omega

theorem hst_notState {a : Nat} (ha : a < 0x1800100) (hno : a ∉ [rHST_RECLAIM_CNT, rHST_EVT]) (tn : Nat) :
    a ∉ [rHST_TN_STATE tn, rHST_RECLAIM_CNT, rHST_EVT] := by
  rw [List.mem_cons, not_or]
  refine ⟨?_, hno⟩
  simp only [rHST_TN_STATE]
  omega

theorem detach_ends (htn : tn < 64) (ho : s.tenOwner r tn = true) (hl : s.tenLive tn = true) (hs : s.tenStreams tn = []) :
    ∃ t, exec (.tnwDetach r tn woc) s = .next t ∧ t.tenIs tn .absent = true ∧
      t.fld (HST_TN_STATE_CAUSE tn) = 0 ∧ t.fld (TNW_CTL_RESULT tn) = 2 ∧ t.flag HST_EVT_DETACHED = true ∧ (t.ten tn).cmds = [] ∧
      t.fld HST_POOL_RP_FREE = (s.fld HST_POOL_RP_FREE + s.fld (TNW_REQ0_RP tn)) % 2 ^ HST_POOL_RP_FREE.wid ∧
      t.fld HST_POOL_CAP_FREE = (s.fld HST_POOL_CAP_FREE + (s.ten tn).capRules.length) % 2 ^ HST_POOL_CAP_FREE.wid ∧
      (16 ≤ n → n < 1024 → (s.slot n).cur.isSome = true → (s.slot n).owner = tn → (t.slot n).cur = none) := by
  have honly := s.detachAsked_only tn woc
  have hresult := s.detachAsked_result tn woc
  have hten := s.detachAsked_ten tn woc
  refine ⟨_, tnwDetach_runs ho hl, ?_⟩
  generalize s.detachAsked tn woc = v at *
  have hend := detach_ended htn ((honly.streams tn).trans hs) 0
  obtain ⟨hctl, hreq⟩ := tenantReg_window tn
  obtain ⟨hctlNot, hreqNot⟩ := window_notSwept tn
  have hpoolReg : (v.detachSwept tn 0).reg rHST_POOL = s.reg rHST_POOL :=
    (v.detachSwept_reg tn 0 (tenantReg_hst (by decide)) (hst_notState (by decide) (by decide) tn)).trans (honly.regs _ (by
      simp only [ctlRegs, rHST_POOL, rTNW_CTL, rHST_TN_STATE, List.mem_cons, List.not_mem_nil, or_false]
      omega))
  have hreqReg : (v.detachSwept tn 0).reg (rTNW_REQ0 tn) = s.reg (rTNW_REQ0 tn) :=
    (v.detachSwept_reg tn 0 hreq hreqNot).trans (honly.regs _ (by
      simp only [ctlRegs, rTNW_REQ0, rTNW_CTL, rHST_TN_STATE, List.mem_cons, List.not_mem_nil, or_false]
      omega))
  have hresultNow : (v.detachSwept tn 0).fld (TNW_CTL_RESULT tn) = 1 :=
    (fld_of_reg (f := TNW_CTL_RESULT tn) (v.detachSwept_reg tn 0 hctl hctlNot)).trans hresult
  have hrules : ((v.detachSwept tn 0).ten tn).capRules = (s.ten tn).capRules := (v.detachSwept_ten tn 0 tn).rules.trans (by rw [hten])
  refine ⟨hend.absent, hend.cause.trans (v.detachSwept_shows htn (by decide)).2, hend.result hresultNow, hend.detached, hend.cmds, ?_, ?_,
    fun hn hlt hcur howner => ?_⟩
  · rw [hend.rp, fld_of_reg (f := HST_POOL_RP_FREE) hpoolReg, fld_of_reg (f := TNW_REQ0_RP tn) hreqReg]
  · rw [hend.cap, fld_of_reg (f := HST_POOL_CAP_FREE) hpoolReg, hrules]
  · have hslot := honly.slot n
    rw [hend.slot]
    exact (v.detachSwept_gone 0 (by omega) hlt (by rwa [hslot]) (by rwa [hslot])).1

theorem detach_waits (htn : tn < 64) (ho : s.tenOwner r tn = true) (hl : s.tenLive tn = true) (hs : s.tenStreams tn ≠ []) :
    ∃ t, exec (.tnwDetach r tn woc) s = .next t ∧ t.tenIs tn .detaching = true ∧
      t.fld (TNW_CTL_RESULT tn) = 1 ∧ (t.ten tn).withdrawing = true ∧
      t.car.queue.head? = some ⟨.detach tn, (s.tenStreams tn).map (.withdraw ·), false, none, false⟩ := by
  have honly := s.detachAsked_only tn woc
  have hresult := s.detachAsked_result tn woc
  refine ⟨_, tnwDetach_runs ho hl, ?_⟩
  generalize s.detachAsked tn woc = v at *
  have hwait := detach_queued (s := v) (tn := tn) (by rwa [honly.streams tn]) 0
  have hkeep {f : Fld} (hf : 0x1800000 ≤ f.addr) : (v.detach tn 0).fld f = (v.detachSwept tn 0).fld f := fld_of_reg (hwait.regs _ (by
    simp only [carShown, rCAR_STATUS, rCAR_PEAL, rCAR_SHD_PEAL, rCAR_DOWNBEAT_LO, rCAR_DOWNBEAT_HI, List.mem_cons, List.not_mem_nil, or_false]
    omega))
  have hhead := hwait.head
  rw [detachSwept_streams, honly.streams] at hhead
  refine ⟨?_, ?_, hwait.withdrawing, hhead⟩
  · rw [tenIs, hkeep (f := HST_TN_STATE_STATE tn) (by simp only [HST_TN_STATE_STATE, rHST_TN_STATE]; omega)]
    exact (v.detachSwept_shows htn (by decide)).1
  · rw [hkeep (f := TNW_CTL_RESULT tn) (by simp only [TNW_CTL_RESULT, rTNW_CTL]; omega)]
    exact (fld_of_reg (f := TNW_CTL_RESULT tn) (v.detachSwept_reg tn 0 (tenantReg_window tn).1 (window_notSwept tn).1)).trans hresult

/-! ## Reclaims (R487, R488) -/

/-- What a reclaim of a tenant without streams shows. -/
def ShowsReclaim (s t : State) (tn sel n cause : Nat) : Prop :=
  t.tenIs tn .absent = true ∧ t.fld (HST_TN_STATE_CAUSE tn) = cause ∧
  t.flag HST_EVT_RECLAIM = true ∧ t.flag HST_EVT_DETACHED = true ∧ (t.ten tn).cmds = [] ∧
  (16 ≤ n → n < 1024 → (s.slot n).cur.isSome = true → (s.slot n).owner = tn → (t.slot n).cur = none) ∧
  (cause = 5 → t.fld HST_CTL_RESULT = 2 ∧ t.fld HST_CTL_SEL = sel % 64) ∧
  (cause ≠ 3 → t.fld HST_RECLAIM_CNT_VAL = (s.fld HST_RECLAIM_CNT_VAL + 1) % 2 ^ 32)

theorem Reclaimed.shows (h : s.Reclaimed t tn cause) (h5 : cause ≠ 5) (sel n : Nat) : s.ShowsReclaim t tn sel n cause :=
  ⟨h.absent, h.cause, h.reclaim, h.detached, h.cmds, fun hn hlt hcur ho => (h.gone n (by omega) hlt hcur ho).1, fun he => absurd he h5,
    fun _ => h.count⟩

theorem liveness_missed (h : s.liveFor tn = some d) (hd : d ≤ clkSince s.clk (s.ten tn).live) :
    exec (.livenessExpire tn false) s = .next (s.reclaimTenant tn 1) := by
  refine congrArg Host.Outcome.next ((if_neg Bool.false_ne_true).trans ?_)
  rw [h]
  exact if_pos hd

theorem liveness_kept (h : s.liveFor tn = none ∨ (s.liveFor tn = some d ∧ clkSince s.clk (s.ten tn).live < d)) :
    exec (.livenessExpire tn false) s = .next s := by
  refine congrArg Host.Outcome.next ((if_neg Bool.false_ne_true).trans ?_)
  obtain hnone | ⟨hsome, hlt⟩ := h
  · rw [hnone]
  · rw [hsome]
    exact if_neg (by omega)

/-- A tenant's vectors after a reset of its function. -/
def flrMasked (s : State) (tn : Nat) : State := s.setTen tn { s.ten tn with unmasked := [], pba := [] }

theorem flr_runs (he : s.tenEnabled tn = true) (hi : s.tenInband tn = false) :
    exec (.functionLevelReset tn) s = .next ((s.reclaimTenant tn 2).flrMasked tn) := congrArg Host.Outcome.next (if_pos ⟨he, hi⟩)

theorem flr_idle (h : s.tenEnabled tn = false ∨ s.tenInband tn = true) : exec (.functionLevelReset tn) s = .next s :=
  congrArg Host.Outcome.next (if_neg (by obtain h | h := h <;> simp [h]))

theorem flrMasked_shows (s : State) (tn : Nat) : ((s.flrMasked tn).ten tn).unmasked = [] ∧ ((s.flrMasked tn).ten tn).pba = [] := by
  rw [flrMasked, ten_setTen_self]
  exact ⟨rfl, rfl⟩

theorem setTen_slot (s : State) (tn : Nat) (x : Tenant) (n : Nat) : (s.setTen tn x).slot n = s.slot n := rfl

theorem Reclaimed.flrMasked (h : s.Reclaimed t tn cause) : s.Reclaimed (t.flrMasked tn) tn cause where
  absent := by rw [State.flrMasked, setTen_tenIs]; exact h.absent
  cause := by rw [State.flrMasked, setTen_fld]; exact h.cause
  reclaim := by rw [State.flrMasked, setTen_flag]; exact h.reclaim
  detached := by rw [State.flrMasked, setTen_flag]; exact h.detached
  cmds := by rw [State.flrMasked, ten_setTen_self]; exact h.cmds
  gone := by
    intro n hn hlt hcur ho
    rw [State.flrMasked, setTen_slot]
    exact h.gone n hn hlt hcur ho
  count := by rw [State.flrMasked, setTen_fld]; exact h.count

theorem dmaError_runs (hi : s.tenInband tn = false) : exec (.dmaError tn) s = .next (s.reclaimTenant tn 4) :=
  congrArg Host.Outcome.next (if_neg (by simp [hi]))

theorem dmaError_idle (h : s.tenLive tn = false ∨ s.tenInband tn = true) : exec (.dmaError tn) s = .next s := by
  refine congrArg Host.Outcome.next ?_
  cases hi : s.tenInband tn with
  | true => exact if_pos rfl
  | false => exact (if_neg Bool.false_ne_true).trans (reclaimTenant_idle (h.resolve_right (by simp [hi])) 4)

theorem mem_linkTenants (h : tn ∈ s.linkTenants link) : tn < 64 := List.mem_range.mp (List.mem_of_mem_filter h)

theorem link_reclaims (hl : s.tenLive tn = true) (hs : s.tenStreams tn = []) (hmem : tn ∈ s.linkTenants link) (sel n : Nat) :
    s.ShowsReclaim ((s.linkTenants link).foldl (fun s tn => s.reclaimTenant tn 3) s) tn sel n 3 := by
  obtain ⟨habsent, hcause, hreclaim, hdetached, hcmds, hgone⟩ := reclaimAll_reclaims (List.nodup_range.filter _) (fun m hm => mem_linkTenants hm)
    hmem hl hs (cause := 3) (by decide) (by decide) rfl
  exact ⟨habsent, hcause, hreclaim, hdetached, hcmds, fun hn hlt hcur ho => hgone n (by omega) hlt hcur ho, fun h => absurd h (by decide),
    fun h => absurd rfl h⟩

/-! ## A reclaim by firmware (R488) -/

theorem writeHstCtl_reclaims (s : State) (tn sel : Nat) : s.writeHstCtl tn sel true =
    if s.tenLive tn then ((s.put HST_CTL_SEL sel).detach tn 5).put HST_CTL_RESULT 2 else (s.put HST_CTL_SEL sel).put HST_CTL_RESULT 4 := by
  simp only [writeHstCtl, Bool.true_eq_false, if_false]

theorem hstReclaim_idle (hl : s.tenLive tn = false) (hr : s.reaches r rHST_CTL) : ∃ t, exec (.hstReclaim r tn sel) s = .next t ∧
    t.fld HST_CTL_RESULT = 4 ∧ s.OnlyRegs t [rHST_CTL] :=
  ⟨_, congrArg Host.Outcome.next ((gated_reaches hr _).trans ((s.writeHstCtl_reclaims tn sel).trans (if_neg (by simp [hl])))),
    fld_put_self _ _ 4 (by decide), ((OnlyRegs.refl s _).put _ List.mem_cons_self).put _ List.mem_cons_self⟩

theorem hstReclaim_runs (hl : s.tenLive tn = true) (hr : s.reaches r rHST_CTL) : exec (.hstReclaim r tn sel) s =
    .next (((s.put HST_CTL_SEL sel).detach tn 5).put HST_CTL_RESULT 2) :=
  congrArg Host.Outcome.next ((gated_reaches hr _).trans ((s.writeHstCtl_reclaims tn sel).trans (if_pos hl)))

theorem put_slot (s : State) (f : Fld) (v n : Nat) : (s.put f v).slot n = s.slot n := rfl
theorem put_tenStreams (s : State) (f : Fld) (v n : Nat) : (s.put f v).tenStreams n = s.tenStreams n := rfl

theorem firmware_reclaims (htn : tn < 64) (hs : s.tenStreams tn = []) (sel n : Nat) :
    s.ShowsReclaim (((s.put HST_CTL_SEL sel).detach tn 5).put HST_CTL_RESULT 2) tn sel n 5 := by
  have hend := detach_ended htn ((s.put_tenStreams HST_CTL_SEL sel tn).trans hs) 5
  have hdone := detach_reclaimed htn ((s.put_tenStreams HST_CTL_SEL sel tn).trans hs) (cause := 5) (by decide) (by decide)
  have hsel : ((s.put HST_CTL_SEL sel).detach tn 5).fld HST_CTL_SEL = sel % 64 := by
    refine (fld_of_reg (f := HST_CTL_SEL) ((hend.regs _ ?_).trans ((s.put HST_CTL_SEL sel).detachSwept_reg tn 5 (tenantReg_hst (by decide))
      (hst_notState (by decide) (by decide) tn)))).trans (fld_put_self s HST_CTL_SEL sel (by decide))
    simp only [doneRegs, HST_CTL_SEL, rHST_CTL, rHST_POOL, rTNW_CTL, rHST_TN_STATE, rHST_EVT, List.mem_cons, List.not_mem_nil, or_false]
    omega
  have hcount : (s.put HST_CTL_SEL sel).fld HST_RECLAIM_CNT_VAL = s.fld HST_RECLAIM_CNT_VAL := fld_put_addr _ _ (by decide)
  have hslot := s.put_slot HST_CTL_SEL sel n
  have hstateReg : rHST_TN_STATE tn ≠ rHST_CTL := by
    simp only [rHST_TN_STATE, rHST_CTL]
    omega
  generalize s.put HST_CTL_SEL sel = w at *
  generalize w.detach tn 5 = v at *
  refine ⟨?_, (fld_put_addr _ _ hstateReg).trans hdone.cause, (flag_put_addr _ _ (by decide)).trans hdone.reclaim,
    (flag_put_addr _ _ (by decide)).trans hdone.detached, ?_, fun hn hlt hcur ho => ?_, fun _ => ⟨fld_put_self _ _ 2 (by decide),
    (fld_put_beside _ _ (by decide) (by decide)).trans hsel⟩, fun _ => (fld_put_addr _ _ (by decide)).trans (hdone.count.trans (by rw [hcount]))⟩
  · rw [tenIs, fld_put_addr (f := HST_CTL_RESULT) (g := HST_TN_STATE_STATE tn) _ _ hstateReg]
    exact hdone.absent
  · rw [put_ten]
    exact hdone.cmds
  · rw [put_slot]
    exact (hdone.gone n (by omega) hlt (by rwa [hslot]) (by rwa [hslot])).1

/-! ## Links (R488, R513) -/

/-- A link in L0. -/
def linkAwake (s : State) (link : Nat) : State := { s with hiWake := s.hiWake.filter (fun k => decide (k ≠ link)) }

theorem link_wakes (s : State) (link : Nat) : ∃ t, exec (.pcieLinkEvent link .l0) s = .next t ∧
    t.hiWake = s.hiWake.filter (fun k => decide (k ≠ link)) ∧
    (link < 2 → s.domOn 10 = true → bitOf (t.fld CLK_STATUS_PCIE) link = true) ∧
    { t with regs := s.regs, hiWake := s.hiWake } = s ∧ s.RegsBut t [rCLK_STATUS] := by
  have hregs (a : Nat) : (s.linkAwake link).reg a = s.reg a := rfl
  have honly (v : Nat) : (s.linkAwake link).OnlyRegs ((s.linkAwake link).put CLK_STATUS_PCIE v) [rCLK_STATUS] :=
    (OnlyRegs.refl _ _).put v List.mem_cons_self
  refine ⟨(s.linkAwake link).put CLK_STATUS_PCIE (if s.domOn 10 then setBits (s.fld CLK_STATUS_PCIE) link 1 1 else 0), rfl, rfl, fun hlink hon => ?_,
    rfl, fun a ha => ((honly _).regs a ha).trans (hregs a)⟩
  rw [hon, if_pos rfl, fld_put_self _ _ _ (by decide)]
  exact (bitOf_mod hlink).trans (bitOf_setBits_one_self _ _ _)

end
end State

open State

/-- Every way out of service shows the reclaim. -/
theorem reclaim_shown {s : State} {r : Requester} {tn link sel n d : Nat} (htn : tn < 64) (hl : s.tenLive tn = true) (hs : s.tenStreams tn = [])
    (c : Instr) (cause : Nat) (h : (c = .livenessExpire tn false ∧ s.liveFor tn = some d ∧ d ≤ clkSince s.clk (s.ten tn).live ∧ cause = 1) ∨
      (c = .functionLevelReset tn ∧ s.tenEnabled tn = true ∧ s.tenInband tn = false ∧ cause = 2) ∨
      (c = .pcieLinkEvent link .hotReset ∧ tn ∈ s.linkTenants link ∧ cause = 3) ∨
      (c = .pcieLinkEvent link .linkDown ∧ tn ∈ s.linkTenants link ∧ cause = 3) ∨
      (c = .dmaError tn ∧ s.tenInband tn = false ∧ cause = 4) ∨ (c = .hstReclaim r tn sel ∧ s.reaches r rHST_CTL ∧ cause = 5)) :
    ∃ t, exec c s = .next t ∧ s.ShowsReclaim t tn sel n cause := by
  have hreclaimed {k : Nat} (h0 : k ≠ 0) (hk : k < 16) : s.Reclaimed (s.reclaimTenant tn k) tn k := by
    rw [reclaimTenant_live hl]
    exact detach_reclaimed htn hs h0 hk
  obtain ⟨rfl, hd, hmissed, rfl⟩ | ⟨rfl, he, hi, rfl⟩ | ⟨rfl, hmem, rfl⟩ | ⟨rfl, hmem, rfl⟩ | ⟨rfl, hi, rfl⟩ | ⟨rfl, hr, rfl⟩ := h
  · exact ⟨_, liveness_missed hd hmissed, (hreclaimed (by decide) (by decide)).shows (by decide) sel n⟩
  · exact ⟨_, flr_runs he hi, (hreclaimed (by decide) (by decide)).flrMasked.shows (by decide) sel n⟩
  · exact ⟨_, rfl, link_reclaims hl hs hmem sel n⟩
  · exact ⟨_, rfl, link_reclaims hl hs hmem sel n⟩
  · exact ⟨_, dmaError_runs hi, (hreclaimed (by decide) (by decide)).shows (by decide) sel n⟩
  · exact ⟨_, hstReclaim_runs hl hr, firmware_reclaims htn hs sel n⟩

/-- Settles O57. The commands of TNW_CTL write a few registers one after another; a detach sequence keeps the tenants' own registers, keys and
rules through the work that ends before it returns them, and the reclaims of a link's other tenants leave a tenant alone. -/
theorem tenantEntersAndLeavesService : Obligations.TenantEntersAndLeavesService := by
  unfold Obligations.TenantEntersAndLeavesService
  refine ⟨fun s r tn v n woc htn => ⟨foreignWrites_ignored, fun ho => ⟨liveWrite_restarts ho, attach_accepted ho, ctl_refused ho,
    doze_accepted ho, fun ha he hw hp => ?_, resume_quiet ho, fun hd he hn hp hi hv hu => resume_sends ho hd he hn hp hi hv hu⟩, grant_idle,
    fun ha => ⟨fun hb => grant_refused htn (by decide) (grant_beyond ha hb), fun he hq => ⟨fun hp => grant_refused htn (by decide)
      (grant_exhausted ha he hq hp), fun hrp hcap => grant_granted htn ha he hq hrp hcap⟩⟩⟩,
    fun s r tn link sel n d woc htn => ⟨fun ho hl => ⟨detach_ends htn ho hl, detach_waits htn ho hl⟩,
      fun hl hs c cause h => reclaim_shown htn hl hs c cause h, fun he hi => ⟨_, flr_runs he hi, flrMasked_shows _ tn⟩, flr_idle, liveness_kept,
      rfl, dmaError_idle, hstReclaim_idle, s.link_wakes link, rfl⟩⟩
  subst hw
  exact doze_wakes ho ha he hp

end Sys2Proof.Machine
end
